-- ==== Sys2Proof/Word.lean ====
section
/-! DEFINITION. The plain words of the Moarin (R9, R10): bytes, 32-bit lanes, 64-bit registers and
instruction words, 52-bit physical addresses, and 32-byte sectors held little-endian. -/

namespace Sys2Proof

/-- One byte. -/
abbrev Byte := BitVec 8
/-- One 32-bit lane of a vector register, or a scalar register (R122, R124). -/
abbrev Lane := BitVec 32
/-- A 64-bit register, index or instruction word (R131, R556). -/
abbrev Word := BitVec 64
/-- A 32-byte sector, byte 0 in the low bits (R10, R206). -/
abbrev SectorData := BitVec 256

end Sys2Proof
end

