-- ==== Sys2Proof/Syntax.lean ====
section
/-! DEFINITION. The commands of the Moarin: one constructor of `Instr` for each row of
spec/opcode_table.json, with the operands the row's rule names. The table gives no row any bits, so the
operands are chosen here (DESIGN CHOICE, log 1): who acts, where, and the values that only the outside can supply. -/

namespace Sys2Proof

/-- The sources of a register access (Table REG-2). -/
inductive Source where
  | dc | mgp
  /-- The PF register window of host port `port` (R505). -/
  | pf (port : Nat)
  /-- Function `f` of host port `port` through its function page (R559). -/
  | page (port f : Nat)
  | warden
  deriving DecidableEq, Repr

/-- One issue of a core (R178): the core, the slots whose dependences, unit, collector and latency let
them issue in this CCLK. The model selects among them by R178. -/
structure Issue where
  die : Nat
  cluster : Nat
  core : Nat
  ready : BitVec 16
  deriving DecidableEq, Repr

/-- One troupe slot (R164). -/
structure SlotAt where
  die : Nat
  cluster : Nat
  core : Nat
  slot : Nat
  deriving DecidableEq, Repr

/-- A compat tuple major.minor (R82). -/
structure Compat where
  major : Nat
  minor : Nat
  deriving DecidableEq, Repr

/-- The content of a die's fuses (R85, Table BOOT-10), and the tuple of the boot ROM that its stepping fixes (Table
BOOT-2). -/
structure FuseData where
  crcOk : Bool
  grade : Nat
  stepping : Nat
  serial : Word
  mapW : BitVec 160
  mapE : BitVec 160
  rom : Compat
  deriving DecidableEq, Repr

/-- One stored firmware copy of the module flash (Table BOOT-3): whether its CRC-32C and directory entry
match, its tuple, and for a runtime copy its boot-pairing list, the image format it accepts and the host driver ABI it
serves (R90, R110). -/
structure FlashCopy where
  good : Bool
  /-- Its bytes, as its directory entry gives them. -/
  length : Nat
  compat : Compat
  pairing : List (Compat × Compat)
  format : Compat
  abi : Compat
  deriving DecidableEq, Repr

/-- One entry of the pairing table (R107): for components 0–5, a major and a minor range. -/
structure PairEntry where
  rows : List (Nat × Nat × Nat)
  deriving DecidableEq, Repr

/-- One request at a slice (R218–R221, R229–R233). -/
structure SliceReq where
  /-- The requester, as die × 320 + its router number (R232). -/
  requester : Nat
  /-- Partition tag of the access. -/
  part : Nat
  /-- QoS class: 0 U, 1 I, 2 B, 3 none. -/
  cls : Nat
  /-- Instance and context of the cause; R243 drops the retries of a killed context. -/
  inst : Nat
  ctx : Nat
  /-- Physical address. -/
  pa : Nat
  /-- HINT of Table ISA-3. -/
  hint : Nat
  /-- FILL-LINE (R218). -/
  fill : Bool
  /-- The request carries STARVE (R233). -/
  starve : Bool
  /-- The normal-world source of the access, where it has one: the DC, the RM's memory read over MGP (R19), or the PF of a
  host port (R448). -/
  normal : Option Source
  deriving DecidableEq, Repr

/-- A coherence message: the header of Table COH-3 without its TYPE, and its payload sectors in
ascending sector order. -/
structure CohMsg where
  part : Nat
  src : Nat
  srcSlice : Nat
  dst : Nat
  dstSlice : Nat
  req : Nat
  homeReq : Bool
  acks : Nat
  mask : BitVec 4
  dirty : BitVec 4
  poison : BitVec 4
  reason : Nat
  cls : Nat
  line : Nat
  incarn : BitVec 16
  /-- Four sectors; only those of MASK are meaningful. -/
  data : List SectorData
  /-- A TYPE that Table COH-2 does not name, as it arrived (R258); 0 where TYPE is the command's. -/
  badType : Nat
  deriving DecidableEq, Repr

/-- Where RED packets combine (R313, R315): a mesh router of a die, or a port of a spine plane. -/
inductive RedPlace where
  | router (die cluster : Nat)
  | spine (plane port : Nat)
  deriving DecidableEq, Repr

/-- The combine key (PART, TAG, OP, SECTOR) of R311. -/
structure RedKey where
  part : Nat
  tag : Nat
  op : Nat
  sector : Nat
  deriving DecidableEq, Repr

/-- A RED packet (Table MESH-4): eight words, each a 32-bit value (narrow) or a 304-bit integer with
the NAN, PINF and NINF bits above it (long, R314). -/
structure RedPkt where
  long : Bool
  key : RedKey
  inst : Nat
  src : Nat
  dst : Nat
  fixed : Bool
  count : Nat
  contrib : Nat
  wmask : BitVec 8
  node : Nat
  incarn : BitVec 16
  /-- The tree node that forwarded it, 0x1FF for a cluster: known from where it arrives, not a header field. -/
  prev : Nat
  words : List (BitVec 307)
  deriving DecidableEq, Repr

/-- A RED packet as it arrives, and whether the entry that it meets is found uncorrectable (R328; log 119). -/
structure RedIn where
  pkt : RedPkt
  bad : Bool
  deriving DecidableEq, Repr

/-- The racks that a bridge packet comes from and is bound for (R308). -/
structure BridgeRacks where
  source : Nat
  dest : Nat
  deriving DecidableEq, Repr

/-- The rack's set-up that the RM starts with: its number, and CENSUS_MS (R103; log 129). -/
structure RackSetUp where
  rackNo : Nat
  censusMs : Nat
  deriving DecidableEq, Repr

/-- A handover to the runtime firmware: the die, and whether the CRCs of its kept copy match (R77; log 98). -/
structure Handover where
  die : Nat
  keptOk : Bool
  deriving DecidableEq, Repr

/-- A dispatched SEQCTL item: its queue, its count c, and the fields of Table SEQ-2. -/
structure SeqItem where
  queue : Nat
  index : Word
  seq : Nat
  step : BitVec 32
  arg0 : BitVec 32
  arg1 : BitVec 32
  addr : Word
  ctx : Nat
  tag : BitVec 16
  cqe : Bool
  irq : Bool
  /-- A nonzero reserved field (R343 fails it BAD-OP). -/
  reservedSet : Bool
  deriving DecidableEq, Repr

/-- A partner table entry (Table HOST-3). STATE: 0 FREE, 1 LIVE, 2 RETIRED. KIND: 0 HOST, 1 CXL,
2 IMPORT, 3 EXPORT. -/
structure PtEntry where
  state : Nat
  kind : Nat
  port : Nat
  part : Nat
  atBit : Bool
  rd : Bool
  wr : Bool
  insts : BitVec 32
  base : Word
  size : Word
  word18 : BitVec 32
  deriving DecidableEq, Repr

/-- The virtual channels (R293). -/
inductive VChan where
  | u | req | rsp | coh | red
  deriving DecidableEq, Repr

/-- The channel's number in UC-HALF-REFUSE. -/
def VChan.code : VChan → Nat
  | .u => 0
  | .req => 1
  | .rsp => 2
  | .coh => 3
  | .red => 4

/-- The packets of Table MESH-2. -/
inductive PktKind where
  /-- A request, a put without data, Inv, InvAck, WBAck, Nack, KILL. -/
  | header
  /-- One sector of data. -/
  | sector
  /-- Four sectors of data. -/
  | line
  | redNarrow
  | redLong
  deriving DecidableEq, Repr

/-- A packet offered at the half link (R217): the routers of its source and its destination on the die, whether each
is an attachment, and what it is. -/
structure HalfPkt where
  src : Nat
  dst : Nat
  srcAttach : Bool
  dstAttach : Bool
  part : Nat
  control : Bool
  vc : VChan
  kind : PktKind
  write : Bool
  inst : Nat
  ctx : Nat
  line : Nat
  deriving DecidableEq, Repr

/-- The commands: one constructor per row of spec/opcode_table.json, in the table's order. -/
inductive Instr where
  /- queues, energy, clocks -/
  | doorbell (port fn : Nat) (pasid : Option (BitVec 20)) (window len : Nat) (v : Word)
  | arbiterGrant (d : Nat)
  | govHold (d : Nat)
  | bucketRefill (d : Nat)
  | instanceBucketRefill (d : Nat)
  | sectorCountReport (d j sectors remote : Nat)
  | monitorSample (d mon : Nat) (code : BitVec 8) (refOk : Bool)
  | tripRestart (d : Nat)
  | cclkStepChange (d : Nat)
  | pllLock (d : Nat)
  | pllLockTimeout (d : Nat)
  | pllLossOfLock (d : Nat)
  | refclkLoss
  | spinePlaneLoss (plane : Nat)
  | dieReset (d : Nat)
  | moduleReset (m : Nat)
  | rackReset
  /- start-up -/
  | fuseRead (d : Nat) (f : FuseData)
  | bootFirmwareLoad (d : Nat)
  | hbmTraining (d : Nat) (failed : BitVec 24)
  | runtimeFirmwareHandover (h : Handover)
  | wardenBoot (d : Nat)
  | moduleRollCall (d : Nat) (after30ms : Bool)
  | beaconSend (kind agent : Nat)
  | beacon (observer port : Nat) (bytes : List Byte)
  | beaconSlotMissed (observer kind agent : Nat)
  | deadNotice (agent d : Nat) (inc : BitVec 16)
  | reclaimTimeout (d dead : Nat)
  | masterElection (d : Nat)
  | rtimeExchange (d : Nat) (t1 t2 t3 t4 : Word)
  | rtimeRemeasure (d : Nat) (offset : Int)
  | censusClose (elapsedMs : Nat)
  | untestedAccept (digest : BitVec 32)
  | stageTimeout (d : Nat)
  /- image load -/
  | imgCheck (bytes : List Byte)
  | imgStage (unwritable : Option Nat)
  | imgQuiesce
  | quiesceIdle
  | quiesceTimeout
  | imgCommit (agent : Nat) (time : Word)
  | commitRelay (agent sender : Nat) (serial time : Word)
  | commitSwap (agent : Nat)
  | imgRelease
  | imgAbort
  | loadAgentTimeout (agent : Nat)
  /- core instructions: bits [63:8] of the word; `imm` is OP[4] of a VS opcode -/
  | vadd (at_ : Issue) (f : BitVec 56)
  | vsub (at_ : Issue) (f : BitVec 56)
  | vmul (at_ : Issue) (f : BitVec 56)
  | vfma (at_ : Issue) (f : BitVec 56)
  | vmin (at_ : Issue) (f : BitVec 56)
  | vmax (at_ : Issue) (f : BitVec 56)
  | vabs (at_ : Issue) (f : BitVec 56)
  | vneg (at_ : Issue) (f : BitVec 56)
  | vlog (at_ : Issue) (f : BitVec 56)
  | vshl (at_ : Issue) (f : BitVec 56)
  | vshr (at_ : Issue) (f : BitVec 56)
  | vcmp (at_ : Issue) (f : BitVec 56)
  | vsel (at_ : Issue) (f : BitVec 56)
  | vcvt (at_ : Issue) (f : BitVec 56)
  | vdot4 (at_ : Issue) (f : BitVec 56)
  | vmov (at_ : Issue) (f : BitVec 56)
  | vrcp (at_ : Issue) (f : BitVec 56)
  | vrsq (at_ : Issue) (f : BitVec 56)
  | vexp2 (at_ : Issue) (f : BitVec 56)
  | vlog2 (at_ : Issue) (f : BitVec 56)
  | vshfl (at_ : Issue) (f : BitVec 56)
  | vred (at_ : Issue) (f : BitVec 56)
  | vadds (at_ : Issue) (imm : Bool) (f : BitVec 56)
  | vsubs (at_ : Issue) (imm : Bool) (f : BitVec 56)
  | vmuls (at_ : Issue) (imm : Bool) (f : BitVec 56)
  | vfmas (at_ : Issue) (imm : Bool) (f : BitVec 56)
  | vmins (at_ : Issue) (imm : Bool) (f : BitVec 56)
  | vmaxs (at_ : Issue) (imm : Bool) (f : BitVec 56)
  | vcmps (at_ : Issue) (imm : Bool) (f : BitVec 56)
  | vmovs (at_ : Issue) (imm : Bool) (f : BitVec 56)
  | sadd (at_ : Issue) (imm : Bool) (f : BitVec 56)
  | ssub (at_ : Issue) (imm : Bool) (f : BitVec 56)
  | smul (at_ : Issue) (imm : Bool) (f : BitVec 56)
  | slog (at_ : Issue) (imm : Bool) (f : BitVec 56)
  | ssh (at_ : Issue) (imm : Bool) (f : BitVec 56)
  | smov (at_ : Issue) (imm : Bool) (f : BitVec 56)
  | scmp (at_ : Issue) (imm : Bool) (f : BitVec 56)
  | sadd64 (at_ : Issue) (imm : Bool) (f : BitVec 56)
  | sread (at_ : Issue) (f : BitVec 56)
  | vread (at_ : Issue) (f : BitVec 56)
  | v2s (at_ : Issue) (f : BitVec 56)
  | vbal (at_ : Issue) (f : BitVec 56)
  | l1inv (at_ : Issue) (f : BitVec 56)
  | sleep (at_ : Issue) (f : BitVec 56)
  | sleepExpiry (t : SlotAt)
  | ld (at_ : Issue) (f : BitVec 56)
  | st (at_ : Issue) (f : BitVec 56)
  | ldAcq (at_ : Issue) (f : BitVec 56)
  | stRel (at_ : Issue) (f : BitVec 56)
  | ldl (at_ : Issue) (f : BitVec 56)
  | stl (at_ : Issue) (f : BitVec 56)
  | ldu (at_ : Issue) (f : BitVec 56)
  | pref (at_ : Issue) (f : BitVec 56)
  | atom (at_ : Issue) (f : BitVec 56)
  | atomAr (at_ : Issue) (f : BitVec 56)
  | atomf (at_ : Issue) (f : BitVec 56)
  | atomfAr (at_ : Issue) (f : BitVec 56)
  | atoml (at_ : Issue) (f : BitVec 56)
  | fence (at_ : Issue) (f : BitVec 56)
  | redst (at_ : Issue) (f : BitVec 56)
  | ldkv (at_ : Issue) (f : BitVec 56)
  | stkv (at_ : Issue) (f : BitVec 56)
  | bra (at_ : Issue) (f : BitVec 56)
  | call (at_ : Issue) (f : BitVec 56)
  | jmpr (at_ : Issue) (f : BitVec 56)
  | converge (at_ : Issue) (f : BitVec 56)
  | convergeTimeout (t : SlotAt)
  | yield (at_ : Issue) (f : BitVec 56)
  | yieldTimeout (t : SlotAt)
  | barc (at_ : Issue) (f : BitVec 56)
  | exit (at_ : Issue) (f : BitVec 56)
  | nop (at_ : Issue) (f : BitVec 56)
  | trap (at_ : Issue) (f : BitVec 56)
  | mma8 (at_ : Issue) (f : BitVec 56)
  | mma16 (at_ : Issue) (f : BitVec 56)
  /- troupes and launches -/
  | kill (d part inst ctx : Nat)
  | troupePlacement (d cluster : Nat)
  | troupeEnd (t : SlotAt)
  | launchDetach (queue : Nat) (index : Word)
  | launchRetire (queue : Nat) (index : Word)
  | irqCoalesceTimeout (d e : Nat)
  /- slices -/
  | sliceReadRequest (d n : Nat) (r : SliceReq)
  | sliceWriteRequest (d n : Nat) (r : SliceReq) (mask : BitVec 32) (data : SectorData)
  | sliceAtomicRequest (d n : Nat) (r : SliceReq) (op : Nat) (wide signed : Bool) (a b : Word)
  | retryBackoffExpiry (requester : Nat)
  | starveHoldLapse (d n : Nat)
  | sliceFillReturn (d n line : Nat) (bad : BitVec 4)
  | fillTimeout (d n line : Nat)
  | sliceSramError (d n kind line sector : Nat)
  | channelFailure (d n : Nat)
  | halfLinkCrossing (d : Nat) (p : HalfPkt)
  | ucPin (d : Nat) (src : Source) (lines part : Nat)
  | ucUnpin (d : Nat) (src : Source) (lines part : Nat)
  /- coherence -/
  | gets (m : CohMsg)
  | getm (m : CohMsg)
  | upg (m : CohMsg)
  | puts (m : CohMsg)
  | putm (m : CohMsg)
  | puto (m : CohMsg)
  | fwdgets (m : CohMsg)
  | fwdgetm (m : CohMsg)
  | inv (m : CohMsg)
  | invack (m : CohMsg)
  | data (m : CohMsg)
  | dataexcl (m : CohMsg)
  | datap (m : CohMsg)
  | dataexclp (m : CohMsg)
  | wback (m : CohMsg)
  | nack (m : CohMsg)
  | cohTimeout (d n line : Nat) (home : Bool)
  | cohQuery (d : Nat) (src : Source)
  /- links and reduction -/
  | toashFrame (d port : Nat) (header : BitVec 32) (flits : List Byte) (crc : BitVec 32)
  | toashNak (d port lastGood : Nat)
  | toashRetrain (d port width : Nat)
  | toashPortDown (d port : Nat)
  | redPacket (w : RedPlace) (x : RedIn)
  | redHoldExpiry (w : RedPlace) (k : RedKey)
  | treeNodeForward (w : RedPlace) (k : RedKey) (elapsed : Nat)
  | redAccumulate (d n : Nat) (x : RedIn)
  | redTimeout (d n : Nat) (k : RedKey)
  /- sequences -/
  | seqctlCreate (it : SeqItem)
  | seqctlDestroy (it : SeqItem)
  | stepOpen (it : SeqItem)
  | stepClose (it : SeqItem)
  | truncate (it : SeqItem)
  | seqctlSet (it : SeqItem)
  | btinval (it : SeqItem)
  | seqctlLink (it : SeqItem)
  | seqctlUnlink (it : SeqItem)
  | seqctlQuery (it : SeqItem)
  | arm (it : SeqItem)
  | attachExchange (queue : Nat) (index : Word)
  | stepRetire (seq : Nat)
  | queEnable (d n : Nat) (src : Source) (v : Word)
  | queReset (d n : Nat) (src : Source)
  /- movers -/
  | movEnd (d m : Nat)
  | movCopy (d m : Nat)
  | shift (d m : Nat)
  | gather (d m : Nat)
  | scatter (d m : Nat)
  | movFill (d m : Nat)
  | wait (d m : Nat)
  | waitPoll (d m : Nat)
  | waitTimeout (d m : Nat)
  | signal (d m : Nat)
  | jump (d m : Nat)
  | movProgWrite (d w : Nat) (src : Source) (v : Word)
  | movSlotWrite (d slot : Nat) (src : Source) (v : Word)
  | restart (d m pc : Nat) (src : Source)
  | abort (d m : Nat) (src : Source)
  | movHaltTimeout (d m : Nat)
  | partnerCompletion (port tag status : Nat) (data : List SectorData)
  | completionTimeout (port tag : Nat)
  /- partitions, instances, warden, interrupts -/
  | goLive (d part inst : Nat) (src : Source)
  | instReset (d part inst : Nat) (src : Source)
  | partReset (d part : Nat) (src : Source)
  | resetComplete (part : Nat) (inst : Option Nat)
  | flr (port f : Nat)
  | powerGate (d kind index : Nat) (src : Source)
  | clockStop (d kind index : Nat) (src : Source)
  | restore (d kind index : Nat) (src : Source)
  | stringTimeout (d : Nat)
  | wardStrWrite (d kind w : Nat) (src : Source) (v : Word)
  | wardDown (d cause : Nat)
  | wardMboxInWrite (d : Nat) (src : Source) (v : Word)
  | wardMboxInRead (d : Nat) (src : Source)
  | wardMboxOutWrite (d : Nat) (src : Source) (v : Word)
  | wardMboxOutRead (d : Nat) (src : Source)
  | partSram (d kind index : Nat)
  | irqMapAddrWrite (d e : Nat) (src : Source) (v : Word)
  | irqMapDataWrite (d e : Nat) (src : Source) (v : Word)
  | irqMapHoldTimeout (d e : Nat)
  | irqUnmask (d e : Nat) (src : Source)
  /- translation -/
  | xltInvalRange (d part inst ctx count : Nat) (src : Source)
  | xltInvalContext (d part inst ctx : Nat) (src : Source)
  | xltInvalInstance (d part inst : Nat) (src : Source)
  | xltInvalPartition (d part : Nat) (src : Source)
  | xltInvTimeout (d silent : Nat)
  | xltCtxBaseWrite (d j : Nat) (src : Source) (v : Word)
  | pageWalk (d cluster part inst ctx va : Nat) (write exec : Bool)
  /- host and partner ports -/
  | linkUp (port speed width : Nat) (flit : Bool) (capacity : Nat)
  | hostLinkDown (port cause : Nat)
  | hostAbi (port : Nat) (abi : Compat)
  | hostApertureWrite (port fn : Nat) (pasid : Option (BitVec 20)) (bar off : Nat) (data : List Byte) (ep more : Bool)
  | hostApertureRead (port fn : Nat) (pasid : Option (BitVec 20)) (bar off len : Nat)
  | atsInvalidation (port addr len : Nat)
  | bridgeRequest (plane bport : Nat) (racks : BridgeRacks) (index off : Nat) (len : Nat) (write : Option (List SectorData))
  | ptWrite (d index : Nat) (src : Source)
  | ptRead (d index : Nat) (src : Source)
  | ptRetire (d index : Nat) (src : Source)
  | hostPortError (port kind status : Nat) (header : BitVec 128)
  /- recorder -/
  | recordAccept (d : Nat)
  | recordDrain (d : Nat)
  | recTest (d : Nat) (src : Source) (v : BitVec 32)
  | recFailClearClusters (d : Nat) (src : Source)
  | recFailClearChans (d : Nat) (src : Source)
  | recFailClearHalves (d : Nat) (src : Source)
  | stagingSramError (d index : Nat)
  /- registers and JTAG -/
  | regRead (frame : List Byte)
  | regWrite (frame : List Byte)
  | registerWrite (d addr size : Nat) (src : Source) (v : Word)
  | rcRegisterRead (d addr size : Nat) (src : Source)
  | jtagExtest (d : Nat) (cells : Word)
  | jtagIdcode (d : Nat)
  | jtagSamplePreload (d : Nat) (cells : Word)
  | jtagDcDebug (d : Nat) (dr : BitVec 96)
  | jtagBypass (d : Nat) (code : BitVec 8)
  /- power and the rack -/
  | shelfPowerGood (shelf : Nat)
  | modEnAssert (spine0 spine1 after120s : Bool)
  | diePowerGood (d : Nat)
  | modEnDrop (m : Nat)
  | busbarLoss
  | cduCheck (inlet flow : Nat)
  | leak (m : Option Nat)
  | stageFault (d : Nat)
  | moduleInsert (m : Nat)
  | moduleFlashWrite (m image copy : Nat) (c : FlashCopy)
  | toashPortTrained (d port width : Nat)
  | clusterFailure (d cluster : Nat)
  | routerFailure (d cluster : Nat)
  | halfLinkLaneDown (d lane : Nat)
  | seqEngineFailure (d slot : Nat)
  | illegalInstruction (at_ : Issue) (w : Word)
  | moverIllegalInstruction (d m : Nat)
  | shelfFailure (shelf : Nat) (whole : Bool)
  | rmBoot (pairing : List PairEntry) (rack : Compat) (spine0 spine1 : Compat) (setUp : RackSetUp)
  | moduleRemove (m : Nat)
  | spineSledReplace (plane : Nat)
  | configurationRequest (port f reg : Nat) (write : Option (BitVec 32))
  deriving DecidableEq, Repr

end Sys2Proof
end

