-- ==== Sys2Proof/WellFormed.lean ====
section
/-! DEFINITION. Which commands are well formed: every part, port, slot and index that a command names exists in the
numbering of the rack (R22–R26, R330, R369, R555); a smaller order code has fewer dies (Table SCP-1). -/

namespace Sys2Proof

/-- A host port, and a source that names one (R23, Table REG-2). -/
def Source.wf : Source → Bool
  | .dc => true
  | .mgp => true
  | .pf p => Nat.blt p 32
  | .page p f => Nat.blt p 32 && Nat.blt f 128
  | .warden => true

def Issue.wf (a : Issue) : Bool := Nat.blt a.die 64 && Nat.blt a.cluster 320 && Nat.blt a.core 16

def SlotAt.wf (a : SlotAt) : Bool :=
  Nat.blt a.die 64 && Nat.blt a.cluster 320 && Nat.blt a.core 16 && Nat.blt a.slot 16

def SliceReq.wf (r : SliceReq) : Bool := Nat.blt r.part 128 && Nat.blt r.cls 4 && Nat.blt r.pa (2 ^ 52) && Nat.blt r.hint 3

/-- The fields of Table COH-3 within their widths; slice 31 stands for none. -/
def CohMsg.wf (m : CohMsg) : Bool :=
  Nat.blt m.part 128 && Nat.blt m.src 64 && Nat.blt m.dst 64 && Nat.blt m.req 64 && Nat.blt m.srcSlice 32
    && Nat.blt m.dstSlice 32 && Nat.blt m.line (2 ^ 45) && Nat.beq m.data.length 4

def RedPlace.wf : RedPlace → Bool
  | .router d c => Nat.blt d 64 && Nat.blt c 320
  | .spine p i => Nat.blt p 2 && Nat.blt i 64

/-- The fields of Table MESH-4 within their widths. -/
def RedPkt.wf (p : RedPkt) : Bool :=
  Nat.blt p.key.part 128 && Nat.blt p.key.tag 4096 && Nat.blt p.key.op 5 && Nat.blt p.key.sector (2 ^ 47)
    && Nat.blt p.inst 32 && Nat.blt p.src 64 && Nat.blt p.dst 64 && Nat.blt p.count 65536 && Nat.blt p.contrib 65536
    && Nat.blt p.node 512 && Nat.beq p.words.length 8

def SeqItem.wf (i : SeqItem) : Bool := Nat.blt i.queue 4096 && Nat.blt i.seq 16384 && Nat.blt i.ctx 256

/-- A packet of a half-link crossing: its ends lie in the two halves, and RED packets are those of its channel (Table
MESH-2). -/
def HalfPkt.wf (p : HalfPkt) : Bool :=
  Nat.blt p.src 320 && Nat.blt p.dst 320 && Nat.blt p.part 128 && decide ((p.src % 20 < 10) ≠ (p.dst % 20 < 10))
    && ((p.kind == .redNarrow || p.kind == .redLong) == (p.vc == .red))

/-- An index, where there is one. -/
def optBelow (n : Option Nat) (lim : Nat) : Bool :=
  match n with
  | some k => Nat.blt k lim
  | none => true

/-- A well-formed command. -/
def Instr.wf (i : Instr) : Bool :=
  match i with
  | .doorbell port _ _ _ _ _ => Nat.blt port 32
  | .arbiterGrant d => Nat.blt d 64
  | .govHold d => Nat.blt d 64
  | .bucketRefill d => Nat.blt d 64
  | .instanceBucketRefill d => Nat.blt d 64
  | .sectorCountReport d j _ _ => Nat.blt d 64 && Nat.blt j 64
  | .monitorSample d i _ _ => Nat.blt d 64 && Nat.blt i 360
  | .tripRestart d => Nat.blt d 64
  | .cclkStepChange d => Nat.blt d 64
  | .pllLock d => Nat.blt d 64
  | .pllLockTimeout d => Nat.blt d 64
  | .pllLossOfLock d => Nat.blt d 64
  | .refclkLoss => true
  | .spinePlaneLoss plane => Nat.blt plane 2
  | .dieReset d => Nat.blt d 64
  | .moduleReset m => Nat.blt m 16
  | .rackReset => true
  | .fuseRead d _ => Nat.blt d 64
  | .bootFirmwareLoad d => Nat.blt d 64
  | .hbmTraining d _ => Nat.blt d 64
  | .runtimeFirmwareHandover h => Nat.blt h.die 64
  | .wardenBoot d => Nat.blt d 64
  | .moduleRollCall d _ => Nat.blt d 64
  | .beaconSend _ _ => true
  | .beacon observer port _ => Nat.blt observer 66 && Nat.blt port 80
  | .beaconSlotMissed observer _ _ => Nat.blt observer 66
  | .deadNotice agent d _ => Nat.blt agent 66 && Nat.blt d 64
  | .reclaimTimeout d dead => Nat.blt d 64 && Nat.blt dead 64
  | .masterElection d => Nat.blt d 64
  | .rtimeExchange d _ _ _ _ => Nat.blt d 64
  | .rtimeRemeasure d _ => Nat.blt d 64
  | .censusClose _ => true
  | .untestedAccept _ => true
  | .stageTimeout d => Nat.blt d 64
  | .imgCheck _ => true
  | .imgStage _ => true
  | .imgQuiesce => true
  | .quiesceIdle => true
  | .quiesceTimeout => true
  | .imgCommit agent _ => Nat.blt agent 66
  | .commitRelay agent sender _ _ => Nat.blt agent 66 && Nat.blt sender 66
  | .commitSwap agent => Nat.blt agent 66
  | .imgRelease => true
  | .imgAbort => true
  | .loadAgentTimeout agent => Nat.blt agent 66
  | .vadd at_ _ => at_.wf
  | .vsub at_ _ => at_.wf
  | .vmul at_ _ => at_.wf
  | .vfma at_ _ => at_.wf
  | .vmin at_ _ => at_.wf
  | .vmax at_ _ => at_.wf
  | .vabs at_ _ => at_.wf
  | .vneg at_ _ => at_.wf
  | .vlog at_ _ => at_.wf
  | .vshl at_ _ => at_.wf
  | .vshr at_ _ => at_.wf
  | .vcmp at_ _ => at_.wf
  | .vsel at_ _ => at_.wf
  | .vcvt at_ _ => at_.wf
  | .vdot4 at_ _ => at_.wf
  | .vmov at_ _ => at_.wf
  | .vrcp at_ _ => at_.wf
  | .vrsq at_ _ => at_.wf
  | .vexp2 at_ _ => at_.wf
  | .vlog2 at_ _ => at_.wf
  | .vshfl at_ _ => at_.wf
  | .vred at_ _ => at_.wf
  | .vadds at_ _ _ => at_.wf
  | .vsubs at_ _ _ => at_.wf
  | .vmuls at_ _ _ => at_.wf
  | .vfmas at_ _ _ => at_.wf
  | .vmins at_ _ _ => at_.wf
  | .vmaxs at_ _ _ => at_.wf
  | .vcmps at_ _ _ => at_.wf
  | .vmovs at_ _ _ => at_.wf
  | .sadd at_ _ _ => at_.wf
  | .ssub at_ _ _ => at_.wf
  | .smul at_ _ _ => at_.wf
  | .slog at_ _ _ => at_.wf
  | .ssh at_ _ _ => at_.wf
  | .smov at_ _ _ => at_.wf
  | .scmp at_ _ _ => at_.wf
  | .sadd64 at_ _ _ => at_.wf
  | .sread at_ _ => at_.wf
  | .vread at_ _ => at_.wf
  | .v2s at_ _ => at_.wf
  | .vbal at_ _ => at_.wf
  | .l1inv at_ _ => at_.wf
  | .sleep at_ _ => at_.wf
  | .sleepExpiry t => t.wf
  | .ld at_ _ => at_.wf
  | .st at_ _ => at_.wf
  | .ldAcq at_ _ => at_.wf
  | .stRel at_ _ => at_.wf
  | .ldl at_ _ => at_.wf
  | .stl at_ _ => at_.wf
  | .ldu at_ _ => at_.wf
  | .pref at_ _ => at_.wf
  | .atom at_ _ => at_.wf
  | .atomAr at_ _ => at_.wf
  | .atomf at_ _ => at_.wf
  | .atomfAr at_ _ => at_.wf
  | .atoml at_ _ => at_.wf
  | .fence at_ _ => at_.wf
  | .redst at_ _ => at_.wf
  | .ldkv at_ _ => at_.wf
  | .stkv at_ _ => at_.wf
  | .bra at_ _ => at_.wf
  | .call at_ _ => at_.wf
  | .jmpr at_ _ => at_.wf
  | .converge at_ _ => at_.wf
  | .convergeTimeout t => t.wf
  | .yield at_ _ => at_.wf
  | .yieldTimeout t => t.wf
  | .barc at_ _ => at_.wf
  | .exit at_ _ => at_.wf
  | .nop at_ _ => at_.wf
  | .trap at_ _ => at_.wf
  | .mma8 at_ _ => at_.wf
  | .mma16 at_ _ => at_.wf
  | .kill d part inst ctx => Nat.blt d 64 && Nat.blt part 128 && Nat.blt inst 32 && Nat.blt ctx 256
  | .troupePlacement d cluster => Nat.blt d 64 && Nat.blt cluster 320
  | .troupeEnd t => t.wf
  | .launchDetach queue _ => Nat.blt queue 4096
  | .launchRetire queue _ => Nat.blt queue 4096
  | .irqCoalesceTimeout d e => Nat.blt d 64 && Nat.blt e 4096
  | .sliceReadRequest d n r => Nat.blt d 64 && Nat.blt n 24 && r.wf
  | .sliceWriteRequest d n r _ _ => Nat.blt d 64 && Nat.blt n 24 && r.wf
  | .sliceAtomicRequest d n r _ _ _ _ _ => Nat.blt d 64 && Nat.blt n 24 && r.wf
  | .retryBackoffExpiry _ => true
  | .starveHoldLapse d n => Nat.blt d 64 && Nat.blt n 24
  | .sliceFillReturn d n _ _ => Nat.blt d 64 && Nat.blt n 24
  | .fillTimeout d n _ => Nat.blt d 64 && Nat.blt n 24
  | .sliceSramError d n _ _ _ => Nat.blt d 64 && Nat.blt n 24
  | .channelFailure d n => Nat.blt d 64 && Nat.blt n 24
  | .halfLinkCrossing d p => Nat.blt d 64 && p.wf
  | .ucPin d src _ part => Nat.blt d 64 && src.wf && Nat.blt part 128
  | .ucUnpin d src _ part => Nat.blt d 64 && src.wf && Nat.blt part 128
  | .gets m => m.wf
  | .getm m => m.wf
  | .upg m => m.wf
  | .puts m => m.wf
  | .putm m => m.wf
  | .puto m => m.wf
  | .fwdgets m => m.wf
  | .fwdgetm m => m.wf
  | .inv m => m.wf
  | .invack m => m.wf
  | .data m => m.wf
  | .dataexcl m => m.wf
  | .datap m => m.wf
  | .dataexclp m => m.wf
  | .wback m => m.wf
  | .nack m => m.wf
  | .cohTimeout d n _ _ => Nat.blt d 64 && Nat.blt n 24
  | .cohQuery d src => Nat.blt d 64 && src.wf
  | .toashFrame d port _ flits _ => Nat.blt d 64 && Nat.blt port 5 && Nat.beq flits.length 256
  | .toashNak d port _ => Nat.blt d 64 && Nat.blt port 5
  | .toashRetrain d port _ => Nat.blt d 64 && Nat.blt port 5
  | .toashPortDown d port => Nat.blt d 64 && Nat.blt port 5
  | .redPacket w x => w.wf && x.pkt.wf
  | .redHoldExpiry w _ => w.wf
  | .treeNodeForward w _ _ => w.wf
  | .redAccumulate d n x => Nat.blt d 64 && Nat.blt n 24 && x.pkt.wf
  | .redTimeout d n _ => Nat.blt d 64 && Nat.blt n 24
  | .seqctlCreate it => it.wf
  | .seqctlDestroy it => it.wf
  | .stepOpen it => it.wf
  | .stepClose it => it.wf
  | .truncate it => it.wf
  | .seqctlSet it => it.wf
  | .btinval it => it.wf
  | .seqctlLink it => it.wf
  | .seqctlUnlink it => it.wf
  | .seqctlQuery it => it.wf
  | .arm it => it.wf
  | .attachExchange queue _ => Nat.blt queue 4096
  | .stepRetire _ => true
  | .queEnable d n src _ => Nat.blt d 64 && Nat.blt n 64 && src.wf
  | .queReset d n src => Nat.blt d 64 && Nat.blt n 64 && src.wf
  | .movEnd d m => Nat.blt d 64 && Nat.blt m 32
  | .movCopy d m => Nat.blt d 64 && Nat.blt m 32
  | .shift d m => Nat.blt d 64 && Nat.blt m 32
  | .gather d m => Nat.blt d 64 && Nat.blt m 32
  | .scatter d m => Nat.blt d 64 && Nat.blt m 32
  | .movFill d m => Nat.blt d 64 && Nat.blt m 32
  | .wait d m => Nat.blt d 64 && Nat.blt m 32
  | .waitPoll d m => Nat.blt d 64 && Nat.blt m 32
  | .waitTimeout d m => Nat.blt d 64 && Nat.blt m 32
  | .signal d m => Nat.blt d 64 && Nat.blt m 32
  | .jump d m => Nat.blt d 64 && Nat.blt m 32
  | .movProgWrite d w src _ => Nat.blt d 64 && Nat.blt w 8192 && src.wf
  | .movSlotWrite d slot src _ => Nat.blt d 64 && Nat.blt slot 64 && src.wf
  | .restart d m pc src => Nat.blt d 64 && Nat.blt m 32 && Nat.blt pc 128 && src.wf
  | .abort d m src => Nat.blt d 64 && Nat.blt m 32 && src.wf
  | .movHaltTimeout d m => Nat.blt d 64 && Nat.blt m 32
  | .partnerCompletion port _ _ _ => Nat.blt port 32
  | .completionTimeout port _ => Nat.blt port 32
  | .goLive d part inst src => Nat.blt d 64 && Nat.blt part 128 && Nat.blt inst 32 && src.wf
  | .instReset d part inst src => Nat.blt d 64 && Nat.blt part 128 && Nat.blt inst 32 && src.wf
  | .partReset d part src => Nat.blt d 64 && Nat.blt part 128 && src.wf
  | .resetComplete part _ => Nat.blt part 128
  | .flr port _ => Nat.blt port 32
  | .powerGate d _ _ src => Nat.blt d 64 && src.wf
  | .clockStop d _ _ src => Nat.blt d 64 && src.wf
  | .restore d _ _ src => Nat.blt d 64 && src.wf
  | .stringTimeout d => Nat.blt d 64
  | .wardStrWrite d _ _ src _ => Nat.blt d 64 && src.wf
  | .wardDown d _ => Nat.blt d 64
  | .wardMboxInWrite d src _ => Nat.blt d 64 && src.wf
  | .wardMboxInRead d src => Nat.blt d 64 && src.wf
  | .wardMboxOutWrite d src _ => Nat.blt d 64 && src.wf
  | .wardMboxOutRead d src => Nat.blt d 64 && src.wf
  | .partSram d k _ => Nat.blt d 64 && Nat.blt k 7
  | .irqMapAddrWrite d e src _ => Nat.blt d 64 && Nat.blt e 4096 && src.wf
  | .irqMapDataWrite d e src _ => Nat.blt d 64 && Nat.blt e 4096 && src.wf
  | .irqMapHoldTimeout d e => Nat.blt d 64 && Nat.blt e 4096
  | .irqUnmask d e src => Nat.blt d 64 && Nat.blt e 4096 && src.wf
  | .xltInvalRange d part inst ctx _ src => Nat.blt d 64 && Nat.blt part 128 && Nat.blt inst 32 && Nat.blt ctx 256 && src.wf
  | .xltInvalContext d part inst ctx src => Nat.blt d 64 && Nat.blt part 128 && Nat.blt inst 32 && Nat.blt ctx 256 && src.wf
  | .xltInvalInstance d part inst src => Nat.blt d 64 && Nat.blt part 128 && Nat.blt inst 32 && src.wf
  | .xltInvalPartition d part src => Nat.blt d 64 && Nat.blt part 128 && src.wf
  | .xltInvTimeout d silent => Nat.blt d 64 && Nat.blt silent 64
  | .xltCtxBaseWrite d j src _ => Nat.blt d 64 && Nat.blt j 64 && src.wf
  | .pageWalk d cluster part inst ctx _ _ _ => Nat.blt d 64 && Nat.blt cluster 320 && Nat.blt part 128 && Nat.blt inst 32 && Nat.blt ctx 256
  | .linkUp port _ _ _ _ => Nat.blt port 32
  | .hostLinkDown port _ => Nat.blt port 32
  | .hostAbi port _ => Nat.blt port 32
  | .hostApertureWrite port _ _ _ _ _ _ _ => Nat.blt port 32
  | .hostApertureRead port _ _ _ _ _ => Nat.blt port 32
  | .atsInvalidation port _ _ => Nat.blt port 32
  | .bridgeRequest plane bport _ _ _ _ _ => Nat.blt plane 2 && Nat.blt bport 8
  | .ptWrite d index src => Nat.blt d 64 && Nat.blt index 256 && src.wf
  | .ptRead d index src => Nat.blt d 64 && Nat.blt index 256 && src.wf
  | .ptRetire d index src => Nat.blt d 64 && Nat.blt index 256 && src.wf
  | .hostPortError port _ _ _ => Nat.blt port 32
  | .recordAccept d => Nat.blt d 64
  | .recordDrain d => Nat.blt d 64
  | .recTest d src _ => Nat.blt d 64 && src.wf
  | .recFailClearClusters d src => Nat.blt d 64 && src.wf
  | .recFailClearChans d src => Nat.blt d 64 && src.wf
  | .recFailClearHalves d src => Nat.blt d 64 && src.wf
  | .stagingSramError d _ => Nat.blt d 64
  | .regRead _ => true
  | .regWrite _ => true
  | .registerWrite d _ _ src _ => Nat.blt d 64 && src.wf
  | .rcRegisterRead d _ _ src => Nat.blt d 64 && src.wf
  | .jtagExtest d _ => Nat.blt d 64
  | .jtagIdcode d => Nat.blt d 64
  | .jtagSamplePreload d _ => Nat.blt d 64
  | .jtagDcDebug d _ => Nat.blt d 64
  | .jtagBypass d _ => Nat.blt d 64
  | .shelfPowerGood shelf => Nat.blt shelf 3
  | .modEnAssert _ _ _ => true
  | .diePowerGood d => Nat.blt d 64
  | .modEnDrop m => Nat.blt m 16
  | .busbarLoss => true
  | .cduCheck _ _ => true
  | .leak m => optBelow m 16
  | .stageFault d => Nat.blt d 64
  | .moduleInsert m => Nat.blt m 16
  | .moduleFlashWrite m _ _ _ => Nat.blt m 16
  | .toashPortTrained d port _ => Nat.blt d 64 && Nat.blt port 5
  | .clusterFailure d cluster => Nat.blt d 64 && Nat.blt cluster 320
  | .routerFailure d cluster => Nat.blt d 64 && Nat.blt cluster 320
  | .halfLinkLaneDown d lane => Nat.blt d 64 && Nat.blt lane 4
  | .seqEngineFailure d slot => Nat.blt d 64 && Nat.blt slot 256
  | .illegalInstruction at_ _ => at_.wf
  | .moverIllegalInstruction d m => Nat.blt d 64 && Nat.blt m 32
  | .shelfFailure shelf _ => Nat.blt shelf 3
  | .rmBoot pairing _ _ _ _ => Nat.ble pairing.length 1024
  | .moduleRemove m => Nat.blt m 16
  | .spineSledReplace plane => Nat.blt plane 2
  | .configurationRequest port _ _ _ => Nat.blt port 32

end Sys2Proof
end

