-- ==== Sys2Proof/Machine/SMap.lean ====
section
/-! DEFINITION. Sparse maps over natural-number keys in one canonical form: keys strictly rising and no
entry equal to what an unlisted key reads as. Register fields, bytes of HBM and core registers are held so. -/

namespace Sys2Proof.Machine

/-- A sparse map: its entries in rising key order. -/
abbrev SMap (α : Type) := List (Nat × α)

/-- What key `k` holds; `d` where it is not listed. -/
def SMap.get {α : Type} (d : α) : SMap α → Nat → α
  | [], _ => d
  | (k, v) :: m, q => if k = q then v else SMap.get d m q

/-- `m` with `v` put at `k`, in key order. -/
def SMap.insert {α : Type} : SMap α → Nat → α → SMap α
  | [], q, v => [(q, v)]
  | (k, w) :: m, q, v =>
    if q < k then (q, v) :: (k, w) :: m
    else if k = q then (k, v) :: m
    else (k, w) :: SMap.insert m q v

/-- `m` without an entry at `k`. -/
def SMap.erase {α : Type} : SMap α → Nat → SMap α
  | [], _ => []
  | (k, w) :: m, q => if k = q then SMap.erase m q else (k, w) :: SMap.erase m q

/-- The write that keeps the form: the value an unlisted key reads as leaves no entry. -/
def SMap.set {α : Type} [DecidableEq α] (d : α) (m : SMap α) (k : Nat) (v : α) : SMap α :=
  if v = d then SMap.erase m k else SMap.insert m k v

/-- Every key from `lo` to `hi - 1` back to the default. -/
def SMap.clearRange {α : Type} (m : SMap α) (lo hi : Nat) : SMap α :=
  m.filter (fun e => !(Nat.ble lo e.1 && Nat.blt e.1 hi))

/-- Keys strictly rising. -/
def SMap.rising {α : Type} : SMap α → Bool
  | [] => true
  | [_] => true
  | (a, _) :: (b, v) :: m => Nat.blt a b && SMap.rising ((b, v) :: m)

/-- The canonical form over a single default. -/
def SMap.wf {α : Type} [DecidableEq α] (d : α) (m : SMap α) : Bool :=
  SMap.rising m && m.all (fun e => decide (e.2 ≠ d))

end Sys2Proof.Machine
end

