-- ==== Sys2Proof/Machine/RegMap.lean ====
section
/-! DEFINITION. The register fields of a die (Tables BOOT-9, BOOT-10, GOV-10 to GOV-12, IMG-13 to IMG-15,
SEQ-11, SEQ-12, MOV-8, UC-7, COH-9, MESH-9, MESH-10, PART-7, PART-8, XLT-9, HOST-8, HOST-9, FLT-10), each at
the register address of R555 with its width, its reset value (R21), its access code (Table SCP-4) and who may
write it (R558). A reset value given as Strap, Fuse or Firmware stands here as 0 (DESIGN CHOICE, log 4). -/

namespace Sys2Proof.Machine

/-- Access codes (Table SCP-4). -/
inductive Acc where
  | ro | rw | rwl | w1c | w1s | rc
  deriving DecidableEq, Repr

/-- Which sources a field accepts a write from (R446, R558). -/
inductive Guard where
  /-- Every source. -/
  | any
  | warden
  | mediator
  | pfOnly
  /-- The warden alone where the partition that the field names is sealed (R447). -/
  | wardenIfSealed
  deriving DecidableEq, Repr

/-- One field: its register's address, its lowest bit, its width, its reset value. -/
structure Fld where
  addr : Nat
  lo : Nat
  width : Nat
  reset : Nat
  acc : Acc
  guard : Guard
  deriving DecidableEq, Repr

/-- One row of a field table: the field at index 0 and the strides and counts of its indices. -/
structure RegRow where
  fld : Fld
  dims : List (Nat × Nat)
  deriving DecidableEq, Repr

/-- Whether `off` past the row's base is one of its registers. -/
def RegRow.hits (off : Nat) : List (Nat × Nat) → Bool
  | [] => Nat.beq off 0
  | (stride, count) :: rest =>
    if rest.isEmpty then Nat.beq (off % stride) 0 && Nat.blt (off / stride) count
    else Nat.blt (off / stride) count && RegRow.hits (off % stride) rest

/-- The row's field in the register at `addr`, if it has one there. -/
def RegRow.at? (r : RegRow) (addr : Nat) : Option Fld :=
  if Nat.ble r.fld.addr addr && RegRow.hits (addr - r.fld.addr) r.dims then some ⟨addr, r.fld.lo, r.fld.width, r.fld.reset, r.fld.acc, r.fld.guard⟩
  else none

namespace Reg

/-- DC_ID.DIE, Table BOOT-9. -/
def DC_ID_DIE : Fld := ⟨0x0, 0, 6, 0, .ro, .any⟩
/-- DC_ID.POSITION, Table BOOT-9. -/
def DC_ID_POSITION : Fld := ⟨0x0, 6, 2, 0, .ro, .any⟩
/-- DC_ID.MODULE, Table BOOT-9. -/
def DC_ID_MODULE : Fld := ⟨0x0, 8, 4, 0, .ro, .any⟩
/-- DC_ID.STEPPING, Table BOOT-9. -/
def DC_ID_STEPPING : Fld := ⟨0x0, 12, 5, 0, .ro, .any⟩
/-- DC_BOOT_STATUS.STAGE, Table BOOT-9. -/
def DC_BOOT_STATUS_STAGE : Fld := ⟨0x8, 0, 4, 0, .ro, .any⟩
/-- DC_BOOT_STATUS.BOOT_COPY, Table BOOT-9. -/
def DC_BOOT_STATUS_BOOT_COPY : Fld := ⟨0x8, 4, 1, 0, .ro, .any⟩
/-- DC_BOOT_STATUS.RUN_COPY, Table BOOT-9. -/
def DC_BOOT_STATUS_RUN_COPY : Fld := ⟨0x8, 5, 1, 0, .ro, .any⟩
/-- DC_BOOT_STATUS.WARD_COPY, Table BOOT-9. -/
def DC_BOOT_STATUS_WARD_COPY : Fld := ⟨0x8, 6, 1, 0, .ro, .any⟩
/-- DC_BOOT_STATUS.ERROR, Table BOOT-9. -/
def DC_BOOT_STATUS_ERROR : Fld := ⟨0x8, 8, 8, 0, .ro, .any⟩
/-- DC_COMPAT[7].MINOR, Table BOOT-9. -/
def DC_COMPAT_MINOR (n : Nat) : Fld := ⟨0x10 + 0x8 * n, 0, 16, 0, .ro, .any⟩
/-- DC_COMPAT[7].MAJOR, Table BOOT-9. -/
def DC_COMPAT_MAJOR (n : Nat) : Fld := ⟨0x10 + 0x8 * n, 16, 16, 0, .ro, .any⟩
/-- DC_COMPAT[7].ACTIVE, Table BOOT-9. -/
def DC_COMPAT_ACTIVE (n : Nat) : Fld := ⟨0x10 + 0x8 * n, 32, 16, 0, .ro, .any⟩
/-- DC_CAPS, Table BOOT-9. -/
def DC_CAPS : Fld := ⟨0x48, 0, 64, 0, .ro, .any⟩
/-- DC_CAPS_ACTIVE, Table BOOT-9. -/
def DC_CAPS_ACTIVE : Fld := ⟨0x50, 0, 64, 0, .ro, .any⟩
/-- DC_RTIME, Table BOOT-9. -/
def DC_RTIME : Fld := ⟨0x58, 0, 64, 0, .ro, .any⟩
/-- DC_RTIME_STATUS.OFFSET, Table BOOT-9. -/
def DC_RTIME_STATUS_OFFSET : Fld := ⟨0x60, 0, 16, 0, .ro, .any⟩
/-- DC_RTIME_STATUS.ALIGNED, Table BOOT-9. -/
def DC_RTIME_STATUS_ALIGNED : Fld := ⟨0x60, 16, 1, 0, .ro, .any⟩
/-- DC_RTIME_STATUS.MASTER, Table BOOT-9. -/
def DC_RTIME_STATUS_MASTER : Fld := ⟨0x60, 17, 1, 0, .ro, .any⟩
/-- DC_ROLL, Table BOOT-9. -/
def DC_ROLL : Fld := ⟨0x68, 0, 64, 0, .ro, .any⟩
/-- DC_DEAD, Table BOOT-9. -/
def DC_DEAD : Fld := ⟨0x70, 0, 64, 0, .ro, .any⟩
/-- DC_HOLD.HOLD_REASON, Table BOOT-9. -/
def DC_HOLD_HOLD_REASON : Fld := ⟨0x78, 0, 2, 0, .ro, .any⟩
/-- DC_HOLD.UNQUALIFIED, Table BOOT-9. -/
def DC_HOLD_UNQUALIFIED : Fld := ⟨0x78, 2, 1, 0, .ro, .any⟩
/-- DC_ACCEPT, Table BOOT-9. -/
def DC_ACCEPT : Fld := ⟨0x80, 0, 32, 0, .rw, .any⟩
/-- DC_COMBO, Table BOOT-9. -/
def DC_COMBO : Fld := ⟨0x88, 0, 32, 0, .ro, .any⟩
/-- DC_CHAN_FAIL, Table BOOT-9. -/
def DC_CHAN_FAIL : Fld := ⟨0x90, 0, 24, 0, .ro, .any⟩
/-- DC_INCARNATION, Table BOOT-9. -/
def DC_INCARNATION : Fld := ⟨0x98, 0, 16, 0, .ro, .any⟩
/-- DC_RESET_CAUSE, Table BOOT-9. -/
def DC_RESET_CAUSE : Fld := ⟨0xa0, 0, 4, 0, .ro, .any⟩
/-- DC_RACK, Table BOOT-9. -/
def DC_RACK : Fld := ⟨0xa8, 0, 16, 65535, .rw, .any⟩
/-- DC_BEACON_DROP, Table BOOT-9. -/
def DC_BEACON_DROP : Fld := ⟨0xb0, 0, 32, 0, .rc, .any⟩
/-- FUSE_STATUS.READ_DONE, Table BOOT-10. -/
def FUSE_STATUS_READ_DONE : Fld := ⟨0x80000, 0, 1, 0, .ro, .any⟩
/-- FUSE_STATUS.CRC_OK, Table BOOT-10. -/
def FUSE_STATUS_CRC_OK : Fld := ⟨0x80000, 1, 1, 0, .ro, .any⟩
/-- FUSE_GRADE.GRADE, Table BOOT-10. -/
def FUSE_GRADE_GRADE : Fld := ⟨0x80008, 0, 2, 0, .ro, .any⟩
/-- FUSE_GRADE.STEPPING, Table BOOT-10. -/
def FUSE_GRADE_STEPPING : Fld := ⟨0x80008, 2, 5, 0, .ro, .any⟩
/-- FUSE_SERIAL, Table BOOT-10. -/
def FUSE_SERIAL : Fld := ⟨0x80010, 0, 64, 0, .ro, .any⟩
/-- FUSE_MAP_W[3], Table BOOT-10. -/
def FUSE_MAP_W (n : Nat) : Fld := ⟨0x80018 + 0x8 * n, 0, 64, 0, .ro, .any⟩
/-- FUSE_MAP_E[3], Table BOOT-10. -/
def FUSE_MAP_E (n : Nat) : Fld := ⟨0x80030 + 0x8 * n, 0, 64, 0, .ro, .any⟩
/-- CLK_STATUS.DIV, Table GOV-12. -/
def CLK_STATUS_DIV : Fld := ⟨0x100000, 0, 2, 3, .ro, .any⟩
/-- CLK_STATUS.BUSY, Table GOV-12. -/
def CLK_STATUS_BUSY : Fld := ⟨0x100000, 2, 1, 0, .ro, .any⟩
/-- CLK_STATUS.PENDING, Table GOV-12. -/
def CLK_STATUS_PENDING : Fld := ⟨0x100000, 3, 2, 3, .ro, .any⟩
/-- CLK_STATUS.LOCK, Table GOV-12. -/
def CLK_STATUS_LOCK : Fld := ⟨0x100000, 5, 1, 0, .ro, .any⟩
/-- CLK_STATUS.STOPPED, Table GOV-12. -/
def CLK_STATUS_STOPPED : Fld := ⟨0x100000, 6, 1, 0, .ro, .any⟩
/-- CLK_SET.CCLK_SET, Table GOV-12. -/
def CLK_SET_CCLK_SET : Fld := ⟨0x100008, 0, 2, 3, .ro, .any⟩
/-- CLK_SET.TICK_RATE, Table GOV-12. -/
def CLK_SET_TICK_RATE : Fld := ⟨0x100008, 2, 2, 3, .ro, .any⟩
/-- CLK_CAUSE, Table GOV-12. -/
def CLK_CAUSE : Fld := ⟨0x100010, 0, 3, 0, .ro, .any⟩
/-- CLK_STEPS, Table GOV-12. -/
def CLK_STEPS : Fld := ⟨0x100018, 0, 32, 0, .rc, .any⟩
/-- CLK_SLOW_TIME, Table GOV-12. -/
def CLK_SLOW_TIME : Fld := ⟨0x100020, 0, 48, 0, .rc, .any⟩
/-- MON_TICK, Table GOV-10. -/
def MON_TICK : Fld := ⟨0x180000, 0, 2, 3, .ro, .any⟩
/-- MON_VLOW[5], Table GOV-10. -/
def MON_VLOW (n : Nat) : Fld := ⟨0x180010 + 0x8 * n, 0, 64, 0, .ro, .any⟩
/-- MON_VHIGH[5], Table GOV-10. -/
def MON_VHIGH (n : Nat) : Fld := ⟨0x180038 + 0x8 * n, 0, 64, 0, .ro, .any⟩
/-- MON_TWARM, Table GOV-10. -/
def MON_TWARM : Fld := ⟨0x180060, 0, 32, 0, .ro, .any⟩
/-- MON_TSTEP[4], Table GOV-10. -/
def MON_TSTEP (n : Nat) : Fld := ⟨0x180068 + 0x8 * n, 0, 32, 0, .ro, .any⟩
/-- MON_TTRIP, Table GOV-10. -/
def MON_TTRIP : Fld := ⟨0x180088, 0, 32, 0, .ro, .any⟩
/-- MON_IOVER, Table GOV-10. -/
def MON_IOVER : Fld := ⟨0x180090, 0, 8, 0, .ro, .any⟩
/-- MON_FAIL.POINTS, Table GOV-10. -/
def MON_FAIL_POINTS : Fld := ⟨0x180098, 0, 32, 0, .ro, .any⟩
/-- MON_FAIL.RAILS, Table GOV-10. -/
def MON_FAIL_RAILS : Fld := ⟨0x180098, 32, 8, 0, .ro, .any⟩
/-- MON_FAIL.VOLT, Table GOV-10. -/
def MON_FAIL_VOLT : Fld := ⟨0x180098, 40, 1, 0, .ro, .any⟩
/-- MON_EVENTS, Table GOV-10. -/
def MON_EVENTS : Fld := ⟨0x1800a0, 0, 32, 0, .rc, .any⟩
/-- MON_CFG[360].LOW, Table GOV-10. -/
def MON_CFG_LOW (n : Nat) : Fld := ⟨0x181000 + 0x8 * n, 0, 8, 0, .rwl, .any⟩
/-- MON_CFG[360].HIGH, Table GOV-10. -/
def MON_CFG_HIGH (n : Nat) : Fld := ⟨0x181000 + 0x8 * n, 8, 8, 255, .rwl, .any⟩
/-- MON_CFG[360].N, Table GOV-10. -/
def MON_CFG_N (n : Nat) : Fld := ⟨0x181000 + 0x8 * n, 16, 3, 3, .rwl, .any⟩
/-- MON_CFG[360].K, Table GOV-10. -/
def MON_CFG_K (n : Nat) : Fld := ⟨0x181000 + 0x8 * n, 20, 3, 2, .rwl, .any⟩
/-- GOV_BUCKET, Table GOV-11. -/
def GOV_BUCKET : Fld := ⟨0x200000, 0, 40, 0, .ro, .any⟩
/-- GOV_CTRL.CAP_MS, Table GOV-11. -/
def GOV_CTRL_CAP_MS : Fld := ⟨0x200008, 0, 5, 2, .rw, .any⟩
/-- GOV_CTRL.WAIT_US, Table GOV-11. -/
def GOV_CTRL_WAIT_US : Fld := ⟨0x200008, 16, 14, 100, .rw, .any⟩
/-- GOV_CTRL.HEAD_WARM, Table GOV-11. -/
def GOV_CTRL_HEAD_WARM : Fld := ⟨0x200008, 32, 9, 192, .rw, .any⟩
/-- GOV_LIMITS.POWER_W, Table GOV-11. -/
def GOV_LIMITS_POWER_W : Fld := ⟨0x200010, 0, 11, 0, .ro, .any⟩
/-- GOV_LIMITS.U_FLOOR, Table GOV-11. -/
def GOV_LIMITS_U_FLOOR : Fld := ⟨0x200010, 32, 32, 0, .ro, .any⟩
/-- GOV_STATE.HEADROOM, Table GOV-11. -/
def GOV_STATE_HEADROOM : Fld := ⟨0x200018, 0, 9, 256, .ro, .any⟩
/-- GOV_STATE.STEPS, Table GOV-11. -/
def GOV_STATE_STEPS : Fld := ⟨0x200018, 9, 4, 0, .ro, .any⟩
/-- GOV_STATE.OVER, Table GOV-11. -/
def GOV_STATE_OVER : Fld := ⟨0x200018, 13, 1, 0, .ro, .any⟩
/-- GOV_STATE.HOLDING, Table GOV-11. -/
def GOV_STATE_HOLDING : Fld := ⟨0x200018, 14, 1, 0, .ro, .any⟩
/-- GOV_STATE.HOLD_QUEUE, Table GOV-11. -/
def GOV_STATE_HOLD_QUEUE : Fld := ⟨0x200018, 16, 12, 0, .ro, .any⟩
/-- GOV_STATE.TRIP, Table GOV-11. -/
def GOV_STATE_TRIP : Fld := ⟨0x200018, 28, 1, 0, .ro, .any⟩
/-- GOV_ECLASS[16], Table GOV-11. -/
def GOV_ECLASS (n : Nat) : Fld := ⟨0x200020 + 0x8 * n, 0, 32, 0, .ro, .any⟩
/-- GOV_THERM[4].TEMP, Table GOV-11. -/
def GOV_THERM_TEMP (n : Nat) : Fld := ⟨0x2000a0 + 0x8 * n, 0, 8, 0, .ro, .any⟩
/-- GOV_THERM[4].CCLK, Table GOV-11. -/
def GOV_THERM_CCLK (n : Nat) : Fld := ⟨0x2000a0 + 0x8 * n, 8, 2, 0, .ro, .any⟩
/-- GOV_REFUSED, Table GOV-11. -/
def GOV_REFUSED : Fld := ⟨0x2000c0, 0, 48, 0, .rc, .any⟩
/-- GOV_CHEAPER, Table GOV-11. -/
def GOV_CHEAPER : Fld := ⟨0x2000c8, 0, 48, 0, .rc, .any⟩
/-- GOV_HOLDS, Table GOV-11. -/
def GOV_HOLDS : Fld := ⟨0x2000d0, 0, 32, 0, .rc, .any⟩
/-- GOV_U_FORGIVEN, Table GOV-11. -/
def GOV_U_FORGIVEN : Fld := ⟨0x2000d8, 0, 48, 0, .rc, .any⟩
/-- GOV_TRIP_RESTART, Table GOV-11. -/
def GOV_TRIP_RESTART : Fld := ⟨0x2000e0, 0, 8, 190, .ro, .any⟩
/-- IMG_CMD, Table IMG-13. -/
def IMG_CMD : Fld := ⟨0x280000, 0, 4, 0, .rw, .any⟩
/-- IMG_STATUS.PHASE, Table IMG-14. -/
def IMG_STATUS_PHASE : Fld := ⟨0x280008, 0, 3, 0, .ro, .any⟩
/-- IMG_STATUS.BUSY, Table IMG-14. -/
def IMG_STATUS_BUSY : Fld := ⟨0x280008, 3, 1, 0, .ro, .any⟩
/-- IMG_STATUS.PARTIAL, Table IMG-14. -/
def IMG_STATUS_PARTIAL : Fld := ⟨0x280008, 4, 1, 0, .ro, .any⟩
/-- IMG_STATUS.TARGET, Table IMG-14. -/
def IMG_STATUS_TARGET : Fld := ⟨0x280008, 5, 7, 0, .ro, .any⟩
/-- IMG_STATUS.RESULT, Table IMG-14. -/
def IMG_STATUS_RESULT : Fld := ⟨0x280008, 16, 8, 0, .ro, .any⟩
/-- IMG_DETAIL, Table IMG-15. -/
def IMG_DETAIL : Fld := ⟨0x280010, 0, 36, 0, .ro, .any⟩
/-- IMG_COMMIT_TIME, Table IMG-15. -/
def IMG_COMMIT_TIME : Fld := ⟨0x280018, 0, 64, 0, .rw, .any⟩
/-- IMG_QTIMEOUT, Table IMG-15. -/
def IMG_QTIMEOUT : Fld := ⟨0x280020, 0, 14, 100, .rw, .any⟩
/-- IMG_SERIAL_HALF[2], Table IMG-15. -/
def IMG_SERIAL_HALF (n : Nat) : Fld := ⟨0x280028 + 0x8 * n, 0, 64, 0, .ro, .any⟩
/-- IMG_FORMAT.FMT_MINOR, Table IMG-15. -/
def IMG_FORMAT_FMT_MINOR : Fld := ⟨0x280038, 0, 16, 0, .ro, .any⟩
/-- IMG_FORMAT.FMT_MAJOR, Table IMG-15. -/
def IMG_FORMAT_FMT_MAJOR : Fld := ⟨0x280038, 16, 16, 0, .ro, .any⟩
/-- IMG_DROPPED_DB, Table IMG-15. -/
def IMG_DROPPED_DB : Fld := ⟨0x280040, 0, 32, 0, .rc, .any⟩
/-- IMG_REJECTS, Table IMG-15. -/
def IMG_REJECTS : Fld := ⟨0x280048, 0, 16, 0, .rc, .any⟩
/-- QUE_DB_BAD, Table SEQ-11. -/
def QUE_DB_BAD : Fld := ⟨0x300000, 0, 32, 0, .rc, .any⟩
/-- QUE_CQ_STALL, Table SEQ-11. -/
def QUE_CQ_STALL : Fld := ⟨0x300008, 0, 32, 0, .rc, .any⟩
/-- QUE_LAUNCH_OUT, Table SEQ-11. -/
def QUE_LAUNCH_OUT : Fld := ⟨0x300010, 0, 9, 0, .ro, .any⟩
/-- QUE_BASE[64], Table SEQ-11. -/
def QUE_BASE (n : Nat) : Fld := ⟨0x300100 + 0x40 * n, 12, 40, 0, .rw, .wardenIfSealed⟩
/-- QUE_CTRL[64].ENABLE, Table SEQ-11. -/
def QUE_CTRL_ENABLE (n : Nat) : Fld := ⟨0x300108 + 0x40 * n, 0, 1, 0, .rw, .wardenIfSealed⟩
/-- QUE_CTRL[64].SERIAL, Table SEQ-11. -/
def QUE_CTRL_SERIAL (n : Nat) : Fld := ⟨0x300108 + 0x40 * n, 1, 1, 0, .rw, .wardenIfSealed⟩
/-- QUE_CTRL[64].LOG2, Table SEQ-11. -/
def QUE_CTRL_LOG2 (n : Nat) : Fld := ⟨0x300108 + 0x40 * n, 2, 5, 4, .rw, .wardenIfSealed⟩
/-- QUE_CTRL[64].VECTOR, Table SEQ-11. -/
def QUE_CTRL_VECTOR (n : Nat) : Fld := ⟨0x300108 + 0x40 * n, 7, 6, 0, .rw, .wardenIfSealed⟩
/-- QUE_CTRL[64].RESET, Table SEQ-11. -/
def QUE_CTRL_RESET (n : Nat) : Fld := ⟨0x300108 + 0x40 * n, 13, 1, 0, .w1s, .any⟩
/-- QUE_PI[64], Table SEQ-11. -/
def QUE_PI (n : Nat) : Fld := ⟨0x300110 + 0x40 * n, 0, 64, 0, .ro, .any⟩
/-- QUE_CI[64], Table SEQ-11. -/
def QUE_CI (n : Nat) : Fld := ⟨0x300118 + 0x40 * n, 0, 64, 0, .ro, .any⟩
/-- QUE_STATE[64].STATE, Table SEQ-11. -/
def QUE_STATE_STATE (n : Nat) : Fld := ⟨0x300120 + 0x40 * n, 0, 3, 0, .ro, .any⟩
/-- QUE_STATE[64].DEPTH_WAIT, Table SEQ-11. -/
def QUE_STATE_DEPTH_WAIT (n : Nat) : Fld := ⟨0x300120 + 0x40 * n, 3, 1, 0, .ro, .any⟩
/-- QUE_STATE[64].CQ_WAIT, Table SEQ-11. -/
def QUE_STATE_CQ_WAIT (n : Nat) : Fld := ⟨0x300120 + 0x40 * n, 4, 1, 0, .ro, .any⟩
/-- QUE_STATE[64].ERROR, Table SEQ-11. -/
def QUE_STATE_ERROR (n : Nat) : Fld := ⟨0x300120 + 0x40 * n, 8, 4, 0, .ro, .any⟩
/-- QUE_CFG[64].KIND, Table SEQ-11. -/
def QUE_CFG_KIND (n : Nat) : Fld := ⟨0x300128 + 0x40 * n, 0, 2, 0, .ro, .any⟩
/-- QUE_CFG[64].CLASS, Table SEQ-11. -/
def QUE_CFG_CLASS (n : Nat) : Fld := ⟨0x300128 + 0x40 * n, 2, 2, 0, .ro, .any⟩
/-- QUE_CFG[64].INST, Table SEQ-11. -/
def QUE_CFG_INST (n : Nat) : Fld := ⟨0x300128 + 0x40 * n, 4, 5, 0, .ro, .any⟩
/-- QUE_CFG[64].PART, Table SEQ-11. -/
def QUE_CFG_PART (n : Nat) : Fld := ⟨0x300128 + 0x40 * n, 9, 7, 0, .ro, .any⟩
/-- QUE_CFG[64].WEIGHT, Table SEQ-11. -/
def QUE_CFG_WEIGHT (n : Nat) : Fld := ⟨0x300128 + 0x40 * n, 16, 8, 0, .ro, .any⟩
/-- QUE_CFG[64].ECLASS, Table SEQ-11. -/
def QUE_CFG_ECLASS (n : Nat) : Fld := ⟨0x300128 + 0x40 * n, 24, 4, 0, .ro, .any⟩
/-- QUE_CFG[64].CQ, Table SEQ-11. -/
def QUE_CFG_CQ (n : Nat) : Fld := ⟨0x300128 + 0x40 * n, 28, 16, 0, .ro, .any⟩
/-- QUE_CFG[64].NAMED, Table SEQ-11. -/
def QUE_CFG_NAMED (n : Nat) : Fld := ⟨0x300128 + 0x40 * n, 44, 1, 0, .ro, .any⟩
/-- SEQ_VIEW_SLOT, Table SEQ-12. -/
def SEQ_VIEW_SLOT : Fld := ⟨0x380000, 0, 8, 0, .rw, .any⟩
/-- SEQ_VIEW[16], Table SEQ-12. -/
def SEQ_VIEW (n : Nat) : Fld := ⟨0x380008 + 0x8 * n, 0, 64, 0, .ro, .any⟩
/-- SEQ_USED[4], Table SEQ-12. -/
def SEQ_USED (n : Nat) : Fld := ⟨0x380088 + 0x8 * n, 0, 64, 0, .ro, .any⟩
/-- SEQ_FENCE_HOLDS, Table SEQ-12. -/
def SEQ_FENCE_HOLDS : Fld := ⟨0x3800a8, 0, 48, 0, .rc, .any⟩
/-- SEQ_HELD_NOW, Table SEQ-12. -/
def SEQ_HELD_NOW : Fld := ⟨0x3800b0, 0, 11, 0, .ro, .any⟩
/-- SEQ_HELD_PEAK, Table SEQ-12. -/
def SEQ_HELD_PEAK : Fld := ⟨0x3800b8, 0, 11, 0, .rc, .any⟩
/-- SEQ_DEPTH_WAITS, Table SEQ-12. -/
def SEQ_DEPTH_WAITS : Fld := ⟨0x3800c0, 0, 32, 0, .rc, .any⟩
/-- SEQ_STEPS_RETIRED, Table SEQ-12. -/
def SEQ_STEPS_RETIRED : Fld := ⟨0x3800c8, 0, 48, 0, .rc, .any⟩
/-- MOV_CMD.MOVER, Table MOV-8. -/
def MOV_CMD_MOVER : Fld := ⟨0x400000, 0, 5, 0, .rw, .any⟩
/-- MOV_CMD.PC, Table MOV-8. -/
def MOV_CMD_PC : Fld := ⟨0x400000, 5, 7, 0, .rw, .any⟩
/-- MOV_CMD.OP, Table MOV-8. -/
def MOV_CMD_OP : Fld := ⟨0x400000, 12, 2, 0, .rw, .any⟩
/-- MOV_HALT_MS, Table MOV-8. -/
def MOV_HALT_MS : Fld := ⟨0x400008, 0, 14, 100, .rw, .any⟩
/-- MOV_FAULTS, Table MOV-8. -/
def MOV_FAULTS : Fld := ⟨0x400010, 0, 32, 0, .rc, .any⟩
/-- MOV_BYTES, Table MOV-8. -/
def MOV_BYTES : Fld := ⟨0x400018, 0, 48, 0, .rc, .any⟩
/-- MOV_CMD_IGN, Table MOV-8. -/
def MOV_CMD_IGN : Fld := ⟨0x400020, 0, 16, 0, .rc, .any⟩
/-- MOV_STATE[32].STATE, Table MOV-8. -/
def MOV_STATE_STATE (n : Nat) : Fld := ⟨0x400100 + 0x80 * n, 0, 3, 0, .ro, .any⟩
/-- MOV_STATE[32].SLOT, Table MOV-8. -/
def MOV_STATE_SLOT (n : Nat) : Fld := ⟨0x400100 + 0x80 * n, 3, 6, 0, .ro, .any⟩
/-- MOV_STATE[32].PC, Table MOV-8. -/
def MOV_STATE_PC (n : Nat) : Fld := ⟨0x400100 + 0x80 * n, 9, 7, 0, .ro, .any⟩
/-- MOV_STATE[32].GEN, Table MOV-8. -/
def MOV_STATE_GEN (n : Nat) : Fld := ⟨0x400100 + 0x80 * n, 16, 16, 0, .ro, .any⟩
/-- MOV_STATE[32].CHANGED, Table MOV-8. -/
def MOV_STATE_CHANGED (n : Nat) : Fld := ⟨0x400100 + 0x80 * n, 32, 1, 0, .ro, .any⟩
/-- MOV_STATE[32].QUEUE, Table MOV-8. -/
def MOV_STATE_QUEUE (n : Nat) : Fld := ⟨0x400100 + 0x80 * n, 33, 12, 0, .ro, .any⟩
/-- MOV_CURSOR[32], Table MOV-8. -/
def MOV_CURSOR (n : Nat) : Fld := ⟨0x400108 + 0x80 * n, 0, 64, 0, .ro, .any⟩
/-- MOV_MREG[32][8], Table MOV-8. -/
def MOV_MREG (n i : Nat) : Fld := ⟨0x400110 + 0x80 * n + 0x8 * i, 0, 64, 0, .ro, .any⟩
/-- MOV_SLOT[64].GEN, Table MOV-8. -/
def MOV_SLOT_GEN (n : Nat) : Fld := ⟨0x401200 + 0x8 * n, 0, 16, 0, .ro, .any⟩
/-- MOV_SLOT[64].PART, Table MOV-8. -/
def MOV_SLOT_PART (n : Nat) : Fld := ⟨0x401200 + 0x8 * n, 16, 7, 0, .rw, .any⟩
/-- MOV_SLOT[64].INST, Table MOV-8. -/
def MOV_SLOT_INST (n : Nat) : Fld := ⟨0x401200 + 0x8 * n, 23, 5, 0, .rw, .any⟩
/-- MOV_SLOT[64].OWNED, Table MOV-8. -/
def MOV_SLOT_OWNED (n : Nat) : Fld := ⟨0x401200 + 0x8 * n, 28, 1, 0, .rw, .any⟩
/-- MOV_PROG[8192], Table MOV-8. -/
def MOV_PROG (n : Nat) : Fld := ⟨0x410000 + 0x8 * n, 0, 64, 0, .rw, .any⟩
/-- UC_MODE.SLICING_W, Table UC-7. -/
def UC_MODE_SLICING_W : Fld := ⟨0x480000, 0, 1, 0, .ro, .any⟩
/-- UC_MODE.SLICING_E, Table UC-7. -/
def UC_MODE_SLICING_E : Fld := ⟨0x480000, 1, 1, 0, .ro, .any⟩
/-- UC_MODE.JOINED, Table UC-7. -/
def UC_MODE_JOINED : Fld := ⟨0x480000, 2, 1, 0, .ro, .any⟩
/-- UC_ACTIVE, Table UC-7. -/
def UC_ACTIVE : Fld := ⟨0x480008, 0, 24, 0, .ro, .any⟩
/-- UC_PIN_ADDR, Table UC-7. -/
def UC_PIN_ADDR : Fld := ⟨0x480010, 7, 45, 0, .rw, .any⟩
/-- UC_PIN_CMD.OP, Table UC-7. -/
def UC_PIN_CMD_OP : Fld := ⟨0x480018, 0, 2, 0, .rw, .any⟩
/-- UC_PIN_CMD.LINES, Table UC-7. -/
def UC_PIN_CMD_LINES : Fld := ⟨0x480018, 2, 11, 0, .rw, .any⟩
/-- UC_PIN_CMD.PART, Table UC-7. -/
def UC_PIN_CMD_PART : Fld := ⟨0x480018, 13, 7, 0, .rw, .any⟩
/-- UC_PIN_STATUS.BUSY, Table UC-7. -/
def UC_PIN_STATUS_BUSY : Fld := ⟨0x480020, 0, 1, 0, .ro, .any⟩
/-- UC_PIN_STATUS.RESULT, Table UC-7. -/
def UC_PIN_STATUS_RESULT : Fld := ⟨0x480020, 1, 3, 0, .ro, .any⟩
/-- UC_PIN_STATUS.DONE, Table UC-7. -/
def UC_PIN_STATUS_DONE : Fld := ⟨0x480020, 8, 11, 0, .ro, .any⟩
/-- UC_HLINK_DROP, Table UC-7. -/
def UC_HLINK_DROP : Fld := ⟨0x480028, 0, 32, 0, .rc, .any⟩
/-- UC_RANGE_ERR, Table UC-7. -/
def UC_RANGE_ERR : Fld := ⟨0x480030, 0, 32, 0, .rc, .any⟩
/-- UC_HIT[24], Table UC-7. -/
def UC_HIT (n : Nat) : Fld := ⟨0x480100 + 0x40 * n, 0, 48, 0, .rc, .any⟩
/-- UC_MISS[24], Table UC-7. -/
def UC_MISS (n : Nat) : Fld := ⟨0x480108 + 0x40 * n, 0, 48, 0, .rc, .any⟩
/-- UC_NACK[24], Table UC-7. -/
def UC_NACK (n : Nat) : Fld := ⟨0x480110 + 0x40 * n, 0, 32, 0, .rc, .any⟩
/-- UC_ECC_CE[24], Table UC-7. -/
def UC_ECC_CE (n : Nat) : Fld := ⟨0x480118 + 0x40 * n, 0, 32, 0, .rc, .any⟩
/-- UC_ECC_UE[24], Table UC-7. -/
def UC_ECC_UE (n : Nat) : Fld := ⟨0x480120 + 0x40 * n, 0, 32, 0, .rc, .any⟩
/-- UC_MSHR_PEAK[24], Table UC-7. -/
def UC_MSHR_PEAK (n : Nat) : Fld := ⟨0x480128 + 0x40 * n, 0, 8, 0, .rc, .any⟩
/-- UC_WAIT_PEAK[24], Table UC-7. -/
def UC_WAIT_PEAK (n : Nat) : Fld := ⟨0x480130 + 0x40 * n, 0, 12, 0, .rc, .any⟩
/-- UC_PINNED[24], Table UC-7. -/
def UC_PINNED (n : Nat) : Fld := ⟨0x480138 + 0x40 * n, 0, 11, 0, .ro, .any⟩
/-- COH_MODE.OWNED_W, Table COH-9. -/
def COH_MODE_OWNED_W : Fld := ⟨0x500000, 0, 1, 0, .ro, .any⟩
/-- COH_MODE.OWNED_E, Table COH-9. -/
def COH_MODE_OWNED_E : Fld := ⟨0x500000, 1, 1, 0, .ro, .any⟩
/-- COH_QUERY_ADDR, Table COH-9. -/
def COH_QUERY_ADDR : Fld := ⟨0x500008, 7, 45, 0, .rw, .any⟩
/-- COH_QUERY_CMD, Table COH-9. -/
def COH_QUERY_CMD : Fld := ⟨0x500010, 0, 1, 0, .w1s, .any⟩
/-- COH_QUERY_RESULT.STATE, Table COH-9. -/
def COH_QUERY_RESULT_STATE : Fld := ⟨0x500018, 0, 3, 0, .ro, .any⟩
/-- COH_QUERY_RESULT.VALID, Table COH-9. -/
def COH_QUERY_RESULT_VALID : Fld := ⟨0x500018, 3, 1, 0, .ro, .any⟩
/-- COH_QUERY_RESULT.NOT_HOME, Table COH-9. -/
def COH_QUERY_RESULT_NOT_HOME : Fld := ⟨0x500018, 4, 1, 0, .ro, .any⟩
/-- COH_QUERY_RESULT.OWNER, Table COH-9. -/
def COH_QUERY_RESULT_OWNER : Fld := ⟨0x500018, 5, 6, 0, .ro, .any⟩
/-- COH_QUERY_RESULT.COUNT, Table COH-9. -/
def COH_QUERY_RESULT_COUNT : Fld := ⟨0x500018, 11, 7, 0, .ro, .any⟩
/-- COH_QUERY_RESULT.CAUSE, Table COH-9. -/
def COH_QUERY_RESULT_CAUSE : Fld := ⟨0x500018, 18, 2, 0, .ro, .any⟩
/-- COH_QUERY_SHARERS, Table COH-9. -/
def COH_QUERY_SHARERS : Fld := ⟨0x500020, 0, 64, 0, .ro, .any⟩
/-- COH_PROTO_ERR, Table COH-9. -/
def COH_PROTO_ERR : Fld := ⟨0x500028, 0, 32, 0, .rc, .any⟩
/-- COH_TIMEOUTS, Table COH-9. -/
def COH_TIMEOUTS : Fld := ⟨0x500030, 0, 32, 0, .rc, .any⟩
/-- COH_LOST, Table COH-9. -/
def COH_LOST : Fld := ⟨0x500038, 0, 32, 0, .rc, .any⟩
/-- COH_ORPHAN, Table COH-9. -/
def COH_ORPHAN : Fld := ⟨0x500040, 0, 32, 0, .rc, .any⟩
/-- COH_STALE_INC, Table COH-9. -/
def COH_STALE_INC : Fld := ⟨0x500048, 0, 32, 0, .rc, .any⟩
/-- COH_DENIED, Table COH-9. -/
def COH_DENIED : Fld := ⟨0x500050, 0, 32, 0, .rc, .any⟩
/-- COH_DIR_USED[24], Table COH-9. -/
def COH_DIR_USED (n : Nat) : Fld := ⟨0x500100 + 0x40 * n, 0, 17, 0, .ro, .any⟩
/-- COH_DIR_PEAK[24], Table COH-9. -/
def COH_DIR_PEAK (n : Nat) : Fld := ⟨0x500108 + 0x40 * n, 0, 17, 0, .rc, .any⟩
/-- COH_RECALL[24], Table COH-9. -/
def COH_RECALL (n : Nat) : Fld := ⟨0x500110 + 0x40 * n, 0, 32, 0, .rc, .any⟩
/-- COH_FWD[24], Table COH-9. -/
def COH_FWD (n : Nat) : Fld := ⟨0x500118 + 0x40 * n, 0, 48, 0, .rc, .any⟩
/-- COH_NACK_BUSY[24], Table COH-9. -/
def COH_NACK_BUSY (n : Nat) : Fld := ⟨0x500120 + 0x40 * n, 0, 32, 0, .rc, .any⟩
/-- COH_NACK_STALE[24], Table COH-9. -/
def COH_NACK_STALE (n : Nat) : Fld := ⟨0x500128 + 0x40 * n, 0, 32, 0, .rc, .any⟩
/-- COH_HOLDQ_PEAK[24], Table COH-9. -/
def COH_HOLDQ_PEAK (n : Nat) : Fld := ⟨0x500130 + 0x40 * n, 0, 9, 0, .rc, .any⟩
/-- COH_HOLDBUF_PEAK[24], Table COH-9. -/
def COH_HOLDBUF_PEAK (n : Nat) : Fld := ⟨0x500138 + 0x40 * n, 0, 11, 0, .rc, .any⟩
/-- MESH_MODE.SEAM_OPEN, Table MESH-9. -/
def MESH_MODE_SEAM_OPEN : Fld := ⟨0x580000, 0, 1, 1, .ro, .any⟩
/-- MESH_MODE.HLINK_ON, Table MESH-9. -/
def MESH_MODE_HLINK_ON : Fld := ⟨0x580000, 1, 1, 0, .ro, .any⟩
/-- MESH_TS_STATUS[3].UP, Table MESH-9. -/
def MESH_TS_STATUS_UP (n : Nat) : Fld := ⟨0x580008 + 0x8 * n, 0, 1, 0, .ro, .any⟩
/-- MESH_TS_STATUS[3].MODULES, Table MESH-9. -/
def MESH_TS_STATUS_MODULES (n : Nat) : Fld := ⟨0x580008 + 0x8 * n, 1, 3, 0, .ro, .any⟩
/-- MESH_TS_STATUS[3].PEER, Table MESH-9. -/
def MESH_TS_STATUS_PEER (n : Nat) : Fld := ⟨0x580008 + 0x8 * n, 4, 6, 0, .ro, .any⟩
/-- MESH_TL_STATUS[2].UP, Table MESH-9. -/
def MESH_TL_STATUS_UP (n : Nat) : Fld := ⟨0x580020 + 0x8 * n, 0, 1, 0, .ro, .any⟩
/-- MESH_TL_STATUS[2].WIDTH, Table MESH-9. -/
def MESH_TL_STATUS_WIDTH (n : Nat) : Fld := ⟨0x580020 + 0x8 * n, 1, 2, 0, .ro, .any⟩
/-- MESH_TL_STATUS[2].SPINE_PORT, Table MESH-9. -/
def MESH_TL_STATUS_SPINE_PORT (n : Nat) : Fld := ⟨0x580020 + 0x8 * n, 3, 7, 0, .ro, .any⟩
/-- MESH_LINK_CRC[5], Table MESH-9. -/
def MESH_LINK_CRC (n : Nat) : Fld := ⟨0x580030 + 0x8 * n, 0, 32, 0, .rc, .any⟩
/-- MESH_LINK_RETRAIN[5], Table MESH-9. -/
def MESH_LINK_RETRAIN (n : Nat) : Fld := ⟨0x580058 + 0x8 * n, 0, 16, 0, .rc, .any⟩
/-- MESH_CREDIT[68].U, Table MESH-9. -/
def MESH_CREDIT_U (n : Nat) : Fld := ⟨0x580100 + 0x8 * n, 0, 6, 8, .rwl, .any⟩
/-- MESH_CREDIT[68].REQ, Table MESH-9. -/
def MESH_CREDIT_REQ (n : Nat) : Fld := ⟨0x580100 + 0x8 * n, 8, 6, 8, .rwl, .any⟩
/-- MESH_CREDIT[68].RSP, Table MESH-9. -/
def MESH_CREDIT_RSP (n : Nat) : Fld := ⟨0x580100 + 0x8 * n, 16, 6, 8, .rwl, .any⟩
/-- MESH_CREDIT[68].COH, Table MESH-9. -/
def MESH_CREDIT_COH (n : Nat) : Fld := ⟨0x580100 + 0x8 * n, 24, 6, 8, .rwl, .any⟩
/-- MESH_CREDIT[68].RED, Table MESH-9. -/
def MESH_CREDIT_RED (n : Nat) : Fld := ⟨0x580100 + 0x8 * n, 32, 6, 8, .rwl, .any⟩
/-- MESH_INJ_WAIT[68], Table MESH-9. -/
def MESH_INJ_WAIT (n : Nat) : Fld := ⟨0x580400 + 0x8 * n, 0, 48, 0, .rc, .any⟩
/-- MESH_HLINK_FLITS[4], Table MESH-9. -/
def MESH_HLINK_FLITS (n : Nat) : Fld := ⟨0x580800 + 0x8 * n, 0, 48, 0, .rc, .any⟩
/-- RED_HOLD.MESH, Table MESH-10. -/
def RED_HOLD_MESH : Fld := ⟨0x600000, 0, 8, 4, .rw, .any⟩
/-- RED_HOLD.TREE, Table MESH-10. -/
def RED_HOLD_TREE : Fld := ⟨0x600000, 8, 8, 64, .rw, .any⟩
/-- RED_TIMEOUT, Table MESH-10. -/
def RED_TIMEOUT : Fld := ⟨0x600008, 0, 10, 100, .rw, .any⟩
/-- RED_COMBINES, Table MESH-10. -/
def RED_COMBINES : Fld := ⟨0x600010, 0, 48, 0, .rc, .any⟩
/-- RED_PASS, Table MESH-10. -/
def RED_PASS : Fld := ⟨0x600018, 0, 48, 0, .rc, .any⟩
/-- RED_BROKEN, Table MESH-10. -/
def RED_BROKEN : Fld := ⟨0x600020, 0, 32, 0, .rc, .any⟩
/-- RED_OPEN[24], Table MESH-10. -/
def RED_OPEN (n : Nat) : Fld := ⟨0x600100 + 0x40 * n, 0, 10, 0, .ro, .any⟩
/-- RED_DONE[24], Table MESH-10. -/
def RED_DONE (n : Nat) : Fld := ⟨0x600108 + 0x40 * n, 0, 48, 0, .rc, .any⟩
/-- RED_OPEN_PEAK[24], Table MESH-10. -/
def RED_OPEN_PEAK (n : Nat) : Fld := ⟨0x600110 + 0x40 * n, 0, 10, 0, .rc, .any⟩
/-- RED_SIG_BASE[128], Table MESH-10. -/
def RED_SIG_BASE (n : Nat) : Fld := ⟨0x600800 + 0x8 * n, 3, 49, 0, .rw, .wardenIfSealed⟩
/-- PART_HALF[2].PART, Table PART-7. -/
def PART_HALF_PART (n : Nat) : Fld := ⟨0x680000 + 0x8 * n, 0, 7, 0, .ro, .any⟩
/-- PART_HALF[2].ASSIGNED, Table PART-7. -/
def PART_HALF_ASSIGNED (n : Nat) : Fld := ⟨0x680000 + 0x8 * n, 7, 1, 0, .ro, .any⟩
/-- PART_HALF[2].SEALED, Table PART-7. -/
def PART_HALF_SEALED (n : Nat) : Fld := ⟨0x680000 + 0x8 * n, 8, 1, 0, .ro, .any⟩
/-- PART_STATE[2], Table PART-7. -/
def PART_STATE (n : Nat) : Fld := ⟨0x680010 + 0x8 * n, 0, 3, 0, .ro, .any⟩
/-- PART_CMD.OP, Table PART-7. -/
def PART_CMD_OP : Fld := ⟨0x680020, 0, 3, 0, .rw, .any⟩
/-- PART_CMD.PART, Table PART-7. -/
def PART_CMD_PART : Fld := ⟨0x680020, 3, 7, 0, .rw, .any⟩
/-- PART_CMD.INST, Table PART-7. -/
def PART_CMD_INST : Fld := ⟨0x680020, 10, 5, 0, .rw, .any⟩
/-- PART_CMD_STATUS.BUSY, Table PART-7. -/
def PART_CMD_STATUS_BUSY : Fld := ⟨0x680028, 0, 1, 0, .ro, .any⟩
/-- PART_CMD_STATUS.RESULT, Table PART-7. -/
def PART_CMD_STATUS_RESULT : Fld := ⟨0x680028, 1, 3, 0, .ro, .any⟩
/-- PART_GATE_CMD.KIND, Table PART-7. -/
def PART_GATE_CMD_KIND : Fld := ⟨0x680030, 0, 2, 0, .rw, .any⟩
/-- PART_GATE_CMD.INDEX, Table PART-7. -/
def PART_GATE_CMD_INDEX : Fld := ⟨0x680030, 2, 9, 0, .rw, .any⟩
/-- PART_GATE_CMD.OP, Table PART-7. -/
def PART_GATE_CMD_OP : Fld := ⟨0x680030, 11, 2, 0, .rw, .any⟩
/-- PART_GATE_STATUS.BUSY, Table PART-7. -/
def PART_GATE_STATUS_BUSY : Fld := ⟨0x680038, 0, 1, 0, .ro, .any⟩
/-- PART_GATE_STATUS.DEFERRED, Table PART-7. -/
def PART_GATE_STATUS_DEFERRED : Fld := ⟨0x680038, 1, 1, 0, .ro, .any⟩
/-- PART_GATE_STATUS.RESULT, Table PART-7. -/
def PART_GATE_STATUS_RESULT : Fld := ⟨0x680038, 2, 2, 0, .ro, .any⟩
/-- PART_IRQ_DROP, Table PART-7. -/
def PART_IRQ_DROP : Fld := ⟨0x680040, 0, 32, 0, .rc, .any⟩
/-- PART_DB_DEFER, Table PART-7. -/
def PART_DB_DEFER : Fld := ⟨0x680048, 0, 32, 0, .rc, .any⟩
/-- PART_SEALED_RD, Table PART-7. -/
def PART_SEALED_RD : Fld := ⟨0x680050, 0, 32, 0, .rc, .any⟩
/-- PART_INST[64], Table PART-7. -/
def PART_INST (n : Nat) : Fld := ⟨0x680100 + 0x40 * n, 0, 2, 0, .ro, .any⟩
/-- PART_BKT_DB[64].DB, Table PART-7. -/
def PART_BKT_DB_DB (n : Nat) : Fld := ⟨0x680108 + 0x40 * n, 0, 32, 0, .ro, .any⟩
/-- PART_BKT_DB[64].U, Table PART-7. -/
def PART_BKT_DB_U (n : Nat) : Fld := ⟨0x680108 + 0x40 * n, 32, 32, 0, .ro, .any⟩
/-- PART_BKT_HBM[64], Table PART-7. -/
def PART_BKT_HBM (n : Nat) : Fld := ⟨0x680110 + 0x40 * n, 0, 48, 0, .ro, .any⟩
/-- PART_BKT_TOASH[64], Table PART-7. -/
def PART_BKT_TOASH (n : Nat) : Fld := ⟨0x680118 + 0x40 * n, 0, 48, 0, .ro, .any⟩
/-- PART_BKT_EU[64], Table PART-7. -/
def PART_BKT_EU (n : Nat) : Fld := ⟨0x680120 + 0x40 * n, 0, 48, 0, .ro, .any⟩
/-- PART_IRQ_MAP[4096].ADDR, Table PART-7. -/
def PART_IRQ_MAP_ADDR (n : Nat) : Fld := ⟨0x682000 + 0x10 * n, 2, 62, 0, .rw, .mediator⟩
/-- PART_IRQ_MAP[4096].DATA, Table PART-7. -/
def PART_IRQ_MAP_DATA (n : Nat) : Fld := ⟨0x682008 + 0x10 * n, 0, 32, 0, .rw, .mediator⟩
/-- PART_IRQ_MAP[4096].MASK, Table PART-7. -/
def PART_IRQ_MAP_MASK (n : Nat) : Fld := ⟨0x682008 + 0x10 * n, 32, 1, 1, .rw, .mediator⟩
/-- PART_IRQ_MAP[4096].COAL_US, Table PART-7. -/
def PART_IRQ_MAP_COAL_US (n : Nat) : Fld := ⟨0x682008 + 0x10 * n, 33, 10, 0, .rw, .mediator⟩
/-- PART_IRQ_MAP[4096].COAL_CNT, Table PART-7. -/
def PART_IRQ_MAP_COAL_CNT (n : Nat) : Fld := ⟨0x682008 + 0x10 * n, 43, 8, 1, .rw, .mediator⟩
/-- PART_IRQ_MAP[4096].PENDING, Table PART-7. -/
def PART_IRQ_MAP_PENDING (n : Nat) : Fld := ⟨0x682008 + 0x10 * n, 51, 8, 0, .ro, .any⟩
/-- XLT_INV_ADDR, Table XLT-9. -/
def XLT_INV_ADDR : Fld := ⟨0x700000, 16, 32, 0, .rw, .any⟩
/-- XLT_INV_CMD.SCOPE, Table XLT-9. -/
def XLT_INV_CMD_SCOPE : Fld := ⟨0x700008, 0, 3, 0, .rw, .any⟩
/-- XLT_INV_CMD.PART, Table XLT-9. -/
def XLT_INV_CMD_PART : Fld := ⟨0x700008, 3, 7, 0, .rw, .any⟩
/-- XLT_INV_CMD.INST, Table XLT-9. -/
def XLT_INV_CMD_INST : Fld := ⟨0x700008, 10, 5, 0, .rw, .any⟩
/-- XLT_INV_CMD.CTX, Table XLT-9. -/
def XLT_INV_CMD_CTX : Fld := ⟨0x700008, 15, 8, 0, .rw, .any⟩
/-- XLT_INV_CMD.COUNT, Table XLT-9. -/
def XLT_INV_CMD_COUNT : Fld := ⟨0x700008, 24, 16, 0, .rw, .any⟩
/-- XLT_INV_STATUS.BUSY, Table XLT-9. -/
def XLT_INV_STATUS_BUSY : Fld := ⟨0x700010, 0, 1, 0, .ro, .any⟩
/-- XLT_INV_STATUS.RESULT, Table XLT-9. -/
def XLT_INV_STATUS_RESULT : Fld := ⟨0x700010, 1, 3, 0, .ro, .any⟩
/-- XLT_INV_STATUS.QUEUED, Table XLT-9. -/
def XLT_INV_STATUS_QUEUED : Fld := ⟨0x700010, 4, 4, 0, .ro, .any⟩
/-- XLT_CTLB_MISS, Table XLT-9. -/
def XLT_CTLB_MISS : Fld := ⟨0x700018, 0, 48, 0, .rc, .any⟩
/-- XLT_DTLB_HIT, Table XLT-9. -/
def XLT_DTLB_HIT : Fld := ⟨0x700020, 0, 48, 0, .rc, .any⟩
/-- XLT_DTLB_MISS, Table XLT-9. -/
def XLT_DTLB_MISS : Fld := ⟨0x700028, 0, 48, 0, .rc, .any⟩
/-- XLT_WALKS, Table XLT-9. -/
def XLT_WALKS : Fld := ⟨0x700030, 0, 48, 0, .rc, .any⟩
/-- XLT_LEASE_DROP, Table XLT-9. -/
def XLT_LEASE_DROP : Fld := ⟨0x700038, 0, 48, 0, .rc, .any⟩
/-- XLT_WALK_FAULT, Table XLT-9. -/
def XLT_WALK_FAULT : Fld := ⟨0x700040, 0, 32, 0, .rc, .any⟩
/-- XLT_TLB_ERR, Table XLT-9. -/
def XLT_TLB_ERR : Fld := ⟨0x700048, 0, 32, 0, .rc, .any⟩
/-- XLT_INV_DONE, Table XLT-9. -/
def XLT_INV_DONE : Fld := ⟨0x700050, 0, 32, 0, .rc, .any⟩
/-- XLT_WALK_PEAK, Table XLT-9. -/
def XLT_WALK_PEAK : Fld := ⟨0x700058, 0, 6, 0, .rc, .any⟩
/-- XLT_LEASE.LEASE_W, Table XLT-9. -/
def XLT_LEASE_LEASE_W : Fld := ⟨0x700060, 0, 14, 0, .ro, .any⟩
/-- XLT_LEASE.LEASE_E, Table XLT-9. -/
def XLT_LEASE_LEASE_E : Fld := ⟨0x700060, 16, 14, 0, .ro, .any⟩
/-- XLT_CTX_BASE[64].VALID, Table XLT-9. -/
def XLT_CTX_BASE_VALID (n : Nat) : Fld := ⟨0x700100 + 0x8 * n, 0, 1, 0, .rw, .wardenIfSealed⟩
/-- XLT_CTX_BASE[64].BASE, Table XLT-9. -/
def XLT_CTX_BASE_BASE (n : Nat) : Fld := ⟨0x700100 + 0x8 * n, 12, 40, 0, .rw, .wardenIfSealed⟩
/-- HOST_STATUS.BONDED, Table HOST-8. -/
def HOST_STATUS_BONDED : Fld := ⟨0x780000, 0, 1, 0, .ro, .any⟩
/-- HOST_STATUS.ROLE, Table HOST-8. -/
def HOST_STATUS_ROLE : Fld := ⟨0x780000, 1, 2, 2, .ro, .any⟩
/-- HOST_STATUS.ATTACH, Table HOST-8. -/
def HOST_STATUS_ATTACH : Fld := ⟨0x780000, 3, 2, 0, .ro, .any⟩
/-- HOST_STATUS.SPEED, Table HOST-8. -/
def HOST_STATUS_SPEED : Fld := ⟨0x780000, 5, 3, 0, .ro, .any⟩
/-- HOST_STATUS.WIDTH, Table HOST-8. -/
def HOST_STATUS_WIDTH : Fld := ⟨0x780000, 8, 5, 0, .ro, .any⟩
/-- HOST_STATUS.FLIT, Table HOST-8. -/
def HOST_STATUS_FLIT : Fld := ⟨0x780000, 13, 1, 0, .ro, .any⟩
/-- HOST_ABI.MINOR, Table HOST-8. -/
def HOST_ABI_MINOR : Fld := ⟨0x780008, 0, 16, 0, .rw, .pfOnly⟩
/-- HOST_ABI.MAJOR, Table HOST-8. -/
def HOST_ABI_MAJOR : Fld := ⟨0x780008, 16, 16, 0, .rw, .any⟩
/-- HOST_ABI_STATUS.RESULT, Table HOST-8. -/
def HOST_ABI_STATUS_RESULT : Fld := ⟨0x780010, 0, 2, 0, .ro, .any⟩
/-- HOST_ABI_STATUS.ACTIVE, Table HOST-8. -/
def HOST_ABI_STATUS_ACTIVE : Fld := ⟨0x780010, 16, 16, 0, .ro, .any⟩
/-- HOST_PF_DIE, Table HOST-8. -/
def HOST_PF_DIE : Fld := ⟨0x780018, 0, 6, 0, .rw, .any⟩
/-- HOST_PF_WBASE, Table HOST-8. -/
def HOST_PF_WBASE : Fld := ⟨0x780020, 19, 13, 0, .rw, .any⟩
/-- HOST_CTO, Table HOST-8. -/
def HOST_CTO : Fld := ⟨0x780028, 0, 16, 0, .ro, .any⟩
/-- HOST_CTO_COUNT, Table HOST-8. -/
def HOST_CTO_COUNT : Fld := ⟨0x780030, 0, 32, 0, .rc, .any⟩
/-- HOST_APT_ERR, Table HOST-8. -/
def HOST_APT_ERR : Fld := ⟨0x780038, 0, 32, 0, .rc, .any⟩
/-- HOST_AER_CE, Table HOST-8. -/
def HOST_AER_CE : Fld := ⟨0x780040, 0, 32, 0, .rc, .any⟩
/-- HOST_AER_UE, Table HOST-8. -/
def HOST_AER_UE : Fld := ⟨0x780048, 0, 32, 0, .rc, .any⟩
/-- HOST_ATS_INV, Table HOST-8. -/
def HOST_ATS_INV : Fld := ⟨0x780050, 0, 32, 0, .rc, .any⟩
/-- HOST_CXL.PRESENT, Table HOST-8. -/
def HOST_CXL_PRESENT : Fld := ⟨0x780058, 0, 1, 0, .ro, .any⟩
/-- HOST_CXL.HDM, Table HOST-8. -/
def HOST_CXL_HDM : Fld := ⟨0x780058, 1, 1, 0, .ro, .any⟩
/-- HOST_CXL.CAP, Table HOST-8. -/
def HOST_CXL_CAP : Fld := ⟨0x780058, 16, 32, 0, .ro, .any⟩
/-- HOST_PT_CMD.INDEX, Table HOST-8. -/
def HOST_PT_CMD_INDEX : Fld := ⟨0x780060, 0, 8, 0, .rw, .any⟩
/-- HOST_PT_CMD.OP, Table HOST-8. -/
def HOST_PT_CMD_OP : Fld := ⟨0x780060, 8, 2, 0, .rw, .any⟩
/-- HOST_PT_STATUS.BUSY, Table HOST-8. -/
def HOST_PT_STATUS_BUSY : Fld := ⟨0x780068, 0, 1, 0, .ro, .any⟩
/-- HOST_PT_STATUS.RESULT, Table HOST-8. -/
def HOST_PT_STATUS_RESULT : Fld := ⟨0x780068, 1, 2, 0, .ro, .any⟩
/-- HOST_PT_DATA[4], Table HOST-8. -/
def HOST_PT_DATA (n : Nat) : Fld := ⟨0x780070 + 0x8 * n, 0, 64, 0, .rw, .any⟩
/-- HOST_FN_VBASE[128], Table HOST-9. -/
def HOST_FN_VBASE (n : Nat) : Fld := ⟨0x781000 + 0x20 * n, 16, 32, 0, .rw, .any⟩
/-- HOST_FN_CTX[128].CTX, Table HOST-9. -/
def HOST_FN_CTX_CTX (n : Nat) : Fld := ⟨0x781008 + 0x20 * n, 0, 8, 0, .rw, .any⟩
/-- HOST_FN_CTX[128].PART, Table HOST-9. -/
def HOST_FN_CTX_PART (n : Nat) : Fld := ⟨0x781008 + 0x20 * n, 8, 7, 0, .ro, .any⟩
/-- HOST_FN_CTX[128].INST, Table HOST-9. -/
def HOST_FN_CTX_INST (n : Nat) : Fld := ⟨0x781008 + 0x20 * n, 15, 5, 0, .ro, .any⟩
/-- HOST_FN_CTX[128].SERVED, Table HOST-9. -/
def HOST_FN_CTX_SERVED (n : Nat) : Fld := ⟨0x781008 + 0x20 * n, 20, 1, 0, .ro, .any⟩
/-- HOST_FN_PBASE[128], Table HOST-9. -/
def HOST_FN_PBASE (n : Nat) : Fld := ⟨0x781010 + 0x20 * n, 16, 36, 0, .rw, .pfOnly⟩
/-- HOST_FN_CUT[128], Table HOST-9. -/
def HOST_FN_CUT (n : Nat) : Fld := ⟨0x781018 + 0x20 * n, 0, 32, 0, .rc, .any⟩
/-- REC_RING_BASE, Table FLT-10. -/
def REC_RING_BASE : Fld := ⟨0x800000, 0, 52, 0, .ro, .any⟩
/-- REC_RING_SIZE, Table FLT-10. -/
def REC_RING_SIZE : Fld := ⟨0x800008, 0, 9, 64, .ro, .any⟩
/-- REC_WR, Table FLT-10. -/
def REC_WR : Fld := ⟨0x800010, 0, 64, 0, .ro, .any⟩
/-- REC_OLDEST, Table FLT-10. -/
def REC_OLDEST : Fld := ⟨0x800018, 0, 64, 0, .ro, .any⟩
/-- REC_SEQ, Table FLT-10. -/
def REC_SEQ : Fld := ⟨0x800020, 0, 16, 0, .ro, .any⟩
/-- REC_STAGE.BYTES, Table FLT-10. -/
def REC_STAGE_BYTES : Fld := ⟨0x800028, 0, 19, 0, .ro, .any⟩
/-- REC_STAGE.RING_UP, Table FLT-10. -/
def REC_STAGE_RING_UP : Fld := ⟨0x800028, 19, 1, 0, .ro, .any⟩
/-- REC_DROPPED, Table FLT-10. -/
def REC_DROPPED : Fld := ⟨0x800030, 0, 32, 0, .rc, .any⟩
/-- REC_WRITTEN, Table FLT-10. -/
def REC_WRITTEN : Fld := ⟨0x800038, 0, 48, 0, .rc, .any⟩
/-- REC_TEST, Table FLT-10. -/
def REC_TEST : Fld := ⟨0x800040, 0, 32, 0, .rw, .any⟩
/-- REC_WIN_OFF, Table FLT-10. -/
def REC_WIN_OFF : Fld := ⟨0x800048, 3, 61, 0, .rw, .any⟩
/-- REC_FAIL_CLUSTER[5], Table FLT-10. -/
def REC_FAIL_CLUSTER (n : Nat) : Fld := ⟨0x800200 + 0x8 * n, 0, 64, 0, .ro, .any⟩
/-- REC_FAIL_CHAN, Table FLT-10. -/
def REC_FAIL_CHAN : Fld := ⟨0x800228, 0, 24, 0, .ro, .any⟩
/-- REC_FAIL_HALF, Table FLT-10. -/
def REC_FAIL_HALF : Fld := ⟨0x800230, 0, 2, 0, .ro, .any⟩
/-- REC_FAIL_CLEAR.CLUSTERS, Table FLT-10. -/
def REC_FAIL_CLEAR_CLUSTERS : Fld := ⟨0x800238, 0, 1, 0, .w1s, .any⟩
/-- REC_FAIL_CLEAR.CHANS, Table FLT-10. -/
def REC_FAIL_CLEAR_CHANS : Fld := ⟨0x800238, 1, 1, 0, .w1s, .any⟩
/-- REC_FAIL_CLEAR.HALVES, Table FLT-10. -/
def REC_FAIL_CLEAR_HALVES : Fld := ⟨0x800238, 2, 1, 0, .w1s, .any⟩
/-- REC_WIN[64], Table FLT-10. -/
def REC_WIN (n : Nat) : Fld := ⟨0x800400 + 0x8 * n, 0, 64, 0, .ro, .any⟩
/-- WARD_STATUS, Table PART-8. -/
def WARD_STATUS : Fld := ⟨0x880000, 0, 1, 0, .ro, .any⟩
/-- WARD_SEALED.PART_W, Table PART-8. -/
def WARD_SEALED_PART_W : Fld := ⟨0x880008, 0, 7, 0, .ro, .any⟩
/-- WARD_SEALED.SEAL_W, Table PART-8. -/
def WARD_SEALED_SEAL_W : Fld := ⟨0x880008, 7, 1, 0, .ro, .any⟩
/-- WARD_SEALED.PART_E, Table PART-8. -/
def WARD_SEALED_PART_E : Fld := ⟨0x880008, 8, 7, 0, .ro, .any⟩
/-- WARD_SEALED.SEAL_E, Table PART-8. -/
def WARD_SEALED_SEAL_E : Fld := ⟨0x880008, 15, 1, 0, .ro, .any⟩
/-- WARD_SEALED.STRING_MS, Table PART-8. -/
def WARD_SEALED_STRING_MS : Fld := ⟨0x880008, 16, 14, 0, .ro, .any⟩
/-- WARD_STR_CLUSTER[5], Table PART-8. -/
def WARD_STR_CLUSTER (n : Nat) : Fld := ⟨0x880010 + 0x8 * n, 0, 64, 0, .rw, .warden⟩
/-- WARD_STR_SLICE, Table PART-8. -/
def WARD_STR_SLICE : Fld := ⟨0x880038, 0, 24, 0, .rw, .warden⟩
/-- WARD_STR_CHAN, Table PART-8. -/
def WARD_STR_CHAN : Fld := ⟨0x880040, 0, 24, 0, .rw, .warden⟩
/-- WARD_STR_HALF, Table PART-8. -/
def WARD_STR_HALF : Fld := ⟨0x880048, 0, 2, 0, .rw, .warden⟩
/-- WARD_GRANT.PART, Table PART-8. -/
def WARD_GRANT_PART : Fld := ⟨0x880050, 0, 7, 0, .rw, .warden⟩
/-- WARD_GRANT.VALID, Table PART-8. -/
def WARD_GRANT_VALID : Fld := ⟨0x880050, 7, 1, 0, .rw, .warden⟩
/-- WARD_GRANT_SERIAL, Table PART-8. -/
def WARD_GRANT_SERIAL : Fld := ⟨0x880058, 0, 64, 0, .rw, .warden⟩
/-- WARD_LOSS, Table PART-8. -/
def WARD_LOSS : Fld := ⟨0x880060, 0, 16, 0, .rw, .warden⟩
/-- WARD_MBOX_IN, Table PART-8. -/
def WARD_MBOX_IN : Fld := ⟨0x880068, 0, 64, 0, .rw, .any⟩
/-- WARD_MBOX_OUT, Table PART-8. -/
def WARD_MBOX_OUT : Fld := ⟨0x880070, 0, 64, 0, .rw, .warden⟩
/-- WARD_MBOX_STAT.IN_FULL, Table PART-8. -/
def WARD_MBOX_STAT_IN_FULL : Fld := ⟨0x880078, 0, 1, 0, .ro, .any⟩
/-- WARD_MBOX_STAT.OUT_FULL, Table PART-8. -/
def WARD_MBOX_STAT_OUT_FULL : Fld := ⟨0x880078, 1, 1, 0, .ro, .any⟩
/-- WARD_REFUSED, Table PART-8. -/
def WARD_REFUSED : Fld := ⟨0x880080, 0, 32, 0, .rc, .any⟩
/-- WARD_DENIED, Table PART-8. -/
def WARD_DENIED : Fld := ⟨0x880088, 0, 32, 0, .rc, .any⟩

end Reg

/-- The DC block. -/
def rowsDc : List RegRow :=
  [⟨⟨0x0, 0, 6, 0, .ro, .any⟩, []⟩,
   ⟨⟨0x0, 6, 2, 0, .ro, .any⟩, []⟩,
   ⟨⟨0x0, 8, 4, 0, .ro, .any⟩, []⟩,
   ⟨⟨0x0, 12, 5, 0, .ro, .any⟩, []⟩,
   ⟨⟨0x8, 0, 4, 0, .ro, .any⟩, []⟩,
   ⟨⟨0x8, 4, 1, 0, .ro, .any⟩, []⟩,
   ⟨⟨0x8, 5, 1, 0, .ro, .any⟩, []⟩,
   ⟨⟨0x8, 6, 1, 0, .ro, .any⟩, []⟩,
   ⟨⟨0x8, 8, 8, 0, .ro, .any⟩, []⟩,
   ⟨⟨0x10, 0, 16, 0, .ro, .any⟩, [(0x8, 7)]⟩,
   ⟨⟨0x10, 16, 16, 0, .ro, .any⟩, [(0x8, 7)]⟩,
   ⟨⟨0x10, 32, 16, 0, .ro, .any⟩, [(0x8, 7)]⟩,
   ⟨⟨0x48, 0, 64, 0, .ro, .any⟩, []⟩,
   ⟨⟨0x50, 0, 64, 0, .ro, .any⟩, []⟩,
   ⟨⟨0x58, 0, 64, 0, .ro, .any⟩, []⟩,
   ⟨⟨0x60, 0, 16, 0, .ro, .any⟩, []⟩,
   ⟨⟨0x60, 16, 1, 0, .ro, .any⟩, []⟩,
   ⟨⟨0x60, 17, 1, 0, .ro, .any⟩, []⟩,
   ⟨⟨0x68, 0, 64, 0, .ro, .any⟩, []⟩,
   ⟨⟨0x70, 0, 64, 0, .ro, .any⟩, []⟩,
   ⟨⟨0x78, 0, 2, 0, .ro, .any⟩, []⟩,
   ⟨⟨0x78, 2, 1, 0, .ro, .any⟩, []⟩,
   ⟨⟨0x80, 0, 32, 0, .rw, .any⟩, []⟩,
   ⟨⟨0x88, 0, 32, 0, .ro, .any⟩, []⟩,
   ⟨⟨0x90, 0, 24, 0, .ro, .any⟩, []⟩,
   ⟨⟨0x98, 0, 16, 0, .ro, .any⟩, []⟩,
   ⟨⟨0xa0, 0, 4, 0, .ro, .any⟩, []⟩,
   ⟨⟨0xa8, 0, 16, 65535, .rw, .any⟩, []⟩,
   ⟨⟨0xb0, 0, 32, 0, .rc, .any⟩, []⟩]

/-- The FUSE block. -/
def rowsFuse : List RegRow :=
  [⟨⟨0x80000, 0, 1, 0, .ro, .any⟩, []⟩,
   ⟨⟨0x80000, 1, 1, 0, .ro, .any⟩, []⟩,
   ⟨⟨0x80008, 0, 2, 0, .ro, .any⟩, []⟩,
   ⟨⟨0x80008, 2, 5, 0, .ro, .any⟩, []⟩,
   ⟨⟨0x80010, 0, 64, 0, .ro, .any⟩, []⟩,
   ⟨⟨0x80018, 0, 64, 0, .ro, .any⟩, [(0x8, 3)]⟩,
   ⟨⟨0x80030, 0, 64, 0, .ro, .any⟩, [(0x8, 3)]⟩]

/-- The CLK block. -/
def rowsClk : List RegRow :=
  [⟨⟨0x100000, 0, 2, 3, .ro, .any⟩, []⟩,
   ⟨⟨0x100000, 2, 1, 0, .ro, .any⟩, []⟩,
   ⟨⟨0x100000, 3, 2, 3, .ro, .any⟩, []⟩,
   ⟨⟨0x100000, 5, 1, 0, .ro, .any⟩, []⟩,
   ⟨⟨0x100000, 6, 1, 0, .ro, .any⟩, []⟩,
   ⟨⟨0x100008, 0, 2, 3, .ro, .any⟩, []⟩,
   ⟨⟨0x100008, 2, 2, 3, .ro, .any⟩, []⟩,
   ⟨⟨0x100010, 0, 3, 0, .ro, .any⟩, []⟩,
   ⟨⟨0x100018, 0, 32, 0, .rc, .any⟩, []⟩,
   ⟨⟨0x100020, 0, 48, 0, .rc, .any⟩, []⟩]

/-- The MON block. -/
def rowsMon : List RegRow :=
  [⟨⟨0x180000, 0, 2, 3, .ro, .any⟩, []⟩,
   ⟨⟨0x180010, 0, 64, 0, .ro, .any⟩, [(0x8, 5)]⟩,
   ⟨⟨0x180038, 0, 64, 0, .ro, .any⟩, [(0x8, 5)]⟩,
   ⟨⟨0x180060, 0, 32, 0, .ro, .any⟩, []⟩,
   ⟨⟨0x180068, 0, 32, 0, .ro, .any⟩, [(0x8, 4)]⟩,
   ⟨⟨0x180088, 0, 32, 0, .ro, .any⟩, []⟩,
   ⟨⟨0x180090, 0, 8, 0, .ro, .any⟩, []⟩,
   ⟨⟨0x180098, 0, 32, 0, .ro, .any⟩, []⟩,
   ⟨⟨0x180098, 32, 8, 0, .ro, .any⟩, []⟩,
   ⟨⟨0x180098, 40, 1, 0, .ro, .any⟩, []⟩,
   ⟨⟨0x1800a0, 0, 32, 0, .rc, .any⟩, []⟩,
   ⟨⟨0x181000, 0, 8, 0, .rwl, .any⟩, [(0x8, 360)]⟩,
   ⟨⟨0x181000, 8, 8, 255, .rwl, .any⟩, [(0x8, 360)]⟩,
   ⟨⟨0x181000, 16, 3, 3, .rwl, .any⟩, [(0x8, 360)]⟩,
   ⟨⟨0x181000, 20, 3, 2, .rwl, .any⟩, [(0x8, 360)]⟩]

/-- The GOV block. -/
def rowsGov : List RegRow :=
  [⟨⟨0x200000, 0, 40, 0, .ro, .any⟩, []⟩,
   ⟨⟨0x200008, 0, 5, 2, .rw, .any⟩, []⟩,
   ⟨⟨0x200008, 16, 14, 100, .rw, .any⟩, []⟩,
   ⟨⟨0x200008, 32, 9, 192, .rw, .any⟩, []⟩,
   ⟨⟨0x200010, 0, 11, 0, .ro, .any⟩, []⟩,
   ⟨⟨0x200010, 32, 32, 0, .ro, .any⟩, []⟩,
   ⟨⟨0x200018, 0, 9, 256, .ro, .any⟩, []⟩,
   ⟨⟨0x200018, 9, 4, 0, .ro, .any⟩, []⟩,
   ⟨⟨0x200018, 13, 1, 0, .ro, .any⟩, []⟩,
   ⟨⟨0x200018, 14, 1, 0, .ro, .any⟩, []⟩,
   ⟨⟨0x200018, 16, 12, 0, .ro, .any⟩, []⟩,
   ⟨⟨0x200018, 28, 1, 0, .ro, .any⟩, []⟩,
   ⟨⟨0x200020, 0, 32, 0, .ro, .any⟩, [(0x8, 16)]⟩,
   ⟨⟨0x2000a0, 0, 8, 0, .ro, .any⟩, [(0x8, 4)]⟩,
   ⟨⟨0x2000a0, 8, 2, 0, .ro, .any⟩, [(0x8, 4)]⟩,
   ⟨⟨0x2000c0, 0, 48, 0, .rc, .any⟩, []⟩,
   ⟨⟨0x2000c8, 0, 48, 0, .rc, .any⟩, []⟩,
   ⟨⟨0x2000d0, 0, 32, 0, .rc, .any⟩, []⟩,
   ⟨⟨0x2000d8, 0, 48, 0, .rc, .any⟩, []⟩,
   ⟨⟨0x2000e0, 0, 8, 190, .ro, .any⟩, []⟩]

/-- The IMG block. -/
def rowsImg : List RegRow :=
  [⟨⟨0x280000, 0, 4, 0, .rw, .any⟩, []⟩,
   ⟨⟨0x280008, 0, 3, 0, .ro, .any⟩, []⟩,
   ⟨⟨0x280008, 3, 1, 0, .ro, .any⟩, []⟩,
   ⟨⟨0x280008, 4, 1, 0, .ro, .any⟩, []⟩,
   ⟨⟨0x280008, 5, 7, 0, .ro, .any⟩, []⟩,
   ⟨⟨0x280008, 16, 8, 0, .ro, .any⟩, []⟩,
   ⟨⟨0x280010, 0, 36, 0, .ro, .any⟩, []⟩,
   ⟨⟨0x280018, 0, 64, 0, .rw, .any⟩, []⟩,
   ⟨⟨0x280020, 0, 14, 100, .rw, .any⟩, []⟩,
   ⟨⟨0x280028, 0, 64, 0, .ro, .any⟩, [(0x8, 2)]⟩,
   ⟨⟨0x280038, 0, 16, 0, .ro, .any⟩, []⟩,
   ⟨⟨0x280038, 16, 16, 0, .ro, .any⟩, []⟩,
   ⟨⟨0x280040, 0, 32, 0, .rc, .any⟩, []⟩,
   ⟨⟨0x280048, 0, 16, 0, .rc, .any⟩, []⟩]

/-- The QUE block. -/
def rowsQue : List RegRow :=
  [⟨⟨0x300000, 0, 32, 0, .rc, .any⟩, []⟩,
   ⟨⟨0x300008, 0, 32, 0, .rc, .any⟩, []⟩,
   ⟨⟨0x300010, 0, 9, 0, .ro, .any⟩, []⟩,
   ⟨⟨0x300100, 12, 40, 0, .rw, .wardenIfSealed⟩, [(0x40, 64)]⟩,
   ⟨⟨0x300108, 0, 1, 0, .rw, .wardenIfSealed⟩, [(0x40, 64)]⟩,
   ⟨⟨0x300108, 1, 1, 0, .rw, .wardenIfSealed⟩, [(0x40, 64)]⟩,
   ⟨⟨0x300108, 2, 5, 4, .rw, .wardenIfSealed⟩, [(0x40, 64)]⟩,
   ⟨⟨0x300108, 7, 6, 0, .rw, .wardenIfSealed⟩, [(0x40, 64)]⟩,
   ⟨⟨0x300108, 13, 1, 0, .w1s, .any⟩, [(0x40, 64)]⟩,
   ⟨⟨0x300110, 0, 64, 0, .ro, .any⟩, [(0x40, 64)]⟩,
   ⟨⟨0x300118, 0, 64, 0, .ro, .any⟩, [(0x40, 64)]⟩,
   ⟨⟨0x300120, 0, 3, 0, .ro, .any⟩, [(0x40, 64)]⟩,
   ⟨⟨0x300120, 3, 1, 0, .ro, .any⟩, [(0x40, 64)]⟩,
   ⟨⟨0x300120, 4, 1, 0, .ro, .any⟩, [(0x40, 64)]⟩,
   ⟨⟨0x300120, 8, 4, 0, .ro, .any⟩, [(0x40, 64)]⟩,
   ⟨⟨0x300128, 0, 2, 0, .ro, .any⟩, [(0x40, 64)]⟩,
   ⟨⟨0x300128, 2, 2, 0, .ro, .any⟩, [(0x40, 64)]⟩,
   ⟨⟨0x300128, 4, 5, 0, .ro, .any⟩, [(0x40, 64)]⟩,
   ⟨⟨0x300128, 9, 7, 0, .ro, .any⟩, [(0x40, 64)]⟩,
   ⟨⟨0x300128, 16, 8, 0, .ro, .any⟩, [(0x40, 64)]⟩,
   ⟨⟨0x300128, 24, 4, 0, .ro, .any⟩, [(0x40, 64)]⟩,
   ⟨⟨0x300128, 28, 16, 0, .ro, .any⟩, [(0x40, 64)]⟩,
   ⟨⟨0x300128, 44, 1, 0, .ro, .any⟩, [(0x40, 64)]⟩]

/-- The SEQ block. -/
def rowsSeq : List RegRow :=
  [⟨⟨0x380000, 0, 8, 0, .rw, .any⟩, []⟩,
   ⟨⟨0x380008, 0, 64, 0, .ro, .any⟩, [(0x8, 16)]⟩,
   ⟨⟨0x380088, 0, 64, 0, .ro, .any⟩, [(0x8, 4)]⟩,
   ⟨⟨0x3800a8, 0, 48, 0, .rc, .any⟩, []⟩,
   ⟨⟨0x3800b0, 0, 11, 0, .ro, .any⟩, []⟩,
   ⟨⟨0x3800b8, 0, 11, 0, .rc, .any⟩, []⟩,
   ⟨⟨0x3800c0, 0, 32, 0, .rc, .any⟩, []⟩,
   ⟨⟨0x3800c8, 0, 48, 0, .rc, .any⟩, []⟩]

/-- The MOV block. -/
def rowsMov : List RegRow :=
  [⟨⟨0x400000, 0, 5, 0, .rw, .any⟩, []⟩,
   ⟨⟨0x400000, 5, 7, 0, .rw, .any⟩, []⟩,
   ⟨⟨0x400000, 12, 2, 0, .rw, .any⟩, []⟩,
   ⟨⟨0x400008, 0, 14, 100, .rw, .any⟩, []⟩,
   ⟨⟨0x400010, 0, 32, 0, .rc, .any⟩, []⟩,
   ⟨⟨0x400018, 0, 48, 0, .rc, .any⟩, []⟩,
   ⟨⟨0x400020, 0, 16, 0, .rc, .any⟩, []⟩,
   ⟨⟨0x400100, 0, 3, 0, .ro, .any⟩, [(0x80, 32)]⟩,
   ⟨⟨0x400100, 3, 6, 0, .ro, .any⟩, [(0x80, 32)]⟩,
   ⟨⟨0x400100, 9, 7, 0, .ro, .any⟩, [(0x80, 32)]⟩,
   ⟨⟨0x400100, 16, 16, 0, .ro, .any⟩, [(0x80, 32)]⟩,
   ⟨⟨0x400100, 32, 1, 0, .ro, .any⟩, [(0x80, 32)]⟩,
   ⟨⟨0x400100, 33, 12, 0, .ro, .any⟩, [(0x80, 32)]⟩,
   ⟨⟨0x400108, 0, 64, 0, .ro, .any⟩, [(0x80, 32)]⟩,
   ⟨⟨0x400110, 0, 64, 0, .ro, .any⟩, [(0x80, 32), (0x8, 8)]⟩,
   ⟨⟨0x401200, 0, 16, 0, .ro, .any⟩, [(0x8, 64)]⟩,
   ⟨⟨0x401200, 16, 7, 0, .rw, .any⟩, [(0x8, 64)]⟩,
   ⟨⟨0x401200, 23, 5, 0, .rw, .any⟩, [(0x8, 64)]⟩,
   ⟨⟨0x401200, 28, 1, 0, .rw, .any⟩, [(0x8, 64)]⟩,
   ⟨⟨0x410000, 0, 64, 0, .rw, .any⟩, [(0x8, 8192)]⟩]

/-- The UC block. -/
def rowsUc : List RegRow :=
  [⟨⟨0x480000, 0, 1, 0, .ro, .any⟩, []⟩,
   ⟨⟨0x480000, 1, 1, 0, .ro, .any⟩, []⟩,
   ⟨⟨0x480000, 2, 1, 0, .ro, .any⟩, []⟩,
   ⟨⟨0x480008, 0, 24, 0, .ro, .any⟩, []⟩,
   ⟨⟨0x480010, 7, 45, 0, .rw, .any⟩, []⟩,
   ⟨⟨0x480018, 0, 2, 0, .rw, .any⟩, []⟩,
   ⟨⟨0x480018, 2, 11, 0, .rw, .any⟩, []⟩,
   ⟨⟨0x480018, 13, 7, 0, .rw, .any⟩, []⟩,
   ⟨⟨0x480020, 0, 1, 0, .ro, .any⟩, []⟩,
   ⟨⟨0x480020, 1, 3, 0, .ro, .any⟩, []⟩,
   ⟨⟨0x480020, 8, 11, 0, .ro, .any⟩, []⟩,
   ⟨⟨0x480028, 0, 32, 0, .rc, .any⟩, []⟩,
   ⟨⟨0x480030, 0, 32, 0, .rc, .any⟩, []⟩,
   ⟨⟨0x480100, 0, 48, 0, .rc, .any⟩, [(0x40, 24)]⟩,
   ⟨⟨0x480108, 0, 48, 0, .rc, .any⟩, [(0x40, 24)]⟩,
   ⟨⟨0x480110, 0, 32, 0, .rc, .any⟩, [(0x40, 24)]⟩,
   ⟨⟨0x480118, 0, 32, 0, .rc, .any⟩, [(0x40, 24)]⟩,
   ⟨⟨0x480120, 0, 32, 0, .rc, .any⟩, [(0x40, 24)]⟩,
   ⟨⟨0x480128, 0, 8, 0, .rc, .any⟩, [(0x40, 24)]⟩,
   ⟨⟨0x480130, 0, 12, 0, .rc, .any⟩, [(0x40, 24)]⟩,
   ⟨⟨0x480138, 0, 11, 0, .ro, .any⟩, [(0x40, 24)]⟩]

/-- The COH block. -/
def rowsCoh : List RegRow :=
  [⟨⟨0x500000, 0, 1, 0, .ro, .any⟩, []⟩,
   ⟨⟨0x500000, 1, 1, 0, .ro, .any⟩, []⟩,
   ⟨⟨0x500008, 7, 45, 0, .rw, .any⟩, []⟩,
   ⟨⟨0x500010, 0, 1, 0, .w1s, .any⟩, []⟩,
   ⟨⟨0x500018, 0, 3, 0, .ro, .any⟩, []⟩,
   ⟨⟨0x500018, 3, 1, 0, .ro, .any⟩, []⟩,
   ⟨⟨0x500018, 4, 1, 0, .ro, .any⟩, []⟩,
   ⟨⟨0x500018, 5, 6, 0, .ro, .any⟩, []⟩,
   ⟨⟨0x500018, 11, 7, 0, .ro, .any⟩, []⟩,
   ⟨⟨0x500018, 18, 2, 0, .ro, .any⟩, []⟩,
   ⟨⟨0x500020, 0, 64, 0, .ro, .any⟩, []⟩,
   ⟨⟨0x500028, 0, 32, 0, .rc, .any⟩, []⟩,
   ⟨⟨0x500030, 0, 32, 0, .rc, .any⟩, []⟩,
   ⟨⟨0x500038, 0, 32, 0, .rc, .any⟩, []⟩,
   ⟨⟨0x500040, 0, 32, 0, .rc, .any⟩, []⟩,
   ⟨⟨0x500048, 0, 32, 0, .rc, .any⟩, []⟩,
   ⟨⟨0x500050, 0, 32, 0, .rc, .any⟩, []⟩,
   ⟨⟨0x500100, 0, 17, 0, .ro, .any⟩, [(0x40, 24)]⟩,
   ⟨⟨0x500108, 0, 17, 0, .rc, .any⟩, [(0x40, 24)]⟩,
   ⟨⟨0x500110, 0, 32, 0, .rc, .any⟩, [(0x40, 24)]⟩,
   ⟨⟨0x500118, 0, 48, 0, .rc, .any⟩, [(0x40, 24)]⟩,
   ⟨⟨0x500120, 0, 32, 0, .rc, .any⟩, [(0x40, 24)]⟩,
   ⟨⟨0x500128, 0, 32, 0, .rc, .any⟩, [(0x40, 24)]⟩,
   ⟨⟨0x500130, 0, 9, 0, .rc, .any⟩, [(0x40, 24)]⟩,
   ⟨⟨0x500138, 0, 11, 0, .rc, .any⟩, [(0x40, 24)]⟩]

/-- The MESH block. -/
def rowsMesh : List RegRow :=
  [⟨⟨0x580000, 0, 1, 1, .ro, .any⟩, []⟩,
   ⟨⟨0x580000, 1, 1, 0, .ro, .any⟩, []⟩,
   ⟨⟨0x580008, 0, 1, 0, .ro, .any⟩, [(0x8, 3)]⟩,
   ⟨⟨0x580008, 1, 3, 0, .ro, .any⟩, [(0x8, 3)]⟩,
   ⟨⟨0x580008, 4, 6, 0, .ro, .any⟩, [(0x8, 3)]⟩,
   ⟨⟨0x580020, 0, 1, 0, .ro, .any⟩, [(0x8, 2)]⟩,
   ⟨⟨0x580020, 1, 2, 0, .ro, .any⟩, [(0x8, 2)]⟩,
   ⟨⟨0x580020, 3, 7, 0, .ro, .any⟩, [(0x8, 2)]⟩,
   ⟨⟨0x580030, 0, 32, 0, .rc, .any⟩, [(0x8, 5)]⟩,
   ⟨⟨0x580058, 0, 16, 0, .rc, .any⟩, [(0x8, 5)]⟩,
   ⟨⟨0x580100, 0, 6, 8, .rwl, .any⟩, [(0x8, 68)]⟩,
   ⟨⟨0x580100, 8, 6, 8, .rwl, .any⟩, [(0x8, 68)]⟩,
   ⟨⟨0x580100, 16, 6, 8, .rwl, .any⟩, [(0x8, 68)]⟩,
   ⟨⟨0x580100, 24, 6, 8, .rwl, .any⟩, [(0x8, 68)]⟩,
   ⟨⟨0x580100, 32, 6, 8, .rwl, .any⟩, [(0x8, 68)]⟩,
   ⟨⟨0x580400, 0, 48, 0, .rc, .any⟩, [(0x8, 68)]⟩,
   ⟨⟨0x580800, 0, 48, 0, .rc, .any⟩, [(0x8, 4)]⟩]

/-- The RED block. -/
def rowsRed : List RegRow :=
  [⟨⟨0x600000, 0, 8, 4, .rw, .any⟩, []⟩,
   ⟨⟨0x600000, 8, 8, 64, .rw, .any⟩, []⟩,
   ⟨⟨0x600008, 0, 10, 100, .rw, .any⟩, []⟩,
   ⟨⟨0x600010, 0, 48, 0, .rc, .any⟩, []⟩,
   ⟨⟨0x600018, 0, 48, 0, .rc, .any⟩, []⟩,
   ⟨⟨0x600020, 0, 32, 0, .rc, .any⟩, []⟩,
   ⟨⟨0x600100, 0, 10, 0, .ro, .any⟩, [(0x40, 24)]⟩,
   ⟨⟨0x600108, 0, 48, 0, .rc, .any⟩, [(0x40, 24)]⟩,
   ⟨⟨0x600110, 0, 10, 0, .rc, .any⟩, [(0x40, 24)]⟩,
   ⟨⟨0x600800, 3, 49, 0, .rw, .wardenIfSealed⟩, [(0x8, 128)]⟩]

/-- The PART block. -/
def rowsPart : List RegRow :=
  [⟨⟨0x680000, 0, 7, 0, .ro, .any⟩, [(0x8, 2)]⟩,
   ⟨⟨0x680000, 7, 1, 0, .ro, .any⟩, [(0x8, 2)]⟩,
   ⟨⟨0x680000, 8, 1, 0, .ro, .any⟩, [(0x8, 2)]⟩,
   ⟨⟨0x680010, 0, 3, 0, .ro, .any⟩, [(0x8, 2)]⟩,
   ⟨⟨0x680020, 0, 3, 0, .rw, .any⟩, []⟩,
   ⟨⟨0x680020, 3, 7, 0, .rw, .any⟩, []⟩,
   ⟨⟨0x680020, 10, 5, 0, .rw, .any⟩, []⟩,
   ⟨⟨0x680028, 0, 1, 0, .ro, .any⟩, []⟩,
   ⟨⟨0x680028, 1, 3, 0, .ro, .any⟩, []⟩,
   ⟨⟨0x680030, 0, 2, 0, .rw, .any⟩, []⟩,
   ⟨⟨0x680030, 2, 9, 0, .rw, .any⟩, []⟩,
   ⟨⟨0x680030, 11, 2, 0, .rw, .any⟩, []⟩,
   ⟨⟨0x680038, 0, 1, 0, .ro, .any⟩, []⟩,
   ⟨⟨0x680038, 1, 1, 0, .ro, .any⟩, []⟩,
   ⟨⟨0x680038, 2, 2, 0, .ro, .any⟩, []⟩,
   ⟨⟨0x680040, 0, 32, 0, .rc, .any⟩, []⟩,
   ⟨⟨0x680048, 0, 32, 0, .rc, .any⟩, []⟩,
   ⟨⟨0x680050, 0, 32, 0, .rc, .any⟩, []⟩,
   ⟨⟨0x680100, 0, 2, 0, .ro, .any⟩, [(0x40, 64)]⟩,
   ⟨⟨0x680108, 0, 32, 0, .ro, .any⟩, [(0x40, 64)]⟩,
   ⟨⟨0x680108, 32, 32, 0, .ro, .any⟩, [(0x40, 64)]⟩,
   ⟨⟨0x680110, 0, 48, 0, .ro, .any⟩, [(0x40, 64)]⟩,
   ⟨⟨0x680118, 0, 48, 0, .ro, .any⟩, [(0x40, 64)]⟩,
   ⟨⟨0x680120, 0, 48, 0, .ro, .any⟩, [(0x40, 64)]⟩,
   ⟨⟨0x682000, 2, 62, 0, .rw, .mediator⟩, [(0x10, 4096)]⟩,
   ⟨⟨0x682008, 0, 32, 0, .rw, .mediator⟩, [(0x10, 4096)]⟩,
   ⟨⟨0x682008, 32, 1, 1, .rw, .mediator⟩, [(0x10, 4096)]⟩,
   ⟨⟨0x682008, 33, 10, 0, .rw, .mediator⟩, [(0x10, 4096)]⟩,
   ⟨⟨0x682008, 43, 8, 1, .rw, .mediator⟩, [(0x10, 4096)]⟩,
   ⟨⟨0x682008, 51, 8, 0, .ro, .any⟩, [(0x10, 4096)]⟩]

/-- The XLT block. -/
def rowsXlt : List RegRow :=
  [⟨⟨0x700000, 16, 32, 0, .rw, .any⟩, []⟩,
   ⟨⟨0x700008, 0, 3, 0, .rw, .any⟩, []⟩,
   ⟨⟨0x700008, 3, 7, 0, .rw, .any⟩, []⟩,
   ⟨⟨0x700008, 10, 5, 0, .rw, .any⟩, []⟩,
   ⟨⟨0x700008, 15, 8, 0, .rw, .any⟩, []⟩,
   ⟨⟨0x700008, 24, 16, 0, .rw, .any⟩, []⟩,
   ⟨⟨0x700010, 0, 1, 0, .ro, .any⟩, []⟩,
   ⟨⟨0x700010, 1, 3, 0, .ro, .any⟩, []⟩,
   ⟨⟨0x700010, 4, 4, 0, .ro, .any⟩, []⟩,
   ⟨⟨0x700018, 0, 48, 0, .rc, .any⟩, []⟩,
   ⟨⟨0x700020, 0, 48, 0, .rc, .any⟩, []⟩,
   ⟨⟨0x700028, 0, 48, 0, .rc, .any⟩, []⟩,
   ⟨⟨0x700030, 0, 48, 0, .rc, .any⟩, []⟩,
   ⟨⟨0x700038, 0, 48, 0, .rc, .any⟩, []⟩,
   ⟨⟨0x700040, 0, 32, 0, .rc, .any⟩, []⟩,
   ⟨⟨0x700048, 0, 32, 0, .rc, .any⟩, []⟩,
   ⟨⟨0x700050, 0, 32, 0, .rc, .any⟩, []⟩,
   ⟨⟨0x700058, 0, 6, 0, .rc, .any⟩, []⟩,
   ⟨⟨0x700060, 0, 14, 0, .ro, .any⟩, []⟩,
   ⟨⟨0x700060, 16, 14, 0, .ro, .any⟩, []⟩,
   ⟨⟨0x700100, 0, 1, 0, .rw, .wardenIfSealed⟩, [(0x8, 64)]⟩,
   ⟨⟨0x700100, 12, 40, 0, .rw, .wardenIfSealed⟩, [(0x8, 64)]⟩]

/-- The HOST block. -/
def rowsHost : List RegRow :=
  [⟨⟨0x780000, 0, 1, 0, .ro, .any⟩, []⟩,
   ⟨⟨0x780000, 1, 2, 2, .ro, .any⟩, []⟩,
   ⟨⟨0x780000, 3, 2, 0, .ro, .any⟩, []⟩,
   ⟨⟨0x780000, 5, 3, 0, .ro, .any⟩, []⟩,
   ⟨⟨0x780000, 8, 5, 0, .ro, .any⟩, []⟩,
   ⟨⟨0x780000, 13, 1, 0, .ro, .any⟩, []⟩,
   ⟨⟨0x780008, 0, 16, 0, .rw, .pfOnly⟩, []⟩,
   ⟨⟨0x780008, 16, 16, 0, .rw, .any⟩, []⟩,
   ⟨⟨0x780010, 0, 2, 0, .ro, .any⟩, []⟩,
   ⟨⟨0x780010, 16, 16, 0, .ro, .any⟩, []⟩,
   ⟨⟨0x780018, 0, 6, 0, .rw, .any⟩, []⟩,
   ⟨⟨0x780020, 19, 13, 0, .rw, .any⟩, []⟩,
   ⟨⟨0x780028, 0, 16, 0, .ro, .any⟩, []⟩,
   ⟨⟨0x780030, 0, 32, 0, .rc, .any⟩, []⟩,
   ⟨⟨0x780038, 0, 32, 0, .rc, .any⟩, []⟩,
   ⟨⟨0x780040, 0, 32, 0, .rc, .any⟩, []⟩,
   ⟨⟨0x780048, 0, 32, 0, .rc, .any⟩, []⟩,
   ⟨⟨0x780050, 0, 32, 0, .rc, .any⟩, []⟩,
   ⟨⟨0x780058, 0, 1, 0, .ro, .any⟩, []⟩,
   ⟨⟨0x780058, 1, 1, 0, .ro, .any⟩, []⟩,
   ⟨⟨0x780058, 16, 32, 0, .ro, .any⟩, []⟩,
   ⟨⟨0x780060, 0, 8, 0, .rw, .any⟩, []⟩,
   ⟨⟨0x780060, 8, 2, 0, .rw, .any⟩, []⟩,
   ⟨⟨0x780068, 0, 1, 0, .ro, .any⟩, []⟩,
   ⟨⟨0x780068, 1, 2, 0, .ro, .any⟩, []⟩,
   ⟨⟨0x780070, 0, 64, 0, .rw, .any⟩, [(0x8, 4)]⟩,
   ⟨⟨0x781000, 16, 32, 0, .rw, .any⟩, [(0x20, 128)]⟩,
   ⟨⟨0x781008, 0, 8, 0, .rw, .any⟩, [(0x20, 128)]⟩,
   ⟨⟨0x781008, 8, 7, 0, .ro, .any⟩, [(0x20, 128)]⟩,
   ⟨⟨0x781008, 15, 5, 0, .ro, .any⟩, [(0x20, 128)]⟩,
   ⟨⟨0x781008, 20, 1, 0, .ro, .any⟩, [(0x20, 128)]⟩,
   ⟨⟨0x781010, 16, 36, 0, .rw, .pfOnly⟩, [(0x20, 128)]⟩,
   ⟨⟨0x781018, 0, 32, 0, .rc, .any⟩, [(0x20, 128)]⟩]

/-- The REC block. -/
def rowsRec : List RegRow :=
  [⟨⟨0x800000, 0, 52, 0, .ro, .any⟩, []⟩,
   ⟨⟨0x800008, 0, 9, 64, .ro, .any⟩, []⟩,
   ⟨⟨0x800010, 0, 64, 0, .ro, .any⟩, []⟩,
   ⟨⟨0x800018, 0, 64, 0, .ro, .any⟩, []⟩,
   ⟨⟨0x800020, 0, 16, 0, .ro, .any⟩, []⟩,
   ⟨⟨0x800028, 0, 19, 0, .ro, .any⟩, []⟩,
   ⟨⟨0x800028, 19, 1, 0, .ro, .any⟩, []⟩,
   ⟨⟨0x800030, 0, 32, 0, .rc, .any⟩, []⟩,
   ⟨⟨0x800038, 0, 48, 0, .rc, .any⟩, []⟩,
   ⟨⟨0x800040, 0, 32, 0, .rw, .any⟩, []⟩,
   ⟨⟨0x800048, 3, 61, 0, .rw, .any⟩, []⟩,
   ⟨⟨0x800200, 0, 64, 0, .ro, .any⟩, [(0x8, 5)]⟩,
   ⟨⟨0x800228, 0, 24, 0, .ro, .any⟩, []⟩,
   ⟨⟨0x800230, 0, 2, 0, .ro, .any⟩, []⟩,
   ⟨⟨0x800238, 0, 1, 0, .w1s, .any⟩, []⟩,
   ⟨⟨0x800238, 1, 1, 0, .w1s, .any⟩, []⟩,
   ⟨⟨0x800238, 2, 1, 0, .w1s, .any⟩, []⟩,
   ⟨⟨0x800400, 0, 64, 0, .ro, .any⟩, [(0x8, 64)]⟩]

/-- The WARD block. -/
def rowsWard : List RegRow :=
  [⟨⟨0x880000, 0, 1, 0, .ro, .any⟩, []⟩,
   ⟨⟨0x880008, 0, 7, 0, .ro, .any⟩, []⟩,
   ⟨⟨0x880008, 7, 1, 0, .ro, .any⟩, []⟩,
   ⟨⟨0x880008, 8, 7, 0, .ro, .any⟩, []⟩,
   ⟨⟨0x880008, 15, 1, 0, .ro, .any⟩, []⟩,
   ⟨⟨0x880008, 16, 14, 0, .ro, .any⟩, []⟩,
   ⟨⟨0x880010, 0, 64, 0, .rw, .warden⟩, [(0x8, 5)]⟩,
   ⟨⟨0x880038, 0, 24, 0, .rw, .warden⟩, []⟩,
   ⟨⟨0x880040, 0, 24, 0, .rw, .warden⟩, []⟩,
   ⟨⟨0x880048, 0, 2, 0, .rw, .warden⟩, []⟩,
   ⟨⟨0x880050, 0, 7, 0, .rw, .warden⟩, []⟩,
   ⟨⟨0x880050, 7, 1, 0, .rw, .warden⟩, []⟩,
   ⟨⟨0x880058, 0, 64, 0, .rw, .warden⟩, []⟩,
   ⟨⟨0x880060, 0, 16, 0, .rw, .warden⟩, []⟩,
   ⟨⟨0x880068, 0, 64, 0, .rw, .any⟩, []⟩,
   ⟨⟨0x880070, 0, 64, 0, .rw, .warden⟩, []⟩,
   ⟨⟨0x880078, 0, 1, 0, .ro, .any⟩, []⟩,
   ⟨⟨0x880078, 1, 1, 0, .ro, .any⟩, []⟩,
   ⟨⟨0x880080, 0, 32, 0, .rc, .any⟩, []⟩,
   ⟨⟨0x880088, 0, 32, 0, .rc, .any⟩, []⟩]

/-- The rows of the block that holds `addr` (R555): block k occupies the 512 KiB from k × 0x8_0000. -/
def regRowsAt (addr : Nat) : List RegRow :=
  match addr / 0x80000 with
  | 0 => rowsDc
  | 1 => rowsFuse
  | 2 => rowsClk
  | 3 => rowsMon
  | 4 => rowsGov
  | 5 => rowsImg
  | 6 => rowsQue
  | 7 => rowsSeq
  | 8 => rowsMov
  | 9 => rowsUc
  | 10 => rowsCoh
  | 11 => rowsMesh
  | 12 => rowsRed
  | 13 => rowsPart
  | 14 => rowsXlt
  | 15 => rowsHost
  | 16 => rowsRec
  | 17 => rowsWard
  | _ => []

/-- The fields of the register at `addr`; none where it is unmapped (R555). -/
def fieldsAt (addr : Nat) : List Fld :=
  if addr % 8 = 0 then (regRowsAt addr).filterMap (fun r => r.at? addr) else []

end Sys2Proof.Machine
end

