-- ==== Sys2Proof/Machine/State.lean ====
section
/-! DEFINITION. The state of the rack: every register field, and every structure that the spec gives the
machine beside the registers, grouped by the chapter that owns it. Everything is plain data. A structure
without a record is at its reset value. -/

namespace Sys2Proof.Machine

/-- Why a command stops. -/
inductive Fault where
  /-- The command names a die that the rack of this order code does not have (Table SCP-1, R35). Raised by
  every command that names a die. Safe: the spec gives such a command no meaning. -/
  | absentUnit (die : Nat)
  deriving DecidableEq, Repr

/-- Why a command is refused by the model. -/
inductive Refusal where
  /-- The command has no meaning in the model yet. Raised by Dispatch alone. Safe. -/
  | notModelled (mnemonic : String)
  deriving DecidableEq, Repr

/-- The order codes (Table SCP-1). -/
inductive OrderCode where
  | cxm64S | cxm64T | cxm32S
  deriving DecidableEq, Repr

/-! ### Rack, power and modules (chapter 17) -/

structure Rack where
  /-- Shelves that report POWER_GOOD (R584). -/
  shelfUp : List Nat
  /-- Failed rectifiers of each shelf, of 8 (R581, R597). -/
  rectFailed : SMap Nat
  /-- The 48 V busbar is good (R584). -/
  busbar : Bool
  rmUp : Bool
  refclk : Bool
  /-- Spine switches that report ready (R584). -/
  spineReady : List Nat
  /-- Planes lost until the next full load (R535). -/
  planeLost : List Nat
  /-- Facility water inlet, °C, and flow, L/min, as the CDU last reported (R593). -/
  inlet : Nat
  flow : Nat
  /-- Checks, one a second, with flow below half its minimum (R593). -/
  lowFlow : Nat
  /-- Checks, one a second, with Table PHY-5 held, after a cooling power-off (R593). -/
  okFlow : Nat
  /-- A cooling power-off is in force (R593). -/
  coolOff : Bool
  /-- Module slots with MOD_EN asserted (R584). -/
  modEn : List Nat
  /-- Module slots that hold no module (R581, R595, R598): every other slot of the order code is populated. -/
  modAbsent : List Nat
  /-- MOD_ALERT_N asserted (R594, R596). -/
  modAlert : List Nat
  /-- Coolant valves shut (R594). -/
  valvesShut : List Nat
  /-- Modules whose MOD_EN has fallen: asserting it again is a module reset (R596). -/
  modReset : List Nat
  /-- Dies that a stage fault switched off (R596). -/
  dieOff : List Nat
  /-- Dies at die power good (R585). -/
  powered : List Nat
  /-- The stored firmware of each module's flash (R86, Table BOOT-3), key module × 8 + image × 2 + copy; images
  0 die boot, 1 die runtime, 2 warden. -/
  flash : List (Nat × FlashCopy)
  /-- The incarnation that each die's module flash mirrors (Table REG-5), key die. -/
  flashIncarn : SMap Nat
  /-- JTAG instruction in force, key die; unlisted is BYPASS (R589). -/
  jtagIr : SMap Nat
  /-- Boundary cells of each die (R589). -/
  jtagCells : SMap Nat
  /-- The compat tuples of the rack firmware and of the two spine switches (Table BOOT-2). -/
  rackFw : Compat
  spineFw : List Compat
  /-- The rack's own number (Table BOOT-5, DC_RACK). -/
  rackNo : Nat
  deriving DecidableEq, Repr

/-! ### Start-up, roll call and census (chapter 3) -/

/-- A row of an observer's roll-call table (R95). -/
structure RollRow where
  observer : Nat
  die : Nat
  /-- Consecutive missed slots. -/
  missed : Nat
  incarn : Nat
  stage : Nat
  master : Bool
  aligned : Bool
  lastRtime : Nat
  /-- Toash-L ports (3 and 4) that a beacon of it came over (R94, R99). -/
  overL : List Nat
  deriving DecidableEq, Repr

/-- An entry of the partner table (R98). -/
structure Partner where
  observer : Nat
  kind : Nat
  agent : Nat
  port : Nat
  missed : Nat
  rackNo : Nat
  lastRtime : Nat
  deriving DecidableEq, Repr

/-- What the census records of a die (R103). -/
structure CensusRow where
  die : Nat
  stepping : Nat
  incarn : Nat
  compat : List Compat
  caps : Nat
  goodW : Nat
  goodE : Nat
  chanFail : Nat
  /-- Port states: the widths of Toash ports 0–4, 0 for a port that is down, then ATTACH of the host port. -/
  ports : List Nat
  deriving DecidableEq, Repr

/-- One timed exchange of R100. -/
structure Exch where
  die : Nat
  t1 : Word
  t2 : Word
  t3 : Word
  t4 : Word
  deriving DecidableEq, Repr

structure Boot where
  /-- Failed PLL lock attempts of each die (Table BOOT-7). -/
  pllTry : SMap Nat
  /-- Dies held stopped in stage 3 after four failed locks (Table BOOT-7). -/
  pllDead : List Nat
  /-- Dies in die reset: clocks stopped, or before PLL lock (R41, R121). -/
  inReset : List Nat
  /-- The RM's RTIME at which each die's reset started, for its RESET record. -/
  resetAt : SMap Nat
  /-- The RM's RTIME at which the rack reset in progress started (R598). -/
  rackResetAt : Option Nat
  /-- Dies waiting for the restart code of R413. -/
  tripWait : List Nat
  /-- Dies whose HBM is in self-refresh through a die reset (R121). -/
  selfRefresh : List Nat
  /-- Dies in die HOLD under Table BOOT-4 or R117. -/
  dieHold : List (Nat × Nat)
  /-- Dies that have sent their first Toash-S beacon (R94). -/
  beaconed : List Nat
  /-- Toash-L ports that have sent a beacon since the die's reset (R94, R99), as die × 2 + plane. -/
  beaconedL : List Nat
  /-- Beacon count of each sender (Table BOOT-5), key kind × 2^16 + agent. -/
  beaconSeq : SMap Nat
  roll : List RollRow
  /-- INCARNATION named by each die's DEAD notice (R95–R97), key die. -/
  dead : List (Nat × Nat)
  partners : List Partner
  exch : List Exch
  /-- The time master that each aligned die aligned to, key die (R99). -/
  follows : List (Nat × Nat)
  /-- Dies that have taken the one step of R101. -/
  stepped : List Nat
  /-- Signed correction in ns still to make, key die (R101). -/
  corr : SMap Int
  censusOpen : Bool
  /-- CENSUS_MS (R103). -/
  censusMs : Nat
  census : List CensusRow
  pairing : List PairEntry
  /-- The rack's HOLD_REASON: 0 none, 1 major, 2 untested (R105). -/
  hold : Nat
  /-- The rack is ready (R105). -/
  ready : Bool
  /-- Digests accepted by UNTESTED-ACCEPT (R108, R110, R118). -/
  accepted : List (BitVec 32)
  /-- Some partition is unqualified (R109). -/
  unqualified : Bool
  /-- DEAD notices that have been acted on (R114): agent and dead die. -/
  notices : List (Nat × Nat)
  /-- Image format tuples rejected with HOLD, that an UNTESTED-ACCEPT may still accept (R118). -/
  fmtHeld : List Compat
  /-- What the console of each DC has printed (R120), oldest first: the die, and a stage number, or 256 and an ERROR
  code. -/
  uart : List (Nat × Nat)
  deriving DecidableEq, Repr

/-! ### Image load (chapter 2) -/

/-- One section instance of an image (R47): its type, its scope, and its entries' bytes. -/
structure Section where
  typ : Nat
  scope : Nat
  body : List Byte
  deriving DecidableEq, Repr

/-- An image that has passed the frame checks: header fields and sections in order. -/
structure Image where
  partial_ : Bool
  target : Nat
  serial : Nat
  fmt : Compat
  stepMask : BitVec 32
  sections : List Section
  deriving DecidableEq, Repr

/-- Phases of the load in progress, as the RM runs them (R57). -/
inductive LoadPhase where
  | checked | staged | quiescing | quiesced | committing | released
  deriving DecidableEq, Repr

/-- The load in progress (R57–R62). -/
structure Load where
  img : Image
  /-- The agents of the load: dies, 64 and 65 the spine switches (R116). -/
  agents : List Nat
  phase : LoadPhase
  commitTime : Nat
  /-- RTIME at which QUIESCE was written, for DARK_US. -/
  quiesceAt : Nat
  /-- Agents that hold COMMIT (R62). -/
  armed : List Nat
  /-- Agents that have swapped (R59). -/
  swapped : List Nat
  /-- An agent swapped late (R59). -/
  late : Bool
  /-- Agents that ended the load on their own (R62). -/
  lapsed : List Nat
  /-- Agents that were reset before COMMIT and that the load concerns: they report no phase (R73, R116). -/
  gone : List Nat
  deriving DecidableEq, Repr

structure Imgs where
  load : Option Load
  /-- The live sections: what the commits so far have put in force, rack-wide (R49, R71). -/
  live : List Section
  /-- The image that each die keeps in reserved HBM (R77), key die: its sections. -/
  kept : List (Nat × List Section)
  /-- Dies that have swapped no commit since their die reset: RWL fields still accept writes (R564). -/
  unlocked : List Nat
  /-- Dies that have re-staged their kept copy since their die reset and not yet applied it (R77). -/
  restage : List Nat
  /-- Shadow sections staged by each agent (R57). -/
  shadow : List Nat
  /-- The rack holds a committed image (R63). -/
  based : Bool
  deriving DecidableEq, Repr

/-! ### Troupes and launches (chapters 4 and 5) -/

/-- Why a thread is parked (R183, R184). -/
inductive Park where
  | converge
  | barrier (b : Nat)
  deriving DecidableEq, Repr

/-- One thread of a troupe (R164). `preds` holds p0–p6 in bits 0–6. -/
structure Thread where
  pc : Word
  exited : Bool
  parked : Option Park
  /-- CCLK of its core at which the thread parked (R183). -/
  parkedAt : Nat
  yielded : Bool
  preds : BitVec 7
  deriving DecidableEq, Repr

/-- One troupe in its slot (R164). -/
structure Troupe where
  die : Nat
  cluster : Nat
  core : Nat
  slot : Nat
  /-- Its launch: rack queue ID and item count. -/
  queue : Nat
  index : Word
  idx : Nat
  part : Nat
  inst : Nat
  ctx : Nat
  cls : Nat
  /-- Rows held (R165). -/
  rows : Nat
  /-- POLICY in force (R179). -/
  oldest : Bool
  placedAt : Nat
  issuedAt : Option Nat
  threads : List Thread
  /-- s0–s63, key n. -/
  sregs : SMap Lane
  /-- v0–v127, key n × 32 + lane. -/
  vregs : SMap Lane
  /-- The latch of RTIME_HI (R160). -/
  rtimeHi : Lane
  /-- Sleeping under SLEEP. -/
  asleep : Bool
  /-- Stopped under R531. -/
  stopped : Bool
  /-- CONVERGE's 1,024 CCLK have passed while yielded bits were set (R183, R200). -/
  convergeDue : Bool
  deriving DecidableEq, Repr

/-- A launch dispatched and not retired (R170, R188). -/
structure Launch where
  queue : Nat
  index : Word
  tag : BitVec 16
  cqe : Bool
  irq : Bool
  part : Nat
  inst : Nat
  ctx : Nat
  cls : Nat
  rows : Nat
  /-- LS_SIZE in KiB. -/
  lsKib : Nat
  lsTroupe : Nat
  seq : Option Nat
  /-- PLACE[0]. -/
  local_ : Bool
  step : BitVec 32
  entry : Word
  args : Word
  ntroupe : Nat
  inline : List Lane
  oldest : Bool
  /-- Troupes placed at each position of the placement set (R174). -/
  placed : SMap Nat
  ended : Nat
  /-- Sequences attached, by sequence ID (R344, R345). -/
  attached : List Nat
  /-- Clusters where the launch has a local store, as die × 320 + cluster (R168). -/
  resident : List Nat
  /-- Ended by a kill (R190). -/
  killed : Bool
  /-- Lost with a failed cluster: it does not retire (R203). -/
  lost : Bool
  deriving DecidableEq, Repr

/-- A launch's local store on a cluster (R168): key is the byte address. -/
structure LocalStore where
  queue : Nat
  index : Word
  die : Nat
  cluster : Nat
  bytes : SMap Byte
  /-- Poisoned 32-byte sectors of the window. -/
  poison : List Nat
  deriving DecidableEq, Repr

/-- A sector held by a cluster's L1 (R144). -/
structure L1Sector where
  die : Nat
  cluster : Nat
  part : Nat
  /-- PA of the sector divided by 32. -/
  sector : Nat
  data : SectorData
  poison : Bool
  deriving DecidableEq, Repr

/-- What the context-kill record says of the fault (Table FLT-6). -/
structure KillWhy where
  die : Nat
  part : Nat
  inst : Nat
  ctx : Nat
  code : Nat
  queue : Nat
  tag : Nat
  /-- 0 troupe, 1 mover. -/
  kind : Nat
  /-- Core, or program slot. -/
  sub : Nat
  /-- Cluster, or mover. -/
  unit : Nat
  /-- Troupe slot; it orders faults of one RTIME (R194). -/
  slot : Nat
  lane : Nat
  troupe : Nat
  index : Nat
  pc : Nat
  addr : Nat
  cursor : Nat
  deriving DecidableEq, Repr

/-- A context kill that has not reached every die of its partition (R190, R194). -/
structure OpenKill where
  part : Nat
  inst : Nat
  ctx : Nat
  /-- The primary fault, and RTIME of its die at it. -/
  why : KillWhy
  time : Nat
  /-- Faults that the kill has absorbed. -/
  absorbed : Nat
  /-- Dies that KILL is still on its way to. -/
  waiting : List Nat
  /-- Launches that the kill has ended; they detach and complete once every die has stopped (R357). -/
  ending : List Launch
  deriving DecidableEq, Repr

/-- The clusters (chapter 5). -/
structure Cores where
  troupes : List Troupe
  launches : List Launch
  stores : List LocalStore
  l1 : List L1Sector
  /-- Lines held by a cluster's instruction cache, as die, cluster, line address. -/
  icache : List (Nat × Nat × Nat)
  /-- CCLK counter of each core, for stamps (R178), key (die × 320 + cluster) × 16 + core. -/
  cclk : SMap Nat
  /-- Core CCLKs of each YIELD run and CONVERGE park are events; the killed context tags: part, inst, ctx (R191). -/
  killed : List (Nat × Nat × Nat)
  /-- Context kills under way (R190). -/
  kills : List OpenKill
  /-- Clusters failed while the die runs, as die × 320 + cluster (R203). -/
  failed : List Nat
  /-- Clusters, as die × 320 + cluster, and halves, as die × 2 + side, that the last commit of their half left out
  (R43, R538). -/
  offClusters : List Nat
  offHalves : List Nat
  deriving DecidableEq, Repr

/-! ### Slices and coherence (chapters 6 and 7) -/

/-- State of a line at a slice: `home` for a line that the slice homes, else Table COH-5. -/
inductive CSt where
  | home | s | o | m | isD | ssD | imAD | imA | smAD | omA | miA | oiA | siA | iiA
  deriving DecidableEq, Repr

/-- One sector of a line (R208). `bytesOk` marks the bytes of a partial write that wait for the fill (R237). -/
structure Sector where
  valid : Bool
  dirty : Bool
  poison : Bool
  bytesOk : BitVec 32
  data : SectorData
  deriving DecidableEq, Repr

/-- One way of a set that holds a line (R206–R208). -/
structure Line where
  die : Nat
  slice : Nat
  way : Nat
  /-- PA[51:7]. -/
  la : Nat
  st : CSt
  keep : Bool
  pin : Bool
  rank : Nat
  sectors : List Sector
  /-- CNT of R262. -/
  cnt : Int
  deriving DecidableEq, Repr

/-- What a waiter of an MSHR asks (R230). -/
inductive Want where
  | read
  | write (mask : BitVec 32) (data : SectorData)
  | atomic (op : Nat) (wide signed : Bool) (a b : Word)
  /-- A write that leaves its sector poisoned (R512). -/
  | badWrite (mask : BitVec 32) (data : SectorData)
  deriving DecidableEq, Repr

structure Waiter where
  req : SliceReq
  want : Want
  deriving DecidableEq, Repr

/-- Who makes an access: its die and half, its partition, class, HINT and FILL (R218, R221). -/
structure AccBy where
  die : Nat
  side : Nat
  part : Nat
  cls : Nat
  hint : Nat
  fill : Bool
  /-- The router that the request leaves from, by its cluster number (R289, Table MESH-1). -/
  router : Nat
  deriving DecidableEq, Repr

/-- Message types (Table COH-2). -/
inductive CohT where
  | getS | getM | upg | putS | putM | putO | fwdGetS | fwdGetM | inv | invAck
  | data | dataExcl | dataP | dataExclP | wbAck | nack
  deriving DecidableEq, Repr

/-- A message in flight, held, or queued. -/
structure NetMsg where
  typ : CohT
  msg : CohMsg
  deriving DecidableEq, Repr

/-- One MSHR (R229): the line, the sectors in flight, the class that took it, and the first requester with the
waiters behind it in the order the slice accepted them. A fetch for a remote request (R264) has none. -/
structure Mshr where
  die : Nat
  slice : Nat
  la : Nat
  mask : BitVec 4
  cls : Nat
  /-- The head of `waiters` is the first requester; the others hold waiter entries of the pool. -/
  owned : Bool
  waiters : List Waiter
  /-- HINT of the first requester; 0 for a remote request. -/
  hint : Nat
  /-- HINTs of the accesses that the line has served while it waits for a way, oldest first (R239). -/
  hints : List Nat
  /-- Remote requests whose fetch this is (R264), in arrival order. -/
  remote : List NetMsg
  /-- A fill that has returned and waits for a way (R223): the sectors whose HBM read was uncorrectable. -/
  back : Option (BitVec 4)
  deriving DecidableEq, Repr

/-- An entry of a starve list, or the resource held for its head (R233). -/
structure Starve where
  die : Nat
  slice : Nat
  requester : Nat
  pa : Nat
  cls : Nat
  /-- A freed resource is held for this entry: an MSHR, or a waiter entry. -/
  held : Bool
  waiter : Bool
  deriving DecidableEq, Repr

/-- What a requester sends again after its back-off (R232): an access to a slice, a cache's coherence request
for a line (R265), or the LDKV of a troupe that a full sequence engine turned away (R350). -/
inductive RetryOf where
  | access (die slice : Nat) (w : Waiter)
  | coh (die slice la : Nat)
  | kv (at_ : SlotAt)
  deriving DecidableEq, Repr

/-- One request that backs off (R232): NACKed `k` times in a row, for `wait` MCLK. -/
structure BackOff where
  what : RetryOf
  k : Nat
  wait : Nat
  deriving DecidableEq, Repr

/-- Retry state of a requester (R232): its LFSR and its requests that back off, oldest first. -/
structure Retry where
  requester : Nat
  lfsr : BitVec 16
  waiting : List BackOff
  deriving DecidableEq, Repr

/-- What a slice answered a requester on its own die. -/
structure SliceRsp where
  die : Nat
  slice : Nat
  requester : Nat
  pa : Nat
  /-- 0 data, 1 done, 2 NACK-RETRY, 3 PERMISSION. -/
  kind : Nat
  poison : Bool
  data : SectorData
  deriving DecidableEq, Repr

/-- State of a directory entry (Table COH-1). -/
inductive DSt where
  | s | o | m | sD | bAck | bData
  deriving DecidableEq, Repr

/-- A directory entry (Table COH-1). -/
structure DirEnt where
  die : Nat
  slice : Nat
  way : Nat
  la : Nat
  st : DSt
  owner : Nat
  sharers : List Nat
  /-- 0 recall, 1 home read, 2 home write. -/
  cause : Nat
  count : Nat
  dataOwed : Bool
  rank : Nat
  deriving DecidableEq, Repr

structure Slices where
  lines : List Line
  /-- The put buffers (R267): lines on their way out. -/
  puts : List Line
  mshrs : List Mshr
  starve : List Starve
  retry : List Retry
  /-- Slices and channels failed at run time, as die × 24 + n (R245). -/
  failed : List Nat
  rsp : List SliceRsp
  /-- HBM: byte cells keyed by die, channel and location in the channel (R214). -/
  hbm : List Host.Cell
  /-- Poisoned sectors of HBM, by cell key of their first byte divided by 32 (R220). -/
  poison : List Nat
  dir : List DirEnt
  /-- The directory hold queues (R264): the die and slice that hold each request, in arrival order. -/
  holdq : List (Nat × Nat × NetMsg)
  /-- The cache hold buffers (R263). -/
  holdbuf : List (Nat × Nat × NetMsg)
  /-- Messages in flight, in the order sent. -/
  net : List NetMsg
  /-- The requests that cache slices have sent and whose lines are not stable yet: they go again after Nack BUSY (R265). -/
  sent : List NetMsg
  /-- The line of each die's last COH_QUERY (R288), by die. -/
  queried : List (Nat × Nat)
  deriving DecidableEq, Repr

/-! ### Links and reduction (chapter 8) -/

/-- A Toash frame as its sender keeps it (R297). -/
structure LinkFrame where
  seq : Nat
  /-- 0 data, 1 control, 2 credit, 3 idle. -/
  kind : Nat
  payload : List Byte
  deriving DecidableEq, Repr

/-- A link end (R307): a die's port, or a port of spine switch 64 or 65. -/
structure LinkPort where
  die : Nat
  port : Nat
  /-- Next SEQ that the receiver expects. -/
  expect : Nat
  /-- Frames accepted in order. -/
  accepted : Nat
  /-- SEQ from which the sender last replayed, and how often in a row. -/
  replayOf : Nat
  replays : Nat
  /-- SEQ of the next frame sent. -/
  next : Nat
  /-- The retry buffer (R307): control frames sent and not acknowledged, oldest first. -/
  retry : List LinkFrame
  /-- Control frames that wait for room in it. -/
  queue : List LinkFrame
  deriving DecidableEq, Repr

/-- A Toash control message sent: by which agent (64 and 65 the spine switches), on which of its ports, to which agent
where it names one, and what: 0 beacon, 1 DEAD notice, 2 NAK, 3 COMMIT relay. -/
structure CtlMsg where
  src : Nat
  port : Nat
  dst : Option Nat
  kind : Nat
  bytes : List Byte
  deriving DecidableEq, Repr

/-- A combine entry at a router, a spine port or a tree node (R312–R316). -/
structure Combine where
  place : RedPlace
  pkt : RedPkt
  /-- Child nodes whose partial has arrived at a tree node (R316). -/
  kids : List Nat
  /-- The places that a free-mode entry still has before it on its way to the destination slice. -/
  todo : List RedPlace
  deriving DecidableEq, Repr

/-- A RED packet in flight: where it was last, and the places that it still comes to, the next first; none is left when it comes
to its destination slice (R299–R301, R306). -/
structure RedFlight where
  pkt : RedPkt
  src : RedPlace
  todo : List RedPlace
  deriving DecidableEq, Repr

/-- An accumulation entry at a destination slice (R317). -/
structure Accum where
  die : Nat
  slice : Nat
  pkt : RedPkt
  /-- Instances that have contributed (R317). -/
  insts : List Nat
  deriving DecidableEq, Repr

structure Links where
  ports : List LinkPort
  /-- Half-link lanes down, as die × 4 + lane (Table MESH-7). -/
  lanesDown : List Nat
  /-- Failed routers, as die × 320 + cluster (Table MESH-7). -/
  routersFailed : List Nat
  combine : List Combine
  accum : List Accum
  /-- RED packets in flight, in the order sent. -/
  redNet : List RedFlight
  /-- Slices whose RED input stalls, as die × 24 + n: a packet waits for a free accumulation entry (Table MESH-6). -/
  redStall : List Nat
  /-- Toash control messages sent, oldest first. -/
  ctl : List CtlMsg
  deriving DecidableEq, Repr

/-! ### Queues, sequences, movers, arbiter (chapters 9, 10, 11) -/

/-- A step record (Table SEQ-7). -/
structure StepRec where
  step : BitVec 32
  base : Nat
  end_ : Nat
  firstBlock : Nat
  lcnt : Nat
  owc : Nat
  closed : Bool
  deriving DecidableEq, Repr

/-- An ACTIVE sequence slot (Table SEQ-6): `recs` holds the open steps, oldest first. -/
structure SeqSlot where
  id : Nat
  inst : Nat
  part : Nat
  blk : Nat
  len : Nat
  append : Nat
  dir : Word
  step : BitVec 32
  /-- The chain's head slot ID, if CHAINED or HEAD; the head's own ID for the head. -/
  chain : Option Nat
  tainted : Bool
  recs : List StepRec
  retired : Nat
  deriving DecidableEq, Repr

/-- An LDKV held by a step fence (R347): the sequence, the troupe that waits, the block. -/
structure HeldKv where
  seq : Nat
  slot : SlotAt
  block : Nat
  deriving DecidableEq, Repr

/-- A cross-die attach exchange (R344): the launch at the head of its queue, and once the exchange has completed
the sequences it attached to. -/
structure Exchange where
  queue : Nat
  index : Word
  step : BitVec 32
  attached : List Nat
  deriving DecidableEq, Repr

/-- A cluster's cached copy of a sequence descriptor (R348). -/
structure SeqCopy where
  die : Nat
  cluster : Nat
  seq : Nat
  inst : Nat
  part : Nat
  blk : Nat
  dir : Word
  len : Nat
  stamp : Nat
  lease : Nat
  deriving DecidableEq, Repr

/-- A cached block-table entry (R348, R349). -/
structure BtCopy where
  die : Nat
  cluster : Nat
  seq : Nat
  block : Nat
  addr : Word
  stamp : Nat
  lease : Nat
  deriving DecidableEq, Repr

/-- States of a mover that has an item (Table MOV-8); one that has none is free. -/
inductive MovSt where
  | running | stalled | halted
  deriving DecidableEq, Repr

/-- A mover that has an item (R367, R368, R375). -/
structure Mover where
  die : Nat
  m : Nat
  state : MovSt
  queue : Nat
  index : Word
  tag : BitVec 16
  cqe : Bool
  irq : Bool
  part : Nat
  inst : Nat
  ctx : Nat
  cls : Nat
  slot : Nat
  pc : Nat
  mregs : List Word
  gen : Nat
  changed : Bool
  /-- The instruction in progress; none at an instruction boundary. -/
  latched : Option Word
  /-- Bytes done in it. -/
  cursor : Nat
  /-- The checks before its first beat are made (R378). -/
  checked : Bool
  /-- A context kill waits for its SHIFT to complete (R389). -/
  stopped : Bool
  deriving DecidableEq, Repr

/-- Per-die arbiter state (R405–R409). -/
structure Arb where
  die : Nat
  lastU : Option Nat
  iRun : Nat
  /-- Instance pointer of each class (1 I, 2 B), key class. -/
  instPtr : SMap Nat
  /-- D of each instance and class, key class × 64 + slot. -/
  instDef : SMap Nat
  /-- Queue pointer of each instance and class, key class × 64 + slot. -/
  quePtr : SMap Nat
  /-- D of each queue, key local index. -/
  queDef : SMap Nat
  /-- Refused heads: local queue and RTIME of the first refusal. -/
  refused : List (Nat × Nat)
  held : Option Nat
  deriving DecidableEq, Repr

/-- Filter history of a monitor (R400) and its failed reference checks (R428). -/
structure MonHist where
  die : Nat
  i : Nat
  /-- The last samples, newest first, at most 7. -/
  codes : List (BitVec 8)
  bad : Nat
  /-- RTIME of the last record of each event (R430): event, RTIME. -/
  recorded : List (Nat × Nat)
  /-- Assertions of each event since its last record (R430): event, count. -/
  since : SMap Nat
  failed : Bool
  deriving DecidableEq, Repr

structure Queues where
  /-- Entries reserved in each completion queue (R341), key rack queue ID. -/
  resv : SMap Nat
  /-- Items of each queue dispatched and not completed (R340), key rack queue ID. -/
  itemsOut : SMap Nat
  /-- Doorbells latched while a bucket is short (R439), in order: the queue, and the PI that the doorbell replaced. -/
  deferredPi : List (Nat × Word)
  seqs : List SeqSlot
  heldKv : List HeldKv
  /-- Dispatched SEQCTL items not completed (R343), each with its OP. -/
  items : List (Nat × SeqItem)
  /-- STEP-CLOSE items waiting for their step to retire: sequence, item. -/
  closing : List SeqItem
  exchanges : List Exchange
  /-- Attach exchanges that have completed: the launch is dispatched at its next grant (R344). -/
  exchanged : List Exchange
  /-- Dies whose sequence engine has failed (R364). -/
  seqFailed : List Nat
  seqCopies : List SeqCopy
  btCopies : List BtCopy
  movers : List Mover
  /-- Program-store words with an uncorrectable error, as die × 8192 + word (R577). -/
  badProg : List Nat
  arbs : List Arb
  monitors : List MonHist
  /-- The CCLK code of a step in progress (R38): die and code. -/
  clkTo : List (Nat × Nat)
  /-- Levels of the instance buckets with 24 fractional bits (R439), key ((die × 64) + slot) × 8 + kind;
  kinds 0 doorbell, 1 class U, 2 memory, 3 Toash, 4 energy. -/
  buckets : SMap Int
  /-- Sectors that clusters and movers have counted and not yet reported to the queue block (R440): key 2q all of queue
  `q`'s, key 2q + 1 those whose home is another die. -/
  sectors : SMap Nat
  deriving DecidableEq, Repr

/-! ### Partitions, translation, host ports, recorder -/

/-- A reset in progress (R453, R457): partition, and instance for an instance reset; `origin` of RESET records. -/
structure ResetRun where
  /-- The die that took the request. -/
  die : Nat
  part : Nat
  inst : Option Nat
  origin : Nat
  startedAt : Nat
  /-- Dies whose PART_CMD shows BUSY until the reset ends (R436). -/
  waiters : List Nat
  deriving DecidableEq, Repr

/-- A gate request deferred on a strung block (R450). -/
structure GateReq where
  die : Nat
  kind : Nat
  index : Nat
  op : Nat
  deriving DecidableEq, Repr

structure Parts where
  /-- Blocks gated or stopped: die, kind, index, op (1 power gate, 2 clock stop). -/
  gated : List GateReq
  deferred : List GateReq
  /-- Partitions that took a partition fault and no reset since (R434, R72). -/
  faulted : List Nat
  resets : List ResetRun
  /-- Remap entries held between their ADDR and DATA writes (R574), as die × 4096 + e. -/
  irqHeld : List Nat
  deriving DecidableEq, Repr

/-- A cached translation (R475, Table XLT-5). `level` 0 cluster TLB, 1 die TLB, 2 mover TLB. -/
structure Tlb where
  level : Nat
  die : Nat
  unit : Nat
  part : Nat
  inst : Nat
  ctx : Nat
  /-- First VA of the page. -/
  va : Nat
  size : Nat
  /-- The page frame. -/
  pa : Nat
  /-- Interleaved placement, over the dies of `dl` (R473). -/
  il : Bool
  dl : List Nat
  /-- Partner-space page of a mover TLB: its partner-table index (Table XLT-5). -/
  partner : Option Nat
  write : Bool
  exec : Bool
  stamp : Nat
  lease : Nat
  deriving DecidableEq, Repr

/-- An invalidation accepted and not done (Table XLT-6). -/
structure XInval where
  die : Nat
  scope : Nat
  part : Nat
  inst : Nat
  ctx : Nat
  page : Nat
  count : Nat
  deriving DecidableEq, Repr

/-- A cached context-table entry (Table XLT-5). -/
structure CtxCopy where
  die : Nat
  part : Nat
  inst : Nat
  ctx : Nat
  root : Word
  stamp : Nat
  lease : Nat
  deriving DecidableEq, Repr

/-- A cached ROUTE entry (Table XLT-5). -/
structure RouteCopy where
  die : Nat
  part : Nat
  dst : Nat
  planes : Nat
  stamp : Nat
  lease : Nat
  deriving DecidableEq, Repr

/-- A cached partner-table entry (Table XLT-5). -/
structure PtCopy where
  die : Nat
  index : Nat
  entry : PtEntry
  stamp : Nat
  lease : Nat
  deriving DecidableEq, Repr

structure Xlt where
  tlb : List Tlb
  ctxs : List CtxCopy
  routes : List RouteCopy
  pts : List PtCopy
  queue : List XInval
  deriving DecidableEq, Repr

/-- A partner-space access in flight (R513, R517). -/
structure Outbound where
  port : Nat
  tag : Nat
  die : Nat
  write : Bool
  addr : Nat
  len : Nat
  part : Nat
  inst : Nat
  ctx : Nat
  /-- 0 a read or a write, 1 an ATS Translation Request (R514). -/
  kind : Nat
  /-- The mover. -/
  unit : Nat
  /-- The partner-table entry. -/
  pt : Nat
  data : List SectorData
  done : Bool
  status : Nat
  /-- The host address that an ATS translation in use translated (R514). -/
  via : Option Nat
  /-- What waits for it to drain (R522, R523): below 64 the die whose HOST_PT_CMD changed the entry, from 64 on an ATS
  invalidation. -/
  before : List Nat
  /-- Its mover has been freed: what comes back is dropped (Table HOST-5). -/
  gone : Bool
  deriving DecidableEq, Repr

/-- An inbound write of several TLPs of which more are to come (R521): its requester, and the BAR offset and length of
the last TLP committed. -/
structure Burst where
  port : Nat
  fn : Nat
  pasid : Option (BitVec 20)
  addr : Nat
  len : Nat
  deriving DecidableEq, Repr

structure HostSt where
  /-- Partner tables (Table HOST-3), key die × 256 + index; unlisted is FREE. -/
  pt : List (Nat × PtEntry)
  /-- NumVFs as the host wrote it, key port (R498). -/
  numVfs : SMap Nat
  /-- The configuration registers as the host wrote them: port, function, register, value. -/
  cfg : List (Nat × Nat × Nat × BitVec 32)
  /-- The tenants' own MSI-X tables (R443): port, function, byte offset, byte. -/
  msixTab : List (Nat × Nat × Nat × Byte)
  outbound : List Outbound
  /-- ATS invalidations that wait for accesses (R523): 64 + number, and port. -/
  atsInv : List (Nat × Nat)
  nextTag : SMap Nat
  /-- Ports held for an UNTESTED-ACCEPT (R110). -/
  abiHeld : List Nat
  /-- Inbound writes of several TLPs in progress (R521). -/
  bursts : List Burst
  /-- Ports held DOWN until die reset (Table HOST-6). -/
  failedPorts : List Nat
  deriving DecidableEq, Repr

/-- One field of a record's payload: bytes, value, and whether R539 zeroes it. -/
structure PF where
  size : Nat
  val : Nat
  hide : Bool
  deriving DecidableEq, Repr

/-- A record a unit has handed over (R532), or the trace of one dropped (R545). -/
structure WaitRec where
  die : Nat
  unit : Nat
  typ : Nat
  cls : Nat
  sealed_ : Bool
  rtime : Nat
  payload : List Byte
  /-- RTIME was not aligned when the record was handed over (R45). -/
  unaligned : Bool
  dropped : Bool
  deriving DecidableEq, Repr

/-- A record in staging: its die and its bytes (R532). -/
structure StagedRec where
  die : Nat
  bytes : List Byte
  deriving DecidableEq, Repr

/-- A ring that a die reset keeps (R552): its RING_MIB, and the bytes at its end that the RM has not copied (R554). -/
structure RingMark where
  die : Nat
  mib : Nat
  todo : Nat
  deriving DecidableEq, Repr

structure Recs where
  waiting : List WaitRec
  staging : List StagedRec
  /-- Ring bytes, key die × 2^40 + ring offset; the rack store is die 64. -/
  ring : SMap Byte
  /-- Dies whose next record carries DROPPED (R545). -/
  dropFlag : List Nat
  /-- Dies that owe a REC-DROPPED record (R545): die, count, first SEQ. -/
  dropOwed : List (Nat × Nat × Nat)
  /-- RTIME of the last CORRECTABLE record and the count since: key (die × 64 + unit) × 8 + kind (R540). -/
  corrAt : List (Nat × Nat × Nat)
  /-- Rack store: free-running bytes written, oldest whole record, next SEQ (R533). -/
  rackWr : Nat
  rackOldest : Nat
  rackSeq : Nat
  /-- Free-running offset up to which the RM has copied each die's ring (R554). -/
  copied : SMap Nat
  /-- Rings of dies in reset. -/
  marks : List RingMark
  /-- Dies whose staging their last reset lost (Table FLT-8, STAGE_LOST). -/
  stageLost : List Nat
  /-- RTIME kept by the RM (R533). -/
  rmRtime : Nat
  deriving DecidableEq, Repr

/-! ### What the rack sends out -/

/-- An MSI write (R444). -/
structure Msi where
  port : Nat
  fn : Nat
  addr : Nat
  data : Nat
  deriving DecidableEq, Repr

/-- A completion that a host or bridge access gets: port, status (0 data, 1 Unsupported Request, 2 Completer
Abort), bytes. -/
structure HostRsp where
  port : Nat
  status : Nat
  poison : Bool
  bytes : List Byte
  deriving DecidableEq, Repr

structure Outs where
  msi : List Msi
  host : List HostRsp
  mgp : List (List Byte)
  bridge : List HostRsp
  jtag : List (Nat × Nat)
  /-- Reads that the register port of a die has answered: source, die, address, value. -/
  reg : List (Source × Nat × Nat × Nat)
  deriving DecidableEq, Repr

/-- The rack. -/
structure State where
  /-- Commands waiting, first in, first out. -/
  pending : List Instr
  orderCode : OrderCode
  /-- Every register field that is not at its reset value (R555, R556), by `Fld.key`. -/
  regs : SMap Nat
  /-- The model's own counter: it picks the next free value. Nothing rests on its value. -/
  freeCtr : Nat
  rack : Rack
  boot : Boot
  img : Imgs
  core : Cores
  slc : Slices
  net : Links
  que : Queues
  prt : Parts
  xlt : Xlt
  host : HostSt
  recs : Recs
  out : Outs
  deriving DecidableEq, Repr

/-- The machine before power (R584 starts from here): every structure empty, every register at its reset value. -/
def State.reset : State where
  pending := []
  orderCode := .cxm64S
  regs := []
  freeCtr := 0
  rack := {
    shelfUp := [], rectFailed := [], busbar := false, rmUp := false, refclk := false, spineReady := [],
    planeLost := [], inlet := 0, flow := 0, lowFlow := 0, okFlow := 0, coolOff := false, modEn := [],
    modAbsent := [], modAlert := [], valvesShut := [], modReset := [], dieOff := [], powered := [], flash := [],
    flashIncarn := [], jtagIr := [], jtagCells := [], rackFw := ⟨0, 0⟩, spineFw := [], rackNo := 0xFFFF }
  boot := {
    pllTry := [], pllDead := [], inReset := [], resetAt := [], rackResetAt := none, tripWait := [], selfRefresh := [], dieHold := [],
    beaconed := [], beaconedL := [], beaconSeq := [], roll := [], dead := [], partners := [], exch := [],
    follows := [], stepped := [], corr := [], censusOpen := true, censusMs := 2000, census := [], pairing := [], hold := 0, ready := false,
    accepted := [], unqualified := false, notices := [], fmtHeld := [], uart := [] }
  img := { load := none, live := [], kept := [], unlocked := [], restage := [], shadow := [], based := false }
  core := { troupes := [], launches := [], stores := [], l1 := [], icache := [], cclk := [], killed := [], kills := [], failed := [],
            offClusters := [], offHalves := [] }
  slc := { lines := [], puts := [], mshrs := [], starve := [], retry := [], failed := [], rsp := [], hbm := [],
           poison := [], dir := [], holdq := [], holdbuf := [], net := [], sent := [], queried := [] }
  net := { ports := [], lanesDown := [], routersFailed := [], combine := [], accum := [], redNet := [], redStall := [], ctl := [] }
  que := { resv := [], itemsOut := [], deferredPi := [], seqs := [], heldKv := [], items := [], closing := [],
           exchanges := [], exchanged := [], seqFailed := [], seqCopies := [], btCopies := [], movers := [], badProg := [], arbs := [],
           monitors := [], clkTo := [], buckets := [], sectors := [] }
  prt := { gated := [], deferred := [], faulted := [], resets := [], irqHeld := [] }
  xlt := { tlb := [], ctxs := [], routes := [], pts := [], queue := [] }
  host := { pt := [], numVfs := [], cfg := [], msixTab := [], outbound := [], atsInv := [], nextTag := [], abiHeld := [], bursts := [], failedPorts := [] }
  recs := { waiting := [], staging := [], ring := [], dropFlag := [], dropOwed := [], corrAt := [], rackWr := 0,
            rackOldest := 0, rackSeq := 0, copied := [], marks := [], stageLost := [], rmRtime := 0 }
  out := { msi := [], host := [], mgp := [], bridge := [], jtag := [], reg := [] }

end Sys2Proof.Machine
end

