-- ==== Sys2Proof/Machine/Ops.lean ====
section
/-! DEFINITION. The named operations that every chapter shares: register fields and counters (R561), bytes and
CRC-32C (R49), the numbering of parts (R22–R26), the live image's entries (Tables IMG-4 to IMG-8), and the
shape of a command's effect. -/

namespace Sys2Proof.Machine

/-! ### The shape of an effect -/

/-- Dies of the order code (Table SCP-1). -/
def dieCount : OrderCode → Nat
  | .cxm64S => 64
  | .cxm64T => 64
  | .cxm32S => 32

/-- Modules of the order code (Table SCP-1). -/
def moduleCount (o : OrderCode) : Nat := dieCount o / 4

/-- A command that names die `d`: its effect, or the fault of a die that the rack does not have. -/
def onDie (s : State) (d : Nat) (f : State → State) : Host.Outcome State Fault Refusal :=
  if d < dieCount s.orderCode then .next (f s) else .fault (.absentUnit d)

/-- An effect that happens when `c` holds; otherwise nothing does. -/
def guarded (c : State → Bool) (f : State → State) (s : State) : State :=
  if c s then f s else s

/-! ### Register fields -/

/-- Where a field of die `d` stands in the register map. -/
def Fld.key (d : Nat) (f : Fld) : Nat := (d * 0x1000000 + f.addr) * 64 + f.lo

/-- The field's value. -/
def State.rd (s : State) (d : Nat) (f : Fld) : Nat := SMap.get f.reset s.regs (f.key d)

/-- The field set to `v`, of which it holds its width's bits. -/
def State.wr (s : State) (d : Nat) (f : Fld) (v : Nat) : State :=
  { s with regs := SMap.set f.reset s.regs (f.key d) (v % 2 ^ f.width) }

/-- A counter field raised by `n`: it saturates (R561). -/
def State.count (s : State) (d : Nat) (f : Fld) (n : Nat) : State :=
  s.wr d f (min (s.rd d f + n) (2 ^ f.width - 1))

/-- A peak field raised to at least `n`. -/
def State.peak (s : State) (d : Nat) (f : Fld) (n : Nat) : State :=
  if s.rd d f < n then s.wr d f (min n (2 ^ f.width - 1)) else s

/-- Bit `i` of a field. -/
def State.rdBit (s : State) (d : Nat) (f : Fld) (i : Nat) : Bool := (s.rd d f).testBit i

/-- A field with bit `i` set to `b`. -/
def State.wrBit (s : State) (d : Nat) (f : Fld) (i : Nat) (b : Bool) : State :=
  let v := s.rd d f
  s.wr d f (if b then v ||| 2 ^ i else v - (v &&& 2 ^ i))

/-- A field of `w` bits read as a signed number. -/
def toSigned (w n : Nat) : Int := if n < 2 ^ (w - 1) then (n : Int) else (n : Int) - 2 ^ w

/-- A signed number as the `w` bits that hold it. -/
def ofSigned (w : Nat) (i : Int) : Nat := (i % 2 ^ w).toNat

/-- Every register of die `d` from address `lo` to `hi - 1` back to its reset value. -/
def State.resetRegs (s : State) (d lo hi : Nat) : State :=
  { s with regs := SMap.clearRange s.regs ((d * 0x1000000 + lo) * 64) ((d * 0x1000000 + hi) * 64) }

/-- RTIME of die `d`. -/
def State.rtime (s : State) (d : Nat) : Nat := s.rd d Reg.DC_RTIME

/-! ### Lists of records -/

/-- Every record that satisfies `p` replaced. -/
def updWhere {α : Type} (p : α → Bool) (f : α → α) (l : List α) : List α :=
  l.map (fun x => if p x then f x else x)

/-- The first record that satisfies `p` replaced, or `x` put at the end. -/
def putWhere {α : Type} (p : α → Bool) (x : α) : List α → List α
  | [] => [x]
  | y :: l => if p y then x :: l else y :: putWhere p x l

/-- `n` in the set, at the end if it was not there. -/
def addNat (l : List Nat) (n : Nat) : List Nat := if l.contains n then l else l ++ [n]

/-- `n` out of the set. -/
def delNat (l : List Nat) (n : Nat) : List Nat := l.filter (fun x => !(Nat.beq x n))

/-- An association list's value. -/
def look {α : Type} (k : Nat) : List (Nat × α) → Option α
  | [] => none
  | (j, v) :: l => if j = k then some v else look k l

/-- The association list with `v` at `k`. -/
def bind_ {α : Type} (k : Nat) (v : α) : List (Nat × α) → List (Nat × α)
  | [] => [(k, v)]
  | (j, w) :: l => if j = k then (k, v) :: l else (j, w) :: bind_ k v l

/-- The association list without `k`. -/
def unbind {α : Type} (k : Nat) (l : List (Nat × α)) : List (Nat × α) :=
  l.filter (fun e => !(Nat.beq e.1 k))

/-- Fold a state change over a list. -/
def each {α : Type} (l : List α) (f : State → α → State) (s : State) : State := l.foldl f s

/-! ### Bytes and CRC-32C -/

/-- `n` little-endian bytes of `v` (R10). -/
def leBytes : Nat → Nat → List Byte
  | 0, _ => []
  | n + 1, v => BitVec.ofNat 8 v :: leBytes n (v / 256)

/-- The number that little-endian bytes hold (R10). -/
def ofLe : List Byte → Nat
  | [] => 0
  | b :: l => b.toNat + 256 * ofLe l

/-- `n` bytes from offset `o`, as a number; bytes beyond the end read as 0. -/
def leAt (l : List Byte) (o n : Nat) : Nat := ofLe ((l.drop o).take n)

/-- One bit of the Castagnoli polynomial, reflected (R49). -/
def crcBit (c : Nat) : Nat := (c / 2) ^^^ (c % 2 * 0x82F63B78)

/-- CRC-32C over the bytes: initial value all ones, final inversion (R49). -/
def crc32c (l : List Byte) : Nat :=
  let step (c : Nat) (b : Byte) : Nat :=
    crcBit (crcBit (crcBit (crcBit (crcBit (crcBit (crcBit (crcBit (c ^^^ b.toNat))))))))
  (l.foldl step 0xFFFFFFFF) ^^^ 0xFFFFFFFF

/-- Bits [hi:lo] of a number. -/
def bits (v hi lo : Nat) : Nat := v / 2 ^ lo % 2 ^ (hi + 1 - lo)

/-- M is lower than N as incarnations are compared (R97). -/
def incLower (m n : Nat) : Bool :=
  let k := (n % 65536 + 65536 - m % 65536) % 65536
  Nat.blt 0 k && Nat.blt k 0x8000

/-- Parity of a number of up to `n` bits. -/
def parityOf : Nat → Nat → Bool
  | 0, _ => false
  | n + 1, v => xor (v % 2 == 1) (parityOf n (v / 2))

/-- Set bits of a number, lowest first, below `n`. -/
def bitsOf (n v : Nat) : List Nat := (List.range n).filter (fun i => v.testBit i)

/-- How many bits below `n` are set. -/
def popCount (n v : Nat) : Nat := (bitsOf n v).length

/-- A number with bit `i` set. -/
def setBit (v i : Nat) : Nat := v ||| 2 ^ i

/-! ### Parts of the machine (R22–R26) -/

/-- The home die of a physical address (R26). -/
def homeDie (pa : Nat) : Nat := bits pa 51 46

/-- The half (0 W, 1 E) of cluster `c` (R23): x = c mod 20. -/
def clusterSide (c : Nat) : Nat := if c % 20 < 10 then 0 else 1

/-- The bit of cluster `c` in a cluster map of its half (R52). -/
def clusterBit (c : Nat) : Nat := c / 20 * 10 + c % 20 % 10

/-- The cluster that bit `i` of a map of half `side` names (R52). -/
def clusterOfBit (side i : Nat) : Nat := i / 10 * 20 + side * 10 + i % 10

/-- The half of channel `n` (R24). -/
def chanSide (n : Nat) : Nat := if n < 12 then 0 else 1

/-- The module of a die (R23). -/
def moduleOf (d : Nat) : Nat := d / 4

/-- A die that is up: power good, and not in reset. -/
def dieUp (s : State) (d : Nat) : Bool := s.rack.powered.contains d && !s.boot.inReset.contains d

/-- A die whose clocks run: a TRIP stops CCLK alone until the restart (R413); every other die reset stops all (R41). -/
def clocked (s : State) (d : Nat) : Bool := dieUp s d || (s.rack.powered.contains d && s.boot.tripWait.contains d)

/-- Dies of the rack. -/
def allDies (s : State) : List Nat := List.range (dieCount s.orderCode)

/-- The partition of half `side` of die `d`, if the half is assigned (PART_HALF). -/
def halfPart (s : State) (d side : Nat) : Option Nat :=
  if s.rd d (Reg.PART_HALF_ASSIGNED side) = 1 then some (s.rd d (Reg.PART_HALF_PART side)) else none

/-- Whether half `side` of die `d` belongs to partition `p`. -/
def halfIn (s : State) (d side p : Nat) : Bool := halfPart s d side == some p

/-- Whether die `d` has a half in partition `p`. -/
def dieIn (s : State) (p d : Nat) : Bool := halfIn s d 0 p || halfIn s d 1 p

/-- Dies with a half in partition `p`, ascending. -/
def partDies (s : State) (p : Nat) : List Nat := (allDies s).filter (dieIn s p)

/-- Halves of partition `p` (HALF[h], h = d × 2 + s), ascending. -/
def partHalves (s : State) (p : Nat) : List Nat :=
  (List.range (2 * dieCount s.orderCode)).filter (fun h => halfIn s (h / 2) (h % 2) p)

/-- The side of die `d` that partition `p` holds first: 0 on a joined die (R443). -/
def partSide (s : State) (d p : Nat) : Nat := if halfIn s d 0 p then 0 else 1

/-- Partitions present, ascending. -/
def allParts (s : State) : List Nat := (List.range 128).filter (fun p => (allDies s).any (dieIn s p))

/-- Whether the partition is sealed (PART_HALF.SEALED on any of its halves). -/
def partSealed (s : State) (p : Nat) : Bool :=
  (partHalves s p).any (fun h => s.rd (h / 2) (Reg.PART_HALF_SEALED (h % 2)) = 1)

/-- PART_STATE of partition `p` on die `d` (Table PART-1). -/
def partState (s : State) (d p : Nat) : Nat := s.rd d (Reg.PART_STATE (partSide s d p))

/-- Partition `p` put in `st` on every die it has. -/
def setPartState (p st : Nat) (s : State) : State :=
  each (partHalves s p) (fun s h => s.wr (h / 2) (Reg.PART_STATE (h % 2)) st) s

/-- The instance slot of instance `i` of partition `p` on die `d` (Table PART-7). -/
def instSlot (s : State) (d p i : Nat) : Nat := 32 * partSide s d p + i

/-- The instance's state on die `d`: 0 absent, 1 down, 2 live, 3 resetting. -/
def instState (s : State) (d p i : Nat) : Nat := s.rd d (Reg.PART_INST (instSlot s d p i))

/-- The instance put in state `st` on every die of its partition (R436), at once (log 123): in the slot of each half. -/
def setInstState (p i st : Nat) (s : State) : State :=
  each (partHalves s p) (fun s h => s.wr (h / 2) (Reg.PART_INST (32 * (h % 2) + i)) st) s

/-! ### The live image -/

/-- The bytes of a section's entries, if the live image has that section. -/
def liveBody (s : State) (typ scope : Nat) : Option (List Byte) :=
  (s.img.live.find? (fun x => Nat.beq x.typ typ && Nat.beq x.scope scope)).map (·.body)

/-- A field of the partition's PARTITION entry (Table IMG-4). -/
def partField (s : State) (p off size : Nat) : Nat :=
  match liveBody s 1 p with
  | some b => leAt b off size
  | none => 0

/-- Whether the live image gives half `h` to partition `p` (HALVES, Table IMG-4). -/
def imgHalf (s : State) (p h : Nat) : Bool := (partField s p 0x04 16).testBit h
/-- Whether the live image gives partition `p` a half of die `d`. -/
def imgDie (s : State) (p d : Nat) : Bool := imgHalf s p (2 * d) || imgHalf s p (2 * d + 1)
/-- Partitions of the live image, in section order. -/
def imgParts (s : State) : List Nat := (s.img.live.filter (fun x => Nat.beq x.typ 1)).map (·.scope)

/-- MODES of the partition (Table IMG-4). -/
def modes (s : State) (p : Nat) : Nat := partField s p 0x01 1
/-- Half-split slicing (MODES[0]). -/
def halfSplit (s : State) (p : Nat) : Bool := (modes s p).testBit 0
/-- Plain coherence (MODES[1]). -/
def plainMode (s : State) (p : Nat) : Bool := (modes s p).testBit 1
/-- Slice-mode instances (MODES[3]). -/
def sliceMode (s : State) (p : Nat) : Bool := (modes s p).testBit 3
def maxTroupes (s : State) (p : Nat) : Nat := partField s p 0x14 1
def guestWays (s : State) (p : Nat) : Nat := partField s p 0x15 1
def urgentClusters (s : State) (p : Nat) : Nat := partField s p 0x16 1
def stepDepth (s : State) (p : Nat) : Nat := partField s p 0x17 1
def leaseUs (s : State) (p : Nat) : Nat := partField s p 0x18 2
def upinLines (s : State) (p : Nat) : Nat := partField s p 0x1A 2

/-- One INSTANCE entry (Table IMG-5). -/
structure InstEntry where
  id : Nat
  hostPort : Nat
  vf : Nat
  vectors : Nat
  pasid : Nat
  /-- Half ID and cluster map of each map. -/
  maps : List (Nat × Nat)
  deriving DecidableEq, Repr

/-- The cluster maps of an INSTANCE entry, `n` of them. -/
def clusterMaps : Nat → List Byte → List (Nat × Nat)
  | 0, _ => []
  | n + 1, b => (leAt b 0 1, leAt b 4 20) :: clusterMaps n (b.drop 24)

/-- The INSTANCE entries of a section's bytes; `fuel` bounds their number. -/
def instEntries : Nat → List Byte → List InstEntry
  | 0, _ => []
  | fuel + 1, b =>
    if b.isEmpty then []
    else
      let n := leAt b 8 1
      ⟨leAt b 0 1, leAt b 1 1, leAt b 2 1, leAt b 3 1, bits (leAt b 4 4) 19 0, clusterMaps n (b.drop 16)⟩
        :: instEntries fuel (b.drop (16 + 24 * n))

/-- The instances of partition `p`. -/
def instances (s : State) (p : Nat) : List InstEntry := instEntries 33 ((liveBody s 2 p).getD [])

/-- Instance `i` of partition `p`. -/
def instEntry (s : State) (p i : Nat) : Option InstEntry := (instances s p).find? (fun e => Nat.beq e.id i)

/-- Fixed-size entries of a section's bytes; `fuel` bounds their number. -/
def entries (size : Nat) : Nat → List Byte → List (List Byte)
  | 0, _ => []
  | fuel + 1, b => if b.isEmpty then [] else b.take size :: entries size fuel (b.drop size)

/-- Every fixed-size entry of a section's bytes. -/
def entriesAll (size : Nat) (b : List Byte) : List (List Byte) := entries size (b.length / size + 1) b

/-- The enable map of half `h` (Table IMG-6, CLUSTERS). -/
def enableMap (s : State) (p h : Nat) : Nat :=
  match (entries 24 128 ((liveBody s 3 p).getD [])).find? (fun e => Nat.beq (leAt e 0 1) h) with
  | some e => leAt e 4 20
  | none => 0

/-- A cluster in the die's failure map (R537). -/
def clusterFailed (s : State) (d c : Nat) : Bool := s.rdBit d (Reg.REC_FAIL_CLUSTER (c / 64)) (c % 64)

/-- A half in the die's failure map (R537). -/
def halfFailed (s : State) (d side : Nat) : Bool := s.rdBit d Reg.REC_FAIL_HALF side

/-- Enabled clusters of half `h` of partition `p`, ascending c, without those that the half's last commit left out
(R43, R538). -/
def enabledClusters (s : State) (p h : Nat) : List Nat :=
  let m := enableMap s p h
  if s.core.offHalves.contains h then []
  else (List.range 320).filter
    (fun c => Nat.beq (clusterSide c) (h % 2) && m.testBit (clusterBit c) && !s.core.offClusters.contains (h / 2 * 320 + c))

/-- The QOS entry of an instance (Table IMG-6). -/
def qosEntry (s : State) (p i : Nat) : Option (List Byte) :=
  (entries 24 32 ((liveBody s 5 p).getD [])).find? (fun e => Nat.beq (leAt e 0 1) i)

/-- A field of an instance's QOS entry; 0 where there is none. -/
def qosField (s : State) (p i off size : Nat) : Nat :=
  match qosEntry s p i with
  | some e => leAt e off size
  | none => 0

/-- PLANES of (partition, source, destination): 0b11 without a ROUTE entry (R54). -/
def routePlanes (s : State) (p src dst : Nat) : Nat :=
  match (entriesAll 4 ((liveBody s 8 0xFF).getD [])).find?
      (fun e => Nat.beq (leAt e 0 1) p && Nat.beq (leAt e 1 1) src && Nat.beq (leAt e 2 1) dst) with
  | some e => leAt e 3 1 % 4
  | none => 3

/-- The PORT entry of a host port or a bridge port (Table IMG-8). -/
def portEntry (s : State) (kind num : Nat) : Option (List Byte) :=
  (entries 8 64 ((liveBody s 13 0xFF).getD [])).find? (fun e => Nat.beq (leAt e 0 1) kind && Nat.beq (leAt e 1 1) num)

/-- ROLE of a port: host 0 PCIe host, 1 CXL partner, 2 disabled; bridge 0 disabled, 1 bridge. A port without an
entry is disabled. -/
def portRole (s : State) (kind num : Nat) : Nat :=
  match portEntry s kind num with
  | some e => leAt e 2 1
  | none => if kind = 0 then 2 else 0

/-- The die of HOSTP[p] (R23): p = m × 2 + position ÷ 2. -/
def portDie (p : Nat) : Nat := p / 2 * 4 + p % 2 * 2

/-- The host port of the die's own PCIe controller, on positions 0 and 2. -/
def diePort (d : Nat) : Option Nat := if d % 2 = 0 then some (d / 4 * 2 + d % 4 / 2) else none

/-! ### Queues -/

/-- The die and local index of a rack queue ID (R330). -/
def queDie (q : Nat) : Nat := q / 64
def queLocal (q : Nat) : Nat := q % 64
def quePart (s : State) (q : Nat) : Nat := s.rd (queDie q) (Reg.QUE_CFG_PART (queLocal q))
def queInst (s : State) (q : Nat) : Nat := s.rd (queDie q) (Reg.QUE_CFG_INST (queLocal q))
def queKind (s : State) (q : Nat) : Nat := s.rd (queDie q) (Reg.QUE_CFG_KIND (queLocal q))
def queClass (s : State) (q : Nat) : Nat := s.rd (queDie q) (Reg.QUE_CFG_CLASS (queLocal q))
def queNamed (s : State) (q : Nat) : Bool := s.rd (queDie q) (Reg.QUE_CFG_NAMED (queLocal q)) = 1
def quePi (s : State) (q : Nat) : Nat := s.rd (queDie q) (Reg.QUE_PI (queLocal q))
def queCi (s : State) (q : Nat) : Nat := s.rd (queDie q) (Reg.QUE_CI (queLocal q))
def queLog2 (s : State) (q : Nat) : Nat := s.rd (queDie q) (Reg.QUE_CTRL_LOG2 (queLocal q))
def queEnabled (s : State) (q : Nat) : Bool := s.rd (queDie q) (Reg.QUE_CTRL_ENABLE (queLocal q)) = 1
def queBase (s : State) (q : Nat) : Nat := s.rd (queDie q) (Reg.QUE_BASE (queLocal q)) * 4096

/-! ### The model's free values -/

/-- The counter that picks the next free value, and the state past it. -/
def State.free (s : State) : Nat × State := (s.freeCtr, { s with freeCtr := s.freeCtr + 1 })

end Sys2Proof.Machine
end

