-- ==== Sys2Proof/Machine/Clock.lean ====
section
/-! DEFINITION. One edge of REFCLK (R31, R101): the only thing that happens of its own accord; every other timed event
is a command. -/

namespace Sys2Proof.Machine

/-- The correction of R101 that die `d` still has to make, in ns. -/
def corrOf (s : State) (d : Nat) : Int := SMap.get 0 s.boot.corr d

/-- How far RTIME advances on this edge: 10, or 20 or 0 while a correction of more than 10 ns is due (R31, R101). -/
def edgeStep (s : State) (d : Nat) : Nat :=
  if 10 < corrOf s d then 20 else if corrOf s d < -10 then 0 else 10

/-- RTIME of a die whose PLL is locked advances; CLK_SLOW_TIME counts a µs with CCLK slower than CCLK_SET. -/
def dieEdge (s : State) (d : Nat) : State :=
  if s.rd d Reg.CLK_STATUS_LOCK = 1 then
    let k := edgeStep s d
    let t := s.rtime d
    let c := corrOf s d - ((k : Int) - 10)
    let s := { s with boot := { s.boot with corr := SMap.set 0 s.boot.corr d c } }
    let s := s.wr d Reg.DC_RTIME (t + k)
    if t / 1000 < (t + k) / 1000 && Nat.blt (s.rd d Reg.CLK_SET_CCLK_SET) (s.rd d Reg.CLK_STATUS_DIV) then
      s.count d Reg.CLK_SLOW_TIME 1
    else s
  else s

/-- One REFCLK edge: every running die counts it, and the RM keeps its own time (R533). -/
def refclkEdge (s : State) : State :=
  let s := if s.rack.refclk then each (allDies s) dieEdge s else s
  if s.rack.rmUp then { s with recs := { s.recs with rmRtime := s.recs.rmRtime + 10 } } else s

end Sys2Proof.Machine
end

