-- ==== Sys2Proof/Config.lean ====
section
/-! DEFINITION. What the spec leaves open: free values. Each is an opaque constant without a body; nothing can
evaluate it, so a claim holds whatever it is. -/

namespace Sys2Proof.Config

/-- Whether VMIN, VMAX and their relatives ignore a NaN operand (IEEE 754-2019 minimumNumber) or pass it on
(minimum): Table ISA-4 says neither (DESIGN CHOICE, log 20). -/
opaque minMaxNumber : Bool

/-- The one predicate bit of a VCMP on two packed elements, from the two comparisons: R136 does not say which
(DESIGN CHOICE, log 21). -/
opaque packedCmp : Bool → Bool → Bool

/-- Where in the 1 ulp of R136 a VRCP or VRSQ (last argument true) falls, for each operand and rounding mode (R127)
(DESIGN CHOICE, log 22). -/
opaque recipPick : Lane → Nat → Bool → Nat

/-- Where in the 2 ulp of R136 a VEXP2 or VLOG2 (last argument true) falls, for each operand and rounding mode (R127)
(DESIGN CHOICE, log 22). -/
opaque transPick : Lane → Nat → Bool → Nat

/-- VCVT to an integer type of a value out of its range without SAT, or of a NaN (DESIGN CHOICE, log 23): destination type,
source type and element. -/
opaque cvtOut : Nat → Nat → Nat → Nat

/-- VCVT to FP8 with a shared scale of 255 (R130 gives only the reading side) (DESIGN CHOICE, log 23). -/
opaque cvtScale255 : Nat → Nat → Nat

/-- How the jitter J of R232 is drawn from the LFSR's state, for each bound (DESIGN CHOICE, log 27). -/
opaque jitter : BitVec 16 → Nat → Nat

/-- R475: the set of the die TLB, of its 1,024, that a page of a context has; the spec gives no index (log 124). -/
opaque dieTlbSet (part inst ctx va : Nat) : Nat

/-- A free word for the `n`th open value of a run (DESIGN CHOICE, log 25). -/
opaque freeWord : Nat → Word

/-- REC_RING_BASE as the firmware of die `d` sets it (Table FLT-10: "Firmware") (DESIGN CHOICE, log 4). -/
opaque ringBase : Nat → Nat

/-- Capability bits 16–63 (MINOR_FEATURES) that the runtime firmware of die `d` reports (Table BOOT-6) (DESIGN CHOICE, log 4). -/
opaque minorFeatures : Nat → Nat

/-- The runtime firmware minor that introduced the feature of capability bit `n` (Table BOOT-6) (DESIGN CHOICE, log 4). -/
opaque featureMinor : Nat → Nat

end Sys2Proof.Config
end

