-- ==== Sys2Proof/Machine/Float.lean ====
section
/-! DEFINITION. The floating-point formats of Table ISA-1 and their arithmetic (R127–R130): values are exact
dyadic numbers, each operation is exact and is rounded once. -/

namespace Sys2Proof.Machine

/-- A value: NaN, an infinity, or ± m × 2^e. -/
inductive FV where
  | nan
  | inf (neg : Bool)
  | num (neg : Bool) (m : Nat) (e : Int)
  deriving DecidableEq, Repr

/-- A format: exponent bits, stored significand bits, and whether it is E4M3 (no infinities). -/
structure Fmt where
  eb : Nat
  mb : Nat
  e4m3 : Bool
  deriving DecidableEq, Repr

def fp32 : Fmt := ⟨8, 23, false⟩
def fp16 : Fmt := ⟨5, 10, false⟩
def bf16 : Fmt := ⟨8, 7, false⟩
def e4m3 : Fmt := ⟨4, 3, true⟩
def e5m2 : Fmt := ⟨5, 2, false⟩

/-- Width in bits. -/
def Fmt.width (f : Fmt) : Nat := 1 + f.eb + f.mb
def Fmt.bias (f : Fmt) : Nat := 2 ^ (f.eb - 1) - 1
/-- Exponent of the least subnormal's unit. -/
def Fmt.qmin (f : Fmt) : Int := 1 - (f.bias : Int) - f.mb
/-- The canonical quiet NaN (R128). -/
def Fmt.nan (f : Fmt) : Nat :=
  if f.e4m3 then 0x7F else (2 ^ f.eb - 1) * 2 ^ f.mb + 2 ^ (f.mb - 1)
/-- The encoding of infinity. -/
def Fmt.inf (f : Fmt) (neg : Bool) : Nat := (if neg then 2 ^ (f.width - 1) else 0) + (2 ^ f.eb - 1) * 2 ^ f.mb
/-- The largest finite magnitude's encoding. -/
def Fmt.maxFinite (f : Fmt) (neg : Bool) : Nat :=
  (if neg then 2 ^ (f.width - 1) else 0) + (if f.e4m3 then 0x7E else (2 ^ f.eb - 1) * 2 ^ f.mb - 1)

/-- The value that a word of the format encodes (R126). -/
def Fmt.decode (f : Fmt) (w : Nat) : FV :=
  let neg := w / 2 ^ (f.width - 1) % 2 == 1
  let ex := w / 2 ^ f.mb % 2 ^ f.eb
  let ma := w % 2 ^ f.mb
  let top := ex == 2 ^ f.eb - 1
  if f.e4m3 then
    if top && ma == 2 ^ f.mb - 1 then .nan
    else if ex = 0 then .num neg ma f.qmin
    else .num neg (ma + 2 ^ f.mb) (f.qmin + ex - 1)
  else if top then (if ma = 0 then .inf neg else .nan)
  else if ex = 0 then .num neg ma f.qmin
  else .num neg (ma + 2 ^ f.mb) (f.qmin + ex - 1)

/-- The integer nearest to n / 2^k under a rounding mode (R127): 0 nearest even, 1 toward zero, 2 toward −∞,
3 toward +∞. -/
def roundShift (rnd : Nat) (neg : Bool) (n k : Nat) : Nat :=
  let q := n / 2 ^ k
  let r := n % 2 ^ k
  if r = 0 then q
  else
    let up := match rnd with
      | 0 => decide (2 ^ k < 2 * r) || (decide (2 ^ k = 2 * r) && q % 2 == 1)
      | 1 => false
      | 2 => neg
      | _ => !neg
    if up then q + 1 else q

/-- What an overflow gives. -/
inductive Over where
  /-- IEEE 754: infinity, or the largest finite value, as the rounding mode says. -/
  | ieee
  /-- R129 with SAT. -/
  | sat
  /-- R129 without SAT. -/
  | nosat
  deriving DecidableEq, Repr

/-- The encoding of a value out of range. -/
def Fmt.over (f : Fmt) (o : Over) (rnd : Nat) (neg : Bool) : Nat :=
  match o with
  | .sat => f.maxFinite neg
  | .nosat => if f.e4m3 then f.nan else f.inf neg
  | .ieee =>
    match rnd with
    | 0 => f.inf neg
    | 1 => f.maxFinite neg
    | 2 => if neg then f.inf neg else f.maxFinite neg
    | _ => if neg then f.maxFinite neg else f.inf neg

/-- A value rounded into the format (R127–R129). -/
def Fmt.encode (f : Fmt) (rnd : Nat) (o : Over) (v : FV) : Nat :=
  match v with
  | .nan => f.nan
  | .inf neg =>
    match o with
    | .ieee => f.inf neg
    | o => f.over o rnd neg
  | .num neg m e =>
    let sign := if neg then 2 ^ (f.width - 1) else 0
    if m = 0 then sign
    else
      let lead : Int := (Nat.log2 m : Int) + e
      let q : Int := max (lead - f.mb) f.qmin
      let n := if e < q then roundShift rnd neg m (q - e).toNat else m * 2 ^ (e - q).toNat
      let (n, q) := if n = 2 ^ (f.mb + 1) then (n / 2, q + 1) else (n, q)
      let body := if n < 2 ^ f.mb then n else (q - f.qmin + 1).toNat * 2 ^ f.mb + (n - 2 ^ f.mb)
      let limit := f.maxFinite false
      if limit < body then f.over o rnd neg else sign + body

/-- Exact product. -/
def FV.mul : FV → FV → FV
  | .nan, _ => .nan
  | _, .nan => .nan
  | .inf a, .inf b => .inf (xor a b)
  | .inf a, .num b m _ => if m = 0 then .nan else .inf (xor a b)
  | .num b m _, .inf a => if m = 0 then .nan else .inf (xor a b)
  | .num a m e, .num b n g => .num (xor a b) (m * n) (e + g)

/-- ± m × 2^e as an integer in units of 2^u, u ≤ e. -/
def scaled (neg : Bool) (m : Nat) (e u : Int) : Int :=
  let v : Int := (m * 2 ^ (e - u).toNat : Nat)
  if neg then -v else v

/-- Exact sum; an exact zero of opposite signs is +0, or −0 rounding toward −∞ (R127). -/
def FV.add (rnd : Nat) : FV → FV → FV
  | .nan, _ => .nan
  | _, .nan => .nan
  | .inf a, .inf b => if a = b then .inf a else .nan
  | .inf a, .num _ _ _ => .inf a
  | .num _ _ _, .inf a => .inf a
  | .num a m e, .num b n g =>
    if m = 0 && n = 0 then .num (if a = b then a else rnd == 2) 0 (min e g)
    else
      let u := min e g
      let t := scaled a m e u + scaled b n g u
      if t = 0 then .num (rnd == 2) 0 u else .num (decide (t < 0)) t.natAbs u

def FV.neg : FV → FV
  | .nan => .nan
  | .inf a => .inf (!a)
  | .num a m e => .num (!a) m e

def FV.abs : FV → FV
  | .nan => .nan
  | .inf _ => .inf false
  | .num _ m e => .num false m e

/-- Order of two values that are no NaN: −1, 0 or 1; the zeros are equal. -/
def FV.cmp : FV → FV → Int
  | .inf a, .inf b => if a = b then 0 else if a then -1 else 1
  | .inf a, _ => if a then -1 else 1
  | _, .inf b => if b then 1 else -1
  | .num a m e, .num b n g =>
    let u := min e g
    let t := scaled a m e u - scaled b n g u
    if t < 0 then -1 else if t = 0 then 0 else 1
  | _, _ => 0

def FV.isNan : FV → Bool
  | .nan => true
  | _ => false

def FV.isNeg : FV → Bool
  | .nan => false
  | .inf a => a
  | .num a _ _ => a

/-- Minimum or maximum, −0 below +0; a NaN operand as `Config.minMaxNumber` says. -/
def FV.minMax (isMax : Bool) (a b : FV) : FV :=
  match a, b with
  | .nan, .nan => .nan
  | .nan, y => if Config.minMaxNumber then y else .nan
  | x, .nan => if Config.minMaxNumber then x else .nan
  | x, y =>
    let less := decide (FV.cmp x y < 0) || (decide (FV.cmp x y = 0) && x.isNeg && !y.isNeg)
    if xor less isMax then x else y

/-- A comparison (R136): 0 EQ, 1 NE, 2 LT, 3 LE, 4 GT, 5 GE; with a NaN false, save NE. -/
def FV.cond (c : Nat) (a b : FV) : Bool :=
  if a.isNan || b.isNan then c == 1
  else
    let o := FV.cmp a b
    match c with
    | 0 => decide (o = 0)
    | 1 => decide (o ≠ 0)
    | 2 => decide (o < 0)
    | 3 => decide (o ≤ 0)
    | 4 => decide (0 < o)
    | _ => decide (0 ≤ o)

/-! ### Reciprocals and transcendentals (R136) -/

/-- Integer square root, bit by bit from bit `k` down. -/
def isqrt : Nat → Nat → Nat → Nat
  | 0, r, _ => r
  | k + 1, r, n =>
    let t := r + 2 ^ k
    isqrt k (if t * t ≤ n then t else r) n

/-- q × 2^e, or a value strictly between it and (q + 1) × 2^e: one more bit says which. -/
def sticky (neg exact : Bool) (q : Nat) (e : Int) : FV := .num neg (2 * q + (if exact then 0 else 1)) (e - 1)

/-- 1 ÷ v to 64 bits and a sticky bit. -/
def FV.recip : FV → FV × Bool
  | .nan => (.nan, true)
  | .inf a => (.num a 0 0, true)
  | .num a m e =>
    if m = 0 then (.inf a, true)
    else
      let k := 2 * Nat.log2 m + 64
      let x := 2 ^ k % m == 0
      (sticky a x (2 ^ k / m) (-(k : Int) - e), x)

/-- 1 ÷ √v to 64 bits and a sticky bit. -/
def FV.rsqrt : FV → FV × Bool
  | .nan => (.nan, true)
  | .inf a => (if a then .nan else .num false 0 0, true)
  | .num a m e =>
    if m = 0 then (.inf a, true)
    else if a then (.nan, true)
    else
      let (m, e) := if e % 2 = 0 then (m, e) else (2 * m, e - 1)
      let k := Nat.log2 m + 64
      let q := isqrt (k + 2) 0 (2 ^ (2 * k) / m)
      let x := q * q * m == 2 ^ (2 * k)
      (sticky false x q (-(k : Int) - e / 2), x)

/-- 2^(b × 2^-53) × 2^128, from the bits of b: bit 53 − i stands for √…√2, i roots deep. -/
def expFrac (b : Nat) : Nat → Nat → Nat → Nat
  | 0, _, acc => acc
  | k + 1, root, acc =>
    let root' := isqrt 130 0 (root * 2 ^ 128)
    expFrac b k root' (if b.testBit k then acc * root' / 2 ^ 128 else acc)

/-- 2^v to more than 100 bits. -/
def FV.exp2 : FV → FV × Bool
  | .nan => (.nan, true)
  | .inf a => (if a then .num false 0 0 else .inf false, true)
  | .num a m e =>
    if m = 0 then (.num false 1 0, true)
    else if 10 < (Nat.log2 m : Int) + e then (.num false 1 (if a then -2000 else 2000), false)
    else if (Nat.log2 m : Int) + e < -30 then
      (if a then .num false (2 ^ 100 - 1) (-100) else .num false (2 ^ 100 + 1) (-100), false)
    else
      let t := scaled a (m * 2 ^ 53) e (min e 0) / 2 ^ (-(min e 0)).toNat
      let i := t / 2 ^ 53
      let b := (t % 2 ^ 53).toNat
      let x := b == 0
      (sticky false x (expFrac b 53 (2 ^ 129) (2 ^ 128)) (i - 128), x)

/-- 80 fraction bits of log2 of x × 2^-200, 1 ≤ x × 2^-200 < 2. -/
def logFrac : Nat → Nat → Nat → Nat
  | 0, _, acc => acc
  | k + 1, x, acc =>
    let y := x * x / 2 ^ 200
    if 2 ^ 201 ≤ y then logFrac k (y / 2) (2 * acc + 1) else logFrac k y (2 * acc)

/-- log2 v to 80 fraction bits and a sticky bit. -/
def FV.log2 : FV → FV × Bool
  | .nan => (.nan, true)
  | .inf a => (if a then .nan else .inf false, true)
  | .num a m e =>
    if m = 0 then (.inf true, true)
    else if a then (.nan, true)
    else
      let l := Nat.log2 m
      let x := m == 2 ^ l
      let fr : Int := (logFrac 80 (m * 2 ^ 200 / 2 ^ l) 0 : Nat)
      let t := ((l : Int) + e) * 2 ^ 80 + fr
      let t2 := 2 * t + (if x then 0 else 1)
      (.num (decide (t2 < 0)) t2.natAbs (-81), x)

/-- FP32 encodings in the order of their values, as integers. -/
def lineUp (w : Nat) : Int := if w < 2 ^ 31 then (w : Int) else (2 ^ 31 : Int) - w
/-- Back from `lineUp`; a step past an infinity stays there. -/
def lineDown (i : Int) : Nat :=
  let lim : Int := 0x7F800000
  let i := max (-lim) (min lim i)
  if 0 ≤ i then i.toNat else 2 ^ 31 + (-i).toNat

/-- A value with an error of at most `n` ulp (R136): the rounded-down and the rounded-up result and what lies
`n` − 1 steps beyond them, or `n` steps about an exact one; `pick` chooses. -/
def withinUlp (n pick : Nat) (v : FV) (exact : Bool) : Nat :=
  match v with
  | .nan => fp32.nan
  | .inf a => fp32.inf a
  | .num a m e =>
    if m = 0 then (if a then 2 ^ 31 else 0)
    else
      let lo := lineUp (fp32.encode 2 .ieee (.num a m e))
      if exact then lineDown (lo - n + (pick % (2 * n + 1) : Nat))
      else lineDown (lo - (n - 1) + (pick % (2 * n) : Nat))

end Sys2Proof.Machine
end

