-- ==== Sys2Proof/Machine/Operands.lean ====
section
/-! DEFINITION. The instruction word (R131, R132, Tables ISA-2 and ISA-3): its fields, which words are legal (R133,
R136, R140, R149), and the operands that an instruction reads and writes in its troupe (R122–R125). -/

namespace Sys2Proof.Machine

/-! ### Fields (Table ISA-2) -/

/-- The 64-bit instruction word: bits [63:8] and OP. -/
def wordOf (op : Nat) (f : BitVec 56) : Nat := f.toNat * 256 + op % 256

/-- OP of a VS opcode: the immediate form is the register form plus 0x10 (R136). -/
def vsOp (op : Nat) (imm : Bool) : Nat := if imm then op + 0x10 else op

def fOp (w : Nat) : Nat := bits w 7 0
def fPsel (w : Nat) : Nat := bits w 10 8
def fPneg (w : Nat) : Bool := w.testBit 11
/-- VD, D and VL. -/
def fD (w : Nat) : Nat := bits w 18 12
/-- VA and A. -/
def fA (w : Nat) : Nat := bits w 25 19
def fVB (w : Nat) : Nat := bits w 32 26
def fVC (w : Nat) : Nat := bits w 39 33
/-- TYPE of VV. -/
def fType (w : Nat) : Nat := bits w 42 40
/-- MOD of VV. -/
def fMod (w : Nat) : Nat := bits w 45 43
def fPD (w : Nat) : Nat := bits w 48 46
def fRnd (w : Nat) : Nat := bits w 50 49
def fSat (w : Nat) : Bool := w.testBit 51
/-- SCALE of VV. -/
def fScale (w : Nat) : Bool := w.testBit 52
def fSS (w : Nat) : Nat := bits w 58 53
/-- TYPE of VS. -/
def fTypeS (w : Nat) : Nat := bits w 28 26
/-- MOD of VS. -/
def fModS (w : Nat) : Nat := bits w 31 29
/-- IMM32 and OFF. -/
def fImm32 (w : Nat) : Nat := bits w 63 32
/-- SB of VS. -/
def fSBs (w : Nat) : Nat := bits w 37 32
/-- SB of MEM: a scalar pair. -/
def fSB (w : Nat) : Nat := bits w 23 19
def fVO (w : Nat) : Nat := bits w 30 24
def fOffen (w : Nat) : Bool := w.testBit 31
def fSize (w : Nat) : Nat := bits w 34 32
def fSext (w : Nat) : Bool := w.testBit 35
def fHint (w : Nat) : Nat := bits w 37 36
def fFill (w : Nat) : Bool := w.testBit 38
/-- MOD of MEM. -/
def fModM (w : Nat) : Nat := bits w 41 39
def fScope (w : Nat) : Nat := bits w 43 42
def fImm20 (w : Nat) : Nat := bits w 63 44
def fBar (w : Nat) : Nat := bits w 22 19
def fAfmt (w : Nat) : Bool := w.testBit 40
def fBfmt (w : Nat) : Bool := w.testBit 41
/-- SCALE of MMA. -/
def fScaleM (w : Nat) : Bool := w.testBit 42
def fSSA (w : Nat) : Nat := bits w 47 43
def fSSB (w : Nat) : Nat := bits w 52 48
def fZC (w : Nat) : Bool := w.testBit 53
def fSpec (w : Nat) : Nat := bits w 31 26

/-- Bytes per thread of SIZE. -/
def sizeBytes (sz : Nat) : Nat := 2 ^ sz

/-- Registers of a group that holds SIZE bytes (R138). -/
def sizeRegs (sz : Nat) : Nat := if sz = 3 then 2 else if sz = 4 then 4 else 1

/-- A mask with bits [hi:lo] set. -/
def fieldMask (hi lo : Nat) : Nat := (2 ^ (hi + 1 - lo) - 1) * 2 ^ lo

/-! ### Types (Table ISA-1) -/

/-- Width in bits of a data type. -/
def typeWidth (t : Nat) : Nat :=
  if t = 0 || t = 5 then 32 else if t = 1 || t = 2 then 16 else 8

def isFp8 (t : Nat) : Bool := t == 3 || t == 4
def isFloat (t : Nat) : Bool := Nat.ble t 4
def isInt (t : Nat) : Bool := t == 5 || t == 6

/-! ### Legal words -/

/-- What an opcode uses: the bits of its fields, the types of its Types column, the values of its MOD (one bit for
each), and where TYPE and MOD stand. -/
structure OpRow where
  op : Nat
  used : Nat
  types : Nat
  mods : Nat
  deriving DecidableEq, Repr

/-- The fields of VV by name. -/
def mVD : Nat := fieldMask 18 12
def mVA : Nat := fieldMask 25 19
def mVB : Nat := fieldMask 32 26
def mVC : Nat := fieldMask 39 33
def mTY : Nat := fieldMask 42 40
def mMO : Nat := fieldMask 45 43
def mPD : Nat := fieldMask 48 46
def mRN : Nat := fieldMask 50 49
def mCvt : Nat := fieldMask 58 51
/-- Types columns, one bit for each code. -/
def tAdd : Nat := 0x67
def tMul : Nat := 0x27
def tFma : Nat := 0x07
def tAny : Nat := 0x7F

/-- The VV opcodes (Table ISA-4). VRCP to VLOG2 are floating-point arithmetic in a format with RND and use it
(R127). -/
def vvRows : List OpRow := [
  ⟨0x00, mVD + mVA + mVB + mTY + mRN, tAdd, 1⟩,
  ⟨0x01, mVD + mVA + mVB + mTY + mRN, tAdd, 1⟩,
  ⟨0x02, mVD + mVA + mVB + mTY + mRN, tMul, 1⟩,
  ⟨0x03, mVD + mVA + mVB + mVC + mTY + mRN, tFma, 1⟩,
  ⟨0x04, mVD + mVA + mVB + mTY + mMO, tAdd, 3⟩,
  ⟨0x05, mVD + mVA + mVB + mTY + mMO, tAdd, 3⟩,
  ⟨0x06, mVD + mVA + mTY, tAdd, 1⟩,
  ⟨0x07, mVD + mVA + mTY, tAdd, 1⟩,
  ⟨0x08, mVD + mVA + mVB + mTY + mMO, tAny, 0x1F⟩,
  ⟨0x09, mVD + mVA + mVB + mTY, 0x20, 1⟩,
  ⟨0x0A, mVD + mVA + mVB + mTY + mMO, 0x20, 3⟩,
  ⟨0x0B, mPD + mVA + mVB + mTY + mMO, tMul, 0xFF⟩,
  ⟨0x0C, mVD + mPD + mVA + mVB + mTY, tAny, 1⟩,
  ⟨0x0D, mVD + mVA + mTY + mMO + mRN + mCvt, tAny, 0x7F⟩,
  ⟨0x0E, mVD + mVA + mVB + mVC + mTY + mMO, 0x40, 3⟩,
  ⟨0x0F, mVD + mVA + mTY, tAny, 1⟩]

def vvRowsT : List OpRow := [
  ⟨0x10, mVD + mVA + mTY + mRN, 1, 1⟩,
  ⟨0x11, mVD + mVA + mTY + mRN, 1, 1⟩,
  ⟨0x12, mVD + mVA + mTY + mRN, 1, 1⟩,
  ⟨0x13, mVD + mVA + mTY + mRN, 1, 1⟩,
  ⟨0x14, mVD + mVA + mVB + mTY, tAny, 1⟩,
  ⟨0x15, mVD + mVA + mTY + mMO + mRN, 0x21, 7⟩]

/-- TYPE and MOD of VS, and A. -/
def mTYs : Nat := fieldMask 28 26
def mMOs : Nat := fieldMask 31 29

/-- The VS opcodes in their register form (Table ISA-4), without the operand b. -/
def vsRows : List OpRow := [
  ⟨0x20, mVD + mVA + mTYs, tAdd, 1⟩,
  ⟨0x21, mVD + mVA + mTYs, tAdd, 1⟩,
  ⟨0x22, mVD + mVA + mTYs, tMul, 1⟩,
  ⟨0x23, mVD + mVA + mTYs, tFma, 1⟩,
  ⟨0x24, mVD + mVA + mTYs + mMOs, tAdd, 3⟩,
  ⟨0x25, mVD + mVA + mTYs + mMOs, tAdd, 3⟩,
  ⟨0x26, fieldMask 14 12 + mVA + mTYs + mMOs, tMul, 0xFF⟩,
  ⟨0x27, mVD + mTYs, tAny, 1⟩]

def vsRowsS : List OpRow := [
  ⟨0x28, fieldMask 17 12 + fieldMask 24 19 + mTYs, 0x21, 1⟩,
  ⟨0x29, fieldMask 17 12 + fieldMask 24 19 + mTYs, 0x21, 1⟩,
  ⟨0x2A, fieldMask 17 12 + fieldMask 24 19 + mTYs, 0x21, 1⟩,
  ⟨0x2B, fieldMask 17 12 + fieldMask 24 19 + mTYs + mMOs, 0x20, 0xF⟩,
  ⟨0x2C, fieldMask 17 12 + fieldMask 24 19 + mTYs + mMOs, 0x20, 7⟩,
  ⟨0x2D, fieldMask 17 12 + mTYs, tAny, 1⟩,
  ⟨0x2E, fieldMask 14 12 + fieldMask 24 19 + mTYs + mMOs, 0x21, 0xFF⟩,
  ⟨0x2F, fieldMask 17 13 + fieldMask 24 20 + mTYs, 0x20, 1⟩]

/-- Fields of MEM: address (SB, VO, OFFEN, IMM20, SIZE), HINT and FILL, SEXT, MOD, SCOPE. -/
def mLoc : Nat := fieldMask 31 24 + fieldMask 34 32 + fieldMask 63 44
def mAdr : Nat := mLoc + fieldMask 23 19
def mHF : Nat := fieldMask 38 36
def mSX : Nat := 2 ^ 35
def mMOm : Nat := fieldMask 41 39
def mSC : Nat := fieldMask 43 42

/-- The MEM opcodes (Table ISA-5); `types` holds the allowed SIZE values (R149). -/
def memRows : List OpRow := [
  ⟨0x40, mVD + mAdr + mHF + mSX, 0x1F, 1⟩,
  ⟨0x41, mVD + mAdr + mHF, 0x1F, 1⟩,
  ⟨0x42, mVD + mAdr + mHF + mSX + mSC, 0x1F, 1⟩,
  ⟨0x43, mVD + mAdr + mHF + mSC, 0x1F, 1⟩,
  ⟨0x44, mVD + mLoc + mSX, 0x1F, 1⟩,
  ⟨0x45, mVD + mLoc, 0x1F, 1⟩,
  ⟨0x46, fieldMask 17 12 + fieldMask 23 19 + fieldMask 34 32 + fieldMask 63 44 + mHF, 0x0C, 1⟩,
  ⟨0x47, mAdr + mHF, 0x1F, 1⟩,
  ⟨0x48, mVD + mAdr + mHF + mSX + mMOm, 0x0C, 0xFF⟩]

def memRows2 : List OpRow := [
  ⟨0x49, mVD + mAdr + mHF + mSX + mMOm + mSC, 0x0C, 0xFF⟩,
  ⟨0x4A, mVD + mAdr + mHF + mMOm, 0x04, 7⟩,
  ⟨0x4B, mVD + mAdr + mHF + mMOm + mSC, 0x04, 7⟩,
  ⟨0x4C, mVD + mLoc + mSX + mMOm, 0x0C, 0xFF⟩,
  ⟨0x4D, mSC + fieldMask 34 31, 0x1F, 1⟩,
  ⟨0x4E, mVD + fieldMask 31 24 + fieldMask 23 19 + fieldMask 34 32 + fieldMask 55 44 + mMOm, 0x04, 0x1F⟩,
  ⟨0x4F, mVD + fieldMask 31 24 + fieldMask 23 19 + fieldMask 34 32 + fieldMask 62 44 + mHF + mSX, 0x1F, 1⟩,
  ⟨0x50, mVD + fieldMask 31 24 + fieldMask 23 19 + fieldMask 34 32 + fieldMask 62 44 + mHF, 0x1F, 1⟩]

/-- The CTL, MMA and SYS opcodes (Tables ISA-4 and ISA-5). -/
def otherRows : List OpRow := [
  ⟨0x60, fieldMask 63 32, 0, 0⟩,
  ⟨0x61, fieldMask 63 32 + mVD, 0, 0⟩,
  ⟨0x62, mVD, 0, 0⟩,
  ⟨0x63, 0, 0, 0⟩,
  ⟨0x64, 0, 0, 0⟩,
  ⟨0x65, fieldMask 22 19, 0, 0⟩,
  ⟨0x66, 0, 0, 0⟩,
  ⟨0x67, 0, 0, 0⟩,
  ⟨0x68, fieldMask 47 32, 0, 0⟩,
  ⟨0x80, fieldMask 53 12, 0, 0⟩]

def otherRows2 : List OpRow := [
  ⟨0x81, fieldMask 41 12 + 2 ^ 53, 0, 0⟩,
  ⟨0xA0, fieldMask 17 12 + fieldMask 31 26, 0, 0⟩,
  ⟨0xA1, mVD + fieldMask 31 26, 0, 0⟩,
  ⟨0xA2, fieldMask 17 12 + mVA, 0, 0⟩,
  ⟨0xA3, fieldMask 17 12, 0, 0⟩,
  ⟨0xA4, 0, 0, 0⟩,
  ⟨0xA5, fieldMask 47 32, 0, 0⟩]

def findRow (op : Nat) (l : List OpRow) : Option OpRow := l.find? (fun r => Nat.beq r.op op)

/-- Bits that every opcode uses: OP, PSEL, PNEG. -/
def commonMask : Nat := 0xFFF

/-- No bit of the word outside `used`. -/
def onlyUses (w used : Nat) : Bool := Nat.beq (w &&& (used + commonMask)) w

/-- PSEL = 7 with PNEG = 1 is illegal (R133). -/
def guardLegal (w : Nat) : Bool := !(Nat.beq (fPsel w) 7 && fPneg w)

/-- A register group of `k` from `r` lies in the allocation and meets R125. -/
def groupOk (alloc r k : Nat) : Bool := Nat.beq (r % k) 0 && Nat.ble (r + k) alloc

/-- How VCVT widens (first) or narrows (second): 1, 2 or 4 registers on one side (R137). -/
def cvtRegs (w : Nat) : Nat × Nat :=
  let ws := typeWidth (fType w)
  let wd := typeWidth (fMod w)
  (if ws < wd then wd / ws else 1, if wd < ws then ws / wd else 1)

/-- Field conditions of a VV word beyond its row. -/
def vvExtra (alloc w : Nat) : Bool :=
  let one (r : Nat) : Bool := Nat.blt r alloc
  match fOp w with
  | 0x0B =>
    one (fA w) && one (fVB w) && (Nat.blt (fMod w) 6 || Nat.beq (fType w) 5)
  | 0x0D =>
    let (wide, narrow) := cvtRegs w
    groupOk alloc (fD w) wide && groupOk alloc (fA w) narrow
      && (if fScale w then xor (isFp8 (fType w)) (isFp8 (fMod w)) else Nat.beq (fSS w) 0)
  | _ => one (fD w) && one (fA w) && one (fVB w) && one (fVC w)

/-- Field conditions of a VS word beyond its row. -/
def vsExtra (alloc w : Nat) : Bool :=
  let op := fOp w % 16 + 0x20
  if op < 0x28 then
    match op with
    | 0x26 => Nat.blt (fA w) alloc && (Nat.blt (fModS w) 6 || Nat.beq (fTypeS w) 5)
    | _ => Nat.blt (fD w) alloc && Nat.blt (fA w) alloc
  else if op = 0x2E then Nat.blt (fModS w) 6 || Nat.beq (fTypeS w) 5
  else true

/-- The vector groups that a MEM opcode's VD names: what it moves, and what CAS takes besides. -/
def memGroup (w : Nat) : Nat :=
  let n := sizeRegs (fSize w)
  let op := fOp w
  if (op = 0x48 || op = 0x49 || op = 0x4C) && fModM w = 7 then 2 * n else n

/-- Field conditions of a MEM word beyond its row. VO counts as a register when it is added, or names a token. -/
def memExtra (alloc w : Nat) : Bool :=
  let op := fOp w
  let vo := (!(fOffen w) && !(op == 0x4F || op == 0x50)) || Nat.blt (fVO w) alloc
  let scope := !(Nat.beq (fScope w) 3)
  let hint := !(Nat.beq (fHint w) 3)
  if op = 0x4D then scope
  else if op = 0x46 then hint && (Nat.beq (fSize w) 2 || Nat.beq (fD w % 2) 0)
  else if op = 0x47 then hint && vo
  else scope && hint && vo && groupOk alloc (fD w) (memGroup w)

/-- Field conditions of CTL, MMA and SYS words beyond their rows. SSA and SSB of MMA8 are unused while SCALE = 0 (DEDUCED,
log 17). -/
def otherExtra (alloc w : Nat) : Bool :=
  match fOp w with
  | 0x61 => groupOk alloc (fD w) 2
  | 0x62 => groupOk alloc (fD w) 2
  | 0x80 => (!(fZC w) || Nat.beq (fVC w) 0) && (fScaleM w || (Nat.beq (fSSA w) 0 && Nat.beq (fSSB w) 0))
  | 0x81 => !(fZC w) || Nat.beq (fVC w) 0
  | 0xA0 => Nat.ble (fSpec w) 0x10 && !(Nat.beq (fSpec w) 0)
  | 0xA1 => Nat.ble (fSpec w) 0x10 && Nat.blt (fD w) alloc
  | 0xA2 => Nat.blt (fA w) alloc
  | 0xA5 => !(Nat.beq (fImm32 w) 0)
  | _ => true

/-- Whether a word is a legal instruction for a troupe with an allocation of `alloc` registers (R131, R133, R136,
R140, R149). -/
def legal (alloc w : Nat) : Bool :=
  let op := fOp w
  guardLegal w &&
  (match op / 32 with
   | 0 =>
     match findRow op (vvRows ++ vvRowsT) with
     | some r => onlyUses w r.used && r.types.testBit (fType w) && r.mods.testBit (fMod w) && vvExtra alloc w
     | none => false
   | 1 =>
     match findRow (op % 16 + 0x20) (vsRows ++ vsRowsS) with
     | some r =>
       let b := if op.testBit 4 then fieldMask 63 32 else fieldMask 37 32
       onlyUses w (r.used + b) && r.types.testBit (fTypeS w) && r.mods.testBit (fModS w) && vsExtra alloc w
     | none => false
   | 2 =>
     match findRow op (memRows ++ memRows2) with
     | some r => onlyUses w r.used && r.types.testBit (fSize w) && r.mods.testBit (fModM w) && memExtra alloc w
     | none => false
   | _ =>
     match findRow op (otherRows ++ otherRows2) with
     | some r => onlyUses w r.used && otherExtra alloc w
     | none => false)

/-! ### Registers of a troupe (R122–R125) -/

/-- v`n` of a lane. -/
def Troupe.v (t : Troupe) (n lane : Nat) : Lane := SMap.get 0 t.vregs (n * 32 + lane)
/-- s`n`. -/
def Troupe.s (t : Troupe) (n : Nat) : Lane := SMap.get 0 t.sregs n
/-- Scalar pair `n`: s(2n) low, s(2n + 1) high (R124). -/
def Troupe.pair (t : Troupe) (n : Nat) : Nat := (t.s (2 * n)).toNat + (t.s (2 * n + 1)).toNat * 2 ^ 32
def Troupe.setV (t : Troupe) (n lane : Nat) (x : Lane) : Troupe :=
  { t with vregs := SMap.set 0 t.vregs (n * 32 + lane) x }
def Troupe.setS (t : Troupe) (n : Nat) (x : Lane) : Troupe := { t with sregs := SMap.set 0 t.sregs n x }
def Troupe.setPair (t : Troupe) (n : Nat) (x : Nat) : Troupe :=
  (t.setS (2 * n) (BitVec.ofNat 32 x)).setS (2 * n + 1) (BitVec.ofNat 32 (x / 2 ^ 32))

/-- A thread of the troupe. -/
def Troupe.thread (t : Troupe) (lane : Nat) : Option Thread := t.threads[lane]?

/-- p`n` of a lane; p7 reads 1 (R123). -/
def Troupe.p (t : Troupe) (n lane : Nat) : Bool :=
  if n = 7 then true else ((t.thread lane).map (fun x => x.preds.getLsbD n)).getD false

/-- A thread changed. -/
def Troupe.updThread (t : Troupe) (lane : Nat) (f : Thread → Thread) : Troupe :=
  { t with threads := t.threads.modify lane f }

/-- p`n` of a thread written; a write to p7 is discarded (R123). -/
def Thread.setP (x : Thread) (n : Nat) (b : Bool) : Thread :=
  let m : BitVec 7 := 1 <<< n
  { x with preds := if b then x.preds ||| m else x.preds &&& ~~~m }

def Troupe.setP (t : Troupe) (n lane : Nat) (b : Bool) : Troupe := t.updThread lane (fun x => x.setP n b)

/-- The guard of a word in a lane (R134). -/
def guardOf (t : Troupe) (w lane : Nat) : Bool := xor (t.p (fPsel w) lane) (fPneg w)

/-- `f` of each lane of a list written to v`n`. -/
def writeLanes (n : Nat) (f : Nat → Lane) : List Nat → Troupe → Troupe
  | [], t => t
  | lane :: l, t => writeLanes n f l (t.setV n lane (f lane))

/-- `f` of each lane of a list written to p`n`. -/
def writePreds (n : Nat) (f : Nat → Bool) : List Nat → Troupe → Troupe
  | [], t => t
  | lane :: l, t => writePreds n f l (t.setP n lane (f lane))

/-- The operand b of VS: SB, or IMM32 (R136). -/
def opB (t : Troupe) (w : Nat) : Lane := if w.testBit 4 then BitVec.ofNat 32 (fImm32 w) else t.s (fSBs w)

/-- A group of `k` registers from `r` of a lane, as one number, the first register lowest. -/
def readGroup (t : Troupe) (lane r : Nat) : Nat → Nat
  | 0 => 0
  | k + 1 => (t.v r lane).toNat + 2 ^ 32 * readGroup t lane (r + 1) k

/-- A number written to a group of `k` registers of a lane. -/
def writeGroup (lane r : Nat) : Nat → Nat → Troupe → Troupe
  | 0, _, t => t
  | k + 1, x, t => writeGroup lane (r + 1) k (x / 2 ^ 32) (t.setV r lane (BitVec.ofNat 32 x))

end Sys2Proof.Machine
end

