-- ==== Sys2Proof/Machine/Flags.lean ====
section
/-! DEFINITION. What the arithmetic opcodes compute (R126–R130, R136, R137, R148, Table MESH-5): packed elements,
minimum and maximum, comparisons, conversions, shifts, atomics and reductions. -/

namespace Sys2Proof.Machine

/-! ### Elements (R126) -/

/-- The format of a floating-point type code. -/
def fmtOf (t : Nat) : Fmt :=
  match t with
  | 0 => fp32
  | 1 => fp16
  | 2 => bf16
  | 3 => e4m3
  | _ => e5m2

/-- Element `i` of width `w`. -/
def elem (w i : Nat) (x : Nat) : Nat := x / 2 ^ (w * i) % 2 ^ w

/-- Elements packed into a register, the first lowest. -/
def packElems (w : Nat) : List Nat → Nat
  | [] => 0
  | x :: l => x % 2 ^ w + 2 ^ w * packElems w l

/-- `f` of each pair of elements of two registers of type `t`. -/
def mapElems2 (t : Nat) (f : Nat → Nat → Nat) (a b : Lane) : Lane :=
  let w := typeWidth t
  BitVec.ofNat 32 (packElems w ((List.range (32 / w)).map (fun i => f (elem w i a.toNat) (elem w i b.toNat))))

def mapElems3 (t : Nat) (f : Nat → Nat → Nat → Nat) (a b c : Lane) : Lane :=
  let w := typeWidth t
  BitVec.ofNat 32 (packElems w ((List.range (32 / w)).map
    (fun i => f (elem w i a.toNat) (elem w i b.toNat) (elem w i c.toNat))))

def mapElems (t : Nat) (f : Nat → Nat) (a : Lane) : Lane := mapElems2 t (fun x _ => f x) a a

/-! ### Arithmetic of one element -/

/-- Sum (R127; integers wrap). -/
def addE (t rnd x y : Nat) : Nat :=
  if isInt t then (x + y) % 2 ^ typeWidth t
  else (fmtOf t).encode rnd .ieee (FV.add rnd ((fmtOf t).decode x) ((fmtOf t).decode y))

/-- Difference. -/
def subE (t rnd x y : Nat) : Nat :=
  if isInt t then (x + 2 ^ typeWidth t - y) % 2 ^ typeWidth t
  else (fmtOf t).encode rnd .ieee (FV.add rnd ((fmtOf t).decode x) ((fmtOf t).decode y).neg)

/-- Product; INT32 keeps the low 32 bits. -/
def mulE (t rnd x y : Nat) : Nat :=
  if isInt t then x * y % 2 ^ typeWidth t
  else (fmtOf t).encode rnd .ieee (FV.mul ((fmtOf t).decode x) ((fmtOf t).decode y))

/-- x × y + z with one rounding. -/
def fmaE (t rnd x y z : Nat) : Nat :=
  let f := fmtOf t
  f.encode rnd .ieee (FV.add rnd (FV.mul (f.decode x) (f.decode y)) (f.decode z))

/-- Minimum or maximum; MOD[0] makes an integer one unsigned. -/
def minMaxE (t : Nat) (isMax unsig : Bool) (x y : Nat) : Nat :=
  if isInt t then
    let w := typeWidth t
    let less := if unsig then decide (x < y) else decide (toSigned w x < toSigned w y)
    if xor less isMax then x else y
  else (fmtOf t).encode 0 .ieee (FV.minMax isMax ((fmtOf t).decode x) ((fmtOf t).decode y))

/-- Absolute value: an integer's wraps; a float's clears the sign, and a NaN is canonical (R128). -/
def absE (t x : Nat) : Nat :=
  if isInt t then
    let w := typeWidth t
    if 2 ^ (w - 1) ≤ x then (2 ^ w - x) % 2 ^ w else x
  else (fmtOf t).encode 0 .ieee ((fmtOf t).decode x).abs

/-- An element as a result: a NaN is canonical (R128). -/
def canonE (t x : Nat) : Nat := if isInt t then x else (fmtOf t).encode 0 .ieee ((fmtOf t).decode x)

/-- Negation. -/
def negE (t x : Nat) : Nat :=
  if isInt t then (2 ^ typeWidth t - x) % 2 ^ typeWidth t
  else (fmtOf t).encode 0 .ieee ((fmtOf t).decode x).neg

/-- A comparison (R136): 0 EQ, 1 NE, 2 LT, 3 LE, 4 GT, 5 GE, 6 LTU, 7 GEU. -/
def condE (t c x y : Nat) : Bool :=
  if isInt t then
    let w := typeWidth t
    let a := toSigned w x
    let b := toSigned w y
    match c with
    | 0 => decide (a = b)
    | 1 => decide (a ≠ b)
    | 2 => decide (a < b)
    | 3 => decide (a ≤ b)
    | 4 => decide (b < a)
    | 5 => decide (b ≤ a)
    | 6 => decide (x < y)
    | _ => decide (y ≤ x)
  else FV.cond c ((fmtOf t).decode x) ((fmtOf t).decode y)

/-- The one bit of a comparison of two registers: on a packed type as `Config.packedCmp` says (DESIGN CHOICE, log 21). -/
def condL (t c : Nat) (a b : Lane) : Bool :=
  if typeWidth t = 32 then condE t c a.toNat b.toNat
  else Config.packedCmp (condE t c (elem 16 0 a.toNat) (elem 16 0 b.toNat)) (condE t c (elem 16 1 a.toNat) (elem 16 1 b.toNat))

/-- The bitwise operations of VLOG and SLOG. -/
def logL (m : Nat) (a b : Lane) : Lane :=
  match m with
  | 0 => a &&& b
  | 1 => a ||| b
  | 2 => a ^^^ b
  | 3 => a &&& ~~~b
  | _ => ~~~a

/-- The shifts: 0 left, 1 logical right, 2 arithmetic right, by b[4:0]. -/
def shiftL (m : Nat) (a b : Lane) : Lane :=
  let n := b.toNat % 32
  match m with
  | 0 => a <<< n
  | 1 => a >>> n
  | _ => a.sshiftRight n

/-- VDOT4: c + Σ of four byte products, modulo 2^32 (R130). -/
def dot4 (unsig : Bool) (a b c : Lane) : Lane :=
  let val (x : Nat) : Int := if unsig then (x : Int) else toSigned 8 x
  let sum : Int := ((List.range 4).map (fun i => val (elem 8 i a.toNat) * val (elem 8 i b.toNat))).foldl (· + ·) 0
  BitVec.ofInt 32 (sum + toSigned 32 c.toNat)

/-- VRCP (0), VRSQ (1), VEXP2 (2), VLOG2 (3) under rounding mode `rnd`: within 1 or 2 ulp (R127, R136), where `Config`
picks. -/
def transL (k rnd : Nat) (a : Lane) : Lane :=
  let v := fp32.decode a.toNat
  BitVec.ofNat 32 (match k with
    | 0 => withinUlp 1 (Config.recipPick a rnd false) v.recip.1 v.recip.2
    | 1 => withinUlp 1 (Config.recipPick a rnd true) v.rsqrt.1 v.rsqrt.2
    | 2 => withinUlp 2 (Config.transPick a rnd false) v.exp2.1 v.exp2.2
    | _ => withinUlp 2 (Config.transPick a rnd true) v.log2.1 v.log2.2)

/-! ### Conversion (R129, R130, R137) -/

/-- An integer as a value. -/
def intFV (i : Int) : FV := .num (decide (i < 0)) i.natAbs 0

/-- A value rounded to an integer. -/
def fvInt (rnd : Nat) (neg : Bool) (m : Nat) (e : Int) : Int :=
  let n := if e < 0 then roundShift rnd neg m (-e).toNat else m * 2 ^ e.toNat
  if neg then -(n : Int) else n

/-- A value scaled by 2^k. -/
def FV.scale (k : Int) : FV → FV
  | .num a m e => .num a m (e + k)
  | v => v

/-- An FP8 element read under a shared scale (R130). -/
def scaledFp8 (t x e : Nat) : FV := if e = 255 then .nan else ((fmtOf t).decode x).scale ((e : Int) - 127)

/-- One element converted from type `a` to type `b`: `sa`, `sb` are the shared scales of the two sides, 127 where
none. SAT to FP32, FP16 or BF16 saturates as R129 says of FP8 (DEDUCED, log 110). -/
def cvtE (a b rnd : Nat) (sat : Bool) (sa sb x : Nat) : Nat :=
  let wb := typeWidth b
  if isInt b then
    let lo : Int := -(2 ^ (wb - 1) : Nat)
    let hi : Int := (2 ^ (wb - 1) : Nat) - 1
    let clamp (i : Int) : Int := max lo (min hi i)
    if isInt a then
      let i := toSigned (typeWidth a) x
      ofSigned wb (if sat then clamp i else i)
    else
      match (if isFp8 a then scaledFp8 a x sa else (fmtOf a).decode x) with
      | .num n m e =>
        let i := fvInt rnd n m e
        if lo ≤ i ∧ i ≤ hi then ofSigned wb i
        else if sat then ofSigned wb (clamp i) else Config.cvtOut b a x % 2 ^ wb
      | .inf n => if sat then ofSigned wb (if n then lo else hi) else Config.cvtOut b a x % 2 ^ wb
      | .nan => Config.cvtOut b a x % 2 ^ wb
  else
    let v := if isInt a then intFV (toSigned (typeWidth a) x)
      else if isFp8 a then scaledFp8 a x sa else (fmtOf a).decode x
    if isFp8 b then
      if sb = 255 then Config.cvtScale255 b x % 256
      else (fmtOf b).encode rnd (if sat then .sat else .nosat) (v.scale (127 - (sb : Int)))
    else (fmtOf b).encode rnd (if sat then .sat else .ieee) v

/-- Byte `g` of a scale register: the scale of threads 8g to 8g + 7 (R130). -/
def scaleOf (sc : Lane) (lane : Nat) : Nat := elem 8 (lane / 8 % 4) sc.toNat

/-- The elements of a list of registers in order. -/
def elemsOf (w : Nat) (rs : List Nat) : List Nat :=
  (rs.map (fun r => (List.range (32 / w)).map (fun i => elem w i r))).flatten

/-! ### Atomics (R148) -/

/-- The new word of an integer atomic: `op` 0 ADD, 1 MIN, 2 MAX, 3 AND, 4 OR, 5 XOR, 6 EXCH, 7 CAS; `b` is what
CAS writes. -/
def atomInt (w op : Nat) (signed : Bool) (old a b : Nat) : Nat :=
  let less := if signed then decide (toSigned w a < toSigned w old) else decide (a < old)
  match op with
  | 0 => (old + a) % 2 ^ w
  | 1 => if less then a else old
  | 2 => if less then old else a
  | 3 => old &&& a
  | 4 => old ||| a
  | 5 => old ^^^ a
  | 6 => a
  | _ => if old = a then b else old

/-- The new word of an FP32 atomic: 0 ADD, 1 MIN, 2 MAX. -/
def atomFp (op old a : Nat) : Nat :=
  match op with
  | 0 => addE 0 0 old a
  | 1 => minMaxE 0 false false old a
  | _ => minMaxE 0 true false old a

/-- An atomic of the slice interface (Table UC-3's rows): `op` 0–7 the integer ones, 8–10 the FP32 ones. -/
def atomWord (op : Nat) (wide signed : Bool) (old a b : Nat) : Nat :=
  if op < 8 then atomInt (if wide then 64 else 32) op signed old a b else atomFp (op - 8) old a

/-- An atomic on the word at byte `off` of a sector. -/
def atomSector (off op : Nat) (wide signed : Bool) (a b : Nat) (x : SectorData) : SectorData :=
  let n := if wide then 64 else 32
  let old := x.toNat / 2 ^ (off * 8) % 2 ^ n
  let new := atomWord op wide signed old a b
  BitVec.ofNat 256 (x.toNat - old * 2 ^ (off * 8) + new % 2 ^ n * 2 ^ (off * 8))

/-- The word at byte `off` of a sector. -/
def sectorWord (off n : Nat) (x : SectorData) : Nat := x.toNat / 2 ^ (off * 8) % 2 ^ (8 * n)

/-! ### Reductions (Table MESH-5, R311–R314) -/

/-- FMAX32 and FMIN32: any NaN gives NaN; +0 above −0. -/
def redMinMax (isMax : Bool) (x y : Nat) : Nat :=
  let a := fp32.decode x
  let b := fp32.decode y
  if a.isNan || b.isNan then fp32.nan
  else
    let less := decide (FV.cmp a b < 0) || (decide (FV.cmp a b = 0) && a.isNeg && !b.isNeg)
    if xor less isMax then x else y

/-- Two narrow words combined. -/
def redNarrow (op x y : Nat) : Nat :=
  match op with
  | 0 => addE 0 0 x y
  | 1 => addE 0 0 x y
  | 2 => (x + y) % 2 ^ 32
  | 3 => redMinMax true x y
  | _ => redMinMax false x y

/-- Two long words combined: the integers add, the flags join (R314). -/
def redLong (x y : BitVec 307) : BitVec 307 :=
  let v := (x.toNat % 2 ^ 304 + y.toNat % 2 ^ 304) % 2 ^ 304
  BitVec.ofNat 307 (v + (x.toNat / 2 ^ 304 ||| y.toNat / 2 ^ 304) * 2 ^ 304)

/-- An FP32 value as a long word, exactly (R314). -/
def toLong (x : Nat) : BitVec 307 :=
  match fp32.decode x with
  | .nan => BitVec.ofNat 307 (2 ^ 304)
  | .inf a => BitVec.ofNat 307 (if a then 2 ^ 306 else 2 ^ 305)
  | .num a m e =>
    let v := m * 2 ^ (e + 149).toNat
    BitVec.ofNat 307 (if a then (2 ^ 304 - v) % 2 ^ 304 else v)

/-- A BF16 word widened exactly to FP32 (R311). -/
def widenBf16 (x : Nat) : Nat := x % 2 ^ 16 * 2 ^ 16

/-- The long form added to a memory word and rounded once; an exact zero gives +0 (R317). -/
def longResult (mem : Nat) (x : BitVec 307) : Nat :=
  let nan := x.getLsbD 304
  let pinf := x.getLsbD 305
  let ninf := x.getLsbD 306
  if nan || (pinf && ninf) then fp32.nan
  else if pinf then fp32.inf false
  else if ninf then fp32.inf true
  else
    let i := toSigned 304 (x.toNat % 2 ^ 304)
    let r := fp32.encode 0 .ieee (FV.add 0 (.num (decide (i < 0)) i.natAbs (-149)) (fp32.decode mem))
    match fp32.decode r with
    | .num _ 0 _ => 0
    | _ => r

end Sys2Proof.Machine
end

