-- ==== Sys2Proof/Machine/Recorder.lean ====
section
/-! DEFINITION. The music box (chapter 15): how a unit hands over a record, how the engine accepts it into
staging and drains it into the ring, and the rack store of the RM. -/

namespace Sys2Proof.Machine

/-! ### Payloads and record bytes -/

/-- A payload field that stays in a record of a sealed partition (R539). -/
def pf (size val : Nat) : PF := ⟨size, val, false⟩
/-- An address, value or count field: zero in a record of a sealed partition (R539). Which fields are such is the model's
reading (DEDUCED, log 127). -/
def pa_ (size val : Nat) : PF := ⟨size, val, true⟩

/-- The payload's bytes, without what R539 hides. -/
def payloadBytes (sealed_ : Bool) : List PF → List Byte
  | [] => []
  | f :: l => leBytes f.size (if sealed_ && f.hide then 0 else f.val) ++ payloadBytes sealed_ l

/-- LEN of a record with a payload of `n` bytes (R534). -/
def recLen (n : Nat) : Nat := max 32 ((n + 28 + 7) / 8 * 8)

/-- A record's bytes (Table FLT-3): SYNC, LEN, INFO, SEQ, RTIME, payload, zero fill, CRC. -/
def recBytes (len typ source flags seq rtime : Nat) (payload : List Byte) : List Byte :=
  let body := leBytes 2 0xB0A7 ++ leBytes 2 len ++ leBytes 4 (typ + source * 0x1000 + flags * 0x1000000)
    ++ leBytes 2 seq ++ leBytes 6 0 ++ leBytes 8 rtime ++ payload
    ++ List.replicate (len - 28 - payload.length) 0
  body ++ leBytes 4 (crc32c body)

/-! ### Handing over -/

/-- Records that a unit of die `d` holds for the engine (R545). -/
def unitWaiting (s : State) (d unit : Nat) : Nat :=
  (s.recs.waiting.filter (fun w => Nat.beq w.die d && Nat.beq w.unit unit && !w.dropped)).length

/-- A unit of die `d` hands over a record (R532); a unit that holds 8 drops records of classes 0 and 1
(R545), and the dropped record still takes its turn for a SEQ. -/
def emit (d unit typ cls : Nat) (sealed_ : Bool) (payload : List PF) (s : State) : State :=
  let drop := decide (8 ≤ unitWaiting s d unit) && decide (cls ≤ 1)
  let w : WaitRec := ⟨d, unit, typ, cls, sealed_, s.rtime d, payloadBytes sealed_ payload,
    s.rd d Reg.DC_RTIME_STATUS_ALIGNED == 0, drop⟩
  { s with recs := { s.recs with waiting := s.recs.waiting ++ [w] } }

/-- The SEQ that the next record handed over on die `d` gets: SEQs go out in the order of hand-over. -/
def nextSeq (s : State) (d : Nat) : Nat :=
  (s.rd d Reg.REC_SEQ + (s.recs.waiting.filter (fun w => Nat.beq w.die d)).length) % 65536

/-- One second in RTIME. -/
def oneSecond : Nat := 1000000000

/-- A correctable event (R540): at most one CORRECTABLE record per second for each pair of unit and kind,
carrying the count since the last one. `code` is the kind as the record shows it. -/
def correctableAs (d unit kind code index : Nat) (s : State) : State :=
  let k := (d * 64 + unit) * 8 + kind
  let now := s.rtime d
  match s.recs.corrAt.find? (fun e => Nat.beq e.1 k) with
  | none =>
    emit d unit 0x035 1 false [pf 1 code, pf 1 0, pf 2 index, pa_ 4 1]
      { s with recs := { s.recs with corrAt := s.recs.corrAt ++ [(k, now, 0)] } }
  | some (_, last, n) =>
    if last + oneSecond ≤ now then
      emit d unit 0x035 1 false [pf 1 code, pf 1 0, pf 2 index, pa_ 4 (n + 1)]
        { s with recs := { s.recs with corrAt := putWhere (fun e => Nat.beq e.1 k) (k, now, 0) s.recs.corrAt } }
    else
      { s with recs := { s.recs with corrAt := putWhere (fun e => Nat.beq e.1 k) (k, last, n + 1) s.recs.corrAt } }

/-- A correctable event of a kind that CORRECTABLE names (Table FLT-6). -/
def correctable (d unit kind index : Nat) (s : State) : State := correctableAs d unit kind kind index s

/-! ### The engine -/

/-- Bytes of die `d` in staging (REC_STAGE.BYTES). -/
def stagedBytes (s : State) (d : Nat) : Nat :=
  ((s.recs.staging.filter (fun r => Nat.beq r.die d)).map (fun r => r.bytes.length)).foldl (· + ·) 0

/-- Count a dropped record (R545): it has consumed SEQ `seq`. -/
def recDrop (d seq : Nat) (s : State) : State :=
  let owed := match s.recs.dropOwed.find? (fun e => Nat.beq e.1 d) with
    | some (_, n, f) => (d, n + 1, f)
    | none => (d, 1, seq)
  let s := s.count d Reg.REC_DROPPED 1
  { s with recs := { s.recs with
      dropFlag := addNat s.recs.dropFlag d,
      dropOwed := putWhere (fun e => Nat.beq e.1 d) owed s.recs.dropOwed } }

/-- UNQUALIFIED and UNALIGNED of Table FLT-4 as a record of die `d` gets them. -/
def baseFlags (s : State) (d : Nat) : Nat :=
  (if s.boot.unqualified then 1 else 0) + (if s.rd d Reg.DC_RTIME_STATUS_ALIGNED = 0 then 2 else 0)

/-- The flags of Table FLT-4. A record handed over before alignment keeps its UNALIGNED (R45). -/
def recFlags (s : State) (w : WaitRec) : Nat :=
  (if s.boot.unqualified then 1 else 0)
    + (if w.unaligned || decide (s.rd w.die Reg.DC_RTIME_STATUS_ALIGNED = 0) then 2 else 0)
    + (if s.recs.dropFlag.contains w.die then 4 else 0)
    + (if w.sealed_ then 8 else 0) + w.cls * 16

/-- The records waiting on other dies, and behind the first of die `d`. -/
def dropFirst (d : Nat) : List WaitRec → List WaitRec
  | [] => []
  | w :: l => if w.die = d then l else w :: dropFirst d l

/-- The engine of die `d` takes the record that was handed over first (R532): it assigns SEQ, sets the
flags, computes the CRC and places the record in staging, or drops it at the bounds of Table FLT-7. -/
def acceptRecord (d : Nat) (s : State) : State :=
  match s.recs.waiting.find? (fun w => Nat.beq w.die d) with
  | none => s
  | some w =>
    let seq := s.rd d Reg.REC_SEQ
    let len := recLen w.payload.length
    let n := stagedBytes s d
    let s1 := { s with recs := { s.recs with waiting := dropFirst d s.recs.waiting } }
    let s1 := s1.wr d Reg.REC_SEQ (seq + 1)
    if w.dropped || decide (0x40000 < n + len) || (decide (0x30000 < n) && decide (w.cls ≤ 1)) then recDrop d seq s1
    else
      let b := recBytes len w.typ (d * 64 + w.unit) (recFlags s w) seq w.rtime w.payload
      { s1 with recs := { s1.recs with
          staging := s1.recs.staging ++ [⟨d, b⟩],
          dropFlag := delNat s1.recs.dropFlag d } }

/-! ### Rings -/

/-- The key of a ring byte; `d` = 64 is the rack store. -/
def ringKey (d off : Nat) : Nat := d * 0x10000000000 + off

/-- Bytes put into a ring from offset `off` on, modulo its size. -/
def ringPut (d size off : Nat) : List Byte → SMap Byte → SMap Byte
  | [], m => m
  | b :: l, m => ringPut d size (off + 1) l (SMap.set 0 m (ringKey d (off % size)) b)

/-- `n` ring bytes from offset `off` on, modulo the ring's size. -/
def ringGet (m : SMap Byte) (d size off : Nat) : Nat → List Byte
  | 0 => []
  | n + 1 => SMap.get 0 m (ringKey d (off % size)) :: ringGet m d size (off + 1) n

/-- A number of `n` ring bytes at offset `off`. -/
def ringLe (m : SMap Byte) (d size off n : Nat) : Nat := ofLe (ringGet m d size off n)

/-- R543: the LEN of the record that a reader accepts at offset `off`: 8-byte-aligned, SYNC, LEN in range, a multiple of 8
and short of the ring's end, and the CRC. -/
def recordAt (m : SMap Byte) (d size off : Nat) : Option Nat :=
  let o := off % size
  let len := ringLe m d size (o + 2) 2
  if o % 8 = 0 && ringLe m d size o 2 = 0xB0A7 && 32 ≤ len && len ≤ 4096 && len % 8 = 0 && o + len ≤ size
      && crc32c (ringGet m d size o (len - 4)) = ringLe m d size (o + len - 4) 4 then some len else none

/-- The records that a reader finds from one end of the ring to the other (R543), as offset and LEN. An accepted record
must begin with the low byte of SYNC, so the offsets tried are those where the ring holds it; `next` is the end of the last
record accepted. -/
def scanRing (m : SMap Byte) (d size : Nat) : Nat → List Nat → List (Nat × Nat)
  | _, [] => []
  | next, o :: l =>
    if o < next then scanRing m d size next l
    else
      match recordAt m d size o with
      | some len => (o, len) :: scanRing m d size (o + len) l
      | none => scanRing m d size next l

/-- Where SYNC may begin in the ring of die `d`, ascending. -/
def syncOffsets (m : SMap Byte) (d size : Nat) : List Nat :=
  (m.filter (fun e => Nat.ble (ringKey d 0) e.1 && Nat.blt e.1 (ringKey d size) && e.2 == 0xA7)).map (fun e => e.1 - ringKey d 0)

/-- SEQ of the record at an offset; none for a PAD, which takes no SEQ of its own. -/
def seqAt (m : SMap Byte) (d size o : Nat) : Option Nat :=
  if ringLe m d size (o + 4) 2 % 4096 = 0 then none else some (ringLe m d size (o + 8) 2)

/-- The records up to the newest one, whose SEQ is followed by an older one or by none (R553). SEQs are compared modulo
2^16, as R97 compares incarnations (DESIGN CHOICE, log 96). -/
def uptoNewest (m : SMap Byte) (d size : Nat) : Option Nat → List (Nat × Nat) → List (Nat × Nat) × List (Nat × Nat)
  | _, [] => ([], [])
  | last, r :: l =>
    let q := seqAt m d size r.1
    let older := match last, q with
      | some a, some b => !Nat.blt 0 ((b + 65536 - a) % 65536) || !Nat.blt ((b + 65536 - a) % 65536) 0x8000
      | _, _ => false
    if older then ([], r :: l)
    else
      let x := uptoNewest m d size (if q.isSome then q else last) l
      (r :: x.1, x.2)

/-- What the scan of R553 finds: REC_WR, REC_OLDEST and the next SEQ. The free-running counts start again at the least
values that give the ring's offsets (DESIGN CHOICE, log 96). -/
structure RingScan where
  wr : Nat
  oldest : Nat
  seq : Nat
  deriving DecidableEq, Repr

def ringScan (m : SMap Byte) (d size : Nat) : RingScan :=
  let x := uptoNewest m d size none (scanRing m d size 0 (syncOffsets m d size))
  let seq := match (x.1.filterMap (fun r => seqAt m d size r.1)).getLast? with
    | some q => (q + 1) % 65536
    | none => 0
  match x.1.getLast?, x.2.head? with
  | some n, some o => ⟨size + n.1 + n.2, o.1, seq⟩
  | some n, none => ⟨n.1 + n.2, ((x.1.head?).map (·.1)).getD 0, seq⟩
  | none, _ => ⟨0, 0, 0⟩

/-- REC_OLDEST moved past every record that a write up to `wr` overwrites (R542). A gap too short for a
record, before the ring's end, is passed whole. -/
def pastOverwritten (m : SMap Byte) (d size wr : Nat) : Nat → Nat → Nat
  | 0, old => old
  | fuel + 1, old =>
    if wr - old ≤ size then old
    else
      let len := ofLe (ringGet m d size (old + 2) 2)
      let step := if len < 32 then size - old % size else len
      pastOverwritten m d size wr fuel (old + step)

/-- Where a record of `len` bytes goes: the PAD bytes before it, if it would cross the ring's end (R542). -/
def ringPad (size wr len source flags seq rtime : Nat) : List Byte :=
  let room := size - wr % size
  if len ≤ room then []
  else if room < 32 then List.replicate room 0
  else recBytes room 0 source flags seq rtime []

/-- The ring's size in bytes (REC_RING_SIZE). -/
def ringSize (s : State) (d : Nat) : Nat := s.rd d Reg.REC_RING_SIZE * 0x100000

/-- Records of die `d` without the first in staging. -/
def dropStaged (d : Nat) : List StagedRec → List StagedRec
  | [] => []
  | r :: l => if r.die = d then l else r :: dropStaged d l

/-- The oldest staged record of die `d` goes into its ring (R532, R542), once RING_UP is set (R89). When
staging falls below 128 KiB with records dropped, the engine writes one REC-DROPPED record (R545). -/
def drainRecord (d : Nat) (s : State) : State :=
  match s.recs.staging.find? (fun r => Nat.beq r.die d) with
  | none => s
  | some r =>
    if s.rd d Reg.REC_STAGE_RING_UP = 1 then
      let size := ringSize s d
      let wr := s.rd d Reg.REC_WR
      let all := ringPad size wr r.bytes.length (d * 64) (baseFlags s d) (s.rd d Reg.REC_SEQ) (s.rtime d) ++ r.bytes
      let old := pastOverwritten s.recs.ring d size (wr + all.length) (all.length / 32 + 2) (s.rd d Reg.REC_OLDEST)
      let s := { s with recs := { s.recs with
        ring := ringPut d size wr all s.recs.ring,
        staging := dropStaged d s.recs.staging } }
      let s := ((s.wr d Reg.REC_WR (wr + all.length)).wr d Reg.REC_OLDEST old).count d Reg.REC_WRITTEN 1
      match s.recs.dropOwed.find? (fun e => Nat.beq e.1 d) with
      | some (_, n, f) =>
        if stagedBytes s d < 0x20000 then
          emit d 0 0x0F0 0 false [pa_ 4 n, pf 2 f, pf 2 0]
            { s with recs := { s.recs with dropOwed := s.recs.dropOwed.filter (fun e => !(Nat.beq e.1 d)) } }
        else s
      | none => s
    else s

/-- Apply a state change `n` times. -/
def times : Nat → (State → State) → State → State
  | 0, _, s => s
  | n + 1, f, s => times n f (f s)

/-- Everything handed over and staged on die `d` goes into its ring, before a scrub (Table FLT-8). -/
def drainAll (d : Nat) (s : State) : State :=
  let s := times s.recs.waiting.length (acceptRecord d) s
  times s.recs.staging.length (drainRecord d) s

/-- Staging and the waiting records of die `d` lost (Table FLT-8). -/
def loseStaging (d : Nat) (s : State) : State :=
  { s with recs := { s.recs with
      waiting := s.recs.waiting.filter (fun w => !(Nat.beq w.die d)),
      staging := s.recs.staging.filter (fun r => !(Nat.beq r.die d)),
      dropFlag := delNat s.recs.dropFlag d,
      dropOwed := s.recs.dropOwed.filter (fun e => !(Nat.beq e.1 d)) } }

/-! ### The rack store (R533) -/

/-- Size of the rack store. -/
def rackSize : Nat := 0x80000000

/-- Bytes of one record put into the rack store (R533, R534). -/
def rackPut (b : List Byte) (s : State) : State :=
  let wr := s.recs.rackWr
  let flags := if s.boot.unqualified then 1 else 0
  let all := ringPad rackSize wr b.length 0xFFF flags s.recs.rackSeq s.recs.rmRtime ++ b
  let old := pastOverwritten s.recs.ring 64 rackSize (wr + all.length) (all.length / 32 + 2) s.recs.rackOldest
  { s with recs := { s.recs with
      ring := ringPut 64 rackSize wr all s.recs.ring, rackWr := wr + all.length, rackOldest := old } }

/-- The RM writes a record of its own, or of a spine switch (R533): SOURCE 0xFFF, 0xFFD, 0xFFE. -/
def rackEmit (source typ cls : Nat) (sealed_ : Bool) (payload : List PF) (s : State) : State :=
  let bytes := payloadBytes sealed_ payload
  let flags := (if s.boot.unqualified then 1 else 0) + (if sealed_ then 8 else 0) + cls * 16
  let b := recBytes (recLen bytes.length) typ source flags s.recs.rackSeq s.recs.rmRtime bytes
  let s := rackPut b s
  { s with recs := { s.recs with rackSeq := (s.recs.rackSeq + 1) % 65536 } }

/-- The RM has read the ring of die `d` up to offset `off`. -/
def setCopied (d off : Nat) (s : State) : State :=
  { s with recs := { s.recs with copied := SMap.set 0 s.recs.copied d off } }

/-- The records of die `d`'s ring that the RM has not copied (R554), read by R543: one accepted, or 8 bytes passed over, then
the rest. -/
def copyRecords (d : Nat) : Nat → State → State
  | 0, s => s
  | fuel + 1, s =>
    let size := ringSize s d
    let at_ := max (SMap.get 0 s.recs.copied d) (s.rd d Reg.REC_OLDEST)
    if s.rd d Reg.REC_WR ≤ at_ then s
    else
      match recordAt s.recs.ring d size at_ with
      | some len => copyRecords d fuel (setCopied d (at_ + len) (rackPut (ringGet s.recs.ring d size (at_ % size) len) s))
      | none => copyRecords d fuel (setCopied d (at_ + 8) s)

/-- R554: the RM copies every record of die `d` that its rack store does not hold. -/
def rmCopyRing (d : Nat) (s : State) : State :=
  copyRecords d ((s.rd d Reg.REC_WR - s.rd d Reg.REC_OLDEST) / 8 + 1) s

/-! ### Commands of the recorder -/

/-- RECORD_ACCEPT (R532, R545): the engine of die `d` accepts one record, while its clocks run (R41). -/
def execRecordAccept (d : Nat) (s : State) : Host.Outcome State Fault Refusal := 
  onDie s d (guarded (clocked · d) (acceptRecord d))

/-- RECORD_DRAIN (R532, R542): the oldest staged record of die `d` goes into the ring. -/
def execRecordDrain (d : Nat) (s : State) : Host.Outcome State Fault Refusal := 
  onDie s d (guarded (clocked · d) (drainRecord d))

/-- The effect of a REC_TEST write: the field takes the value and a TEST record carries it (Table FLT-10). -/
def recTest (d : Nat) (v : BitVec 32) (s : State) : State :=
  emit d 0 0x001 0 false [pa_ 4 v.toNat] (s.wr d Reg.REC_TEST v.toNat)

/-- REC_TEST (Table FLT-10). -/
def execRecTest (d : Nat) (_src : Source) (v : BitVec 32) (s : State) : Host.Outcome State Fault Refusal :=
  onDie s d (guarded (clocked · d) (recTest d v))

/-- REC_FAIL_CLEAR.CLUSTERS (Table FLT-10): REC_FAIL_CLUSTER clears at the next commit. -/
def recFailClearClusters (d : Nat) (s : State) : State := s.wr d Reg.REC_FAIL_CLEAR_CLUSTERS 1
/-- REC_FAIL_CLEAR.CHANS (Table FLT-10): the run-time channel failures clear; training failures stay. -/
def recFailClearChans (d : Nat) (s : State) : State := s.wr d Reg.REC_FAIL_CLEAR_CHANS 1
/-- REC_FAIL_CLEAR.HALVES (Table FLT-10). -/
def recFailClearHalves (d : Nat) (s : State) : State := s.wr d Reg.REC_FAIL_CLEAR_HALVES 1

def execRecFailClearClusters (d : Nat) (_src : Source) (s : State) : Host.Outcome State Fault Refusal :=
  onDie s d (recFailClearClusters d)
def execRecFailClearChans (d : Nat) (_src : Source) (s : State) : Host.Outcome State Fault Refusal :=
  onDie s d (recFailClearChans d)
def execRecFailClearHalves (d : Nat) (_src : Source) (s : State) : Host.Outcome State Fault Refusal :=
  onDie s d (recFailClearHalves d)

/-- The `i`th staged record of die `d` taken out. -/
def dropNthStaged (d : Nat) : Nat → List StagedRec → List StagedRec
  | _, [] => []
  | i, r :: l =>
    if r.die = d then (if i = 0 then l else r :: dropNthStaged d (i - 1) l) else r :: dropNthStaged d i l

/-- STAGING_SRAM_ERROR (R551): the affected record is discarded and counted in REC_DROPPED. -/
def stagingSramError (d i : Nat) (s : State) : State :=
  if i < (s.recs.staging.filter (fun r => Nat.beq r.die d)).length then
    { s with recs := { s.recs with staging := dropNthStaged d i s.recs.staging } }.count d Reg.REC_DROPPED 1
  else s

def execStagingSramError (d i : Nat) (s : State) : Host.Outcome State Fault Refusal :=
  onDie s d (guarded (clocked · d) (stagingSramError d i))

end Sys2Proof.Machine
end

