-- ==== Sys2Proof/Machine/Slices.lean ====
section
/-! DEFINITION. The unified cache and the directories as data (chapters 6 and 7): the home channel of an
address, HBM, the ways of a set, directory entries, and an access carried through to the state that Tables
COH-5 and COH-6 end in when no other transaction meets it. -/

namespace Sys2Proof.Machine

/-! ### Placement (R211–R216) -/

/-- Active channels of die `d`, ascending (UC_ACTIVE). -/
def activeChans (s : State) (d : Nat) : List Nat := bitsOf 24 (s.rd d Reg.UC_ACTIVE)

/-- Active channels of one half of die `d`. -/
def activeHalf (s : State) (d side : Nat) : List Nat :=
  (activeChans s d).filter (fun n => Nat.beq (chanSide n) side)

/-- The fold F of R211. -/
def fold8 (pa : Nat) : Nat := bits pa 14 7 ^^^ bits pa 22 15 ^^^ bits pa 30 23 ^^^ bits pa 38 31 ^^^ bits pa 45 39

/-- The channel hash H(A, L) (R211); none where L is empty. -/
def chanHash (pa : Nat) (l : List Nat) : Option Nat :=
  let f := fold8 pa
  let g := bits pa 45 15
  let n := l.length
  l[(f % n + g % n) % n]?

/-- FOLD6 (R213). -/
def fold6 (pa : Nat) : Nat :=
  bits pa 18 13 ^^^ bits pa 24 19 ^^^ bits pa 30 25 ^^^ bits pa 36 31 ^^^ bits pa 42 37 ^^^ bits pa 45 43

/-- The cases of Table UC-2. -/
inductive Placing where
  | hash | joinedSplit | split
  deriving DecidableEq, Repr

/-- The case that die `d` is in. A die with one half unassigned is placed as a split die (DEDUCED, log 12). -/
def placing (s : State) (d : Nat) : Placing :=
  if s.rd d Reg.UC_MODE_JOINED = 1 then
    if s.rd d Reg.UC_MODE_SLICING_W = 0 then .hash else .joinedSplit
  else .split

/-- The half of the line in the split cases of Table UC-2. -/
def splitSide (p : Placing) (pa : Nat) : Nat :=
  match p with
  | .hash => 0
  | .joinedSplit => if xor (pa.testBit 12) (parityOf 6 (fold6 pa)) then 1 else 0
  | .split => if pa.testBit 45 then 1 else 0

/-- L of R211 for the line (Table UC-2). -/
def placeList (s : State) (pa : Nat) : List Nat :=
  let d := homeDie pa
  match placing s d with
  | .hash => activeChans s d
  | p => activeHalf s d (splitSide p pa)

/-- The home channel of a physical address (R211, R213). -/
def homeChan (s : State) (pa : Nat) : Option Nat :=
  match placing s (homeDie pa) with
  | .split => chanHash (pa - (if pa.testBit 45 then 2 ^ 45 else 0)) (placeList s pa)
  | _ => chanHash pa (placeList s pa)

/-- 8 GiB, one channel's share of a stack (Table MAC-3). -/
def chanBytes : Nat := 0x200000000

/-- Whether the address lies in the backed range of Table UC-2. -/
def backed (s : State) (pa : Nat) : Bool :=
  let d := homeDie pa
  let a := bits pa 45 0
  let nW := (activeHalf s d 0).length
  let nE := (activeHalf s d 1).length
  match placing s d with
  | .hash => Nat.blt a ((nW + nE) * chanBytes)
  | .joinedSplit => Nat.blt a (2 * min nW nE * chanBytes)
  | .split => Nat.blt (bits pa 44 0) ((if pa.testBit 45 then nE else nW) * chanBytes)

/-- The half whose partition owns the address: the half of its home channel, or of Table UC-2 where none. -/
def homeSide (s : State) (pa : Nat) : Nat :=
  match homeChan s pa with
  | some n => chanSide n
  | none => splitSide (placing s (homeDie pa)) pa

/-- The partition that the address is homed in. -/
def homePart (s : State) (pa : Nat) : Option Nat := halfPart s (homeDie pa) (homeSide s pa)

/-- The slice of die `d` that holds `la` as a guest line, or has it on its way in or out. -/
def guestHolder (s : State) (d la : Nat) : Option Nat :=
  ((s.slc.lines ++ s.slc.puts).find? (fun l => Nat.beq l.die d && Nat.beq l.la la && l.st != .home)).map (·.slice)

/-- The slice of die `d` that caches the guest line of `pa` for a requester in half `side` (R215, R216). A line that a slice
of the die already holds stays there, so that the die has one point of contact for it (R209; DESIGN CHOICE, log 29). -/
def guestSlice (s : State) (d side pa : Nat) : Option Nat :=
  match guestHolder s d (pa / 128), placing s d with
  | some n, _ => some n
  | none, .hash => chanHash pa (activeChans s d)
  | none, _ => chanHash pa (activeHalf s d side)

/-- The slice of die `d` that serves an access to `pa` from half `side`: the home slice or the guest slice. -/
def sliceFor (s : State) (d side pa : Nat) : Option Nat :=
  if homeDie pa = d then homeChan s pa else guestSlice s d side pa

/-- The set of a line (R207). -/
def lineSet (la : Nat) : Nat := bits la 12 0 ^^^ bits la 25 13

/-! ### HBM (R214, R219, R220) -/

/-- What a byte of HBM that nothing has written reads as (DESIGN CHOICE, log 2). -/
def hbmBlank : Byte := 0

/-- The canonical form of a memory: addresses strictly rising, no entry equal to the blank byte. -/
def Memory.wf (m : List Host.Cell) : Bool := SMap.wf hbmBlank m

/-- The line of its channel that an address names under the placement in force (R214: internal to the Moarin; DESIGN CHOICE,
log 113): the groups G of 256 lines in turn, and in each the lines that the hash gives the channel. -/
def hbmLine (s : State) (pa : Nat) : Nat :=
  let pa := match placing s (homeDie pa) with
    | .split => pa - (if pa.testBit 45 then 2 ^ 45 else 0)
    | _ => pa
  let n := (placeList s pa).length
  bits pa 45 15 * (255 / n + 1) + fold8 pa / n

/-- The key of a byte of HBM: its channel, and its location there. -/
def hbmKey (s : State) (pa : Nat) : Nat :=
  (homeDie pa * 32 + (homeChan s pa).getD 31) * 2 ^ 40 + hbmLine s pa * 128 + pa % 128

/-- The die that a key of HBM belongs to. -/
def keyDie (k : Nat) : Nat := k / 2 ^ 45

/-- `n` bytes from key `k` on. -/
def hbmBytes (m : List Host.Cell) (k : Nat) : Nat → List Byte
  | 0 => []
  | n + 1 => SMap.get hbmBlank m k :: hbmBytes m (k + 1) n

/-- Bytes put from key `k` on. -/
def hbmPut (k : Nat) : List Byte → List Host.Cell → List Host.Cell
  | [], m => m
  | b :: l, m => hbmPut (k + 1) l (SMap.set hbmBlank m k b)

/-- A sector of HBM at sector-aligned `pa`, and whether it is poisoned. -/
def hbmRead (s : State) (pa : Nat) : SectorData × Bool :=
  let k := hbmKey s (pa / 32 * 32)
  (BitVec.ofNat 256 (ofLe (hbmBytes s.slc.hbm k 32)), s.slc.poison.contains (k / 32))

/-- A sector written to HBM with its poison bit (R220). -/
def hbmWrite (pa : Nat) (v : SectorData) (poison : Bool) (s : State) : State :=
  let k := hbmKey s (pa / 32 * 32)
  { s with slc := { s.slc with
      hbm := hbmPut k (leBytes 32 v.toNat) s.slc.hbm,
      poison := if poison then addNat s.slc.poison (k / 32) else delNat s.slc.poison (k / 32) } }

/-- Bytes of `v` under `mask` put over `old`. -/
def mergeBytes (mask : BitVec 32) (v old : SectorData) : SectorData :=
  let m : Nat := (List.range 32).foldl (fun a i => if mask.getLsbD i then a + 255 * 256 ^ i else a) 0
  BitVec.ofNat 256 ((v.toNat &&& m) ||| (old.toNat - (old.toNat &&& m)))

/-- A sector after a write (R162, R219): a write of all 32 bytes clears its poison, a partial one keeps it. -/
def wroteSector (mask : BitVec 32) (v : SectorData) (x : Sector) : Sector :=
  if mask = BitVec.allOnes 32 then ⟨true, true, false, 0, v⟩
  else ⟨true, true, x.poison, 0, mergeBytes mask v x.data⟩

/-- The sector after its fill (R162, R237): a valid sector and the bytes of partial writes stay; none of them has cleared
the poison. -/
def filled (v : SectorData) (poison : Bool) (x : Sector) : Sector :=
  if x.valid then x else ⟨true, x.dirty, poison, 0, mergeBytes x.bytesOk x.data v⟩

/-! ### Lines and ways (R206–R208, R221–R224) -/

/-- A sector with nothing in it. -/
def noSector : Sector := ⟨false, false, false, 0, 0⟩

/-- The line `la` that slice `n` of die `d` holds. -/
def findLine (s : State) (d n la : Nat) : Option Line :=
  s.slc.lines.find? (fun l => Nat.beq l.die d && Nat.beq l.slice n && Nat.beq l.la la)

/-- The line in the slice's put buffer. -/
def findPut (s : State) (d n la : Nat) : Option Line :=
  s.slc.puts.find? (fun l => Nat.beq l.die d && Nat.beq l.slice n && Nat.beq l.la la)

def sameLine (a b : Line) : Bool := Nat.beq a.die b.die && Nat.beq a.slice b.slice && Nat.beq a.la b.la

/-- The line put in its place. -/
def putLine (l : Line) (s : State) : State :=
  { s with slc := { s.slc with lines := putWhere (sameLine l) l s.slc.lines } }

/-- The put-buffer entry put in its place. -/
def putPut (l : Line) (s : State) : State :=
  { s with slc := { s.slc with puts := putWhere (sameLine l) l s.slc.puts } }

def dropPut (l : Line) (s : State) : State :=
  { s with slc := { s.slc with puts := s.slc.puts.filter (fun x => !(sameLine l x)) } }

/-- Whether two lines compete for the ways of one set; a line with way 16 has no way. -/
def sameSet (a b : Line) : Bool :=
  Nat.beq a.die b.die && Nat.beq a.slice b.slice && Nat.beq (lineSet a.la) (lineSet b.la) && Nat.blt b.way 16

/-- The line taken out; the ranks above it close up. -/
def dropLine (l : Line) (s : State) : State :=
  let lines := (s.slc.lines.filter (fun x => !(sameLine l x))).map
    (fun x => if sameSet l x && Nat.blt l.way 16 && Nat.blt l.rank x.rank then { x with rank := x.rank - 1 } else x)
  { s with slc := { s.slc with lines := lines } }

/-- The line made the most recently used of its set (rank 0). -/
def touchLine (l : Line) (s : State) : State :=
  { s with slc := { s.slc with lines := s.slc.lines.map (fun x =>
      if sameLine l x then { x with rank := 0 }
      else if sameSet l x && Nat.blt x.rank l.rank then { x with rank := x.rank + 1 } else x) } }

/-- Lines that hold a way of the set of `la`. -/
def setLines (s : State) (d n la : Nat) : List Line :=
  s.slc.lines.filter (fun l => Nat.beq l.die d && Nat.beq l.slice n && Nat.beq (lineSet l.la) (lineSet la) && Nat.blt l.way 16)

/-- Whether the line has an MSHR outstanding (R223). -/
def hasMshr (s : State) (d n la : Nat) : Bool :=
  s.slc.mshrs.any (fun m => Nat.beq m.die d && Nat.beq m.slice n && Nat.beq m.la la)

/-- The line of highest rank among the candidates. -/
def lruOf : List Line → Option Line
  | [] => none
  | l :: t =>
    match lruOf t with
    | some b => if b.rank ≤ l.rank then some l else some b
    | none => some l

/-- The partition that holds half `chanSide n` of die `d`. -/
def slicePart (s : State) (d n : Nat) : Option Nat := halfPart s d (chanSide n)

/-- GUEST_WAYS in force at a slice (R210, R222). -/
def guestQuota (s : State) (d n : Nat) : Nat :=
  match slicePart s d n with
  | some p => guestWays s p
  | none => 0

/-- A line that may be a victim (R223). -/
def evictable (s : State) (l : Line) : Bool :=
  !l.pin && !l.keep && !hasMshr s l.die l.slice l.la
    && (match l.st with | .home => true | .s => true | .o => true | .m => true | _ => false)

/-- What R223 chooses for a fill: a free way, or a victim, or nothing. A guest fill at the quota replaces a
guest line (Table UC-4, DEDUCED, log 13). -/
def chooseWay (s : State) (d n la : Nat) (guest : Bool) : Option (Nat ⊕ Line) :=
  let set := setLines s d n la
  let guests := set.filter (fun l => l.st ≠ .home)
  if guest && decide (guestQuota s d n ≤ guests.length) then
    (lruOf (guests.filter (evictable s))).map .inr
  else
    match (List.range 16).find? (fun w => set.all (fun l => !(Nat.beq l.way w))) with
    | some w => some (.inl w)
    | none => (lruOf (set.filter (evictable s))).map .inr

/-- Bit mask of the sectors that satisfy `f`, from sector `i` on. -/
def sectorMask (f : Sector → Bool) : Nat → List Sector → Nat
  | _, [] => 0
  | i, x :: l => (if f x then 2 ^ i else 0) + sectorMask f (i + 1) l

def dirtyMask (l : Line) : BitVec 4 := BitVec.ofNat 4 (sectorMask (·.dirty) 0 l.sectors)
def validMask (l : Line) : BitVec 4 := BitVec.ofNat 4 (sectorMask (·.valid) 0 l.sectors)
def poisonMask (l : Line) : BitVec 4 := BitVec.ofNat 4 (sectorMask (fun x => x.valid && x.poison) 0 l.sectors)

/-- Sector `i` of a line. -/
def sectorAt (l : Line) (i : Nat) : Sector := (l.sectors[i]?).getD noSector

/-- The line with sector `i` replaced. -/
def setSector (l : Line) (i : Nat) (x : Sector) : Line := { l with sectors := l.sectors.set i x }

/-- Whether slice or channel `n` of die `d` has failed at run time (R245). -/
def sliceFailed (s : State) (d n : Nat) : Bool := s.slc.failed.contains (d * 24 + n)

/-- A home line's dirty sectors written to HBM, from sector `i` on (R219); a failed slice writes nothing back
(R245). -/
def writeBackFrom (l : Line) : Nat → List Sector → State → State
  | _, [], s => s
  | i, x :: t, s =>
    writeBackFrom l (i + 1) t
      (if x.dirty && x.valid && !sliceFailed s l.die l.slice then hbmWrite (l.la * 128 + i * 32) x.data x.poison s else s)

def writeBack (l : Line) (s : State) : State := writeBackFrom l 0 l.sectors s

/-! ### Coherence messages (Tables COH-2, COH-3) -/

/-- The route cache of die `src` after a packet to another module (Table XLT-5, R476): 256 copies, the oldest used
gives way. -/
def routeFill (part src dst : Nat) (s : State) : State :=
  if moduleOf src = moduleOf dst then s
  else
    let mine (e : RouteCopy) : Bool := Nat.beq e.die src && Nat.beq e.part part && Nat.beq e.dst dst
    let old := s.xlt.routes.find? mine
    let rest := s.xlt.routes.filter (fun e => !mine e)
    let fresh : RouteCopy := ⟨src, part, dst, routePlanes s part src dst, s.rtime src, leaseUs s part * 1000⟩
    let (e, dropped) := match old with
      | some e => if e.lease ≤ s.rtime src - e.stamp then (fresh, true) else (e, false)
      | none => (fresh, false)
    let rest := if 256 ≤ (rest.filter (fun x => Nat.beq x.die src)).length then
        match rest.find? (fun x => Nat.beq x.die src) with
        | some v => rest.erase v
        | none => rest
      else rest
    let s := { s with xlt := { s.xlt with routes := rest ++ [e] } }
    if dropped then s.count src Reg.XLT_LEASE_DROP 1 else s

/-- A message of `src` for the line of `m`, put in flight with the sender's INCARNATION. -/
def sendMsg (t : CohT) (m : CohMsg) (s : State) : State :=
  let m := { m with incarn := BitVec.ofNat 16 (s.rd m.src Reg.DC_INCARNATION) }
  let s := routeFill m.part m.src m.dst s
  { s with slc := { s.slc with net := s.slc.net ++ [⟨t, m⟩] } }

/-- A message header with every optional field zero. -/
def blankMsg (part src srcSlice dst dstSlice req line cls : Nat) : CohMsg where
  part := part
  src := src
  srcSlice := srcSlice
  dst := dst
  dstSlice := dstSlice
  req := req
  homeReq := false
  acks := 0
  mask := 0
  dirty := 0
  poison := 0
  reason := 0
  cls := cls
  line := line
  incarn := 0
  data := []
  badType := 0

/-- A request of a cache slice, kept until its line is stable: after Nack BUSY it goes again (R265). -/
def sendReq (t : CohT) (m : CohMsg) (s : State) : State :=
  let same (x : NetMsg) : Bool :=
    Nat.beq x.msg.src m.src && Nat.beq x.msg.srcSlice m.srcSlice && Nat.beq x.msg.line m.line
  sendMsg t m { s with slc := { s.slc with sent := putWhere same ⟨t, m⟩ s.slc.sent } }

/-- A line's sectors as a message's payload. -/
def lineData (l : Line) : List SectorData := l.sectors.map (·.data)

/-- The partition of a line: that of its home half; where the home has none (its die was reset), that of the half whose
slice holds the line (R210). -/
def linePart (s : State) (la : Nat) : Nat :=
  match homePart s (la * 128) with
  | some p => p
  | none => (((s.slc.lines ++ s.slc.puts).find? (fun l => Nat.beq l.la la)).bind
      (fun l => slicePart s l.die l.slice)).getD 0

/-- A guest line leaves its way: the put goes out and the line waits in the put buffer (R267, Table COH-5,
Evict), with the class of the access that causes it. None while the 32 entries are in use. -/
def evictGuest (cls : Nat) (l : Line) (s : State) : Option State :=
  if (s.slc.puts.filter (fun x => Nat.beq x.die l.die && Nat.beq x.slice l.slice)).length < 32 then
    let hd := homeDie (l.la * 128)
    let m := { blankMsg (linePart s l.la) l.die l.slice hd 31 l.die l.la cls with
      mask := dirtyMask l, dirty := dirtyMask l, poison := poisonMask l &&& dirtyMask l, data := lineData l }
    match l.st with
    | .s => some (sendReq .putS { m with mask := 0, dirty := 0, poison := 0, data := [] }
        (putPut { l with st := .siA } (dropLine l s)))
    | .o => some (sendReq .putO m (putPut { l with st := .oiA } (dropLine l s)))
    | .m => some (sendReq .putM m (putPut { l with st := .miA } (dropLine l s)))
    | _ => none
  else none

/-- A victim leaves its way (R219, R223). -/
def evict (cls : Nat) (l : Line) (s : State) : Option State :=
  if l.st = .home then some (dropLine l (writeBack l s)) else evictGuest cls l s

/-- A new line in a way of its set, most recently used, or least recently used for STREAM (Table UC-3). None
while no way qualifies. -/
def allocWay (cls d n la : Nat) (guest stream : Bool) (st : CSt) (s : State) : Option State :=
  match chooseWay s d n la guest with
  | none => none
  | some c =>
    let r := match c with
      | .inl w => some (w, s)
      | .inr v => (evict cls v s).map (fun s' => (v.way, s'))
    match r with
    | none => none
    | some (w, s) =>
      let k := (setLines s d n la).length
      let l : Line := ⟨d, n, w, la, st, false, false, k, List.replicate 4 noSector, 0⟩
      let s := putLine l s
      some (if stream then s else touchLine l s)

/-- The hint of an access to a line that has no way yet: it takes effect when the line is placed. -/
def noteHint (d n la hint : Nat) (s : State) : State :=
  let mine (m : Mshr) : Bool := Nat.beq m.die d && Nat.beq m.slice n && Nat.beq m.la la
  { s with slc := { s.slc with mshrs := updWhere mine (fun m => { m with hints := m.hints ++ [hint] }) s.slc.mshrs } }

/-- A hit or a fill places the line under its hint (R221, R222, R239): 0 NORMAL, 1 STREAM, 2 KEEP. -/
def applyHint (d n la hint : Nat) (onFill : Bool) (s : State) : State :=
  match findLine s d n la with
  | none => s
  | some l =>
    if 16 ≤ l.way then noteHint d n la hint s
    else if hint = 1 then s
    else if hint = 2 && l.st = .home then
      let keeps := (setLines s d n la).filter (fun x => x.keep && !(Nat.beq x.la la))
      let s := if l.keep || decide (keeps.length < 4) then s
        else match lruOf keeps with
          | some v => touchLine v (putLine { v with keep := false } s)
          | none => s
      match findLine s d n la with
      | some l => touchLine l (putLine { l with keep := true } s)
      | none => s
    else if onFill then s else touchLine l s

/-! ### The memory copy at the home -/

/-- The sectors in `mask` fetched from HBM into the home line, from sector `i` on (R218): one UC_MISS each. A failed slice
fetches nothing, and its sectors read as poison (Table UC-5, R245). -/
def fetchFrom (d n la : Nat) (mask : BitVec 4) : Nat → State → State
  | 0, s => s
  | k + 1, s =>
    let i := 3 - k
    match findLine s d n la with
    | some l =>
      let x := sectorAt l i
      if mask.getLsbD i && !x.valid then
        let dead := sliceFailed s d n
        let (v, p) := if dead then (0, true) else hbmRead s (la * 128 + i * 32)
        let s := putLine (setSector l i (filled v p x)) s
        fetchFrom d n la mask k (if dead then s else s.count d (Reg.UC_MISS n) 1)
      else fetchFrom d n la mask k s
    | none => s

/-- The home line brought into its slice with the sectors of `mask` valid. None while no way qualifies. -/
def homeFill (cls d n la : Nat) (mask : BitVec 4) (hint : Nat) (s : State) : Option State :=
  match findLine s d n la with
  | some _ => some (fetchFrom d n la mask 4 s)
  | none => (allocWay cls d n la false (hint == 1) .home s).map (fun s => applyHint d n la hint true (fetchFrom d n la mask 4 s))

/-- The DIRTY sectors of owner data or of a put written to the memory copy ("wr" of Table COH-4), from sector
`i` on: in the slice where it holds the line, else in HBM. A failed slice discards them (Table UC-5, R245). -/
def homeWrite (d n la : Nat) (dirty poison : BitVec 4) : Nat → List SectorData → State → State
  | _, [], s => s
  | i, v :: t, s =>
    let s := if dirty.getLsbD i && !sliceFailed s d n then
        match findLine s d n la with
        | some l => putLine (setSector l i ⟨true, true, poison.getLsbD i, 0, v⟩) s
        | none => hbmWrite (la * 128 + i * 32) v (poison.getLsbD i) s
      else s
    homeWrite d n la dirty poison (i + 1) t s

/-! ### Directory entries (R252–R254) -/

/-- The directory set of a line (R252): PA[18:7] XOR PA[30:19]. -/
def dirSet (la : Nat) : Nat := bits la 11 0 ^^^ bits la 23 12

def findDir (s : State) (d n la : Nat) : Option DirEnt :=
  s.slc.dir.find? (fun e => Nat.beq e.die d && Nat.beq e.slice n && Nat.beq e.la la)

def sameEnt (a b : DirEnt) : Bool := Nat.beq a.die b.die && Nat.beq a.slice b.slice && Nat.beq a.la b.la

def sameDirSet (a b : DirEnt) : Bool :=
  Nat.beq a.die b.die && Nat.beq a.slice b.slice && Nat.beq (dirSet a.la) (dirSet b.la)

def putDir (e : DirEnt) (s : State) : State :=
  { s with slc := { s.slc with dir := putWhere (sameEnt e) e s.slc.dir } }

/-- The entry freed (R253). -/
def freeDir (e : DirEnt) (s : State) : State :=
  let dir := (s.slc.dir.filter (fun x => !(sameEnt e x))).map
    (fun x => if sameDirSet e x && Nat.blt e.rank x.rank then { x with rank := x.rank - 1 } else x)
  { s with slc := { s.slc with dir := dir } }

/-- The entry made the most recently used of its set. -/
def touchDir (e : DirEnt) (s : State) : State :=
  { s with slc := { s.slc with dir := s.slc.dir.map (fun x =>
      if sameEnt e x then { x with rank := 0 }
      else if sameDirSet e x && Nat.blt x.rank e.rank then { x with rank := x.rank + 1 } else x) } }

/-- Entries in use at a slice (COH_DIR_USED). -/
def dirUsed (s : State) (d n : Nat) : Nat :=
  (s.slc.dir.filter (fun e => Nat.beq e.die d && Nat.beq e.slice n)).length

/-- Entries of the set of `la`. -/
def dirSetEnts (s : State) (d n la : Nat) : List DirEnt :=
  s.slc.dir.filter (fun e => Nat.beq e.die d && Nat.beq e.slice n && Nat.beq (dirSet e.la) (dirSet la))

/-- The entry of highest rank. -/
def lruDir : List DirEnt → Option DirEnt
  | [] => none
  | e :: t =>
    match lruDir t with
    | some b => if b.rank ≤ e.rank then some e else some b
    | none => some e

/-- What R254 prefers for a new entry: a free way, or the victim to recall, or nothing. -/
def chooseEnt (s : State) (d n la : Nat) : Option (Nat ⊕ DirEnt) :=
  let set := dirSetEnts s d n la
  match (List.range 16).find? (fun w => set.all (fun e => !(Nat.beq e.way w))) with
  | some w => some (.inl w)
  | none =>
    match lruDir (set.filter (fun e => e.st = .s)) with
    | some e => some (.inr e)
    | none => (lruDir (set.filter (fun e => e.st = .m || e.st = .o))).map .inr

/-- An entry for the line in way `w`, most recently used; COH_DIR_PEAK follows. -/
def newEnt (d n la w : Nat) (st : DSt) (owner : Nat) (sharers : List Nat) (s : State) : State :=
  let e : DirEnt := ⟨d, n, w, la, st, owner, sharers, 0, 0, false, (dirSetEnts s d n la).length⟩
  let s := touchDir e (putDir e s)
  s.peak d (Reg.COH_DIR_PEAK n) (dirUsed s d n)

/-! ### An access settled at once -/

/-- The copy of a line that die `c` holds as a cache: a line in any of its slices, or a put-buffer entry. -/
def cacheCopy (s : State) (c la : Nat) : Option (Bool × Line) :=
  match s.slc.lines.find? (fun l => Nat.beq l.die c && Nat.beq l.la la && l.st ≠ .home) with
  | some l => some (true, l)
  | none => (s.slc.puts.find? (fun l => Nat.beq l.die c && Nat.beq l.la la)).map (fun l => (false, l))

/-- A sharer takes an Inv and answers it (Table COH-5, Inv); none in a cell that holds it. -/
def takeInv (c la : Nat) (s : State) : Option State :=
  match cacheCopy s c la with
  | none => none
  | some (_, l) =>
    match l.st with
    | .s => some (dropLine l s)
    | .smAD => some (putLine { l with st := .imAD, sectors := List.replicate 4 noSector } s)
    | .siA => some (putPut { l with st := .iiA } s)
    | _ => none

/-- Inv to every sharer of a list. -/
def takeInvs : List Nat → Nat → State → Option State
  | [], _, s => some s
  | c :: t, la, s => (takeInv c la s).bind (takeInvs t la)

/-- The owner gives up the line (Table COH-5, FwdGetM): its copy, and the state after. -/
def takeFwdM (c la : Nat) (s : State) : Option (Line × State) :=
  match cacheCopy s c la with
  | none => none
  | some (_, l) =>
    match l.st with
    | .m => some (l, dropLine l s)
    | .o => some (l, dropLine l s)
    | .omA => some (l, putLine { l with st := .imAD, sectors := List.replicate 4 noSector } s)
    | .miA => some (l, putPut { l with st := .iiA } s)
    | .oiA => some (l, putPut { l with st := .iiA } s)
    | _ => none

/-- Sectors with their dirty bits cleared. -/
def cleaned (l : Line) : Line := { l with sectors := l.sectors.map (fun x => { x with dirty := false }) }

/-- The owner answers a FwdGetS (Table COH-5; R256 with HOMEREQ): its copy, and the state after. `toHome` says
that its data also goes to the home: plain mode, or HOMEREQ. -/
def takeFwdS (c la : Nat) (toHome : Bool) (s : State) : Option (Line × State) :=
  match cacheCopy s c la with
  | none => none
  | some (_, l) =>
    match l.st, toHome with
    | .m, true => some (l, putLine { cleaned l with st := .s } s)
    | .m, false => some (l, putLine { l with st := .o } s)
    | .o, true => some (l, putLine { cleaned l with st := .s } s)
    | .o, false => some (l, s)
    | .omA, true => some (l, putLine { cleaned l with st := .smAD } s)
    | .omA, false => some (l, s)
    | .miA, true => some (l, putPut { cleaned l with st := .siA } s)
    | .miA, false => some (l, putPut { l with st := .oiA } s)
    | .oiA, true => some (l, putPut { cleaned l with st := .siA } s)
    | .oiA, false => some (l, s)
    | _, _ => none

/-- The home regains the line for a home write or a recall (Table COH-6): every holder gives it up, owner data
is written, and the entry is freed. -/
def settleRecall (e : DirEnt) (s : State) : Option State :=
  match e.st with
  | .s => (takeInvs e.sharers e.la s).map (freeDir e)
  | .m | .o =>
    (takeFwdM e.owner e.la s).bind (fun r =>
      let s := homeWrite e.die e.slice e.la (dirtyMask r.1) (poisonMask r.1) 0 (lineData r.1) r.2
      let s := s.count e.die (Reg.COH_FWD e.slice) 1
      (takeInvs e.sharers e.la s).map (freeDir e))
  | _ => none

/-- An entry for a line that has none, after R254 (a recalled victim counts in COH_RECALL). -/
def settleNewEnt (d n la : Nat) (st : DSt) (owner : Nat) (sharers : List Nat) (s : State) : Option State :=
  match chooseEnt s d n la with
  | none => none
  | some (.inl w) => some (newEnt d n la w st owner sharers s)
  | some (.inr v) =>
    (settleRecall v s).map (fun s => newEnt d n la v.way st owner sharers (s.count d (Reg.COH_RECALL n) 1))

/-- The home is made able to read the line itself (Table COH-6, Home read). -/
def settleHomeRead (d n la : Nat) (s : State) : Option State :=
  match findDir s d n la with
  | none => some s
  | some e =>
    match e.st with
    | .s => some s
    | .m | .o =>
      (takeFwdS e.owner la true s).map (fun r =>
        let s := homeWrite d n la (dirtyMask r.1) (poisonMask r.1) 0 (lineData r.1) r.2
        let s := s.count d (Reg.COH_FWD n) 1
        putDir { e with st := .s, sharers := addNat e.sharers e.owner } s)
    | _ => none

/-- The home is made able to write the line itself (Table COH-6, Home write): I at the directory. -/
def settleHomeWrite (d n la : Nat) (s : State) : Option State :=
  match findDir s d n la with
  | none => some s
  | some e => settleRecall e s

/-- The memory copy of a line of a failed slice: poison (Table UC-5). -/
def deadLine (d n la : Nat) : Line :=
  ⟨d, n, 16, la, .home, false, false, 0, List.replicate 4 ⟨true, false, true, 0, 0⟩, 0⟩

/-- The sectors of `mask` of the memory copy, and the state that fetched them. -/
def memoryCopy (cls d n la : Nat) (mask : BitVec 4) (s : State) : Option (Line × State) :=
  if sliceFailed s d n then some (deadLine d n la, s)
  else (homeFill cls d n la mask 0 s).bind (fun s => (findLine s d n la).map (fun l => (l, s)))

/-- A GetS of die `r` carried through (Table COH-6, GetS; Table COH-5): the sectors it is given. -/
def settleGetS (cls hd hn la r : Nat) (mask : BitVec 4) (plain : Bool) (s : State) : Option (Line × State) :=
  match findDir s hd hn la with
  | none =>
    (memoryCopy cls hd hn la mask s).bind (fun x => (settleNewEnt hd hn la .s 0 [r] x.2).map (fun s => (x.1, s)))
  | some e =>
    match e.st with
    | .s => (memoryCopy cls hd hn la mask s).map (fun x => (x.1, touchDir e (putDir { e with sharers := addNat e.sharers r } x.2)))
    | .o => (takeFwdS e.owner la false s).map (fun x =>
        (x.1, touchDir e (putDir { e with sharers := addNat e.sharers r } (x.2.count hd (Reg.COH_FWD hn) 1))))
    | .m => (takeFwdS e.owner la plain s).map (fun x =>
        let s := x.2.count hd (Reg.COH_FWD hn) 1
        if plain then
          let s := homeWrite hd hn la (dirtyMask x.1) (poisonMask x.1) 0 (lineData x.1) s
          (x.1, touchDir e (putDir { e with st := .s, sharers := addNat (addNat e.sharers e.owner) r } s))
        else (x.1, touchDir e (putDir { e with st := .o, sharers := [r] } s)))
    | _ => none

/-- A GetM or Upg of die `r` carried through: the line it becomes the owner of. -/
def settleGetM (cls hd hn la r : Nat) (s : State) : Option (Line × State) :=
  match findDir s hd hn la with
  | none =>
    (memoryCopy cls hd hn la 15 s).bind (fun x => (settleNewEnt hd hn la .m r [] x.2).map (fun s => (cleaned x.1, s)))
  | some e =>
    match e.st with
    | .s =>
      (memoryCopy cls hd hn la 15 s).bind (fun x =>
        (takeInvs (delNat e.sharers r) la x.2).map (fun s =>
          (cleaned x.1, touchDir e (putDir { e with st := .m, owner := r, sharers := [] } s))))
    | .m | .o =>
      if e.owner = r then
        match cacheCopy s r la with
        | some (_, l) => (takeInvs e.sharers la s).map (fun s =>
            (l, touchDir e (putDir { e with st := .m, sharers := [] } s)))
        | none => none
      else
        (takeFwdM e.owner la s).bind (fun x =>
          (takeInvs (delNat e.sharers r) la (x.2.count hd (Reg.COH_FWD hn) 1)).map (fun s =>
            (x.1, touchDir e (putDir { e with st := .m, owner := r, sharers := [] } s))))
    | _ => none

/-- What an access gets. -/
inductive AccRes where
  /-- The sector it read, or the sector before an atomic; and whether it is poisoned. -/
  | ok (v : SectorData) (poison : Bool)
  /-- PERMISSION (R217, R265). -/
  | denied
  deriving DecidableEq, Repr

/-- The sectors a read fetches: its own, or every invalid one with FILL (R218). -/
def wantMask (fill : Bool) (sec : Nat) : BitVec 4 := if fill then 15 else BitVec.ofNat 4 (2 ^ sec)

/-- An access beyond the backed range (R236): counted and recorded. -/
def rangeErr (pa op : Nat) (part : Nat) (s : State) : State :=
  let d := homeDie pa
  emit d 0 0x042 0 (partSealed s part) [pf 1 0xFF, pf 1 op, pf 1 part, pf 5 0, pa_ 8 pa] (s.count d Reg.UC_RANGE_ERR 1)

/-- A normal-world access to sealed memory (R448): counted, and recorded with its source and line, which R448 has the record
name (DEDUCED beside R539, log 127). Which unit of the home die writes it is not stated: the home slice (DESIGN CHOICE, log 14). -/
def sealedAccess (pa part origin op : Nat) (s : State) : State :=
  let d := homeDie pa
  let unit := match homeChan s pa with | some n => 0x10 + n | none => 0
  emit d unit 0x091 0 false [pf 1 part, pf 1 origin, pf 1 op, pf 5 0, pf 8 (pa / 128)] (s.count d Reg.PART_SEALED_RD 1)

/-- A packet that the half link refuses (R217); it concerns the partitions of both ends. -/
def halfRefuse (d lane vc src dst line : Nat) (s : State) : State :=
  emit d 7 0x041 0 (partSealed s src || partSealed s dst) [pf 1 lane, pf 1 vc, pf 1 src, pf 1 dst, pf 4 0, pa_ 8 line] (s.count d Reg.UC_HLINK_DROP 1)

/-- The lane that a packet of mesh row `y` takes (R300): row ÷ 4, or the next working one (Table MESH-7). -/
def laneOf (s : State) (d y : Nat) : Nat :=
  (([0, 1, 2, 3].map (fun k => (y / 4 + k) % 4)).find? (fun l => !s.net.lanesDown.contains (d * 4 + l))).getD (y / 4)

/-- The router of SLICE[n], by its cluster number (Table MESH-1). -/
def sliceRouter (n : Nat) : Nat :=
  if n < 6 then 4 + n
  else if n < 12 then 300 + (n - 2)
  else if n < 18 then n - 2
  else 300 + (n - 8)

/-- The routers of the Toash-S ports in the order of Table MESH-1, the corner first (R306). -/
def toashSRouters : Nat → List Nat
  | 0 => [0, 1, 2, 3, 20, 40, 60]
  | 1 => [19, 16, 17, 18, 39, 59, 79]
  | _ => [319, 316, 317, 318, 259, 279, 299]

/-- The router of Toash-S port `k` for a packet whose end on this die is at router `c` (R306). -/
def toashSRouter (k c : Nat) : Nat := ((toashSRouters k)[c % 7]?).getD 0

/-- The router of the Toash-L port of a plane, by the index that R306 chooses: the destination die for a packet that leaves,
the destination router for one that enters. -/
def toashLRouter (plane i : Nat) : Nat := (6 + i % 4) * 20 + 19 * plane

/-- The Toash-S port between two siblings (R291). -/
def siblingPort (d e : Nat) : Nat := (d % 4 ^^^ e % 4) - 1

/-- The plane that a packet takes (R305): the one of its set, or the one that its source router and its destination
choose; the other where the port of that one is down (Table MESH-7) or its plane is lost (R535). -/
def planeOf (s : State) (part src dst router : Nat) : Nat :=
  let a := routePlanes s part src dst
  let p := if a = 1 then 0 else if a = 2 then 1 else (router + dst) % 2
  if s.rd src (Reg.MESH_TL_STATUS_UP p) = 1 && s.rd dst (Reg.MESH_TL_STATUS_UP p) = 1 && !s.rack.planeLost.contains p then p
  else 1 - p

/-- The router at which a packet of a requester enters the home die of `pa` (R291, R306). -/
def entryRouter (s : State) (b : AccBy) (pa : Nat) : Nat :=
  let hd := homeDie pa
  let c := match homeChan s pa with | some n => sliceRouter n | none => 0
  let k := siblingPort b.die hd
  if moduleOf b.die = moduleOf hd && s.rd hd (Reg.MESH_TS_STATUS_UP k) = 1 then toashSRouter k c
  else toashLRouter (planeOf s b.part b.die hd b.router) c

/-- Where a request for another partition's memory meets the half link of the home die (R217): the router from which it
would cross, of a requester on the die or of the port that it came in by. None where it does not cross: with the seam
open (R215), or in the home's own half. -/
def crossFrom (s : State) (b : AccBy) (pa : Nat) : Option Nat :=
  let hd := homeDie pa
  if hd = b.die then some b.router
  else
    let r := entryRouter s b pa
    if placing s hd == .hash || clusterSide r == homeSide s pa then none else some r

/-- An access that reaches memory of another partition: sealed memory answers zero (R448), the half link of the home die
refuses (R217), a remote home denies (R266). `op` 0 read, 1 write, 2 atomic. -/
def crossPart (b : AccBy) (pa op : Nat) (s : State) : AccRes × State :=
  let hd := homeDie pa
  let hp := homePart s pa
  if (hp.map (partSealed s)).getD false then (.ok 0 false, sealedAccess pa (hp.getD 0) 3 (min op 1) s)
  else
    match crossFrom s b pa with
    | some r =>
      (if op = 1 then .ok 0 false else .denied, halfRefuse hd (laneOf s hd (r / 20)) 1 b.part (hp.getD 0) (pa / 128) s)
    | none => (.denied, s.count hd Reg.COH_DENIED 1)

/-- Whether anything in flight keeps the line from being settled at slice `n` of die `d` (R263, R264). -/
def lineBusy (s : State) (d n la : Nat) : Bool := hasMshr s d n la

/-- A read at the home slice (R218, R250). -/
def readHome (b : AccBy) (pa n : Nat) (s : State) : Option (AccRes × State) :=
  let d := b.die
  let la := pa / 128
  let sec := bits pa 6 5
  if lineBusy s d n la then none
  else
    (settleHomeRead d n la s).bind (fun s =>
      match findLine s d n la with
      | some l =>
        if (sectorAt l sec).valid then
          let s := applyHint d n la b.hint false (s.count d (Reg.UC_HIT n) 1)
          some (.ok (sectorAt l sec).data (sectorAt l sec).poison, s)
        else
          let s := applyHint d n la b.hint false (fetchFrom d n la (wantMask b.fill sec) 4 s)
          (findLine s d n la).map (fun l => (.ok (sectorAt l sec).data (sectorAt l sec).poison, s))
      | none =>
        (homeFill b.cls d n la (wantMask b.fill sec) b.hint s).bind (fun s =>
          (findLine s d n la).map (fun l => (.ok (sectorAt l sec).data (sectorAt l sec).poison, s))))

/-- A guest line takes the sectors it is given, those of `mask` that it lacks, from sector `i` on. -/
def takeSectors (mask : BitVec 4) (dirty : Bool) : Nat → List Sector → List Sector → List Sector
  | _, [], _ => []
  | _, old, [] => old
  | i, x :: old, y :: src =>
    (if mask.getLsbD i && !x.valid then ⟨true, dirty && y.dirty, y.poison, 0, y.data⟩ else x)
      :: takeSectors mask dirty (i + 1) old src

/-- A read of a guest line (Table COH-5, Load; R224, R267). -/
def readGuest (b : AccBy) (pa : Nat) (s : State) : Option (AccRes × State) :=
  let la := pa / 128
  let sec := bits pa 6 5
  let hd := homeDie pa
  match homeChan s pa, guestSlice s b.die b.side pa with
  | some hn, some n =>
    if lineBusy s b.die n la || lineBusy s hd hn la then none
    else
      let mask := wantMask b.fill sec
      match findLine s b.die n la with
      | some l =>
        if (sectorAt l sec).valid then
          let s := applyHint b.die n la b.hint false (s.count b.die (Reg.UC_HIT n) 1)
          some (.ok (sectorAt l sec).data (sectorAt l sec).poison, s)
        else if l.st = .s then
          (settleGetS b.cls hd hn la b.die mask (plainMode s b.part) s).bind (fun x =>
            (findLine x.2 b.die n la).map (fun l =>
              let l := { l with sectors := takeSectors mask false 0 l.sectors x.1.sectors }
              (.ok (sectorAt l sec).data (sectorAt l sec).poison,
                applyHint b.die n la b.hint false (putLine l x.2))))
        else none
      | none =>
        if (findPut s b.die n la).isSome then none
        else
          (settleGetS b.cls hd hn la b.die mask (plainMode s b.part) s).bind (fun x =>
            let v := sectorAt x.1 sec
            if guestQuota s b.die n = 0 then
              -- R224, R267: PutS follows at once
              match findDir x.2 hd hn la with
              | some e =>
                let sh := delNat e.sharers b.die
                let s := if e.st = .s && sh.isEmpty then freeDir e x.2 else putDir { e with sharers := sh } x.2
                some (.ok v.data v.poison, s)
              | none => none
            else
              (allocWay b.cls b.die n la true (b.hint == 1) .s x.2).bind (fun s =>
                (findLine s b.die n la).map (fun l =>
                  (.ok v.data v.poison,
                    putLine { l with sectors := takeSectors mask false 0 l.sectors x.1.sectors } s))))
  | _, _ => none

/-- A home die in reset answers nothing: traffic to it is dropped at the port (Table MESH-7). -/
def deadHome (s : State) (b : AccBy) (pa : Nat) : Bool :=
  homeDie pa != b.die && s.boot.inReset.contains (homeDie pa)

/-- Whether the slice of the requester's die that serves the access has failed (Table UC-5): the home slice, or the slice of
the guest line. -/
def failedFor (s : State) (b : AccBy) (pa hn : Nat) : Bool :=
  if homeDie pa = b.die then sliceFailed s b.die hn
  else ((guestSlice s b.die b.side pa).map (sliceFailed s b.die)).getD false

/-- A read by a cluster, a mover, the queue block or a host port, carried through. None: the access waits
(R230, R263, R264). -/
def accRead (b : AccBy) (pa : Nat) (s : State) : Option (AccRes × State) :=
  if deadHome s b pa then none
  else if homePart s pa ≠ some b.part then some (crossPart b pa 0 s)
  else if !backed s pa then some (.ok 0 true, rangeErr pa 0 b.part s)
  else
    match homeChan s pa with
    | none => some (.ok 0 true, rangeErr pa 0 b.part s)
    | some hn =>
      if failedFor s b pa hn then some (.ok 0 true, s)
      else if homeDie pa = b.die then readHome b pa hn s
      else readGuest b pa s

/-- A line of the home slice that can be written: present, and its sector valid unless the write covers it. -/
def homeWritable (cls d n la sec : Nat) (full : Bool) (fill : Bool) (hint : Nat) (s : State) : Option State :=
  let mask := if full then (0 : BitVec 4) else wantMask fill sec
  match findLine s d n la with
  | some l =>
    if full || (sectorAt l sec).valid then some (applyHint d n la hint false s)
    else some (applyHint d n la hint false (fetchFrom d n la mask 4 s))
  | none => homeFill cls d n la mask hint s

/-- A write at the home slice (R219, R250). -/
def writeHome (b : AccBy) (pa n : Nat) (mask : BitVec 32) (v : SectorData) (s : State) : Option (AccRes × State) :=
  let d := b.die
  let la := pa / 128
  let sec := bits pa 6 5
  if lineBusy s d n la then none
  else
    (settleHomeWrite d n la s).bind (fun s =>
      (homeWritable b.cls d n la sec (mask == BitVec.allOnes 32) false b.hint s).bind (fun s =>
        (findLine s d n la).map (fun l =>
          (.ok 0 false, putLine (setSector l sec (wroteSector mask v (sectorAt l sec))) s))))

/-- A write to a guest line (Table COH-5, Store; R224, R267). -/
def writeGuest (b : AccBy) (pa : Nat) (mask : BitVec 32) (v : SectorData) (s : State) : Option (AccRes × State) :=
  let la := pa / 128
  let sec := bits pa 6 5
  let hd := homeDie pa
  match homeChan s pa, guestSlice s b.die b.side pa with
  | some hn, some n =>
    if lineBusy s b.die n la || lineBusy s hd hn la || (findPut s b.die n la).isSome then none
    else
      match findLine s b.die n la with
      | some l =>
        let ready := if l.st = .m then some (l, s)
          else if l.st = .s || l.st = .o then
            (settleGetM b.cls hd hn la b.die s).map (fun x =>
              ({ l with st := .m, sectors := takeSectors 15 true 0 l.sectors x.1.sectors }, x.2))
          else none
        ready.map (fun x =>
          (.ok 0 false, applyHint b.die n la b.hint false
            (putLine (setSector x.1 sec (wroteSector mask v (sectorAt x.1 sec))) x.2)))
      | none =>
        (settleGetM b.cls hd hn la b.die s).bind (fun x =>
          if guestQuota s b.die n = 0 then
            -- R224, R267: PutM follows at once
            let l := setSector x.1 sec (wroteSector mask v (sectorAt x.1 sec))
            match findDir x.2 hd hn la with
            | some e => some (.ok 0 false,
                freeDir e (homeWrite hd hn la (dirtyMask l) (poisonMask l) 0 (lineData l) x.2))
            | none => none
          else
            (allocWay b.cls b.die n la true (b.hint == 1) .m x.2).bind (fun s =>
              (findLine s b.die n la).map (fun l =>
                let l := { l with sectors := takeSectors 15 true 0 l.sectors x.1.sectors }
                (.ok 0 false, putLine (setSector l sec (wroteSector mask v (sectorAt l sec))) s))))
  | _, _ => none

/-- A write carried through. None: the access waits. -/
def accWrite (b : AccBy) (pa : Nat) (mask : BitVec 32) (v : SectorData) (s : State) : Option (AccRes × State) :=
  if deadHome s b pa then none
  else if homePart s pa ≠ some b.part then some (crossPart b pa 1 s)
  else if !backed s pa then some (.ok 0 false, rangeErr pa 1 b.part s)
  else
    match homeChan s pa with
    | none => some (.ok 0 false, rangeErr pa 1 b.part s)
    | some hn =>
      if failedFor s b pa hn then some (.ok 0 false, s)
      else if homeDie pa = b.die then writeHome b pa hn mask v s
      else writeGuest b pa mask v s

/-- An atomic carried through at the home slice (R148, R220): it reads its sector and writes `f` of it. -/
def accAtomic (b : AccBy) (pa : Nat) (f : SectorData → SectorData) (s : State) : Option (AccRes × State) :=
  if deadHome s b pa then none
  else if homePart s pa ≠ some b.part then some (crossPart b pa 2 s)
  else if !backed s pa then some (.ok 0 true, rangeErr pa 2 b.part s)
  else
    match homeChan s pa with
    | none => some (.ok 0 true, rangeErr pa 2 b.part s)
    | some hn =>
      let d := homeDie pa
      let la := pa / 128
      let sec := bits pa 6 5
      if sliceFailed s d hn then some (.ok 0 true, s)
      else if lineBusy s d hn la then none
      else
        (settleHomeWrite d hn la s).bind (fun s =>
          (homeWritable b.cls d hn la sec false b.fill b.hint s).bind (fun s =>
            (findLine s d hn la).map (fun l =>
              let x := sectorAt l sec
              if x.poison then (.ok x.data true, s)
              else (.ok x.data false, putLine (setSector l sec ⟨true, true, false, 0, f x.data⟩) s))))

/-! ### Runs of bytes -/

/-- `n` bytes from `pa` on, sector by sector; `fuel` bounds the sectors. The flag says that a sector was
poisoned, `none` inside that it was denied. -/
def accBytes (b : AccBy) : Nat → Nat → Nat → State → Option (Option (List Byte × Bool) × State)
  | 0, _, _, s => some (some ([], false), s)
  | fuel + 1, pa, n, s =>
    if n = 0 then some (some ([], false), s)
    else
      match accRead b pa s with
      | none => none
      | some (.denied, s) => some (none, s)
      | some (.ok v p, s) =>
        let o := pa % 32
        let k := min n (32 - o)
        let here := ((leBytes 32 v.toNat).drop o).take k
        match accBytes b fuel (pa + k) (n - k) s with
        | none => none
        | some (none, s) => some (none, s)
        | some (some (t, q), s) => some (some (here ++ t, p || q), s)

/-- The byte mask of `k` bytes from offset `o`. -/
def byteMask (o k : Nat) : BitVec 32 := BitVec.ofNat 32 ((2 ^ k - 1) * 2 ^ o)

/-- Bytes written from `pa` on, sector by sector. -/
def accPut (b : AccBy) : Nat → Nat → List Byte → State → Option (Bool × State)
  | 0, _, _, s => some (true, s)
  | fuel + 1, pa, l, s =>
    if l.isEmpty then some (true, s)
    else
      let o := pa % 32
      let k := min l.length (32 - o)
      let v := BitVec.ofNat 256 (ofLe (l.take k) * 256 ^ o)
      match accWrite b pa (byteMask o k) v s with
      | none => none
      | some (.denied, s) => some (false, s)
      | some (.ok _ _, s) => accPut b fuel (pa + k) (l.drop k) s

end Sys2Proof.Machine
end

