-- ==== Sys2Proof/Machine/SliceEngine.lean ====
section
/-! DEFINITION. What a slice does with a request that it cannot serve at once (chapters 6 and 7): MSHRs, waiters, NACKs
and back-off, the starve list, the directory's own transactions, and the cache's requests to a home. -/

namespace Sys2Proof.Machine

/-! ### Answers -/

def want? (w : Waiter) : Nat :=
  match w.want with
  | .read => 0
  | .write _ _ => 1
  | .atomic _ _ _ _ _ => 2
  | .badWrite _ _ => 1

/-- The line and the sector of a waiter. -/
def Waiter.la (w : Waiter) : Nat := w.req.pa / 128
def Waiter.sec (w : Waiter) : Nat := bits w.req.pa 6 5

/-- What the slice answers: 0 data, 1 done, 2 NACK-RETRY, 3 PERMISSION. -/
def answer (d n : Nat) (w : Waiter) (kind : Nat) (poison : Bool) (v : SectorData) (s : State) : State :=
  { s with slc := { s.slc with rsp := s.slc.rsp ++ [⟨d, n, w.req.requester, w.req.pa, kind, poison, v⟩] } }

/-! ### MSHRs and waiters (R229, R230) -/

def findMshr (s : State) (d n la : Nat) : Option Mshr :=
  s.slc.mshrs.find? (fun m => Nat.beq m.die d && Nat.beq m.slice n && Nat.beq m.la la)

def sameMshr (a b : Mshr) : Bool := Nat.beq a.die b.die && Nat.beq a.slice b.slice && Nat.beq a.la b.la

def putMshr (m : Mshr) (s : State) : State :=
  { s with slc := { s.slc with mshrs := putWhere (sameMshr m) m s.slc.mshrs } }

/-- MSHRs in use at a slice. -/
def mshrsOf (s : State) (d n : Nat) : List Mshr := s.slc.mshrs.filter (fun m => Nat.beq m.die d && Nat.beq m.slice n)

/-- Waiter entries that an MSHR holds: not its first requester. -/
def Mshr.pool (m : Mshr) : List Waiter := if m.owned then m.waiters.drop 1 else m.waiters

/-- Waiter entries in use at a slice. -/
def poolUsed (s : State) (d n : Nat) : Nat := ((mshrsOf s d n).map (fun m => m.pool.length)).foldl (· + ·) 0

/-- Whether class U has fewer misses, or waiters, outstanding than R234 serves without NACK. -/
def uFree (s : State) (d n : Nat) (waiter : Bool) : Bool :=
  if waiter then
    Nat.blt (((mshrsOf s d n).map (fun m => (m.pool.filter (fun w => Nat.beq w.req.cls 0)).length)).foldl (· + ·) 0) 64
  else Nat.blt ((mshrsOf s d n).filter (fun m => Nat.beq m.cls 0)).length 4

/-- An MSHR (or a waiter entry) that is held for an entry of the starve list is held from every request but its own (R233);
one held for a request of class I or B is not held from class U while R234 serves it. -/
def heldFrom (s : State) (d n : Nat) (waiter : Bool) (r : SliceReq) : Nat :=
  if s.slc.starve.any (fun e => Nat.beq e.die d && Nat.beq e.slice n && e.held && e.waiter == waiter
      && !(Nat.beq e.requester r.requester && Nat.beq e.pa r.pa)
      && !(Nat.beq r.cls 0 && !(Nat.beq e.cls 0) && uFree s d n waiter)) then 1 else 0

/-- Whether a request of class `cls` may take an MSHR: 4 of the 192 are class U's (R229). -/
def canMshr (s : State) (d n cls held : Nat) : Bool :=
  let free := 192 - (mshrsOf s d n).length
  Nat.blt ((if cls = 0 then 0 else 4) + held) free

/-- Whether a request of class `cls` may take a waiter of MSHR `m` (R230). -/
def canWait (s : State) (d n cls held : Nat) (m : Mshr) : Bool :=
  let free := 2048 - poolUsed s d n
  if cls = 0 then Nat.blt held free
  else Nat.blt (64 + held) free && Nat.blt (m.pool.filter (fun w => !(Nat.beq w.req.cls 0))).length 64

/-- UC_MSHR_PEAK and UC_WAIT_PEAK follow. -/
def slicePeaks (d n : Nat) (s : State) : State :=
  (s.peak d (Reg.UC_MSHR_PEAK n) (mshrsOf s d n).length).peak d (Reg.UC_WAIT_PEAK n) (poolUsed s d n)

/-- Whether the resource that frees is one that the request at the head of the starve list needs and its class may take
(R233). -/
def headTakes (s : State) (d n : Nat) (waiter : Bool) (e : Starve) : Bool :=
  match findMshr s d n (e.pa / 128) with
  | some m => waiter && canWait s d n e.cls 0 m
  | none => !waiter && canMshr s d n e.cls 0

/-- A freed MSHR, or waiter entry, is held for the head of the slice's starve list (R233). -/
def holdForHead (d n : Nat) (waiter : Bool) (s : State) : State :=
  match s.slc.starve.find? (fun e => Nat.beq e.die d && Nat.beq e.slice n) with
  | some e =>
    if e.held || !headTakes s d n waiter e then s
    else
      let e' := { e with held := true, waiter := waiter }
      { s with slc := { s.slc with starve := putWhere (fun x => x == e) e' s.slc.starve } }
  | none => s

/-- The MSHR freed. -/
def freeMshr (m : Mshr) (s : State) : State :=
  holdForHead m.die m.slice false { s with slc := { s.slc with mshrs := s.slc.mshrs.filter (fun x => !sameMshr m x) } }

/-! ### NACK-RETRY and back-off (R231–R233) -/

/-- The next state of the jitter LFSR, x^16 + x^14 + x^13 + x^11 + 1 (R232). -/
def lfsrNext (l : BitVec 16) : BitVec 16 :=
  let n := l.toNat
  let b := (n + n / 4 + n / 8 + n / 32) % 2
  BitVec.ofNat 16 (n / 2 + b * 0x8000)

/-- The number of a cache slice as a requester of coherence requests (R232, R265): after the routers of 64 dies. -/
def sliceRequester (d n : Nat) : Nat := 20480 + d * 24 + n

/-- The LFSR's seed: the requester's router number plus 1 (R232). -/
def lfsrSeed (requester : Nat) : BitVec 16 :=
  if requester < 20480 then BitVec.ofNat 16 (requester % 320 + 1)
  else BitVec.ofNat 16 (sliceRouter ((requester - 20480) % 24) + 1)

/-- W of R232 after the `k`th consecutive NACK. -/
def backOff (k : Nat) : Nat := min (16 * 2 ^ (k - 1)) 256

def retryOf (s : State) (requester : Nat) : Retry :=
  (s.slc.retry.find? (fun r => Nat.beq r.requester requester)).getD ⟨requester, lfsrSeed requester, []⟩

def putRetry (r : Retry) (s : State) : State :=
  { s with slc := { s.slc with retry := putWhere (fun x => Nat.beq x.requester r.requester) r s.slc.retry } }

/-- The requester backs off after its `k`th NACK (R232). -/
def backOffFor (requester : Nat) (what : RetryOf) (k : Nat) (s : State) : State :=
  let r := retryOf s requester
  let l := lfsrNext r.lfsr
  let w := backOff k
  let b : BackOff := ⟨what, k, w + Config.jitter l (w / 4) % (w / 4)⟩
  putRetry { r with lfsr := l, waiting := r.waiting ++ [b] } s

/-- The back-off of a request ends for good: it succeeded (R232). -/
def endBackOff (requester : Nat) (what : RetryOf) (s : State) : State :=
  match s.slc.retry.find? (fun r => Nat.beq r.requester requester) with
  | some r => putRetry { r with waiting := r.waiting.filter (fun b => b.what != what) } s
  | none => s

/-- NACKs in a row of a request that backs off or was sent again. -/
def nacksOf (s : State) (requester : Nat) (what : RetryOf) : Nat :=
  (((retryOf s requester).waiting.find? (fun b => b.what == what)).map (·.k)).getD 0

/-- A STARVE request that is NACKed enters the starve list, unless it is there or the list is full (R233). -/
def enterStarve (d n : Nat) (r : SliceReq) (s : State) : State :=
  let here := s.slc.starve.filter (fun e => Nat.beq e.die d && Nat.beq e.slice n)
  if here.any (fun e => Nat.beq e.requester r.requester && Nat.beq e.pa r.pa) || Nat.ble 16 here.length then s
  else { s with slc := { s.slc with starve := s.slc.starve ++ [⟨d, n, r.requester, r.pa, r.cls, false, false⟩] } }

/-- The request leaves the starve list: it has been accepted. -/
def leaveStarve (d n : Nat) (r : SliceReq) (s : State) : State :=
  { s with slc := { s.slc with starve := s.slc.starve.filter (fun e =>
      !(Nat.beq e.die d && Nat.beq e.slice n && Nat.beq e.requester r.requester && Nat.beq e.pa r.pa)) } }

/-- NACK-RETRY for a request that was NACKed `k` times before (R231–R233). -/
def nackRetry (d n k : Nat) (w : Waiter) (s : State) : State :=
  let s := answer d n w 2 false 0 (s.count d (Reg.UC_NACK n) 1)
  let s := if w.req.starve then enterStarve d n w.req s else s
  backOffFor w.req.requester (.access d n w) (k + 1) s

/-! ### Messages of a slice -/

/-- The slice of die `c` that holds the guest line, or would (DESIGN CHOICE, log 29). -/
def cacheSlice (s : State) (c la part : Nat) : Nat :=
  match cacheCopy s c la with
  | some (_, l) => l.slice
  | none => (guestSlice s c (partSide s c part) (la * 128)).getD 0

/-- A message of home slice `hn` to die `dst`; `req` is the requester, the home itself with HOMEREQ. -/
def homeMsg (s : State) (hd hn la dst req part cls : Nat) : CohMsg :=
  { blankMsg part hd hn dst (cacheSlice s dst la part) req la cls with homeReq := Nat.beq req hd }

/-- Inv to every die of a list. -/
def sendInvs (hd hn la req part cls : Nat) (l : List Nat) (s : State) : State :=
  each l (fun s c => sendMsg .inv (homeMsg s hd hn la c req part cls) s) s

/-- A request of a cache slice to the home of a line. -/
def requestMsg (d n la part cls : Nat) : CohMsg := blankMsg part d n (homeDie (la * 128)) 31 d la cls

/-! ### The directory's own transactions (Table COH-6: Home read, Home write, Recall) -/

def startHomeRead (e : DirEnt) (part cls : Nat) (s : State) : State :=
  let m := { homeMsg s e.die e.slice e.la e.owner e.die part cls with mask := 15 }
  let s := (sendMsg .fwdGetS m s).count e.die (Reg.COH_FWD e.slice) 1
  putDir { e with st := .bData, cause := 1, count := 0, dataOwed := true } s

def startHomeWrite (e : DirEnt) (cause part cls : Nat) (s : State) : State :=
  match e.st with
  | .s =>
    let s := sendInvs e.die e.slice e.la e.die part cls e.sharers s
    putDir { e with st := .bAck, cause := cause, count := e.sharers.length, dataOwed := false } s
  | .m | .o =>
    let s := (sendMsg .fwdGetM (homeMsg s e.die e.slice e.la e.owner e.die part cls) s).count e.die (Reg.COH_FWD e.slice) 1
    let s := sendInvs e.die e.slice e.la e.die part cls e.sharers s
    putDir { e with st := .bData, cause := cause, count := e.sharers.length, dataOwed := true } s
  | _ => s

/-- `fin` of Table COH-4. -/
def finish (e : DirEnt) (s : State) : State :=
  if e.cause = 1 then putDir { e with st := .s, sharers := addNat e.sharers e.owner, count := 0, dataOwed := false } s
  else freeDir e s

/-- The home's side of a read is settled: no die holds the line in M or O (R250). -/
def homeReadable (s : State) (d n la : Nat) : Bool :=
  match findDir s d n la with
  | none => true
  | some e => e.st == .s

/-- The home's side of a write is settled: the line is I at the directory (R250). -/
def homeWriteable (s : State) (d n la : Nat) : Bool := (findDir s d n la).isNone

/-! ### Serving a request -/

/-- A line that waits for a way (R223): way 16. -/
def wayless (d n la : Nat) (st : CSt) : Line := ⟨d, n, 16, la, st, false, false, 0, List.replicate 4 noSector, 0⟩

/-- The class of the access that a line's MSHR serves. -/
def mshrCls (s : State) (d n la : Nat) : Nat := ((findMshr s d n la).map (·.cls)).getD 1

/-- The line takes a way of its set. None while none qualifies. -/
def placeLine (l : Line) (stream : Bool) (s : State) : Option State :=
  if l.way < 16 then some s
  else
    match chooseWay s l.die l.slice l.la (l.st != .home) with
    | none => none
    | some c =>
      let r := match c with
        | .inl w => some (w, s)
        | .inr v => (evict (mshrCls s l.die l.slice l.la) v s).map (fun s' => (v.way, s'))
      r.map (fun x =>
        let k := (setLines x.2 l.die l.slice l.la).length
        let l := { l with way := x.1, rank := k }
        let s := putLine l x.2
        if stream then s else touchLine l s)

/-- Whether a sector has a fetch in flight. -/
def inFlight (s : State) (d n la sec : Nat) : Bool :=
  match findMshr s d n la with
  | some m => m.mask.getLsbD sec
  | none => false

/-- The sector after a partial write that meets its fill (R237). -/
def mergeWaiting (mask : BitVec 32) (v : SectorData) (x : Sector) : Sector :=
  { x with dirty := true, bytesOk := x.bytesOk ||| mask, data := mergeBytes mask v x.data }

/-- A waiter served on sector contents `x` of line `l`. -/
def serveOn (d n : Nat) (w : Waiter) (l : Line) (fresh : Bool) (s : State) : State :=
  let x := sectorAt l w.sec
  let la := w.la
  match w.want with
  | .read =>
    let s := if fresh then s.count d (Reg.UC_HIT n) 1 else s
    answer d n w 0 x.poison x.data (applyHint d n la w.req.hint false s)
  | .write mask v =>
    let s := putLine (setSector l w.sec (wroteSector mask v x)) s
    answer d n w 1 false 0 (applyHint d n la w.req.hint false s)
  | .badWrite mask v =>
    let s := putLine (setSector l w.sec { wroteSector mask v x with poison := true }) s
    answer d n w 1 false 0 (applyHint d n la w.req.hint false s)
  | .atomic op wide signed a b =>
    let s := if x.poison then s
      else putLine (setSector l w.sec ⟨true, true, false, 0, atomSector (w.req.pa % 32) op wide signed a.toNat b.toNat x.data⟩) s
    answer d n w 0 x.poison x.data (applyHint d n la w.req.hint false s)

/-- The bytes that a write writes; none for another access. -/
def Want.bytes : Want → Option (BitVec 32 × SectorData)
  | .write mask v => some (mask, v)
  | .badWrite mask v => some (mask, v)
  | _ => none

/-- Whether a waiter can be served at its home slice now, and the state after. A partial write that meets the fetch of its
sector is merged at once (R237), save one that poisons its sector. -/
def serveHome (d n : Nat) (w : Waiter) (fresh : Bool) (s : State) : Option State :=
  let la := w.la
  match w.want with
  | .read =>
    if homeReadable s d n la then
      match findLine s d n la with
      | some l => if (sectorAt l w.sec).valid then some (serveOn d n w l fresh s) else none
      | none => none
    else none
  | .write mask v | .badWrite mask v =>
    if homeWriteable s d n la then
      match findLine s d n la with
      | some l =>
        if (sectorAt l w.sec).valid || mask == BitVec.allOnes 32 then some (serveOn d n w l fresh s)
        else if inFlight s d n la w.sec && w.want == .write mask v then
          some (answer d n w 1 false 0 (noteHint d n la w.req.hint
            (putLine (setSector l w.sec (mergeWaiting mask v (sectorAt l w.sec))) s)))
        else none
      | none =>
        if mask == BitVec.allOnes 32 then
          (placeLine (wayless d n la .home) (w.req.hint == 1) s).bind (fun s =>
            (findLine s d n la).map (fun l => serveOn d n w l fresh s))
        else none
    else none
  | .atomic _ _ _ _ _ =>
    if homeWriteable s d n la then
      match findLine s d n la with
      | some l => if (sectorAt l w.sec).valid then some (serveOn d n w l fresh s) else none
      | none => none
    else none

/-- Whether a waiter can be served from a guest line now (Table COH-5: "hit"). -/
def serveGuest (d n : Nat) (w : Waiter) (fresh : Bool) (s : State) : Option State :=
  match findLine s d n w.la with
  | none => none
  | some l =>
    let v := (sectorAt l w.sec).valid
    match w.want, l.st with
    | .read, .s | .read, .o | .read, .m | .read, .ssD | .read, .imA | .read, .smAD | .read, .omA =>
      if v then some (serveOn d n w l fresh s) else none
    | .write _ _, .m | .badWrite _ _, .m => some (serveOn d n w l fresh s)
    | _, _ => none

/-- Whether the line is homed on the die. -/
def isHome (d la : Nat) : Bool := Nat.beq (homeDie (la * 128)) d

def serve (d n : Nat) (w : Waiter) (fresh : Bool) (s : State) : Option State :=
  if isHome d w.la then serveHome d n w fresh s else serveGuest d n w fresh s

/-- A write or an atomic may not pass an earlier one to its sector that waits (R238). -/
def ordered (earlier : List Waiter) (w : Waiter) : Bool :=
  Nat.beq (want? w) 0 || !earlier.any (fun e => !(Nat.beq (want? e) 0) && Nat.beq e.la w.la && Nat.beq e.sec w.sec)

/-! ### Starting what a waiter needs -/

/-- Sectors added to the fetch of a home line, those not valid yet; each is one UC_MISS. -/
def startFetch (d n la : Nat) (mask : BitVec 4) (s : State) : State :=
  let (l, s) := match findLine s d n la with
    | some l => (l, s)
    | none => (wayless d n la .home, putLine (wayless d n la .home) s)
  match findMshr s d n la with
  | none => s
  | some m =>
    let new := mask &&& ~~~(validMask l) &&& ~~~m.mask
    (putMshr { m with mask := m.mask ||| new } s).count d (Reg.UC_MISS n) (popCount 4 new.toNat)

/-- What a waiter of a home line needs: the directory's transaction, then the fetch. -/
def demandHome (d n : Nat) (w : Waiter) (s : State) : State :=
  let la := w.la
  let stable := match findDir s d n la with
    | none => true
    | some e => e.st == .s || e.st == .m || e.st == .o
  if !stable then s
  else
    match findDir s d n la, w.want with
    | some e, .read => if e.st = .s then startFetch d n la (wantMask w.req.fill w.sec) s else startHomeRead e w.req.part w.req.cls s
    | some e, _ => startHomeWrite e 2 w.req.part w.req.cls s
    | none, .read => startFetch d n la (wantMask w.req.fill w.sec) s
    | none, .write mask _ | none, .badWrite mask _ => if mask == BitVec.allOnes 32 then s else startFetch d n la (wantMask false w.sec) s
    | none, .atomic _ _ _ _ _ => startFetch d n la (wantMask w.req.fill w.sec) s

/-- The cache's request for a line in its transient state. -/
def cohRequest (l : Line) (part cls : Nat) (s : State) : State :=
  let m := requestMsg l.die l.slice l.la part cls
  let want := match findMshr s l.die l.slice l.la with
    | some m => m.mask
    | none => 0
  let put := { m with mask := dirtyMask l, dirty := dirtyMask l, poison := poisonMask l &&& dirtyMask l, data := lineData l }
  match l.st with
  | .isD | .ssD => sendReq .getS { m with mask := want } s
  | .imAD => sendReq .getM m s
  | .smAD | .omA => sendReq .upg { m with mask := validMask l } s
  | .miA => sendReq .putM put s
  | .oiA => sendReq .putO put s
  | .siA => sendReq .putS m s
  | _ => s

/-- What a waiter of a guest line needs (Table COH-5, Load and Store): a request to the home, with its sectors in
the MSHR. -/
def demandGuest (d n : Nat) (w : Waiter) (s : State) : State :=
  let la := w.la
  let mask := wantMask w.req.fill w.sec
  let go (l : Line) (mask : BitVec 4) (s : State) : State :=
    let s := putLine l s
    let s := match findMshr s d n la with
      | some m => putMshr { m with mask := mask } s
      | none => s
    cohRequest l w.req.part w.req.cls s
  if (findPut s d n la).isSome then s
  else
    match findLine s d n la, want? w with
    | none, 0 => go { wayless d n la .isD with cnt := 0 } mask s
    | none, 1 => go { wayless d n la .imAD with cnt := 0 } 15 s
    | some l, 0 => if l.st = .s then go { l with st := .ssD, cnt := 0 } (mask &&& ~~~(validMask l)) s else s
    | some l, 1 =>
      if l.st = .s then go { l with st := .smAD, cnt := 0 } (~~~(validMask l)) s
      else if l.st = .o then go { l with st := .omA, cnt := 0 } 0 s
      else s
    | _, _ => s

def demand (d n : Nat) (w : Waiter) (s : State) : State :=
  if isHome d w.la then demandHome d n w s else demandGuest d n w s

/-! ### Pumping an MSHR -/

/-- The waiters of a list served in order, those that wait first with them. -/
def serveList (d n : Nat) : List Waiter → List Waiter → State → List Waiter × State
  | left, [], s => (left, s)
  | left, w :: t, s =>
    match if ordered left w then serve d n w false s else none with
    | some s => serveList d n left t s
    | none => serveList d n (left ++ [w]) t s

/-- Every waiter that can be served is served. -/
def servePass (d n la : Nat) (s : State) : State :=
  match findMshr s d n la with
  | none => s
  | some m =>
    let (left, s) := serveList d n [] m.waiters s
    match findMshr s d n la with
    | none => s
    | some m' =>
      let used := poolUsed s d n
      let s := putMshr { m' with owned := m.owned && left.head? == m.waiters.head?, waiters := left } s
      if poolUsed s d n < used then holdForHead d n true s else s

/-- Every waiter that is left starts what it needs. -/
def demandPass (d n la : Nat) (s : State) : State :=
  match findMshr s d n la with
  | none => s
  | some m => each m.waiters (fun s w => demand d n w s) s

/-- Whether a cache line is in a stable state. -/
def stableLine (l : Line) : Bool :=
  match l.st with
  | .home | .s | .o | .m => true
  | _ => false

/-- R224, R267: a guest line that may take no way leaves as soon as it has served its waiters. -/
def leaveUnplaced (d n la : Nat) (s : State) : State :=
  match findLine s d n la with
  | some l =>
    if l.way = 16 && l.st != .home && stableLine l && decide (guestQuota s d n = 0) then
      (evictGuest (mshrCls s d n la) l s).getD s
    else s
  | none => s

/-- The MSHR is freed when nothing is in flight and nothing waits, the line being placed or gone. -/
def settleMshr (d n la : Nat) (s : State) : State :=
  match findMshr s d n la with
  | none => s
  | some m =>
    if m.waiters.isEmpty && m.remote.isEmpty && m.mask == 0 then
      let s := leaveUnplaced d n la s
      match findLine s d n la with
      | none => freeMshr m s
      | some l => if stableLine l && Nat.blt l.way 16 then freeMshr m s else s
    else s

/-- One round for a line: serve, start, and serve what that made possible. -/
def pump (d n la : Nat) (s : State) : State :=
  settleMshr d n la (servePass d n la (demandPass d n la (servePass d n la s)))

/-! ### Accepting a request -/

/-- A request that needs an MSHR or a waiter takes it, or is NACKed (R229–R231). -/
def acceptRequest (d n k : Nat) (w : Waiter) (s : State) : State :=
  match findMshr s d n w.la with
  | some m =>
    if canWait s d n w.req.cls (heldFrom s d n true w.req) m then
      pump d n w.la (slicePeaks d n (leaveStarve d n w.req (putMshr { m with waiters := m.waiters ++ [w] } s)))
    else nackRetry d n k w s
  | none =>
    if canMshr s d n w.req.cls (heldFrom s d n false w.req) then
      let m : Mshr := ⟨d, n, w.la, 0, w.req.cls, true, [w], w.req.hint, [], [], none⟩
      pump d n w.la (slicePeaks d n (leaveStarve d n w.req (putMshr m s)))
    else nackRetry d n k w s

/-- Earlier waiters of the line. -/
def earlierWaiters (s : State) (d n la : Nat) : List Waiter :=
  match findMshr s d n la with
  | some m => m.waiters
  | none => []

/-- A write or an atomic that cannot be performed at once, made a request of the slice that serves it (R230, R264): it waits
there, or backs off. -/
def waitAccess (b : AccBy) (pa : Nat) (want : Want) (s : State) : State :=
  match sliceFor s b.die b.side pa with
  | none => s
  | some n =>
    let w : Waiter := ⟨⟨b.die * 320 + b.router, b.part, b.cls, 0, 0, pa, b.hint, b.fill, false, none⟩, want⟩
    match if ordered (earlierWaiters s b.die n w.la) w then serve b.die n w true s else none with
    | some s => s
    | none => acceptRequest b.die n 0 w s

/-! ### Fills (R218, R223, R237) -/

/-- The fetched sectors of a home line, from sector `i` on. A failed channel returns poison (Table UC-5). -/
def fillSectors (mask bad : BitVec 4) (dead : Bool) (l : Line) (s : State) : Nat → List Sector → List Sector
  | _, [] => []
  | i, x :: t =>
    let (v, p) := hbmRead s (l.la * 128 + i * 32)
    (if mask.getLsbD i then filled (if dead then 0 else v) (p || bad.getLsbD i || dead) x else x)
      :: fillSectors mask bad dead l s (i + 1) t

/-- The UC-POISON record (Table FLT-6): cause 0 dirty SRAM, 1 HBM read. -/
def poisonRecord (d n la cause mask : Nat) (s : State) : State :=
  let p := linePart s la
  emit d (0x10 + n) 0x040 0 (partSealed s p) [pf 1 n, pf 1 cause, pa_ 1 mask, pf 1 p, pf 4 0, pa_ 8 la] s

/-- The hints that the line's accesses left while it had no way take effect in turn (R239). -/
def settleHints (d n la : Nat) (s : State) : State :=
  match findMshr s d n la with
  | none => s
  | some m => each m.hints (fun s h => applyHint d n la h false s) (putMshr { m with hints := [] } s)

/-- A fill installs into a placed line and serves the MSHR. -/
def installFill (m : Mshr) (bad : BitVec 4) (dead : Bool) (s : State) : State :=
  match findLine s m.die m.slice m.la with
  | none => s
  | some l =>
    let sectors := fillSectors m.mask bad dead l s 0 l.sectors
    let s := putLine { l with sectors := sectors } s
    let s := if m.mask &&& bad != 0 && !dead then poisonRecord m.die m.slice m.la 1 (m.mask &&& bad).toNat s else s
    let s := settleHints m.die m.slice m.la (putMshr { m with mask := 0, back := none } s)
    pump m.die m.slice m.la (applyHint m.die m.slice m.la m.hint true s)

/-- A line that received a fill takes a way if it may (R221, R223, R224). -/
def tryPlace (d n la : Nat) (s : State) : State :=
  match findLine s d n la with
  | some l =>
    if 16 ≤ l.way && !(l.st != .home && decide (guestQuota s d n = 0)) then
      match placeLine l (((findMshr s d n la).map (·.hint)).getD 0 == 1) s with
      | some s => settleHints d n la s
      | none => s
    else s
  | none => s

/-- A fill that finds a way, or waits in its MSHR (R223). -/
def fillReturn (m : Mshr) (bad : BitVec 4) (dead : Bool) (s : State) : State :=
  match findLine s m.die m.slice m.la with
  | none => pump m.die m.slice m.la s
  | some l =>
    if l.st != .home && !stableLine l then s
    else
      match placeLine l (m.hint == 1) s with
      | none => putMshr { m with back := some bad } s
      | some s => if l.st = .home then installFill m bad dead s else pump m.die m.slice m.la (settleHints m.die m.slice m.la s)

/-- A line that waits for a way tries again: its fill if that has returned, else the line itself once nothing is in flight
for it (R223, R224, R267). -/
def retryPlace (l : Line) (s : State) : State :=
  match findMshr s l.die l.slice l.la with
  | some m =>
    (match m.back with
     | some bad => fillReturn m bad (sliceFailed s l.die l.slice) s
     | none => if m.mask = 0 && stableLine l then pump l.die l.slice l.la (tryPlace l.die l.slice l.la s) else s)
  | none => if stableLine l then tryPlace l.die l.slice l.la s else s

/-- Every line of a slice that waits for a way tries again. -/
def retryPlaces (d n : Nat) (s : State) : State :=
  each (s.slc.lines.filter (fun l => Nat.beq l.die d && Nat.beq l.slice n && Nat.ble 16 l.way))
    (fun s l => retryPlace l s) s

end Sys2Proof.Machine
end

