-- ==== Sys2Proof/Machine/Faults.lean ====
section
/-! DEFINITION. Completions (R341, R342), interrupts (R442–R445), the context kill (R189–R191) and the
partition fault (R531): the shared operations that every fault and every end of an item goes through. -/

namespace Sys2Proof.Machine

/-! ### Interrupts -/

/-- The remapping entry of vector `v` of instance `i` (R443). -/
def irqEntry (s : State) (d p i v : Nat) : Nat := 2048 * partSide s d p + 64 * i + v

/-- The entry sends one MSI on the instance's host port, as its VF or PF, and PENDING clears (R443, R444). -/
def sendMsi (d p i e : Nat) (s : State) : State :=
  let s := s.wr d (Reg.PART_IRQ_MAP_PENDING e) 0
  match instEntry s p i with
  | some x =>
    { s with out := { s.out with msi := s.out.msi ++
        [⟨x.hostPort, x.vf, s.rd d (Reg.PART_IRQ_MAP_ADDR e) * 4, s.rd d (Reg.PART_IRQ_MAP_DATA e)⟩] } }
  | none => s

/-- Whether the entry may send now: not masked, not between its ADDR and DATA writes (R444, R574). -/
def irqOpen (s : State) (d e : Nat) : Bool :=
  decide (s.rd d (Reg.PART_IRQ_MAP_MASK e) = 0) && !s.prt.irqHeld.contains (d * 4096 + e)

/-- The vector of completion queue `q` is raised (R442, R444, R445). -/
def raiseVector (q : Nat) (s : State) : State :=
  let d := queDie q
  let p := quePart s q
  let i := queInst s q
  let v := s.rd d (Reg.QUE_CTRL_VECTOR (queLocal q))
  let lim := ((instEntry s p i).map (·.vectors)).getD 0
  if lim ≤ v || decide (instState s d p i ≠ 2) then s.count d Reg.PART_IRQ_DROP 1
  else
    let e := irqEntry s d p i v
    let s := s.count d (Reg.PART_IRQ_MAP_PENDING e) 1
    if irqOpen s d e && (decide (s.rd d (Reg.PART_IRQ_MAP_COAL_CNT e) ≤ s.rd d (Reg.PART_IRQ_MAP_PENDING e))
        || decide (s.rd d (Reg.PART_IRQ_MAP_COAL_US e) = 0)) then sendMsi d p i e s
    else s

/-- The partition and instance that own remapping entry `e` of die `d` (R443). -/
def irqOwner (s : State) (d e : Nat) : Option (Nat × Nat) :=
  (halfPart s d (e / 2048)).map (fun p => (p, e % 2048 / 64))

/-- PENDING cleared in every entry of the instance (R445). -/
def clearPending (p i : Nat) (s : State) : State :=
  each (partHalves s p) (fun s h =>
    each (List.range 64) (fun s v =>
      s.wr (h / 2) (Reg.PART_IRQ_MAP_PENDING (2048 * (h % 2) + 64 * i + v)) 0) s) s

/-! ### Writes of the queue block -/

/-- Bytes from `pa` on that cannot be performed at once, sector by sector as requests of the slices that serve them. -/
def waitBytes (b : AccBy) : Nat → Nat → List Byte → State → State
  | 0, _, _, s => s
  | fuel + 1, pa, l, s =>
    if l.isEmpty then s
    else
      let o := pa % 32
      let k := min l.length (32 - o)
      let s := waitAccess b pa (.write (byteMask o k) (BitVec.ofNat 256 (ofLe (l.take k) * 256 ^ o))) s
      waitBytes b fuel (pa + k) (l.drop k) s

/-- A write of the queue block performed at PART scope (R331, R342): through the unified cache; where another
transaction holds the line, it waits at the slice (R264). -/
def blockWrite (b : AccBy) (pa : Nat) (l : List Byte) (s : State) : State :=
  match accPut b (l.length / 32 + 2) pa l s with
  | some (_, s) => s
  | none => if homePart s pa = some b.part && backed s pa then waitBytes b (l.length / 32 + 2) pa l s else s

/-! ### Queues and completions -/

/-- Who the queue block is when it reads and writes the ring of queue `q` (R331, R221). -/
def queBy (s : State) (q : Nat) : AccBy where
  die := queDie q
  side := partSide s (queDie q) (quePart s q)
  part := quePart s q
  cls := queClass s q
  hint := 0
  fill := false
  router := 300

/-- Entries of a ring. -/
def ringEntries (s : State) (q : Nat) : Nat := 2 ^ queLog2 s q

/-- Free entries of completion queue `cq` (R341). -/
def cqFree (s : State) (cq : Nat) : Nat :=
  ringEntries s cq - (quePi s cq - queCi s cq) - SMap.get 0 s.que.resv cq

/-- RTIME[41:10] (Table SEQ-4). -/
def rtimeInfo (s : State) (d : Nat) : Nat := bits (s.rtime d) 41 10

/-- A completion entry's bytes (Table SEQ-4); PHASE is 1 on even passes (R336). -/
def cqeBytes (s : State) (cq tag status queue kind index info : Nat) (irq : Bool) : List Byte :=
  let pass := quePi s cq / ringEntries s cq
  leBytes 2 tag ++ leBytes 1 status ++ leBytes 1 ((if pass % 2 = 0 then 1 else 0) + (if irq then 2 else 0))
    ++ leBytes 2 queue ++ leBytes 1 kind ++ leBytes 1 0 ++ leBytes 4 index ++ leBytes 4 info

/-- A completion entry written at PI of completion queue `cq`; PI advances, and the vector is raised with IRQ
(R342). -/
def writeCqe (cq tag status queue kind index info : Nat) (irq : Bool) (s : State) : State :=
  let pi := quePi s cq
  let at_ := queBase s cq + pi % ringEntries s cq * 16
  let s := blockWrite (queBy s cq) at_ (cqeBytes s cq tag status queue kind index info irq) s
  let s := s.wr (queDie cq) (Reg.QUE_PI (queLocal cq)) (pi + 1)
  if irq then raiseVector cq s else s

/-- The completion queue of queue `q` (QUE_CFG.CQ). -/
def cqOf (s : State) (q : Nat) : Nat := s.rd (queDie q) (Reg.QUE_CFG_CQ (queLocal q))

/-- Lower a counter of a sparse map by one, not below 0. -/
def lower (m : SMap Nat) (k : Nat) : SMap Nat := SMap.set 0 m k (SMap.get 0 m k - 1)
/-- Raise a counter of a sparse map by one. -/
def raise_ (m : SMap Nat) (k : Nat) : SMap Nat := SMap.set 0 m k (SMap.get 0 m k + 1)

/-! ### Buckets (R439, R440) -/

/-- 1 in the fixed point of a bucket level (R439: 24 fractional bits). -/
def bucketOne : Nat := 0x1000000

/-- The key of a bucket. -/
def bucketKey (d j kind : Nat) : Nat := (d * 64 + j) * 8 + kind

/-- The rate of a bucket in its QOS unit; 0 is no bucket. Kinds 0 doorbell, 1 class U, 2 memory, 3 Toash, 4 energy. -/
def bucketRate (s : State) (p i kind : Nat) : Nat :=
  match kind with
  | 0 => qosField s p i 0x04 4
  | 1 => qosField s p i 0x08 4
  | 2 => qosField s p i 0x0C 2
  | 3 => qosField s p i 0x0E 2
  | _ => qosField s p i 0x10 4

/-- The level of a bucket on die `d`, with 24 fractional bits. -/
def bucketLevel (s : State) (d p i kind : Nat) : Int :=
  SMap.get 0 s.que.buckets (bucketKey d (instSlot s d p i) kind)

/-- A bucket set. -/
def setBucket (d p i kind : Nat) (v : Int) (s : State) : State :=
  { s with que := { s.que with buckets := SMap.set 0 s.que.buckets (bucketKey d (instSlot s d p i) kind) v } }

/-- `n` units taken from a bucket, if the instance has it. -/
def charge (d p i kind n : Nat) (s : State) : State :=
  if bucketRate s p i kind = 0 then s else setBucket d p i kind (bucketLevel s d p i kind - n * bucketOne) s

/-- A cluster or a mover of die `d` counts one sector of an item of queue `q` (R440). -/
def noteSector (q d pa : Nat) (s : State) : State :=
  let all := raise_ s.que.sectors (2 * q)
  { s with que := { s.que with sectors := if homeDie pa = d then all else raise_ all (2 * q + 1) } }

/-- The sectors counted for queue `q` are reported: 32 B each from the memory bucket of its instance, and from the Toash bucket
for those of another die (Table PART-3). -/
def reportSectors (q : Nat) (s : State) : State :=
  let bytes (k : Nat) : Nat := 32 * SMap.get 0 s.que.sectors (2 * q + k)
  let spend (kind k : Nat) (s' : State) : State := charge (queDie q) (quePart s q) (queInst s q) kind (bytes k) s'
  let s := spend 3 1 (spend 2 0 s)
  { s with que := { s.que with sectors := SMap.set 0 (SMap.set 0 s.que.sectors (2 * q) 0) (2 * q + 1) 0 } }

/-- An item of queue `q` completes (R342), and its sectors are reported (R440): with CQE its entry is written in the reserved place; either way its
completion is counted for SERIAL. -/
def completeItem (q tag status kind index info : Nat) (cqe irq : Bool) (s : State) : State :=
  let s := reportSectors q { s with que := { s.que with itemsOut := lower s.que.itemsOut q } }
  if cqe then
    let cq := cqOf s q
    let s := { s with que := { s.que with resv := lower s.que.resv cq } }
    writeCqe cq tag status q kind index info irq s
  else s

/-! ### Sequences a launch is attached to (R345, R346) -/

/-- A change made to the sequence with ID `id`. -/
def updSeq (id : Nat) (f : SeqSlot → SeqSlot) (s : State) : State :=
  { s with que := { s.que with seqs := updWhere (fun x => Nat.beq x.id id) f s.que.seqs } }

/-- LCNT of step `n` lowered (R346). -/
def detachStep (n : BitVec 32) (x : SeqSlot) : SeqSlot :=
  { x with recs := updWhere (fun r => r.step == n) (fun r => { r with lcnt := r.lcnt - 1 }) x.recs }

/-- The attachments of a launch that will not run undone: LCNT lowered (R346); those of a killed one taint their sequences
(R357). -/
def detachIds (ids : List Nat) (n : BitVec 32) (taint : Bool) (s : State) : State :=
  each ids (fun s id => updSeq id (fun x => { detachStep n x with tainted := x.tainted || taint }) s) s

/-- A launch detaches from every step it is attached to (R346); a killed one taints its sequences (R357). -/
def detach (l : Launch) (taint : Bool) (s : State) : State :=
  detachIds l.attached l.step taint s

/-! ### Ending work -/

def troupeTag (t : Troupe) (p i c : Nat) : Bool := Nat.beq t.part p && Nat.beq t.inst i && Nat.beq t.ctx c
def launchTag (l : Launch) (p i c : Nat) : Bool := Nat.beq l.part p && Nat.beq l.inst i && Nat.beq l.ctx c
def moverTag (m : Mover) (p i c : Nat) : Bool := Nat.beq m.part p && Nat.beq m.inst i && Nat.beq m.ctx c

/-- The L1 of a cluster, and the words it fetched, dropped (R190, R199). -/
def invalL1 (d c : Nat) (s : State) : State :=
  { s with core := { s.core with l1 := s.core.l1.filter (fun x => !(Nat.beq x.die d && Nat.beq x.cluster c)) } }

/-- Launches whose troupes may still run: those dispatched, and those that a kill under way has ended. -/
def allLaunches (s : State) : List Launch := s.core.launches ++ (s.core.kills.map (·.ending)).flatten

/-- A launch that satisfies `pl` leaves the clusters of the dies that satisfy `on`. -/
def leaveDies (pl : Launch → Bool) (on : Nat → Bool) (l : Launch) : Launch :=
  if pl l then { l with resident := l.resident.filter (fun k => !on (k / 320)) } else l

/-- Whether a back-off is that of the LDKV of a troupe that satisfies the test. -/
def kvOf (f : SlotAt → Bool) : RetryOf → Bool
  | .kv a => f a
  | _ => false

/-- On the dies that satisfy `on`: troupes, launches' local stores and held reads that satisfy the tests are gone, and the
L1s of their clusters are invalidated (R190 steps 3, 5, 6). -/
def dropTroupes (on : Nat → Bool) (pt : Troupe → Bool) (pl : Launch → Bool) (s : State) : State :=
  let pt (t : Troupe) : Bool := on t.die && pt t
  let gone := s.core.troupes.filter pt
  let ls := (allLaunches s).filter pl
  let clusters := gone.map (fun t => t.die * 320 + t.cluster)
    ++ ((ls.map (·.resident)).flatten).filter (fun k => on (k / 320))
  let s := each clusters (fun s c => invalL1 (c / 320) (c % 320) s) s
  let isGone (a : SlotAt) : Bool := gone.any (fun t =>
    Nat.beq t.die a.die && Nat.beq t.cluster a.cluster && Nat.beq t.core a.core && Nat.beq t.slot a.slot)
  { s with
    core := { s.core with
      troupes := s.core.troupes.filter (fun t => !pt t),
      stores := s.core.stores.filter (fun x =>
        !(on x.die && ls.any (fun l => Nat.beq l.queue x.queue && l.index == x.index))),
      launches := s.core.launches.map (leaveDies pl on),
      kills := s.core.kills.map (fun k => { k with ending := k.ending.map (leaveDies pl on) }) },
    slc := { s.slc with retry := s.slc.retry.map (fun r => { r with waiting := r.waiting.filter (fun b => !kvOf isGone b.what) }) },
    que := { s.que with heldKv := s.que.heldKv.filter (fun h => !isGone h.slot) } }

/-- Movers that satisfy the test are freed, and what their partner accesses bring back is dropped (Table HOST-5). -/
def dropMovers (pm : Mover → Bool) (s : State) : State :=
  let mine (o : Outbound) : Bool := s.que.movers.any (fun m => Nat.beq m.die o.die && Nat.beq m.m o.unit && pm m)
  let out := (s.host.outbound.filter (fun o => !(mine o && o.done))).map (fun o => if mine o then { o with gone := true } else o)
  { s with
    que := { s.que with movers := s.que.movers.filter (fun m => !pm m) },
    host := { s.host with outbound := out } }

/-! ### Context kill (R189–R191) -/

/-- The CONTEXT-KILL record (Table FLT-6), with the faults that the kill absorbed (R194). -/
def killRecord (w : KillWhy) (absorbed : Nat) (s : State) : State :=
  emit w.die (if w.kind = 1 then 0x0A else 0x0B) 0x030 2 (partSealed s w.part)
    [pf 1 w.part, pf 1 w.inst, pf 1 w.ctx, pf 1 w.code, pf 2 w.queue, pa_ 2 absorbed, pf 2 w.tag, pf 1 w.kind, pf 1 w.sub,
     pf 2 w.unit, pf 1 w.lane, pf 1 0, pa_ 4 w.troupe, pa_ 4 w.index, pa_ 8 w.pc, pa_ 8 w.addr, pa_ 8 w.cursor] s

/-- A killed launch detaches, taints its sequences (R357) and completes with KILLED (R191). -/
def endLaunch (l : Launch) (s : State) : State :=
  completeItem l.queue l.tag.toNat 1 0 (l.index.toNat % 2 ^ 32) (rtimeInfo s (queDie l.queue)) l.cqe l.irq
    (detach l true s)

/-- A SHIFT in progress: a context kill waits for it (R389). -/
def inShift (m : Mover) : Bool :=
  match m.latched with
  | some w => Nat.beq (w.toNat % 16) 2 && m.checked
  | none => false

/-- Movers that satisfy the test stop: their items complete with KILLED, save that one in a SHIFT first completes it
(R389). -/
def killMovers (f : Mover → Bool) (s : State) : State :=
  let ms := s.que.movers.filter (fun m => f m && !inShift m)
  let s := { s with que := { s.que with
    movers := updWhere (fun m => f m && inShift m) (fun m => { m with stopped := true })
      (s.que.movers.filter (fun m => !(f m && !inShift m))) } }
  each ms (fun s m =>
    completeItem m.queue m.tag.toNat 1 1 (m.index.toNat % 2 ^ 32) (rtimeInfo s (queDie m.queue)) m.cqe m.irq s) s

/-- Whether the context (p, i, c) is killed and not re-armed (R191). -/
def ctxKilled (s : State) (p i c : Nat) : Bool := s.core.killed.contains (p, i, c)

/-- The kill under way for a context tag. -/
def isKill (p i c : Nat) (k : OpenKill) : Bool := Nat.beq k.part p && Nat.beq k.inst i && Nat.beq k.ctx c

def findKill (s : State) (p i c : Nat) : Option OpenKill := s.core.kills.find? (isKill p i c)

/-- Whether the context is stopped on die `d`: it is killed, and KILL has reached the die (R190). -/
def tagStopped (s : State) (d p i c : Nat) : Bool :=
  ctxKilled s p i c && !((findKill s p i c).map (fun k => k.waiting.contains d)).getD false

/-- Every die has stopped the context: its launches end, and the record of the primary fault is written (R190 step 7,
R194). -/
def closeKill (k : OpenKill) (s : State) : State :=
  let s := { s with core := { s.core with kills := s.core.kills.filter (fun x => !isKill k.part k.inst k.ctx x) } }
  killRecord k.why k.absorbed (each k.ending (fun s l => endLaunch l s) s)

/-- The kills under way that satisfy the test close. -/
def closeKills (f : OpenKill → Bool) (s : State) : State := each (s.core.kills.filter f) (fun s k => closeKill k s) s

/-- Whether KILL has reached every die. -/
def killDone (k : OpenKill) : Bool := k.waiting.isEmpty

/-! ### Partition fault (R530, R531) -/

/-- The COMPLETION queues of partition `p`, ascending (QUE_CFG). -/
def completionQueues (s : State) (p : Nat) : List Nat :=
  (List.range (64 * dieCount s.orderCode)).filter (fun q =>
    queNamed s q && decide (queKind s q = 3) && decide (quePart s q = p))

/-- R531 item 4: one PART-FAULT entry in each COMPLETION queue with a free entry. A disabled queue takes none
(DEDUCED, log 15). -/
def faultEntries (p info : Nat) (s : State) : State :=
  each (completionQueues s p) (fun s cq =>
    if queEnabled s cq && decide (0 < cqFree s cq) then writeCqe cq 0 0x0F cq 0xFF 0 info true s else s) s

/-- The work of partition `p` stops (R531 items 1 to 3). A context kill under way completes with it (R197). -/
def stopPartition (p : Nat) (s : State) : State :=
  let s := closeKills (fun k => Nat.beq k.part p) s
  let s := dropTroupes (fun _ => true) (fun t => Nat.beq t.part p) (fun l => Nat.beq l.part p) s
  let s := dropMovers (fun m => Nat.beq m.part p) s
  { s with
    core := { s.core with launches := s.core.launches.filter (fun l => !(Nat.beq l.part p)) },
    que := { s.que with
      items := s.que.items.filter (fun x => !(Nat.beq (quePart s x.2.queue) p)),
      closing := s.que.closing.filter (fun x => !(Nat.beq (quePart s x.queue) p)),
      exchanges := s.que.exchanges.filter (fun x => !(Nat.beq (quePart s x.queue) p)),
      exchanged := s.que.exchanged.filter (fun x => !(Nat.beq (quePart s x.queue) p)) } }

/-- FAULTED on every half, save where quiesce has put QUIESCED (R72). -/
def setFaulted (p : Nat) (s : State) : State :=
  let s := each (partHalves s p) (fun s h =>
    if s.rd (h / 2) (Reg.PART_STATE (h % 2)) = 2 then s else s.wr (h / 2) (Reg.PART_STATE (h % 2)) 3) s
  { s with prt := { s.prt with faulted := addNat s.prt.faulted p } }

/-- A partition fault raised by die `d` (R531) with a cause of Table FLT-2; the cause's own record has type
`ctype` and SEQ `cseq`. One that arrives while the partition is FAULTED does nothing more (R546). -/
def partFault (p cause d ctype cseq : Nat) (s : State) : State :=
  if s.prt.faulted.contains p || ((partHalves s p).isEmpty && !(imgParts s).contains p) then s
  else
    let s := stopPartition p (setFaulted p s)
    let seq := nextSeq s d
    let s := emit d 0 0x031 3 (partSealed s p) [pf 1 p, pf 1 cause, pf 1 d, pf 1 0, pf 2 ctype, pf 2 cseq] s
    faultEntries p (cause + d * 0x100 + seq * 0x10000) s

/-- A record of die `d` that is the cause of a partition fault, and the fault (R531 item 5). -/
def faultWith (p cause d unit typ cls : Nat) (payload : List PF) (s : State) : State :=
  let seq := nextSeq s d
  let s := emit d unit typ cls (partSealed s p) payload s
  partFault p cause d typ seq s

/-! ### Broken reductions (R328) -/

/-- The sector at `pa` poisoned (R220): in its home slice where it is held, else in HBM. -/
def poisonSector (pa : Nat) (s : State) : State :=
  let la := pa / 128
  let sec := bits pa 6 5
  match (homeChan s pa).bind (fun n => findLine s (homeDie pa) n la) with
  | some l =>
    if (sectorAt l sec).valid then
      putLine (setSector l sec { sectorAt l sec with poison := true, dirty := true }) s
    else hbmWrite pa (hbmRead s pa).1 true s
  | none => hbmWrite pa (hbmRead s pa).1 true s

/-- The RED-BROKEN record, the counter and the partition fault of a group whose sector is homed on die `d` (R328). -/
def redBroken (d : Nat) (p : RedPkt) (cause : Nat) (s : State) : State :=
  let s := s.count d Reg.RED_BROKEN 1
  faultWith p.key.part 0x04 d 8 0x061 3
    [pf 1 p.key.part, pf 1 p.key.op, pf 2 p.key.tag, pf 1 cause, pf 1 0, pa_ 2 p.contrib, pa_ 2 p.count, pf 6 0,
     pa_ 8 (p.key.sector * 32)] s

/-- A broken group: its entry is discarded and its target sector is poisoned (R328). -/
def redBreak (a : Accum) (cause : Nat) (s : State) : State :=
  let s := { s with net := { s.net with accum := s.net.accum.erase a } }
  redBroken a.die a.pkt cause (poisonSector (a.pkt.key.sector * 32) s)

/-- Every open accumulation that satisfies the test is broken (R323, R324). -/
def redBreakWhere (f : Accum → Bool) (cause : Nat) (s : State) : State :=
  each (s.net.accum.filter f) (fun s a => redBreak a cause s) s

/-! ### Context fault (R189–R191, R323) -/

/-- KILL for a context tag as it reaches one die (R190 steps 3 to 6, R191): the die's troupes and movers of the tag stop,
and the launches of its queues under the tag end, at once or with the kill under way. -/
def killOnDie (d p i c : Nat) (s : State) : State :=
  let s := dropTroupes (Nat.beq d) (fun t => troupeTag t p i c) (fun l => launchTag l p i c) s
  let mine (l : Launch) : Bool := launchTag l p i c && Nat.beq (queDie l.queue) d
  let ls := s.core.launches.filter mine
  let open_ := (findKill s p i c).isSome
  let reach (k : OpenKill) : OpenKill := { k with waiting := delNat k.waiting d, ending := k.ending ++ ls }
  let s := { s with core := { s.core with
    launches := s.core.launches.filter (fun l => !mine l),
    kills := updWhere (isKill p i c) reach s.core.kills,
    killed := if ctxKilled s p i c then s.core.killed else s.core.killed ++ [(p, i, c)] } }
  let s := if open_ then s else each ls (fun s l => endLaunch l s) s
  killMovers (fun m => moverTag m p i c && Nat.beq m.die d) s

/-- KILL reaches die `d`; the kill closes with the last die, and the reductions that it leaves broken on the die break
(R190, R197, R323). -/
def killReaches (d p i c : Nat) (s : State) : State :=
  let s := closeKills (fun k => isKill p i c k && killDone k) (killOnDie d p i c s)
  redBreakWhere (fun a => Nat.beq a.die d && Nat.beq a.pkt.key.part p && a.insts.contains i) 4 s

/-- The order of faults of R194: RTIME, die, cluster, core, slot. -/
def faultKey (time : Nat) (w : KillWhy) : List Nat := [time, w.die, w.unit, w.sub, w.slot]

/-- A fault that a kill under way absorbs; an earlier one becomes the primary (R194). -/
def absorbFault (time : Nat) (w : KillWhy) (k : OpenKill) : OpenKill :=
  let k := { k with absorbed := k.absorbed + 1 }
  if faultKey time w < faultKey k.time k.why then { k with why := w, time := time } else k

/-- A context fault (R189): it starts a kill, whose KILL is on its way to the other dies of the partition, or is absorbed
by the one under way (R194). In a partition that is FAULTED it causes none (R546). A fault in a context that has been
killed only stops what is left of it on the die. -/
def contextFault (w : KillWhy) (s : State) : State :=
  if s.prt.faulted.contains w.part then s
  else
    let time := s.rtime w.die
    let kills := match findKill s w.part w.inst w.ctx with
      | some _ => updWhere (isKill w.part w.inst w.ctx) (absorbFault time w) s.core.kills
      | none =>
        if ctxKilled s w.part w.inst w.ctx then s.core.kills
        else s.core.kills ++ [⟨w.part, w.inst, w.ctx, w, time, 0, delNat (partDies s w.part) w.die, []⟩]
    killReaches w.die w.part w.inst w.ctx { s with core := { s.core with kills := kills } }

end Sys2Proof.Machine
end

