-- ==== Sys2Proof/Machine/Mesh.lean ====
section
/-! DEFINITION. The mesh, the half link and the ways between dies (chapter 8): packet sizes (Table MESH-2), routes within a
die (R299, R300), across Toash-S and through the spine (R305, R306), and the check of the half link (R217). -/

namespace Sys2Proof.Machine

/-! ### Packets (R293, Table MESH-2) -/

/-- Bytes of a packet: its header, of 24 bytes for RED, and its payload. -/
def pktBytes : PktKind → Nat
  | .header => 16
  | .sector => 16 + 32
  | .line => 16 + 128
  | .redNarrow => 24 + 32
  | .redLong => 24 + 320

/-- Flits of a packet: its bytes in whole flits of 64. -/
def pktFlits (k : PktKind) : Nat := (pktBytes k + 63) / 64

/-! ### Routes within a die (R292, R299, R300) -/

/-- The router at (x, y), by its cluster number (R289). -/
def routerAt (x y : Nat) : Nat := 20 * y + x

/-- The coordinates from `a` to `b`, `a` left out. -/
def axisWalk (a b : Nat) : List Nat :=
  if a ≤ b then (List.range (b - a)).map (fun k => a + k + 1) else (List.range (a - b)).map (fun k => a - k - 1)

/-- The routers along x from `a` to column `x`. -/
def alongX (a x : Nat) : List Nat := (axisWalk (a % 20) x).map (fun i => routerAt i (a / 20))

/-- The routers along y from `a` to row `y`. -/
def alongY (a y : Nat) : List Nat := (axisWalk (a / 20) y).map (fun i => routerAt (a % 20) i)

/-- XY: first along x, then along y (R299). -/
def xyRoute (a b : Nat) : List Nat := alongX a (b % 20) ++ alongY (routerAt (b % 20) (a / 20)) (b / 20)

/-- The row of lane `i` (R292). -/
def laneRow (i : Nat) : Nat := 3 + 3 * i

/-- The end router of lane `i` in half `side` (R292). -/
def laneEnd (i side : Nat) : Nat := routerAt (if side = 0 then 9 else 10) (laneRow i)

/-- Across the half link (R300): along y to the row of the lane, along x to the seam, over the lane, then XY. -/
def laneRoute (i a b : Nat) : List Nat :=
  let near := laneEnd i (clusterSide a)
  let far := laneEnd i (clusterSide b)
  alongY a (laneRow i) ++ alongX (routerAt (a % 20) (laneRow i)) (near % 20) ++ [far] ++ xyRoute far b

/-- The routers that a packet passes from router `a` of die `d` to router `b`, `a` left out. -/
def dieRoute (s : State) (d a b : Nat) : List Nat :=
  if s.rd d Reg.MESH_MODE_HLINK_ON = 0 || clusterSide a = clusterSide b then xyRoute a b
  else laneRoute (laneOf s d (a / 20)) a b

/-! ### Routes between dies (R291, R305, R306) -/

/-- Places of the routers of a die. -/
def onDieRoute (s : State) (d a b : Nat) : List RedPlace := (dieRoute s d a b).map (.router d)

/-- From a spine port's plane into die `e`, to its router `b`. -/
def intoDie (s : State) (plane e b : Nat) : List RedPlace :=
  .router e (toashLRouter plane b) :: onDieRoute s e (toashLRouter plane b) b

/-- The places that a packet of partition `part` passes from one place to another, the first left out. -/
def routeTo (s : State) (part : Nat) : RedPlace → RedPlace → List RedPlace
  | .router d a, .router e b =>
    let k := siblingPort d e
    if d = e then onDieRoute s d a b
    else if moduleOf d = moduleOf e && s.rd d (Reg.MESH_TS_STATUS_UP k) = 1 then
      onDieRoute s d a (toashSRouter k a) ++ .router e (toashSRouter k b) :: onDieRoute s e (toashSRouter k b) b
    else
      let p := planeOf s part d e a
      onDieRoute s d a (toashLRouter p e) ++ .spine p e :: intoDie s p e b
  | .router d a, .spine p k => onDieRoute s d a (toashLRouter p k) ++ [.spine p k]
  | .spine p k, .router e b => (if k = e then [] else [.spine p e]) ++ intoDie s p e b
  | .spine _ _, .spine p k => [.spine p k]

/-! ### The half link (R216, R217) -/

/-- Whether the half link of die `d` passes a packet tagged `part` from half `a` to half `b` (R217). -/
def lanePasses (s : State) (d a b part : Nat) (srcAttach dstAttach control : Bool) : Bool :=
  control
    || (match halfPart s d a, halfPart s d b with
        | some p, some q => Nat.beq p q
        | _, _ => false)
    || (srcAttach && halfPart s d b == some part)
    || (dstAttach && halfPart s d a == some part)

/-- Whether the half link passes the packet of HALF_LINK_CROSSING. -/
def halfPasses (s : State) (d : Nat) (p : HalfPkt) : Bool :=
  lanePasses s d (clusterSide p.src) (clusterSide p.dst) p.part p.srcAttach p.dstAttach p.control

/-- The lane that a step between two places crosses: its die, its number and the half that it leaves. The seam is open where
the half link is off, and then nothing takes a lane (R215, R329). -/
def laneStep (s : State) : RedPlace → RedPlace → Option (Nat × Nat × Nat)
  | .router d a, .router e b =>
    if d = e && clusterSide a ≠ clusterSide b && s.rd d Reg.MESH_MODE_HLINK_ON = 1 then
      some (d, (a / 20 - 3) / 3, clusterSide a)
    else none
  | _, _ => none

end Sys2Proof.Machine
end

