-- ==== Sys2Proof/Machine/Reduction.lean ====
section
/-! DEFINITION. In-network reduction (R311–R328): trees, combining at routers and spine ports, accumulation at the
destination slice, completion and broken groups. -/

namespace Sys2Proof.Machine

/-! ### Trees (Table IMG-7, R54, R315) -/

/-- A REDUCE node. -/
structure RNode where
  /-- 0 mesh router, 1 spine port. -/
  kind : Nat
  /-- Die, or plane. -/
  loc : Nat
  /-- Cluster, or spine port. -/
  index : Nat
  parent : Nat
  deriving DecidableEq, Repr

/-- A REDUCE tree. -/
structure RTree where
  tagBase : Nat
  tagCount : Nat
  nodes : List RNode
  deriving DecidableEq, Repr

def rnodes : Nat → List Byte → List RNode
  | 0, _ => []
  | n + 1, b => ⟨leAt b 0 1, leAt b 1 1, leAt b 2 2, leAt b 4 2⟩ :: rnodes n (b.drop 8)

/-- The trees of a section's bytes; `fuel` bounds their number. -/
def rtrees : Nat → List Byte → List RTree
  | 0, _ => []
  | fuel + 1, b =>
    if b.isEmpty then []
    else
      let n := leAt b 6 2
      ⟨leAt b 2 2, leAt b 4 2, rnodes n (b.drop 16)⟩ :: rtrees fuel (b.drop (16 + 8 * n))

/-- The trees of partition `p`. -/
def treesOf (s : State) (p : Nat) : List RTree :=
  ((s.img.live.filter (fun x => Nat.beq x.typ 7 && Nat.beq x.scope p)).map (fun x => rtrees 65 x.body)).flatten

/-- The tree that a tag lies in (R54). -/
def treeOf (s : State) (p tag : Nat) : Option RTree :=
  (treesOf s p).find? (fun t => Nat.ble t.tagBase tag && Nat.blt tag (t.tagBase + t.tagCount))

/-- Manhattan distance between two clusters. -/
def distance (a b : Nat) : Nat :=
  (a % 20 - b % 20) + (b % 20 - a % 20) + (a / 20 - b / 20) + (b / 20 - a / 20)

/-- The nearest node of a list, the lower cluster on a tie. -/
def nearest (c : Nat) : List (Nat × RNode) → Option (Nat × RNode)
  | [] => none
  | x :: l =>
    match nearest c l with
    | some y =>
      if distance c y.2.index < distance c x.2.index
          || (Nat.beq (distance c y.2.index) (distance c x.2.index) && Nat.blt y.2.index x.2.index) then some y else some x
    | none => some x

/-- The nodes of a tree with their indices. -/
def RTree.indexed (t : RTree) : List (Nat × RNode) := (List.range t.nodes.length).zip t.nodes

/-- The leaf node of a contribution from cluster `c` of die `d` (R315). -/
def leafNode (t : RTree) (d c : Nat) : Nat :=
  let here := t.indexed.filter (fun x => Nat.beq x.2.kind 0 && Nat.beq x.2.loc d)
  match here.find? (fun x => Nat.beq (clusterSide x.2.index) (clusterSide c)) with
  | some x => x.1
  | none =>
    match nearest c here with
    | some x => x.1
    | none => ((t.indexed.find? (fun x => Nat.beq x.2.parent 0xFFFF)).map (·.1)).getD 0x1FF

/-- Where a tree node stands. -/
def RNode.place (n : RNode) : RedPlace := if n.kind = 0 then .router n.loc n.index else .spine n.loc n.index

/-- NODE after node `i` forwards: its parent, or the destination slice from the root. -/
def nextNode (t : RTree) (i : Nat) : Nat :=
  match t.nodes[i]? with
  | some n => if n.parent = 0xFFFF then 0x1FF else n.parent
  | none => 0x1FF

/-- Children of node `i`. -/
def childNodes (t : RTree) (i : Nat) : List Nat :=
  (t.indexed.filter (fun x => Nat.beq x.2.parent i)).map (·.1)

/-- Whether a tree names a spine port of a lost plane (R535). -/
def treeLost (s : State) (t : RTree) : Bool :=
  t.nodes.any (fun n => Nat.beq n.kind 1 && s.rack.planeLost.contains n.loc)

/-! ### Combining (R312–R314) -/

/-- Operations that have a long form in a fixed tree (Table MESH-5). -/
def hasLong (op : Nat) : Bool := Nat.ble op 1

/-- A packet in long form. -/
def longForm (p : RedPkt) : RedPkt :=
  if p.long then p else { p with long := true, words := p.words.map (fun x => toLong (x.toNat % 2 ^ 32)) }

/-- One word combined: present in both, or kept from one. -/
def combineWord (op : Nat) (long wa wb : Bool) (a b : BitVec 307) : BitVec 307 :=
  if wa && wb then
    (if long then redLong a b else BitVec.ofNat 307 (redNarrow op (a.toNat % 2 ^ 32) (b.toNat % 2 ^ 32)))
  else if wb then b else a

/-- Eight words combined, from word `i` on. -/
def combineWords (op : Nat) (long : Bool) (ma mb : BitVec 8) :
    Nat → List (BitVec 307) → List (BitVec 307) → List (BitVec 307)
  | _, [], _ => []
  | _, a, [] => a
  | i, x :: a, y :: b => combineWord op long (ma.getLsbD i) (mb.getLsbD i) x y :: combineWords op long ma mb (i + 1) a b

/-- Two packets with the same key combined (R312). -/
def combine (a b : RedPkt) : RedPkt :=
  let a := if b.long then longForm a else a
  let b := if a.long then longForm b else b
  { a with contrib := a.contrib + b.contrib, wmask := a.wmask ||| b.wmask,
           words := combineWords a.key.op a.long a.wmask b.wmask 0 a.words b.words }

/-! ### Packets in flight (R299–R301, R306, R327) -/

/-- The die whose router a place is. -/
def placeDie : RedPlace → Option Nat
  | .router d _ => some d
  | .spine _ _ => none

/-- Entries at a place (Table MESH-6). -/
def placeCap : RedPlace → Nat
  | .router _ _ => 32
  | .spine _ _ => 1024

/-- A count in a die's RED block; a spine port has none. -/
def redCount (w : RedPlace) (f : Fld) (s : State) : State :=
  match placeDie w with
  | some d => s.count d f 1
  | none => s

def entriesAt (s : State) (w : RedPlace) : List Combine := s.net.combine.filter (fun c => c.place == w)

def findCombine (s : State) (w : RedPlace) (k : RedKey) : Option Combine :=
  s.net.combine.find? (fun c => c.place == w && c.pkt.key == k)

def putCombine (c : Combine) (s : State) : State :=
  { s with net := { s.net with combine := putWhere (fun x => x.place == c.place && x.pkt.key == c.pkt.key) c s.net.combine } }

def dropCombine (c : Combine) (s : State) : State :=
  { s with net := { s.net with combine := s.net.combine.filter (fun x => !(x.place == c.place && x.pkt.key == c.pkt.key)) } }

/-- The router at which a packet comes to its destination slice. -/
def slicePlace (s : State) (p : RedPkt) : RedPlace :=
  .router p.dst (sliceRouter ((homeChan s (p.key.sector * 32)).getD 0))

/-- The place that a fixed-tree packet is bound for: its node, or the destination slice, where nothing is left to come to. -/
def nodePlace (s : State) (p : RedPkt) : List RedPlace :=
  (((treeOf s p.key.part p.key.tag).bind (fun t => t.nodes[p.node]?)).map RNode.place).toList

/-- One step of a packet: a lane counts its flits, or refuses it, and then it is discarded (R217, R327). `sd` and `dd` are the
dies that the packet comes from and goes to. -/
def redStep (p : RedPkt) (sd dd : Option Nat) (x y : RedPlace) (s : State) : Bool × State :=
  match laneStep s x y with
  | none => (true, s)
  | some (d, lane, side) =>
    if lanePasses s d side (1 - side) p.key.part (sd != some d) (dd != some d) false then
      (true, s.count d (Reg.MESH_HLINK_FLITS lane) (pktFlits (if p.long then .redLong else .redNarrow)))
    else
      (false, halfRefuse d lane VChan.red.code ((halfPart s d side).getD 0) ((halfPart s d (1 - side)).getD 0)
        (p.key.sector / 4) s)

/-- The steps along a route, up to its end or to a lane that refuses. -/
def redWalk (p : RedPkt) (sd dd : Option Nat) : RedPlace → List RedPlace → State → Bool × State
  | _, [], s => (true, s)
  | x, y :: l, s =>
    match redStep p sd dd x y s with
    | (true, s) => redWalk p sd dd y l s
    | r => r

/-- A packet leaves a place. In free mode it goes on by one place of `todo`, since every router and spine port may combine; in
fixed-tree mode it goes all the way to its node or its slice, since only tree nodes combine (R313, R315; log 119). -/
def sendRed (w : RedPlace) (p : RedPkt) (todo : List RedPlace) (s : State) : State :=
  let fly (r : Bool × State) (l : List RedPlace) : State :=
    if r.1 then { r.2 with net := { r.2.net with redNet := r.2.net.redNet ++ [⟨p, w, l⟩] } } else r.2
  if p.fixed then
    let goal := nodePlace s p
    let target := goal.headD (slicePlace s p)
    fly (redWalk p (placeDie w) (placeDie target) w (routeTo s p.key.part w target) s) goal
  else fly (redWalk p (some p.src) (some p.dst) w (todo.take 1) s) todo

/-- Whether two packets in flight come from one place to one place: they arrive in the order sent (R301). -/
def sameWay (s : State) (f g : RedFlight) : Bool :=
  f.src == g.src && f.todo.head? == g.todo.head?
    && (f.todo.head?.isSome || slicePlace s f.pkt == slicePlace s g.pkt)

/-- The packet in flight that comes to `w`, or to its destination slice: none passes an earlier one of its way (R301). -/
def redArrives (s : State) (w : Option RedPlace) (p : RedPkt) : Option RedFlight :=
  (s.net.redNet.find? (fun f => f.pkt == p && f.todo.head? == w)).filter (fun f =>
    s.net.redNet.find? (sameWay s f) == some f)

/-- A packet that arrives leaves the network. -/
def takeRed (f : RedFlight) (s : State) : State := { s with net := { s.net with redNet := s.net.redNet.erase f } }

/-- A packet with the node that comes after the one that it leaves. -/
def pastNode (s : State) (p : RedPkt) : RedPkt :=
  match p.fixed, treeOf s p.key.part p.key.tag with
  | true, some t => { p with prev := p.node, node := nextNode t p.node }
  | _, _ => p

/-- The entry leaves its place: from a tree node toward its parent, else toward the destination slice. -/
def forwardEntry (c : Combine) (s : State) : State :=
  sendRed c.place (pastNode s c.pkt) c.todo (dropCombine c s)

/-- A packet at a place where it meets no entry and none is free: it passes through uncombined. -/
def passThrough (w : RedPlace) (p : RedPkt) (todo : List RedPlace) (s : State) : State :=
  sendRed w (pastNode s p) todo (redCount w Reg.RED_PASS s)

/-- The group of a packet is broken where no accumulation of it need be open (R328). -/
def breakGroup (p : RedPkt) (cause : Nat) (s : State) : State :=
  match s.net.accum.find? (fun a => a.pkt.key == p.key) with
  | some a => redBreak a cause s
  | none => redBroken (homeDie (p.key.sector * 32)) p cause (poisonSector (p.key.sector * 32) s)

/-- RED_PACKET (R313, R315): a packet in flight comes to a router or a spine port on its way. A tree node keeps what it holds in
long form. With `bad`, the entry that it meets is uncorrectable, and the group is broken (Table MESH-7). An entry goes on by the way
of the packet that opened it. -/
def redPacket (w : RedPlace) (p : RedPkt) (bad : Bool) (s : State) : State :=
  match redArrives s (some w) p with
  | none => s
  | some f =>
    let s := takeRed f s
    let mine := if p.fixed && hasLong p.key.op then longForm p else p
    match findCombine s w p.key with
    | some c =>
      if bad then breakGroup p 6 (dropCombine c s)
      else
        let pk := combine c.pkt mine
        let c := { c with pkt := pk, kids := if p.prev = 0x1FF then c.kids else addNat c.kids p.prev }
        let s := putCombine c (redCount w Reg.RED_COMBINES s)
        if !p.fixed && decide (pk.count ≤ pk.contrib) then forwardEntry c s else s
    | none =>
      if (entriesAt s w).length < placeCap w then
        let c : Combine := ⟨w, mine, if p.prev = 0x1FF then [] else [p.prev], f.todo.drop 1⟩
        let s := putCombine c s
        if !p.fixed && decide (p.count ≤ p.contrib) then forwardEntry c s else s
      else passThrough w p (f.todo.drop 1) s

/-- A command at a router names its die. -/
def onPlace (s : State) (w : RedPlace) (f : State → State) : Host.Outcome State Fault Refusal :=
  match placeDie w with
  | some d => onDie s d f
  | none => .next (f s)

def execRedPacket (w : RedPlace) (x : RedIn) (s : State) : Host.Outcome State Fault Refusal :=
  onPlace s w (redPacket w x.pkt x.bad)

/-- RED_HOLD_EXPIRY (R313): a free-mode entry whose hold has ended leaves. -/
def redHoldExpiry (w : RedPlace) (k : RedKey) (s : State) : State :=
  match findCombine s w k with
  | some c => if c.pkt.fixed then s else forwardEntry c s
  | none => s

def execRedHoldExpiry (w : RedPlace) (k : RedKey) (s : State) : Host.Outcome State Fault Refusal :=
  onPlace s w (redHoldExpiry w k)

/-- RED_HOLD.TREE of a place; a spine port uses 64 MCLK (R316). -/
def treeHold (s : State) (w : RedPlace) : Nat :=
  match w with
  | .router d _ => s.rd d Reg.RED_HOLD_TREE
  | .spine _ _ => 64

/-- TREE_NODE_FORWARD (R316): `elapsed` MCLK after the entry opened, it forwards if one of the moments has come. -/
def treeNodeForward (w : RedPlace) (k : RedKey) (elapsed : Nat) (s : State) : State :=
  match findCombine s w k with
  | some c =>
    match c.pkt.fixed, treeOf s k.part k.tag with
    | true, some t =>
      let all := (childNodes t c.pkt.node).all (fun n => c.kids.contains n)
      if c.pkt.count ≤ c.pkt.contrib || (all && Nat.ble (treeHold s w) elapsed)
          || Nat.ble (16 * treeHold s w) elapsed then forwardEntry c s else s
    | _, _ => s
  | none => s

def execTreeNodeForward (w : RedPlace) (k : RedKey) (elapsed : Nat) (s : State) : Host.Outcome State Fault Refusal :=
  onPlace s w (treeNodeForward w k elapsed)

/-! ### Accumulation (R317, R321, R322) -/

/-- Open accumulations at a slice (RED_OPEN). -/
def openAccums (s : State) (d n : Nat) : Nat :=
  (s.net.accum.filter (fun a => Nat.beq a.die d && Nat.beq a.slice n)).length

/-- The open group of a packet: the same partition, tag and sector. -/
def findAccum (s : State) (d n : Nat) (k : RedKey) : Option Accum :=
  s.net.accum.find? (fun a => Nat.beq a.die d && Nat.beq a.slice n && Nat.beq a.pkt.key.part k.part
    && Nat.beq a.pkt.key.tag k.tag && Nat.beq a.pkt.key.sector k.sector)

/-- One word of the sector after completion (R317). -/
def doneWord (p : RedPkt) (w : Nat) (mem : Nat) : Nat :=
  if p.wmask.getLsbD w then
    let x := (p.words[w]?).getD 0
    if p.long then longResult mem x else redNarrow p.key.op mem (x.toNat % 2 ^ 32)
  else mem

/-- The sector after completion. -/
def doneSector (p : RedPkt) (x : SectorData) : SectorData :=
  BitVec.ofNat 256 (packElems 32 ((List.range 8).map (fun w => doneWord p w (elem 32 w x.toNat))))

/-- The slice of die `d` reads and writes for a reduction of partition `p`. -/
def redBy (s : State) (d p : Nat) : AccBy := ⟨d, partSide s d p, p, 1, 0, false, 0⟩

/-- The home write of a completed reduction (R250, R317). -/
def redWrite (d n : Nat) (p : RedPkt) (s : State) : Option State :=
  let la := p.key.sector / 4
  let sec := p.key.sector % 4
  if hasMshr s d n la then none
  else
    (settleHomeWrite d n la s).bind (fun s =>
      (homeWritable 1 d n la sec false false 0 s).bind (fun s =>
        (findLine s d n la).map (fun l =>
          let x := sectorAt l sec
          putLine (setSector l sec ⟨true, true, x.poison, 0, doneSector p x.data⟩) s)))

/-- The signal of a completed reduction (R317 step 3). -/
def redSignal (d : Nat) (k : RedKey) (s : State) : Option State :=
  let base := s.rd d (Reg.RED_SIG_BASE k.part) * 8
  if base = 0 then some s
  else
    let pa := base + 8 * k.tag
    (accAtomic (redBy s d k.part) pa (atomSector (pa % 32) 0 true false 1 0) s).map (·.2)

/-- A reduction whose CONTRIB has reached COUNT completes (R317). -/
def redComplete (a : Accum) (s : State) : Option State :=
  (redWrite a.die a.slice a.pkt s).bind (fun s =>
    (redSignal a.die a.pkt.key s).map (fun s =>
      { s with net := { s.net with accum := s.net.accum.erase a } }.count a.die (Reg.RED_DONE a.slice) 1))

/-- Whether the RED input of a slice stalls: a packet waits there for an entry, and none has come free (Table MESH-6). -/
def redStalled (s : State) (d n : Nat) : Bool := s.net.redStall.contains (d * 24 + n) && decide (512 ≤ openAccums s d n)

/-- The RED input of a slice stalls, or goes on. -/
def setStall (d n : Nat) (on : Bool) (s : State) : State :=
  let k := d * 24 + n
  { s with net := { s.net with redStall := if on then addNat s.net.redStall k else delNat s.net.redStall k } }

/-- A packet taken in at its destination slice (R317, R321, R322); none while the line of a completing group is in another
transaction, and while it needs an entry and 512 are open. -/
def accumulate (d n : Nat) (p : RedPkt) (bad : Bool) (s : State) : Option State :=
  if incLower p.incarn.toNat (s.rd p.src Reg.DC_INCARNATION) then some (breakGroup p 3 s)
  else
    match findAccum s d n p.key with
    | some a =>
      if bad then some (redBreak a 6 s)
      else if a.pkt.count ≠ p.count || a.pkt.key.op ≠ p.key.op then some (redBreak a 0 s)
      else if a.pkt.count < a.pkt.contrib + p.contrib then some (redBreak a 1 s)
      else
        let b := { a with pkt := combine a.pkt p, insts := addNat a.insts p.inst }
        let s := { s with net := { s.net with accum := updWhere (fun x => x == a) (fun _ => b) s.net.accum } }
        if b.pkt.contrib = b.pkt.count then redComplete b s else some s
    | none =>
      if 512 ≤ openAccums s d n then none
      else
        let b : Accum := ⟨d, n, p, [p.inst]⟩
        let s := { s with net := { s.net with accum := s.net.accum ++ [b] } }
        let s := s.peak d (Reg.RED_OPEN_PEAK n) (openAccums s d n)
        if p.count < p.contrib then some (redBreak b 1 s)
        else if p.contrib = p.count then redComplete b s else some s

/-- RED_ACCUMULATE (R317, R321, R322): a packet in flight comes to its destination slice. Where it cannot be taken it waits; where it
needs an entry and 512 are open, the RED input stalls until one frees (R320). With `bad`, the entry that it meets is uncorrectable
(Table MESH-7). -/
def redAccumulate (d n : Nat) (p : RedPkt) (bad : Bool) (s0 : State) : State :=
  let pa := p.key.sector * 32
  match redArrives s0 none p with
  | none => s0
  | some f =>
    if homeDie pa ≠ d || homeChan s0 pa ≠ some n || redStalled s0 d n then s0
    else
      let s := setStall d n false (takeRed f s0)
      if homePart s pa ≠ some p.key.part then
        halfRefuse d (laneOf s d (sliceRouter n / 20)) VChan.red.code p.key.part ((homePart s pa).getD 0) (pa / 128) s
      else
        match accumulate d n (if p.fixed && hasLong p.key.op then longForm p else p) bad s with
        | some s => s
        | none => if (findAccum s0 d n p.key).isNone && Nat.ble 512 (openAccums s0 d n) then setStall d n true s0 else s0

def execRedAccumulate (d n : Nat) (x : RedIn) (s : State) : Host.Outcome State Fault Refusal :=
  onDie s d (redAccumulate d n x.pkt x.bad)

/-- RED_TIMEOUT (R321): an accumulation open for RED_TIMEOUT breaks its group. -/
def redTimeout (d n : Nat) (k : RedKey) (s : State) : State :=
  match findAccum s d n k with
  | some a => redBreak a 2 s
  | none => s

def execRedTimeout (d n : Nat) (k : RedKey) (s : State) : Host.Outcome State Fault Refusal := onDie s d (redTimeout d n k)

/-! ### Contributions (R152, R156, R311) -/

/-- A contribution of cluster `c` to one sector: its packet, sent into the network; in a tree that names a lost plane it
breaks its group (R535). A free-mode packet first meets its own router; a fixed one goes to its leaf (R315). -/
def contribute (c : Nat) (p : RedPkt) (s : State) : State :=
  let w : RedPlace := .router p.src c
  if ((treeOf s p.key.part p.key.tag).map (treeLost s)).getD false then breakGroup p 7 s
  else if p.fixed then sendRed w p [] s
  else sendRed w p (w :: routeTo s p.key.part w (slicePlace s p)) s

end Sys2Proof.Machine
end

