-- ==== Sys2Proof/Machine/Coherence.lean ====
section
/-! DEFINITION. Coherence across dies (chapter 7): what each cache and each directory does with each message in each
state (Tables COH-5, COH-6), the hold queue and the hold buffer, orphans, dead dies, and the directory query. -/

namespace Sys2Proof.Machine

/-- What a message meets in its cell: it acts, it is held, its fetch is under way in the line's MSHR (R264), or the cell
is ×. -/
inductive Took where
  | ok (s : State)
  | held
  | fetching
  | bad

/-! ### Requests at a slice (R210, R217–R220, R236, R245, R448) -/

/-- An access refused with PERMISSION: its context faults (R217, R265). The record names the first troupe of the context
on the die, if there is one (DESIGN CHOICE, log 28). -/
def accessFault (d part inst ctx addr : Nat) (s : State) : State :=
  let t := s.core.troupes.find? (fun t => troupeTag t part inst ctx && Nat.beq t.die d)
  let g (f : Troupe → Nat) : Nat := (t.map f).getD 0
  let tag := (t.bind (fun t => s.core.launches.find? (fun l => Nat.beq l.queue t.queue && l.index == t.index))).map
    (fun l => l.tag.toNat)
  contextFault
    { die := d, part := part, inst := inst, ctx := ctx, code := 4, queue := g (·.queue), tag := tag.getD 0, kind := 0,
      sub := g (·.core), unit := g (·.cluster), slot := g (·.slot), lane := 0, troupe := g (·.idx), index := g (fun t => t.index.toNat % 2 ^ 32),
      pc := 0, addr := addr, cursor := 0 } s

/-- The answer PERMISSION, and the fault. -/
def deny (d n : Nat) (w : Waiter) (s : State) : State :=
  accessFault d w.req.part w.req.inst w.req.ctx 0 (answer d n w 3 false 0 s)

/-- ORIGIN of a request to sealed memory (R448, Table FLT-6): 0 DC, 1 MGP, 2 PF, 3 another partition. -/
def reqOrigin (r : SliceReq) : Nat :=
  match r.normal with
  | some .mgp => 1
  | some (.pf _) => 2
  | some _ => 0
  | none => 3

/-- The half of die `d` that a requester stands in (R216). -/
def reqSide (r : SliceReq) : Nat := clusterSide (r.requester % 320)

/-- Whether slice `n` of die `d` is where the request goes: the home slice, or the guest slice of a read or a write
(R148, R215, R216). -/
def rightSlice (s : State) (d n : Nat) (w : Waiter) : Bool :=
  sliceFor s d (reqSide w.req) w.req.pa == some n && (isHome d w.la || !(Nat.beq (want? w) 2))

/-- A request that the slice may answer: from the line, from its guest copy, or after a miss. A slice holds guest lines for
its own partition alone (R210). -/
def sliceAnswer (d n k : Nat) (w : Waiter) (s : State) : State :=
  let r := w.req
  let op := want? w
  if !isHome d w.la && slicePart s d n != some r.part then deny d n w s
  else if sliceFailed s d n then answer d n w (if op = 1 then 1 else 0) (op != 1) 0 s
  else
    match if ordered (earlierWaiters s d n w.la) w then serve d n w true s else none with
    | some s => leaveStarve d n r s
    | none => acceptRequest d n k w s

/-- A request at slice `n` of die `d`, NACKed `k` times before (R210, R217–R220, R236, R245, R448). One for a line homed on
another die goes on to the home, which refuses what is not its partition's (R266). -/
def sliceRequest (d n k : Nat) (w : Waiter) (s : State) : State :=
  let r := w.req
  let op := want? w
  let hp := homePart s r.pa
  if !rightSlice s d n w then s
  else if (hp.map (fun p => partSealed s p && (r.normal.isSome || p != r.part))).getD false then
    answer d n w (if op = 1 then 1 else 0) false 0 (sealedAccess r.pa (hp.getD 0) (reqOrigin r) (min op 1) s)
  else if hp != some r.part then (if isHome d w.la then deny d n w s else sliceAnswer d n k w s)
  else if !backed s r.pa then answer d n w (if op = 1 then 1 else 0) true 0 (rangeErr r.pa op r.part s)
  else sliceAnswer d n k w s

/-! ### Codes -/

/-- TYPE of Table COH-2. -/
def CohT.code : CohT → Nat
  | .getS => 0x01 | .getM => 0x02 | .upg => 0x03 | .putS => 0x04 | .putM => 0x05 | .putO => 0x06
  | .fwdGetS => 0x08 | .fwdGetM => 0x09 | .inv => 0x0A | .invAck => 0x10 | .data => 0x11 | .dataExcl => 0x12
  | .dataP => 0x13 | .dataExclP => 0x14 | .wbAck => 0x15 | .nack => 0x16

/-- STATE of a directory entry (Table COH-1). -/
def DSt.code : DSt → Nat
  | .s => 1 | .o => 2 | .m => 3 | .sD => 4 | .bAck => 5 | .bData => 6

/-- The state of a cache line in a record (DESIGN CHOICE, log 30): 1 S, 2 O, 3 M as in Table COH-1, then the transient ones in the
order of Table COH-5. -/
def CSt.code : CSt → Nat
  | .home => 0 | .s => 1 | .o => 2 | .m => 3 | .isD => 4 | .ssD => 5 | .imAD => 6 | .imA => 7 | .smAD => 8
  | .omA => 9 | .miA => 10 | .oiA => 11 | .siA => 12 | .iiA => 13

/-- The header of Table COH-3. -/
def cohHeader (t : CohT) (m : CohMsg) : Nat :=
  (if m.badType = 0 then t.code else m.badType % 32) + m.part * 2 ^ 5 + m.src * 2 ^ 12 + m.srcSlice * 2 ^ 18 + m.dst * 2 ^ 23 + m.dstSlice * 2 ^ 29 + m.req * 2 ^ 34
    + (if m.homeReq then 2 ^ 40 else 0) + m.acks * 2 ^ 41 + m.mask.toNat * 2 ^ 47 + m.dirty.toNat * 2 ^ 51
    + m.poison.toNat * 2 ^ 55 + m.reason * 2 ^ 59 + m.cls * 2 ^ 61 + m.line * 2 ^ 64 + m.incarn.toNat * 2 ^ 112

/-- A protocol error (R279): counted, recorded, a partition fault; the message is dropped. -/
def protoErr (d n st role : Nat) (t : CohT) (m : CohMsg) (s : State) : State :=
  faultWith m.part 0x02 d (if n < 24 then 0x10 + n else 0) 0x050 3
    [pa_ 16 (cohHeader t m), pf 1 st, pf 1 n, pf 1 role, pf 5 0] (s.count d Reg.COH_PROTO_ERR 1)

/-! ### Replies -/

/-- The payload of a line as Data or DataExcl; DataP or DataExclP with poison (R258). -/
def withPayload (l : Line) (mask : BitVec 4) (m : CohMsg) : CohMsg :=
  { m with mask := mask, dirty := dirtyMask l &&& mask, poison := poisonMask l &&& mask, data := lineData l }

def dataType (m : CohMsg) : CohT := if m.poison = 0 then .data else .dataP
def exclType (m : CohMsg) : CohT := if m.poison = 0 then .dataExcl else .dataExclP

/-- A reply of die `d`, slice `n`, to die `dst`, slice `dn`, for the line of `m`. -/
def replyTo (d n dst dn : Nat) (m : CohMsg) : CohMsg := blankMsg m.part d n dst dn m.req m.line m.cls

/-- The slice that a reply to the requester of `m` goes to: the home slice for the home, else its cache slice. -/
def reqSlice (s : State) (m : CohMsg) : Nat :=
  if m.req = homeDie (m.line * 128) then (homeChan s (m.line * 128)).getD 0 else cacheSlice s m.req m.line m.part

/-- D→r: the sectors of MASK to REQ. -/
def sendToReq (l : Line) (m : CohMsg) (s : State) : State :=
  let r := withPayload l m.mask (replyTo l.die l.slice m.req (reqSlice s m) m)
  sendMsg (dataType r) r s

/-- D→h: four sectors and DIRTY to the home. -/
def sendToHome (l : Line) (m : CohMsg) (s : State) : State :=
  let h := homeDie (m.line * 128)
  let r := withPayload l 15 (replyTo l.die l.slice h ((homeChan s (m.line * 128)).getD 0) m)
  sendMsg (dataType r) r s

/-- X→r: DataExcl with four sectors, DIRTY and the ACKS of the FwdGetM. -/
def sendExcl (l : Line) (m : CohMsg) (s : State) : State :=
  let r := { withPayload l 15 (replyTo l.die l.slice m.req (reqSlice s m) m) with acks := m.acks }
  sendMsg (exclType r) r s

/-- A→r: InvAck to REQ, which is the home with HOMEREQ. -/
def sendAck (l : Line) (m : CohMsg) (s : State) : State :=
  sendMsg .invAck (replyTo l.die l.slice m.req (reqSlice s m) m) s

/-! ### Cache side (Table COH-5) -/

/-- The line's new state, in its way or in the put buffer. -/
def setCache (inPut : Bool) (l : Line) (s : State) : State := if inPut then putPut l s else putLine l s

/-- The line leaves the cache. -/
def endCache (inPut : Bool) (l : Line) (s : State) : State := if inPut then dropPut l s else dropLine l s

/-- A line with every sector invalid. -/
def emptied (l : Line) : Line := { l with sectors := List.replicate 4 noSector }

def onFwdGetS (inPut : Bool) (l : Line) (m : CohMsg) (s : State) : Took :=
  let plain := plainMode s m.part
  if m.homeReq then
    let go (l' : Line) : Took := .ok (setCache inPut (cleaned l') (sendToHome l m s))
    match l.st with
    | .o | .m => go { l with st := .s }
    | .miA | .oiA => go { l with st := .siA }
    | .omA => go { l with st := .smAD }
    | .imAD | .imA => .held
    | _ => .bad
  else
    match l.st with
    | .o | .omA | .oiA => .ok (sendToReq l m s)
    | .m =>
      if plain then .ok (setCache inPut (cleaned { l with st := .s }) (sendToHome l m (sendToReq l m s)))
      else .ok (setCache inPut { l with st := .o } (sendToReq l m s))
    | .miA =>
      if plain then .ok (setCache inPut (cleaned { l with st := .siA }) (sendToHome l m (sendToReq l m s)))
      else .ok (setCache inPut { l with st := .oiA } (sendToReq l m s))
    | .imAD | .imA => .held
    | _ => .bad

def onFwdGetM (inPut : Bool) (l : Line) (m : CohMsg) (s : State) : Took :=
  match l.st with
  | .o | .m => .ok (endCache inPut l (sendExcl l m s))
  | .omA => .ok (setCache inPut (emptied { l with st := .imAD }) (sendExcl l m s))
  | .miA | .oiA => .ok (setCache inPut { l with st := .iiA } (sendExcl l m s))
  | .imAD | .imA => .held
  | _ => .bad

def onInv (inPut : Bool) (l : Line) (m : CohMsg) (s : State) : Took :=
  match l.st with
  | .s => .ok (endCache inPut l (sendAck l m s))
  | .smAD => .ok (setCache inPut (emptied { l with st := .imAD }) (sendAck l m s))
  | .siA => .ok (setCache inPut { l with st := .iiA } (sendAck l m s))
  | .isD | .ssD => .held
  | _ => .bad

/-- The sectors of a message. -/
def msgSectors (m : CohMsg) : List Sector :=
  (List.range 4).map (fun i => ⟨m.mask.getLsbD i, m.dirty.getLsbD i, m.poison.getLsbD i, 0, (m.data[i]?).getD 0⟩)

/-- The sectors of the message that the line lacks, installed. -/
def install (dirty : Bool) (m : CohMsg) (l : Line) : Line :=
  { l with sectors := takeSectors m.mask dirty 0 l.sectors (msgSectors m) }

/-- The MSHR's fetch is over. -/
def clearMask (d n la : Nat) (s : State) : State :=
  match findMshr s d n la with
  | some m => putMshr { m with mask := 0 } s
  | none => s

def onData (inPut : Bool) (l : Line) (m : CohMsg) (s : State) : Took :=
  match l.st with
  | .isD | .ssD =>
    .ok (tryPlace l.die l.slice l.la (clearMask l.die l.slice l.la (setCache inPut (install false m { l with st := .s }) s)))
  | _ => .bad

/-- The line in M if it owes no InvAck, else in IM_A (R262). -/
def collect (inPut : Bool) (l : Line) (s : State) : State :=
  let s := setCache inPut { l with st := if l.cnt = 0 then .m else .imA } s
  tryPlace l.die l.slice l.la (clearMask l.die l.slice l.la s)

def onDataExcl (inPut : Bool) (l : Line) (m : CohMsg) (s : State) : Took :=
  match l.st with
  | .imAD | .smAD | .omA => .ok (collect inPut (install true m { l with cnt := l.cnt + m.acks }) s)
  | _ => .bad

def onInvAck (inPut : Bool) (l : Line) (s : State) : Took :=
  let l' := { l with cnt := l.cnt - 1 }
  match l.st with
  | .imAD | .smAD | .omA => .ok (setCache inPut l' s)
  | .imA => .ok (if l'.cnt = 0 then setCache inPut { l' with st := .m } s else setCache inPut l' s)
  | _ => .bad

/-- WBAck or Nack STALE. -/
def onPutDone (inPut : Bool) (l : Line) (s : State) : Took :=
  match l.st with
  | .miA | .oiA | .siA | .iiA => .ok (endCache inPut l s)
  | _ => .bad

/-- BUSY (R265): the same request goes again after the back-off; the state does not change. -/
def onBusy (l : Line) (s : State) : Took :=
  if stableLine l then .bad
  else
    let r := sliceRequester l.die l.slice
    let what : RetryOf := .coh l.die l.slice l.la
    let k := nacksOf s r what
    .ok (backOffFor r what (k + 1) (endBackOff r what s))

/-- DENIED (R265): the line goes to I and every access waiting on it faults. -/
def onDenied (inPut : Bool) (l : Line) (s : State) : Took :=
  if stableLine l then .bad
  else
    let s := endCache inPut l s
    match findMshr s l.die l.slice l.la with
    | some m => .ok (each m.waiters (fun s w => deny l.die l.slice w s) (freeMshr m s))
    | none => .ok s

/-- The cell of Table COH-5. -/
def cacheCell (t : CohT) (inPut : Bool) (l : Line) (m : CohMsg) (s : State) : Took :=
  match t with
  | .fwdGetS => onFwdGetS inPut l m s
  | .fwdGetM => onFwdGetM inPut l m s
  | .inv => onInv inPut l m s
  | .data | .dataP => onData inPut l m s
  | .dataExcl | .dataExclP => onDataExcl inPut l m s
  | .invAck => onInvAck inPut l s
  | .wbAck => onPutDone inPut l s
  | .nack =>
    if m.reason = 0 then onPutDone inPut l s
    else if m.reason = 1 then onBusy l s
    else if m.reason = 2 then onDenied inPut l s
    else .bad
  | _ => .bad

/-- The line at slice `n` of die `d`, and whether it stands in the put buffer. -/
def cacheLine (s : State) (d n la : Nat) : Option (Bool × Line) :=
  match findLine s d n la with
  | some l => if l.st = .home then none else some (false, l)
  | none => (findPut s d n la).map (fun l => (true, l))

def cacheTake (t : CohT) (m : CohMsg) (s : State) : Took :=
  match cacheLine s m.dst m.dstSlice m.line with
  | some (inPut, l) => cacheCell t inPut l m s
  | none => .bad

/-- The state of the line in a protocol-error record; 0 is I. -/
def cacheCode (s : State) (d n la : Nat) : Nat := ((cacheLine s d n la).map (fun x => x.2.st.code)).getD 0

/-- The held messages of a line applied in arrival order (R263). -/
def applyHeld (d n la : Nat) : List (Nat × Nat × NetMsg) → State → State
  | [], s => s
  | (a, b, x) :: t, s =>
    let s := if a = d ∧ b = n ∧ x.msg.line = la then
        match cacheTake x.typ x.msg s with
        | .ok s => s
        | .held | .fetching => { s with slc := { s.slc with holdbuf := s.slc.holdbuf ++ [(d, n, x)] } }
        | .bad => protoErr d n (cacheCode s d n la) 0 x.typ x.msg s
      else s
    applyHeld d n la t s

/-- The request of a line is answered for good (R265). -/
def dropSent (d n la : Nat) (s : State) : State :=
  let mine (x : NetMsg) : Bool := Nat.beq x.msg.src d && Nat.beq x.msg.srcSlice n && Nat.beq x.msg.line la
  { s with slc := { s.slc with sent := s.slc.sent.filter (fun x => !mine x) } }

/-- After a change at a cache line: it serves its waiters, applies what was held for it, and starts what is left. -/
def afterCache (d n la : Nat) (s : State) : State :=
  let settled := match cacheLine s d n la with
    | some (_, l) => stableLine l
    | none => true
  let s := if settled then dropSent d n la (endBackOff (sliceRequester d n) (.coh d n la) s) else s
  let s := servePass d n la s
  let mine (x : Nat × Nat × NetMsg) : Bool := Nat.beq x.1 d && Nat.beq x.2.1 n && Nat.beq x.2.2.msg.line la
  let held := s.slc.holdbuf.filter mine
  let s := { s with slc := { s.slc with holdbuf := s.slc.holdbuf.filter (fun x => !mine x) } }
  retryPlaces d n (pump d n la (applyHeld d n la held s))

/-! ### Directory side (Table COH-6) -/

/-- What a remote request finds at the home: the sectors it needs, their fetch under an MSHR, or no MSHR for it. -/
inductive HomeGot where
  | line (l : Line)
  | fetching
  | none_

/-- Whether the sectors of `mask` stand in the home slice; if not, their fetch starts under an MSHR of the class, if one
is free (R264). A failed slice has poison (Table UC-5, R245). -/
def homeSectors (d n la : Nat) (mask : BitVec 4) (cls : Nat) (s : State) : HomeGot × State :=
  let ready := match findLine s d n la with
    | some l => if mask &&& ~~~(validMask l) = 0 then some l else none
    | none => if mask = 0 then some (wayless d n la .home) else none
  if sliceFailed s d n then (.line (deadLine d n la), s)
  else
    match ready with
    | some l => (.line l, s)
    | none =>
      match findMshr s d n la with
      | some _ => (.fetching, startFetch d n la mask s)
      | none =>
        if canMshr s d n cls 0 then
          (.fetching, slicePeaks d n (startFetch d n la mask (putMshr ⟨d, n, la, 0, cls, false, [], 0, [], [], none⟩ s)))
        else (.none_, s)

/-- Recalls of R254 under way in the directory set of a line. -/
def recallsIn (s : State) (d n la : Nat) : Nat :=
  ((dirSetEnts s d n la).filter (fun e => Nat.beq e.cause 0 && (e.st == .bAck || e.st == .bData))).length

/-- Held requests that wait for a way of the directory set of a line: each has its recall. -/
def wayWaits (s : State) (d n la : Nat) : Nat :=
  (s.slc.holdq.filter (fun y => Nat.beq y.1 d && Nat.beq y.2.1 n && Nat.beq (dirSet y.2.2.msg.line) (dirSet la)
    && (findDir s d n y.2.2.msg.line).isNone)).length

/-- A way for a new entry (R254): free; or its victim's recall started, once for each request, or nothing, and the request
is held. -/
def entryWay (d n la cls : Nat) (s : State) : Option Nat × State :=
  match chooseEnt s d n la with
  | some (.inl w) => (some w, s)
  | some (.inr v) =>
    if wayWaits s d n la < recallsIn s d n la then (none, s)
    else (none, startHomeWrite v 0 (linePart s v.la) cls (s.count d (Reg.COH_RECALL n) 1))
  | none => (none, s)

/-- The home's Data (R261): the sectors of MASK, clean. -/
def homeData (l : Line) (m : CohMsg) (s : State) : State :=
  let r := withPayload (cleaned l) m.mask { replyTo l.die l.slice m.src m.srcSlice m with req := m.src }
  sendMsg (dataType r) r s

/-- The home's DataExcl with `mask` and `acks`. -/
def homeExcl (l : Line) (mask : BitVec 4) (acks : Nat) (m : CohMsg) (s : State) : State :=
  let r := { withPayload (cleaned l) mask { replyTo l.die l.slice m.src m.srcSlice m with req := m.src } with acks := acks }
  sendMsg (exclType r) r s

/-- WB, or NS with its count. -/
def sendWb (d n : Nat) (m : CohMsg) (s : State) : State :=
  sendMsg .wbAck { replyTo d n m.src m.srcSlice m with req := m.src } s

def sendNack (d n reason : Nat) (m : CohMsg) (s : State) : State :=
  sendMsg .nack { replyTo d n m.src m.srcSlice m with req := m.src, reason := reason } s

def sendStale (d n : Nat) (m : CohMsg) (s : State) : State :=
  sendNack d n 0 m (s.count d (Reg.COH_NACK_STALE n) 1)

/-- Requests that meet I. -/
def dirI (t : CohT) (d n : Nat) (m : CohMsg) (s : State) : Took × State :=
  let new (mask : BitVec 4) (f : Nat → Line → State → State) : Took × State :=
    match entryWay d n m.line m.cls s with
    | (none, s) => (.held, s)
    | (some w, s) =>
      match homeSectors d n m.line mask m.cls s with
      | (.none_, s) => (.held, s)
      | (.fetching, s) => (.fetching, s)
      | (.line l, s) => (.ok (f w l s), s)
  match t with
  | .getS => new m.mask (fun w l s => homeData l m (newEnt d n m.line w .s 0 [m.src] s))
  | .getM | .upg => new 15 (fun w l s => homeExcl l 15 0 m (newEnt d n m.line w .m m.src [] s))
  | .putS | .putM | .putO => (.ok (sendStale d n m s), s)
  | _ => (.bad, s)

/-- A put that meets a sharer set: the sender leaves it. -/
def leaveSharers (e : DirEnt) (m : CohMsg) (last : Bool) (s : State) : State :=
  let sh := delNat e.sharers m.src
  let s := if last && sh.isEmpty then freeDir e s else putDir { e with sharers := sh } s
  sendWb e.die e.slice m s

/-- Requests that meet S. -/
def dirS (t : CohT) (e : DirEnt) (m : CohMsg) (s : State) : Took × State :=
  let r := m.src
  let others := delNat e.sharers r
  let own (mask : BitVec 4) : Took × State :=
    match homeSectors e.die e.slice m.line mask m.cls s with
    | (.none_, s) => (.held, s)
    | (.fetching, s) => (.fetching, s)
    | (.line l, s) =>
      let s' := homeExcl l mask others.length m s
      let s' := sendInvs e.die e.slice m.line r m.part m.cls others s'
      (.ok (touchDir e (putDir { e with st := .m, owner := r, sharers := [] } s')), s)
  match t with
  | .getS =>
    match homeSectors e.die e.slice m.line m.mask m.cls s with
    | (.none_, s) => (.held, s)
    | (.fetching, s) => (.fetching, s)
    | (.line l, s) => (.ok (homeData l m (touchDir e (putDir { e with sharers := addNat e.sharers r } s))), s)
  | .getM => own 15
  | .upg => own (if e.sharers.contains r then ~~~m.mask else 15)
  | .putS | .putM | .putO =>
    if e.sharers.contains r then (.ok (leaveSharers e m true s), s) else (.ok (sendStale e.die e.slice m s), s)
  | _ => (.bad, s)

/-- A FwdGetM to the owner for requester `r`, and Inv to the other sharers. -/
def forwardM (e : DirEnt) (m : CohMsg) (s : State) : State :=
  let r := m.src
  let others := delNat e.sharers r
  let f := { homeMsg s e.die e.slice m.line e.owner r m.part m.cls with acks := others.length }
  let s := (sendMsg .fwdGetM f s).count e.die (Reg.COH_FWD e.slice) 1
  let s := sendInvs e.die e.slice m.line r m.part m.cls others s
  touchDir e (putDir { e with st := .m, owner := r, sharers := [] } s)

/-- A FwdGetS to the owner for requester `r`. -/
def forwardS (e : DirEnt) (m : CohMsg) (s : State) : State :=
  let f := { homeMsg s e.die e.slice m.line e.owner m.src m.part m.cls with mask := m.mask }
  (sendMsg .fwdGetS f s).count e.die (Reg.COH_FWD e.slice) 1

/-- The DIRTY sectors of a put or of owner data in the memory copy ("wr"). -/
def writeDirty (e : DirEnt) (m : CohMsg) (s : State) : State :=
  homeWrite e.die e.slice m.line m.dirty m.poison 0 m.data s

/-- Requests that meet O. -/
def dirO (t : CohT) (e : DirEnt) (m : CohMsg) (s : State) : Took :=
  let r := m.src
  match t with
  | .getS => .ok (touchDir e (putDir { e with sharers := addNat e.sharers r } (forwardS e m s)))
  | .getM => if r = e.owner then .bad else .ok (forwardM e m s)
  | .upg =>
    if r = e.owner then
      let s := homeExcl (wayless e.die e.slice m.line .home) 0 e.sharers.length m s
      let s := sendInvs e.die e.slice m.line r m.part m.cls e.sharers s
      .ok (touchDir e (putDir { e with st := .m, sharers := [] } s))
    else .ok (forwardM e m s)
  | .putS => if e.sharers.contains r then .ok (leaveSharers e m false s) else .ok (sendStale e.die e.slice m s)
  | .putM | .putO =>
    if r = e.owner then
      let s := writeDirty e m s
      let s := if e.sharers.isEmpty then freeDir e s else putDir { e with st := .s } s
      .ok (sendWb e.die e.slice m s)
    else if e.sharers.contains r then .ok (leaveSharers e m false s)
    else .ok (sendStale e.die e.slice m s)
  | _ => .bad

/-- Requests that meet M. -/
def dirM (t : CohT) (e : DirEnt) (m : CohMsg) (s : State) : Took :=
  let r := m.src
  match t with
  | .getS =>
    let s' := forwardS e m s
    if plainMode s m.part then
      .ok (touchDir e (putDir { e with st := .sD, sharers := addNat [e.owner] r, dataOwed := true, count := 0 } s'))
    else .ok (touchDir e (putDir { e with st := .o, sharers := [r] } s'))
  | .getM | .upg => if r = e.owner then .bad else .ok (forwardM e m s)
  | .putS => .ok (sendStale e.die e.slice m s)
  | .putM => if r = e.owner then .ok (sendWb e.die e.slice m (freeDir e (writeDirty e m s))) else .ok (sendStale e.die e.slice m s)
  | .putO => if r = e.owner then .bad else .ok (sendStale e.die e.slice m s)
  | _ => .bad

/-- Owner data at the home. -/
def dirOwnerData (e : DirEnt) (m : CohMsg) (s : State) : Took :=
  match e.st with
  | .sD => .ok (putDir { e with st := .s, dataOwed := false } (writeDirty e m s))
  | .bData =>
    let e' := { e with dataOwed := false }
    let s := writeDirty e m s
    .ok (if e.count = 0 then finish e' s else putDir e' s)
  | _ => .bad

/-- An InvAck at the home. -/
def dirInvAck (e : DirEnt) (m : CohMsg) (s : State) : Took :=
  let e' := { e with count := e.count - 1, sharers := if e.cause = 1 then e.sharers else delNat e.sharers m.src }
  match e.st with
  | .bAck => .ok (if e'.count = 0 then finish e' s else putDir e' s)
  | .bData => .ok (if e'.count = 0 && !e.dataOwed then finish e' s else putDir e' s)
  | _ => .bad

/-- Whether a type is a request. -/
def CohT.isReq : CohT → Bool
  | .getS | .getM | .upg | .putS | .putM | .putO => true
  | _ => false

/-- The cell of Table COH-6, and the state in which a held request waits. -/
def dirCell (t : CohT) (d n : Nat) (m : CohMsg) (s : State) : Took × State :=
  match findDir s d n m.line with
  | none => if t.isReq then dirI t d n m s else (.bad, s)
  | some e =>
    match t with
    | .data | .dataExcl | .dataP | .dataExclP => (dirOwnerData e m s, s)
    | .invAck => (dirInvAck e m s, s)
    | t =>
      if !t.isReq then (.bad, s)
      else
        match e.st with
        | .s => dirS t e m s
        | .o => (dirO t e m s, s)
        | .m => (dirM t e m s, s)
        | _ => (.held, s)

/-- The directory's state of a line in a record. -/
def dirCode (s : State) (d n la : Nat) : Nat := ((findDir s d n la).map (fun e => e.st.code)).getD 0

/-- A request held in the slice's hold queue, or Nack BUSY where it is full (R264). -/
def holdRequest (d n : Nat) (x : NetMsg) (s : State) : State :=
  let k := (s.slc.holdq.filter (fun y => Nat.beq y.1 d && Nat.beq y.2.1 n)).length
  if 256 ≤ k then sendNack d n 1 x.msg (s.count d (Reg.COH_NACK_BUSY n) 1)
  else { s with slc := { s.slc with holdq := s.slc.holdq ++ [(d, n, x)] } }.peak d (Reg.COH_HOLDQ_PEAK n) (k + 1)

/-- A request whose fetch is under way waits in the line's MSHR (R264). -/
def parkRequest (d n : Nat) (x : NetMsg) (s : State) : State :=
  match findMshr s d n x.msg.line with
  | some m => putMshr { m with remote := m.remote ++ [x] } s
  | none => s

/-- Whether earlier requests for the line wait for its fetch: a later one waits behind them. -/
def fetchAhead (s : State) (d n : Nat) (x : NetMsg) : Bool :=
  x.typ.isReq && ((findMshr s d n x.msg.line).map (fun m => !m.remote.isEmpty)).getD false

/-- A pinned line whose memory copy the home has again gets the sectors it lacks (R226, R227, R241). -/
def repin (d n la : Nat) (s : State) : State :=
  match findLine s d n la with
  | some l => if l.pin && homeReadable s d n la && !hasMshr s d n la && !sliceFailed s d n then fetchFrom d n la 15 4 s else s
  | none => s

/-- A message taken by the directory, and the local waiters of its line after it. -/
def homeTake (d n : Nat) (x : NetMsg) (s : State) : State :=
  if fetchAhead s d n x then parkRequest d n x s
  else
    match dirCell x.typ d n x.msg s with
    | (.ok s, _) => repin d n x.msg.line (pump d n x.msg.line s)
    | (.held, s) => holdRequest d n x s
    | (.fetching, s) => parkRequest d n x s
    | (.bad, s) => protoErr d n (dirCode s d n x.msg.line) 1 x.typ x.msg s

/-- Requests held at a slice. -/
def heldAt (s : State) (d n : Nat) : List (Nat × Nat × NetMsg) :=
  s.slc.holdq.filter (fun y => Nat.beq y.1 d && Nat.beq y.2.1 n)

/-- The held requests of a slice replayed in arrival order, as long as that frees some (R264). -/
def replay (d n : Nat) : Nat → State → State
  | 0, s => s
  | fuel + 1, s =>
    let held := heldAt s d n
    let s0 := { s with slc := { s.slc with holdq := s.slc.holdq.filter (fun y => !(Nat.beq y.1 d && Nat.beq y.2.1 n)) } }
    let s := each held (fun s y => homeTake d n y.2.2 s) s0
    if (heldAt s d n).length < held.length then replay d n fuel s else s

/-- The requests of an MSHR whose fetch has ended, taken in arrival order (R264). -/
def takeFetched (m : Mshr) (s : State) : State :=
  if m.mask = 0 && !m.remote.isEmpty then
    let s := each m.remote (fun s x => homeTake m.die m.slice x s) (putMshr { m with remote := [] } s)
    settleMshr m.die m.slice m.la s
  else s

/-- After a change at a slice: the lines that wait for a way try again, and the requests that the directory holds there, or
whose fetch has ended, are replayed (R223, R264). -/
def afterSlice (d n : Nat) (s : State) : State :=
  let s := retryPlaces d n s
  let s := each (mshrsOf s d n) (fun s m => takeFetched m s) s
  replay d n ((heldAt s d n).length + 1) s

/-- After a change at a home slice. -/
def afterHome (d n la : Nat) (s : State) : State := afterSlice d n (repin d n la (pump d n la s))

/-! ### Arrival (R260, R263, R266, R282) -/

/-- Whether the home sent it: its COH channel (Table COH-2). -/
def fromHome (m : CohMsg) : Bool := Nat.beq m.src (homeDie (m.line * 128))

/-- Whether `a`, sent earlier, must arrive before `b` (R260). -/
def keepsOrder (a b : NetMsg) : Bool :=
  Nat.beq a.msg.src b.msg.src && Nat.beq a.msg.srcSlice b.msg.srcSlice && Nat.beq a.msg.dst b.msg.dst
    && ((fromHome a.msg && fromHome b.msg) || (a.typ.isReq && b.typ.isReq))

/-- Whether a message that is in flight may arrive now. -/
def mayArrive (x : NetMsg) : List NetMsg → Bool
  | [] => true
  | y :: t => if y = x then true else (!keepsOrder y x || !((y :: t).contains x)) && mayArrive x t

/-- The message is not in flight any more. -/
def consume (x : NetMsg) (s : State) : State := { s with slc := { s.slc with net := s.slc.net.erase x } }

/-- Messages held at a cache slice. -/
def heldBuf (s : State) (d n : Nat) : Nat := (s.slc.holdbuf.filter (fun y => Nat.beq y.1 d && Nat.beq y.2.1 n)).length

/-- A message for a cache slice. With 1,024 held the slice accepts no further message of the COH channel (Table COH-7). -/
def atCache (x : NetMsg) (s : State) : State :=
  let m := x.msg
  let d := m.dst
  let n := m.dstSlice
  let k := heldBuf s d n
  if fromHome m && Nat.ble 1024 k then s
  else if slicePart s d n == some m.part then
    match cacheTake x.typ m s with
    | .ok s' => afterCache d n m.line (consume x s')
    | .held | .fetching =>
      let s := consume x s
      { s with slc := { s.slc with holdbuf := s.slc.holdbuf ++ [(d, n, x)] } }.peak d (Reg.COH_HOLDBUF_PEAK n) (k + 1)
    | .bad => protoErr d n (cacheCode s d n m.line) 0 x.typ m (consume x s)
  else protoErr d n 0 0 x.typ m (consume x s)

/-- Whether the home serves the message's partition (R266, R279): the line's home half and the sender are of it. -/
def homeServes (s : State) (m : CohMsg) : Bool :=
  homePart s (m.line * 128) == some m.part && dieIn s m.part m.src

/-- A message for a home slice: R266 first. -/
def atHome (x : NetMsg) (s : State) : State :=
  let m := x.msg
  let s := consume x s
  if x.typ.isReq && !homeServes s m then
    sendNack m.dst ((homeChan s (m.line * 128)).getD 0) 2 m (s.count m.dst Reg.COH_DENIED 1)
  else
    match homeChan s (m.line * 128) with
    | none => protoErr m.dst 0 0 1 x.typ m s
    | some n =>
      if !homeServes s m || !backed s (m.line * 128) || Nat.beq m.src m.dst then protoErr m.dst n 0 1 x.typ m s
      else afterHome m.dst n m.line (homeTake m.dst n x s)

/-- A message arrives (R260): one of a dead incarnation is dropped (R282); one that may not arrive yet does not; one with
another TYPE is a protocol error (R258, R279; log 115). -/
def arrive (t : CohT) (m : CohMsg) (s : State) : State :=
  let x : NetMsg := ⟨t, m⟩
  if m.badType ≠ 0 then protoErr m.dst m.dstSlice 0 (if homeDie (m.line * 128) = m.dst then 1 else 0) t m s
  else if !mayArrive x s.slc.net then s
  else if s.boot.dead.contains (m.src, m.incarn.toNat) then (consume x s).count m.dst Reg.COH_STALE_INC 1
  else if homeDie (m.line * 128) = m.dst then atHome x s
  else if t.isReq then protoErr m.dst m.dstSlice 0 1 t m (consume x s)
  else atCache x s

def execGets (m : CohMsg) (s : State) : Host.Outcome State Fault Refusal := onDie s m.dst (arrive .getS m)
def execGetm (m : CohMsg) (s : State) : Host.Outcome State Fault Refusal := onDie s m.dst (arrive .getM m)
def execUpg (m : CohMsg) (s : State) : Host.Outcome State Fault Refusal := onDie s m.dst (arrive .upg m)
def execPuts (m : CohMsg) (s : State) : Host.Outcome State Fault Refusal := onDie s m.dst (arrive .putS m)
def execPutm (m : CohMsg) (s : State) : Host.Outcome State Fault Refusal := onDie s m.dst (arrive .putM m)
def execPuto (m : CohMsg) (s : State) : Host.Outcome State Fault Refusal := onDie s m.dst (arrive .putO m)
def execFwdgets (m : CohMsg) (s : State) : Host.Outcome State Fault Refusal := onDie s m.dst (arrive .fwdGetS m)
def execFwdgetm (m : CohMsg) (s : State) : Host.Outcome State Fault Refusal := onDie s m.dst (arrive .fwdGetM m)
def execInv (m : CohMsg) (s : State) : Host.Outcome State Fault Refusal := onDie s m.dst (arrive .inv m)
def execInvack (m : CohMsg) (s : State) : Host.Outcome State Fault Refusal := onDie s m.dst (arrive .invAck m)
def execData (m : CohMsg) (s : State) : Host.Outcome State Fault Refusal := onDie s m.dst (arrive .data m)
def execDataexcl (m : CohMsg) (s : State) : Host.Outcome State Fault Refusal := onDie s m.dst (arrive .dataExcl m)
def execDatap (m : CohMsg) (s : State) : Host.Outcome State Fault Refusal := onDie s m.dst (arrive .dataP m)
def execDataexclp (m : CohMsg) (s : State) : Host.Outcome State Fault Refusal := onDie s m.dst (arrive .dataExclP m)
def execWback (m : CohMsg) (s : State) : Host.Outcome State Fault Refusal := onDie s m.dst (arrive .wbAck m)
def execNack (m : CohMsg) (s : State) : Host.Outcome State Fault Refusal := onDie s m.dst (arrive .nack m)

/-! ### Orphans (R281) -/

/-- The COH-ORPHAN record and its count. -/
def orphanRecord (d n la role final poisoned : Nat) (s : State) : State :=
  let p := linePart s la
  emit d (0x10 + n) 0x052 0 (partSealed s p)
    [pa_ 8 la, pf 1 n, pf 1 role, pf 1 p, pf 1 final, pa_ 1 poisoned, pf 3 0] (s.count d Reg.COH_ORPHAN 1)

/-- The sectors of `mask`, from sector `i` on, installed poisoned where they are not valid. -/
def poisonFrom (mask : BitVec 4) : Nat → List Sector → List Sector
  | _, [] => []
  | i, x :: t =>
    (if x.valid || !mask.getLsbD i then x else ⟨true, x.dirty, true, 0, x.data⟩) :: poisonFrom mask (i + 1) t

/-- Every sector of the request not yet received installed poisoned. -/
def poisonMissing (mask : BitVec 4) (l : Line) : Line := { l with sectors := poisonFrom mask 0 l.sectors }

/-- Sectors of a line that are not valid. -/
def missing (l : Line) : BitVec 4 := ~~~(validMask l)

/-- The sectors that a GetS of the line still waits for: those of its MSHR. -/
def wanted (s : State) (l : Line) : BitVec 4 :=
  ((findMshr s l.die l.slice l.la).map (fun m => m.mask &&& missing l)).getD (missing l)

/-- A transient cache line completes as an orphan. -/
def orphanCache (inPut : Bool) (l : Line) (s : State) : State :=
  let done (st : CSt) (mask : BitVec 4) (s : State) : State :=
    let l' := poisonMissing mask { l with st := st, cnt := 0 }
    let s := orphanRecord l.die l.slice l.la 0 st.code mask.toNat s
    afterCache l.die l.slice l.la (tryPlace l.die l.slice l.la (clearMask l.die l.slice l.la (setCache inPut l' s)))
  match l.st with
  | .isD | .ssD => done .s (wanted s l) s
  | .imAD | .imA | .smAD | .omA => done .m (missing l) s
  | .miA | .oiA | .siA | .iiA => afterCache l.die l.slice l.la (endCache inPut l (orphanRecord l.die l.slice l.la 0 0 0 s))
  | _ => s

/-- The four sectors of the memory copy poisoned, in the slice and in the HBM ECC metadata (R220, R282). -/
def poisonLine (la : Nat) (s : State) : State :=
  each [0, 1, 2, 3] (fun s i =>
    let pa := la * 128 + i * 32
    poisonSector pa (hbmWrite pa (hbmRead s pa).1 true s)) s

/-- A transient entry completes as an orphan: owner data and InvAcks still owed are counted as received. -/
def orphanEntry (e : DirEnt) (s : State) : State :=
  let mask := if e.dataOwed then 15 else 0
  let s := if e.dataOwed then poisonLine e.la s else s
  let e' := { e with dataOwed := false, count := 0 }
  let (s, final) := match e.st with
    | .sD => (putDir { e' with st := .s } s, 1)
    | .bAck | .bData => (finish e' s, if e.cause = 1 then 1 else 0)
    | _ => (s, e.st.code)
  afterHome e.die e.slice e.la (orphanRecord e.die e.slice e.la 1 final mask s)

/-- Whether an entry is transient. -/
def DirEnt.transient (e : DirEnt) : Bool := e.st == .sD || e.st == .bAck || e.st == .bData

/-- The COH-TIMEOUT record, its count, and the partition fault (R280); AGE_US is the bound of Table COH-7. -/
def timeoutFault (d n la st role : Nat) (s : State) : State :=
  let p := linePart s la
  faultWith p 0x03 d (0x10 + n) 0x051 3 [pa_ 8 la, pf 1 st, pf 1 n, pf 1 role, pf 1 p, pa_ 4 1000]
    (s.count d Reg.COH_TIMEOUTS 1)

/-- COH_TIMEOUT (R280). -/
def cohTimeout (d n la : Nat) (home : Bool) (s : State) : State :=
  if home then
    match findDir s d n la with
    | some e => if e.transient then timeoutFault d n la e.st.code 1 (orphanEntry e s) else s
    | none => s
  else
    match cacheLine s d n la with
    | some (inPut, l) => if stableLine l then s else timeoutFault d n la l.st.code 0 (orphanCache inPut l s)
    | none => s

def execCohTimeout (d n line : Nat) (home : Bool) (s : State) : Host.Outcome State Fault Refusal :=
  onDie s d (cohTimeout d n line home)

/-! ### A dead die (R282, R283) -/

/-- A lost line (R283): counted, and recorded while fewer than 4,096 records of the notice stand for the slice. -/
def lostLine (d n la dead role : Nat) (dirty : Bool) (k : Nat) (s : State) : State :=
  let p := linePart s la
  let s := s.count d Reg.COH_LOST 1
  if k < 4096 then
    emit d (0x10 + n) 0x053 0 (partSealed s p)
      [pa_ 8 la, pf 1 dead, pf 1 n, pf 1 p, pf 1 role, pa_ 1 (if dirty then 1 else 0), pf 3 0] s
  else s

/-- Messages, held messages and held requests of the dead incarnation dropped on die `d`. -/
def dropStale (d dead inc : Nat) (s : State) : State :=
  let old (m : CohMsg) : Bool := Nat.beq m.src dead && Nat.beq m.incarn.toNat inc && Nat.beq m.dst d
  let k := (s.slc.net.filter (fun x => old x.msg)).length + (s.slc.holdq.filter (fun x => old x.2.2.msg)).length
    + (s.slc.holdbuf.filter (fun x => old x.2.2.msg)).length
  let s := { s with slc := { s.slc with
    net := s.slc.net.filter (fun x => !old x.msg),
    holdq := s.slc.holdq.filter (fun x => !old x.2.2.msg),
    holdbuf := s.slc.holdbuf.filter (fun x => !old x.2.2.msg) } }
  s.count d Reg.COH_STALE_INC k

/-- InvAcks that die `dead` owes an entry: 1 while it is one of the sharers that the Inv went to. -/
def owesAck (e : DirEnt) (dead : Nat) : Bool := e.sharers.contains dead

/-- `fin` of an entry whose owner is dead: no longer a sharer (R282). -/
def finishLost (e : DirEnt) (s : State) : State :=
  if e.cause = 1 && !e.sharers.isEmpty then putDir { e with st := .s, count := 0, dataOwed := false } s else freeDir e s

/-- Step 2 of R282 for one entry; `k` lost lines of the slice have been recorded. -/
def deadEntry (d dead : Nat) (k : Nat) (e : DirEnt) (s : State) : Nat × State :=
  let sh := delNat e.sharers dead
  let lose (s : State) : State := lostLine d e.slice e.la dead 0 true k (poisonLine e.la s)
  match e.st with
  | .m | .o =>
    if e.owner = dead then
      let s := lose s
      if sh.isEmpty then (k + 1, afterHome d e.slice e.la (freeDir e s))
      else
        let s := sendInvs d e.slice e.la d (linePart s e.la) 1 sh s
        (k + 1, putDir { e with st := .bAck, cause := 0, count := sh.length, sharers := sh, dataOwed := false } s)
    else (k, putDir { e with sharers := sh } s)
  | .s =>
    if sh.isEmpty then (k, afterHome d e.slice e.la (freeDir e s)) else (k, putDir { e with sharers := sh } s)
  | .sD =>
    if e.owner = dead && e.dataOwed then
      (k + 1, afterHome d e.slice e.la (putDir { e with st := .s, sharers := sh, dataOwed := false } (lose s)))
    else (k, putDir { e with sharers := sh } s)
  | .bAck | .bData =>
    let lost := e.dataOwed && e.owner == dead
    let s := if lost then lose s else s
    let e' := { e with sharers := sh, count := if owesAck e dead then e.count - 1 else e.count,
                       dataOwed := e.dataOwed && !lost }
    let k := if lost then k + 1 else k
    if e'.count = 0 && !e'.dataOwed then (k, afterHome d e.slice e.la (if lost then finishLost e' s else finish e' s))
    else (k, putDir e' s)

/-- Step 2 of R282 over the entries of one slice. -/
def deadEntries (d dead : Nat) : List DirEnt → Nat → State → Nat × State
  | [], k, s => (k, s)
  | e :: t, k, s =>
    let (k, s) := match findDir s d e.slice e.la with
      | some e => deadEntry d dead k e s
      | none => (k, s)
    deadEntries d dead t k s

/-- Step 3 of R282 for one guest line. -/
def deadGuest (d dead k : Nat) (inPut : Bool) (l : Line) (s : State) : Nat × State :=
  let dirty := dirtyMask l != 0
  if stableLine l then
    let (k, s) := if dirty then (k + 1, lostLine d l.slice l.la dead 1 true k s) else (k, s)
    (k, dropSent d l.slice l.la (endCache inPut l s))
  else (k, orphanCache inPut l s)

/-- Step 3 of R282 over guest lines. -/
def deadGuests (d dead : Nat) : List (Bool × Line) → Nat → State → Nat × State
  | [], k, s => (k, s)
  | (b, l) :: t, k, s =>
    let (k, s) := deadGuest d dead k b l s
    deadGuests d dead t k s

/-- The summary of R283 for a slice with more than 4,096 lost lines; it carries their whole count. -/
def lostSummary (d n dead part k : Nat) (s : State) : State :=
  if 4096 < k then
    emit d (0x10 + n) 0x054 0 (partSealed s part) [pf 1 dead, pf 1 n, pf 1 part, pf 1 0, pa_ 4 k] s
  else s

/-- Steps 1 to 3 of R282 on one slice of die `d`. -/
def deadSlice (d n dead : Nat) (s : State) : State :=
  let part := (slicePart s d n).getD 0
  let (k, s) := deadEntries d dead (s.slc.dir.filter (fun e => Nat.beq e.die d && Nat.beq e.slice n)) 0 s
  let guest (l : Line) : Bool := Nat.beq l.die d && Nat.beq l.slice n && l.st != .home && Nat.beq (homeDie (l.la * 128)) dead
  let (k, s) := deadGuests d dead
    ((s.slc.lines.filter guest).map (fun l => (false, l)) ++ (s.slc.puts.filter guest).map (fun l => (true, l))) k s
  lostSummary d n dead part k s

/-- Steps 1 to 3 of R282 on die `d`, on the slices of the halves that share a partition with the dead die. -/
def cohDead (d dead inc : Nat) (s : State) : State :=
  let s := dropStale d dead inc s
  each (List.range 24) (fun s n =>
    match slicePart s d n with
    | some p => if imgDie s p dead then deadSlice d n dead s else s
    | none => s) s

/-- Step 4 of R282 on die `d`: transient lines of partition `p` that are still not stable. -/
def cohReclaim (d p : Nat) (s : State) : State :=
  let mine (l : Line) : Bool := Nat.beq l.die d && !stableLine l && Nat.beq (linePart s l.la) p
  let ls := (s.slc.lines.filter mine).map (fun l => (false, l)) ++ (s.slc.puts.filter mine).map (fun l => (true, l))
  each ls (fun s x => orphanCache x.1 x.2 s) s

/-! ### COH_QUERY (R288) -/

/-- The set of sharers as the bits of COH_QUERY_SHARERS. -/
def sharerBits (l : List Nat) : Nat := l.foldl setBit 0

/-- The five result fields and SHARERS. -/
def queryResult (d st notHome owner count cause sharers : Nat) (s : State) : State :=
  let s := (s.wr d Reg.COH_QUERY_RESULT_STATE st).wr d Reg.COH_QUERY_RESULT_NOT_HOME notHome
  let s := ((s.wr d Reg.COH_QUERY_RESULT_OWNER owner).wr d Reg.COH_QUERY_RESULT_COUNT count).wr d Reg.COH_QUERY_RESULT_CAUSE cause
  (s.wr d Reg.COH_QUERY_SHARERS sharers).wr d Reg.COH_QUERY_RESULT_VALID 1

/-- SEALED-READ's ORIGIN of a source. -/
def srcOrigin : Source → Nat
  | .dc => 0
  | .mgp => 1
  | .pf _ => 2
  | .page _ _ => 2
  | .warden => 0

/-- COH_QUERY_CMD.GO: the entry of the line in COH_QUERY_ADDR. A query of a sealed partition from the normal world
returns zero in every field and is recorded. -/
def cohQuery (d : Nat) (src : Source) (s : State) : State :=
  let la := s.rd d Reg.COH_QUERY_ADDR
  let pa := la * 128
  let p := homePart s pa
  let s := { s with slc := { s.slc with queried := bind_ d la s.slc.queried } }
  if (p.map (partSealed s)).getD false && src != .warden then
    queryResult d 0 0 0 0 0 0 (sealedAccess pa (p.getD 0) 4 0 s)
  else if homeDie pa ≠ d then queryResult d 0 1 0 0 0 0 s
  else
    match (homeChan s pa).bind (fun n => findDir s d n la) with
    | some e =>
      let owned := e.st == .m || e.st == .o || e.dataOwed
      queryResult d e.st.code 0 (if owned then e.owner else 0) e.count e.cause (sharerBits e.sharers) s
    | none => queryResult d 0 0 0 0 0 0 s

def execCohQuery (d : Nat) (src : Source) (s : State) : Host.Outcome State Fault Refusal := onDie s d (cohQuery d src)

end Sys2Proof.Machine
end

