-- ==== Sys2Proof/Machine/Translation.lean ====
section
/-! DEFINITION. Translation and leases (chapter 13): the walk, the caches with their stamps, and the invalidation
commands. -/

namespace Sys2Proof.Machine

/-- What an access wants of a page (R472). -/
inductive Want3 where
  | load | store | fetch
  deriving DecidableEq, Repr

/-- What a translation gives: a physical address, or the fault code of Table XLT-7. -/
inductive XRes where
  | pa (n : Nat)
  | fault (code : Nat)
  deriving DecidableEq, Repr

/-- Who translates: the die, the unit that holds the first-level TLB (level 0 a cluster's, level 2 a mover's), the
context, the class and the half it reads from. -/
structure XBy where
  die : Nat
  level : Nat
  unit : Nat
  part : Nat
  inst : Nat
  ctx : Nat
  cls : Nat
  side : Nat
  router : Nat
  deriving DecidableEq, Repr

/-- The lease of a partition in ns (R476). -/
def leaseNs (s : State) (p : Nat) : Nat := leaseUs s p * 1000

/-- Whether a TLB entry belongs to the context and covers the address. -/
def Tlb.covers (e : Tlb) (level unit : Nat) (b : XBy) (va : Nat) : Bool :=
  Nat.beq e.level level && Nat.beq e.die b.die && Nat.beq e.unit unit && Nat.beq e.part b.part && Nat.beq e.inst b.inst
    && Nat.beq e.ctx b.ctx && e.partner.isNone && Nat.ble e.va va && Nat.blt va (e.va + e.size)

/-- PA that a TLB entry gives (R473). -/
def Tlb.translate (e : Tlb) (va : Nat) : Nat :=
  let off := va - e.va
  if e.il && decide (0x10000 < e.size) then
    let nd := e.dl.length
    let first := (e.dl.findIdx? (fun d => Nat.beq d (homeDie e.pa))).getD 0
    let g := off / 0x10000
    let die := (e.dl[(first + g) % nd]?).getD 0
    die * 2 ^ 46 + bits e.pa 45 0 + g / nd * 0x10000 + va % 0x10000
  else e.pa + off

/-- Whether a copy's age has reached its lease (R476). -/
def stale (s : State) (d stamp lease : Nat) : Bool := Nat.ble lease (s.rtime d - stamp)

/-- The entries of a cache of at most `n`, with `e` as the newest; the list is in order of use, oldest first. -/
def cachePut (n : Nat) (mine : Tlb → Bool) (e : Tlb) (l : List Tlb) : List Tlb :=
  let l := if n ≤ (l.filter mine).length then
      match l.find? mine with
      | some v => l.erase v
      | none => l
    else l
  l ++ [e]

/-- The TLB size of a level (R475). -/
def tlbSize (level : Nat) : Nat := if level = 0 then 256 else if level = 1 then 8192 else 16

/-- The set of the die TLB that an entry stands in (R475). -/
def Tlb.dieSet (e : Tlb) : Nat := Config.dieTlbSet e.part e.inst e.ctx e.va % 1024

/-- A TLB entry entered as the newest of its cache, in a die TLB of its set of 8 ways; the least recently used gives way
(R475, Table XLT-6). -/
def tlbPut (e : Tlb) (s : State) : State :=
  let mine (x : Tlb) : Bool := Nat.beq x.level e.level && Nat.beq x.die e.die && Nat.beq x.unit e.unit
  let peer (x : Tlb) : Bool := mine x && (!(Nat.beq e.level 1) || Nat.beq x.dieSet e.dieSet)
  { s with xlt := { s.xlt with tlb := cachePut (if e.level = 1 then 8 else tlbSize e.level) peer e s.xlt.tlb } }

/-- A lookup of one TLB: a live hit becomes the newest entry; a copy past its lease is discarded and counted. -/
def tlbLook (level unit : Nat) (b : XBy) (va : Nat) (s : State) : Option Tlb × State :=
  match s.xlt.tlb.find? (fun e => e.covers level unit b va) with
  | none => (none, s)
  | some e =>
    let s' := { s with xlt := { s.xlt with tlb := s.xlt.tlb.erase e } }
    if stale s b.die e.stamp e.lease then (none, s'.count b.die Reg.XLT_LEASE_DROP 1)
    else (some e, tlbPut e s')

/-- The agent that reads tables for a walk (R478). -/
def XBy.acc (b : XBy) : AccBy := ⟨b.die, b.side, b.part, b.cls, 0, false, b.router⟩

/-- The sector of the newest copy of a line: the owner's, else the home slice's, else HBM. -/
def newestCopy (pa : Nat) (s : State) : SectorData × Bool :=
  let la := pa / 128
  let sec := bits pa 6 5
  let has (l : Line) : Bool := Nat.beq l.la la && (sectorAt l sec).valid
  let all := (s.slc.lines ++ s.slc.puts).filter has
  match all.find? (fun l => l.st == .m || l.st == .o), all.find? (fun l => l.st == .home), all.head? with
  | some l, _, _ => ((sectorAt l sec).data, (sectorAt l sec).poison)
  | _, some l, _ => ((sectorAt l sec).data, (sectorAt l sec).poison)
  | _, _, some l => ((sectorAt l sec).data, (sectorAt l sec).poison)
  | _, _, none => hbmRead s pa

/-- The newest copy with the writes that wait for the line at its home, in the order it accepted them. -/
def newestSector (pa : Nat) (s : State) : SectorData × Bool :=
  let ws := match homeChan s pa with
    | some n => earlierWaiters s (homeDie pa) n (pa / 128)
    | none => []
  let put (x : SectorData × Bool) (w : Waiter) : SectorData × Bool :=
    match if w.sec = bits pa 6 5 then w.want.bytes else none with
    | some (mask, v) => let y := wroteSector mask v ⟨true, true, x.2, 0, x.1⟩; (y.data, y.poison)
    | none => x
  ws.foldl put (newestCopy pa s)

/-- An 8-byte entry read through the unified cache: its value, a fault code, or a wait. A host port (level 1) does not
wait: where another transaction holds the line, the newest copy answers. -/
def readEntry (b : XBy) (pa : Nat) (s : State) : Option ((Nat ⊕ Nat) × State) :=
  match accRead b.acc pa s with
  | none =>
    let x := newestSector pa s
    if b.level ≠ 1 then none
    else some (if x.2 then .inr 5 else .inl (bits x.1.toNat (pa % 32 * 8 + 63) (pa % 32 * 8)), s)
  | some (.denied, s) => some (.inr 4, s)
  | some (.ok v p, s) =>
    if p then some (.inr 5, s) else some (.inl (bits v.toNat (pa % 32 * 8 + 63) (pa % 32 * 8)), s)

/-- The root of the context's page tables, from the context cache or the context table (R469, R478). -/
def ctxRoot (b : XBy) (s : State) : Option ((Nat ⊕ Nat) × State) :=
  let mine (e : CtxCopy) : Bool := Nat.beq e.die b.die && Nat.beq e.part b.part && Nat.beq e.inst b.inst && Nat.beq e.ctx b.ctx
  let hit := s.xlt.ctxs.find? mine
  let s := match hit with
    | some e => if stale s b.die e.stamp e.lease then
        { s with xlt := { s.xlt with ctxs := s.xlt.ctxs.erase e } }.count b.die Reg.XLT_LEASE_DROP 1 else s
    | none => s
  match s.xlt.ctxs.find? mine with
  | some e => some (.inl e.root.toNat, { s with xlt := { s.xlt with ctxs := s.xlt.ctxs.erase e ++ [e] } })
  | none =>
    let j := instSlot s b.die b.part b.inst
    if s.rd b.die (Reg.XLT_CTX_BASE_VALID j) = 0 then some (.inr 3, s)
    else
      match readEntry b (s.rd b.die (Reg.XLT_CTX_BASE_BASE j) * 4096 + b.ctx * 8) s with
      | none => none
      | some (.inr c, s) => some (.inr c, s)
      | some (.inl w, s) =>
        if w % 2 = 0 || bits w 11 1 ≠ 0 || bits w 63 52 ≠ 0 then some (.inr 3, s)
        else
          let root := bits w 51 12 * 4096
          let e : CtxCopy := ⟨b.die, b.part, b.inst, b.ctx, BitVec.ofNat 64 root, s.rtime b.die, leaseNs s b.part⟩
          let n := (s.xlt.ctxs.filter (fun x => Nat.beq x.die b.die)).length
          let l := if 512 ≤ n then
              match s.xlt.ctxs.find? (fun x => Nat.beq x.die b.die) with
              | some v => s.xlt.ctxs.erase v
              | none => s.xlt.ctxs
            else s.xlt.ctxs
          some (.inl root, { s with xlt := { s.xlt with ctxs := l ++ [e] } })

/-- The index of a level (Table XLT-2). -/
def levelIndex (level va : Nat) : Nat :=
  match level with
  | 0 => bits va 47 39
  | 1 => bits va 38 30
  | 2 => bits va 29 21
  | _ => bits va 20 16

/-- The page size of a leaf at a level. -/
def pageSize (level : Nat) : Nat :=
  match level with
  | 1 => 0x40000000
  | 2 => 0x200000
  | _ => 0x10000

/-- The walk from level 4 − `fuel` on (R470, R471, Table XLT-7): the leaf word and its level, or a fault code. -/
def walkFrom (b : XBy) (va : Nat) : Nat → Nat → State → Option (((Nat × Nat) ⊕ Nat) × State)
  | 0, _, s => some (.inr 3, s)
  | fuel + 1, table, s =>
    let level := 3 - fuel
    match readEntry b (table + levelIndex level va * 8) s with
    | none => none
    | some (.inr c, s) => some (.inr c, s)
    | some (.inl w, s) =>
      let leaf := w.testBit 1
      let addr := bits w 51 8 * 256
      if w % 2 = 0 || bits w 7 5 ≠ 0 || bits w 63 52 ≠ 0 then some (.inr 3, s)
      else if leaf then
        if level = 0 || addr % pageSize level ≠ 0 then some (.inr 3, s) else some (.inl (w, level), s)
      else if level = 3 || (level < 2 && addr % 4096 ≠ 0) then some (.inr 3, s)
      else walkFrom b va fuel addr s

/-- A walk of the die (R478): the die TLB entry that it fills. -/
def walk (b : XBy) (va : Nat) (s : State) : Option ((Tlb ⊕ Nat) × State) :=
  let stamp := s.rtime b.die
  match ctxRoot b s with
  | none => none
  | some (.inr c, s) => some (.inr c, s.count b.die Reg.XLT_WALK_FAULT 1)
  | some (.inl root, s) =>
    match walkFrom b va 4 root s with
    | none => none
    | some (.inr c, s) => some (.inr c, s.count b.die Reg.XLT_WALK_FAULT 1)
    | some (.inl (w, level), s) =>
      let size := pageSize level
      let e : Tlb := ⟨1, b.die, 0, b.part, b.inst, b.ctx, va / size * size, size, bits w 51 8 * 256,
        w.testBit 4 && decide (level ≠ 3), partDies s b.part, none, w.testBit 2, w.testBit 3, stamp, leaseNs s b.part⟩
      some (.inl e, (s.count b.die Reg.XLT_WALKS 1).peak b.die Reg.XLT_WALK_PEAK 1)

/-- What a TLB entry gives an access (R472, R474). An interleaved page whose frame names a die outside DL has no place in the
formula of R473: PERMISSION (DEDUCED, log 124). -/
def useEntry (e : Tlb) (va : Nat) (w : Want3) : XRes :=
  let ok := match w with
    | .load => true
    | .store => e.write
    | .fetch => e.exec
  let pa := e.translate va
  if !ok then .fault 4
  else if !e.dl.contains (homeDie pa) || !e.dl.contains (homeDie e.pa) then .fault 4
  else .pa pa

/-- Translate a virtual address (R478). None: a table read waits. A faulting walk caches nothing (R493). -/
def translate (b : XBy) (va : Nat) (w : Want3) (s : State) : Option (XRes × State) :=
  if 2 ^ 48 ≤ va then some (.fault 3, s)
  else
    match tlbLook b.level b.unit b va s with
    | (some e, s) => some (useEntry e va w, s)
    | (none, s) =>
      let s := if b.level = 0 then s.count b.die Reg.XLT_CTLB_MISS 1 else s
      match tlbLook 1 0 b va s with
      | (some e, s) =>
        let s := s.count b.die Reg.XLT_DTLB_HIT 1
        some (useEntry e va w, tlbPut { e with level := b.level, unit := b.unit } s)
      | (none, s) =>
        let s := s.count b.die Reg.XLT_DTLB_MISS 1
        match walk b va s with
        | none => none
        | some (.inr c, s) => some (.fault c, s)
        | some (.inl e, s) =>
          match useEntry e va w with
          | .fault c => some (.fault c, s.count b.die Reg.XLT_WALK_FAULT 1)
          | .pa n => some (.pa n, tlbPut { e with level := b.level, unit := b.unit } (tlbPut e s))

/-! ### Invalidation (R479–R483) -/

/-- Whether a context is in the scope of an invalidation: 1 RANGE and 2 CONTEXT name one, 3 INSTANCE, 4 PARTITION. -/
def inScope (x : XInval) (part inst ctx : Nat) : Bool :=
  Nat.beq part x.part && (Nat.beq x.scope 4 || (Nat.beq inst x.inst && (Nat.beq x.scope 3 || Nat.beq ctx x.ctx)))

/-- Whether a page overlaps the range of an invalidation (R480). -/
def inRange (x : XInval) (va size : Nat) : Bool :=
  !(Nat.beq x.scope 1) || (Nat.blt va ((x.page + x.count) * 0x10000) && Nat.blt (x.page * 0x10000) (va + size))

/-- Every matching copy dropped, on every die of the partition (R480 step 1). RANGE leaves the context cache. -/
def dropCopies (x : XInval) (s : State) : State :=
  let ctxs := s.xlt.ctxs.filter (fun e => Nat.beq x.scope 1 || !inScope x e.part e.inst e.ctx)
  let tlb := s.xlt.tlb.filter (fun e => !(inScope x e.part e.inst e.ctx && inRange x e.va e.size))
  { s with xlt := { s.xlt with tlb := tlb, ctxs := ctxs } }

/-- Every copy of a partition in every table of Table XLT-5 dropped (R487). -/
def dropPartCopies (p : Nat) (s : State) : State :=
  let s := dropCopies ⟨0, 4, p, 0, 0, 0, 0⟩ s
  { s with
    que := { s.que with
      seqCopies := s.que.seqCopies.filter (fun e => !(Nat.beq e.part p)),
      btCopies := s.que.btCopies.filter (fun e =>
        !(s.que.seqs.any (fun x => Nat.beq x.id e.seq && Nat.beq x.part p))) },
    xlt := { s.xlt with
      routes := s.xlt.routes.filter (fun e => !(Nat.beq e.part p)),
      pts := s.xlt.pts.filter (fun e => !(Nat.beq e.entry.part p)) } }

/-- Every copy of an instance dropped (R488). -/
def dropInstCopies (p i : Nat) (s : State) : State :=
  let s := dropCopies ⟨0, 3, p, i, 0, 0, 0⟩ s
  let mine (id : Nat) : Bool := s.que.seqs.any (fun x => Nat.beq x.id id && Nat.beq x.part p && Nat.beq x.inst i)
  { s with que := { s.que with
      seqCopies := s.que.seqCopies.filter (fun e => !(Nat.beq e.part p && Nat.beq e.inst i)),
      btCopies := s.que.btCopies.filter (fun e => !mine e.seq) } }

/-- Invalidations of die `d` accepted and not done. -/
def invalsOf (s : State) (d : Nat) : List XInval := s.xlt.queue.filter (fun x => Nat.beq x.die d)

/-- XLT_INV_STATUS.QUEUED and BUSY follow the queue of the die. -/
def invStatus (d : Nat) (s : State) : State :=
  let n := (invalsOf s d).length
  (s.wr d Reg.XLT_INV_STATUS_BUSY (if n = 0 then 0 else 1)).wr d Reg.XLT_INV_STATUS_QUEUED (n - 1)

/-- A command's result: it completes, and is counted; a write of XLT_CTX_BASE (scope 5) is no command. -/
def invalEnd (x : XInval) (result : Nat) (s : State) : State :=
  let s := { s with xlt := { s.xlt with queue := s.xlt.queue.erase x } }
  let s := if x.scope = 5 then s else s.count x.die Reg.XLT_INV_DONE 1
  invStatus x.die (s.wr x.die Reg.XLT_INV_STATUS_RESULT result)

/-- Whether a die of the partition cannot acknowledge: it is in reset. -/
def silentDie (s : State) (p : Nat) : Option Nat := (partDies s p).find? (fun d => s.boot.inReset.contains d)

/-- Whether a reset in progress covers the scope of an invalidation (R489). -/
def resetCovers (s : State) (x : XInval) : Bool :=
  s.prt.resets.any (fun r => Nat.beq r.part x.part && (match r.inst with
    | none => true
    | some i => Nat.beq i x.inst && !(Nat.beq x.scope 4)))

/-- The commands of die `d` take their turn in the order written (R486): the dies that answer drop their copies, and it completes
when every die of the partition has acknowledged, and otherwise waits for them (R495). One that a reset covers waits for it
(R489). -/
def drainInvals (d : Nat) : Nat → State → State
  | 0, s => s
  | fuel + 1, s =>
    match invalsOf s d with
    | [] => s
    | x :: _ =>
      if x.scope ≠ 5 && resetCovers s x then s
      else
        let s := if x.scope = 5 then s else dropCopies x s
        if (silentDie s x.part).isSome then s else drainInvals d fuel (invalEnd x 0 s)

/-- A command accepted (R480). With one running and eight waiting, a further one completes FULL (Table XLT-6; DEDUCED, log 125);
a RANGE of no pages completes RANGE. -/
def invalidate (x : XInval) (s : State) : State :=
  let d := x.die
  if 9 ≤ (invalsOf s d).length then s.wr d Reg.XLT_INV_STATUS_RESULT 1
  else if x.scope = 1 && x.count = 0 then (s.wr d Reg.XLT_INV_STATUS_RESULT 3).count d Reg.XLT_INV_DONE 1
  else drainInvals d 9 (invStatus d { s with xlt := { s.xlt with queue := s.xlt.queue ++ [x] } })

/-- A write of a warden field, or of a register that only the warden writes for a sealed partition, from another
source (R446): discarded, counted, recorded. ORIGIN: 0 DC, 1 MGP, 2 PF. -/
def wardDenied (d off : Nat) (src : Source) (s : State) : State :=
  let o := match src with
    | .dc => 0
    | .mgp => 1
    | _ => 2
  emit d 0 0x090 0 false [pf 4 off, pf 1 o, pf 3 0] (s.count d Reg.WARD_DENIED 1)

/-- Whether `src` may write what R447 reserves for the warden in partition `p`. -/
def wardenOk (s : State) (p : Nat) (src : Source) : Bool := !partSealed s p || src == .warden

/-- A write of XLT_INV_CMD (R479): the fields take their values, OP reads back 0, and the command starts. -/
def invCommand (d scope part inst ctx count : Nat) (src : Source) (s : State) : State :=
  if wardenOk s part src then
    let s := ((((s.wr d Reg.XLT_INV_CMD_PART part).wr d Reg.XLT_INV_CMD_INST inst).wr d Reg.XLT_INV_CMD_CTX ctx).wr d
      Reg.XLT_INV_CMD_COUNT count).wr d Reg.XLT_INV_CMD_SCOPE 0
    invalidate ⟨d, scope, part, inst, ctx, s.rd d Reg.XLT_INV_ADDR, count % 0x10000⟩ s
  else wardDenied d 0x700008 src s

/-- XLT_INVAL_RANGE (R479). -/
def execXltInvalRange (d part inst ctx count : Nat) (src : Source) (s : State) : Host.Outcome State Fault Refusal :=
  onDie s d (invCommand d 1 part inst ctx count src)
/-- XLT_INVAL_CONTEXT (R479). -/
def execXltInvalContext (d part inst ctx : Nat) (src : Source) (s : State) : Host.Outcome State Fault Refusal :=
  onDie s d (invCommand d 2 part inst ctx 0 src)
/-- XLT_INVAL_INSTANCE (R479). -/
def execXltInvalInstance (d part inst : Nat) (src : Source) (s : State) : Host.Outcome State Fault Refusal :=
  onDie s d (invCommand d 3 part inst 0 0 src)
/-- XLT_INVAL_PARTITION (R479). -/
def execXltInvalPartition (d part : Nat) (src : Source) (s : State) : Host.Outcome State Fault Refusal :=
  onDie s d (invCommand d 4 part 0 0 0 src)

/-- XLT_INV_TIMEOUT (R495): the first invalidation of die `d` has not been acknowledged by die `silent`; the
partition faults and the command completes with TIMEOUT. A write of XLT_CTX_BASE acts as one of scope INSTANCE (R483). -/
def invTimeout (d silent : Nat) (s : State) : State :=
  match invalsOf s d with
  | [] => s
  | x :: _ =>
    let s := faultWith x.part 0x0E d 6 0x0A0 3 [pf 1 x.part, pf 1 (if x.scope = 5 then 3 else x.scope), pf 1 silent, pf 5 0] s
    drainInvals d 9 (invalEnd x 2 s)

def execXltInvTimeout (d silent : Nat) (s : State) : Host.Outcome State Fault Refusal :=
  onDie s d (invTimeout d silent)

/-- A write of XLT_CTX_BASE[j] (R483): sent to every die of the partition, where it acts as an INSTANCE-scope
invalidation of the context cache. It completes as a command does, behind those of its die (R486). -/
def ctxBaseWrite (d j : Nat) (src : Source) (v : Word) (s : State) : State :=
  match halfPart s d (j / 32) with
  | none =>
    (s.wr d (Reg.XLT_CTX_BASE_VALID j) (v.toNat % 2)).wr d (Reg.XLT_CTX_BASE_BASE j) (bits v.toNat 51 12)
  | some p =>
    if !wardenOk s p src then wardDenied d (0x700100 + 8 * j) src s
    else if 9 ≤ (invalsOf s d).length then s.wr d Reg.XLT_INV_STATUS_RESULT 1
    else
      let s := each (partHalves s p) (fun s h =>
        let k := 32 * (h % 2) + j % 32
        (s.wr (h / 2) (Reg.XLT_CTX_BASE_VALID k) (v.toNat % 2)).wr (h / 2) (Reg.XLT_CTX_BASE_BASE k) (bits v.toNat 51 12)) s
      let ctxs := s.xlt.ctxs.filter (fun e => !(Nat.beq e.part p && Nat.beq e.inst (j % 32)))
      let run : XInval := ⟨d, 5, p, j % 32, 0, 0, 0⟩
      drainInvals d 9 (invStatus d { s with xlt := { s.xlt with ctxs := ctxs, queue := s.xlt.queue ++ [run] } })

/-- XLT_CTX_BASE_WRITE (R483). -/
def execXltCtxBaseWrite (d j : Nat) (src : Source) (v : Word) (s : State) : Host.Outcome State Fault Refusal :=
  onDie s d (fun s => if j < 64 then ctxBaseWrite d j src v s else s)

/-- PAGE_WALK (R478): a cluster of die `d` translates an address in a context; a faulting walk caches nothing. -/
def pageWalk (d cluster part inst ctx va : Nat) (write exec : Bool) (s : State) : State :=
  let w := if exec then Want3.fetch else if write then .store else .load
  match translate ⟨d, 0, cluster, part, inst, ctx, 1, clusterSide cluster, cluster⟩ va w s with
  | some (_, s) => s
  | none => s

def execPageWalk (d cluster part inst ctx va : Nat) (write exec : Bool) (s : State) : Host.Outcome State Fault Refusal :=
  onDie s d (pageWalk d cluster part inst ctx va write exec)

end Sys2Proof.Machine
end

