-- ==== Sys2Proof/Machine/Troupes.lean ====
section
/-! DEFINITION. Troupes and launches (chapter 5): placement, selection, cohorts, parking and yielding, the frame of
every core instruction, the end of a troupe and of a launch. -/

namespace Sys2Proof.Machine

/-! ### Launches and troupes by name -/

def findLaunch (s : State) (q : Nat) (i : Word) : Option Launch :=
  s.core.launches.find? (fun l => Nat.beq l.queue q && l.index == i)

/-- The launch of a troupe: one dispatched, or one that a kill under way has ended on another die. -/
def launchOf (s : State) (t : Troupe) : Option Launch :=
  (allLaunches s).find? (fun l => Nat.beq l.queue t.queue && l.index == t.index)

def sameLaunch (a b : Launch) : Bool := Nat.beq a.queue b.queue && a.index == b.index

def putLaunch (l : Launch) (s : State) : State :=
  { s with core := { s.core with launches := updWhere (sameLaunch l) (fun _ => l) s.core.launches } }

def troupeIn (a : SlotAt) (t : Troupe) : Bool :=
  Nat.beq t.die a.die && Nat.beq t.cluster a.cluster && Nat.beq t.core a.core && Nat.beq t.slot a.slot

def findTroupe (s : State) (a : SlotAt) : Option Troupe := s.core.troupes.find? (troupeIn a)

def Troupe.at_ (t : Troupe) : SlotAt := ⟨t.die, t.cluster, t.core, t.slot⟩

def putTroupe (t : Troupe) (s : State) : State :=
  { s with core := { s.core with troupes := updWhere (troupeIn t.at_) (fun _ => t) s.core.troupes } }

/-- Troupes of one launch on one cluster. -/
def launchTroupes (s : State) (q : Nat) (i : Word) (d c : Nat) : List Troupe :=
  s.core.troupes.filter (fun t => Nat.beq t.queue q && t.index == i && Nat.beq t.die d && Nat.beq t.cluster c)

/-! ### The placement set (R172, R176, R177) -/

/-- The clusters of a half of partition `p` that an instance may use, as die × 320 + cluster, ascending. -/
def halfClusters (s : State) (p i h : Nat) : List Nat :=
  let en := enabledClusters s p h
  let use := if sliceMode s p then
      match instEntry s p i with
      | some e => en.filter (fun c => e.maps.any (fun m => Nat.beq m.1 h && m.2.testBit (clusterBit c)))
      | none => []
    else en
  use.map (fun c => h / 2 * 320 + c)

/-- The set of R172. -/
def baseSet (s : State) (p i : Nat) (local_ : Option Nat) : List Nat :=
  let hs := match local_ with
    | some d => (partHalves s p).filter (fun h => Nat.beq (h / 2) d)
    | none => partHalves s p
  (hs.map (halfClusters s p i)).flatten

/-- The urgent clusters of half `h` (R176). -/
def urgentOf (s : State) (p h : Nat) : List Nat := (enabledClusters s p h).take (urgentClusters s p)

/-- Whether cluster `k` = die × 320 + c is an urgent cluster of partition `p`. -/
def isUrgent (s : State) (p k : Nat) : Bool :=
  (urgentOf s p (k / 320 * 2 + clusterSide (k % 320))).contains (k % 320)

/-- Whether a launch is served as class U (R177): it fits the reserve and its set has an urgent cluster. -/
def uServed (s : State) (p i cls rows lsKib : Nat) (local_ : Option Nat) : Bool :=
  Nat.beq cls 0 && Nat.ble rows 32 && Nat.ble lsKib 256 && (baseSet s p i local_).any (isUrgent s p)

/-- The ordered placement set of a launch. -/
def placementSet (s : State) (p i cls rows lsKib : Nat) (local_ : Option Nat) : List Nat :=
  if uServed s p i cls rows lsKib local_ then (baseSet s p i local_).filter (isUrgent s p) else baseSet s p i local_

/-- The die that a launch with PLACE[0] keeps to. -/
def Launch.localDie (l : Launch) : Option Nat := if l.local_ then some (queDie l.queue) else none

def launchSet (s : State) (l : Launch) : List Nat :=
  placementSet s l.part l.inst l.cls l.rows l.lsKib l.localDie

def launchU (s : State) (l : Launch) : Bool := uServed s l.part l.inst l.cls l.rows l.lsKib l.localDie

/-- The occupancy O on a cluster (R173, R176). -/
def occupancy (s : State) (p rows lsKib lsTroupe : Nat) (reserved : Bool) : Nat :=
  let regs := if reserved then 480 else 512
  let slots := if reserved then 15 else 16
  let ls := if lsTroupe = 0 then 16 else lsKib / (16 * lsTroupe)
  min (min (regs / rows) ls) (min (maxTroupes s p) slots)

/-- O of a launch on cluster `k`. -/
def occupancyAt (s : State) (p i cls rows lsKib lsTroupe : Nat) (local_ : Option Nat) (k : Nat) : Nat :=
  occupancy s p rows lsKib lsTroupe (isUrgent s p k && !uServed s p i cls rows lsKib local_)

/-! ### Placement (R174, R175) -/

def coreTroupes (s : State) (d c k : Nat) : List Troupe :=
  s.core.troupes.filter (fun t => Nat.beq t.die d && Nat.beq t.cluster c && Nat.beq t.core k)

/-- Whether a troupe is served as class U. -/
def troupeU (s : State) (t : Troupe) : Bool :=
  match launchOf s t with
  | some l => launchU s l
  | none => false

def sumRows (l : List Troupe) : Nat := (l.map (·.rows)).foldl (· + ·) 0

/-- Free slots of a core for a launch (R174, R176). -/
def freeSlots (s : State) (l : Launch) (d c k : Nat) : Nat :=
  let ts := coreTroupes s d c k
  if isUrgent s l.part (d * 320 + c) && !launchU s l then
    16 - max (ts.filter (troupeU s)).length 1 - (ts.filter (fun t => !troupeU s t)).length
  else 16 - ts.length

/-- Free rows of a core for a launch (R165, R176). -/
def freeRows (s : State) (l : Launch) (d c k : Nat) : Nat :=
  let ts := coreTroupes s d c k
  if isUrgent s l.part (d * 320 + c) && !launchU s l then
    512 - max (sumRows (ts.filter (troupeU s))) 32 - sumRows (ts.filter (fun t => !troupeU s t))
  else 512 - sumRows ts

/-- Whether the core can take a troupe of the launch. -/
def coreFits (s : State) (l : Launch) (d c k : Nat) : Bool :=
  let mine := (coreTroupes s d c k).filter (fun t => Nat.beq t.queue l.queue && t.index == l.index)
  Nat.blt 0 (freeSlots s l d c k) && Nat.ble l.rows (freeRows s l d c k)
    && Nat.blt mine.length
      (occupancyAt s l.part l.inst l.cls l.rows l.lsKib l.lsTroupe l.localDie (d * 320 + c))

/-- The core of `l` with most free slots, the lowest on a tie. -/
def bestCore (free : Nat → Nat) : List Nat → Option Nat
  | [] => none
  | k :: t =>
    match bestCore free t with
    | some b => if free k < free b then some b else some k
    | none => some k

/-- Launches resident on cluster `k` (R167). -/
def residents (s : State) (k : Nat) : List Launch := (allLaunches s).filter (fun l => l.resident.contains k)

def sumLs (l : List Launch) : Nat := (l.map (·.lsKib)).foldl (· + ·) 0

/-- Whether the launch is resident on cluster `k`, or can become so (R174, R176, R192). -/
def storeFits (s : State) (l : Launch) (k : Nat) : Bool :=
  let rs := residents s k
  l.resident.contains k ||
    (Nat.blt rs.length 8 && Nat.ble (sumLs rs + l.lsKib) 1280
      && (!(isUrgent s l.part k) || launchU s l
          || Nat.ble (sumLs (rs.filter (fun r => !launchU s r)) + l.lsKib) 1024))

/-- The index of the next troupe of the launch for cluster `k`, if the launch has one left there (R174). -/
def nextIndex (s : State) (l : Launch) (k : Nat) : Option Nat :=
  let set := launchSet s l
  match set.findIdx? (fun x => Nat.beq x k) with
  | some pos =>
    let i := pos + set.length * SMap.get 0 l.placed pos
    if i < l.ntroupe then some i else none
  | none => none

/-- The core where the launch's next troupe goes on cluster `k`: the one with the most free slots (DEDUCED, log 18); none
while something is not free there. -/
def placeCore (s : State) (l : Launch) (k : Nat) : Option Nat :=
  match bestCore (fun c => 16 - (coreTroupes s (k / 320) (k % 320) c).length) (List.range 16) with
  | some c => if storeFits s l k && coreFits s l (k / 320) (k % 320) c then some c else none
  | none => none

/-- The launch whose troupe is placed next on cluster `k` (R175): class U in dispatch order, then classes I and B. One
that cannot be placed holds back those behind it in its order (DEDUCED, log 18). A killed launch places no more troupes
on a die that KILL has reached (R195). -/
def nextLaunch (s : State) (k : Nat) : Option (Launch × Nat × Nat) :=
  let wants := s.core.launches.filter (fun l =>
    (nextIndex s l k).isSome && !tagStopped s (k / 320) l.part l.inst l.ctx)
  let try_ (l : Launch) : Option (Launch × Nat × Nat) :=
    (placeCore s l k).bind (fun c => (nextIndex s l k).map (fun i => (l, c, i)))
  match (wants.find? (launchU s)).bind try_ with
  | some r => some r
  | none =>
    match wants.find? (fun l => !launchU s l) with
    | some l => try_ l
    | none => none

/-- The slot that a new troupe takes. -/
def freeSlot (s : State) (d c k : Nat) : Nat :=
  ((List.range 16).find? (fun n => (coreTroupes s d c k).all (fun t => !(Nat.beq t.slot n)))).getD 16

/-- A thread at its first instruction (R163, R171). -/
def newThread (entry : Word) : Thread := ⟨entry, false, none, 0, false, 0⟩

/-- The scalar registers of a new troupe (Table TRP-2). -/
def startScalars (l : Launch) (i : Nat) : SMap Lane :=
  let put (n : Nat) (v : Nat) (m : SMap Lane) : SMap Lane := SMap.set 0 m n (BitVec.ofNat 32 v)
  let m := put 0 l.args.toNat (put 1 (l.args.toNat / 2 ^ 32) [])
  let m := put 2 i (put 3 l.ntroupe m)
  let m := put 4 (l.seq.getD 0xFFFFFFFF) (put 5 l.step.toNat m)
  (List.range 7).foldl (fun m j => put (6 + j) ((l.inline[j]?).getD 0).toNat m) m

/-- POLICY that a launch follows (R179) is fixed at dispatch in `Launch.oldest`. -/
def newTroupe (s : State) (l : Launch) (k core i : Nat) : Troupe :=
  let d := k / 320
  let c := k % 320
  { die := d, cluster := c, core := core, slot := freeSlot s d c core, queue := l.queue, index := l.index, idx := i,
    part := l.part, inst := l.inst, ctx := l.ctx, cls := l.cls, rows := l.rows, oldest := l.oldest,
    placedAt := SMap.get 0 s.core.cclk ((d * 320 + c) * 16 + core), issuedAt := none,
    threads := List.replicate 32 (newThread l.entry), sregs := startScalars l i, vregs := [], rtimeHi := 0,
    asleep := false, stopped := false, convergeDue := false }

/-- The instruction cache of a cluster invalidated (R154). -/
def invalIcache (d c : Nat) (s : State) : State :=
  { s with core := { s.core with icache := s.core.icache.filter (fun x => !(Nat.beq x.1 d && Nat.beq x.2.1 c)) } }

/-- A launch becomes resident on a cluster: its local store is taken, and the L1 and the instruction cache are
invalidated (R154, R163, R199). -/
def makeResident (l : Launch) (k : Nat) (s : State) : State :=
  if l.resident.contains k then s
  else
    let s := invalIcache (k / 320) (k % 320) (invalL1 (k / 320) (k % 320) s)
    let s := putLaunch { l with resident := l.resident ++ [k] } s
    if l.lsKib = 0 then s
    else { s with core := { s.core with stores := s.core.stores ++ [⟨l.queue, l.index, k / 320, k % 320, [], []⟩] } }

/-- A cluster that issues nothing: its half has no partition whose image is committed (R65, R204), or it or its half is
gated (R450), or it has failed, or its die is in reset. -/
def clusterStopped (s : State) (d c : Nat) : Bool :=
  (halfPart s d (clusterSide c)).isNone || s.prt.gated.any (fun g => Nat.beq g.die d
      && ((Nat.beq g.kind 0 && Nat.beq g.index c) || (Nat.beq g.kind 3 && Nat.beq g.index (clusterSide c))))
    || s.core.failed.contains (d * 320 + c) || s.boot.inReset.contains d

/-- TROUPE_PLACEMENT: the next troupe of cluster `c` of die `d`, if one can be placed (R174, R175). -/
def troupePlacement (d c : Nat) (s : State) : State :=
  let k := d * 320 + c
  if clusterStopped s d c then s
  else
    match nextLaunch s k with
    | none => s
    | some (l, core, i) =>
      let t := newTroupe s l k core i
      let s := makeResident l k s
      match findLaunch s l.queue l.index, (launchSet s l).findIdx? (fun x => Nat.beq x k) with
      | some l, some pos =>
        let s := putLaunch { l with placed := raise_ l.placed pos } s
        { s with core := { s.core with troupes := s.core.troupes ++ [t] } }
      | _, _ => s

/-- TROUPE_PLACEMENT (R174). -/
def execTroupePlacement (d cluster : Nat) (s : State) : Host.Outcome State Fault Refusal :=
  onDie s d (troupePlacement d cluster)

/-! ### Cohorts (R180, R182) -/

def Thread.live (x : Thread) : Bool := !x.exited && x.parked.isNone

/-- Whether some non-exited, unparked thread has a clear yielded bit. -/
def Troupe.fresh (t : Troupe) : Bool := t.threads.any (fun x => x.live && !x.yielded)

/-- Active threads (R180, R182). -/
def Troupe.active (t : Troupe) (x : Thread) : Bool := x.live && !(x.yielded && t.fresh)

/-- The least PC of a list of threads. -/
def leastPc : List Thread → Option Nat
  | [] => none
  | x :: l =>
    match leastPc l with
    | some n => some (min n x.pc.toNat)
    | none => some x.pc.toNat

/-- PC of the cohort. -/
def Troupe.cohortPc (t : Troupe) : Option Nat := leastPc (t.threads.filter t.active)

/-- Lanes of the cohort, ascending (R180). -/
def Troupe.cohort (t : Troupe) : List Nat :=
  match t.cohortPc with
  | some pc => (List.range 32).filter (fun n =>
      match t.thread n with
      | some x => t.active x && Nat.beq x.pc.toNat pc
      | none => false)
  | none => []

/-! ### Selection (R178) -/

/-- The key of a troupe: its placement stamp, or for round-robin its last-issue stamp. -/
def Troupe.key (t : Troupe) : Nat := if t.oldest then t.placedAt else t.issuedAt.getD t.placedAt

/-- Whether `a` goes before `b` by a key, the lower slot on a tie. -/
def before (key : Troupe → Nat) (a b : Troupe) : Bool :=
  Nat.blt (key a) (key b) || (Nat.beq (key a) (key b) && Nat.blt a.slot b.slot)

/-- The first of a list by a key. -/
def firstBy (key : Troupe → Nat) : List Troupe → Option Troupe
  | [] => none
  | t :: l =>
    match firstBy key l with
    | some b => if before key b t then some b else some t
    | none => some t

/-- Ready troupes of the core that issues (R178). -/
def readyTroupes (s : State) (a : Issue) : List Troupe :=
  (coreTroupes s a.die a.cluster a.core).filter (fun t =>
    a.ready.getLsbD t.slot && !t.asleep && !t.stopped && t.cohortPc.isSome)

/-- The troupe that issues (R178): the class U troupe placed first, else the one with the lowest key. -/
def selectTroupe (s : State) (a : Issue) : Option Troupe :=
  if clusterStopped s a.die a.cluster then none
  else
    let r := readyTroupes s a
    match firstBy (·.placedAt) (r.filter (fun t => Nat.beq t.cls 0)) with
    | some t => some t
    | none => firstBy Troupe.key r

/-! ### Faults of a troupe (R161, R189) -/

/-- A fault of a troupe at `pc`: the kill of its context, with its record. -/
def troupeFault (t : Troupe) (code lane addr pc : Nat) (s : State) : State :=
  let tag := ((launchOf s t).map (fun l => l.tag.toNat)).getD 0
  contextFault
    { die := t.die, part := t.part, inst := t.inst, ctx := t.ctx, code := code, queue := t.queue, tag := tag,
      kind := 0, sub := t.core, unit := t.cluster, slot := t.slot, lane := lane, troupe := t.idx, index := t.index.toNat % 2 ^ 32,
      pc := pc, addr := addr, cursor := 0 } s

/-! ### Parking and yielding (R182–R184, R200, R201) -/

/-- Non-exited threads. -/
def Troupe.rest (t : Troupe) : List Thread := t.threads.filter (fun x => !x.exited)

/-- The yielded bits clear when every non-exited, unparked thread has its bit set (R182). -/
def settleYield (t : Troupe) : Troupe :=
  if t.fresh then t else { t with threads := t.threads.map (fun x => { x with yielded := false }) }

/-- Threads parked under CONVERGE resume when every other non-exited thread is parked at the same PC (R183). -/
def settleConverge (t : Troupe) : Troupe :=
  match t.rest with
  | [] => t
  | x :: l =>
    if x.parked == some .converge && l.all (fun y => y.parked == some .converge && y.pc == x.pc) then
      { t with threads := t.threads.map (fun y => { y with parked := none }) }
    else t

/-- The parked thread that has waited longest under CONVERGE. -/
def oldestParked : List Thread → Option Thread
  | [] => none
  | x :: l =>
    if x.parked == some .converge && !x.exited then
      match oldestParked l with
      | some y => if y.parkedAt < x.parkedAt then some y else some x
      | none => some x
    else oldestParked l

/-- The threads parked with the one that parked first resume (R183). -/
def wakeConverge (t : Troupe) : Troupe :=
  match oldestParked t.threads with
  | some x =>
    let wake (y : Thread) : Thread := if y.parked == some .converge && y.pc == x.pc then { y with parked := none } else y
    { t with threads := t.threads.map wake, convergeDue := false }
  | none => { t with convergeDue := false }

/-- Whether a yielded bit of a thread that has not exited is set. -/
def Troupe.yields (t : Troupe) : Bool := t.rest.any (·.yielded)

/-- CONVERGE's 1,024 CCLK have passed: the threads resume, or stay parked until the yielded bits have cleared (R183,
R200). -/
def convergeExpire (t : Troupe) : Troupe := if t.yields then { t with convergeDue := true } else wakeConverge t

/-- The threads that R200 kept parked resume once the yielded bits are clear. -/
def settleDue (t : Troupe) : Troupe := if t.convergeDue && !t.yields then wakeConverge t else t

/-- The barriers that a troupe's non-exited threads are parked on, if all of them are (R184). -/
def barriersOf : List Thread → Option (List Nat)
  | [] => some []
  | x :: l =>
    match x.parked, barriersOf l with
    | some (.barrier b), some bs => some (addNat bs b)
    | _, _ => none

/-- Whether the troupe has arrived at barrier `b`, or has exited (R153). -/
def arrivedAt (b : Nat) (t : Troupe) : Bool :=
  match barriersOf t.rest with
  | some [] => true
  | some [n] => Nat.beq n b
  | _ => false

/-- Threads parked on barrier `b` become active. -/
def unparkBarrier (b : Nat) (t : Troupe) : Troupe :=
  { t with threads := t.threads.map (fun x => if x.parked == some (.barrier b) then { x with parked := none } else x) }

/-- BARRIER_RELEASE (R153, R184): when every troupe of the launch on the cluster has arrived at `b`. Troupes bound for the
cluster and not yet placed do not count (DESIGN CHOICE, log 112). -/
def releaseBarrier (q : Nat) (i : Word) (d c b : Nat) (s : State) : State :=
  if (launchTroupes s q i d c).all (arrivedAt b) then
    let mine (t : Troupe) : Bool := Nat.beq t.queue q && t.index == i && Nat.beq t.die d && Nat.beq t.cluster c
    { s with core := { s.core with troupes := updWhere mine (unparkBarrier b) s.core.troupes } }
  else s

/-- What an issue, an expiry or an exit may set off in its troupe (R182–R184, R201). -/
def settle (a : SlotAt) (s : State) : State :=
  match findTroupe s a with
  | none => s
  | some t =>
    let t := settleConverge (settleDue (settleYield t))
    let s := putTroupe t s
    match barriersOf t.rest with
    | some [] => each (List.range 16) (fun s b => releaseBarrier t.queue t.index t.die t.cluster b s) s
    | some [b] => releaseBarrier t.queue t.index t.die t.cluster b s
    | some (_ :: _ :: _) => troupeFault t 0x09 0 0 ((t.rest.head?.map (·.pc.toNat)).getD 0) s
    | none => s

/-! ### The frame of a core instruction -/

/-- One issue: the troupe with its PCs moved past the instruction, the word, its PC, its cohort, and the lanes
whose guard is 1 (R134). -/
structure Iss where
  t : Troupe
  w : Nat
  pc : Nat
  cohort : List Nat
  act : List Nat
  deriving DecidableEq, Repr

/-- What an instruction does. -/
inductive Eff where
  /-- Its effect. -/
  | done (t : Troupe) (s : State)
  /-- A fault of Table ISA-9: code, lane, address. -/
  | trap (code lane addr : Nat) (s : State)
  /-- It cannot proceed yet. -/
  | wait
  /-- It cannot proceed yet, and something has been noted (a held LDKV). -/
  | hold (s : State)
  deriving DecidableEq, Repr

def Troupe.xby (t : Troupe) : XBy :=
  ⟨t.die, 0, t.cluster, t.part, t.inst, t.ctx, t.cls, clusterSide t.cluster, t.cluster⟩

def Troupe.acc (t : Troupe) (hint : Nat) (fill : Bool) : AccBy :=
  ⟨t.die, clusterSide t.cluster, t.part, t.cls, hint, fill, t.cluster⟩

/-- Instruction fetch through the cluster's instruction cache (R154): nothing when the word can be had, else a fault
code. -/
def fetch (t : Troupe) (pc : Nat) (s : State) : Option (Option Nat × State) :=
  match translate t.xby pc .fetch s with
  | none => none
  | some (.fault c, s) => some (some c, s)
  | some (.pa pa, s) =>
    let line := pa / 128
    if s.core.icache.contains (t.die, t.cluster, line) then some (none, s)
    else
      match accRead (t.acc 0 true) pa s with
      | none => none
      | some (.denied, s) => some (some 4, s)
      | some (.ok _ p, s) =>
        if p then some (some 5, s)
        else some (none, { s with core := { s.core with icache := s.core.icache ++ [(t.die, t.cluster, line)] } })

/-- The CCLK counter of a core, one past (R178). -/
def tickCore (a : Issue) (s : State) : State :=
  { s with core := { s.core with cclk := raise_ s.core.cclk ((a.die * 320 + a.cluster) * 16 + a.core) } }

/-- PC + 8 in the lanes of the cohort (R134). -/
def stepPcs (pc : Nat) (lanes : List Nat) (t : Troupe) : Troupe :=
  lanes.foldl (fun t n => t.updThread n (fun x => { x with pc := BitVec.ofNat 64 (pc + 8) })) t

/-- The issue of word `w` by troupe `t`. -/
def mkIss (t : Troupe) (w pc now : Nat) : Iss :=
  let co := t.cohort
  ⟨{ stepPcs pc co t with issuedAt := some now }, w, pc, co, co.filter (guardOf t w)⟩

/-- The rest of an issue once the word is fetched: a legal word has its effect, another faults ILLEGAL (R133). -/
def issueWord (t : Troupe) (w pc now : Nat) (eff : Iss → State → Eff) (s : State) : State :=
  let i := mkIss t w pc now
  if legal t.rows w then
    match eff i s with
    | .done t' s => settle t.at_ (putTroupe t' s)
    | .trap code lane addr s => troupeFault t code lane addr pc s
    | .wait => s
    | .hold s => s
  else troupeFault t 0x01 (i.cohort.headD 0) 0 pc s

/-- Whether a cluster's OUT-LOW is asserted (R412). -/
def outLow (s : State) (d c : Nat) : Bool := s.rdBit d (Reg.MON_VLOW (c / 64)) (c % 64)

/-- CCLK that a core has counted. -/
def coreClock (s : State) (a : Issue) : Nat := SMap.get 0 s.core.cclk ((a.die * 320 + a.cluster) * 16 + a.core)

/-- Whether a core of a cluster in OUT-LOW must let this CCLK pass: it issues at most one instruction per 2 CCLK, on the even ones
(R412; which ones is a DESIGN CHOICE, log 120). -/
def issueHeld (s : State) (a : Issue) : Bool := outLow s a.die a.cluster && Nat.beq (coreClock s a % 2) 1

/-- A core instruction: the core takes one CCLK, the ready troupe that R178 chooses fetches the word, and its cohort
executes it. With no ready troupe nothing issues (DESIGN CHOICE, log 5). -/
def issue (a : Issue) (w : Nat) (eff : Iss → State → Eff) (s : State) : State :=
  let s := tickCore a s
  match if issueHeld s a then none else selectTroupe s a with
  | none => s
  | some t =>
    let pc := t.cohortPc.getD 0
    match fetch t pc s with
    | none => s
    | some (some c, s) => troupeFault t c (t.cohort.headD 0) pc pc s
    | some (none, s) =>
      issueWord t w pc (coreClock s a) eff s

/-! ### Expiries -/

/-- The troupe in a slot changed, and what that sets off. -/
def onTroupe (a : SlotAt) (f : Troupe → Troupe) (s : State) : State :=
  match findTroupe s a with
  | some t => settle a (putTroupe (f t) s)
  | none => s

/-- SLEEP_EXPIRY: the SLEEP interval ends. -/
def execSleepExpiry (t : SlotAt) (s : State) : Host.Outcome State Fault Refusal :=
  onDie s t.die (onTroupe t (fun t => { t with asleep := false }))

/-- CONVERGE_TIMEOUT (R183). -/
def execConvergeTimeout (t : SlotAt) (s : State) : Host.Outcome State Fault Refusal :=
  onDie s t.die (onTroupe t convergeExpire)

/-- Every yielded bit of a troupe cleared. -/
def clearYields (t : Troupe) : Troupe :=
  { t with threads := t.threads.map (fun x => { x with yielded := false }) }

/-- YIELD_TIMEOUT (R182): the troupe's yielded bits clear. -/
def execYieldTimeout (t : SlotAt) (s : State) : Host.Outcome State Fault Refusal :=
  onDie s t.die (onTroupe t clearYields)

/-! ### Ends (R187, R188, R346) -/

/-- The launch's local store on a cluster freed, and the L1 invalidated as it grows (R187, R199). -/
def leaveCluster (l : Launch) (k : Nat) (s : State) : State :=
  let s := putLaunch { l with resident := delNat l.resident k } s
  let s := { s with core := { s.core with stores := s.core.stores.filter (fun x =>
    !(Nat.beq x.queue l.queue && x.index == l.index && Nat.beq x.die (k / 320) && Nat.beq x.cluster (k % 320))) } }
  if l.lsKib = 0 then s else invalL1 (k / 320) (k % 320) s

/-- The troupe taken out of its slot. -/
def dropTroupe (a : SlotAt) (s : State) : State :=
  { s with core := { s.core with troupes := s.core.troupes.filter (fun t => !troupeIn a t) } }

/-- A troupe whose threads have all exited ends (R187). -/
def endTroupe (t : Troupe) (s : State) : State :=
  let s := dropTroupe t.at_ s
  match findLaunch s t.queue t.index with
  | none => s
  | some l =>
    let l := { l with ended := l.ended + 1 }
    let s := putLaunch l s
    let k := t.die * 320 + t.cluster
    if (launchTroupes s l.queue l.index t.die t.cluster).isEmpty && (nextIndex s l k).isNone then leaveCluster l k s
    else s

/-- TROUPE_END (R187). -/
def troupeEnd (a : SlotAt) (s : State) : State :=
  match findTroupe s a with
  | some t => if t.rest.isEmpty then endTroupe t s else s
  | none => s

def execTroupeEnd (t : SlotAt) (s : State) : Host.Outcome State Fault Refusal := onDie s t.die (troupeEnd t)

/-- Whether every troupe of the launch has ended. -/
def allEnded (l : Launch) : Bool := Nat.ble l.ntroupe l.ended && !l.lost

/-- LAUNCH_DETACH (R346): every STKV is performed as it issues, so a launch detaches once its troupes have ended. -/
def launchDetach (q : Nat) (i : Word) (s : State) : State :=
  match findLaunch s q i with
  | some l => if allEnded l then putLaunch { l with attached := [] } (detach l false s) else s
  | none => s

def execLaunchDetach (queue : Nat) (index : Word) (s : State) : Host.Outcome State Fault Refusal :=
  onDie s (queDie queue) (launchDetach queue index)

/-- LAUNCH_RETIRE (R188, R342): the launch leaves the machine and its item completes OK. -/
def launchRetire (q : Nat) (i : Word) (s : State) : State :=
  match findLaunch s q i with
  | some l =>
    if allEnded l then
      let s := detach l false s
      let s := { s with core := { s.core with launches := s.core.launches.filter (fun x => !sameLaunch l x) } }
      completeItem q l.tag.toNat 0 0 (i.toNat % 2 ^ 32) (rtimeInfo s (queDie q)) l.cqe l.irq s
    else s
  | none => s

def execLaunchRetire (queue : Nat) (index : Word) (s : State) : Host.Outcome State Fault Refusal :=
  onDie s (queDie queue) (launchRetire queue index)

/-- KILL (R190): the context's work on die `d` stops. -/
def execKill (d part inst ctx : Nat) (s : State) : Host.Outcome State Fault Refusal :=
  onDie s d (fun s => if dieIn s part d then killReaches d part inst ctx s else s)

/-- IRQ_COALESCE_TIMEOUT (R444): COAL_US after PENDING left 0 the entry sends. -/
def irqCoalesceTimeout (d e : Nat) (s : State) : State :=
  if 0 < s.rd d (Reg.PART_IRQ_MAP_PENDING e) && irqOpen s d e then
    match irqOwner s d e with
    | some (p, i) => sendMsi d p i e s
    | none => s
  else s

def execIrqCoalesceTimeout (d e : Nat) (s : State) : Host.Outcome State Fault Refusal :=
  onDie s d (irqCoalesceTimeout d e)

/-- A DEGRADE record (R537, Table FLT-6). -/
def degrade (d unit part kind index remain : Nat) (s : State) : State :=
  emit d unit 0x033 1 (partSealed s part) [pf 1 part, pf 1 kind, pf 2 index, pa_ 1 remain, pf 3 0] s

/-- CLUSTER_FAILURE (R203, R537): the failure map takes the cluster; its troupes are lost with their launches, and a
partition whose troupes ran on it faults. -/
def clusterFailure (d c : Nat) (s : State) : State :=
  let k := d * 320 + c
  let here (t : Troupe) : Bool := Nat.beq t.die d && Nat.beq t.cluster c
  let ts := s.core.troupes.filter here
  let p := (halfPart s d (clusterSide c)).getD 0
  let seq := nextSeq s d
  let s := degrade d 0x0B p 0 c 0 (s.wrBit d (Reg.REC_FAIL_CLUSTER (c / 64)) (c % 64) true)
  let lose (l : Launch) : Launch :=
    if ts.any (fun t => Nat.beq t.queue l.queue && t.index == l.index) then { l with lost := true } else l
  let s := { s with core := { s.core with
    failed := addNat s.core.failed k,
    troupes := s.core.troupes.filter (fun t => !here t),
    launches := s.core.launches.map lose } }
  let s := invalL1 d c s
  match ts with
  | [] => s
  | t :: _ => partFault t.part 0x07 d 0x033 seq s

def execClusterFailure (d cluster : Nat) (s : State) : Host.Outcome State Fault Refusal :=
  onDie s d (clusterFailure d cluster)

/-- ILLEGAL_INSTRUCTION (R136): a word that is no legal instruction faults; a legal one is issued by its own
command. -/
def execIllegalInstruction (at_ : Issue) (w : Word) (s : State) : Host.Outcome State Fault Refusal :=
  onDie s at_.die (fun s =>
    let s := tickCore at_ s
    match if issueHeld s at_ then none else selectTroupe s at_ with
    | none => s
    | some t =>
      let pc := t.cohortPc.getD 0
      match fetch t pc s with
      | none => s
      | some (some c, s) => troupeFault t c (t.cohort.headD 0) pc pc s
      | some (none, s) =>
        if legal t.rows w.toNat then s else troupeFault t 0x01 (t.cohort.headD 0) 0 pc s)

end Sys2Proof.Machine
end

