-- ==== Sys2Proof/Machine/SliceCmds.lean ====
section
/-! DEFINITION. The commands of the unified cache (chapter 6): requests, back-off, fills, failures, the half link and
the pins. -/

namespace Sys2Proof.Machine

/-! ### Requests -/

/-- A request by router: the slice exists. -/
def onSlice (n : Nat) (f : State → State) (s : State) : State := if n < 24 then f s else s

/-- SLICE_READ_REQUEST (R218). -/
def execSliceReadRequest (d n : Nat) (r : SliceReq) (s : State) : Host.Outcome State Fault Refusal :=
  onDie s d (onSlice n (fun s => afterSlice d n (sliceRequest d n 0 ⟨r, .read⟩ s)))

/-- SLICE_WRITE_REQUEST (R219). -/
def execSliceWriteRequest (d n : Nat) (r : SliceReq) (mask : BitVec 32) (data : SectorData) (s : State) :
    Host.Outcome State Fault Refusal :=
  onDie s d (onSlice n (fun s => afterSlice d n (sliceRequest d n 0 ⟨r, .write mask data⟩ s)))

/-- SLICE_ATOMIC_REQUEST (R220). -/
def execSliceAtomicRequest (d n : Nat) (r : SliceReq) (op : Nat) (wide signed : Bool) (a b : Word) (s : State) :
    Host.Outcome State Fault Refusal :=
  onDie s d (onSlice n (fun s => afterSlice d n (sliceRequest d n 0 ⟨r, .atomic op wide signed a b⟩ s)))

/-- A back-off ends: the request stays listed, with nothing to wait for, until it succeeds. -/
def waitOver (requester : Nat) (what : RetryOf) (s : State) : State :=
  let r := retryOf s requester
  putRetry { r with waiting := updWhere (fun x => x.what == what) (fun x => { x with wait := 0 }) r.waiting } s

/-- The request goes again (R232): with STARVE from its 8th retry on (R233); one of a killed context is dropped
(R243). -/
def retryGo (requester : Nat) (b : BackOff) (s : State) : State :=
  match b.what with
  | .access d n w =>
    let s := endBackOff requester b.what s
    if ctxKilled s w.req.part w.req.inst w.req.ctx then s
    else
      let w := { w with req := { w.req with starve := w.req.starve || decide (8 ≤ b.k) } }
      afterSlice d n (sliceRequest d n b.k w s)
  | .kv _ => waitOver requester b.what s
  | .coh d n la =>
    let s := waitOver requester b.what s
    let mine (x : NetMsg) : Bool := Nat.beq x.msg.src d && Nat.beq x.msg.srcSlice n && Nat.beq x.msg.line la
    match s.slc.sent.find? mine with
    | some x => sendMsg x.typ x.msg s
    | none => s

/-- RETRY_BACKOFF_EXPIRY (R232): the requester's oldest back-off ends (DEDUCED, log 31). -/
def retryBackoffExpiry (requester : Nat) (s : State) : State :=
  match (retryOf s requester).waiting.find? (fun b => Nat.blt 0 b.wait) with
  | some b => retryGo requester b s
  | none => s

def execRetryBackoffExpiry (requester : Nat) (s : State) : Host.Outcome State Fault Refusal :=
  .next (retryBackoffExpiry requester s)

/-- STARVE_HOLD_LAPSE (R233): the held head's entry lapses, and the next entry takes the resource. -/
def starveHoldLapse (d n : Nat) (s : State) : State :=
  match s.slc.starve.find? (fun e => Nat.beq e.die d && Nat.beq e.slice n) with
  | some e => if e.held then holdForHead d n e.waiter { s with slc := { s.slc with starve := s.slc.starve.erase e } } else s
  | none => s

def execStarveHoldLapse (d n : Nat) (s : State) : Host.Outcome State Fault Refusal := onDie s d (starveHoldLapse d n)

/-! ### Fills (R218, R223, R237) -/

/-- SLICE_FILL_RETURN: `bad` are the sectors whose HBM read was uncorrectable (Table UC-5). -/
def sliceFillReturn (d n la : Nat) (bad : BitVec 4) (s : State) : State :=
  match findMshr s d n la with
  | some m => afterSlice d n (fillReturn m bad (sliceFailed s d n) s)
  | none => s

def execSliceFillReturn (d n line : Nat) (bad : BitVec 4) (s : State) : Host.Outcome State Fault Refusal :=
  onDie s d (sliceFillReturn d n line bad)

/-! ### Failures (Table UC-5, R245, R284, R537) -/

/-- A guest line of a failed slice: every sector it holds reads as poison (Table UC-5, R245). -/
def deadCopy (l : Line) : Line :=
  { l with sectors := l.sectors.map (fun x => if x.valid then { x with poison := true } else x) }

/-- The waiters of an MSHR of a failed slice answered: poison to a read or an atomic, and a write is discarded. -/
def deadWaiters (m : Mshr) (s : State) : State :=
  let s := each m.waiters (fun s w =>
    answer m.die m.slice w (if want? w = 1 then 1 else 0) (want? w != 1) 0 s) s
  putMshr { m with waiters := [] } s

/-- A slice or its channel fails: the failure map takes the channel, its guest lines and its outstanding fills are poison,
and its partition faults. Cause: 0 tag or state, 1 channel, 2 fill timeout, 3 directory. -/
def failSlice (d n cause : Nat) (s : State) : State :=
  if sliceFailed s d n then s
  else
    let p := (slicePart s d n).getD 0
    let here (l : Line) : Bool := Nat.beq l.die d && Nat.beq l.slice n && l.st != .home
    let s := { s with slc := { s.slc with
      failed := addNat s.slc.failed (d * 24 + n),
      lines := updWhere here deadCopy s.slc.lines,
      puts := updWhere here deadCopy s.slc.puts } }
    let s := degrade d (0x10 + n) p 1 n 0 (s.wrBit d Reg.REC_FAIL_CHAN n true)
    let s := each (mshrsOf s d n) (fun s m => fillReturn { m with waiters := [] } 15 true (deadWaiters m s)) s
    let s := each (mshrsOf s d n) (fun s m => takeFetched m s) s
    let payload := [pf 1 n, pf 1 cause, pf 1 p, pf 5 0]
    if (slicePart s d n).isSome then faultWith p 0x06 d (0x10 + n) 0x043 3 payload s
    else emit d (0x10 + n) 0x043 3 false payload s

/-- FILL_TIMEOUT (Table UC-5): the fill of a line has not returned. -/
def fillTimeout (d n la : Nat) (s : State) : State :=
  match findMshr s d n la with
  | some m => if m.mask = 0 then s else failSlice d n 2 s
  | none => s

def execFillTimeout (d n line : Nat) (s : State) : Host.Outcome State Fault Refusal :=
  onDie s d (onSlice n (fillTimeout d n line))

/-- CHANNEL_FAILURE (Table UC-5). -/
def execChannelFailure (d n : Nat) (s : State) : Host.Outcome State Fault Refusal :=
  onDie s d (onSlice n (failSlice d n 1))

/-- A sector of the memory copy of a line (R249): the home slice's, or HBM's. -/
def memorySector (s : State) (la sec : Nat) : SectorData × Bool :=
  match (homeChan s (la * 128)).bind (fun h => findLine s (homeDie (la * 128)) h la) with
  | some l => if l.st == .home && (sectorAt l sec).valid then ((sectorAt l sec).data, (sectorAt l sec).poison)
    else hbmRead s (la * 128 + sec * 32)
  | none => hbmRead s (la * 128 + sec * 32)

/-- A sector of a guest line in S invalidated and fetched again from the home (Table COH-5): under the line's MSHR, or a
free one; with none free the next access fetches it. -/
def refetchGuest (l : Line) (sec : Nat) (s : State) : State :=
  let l := setSector l sec noSector
  let s := putLine l s
  let part := (slicePart s l.die l.slice).getD 0
  let go (s : State) : State := cohRequest { l with st := .ssD, cnt := 0 } part 3 (putLine { l with st := .ssD, cnt := 0 } s)
  match findMshr s l.die l.slice l.la with
  | some _ => s
  | none =>
    if canMshr s l.die l.slice 3 0 then
      go (slicePeaks l.die l.slice
        (putMshr ⟨l.die, l.slice, l.la, BitVec.ofNat 4 (2 ^ sec), 3, false, [], 0, [], [], none⟩ s))
    else s

/-- An uncorrectable data error (Table UC-5): a clean sector is invalidated and fetched again, from HBM or for a guest
line from its home, where a clean sector of the owner equals the memory copy (R261); a dirty one is poisoned. -/
def dataError (d n la sec : Nat) (s : State) : State :=
  let s := s.count d (Reg.UC_ECC_UE n) 1
  match findLine s d n la with
  | none => s
  | some l =>
    let x := sectorAt l sec
    if !x.valid then s
    else if x.dirty then
      poisonRecord d n la 0 (2 ^ sec) (putLine (setSector l sec { x with poison := true }) s)
    else if l.st = .s then correctable d (0x10 + n) 0 n (refetchGuest l sec s)
    else
      let (v, q) := if l.st = .home then hbmRead s (la * 128 + sec * 32) else memorySector s la sec
      let s := if l.st = .home then s.count d (Reg.UC_MISS n) 1 else s
      correctable d (0x10 + n) 0 n (putLine (setSector l sec ⟨true, false, q, 0, v⟩) s)

/-- A homed line of a slice whose directory has failed is lost (R284): recorded and counted, poisoned, and its remote
copies recalled. `k` lost lines of the slice have been recorded. -/
def loseEntry (d n : Nat) (k : Nat) (la : Nat) (s : State) : State :=
  let s := lostLine d n la d 0 true k (poisonLine la s)
  match findDir s d n la with
  | some e => if e.transient then s else startHomeWrite e 0 (linePart s la) 3 s
  | none => s

/-- The lines that slice `n` homes and knows of: those with an entry or in the slice (DESIGN CHOICE, log 114). -/
def homedLines (s : State) (d n : Nat) : List Nat :=
  ((s.slc.dir.filter (fun e => Nat.beq e.die d && Nat.beq e.slice n)).map (·.la)
    ++ (s.slc.lines.filter (fun l => Nat.beq l.die d && Nat.beq l.slice n && l.st == .home)).map (·.la)).foldl addNat []

/-- Every line that the slice homes is treated as lost (R284). -/
def loseHomed (d n : Nat) (s : State) : State :=
  let ls := homedLines s d n
  let s := each ls.zipIdx (fun s x => loseEntry d n x.2 x.1 s) s
  lostSummary d n d ((slicePart s d n).getD 0) ls.length s

/-- An uncorrectable directory entry (R284): the slice fails, and its lines are lost. -/
def dirError (d n : Nat) (s : State) : State := if sliceFailed s d n then s else loseHomed d n (failSlice d n 3 s)

/-- SLICE_SRAM_ERROR (R244, R252, R284): kind 0 correctable, 1 uncorrectable data, 2 uncorrectable tag or state entry,
3 uncorrectable directory entry, 4 corrected directory entry. -/
def sliceSramError (d n kind la sec : Nat) (s : State) : State :=
  match kind with
  | 0 => correctable d (0x10 + n) 0 n (s.count d (Reg.UC_ECC_CE n) 1)
  | 1 => dataError d n la sec s
  | 2 => failSlice d n 0 s
  | 3 => dirError d n s
  | 4 => correctable d (0x10 + n) 5 n s
  | _ => s

def execSliceSramError (d n kind line sector : Nat) (s : State) : Host.Outcome State Fault Refusal :=
  onDie s d (onSlice n (sliceSramError d n kind line sector))

/-! ### The half link (R216, R217) -/

/-- HALF_LINK_CROSSING: a packet that passes is counted on its lane; a refused one is counted and recorded, a refused
write is discarded, and a refused read or atomic faults its context. No packet takes a lane while the seam is open (R329). -/
def halfLinkCrossing (d : Nat) (p : HalfPkt) (s : State) : State :=
  let lane := laneOf s d (p.src / 20)
  if s.rd d Reg.MESH_MODE_HLINK_ON = 0 then s
  else if halfPasses s d p then s.count d (Reg.MESH_HLINK_FLITS lane) (pktFlits p.kind)
  else
    let s := halfRefuse d lane p.vc.code ((halfPart s d (clusterSide p.src)).getD 0) ((halfPart s d (clusterSide p.dst)).getD 0)
      p.line s
    if p.write then s else accessFault d p.part p.inst p.ctx (p.line * 128) s

def execHalfLinkCrossing (d : Nat) (p : HalfPkt) (s : State) : Host.Outcome State Fault Refusal :=
  onDie s d (halfLinkCrossing d p)

/-! ### URGENT-PIN (R225–R228, R241) -/

/-- The lines of the pin range that are homed on die `d` in halves of partition `p`, with their slices; a failed slice
fetches none (R245). -/
def pinLines (s : State) (d p lines : Nat) : List (Nat × Nat) :=
  let la0 := s.rd d Reg.UC_PIN_ADDR
  (List.range lines).filterMap (fun i =>
    let la := la0 + i
    if isHome d la && backed s (la * 128) && homePart s (la * 128) == some p then
      ((homeChan s (la * 128)).filter (fun n => !sliceFailed s d n)).map (fun n => (n, la))
    else none)

/-- Lines pinned at a slice (UC_PINNED). -/
def pinnedAt (s : State) (d n : Nat) : List Line :=
  s.slc.lines.filter (fun l => Nat.beq l.die d && Nat.beq l.slice n && l.pin)

/-- Pinned lines of the set of `la`. -/
def pinnedInSet (s : State) (d n la : Nat) : Nat :=
  ((pinnedAt s d n).filter (fun l => Nat.beq (lineSet l.la) (lineSet la))).length

/-- Pin one line (R226): all four sectors are fetched, once a coherence action on the line is over (R241). None where R222
or the slice's reserve forbids it. Where no way qualifies, the line waits for one (R223). -/
def pinOne (d p : Nat) (x : Nat × Nat) (s : State) : Option State :=
  let (n, la) := x
  let already := match findLine s d n la with
    | some l => l.pin
    | none => false
  if already then some s
  else if 2 ≤ pinnedInSet s d n la || upinLines s p ≤ (pinnedAt s d n).length then none
  else
    let s := match findLine s d n la with
      | some l => putLine { l with pin := true, keep := false } s
      | none =>
        let s := (allocWay 3 d n la false false .home s).getD (putLine (wayless d n la .home) s)
        match findLine s d n la with
        | some l => putLine { l with pin := true } s
        | none => s
    match settleHomeRead d n la s with
    | some s => some (fetchFrom d n la 15 4 s)
    | none => some s

/-- Pin every line or none. -/
def pinAll (d p : Nat) : List (Nat × Nat) → State → Option State
  | [], s => some s
  | x :: t, s => (pinOne d p x s).bind (pinAll d p t)

/-- Unpin one line: it is ordinary, at MRU (R226). -/
def unpinOne (d : Nat) (x : Nat × Nat) (s : State) : State :=
  match findLine s d x.1 x.2 with
  | some l => if l.pin then touchLine l (putLine { l with pin := false, keep := false } s) else s
  | none => s

/-- Whether the line is pinned. -/
def isPinned (s : State) (d : Nat) (x : Nat × Nat) : Bool :=
  match findLine s d x.1 x.2 with
  | some l => l.pin
  | none => false

/-- RESULT and DONE of UC_PIN_STATUS. -/
def pinResult (d result done : Nat) (s : State) : State :=
  (s.wr d Reg.UC_PIN_STATUS_RESULT result).wr d Reg.UC_PIN_STATUS_DONE done

/-- Whether a partition is between the start of quiesce and release (R241). -/
def loading (s : State) (p : Nat) : Bool :=
  match s.img.load with
  | some l =>
    (match l.phase with
     | .quiescing | .quiesced | .committing => true
     | _ => false) && (!l.img.partial_ || Nat.beq l.img.target p)
  | none => false

/-- What stops a pin command before it acts (Table UC-7, DEDUCED, log 32). -/
def pinRefusal (s : State) (d lines p : Nat) (src : Source) : Option Nat :=
  if lines = 0 || 1024 < lines then some 4
  else if !dieIn s p d then some 2
  else if !wardenOk s p src then some 3
  else if upinLines s p = 0 then some 5
  else if loading s p then some 6
  else none

/-- The fields that a write of UC_PIN_CMD leaves. -/
def pinCmd (d op lines p : Nat) (s : State) : State :=
  ((s.wr d Reg.UC_PIN_CMD_OP op).wr d Reg.UC_PIN_CMD_LINES lines).wr d Reg.UC_PIN_CMD_PART p

/-- UC_PIN (R226). -/
def ucPin (d : Nat) (src : Source) (lines p : Nat) (s : State) : State :=
  let s := pinCmd d 1 lines p s
  match pinRefusal s d lines p src with
  | some r => pinResult d r 0 s
  | none =>
    let ls := pinLines s d p lines
    match pinAll d p ls s with
    | some s => pinResult d 0 ls.length s
    | none => pinResult d 1 0 s

/-- UC_UNPIN (R226). -/
def ucUnpin (d : Nat) (src : Source) (lines p : Nat) (s : State) : State :=
  let s := pinCmd d 2 lines p s
  match pinRefusal s d lines p src with
  | some r => pinResult d r 0 s
  | none =>
    let ls := (pinLines s d p lines).filter (isPinned s d)
    pinResult d 0 ls.length (each ls (fun s x => unpinOne d x s) s)

def execUcPin (d : Nat) (src : Source) (lines part : Nat) (s : State) : Host.Outcome State Fault Refusal :=
  onDie s d (ucPin d src lines part)
def execUcUnpin (d : Nat) (src : Source) (lines part : Nat) (s : State) : Host.Outcome State Fault Refusal :=
  onDie s d (ucUnpin d src lines part)

end Sys2Proof.Machine
end

