-- ==== Sys2Proof/Machine/Resets.lean ====
section
/-! DEFINITION. The resets as shared operations (R453, Table PART-4): an instance's and a partition's effects, the cache
actions of R60, the reset of a die, and the loss of its power. The commands that start them stand elsewhere. -/

namespace Sys2Proof.Machine

/-! ### Queues and sequences (R358, R366, R60) -/

/-- Every queue of the rack that the live image gives instance `i` of partition `p`. -/
def queuesOf (s : State) (p i : Nat) : List Nat :=
  (List.range (64 * dieCount s.orderCode)).filter (fun q => queNamed s q && Nat.beq (quePart s q) p && Nat.beq (queInst s q) i)

/-- The registers of queue `q` but its configuration back to their reset values (R366, Table REG-5). -/
def clearQueRegs (q : Nat) (s : State) : State :=
  let d := queDie q
  let n := queLocal q
  let s := ((s.wr d (Reg.QUE_BASE n) 0).wr d (Reg.QUE_CTRL_ENABLE n) 0).wr d (Reg.QUE_CTRL_SERIAL n) 0
  let s := ((s.wr d (Reg.QUE_CTRL_LOG2 n) 4).wr d (Reg.QUE_CTRL_VECTOR n) 0).wr d (Reg.QUE_PI n) 0
  let s := ((s.wr d (Reg.QUE_CI n) 0).wr d (Reg.QUE_STATE_STATE n) 0).wr d (Reg.QUE_STATE_DEPTH_WAIT n) 0
  (s.wr d (Reg.QUE_STATE_CQ_WAIT n) 0).wr d (Reg.QUE_STATE_ERROR n) 0

/-- What the arbiter of die `d` keeps of a queue forgotten. -/
def forgetQueue (q : Nat) (a : Arb) : Arb :=
  if a.die = queDie q then
    { a with refused := a.refused.filter (fun x => !(Nat.beq x.1 (queLocal q))),
             held := if a.held = some (queLocal q) then none else a.held,
             queDef := SMap.set 0 a.queDef (queLocal q) 0 }
  else a

/-- Queue `q` reset to empty: disabled, PI = CI = 0, its reservations released, its latched doorbell discarded, and a launch that
an exchange attached at its head detached. -/
def resetQueue (q : Nat) (s : State) : State :=
  let gone := s.que.exchanged.filter (fun x => Nat.beq x.queue q)
  let s := each gone (fun s x => detachIds x.attached x.step false s) (clearQueRegs q s)
  { s with que := { s.que with
      resv := SMap.set 0 s.que.resv q 0,
      itemsOut := SMap.set 0 s.que.itemsOut q 0,
      sectors := SMap.set 0 (SMap.set 0 s.que.sectors (2 * q) 0) (2 * q + 1) 0,
      deferredPi := s.que.deferredPi.filter (fun x => !(Nat.beq x.1 q)),
      items := s.que.items.filter (fun x => !(Nat.beq x.2.queue q)),
      closing := s.que.closing.filter (fun x => !(Nat.beq x.queue q)),
      exchanges := s.que.exchanges.filter (fun x => !(Nat.beq x.queue q)),
      exchanged := s.que.exchanged.filter (fun x => !(Nat.beq x.queue q)),
      arbs := s.que.arbs.map (forgetQueue q) } }

/-- A member whose chain's head is gone is in no chain; a head whose members are gone is none. -/
def unchain (left : List SeqSlot) (x : SeqSlot) : SeqSlot :=
  match x.chain with
  | none => x
  | some h =>
    let others := left.any (fun y => !(Nat.beq y.id x.id) && y.chain == some h)
    if (if Nat.beq h x.id then others else left.any (fun y => Nat.beq y.id h)) then x else { x with chain := none }

/-- The sequences that satisfy the test freed, out of their chains, their held reads dropped (R358). -/
def freeSeqs (f : SeqSlot → Bool) (s : State) : State :=
  let gone (id : Nat) : Bool := s.que.seqs.any (fun x => Nat.beq x.id id && f x)
  let left := s.que.seqs.filter (fun x => !f x)
  { s with que := { s.que with
      seqs := left.map (unchain left),
      heldKv := s.que.heldKv.filter (fun h => !gone h.seq),
      closing := s.que.closing.filter (fun x => !gone x.seq),
      seqCopies := s.que.seqCopies.filter (fun x => !gone x.seq),
      btCopies := s.que.btCopies.filter (fun x => !gone x.seq) } }

/-! ### Instance reset -/

/-- Work of the launches and movers that satisfy the tests is gone on every die, with no completion entry and no record
(R205, R366, R390). -/
def dropWork (pt : Troupe → Bool) (pl : Launch → Bool) (pm : Mover → Bool) (s : State) : State :=
  let s := dropMovers pm (dropTroupes (fun _ => true) pt pl s)
  { s with core := { s.core with launches := s.core.launches.filter (fun l => !pl l) } }

/-- The kills under way that satisfy the test are over, with no record (R205). -/
def dropKills (f : OpenKill → Bool) (s : State) : State :=
  { s with core := { s.core with kills := s.core.kills.filter (fun k => !f k) } }

/-- What an instance reset does at once (Table PART-4): no drain. -/
def instResetEffects (p i : Nat) (s : State) : State :=
  let s := clearPending p i (setInstState p i 3 s)
  let s := dropWork (fun t => Nat.beq t.part p && Nat.beq t.inst i) (fun l => Nat.beq l.part p && Nat.beq l.inst i)
    (fun m => Nat.beq m.part p && Nat.beq m.inst i) (dropKills (fun k => Nat.beq k.part p && Nat.beq k.inst i) s)
  let s := each (queuesOf s p i) (fun s q => resetQueue q s) s
  dropInstCopies p i (freeSeqs (fun x => Nat.beq x.part p && Nat.beq x.inst i) s)

/-- An instance reset started by die `d`: the reductions with a contribution of the instance break (R323). -/
def startInstReset (d p i origin : Nat) (waiters : List Nat) (s : State) : State :=
  let s := redBreakWhere (fun a => Nat.beq a.pkt.key.part p && a.insts.contains i) 4 (instResetEffects p i s)
  let run : ResetRun := ⟨d, p, some i, origin, s.rtime d, waiters⟩
  { s with prt := { s.prt with resets := s.prt.resets ++ [run] } }

/-- Whether a reset that covers an instance reset runs (R457). -/
def coveredReset (s : State) (p : Nat) (i : Option Nat) : Bool :=
  s.prt.resets.any (fun r => Nat.beq r.part p && (r.inst == none || r.inst == i))

/-- A die whose PART_CMD waits for the resets that cover `i` (R457). -/
def joinReset (p : Nat) (i : Option Nat) (waiters : List Nat) (s : State) : State :=
  let covers (r : ResetRun) : Bool := Nat.beq r.part p && (r.inst == none || r.inst == i)
  let resets := updWhere covers (fun r => { r with waiters := waiters.foldl addNat r.waiters }) s.prt.resets
  { s with prt := { s.prt with resets := resets } }

/-- An instance reset (R457): absorbed or merged where one that covers it runs. `waiters` are the dies whose PART_CMD
asked for it. -/
def instReset (d p i origin : Nat) (waiters : List Nat) (s : State) : State :=
  if (instEntry s p i).isNone then s
  else if coveredReset s p (some i) then joinReset p (some i) waiters s
  else startInstReset d p i origin waiters s

/-- The capacity of a bucket as a level: 1 ms of its rate, and at least one unit of its charge (R53, R439); kinds
0 doorbell, 1 class U, 2 memory, 3 Toash, 4 energy. In units of 1, 1, byte, byte, EU. -/
def bucketCap (s : State) (p i kind : Nat) : Nat :=
  match kind with
  | 0 => max (qosField s p i 0x04 4 * bucketOne / 1000) bucketOne
  | 1 => max (qosField s p i 0x08 4 * bucketOne / 1000) bucketOne
  | 2 => max (qosField s p i 0x0C 2 * 1000000) 32 * bucketOne
  | 3 => max (qosField s p i 0x0E 2 * 1000000) 32 * bucketOne
  | _ => max (qosField s p i 0x10 4) 1 * bucketOne

/-- The buckets of an instance at capacity on every die of its partition (R439, R461). -/
def fillBuckets (p i : Nat) (s : State) : State :=
  each (partDies s p) (fun s d =>
    each [0, 1, 2, 3, 4] (fun s k =>
      let v : Int := bucketCap s p i k
      { s with que := { s.que with buckets := SMap.set 0 s.que.buckets (bucketKey d (instSlot s d p i) k) v } }) s) s

/-- The instance reset ends: DOWN, with full buckets (R454). -/
def endInstReset (p i : Nat) (s : State) : State := fillBuckets p i (setInstState p i 1 s)

/-! ### The cache actions of R60 -/

/-- Whether a line stands in a slice of partition `p`. -/
def lineOfPart (s : State) (p : Nat) (l : Line) : Bool := slicePart s l.die l.slice == some p

/-- A dirty guest line written to the memory copy (R60). -/
def flushGuest (l : Line) (s : State) : State :=
  let hd := homeDie (l.la * 128)
  match homeChan s (l.la * 128) with
  | some hn => if sliceFailed s hd hn then s else homeWrite hd hn l.la (dirtyMask l) (poisonMask l) 0 (lineData l) s
  | none => s

/-- Every dirty line of the partition written back where the placement in force puts it: guest lines first. A put whose
line has a newer owner (II_A) holds nothing to write. -/
def flushDirty (p : Nat) (s : State) : State :=
  let guests := (s.slc.lines ++ s.slc.puts).filter (fun l => lineOfPart s p l && l.st != .home && l.st != .iiA)
  let s := each guests (fun s l => flushGuest l s) s
  each (s.slc.lines.filter (fun l => lineOfPart s p l && l.st == .home)) (fun s l => writeBack l s) s

/-- Every line of the partition invalidated, and every directory entry of its lines recalled. What was in flight for
them is over. -/
def dropLines (p : Nat) (s : State) : State :=
  let of (d n : Nat) : Bool := slicePart s d n == some p
  { s with slc := { s.slc with
      lines := s.slc.lines.filter (fun l => !of l.die l.slice),
      puts := s.slc.puts.filter (fun l => !of l.die l.slice),
      mshrs := s.slc.mshrs.filter (fun m => !of m.die m.slice),
      starve := s.slc.starve.filter (fun e => !of e.die e.slice),
      dir := s.slc.dir.filter (fun e => !of e.die e.slice),
      holdq := s.slc.holdq.filter (fun x => !of x.1 x.2.1),
      holdbuf := s.slc.holdbuf.filter (fun x => !of x.1 x.2.1),
      net := s.slc.net.filter (fun x => !(Nat.beq x.msg.part p)),
      sent := s.slc.sent.filter (fun x => !of x.msg.src x.msg.srcSlice) } }

/-- The cache actions of R60 for a partition. -/
def cacheActions (p : Nat) (s : State) : State := dropLines p (flushDirty p s)

/-- Every line of the partition unpinned (R228). -/
def unpinPart (p : Nat) (s : State) : State :=
  { s with slc := { s.slc with lines := updWhere (lineOfPart s p) (fun l => { l with pin := false }) s.slc.lines } }

/-! ### Partition reset (R434, R453, R455, R459) -/

/-- Instances of the partition: those of the live image. -/
def instIds (s : State) (p : Nat) : List Nat := (instances s p).map (·.id)

/-- The cluster memories of the clusters of half `h` zeroed (R453); their register files went with their troupes. -/
def zeroClusters (h : Nat) (s : State) : State :=
  let mine (d c : Nat) : Bool := Nat.beq d (h / 2) && Nat.beq (clusterSide c) (h % 2)
  { s with core := { s.core with
      l1 := s.core.l1.filter (fun x => !mine x.die x.cluster),
      icache := s.core.icache.filter (fun x => !mine x.1 x.2.1) } }

/-- What a partition reset does (Table PART-4), up to its end. -/
def partResetEffects (p : Nat) (s : State) : State :=
  let s := setPartState p 4 s
  let s := { s with net := { s.net with accum := s.net.accum.filter (fun a => !(Nat.beq a.pkt.key.part p)),
                                        combine := s.net.combine.filter (fun c => !(Nat.beq c.pkt.key.part p)) } }
  let s := each (instIds s p) (fun s i => instResetEffects p i s) s
  let s := dropWork (fun t => Nat.beq t.part p) (fun l => Nat.beq l.part p) (fun m => Nat.beq m.part p)
    (dropKills (fun k => Nat.beq k.part p) s)
  let s := if partSealed s p then each (partHalves s p) (fun s h => zeroClusters h s) s else s
  cacheActions p s

/-- The partition is LIVE, its instances are DOWN (R455). -/
def endPartReset (p : Nat) (s : State) : State :=
  let s := each (instIds s p) (fun s i => endInstReset p i s) (setPartState p 1 s)
  { s with prt := { s.prt with faulted := delNat s.prt.faulted p } }

/-! ### Die reset (R41, R121, R452, Table REG-5) -/

/-- The registers that a die reset keeps: GOV_TRIP_RESTART, WARD_LOSS, the failure map. DC_INCARNATION and
DC_RESET_CAUSE are set. -/
def keptRegs : List Fld :=
  [Reg.GOV_TRIP_RESTART, Reg.WARD_LOSS, Reg.REC_FAIL_CLUSTER 0, Reg.REC_FAIL_CLUSTER 1, Reg.REC_FAIL_CLUSTER 2,
   Reg.REC_FAIL_CLUSTER 3, Reg.REC_FAIL_CLUSTER 4, Reg.REC_FAIL_CHAN, Reg.REC_FAIL_HALF]

/-- WARD_SEALED [15:0] (Table PART-8). -/
def wardSealed (s : State) (d : Nat) : Nat :=
  s.rd d Reg.WARD_SEALED_PART_W + s.rd d Reg.WARD_SEALED_SEAL_W * 0x80 + s.rd d Reg.WARD_SEALED_PART_E * 0x100
    + s.rd d Reg.WARD_SEALED_SEAL_E * 0x8000

/-- Every register of the die at its reset value, save the kept ones. -/
def resetDieRegs (d : Nat) (s : State) : State :=
  let kept := keptRegs.map (fun f => (f, s.rd d f))
  each kept (fun s x => s.wr d x.1 x.2) (s.resetRegs d 0 0x1000000)

/-- A die that is reset has stopped every context (R205): its own kills are over, and those of other dies no longer wait
for it. -/
def dieLeavesKills (d : Nat) (s : State) : State :=
  let s := dropKills (fun k => Nat.beq k.why.die d) s
  let out (k : OpenKill) : OpenKill :=
    { k with waiting := delNat k.waiting d, ending := k.ending.filter (fun l => !(Nat.beq (queDie l.queue) d)) }
  closeKills killDone { s with core := { s.core with kills := s.core.kills.map out } }

/-- The slices, directories and clusters of the die emptied (R246, R285, R452). -/
def scrubDie (d : Nat) (s : State) : State :=
  let s := { s with slc := { s.slc with
      lines := s.slc.lines.filter (fun l => !(Nat.beq l.die d)),
      puts := s.slc.puts.filter (fun l => !(Nat.beq l.die d)),
      mshrs := s.slc.mshrs.filter (fun m => !(Nat.beq m.die d)),
      starve := s.slc.starve.filter (fun e => !(Nat.beq e.die d)),
      failed := s.slc.failed.filter (fun k => !(Nat.beq (k / 24) d)),
      dir := s.slc.dir.filter (fun e => !(Nat.beq e.die d)),
      holdq := s.slc.holdq.filter (fun x => !(Nat.beq x.1 d)),
      holdbuf := s.slc.holdbuf.filter (fun x => !(Nat.beq x.1 d)),
      retry := s.slc.retry.filter (fun r => !(if r.requester < 20480 then Nat.beq (r.requester / 320) d
        else Nat.beq ((r.requester - 20480) / 24) d)),
      net := s.slc.net.filter (fun x => !(Nat.beq x.msg.dst d)),
      sent := s.slc.sent.filter (fun x => !(Nat.beq x.msg.src d)),
      queried := unbind d s.slc.queried } }
  let s := dieLeavesKills d (dropMovers (fun m => Nat.beq m.die d) (dropTroupes (Nat.beq d) (fun _ => true) (fun _ => true) s))
  let s := { s with core := { s.core with launches := s.core.launches.filter (fun l => !(Nat.beq (queDie l.queue) d)) } }
  { s with core := { s.core with
      stores := s.core.stores.filter (fun x => !(Nat.beq x.die d)),
      l1 := s.core.l1.filter (fun x => !(Nat.beq x.die d)),
      icache := s.core.icache.filter (fun x => !(Nat.beq x.1 d)),
      cclk := SMap.clearRange s.core.cclk (d * 5120) ((d + 1) * 5120) } }

/-- Whether a RED place belongs to the die. -/
def placeOn (d : Nat) : RedPlace → Bool
  | .router x _ => Nat.beq x d
  | .spine _ _ => false

/-- The queue block, the movers, the links and the caches of the die emptied (R329, R365, R397, R432, R466, R496). -/
def emptyDie (d : Nat) (s : State) : State :=
  let onDie (q : Nat) : Bool := Nat.beq (queDie q) d
  let s := freeSeqs (fun x => Nat.beq (x.id / 256) d) s
  { s with
    net := { s.net with
      ports := s.net.ports.filter (fun p => !(Nat.beq p.die d)),
      lanesDown := s.net.lanesDown.filter (fun k => !(Nat.beq (k / 4) d)),
      combine := s.net.combine.filter (fun c => !placeOn d c.place),
      accum := s.net.accum.filter (fun a => !(Nat.beq a.die d)),
      redNet := s.net.redNet.filter (fun f => !(Nat.beq f.pkt.dst d || (f.todo.head?.map (placeOn d)).getD false)),
      redStall := s.net.redStall.filter (fun k => !(Nat.beq (k / 24) d)) },
    que := { s.que with
      resv := SMap.clearRange s.que.resv (d * 64) (d * 64 + 64),
      itemsOut := SMap.clearRange s.que.itemsOut (d * 64) (d * 64 + 64),
      sectors := SMap.clearRange s.que.sectors (d * 128) (d * 128 + 128),
      deferredPi := s.que.deferredPi.filter (fun x => !onDie x.1),
      heldKv := s.que.heldKv.filter (fun h => !(Nat.beq h.slot.die d)),
      items := s.que.items.filter (fun x => !onDie x.2.queue),
      closing := s.que.closing.filter (fun x => !onDie x.queue),
      exchanges := s.que.exchanges.filter (fun x => !onDie x.queue),
      exchanged := s.que.exchanged.filter (fun x => !onDie x.queue),
      seqFailed := delNat s.que.seqFailed d,
      badProg := s.que.badProg.filter (fun k => !(Nat.beq (k / 8192) d)),
      seqCopies := s.que.seqCopies.filter (fun x => !(Nat.beq x.die d)),
      btCopies := s.que.btCopies.filter (fun x => !(Nat.beq x.die d)),
      arbs := s.que.arbs.filter (fun a => !(Nat.beq a.die d)),
      monitors := s.que.monitors.filter (fun m => !(Nat.beq m.die d)),
      clkTo := unbind d s.que.clkTo,
      buckets := SMap.clearRange s.que.buckets (d * 512) (d * 512 + 512) },
    prt := { s.prt with
      gated := s.prt.gated.filter (fun g => !(Nat.beq g.die d)),
      deferred := s.prt.deferred.filter (fun g => !(Nat.beq g.die d)),
      irqHeld := s.prt.irqHeld.filter (fun k => !(Nat.beq (k / 4096) d)) },
    xlt := {
      tlb := s.xlt.tlb.filter (fun e => !(Nat.beq e.die d)),
      ctxs := s.xlt.ctxs.filter (fun e => !(Nat.beq e.die d)),
      routes := s.xlt.routes.filter (fun e => !(Nat.beq e.die d)),
      pts := s.xlt.pts.filter (fun e => !(Nat.beq e.die d)),
      queue := s.xlt.queue.filter (fun e => !(Nat.beq e.die d)) } }

/-- An ATS invalidation whose accesses have all drained is complete (R514, R523): it is counted (log 126). -/
def settleAts (s : State) : State :=
  let waits (x : Nat × Nat) : Bool := s.host.outbound.any (fun o => !o.done && o.before.contains x.1)
  let s' := { s with host := { s.host with atsInv := s.host.atsInv.filter waits } }
  each (s.host.atsInv.filter (fun x => !waits x)) (fun s x => s.count (portDie x.2) Reg.HOST_ATS_INV 1) s'

/-- The host port of the die goes down: NumVFs and the configuration registers are at their reset values (R527, R528). A write of
another die's mover that the partner has not accepted is lost (Table HOST-5), status 3. -/
def portReset (d : Nat) (s : State) : State :=
  let s := { s with host := { s.host with outbound := s.host.outbound.filter (fun o => !(Nat.beq o.die d)) } }
  match diePort d with
  | none => settleAts s
  | some p =>
    let lost (o : Outbound) : Bool := Nat.beq o.port p && o.write && !o.done
    settleAts { s with host := { s.host with
        outbound := updWhere lost (fun o => { o with done := true, status := 3 }) s.host.outbound,
        numVfs := SMap.set 0 s.host.numVfs p 0,
        cfg := s.host.cfg.filter (fun x => !(Nat.beq x.1 p)),
        msixTab := s.host.msixTab.filter (fun x => !(Nat.beq x.1 p)),
        abiHeld := delNat s.host.abiHeld p,
        bursts := s.host.bursts.filter (fun x => !(Nat.beq x.port p)),
        failedPorts := delNat s.host.failedPorts p } }

/-- Whether the RM has written COMMIT (R61). -/
def committing (l : Load) : Bool := l.phase == .committing || l.phase == .released

/-- Whether a load concerns die `d`: a full one every die, a partial one the dies that its target has or gets (R73). -/
def loadOnDie (s : State) (l : Load) (d : Nat) : Bool :=
  let halves := match l.img.sections.find? (fun x => Nat.beq x.typ 1) with
    | some x => leAt x.body 4 16
    | none => 0
  !l.img.partial_ || imgDie s l.img.target d || halves.testBit (2 * d) || halves.testBit (2 * d + 1)

/-- A die of the load is reset (R73, R116): it is no longer part of that load. One that the load concerns and that has not
seen COMMIT leaves the RM without its report, so no further phase starts. -/
def loadResetsDie (s : State) (d : Nat) (l : Load) : Load :=
  if !l.agents.contains d then l
  else if committing l || !loadOnDie s l d then { l with agents := delNat l.agents d, armed := delNat l.armed d }
  else { l with gone := addNat l.gone d }

/-- What start-up keeps for the die forgotten; it is in reset. -/
def bootReset (d : Nat) (s : State) : State :=
  { s with
    boot := { s.boot with
      pllTry := SMap.set 0 s.boot.pllTry d 0,
      inReset := addNat s.boot.inReset d,
      resetAt := SMap.set 0 s.boot.resetAt d s.recs.rmRtime,
      dieHold := unbind d s.boot.dieHold,
      beaconed := delNat s.boot.beaconed d,
      beaconedL := s.boot.beaconedL.filter (fun k => !(Nat.beq (k / 2) d)),
      beaconSeq := SMap.set 0 s.boot.beaconSeq d 0,
      roll := s.boot.roll.filter (fun r => !(Nat.beq r.observer d)),
      exch := s.boot.exch.filter (fun x => !(Nat.beq x.die d)),
      follows := unbind d s.boot.follows,
      stepped := delNat s.boot.stepped d,
      corr := SMap.set 0 s.boot.corr d 0,
      notices := s.boot.notices.filter (fun x => !(Nat.beq x.1 d)) },
    img := { s.img with
      unlocked := addNat s.img.unlocked d,
      restage := delNat s.img.restage d,
      load := s.img.load.map (loadResetsDie s d),
      shadow := delNat s.img.shadow d } }

/-- What a die reset keeps of the ring beside its bytes: its RING_MIB, and how much of it the RM has still to copy. -/
def markRing (d : Nat) (s : State) : State :=
  let m : RingMark := ⟨d, s.rd d Reg.REC_RING_SIZE, s.rd d Reg.REC_WR - SMap.get 0 s.recs.copied d⟩
  if s.rd d Reg.REC_STAGE_RING_UP = 1 then
    { s with recs := { s.recs with marks := putWhere (fun x => Nat.beq x.die d) m s.recs.marks } }
  else s

/-- Staging at a die reset (Table FLT-8): drained into the ring, or lost with its die's clocks. -/
def stagingAtReset (d : Nat) (lost : Bool) (s : State) : State :=
  if lost then
    let s := loseStaging d s
    { s with recs := { s.recs with stageLost := addNat s.recs.stageLost d } }
  else
    let s := loseStaging d (drainAll d s)
    { s with recs := { s.recs with stageLost := delNat s.recs.stageLost d } }

/-- The die reset of a running die (R121): cause as DC_RESET_CAUSE codes it. INCARNATION increments modulo 2^16, and the
module flash mirrors it. HBM goes into self-refresh. -/
def dieReset (d cause : Nat) (s : State) : State :=
  let inc := (s.rd d Reg.DC_INCARNATION + 1) % 65536
  let loss := wardSealed s d
  let s := markRing d (stagingAtReset d (cause == 4) s)
  let s := resetDieRegs d (portReset d (bootReset d (emptyDie d (scrubDie d s))))
  let s := ((s.wr d Reg.DC_INCARNATION inc).wr d Reg.DC_RESET_CAUSE cause).wr d Reg.WARD_LOSS loss
  { s with
    boot := { s.boot with selfRefresh := addNat s.boot.selfRefresh d },
    rack := { s.rack with flashIncarn := SMap.set 0 s.rack.flashIncarn d inc } }

/-- Power is removed from a die (R452, R579, Table FLT-8): every register at its reset value, HBM, ring and failure map
lost. -/
def dieUnpower (d : Nat) (s : State) : State :=
  let s := loseStaging d s
  let s := portReset d (bootReset d (emptyDie d (scrubDie d s)))
  let s := s.resetRegs d 0 0x1000000
  let mine (c : Host.Cell) : Bool := Nat.beq (keyDie c.1) d
  { s with
    slc := { s.slc with
      hbm := s.slc.hbm.filter (fun c => !mine c),
      poison := s.slc.poison.filter (fun k => !(Nat.beq (keyDie (k * 32)) d)) },
    boot := { s.boot with
      selfRefresh := delNat s.boot.selfRefresh d,
      pllDead := delNat s.boot.pllDead d,
      tripWait := delNat s.boot.tripWait d },
    img := { s.img with kept := unbind d s.img.kept, restage := delNat s.img.restage d },
    core := { s.core with failed := s.core.failed.filter (fun k => !(Nat.beq (k / 320) d)) },
    net := { s.net with routersFailed := s.net.routersFailed.filter (fun k => !(Nat.beq (k / 320) d)) },
    rack := { s.rack with powered := delNat s.rack.powered d },
    host := { s.host with pt := s.host.pt.filter (fun x => !(Nat.beq (x.1 / 256) d)) },
    recs := { s.recs with
      ring := SMap.clearRange s.recs.ring (d * 0x10000000000) ((d + 1) * 0x10000000000),
      marks := s.recs.marks.filter (fun m => !(Nat.beq m.die d)),
      stageLost := addNat s.recs.stageLost d,
      copied := SMap.set 0 s.recs.copied d 0 } }

/-- A rack-wide or module-wide RESET record of die `d` (Table FLT-6). -/
def resetRecord (d level part inst origin us : Nat) (s : State) : State :=
  emit d 0 0x034 0 (partSealed s part) [pf 1 level, pf 1 part, pf 1 inst, pf 1 origin, pa_ 4 us] s

end Sys2Proof.Machine
end

