-- ==== Sys2Proof/Machine/Links.lean ====
section
/-! DEFINITION. Toash links and the spine (chapter 8): frames, replay, retraining, ports that come up and go down, lost
planes (R535), failed routers and half-link lanes (Table MESH-7). Ports 0–2 are Toash-S, 3 and 4 are L0 and L1. -/

namespace Sys2Proof.Machine

/-! ### Ports -/

/-- Whether a port is trained. -/
def portUp (s : State) (d port : Nat) : Bool :=
  if port < 3 then s.rd d (Reg.MESH_TS_STATUS_UP port) == 1 else s.rd d (Reg.MESH_TL_STATUS_UP (port - 3)) == 1

/-- The sibling behind Toash-S port `k` (R291). -/
def siblingOf (d k : Nat) : Nat := d / 4 * 4 + (d % 4 ^^^ (k + 1))

/-- The half whose edge the port attaches to (Table MESH-1). -/
def portSide (port : Nat) : Nat := if port = 0 || port = 3 then 0 else 1

/-- A port's state, 0 as new. -/
def linkPort (s : State) (d port : Nat) : LinkPort :=
  (s.net.ports.find? (fun p => Nat.beq p.die d && Nat.beq p.port port)).getD ⟨d, port, 0, 0, 0, 0, 0, [], []⟩

def putPort (p : LinkPort) (s : State) : State :=
  { s with net := { s.net with ports := putWhere (fun x => Nat.beq x.die p.die && Nat.beq x.port p.port) p s.net.ports } }

/-! ### Frames and the retry buffer (R297, R307) -/

/-- The fields of a frame of 264 bytes (R297). -/
def frameSeq (b : List Byte) : Nat := leAt b 0 4 % 4096
def frameAck (b : List Byte) : Nat := leAt b 0 4 / 4096 % 4096
def frameKind (b : List Byte) : Nat := leAt b 0 4 / 0x1000000 % 4

/-- Whether the CRC-32C over header and flits is right. -/
def frameOk (b : List Byte) : Bool := Nat.beq (crc32c (b.take 260)) (leAt b 260 4)

/-- A frame as it is sent, with the ACK that it carries. -/
def LinkFrame.bytes (f : LinkFrame) (ack : Nat) : List Byte :=
  let body := leBytes 4 (f.seq % 4096 + ack % 4096 * 4096 + f.kind % 4 * 0x1000000)
    ++ (f.payload ++ List.replicate 256 0).take 256
  body ++ leBytes 4 (crc32c body)

/-- Frames of the retry buffer of a link end: 256 of Toash-S, 2,048 of Toash-L. -/
def retryCap (p : LinkPort) : Nat := if p.die < 64 && p.port < 3 then 256 else 2048

/-- Frames numbered from SEQ `n` on. -/
def numberFrames : Nat → List LinkFrame → List LinkFrame
  | _, [] => []
  | n, f :: l => { f with seq := n % 4096 } :: numberFrames (n + 1) l

/-- What waits at a link end is sent as far as the retry buffer has room. -/
def pumpPort (p : LinkPort) : LinkPort :=
  let go := p.queue.take (retryCap p - p.retry.length)
  { p with retry := p.retry ++ numberFrames p.next go, next := (p.next + go.length) % 4096,
           queue := p.queue.drop (retryCap p - p.retry.length) }

/-- The frames after SEQ `n`. -/
def framesAfter (n : Nat) : List LinkFrame → List LinkFrame
  | [] => []
  | f :: l => if Nat.beq f.seq n then l else framesAfter n l

/-- ACK or the last good SEQ of a NAK: the frames up to it leave the retry buffer. An ACK of no frame in it says nothing. -/
def ackPort (n : Nat) (p : LinkPort) : LinkPort :=
  if p.retry.any (fun f => Nat.beq f.seq n) then pumpPort { p with retry := framesAfter n p.retry } else p

/-- A control frame handed to a link end. Only control frames are built: what travels in data frames has commands of its own
(DESIGN CHOICE, log 116). -/
def queueFrame (a port : Nat) (bytes : List Byte) (s : State) : State :=
  let p := linkPort s a port
  putPort (pumpPort { p with queue := p.queue ++ [⟨0, 1, bytes⟩] }) s

/-- A Toash control message sent on a port, to whoever is at its other end. -/
def sendCtl (a port kind : Nat) (bytes : List Byte) (s : State) : State :=
  queueFrame a port bytes { s with net := { s.net with ctl := s.net.ctl ++ [⟨a, port, none, kind, bytes⟩] } }

/-- The port on which agent `a` sends a control message to agent `b` (R33, R305): Toash-S to a sibling, else plane 0 while
it is up at both ends, and plane 1 otherwise; a spine switch reaches the dies of its plane alone. -/
def pathTo (s : State) (a b : Nat) : Option Nat :=
  if a < 64 && b < 64 then
    if moduleOf a = moduleOf b then [0, 1, 2].find? (fun k => Nat.beq (siblingOf a k) b && portUp s a k)
    else [3, 4].find? (fun k => portUp s a k && portUp s b k && !s.rack.planeLost.contains (k - 3))
  else if a < 64 then [3, 4].find? (fun k => Nat.beq (61 + k) b && portUp s a k)
  else if b < 64 && portUp s b (a - 61) then some b
  else none

/-- A control message of agent `a` to agent `b`, where a path is up. -/
def sendTo (a b kind : Nat) (bytes : List Byte) (s : State) : State :=
  match pathTo s a b with
  | some k => queueFrame a k bytes { s with net := { s.net with ctl := s.net.ctl ++ [⟨a, k, some b, kind, bytes⟩] } }
  | none => s

/-- Every agent of the rack beside `a`: the dies of the order code, and the spine switches. -/
def otherAgents (s : State) (a : Nat) : List Nat := (allDies s ++ [64, 65]).filter (fun b => !(Nat.beq b a))

/-- A control message of agent `a` to every other agent. -/
def tellAll (a kind : Nat) (bytes : List Byte) (s : State) : State :=
  each (otherAgents s a) (fun s b => sendTo a b kind bytes s) s

/-- Full width: 5 modules, or x16. -/
def fullWidth (port : Nat) : Nat := if port < 3 then 5 else 3

/-- The least width that is no port down: 2 modules, or x4. -/
def leastWidth (port : Nat) : Nat := if port < 3 then 2 else 1

/-- The status registers of a port: `width` modules, or the code of WIDTH; 0 is down. -/
def setPort (d port width : Nat) (s : State) : State :=
  let up := if width = 0 then 0 else 1
  let s := s.wrBit d Reg.DC_CAPS (8 + port) (up == 1)
  if port < 3 then
    ((s.wr d (Reg.MESH_TS_STATUS_UP port) up).wr d (Reg.MESH_TS_STATUS_MODULES port) width).wr d
      (Reg.MESH_TS_STATUS_PEER port) (siblingOf d port)
  else
    ((s.wr d (Reg.MESH_TL_STATUS_UP (port - 3)) up).wr d (Reg.MESH_TL_STATUS_WIDTH (port - 3)) width).wr d
      (Reg.MESH_TL_STATUS_SPINE_PORT (port - 3)) d

/-- WIDTH of the TOASH-RETRAIN record and REMAIN of DEGRADE: modules, or lanes. -/
def widthCount (port width : Nat) : Nat := if port < 3 then width else if width = 0 then 0 else 2 * 2 ^ width

/-- The TOASH-RETRAIN record: result 0 full, 1 narrowed, 2 down. DURATION_US is open within the bound of Table MESH-7
(DESIGN CHOICE, log 33). -/
def retrainRecord (d port width result : Nat) (s : State) : State :=
  let (k, s) := s.free
  emit d 7 0x060 1 false
    [pf 1 port, pf 1 result, pf 1 (widthCount port width), pf 1 0,
     pa_ 4 ((Config.freeWord k).toNat % (if port < 3 then 1001 else 5001))] s

/-! ### Frames that arrive (R297, R307) -/

/-- TOASH_FRAME: a frame in order is delivered, and its ACK frees what the far end has; any other is discarded and NAKed with
the last good SEQ. -/
def toashFrame (d port : Nat) (b : List Byte) (s : State) : State :=
  if !portUp s d port then s
  else
    let p := linkPort s d port
    if frameOk b && Nat.beq (frameSeq b) p.expect then
      putPort (ackPort (frameAck b) { p with expect := (p.expect + 1) % 4096, accepted := p.accepted + 1 }) s
    else
      let s := s.count d (Reg.MESH_LINK_CRC port) 1
      sendCtl d port 2 (leBytes 2 ((p.expect + 4095) % 4096)) (correctable d 7 3 port s)

/-- The bytes of a frame: its header, its flits and its CRC (R297). -/
def frameBytes (header : BitVec 32) (flits : List Byte) (crc : BitVec 32) : List Byte :=
  leBytes 4 header.toNat ++ flits ++ leBytes 4 crc.toNat

def execToashFrame (d port : Nat) (header : BitVec 32) (flits : List Byte) (crc : BitVec 32) (s : State) :
    Host.Outcome State Fault Refusal :=
  onDie s d (fun s => if port < 5 then toashFrame d port (frameBytes header flits crc) s else s)

/-- One retrain of a port to `width`, with its records (Table MESH-7); no frame is lost (R325). -/
def retrain (d port width : Nat) (s : State) : State :=
  let s := putPort { linkPort s d port with replays := 0 } (s.count d (Reg.MESH_LINK_RETRAIN port) 1)
  let narrowed := decide (width < fullWidth port)
  let s := retrainRecord d port width (if narrowed then 1 else 0) (setPort d port width s)
  if narrowed then
    degrade d 7 ((halfPart s d (portSide port)).getD 0) (if port < 3 then 3 else 4) (if port < 3 then port else port - 3)
      (widthCount port width) s
  else s

/-- The width that a trained port has. -/
def portWidth (s : State) (d port : Nat) : Nat :=
  if port < 3 then s.rd d (Reg.MESH_TS_STATUS_MODULES port) else s.rd d (Reg.MESH_TL_STATUS_WIDTH (port - 3))

/-- TOASH_NAK: the sender replays from the frame after the last good one, which is what its retry buffer then holds; a frame
replayed 16 times makes the port retrain. -/
def toashNak (d port lastGood : Nat) (s : State) : State :=
  if !portUp s d port then s
  else
    let p := linkPort s d port
    let first := (lastGood + 1) % 4096
    let n := if Nat.beq p.replayOf first then p.replays + 1 else 1
    let s := putPort (ackPort lastGood { p with replayOf := first, replays := n }) s
    if 16 ≤ n then retrain d port (portWidth s d port) s else s

def execToashNak (d port lastGood : Nat) (s : State) : Host.Outcome State Fault Refusal :=
  onDie s d (fun s => if port < 5 then toashNak d port lastGood s else s)

/-! ### Planes and ports lost (R535, Table MESH-7) -/

/-- Whether the partition has halves in more than one module. -/
def spansModules (s : State) (p : Nat) : Bool :=
  match partDies s p with
  | [] => false
  | d :: t => t.any (fun e => !(Nat.beq (moduleOf e) (moduleOf d)))

/-- The rack-fault record of the RM; it is also what the partitions' faults name as their cause. -/
def rackFault (cause : Nat) (s : State) : State :=
  rackEmit 0xFFF 0x032 4 false [pf 1 cause, pf 7 0, pa_ 8 s.recs.rmRtime] s

/-- A spine plane is lost until the next full load (R535). Loss of both planes resets every die. -/
def planeLoss (plane : Nat) (s : State) : State :=
  if s.rack.planeLost.contains plane then s
  else
    let seq := s.recs.rackSeq
    let both := s.rack.planeLost.contains (1 - plane)
    let s := rackFault (if both then 3 else plane + 1) s
    let s := { s with rack := { s.rack with planeLost := addNat s.rack.planeLost plane, spineReady := delNat s.rack.spineReady plane } }
    let s := each (allDies s) (fun s d => if portUp s d (3 + plane) then setPort d (3 + plane) 0 s else s) s
    let s := each ((allParts s).filter (spansModules s)) (fun s p =>
      partFault p 0x10 ((partDies s p).headD 0) 0x032 seq s) s
    if both then each ((allDies s).filter (dieUp s)) (fun s d => dieReset d 1 s) s else s

def execSpinePlaneLoss (plane : Nat) (s : State) : Host.Outcome State Fault Refusal :=
  .next (if plane < 2 then planeLoss plane s else s)

/-- Partitions with halves at both ends of a port that goes down; a peer in reset is no port failure. -/
def portParts (s : State) (d port : Nat) : List Nat :=
  if port < 3 then
    let e := siblingOf d port
    if s.boot.inReset.contains e then [] else (allParts s).filter (fun p => dieIn s p d && dieIn s p e)
  else (allParts s).filter (fun p => dieIn s p d && (partDies s p).any (fun e => !(Nat.beq (moduleOf e) (moduleOf d))))

/-- Whether the port lies between two places, one next after the other on a route. -/
def viaPort (d port : Nat) : RedPlace → RedPlace → Bool
  | .router a _, .router b _ => Nat.blt port 3 && (Nat.beq a d && Nat.beq b (siblingOf d port) || Nat.beq b d && Nat.beq a (siblingOf d port))
  | .router a _, .spine p _ => Nat.beq a d && Nat.beq port (3 + p)
  | .spine p _, .router b _ => Nat.beq b d && Nat.beq port (3 + p)
  | _, _ => false

/-- Whether a route has the port on it. -/
def routeVia (d port : Nat) : RedPlace → List RedPlace → Bool
  | _, [] => false
  | x, y :: l => viaPort d port x y || routeVia d port y l

/-- Whether the next leg of a RED packet has the port on it. -/
def redVia (s : State) (d port : Nat) (f : RedFlight) : Bool :=
  routeVia d port f.src (routeTo s f.pkt.key.part f.src (f.todo.headD (slicePlace s f.pkt)))

/-- Whether a coherence message has the port on its way. -/
def cohVia (s : State) (d port : Nat) (x : NetMsg) : Bool :=
  !(Nat.beq x.msg.src x.msg.dst)
    && routeVia d port (.router x.msg.src (sliceRouter x.msg.srcSlice))
      (routeTo s (linePart s x.msg.line) (.router x.msg.src (sliceRouter x.msg.srcSlice))
        (.router x.msg.dst (sliceRouter x.msg.dstSlice)))

/-- The members of a list that stay, where those that may be lost each stay or go by a free value. -/
def keepFree {α : Type} (k : Nat) (lose : α → Bool) : Nat → List α → List α
  | _, [] => []
  | i, x :: l =>
    if lose x && (Config.freeWord (k + i)).getLsbD 0 then keepFree k lose (i + 1) l else x :: keepFree k lose (i + 1) l

/-- Frames in the retry buffer of a port that goes down are lost (Table MESH-7). Which of the packets on their way over the port
its retry buffer then holds, the spec does not say: a free value for each (log 117). -/
def loseFrames (d port : Nat) (s : State) : State :=
  let k := s.freeCtr
  { s with
    freeCtr := k + s.slc.net.length + s.net.redNet.length,
    slc := { s.slc with net := keepFree k (cohVia s d port) 0 s.slc.net },
    net := { s.net with redNet := keepFree (k + s.slc.net.length) (redVia s d port) 0 s.net.redNet } }

/-- A port goes down: its frames are lost and the partitions at both ends fault with LINK-DOWN. A die with both Toash-L
ports down enters die reset; a plane that no die reaches is lost. -/
def toashPortDown (d port : Nat) (s : State) : State :=
  if !portUp s d port then s
  else
    let ps := portParts s d port
    let seq := nextSeq s d
    let s := retrainRecord d port 0 2 (setPort d port 0 (loseFrames d port s))
    let s := { s with net := { s.net with ports := s.net.ports.filter (fun p => !(Nat.beq p.die d && Nat.beq p.port port)) } }
    let s := each ps (fun s p => partFault p 0x08 d 0x060 seq s) s
    if port < 3 then s
    else
      let s := if !portUp s d 3 && !portUp s d 4 then dieReset d 1 s else s
      if (allDies s).all (fun e => !portUp s e port) then planeLoss (port - 3) s else s

def execToashPortDown (d port : Nat) (s : State) : Host.Outcome State Fault Refusal :=
  onDie s d (fun s => if port < 5 then toashPortDown d port s else s)

/-- TOASH_RETRAIN: a width below the least one takes the port down. -/
def toashRetrain (d port width : Nat) (s : State) : State :=
  if !portUp s d port then s
  else if width < leastWidth port then toashPortDown d port s
  else retrain d port (min width (fullWidth port)) s

def execToashRetrain (d port width : Nat) (s : State) : Host.Outcome State Fault Refusal :=
  onDie s d (fun s => if port < 5 then toashRetrain d port width s else s)

/-- The STAGE of a die from which on a port trains (Table BOOT-1, R329): Toash-S during stage 9, Toash-L during stage 10. -/
def trainStage (port : Nat) : Nat := if port < 3 then 6 else 7

/-- TOASH_PORT_TRAINED (R329): the port comes up, if the die has come to its stage and a Toash-L port has its spine. -/
def toashPortTrained (d port width : Nat) (s : State) : State :=
  if dieUp s d && Nat.ble (trainStage port) (s.rd d Reg.DC_BOOT_STATUS_STAGE) && Nat.ble (leastWidth port) width && (Nat.blt port 3 || s.rack.spineReady.contains (port - 3)) then
    putPort ⟨d, port, 0, 0, 0, 0, 0, [], []⟩ (setPort d port (min width (fullWidth port)) s)
  else s

def execToashPortTrained (d port width : Nat) (s : State) : Host.Outcome State Fault Refusal :=
  onDie s d (fun s => if port < 5 then toashPortTrained d port width s else s)

/-! ### Routers and lanes (Table MESH-7) -/

/-- A DEGRADE record and the fault of a half's partition, if the half is assigned. -/
def degradeFault (d side kind index remain cause : Nat) (s : State) : State :=
  let seq := nextSeq s d
  let s := degrade d 7 ((halfPart s d side).getD 0) kind index remain s
  match halfPart s d side with
  | some p => partFault p cause d 0x033 seq s
  | none => s

/-- ROUTER_FAILURE: the half of the router is failed (R43, R537). -/
def routerFailure (d c : Nat) (s : State) : State :=
  let side := clusterSide c
  let s := { s with net := { s.net with routersFailed := addNat s.net.routersFailed (d * 320 + c) } }
  degradeFault d side 2 side 0 0x0A (s.wrBit d Reg.REC_FAIL_HALF side true)

def execRouterFailure (d cluster : Nat) (s : State) : Host.Outcome State Fault Refusal :=
  onDie s d (fun s => if cluster < 320 then routerFailure d cluster s else s)

/-- HALF_LINK_LANE_DOWN: the lane is out, and both partitions of the die fault. -/
def halfLinkLaneDown (d lane : Nat) (s : State) : State :=
  if s.net.lanesDown.contains (d * 4 + lane) then s
  else
    let s := { s with net := { s.net with lanesDown := addNat s.net.lanesDown (d * 4 + lane) } }
    let left := ([0, 1, 2, 3].filter (fun l => !s.net.lanesDown.contains (d * 4 + l))).length
    let seq := nextSeq s d
    let s := degradeFault d 0 5 lane left 0x09 s
    match halfPart s d 1 with
    | some p => partFault p 0x09 d 0x033 seq s
    | none => s

def execHalfLinkLaneDown (d lane : Nat) (s : State) : Host.Outcome State Fault Refusal :=
  onDie s d (fun s => if lane < 4 then halfLinkLaneDown d lane s else s)

end Sys2Proof.Machine
end

