-- ==== Sys2Proof/Machine/Vector.lean ====
section
/-! DEFINITION. The vector arithmetic opcodes in formats VV and VS (Table ISA-4): each reads its operands from the
troupe as it was, and writes its result in the lanes whose guard is 1. -/

namespace Sys2Proof.Machine

/-- An effect on the troupe alone: `f` of each executing lane written to VD. -/
def laneEff (f : Iss → Nat → Lane) (i : Iss) (s : State) : Eff :=
  .done (writeLanes (fD i.w) (f i) i.act i.t) s

/-- A core instruction on die `a.die`. -/
def coreOp (a : Issue) (op : Nat) (f : BitVec 56) (eff : Iss → State → Eff) (s : State) :
    Host.Outcome State Fault Refusal :=
  onDie s a.die (issue a (wordOf op f) eff)

/-- va, vb and vc of a lane. -/
def Iss.va (i : Iss) (n : Nat) : Lane := i.t.v (fA i.w) n
def Iss.vb (i : Iss) (n : Nat) : Lane := i.t.v (fVB i.w) n
def Iss.vc (i : Iss) (n : Nat) : Lane := i.t.v (fVC i.w) n

/-! ### Format VV -/

def vaddLane (i : Iss) (n : Nat) : Lane := mapElems2 (fType i.w) (addE (fType i.w) (fRnd i.w)) (i.va n) (i.vb n)
def vsubLane (i : Iss) (n : Nat) : Lane := mapElems2 (fType i.w) (subE (fType i.w) (fRnd i.w)) (i.va n) (i.vb n)
def vmulLane (i : Iss) (n : Nat) : Lane := mapElems2 (fType i.w) (mulE (fType i.w) (fRnd i.w)) (i.va n) (i.vb n)
def vfmaLane (i : Iss) (n : Nat) : Lane :=
  mapElems3 (fType i.w) (fmaE (fType i.w) (fRnd i.w)) (i.va n) (i.vb n) (i.vc n)
def vminLane (i : Iss) (n : Nat) : Lane :=
  mapElems2 (fType i.w) (minMaxE (fType i.w) false ((fMod i.w).testBit 0)) (i.va n) (i.vb n)
def vmaxLane (i : Iss) (n : Nat) : Lane :=
  mapElems2 (fType i.w) (minMaxE (fType i.w) true ((fMod i.w).testBit 0)) (i.va n) (i.vb n)
def vabsLane (i : Iss) (n : Nat) : Lane := mapElems (fType i.w) (absE (fType i.w)) (i.va n)
def vnegLane (i : Iss) (n : Nat) : Lane := mapElems (fType i.w) (negE (fType i.w)) (i.va n)
def vlogLane (i : Iss) (n : Nat) : Lane := logL (fMod i.w) (i.va n) (i.vb n)
def vshlLane (i : Iss) (n : Nat) : Lane := shiftL 0 (i.va n) (i.vb n)
def vshrLane (i : Iss) (n : Nat) : Lane := shiftL (if (fMod i.w).testBit 0 then 2 else 1) (i.va n) (i.vb n)
def vselLane (i : Iss) (n : Nat) : Lane := if i.t.p (fPD i.w) n then i.va n else i.vb n
def vdot4Lane (i : Iss) (n : Nat) : Lane := dot4 ((fMod i.w).testBit 0) (i.va n) (i.vb n) (i.vc n)
def vmovLane (i : Iss) (n : Nat) : Lane := i.va n
def vrcpLane (i : Iss) (n : Nat) : Lane := transL 0 (fRnd i.w) (i.va n)
def vrsqLane (i : Iss) (n : Nat) : Lane := transL 1 (fRnd i.w) (i.va n)
def vexp2Lane (i : Iss) (n : Nat) : Lane := transL 2 (fRnd i.w) (i.va n)
def vlog2Lane (i : Iss) (n : Nat) : Lane := transL 3 (fRnd i.w) (i.va n)
/-- VSHFL reads the thread vb[4:0] names, whatever its cohort or guard. -/
def vshflLane (i : Iss) (n : Nat) : Lane := i.t.v (fA i.w) ((i.vb n).toNat % 32)

/-- VCMP writes p[PD]. -/
def vcmpEff (i : Iss) (s : State) : Eff :=
  .done (writePreds (fPD i.w) (fun n => condL (fType i.w) (fMod i.w) (i.va n) (i.vb n)) i.act i.t) s

/-- VCVT in one lane (R137): the elements of the source group converted in order into the destination group. Between FP8
and a 16-bit type they stay consecutive, two to a 16-bit register (DEDUCED, log 111). -/
def vcvtLane (i : Iss) (n : Nat) (t : Troupe) : Troupe :=
  let a := fType i.w
  let b := fMod i.w
  let (wide, narrow) := cvtRegs i.w
  let sc := if fScale i.w then scaleOf (i.t.s (fSS i.w)) n else 127
  let src := elemsOf (typeWidth a) ((List.range narrow).map (fun j => (i.t.v (fA i.w + j) n).toNat))
  let dst := src.map (cvtE a b (fRnd i.w) (fSat i.w) sc sc)
  writeGroup n (fD i.w) wide (packElems (typeWidth b) dst) t

def vcvtEff (i : Iss) (s : State) : Eff := .done (i.act.foldl (fun t n => vcvtLane i n t) i.t) s

/-- VRED's combine: MOD 0 sum, 1 minimum, 2 maximum. -/
def redE (t m rnd x y : Nat) : Nat :=
  match m with
  | 0 => addE t rnd x y
  | 1 => minMaxE t false false x y
  | _ => minMaxE t true false x y

/-- VRED over the executing lanes in ascending order; a NaN result is canonical, that of one lane too (R128). -/
def vredValue (i : Iss) : Nat :=
  match i.act with
  | [] => 0
  | n :: l =>
    canonE (fType i.w) (l.foldl (fun x m => redE (fType i.w) (fMod i.w) (fRnd i.w) x (i.va m).toNat) (i.va n).toNat)

def vredLane (i : Iss) (_n : Nat) : Lane := BitVec.ofNat 32 (vredValue i)

def execVadd (a : Issue) (f : BitVec 56) (s : State) : Host.Outcome State Fault Refusal := coreOp a 0x00 f (laneEff vaddLane) s
def execVsub (a : Issue) (f : BitVec 56) (s : State) : Host.Outcome State Fault Refusal := coreOp a 0x01 f (laneEff vsubLane) s
def execVmul (a : Issue) (f : BitVec 56) (s : State) : Host.Outcome State Fault Refusal := coreOp a 0x02 f (laneEff vmulLane) s
def execVfma (a : Issue) (f : BitVec 56) (s : State) : Host.Outcome State Fault Refusal := coreOp a 0x03 f (laneEff vfmaLane) s
def execVmin (a : Issue) (f : BitVec 56) (s : State) : Host.Outcome State Fault Refusal := coreOp a 0x04 f (laneEff vminLane) s
def execVmax (a : Issue) (f : BitVec 56) (s : State) : Host.Outcome State Fault Refusal := coreOp a 0x05 f (laneEff vmaxLane) s
def execVabs (a : Issue) (f : BitVec 56) (s : State) : Host.Outcome State Fault Refusal := coreOp a 0x06 f (laneEff vabsLane) s
def execVneg (a : Issue) (f : BitVec 56) (s : State) : Host.Outcome State Fault Refusal := coreOp a 0x07 f (laneEff vnegLane) s
def execVlog (a : Issue) (f : BitVec 56) (s : State) : Host.Outcome State Fault Refusal := coreOp a 0x08 f (laneEff vlogLane) s
def execVshl (a : Issue) (f : BitVec 56) (s : State) : Host.Outcome State Fault Refusal := coreOp a 0x09 f (laneEff vshlLane) s
def execVshr (a : Issue) (f : BitVec 56) (s : State) : Host.Outcome State Fault Refusal := coreOp a 0x0A f (laneEff vshrLane) s
def execVcmp (a : Issue) (f : BitVec 56) (s : State) : Host.Outcome State Fault Refusal := coreOp a 0x0B f vcmpEff s
def execVsel (a : Issue) (f : BitVec 56) (s : State) : Host.Outcome State Fault Refusal := coreOp a 0x0C f (laneEff vselLane) s
def execVcvt (a : Issue) (f : BitVec 56) (s : State) : Host.Outcome State Fault Refusal := coreOp a 0x0D f vcvtEff s
def execVdot4 (a : Issue) (f : BitVec 56) (s : State) : Host.Outcome State Fault Refusal := coreOp a 0x0E f (laneEff vdot4Lane) s
def execVmov (a : Issue) (f : BitVec 56) (s : State) : Host.Outcome State Fault Refusal := coreOp a 0x0F f (laneEff vmovLane) s
def execVrcp (a : Issue) (f : BitVec 56) (s : State) : Host.Outcome State Fault Refusal := coreOp a 0x10 f (laneEff vrcpLane) s
def execVrsq (a : Issue) (f : BitVec 56) (s : State) : Host.Outcome State Fault Refusal := coreOp a 0x11 f (laneEff vrsqLane) s
def execVexp2 (a : Issue) (f : BitVec 56) (s : State) : Host.Outcome State Fault Refusal := coreOp a 0x12 f (laneEff vexp2Lane) s
def execVlog2 (a : Issue) (f : BitVec 56) (s : State) : Host.Outcome State Fault Refusal := coreOp a 0x13 f (laneEff vlog2Lane) s
def execVshfl (a : Issue) (f : BitVec 56) (s : State) : Host.Outcome State Fault Refusal := coreOp a 0x14 f (laneEff vshflLane) s
def execVred (a : Issue) (f : BitVec 56) (s : State) : Host.Outcome State Fault Refusal := coreOp a 0x15 f (laneEff vredLane) s

/-! ### Format VS with vector destinations: round to nearest even (R127) -/

def vaddsLane (i : Iss) (n : Nat) : Lane := mapElems2 (fTypeS i.w) (addE (fTypeS i.w) 0) (i.va n) (opB i.t i.w)
def vsubsLane (i : Iss) (n : Nat) : Lane := mapElems2 (fTypeS i.w) (subE (fTypeS i.w) 0) (i.va n) (opB i.t i.w)
def vmulsLane (i : Iss) (n : Nat) : Lane := mapElems2 (fTypeS i.w) (mulE (fTypeS i.w) 0) (i.va n) (opB i.t i.w)
/-- VFMAS: va × b + vd. -/
def vfmasLane (i : Iss) (n : Nat) : Lane :=
  mapElems3 (fTypeS i.w) (fmaE (fTypeS i.w) 0) (i.va n) (opB i.t i.w) (i.t.v (fD i.w) n)
def vminsLane (i : Iss) (n : Nat) : Lane :=
  mapElems2 (fTypeS i.w) (minMaxE (fTypeS i.w) false ((fModS i.w).testBit 0)) (i.va n) (opB i.t i.w)
def vmaxsLane (i : Iss) (n : Nat) : Lane :=
  mapElems2 (fTypeS i.w) (minMaxE (fTypeS i.w) true ((fModS i.w).testBit 0)) (i.va n) (opB i.t i.w)
def vmovsLane (i : Iss) (_n : Nat) : Lane := opB i.t i.w

/-- VCMPS writes p[D]. -/
def vcmpsEff (i : Iss) (s : State) : Eff :=
  .done (writePreds (fD i.w) (fun n => condL (fTypeS i.w) (fModS i.w) (i.va n) (opB i.t i.w)) i.act i.t) s

def execVadds (a : Issue) (imm : Bool) (f : BitVec 56) (s : State) : Host.Outcome State Fault Refusal :=
  coreOp a (vsOp 0x20 imm) f (laneEff vaddsLane) s
def execVsubs (a : Issue) (imm : Bool) (f : BitVec 56) (s : State) : Host.Outcome State Fault Refusal :=
  coreOp a (vsOp 0x21 imm) f (laneEff vsubsLane) s
def execVmuls (a : Issue) (imm : Bool) (f : BitVec 56) (s : State) : Host.Outcome State Fault Refusal :=
  coreOp a (vsOp 0x22 imm) f (laneEff vmulsLane) s
def execVfmas (a : Issue) (imm : Bool) (f : BitVec 56) (s : State) : Host.Outcome State Fault Refusal :=
  coreOp a (vsOp 0x23 imm) f (laneEff vfmasLane) s
def execVmins (a : Issue) (imm : Bool) (f : BitVec 56) (s : State) : Host.Outcome State Fault Refusal :=
  coreOp a (vsOp 0x24 imm) f (laneEff vminsLane) s
def execVmaxs (a : Issue) (imm : Bool) (f : BitVec 56) (s : State) : Host.Outcome State Fault Refusal :=
  coreOp a (vsOp 0x25 imm) f (laneEff vmaxsLane) s
def execVcmps (a : Issue) (imm : Bool) (f : BitVec 56) (s : State) : Host.Outcome State Fault Refusal :=
  coreOp a (vsOp 0x26 imm) f vcmpsEff s
def execVmovs (a : Issue) (imm : Bool) (f : BitVec 56) (s : State) : Host.Outcome State Fault Refusal :=
  coreOp a (vsOp 0x27 imm) f (laneEff vmovsLane) s

end Sys2Proof.Machine
end

