-- ==== Sys2Proof/Machine/Scalar.lean ====
section
/-! DEFINITION. Scalar arithmetic, special values and the system opcodes (R135, R140, Tables ISA-4 and ISA-7): each
executes once per issue when the guard is 1 in at least one cohort thread. -/

namespace Sys2Proof.Machine

/-- An effect that happens once, if any lane executes (R135). -/
def onceEff (f : Iss → State → Troupe × State) (i : Iss) (s : State) : Eff :=
  if i.act.isEmpty then .done i.t s
  else
    let r := f i s
    .done r.1 r.2

/-- A scalar result written to s[D]. -/
def scalarEff (f : Iss → Lane) : Iss → State → Eff := onceEff (fun i s => (i.t.setS (fD i.w) (f i), s))

/-- sa. -/
def Iss.sa (i : Iss) : Lane := i.t.s (fA i.w)

def saddVal (i : Iss) : Lane := BitVec.ofNat 32 (addE (fTypeS i.w) 0 i.sa.toNat (opB i.t i.w).toNat)
def ssubVal (i : Iss) : Lane := BitVec.ofNat 32 (subE (fTypeS i.w) 0 i.sa.toNat (opB i.t i.w).toNat)
def smulVal (i : Iss) : Lane := BitVec.ofNat 32 (mulE (fTypeS i.w) 0 i.sa.toNat (opB i.t i.w).toNat)
def slogVal (i : Iss) : Lane := logL (fModS i.w) i.sa (opB i.t i.w)
def sshVal (i : Iss) : Lane := shiftL (fModS i.w) i.sa (opB i.t i.w)
def smovVal (i : Iss) : Lane := opB i.t i.w

/-- SCMP writes p[D] in all 32 threads of the troupe (R135). -/
def scmpEff : Iss → State → Eff := onceEff (fun i s =>
  (writePreds (fD i.w) (fun _ => condE (fTypeS i.w) (fModS i.w) i.sa.toNat (opB i.t i.w).toNat) (List.range 32) i.t, s))

/-- SADD64: pair A plus b sign-extended, in pair D. -/
def sadd64Eff : Iss → State → Eff := onceEff (fun i s =>
  (i.t.setPair (fD i.w / 2) (ofSigned 64 ((i.t.pair (fA i.w / 2) : Int) + (opB i.t i.w).toInt)), s))

def execSadd (a : Issue) (imm : Bool) (f : BitVec 56) (s : State) : Host.Outcome State Fault Refusal :=
  coreOp a (vsOp 0x28 imm) f (scalarEff saddVal) s
def execSsub (a : Issue) (imm : Bool) (f : BitVec 56) (s : State) : Host.Outcome State Fault Refusal :=
  coreOp a (vsOp 0x29 imm) f (scalarEff ssubVal) s
def execSmul (a : Issue) (imm : Bool) (f : BitVec 56) (s : State) : Host.Outcome State Fault Refusal :=
  coreOp a (vsOp 0x2A imm) f (scalarEff smulVal) s
def execSlog (a : Issue) (imm : Bool) (f : BitVec 56) (s : State) : Host.Outcome State Fault Refusal :=
  coreOp a (vsOp 0x2B imm) f (scalarEff slogVal) s
def execSsh (a : Issue) (imm : Bool) (f : BitVec 56) (s : State) : Host.Outcome State Fault Refusal :=
  coreOp a (vsOp 0x2C imm) f (scalarEff sshVal) s
def execSmov (a : Issue) (imm : Bool) (f : BitVec 56) (s : State) : Host.Outcome State Fault Refusal :=
  coreOp a (vsOp 0x2D imm) f (scalarEff smovVal) s
def execScmp (a : Issue) (imm : Bool) (f : BitVec 56) (s : State) : Host.Outcome State Fault Refusal :=
  coreOp a (vsOp 0x2E imm) f scmpEff s
def execSadd64 (a : Issue) (imm : Bool) (f : BitVec 56) (s : State) : Host.Outcome State Fault Refusal :=
  coreOp a (vsOp 0x2F imm) f sadd64Eff s

/-! ### Special values (Table ISA-7) -/

/-- The divider that a DIV code stands for (Table MAC-4): 3, 4, 6 or 12. -/
def divider (code : Nat) : Nat :=
  match code with
  | 0 => 3
  | 1 => 4
  | 2 => 6
  | _ => 12

/-- A special value that does not depend on the lane, for codes other than LANE; CYCLE counts the CCLK of the core that the model counts (DESIGN CHOICE, log 24). -/
def specVal (i : Iss) (s : State) : Nat :=
  let l := launchOf s i.t
  match fSpec i.w with
  | 0x01 => i.t.idx
  | 0x02 => (l.map (·.ntroupe)).getD 0
  | 0x03 => i.t.core
  | 0x04 => i.t.cluster
  | 0x05 => i.t.die
  | 0x06 => i.t.part
  | 0x07 => i.t.inst
  | 0x08 => (l.bind (·.seq)).getD 0xFFFFFFFF
  | 0x09 => (l.map (fun l => l.step.toNat)).getD 0
  | 0x0A => i.t.cls
  | 0x0B => i.t.rows
  | 0x0C => (l.map (fun l => l.lsKib * 1024)).getD 0
  | 0x0D => divider (s.rd i.t.die Reg.CLK_STATUS_DIV)
  | 0x0E => s.rtime i.t.die % 2 ^ 32
  | 0x10 => SMap.get 0 s.core.cclk ((i.t.die * 320 + i.t.cluster) * 16 + i.t.core) - i.t.placedAt
  | _ => i.t.rtimeHi.toNat

/-- RTIME_LO latches the high word for the troupe (R160). -/
def latchRtime (i : Iss) (s : State) (t : Troupe) : Troupe :=
  if fSpec i.w = 0x0E then { t with rtimeHi := BitVec.ofNat 32 (s.rtime t.die / 2 ^ 32) } else t

/-- SREAD. -/
def sreadEff : Iss → State → Eff := onceEff (fun i s =>
  (latchRtime i s (i.t.setS (fD i.w) (BitVec.ofNat 32 (specVal i s))), s))

/-- VREAD: LANE is the thread's own index; every other value is one for the troupe. -/
def vreadEff (i : Iss) (s : State) : Eff :=
  if fSpec i.w = 0 then .done (writeLanes (fD i.w) (fun n => BitVec.ofNat 32 n) i.act i.t) s
  else
    let t := writeLanes (fD i.w) (fun _ => BitVec.ofNat 32 (specVal i s)) i.act i.t
    .done (if i.act.isEmpty then t else latchRtime i s t) s

/-- V2S: va of the lowest executing lane. -/
def v2sVal (i : Iss) : Lane := i.va (i.act.headD 0)

/-- VBAL: bit n set for each executing lane n. -/
def vbalVal (i : Iss) : Lane := BitVec.ofNat 32 ((i.act.map (fun n => 2 ^ n)).foldl (· + ·) 0)

/-- L1INV (R147). -/
def l1invEff : Iss → State → Eff := onceEff (fun i s => (i.t, invalL1 i.t.die i.t.cluster s))

/-- SLEEP: the troupe issues nothing until SLEEP_EXPIRY. -/
def sleepEff : Iss → State → Eff := onceEff (fun i s => ({ i.t with asleep := true }, s))

def execSread (a : Issue) (f : BitVec 56) (s : State) : Host.Outcome State Fault Refusal := coreOp a 0xA0 f sreadEff s
def execVread (a : Issue) (f : BitVec 56) (s : State) : Host.Outcome State Fault Refusal := coreOp a 0xA1 f vreadEff s
def execV2s (a : Issue) (f : BitVec 56) (s : State) : Host.Outcome State Fault Refusal := coreOp a 0xA2 f (scalarEff v2sVal) s
def execVbal (a : Issue) (f : BitVec 56) (s : State) : Host.Outcome State Fault Refusal := coreOp a 0xA3 f (scalarEff vbalVal) s
def execL1inv (a : Issue) (f : BitVec 56) (s : State) : Host.Outcome State Fault Refusal := coreOp a 0xA4 f l1invEff s
def execSleep (a : Issue) (f : BitVec 56) (s : State) : Host.Outcome State Fault Refusal := coreOp a 0xA5 f sleepEff s

end Sys2Proof.Machine
end

