-- ==== Sys2Proof/Machine/MemInstr.lean ====
section
/-! DEFINITION. The memory opcodes (R138, R144–R157, R161, R162, R347–R349): addresses, the cluster L1, local store,
atomics, fences, reductions and KV access. Each access is carried through to its end in the step that issues it
(DESIGN CHOICE, log 6). -/

namespace Sys2Proof.Machine

/-! ### Addresses (R138, R155) -/

/-- IMM20 as a signed number. -/
def immOff (w : Nat) : Int := toSigned 20 (fImm20 w)

/-- The address of a MEM access in a lane: pair SB plus VO plus IMM20, modulo 2^64. -/
def memAddr (i : Iss) (n : Nat) : Nat :=
  ofSigned 64 ((i.t.pair (fSB i.w) : Int) + (if fOffen i.w then ((i.t.v (fVO i.w) n).toNat : Int) else 0) + immOff i.w)

/-- The address of a local-store access (Table ISA-5). -/
def localAddr (i : Iss) (n : Nat) : Nat :=
  ofSigned 64 ((if fOffen i.w then ((i.t.v (fVO i.w) n).toNat : Int) else 0) + immOff i.w)

/-- Lanes with what each addresses. -/
abbrev Addrs := List (Nat × Nat)

/-- The first lane whose address is not a multiple of `size`. -/
def misaligned (size : Nat) (l : Addrs) : Option (Nat × Nat) := l.find? (fun x => !(Nat.beq (x.2 % size) 0))

/-- What translating every lane gives: the physical addresses, or the first fault (code, lane, address). -/
inductive Xlated where
  | all (l : Addrs)
  | fault (code lane addr : Nat)
  deriving DecidableEq, Repr

/-- Every lane's address translated in lane order. -/
def xlateAll (b : XBy) (want : Want3) : Addrs → State → Option (Xlated × State)
  | [], s => some (.all [], s)
  | (n, va) :: l, s =>
    match translate b va want s with
    | none => none
    | some (.fault c, s) => some (.fault c n va, s)
    | some (.pa pa, s) =>
      match xlateAll b want l s with
      | none => none
      | some (.all t, s) => some (.all ((n, pa) :: t), s)
      | some (.fault c m a, s) => some (.fault c m a, s)

/-- The frame of an access by the executing lanes: alignment, translation, then `act` on the physical addresses
(R161: a fault has no effect in any thread). -/
def memEff (size : Nat) (want : Want3) (addr : Iss → Nat → Nat) (act : Iss → Addrs → State → Eff)
    (i : Iss) (s : State) : Eff :=
  let l := i.act.map (fun n => (n, addr i n))
  match misaligned size l with
  | some (n, a) => .trap 0x02 n a s
  | none =>
    match xlateAll i.t.xby want l s with
    | none => .wait
    | some (.fault c n a, s) => .trap c n a s
    | some (.all l, s) => act i l s

/-! ### The cluster L1 (R144, R157, R167) -/

/-- Sectors that the L1 of a cluster can hold. -/
def l1Cap (s : State) (d c : Nat) : Nat := (1280 - sumLs (residents s (d * 320 + c))) * 32

def inL1 (d c part sec : Nat) (x : L1Sector) : Bool :=
  Nat.beq x.die d && Nat.beq x.cluster c && Nat.beq x.part part && Nat.beq x.sector sec

/-- A sector installed in the L1; the oldest leaves when it is full (DESIGN CHOICE, log 7). -/
def l1Install (x : L1Sector) (s : State) : State :=
  let mine (y : L1Sector) : Bool := Nat.beq y.die x.die && Nat.beq y.cluster x.cluster
  let l := s.core.l1.filter (fun y => !inL1 x.die x.cluster x.part x.sector y)
  let cap := l1Cap s x.die x.cluster
  let l := if cap ≤ (l.filter mine).length then
      match l.find? mine with
      | some v => l.erase v
      | none => l
    else l
  if cap = 0 then { s with core := { s.core with l1 := l } }
  else { s with core := { s.core with l1 := l ++ [x] } }

/-- The sector leaves the cluster's L1: an atomic has changed it past the L1 (R144, R148). -/
def l1Drop (d c part sec : Nat) (s : State) : State :=
  { s with core := { s.core with l1 := s.core.l1.filter (fun y => !inL1 d c part sec y) } }

/-- A store writes through the L1: a copy that it holds takes the bytes (R144). -/
def l1Store (d c part sec : Nat) (mask : BitVec 32) (v : SectorData) (s : State) : State :=
  let put (y : L1Sector) : L1Sector :=
    { y with data := mergeBytes mask v y.data, poison := y.poison && mask != BitVec.allOnes 32 }
  { s with core := { s.core with l1 := updWhere (inL1 d c part sec) put s.core.l1 } }

/-- A sector read by a cluster: from the L1 unless `past` it, else from the slice, and installed. -/
def loadSector (t : Troupe) (hint : Nat) (fill past : Bool) (pa : Nat) (s : State) : Option (AccRes × State) :=
  let sec := pa / 32
  match (if past then none else s.core.l1.find? (inL1 t.die t.cluster t.part sec)) with
  | some x => some (.ok x.data x.poison, s)
  | none =>
    match accRead (t.acc hint fill) pa s with
    | some (.ok v p, s) =>
      let s := noteSector t.queue t.die pa s
      some (.ok v p, if past || p then s else l1Install ⟨t.die, t.cluster, t.part, sec, v, p⟩ s)
    | r => r

/-! ### Loads -/

/-- A loaded value of SIZE as the registers take it (Table ISA-3, SEXT). -/
def loadValue (w x : Nat) : Nat :=
  match fSize w, fSext w with
  | 0, true => ofSigned 32 (toSigned 8 x)
  | 1, true => ofSigned 32 (toSigned 16 x)
  | _, _ => x

/-- Sectors that one instruction has read: each is asked for once. -/
abbrev ReadSectors := List (Nat × SectorData × Bool)

/-- A sector read once by an instruction. -/
def loadOnce (i : Iss) (past : Bool) (got : ReadSectors) (pa : Nat) (s : State) : Option (AccRes × State) :=
  match look (pa / 32) got with
  | some (v, p) => some (.ok v p, s)
  | none => loadSector i.t (fHint i.w) (fFill i.w) past pa s

/-- Every lane loads; `past` the L1 or not. -/
def loadLanes (past : Bool) (i : Iss) (got : ReadSectors) : Addrs → Troupe → State → Eff
  | [], t, s => .done t s
  | (n, pa) :: l, t, s =>
    match loadOnce i past got pa s with
    | none => .wait
    | some (.denied, s) => .trap 0x04 n (memAddr i n) s
    | some (.ok v p, s) =>
      if p then .trap 0x05 n (memAddr i n) s
      else
        let x := loadValue i.w (sectorWord (pa % 32) (sizeBytes (fSize i.w)) v)
        loadLanes past i ((pa / 32, v, p) :: got) l (writeGroup n (fD i.w) (sizeRegs (fSize i.w)) x t) s

/-- The L1 invalidated after an instruction that has done its work (R145, R147). -/
def thenInval : Eff → Eff
  | .done t s => .done t (invalL1 t.die t.cluster s)
  | e => e

def ldEff (i : Iss) (s : State) : Eff :=
  memEff (sizeBytes (fSize i.w)) .load memAddr (fun i l s => loadLanes false i [] l i.t s) i s

/-- LD.ACQ (R145): past the L1 at DIE and PART scope, and then the L1 is invalidated. -/
def ldAcqEff (i : Iss) (s : State) : Eff :=
  if fScope i.w = 0 then ldEff i s
  else
    let e := memEff (sizeBytes (fSize i.w)) .load memAddr (fun i l s => loadLanes true i [] l i.t s) i s
    if i.act.isEmpty then e else thenInval e

/-- LDU (R149): one load for the troupe. -/
def lduEff (i : Iss) (s : State) : Eff :=
  match i.act with
  | [] => .done i.t s
  | n :: _ =>
    let size := sizeBytes (fSize i.w)
    let va := ofSigned 64 ((i.t.pair (fSB i.w) : Int) + immOff i.w)
    if va % size ≠ 0 then .trap 0x02 n va s
    else
      match translate i.t.xby va .load s with
      | none => .wait
      | some (.fault c, s) => .trap c n va s
      | some (.pa pa, s) =>
        match loadSector i.t (fHint i.w) (fFill i.w) false pa s with
        | none => .wait
        | some (.denied, s) => .trap 0x04 n va s
        | some (.ok v p, s) =>
          if p then .trap 0x05 n va s
          else
            let x := sectorWord (pa % 32) size v
            .done (if fSize i.w = 2 then i.t.setS (fD i.w) (BitVec.ofNat 32 x) else i.t.setPair (fD i.w / 2) x) s

/-- PREF (R161): each lane that can be fetched is fetched; one that would fault, or must wait, is dropped. -/
def prefLane (i : Iss) (s : State) (n : Nat) : State :=
  if memAddr i n % sizeBytes (fSize i.w) ≠ 0 then s
  else
  match translate i.t.xby (memAddr i n) .load s with
  | some (.pa pa, s1) =>
    match loadSector i.t (fHint i.w) (fFill i.w) false pa s1 with
    | some (.ok _ false, s2) => s2
    | _ => s
  | _ => s

def prefEff (i : Iss) (s : State) : Eff := .done i.t (i.act.foldl (prefLane i) s)

/-! ### Stores (R156, R162) -/

/-- Bytes that a store gathers for one sector: the highest lane that writes a byte wins (R156). -/
structure Gather where
  pa : Nat
  lane : Nat
  mask : BitVec 32
  data : SectorData
  deriving DecidableEq, Repr

/-- A lane's bytes joined to the sectors gathered so far. -/
def gatherLane (pa lane size x : Nat) : List Gather → List Gather
  | [] =>
    [⟨pa / 32 * 32, lane, byteMask (pa % 32) size, BitVec.ofNat 256 (x % 256 ^ size * 256 ^ (pa % 32))⟩]
  | g :: l =>
    if g.pa = pa / 32 * 32 then
      let m := byteMask (pa % 32) size
      { g with mask := g.mask ||| m,
               data := mergeBytes m (BitVec.ofNat 256 (x % 256 ^ size * 256 ^ (pa % 32))) g.data } :: l
    else g :: gatherLane pa lane size x l

/-- The sectors that a store writes. -/
def gatherAll (i : Iss) (l : Addrs) : List Gather :=
  l.foldl (fun g x => gatherLane x.2 x.1 (sizeBytes (fSize i.w))
    (readGroup i.t x.1 (fD i.w) (sizeRegs (fSize i.w))) g) []

/-- The gathered sectors written through the L1 to their slices. One that is denied faults, and the store leaves no
effect (R161): `s0` is the state before it. -/
def storeSectors (s0 : State) (i : Iss) : List Gather → State → Eff
  | [], s => .done i.t s
  | g :: l, s =>
    match accWrite (i.t.acc (fHint i.w) (fFill i.w)) g.pa g.mask g.data s with
    | none => .wait
    | some (.denied, _) =>
      .trap 0x04 g.lane (memAddr i g.lane) (crossPart (i.t.acc (fHint i.w) (fFill i.w)) g.pa 1 s0).2
    | some (.ok _ _, s) =>
      storeSectors s0 i l (l1Store i.t.die i.t.cluster i.t.part (g.pa / 32) g.mask g.data (noteSector i.t.queue i.t.die g.pa s))

def stEff (i : Iss) (s : State) : Eff :=
  memEff (sizeBytes (fSize i.w)) .store memAddr (fun i l s => storeSectors s i (gatherAll i l) s) i s

/-- ST.REL (R146): every earlier access of the thread is performed as it issues, so the store is one. -/
def stRelEff (i : Iss) (s : State) : Eff := stEff i s

/-! ### Atomics (R148, R156) -/

/-- Lanes served in ascending order, each at the home slice: `op` as `atomWord` numbers it. A lane that faults leaves
no effect of the instruction (R161): `s0` is the state before it. -/
def atomLanes (s0 : State) (op : Iss → Nat) (i : Iss) : Addrs → Troupe → State → Eff
  | [], t, s => .done t s
  | (n, pa) :: l, t, s =>
    let wide := Nat.beq (fSize i.w) 3
    let k := sizeRegs (fSize i.w)
    let a := readGroup i.t n (fD i.w) k
    let b := readGroup i.t n (fD i.w + k) k
    match accAtomic (i.t.acc (fHint i.w) (fFill i.w)) pa (atomSector (pa % 32) (op i) wide (fSext i.w) a b) s with
    | none => .wait
    | some (.denied, _) =>
      .trap 0x04 n (memAddr i n) (crossPart (i.t.acc (fHint i.w) (fFill i.w)) pa 2 s0).2
    | some (.ok v p, s) =>
      if p then .trap 0x05 n (memAddr i n) s0
      else
        let s := l1Drop i.t.die i.t.cluster i.t.part (pa / 32) (noteSector i.t.queue i.t.die pa s)
        atomLanes s0 op i l (writeGroup n (fD i.w) k (sectorWord (pa % 32) (sizeBytes (fSize i.w)) v) t) s

/-- The operation of ATOM and of ATOMF. -/
def intOp (i : Iss) : Nat := fModM i.w
def fpOp (i : Iss) : Nat := 8 + fModM i.w

def atomicEff (op : Iss → Nat) (i : Iss) (s : State) : Eff :=
  memEff (sizeBytes (fSize i.w)) .store memAddr (fun i l s => atomLanes s op i l i.t s) i s

/-- The .AR forms are an acquire and a release at SCOPE: at DIE and PART the L1 is invalidated (R145, R148). -/
def atomicArEff (op : Iss → Nat) (i : Iss) (s : State) : Eff :=
  if fScope i.w = 0 || i.act.isEmpty then atomicEff op i s else thenInval (atomicEff op i s)

/-! ### Fences (R147) -/

def fenceEff (i : Iss) (s : State) : Eff :=
  if fScope i.w = 0 || i.act.isEmpty then .done i.t s else .done i.t (invalL1 i.t.die i.t.cluster s)

/-! ### Local store (R151, R155) -/

def findStore (s : State) (t : Troupe) : Option LocalStore :=
  s.core.stores.find? (fun x => Nat.beq x.queue t.queue && x.index == t.index && Nat.beq x.die t.die && Nat.beq x.cluster t.cluster)

def putStore (x : LocalStore) (s : State) : State :=
  let same (y : LocalStore) : Bool :=
    Nat.beq x.queue y.queue && x.index == y.index && Nat.beq x.die y.die && Nat.beq x.cluster y.cluster
  { s with core := { s.core with stores := updWhere same (fun _ => x) s.core.stores } }

/-- Bytes of the launch's window. -/
def storeBytes (s : State) (t : Troupe) : Nat := ((launchOf s t).map (fun l => l.lsKib * 1024)).getD 0

/-- A value of `n` bytes of the window; a byte that nothing has written reads 0 (DESIGN CHOICE, log 2). -/
def localGet (m : SMap Byte) (a : Nat) : Nat → Nat
  | 0 => 0
  | n + 1 => (SMap.get 0 m a).toNat + 256 * localGet m (a + 1) n

def localPut (a : Nat) : Nat → Nat → SMap Byte → SMap Byte
  | 0, _, m => m
  | n + 1, x, m => localPut (a + 1) n (x / 256) (SMap.set 0 m a (BitVec.ofNat 8 x))

/-- The frame of a local-store access. -/
def localEff (act : Iss → Addrs → LocalStore → State → Eff) (i : Iss) (s : State) : Eff :=
  let size := sizeBytes (fSize i.w)
  let l := i.act.map (fun n => (n, localAddr i n))
  match misaligned size l with
  | some (n, a) => .trap 0x02 n a s
  | none =>
    match l.find? (fun x => Nat.ble (storeBytes s i.t) x.2) with
    | some (n, a) => .trap 0x03 n a s
    | none =>
      match l, findStore s i.t with
      | [], _ => .done i.t s
      | l, some x => act i l x s
      | (n, a) :: _, none => .trap 0x03 n a s

def ldlEff : Iss → State → Eff := localEff (fun i l x s =>
  .done (l.foldl (fun t y => writeGroup y.1 (fD i.w) (sizeRegs (fSize i.w))
    (loadValue i.w (localGet x.bytes y.2 (sizeBytes (fSize i.w)))) t) i.t) s)

/-- STL: the lanes write in ascending order, so the highest remains (R156). -/
def stlEff : Iss → State → Eff := localEff (fun i l x s =>
  let m := l.foldl (fun m y => localPut y.2 (sizeBytes (fSize i.w))
    (readGroup i.t y.1 (fD i.w) (sizeRegs (fSize i.w))) m) x.bytes
  .done i.t (putStore { x with bytes := m } s))

/-- ATOML: the lanes are served in ascending order (R156). -/
def atomlLanes (i : Iss) : Addrs → SMap Byte → Troupe → Troupe × SMap Byte
  | [], m, t => (t, m)
  | (n, a) :: l, m, t =>
    let size := sizeBytes (fSize i.w)
    let k := sizeRegs (fSize i.w)
    let old := localGet m a size
    let new := atomInt (8 * size) (fModM i.w) (fSext i.w) old (readGroup i.t n (fD i.w) k) (readGroup i.t n (fD i.w + k) k)
    atomlLanes i l (localPut a size new m) (writeGroup n (fD i.w) k old t)

def atomlEff : Iss → State → Eff := localEff (fun i l x s =>
  let r := atomlLanes i l x.bytes i.t
  .done r.1 (putStore { x with bytes := r.2 } s))

/-! ### Reductions (R152, R156, R311) -/

/-- The address of REDST: bits [47:0] of the pair plus VO. -/
def redAddr (i : Iss) (n : Nat) : Nat :=
  i.t.pair (fSB i.w) % 2 ^ 48 + (if fOffen i.w then (i.t.v (fVO i.w) n).toNat else 0)

/-- A lane's value as a narrow word: BF16 is widened exactly. -/
def redValue (i : Iss) (n : Nat) : Nat :=
  let x := (i.t.v (fD i.w) n).toNat
  if fModM i.w = 1 then widenBf16 x else x

/-- A contribution of the troupe to the sector at `pa`, with one word. -/
def redPkt1 (s : State) (i : Iss) (pa x : Nat) : RedPkt :=
  let t := i.t
  let tag := fImm20 i.w % 4096
  let tree := treeOf s t.part tag
  let w := pa % 32 / 4
  { long := false, key := ⟨t.part, tag, fModM i.w, pa / 32⟩, inst := t.inst, src := t.die, dst := homeDie pa,
    fixed := tree.isSome, count := i.t.pair (fSB i.w) / 2 ^ 48, contrib := 1, wmask := BitVec.ofNat 8 (2 ^ w),
    node := (tree.map (fun r => leafNode r t.die t.cluster)).getD 0x1FF,
    incarn := BitVec.ofNat 16 (s.rd t.die Reg.DC_INCARNATION), prev := 0x1FF,
    words := (List.replicate 8 0).set w (BitVec.ofNat 307 x) }

/-- A word joined to the contributions of the instruction: one for each sector, lanes in ascending order. -/
def joinWord (p : RedPkt) : List RedPkt → List RedPkt
  | [] => [p]
  | q :: l => if q.key == p.key then { combine q p with contrib := 1 } :: l else q :: joinWord p l

def redstEff (i : Iss) (s : State) : Eff :=
  memEff 4 .store redAddr (fun i l s =>
    let ps := l.foldl (fun ps x => joinWord (redPkt1 s i x.2 (redValue i x.1)) ps) []
    .done i.t (each ps (fun s p => contribute i.t.cluster p s) s)) i s

/-! ### KV access (R150, R338, R339, R347, R348) -/

def findSeq (s : State) (id : Nat) : Option SeqSlot := s.que.seqs.find? (fun x => Nat.beq x.id id)

/-- Tokens per block. -/
def blockSize (blk : Nat) : Nat := 16 * 2 ^ blk

/-- M precedes N (R345). -/
def precedes (m n : BitVec 32) : Bool :=
  let k := (n - m).toNat
  Nat.ble 1 k && Nat.blt k (2 ^ 31)

/-- END of the newest open step, or LEN (R347). -/
def newestEnd (x : SeqSlot) : Nat :=
  match x.recs.getLast? with
  | some r => r.end_
  | none => x.len

/-- The open step of the launch, if it is attached to it. -/
def myStep (l : Launch) (x : SeqSlot) : Option StepRec :=
  if l.attached.contains x.id then x.recs.find? (fun r => r.step == l.step) else none

/-- What a KV access of one token comes to at the sequence engine. -/
inductive KvRes where
  | ok
  | held
  | fault (code : Nat)
  deriving DecidableEq, Repr

/-- A step fence holds the block (R347). -/
def fenced (x : SeqSlot) (n : BitVec 32) (b : Nat) : Bool :=
  x.recs.any (fun r => precedes r.step n && Nat.ble r.firstBlock b)

/-- R347 and R362 for a load or a store of token `tok`. -/
def kvCheck (s : State) (l : Launch) (id tok : Nat) (store : Bool) : KvRes :=
  match findSeq s id with
  | none => .fault 0x0A
  | some x =>
    if x.part ≠ l.part || !dieIn s l.part (id / 256) then .fault 0x0A
    else if x.inst ≠ l.inst then .fault 0x04
    else if store then
      match myStep l x with
      | some r => if r.base ≤ tok && Nat.blt tok r.end_ then .ok else .fault 0x0A
      | none => .fault 0x0A
    else
      let top := ((myStep l x).map (·.end_)).getD (newestEnd x)
      if top ≤ tok then .fault 0x03
      else if fenced x l.step (tok / blockSize x.blk) then .held
      else .ok

/-- The cluster's live copy of a descriptor; one past its lease is discarded (R476). -/
def seqCopy (t : Troupe) (id : Nat) (s : State) : Option SeqCopy × State :=
  match s.que.seqCopies.find? (fun c => Nat.beq c.die t.die && Nat.beq c.cluster t.cluster && Nat.beq c.seq id) with
  | none => (none, s)
  | some c =>
    if c.lease ≤ s.rtime t.die - c.stamp then
      (none, { s with que := { s.que with seqCopies := s.que.seqCopies.erase c } }.count t.die Reg.XLT_LEASE_DROP 1)
    else (some c, s)

/-- A copy of the descriptor taken by the cluster (R348). -/
def fillSeqCopy (t : Troupe) (id : Nat) (s : State) : State :=
  match findSeq s id with
  | none => s
  | some x =>
    let same (c : SeqCopy) : Bool := Nat.beq c.die t.die && Nat.beq c.cluster t.cluster && Nat.beq c.seq id
    let c : SeqCopy :=
      ⟨t.die, t.cluster, id, x.inst, x.part, x.blk, x.dir, x.len, s.rtime t.die, leaseNs s x.part⟩
    { s with que := { s.que with seqCopies := putWhere same c s.que.seqCopies } }

/-- An 8-byte block-table entry at a virtual address, read in the launch's context (R339). -/
def readVa (t : Troupe) (va : Nat) (s : State) : Option ((Nat ⊕ Nat) × State) :=
  match translate t.xby va .load s with
  | none => none
  | some (.fault c, s) => some (.inr c, s)
  | some (.pa pa, s) => readEntry t.xby pa s

/-- A block-table entry's bits, or UNMAPPED: VALID set and reserved bits zero (R339). -/
def tableEntry (w lo : Nat) : Nat ⊕ Nat :=
  if w % 2 = 0 || bits w (lo - 1) 1 ≠ 0 || bits w 63 48 ≠ 0 then .inr 3 else .inl (bits w 47 lo * 2 ^ lo)

/-- The block table read for block `b`: directory, then leaf (R338). -/
def walkBlocks (t : Troupe) (id : Nat) (dir : Word) (b : Nat) (s : State) : Option ((Nat ⊕ Nat) × State) :=
  let stamp := s.rtime t.die
  match readVa t (dir.toNat + b / 4096 * 8) s with
  | none => none
  | some (.inr c, s) => some (.inr c, s)
  | some (.inl w, s) =>
    match tableEntry w 15 with
    | .inr c => some (.inr c, s)
    | .inl leaf =>
      match readVa t (leaf + b % 4096 * 8) s with
      | none => none
      | some (.inr c, s) => some (.inr c, s)
      | some (.inl w, s) =>
        match tableEntry w 8 with
        | .inr c => some (.inr c, s)
        | .inl a =>
          let e : BtCopy := ⟨t.die, t.cluster, id, b, BitVec.ofNat 64 a, stamp, leaseNs s t.part⟩
          some (.inl a, { s with que := { s.que with btCopies := s.que.btCopies ++ [e] } })

/-- The block address of block `b`, from the cluster's copies or through the block table (R338, R348). -/
def blockAddr (t : Troupe) (id : Nat) (dir : Word) (b : Nat) (s : State) : Option ((Nat ⊕ Nat) × State) :=
  let mine (c : BtCopy) : Bool :=
    Nat.beq c.die t.die && Nat.beq c.cluster t.cluster && Nat.beq c.seq id && Nat.beq c.block b
  match s.que.btCopies.find? mine with
  | some c =>
    if s.rtime t.die - c.stamp < c.lease then some (.inl c.addr.toNat, s)
    else
      let s := { s with que := { s.que with btCopies := s.que.btCopies.erase c } }
      walkBlocks t id dir b (s.count t.die Reg.XLT_LEASE_DROP 1)
  | none => walkBlocks t id dir b s

/-- Where a KV access of a lane goes. -/
inductive KvAddr where
  | va (n : Nat)
  | held (b : Nat)
  | fault (code : Nat)
  deriving DecidableEq, Repr

/-- A token's address by the engine path: the check of R347, then the block address. -/
def kvEngine (i : Iss) (store : Bool) (l : Launch) (id tok : Nat) (off : Nat → Nat → Nat) (s : State) :
    Option (KvAddr × State) :=
  match kvCheck s l id tok store, findSeq s id with
  | .fault c, _ => some (.fault c, s)
  | _, none => some (.fault 0x0A, s)
  | .held, some x => some (.held (tok / blockSize x.blk), s)
  | .ok, some x =>
    let s := fillSeqCopy i.t id s
    match blockAddr i.t id x.dir (tok / blockSize x.blk) s with
    | none => none
    | some (.inr e, s) => some (.fault e, s)
    | some (.inl a, s) => some (KvAddr.va (off x.blk a), s)

/-- The address of a token's bytes: block + (token mod B) × stride + IMM20 (R150). -/
def kvAddr (i : Iss) (store : Bool) (n : Nat) (s : State) : Option (KvAddr × State) :=
  let pr := i.t.pair (fSB i.w)
  let id := pr % 2 ^ 14
  let stride := pr / 2 ^ 32
  let tok := (i.t.v (fVO i.w) n).toNat
  let off (blk a : Nat) : Nat := (a + tok % blockSize blk * stride + fImm20 i.w) % 2 ^ 64
  match launchOf s i.t with
  | none => some (.fault 0x0A, s)
  | some l =>
    let (c, s) := seqCopy i.t id s
    match c, store with
    | some c, false =>
      if tok / blockSize c.blk < c.len / blockSize c.blk then
        if c.inst ≠ i.t.inst || c.part ≠ i.t.part then some (.fault 0x04, s)
        else
          match blockAddr i.t id c.dir (tok / blockSize c.blk) s with
          | none => none
          | some (.inr e, s) => some (.fault e, s)
          | some (.inl a, s) => some (.va (off c.blk a), s)
      else kvEngine i store l id tok off s
    | _, _ => kvEngine i store l id tok off s

/-- What every lane's KV address comes to: the addresses, a fault, or a block held. -/
inductive KvAll where
  | all (l : Addrs)
  | held (b : Nat)
  | fault (code lane addr : Nat)
  deriving DecidableEq, Repr

def kvAll (i : Iss) (store : Bool) : List Nat → State → Option (KvAll × State)
  | [], s => some (.all [], s)
  | n :: l, s =>
    match kvAddr i store n s with
    | none => none
    | some (.fault c, s) => some (.fault c n 0, s)
    | some (.held b, s) =>
      match kvAll i store l s with
      | some (.fault c m a, s) => some (.fault c m a, s)
      | some (_, s) => some (.held b, s)
      | none => none
    | some (.va a, s) =>
      match kvAll i store l s with
      | some (.all t, s) => some (.all ((n, a) :: t), s)
      | r => r

/-- The cluster of a troupe as a requester (R232). -/
def kvRequester (t : Troupe) : Nat := t.die * 320 + t.cluster

/-- Whether the troupe's LDKV backs off after a NACK-RETRY of its sequence engine (R232, R350). -/
def kvBacksOff (s : State) (t : Troupe) : Bool :=
  (retryOf s (kvRequester t)).waiting.any (fun b => b.what == .kv t.at_ && Nat.blt 0 b.wait)

/-- NACK-RETRY of the sequence engine (R350): the LDKV backs off as R232 says, one time longer than before. -/
def kvNack (t : Troupe) (s : State) : State :=
  let k := nacksOf s (kvRequester t) (.kv t.at_)
  backOffFor (kvRequester t) (.kv t.at_) (k + 1) (endBackOff (kvRequester t) (.kv t.at_) s)

/-- An LDKV that a step fence holds is noted at the sequence engine; one more than the 1,024 that it holds gets NACK-RETRY (R347,
R350). -/
def holdKv (t : Troupe) (id b : Nat) (s : State) : State :=
  let d := id / 256
  let mine (h : HeldKv) : Bool := Nat.beq h.seq id && h.slot == t.at_ && Nat.beq h.block b
  let now := (s.que.heldKv.filter (fun h => Nat.beq (h.seq / 256) d)).length
  if s.que.heldKv.any mine then s
  else if 1024 ≤ now then kvNack t s
  else
    let s := endBackOff (kvRequester t) (.kv t.at_) s
    let h : HeldKv := ⟨id, t.at_, b⟩
    let s := { s with que := { s.que with heldKv := s.que.heldKv ++ [h] } }
    (s.count d Reg.SEQ_FENCE_HOLDS 1).peak d Reg.SEQ_HELD_PEAK (now + 1)

/-- The troupe's held read leaves the engine. -/
def unholdKv (t : Troupe) (s : State) : State :=
  let s := endBackOff (kvRequester t) (.kv t.at_) s
  { s with que := { s.que with heldKv := s.que.heldKv.filter (fun h => h.slot != t.at_) } }

/-- The frame of LDKV and STKV. One that backs off is sent again when its back-off ends (R232). -/
def kvEff (store : Bool) (act : Iss → Addrs → State → Eff) (i : Iss) (s : State) : Eff :=
  if kvBacksOff s i.t then .wait
  else
  match kvAll i store i.act s with
  | none => .wait
  | some (.fault c n a, s) => .trap c n a s
  | some (.held b, s) => .hold (holdKv i.t (i.t.pair (fSB i.w) % 2 ^ 14) b s)
  | some (.all l, s) =>
    let s := unholdKv i.t s
    match misaligned (sizeBytes (fSize i.w)) l with
    | some (n, a) => .trap 0x02 n a s
    | none =>
      match xlateAll i.t.xby (if store then .store else .load) l s with
      | none => .wait
      | some (.fault c n a, s) => .trap c n a s
      | some (.all l, s) => act i l s

def ldkvEff : Iss → State → Eff := kvEff false (fun i l s => loadLanes false i [] l i.t s)
def stkvEff : Iss → State → Eff := kvEff true (fun i l s => storeSectors s i (gatherAll i l) s)

/-! ### The commands -/

def execLd (a : Issue) (f : BitVec 56) (s : State) : Host.Outcome State Fault Refusal := coreOp a 0x40 f ldEff s
def execSt (a : Issue) (f : BitVec 56) (s : State) : Host.Outcome State Fault Refusal := coreOp a 0x41 f stEff s
def execLdAcq (a : Issue) (f : BitVec 56) (s : State) : Host.Outcome State Fault Refusal := coreOp a 0x42 f ldAcqEff s
def execStRel (a : Issue) (f : BitVec 56) (s : State) : Host.Outcome State Fault Refusal := coreOp a 0x43 f stRelEff s
def execLdl (a : Issue) (f : BitVec 56) (s : State) : Host.Outcome State Fault Refusal := coreOp a 0x44 f ldlEff s
def execStl (a : Issue) (f : BitVec 56) (s : State) : Host.Outcome State Fault Refusal := coreOp a 0x45 f stlEff s
def execLdu (a : Issue) (f : BitVec 56) (s : State) : Host.Outcome State Fault Refusal := coreOp a 0x46 f lduEff s
def execPref (a : Issue) (f : BitVec 56) (s : State) : Host.Outcome State Fault Refusal := coreOp a 0x47 f prefEff s
def execAtom (a : Issue) (f : BitVec 56) (s : State) : Host.Outcome State Fault Refusal :=
  coreOp a 0x48 f (atomicEff intOp) s
def execAtomAr (a : Issue) (f : BitVec 56) (s : State) : Host.Outcome State Fault Refusal :=
  coreOp a 0x49 f (atomicArEff intOp) s
def execAtomf (a : Issue) (f : BitVec 56) (s : State) : Host.Outcome State Fault Refusal :=
  coreOp a 0x4A f (atomicEff fpOp) s
def execAtomfAr (a : Issue) (f : BitVec 56) (s : State) : Host.Outcome State Fault Refusal :=
  coreOp a 0x4B f (atomicArEff fpOp) s
def execAtoml (a : Issue) (f : BitVec 56) (s : State) : Host.Outcome State Fault Refusal := coreOp a 0x4C f atomlEff s
def execFence (a : Issue) (f : BitVec 56) (s : State) : Host.Outcome State Fault Refusal := coreOp a 0x4D f fenceEff s
def execRedst (a : Issue) (f : BitVec 56) (s : State) : Host.Outcome State Fault Refusal := coreOp a 0x4E f redstEff s
def execLdkv (a : Issue) (f : BitVec 56) (s : State) : Host.Outcome State Fault Refusal := coreOp a 0x4F f ldkvEff s
def execStkv (a : Issue) (f : BitVec 56) (s : State) : Host.Outcome State Fault Refusal := coreOp a 0x50 f stkvEff s

end Sys2Proof.Machine
end

