-- ==== Sys2Proof/Machine/Sequences.lean ====
section
/-! DEFINITION. The sequence engine (chapter 9): steps, chains, the step check of a launch (R345), the SEQCTL operations
(Table SEQ-3), retirement (R346), and the failure of the engine (R364). -/

namespace Sys2Proof.Machine

/-! ### Slots, chains, descriptors -/

/-- The die of a sequence (R337). -/
def seqDie (id : Nat) : Nat := id / 256

/-- Whether the sequence engine of a die answers. -/
def engineUp (s : State) (d : Nat) : Bool := !s.que.seqFailed.contains d && !s.boot.inReset.contains d

/-- The sequences that a launch naming `id` attaches to: the whole chain of a head, else the one (R344). -/
def chainOf (s : State) (id : Nat) : List SeqSlot :=
  match findSeq s id with
  | none => []
  | some x => if x.chain = some id then s.que.seqs.filter (fun y => y.chain == some id) else [x]

/-- The entry after sequence `id`. -/
def nextAfter (id : Nat) : List SeqSlot → Option SeqSlot
  | [] => none
  | [_] => none
  | x :: y :: l => if x.id = id then some y else nextAfter id (y :: l)

/-- LINK: the next slot of the chain, in the order of the list; 0xFFFF for none (Table SEQ-6). -/
def linkOf (s : State) (x : SeqSlot) : Nat :=
  match x.chain with
  | none => 0xFFFF
  | some h =>
    match nextAfter x.id (s.que.seqs.filter (fun y => y.chain == some h)) with
    | some y => y.id % 256
    | none => 0xFFFF

/-- A step record's 32 bytes (Table SEQ-7). Every STKV sector is performed as it issues, so OWC is 0 between steps of
the model. -/
def stepBytes (r : StepRec) : List Byte :=
  leBytes 4 r.step.toNat ++ leBytes 4 r.base ++ leBytes 4 r.end_ ++ leBytes 4 r.firstBlock ++ leBytes 4 r.lcnt
    ++ leBytes 4 r.owc ++ leBytes 1 (if r.closed then 3 else 1) ++ leBytes 7 0

/-- The newest open step. -/
def newestRec (x : SeqSlot) : Option StepRec := x.recs.getLast?

/-- Whether the newest open step is closed (CLOSED_NEWEST). -/
def newestClosed (x : SeqSlot) : Bool := ((newestRec x).map (·.closed)).getD false

/-- FLAGS of Table SEQ-6. -/
def seqFlags (x : SeqSlot) : Nat :=
  (if x.chain.isSome && x.chain != some x.id then 1 else 0) + (if x.chain = some x.id then 2 else 0)
    + (if x.tainted then 4 else 0) + (if newestClosed x then 8 else 0)

/-- The 128-byte descriptor (Table SEQ-6). -/
def seqBytes (s : State) (x : SeqSlot) : List Byte :=
  leBytes 2 x.id ++ leBytes 1 1 ++ leBytes 1 x.inst ++ leBytes 1 x.part ++ leBytes 1 x.blk ++ leBytes 2 (linkOf s x)
    ++ leBytes 4 x.len ++ leBytes 4 x.append ++ leBytes 8 x.dir.toNat ++ leBytes 4 x.step.toNat
    ++ leBytes 1 x.recs.length ++ leBytes 1 (seqFlags x) ++ leBytes 2 0
    ++ ((x.recs[0]?).map stepBytes).getD (leBytes 32 0) ++ ((x.recs[1]?).map stepBytes).getD (leBytes 32 0)
    ++ leBytes 8 x.retired ++ leBytes 24 0

/-! ### Steps (R345) -/

/-- The cases of the table of R345. -/
inductive StepCase where
  | attach | opens | held | beyond | bad
  deriving DecidableEq, Repr

/-- The bound on LEN and END (R350, R353). -/
def maxTokens : Nat := 16777216

/-- The case of step `n` for a sequence, with `tokens` to append. -/
def stepCase (depth : Nat) (x : SeqSlot) (n : BitVec 32) (tokens : Nat) : StepCase :=
  if !x.recs.isEmpty && n == x.step && !newestClosed x then .attach
  else if n == x.step + 1 then
    if x.recs.length < depth then
      if newestEnd x + tokens ≤ maxTokens then .opens else .beyond
    else .held
  else .bad

/-- The newest step closed. -/
def closeNewest (l : List StepRec) : List StepRec :=
  match l.getLast? with
  | some r => l.dropLast ++ [{ r with closed := true }]
  | none => []

/-- Step `n` opened with `lcnt` launches attached: the step before it closes. -/
def openStep (n : BitVec 32) (tokens lcnt : Nat) (x : SeqSlot) : SeqSlot :=
  let base := newestEnd x
  { x with
    step := n,
    recs := closeNewest x.recs ++ [⟨n, base, base + tokens, base / blockSize x.blk, lcnt, 0, false⟩] }

/-- A launch attached to the newest step. -/
def attachNewest (x : SeqSlot) : SeqSlot :=
  match newestRec x with
  | some r => { x with recs := x.recs.dropLast ++ [{ r with lcnt := r.lcnt + 1 }] }
  | none => x

/-- A launch of step `n` attached to a sequence that passed its check. -/
def attachTo (depth : Nat) (n : BitVec 32) (x : SeqSlot) : SeqSlot :=
  match stepCase depth x n x.append with
  | .attach => attachNewest x
  | .opens => openStep n x.append 1 x
  | _ => x

/-- What the step check says of a launch (R344, R345, R362). -/
inductive LaunchCheck where
  | ok (ids : List Nat)
  | held
  | fault (code : Nat)
  deriving DecidableEq, Repr

/-- The step check of a launch of instance `i` of partition `p` that names sequence `id` and step `n`: one answer for
the whole chain. -/
def launchCheck (s : State) (p i id : Nat) (n : BitVec 32) : LaunchCheck :=
  if !dieIn s p (seqDie id) then .fault 0x0A
  else if !engineUp s (seqDie id) then .held
  else
    match findSeq s id with
    | none => .fault 0x0A
    | some x =>
      if x.part ≠ p then .fault 0x0A
      else if x.inst ≠ i then .fault 0x04
      else
        let cs := (chainOf s id).map (fun y => stepCase (stepDepth s p) y n y.append)
        if cs.any (fun c => c == .bad || c == .beyond) then .fault 0x0A
        else if cs.contains .held then .held
        else .ok ((chainOf s id).map (·.id))

/-- A launch of step `n` attached to every sequence of `ids` as one action. -/
def attachAll (p : Nat) (ids : List Nat) (n : BitVec 32) (s : State) : State :=
  each ids (fun s id => updSeq id (attachTo (stepDepth s p) n) s) s

/-! ### SEQCTL items -/

/-- A SEQCTL item completes (R342). -/
def seqFinish (op : Nat) (it : SeqItem) (status info : Nat) (s : State) : State :=
  completeItem it.queue it.tag.toNat status 2 (it.index.toNat % 2 ^ 32) info it.cqe it.irq
    { s with que := { s.que with items := s.que.items.erase (op, it) } }

/-- A SEQCTL item that fails where Table SEQ-3 gives its INFO no value: INFO is open (DESIGN CHOICE, log 34). -/
def seqFail (op : Nat) (it : SeqItem) (status : Nat) (s : State) : State :=
  let (k, s) := s.free
  seqFinish op it status ((Config.freeWord k).toNat % 2 ^ 32) s

/-- The engine takes a dispatched item (R343); an item with a reserved field set fails BAD-OP. A failed engine takes
none. -/
def seqctl (op d : Nat) (it : SeqItem) (f : State → State) (s : State) : Host.Outcome State Fault Refusal :=
  onDie s (queDie it.queue) (fun s =>
    if !s.que.items.contains (op, it) || !engineUp s d then s
    else if it.reservedSet then seqFail op it 3 s
    else f s)

/-- The item's slot, ACTIVE and of its owner: else NOT-FOUND or NOT-OWNER (R343). -/
def withSlot (op : Nat) (it : SeqItem) (f : SeqSlot → State → State) (s : State) : State :=
  match findSeq s it.seq with
  | none => seqFail op it 4 s
  | some x =>
    if !dieIn s (quePart s it.queue) (seqDie it.seq) then seqFail op it 4 s
    else if x.part ≠ quePart s it.queue || x.inst ≠ queInst s it.queue then seqFail op it 5 s
    else f x s

/-- Cached descriptors of a sequence dropped (R349). -/
def dropSeqCopies (id : Nat) (s : State) : State :=
  { s with que := { s.que with seqCopies := s.que.seqCopies.filter (fun c => !(Nat.beq c.seq id)) } }

/-- Cached block-table entries of blocks `b` to `b + n - 1` dropped; every one with `n` = 0. -/
def dropBlocks (id b n : Nat) (s : State) : State :=
  { s with que := { s.que with btCopies := s.que.btCopies.filter (fun c =>
    !(Nat.beq c.seq id && (Nat.beq n 0 || (Nat.ble b c.block && Nat.blt c.block (b + n))))) } }

/-- A SHIFT moves the sequence (R393). -/
def shifting (s : State) (id : Nat) : Bool :=
  s.que.movers.any (fun m => inShift m &&
    (match m.latched with
      | some w => Nat.beq (((m.mregs[bits w.toNat 9 7]?).getD 0).toNat % 2 ^ 14) id
      | none => false))

/-- SEQCTL_CREATE (Table SEQ-3, R353). -/
def seqCreate (it : SeqItem) (s : State) : State :=
  let p := quePart s it.queue
  let blk := it.arg1.toNat % 4
  let app := it.arg1.toNat / 256 + 1
  if !dieIn s p (seqDie it.seq) then seqFinish 1 it 4 it.seq s
  else if (findSeq s it.seq).isSome then seqFinish 1 it 0x0B it.seq s
  else if maxTokens < it.arg0.toNat || it.addr.toNat % 0x8000 ≠ 0 || 2 ^ 48 ≤ it.addr.toNat then seqFinish 1 it 8 it.seq s
  else
    let x : SeqSlot :=
      { id := it.seq, inst := queInst s it.queue, part := p, blk := blk, len := it.arg0.toNat, append := app,
        dir := it.addr, step := it.step, chain := none, tainted := false, recs := [], retired := 0 }
    seqFinish 1 it 0 it.seq { s with que := { s.que with seqs := s.que.seqs ++ [x] } }

def execSeqctlCreate (it : SeqItem) (s : State) : Host.Outcome State Fault Refusal :=
  seqctl 1 (seqDie it.seq) it (seqCreate it) s

/-- Whether an LDKV of the sequence is held now. -/
def heldOn (s : State) (id : Nat) : Bool := s.que.heldKv.any (fun h => Nat.beq h.seq id)

/-- A sequence out of its chain: a head passes HEAD to its next member; a chain of one is none. -/
def unlinkSeq (x : SeqSlot) (l : List SeqSlot) : List SeqSlot :=
  match x.chain with
  | none => l
  | some h =>
    let rest := l.filter (fun y => y.chain == some h && !(Nat.beq y.id x.id))
    let head : Option Nat :=
      match rest with
      | [] => none
      | [_] => none
      | y :: _ => if h = x.id then some y.id else some h
    l.map (fun y => if y.id = x.id then { y with chain := none } else if y.chain = some h then { y with chain := head } else y)

/-- SEQCTL_DESTROY. -/
def seqDestroy (it : SeqItem) (s : State) : State :=
  withSlot 2 it (fun x s =>
    if !x.recs.isEmpty || heldOn s x.id || shifting s x.id then seqFinish 2 it 6 0 s
    else
      let l := (unlinkSeq x s.que.seqs).filter (fun y => !(Nat.beq y.id x.id))
      seqFinish 2 it 0 0 (dropBlocks x.id 0 0 (dropSeqCopies x.id { s with que := { s.que with seqs := l } }))) s

def execSeqctlDestroy (it : SeqItem) (s : State) : Host.Outcome State Fault Refusal :=
  seqctl 2 (seqDie it.seq) it (seqDestroy it) s

/-- Tokens that a STEP-OPEN appends: ARG0, or APPEND for 0. -/
def openTokens (it : SeqItem) (x : SeqSlot) : Nat := if it.arg0 = 0 then x.append else it.arg0.toNat

/-- STEP_OPEN (R345): opens the step, waits, or fails. -/
def stepOpen (it : SeqItem) (s : State) : State :=
  withSlot 3 it (fun x s =>
    match stepCase (stepDepth s x.part) x it.step (openTokens it x) with
    | .opens =>
      let y := openStep it.step (openTokens it x) 0 x
      seqFinish 3 it 0 (newestEnd y) (updSeq x.id (fun _ => y) s)
    | .held => s
    | .beyond => seqFail 3 it 8 s
    | _ => seqFail 3 it 7 s) s

def execStepOpen (it : SeqItem) (s : State) : Host.Outcome State Fault Refusal :=
  seqctl 3 (seqDie it.seq) it (stepOpen it) s

/-- STEP_CLOSE: the newest step closes; the item completes when it retires. -/
def stepClose (it : SeqItem) (s : State) : State :=
  withSlot 4 it (fun x s =>
    match newestRec x with
    | some r =>
      if r.step = it.step && !r.closed then
        let s := updSeq x.id (fun y => { y with recs := closeNewest y.recs }) s
        { s with que := { s.que with items := s.que.items.erase (4, it), closing := s.que.closing ++ [it] } }
      else seqFail 4 it 7 s
    | none => seqFail 4 it 7 s) s

def execStepClose (it : SeqItem) (s : State) : Host.Outcome State Fault Refusal :=
  seqctl 4 (seqDie it.seq) it (stepClose it) s

/-- TRUNCATE. -/
def seqTruncate (it : SeqItem) (s : State) : State :=
  withSlot 5 it (fun x s =>
    if !x.recs.isEmpty || shifting s x.id then seqFinish 5 it 6 x.len s
    else if x.len < it.arg0.toNat then seqFinish 5 it 8 x.len s
    else
      let s := updSeq x.id (fun y => { y with len := it.arg0.toNat, tainted := false }) s
      seqFinish 5 it 0 it.arg0.toNat (dropSeqCopies x.id s)) s

def execTruncate (it : SeqItem) (s : State) : Host.Outcome State Fault Refusal :=
  seqctl 5 (seqDie it.seq) it (seqTruncate it) s

/-- SEQCTL_SET: APPEND, and DIR where ADDR is not 0. -/
def seqSet (it : SeqItem) (s : State) : State :=
  withSlot 6 it (fun x s =>
    if !x.recs.isEmpty || shifting s x.id then seqFinish 6 it 6 0 s
    else if it.addr.toNat % 0x8000 ≠ 0 || 2 ^ 48 ≤ it.addr.toNat then seqFinish 6 it 8 0 s
    else
      let s := updSeq x.id (fun y => { y with
        append := it.arg1.toNat / 256 + 1, dir := if it.addr = 0 then y.dir else it.addr }) s
      let s := dropSeqCopies x.id s
      seqFinish 6 it 0 0 (if it.addr = 0 then s else dropBlocks x.id 0 0 s)) s

def execSeqctlSet (it : SeqItem) (s : State) : Host.Outcome State Fault Refusal :=
  seqctl 6 (seqDie it.seq) it (seqSet it) s

/-- BTINVAL. -/
def seqBtinval (it : SeqItem) (s : State) : State :=
  withSlot 7 it (fun x s => seqFinish 7 it 0 0 (dropBlocks x.id it.arg0.toNat it.arg1.toNat s)) s

def execBtinval (it : SeqItem) (s : State) : Host.Outcome State Fault Refusal :=
  seqctl 7 (seqDie it.seq) it (seqBtinval it) s

/-- `x` taken out of the list and put second in the chain of head `h`. -/
def linkAfter (h : Nat) (x : SeqSlot) : List SeqSlot → List SeqSlot
  | [] => []
  | y :: l =>
    if y.id = x.id then linkAfter h x l
    else if y.id = h then { y with chain := some h } :: { x with chain := some h } :: linkAfter h x l
    else y :: linkAfter h x l

/-- SEQCTL_LINK (R344): the sequence goes second in the head's chain. -/
def seqLink (it : SeqItem) (s : State) : State :=
  withSlot 8 it (fun x s =>
    let h := seqDie x.id * 256 + it.arg0.toNat % 256
    match findSeq s h with
    | some y =>
      if Nat.beq y.part x.part && Nat.beq y.inst x.inst && x.chain.isNone && !(Nat.beq h x.id)
          && (y.chain.isNone || y.chain == some h) then
        seqFinish 8 it 0 0 { s with que := { s.que with seqs := linkAfter h x s.que.seqs } }
      else seqFinish 8 it 9 0 s
    | none => seqFinish 8 it 9 0 s) s

def execSeqctlLink (it : SeqItem) (s : State) : Host.Outcome State Fault Refusal :=
  seqctl 8 (seqDie it.seq) it (seqLink it) s

/-- SEQCTL_UNLINK (R344). -/
def seqUnlink (it : SeqItem) (s : State) : State :=
  withSlot 9 it (fun x s =>
    if x.chain.isNone then seqFinish 9 it 9 0 s
    else seqFinish 9 it 0 0 { s with que := { s.que with seqs := unlinkSeq x s.que.seqs } }) s

def execSeqctlUnlink (it : SeqItem) (s : State) : Host.Outcome State Fault Refusal :=
  seqctl 9 (seqDie it.seq) it (seqUnlink it) s

/-- The queue block of queue `q` as it translates for context `c`, through the die TLB. -/
def queXby (s : State) (q c : Nat) : XBy :=
  ⟨queDie q, 1, 0, quePart s q, queInst s q, c, queClass s q, partSide s (queDie q) (quePart s q), 300⟩

/-- A fault of an item at the queue block: the kill of its context (R492, R202, R362). -/
def itemFault (q tag c index code pc addr : Nat) (s : State) : State :=
  contextFault
    { die := queDie q, part := quePart s q, inst := queInst s q, ctx := c, code := code, queue := q, tag := tag, kind := 0,
      sub := 0, unit := 0, slot := 0, lane := 0, troupe := 0, index := index, pc := pc, addr := addr, cursor := 0 } s

/-- SEQCTL_QUERY: the descriptor written to ADDR at PART scope; an ADDR that fails to translate kills the context
(R492). -/
def seqQuery (it : SeqItem) (s : State) : State :=
  withSlot 10 it (fun x s =>
    let fault (code : Nat) (s : State) : State :=
      seqFinish 10 it 1 128 (itemFault it.queue it.tag.toNat it.ctx (it.index.toNat % 2 ^ 32) code 0 it.addr.toNat s)
    if it.addr.toNat % 128 ≠ 0 then seqFinish 10 it 8 128 s
    else
      match translate (queXby s it.queue it.ctx) it.addr.toNat .store s with
      | none => s
      | some (.fault c, s) => fault c s
      | some (.pa pa, s') =>
        match accPut (queBy s' it.queue) 6 pa (seqBytes s x) s' with
        | none => s
        | some (false, s) => fault 4 s
        | some (true, s) => seqFinish 10 it 0 128 s) s

def execSeqctlQuery (it : SeqItem) (s : State) : Host.Outcome State Fault Refusal :=
  seqctl 10 (seqDie it.seq) it (seqQuery it) s

/-- ARM (R191, R343): the context takes launches again on every die. -/
def seqArm (it : SeqItem) (s : State) : State :=
  let p := quePart s it.queue
  let i := queInst s it.queue
  seqFinish 11 it 0 0
    { s with core := { s.core with killed := s.core.killed.filter (fun k => k != (p, i, it.ctx)) } }

def execArm (it : SeqItem) (s : State) : Host.Outcome State Fault Refusal :=
  seqctl 11 (queDie it.queue) it (seqArm it) s

/-! ### Retirement (R346) -/

/-- Whether the oldest open step can retire. -/
def canRetire (x : SeqSlot) : Option StepRec :=
  match x.recs with
  | r :: _ => if r.closed && Nat.beq r.lcnt 0 && Nat.beq r.owc 0 then some r else none
  | [] => none

/-- Reads of the sequence that no step fence holds any more leave the engine (R347): the troupe's LDKV issues again. -/
def releaseKv (id : Nat) (s : State) : State :=
  let keep (h : HeldKv) : Bool :=
    !(Nat.beq h.seq id) ||
      (match findSeq s id, (findTroupe s h.slot).bind (launchOf s) with
        | some x, some l => fenced x l.step h.block
        | _, _ => false)
  { s with que := { s.que with heldKv := s.que.heldKv.filter keep } }

/-- STEP-CLOSE items of a step that has retired complete with its END. -/
def finishClosing (id : Nat) (r : StepRec) (s : State) : State :=
  let mine (it : SeqItem) : Bool := Nat.beq it.seq id && it.step == r.step
  let done := s.que.closing.filter mine
  let s := { s with que := { s.que with closing := s.que.closing.filter (fun it => !mine it) } }
  each done (fun s it => seqFinish 4 it 0 r.end_ s) s

/-- STEP_RETIRE: LEN takes the step's END, the record is freed. -/
def stepRetire (id : Nat) (s : State) : State :=
  if !engineUp s (seqDie id) then s
  else
    match (findSeq s id).bind canRetire with
    | none => s
    | some r =>
      let now := s.rtime (seqDie id)
      let s := updSeq id (fun x => { x with len := r.end_, recs := x.recs.drop 1, retired := now }) s
      finishClosing id r (releaseKv id (s.count (seqDie id) Reg.SEQ_STEPS_RETIRED 1))

def execStepRetire (seq : Nat) (s : State) : Host.Outcome State Fault Refusal :=
  onDie s (seqDie seq) (stepRetire seq)

/-! ### Failure (R364) -/

/-- SEQ_ENGINE_FAILURE: the engine of die `d` fails; every partition with a sequence on the die faults. -/
def seqEngineFailure (d slot : Nat) (s : State) : State :=
  let ps := (List.range 128).filter (fun p => s.que.seqs.any (fun x => Nat.beq (seqDie x.id) d && Nat.beq x.part p))
  let seq := nextSeq s d
  let s := emit d 3 0x072 3 false [pf 1 slot, pf 7 0] { s with que := { s.que with seqFailed := addNat s.que.seqFailed d } }
  each ps (fun s p => partFault p 0x0B d 0x072 seq s) s

def execSeqEngineFailure (d slot : Nat) (s : State) : Host.Outcome State Fault Refusal :=
  onDie s d (fun s => if slot < 256 then seqEngineFailure d slot s else s)

end Sys2Proof.Machine
end

