-- ==== Sys2Proof/Machine/Queues.lean ====
section
/-! DEFINITION. The queues (chapter 9): the instance's buckets (R439), doorbells (R333, R438, R502) and QUE_CTRL (R330,
R350, R361, R363). -/

namespace Sys2Proof.Machine

/-! ### Buckets (R439) -/

/-- Whether a bucket holds one unit, or is absent. -/
def bucketHas1 (s : State) (d p i kind : Nat) : Bool :=
  bucketRate s p i kind == 0 || decide ((bucketOne : Int) ≤ bucketLevel s d p i kind)

/-- Whether a bucket is not below 0, or is absent. -/
def bucketOpen (s : State) (d p i kind : Nat) : Bool :=
  bucketRate s p i kind == 0 || decide (0 ≤ bucketLevel s d p i kind)

/-- What 1 µs adds to a bucket, with 24 fractional bits. A part of the last bit counts as one, so that a bucket of 1 unit is
full after the time that R439's example gives (DESIGN CHOICE, log 121). -/
def refillOf (s : State) (p i kind : Nat) : Nat :=
  let r := bucketRate s p i kind
  match kind with
  | 0 => (r * bucketOne + 999999) / 1000000
  | 1 => (r * bucketOne + 999999) / 1000000
  | 2 => r * 1000 * bucketOne
  | 3 => r * 1000 * bucketOne
  | _ => (r * bucketOne + 999) / 1000

/-- The doorbell of queue `q` can pass the instance's buckets: the doorbell bucket, and for class U its own too. -/
def doorbellPasses (s : State) (q : Nat) : Bool :=
  let d := queDie q
  let p := quePart s q
  let i := queInst s q
  bucketHas1 s d p i 0 && (queClass s q != 0 || bucketHas1 s d p i 1)

/-- The charge of one doorbell. -/
def chargeDoorbell (q : Nat) (s : State) : State :=
  let d := queDie q
  let p := quePart s q
  let i := queInst s q
  let s := charge d p i 0 1 s
  if queClass s q = 0 then charge d p i 1 1 s else s

/-- PI as the arbiter sees it: before the first doorbell that a bucket holds back. -/
def visPi (s : State) (q : Nat) : Nat :=
  match s.que.deferredPi.find? (fun x => Nat.beq x.1 q) with
  | some x => x.2.toNat
  | none => quePi s q

/-- The doorbells of queue `q` held back that its buckets now let through, in order. -/
def releaseDoorbells (q : Nat) : Nat → State → State
  | 0, s => s
  | fuel + 1, s =>
    match s.que.deferredPi.find? (fun x => Nat.beq x.1 q) with
    | none => s
    | some x =>
      if doorbellPasses s q then
        releaseDoorbells q fuel (chargeDoorbell q { s with que := { s.que with deferredPi := s.que.deferredPi.erase x } })
      else s

/-! ### Queue windows (R499, R501) -/

/-- A number put into a rising list. -/
def insertNat (n : Nat) : List Nat → List Nat
  | [] => [n]
  | m :: l => if n < m then n :: m :: l else m :: insertNat n l

/-- A list in rising order. -/
def sortNat (l : List Nat) : List Nat := l.foldl (fun a n => insertNat n a) []

/-- The queues of instance `i` of partition `p` in the live image, in ascending rack queue ID: its queue windows. -/
def windowsOf (s : State) (p i : Nat) : List Nat :=
  let es := entries 12 4096 ((liveBody s 4 p).getD [])
  sortNat ((es.filter (fun e => Nat.beq (leAt e 2 1) i)).map (fun e => leAt e 0 2))

/-- Whether an INSTANCE entry is the one that a requester at a port addresses: a VF, or a PASID on the PF (R438, R499). -/
def addresses (slice : Bool) (port fn : Nat) (pasid : Option (BitVec 20)) (e : InstEntry) : Bool :=
  Nat.beq e.hostPort port &&
    (if slice then fn == 0 && pasid == some (BitVec.ofNat 20 e.pasid) else fn != 0 && Nat.beq e.vf fn)

/-- The partition and instance that a requester at a port addresses; none for the mediator's view, and for a VF beyond
NumVFs. -/
def requesterInst (s : State) (port fn : Nat) (pasid : Option (BitVec 20)) : Option (Nat × Nat) :=
  if SMap.get 0 s.host.numVfs port < fn then none
  else (imgParts s).findSome? (fun p =>
    ((instances s p).find? (addresses (sliceMode s p) port fn pasid)).map (fun e => (p, e.id)))

/-! ### Doorbells (R333, R361, R437–R439, R502, R510) -/

/-- A doorbell discarded: counted, and recorded with its reason (Table FLT-6). The queue is 0xFFFF where it has none. -/
def doorbellBad (d q reason fn : Nat) (sealed_ : Bool) (v : Word) (s : State) : State :=
  emit d 2 0x070 0 sealed_ [pf 2 q, pf 1 reason, pf 1 fn, pf 4 0, pa_ 8 v.toNat] (s.count d Reg.QUE_DB_BAD 1)

/-- The index accepted: CI of a COMPLETION queue, PI of any other; a short bucket latches it (R439). -/
def acceptIndex (q : Nat) (v : Word) (s : State) : State :=
  let d := queDie q
  let n := queLocal q
  if queKind s q = 3 then s.wr d (Reg.QUE_CI n) v.toNat
  else
    let old := quePi s q
    let waiting := s.que.deferredPi.any (fun x => Nat.beq x.1 q)
    let s := s.wr d (Reg.QUE_PI n) v.toNat
    if !waiting && doorbellPasses s q then chargeDoorbell q s
    else
      let e : Nat × Word := (q, BitVec.ofNat 64 old)
      { s with que := { s.que with deferredPi := s.que.deferredPi ++ [e] } }.count d Reg.PART_DB_DEFER 1

/-- A doorbell that has reached its queue, from the owner: R361, R437, R333 in this order (DEDUCED, log 35). -/
def queueDoorbell (q fn : Nat) (v : Word) (s : State) : State :=
  let d := queDie q
  let p := quePart s q
  let bad (reason : Nat) : State := doorbellBad d q reason fn (partSealed s p) v s
  let now := if queKind s q = 3 then queCi s q else quePi s q
  let top := if queKind s q = 3 then quePi s q else queCi s q + ringEntries s q
  if !queNamed s q || !queEnabled s q then bad 1
  else if instState s d p (queInst s q) ≠ 2 then bad 5
  else if v.toNat = now then s
  else if v.toNat < now || top < v.toNat then bad 0
  else acceptIndex q v s

/-- HOST_STATUS.ATTACH of a host port: 0 DOWN, 1 LINKED, 2 ATTACHED, 3 HELD. -/
def attachOf (s : State) (port : Nat) : Nat := s.rd (portDie port) Reg.HOST_STATUS_ATTACH

/-- DOORBELL: a write of `len` bytes at doorbell `window` of the requester's BAR0. A requester that is no instance owns
no queue (R438); a port that is not ATTACHED shows no window (R510). -/
def doorbell (port fn : Nat) (pasid : Option (BitVec 20)) (window len : Nat) (v : Word) (s : State) : State :=
  let hd := portDie port
  if attachOf s port ≠ 2 then doorbellBad hd 0xFFFF 4 fn false v s
  else
    match requesterInst s port fn pasid with
    | none => doorbellBad hd 0xFFFF 2 fn false v s
    | some (p, i) =>
      match (windowsOf s p i)[window]? with
      | none => doorbellBad hd 0xFFFF 4 fn (partSealed s p) v s
      | some q =>
        if s.boot.inReset.contains (queDie q) then s
        else if len ≠ 8 then doorbellBad (queDie q) q 3 fn (partSealed s p) v s
        else queueDoorbell q fn v s

/-- DOORBELL (R333). -/
def execDoorbell (port fn : Nat) (pasid : Option (BitVec 20)) (window len : Nat) (v : Word) (s : State) :
    Host.Outcome State Fault Refusal :=
  onDie s (portDie port) (fun s => if dieUp s (portDie port) then doorbell port fn pasid window len v s else s)

/-! ### QUE_CTRL (R330, R350, R363, R447) -/

/-- Whether the ring of queue `q` may be used: 16 to 65,536 entries, homed on a half of the queue's partition, within
the backed range (R331, R350). -/
def ringOk (s : State) (q log2 : Nat) : Bool :=
  Nat.ble 4 log2 && Nat.ble log2 16 && homePart s (queBase s q) == some (quePart s q) && backed s (queBase s q)

/-- PI = CI = 0, ERROR and what the head waited for cleared; what the old indices held back is gone, with the attachments of
its head. -/
def clearQueue (q : Nat) (s : State) : State :=
  let d := queDie q
  let n := queLocal q
  let gone := s.que.exchanged.filter (fun x => Nat.beq x.queue q)
  let s := each gone (fun s x => detachIds x.attached x.step false s) s
  let s := { s with que := { s.que with
    deferredPi := s.que.deferredPi.filter (fun x => !(Nat.beq x.1 q)),
    exchanges := s.que.exchanges.filter (fun x => !(Nat.beq x.queue q)),
    exchanged := s.que.exchanged.filter (fun x => !(Nat.beq x.queue q)),
    arbs := s.que.arbs.map (forgetQueue q) } }
  let s := (s.wr d (Reg.QUE_STATE_DEPTH_WAIT n) 0).wr d (Reg.QUE_STATE_CQ_WAIT n) 0
  ((s.wr d (Reg.QUE_PI n) 0).wr d (Reg.QUE_CI n) 0).wr d (Reg.QUE_STATE_ERROR n) 0

/-- ENABLE as the write leaves it: a queue that the image does not name stays disabled (R330), and a bad ring is refused
with ERROR 2 (R350). -/
def setEnable (q : Nat) (on : Bool) (s : State) : State :=
  let d := queDie q
  let n := queLocal q
  if !on then
    let s := s.wr d (Reg.QUE_CTRL_ENABLE n) 0
    { s with que := { s.que with arbs := s.que.arbs.map (forgetQueue q) } }
  else if queEnabled s q || !queNamed s q then s
  else if ringOk s q (queLog2 s q) then s.wr d (Reg.QUE_CTRL_ENABLE n) 1
  else s.wr d (Reg.QUE_STATE_ERROR n) 2

/-- A write of QUE_CTRL[n]: a sealed partition takes it only from the warden (R447); one that would change LOG2 while the
queue is enabled is refused whole (R562, DEDUCED, log 36). RESET acts on a queue that the write leaves disabled. -/
def queCtrlWrite (d n : Nat) (src : Source) (v : Nat) (s : State) : State :=
  let q := d * 64 + n
  if queNamed s q && !wardenOk s (quePart s q) src then wardDenied d (0x300108 + 0x40 * n) src s
  else if queEnabled s q && bits v 6 2 != queLog2 s q then s
  else
    let s := ((s.wr d (Reg.QUE_CTRL_SERIAL n) (bits v 1 1)).wr d (Reg.QUE_CTRL_LOG2 n) (bits v 6 2)).wr d
      (Reg.QUE_CTRL_VECTOR n) (bits v 12 7)
    let s := if v.testBit 0 then s else setEnable q false s
    let s := if v.testBit 13 && !v.testBit 0 then clearQueue q s else s
    if v.testBit 0 then setEnable q true s else s

/-- The value that QUE_CTRL[n] reads. -/
def queCtrlValue (s : State) (d n : Nat) : Nat :=
  s.rd d (Reg.QUE_CTRL_ENABLE n) + s.rd d (Reg.QUE_CTRL_SERIAL n) * 2 + s.rd d (Reg.QUE_CTRL_LOG2 n) * 4
    + s.rd d (Reg.QUE_CTRL_VECTOR n) * 128

/-- QUE_ENABLE: QUE_CTRL[n] written with ENABLE 1 (R365). -/
def execQueEnable (d n : Nat) (src : Source) (v : Word) (s : State) : Host.Outcome State Fault Refusal :=
  onDie s d (fun s => if n < 64 then queCtrlWrite d n src (setBit v.toNat 0) s else s)

/-- QUE_RESET: QUE_CTRL[n] written as it reads, with RESET 1 (R363). -/
def execQueReset (d n : Nat) (src : Source) (s : State) : Host.Outcome State Fault Refusal :=
  onDie s d (fun s => if n < 64 then queCtrlWrite d n src (setBit (queCtrlValue s d n) 13) s else s)

end Sys2Proof.Machine
end

