-- ==== Sys2Proof/Machine/Governor.lean ====
section
/-! DEFINITION. The monitors, the energy bucket, the clock steps and the thermal trip (chapter 11), and the refill and
charging of the instance buckets (R439, R440). -/

namespace Sys2Proof.Machine

/-! ### The bucket (R401, R402) -/

/-- GOV_BUCKET: B, signed, in EU. -/
def govB (s : State) (d : Nat) : Int := toSigned 40 (s.rd d Reg.GOV_BUCKET)
def setGovB (d : Nat) (b : Int) (s : State) : State := s.wr d Reg.GOV_BUCKET (ofSigned 40 b)

/-- CAP (R401). -/
def govCap (s : State) (d : Nat) : Nat := s.rd d Reg.GOV_LIMITS_POWER_W * s.rd d Reg.GOV_CTRL_CAP_MS * 1000

/-- U_FLOOR (R410). -/
def uFloor (s : State) (d : Nat) : Int := toSigned 32 (s.rd d Reg.GOV_LIMITS_U_FLOOR)

/-- Temperature points that are WARM, a failed one among them (R428). -/
def warmPoints (s : State) (d : Nat) : Nat := s.rd d Reg.MON_TWARM ||| s.rd d Reg.MON_FAIL_POINTS
/-- Rails that are OVER, a failed monitor's among them. -/
def overRails (s : State) (d : Nat) : Nat := s.rd d Reg.MON_IOVER ||| s.rd d Reg.MON_FAIL_RAILS
/-- Points that assert STEP[j], a failed one among them. -/
def stepPoints (s : State) (d j : Nat) : Nat := s.rd d (Reg.MON_TSTEP j) ||| s.rd d Reg.MON_FAIL_POINTS

/-- HEADROOM (R402). -/
def headroom (s : State) (d : Nat) : Nat :=
  if overRails s d ≠ 0 then 0 else if warmPoints s d ≠ 0 then s.rd d Reg.GOV_CTRL_HEAD_WARM else 256

/-- BUCKET_REFILL (R401). -/
def bucketRefill (d : Nat) (s : State) : State :=
  let add := s.rd d Reg.GOV_LIMITS_POWER_W * headroom s d / 256
  setGovB d (min (govB s d + add) (govCap s d)) s

def execBucketRefill (d : Nat) (s : State) : Host.Outcome State Fault Refusal :=
  onDie s d (fun s => if dieUp s d then bucketRefill d s else s)

/-! ### Clock steps (R30, R38, R411) -/

/-- STEP[j] that are asserted. -/
def stepsOn (s : State) (d : Nat) : List Nat := [0, 1, 2, 3].filter (fun j => stepPoints s d j != 0)

/-- The slowest of the asserted steps: its CCLK code and its number. -/
def slowestStep (s : State) (d : Nat) : List Nat → Option (Nat × Nat)
  | [] => none
  | j :: l =>
    let c := s.rd d (Reg.GOV_THERM_CCLK j)
    match slowestStep s d l with
    | some (c', j') => if c < c' then some (c', j') else some (c, j)
    | none => some (c, j)

/-- The CCLK target and its source (R411): 0 CCLK_SET, 1–4 STEP[j]. -/
def clkTarget (s : State) (d : Nat) : Nat × Nat :=
  let c := s.rd d Reg.CLK_SET_CCLK_SET
  match slowestStep s d (stepsOn s d) with
  | some (c', j) => if c < c' then (c', j + 1) else (c, 0)
  | none => (c, 0)

/-- The target requested: a step starts if none is in progress and the code in force differs (R38). -/
def requestStep (d : Nat) (s : State) : State :=
  let t := clkTarget s d
  let s := (s.wr d Reg.CLK_STATUS_PENDING t.1).wr d Reg.CLK_CAUSE t.2
  if (look d s.que.clkTo).isSome || s.rd d Reg.CLK_STATUS_DIV = t.1 then s
  else { s with que := { s.que with clkTo := bind_ d t.1 s.que.clkTo } }.wr d Reg.CLK_STATUS_BUSY 1

/-- CCLK_STEP_CHANGE: the step in progress takes effect, and the latest request follows if it differs. -/
def cclkStepChange (d : Nat) (s : State) : State :=
  match look d s.que.clkTo with
  | none => s
  | some c =>
    let s := { s with que := { s.que with clkTo := unbind d s.que.clkTo } }
    let s := (s.wr d Reg.CLK_STATUS_DIV c).count d Reg.CLK_STEPS 1
    let p := s.rd d Reg.CLK_STATUS_PENDING
    if p = c then s.wr d Reg.CLK_STATUS_BUSY 0
    else { s with que := { s.que with clkTo := bind_ d p s.que.clkTo } }

def execCclkStepChange (d : Nat) (s : State) : Host.Outcome State Fault Refusal := onDie s d (cclkStepChange d)

/-- The governor sees the events as they stand: GOV_STATE and the clock target. A die without an image keeps ÷12 (R44,
R431). -/
def govRefresh (d : Nat) (s : State) : State :=
  let steps := (stepsOn s d).foldl (fun a j => a + 2 ^ j) 0
  let s := s.wr d Reg.GOV_STATE_OVER (if overRails s d = 0 then 0 else 1)
  let s := (s.wr d Reg.GOV_STATE_HEADROOM (headroom s d)).wr d Reg.GOV_STATE_STEPS steps
  if s.rd d Reg.GOV_LIMITS_POWER_W = 0 then s else requestStep d s

/-! ### Monitors (R398–R400, R428, R430) -/

/-- A monitor's history, empty as new. -/
def monHist (s : State) (d i : Nat) : MonHist :=
  (s.que.monitors.find? (fun m => Nat.beq m.die d && Nat.beq m.i i)).getD ⟨d, i, [], 0, [], [], false⟩

def putMon (m : MonHist) (s : State) : State :=
  let l := putWhere (fun x => Nat.beq x.die m.die && Nat.beq x.i m.i) m s.que.monitors
  { s with que := { s.que with monitors := l } }

/-- FILTER_N as it acts: 1, 3, 5 or 7 (DEDUCED, log 37). -/
def filterN (s : State) (d i : Nat) : Nat :=
  let n := s.rd d (Reg.MON_CFG_N i)
  if n < 2 then 1 else if n < 4 then 3 else if n < 6 then 5 else 7

/-- FILTER_K as it acts: 1 to FILTER_N. -/
def filterK (s : State) (d i : Nat) : Nat := max 1 (min (s.rd d (Reg.MON_CFG_K i)) (filterN s d i))

/-- Whether `k` of the last `n` codes satisfy a test. -/
def kOfN (s : State) (m : MonHist) (f : Nat → Bool) : Bool :=
  Nat.ble (filterK s m.die m.i) (((m.codes.take (filterN s m.die m.i)).filter (fun c => f c.toNat)).length)

/-- An event's next state from its two counts (R400, Table GOV-4); where both are met, as K below half of N allows, it stays (DESIGN
CHOICE, log 37). -/
def nextEvent (now asserts clears : Bool) : Bool := if asserts && !clears then true else if clears && !asserts then false else now

/-- An assertion counted and recorded (R430): one record for each event of a monitor a second, with the assertions since
the last. -/
def monEvent (m : MonHist) (ev code : Nat) (s : State) : State :=
  let d := m.die
  let s := s.count d Reg.MON_EVENTS 1
  let m := monHist s d m.i
  let n := SMap.get 0 m.since ev + 1
  let due := match look ev m.recorded with
    | some t => Nat.ble (t + oneSecond) (s.rtime d)
    | none => true
  if due then
    let s := putMon { m with recorded := bind_ ev (s.rtime d) m.recorded, since := SMap.set 0 m.since ev 0 } s
    emit d 5 0x082 0 false [pf 2 m.i, pf 1 ev, pf 1 code, pa_ 4 n] s
  else putMon { m with since := SMap.set 0 m.since ev n } s

/-- A bit of a monitor register moved to its event's next state; an assertion is counted. -/
def moveEvent (m : MonHist) (f : Fld) (bit ev : Nat) (asserts clears : Bool) (s : State) : State :=
  let now := s.rdBit m.die f bit
  let nxt := nextEvent now asserts clears
  let s := s.wrBit m.die f bit nxt
  if nxt && !now then monEvent m ev ((m.codes.head?.map (·.toNat)).getD 0) s else s

/-- The trip of a die (R413): the record, the restart code, and the die reset. -/
def tripDie (d point code : Nat) (s : State) : State :=
  let restart := if s.rd d Reg.GOV_LIMITS_POWER_W = 0 then 190 else s.rd d (Reg.GOV_THERM_TEMP 0)
  let s := emit d 4 0x081 0 false [pf 1 point, pf 1 code, pf 6 0] s
  let s := dieReset d 5 (s.wr d Reg.GOV_TRIP_RESTART restart)
  let s := { s with boot := { s.boot with tripWait := addNat s.boot.tripWait d } }
  ((s.wr d Reg.CLK_STATUS_STOPPED 1).wr d Reg.CLK_CAUSE 5).wr d Reg.GOV_STATE_TRIP 1

/-- Events of a voltage window; a failed one is in its window (R428). -/
def voltEvents (m : MonHist) (lo hi : Nat) (s : State) : State :=
  let inside := m.failed || kOfN s m (fun c => Nat.ble lo c && Nat.ble c hi)
  let low := !m.failed && kOfN s m (fun c => Nat.blt c lo)
  let high := !m.failed && kOfN s m (fun c => Nat.blt hi c)
  let s := moveEvent m (Reg.MON_VLOW (m.i / 64)) (m.i % 64) 0 low inside s
  moveEvent m (Reg.MON_VHIGH (m.i / 64)) (m.i % 64) 1 high inside s

/-- Events of a temperature point but TRIP. -/
def tempEvents (m : MonHist) (lo hi : Nat) (s : State) : State :=
  let pt := m.i - 320
  let s := moveEvent m Reg.MON_TWARM pt 2 (kOfN s m (fun c => Nat.blt hi c)) (kOfN s m (fun c => Nat.blt c lo)) s
  if s.rd m.die Reg.GOV_LIMITS_POWER_W = 0 then s
  else each [0, 1, 2, 3] (fun s j =>
    let t := s.rd m.die (Reg.GOV_THERM_TEMP j)
    moveEvent m (Reg.MON_TSTEP j) pt (3 + j) (kOfN s m (fun c => Nat.ble t c)) (kOfN s m (fun c => Nat.blt c (t - 8))) s) s

/-- Failed temperature points of a die. -/
def failedPoints (s : State) (d : Nat) : Nat := popCount 32 (s.rd d Reg.MON_FAIL_POINTS)

/-- A third failed check in a row: the monitor is failed until die reset (R428). -/
def monFail (m : MonHist) (s : State) : State :=
  let d := m.die
  let s := emit d 5 0x083 1 false [pf 2 m.i, pf 6 0] (putMon { m with failed := true } s)
  if m.i < 320 then s.wr d Reg.MON_FAIL_VOLT 1
  else if m.i < 352 then s.wrBit d Reg.MON_FAIL_POINTS (m.i - 320) true
  else s.wrBit d Reg.MON_FAIL_RAILS (m.i - 352) true

/-- MONITOR_SAMPLE: monitor `i` of die `d` latches code `code`; `refOk` is its reference check. Monitors sample while their
clocks run: through the die reset of a TRIP (R413, R432), and not after a PLL loss (R41). -/
def monitorSample (d i : Nat) (code : BitVec 8) (refOk : Bool) (s : State) : State :=
  let m := monHist s d i
  let m := { m with codes := (code :: m.codes).take 7, bad := if refOk then 0 else m.bad + 1 }
  let s := if Nat.ble 3 m.bad && !m.failed then monFail m s else putMon m s
  let m := monHist s d i
  let lo := s.rd d (Reg.MON_CFG_LOW i)
  let hi := s.rd d (Reg.MON_CFG_HIGH i)
  let s :=
    if i < 320 then voltEvents m lo hi s
    else if m.failed then s
    else if i < 352 then tempEvents m lo hi s
    else moveEvent m Reg.MON_IOVER (i - 352) 7 (kOfN s m (fun c => Nat.blt hi c)) (kOfN s m (fun c => Nat.blt c lo)) s
  let s := govRefresh d s
  let trip := Nat.ble 320 i && Nat.blt i 352 && !m.failed && kOfN s m (fun c => Nat.ble 230 c)
  let s := if trip then s.wrBit d Reg.MON_TTRIP (i - 320) true else s
  if s.boot.inReset.contains d then s
  else if trip then tripDie d (i - 320) code.toNat s
  else if 16 ≤ failedPoints s d then tripDie d 0xFF code.toNat s
  else s

/-- An uncorrectable error in MON_CFG[i]: the monitor fails, and with 16 failed points the die trips (R428, R577). -/
def monCfgError (d i : Nat) (s : State) : State :=
  let m := monHist s d i
  if i < 360 && !m.failed then
    let s := govRefresh d (monFail m s)
    if !s.boot.inReset.contains d && Nat.ble 16 (failedPoints s d) then
      tripDie d 0xFF ((m.codes.head?.map (·.toNat)).getD 0) s
    else s
  else s

def execMonitorSample (d i : Nat) (code : BitVec 8) (refOk : Bool) (s : State) : Host.Outcome State Fault Refusal :=
  onDie s d (fun s => if i < 360 && clocked s d then monitorSample d i code refOk s else s)

/-- Whether every temperature point last read below the restart code. -/
def belowRestart (s : State) (d : Nat) : Bool :=
  s.que.monitors.all (fun m => !(Nat.beq m.die d && Nat.ble 320 m.i && Nat.blt m.i 352)
    || decide (((m.codes.head?.map (·.toNat)).getD 0) < s.rd d Reg.GOV_TRIP_RESTART))

/-- TRIP_RESTART (R413): the 100 ms are over; the die may take stage 3. -/
def tripRestart (d : Nat) (s : State) : State :=
  if s.boot.tripWait.contains d && belowRestart s d then
    let s := { s with boot := { s.boot with tripWait := delNat s.boot.tripWait d } }
    ((s.wr d Reg.CLK_STATUS_STOPPED 0).wr d Reg.CLK_CAUSE 0).wr d Reg.GOV_STATE_TRIP 0
  else s

def execTripRestart (d : Nat) (s : State) : Host.Outcome State Fault Refusal := onDie s d (tripRestart d)

/-! ### Instance buckets (R439, R440) -/

/-- Instances with a bucket on die `d`: partition and instance. -/
def bucketInsts (s : State) (d : Nat) : List (Nat × Nat) :=
  ((imgParts s).filter (fun p => dieIn s p d)).flatMap (fun p => (instIds s p).map (fun i => (p, i)))

/-- One bucket refilled for 1 µs, up to its capacity. -/
def refillBucket (d p i kind : Nat) (s : State) : State :=
  if bucketRate s p i kind = 0 then s
  else setBucket d p i kind (min (bucketLevel s d p i kind + refillOf s p i kind) (bucketCap s p i kind)) s

/-- INSTANCE_BUCKET_REFILL: every bucket of the die, then the doorbells that it held back. -/
def instanceBucketRefill (d : Nat) (s : State) : State :=
  let s := each (bucketInsts s d) (fun s x => each [0, 1, 2, 3, 4] (fun s k => refillBucket d x.1 x.2 k s) s) s
  each (List.range 64) (fun s n => releaseDoorbells (d * 64 + n) s.que.deferredPi.length s) s

def execInstanceBucketRefill (d : Nat) (s : State) : Host.Outcome State Fault Refusal :=
  onDie s d (fun s => if dieUp s d then instanceBucketRefill d s else s)

/-- The queues of die `d` that are the instance's in slot `j`. -/
def slotQueues (s : State) (d j : Nat) : List Nat :=
  ((List.range 64).map (d * 64 + ·)).filter (fun q => Nat.beq (instSlot s d (quePart s q) (queInst s q)) j)

/-- Sectors counted for them and not yet reported (R440): all, and those whose home is another die. -/
def countedOf (s : State) (d j : Nat) : Nat × Nat :=
  ((slotQueues s d j).foldl (fun a q => a + SMap.get 0 s.que.sectors (2 * q)) 0,
    (slotQueues s d j).foldl (fun a q => a + SMap.get 0 s.que.sectors (2 * q + 1)) 0)

/-- SECTOR_COUNT_REPORT (R440): the clusters and the movers report to the queue block of die `d` what they have counted for the
queues of the instance in slot `j`: a report of another count is none of theirs (log 58). -/
def sectorCountReport (d j sectors remote : Nat) (s : State) : State :=
  if (sectors, remote) = countedOf s d j then each (slotQueues s d j) (fun s q => reportSectors q s) s else s

def execSectorCountReport (d j sectors remote : Nat) (s : State) : Host.Outcome State Fault Refusal :=
  onDie s d (fun s => if j < 64 then sectorCountReport d j sectors remote s else s)

end Sys2Proof.Machine
end

