-- ==== Sys2Proof/Machine/Arbiter.lean ====
section
/-! DEFINITION. The arbiter and the energy gate (R340, R344, R374, R405–R410, R417): which item of a die is dispatched,
and what its dispatch does. -/

namespace Sys2Proof.Machine

/-! ### The head of a queue (R332, R334, R363) -/

/-- The item at CI of a queue: its descriptor's bytes. -/
structure Head where
  q : Nat
  index : Word
  bytes : List Byte
  deriving DecidableEq, Repr

/-- Whether a queue has an item that its partition and instance let be dispatched (R70, R117, R340, R437, R531). -/
def queRuns (s : State) (q : Nat) : Bool :=
  let d := queDie q
  let p := quePart s q
  queNamed s q && queEnabled s q && queKind s q != 3 && s.rd d (Reg.QUE_STATE_ERROR (queLocal q)) == 0
    && partState s d p == 1 && !s.prt.faulted.contains p && instState s d p (queInst s q) == 2
    && Nat.blt (queCi s q) (visPi s q) && (look d s.boot.dieHold).isNone

/-- What a read of the head gives. -/
inductive HeadRead where
  | waits
  /-- Poisoned or refused: QUE_STATE.ERROR. -/
  | bad (err : Nat)
  | ok (h : Head)
  deriving DecidableEq, Repr

/-- The descriptor read through the unified cache, and the state after (R331). -/
def readHead (q : Nat) (s : State) : HeadRead × State :=
  let at_ := queBase s q + queCi s q % ringEntries s q * 64
  match accBytes (queBy s q) 3 at_ 64 s with
  | none => (.waits, s)
  | some (none, s) => (.bad 2, s)
  | some (some (_, true), s) => (.bad 1, s)
  | some (some (b, false), s) => (.ok ⟨q, BitVec.ofNat 64 (queCi s q), b⟩, s)

/-- A queue whose descriptor cannot be read enters ERROR, with its record (R363). -/
def queError (q err : Nat) (s : State) : State :=
  let d := queDie q
  let s := s.wr d (Reg.QUE_STATE_ERROR (queLocal q)) err
  emit d 2 0x071 0 (partSealed s (quePart s q)) [pf 2 q, pf 6 0, pa_ 8 (queCi s q)] s

def Head.flags (h : Head) : Nat := leAt h.bytes 1 1
def Head.cqe (h : Head) : Bool := h.flags.testBit 2
def Head.irq (h : Head) : Bool := h.flags.testBit 3
def Head.tag (h : Head) : Nat := leAt h.bytes 6 2
def Head.index32 (h : Head) : Nat := h.index.toNat % 2 ^ 32

/-- The item's energy class (R335). -/
def Head.eclass (s : State) (h : Head) : Nat :=
  max (leAt h.bytes 2 1 % 16) (s.rd (queDie h.q) (Reg.QUE_CFG_ECLASS (queLocal h.q)))

/-- E (R403). -/
def Head.energy (s : State) (h : Head) : Nat :=
  min (s.rd (queDie h.q) (Reg.GOV_ECLASS (h.eclass s))) (govCap s (queDie h.q))

/-- The context of an item: its byte in the descriptor of its queue's kind. -/
def Head.ctx (s : State) (h : Head) : Nat :=
  match queKind s h.q with
  | 0 => leAt h.bytes 0x0B 1
  | 1 => leAt h.bytes 0x05 1
  | _ => leAt h.bytes 0x1C 1

/-- Whether the item's context is killed (R191). -/
def Head.killed (s : State) (h : Head) : Bool := ctxKilled s (quePart s h.q) (queInst s h.q) (h.ctx s)

/-! ### LAUNCH descriptors (Table TRP-1, R193) -/

def Head.rows (h : Head) : Nat := 8 * (leAt h.bytes 3 1 % 16 + 1)
def Head.lsKib (h : Head) : Nat := 256 * leAt h.bytes 4 1
def Head.lsTroupe (h : Head) : Nat := leAt h.bytes 5 1
def Head.seqField (h : Head) : Nat := leAt h.bytes 8 2
def Head.seq (h : Head) : Option Nat := if h.seqField = 0xFFFF then none else some (h.seqField % 2 ^ 14)
def Head.local_ (h : Head) : Bool := (leAt h.bytes 0x0A 1).testBit 0
def Head.step (h : Head) : BitVec 32 := BitVec.ofNat 32 (leAt h.bytes 0x0C 4)
def Head.entry (h : Head) : Nat := leAt h.bytes 0x10 8
def Head.ntroupe (h : Head) : Nat := leAt h.bytes 0x20 4
/-- The die that PLACE[0] keeps the launch to. -/
def Head.localDie (h : Head) : Option Nat := if h.local_ then some (queDie h.q) else none

/-- The fields of R193 that need only the descriptor. -/
def launchFields (h : Head) : Bool :=
  Nat.beq (leAt h.bytes 0 1) 0 && Nat.blt (h.flags) 16 && Nat.blt (leAt h.bytes 2 1) 16 && Nat.blt (leAt h.bytes 3 1) 16
    && Nat.ble (leAt h.bytes 4 1) 5 && Nat.ble h.lsTroupe 80 && (Nat.blt h.seqField 0x4000 || Nat.beq h.seqField 0xFFFF)
    && Nat.blt (leAt h.bytes 0x0A 1) 2 && Nat.ble 1 h.ntroupe && Nat.ble h.ntroupe 16777215 && Nat.beq (h.entry % 8) 0
    && Nat.blt h.entry (2 ^ 48)

/-- R193: the descriptor is valid, its placement set is not empty, and O is not 0 everywhere. -/
def launchValid (s : State) (h : Head) : Bool :=
  let p := quePart s h.q
  let i := queInst s h.q
  let c := queClass s h.q
  launchFields h && (placementSet s p i c h.rows h.lsKib h.localDie).any (fun k =>
    Nat.blt 0 (occupancyAt s p i c h.rows h.lsKib h.lsTroupe h.localDie k))

/-- The seven INLINE words. -/
def inlineWords (h : Head) : List Lane :=
  [0, 1, 2, 3, 4, 5, 6].map (fun j => BitVec.ofNat 32 (leAt h.bytes (0x24 + 4 * j) 4))

/-- The launch that a valid descriptor makes, attached to `ids`. -/
def mkLaunch (s : State) (h : Head) (ids : List Nat) : Launch :=
  { queue := h.q, index := h.index, tag := BitVec.ofNat 16 h.tag, cqe := h.cqe, irq := h.irq, part := quePart s h.q,
    inst := queInst s h.q, ctx := h.ctx s, cls := queClass s h.q, rows := h.rows, lsKib := h.lsKib,
    lsTroupe := h.lsTroupe, seq := h.seq, local_ := h.local_, step := h.step, entry := BitVec.ofNat 64 h.entry,
    args := BitVec.ofNat 64 (leAt h.bytes 0x18 8), ntroupe := h.ntroupe, inline := inlineWords h,
    oldest := if h.flags.testBit 0 then h.flags.testBit 1 else (modes s (quePart s h.q)).testBit 2, placed := [],
    ended := 0, attached := ids, resident := [], killed := false, lost := false }

/-- Launches of a die's queues dispatched and not retired (QUE_LAUNCH_OUT). -/
def launchesOut (s : State) (d : Nat) : Nat := (s.core.launches.filter (fun l => Nat.beq (queDie l.queue) d)).length

/-! ### The step check at the head (R340, R344, R345) -/

/-- What a launch's sequence says of its dispatch. -/
inductive HeadSeq where
  /-- It may go; `ids` are the sequences to attach to. -/
  | go (ids : List Nat)
  /-- It may go; its exchange has attached it. -/
  | attached (ids : List Nat)
  | fault (code : Nat)
  | held
  /-- Its sequence lives on another die, and no exchange has completed. -/
  | remote
  deriving DecidableEq, Repr

def sameHead (h : Head) (x : Exchange) : Bool := Nat.beq x.queue h.q && x.index == h.index

/-- The step check of a launch's head. A launch that will not run has none. -/
def headSeq (s : State) (h : Head) : HeadSeq :=
  match h.seq with
  | none => .go []
  | some id =>
    if h.killed s || !launchValid s h then .go []
    else if seqDie id = queDie h.q then
      match launchCheck s (quePart s h.q) (queInst s h.q) id h.step with
      | .ok ids => .go ids
      | .held => .held
      | .fault c => .fault c
    else
      match s.que.exchanged.find? (sameHead h) with
      | some x => .attached x.attached
      | none => .remote

/-- The step check of a STEP-OPEN at the head of its queue (R345, R355). -/
def openHeld (s : State) (h : Head) : Bool :=
  let id := leAt h.bytes 4 2
  Nat.beq (leAt h.bytes 3 1) 3 &&
    (match findSeq s id with
      | some x => Nat.beq x.part (quePart s h.q) && Nat.beq x.inst (queInst s h.q) &&
          stepCase (stepDepth s x.part) x (BitVec.ofNat 32 (leAt h.bytes 8 4))
            (if leAt h.bytes 0x0C 4 = 0 then x.append else leAt h.bytes 0x0C 4) == .held
      | none => false)

/-- Whether the exchange of the head has found it held, and the sequence engine of the other die still holds it (R344, R345). -/
def remoteHeld (s : State) (h : Head) : Bool :=
  headSeq s h == .remote && Nat.beq (s.rd (queDie h.q) (Reg.QUE_STATE_DEPTH_WAIT (queLocal h.q))) 1
    && launchCheck s (quePart s h.q) (queInst s h.q) (h.seq.getD 0) h.step == .held

/-- Whether R345 holds the head. -/
def depthHeld (s : State) (h : Head) : Bool :=
  match queKind s h.q with
  | 0 => headSeq s h == .held || remoteHeld s h
  | 2 => openHeld s h
  | _ => false

/-! ### Movers (R374) -/

/-- The movers that an item of a partition may take on a die. -/
def moverSet (s : State) (d p : Nat) : List Nat :=
  if halfIn s d 0 p && halfIn s d 1 p then List.range 32
  else (List.range 16).map (fun m => m + 16 * partSide s d p)

/-- The mover of a die with an item. -/
def findMover (s : State) (d m : Nat) : Option Mover := s.que.movers.find? (fun x => Nat.beq x.die d && Nat.beq x.m m)

/-- The lowest-numbered free mover of the set. -/
def freeMover (s : State) (d p : Nat) : Option Nat := (moverSet s d p).find? (fun m => (findMover s d m).isNone)

/-! ### Eligibility (R340, R374, R405, R417, R439) -/

/-- Whether the completion queue has a place for the item (R341). A queue that names none, or a disabled one, has none
(DEDUCED, log 15). -/
def cqRoom (s : State) (h : Head) : Bool :=
  let cq := cqOf s h.q
  !h.cqe || (Nat.blt cq (64 * dieCount s.orderCode) && queNamed s cq && queEnabled s cq && Nat.blt 0 (cqFree s cq))

/-- Everything but the step check. -/
def eligibleBut (s : State) (h : Head) : Bool :=
  let d := queDie h.q
  let p := quePart s h.q
  let i := queInst s h.q
  let lim := if queClass s h.q = 0 then 256 else 240
  cqRoom s h
    && (s.rd d (Reg.QUE_CTRL_SERIAL (queLocal h.q)) == 0 || SMap.get 0 s.que.itemsOut h.q == 0)
    && (queKind s h.q != 0 || Nat.blt (launchesOut s d) lim)
    && (queKind s h.q != 1 || (freeMover s d p).isSome)
    && bucketOpen s d p i 2 && bucketOpen s d p i 3 && bucketOpen s d p i 4

/-- R340: the head may be dispatched. -/
def eligible (s : State) (h : Head) : Bool :=
  eligibleBut s h && !depthHeld s h && (queKind s h.q != 0 || headSeq s h != .remote)

/-- The heads of a die that may be read now. -/
def headsOf (s : State) (d : Nat) : List Head :=
  ((List.range 64).filter (fun n => queRuns s (d * 64 + n))).filterMap (fun n =>
    match (readHead (d * 64 + n) s).1 with
    | .ok h => some h
    | _ => none)

/-- Queues whose head cannot be read enter ERROR. -/
def failHeads (d : Nat) (s : State) : State :=
  each ((List.range 64).filter (fun n => queRuns s (d * 64 + n))) (fun s n =>
    match readHead (d * 64 + n) s with
    | (.bad e, s') => queError (d * 64 + n) e s'
    | _ => s) s

/-- What a head waits for, noted: each wait counts once. -/
def noteWaits (h : Head) (s : State) : State :=
  let d := queDie h.q
  let n := queLocal h.q
  let full := !cqRoom s h
  let held := depthHeld s h
  let s := if full && s.rd d (Reg.QUE_STATE_CQ_WAIT n) = 0 then s.count d Reg.QUE_CQ_STALL 1 else s
  let s := if held && s.rd d (Reg.QUE_STATE_DEPTH_WAIT n) = 0 then s.count d Reg.SEQ_DEPTH_WAITS 1 else s
  (s.wr d (Reg.QUE_STATE_CQ_WAIT n) (if full then 1 else 0)).wr d (Reg.QUE_STATE_DEPTH_WAIT n) (if held then 1 else 0)

/-- An exchange started for a launch whose sequence lives on another die: 16 at once (Table SEQ-9). -/
def startExchange (h : Head) (s : State) : State :=
  let now := (s.que.exchanges.filter (fun x => Nat.beq (queDie x.queue) (queDie h.q))).length
  if queKind s h.q = 0 && headSeq s h == .remote && !remoteHeld s h && eligibleBut s h && !s.que.exchanges.any (sameHead h)
      && decide (now < 16) then
    let x : Exchange := ⟨h.q, h.index, h.step, []⟩
    { s with que := { s.que with exchanges := s.que.exchanges ++ [x] } }
  else s

/-! ### Dispatch -/

/-- The charge of a dispatched item (R407, R410, Table PART-3): class U never takes B below U_FLOOR, and what it would
take is forgiven. -/
def chargeItem (h : Head) (e : Nat) (s : State) : State :=
  let d := queDie h.q
  let s := charge d (quePart s h.q) (queInst s h.q) 4 e s
  let b := govB s d
  if queClass s h.q = 0 then
    let nb := max (b - e) (min (uFloor s d) b)
    (setGovB d nb s).count d Reg.GOV_U_FORGIVEN (nb - (b - e)).toNat
  else setGovB d (b - e) s

/-- The item leaves its ring: CI advances, its completion entry is reserved (R340), and it waits for nothing. -/
def takeItem (h : Head) (s : State) : State :=
  let d := queDie h.q
  let n := queLocal h.q
  let s := (s.wr d (Reg.QUE_STATE_CQ_WAIT n) 0).wr d (Reg.QUE_STATE_DEPTH_WAIT n) 0
  let s := s.wr d (Reg.QUE_CI n) (h.index.toNat + 1)
  { s with que := { s.que with
      itemsOut := raise_ s.que.itemsOut h.q,
      resv := if h.cqe then raise_ s.que.resv (cqOf s h.q) else s.que.resv,
      exchanged := s.que.exchanged.filter (fun x => !sameHead h x) } }

/-- The item completes at once. -/
def finishHead (h : Head) (status info : Nat) (s : State) : State :=
  completeItem h.q h.tag status (queKind s h.q) h.index32 info h.cqe h.irq s

/-- RTIME[41:10] of the queue's die. -/
def headTime (s : State) (h : Head) : Nat := rtimeInfo s (queDie h.q)

/-- A launch that faults at its dispatch: its context is killed, and it completes KILLED (R202, R362). -/
def launchFault (h : Head) (code : Nat) (s : State) : State :=
  let s := itemFault h.q h.tag (h.ctx s) h.index32 code h.entry 0 s
  finishHead h 1 (headTime s h) s

/-- A dispatched LAUNCH item. -/
def dispatchLaunch (h : Head) (sq : HeadSeq) (s : State) : State :=
  if h.killed s then finishHead h 1 (headTime s h) s
  else if !launchValid s h then launchFault h 0x08 s
  else
    let put (ids : List Nat) (s : State) : State :=
      { s with core := { s.core with launches := s.core.launches ++ [mkLaunch s h ids] } }
    match sq with
    | .go ids => put ids (attachAll (quePart s h.q) ids h.step s)
    | .attached ids => put ids s
    | .fault c => launchFault h c s
    | _ => s

/-- The fields of a MOVE descriptor (R375 step 1). -/
def moveFields (h : Head) : Bool :=
  let f := h.flags
  Nat.beq (bits f 1 0) 0 && Nat.beq (bits f 7 5) 0 && Nat.blt (leAt h.bytes 2 1) 16 && Nat.blt (leAt h.bytes 3 1) 64
    && Nat.blt (leAt h.bytes 4 1) 128 && Nat.beq (leAt h.bytes 0x3A 6) 0

/-- A dispatched MOVE item: the checks of R375, then the mover starts at PC. A descriptor of another kind is BAD-KIND
(Table SEQ-5, DEDUCED, log 38). -/
def dispatchMove (h : Head) (s : State) : State :=
  let d := queDie h.q
  let p := quePart s h.q
  let i := queInst s h.q
  let slot := leAt h.bytes 3 1
  if h.killed s then finishHead h 1 (headTime s h) s
  else if leAt h.bytes 0 1 ≠ 1 then finishHead h 2 (headTime s h) s
  else if !moveFields h then finishHead h 0x0E (headTime s h) s
  else if s.rd d (Reg.MOV_SLOT_OWNED slot) = 0 || s.rd d (Reg.MOV_SLOT_PART slot) ≠ p
      || s.rd d (Reg.MOV_SLOT_INST slot) ≠ i then finishHead h 0x0D (headTime s h) s
  else if h.flags.testBit 4 && leAt h.bytes 0x38 2 != s.rd d (Reg.MOV_SLOT_GEN slot) then
    finishHead h 0x0C (headTime s h) s
  else
    match freeMover s d p with
    | none => s
    | some m =>
      let mr := [0, 1, 2, 3, 4, 5].map (fun j => BitVec.ofNat 64 (leAt h.bytes (8 + 8 * j) 8))
      let x : Mover :=
        { die := d, m := m, state := .running, queue := h.q, index := h.index, tag := BitVec.ofNat 16 h.tag, cqe := h.cqe,
          irq := h.irq, part := p, inst := i, ctx := h.ctx s, cls := queClass s h.q, slot := slot, pc := leAt h.bytes 4 1,
          mregs := mr ++ [0, 0], gen := s.rd d (Reg.MOV_SLOT_GEN slot), changed := false, latched := none, cursor := 0,
          checked := false, stopped := false }
      { s with que := { s.que with movers := s.que.movers ++ [x] } }

/-- A SEQCTL descriptor's item (Table SEQ-2). -/
def seqItemOf (h : Head) : SeqItem :=
  let f := h.flags
  { queue := h.q, index := h.index, seq := leAt h.bytes 4 2 % 2 ^ 14, step := BitVec.ofNat 32 (leAt h.bytes 8 4),
    arg0 := BitVec.ofNat 32 (leAt h.bytes 0x0C 4), arg1 := BitVec.ofNat 32 (leAt h.bytes 0x18 4),
    addr := BitVec.ofNat 64 (leAt h.bytes 0x10 8), ctx := leAt h.bytes 0x1C 1, tag := BitVec.ofNat 16 h.tag, cqe := h.cqe,
    irq := h.irq,
    reservedSet := decide (0x4000 ≤ leAt h.bytes 4 2) || decide (bits f 1 0 ≠ 0) || decide (bits f 7 4 ≠ 0)
      || decide (16 ≤ leAt h.bytes 2 1) || decide (ofLe (h.bytes.drop 0x1D) ≠ 0) }

/-- A dispatched SEQCTL item goes to the sequence engine; one of another kind, or with no OP of Table SEQ-3, completes
at once. -/
def dispatchSeqctl (h : Head) (s : State) : State :=
  let op := leAt h.bytes 3 1
  let (k, s') := s.free
  let info := (Config.freeWord k).toNat % 2 ^ 32
  if leAt h.bytes 0 1 ≠ 2 then finishHead h 2 info s'
  else if op = 0 || 12 ≤ op then finishHead h 3 info s'
  else { s with que := { s.que with items := s.que.items ++ [(op, seqItemOf h)] } }

/-- An item dispatched: read, charged, taken, and started. A launch that an exchange attached, and whose context a kill has reached
since, detaches and taints its sequences (R357). -/
def dispatch (h : Head) (s : State) : State :=
  let e := h.energy s
  let sq := headSeq s h
  let undone := if sq == .go [] then (s.que.exchanged.filter (sameHead h)).flatMap (·.attached) else []
  let s := takeItem h (chargeItem h e (readHead h.q s).2)
  let s := detachIds undone h.step (h.killed s) s
  match queKind s h.q with
  | 0 => dispatchLaunch h sq s
  | 1 => dispatchMove h s
  | _ => dispatchSeqctl h s

/-! ### The arbiter's state -/

def arbOf (s : State) (d : Nat) : Arb :=
  (s.que.arbs.find? (fun a => Nat.beq a.die d)).getD ⟨d, none, 0, [], [], [], [], [], none⟩

def putArb (a : Arb) (s : State) : State :=
  { s with que := { s.que with arbs := putWhere (fun x => Nat.beq x.die a.die) a s.que.arbs } }

/-- GOV_STATE's view of the hold. -/
def showHold (d : Nat) (s : State) : State :=
  match (arbOf s d).held with
  | some n => (s.wr d Reg.GOV_STATE_HOLDING 1).wr d Reg.GOV_STATE_HOLD_QUEUE (d * 64 + n)
  | none => (s.wr d Reg.GOV_STATE_HOLDING 0).wr d Reg.GOV_STATE_HOLD_QUEUE 0

/-- Refusals and the hold of queues that have no item to dispatch any more forgotten (R424). -/
def pruneArb (d : Nat) (s : State) : State :=
  let a := arbOf s d
  let ok (n : Nat) : Bool := queRuns s (d * 64 + n) &&
    (match (readHead (d * 64 + n) s).1 with
      | .ok h => !h.killed s
      | _ => true)
  let a := { a with refused := a.refused.filter (fun x => ok x.1), held := a.held.filter ok }
  if s.que.arbs.any (fun x => Nat.beq x.die d) then putArb a s else s

/-- The oldest refused item that has waited WAIT_US becomes the held item, if no item is held (R409). -/
def takeHold (d : Nat) (s : State) : State :=
  let a := arbOf s d
  let now := s.rtime d
  let waitUs := s.rd d Reg.GOV_CTRL_WAIT_US
  let due := a.refused.filter (fun x => Nat.ble (x.2 + waitUs * 1000) now)
  let oldest := due.foldl (fun (b : Option (Nat × Nat)) x =>
    match b with
    | some y => if x.2 < y.2 then some x else some y
    | none => some x) none
  match a.held, oldest with
  | none, some (n, t) =>
    match (readHead (d * 64 + n) s).1 with
    | .ok h =>
      let s := putArb { a with held := some n } s
      let s := s.count d Reg.GOV_HOLDS 1
      emit d 4 0x080 0 (partSealed s (quePart s h.q))
        [pf 2 h.q, pf 1 (h.eclass s), pf 1 (queClass s h.q), pa_ 4 (h.energy s), pa_ 8 (ofSigned 64 (govB s d)),
         pa_ 4 ((now - t) / 1000), pf 4 0] s
    | _ => s
  | _, _ => s

/-- GOV_HOLD (R409). -/
def govHold (d : Nat) (s : State) : State := showHold d (takeHold d (pruneArb d s))

def execGovHold (d : Nat) (s : State) : Host.Outcome State Fault Refusal :=
  onDie s d (fun s => if dieUp s d then govHold d s else s)

/-! ### DWRR (R406) -/

/-- The instance slot of a queue on its die. -/
def slotOf (s : State) (q : Nat) : Nat := instSlot s (queDie q) (quePart s q) (queInst s q)

/-- Slots that have a head in the list, ascending. -/
def slotsOf (s : State) (hs : List Head) : List Nat :=
  (List.range 64).filter (fun j => hs.any (fun h => Nat.beq (slotOf s h.q) j))

/-- The entry of a rising list after `n`, going round. -/
def nextIn (n : Nat) (l : List Nat) : Nat := ((l.find? (fun m => Nat.blt n m)).orElse (fun _ => l.head?)).getD 0

/-- DWRR over the entries of `l`: the entry served, the pointer and the deficits. At `ptr` an entry is served while its
deficit is at least 16; moving on adds the weight of the entry reached. -/
def dwrr (weight : Nat → Nat) (l : List Nat) : Nat → Nat → SMap Nat → Nat × SMap Nat
  | 0, ptr, ds => (ptr, ds)
  | fuel + 1, ptr, ds =>
    if l.contains ptr && Nat.ble 16 (SMap.get 0 ds ptr) then (ptr, ds)
    else
      let j := nextIn ptr l
      dwrr weight l fuel j (SMap.set 0 ds j (SMap.get 0 ds j + max 1 (weight j)))

/-- The weight of the instance in a slot. -/
def slotWeight (s : State) (d j : Nat) : Nat :=
  match halfPart s d (j / 32) with
  | some p => qosField s p (j % 32) 1 1
  | none => 1

/-- Heads of one instance in its queue DWRR order, from the queue served on (R408). -/
def fromQueue (n : Nat) (hs : List Head) : List Head :=
  hs.filter (fun h => Nat.ble n (queLocal h.q)) ++ hs.filter (fun h => Nat.blt (queLocal h.q) n)

/-- What one visit of an instance comes to. -/
inductive Visit where
  | grant (h : Head) (cheaper : Bool) (a : Arb)
  | pass (refused : Head) (a : Arb)
  deriving DecidableEq, Repr

/-- One visit of the instance in slot `j` for class `c`: its queue DWRR chooses an item; if that fails the gate, the
first other that passes goes (R407, R408). -/
def visit (s : State) (d c j : Nat) (hs : List Head) (a : Arb) : Option Visit :=
  let mine := hs.filter (fun h => Nat.beq (slotOf s h.q) j)
  let locals := mine.map (fun h => queLocal h.q)
  let key := c * 64 + j
  let (n, ds) := dwrr (fun n => s.rd d (Reg.QUE_CFG_WEIGHT n)) locals (17 * locals.length + 1) (SMap.get 0 a.quePtr key)
    a.queDef
  match fromQueue n mine with
  | [] => none
  | h :: rest =>
    let a := { a with quePtr := SMap.set 0 a.quePtr key n, queDef := ds }
    let pay (h : Head) (a : Arb) : Arb :=
      { a with
        queDef := SMap.set 0 a.queDef (queLocal h.q) (SMap.get 0 a.queDef (queLocal h.q) - 16),
        instDef := SMap.set 0 a.instDef key (SMap.get 0 a.instDef key - 16),
        refused := a.refused.filter (fun x => !(Nat.beq x.1 (queLocal h.q))) }
    let fits (h : Head) : Bool := decide ((h.energy s : Int) ≤ govB s d)
    if fits h then some (.grant h false (pay h a))
    else
      let n := queLocal h.q
      let a := if a.refused.any (fun x => Nat.beq x.1 n) then a else { a with refused := a.refused ++ [(n, s.rtime d)] }
      match rest.find? fits with
      | some g => some (.grant g true (pay g a))
      | none => some (.pass h a)

/-- The arbiter over the instances of one class: the grant passes on until an item goes (R406, R408). -/
def classLoop (d c : Nat) (hs : List Head) : Nat → List Nat → Arb → State → Option Head × Arb × State
  | 0, _, a, s => (none, a, s)
  | fuel + 1, slots, a, s =>
    if slots.isEmpty then (none, a, s)
    else
      let base := c * 64
      let keys := slots.map (fun j => base + j)
      let ptr := base + SMap.get 0 a.instPtr c
      let (k, ds) := dwrr (fun k => slotWeight s d (k - base)) keys (17 * slots.length + 1) ptr a.instDef
      let j := k - base
      let a := { a with instPtr := SMap.set 0 a.instPtr c j, instDef := ds }
      match visit s d c j hs a with
      | some (.grant h cheaper a) =>
        let s := if cheaper then (s.count d Reg.GOV_REFUSED 1).count d Reg.GOV_CHEAPER 1 else s
        (some h, a, s)
      | some (.pass _ a) => classLoop d c hs fuel (slots.filter (fun x => !(Nat.beq x j))) a (s.count d Reg.GOV_REFUSED 1)
      | none => classLoop d c hs fuel (slots.filter (fun x => !(Nat.beq x j))) a s

/-- One class's turn: instances and queues without an eligible item have D 0. -/
def classTurn (d c : Nat) (all : List Head) (a : Arb) (s : State) : Option Head × Arb × State :=
  let hs := all.filter (fun h => Nat.beq (queClass s h.q) c)
  let slots := slotsOf s hs
  let keep := slots.map (fun j => c * 64 + j)
  let a := { a with
    instDef := a.instDef.filter (fun e => !(Nat.beq (e.1 / 64) c) || keep.contains e.1),
    queDef := a.queDef.filter (fun e =>
      !(Nat.beq (queClass s (d * 64 + e.1)) c) || hs.any (fun h => Nat.beq (queLocal h.q) e.1)) }
  classLoop d c hs slots.length slots a s

/-! ### The grant (R405) -/

/-- The next class U head, round-robin by local index. -/
def nextU (a : Arb) (us : List Head) : Option Head :=
  match a.lastU with
  | some n => (us.find? (fun h => Nat.blt n (queLocal h.q))).orElse (fun _ => us.head?)
  | none => us.head?

/-- The grants that went to class I in a row while an item of class B was eligible, after a grant of class `c` (R405). -/
def runAfter (a : Arb) (c : Nat) (bWaits : Bool) : Nat := if c = 1 && bWaits then a.iRun + 1 else 0

/-- Whether an item of class B is eligible. -/
def bEligible (s : State) (hs : List Head) : Bool := hs.any (fun h => Nat.beq (queClass s h.q) 2)

/-- Classes I and B in their order: B first after 15 grants of I while an item of B was eligible. -/
def grantIB (d : Nat) (hs : List Head) (s : State) : State :=
  let a := arbOf s d
  let bWaits := bEligible s hs
  let order := if Nat.ble 15 a.iRun && bWaits then [2, 1] else [1, 2]
  let go (c : Nat) (r : Option Head × Arb × State) : Option Head × Arb × State :=
    if r.1.isSome then r else classTurn d c hs r.2.1 r.2.2
  let (r, a, s) := order.foldl (fun r c => go c r) (none, a, s)
  match r with
  | none => putArb a s
  | some h =>
    dispatch h (putArb { a with iRun := runAfter a (queClass s h.q) bWaits } s)

/-- A held item goes when B holds its E; until then no item of class I or B does (R409). -/
def grantHeld (d n : Nat) (hs : List Head) (s : State) : State :=
  match hs.find? (fun h => Nat.beq (queLocal h.q) n) with
  | some h =>
    if (h.energy s : Int) ≤ govB s d then
      let a := arbOf s d
      let s := putArb { a with
        held := none, refused := a.refused.filter (fun x => !(Nat.beq x.1 n)),
        iRun := runAfter a (queClass s h.q) (bEligible s hs) } s
      takeHold d (dispatch h s)
    else s
  | none => s

/-- ARBITER_GRANT: one grant of the die's arbiter. An item that has waited WAIT_US takes the hold first, be it that GOV_HOLD has not
come for it yet or that the item held before is held no more (R409, R424). -/
def arbiterGrant (d : Nat) (s : State) : State :=
  let s := failHeads d s
  let s := each (headsOf s d) (fun s h => startExchange h (noteWaits h s)) s
  let s := takeHold d (pruneArb d s)
  let hs := (headsOf s d).filter (eligible s)
  match nextU (arbOf s d) (hs.filter (fun h => Nat.beq (queClass s h.q) 0)) with
  | some h => showHold d (dispatch h (putArb { arbOf s d with lastU := some (queLocal h.q) } s))
  | none =>
    let ib := hs.filter (fun h => !(Nat.beq (queClass s h.q) 0))
    match (arbOf s d).held with
    | some n => showHold d (grantHeld d n ib s)
    | none => showHold d (if ib.isEmpty then s else grantIB d ib s)

def execArbiterGrant (d : Nat) (s : State) : Host.Outcome State Fault Refusal :=
  onDie s d (fun s => if dieUp s d then arbiterGrant d s else s)

/-! ### The attach exchange (R344) -/

/-- Whether an item may go past the gate outside a grant. -/
def passesGate (s : State) (h : Head) : Bool :=
  let d := queDie h.q
  queClass s h.q == 0 ||
    (decide ((h.energy s : Int) ≤ govB s d) &&
      ((arbOf s d).held.isNone || (arbOf s d).held == some (queLocal h.q)))

/-- A dispatched item's refusal and hold forgotten. -/
def forgetRefusal (q : Nat) (a : Arb) : Arb :=
  if a.die = queDie q then
    { a with refused := a.refused.filter (fun x => !(Nat.beq x.1 (queLocal q))),
             held := if a.held = some (queLocal q) then none else a.held }
  else a

/-- A head that its sequence's engine on another die holds: DEPTH_WAIT is set, and the engine counts the wait once (R345). -/
def noteRemoteHold (h : Head) (s : State) : State :=
  let d := queDie h.q
  let n := queLocal h.q
  let s := if s.rd d (Reg.QUE_STATE_DEPTH_WAIT n) = 0 then s.count (seqDie (h.seq.getD 0)) Reg.SEQ_DEPTH_WAITS 1 else s
  s.wr d (Reg.QUE_STATE_DEPTH_WAIT n) 1

/-- ATTACH_EXCHANGE: the exchange of the launch at the head of `q` completes; the launch attaches and is dispatched, or
waits for a grant if the gate does not let it by. One that R345 holds gives its exchange up, and starts another once the engine
holds it no more. One whose context is killed attaches nowhere. -/
def attachExchange (q : Nat) (index : Word) (s : State) : State :=
  match s.que.exchanges.find? (fun x => Nat.beq x.queue q && x.index == index) with
  | none => s
  | some x =>
    let s := { s with que := { s.que with exchanges := s.que.exchanges.erase x } }
    match (readHead q s).1 with
    | .ok h =>
      if !queRuns s q || h.index ≠ index || queKind s q ≠ 0 || h.killed s then s
      else
        match launchCheck s (quePart s q) (queInst s q) (h.seq.getD 0) h.step with
        | .held => noteRemoteHold h s
        | .fault c => if passesGate s h && eligibleBut s h then
            launchFault h c (takeItem h (chargeItem h (h.energy s) s)) else s
        | .ok ids =>
          let s := attachAll (quePart s q) ids h.step s
          let y : Exchange := ⟨q, index, h.step, ids⟩
          let s := { s with que := { s.que with exchanged := s.que.exchanged ++ [y] } }
          if passesGate s h && eligible s h then
            let s := dispatch h s
            let s := { s with que := { s.que with arbs := s.que.arbs.map (forgetRefusal q) } }
            showHold (queDie q) s
          else s
    | _ => s

def execAttachExchange (queue : Nat) (index : Word) (s : State) : Host.Outcome State Fault Refusal :=
  onDie s (queDie queue) (attachExchange queue index)

end Sys2Proof.Machine
end

