-- ==== Sys2Proof/Machine/Movers.lean ====
section
/-! DEFINITION. The block movers (chapter 10): legality, the data instructions beat by beat, SHIFT, WAIT, SIGNAL, JUMP,
END, program changes, and the partner-space accesses of R384, R507, R513 and R514. -/

namespace Sys2Proof.Machine

/-! ### The mover and its word -/

/-- The router of a mover's group, by its cluster number (Table MESH-1). -/
def moverRouter (m : Nat) : Nat := ([80, 100, 220, 240, 99, 119, 219, 239][m / 4]?).getD 80

def Mover.xby (m : Mover) : XBy := ⟨m.die, 2, m.m, m.part, m.inst, m.ctx, m.cls, m.m / 16, moverRouter m.m⟩
def Mover.acc (m : Mover) : AccBy := ⟨m.die, m.m / 16, m.part, m.cls, 0, false, moverRouter m.m⟩
/-- Register mr`i`. -/
def Mover.mr (m : Mover) (i : Nat) : Nat := ((m.mregs[i]?).getD 0).toNat
/-- Register mr`i` set. -/
def Mover.setMr (m : Mover) (i v : Nat) : Mover := { m with mregs := m.mregs.set i (BitVec.ofNat 64 v) }

def putMover (m : Mover) (s : State) : State :=
  { s with que := { s.que with movers := updWhere (fun x => Nat.beq x.die m.die && Nat.beq x.m m.m) (fun _ => m) s.que.movers } }

/-- Fields of a word (Table MOV-2). -/
def mvOp (w : Nat) : Nat := w % 16
def mvRD (w : Nat) : Nat := bits w 6 4
def mvRS (w : Nat) : Nat := bits w 9 7
def mvRN (w : Nat) : Nat := bits w 12 10
def mvDSP (w : Nat) : Bool := w.testBit 13
def mvSSP (w : Nat) : Bool := w.testBit 14
def mvLI (w : Nat) : Bool := w.testBit 15
def mvINC (w : Nat) : Bool := w.testBit 16
def mvImm (w : Nat) : Nat := bits w 63 32

/-- R372, R380, R382: a legal mover instruction. A SHIFT by 0 is none (R377, DEDUCED, log 39). -/
def mvLegal (w : Nat) : Bool :=
  let no (hi lo : Nat) : Bool := Nat.beq (bits w hi lo) 0
  no 31 17 && (match mvOp w with
    | 0 => no 63 4
    | 1 => true
    | 2 => no 6 4 && no 16 13 && !(Nat.beq (mvImm w) 0)
    | 3 => no 15 14
    | 4 => no 13 13 && no 15 15
    | 5 => no 14 14
    | 6 => no 16 10
    | 7 => no 16 10 && no 63 33
    | 8 => no 16 7 && no 63 50
    | _ => false)

/-- Program word `p` of a slot. -/
def progWord (s : State) (d slot p : Nat) : Nat := s.rd d (Reg.MOV_PROG (128 * slot + p))

/-- A signed 32-bit immediate. -/
def mvSigned (w : Nat) : Int := toSigned 32 (mvImm w)

/-! ### SHIFT's operands (R377) -/

def shSeq (m : Mover) (w : Nat) : Nat := m.mr (mvRS w) % 2 ^ 14
def shStride (m : Mover) (w : Nat) : Nat := bits (m.mr (mvRS w)) 47 16
def shFirst (m : Mover) (w : Nat) : Nat := bits (m.mr (mvRN w)) 23 0
def shCount (m : Mover) (w : Nat) : Nat := bits (m.mr (mvRN w)) 47 24

/-- The block that the `i`th block move of a SHIFT takes: ascending for k < 0, descending for k > 0. -/
def shBlock (m : Mover) (w i : Nat) : Nat :=
  if mvSigned w < 0 then shFirst m w + i else shFirst m w + shCount m w - 1 - i

/-- Bytes of a block. -/
def shBytes (s : State) (m : Mover) (w : Nat) : Nat :=
  match findSeq s (shSeq m w) with
  | some x => blockSize x.blk * shStride m w
  | none => 0

/-- MOV_CURSOR: bytes done; for SHIFT the block reached and the lines done in it (Table MOV-8). -/
def cursorView (s : State) (m : Mover) : Nat :=
  match m.latched with
  | some w =>
    if mvOp w.toNat = 2 then
      let n := shBytes s m w.toNat
      shBlock m w.toNat (m.cursor / n) % 2 ^ 24 + m.cursor % n / 128 * 2 ^ 24
    else m.cursor
  | none => m.cursor

/-! ### Faults, boundaries, halts (R381, R385, R389, R396) -/

/-- A fault of a mover (R396). -/
def mvFault (m : Mover) (code addr : Nat) (s : State) : State :=
  let cur := cursorView s m
  let s := putMover { m with latched := none, checked := false } (s.count m.die Reg.MOV_FAULTS 1)
  contextFault
    { die := m.die, part := m.part, inst := m.inst, ctx := m.ctx, code := code, queue := m.queue, tag := m.tag.toNat,
      kind := 1, sub := m.slot, unit := m.m, slot := 0, lane := 0, troupe := 0, index := m.index.toNat % 2 ^ 32, pc := m.pc,
      addr := addr, cursor := cur } s

/-- The mover's item completes with a status, and the mover is free. -/
def mvFinish (m : Mover) (status : Nat) (s : State) : State :=
  let s := dropMovers (fun x => Nat.beq x.die m.die && Nat.beq x.m m.m) s
  completeItem m.queue m.tag.toNat status 1 (m.index.toNat % 2 ^ 32) (rtimeInfo s (queDie m.queue)) m.cqe m.irq s

/-- A mover at a boundary with CHANGED set halts, with its record (R385). -/
def mvHalt (m : Mover) (s : State) : State :=
  let s := putMover { m with state := .halted } s
  emit m.die 0x0A 0x073 0 (partSealed s m.part)
    [pf 1 m.m, pf 1 m.slot, pa_ 1 m.pc, pf 1 0, pa_ 2 m.gen, pa_ 2 (s.rd m.die (Reg.MOV_SLOT_GEN m.slot))] s

/-- The boundary after an instruction: the mover goes on at `pc`, or a kill, a program change or the end of the slot
stops it. -/
def mvDone (m : Mover) (pc : Nat) (s : State) : State :=
  if m.stopped then mvFinish m 1 s
  else
    let m := { m with latched := none, cursor := 0, checked := false, pc := pc, state := .running }
    if m.changed then mvHalt m s else if 127 < pc then mvFault m 0x01 0 s else putMover m s

/-- A stalled mover keeps its instruction. -/
def mvStall (m : Mover) (s : State) : State := putMover { m with state := .stalled } s

/-- Whether a short bucket of the item's instance holds the mover's beats (R378, Table PART-3). -/
def mvHeld (s : State) (m : Mover) : Bool :=
  let d := queDie m.queue
  !(bucketOpen s d m.part m.inst 2 && bucketOpen s d m.part m.inst 3 && bucketOpen s d m.part m.inst 4)

/-- The word that the mover fetches next has an uncorrectable error (R577). -/
def badWord (s : State) (m : Mover) : Bool :=
  m.latched.isNone && s.que.badProg.contains (m.die * 8192 + 128 * m.slot + m.pc)

/-- One command of mover `m`: its instruction in progress, or the word fetched at PC, if it is one of OP `op` (R376).
A word that cannot be read faults POISON (R577, Table MOV-5). -/
def mvRun (d m op : Nat) (f : Mover → Nat → State → State) (s : State) : Host.Outcome State Fault Refusal :=
  onDie s d (fun s =>
    match findMover s d m with
    | none => s
    | some x =>
      if x.state == .halted then s
      else if badWord s x then mvFault x 0x05 0 s
      else
        let w := (x.latched.map (·.toNat)).getD (progWord s d x.slot x.pc)
        if mvLegal w && Nat.beq (mvOp w) op then
          let x := { x with latched := some (BitVec.ofNat 64 w), state := .running }
          if mvHeld s x then mvStall x s else f x w (putMover x s)
        else s)

/-! ### Virtual space -/

/-- What a read or a write of virtual space gives. -/
inductive MvRes (α : Type) where
  | ok (v : α) (s : State)
  | stall
  | fault (code addr : Nat) (s : State)
  deriving DecidableEq

/-- One sector read (R376). -/
def mvRead (m : Mover) (va : Nat) (s : State) : MvRes SectorData :=
  match translate m.xby va .load s with
  | none => .stall
  | some (.fault c, s) => .fault c va s
  | some (.pa pa, s) =>
    match accRead m.acc pa s with
    | none => .stall
    | some (.denied, s) => .fault 4 va s
    | some (.ok v p, s) => if p then .fault 5 va s else .ok v (noteSector m.queue m.die pa s)

/-- One sector written; MOV_BYTES counts it. -/
def mvWrite (m : Mover) (va : Nat) (v : SectorData) (s : State) : MvRes Unit :=
  match translate m.xby va .store s with
  | none => .stall
  | some (.fault c, s) => .fault c va s
  | some (.pa pa, s) =>
    match accWrite m.acc pa (BitVec.allOnes 32) v s with
    | none => .stall
    | some (.denied, s) => .fault 4 va s
    | some (.ok _ _, s) => .ok () (noteSector m.queue m.die pa (s.count m.die Reg.MOV_BYTES 32))

/-- What a run of sectors comes to: how many bytes are done, and how it ended. -/
structure Run where
  done : Nat
  /-- 0 whole, 1 stalled, 2 fault. -/
  how : Nat
  code : Nat
  addr : Nat
  s : State
  deriving DecidableEq, Repr

/-- The reads of one beat: `k` sectors from offset `o` on. -/
def readBeat (get : Nat → State → MvRes SectorData) : Nat → Nat → State → MvRes (List SectorData)
  | 0, _, s => .ok [] s
  | k + 1, o, s =>
    match get o s with
    | .stall => .stall
    | .fault c a s => .fault c a s
    | .ok v s =>
      match readBeat get k (o + 32) s with
      | .ok l s => .ok (v :: l) s
      | .stall => .stall
      | .fault c a s => .fault c a s

/-- Sectors written one after another. -/
def putSectors (m : Mover) (dst : Nat) : List SectorData → State → MvRes Unit
  | [], s => .ok () s
  | v :: l, s =>
    match mvWrite m dst v s with
    | .ok _ s => putSectors m (dst + 32) l s
    | .stall => .stall
    | .fault c a s => .fault c a s

/-- Beats one after another (R376): each moves what is left of the 128-byte line at `line`, and writes only after all its reads have
returned. A beat that stalls has written nothing. -/
def mvRunBeats (m : Mover) (get : Nat → State → MvRes SectorData) (line dst : Nat) : Nat → Nat → Nat → State → Run
  | 0, _, o, s => ⟨o, 0, 0, 0, s⟩
  | fuel + 1, left, o, s =>
    if left = 0 then ⟨o, 0, 0, 0, s⟩
    else
      let k := min left (4 - (line + o) % 128 / 32)
      match readBeat get k o s with
      | .stall => ⟨o, 1, 0, 0, s⟩
      | .fault c a s => ⟨o, 2, c, a, s⟩
      | .ok l s' =>
        match putSectors m (dst + o) l s' with
        | .stall => ⟨o, 1, 0, 0, s⟩
        | .fault c a s => ⟨o, 2, c, a, s⟩
        | .ok _ s => mvRunBeats m get line dst fuel (left - k) (o + 32 * k) s

/-- An 8-byte word read. -/
def mvWord (m : Mover) (va : Nat) (s : State) : MvRes Nat :=
  match mvRead m va s with
  | .ok v s => .ok (bits v.toNat (va % 32 * 8 + 63) (va % 32 * 8)) s
  | .stall => .stall
  | .fault c a s => .fault c a s

/-! ### Partner space (R384, R507, R513, R514) -/

/-- The number of an outbound port: host ports 0–31, bridge ports from 64 on. -/
def bridgeNum (port : Nat) : Nat := 64 + port

/-- PT[i] of a die; unlisted is FREE. -/
def ptEntry (s : State) (d i : Nat) : PtEntry :=
  (look (d * 256 + i) s.host.pt).getD ⟨0, 0, 0, 0, false, false, false, 0, 0, 0, 0⟩

/-- PT[i] through the die partner cache of 64 copies (Table XLT-5): the least recently used gives way, and one past its lease is
discarded and counted (R476). -/
def ptLook (d i : Nat) (s : State) : PtEntry × State :=
  let mine (c : PtCopy) : Bool := Nat.beq c.die d && Nat.beq c.index i
  let rest := s.xlt.pts.filter (fun c => !mine c)
  let keep (c : PtCopy) (l : List PtCopy) (s : State) : State := { s with xlt := { s.xlt with pts := l ++ [c] } }
  let fill (s : State) : PtEntry × State :=
    let e := ptEntry s d i
    let full := 64 ≤ (rest.filter (fun c => Nat.beq c.die d)).length
    let rest := if full then ((rest.find? (fun c => Nat.beq c.die d)).map (fun v => rest.erase v)).getD rest else rest
    (e, keep ⟨d, i, e, s.rtime d, leaseNs s e.part⟩ rest s)
  match s.xlt.pts.find? mine with
  | some c => if stale s d c.stamp c.lease then fill (s.count d Reg.XLT_LEASE_DROP 1) else (c.entry, keep c rest s)
  | none => fill s

/-- The check of R507: a fault code, or nothing. Bits [55:48] of a partner address are reserved (DEDUCED, log 39). -/
def ptCheck (m : Mover) (e : PtEntry) (addr len : Nat) (write : Bool) : Option Nat :=
  if bits addr 55 48 ≠ 0 || e.state ≠ 1 then some 3
  else if e.kind = 3 then some 4
  else if e.part ≠ m.part || !e.insts.getLsbD m.inst || !(if write then e.wr else e.rd) then some 4
  else if e.size.toNat < bits addr 47 0 + len then some 3
  else none

/-- The mover's access in flight of a kind. -/
def outOf (s : State) (m : Mover) (write : Bool) (kind : Nat) : Option Outbound :=
  s.host.outbound.find? (fun o => Nat.beq o.die m.die && Nat.beq o.unit m.m && o.write == write && Nat.beq o.kind kind
    && Nat.beq o.part m.part && Nat.beq o.inst m.inst && Nat.beq o.ctx m.ctx && !o.gone)

/-- An access leaves, and what waited for it may complete. -/
def dropOut (o : Outbound) (s : State) : State :=
  settleAts { s with host := { s.host with outbound := s.host.outbound.erase o } }

/-- A tag of a port that no access in flight holds, from the next one on. -/
def freeTag (s : State) (port : Nat) : Option Nat :=
  let n := SMap.get 0 s.host.nextTag port
  let busy (t : Nat) : Bool := s.host.outbound.any (fun o => Nat.beq o.port port && Nat.beq o.tag t)
  let live := (s.host.outbound.filter (fun o => Nat.beq o.port port)).length
  ((List.range (live + 1)).map (fun k => (n + k) % 1024)).find? (fun t => !busy t)

/-- An access sent: none while the port's 1,024 requests are out (Table HOST-4). -/
def sendOut (m : Mover) (port pt addr len kind : Nat) (via : Option Nat) (write : Bool) (data : List SectorData) (s : State) :
    State :=
  match freeTag s port with
  | none => s
  | some t =>
    let o : Outbound := ⟨port, t, m.die, write, addr, len, m.part, m.inst, m.ctx, kind, m.m, pt, data, false, 0, via, [], false⟩
    { s with host := { s.host with
        outbound := s.host.outbound ++ [o], nextTag := SMap.set 0 s.host.nextTag port ((t + 1) % 1024) } }

/-- The port and the address of an access to an entry, with the host address that an ATS translation translated: none while
that translation is on its way (R514). -/
inductive PtAddr where
  | to (port addr : Nat) (via : Option Nat)
  | stall (s : State)

def ptAddr (m : Mover) (i : Nat) (e : PtEntry) (off : Nat) (write : Bool) (s : State) : PtAddr × State :=
  let a := e.base.toNat + off
  if e.kind = 2 then (.to (bridgeNum e.port) a none, s)
  else if e.kind = 0 && e.atBit then
    let page := a / 0x10000 * 0x10000
    let mine (t : Tlb) : Bool :=
      Nat.beq t.level 2 && Nat.beq t.die m.die && Nat.beq t.unit m.m && t.partner == some i && Nat.beq t.va page
    let old := s.xlt.tlb.filter (fun t => mine t && stale s m.die t.stamp t.lease)
    let s := { s with xlt := { s.xlt with tlb := s.xlt.tlb.filter (fun t => !old.contains t) } }
    let s := if old.isEmpty then s else s.count m.die Reg.XLT_LEASE_DROP old.length
    match s.xlt.tlb.find? (fun t => mine t && (!write || t.write)) with
    | some t => (.to e.port (t.pa + a % 0x10000) (some a), tlbPut t { s with xlt := { s.xlt with tlb := s.xlt.tlb.erase t } })
    | none =>
      if (outOf s m write 1).isSome then (.stall s, s)
      else
        let s := sendOut m e.port i page 8 1 none write [] s
        (.stall s, s)
  else (.to e.port a none, s)

/-- The sectors of a partner read once its completion is there; a first call sends it. -/
def partnerRead (m : Mover) (addr len : Nat) (s : State) : MvRes (List SectorData) × State :=
  match outOf s m false 0 with
  | some o => if o.done then (.ok o.data s, s) else (.stall, s)
  | none =>
    let i := bits addr 63 56
    let (e, s) := ptLook m.die i s
    match ptCheck m e addr len false with
    | some c => (.fault c addr s, s)
    | none =>
      match ptAddr m i e (bits addr 47 0) false s with
      | (.to port a via, s) => (.stall, sendOut m port i a len 0 via false [] s)
      | (.stall _, s) => (.stall, s)

/-- A partner write sent. -/
def partnerWrite (m : Mover) (addr : Nat) (data : List SectorData) (s : State) : MvRes Unit × State :=
  let i := bits addr 63 56
  let (e, s) := ptLook m.die i s
  match ptCheck m e addr (32 * data.length) true with
  | some c => (.fault c addr s, s)
  | none =>
    match ptAddr m i e (bits addr 47 0) true s with
    | (.to port a via, s) => (.stall, sendOut m port i a (32 * data.length) 0 via true data s)
    | (.stall _, s) => (.stall, s)

/-! ### COPY, GATHER, SCATTER, FILL -/

/-- Where the next run of a data instruction comes from and goes to, and its bytes. -/
structure Span where
  src : Nat
  dst : Nat
  len : Nat
  deriving DecidableEq, Repr

/-- Bytes that a data instruction moves in all. -/
def mvTotal (m : Mover) (w : Nat) : Nat :=
  let l := if mvLI w then mvImm w else m.mr (mvRN w) % 2 ^ 32
  match mvOp w with
  | 3 => l * mvImm w
  | 4 => l * mvImm w
  | _ => l

/-- R373: every address and length a multiple of 32, an element size within its range. -/
def mvAligned (m : Mover) (w : Nat) : Bool :=
  let a (n : Nat) : Bool := Nat.beq (n % 32) 0
  match mvOp w with
  | 5 => a (m.mr (mvRD w)) && a (mvTotal m w)
  | 1 => a (m.mr (mvRD w)) && a (m.mr (mvRS w)) && a (mvTotal m w)
  | _ => a (m.mr (mvRD w)) && a (m.mr (mvRS w)) && a (mvImm w) && Nat.ble 32 (mvImm w) && Nat.ble (mvImm w) 1048576

/-- The next run from the cursor on: for GATHER and SCATTER one element's rest, through its list entry. -/
def mvSpan (m : Mover) (w : Nat) (s : State) : MvRes Span :=
  let c := m.cursor
  let rd := m.mr (mvRD w)
  let rs := m.mr (mvRS w)
  let el (list : Nat) (k : Nat → Span) (s : State) : MvRes Span :=
    match mvWord m (list + 8 * (c / mvImm w)) s with
    | .ok a s => if a % 32 ≠ 0 then .fault 2 a s else .ok (k (a + c % mvImm w)) s
    | .stall => .stall
    | .fault e a s => .fault e a s
  let rest := mvImm w - c % mvImm w
  match mvOp w with
  | 3 => el rs (fun a => ⟨a, rd + c, rest⟩) s
  | 4 => el rd (fun a => ⟨rs + c, a, rest⟩) s
  | _ => .ok ⟨rs + c, rd + c, mvTotal m w - c⟩ s

/-- A FILL's sector: the pattern four times. -/
def fillSector (v : Nat) : SectorData := BitVec.ofNat 256 (v * (1 + 2 ^ 64 + 2 ^ 128 + 2 ^ 192))

/-- How much of a run one partner access moves: reads split at 4,096 B and at 64 sectors, writes at 512 B (R376, R513). -/
def partnerChunk (w : Nat) (x : Span) : Nat :=
  let r := min x.len (min 2048 (4096 - x.src % 4096))
  if mvDSP w then
    let q := min x.len (512 - x.dst % 512)
    if mvSSP w then min r q else q
  else r

/-- The source data of one partner chunk. -/
def chunkData (m : Mover) (w : Nat) (x : Span) (n : Nat) (s : State) : MvRes (List SectorData) × State :=
  if mvOp w = 5 then (.ok (List.replicate (n / 32) (fillSector (m.mr (mvRS w)))) s, s)
  else if mvSSP w then partnerRead m x.src n s
  else (readBeat (fun o s => mvRead m (x.src + o) s) (n / 32) 0 s, s)

/-- One partner chunk: how much of the run is done. A write that was lost with its port faults PARTNER-TIMEOUT (Table HOST-5). -/
def partnerStep (m : Mover) (w : Nat) (x : Span) (s : State) : Run :=
  let n := partnerChunk w x
  match outOf s m true 0 with
  | some o =>
    if !o.done then ⟨0, 1, 0, 0, s⟩
    else if o.status = 3 then ⟨0, 2, 0x0C, o.addr, dropOut o s⟩
    else ⟨o.len, 0, 0, 0, (dropOut o s).count m.die Reg.MOV_BYTES o.len⟩
  | none =>
    match chunkData m w x n s with
    | (.stall, s) => ⟨0, 1, 0, 0, s⟩
    | (.fault c a s, _) => ⟨0, 2, c, a, s⟩
    | (.ok l s, _) =>
      let free (s : State) : State :=
        match outOf s m false 0 with
        | some o => if mvSSP w then dropOut o s else s
        | none => s
      if mvDSP w then
        match partnerWrite m x.dst l s with
        | (.fault c a s, _) => ⟨0, 2, c, a, s⟩
        | (_, s) => ⟨0, 1, 0, 0, if (outOf s m true 0).isSome then free s else s⟩
      else
        match putSectors m x.dst l s with
        | .ok _ s => ⟨n, 0, 0, 0, free s⟩
        | .stall => ⟨0, 1, 0, 0, s⟩
        | .fault c a s => ⟨0, 2, c, a, s⟩

/-- One run of a data instruction. -/
def mvStep (m : Mover) (w : Nat) (x : Span) (s : State) : Run :=
  if mvDSP w || mvSSP w then partnerStep m w x s
  else
    let get (o : Nat) (s : State) : MvRes SectorData :=
      if mvOp w = 5 then .ok (fillSector (m.mr (mvRS w))) s else mvRead m (x.src + o) s
    mvRunBeats m get (if mvOp w = 5 then x.dst else x.src) x.dst (x.len / 32) (x.len / 32) 0 s

/-- The address registers after the instruction (INC, Table MOV-3). -/
def mvInc (m : Mover) (w : Nat) : Mover :=
  if !mvINC w then m
  else
    let n := if mvLI w then mvImm w else m.mr (mvRN w) % 2 ^ 32
    let add (r k : Nat) (m : Mover) : Mover := m.setMr r (m.mr r + k)
    match mvOp w with
    | 1 => add (mvRS w) n (add (mvRD w) n m)
    | 3 => add (mvRS w) (8 * n) (add (mvRD w) (n * mvImm w) m)
    | 4 => add (mvRS w) (n * mvImm w) (add (mvRD w) (8 * n) m)
    | 5 => add (mvRD w) n m
    | _ => m

/-- Runs until the instruction is done, stalls or faults. -/
def mvLoop (w : Nat) : Nat → Mover → State → State
  | 0, m, s => mvStall m s
  | fuel + 1, m, s =>
    if mvTotal m w ≤ m.cursor then mvDone (mvInc m w) (m.pc + 1) s
    else
      match mvSpan m w s with
      | .stall => mvStall m s
      | .fault c a s => mvFault m c a s
      | .ok x s =>
        let r := mvStep m w x s
        let m := { m with cursor := m.cursor + r.done }
        if r.how = 0 then mvLoop w fuel m r.s
        else if r.how = 1 then mvStall m r.s
        else mvFault m r.code r.addr r.s

/-- A data instruction: a length or count of 0 is a NOP, a misaligned one faults (R373). -/
def mvData (m : Mover) (w : Nat) (s : State) : State :=
  if mvTotal m w = 0 then mvDone (mvInc m w) (m.pc + 1) s
  else if !mvAligned m w then mvFault m 0x02 (m.mr (mvRD w)) s
  else mvLoop w (mvTotal m w / 32 + 1) { m with checked := true } s

/-- MOV_COPY. -/
def execMovCopy (d m : Nat) (s : State) : Host.Outcome State Fault Refusal := mvRun d m 1 mvData s
/-- GATHER. -/
def execGather (d m : Nat) (s : State) : Host.Outcome State Fault Refusal := mvRun d m 3 mvData s
/-- SCATTER. -/
def execScatter (d m : Nat) (s : State) : Host.Outcome State Fault Refusal := mvRun d m 4 mvData s
/-- MOV_FILL. -/
def execMovFill (d m : Nat) (s : State) : Host.Outcome State Fault Refusal := mvRun d m 5 mvData s

/-! ### SHIFT (R377, R378) -/

/-- The checks made once, before the first beat: a fault code. -/
def shCheck (s : State) (m : Mover) (w : Nat) : Option Nat :=
  let id := shSeq m w
  let lo : Int := shFirst m w + mvSigned w
  let hi : Int := shFirst m w + shCount m w - 1 + mvSigned w
  match findSeq s id with
  | none => some 0x0A
  | some x =>
    if x.part ≠ m.part || !dieIn s m.part (seqDie id) then some 0x0A
    else if x.inst ≠ m.inst then some 0x04
    else if shStride m w = 0 || shStride m w % 32 ≠ 0 then some 0x02
    else if shCount m w = 0 then none
    else
      let b := blockSize x.blk
      if (newestEnd x + b - 1) / b ≤ shFirst m w + shCount m w - 1 then some 0x03
      else if lo < 0 || 16777215 < hi || 16777215 < lo || hi < 0 then some 0x03
      else none

/-- The address of a block, through the block table in the item's context (R338, R339). -/
def shAddr (m : Mover) (dir b : Nat) (s : State) : MvRes Nat :=
  match mvWord m (dir + b / 4096 * 8) s with
  | .stall => .stall
  | .fault c a s => .fault c a s
  | .ok v s =>
    match tableEntry v 15 with
    | .inr c => .fault c (dir + b / 4096 * 8) s
    | .inl leaf =>
      match mvWord m (leaf + b % 4096 * 8) s with
      | .stall => .stall
      | .fault c a s => .fault c a s
      | .ok v s =>
        match tableEntry v 8 with
        | .inr c => .fault c (leaf + b % 4096 * 8) s
        | .inl a => .ok a s

/-- A fault in a SHIFT: one after its first beat has written is on shared state (R396). -/
def shFault (m : Mover) (w code addr : Nat) (s : State) : State :=
  if m.cursor = 0 then mvFault m code addr s
  else
    let n := shBytes s m w
    let id := shSeq m w
    let reached := shBlock m w (m.cursor / n)
    let s := mvFault m code addr (updSeq id (fun x => { x with tainted := true }) s)
    faultWith m.part 0x05 m.die 0x0A 0x074 3
      [pf 2 id, pf 2 0, pa_ 4 (mvImm w), pa_ 4 (shFirst m w), pa_ 4 (shCount m w), pa_ 4 reached, pf 4 0] s

/-- One block after another, each held while a step fence holds it. -/
def shLoop (w : Nat) : Nat → Mover → State → State
  | 0, m, s => mvStall m s
  | fuel + 1, m, s =>
    match findSeq s (shSeq m w) with
    | none => mvFault m 0x0A 0 s
    | some x =>
      let n := blockSize x.blk * shStride m w
      let i := m.cursor / n
      if shCount m w ≤ i then mvDone m (m.pc + 1) s
      else
        let b := shBlock m w i
        let t := ((b : Int) + mvSigned w).toNat
        if x.recs.any (fun r => Nat.ble r.firstBlock b || Nat.ble r.firstBlock t) then mvStall m s
        else
          match shAddr m x.dir.toNat b s with
          | .stall => mvStall m s
          | .fault c a s => shFault m w c a s
          | .ok src s =>
            match shAddr m x.dir.toNat t s with
            | .stall => mvStall m s
            | .fault c a s => shFault m w c a s
            | .ok dst s =>
              let o := m.cursor % n
              let r := mvRunBeats m (fun k s => mvRead m (src + o + k) s) (src + o) (dst + o) ((n - o) / 32) ((n - o) / 32) 0 s
              let m := { m with cursor := m.cursor + r.done }
              if r.how = 0 then shLoop w fuel m r.s
              else if r.how = 1 then mvStall m r.s
              else shFault m w r.code r.addr r.s

def mvShift (m : Mover) (w : Nat) (s : State) : State :=
  match if m.checked then none else shCheck s m w with
  | some c => mvFault m c 0 s
  | none =>
    if shCount m w = 0 then mvDone m (m.pc + 1) s
    else shLoop w (shCount m w + 1) { m with checked := true } s

/-- SHIFT. -/
def execShift (d m : Nat) (s : State) : Host.Outcome State Fault Refusal := mvRun d m 2 mvShift s

/-! ### WAIT, SIGNAL, JUMP, END -/

/-- WAIT's comparison (R379). -/
def waitHolds (w word v : Nat) : Bool :=
  match mvImm w % 4 with
  | 0 => Nat.beq word v
  | 1 => !(Nat.beq word v)
  | 2 => Nat.ble v word
  | _ => Nat.blt word v

/-- One poll of WAIT: it ends, or the mover waits for the next. -/
def mvWait (m : Mover) (w : Nat) (s : State) : State :=
  let a := m.mr (mvRD w)
  if a % 8 ≠ 0 then mvFault m 0x02 a s
  else
    match mvWord m a s with
    | .stall => mvStall m s
    | .fault c a s => mvFault m c a s
    | .ok v s => if waitHolds w v (m.mr (mvRS w)) then mvDone m (m.pc + 1) s else mvStall m s

/-- WAIT: its first poll. -/
def execWait (d m : Nat) (s : State) : Host.Outcome State Fault Refusal :=
  mvRun d m 6 (fun x w s => if x.checked then s else mvWait { x with checked := true } w s) s

/-- WAIT_POLL: every 256 MCLK the WAIT in progress reads its word again. -/
def execWaitPoll (d m : Nat) (s : State) : Host.Outcome State Fault Refusal :=
  mvRun d m 6 (fun x w s => if x.checked then mvWait x w s else putMover { x with latched := none } s) s

/-- WAIT_TIMEOUT: the timeout of a WAIT in progress expires; one of 0 never does. -/
def execWaitTimeout (d m : Nat) (s : State) : Host.Outcome State Fault Refusal :=
  onDie s d (fun s =>
    match findMover s d m with
    | none => s
    | some x =>
      match x.latched with
      | some w => if mvOp w.toNat = 6 && x.checked && bits w.toNat 63 40 != 0 then mvFault x 0x0B (x.mr (mvRD w.toNat)) s
          else s
      | none => s)

/-- SIGNAL (R380): an atomic on the word at PART scope. -/
def mvSignal (m : Mover) (w : Nat) (s : State) : State :=
  let a := m.mr (mvRD w)
  let v := m.mr (mvRS w)
  if a % 8 ≠ 0 then mvFault m 0x02 a s
  else
    match translate m.xby a .store s with
    | none => mvStall m s
    | some (.fault c, s) => mvFault m c a s
    | some (.pa pa, s) =>
      let o := pa % 32 * 8
      let f (x : SectorData) : SectorData :=
        let old := bits x.toNat (o + 63) o
        let new := if (mvImm w).testBit 0 then v else (old + v) % 2 ^ 64
        BitVec.ofNat 256 (x.toNat - old * 2 ^ o + new * 2 ^ o)
      match accAtomic m.acc pa f s with
      | none => mvStall m s
      | some (.denied, s) => mvFault m 4 a s
      | some (.ok _ true, s) => mvFault m 5 a s
      | some (.ok _ false, s) => mvDone m (m.pc + 1) (noteSector m.queue m.die pa (s.count m.die Reg.MOV_BYTES 8))

def execSignal (d m : Nat) (s : State) : Host.Outcome State Fault Refusal := mvRun d m 7 mvSignal s

/-- JUMP (R382). -/
def mvJump (m : Mover) (w : Nat) (s : State) : State :=
  let r := mvRD w
  let c := bits (mvImm w) 17 16
  let m := if c = 1 then m.setMr r (m.mr r + (2 ^ 64 - 1)) else m
  let take := match c with
    | 0 => true
    | 1 => m.mr r != 0
    | 2 => m.mr r == 0
    | _ => m.mr r != 0
  let t : Int := m.pc + toSigned 16 (mvImm w % 2 ^ 16)
  if !take then mvDone m (m.pc + 1) s
  else if t < 0 || 127 < t then mvFault m 0x01 0 s
  else mvDone m t.toNat s

def execJump (d m : Nat) (s : State) : Host.Outcome State Fault Refusal := mvRun d m 8 mvJump s

/-- MOV_END (R381): the item completes OK. -/
def execMovEnd (d m : Nat) (s : State) : Host.Outcome State Fault Refusal :=
  mvRun d m 0 (fun x _ s => mvFinish x (if x.stopped then 1 else 0) s) s

/-- MOVER_ILLEGAL_INSTRUCTION (R372): a word that is no legal instruction faults, and one that cannot be read faults
POISON (R577). -/
def execMoverIllegalInstruction (d m : Nat) (s : State) : Host.Outcome State Fault Refusal :=
  onDie s d (fun s =>
    match findMover s d m with
    | none => s
    | some x =>
      if x.state == .halted || x.latched.isSome then s
      else if badWord s x then mvFault x 0x05 0 s
      else if mvLegal (progWord s d x.slot x.pc) then s
      else mvFault x 0x01 0 s)

/-! ### Program changes (R370, R385–R387) -/

/-- GEN of a slot one up, and CHANGED in every mover that runs it; one at a boundary halts at once. -/
def slotChanged (d slot : Nat) (s : State) : State :=
  let s := s.wr d (Reg.MOV_SLOT_GEN slot) (s.rd d (Reg.MOV_SLOT_GEN slot) + 1)
  let ms := s.que.movers.filter (fun m => Nat.beq m.die d && Nat.beq m.slot slot)
  each ms (fun s m =>
    let m := { m with changed := true }
    if m.latched.isNone && m.state != .halted then mvHalt m s else putMover m s) s

/-- Whether a slot is owned by a sealed partition. -/
def slotSealed (s : State) (d slot : Nat) : Bool :=
  s.rd d (Reg.MOV_SLOT_OWNED slot) == 1 && partSealed s (s.rd d (Reg.MOV_SLOT_PART slot))

/-- A refused write (R370, R387): OP 0 word, 1 owner, 2 command. -/
def movSealed (d slot op : Nat) (s : State) : State := emit d 0x0A 0x075 0 false [pf 1 slot, pf 1 op, pf 6 0] s

/-- MOV_PROG_WRITE (R370). -/
def movProgWrite (d w : Nat) (src : Source) (v : Word) (s : State) : State :=
  if slotSealed s d (w / 128) && src != .warden then movSealed d (w / 128) 0 s
  else
    let s := { s with que := { s.que with badProg := delNat s.que.badProg (d * 8192 + w) } }
    slotChanged d (w / 128) (s.wr d (Reg.MOV_PROG w) v.toNat)

def execMovProgWrite (d w : Nat) (src : Source) (v : Word) (s : State) : Host.Outcome State Fault Refusal :=
  onDie s d (fun s => if w < 8192 then movProgWrite d w src v s else s)

/-- MOV_SLOT_WRITE (R370): PART, INST and OWNED; GEN moves with a change of owner. -/
def movSlotWrite (d slot : Nat) (src : Source) (v : Nat) (s : State) : State :=
  let part := bits v 22 16
  let inst := bits v 27 23
  let owned := bits v 28 28
  let intoSealed := owned == 1 && partSealed s part
  if (slotSealed s d slot || intoSealed) && src != .warden then movSealed d slot 1 s
  else
    let same := Nat.beq part (s.rd d (Reg.MOV_SLOT_PART slot)) && Nat.beq inst (s.rd d (Reg.MOV_SLOT_INST slot))
      && Nat.beq owned (s.rd d (Reg.MOV_SLOT_OWNED slot))
    let s := ((s.wr d (Reg.MOV_SLOT_PART slot) part).wr d (Reg.MOV_SLOT_INST slot) inst).wr d (Reg.MOV_SLOT_OWNED slot) owned
    if same then s else slotChanged d slot s

def execMovSlotWrite (d slot : Nat) (src : Source) (v : Word) (s : State) : Host.Outcome State Fault Refusal :=
  onDie s d (fun s => if slot < 64 then movSlotWrite d slot src v.toNat s else s)

/-- A MOV_CMD for mover `m` (R386, R387): 1 RESTART at `pc`, 2 ABORT. -/
def movCommand (d m op pc : Nat) (src : Source) (s : State) : State :=
  let s := (s.wr d Reg.MOV_CMD_MOVER m).wr d Reg.MOV_CMD_PC pc
  match findMover s d m with
  | none => s.count d Reg.MOV_CMD_IGN 1
  | some x =>
    if partSealed s x.part && src != .warden then movSealed d x.slot 2 s
    else if x.state != .halted then s.count d Reg.MOV_CMD_IGN 1
    else if op = 1 then
      putMover { x with state := .running, gen := s.rd d (Reg.MOV_SLOT_GEN x.slot), changed := false, pc := pc } s
    else mvFinish x 0x0C s

/-- RESTART. -/
def execRestart (d m pc : Nat) (src : Source) (s : State) : Host.Outcome State Fault Refusal :=
  onDie s d (fun s => if m < 32 && pc < 128 then movCommand d m 1 pc src s else s)

/-- ABORT. -/
def execAbort (d m : Nat) (src : Source) (s : State) : Host.Outcome State Fault Refusal :=
  onDie s d (fun s => if m < 32 then movCommand d m 2 (s.rd d Reg.MOV_CMD_PC) src s else s)

/-- MOV_HALT_TIMEOUT: MOV_HALT_MS passes with the mover still halted (R386). -/
def execMovHaltTimeout (d m : Nat) (s : State) : Host.Outcome State Fault Refusal :=
  onDie s d (fun s =>
    match findMover s d m with
    | some x => if x.state == .halted then mvFinish x 0x0C s else s
    | none => s)

/-! ### Completions of partner accesses (R513, R514, R517) -/

/-- The mover that waits for an access, if its context still runs. -/
def outMover (s : State) (o : Outbound) : Option Mover :=
  if o.gone then none
  else (findMover s o.die o.unit).bind (fun m =>
    if Nat.beq m.part o.part && Nat.beq m.inst o.inst && Nat.beq m.ctx o.ctx then some m else none)

/-- What an ATS translation grants: R and W in bits 0 and 1, the page in bits [63:16] (DESIGN CHOICE, log 40). -/
def atsDone (o : Outbound) (m : Mover) (data : List SectorData) (s : State) : State :=
  let r := ((data.head?).getD 0).toNat % 2 ^ 64
  let ok := if o.write then r.testBit 1 else r.testBit 0
  if !ok then mvFault m 0x04 o.addr s
  else
    let e : Tlb := ⟨2, m.die, m.m, m.part, m.inst, m.ctx, o.addr, 0x10000, r / 0x10000 * 0x10000, false, [], some o.pt,
      r.testBit 1, false, s.rtime m.die, leaseNs s m.part⟩
    tlbPut e s

/-- PARTNER_COMPLETION: status 0 data or done, 1 refused, 2 poison. A completion without its request is discarded and
counted (R517). -/
def partnerCompletion (port tag status : Nat) (data : List SectorData) (s : State) : State :=
  match s.host.outbound.find? (fun o => Nat.beq o.port port && Nat.beq o.tag tag && !o.done) with
  | none => if port < 32 then s.count (portDie port) Reg.HOST_AER_UE 1 else s
  | some o =>
    match outMover s o with
    | none => dropOut o s
    | some m =>
      if status = 1 then mvFault m 0x04 o.addr (dropOut o s)
      else if status = 2 then mvFault m 0x05 o.addr (dropOut o s)
      else if o.kind = 1 then atsDone o m data (dropOut o s)
      else
        let l := if o.write then o.data else (data ++ List.replicate (o.len / 32) 0).take (o.len / 32)
        let done : Outbound := { o with done := true, data := l, status := status }
        settleAts { s with host := { s.host with outbound := updWhere (fun x => x == o) (fun _ => done) s.host.outbound } }

def execPartnerCompletion (port tag status : Nat) (data : List SectorData) (s : State) : Host.Outcome State Fault Refusal :=
  .next (partnerCompletion port tag status data s)

/-- COMPLETION_TIMEOUT (R517): the mover faults PARTNER-TIMEOUT. A write to a host has none. -/
def completionTimeout (port tag : Nat) (s : State) : State :=
  match s.host.outbound.find? (fun o => Nat.beq o.port port && Nat.beq o.tag tag && !o.done) with
  | none => s
  | some o =>
    if o.write && (ptEntry s o.die o.pt).kind = 0 && o.kind = 0 then s
    else
      let s := dropOut o (if port < 32 then s.count (portDie port) Reg.HOST_CTO_COUNT 1 else s)
      match outMover s o with
      | some m => mvFault m 0x0C o.addr s
      | none => s

def execCompletionTimeout (port tag : Nat) (s : State) : Host.Outcome State Fault Refusal :=
  .next (completionTimeout port tag s)

end Sys2Proof.Machine
end

