-- ==== Sys2Proof/Machine/Partitions.lean ====
section
/-! DEFINITION. Partitions and the warden (chapter 12): PART_CMD and the resets it starts, gate requests and strings
(R449, R450, R462), the warden's fields and mailboxes, and the interrupt remapping entries (R443–R445, R574). -/

namespace Sys2Proof.Machine

/-! ### PART_CMD (R436, R447, R453, R458, R463) -/

/-- Whether a load that concerns partition `p` is past check (R458). -/
def loadConcerns (s : State) (p : Nat) : Bool :=
  match s.img.load with
  | some l => !l.img.partial_ || Nat.beq l.img.target p
  | none => false

/-- The instance named by a PF write is not the mediator's: its host port is another (DEDUCED, log 41). -/
def foreignPf (s : State) (p i : Nat) : Source → Bool
  | .pf port => (instEntry s p i).any (fun e => !(Nat.beq e.hostPort port))
  | .page _ _ => true
  | _ => false

/-- RESULT of PART_CMD_STATUS for a GO-LIVE that does not act; 0 where it acts (R436, R463, R510). -/
def goLiveResult (s : State) (p i : Nat) (src : Source) : Nat :=
  match instEntry s p i, (partDies s p).head? with
  | some e, some d =>
    if foreignPf s p i src then 3
    else if instState s d p i = 3 then 1
    else if instState s d p i ≠ 1 || attachOf s e.hostPort ≠ 2 then 2
    else 0
  | _, _ => 2

/-- The fields of PART_CMD take their values, and OP reads back 0; a write while BUSY changes nothing but RESULT
(R566). -/
def partCmd (d part inst : Nat) (f : State → State) (s : State) : State :=
  if s.rd d Reg.PART_CMD_STATUS_BUSY = 1 then s.wr d Reg.PART_CMD_STATUS_RESULT 1
  else f (((s.wr d Reg.PART_CMD_OP 0).wr d Reg.PART_CMD_PART part).wr d Reg.PART_CMD_INST inst)

/-- GO_LIVE (R436, R447). -/
def goLive (d p i : Nat) (src : Source) (s : State) : State :=
  if wardenOk s p src then
    partCmd d p i (fun s =>
      let r := goLiveResult s p i src
      let s := s.wr d Reg.PART_CMD_STATUS_RESULT r
      if r = 0 then setInstState p i 2 s else s) s
  else wardDenied d Reg.PART_CMD_OP.addr src s

def execGoLive (d part inst : Nat) (src : Source) (s : State) : Host.Outcome State Fault Refusal :=
  onDie s d (goLive d part inst src)

/-- BUSY of the PART_CMD of die `d`: one of its resets runs. -/
def partBusy (d : Nat) (s : State) : State :=
  s.wr d Reg.PART_CMD_STATUS_BUSY (if s.prt.resets.any (fun r => r.waiters.contains d) then 1 else 0)

/-- INST_RESET (R453): from the mediator or the RM. -/
def instResetCmd (d p i : Nat) (src : Source) (s : State) : State :=
  partCmd d p i (fun s =>
    if (instEntry s p i).isNone || (partDies s p).isEmpty then s.wr d Reg.PART_CMD_STATUS_RESULT 2
    else if foreignPf s p i src then s.wr d Reg.PART_CMD_STATUS_RESULT 3
    else partBusy d (instReset d p i 0 [d] (s.wr d Reg.PART_CMD_STATUS_RESULT 0))) s

def execInstReset (d part inst : Nat) (src : Source) (s : State) : Host.Outcome State Fault Refusal :=
  onDie s d (instResetCmd d part inst src)

/-- A partition reset starts (R453): the resets of its instances that run are abandoned, and it completes their work
(R457). A second one is merged with the first. -/
def partReset (d p origin : Nat) (waiters : List Nat) (s : State) : State :=
  if coveredReset s p none then joinReset p none waiters s
  else
    let gone := s.prt.resets.filter (fun r => Nat.beq r.part p)
    let ws := (gone.map (·.waiters)).flatten.foldl addNat waiters
    let run : ResetRun := ⟨d, p, none, origin, s.rtime d, ws⟩
    let s := dropPartCopies p (partResetEffects p s)
    { s with prt := { s.prt with resets := s.prt.resets.filter (fun r => !(Nat.beq r.part p)) ++ [run] } }

/-- Whether a source is the RM's: MGP, or the DC of a die on its behalf (DEDUCED, log 41). -/
def fromRm : Source → Bool
  | .dc => true
  | .mgp => true
  | _ => false

/-- PART_RESET (R453, R458): from the RM. -/
def partResetCmd (d p : Nat) (src : Source) (s : State) : State :=
  partCmd d p 0 (fun s =>
    if (partDies s p).isEmpty then s.wr d Reg.PART_CMD_STATUS_RESULT 2
    else if !fromRm src then s.wr d Reg.PART_CMD_STATUS_RESULT 3
    else if loadConcerns s p then s.wr d Reg.PART_CMD_STATUS_RESULT 1
    else partBusy d (partReset d p 0 [d] (s.wr d Reg.PART_CMD_STATUS_RESULT 0))) s

def execPartReset (d part : Nat) (src : Source) (s : State) : Host.Outcome State Fault Refusal :=
  onDie s d (partResetCmd d part src)

/-- Microseconds of RTIME since `t`. -/
def sinceUs (s : State) (d t : Nat) : Nat := (s.rtime d - t) / 1000

/-- The reset `r` ends: its effects, its record, BUSY of the dies that waited, and the invalidations that it absorbed
(R454, R455, R489). -/
def endReset (r : ResetRun) (s : State) : State :=
  let s := match r.inst with
    | some i => endInstReset r.part i s
    | none => endPartReset r.part s
  let s := resetRecord r.die (if r.inst.isSome then 1 else 2) r.part (r.inst.getD 0xFF) r.origin (sinceUs s r.die r.startedAt) s
  let s := { s with prt := { s.prt with resets := s.prt.resets.erase r } }
  each (allDies s) (fun s d => drainInvals d 9 s) (each r.waiters (fun s d => partBusy d s) s)

/-- RESET_COMPLETE (R455): an instance or partition reset finishes. -/
def resetComplete (p : Nat) (i : Option Nat) (s : State) : State :=
  match s.prt.resets.find? (fun r => Nat.beq r.part p && r.inst == i) with
  | some r => endReset r s
  | none => s

def execResetComplete (part : Nat) (inst : Option Nat) (s : State) : Host.Outcome State Fault Refusal :=
  .next (resetComplete part inst s)

/-! ### Gates and strings (R449–R451, R462) -/

/-- Blocks of a kind on a die: 0 clusters, 1 slices, 2 channels, 3 halves. -/
def blockCount : Nat → Nat
  | 0 => 320
  | 1 => 24
  | 2 => 24
  | 3 => 2
  | _ => 0

/-- Whether a cluster is strung. -/
def clusterStrung (s : State) (d c : Nat) : Bool := s.rdBit d (Reg.WARD_STR_CLUSTER (c / 64)) (c % 64)

/-- Whether a half is strung: it, or a cluster, slice or channel of it (R450). -/
def halfStrung (s : State) (d h : Nat) : Bool :=
  s.rdBit d Reg.WARD_STR_HALF h
    || (List.range 24).any (fun n => Nat.beq (chanSide n) h
      && (s.rdBit d Reg.WARD_STR_SLICE n || s.rdBit d Reg.WARD_STR_CHAN n))
    || (List.range 320).any (fun c => Nat.beq (clusterSide c) h && clusterStrung s d c)

/-- Whether a block is strung (R449, R450). -/
def strung (s : State) (d kind index : Nat) : Bool :=
  match kind with
  | 0 => clusterStrung s d index
  | 1 => s.rdBit d Reg.WARD_STR_SLICE index
  | 2 => s.rdBit d Reg.WARD_STR_CHAN index
  | _ => halfStrung s d index

def GateReq.same (a b : GateReq) : Bool := Nat.beq a.die b.die && Nat.beq a.kind b.kind && Nat.beq a.index b.index

/-- A gate request takes effect (R450): OP 1 power gate, 2 clock stop, 3 restore. -/
def applyGate (g : GateReq) (s : State) : State :=
  let rest := s.prt.gated.filter (fun x => !g.same x)
  { s with prt := { s.prt with gated := if g.op = 3 then rest else rest ++ [g] } }

/-- PART_GATE_STATUS: whether a request is deferred, and the last RESULT. -/
def gateStatus (d result : Nat) (s : State) : State :=
  let b := if s.prt.deferred.any (fun g => Nat.beq g.die d) then 1 else 0
  ((s.wr d Reg.PART_GATE_STATUS_BUSY b).wr d Reg.PART_GATE_STATUS_DEFERRED b).wr d Reg.PART_GATE_STATUS_RESULT result

/-- A gate request on a block that exists (R450): BUSY while one is deferred (Table PART-5), deferred where the block is strung; a
restore is never deferred. -/
def askGate (g : GateReq) (s : State) : State :=
  if s.prt.deferred.any (fun x => Nat.beq x.die g.die) then gateStatus g.die 2 s
  else if g.op ≠ 3 && strung s g.die g.kind g.index then
    gateStatus g.die 0 { s with prt := { s.prt with deferred := s.prt.deferred ++ [g] } }
  else gateStatus g.die 0 (applyGate g s)

/-- A write of PART_GATE_CMD (R450); one while a request is deferred changes nothing but RESULT (R566). -/
def gateRequest (g : GateReq) (s : State) : State :=
  let d := g.die
  if s.prt.deferred.any (fun x => Nat.beq x.die d) then gateStatus d 2 s
  else
    let s := ((s.wr d Reg.PART_GATE_CMD_KIND g.kind).wr d Reg.PART_GATE_CMD_INDEX g.index).wr d Reg.PART_GATE_CMD_OP g.op
    if blockCount g.kind ≤ g.index then gateStatus d 3 s else askGate g s

/-- The clusters of a half that an image leaves without a partition are stopped, as a clock stop under R450; an image that
gives the half to a partition ends that stop (R65; DESIGN CHOICE, log 122: its end, and a half that has the stop of a
PART_GATE_CMD). -/
def stopHalf (d h : Nat) (assigned : Bool) (s : State) : State :=
  let g : GateReq := ⟨d, 3, h, 2⟩
  if assigned then
    let s := { s with prt := { s.prt with gated := s.prt.gated.filter (fun x => x != g) } }
    if s.prt.deferred.contains g then gateStatus d 0 { s with prt := { s.prt with deferred := s.prt.deferred.erase g } } else s
  else if s.prt.gated.contains g || s.prt.deferred.contains g then s
  else askGate g s

def execPowerGate (d kind index : Nat) (_src : Source) (s : State) : Host.Outcome State Fault Refusal :=
  onDie s d (gateRequest ⟨d, kind, index, 1⟩)
def execClockStop (d kind index : Nat) (_src : Source) (s : State) : Host.Outcome State Fault Refusal :=
  onDie s d (gateRequest ⟨d, kind, index, 2⟩)
def execRestore (d kind index : Nat) (_src : Source) (s : State) : Host.Outcome State Fault Refusal :=
  onDie s d (gateRequest ⟨d, kind, index, 3⟩)

/-- STRING_TIMEOUT (R450): STRING_MS has passed on the deferred request of die `d`. -/
def stringTimeout (d : Nat) (s : State) : State :=
  match s.prt.deferred.find? (fun g => Nat.beq g.die d) with
  | none => s
  | some g =>
    let s := gateStatus d 1 { s with prt := { s.prt with deferred := s.prt.deferred.erase g } }
    emit d 0 0x092 0 false [pf 1 g.kind, pf 1 g.op, pf 2 g.index, pf 4 0] (s.count d Reg.WARD_REFUSED 1)

def execStringTimeout (d : Nat) (s : State) : Host.Outcome State Fault Refusal := onDie s d (stringTimeout d)

/-- The deferred request of die `d` takes effect once its block is strung no more (R450, R462). -/
def afterCut (d : Nat) (s : State) : State :=
  match s.prt.deferred.find? (fun g => Nat.beq g.die d) with
  | none => s
  | some g =>
    if strung s d g.kind g.index then s
    else gateStatus d 0 (applyGate g { s with prt := { s.prt with deferred := s.prt.deferred.erase g } })

/-! ### The warden's fields (R446, R464, R562) -/

/-- A write of a warden field: from the warden while it runs (R464, R580), or of the value that the field has (R562);
any other is denied. -/
def wardenWrite (d : Nat) (f : Fld) (src : Source) (v : Nat) (then_ : State → State) (s : State) : State :=
  if src = .warden then
    if s.rd d Reg.WARD_STATUS = 1 then then_ (s.wr d f v) else s
  else if v % 2 ^ f.width = s.rd d f then s
  else wardDenied d f.addr src s

/-- WARD_STR_CLUSTER[w], WARD_STR_SLICE, WARD_STR_CHAN, WARD_STR_HALF, for kinds 0 to 3. -/
def strField (kind w : Nat) : Option Fld :=
  match kind with
  | 0 => if w < 5 then some (Reg.WARD_STR_CLUSTER w) else none
  | 1 => some Reg.WARD_STR_SLICE
  | 2 => some Reg.WARD_STR_CHAN
  | 3 => some Reg.WARD_STR_HALF
  | _ => none

/-- WARD_STR_WRITE (R449): the warden ties and cuts strings. -/
def wardStrWrite (d kind w : Nat) (src : Source) (v : Word) (s : State) : State :=
  match strField kind w with
  | some f => wardenWrite d f src v.toNat (afterCut d) s
  | none => s

def execWardStrWrite (d kind w : Nat) (src : Source) (v : Word) (s : State) : Host.Outcome State Fault Refusal :=
  onDie s d (wardStrWrite d kind w src v)

/-- The sealed partitions of die `d`. -/
def sealedParts (s : State) (d : Nat) : List Nat :=
  ((([0, 1].filter (fun h => s.rd d (Reg.PART_HALF_SEALED h) = 1)).filterMap (halfPart s d)).foldl addNat [])

/-- WARD_DOWN (R464): cause 0 the warden halts, 1 an uncorrectable SRAM error. -/
def wardDown (d cause : Nat) (s : State) : State :=
  if s.rd d Reg.WARD_STATUS = 1 then
    let seq := nextSeq s d
    let s := emit d 1 0x094 3 false [pf 1 cause, pf 7 0] (s.wr d Reg.WARD_STATUS 0)
    each (sealedParts s d) (fun s p => partFault p 0x0C d 0x094 seq s) s
  else s

def execWardDown (d cause : Nat) (s : State) : Host.Outcome State Fault Refusal := onDie s d (wardDown d cause)

/-- WARD_MBOX_IN_WRITE (Table PART-8). -/
def mboxInWrite (d : Nat) (v : Word) (s : State) : State :=
  (s.wr d Reg.WARD_MBOX_IN v.toNat).wr d Reg.WARD_MBOX_STAT_IN_FULL 1

def execWardMboxInWrite (d : Nat) (_src : Source) (v : Word) (s : State) : Host.Outcome State Fault Refusal :=
  onDie s d (mboxInWrite d v)

/-- The port answers a read of `addr` with `v`. -/
def answerRead (d addr v : Nat) (src : Source) (s : State) : State :=
  { s with out := { s.out with reg := s.out.reg ++ [(src, d, addr, v)] } }

/-- A read of WARD_MBOX_IN by the warden clears IN_FULL. -/
def mboxInTaken (d : Nat) (src : Source) (s : State) : State :=
  if src = .warden && decide (s.rd d Reg.WARD_STATUS = 1) then s.wr d Reg.WARD_MBOX_STAT_IN_FULL 0 else s

/-- WARD_MBOX_IN_READ. -/
def mboxInRead (d : Nat) (src : Source) (s : State) : State :=
  mboxInTaken d src (answerRead d Reg.WARD_MBOX_IN.addr (s.rd d Reg.WARD_MBOX_IN) src s)

def execWardMboxInRead (d : Nat) (src : Source) (s : State) : Host.Outcome State Fault Refusal :=
  onDie s d (mboxInRead d src)

/-- WARD_MBOX_OUT_WRITE: the warden's write sets OUT_FULL. -/
def mboxOutWrite (d : Nat) (src : Source) (v : Word) (s : State) : State :=
  wardenWrite d Reg.WARD_MBOX_OUT src v.toNat (fun s => s.wr d Reg.WARD_MBOX_STAT_OUT_FULL 1) s

def execWardMboxOutWrite (d : Nat) (src : Source) (v : Word) (s : State) : Host.Outcome State Fault Refusal :=
  onDie s d (mboxOutWrite d src v)

/-- WARD_MBOX_OUT_READ: a read of WARD_MBOX_OUT clears OUT_FULL. -/
def mboxOutTaken (d : Nat) (s : State) : State := s.wr d Reg.WARD_MBOX_STAT_OUT_FULL 0

def execWardMboxOutRead (d : Nat) (src : Source) (s : State) : Host.Outcome State Fault Refusal :=
  onDie s d (fun s => mboxOutTaken d (answerRead d Reg.WARD_MBOX_OUT.addr (s.rd d Reg.WARD_MBOX_OUT) src s))

/-! ### PART-SRAM and the other protected arrays (R465, R494, R577) -/

/-- PART_SRAM: an uncorrectable error in remapping entry `index` (kind 0), which discards and counts the raise, or in
the bucket of instance slot `index` (kind 1), which discards the charge. The owner of the entry faults. -/
def partSram (d kind index : Nat) (s : State) : State :=
  let s := if kind = 0 then s.count d Reg.PART_IRQ_DROP 1 else s
  match halfPart s d (if kind = 0 then index / 2048 else index / 32) with
  | some p => faultWith p 0x0D d 0 0x095 3 [pf 1 p, pf 1 kind, pf 2 index, pf 4 0] s
  | none => emit d 0 0x095 3 false [pf 1 0, pf 1 kind, pf 2 index, pf 4 0] s

/-- A parity error in the `index`th entry of the die's TLBs and context caches (R494): it is dropped and counted. -/
def xltParity (d index : Nat) (s : State) : State :=
  let ts := s.xlt.tlb.filter (fun e => Nat.beq e.die d)
  let cs := s.xlt.ctxs.filter (fun e => Nat.beq e.die d)
  let s := match ts[index]?, cs[index - ts.length]? with
    | some e, _ => { s with xlt := { s.xlt with tlb := s.xlt.tlb.erase e } }
    | none, some e => { s with xlt := { s.xlt with ctxs := s.xlt.ctxs.erase e } }
    | none, none => s
  correctable d 6 2 index (s.count d Reg.XLT_TLB_ERR 1)

/-- A CORRECTABLE record for an array whose KIND Table FLT-6 does not give: a free value. -/
def correctableFree (d unit kind index : Nat) (s : State) : State :=
  let (k, s) := s.free
  correctableAs d unit kind ((Config.freeWord k).toNat % 256) index s

/-- An uncorrectable error in MESH_CREDIT[r] (R577): every field of it counts as 8 until it is written again. -/
def meshCreditError (d r : Nat) (s : State) : State :=
  let s := if r < 68 then
      each [Reg.MESH_CREDIT_U r, Reg.MESH_CREDIT_REQ r, Reg.MESH_CREDIT_RSP r, Reg.MESH_CREDIT_COH r, Reg.MESH_CREDIT_RED r]
        (fun s f => s.wr d f 8) s
    else s
  correctableFree d 7 6 r s

/-- PART_SRAM, for the arrays of R465, R494 and R577 (DESIGN CHOICE, log 95): `kind` 0 a remapping entry, 1 a bucket,
2 MON_CFG, 3 MESH_CREDIT, 4 a word of MOV_PROG, 5 a translation copy; with a corrected error 6 a word of MOV_PROG, 7 MON_CFG,
8 MESH_CREDIT, 9 a remapping entry. -/
def arrayError (d kind index : Nat) (s : State) : State :=
  match kind with
  | 0 => partSram d 0 index s
  | 1 => partSram d 1 index s
  | 2 => monCfgError d index s
  | 3 => meshCreditError d index s
  | 4 => if index < 8192 then { s with que := { s.que with badProg := addNat s.que.badProg (d * 8192 + index) } } else s
  | 5 => xltParity d index s
  | 6 => correctable d 0x0A 4 index s
  | 7 => correctableFree d 5 6 index s
  | 8 => correctableFree d 7 7 index s
  | 9 => correctableFree d 0 6 index s
  | _ => s

def execPartSram (d kind index : Nat) (s : State) : Host.Outcome State Fault Refusal := onDie s d (arrayError d kind index)

/-! ### Interrupt remapping entries (R443–R445, R574) -/

/-- The host port whose PF is the mediator of remapping entry `e` (R443, R558). -/
def mediatorPort (s : State) (d e : Nat) : Option Nat :=
  (irqOwner s d e).bind (fun o => (instEntry s o.1 o.2).map (·.hostPort))

/-- Whether `src` is the mediator of entry `e` of die `d`. -/
def isMediator (s : State) (d e : Nat) (src : Source) : Bool :=
  match src, mediatorPort s d e with
  | .pf port, some q => Nat.blt e 4096 && Nat.beq port q
  | _, _ => false

/-- The entry's hold ends (R574), and it sends what its PENDING count calls for (R444). -/
def irqRelease (d e : Nat) (unmasked : Bool) (s : State) : State :=
  let s := { s with prt := { s.prt with irqHeld := delNat s.prt.irqHeld (d * 4096 + e) } }
  let n := s.rd d (Reg.PART_IRQ_MAP_PENDING e)
  if 0 < n && irqOpen s d e && (unmasked || decide (s.rd d (Reg.PART_IRQ_MAP_COAL_CNT e) ≤ n)
      || decide (s.rd d (Reg.PART_IRQ_MAP_COAL_US e) = 0)) then
    match irqOwner s d e with
    | some (p, i) => sendMsi d p i e s
    | none => s
  else s

/-- IRQ_MAP_ADDR_WRITE (R574). A write from any other source is discarded (R443). -/
def irqMapAddrWrite (d e : Nat) (src : Source) (v : Word) (s : State) : State :=
  if isMediator s d e src then
    let s := s.wr d (Reg.PART_IRQ_MAP_ADDR e) (v.toNat / 4)
    { s with prt := { s.prt with irqHeld := addNat s.prt.irqHeld (d * 4096 + e) } }
  else s

def execIrqMapAddrWrite (d e : Nat) (src : Source) (v : Word) (s : State) : Host.Outcome State Fault Refusal :=
  onDie s d (irqMapAddrWrite d e src v)

/-- IRQ_MAP_DATA_WRITE (R444, R574): DATA, MASK, COAL_US and COAL_CNT take their values, COAL_CNT clamped to 1–255
(Table PART-5). -/
def irqMapDataWrite (d e : Nat) (src : Source) (v : Word) (s : State) : State :=
  if isMediator s d e src then
    let n := v.toNat
    let was := s.rd d (Reg.PART_IRQ_MAP_MASK e)
    let s := ((s.wr d (Reg.PART_IRQ_MAP_DATA e) (bits n 31 0)).wr d (Reg.PART_IRQ_MAP_MASK e) (bits n 32 32)).wr d
      (Reg.PART_IRQ_MAP_COAL_US e) (bits n 42 33)
    let s := s.wr d (Reg.PART_IRQ_MAP_COAL_CNT e) (max 1 (bits n 50 43))
    irqRelease d e (was == 1 && bits n 32 32 == 0) s
  else s

def execIrqMapDataWrite (d e : Nat) (src : Source) (v : Word) (s : State) : Host.Outcome State Fault Refusal :=
  onDie s d (irqMapDataWrite d e src v)

/-- IRQ_MAP_HOLD_TIMEOUT (R574): 2,000 PCLK after the ADDR write. -/
def irqMapHoldTimeout (d e : Nat) (s : State) : State :=
  if s.prt.irqHeld.contains (d * 4096 + e) then irqRelease d e false s else s

def execIrqMapHoldTimeout (d e : Nat) (s : State) : Host.Outcome State Fault Refusal := onDie s d (irqMapHoldTimeout d e)

/-- IRQ_UNMASK (R444): a write of the DATA word that clears MASK and leaves the other fields. -/
def irqUnmask (d e : Nat) (src : Source) (s : State) : State :=
  if isMediator s d e src then
    let was := s.rd d (Reg.PART_IRQ_MAP_MASK e)
    irqRelease d e (was == 1) (s.wr d (Reg.PART_IRQ_MAP_MASK e) 0)
  else s

def execIrqUnmask (d e : Nat) (src : Source) (s : State) : Host.Outcome State Fault Refusal :=
  onDie s d (irqUnmask d e src)

end Sys2Proof.Machine
end

