-- ==== Sys2Proof/Machine/HostPort.lean ====
section
/-! DEFINITION. Host and partner ports (chapter 14): links, resets of a port and of a function (R509, R521), the partner
table (R506–R508, R515, R518), bridge requests (R516), ATS invalidations (R514) and port errors (R526). -/

namespace Sys2Proof.Machine

/-! ### Ports -/

/-- ROLE in force at a host port. -/
def roleOf (s : State) (port : Nat) : Nat := s.rd (portDie port) Reg.HOST_STATUS_ROLE

/-- Whether the port exists in the rack and its die is up. -/
def portLive (s : State) (port : Nat) : Bool := Nat.blt (portDie port) (dieCount s.orderCode) && dieUp s (portDie port)

/-- A completion sent to the host at a port. -/
def hostRsp (port status : Nat) (poison : Bool) (bytes : List Byte) (s : State) : State :=
  { s with out := { s.out with host := s.out.host ++ [⟨port, status, poison, bytes⟩] } }

/-- HOST_ABI and HOST_ABI_STATUS at their reset values (Table REG-5). -/
def abiReset (port : Nat) (s : State) : State :=
  let d := portDie port
  let s := (((s.wr d Reg.HOST_ABI_MINOR 0).wr d Reg.HOST_ABI_MAJOR 0).wr d Reg.HOST_ABI_STATUS_RESULT 0).wr d
    Reg.HOST_ABI_STATUS_ACTIVE 0
  { s with host := { s.host with abiHeld := delNat s.host.abiHeld port } }

/-- The slice instances of a port in its port-local slots: ascending by partition, then instance (R499). -/
def sliceSlots (s : State) (port : Nat) : List (Nat × Nat) :=
  ((sortNat (imgParts s)).map (fun p =>
    if sliceMode s p then
      (sortNat (((instances s p).filter (fun e => Nat.beq e.hostPort port)).map (·.id))).map (fun i => (p, i))
    else [])).flatten

/-- The register set f of a requester (Table HOST-9): the function, or 64 + j for a PASID of slot j. -/
def fnIndex (s : State) (port fn : Nat) (pasid : Option (BitVec 20)) : Nat :=
  match pasid, requesterInst s port fn pasid with
  | some _, some x => 64 + ((sliceSlots s port).takeWhile (fun y => !(Nat.beq y.1 x.1 && Nat.beq y.2 x.2))).length
  | _, _ => fn

/-- The HOST-DMA-CUT record of an inbound write cut short, naming its last committed TLP (Table HOST-5). FUNC is the
function number, ADDR the TLP's offset in its BAR (DESIGN CHOICE, log 42). -/
def cutRecord (b : Burst) (cause : Nat) (s : State) : State :=
  let d := portDie b.port
  let who := requesterInst s b.port b.fn b.pasid
  let sealed_ := match who with | some (p, _) => partSealed s p | none => false
  let s := emit d 9 0x0B0 0 sealed_
    [pf 1 b.fn, pf 1 cause, pf 2 0, pf 4 ((b.pasid.map (·.toNat)).getD 0), pa_ 8 b.addr, pa_ 4 b.len, pf 4 0] s
  s.count d (Reg.HOST_FN_CUT (fnIndex s b.port b.fn b.pasid)) 1

/-- Every inbound write in progress that satisfies the test is cut (R521): cause 0 FLR, 1 hot reset, 2 link down. -/
def cutBursts (f : Burst → Bool) (cause : Nat) (s : State) : State :=
  let gone := s.host.bursts.filter f
  let s := { s with host := { s.host with bursts := s.host.bursts.filter (fun b => !f b) } }
  each gone (fun s b => cutRecord b cause s) s

/-- Outbound writes that the partner has not accepted when the link goes down: each is lost, and its mover faults
PARTNER-TIMEOUT (Table HOST-5). -/
def dropWrites (port : Nat) (s : State) : State :=
  each (s.host.outbound.filter (fun o => Nat.beq o.port port && o.write && !o.done)) (fun s o =>
    match outMover s o with
    | some m => mvFault m 0x0C o.addr (dropOut o s)
    | none => dropOut o s) s

/-- The functions of the port as a reset of all of them leaves them. -/
def clearFunctions (port : Nat) (s : State) : State :=
  { s with host := { s.host with
      numVfs := SMap.set 0 s.host.numVfs port 0,
      cfg := s.host.cfg.filter (fun x => !(Nat.beq x.1 port)),
      msixTab := s.host.msixTab.filter (fun x => !(Nat.beq x.1 port)) } }

/-- HOST_STATUS of a link that is down. -/
def statusDown (port : Nat) (s : State) : State :=
  let d := portDie port
  let s := (((s.wr d Reg.HOST_STATUS_ATTACH 0).wr d Reg.HOST_STATUS_SPEED 0).wr d Reg.HOST_STATUS_WIDTH 0).wr d
    Reg.HOST_STATUS_FLIT 0
  ((s.wr d Reg.HOST_CXL_PRESENT 0).wr d Reg.HOST_CXL_HDM 0).wr d Reg.HOST_CXL_CAP 0

/-- Whether the link of a port is at DL_Active. -/
def linkIsUp (s : State) (port : Nat) : Bool :=
  s.rd (portDie port) Reg.HOST_STATUS_ATTACH != 0 || s.rd (portDie port) Reg.HOST_CXL_PRESENT == 1

/-- The link goes down (R509, R521). -/
def portDown (port : Nat) (s : State) : State :=
  if linkIsUp s port then
    statusDown port (clearFunctions port (abiReset port (dropWrites port (cutBursts (fun b => Nat.beq b.port port) 2 s))))
  else s

/-- A hot reset returns the port to LINKED (R509). -/
def hotReset (port : Nat) (s : State) : State :=
  if attachOf s port ≠ 0 then
    let s := clearFunctions port (abiReset port (cutBursts (fun b => Nat.beq b.port port) 1 s))
    s.wr (portDie port) Reg.HOST_STATUS_ATTACH 1
  else s

/-- HOST_LINK_DOWN (R509, R521): cause 1 hot reset, any other link down. -/
def hostLinkDown (port cause : Nat) (s : State) : State :=
  if portLive s port then (if cause = 1 then hotReset port s else portDown port s) else s

def execHostLinkDown (port cause : Nat) (s : State) : Host.Outcome State Fault Refusal :=
  onDie s (portDie port) (hostLinkDown port cause)

/-! ### The partner table -/

/-- Dies that hold a copy of the partner table: every die that is up. -/
def ptDies (s : State) : List Nat := (allDies s).filter (dieUp s)

/-- PT[i] stored on every die, and every cached copy dropped (R508). -/
def ptStore (i : Nat) (e : PtEntry) (s : State) : State :=
  let s := each (ptDies s) (fun s d => { s with host := { s.host with pt := bind_ (d * 256 + i) e s.host.pt } }) s
  { s with xlt := { s.xlt with
      pts := s.xlt.pts.filter (fun c => !(Nat.beq c.index i)),
      tlb := s.xlt.tlb.filter (fun t => t.partner != some i) } }

/-- PT[i] as the dies that are up hold it. -/
def ptNow (s : State) (i : Nat) : PtEntry := ptEntry s (((ptDies s).head?).getD 0) i

/-- Entries that satisfy the test go to RETIRED on every die (R518); and how many there were. -/
def ptRetireWhere (f : PtEntry → Bool) (s : State) : Nat × State :=
  let is := (List.range 256).filter (fun i => Nat.beq (ptNow s i).state 1 && f (ptNow s i))
  (is.length, each is (fun s i => ptStore i { ptNow s i with state := 2 } s) s)

/-- The four words of an entry (Table HOST-3). -/
def ptWords (e : PtEntry) : List Nat :=
  let w0 := e.state + e.kind * 4 + e.port * 0x100 + e.part * 0x10000
    + (if e.atBit then 0x1000000 else 0) + (if e.rd then 0x2000000 else 0) + (if e.wr then 0x4000000 else 0)
    + e.insts.toNat * 0x100000000
  [w0, e.base.toNat, e.size.toNat, e.word18.toNat]

/-- The entry that four words give. -/
def ptOfWords (w0 w1 w2 w3 : Nat) : PtEntry :=
  ⟨bits w0 1 0, bits w0 4 2, bits w0 15 8, bits w0 22 16, w0.testBit 24, w0.testBit 25, w0.testBit 26,
   BitVec.ofNat 32 (w0 / 2 ^ 32), BitVec.ofNat 64 w1, BitVec.ofNat 64 w2, BitVec.ofNat 32 w3⟩

/-- Whether BASE to BASE + SIZE − 1 lies in halves of PART (R516). Halves change only at multiples of 2^45. -/
def exportOk (s : State) (e : PtEntry) : Bool :=
  let a := e.base.toNat
  let z := a + e.size.toNat - 1
  Nat.blt z (2 ^ 52) && (List.range (z / 2 ^ 45 - a / 2 ^ 45 + 1)).all (fun k =>
    homePart s ((a / 2 ^ 45 + k) * 2 ^ 45) == some e.part)

/-- Whether the fields of an entry to be written are in range (Table HOST-3, R516). -/
def ptInRange (s : State) (e : PtEntry) : Bool :=
  Nat.beq e.state 0
    || (Nat.blt e.state 3 && Nat.blt e.kind 4 && e.size != 0 && Nat.beq (e.size.toNat % 0x10000) 0
        && (e.kind != 3 || exportOk s e))

/-- Whether the PF of `port` may write over the entry: free, or a HOST or CXL entry of its own port (R508). -/
def ptOfPort (port : Nat) (e : PtEntry) : Bool :=
  Nat.beq e.state 0 || (Nat.blt e.kind 2 && Nat.beq e.port port)

/-- Whether `src` may turn entry `old` into `new` (R508). -/
def ptMayWrite (s : State) (old new : PtEntry) (src : Source) : Bool :=
  let sealed_ := (old.state != 0 && partSealed s old.part) || (new.state != 0 && partSealed s new.part)
  match src with
  | .warden => sealed_
  | .dc => !sealed_
  | .mgp => !sealed_
  | .pf port => !sealed_ && ptOfPort port old && ptOfPort port new
  | .page _ _ => false

/-- HOST_PT_CMD: its fields, OP reading back 0, and RESULT. -/
def ptResult (d i result : Nat) (s : State) : State :=
  ((s.wr d Reg.HOST_PT_CMD_INDEX i).wr d Reg.HOST_PT_CMD_OP 0).wr d Reg.HOST_PT_STATUS_RESULT result

/-- Whether a change of an entry through die `d` still waits for accesses that passed the check against the old one (R522). -/
def ptBusy (s : State) (d : Nat) : Bool := s.host.outbound.any (fun o => !o.done && o.before.contains d)

/-- The change of PT[i] through die `d` waits for the accesses to the old entry in flight (R522). DESIGN CHOICE,
log 126. -/
def ptAwait (d i : Nat) (s : State) : State :=
  let old (o : Outbound) : Bool := Nat.beq o.pt i && Nat.beq o.kind 0 && !o.done
  { s with host := { s.host with
      outbound := updWhere old (fun o => { o with before := addNat o.before d }) s.host.outbound } }

/-- A change of PT[i] from a source, through die `d`: DENIED, RANGE or OK (Table HOST-8). -/
def ptChange (d i : Nat) (e : PtEntry) (src : Source) (s : State) : State :=
  if !ptMayWrite s (ptNow s i) e src then
    let s := ptResult d i 1 s
    if (ptMayWrite s (ptNow s i) e .warden) && src != .warden then wardDenied d Reg.HOST_PT_CMD_OP.addr src s else s
  else if !ptInRange s e then ptResult d i 2 s
  else ptResult d i 0 (ptAwait d i (ptStore i e s))

/-- HOST_PT_DATA as an entry. -/
def ptData (s : State) (d : Nat) : PtEntry :=
  ptOfWords (s.rd d (Reg.HOST_PT_DATA 0)) (s.rd d (Reg.HOST_PT_DATA 1)) (s.rd d (Reg.HOST_PT_DATA 2))
    (s.rd d (Reg.HOST_PT_DATA 3))

/-- PT_WRITE (R508); one while the last command waits is refused (R566). -/
def ptWrite (d i : Nat) (src : Source) (s : State) : State :=
  if ptBusy s d then s else ptChange d (i % 256) (ptData s d) src s

def execPtWrite (d index : Nat) (src : Source) (s : State) : Host.Outcome State Fault Refusal :=
  onDie s d (ptWrite d index src)

/-- PT_READ (R508): the entry appears in HOST_PT_DATA. -/
def ptRead (d i : Nat) (s : State) : State :=
  let e := ptEntry s d (i % 256)
  if ptBusy s d then s
  else
    let s := each ([0, 1, 2, 3].zip (ptWords e)) (fun s x => s.wr d (Reg.HOST_PT_DATA x.1) x.2) s
    ptResult d (i % 256) 0 s

def execPtRead (d index : Nat) (_src : Source) (s : State) : Host.Outcome State Fault Refusal :=
  onDie s d (ptRead d index)

/-- PT_RETIRE (R518). -/
def ptRetire (d i : Nat) (src : Source) (s : State) : State :=
  if ptBusy s d then s else ptChange d (i % 256) { ptNow s (i % 256) with state := 2 } src s

def execPtRetire (d index : Nat) (src : Source) (s : State) : Host.Outcome State Fault Refusal :=
  onDie s d (ptRetire d index src)

/-- The copy of a die that comes back, fetched from a live die (R527). -/
def ptFetch (d : Nat) (s : State) : State :=
  match (ptDies s).find? (fun x => !(Nat.beq x d)) with
  | none => s
  | some x =>
    let mine := s.host.pt.filter (fun e => Nat.beq (e.1 / 256) x)
    let copy := mine.map (fun e => (d * 256 + e.1 % 256, e.2))
    { s with host := { s.host with pt := s.host.pt.filter (fun e => !(Nat.beq (e.1 / 256) d)) ++ copy } }

/-! ### A link comes up (R509, R515, R527) -/

/-- The expander's entry, with its capacity mapped up to 2 TiB (R515, Table HOST-4). -/
def cxlEntry (port capacity : Nat) : PtEntry :=
  ⟨1, 1, port, 0, false, true, true, 0, 0, BitVec.ofNat 64 (min capacity (2 ^ 41) / 0x10000 * 0x10000), 0⟩

/-- LINK_UP: DL_Active at a port whose role the image gives (R527); at 64 GT/s only in Flit Mode (Table HOST-1). A CXL partner
is enumerated at once. -/
def linkUp (port speed width : Nat) (flit : Bool) (capacity : Nat) (s : State) : State :=
  let d := portDie port
  if !portLive s port || s.host.failedPorts.contains port || linkIsUp s port || 2 ≤ roleOf s port || speed = 6 && !flit then s
  else
    let s := ((s.wr d Reg.HOST_STATUS_SPEED speed).wr d Reg.HOST_STATUS_WIDTH width).wr d Reg.HOST_STATUS_FLIT
      (if flit then 1 else 0)
    if roleOf s port = 0 then s.wr d Reg.HOST_STATUS_ATTACH 1
    else
      let e := cxlEntry port capacity
      let s := ((s.wr d Reg.HOST_CXL_PRESENT 1).wr d Reg.HOST_CXL_HDM 1).wr d Reg.HOST_CXL_CAP (e.size.toNat / 0x10000)
      ptStore (32 + port) e s

def execLinkUp (port speed width : Nat) (flit : Bool) (capacity : Nat) (s : State) : Host.Outcome State Fault Refusal :=
  onDie s (portDie port) (linkUp port speed width flit capacity)

/-! ### FLR (R454, R458, R509, R524) -/

/-- HOST_FN[f] at its reset values (Table REG-5). -/
def fnReset (port f : Nat) (s : State) : State :=
  let d := portDie port
  let s := ((s.wr d (Reg.HOST_FN_VBASE f) 0).wr d (Reg.HOST_FN_CTX_CTX f) 0).wr d (Reg.HOST_FN_PBASE f) 0
  s.wr d (Reg.HOST_FN_CUT f) 0

/-- FLR of the PF or of a VF. Its function's register set is reset before the cut it makes is counted (DESIGN CHOICE, log 42). -/
def flr (port f : Nat) (s : State) : State :=
  if !portLive s port || attachOf s port = 0 || SMap.get 0 s.host.numVfs port < f then s
  else
    let s := cutBursts (fun b => Nat.beq b.port port && Nat.beq b.fn f) 0 (fnReset port f s)
    let s := { s with host := { s.host with
      msixTab := s.host.msixTab.filter (fun x => !(Nat.beq x.1 port && Nat.beq x.2.1 f)) } }
    if f = 0 then (abiReset port s).wr (portDie port) Reg.HOST_STATUS_ATTACH 1
    else
      match requesterInst s port f none with
      | some (p, i) => instReset (portDie port) p i 1 [] s
      | none => s

def execFlr (port f : Nat) (s : State) : Host.Outcome State Fault Refusal := onDie s (portDie port) (flr port f)

/-! ### Memory as a host or a bridge reaches it (R504, R516) -/

/-- Who a home read or write at `pa` is, carrying tag `part`. -/
def homeBy (s : State) (pa part : Nat) : AccBy := ⟨homeDie pa, homeSide s pa, part, 3, 0, false, 0⟩

/-- What one sector of an inbound access gives: ok with its data and poison, or a permission failure. -/
inductive InRes where
  | ok (v : SectorData) (poison : Bool)
  | failed
  deriving DecidableEq, Repr

/-- A home read carrying tag `part` from die `from_` (R504): another partition's memory is refused, a sealed one's
reads zero (R448). Where another transaction holds the line, the newest copy answers. -/
def inRead (from_ pa part : Nat) (s : State) : InRes × State :=
  let hd := homeDie pa
  if dieCount s.orderCode ≤ hd || !dieUp s hd then (.failed, s)
  else if homePart s pa ≠ some part then
    match crossPart ⟨from_, 0, part, 3, 0, false, 200⟩ pa 0 s with
    | (.ok v p, s) => (.ok v p, s)
    | (.denied, s) => (.failed, s)
  else
    match accRead (homeBy s pa part) pa s with
    | some (.ok v p, s) => (.ok v p, s)
    | some (.denied, s) => (.failed, s)
    | none => let x := newestSector pa s; (.ok x.1 x.2, s)

/-- A home write carrying tag `part`; with `ep` the sector is left poisoned (R512). Where another transaction holds the line,
it waits at the home slice (R264). -/
def inWrite (from_ pa part : Nat) (mask : BitVec 32) (v : SectorData) (ep : Bool) (s : State) : InRes × State :=
  let hd := homeDie pa
  if dieCount s.orderCode ≤ hd || !dieUp s hd then (.failed, s)
  else if homePart s pa ≠ some part then
    match homePart s pa with
    | some hp =>
      if partSealed s hp then (.ok 0 false, sealedAccess pa hp 3 1 s)
      else (.failed, (crossPart ⟨from_, 0, part, 3, 0, false, 200⟩ pa 1 s).2)
    | none => (.failed, (crossPart ⟨from_, 0, part, 3, 0, false, 200⟩ pa 1 s).2)
  else
    let done (s : State) : State := if ep && backed s pa then poisonSector pa s else s
    match accWrite (homeBy s pa part) pa mask v s with
    | some (.ok _ _, s) => (.ok 0 false, done s)
    | some (.denied, s) => (.failed, s)
    | none => (.ok 0 false, if !backed s pa then s
        else waitAccess (homeBy s pa part) pa (if ep then .badWrite mask v else .write mask v) s)

/-- `n` bytes from `pa` on: the bytes, whether one was poisoned, whether one failed. -/
def inBytes (read : Nat → State → InRes × State) : Nat → Nat → Nat → State → (List Byte × Bool × Bool) × State
  | 0, _, _, s => (([], false, false), s)
  | fuel + 1, pa, n, s =>
    if n = 0 then (([], false, false), s)
    else
      let o := pa % 32
      let k := min n (32 - o)
      match read pa s with
      | (.failed, s) => (([], false, true), s)
      | (.ok v p, s) =>
        let (r, s) := inBytes read fuel (pa + k) (n - k) s
        ((((leBytes 32 v.toNat).drop o).take k ++ r.1, p || r.2.1, r.2.2), s)

/-- Bytes written from `pa` on; whether one failed. -/
def inPut (write : Nat → BitVec 32 → SectorData → State → InRes × State) : Nat → Nat → List Byte → State → Bool × State
  | 0, _, _, s => (false, s)
  | fuel + 1, pa, l, s =>
    if l.isEmpty then (false, s)
    else
      let o := pa % 32
      let k := min l.length (32 - o)
      let (r, s) := write pa (byteMask o k) (BitVec.ofNat 256 (ofLe (l.take k) * 256 ^ o)) s
      let (bad, s) := inPut write fuel (pa + k) (l.drop k) s
      (bad || r == .failed, s)

/-! ### Bridge requests (R308, R516) -/

/-- An answer sent through a bridge port: status 0 done, 1 DENIED. -/
def bridgeRsp (bport status : Nat) (poison : Bool) (bytes : List Byte) (s : State) : State :=
  { s with out := { s.out with bridge := s.out.bridge ++ [⟨bport, status, poison, bytes⟩] } }

/-- Whether a bridge port is in role and leads to a rack (Table IMG-8, R308). -/
def bridgeTo (s : State) (plane bport rack : Nat) : Bool :=
  match portEntry s 1 (plane * 8 + bport) with
  | some e => Nat.beq (leAt e 2 1) 1 && Nat.beq (leAt e 6 2) rack && !s.rack.planeLost.contains plane
  | none => false

/-- Whether PT[index] lets the remote rack make the access (R516). -/
def exportLets (e : PtEntry) (num rack off len : Nat) (write : Bool) : Bool :=
  Nat.beq e.state 1 && Nat.beq e.kind 3 && Nat.beq e.port num && Nat.beq (e.word18.toNat % 0x10000) rack
    && Nat.ble (off + len) e.size.toNat && (if write then e.wr else e.rd)

/-- BRIDGE_REQUEST: a REQ of a partner rack to EXPORT `index`. A packet from a rack that is not the port's peer, or for a rack
other than this one, is discarded (R308). -/
def bridgeRequest (plane bport rack dest index off len : Nat) (write : Option (List SectorData)) (s : State) : State :=
  let num := plane * 8 + bport
  let e := ptNow s index
  let n := match write with | some l => 32 * l.length | none => len
  if !bridgeTo s plane bport rack || dest ≠ s.rack.rackNo then s
  else if !exportLets e num rack off n write.isSome then bridgeRsp num 1 false [] s
  else
    let pa := e.base.toNat + off
    match write with
    | some l =>
      let bytes := (l.map (fun v => leBytes 32 v.toNat)).flatten
      let (bad, s) := inPut (fun pa m v s => inWrite (homeDie pa) pa e.part m v false s) (n / 32 + 2) pa bytes s
      bridgeRsp num (if bad then 1 else 0) false [] s
    | none =>
      let (r, s) := inBytes (fun pa s => inRead (homeDie pa) pa e.part s) (n / 32 + 2) pa n s
      if r.2.2 then bridgeRsp num 1 false [] s else bridgeRsp num 0 r.2.1 r.1 s

def execBridgeRequest (plane bport : Nat) (racks : BridgeRacks) (index off : Nat) (len : Nat)
    (write : Option (List SectorData)) (s : State) : Host.Outcome State Fault Refusal :=
  .next (bridgeRequest plane bport racks.source racks.dest index off len write s)

/-! ### ATS invalidations (R514, R523) -/

/-- ATS_INVALIDATION: every translation of the port's host addresses `addr` to `addr + len − 1` leaves every mover TLB
of the rack. The Invalidation Completion is returned once no access through one of them is in flight (R514, R523). -/
def atsInvalidation (port addr len : Nat) (s : State) : State :=
  let hit (t : Tlb) : Bool := Nat.beq t.level 2 && Nat.blt t.va (addr + len) && Nat.blt addr (t.va + t.size)
    && (match t.partner with
        | some i => Nat.beq (ptEntry s t.die i).kind 0 && Nat.beq (ptEntry s t.die i).port port
        | none => false)
  let uses (o : Outbound) : Bool := Nat.beq o.port port && !o.done && (match o.via with
    | some a => Nat.blt a (addr + len) && Nat.blt addr (a + o.len)
    | none => false)
  let id := (s.host.atsInv.map (·.1)).foldl max 64 + 1
  if portLive s port && linkIsUp s port then
    settleAts { s with
      xlt := { s.xlt with tlb := s.xlt.tlb.filter (fun t => !hit t) },
      host := { s.host with
        outbound := updWhere uses (fun o => { o with before := o.before ++ [id] }) s.host.outbound,
        atsInv := s.host.atsInv ++ [(id, port)] } }
  else s

def execAtsInvalidation (port addr len : Nat) (s : State) : Host.Outcome State Fault Refusal :=
  onDie s (portDie port) (atsInvalidation port addr len)

/-! ### Port errors (R526) -/

/-- Partitions with an instance on the port, or owning a PT entry of it (Table HOST-6). -/
def partsOnPort (s : State) (port : Nat) : List Nat :=
  (List.range 128).filter (fun p =>
    (instances s p).any (fun e => Nat.beq e.hostPort port)
      || (List.range 256).any (fun i =>
            let e := ptNow s i
            Nat.beq e.state 1 && Nat.blt e.kind 2 && Nat.beq e.port port && Nat.beq e.part p))

/-- HOST_PORT_ERROR: kind 0 correctable, 1 malformed TLP or unexpected completion, 2 fatal, 3 an uncorrectable error
inside the controller. SEVERITY of HOST-AER has no stated coding: a free value (DESIGN CHOICE, log 43). -/
def hostPortError (port kind status : Nat) (header : BitVec 128) (s : State) : State :=
  let d := portDie port
  if !portLive s port then s
  else
    match kind with
    | 0 => s.count d Reg.HOST_AER_CE 1
    | 1 =>
      let (k, s) := (s.count d Reg.HOST_AER_UE 1).free
      emit d 9 0x0B1 1 false [pf 1 port, pf 1 ((Config.freeWord k).toNat % 256), pf 2 0, pf 4 status, pf 16 header.toNat] s
    | 2 => portDown port s
    | _ =>
      let ps := partsOnPort s port
      let s := portDown port s
      let s := { s with host := { s.host with failedPorts := addNat s.host.failedPorts port } }
      let seq := nextSeq s d
      let s := emit d 9 0x0B2 3 false [pf 1 port, pf 7 0] s
      each ps (fun s p => partFault p 0x0F d 0x0B2 seq s) s

def execHostPortError (port kind status : Nat) (header : BitVec 128) (s : State) : Host.Outcome State Fault Refusal :=
  onDie s (portDie port) (hostPortError port kind status header)

/-! ### Configuration requests (R498, R510) -/

/-- The register number by which the model names NumVFs of the PF's SR-IOV capability (DESIGN CHOICE, log 44). -/
def numVfsReg : Nat := 0x10

/-- CONFIGURATION_REQUEST: a write sets the register, a read returns what was written; NumVFs is 0 to 63. A function
that does not exist, or a link that is down, gives Unsupported Request. -/
def configurationRequest (port f reg : Nat) (write : Option (BitVec 32)) (s : State) : State :=
  let vfs := SMap.get 0 s.host.numVfs port
  if !portLive s port || attachOf s port = 0 then s
  else if vfs < f then (if write.isSome then s else hostRsp port 1 false [] s)
  else
    match write with
    | some v =>
      if f = 0 && reg = numVfsReg then
        if v.toNat < 64 then { s with host := { s.host with numVfs := SMap.set 0 s.host.numVfs port v.toNat } } else s
      else
        let mine (x : Nat × Nat × Nat × BitVec 32) : Bool := Nat.beq x.1 port && Nat.beq x.2.1 f && Nat.beq x.2.2.1 reg
        { s with host := { s.host with cfg := putWhere mine (port, f, reg, v) s.host.cfg } }
    | none =>
      if f = 0 && reg = numVfsReg then hostRsp port 0 false (leBytes 4 vfs) s
      else
        match s.host.cfg.find? (fun x => Nat.beq x.1 port && Nat.beq x.2.1 f && Nat.beq x.2.2.1 reg) with
        | some x => hostRsp port 0 false (leBytes 4 x.2.2.2.toNat) s
        | none =>
          let (k, s) := s.free
          hostRsp port 0 false (leBytes 4 (Config.freeWord k).toNat) s

def execConfigurationRequest (port f reg : Nat) (write : Option (BitVec 32)) (s : State) : Host.Outcome State Fault Refusal :=
  onDie s (portDie port) (configurationRequest port f reg write)

end Sys2Proof.Machine
end

