-- ==== Sys2Proof/Machine/Loads.lean ====
section
/-! DEFINITION. How an image load ends (R61, R73, R75): its agents, its target partitions, and a rejection. -/

namespace Sys2Proof.Machine

/-- The number of an agent of a load in IMG_DETAIL: dies 0–63, spine switches 64 and 65; 0x7F is the RM (R75). -/
def rmAgent : Nat := 0x7F

/-- A detail word (R75): frame 0xFFFF is none; an offset where one is given. -/
def detailWord (frame agent : Nat) (off : Option Nat) : Nat :=
  frame % 0x10000 + agent * 0x10000 + (match off with | some o => 0x800000 + o * 0x1000000 | none => 0)

/-- The partitions that a load targets (Table IMG-9). -/
def loadTargets (s : State) (l : Load) : List Nat := if l.img.partial_ then [l.img.target] else allParts s

/-- Dispatch resumes on the live image (R61): QUIESCED ends, to FAULTED where a fault came meanwhile (R72). -/
def resumePart (p : Nat) (s : State) : State :=
  each (partHalves s p) (fun s h =>
    if s.rd (h / 2) (Reg.PART_STATE (h % 2)) = 2 then
      s.wr (h / 2) (Reg.PART_STATE (h % 2)) (if s.prt.faulted.contains p then 3 else 1)
    else s) s

/-- IMG_STATUS of an agent in a phase of a load. -/
def imgStatus (phase busy : Nat) (partial_ : Bool) (target a : Nat) (s : State) : State :=
  (((s.wr a Reg.IMG_STATUS_PHASE phase).wr a Reg.IMG_STATUS_BUSY busy).wr a Reg.IMG_STATUS_PARTIAL
    (if partial_ then 1 else 0)).wr a Reg.IMG_STATUS_TARGET (if partial_ then target else 0)

/-- The result of a load at an agent: idle, with the code and the detail word. -/
def imgResult (code detail a : Nat) (s : State) : State :=
  let s := ((imgStatus 0 0 false 0 a s).wr a Reg.IMG_STATUS_RESULT code).wr a Reg.IMG_DETAIL detail
  if code = 0 then s else s.count a Reg.IMG_REJECTS 1

/-- The RM's IMAGE-REJECT record (R75). PHASE holds the IMG_CMD code of the phase (DESIGN CHOICE, log 45). -/
def rejectRecord (code phase detail serial : Nat) (sealed_ : Bool) (s : State) : State :=
  rackEmit 0xFFF 0x021 0 sealed_ [pf 1 code, pf 1 phase, pf 6 0, pa_ 8 detail, pa_ 8 serial] s

/-- Whether a load concerns a sealed partition: a partial one whose target is sealed (R539). -/
def loadSealed (s : State) (l : Load) : Bool := l.img.partial_ && partSealed s l.img.target

/-- IMG_CMD code of a phase. -/
def LoadPhase.code : LoadPhase → Nat
  | .checked => 1
  | .staged => 2
  | .quiescing => 3
  | .quiesced => 3
  | .committing => 4
  | .released => 5

/-- The load in progress ends with a code; shadow state is discarded and dispatch resumes (R61, R75). -/
def rejectLoad (code detail : Nat) (s : State) : State :=
  match s.img.load with
  | none => s
  | some l =>
    let s := each (loadTargets s l) (fun s p => resumePart p s) s
    let s := rejectRecord code l.phase.code detail l.img.serial (loadSealed s l) s
    let s := each (l.agents.filter (fun a => !l.gone.contains a)) (fun s a => imgResult code detail a s) s
    { s with img := { s.img with load := none, shadow := [] } }

/-- A die is declared dead during a load (R73): before COMMIT, one that the load concerns has it rejected; any other no
longer takes part. -/
def loadLosesDie (d : Nat) (s : State) : State :=
  match s.img.load with
  | none => s
  | some l =>
    if !l.agents.contains d then s
    else if committing l || !loadOnDie s l d then
      { s with img := { s.img with load := some { l with agents := delNat l.agents d, armed := delNat l.armed d } } }
    else rejectLoad 0x1C (detailWord 0xFFFF rmAgent none) s

end Sys2Proof.Machine
end

