-- ==== Sys2Proof/Machine/Boot.lean ====
section
/-! DEFINITION. Start-up of a die (chapter 3, stages 3 to 9 of Table BOOT-1) and the resets that start it again (R41,
R121, R536, R598). Each stage is a command: it acts on a die that is up, has completed the stage before, and has not
stopped. -/

namespace Sys2Proof.Machine

/-! ### Stages and their failures (R79, R80, R120) -/

/-- The console of a DC prints a stage number, or 256 and an ERROR code (R120). -/
def uartPrint (d n : Nat) (s : State) : State :=
  { s with boot := { s.boot with uart := s.boot.uart ++ [(d, n)] } }

/-- Whether the die has completed the stage of code `code`, runs and has not stopped. -/
def atStage (s : State) (d code : Nat) : Bool :=
  dieUp s d && s.rd d Reg.DC_BOOT_STATUS_STAGE == code && s.rd d Reg.DC_BOOT_STATUS_ERROR == 0

/-- A stage is complete: its STAGE code, and its number on the console. The DC also prints the stages that it did not run
itself: 1 and 2 once it has clocks, 11 to 13 as the rack completes them (DEDUCED, log 97). -/
def stageDone (d code : Nat) (s : State) : State := uartPrint d (code + 2) (s.wr d Reg.DC_BOOT_STATUS_STAGE code)

/-- A BOOT-FAIL record (R120), of every failure of Table BOOT-7; ERROR is 0 where the table gives no code. DETAIL has no
stated content: a free value (DESIGN CHOICE, log 46). -/
def failRecord (d stage err copy : Nat) (s : State) : State :=
  let (k, s) := s.free
  emit d 0 0x011 0 false [pf 1 stage, pf 1 err, pf 1 copy, pf 1 0, pf 4 ((Config.freeWord k).toNat % 2 ^ 32)] s

/-- The die stops in stage `stage` (Table BOOT-7): ERROR, a BOOT-FAIL record, and the console. -/
def bootFail (d stage err copy : Nat) (s : State) : State :=
  uartPrint d (256 + err) (failRecord d stage err copy (s.wr d Reg.DC_BOOT_STATUS_ERROR err))

/-! ### Stage 3: the PLL (R41, R44, R45, R84) -/

/-- Whether the die's PLL is trying to lock. -/
def locking (s : State) (d : Nat) : Bool :=
  s.rack.powered.contains d && s.boot.inReset.contains d && !s.boot.tripWait.contains d && !s.boot.pllDead.contains d

/-- PLL_LOCK: the clocks start with CCLK at ÷12 and RTIME starts from zero. A lock shows that REFCLK runs (DEDUCED, log 47). -/
def pllLock (d : Nat) (s : State) : State :=
  if locking s d then
    let s := { s with
      rack := { s.rack with refclk := true },
      boot := { s.boot with inReset := delNat s.boot.inReset d, pllTry := SMap.set 0 s.boot.pllTry d 0 } }
    let before := match s.rd d Reg.DC_RESET_CAUSE with | 0 => [1, 2] | 2 => [2] | _ => []
    let s := each before (fun s n => uartPrint d n s) s
    stageDone d 1 ((s.wr d Reg.CLK_STATUS_LOCK 1).wr d Reg.DC_RTIME 0)
  else s

def execPllLock (d : Nat) (s : State) : Host.Outcome State Fault Refusal := onDie s d (pllLock d)

/-- PLL_LOCK_TIMEOUT (Table BOOT-7): the fourth failure leaves the die stopped in stage 3. A die whose PLL has lost lock
stays in reset until it relocks, however often it tries (R41). -/
def pllLockTimeout (d : Nat) (s : State) : State :=
  if locking s d && s.rd d Reg.DC_RESET_CAUSE != 4 then
    let n := SMap.get 0 s.boot.pllTry d + 1
    let s := { s with boot := { s.boot with pllTry := SMap.set 0 s.boot.pllTry d n } }
    if n < 4 then s
    else bootFail d 3 1 0 { s with boot := { s.boot with pllDead := addNat s.boot.pllDead d } }
  else s

def execPllLockTimeout (d : Nat) (s : State) : Host.Outcome State Fault Refusal := onDie s d (pllLockTimeout d)

/-- PLL_LOSS_OF_LOCK (R41). -/
def pllLossOfLock (d : Nat) (s : State) : State := if dieUp s d then dieReset d 4 s else s

def execPllLossOfLock (d : Nat) (s : State) : Host.Outcome State Fault Refusal := onDie s d (pllLossOfLock d)

/-- REFCLK_LOSS (R42, R536): every die that runs loses lock; the RM writes RACK-FAULT, cause 0. -/
def refclkLoss (s : State) : State :=
  if s.rack.refclk then
    let s := rackFault 0 { s with rack := { s.rack with refclk := false } }
    each ((allDies s).filter (dieUp s)) (fun s d => dieReset d 4 s) s
  else s

def execRefclkLoss (s : State) : Host.Outcome State Fault Refusal := .next (refclkLoss s)

/-! ### Resets by command (R121, R457, R554, R598) -/

/-- A die that its PLL stopped is reset (R121): its stage 3 starts again. -/
def stoppedReset (d : Nat) (s : State) : State :=
  let inc := (s.rd d Reg.DC_INCARNATION + 1) % 65536
  let s := ((s.wr d Reg.DC_BOOT_STATUS_ERROR 0).wr d Reg.DC_INCARNATION inc).wr d Reg.DC_RESET_CAUSE 1
  { s with
    boot := { s.boot with
      pllDead := delNat s.boot.pllDead d, pllTry := SMap.set 0 s.boot.pllTry d 0,
      resetAt := SMap.set 0 s.boot.resetAt d s.recs.rmRtime },
    rack := { s.rack with flashIncarn := SMap.set 0 s.rack.flashIncarn d inc } }

/-- DIE_RESET over MGP: a die that runs is reset, and so is one that its PLL stopped; a reset in progress takes it in
(R457). -/
def dieResetCmd (d : Nat) (s : State) : State :=
  if dieUp s d then dieReset d 1 s
  else if s.boot.pllDead.contains d then stoppedReset d s
  else s

def execDieReset (d : Nat) (s : State) : Host.Outcome State Fault Refusal := onDie s d (dieResetCmd d)

/-- The dies of a module. -/
def moduleDies (m : Nat) : List Nat := [4 * m, 4 * m + 1, 4 * m + 2, 4 * m + 3]

/-- The dies of a module lose power; a stage that a rail fault switched off may be switched on again (R596). -/
def modulePowerOff (m : Nat) (s : State) : State :=
  let s := each ((moduleDies m).filter (fun d => s.rack.powered.contains d)) (fun s d => dieUnpower d s) s
  { s with rack := { s.rack with
      dieOff := s.rack.dieOff.filter (fun d => !(Nat.beq (moduleOf d) m)),
      modAlert := if s.rack.valvesShut.contains m then s.rack.modAlert else delNat s.rack.modAlert m,
      modReset := addNat s.rack.modReset m } }

/-- MODULE_RESET (R598): the RM copies the rings (R554), drops MOD_EN for 100 ms and asserts it again. -/
def moduleReset (m : Nat) (s : State) : State :=
  if s.rack.modEn.contains m then
    modulePowerOff m (each ((moduleDies m).filter (dieUp s)) (fun s d => rmCopyRing d s) s)
  else s

def execModuleReset (m : Nat) (s : State) : Host.Outcome State Fault Refusal :=
  onDie s (4 * m) (moduleReset m)

/-- Start-up from R584 step 2 on: what the RM, the spine and roll call keep is forgotten. -/
def rackRestart (s : State) : State :=
  let s := (s.resetRegs 64 0 0x1000000).resetRegs 65 0 0x1000000
  { s with
    prt := { s.prt with faulted := [], resets := [] },
    core := { s.core with killed := [] },
    net := { s.net with combine := [], redNet := [], redStall := [] },
    rack := { s.rack with
      rmUp := false, refclk := false, spineReady := [], planeLost := [], lowFlow := 0, okFlow := 0, coolOff := false,
      modEn := [], modReset := [], dieOff := [], modAlert := s.rack.valvesShut },
    boot := { s.boot with
      roll := [], dead := [], partners := [], exch := [], notices := [], censusOpen := true, census := [], hold := 0,
      ready := false, accepted := [], unqualified := false, fmtHeld := [], beaconSeq := [] },
    img := State.reset.img }

/-- RACK_RESET (R78, R121, R598): R584 from step 2, the shelves kept on. Images are discarded and INCARNATION is zero. -/
def rackReset (s : State) : State :=
  let s := each ((allDies s).filter (dieUp s)) (fun s d => rmCopyRing d s) s
  let s := each ((allDies s).filter (fun d => s.rack.powered.contains d)) (fun s d => dieUnpower d s) s
  let s := rackRestart s
  { s with
    rack := { s.rack with flashIncarn := [] },
    boot := { s.boot with rackResetAt := some s.recs.rmRtime } }

def execRackReset (s : State) : Host.Outcome State Fault Refusal := .next (if s.rack.rmUp then rackReset s else s)

/-! ### Stage 4: the fuses (R85, Table BOOT-10) -/

/-- The grade of the order code and its enabled clusters per half (R85, Table SCP-1). -/
def gradeOf : OrderCode → Nat × Nat
  | .cxm64T => (1, 144)
  | .cxm64S => (0, 152)
  | .cxm32S => (0, 152)

/-- The FUSE block as the fuses give it. -/
def loadFuses (d : Nat) (f : FuseData) (s : State) : State :=
  let s := (s.wr d Reg.FUSE_STATUS_READ_DONE 1).wr d Reg.FUSE_STATUS_CRC_OK (if f.crcOk then 1 else 0)
  let s := ((s.wr d Reg.FUSE_GRADE_GRADE f.grade).wr d Reg.FUSE_GRADE_STEPPING f.stepping).wr d Reg.FUSE_SERIAL f.serial.toNat
  let s := s.wr d Reg.DC_ID_STEPPING f.stepping
  each [0, 1, 2] (fun s i =>
    (s.wr d (Reg.FUSE_MAP_W i) (f.mapW.toNat / 2 ^ (64 * i))).wr d (Reg.FUSE_MAP_E i) (f.mapE.toNat / 2 ^ (64 * i))) s

/-- A component's own tuple in DC_COMPAT. -/
def setCompat (d n : Nat) (c : Compat) (s : State) : State :=
  (s.wr d (Reg.DC_COMPAT_MAJOR n) c.major).wr d (Reg.DC_COMPAT_MINOR n) c.minor

/-- A component's own tuple. -/
def compatOf (s : State) (d n : Nat) : Compat := ⟨s.rd d (Reg.DC_COMPAT_MAJOR n), s.rd d (Reg.DC_COMPAT_MINOR n)⟩

/-- FUSE_READ (R85). -/
def fuseRead (d : Nat) (f : FuseData) (s : State) : State :=
  if atStage s d 1 then
    let s := setCompat d 0 f.rom (loadFuses d f s)
    let g := gradeOf s.orderCode
    if !f.crcOk then bootFail d 4 2 0 s
    else if f.grade ≠ g.1 || popCount 160 f.mapW.toNat ≠ g.2 || popCount 160 f.mapE.toNat ≠ g.2 then bootFail d 4 3 0 s
    else stageDone d 2 s
  else s

def execFuseRead (d : Nat) (f : FuseData) (s : State) : Host.Outcome State Fault Refusal := onDie s d (fuseRead d f)

/-! ### Stages 5 to 8: firmware (R86–R91) -/

/-- Where a copy stands in the module flash, and its room (Table BOOT-3): image 0 boot, 1 runtime, 2 warden; copy 0 A,
1 B. The flash directory stands at 0; the module identity area at 0x00A9_0000 holds the mirrored incarnations
(`Rack.flashIncarn`). -/
def flashPlace : Nat → Nat → Nat × Nat
  | 0, copy => (0x10000 + copy * 0x100000, 0x100000)
  | 1, copy => (0x210000 + copy * 0x400000, 0x400000)
  | _, copy => (0xA10000 + copy * 0x40000, 0x40000)

/-- An entry of the flash directory (Table BOOT-3): offset, length and compat tuple of a copy. Its CRC-32C is `good`. -/
structure FlashDir where
  offset : Nat
  length : Nat
  compat : Compat
  good : Bool
  deriving DecidableEq, Repr

/-- The flash directory of a module. -/
def flashDir (s : State) (m image copy : Nat) : Option FlashDir :=
  (look (m * 8 + image * 2 + copy) s.rack.flash).map (fun c => ⟨(flashPlace image copy).1, c.length, c.compat, c.good⟩)

/-- A stored copy of the die's module that its directory entry and its CRC-32C admit, within its room (R86, R87). -/
def flashCopy (s : State) (d image copy : Nat) : Option FlashCopy :=
  if (flashDir s (moduleOf d) image copy).any (fun e => e.good && Nat.ble e.length (flashPlace image copy).2) then
    look (moduleOf d * 8 + image * 2 + copy) s.rack.flash
  else none

/-- The first copy that can be used, with its number: A, else B (R87). -/
def firstCopy (s : State) (d image : Nat) (ok : FlashCopy → Bool) : Option (Nat × FlashCopy) :=
  match (flashCopy s d image 0).filter ok, (flashCopy s d image 1).filter ok with
  | some a, _ => some (0, a)
  | none, some b => some (1, b)
  | none, none => none

/-- BOOT_FIRMWARE_LOAD (R87). -/
def bootFirmwareLoad (d : Nat) (s : State) : State :=
  if atStage s d 2 then
    match firstCopy s d 0 (fun _ => true) with
    | some (k, c) => stageDone d 3 (setCompat d 1 c.compat (s.wr d Reg.DC_BOOT_STATUS_BOOT_COPY k))
    | none => bootFail d 5 4 1 s
  else s

def execBootFirmwareLoad (d : Nat) (s : State) : Host.Outcome State Fault Refusal := onDie s d (bootFirmwareLoad d)

/-- The scan of a ring that the reset kept (R553, Table REG-5): REC_WR, REC_OLDEST and REC_SEQ. RING_MIB is that of the
ring (DEDUCED, log 96). -/
def rejoinRing (m : RingMark) (s : State) : State :=
  let d := m.die
  let x := ringScan s.recs.ring d (m.mib * 0x100000)
  let s := (((s.wr d Reg.REC_WR x.wr).wr d Reg.REC_OLDEST x.oldest).wr d Reg.REC_SEQ x.seq).wr d Reg.REC_RING_SIZE m.mib
  setCopied d (x.wr - m.todo) s

/-- The ring comes up (R89, R553): its registers as the scan finds them, and DIE-START first. -/
def ringUp (d : Nat) (s : State) : State :=
  let s := s.wr d Reg.REC_RING_BASE (Config.ringBase d)
  let s := match s.recs.marks.find? (fun m => Nat.beq m.die d) with
    | some m => rejoinRing m s
    | none => s
  let lost := if s.recs.stageLost.contains d then 1 else 0
  let s := { s with recs := { s.recs with
    marks := s.recs.marks.filter (fun m => !(Nat.beq m.die d)), stageLost := delNat s.recs.stageLost d } }
  let s := s.wr d Reg.REC_STAGE_RING_UP 1
  emit d 0 0x010 0 false
    [pf 2 (s.rd d Reg.DC_INCARNATION), pf 1 (s.rd d Reg.DC_RESET_CAUSE), pf 1 lost, pf 2 (s.rd d Reg.REC_RING_SIZE), pf 2 0] s

/-- HBM_TRAINING (R88): `failed` channels are marked; a die that trains none stops. -/
def hbmTraining (d : Nat) (failed : BitVec 24) (s : State) : State :=
  if atStage s d 3 then
    let s := { s with boot := { s.boot with selfRefresh := delNat s.boot.selfRefresh d } }
    if popCount 24 failed.toNat = 24 then bootFail d 6 5 0 (s.wr d Reg.DC_CHAN_FAIL failed.toNat)
    else
      let old := s.rd d Reg.REC_FAIL_CHAN
      let s := ringUp d ((s.wr d Reg.DC_CHAN_FAIL failed.toNat).wr d Reg.REC_FAIL_CHAN (old ||| failed.toNat))
      let new := (bitsOf 24 failed.toNat).filter (fun n => !old.testBit n)
      let s := if failed.toNat = 0 then s else failRecord d 6 0 0 s
      stageDone d 4 (each new (fun s n => degrade d 0 0 1 n 0 s) s)
  else s

def execHbmTraining (d : Nat) (failed : BitVec 24) (s : State) : Host.Outcome State Fault Refusal :=
  onDie s d (hbmTraining d failed)

/-- Capability bits that the die has of itself: HOST_BONDED and CXL_CAPABLE on positions 0 and 2, OWNED_COH, FIXED_TREE
and UPIN (Table BOOT-6). -/
def ownCaps (d : Nat) : Nat := (if d % 2 = 0 then 3 else 0) + 0x38

/-- MINOR_FEATURES of die `d` at an active runtime firmware minor (R104, Table BOOT-6): the features of its firmware that
were introduced at or below it (DESIGN CHOICE, log 4). None is set before the census gives an active minor. -/
def minorCaps (d minor : Nat) : Nat :=
  ((bitsOf 64 (Config.minorFeatures d)).filter (fun n => Nat.ble 16 n && Nat.ble (Config.featureMinor n) minor)).foldl setBit 0

/-- The DC checks the kept copy's CRCs and re-stages its sections (R77); a copy that fails is kept no more. -/
def restageImage (d : Nat) (keptOk : Bool) (s : State) : State :=
  if (look d s.img.kept).isNone then s
  else if keptOk then { s with img := { s.img with restage := addNat s.img.restage d } }
  else { s with img := { s.img with kept := unbind d s.img.kept } }

/-- RUNTIME_FIRMWARE_HANDOVER (R90, Table BOOT-4). The runtime firmware then checks the kept image, whose CRCs match with
`keptOk` (DEDUCED, log 98). -/
def runtimeHandover (d : Nat) (keptOk : Bool) (s : State) : State :=
  if atStage s d 4 then
    let boot := compatOf s d 1
    match firstCopy s d 1 (fun c => Nat.beq c.compat.major boot.major) with
    | none => bootFail d 7 6 1 s
    | some (k, c) =>
      let s := setCompat d 6 c.abi (setCompat d 5 c.format (setCompat d 2 c.compat (s.wr d Reg.DC_BOOT_STATUS_RUN_COPY k)))
      let s := (s.wr d Reg.IMG_FORMAT_FMT_MAJOR c.format.major).wr d Reg.IMG_FORMAT_FMT_MINOR c.format.minor
      let s := s.wr d Reg.DC_CAPS (s.rd d Reg.DC_CAPS ||| ownCaps d)
      let s := if c.pairing.contains (boot, c.compat) then s
        else { s.wr d Reg.DC_HOLD_HOLD_REASON 3 with boot := { s.boot with dieHold := bind_ d 3 s.boot.dieHold } }
      stageDone d 5 (restageImage d keptOk s)
  else s

def execRuntimeFirmwareHandover (h : Handover) (s : State) : Host.Outcome State Fault Refusal :=
  onDie s h.die (runtimeHandover h.die h.keptOk)

/-- WARDEN_BOOT (R91): without a good copy the die goes on without WARDEN_UP. A warden that starts after a loss of sealed
halves writes SEALED-LOSS (R452). -/
def wardenBoot (d : Nat) (s : State) : State :=
  if atStage s d 5 then
    match firstCopy s d 2 (fun _ => true) with
    | none => stageDone d 6 (failRecord d 8 0 1 s)
    | some (k, c) =>
      let s := setCompat d 3 c.compat ((s.wr d Reg.DC_BOOT_STATUS_WARD_COPY k).wr d Reg.WARD_STATUS 1)
      let s := s.wrBit d Reg.DC_CAPS 2 true
      let loss := s.rd d Reg.WARD_LOSS
      let s := if loss.testBit 7 || loss.testBit 15 then emit d 1 0x093 0 true [pf 2 loss, pf 6 0] s else s
      stageDone d 6 s
  else s

def execWardenBoot (d : Nat) (s : State) : Host.Outcome State Fault Refusal := onDie s d (wardenBoot d)

/-! ### Stage 9: module roll call (R94), and the limit of R111 -/

/-- Whether die `x` has a valid beacon of die `d` in its roll-call table. -/
def heard (s : State) (x d : Nat) : Bool := s.boot.roll.any (fun r => Nat.beq r.observer x && Nat.beq r.die d)

/-- MODULE_ROLL_CALL: complete when every sibling is heard, or 30 ms after the die's own first Toash-S beacon. The port
to a sibling not heard is reported down. -/
def moduleRollCall (d : Nat) (after30ms : Bool) (s : State) : State :=
  let absent := [0, 1, 2].filter (fun k => !heard s d (siblingOf d k))
  if atStage s d 6 && (absent.isEmpty || (after30ms && s.boot.beaconed.contains d)) then
    stageDone d 7 (each absent (fun s k => setPort d k 0 s) s)
  else s

def execModuleRollCall (d : Nat) (after30ms : Bool) (s : State) : Host.Outcome State Fault Refusal :=
  onDie s d (moduleRollCall d after30ms)

/-- STAGE_TIMEOUT (R111, Table BOOT-7): 1 s after die power good, stage 10 is not complete. -/
def stageTimeout (d : Nat) (s : State) : State :=
  let st := s.rd d Reg.DC_BOOT_STATUS_STAGE
  if dieUp s d && s.rd d Reg.DC_BOOT_STATUS_ERROR == 0 && Nat.blt st 8 then
    bootFail d 10 (if st = 7 && !portUp s d 3 && !portUp s d 4 then 7 else 8) 0 s
  else s

def execStageTimeout (d : Nat) (s : State) : Host.Outcome State Fault Refusal := onDie s d (stageTimeout d)

end Sys2Proof.Machine
end

