-- ==== Sys2Proof/Machine/Control.lean ====
section
/-! DEFINITION. Control opcodes (Table ISA-5): branches, parking, yielding, the barrier, the end of a thread, TRAP. -/

namespace Sys2Proof.Machine

/-- A change made to the executing threads. -/
def onLanes (lanes : List Nat) (f : Nat → Thread → Thread) (t : Troupe) : Troupe :=
  lanes.foldl (fun t n => t.updThread n (f n)) t

/-- The target of OFF: PC + 8 × OFF, modulo 2^64. -/
def branchTarget (i : Iss) : Word := BitVec.ofNat 64 i.pc + 8 * (BitVec.ofNat 32 (fImm32 i.w)).signExtend 64

/-- BRA. -/
def braEff (i : Iss) (s : State) : Eff :=
  .done (onLanes i.act (fun _ x => { x with pc := branchTarget i }) i.t) s

/-- CALL: PC + 8 goes to pair vl. -/
def callEff (i : Iss) (s : State) : Eff :=
  let t := i.act.foldl (fun t n => writeGroup n (fD i.w) 2 ((i.pc + 8) % 2 ^ 64) t) i.t
  .done (onLanes i.act (fun _ x => { x with pc := branchTarget i }) t) s

/-- JMPR: the target must be a multiple of 8 (Table ISA-9). -/
def jmprEff (i : Iss) (s : State) : Eff :=
  let tgt (n : Nat) : Nat := readGroup i.t n (fD i.w) 2
  match i.act.find? (fun n => !(Nat.beq (tgt n % 8) 0)) with
  | some n => .trap 0x02 n (tgt n) s
  | none => .done (onLanes i.act (fun n x => { x with pc := BitVec.ofNat 64 (tgt n) }) i.t) s

/-- The executing threads park, at PC + 8 (R183, R184). -/
def parkEff (why : Park) (i : Iss) (s : State) : Eff :=
  .done (onLanes i.act (fun _ x => { x with parked := some why, parkedAt := i.t.issuedAt.getD 0 }) i.t) s

def convergeEff : Iss → State → Eff := parkEff .converge
def barcEff (i : Iss) (s : State) : Eff := parkEff (.barrier (fBar i.w)) i s

/-- YIELD sets the yielded bits of the executing threads (R182). -/
def yieldEff (i : Iss) (s : State) : Eff := .done (onLanes i.act (fun _ x => { x with yielded := true }) i.t) s

/-- EXIT ends the executing threads. -/
def exitEff (i : Iss) (s : State) : Eff := .done (onLanes i.act (fun _ x => { x with exited := true }) i.t) s

def nopEff (i : Iss) (s : State) : Eff := .done i.t s

/-- TRAP: a context fault with the code of OFF[15:0], which the record's ADDR keeps (R161, DEDUCED, log 26). -/
def trapEff (i : Iss) (s : State) : Eff :=
  match i.act with
  | [] => .done i.t s
  | n :: _ => .trap 0x07 n (fImm32 i.w % 2 ^ 16) s

def execBra (a : Issue) (f : BitVec 56) (s : State) : Host.Outcome State Fault Refusal := coreOp a 0x60 f braEff s
def execCall (a : Issue) (f : BitVec 56) (s : State) : Host.Outcome State Fault Refusal := coreOp a 0x61 f callEff s
def execJmpr (a : Issue) (f : BitVec 56) (s : State) : Host.Outcome State Fault Refusal := coreOp a 0x62 f jmprEff s
def execConverge (a : Issue) (f : BitVec 56) (s : State) : Host.Outcome State Fault Refusal := coreOp a 0x63 f convergeEff s
def execYield (a : Issue) (f : BitVec 56) (s : State) : Host.Outcome State Fault Refusal := coreOp a 0x64 f yieldEff s
def execBarc (a : Issue) (f : BitVec 56) (s : State) : Host.Outcome State Fault Refusal := coreOp a 0x65 f barcEff s
def execExit (a : Issue) (f : BitVec 56) (s : State) : Host.Outcome State Fault Refusal := coreOp a 0x66 f exitEff s
def execNop (a : Issue) (f : BitVec 56) (s : State) : Host.Outcome State Fault Refusal := coreOp a 0x67 f nopEff s
def execTrap (a : Issue) (f : BitVec 56) (s : State) : Host.Outcome State Fault Refusal := coreOp a 0x68 f trapEff s

end Sys2Proof.Machine
end

