-- ==== Sys2Proof/Machine/RollCall.lean ====
section
/-! DEFINITION. Roll call (R92–R98), RTIME alignment (R99–R102), the census and its pairing (R103–R110, R116–R119), and
death and rejoining (R95–R97, R114, R115). Observers and agents 0–63 are dies, 64 and 65 the spine switches. -/

namespace Sys2Proof.Machine

/-- Whether an observer runs. -/
def agentUp (s : State) (a : Nat) : Bool := if a < 64 then dieUp s a else s.rack.spineReady.contains (a - 64)

/-- A record of an observer: a die's own, or a spine switch's in the rack store (R533). -/
def agentEmit (a typ cls : Nat) (sealed_ : Bool) (payload : List PF) (s : State) : State :=
  if a < 64 then emit a 0 typ cls sealed_ payload s else rackEmit (0xFFD + (a - 64)) typ cls sealed_ payload s

/-- A control message of an agent on every path it has: a die's trained ports, a spine switch's die ports. -/
def sendAll (a kind : Nat) (bytes : List Byte) (s : State) : State :=
  if a < 64 then each ([0, 1, 2, 3, 4].filter (portUp s a)) (fun s k => sendCtl a k kind bytes s) s
  else each ((allDies s).filter (fun d => portUp s d (3 + (a - 64)))) (fun s d => sendCtl a d kind bytes s) s

/-! ### Beacons sent (R92, R98, Table BOOT-5) -/

/-- A beacon's fields. -/
structure BeaconMsg where
  kind : Nat
  agent : Nat
  rackNo : Nat
  stepping : Nat
  stage : Nat
  seq : Nat
  incarn : Nat
  flags : Nat
  rtime : Nat
  caps : Nat
  /-- Seven words, minor below major; all ones where the kind reports none. -/
  compat : List Nat
  goodW : Nat
  goodE : Nat
  chanFail : Nat
  deriving DecidableEq, Repr

/-- The 80 bytes of a beacon. -/
def BeaconMsg.bytes (b : BeaconMsg) : List Byte :=
  let body := leBytes 2 0x5243 ++ leBytes 1 1 ++ leBytes 1 b.kind ++ leBytes 2 b.agent ++ leBytes 2 b.rackNo
    ++ leBytes 1 b.stepping ++ leBytes 1 b.stage ++ leBytes 2 b.seq ++ leBytes 2 b.incarn ++ leBytes 2 b.flags
    ++ leBytes 8 b.rtime ++ leBytes 8 b.caps ++ (b.compat.map (leBytes 4)).flatten
    ++ leBytes 2 b.goodW ++ leBytes 2 b.goodE ++ leBytes 4 b.chanFail ++ leBytes 8 0
  body ++ leBytes 4 (crc32c body)

/-- A tuple as a word of COMPAT. -/
def compatWord (c : Compat) : Nat := c.minor % 0x10000 + c.major % 0x10000 * 0x10000

/-- COMPAT of a beacon that reports the components of `l`. -/
def compatWords (l : List (Nat × Compat)) : List Nat :=
  (List.range 7).map (fun n => match look n l with | some c => compatWord c | none => 0xFFFFFFFF)

/-- The components that a die reports: its warden only while it runs (Table BOOT-2, DEDUCED, log 48). -/
def dieComponents (caps : Nat) : List Nat := if caps.testBit 2 then [0, 1, 2, 3, 5] else [0, 1, 2, 5]

/-- Enabled clusters of a half, from the fuse map. -/
def goodClusters (s : State) (d side : Nat) : Nat :=
  [0, 1, 2].foldl (fun n i => n + popCount 64 (s.rd d (if side = 0 then Reg.FUSE_MAP_W i else Reg.FUSE_MAP_E i))) 0

/-- The count of the sender's next beacon. -/
def beaconKey (kind agent : Nat) : Nat := kind * 0x10000 + agent

/-- A die's own beacon. -/
def dieBeacon (s : State) (d : Nat) : BeaconMsg where
  kind := 0
  agent := d
  rackNo := s.rd d Reg.DC_RACK
  stepping := s.rd d Reg.DC_ID_STEPPING
  stage := s.rd d Reg.DC_BOOT_STATUS_STAGE
  seq := SMap.get 0 s.boot.beaconSeq (beaconKey 0 d)
  incarn := s.rd d Reg.DC_INCARNATION
  flags := s.rd d Reg.DC_RTIME_STATUS_ALIGNED + 2 * s.rd d Reg.DC_RTIME_STATUS_MASTER
  rtime := s.rtime d
  caps := s.rd d Reg.DC_CAPS
  compat := compatWords ((dieComponents (s.rd d Reg.DC_CAPS)).map (fun n => (n, compatOf s d n)))
  goodW := goodClusters s d 0
  goodE := goodClusters s d 1
  chanFail := s.rd d Reg.DC_CHAN_FAIL

/-- A beacon of another kind, whose sender is at STAGE `stage` (Table BOOT-5). A spine switch has no STAGE (DESIGN CHOICE,
log 99). -/
def otherBeacon (s : State) (kind agent rackNo stage rtime : Nat) (compat : List (Nat × Compat)) : BeaconMsg where
  kind := kind
  agent := agent
  rackNo := rackNo
  stepping := 0
  stage := stage
  seq := SMap.get 0 s.boot.beaconSeq (beaconKey kind agent)
  incarn := 0
  flags := 0
  rtime := rtime
  caps := 0
  compat := compatWords compat
  goodW := 0
  goodE := 0
  chanFail := 0

/-- The sender's beacon count raised (SEQ of Table BOOT-5). -/
def beaconCount (kind agent : Nat) (s : State) : State :=
  let k := beaconKey kind agent
  { s with boot := { s.boot with beaconSeq := SMap.set 0 s.boot.beaconSeq k ((SMap.get 0 s.boot.beaconSeq k + 1) % 65536) } }

/-- The beacon of a host port or its CXL partner, by the DC of its die. -/
def portBeacon (s : State) (kind port : Nat) : BeaconMsg :=
  let d := portDie port
  let abi : Compat := ⟨s.rd d Reg.HOST_ABI_MAJOR, s.rd d Reg.HOST_ABI_MINOR⟩
  otherBeacon s kind port (s.rd d Reg.DC_RACK) (s.rd d Reg.DC_BOOT_STATUS_STAGE) (s.rtime d) (if kind = 2 && attachOf s port = 2 then [(6, abi)] else [])

/-- BEACON_SEND (R92, R98): kind 0 a die on its trained ports, from stage 9 on; 1 a spine switch on a bridge port, with the
RM's RTIME, STATE 0 and CAPS 0, since the spec gives a spine switch none of the three (DESIGN CHOICE, log 99); 2 and 3 a DC
for its host port and its CXL partner. A bridge rack sends its own. -/
def beaconSend (kind agent : Nat) (s : State) : State :=
  match kind with
  | 0 =>
    if agent < dieCount s.orderCode && dieUp s agent && Nat.ble 6 (s.rd agent Reg.DC_BOOT_STATUS_STAGE) then
      let s1 := sendAll agent 0 (dieBeacon s agent).bytes (beaconCount 0 agent s)
      let s1 := if [0, 1, 2].any (portUp s agent) then
          { s1 with boot := { s1.boot with beaconed := addNat s1.boot.beaconed agent } }
        else s1
      let l := ([0, 1].filter (fun k => portUp s agent (3 + k))).map (fun k => agent * 2 + k)
      { s1 with boot := { s1.boot with beaconedL := l.foldl addNat s1.boot.beaconedL } }
    else s
  | 1 =>
    let plane := agent / 72
    if plane < 2 && Nat.ble 64 (agent % 72) && s.rack.spineReady.contains plane then
      let fw := (s.rack.spineFw[plane]?).getD ⟨0, 0⟩
      sendCtl (64 + plane) (agent % 72) 0 (otherBeacon s 1 agent s.rack.rackNo 0 s.recs.rmRtime [(4, fw)]).bytes
        (beaconCount 1 agent s)
    else s
  | 2 =>
    if portLive s agent && attachOf s agent != 0 then
      sendAll (portDie agent) 0 (portBeacon s 2 agent).bytes (beaconCount 2 agent s)
    else s
  | 3 =>
    if portLive s agent && s.rd (portDie agent) Reg.HOST_CXL_PRESENT == 1 then
      sendAll (portDie agent) 0 (portBeacon s 3 agent).bytes (beaconCount 3 agent s)
    else s
  | _ => s

def execBeaconSend (kind agent : Nat) (s : State) : Host.Outcome State Fault Refusal := .next (beaconSend kind agent s)

/-! ### The combination (R104–R107) -/

/-- A tuple's key: its order is that of ID, major, minor. -/
def tupKey (id : Nat) (c : Compat) : Nat := id * 0x100000000 + c.major % 0x10000 * 0x10000 + c.minor % 0x10000

/-- Component `n` of a census row. -/
def CensusRow.tuple (r : CensusRow) (n : Nat) : Compat := (r.compat[n]?).getD ⟨0, 0⟩

/-- The tuples that the spine ports report (Table BOOT-2). -/
def spineTuples (s : State) : List Nat :=
  s.rack.spineReady.filterMap (fun k => (s.rack.spineFw[k]?).map (tupKey 4))

/-- The combination over some dies and the spine ports, in the order of R106. -/
def comboOf (s : State) (rows : List CensusRow) : List Nat :=
  let dies := (rows.map (fun r => (dieComponents r.caps).map (fun n => tupKey n (r.tuple n)))).flatten
  sortNat ((dies ++ spineTuples s).foldl addNat [])

/-- The current combination: over every die of the census (R106). -/
def combo (s : State) : List Nat := comboOf s s.boot.census

/-- A tuple's 8 bytes. -/
def tupBytes (k : Nat) : List Byte :=
  leBytes 2 (k / 0x100000000) ++ leBytes 2 (k / 0x10000) ++ leBytes 2 k ++ leBytes 2 0

/-- The digest of a combination (R106). -/
def comboDigest (l : List Nat) : Nat := crc32c (l.map tupBytes).flatten

/-- Whether a pairing entry covers a tuple (R107); it covers no component beyond 5. -/
def covers (e : PairEntry) (k : Nat) : Bool :=
  match e.rows[k / 0x100000000]? with
  | some (major, lo, hi) =>
    Nat.beq (k / 0x10000 % 0x10000) major && Nat.ble lo (k % 0x10000) && Nat.ble (k % 0x10000) hi
  | none => false

/-- Whether a combination is tested (R107). -/
def tested (s : State) (l : List Nat) : Bool := s.boot.pairing.any (fun e => l.all (covers e))

/-- Whether it is tested, or its digest has been accepted (R108, R117). -/
def passes (s : State) (l : List Nat) : Bool := tested s l || s.boot.accepted.contains (BitVec.ofNat 32 (comboDigest l))

/-- Whether two tuples of one component differ in their majors. -/
def majorsDiffer (l : List Nat) : Bool :=
  l.any (fun a => l.any (fun b => Nat.beq (a / 0x100000000) (b / 0x100000000)
    && !(Nat.beq (a / 0x10000 % 0x10000) (b / 0x10000 % 0x10000))))

/-- A PAIRING-HOLD record of the RM (R105). -/
def holdRecord (reason : Nat) (l : List Nat) (s : State) : State :=
  rackEmit 0xFFF 0x014 0 false
    ([pf 1 reason, pf 1 l.length, pf 2 0, pf 4 (comboDigest l)] ++ l.map (fun k => pf 8 (ofLe (tupBytes k)))) s

/-- DC_HOLD, DC_COMBO, the active minors, the features at or below the active runtime minor, and DC_CAPS_ACTIVE as every die
shows them (R104, R106, R109). -/
def showCensus (s : State) : State :=
  let l := combo s
  let rows := s.boot.census
  let minors (n : Nat) : List Nat :=
    if n = 4 then (s.rack.rackFw :: s.rack.spineFw).map (·.minor)
    else (rows.filter (fun r => n != 3 || (dieComponents r.caps).contains 3)).map (fun r => (r.tuple n).minor)
  let least (n : Nat) : Nat := (minors n).foldl min ((minors n).headD 0)
  let active := least 2
  let caps := rows.foldl (fun c r => c &&& (r.caps % 2 ^ 16 + minorCaps r.die active)) (if rows.isEmpty then 0 else 2 ^ 64 - 1)
  each ((allDies s).filter (dieUp s)) (fun s d =>
    let hold := if s.boot.hold ≠ 0 then s.boot.hold else (look d s.boot.dieHold).getD 0
    let s := ((s.wr d Reg.DC_COMBO (comboDigest l)).wr d Reg.DC_CAPS_ACTIVE caps).wr d Reg.DC_HOLD_HOLD_REASON hold
    let s := s.wr d Reg.DC_HOLD_UNQUALIFIED (if s.boot.unqualified then 1 else 0)
    let s := if Nat.ble 5 (s.rd d Reg.DC_BOOT_STATUS_STAGE) then
        s.wr d Reg.DC_CAPS (s.rd d Reg.DC_CAPS % 2 ^ 16 + minorCaps d active)
      else s
    each (List.range 7) (fun s n => s.wr d (Reg.DC_COMPAT_ACTIVE n) (least n)) s) s

/-- Every tuple that an agent of the rack reports, the RM's included (R105 step 1). -/
def allTuples (s : State) : List Nat := tupKey 4 s.rack.rackFw :: comboOf s s.boot.census

/-- The RM evaluates the census (R105): HOLD or ready; the dies show it in STAGE. -/
def evaluateCensus (s : State) : State :=
  let l := comboOf s s.boot.census
  let held := s.boot.dieHold.any (fun x => s.boot.census.any (fun r => Nat.beq r.die x.1))
  let ok := s.boot.accepted.contains (BitVec.ofNat 32 (comboDigest l))
  let reason := if majorsDiffer (allTuples s) then 1 else if !ok && (held || !tested s l) then 2 else 0
  let s := if reason = 0 then s else holdRecord reason l s
  let hold1 (x : Nat × Nat) : Bool := Nat.beq x.2 1
  let s := { s with boot := { s.boot with
    hold := reason, ready := Nat.beq reason 0, dieHold := s.boot.dieHold.filter (fun x => !hold1 x) } }
  let s := each s.boot.census (fun s r =>
    if dieUp s r.die && Nat.ble 8 (s.rd r.die Reg.DC_BOOT_STATUS_STAGE) && Nat.blt (s.rd r.die Reg.DC_BOOT_STATUS_STAGE) 12 then
      s.wr r.die Reg.DC_BOOT_STATUS_STAGE (if reason = 0 then 11 else 10)
    else s) s
  showCensus s

/-! ### Census (R103) and rejoining (R97, R116, R117) -/

/-- What the census records of a die (R103). -/
def censusRow (s : State) (d : Nat) : CensusRow :=
  ⟨d, s.rd d Reg.DC_ID_STEPPING, s.rd d Reg.DC_INCARNATION, (List.range 7).map (compatOf s d), s.rd d Reg.DC_CAPS,
   goodClusters s d 0, goodClusters s d 1, s.rd d Reg.DC_CHAN_FAIL,
   [0, 1, 2, 3, 4].map (portWidth s d) ++ [s.rd d Reg.HOST_STATUS_ATTACH]⟩

/-- The die's row in the census. -/
def enroll (d : Nat) (s : State) : State :=
  { s with boot := { s.boot with census := putWhere (fun r => Nat.beq r.die d) (censusRow s d) s.boot.census } }

/-- ORIGIN of a RESET record, by DC_RESET_CAUSE (Table FLT-6). -/
def resetOrigin : Nat → Nat
  | 3 => 3
  | 4 => 4
  | 5 => 5
  | _ => 0

/-- A die that comes back after a reset writes its RESET record (Table FLT-6, DEDUCED, log 50). -/
def rejoinRecord (d : Nat) (s : State) : State :=
  let c := s.rd d Reg.DC_RESET_CAUSE
  if c = 0 then s
  else resetRecord d (if c = 2 then 4 else 3) 0xFF 0xFF (resetOrigin c)
    ((s.recs.rmRtime - SMap.get 0 s.boot.resetAt d) / 1000) s

/-- A die held in die HOLD, with its record (R117). -/
def holdDie (d reason : Nat) (s : State) : State :=
  let l := comboOf s s.boot.census
  holdRecord reason l { s with boot := { s.boot with dieHold := bind_ d reason s.boot.dieHold } }

/-- The RM adds a die after the census has closed (R97, R117). While the rack is in HOLD the census is evaluated
again. The test for a major that differs looks at the dies that are not themselves held for theirs (DEDUCED, log 49). -/
def rmJoin (d : Nat) (s : State) : State :=
  let s := enroll d (ptFetch d s)
  if s.boot.hold ≠ 0 then evaluateCensus s
  else
    let others := s.boot.census.filter (fun r => Nat.beq r.die d || look r.die s.boot.dieHold != some 1)
    let s :=
      if majorsDiffer (tupKey 4 s.rack.rackFw :: comboOf s others) then holdDie d 1 s
      else if (look d s.boot.dieHold).isSome then holdRecord 3 (combo s) s
      else if passes s (combo s) then s
      else holdDie d 2 s
    showCensus (if s.boot.ready then s.wr d Reg.DC_BOOT_STATUS_STAGE 11 else s)

/-- Stage 10 completes on a die (R94): STAGE 8, and after the census has closed the RM adds it. -/
def stage10 (d : Nat) (s : State) : State :=
  if atStage s d 7 then
    let s := rejoinRecord d (stageDone d 8 s)
    if s.boot.censusOpen then s else rmJoin d s
  else s

/-! ### The master (R99, R102) -/

/-- Whether the die has exchanged valid beacons over a Toash-L port (R94, R99): it has sent one there and has received
one. -/
def overLink (s : State) (d : Nat) : Bool :=
  [0, 1].any (fun k => portUp s d (3 + k) && s.boot.beaconedL.contains (d * 2 + k)
    && s.boot.roll.any (fun r => Nat.beq r.observer d && r.overL.contains (3 + k)))

/-- Die `d` is the time master. -/
def setMaster (d : Nat) (s : State) : State :=
  let s := (s.wr d Reg.DC_RTIME_STATUS_MASTER 1).wr d Reg.DC_RTIME_STATUS_ALIGNED 1
  { s with boot := { s.boot with follows := unbind d s.boot.follows } }

/-- Die `d` is no longer aligned, and may take the one step of R101 again. -/
def unalign (d : Nat) (s : State) : State :=
  let s := (s.wr d Reg.DC_RTIME_STATUS_MASTER 0).wr d Reg.DC_RTIME_STATUS_ALIGNED 0
  { s with boot := { s.boot with
      follows := unbind d s.boot.follows,
      stepped := delNat s.boot.stepped d,
      exch := s.boot.exch.filter (fun x => !(Nat.beq x.die d)) } }

/-- The master yields, and with it every die that was aligned to it (R99). -/
def yieldMaster (m : Nat) (s : State) : State :=
  let mine := (s.boot.follows.filter (fun x => Nat.beq x.2 m)).map (·.1)
  each (m :: mine) (fun s d => unalign d s) s

/-- Dies that take part in alignment and live: past stage 9, with beacons exchanged over Toash-L (R99), and not dead. -/
def masterCandidates (s : State) : List Nat :=
  (allDies s).filter (fun d => dieUp s d && Nat.ble 7 (s.rd d Reg.DC_BOOT_STATUS_STAGE) && s.rd d Reg.DC_BOOT_STATUS_ERROR == 0
    && overLink s d && (look d s.boot.dead).isNone)

/-- The time master `x` is dead (R102, R115): the next lowest live die that takes part in alignment takes over, aligned or not
(DEDUCED, log 100), and alignments in progress start again. A die that has taken the one step of R101 before its alignment was
aborted takes no second one (DESIGN CHOICE, log 101). -/
def masterDies (x : Nat) (s : State) : State :=
  let live := (masterCandidates s).filter (fun d => !(Nat.beq d x))
  let s := { s with boot := { s.boot with exch := [] } }
  if live.any (fun d => s.rd d Reg.DC_RTIME_STATUS_MASTER == 1) then s
  else
    match live.head? with
    | none => s
    | some m =>
      let s := stage10 m (setMaster m s)
      { s with boot := { s.boot with
          follows := (s.boot.follows.filter (fun y => !(Nat.beq y.1 m))).map (fun y => if y.2 = x then (y.1, m) else y) } }

/-! ### Death (R95, R96, R282) -/

/-- Die `x` of incarnation `inc` is dead: it leaves every roll-call table, the census with its
combination, the load and the alignment. -/
def markDead (x inc : Nat) (s : State) : State :=
  let wasMaster := s.boot.roll.any (fun r => Nat.beq r.die x && r.master) || s.boot.follows.any (fun y => Nat.beq y.2 x)
  let s := { s with boot := { s.boot with
    dead := bind_ x inc s.boot.dead,
    roll := s.boot.roll.filter (fun r => !(Nat.beq r.die x)),
    census := s.boot.census.filter (fun c => !(Nat.beq c.die x)) } }
  let s := each (allDies s) (fun s d => s.wrBit d Reg.DC_ROLL x false) s
  let s := if s.boot.censusOpen then s else showCensus s
  loadLosesDie x (if wasMaster then masterDies x s else s)

/-- An agent acts on the notice that die `x` is dead (R95, R282): reclamation, and the partition faults of R41, whose
cause is the DIE-DEAD record of SEQ `seq`. -/
def agentDead (a x inc seq : Nat) (s : State) : State :=
  let s := { s with boot := { s.boot with notices := s.boot.notices ++ [(a, x)] } }
  if a < 64 then
    let s := cohDead a x inc (s.wrBit a Reg.DC_DEAD x true)
    each ((imgParts s).filter (fun p => imgDie s p x)) (fun s p => partFault p 0x01 a 0x013 seq s) s
  else s

/-- The DEAD notice: the die and its last INCARNATION. -/
def deadBytes (x inc : Nat) : List Byte := leBytes 2 x ++ leBytes 2 inc

/-- The observer `o` declares die `x` dead, sends the notice to every agent and acts on it. -/
def declareDead (o x inc last : Nat) (s : State) : State :=
  let seq := if o < 64 then nextSeq s o else s.recs.rackSeq
  let s := agentEmit o 0x013 3 false [pf 1 x, pf 1 o, pf 2 inc, pf 4 0, pa_ 8 last] s
  agentDead o x inc seq (tellAll o 1 (deadBytes x inc) (markDead x inc s))

/-- The repeat of a DEAD notice in a slot of a dead die that has not reset yet (R96). -/
def repeatNotice (o x inc : Nat) (s : State) : State :=
  if s.rack.powered.contains x && s.rd x Reg.DC_INCARNATION == inc then sendTo o x 1 (deadBytes x inc) s else s

/-- A partner is retired (R98, R518, R519): its entries, and the instances of a host's port. One observer's third missed slot
takes the partner out of every observer's table (DESIGN CHOICE, log 102). -/
def retirePartner (o kind agent last : Nat) (s : State) : State :=
  let s := { s with boot := { s.boot with
    partners := s.boot.partners.filter (fun p => !(Nat.beq p.kind kind && Nat.beq p.agent agent)) } }
  let mine (e : PtEntry) : Bool :=
    match kind with
    | 2 => Nat.beq e.kind 0 && Nat.beq e.port agent
    | 3 => Nat.beq e.kind 1 && Nat.beq e.port agent
    | 4 => Nat.ble 2 e.kind && Nat.beq (e.word18.toNat % 0x10000) agent
    | _ => false
  let (n, s) := ptRetireWhere mine s
  let s := if kind = 1 then s else agentEmit o 0x017 0 false [pf 1 kind, pf 1 0, pf 2 agent, pf 2 n, pf 2 0, pa_ 8 last] s
  if kind = 2 then
    let is := ((imgParts s).map (fun p =>
      ((instances s p).filter (fun e => Nat.beq e.hostPort agent)).map (fun e => (p, e.id)))).flatten
    each is (fun s x => instReset (portDie agent) x.1 x.2 1 [] s) s
  else s

/-- BEACON_SLOT_MISSED (R95, R96, R98): the third slot missed in a row declares a die dead, or retires a partner. Each slot
of a dead die repeats its notice: a beacon that the observer ignores leaves the slot missed. -/
def beaconSlotMissed (o kind agent : Nat) (s : State) : State :=
  if !agentUp s o then s
  else if kind = 0 then
    let mine (r : RollRow) : Bool := Nat.beq r.observer o && Nat.beq r.die agent
    match s.boot.roll.find? mine with
    | none =>
      match look agent s.boot.dead with
      | some inc => repeatNotice o agent inc s
      | none => s
    | some r =>
      if r.missed < 2 then { s with boot := { s.boot with roll := putWhere mine { r with missed := r.missed + 1 } s.boot.roll } }
      else declareDead o agent r.incarn r.lastRtime s
  else
    let mine (p : Partner) : Bool := Nat.beq p.observer o && Nat.beq p.kind kind && Nat.beq p.agent agent
    match s.boot.partners.find? mine with
    | none => s
    | some p =>
      if p.missed < 2 then
        { s with boot := { s.boot with partners := putWhere mine { p with missed := p.missed + 1 } s.boot.partners } }
      else retirePartner o kind agent p.lastRtime s

def execBeaconSlotMissed (observer kind agent : Nat) (s : State) : Host.Outcome State Fault Refusal :=
  .next (beaconSlotMissed observer kind agent s)

/-- DEAD_NOTICE (R95, R96, R114): a die that it names, at its own INCARNATION, enters die reset; every other agent acts
on it, once. -/
def deadNotice (a d : Nat) (inc : BitVec 16) (s : State) : State :=
  let n := inc.toNat
  if a = d then (if dieUp s d && s.rd d Reg.DC_INCARNATION == n then dieReset d 3 s else s)
  else if !agentUp s a || s.boot.notices.contains (a, d) then s
  else agentDead a d n 0 (if (look d s.boot.dead).isNone then markDead d n s else s)

def execDeadNotice (agent d : Nat) (inc : BitVec 16) (s : State) : Host.Outcome State Fault Refusal :=
  onDie s d (deadNotice agent d inc)

/-- RECLAIM_TIMEOUT (R282 step 4): transient lines of an affected partition complete as orphans. -/
def reclaimTimeout (d dead : Nat) (s : State) : State :=
  if dieUp s d && s.rdBit d Reg.DC_DEAD dead then
    each ((imgParts s).filter (fun p => imgDie s p dead)) (fun s p => cohReclaim d p s) s
  else s

def execReclaimTimeout (d dead : Nat) (s : State) : Host.Outcome State Fault Refusal := onDie s d (reclaimTimeout d dead)

/-! ### Beacons received (R93, R95–R98, R112) -/

/-- A valid beacon's fields; none where R93 discards it. -/
def parseBeacon (l : List Byte) : Option BeaconMsg :=
  if l.length = 80 && leAt l 0 2 = 0x5243 && leAt l 2 1 = 1 && leAt l 0x4C 4 = crc32c (l.take 0x4C) then
    some {
      kind := leAt l 3 1, agent := leAt l 4 2, rackNo := leAt l 6 2, stepping := leAt l 8 1, stage := leAt l 9 1,
      seq := leAt l 0x0A 2, incarn := leAt l 0x0C 2, flags := leAt l 0x0E 2, rtime := leAt l 0x10 8, caps := leAt l 0x18 8,
      compat := (List.range 7).map (fun n => leAt l (0x20 + 4 * n) 4), goodW := leAt l 0x3C 2, goodE := leAt l 0x3E 2,
      chanFail := leAt l 0x40 4 }
  else none

/-- A discarded beacon is counted (DC_BEACON_DROP); a spine switch has no counter. -/
def beaconDrop (o : Nat) (s : State) : State := if o < 64 then s.count o Reg.DC_BEACON_DROP 1 else s

/-- Bridge racks in an observer's table. -/
def bridgeRacks (s : State) (o : Nat) : List Nat :=
  (s.boot.partners.filter (fun p => Nat.beq p.observer o && Nat.beq p.kind 4)).map (·.agent)

/-- Whether the observer's roll-call tables have room for the sender (R112). A KIND that Table BOOT-5 does not have finds none:
its beacon is discarded and counted (DESIGN CHOICE, log 103). -/
def beaconFits (s : State) (o : Nat) (b : BeaconMsg) : Bool :=
  match b.kind with
  | 0 => Nat.blt b.agent (dieCount s.orderCode)
  | 1 => Nat.blt b.agent 144
  | 2 => Nat.blt b.agent 32
  | 3 => Nat.blt b.agent 32
  | 4 => (bridgeRacks s o).contains b.agent || Nat.blt (bridgeRacks s o).length 16
  | _ => false

/-- A die that was dead joins again with a higher INCARNATION (R97). -/
def undead (x : Nat) (s : State) : State :=
  let s := each (allDies s) (fun s d => s.wrBit d Reg.DC_DEAD x false) s
  { s with boot := { s.boot with
      dead := unbind x s.boot.dead, notices := s.boot.notices.filter (fun y => !(Nat.beq y.2 x)) } }

/-- A die's beacon enters the observer's table; a master that hears a lower one yields (R99). -/
def hearDie (o port : Nat) (b : BeaconMsg) (s : State) : State :=
  let mine (r : RollRow) : Bool := Nat.beq r.observer o && Nat.beq r.die b.agent
  let before := ((s.boot.roll.find? mine).map (·.overL)).getD []
  let overL := if 3 ≤ port then addNat before port else before
  let row : RollRow := ⟨o, b.agent, 0, b.incarn, b.stage, b.flags.testBit 1, b.flags.testBit 0, b.rtime, overL⟩
  let s := { s with boot := { s.boot with roll := putWhere mine row s.boot.roll } }
  if o < 64 then
    let s := s.wrBit o Reg.DC_ROLL b.agent true
    if b.flags.testBit 1 && Nat.blt b.agent o && s.rd o Reg.DC_RTIME_STATUS_MASTER == 1 then yieldMaster o s else s
  else s

/-- A spine switch forwards a die's beacon to every other die port of its plane (R92), unless the plane is lost: what goes
between modules then uses the other one (R535). -/
def forwardBeacon (o port : Nat) (bytes : List Byte) (s : State) : State :=
  if o < 64 || s.rack.planeLost.contains (o - 64) then s
  else
    each ((allDies s).filter (fun d => !(Nat.beq d port) && portUp s d (3 + (o - 64)))) (fun s d => sendCtl o d 0 bytes s) s

/-- The beacon of a port or a partner rack enters the observer's table; the first of a partner makes it join (R98). -/
def hearOther (o port : Nat) (b : BeaconMsg) (s : State) : State :=
  let mine (p : Partner) : Bool := Nat.beq p.observer o && Nat.beq p.kind b.kind && Nat.beq p.agent b.agent
  let known := s.boot.partners.any (fun p => Nat.beq p.kind b.kind && Nat.beq p.agent b.agent)
  let row : Partner := ⟨o, b.kind, b.agent, port, 0, b.rackNo, b.rtime⟩
  let s := { s with boot := { s.boot with partners := putWhere mine row s.boot.partners } }
  if known || decide (b.kind = 1) then s
  else agentEmit o 0x016 0 false [pf 1 b.kind, pf 1 0, pf 2 b.agent, pf 2 b.rackNo, pf 2 0] s

/-- A dead die that comes back (R97): one that has completed stage 10 and that the census no longer has is added again. -/
def comeBack (x : Nat) (s : State) : State :=
  let s := undead x s
  if !s.boot.censusOpen && dieUp s x && Nat.ble 8 (s.rd x Reg.DC_BOOT_STATUS_STAGE)
      && !s.boot.census.any (fun r => Nat.beq r.die x) then rmJoin x s else s

/-- BEACON: `observer` receives one on `port`. Of the other beacons a bridge port carries those of KIND 1 and 4 alone (R308). -/
def beacon (o port : Nat) (bytes : List Byte) (s : State) : State :=
  if !agentUp s o then s
  else
    match parseBeacon bytes with
    | none => beaconDrop o s
    | some b =>
      if 64 ≤ o && 64 ≤ port && b.kind ≠ 1 && b.kind ≠ 4 then s
      else if !beaconFits s o b then beaconDrop o s
      else if b.kind ≠ 0 then hearOther o port b s
      else
        match look b.agent s.boot.dead with
        | none => forwardBeacon o port bytes (hearDie o port b s)
        | some inc =>
          if incLower inc b.incarn then forwardBeacon o port bytes (hearDie o port b (comeBack b.agent s)) else s

def execBeacon (observer port : Nat) (bytes : List Byte) (s : State) : Host.Outcome State Fault Refusal :=
  .next (beacon observer port bytes s)

/-! ### The census closes (R103) -/

/-- Dies that have completed stage 10. -/
def stage10Dies (s : State) : List Nat :=
  (allDies s).filter (fun d => dieUp s d && Nat.ble 8 (s.rd d Reg.DC_BOOT_STATUS_STAGE))

/-- A rack reset ends with its census: the RM writes its RESET record (DEDUCED, log 50). -/
def rackResetRecord (s : State) : State :=
  match s.boot.rackResetAt with
  | none => s
  | some t =>
    rackEmit 0xFFF 0x034 0 false [pf 1 5, pf 1 0xFF, pf 1 0xFF, pf 1 0, pa_ 4 ((s.recs.rmRtime - t) / 1000)]
      { s with boot := { s.boot with rackResetAt := none } }

/-- CENSUS_CLOSE (R103): when every die of the order code has completed stage 10, or CENSUS_MS after the first; `ms` is how
long ago, in ms, the first did. -/
def censusClose (ms : Nat) (s : State) : State :=
  let ds := stage10Dies s
  if s.rack.rmUp && s.boot.censusOpen && !ds.isEmpty && (Nat.ble s.boot.censusMs ms || ds.length == dieCount s.orderCode) then
    let s := each ds (fun s d => uartPrint d 11 (enroll d s)) { s with boot := { s.boot with censusOpen := false } }
    rackResetRecord (evaluateCensus s)
  else s

def execCensusClose (ms : Nat) (s : State) : Host.Outcome State Fault Refusal := .next (censusClose ms s)

/-! ### Time alignment (R99–R101) -/

/-- The masters that a die hears over Toash-L. -/
def mastersHeard (s : State) (d : Nat) : List Nat :=
  (s.boot.roll.filter (fun r => Nat.beq r.observer d && !r.overL.isEmpty && r.master)).map (·.die)

/-- MASTER_ELECTION (R99): 3 beacon slots have been heard. Alignment of a new master has thereby succeeded. -/
def masterElection (d : Nat) (s : State) : State :=
  let lower := s.boot.roll.any (fun r => Nat.beq r.observer d && Nat.blt r.die d)
  if dieUp s d && Nat.ble 7 (s.rd d Reg.DC_BOOT_STATUS_STAGE) && s.rd d Reg.DC_BOOT_STATUS_ERROR == 0
      && s.rd d Reg.DC_RTIME_STATUS_ALIGNED == 0 && overLink s d && (mastersHeard s d).isEmpty && !lower then
    stage10 d (setMaster d s)
  else s

def execMasterElection (d : Nat) (s : State) : Host.Outcome State Fault Refusal := onDie s d (masterElection d)

/-- Twice the offset that an exchange measures (R100). -/
def Exch.offset2 (x : Exch) : Int := ((x.t2.toNat : Int) - x.t1.toNat) + ((x.t3.toNat : Int) - x.t4.toNat)

/-- Its round trip. -/
def Exch.trip (x : Exch) : Int := ((x.t4.toNat : Int) - x.t1.toNat) - ((x.t3.toNat : Int) - x.t2.toNat)

/-- The exchange with the least round trip, the first of them. -/
def bestExch : List Exch → Option Exch
  | [] => none
  | x :: l =>
    match bestExch l with
    | some y => if y.trip < x.trip then some y else some x
    | none => some x

/-- Half an offset rounded to 10 ns, halves up (DEDUCED, log 51). -/
def round10 (o2 : Int) : Int := (o2 + 10) / 20 * 10

/-- An RTIME-STEP record: kind 0 alignment, 1 correction. -/
def stepRecord (d : Nat) (ns : Int) (master kind : Nat) (s : State) : State :=
  emit d 0 0x012 0 false [pa_ 4 (ofSigned 32 ns), pf 1 master, pf 1 kind, pf 2 0] s

/-- The step that 16 exchanges give, once (R100, R101). -/
def alignStep (d m : Nat) (s : State) : State :=
  match bestExch (s.boot.exch.filter (fun x => Nat.beq x.die d)) with
  | none => s
  | some x =>
    if s.boot.stepped.contains d then s
    else
      let o := round10 x.offset2
      let s := stepRecord d o m 0 (s.wr d Reg.DC_RTIME ((s.rtime d : Int) + o).toNat)
      { s.wr d Reg.DC_RTIME_STATUS_OFFSET (ofSigned 16 (x.offset2 / 2)) with
        boot := { s.boot with stepped := addNat s.boot.stepped d } }

/-- A further exchange: within ±20 ns the die is aligned (R100); otherwise it measures again. -/
def alignCheck (d m : Nat) (x : Exch) (s : State) : State :=
  let s := s.wr d Reg.DC_RTIME_STATUS_OFFSET (ofSigned 16 (x.offset2 / 2))
  let s := { s with boot := { s.boot with exch := s.boot.exch.filter (fun y => !(Nat.beq y.die d)) } }
  if -40 ≤ x.offset2 && x.offset2 ≤ 40 then
    let s := s.wr d Reg.DC_RTIME_STATUS_ALIGNED 1
    stage10 d { s with boot := { s.boot with follows := bind_ d m s.boot.follows } }
  else s

/-- RTIME_EXCHANGE (R100): a timed exchange of a die that is not aligned with the master it hears. One that hears two masters
aligns to the first of its roll-call table (DESIGN CHOICE, log 104). -/
def rtimeExchange (d : Nat) (t1 t2 t3 t4 : Word) (s : State) : State :=
  let x : Exch := ⟨d, t1, t2, t3, t4⟩
  match (mastersHeard s d).head? with
  | none => s
  | some m =>
    if dieUp s d && Nat.ble 7 (s.rd d Reg.DC_BOOT_STATUS_STAGE) && s.rd d Reg.DC_BOOT_STATUS_ERROR == 0
        && s.rd d Reg.DC_RTIME_STATUS_ALIGNED == 0 && (portUp s d 3 || portUp s d 4) then
      let n := (s.boot.exch.filter (fun y => Nat.beq y.die d)).length
      if 16 ≤ n then alignCheck d m x s
      else
        let s := { s with boot := { s.boot with exch := s.boot.exch ++ [x] } }
        if n = 15 then alignStep d m s else s
    else s

def execRtimeExchange (d : Nat) (t1 t2 t3 t4 : Word) (s : State) : Host.Outcome State Fault Refusal :=
  onDie s d (rtimeExchange d t1 t2 t3 t4)

/-- RTIME_REMEASURE (R101): an offset beyond ±20 ns is corrected edge by edge, and recorded. -/
def rtimeRemeasure (d : Nat) (offset : Int) (s : State) : State :=
  if dieUp s d && s.rd d Reg.DC_RTIME_STATUS_ALIGNED == 1 && s.rd d Reg.DC_RTIME_STATUS_MASTER == 0 then
    let s := s.wr d Reg.DC_RTIME_STATUS_OFFSET (ofSigned 16 offset)
    if 20 < offset || offset < -20 then
      stepRecord d offset ((look d s.boot.follows).getD 0) 1
        { s with boot := { s.boot with corr := SMap.set 0 s.boot.corr d offset } }
    else s
  else s

def execRtimeRemeasure (d : Nat) (offset : Int) (s : State) : Host.Outcome State Fault Refusal :=
  onDie s d (rtimeRemeasure d offset)

/-! ### Host ABI (R109, R110, R509) and UNTESTED-ACCEPT (R108, R110, R118, R119) -/

/-- The port is ATTACHED at the lower minor. -/
def attachPort (port : Nat) (s : State) : State :=
  let d := portDie port
  let s := (s.wr d Reg.HOST_STATUS_ATTACH 2).wr d Reg.HOST_ABI_STATUS_RESULT 1
  let s := s.wr d Reg.HOST_ABI_STATUS_ACTIVE (min (s.rd d Reg.HOST_ABI_MINOR) (compatOf s d 6).minor)
  { s with host := { s.host with abiHeld := delNat s.host.abiHeld port } }

/-- The combination with a host ABI tuple added. -/
def abiCombo (s : State) (port : Nat) : List Nat :=
  let d := portDie port
  combo s ++ [tupKey 6 ⟨s.rd d Reg.HOST_ABI_MAJOR, s.rd d Reg.HOST_ABI_MINOR⟩]

/-- Whether the pairing table has the pair of a host ABI and the rack firmware. Its entries give no component 6, so an
entry that covers the rack firmware covers the pair (DEDUCED, log 52). -/
def abiTested (s : State) : Bool := s.boot.pairing.any (fun e => covers e (tupKey 4 s.rack.rackFw))

/-- HOST_ABI (R509): the driver of a LINKED port writes its tuple. -/
def hostAbi (port : Nat) (abi : Compat) (s : State) : State :=
  let d := portDie port
  if !portLive s port then s
  else
    let s := (s.wr d Reg.HOST_ABI_MAJOR abi.major).wr d Reg.HOST_ABI_MINOR abi.minor
    if attachOf s port ≠ 1 then s
    else if abi.major % 0x10000 ≠ (compatOf s d 6).major then s.wr d Reg.HOST_ABI_STATUS_RESULT 2
    else if abiTested s || s.boot.accepted.contains (BitVec.ofNat 32 (comboDigest (abiCombo s port))) then attachPort port s
    else
      let s := (s.wr d Reg.HOST_STATUS_ATTACH 3).wr d Reg.HOST_ABI_STATUS_RESULT 3
      { s with host := { s.host with abiHeld := addNat s.host.abiHeld port } }

def execHostAbi (port : Nat) (abi : Compat) (s : State) : Host.Outcome State Fault Refusal :=
  onDie s (portDie port) (hostAbi port abi)

/-- An UNTESTED-ACCEPT's record: result 0 accepted, 1 STALE-DIGEST. -/
def acceptRecord_ (digest : BitVec 32) (result : Nat) (s : State) : State :=
  rackEmit 0xFFF 0x015 0 false [pf 4 digest.toNat, pf 1 result, pf 3 0] s

/-- A digest is accepted: DC_ACCEPT on every die; `mark` marks partitions unqualified (R108). -/
def takeDigest (digest : BitVec 32) (mark : Bool) (s : State) : State :=
  let s := each ((allDies s).filter (dieUp s)) (fun s d => s.wr d Reg.DC_ACCEPT digest.toNat) s
  acceptRecord_ digest 0
    { s with boot := { s.boot with
        accepted := digest :: s.boot.accepted.filter (fun x => x != digest), unqualified := s.boot.unqualified || mark } }

/-- The combination with an image's format tuple added (R118). -/
def fmtCombo (s : State) (c : Compat) : List Nat := sortNat (addNat (combo s) (tupKey 5 c))

/-- Whether some partition of the live image has an instance on the port. -/
def portUsed (s : State) (port : Nat) : Bool :=
  (imgParts s).any (fun p => (instances s p).any (fun e => Nat.beq e.hostPort port))

/-- UNTESTED_ACCEPT of the digest of the current combination (R108, R117): every partition is unqualified, and the rack
leaves HOLD-UNTESTED, as do the dies held under R90 and R117. -/
def acceptCombo (digest : BitVec 32) (s : State) : State :=
  let s := takeDigest digest true { s with boot := { s.boot with dieHold := s.boot.dieHold.filter (fun x => Nat.beq x.2 1) } }
  if s.boot.hold = 2 then evaluateCensus s else showCensus s

/-- UNTESTED_ACCEPT: it releases HOLD-UNTESTED and the held dies, HELD ports (R110) or an image's format (R118), by the
digest it carries; any other is refused STALE-DIGEST. For a port, the partitions with an instance on it are unqualified; for
a format, R118 says only that the load proceeds, and every partition is taken as unqualified and DC_ACCEPT written, as under
R108 (DESIGN CHOICE, log 105). -/
def untestedAccept (digest : BitVec 32) (s : State) : State :=
  let is (l : List Nat) : Bool := BitVec.ofNat 32 (comboDigest l) == digest
  if !s.rack.rmUp then s
  else if s.boot.censusOpen || s.boot.hold == 1 then acceptRecord_ digest 1 s
  else if is (combo s) then acceptCombo digest s
  else
    let ports := s.host.abiHeld.filter (fun p => is (abiCombo s p))
    let fmts := s.boot.fmtHeld.filter (fun c => is (fmtCombo s c))
    if ports.isEmpty && fmts.isEmpty then acceptRecord_ digest 1 s
    else
      let s := takeDigest digest (!fmts.isEmpty || ports.any (portUsed s))
        { s with boot := { s.boot with fmtHeld := s.boot.fmtHeld.filter (fun c => !fmts.contains c) } }
      showCensus (each ports (fun s p => attachPort p s) s)

def execUntestedAccept (digest : BitVec 32) (s : State) : Host.Outcome State Fault Refusal :=
  .next (untestedAccept digest s)

end Sys2Proof.Machine
end

