-- ==== Sys2Proof/Machine/ImageCheck.lean ====
section
/-! DEFINITION. The check phase of an image load (R46–R56, R63, R64, R66, R69, R74, Table IMG-11): the frames, the sections
and their entries, and every condition of R56. The first check that fails gives the rejection. -/

namespace Sys2Proof.Machine

/-! ### Rejections (Table IMG-11) -/

namespace Rc
def badMagic : Nat := 0x01
def formatMajor : Nat := 0x02
def formatMinor : Nat := 0x03
def stepping : Nat := 0x04
def frameCount : Nat := 0x05
def headerCrc : Nat := 0x06
def imageCrc : Nat := 0x07
def frameCrc : Nat := 0x08
def sectionUnknown : Nat := 0x09
def sectionOrder : Nat := 0x0A
def sectionMissing : Nat := 0x0B
def fieldRange : Nat := 0x0C
def fusedCluster : Nat := 0x0D
def halfConflict : Nat := 0x0E
def slicingConflict : Nat := 0x0F
def queueConflict : Nat := 0x10
def instanceConflict : Nat := 0x11
def portRole : Nat := 0x12
def treeInvalid : Nat := 0x13
def partialScope : Nat := 0x14
def sealedImage : Nat := 0x15
def staleSerial : Nat := 0x16
def noBase : Nat := 0x17
def hold : Nat := 0x18
def busy : Nat := 0x19
def stageFail : Nat := 0x1A
def quiesceTimeout : Nat := 0x1B
def dieAbsent : Nat := 0x1C
def aborted : Nat := 0x1D
end Rc

/-- A rejection: its code, its frame (0xFFFF none), the offset of the field in the frame, and the agent (R75). -/
structure Rej where
  code : Nat
  frame : Nat
  off : Option Nat
  agent : Nat
  deriving DecidableEq, Repr

def Rej.detail (r : Rej) : Nat := detailWord r.frame r.agent r.off

/-- The first rejection of a list of checks. -/
def firstRej {α : Type} (f : α → Option Rej) : List α → Option Rej
  | [] => none
  | x :: l => match f x with
    | some r => some r
    | none => firstRej f l

/-- The first offset whose condition holds. -/
def badOff : List (Bool × Nat) → Option Nat
  | [] => none
  | (c, o) :: l => if c then some o else badOff l

/-- A rejection of the RM, at a header offset. -/
def rmRej (code off : Nat) : Rej := ⟨code, 0, some off, rmAgent⟩

/-- Dies that a load has as agents (R57, R116): those of the census that run. -/
def loadDies (s : State) : List Nat := (allDies s).filter (fun d => dieUp s d && s.boot.census.any (fun r => Nat.beq r.die d))

/-- The lowest die agent, else the RM: who reports what no section places elsewhere. -/
def lowAgent (s : State) : Nat := ((loadDies s).head?).getD rmAgent

/-- The lowest agent among some dies. -/
def repAgent (s : State) (ds : List Nat) : Nat := (ds.find? (fun d => (loadDies s).contains d)).getD (lowAgent s)

/-! ### The header frame (Table IMG-1) -/

/-- The frames of an image. -/
def framesOf : Nat → List Byte → List (List Byte)
  | 0, _ => []
  | n + 1, b => if b.isEmpty then [] else b.take 4096 :: framesOf n (b.drop 4096)

/-- Whether a number's bytes are all zero. -/
def zeros (b : List Byte) (o n : Nat) : Bool := ((b.drop o).take n).all (fun x => x == 0)

/-- BUILDER is ASCII, padded with NUL. -/
def builderOk : List Byte → Bool
  | [] => true
  | c :: l => Nat.blt c.toNat 128 && (if c = 0 then l.all (fun x => x == 0) else builderOk l)

/-- The frames with their numbers. -/
def numbered (l : List (List Byte)) : List (Nat × List Byte) := (List.range l.length).zip l

/-- The RM's checks: the header and every CRC (R55). -/
def headerCheck (b : List Byte) : Option Rej :=
  let h := b.take 4096
  let n := leAt h 0x0C 4
  let kind := leAt h 0x14 1
  let target := leAt h 0x15 1
  if b.length < 4096 then some ⟨Rc.frameCount, 0xFFFF, none, rmAgent⟩
  else if crc32c (h.take 0xFFC) ≠ leAt h 0xFFC 4 then some (rmRej Rc.headerCrc 0xFFC)
  else if leAt h 0 4 ≠ 0x4C52444A then some (rmRej Rc.badMagic 0)
  else if n < 2 || 8192 < n || b.length ≠ 4096 * n then some (rmRej Rc.frameCount 0x0C)
  else
    (firstRej (fun (x : Nat × List Byte) =>
      if crc32c (x.2.take 0xFFC) = leAt x.2 0xFFC 4 then none else some ⟨Rc.frameCrc, x.1, some 0xFFC, rmAgent⟩)
      ((numbered (framesOf n b)).drop 1))
    <|> (if crc32c (b.drop 4096) = leAt h 0x10 4 then none else some (rmRej Rc.imageCrc 0x10))
    <|> ((badOff [(Nat.blt 1 kind, 0x14), ((if kind = 0 then target != 0xFF else Nat.blt 127 target), 0x15),
          (!zeros h 0x16 2, 0x16), (zeros h 0x18 8, 0x18), (!builderOk ((h.drop 0x20).take 32), 0x20),
          (!zeros h 0x44 4024, 0x44)]).map (rmRej Rc.fieldRange))

/-- The format tuple of an image. -/
def imgFormat (b : List Byte) : Compat := ⟨leAt b 6 2, leAt b 4 2⟩

/-- The lowest common minor of the dies' firmware (R56). -/
def commonMinor (s : State) : Nat :=
  let l := (loadDies s).map (fun d => s.rd d Reg.IMG_FORMAT_FMT_MINOR)
  l.foldl min (l.headD 0)

/-- FMT_MAJOR, STEP_MASK and FMT_MINOR against every die (R56), and the format tuple against the pairing table (R118). -/
def formatCheck (s : State) (b : List Byte) : Option Rej :=
  let f := imgFormat b
  (firstRej (fun d =>
    if f.major ≠ s.rd d Reg.IMG_FORMAT_FMT_MAJOR then some ⟨Rc.formatMajor, 0, some 6, d⟩
    else if !((leAt b 8 4).testBit (s.rd d Reg.DC_ID_STEPPING)) then some ⟨Rc.stepping, 0, some 8, d⟩
    else none) (loadDies s))
  <|> (if commonMinor s < f.minor then some ⟨Rc.formatMinor, 0, some 4, lowAgent s⟩ else none)
  <|> (if passes s (fmtCombo s f) then none else some ⟨Rc.hold, 0, some 4, rmAgent⟩)

/-! ### Section frames (R47, R48, Tables IMG-2, IMG-3, IMG-10) -/

/-- Rack-wide section types. -/
def rackType (t : Nat) : Bool := Nat.ble 8 t && Nat.ble t 14

/-- A frame that follows `prev` (type, scope, SEQ, LAST) in order. -/
def frameCheck (s : State) (isPartial : Bool) (target : Nat) (prev : Option (Nat × Nat × Nat × Bool)) (i : Nat) (f : List Byte) :
    Option Rej :=
  let typ := leAt f 0 2
  let seq := leAt f 2 2
  let len := leAt f 4 2
  let scope := leAt f 7 1
  let low := lowAgent s
  if typ = 0 || 14 < typ then some ⟨Rc.sectionUnknown, i, some 0, low⟩
  else
    ((badOff [(Nat.beq len 0 || Nat.blt 4080 len, 4), (Nat.blt 1 (leAt f 6 1), 6),
        ((if rackType typ then scope != 0xFF else Nat.blt 127 scope), 7), (!zeros f 8 4, 8),
        (!zeros f (12 + len) (4080 - len), 12 + len)]).map (fun o => (⟨Rc.fieldRange, i, some o, low⟩ : Rej)))
    <|> (match prev with
        | none => if seq = 0 then none else some ⟨Rc.sectionOrder, i, some 2, low⟩
        | some (t, c, q, last) =>
          if t = typ && c = scope then
            (if last || seq ≠ q + 1 then some ⟨Rc.sectionOrder, i, some 2, low⟩ else none)
          else if !last then some ⟨Rc.sectionOrder, i - 1, some 6, low⟩
          else if typ < t || (typ = t && scope < c) then some ⟨Rc.sectionOrder, i, some 0, low⟩
          else if seq ≠ 0 then some ⟨Rc.sectionOrder, i, some 2, low⟩
          else none)
    <|> (if !isPartial then none
        else
          let rep := repAgent s (partDies s target)
          if Nat.ble 9 typ then some ⟨Rc.partialScope, i, some 0, rep⟩
          else if Nat.blt typ 8 && scope != target then some ⟨Rc.partialScope, i, some 7, rep⟩
          else none)

/-- Every section frame in turn; the last has LAST set. -/
def framesCheck (s : State) (isPartial : Bool) (target : Nat) :
    Option (Nat × Nat × Nat × Bool) → List (Nat × List Byte) → Option Rej
  | none, [] => none
  | some (_, _, _, last), [] => if last then none else some ⟨Rc.sectionOrder, 0xFFFF, none, lowAgent s⟩
  | prev, (i, f) :: l =>
    match frameCheck s isPartial target prev i f with
    | some r => some r
    | none => framesCheck s isPartial target (some (leAt f 0 2, leAt f 7 1, leAt f 2 2, Nat.beq (leAt f 6 1 % 2) 1)) l

/-- One entry of a section, with where it stands; `node` marks a REDUCE node. -/
structure Ent where
  typ : Nat
  scope : Nat
  frame : Nat
  off : Nat
  node : Bool
  bytes : List Byte
  deriving DecidableEq, Repr

/-- A field of an entry. -/
def Ent.get (e : Ent) (o n : Nat) : Nat := leAt e.bytes o n

/-- Entry sizes (Tables IMG-3 to IMG-8); `pend` REDUCE nodes are still to come. -/
def entSize (typ pend : Nat) (b : List Byte) : Nat :=
  match typ with
  | 1 => 64
  | 2 => 16 + 24 * leAt b 8 1
  | 3 => 24
  | 4 => 12
  | 5 => 24
  | 6 => 8
  | 7 => if pend = 0 then 16 else 8
  | 8 => 4
  | 9 => 4
  | 11 => 88
  | _ => 8

/-- REDUCE nodes still to come after an entry. -/
def pendAfter (typ pend : Nat) (b : List Byte) : Nat := if typ = 7 then (if pend = 0 then leAt b 6 2 else pend - 1) else 0

/-- The entries of a frame's payload, and the nodes still to come; none where an entry straddles the frame's end (R48). -/
def parseEnts (typ scope frame : Nat) : Nat → Nat → Nat → List Byte → Option (List Ent × Nat)
  | 0, _, pend, _ => some ([], pend)
  | fuel + 1, off, pend, b =>
    if b.isEmpty then some ([], pend)
    else
      let n := entSize typ pend b
      if b.length < n then none
      else
        let e : Ent := ⟨typ, scope, frame, off, Nat.beq typ 7 && pend != 0, b.take n⟩
        (parseEnts typ scope frame fuel (off + n) (pendAfter typ pend b) (b.drop n)).map (fun r => (e :: r.1, r.2))

/-- What the entries of all frames are. -/
inductive Parsed where
  | ok (l : List Ent)
  | bad (r : Rej)
  deriving DecidableEq, Repr

/-- Every entry of every frame, in order. A tree with fewer nodes than NODES is out of range. -/
def parseFrames (s : State) : Nat → List (Nat × List Byte) → Parsed
  | _, [] => .ok []
  | pend, (i, f) :: l =>
    let typ := leAt f 0 2
    let seq := leAt f 2 2
    let start := if typ = 7 && seq ≠ 0 then pend else 0
    match parseEnts typ (leAt f 7 1) i 1024 12 start ((f.drop 12).take (leAt f 4 2)) with
    | none => .bad ⟨Rc.sectionOrder, i, some 4, lowAgent s⟩
    | some (es, pend') =>
      if leAt f 6 1 = 1 && pend' ≠ 0 then .bad ⟨Rc.fieldRange, i, none, (([0, 1].find? (fun k => s.rack.spineReady.contains k)).map (0x40 + ·)).getD (lowAgent s)⟩
      else
        match parseFrames s pend' l with
        | .ok r => .ok (es ++ r)
        | .bad r => .bad r

/-! ### Entries of the image -/

/-- Entries of a type at a scope. -/
def entsAt (l : List Ent) (typ scope : Nat) : List Ent := l.filter (fun e => Nat.beq e.typ typ && Nat.beq e.scope scope)
/-- Entries of a type. -/
def entsOf (l : List Ent) (typ : Nat) : List Ent := l.filter (fun e => Nat.beq e.typ typ)

/-- Partitions that the image names. -/
def entParts (l : List Ent) : List Nat := (l.filter (fun e => Nat.blt e.typ 8)).foldl (fun a e => addNat a e.scope) []

/-- A field of a partition's PARTITION entry. -/
def entPart (l : List Ent) (p o n : Nat) : Nat := (((entsAt l 1 p).head?).map (fun e => e.get o n)).getD 0
def entHalves (l : List Ent) (p : Nat) : List Nat := bitsOf 128 (entPart l p 4 16)
/-- Dies of a partition in the image. -/
def entDies (l : List Ent) (p : Nat) : List Nat := (entHalves l p).foldl (fun a h => addNat a (h / 2)) []
def entSlice (l : List Ent) (p : Nat) : Bool := (entPart l p 1 1).testBit 3

/-- The cluster maps of an INSTANCE entry. -/
def Ent.maps (e : Ent) : List (Nat × Nat) := clusterMaps (e.get 8 1) (e.bytes.drop 16)

/-- ENABLE of half `h` in the image's CLUSTERS. -/
def entEnable (l : List Ent) (p h : Nat) : Nat :=
  (((entsAt l 3 p).find? (fun e => Nat.beq (e.get 0 1) h)).map (fun e => e.get 4 20)).getD 0

/-- The agent that checks an entry of the spine's sections (R55): the switch of the first of some planes that is up, else the
lowest of some dies (DEDUCED, log 106). -/
def spineAgent (s : State) (planes ds : List Nat) : Nat :=
  match planes.find? (fun k => s.rack.spineReady.contains k) with
  | some k => 0x40 + k
  | none => repAgent s ds

/-- The agent that reports on an entry (R55): a spine switch the entries of its plane, else the lowest die concerned. -/
def entAgent (s : State) (l : List Ent) (e : Ent) : Nat :=
  match e.typ with
  | 7 =>
    if !e.node then spineAgent s [0, 1] (entDies l e.scope)
    else if e.get 0 1 = 1 then spineAgent s [e.get 1 1] (entDies l e.scope)
    else repAgent s [e.get 1 1]
  | 8 => spineAgent s ([0, 1].filter (fun k => (e.get 3 1).testBit k || (e.get 3 1) % 4 == 0)) [e.get 1 1]
  | 13 => if e.get 0 1 = 1 then spineAgent s [e.get 1 1 / 8] [] else repAgent s [portDie (e.get 1 1)]
  | 9 => repAgent s [e.get 0 1]
  | 10 => repAgent s [e.get 0 1]
  | 11 => repAgent s [e.get 0 1]
  | 12 => repAgent s [e.get 0 1]
  | 14 => lowAgent s
  | _ => repAgent s (entDies l e.scope)

/-- A rejection at a field of an entry. -/
def entRej (s : State) (l : List Ent) (code : Nat) (e : Ent) (o : Nat) : Rej := ⟨code, e.frame, some (e.off + o), entAgent s l e⟩

/-! ### Field ranges (Tables IMG-4 to IMG-8, R257, R403, R411, Table PART-5) -/

/-- A number outside lo–hi. -/
def out (lo hi v : Nat) : Bool := Nat.blt v lo || Nat.blt hi v

/-- The maps of an INSTANCE entry out of range, from map `k` on. -/
def mapsBad (e : Ent) : Nat → Nat → Option Nat
  | 0, _ => none
  | n + 1, k =>
    let o := 16 + 24 * k
    match badOff [(Nat.blt 127 (e.get o 1), o), (!zeros e.bytes (o + 1) 3, o + 1)] with
    | some x => some x
    | none => mapsBad e n (k + 1)

/-- A PARTITION entry. -/
def partitionBad (s : State) (e : Ent) : Option Nat :=
  let m := e.get 1 1
  badOff [
    (e.get 0 1 != e.scope || Nat.ble (if s.orderCode = .cxm32S then 64 else 128) (e.get 0 1), 0),
    (Nat.ble 16 m || (!m.testBit 1 && !(s.rd (lowAgent s) Reg.DC_CAPS_ACTIVE).testBit 3), 1),
    (!zeros e.bytes 2 2, 2), (zeros e.bytes 4 16, 4), (out 1 16 (e.get 0x14 1), 0x14), (out 0 8 (e.get 0x15 1), 0x15),
    (out 0 152 (e.get 0x16 1), 0x16), (out 1 2 (e.get 0x17 1), 0x17), (out 64 8000 (e.get 0x18 2), 0x18),
    (out 0 1024 (e.get 0x1A 2) || e.get 0x1A 2 % 64 != 0, 0x1A),
    (out 1 (if m.testBit 3 then 16 else 32) (e.get 0x1C 1), 0x1C), (!zeros e.bytes 0x1D 35, 0x1D)]

/-- An INSTANCE entry. -/
def entryInstBad (slice : Bool) (e : Ent) : Option Nat :=
  (badOff [
    (out 0 31 (e.get 0 1), 0), (out 0 31 (e.get 1 1), 1),
    ((if slice then e.get 2 1 != 0 else out 1 63 (e.get 2 1)), 2), (out 1 64 (e.get 3 1), 3),
    ((if slice then Nat.ble 0x100000 (e.get 4 4) else e.get 4 4 != 0), 4),
    ((if slice then out 1 128 (e.get 8 1) else e.get 8 1 != 0), 8), (!zeros e.bytes 9 7, 9)])
  <|> mapsBad e (e.get 8 1) 0

/-- A QUEUES entry. -/
def queueBad (e : Ent) : Option Nat :=
  let cq := Nat.beq (e.get 3 1) 3
  badOff [
    (out 0 4095 (e.get 0 2), 0), (out 0 31 (e.get 2 1), 2), (out 0 3 (e.get 3 1), 3),
    (out 0 (if cq then 0 else 2) (e.get 4 1), 4), (zeros e.bytes 5 1, 5), (out 0 15 (e.get 6 1), 6), (!zeros e.bytes 7 1, 7),
    ((if cq then e.get 8 2 != 0xFFFF else Nat.blt 4095 (e.get 8 2)), 8), (!zeros e.bytes 10 2, 10)]

/-- A REDUCE tree header or node. -/
def reduceBad (e : Ent) : Option Nat :=
  if e.node then
    let spine := Nat.beq (e.get 0 1) 1
    badOff [(out 0 1 (e.get 0 1), 0), (out 0 (if spine then 1 else 63) (e.get 1 1), 1),
      (out 0 (if spine then 63 else 319) (e.get 2 2), 2), (!zeros e.bytes 6 2, 6)]
  else
    badOff [(out 0 63 (e.get 0 1), 0), (!zeros e.bytes 1 1, 1), (out 0 4095 (e.get 2 2), 2),
      (out 1 4096 (e.get 4 2) || Nat.blt 4096 (e.get 2 2 + e.get 4 2), 4), (out 2 256 (e.get 6 2), 6),
      (!zeros e.bytes 8 8, 8)]

/-- A GOVERNOR entry. -/
def governorBad (e : Ent) : Option Nat :=
  let floor := toSigned 32 (e.get 4 4)
  let ec (j : Nat) : Nat := e.get (8 + 4 * j) 4
  let temp (j : Nat) : Nat := e.get (0x48 + 4 * j) 1
  let cclk (j : Nat) : Nat := e.get (0x49 + 4 * j) 1
  (badOff [(out 0 63 (e.get 0 1), 0), (!zeros e.bytes 1 1, 1), (out 100 1200 (e.get 2 2), 2),
      (decide (floor < -100000) || decide (0 < floor), 4)])
  <|> badOff ((List.range 15).map (fun j => (Nat.blt (ec (j + 1)) (ec j), 8 + 4 * (j + 1))))
  <|> badOff ((List.range 4).map (fun j =>
      (Nat.ble 230 (temp j) || Nat.blt 3 (cclk j) || !zeros e.bytes (0x4A + 4 * j) 2
        || (j != 0 && (Nat.ble (temp j) (temp (j - 1)) || Nat.blt (cclk j) (cclk (j - 1)))), 0x48 + 4 * j)))

/-- A MONITOR rule. -/
def monitorBad (e : Ent) : Option Nat :=
  let n := e.get 6 1
  badOff [(Nat.blt 63 (e.get 0 1) && e.get 0 1 != 0xFF, 0), (out 0 2 (e.get 1 1), 1),
    (e.get 2 2 != 0xFFFF && Nat.ble (match e.get 1 1 with | 0 => 320 | 1 => 32 | _ => 8) (e.get 2 2), 2),
    (Nat.ble (e.get 5 1) (e.get 4 1), 4), (!([1, 3, 5, 7].contains n), 6), (out 1 n (e.get 7 1), 7)]

/-- The offset of an entry's first field that is out of range, or reserved and nonzero (R56). -/
def entBad (s : State) (l : List Ent) (e : Ent) : Option Nat :=
  match e.typ with
  | 1 => partitionBad s e
  | 2 => entryInstBad (entSlice l e.scope) e
  | 3 => badOff [(Nat.blt 127 (e.get 0 1) || !(entHalves l e.scope).contains (e.get 0 1), 0), (!zeros e.bytes 1 3, 1)]
  | 4 => queueBad e
  | 5 => badOff [(out 0 31 (e.get 0 1), 0), (zeros e.bytes 1 1, 1), (!zeros e.bytes 2 2, 2),
      (out 1 10000000 (e.get 8 4), 8), (!zeros e.bytes 0x14 4, 0x14)]
  | 6 => badOff [(out 1 10000 (e.get 0 2), 0), (!zeros e.bytes 2 6, 2)]
  | 7 => reduceBad e
  | 8 => badOff [(out 0 127 (e.get 0 1), 0), (out 0 63 (e.get 1 1), 1),
      (out 0 63 (e.get 2 1) || Nat.beq (moduleOf (e.get 1 1)) (moduleOf (e.get 2 1)), 2), (out 1 3 (e.get 3 1), 3)]
  | 9 => badOff [(out 0 63 (e.get 0 1), 0), (out 0 3 (e.get 1 1), 1), (out 0 3 (e.get 2 1), 2), (!zeros e.bytes 3 1, 3)]
  | 10 => monitorBad e
  | 11 => governorBad e
  | 12 => badOff ([(out 0 63 (e.get 0 1), 0), (out 0 67 (e.get 1 1), 1)]
      ++ (List.range 5).map (fun k => (out 1 32 (e.get (2 + k) 1), 2 + k)) ++ [(!zeros e.bytes 7 1, 7)])
  | 13 =>
    let host := Nat.beq (e.get 0 1) 0
    badOff [(out 0 1 (e.get 0 1), 0), (out 0 (if host then 31 else 15) (e.get 1 1), 1),
      (out 0 (if host then 2 else 1) (e.get 2 1), 2), (!zeros e.bytes 3 1, 3), (out 50 50000 (e.get 4 2), 4),
      (host && e.get 6 2 != 0, 6)]
  | _ => badOff [(!([16, 32, 64, 128, 256].contains (e.get 0 2)), 0), (!zeros e.bytes 2 6, 2)]

/-- What an entry is the only one of (Table IMG-3): another entry of the same key is one too many. -/
def entKey (e : Ent) : Option Nat :=
  match e.typ with
  | 1 => some 0
  | 2 => some (e.get 0 1)
  | 3 => some (e.get 0 1)
  | 4 => some (e.get 0 2)
  | 5 => some (e.get 0 1)
  | 6 => some 0
  | 7 => if e.node then none else some (e.get 0 1)
  | 8 => some (e.get 0 3)
  | 9 => some (e.get 0 1)
  | 10 => none
  | 11 => some (e.get 0 1)
  | 12 => some (e.get 0 2)
  | 13 => some (e.get 0 2)
  | _ => some 0

/-- The code of an entry named twice. -/
def twiceCode : Nat → Nat
  | 2 => Rc.instanceConflict
  | 4 => Rc.queueConflict
  | 5 => Rc.instanceConflict
  | 7 => Rc.treeInvalid
  | _ => Rc.fieldRange

/-- The entries' ranges in turn, an entry named twice, and the ROUTE entries of a partial image (Table IMG-10). -/
def rangesCheck (s : State) (l : List Ent) (isPartial : Bool) (target : Nat) : List Ent → List Ent → Option Rej
  | _, [] => none
  | seen, e :: rest =>
    match entBad s l e with
    | some o => some (entRej s l Rc.fieldRange e o)
    | none =>
      if isPartial && Nat.beq e.typ 8 && e.get 0 1 != target then some (entRej s l Rc.partialScope e 0)
      else if (entKey e).isSome && seen.any (fun x => Nat.beq x.typ e.typ && Nat.beq x.scope e.scope && entKey x == entKey e) then
        some (entRej s l (twiceCode e.typ) e 0)
      else rangesCheck s l isPartial target (e :: seen) rest

/-! ### Required sections (R50, Table IMG-10) -/

/-- The agent that misses a section. -/
def missAgent (s : State) (l : List Ent) (scope : Nat) : Nat := if scope = 0xFF then lowAgent s else repAgent s (entDies l scope)

/-- The entries that Table IMG-3 requires of the sections whose entries it counts by the machine's own parts, as the type, the
key of `entKey`, and the agent that misses it: CLUSTERS one per half of its partition, CLOCK and GOVERNOR one per die, MESH
one per edge router, PORT one per host or bridge port. Only dies of the census count (R103). -/
def needEntries (s : State) : List (Nat × Nat × Nat) :=
  let ds := loadDies s
  let hosts := ds.filterMap (fun d => (diePort d).map (fun p => (13, p * 256, d)))
  ds.map (fun d => (9, d, d)) ++ ds.map (fun d => (11, d, d))
    ++ (ds.map (fun d => (List.range 68).map (fun r => (12, d + r * 256, d)))).flatten
    ++ hosts ++ (List.range 16).map (fun k => (13, 1 + k * 256, spineAgent s [k / 8] []))

/-- The halves of a partition without an entry in CLUSTERS. -/
def needHalves (l : List Ent) (p : Nat) : List Nat :=
  (entHalves l p).filter (fun h => !(entsAt l 3 p).any (fun e => Nat.beq (e.get 0 1) h))

/-- SECTION-MISSING: a required section, or a required entry of one. For an entry the spec names no code of its own (DESIGN
CHOICE, log 107). -/
def missingCheck (s : State) (l : List Ent) (isPartial : Bool) (target : Nat) : Option Rej :=
  let parts := if isPartial then [target] else entParts l
  let need := (parts.map (fun p => [1, 2, 3, 4, 5].map (fun t => (t, p)))).flatten
    ++ (if isPartial then [] else [9, 10, 11, 12, 13, 14].map (fun t => (t, 0xFF)))
  (firstRej (fun (x : Nat × Nat) =>
    if (entsAt l x.1 x.2).isEmpty then some ⟨Rc.sectionMissing, 0xFFFF, none, missAgent s l x.2⟩ else none) need)
  <|> (firstRej (fun p =>
    (needHalves l p).head?.map (fun h => (⟨Rc.sectionMissing, 0xFFFF, none, repAgent s [h / 2]⟩ : Rej))) parts)
  <|> (if isPartial then none
      else firstRej (fun (x : Nat × Nat × Nat) =>
        if (entsOf l x.1).any (fun e => entKey e == some x.2.1) then none
        else some ⟨Rc.sectionMissing, 0xFFFF, none, x.2.2⟩) (needEntries s))

/-! ### Dies absent from the census (R103) -/

/-- The first offset of an entry that names an absent die. -/
def absentAt (s : State) (e : Ent) : Option Nat :=
  let absent (d : Nat) : Bool := !(loadDies s).contains d
  match e.typ with
  | 1 => badOff [((bitsOf 128 (e.get 4 16)).any (fun h => absent (h / 2)), 4)]
  | 2 => badOff [(e.maps.any (fun m => absent (m.1 / 2)), 16)]
  | 3 => badOff [(absent (e.get 0 1 / 2), 0)]
  | 4 => badOff [(absent (e.get 0 2 / 64), 0)]
  | 7 => if e.node then (if e.get 0 1 = 0 then badOff [(absent (e.get 1 1), 1)] else badOff [(absent (e.get 2 2), 2)]) else none
  | 8 => badOff [(absent (e.get 1 1), 1), (absent (e.get 2 1), 2)]
  | 10 => badOff [(e.get 0 1 != 0xFF && absent (e.get 0 1), 0)]
  | 9 => badOff [(absent (e.get 0 1), 0)]
  | 11 => badOff [(absent (e.get 0 1), 0)]
  | 12 => badOff [(absent (e.get 0 1), 0)]
  | _ => none

/-- DIE-ABSENT, reported by the RM, which holds the census. -/
def absentCheck (s : State) (l : List Ent) : Option Rej :=
  firstRej (fun e => (absentAt s e).map (fun o => (⟨Rc.dieAbsent, e.frame, some (e.off + o), rmAgent⟩ : Rej))) l

/-- A die of a partial load's target whose kept copy is gone (R77). -/
def keptCheck (s : State) (l : List Ent) (isPartial : Bool) (target : Nat) : Option Rej :=
  if isPartial then
    firstRej (fun d => if (look d s.img.kept).isSome then none else some ⟨Rc.noBase, 0xFFFF, none, d⟩) (entDies l target)
  else none

/-! ### Halves, fuses and slicing (R15, R56, R64) -/

/-- Partitions of the live image that the load does not touch. -/
def otherParts (s : State) (isPartial : Bool) (target : Nat) : List Nat :=
  if isPartial then (imgParts s).filter (fun p => !(Nat.beq p target)) else []

/-- The entry of a partition. -/
def partEnt (l : List Ent) (p : Nat) : List Ent := entsAt l 1 p

/-- HALF-CONFLICT. -/
def halvesCheck (s : State) (l : List Ent) (others : List Nat) : Option Rej :=
  firstRej (fun e =>
    if (entHalves l e.scope).any (fun h => others.any (fun p => imgHalf s p h)
        || (entsOf l 1).any (fun x => !(Nat.beq x.scope e.scope) && (entHalves l x.scope).contains h)) then
      some (entRej s l Rc.halfConflict e 4)
    else none) (entsOf l 1)

/-- The good clusters of half `h`, from its die's fuse map. -/
def fuseMap (s : State) (h : Nat) : Nat :=
  [0, 1, 2].foldl (fun n i => n + s.rd (h / 2) (if h % 2 = 0 then Reg.FUSE_MAP_W i else Reg.FUSE_MAP_E i) * 2 ^ (64 * i)) 0

/-- Whether map `m` has a bit outside map `g`. -/
def beyond (m g : Nat) : Bool := (m &&& g) != m

/-- FUSED-CLUSTER. -/
def fusesCheck (s : State) (l : List Ent) : Option Rej :=
  (firstRej (fun e => if beyond (e.get 4 20) (fuseMap s (e.get 0 1)) then some (entRej s l Rc.fusedCluster e 4) else none)
    (entsOf l 3))
  <|> firstRej (fun e => if e.maps.any (fun m => beyond m.2 (fuseMap s m.1)) then some (entRej s l Rc.fusedCluster e 16) else none)
    (entsOf l 2)

/-- The partition that half `h` has after the load, and whether it is half-split. -/
def halfAfter (s : State) (l : List Ent) (others : List Nat) (h : Nat) : Option (Nat × Bool) :=
  match (entParts l).find? (fun p => (entHalves l p).contains h), others.find? (fun p => imgHalf s p h) with
  | some p, _ => some (p, (entPart l p 1 1).testBit 0)
  | none, some p => some (p, halfSplit s p)
  | none, none => none

/-- SLICING-CONFLICT (R56, R64). -/
def slicingCheck (s : State) (l : List Ent) (others : List Nat) : Option Rej :=
  firstRej (fun d =>
    match halfAfter s l others (2 * d), halfAfter s l others (2 * d + 1) with
    | some (p, a), some (q, b) =>
      if p = q || (a && b) then none
      else
        match (partEnt l p ++ partEnt l q).head? with
        | some e => some ⟨Rc.slicingConflict, e.frame, some (e.off + 1), repAgent s [d]⟩
        | none => some ⟨Rc.slicingConflict, 0xFFFF, none, repAgent s [d]⟩
    | _, _ => none) (allDies s)

/-! ### Queues and instances (R52, R53, R499, R501) -/

/-- The live queues of a partition. -/
def liveQueues (s : State) (p : Nat) : List Nat := (entries 12 4096 ((liveBody s 4 p).getD [])).map (fun e => leAt e 0 2)

/-- QUEUE-CONFLICT. -/
def queuesCheck (s : State) (l : List Ent) (others : List Nat) : Option Rej :=
  firstRej (fun e =>
    let q := e.get 0 2
    let mine := entsAt l 4 e.scope
    let dup := (entsOf l 4).any (fun x => !(Nat.beq x.scope e.scope) && Nat.beq (x.get 0 2) q)
      || others.any (fun p => (liveQueues s p).contains q)
    let owner := (entDies l e.scope).contains (q / 64) && (entsAt l 2 e.scope).any (fun x => Nat.beq (x.get 0 1) (e.get 2 1))
    let cq := Nat.beq (e.get 3 1) 3 || mine.any (fun x => Nat.beq (x.get 0 2) (e.get 8 2) && Nat.beq (x.get 3 1) 3
      && Nat.beq (x.get 2 1) (e.get 2 1) && Nat.beq (x.get 0 2 / 64) (q / 64))
    let many := Nat.blt 256 (mine.filter (fun x => Nat.beq (x.get 2 1) (e.get 2 1))).length
    if dup || !owner || many then some (entRej s l Rc.queueConflict e 0)
    else if !cq then some (entRej s l Rc.queueConflict e 8)
    else none) (entsOf l 4)

/-- Who an instance is to its port: the port, whether a PASID names it, and the VF or PASID. -/
def whoIs (slice : Bool) (port vf pasid : Nat) : Nat × Bool × Nat := (port, slice, if slice then pasid % 0x100000 else vf)

/-- The instances of the partitions that stay. -/
def otherInsts (s : State) (others : List Nat) : List (Nat × Bool × Nat) :=
  (others.map (fun p => (instances s p).map (fun i => whoIs (sliceMode s p) i.hostPort i.vf i.pasid))).flatten

/-- An image's instance to its port. -/
def entWho (l : List Ent) (e : Ent) : Nat × Bool × Nat := whoIs (entSlice l e.scope) (e.get 1 1) (e.get 2 1) (e.get 4 4)

/-- The clusters of half `h` that the instances of a slice-mode partition own, map by map. -/
def mapsOfHalf (l : List Ent) (p h : Nat) : List Nat :=
  ((entsAt l 2 p).map (fun e => (e.maps.filter (fun m => Nat.beq m.1 h)).map (·.2))).flatten

/-- Whether maps overlap nowhere and together are `all`. -/
def partitions (all : Nat) : List Nat → Nat → Bool
  | [], acc => Nat.beq acc all
  | m :: l, acc => Nat.beq (m &&& acc) 0 && partitions all l (acc ||| m)

/-- INSTANCE-CONFLICT for one entry: a VF or PASID in two instances, or more than 64 slice instances on a port. -/
def instCheck (s : State) (l : List Ent) (others : List Nat) (e : Ent) : Option Rej :=
  let w := entWho l e
  let mine := (entsOf l 2).filter (fun x => !(Nat.beq x.scope e.scope && Nat.beq x.off e.off && Nat.beq x.frame e.frame))
  let all := mine.map (entWho l) ++ otherInsts s others
  if all.contains w then some (entRej s l Rc.instanceConflict e 0)
  else if w.2.1 && Nat.ble 64 (all.filter (fun x => Nat.beq x.1 w.1 && x.2.1)).length then
    some (entRej s l Rc.instanceConflict e 0)
  else none

/-- INSTANCE-CONFLICT for one partition: INST_COUNT, QOS, and R52 in slice mode. -/
def instPartCheck (s : State) (l : List Ent) (e : Ent) : Option Rej :=
  let p := e.scope
  let ids := (entsAt l 2 p).map (fun x => x.get 0 1)
  let qos := (entsAt l 5 p).map (fun x => x.get 0 1)
  if e.get 0x1C 1 < ids.length then some (entRej s l Rc.instanceConflict e 0x1C)
  else if !(ids.all qos.contains && qos.all ids.contains) then some (entRej s l Rc.instanceConflict e 0)
  else if entSlice l p && !((entHalves l p).all (fun h => partitions (entEnable l p h) (mapsOfHalf l p h) 0)
      && (entsAt l 2 p).all (fun x => x.maps.all (fun m => (entHalves l p).contains m.1))) then
    some (entRej s l Rc.instanceConflict e 0)
  else none

/-- INSTANCE-CONFLICT. -/
def instancesCheck (s : State) (l : List Ent) (others : List Nat) : Option Rej :=
  (firstRej (instCheck s l others) (entsOf l 2)) <|> firstRej (instPartCheck s l) (entsOf l 1)

/-- PORT-ROLE: HOST_PORT names a port of ROLE 0, of the image or, for a partial one, of the live image (R56). -/
def portsCheck (s : State) (l : List Ent) (isPartial : Bool) : Option Rej :=
  let ok (p : Nat) : Bool :=
    if isPartial then Nat.beq (portRole s 0 p) 0
    else (entsOf l 13).any (fun e => zeros e.bytes 0 1 && Nat.beq (e.get 1 1) p && zeros e.bytes 2 1)
  firstRej (fun e => if ok (e.get 1 1) then none else some (entRej s l Rc.portRole e 1)) (entsOf l 2)

/-! ### Reduction trees (R54, R66) -/

/-- One tree: its header and its nodes. -/
structure Tree where
  head : Ent
  nodes : List Ent
  deriving DecidableEq, Repr

/-- The trees of a partition's REDUCE entries, last first. -/
def treesRev : List Tree → List Ent → List Tree
  | acc, [] => acc
  | acc, e :: l =>
    match e.node, acc with
    | true, t :: r => treesRev ({ t with nodes := t.nodes ++ [e] } :: r) l
    | _, _ => treesRev (⟨e, []⟩ :: acc) l

/-- The trees of a partition. -/
def entTrees (l : List Ent) (p : Nat) : List Tree := (treesRev [] (entsAt l 7 p)).reverse

/-- Whether the chain from node `k` reaches the root. -/
def reachesRoot (nodes : List Ent) : Nat → Nat → Bool
  | 0, _ => false
  | fuel + 1, k =>
    match nodes[k]? with
    | some e => if e.get 4 2 = 0xFFFF then true else reachesRoot nodes fuel (e.get 4 2)
    | none => false

/-- Whether two trees' tag ranges overlap. -/
def tagsMeet (a b : Tree) : Bool :=
  Nat.blt (a.head.get 2 2) (b.head.get 2 2 + b.head.get 4 2) && Nat.blt (b.head.get 2 2) (a.head.get 2 2 + a.head.get 4 2)

/-- The die of a tree node. -/
def nodeDie (e : Ent) : Nat := if e.get 0 1 = 0 then e.get 1 1 else e.get 2 2

/-- One tree against those before it. -/
def treeCheck (s : State) (l : List Ent) (p : Nat) (before : List Tree) (t : Tree) : Option Rej :=
  if before.any (tagsMeet t) then some (entRej s l Rc.treeInvalid t.head 2)
  else if (t.nodes.filter (fun e => Nat.beq (e.get 4 2) 0xFFFF)).length ≠ 1 then some (entRej s l Rc.treeInvalid t.head 0)
  else
    (firstRej (fun e => if (entDies l p).contains (nodeDie e) then none else some (entRej s l Rc.treeInvalid e 1)) t.nodes)
    <|> firstRej (fun (x : Nat × Ent) =>
      if reachesRoot t.nodes (t.nodes.length + 1) x.1 then none else some (entRej s l Rc.treeInvalid x.2 4))
      ((List.range t.nodes.length).zip t.nodes)

/-- The trees of a partition in turn. -/
def treeList (s : State) (l : List Ent) (p : Nat) : List Tree → List Tree → Option Rej
  | _, [] => none
  | before, t :: rest =>
    match treeCheck s l p before t with
    | some r => some r
    | none => treeList s l p (t :: before) rest

/-- TREE-INVALID. -/
def treesCheck (s : State) (l : List Ent) : Option Rej := firstRej (fun p => treeList s l p [] (entTrees l p)) (entParts l)

/-! ### Sealing and serials (R56, R69, R91) -/

/-- A section's bytes as the image has them. -/
def entBody (l : List Ent) (typ scope : Nat) : List Byte := ((entsAt l typ scope).map (·.bytes)).flatten

/-- Whether a partition's own sections match the live ones entry for entry. -/
def samePart (s : State) (l : List Ent) (p : Nat) : Bool :=
  (imgParts s).contains p && [1, 2, 3, 4, 5, 6, 7].all (fun t => entBody l t p == (liveBody s t p).getD [])

/-- The ROUTE entries of a partition, of an image or live. -/
def entRoutes (l : List Ent) (p : Nat) : List (List Byte) :=
  ((entsOf l 8).filter (fun e => Nat.beq (e.get 0 1) p)).map (·.bytes)
def liveRoutes (s : State) (p : Nat) : List (List Byte) :=
  (entriesAll 4 ((liveBody s 8 0xFF).getD [])).filter (fun e => Nat.beq (leAt e 0 1) p)

/-- Whether the live image seals the partition. -/
def liveSealed (s : State) (p : Nat) : Bool := (liveBody s 6 p).isSome

/-- Partitions whose warden must have granted the load (R69). A full image that adds a SEALED section to a live partition that
is not sealed changes no sealed partition: no grant is asked (DESIGN CHOICE, log 108). -/
def grantParts (s : State) (l : List Ent) (isPartial : Bool) (target : Nat) : List Nat :=
  if isPartial then
    (if liveSealed s target || !(entsAt l 6 target).isEmpty then [target] else [])
  else (imgParts s).filter (fun p => liveSealed s p && !samePart s l p)

/-- Whether the warden of die `d` has granted the load (Table PART-8). -/
def granted (s : State) (d p serial : Nat) : Bool :=
  s.rd d Reg.WARD_GRANT_VALID == 1 && s.rd d Reg.WARD_GRANT_PART == p && s.rd d Reg.WARD_GRANT_SERIAL == serial

/-- SEALED: a die without a warden, or a grant that is missing on any die that the partition has or gets, dead or alive. -/
def sealCheck (s : State) (l : List Ent) (isPartial : Bool) (target serial : Nat) : Option Rej :=
  (firstRej (fun e =>
    ((entDies l e.scope).find? (fun d => !(s.rd d Reg.DC_CAPS).testBit 2)).map (fun d =>
      (⟨Rc.sealedImage, e.frame, some e.off, d⟩ : Rej))) (entsOf l 6))
  <|> firstRej (fun p =>
    let ds := entDies l p ++ (allDies s).filter (fun d => imgDie s p d)
    (ds.find? (fun d => !granted s d p serial)).map (fun d => (⟨Rc.sealedImage, 0, some 0x18, d⟩ : Rej)))
    (grantParts s l isPartial target)

/-- The live serial of a half. -/
def serialOf (s : State) (h : Nat) : Nat := s.rd (h / 2) (Reg.IMG_SERIAL_HALF (h % 2))

/-- Whether a partial image is a restoring load (R56). -/
def restoring (s : State) (l : List Ent) (target serial : Nat) : Bool :=
  let hs := entHalves l target
  hs.all (fun h => Nat.beq (serialOf s h) 0 || Nat.beq (serialOf s h) serial)
    && hs.any (fun h => Nat.beq (serialOf s h) 0) && samePart s l target
    && entRoutes l target == liveRoutes s target

/-- STALE-SERIAL. -/
def serialCheck (s : State) (l : List Ent) (isPartial : Bool) (target serial : Nat) : Option Rej :=
  let hs := ((entParts l).map (entHalves l)).flatten
  match hs.find? (fun h => Nat.ble serial (serialOf s h)) with
  | none => none
  | some h => if isPartial && restoring s l target serial then none else some ⟨Rc.staleSerial, 0, some 0x18, repAgent s [h / 2]⟩

/-! ### The whole check -/

/-- The image of a byte string that passes: its sections, each with its entries' bytes in order. -/
def imageOf (b : List Byte) (l : List Ent) : Image :=
  let keys := l.foldl (fun (a : List (Nat × Nat)) e => if a.contains (e.typ, e.scope) then a else a ++ [(e.typ, e.scope)]) []
  { partial_ := Nat.beq (leAt b 0x14 1) 1, target := leAt b 0x15 1, serial := leAt b 0x18 8, fmt := imgFormat b,
    stepMask := BitVec.ofNat 32 (leAt b 8 4),
    sections := keys.map (fun k => ⟨k.1, k.2, entBody l k.1 k.2⟩) }

/-- The checks over the entries, in order. -/
def entriesCheck (s : State) (l : List Ent) (isPartial : Bool) (target serial : Nat) : Option Rej :=
  let others := otherParts s isPartial target
  missingCheck s l isPartial target <|> rangesCheck s l isPartial target [] l <|> absentCheck s l
    <|> keptCheck s l isPartial target <|> halvesCheck s l others <|> fusesCheck s l <|> slicingCheck s l others
    <|> queuesCheck s l others <|> instancesCheck s l others <|> portsCheck s l isPartial <|> treesCheck s l
    <|> sealCheck s l isPartial target serial <|> serialCheck s l isPartial target serial

/-- What the check of an image gives. -/
inductive Checked where
  | ok (i : Image)
  | bad (r : Rej)
  deriving DecidableEq, Repr

/-- The check of R56, in the order: HOLD, header and CRCs, format, base, frames, entries. -/
def checkImage (s : State) (b : List Byte) : Checked :=
  let isPartial := Nat.beq (leAt b 0x14 1) 1
  let target := leAt b 0x15 1
  let frames := (numbered (framesOf (leAt b 0x0C 4) b)).drop 1
  let early := (if s.boot.hold ≠ 0 then some (⟨Rc.hold, 0xFFFF, none, rmAgent⟩ : Rej) else none)
    <|> headerCheck b <|> formatCheck s b
    <|> (if isPartial && !s.img.based then some (rmRej Rc.noBase 0x14) else none)
    <|> framesCheck s isPartial target none frames
  match early with
  | some r => .bad r
  | none =>
    match parseFrames s 0 frames with
    | .bad r => .bad r
    | .ok l =>
      match entriesCheck s l isPartial target (leAt b 0x18 8) with
      | some r => .bad r
      | none => .ok (imageOf b l)

end Sys2Proof.Machine
end

