-- ==== Sys2Proof/Machine/ImageLoad.lean ====
section
/-! DEFINITION. The phases of an image load (R57–R65, R68–R73, R75, R77): check, stage, quiesce, commit and release, the
COMMIT relay, and what a commit does to the rack and to each die. The first agent's swap performs the actions of R60 for
the target partitions; each agent's swap writes that agent's registers (DESIGN CHOICE, log 53). -/

namespace Sys2Proof.Machine

/-! ### Check, stage and quiesce (R57, R58, R68) -/

/-- IMG_CMD of an agent. -/
def imgCmd (code a : Nat) (s : State) : State := s.wr a Reg.IMG_CMD code

/-- The agents of a load (R116): the dies of the census that run, and the spine switches. -/
def loadAgents (s : State) : List Nat := loadDies s ++ s.rack.spineReady.map (fun k => 64 + k)

/-- The load in progress replaced. -/
def setLoad (l : Load) (s : State) : State := { s with img := { s.img with load := some l } }

/-- BUSY at an agent (R68, R75): the result of the load refused; the load in progress keeps its phase. -/
def busyResult (detail a : Nat) (s : State) : State :=
  ((s.wr a Reg.IMG_STATUS_RESULT Rc.busy).wr a Reg.IMG_DETAIL detail).count a Reg.IMG_REJECTS 1

/-- IMG_CHECK (R55, R56): nothing is written but the status. A format that the pairing table does not have may still be
accepted (R118). -/
def imgCheck (b : List Byte) (s : State) : State :=
  let serial := leAt b 0x18 8
  let hide := Nat.beq (leAt b 0x14 1) 1 && partSealed s (leAt b 0x15 1)
  if !s.rack.rmUp then s
  else if s.img.load.isSome then
    let detail := detailWord 0xFFFF rmAgent none
    each (loadAgents s) (fun s a => busyResult detail a s) (rejectRecord Rc.busy 1 detail serial hide s)
  else
    let as := loadAgents s
    let s := each as (fun s a => imgCmd 1 a s) s
    match checkImage s b with
    | .bad r =>
      let fmt := imgFormat b
      let s := if r.code = Rc.hold && r.off.isSome && !s.boot.fmtHeld.contains fmt then
          { s with boot := { s.boot with fmtHeld := s.boot.fmtHeld ++ [fmt] } }
        else s
      each as (fun s a => imgResult r.code r.detail a s) (rejectRecord r.code 1 r.detail serial hide s)
    | .ok i =>
      let s := each as (fun s a => imgStatus 1 0 i.partial_ i.target a s) s
      setLoad ⟨i, as, .checked, 0, 0, [], [], false, [], []⟩ s

def execImgCheck (bytes : List Byte) (s : State) : Host.Outcome State Fault Refusal := .next (imgCheck bytes s)

/-- The load in progress, in a phase that satisfies `f`, with the RM running. -/
def loadIn (s : State) (f : LoadPhase → Bool) : Option Load :=
  if s.rack.rmUp then s.img.load.filter (fun l => f l.phase) else none

/-- The load in progress, where the RM may go on with it: every agent still reports its phases (R57, R62, R116). -/
def loadRun (s : State) (f : LoadPhase → Bool) : Option Load :=
  (loadIn s f).filter (fun l => l.lapsed.isEmpty && l.gone.isEmpty)

/-- IMG_STAGE: `unwritable` is a die whose image region of reserved HBM cannot be written (STAGE-FAIL). -/
def imgStage (unwritable : Option Nat) (s : State) : State :=
  match loadRun s (fun p => p == .checked) with
  | none => s
  | some l =>
    let s := each l.agents (fun s a => imgCmd 2 a s) (setLoad { l with phase := .staged } s)
    match unwritable.filter (fun d => l.agents.contains d) with
    | some d => rejectLoad Rc.stageFail (detailWord 0xFFFF d none) s
    | none =>
      let s := each l.agents (fun s a => imgStatus 2 0 l.img.partial_ l.img.target a s) s
      { s with img := { s.img with shadow := l.agents } }

def execImgStage (unwritable : Option Nat) (s : State) : Host.Outcome State Fault Refusal := .next (imgStage unwritable s)

/-- A partition stops dispatch for the load: LIVE goes to QUIESCED (Table PART-1). -/
def quiescePart (p : Nat) (s : State) : State :=
  each (partHalves s p) (fun s h =>
    if s.rd (h / 2) (Reg.PART_STATE (h % 2)) = 1 then s.wr (h / 2) (Reg.PART_STATE (h % 2)) 2 else s) s

/-- IMG_QUIESCE (R58, R70). -/
def imgQuiesce (s : State) : State :=
  match loadRun s (fun p => p == .staged) with
  | none => s
  | some l =>
    let s := each (loadTargets s l) (fun s p => quiescePart p s) s
    let s := each l.agents (fun s a => (imgCmd 3 a s).wr a Reg.IMG_STATUS_BUSY 1) s
    setLoad { l with phase := .quiescing, quiesceAt := s.recs.rmRtime } s

def execImgQuiesce (s : State) : Host.Outcome State Fault Refusal := .next (imgQuiesce s)

/-- A partition is idle (R58): no launch, mover program or SEQCTL item of it is outstanding. What a fault stopped never
retires and counts as none (R72). -/
def partIdle (s : State) (p : Nat) : Bool :=
  s.prt.faulted.contains p
    || (!s.core.launches.any (fun l => Nat.beq l.part p) && !s.que.movers.any (fun m => Nat.beq m.part p)
        && !s.que.items.any (fun x => Nat.beq (quePart s x.2.queue) p)
        && !s.que.closing.any (fun x => Nat.beq (quePart s x.queue) p))

/-- QUIESCE_IDLE. -/
def quiesceIdle (s : State) : State :=
  match loadRun s (fun p => p == .quiescing) with
  | none => s
  | some l =>
    if (loadTargets s l).all (partIdle s) then
      setLoad { l with phase := .quiesced } (each l.agents (fun s a => imgStatus 3 0 l.img.partial_ l.img.target a s) s)
    else s

def execQuiesceIdle (s : State) : Host.Outcome State Fault Refusal := .next (quiesceIdle s)

/-- QUIESCE_TIMEOUT: IMG_QTIMEOUT has passed with a target partition not idle. -/
def quiesceTimeout (s : State) : State :=
  match loadIn s (fun p => p == .quiescing) with
  | none => s
  | some l =>
    match (loadTargets s l).find? (fun p => !partIdle s p) with
    | none => s
    | some p => rejectLoad Rc.quiesceTimeout (detailWord 0xFFFF (((partDies s p).head?).getD rmAgent) none) s

def execQuiesceTimeout (s : State) : Host.Outcome State Fault Refusal := .next (quiesceTimeout s)

/-- IMG_ABORT (R61). -/
def imgAbort (s : State) : State :=
  match loadIn s (fun p => p != .committing && p != .released) with
  | none => s
  | some l => rejectLoad Rc.aborted (detailWord 0xFFFF rmAgent none) (each l.agents (fun s a => imgCmd 6 a s) s)

def execImgAbort (s : State) : Host.Outcome State Fault Refusal := .next (imgAbort s)

/-! ### The image after the load (Table IMG-10, R71) -/

/-- A section's bytes in a list of sections. -/
def secBody (l : List Section) (typ scope : Nat) : List Byte :=
  ((l.find? (fun x => Nat.beq x.typ typ && Nat.beq x.scope scope)).map (·.body)).getD []

/-- The sections in force after an image: a partial one replaces its target's sections and ROUTE entries. -/
def mergeLive (s : State) (i : Image) : List Section :=
  if !i.partial_ then i.sections
  else
    let keep := s.img.live.filter (fun x => !(Nat.blt x.typ 8 && Nat.beq x.scope i.target) && !(Nat.beq x.typ 8))
    let routes := ((entriesAll 4 (secBody s.img.live 8 0xFF)).filter (fun e => !(Nat.beq (leAt e 0 1) i.target))).flatten
      ++ secBody i.sections 8 0xFF
    let r : List Section := if routes.isEmpty then [] else [⟨8, 0xFF, routes⟩]
    keep ++ i.sections.filter (fun x => !(Nat.beq x.typ 8)) ++ r

/-- The state as it reads the image after the load. -/
def withLive (l : List Section) (s : State) : State := { s with img := { s.img with live := l } }

/-- The partitions that a commit acts on: those of the old and the new image, or the target. -/
def commitTargets (s n : State) (l : Load) : List Nat :=
  if l.img.partial_ then [l.img.target] else (imgParts n).foldl addNat (imgParts s)

/-- The partition that half `h` has after the load; `n` reads the new image. A partial load leaves the halves of other
partitions as they are. -/
def ownerAfter (s n : State) (l : Load) (h : Nat) : Option Nat :=
  if l.img.partial_ then
    if imgHalf n l.img.target h then some l.img.target
    else (halfPart s (h / 2) (h % 2)).filter (fun p => !(Nat.beq p l.img.target))
  else (imgParts n).find? (fun p => imgHalf n p h)

/-- Whether the load writes half `h`: every half for a full load, else those that the target has or gets. -/
def halfTouched (s n : State) (l : Load) (h : Nat) : Bool :=
  !l.img.partial_ || imgHalf n l.img.target h || halfPart s (h / 2) (h % 2) == some l.img.target

/-- Channels of one half that a commit takes (R247, R538): those that the failure map does not name, as bits of UC_ACTIVE. -/
def goodChans (s : State) (d side : Nat) : Nat :=
  if halfFailed s d side then 0
  else
    let bad := s.rd d Reg.DC_CHAN_FAIL ||| s.rd d Reg.REC_FAIL_CHAN
    ((List.range 24).filter (fun n => Nat.beq (chanSide n) side && !bad.testBit n)).foldl
      setBit 0

/-- The bits of UC_ACTIVE of one half. -/
def chansOf (m side : Nat) : Nat := if side = 0 then m % 0x1000 else m / 0x1000 * 0x1000

/-- The active channels of a half after the load, whose failure map `n` reads. -/
def activeAfter (s n : State) (l : Load) (h : Nat) : Nat :=
  if !halfTouched s n l h then chansOf (s.rd (h / 2) Reg.UC_ACTIVE) (h % 2)
  else if (ownerAfter s n l h).isSome then goodChans n (h / 2) (h % 2) else 0

/-! ### Commit: what the rack does once (R60, R434) -/

/-- REC_FAIL_CLEAR acts on the failure map at the commit (Table FLT-10): training failures stay. The units serve again from
the next commit of their half on (R538). -/
def failClear (d : Nat) (s : State) : State :=
  let s := if s.rd d Reg.REC_FAIL_CLEAR_CLUSTERS = 1 then each [0, 1, 2, 3, 4] (fun s w => s.wr d (Reg.REC_FAIL_CLUSTER w) 0) s
    else s
  let s := if s.rd d Reg.REC_FAIL_CLEAR_CHANS = 1 then
      s.wr d Reg.REC_FAIL_CHAN (s.rd d Reg.REC_FAIL_CHAN &&& s.rd d Reg.DC_CHAN_FAIL)
    else s
  let s := if s.rd d Reg.REC_FAIL_CLEAR_HALVES = 1 then s.wr d Reg.REC_FAIL_HALF 0 else s
  ((s.wr d Reg.REC_FAIL_CLEAR_CLUSTERS 0).wr d Reg.REC_FAIL_CLEAR_CHANS 0).wr d Reg.REC_FAIL_CLEAR_HALVES 0

/-- The units of a half as its commit takes them (R43, R538): it leaves out what the failure map names, and what the map no
longer names serves again. -/
def swapFailures (d side : Nat) (s : State) : State :=
  let mineC (k : Nat) : Bool := Nat.beq (k / 320) d && Nat.beq (clusterSide (k % 320)) side
  let mineN (k : Nat) : Bool := Nat.beq (k / 24) d && Nat.beq (chanSide (k % 24)) side
  let badN := s.rd d Reg.DC_CHAN_FAIL ||| s.rd d Reg.REC_FAIL_CHAN
  let off := ((List.range 320).filter (fun c => Nat.beq (clusterSide c) side && clusterFailed s d c)).map (fun c => d * 320 + c)
  let h := 2 * d + side
  let routers := if halfFailed s d side then s.net.routersFailed else s.net.routersFailed.filter (fun k => !mineC k)
  { s with
    core := { s.core with
      failed := s.core.failed.filter (fun k => !(mineC k && !clusterFailed s d (k % 320))),
      offClusters := s.core.offClusters.filter (fun k => !mineC k) ++ off,
      offHalves := if halfFailed s d side then addNat s.core.offHalves h else delNat s.core.offHalves h },
    slc := { s.slc with failed := s.slc.failed.filter (fun k => !(mineN k && !badN.testBit (k % 24))) },
    net := { s.net with routersFailed := routers } }

/-- Resets of a target that run are over before the swap; a FAULTED target is reset first (R434, R458, R547). -/
def commitResets (p : Nat) (s : State) : State :=
  let s := each (s.prt.resets.filter (fun r => Nat.beq r.part p)) (fun s r => endReset r s) s
  if s.prt.faulted.contains p then
    resetComplete p none (partReset (((partDies s p).head?).getD 0) p 2 [] s)
  else s

/-- Whether the commit needs the cache actions for partition `p` (R60). -/
def needsFlush (s n : State) (l : Load) (p : Nat) : Bool :=
  (modes s p) % 4 != (modes n p) % 4 || partField s p 4 16 != partField n p 4 16 || guestWays s p != guestWays n p
    || (partHalves s p).any (fun h => activeAfter s n l h != chansOf (s.rd (h / 2) Reg.UC_ACTIVE) (h % 2))

/-- The QUEUES entries of a partition. -/
def queueEntries (s : State) (p : Nat) : List (List Byte) := entries 12 4096 ((liveBody s 4 p).getD [])

/-- The QUEUES entry of queue `q` among some partitions, with its partition. -/
def queueEntry (s : State) (ps : List Nat) (q : Nat) : Option (Nat × List Byte) :=
  ps.findSome? (fun p => ((queueEntries s p).find? (fun e => Nat.beq (leAt e 0 2) q)).map (fun e => (p, e)))

/-- Doorbells latched in a queue. A queue latches a producer index and no count of doorbells, and the spec does not say what
IMG_DROPPED_DB counts then: each one deferred counts, and one for the items that the queue shows, whenever they came (DESIGN
CHOICE, log 109). No doorbell goes to a COMPLETION queue. -/
def latchedDoorbells (s : State) (q : Nat) : Nat :=
  if queKind s q = 3 then 0
  else (s.que.deferredPi.filter (fun x => Nat.beq x.1 q)).length + (if queCi s q < visPi s q then 1 else 0)

/-- Queues of partition `p` that the new image removes or gives another INST or KIND: reset to empty, and their latched
doorbells counted (R60). -/
def commitQueues (ps : List Nat) (n : State) (p : Nat) (s : State) : State :=
  each (queueEntries s p) (fun s e =>
    let q := leAt e 0 2
    let stays := match queueEntry n ps q with
      | some (p', e') => Nat.beq p' p && Nat.beq (leAt e' 2 2) (leAt e 2 2)
      | none => false
    if stays then s
    else resetQueue q (s.count (queDie q) Reg.IMG_DROPPED_DB (latchedDoorbells s q))) s

/-- Mover slots of an instance that the image removes are owned no more (R397). -/
def disownSlots (p i : Nat) (s : State) : State :=
  each (allDies s) (fun s d =>
    each (List.range 64) (fun s k =>
      if s.rd d (Reg.MOV_SLOT_OWNED k) = 1 && s.rd d (Reg.MOV_SLOT_PART k) = p && s.rd d (Reg.MOV_SLOT_INST k) = i then
        s.wr d (Reg.MOV_SLOT_OWNED k) 0
      else s) s) s

/-- Instances of partition `p` that the new image changes take an instance reset; one that it removes is ABSENT, its
sequences freed and its mover slots disowned (R60, R359, R391, R397). -/
def commitInstances (n : State) (p : Nat) (s : State) : State :=
  each (instances s p) (fun s e =>
    match instEntry n p e.id with
    | some e' =>
      if e' = e then s
      else
        let d := ((partDies s p).head?).getD 0
        resetRecord d 1 p e.id 2 0 (endInstReset p e.id (instResetEffects p e.id s))
    | none => disownSlots p e.id (setInstState p e.id 0 (instResetEffects p e.id s))) s

/-- Cached copies that the new image changes (R60, R487). -/
def commitCopies (n : State) (p : Nat) (s : State) : State :=
  if leaseUs s p != leaseUs n p || partField s p 4 16 != partField n p 4 16 || modes s p != modes n p then dropPartCopies p s
  else
    { s with xlt := { s.xlt with
        routes := s.xlt.routes.filter (fun r => !(Nat.beq r.part p) || Nat.beq (routePlanes n p r.die r.dst) r.planes) } }

/-- Whether an instance has a bucket of a kind: class U always, the others where their rate is not 0 (R439). -/
def hasBucket (s : State) (p i kind : Nat) : Bool :=
  match kind with
  | 0 => qosField s p i 0x04 4 != 0
  | 1 => true
  | 2 => qosField s p i 0x0C 2 != 0
  | 3 => qosField s p i 0x0E 2 != 0
  | _ => qosField s p i 0x10 4 != 0

/-- The buckets of partition `p` at the commit (R461): the lesser of level and new capacity; a new one is full. -/
def commitBuckets (n : State) (p : Nat) (s : State) : State :=
  each ((allDies s).filter (imgDie n p)) (fun s d =>
    let side := if imgHalf n p (2 * d) then 0 else 1
    each (instances n p) (fun s e =>
      let slot := 32 * side + e.id
      each [0, 1, 2, 3, 4] (fun s k =>
        let full : Int := bucketCap n p e.id k
        let key := bucketKey d slot k
        let kept := (instEntry s p e.id).isSome && dieIn s p d && Nat.beq (partSide s d p) side && hasBucket s p e.id k
        let v := if kept then min (SMap.get 0 s.que.buckets key) full else full
        { s with que := { s.que with buckets := SMap.set 0 s.que.buckets key v } }) s) s) s

/-- The actions of a commit for one target partition (R60), before the image is live; `ps` are all the targets. -/
def commitPart (ps : List Nat) (n : State) (l : Load) (p : Nat) (s : State) : State :=
  let s := redBreakWhere (fun a => Nat.beq a.pkt.key.part p) 5 (commitResets p s)
  let s := if needsFlush s n l p then cacheActions p s else if upinLines s p != upinLines n p then unpinPart p s else s
  commitBuckets n p (commitCopies n p (commitInstances n p (commitQueues ps n p s)))

/-- What the first swap does for the whole rack: the actions of R60 under the old placement and its failures, then the failure
maps as REC_FAIL_CLEAR leaves them, and the new image is live. A full load ends the
loss of a plane (R535), and the UNQUALIFIED flag if the combination is tested (R109). -/
def commitRack (l : Load) (s : State) : State :=
  let new := mergeLive s l.img
  let clear (s : State) : State := each (l.agents.filter (fun a => Nat.blt a 64)) (fun s d => failClear d s) s
  let ps := commitTargets s (withLive new s) l
  let s := clear (each ps (fun s p => commitPart ps (withLive new (clear s)) l p s) s)
  let s := withLive new { s with img := { s.img with based := true } }
  if l.img.partial_ then s
  else
    let s := { s with rack := { s.rack with planeLost := [] } }
    if tested s (combo s) then showCensus { s with boot := { s.boot with unqualified := false } } else s

/-! ### Commit: what a die writes at its swap -/

/-- The partition's own registers of one half (R433, R436, R466): QUIESCED until release. An instance keeps its state; a
new one is DOWN. -/
def swapHalf (own : Option Nat) (d side serial : Nat) (full : Bool) (s : State) : State :=
  let write (p a se st : Nat) (s : State) : State :=
    (((s.wr d (Reg.PART_HALF_PART side) p).wr d (Reg.PART_HALF_ASSIGNED side) a).wr d (Reg.PART_HALF_SEALED side) se).wr d
      (Reg.PART_STATE side) st
  match own with
  | none =>
    let s := stopHalf d side false (write 0 0 0 0 s)
    let s := each (List.range 32) (fun s i => s.wr d (Reg.PART_INST (32 * side + i)) 0) s
    if full then s.wr d (Reg.IMG_SERIAL_HALF side) serial else s
  | some p =>
    let now (i : Nat) : Nat :=
      match (partHalves s p).find? (fun h => s.rd (h / 2) (Reg.PART_INST (32 * (h % 2) + i)) != 0) with
      | some h => s.rd (h / 2) (Reg.PART_INST (32 * (h % 2) + i))
      | none => 1
    let states := (List.range 32).map (fun i => (i, if (instEntry s p i).isSome then now i else 0))
    let s := stopHalf d side true (write p 1 (if (liveBody s 6 p).isSome then 1 else 0) 2 s)
    let s := each states (fun s x => s.wr d (Reg.PART_INST (32 * side + x.1)) x.2) s
    s.wr d (Reg.IMG_SERIAL_HALF side) serial

/-- QUE_CFG of one queue (R365). -/
def swapQueue (d k : Nat) (e : Option (Nat × List Byte)) (s : State) : State :=
  let set (part inst kind cls weight eclass cq named : Nat) (s : State) : State :=
    let s := (((s.wr d (Reg.QUE_CFG_PART k) part).wr d (Reg.QUE_CFG_INST k) inst).wr d (Reg.QUE_CFG_KIND k) kind).wr d
      (Reg.QUE_CFG_CLASS k) cls
    (((s.wr d (Reg.QUE_CFG_WEIGHT k) weight).wr d (Reg.QUE_CFG_ECLASS k) eclass).wr d (Reg.QUE_CFG_CQ k) cq).wr d
      (Reg.QUE_CFG_NAMED k) named
  match e with
  | some (p, b) => set p (leAt b 2 1) (leAt b 3 1) (leAt b 4 1) (leAt b 5 1) (leAt b 6 1) (leAt b 8 2) 1 s
  | none => set 0 0 0 0 0 0 0 0 s

/-- The queues of the die: those of the targets, as the new image names them. -/
def swapQueues (ps : List Nat) (full : Bool) (d : Nat) (s : State) : State :=
  each (List.range 64) (fun s k =>
    match queueEntry s ps (64 * d + k) with
    | some e => swapQueue d k (some e) s
    | none =>
      if full || (queNamed s (64 * d + k) && ps.contains (quePart s (64 * d + k))) then swapQueue d k none s else s) s

/-- UC_MODE, UC_ACTIVE, COH_MODE, MESH_MODE and XLT_LEASE of the die, from the partitions of its halves (R213–R216, R257,
R329, R487). `act` holds the active channels. -/
def swapModes (d act : Nat) (s : State) : State :=
  let own (h : Nat) : Option Nat := halfPart s d h
  let bit (f : Nat → Bool) (h : Nat) : Nat := match own h with | some p => if f p then 1 else 0 | none => 0
  let lease (h : Nat) : Nat := match own h with | some p => leaseUs s p | none => 0
  let joined := (own 0).isSome && own 0 == own 1
  let s := (s.wr d Reg.UC_MODE_SLICING_W (bit (halfSplit s) 0)).wr d Reg.UC_MODE_SLICING_E (bit (halfSplit s) 1)
  let s := (s.wr d Reg.UC_MODE_JOINED (if joined then 1 else 0)).wr d Reg.UC_ACTIVE act
  let s := (s.wr d Reg.COH_MODE_OWNED_W (bit (fun p => !plainMode s p) 0)).wr d Reg.COH_MODE_OWNED_E
    (bit (fun p => !plainMode s p) 1)
  let open_ := (own 0).isNone && (own 1).isNone || joined && !((own 0).any (halfSplit s))
  let s := (s.wr d Reg.MESH_MODE_SEAM_OPEN (if open_ then 1 else 0)).wr d Reg.MESH_MODE_HLINK_ON (if open_ then 0 else 1)
  (s.wr d Reg.XLT_LEASE_LEASE_W (lease 0)).wr d Reg.XLT_LEASE_LEASE_E (lease 1)

/-- WARD_SEALED, and the grant that a commit clears (R466, Table PART-8). STRING_MS is that of the lowest sealed half. -/
def swapWarden (d : Nat) (s : State) : State :=
  let part (h : Nat) : Nat := (halfPart s d h).getD 0
  let sld (h : Nat) : Nat := s.rd d (Reg.PART_HALF_SEALED h)
  let ms := if sld 0 = 1 then leAt ((liveBody s 6 (part 0)).getD []) 0 2
    else if sld 1 = 1 then leAt ((liveBody s 6 (part 1)).getD []) 0 2 else 0
  let s := (s.wr d Reg.WARD_SEALED_PART_W (part 0)).wr d Reg.WARD_SEALED_SEAL_W (sld 0)
  let s := (s.wr d Reg.WARD_SEALED_PART_E (part 1)).wr d Reg.WARD_SEALED_SEAL_E (sld 1)
  (s.wr d Reg.WARD_SEALED_STRING_MS ms).wr d Reg.WARD_GRANT_VALID 0

/-- The GOVERNOR entry of the die (R425, R431): the first commit since the die's reset sets B to CAP. -/
def swapGovernor (d : Nat) (b : List Byte) (s : State) : State :=
  match (entries 88 64 b).find? (fun e => Nat.beq (leAt e 0 1) d) with
  | none => s
  | some e =>
    let first := Nat.beq (s.rd d Reg.GOV_LIMITS_POWER_W) 0
    let s := (s.wr d Reg.GOV_LIMITS_POWER_W (leAt e 2 2)).wr d Reg.GOV_LIMITS_U_FLOOR (leAt e 4 4)
    let s := each (List.range 16) (fun s j => s.wr d (Reg.GOV_ECLASS j) (leAt e (8 + 4 * j) 4)) s
    let s := each [0, 1, 2, 3] (fun s j =>
      (s.wr d (Reg.GOV_THERM_TEMP j) (leAt e (0x48 + 4 * j) 1)).wr d (Reg.GOV_THERM_CCLK j) (leAt e (0x49 + 4 * j) 1)) s
    setGovB d (if first then (govCap s d : Int) else min (govB s d) (govCap s d)) s

/-- The CLOCK entry of the die. -/
def swapClock (d : Nat) (b : List Byte) (s : State) : State :=
  match (entries 4 64 b).find? (fun e => Nat.beq (leAt e 0 1) d) with
  | none => s
  | some e =>
    ((s.wr d Reg.CLK_SET_CCLK_SET (leAt e 1 1)).wr d Reg.CLK_SET_TICK_RATE (leAt e 2 1)).wr d Reg.MON_TICK (leAt e 2 1)

/-- The monitors that a rule names (Table GOV-1). -/
def ruleMonitors (e : List Byte) : List Nat :=
  let i := leAt e 2 2
  let (base, n) := match leAt e 1 1 with | 0 => (0, 320) | 1 => (320, 32) | _ => (352, 8)
  if i = 0xFFFF then (List.range n).map (fun k => base + k) else [base + i]

/-- The MONITOR rules of the die in order, a later one over an earlier (DEDUCED, log 54); every filter history and every event but
TRIP clears (R425). -/
def swapMonitor (d : Nat) (b : List Byte) (s : State) : State :=
  let mine := (entriesAll 8 b).filter (fun e => Nat.beq (leAt e 0 1) d || Nat.beq (leAt e 0 1) 0xFF)
  let s := each mine (fun s e =>
    each (ruleMonitors e) (fun s i =>
      (((s.wr d (Reg.MON_CFG_LOW i) (leAt e 4 1)).wr d (Reg.MON_CFG_HIGH i) (leAt e 5 1)).wr d (Reg.MON_CFG_N i) (leAt e 6 1)).wr
        d (Reg.MON_CFG_K i) (leAt e 7 1)) s) s
  let s := each [0, 1, 2, 3, 4] (fun s w => (s.wr d (Reg.MON_VLOW w) 0).wr d (Reg.MON_VHIGH w) 0) s
  let s := each [0, 1, 2, 3] (fun s j => s.wr d (Reg.MON_TSTEP j) 0) ((s.wr d Reg.MON_TWARM 0).wr d Reg.MON_IOVER 0)
  let clear (m : MonHist) : MonHist := if m.die = d then { m with codes := [] } else m
  { s with que := { s.que with monitors := s.que.monitors.map clear } }

/-- The MESH entries of the die. -/
def swapMesh (d : Nat) (b : List Byte) (s : State) : State :=
  each ((entriesAll 8 b).filter (fun e => Nat.beq (leAt e 0 1) d)) (fun s e =>
    let r := leAt e 1 1
    let s := (s.wr d (Reg.MESH_CREDIT_U r) (leAt e 2 1)).wr d (Reg.MESH_CREDIT_REQ r) (leAt e 3 1)
    ((s.wr d (Reg.MESH_CREDIT_RSP r) (leAt e 4 1)).wr d (Reg.MESH_CREDIT_COH r) (leAt e 5 1)).wr d (Reg.MESH_CREDIT_RED r)
      (leAt e 6 1)) s

/-- The PORT entry of the die's host port: a changed role takes the link down (R525, R527). -/
def swapPort (d : Nat) (b : List Byte) (s : State) : State :=
  match diePort d with
  | none => s
  | some p =>
    match (entries 8 64 b).find? (fun e => zeros e 0 1 && Nat.beq (leAt e 1 1) p) with
    | none => s
    | some e =>
      let s := if s.rd d Reg.HOST_STATUS_ROLE = leAt e 2 1 then s else portDown p s
      (s.wr d Reg.HOST_STATUS_ROLE (leAt e 2 1)).wr d Reg.HOST_CTO (leAt e 4 2)

/-- RING_MIB: a change empties the ring, which then opens with DIE-START, CAUSE 0xF (R549). -/
def swapRecorder (d : Nat) (b : List Byte) (s : State) : State :=
  let mib := leAt b 0 2
  if b.isEmpty || s.rd d Reg.REC_RING_SIZE = mib then s
  else
    let s := drainAll d s
    let wr := s.rd d Reg.REC_WR
    let s := (s.wr d Reg.REC_RING_SIZE mib).wr d Reg.REC_OLDEST wr
    let s := { s with recs := { s.recs with copied := SMap.set 0 s.recs.copied d wr } }
    emit d 0 0x010 0 false [pf 2 (s.rd d Reg.DC_INCARNATION), pf 1 0xF, pf 1 0, pf 2 mib, pf 2 0] s

/-- The die's own entries of the rack-wide sections (R77, R425, R565). -/
def swapRackWide (d : Nat) (l : List Section) (s : State) : State :=
  let b (t : Nat) : List Byte := secBody l t 0xFF
  let s := swapMonitor d (b 10) (swapClock d (b 9) (swapGovernor d (b 11) s))
  govRefresh d (swapRecorder d (b 14) (swapPort d (b 13) (swapMesh d (b 12) s)))

/-- The swap of a die. `n` reads the image in force, which the rack already has. The first commit since the die's reset
also applies the rack-wide entries of the kept copy that it has re-staged; the DC then keeps the image in force, and RWL fields lock (R77,
R564). -/
def swapDie (l : Load) (d : Nat) (s : State) : State :=
  let full := !l.img.partial_
  let own (h : Nat) : Option Nat := ownerAfter s s l (2 * d + h)
  let hit (h : Nat) : Bool := halfTouched s s l (2 * d + h)
  let act := activeAfter s s l (2 * d) + activeAfter s s l (2 * d + 1)
  let owns := [0, 1].map (fun h => (h, own h))
  let s := each (owns.filter (fun x => hit x.1)) (fun s x =>
    swapHalf x.2 d x.1 l.img.serial full (swapFailures d x.1 s)) s
  let s := swapWarden d (swapModes d act (swapQueues (if full then imgParts s else [l.img.target]) full d s))
  let kept := look d s.img.kept
  let s :=
    if full then swapRackWide d s.img.live s
    else if s.img.restage.contains d then (match kept with | some k => swapRackWide d k s | none => s)
    else s
  { s with img := { s.img with
      unlocked := delNat s.img.unlocked d,
      restage := delNat s.img.restage d,
      kept := if full || kept.isSome then bind_ d s.img.live s.img.kept else s.img.kept } }

/-! ### COMMIT, its relay, and the swap (R59, R62) -/

/-- Whether a directory entry is between stable states. -/
def movingEnt (e : DirEnt) : Bool := e.st == .sD || e.st == .bAck || e.st == .bData

/-- Whether a line of the partition, or an entry for one, is between stable states. -/
def partMoving (s : State) (p : Nat) : Bool :=
  let mine (la : Nat) : Bool := Nat.beq (linePart s la) p
  (s.slc.lines ++ s.slc.puts).any (fun l => !stableLine l && mine l.la) || s.slc.dir.any (fun e => movingEnt e && mine e.la)

/-- Whether a RED packet of the partition is still in the network, in flight or held for combining. -/
def redInNet (s : State) (p : Nat) : Bool :=
  s.net.redNet.any (fun f => Nat.beq f.pkt.key.part p) || s.net.combine.any (fun c => Nat.beq c.pkt.key.part p)

/-- Whether a commit may act on its target partitions: the cache actions start only after every transient line and entry of
a target is stable (R276), and the RED packets of a target are delivered first (R324). A FAULTED or resetting target is reset by the
commit and waits for neither (R434). DEDUCED, log 118. -/
def commitReady (s : State) (l : Load) : Bool :=
  let n := withLive (mergeLive s l.img) s
  (commitTargets s n l).all (fun p =>
    s.prt.faulted.contains p || s.prt.resets.any (fun r => Nat.beq r.part p)
      || (!(needsFlush s n l p && partMoving s p) && !redInNet s p))

/-- RTIME as an agent has it: a spine switch keeps that of the lowest die of the load. -/
def agentTime (s : State) (l : Load) (a : Nat) : Nat :=
  if a < 64 then s.rtime a else match l.agents.head? with | some d => s.rtime d | none => 0

/-- An armed agent swaps: the first swap acts for the rack, once its targets are quiet; until then no agent swaps. -/
def doSwap (a : Nat) (s : State) : State :=
  match s.img.load with
  | none => s
  | some l =>
    if !l.armed.contains a || l.swapped.contains a || !l.agents.contains a || (Nat.blt a 64 && !dieUp s a)
        || (l.swapped.isEmpty && !commitReady s l) then s
    else
      let s := if l.swapped.isEmpty then commitRack l s else s
      let s := if a < 64 then swapDie l a s else s
      setLoad { l with swapped := addNat l.swapped a } (imgStatus 4 0 l.img.partial_ l.img.target a s)

/-- The bytes of a COMMIT relay: SERIAL and IMG_COMMIT_TIME. -/
def relayBytes (l : Load) : List Byte := leBytes 8 l.img.serial ++ leBytes 8 l.commitTime

/-- An agent first holds COMMIT (R62): it relays to every other agent and is armed; one that COMMIT reaches late swaps at
once (R59). -/
def arm (a : Nat) (s : State) : State :=
  match s.img.load with
  | none => s
  | some l =>
    let s := each (l.agents.filter (fun b => !(Nat.beq b a))) (fun s b => sendTo a b 3 (relayBytes l) s) s
    let s := (imgStatus 5 0 l.img.partial_ l.img.target a s).wr a Reg.IMG_COMMIT_TIME l.commitTime
    let late := Nat.ble l.commitTime (agentTime s l a)
    let s := setLoad { l with armed := addNat l.armed a, late := l.late || late } s
    if late then doSwap a s else s

/-- The least lead of IMG_COMMIT_TIME over its writing, in ns (R59). -/
def commitLead : Nat := 100000

/-- IMG_COMMIT: the RM's COMMIT reaches an agent, with IMG_COMMIT_TIME; the first one is the RM's writing of it: it fixes the
time, at least 100 µs ahead (R59), and from then on the load cannot be aborted (R61). DEDUCED, log 129. -/
def imgCommit (a : Nat) (time : Word) (s : State) : State :=
  match loadRun s (fun p => p == .quiesced || p == .committing) with
  | none => s
  | some l =>
    if !l.agents.contains a || l.armed.contains a then s
    else if l.phase == .quiesced && Nat.blt time.toNat (s.recs.rmRtime + commitLead) then s
    else
      let t := if l.phase == .quiesced then time.toNat else l.commitTime
      arm a (imgCmd 4 a (setLoad { l with phase := .committing, commitTime := t } s))

def execImgCommit (agent : Nat) (time : Word) (s : State) : Host.Outcome State Fault Refusal := .next (imgCommit agent time s)

/-- COMMIT_RELAY (R62): a relay from an armed agent arms one that was not. -/
def commitRelay (a sender : Nat) (serial time : Word) (s : State) : State :=
  match s.img.load with
  | none => s
  | some l =>
    if l.armed.contains sender && l.agents.contains a && !l.armed.contains a && serial.toNat = l.img.serial
        && time.toNat = l.commitTime then arm a s
    else s

def execCommitRelay (agent sender : Nat) (serial time : Word) (s : State) : Host.Outcome State Fault Refusal :=
  .next (commitRelay agent sender serial time s)

/-- COMMIT_SWAP: IMG_COMMIT_TIME has come, by the agent's RTIME, for an armed agent (R59). -/
def commitSwap (a : Nat) (s : State) : State :=
  match s.img.load with
  | none => s
  | some l => if Nat.ble l.commitTime (agentTime s l a) then doSwap a s else s

def execCommitSwap (agent : Nat) (s : State) : Host.Outcome State Fault Refusal := .next (commitSwap agent s)

/-! ### Release, and the end of an agent's load (R57, R59, R62) -/

/-- IMAGE-COMMIT of an agent. -/
def commitRecord (l : Load) (us a : Nat) (s : State) : State :=
  let p := if l.img.partial_ then l.img.target else 0xFF
  agentEmit a 0x020 0 (loadSealed s l) [pa_ 8 l.img.serial, pf 1 (if l.img.partial_ then 1 else 0), pf 1 p, pf 1 (if l.late then 1 else 0), pf 1 0,
    pa_ 4 (min us 0xFFFFFFFF)] s

/-- IMG_RELEASE: once every agent has swapped, dispatch resumes on the new image. The dies with a half in a partition show
STAGE 12 (Table BOOT-1). -/
def imgRelease (s : State) : State :=
  match loadRun s (fun p => p == .committing) with
  | none => s
  | some l =>
    if !(l.agents.all (fun a => l.swapped.contains a)) then s
    else
      let us := (s.recs.rmRtime - l.quiesceAt) / 1000
      let s := each (loadTargets s l) (fun s p => resumePart p s) s
      let s := each l.agents (fun s a =>
        let s := imgResult 0 0 a (imgCmd 5 a (commitRecord l us a s))
        if Nat.blt a 64 && s.rd a Reg.DC_BOOT_STATUS_STAGE != 12 then
          let s := uartPrint a 12 s
          if (halfPart s a 0).isSome || (halfPart s a 1).isSome then uartPrint a 13 (s.wr a Reg.DC_BOOT_STATUS_STAGE 12) else s
        else s) s
      { s with img := { s.img with load := none, shadow := [] } }

def execImgRelease (s : State) : Host.Outcome State Fault Refusal := .next (imgRelease s)

/-- LOAD_AGENT_TIMEOUT (R62): an agent that is not armed and hears nothing ends the load on its own. Once an agent is armed,
its relay has reached every live agent before the time-out (R62), so none ends then. -/
def loadAgentTimeout (a : Nat) (s : State) : State :=
  match s.img.load with
  | none => s
  | some l =>
    if !l.agents.contains a || !l.armed.isEmpty || l.gone.contains a then s
    else
      let ps := loadTargets s l
      let detail := detailWord 0xFFFF a none
      let s := if a < 64 then
          each [0, 1] (fun s h =>
            match halfPart s a h with
            | some p =>
              if ps.contains p && s.rd a (Reg.PART_STATE h) == 2 then
                s.wr a (Reg.PART_STATE h) (if s.prt.faulted.contains p then 3 else 1)
              else s
            | none => s) s
        else s
      let s := agentEmit a 0x021 0 (loadSealed s l)
        [pf 1 Rc.aborted, pf 1 l.phase.code, pf 6 0, pa_ 8 detail, pa_ 8 l.img.serial] (imgResult Rc.aborted detail a s)
      let left := delNat l.agents a
      { s with img := { s.img with
          shadow := delNat s.img.shadow a,
          load := if left.all l.gone.contains then none else some { l with agents := left, lapsed := l.lapsed ++ [a] } } }

def execLoadAgentTimeout (agent : Nat) (s : State) : Host.Outcome State Fault Refusal := .next (loadAgentTimeout agent s)

end Sys2Proof.Machine
end

