-- ==== Sys2Proof/Machine/Power.lean ====
section
/-! DEFINITION. Power, cooling and the modules of the rack (chapter 17): the power-up order of R584, the loss of power
of a die, a module or the rack, the CDU, leaks, and the replacement of modules, shelves and spine sleds. -/

namespace Sys2Proof.Machine

/-! ### Power up (R584, R585) -/

/-- SHELF_POWER_GOOD: the busbar is good once two shelves report. A shelf that reports again has its rectifiers. -/
def shelfPowerGood (shelf : Nat) (s : State) : State :=
  if shelf < 3 && !s.rack.shelfUp.contains shelf then
    let up := addNat s.rack.shelfUp shelf
    { s with rack := { s.rack with
        shelfUp := up, rectFailed := SMap.set 0 s.rack.rectFailed shelf 0, busbar := s.rack.busbar || Nat.ble 2 up.length } }
  else s

def execShelfPowerGood (shelf : Nat) (s : State) : Host.Outcome State Fault Refusal := .next (shelfPowerGood shelf s)

/-- RM_BOOT: the RM runs from the busbar, with its pairing table of at most 1,024 entries (R107), CENSUS_MS within its range
(R103) and its own number, starts REFCLK and enables the spine sleds. -/
def rmBoot (pairing : List PairEntry) (rack sp0 sp1 : Compat) (rackNo censusMs : Nat) (s : State) : State :=
  if s.rack.busbar && !s.rack.rmUp then
    { s with
      rack := { s.rack with rmUp := true, refclk := true, rackFw := rack, spineFw := [sp0, sp1], rackNo := rackNo % 0x10000 },
      boot := { s.boot with pairing := pairing.take 1024, censusMs := max 100 (min censusMs 60000) } }
  else s

def execRmBoot (pairing : List PairEntry) (rack sp0 sp1 : Compat) (setUp : RackSetUp) (s : State) :
    Host.Outcome State Fault Refusal := .next (rmBoot pairing rack sp0 sp1 setUp.rackNo setUp.censusMs s)

/-- The minimum facility water flow, L/min (Table PHY-5). -/
def minFlow : OrderCode → Nat
  | .cxm32S => 70
  | .cxm64S => 130
  | .cxm64T => 130

/-- The CDU reports flow and inlet temperature within Table PHY-5 (R584 step 4). -/
def cduOk (s : State) (inlet flow : Nat) : Bool :=
  Nat.ble 17 inlet && Nat.ble inlet 32 && Nat.ble (minFlow s.orderCode) flow

/-- MOD_EN on every populated module slot (R584 step 5). -/
def assertModEn (s : State) : State :=
  { s with rack := { s.rack with
      modEn := (List.range (moduleCount s.orderCode)).filter (fun m => !s.rack.modAbsent.contains m) } }

/-- MOD_EN_ASSERT (R584): with the spine sleds' reports. Either step 4 holds and both sleds are ready, or 120 s have
passed since step 3 with one ready. A cooling power-off ends by R593 alone. -/
def modEnAssert (spine0 spine1 after120s : Bool) (s : State) : State :=
  if s.rack.rmUp then
    let ready := (if spine0 then addNat s.rack.spineReady 0 else s.rack.spineReady)
    let ready := if spine1 then addNat ready 1 else ready
    let s := { s with rack := { s.rack with spineReady := ready } }
    let both := ready.contains 0 && ready.contains 1
    if !s.rack.coolOff && (cduOk s s.rack.inlet s.rack.flow && both || after120s && !ready.isEmpty) then assertModEn s else s
  else s

def execModEnAssert (spine0 spine1 after120s : Bool) (s : State) : Host.Outcome State Fault Refusal :=
  .next (modEnAssert spine0 spine1 after120s s)

/-- DIE_POWER_GOOD (R585): the die is in stage 3, after the dies of lower positions in its module (R83); its rails come up in the
same step (log 128). A die of a module whose MOD_EN had fallen comes from a module reset: its INCARNATION is that of the module
flash, incremented (R121); otherwise this is power-up. -/
def diePowerGood (d : Nat) (s : State) : State :=
  let m := moduleOf d
  let first := (List.range (d % 4)).all (fun k => s.rack.powered.contains (4 * m + k) || s.rack.dieOff.contains (4 * m + k))
  if first && s.rack.modEn.contains m && !s.rack.modAbsent.contains m && !s.rack.dieOff.contains d && !s.rack.powered.contains d then
    let again := s.rack.modReset.contains m
    let inc := if again then (SMap.get 0 s.rack.flashIncarn d + 1) % 0x10000 else 0
    let s := bootReset d { s with rack := { s.rack with
      powered := addNat s.rack.powered d, flashIncarn := SMap.set 0 s.rack.flashIncarn d inc } }
    (s.wr d Reg.DC_INCARNATION inc).wr d Reg.DC_RESET_CAUSE (if again then 2 else 0)
  else s

def execDiePowerGood (d : Nat) (s : State) : Host.Outcome State Fault Refusal := onDie s d (diePowerGood d)

/-! ### Power down (R586, R592–R594, R596) -/

/-- MOD_EN of a module falls: its four dies power down (R586). -/
def dropModEn (m : Nat) (s : State) : State :=
  if s.rack.modEn.contains m then
    let s := modulePowerOff m s
    { s with rack := { s.rack with modEn := delNat s.rack.modEn m } }
  else s

def execModEnDrop (m : Nat) (s : State) : Host.Outcome State Fault Refusal := onDie s (4 * m) (dropModEn m)

/-- The busbar falls below 40 V (R592): every die loses power, and the rack starts again from R584 step 1, each die as at
power-up. -/
def busbarLoss (s : State) : State :=
  if s.rack.busbar then
    let s := each ((allDies s).filter (fun d => s.rack.powered.contains d)) (fun s d => dieUnpower d s) s
    let s := rackRestart s
    { s with rack := { s.rack with shelfUp := [], busbar := false, flashIncarn := [] } }
  else s

def execBusbarLoss (s : State) : Host.Outcome State Fault Refusal := .next (busbarLoss s)

/-- SHELF_FAILURE (R592, R597): a whole shelf, or one of its eight rectifiers. The rack runs on with two shelves. -/
def shelfFailure (shelf : Nat) (whole : Bool) (s : State) : State :=
  if s.rack.shelfUp.contains shelf then
    let n := if whole then 8 else min 8 (SMap.get 0 s.rack.rectFailed shelf + 1)
    let up := if n = 8 then delNat s.rack.shelfUp shelf else s.rack.shelfUp
    let s := { s with rack := { s.rack with rectFailed := SMap.set 0 s.rack.rectFailed shelf n, shelfUp := up } }
    if up.length < 2 then busbarLoss s else s
  else s

def execShelfFailure (shelf : Nat) (whole : Bool) (s : State) : Host.Outcome State Fault Refusal :=
  .next (shelfFailure shelf whole s)

/-- The cooling power-off of R593: MOD_EN falls on every module. -/
def coolingOff (s : State) : State :=
  let s := each s.rack.modEn (fun s m => dropModEn m s) s
  { s with rack := { s.rack with coolOff := true, okFlow := 0 } }

/-- CDU_CHECK: the RM's check of one second (R593). -/
def cduCheck (inlet flow : Nat) (s : State) : State :=
  if s.rack.rmUp then
    let low := if Nat.blt (2 * flow) (minFlow s.orderCode) then s.rack.lowFlow + 1 else 0
    let good := if s.rack.coolOff && cduOk s inlet flow then s.rack.okFlow + 1 else 0
    let s := { s with rack := { s.rack with inlet := inlet, flow := flow, lowFlow := low, okFlow := good } }
    if s.rack.coolOff then
      if Nat.ble 60 good then assertModEn { s with rack := { s.rack with coolOff := false, okFlow := 0 } } else s
    else if !s.rack.modEn.isEmpty && (Nat.blt 40 inlet || Nat.ble 5 low) then coolingOff s
    else s
  else s

def execCduCheck (inlet flow : Nat) (s : State) : Host.Outcome State Fault Refusal := .next (cduCheck inlet flow s)

/-- MOD_ALERT_N of a module. -/
def alert (m : Nat) (s : State) : State := { s with rack := { s.rack with modAlert := addNat s.rack.modAlert m } }

/-- A leak in module `m` (R594). -/
def moduleLeak (m : Nat) (s : State) : State :=
  if s.rack.rmUp && !s.rack.modAbsent.contains m then
    let s := dropModEn m (alert m s)
    alert m { s with rack := { s.rack with valvesShut := addNat s.rack.valvesShut m } }
  else s

/-- LEAK (R594): in a module, or in the manifold, which acts as a loss of flow: the RM's check finds none. -/
def execLeak (m : Option Nat) (s : State) : Host.Outcome State Fault Refusal :=
  match m with
  | some m => onDie s (4 * m) (moduleLeak m)
  | none => .next (cduCheck s.rack.inlet 0 s)

/-- STAGE_FAULT (R596): power is removed from that die only; it stays off until MOD_EN falls. -/
def stageFault (d : Nat) (s : State) : State :=
  if s.rack.modEn.contains (moduleOf d) && !s.rack.dieOff.contains d then
    let s := if s.rack.powered.contains d then dieUnpower d s else s
    alert (moduleOf d) { s with rack := { s.rack with dieOff := addNat s.rack.dieOff d } }
  else s

def execStageFault (d : Nat) (s : State) : Host.Outcome State Fault Refusal := onDie s d (stageFault d)

/-! ### Replacement (R87, R595, R598) -/

/-- MODULE_REMOVE (R595): powered or not, the module's dies are gone. -/
def moduleRemove (m : Nat) (s : State) : State :=
  if s.rack.modAbsent.contains m then s
  else
    let s := dropModEn m s
    { s with rack := { s.rack with
        modAbsent := addNat s.rack.modAbsent m, modAlert := delNat s.rack.modAlert m,
        modReset := addNat s.rack.modReset m } }

def execModuleRemove (m : Nat) (s : State) : Host.Outcome State Fault Refusal := onDie s (4 * m) (moduleRemove m)

/-- MODULE_INSERT (R598): unpowered until its MOD_EN is asserted. -/
def moduleInsert (m : Nat) (s : State) : State :=
  if s.rack.modAbsent.contains m then
    { s with rack := { s.rack with
        modAbsent := delNat s.rack.modAbsent m, valvesShut := delNat s.rack.valvesShut m } }
  else s

def execModuleInsert (m : Nat) (s : State) : Host.Outcome State Fault Refusal := onDie s (4 * m) (moduleInsert m)

/-- MODULE_FLASH_WRITE (R86, R87): the RM rewrites one stored copy that its room in the flash can hold: image 0 boot,
1 runtime, 2 warden; copy 0 A, 1 B. -/
def moduleFlashWrite (m image copy : Nat) (c : FlashCopy) (s : State) : State :=
  if s.rack.rmUp && image < 3 && copy < 2 && Nat.ble c.length (flashPlace image copy).2
      && !s.rack.modAbsent.contains m then
    { s with rack := { s.rack with flash := bind_ (m * 8 + image * 2 + copy) c s.rack.flash } }
  else s

def execModuleFlashWrite (m image copy : Nat) (c : FlashCopy) (s : State) : Host.Outcome State Fault Refusal :=
  onDie s (4 * m) (moduleFlashWrite m image copy c)

/-- SPINE_SLED_REPLACE (R595): the new sled starts and reports ready; its plane stays lost until the next full load
(R535). -/
def spineSledReplace (plane : Nat) (s : State) : State :=
  if s.rack.rmUp && plane < 2 && s.rack.planeLost.contains plane then
    let s := s.resetRegs (64 + plane) 0 0x1000000
    { s with rack := { s.rack with spineReady := addNat s.rack.spineReady plane } }
  else s

def execSpineSledReplace (plane : Nat) (s : State) : Host.Outcome State Fault Refusal := .next (spineSledReplace plane s)

end Sys2Proof.Machine
end

