-- ==== Sys2Proof/Machine/Registers.lean ====
section
/-! DEFINITION. The register port of a die (chapter 16): what a read returns, with the views of state that stands
elsewhere and those that a sealed partition hides; what a write changes, refuses or starts; the MGP frames that carry
accesses; and the JTAG instructions (R589). -/

namespace Sys2Proof.Machine

/-! ### What a field reads -/

/-- QUE_STATE.STATE (Table SEQ-11): 4 error, 0 disabled, 3 quiesced, 2 held, 1 running. -/
def queStateView (s : State) (d n : Nat) : Nat :=
  let q := d * 64 + n
  if s.rd d (Reg.QUE_STATE_ERROR n) ≠ 0 then 4
  else if !queEnabled s q then 0
  else if partState s d (quePart s q) = 2 then 3
  else if s.rd d (Reg.QUE_STATE_DEPTH_WAIT n) = 1 || s.rd d (Reg.QUE_STATE_CQ_WAIT n) = 1 then 2
  else 1

/-- SEQ_VIEW[w]: a FREE slot shows zeros. -/
def seqView (s : State) (d w : Nat) : Nat :=
  match findSeq s (d * 256 + s.rd d Reg.SEQ_VIEW_SLOT) with
  | some x => leAt (seqBytes s x) (8 * w) 8
  | none => 0

/-- SEQ_USED[i]. -/
def seqUsed (s : State) (d i : Nat) : Nat :=
  ((List.range 64).filter (fun j => (findSeq s (d * 256 + 64 * i + j)).isSome)).foldl setBit 0

/-- The code of a mover's state (Table MOV-8); 0 is free. -/
def MovSt.code : MovSt → Nat
  | .running => 1
  | .stalled => 2
  | .halted => 3

/-- The registers of mover `m` from its base on (Table MOV-8). -/
def moverView (s : State) (d m r lo : Nat) : Nat :=
  match findMover s d m with
  | none => 0
  | some x =>
    if r = 0 then
      match lo with
      | 0 => x.state.code
      | 3 => x.slot
      | 9 => x.pc
      | 16 => x.gen
      | 32 => if x.changed then 1 else 0
      | _ => x.queue
    else if r = 8 then cursorView s x
    else x.mr ((r - 0x10) / 8)

/-- A bucket's level in whole units, where an instance has the slot (Table PART-7). -/
def bucketView (s : State) (d j kind w : Nat) : Nat :=
  if s.rd d (Reg.PART_INST j) = 0 then 0
  else ofSigned w (SMap.get 0 s.que.buckets (bucketKey d j kind) / (bucketOne : Int))

/-- The instance that function `f` of a port serves: a VF's, or that of slice slot `f − 64` (R499). -/
def fnServes (s : State) (port f : Nat) : Option (Nat × Nat) :=
  if f < 64 then
    (imgParts s).findSome? (fun p =>
      ((instances s p).find? (addresses (sliceMode s p) port f none)).map (fun e => (p, e.id)))
  else (sliceSlots s port)[f - 64]?

/-- The views of the HOST block: dies without a controller read zero; HOST_FN_CTX shows the image (Table HOST-9). -/
def hostView (s : State) (d addr lo : Nat) : Option Nat :=
  match diePort d with
  | none => some 0
  | some p =>
    if addr = 0x780000 && lo = 0 then some 1
    else if addr = 0x780068 && lo = 0 then some (if ptBusy s d then 1 else 0)
    else if 0x781000 ≤ addr && addr % 0x20 = 8 && lo ≠ 0 then
      match (if s.img.unlocked.contains d then none else fnServes s p ((addr - 0x781000) / 0x20)) with
      | some (q, i) => some (if lo = 8 then q else if lo = 15 then i else 1)
      | none => some 0
    else none

/-- The value of a field that shows state which stands elsewhere. -/
def fieldView (s : State) (d : Nat) (f : Fld) : Option Nat :=
  let off := f.addr % 0x80000
  let n := (off - 0x100) / 0x40
  let r := (off - 0x100) % 0x40
  let per := Nat.ble 0x100 off
  match f.addr / 0x80000 with
  | 0 => if f.addr = 0 then (match f.lo with | 0 => some d | 6 => some (d % 4) | 8 => some (d / 4) | _ => none) else none
  | 6 =>
    if off = 0x10 then some (launchesOut s d)
    else if per && r = 0x20 && f.lo = 0 then some (queStateView s d n)
    else none
  | 7 =>
    if 8 ≤ off && off < 0x88 then some (seqView s d ((off - 8) / 8))
    else if 0x88 ≤ off && off < 0xA8 then some (seqUsed s d ((off - 0x88) / 8))
    else if off = 0xB0 then some (s.que.heldKv.filter (fun h => Nat.beq (h.seq / 256) d)).length
    else none
  | 8 => if per && off < 0x1100 then some (moverView s d ((off - 0x100) / 0x80) ((off - 0x100) % 0x80) f.lo) else none
  | 9 => if per && r = 0x38 then some (pinnedAt s d n).length else none
  | 10 => if per && r = 0 then some (dirUsed s d n) else none
  | 12 => if per && off < 0x800 && r = 0 then some (openAccums s d n) else none
  | 13 =>
    if per && off < 0x1100 then
      (match r with
       | 8 => some (bucketView s d n (if f.lo = 0 then 0 else 1) 32)
       | 0x10 => some (bucketView s d n 2 48)
       | 0x18 => some (bucketView s d n 3 48)
       | 0x20 => some (bucketView s d n 4 48)
       | _ => none)
    else none
  | 15 => hostView s d f.addr f.lo
  | 16 =>
    if off = 0x28 && f.lo = 0 then some (stagedBytes s d)
    else if 0x400 ≤ off then
      let size := s.rd d Reg.REC_RING_SIZE * 0x100000
      some (ofLe (ringGet s.recs.ring d size (s.rd d Reg.REC_WIN_OFF * 8 + (off - 0x400)) 8))
    else none
  | _ => none

/-- Whether a sealed partition's view hides the field from every source but the warden (R563). -/
def viewSealed (s : State) (d : Nat) (f : Fld) : Bool :=
  let off := f.addr % 0x80000
  match f.addr / 0x80000 with
  | 7 =>
    if 8 ≤ off && off < 0x88 then
      (match findSeq s (d * 256 + s.rd d Reg.SEQ_VIEW_SLOT) with | some x => partSealed s x.part | none => false)
    else false
  | 8 =>
    if 0x10000 ≤ off then slotSealed s d ((off - 0x10000) / 0x400)
    else if 0x100 ≤ off && off < 0x1100 && 0x10 ≤ (off - 0x100) % 0x80 then
      (match findMover s d ((off - 0x100) / 0x80) with | some x => partSealed s x.part | none => false)
    else false
  | 10 =>
    (off == 0x18 || off == 0x20) &&
      (match (look d s.slc.queried).bind (fun la => homePart s (la * 128)) with | some p => partSealed s p | none => false)
  | 15 => Nat.ble 0x70 off && Nat.blt off 0x90 && (ptData s d).state != 0 && partSealed s (ptData s d).part
  | _ => false

/-- What a field reads for a source. -/
def fieldRead (s : State) (d : Nat) (src : Source) (f : Fld) : Nat :=
  if viewSealed s d f && src != .warden then 0
  else match fieldView s d f with
    | some v => v % 2 ^ f.width
    | none => s.rd d f

/-- The fields of the register at `addr` of a die, or of a spine switch (64, 65), which has the IMG block alone (R569). -/
def portFields (d addr : Nat) : List Fld := if d < 64 || addr / 0x80000 = 5 then fieldsAt addr else []

/-- The 64 bits of a register. -/
def regValue (s : State) (d : Nat) (src : Source) (addr : Nat) : Nat :=
  ((portFields d addr).map (fun f => fieldRead s d src f * 2 ^ f.lo)).foldl (· + ·) 0

/-! ### Reads (R560, R561) -/

/-- Whether an access of `size` bytes at `addr` covers a field of its register whole. -/
def coversField (addr size : Nat) (f : Fld) : Bool :=
  Nat.ble (8 * (addr % 8)) f.lo && Nat.ble (f.lo + f.width) (8 * (addr % 8) + 8 * size)

/-- What a read does: it clears the RC fields that it covers whole, and empties a mailbox (Table PART-8). -/
def readTakes (d : Nat) (src : Source) (addr size : Nat) (s : State) : State :=
  let base := addr / 8 * 8
  let s := each ((portFields d base).filter (fun f => f.acc == .rc && coversField addr size f)) (fun s f => s.wr d f 0) s
  if base = Reg.WARD_MBOX_IN.addr then mboxInTaken d src s
  else if base = Reg.WARD_MBOX_OUT.addr then mboxOutTaken d s
  else s

/-- A read of 4 or 8 bytes at the register port: its value, none where the address is unmapped. -/
def portRead (d : Nat) (src : Source) (addr size : Nat) (s : State) : Option Nat × State :=
  let base := addr / 8 * 8
  if (portFields d base).isEmpty then (none, s)
  else (some (regValue s d src base / 2 ^ (8 * (addr % 8)) % 2 ^ (8 * size)), readTakes d src addr size s)

/-! ### Writes (R561, R562) -/

/-- The partition that a field which only the warden writes when sealed belongs to (R447). -/
def fieldOwner (s : State) (d : Nat) (f : Fld) : Option Nat :=
  let off := f.addr % 0x80000
  match f.addr / 0x80000 with
  | 6 => let q := d * 64 + (off - 0x100) / 0x40
         if queNamed s q then some (quePart s q) else none
  | 12 => some ((off - 0x800) / 8)
  | 14 => halfPart s d ((off - 0x100) / 8 / 32)
  | _ => none

/-- Whether a field accepts a write from the source (R558). -/
def fieldTakes (s : State) (d : Nat) (src : Source) (f : Fld) : Bool :=
  match f.guard with
  | .any => true
  | .warden => src == .warden
  | .mediator => isMediator s d ((f.addr - 0x682000) / 16) src
  | .pfOnly => (match src with | .pf _ => true | .page _ f => f == 0 | _ => false)
  | .wardenIfSealed => (match fieldOwner s d f with | some p => wardenOk s p src | none => true)

/-- Whether a write changes fields of this access code. -/
def Acc.writable : Acc → Bool
  | .ro => false
  | .rc => false
  | .rw => true
  | .rwl => true
  | .w1c => true
  | .w1s => true

/-- The bits of a field in a register's 64. -/
def Fld.of (f : Fld) (v : Nat) : Nat := v / 2 ^ f.lo % 2 ^ f.width

/-- What the field holds after a write of `v`, its bits in place. -/
def fieldNew (s : State) (d : Nat) (f : Fld) (v : Nat) : Nat :=
  match f.acc with
  | .w1s => s.rd d f ||| f.of v
  | .w1c => s.rd d f - (s.rd d f &&& f.of v)
  | _ => f.of v

/-- A register value outside its range is clamped to it (R67, R415, Tables MESH-6 and MOV-6). -/
def clampField (f : Fld) (v : Nat) : Nat :=
  if f = Reg.GOV_CTRL_CAP_MS then max 1 (min 16 v)
  else if f = Reg.GOV_CTRL_WAIT_US then max 10 (min 10000 v)
  else if f = Reg.GOV_CTRL_HEAD_WARM then min 256 v
  else if f = Reg.IMG_QTIMEOUT then max 1 (min 10000 v)
  else if f = Reg.MOV_HALT_MS then max 1 (min 10000 v)
  else if f = Reg.RED_TIMEOUT then max 1 (min 1000 v)
  else v

/-- The fields that a write covers take their values. -/
def plainWrite (d : Nat) (fs : List Fld) (v : Nat) (s : State) : State :=
  each fs (fun s f => s.wr d f (clampField f (fieldNew s d f v))) s

/-- A write that starts a command, or whose register has a rule of its own; `v` is the whole register with the fields
not covered as they were. Status as in Table REG-4: 0 OK, 4 DENIED, 5 BUSY. None: a plain register. -/
def commandWrite (d : Nat) (src : Source) (base v : Nat) (s : State) : Option (Nat × State) :=
  let off := base % 0x80000
  let n := (off - 0x100) / 0x40
  let w : Word := BitVec.ofNat 64 v
  match base / 0x80000 with
  | 5 => if off = 0 then some (0, if v % 16 = 6 then imgAbort s else s) else none
  | 6 =>
    if off < 0x100 then none
    else if (off - 0x100) % 0x40 = 8 then some (0, queCtrlWrite d n src v s)
    else if (off - 0x100) % 0x40 = 0 && queEnabled s (d * 64 + n) then some (0, s)
    else none
  | 8 =>
    if off = 0 then
      let op := bits v 13 12
      let held : Bool := match findMover s d (v % 32) with | some x => partSealed s x.part && src != .warden | none => false
      if op = 1 || op = 2 then some (cond held 4 0, movCommand d (v % 32) op (bits v 11 5) src s) else none
    else if 0x1200 ≤ off && off < 0x1400 then
      let k := (off - 0x1200) / 8
      let held := (slotSealed s d k || (v.testBit 28 && partSealed s (bits v 22 16))) && src != .warden
      some (cond held 4 0, movSlotWrite d k src v s)
    else if 0x10000 ≤ off then
      let k := (off - 0x10000) / 8
      some (if slotSealed s d (k / 128) && src != .warden then 4 else 0, movProgWrite d k src w s)
    else none
  | 9 =>
    if off = 0x18 then
      (match v % 4 with
       | 1 => some (0, ucPin d src (bits v 12 2) (bits v 19 13) s)
       | 2 => some (0, ucUnpin d src (bits v 12 2) (bits v 19 13) s)
       | _ => none)
    else none
  | 10 => if off = 0x10 then some (0, if v.testBit 0 then cohQuery d src s else s) else none
  | 13 =>
    if off = 0x20 then
      let p := bits v 9 3
      let i := bits v 14 10
      let st := if s.rd d Reg.PART_CMD_STATUS_BUSY = 1 then 5 else 0
      (match v % 8 with
       | 1 => some (if wardenOk s p src then st else 4, goLive d p i src s)
       | 2 => some (st, instResetCmd d p i src s)
       | 3 => some (st, partResetCmd d p src s)
       | _ => none)
    else if off = 0x30 then
      let op := bits v 12 11
      let st := if s.prt.deferred.any (fun g => Nat.beq g.die d) then 5 else 0
      if op = 0 then none else some (st, gateRequest ⟨d, v % 4, bits v 10 2, op⟩ s)
    else if 0x2000 ≤ off then
      let e := (off - 0x2000) / 16
      some (0, if off % 16 = 0 then irqMapAddrWrite d e src w s else irqMapDataWrite d e src w s)
    else none
  | 14 =>
    if off = 8 then
      if v % 8 = 0 || 4 < v % 8 then none
      else
        let p := bits v 9 3
        some (if wardenOk s p src then 0 else 4,
          invCommand d (v % 8) p (bits v 14 10) (bits v 22 15) (bits v 39 24) src s)
    else if 0x100 ≤ off then some (0, ctxBaseWrite d ((off - 0x100) / 8) src w s)
    else none
  | 15 =>
    match diePort d with
    | none => some (0, s)
    | some p =>
      if 0x1030 ≤ off && off % 0x20 = 0x10 then some (0, s)
      else if off = 8 then some (0, hostAbi p ⟨bits v 31 16, v % 0x10000⟩ s)
      else if off = 0x60 then
        let i := v % 256
        if ptBusy s d then some (5, s)
        else
        (match bits v 9 8 with
         | 1 => some (0, ptWrite d i src s)
         | 2 => some (0, ptRead d i s)
         | 3 => some (0, ptRetire d i src s)
         | _ => none)
      else none
  | 16 => if off = 0x40 then some (0, recTest d (BitVec.ofNat 32 v) s) else none
  | 17 =>
    if 0x10 ≤ off && off < 0x50 then
      some (0, if off < 0x38 then wardStrWrite d 0 ((off - 0x10) / 8) src w s
        else wardStrWrite d (1 + (off - 0x38) / 8) 0 src w s)
    else if off = 0x68 then some (0, mboxInWrite d w s)
    else if off = 0x70 then some (0, mboxOutWrite d src w s)
    else none
  | _ => none

/-- A write of `size` bytes at the register port: its status (Table REG-4) and the state after it (R560–R562). -/
def portWrite (d : Nat) (src : Source) (addr size v : Nat) (s : State) : Nat × State :=
  let base := addr / 8 * 8
  let v := v % 2 ^ (8 * size) * 2 ^ (8 * (addr % 8))
  let fs := (portFields d base).filter (fun f => f.acc.writable && coversField addr size f)
  let changes (f : Fld) : Bool := fieldNew s d f v != s.rd d f
  let locked (f : Fld) : Bool := f.acc == .rwl && !s.img.unlocked.contains d
  let refused (f : Fld) : Bool := !fieldTakes s d src f
  if (portFields d base).isEmpty then (1, s)
  else if fs.any (fun f => changes f && locked f) then (3, s)
  else
    match fs.find? (fun f => changes f && refused f) with
    | some f => (4, if f.guard == .warden || f.guard == .wardenIfSealed then wardDenied d base src s else s)
    | none =>
      if fs.isEmpty || fs.any refused then (0, s)
      else
        let kept := (portFields d base).filter (fun f => f.acc.writable && !coversField addr size f)
        let now (f : Fld) : Nat := if f.acc == .w1s then 0 else s.rd d f * 2 ^ f.lo
        let whole := (fs.map (fun (f : Fld) => f.of v * 2 ^ f.lo) ++ kept.map now).foldl (· + ·) 0
        match commandWrite d src base whole s with
        | some r => r
        | none => (0, plainWrite d fs v s)

/-! ### Direct accesses (R557, R560) -/

/-- The width and the reach of a source (Table REG-2, R559, R560): a function page reaches its own registers alone. -/
def sourceReaches (d addr size : Nat) : Source → Bool
  | .pf _ => (Nat.beq size 4 || Nat.beq size 8) && Nat.beq (addr % size) 0
  | .page port f =>
    (Nat.beq size 4 || Nat.beq size 8) && Nat.beq (addr % size) 0 && Nat.beq d (portDie port)
      && Nat.ble (0x781000 + 0x20 * f) addr && Nat.blt addr (0x781020 + 0x20 * f)
  | _ => Nat.ble 8 size && Nat.beq (size % 8) 0 && Nat.beq (addr % 8) 0

/-- Whether the port of a die takes accesses of the source: the die runs, and so does its warden for the warden's own
(R464, R580). -/
def portOpen (s : State) (d : Nat) (src : Source) : Bool :=
  dieUp s d && (src != .warden || decide (s.rd d Reg.WARD_STATUS = 1))

/-- REGISTER_WRITE: one register, from a source that reaches it while its die runs. -/
def registerWrite (d addr size : Nat) (src : Source) (v : Word) (s : State) : State :=
  if portOpen s d src && Nat.ble size 8 && sourceReaches d addr size src then (portWrite d src addr size v.toNat s).2 else s

def execRegisterWrite (d addr size : Nat) (src : Source) (v : Word) (s : State) : Host.Outcome State Fault Refusal :=
  onDie s d (registerWrite d addr size src v)

/-- Reads of `n` registers in ascending address, each answered. -/
def readMany (d : Nat) (src : Source) (size : Nat) : Nat → Nat → State → State
  | 0, _, s => s
  | n + 1, addr, s =>
    match portRead d src addr size s with
    | (some v, s) => readMany d src size n (addr + size) (answerRead d addr v src s)
    | (none, s) => s

/-- RC_REGISTER_READ: every register that the access covers is returned, and its RC fields are cleared. -/
def rcRegisterRead (d addr size : Nat) (src : Source) (s : State) : State :=
  if portOpen s d src && sourceReaches d addr size src then readMany d src (min size 8) (size / min size 8) addr s else s

def execRcRegisterRead (d addr size : Nat) (src : Source) (s : State) : Host.Outcome State Fault Refusal :=
  onDie s d (rcRegisterRead d addr size src)

/-! ### MGP frames (R567–R569, R578, R580) -/

/-- Whether the port of die `d` answers MGP at `addr` (R576, R580): from stage 5 on, and until stage 7 completes the DC
and FUSE blocks alone. A dead die does not. -/
def mgpOpen (s : State) (d addr : Nat) : Bool :=
  let st := s.rd d Reg.DC_BOOT_STATUS_STAGE
  dieUp s d && (look d s.boot.dead).isNone && Nat.ble 2 st && (Nat.ble 5 st || Nat.blt (addr / 0x80000) 2)

/-- Whether register `addr` of the named agent is reached: 0, or the status of Table REG-4 that says why not. -/
def mgpReach (s : State) (d addr : Nat) : Nat :=
  if 64 ≤ d then (if !s.rack.spineReady.contains (d - 64) then 6 else 0)
  else if dieCount s.orderCode ≤ d || !mgpOpen s d addr then 6
  else 0

/-- The reads of a REG-READ: status, DONE, the data. -/
def mgpReads (d : Nat) : Nat → Nat → State → (Nat × Nat × List Byte) × State
  | 0, _, s => ((0, 0, []), s)
  | n + 1, addr, s =>
    let r := mgpReach s d addr
    if r ≠ 0 then ((r, 0, []), s)
    else
      match portRead d .mgp addr 8 s with
      | (none, s) => ((1, 0, []), s)
      | (some v, s) =>
        let (x, s) := mgpReads d n (addr + 8) s
        ((x.1, x.2.1 + 1, leBytes 8 v ++ x.2.2), s)

/-- The writes of a REG-WRITE: status, DONE. -/
def mgpWrites (d : Nat) : Nat → Nat → List Byte → State → (Nat × Nat) × State
  | 0, _, _, s => ((0, 0), s)
  | n + 1, addr, l, s =>
    let r := mgpReach s d addr
    if r ≠ 0 then ((r, 0), s)
    else
      match portWrite d .mgp addr 8 (leAt l 0 8) s with
      | (0, s) =>
        let (x, s) := mgpWrites d n (addr + 8) (l.drop 8) s
        ((x.1, x.2 + 1), s)
      | (st, s) => ((st, 0), s)

/-- A response frame (Table REG-3): the request's header with its status, its DONE and its data. -/
def mgpResponse (req : List Byte) (die status done : Nat) (data : List Byte) (s : State) : State :=
  let body := leBytes 2 0x4D47 ++ leBytes 1 1 ++ leBytes 1 (leAt req 3 1 % 128 + 128) ++ leBytes 2 (leAt req 4 2) ++ leBytes 1 die
    ++ leBytes 1 (leAt req 7 1) ++ leBytes 4 (leAt req 8 4) ++ leBytes 1 status ++ leBytes 1 done ++ leBytes 2 0 ++ data
  let frame := body ++ leBytes 4 (crc32c body)
  { s with out := { s.out with mgp := s.out.mgp ++ [frame] } }

/-- Whether the RM takes the frame: it runs, and the frame's CRC holds (R578). -/
def mgpTaken (s : State) (b : List Byte) : Bool :=
  s.rack.rmUp && Nat.ble 20 b.length && crc32c (b.take (b.length - 4)) == leAt b (b.length - 4) 4

/-- Whether the fields of a frame of operation `op` are valid (Table REG-4, FORMAT). -/
def mgpFormat (b : List Byte) (op : Nat) : Bool :=
  let n := leAt b 7 1
  leAt b 0 2 == 0x4D47 && leAt b 2 1 == 1 && leAt b 3 1 == op && Nat.ble 1 n && Nat.ble n 64
    && b.length == (if op = 2 then 20 + 8 * n else 20)

/-- The agent that DIE names, where it is no broadcast: a die, or 64 and 65 the spine planes. -/
def mgpAgent (die : Nat) : Option Nat := if die < 66 then some die else none

/-- A REG-READ frame. -/
def mgpRead (b : List Byte) (s : State) : State :=
  let die := leAt b 6 1
  let addr := leAt b 8 4
  if !mgpTaken s b then s
  else if !mgpFormat b 1 || die = 0xFF then mgpResponse b die 8 0 [] s
  else if addr % 8 ≠ 0 then mgpResponse b die 2 0 [] s
  else
    match mgpAgent die with
    | none => mgpResponse b die 6 0 [] s
    | some d =>
      let (x, s) := mgpReads d (leAt b 7 1) addr s
      mgpResponse b die x.1 x.2.1 x.2.2 s

/-- REG_READ. -/
def execRegRead (frame : List Byte) (s : State) : Host.Outcome State Fault Refusal := .next (mgpRead frame s)

/-- A REG-WRITE performed at one agent and answered. -/
def mgpWriteAt (b : List Byte) (d : Nat) (s : State) : State :=
  let (x, s) := mgpWrites d (leAt b 7 1) (leAt b 8 4) (b.drop 16) s
  mgpResponse b d x.1 x.2 [] s

/-- The dies in DC_ROLL: those that a die's table, or its own beacons, show. -/
def rollDies (s : State) : List Nat :=
  (allDies s).filter (fun d => dieUp s d && (s.boot.beaconed.contains d || (allDies s).any (fun o => s.rdBit o Reg.DC_ROLL d)))

/-- A REG-WRITE frame, to one agent or to every die in DC_ROLL. -/
def mgpWrite (b : List Byte) (s : State) : State :=
  let die := leAt b 6 1
  if !mgpTaken s b then s
  else if !mgpFormat b 2 then mgpResponse b die 8 0 [] s
  else if leAt b 8 4 % 8 ≠ 0 then mgpResponse b die 2 0 [] s
  else if die = 0xFF then each (rollDies s) (fun s d => mgpWriteAt b d s) s
  else
    match mgpAgent die with
    | none => mgpResponse b die 6 0 [] s
    | some d => mgpWriteAt b d s

/-- REG_WRITE. -/
def execRegWrite (frame : List Byte) (s : State) : Host.Outcome State Fault Refusal := .next (mgpWrite frame s)

/-! ### JTAG (R589, Table PHY-6) -/

/-- Bits shifted out of a die's TAP. -/
def tapOut (d v : Nat) (s : State) : State := { s with out := { s.out with jtag := s.out.jtag ++ [(d, v)] } }

/-- The TAP's instruction; a die without power has none. -/
def tapIr (d code : Nat) (s : State) : State :=
  { s with rack := { s.rack with jtagIr := SMap.set 0xFF s.rack.jtagIr d code } }

/-- The boundary cells of a die. -/
def tapCells (d v : Nat) (s : State) : State :=
  { s with rack := { s.rack with jtagCells := SMap.set 0 s.rack.jtagCells d v } }

/-- A TAP effect of a die that has power. -/
def onTap (d : Nat) (f : State → State) (s : State) : State := if s.rack.powered.contains d then f s else s

/-- Whether EXTEST acts: before the die completes stage 5, or while it is stopped with a nonzero ERROR. -/
def extestActs (s : State) (d : Nat) : Bool :=
  Nat.blt (s.rd d Reg.DC_BOOT_STATUS_STAGE) 3 || s.rd d Reg.DC_BOOT_STATUS_ERROR != 0

/-- EXTEST: drives the boundary cells, or acts as BYPASS. -/
def jtagExtest (d : Nat) (cells : Word) (s : State) : State :=
  if extestActs s d then tapCells d cells.toNat (tapIr d 0x00 s) else tapIr d 0xFF s

def execJtagExtest (d : Nat) (cells : Word) (s : State) : Host.Outcome State Fault Refusal :=
  onDie s d (onTap d (jtagExtest d cells))

/-- The ID code of a stepping. -/
def idcode (stepping : Nat) : Nat :=
  stepping % 16 * 0x10000000 + 0x62F0 * 0x2000 + stepping / 16 % 2 * 0x1000 + 0x2F7 * 2 + 1

/-- IDCODE. -/
def execJtagIdcode (d : Nat) (s : State) : Host.Outcome State Fault Refusal :=
  onDie s d (onTap d (fun s => tapOut d (idcode (s.rd d Reg.DC_ID_STEPPING)) (tapIr d 0x01 s)))

/-- SAMPLE/PRELOAD: the cells take the bits shifted in; what the pins show is open (DESIGN CHOICE, log 55). -/
def jtagSamplePreload (d : Nat) (cells : Word) (s : State) : State :=
  let (k, s) := (tapIr d 0x02 s).free
  tapCells d cells.toNat (tapOut d (Config.freeWord k).toNat s)

def execJtagSamplePreload (d : Nat) (cells : Word) (s : State) : Host.Outcome State Fault Refusal :=
  onDie s d (onTap d (jtagSamplePreload d cells))

/-- DC_DEBUG: one 8-byte access with source MGP, while the port answers MGP (R580). -/
def jtagDcDebug (d : Nat) (dr : BitVec 96) (s : State) : State :=
  let addr := dr.toNat % 0x1000000
  let s := tapIr d 0x10 s
  if addr % 8 ≠ 0 || mgpReach s d addr ≠ 0 then s
  else if dr.toNat.testBit 24 then (portWrite d .mgp addr 8 (dr.toNat / 2 ^ 32) s).2
  else
    match portRead d .mgp addr 8 s with
    | (some v, s) => tapOut d v s
    | (none, s) => s

def execJtagDcDebug (d : Nat) (dr : BitVec 96) (s : State) : Host.Outcome State Fault Refusal :=
  onDie s d (onTap d (jtagDcDebug d dr))

/-- BYPASS, and every code that Table PHY-6 does not list. -/
def execJtagBypass (d : Nat) (code : BitVec 8) (s : State) : Host.Outcome State Fault Refusal :=
  onDie s d (onTap d (fun s => if [0x00, 0x01, 0x02, 0x10].contains code.toNat then s else tapIr d 0xFF s))

end Sys2Proof.Machine
end

