-- ==== Sys2Proof/Machine/HostAccess.lean ====
section
/-! DEFINITION. What a host reaches through the BARs of a function (R500–R505, R510–R512, R559): the function page, the
doorbells, the MSI-X table, the PF register window, the memory aperture and the ring windows. -/

namespace Sys2Proof.Machine

/-- One inbound access: the port, the function, its PASID, and the partition and instance that it addresses. -/
structure HostBy where
  port : Nat
  fn : Nat
  pasid : Option (BitVec 20)
  who : Option (Nat × Nat)
  deriving DecidableEq, Repr

def HostBy.die (h : HostBy) : Nat := portDie h.port

/-- The mediator's view: the PF without a PASID. -/
def HostBy.pf (h : HostBy) : Bool := h.fn == 0 && h.pasid.isNone

/-- Whether the function or PASID exists: a function up to NumVFs, a PASID of a slice instance (R498, R500). -/
def hostByOk (s : State) (h : HostBy) : Bool :=
  Nat.ble h.fn (SMap.get 0 s.host.numVfs h.port) && (h.pasid.isNone || h.who.isSome)

/-- HOST_APT_ERR counts an access that fails translation or permission (R512). -/
def aptErr (h : HostBy) (bad : Bool) (s : State) : State := if bad then s.count h.die Reg.HOST_APT_ERR 1 else s

/-! ### Memory (R504, R512) -/

/-- A translation through the die TLB of the port's die. -/
def portTranslate (b : XBy) (va : Nat) (w : Want3) (s : State) : XRes × State :=
  if 2 ^ 48 ≤ va then (.fault 3, s)
  else
    match tlbLook 1 0 b va s with
    | (some e, s) => (useEntry e va w, s.count b.die Reg.XLT_DTLB_HIT 1)
    | (none, s) =>
      match walk b va (s.count b.die Reg.XLT_DTLB_MISS 1) with
      | some (.inl e, s) =>
        (match useEntry e va w with
         | .fault c => (.fault c, s.count b.die Reg.XLT_WALK_FAULT 1)
         | .pa n => (.pa n, tlbPut e s))
      | some (.inr c, s) => (.fault c, s)
      | none => (.fault 3, s)

/-- Who translates for an instance at a host port: its HOST_FN_CTX on the port's die. -/
def portXBy (s : State) (h : HostBy) (p i : Nat) : XBy :=
  let ctx := s.rd h.die (Reg.HOST_FN_CTX_CTX (fnIndex s h.port h.fn h.pasid))
  ⟨h.die, 1, 0, p, i, ctx, 3, partSide s h.die p, 200⟩

/-- One sector read through an aperture: a VA of the instance. -/
def vaRead (h : HostBy) (p i va : Nat) (s : State) : InRes × State :=
  match portTranslate (portXBy s h p i) va .load s with
  | (.pa pa, s) => inRead h.die pa p s
  | (.fault _, s) => (.failed, s)

/-- One sector written through an aperture. -/
def vaWrite (h : HostBy) (p i : Nat) (ep : Bool) (va : Nat) (mask : BitVec 32) (v : SectorData) (s : State) : InRes × State :=
  match portTranslate (portXBy s h p i) va .store s with
  | (.pa pa, s) => inWrite h.die pa p mask v ep s
  | (.fault _, s) => (.failed, s)

/-- One sector read by the PF: the tag is that of the line's own half, and a sealed line reads zero (R448, R503). -/
def paRead (h : HostBy) (pa : Nat) (s : State) : InRes × State :=
  if 2 ^ 52 ≤ pa then (.failed, s)
  else
    match homePart s pa with
    | none => (.failed, s)
    | some p => if partSealed s p then (.ok 0 false, sealedAccess pa p 2 0 s) else inRead h.die pa p s

/-- One sector written by the PF. -/
def paWrite (h : HostBy) (ep : Bool) (pa : Nat) (mask : BitVec 32) (v : SectorData) (s : State) : InRes × State :=
  if 2 ^ 52 ≤ pa then (.failed, s)
  else
    match homePart s pa with
    | none => (.failed, s)
    | some p => if partSealed s p then (.ok 0 false, sealedAccess pa p 2 1 s) else inWrite h.die pa p mask v ep s

/-- Where aperture offset `off` starts: PBASE of the PF, VBASE of an instance. -/
def apertureBase (s : State) (h : HostBy) : Nat :=
  if h.pf then s.rd h.die (Reg.HOST_FN_PBASE 0) * 0x10000
  else s.rd h.die (Reg.HOST_FN_VBASE (fnIndex s h.port h.fn h.pasid)) * 0x10000

/-- An answer of bytes, of bytes with EP, or Unsupported Request. -/
def hostData (h : HostBy) (r : List Byte × Bool × Bool) (s : State) : State :=
  if r.2.2 then hostRsp h.port 1 false [] (aptErr h true s) else hostRsp h.port 0 r.2.1 r.1 s

/-- A read of `len` bytes of the aperture. -/
def apertureRead (h : HostBy) (off len : Nat) (s : State) : State :=
  let a := apertureBase s h + off
  if 2 ^ 36 < off + len then hostRsp h.port 1 false [] s
  else
    match h.who with
    | some (p, i) =>
      let (r, s) := inBytes (vaRead h p i) (len / 32 + 2) a len s
      hostData h r s
    | none =>
      if h.pf then
        let (r, s) := inBytes (paRead h) (len / 32 + 2) a len s
        hostData h r s
      else hostRsp h.port 1 false [] (aptErr h true s)

/-- A write of the aperture. -/
def apertureWrite (h : HostBy) (off : Nat) (data : List Byte) (ep : Bool) (s : State) : State :=
  let a := apertureBase s h + off
  let n := data.length / 32 + 2
  if 2 ^ 36 < off + data.length then s
  else
    match h.who with
    | some (p, i) =>
      let (bad, s) := inPut (vaWrite h p i ep) n a data s
      aptErr h bad s
    | none =>
      if h.pf then
        let (bad, s) := inPut (paWrite h ep) n a data s
        aptErr h bad s
      else aptErr h true s

/-! ### Ring windows (R501) -/

/-- The ring behind a window: its queue, its base, and its bytes. -/
def ringWindow (s : State) (h : HostBy) (k : Nat) : Option (Nat × Nat × Nat) :=
  match h.who with
  | none => none
  | some (p, i) =>
    ((windowsOf s p i)[k]?).map (fun q => (p, queBase s q, ringEntries s q * (if queKind s q = 3 then 16 else 64)))

/-- A read of the ring windows: beyond the ring, and in a window that the instance lacks, zeros. -/
def ringRead (h : HostBy) (off len : Nat) (s : State) : State :=
  let o := off % 0x400000
  let zeros (n : Nat) : List Byte := List.replicate n 0
  if 0x40000000 < off + len then hostRsp h.port 1 false [] s
  else
    match ringWindow s h (off / 0x400000) with
    | none => hostRsp h.port 0 false (zeros len) s
    | some (p, base, size) =>
      let n := min len (size - o)
      let (r, s) := inBytes (fun pa s => inRead h.die pa p s) (n / 32 + 2) (base + o) n s
      hostData h (r.1 ++ zeros (len - n), r.2) s

/-- A write of the ring windows: bytes beyond the ring are discarded. -/
def ringWrite (h : HostBy) (off : Nat) (data : List Byte) (ep : Bool) (s : State) : State :=
  let o := off % 0x400000
  if 0x40000000 < off + data.length then s
  else
    match ringWindow s h (off / 0x400000) with
    | none => s
    | some (p, base, size) =>
      let l := data.take (size - o)
      let (bad, s) := inPut (fun pa m v s => inWrite h.die pa p m v ep s) (l.length / 32 + 2) (base + o) l s
      aptErr h bad s

/-! ### BAR0 (Table HOST-2) -/

/-- The die and the register that an offset of the PF register window shows (R505). -/
def windowReg (s : State) (h : HostBy) (off : Nat) : Nat × Nat :=
  (s.rd h.die Reg.HOST_PF_DIE, s.rd h.die Reg.HOST_PF_WBASE * 0x80000 + (off - 0x80000))

/-- Whether the access is 4 or 8 bytes, naturally aligned (R560). -/
def regWidth (off len : Nat) : Bool := (len == 4 || len == 8) && off % len == 0

/-- A register read for a host: a die in reset, an unmapped register and a width that the port does not take are
Unsupported Requests (R576). -/
def hostRegRead (h : HostBy) (d : Nat) (src : Source) (addr len : Nat) (s : State) : State :=
  if !regWidth addr len || dieCount s.orderCode ≤ d || !dieUp s d then hostRsp h.port 1 false [] s
  else
    match portRead d src addr len s with
    | (some v, s) => hostRsp h.port 0 false (leBytes len v) s
    | (none, s) => hostRsp h.port 1 false [] s

/-- A register write from a host. -/
def hostRegWrite (d : Nat) (src : Source) (addr : Nat) (data : List Byte) (s : State) : State :=
  if !regWidth addr data.length || dieCount s.orderCode ≤ d || !dieUp s d then s
  else (portWrite d src addr data.length (ofLe data) s).2

/-- The register of a function page (R559). -/
def pageReg (s : State) (h : HostBy) (off : Nat) : Nat := 0x781000 + 0x20 * fnIndex s h.port h.fn h.pasid + off

/-- The MSI-X table of a requester: what was written reads back (R502). -/
def msixRead (s : State) (h : HostBy) (off len : Nat) : List Byte :=
  let f := fnIndex s h.port h.fn h.pasid
  (List.range len).map (fun k =>
    ((s.host.msixTab.find? (fun x => Nat.beq x.1 h.port && Nat.beq x.2.1 f && Nat.beq x.2.2.1 (off + k))).map (·.2.2.2)).getD 0)

def msixWrite (h : HostBy) (off : Nat) (data : List Byte) (s : State) : State :=
  let f := fnIndex s h.port h.fn h.pasid
  each ((List.range data.length).zip data) (fun s x =>
    let mine (y : Nat × Nat × Nat × Byte) : Bool := Nat.beq y.1 h.port && Nat.beq y.2.1 f && Nat.beq y.2.2.1 (off + x.1)
    { s with host := { s.host with msixTab := putWhere mine (h.port, f, off + x.1, x.2) s.host.msixTab } }) s

/-- A read of BAR0. A doorbell and the pending bit array read zero. -/
def bar0Read (h : HostBy) (off len : Nat) (s : State) : State :=
  let zeros : List Byte := List.replicate len 0
  let fin := off + len
  if fin ≤ 0x20 then
    let f := fnIndex s h.port h.fn h.pasid
    hostRegRead h h.die (.page h.port f) (pageReg s h off) len s
  else if 0x10000 ≤ off && fin ≤ 0x10800 then hostRsp h.port 0 false zeros s
  else if 0x20000 ≤ off && fin ≤ 0x20400 then hostRsp h.port 0 false (msixRead s h (off - 0x20000) len) s
  else if 0x30000 ≤ off && fin ≤ 0x30008 then hostRsp h.port 0 false zeros s
  else if h.pf && 0x80000 ≤ off && fin ≤ 0x100000 then
    let (d, addr) := windowReg s h off
    hostRegRead h d (.pf h.port) addr len s
  else hostRsp h.port 1 false [] s

/-- A write of BAR0. A doorbell write at no multiple of 8 is one of another length (R502). -/
def bar0Write (h : HostBy) (off : Nat) (data : List Byte) (s : State) : State :=
  let len := data.length
  let fin := off + len
  if fin ≤ 0x20 then
    let f := fnIndex s h.port h.fn h.pasid
    hostRegWrite h.die (.page h.port f) (pageReg s h off) data s
  else if 0x10000 ≤ off && off < 0x10800 then
    let o := off - 0x10000
    doorbell h.port h.fn h.pasid (o / 8) (if o % 8 = 0 then len else 0) (BitVec.ofNat 64 (ofLe data)) s
  else if 0x20000 ≤ off && fin ≤ 0x20400 then msixWrite h (off - 0x20000) data s
  else if h.pf && 0x80000 ≤ off && fin ≤ 0x100000 then
    let (d, addr) := windowReg s h off
    hostRegWrite d (.pf h.port) addr data s
  else s

/-! ### The access (R510, R511, R521) -/

/-- Whether the port shows the place before it is ATTACHED: the PF's function page, and a doorbell, which is discarded
under R502. -/
def openEarly (h : HostBy) (bar off : Nat) (write : Bool) : Bool :=
  bar == 0 && (h.pf && Nat.blt off 0x20 || write && Nat.ble 0x10000 off && Nat.blt off 0x10800)

/-- A write of the doorbell windows. -/
def isDoorbell (bar off : Nat) : Bool := bar == 0 && Nat.ble 0x10000 off && Nat.blt off 0x10800

/-- The write of one TLP. -/
def barWrite (h : HostBy) (bar off : Nat) (data : List Byte) (ep : Bool) (s : State) : State :=
  match bar with
  | 0 => bar0Write h off data s
  | 2 => apertureWrite h off data ep s
  | 4 => ringWrite h off data ep s
  | _ => s

/-- A multi-TLP write goes on, naming its last committed TLP, or ends (R521). -/
def noteBurst (h : HostBy) (off len : Nat) (more : Bool) (s : State) : State :=
  let mine (b : Burst) : Bool := Nat.beq b.port h.port && Nat.beq b.fn h.fn && b.pasid == h.pasid
  let rest := s.host.bursts.filter (fun b => !mine b)
  { s with host := { s.host with bursts := if more then rest ++ [⟨h.port, h.fn, h.pasid, off, len⟩] else rest } }

/-- HOST_APERTURE_WRITE: one inbound write TLP; `more` says that further TLPs of the same write follow. A doorbell from a
PASID that no instance has is discarded under R438, so it is counted. -/
def hostWrite (port fn : Nat) (pasid : Option (BitVec 20)) (bar off : Nat) (data : List Byte) (ep more : Bool) (s : State) :
    State :=
  let h : HostBy := ⟨port, fn, pasid, requesterInst s port fn pasid⟩
  if !portLive s port || attachOf s port = 0 || data.isEmpty then s
  else if !hostByOk s h && !(isDoorbell bar off && Nat.ble fn (SMap.get 0 s.host.numVfs port)) then s
  else if attachOf s port ≠ 2 && !openEarly h bar off true then s
  else noteBurst h off data.length more (barWrite h bar off data ep s)

def execHostApertureWrite (port fn : Nat) (pasid : Option (BitVec 20)) (bar off : Nat) (data : List Byte) (ep more : Bool)
    (s : State) : Host.Outcome State Fault Refusal :=
  onDie s (portDie port) (hostWrite port fn pasid bar off data ep more)

/-- The read of one TLP. -/
def barRead (h : HostBy) (bar off len : Nat) (s : State) : State :=
  match bar with
  | 0 => bar0Read h off len s
  | 2 => apertureRead h off len s
  | 4 => ringRead h off len s
  | _ => hostRsp h.port 1 false [] s

/-- HOST_APERTURE_READ. A port whose link is down answers nothing. -/
def hostRead (port fn : Nat) (pasid : Option (BitVec 20)) (bar off len : Nat) (s : State) : State :=
  let h : HostBy := ⟨port, fn, pasid, requesterInst s port fn pasid⟩
  if !portLive s port || attachOf s port = 0 || len = 0 then s
  else if !hostByOk s h || (attachOf s port ≠ 2 && !openEarly h bar off false) then hostRsp port 1 false [] s
  else barRead h bar off len s

def execHostApertureRead (port fn : Nat) (pasid : Option (BitVec 20)) (bar off len : Nat) (s : State) :
    Host.Outcome State Fault Refusal :=
  onDie s (portDie port) (hostRead port fn pasid bar off len)

end Sys2Proof.Machine
end

