-- ==== Sys2Proof/Machine/Matrix.lean ====
section
/-! DEFINITION. The matrix opcodes (R141–R143, Table ISA-8): exact sums of products, rounded once. -/

namespace Sys2Proof.Machine

/-- A[m][k] as held: the thread, the register within the group, the element (Table ISA-8). `q` is elements per
register of a row, 4 for MMA8 and 2 for MMA16. B[k][n] lies the same with n for m. -/
def mmaSlot (q m k : Nat) : Nat × Nat × Nat := (k % (2 * q) / q * 16 + m, k / (2 * q), k % q)

/-- One element of A or B: type code, group base and scale pair (none where SCALE = 0). -/
def mmaElem (t : Troupe) (ty base : Nat) (sc : Option Nat) (q m k : Nat) : FV :=
  let (lane, j, b) := mmaSlot q m k
  let x := elem (typeWidth ty) b (t.v (base + j) lane).toNat
  match sc with
  | some p => scaledFp8 ty x (elem 8 (lane / 8) (t.s (2 * p + j)).toNat)
  | none => (fmtOf ty).decode x

/-- C[m][n] and D[m][n]: register within the group and thread (Table ISA-8). -/
def accSlot (m n : Nat) : Nat × Nat := (m / 2, m % 2 * 16 + n)

/-- One element of D (R141): the products over k and the element of C, summed exactly and rounded once. -/
def mmaCell (t : Troupe) (w tyA tyB q kk m n : Nat) : Nat :=
  let scA := if fScaleM w then some (fSSA w) else none
  let scB := if fScaleM w then some (fSSB w) else none
  let c := if fZC w then FV.num false 0 0
    else fp32.decode (t.v (fVC w + (accSlot m n).1) (accSlot m n).2).toNat
  let sum := (List.range kk).foldl (fun acc k =>
    FV.add 0 acc (FV.mul (mmaElem t tyA (fA w) scA q m k) (mmaElem t tyB (fVB w) scB q n k))) c
  fp32.encode 0 .ieee sum

/-- Groups of `a` of `k` registers and `b` of `j` registers that share a register. -/
def overlap (a k b j : Nat) : Bool := Nat.blt a (b + j) && Nat.blt b (a + k)

/-- The shape rules of R143. With ZC = 1 there is no C group. -/
def mmaShape (i : Iss) : Bool :=
  let w := i.w
  groupOk i.t.rows (fD w) 8 && groupOk i.t.rows (fA w) 2 && groupOk i.t.rows (fVB w) 2
    && (fZC w || groupOk i.t.rows (fVC w) 8)
    && ((!(fZC w) && Nat.beq (fD w) (fVC w)) || (!(overlap (fD w) 8 (fA w) 2) && !(overlap (fD w) 8 (fVB w) 2)))
    && Nat.beq i.cohort.length 32 && (i.act.isEmpty || Nat.beq i.act.length 32)

/-- The whole of D written. -/
def mmaWrite (i : Iss) (tyA tyB q kk : Nat) : Troupe :=
  (List.range 256).foldl (fun t e =>
    let m := e / 16
    let n := e % 16
    t.setV (fD i.w + (accSlot m n).1) (accSlot m n).2 (BitVec.ofNat 32 (mmaCell i.t i.w tyA tyB q kk m n))) i.t

/-- Whether a guard is 1 in some thread of the troupe. -/
def anyGuard (i : Iss) : Bool := (List.range 32).any (guardOf i.t i.w)

/-- An MMA (R143): no effect where the guard is 0 in all 32 threads, else the shape rules, else D. -/
def mmaEff (tyA tyB : Nat → Nat) (q kk : Nat) (i : Iss) (s : State) : Eff :=
  if outLow s i.t.die i.t.cluster then .wait
  else if !anyGuard i then .done i.t s
  else if mmaShape i then .done (mmaWrite i (tyA i.w) (tyB i.w) q kk) s
  else .trap 0x06 (i.cohort.headD 0) 0 s

/-- AFMT and BFMT (Table ISA-3). -/
def fmt8 (b : Bool) : Nat := if b then 4 else 3
def fmt16 (b : Bool) : Nat := if b then 1 else 2

def mma8Eff : Iss → State → Eff := mmaEff (fun w => fmt8 (fAfmt w)) (fun w => fmt8 (fBfmt w)) 4 16
def mma16Eff : Iss → State → Eff := mmaEff (fun w => fmt16 (fAfmt w)) (fun w => fmt16 (fBfmt w)) 2 8

def execMma8 (a : Issue) (f : BitVec 56) (s : State) : Host.Outcome State Fault Refusal := coreOp a 0x80 f mma8Eff s
def execMma16 (a : Issue) (f : BitVec 56) (s : State) : Host.Outcome State Fault Refusal := coreOp a 0x81 f mma16Eff s

end Sys2Proof.Machine
end

