-- ==== Sys2Proof/Machine/Dispatch.lean ====
section
/-! DEFINITION. Which meaning each command has: one arm per constructor of `Instr`, in the table's order. -/

namespace Sys2Proof.Machine

open Sys2Proof

def exec (i : Instr) (s : State) : Host.Outcome State Fault Refusal :=
  match i with
  | .doorbell port fn pasid window len v => Sys2Proof.Machine.execDoorbell port fn pasid window len v s
  | .arbiterGrant d => Sys2Proof.Machine.execArbiterGrant d s
  | .govHold d => Sys2Proof.Machine.execGovHold d s
  | .bucketRefill d => Sys2Proof.Machine.execBucketRefill d s
  | .instanceBucketRefill d => Sys2Proof.Machine.execInstanceBucketRefill d s
  | .sectorCountReport d j sectors remote => Sys2Proof.Machine.execSectorCountReport d j sectors remote s
  | .monitorSample d mon code refOk => Sys2Proof.Machine.execMonitorSample d mon code refOk s
  | .tripRestart d => Sys2Proof.Machine.execTripRestart d s
  | .cclkStepChange d => Sys2Proof.Machine.execCclkStepChange d s
  | .pllLock d => Sys2Proof.Machine.execPllLock d s
  | .pllLockTimeout d => Sys2Proof.Machine.execPllLockTimeout d s
  | .pllLossOfLock d => Sys2Proof.Machine.execPllLossOfLock d s
  | .refclkLoss => Sys2Proof.Machine.execRefclkLoss s
  | .spinePlaneLoss plane => Sys2Proof.Machine.execSpinePlaneLoss plane s
  | .dieReset d => Sys2Proof.Machine.execDieReset d s
  | .moduleReset m => Sys2Proof.Machine.execModuleReset m s
  | .rackReset => Sys2Proof.Machine.execRackReset s
  | .fuseRead d f => Sys2Proof.Machine.execFuseRead d f s
  | .bootFirmwareLoad d => Sys2Proof.Machine.execBootFirmwareLoad d s
  | .hbmTraining d failed => Sys2Proof.Machine.execHbmTraining d failed s
  | .runtimeFirmwareHandover h => Sys2Proof.Machine.execRuntimeFirmwareHandover h s
  | .wardenBoot d => Sys2Proof.Machine.execWardenBoot d s
  | .moduleRollCall d after30ms => Sys2Proof.Machine.execModuleRollCall d after30ms s
  | .beaconSend kind agent => Sys2Proof.Machine.execBeaconSend kind agent s
  | .beacon observer port bytes => Sys2Proof.Machine.execBeacon observer port bytes s
  | .beaconSlotMissed observer kind agent => Sys2Proof.Machine.execBeaconSlotMissed observer kind agent s
  | .deadNotice agent d inc => Sys2Proof.Machine.execDeadNotice agent d inc s
  | .reclaimTimeout d dead => Sys2Proof.Machine.execReclaimTimeout d dead s
  | .masterElection d => Sys2Proof.Machine.execMasterElection d s
  | .rtimeExchange d t1 t2 t3 t4 => Sys2Proof.Machine.execRtimeExchange d t1 t2 t3 t4 s
  | .rtimeRemeasure d offset => Sys2Proof.Machine.execRtimeRemeasure d offset s
  | .censusClose elapsedMs => Sys2Proof.Machine.execCensusClose elapsedMs s
  | .untestedAccept digest => Sys2Proof.Machine.execUntestedAccept digest s
  | .stageTimeout d => Sys2Proof.Machine.execStageTimeout d s
  | .imgCheck bytes => Sys2Proof.Machine.execImgCheck bytes s
  | .imgStage unwritable => Sys2Proof.Machine.execImgStage unwritable s
  | .imgQuiesce => Sys2Proof.Machine.execImgQuiesce s
  | .quiesceIdle => Sys2Proof.Machine.execQuiesceIdle s
  | .quiesceTimeout => Sys2Proof.Machine.execQuiesceTimeout s
  | .imgCommit agent time => Sys2Proof.Machine.execImgCommit agent time s
  | .commitRelay agent sender serial time => Sys2Proof.Machine.execCommitRelay agent sender serial time s
  | .commitSwap agent => Sys2Proof.Machine.execCommitSwap agent s
  | .imgRelease => Sys2Proof.Machine.execImgRelease s
  | .imgAbort => Sys2Proof.Machine.execImgAbort s
  | .loadAgentTimeout agent => Sys2Proof.Machine.execLoadAgentTimeout agent s
  | .vadd at_ f => Sys2Proof.Machine.execVadd at_ f s
  | .vsub at_ f => Sys2Proof.Machine.execVsub at_ f s
  | .vmul at_ f => Sys2Proof.Machine.execVmul at_ f s
  | .vfma at_ f => Sys2Proof.Machine.execVfma at_ f s
  | .vmin at_ f => Sys2Proof.Machine.execVmin at_ f s
  | .vmax at_ f => Sys2Proof.Machine.execVmax at_ f s
  | .vabs at_ f => Sys2Proof.Machine.execVabs at_ f s
  | .vneg at_ f => Sys2Proof.Machine.execVneg at_ f s
  | .vlog at_ f => Sys2Proof.Machine.execVlog at_ f s
  | .vshl at_ f => Sys2Proof.Machine.execVshl at_ f s
  | .vshr at_ f => Sys2Proof.Machine.execVshr at_ f s
  | .vcmp at_ f => Sys2Proof.Machine.execVcmp at_ f s
  | .vsel at_ f => Sys2Proof.Machine.execVsel at_ f s
  | .vcvt at_ f => Sys2Proof.Machine.execVcvt at_ f s
  | .vdot4 at_ f => Sys2Proof.Machine.execVdot4 at_ f s
  | .vmov at_ f => Sys2Proof.Machine.execVmov at_ f s
  | .vrcp at_ f => Sys2Proof.Machine.execVrcp at_ f s
  | .vrsq at_ f => Sys2Proof.Machine.execVrsq at_ f s
  | .vexp2 at_ f => Sys2Proof.Machine.execVexp2 at_ f s
  | .vlog2 at_ f => Sys2Proof.Machine.execVlog2 at_ f s
  | .vshfl at_ f => Sys2Proof.Machine.execVshfl at_ f s
  | .vred at_ f => Sys2Proof.Machine.execVred at_ f s
  | .vadds at_ imm f => Sys2Proof.Machine.execVadds at_ imm f s
  | .vsubs at_ imm f => Sys2Proof.Machine.execVsubs at_ imm f s
  | .vmuls at_ imm f => Sys2Proof.Machine.execVmuls at_ imm f s
  | .vfmas at_ imm f => Sys2Proof.Machine.execVfmas at_ imm f s
  | .vmins at_ imm f => Sys2Proof.Machine.execVmins at_ imm f s
  | .vmaxs at_ imm f => Sys2Proof.Machine.execVmaxs at_ imm f s
  | .vcmps at_ imm f => Sys2Proof.Machine.execVcmps at_ imm f s
  | .vmovs at_ imm f => Sys2Proof.Machine.execVmovs at_ imm f s
  | .sadd at_ imm f => Sys2Proof.Machine.execSadd at_ imm f s
  | .ssub at_ imm f => Sys2Proof.Machine.execSsub at_ imm f s
  | .smul at_ imm f => Sys2Proof.Machine.execSmul at_ imm f s
  | .slog at_ imm f => Sys2Proof.Machine.execSlog at_ imm f s
  | .ssh at_ imm f => Sys2Proof.Machine.execSsh at_ imm f s
  | .smov at_ imm f => Sys2Proof.Machine.execSmov at_ imm f s
  | .scmp at_ imm f => Sys2Proof.Machine.execScmp at_ imm f s
  | .sadd64 at_ imm f => Sys2Proof.Machine.execSadd64 at_ imm f s
  | .sread at_ f => Sys2Proof.Machine.execSread at_ f s
  | .vread at_ f => Sys2Proof.Machine.execVread at_ f s
  | .v2s at_ f => Sys2Proof.Machine.execV2s at_ f s
  | .vbal at_ f => Sys2Proof.Machine.execVbal at_ f s
  | .l1inv at_ f => Sys2Proof.Machine.execL1inv at_ f s
  | .sleep at_ f => Sys2Proof.Machine.execSleep at_ f s
  | .sleepExpiry t => Sys2Proof.Machine.execSleepExpiry t s
  | .ld at_ f => Sys2Proof.Machine.execLd at_ f s
  | .st at_ f => Sys2Proof.Machine.execSt at_ f s
  | .ldAcq at_ f => Sys2Proof.Machine.execLdAcq at_ f s
  | .stRel at_ f => Sys2Proof.Machine.execStRel at_ f s
  | .ldl at_ f => Sys2Proof.Machine.execLdl at_ f s
  | .stl at_ f => Sys2Proof.Machine.execStl at_ f s
  | .ldu at_ f => Sys2Proof.Machine.execLdu at_ f s
  | .pref at_ f => Sys2Proof.Machine.execPref at_ f s
  | .atom at_ f => Sys2Proof.Machine.execAtom at_ f s
  | .atomAr at_ f => Sys2Proof.Machine.execAtomAr at_ f s
  | .atomf at_ f => Sys2Proof.Machine.execAtomf at_ f s
  | .atomfAr at_ f => Sys2Proof.Machine.execAtomfAr at_ f s
  | .atoml at_ f => Sys2Proof.Machine.execAtoml at_ f s
  | .fence at_ f => Sys2Proof.Machine.execFence at_ f s
  | .redst at_ f => Sys2Proof.Machine.execRedst at_ f s
  | .ldkv at_ f => Sys2Proof.Machine.execLdkv at_ f s
  | .stkv at_ f => Sys2Proof.Machine.execStkv at_ f s
  | .bra at_ f => Sys2Proof.Machine.execBra at_ f s
  | .call at_ f => Sys2Proof.Machine.execCall at_ f s
  | .jmpr at_ f => Sys2Proof.Machine.execJmpr at_ f s
  | .converge at_ f => Sys2Proof.Machine.execConverge at_ f s
  | .convergeTimeout t => Sys2Proof.Machine.execConvergeTimeout t s
  | .yield at_ f => Sys2Proof.Machine.execYield at_ f s
  | .yieldTimeout t => Sys2Proof.Machine.execYieldTimeout t s
  | .barc at_ f => Sys2Proof.Machine.execBarc at_ f s
  | .exit at_ f => Sys2Proof.Machine.execExit at_ f s
  | .nop at_ f => Sys2Proof.Machine.execNop at_ f s
  | .trap at_ f => Sys2Proof.Machine.execTrap at_ f s
  | .mma8 at_ f => Sys2Proof.Machine.execMma8 at_ f s
  | .mma16 at_ f => Sys2Proof.Machine.execMma16 at_ f s
  | .kill d part inst ctx => Sys2Proof.Machine.execKill d part inst ctx s
  | .troupePlacement d cluster => Sys2Proof.Machine.execTroupePlacement d cluster s
  | .troupeEnd t => Sys2Proof.Machine.execTroupeEnd t s
  | .launchDetach queue index => Sys2Proof.Machine.execLaunchDetach queue index s
  | .launchRetire queue index => Sys2Proof.Machine.execLaunchRetire queue index s
  | .irqCoalesceTimeout d e => Sys2Proof.Machine.execIrqCoalesceTimeout d e s
  | .sliceReadRequest d n r => Sys2Proof.Machine.execSliceReadRequest d n r s
  | .sliceWriteRequest d n r mask data => Sys2Proof.Machine.execSliceWriteRequest d n r mask data s
  | .sliceAtomicRequest d n r op wide signed a b => Sys2Proof.Machine.execSliceAtomicRequest d n r op wide signed a b s
  | .retryBackoffExpiry requester => Sys2Proof.Machine.execRetryBackoffExpiry requester s
  | .starveHoldLapse d n => Sys2Proof.Machine.execStarveHoldLapse d n s
  | .sliceFillReturn d n line bad => Sys2Proof.Machine.execSliceFillReturn d n line bad s
  | .fillTimeout d n line => Sys2Proof.Machine.execFillTimeout d n line s
  | .sliceSramError d n kind line sector => Sys2Proof.Machine.execSliceSramError d n kind line sector s
  | .channelFailure d n => Sys2Proof.Machine.execChannelFailure d n s
  | .halfLinkCrossing d p => Sys2Proof.Machine.execHalfLinkCrossing d p s
  | .ucPin d src lines part => Sys2Proof.Machine.execUcPin d src lines part s
  | .ucUnpin d src lines part => Sys2Proof.Machine.execUcUnpin d src lines part s
  | .gets m => Sys2Proof.Machine.execGets m s
  | .getm m => Sys2Proof.Machine.execGetm m s
  | .upg m => Sys2Proof.Machine.execUpg m s
  | .puts m => Sys2Proof.Machine.execPuts m s
  | .putm m => Sys2Proof.Machine.execPutm m s
  | .puto m => Sys2Proof.Machine.execPuto m s
  | .fwdgets m => Sys2Proof.Machine.execFwdgets m s
  | .fwdgetm m => Sys2Proof.Machine.execFwdgetm m s
  | .inv m => Sys2Proof.Machine.execInv m s
  | .invack m => Sys2Proof.Machine.execInvack m s
  | .data m => Sys2Proof.Machine.execData m s
  | .dataexcl m => Sys2Proof.Machine.execDataexcl m s
  | .datap m => Sys2Proof.Machine.execDatap m s
  | .dataexclp m => Sys2Proof.Machine.execDataexclp m s
  | .wback m => Sys2Proof.Machine.execWback m s
  | .nack m => Sys2Proof.Machine.execNack m s
  | .cohTimeout d n line home => Sys2Proof.Machine.execCohTimeout d n line home s
  | .cohQuery d src => Sys2Proof.Machine.execCohQuery d src s
  | .toashFrame d port header flits crc => Sys2Proof.Machine.execToashFrame d port header flits crc s
  | .toashNak d port lastGood => Sys2Proof.Machine.execToashNak d port lastGood s
  | .toashRetrain d port width => Sys2Proof.Machine.execToashRetrain d port width s
  | .toashPortDown d port => Sys2Proof.Machine.execToashPortDown d port s
  | .redPacket w x => Sys2Proof.Machine.execRedPacket w x s
  | .redHoldExpiry w k => Sys2Proof.Machine.execRedHoldExpiry w k s
  | .treeNodeForward w k elapsed => Sys2Proof.Machine.execTreeNodeForward w k elapsed s
  | .redAccumulate d n x => Sys2Proof.Machine.execRedAccumulate d n x s
  | .redTimeout d n k => Sys2Proof.Machine.execRedTimeout d n k s
  | .seqctlCreate it => Sys2Proof.Machine.execSeqctlCreate it s
  | .seqctlDestroy it => Sys2Proof.Machine.execSeqctlDestroy it s
  | .stepOpen it => Sys2Proof.Machine.execStepOpen it s
  | .stepClose it => Sys2Proof.Machine.execStepClose it s
  | .truncate it => Sys2Proof.Machine.execTruncate it s
  | .seqctlSet it => Sys2Proof.Machine.execSeqctlSet it s
  | .btinval it => Sys2Proof.Machine.execBtinval it s
  | .seqctlLink it => Sys2Proof.Machine.execSeqctlLink it s
  | .seqctlUnlink it => Sys2Proof.Machine.execSeqctlUnlink it s
  | .seqctlQuery it => Sys2Proof.Machine.execSeqctlQuery it s
  | .arm it => Sys2Proof.Machine.execArm it s
  | .attachExchange queue index => Sys2Proof.Machine.execAttachExchange queue index s
  | .stepRetire seq => Sys2Proof.Machine.execStepRetire seq s
  | .queEnable d n src v => Sys2Proof.Machine.execQueEnable d n src v s
  | .queReset d n src => Sys2Proof.Machine.execQueReset d n src s
  | .movEnd d m => Sys2Proof.Machine.execMovEnd d m s
  | .movCopy d m => Sys2Proof.Machine.execMovCopy d m s
  | .shift d m => Sys2Proof.Machine.execShift d m s
  | .gather d m => Sys2Proof.Machine.execGather d m s
  | .scatter d m => Sys2Proof.Machine.execScatter d m s
  | .movFill d m => Sys2Proof.Machine.execMovFill d m s
  | .wait d m => Sys2Proof.Machine.execWait d m s
  | .waitPoll d m => Sys2Proof.Machine.execWaitPoll d m s
  | .waitTimeout d m => Sys2Proof.Machine.execWaitTimeout d m s
  | .signal d m => Sys2Proof.Machine.execSignal d m s
  | .jump d m => Sys2Proof.Machine.execJump d m s
  | .movProgWrite d w src v => Sys2Proof.Machine.execMovProgWrite d w src v s
  | .movSlotWrite d slot src v => Sys2Proof.Machine.execMovSlotWrite d slot src v s
  | .restart d m pc src => Sys2Proof.Machine.execRestart d m pc src s
  | .abort d m src => Sys2Proof.Machine.execAbort d m src s
  | .movHaltTimeout d m => Sys2Proof.Machine.execMovHaltTimeout d m s
  | .partnerCompletion port tag status data => Sys2Proof.Machine.execPartnerCompletion port tag status data s
  | .completionTimeout port tag => Sys2Proof.Machine.execCompletionTimeout port tag s
  | .goLive d part inst src => Sys2Proof.Machine.execGoLive d part inst src s
  | .instReset d part inst src => Sys2Proof.Machine.execInstReset d part inst src s
  | .partReset d part src => Sys2Proof.Machine.execPartReset d part src s
  | .resetComplete part inst => Sys2Proof.Machine.execResetComplete part inst s
  | .flr port f => Sys2Proof.Machine.execFlr port f s
  | .powerGate d kind index src => Sys2Proof.Machine.execPowerGate d kind index src s
  | .clockStop d kind index src => Sys2Proof.Machine.execClockStop d kind index src s
  | .restore d kind index src => Sys2Proof.Machine.execRestore d kind index src s
  | .stringTimeout d => Sys2Proof.Machine.execStringTimeout d s
  | .wardStrWrite d kind w src v => Sys2Proof.Machine.execWardStrWrite d kind w src v s
  | .wardDown d cause => Sys2Proof.Machine.execWardDown d cause s
  | .wardMboxInWrite d src v => Sys2Proof.Machine.execWardMboxInWrite d src v s
  | .wardMboxInRead d src => Sys2Proof.Machine.execWardMboxInRead d src s
  | .wardMboxOutWrite d src v => Sys2Proof.Machine.execWardMboxOutWrite d src v s
  | .wardMboxOutRead d src => Sys2Proof.Machine.execWardMboxOutRead d src s
  | .partSram d kind index => Sys2Proof.Machine.execPartSram d kind index s
  | .irqMapAddrWrite d e src v => Sys2Proof.Machine.execIrqMapAddrWrite d e src v s
  | .irqMapDataWrite d e src v => Sys2Proof.Machine.execIrqMapDataWrite d e src v s
  | .irqMapHoldTimeout d e => Sys2Proof.Machine.execIrqMapHoldTimeout d e s
  | .irqUnmask d e src => Sys2Proof.Machine.execIrqUnmask d e src s
  | .xltInvalRange d part inst ctx count src => Sys2Proof.Machine.execXltInvalRange d part inst ctx count src s
  | .xltInvalContext d part inst ctx src => Sys2Proof.Machine.execXltInvalContext d part inst ctx src s
  | .xltInvalInstance d part inst src => Sys2Proof.Machine.execXltInvalInstance d part inst src s
  | .xltInvalPartition d part src => Sys2Proof.Machine.execXltInvalPartition d part src s
  | .xltInvTimeout d silent => Sys2Proof.Machine.execXltInvTimeout d silent s
  | .xltCtxBaseWrite d j src v => Sys2Proof.Machine.execXltCtxBaseWrite d j src v s
  | .pageWalk d cluster part inst ctx va write exec => Sys2Proof.Machine.execPageWalk d cluster part inst ctx va write exec s
  | .linkUp port speed width flit capacity => Sys2Proof.Machine.execLinkUp port speed width flit capacity s
  | .hostLinkDown port cause => Sys2Proof.Machine.execHostLinkDown port cause s
  | .hostAbi port abi => Sys2Proof.Machine.execHostAbi port abi s
  | .hostApertureWrite port fn pasid bar off data ep more => Sys2Proof.Machine.execHostApertureWrite port fn pasid bar off data ep more s
  | .hostApertureRead port fn pasid bar off len => Sys2Proof.Machine.execHostApertureRead port fn pasid bar off len s
  | .atsInvalidation port addr len => Sys2Proof.Machine.execAtsInvalidation port addr len s
  | .bridgeRequest plane bport racks index off len write => Sys2Proof.Machine.execBridgeRequest plane bport racks index off len write s
  | .ptWrite d index src => Sys2Proof.Machine.execPtWrite d index src s
  | .ptRead d index src => Sys2Proof.Machine.execPtRead d index src s
  | .ptRetire d index src => Sys2Proof.Machine.execPtRetire d index src s
  | .hostPortError port kind status header => Sys2Proof.Machine.execHostPortError port kind status header s
  | .recordAccept d => Sys2Proof.Machine.execRecordAccept d s
  | .recordDrain d => Sys2Proof.Machine.execRecordDrain d s
  | .recTest d src v => Sys2Proof.Machine.execRecTest d src v s
  | .recFailClearClusters d src => Sys2Proof.Machine.execRecFailClearClusters d src s
  | .recFailClearChans d src => Sys2Proof.Machine.execRecFailClearChans d src s
  | .recFailClearHalves d src => Sys2Proof.Machine.execRecFailClearHalves d src s
  | .stagingSramError d index => Sys2Proof.Machine.execStagingSramError d index s
  | .regRead frame => Sys2Proof.Machine.execRegRead frame s
  | .regWrite frame => Sys2Proof.Machine.execRegWrite frame s
  | .registerWrite d addr size src v => Sys2Proof.Machine.execRegisterWrite d addr size src v s
  | .rcRegisterRead d addr size src => Sys2Proof.Machine.execRcRegisterRead d addr size src s
  | .jtagExtest d cells => Sys2Proof.Machine.execJtagExtest d cells s
  | .jtagIdcode d => Sys2Proof.Machine.execJtagIdcode d s
  | .jtagSamplePreload d cells => Sys2Proof.Machine.execJtagSamplePreload d cells s
  | .jtagDcDebug d dr => Sys2Proof.Machine.execJtagDcDebug d dr s
  | .jtagBypass d code => Sys2Proof.Machine.execJtagBypass d code s
  | .shelfPowerGood shelf => Sys2Proof.Machine.execShelfPowerGood shelf s
  | .modEnAssert spine0 spine1 after120s => Sys2Proof.Machine.execModEnAssert spine0 spine1 after120s s
  | .diePowerGood d => Sys2Proof.Machine.execDiePowerGood d s
  | .modEnDrop m => Sys2Proof.Machine.execModEnDrop m s
  | .busbarLoss => Sys2Proof.Machine.execBusbarLoss s
  | .cduCheck inlet flow => Sys2Proof.Machine.execCduCheck inlet flow s
  | .leak m => Sys2Proof.Machine.execLeak m s
  | .stageFault d => Sys2Proof.Machine.execStageFault d s
  | .moduleInsert m => Sys2Proof.Machine.execModuleInsert m s
  | .moduleFlashWrite m image copy c => Sys2Proof.Machine.execModuleFlashWrite m image copy c s
  | .toashPortTrained d port width => Sys2Proof.Machine.execToashPortTrained d port width s
  | .clusterFailure d cluster => Sys2Proof.Machine.execClusterFailure d cluster s
  | .routerFailure d cluster => Sys2Proof.Machine.execRouterFailure d cluster s
  | .halfLinkLaneDown d lane => Sys2Proof.Machine.execHalfLinkLaneDown d lane s
  | .seqEngineFailure d slot => Sys2Proof.Machine.execSeqEngineFailure d slot s
  | .illegalInstruction at_ w => Sys2Proof.Machine.execIllegalInstruction at_ w s
  | .moverIllegalInstruction d m => Sys2Proof.Machine.execMoverIllegalInstruction d m s
  | .shelfFailure shelf whole => Sys2Proof.Machine.execShelfFailure shelf whole s
  | .rmBoot pairing rack spine0 spine1 setUp => Sys2Proof.Machine.execRmBoot pairing rack spine0 spine1 setUp s
  | .moduleRemove m => Sys2Proof.Machine.execModuleRemove m s
  | .spineSledReplace plane => Sys2Proof.Machine.execSpineSledReplace plane s
  | .configurationRequest port f reg write => Sys2Proof.Machine.execConfigurationRequest port f reg write s

end Sys2Proof.Machine
end

