-- ==== Sys2Proof/Machine/Step.lean ====
section
/-! DEFINITION. One step of the rack: the command at the front of the queue, or one REFCLK edge. -/

namespace Sys2Proof.Machine

/-- One step: the command at the front of the queue acts with the queue's rest. On an empty queue one edge of REFCLK
passes (R31, DESIGN CHOICE, log 8). -/
def step (s : State) : Host.Outcome State Fault Refusal :=
  match s.pending with
  | [] => .next (refclkEdge s)
  | c :: rest => exec c { s with pending := rest }

/-- `s` with the command that a word spells at the front of its queue; a word that spells none leaves it. -/
def State.withFetchWord (s : State) (nbits w : Nat) : State :=
  match decodeTableWord nbits w with
  | some c => { s with pending := c :: s.pending }
  | none => s

end Sys2Proof.Machine
end

