-- ==== Sys2Proof/Safety.lean ====
section
/-! DEFINITION. What counts as a safe run: one that neither faults nor is refused, and keeps the state canonical. -/

namespace Sys2Proof.Machine

/-- The sparse maps of the machine are canonical: the register map has each field once, HBM and the recorder rings list
no byte twice and no blank byte. Equal contents are then equal data. -/
def Canonical (s : State) : Prop :=
  SMap.rising s.regs = true ∧ Memory.wf s.slc.hbm = true ∧ SMap.wf 0 s.recs.ring = true

/-- A step that goes on. -/
def StepGoes (s : State) : Prop := ∃ t, step s = .next t

/-- A run of `n` steps that goes on. -/
def RunGoes : Nat → State → Prop
  | 0, _ => True
  | n + 1, s => ∃ t, step s = .next t ∧ RunGoes n t

/-- Command `c` completes on `s`: it answers a next state, and `P` holds of it. -/
def Completes (c : Instr) (s : State) (P : State → Prop) : Prop := ∃ t, exec c s = .next t ∧ P t

/-- Every register field of every die reads in `t` as in `s`, but for those that stand where one of `touch` stands. -/
def RegsBut (touch : List (Nat × Fld)) (s t : State) : Prop :=
  ∀ d f, (∀ x ∈ touch, f.key d ≠ x.2.key x.1) → t.rd d f = s.rd d f

/-- One record of type `typ` and class `cls` is handed over by unit `unit` of die `d`, and nothing else changes in the
recorder's waiting records. -/
def HandsOver (d unit typ cls : Nat) (s t : State) : Prop :=
  ∃ w, t.recs.waiting = s.recs.waiting ++ [w] ∧ w.die = d ∧ w.unit = unit ∧ w.typ = typ ∧ w.cls = cls

end Sys2Proof.Machine
end

