-- ==== Sys2Proof/Certificates/Slice0/Obligations.lean ====
section
/-! DEFINITION. The statements for the provers, and the few definitions they are stated with. -/

namespace Sys2Proof
open Machine

/-- The arbiter's view of die `d` when it chooses: unreadable heads have failed, waits are noted, and an item that has
waited WAIT_US has taken the hold. -/
def Machine.arbView (d : Nat) (s : State) : State :=
  let s := failHeads d s
  takeHold d (pruneArb d (each (headsOf s d) (fun s h => startExchange h (noteWaits h s)) s))

/-- Item `x` of the refused of die `d`, its queue and the RTIME of its refusal, has waited WAIT_US (R409). -/
abbrev Machine.WaitedOut (s : State) (d : Nat) (x : Nat × Nat) : Prop :=
  x.2 + s.rd d Reg.GOV_CTRL_WAIT_US * 1000 ≤ s.rtime d

/-- Die `d`, not aligned, takes part in alignment and hears the master `m` (R99, R100). -/
abbrev Machine.AlignsTo (s : State) (d m : Nat) : Prop :=
  d < dieCount s.orderCode ∧ (mastersHeard s d).head? = some m ∧ dieUp s d = true ∧
    7 ≤ s.rd d Reg.DC_BOOT_STATUS_STAGE ∧ s.rd d Reg.DC_BOOT_STATUS_ERROR = 0 ∧
    s.rd d Reg.DC_RTIME_STATUS_ALIGNED = 0 ∧ (portUp s d 3 || portUp s d 4) = true

/-- The exchanges that die `d` has kept (R100). -/
abbrev Machine.keptExch (s : State) (d : Nat) : List Exch := s.boot.exch.filter (fun y => Nat.beq y.die d)

/-- The RM takes an UNTESTED-ACCEPT: it runs, the census has closed, and no majors differ (R108, R119). -/
abbrev Machine.TakesDigests (s : State) : Prop :=
  s.rack.rmUp = true ∧ s.boot.censusOpen = false ∧ s.boot.hold ≠ 1

/-- Head `h` is the next class U head of die `d` (R405). -/
abbrev Machine.nextUrgent (d : Nat) (s : State) (h : Head) : Prop :=
  nextU (arbOf (arbView d s) d) (((headsOf (arbView d s) d).filter (eligible (arbView d s))).filter
    (fun h => Nat.beq (queClass (arbView d s) h.q) 0)) = some h

/-- The state in which a granted class U item starts: it is charged, and its ring's CI has moved past it. -/
def Machine.grantedAt (d : Nat) (s : State) (h : Head) : State :=
  let s := putArb { arbOf (arbView d s) d with lastU := some (queLocal h.q) } (arbView d s)
  takeItem h (chargeItem h (h.energy s) (readHead h.q s).2)

/-- The sequence engine takes item `it` of operation `op`: it was dispatched, the engine answers, no reserved field is
set. -/
abbrev Machine.EngineTakes (s : State) (op : Nat) (it : SeqItem) : Prop :=
  queDie it.queue < dieCount s.orderCode ∧ s.que.items.contains (op, it) = true ∧ engineUp s (seqDie it.seq) = true ∧
    it.reservedSet = false

/-- The item's slot is ACTIVE and its owner's (R343). -/
abbrev Machine.OwnSlot (s : State) (it : SeqItem) (x : SeqSlot) : Prop :=
  findSeq s it.seq = some x ∧ dieIn s (quePart s it.queue) (seqDie it.seq) = true ∧ x.part = quePart s it.queue ∧
    x.inst = queInst s it.queue

/-- What a die reset with cause `cause` leaves (R41, R121): the die is in reset, its HBM in self-refresh with its
contents, INCARNATION has advanced, and every register is at its reset value but for the kept ones. -/
abbrev Machine.DieWasReset (d cause : Nat) (s t : State) : Prop :=
  t.boot.inReset.contains d = true ∧ t.boot.selfRefresh.contains d = true ∧ (s.core.kills = [] → t.slc.hbm = s.slc.hbm) ∧
    t.rd d Reg.DC_INCARNATION = (s.rd d Reg.DC_INCARNATION + 1) % 65536 ∧ t.rd d Reg.DC_RESET_CAUSE = cause ∧
    (∀ f : Fld, f.addr < 0x1000000 → f.lo < 64 →
      (∀ g ∈ keptRegs ++ [Reg.DC_INCARNATION, Reg.DC_RESET_CAUSE], f.key d ≠ g.key d) → t.rd d f = f.reset)

/-- Nothing waits in the unified caches and directories: no MSHR, no held message, no held request. -/
abbrev Machine.CachesQuiet (s : State) : Prop := s.slc.mshrs = [] ∧ s.slc.holdq = [] ∧ s.slc.holdbuf = []

/-- Every line of slice `n` of die `d` but that of `la` has its way, and none waits for one. -/
abbrev Machine.OthersPlaced (s : State) (d n la : Nat) : Prop :=
  ∀ x ∈ s.slc.lines, x.die = d → x.slice = n → x.la ≠ la → x.way < 16

/-- Every line of slice `n` of die `d` has its way. -/
abbrev Machine.LinesPlaced (s : State) (d n : Nat) : Prop :=
  ∀ x ∈ s.slc.lines, x.die = d → x.slice = n → x.way < 16

/-- Message `m` of type `t` may arrive, and its sender's incarnation is not dead. -/
abbrev Machine.MayCome (s : State) (t : CohT) (m : CohMsg) : Prop :=
  m.dst < dieCount s.orderCode ∧ m.badType = 0 ∧ mayArrive ⟨t, m⟩ s.slc.net = true ∧
    s.boot.dead.contains (m.src, m.incarn.toNat) = false ∧ CachesQuiet s

/-- Message `m` of type `t` arrives at the cache slice that holds guest line `l` alone, and nothing else waits there. -/
abbrev Machine.MeetsLine (s : State) (t : CohT) (m : CohMsg) (l : Line) : Prop :=
  MayCome s t m ∧ homeDie (m.line * 128) ≠ m.dst ∧ slicePart s m.dst m.dstSlice = some m.part ∧
    (s.slc.lines.filter (fun x => Nat.beq x.die m.dst && Nat.beq x.slice m.dstSlice && Nat.beq x.la m.line)) = [l] ∧
    l.st ≠ .home ∧ OthersPlaced s m.dst m.dstSlice m.line

/-- As `MeetsLine`, for a line that waits in the put buffer. -/
abbrev Machine.MeetsPut (s : State) (t : CohT) (m : CohMsg) (l : Line) : Prop :=
  MayCome s t m ∧ homeDie (m.line * 128) ≠ m.dst ∧ slicePart s m.dst m.dstSlice = some m.part ∧
    findLine s m.dst m.dstSlice m.line = none ∧ findPut s m.dst m.dstSlice m.line = some l ∧
    LinesPlaced s m.dst m.dstSlice

/-- Message `m` of type `t`, a request, arrives at the home slice `n` whose directory has entry `e` for the line, from
another die of the line's partition. -/
abbrev Machine.MeetsEntry (s : State) (t : CohT) (m : CohMsg) (n : Nat) (e : DirEnt) : Prop :=
  MayCome s t m ∧ homeDie (m.line * 128) = m.dst ∧ LinesPlaced s m.dst n ∧ homeChan s (m.line * 128) = some n ∧ homePart s (m.line * 128) = some m.part ∧ dieIn s m.part m.src = true ∧
    backed s (m.line * 128) = true ∧ m.src ≠ m.dst ∧ findDir s m.dst n m.line = some e

/-- Request `w` meets its home line `l` at slice `n` of die `d`, in a line that no directory entry covers and that
nothing waits for (R218–R220, R250). -/
abbrev Machine.MeetsHome (s : State) (d n : Nat) (w : Waiter) (l : Line) : Prop :=
  d < dieCount s.orderCode ∧ n < 24 ∧ rightSlice s d n w = true ∧ isHome d w.la = true ∧
    homePart s w.req.pa = some w.req.part ∧ (partSealed s w.req.part = true → w.req.normal = none) ∧
    backed s w.req.pa = true ∧ sliceFailed s d n = false ∧ s.slc.mshrs = [] ∧ s.slc.holdq = [] ∧
    findDir s d n w.la = none ∧ findLine s d n w.la = some l ∧ l.st = .home ∧ w.sec < l.sectors.length ∧
    LinesPlaced s d n

/-- Mover `m` of die `d` stands at a boundary before word `w`, a legal instruction of OP `op`, and may run it. -/
abbrev Machine.AtWord (s : State) (d m op : Nat) (x : Mover) (w : Nat) : Prop :=
  d < dieCount s.orderCode ∧ findMover s d m = some x ∧ x.state = .running ∧ x.latched = none ∧ x.cursor = 0 ∧
  x.checked = false ∧ x.stopped = false ∧ x.changed = false ∧ x.mregs.length = 8 ∧ x.pc < 127 ∧
  progWord s d x.slot x.pc = w ∧ w < 2 ^ 64 ∧ mvLegal w = true ∧ mvOp w = op ∧ mvHeld s x = false ∧
  badWord s x = false

/-- Mover `m` has gone on to `pc` with registers `r`. -/
abbrev Machine.WentTo (t : State) (d m pc : Nat) (r : List Word) : Prop :=
  ∃ y, findMover t d m = some y ∧ y.pc = pc ∧ y.mregs = r ∧ y.latched = none ∧ y.state = .running ∧ y.cursor = 0

/-- The mover while its instruction runs. -/
def Machine.runsWord (x : Mover) (w : Nat) : Mover := { x with latched := some (BitVec.ofNat 64 w), state := .running }

/-- Troupe `t` is the one that issues on the core of `a`, fetches at its cohort's PC, and has a legal word of OP `op`
there; `u` is the machine after the fetch and `i` the issue. The core's cluster may issue in this CCLK (R412), and threads
that R200 keeps parked are kept by a yielded bit. -/
abbrev Machine.Issues (s u : State) (a : Issue) (op : Nat) (f : BitVec 56) (t : Troupe) (i : Iss) : Prop :=
  a.die < dieCount s.orderCode ∧ issueHeld (tickCore a s) a = false ∧ (t.convergeDue = true → t.yields = true) ∧
  selectTroupe (tickCore a s) a = some t ∧ t.threads.length = 32 ∧ t.fresh = true ∧
  t.cohortPc = some i.pc ∧ fetch t i.pc (tickCore a s) = some (none, u) ∧ findTroupe u t.at_ = some t ∧
  legal t.rows (wordOf op f) = true ∧
  i = mkIss t (wordOf op f) i.pc (SMap.get 0 u.core.cclk ((a.die * 320 + a.cluster) * 16 + a.core))

/-- The cohort's PCs have gone to the next word, and nothing else of a thread has changed. -/
abbrev Machine.Moved (t : Troupe) (i : Iss) (y : Troupe) : Prop :=
  ∀ n x, t.thread n = some x →
    y.thread n = some { x with pc := if n ∈ i.cohort then BitVec.ofNat 64 (i.pc + 8) else x.pc }

/-- Vector registers `r` to `r + k - 1` of lanes `l` are the only ones that may differ. -/
abbrev Machine.VecBut (t : Troupe) (l : List Nat) (r k : Nat) (y : Troupe) : Prop :=
  ∀ q n, n < 32 → (q < r ∨ r + k ≤ q ∨ n ∉ l) → y.v q n = t.v q n

/-- The commands that write one vector register in each executing lane, with their OP and their lane's value. -/
def Machine.vectorOps (a : Issue) (imm : Bool) (f : BitVec 56) : List (Instr × Nat × (Iss → Nat → Lane)) := [
  (.vadd a f, 0x00, vaddLane), (.vsub a f, 0x01, vsubLane), (.vmul a f, 0x02, vmulLane), (.vfma a f, 0x03, vfmaLane),
  (.vmin a f, 0x04, vminLane), (.vmax a f, 0x05, vmaxLane), (.vabs a f, 0x06, vabsLane), (.vneg a f, 0x07, vnegLane),
  (.vlog a f, 0x08, vlogLane), (.vshl a f, 0x09, vshlLane), (.vshr a f, 0x0A, vshrLane), (.vsel a f, 0x0C, vselLane),
  (.vdot4 a f, 0x0E, vdot4Lane), (.vmov a f, 0x0F, vmovLane), (.vrcp a f, 0x10, vrcpLane), (.vrsq a f, 0x11, vrsqLane),
  (.vexp2 a f, 0x12, vexp2Lane), (.vlog2 a f, 0x13, vlog2Lane), (.vshfl a f, 0x14, vshflLane),
  (.vred a f, 0x15, vredLane), (.vadds a imm f, vsOp 0x20 imm, vaddsLane), (.vsubs a imm f, vsOp 0x21 imm, vsubsLane),
  (.vmuls a imm f, vsOp 0x22 imm, vmulsLane), (.vfmas a imm f, vsOp 0x23 imm, vfmasLane),
  (.vmins a imm f, vsOp 0x24 imm, vminsLane), (.vmaxs a imm f, vsOp 0x25 imm, vmaxsLane),
  (.vmovs a imm f, vsOp 0x27 imm, vmovsLane)]

/-- The INT32 opcodes of format VV, with what each computes. -/
def Machine.intOps (a : Issue) (f : BitVec 56) : List (Instr × Nat × (Lane → Lane → Lane)) := [
  (.vadd a f, 0x00, fun x y => x + y), (.vsub a f, 0x01, fun x y => x - y), (.vmul a f, 0x02, fun x y => x * y),
  (.vabs a f, 0x06, fun x _ => if x.slt 0 then -x else x), (.vneg a f, 0x07, fun x _ => -x),
  (.vmin a f, 0x04, fun x y => if (if (fMod (wordOf 0x04 f)).testBit 0 then x.ult y else x.slt y) then x else y),
  (.vmax a f, 0x05, fun x y => if (if (fMod (wordOf 0x05 f)).testBit 0 then x.ult y else x.slt y) then y else x),
  (.vshl a f, 0x09, fun x y => x <<< (y.toNat % 32)),
  (.vshr a f, 0x0A, fun x y => if (fMod (wordOf 0x0A f)).testBit 0 then x.sshiftRight (y.toNat % 32)
    else x >>> (y.toNat % 32))]

/-- An issue with lane `n` alone executing at address `va`, aligned and translated to `pa`; `u2` follows. -/
abbrev Machine.OneLane (u u2 : State) (i : Iss) (n va pa : Nat) (want : Want3) : Prop :=
  i.act = [n] ∧ va % sizeBytes (fSize i.w) = 0 ∧ translate i.t.xby va want u = some (.pa pa, u2)

end Sys2Proof

open Sys2Proof Sys2Proof.Machine

/-- Every step keeps the register map, HBM and the recorder rings canonical, from every state in which they are. -/
def Obligations.EveryStepKeepsCanonical : Prop :=
  ∀ s t : State, Canonical s → step s = .next t → Canonical t

/-- Only `step` takes commands from the queue: a meaning leaves the queue and the order code as they are. -/
def Obligations.ExecLeavesQueue : Prop :=
  ∀ (c : Instr) (s t : State), exec c s = .next t → t.pending = s.pending ∧ t.orderCode = s.orderCode

/-- The queue (log 8): a command at its front acts with the queue's rest; an empty queue lets one REFCLK edge pass, in
which a die with its clocks running and no correction due counts RTIME up by 10 (R31). -/
def Obligations.CommandsFromQueue : Prop :=
  (∀ (c : Instr) (s : State), step { s with pending := c :: s.pending } = exec c s) ∧
  (∀ s : State, s.pending = [] → step s = .next (refclkEdge s)) ∧
  (∀ (s : State) (d : Nat), s.pending = [] → d < dieCount s.orderCode → s.rack.refclk = true →
    s.rd d Reg.CLK_STATUS_LOCK = 1 → -10 ≤ corrOf s d → corrOf s d ≤ 10 → s.rtime d < 2 ^ 64 - 10 →
    ∃ t, step s = .next t ∧ t.rtime d = s.rtime d + 10 ∧ t.pending = [])

/-- The state right after reset (R76, R121, R204, R246, R285, R496, R528): canonical, nothing waits, no die is
powered, every register field reads its Reset value, no slice, link, sequence, mover, translation or image is held. -/
def Obligations.ResetState : Prop :=
  Canonical State.reset ∧ State.reset.pending = [] ∧ (∀ d f, State.reset.rd d f = f.reset) ∧
  (∀ d, dieUp State.reset d = false) ∧ State.reset.slc.lines = [] ∧ State.reset.slc.hbm = [] ∧
  State.reset.slc.dir = [] ∧ State.reset.core.troupes = [] ∧ State.reset.core.launches = [] ∧
  State.reset.que.seqs = [] ∧ State.reset.que.movers = [] ∧ State.reset.xlt.tlb = [] ∧ State.reset.img.live = [] ∧
  (∀ d k, portUp State.reset d k = false) ∧ State.reset.recs.waiting = []

/-- A command that names a die the rack of this order code lacks stops with the fault of that name (log 3, R35). -/
def Obligations.AbsentDies : Prop :=
  ∀ (s : State) (d a b : Nat) (src : Source) (v : Word), dieCount s.orderCode ≤ d →
    ∀ c ∈ [Instr.bucketRefill d, .tripRestart d, .cclkStepChange d, .queEnable d a src v, .queReset d a src,
      .arbiterGrant d, .govHold d, .seqEngineFailure d a, .movProgWrite d a src v, .movSlotWrite d a src v,
      .restart d a b src, .jump d a, .movEnd d a, .troupePlacement d a, .clusterFailure d a, .kill d a b 0,
      .goLive d a b src, .partReset d a src, .powerGate d a b src, .wardDown d a, .irqMapAddrWrite d a src v,
      .xltInvalPartition d a src, .ptWrite d a src, .pllLock d, .dieReset d, .hbmTraining d 0, .channelFailure d a,
      .ucPin d src a b, .cohQuery d src, .toashPortDown d a, .routerFailure d a, .recordAccept d, .recTest d src 0,
      .registerWrite d a 8 src v, .rcRegisterRead d a 8 src, .jtagIdcode d, .diePowerGood d],
      exec c s = .fault (.absentUnit d)

/-- A written IMG_QTIMEOUT reads back clamped to 1 ms to 10,000 ms. -/
def Obligations.QuiesceTimeoutClamps : Prop :=
  ∀ (s : State) (d : Nat) (src : Source) (v : Word), d < dieCount s.orderCode → src ∈ [Source.dc, .mgp] →
    dieUp s d = true → Completes (.registerWrite d 0x280020 8 src v) s (fun t =>
      1 ≤ t.rd d Reg.IMG_QTIMEOUT ∧ t.rd d Reg.IMG_QTIMEOUT ≤ 10000 ∧
      (1 ≤ v.toNat % 2 ^ 14 → v.toNat % 2 ^ 14 ≤ 10000 → t.rd d Reg.IMG_QTIMEOUT = v.toNat % 2 ^ 14) ∧
      (v.toNat % 2 ^ 14 < 1 → t.rd d Reg.IMG_QTIMEOUT = 1) ∧
      (10000 < v.toNat % 2 ^ 14 → t.rd d Reg.IMG_QTIMEOUT = 10000) ∧ RegsBut [(d, Reg.IMG_QTIMEOUT)] s t)

/-- An UNTESTED-ACCEPT while the census is open changes nothing but the RM's records, which take one with the digest
and the result STALE-DIGEST (1). -/
def Obligations.OpenCensusRefusesAccept : Prop :=
  ∀ (s : State) (digest : BitVec 32), s.rack.rmUp = true → s.boot.censusOpen = true →
    Completes (.untestedAccept digest) s (fun t => t.boot = s.boot ∧ t.regs = s.regs ∧ t.rack = s.rack ∧
      t.host = s.host ∧ t.img = s.img ∧
      t.recs = (rackEmit 0xFFF 0x015 0 false [pf 4 digest.toNat, pf 1 1, pf 3 0] s).recs)

/-- Predicates: p7 reads 1 in every thread and a write to it is discarded; a write to p0 to p6 of a thread is read
back there and nowhere else. -/
def Obligations.PredicateSeven : Prop :=
  (∀ (t : Troupe) (n : Nat), t.p 7 n = true) ∧
  (∀ (t : Troupe) (n : Nat) (b : Bool), t.setP 7 n b = t) ∧
  (∀ (t : Troupe) (q n q' n' : Nat) (b : Bool), q < 7 → q' < 8 → n < t.threads.length →
    (t.setP q n b).p q' n' = if q' = q ∧ n' = n then b else t.p q' n')

/-- The cohort: the lanes of the active threads with the least PC, compared unsigned; the instruction at that PC
issues for exactly them. -/
def Obligations.CohortIsLeastPc : Prop :=
  (∀ (t : Troupe) (x : Thread), t.active x = true ↔ x.exited = false ∧ x.parked = none ∧
    ¬(x.yielded = true ∧ ∃ y ∈ t.threads, y.exited = false ∧ y.parked = none ∧ y.yielded = false)) ∧
  (∀ (t : Troupe) (n : Nat), t.threads.length ≤ 32 →
    (n ∈ t.cohort ↔ ∃ x, t.thread n = some x ∧ t.active x = true ∧
      ∀ y ∈ t.threads, t.active y = true → x.pc.toNat ≤ y.pc.toNat)) ∧
  (∀ (s u : State) (a : Issue) (op : Nat) (f : BitVec 56) (t : Troupe) (i : Iss), Issues s u a op f t i →
    i.cohort = t.cohort ∧ ∀ n ∈ i.cohort, ∃ x, t.thread n = some x ∧ x.pc.toNat = i.pc)

/-- Long words: an FP32 value converts exactly, V times 2^-149 being the value, with NAN, PINF and NINF in their bits;
two long words add exactly, and their flags join. -/
def Obligations.LongWords : Prop :=
  (∀ (x m : Nat) (neg : Bool) (e : Int), fp32.decode x = .num neg m e → -149 ≤ e ∧
    toSigned 304 ((toLong x).toNat % 2 ^ 304) = (if neg then -((m * 2 ^ (e + 149).toNat : Nat) : Int)
      else ((m * 2 ^ (e + 149).toNat : Nat) : Int)) ∧ (toLong x).toNat / 2 ^ 304 = 0) ∧
  (∀ x : Nat, fp32.decode x = .nan → (toLong x).toNat = 2 ^ 304) ∧
  (∀ x : Nat, fp32.decode x = .inf false → (toLong x).toNat = 2 ^ 305) ∧
  (∀ x : Nat, fp32.decode x = .inf true → (toLong x).toNat = 2 ^ 306) ∧
  (∀ x y : BitVec 307,
    -(2 ^ 303 : Int) ≤ toSigned 304 (x.toNat % 2 ^ 304) + toSigned 304 (y.toNat % 2 ^ 304) →
    toSigned 304 (x.toNat % 2 ^ 304) + toSigned 304 (y.toNat % 2 ^ 304) < 2 ^ 303 →
    toSigned 304 ((redLong x y).toNat % 2 ^ 304) =
      toSigned 304 (x.toNat % 2 ^ 304) + toSigned 304 (y.toNat % 2 ^ 304) ∧
    (∀ k, 304 ≤ k → k < 307 → (redLong x y).getLsbD k = (x.getLsbD k || y.getLsbD k)))

/-- MOV_CMD for a mover whose item is a sealed partition's: from any sender but the warden it moves no mover; from the
warden RESTART and ABORT of a halted mover are performed. -/
def Obligations.SealedMoverCommands : Prop :=
  ∀ (s : State) (d m pc : Nat) (src : Source) (x : Mover), d < dieCount s.orderCode → m < 32 → pc < 128 →
    findMover s d m = some x → partSealed s x.part = true →
    (src ≠ .warden → Completes (.restart d m pc src) s (fun t => t.que = s.que ∧ t.slc = s.slc) ∧
      Completes (.abort d m src) s (fun t => t.que = s.que ∧ t.slc = s.slc)) ∧
    (x.state = .halted → Completes (.restart d m pc .warden) s (fun t => ∃ y, findMover t d m = some y ∧
        y.state = .running ∧ y.pc = pc) ∧
      Completes (.abort d m .warden) s (fun t => findMover t d m = none))

/-- HEADROOM: 0 while a rail is OVER (a failed rail monitor reads so, R428), else HEAD_WARM while a temperature point
is WARM, else 256; the refill adds POWER_W times it, divided by 256. -/
def Obligations.HeadroomInForce : Prop :=
  (∀ (s : State) (d : Nat), (∃ i, s.rdBit d Reg.MON_IOVER i = true ∨ s.rdBit d Reg.MON_FAIL_RAILS i = true) →
    headroom s d = 0) ∧
  (∀ (s : State) (d : Nat), (∀ i, s.rdBit d Reg.MON_IOVER i = false ∧ s.rdBit d Reg.MON_FAIL_RAILS i = false) →
    ((∃ i, s.rdBit d Reg.MON_TWARM i = true ∨ s.rdBit d Reg.MON_FAIL_POINTS i = true) →
      headroom s d = s.rd d Reg.GOV_CTRL_HEAD_WARM) ∧
    ((∀ i, s.rdBit d Reg.MON_TWARM i = false ∧ s.rdBit d Reg.MON_FAIL_POINTS i = false) → headroom s d = 256)) ∧
  (∀ (s : State) (d : Nat), d < dieCount s.orderCode → dieUp s d = true → govCap s d < 2 ^ 39 →
    Completes (.bucketRefill d) s (fun t =>
      govB t d = min (govB s d + ((s.rd d Reg.GOV_LIMITS_POWER_W * headroom s d / 256 : Nat) : Int)) (govCap s d)))

/-- Toash-S port k of a die goes to the sibling at position p XOR (k + 1) of its own module, whose port k comes back.
-/
def Obligations.ToashSPorts : Prop :=
  ∀ d k : Nat, k < 3 → moduleOf (siblingOf d k) = moduleOf d ∧ siblingOf d k % 4 = (d % 4) ^^^ (k + 1) ∧
    siblingOf d k ≠ d ∧ siblingOf (siblingOf d k) k = d

/-- JUMP (R382): the conditions of IMM32[17:16], the register that condition 1 decrements, the target PC +
IMM32[15:0], the fault of a target outside 0 to 127, and the reserved bits, which make the word no legal instruction.
-/
def Obligations.MoverJumps : Prop :=
  (∀ (s : State) (d m w n : Nat) (x : Mover), AtWord s d m 8 x w → bits (mvImm w) 17 16 ≠ 1 → n < 128 →
    (x.pc : Int) + toSigned 16 (mvImm w % 2 ^ 16) = n →
    Completes (.jump d m) s (fun t => t.regs = s.regs ∧ t.slc = s.slc ∧ t.core = s.core ∧
      (bits (mvImm w) 17 16 = 0 → WentTo t d m n x.mregs) ∧
      (bits (mvImm w) 17 16 = 2 → WentTo t d m (if x.mr (mvRD w) = 0 then n else x.pc + 1) x.mregs) ∧
      (bits (mvImm w) 17 16 = 3 → WentTo t d m (if x.mr (mvRD w) ≠ 0 then n else x.pc + 1) x.mregs))) ∧
  (∀ (s : State) (d m w n : Nat) (x : Mover), AtWord s d m 8 x w → bits (mvImm w) 17 16 = 1 → n < 128 →
    (x.pc : Int) + toSigned 16 (mvImm w % 2 ^ 16) = n →
    Completes (.jump d m) s (fun t => t.regs = s.regs ∧ t.slc = s.slc ∧
      WentTo t d m (if (x.mr (mvRD w) + (2 ^ 64 - 1)) % 2 ^ 64 ≠ 0 then n else x.pc + 1)
        (x.mregs.set (mvRD w) (BitVec.ofNat 64 (x.mr (mvRD w) + (2 ^ 64 - 1)))))) ∧
  (∀ (s : State) (d m w : Nat) (x : Mover), AtWord s d m 8 x w → bits (mvImm w) 17 16 = 0 →
    ((x.pc : Int) + toSigned 16 (mvImm w % 2 ^ 16) < 0 ∨ 127 < (x.pc : Int) + toSigned 16 (mvImm w % 2 ^ 16)) →
    s.prt.faulted.contains x.part = false →
    Completes (.jump d m) s (fun t => findMover t d m = none ∧ ctxKilled t x.part x.inst x.ctx = true)) ∧
  (∀ w, mvOp w = 8 → bits (mvImm w) 31 18 ≠ 0 → mvLegal w = false)

/-- The energy bucket, the thermal trip, the clock step and the sector counts (R401, R411, R413, R440). A monitor
sample and the refill of the instance buckets (R400, R402, R439). A rail whose last code, with a filter of one sample,
is above its high threshold is OVER, and HEADROOM is 0 then. Every bucket gains its rate up to its capacity. -/
def Obligations.GovernorAndBuckets : Prop :=
  ((∀ (s : State) (d : Nat), d < dieCount s.orderCode → dieUp s d = true → govCap s d < 2 ^ 39 →
    Completes (.bucketRefill d) s (fun t =>
      govB t d = min (govB s d + ((s.rd d Reg.GOV_LIMITS_POWER_W * headroom s d / 256 : Nat) : Int)) (govCap s d) ∧
      RegsBut [(d, Reg.GOV_BUCKET)] s t)) ∧
  (∀ (s : State) (d : Nat), d < dieCount s.orderCode → s.boot.tripWait.contains d = true → belowRestart s d = true →
    Completes (.tripRestart d) s (fun t =>
      t.rd d Reg.CLK_STATUS_STOPPED = 0 ∧ t.rd d Reg.GOV_STATE_TRIP = 0 ∧ t.boot.tripWait.contains d = false ∧
      RegsBut [(d, Reg.CLK_STATUS_STOPPED), (d, Reg.CLK_CAUSE), (d, Reg.GOV_STATE_TRIP)] s t)) ∧
  (∀ (s : State) (d c : Nat), d < dieCount s.orderCode → look d s.que.clkTo = some c → c < 4 →
    Completes (.cclkStepChange d) s (fun t =>
      t.rd d Reg.CLK_STATUS_DIV = c ∧ t.rd d Reg.CLK_STEPS = min (s.rd d Reg.CLK_STEPS + 1) (2 ^ 32 - 1) ∧
      (s.rd d Reg.CLK_STATUS_PENDING = c → t.rd d Reg.CLK_STATUS_BUSY = 0 ∧ look d t.que.clkTo = none) ∧
      (s.rd d Reg.CLK_STATUS_PENDING ≠ c → look d t.que.clkTo = some (s.rd d Reg.CLK_STATUS_PENDING)) ∧
      RegsBut [(d, Reg.CLK_STATUS_DIV), (d, Reg.CLK_STEPS), (d, Reg.CLK_STATUS_BUSY)] s t)) ∧
  (∀ (s : State) (d n p i sectors remote : Nat), d < dieCount s.orderCode → n < 64 → quePart s (d * 64 + n) = p →
    queInst s (d * 64 + n) = i → instSlot s d p i < 64 → bucketRate s p i 2 ≠ 0 → bucketRate s p i 3 ≠ 0 →
    (∀ k, k ≠ 2 * (d * 64 + n) → k ≠ 2 * (d * 64 + n) + 1 → SMap.get 0 s.que.sectors k = 0) →
    (sectors, remote) = countedOf s d (instSlot s d p i) →
    Completes (.sectorCountReport d (instSlot s d p i) sectors remote) s (fun t =>
      bucketLevel t d p i 2 =
        bucketLevel s d p i 2 - (32 * SMap.get 0 s.que.sectors (2 * (d * 64 + n)) : Nat) * bucketOne ∧
      bucketLevel t d p i 3 =
        bucketLevel s d p i 3 - (32 * SMap.get 0 s.que.sectors (2 * (d * 64 + n) + 1) : Nat) * bucketOne ∧
      (∀ k, SMap.get 0 t.que.sectors k = 0) ∧ t.regs = s.regs))) ∧
  ((∀ (s : State) (d i : Nat) (code : BitVec 8), d < dieCount s.orderCode → clocked s d = true →
    352 ≤ i → i < 360 → (monHist s d i).failed = false → s.rd d (Reg.MON_CFG_N i) < 2 →
    s.rd d (Reg.MON_CFG_HIGH i) < code.toNat → s.rd d (Reg.MON_CFG_LOW i) ≤ code.toNat → failedPoints s d < 16 →
    Completes (.monitorSample d i code true) s (fun t =>
      t.rdBit d Reg.MON_IOVER (i - 352) = true ∧ t.rd d Reg.GOV_STATE_OVER = 1 ∧ t.rd d Reg.GOV_STATE_HEADROOM = 0 ∧
      (s.rdBit d Reg.MON_IOVER (i - 352) = false →
        t.rd d Reg.MON_EVENTS = min (s.rd d Reg.MON_EVENTS + 1) (2 ^ 32 - 1)) ∧
      t.slc = s.slc ∧ t.core = s.core ∧ t.boot = s.boot)) ∧
  (∀ (s : State) (d p i k : Nat), d < dieCount s.orderCode → dieUp s d = true → s.que.deferredPi = [] →
    ((bucketInsts s d).map (fun x => instSlot s d x.1 x.2)).Nodup → (p, i) ∈ bucketInsts s d → k < 5 →
    bucketRate s p i k ≠ 0 →
    Completes (.instanceBucketRefill d) s (fun t =>
      bucketLevel t d p i k = min (bucketLevel s d p i k + refillOf s p i k) (bucketCap s p i k) ∧
      t.regs = s.regs)))

/-- The doorbell of a running instance's queue, in the ring's range (R333): PI, or CI of a completion queue, takes the
index; a doorbell that a bucket holds back is counted. A doorbell whose index is outside the ring is discarded (R333):
QUE_DB_BAD counts it, a record is handed over, and no index moves. -/
def Obligations.Doorbells : Prop :=
  (∀ (s : State) (port fn window p i q : Nat) (pasid : Option (BitVec 20)) (v : Word),
    portDie port < dieCount s.orderCode → dieUp s (portDie port) = true → attachOf s port = 2 →
    requesterInst s port fn pasid = some (p, i) → (windowsOf s p i)[window]? = some q →
    s.boot.inReset.contains (queDie q) = false → queNamed s q = true → queEnabled s q = true →
    instState s (queDie q) (quePart s q) (queInst s q) = 2 →
    (queKind s q ≠ 3 → quePi s q < v.toNat ∧ v.toNat ≤ queCi s q + ringEntries s q) →
    (queKind s q = 3 → queCi s q < v.toNat ∧ v.toNat ≤ quePi s q) →
    Completes (.doorbell port fn pasid window 8 v) s (fun t =>
      (queKind s q = 3 → quePi t q = quePi s q ∧ queCi t q = v.toNat) ∧
      (queKind s q ≠ 3 → quePi t q = v.toNat ∧ queCi t q = queCi s q) ∧
      (queKind s q ≠ 3 → doorbellPasses s q = true →
        s.que.deferredPi.find? (fun x => Nat.beq x.1 q) = none → visPi t q = v.toNat) ∧
      (queKind s q ≠ 3 → doorbellPasses s q = false →
        t.rd (queDie q) Reg.PART_DB_DEFER = min (s.rd (queDie q) Reg.PART_DB_DEFER + 1) (2 ^ 32 - 1) ∧
        visPi t q = visPi s q) ∧
      RegsBut [(queDie q, Reg.QUE_PI (queLocal q)), (queDie q, Reg.QUE_CI (queLocal q)), (queDie q, Reg.PART_DB_DEFER)] s t)) ∧
  (∀ (s : State) (port fn window p i q : Nat) (pasid : Option (BitVec 20)) (v : Word),
    portDie port < dieCount s.orderCode → dieUp s (portDie port) = true → attachOf s port = 2 →
    requesterInst s port fn pasid = some (p, i) → (windowsOf s p i)[window]? = some q →
    s.boot.inReset.contains (queDie q) = false → queNamed s q = true → queEnabled s q = true →
    instState s (queDie q) (quePart s q) (queInst s q) = 2 →
    (queKind s q ≠ 3 → v.toNat < quePi s q ∨ queCi s q + ringEntries s q < v.toNat ∧ quePi s q ≠ v.toNat) →
    (queKind s q = 3 → v.toNat < queCi s q ∨ quePi s q < v.toNat ∧ queCi s q ≠ v.toNat) →
    Completes (.doorbell port fn pasid window 8 v) s (fun t =>
      t.rd (queDie q) Reg.QUE_DB_BAD = min (s.rd (queDie q) Reg.QUE_DB_BAD + 1) (2 ^ 32 - 1) ∧
      HandsOver (queDie q) 2 0x070 0 s t ∧ t.que = s.que ∧ RegsBut [(queDie q, Reg.QUE_DB_BAD)] s t))

/-- QUE_CTRL (R330, R350, R363): an enable of a named queue with a good ring enables it, one with a bad ring leaves it
disabled with ERROR 2; RESET of a disabled queue clears PI, CI and ERROR and forgets its held doorbells. -/
def Obligations.QueueControl : Prop :=
  (∀ (s : State) (d n : Nat) (src : Source) (v : Word), d < dieCount s.orderCode → n < 64 →
    queNamed s (d * 64 + n) = true → wardenOk s (quePart s (d * 64 + n)) src = true →
    queEnabled s (d * 64 + n) = false →
    Completes (.queEnable d n src v) s (fun t =>
      t.rd d (Reg.QUE_CTRL_LOG2 n) = bits v.toNat 6 2 ∧ t.rd d (Reg.QUE_CTRL_SERIAL n) = bits v.toNat 1 1 ∧
      t.rd d (Reg.QUE_CTRL_VECTOR n) = bits v.toNat 12 7 ∧
      (ringOk s (d * 64 + n) (bits v.toNat 6 2) = true → queEnabled t (d * 64 + n) = true) ∧
      (ringOk s (d * 64 + n) (bits v.toNat 6 2) = false →
        queEnabled t (d * 64 + n) = false ∧ t.rd d (Reg.QUE_STATE_ERROR n) = 2) ∧
      quePi t (d * 64 + n) = quePi s (d * 64 + n) ∧ queCi t (d * 64 + n) = queCi s (d * 64 + n))) ∧
  (∀ (s : State) (d n : Nat) (src : Source), d < dieCount s.orderCode → n < 64 →
    queNamed s (d * 64 + n) = true → wardenOk s (quePart s (d * 64 + n)) src = true →
    s.rd d (Reg.QUE_CTRL_ENABLE n) = 0 → s.rd d (Reg.QUE_CTRL_SERIAL n) < 2 → queLog2 s (d * 64 + n) < 32 →
    s.rd d (Reg.QUE_CTRL_VECTOR n) < 64 →
    Completes (.queReset d n src) s (fun t =>
      quePi t (d * 64 + n) = 0 ∧ queCi t (d * 64 + n) = 0 ∧ t.rd d (Reg.QUE_STATE_ERROR n) = 0 ∧
      queEnabled t (d * 64 + n) = false ∧ queLog2 t (d * 64 + n) = queLog2 s (d * 64 + n) ∧
      t.que.deferredPi.any (fun x => Nat.beq x.1 (d * 64 + n)) = false ∧ t.slc = s.slc))

/-- ARBITER_GRANT of a class U head (R405, R340, R374): CI advances past it and the item starts, as a sequence item,
as a launch, or on the lowest-numbered free mover. ATTACH_EXCHANGE (R344): a launch at its queue's head, whose
sequence lives on another die and takes its step, is attached; where the energy gate does not let it by it waits for a
grant. -/
def Obligations.GrantsAndExchanges : Prop :=
  (∀ (s : State) (d : Nat) (h : Head), d < dieCount s.orderCode → dieUp s d = true → nextUrgent d s h →
    (queKind (grantedAt d s h) h.q = 2 → leAt h.bytes 0 1 = 2 → leAt h.bytes 3 1 ≠ 0 → leAt h.bytes 3 1 < 12 →
      Completes (.arbiterGrant d) s (fun t =>
        t.que.items = s.que.items ++ [(leAt h.bytes 3 1, seqItemOf h)] ∧ t.core = s.core ∧
        queCi t h.q = (h.index.toNat + 1) % 2 ^ 64)) ∧
    (queKind (grantedAt d s h) h.q = 0 → h.seq = none → h.killed (grantedAt d s h) = false →
      launchValid (grantedAt d s h) h = true →
      Completes (.arbiterGrant d) s (fun t =>
        (∃ l, t.core.launches = s.core.launches ++ [l] ∧ l.queue = h.q ∧ l.index = h.index ∧ l.attached = [] ∧
          l.ntroupe = h.ntroupe ∧ l.rows = h.rows ∧ l.ended = 0) ∧
        queCi t h.q = (h.index.toNat + 1) % 2 ^ 64)) ∧
    (∀ m, queKind (grantedAt d s h) h.q = 1 → h.killed (grantedAt d s h) = false → leAt h.bytes 0 1 = 1 →
      moveFields h = true → h.flags.testBit 4 = false →
      (grantedAt d s h).rd (queDie h.q) (Reg.MOV_SLOT_OWNED (leAt h.bytes 3 1)) ≠ 0 →
      (grantedAt d s h).rd (queDie h.q) (Reg.MOV_SLOT_PART (leAt h.bytes 3 1)) = quePart (grantedAt d s h) h.q →
      (grantedAt d s h).rd (queDie h.q) (Reg.MOV_SLOT_INST (leAt h.bytes 3 1)) = queInst (grantedAt d s h) h.q →
      freeMover (grantedAt d s h) (queDie h.q) (quePart (grantedAt d s h) h.q) = some m →
      Completes (.arbiterGrant d) s (fun t =>
        (∃ x, t.que.movers = s.que.movers ++ [x] ∧ x.die = queDie h.q ∧ x.m = m ∧ x.state = .running ∧
          x.pc = leAt h.bytes 4 1 ∧ x.slot = leAt h.bytes 3 1 ∧ x.queue = h.q ∧ x.mregs.length = 8) ∧
        queCi t h.q = (h.index.toNat + 1) % 2 ^ 64))) ∧
  (∀ (s u : State) (q : Nat) (index : Word) (x : Exchange) (h : Head) (ids : List Nat), queDie q < dieCount s.orderCode →
    s.que.exchanges.find? (fun x => Nat.beq x.queue q && x.index == index) = some x →
    u = { s with que := { s.que with exchanges := s.que.exchanges.erase x } } →
    (readHead q u).1 = .ok h → queRuns u q = true → h.index = index → queKind u q = 0 →
    h.killed u = false → launchCheck u (quePart u q) (queInst u q) (h.seq.getD 0) h.step = .ok ids → passesGate u h = false →
    Completes (.attachExchange q index) s (fun t =>
      t.que.exchanges = s.que.exchanges.erase x ∧ t.que.exchanged = s.que.exchanged ++ [⟨q, index, h.step, ids⟩] ∧
      t.que.seqs = (attachAll (quePart u q) ids h.step u).que.seqs ∧ t.regs = s.regs ∧ t.core = s.core))

/-- The charge of a dispatched item (R407, R410): B falls by E; for class U it never falls below U_FLOOR by the
charge, and what is forgiven is counted. GOV_HOLD (R409): while no item is held, the oldest refused item that has waited
WAIT_US becomes the held item, with its record; where none has waited so long none is held; a held item stays held. -/
def Obligations.ChargesAndHold : Prop :=
  (∀ (s : State) (h : Head) (e : Nat), e < 2 ^ 38 → -(2 ^ 38 : Int) < govB s (queDie h.q) →
    govB s (queDie h.q) < 2 ^ 39 →
    (queClass s h.q ≠ 0 → govB (chargeItem h e s) (queDie h.q) = govB s (queDie h.q) - e) ∧
    (queClass s h.q = 0 → uFloor s (queDie h.q) ≤ govB s (queDie h.q) →
      govB (chargeItem h e s) (queDie h.q) = max (govB s (queDie h.q) - e) (uFloor s (queDie h.q)) ∧
      (chargeItem h e s).rd (queDie h.q) Reg.GOV_U_FORGIVEN = min (s.rd (queDie h.q) Reg.GOV_U_FORGIVEN +
        (uFloor s (queDie h.q) - (govB s (queDie h.q) - e)).toNat) (2 ^ 48 - 1)) ∧
    (queClass s h.q = 0 → govB s (queDie h.q) < uFloor s (queDie h.q) →
      govB (chargeItem h e s) (queDie h.q) = govB s (queDie h.q) ∧
      (chargeItem h e s).rd (queDie h.q) Reg.GOV_U_FORGIVEN =
        min (s.rd (queDie h.q) Reg.GOV_U_FORGIVEN + e) (2 ^ 48 - 1)) ∧
    RegsBut [(queDie h.q, Reg.GOV_BUCKET), (queDie h.q, Reg.GOV_U_FORGIVEN)] s (chargeItem h e s)) ∧
  (∀ (s : State) (d n w : Nat) (h : Head), d < dieCount s.orderCode → dieUp s d = true →
    (arbOf (pruneArb d s) d).held = none → (n, w) ∈ (arbOf (pruneArb d s) d).refused → WaitedOut s d (n, w) →
    (∀ x ∈ (arbOf (pruneArb d s) d).refused, WaitedOut s d x → x = (n, w) ∨ w < x.2) →
    (readHead (d * 64 + n) (pruneArb d s)).1 = .ok h →
    Completes (.govHold d) s (fun t =>
      (arbOf t d).held = some n ∧ (arbOf t d).refused = (arbOf (pruneArb d s) d).refused ∧
      t.rd d Reg.GOV_STATE_HOLDING = 1 ∧ t.rd d Reg.GOV_STATE_HOLD_QUEUE = (d * 64 + n) % 2 ^ 12 ∧
      t.rd d Reg.GOV_HOLDS = min (s.rd d Reg.GOV_HOLDS + 1) (2 ^ 32 - 1) ∧ HandsOver d 4 0x080 0 s t ∧
      RegsBut [(d, Reg.GOV_STATE_HOLDING), (d, Reg.GOV_STATE_HOLD_QUEUE), (d, Reg.GOV_HOLDS)] s t ∧
      t.core = s.core ∧ t.slc = s.slc)) ∧
  (∀ (s : State) (d : Nat), d < dieCount s.orderCode → dieUp s d = true → (arbOf (pruneArb d s) d).held = none →
    (∀ x ∈ (arbOf (pruneArb d s) d).refused, ¬WaitedOut s d x) →
    Completes (.govHold d) s (fun t =>
      (arbOf t d).held = none ∧ t.rd d Reg.GOV_STATE_HOLDING = 0 ∧ t.recs = s.recs ∧
      RegsBut [(d, Reg.GOV_STATE_HOLDING), (d, Reg.GOV_STATE_HOLD_QUEUE)] s t ∧ t.core = s.core ∧ t.slc = s.slc)) ∧
  (∀ (s : State) (d n : Nat), d < dieCount s.orderCode → dieUp s d = true →
    (arbOf (pruneArb d s) d).held = some n →
    Completes (.govHold d) s (fun t =>
      (arbOf t d).held = some n ∧ t.rd d Reg.GOV_STATE_HOLDING = 1 ∧
      t.rd d Reg.GOV_STATE_HOLD_QUEUE = (d * 64 + n) % 2 ^ 12 ∧ t.recs = s.recs ∧
      RegsBut [(d, Reg.GOV_STATE_HOLDING), (d, Reg.GOV_STATE_HOLD_QUEUE)] s t ∧ t.core = s.core ∧ t.slc = s.slc))

/-- SEQCTL_CREATE, SEQCTL_DESTROY, TRUNCATE and SEQCTL_SET (Table SEQ-3, R353): what each makes of the sequence. -/
def Obligations.SequenceLifetime : Prop :=
  (∀ (s : State) (it : SeqItem), EngineTakes s 1 it → dieIn s (quePart s it.queue) (seqDie it.seq) = true →
    findSeq s it.seq = none → it.arg0.toNat ≤ 16777216 → it.addr.toNat % 0x8000 = 0 → it.addr.toNat < 2 ^ 48 →
    Completes (.seqctlCreate it) s (fun t =>
      (∃ x, t.que.seqs = s.que.seqs ++ [x] ∧ x.id = it.seq ∧ x.inst = queInst s it.queue ∧
        x.part = quePart s it.queue ∧ x.len = it.arg0.toNat ∧ x.append = it.arg1.toNat / 256 + 1 ∧
        x.blk = it.arg1.toNat % 4 ∧ x.dir = it.addr ∧ x.step = it.step ∧ x.recs = [] ∧ x.chain = none ∧
        x.tainted = false) ∧
      t.que.items = s.que.items.erase (1, it) ∧ t.core = s.core)) ∧
  (∀ (s : State) (it : SeqItem) (x : SeqSlot), EngineTakes s 2 it → OwnSlot s it x → x.recs = [] →
    heldOn s it.seq = false → shifting s it.seq = false →
    Completes (.seqctlDestroy it) s (fun t =>
      findSeq t it.seq = none ∧ (∀ c ∈ t.que.seqCopies, c.seq ≠ it.seq) ∧ (∀ c ∈ t.que.btCopies, c.seq ≠ it.seq) ∧
      (∀ id, id ≠ it.seq → (findSeq t id).isSome = (findSeq s id).isSome) ∧ t.core = s.core)) ∧
  (∀ (s : State) (it : SeqItem) (x : SeqSlot), EngineTakes s 5 it → OwnSlot s it x → x.recs = [] →
    shifting s it.seq = false → it.arg0.toNat ≤ x.len →
    Completes (.truncate it) s (fun t =>
      findSeq t it.seq = some { x with len := it.arg0.toNat, tainted := false } ∧
      (∀ id, id ≠ it.seq → findSeq t id = findSeq s id) ∧ t.core = s.core)) ∧
  (∀ (s : State) (it : SeqItem) (x : SeqSlot), EngineTakes s 6 it → OwnSlot s it x → x.recs = [] →
    shifting s it.seq = false → it.addr.toNat % 0x8000 = 0 → it.addr.toNat < 2 ^ 48 →
    Completes (.seqctlSet it) s (fun t =>
      findSeq t it.seq = some { x with
        append := it.arg1.toNat / 256 + 1, dir := if it.addr = 0 then x.dir else it.addr } ∧
      (∀ id, id ≠ it.seq → findSeq t id = findSeq s id) ∧ t.core = s.core))

/-- Steps (R345, R346): STEP_OPEN opens the next step at the newest END and closes the one before it, STEP_CLOSE
closes the newest step and waits for its retirement, and STEP_RETIRE makes the oldest step's END the length. -/
def Obligations.StepsOpenCloseRetire : Prop :=
  (∀ (s : State) (it : SeqItem) (x : SeqSlot), EngineTakes s 3 it → OwnSlot s it x → it.step = x.step + 1 →
    x.recs.length < stepDepth s x.part → newestEnd x + openTokens it x ≤ 16777216 →
    Completes (.stepOpen it) s (fun t =>
      (∃ y r, findSeq t it.seq = some y ∧ y.step = it.step ∧ y.recs = closeNewest x.recs ++ [r] ∧ r.step = it.step ∧
        r.base = newestEnd x ∧ r.end_ = newestEnd x + openTokens it x ∧ r.lcnt = 0 ∧ r.closed = false ∧ y.len = x.len) ∧
      t.que.items = s.que.items.erase (3, it) ∧ t.core = s.core)) ∧
  (∀ (s : State) (it : SeqItem) (x : SeqSlot) (r : StepRec), EngineTakes s 4 it → OwnSlot s it x →
    x.recs.getLast? = some r → r.step = it.step → r.closed = false →
    Completes (.stepClose it) s (fun t =>
      findSeq t it.seq = some { x with recs := x.recs.dropLast ++ [{ r with closed := true }] } ∧
      t.que.items = s.que.items.erase (4, it) ∧ t.que.closing = s.que.closing ++ [it] ∧
      t.que.itemsOut = s.que.itemsOut ∧ t.regs = s.regs)) ∧
  (∀ (s : State) (id : Nat) (x : SeqSlot) (r : StepRec) (l : List StepRec), seqDie id < dieCount s.orderCode →
    engineUp s (seqDie id) = true → findSeq s id = some x → x.recs = r :: l → r.closed = true → r.lcnt = 0 → r.owc = 0 →
    s.que.closing = [] →
    Completes (.stepRetire id) s (fun t =>
      findSeq t id = some { x with len := r.end_, recs := l, retired := s.rtime (seqDie id) } ∧
      t.rd (seqDie id) Reg.SEQ_STEPS_RETIRED = min (s.rd (seqDie id) Reg.SEQ_STEPS_RETIRED + 1) (2 ^ 48 - 1) ∧
      RegsBut [(seqDie id, Reg.SEQ_STEPS_RETIRED)] s t))

/-- Chains and caches (R344, R349, R191): SEQCTL_LINK puts the sequence in the head's chain, SEQCTL_UNLINK takes it
out, BTINVAL drops the cached entries of its blocks, ARM lets the context launch again. -/
def Obligations.SequenceChains : Prop :=
  (∀ (s : State) (it : SeqItem) (x y : SeqSlot), EngineTakes s 8 it → OwnSlot s it x →
    findSeq s (seqDie it.seq * 256 + it.arg0.toNat % 256) = some y → y.id ≠ it.seq → y.part = x.part →
    y.inst = x.inst → x.chain = none → (y.chain = none ∨ y.chain = some y.id) →
    Completes (.seqctlLink it) s (fun t =>
      findSeq t it.seq = some { x with chain := some y.id } ∧ findSeq t y.id = some { y with chain := some y.id } ∧
      (∀ id, id ≠ it.seq → id ≠ y.id → findSeq t id = findSeq s id) ∧ t.core = s.core)) ∧
  (∀ (s : State) (it : SeqItem) (x : SeqSlot), EngineTakes s 9 it → OwnSlot s it x → x.chain.isSome = true →
    Completes (.seqctlUnlink it) s (fun t =>
      findSeq t it.seq = some { x with chain := none } ∧ t.que.items = s.que.items.erase (9, it) ∧ t.core = s.core)) ∧
  (∀ (s : State) (it : SeqItem) (x : SeqSlot), EngineTakes s 7 it → OwnSlot s it x →
    Completes (.btinval it) s (fun t =>
      (∀ c ∈ t.que.btCopies, c.seq = it.seq → it.arg1.toNat ≠ 0 ∧
        (c.block < it.arg0.toNat ∨ it.arg0.toNat + it.arg1.toNat ≤ c.block)) ∧
      (∀ c ∈ s.que.btCopies, c.seq ≠ it.seq → c ∈ t.que.btCopies) ∧ t.que.seqs = s.que.seqs)) ∧
  (∀ (s : State) (it : SeqItem), queDie it.queue < dieCount s.orderCode → s.que.items.contains (11, it) = true →
    engineUp s (queDie it.queue) = true → it.reservedSet = false →
    Completes (.arm it) s (fun t =>
      (∀ k, k ∈ t.core.killed ↔ k ∈ s.core.killed ∧ k ≠ (quePart s it.queue, queInst s it.queue, it.ctx)) ∧
      t.que.seqs = s.que.seqs))

/-- SEQCTL_QUERY (R343): the slot's descriptor is written at ADDR, which must be 128-byte aligned; the slot stays. The
entry a SEQCTL item with CQE and without IRQ writes advances PI of its completion queue and releases the place
reserved for it (R342). SEQ_ENGINE_FAILURE (R364): the engine is failed and a class 3 record is handed over; every
partition of the live image with a sequence on the die faults. -/
def Obligations.QueriesEntriesAndEngineFailure : Prop :=
  ((∀ (s s' s'' : State) (it : SeqItem) (x : SeqSlot) (pa : Nat), EngineTakes s 10 it → OwnSlot s it x →
    it.addr.toNat % 128 = 0 → translate (queXby s it.queue it.ctx) it.addr.toNat .store s = some (.pa pa, s') →
    accPut (queBy s' it.queue) 6 pa (seqBytes s x) s' = some (true, s'') →
    Completes (.seqctlQuery it) s (fun t => t.que.seqs = s.que.seqs ∧ t.que.items = s.que.items.erase (10, it) ∧
      t.core = s.core ∧ (it.cqe = false → t.slc = s''.slc ∧ t.regs = s''.regs))) ∧
  (∀ (s : State) (it : SeqItem) (x : SeqSlot), EngineTakes s 7 it → OwnSlot s it x → it.cqe = true → it.irq = false →
    quePi s (cqOf s it.queue) < 2 ^ 64 - 1 →
    Completes (.btinval it) s (fun t =>
      quePi t (cqOf s it.queue) = quePi s (cqOf s it.queue) + 1 ∧
      SMap.get 0 t.que.resv (cqOf s it.queue) = SMap.get 0 s.que.resv (cqOf s it.queue) - 1 ∧
      SMap.get 0 t.que.itemsOut it.queue = SMap.get 0 s.que.itemsOut it.queue - 1))) ∧
  (∀ (s : State) (d slot : Nat), d < dieCount s.orderCode → slot < 256 →
    Completes (.seqEngineFailure d slot) s (fun t =>
      t.que.seqFailed.contains d = true ∧
      ((∀ x ∈ s.que.seqs, seqDie x.id ≠ d) → HandsOver d 3 0x072 3 s t ∧ t.regs = s.regs ∧ t.prt = s.prt) ∧
      (∀ x ∈ s.que.seqs, seqDie x.id = d → x.part < 128 → (imgParts s).contains x.part = true →
        t.prt.faulted.contains x.part = true)))

/-- Die resets (R41, R121, R457): loss of PLL lock, DIE_RESET over MGP, and a DEAD notice that names the die at its
own INCARNATION. Resets of more than one die (R42, R121, R598): REFCLK lost puts every running die in reset; a module
reset takes the power of its four dies and their HBM; a rack reset takes every die's, discards the images and opens
the census. -/
def Obligations.DieAndWideResets : Prop :=
  (∀ (s : State) (d : Nat), d < dieCount s.orderCode → dieUp s d = true →
    Completes (.pllLossOfLock d) s (DieWasReset d 4 s) ∧
    Completes (.dieReset d) s (DieWasReset d 1 s) ∧
    (∀ inc : BitVec 16, s.rd d Reg.DC_INCARNATION = inc.toNat →
      Completes (.deadNotice d d inc) s (DieWasReset d 3 s))) ∧
  ((∀ s : State, s.rack.refclk = true → Completes .refclkLoss s (fun t =>
    t.rack.refclk = false ∧ (∀ d, d < dieCount s.orderCode → dieUp s d = true → t.boot.inReset.contains d = true) ∧
    (s.core.kills = [] → t.slc.hbm = s.slc.hbm))) ∧
  (∀ (s : State) (m : Nat), 4 * m < dieCount s.orderCode → s.rack.modEn.contains m = true →
    Completes (.moduleReset m) s (fun t =>
      t.rack.modReset.contains m = true ∧
      (∀ d, moduleOf d = m → t.rack.powered.contains d = false ∧
        (s.core.kills = [] → s.rack.powered.contains d = true → ∀ c ∈ t.slc.hbm, keyDie c.1 ≠ d)) ∧
      (∀ d, moduleOf d ≠ m → t.rack.powered.contains d = s.rack.powered.contains d))) ∧
  (∀ s : State, s.rack.rmUp = true → Completes .rackReset s (fun t =>
    t.rack.rmUp = false ∧ t.boot.censusOpen = true ∧ t.boot.roll = [] ∧ t.boot.census = [] ∧
    t.img = State.reset.img ∧ t.rack.flashIncarn = [] ∧
    ∀ d, d < dieCount s.orderCode → t.rack.powered.contains d = false)))

/-- Stage 3 (R41, R45, Table BOOT-7): PLL_LOCK takes the die out of reset with RTIME at zero and CCLK as reset left
it; of PLL_LOCK_TIMEOUT the fourth stops the die. Stages 4 and 5 (R85, R87): the fuses, and the boot firmware's first
good copy. -/
def Obligations.PllFuseAndBootStages : Prop :=
  ((∀ (s : State) (d : Nat), d < dieCount s.orderCode → locking s d = true → Completes (.pllLock d) s (fun t =>
    t.boot.inReset.contains d = false ∧ t.rd d Reg.CLK_STATUS_LOCK = 1 ∧ t.rd d Reg.DC_RTIME = 0 ∧
    t.rd d Reg.DC_BOOT_STATUS_STAGE = 1 ∧ t.rack.refclk = true ∧ t.boot.uart.getLast? = some (d, 3) ∧
    RegsBut [(d, Reg.CLK_STATUS_LOCK), (d, Reg.DC_RTIME), (d, Reg.DC_BOOT_STATUS_STAGE)] s t)) ∧
  (∀ (s : State) (d : Nat), d < dieCount s.orderCode → locking s d = true → s.rd d Reg.DC_RESET_CAUSE ≠ 4 →
    Completes (.pllLockTimeout d) s (fun t =>
      (SMap.get 0 s.boot.pllTry d < 3 → SMap.get 0 t.boot.pllTry d = SMap.get 0 s.boot.pllTry d + 1 ∧
        t.regs = s.regs ∧ t.boot.pllDead = s.boot.pllDead) ∧
      (SMap.get 0 s.boot.pllTry d = 3 → t.boot.pllDead.contains d = true ∧ t.rd d Reg.DC_BOOT_STATUS_ERROR = 1 ∧
        HandsOver d 0 0x011 0 s t ∧ RegsBut [(d, Reg.DC_BOOT_STATUS_ERROR)] s t)))) ∧
  ((∀ (s : State) (d : Nat) (f : FuseData), d < dieCount s.orderCode → atStage s d 1 = true → f.crcOk = true →
    f.grade = (gradeOf s.orderCode).1 → popCount 160 f.mapW.toNat = (gradeOf s.orderCode).2 →
    popCount 160 f.mapE.toNat = (gradeOf s.orderCode).2 → f.stepping < 32 →
    Completes (.fuseRead d f) s (fun t =>
      t.rd d Reg.DC_BOOT_STATUS_STAGE = 2 ∧ t.rd d Reg.FUSE_STATUS_READ_DONE = 1 ∧ t.rd d Reg.FUSE_STATUS_CRC_OK = 1 ∧
      t.rd d Reg.FUSE_SERIAL = f.serial.toNat ∧ t.rd d Reg.DC_ID_STEPPING = f.stepping ∧
      (∀ i, i < 3 → t.rd d (Reg.FUSE_MAP_W i) = f.mapW.toNat / 2 ^ (64 * i) % 2 ^ 64 ∧
        t.rd d (Reg.FUSE_MAP_E i) = f.mapE.toNat / 2 ^ (64 * i) % 2 ^ 64) ∧
      t.rd d Reg.DC_BOOT_STATUS_ERROR = 0)) ∧
  (∀ (s : State) (d : Nat) (f : FuseData), d < dieCount s.orderCode → atStage s d 1 = true → f.crcOk = false →
    Completes (.fuseRead d f) s (fun t =>
      t.rd d Reg.DC_BOOT_STATUS_STAGE = 1 ∧ t.rd d Reg.DC_BOOT_STATUS_ERROR = 2 ∧ HandsOver d 0 0x011 0 s t)) ∧
  (∀ (s : State) (d k : Nat) (c : FlashCopy), d < dieCount s.orderCode → atStage s d 2 = true →
    firstCopy s d 0 (fun _ => true) = some (k, c) → Completes (.bootFirmwareLoad d) s (fun t =>
      t.rd d Reg.DC_BOOT_STATUS_STAGE = 3 ∧ t.rd d Reg.DC_BOOT_STATUS_BOOT_COPY = k ∧
      t.rd d (Reg.DC_COMPAT_MAJOR 1) = c.compat.major % 2 ^ 16 ∧ t.rd d (Reg.DC_COMPAT_MINOR 1) = c.compat.minor % 2 ^ 16 ∧
      RegsBut [(d, Reg.DC_BOOT_STATUS_STAGE), (d, Reg.DC_BOOT_STATUS_BOOT_COPY), (d, Reg.DC_COMPAT_MAJOR 1),
        (d, Reg.DC_COMPAT_MINOR 1)] s t)) ∧
  (∀ (s : State) (d : Nat), d < dieCount s.orderCode → atStage s d 2 = true →
    firstCopy s d 0 (fun _ => true) = none → Completes (.bootFirmwareLoad d) s (fun t =>
      t.rd d Reg.DC_BOOT_STATUS_STAGE = 2 ∧ t.rd d Reg.DC_BOOT_STATUS_ERROR = 4 ∧ HandsOver d 0 0x011 0 s t)))

/-- Stages 6 to 8 (R88, R90, R91): HBM training marks the failed channels and the ring comes up; the runtime firmware
whose major is the boot firmware's takes over; the warden starts. Stages 9 and 10 (R94, R99, R111): the module roll
call, the election of a time master that hears no lower die, and the limit of one second. -/
def Obligations.TrainingToRollCall : Prop :=
  ((∀ (s : State) (d : Nat) (failed : BitVec 24), d < dieCount s.orderCode → atStage s d 3 = true →
    popCount 24 failed.toNat ≠ 24 → s.rd d Reg.REC_FAIL_CHAN < 2 ^ 24 → Completes (.hbmTraining d failed) s (fun t =>
      t.rd d Reg.DC_BOOT_STATUS_STAGE = 4 ∧ t.rd d Reg.DC_CHAN_FAIL = failed.toNat ∧
      t.rd d Reg.REC_FAIL_CHAN = s.rd d Reg.REC_FAIL_CHAN ||| failed.toNat ∧ t.rd d Reg.REC_STAGE_RING_UP = 1 ∧
      t.boot.selfRefresh.contains d = false ∧ t.slc.hbm = s.slc.hbm ∧
      (∃ w l, t.recs.waiting = s.recs.waiting ++ w :: l ∧ w.die = d ∧ w.typ = 0x010))) ∧
  (∀ (s : State) (d : Nat), d < dieCount s.orderCode → atStage s d 3 = true →
    Completes (.hbmTraining d 0xFFFFFF#24) s (fun t =>
      t.rd d Reg.DC_BOOT_STATUS_STAGE = 3 ∧ t.rd d Reg.DC_BOOT_STATUS_ERROR = 5 ∧ t.rd d Reg.DC_CHAN_FAIL = 0xFFFFFF)) ∧
  (∀ (s : State) (d k : Nat) (c : FlashCopy) (keptOk : Bool), d < dieCount s.orderCode → atStage s d 4 = true →
    firstCopy s d 1 (fun c => Nat.beq c.compat.major (compatOf s d 1).major) = some (k, c) →
    Completes (.runtimeFirmwareHandover ⟨d, keptOk⟩) s (fun t =>
      (keptOk = false → look d t.img.kept = none) ∧ (keptOk = true → t.img.kept = s.img.kept) ∧
      t.rd d Reg.DC_BOOT_STATUS_STAGE = 5 ∧ t.rd d Reg.DC_BOOT_STATUS_RUN_COPY = k ∧
      t.rd d (Reg.DC_COMPAT_MAJOR 2) = c.compat.major % 2 ^ 16 ∧ t.rd d (Reg.DC_COMPAT_MAJOR 5) = c.format.major % 2 ^ 16 ∧
      t.rd d (Reg.DC_COMPAT_MAJOR 6) = c.abi.major % 2 ^ 16 ∧
      (c.pairing.contains (compatOf s d 1, c.compat) = false → look d t.boot.dieHold = some 3 ∧
        t.rd d Reg.DC_HOLD_HOLD_REASON = 3) ∧
      (c.pairing.contains (compatOf s d 1, c.compat) = true → t.boot.dieHold = s.boot.dieHold))) ∧
  (∀ (s : State) (d k : Nat) (c : FlashCopy), d < dieCount s.orderCode → atStage s d 5 = true →
    firstCopy s d 2 (fun _ => true) = some (k, c) → Completes (.wardenBoot d) s (fun t =>
      t.rd d Reg.DC_BOOT_STATUS_STAGE = 6 ∧ t.rd d Reg.DC_BOOT_STATUS_WARD_COPY = k ∧ t.rd d Reg.WARD_STATUS = 1 ∧
      t.rdBit d Reg.DC_CAPS 2 = true)) ∧
  (∀ (s : State) (d : Nat), d < dieCount s.orderCode → atStage s d 5 = true →
    firstCopy s d 2 (fun _ => true) = none → Completes (.wardenBoot d) s (fun t =>
      t.rd d Reg.DC_BOOT_STATUS_STAGE = 6 ∧ RegsBut [(d, Reg.DC_BOOT_STATUS_STAGE)] s t ∧ HandsOver d 0 0x011 0 s t))) ∧
  ((∀ (s : State) (d : Nat) (late : Bool), d < dieCount s.orderCode → atStage s d 6 = true →
    ((∀ k, k < 3 → heard s d (siblingOf d k) = true) ∨ late = true ∧ s.boot.beaconed.contains d = true) →
    Completes (.moduleRollCall d late) s (fun t =>
      t.rd d Reg.DC_BOOT_STATUS_STAGE = 7 ∧
      ∀ k, k < 3 → heard s d (siblingOf d k) = false → portUp t d k = false)) ∧
  (∀ (s : State) (d : Nat), d < dieCount s.orderCode → atStage s d 7 = true →
    s.rd d Reg.DC_RTIME_STATUS_ALIGNED = 0 → overLink s d = true → mastersHeard s d = [] →
    (∀ r ∈ s.boot.roll, r.observer = d → d ≤ r.die) → s.boot.censusOpen = true →
    Completes (.masterElection d) s (fun t =>
      t.rd d Reg.DC_RTIME_STATUS_MASTER = 1 ∧ t.rd d Reg.DC_RTIME_STATUS_ALIGNED = 1 ∧
      t.rd d Reg.DC_BOOT_STATUS_STAGE = 8 ∧
      RegsBut [(d, Reg.DC_RTIME_STATUS_MASTER), (d, Reg.DC_RTIME_STATUS_ALIGNED), (d, Reg.DC_BOOT_STATUS_STAGE)] s t)) ∧
  (∀ (s : State) (d : Nat), d < dieCount s.orderCode → dieUp s d = true → s.rd d Reg.DC_BOOT_STATUS_ERROR = 0 →
    s.rd d Reg.DC_BOOT_STATUS_STAGE < 8 → Completes (.stageTimeout d) s (fun t =>
      t.rd d Reg.DC_BOOT_STATUS_ERROR =
        (if s.rd d Reg.DC_BOOT_STATUS_STAGE = 7 ∧ portUp s d 3 = false ∧ portUp s d 4 = false then 7 else 8) ∧
      HandsOver d 0 0x011 0 s t ∧ RegsBut [(d, Reg.DC_BOOT_STATUS_ERROR)] s t)))

/-- Beacons and DEAD notices (R92, R93, R95): a running die past stage 8 sends its own on every trained port; a valid
one enters the observer's table, a bad one is counted; the third slot missed in a row declares the die dead; another
agent that a notice reaches remembers it. -/
def Obligations.BeaconsAndNotices : Prop :=
  ((∀ (s : State) (d : Nat), d < dieCount s.orderCode → dieUp s d = true → 6 ≤ s.rd d Reg.DC_BOOT_STATUS_STAGE →
    Completes (.beaconSend 0 d) s (fun t =>
      t.net.ctl = s.net.ctl ++
        ([0, 1, 2, 3, 4].filter (portUp s d)).map (fun k => ⟨d, k, none, 0, (dieBeacon s d).bytes⟩) ∧
      SMap.get 0 t.boot.beaconSeq (beaconKey 0 d) = (SMap.get 0 s.boot.beaconSeq (beaconKey 0 d) + 1) % 65536 ∧
      t.regs = s.regs)) ∧
  (∀ (s : State) (o port : Nat) (bytes : List Byte) (b : BeaconMsg), o < 64 → dieUp s o = true →
    parseBeacon bytes = some b → b.kind = 0 → b.agent < dieCount s.orderCode → look b.agent s.boot.dead = none →
    s.rd o Reg.DC_RTIME_STATUS_MASTER = 0 →
    Completes (.beacon o port bytes) s (fun t =>
      t.rdBit o Reg.DC_ROLL b.agent = true ∧ RegsBut [(o, Reg.DC_ROLL)] s t ∧
      ∃ r ∈ t.boot.roll, r.observer = o ∧ r.die = b.agent ∧ r.missed = 0 ∧ r.incarn = b.incarn ∧ r.stage = b.stage)) ∧
  (∀ (s : State) (o port : Nat) (bytes : List Byte), o < 64 → dieUp s o = true → parseBeacon bytes = none →
    Completes (.beacon o port bytes) s (fun t =>
      t.rd o Reg.DC_BEACON_DROP = min (s.rd o Reg.DC_BEACON_DROP + 1) (2 ^ 32 - 1) ∧
      RegsBut [(o, Reg.DC_BEACON_DROP)] s t ∧ t.boot = s.boot)) ∧
  (∀ (s : State) (o d : Nat) (r : RollRow), o < 64 → dieUp s o = true →
    s.boot.roll.find? (fun r => Nat.beq r.observer o && Nat.beq r.die d) = some r →
    Completes (.beaconSlotMissed o 0 d) s (fun t =>
      (r.missed < 2 → t.regs = s.regs ∧
        t.boot.roll.find? (fun r => Nat.beq r.observer o && Nat.beq r.die d) = some { r with missed := r.missed + 1 }) ∧
      (r.missed = 2 → look d t.boot.dead = some r.incarn ∧ t.boot.notices.contains (o, d) = true)))) ∧
  ((∀ (s : State) (a d : Nat) (inc : BitVec 16), d < dieCount s.orderCode → a < 64 → a ≠ d → dieUp s a = true →
    s.boot.notices.contains (a, d) = false → (∀ r ∈ s.boot.roll, r.observer = a → r.die ≠ d) →
    (look d s.boot.dead).isSome = true →
    Completes (.deadNotice a d inc) s (fun t =>
      t.boot.notices = s.boot.notices ++ [(a, d)] ∧ t.boot.dead = s.boot.dead)))

/-- Time alignment (R100, R101): a die that is not aligned keeps fifteen exchanges; the sixteenth makes it step RTIME,
once, by the offset of the exchange with the least round trip; a later one within 20 ns aligns it, and one beyond makes it
measure again. An aligned die that measures an offset beyond 20 ns corrects it and records it. The census and the pairing
hold (R103, R105, R108, R109, R110, R118, R119): the census closes over the dies that completed stage 10 and the RM
evaluates it; a matching digest releases HOLD-UNTESTED, the held dies, a HELD port or an image's format and is remembered,
and any other is refused; a driver's ABI is refused, attached or held. That a combination's digest of a format and its
port are taken as R108's is the model's choice (log 105). -/
def Obligations.TimeCensusAndPairing : Prop :=
  ((∀ (s : State) (d m : Nat) (t1 t2 t3 t4 : Word), AlignsTo s d m → (keptExch s d).length < 15 →
    Completes (.rtimeExchange d t1 t2 t3 t4) s (fun t =>
      t.boot = { s.boot with exch := s.boot.exch ++ [⟨d, t1, t2, t3, t4⟩] } ∧ t.regs = s.regs ∧ t.recs = s.recs)) ∧
  (∀ (s : State) (d m : Nat) (t1 t2 t3 t4 : Word) (x : Exch), AlignsTo s d m → (keptExch s d).length = 15 →
    s.boot.stepped.contains d = false → bestExch (keptExch s d ++ [⟨d, t1, t2, t3, t4⟩]) = some x →
    Completes (.rtimeExchange d t1 t2 t3 t4) s (fun t =>
      t.rtime d = ((s.rtime d : Int) + round10 x.offset2).toNat % 2 ^ 64 ∧ t.boot.stepped.contains d = true ∧
      (∀ y ∈ keptExch s d, x.trip ≤ y.trip) ∧ t.boot.exch = s.boot.exch ++ [⟨d, t1, t2, t3, t4⟩] ∧
      t.rd d Reg.DC_RTIME_STATUS_ALIGNED = 0 ∧ HandsOver d 0 0x012 0 s t ∧
      RegsBut [(d, Reg.DC_RTIME), (d, Reg.DC_RTIME_STATUS_OFFSET)] s t)) ∧
  (∀ (s : State) (d m : Nat) (t1 t2 t3 t4 : Word), AlignsTo s d m → (keptExch s d).length = 15 →
    s.boot.stepped.contains d = true → Completes (.rtimeExchange d t1 t2 t3 t4) s (fun t =>
      t.boot = { s.boot with exch := s.boot.exch ++ [⟨d, t1, t2, t3, t4⟩] } ∧ t.regs = s.regs ∧ t.recs = s.recs)) ∧
  (∀ (s : State) (d m : Nat) (t1 t2 t3 t4 : Word), AlignsTo s d m → 16 ≤ (keptExch s d).length →
    -40 ≤ Exch.offset2 ⟨d, t1, t2, t3, t4⟩ → Exch.offset2 ⟨d, t1, t2, t3, t4⟩ ≤ 40 →
    Completes (.rtimeExchange d t1 t2 t3 t4) s (fun t =>
      t.rd d Reg.DC_RTIME_STATUS_ALIGNED = 1 ∧ look d t.boot.follows = some m ∧ keptExch t d = [] ∧
      (s.boot.censusOpen = true → s.rd d Reg.DC_BOOT_STATUS_STAGE = 7 → t.rd d Reg.DC_BOOT_STATUS_STAGE = 8 ∧
        RegsBut [(d, Reg.DC_RTIME_STATUS_OFFSET), (d, Reg.DC_RTIME_STATUS_ALIGNED), (d, Reg.DC_BOOT_STATUS_STAGE)] s t))) ∧
  (∀ (s : State) (d m : Nat) (t1 t2 t3 t4 : Word), AlignsTo s d m → 16 ≤ (keptExch s d).length →
    (Exch.offset2 ⟨d, t1, t2, t3, t4⟩ < -40 ∨ 40 < Exch.offset2 ⟨d, t1, t2, t3, t4⟩) →
    Completes (.rtimeExchange d t1 t2 t3 t4) s (fun t =>
      t.rd d Reg.DC_RTIME_STATUS_ALIGNED = 0 ∧ t.boot.follows = s.boot.follows ∧ keptExch t d = [] ∧
      (∀ y ∈ s.boot.exch, y.die ≠ d → y ∈ t.boot.exch) ∧ RegsBut [(d, Reg.DC_RTIME_STATUS_OFFSET)] s t)) ∧
  (∀ (s : State) (d : Nat) (o : Int), d < dieCount s.orderCode → dieUp s d = true →
    s.rd d Reg.DC_RTIME_STATUS_ALIGNED = 1 → s.rd d Reg.DC_RTIME_STATUS_MASTER = 0 →
    Completes (.rtimeRemeasure d o) s (fun t =>
      t.rd d Reg.DC_RTIME_STATUS_OFFSET = ofSigned 16 o ∧
      (-20 ≤ o → o ≤ 20 → t.boot = s.boot ∧ t.recs = s.recs) ∧
      ((20 < o ∨ o < -20) → SMap.get 0 t.boot.corr d = o ∧ HandsOver d 0 0x012 0 s t) ∧
      RegsBut [(d, Reg.DC_RTIME_STATUS_OFFSET)] s t))) ∧
  ((∀ (s : State) (ms : Nat), s.rack.rmUp = true → s.boot.censusOpen = true → stage10Dies s ≠ [] →
    (s.boot.censusMs ≤ ms ∨ (stage10Dies s).length = dieCount s.orderCode) →
    Completes (.censusClose ms) s (fun t =>
      t.boot.censusOpen = false ∧ (∀ d ∈ stage10Dies s, censusRow s d ∈ t.boot.census) ∧
      (∀ r ∈ t.boot.census, r ∈ s.boot.census ∨ r.die ∈ stage10Dies s) ∧ (t.boot.ready = true ↔ t.boot.hold = 0) ∧
      (majorsDiffer (allTuples t) = true → t.boot.hold = 1) ∧
      (majorsDiffer (allTuples t) = false → passes t (combo t) = false → t.boot.hold = 2) ∧
      (majorsDiffer (allTuples t) = false → passes t (combo t) = true → s.boot.dieHold = [] → t.boot.hold = 0))) ∧
  (∀ (s : State) (ms : Nat), (s.rack.rmUp = false ∨ s.boot.censusOpen = false ∨ stage10Dies s = [] ∨
      ms < s.boot.censusMs ∧ (stage10Dies s).length ≠ dieCount s.orderCode) →
    Completes (.censusClose ms) s (fun t => t = s)) ∧
  (∀ (s : State) (digest : BitVec 32), TakesDigests s → BitVec.ofNat 32 (comboDigest (combo s)) = digest →
    Completes (.untestedAccept digest) s (fun t =>
      digest ∈ t.boot.accepted ∧ t.boot.unqualified = true ∧ (∀ x ∈ t.boot.dieHold, x.2 = 1) ∧
      (∀ d, d < dieCount s.orderCode → dieUp s d = true → t.rd d Reg.DC_ACCEPT = digest.toNat) ∧
      (s.boot.hold = 2 → majorsDiffer (allTuples s) = false → t.boot.hold = 0 ∧ t.boot.ready = true) ∧
      (s.boot.hold = 2 → majorsDiffer (allTuples s) = true → t.boot.hold = 1) ∧
      (s.boot.hold ≠ 2 → t.boot.hold = s.boot.hold))) ∧
  (∀ (s : State) (digest : BitVec 32), TakesDigests s → BitVec.ofNat 32 (comboDigest (combo s)) ≠ digest →
    (∃ p ∈ s.host.abiHeld, BitVec.ofNat 32 (comboDigest (abiCombo s p)) = digest) ∨
      (∃ c ∈ s.boot.fmtHeld, BitVec.ofNat 32 (comboDigest (fmtCombo s c)) = digest) →
    Completes (.untestedAccept digest) s (fun t =>
      digest ∈ t.boot.accepted ∧ t.boot.hold = s.boot.hold ∧
      (∀ p ∈ s.host.abiHeld, BitVec.ofNat 32 (comboDigest (abiCombo s p)) = digest →
        attachOf t p = 2 ∧ t.rd (portDie p) Reg.HOST_ABI_STATUS_RESULT = 1 ∧ p ∉ t.host.abiHeld) ∧
      (∀ c, c ∈ t.boot.fmtHeld ↔ c ∈ s.boot.fmtHeld ∧ BitVec.ofNat 32 (comboDigest (fmtCombo s c)) ≠ digest))) ∧
  (∀ (s : State) (digest : BitVec 32), s.rack.rmUp = true →
    (s.boot.censusOpen = true ∨ s.boot.hold = 1 ∨ BitVec.ofNat 32 (comboDigest (combo s)) ≠ digest ∧
      (∀ p ∈ s.host.abiHeld, BitVec.ofNat 32 (comboDigest (abiCombo s p)) ≠ digest) ∧
      (∀ c ∈ s.boot.fmtHeld, BitVec.ofNat 32 (comboDigest (fmtCombo s c)) ≠ digest)) →
    Completes (.untestedAccept digest) s (fun t => t.boot = s.boot ∧ t.regs = s.regs ∧ t.host = s.host ∧
      t.recs.rackSeq = (s.recs.rackSeq + 1) % 65536)) ∧
  (∀ (s : State) (port : Nat) (abi : Compat), portDie port < dieCount s.orderCode → portLive s port = true →
    attachOf s port = 1 → abi.major < 2 ^ 16 → abi.minor < 2 ^ 16 →
    Completes (.hostAbi port abi) s (fun t =>
      t.rd (portDie port) Reg.HOST_ABI_MAJOR = abi.major ∧ t.rd (portDie port) Reg.HOST_ABI_MINOR = abi.minor ∧
      (abi.major ≠ (compatOf s (portDie port) 6).major →
        attachOf t port = 1 ∧ t.rd (portDie port) Reg.HOST_ABI_STATUS_RESULT = 2 ∧ t.host = s.host) ∧
      (abi.major = (compatOf s (portDie port) 6).major →
        (abiTested s = true ∨ BitVec.ofNat 32 (comboDigest (combo s ++ [tupKey 6 abi])) ∈ s.boot.accepted) →
        attachOf t port = 2 ∧ t.rd (portDie port) Reg.HOST_ABI_STATUS_RESULT = 1 ∧
        t.rd (portDie port) Reg.HOST_ABI_STATUS_ACTIVE = min abi.minor (compatOf s (portDie port) 6).minor % 2 ^ 16 ∧
        port ∉ t.host.abiHeld) ∧
      (abi.major = (compatOf s (portDie port) 6).major → abiTested s = false →
        BitVec.ofNat 32 (comboDigest (combo s ++ [tupKey 6 abi])) ∉ s.boot.accepted →
        attachOf t port = 3 ∧ t.rd (portDie port) Reg.HOST_ABI_STATUS_RESULT = 3 ∧ port ∈ t.host.abiHeld) ∧
      RegsBut [(portDie port, Reg.HOST_ABI_MAJOR), (portDie port, Reg.HOST_ABI_MINOR),
        (portDie port, Reg.HOST_STATUS_ATTACH), (portDie port, Reg.HOST_ABI_STATUS_RESULT),
        (portDie port, Reg.HOST_ABI_STATUS_ACTIVE)] s t ∧ t.boot = s.boot ∧ t.recs = s.recs)))

/-- Forwards and invalidations at a cache (Table COH-5): FwdGetS to a line in M of a partition with owned coherence
leaves it in O and sends the sectors to the requester; FwdGetM takes the line with its ACKS; Inv takes a shared line
and acknowledges it. No byte of HBM changes. Responses at a cache (Table COH-5, R262): Data makes a waiting line
shared, DataExcl makes it modified once no InvAck is owed, the last InvAck does so too, and WBAck or Nack STALE ends a
put. -/
def Obligations.CachesFollowTable : Prop :=
  ((∀ (s : State) (m : CohMsg) (l : Line), MeetsLine s .fwdGetS m l → m.homeReq = false → plainMode s m.part = false →
    l.st = .m → Completes (.fwdgets m) s (fun t =>
      (∃ l', findLine t m.dst m.dstSlice m.line = some l' ∧ l'.st = .o ∧ l'.sectors = l.sectors ∧
        (l.way < 16 → l' = { l with st := .o } ∧ t.slc.hbm = s.slc.hbm)) ∧
      (∃ r ∈ t.slc.net, (r.typ = .data ∨ r.typ = .dataP) ∧ r.msg.src = m.dst ∧ r.msg.dst = m.req ∧
        r.msg.line = m.line ∧ r.msg.mask = m.mask ∧ r.msg.data = lineData l) ∧ t.core = s.core)) ∧
  (∀ (s : State) (m : CohMsg) (l : Line), MeetsLine s .fwdGetM m l → (l.st = .o ∨ l.st = .m) →
    Completes (.fwdgetm m) s (fun t =>
      findLine t m.dst m.dstSlice m.line = none ∧
      (∃ r ∈ t.slc.net, (r.typ = .dataExcl ∨ r.typ = .dataExclP) ∧ r.msg.dst = m.req ∧ r.msg.mask = 15 ∧
        r.msg.acks = m.acks ∧ r.msg.dirty = dirtyMask l &&& 15 ∧ r.msg.data = lineData l) ∧
      t.slc.hbm = s.slc.hbm ∧ t.core = s.core)) ∧
  (∀ (s : State) (m : CohMsg) (l : Line), MeetsLine s .inv m l → l.st = .s →
    Completes (.inv m) s (fun t =>
      findLine t m.dst m.dstSlice m.line = none ∧
      (∃ r ∈ t.slc.net, r.typ = .invAck ∧ r.msg.src = m.dst ∧ r.msg.dst = m.req ∧ r.msg.line = m.line) ∧
      t.slc.hbm = s.slc.hbm ∧ t.core = s.core))) ∧
  ((∀ (s : State) (m : CohMsg) (l : Line), MeetsLine s .data m l → (l.st = .isD ∨ l.st = .ssD) →
    Completes (.data m) s (fun t => ∃ l', findLine t m.dst m.dstSlice m.line = some l' ∧ l'.st = .s ∧
      l'.sectors = (install false m l).sectors ∧ (l.way < 16 → l'.way = l.way ∧ t.slc.hbm = s.slc.hbm))) ∧
  (∀ (s : State) (m : CohMsg) (l : Line), MeetsLine s .dataP m l → (l.st = .isD ∨ l.st = .ssD) →
    Completes (.datap m) s (fun t => ∃ l', findLine t m.dst m.dstSlice m.line = some l' ∧ l'.st = .s ∧
      l'.sectors = (install false m l).sectors ∧ (l.way < 16 → l'.way = l.way ∧ t.slc.hbm = s.slc.hbm))) ∧
  (∀ (s : State) (m : CohMsg) (l : Line), MeetsLine s .dataExcl m l → (l.st = .imAD ∨ l.st = .smAD ∨ l.st = .omA) →
    Completes (.dataexcl m) s (fun t => ∃ l', findLine t m.dst m.dstSlice m.line = some l' ∧
      l'.cnt = l.cnt + m.acks ∧ l'.st = (if l.cnt + m.acks = 0 then .m else .imA) ∧
      l'.sectors = (install true m l).sectors ∧ (l.way < 16 → l'.way = l.way ∧ t.slc.hbm = s.slc.hbm))) ∧
  (∀ (s : State) (m : CohMsg) (l : Line), MeetsLine s .dataExclP m l → (l.st = .imAD ∨ l.st = .smAD ∨ l.st = .omA) →
    Completes (.dataexclp m) s (fun t => ∃ l', findLine t m.dst m.dstSlice m.line = some l' ∧
      l'.cnt = l.cnt + m.acks ∧ l'.st = (if l.cnt + m.acks = 0 then .m else .imA) ∧
      l'.sectors = (install true m l).sectors ∧ (l.way < 16 → l'.way = l.way ∧ t.slc.hbm = s.slc.hbm))) ∧
  (∀ (s : State) (m : CohMsg) (l : Line), MeetsLine s .invAck m l → (l.st = .imA ∨ l.st = .smAD) →
    Completes (.invack m) s (fun t => ∃ l', findLine t m.dst m.dstSlice m.line = some l' ∧ l'.cnt = l.cnt - 1 ∧
      l'.st = (if l.st = .imA ∧ l.cnt = 1 then .m else l.st) ∧ l'.sectors = l.sectors ∧
      (l.way < 16 → t.slc.hbm = s.slc.hbm))) ∧
  (∀ (s : State) (m : CohMsg) (l : Line), MeetsPut s .wbAck m l →
    (l.st = .miA ∨ l.st = .oiA ∨ l.st = .siA ∨ l.st = .iiA) →
    Completes (.wback m) s (fun t => findPut t m.dst m.dstSlice m.line = none ∧ t.slc.lines = s.slc.lines ∧
      t.slc.hbm = s.slc.hbm)) ∧
  (∀ (s : State) (m : CohMsg) (l : Line), MeetsPut s .nack m l → m.reason = 0 →
    (l.st = .miA ∨ l.st = .oiA ∨ l.st = .siA ∨ l.st = .iiA) →
    Completes (.nack m) s (fun t => findPut t m.dst m.dstSlice m.line = none ∧ t.slc.lines = s.slc.lines ∧
      t.slc.hbm = s.slc.hbm)))

/-- Requests at the directory (Table COH-6): GetS to an entry in M under owned coherence makes it O and forwards; GetM
of another die makes it the owner and forwards; Upg of an owner in O makes it M. Puts at the directory (Table COH-6):
a sharer leaves, an owner in M frees the entry, an owner in O leaves it shared; each is answered with WBAck. -/
def Obligations.DirectoriesFollowTable : Prop :=
  ((∀ (s : State) (m : CohMsg) (n : Nat) (e : DirEnt), MeetsEntry s .getS m n e → e.st = .m →
    plainMode s m.part = false → Completes (.gets m) s (fun t =>
      (∃ e', findDir t m.dst n m.line = some e' ∧ e'.st = .o ∧ e'.owner = e.owner ∧ e'.sharers = [m.src]) ∧
      (∃ r ∈ t.slc.net, r.typ = .fwdGetS ∧ r.msg.dst = e.owner ∧ r.msg.req = m.src ∧ r.msg.mask = m.mask) ∧
      t.rd m.dst (Reg.COH_FWD n) = min (s.rd m.dst (Reg.COH_FWD n) + 1) (2 ^ 48 - 1) ∧ t.slc.hbm = s.slc.hbm)) ∧
  (∀ (s : State) (m : CohMsg) (n : Nat) (e : DirEnt), MeetsEntry s .getM m n e → e.st = .m → m.src ≠ e.owner →
    Completes (.getm m) s (fun t =>
      (∃ e', findDir t m.dst n m.line = some e' ∧ e'.st = .m ∧ e'.owner = m.src ∧ e'.sharers = []) ∧
      (∃ r ∈ t.slc.net, r.typ = .fwdGetM ∧ r.msg.dst = e.owner ∧ r.msg.req = m.src ∧
        r.msg.acks = (delNat e.sharers m.src).length) ∧ t.slc.hbm = s.slc.hbm)) ∧
  (∀ (s : State) (m : CohMsg) (n : Nat) (e : DirEnt), MeetsEntry s .upg m n e → e.st = .o → m.src = e.owner →
    Completes (.upg m) s (fun t =>
      (∃ e', findDir t m.dst n m.line = some e' ∧ e'.st = .m ∧ e'.owner = m.src ∧ e'.sharers = []) ∧
      (∃ r ∈ t.slc.net, r.typ = .dataExcl ∧ r.msg.dst = m.src ∧ r.msg.mask = 0 ∧ r.msg.acks = e.sharers.length) ∧
      (∀ c ∈ e.sharers, ∃ r ∈ t.slc.net, r.typ = .inv ∧ r.msg.dst = c ∧ r.msg.req = m.src) ∧
      t.slc.hbm = s.slc.hbm))) ∧
  ((∀ (s : State) (m : CohMsg) (n : Nat) (e : DirEnt), MeetsEntry s .putS m n e → e.st = .s →
    e.sharers.contains m.src = true → Completes (.puts m) s (fun t =>
      (delNat e.sharers m.src ≠ [] →
        findDir t m.dst n m.line = some { e with sharers := delNat e.sharers m.src }) ∧
      (delNat e.sharers m.src = [] → findDir t m.dst n m.line = none) ∧
      (∃ r ∈ t.slc.net, r.typ = .wbAck ∧ r.msg.dst = m.src ∧ r.msg.line = m.line) ∧ t.slc.hbm = s.slc.hbm)) ∧
  (∀ (s : State) (m : CohMsg) (n : Nat) (e : DirEnt), MeetsEntry s .putM m n e → e.st = .m → m.src = e.owner →
    Completes (.putm m) s (fun t =>
      findDir t m.dst n m.line = none ∧
      (∃ r ∈ t.slc.net, r.typ = .wbAck ∧ r.msg.dst = m.src ∧ r.msg.line = m.line))) ∧
  (∀ (s : State) (m : CohMsg) (n : Nat) (e : DirEnt), MeetsEntry s .putO m n e → e.st = .o → m.src = e.owner →
    e.sharers ≠ [] → Completes (.puto m) s (fun t =>
      findDir t m.dst n m.line = some { e with st := .s } ∧
      (∃ r ∈ t.slc.net, r.typ = .wbAck ∧ r.msg.dst = m.src ∧ r.msg.line = m.line))))

/-- COH_TIMEOUT, RECLAIM_TIMEOUT and COH_QUERY (R280–R282, R288): a line that waits for data completes as an orphan,
with its counts; the time-out faults the partition; a query shows the entry of the home slice. -/
def Obligations.OrphansAndQuery : Prop :=
  (∀ (s : State) (d n la : Nat) (l : Line), d < dieCount s.orderCode → CachesQuiet s → findLine s d n la = some l →
    l.st = .isD → OthersPlaced s d n la → l.way < 16 → (homePart s (la * 128)).isSome = true →
    Completes (.cohTimeout d n la false) s (fun t =>
      ((imgParts s).contains (linePart s la) = true → t.prt.faulted.contains (linePart s la) = true) ∧
      (s.prt.faulted.contains (linePart s la) = true →
        (∃ l', findLine t d n la = some l' ∧ l'.st = .s ∧ l'.sectors = (poisonMissing (missing l) l).sectors) ∧
        t.rd d Reg.COH_ORPHAN = min (s.rd d Reg.COH_ORPHAN + 1) (2 ^ 32 - 1) ∧
        t.rd d Reg.COH_TIMEOUTS = min (s.rd d Reg.COH_TIMEOUTS + 1) (2 ^ 32 - 1)))) ∧
  (∀ (s : State) (d dead p : Nat) (l : Line), d < dieCount s.orderCode → dieUp s d = true →
    s.rdBit d Reg.DC_DEAD dead = true → (imgParts s).filter (fun p => imgDie s p dead) = [p] → CachesQuiet s →
    s.slc.lines = [l] → s.slc.puts = [] → l.die = d → l.st = .isD → linePart s l.la = p →
    Completes (.reclaimTimeout d dead) s (fun t =>
      (∃ l', findLine t d l.slice l.la = some l' ∧ l'.st = .s ∧ l'.sectors = (poisonMissing (missing l) l).sectors) ∧
      t.rd d Reg.COH_ORPHAN = min (s.rd d Reg.COH_ORPHAN + 1) (2 ^ 32 - 1) ∧ RegsBut [(d, Reg.COH_ORPHAN)] s t)) ∧
  (∀ (s : State) (d n p : Nat) (src : Source) (e : DirEnt), d < dieCount s.orderCode →
    homeDie (s.rd d Reg.COH_QUERY_ADDR * 128) = d → homePart s (s.rd d Reg.COH_QUERY_ADDR * 128) = some p →
    wardenOk s p src = true → homeChan s (s.rd d Reg.COH_QUERY_ADDR * 128) = some n →
    findDir s d n (s.rd d Reg.COH_QUERY_ADDR) = some e → e.owner < 64 → e.count < 128 → e.cause < 4 →
    Completes (.cohQuery d src) s (fun t =>
      t.rd d Reg.COH_QUERY_RESULT_STATE = e.st.code ∧ t.rd d Reg.COH_QUERY_RESULT_VALID = 1 ∧
      t.rd d Reg.COH_QUERY_RESULT_NOT_HOME = 0 ∧ t.rd d Reg.COH_QUERY_RESULT_COUNT = e.count ∧
      t.rd d Reg.COH_QUERY_RESULT_CAUSE = e.cause ∧
      t.rd d Reg.COH_QUERY_RESULT_OWNER = (if e.st = .m ∨ e.st = .o ∨ e.dataOwed = true then e.owner else 0) ∧
      { t.slc with queried := s.slc.queried } = s.slc ∧ look d t.slc.queried = some (s.rd d Reg.COH_QUERY_ADDR) ∧
      RegsBut [(d, Reg.COH_QUERY_RESULT_STATE), (d, Reg.COH_QUERY_RESULT_VALID), (d, Reg.COH_QUERY_RESULT_NOT_HOME),
        (d, Reg.COH_QUERY_RESULT_COUNT), (d, Reg.COH_QUERY_RESULT_CAUSE), (d, Reg.COH_QUERY_RESULT_OWNER),
        (d, Reg.COH_QUERY_SHARERS)] s t))

/-- Hits at the home slice (R218–R220): a read answers the sector and counts a hit; a write puts its bytes into the
sector; an atomic answers the old sector and leaves the new one dirty. HBM does not change. Fills, retries and
starvation (R223, R232, R233, R237): a fill installs the fetched sectors and frees its MSHR; a retry of a request of a
killed context is dropped, and one of the coherence protocol is sent again; a lapse ends the held entry. -/
def Obligations.SlicesServe : Prop :=
  ((∀ (s : State) (d n : Nat) (r : SliceReq) (l : Line), MeetsHome s d n ⟨r, .read⟩ l →
    (sectorAt l (Waiter.sec ⟨r, .read⟩)).valid = true → Completes (.sliceReadRequest d n r) s (fun t =>
      t.slc.rsp = s.slc.rsp ++ [⟨d, n, r.requester, r.pa, 0, (sectorAt l (Waiter.sec ⟨r, .read⟩)).poison,
        (sectorAt l (Waiter.sec ⟨r, .read⟩)).data⟩] ∧
      t.rd d (Reg.UC_HIT n) = min (s.rd d (Reg.UC_HIT n) + 1) (2 ^ 48 - 1) ∧ RegsBut [(d, Reg.UC_HIT n)] s t ∧
      t.slc.hbm = s.slc.hbm ∧ t.core = s.core)) ∧
  (∀ (s : State) (d n : Nat) (r : SliceReq) (mask : BitVec 32) (v : SectorData) (l : Line),
    MeetsHome s d n ⟨r, .write mask v⟩ l → (sectorAt l (Waiter.sec ⟨r, .read⟩)).valid = true →
    Completes (.sliceWriteRequest d n r mask v) s (fun t =>
      (∃ l', findLine t d n (Waiter.la ⟨r, .read⟩) = some l' ∧
        l'.sectors = l.sectors.set (Waiter.sec ⟨r, .read⟩) (wroteSector mask v (sectorAt l (Waiter.sec ⟨r, .read⟩)))) ∧
      t.slc.rsp = s.slc.rsp ++ [⟨d, n, r.requester, r.pa, 1, false, 0⟩] ∧ t.regs = s.regs ∧
      t.slc.hbm = s.slc.hbm ∧ t.core = s.core)) ∧
  (∀ (s : State) (d n op : Nat) (r : SliceReq) (wide signed : Bool) (a b : Word) (l : Line),
    MeetsHome s d n ⟨r, .atomic op wide signed a b⟩ l → (sectorAt l (Waiter.sec ⟨r, .read⟩)).valid = true →
    (sectorAt l (Waiter.sec ⟨r, .read⟩)).poison = false →
    Completes (.sliceAtomicRequest d n r op wide signed a b) s (fun t =>
      (∃ l', findLine t d n (Waiter.la ⟨r, .read⟩) = some l' ∧
        (sectorAt l' (Waiter.sec ⟨r, .read⟩)).dirty = true ∧ (sectorAt l' (Waiter.sec ⟨r, .read⟩)).data =
          atomSector (r.pa % 32) op wide signed a.toNat b.toNat (sectorAt l (Waiter.sec ⟨r, .read⟩)).data) ∧
      t.slc.rsp = s.slc.rsp ++ [⟨d, n, r.requester, r.pa, 0, false, (sectorAt l (Waiter.sec ⟨r, .read⟩)).data⟩] ∧
      t.slc.hbm = s.slc.hbm ∧ t.core = s.core))) ∧
  ((∀ (s : State) (d n la : Nat) (m : Mshr) (l : Line) (bad : BitVec 4), d < dieCount s.orderCode →
    s.slc.mshrs = [m] → m.die = d → m.slice = n → m.la = la → m.waiters = [] → m.remote = [] →
    s.slc.holdq = [] → findLine s d n la = some l → l.st = .home → LinesPlaced s d n → sliceFailed s d n = false →
    Completes (.sliceFillReturn d n la bad) s (fun t =>
      (∃ l', findLine t d n la = some l' ∧ l'.sectors = fillSectors m.mask bad false l s 0 l.sectors) ∧
      t.slc.mshrs = [] ∧ t.slc.hbm = s.slc.hbm ∧ t.regs = s.regs ∧
      (m.mask &&& bad ≠ 0 → HandsOver d (0x10 + n) 0x040 0 s t))) ∧
  (∀ (s : State) (q d n k w la : Nat) (x : NetMsg),
    (retryOf s q).waiting.find? (fun b => Nat.blt 0 b.wait) = some ⟨.coh d n la, k, w⟩ →
    s.slc.sent.find? (fun x => Nat.beq x.msg.src d && Nat.beq x.msg.srcSlice n && Nat.beq x.msg.line la) = some x →
    Completes (.retryBackoffExpiry q) s (fun t =>
      t.slc.net = s.slc.net ++
        [⟨x.typ, { x.msg with incarn := BitVec.ofNat 16 (s.rd x.msg.src Reg.DC_INCARNATION) }⟩] ∧
      t.slc.lines = s.slc.lines ∧ t.slc.sent = s.slc.sent)) ∧
  (∀ (s : State) (q k w : Nat) (a : SlotAt),
    (retryOf s q).waiting.find? (fun b => Nat.blt 0 b.wait) = some ⟨.kv a, k, w⟩ →
    Completes (.retryBackoffExpiry q) s (fun t => { t.slc with retry := s.slc.retry } = s.slc ∧
      (retryOf t q).waiting.any (fun b => b.what == .kv a && Nat.blt 0 b.wait) = false)) ∧
  (∀ (s : State) (q d n k w : Nat) (x : Waiter),
    (retryOf s q).waiting.find? (fun b => Nat.blt 0 b.wait) = some ⟨.access d n x, k, w⟩ →
    ctxKilled s x.req.part x.req.inst x.req.ctx = true →
    Completes (.retryBackoffExpiry q) s (fun t => t.slc.net = s.slc.net ∧ t.slc.rsp = s.slc.rsp ∧ t.regs = s.regs ∧
      (retryOf t q).waiting.any (fun b => b.what == .access d n x) = false)) ∧
  (∀ (s : State) (d n : Nat) (e : Starve), d < dieCount s.orderCode →
    s.slc.starve.find? (fun e => Nat.beq e.die d && Nat.beq e.slice n) = some e → e.held = true →
    Completes (.starveHoldLapse d n) s (fun t => t.slc.starve.length + 1 = s.slc.starve.length ∧ t.regs = s.regs ∧
      t.slc.lines = s.slc.lines)))

/-- Failures of a slice and its channel (Table UC-5, R244, R245, R537): the failure map takes the channel and the
partition faults; a fill that times out fails the slice; a correctable error is counted, an uncorrectable one in a
dirty sector poisons it. The half link and the pins (R217, R226): a packet that passes is counted on its lane, a
refused write is dropped with its count and record; a pin command pins every line or none; an unpin command leaves its
lines unpinned. -/
def Obligations.SliceFailuresAndPins : Prop :=
  ((∀ (s : State) (d n : Nat), d < dieCount s.orderCode → n < 24 → sliceFailed s d n = false → mshrsOf s d n = [] →
    Completes (.channelFailure d n) s (fun t =>
      (slicePart s d n = none → sliceFailed t d n = true ∧ t.rdBit d Reg.REC_FAIL_CHAN n = true ∧
        RegsBut [(d, Reg.REC_FAIL_CHAN)] s t ∧
        (∃ w x, t.recs.waiting = s.recs.waiting ++ [w, x] ∧ w.typ = 0x033 ∧ x.typ = 0x043 ∧ x.cls = 3)) ∧
      (∀ p, slicePart s d n = some p → (imgParts s).contains p = true → t.prt.faulted.contains p = true))) ∧
  (∀ (s : State) (d n la : Nat) (m : Mshr) (l : Line), d < dieCount s.orderCode → n < 24 → sliceFailed s d n = false →
    slicePart s d n = none → s.slc.mshrs = [m] → m.die = d → m.slice = n → m.la = la → m.mask ≠ 0 → m.waiters = [] →
    m.remote = [] → findLine s d n la = some l → l.st = .home → l.way < 16 →
    Completes (.fillTimeout d n la) s (fun t =>
      sliceFailed t d n = true ∧ t.slc.mshrs = [] ∧ t.rdBit d Reg.REC_FAIL_CHAN n = true ∧
      ∃ l', findLine t d n la = some l' ∧ l'.sectors = fillSectors m.mask 15 true l s 0 l.sectors)) ∧
  (∀ (s : State) (d n la sec : Nat) (l : Line), d < dieCount s.orderCode → n < 24 → findLine s d n la = some l →
    sec < l.sectors.length → (sectorAt l sec).valid = true → (sectorAt l sec).dirty = true →
    Completes (.sliceSramError d n 1 la sec) s (fun t =>
      (∃ l', findLine t d n la = some l' ∧ (sectorAt l' sec).poison = true ∧
        (sectorAt l' sec).data = (sectorAt l sec).data) ∧
      t.rd d (Reg.UC_ECC_UE n) = min (s.rd d (Reg.UC_ECC_UE n) + 1) (2 ^ 32 - 1) ∧
      RegsBut [(d, Reg.UC_ECC_UE n)] s t ∧ HandsOver d (0x10 + n) 0x040 0 s t)) ∧
  (∀ (s : State) (d n la sec : Nat), d < dieCount s.orderCode → n < 24 →
    Completes (.sliceSramError d n 0 la sec) s (fun t =>
      t.rd d (Reg.UC_ECC_CE n) = min (s.rd d (Reg.UC_ECC_CE n) + 1) (2 ^ 32 - 1) ∧
      RegsBut [(d, Reg.UC_ECC_CE n)] s t ∧ t.slc = s.slc))) ∧
  ((∀ (s : State) (d : Nat) (p : HalfPkt), d < dieCount s.orderCode → s.rd d Reg.MESH_MODE_HLINK_ON = 0 →
    Completes (.halfLinkCrossing d p) s (fun t => t = s)) ∧
  (∀ (s : State) (d : Nat) (p : HalfPkt), d < dieCount s.orderCode → s.rd d Reg.MESH_MODE_HLINK_ON ≠ 0 →
    halfPasses s d p = true → Completes (.halfLinkCrossing d p) s (fun t =>
      t.rd d (Reg.MESH_HLINK_FLITS (laneOf s d (p.src / 20))) =
        min (s.rd d (Reg.MESH_HLINK_FLITS (laneOf s d (p.src / 20))) + pktFlits p.kind) (2 ^ 48 - 1) ∧
      RegsBut [(d, Reg.MESH_HLINK_FLITS (laneOf s d (p.src / 20)))] s t ∧ t.recs = s.recs)) ∧
  (∀ (s : State) (d : Nat) (p : HalfPkt), d < dieCount s.orderCode → s.rd d Reg.MESH_MODE_HLINK_ON ≠ 0 →
    halfPasses s d p = false → p.write = true →
    Completes (.halfLinkCrossing d p) s (fun t =>
      t.rd d Reg.UC_HLINK_DROP = min (s.rd d Reg.UC_HLINK_DROP + 1) (2 ^ 32 - 1) ∧
      RegsBut [(d, Reg.UC_HLINK_DROP)] s t ∧ HandsOver d 7 0x041 0 s t ∧ t.slc = s.slc)) ∧
  (∀ (s : State) (d lines p : Nat) (src : Source), d < dieCount s.orderCode →
    pinRefusal (pinCmd d 1 lines p s) d lines p src = none → Completes (.ucPin d src lines p) s (fun t =>
      (pinAll d p (pinLines (pinCmd d 1 lines p s) d p lines) (pinCmd d 1 lines p s) = none →
        t.rd d Reg.UC_PIN_STATUS_RESULT = 1 ∧ t.rd d Reg.UC_PIN_STATUS_DONE = 0 ∧ t.slc = s.slc) ∧
      (∀ u, pinAll d p (pinLines (pinCmd d 1 lines p s) d p lines) (pinCmd d 1 lines p s) = some u →
        t.rd d Reg.UC_PIN_STATUS_RESULT = 0 ∧
        t.rd d Reg.UC_PIN_STATUS_DONE = (pinLines (pinCmd d 1 lines p s) d p lines).length ∧ t.slc = u.slc))) ∧
  (∀ (s : State) (d lines p : Nat) (src : Source), d < dieCount s.orderCode →
    pinRefusal (pinCmd d 2 lines p s) d lines p src = none → Completes (.ucUnpin d src lines p) s (fun t =>
      t.rd d Reg.UC_PIN_STATUS_RESULT = 0 ∧
      (∀ x ∈ pinLines (pinCmd d 2 lines p s) d p lines, isPinned t d x = false) ∧ t.slc.hbm = s.slc.hbm)) ∧
  (∀ (s : State) (d lines p : Nat) (src : Source), d < dieCount s.orderCode → (lines = 0 ∨ 1024 < lines) →
    Completes (.ucPin d src lines p) s (fun t => t.rd d Reg.UC_PIN_STATUS_RESULT = 4 ∧ t.slc = s.slc)))

/-- Frames and retrains (R297, R307, R325): a frame in order is accepted and its SEQ advances; any other is counted
and answered with a NAK of the last good one; the sixteenth NAK of a frame retrains the port; a retrain at full width
is counted and recorded. -/
def Obligations.ToashFrames : Prop :=
  (∀ (s : State) (d port : Nat) (header crc : BitVec 32) (flits b : List Byte), b = frameBytes header flits crc →
    d < dieCount s.orderCode → port < 5 → portUp s d port = true → frameOk b = true →
    frameSeq b = (linkPort s d port).expect → Completes (.toashFrame d port header flits crc) s (fun t =>
      (linkPort t d port).expect = (frameSeq b + 1) % 4096 ∧
      (linkPort t d port).accepted = (linkPort s d port).accepted + 1 ∧
      ((linkPort s d port).queue = [] → (∀ x ∈ (linkPort s d port).retry, x.seq ≠ frameAck b) →
        (linkPort t d port).retry = (linkPort s d port).retry) ∧
      (∀ x l, (linkPort s d port).queue = [] → (linkPort s d port).retry = x :: l → x.seq = frameAck b →
        (linkPort t d port).retry = l) ∧ t.regs = s.regs ∧ t.net.ctl = s.net.ctl)) ∧
  (∀ (s : State) (d port : Nat) (header crc : BitVec 32) (flits b : List Byte), b = frameBytes header flits crc →
    d < dieCount s.orderCode → port < 5 → portUp s d port = true →
    (frameOk b = false ∨ frameSeq b ≠ (linkPort s d port).expect) →
    Completes (.toashFrame d port header flits crc) s (fun t =>
      (linkPort t d port).expect = (linkPort s d port).expect ∧
      (linkPort t d port).accepted = (linkPort s d port).accepted ∧
      t.net.ctl = s.net.ctl ++ [⟨d, port, none, 2, leBytes 2 (((linkPort s d port).expect + 4095) % 4096)⟩] ∧
      t.rd d (Reg.MESH_LINK_CRC port) = min (s.rd d (Reg.MESH_LINK_CRC port) + 1) (2 ^ 32 - 1) ∧
      RegsBut [(d, Reg.MESH_LINK_CRC port)] s t)) ∧
  (∀ (s : State) (d port good : Nat), d < dieCount s.orderCode → port < 5 → portUp s d port = true →
    Completes (.toashNak d port good) s (fun t =>
      ((linkPort s d port).replayOf = (good + 1) % 4096 → (linkPort s d port).replays < 15 →
        (linkPort t d port).replays = (linkPort s d port).replays + 1 ∧ t.regs = s.regs) ∧
      ((linkPort s d port).replayOf = (good + 1) % 4096 → (linkPort s d port).replays = 15 →
        (linkPort t d port).replays = 0 ∧
        t.rd d (Reg.MESH_LINK_RETRAIN port) = min (s.rd d (Reg.MESH_LINK_RETRAIN port) + 1) (2 ^ 16 - 1)) ∧
      (∀ x l, (linkPort s d port).queue = [] → (linkPort s d port).retry = x :: l → x.seq = good →
        (linkPort t d port).retry = l))) ∧
  (∀ (s : State) (d port width : Nat), d < dieCount s.orderCode → port < 5 → portUp s d port = true →
    fullWidth port ≤ width → Completes (.toashRetrain d port width) s (fun t =>
      portUp t d port = true ∧ portWidth t d port = fullWidth port ∧
      t.rd d (Reg.MESH_LINK_RETRAIN port) = min (s.rd d (Reg.MESH_LINK_RETRAIN port) + 1) (2 ^ 16 - 1) ∧
      (linkPort t d port).expect = (linkPort s d port).expect ∧ HandsOver d 7 0x060 1 s t))

/-- Ports and planes (R307, R329, R535): a port that trains to at least its least width comes up with a fresh
sequence; one that goes down is recorded and its frames are gone; a lost spine plane takes every die's port of it
down. Routers and half-link lanes (R43, R537, Table MESH-7): the failed half is in the failure map, a lane that is
lost is out, each with a DEGRADE record; the partitions of the halves fault. -/
def Obligations.PortsRoutersAndPlanes : Prop :=
  ((∀ (s : State) (d port width : Nat), d < dieCount s.orderCode → port < 5 → dieUp s d = true →
    trainStage port ≤ s.rd d Reg.DC_BOOT_STATUS_STAGE → leastWidth port ≤ width →
    (3 ≤ port → s.rack.spineReady.contains (port - 3) = true) →
    Completes (.toashPortTrained d port width) s (fun t =>
      portUp t d port = true ∧ portWidth t d port = min width (fullWidth port) ∧ (linkPort t d port).expect = 0 ∧
      (linkPort t d port).replays = 0 ∧ t.rdBit d Reg.DC_CAPS (8 + port) = true)) ∧
  (∀ (s : State) (d port : Nat), d < dieCount s.orderCode → port < 3 → portUp s d port = true →
    portParts s d port = [] → Completes (.toashPortDown d port) s (fun t =>
      portUp t d port = false ∧ linkPort t d port = ⟨d, port, 0, 0, 0, 0, 0, [], []⟩ ∧ HandsOver d 7 0x060 1 s t ∧
      { t.slc with net := s.slc.net } = s.slc ∧ (∀ x ∈ t.slc.net, x ∈ s.slc.net) ∧
      (∀ x ∈ s.slc.net, cohVia s d port x = false → x ∈ t.slc.net) ∧
      (∀ x ∈ s.net.redNet, redVia s d port x = false → x ∈ t.net.redNet))) ∧
  (∀ (s : State) (plane : Nat), plane < 2 → s.rack.planeLost.contains plane = false →
    s.rack.planeLost.contains (1 - plane) = false → (allParts s).filter (spansModules s) = [] →
    Completes (.spinePlaneLoss plane) s (fun t =>
      t.rack.planeLost.contains plane = true ∧ t.rack.spineReady.contains plane = false ∧
      (∀ d, d < dieCount s.orderCode → portUp t d (3 + plane) = false) ∧
      t.recs.rackSeq = (s.recs.rackSeq + 1) % 65536 ∧ t.boot = s.boot))) ∧
  ((∀ (s : State) (d c : Nat), d < dieCount s.orderCode → c < 320 → Completes (.routerFailure d c) s (fun t =>
    t.net.routersFailed.contains (d * 320 + c) = true ∧
    (halfPart s d (clusterSide c) = none → t.rdBit d Reg.REC_FAIL_HALF (clusterSide c) = true ∧
      HandsOver d 7 0x033 1 s t ∧ RegsBut [(d, Reg.REC_FAIL_HALF)] s t) ∧
    (∀ p, halfPart s d (clusterSide c) = some p → (imgParts s).contains p = true →
      t.prt.faulted.contains p = true))) ∧
  (∀ (s : State) (d lane : Nat), d < dieCount s.orderCode → lane < 4 → s.net.lanesDown.contains (d * 4 + lane) = false →
    Completes (.halfLinkLaneDown d lane) s (fun t =>
      t.net.lanesDown.contains (d * 4 + lane) = true ∧
      (∀ p, halfPart s d 0 = some p → (imgParts s).contains p = true → t.prt.faulted.contains p = true) ∧
      (halfPart s d 0 = none → halfPart s d 1 = none → HandsOver d 7 0x033 1 s t ∧ t.regs = s.regs))))

/-- Combining (R312, R313, R316): a free-mode packet that meets an entry of its key combines with it, and an entry
whose hold ends or whose moment has come leaves its place; none changes a die's memory. Accumulation (R317, R321,
R322): a packet that does not complete its group opens it, or adds to it; a time-out discards the group, counts it and
records it. -/
def Obligations.Reductions : Prop :=
  ((∀ (s : State) (d c : Nat) (p : RedPkt) (f : RedFlight) (e : Combine), d < dieCount s.orderCode → p.fixed = false →
    redArrives s (some (.router d c)) p = some f → findCombine s (.router d c) p.key = some e →
    (combine e.pkt p).contrib < (combine e.pkt p).count →
    Completes (.redPacket (.router d c) ⟨p, false⟩) s (fun t =>
      (∃ e', findCombine t (.router d c) p.key = some e' ∧ e'.pkt = combine e.pkt p ∧
        e'.pkt.contrib = e.pkt.contrib + p.contrib ∧ e'.todo = e.todo) ∧
      t.net.redNet = s.net.redNet.erase f ∧
      t.rd d Reg.RED_COMBINES = min (s.rd d Reg.RED_COMBINES + 1) (2 ^ 48 - 1) ∧
      RegsBut [(d, Reg.RED_COMBINES)] s t ∧ t.slc = s.slc)) ∧
  (∀ (s : State) (d c : Nat) (p : RedPkt) (f : RedFlight), d < dieCount s.orderCode → p.fixed = false →
    redArrives s (some (.router d c)) p = some f → findCombine s (.router d c) p.key = none →
    (entriesAt s (.router d c)).length < 32 → p.contrib < p.count →
    Completes (.redPacket (.router d c) ⟨p, false⟩) s (fun t =>
      (∃ e', findCombine t (.router d c) p.key = some e' ∧ e'.pkt = p ∧ e'.todo = f.todo.drop 1) ∧
      t.net.redNet = s.net.redNet.erase f ∧ t.regs = s.regs ∧ t.slc = s.slc)) ∧
  (∀ (s : State) (d c : Nat) (p : RedPkt) (f : RedFlight), d < dieCount s.orderCode → p.fixed = false →
    redArrives s (some (.router d c)) p = some f → findCombine s (.router d c) p.key = none →
    32 ≤ (entriesAt s (.router d c)).length → f.todo = [.router d c] →
    Completes (.redPacket (.router d c) ⟨p, false⟩) s (fun t =>
      t.net.combine = s.net.combine ∧ t.net.redNet = s.net.redNet.erase f ++ [⟨p, .router d c, []⟩] ∧
      t.rd d Reg.RED_PASS = min (s.rd d Reg.RED_PASS + 1) (2 ^ 48 - 1) ∧ RegsBut [(d, Reg.RED_PASS)] s t)) ∧
  (∀ (s : State) (d c e : Nat) (k : RedKey) (x : Combine) (l : List RedPlace), d < dieCount s.orderCode →
    findCombine s (.router d c) k = some x → x.pkt.fixed = false → x.todo = .router d e :: l →
    clusterSide c = clusterSide e →
    Completes (.redHoldExpiry (.router d c) k) s (fun t =>
      findCombine t (.router d c) k = none ∧ t.net.redNet = s.net.redNet ++ [⟨x.pkt, .router d c, x.todo⟩] ∧
      t.regs = s.regs ∧ t.slc = s.slc)) ∧
  (∀ (s : State) (d c elapsed : Nat) (k : RedKey) (x : Combine) (r : RTree), d < dieCount s.orderCode →
    findCombine s (.router d c) k = some x → x.pkt.fixed = true → x.pkt.key = k → treeOf s k.part k.tag = some r →
    (x.pkt.count ≤ x.pkt.contrib ∨ 16 * s.rd d Reg.RED_HOLD_TREE ≤ elapsed) → (allDies s).all (fun e =>
      Nat.beq (s.rd e Reg.MESH_MODE_HLINK_ON) 0) = true → (∀ n ∈ r.nodes, n.kind = 0 → n.loc < dieCount s.orderCode) →
    x.pkt.dst < dieCount s.orderCode →
    Completes (.treeNodeForward (.router d c) k elapsed) s (fun t =>
      findCombine t (.router d c) k = none ∧
      t.net.redNet = s.net.redNet ++ [⟨{ x.pkt with prev := x.pkt.node, node := nextNode r x.pkt.node }, .router d c,
        ((r.nodes[nextNode r x.pkt.node]?).map RNode.place).toList⟩] ∧ t.regs = s.regs ∧ t.slc = s.slc))) ∧
  ((∀ (s : State) (d n : Nat) (p : RedPkt) (f : RedFlight), d < dieCount s.orderCode → p.fixed = false →
    redArrives s none p = some f → homeDie (p.key.sector * 32) = d → homeChan s (p.key.sector * 32) = some n →
    homePart s (p.key.sector * 32) = some p.key.part → incLower p.incarn.toNat (s.rd p.src Reg.DC_INCARNATION) = false →
    findAccum s d n p.key = none → openAccums s d n < 512 → p.contrib < p.count →
    Completes (.redAccumulate d n ⟨p, false⟩) s (fun t =>
      t.net.accum = s.net.accum ++ [⟨d, n, p, [p.inst]⟩] ∧ t.net.redNet = s.net.redNet.erase f ∧
      t.net.redStall.contains (d * 24 + n) = false ∧ RegsBut [(d, Reg.RED_OPEN_PEAK n)] s t ∧ t.slc = s.slc)) ∧
  (∀ (s : State) (d n : Nat) (p : RedPkt) (f : RedFlight), d < dieCount s.orderCode → p.fixed = false →
    redArrives s none p = some f → homeDie (p.key.sector * 32) = d → homeChan s (p.key.sector * 32) = some n →
    homePart s (p.key.sector * 32) = some p.key.part → incLower p.incarn.toNat (s.rd p.src Reg.DC_INCARNATION) = false →
    findAccum s d n p.key = none → 512 ≤ openAccums s d n →
    Completes (.redAccumulate d n ⟨p, false⟩) s (fun t =>
      t.net.redStall.contains (d * 24 + n) = true ∧ t.net.redNet = s.net.redNet ∧ t.net.accum = s.net.accum ∧
      t.regs = s.regs ∧ t.slc = s.slc)) ∧
  (∀ (s : State) (d n : Nat) (p : RedPkt) (f : RedFlight) (a : Accum), d < dieCount s.orderCode → p.fixed = false →
    redArrives s none p = some f → homeDie (p.key.sector * 32) = d → homeChan s (p.key.sector * 32) = some n →
    homePart s (p.key.sector * 32) = some p.key.part → incLower p.incarn.toNat (s.rd p.src Reg.DC_INCARNATION) = false →
    redStalled s d n = false → findAccum s d n p.key = some a → a.pkt.count = p.count → a.pkt.key = p.key →
    a.pkt.contrib + p.contrib < p.count →
    Completes (.redAccumulate d n ⟨p, false⟩) s (fun t =>
      (∃ b, findAccum t d n p.key = some b ∧ b.pkt = combine a.pkt p ∧ p.inst ∈ b.insts) ∧ t.regs = s.regs ∧
      t.slc = s.slc)) ∧
  (∀ (s : State) (d n : Nat) (k : RedKey) (a : Accum), d < dieCount s.orderCode → findAccum s d n k = some a →
    Completes (.redTimeout d n k) s (fun t =>
      t.net.accum = s.net.accum.erase a ∧
      ((imgParts s).contains a.pkt.key.part = true → t.prt.faulted.contains a.pkt.key.part = true) ∧
      (s.prt.faulted.contains a.pkt.key.part = true → HandsOver d 8 0x061 3 s t ∧
        t.rd d Reg.RED_BROKEN = min (s.rd d Reg.RED_BROKEN + 1) (2 ^ 32 - 1) ∧ RegsBut [(d, Reg.RED_BROKEN)] s t))))

/-- SIGNAL, END and illegal words (R372, R380, R381, R396): SIGNAL's atomic is performed and the mover goes on; END
frees the mover and its item completes; a word that is no legal instruction, or that cannot be read (R577), kills the
mover's context. -/
def Obligations.MoverControl : Prop :=
  (∀ (s s2 s3 : State) (d m w pa : Nat) (x : Mover) (v : SectorData), AtWord s d m 7 x w → x.mr (mvRD w) % 8 = 0 →
    translate (runsWord x w).xby (x.mr (mvRD w)) .store (putMover (runsWord x w) s) = some (.pa pa, s2) →
    accAtomic (runsWord x w).acc pa (fun y => BitVec.ofNat 256 (y.toNat - bits y.toNat (pa % 32 * 8 + 63) (pa % 32 * 8) *
      2 ^ (pa % 32 * 8) + (if (mvImm w).testBit 0 then x.mr (mvRS w) else
        (bits y.toNat (pa % 32 * 8 + 63) (pa % 32 * 8) + x.mr (mvRS w)) % 2 ^ 64) * 2 ^ (pa % 32 * 8))) s2 =
        some (.ok v false, s3) →
    Completes (.signal d m) s (fun t => t.slc = s3.slc ∧
      t.rd d Reg.MOV_BYTES = min (s3.rd d Reg.MOV_BYTES + 8) (2 ^ 48 - 1) ∧ RegsBut [(d, Reg.MOV_BYTES)] s3 t ∧
      (findMover s3 d m = some (runsWord x w) → WentTo t d m (x.pc + 1) x.mregs))) ∧
  (∀ (s : State) (d m w : Nat) (x : Mover), AtWord s d m 0 x w → Completes (.movEnd d m) s (fun t =>
    findMover t d m = none ∧ t.que.itemsOut = lower s.que.itemsOut x.queue ∧
    (x.cqe = false → t.regs = s.regs ∧ t.slc = s.slc ∧ t.recs = s.recs))) ∧
  (∀ (s : State) (d m : Nat) (x : Mover), d < dieCount s.orderCode → findMover s d m = some x → x.state ≠ .halted →
    x.latched = none → mvLegal (progWord s d x.slot x.pc) = false → s.prt.faulted.contains x.part = false →
    Completes (.moverIllegalInstruction d m) s (fun t =>
      findMover t d m = none ∧ ctxKilled t x.part x.inst x.ctx = true)) ∧
  (∀ (s : State) (d m : Nat) (x : Mover), d < dieCount s.orderCode → findMover s d m = some x → x.state ≠ .halted →
    x.latched = none → s.que.badProg.contains (x.die * 8192 + 128 * x.slot + x.pc) = true →
    s.prt.faulted.contains x.part = false → Completes (.moverIllegalInstruction d m) s (fun t =>
      findMover t d m = none ∧ ctxKilled t x.part x.inst x.ctx = true))

/-- WAIT (R379): its first poll and each later one end it where the comparison holds and leave it stalled where not;
its time-out kills the context. RESTART, ABORT and the halt time-out (R386): a halted mover goes on at the given PC,
or its item ends and it is free; a command for a mover that is not halted is counted as ignored. -/
def Obligations.MoverWaitsAndHalts : Prop :=
  ((∀ (s s2 : State) (d m w v : Nat) (x : Mover), AtWord s d m 6 x w → x.mr (mvRD w) % 8 = 0 →
    mvWord { runsWord x w with checked := true } (x.mr (mvRD w)) (putMover (runsWord x w) s) = .ok v s2 →
    findMover s2 d m = some (runsWord x w) →
    Completes (.wait d m) s (fun t => t.slc = s2.slc ∧ t.regs = s2.regs ∧
      (waitHolds w v (x.mr (mvRS w)) = true → WentTo t d m (x.pc + 1) x.mregs) ∧
      (waitHolds w v (x.mr (mvRS w)) = false → ∃ y, findMover t d m = some y ∧ y.state = .stalled ∧ y.pc = x.pc ∧
        y.latched = some (BitVec.ofNat 64 w)))) ∧
  (∀ (s s2 : State) (d m v : Nat) (w : Word) (x : Mover), d < dieCount s.orderCode → findMover s d m = some x →
    x.state = .stalled → x.latched = some w → x.checked = true → x.stopped = false → x.changed = false → x.pc < 127 →
    mvLegal w.toNat = true → mvOp w.toNat = 6 → mvHeld s x = false → x.mr (mvRD w.toNat) % 8 = 0 →
    mvWord { x with state := .running } (x.mr (mvRD w.toNat)) (putMover { x with state := .running } s) = .ok v s2 →
    findMover s2 d m = some { x with state := .running } →
    Completes (.waitPoll d m) s (fun t => t.slc = s2.slc ∧ t.regs = s2.regs ∧
      (waitHolds w.toNat v (x.mr (mvRS w.toNat)) = true → WentTo t d m (x.pc + 1) x.mregs) ∧
      (waitHolds w.toNat v (x.mr (mvRS w.toNat)) = false → findMover t d m = some { x with state := .stalled }))) ∧
  (∀ (s : State) (d m : Nat) (w : Word) (x : Mover), d < dieCount s.orderCode → findMover s d m = some x →
    x.latched = some w → mvOp w.toNat = 6 → x.checked = true → bits w.toNat 63 40 ≠ 0 →
    s.prt.faulted.contains x.part = false → Completes (.waitTimeout d m) s (fun t =>
      findMover t d m = none ∧ ctxKilled t x.part x.inst x.ctx = true))) ∧
  ((∀ (s : State) (d m pc : Nat) (src : Source) (x : Mover), d < dieCount s.orderCode → m < 32 → pc < 128 →
    findMover s d m = some x → x.state = .halted → (partSealed s x.part = false ∨ src = .warden) →
    Completes (.restart d m pc src) s (fun t =>
      findMover t d m = some { x with state := .running, pc := pc, changed := false,
                                      gen := s.rd d (Reg.MOV_SLOT_GEN x.slot) } ∧
      RegsBut [(d, Reg.MOV_CMD_MOVER), (d, Reg.MOV_CMD_PC)] s t ∧ t.slc = s.slc)) ∧
  (∀ (s : State) (d m : Nat) (src : Source) (x : Mover), d < dieCount s.orderCode → m < 32 →
    findMover s d m = some x → x.state = .halted → (partSealed s x.part = false ∨ src = .warden) →
    Completes (.abort d m src) s (fun t =>
      findMover t d m = none ∧ t.que.itemsOut = lower s.que.itemsOut x.queue)) ∧
  (∀ (s : State) (d m : Nat) (x : Mover), d < dieCount s.orderCode → findMover s d m = some x → x.state = .halted →
    Completes (.movHaltTimeout d m) s (fun t =>
      findMover t d m = none ∧ t.que.itemsOut = lower s.que.itemsOut x.queue)) ∧
  (∀ (s : State) (d m pc : Nat) (src : Source), d < dieCount s.orderCode → m < 32 → pc < 128 →
    findMover s d m = none → Completes (.restart d m pc src) s (fun t =>
      t.que = s.que ∧ t.rd d Reg.MOV_CMD_IGN = min (s.rd d Reg.MOV_CMD_IGN + 1) (2 ^ 16 - 1))))

/-- COPY, GATHER, SCATTER and FILL (R373, R376): an empty one is a NOP; one whose run is carried through goes on to
the next word; one whose run stalls keeps the bytes done in its cursor; a misaligned one kills its context. SHIFT
(R377, R378): of no block it is a NOP; while a step fence holds the block it stalls; a block moved whole takes it on.
-/
def Obligations.MoverMovesAndShifts : Prop :=
  (∀ (s : State) (d m w op : Nat) (x : Mover) (c : Instr), AtWord s d m op x w →
    (op, c) ∈ [(1, Instr.movCopy d m), (3, Instr.gather d m), (4, Instr.scatter d m), (5, Instr.movFill d m)] →
    (mvTotal x w = 0 → Completes c s (fun t =>
      WentTo t d m (x.pc + 1) (mvInc x w).mregs ∧ t.regs = s.regs ∧ t.slc = s.slc ∧ t.core = s.core)) ∧
    (mvTotal x w ≠ 0 → mvAligned x w = true → ∀ (sp : Span) (s2 : State) (n code addr : Nat) (s3 : State),
      mvSpan { runsWord x w with checked := true } w (putMover (runsWord x w) s) = .ok sp s2 →
      mvStep { runsWord x w with checked := true } w sp s2 = ⟨n, 0, code, addr, s3⟩ → n = mvTotal x w →
      findMover s3 d m = some (runsWord x w) →
      Completes c s (fun t => WentTo t d m (x.pc + 1) (mvInc x w).mregs ∧ t.slc = s3.slc ∧ t.regs = s3.regs)) ∧
    (mvTotal x w ≠ 0 → mvAligned x w = true → ∀ (sp : Span) (s2 : State) (n code addr : Nat) (s3 : State),
      mvSpan { runsWord x w with checked := true } w (putMover (runsWord x w) s) = .ok sp s2 →
      mvStep { runsWord x w with checked := true } w sp s2 = ⟨n, 1, code, addr, s3⟩ →
      findMover s3 d m = some (runsWord x w) →
      Completes c s (fun t => t.slc = s3.slc ∧
        ∃ y, findMover t d m = some y ∧ y.cursor = n ∧ y.state = .stalled ∧ y.pc = x.pc)) ∧
    (mvTotal x w ≠ 0 → mvAligned x w = false → s.prt.faulted.contains x.part = false →
      Completes c s (fun t => findMover t d m = none ∧ ctxKilled t x.part x.inst x.ctx = true))) ∧
  (∀ (s : State) (d m w : Nat) (x : Mover) (q : SeqSlot), AtWord s d m 2 x w →
    shCheck (putMover (runsWord x w) s) (runsWord x w) w = none → findSeq s (shSeq x w) = some q →
    (shCount x w = 0 → Completes (.shift d m) s (fun t =>
      WentTo t d m (x.pc + 1) x.mregs ∧ t.regs = s.regs ∧ t.slc = s.slc)) ∧
    (shCount x w ≠ 0 → q.recs.any (fun r => Nat.ble r.firstBlock (shBlock x w 0) ||
        Nat.ble r.firstBlock (((shBlock x w 0 : Nat) : Int) + mvSigned w).toNat) = true →
      Completes (.shift d m) s (fun t => t.regs = s.regs ∧ t.slc = s.slc ∧
        ∃ y, findMover t d m = some y ∧ y.state = .stalled ∧ y.cursor = 0 ∧ y.pc = x.pc)) ∧
    (shCount x w = 1 → 0 < blockSize q.blk → q.recs = [] → ∀ (src dst code addr : Nat) (s2 s3 s4 : State) (q' : SeqSlot),
      shAddr { runsWord x w with checked := true } q.dir.toNat (shBlock x w 0) (putMover (runsWord x w) s) = .ok src s2 →
      shAddr { runsWord x w with checked := true } q.dir.toNat (((shBlock x w 0 : Nat) : Int) + mvSigned w).toNat s2 =
        .ok dst s3 →
      mvRunBeats { runsWord x w with checked := true }
        (fun k s => mvRead { runsWord x w with checked := true } (src + 0 + k) s) (src + 0) (dst + 0)
        ((blockSize q.blk * shStride x w - 0) / 32) ((blockSize q.blk * shStride x w - 0) / 32) 0 s3 = ⟨blockSize q.blk * shStride x w, 0, code, addr, s4⟩ →
      findSeq s4 (shSeq x w) = some q' → q'.blk = q.blk → findMover s4 d m = some (runsWord x w) →
      Completes (.shift d m) s (fun t => WentTo t d m (x.pc + 1) x.mregs ∧ t.slc = s4.slc ∧ t.regs = s4.regs)))

/-- Program changes (R370, R385, R387): an allowed write is taken, GEN moves and every mover of the slot is CHANGED; a
write to a sealed partition's slot that the warden did not send changes no register. Partner accesses (R513, R517): a
completion's data waits for the mover; one without a request is counted; a time-out is counted and drops the access.
-/
def Obligations.ProgramsAndPartnerAnswers : Prop :=
  ((∀ (s : State) (d w : Nat) (src : Source) (v : Word), d < dieCount s.orderCode → w < 8192 →
    (slotSealed s d (w / 128) = false ∨ src = .warden) → Completes (.movProgWrite d w src v) s (fun t =>
      t.rd d (Reg.MOV_PROG w) = v.toNat ∧
      t.rd d (Reg.MOV_SLOT_GEN (w / 128)) = (s.rd d (Reg.MOV_SLOT_GEN (w / 128)) + 1) % 2 ^ 16 ∧
      RegsBut [(d, Reg.MOV_PROG w), (d, Reg.MOV_SLOT_GEN (w / 128))] s t ∧ t.slc = s.slc ∧
      (∀ y ∈ t.que.movers, y.die = d → y.slot = w / 128 → y.changed = true))) ∧
  (∀ (s : State) (d slot : Nat) (src : Source) (v : Word), d < dieCount s.orderCode → slot < 64 →
    slotSealed s d slot = false → (bits v.toNat 28 28 = 0 ∨ partSealed s (bits v.toNat 22 16) = false ∨ src = .warden) →
    Completes (.movSlotWrite d slot src v) s (fun t =>
      t.rd d (Reg.MOV_SLOT_PART slot) = bits v.toNat 22 16 ∧ t.rd d (Reg.MOV_SLOT_INST slot) = bits v.toNat 27 23 ∧
      t.rd d (Reg.MOV_SLOT_OWNED slot) = bits v.toNat 28 28 ∧
      (bits v.toNat 22 16 ≠ s.rd d (Reg.MOV_SLOT_PART slot) →
        t.rd d (Reg.MOV_SLOT_GEN slot) = (s.rd d (Reg.MOV_SLOT_GEN slot) + 1) % 2 ^ 16 ∧
        ∀ y ∈ t.que.movers, y.die = d → y.slot = slot → y.changed = true) ∧
      RegsBut [(d, Reg.MOV_SLOT_PART slot), (d, Reg.MOV_SLOT_INST slot), (d, Reg.MOV_SLOT_OWNED slot),
        (d, Reg.MOV_SLOT_GEN slot)] s t)) ∧
  (∀ (s : State) (d w : Nat) (src : Source) (v : Word), d < dieCount s.orderCode → w < 8192 →
    slotSealed s d (w / 128) = true → src ≠ .warden → Completes (.movProgWrite d w src v) s (fun t =>
      t.regs = s.regs ∧ t.que = s.que ∧ HandsOver d 0x0A 0x075 0 s t))) ∧
  ((∀ (s : State) (port tag : Nat) (l : List SectorData) (o : Outbound) (m : Mover),
    s.host.outbound.find? (fun o => Nat.beq o.port port && Nat.beq o.tag tag && !o.done) = some o →
    outMover s o = some m → o.kind = 0 → o.write = false → l.length = o.len / 32 → s.host.atsInv = [] →
    Completes (.partnerCompletion port tag 0 l) s (fun t =>
      { o with done := true, data := l, status := 0 } ∈ t.host.outbound ∧ t.regs = s.regs ∧ t.que = s.que ∧
      t.slc = s.slc)) ∧
  (∀ (s : State) (port tag status : Nat) (l : List SectorData), port < 32 →
    s.host.outbound.find? (fun o => Nat.beq o.port port && Nat.beq o.tag tag && !o.done) = none →
    Completes (.partnerCompletion port tag status l) s (fun t =>
      t.rd (portDie port) Reg.HOST_AER_UE = min (s.rd (portDie port) Reg.HOST_AER_UE + 1) (2 ^ 32 - 1) ∧
      RegsBut [(portDie port, Reg.HOST_AER_UE)] s t ∧ t.host = s.host ∧ t.slc = s.slc)) ∧
  (∀ (s : State) (port tag : Nat) (o : Outbound), port < 32 →
    s.host.outbound.find? (fun o => Nat.beq o.port port && Nat.beq o.tag tag && !o.done) = some o →
    o.write = false → outMover s o = none → s.host.atsInv = [] → Completes (.completionTimeout port tag) s (fun t =>
      t.host.outbound = s.host.outbound.erase o ∧
      t.rd (portDie port) Reg.HOST_CTO_COUNT = min (s.rd (portDie port) Reg.HOST_CTO_COUNT + 1) (2 ^ 32 - 1) ∧
      RegsBut [(portDie port, Reg.HOST_CTO_COUNT)] s t ∧ t.que = s.que)) ∧
  (∀ (s : State) (port tag : Nat) (o : Outbound) (m : Mover),
    s.host.outbound.find? (fun o => Nat.beq o.port port && Nat.beq o.tag tag && !o.done) = some o →
    o.write = false → outMover s o = some m → s.prt.faulted.contains o.part = false →
    Completes (.completionTimeout port tag) s (fun t =>
      ctxKilled t o.part o.inst o.ctx = true ∧ findMover t o.die o.unit = none)))

/-- Vector arithmetic (R126, R134, R136, R137): every executing lane's VD takes the opcode's value of the operands as
they were, VCVT's group its converted elements; no other register, predicate or memory changes. -/
def Obligations.VectorArithmetic : Prop :=
  (∀ (s u : State) (a : Issue) (imm : Bool) (f : BitVec 56) (t : Troupe) (i : Iss) (c : Instr) (op : Nat)
    (lane : Iss → Nat → Lane), (c, op, lane) ∈ vectorOps a imm f → Issues s u a op f t i →
    Completes c s (fun o => ∃ y, o = putTroupe y u ∧ Moved t i y ∧ y.sregs = t.sregs ∧
      (∀ n ∈ i.act, y.v (fD i.w) n = lane i n) ∧ VecBut t i.act (fD i.w) 1 y)) ∧
  (∀ (s u : State) (a : Issue) (f : BitVec 56) (t : Troupe) (i : Iss), Issues s u a 0x0D f t i →
    Completes (.vcvt a f) s (fun o => ∃ y, o = putTroupe y u ∧ Moved t i y ∧ y.sregs = t.sregs ∧
      (∀ n ∈ i.act, readGroup y n (fD i.w) (cvtRegs i.w).1 = packElems (typeWidth (fMod i.w))
        ((elemsOf (typeWidth (fType i.w)) ((List.range (cvtRegs i.w).2).map (fun j => (t.v (fA i.w + j) n).toNat))).map
          (cvtE (fType i.w) (fMod i.w) (fRnd i.w) (fSat i.w)
            (if fScale i.w then scaleOf (t.s (fSS i.w)) n else 127)
            (if fScale i.w then scaleOf (t.s (fSS i.w)) n else 127)))) ∧
      VecBut t i.act (fD i.w) (cvtRegs i.w).1 y))

/-- INT32 arithmetic is two's complement modulo 2^32 (R130, R136): what each opcode leaves in VD of an executing lane.
-/
def Obligations.Int32Arithmetic : Prop :=
  ∀ (s u : State) (a : Issue) (f : BitVec 56) (t : Troupe) (i : Iss) (c : Instr) (op n : Nat)
    (g : Lane → Lane → Lane),
    (c, op, g) ∈ intOps a f →
    Issues s u a op f t i → fType i.w = 5 → n ∈ i.act →
    Completes c s (fun o => ∃ y, findTroupe o t.at_ = some y ∧
      y.v (fD i.w) n = g (t.v (fA i.w) n) (t.v (fVB i.w) n))

/-- Comparisons, scalar arithmetic and special values (R123, R124, R135, R140): the predicate, the scalar or the
vector register named takes its value, once where the result is a scalar, and nothing else changes. -/
def Obligations.PredicatesAndScalars : Prop :=
  (∀ (s u : State) (a : Issue) (f : BitVec 56) (t : Troupe) (i : Iss), Issues s u a 0x0B f t i →
    Completes (.vcmp a f) s (fun o => ∃ y, o = putTroupe y u ∧ y.sregs = t.sregs ∧ y.vregs = t.vregs ∧
      y.threads.map (·.pc) = i.t.threads.map (·.pc) ∧
      (∀ n ∈ i.act, fPD i.w ≠ 7 → y.p (fPD i.w) n = condL (fType i.w) (fMod i.w) (t.v (fA i.w) n) (t.v (fVB i.w) n)) ∧
      (∀ q n, (q ≠ fPD i.w ∨ n ∉ i.act) → y.p q n = t.p q n) ∧ (∀ n, y.p 7 n = true))) ∧
  (∀ (s u : State) (a : Issue) (imm : Bool) (f : BitVec 56) (t : Troupe) (i : Iss), Issues s u a (vsOp 0x26 imm) f t i →
    Completes (.vcmps a imm f) s (fun o => ∃ y, o = putTroupe y u ∧ y.sregs = t.sregs ∧ y.vregs = t.vregs ∧
      y.threads.map (·.pc) = i.t.threads.map (·.pc) ∧
      (∀ n ∈ i.act, fD i.w ≠ 7 → y.p (fD i.w) n = condL (fTypeS i.w) (fModS i.w) (t.v (fA i.w) n) (opB t i.w)) ∧
      (∀ q n, (q ≠ fD i.w ∨ n ∉ i.act) → y.p q n = t.p q n))) ∧
  (∀ (s u : State) (a : Issue) (imm : Bool) (f : BitVec 56) (t : Troupe) (i : Iss), Issues s u a (vsOp 0x2E imm) f t i →
    i.act ≠ [] → Completes (.scmp a imm f) s (fun o => ∃ y, o = putTroupe y u ∧ y.sregs = t.sregs ∧ y.vregs = t.vregs ∧
      y.threads.map (·.pc) = i.t.threads.map (·.pc) ∧
      (∀ n, n < 32 → fD i.w ≠ 7 →
        y.p (fD i.w) n = condE (fTypeS i.w) (fModS i.w) (t.s (fA i.w)).toNat (opB t i.w).toNat) ∧
      (∀ q n, q ≠ fD i.w → y.p q n = t.p q n))) ∧
  (∀ (s u : State) (a : Issue) (imm : Bool) (f : BitVec 56) (t : Troupe) (i : Iss) (c : Instr) (op : Nat) (g : Iss → Lane),
    (c, op, g) ∈ [(Instr.sadd a imm f, vsOp 0x28 imm, saddVal), (Instr.ssub a imm f, vsOp 0x29 imm, ssubVal),
      (Instr.smul a imm f, vsOp 0x2A imm, smulVal), (Instr.slog a imm f, vsOp 0x2B imm, slogVal),
      (Instr.ssh a imm f, vsOp 0x2C imm, sshVal), (Instr.smov a imm f, vsOp 0x2D imm, smovVal),
      (Instr.v2s a f, 0xA2, v2sVal), (Instr.vbal a f, 0xA3, vbalVal)] → Issues s u a op f t i →
    Completes c s (fun o => ∃ y, o = putTroupe y u ∧ Moved t i y ∧ y.vregs = t.vregs ∧
      (i.act ≠ [] → y.s (fD i.w) = g i) ∧ (∀ q, (q ≠ fD i.w ∨ i.act = []) → y.s q = t.s q))) ∧
  (∀ (s u : State) (a : Issue) (imm : Bool) (f : BitVec 56) (t : Troupe) (i : Iss), Issues s u a (vsOp 0x2F imm) f t i →
    i.act ≠ [] → Completes (.sadd64 a imm f) s (fun o => ∃ y, o = putTroupe y u ∧ Moved t i y ∧ y.vregs = t.vregs ∧
      y.pair (fD i.w / 2) = (t.pair (fA i.w / 2) + ((opB t i.w).signExtend 64).toNat) % 2 ^ 64 ∧
      (∀ q, q / 2 ≠ fD i.w / 2 → y.s q = t.s q))) ∧
  (∀ (s u : State) (a : Issue) (f : BitVec 56) (t : Troupe) (i : Iss), Issues s u a 0xA0 f t i → i.act ≠ [] →
    Completes (.sread a f) s (fun o => ∃ y, o = putTroupe y u ∧ Moved t i y ∧ y.vregs = t.vregs ∧
      y.s (fD i.w) = BitVec.ofNat 32 (specVal i u) ∧ (∀ q, q ≠ fD i.w → y.s q = t.s q) ∧
      (fSpec i.w = 0x0E → y.rtimeHi = BitVec.ofNat 32 (u.rtime t.die / 2 ^ 32)) ∧
      (fSpec i.w ≠ 0x0E → y.rtimeHi = t.rtimeHi))) ∧
  (∀ (s u : State) (a : Issue) (f : BitVec 56) (t : Troupe) (i : Iss), Issues s u a 0xA1 f t i →
    Completes (.vread a f) s (fun o => ∃ y, o = putTroupe y u ∧ Moved t i y ∧ y.sregs = t.sregs ∧
      (∀ n ∈ i.act, y.v (fD i.w) n = BitVec.ofNat 32 (if fSpec i.w = 0 then n else specVal i u)) ∧
      VecBut t i.act (fD i.w) 1 y)) ∧
  (∀ (s : State) (i : Iss), fSpec i.w = 0x10 → specVal i s =
    SMap.get 0 s.core.cclk ((i.t.die * 320 + i.t.cluster) * 16 + i.t.core) - i.t.placedAt)

/-- The matrix opcodes (R141, R143, R412): with a guard set and the shape right every element of D is the sum rounded
once; with no guard nothing is written; a wrong shape kills the context; a cluster at LOW voltage begins none. -/
def Obligations.MatrixMultiply : Prop :=
  ∀ (s u : State) (a : Issue) (f : BitVec 56) (t : Troupe) (i : Iss) (c : Instr) (op q kk : Nat) (tyA tyB : Nat → Nat),
    (c, op, q, kk, tyA, tyB) ∈
      [(Instr.mma8 a f, 0x80, 4, 16, (fun w => fmt8 (fAfmt w)), (fun w => fmt8 (fBfmt w))),
       (Instr.mma16 a f, 0x81, 2, 8, (fun w => fmt16 (fAfmt w)), (fun w => fmt16 (fBfmt w)))] →
    Issues s u a op f t i →
    (outLow u t.die t.cluster = false → anyGuard i = true → mmaShape i = true → Completes c s (fun o => ∃ y,
      o = putTroupe y u ∧ Moved t i y ∧ y.sregs = t.sregs ∧
      (∀ m n, m < 16 → n < 16 →
        (y.v (fD i.w + m / 2) (m % 2 * 16 + n)).toNat = mmaCell t i.w (tyA i.w) (tyB i.w) q kk m n % 2 ^ 32) ∧
      VecBut t (List.range 32) (fD i.w) 8 y)) ∧
    (outLow u t.die t.cluster = false → anyGuard i = false → Completes c s (fun o => ∃ y,
      o = putTroupe y u ∧ Moved t i y ∧ y.vregs = t.vregs ∧ y.sregs = t.sregs)) ∧
    (outLow u t.die t.cluster = false → anyGuard i = true → mmaShape i = false →
      u.prt.faulted.contains t.part = false → Completes c s (fun o =>
      ctxKilled o t.part t.inst t.ctx = true ∧ t ∉ o.core.troupes)) ∧
    (outLow u t.die t.cluster = true → Completes c s (fun o => o = u))

/-- Branches, NOP, TRAP and illegal words (R133, R136, R161): where each executing lane goes, what CALL keeps, and the
kill of the context that TRAP, a misaligned target or an illegal word brings. -/
def Obligations.BranchesAndTraps : Prop :=
  (∀ (s u : State) (a : Issue) (f : BitVec 56) (t : Troupe) (i : Iss), Issues s u a 0x60 f t i →
    Completes (.bra a f) s (fun o => ∃ y, o = putTroupe y u ∧ y.vregs = t.vregs ∧ y.sregs = t.sregs ∧
      ∀ n x, t.thread n = some x →
        (n ∈ i.act → y.thread n =
          some { x with pc := BitVec.ofNat 64 i.pc + 8 * (BitVec.ofNat 32 (fImm32 i.w)).signExtend 64 }) ∧
        (n ∉ i.act → n ∈ i.cohort → y.thread n = some { x with pc := BitVec.ofNat 64 (i.pc + 8) }) ∧
        (n ∉ i.cohort → y.thread n = some x))) ∧
  (∀ (s u : State) (a : Issue) (f : BitVec 56) (t : Troupe) (i : Iss), Issues s u a 0x61 f t i →
    Completes (.call a f) s (fun o => ∃ y, o = putTroupe y u ∧ y.sregs = t.sregs ∧
      (∀ n ∈ i.act, readGroup y n (fD i.w) 2 = (i.pc + 8) % 2 ^ 64 ∧ ∃ x, y.thread n = some x ∧ x.pc = branchTarget i) ∧
      VecBut t i.act (fD i.w) 2 y)) ∧
  (∀ (s u : State) (a : Issue) (f : BitVec 56) (t : Troupe) (i : Iss), Issues s u a 0x62 f t i →
    (∀ n ∈ i.act, readGroup t n (fD i.w) 2 % 8 = 0) →
    Completes (.jmpr a f) s (fun o => ∃ y, o = putTroupe y u ∧ y.vregs = t.vregs ∧ y.sregs = t.sregs ∧
      ∀ n ∈ i.act, ∃ x, y.thread n = some x ∧ x.pc = BitVec.ofNat 64 (readGroup t n (fD i.w) 2))) ∧
  (∀ (s u : State) (a : Issue) (f : BitVec 56) (t : Troupe) (i : Iss), Issues s u a 0x62 f t i →
    (∃ n ∈ i.act, readGroup t n (fD i.w) 2 % 8 ≠ 0) → u.prt.faulted.contains t.part = false →
    Completes (.jmpr a f) s (fun o => ctxKilled o t.part t.inst t.ctx = true ∧ t ∉ o.core.troupes)) ∧
  (∀ (s u : State) (a : Issue) (f : BitVec 56) (t : Troupe) (i : Iss), Issues s u a 0x67 f t i →
    Completes (.nop a f) s (fun o => ∃ y, o = putTroupe y u ∧ Moved t i y ∧ y.vregs = t.vregs ∧ y.sregs = t.sregs)) ∧
  (∀ (s u : State) (a : Issue) (f : BitVec 56) (t : Troupe) (i : Iss), Issues s u a 0x68 f t i → i.act ≠ [] →
    u.prt.faulted.contains t.part = false → Completes (.trap a f) s (fun o =>
      ctxKilled o t.part t.inst t.ctx = true ∧ t ∉ o.core.troupes)) ∧
  (∀ (s u : State) (a : Issue) (w : Word) (t : Troupe) (pc : Nat), a.die < dieCount s.orderCode →
    issueHeld (tickCore a s) a = false → selectTroupe (tickCore a s) a = some t → t.cohortPc = some pc →
    fetch t pc (tickCore a s) = some (none, u) → legal t.rows w.toNat = false → u.prt.faulted.contains t.part = false →
    Completes (.illegalInstruction a w) s (fun o =>
      ctxKilled o t.part t.inst t.ctx = true ∧ t ∉ o.core.troupes))

/-- Parking, yielding, sleeping and ending (R182, R183, R184, R201): the executing lanes' new state where another
fresh thread of the troupe goes on, the release where none waits elsewhere, and what the expiries bring back. -/
def Obligations.ParkingAndYielding : Prop :=
  (∀ (s u : State) (a : Issue) (f : BitVec 56) (t : Troupe) (i : Iss) (c : Instr) (op : Nat) (g : Thread → Thread),
    (c, op, g) ∈ [(Instr.converge a f, 0x63, fun x => { x with parked := some .converge, parkedAt := i.t.issuedAt.getD 0 }),
      (Instr.yield a f, 0x64, fun x => { x with yielded := true }),
      (Instr.barc a f, 0x65, fun x => { x with parked := some (.barrier (fBar i.w)), parkedAt := i.t.issuedAt.getD 0 }),
      (Instr.exit a f, 0x66, fun x => { x with exited := true })] → Issues s u a op f t i →
    (∃ n x, n ∉ i.act ∧ t.thread n = some x ∧ x.live = true ∧ x.yielded = false) →
    Completes c s (fun o => ∃ y, o = putTroupe y u ∧ y.vregs = t.vregs ∧ y.sregs = t.sregs ∧
      ∀ n x, t.thread n = some x → y.thread n =
        some (if n ∈ i.act then g { x with pc := BitVec.ofNat 64 (i.pc + 8) }
          else { x with pc := if n ∈ i.cohort then BitVec.ofNat 64 (i.pc + 8) else x.pc }))) ∧
  (∀ (s u : State) (a : Issue) (f : BitVec 56) (t : Troupe) (i : Iss), Issues s u a 0x63 f t i →
    i.act = List.range 32 → (∀ x ∈ t.threads, x.exited = false) →
    Completes (.converge a f) s (fun o => ∃ y, findTroupe o t.at_ = some y ∧
      ∀ x ∈ y.threads, x.parked = none ∧ x.pc = BitVec.ofNat 64 (i.pc + 8))) ∧
  (∀ (s u : State) (a : Issue) (f : BitVec 56) (t : Troupe) (i : Iss), Issues s u a 0x65 f t i →
    i.act = List.range 32 → launchTroupes u t.queue t.index t.die t.cluster = [t] → (∀ x ∈ t.threads, x.exited = false) →
    Completes (.barc a f) s (fun o => ∃ y, findTroupe o t.at_ = some y ∧ ∀ x ∈ y.threads, x.parked = none)) ∧
  (∀ (s u : State) (a : Issue) (f : BitVec 56) (t : Troupe) (i : Iss), Issues s u a 0xA5 f t i → i.act ≠ [] →
    Completes (.sleep a f) s (fun o => ∃ y, o = putTroupe y u ∧ y.asleep = true ∧ Moved t i y ∧ y.vregs = t.vregs)) ∧
  (∀ (s : State) (a : SlotAt) (t : Troupe), a.die < dieCount s.orderCode → findTroupe s a = some t → t.fresh = true →
    (t.convergeDue = true → t.yields = true) → Completes (.sleepExpiry a) s (fun o => o = putTroupe { t with asleep := false } s) ∧
    Completes (.yieldTimeout a) s (fun o => ∃ y, o = putTroupe y s ∧ (∀ x ∈ y.threads, x.yielded = false) ∧
      y.vregs = t.vregs ∧ y.threads.map (·.pc) = t.threads.map (·.pc)) ∧
    (t.yields = true → Completes (.convergeTimeout a) s (fun o => o = putTroupe { t with convergeDue := true } s)) ∧
    (∀ x, t.yields = false → oldestParked t.threads = some x → Completes (.convergeTimeout a) s (fun o =>
      ∃ y, o = putTroupe y s ∧ ∀ n z, t.thread n = some z → y.thread n =
        some (if z.parked = some .converge ∧ z.pc = x.pc then { z with parked := none } else z))))

/-- Loads, stores and prefetch (R138, R144, R145, R149): with one executing lane the VD group takes the sector's bytes
as SIZE and SEXT say, or the bytes go to the sector and the L1; PREF changes no register. Atomics (R145, R148): with
one executing lane VD takes the word as it was, the home slice performs the operation, the cluster's L1 copy leaves,
and the .AR forms at DIE and PART scope invalidate the L1. -/
def Obligations.LoadsStoresAndAtomics : Prop :=
  ((∀ (s u u2 u3 : State) (a : Issue) (f : BitVec 56) (t : Troupe) (i : Iss) (n pa : Nat) (v : SectorData) (c : Instr)
    (op : Nat), (c, op) ∈ [(Instr.ld a f, 0x40), (Instr.ldAcq a f, 0x42)] → Issues s u a op f t i →
    OneLane u u2 i n (memAddr i n) pa .load →
    loadSector i.t (fHint i.w) (fFill i.w) (op == 0x42 && fScope i.w != 0) pa u2 = some (.ok v false, u3) →
    findTroupe u3 t.at_ = some t →
    Completes c s (fun o => ∃ y, Moved t i y ∧ y.sregs = t.sregs ∧
      o = putTroupe y (if op == 0x42 && fScope i.w != 0 then invalL1 t.die t.cluster u3 else u3) ∧
      readGroup y n (fD i.w) (sizeRegs (fSize i.w)) =
        loadValue i.w (sectorWord (pa % 32) (sizeBytes (fSize i.w)) v) ∧
      VecBut t [n] (fD i.w) (sizeRegs (fSize i.w)) y)) ∧
  (∀ (s u u2 u3 : State) (a : Issue) (f : BitVec 56) (t : Troupe) (i : Iss) (pa : Nat) (v : SectorData),
    Issues s u a 0x46 f t i → i.act ≠ [] →
    ofSigned 64 ((t.pair (fSB i.w) : Int) + immOff i.w) % sizeBytes (fSize i.w) = 0 →
    translate i.t.xby (ofSigned 64 ((t.pair (fSB i.w) : Int) + immOff i.w)) .load u = some (.pa pa, u2) →
    loadSector i.t (fHint i.w) (fFill i.w) false pa u2 = some (.ok v false, u3) → findTroupe u3 t.at_ = some t →
    Completes (.ldu a f) s (fun o => ∃ y, o = putTroupe y u3 ∧ Moved t i y ∧ y.vregs = t.vregs ∧
      (fSize i.w = 2 → (y.s (fD i.w)).toNat = sectorWord (pa % 32) 4 v ∧ ∀ q, q ≠ fD i.w → y.s q = t.s q) ∧
      (fSize i.w = 3 → y.pair (fD i.w / 2) = sectorWord (pa % 32) 8 v))) ∧
  (∀ (s u : State) (a : Issue) (f : BitVec 56) (t : Troupe) (i : Iss), Issues s u a 0x47 f t i →
    findTroupe (i.act.foldl (prefLane i) u) t.at_ = some t →
    Completes (.pref a f) s (fun o => ∃ y, o = putTroupe y (i.act.foldl (prefLane i) u) ∧ Moved t i y ∧
      y.vregs = t.vregs ∧ y.sregs = t.sregs)) ∧
  (∀ (s u u2 u3 : State) (a : Issue) (f : BitVec 56) (t : Troupe) (i : Iss) (n pa : Nat) (v : SectorData) (p : Bool)
    (c : Instr) (op : Nat), (c, op) ∈ [(Instr.st a f, 0x41), (Instr.stRel a f, 0x43)] → Issues s u a op f t i →
    OneLane u u2 i n (memAddr i n) pa .store →
    accWrite (t.acc (fHint i.w) (fFill i.w)) (pa / 32 * 32) (byteMask (pa % 32) (sizeBytes (fSize i.w)))
      (BitVec.ofNat 256 (readGroup t n (fD i.w) (sizeRegs (fSize i.w)) % 256 ^ sizeBytes (fSize i.w) * 256 ^ (pa % 32)))
      u2 = some (.ok v p, u3) → findTroupe u3 t.at_ = some t →
    Completes c s (fun o => ∃ y, Moved t i y ∧ y.vregs = t.vregs ∧ y.sregs = t.sregs ∧
      o = putTroupe y (l1Store t.die t.cluster t.part (pa / 32) (byteMask (pa % 32) (sizeBytes (fSize i.w)))
        (BitVec.ofNat 256 (readGroup t n (fD i.w) (sizeRegs (fSize i.w)) % 256 ^ sizeBytes (fSize i.w) * 256 ^ (pa % 32)))
        (noteSector t.queue t.die (pa / 32 * 32) u3))))) ∧
  (∀ (s u u2 u3 : State) (a : Issue) (f : BitVec 56) (t : Troupe) (i : Iss) (n pa : Nat) (v : SectorData) (c : Instr)
    (op : Nat) (g : Iss → Nat) (ar : Bool), (c, op, g, ar) ∈ [(Instr.atom a f, 0x48, intOp, false),
      (Instr.atomAr a f, 0x49, intOp, true), (Instr.atomf a f, 0x4A, fpOp, false),
      (Instr.atomfAr a f, 0x4B, fpOp, true)] → Issues s u a op f t i →
    OneLane u u2 i n (memAddr i n) pa .store →
    accAtomic (t.acc (fHint i.w) (fFill i.w)) pa
      (atomSector (pa % 32) (g i) (Nat.beq (fSize i.w) 3) (fSext i.w)
        (readGroup t n (fD i.w) (sizeRegs (fSize i.w)))
        (readGroup t n (fD i.w + sizeRegs (fSize i.w)) (sizeRegs (fSize i.w)))) u2 = some (.ok v false, u3) →
    findTroupe u3 t.at_ = some t →
    Completes c s (fun o => ∃ y, Moved t i y ∧ y.sregs = t.sregs ∧
      readGroup y n (fD i.w) (sizeRegs (fSize i.w)) = sectorWord (pa % 32) (sizeBytes (fSize i.w)) v ∧
      VecBut t [n] (fD i.w) (sizeRegs (fSize i.w)) y ∧
      (ar = false ∨ fScope i.w = 0 →
        o = putTroupe y (l1Drop t.die t.cluster t.part (pa / 32) (noteSector t.queue t.die pa u3))) ∧
      (ar = true → fScope i.w ≠ 0 →
        o = putTroupe y (invalL1 t.die t.cluster
          (l1Drop t.die t.cluster t.part (pa / 32) (noteSector t.queue t.die pa u3))))))

/-- Local store, fences and L1INV (R147, R151, R155): a window access moves exactly its bytes and no memory; a fence
wider than CORE, and L1INV, empty the cluster's L1 and change no register. Reductions and KV access (R150, R152, R311,
R347): REDST sends one contribution of its one lane and changes no register; LDKV and STKV move a token's bytes; an
LDKV that a step fence holds is noted and its PC stays. -/
def Obligations.LocalFencesReductionsAndKv : Prop :=
  ((∀ (s u : State) (a : Issue) (f : BitVec 56) (t : Troupe) (i : Iss) (n : Nat) (x : LocalStore), Issues s u a 0x44 f t i →
    i.act = [n] → localAddr i n % sizeBytes (fSize i.w) = 0 → localAddr i n < storeBytes u t → findStore u t = some x →
    Completes (.ldl a f) s (fun o => ∃ y, o = putTroupe y u ∧ Moved t i y ∧ y.sregs = t.sregs ∧
      readGroup y n (fD i.w) (sizeRegs (fSize i.w)) =
        loadValue i.w (localGet x.bytes (localAddr i n) (sizeBytes (fSize i.w))) ∧
      VecBut t [n] (fD i.w) (sizeRegs (fSize i.w)) y)) ∧
  (∀ (s u : State) (a : Issue) (f : BitVec 56) (t : Troupe) (i : Iss) (n : Nat) (x : LocalStore), Issues s u a 0x45 f t i →
    i.act = [n] → localAddr i n % sizeBytes (fSize i.w) = 0 → localAddr i n < storeBytes u t → findStore u t = some x →
    Completes (.stl a f) s (fun o => ∃ x', findStore o t = some x' ∧ o.slc = u.slc ∧ o.regs = u.regs ∧
      (∀ k, k < sizeBytes (fSize i.w) → SMap.get 0 x'.bytes (localAddr i n + k) =
        BitVec.ofNat 8 (readGroup t n (fD i.w) (sizeRegs (fSize i.w)) / 256 ^ k)) ∧
      (∀ b, b < localAddr i n ∨ localAddr i n + sizeBytes (fSize i.w) ≤ b →
        SMap.get 0 x'.bytes b = SMap.get 0 x.bytes b))) ∧
  (∀ (s u : State) (a : Issue) (f : BitVec 56) (t : Troupe) (i : Iss) (n : Nat) (x : LocalStore), Issues s u a 0x4C f t i →
    i.act = [n] → localAddr i n % sizeBytes (fSize i.w) = 0 → localAddr i n < storeBytes u t → findStore u t = some x →
    Completes (.atoml a f) s (fun o => ∃ y x', findTroupe o t.at_ = some y ∧ findStore o t = some x' ∧ o.slc = u.slc ∧
      readGroup y n (fD i.w) (sizeRegs (fSize i.w)) = localGet x.bytes (localAddr i n) (sizeBytes (fSize i.w)) ∧
      localGet x'.bytes (localAddr i n) (sizeBytes (fSize i.w)) =
        atomInt (8 * sizeBytes (fSize i.w)) (fModM i.w) (fSext i.w)
          (localGet x.bytes (localAddr i n) (sizeBytes (fSize i.w)))
          (readGroup t n (fD i.w) (sizeRegs (fSize i.w)))
          (readGroup t n (fD i.w + sizeRegs (fSize i.w)) (sizeRegs (fSize i.w))))) ∧
  (∀ (s u : State) (a : Issue) (f : BitVec 56) (t : Troupe) (i : Iss), Issues s u a 0x4D f t i → i.act ≠ [] →
    Completes (.fence a f) s (fun o => ∃ y, Moved t i y ∧ y.vregs = t.vregs ∧ y.sregs = t.sregs ∧
      (fScope i.w = 0 → o = putTroupe y u) ∧ (fScope i.w ≠ 0 → o = putTroupe y (invalL1 t.die t.cluster u)))) ∧
  (∀ (s u : State) (a : Issue) (f : BitVec 56) (t : Troupe) (i : Iss), Issues s u a 0xA4 f t i → i.act ≠ [] →
    Completes (.l1inv a f) s (fun o => ∃ y, Moved t i y ∧ y.vregs = t.vregs ∧ y.sregs = t.sregs ∧
      o = putTroupe y (invalL1 t.die t.cluster u) ∧
      ∀ z ∈ o.core.l1, ¬(z.die = t.die ∧ z.cluster = t.cluster)))) ∧
  ((∀ (s u u2 : State) (a : Issue) (f : BitVec 56) (t : Troupe) (i : Iss) (n pa : Nat), Issues s u a 0x4E f t i →
    i.act = [n] → redAddr i n % 4 = 0 → translate i.t.xby (redAddr i n) .store u = some (.pa pa, u2) →
    treeOf u2 t.part (fImm20 i.w % 4096) = none → findTroupe u2 t.at_ = some t →
    Completes (.redst a f) s (fun o => ∃ y, o = putTroupe y (contribute t.cluster (redPkt1 u2 i pa (redValue i n)) u2) ∧
      Moved t i y ∧ y.vregs = t.vregs ∧ y.sregs = t.sregs ∧
      o.net.redNet = u2.net.redNet ++ [⟨redPkt1 u2 i pa (redValue i n), .router t.die t.cluster,
        .router t.die t.cluster :: routeTo u2 t.part (.router t.die t.cluster)
          (slicePlace u2 (redPkt1 u2 i pa (redValue i n)))⟩])) ∧
  (∀ (s u u1 u2 u3 : State) (a : Issue) (f : BitVec 56) (t : Troupe) (i : Iss) (n va pa : Nat) (v : SectorData),
    Issues s u a 0x4F f t i → kvBacksOff u t = false → i.act = [n] → kvAddr i false n u = some (.va va, u1) → va % sizeBytes (fSize i.w) = 0 →
    translate i.t.xby va .load (unholdKv i.t u1) = some (.pa pa, u2) →
    loadSector i.t (fHint i.w) (fFill i.w) false pa u2 = some (.ok v false, u3) → findTroupe u3 t.at_ = some t →
    Completes (.ldkv a f) s (fun o => ∃ y, o = putTroupe y u3 ∧ Moved t i y ∧ y.sregs = t.sregs ∧
      readGroup y n (fD i.w) (sizeRegs (fSize i.w)) =
        loadValue i.w (sectorWord (pa % 32) (sizeBytes (fSize i.w)) v) ∧
      VecBut t [n] (fD i.w) (sizeRegs (fSize i.w)) y)) ∧
  (∀ (s u u1 : State) (a : Issue) (f : BitVec 56) (t : Troupe) (i : Iss) (n b : Nat), Issues s u a 0x4F f t i →
    kvBacksOff u t = false → i.act = [n] → kvAddr i false n u = some (.held b, u1) → u1.core = u.core →
    ((u1.que.heldKv.filter (fun h => Nat.beq (h.seq / 256) (t.pair (fSB i.w) % 2 ^ 14 / 256))).length < 1024 →
      Completes (.ldkv a f) s (fun o => findTroupe o t.at_ = some t ∧ { o.slc with retry := u1.slc.retry } = u1.slc ∧
        ∃ h ∈ o.que.heldKv, h.seq = t.pair (fSB i.w) % 2 ^ 14 ∧ h.slot = t.at_ ∧ h.block = b)) ∧
    (1024 ≤ (u1.que.heldKv.filter (fun h => Nat.beq (h.seq / 256) (t.pair (fSB i.w) % 2 ^ 14 / 256))).length →
      (∀ h ∈ u1.que.heldKv, h.slot ≠ t.at_) →
      Completes (.ldkv a f) s (fun o => findTroupe o t.at_ = some t ∧ o.que = u1.que ∧
        { o.slc with retry := u1.slc.retry } = u1.slc ∧ kvBacksOff o t = true))) ∧
  (∀ (s u : State) (a : Issue) (f : BitVec 56) (t : Troupe) (i : Iss), kvBacksOff u t = true →
    (Issues s u a 0x4F f t i → Completes (.ldkv a f) s (fun o => o = u)) ∧
    (Issues s u a 0x50 f t i → Completes (.stkv a f) s (fun o => o = u))) ∧
  (∀ (s u u1 u2 u3 : State) (a : Issue) (f : BitVec 56) (t : Troupe) (i : Iss) (n va pa : Nat) (v : SectorData) (p : Bool),
    Issues s u a 0x50 f t i → kvBacksOff u t = false → i.act = [n] → kvAddr i true n u = some (.va va, u1) → va % sizeBytes (fSize i.w) = 0 →
    translate i.t.xby va .store (unholdKv i.t u1) = some (.pa pa, u2) →
    accWrite (t.acc (fHint i.w) (fFill i.w)) (pa / 32 * 32) (byteMask (pa % 32) (sizeBytes (fSize i.w)))
      (BitVec.ofNat 256 (readGroup t n (fD i.w) (sizeRegs (fSize i.w)) % 256 ^ sizeBytes (fSize i.w) * 256 ^ (pa % 32)))
      u2 = some (.ok v p, u3) → findTroupe u3 t.at_ = some t →
    Completes (.stkv a f) s (fun o => ∃ y, Moved t i y ∧ y.vregs = t.vregs ∧ y.sregs = t.sregs ∧
      o = putTroupe y (l1Store t.die t.cluster t.part (pa / 32) (byteMask (pa % 32) (sizeBytes (fSize i.w)))
        (BitVec.ofNat 256 (readGroup t n (fD i.w) (sizeRegs (fSize i.w)) % 256 ^ sizeBytes (fSize i.w) * 256 ^ (pa % 32)))
        (noteSector t.queue t.die (pa / 32 * 32) u3)))))

/-- Placement (R163, R171, R174, Table TRP-2): the next troupe of the cluster is placed with its starting registers,
its launch becomes resident, and nothing outside the cores changes. -/
def Obligations.TroupesStart : Prop :=
  (∀ (s : State) (d c core i : Nat) (l : Launch), d < dieCount s.orderCode → clusterStopped s d c = false →
    nextLaunch s (d * 320 + c) = some (l, core, i) → findLaunch s l.queue l.index = some l →
    Completes (.troupePlacement d c) s (fun t =>
      t.core.troupes = s.core.troupes ++ [newTroupe s l (d * 320 + c) core i] ∧
      (∃ l', findLaunch t l.queue l.index = some l' ∧ (d * 320 + c) ∈ l'.resident) ∧
      t.regs = s.regs ∧ t.slc = s.slc ∧ t.que = s.que ∧ t.recs = s.recs)) ∧
  (∀ (s : State) (d c : Nat), d < dieCount s.orderCode → nextLaunch s (d * 320 + c) = none →
    Completes (.troupePlacement d c) s (fun t => t = s)) ∧
  (∀ (s : State) (l : Launch) (k core i : Nat), l.inline.length = 7 → ∀ t, t = newTroupe s l k core i →
    t.threads = List.replicate 32 ⟨l.entry, false, none, 0, false, 0⟩ ∧ t.vregs = [] ∧
    t.pair 0 = l.args.toNat ∧ t.s 2 = BitVec.ofNat 32 i ∧ t.s 3 = BitVec.ofNat 32 l.ntroupe ∧
    t.s 4 = BitVec.ofNat 32 (l.seq.getD 0xFFFFFFFF) ∧ (t.s 5).toNat = l.step.toNat % 2 ^ 32 ∧
    (∀ j x, l.inline[j]? = some x → (t.s (6 + j)).toNat = x.toNat % 2 ^ 32) ∧ (∀ n, 13 ≤ n → t.s n = 0))

/-- Ends (R187, R188, R190, R203, R346): a troupe whose threads have exited leaves its slot; a launch whose troupes
have ended detaches and retires; KILL and a failed cluster remove the work they name. -/
def Obligations.TroupesEnd : Prop :=
  (∀ (s : State) (a : SlotAt) (x : Troupe) (l : Launch), a.die < dieCount s.orderCode → findTroupe s a = some x →
    x.rest = [] → findLaunch s x.queue x.index = some l → Completes (.troupeEnd a) s (fun t =>
      findTroupe t a = none ∧ (∃ l', findLaunch t x.queue x.index = some l' ∧ l'.ended = l.ended + 1) ∧
      t.regs = s.regs ∧ t.slc = s.slc ∧ t.que = s.que)) ∧
  (∀ (s : State) (a : SlotAt) (x : Troupe), a.die < dieCount s.orderCode → findTroupe s a = some x → x.rest ≠ [] →
    Completes (.troupeEnd a) s (fun t => t = s)) ∧
  (∀ (s : State) (q id : Nat) (i : Word) (l : Launch) (x : SeqSlot), queDie q < dieCount s.orderCode →
    findLaunch s q i = some l → allEnded l = true → l.attached = [id] → findSeq s id = some x →
    Completes (.launchDetach q i) s (fun t =>
      findSeq t id = some (detachStep l.step x) ∧ findLaunch t q i = some { l with attached := [] } ∧
      t.regs = s.regs ∧ t.slc = s.slc)) ∧
  (∀ (s : State) (q : Nat) (i : Word) (l : Launch), queDie q < dieCount s.orderCode → findLaunch s q i = some l →
    allEnded l = true → Completes (.launchRetire q i) s (fun t =>
      findLaunch t q i = none ∧ t.que.itemsOut = lower s.que.itemsOut q ∧
      (l.cqe = false → t.regs = s.regs ∧ t.slc = s.slc ∧ t.recs = s.recs))) ∧
  (∀ (s : State) (d p i c : Nat), d < dieCount s.orderCode → dieIn s p d = true →
    Completes (.kill d p i c) s (fun t => ctxKilled t p i c = true ∧
      (∀ x ∈ t.core.troupes, ¬(x.die = d ∧ x.part = p ∧ x.inst = i ∧ x.ctx = c)) ∧
      (∀ l ∈ t.core.launches, ¬(queDie l.queue = d ∧ l.part = p ∧ l.inst = i ∧ l.ctx = c)))) ∧
  (∀ (s : State) (d c : Nat), d < dieCount s.orderCode → c < 320 → Completes (.clusterFailure d c) s (fun t =>
    t.core.failed.contains (d * 320 + c) = true ∧ (∀ x ∈ t.core.troupes, ¬(x.die = d ∧ x.cluster = c)) ∧
    ((∀ x ∈ s.core.troupes, ¬(x.die = d ∧ x.cluster = c)) →
      t.rdBit d (Reg.REC_FAIL_CLUSTER (c / 64)) (c % 64) = true ∧ HandsOver d 0x0B 0x033 1 s t ∧
      RegsBut [(d, Reg.REC_FAIL_CLUSTER (c / 64))] s t) ∧
    (∀ x, (s.core.troupes.filter (fun x => Nat.beq x.die d && Nat.beq x.cluster c)).head? = some x →
      (imgParts s).contains x.part = true → t.prt.faulted.contains x.part = true)))

/-- Check, stage and quiesce (R55, R58, R61, R68, R75): an accepted check holds the load, each phase moves it on, and
a busy machine, a failed write, a time-out or ABORT ends it, with no slice, core or queue changed. -/
def Obligations.LoadsPrepare : Prop :=
  (∀ (s : State) (b : List Byte) (i : Image), s.rack.rmUp = true → s.img.load = none →
    checkImage (each (loadAgents s) (fun s a => imgCmd 1 a s) s) b = .ok i → Completes (.imgCheck b) s (fun t =>
      t.img.load = some ⟨i, loadAgents s, .checked, 0, 0, [], [], false, [], []⟩ ∧ t.img.live = s.img.live ∧
      t.slc = s.slc ∧ t.core = s.core ∧ t.que = s.que ∧ t.recs = s.recs)) ∧
  (∀ (s : State) (b : List Byte), s.rack.rmUp = true → s.img.load.isSome = true → Completes (.imgCheck b) s (fun t =>
      t.img = s.img ∧ t.recs.rackSeq = (s.recs.rackSeq + 1) % 65536 ∧
      (∀ a ∈ loadAgents s, t.rd a Reg.IMG_STATUS_RESULT = Rc.busy ∧
        t.rd a Reg.IMG_DETAIL = detailWord 0xFFFF rmAgent none ∧
        t.rd a Reg.IMG_STATUS_PHASE = s.rd a Reg.IMG_STATUS_PHASE) ∧
      RegsBut ((loadAgents s).flatMap (fun a =>
        [(a, Reg.IMG_STATUS_RESULT), (a, Reg.IMG_DETAIL), (a, Reg.IMG_REJECTS)])) s t)) ∧
  (∀ (s : State) (l : Load), loadRun s (fun p => p == .checked) = some l →
    Completes (.imgStage none) s (fun t => t.img.load = some { l with phase := .staged } ∧ t.img.shadow = l.agents ∧
      t.img.live = s.img.live ∧ t.slc = s.slc ∧ t.core = s.core ∧ t.que = s.que ∧ t.recs = s.recs)) ∧
  (∀ (s : State) (l : Load) (d : Nat), loadRun s (fun p => p == .checked) = some l →
    l.agents.contains d = true → Completes (.imgStage (some d)) s (fun t => t.img.load = none ∧ t.img.shadow = [] ∧
      t.recs.rackSeq = (s.recs.rackSeq + 1) % 65536 ∧ t.slc = s.slc ∧ t.core = s.core ∧ t.que = s.que)) ∧
  (∀ (s : State) (l : Load), loadRun s (fun p => p == .staged) = some l →
    Completes (.imgQuiesce) s (fun t =>
      t.img.load = some { l with phase := .quiescing, quiesceAt := s.recs.rmRtime } ∧
      (∀ p ∈ loadTargets s l, ∀ h ∈ partHalves s p, s.rd (h / 2) (Reg.PART_STATE (h % 2)) = 1 →
        t.rd (h / 2) (Reg.PART_STATE (h % 2)) = 2) ∧ t.slc = s.slc ∧ t.core = s.core ∧ t.que = s.que)) ∧
  (∀ (s : State) (l : Load), loadRun s (fun p => p == .quiescing) = some l →
    (loadTargets s l).all (partIdle s) = true → Completes (.quiesceIdle) s (fun t =>
      t.img.load = some { l with phase := .quiesced } ∧ t.slc = s.slc ∧ t.core = s.core ∧ t.que = s.que)) ∧
  (∀ (s : State) (l : Load) (p : Nat), s.rack.rmUp = true → s.img.load = some l → l.phase = .quiescing →
    p ∈ loadTargets s l → partIdle s p = false → Completes (.quiesceTimeout) s (fun t =>
      t.img.load = none ∧ t.img.shadow = [] ∧ t.img.live = s.img.live ∧
      t.recs.rackSeq = (s.recs.rackSeq + 1) % 65536 ∧ t.slc = s.slc ∧ t.core = s.core ∧ t.que = s.que)) ∧
  (∀ (s : State) (l : Load), s.rack.rmUp = true → s.img.load = some l → l.phase ≠ .committing → l.phase ≠ .released →
    Completes (.imgAbort) s (fun t => t.img.load = none ∧ t.img.shadow = [] ∧ t.img.live = s.img.live ∧
      t.recs.rackSeq = (s.recs.rackSeq + 1) % 65536 ∧ t.slc = s.slc ∧ t.core = s.core ∧ t.que = s.que))

/-- Commit and release (R59, R61, R62): COMMIT or its relay arms an agent, an armed agent swaps, the release ends the
load once every agent has swapped, and an agent that hears nothing leaves it. -/
def Obligations.LoadsCommit : Prop :=
  (∀ (s : State) (l : Load) (a : Nat) (time : Word), loadRun s (fun p => p == .quiesced) = some l →
    l.agents.contains a = true → l.armed.contains a = false → time.toNat < s.recs.rmRtime + 100000 →
    Completes (.imgCommit a time) s (fun t => t = s)) ∧
  (∀ (s : State) (l : Load) (a : Nat) (time : Word), loadRun s (fun p => p == .quiesced) = some l →
    l.agents.contains a = true → l.armed.contains a = false → s.recs.rmRtime + 100000 ≤ time.toNat →
    agentTime s l a < time.toNat → Completes (.imgCommit a time) s (fun t =>
      t.img.load = some { l with phase := .committing, commitTime := time.toNat, armed := addNat l.armed a } ∧
      t.rd a Reg.IMG_COMMIT_TIME = time.toNat ∧ t.rd a Reg.IMG_STATUS_PHASE = 5 ∧ t.img.live = s.img.live ∧
      t.slc = s.slc ∧ t.core = s.core ∧ t.que = s.que)) ∧
  (∀ (s : State) (l : Load) (a b : Nat) (serial time : Word), s.img.load = some l → l.armed.contains b = true →
    l.agents.contains a = true → l.armed.contains a = false → serial.toNat = l.img.serial → time.toNat = l.commitTime →
    agentTime s l a < l.commitTime → Completes (.commitRelay a b serial time) s (fun t =>
      t.img.load = some { l with armed := addNat l.armed a } ∧ t.rd a Reg.IMG_COMMIT_TIME = time.toNat ∧
      t.img.live = s.img.live ∧ t.slc = s.slc ∧ t.core = s.core ∧ t.que = s.que)) ∧
  (∀ (s : State) (l : Load) (a : Nat), s.img.load = some l → agentTime s l a < l.commitTime →
    Completes (.commitSwap a) s (fun t => t = s)) ∧
  (∀ (s : State) (l : Load) (a : Nat), s.img.load = some l → l.armed.contains a = true → l.swapped.contains a = false →
    l.agents.contains a = true → l.commitTime ≤ agentTime s l a → (a < 64 → dieUp s a = true) →
    (l.swapped = [] → commitReady s l = true) → Completes (.commitSwap a) s (fun t =>
      (∃ l', t.img.load = some l' ∧ l'.swapped = addNat l.swapped a) ∧ t.rd a Reg.IMG_STATUS_PHASE = 4 ∧
      (l.swapped = [] → t.img.live = mergeLive s l.img) ∧ (l.swapped ≠ [] → t.img.live = s.img.live))) ∧
  (∀ (s : State) (l : Load), loadRun s (fun p => p == .committing) = some l →
    l.agents.all (fun a => l.swapped.contains a) = true → Completes (.imgRelease) s (fun t =>
      t.img.load = none ∧ t.img.shadow = [] ∧ t.img.live = s.img.live ∧ t.slc = s.slc ∧ t.core = s.core ∧
      (∀ a ∈ l.agents, t.rd a Reg.IMG_STATUS_PHASE = 0 ∧ t.rd a Reg.IMG_STATUS_RESULT = 0))) ∧
  (∀ (s : State) (l : Load) (a : Nat), s.img.load = some l → l.agents.contains a = true → l.armed = [] →
    l.gone.contains a = false → Completes (.loadAgentTimeout a) s (fun t =>
      (∀ l', t.img.load = some l' → l'.agents.contains a = false) ∧ t.rd a Reg.IMG_STATUS_RESULT = 0x1D ∧
      t.rd a Reg.IMG_STATUS_PHASE = 0 ∧ t.img.live = s.img.live ∧ t.slc = s.slc ∧ t.core = s.core ∧ t.que = s.que))

/-- PART_CMD and the resets (R436, R447, R453, R455, R458, R509): GO-LIVE makes the instance LIVE on every half; a
reset ends the work it covers and runs until RESET_COMPLETE ends it; a FLR resets its function; BUSY refuses. -/
def Obligations.PartitionCommands : Prop :=
  (∀ (s : State) (d p i : Nat) (src : Source), d < dieCount s.orderCode → i < 32 → wardenOk s p src = true →
    s.rd d Reg.PART_CMD_STATUS_BUSY ≠ 1 → goLiveResult s p i src = 0 → Completes (.goLive d p i src) s (fun t =>
      t.rd d Reg.PART_CMD_STATUS_RESULT = 0 ∧
      (∀ h ∈ partHalves s p, t.rd (h / 2) (Reg.PART_INST (32 * (h % 2) + i)) = 2) ∧ t.slc = s.slc ∧ t.core = s.core ∧
      t.que = s.que ∧ t.recs = s.recs)) ∧
  (∀ (s : State) (d p i : Nat) (src : Source) (c : Instr),
    c ∈ [Instr.goLive d p i .dc, Instr.instReset d p i src, Instr.partReset d p src] → d < dieCount s.orderCode →
    partSealed s p = false → s.rd d Reg.PART_CMD_STATUS_BUSY = 1 → Completes c s (fun t =>
      t.rd d Reg.PART_CMD_STATUS_RESULT = 1 ∧ RegsBut [(d, Reg.PART_CMD_STATUS_RESULT)] s t ∧ t.prt = s.prt ∧
      t.core = s.core ∧ t.que = s.que)) ∧
  (∀ (s : State) (d p i : Nat) (src : Source), d < dieCount s.orderCode → s.rd d Reg.PART_CMD_STATUS_BUSY ≠ 1 →
    (instEntry s p i).isSome = true → partDies s p ≠ [] → foreignPf s p i src = false →
    coveredReset s p (some i) = false → Completes (.instReset d p i src) s (fun t =>
      (∃ r ∈ t.prt.resets, r.part = p ∧ r.inst = some i ∧ r.waiters = [d]) ∧
      t.rd d Reg.PART_CMD_STATUS_BUSY = 1 ∧ (∀ x ∈ t.core.troupes, ¬(x.part = p ∧ x.inst = i)) ∧
      (∀ m ∈ t.que.movers, ¬(m.part = p ∧ m.inst = i)))) ∧
  (∀ (s : State) (d p : Nat) (src : Source), d < dieCount s.orderCode → s.rd d Reg.PART_CMD_STATUS_BUSY ≠ 1 →
    partDies s p ≠ [] → fromRm src = true → loadConcerns s p = false → coveredReset s p none = false →
    Completes (.partReset d p src) s (fun t =>
      (∃ r ∈ t.prt.resets, r.part = p ∧ r.inst = none ∧ d ∈ r.waiters) ∧ t.rd d Reg.PART_CMD_STATUS_BUSY = 1 ∧
      (∀ x ∈ t.core.troupes, x.part ≠ p) ∧ (∀ l ∈ t.core.launches, l.part ≠ p) ∧ (∀ m ∈ t.que.movers, m.part ≠ p))) ∧
  (∀ (s : State) (p : Nat) (i : Option Nat) (r : ResetRun),
    s.prt.resets.find? (fun r => Nat.beq r.part p && r.inst == i) = some r → Completes (.resetComplete p i) s (fun t =>
      t.prt.resets = s.prt.resets.erase r ∧ (i = none → t.prt.faulted.contains p = false) ∧
      HandsOver r.die 0 0x034 0 s t ∧ t.core = s.core ∧ t.slc = s.slc)) ∧
  (∀ (s : State) (port : Nat), portDie port < dieCount s.orderCode → portLive s port = true → attachOf s port ≠ 0 →
    Completes (.flr port 0) s (fun t =>
      attachOf t port = 1 ∧ t.rd (portDie port) Reg.HOST_ABI_STATUS_ACTIVE = 0 ∧
      t.rd (portDie port) (Reg.HOST_FN_VBASE 0) = 0 ∧ t.core = s.core ∧ t.que = s.que ∧ t.slc = s.slc)) ∧
  (∀ (s : State) (port f p i : Nat), portDie port < dieCount s.orderCode → portLive s port = true → attachOf s port ≠ 0 →
    0 < f → f ≤ SMap.get 0 s.host.numVfs port → requesterInst s port f none = some (p, i) →
    (instEntry s p i).isSome = true → coveredReset s p (some i) = false → Completes (.flr port f) s (fun t =>
      (∃ r ∈ t.prt.resets, r.part = p ∧ r.inst = some i ∧ r.waiters = []) ∧
      (∀ x ∈ t.core.troupes, ¬(x.part = p ∧ x.inst = i))))

/-- Gate requests, strings and PART-SRAM (R449, R450, R465): a request on an unstrung block takes effect, one on a
strung block is deferred, its time-out refuses it; an error in a partition's SRAM faults its owner. The warden (R446,
R449, R464, Table PART-8): its fields take its writes and no others, its end faults the sealed partitions, and the
mailboxes fill and empty. Errors of the other protected arrays (R494, R577), which PART_SRAM also carries here (the
model's choice, log 95). -/
def Obligations.GatesStringsAndWarden : Prop :=
  ((∀ (s : State) (d kind index op : Nat) (src : Source) (c : Instr),
    (op, c) ∈ [(1, Instr.powerGate d kind index src), (2, Instr.clockStop d kind index src),
      (3, Instr.restore d kind index src)] → d < dieCount s.orderCode → index < blockCount kind →
    (∀ g ∈ s.prt.deferred, g.die ≠ d) →
    ((op = 3 ∨ strung s d kind index = false) → Completes c s (fun t =>
      (op ≠ 3 → (⟨d, kind, index, op⟩ : GateReq) ∈ t.prt.gated) ∧
      (op = 3 → ∀ g ∈ t.prt.gated, ¬(g.die = d ∧ g.kind = kind ∧ g.index = index)) ∧
      (∀ g, ¬(g.die = d ∧ g.kind = kind ∧ g.index = index) → (g ∈ t.prt.gated ↔ g ∈ s.prt.gated)) ∧
      t.rd d Reg.PART_GATE_STATUS_RESULT = 0 ∧ t.rd d Reg.PART_GATE_STATUS_BUSY = 0 ∧ t.core = s.core ∧ t.slc = s.slc)) ∧
    (op ≠ 3 → strung s d kind index = true → Completes c s (fun t =>
      t.prt.deferred = s.prt.deferred ++ [⟨d, kind, index, op⟩] ∧ t.prt.gated = s.prt.gated ∧
      t.rd d Reg.PART_GATE_STATUS_BUSY = 1 ∧ t.rd d Reg.PART_GATE_STATUS_DEFERRED = 1))) ∧
  (∀ (s : State) (d : Nat) (g : GateReq), d < dieCount s.orderCode → s.prt.deferred = [g] → g.die = d →
    Completes (.stringTimeout d) s (fun t =>
      t.prt.deferred = [] ∧ t.prt.gated = s.prt.gated ∧ t.rd d Reg.PART_GATE_STATUS_RESULT = 1 ∧
      t.rd d Reg.PART_GATE_STATUS_BUSY = 0 ∧ HandsOver d 0 0x092 0 s t ∧
      t.rd d Reg.WARD_REFUSED = min (s.rd d Reg.WARD_REFUSED + 1) (2 ^ 32 - 1))) ∧
  (∀ (s : State) (d kind index p : Nat), d < dieCount s.orderCode → kind < 2 →
    halfPart s d (if kind = 0 then index / 2048 else index / 32) = some p → (imgParts s).contains p = true →
    Completes (.partSram d kind index) s (fun t => t.prt.faulted.contains p = true)) ∧
  (∀ (s : State) (d kind index : Nat), d < dieCount s.orderCode → kind < 2 →
    halfPart s d (if kind = 0 then index / 2048 else index / 32) = none →
    Completes (.partSram d kind index) s (fun t => HandsOver d 0 0x095 3 s t ∧ t.prt = s.prt ∧
      (kind = 0 → t.rd d Reg.PART_IRQ_DROP = min (s.rd d Reg.PART_IRQ_DROP + 1) (2 ^ 32 - 1)) ∧
      RegsBut [(d, Reg.PART_IRQ_DROP)] s t))) ∧
  ((∀ (s : State) (d kind w : Nat) (v : Word) (f : Fld), d < dieCount s.orderCode → s.rd d Reg.WARD_STATUS = 1 →
    strField kind w = some f → (∀ g ∈ s.prt.deferred, g.die ≠ d) →
    Completes (.wardStrWrite d kind w .warden v) s (fun t =>
      t.rd d f = v.toNat % 2 ^ f.width ∧ RegsBut [(d, f)] s t ∧ t.prt = s.prt ∧ t.recs = s.recs)) ∧
  (∀ (s : State) (d kind w : Nat) (src : Source) (v : Word) (f : Fld), d < dieCount s.orderCode → src ≠ .warden →
    strField kind w = some f → v.toNat % 2 ^ f.width ≠ s.rd d f →
    Completes (.wardStrWrite d kind w src v) s (fun t =>
      t.rd d Reg.WARD_DENIED = min (s.rd d Reg.WARD_DENIED + 1) (2 ^ 32 - 1) ∧ RegsBut [(d, Reg.WARD_DENIED)] s t ∧
      HandsOver d 0 0x090 0 s t ∧ t.prt = s.prt)) ∧
  (∀ (s : State) (d cause : Nat), d < dieCount s.orderCode → s.rd d Reg.WARD_STATUS = 1 → sealedParts s d = [] →
    Completes (.wardDown d cause) s (fun t => t.rd d Reg.WARD_STATUS = 0 ∧ RegsBut [(d, Reg.WARD_STATUS)] s t ∧
      HandsOver d 1 0x094 3 s t ∧ t.prt = s.prt)) ∧
  (∀ (s : State) (d cause p : Nat), d < dieCount s.orderCode → s.rd d Reg.WARD_STATUS = 1 → sealedParts s d = [p] →
    (imgParts s).contains p = true → Completes (.wardDown d cause) s (fun t => t.prt.faulted.contains p = true)) ∧
  (∀ (s : State) (d : Nat) (src : Source) (v : Word), d < dieCount s.orderCode →
    Completes (.wardMboxInWrite d src v) s (fun t =>
      t.rd d Reg.WARD_MBOX_IN = v.toNat ∧ t.rd d Reg.WARD_MBOX_STAT_IN_FULL = 1 ∧
      RegsBut [(d, Reg.WARD_MBOX_IN), (d, Reg.WARD_MBOX_STAT_IN_FULL)] s t)) ∧
  (∀ (s : State) (d : Nat) (src : Source), d < dieCount s.orderCode → Completes (.wardMboxInRead d src) s (fun t =>
      t.out.reg = s.out.reg ++ [(src, d, Reg.WARD_MBOX_IN.addr, s.rd d Reg.WARD_MBOX_IN)] ∧
      (src = .warden → s.rd d Reg.WARD_STATUS = 1 → t.rd d Reg.WARD_MBOX_STAT_IN_FULL = 0) ∧
      (src ≠ .warden → t.regs = s.regs))) ∧
  (∀ (s : State) (d : Nat) (v : Word), d < dieCount s.orderCode → s.rd d Reg.WARD_STATUS = 1 →
    Completes (.wardMboxOutWrite d .warden v) s (fun t =>
      t.rd d Reg.WARD_MBOX_OUT = v.toNat ∧ t.rd d Reg.WARD_MBOX_STAT_OUT_FULL = 1)) ∧
  (∀ (s : State) (d : Nat) (src : Source), d < dieCount s.orderCode → Completes (.wardMboxOutRead d src) s (fun t =>
      t.out.reg = s.out.reg ++ [(src, d, Reg.WARD_MBOX_OUT.addr, s.rd d Reg.WARD_MBOX_OUT)] ∧
      t.rd d Reg.WARD_MBOX_STAT_OUT_FULL = 0 ∧ RegsBut [(d, Reg.WARD_MBOX_STAT_OUT_FULL)] s t)) ∧
  (∀ (s : State) (d w : Nat), d < dieCount s.orderCode → w < 8192 → Completes (.partSram d 4 w) s (fun t =>
    t.que.badProg.contains (d * 8192 + w) = true ∧ t.regs = s.regs ∧ t.recs = s.recs ∧ t.slc = s.slc)) ∧
  (∀ (s : State) (d i : Nat), d < dieCount s.orderCode → 320 ≤ i → i < 352 → (monHist s d i).failed = false →
    failedPoints s d < 15 → Completes (.partSram d 2 i) s (fun t => (monHist t d i).failed = true ∧
      (t.rd d Reg.MON_FAIL_POINTS).testBit (i - 320) = true ∧ t.slc = s.slc ∧ t.core = s.core)) ∧
  (∀ (s : State) (d k : Nat) (e : Tlb), d < dieCount s.orderCode →
    (s.xlt.tlb.filter (fun e => Nat.beq e.die d))[k]? = some e → Completes (.partSram d 5 k) s (fun t =>
      t.xlt.tlb = s.xlt.tlb.erase e ∧ t.xlt.ctxs = s.xlt.ctxs ∧
      t.rd d Reg.XLT_TLB_ERR = min (s.rd d Reg.XLT_TLB_ERR + 1) (2 ^ 32 - 1) ∧ RegsBut [(d, Reg.XLT_TLB_ERR)] s t)))

/-- Interrupt remapping (R443, R444, R574): the mediator's writes set the entry and hold it, and a PENDING entry that
opens sends one MSI with its address and data and clears. Translation (R475, R476, R479, R480, R483, R495): an
invalidation that every die answers drops every copy in its scope and completes; one that a silent die or a reset holds up
waits, and its time-out faults the partition; with nine accepted a further one is refused (log 125); XLT_CTX_BASE and the
walk act as stated. -/
def Obligations.InterruptsAndTranslation : Prop :=
  ((∀ (s : State) (d e : Nat) (src : Source) (v : Word), d < dieCount s.orderCode → isMediator s d e src = true →
    Completes (.irqMapAddrWrite d e src v) s (fun t =>
      t.rd d (Reg.PART_IRQ_MAP_ADDR e) = v.toNat / 4 ∧ t.prt.irqHeld.contains (d * 4096 + e) = true ∧
      RegsBut [(d, Reg.PART_IRQ_MAP_ADDR e)] s t ∧ t.out = s.out)) ∧
  (∀ (s : State) (d e : Nat) (src : Source) (v : Word), d < dieCount s.orderCode → isMediator s d e src = true →
    s.rd d (Reg.PART_IRQ_MAP_PENDING e) = 0 → Completes (.irqMapDataWrite d e src v) s (fun t =>
      t.rd d (Reg.PART_IRQ_MAP_DATA e) = bits v.toNat 31 0 ∧ t.rd d (Reg.PART_IRQ_MAP_MASK e) = bits v.toNat 32 32 ∧
      t.rd d (Reg.PART_IRQ_MAP_COAL_US e) = bits v.toNat 42 33 ∧
      t.rd d (Reg.PART_IRQ_MAP_COAL_CNT e) = max 1 (bits v.toNat 50 43) ∧
      t.prt.irqHeld.contains (d * 4096 + e) = false ∧ t.out = s.out)) ∧
  (∀ (s : State) (d e : Nat) (src : Source) (v : Word) (c : Instr),
    c ∈ [Instr.irqMapAddrWrite d e src v, Instr.irqMapDataWrite d e src v, Instr.irqUnmask d e src] →
    d < dieCount s.orderCode → isMediator s d e src = false → Completes c s (fun t => t = s)) ∧
  (∀ (s : State) (d e p i : Nat) (x : InstEntry) (src : Source) (c : Instr), d < dieCount s.orderCode →
    irqOwner s d e = some (p, i) → instEntry s p i = some x → 0 < s.rd d (Reg.PART_IRQ_MAP_PENDING e) →
    ((c = .irqMapHoldTimeout d e ∧ s.rd d (Reg.PART_IRQ_MAP_MASK e) = 0 ∧
        s.rd d (Reg.PART_IRQ_MAP_COAL_CNT e) ≤ s.rd d (Reg.PART_IRQ_MAP_PENDING e) ∧
        s.prt.irqHeld.contains (d * 4096 + e) = true) ∨
      (c = .irqUnmask d e src ∧ isMediator s d e src = true ∧ s.rd d (Reg.PART_IRQ_MAP_MASK e) = 1) ∨
      (c = .irqCoalesceTimeout d e ∧ irqOpen s d e = true)) →
    Completes c s (fun t =>
      t.rd d (Reg.PART_IRQ_MAP_PENDING e) = 0 ∧ t.out.msi = s.out.msi ++
        [⟨x.hostPort, x.vf, s.rd d (Reg.PART_IRQ_MAP_ADDR e) * 4, s.rd d (Reg.PART_IRQ_MAP_DATA e)⟩] ∧
      RegsBut [(d, Reg.PART_IRQ_MAP_PENDING e), (d, Reg.PART_IRQ_MAP_MASK e)] s t))) ∧
  ((∀ (s : State) (d part inst ctx count : Nat) (src : Source) (c : Instr) (x : XInval),
    (c, x) ∈ [(Instr.xltInvalRange d part inst ctx count src,
        (⟨d, 1, part, inst, ctx, s.rd d Reg.XLT_INV_ADDR, count % 0x10000⟩ : XInval)),
      (Instr.xltInvalContext d part inst ctx src, ⟨d, 2, part, inst, ctx, s.rd d Reg.XLT_INV_ADDR, 0⟩),
      (Instr.xltInvalInstance d part inst src, ⟨d, 3, part, inst, 0, s.rd d Reg.XLT_INV_ADDR, 0⟩),
      (Instr.xltInvalPartition d part src, ⟨d, 4, part, 0, 0, s.rd d Reg.XLT_INV_ADDR, 0⟩)] →
    d < dieCount s.orderCode → wardenOk s part src = true → invalsOf s d = [] → silentDie s part = none →
    resetCovers s x = false → (x.scope = 1 → x.count ≠ 0) → Completes c s (fun t =>
      t.rd d Reg.XLT_INV_STATUS_RESULT = 0 ∧ t.rd d Reg.XLT_INV_STATUS_BUSY = 0 ∧
      t.rd d Reg.XLT_INV_DONE = min (s.rd d Reg.XLT_INV_DONE + 1) (2 ^ 32 - 1) ∧
      (∀ e ∈ t.xlt.tlb, ¬(inScope x e.part e.inst e.ctx = true ∧ inRange x e.va e.size = true)) ∧
      (∀ e ∈ s.xlt.tlb, inScope x e.part e.inst e.ctx = false → e ∈ t.xlt.tlb) ∧ t.slc = s.slc ∧ t.core = s.core)) ∧
  (∀ (s : State) (d part inst ctx count : Nat) (src : Source) (c : Instr) (x : XInval),
    (c, x) ∈ [(Instr.xltInvalRange d part inst ctx count src,
        (⟨d, 1, part, inst, ctx, s.rd d Reg.XLT_INV_ADDR, count % 0x10000⟩ : XInval)),
      (Instr.xltInvalContext d part inst ctx src, ⟨d, 2, part, inst, ctx, s.rd d Reg.XLT_INV_ADDR, 0⟩),
      (Instr.xltInvalInstance d part inst src, ⟨d, 3, part, inst, 0, s.rd d Reg.XLT_INV_ADDR, 0⟩),
      (Instr.xltInvalPartition d part src, ⟨d, 4, part, 0, 0, s.rd d Reg.XLT_INV_ADDR, 0⟩)] →
    d < dieCount s.orderCode → wardenOk s part src = true → (x.scope = 1 → x.count ≠ 0) →
    ((invalsOf s d = [] ∧ (silentDie s part ≠ none ∨ resetCovers s x = true) → Completes c s (fun t =>
      t.xlt.queue = s.xlt.queue ++ [x] ∧ t.rd d Reg.XLT_INV_STATUS_BUSY = 1 ∧
      t.rd d Reg.XLT_INV_DONE = s.rd d Reg.XLT_INV_DONE ∧ t.slc = s.slc ∧ t.core = s.core)) ∧
    (9 ≤ (invalsOf s d).length → Completes c s (fun t =>
      t.xlt = s.xlt ∧ t.rd d Reg.XLT_INV_STATUS_RESULT = 1 ∧ t.rd d Reg.XLT_INV_DONE = s.rd d Reg.XLT_INV_DONE)))) ∧
  (∀ (s : State) (d silent : Nat) (x : XInval), d < dieCount s.orderCode → invalsOf s d = [x] →
    (imgParts s).contains x.part = true → Completes (.xltInvTimeout d silent) s (fun t =>
      t.prt.faulted.contains x.part = true ∧ t.rd d Reg.XLT_INV_STATUS_RESULT = 2 ∧
      t.xlt.queue = s.xlt.queue.erase x)) ∧
  (∀ (s : State) (d j : Nat) (src : Source) (v : Word), d < dieCount s.orderCode → j < 64 → halfPart s d (j / 32) = none →
    Completes (.xltCtxBaseWrite d j src v) s (fun t =>
      t.rd d (Reg.XLT_CTX_BASE_VALID j) = v.toNat % 2 ∧ t.rd d (Reg.XLT_CTX_BASE_BASE j) = bits v.toNat 51 12 ∧
      RegsBut [(d, Reg.XLT_CTX_BASE_VALID j), (d, Reg.XLT_CTX_BASE_BASE j)] s t ∧ t.xlt = s.xlt)) ∧
  (∀ (s : State) (d j p : Nat) (src : Source) (v : Word), d < dieCount s.orderCode → j < 64 →
    halfPart s d (j / 32) = some p → wardenOk s p src = true → invalsOf s d = [] →
    Completes (.xltCtxBaseWrite d j src v) s (fun t =>
      (silentDie s p = none → invalsOf t d = [] ∧ t.rd d Reg.XLT_INV_STATUS_RESULT = 0 ∧
        t.rd d Reg.XLT_INV_STATUS_BUSY = 0) ∧
      (silentDie s p ≠ none → invalsOf t d = [⟨d, 5, p, j % 32, 0, 0, 0⟩] ∧ t.rd d Reg.XLT_INV_STATUS_BUSY = 1) ∧
      (∀ h ∈ partHalves s p, t.rd (h / 2) (Reg.XLT_CTX_BASE_VALID (32 * (h % 2) + j % 32)) = v.toNat % 2 ∧
        t.rd (h / 2) (Reg.XLT_CTX_BASE_BASE (32 * (h % 2) + j % 32)) = bits v.toNat 51 12) ∧
      (∀ e ∈ t.xlt.ctxs, ¬(e.part = p ∧ e.inst = j % 32)) ∧ t.xlt.tlb = s.xlt.tlb)) ∧
  (∀ (s : State) (d c part inst ctx va : Nat) (wr ex : Bool) (e : Tlb), d < dieCount s.orderCode → va < 2 ^ 48 →
    s.xlt.tlb.find? (fun e => e.covers 0 c ⟨d, 0, c, part, inst, ctx, 1, clusterSide c, c⟩ va) = some e →
    stale s d e.stamp e.lease = false → e.level = 0 → e.die = d → e.unit = c →
    (s.xlt.tlb.filter (fun x => Nat.beq x.level 0 && Nat.beq x.die d && Nat.beq x.unit c)).length ≤ 256 →
    Completes (.pageWalk d c part inst ctx va wr ex) s (fun t =>
      t.xlt.tlb = s.xlt.tlb.erase e ++ [e] ∧ t.regs = s.regs ∧ t.slc = s.slc)) ∧
  (∀ (s : State) (d c part inst ctx va : Nat) (wr ex : Bool), d < dieCount s.orderCode → 2 ^ 48 ≤ va →
    Completes (.pageWalk d c part inst ctx va wr ex) s (fun t => t = s)))

/-- Links and configuration (R498, R509, R514, R515, R526, R527): a port comes up as its role says, goes down or is
reset hot, loses its ATS translations (an invalidation is counted once no access through one of them is in flight, R523),
counts its errors and records them, and keeps what configuration writes say.
The partner table (R508, R518, Table HOST-8): an allowed write in range is stored on every die that is up and every
cached copy leaves, a denied or out-of-range one only sets RESULT, a read shows the entry, RETIRE makes it RETIRED; accesses
in flight to a changed entry hold the command, and a command written meanwhile does nothing (R522, R566). -/
def Obligations.HostLinksAndPartnerTable : Prop :=
  ((∀ (s : State) (port speed width cap : Nat) (flit : Bool), portDie port < dieCount s.orderCode →
    portLive s port = true → s.host.failedPorts.contains port = false → linkIsUp s port = false → speed < 8 → width < 32 →
    (speed = 6 → flit = true) → (roleOf s port = 0 → Completes (.linkUp port speed width flit cap) s (fun t =>
      attachOf t port = 1 ∧ t.rd (portDie port) Reg.HOST_STATUS_SPEED = speed ∧
      t.rd (portDie port) Reg.HOST_STATUS_WIDTH = width ∧ t.host = s.host ∧ t.xlt = s.xlt)) ∧
    (roleOf s port = 1 → Completes (.linkUp port speed width flit cap) s (fun t =>
      t.rd (portDie port) Reg.HOST_CXL_PRESENT = 1 ∧ (∀ d ∈ ptDies s, ptEntry t d (32 + port) = cxlEntry port cap)))) ∧
  (∀ (s : State) (port cause : Nat), portDie port < dieCount s.orderCode → portLive s port = true →
    attachOf s port ≠ 0 → Completes (.hostLinkDown port cause) s (fun t =>
      attachOf t port = (if cause = 1 then 1 else 0) ∧ t.rd (portDie port) Reg.HOST_ABI_STATUS_ACTIVE = 0 ∧
      SMap.get 0 t.host.numVfs port = 0 ∧ (∀ b ∈ t.host.bursts, b.port ≠ port))) ∧
  (∀ (s : State) (port addr len : Nat), portDie port < dieCount s.orderCode → portLive s port = true →
    linkIsUp s port = true → s.host.outbound = [] → s.host.atsInv = [] →
    Completes (.atsInvalidation port addr len) s (fun t => t.rd (portDie port) Reg.HOST_ATS_INV = min (s.rd (portDie port) Reg.HOST_ATS_INV + 1) (2 ^ 32 - 1) ∧
      RegsBut [(portDie port, Reg.HOST_ATS_INV)] s t ∧
      (∀ e ∈ t.xlt.tlb, ∀ i, e.level = 2 → e.partner = some i → (ptEntry s e.die i).kind = 0 →
        (ptEntry s e.die i).port = port → ¬(e.va < addr + len ∧ addr < e.va + e.size)) ∧
      (∀ e ∈ s.xlt.tlb, e.partner = none → e ∈ t.xlt.tlb) ∧ t.host = s.host)) ∧
  (∀ (s : State) (port addr len va : Nat) (o : Outbound), portDie port < dieCount s.orderCode → portLive s port = true →
    linkIsUp s port = true → s.host.outbound = [o] → s.host.atsInv = [] → o.port = port → o.done = false →
    o.via = some va → va < addr + len → addr < va + o.len → Completes (.atsInvalidation port addr len) s (fun t =>
      t.regs = s.regs ∧ ∃ id, t.host.outbound = [{ o with before := o.before ++ [id] }] ∧ t.host.atsInv = [(id, port)])) ∧
  (∀ (s : State) (port status : Nat) (h : BitVec 128), portDie port < dieCount s.orderCode → portLive s port = true →
    Completes (.hostPortError port 0 status h) s (fun t =>
      t.rd (portDie port) Reg.HOST_AER_CE = min (s.rd (portDie port) Reg.HOST_AER_CE + 1) (2 ^ 32 - 1) ∧
      RegsBut [(portDie port, Reg.HOST_AER_CE)] s t ∧ t.host = s.host ∧ t.recs = s.recs) ∧
    Completes (.hostPortError port 1 status h) s (fun t =>
      t.rd (portDie port) Reg.HOST_AER_UE = min (s.rd (portDie port) Reg.HOST_AER_UE + 1) (2 ^ 32 - 1) ∧
      HandsOver (portDie port) 9 0x0B1 1 s t ∧ t.host = s.host) ∧
    (partsOnPort s port = [] → s.host.bursts = [] → s.host.outbound = [] →
      Completes (.hostPortError port 3 status h) s (fun t =>
        t.host.failedPorts.contains port = true ∧ HandsOver (portDie port) 9 0x0B2 3 s t ∧ t.prt = s.prt))) ∧
  (∀ (s : State) (port : Nat) (v : BitVec 32), portDie port < dieCount s.orderCode → portLive s port = true →
    attachOf s port ≠ 0 → v.toNat < 64 → Completes (.configurationRequest port 0 numVfsReg (some v)) s (fun t =>
      SMap.get 0 t.host.numVfs port = v.toNat ∧ t.regs = s.regs ∧ t.out = s.out)) ∧
  (∀ (s : State) (port f reg : Nat) (v : BitVec 32), portDie port < dieCount s.orderCode → portLive s port = true →
    attachOf s port ≠ 0 → f ≤ SMap.get 0 s.host.numVfs port → (f ≠ 0 ∨ reg ≠ numVfsReg) →
    s.host.cfg.find? (fun x => Nat.beq x.1 port && Nat.beq x.2.1 f && Nat.beq x.2.2.1 reg) = some (port, f, reg, v) →
    Completes (.configurationRequest port f reg none) s (fun t =>
      t.out.host = s.out.host ++ [⟨port, 0, false, leBytes 4 v.toNat⟩] ∧ t.host = s.host ∧ t.regs = s.regs))) ∧
  ((∀ (s : State) (d i : Nat) (src : Source), d < dieCount s.orderCode → i < 256 → ptBusy s d = false → ptMayWrite s (ptNow s i) (ptData s d) src = true →
    ptInRange s (ptData s d) = true → Completes (.ptWrite d i src) s (fun t =>
      (∀ x ∈ ptDies s, ptEntry t x i = ptData s d) ∧ (∀ c ∈ t.xlt.pts, c.index ≠ i) ∧
      (∀ x j, j < 256 → j ≠ i → ptEntry t x j = ptEntry s x j) ∧ t.rd d Reg.HOST_PT_STATUS_RESULT = 0 ∧
      RegsBut [(d, Reg.HOST_PT_CMD_INDEX), (d, Reg.HOST_PT_CMD_OP), (d, Reg.HOST_PT_STATUS_RESULT)] s t)) ∧
  (∀ (s : State) (d i : Nat) (src : Source), d < dieCount s.orderCode → i < 256 → ptBusy s d = false → ptMayWrite s (ptNow s i) (ptData s d) src = true →
    ptInRange s (ptData s d) = false → Completes (.ptWrite d i src) s (fun t =>
      t.rd d Reg.HOST_PT_STATUS_RESULT = 2 ∧ t.host = s.host ∧ t.xlt = s.xlt)) ∧
  (∀ (s : State) (d i : Nat) (src : Source), d < dieCount s.orderCode → i < 256 → ptBusy s d = false → ptMayWrite s (ptNow s i) (ptData s d) src = false →
    Completes (.ptWrite d i src) s (fun t => t.rd d Reg.HOST_PT_STATUS_RESULT = 1 ∧ t.host = s.host ∧ t.xlt = s.xlt)) ∧
  (∀ (s : State) (d i : Nat) (src : Source), d < dieCount s.orderCode → i < 256 → ptBusy s d = false →
    Completes (.ptRead d i src) s (fun t =>
      t.rd d (Reg.HOST_PT_DATA 1) = (ptEntry s d i).base.toNat ∧ t.rd d (Reg.HOST_PT_DATA 2) = (ptEntry s d i).size.toNat ∧
      t.rd d (Reg.HOST_PT_DATA 3) = (ptEntry s d i).word18.toNat ∧ t.rd d Reg.HOST_PT_STATUS_RESULT = 0 ∧
      t.host = s.host ∧ t.xlt = s.xlt)) ∧
  (∀ (s : State) (d i : Nat) (src : Source), d < dieCount s.orderCode → i < 256 → ptBusy s d = false →
    ptMayWrite s (ptNow s i) { ptNow s i with state := 2 } src = true → ptInRange s { ptNow s i with state := 2 } = true →
    Completes (.ptRetire d i src) s (fun t =>
      (∀ x ∈ ptDies s, ptEntry t x i = { ptNow s i with state := 2 }) ∧ t.rd d Reg.HOST_PT_STATUS_RESULT = 0 ∧
      (∀ o ∈ t.host.outbound, o.pt = i → o.kind = 0 → o.done = false → o.before.contains d = true))) ∧
  (∀ (s : State) (d i : Nat) (src : Source) (c : Instr), c ∈ [Instr.ptWrite d i src, Instr.ptRead d i src, Instr.ptRetire d i src] →
    d < dieCount s.orderCode → ptBusy s d = true → Completes c s (fun t => t = s)))

/-- Inbound accesses (R308, R502, R504, R512, R516): an aperture access within one sector reads or writes the instance's
memory as the port does, the MSI-X table reads back, and a bridge request is served or denied as its entry says, and
discarded when it comes from a rack that is not the port's peer or is bound for another rack (R308). -/
def Obligations.InboundAccesses : Prop :=
  (∀ (s s2 : State) (port fn off p i : Nat) (pasid : Option (BitVec 20)) (l : List Byte) (v : SectorData) (po : Bool),
    portDie port < dieCount s.orderCode → portLive s port = true → attachOf s port = 2 →
    requesterInst s port fn pasid = some (p, i) → off + l.length ≤ 2 ^ 36 → l ≠ [] →
    (apertureBase s ⟨port, fn, pasid, some (p, i)⟩ + off) % 32 + l.length ≤ 32 →
    vaWrite ⟨port, fn, pasid, some (p, i)⟩ p i false (apertureBase s ⟨port, fn, pasid, some (p, i)⟩ + off)
      (byteMask ((apertureBase s ⟨port, fn, pasid, some (p, i)⟩ + off) % 32) l.length)
      (BitVec.ofNat 256 (ofLe l * 256 ^ ((apertureBase s ⟨port, fn, pasid, some (p, i)⟩ + off) % 32))) s = (.ok v po, s2) →
    Completes (.hostApertureWrite port fn pasid 2 off l false false) s (fun t =>
      t.slc = s2.slc ∧ t.regs = s2.regs ∧ t.out = s2.out)) ∧
  (∀ (s s2 : State) (port fn off len p i : Nat) (pasid : Option (BitVec 20)) (v : SectorData),
    portDie port < dieCount s.orderCode → portLive s port = true → attachOf s port = 2 →
    requesterInst s port fn pasid = some (p, i) → off + len ≤ 2 ^ 36 → 0 < len →
    (apertureBase s ⟨port, fn, pasid, some (p, i)⟩ + off) % 32 + len ≤ 32 →
    vaRead ⟨port, fn, pasid, some (p, i)⟩ p i (apertureBase s ⟨port, fn, pasid, some (p, i)⟩ + off) s = (.ok v false, s2) →
    Completes (.hostApertureRead port fn pasid 2 off len) s (fun t =>
      t.out.host = s2.out.host ++ [⟨port, 0, false,
        ((leBytes 32 v.toNat).drop ((apertureBase s ⟨port, fn, pasid, some (p, i)⟩ + off) % 32)).take len⟩] ∧
      t.slc = s2.slc ∧ t.regs = s2.regs)) ∧
  (∀ (s : State) (port off : Nat) (b : Byte), portDie port < dieCount s.orderCode → portLive s port = true →
    attachOf s port = 2 → off < 0x400 → Completes (.hostApertureWrite port 0 none 0 (0x20000 + off) [b] false false) s
      (fun t => msixRead t ⟨port, 0, none, requesterInst t port 0 none⟩ off 1 = [b] ∧ t.regs = s.regs ∧ t.slc = s.slc)) ∧
  (∀ (s : State) (plane bport rack dest index off len : Nat) (w : Option (List SectorData)),
    bridgeTo s plane bport rack = false ∨ dest ≠ s.rack.rackNo →
    Completes (.bridgeRequest plane bport ⟨rack, dest⟩ index off len w) s (fun t => t = s)) ∧
  (∀ (s : State) (plane bport rack index off len : Nat) (w : Option (List SectorData)), bridgeTo s plane bport rack = true →
    exportLets (ptNow s index) (plane * 8 + bport) rack off (match w with | some l => 32 * l.length | none => len)
      w.isSome = false → Completes (.bridgeRequest plane bport ⟨rack, s.rack.rackNo⟩ index off len w) s (fun t =>
      t.out.bridge = s.out.bridge ++ [⟨plane * 8 + bport, 1, false, []⟩] ∧ t.slc = s.slc ∧ t.regs = s.regs)) ∧
  (∀ (s s2 : State) (plane bport rack index off len : Nat) (v : SectorData), bridgeTo s plane bport rack = true →
    exportLets (ptNow s index) (plane * 8 + bport) rack off len false = true → 0 < len →
    ((ptNow s index).base.toNat + off) % 32 + len ≤ 32 →
    inRead (homeDie ((ptNow s index).base.toNat + off)) ((ptNow s index).base.toNat + off) (ptNow s index).part s =
      (.ok v false, s2) → Completes (.bridgeRequest plane bport ⟨rack, s.rack.rackNo⟩ index off len none) s (fun t =>
      t.out.bridge = s2.out.bridge ++ [⟨plane * 8 + bport, 0, false,
        ((leBytes 32 v.toNat).drop (((ptNow s index).base.toNat + off) % 32)).take len⟩] ∧ t.slc = s2.slc))

/-- The register port, the MGP frames and JTAG (R560, R561, R562, R567, R578, R589): a plain write is taken and
clamped, a read-only or unmapped register is not, an RC counter is returned and cleared, a good frame is performed and
answered, and each TAP instruction acts on its die alone. -/
def Obligations.RegisterPort : Prop :=
  (∀ (s : State) (d : Nat) (src : Source) (v : Word), d < dieCount s.orderCode → src ∈ [Source.dc, .mgp] →
    dieUp s d = true →
    Completes (.registerWrite d 0x280018 8 src v) s (fun t =>
      t.rd d Reg.IMG_COMMIT_TIME = v.toNat ∧ RegsBut [(d, Reg.IMG_COMMIT_TIME)] s t ∧ t.img = s.img) ∧
    Completes (.registerWrite d 0x280020 8 src v) s (fun t =>
      t.rd d Reg.IMG_QTIMEOUT = max 1 (min 10000 (v.toNat % 2 ^ 14)) ∧ RegsBut [(d, Reg.IMG_QTIMEOUT)] s t ∧ t.img = s.img) ∧
    (∀ addr ∈ [0x58, 0x280008, 0x7FFF8], Completes (.registerWrite d addr 8 src v) s (fun t => t = s))) ∧
  (∀ (s : State) (d : Nat) (src : Source) (f : Fld), d < dieCount s.orderCode → src ∈ [Source.dc, .mgp] →
    dieUp s d = true → f ∈ [Reg.REC_DROPPED, Reg.WARD_DENIED, Reg.XLT_INV_DONE, Reg.IMG_DROPPED_DB] → s.rd d f < 2 ^ 32 →
    Completes (.rcRegisterRead d f.addr 8 src) s (fun t =>
      t.rd d f = 0 ∧ t.out.reg = s.out.reg ++ [(src, d, f.addr, s.rd d f)] ∧ RegsBut [(d, f)] s t)) ∧
  (∀ (s : State) (frame : List Byte) (c : Instr), c ∈ [Instr.regRead frame, Instr.regWrite frame] → mgpTaken s frame = false →
    Completes c s (fun t => t = s)) ∧
  (∀ (s u : State) (frame : List Byte) (v : Nat), mgpTaken s frame = true → mgpFormat frame 1 = true →
    leAt frame 6 1 < 64 → leAt frame 7 1 = 1 → leAt frame 8 4 % 8 = 0 → mgpReach s (leAt frame 6 1) (leAt frame 8 4) = 0 →
    portRead (leAt frame 6 1) .mgp (leAt frame 8 4) 8 s = (some v, u) → Completes (.regRead frame) s (fun t =>
      t.regs = u.regs ∧ ∃ r, t.out.mgp = u.out.mgp ++ [r] ∧ r.length = 28 ∧ leAt r 3 1 = 0x81 ∧ leAt r 12 1 = 0 ∧
        leAt r 13 1 = 1 ∧ leAt r 16 8 = v % 2 ^ 64)) ∧
  (∀ (s u : State) (frame : List Byte), mgpTaken s frame = true → mgpFormat frame 2 = true →
    leAt frame 6 1 < 64 → leAt frame 7 1 = 1 → leAt frame 8 4 % 8 = 0 → mgpReach s (leAt frame 6 1) (leAt frame 8 4) = 0 →
    portWrite (leAt frame 6 1) .mgp (leAt frame 8 4) 8 (leAt frame 16 8) s = (0, u) → Completes (.regWrite frame) s (fun t =>
      t.regs = u.regs ∧ ∃ r, t.out.mgp = u.out.mgp ++ [r] ∧ r.length = 20 ∧ leAt r 3 1 = 0x82 ∧ leAt r 12 1 = 0 ∧
        leAt r 13 1 = 1)) ∧
  (∀ (s : State) (d : Nat) (cells : Word) (dr : BitVec 96) (code : BitVec 8), d < dieCount s.orderCode →
    s.rack.powered.contains d = true →
    Completes (.jtagExtest d cells) s (fun t => t.regs = s.regs ∧
      (extestActs s d = true → SMap.get 0 t.rack.jtagCells d = cells.toNat ∧ SMap.get 0xFF t.rack.jtagIr d = 0) ∧
      (extestActs s d = false → t.rack.jtagCells = s.rack.jtagCells ∧ SMap.get 0xFF t.rack.jtagIr d = 0xFF)) ∧
    Completes (.jtagIdcode d) s (fun t => t.regs = s.regs ∧ SMap.get 0xFF t.rack.jtagIr d = 1 ∧
      t.out.jtag = s.out.jtag ++ [(d, idcode (s.rd d Reg.DC_ID_STEPPING))]) ∧
    Completes (.jtagSamplePreload d cells) s (fun t => t.regs = s.regs ∧ SMap.get 0xFF t.rack.jtagIr d = 2 ∧
      SMap.get 0 t.rack.jtagCells d = cells.toNat ∧ t.out.jtag = s.out.jtag ++ [(d, (Config.freeWord s.free.1).toNat)]) ∧
    (code.toNat ∉ [0x00, 0x01, 0x02, 0x10] → Completes (.jtagBypass d code) s (fun t => t.regs = s.regs ∧
      SMap.get 0xFF t.rack.jtagIr d = 0xFF ∧ t.out = s.out)) ∧
    (∀ v u, dr.toNat % 0x1000000 % 8 = 0 → mgpReach s d (dr.toNat % 0x1000000) = 0 → dr.toNat.testBit 24 = false →
      portRead d .mgp (dr.toNat % 0x1000000) 8 (tapIr d 0x10 s) = (some v, u) → Completes (.jtagDcDebug d dr) s (fun t =>
        t.out.jtag = u.out.jtag ++ [(d, v)] ∧ t.regs = u.regs)))

/-- The recorder (R41, R532, R534, R542, R545, R551, Table FLT-10): a record is accepted in order with its SEQ, drained at
WR, lost to an SRAM error; REC_TEST hands one over, and REC_FAIL_CLEAR sets its bit; on a die whose clocks have stopped, the
engine does nothing. -/
def Obligations.RecorderActs : Prop :=
  (∀ (s : State) (d : Nat) (w : WaitRec), d < dieCount s.orderCode → clocked s d = true →
    s.recs.waiting.find? (fun w => Nat.beq w.die d) = some w → w.dropped = false →
    stagedBytes s d + recLen w.payload.length ≤ 0x40000 → (stagedBytes s d ≤ 0x30000 ∨ 2 ≤ w.cls) →
    Completes (.recordAccept d) s (fun t =>
      t.recs.staging = s.recs.staging ++ [⟨d, recBytes (recLen w.payload.length) w.typ (d * 64 + w.unit) (recFlags s w)
        (s.rd d Reg.REC_SEQ) w.rtime w.payload⟩] ∧
      t.rd d Reg.REC_SEQ = (s.rd d Reg.REC_SEQ + 1) % 2 ^ 16 ∧ RegsBut [(d, Reg.REC_SEQ)] s t ∧
      t.recs.waiting.length + 1 = s.recs.waiting.length)) ∧
  (∀ (s : State) (d : Nat) (w : WaitRec), d < dieCount s.orderCode → clocked s d = true →
    s.recs.waiting.find? (fun w => Nat.beq w.die d) = some w → w.dropped = true →
    Completes (.recordAccept d) s (fun t => t.recs.staging = s.recs.staging ∧
      t.rd d Reg.REC_SEQ = (s.rd d Reg.REC_SEQ + 1) % 2 ^ 16 ∧
      t.rd d Reg.REC_DROPPED = min (s.rd d Reg.REC_DROPPED + 1) (2 ^ 32 - 1) ∧ t.recs.dropFlag.contains d = true)) ∧
  (∀ (s : State) (d : Nat) (r : StagedRec), d < dieCount s.orderCode → clocked s d = true →
    s.recs.staging.find? (fun r => Nat.beq r.die d) = some r → s.rd d Reg.REC_STAGE_RING_UP = 1 →
    (∀ e ∈ s.recs.dropOwed, e.1 ≠ d) → ringSize s d < 2 ^ 40 →
    r.bytes.length ≤ ringSize s d - s.rd d Reg.REC_WR % ringSize s d → s.rd d Reg.REC_WR + r.bytes.length < 2 ^ 64 →
    Completes (.recordDrain d) s (fun t =>
      t.rd d Reg.REC_WR = s.rd d Reg.REC_WR + r.bytes.length ∧
      t.rd d Reg.REC_WRITTEN = min (s.rd d Reg.REC_WRITTEN + 1) (2 ^ 48 - 1) ∧
      t.recs.staging = dropStaged d s.recs.staging ∧
      (∀ k b, r.bytes[k]? = some b →
        SMap.get 0 t.recs.ring (ringKey d ((s.rd d Reg.REC_WR + k) % ringSize s d)) = b) ∧
      RegsBut [(d, Reg.REC_WR), (d, Reg.REC_OLDEST), (d, Reg.REC_WRITTEN)] s t)) ∧
  (∀ (s : State) (d : Nat) (src : Source) (v : BitVec 32), d < dieCount s.orderCode → clocked s d = true →
    Completes (.recTest d src v) s (fun t => t.rd d Reg.REC_TEST = v.toNat ∧ HandsOver d 0 0x001 0 s t ∧
      RegsBut [(d, Reg.REC_TEST)] s t)) ∧
  (∀ (s : State) (d : Nat) (src : Source) (c : Instr) (f : Fld),
    (c, f) ∈ [(Instr.recFailClearClusters d src, Reg.REC_FAIL_CLEAR_CLUSTERS),
      (Instr.recFailClearChans d src, Reg.REC_FAIL_CLEAR_CHANS), (Instr.recFailClearHalves d src, Reg.REC_FAIL_CLEAR_HALVES)] →
    d < dieCount s.orderCode → Completes c s (fun t => t.rd d f = 1 ∧ RegsBut [(d, f)] s t ∧ t.core = s.core ∧ t.slc = s.slc)) ∧
  (∀ (s : State) (d i : Nat), d < dieCount s.orderCode → clocked s d = true →
    i < (s.recs.staging.filter (fun r => Nat.beq r.die d)).length →
    Completes (.stagingSramError d i) s (fun t => t.recs.staging.length + 1 = s.recs.staging.length ∧
      t.rd d Reg.REC_DROPPED = min (s.rd d Reg.REC_DROPPED + 1) (2 ^ 32 - 1) ∧ RegsBut [(d, Reg.REC_DROPPED)] s t)) ∧
  (∀ (s : State) (d i : Nat) (src : Source) (v : BitVec 32) (c : Instr),
    c ∈ [Instr.recordAccept d, Instr.recordDrain d, Instr.recTest d src v, Instr.stagingSramError d i] →
    d < dieCount s.orderCode → clocked s d = false → Completes c s (fun t => t = s))

/-- Power up (R584, R585, R121): shelves, busbar, RM, MOD_EN and each die's power good in their order. Power down
(R586, R592, R593, R594, R595, R596): what the loss of a module, of the busbar, of a shelf, of cooling or of one stage
takes off, and what it leaves. -/
def Obligations.PowerUpAndDown : Prop :=
  ((∀ (s : State) (k : Nat), k < 3 → s.rack.shelfUp.contains k = false → Completes (.shelfPowerGood k) s (fun t =>
      t.rack.shelfUp.contains k = true ∧ (1 ≤ s.rack.shelfUp.length → t.rack.busbar = true) ∧
      SMap.get 0 t.rack.rectFailed k = 0 ∧ t.regs = s.regs ∧ t.boot = s.boot)) ∧
  (∀ (s : State) (l : List PairEntry) (a b c : Compat) (n ms : Nat), s.rack.busbar = true → s.rack.rmUp = false →
    Completes (.rmBoot l a b c ⟨n, ms⟩) s (fun t => t.rack.rmUp = true ∧ t.rack.refclk = true ∧
      t.boot.pairing = l.take 1024 ∧ t.boot.censusMs = max 100 (min ms 60000) ∧ t.rack.rackNo = n % 0x10000 ∧
      t.regs = s.regs)) ∧
  (∀ (s : State) (sp0 sp1 after : Bool), s.rack.rmUp = true → s.rack.coolOff = false →
    (cduOk s s.rack.inlet s.rack.flow = true ∧ (sp0 || s.rack.spineReady.contains 0) = true ∧
        (sp1 || s.rack.spineReady.contains 1) = true ∨
      after = true ∧ (sp0 || sp1 || !s.rack.spineReady.isEmpty) = true) →
    Completes (.modEnAssert sp0 sp1 after) s (fun t =>
      (∀ m, m < moduleCount s.orderCode → s.rack.modAbsent.contains m = false → m ∈ t.rack.modEn) ∧
      (∀ m ∈ t.rack.modEn, s.rack.modAbsent.contains m = false) ∧ t.regs = s.regs ∧ t.rack.powered = s.rack.powered)) ∧
  (∀ (s : State) (d : Nat), d < dieCount s.orderCode → s.rack.modEn.contains (moduleOf d) = true →
    s.rack.modAbsent.contains (moduleOf d) = false → s.rack.dieOff.contains d = false → s.rack.powered.contains d = false →
    (∀ k, k < d % 4 → s.rack.powered.contains (4 * moduleOf d + k) = true ∨
      s.rack.dieOff.contains (4 * moduleOf d + k) = true) → Completes (.diePowerGood d) s (fun t =>
      t.rack.powered.contains d = true ∧ t.boot.inReset.contains d = true ∧
      t.rd d Reg.DC_INCARNATION = (if s.rack.modReset.contains (moduleOf d) then (SMap.get 0 s.rack.flashIncarn d + 1) % 0x10000
        else 0) ∧
      t.rd d Reg.DC_RESET_CAUSE = (if s.rack.modReset.contains (moduleOf d) then 2 else 0))) ∧
  (∀ (s : State) (m image copy : Nat) (c : FlashCopy), 4 * m < dieCount s.orderCode → s.rack.rmUp = true → image < 3 →
    copy < 2 → s.rack.modAbsent.contains m = false → Completes (.moduleFlashWrite m image copy c) s (fun t =>
      (c.length ≤ (flashPlace image copy).2 → look (m * 8 + image * 2 + copy) t.rack.flash = some c) ∧
      ((flashPlace image copy).2 < c.length → t.rack.flash = s.rack.flash) ∧ t.regs = s.regs ∧ t.boot = s.boot)) ∧
  (∀ (s : State) (m : Nat), 4 * m < dieCount s.orderCode → s.rack.modAbsent.contains m = true →
    Completes (.moduleInsert m) s (fun t => t.rack.modAbsent.contains m = false ∧ t.rack.valvesShut.contains m = false ∧
      t.rack.modEn = s.rack.modEn ∧ t.regs = s.regs)) ∧
  (∀ (s : State) (k : Nat), k < 2 → s.rack.rmUp = true → s.rack.planeLost.contains k = true →
    Completes (.spineSledReplace k) s (fun t => t.rack.spineReady.contains k = true ∧
      t.rack.planeLost = s.rack.planeLost ∧ t.boot = s.boot))) ∧
  ((∀ (s : State) (m : Nat), 4 * m < dieCount s.orderCode → s.rack.modEn.contains m = true →
    Completes (.modEnDrop m) s (fun t => t.rack.modEn.contains m = false ∧ t.rack.modReset.contains m = true ∧
      (∀ d, moduleOf d = m → t.rack.powered.contains d = false) ∧
      (∀ d, moduleOf d ≠ m → t.rack.powered.contains d = s.rack.powered.contains d))) ∧
  (∀ (s : State), s.rack.busbar = true → (∀ d ∈ s.rack.powered, d < dieCount s.orderCode) →
    Completes (.busbarLoss) s (fun t => t.rack.busbar = false ∧ t.rack.shelfUp = [] ∧ t.rack.rmUp = false ∧
      t.rack.modEn = [] ∧ t.rack.powered = [] ∧ t.img.load = none)) ∧
  (∀ (s : State) (k : Nat), s.rack.shelfUp.contains k = true → SMap.get 0 s.rack.rectFailed k < 7 → 2 ≤ s.rack.shelfUp.length →
    Completes (.shelfFailure k false) s (fun t => t.rack.shelfUp = s.rack.shelfUp ∧
      SMap.get 0 t.rack.rectFailed k = SMap.get 0 s.rack.rectFailed k + 1 ∧ t.rack.powered = s.rack.powered)) ∧
  (∀ (s : State) (inlet flow : Nat), s.rack.rmUp = true → s.rack.coolOff = false → s.rack.modEn ≠ [] →
    (40 < inlet ∨ 4 ≤ s.rack.lowFlow ∧ 2 * flow < minFlow s.orderCode) →
    Completes (.cduCheck inlet flow) s (fun t => t.rack.coolOff = true ∧ t.rack.modEn = [])) ∧
  (∀ (s : State) (inlet flow : Nat), s.rack.rmUp = true → s.rack.coolOff = false → inlet ≤ 40 →
    minFlow s.orderCode ≤ 2 * flow → Completes (.cduCheck inlet flow) s (fun t =>
      t.rack.inlet = inlet ∧ t.rack.flow = flow ∧ t.rack.lowFlow = 0 ∧ t.rack.modEn = s.rack.modEn ∧
      t.rack.powered = s.rack.powered ∧ t.regs = s.regs)) ∧
  (∀ (s : State) (m : Nat), 4 * m < dieCount s.orderCode → s.rack.rmUp = true → s.rack.modAbsent.contains m = false →
    Completes (.leak (some m)) s (fun t => t.rack.valvesShut.contains m = true ∧ t.rack.modAlert.contains m = true ∧
      t.rack.modEn.contains m = false)) ∧
  (∀ (s : State) (d : Nat), d < dieCount s.orderCode → s.rack.modEn.contains (moduleOf d) = true →
    s.rack.dieOff.contains d = false → Completes (.stageFault d) s (fun t =>
      t.rack.dieOff.contains d = true ∧ t.rack.powered.contains d = false ∧ t.rack.modAlert.contains (moduleOf d) = true ∧
      (∀ x, x ≠ d → t.rack.powered.contains x = s.rack.powered.contains x))) ∧
  (∀ (s : State) (m : Nat), 4 * m < dieCount s.orderCode → s.rack.modAbsent.contains m = false →
    Completes (.moduleRemove m) s (fun t => t.rack.modAbsent.contains m = true ∧ t.rack.modEn.contains m = false ∧
      t.rack.modAlert.contains m = false)))
end

