-- ==== Sys2Proof/Laws/SMap.lean ====
section
/-! SUPPORT. What a sparse map, a memory and a recorder ring do: reading after writing, and the canonical form kept by
every operation. -/

namespace Sys2Proof.Machine

/-! ### Reading after writing -/

@[simp] theorem SMap.get_nil {α : Type} (d : α) (q : Nat) : SMap.get d ([] : SMap α) q = d := rfl

theorem SMap.get_insert_same {α : Type} (d : α) (m : SMap α) (q : Nat) (v : α) :
    SMap.get d (SMap.insert m q v) q = v := by
  induction m with
  | nil => simp [SMap.insert, SMap.get]
  | cons e m ih =>
    simp only [SMap.insert]
    split
    · simp [SMap.get]
    · split
      · simp [SMap.get, *]
      · simp [SMap.get, *]

theorem SMap.get_insert_ne {α : Type} (d : α) (m : SMap α) (q r : Nat) (v : α) (h : r ≠ q) :
    SMap.get d (SMap.insert m q v) r = SMap.get d m r := by
  induction m with
  | nil => simp [SMap.insert, SMap.get, h.symm]
  | cons e m ih =>
    simp only [SMap.insert]
    split
    · simp [SMap.get, h.symm]
    · split
      · rename_i hk; subst hk; simp [SMap.get, h.symm]
      · simp [SMap.get, ih]

theorem SMap.get_erase_same {α : Type} (d : α) (m : SMap α) (q : Nat) :
    SMap.get d (SMap.erase m q) q = d := by
  induction m with
  | nil => rfl
  | cons e m ih =>
    simp only [SMap.erase]
    split
    · exact ih
    · simp [SMap.get, *]

theorem SMap.get_erase_ne {α : Type} (d : α) (m : SMap α) (q r : Nat) (h : r ≠ q) :
    SMap.get d (SMap.erase m q) r = SMap.get d m r := by
  induction m with
  | nil => rfl
  | cons e m ih =>
    simp only [SMap.erase]
    split
    · rename_i hk; subst hk; simp [SMap.get, h.symm, ih]
    · simp [SMap.get, ih]

/-- A write is read back. -/
@[simp] theorem SMap.get_set_same {α : Type} [DecidableEq α] (d : α) (m : SMap α) (q : Nat) (v : α) :
    SMap.get d (SMap.set d m q v) q = v := by
  unfold SMap.set
  split
  · rename_i h; rw [SMap.get_erase_same, h]
  · exact SMap.get_insert_same d m q v

/-- A write leaves every other key alone, whatever default it is written with. -/
theorem SMap.get_set_ne {α : Type} [DecidableEq α] (d d' : α) (m : SMap α) (q r : Nat) (v : α) (h : r ≠ q) :
    SMap.get d' (SMap.set d m q v) r = SMap.get d' m r := by
  unfold SMap.set
  split
  · exact SMap.get_erase_ne d' m q r h
  · exact SMap.get_insert_ne d' m q r v h

theorem SMap.get_set {α : Type} [DecidableEq α] (d : α) (m : SMap α) (q r : Nat) (v : α) :
    SMap.get d (SMap.set d m q v) r = if r = q then v else SMap.get d m r := by
  split
  · rename_i h; subst h; exact SMap.get_set_same d m r v
  · rename_i h; exact SMap.get_set_ne d d m q r v h

theorem SMap.get_filter {α : Type} (d : α) (p : Nat → Bool) (m : SMap α) (q : Nat) :
    SMap.get d (m.filter (fun e => p e.1)) q = if p q then SMap.get d m q else d := by
  induction m with
  | nil => simp
  | cons e m ih =>
    obtain ⟨k, v⟩ := e
    rw [List.filter_cons]
    by_cases hk : k = q
    · subst hk
      by_cases hp : p k = true
      · simp [hp, SMap.get]
      · rw [if_neg hp, ih, if_neg hp, if_neg hp]
    · split
      · rw [SMap.get, if_neg hk, ih, SMap.get, if_neg hk]
      · rw [ih, SMap.get, if_neg hk]

theorem SMap.get_clearRange {α : Type} (d : α) (m : SMap α) (lo hi q : Nat) :
    SMap.get d (SMap.clearRange m lo hi) q = if lo ≤ q ∧ q < hi then d else SMap.get d m q := by
  unfold SMap.clearRange
  rw [SMap.get_filter d (fun k => !(Nat.ble lo k && Nat.blt k hi)) m q]
  by_cases h : lo ≤ q ∧ q < hi
  · have : (!(Nat.ble lo q && Nat.blt q hi)) = false := by simp [h]
    rw [if_pos h, this]; rfl
  · have : (!(Nat.ble lo q && Nat.blt q hi)) = true := by
      cases h1 : Nat.ble lo q with
      | false => rfl
      | true =>
        cases h2 : Nat.blt q hi with
        | false => rfl
        | true => exact absurd ⟨Nat.le_of_ble_eq_true h1, Nat.le_of_ble_eq_true h2⟩ h
    rw [if_neg h, this]; rfl

/-! ### The canonical form -/

/-- Keys strictly rising, as a relation between any two entries. -/
theorem SMap.rising_iff {α : Type} (m : SMap α) : SMap.rising m = true ↔ m.Pairwise (fun a b => a.1 < b.1) := by
  induction m with
  | nil => simp [SMap.rising]
  | cons e m ih =>
    cases m with
    | nil => simp [SMap.rising]
    | cons e' m =>
      obtain ⟨k, v⟩ := e
      obtain ⟨k', v'⟩ := e'
      simp only [SMap.rising, Bool.and_eq_true, Nat.blt_eq, ih, List.pairwise_cons, List.mem_cons]
      constructor
      · rintro ⟨h, h1, h2⟩
        refine ⟨?_, h1, h2⟩
        rintro a (rfl | ha)
        · exact h
        · exact Nat.lt_trans h (h1 a ha)
      · rintro ⟨h, h1⟩
        exact ⟨h _ (Or.inl rfl), h1⟩

theorem SMap.mem_insert {α : Type} (m : SMap α) (q : Nat) (v : α) (e : Nat × α) (h : e ∈ SMap.insert m q v) :
    e = (q, v) ∨ e ∈ m := by
  induction m with
  | nil => simpa [SMap.insert] using h
  | cons x m ih =>
    simp only [SMap.insert] at h
    split at h
    · simpa using h
    · split at h
      · rename_i hk
        subst hk
        rcases List.mem_cons.1 h with rfl | h
        · exact Or.inl rfl
        · exact Or.inr (List.mem_cons_of_mem _ h)
      · rcases List.mem_cons.1 h with rfl | h
        · exact Or.inr (List.mem_cons_self ..)
        · rcases ih h with h | h
          · exact Or.inl h
          · exact Or.inr (List.mem_cons_of_mem _ h)

theorem SMap.erase_eq_filter {α : Type} (m : SMap α) (q : Nat) : SMap.erase m q = m.filter (fun e => !(Nat.beq e.1 q)) := by
  induction m with
  | nil => rfl
  | cons x m ih =>
    obtain ⟨k, w⟩ := x
    simp only [SMap.erase, List.filter_cons]
    by_cases h : k = q
    · simp [h, ih]
    · have : Nat.beq k q = false := by
        cases hb : Nat.beq k q with
        | false => rfl
        | true => exact absurd (Nat.eq_of_beq_eq_true hb) h
      simp [h, ih, this]

theorem SMap.rising_insert {α : Type} (m : SMap α) (q : Nat) (v : α) (h : SMap.rising m = true) :
    SMap.rising (SMap.insert m q v) = true := by
  rw [SMap.rising_iff] at h ⊢
  induction m with
  | nil => simp [SMap.insert]
  | cons x m ih =>
    obtain ⟨k, w⟩ := x
    obtain ⟨h1, h2⟩ := List.pairwise_cons.1 h
    simp only [SMap.insert]
    split
    · rename_i hq
      refine List.pairwise_cons.2 ⟨?_, h⟩
      intro a ha
      rcases List.mem_cons.1 ha with rfl | ha
      · exact hq
      · exact Nat.lt_trans hq (h1 a ha)
    · split
      · exact List.pairwise_cons.2 ⟨h1, h2⟩
      · refine List.pairwise_cons.2 ⟨?_, ih h2⟩
        intro a ha
        rcases SMap.mem_insert m q v a ha with rfl | ha
        · show k < q; omega
        · exact h1 a ha

theorem SMap.rising_filter {α : Type} (m : SMap α) (p : Nat × α → Bool) (h : SMap.rising m = true) :
    SMap.rising (m.filter p) = true := by
  rw [SMap.rising_iff] at h ⊢
  exact h.filter p

theorem SMap.rising_set {α : Type} [DecidableEq α] (d : α) (m : SMap α) (k : Nat) (v : α) (h : SMap.rising m = true) :
    SMap.rising (SMap.set d m k v) = true := by
  unfold SMap.set
  split
  · rw [SMap.erase_eq_filter]; exact SMap.rising_filter m _ h
  · exact SMap.rising_insert m k v h

theorem SMap.rising_clearRange {α : Type} (m : SMap α) (lo hi : Nat) (h : SMap.rising m = true) :
    SMap.rising (SMap.clearRange m lo hi) = true := SMap.rising_filter m _ h

theorem SMap.wf_filter {α : Type} [DecidableEq α] (d : α) (m : SMap α) (p : Nat × α → Bool) (h : SMap.wf d m = true) :
    SMap.wf d (m.filter p) = true := by
  simp only [SMap.wf, Bool.and_eq_true, List.all_eq_true, decide_eq_true_eq] at h ⊢
  exact ⟨SMap.rising_filter m p h.1, fun e he => h.2 e (List.mem_filter.1 he).1⟩

/-- A write keeps the canonical form. -/
theorem SMap.wf_set {α : Type} [DecidableEq α] (d : α) (m : SMap α) (k : Nat) (v : α) (h : SMap.wf d m = true) :
    SMap.wf d (SMap.set d m k v) = true := by
  unfold SMap.set
  split
  · rw [SMap.erase_eq_filter]; exact SMap.wf_filter d m _ h
  · rename_i hv
    simp only [SMap.wf, Bool.and_eq_true, List.all_eq_true, decide_eq_true_eq] at h ⊢
    refine ⟨SMap.rising_insert m k v h.1, fun e he => ?_⟩
    rcases SMap.mem_insert m k v e he with rfl | he
    · exact hv
    · exact h.2 e he

theorem SMap.wf_clearRange {α : Type} [DecidableEq α] (d : α) (m : SMap α) (lo hi : Nat) (h : SMap.wf d m = true) :
    SMap.wf d (SMap.clearRange m lo hi) = true := SMap.wf_filter d m _ h

/-! ### Memory and rings -/

/-- Every write to HBM keeps its canonical form. -/
theorem Memory.wf_put (k : Nat) (l : List Byte) (m : List Host.Cell) (h : Memory.wf m = true) :
    Memory.wf (hbmPut k l m) = true := by
  induction l generalizing k m with
  | nil => exact h
  | cons b l ih => exact ih (k + 1) _ (SMap.wf_set hbmBlank m k b h)

/-- A part of HBM lost keeps the form of the rest. -/
theorem Memory.wf_filter (m : List Host.Cell) (p : Host.Cell → Bool) (h : Memory.wf m = true) :
    Memory.wf (m.filter p) = true := SMap.wf_filter hbmBlank m p h

/-- Every write to a ring keeps its canonical form. -/
theorem ring_wf_put (d size off : Nat) (l : List Byte) (m : SMap Byte) (h : SMap.wf 0 m = true) :
    SMap.wf 0 (ringPut d size off l m) = true := by
  induction l generalizing off m with
  | nil => exact h
  | cons b l ih => exact ih (off + 1) _ (SMap.wf_set 0 m _ b h)

/-- Bytes below the first written key keep their value. -/
theorem hbm_get_put_below (k : Nat) (l : List Byte) (m : List Host.Cell) (q : Nat) (h : q < k) :
    SMap.get hbmBlank (hbmPut k l m) q = SMap.get hbmBlank m q := by
  induction l generalizing k m with
  | nil => rfl
  | cons b l ih =>
    rw [hbmPut, ih (k + 1) _ (by omega), SMap.get_set_ne _ _ _ _ _ _ (by omega)]

/-- A byte of memory after a run of bytes is put: inside the run the byte put there, outside it the byte that was there. -/
theorem hbm_get_put (k : Nat) (l : List Byte) (m : List Host.Cell) (q : Nat) :
    SMap.get hbmBlank (hbmPut k l m) q =
      if k ≤ q ∧ q < k + l.length then (l[q - k]?).getD 0 else SMap.get hbmBlank m q := by
  induction l generalizing k m with
  | nil =>
    have : ¬ (k ≤ q ∧ q < k + ([] : List Byte).length) := by simp only [List.length_nil]; omega
    rw [if_neg this]; rfl
  | cons b l ih =>
    rw [hbmPut, ih]
    by_cases hq : q = k
    · subst hq
      have h1 : ¬ (q + 1 ≤ q ∧ q < q + 1 + l.length) := by omega
      simp [h1]
    · by_cases hr : k + 1 ≤ q ∧ q < k + 1 + l.length
      · have h2 : k ≤ q ∧ q < k + (b :: l).length := by simp; omega
        have h3 : q - k = (q - (k + 1)) + 1 := by omega
        rw [if_pos hr, if_pos h2, h3]; simp
      · have h2 : ¬ (k ≤ q ∧ q < k + (b :: l).length) := by simp; omega
        rw [if_neg hr, if_neg h2, SMap.get_set_ne _ _ _ _ _ _ hq]

end Sys2Proof.Machine
end

