-- ==== Sys2Proof/Laws/Keeps.lean ====
section
/-! SUPPORT. What an effect may change: the relation `Keeps F s t` says that `t` comes from `s` with the queue and the
order code unchanged, every part of the state outside the frame `F` unchanged, and the canonical form kept. One lemma
for each function of the model that makes a state stands in the files beside this one; a caller's lemma cites its
callees' and unfolds none of them. -/

namespace Sys2Proof.Machine

/-- The parts of the state that an effect may change. -/
structure Frame where
  regs : Prop
  rack : Prop
  boot : Prop
  img : Prop
  core : Prop
  slc : Prop
  hbm : Prop
  net : Prop
  que : Prop
  prt : Prop
  xlt : Prop
  host : Prop
  recs : Prop
  out : Prop

/-- `t` comes from `s` by an effect within the frame `F`. -/
structure Keeps (F : Frame) (s t : State) : Prop where
  pending : t.pending = s.pending
  orderCode : t.orderCode = s.orderCode
  regs : ¬ F.regs → t.regs = s.regs
  rack : ¬ F.rack → t.rack = s.rack
  boot : ¬ F.boot → t.boot = s.boot
  img : ¬ F.img → t.img = s.img
  core : ¬ F.core → t.core = s.core
  slc : ¬ F.slc → t.slc = s.slc
  hbm : ¬ F.hbm → t.slc.hbm = s.slc.hbm
  net : ¬ F.net → t.net = s.net
  que : ¬ F.que → t.que = s.que
  prt : ¬ F.prt → t.prt = s.prt
  xlt : ¬ F.xlt → t.xlt = s.xlt
  host : ¬ F.host → t.host = s.host
  recs : ¬ F.recs → t.recs = s.recs
  out : ¬ F.out → t.out = s.out
  canonical : Canonical s → Canonical t

theorem Keeps.refl (F : Frame) (s : State) : Keeps F s s := by
  constructor <;> intros <;> first | rfl | assumption

/-- An optional state, a state beside a value, and both. -/
structure KeepsO (F : Frame) (s : State) (x : Option State) : Prop where
  of : ∀ {t}, x = some t → Keeps F s t
structure KeepsP {α : Type} (F : Frame) (s : State) (x : α × State) : Prop where
  snd : Keeps F s x.2
structure KeepsQ {α β : Type} (F : Frame) (s : State) (x : α × β × State) : Prop where
  snd : Keeps F s x.2.2
structure KeepsOP {α : Type} (F : Frame) (s : State) (x : Option (α × State)) : Prop where
  of : ∀ {a t}, x = some (a, t) → Keeps F s t

variable {F : Frame} {s₀ s : State}

theorem KeepsO.none : KeepsO F s₀ none := ⟨fun h => by cases h⟩
theorem KeepsO.some (h : Keeps F s₀ s) : KeepsO F s₀ (some s) := ⟨fun e => by cases e; exact h⟩
theorem KeepsOP.none {α : Type} : KeepsOP (α := α) F s₀ none := ⟨fun h => by cases h⟩
theorem KeepsOP.some {α : Type} {a : α} (h : Keeps F s₀ s) : KeepsOP F s₀ (some (a, s)) :=
  ⟨fun e => by cases e; exact h⟩
theorem KeepsOP.pair {α : Type} {x : Option (α × State)} {r : α × State} (h : KeepsOP F s₀ x) (e : x = .some r) :
    KeepsP F s₀ r := ⟨h.of (a := r.1) e⟩
theorem KeepsP.mk' {α : Type} {a : α} (h : Keeps F s₀ s) : KeepsP F s₀ (a, s) := ⟨h⟩
theorem KeepsP.eta {α : Type} {x : α × State} (h : KeepsP F s₀ x) : KeepsP F s₀ (x.1, x.2) := h
theorem KeepsP.of {α : Type} {x : α × State} {a : α} {t : State} (h : KeepsP F s₀ x) (e : x = (a, t)) : Keeps F s₀ t := by
  subst e; exact h.snd
theorem KeepsQ.mk' {α β : Type} {a : α} {b : β} (h : Keeps F s₀ s) : KeepsQ F s₀ (a, b, s) := ⟨h⟩
theorem KeepsQ.eta {α β : Type} {x : α × β × State} (h : KeepsQ F s₀ x) : KeepsQ F s₀ (x.1, x.2.1, x.2.2) := h
theorem KeepsQ.toP {α β : Type} {x : α × β × State} (h : KeepsQ F s₀ x) : KeepsP F s₀ x.2 := ⟨h.snd⟩
theorem KeepsQ.of {α β : Type} {x : α × β × State} {a : α} {b : β} {t : State} (h : KeepsQ F s₀ x) (e : x = (a, b, t)) :
    Keeps F s₀ t := by subst e; exact h.snd

/-! Optional results mapped and bound: a state or a pair from a state, a pair or a value. -/

theorem keepsO_map {x : Option State} {g : State → State} (h : KeepsO F s₀ x) (hg : ∀ t, Keeps F s₀ t → Keeps F s₀ (g t)) :
    KeepsO F s₀ (x.map g) := by
  cases x with
  | none => exact .none
  | some u => exact .some (hg u (h.of rfl))
theorem keeps_getD {x : Option State} {d : State} (h : KeepsO F s₀ x) (hd : Keeps F s₀ d) : Keeps F s₀ (x.getD d) := by
  cases x with
  | none => exact hd
  | some u => exact h.of rfl
theorem keepsP_getD {α : Type} {x : Option (α × State)} {d : α × State} (h : KeepsOP F s₀ x) (hd : KeepsP F s₀ d) :
    KeepsP F s₀ (x.getD d) := by
  cases x with
  | none => exact hd
  | some u => exact ⟨h.of rfl⟩
theorem keepsO_mapP {α : Type} {x : Option (α × State)} {g : α × State → State} (h : KeepsOP F s₀ x)
    (hg : ∀ r, Keeps F s₀ r.2 → Keeps F s₀ (g r)) : KeepsO F s₀ (x.map g) := by
  cases x with
  | none => exact .none
  | some u => exact .some (hg u (h.of rfl))
theorem keepsO_mapA {α : Type} {x : Option α} {g : α → State} (hg : ∀ a, Keeps F s₀ (g a)) : KeepsO F s₀ (x.map g) := by
  cases x with
  | none => exact .none
  | some u => exact .some (hg u)
theorem keepsOP_map {β : Type} {x : Option State} {g : State → β × State} (h : KeepsO F s₀ x)
    (hg : ∀ t, Keeps F s₀ t → KeepsP F s₀ (g t)) : KeepsOP F s₀ (x.map g) := by
  cases x with
  | none => exact .none
  | some u => exact .some (hg u (h.of rfl)).snd
theorem keepsOP_mapP {α β : Type} {x : Option (α × State)} {g : α × State → β × State} (h : KeepsOP F s₀ x)
    (hg : ∀ r, Keeps F s₀ r.2 → KeepsP F s₀ (g r)) : KeepsOP F s₀ (x.map g) := by
  cases x with
  | none => exact .none
  | some u => exact .some (hg u (h.of rfl)).snd
theorem keepsOP_mapA {α β : Type} {x : Option α} {g : α → β × State} (hg : ∀ a, KeepsP F s₀ (g a)) :
    KeepsOP F s₀ (x.map g) := by
  cases x with
  | none => exact .none
  | some u => exact .some (hg u).snd
theorem keepsO_bind {x : Option State} {g : State → Option State} (h : KeepsO F s₀ x)
    (hg : ∀ t, Keeps F s₀ t → KeepsO F s₀ (g t)) : KeepsO F s₀ (x.bind g) := by
  cases x with
  | none => exact .none
  | some u => exact hg u (h.of rfl)
theorem keepsO_bindP {α : Type} {x : Option (α × State)} {g : α × State → Option State} (h : KeepsOP F s₀ x)
    (hg : ∀ r, Keeps F s₀ r.2 → KeepsO F s₀ (g r)) : KeepsO F s₀ (x.bind g) := by
  cases x with
  | none => exact .none
  | some u => exact hg u (h.of rfl)
theorem keepsO_bindA {α : Type} {x : Option α} {g : α → Option State} (hg : ∀ a, KeepsO F s₀ (g a)) :
    KeepsO F s₀ (x.bind g) := by
  cases x with
  | none => exact .none
  | some u => exact hg u
theorem keepsOP_bind {β : Type} {x : Option State} {g : State → Option (β × State)} (h : KeepsO F s₀ x)
    (hg : ∀ t, Keeps F s₀ t → KeepsOP F s₀ (g t)) : KeepsOP F s₀ (x.bind g) := by
  cases x with
  | none => exact .none
  | some u => exact hg u (h.of rfl)
theorem keepsOP_bindP {α β : Type} {x : Option (α × State)} {g : α × State → Option (β × State)} (h : KeepsOP F s₀ x)
    (hg : ∀ r, Keeps F s₀ r.2 → KeepsOP F s₀ (g r)) : KeepsOP F s₀ (x.bind g) := by
  cases x with
  | none => exact .none
  | some u => exact hg u (h.of rfl)
theorem keepsOP_bindA {α β : Type} {x : Option α} {g : α → Option (β × State)} (hg : ∀ a, KeepsOP F s₀ (g a)) :
    KeepsOP F s₀ (x.bind g) := by
  cases x with
  | none => exact .none
  | some u => exact hg u

theorem keeps_ite {c : Prop} [Decidable c] {a b : State} (ha : c → Keeps F s₀ a) (hb : ¬ c → Keeps F s₀ b) :
    Keeps F s₀ (if c then a else b) := by split <;> simp_all
theorem keepsO_ite {c : Prop} [Decidable c] {a b : Option State} (ha : c → KeepsO F s₀ a) (hb : ¬ c → KeepsO F s₀ b) :
    KeepsO F s₀ (if c then a else b) := by split <;> simp_all
theorem keepsP_ite {α : Type} {c : Prop} [Decidable c] {a b : α × State} (ha : c → KeepsP F s₀ a)
    (hb : ¬ c → KeepsP F s₀ b) : KeepsP F s₀ (if c then a else b) := by split <;> simp_all
theorem keepsQ_ite {α β : Type} {c : Prop} [Decidable c] {a b : α × β × State} (ha : c → KeepsQ F s₀ a)
    (hb : ¬ c → KeepsQ F s₀ b) : KeepsQ F s₀ (if c then a else b) := by split <;> simp_all
theorem keepsOP_ite {α : Type} {c : Prop} [Decidable c] {a b : Option (α × State)} (ha : c → KeepsOP F s₀ a)
    (hb : ¬ c → KeepsOP F s₀ b) : KeepsOP F s₀ (if c then a else b) := by split <;> simp_all

/-- A record update that leaves the queue, the order code and the registers as they were, and HBM and the rings in their
canonical form. -/
theorem keeps_mk {fc : Nat} {ra : Rack} {bo : Boot} {im : Imgs} {co : Cores} {sl : Slices} {ne : Links} {qu : Queues}
    {pr : Parts} {xl : Xlt} {ho : HostSt} {re : Recs} {ou : Outs} (h : Keeps F s₀ s)
    (h1 : F.rack ∨ ra = s.rack) (h2 : F.boot ∨ bo = s.boot) (h3 : F.img ∨ im = s.img) (h4 : F.core ∨ co = s.core)
    (h5 : F.slc ∨ sl = s.slc) (h6 : F.hbm ∨ sl.hbm = s.slc.hbm)
    (w6 : Memory.wf s.slc.hbm = true → Memory.wf sl.hbm = true) (h7 : F.net ∨ ne = s.net) (h8 : F.que ∨ qu = s.que)
    (h9 : F.prt ∨ pr = s.prt) (h10 : F.xlt ∨ xl = s.xlt) (h11 : F.host ∨ ho = s.host) (h12 : F.recs ∨ re = s.recs)
    (h13 : SMap.wf 0 s.recs.ring = true → SMap.wf 0 re.ring = true) (h14 : F.out ∨ ou = s.out) :
    Keeps F s₀ ⟨s.pending, s.orderCode, s.regs, fc, ra, bo, im, co, sl, ne, qu, pr, xl, ho, re, ou⟩ := by
  have two {P : Prop} {α : Type} {a b c : α} (h : ¬ P → b = c) (e : P ∨ a = b) (n : ¬ P) : a = c := by
    rcases e with e | e
    · exact absurd e n
    · rw [e]; exact h n
  exact {
    pending := h.pending
    orderCode := h.orderCode
    regs := h.regs
    rack := two h.rack h1
    boot := two h.boot h2
    img := two h.img h3
    core := two h.core h4
    slc := two h.slc h5
    hbm := two h.hbm h6
    net := two h.net h7
    que := two h.que h8
    prt := two h.prt h9
    xlt := two h.xlt h10
    host := two h.host h11
    recs := two h.recs h12
    out := two h.out h14
    canonical := by
      intro hc
      obtain ⟨a, b, c⟩ := h.canonical hc
      exact ⟨a, w6 b, h13 c⟩ }

theorem ring_wf_id {m : SMap Byte} : SMap.wf 0 m = true → SMap.wf 0 m = true := id
theorem Memory.wf_id {m : List Host.Cell} : Memory.wf m = true → Memory.wf m = true := id

/-- The trivial update; it tells a state that is written out from one that is not. -/
theorem keeps_eta (h : Keeps F s₀ s) :
    Keeps F s₀ ⟨s.pending, s.orderCode, s.regs, s.freeCtr, s.rack, s.boot, s.img, s.core, s.slc, s.net, s.que, s.prt,
      s.xlt, s.host, s.recs, s.out⟩ := h

/-! ### The operations of Ops -/

theorem keeps_regs (hregs : F.regs) {rg : SMap Nat} (hr : SMap.rising s.regs = true → SMap.rising rg = true)
    (h : Keeps F s₀ s) : Keeps F s₀ { s with regs := rg } where
  pending := h.pending
  orderCode := h.orderCode
  regs n := absurd hregs n
  rack := h.rack
  boot := h.boot
  img := h.img
  core := h.core
  slc := h.slc
  hbm := h.hbm
  net := h.net
  que := h.que
  prt := h.prt
  xlt := h.xlt
  host := h.host
  recs := h.recs
  out := h.out
  canonical hc := ⟨hr (h.canonical hc).1, (h.canonical hc).2⟩

theorem State.wr_keeps (hregs : F.regs) (d : Nat) (f : Fld) (v : Nat) (h : Keeps F s₀ s) : Keeps F s₀ (s.wr d f v) :=
  keeps_regs hregs (SMap.rising_set _ _ _ _) h

theorem State.resetRegs_keeps (hregs : F.regs) (d lo hi : Nat) (h : Keeps F s₀ s) : Keeps F s₀ (s.resetRegs d lo hi) :=
  keeps_regs hregs (SMap.rising_clearRange _ _ _) h

theorem State.count_keeps (hregs : F.regs) (d : Nat) (f : Fld) (n : Nat) (h : Keeps F s₀ s) :
    Keeps F s₀ (s.count d f n) := State.wr_keeps hregs _ _ _ h

theorem State.peak_keeps (hregs : F.regs) (d : Nat) (f : Fld) (n : Nat) (h : Keeps F s₀ s) :
    Keeps F s₀ (s.peak d f n) := keeps_ite (fun _ => State.wr_keeps hregs _ _ _ h) (fun _ => h)

theorem State.wrBit_keeps (hregs : F.regs) (d : Nat) (f : Fld) (i : Nat) (b : Bool) (h : Keeps F s₀ s) :
    Keeps F s₀ (s.wrBit d f i b) := State.wr_keeps hregs _ _ _ h

theorem guarded_keeps {c : State → Bool} {f : State → State} (hf : ∀ s, Keeps F s₀ s → Keeps F s₀ (f s))
    (h : Keeps F s₀ s) : Keeps F s₀ (guarded c f s) := keeps_ite (fun _ => hf _ h) (fun _ => h)

theorem foldl_keeps {α : Type} {f : State → α → State} (hf : ∀ s x, Keeps F s₀ s → Keeps F s₀ (f s x)) (l : List α)
    (h : Keeps F s₀ s) : Keeps F s₀ (l.foldl f s) := by
  induction l generalizing s with
  | nil => exact h
  | cons x l ih => exact ih (hf _ _ h)

theorem each_keeps {α : Type} {l : List α} {f : State → α → State} (hf : ∀ s x, Keeps F s₀ s → Keeps F s₀ (f s x))
    (h : Keeps F s₀ s) : Keeps F s₀ (each l f s) := foldl_keeps hf l h

theorem keepsP_foldl {α β : Type} {f : β × State → α → β × State} (hf : ∀ r x, KeepsP F s₀ r → KeepsP F s₀ (f r x))
    {l : List α} {r : β × State} (h : KeepsP F s₀ r) : KeepsP F s₀ (l.foldl f r) := by
  induction l generalizing r with
  | nil => exact h
  | cons x l ih => exact ih (hf _ _ h)

theorem keepsQ_foldl {α β γ : Type} {f : β × γ × State → α → β × γ × State}
    (hf : ∀ r x, KeepsQ F s₀ r → KeepsQ F s₀ (f r x)) {l : List α} {r : β × γ × State} (h : KeepsQ F s₀ r) :
    KeepsQ F s₀ (l.foldl f r) := by
  induction l generalizing r with
  | nil => exact h
  | cons x l ih => exact ih (hf _ _ h)

theorem State.free_keeps (h : Keeps F s₀ s) : KeepsP F s₀ s.free :=
  KeepsP.mk' <| keeps_mk h (.inr rfl) (.inr rfl) (.inr rfl) (.inr rfl) (.inr rfl) (.inr rfl) id (.inr rfl) (.inr rfl) (.inr rfl)
    (.inr rfl) (.inr rfl) (.inr rfl) id (.inr rfl)

theorem setPartState_keeps (hregs : F.regs) (p st : Nat) (h : Keeps F s₀ s) : Keeps F s₀ (setPartState p st s) :=
  each_keeps (fun _ _ h => State.wr_keeps hregs _ _ _ h) h

theorem setInstState_keeps (hregs : F.regs) (p i st : Nat) (h : Keeps F s₀ s) : Keeps F s₀ (setInstState p i st s) :=
  each_keeps (fun _ _ h => State.wr_keeps hregs _ _ _ h) h

/-! ### The outcome of a command -/

structure KeepsX (F : Frame) (s : State) (x : Host.Outcome State Fault Refusal) : Prop where
  of : ∀ {t}, x = .next t → Keeps F s t

theorem KeepsX.next (h : Keeps F s₀ s) : KeepsX F s₀ (.next s) := ⟨fun e => by cases e; exact h⟩
theorem KeepsX.fault {r : Fault} : KeepsX F s₀ (.fault r) := ⟨fun e => by cases e⟩
theorem KeepsX.refused {r : Refusal} : KeepsX F s₀ (.refused r) := ⟨fun e => by cases e⟩

/-- What `onDie` answers is its effect. -/
theorem onDie_keeps {d : Nat} {f : State → State} (h : Keeps F s₀ (f s)) : KeepsX F s₀ (onDie s d f) := by
  unfold onDie
  split
  · exact .next h
  · exact .fault

end Sys2Proof.Machine
end

