-- ==== Sys2Proof/Laws/KeepsRecorder.lean ====
section
/-! SUPPORT. What each effect of Machine/Recorder.lean may change (see Laws/Keeps.lean). -/

namespace Sys2Proof.Machine

variable {F : Frame} {s₀ s : State}

theorem emit_keeps (hrecs : F.recs) (d unit typ cls : Nat) (sealed_ : Bool) (payload : List PF) (h : Keeps F s₀ s) :
    Keeps F s₀ (emit d unit typ cls sealed_ payload s) := by
  unfold emit
  try dsimp only
  with_reducible repeat' first
    | assumption | exact ring_wf_id | exact Memory.wf_id | intro _
    | ((fail_if_success (apply keeps_eta)); apply keeps_mk) | exact Or.inl (by assumption) | exact Or.inr rfl

theorem correctableAs_keeps (hrecs : F.recs) (d unit kind code index : Nat) (h : Keeps F s₀ s) :
    Keeps F s₀ (correctableAs d unit kind code index s) := by
  unfold correctableAs
  try dsimp only
  repeat' first
    | with_reducible first
      | assumption | exact ring_wf_id | exact Memory.wf_id | intro _ | apply emit_keeps
      | ((fail_if_success (apply keeps_eta)); apply keeps_mk) | exact Or.inl (by assumption) | exact Or.inr rfl
      | apply keeps_ite
    | split

theorem correctable_keeps (hrecs : F.recs) (d unit kind index : Nat) (h : Keeps F s₀ s) :
    Keeps F s₀ (correctable d unit kind index s) := by
  unfold correctable
  try dsimp only
  with_reducible repeat' first
    | assumption | intro _ | apply correctableAs_keeps

theorem recDrop_keeps (hregs : F.regs) (hrecs : F.recs) (d seq : Nat) (h : Keeps F s₀ s) :
    Keeps F s₀ (recDrop d seq s) := by
  unfold recDrop
  try dsimp only
  repeat' first
    | with_reducible first
      | assumption | exact ring_wf_id | exact Memory.wf_id | intro _ | apply State.count_keeps
      | ((fail_if_success (apply keeps_eta)); apply keeps_mk) | exact Or.inl (by assumption) | exact Or.inr rfl
    | split

theorem acceptRecord_keeps (hregs : F.regs) (hrecs : F.recs) (d : Nat) (h : Keeps F s₀ s) :
    Keeps F s₀ (acceptRecord d s) := by
  unfold acceptRecord
  try dsimp only
  repeat' first
    | with_reducible first
      | assumption | exact ring_wf_id | exact Memory.wf_id | intro _ | apply State.wr_keeps | apply recDrop_keeps
      | ((fail_if_success (apply keeps_eta)); apply keeps_mk) | exact Or.inl (by assumption) | exact Or.inr rfl
      | apply keeps_ite
    | split

theorem drainRecord_keeps (hregs : F.regs) (hrecs : F.recs) (d : Nat) (h : Keeps F s₀ s) :
    Keeps F s₀ (drainRecord d s) := by
  unfold drainRecord
  try dsimp only
  repeat' first
    | with_reducible first
      | assumption | exact ring_wf_id | exact Memory.wf_id | exact ring_wf_put _ _ _ _ _
      | exact SMap.wf_clearRange _ _ _ _ | exact Memory.wf_filter _ _ | intro _ | apply State.count_keeps
      | apply State.wr_keeps | apply emit_keeps | ((fail_if_success (apply keeps_eta)); apply keeps_mk)
      | exact Or.inl (by assumption) | exact Or.inr rfl | apply keeps_ite
    | split

theorem times_keeps (x1 : Nat) (x2 : State → State) (h_x2 : ∀ u_, Keeps F s₀ u_ → Keeps F s₀ (x2 u_))
    (h : Keeps F s₀ s) :
    Keeps F s₀ (times x1 x2 s) := by
  induction x1 generalizing s with
  | zero =>
    unfold times
    try dsimp only
    repeat' first
      | with_reducible first
        | assumption
      | split
  | succ n_ ih =>
    unfold times
    try dsimp only
    repeat' first
      | with_reducible first
        | assumption | intro _ | apply h_x2 | apply ih
      | split

theorem drainAll_keeps (hregs : F.regs) (hrecs : F.recs) (d : Nat) (h : Keeps F s₀ s) :
    Keeps F s₀ (drainAll d s) := by
  unfold drainAll
  try dsimp only
  with_reducible repeat' first
    | assumption | intro _ | apply times_keeps | apply acceptRecord_keeps | apply drainRecord_keeps

theorem loseStaging_keeps (hrecs : F.recs) (d : Nat) (h : Keeps F s₀ s) :
    Keeps F s₀ (loseStaging d s) := by
  unfold loseStaging
  try dsimp only
  with_reducible repeat' first
    | assumption | exact ring_wf_id | exact Memory.wf_id | intro _
    | ((fail_if_success (apply keeps_eta)); apply keeps_mk) | exact Or.inl (by assumption) | exact Or.inr rfl

theorem rackPut_keeps (hrecs : F.recs) (b : List Byte) (h : Keeps F s₀ s) :
    Keeps F s₀ (rackPut b s) := by
  unfold rackPut
  try dsimp only
  with_reducible repeat' first
    | assumption | exact ring_wf_id | exact Memory.wf_id | exact ring_wf_put _ _ _ _ _
    | exact SMap.wf_clearRange _ _ _ _ | exact Memory.wf_filter _ _ | intro _
    | ((fail_if_success (apply keeps_eta)); apply keeps_mk) | exact Or.inl (by assumption) | exact Or.inr rfl

theorem rackEmit_keeps (hrecs : F.recs) (source typ cls : Nat) (sealed_ : Bool) (payload : List PF) (h : Keeps F s₀ s)
    :
    Keeps F s₀ (rackEmit source typ cls sealed_ payload s) := by
  unfold rackEmit
  try dsimp only
  with_reducible repeat' first
    | assumption | exact ring_wf_id | exact Memory.wf_id | intro _ | apply rackPut_keeps
    | ((fail_if_success (apply keeps_eta)); apply keeps_mk) | exact Or.inl (by assumption) | exact Or.inr rfl

theorem setCopied_keeps (hrecs : F.recs) (d off : Nat) (h : Keeps F s₀ s) :
    Keeps F s₀ (setCopied d off s) := by
  unfold setCopied
  try dsimp only
  with_reducible repeat' first
    | assumption | exact ring_wf_id | exact Memory.wf_id | intro _
    | ((fail_if_success (apply keeps_eta)); apply keeps_mk) | exact Or.inl (by assumption) | exact Or.inr rfl

theorem copyRecords_keeps (hrecs : F.recs) (d x2 : Nat) (h : Keeps F s₀ s) :
    Keeps F s₀ (copyRecords d x2 s) := by
  induction x2 generalizing d s with
  | zero =>
    unfold copyRecords
    try dsimp only
    repeat' first
      | with_reducible first
        | assumption
      | split
  | succ n_ ih =>
    unfold copyRecords
    try dsimp only
    repeat' first
      | with_reducible first
        | assumption | intro _ | apply setCopied_keeps | apply rackPut_keeps | apply ih | apply keeps_ite
      | split

theorem rmCopyRing_keeps (hrecs : F.recs) (d : Nat) (h : Keeps F s₀ s) :
    Keeps F s₀ (rmCopyRing d s) := by
  unfold rmCopyRing
  try dsimp only
  with_reducible repeat' first
    | assumption | intro _ | apply copyRecords_keeps

theorem execRecordAccept_keeps (hregs : F.regs) (hrecs : F.recs) (d : Nat) (h : Keeps F s₀ s) :
    KeepsX F s₀ (execRecordAccept d s) := by
  unfold execRecordAccept
  try dsimp only
  with_reducible repeat' first
    | assumption | intro _ | apply onDie_keeps | apply guarded_keeps | apply acceptRecord_keeps

theorem execRecordDrain_keeps (hregs : F.regs) (hrecs : F.recs) (d : Nat) (h : Keeps F s₀ s) :
    KeepsX F s₀ (execRecordDrain d s) := by
  unfold execRecordDrain
  try dsimp only
  with_reducible repeat' first
    | assumption | intro _ | apply onDie_keeps | apply guarded_keeps | apply drainRecord_keeps

theorem recTest_keeps (hregs : F.regs) (hrecs : F.recs) (d : Nat) (v : BitVec 32) (h : Keeps F s₀ s) :
    Keeps F s₀ (recTest d v s) := by
  unfold recTest
  try dsimp only
  with_reducible repeat' first
    | assumption | intro _ | apply emit_keeps | apply State.wr_keeps

theorem execRecTest_keeps (hregs : F.regs) (hrecs : F.recs) (d : Nat) (_src : Source) (v : BitVec 32)
    (h : Keeps F s₀ s) :
    KeepsX F s₀ (execRecTest d _src v s) := by
  unfold execRecTest
  try dsimp only
  with_reducible repeat' first
    | assumption | intro _ | apply onDie_keeps | apply guarded_keeps | apply recTest_keeps

theorem recFailClearClusters_keeps (hregs : F.regs) (d : Nat) (h : Keeps F s₀ s) :
    Keeps F s₀ (recFailClearClusters d s) := by
  unfold recFailClearClusters
  try dsimp only
  with_reducible repeat' first
    | assumption | intro _ | apply State.wr_keeps

theorem recFailClearChans_keeps (hregs : F.regs) (d : Nat) (h : Keeps F s₀ s) :
    Keeps F s₀ (recFailClearChans d s) := by
  unfold recFailClearChans
  try dsimp only
  with_reducible repeat' first
    | assumption | intro _ | apply State.wr_keeps

theorem recFailClearHalves_keeps (hregs : F.regs) (d : Nat) (h : Keeps F s₀ s) :
    Keeps F s₀ (recFailClearHalves d s) := by
  unfold recFailClearHalves
  try dsimp only
  with_reducible repeat' first
    | assumption | intro _ | apply State.wr_keeps

theorem execRecFailClearClusters_keeps (hregs : F.regs) (d : Nat) (_src : Source) (h : Keeps F s₀ s) :
    KeepsX F s₀ (execRecFailClearClusters d _src s) := by
  unfold execRecFailClearClusters
  try dsimp only
  with_reducible repeat' first
    | assumption | intro _ | apply onDie_keeps | apply recFailClearClusters_keeps

theorem execRecFailClearChans_keeps (hregs : F.regs) (d : Nat) (_src : Source) (h : Keeps F s₀ s) :
    KeepsX F s₀ (execRecFailClearChans d _src s) := by
  unfold execRecFailClearChans
  try dsimp only
  with_reducible repeat' first
    | assumption | intro _ | apply onDie_keeps | apply recFailClearChans_keeps

theorem execRecFailClearHalves_keeps (hregs : F.regs) (d : Nat) (_src : Source) (h : Keeps F s₀ s) :
    KeepsX F s₀ (execRecFailClearHalves d _src s) := by
  unfold execRecFailClearHalves
  try dsimp only
  with_reducible repeat' first
    | assumption | intro _ | apply onDie_keeps | apply recFailClearHalves_keeps

theorem stagingSramError_keeps (hregs : F.regs) (hrecs : F.recs) (d i : Nat) (h : Keeps F s₀ s) :
    Keeps F s₀ (stagingSramError d i s) := by
  unfold stagingSramError
  try dsimp only
  with_reducible repeat' first
    | assumption | exact ring_wf_id | exact Memory.wf_id | intro _ | apply State.count_keeps
    | ((fail_if_success (apply keeps_eta)); apply keeps_mk) | exact Or.inl (by assumption) | exact Or.inr rfl
    | apply keeps_ite

theorem execStagingSramError_keeps (hregs : F.regs) (hrecs : F.recs) (d i : Nat) (h : Keeps F s₀ s) :
    KeepsX F s₀ (execStagingSramError d i s) := by
  unfold execStagingSramError
  try dsimp only
  with_reducible repeat' first
    | assumption | intro _ | apply onDie_keeps | apply guarded_keeps | apply stagingSramError_keeps

end Sys2Proof.Machine
end

