-- ==== Sys2Proof/Laws/KeepsSlices.lean ====
section
/-! SUPPORT. What each effect of Machine/Slices.lean may change (see Laws/Keeps.lean). -/

namespace Sys2Proof.Machine

variable {F : Frame} {s₀ s : State}

theorem hbmWrite_keeps (hslc : F.slc) (hhbm : F.hbm) (pa : Nat) (v : SectorData) (poison : Bool) (h : Keeps F s₀ s) :
    Keeps F s₀ (hbmWrite pa v poison s) := by
  unfold hbmWrite
  try dsimp only
  with_reducible repeat' first
    | assumption | exact ring_wf_id | exact Memory.wf_id | exact Memory.wf_put _ _ _ | intro _
    | ((fail_if_success (apply keeps_eta)); apply keeps_mk) | exact Or.inl (by assumption) | exact Or.inr rfl

theorem putLine_keeps (hslc : F.slc) (l : Line) (h : Keeps F s₀ s) :
    Keeps F s₀ (putLine l s) := by
  unfold putLine
  try dsimp only
  with_reducible repeat' first
    | assumption | exact ring_wf_id | exact Memory.wf_id | intro _
    | ((fail_if_success (apply keeps_eta)); apply keeps_mk) | exact Or.inl (by assumption) | exact Or.inr rfl

theorem putPut_keeps (hslc : F.slc) (l : Line) (h : Keeps F s₀ s) :
    Keeps F s₀ (putPut l s) := by
  unfold putPut
  try dsimp only
  with_reducible repeat' first
    | assumption | exact ring_wf_id | exact Memory.wf_id | intro _
    | ((fail_if_success (apply keeps_eta)); apply keeps_mk) | exact Or.inl (by assumption) | exact Or.inr rfl

theorem dropPut_keeps (hslc : F.slc) (l : Line) (h : Keeps F s₀ s) :
    Keeps F s₀ (dropPut l s) := by
  unfold dropPut
  try dsimp only
  with_reducible repeat' first
    | assumption | exact ring_wf_id | exact Memory.wf_id | intro _
    | ((fail_if_success (apply keeps_eta)); apply keeps_mk) | exact Or.inl (by assumption) | exact Or.inr rfl

theorem dropLine_keeps (hslc : F.slc) (l : Line) (h : Keeps F s₀ s) :
    Keeps F s₀ (dropLine l s) := by
  unfold dropLine
  try dsimp only
  with_reducible repeat' first
    | assumption | exact ring_wf_id | exact Memory.wf_id | intro _
    | ((fail_if_success (apply keeps_eta)); apply keeps_mk) | exact Or.inl (by assumption) | exact Or.inr rfl

theorem touchLine_keeps (hslc : F.slc) (l : Line) (h : Keeps F s₀ s) :
    Keeps F s₀ (touchLine l s) := by
  unfold touchLine
  try dsimp only
  with_reducible repeat' first
    | assumption | exact ring_wf_id | exact Memory.wf_id | intro _
    | ((fail_if_success (apply keeps_eta)); apply keeps_mk) | exact Or.inl (by assumption) | exact Or.inr rfl

theorem writeBackFrom_keeps (hslc : F.slc) (hhbm : F.hbm) (l : Line) (x2 : Nat) (x3 : List Sector) (h : Keeps F s₀ s)
    :
    Keeps F s₀ (writeBackFrom l x2 x3 s) := by
  induction x3 generalizing l x2 s with
  | nil =>
    unfold writeBackFrom
    try dsimp only
    repeat' first
      | with_reducible first
        | assumption
      | split
  | cons x_ l_ ih =>
    unfold writeBackFrom
    try dsimp only
    repeat' first
      | with_reducible first
        | assumption | intro _ | apply hbmWrite_keeps | apply ih | apply keeps_ite
      | split

theorem writeBack_keeps (hslc : F.slc) (hhbm : F.hbm) (l : Line) (h : Keeps F s₀ s) :
    Keeps F s₀ (writeBack l s) := by
  unfold writeBack
  try dsimp only
  with_reducible repeat' first
    | assumption | intro _ | apply writeBackFrom_keeps

theorem routeFill_keeps (hregs : F.regs) (hxlt : F.xlt) (part src dst : Nat) (h : Keeps F s₀ s) :
    Keeps F s₀ (routeFill part src dst s) := by
  unfold routeFill
  try dsimp only
  repeat' first
    | with_reducible first
      | assumption | exact ring_wf_id | exact Memory.wf_id | intro _ | apply State.count_keeps
      | ((fail_if_success (apply keeps_eta)); apply keeps_mk) | exact Or.inl (by assumption) | exact Or.inr rfl
      | apply keeps_ite
    | split

theorem sendMsg_keeps (hregs : F.regs) (hslc : F.slc) (hxlt : F.xlt) (t : CohT) (m : CohMsg) (h : Keeps F s₀ s) :
    Keeps F s₀ (sendMsg t m s) := by
  unfold sendMsg
  try dsimp only
  with_reducible repeat' first
    | assumption | exact ring_wf_id | exact Memory.wf_id | intro _ | apply routeFill_keeps
    | ((fail_if_success (apply keeps_eta)); apply keeps_mk) | exact Or.inl (by assumption) | exact Or.inr rfl

theorem sendReq_keeps (hregs : F.regs) (hslc : F.slc) (hxlt : F.xlt) (t : CohT) (m : CohMsg) (h : Keeps F s₀ s) :
    Keeps F s₀ (sendReq t m s) := by
  unfold sendReq
  try dsimp only
  with_reducible repeat' first
    | assumption | exact ring_wf_id | exact Memory.wf_id | intro _ | apply sendMsg_keeps
    | ((fail_if_success (apply keeps_eta)); apply keeps_mk) | exact Or.inl (by assumption) | exact Or.inr rfl

theorem evictGuest_keeps (hregs : F.regs) (hslc : F.slc) (hxlt : F.xlt) (cls : Nat) (l : Line) (h : Keeps F s₀ s) :
    KeepsO F s₀ (evictGuest cls l s) := by
  unfold evictGuest
  try dsimp only
  repeat' first
    | with_reducible first
      | assumption | intro _ | apply sendReq_keeps | apply putPut_keeps | apply dropLine_keeps | apply keeps_ite
      | exact KeepsO.none | apply KeepsO.some | apply keepsO_ite | refine KeepsO.of ?_ (by assumption)
    | split

theorem evict_keeps (hregs : F.regs) (hslc : F.slc) (hhbm : F.hbm) (hxlt : F.xlt) (cls : Nat) (l : Line)
    (h : Keeps F s₀ s) :
    KeepsO F s₀ (evict cls l s) := by
  unfold evict
  try dsimp only
  with_reducible repeat' first
    | assumption | intro _ | apply dropLine_keeps | apply writeBack_keeps | apply evictGuest_keeps | apply keeps_ite
    | exact KeepsO.none | apply KeepsO.some | apply keepsO_ite

theorem allocWay_keeps (hregs : F.regs) (hslc : F.slc) (hhbm : F.hbm) (hxlt : F.xlt) (cls d n la : Nat)
    (guest stream : Bool) (st : CSt) (h : Keeps F s₀ s) :
    KeepsO F s₀ (allocWay cls d n la guest stream st s) := by
  unfold allocWay
  try dsimp only
  repeat' first
    | with_reducible first
      | assumption | intro _ | apply evict_keeps | apply putLine_keeps | apply touchLine_keeps | apply keeps_ite
      | exact KeepsOP.none | apply KeepsOP.some | apply keepsOP_ite | exact KeepsO.none | apply KeepsO.some
      | apply keepsO_ite | apply keepsO_map | apply keepsOP_map | apply keepsOP_mapP | apply keepsO_mapP
      | apply keepsO_mapA | apply keepsOP_mapA | apply KeepsP.snd
      | ((fail_if_success (apply KeepsP.eta)); apply KeepsP.mk') | apply keepsP_ite
      | refine KeepsOP.of ?_ (by assumption) | refine KeepsOP.pair ?_ (by assumption)
      | refine KeepsO.of ?_ (by assumption)
    | split

theorem noteHint_keeps (hslc : F.slc) (d n la hint : Nat) (h : Keeps F s₀ s) :
    Keeps F s₀ (noteHint d n la hint s) := by
  unfold noteHint
  try dsimp only
  with_reducible repeat' first
    | assumption | exact ring_wf_id | exact Memory.wf_id | intro _
    | ((fail_if_success (apply keeps_eta)); apply keeps_mk) | exact Or.inl (by assumption) | exact Or.inr rfl

theorem applyHint_keeps (hslc : F.slc) (d n la hint : Nat) (onFill : Bool) (h : Keeps F s₀ s) :
    Keeps F s₀ (applyHint d n la hint onFill s) := by
  unfold applyHint
  try dsimp only
  repeat' first
    | with_reducible first
      | assumption | intro _ | apply noteHint_keeps | apply touchLine_keeps | apply putLine_keeps | apply keeps_ite
    | split

theorem fetchFrom_keeps (hregs : F.regs) (hslc : F.slc) (d n la : Nat) (mask : BitVec 4) (x5 : Nat) (h : Keeps F s₀ s)
    :
    Keeps F s₀ (fetchFrom d n la mask x5 s) := by
  induction x5 generalizing d n la mask s with
  | zero =>
    unfold fetchFrom
    try dsimp only
    repeat' first
      | with_reducible first
        | assumption
      | split
  | succ n_ ih =>
    unfold fetchFrom
    try dsimp only
    repeat' first
      | with_reducible first
        | assumption | intro _ | apply putLine_keeps | apply State.count_keeps | apply ih | apply keeps_ite
      | split

theorem homeFill_keeps (hregs : F.regs) (hslc : F.slc) (hhbm : F.hbm) (hxlt : F.xlt) (cls d n la : Nat)
    (mask : BitVec 4) (hint : Nat) (h : Keeps F s₀ s) :
    KeepsO F s₀ (homeFill cls d n la mask hint s) := by
  unfold homeFill
  try dsimp only
  repeat' first
    | with_reducible first
      | assumption | intro _ | apply fetchFrom_keeps | apply applyHint_keeps | apply allocWay_keeps
      | exact KeepsOP.none | apply KeepsOP.some | exact KeepsO.none | apply KeepsO.some | apply keepsO_map
      | apply keepsOP_map | apply keepsOP_mapP | apply keepsO_mapP | apply keepsO_mapA | apply keepsOP_mapA
      | apply KeepsP.snd | ((fail_if_success (apply KeepsP.eta)); apply KeepsP.mk')
      | refine KeepsOP.of ?_ (by assumption) | refine KeepsOP.pair ?_ (by assumption)
      | refine KeepsO.of ?_ (by assumption)
    | split

theorem homeWrite_keeps (hslc : F.slc) (hhbm : F.hbm) (d n la : Nat) (dirty poison : BitVec 4) (x6 : Nat)
    (x7 : List SectorData) (h : Keeps F s₀ s) :
    Keeps F s₀ (homeWrite d n la dirty poison x6 x7 s) := by
  induction x7 generalizing d n la dirty poison x6 s with
  | nil =>
    unfold homeWrite
    try dsimp only
    repeat' first
      | with_reducible first
        | assumption
      | split
  | cons x_ l_ ih =>
    unfold homeWrite
    try dsimp only
    repeat' first
      | with_reducible first
        | assumption | intro _ | apply putLine_keeps | apply hbmWrite_keeps | apply ih | apply keeps_ite
      | split

theorem putDir_keeps (hslc : F.slc) (e : DirEnt) (h : Keeps F s₀ s) :
    Keeps F s₀ (putDir e s) := by
  unfold putDir
  try dsimp only
  with_reducible repeat' first
    | assumption | exact ring_wf_id | exact Memory.wf_id | intro _
    | ((fail_if_success (apply keeps_eta)); apply keeps_mk) | exact Or.inl (by assumption) | exact Or.inr rfl

theorem freeDir_keeps (hslc : F.slc) (e : DirEnt) (h : Keeps F s₀ s) :
    Keeps F s₀ (freeDir e s) := by
  unfold freeDir
  try dsimp only
  with_reducible repeat' first
    | assumption | exact ring_wf_id | exact Memory.wf_id | intro _
    | ((fail_if_success (apply keeps_eta)); apply keeps_mk) | exact Or.inl (by assumption) | exact Or.inr rfl

theorem touchDir_keeps (hslc : F.slc) (e : DirEnt) (h : Keeps F s₀ s) :
    Keeps F s₀ (touchDir e s) := by
  unfold touchDir
  try dsimp only
  with_reducible repeat' first
    | assumption | exact ring_wf_id | exact Memory.wf_id | intro _
    | ((fail_if_success (apply keeps_eta)); apply keeps_mk) | exact Or.inl (by assumption) | exact Or.inr rfl

theorem newEnt_keeps (hregs : F.regs) (hslc : F.slc) (d n la w : Nat) (st : DSt) (owner : Nat) (sharers : List Nat)
    (h : Keeps F s₀ s) :
    Keeps F s₀ (newEnt d n la w st owner sharers s) := by
  unfold newEnt
  try dsimp only
  with_reducible repeat' first
    | assumption | intro _ | apply touchDir_keeps | apply putDir_keeps | apply State.peak_keeps

theorem takeInv_keeps (hslc : F.slc) (c la : Nat) (h : Keeps F s₀ s) :
    KeepsO F s₀ (takeInv c la s) := by
  unfold takeInv
  try dsimp only
  repeat' first
    | with_reducible first
      | assumption | intro _ | apply dropLine_keeps | apply putLine_keeps | apply putPut_keeps | exact KeepsO.none
      | apply KeepsO.some | refine KeepsO.of ?_ (by assumption)
    | split

theorem takeInvs_keeps (hslc : F.slc) (x1 : List Nat) (x2 : Nat) (h : Keeps F s₀ s) :
    KeepsO F s₀ (takeInvs x1 x2 s) := by
  induction x1 generalizing x2 s with
  | nil =>
    unfold takeInvs
    try dsimp only
    repeat' first
      | with_reducible first
        | assumption | intro _ | apply takeInv_keeps | exact KeepsO.none | apply KeepsO.some
      | split
  | cons x_ l_ ih =>
    unfold takeInvs
    try dsimp only
    repeat' first
      | with_reducible first
        | assumption | intro _ | apply takeInv_keeps | apply ih | exact KeepsO.none | apply KeepsO.some
        | apply keepsO_bind
      | split

theorem takeFwdM_keeps (hslc : F.slc) (c la : Nat) (h : Keeps F s₀ s) :
    KeepsOP F s₀ (takeFwdM c la s) := by
  unfold takeFwdM
  try dsimp only
  repeat' first
    | with_reducible first
      | assumption | intro _ | apply dropLine_keeps | apply putLine_keeps | apply putPut_keeps | exact KeepsOP.none
      | apply KeepsOP.some | refine KeepsOP.of ?_ (by assumption) | refine KeepsOP.pair ?_ (by assumption)
    | split

theorem takeFwdS_keeps (hslc : F.slc) (c la : Nat) (toHome : Bool) (h : Keeps F s₀ s) :
    KeepsOP F s₀ (takeFwdS c la toHome s) := by
  unfold takeFwdS
  try dsimp only
  repeat' first
    | with_reducible first
      | assumption | intro _ | apply putLine_keeps | apply putPut_keeps | exact KeepsOP.none | apply KeepsOP.some
      | refine KeepsOP.of ?_ (by assumption) | refine KeepsOP.pair ?_ (by assumption)
    | split

theorem settleRecall_keeps (hregs : F.regs) (hslc : F.slc) (hhbm : F.hbm) (e : DirEnt) (h : Keeps F s₀ s) :
    KeepsO F s₀ (settleRecall e s) := by
  unfold settleRecall
  try dsimp only
  repeat' first
    | with_reducible first
      | assumption | intro _ | apply freeDir_keeps | apply takeInvs_keeps | apply takeFwdM_keeps
      | apply homeWrite_keeps | apply State.count_keeps | exact KeepsOP.none | apply KeepsOP.some | exact KeepsO.none
      | apply KeepsO.some | apply keepsO_map | apply keepsOP_map | apply keepsOP_mapP | apply keepsO_mapP
      | apply keepsO_mapA | apply keepsOP_mapA | apply keepsO_bind | apply keepsO_bindP | apply keepsOP_bind
      | apply keepsOP_bindP | apply keepsO_bindA | apply keepsOP_bindA | apply KeepsP.snd
      | ((fail_if_success (apply KeepsP.eta)); apply KeepsP.mk') | refine KeepsOP.of ?_ (by assumption)
      | refine KeepsOP.pair ?_ (by assumption) | refine KeepsO.of ?_ (by assumption)
    | split

theorem settleNewEnt_keeps (hregs : F.regs) (hslc : F.slc) (hhbm : F.hbm) (d n la : Nat) (st : DSt) (owner : Nat)
    (sharers : List Nat) (h : Keeps F s₀ s) :
    KeepsO F s₀ (settleNewEnt d n la st owner sharers s) := by
  unfold settleNewEnt
  try dsimp only
  repeat' first
    | with_reducible first
      | assumption | intro _ | apply newEnt_keeps | apply State.count_keeps | apply settleRecall_keeps
      | exact KeepsOP.none | apply KeepsOP.some | exact KeepsO.none | apply KeepsO.some | apply keepsO_map
      | apply keepsOP_map | apply keepsOP_mapP | apply keepsO_mapP | apply keepsO_mapA | apply keepsOP_mapA
      | apply KeepsP.snd | ((fail_if_success (apply KeepsP.eta)); apply KeepsP.mk')
      | refine KeepsOP.of ?_ (by assumption) | refine KeepsOP.pair ?_ (by assumption)
      | refine KeepsO.of ?_ (by assumption)
    | split

theorem settleHomeRead_keeps (hregs : F.regs) (hslc : F.slc) (hhbm : F.hbm) (d n la : Nat) (h : Keeps F s₀ s) :
    KeepsO F s₀ (settleHomeRead d n la s) := by
  unfold settleHomeRead
  try dsimp only
  repeat' first
    | with_reducible first
      | assumption | intro _ | apply homeWrite_keeps | apply State.count_keeps | apply putDir_keeps
      | apply takeFwdS_keeps | exact KeepsOP.none | apply KeepsOP.some | exact KeepsO.none | apply KeepsO.some
      | apply keepsO_map | apply keepsOP_map | apply keepsOP_mapP | apply keepsO_mapP | apply keepsO_mapA
      | apply keepsOP_mapA | apply KeepsP.snd | ((fail_if_success (apply KeepsP.eta)); apply KeepsP.mk')
      | refine KeepsOP.of ?_ (by assumption) | refine KeepsOP.pair ?_ (by assumption)
      | refine KeepsO.of ?_ (by assumption)
    | split

theorem settleHomeWrite_keeps (hregs : F.regs) (hslc : F.slc) (hhbm : F.hbm) (d n la : Nat) (h : Keeps F s₀ s) :
    KeepsO F s₀ (settleHomeWrite d n la s) := by
  unfold settleHomeWrite
  try dsimp only
  repeat' first
    | with_reducible first
      | assumption | intro _ | apply settleRecall_keeps | exact KeepsO.none | apply KeepsO.some
      | refine KeepsO.of ?_ (by assumption)
    | split

theorem memoryCopy_keeps (hregs : F.regs) (hslc : F.slc) (hhbm : F.hbm) (hxlt : F.xlt) (cls d n la : Nat)
    (mask : BitVec 4) (h : Keeps F s₀ s) :
    KeepsOP F s₀ (memoryCopy cls d n la mask s) := by
  unfold memoryCopy
  try dsimp only
  with_reducible repeat' first
    | assumption | intro _ | apply homeFill_keeps | apply keeps_ite | exact KeepsOP.none | apply KeepsOP.some
    | apply keepsOP_ite | exact KeepsO.none | apply KeepsO.some | apply keepsO_ite | apply keepsO_map
    | apply keepsOP_map | apply keepsOP_mapP | apply keepsO_mapP | apply keepsO_mapA | apply keepsOP_mapA
    | apply keepsO_bind | apply keepsO_bindP | apply keepsOP_bind | apply keepsOP_bindP | apply keepsO_bindA
    | apply keepsOP_bindA | apply KeepsP.snd | ((fail_if_success (apply KeepsP.eta)); apply KeepsP.mk')

theorem settleGetS_keeps (hregs : F.regs) (hslc : F.slc) (hhbm : F.hbm) (hxlt : F.xlt) (cls hd hn la r : Nat)
    (mask : BitVec 4) (plain : Bool) (h : Keeps F s₀ s) :
    KeepsOP F s₀ (settleGetS cls hd hn la r mask plain s) := by
  unfold settleGetS
  try dsimp only
  repeat' first
    | with_reducible first
      | assumption | intro _ | apply memoryCopy_keeps | apply settleNewEnt_keeps | apply touchDir_keeps
      | apply putDir_keeps | apply State.count_keeps | apply takeFwdS_keeps | apply homeWrite_keeps | apply keeps_ite
      | exact KeepsOP.none | apply KeepsOP.some | apply keepsOP_ite | exact KeepsO.none | apply KeepsO.some
      | apply keepsO_ite | apply keepsO_map | apply keepsOP_map | apply keepsOP_mapP | apply keepsO_mapP
      | apply keepsO_mapA | apply keepsOP_mapA | apply keepsO_bind | apply keepsO_bindP | apply keepsOP_bind
      | apply keepsOP_bindP | apply keepsO_bindA | apply keepsOP_bindA | apply KeepsP.snd
      | ((fail_if_success (apply KeepsP.eta)); apply KeepsP.mk') | apply keepsP_ite
      | refine KeepsOP.of ?_ (by assumption) | refine KeepsOP.pair ?_ (by assumption)
      | refine KeepsO.of ?_ (by assumption)
    | split

theorem settleGetM_keeps (hregs : F.regs) (hslc : F.slc) (hhbm : F.hbm) (hxlt : F.xlt) (cls hd hn la r : Nat)
    (h : Keeps F s₀ s) :
    KeepsOP F s₀ (settleGetM cls hd hn la r s) := by
  unfold settleGetM
  try dsimp only
  repeat' first
    | with_reducible first
      | assumption | intro _ | apply memoryCopy_keeps | apply settleNewEnt_keeps | apply touchDir_keeps
      | apply putDir_keeps | apply takeInvs_keeps | apply takeFwdM_keeps | apply State.count_keeps | apply keeps_ite
      | exact KeepsOP.none | apply KeepsOP.some | apply keepsOP_ite | exact KeepsO.none | apply KeepsO.some
      | apply keepsO_ite | apply keepsO_map | apply keepsOP_map | apply keepsOP_mapP | apply keepsO_mapP
      | apply keepsO_mapA | apply keepsOP_mapA | apply keepsO_bind | apply keepsO_bindP | apply keepsOP_bind
      | apply keepsOP_bindP | apply keepsO_bindA | apply keepsOP_bindA | apply KeepsP.snd
      | ((fail_if_success (apply KeepsP.eta)); apply KeepsP.mk') | apply keepsP_ite
      | refine KeepsOP.of ?_ (by assumption) | refine KeepsOP.pair ?_ (by assumption)
      | refine KeepsO.of ?_ (by assumption)
    | split

theorem rangeErr_keeps (hregs : F.regs) (hrecs : F.recs) (pa op part : Nat) (h : Keeps F s₀ s) :
    Keeps F s₀ (rangeErr pa op part s) := by
  unfold rangeErr
  try dsimp only
  with_reducible repeat' first
    | assumption | intro _ | apply emit_keeps | apply State.count_keeps

theorem sealedAccess_keeps (hregs : F.regs) (hrecs : F.recs) (pa part origin op : Nat) (h : Keeps F s₀ s) :
    Keeps F s₀ (sealedAccess pa part origin op s) := by
  unfold sealedAccess
  try dsimp only
  repeat' first
    | with_reducible first
      | assumption | intro _ | apply emit_keeps | apply State.count_keeps
    | split

theorem halfRefuse_keeps (hregs : F.regs) (hrecs : F.recs) (d lane vc src dst line : Nat) (h : Keeps F s₀ s) :
    Keeps F s₀ (halfRefuse d lane vc src dst line s) := by
  unfold halfRefuse
  try dsimp only
  with_reducible repeat' first
    | assumption | intro _ | apply emit_keeps | apply State.count_keeps

theorem crossPart_keeps (hregs : F.regs) (hrecs : F.recs) (b : AccBy) (pa op : Nat) (h : Keeps F s₀ s) :
    KeepsP F s₀ (crossPart b pa op s) := by
  unfold crossPart
  try dsimp only
  repeat' first
    | with_reducible first
      | assumption | intro _ | apply sealedAccess_keeps | apply halfRefuse_keeps | apply State.count_keeps
      | apply keeps_ite | exact KeepsOP.none | apply KeepsOP.some | apply keepsOP_ite | apply keepsO_map
      | apply keepsOP_map | apply keepsOP_mapP | apply keepsO_mapP | apply keepsO_mapA | apply keepsOP_mapA
      | apply keeps_getD | apply keepsP_getD | apply KeepsP.snd
      | ((fail_if_success (apply KeepsP.eta)); apply KeepsP.mk') | apply keepsP_ite
      | refine KeepsOP.of ?_ (by assumption) | refine KeepsOP.pair ?_ (by assumption)
      | refine KeepsP.of ?_ (by assumption)
    | split

theorem readHome_keeps (hregs : F.regs) (hslc : F.slc) (hhbm : F.hbm) (hxlt : F.xlt) (b : AccBy) (pa n : Nat)
    (h : Keeps F s₀ s) :
    KeepsOP F s₀ (readHome b pa n s) := by
  unfold readHome
  try dsimp only
  repeat' first
    | with_reducible first
      | assumption | intro _ | apply settleHomeRead_keeps | apply applyHint_keeps | apply State.count_keeps
      | apply fetchFrom_keeps | apply homeFill_keeps | apply keeps_ite | exact KeepsOP.none | apply KeepsOP.some
      | apply keepsOP_ite | exact KeepsO.none | apply KeepsO.some | apply keepsO_ite | apply keepsO_map
      | apply keepsOP_map | apply keepsOP_mapP | apply keepsO_mapP | apply keepsO_mapA | apply keepsOP_mapA
      | apply keepsO_bind | apply keepsO_bindP | apply keepsOP_bind | apply keepsOP_bindP | apply keepsO_bindA
      | apply keepsOP_bindA | apply KeepsP.snd | ((fail_if_success (apply KeepsP.eta)); apply KeepsP.mk')
      | apply keepsP_ite | refine KeepsOP.of ?_ (by assumption) | refine KeepsOP.pair ?_ (by assumption)
      | refine KeepsO.of ?_ (by assumption)
    | split

theorem readGuest_keeps (hregs : F.regs) (hslc : F.slc) (hhbm : F.hbm) (hxlt : F.xlt) (b : AccBy) (pa : Nat)
    (h : Keeps F s₀ s) :
    KeepsOP F s₀ (readGuest b pa s) := by
  unfold readGuest
  try dsimp only
  repeat' first
    | with_reducible first
      | assumption | intro _ | apply applyHint_keeps | apply State.count_keeps | apply settleGetS_keeps
      | apply putLine_keeps | apply freeDir_keeps | apply putDir_keeps | apply allocWay_keeps | apply keeps_ite
      | exact KeepsOP.none | apply KeepsOP.some | apply keepsOP_ite | exact KeepsO.none | apply KeepsO.some
      | apply keepsO_ite | apply keepsO_map | apply keepsOP_map | apply keepsOP_mapP | apply keepsO_mapP
      | apply keepsO_mapA | apply keepsOP_mapA | apply keepsO_bind | apply keepsO_bindP | apply keepsOP_bind
      | apply keepsOP_bindP | apply keepsO_bindA | apply keepsOP_bindA | apply KeepsP.snd
      | ((fail_if_success (apply KeepsP.eta)); apply KeepsP.mk') | apply keepsP_ite
      | refine KeepsOP.of ?_ (by assumption) | refine KeepsOP.pair ?_ (by assumption)
      | refine KeepsO.of ?_ (by assumption)
    | split

theorem accRead_keeps (hregs : F.regs) (hslc : F.slc) (hhbm : F.hbm) (hxlt : F.xlt) (hrecs : F.recs) (b : AccBy)
    (pa : Nat) (h : Keeps F s₀ s) :
    KeepsOP F s₀ (accRead b pa s) := by
  unfold accRead
  try dsimp only
  repeat' first
    | with_reducible first
      | assumption | intro _ | apply crossPart_keeps | apply rangeErr_keeps | apply readHome_keeps
      | apply readGuest_keeps | apply keeps_ite | exact KeepsOP.none | apply KeepsOP.some | apply keepsOP_ite
      | apply KeepsP.snd | ((fail_if_success (apply KeepsP.eta)); apply KeepsP.mk') | apply keepsP_ite
      | refine KeepsOP.of ?_ (by assumption) | refine KeepsOP.pair ?_ (by assumption)
      | refine KeepsP.of ?_ (by assumption)
    | split

theorem homeWritable_keeps (hregs : F.regs) (hslc : F.slc) (hhbm : F.hbm) (hxlt : F.xlt) (cls d n la sec : Nat)
    (full fill : Bool) (hint : Nat) (h : Keeps F s₀ s) :
    KeepsO F s₀ (homeWritable cls d n la sec full fill hint s) := by
  unfold homeWritable
  try dsimp only
  repeat' first
    | with_reducible first
      | assumption | intro _ | apply applyHint_keeps | apply fetchFrom_keeps | apply homeFill_keeps | apply keeps_ite
      | exact KeepsO.none | apply KeepsO.some | apply keepsO_ite | refine KeepsO.of ?_ (by assumption)
    | split

theorem writeHome_keeps (hregs : F.regs) (hslc : F.slc) (hhbm : F.hbm) (hxlt : F.xlt) (b : AccBy) (pa n : Nat)
    (mask : BitVec 32) (v : SectorData) (h : Keeps F s₀ s) :
    KeepsOP F s₀ (writeHome b pa n mask v s) := by
  unfold writeHome
  try dsimp only
  with_reducible repeat' first
    | assumption | intro _ | apply settleHomeWrite_keeps | apply homeWritable_keeps | apply putLine_keeps
    | apply keeps_ite | exact KeepsOP.none | apply KeepsOP.some | apply keepsOP_ite | exact KeepsO.none
    | apply KeepsO.some | apply keepsO_ite | apply keepsO_map | apply keepsOP_map | apply keepsOP_mapP
    | apply keepsO_mapP | apply keepsO_mapA | apply keepsOP_mapA | apply keepsO_bind | apply keepsO_bindP
    | apply keepsOP_bind | apply keepsOP_bindP | apply keepsO_bindA | apply keepsOP_bindA | apply KeepsP.snd
    | ((fail_if_success (apply KeepsP.eta)); apply KeepsP.mk')

theorem writeGuest_keeps (hregs : F.regs) (hslc : F.slc) (hhbm : F.hbm) (hxlt : F.xlt) (b : AccBy) (pa : Nat)
    (mask : BitVec 32) (v : SectorData) (h : Keeps F s₀ s) :
    KeepsOP F s₀ (writeGuest b pa mask v s) := by
  unfold writeGuest
  try dsimp only
  repeat' first
    | with_reducible first
      | assumption | intro _ | apply settleGetM_keeps | apply applyHint_keeps | apply putLine_keeps
      | apply freeDir_keeps | apply homeWrite_keeps | apply allocWay_keeps | apply keeps_ite | exact KeepsOP.none
      | apply KeepsOP.some | apply keepsOP_ite | exact KeepsO.none | apply KeepsO.some | apply keepsO_ite
      | apply keepsO_map | apply keepsOP_map | apply keepsOP_mapP | apply keepsO_mapP | apply keepsO_mapA
      | apply keepsOP_mapA | apply keepsO_bind | apply keepsO_bindP | apply keepsOP_bind | apply keepsOP_bindP
      | apply keepsO_bindA | apply keepsOP_bindA | apply KeepsP.snd
      | ((fail_if_success (apply KeepsP.eta)); apply KeepsP.mk') | apply keepsP_ite
      | refine KeepsOP.of ?_ (by assumption) | refine KeepsOP.pair ?_ (by assumption)
      | refine KeepsO.of ?_ (by assumption)
    | split

theorem accWrite_keeps (hregs : F.regs) (hslc : F.slc) (hhbm : F.hbm) (hxlt : F.xlt) (hrecs : F.recs) (b : AccBy)
    (pa : Nat) (mask : BitVec 32) (v : SectorData) (h : Keeps F s₀ s) :
    KeepsOP F s₀ (accWrite b pa mask v s) := by
  unfold accWrite
  try dsimp only
  repeat' first
    | with_reducible first
      | assumption | intro _ | apply crossPart_keeps | apply rangeErr_keeps | apply writeHome_keeps
      | apply writeGuest_keeps | apply keeps_ite | exact KeepsOP.none | apply KeepsOP.some | apply keepsOP_ite
      | apply KeepsP.snd | ((fail_if_success (apply KeepsP.eta)); apply KeepsP.mk') | apply keepsP_ite
      | refine KeepsOP.of ?_ (by assumption) | refine KeepsOP.pair ?_ (by assumption)
      | refine KeepsP.of ?_ (by assumption)
    | split

theorem accAtomic_keeps (hregs : F.regs) (hslc : F.slc) (hhbm : F.hbm) (hxlt : F.xlt) (hrecs : F.recs) (b : AccBy)
    (pa : Nat) (f : SectorData → SectorData) (h : Keeps F s₀ s) :
    KeepsOP F s₀ (accAtomic b pa f s) := by
  unfold accAtomic
  try dsimp only
  repeat' first
    | with_reducible first
      | assumption | intro _ | apply crossPart_keeps | apply rangeErr_keeps | apply settleHomeWrite_keeps
      | apply homeWritable_keeps | apply putLine_keeps | apply keeps_ite | exact KeepsOP.none | apply KeepsOP.some
      | apply keepsOP_ite | exact KeepsO.none | apply KeepsO.some | apply keepsO_ite | apply keepsO_map
      | apply keepsOP_map | apply keepsOP_mapP | apply keepsO_mapP | apply keepsO_mapA | apply keepsOP_mapA
      | apply keepsO_bind | apply keepsO_bindP | apply keepsOP_bind | apply keepsOP_bindP | apply keepsO_bindA
      | apply keepsOP_bindA | apply KeepsP.snd | ((fail_if_success (apply KeepsP.eta)); apply KeepsP.mk')
      | apply keepsP_ite | refine KeepsOP.of ?_ (by assumption) | refine KeepsOP.pair ?_ (by assumption)
      | refine KeepsO.of ?_ (by assumption) | refine KeepsP.of ?_ (by assumption)
    | split

theorem accBytes_keeps (hregs : F.regs) (hslc : F.slc) (hhbm : F.hbm) (hxlt : F.xlt) (hrecs : F.recs) (b : AccBy)
    (x2 x3 x4 : Nat) (h : Keeps F s₀ s) :
    KeepsOP F s₀ (accBytes b x2 x3 x4 s) := by
  induction x2 generalizing b x3 x4 s with
  | zero =>
    unfold accBytes
    try dsimp only
    repeat' first
      | with_reducible first
        | assumption | intro _ | apply accRead_keeps | apply keeps_ite | exact KeepsOP.none | apply KeepsOP.some
      | split
  | succ n_ ih =>
    unfold accBytes
    try dsimp only
    repeat' first
      | with_reducible first
        | assumption | intro _ | apply accRead_keeps | apply ih | apply keeps_ite | exact KeepsOP.none
        | apply KeepsOP.some | apply keepsOP_ite | refine KeepsOP.of ?_ (by assumption)
        | refine KeepsOP.pair ?_ (by assumption)
      | split

theorem accPut_keeps (hregs : F.regs) (hslc : F.slc) (hhbm : F.hbm) (hxlt : F.xlt) (hrecs : F.recs) (b : AccBy)
    (x2 x3 : Nat) (x4 : List Byte) (h : Keeps F s₀ s) :
    KeepsOP F s₀ (accPut b x2 x3 x4 s) := by
  induction x2 generalizing b x3 x4 s with
  | zero =>
    unfold accPut
    try dsimp only
    repeat' first
      | with_reducible first
        | assumption | intro _ | apply accWrite_keeps | apply keeps_ite | exact KeepsOP.none | apply KeepsOP.some
      | split
  | succ n_ ih =>
    unfold accPut
    try dsimp only
    repeat' first
      | with_reducible first
        | assumption | intro _ | apply accWrite_keeps | apply ih | apply keeps_ite | exact KeepsOP.none
        | apply KeepsOP.some | apply keepsOP_ite | refine KeepsOP.of ?_ (by assumption)
        | refine KeepsOP.pair ?_ (by assumption)
      | split

end Sys2Proof.Machine
end

