-- ==== Sys2Proof/Laws/KeepsSliceEngine.lean ====
section
/-! SUPPORT. What each effect of Machine/SliceEngine.lean may change (see Laws/Keeps.lean). -/

namespace Sys2Proof.Machine

variable {F : Frame} {s₀ s : State}

theorem answer_keeps (hslc : F.slc) (d n : Nat) (w : Waiter) (kind : Nat) (poison : Bool) (v : SectorData)
    (h : Keeps F s₀ s) :
    Keeps F s₀ (answer d n w kind poison v s) := by
  unfold answer
  try dsimp only
  with_reducible repeat' first
    | assumption | exact ring_wf_id | exact Memory.wf_id | intro _
    | ((fail_if_success (apply keeps_eta)); apply keeps_mk) | exact Or.inl (by assumption) | exact Or.inr rfl

theorem putMshr_keeps (hslc : F.slc) (m : Mshr) (h : Keeps F s₀ s) :
    Keeps F s₀ (putMshr m s) := by
  unfold putMshr
  try dsimp only
  with_reducible repeat' first
    | assumption | exact ring_wf_id | exact Memory.wf_id | intro _
    | ((fail_if_success (apply keeps_eta)); apply keeps_mk) | exact Or.inl (by assumption) | exact Or.inr rfl

theorem slicePeaks_keeps (hregs : F.regs) (d n : Nat) (h : Keeps F s₀ s) :
    Keeps F s₀ (slicePeaks d n s) := by
  unfold slicePeaks
  try dsimp only
  with_reducible repeat' first
    | assumption | intro _ | apply State.peak_keeps

theorem holdForHead_keeps (hslc : F.slc) (d n : Nat) (waiter : Bool) (h : Keeps F s₀ s) :
    Keeps F s₀ (holdForHead d n waiter s) := by
  unfold holdForHead
  try dsimp only
  repeat' first
    | with_reducible first
      | assumption | exact ring_wf_id | exact Memory.wf_id | intro _
      | ((fail_if_success (apply keeps_eta)); apply keeps_mk) | exact Or.inl (by assumption) | exact Or.inr rfl
      | apply keeps_ite
    | split

theorem freeMshr_keeps (hslc : F.slc) (m : Mshr) (h : Keeps F s₀ s) :
    Keeps F s₀ (freeMshr m s) := by
  unfold freeMshr
  try dsimp only
  with_reducible repeat' first
    | assumption | exact ring_wf_id | exact Memory.wf_id | intro _ | apply holdForHead_keeps
    | ((fail_if_success (apply keeps_eta)); apply keeps_mk) | exact Or.inl (by assumption) | exact Or.inr rfl

theorem putRetry_keeps (hslc : F.slc) (r : Retry) (h : Keeps F s₀ s) :
    Keeps F s₀ (putRetry r s) := by
  unfold putRetry
  try dsimp only
  with_reducible repeat' first
    | assumption | exact ring_wf_id | exact Memory.wf_id | intro _
    | ((fail_if_success (apply keeps_eta)); apply keeps_mk) | exact Or.inl (by assumption) | exact Or.inr rfl

theorem backOffFor_keeps (hslc : F.slc) (requester : Nat) (what : RetryOf) (k : Nat) (h : Keeps F s₀ s) :
    Keeps F s₀ (backOffFor requester what k s) := by
  unfold backOffFor
  try dsimp only
  with_reducible repeat' first
    | assumption | intro _ | apply putRetry_keeps

theorem endBackOff_keeps (hslc : F.slc) (requester : Nat) (what : RetryOf) (h : Keeps F s₀ s) :
    Keeps F s₀ (endBackOff requester what s) := by
  unfold endBackOff
  try dsimp only
  repeat' first
    | with_reducible first
      | assumption | intro _ | apply putRetry_keeps
    | split

theorem enterStarve_keeps (hslc : F.slc) (d n : Nat) (r : SliceReq) (h : Keeps F s₀ s) :
    Keeps F s₀ (enterStarve d n r s) := by
  unfold enterStarve
  try dsimp only
  with_reducible repeat' first
    | assumption | exact ring_wf_id | exact Memory.wf_id | intro _
    | ((fail_if_success (apply keeps_eta)); apply keeps_mk) | exact Or.inl (by assumption) | exact Or.inr rfl
    | apply keeps_ite

theorem leaveStarve_keeps (hslc : F.slc) (d n : Nat) (r : SliceReq) (h : Keeps F s₀ s) :
    Keeps F s₀ (leaveStarve d n r s) := by
  unfold leaveStarve
  try dsimp only
  with_reducible repeat' first
    | assumption | exact ring_wf_id | exact Memory.wf_id | intro _
    | ((fail_if_success (apply keeps_eta)); apply keeps_mk) | exact Or.inl (by assumption) | exact Or.inr rfl

theorem nackRetry_keeps (hregs : F.regs) (hslc : F.slc) (d n k : Nat) (w : Waiter) (h : Keeps F s₀ s) :
    Keeps F s₀ (nackRetry d n k w s) := by
  unfold nackRetry
  try dsimp only
  with_reducible repeat' first
    | assumption | intro _ | apply answer_keeps | apply State.count_keeps | apply enterStarve_keeps
    | apply backOffFor_keeps | apply keeps_ite

theorem sendInvs_keeps (hregs : F.regs) (hslc : F.slc) (hxlt : F.xlt) (hd hn la req part cls : Nat) (l : List Nat)
    (h : Keeps F s₀ s) :
    Keeps F s₀ (sendInvs hd hn la req part cls l s) := by
  unfold sendInvs
  try dsimp only
  with_reducible repeat' first
    | assumption | intro _ | apply each_keeps | apply sendMsg_keeps

theorem startHomeRead_keeps (hregs : F.regs) (hslc : F.slc) (hxlt : F.xlt) (e : DirEnt) (part cls : Nat)
    (h : Keeps F s₀ s) :
    Keeps F s₀ (startHomeRead e part cls s) := by
  unfold startHomeRead
  try dsimp only
  with_reducible repeat' first
    | assumption | intro _ | apply State.count_keeps | apply sendMsg_keeps | apply putDir_keeps

theorem startHomeWrite_keeps (hregs : F.regs) (hslc : F.slc) (hxlt : F.xlt) (e : DirEnt) (cause part cls : Nat)
    (h : Keeps F s₀ s) :
    Keeps F s₀ (startHomeWrite e cause part cls s) := by
  unfold startHomeWrite
  try dsimp only
  repeat' first
    | with_reducible first
      | assumption | intro _ | apply sendInvs_keeps | apply putDir_keeps | apply State.count_keeps
      | apply sendMsg_keeps
    | split

theorem finish_keeps (hslc : F.slc) (e : DirEnt) (h : Keeps F s₀ s) :
    Keeps F s₀ (finish e s) := by
  unfold finish
  try dsimp only
  with_reducible repeat' first
    | assumption | intro _ | apply putDir_keeps | apply freeDir_keeps | apply keeps_ite

theorem placeLine_keeps (hregs : F.regs) (hslc : F.slc) (hhbm : F.hbm) (hxlt : F.xlt) (l : Line) (stream : Bool)
    (h : Keeps F s₀ s) :
    KeepsO F s₀ (placeLine l stream s) := by
  unfold placeLine
  try dsimp only
  repeat' first
    | with_reducible first
      | assumption | intro _ | apply evict_keeps | apply putLine_keeps | apply touchLine_keeps | apply keeps_ite
      | exact KeepsOP.none | apply KeepsOP.some | apply keepsOP_ite | exact KeepsO.none | apply KeepsO.some
      | apply keepsO_ite | apply keepsO_map | apply keepsOP_map | apply keepsOP_mapP | apply keepsO_mapP
      | apply keepsO_mapA | apply keepsOP_mapA | apply KeepsP.snd
      | ((fail_if_success (apply KeepsP.eta)); apply KeepsP.mk') | apply keepsP_ite
      | refine KeepsOP.of ?_ (by assumption) | refine KeepsOP.pair ?_ (by assumption)
      | refine KeepsO.of ?_ (by assumption)
    | split

theorem serveOn_keeps (hregs : F.regs) (hslc : F.slc) (d n : Nat) (w : Waiter) (l : Line) (fresh : Bool)
    (h : Keeps F s₀ s) :
    Keeps F s₀ (serveOn d n w l fresh s) := by
  unfold serveOn
  try dsimp only
  repeat' first
    | with_reducible first
      | assumption | intro _ | apply State.count_keeps | apply answer_keeps | apply applyHint_keeps
      | apply putLine_keeps | apply keeps_ite
    | split

theorem serveHome_keeps (hregs : F.regs) (hslc : F.slc) (hhbm : F.hbm) (hxlt : F.xlt) (d n : Nat) (w : Waiter)
    (fresh : Bool) (h : Keeps F s₀ s) :
    KeepsO F s₀ (serveHome d n w fresh s) := by
  unfold serveHome
  try dsimp only
  repeat' first
    | with_reducible first
      | assumption | intro _ | apply serveOn_keeps | apply answer_keeps | apply noteHint_keeps | apply putLine_keeps
      | apply placeLine_keeps | apply keeps_ite | exact KeepsOP.none | apply KeepsOP.some | apply keepsOP_ite
      | exact KeepsO.none | apply KeepsO.some | apply keepsO_ite | apply keepsO_map | apply keepsOP_map
      | apply keepsOP_mapP | apply keepsO_mapP | apply keepsO_mapA | apply keepsOP_mapA | apply keepsO_bind
      | apply keepsO_bindP | apply keepsOP_bind | apply keepsOP_bindP | apply keepsO_bindA | apply keepsOP_bindA
      | apply KeepsP.snd | ((fail_if_success (apply KeepsP.eta)); apply KeepsP.mk') | apply keepsP_ite
      | refine KeepsOP.of ?_ (by assumption) | refine KeepsOP.pair ?_ (by assumption)
      | refine KeepsO.of ?_ (by assumption)
    | split

theorem serveGuest_keeps (hregs : F.regs) (hslc : F.slc) (d n : Nat) (w : Waiter) (fresh : Bool) (h : Keeps F s₀ s) :
    KeepsO F s₀ (serveGuest d n w fresh s) := by
  unfold serveGuest
  try dsimp only
  repeat' first
    | with_reducible first
      | assumption | intro _ | apply serveOn_keeps | apply keeps_ite | exact KeepsO.none | apply KeepsO.some
      | apply keepsO_ite | refine KeepsO.of ?_ (by assumption)
    | split

theorem serve_keeps (hregs : F.regs) (hslc : F.slc) (hhbm : F.hbm) (hxlt : F.xlt) (d n : Nat) (w : Waiter)
    (fresh : Bool) (h : Keeps F s₀ s) :
    KeepsO F s₀ (serve d n w fresh s) := by
  unfold serve
  try dsimp only
  with_reducible repeat' first
    | assumption | intro _ | apply serveHome_keeps | apply serveGuest_keeps | apply keeps_ite | exact KeepsO.none
    | apply KeepsO.some | apply keepsO_ite

theorem startFetch_keeps (hregs : F.regs) (hslc : F.slc) (d n la : Nat) (mask : BitVec 4) (h : Keeps F s₀ s) :
    Keeps F s₀ (startFetch d n la mask s) := by
  unfold startFetch
  try dsimp only
  repeat' first
    | with_reducible first
      | assumption | intro _ | apply putLine_keeps | apply State.count_keeps | apply putMshr_keeps
    | split

theorem demandHome_keeps (hregs : F.regs) (hslc : F.slc) (hxlt : F.xlt) (d n : Nat) (w : Waiter) (h : Keeps F s₀ s) :
    Keeps F s₀ (demandHome d n w s) := by
  unfold demandHome
  try dsimp only
  repeat' first
    | with_reducible first
      | assumption | intro _ | apply startFetch_keeps | apply startHomeRead_keeps | apply startHomeWrite_keeps
      | apply keeps_ite
    | split

theorem cohRequest_keeps (hregs : F.regs) (hslc : F.slc) (hxlt : F.xlt) (l : Line) (part cls : Nat) (h : Keeps F s₀ s)
    :
    Keeps F s₀ (cohRequest l part cls s) := by
  unfold cohRequest
  try dsimp only
  repeat' first
    | with_reducible first
      | assumption | intro _ | apply sendReq_keeps
    | split

theorem demandGuest_keeps (hregs : F.regs) (hslc : F.slc) (hxlt : F.xlt) (d n : Nat) (w : Waiter) (h : Keeps F s₀ s) :
    Keeps F s₀ (demandGuest d n w s) := by
  unfold demandGuest
  try dsimp only
  repeat' first
    | with_reducible first
      | assumption | intro _ | apply putLine_keeps | apply putMshr_keeps | apply cohRequest_keeps | apply keeps_ite
    | split

theorem demand_keeps (hregs : F.regs) (hslc : F.slc) (hxlt : F.xlt) (d n : Nat) (w : Waiter) (h : Keeps F s₀ s) :
    Keeps F s₀ (demand d n w s) := by
  unfold demand
  try dsimp only
  with_reducible repeat' first
    | assumption | intro _ | apply demandHome_keeps | apply demandGuest_keeps | apply keeps_ite

theorem serveList_keeps (hregs : F.regs) (hslc : F.slc) (hhbm : F.hbm) (hxlt : F.xlt) (d n : Nat)
    (x3 x4 : List Waiter) (h : Keeps F s₀ s) :
    KeepsP F s₀ (serveList d n x3 x4 s) := by
  induction x4 generalizing d n x3 s with
  | nil =>
    unfold serveList
    try dsimp only
    repeat' first
      | with_reducible first
        | assumption | intro _ | apply serve_keeps | apply keeps_ite | exact KeepsO.none | apply KeepsO.some
        | apply keepsO_ite | apply KeepsP.snd | ((fail_if_success (apply KeepsP.eta)); apply KeepsP.mk')
      | split
  | cons x_ l_ ih =>
    unfold serveList
    try dsimp only
    repeat' first
      | with_reducible first
        | assumption | intro _ | apply serve_keeps | apply ih | apply keeps_ite | exact KeepsO.none
        | apply KeepsO.some | apply keepsO_ite | apply KeepsP.snd
        | ((fail_if_success (apply KeepsP.eta)); apply KeepsP.mk') | apply keepsP_ite
        | refine KeepsO.of ?_ (by assumption) | refine KeepsP.of ?_ (by assumption)
      | split

theorem servePass_keeps (hregs : F.regs) (hslc : F.slc) (hhbm : F.hbm) (hxlt : F.xlt) (d n la : Nat)
    (h : Keeps F s₀ s) :
    Keeps F s₀ (servePass d n la s) := by
  unfold servePass
  try dsimp only
  repeat' first
    | with_reducible first
      | assumption | intro _ | apply serveList_keeps | apply putMshr_keeps | apply holdForHead_keeps | apply keeps_ite
      | apply KeepsP.snd | ((fail_if_success (apply KeepsP.eta)); apply KeepsP.mk') | apply keepsP_ite
      | refine KeepsP.of ?_ (by assumption)
    | split

theorem demandPass_keeps (hregs : F.regs) (hslc : F.slc) (hxlt : F.xlt) (d n la : Nat) (h : Keeps F s₀ s) :
    Keeps F s₀ (demandPass d n la s) := by
  unfold demandPass
  try dsimp only
  repeat' first
    | with_reducible first
      | assumption | intro _ | apply each_keeps | apply demand_keeps
    | split

theorem leaveUnplaced_keeps (hregs : F.regs) (hslc : F.slc) (hxlt : F.xlt) (d n la : Nat) (h : Keeps F s₀ s) :
    Keeps F s₀ (leaveUnplaced d n la s) := by
  unfold leaveUnplaced
  try dsimp only
  repeat' first
    | with_reducible first
      | assumption | intro _ | apply evictGuest_keeps | apply keeps_ite | exact KeepsO.none | apply KeepsO.some
      | apply keepsO_ite | apply keeps_getD | apply keepsP_getD | refine KeepsO.of ?_ (by assumption)
    | split

theorem settleMshr_keeps (hregs : F.regs) (hslc : F.slc) (hxlt : F.xlt) (d n la : Nat) (h : Keeps F s₀ s) :
    Keeps F s₀ (settleMshr d n la s) := by
  unfold settleMshr
  try dsimp only
  repeat' first
    | with_reducible first
      | assumption | intro _ | apply leaveUnplaced_keeps | apply freeMshr_keeps | apply keeps_ite
    | split

theorem pump_keeps (hregs : F.regs) (hslc : F.slc) (hhbm : F.hbm) (hxlt : F.xlt) (d n la : Nat) (h : Keeps F s₀ s) :
    Keeps F s₀ (pump d n la s) := by
  unfold pump
  try dsimp only
  with_reducible repeat' first
    | assumption | intro _ | apply settleMshr_keeps | apply servePass_keeps | apply demandPass_keeps

theorem acceptRequest_keeps (hregs : F.regs) (hslc : F.slc) (hhbm : F.hbm) (hxlt : F.xlt) (d n k : Nat) (w : Waiter)
    (h : Keeps F s₀ s) :
    Keeps F s₀ (acceptRequest d n k w s) := by
  unfold acceptRequest
  try dsimp only
  repeat' first
    | with_reducible first
      | assumption | intro _ | apply pump_keeps | apply slicePeaks_keeps | apply leaveStarve_keeps
      | apply putMshr_keeps | apply nackRetry_keeps | apply keeps_ite
    | split

theorem waitAccess_keeps (hregs : F.regs) (hslc : F.slc) (hhbm : F.hbm) (hxlt : F.xlt) (b : AccBy) (pa : Nat)
    (want : Want) (h : Keeps F s₀ s) :
    Keeps F s₀ (waitAccess b pa want s) := by
  unfold waitAccess
  try dsimp only
  repeat' first
    | with_reducible first
      | assumption | intro _ | apply serve_keeps | apply acceptRequest_keeps | apply keeps_ite | exact KeepsO.none
      | apply KeepsO.some | apply keepsO_ite | refine KeepsO.of ?_ (by assumption)
    | split

theorem poisonRecord_keeps (hrecs : F.recs) (d n la cause mask : Nat) (h : Keeps F s₀ s) :
    Keeps F s₀ (poisonRecord d n la cause mask s) := by
  unfold poisonRecord
  try dsimp only
  with_reducible repeat' first
    | assumption | intro _ | apply emit_keeps

theorem settleHints_keeps (hslc : F.slc) (d n la : Nat) (h : Keeps F s₀ s) :
    Keeps F s₀ (settleHints d n la s) := by
  unfold settleHints
  try dsimp only
  repeat' first
    | with_reducible first
      | assumption | intro _ | apply each_keeps | apply applyHint_keeps | apply putMshr_keeps
    | split

theorem installFill_keeps (hregs : F.regs) (hslc : F.slc) (hhbm : F.hbm) (hxlt : F.xlt) (hrecs : F.recs) (m : Mshr)
    (bad : BitVec 4) (dead : Bool) (h : Keeps F s₀ s) :
    Keeps F s₀ (installFill m bad dead s) := by
  unfold installFill
  try dsimp only
  repeat' first
    | with_reducible first
      | assumption | intro _ | apply putLine_keeps | apply poisonRecord_keeps | apply settleHints_keeps
      | apply putMshr_keeps | apply pump_keeps | apply applyHint_keeps | apply keeps_ite
    | split

theorem tryPlace_keeps (hregs : F.regs) (hslc : F.slc) (hhbm : F.hbm) (hxlt : F.xlt) (d n la : Nat) (h : Keeps F s₀ s)
    :
    Keeps F s₀ (tryPlace d n la s) := by
  unfold tryPlace
  try dsimp only
  repeat' first
    | with_reducible first
      | assumption | intro _ | apply placeLine_keeps | apply settleHints_keeps | apply keeps_ite | exact KeepsOP.none
      | apply KeepsOP.some | apply keepsOP_ite | exact KeepsO.none | apply KeepsO.some | apply keepsO_ite
      | apply keepsO_map | apply keepsOP_map | apply keepsOP_mapP | apply keepsO_mapP | apply keepsO_mapA
      | apply keepsOP_mapA | apply keeps_getD | apply keepsP_getD | apply KeepsP.snd
      | ((fail_if_success (apply KeepsP.eta)); apply KeepsP.mk') | apply keepsP_ite
      | refine KeepsOP.of ?_ (by assumption) | refine KeepsOP.pair ?_ (by assumption)
      | refine KeepsO.of ?_ (by assumption)
    | split

theorem fillReturn_keeps (hregs : F.regs) (hslc : F.slc) (hhbm : F.hbm) (hxlt : F.xlt) (hrecs : F.recs) (m : Mshr)
    (bad : BitVec 4) (dead : Bool) (h : Keeps F s₀ s) :
    Keeps F s₀ (fillReturn m bad dead s) := by
  unfold fillReturn
  try dsimp only
  repeat' first
    | with_reducible first
      | assumption | intro _ | apply pump_keeps | apply placeLine_keeps | apply putMshr_keeps
      | apply installFill_keeps | apply settleHints_keeps | apply keeps_ite | exact KeepsO.none | apply KeepsO.some
      | apply keepsO_ite | refine KeepsO.of ?_ (by assumption)
    | split

theorem retryPlace_keeps (hregs : F.regs) (hslc : F.slc) (hhbm : F.hbm) (hxlt : F.xlt) (hrecs : F.recs) (l : Line)
    (h : Keeps F s₀ s) :
    Keeps F s₀ (retryPlace l s) := by
  unfold retryPlace
  try dsimp only
  repeat' first
    | with_reducible first
      | assumption | intro _ | apply fillReturn_keeps | apply pump_keeps | apply tryPlace_keeps | apply keeps_ite
    | split

theorem retryPlaces_keeps (hregs : F.regs) (hslc : F.slc) (hhbm : F.hbm) (hxlt : F.xlt) (hrecs : F.recs) (d n : Nat)
    (h : Keeps F s₀ s) :
    Keeps F s₀ (retryPlaces d n s) := by
  unfold retryPlaces
  try dsimp only
  with_reducible repeat' first
    | assumption | intro _ | apply each_keeps | apply retryPlace_keeps

end Sys2Proof.Machine
end

