-- ==== Sys2Proof/Laws/KeepsFaults.lean ====
section
/-! SUPPORT. What each effect of Machine/Faults.lean may change (see Laws/Keeps.lean). -/

namespace Sys2Proof.Machine

variable {F : Frame} {s₀ s : State}

theorem sendMsi_keeps (hregs : F.regs) (hout : F.out) (d p i e : Nat) (h : Keeps F s₀ s) :
    Keeps F s₀ (sendMsi d p i e s) := by
  unfold sendMsi
  try dsimp only
  repeat' first
    | with_reducible first
      | assumption | exact ring_wf_id | exact Memory.wf_id | intro _ | apply State.wr_keeps
      | ((fail_if_success (apply keeps_eta)); apply keeps_mk) | exact Or.inl (by assumption) | exact Or.inr rfl
    | split

theorem raiseVector_keeps (hregs : F.regs) (hout : F.out) (q : Nat) (h : Keeps F s₀ s) :
    Keeps F s₀ (raiseVector q s) := by
  unfold raiseVector
  try dsimp only
  with_reducible repeat' first
    | assumption | intro _ | apply State.count_keeps | apply sendMsi_keeps | apply keeps_ite

theorem clearPending_keeps (hregs : F.regs) (p i : Nat) (h : Keeps F s₀ s) :
    Keeps F s₀ (clearPending p i s) := by
  unfold clearPending
  try dsimp only
  with_reducible repeat' first
    | assumption | intro _ | apply each_keeps | apply State.wr_keeps

theorem waitBytes_keeps (hregs : F.regs) (hslc : F.slc) (hhbm : F.hbm) (hxlt : F.xlt) (b : AccBy) (x2 x3 : Nat)
    (x4 : List Byte) (h : Keeps F s₀ s) :
    Keeps F s₀ (waitBytes b x2 x3 x4 s) := by
  induction x2 generalizing b x3 x4 s with
  | zero =>
    unfold waitBytes
    try dsimp only
    repeat' first
      | with_reducible first
        | assumption
      | split
  | succ n_ ih =>
    unfold waitBytes
    try dsimp only
    repeat' first
      | with_reducible first
        | assumption | intro _ | apply waitAccess_keeps | apply ih | apply keeps_ite
      | split

theorem blockWrite_keeps (hregs : F.regs) (hslc : F.slc) (hhbm : F.hbm) (hxlt : F.xlt) (hrecs : F.recs) (b : AccBy)
    (pa : Nat) (l : List Byte) (h : Keeps F s₀ s) :
    Keeps F s₀ (blockWrite b pa l s) := by
  unfold blockWrite
  try dsimp only
  repeat' first
    | with_reducible first
      | assumption | intro _ | apply accPut_keeps | apply waitBytes_keeps | apply keeps_ite | exact KeepsOP.none
      | apply KeepsOP.some | apply keepsOP_ite | refine KeepsOP.of ?_ (by assumption)
      | refine KeepsOP.pair ?_ (by assumption)
    | split

theorem writeCqe_keeps (hregs : F.regs) (hslc : F.slc) (hhbm : F.hbm) (hxlt : F.xlt) (hrecs : F.recs) (hout : F.out)
    (cq tag status queue kind index info : Nat) (irq : Bool) (h : Keeps F s₀ s) :
    Keeps F s₀ (writeCqe cq tag status queue kind index info irq s) := by
  unfold writeCqe
  try dsimp only
  with_reducible repeat' first
    | assumption | intro _ | apply blockWrite_keeps | apply State.wr_keeps | apply raiseVector_keeps | apply keeps_ite

theorem setBucket_keeps (hque : F.que) (d p i kind : Nat) (v : ℤ) (h : Keeps F s₀ s) :
    Keeps F s₀ (setBucket d p i kind v s) := by
  unfold setBucket
  try dsimp only
  with_reducible repeat' first
    | assumption | exact ring_wf_id | exact Memory.wf_id | intro _
    | ((fail_if_success (apply keeps_eta)); apply keeps_mk) | exact Or.inl (by assumption) | exact Or.inr rfl

theorem charge_keeps (hque : F.que) (d p i kind n : Nat) (h : Keeps F s₀ s) :
    Keeps F s₀ (charge d p i kind n s) := by
  unfold charge
  try dsimp only
  with_reducible repeat' first
    | assumption | intro _ | apply setBucket_keeps | apply keeps_ite

theorem noteSector_keeps (hque : F.que) (q d pa : Nat) (h : Keeps F s₀ s) :
    Keeps F s₀ (noteSector q d pa s) := by
  unfold noteSector
  try dsimp only
  with_reducible repeat' first
    | assumption | exact ring_wf_id | exact Memory.wf_id | intro _
    | ((fail_if_success (apply keeps_eta)); apply keeps_mk) | exact Or.inl (by assumption) | exact Or.inr rfl

theorem reportSectors_keeps (hque : F.que) (q : Nat) (h : Keeps F s₀ s) :
    Keeps F s₀ (reportSectors q s) := by
  unfold reportSectors
  try dsimp only
  with_reducible repeat' first
    | assumption | exact ring_wf_id | exact Memory.wf_id | intro _ | apply charge_keeps
    | ((fail_if_success (apply keeps_eta)); apply keeps_mk) | exact Or.inl (by assumption) | exact Or.inr rfl

theorem completeItem_keeps (hregs : F.regs) (hslc : F.slc) (hhbm : F.hbm) (hque : F.que) (hxlt : F.xlt)
    (hrecs : F.recs) (hout : F.out) (q tag status kind index info : Nat) (cqe irq : Bool) (h : Keeps F s₀ s) :
    Keeps F s₀ (completeItem q tag status kind index info cqe irq s) := by
  unfold completeItem
  try dsimp only
  with_reducible repeat' first
    | assumption | exact ring_wf_id | exact Memory.wf_id | intro _ | apply reportSectors_keeps | apply writeCqe_keeps
    | ((fail_if_success (apply keeps_eta)); apply keeps_mk) | exact Or.inl (by assumption) | exact Or.inr rfl
    | apply keeps_ite

theorem updSeq_keeps (hque : F.que) (id : Nat) (f : SeqSlot → SeqSlot) (h : Keeps F s₀ s) :
    Keeps F s₀ (updSeq id f s) := by
  unfold updSeq
  try dsimp only
  with_reducible repeat' first
    | assumption | exact ring_wf_id | exact Memory.wf_id | intro _
    | ((fail_if_success (apply keeps_eta)); apply keeps_mk) | exact Or.inl (by assumption) | exact Or.inr rfl

theorem detachIds_keeps (hque : F.que) (ids : List Nat) (n : BitVec 32) (taint : Bool) (h : Keeps F s₀ s) :
    Keeps F s₀ (detachIds ids n taint s) := by
  unfold detachIds
  try dsimp only
  with_reducible repeat' first
    | assumption | intro _ | apply each_keeps | apply updSeq_keeps

theorem detach_keeps (hque : F.que) (l : Launch) (taint : Bool) (h : Keeps F s₀ s) :
    Keeps F s₀ (detach l taint s) := by
  unfold detach
  try dsimp only
  with_reducible repeat' first
    | assumption | intro _ | apply detachIds_keeps

theorem invalL1_keeps (hcore : F.core) (d c : Nat) (h : Keeps F s₀ s) :
    Keeps F s₀ (invalL1 d c s) := by
  unfold invalL1
  try dsimp only
  with_reducible repeat' first
    | assumption | exact ring_wf_id | exact Memory.wf_id | intro _
    | ((fail_if_success (apply keeps_eta)); apply keeps_mk) | exact Or.inl (by assumption) | exact Or.inr rfl

theorem dropTroupes_keeps (hcore : F.core) (hslc : F.slc) (hque : F.que) (on : Nat → Bool) (pt : Troupe → Bool)
    (pl : Launch → Bool) (h : Keeps F s₀ s) :
    Keeps F s₀ (dropTroupes on pt pl s) := by
  unfold dropTroupes
  try dsimp only
  with_reducible repeat' first
    | assumption | exact ring_wf_id | exact Memory.wf_id | intro _ | apply each_keeps | apply invalL1_keeps
    | ((fail_if_success (apply keeps_eta)); apply keeps_mk) | exact Or.inl (by assumption) | exact Or.inr rfl

theorem dropMovers_keeps (hque : F.que) (hhost : F.host) (pm : Mover → Bool) (h : Keeps F s₀ s) :
    Keeps F s₀ (dropMovers pm s) := by
  unfold dropMovers
  try dsimp only
  with_reducible repeat' first
    | assumption | exact ring_wf_id | exact Memory.wf_id | intro _
    | ((fail_if_success (apply keeps_eta)); apply keeps_mk) | exact Or.inl (by assumption) | exact Or.inr rfl

theorem killRecord_keeps (hrecs : F.recs) (w : KillWhy) (absorbed : Nat) (h : Keeps F s₀ s) :
    Keeps F s₀ (killRecord w absorbed s) := by
  unfold killRecord
  try dsimp only
  with_reducible repeat' first
    | assumption | intro _ | apply emit_keeps

theorem endLaunch_keeps (hregs : F.regs) (hslc : F.slc) (hhbm : F.hbm) (hque : F.que) (hxlt : F.xlt) (hrecs : F.recs)
    (hout : F.out) (l : Launch) (h : Keeps F s₀ s) :
    Keeps F s₀ (endLaunch l s) := by
  unfold endLaunch
  try dsimp only
  with_reducible repeat' first
    | assumption | intro _ | apply completeItem_keeps | apply detach_keeps

theorem killMovers_keeps (hregs : F.regs) (hslc : F.slc) (hhbm : F.hbm) (hque : F.que) (hxlt : F.xlt) (hrecs : F.recs)
    (hout : F.out) (f : Mover → Bool) (h : Keeps F s₀ s) :
    Keeps F s₀ (killMovers f s) := by
  unfold killMovers
  try dsimp only
  with_reducible repeat' first
    | assumption | exact ring_wf_id | exact Memory.wf_id | intro _ | apply each_keeps | apply completeItem_keeps
    | ((fail_if_success (apply keeps_eta)); apply keeps_mk) | exact Or.inl (by assumption) | exact Or.inr rfl

theorem closeKill_keeps (hregs : F.regs) (hcore : F.core) (hslc : F.slc) (hhbm : F.hbm) (hque : F.que) (hxlt : F.xlt)
    (hrecs : F.recs) (hout : F.out) (k : OpenKill) (h : Keeps F s₀ s) :
    Keeps F s₀ (closeKill k s) := by
  unfold closeKill
  try dsimp only
  with_reducible repeat' first
    | assumption | exact ring_wf_id | exact Memory.wf_id | intro _ | apply killRecord_keeps | apply each_keeps
    | apply endLaunch_keeps | ((fail_if_success (apply keeps_eta)); apply keeps_mk) | exact Or.inl (by assumption)
    | exact Or.inr rfl

theorem closeKills_keeps (hregs : F.regs) (hcore : F.core) (hslc : F.slc) (hhbm : F.hbm) (hque : F.que) (hxlt : F.xlt)
    (hrecs : F.recs) (hout : F.out) (f : OpenKill → Bool) (h : Keeps F s₀ s) :
    Keeps F s₀ (closeKills f s) := by
  unfold closeKills
  try dsimp only
  with_reducible repeat' first
    | assumption | intro _ | apply each_keeps | apply closeKill_keeps

theorem faultEntries_keeps (hregs : F.regs) (hslc : F.slc) (hhbm : F.hbm) (hxlt : F.xlt) (hrecs : F.recs)
    (hout : F.out) (p info : Nat) (h : Keeps F s₀ s) :
    Keeps F s₀ (faultEntries p info s) := by
  unfold faultEntries
  try dsimp only
  with_reducible repeat' first
    | assumption | intro _ | apply each_keeps | apply writeCqe_keeps | apply keeps_ite

theorem stopPartition_keeps (hregs : F.regs) (hcore : F.core) (hslc : F.slc) (hhbm : F.hbm) (hque : F.que)
    (hxlt : F.xlt) (hhost : F.host) (hrecs : F.recs) (hout : F.out) (p : Nat) (h : Keeps F s₀ s) :
    Keeps F s₀ (stopPartition p s) := by
  unfold stopPartition
  try dsimp only
  with_reducible repeat' first
    | assumption | exact ring_wf_id | exact Memory.wf_id | intro _ | apply closeKills_keeps | apply dropTroupes_keeps
    | apply dropMovers_keeps | ((fail_if_success (apply keeps_eta)); apply keeps_mk) | exact Or.inl (by assumption)
    | exact Or.inr rfl

theorem setFaulted_keeps (hregs : F.regs) (hprt : F.prt) (p : Nat) (h : Keeps F s₀ s) :
    Keeps F s₀ (setFaulted p s) := by
  unfold setFaulted
  try dsimp only
  with_reducible repeat' first
    | assumption | exact ring_wf_id | exact Memory.wf_id | intro _ | apply each_keeps | apply State.wr_keeps
    | ((fail_if_success (apply keeps_eta)); apply keeps_mk) | exact Or.inl (by assumption) | exact Or.inr rfl
    | apply keeps_ite

theorem partFault_keeps (hregs : F.regs) (hcore : F.core) (hslc : F.slc) (hhbm : F.hbm) (hque : F.que) (hprt : F.prt)
    (hxlt : F.xlt) (hhost : F.host) (hrecs : F.recs) (hout : F.out) (p cause d ctype cseq : Nat) (h : Keeps F s₀ s) :
    Keeps F s₀ (partFault p cause d ctype cseq s) := by
  unfold partFault
  try dsimp only
  with_reducible repeat' first
    | assumption | intro _ | apply stopPartition_keeps | apply setFaulted_keeps | apply emit_keeps
    | apply faultEntries_keeps | apply keeps_ite

theorem faultWith_keeps (hregs : F.regs) (hcore : F.core) (hslc : F.slc) (hhbm : F.hbm) (hque : F.que) (hprt : F.prt)
    (hxlt : F.xlt) (hhost : F.host) (hrecs : F.recs) (hout : F.out) (p cause d unit typ cls : Nat) (payload : List PF)
    (h : Keeps F s₀ s) :
    Keeps F s₀ (faultWith p cause d unit typ cls payload s) := by
  unfold faultWith
  try dsimp only
  with_reducible repeat' first
    | assumption | intro _ | apply emit_keeps | apply partFault_keeps

theorem poisonSector_keeps (hslc : F.slc) (hhbm : F.hbm) (pa : Nat) (h : Keeps F s₀ s) :
    Keeps F s₀ (poisonSector pa s) := by
  unfold poisonSector
  try dsimp only
  repeat' first
    | with_reducible first
      | assumption | intro _ | apply putLine_keeps | apply hbmWrite_keeps | apply keeps_ite | apply keepsO_bind
      | apply keepsO_bindP | apply keepsOP_bind | apply keepsOP_bindP | apply keepsO_bindA | apply keepsOP_bindA
      | refine KeepsOP.of ?_ (by assumption) | refine KeepsOP.pair ?_ (by assumption)
    | split

theorem redBroken_keeps (hregs : F.regs) (hcore : F.core) (hslc : F.slc) (hhbm : F.hbm) (hque : F.que) (hprt : F.prt)
    (hxlt : F.xlt) (hhost : F.host) (hrecs : F.recs) (hout : F.out) (d : Nat) (p : RedPkt) (cause : Nat)
    (h : Keeps F s₀ s) :
    Keeps F s₀ (redBroken d p cause s) := by
  unfold redBroken
  try dsimp only
  with_reducible repeat' first
    | assumption | intro _ | apply State.count_keeps | apply faultWith_keeps

theorem redBreak_keeps (hregs : F.regs) (hcore : F.core) (hslc : F.slc) (hhbm : F.hbm) (hnet : F.net) (hque : F.que)
    (hprt : F.prt) (hxlt : F.xlt) (hhost : F.host) (hrecs : F.recs) (hout : F.out) (a : Accum) (cause : Nat)
    (h : Keeps F s₀ s) :
    Keeps F s₀ (redBreak a cause s) := by
  unfold redBreak
  try dsimp only
  with_reducible repeat' first
    | assumption | exact ring_wf_id | exact Memory.wf_id | intro _ | apply redBroken_keeps | apply poisonSector_keeps
    | ((fail_if_success (apply keeps_eta)); apply keeps_mk) | exact Or.inl (by assumption) | exact Or.inr rfl

theorem redBreakWhere_keeps (hregs : F.regs) (hcore : F.core) (hslc : F.slc) (hhbm : F.hbm) (hnet : F.net)
    (hque : F.que) (hprt : F.prt) (hxlt : F.xlt) (hhost : F.host) (hrecs : F.recs) (hout : F.out) (f : Accum → Bool)
    (cause : Nat) (h : Keeps F s₀ s) :
    Keeps F s₀ (redBreakWhere f cause s) := by
  unfold redBreakWhere
  try dsimp only
  with_reducible repeat' first
    | assumption | intro _ | apply each_keeps | apply redBreak_keeps

theorem killOnDie_keeps (hregs : F.regs) (hcore : F.core) (hslc : F.slc) (hhbm : F.hbm) (hque : F.que) (hxlt : F.xlt)
    (hrecs : F.recs) (hout : F.out) (d p i c : Nat) (h : Keeps F s₀ s) :
    Keeps F s₀ (killOnDie d p i c s) := by
  unfold killOnDie
  try dsimp only
  with_reducible repeat' first
    | assumption | exact ring_wf_id | exact Memory.wf_id | intro _ | apply dropTroupes_keeps | apply each_keeps
    | apply endLaunch_keeps | apply killMovers_keeps | ((fail_if_success (apply keeps_eta)); apply keeps_mk)
    | exact Or.inl (by assumption) | exact Or.inr rfl | apply keeps_ite

theorem killReaches_keeps (hregs : F.regs) (hcore : F.core) (hslc : F.slc) (hhbm : F.hbm) (hnet : F.net)
    (hque : F.que) (hprt : F.prt) (hxlt : F.xlt) (hhost : F.host) (hrecs : F.recs) (hout : F.out) (d p i c : Nat)
    (h : Keeps F s₀ s) :
    Keeps F s₀ (killReaches d p i c s) := by
  unfold killReaches
  try dsimp only
  with_reducible repeat' first
    | assumption | intro _ | apply closeKills_keeps | apply killOnDie_keeps | apply redBreakWhere_keeps

theorem contextFault_keeps (hregs : F.regs) (hcore : F.core) (hslc : F.slc) (hhbm : F.hbm) (hnet : F.net)
    (hque : F.que) (hprt : F.prt) (hxlt : F.xlt) (hhost : F.host) (hrecs : F.recs) (hout : F.out) (w : KillWhy)
    (h : Keeps F s₀ s) :
    Keeps F s₀ (contextFault w s) := by
  unfold contextFault
  try dsimp only
  repeat' first
    | with_reducible first
      | assumption | exact ring_wf_id | exact Memory.wf_id | intro _ | apply killReaches_keeps
      | ((fail_if_success (apply keeps_eta)); apply keeps_mk) | exact Or.inl (by assumption) | exact Or.inr rfl
      | apply keeps_ite
    | split

end Sys2Proof.Machine
end

