-- ==== Sys2Proof/Laws/KeepsTranslation.lean ====
section
/-! SUPPORT. What each effect of Machine/Translation.lean may change (see Laws/Keeps.lean). -/

namespace Sys2Proof.Machine

variable {F : Frame} {s₀ s : State}

theorem tlbPut_keeps (hxlt : F.xlt) (e : Tlb) (h : Keeps F s₀ s) :
    Keeps F s₀ (tlbPut e s) := by
  unfold tlbPut
  try dsimp only
  with_reducible repeat' first
    | assumption | exact ring_wf_id | exact Memory.wf_id | intro _
    | ((fail_if_success (apply keeps_eta)); apply keeps_mk) | exact Or.inl (by assumption) | exact Or.inr rfl

theorem tlbLook_keeps (hregs : F.regs) (hxlt : F.xlt) (level unit : Nat) (b : XBy) (va : Nat) (h : Keeps F s₀ s) :
    KeepsP F s₀ (tlbLook level unit b va s) := by
  unfold tlbLook
  try dsimp only
  repeat' first
    | with_reducible first
      | assumption | exact ring_wf_id | exact Memory.wf_id | intro _ | apply State.count_keeps | apply tlbPut_keeps
      | ((fail_if_success (apply keeps_eta)); apply keeps_mk) | exact Or.inl (by assumption) | exact Or.inr rfl
      | apply keeps_ite | apply KeepsP.snd | ((fail_if_success (apply KeepsP.eta)); apply KeepsP.mk')
      | apply keepsP_ite | refine KeepsP.of ?_ (by assumption)
    | split

theorem readEntry_keeps (hregs : F.regs) (hslc : F.slc) (hhbm : F.hbm) (hxlt : F.xlt) (hrecs : F.recs) (b : XBy)
    (pa : Nat) (h : Keeps F s₀ s) :
    KeepsOP F s₀ (readEntry b pa s) := by
  unfold readEntry
  try dsimp only
  repeat' first
    | with_reducible first
      | assumption | intro _ | apply accRead_keeps | apply keeps_ite | exact KeepsOP.none | apply KeepsOP.some
      | apply keepsOP_ite | refine KeepsOP.of ?_ (by assumption) | refine KeepsOP.pair ?_ (by assumption)
    | split

theorem ctxRoot_keeps (hregs : F.regs) (hslc : F.slc) (hhbm : F.hbm) (hxlt : F.xlt) (hrecs : F.recs) (b : XBy)
    (h : Keeps F s₀ s) :
    KeepsOP F s₀ (ctxRoot b s) := by
  unfold ctxRoot
  try dsimp only
  repeat' first
    | with_reducible first
      | assumption | exact ring_wf_id | exact Memory.wf_id | intro _ | apply State.count_keeps | apply readEntry_keeps
      | ((fail_if_success (apply keeps_eta)); apply keeps_mk) | exact Or.inl (by assumption) | exact Or.inr rfl
      | apply keeps_ite | exact KeepsOP.none | apply KeepsOP.some | apply keepsOP_ite
      | refine KeepsOP.of ?_ (by assumption) | refine KeepsOP.pair ?_ (by assumption)
    | split

theorem walkFrom_keeps (hregs : F.regs) (hslc : F.slc) (hhbm : F.hbm) (hxlt : F.xlt) (hrecs : F.recs) (b : XBy)
    (va x3 x4 : Nat) (h : Keeps F s₀ s) :
    KeepsOP F s₀ (walkFrom b va x3 x4 s) := by
  induction x3 generalizing b va x4 s with
  | zero =>
    unfold walkFrom
    try dsimp only
    repeat' first
      | with_reducible first
        | assumption | intro _ | apply readEntry_keeps | apply keeps_ite | exact KeepsOP.none | apply KeepsOP.some
      | split
  | succ n_ ih =>
    unfold walkFrom
    try dsimp only
    repeat' first
      | with_reducible first
        | assumption | intro _ | apply readEntry_keeps | apply ih | apply keeps_ite | exact KeepsOP.none
        | apply KeepsOP.some | apply keepsOP_ite | refine KeepsOP.of ?_ (by assumption)
        | refine KeepsOP.pair ?_ (by assumption)
      | split

theorem walk_keeps (hregs : F.regs) (hslc : F.slc) (hhbm : F.hbm) (hxlt : F.xlt) (hrecs : F.recs) (b : XBy) (va : Nat)
    (h : Keeps F s₀ s) :
    KeepsOP F s₀ (walk b va s) := by
  unfold walk
  try dsimp only
  repeat' first
    | with_reducible first
      | assumption | intro _ | apply ctxRoot_keeps | apply State.count_keeps | apply walkFrom_keeps
      | apply State.peak_keeps | exact KeepsOP.none | apply KeepsOP.some | refine KeepsOP.of ?_ (by assumption)
      | refine KeepsOP.pair ?_ (by assumption)
    | split

theorem translate_keeps (hregs : F.regs) (hslc : F.slc) (hhbm : F.hbm) (hxlt : F.xlt) (hrecs : F.recs) (b : XBy)
    (va : Nat) (w : Want3) (h : Keeps F s₀ s) :
    KeepsOP F s₀ (translate b va w s) := by
  unfold translate
  try dsimp only
  repeat' first
    | with_reducible first
      | assumption | intro _ | apply tlbLook_keeps | apply State.count_keeps | apply tlbPut_keeps | apply walk_keeps
      | apply keeps_ite | exact KeepsOP.none | apply KeepsOP.some | apply keepsOP_ite | apply KeepsP.snd
      | ((fail_if_success (apply KeepsP.eta)); apply KeepsP.mk') | apply keepsP_ite
      | refine KeepsOP.of ?_ (by assumption) | refine KeepsOP.pair ?_ (by assumption)
      | refine KeepsP.of ?_ (by assumption)
    | split

theorem dropCopies_keeps (hxlt : F.xlt) (x : XInval) (h : Keeps F s₀ s) :
    Keeps F s₀ (dropCopies x s) := by
  unfold dropCopies
  try dsimp only
  with_reducible repeat' first
    | assumption | exact ring_wf_id | exact Memory.wf_id | intro _
    | ((fail_if_success (apply keeps_eta)); apply keeps_mk) | exact Or.inl (by assumption) | exact Or.inr rfl

theorem dropPartCopies_keeps (hque : F.que) (hxlt : F.xlt) (p : Nat) (h : Keeps F s₀ s) :
    Keeps F s₀ (dropPartCopies p s) := by
  unfold dropPartCopies
  try dsimp only
  with_reducible repeat' first
    | assumption | exact ring_wf_id | exact Memory.wf_id | intro _ | apply dropCopies_keeps
    | ((fail_if_success (apply keeps_eta)); apply keeps_mk) | exact Or.inl (by assumption) | exact Or.inr rfl

theorem dropInstCopies_keeps (hque : F.que) (hxlt : F.xlt) (p i : Nat) (h : Keeps F s₀ s) :
    Keeps F s₀ (dropInstCopies p i s) := by
  unfold dropInstCopies
  try dsimp only
  with_reducible repeat' first
    | assumption | exact ring_wf_id | exact Memory.wf_id | intro _ | apply dropCopies_keeps
    | ((fail_if_success (apply keeps_eta)); apply keeps_mk) | exact Or.inl (by assumption) | exact Or.inr rfl

theorem invStatus_keeps (hregs : F.regs) (d : Nat) (h : Keeps F s₀ s) :
    Keeps F s₀ (invStatus d s) := by
  unfold invStatus
  try dsimp only
  with_reducible repeat' first
    | assumption | intro _ | apply State.wr_keeps

theorem invalEnd_keeps (hregs : F.regs) (hxlt : F.xlt) (x : XInval) (result : Nat) (h : Keeps F s₀ s) :
    Keeps F s₀ (invalEnd x result s) := by
  unfold invalEnd
  try dsimp only
  with_reducible repeat' first
    | assumption | exact ring_wf_id | exact Memory.wf_id | intro _ | apply State.count_keeps | apply invStatus_keeps
    | apply State.wr_keeps | ((fail_if_success (apply keeps_eta)); apply keeps_mk) | exact Or.inl (by assumption)
    | exact Or.inr rfl | apply keeps_ite

theorem drainInvals_keeps (hregs : F.regs) (hxlt : F.xlt) (d x2 : Nat) (h : Keeps F s₀ s) :
    Keeps F s₀ (drainInvals d x2 s) := by
  induction x2 generalizing d s with
  | zero =>
    unfold drainInvals
    try dsimp only
    repeat' first
      | with_reducible first
        | assumption
      | split
  | succ n_ ih =>
    unfold drainInvals
    try dsimp only
    repeat' first
      | with_reducible first
        | assumption | intro _ | apply dropCopies_keeps | apply invalEnd_keeps | apply ih | apply keeps_ite
      | split

theorem invalidate_keeps (hregs : F.regs) (hxlt : F.xlt) (x : XInval) (h : Keeps F s₀ s) :
    Keeps F s₀ (invalidate x s) := by
  unfold invalidate
  try dsimp only
  with_reducible repeat' first
    | assumption | exact ring_wf_id | exact Memory.wf_id | intro _ | apply State.wr_keeps | apply State.count_keeps
    | apply drainInvals_keeps | apply invStatus_keeps | ((fail_if_success (apply keeps_eta)); apply keeps_mk)
    | exact Or.inl (by assumption) | exact Or.inr rfl | apply keeps_ite

theorem wardDenied_keeps (hregs : F.regs) (hrecs : F.recs) (d off : Nat) (src : Source) (h : Keeps F s₀ s) :
    Keeps F s₀ (wardDenied d off src s) := by
  unfold wardDenied
  try dsimp only
  repeat' first
    | with_reducible first
      | assumption | intro _ | apply emit_keeps | apply State.count_keeps
    | split

theorem invCommand_keeps (hregs : F.regs) (hxlt : F.xlt) (hrecs : F.recs) (d scope part inst ctx count : Nat)
    (src : Source) (h : Keeps F s₀ s) :
    Keeps F s₀ (invCommand d scope part inst ctx count src s) := by
  unfold invCommand
  try dsimp only
  with_reducible repeat' first
    | assumption | intro _ | apply State.wr_keeps | apply invalidate_keeps | apply wardDenied_keeps | apply keeps_ite

theorem execXltInvalRange_keeps (hregs : F.regs) (hxlt : F.xlt) (hrecs : F.recs) (d part inst ctx count : Nat)
    (src : Source) (h : Keeps F s₀ s) :
    KeepsX F s₀ (execXltInvalRange d part inst ctx count src s) := by
  unfold execXltInvalRange
  try dsimp only
  with_reducible repeat' first
    | assumption | intro _ | apply onDie_keeps | apply invCommand_keeps

theorem execXltInvalContext_keeps (hregs : F.regs) (hxlt : F.xlt) (hrecs : F.recs) (d part inst ctx : Nat)
    (src : Source) (h : Keeps F s₀ s) :
    KeepsX F s₀ (execXltInvalContext d part inst ctx src s) := by
  unfold execXltInvalContext
  try dsimp only
  with_reducible repeat' first
    | assumption | intro _ | apply onDie_keeps | apply invCommand_keeps

theorem execXltInvalInstance_keeps (hregs : F.regs) (hxlt : F.xlt) (hrecs : F.recs) (d part inst : Nat) (src : Source)
    (h : Keeps F s₀ s) :
    KeepsX F s₀ (execXltInvalInstance d part inst src s) := by
  unfold execXltInvalInstance
  try dsimp only
  with_reducible repeat' first
    | assumption | intro _ | apply onDie_keeps | apply invCommand_keeps

theorem execXltInvalPartition_keeps (hregs : F.regs) (hxlt : F.xlt) (hrecs : F.recs) (d part : Nat) (src : Source)
    (h : Keeps F s₀ s) :
    KeepsX F s₀ (execXltInvalPartition d part src s) := by
  unfold execXltInvalPartition
  try dsimp only
  with_reducible repeat' first
    | assumption | intro _ | apply onDie_keeps | apply invCommand_keeps

theorem invTimeout_keeps (hregs : F.regs) (hcore : F.core) (hslc : F.slc) (hhbm : F.hbm) (hque : F.que) (hprt : F.prt)
    (hxlt : F.xlt) (hhost : F.host) (hrecs : F.recs) (hout : F.out) (d silent : Nat) (h : Keeps F s₀ s) :
    Keeps F s₀ (invTimeout d silent s) := by
  unfold invTimeout
  try dsimp only
  repeat' first
    | with_reducible first
      | assumption | intro _ | apply faultWith_keeps | apply drainInvals_keeps | apply invalEnd_keeps
      | apply keeps_ite
    | split

theorem execXltInvTimeout_keeps (hregs : F.regs) (hcore : F.core) (hslc : F.slc) (hhbm : F.hbm) (hque : F.que)
    (hprt : F.prt) (hxlt : F.xlt) (hhost : F.host) (hrecs : F.recs) (hout : F.out) (d silent : Nat) (h : Keeps F s₀ s)
    :
    KeepsX F s₀ (execXltInvTimeout d silent s) := by
  unfold execXltInvTimeout
  try dsimp only
  with_reducible repeat' first
    | assumption | intro _ | apply onDie_keeps | apply invTimeout_keeps

theorem ctxBaseWrite_keeps (hregs : F.regs) (hxlt : F.xlt) (hrecs : F.recs) (d j : Nat) (src : Source) (v : Word)
    (h : Keeps F s₀ s) :
    Keeps F s₀ (ctxBaseWrite d j src v s) := by
  unfold ctxBaseWrite
  try dsimp only
  repeat' first
    | with_reducible first
      | assumption | exact ring_wf_id | exact Memory.wf_id | intro _ | apply State.wr_keeps | apply wardDenied_keeps
      | apply each_keeps | apply drainInvals_keeps | apply invStatus_keeps
      | ((fail_if_success (apply keeps_eta)); apply keeps_mk) | exact Or.inl (by assumption) | exact Or.inr rfl
      | apply keeps_ite
    | split

theorem execXltCtxBaseWrite_keeps (hregs : F.regs) (hxlt : F.xlt) (hrecs : F.recs) (d j : Nat) (src : Source)
    (v : Word) (h : Keeps F s₀ s) :
    KeepsX F s₀ (execXltCtxBaseWrite d j src v s) := by
  unfold execXltCtxBaseWrite
  try dsimp only
  repeat' first
    | with_reducible first
      | assumption | intro _ | apply onDie_keeps | apply ctxBaseWrite_keeps | apply keeps_ite
    | split

theorem pageWalk_keeps (hregs : F.regs) (hslc : F.slc) (hhbm : F.hbm) (hxlt : F.xlt) (hrecs : F.recs)
    (d cluster part inst ctx va : Nat) (write exec : Bool) (h : Keeps F s₀ s) :
    Keeps F s₀ (pageWalk d cluster part inst ctx va write exec s) := by
  unfold pageWalk
  try dsimp only
  repeat' first
    | with_reducible first
      | assumption | intro _ | apply translate_keeps | apply keeps_ite | exact KeepsOP.none | apply KeepsOP.some
      | apply keepsOP_ite | refine KeepsOP.of ?_ (by assumption) | refine KeepsOP.pair ?_ (by assumption)
    | split

theorem execPageWalk_keeps (hregs : F.regs) (hslc : F.slc) (hhbm : F.hbm) (hxlt : F.xlt) (hrecs : F.recs)
    (d cluster part inst ctx va : Nat) (write exec : Bool) (h : Keeps F s₀ s) :
    KeepsX F s₀ (execPageWalk d cluster part inst ctx va write exec s) := by
  unfold execPageWalk
  try dsimp only
  with_reducible repeat' first
    | assumption | intro _ | apply onDie_keeps | apply pageWalk_keeps

end Sys2Proof.Machine
end

