-- ==== Sys2Proof/Laws/KeepsQueues.lean ====
section
/-! SUPPORT. What each effect of Machine/Queues.lean may change (see Laws/Keeps.lean). -/

namespace Sys2Proof.Machine

variable {F : Frame} {s₀ s : State}

theorem chargeDoorbell_keeps (hque : F.que) (q : Nat) (h : Keeps F s₀ s) :
    Keeps F s₀ (chargeDoorbell q s) := by
  unfold chargeDoorbell
  try dsimp only
  with_reducible repeat' first
    | assumption | intro _ | apply charge_keeps | apply keeps_ite

theorem releaseDoorbells_keeps (hque : F.que) (q x2 : Nat) (h : Keeps F s₀ s) :
    Keeps F s₀ (releaseDoorbells q x2 s) := by
  induction x2 generalizing q s with
  | zero =>
    unfold releaseDoorbells
    try dsimp only
    repeat' first
      | with_reducible first
        | assumption
      | split
  | succ n_ ih =>
    unfold releaseDoorbells
    try dsimp only
    repeat' first
      | with_reducible first
        | assumption | exact ring_wf_id | exact Memory.wf_id | intro _ | apply chargeDoorbell_keeps | apply ih
        | ((fail_if_success (apply keeps_eta)); apply keeps_mk) | exact Or.inl (by assumption) | exact Or.inr rfl
        | apply keeps_ite
      | split

theorem doorbellBad_keeps (hregs : F.regs) (hrecs : F.recs) (d q reason fn : Nat) (sealed_ : Bool) (v : Word)
    (h : Keeps F s₀ s) :
    Keeps F s₀ (doorbellBad d q reason fn sealed_ v s) := by
  unfold doorbellBad
  try dsimp only
  with_reducible repeat' first
    | assumption | intro _ | apply emit_keeps | apply State.count_keeps

theorem acceptIndex_keeps (hregs : F.regs) (hque : F.que) (q : Nat) (v : Word) (h : Keeps F s₀ s) :
    Keeps F s₀ (acceptIndex q v s) := by
  unfold acceptIndex
  try dsimp only
  with_reducible repeat' first
    | assumption | exact ring_wf_id | exact Memory.wf_id | intro _ | apply State.wr_keeps | apply chargeDoorbell_keeps
    | apply State.count_keeps | ((fail_if_success (apply keeps_eta)); apply keeps_mk) | exact Or.inl (by assumption)
    | exact Or.inr rfl | apply keeps_ite

theorem queueDoorbell_keeps (hregs : F.regs) (hque : F.que) (hrecs : F.recs) (q fn : Nat) (v : Word)
    (h : Keeps F s₀ s) :
    Keeps F s₀ (queueDoorbell q fn v s) := by
  unfold queueDoorbell
  try dsimp only
  with_reducible repeat' first
    | assumption | intro _ | apply doorbellBad_keeps | apply acceptIndex_keeps | apply keeps_ite

theorem doorbell_keeps (hregs : F.regs) (hque : F.que) (hrecs : F.recs) (port fn : Nat) (pasid : Option (BitVec 20))
    (window len : Nat) (v : Word) (h : Keeps F s₀ s) :
    Keeps F s₀ (doorbell port fn pasid window len v s) := by
  unfold doorbell
  try dsimp only
  repeat' first
    | with_reducible first
      | assumption | intro _ | apply doorbellBad_keeps | apply queueDoorbell_keeps | apply keeps_ite
    | split

theorem execDoorbell_keeps (hregs : F.regs) (hque : F.que) (hrecs : F.recs) (port fn : Nat)
    (pasid : Option (BitVec 20)) (window len : Nat) (v : Word) (h : Keeps F s₀ s) :
    KeepsX F s₀ (execDoorbell port fn pasid window len v s) := by
  unfold execDoorbell
  try dsimp only
  repeat' first
    | with_reducible first
      | assumption | intro _ | apply onDie_keeps | apply doorbell_keeps | apply keeps_ite
    | split

theorem clearQueue_keeps (hregs : F.regs) (hque : F.que) (q : Nat) (h : Keeps F s₀ s) :
    Keeps F s₀ (clearQueue q s) := by
  unfold clearQueue
  try dsimp only
  with_reducible repeat' first
    | assumption | exact ring_wf_id | exact Memory.wf_id | intro _ | apply each_keeps | apply detachIds_keeps
    | apply State.wr_keeps | ((fail_if_success (apply keeps_eta)); apply keeps_mk) | exact Or.inl (by assumption)
    | exact Or.inr rfl

theorem setEnable_keeps (hregs : F.regs) (hque : F.que) (q : Nat) (on : Bool) (h : Keeps F s₀ s) :
    Keeps F s₀ (setEnable q on s) := by
  unfold setEnable
  try dsimp only
  with_reducible repeat' first
    | assumption | exact ring_wf_id | exact Memory.wf_id | intro _ | apply State.wr_keeps
    | ((fail_if_success (apply keeps_eta)); apply keeps_mk) | exact Or.inl (by assumption) | exact Or.inr rfl
    | apply keeps_ite

theorem queCtrlWrite_keeps (hregs : F.regs) (hque : F.que) (hrecs : F.recs) (d n : Nat) (src : Source) (v : Nat)
    (h : Keeps F s₀ s) :
    Keeps F s₀ (queCtrlWrite d n src v s) := by
  unfold queCtrlWrite
  try dsimp only
  with_reducible repeat' first
    | assumption | intro _ | apply wardDenied_keeps | apply State.wr_keeps | apply setEnable_keeps
    | apply clearQueue_keeps | apply keeps_ite

theorem execQueEnable_keeps (hregs : F.regs) (hque : F.que) (hrecs : F.recs) (d n : Nat) (src : Source) (v : Word)
    (h : Keeps F s₀ s) :
    KeepsX F s₀ (execQueEnable d n src v s) := by
  unfold execQueEnable
  try dsimp only
  repeat' first
    | with_reducible first
      | assumption | intro _ | apply onDie_keeps | apply queCtrlWrite_keeps | apply keeps_ite
    | split

theorem execQueReset_keeps (hregs : F.regs) (hque : F.que) (hrecs : F.recs) (d n : Nat) (src : Source)
    (h : Keeps F s₀ s) :
    KeepsX F s₀ (execQueReset d n src s) := by
  unfold execQueReset
  try dsimp only
  repeat' first
    | with_reducible first
      | assumption | intro _ | apply onDie_keeps | apply queCtrlWrite_keeps | apply keeps_ite
    | split

end Sys2Proof.Machine
end

