-- ==== Sys2Proof/Laws/KeepsResets.lean ====
section
/-! SUPPORT. What each effect of Machine/Resets.lean may change (see Laws/Keeps.lean). -/

namespace Sys2Proof.Machine

variable {F : Frame} {s₀ s : State}

theorem clearQueRegs_keeps (hregs : F.regs) (q : Nat) (h : Keeps F s₀ s) :
    Keeps F s₀ (clearQueRegs q s) := by
  unfold clearQueRegs
  try dsimp only
  with_reducible repeat' first
    | assumption | intro _ | apply State.wr_keeps

theorem resetQueue_keeps (hregs : F.regs) (hque : F.que) (q : Nat) (h : Keeps F s₀ s) :
    Keeps F s₀ (resetQueue q s) := by
  unfold resetQueue
  try dsimp only
  with_reducible repeat' first
    | assumption | exact ring_wf_id | exact Memory.wf_id | intro _ | apply each_keeps | apply detachIds_keeps
    | apply clearQueRegs_keeps | ((fail_if_success (apply keeps_eta)); apply keeps_mk) | exact Or.inl (by assumption)
    | exact Or.inr rfl

theorem freeSeqs_keeps (hque : F.que) (f : SeqSlot → Bool) (h : Keeps F s₀ s) :
    Keeps F s₀ (freeSeqs f s) := by
  unfold freeSeqs
  try dsimp only
  with_reducible repeat' first
    | assumption | exact ring_wf_id | exact Memory.wf_id | intro _
    | ((fail_if_success (apply keeps_eta)); apply keeps_mk) | exact Or.inl (by assumption) | exact Or.inr rfl

theorem dropWork_keeps (hcore : F.core) (hslc : F.slc) (hque : F.que) (hhost : F.host) (pt : Troupe → Bool)
    (pl : Launch → Bool) (pm : Mover → Bool) (h : Keeps F s₀ s) :
    Keeps F s₀ (dropWork pt pl pm s) := by
  unfold dropWork
  try dsimp only
  with_reducible repeat' first
    | assumption | exact ring_wf_id | exact Memory.wf_id | intro _ | apply dropMovers_keeps | apply dropTroupes_keeps
    | ((fail_if_success (apply keeps_eta)); apply keeps_mk) | exact Or.inl (by assumption) | exact Or.inr rfl

theorem dropKills_keeps (hcore : F.core) (f : OpenKill → Bool) (h : Keeps F s₀ s) :
    Keeps F s₀ (dropKills f s) := by
  unfold dropKills
  try dsimp only
  with_reducible repeat' first
    | assumption | exact ring_wf_id | exact Memory.wf_id | intro _
    | ((fail_if_success (apply keeps_eta)); apply keeps_mk) | exact Or.inl (by assumption) | exact Or.inr rfl

theorem instResetEffects_keeps (hregs : F.regs) (hcore : F.core) (hslc : F.slc) (hque : F.que) (hxlt : F.xlt)
    (hhost : F.host) (p i : Nat) (h : Keeps F s₀ s) :
    Keeps F s₀ (instResetEffects p i s) := by
  unfold instResetEffects
  try dsimp only
  with_reducible repeat' first
    | assumption | intro _ | apply clearPending_keeps | apply setInstState_keeps | apply dropWork_keeps
    | apply dropKills_keeps | apply each_keeps | apply resetQueue_keeps | apply dropInstCopies_keeps
    | apply freeSeqs_keeps

theorem startInstReset_keeps (hregs : F.regs) (hcore : F.core) (hslc : F.slc) (hhbm : F.hbm) (hnet : F.net)
    (hque : F.que) (hprt : F.prt) (hxlt : F.xlt) (hhost : F.host) (hrecs : F.recs) (hout : F.out) (d p i origin : Nat)
    (waiters : List Nat) (h : Keeps F s₀ s) :
    Keeps F s₀ (startInstReset d p i origin waiters s) := by
  unfold startInstReset
  try dsimp only
  with_reducible repeat' first
    | assumption | exact ring_wf_id | exact Memory.wf_id | intro _ | apply redBreakWhere_keeps
    | apply instResetEffects_keeps | ((fail_if_success (apply keeps_eta)); apply keeps_mk)
    | exact Or.inl (by assumption) | exact Or.inr rfl

theorem joinReset_keeps (hprt : F.prt) (p : Nat) (i : Option Nat) (waiters : List Nat) (h : Keeps F s₀ s) :
    Keeps F s₀ (joinReset p i waiters s) := by
  unfold joinReset
  try dsimp only
  with_reducible repeat' first
    | assumption | exact ring_wf_id | exact Memory.wf_id | intro _ | apply foldl_keeps | apply keepsP_foldl
    | apply keepsQ_foldl | ((fail_if_success (apply keeps_eta)); apply keeps_mk) | exact Or.inl (by assumption)
    | exact Or.inr rfl

theorem instReset_keeps (hregs : F.regs) (hcore : F.core) (hslc : F.slc) (hhbm : F.hbm) (hnet : F.net) (hque : F.que)
    (hprt : F.prt) (hxlt : F.xlt) (hhost : F.host) (hrecs : F.recs) (hout : F.out) (d p i origin : Nat)
    (waiters : List Nat) (h : Keeps F s₀ s) :
    Keeps F s₀ (instReset d p i origin waiters s) := by
  unfold instReset
  try dsimp only
  with_reducible repeat' first
    | assumption | intro _ | apply joinReset_keeps | apply startInstReset_keeps | apply keeps_ite

theorem fillBuckets_keeps (hque : F.que) (p i : Nat) (h : Keeps F s₀ s) :
    Keeps F s₀ (fillBuckets p i s) := by
  unfold fillBuckets
  try dsimp only
  with_reducible repeat' first
    | assumption | exact ring_wf_id | exact Memory.wf_id | intro _ | apply each_keeps
    | ((fail_if_success (apply keeps_eta)); apply keeps_mk) | exact Or.inl (by assumption) | exact Or.inr rfl

theorem endInstReset_keeps (hregs : F.regs) (hque : F.que) (p i : Nat) (h : Keeps F s₀ s) :
    Keeps F s₀ (endInstReset p i s) := by
  unfold endInstReset
  try dsimp only
  with_reducible repeat' first
    | assumption | intro _ | apply fillBuckets_keeps | apply setInstState_keeps

theorem flushGuest_keeps (hslc : F.slc) (hhbm : F.hbm) (l : Line) (h : Keeps F s₀ s) :
    Keeps F s₀ (flushGuest l s) := by
  unfold flushGuest
  try dsimp only
  repeat' first
    | with_reducible first
      | assumption | intro _ | apply homeWrite_keeps | apply keeps_ite
    | split

theorem flushDirty_keeps (hslc : F.slc) (hhbm : F.hbm) (p : Nat) (h : Keeps F s₀ s) :
    Keeps F s₀ (flushDirty p s) := by
  unfold flushDirty
  try dsimp only
  with_reducible repeat' first
    | assumption | intro _ | apply each_keeps | apply flushGuest_keeps | apply writeBack_keeps

theorem dropLines_keeps (hslc : F.slc) (p : Nat) (h : Keeps F s₀ s) :
    Keeps F s₀ (dropLines p s) := by
  unfold dropLines
  try dsimp only
  with_reducible repeat' first
    | assumption | exact ring_wf_id | exact Memory.wf_id | intro _
    | ((fail_if_success (apply keeps_eta)); apply keeps_mk) | exact Or.inl (by assumption) | exact Or.inr rfl

theorem cacheActions_keeps (hslc : F.slc) (hhbm : F.hbm) (p : Nat) (h : Keeps F s₀ s) :
    Keeps F s₀ (cacheActions p s) := by
  unfold cacheActions
  try dsimp only
  with_reducible repeat' first
    | assumption | intro _ | apply dropLines_keeps | apply flushDirty_keeps

theorem unpinPart_keeps (hslc : F.slc) (p : Nat) (h : Keeps F s₀ s) :
    Keeps F s₀ (unpinPart p s) := by
  unfold unpinPart
  try dsimp only
  with_reducible repeat' first
    | assumption | exact ring_wf_id | exact Memory.wf_id | intro _
    | ((fail_if_success (apply keeps_eta)); apply keeps_mk) | exact Or.inl (by assumption) | exact Or.inr rfl

theorem zeroClusters_keeps (hcore : F.core) (x1 : Nat) (h : Keeps F s₀ s) :
    Keeps F s₀ (zeroClusters x1 s) := by
  unfold zeroClusters
  try dsimp only
  with_reducible repeat' first
    | assumption | exact ring_wf_id | exact Memory.wf_id | intro _
    | ((fail_if_success (apply keeps_eta)); apply keeps_mk) | exact Or.inl (by assumption) | exact Or.inr rfl

theorem partResetEffects_keeps (hregs : F.regs) (hcore : F.core) (hslc : F.slc) (hhbm : F.hbm) (hnet : F.net)
    (hque : F.que) (hxlt : F.xlt) (hhost : F.host) (p : Nat) (h : Keeps F s₀ s) :
    Keeps F s₀ (partResetEffects p s) := by
  unfold partResetEffects
  try dsimp only
  with_reducible repeat' first
    | assumption | exact ring_wf_id | exact Memory.wf_id | intro _ | apply setPartState_keeps | apply each_keeps
    | apply instResetEffects_keeps | apply dropWork_keeps | apply dropKills_keeps | apply zeroClusters_keeps
    | apply cacheActions_keeps | ((fail_if_success (apply keeps_eta)); apply keeps_mk) | exact Or.inl (by assumption)
    | exact Or.inr rfl | apply keeps_ite

theorem endPartReset_keeps (hregs : F.regs) (hque : F.que) (hprt : F.prt) (p : Nat) (h : Keeps F s₀ s) :
    Keeps F s₀ (endPartReset p s) := by
  unfold endPartReset
  try dsimp only
  with_reducible repeat' first
    | assumption | exact ring_wf_id | exact Memory.wf_id | intro _ | apply each_keeps | apply endInstReset_keeps
    | apply setPartState_keeps | ((fail_if_success (apply keeps_eta)); apply keeps_mk) | exact Or.inl (by assumption)
    | exact Or.inr rfl

theorem resetDieRegs_keeps (hregs : F.regs) (d : Nat) (h : Keeps F s₀ s) :
    Keeps F s₀ (resetDieRegs d s) := by
  unfold resetDieRegs
  try dsimp only
  with_reducible repeat' first
    | assumption | intro _ | apply each_keeps | apply State.wr_keeps | apply State.resetRegs_keeps

theorem dieLeavesKills_keeps (hregs : F.regs) (hcore : F.core) (hslc : F.slc) (hhbm : F.hbm) (hque : F.que)
    (hxlt : F.xlt) (hrecs : F.recs) (hout : F.out) (d : Nat) (h : Keeps F s₀ s) :
    Keeps F s₀ (dieLeavesKills d s) := by
  unfold dieLeavesKills
  try dsimp only
  with_reducible repeat' first
    | assumption | exact ring_wf_id | exact Memory.wf_id | intro _ | apply dropKills_keeps | apply closeKills_keeps
    | ((fail_if_success (apply keeps_eta)); apply keeps_mk) | exact Or.inl (by assumption) | exact Or.inr rfl

theorem scrubDie_keeps (hregs : F.regs) (hcore : F.core) (hslc : F.slc) (hhbm : F.hbm) (hque : F.que) (hxlt : F.xlt)
    (hhost : F.host) (hrecs : F.recs) (hout : F.out) (d : Nat) (h : Keeps F s₀ s) :
    Keeps F s₀ (scrubDie d s) := by
  unfold scrubDie
  try dsimp only
  with_reducible repeat' first
    | assumption | exact ring_wf_id | exact Memory.wf_id | intro _ | apply dieLeavesKills_keeps
    | apply dropMovers_keeps | apply dropTroupes_keeps | ((fail_if_success (apply keeps_eta)); apply keeps_mk)
    | exact Or.inl (by assumption) | exact Or.inr rfl

theorem emptyDie_keeps (hnet : F.net) (hque : F.que) (hprt : F.prt) (hxlt : F.xlt) (d : Nat) (h : Keeps F s₀ s) :
    Keeps F s₀ (emptyDie d s) := by
  unfold emptyDie
  try dsimp only
  with_reducible repeat' first
    | assumption | exact ring_wf_id | exact Memory.wf_id | intro _ | apply freeSeqs_keeps
    | ((fail_if_success (apply keeps_eta)); apply keeps_mk) | exact Or.inl (by assumption) | exact Or.inr rfl

theorem settleAts_keeps (hregs : F.regs) (hhost : F.host) (h : Keeps F s₀ s) :
    Keeps F s₀ (settleAts s) := by
  unfold settleAts
  try dsimp only
  with_reducible repeat' first
    | assumption | exact ring_wf_id | exact Memory.wf_id | intro _ | apply each_keeps | apply State.count_keeps
    | ((fail_if_success (apply keeps_eta)); apply keeps_mk) | exact Or.inl (by assumption) | exact Or.inr rfl

theorem portReset_keeps (hregs : F.regs) (hhost : F.host) (d : Nat) (h : Keeps F s₀ s) :
    Keeps F s₀ (portReset d s) := by
  unfold portReset
  try dsimp only
  repeat' first
    | with_reducible first
      | assumption | exact ring_wf_id | exact Memory.wf_id | intro _ | apply settleAts_keeps
      | ((fail_if_success (apply keeps_eta)); apply keeps_mk) | exact Or.inl (by assumption) | exact Or.inr rfl
    | split

theorem bootReset_keeps (hboot : F.boot) (himg : F.img) (d : Nat) (h : Keeps F s₀ s) :
    Keeps F s₀ (bootReset d s) := by
  unfold bootReset
  try dsimp only
  with_reducible repeat' first
    | assumption | exact ring_wf_id | exact Memory.wf_id | intro _
    | ((fail_if_success (apply keeps_eta)); apply keeps_mk) | exact Or.inl (by assumption) | exact Or.inr rfl

theorem markRing_keeps (hrecs : F.recs) (d : Nat) (h : Keeps F s₀ s) :
    Keeps F s₀ (markRing d s) := by
  unfold markRing
  try dsimp only
  with_reducible repeat' first
    | assumption | exact ring_wf_id | exact Memory.wf_id | intro _
    | ((fail_if_success (apply keeps_eta)); apply keeps_mk) | exact Or.inl (by assumption) | exact Or.inr rfl
    | apply keeps_ite

theorem stagingAtReset_keeps (hregs : F.regs) (hrecs : F.recs) (d : Nat) (lost : Bool) (h : Keeps F s₀ s) :
    Keeps F s₀ (stagingAtReset d lost s) := by
  unfold stagingAtReset
  try dsimp only
  with_reducible repeat' first
    | assumption | exact ring_wf_id | exact Memory.wf_id | intro _ | apply loseStaging_keeps | apply drainAll_keeps
    | ((fail_if_success (apply keeps_eta)); apply keeps_mk) | exact Or.inl (by assumption) | exact Or.inr rfl
    | apply keeps_ite

theorem dieReset_keeps (hregs : F.regs) (hrack : F.rack) (hboot : F.boot) (himg : F.img) (hcore : F.core)
    (hslc : F.slc) (hhbm : F.hbm) (hnet : F.net) (hque : F.que) (hprt : F.prt) (hxlt : F.xlt) (hhost : F.host)
    (hrecs : F.recs) (hout : F.out) (d cause : Nat) (h : Keeps F s₀ s) :
    Keeps F s₀ (dieReset d cause s) := by
  unfold dieReset
  try dsimp only
  with_reducible repeat' first
    | assumption | exact ring_wf_id | exact Memory.wf_id | intro _ | apply markRing_keeps | apply stagingAtReset_keeps
    | apply resetDieRegs_keeps | apply portReset_keeps | apply bootReset_keeps | apply emptyDie_keeps
    | apply scrubDie_keeps | apply State.wr_keeps | ((fail_if_success (apply keeps_eta)); apply keeps_mk)
    | exact Or.inl (by assumption)

theorem dieUnpower_keeps (hregs : F.regs) (hrack : F.rack) (hboot : F.boot) (himg : F.img) (hcore : F.core)
    (hslc : F.slc) (hhbm : F.hbm) (hnet : F.net) (hque : F.que) (hprt : F.prt) (hxlt : F.xlt) (hhost : F.host)
    (hrecs : F.recs) (hout : F.out) (d : Nat) (h : Keeps F s₀ s) :
    Keeps F s₀ (dieUnpower d s) := by
  unfold dieUnpower
  try dsimp only
  with_reducible repeat' first
    | assumption | exact ring_wf_id | exact Memory.wf_id | exact ring_wf_put _ _ _ _ _
    | exact SMap.wf_clearRange _ _ _ _ | exact Memory.wf_filter _ _ | intro _ | apply loseStaging_keeps
    | apply portReset_keeps | apply bootReset_keeps | apply emptyDie_keeps | apply scrubDie_keeps
    | apply State.resetRegs_keeps | ((fail_if_success (apply keeps_eta)); apply keeps_mk)
    | exact Or.inl (by assumption)

theorem resetRecord_keeps (hrecs : F.recs) (d level part inst origin us : Nat) (h : Keeps F s₀ s) :
    Keeps F s₀ (resetRecord d level part inst origin us s) := by
  unfold resetRecord
  try dsimp only
  with_reducible repeat' first
    | assumption | intro _ | apply emit_keeps

end Sys2Proof.Machine
end

