-- ==== Sys2Proof/Laws/KeepsGovernor.lean ====
section
/-! SUPPORT. What each effect of Machine/Governor.lean may change (see Laws/Keeps.lean). -/

namespace Sys2Proof.Machine

variable {F : Frame} {s₀ s : State}

theorem setGovB_keeps (hregs : F.regs) (d : Nat) (b : ℤ) (h : Keeps F s₀ s) :
    Keeps F s₀ (setGovB d b s) := by
  unfold setGovB
  try dsimp only
  with_reducible repeat' first
    | assumption | intro _ | apply State.wr_keeps

theorem bucketRefill_keeps (hregs : F.regs) (d : Nat) (h : Keeps F s₀ s) :
    Keeps F s₀ (bucketRefill d s) := by
  unfold bucketRefill
  try dsimp only
  with_reducible repeat' first
    | assumption | intro _ | apply setGovB_keeps

theorem execBucketRefill_keeps (hregs : F.regs) (d : Nat) (h : Keeps F s₀ s) :
    KeepsX F s₀ (execBucketRefill d s) := by
  unfold execBucketRefill
  try dsimp only
  repeat' first
    | with_reducible first
      | assumption | intro _ | apply onDie_keeps | apply bucketRefill_keeps | apply keeps_ite
    | split

theorem requestStep_keeps (hregs : F.regs) (hque : F.que) (d : Nat) (h : Keeps F s₀ s) :
    Keeps F s₀ (requestStep d s) := by
  unfold requestStep
  try dsimp only
  with_reducible repeat' first
    | assumption | exact ring_wf_id | exact Memory.wf_id | intro _ | apply State.wr_keeps
    | ((fail_if_success (apply keeps_eta)); apply keeps_mk) | exact Or.inl (by assumption) | exact Or.inr rfl
    | apply keeps_ite

theorem cclkStepChange_keeps (hregs : F.regs) (hque : F.que) (d : Nat) (h : Keeps F s₀ s) :
    Keeps F s₀ (cclkStepChange d s) := by
  unfold cclkStepChange
  try dsimp only
  repeat' first
    | with_reducible first
      | assumption | exact ring_wf_id | exact Memory.wf_id | intro _ | apply State.count_keeps | apply State.wr_keeps
      | ((fail_if_success (apply keeps_eta)); apply keeps_mk) | exact Or.inl (by assumption) | exact Or.inr rfl
      | apply keeps_ite
    | split

theorem execCclkStepChange_keeps (hregs : F.regs) (hque : F.que) (d : Nat) (h : Keeps F s₀ s) :
    KeepsX F s₀ (execCclkStepChange d s) := by
  unfold execCclkStepChange
  try dsimp only
  with_reducible repeat' first
    | assumption | intro _ | apply onDie_keeps | apply cclkStepChange_keeps

theorem govRefresh_keeps (hregs : F.regs) (hque : F.que) (d : Nat) (h : Keeps F s₀ s) :
    Keeps F s₀ (govRefresh d s) := by
  unfold govRefresh
  try dsimp only
  with_reducible repeat' first
    | assumption | intro _ | apply State.wr_keeps | apply requestStep_keeps | apply foldl_keeps | apply keepsP_foldl
    | apply keepsQ_foldl | apply keeps_ite

theorem putMon_keeps (hque : F.que) (m : MonHist) (h : Keeps F s₀ s) :
    Keeps F s₀ (putMon m s) := by
  unfold putMon
  try dsimp only
  with_reducible repeat' first
    | assumption | exact ring_wf_id | exact Memory.wf_id | intro _
    | ((fail_if_success (apply keeps_eta)); apply keeps_mk) | exact Or.inl (by assumption) | exact Or.inr rfl

theorem monEvent_keeps (hregs : F.regs) (hque : F.que) (hrecs : F.recs) (m : MonHist) (ev code : Nat)
    (h : Keeps F s₀ s) :
    Keeps F s₀ (monEvent m ev code s) := by
  unfold monEvent
  try dsimp only
  repeat' first
    | with_reducible first
      | assumption | intro _ | apply State.count_keeps | apply putMon_keeps | apply emit_keeps | apply keeps_ite
    | split

theorem moveEvent_keeps (hregs : F.regs) (hque : F.que) (hrecs : F.recs) (m : MonHist) (f : Fld) (bit ev : Nat)
    (asserts clears : Bool) (h : Keeps F s₀ s) :
    Keeps F s₀ (moveEvent m f bit ev asserts clears s) := by
  unfold moveEvent
  try dsimp only
  with_reducible repeat' first
    | assumption | intro _ | apply State.wrBit_keeps | apply monEvent_keeps | apply keeps_ite

theorem tripDie_keeps (hregs : F.regs) (hrack : F.rack) (hboot : F.boot) (himg : F.img) (hcore : F.core)
    (hslc : F.slc) (hhbm : F.hbm) (hnet : F.net) (hque : F.que) (hprt : F.prt) (hxlt : F.xlt) (hhost : F.host)
    (hrecs : F.recs) (hout : F.out) (d point code : Nat) (h : Keeps F s₀ s) :
    Keeps F s₀ (tripDie d point code s) := by
  unfold tripDie
  try dsimp only
  with_reducible repeat' first
    | assumption | exact ring_wf_id | exact Memory.wf_id | intro _ | apply emit_keeps | apply dieReset_keeps
    | apply State.wr_keeps | ((fail_if_success (apply keeps_eta)); apply keeps_mk) | exact Or.inl (by assumption)

theorem voltEvents_keeps (hregs : F.regs) (hque : F.que) (hrecs : F.recs) (m : MonHist) (lo hi : Nat)
    (h : Keeps F s₀ s) :
    Keeps F s₀ (voltEvents m lo hi s) := by
  unfold voltEvents
  try dsimp only
  with_reducible repeat' first
    | assumption | intro _ | apply moveEvent_keeps

theorem tempEvents_keeps (hregs : F.regs) (hque : F.que) (hrecs : F.recs) (m : MonHist) (lo hi : Nat)
    (h : Keeps F s₀ s) :
    Keeps F s₀ (tempEvents m lo hi s) := by
  unfold tempEvents
  try dsimp only
  with_reducible repeat' first
    | assumption | intro _ | apply moveEvent_keeps | apply each_keeps | apply keeps_ite

theorem monFail_keeps (hregs : F.regs) (hque : F.que) (hrecs : F.recs) (m : MonHist) (h : Keeps F s₀ s) :
    Keeps F s₀ (monFail m s) := by
  unfold monFail
  try dsimp only
  with_reducible repeat' first
    | assumption | intro _ | apply emit_keeps | apply putMon_keeps | apply State.wr_keeps | apply State.wrBit_keeps
    | apply keeps_ite

theorem monitorSample_keeps (hregs : F.regs) (hrack : F.rack) (hboot : F.boot) (himg : F.img) (hcore : F.core)
    (hslc : F.slc) (hhbm : F.hbm) (hnet : F.net) (hque : F.que) (hprt : F.prt) (hxlt : F.xlt) (hhost : F.host)
    (hrecs : F.recs) (hout : F.out) (d i : Nat) (code : BitVec 8) (refOk : Bool) (h : Keeps F s₀ s) :
    Keeps F s₀ (monitorSample d i code refOk s) := by
  unfold monitorSample
  try dsimp only
  with_reducible repeat' first
    | assumption | intro _ | apply monFail_keeps | apply putMon_keeps | apply voltEvents_keeps
    | apply tempEvents_keeps | apply moveEvent_keeps | apply govRefresh_keeps | apply State.wrBit_keeps
    | apply tripDie_keeps | apply keeps_ite

theorem monCfgError_keeps (hregs : F.regs) (hrack : F.rack) (hboot : F.boot) (himg : F.img) (hcore : F.core)
    (hslc : F.slc) (hhbm : F.hbm) (hnet : F.net) (hque : F.que) (hprt : F.prt) (hxlt : F.xlt) (hhost : F.host)
    (hrecs : F.recs) (hout : F.out) (d i : Nat) (h : Keeps F s₀ s) :
    Keeps F s₀ (monCfgError d i s) := by
  unfold monCfgError
  try dsimp only
  with_reducible repeat' first
    | assumption | intro _ | apply govRefresh_keeps | apply monFail_keeps | apply tripDie_keeps | apply keeps_ite

theorem execMonitorSample_keeps (hregs : F.regs) (hrack : F.rack) (hboot : F.boot) (himg : F.img) (hcore : F.core)
    (hslc : F.slc) (hhbm : F.hbm) (hnet : F.net) (hque : F.que) (hprt : F.prt) (hxlt : F.xlt) (hhost : F.host)
    (hrecs : F.recs) (hout : F.out) (d i : Nat) (code : BitVec 8) (refOk : Bool) (h : Keeps F s₀ s) :
    KeepsX F s₀ (execMonitorSample d i code refOk s) := by
  unfold execMonitorSample
  try dsimp only
  repeat' first
    | with_reducible first
      | assumption | intro _ | apply onDie_keeps | apply monitorSample_keeps | apply keeps_ite
    | split

theorem tripRestart_keeps (hregs : F.regs) (hboot : F.boot) (d : Nat) (h : Keeps F s₀ s) :
    Keeps F s₀ (tripRestart d s) := by
  unfold tripRestart
  try dsimp only
  with_reducible repeat' first
    | assumption | exact ring_wf_id | exact Memory.wf_id | intro _ | apply State.wr_keeps
    | ((fail_if_success (apply keeps_eta)); apply keeps_mk) | exact Or.inl (by assumption) | exact Or.inr rfl
    | apply keeps_ite

theorem execTripRestart_keeps (hregs : F.regs) (hboot : F.boot) (d : Nat) (h : Keeps F s₀ s) :
    KeepsX F s₀ (execTripRestart d s) := by
  unfold execTripRestart
  try dsimp only
  with_reducible repeat' first
    | assumption | intro _ | apply onDie_keeps | apply tripRestart_keeps

theorem refillBucket_keeps (hque : F.que) (d p i kind : Nat) (h : Keeps F s₀ s) :
    Keeps F s₀ (refillBucket d p i kind s) := by
  unfold refillBucket
  try dsimp only
  with_reducible repeat' first
    | assumption | intro _ | apply setBucket_keeps | apply keeps_ite

theorem instanceBucketRefill_keeps (hque : F.que) (d : Nat) (h : Keeps F s₀ s) :
    Keeps F s₀ (instanceBucketRefill d s) := by
  unfold instanceBucketRefill
  try dsimp only
  with_reducible repeat' first
    | assumption | intro _ | apply each_keeps | apply refillBucket_keeps | apply releaseDoorbells_keeps

theorem execInstanceBucketRefill_keeps (hque : F.que) (d : Nat) (h : Keeps F s₀ s) :
    KeepsX F s₀ (execInstanceBucketRefill d s) := by
  unfold execInstanceBucketRefill
  try dsimp only
  repeat' first
    | with_reducible first
      | assumption | intro _ | apply onDie_keeps | apply instanceBucketRefill_keeps | apply keeps_ite
    | split

theorem sectorCountReport_keeps (hque : F.que) (d j sectors remote : Nat) (h : Keeps F s₀ s) :
    Keeps F s₀ (sectorCountReport d j sectors remote s) := by
  unfold sectorCountReport
  try dsimp only
  with_reducible repeat' first
    | assumption | intro _ | apply each_keeps | apply reportSectors_keeps | apply keeps_ite

theorem execSectorCountReport_keeps (hque : F.que) (d j sectors remote : Nat) (h : Keeps F s₀ s) :
    KeepsX F s₀ (execSectorCountReport d j sectors remote s) := by
  unfold execSectorCountReport
  try dsimp only
  repeat' first
    | with_reducible first
      | assumption | intro _ | apply onDie_keeps | apply sectorCountReport_keeps | apply keeps_ite
    | split

end Sys2Proof.Machine
end

