-- ==== Sys2Proof/Laws/KeepsSequences.lean ====
section
/-! SUPPORT. What each effect of Machine/Sequences.lean may change (see Laws/Keeps.lean). -/

namespace Sys2Proof.Machine

variable {F : Frame} {s₀ s : State}

theorem attachAll_keeps (hque : F.que) (p : Nat) (ids : List Nat) (n : BitVec 32) (h : Keeps F s₀ s) :
    Keeps F s₀ (attachAll p ids n s) := by
  unfold attachAll
  try dsimp only
  with_reducible repeat' first
    | assumption | intro _ | apply each_keeps | apply updSeq_keeps

theorem seqFinish_keeps (hregs : F.regs) (hslc : F.slc) (hhbm : F.hbm) (hque : F.que) (hxlt : F.xlt) (hrecs : F.recs)
    (hout : F.out) (op : Nat) (it : SeqItem) (status info : Nat) (h : Keeps F s₀ s) :
    Keeps F s₀ (seqFinish op it status info s) := by
  unfold seqFinish
  try dsimp only
  with_reducible repeat' first
    | assumption | exact ring_wf_id | exact Memory.wf_id | intro _ | apply completeItem_keeps
    | ((fail_if_success (apply keeps_eta)); apply keeps_mk) | exact Or.inl (by assumption) | exact Or.inr rfl

theorem seqFail_keeps (hregs : F.regs) (hslc : F.slc) (hhbm : F.hbm) (hque : F.que) (hxlt : F.xlt) (hrecs : F.recs)
    (hout : F.out) (op : Nat) (it : SeqItem) (status : Nat) (h : Keeps F s₀ s) :
    Keeps F s₀ (seqFail op it status s) := by
  unfold seqFail
  try dsimp only
  repeat' first
    | with_reducible first
      | assumption | intro _ | apply State.free_keeps | apply seqFinish_keeps | apply KeepsP.snd
    | split

theorem seqctl_keeps (hregs : F.regs) (hslc : F.slc) (hhbm : F.hbm) (hque : F.que) (hxlt : F.xlt) (hrecs : F.recs)
    (hout : F.out) (op d : Nat) (it : SeqItem) (f : State → State) (h_f : ∀ u_, Keeps F s₀ u_ → Keeps F s₀ (f u_))
    (h : Keeps F s₀ s) :
    KeepsX F s₀ (seqctl op d it f s) := by
  unfold seqctl
  try dsimp only
  repeat' first
    | with_reducible first
      | assumption | intro _ | apply onDie_keeps | apply seqFail_keeps | apply h_f | apply keeps_ite
    | split

theorem withSlot_keeps (hregs : F.regs) (hslc : F.slc) (hhbm : F.hbm) (hque : F.que) (hxlt : F.xlt) (hrecs : F.recs)
    (hout : F.out) (op : Nat) (it : SeqItem) (f : SeqSlot → State → State)
    (h_f : ∀ y0 u_, Keeps F s₀ u_ → Keeps F s₀ (f y0 u_)) (h : Keeps F s₀ s) :
    Keeps F s₀ (withSlot op it f s) := by
  unfold withSlot
  try dsimp only
  repeat' first
    | with_reducible first
      | assumption | intro _ | apply seqFail_keeps | apply h_f | apply keeps_ite
    | split

theorem dropSeqCopies_keeps (hque : F.que) (id : Nat) (h : Keeps F s₀ s) :
    Keeps F s₀ (dropSeqCopies id s) := by
  unfold dropSeqCopies
  try dsimp only
  with_reducible repeat' first
    | assumption | exact ring_wf_id | exact Memory.wf_id | intro _
    | ((fail_if_success (apply keeps_eta)); apply keeps_mk) | exact Or.inl (by assumption) | exact Or.inr rfl

theorem dropBlocks_keeps (hque : F.que) (id b n : Nat) (h : Keeps F s₀ s) :
    Keeps F s₀ (dropBlocks id b n s) := by
  unfold dropBlocks
  try dsimp only
  with_reducible repeat' first
    | assumption | exact ring_wf_id | exact Memory.wf_id | intro _
    | ((fail_if_success (apply keeps_eta)); apply keeps_mk) | exact Or.inl (by assumption) | exact Or.inr rfl

theorem seqCreate_keeps (hregs : F.regs) (hslc : F.slc) (hhbm : F.hbm) (hque : F.que) (hxlt : F.xlt) (hrecs : F.recs)
    (hout : F.out) (it : SeqItem) (h : Keeps F s₀ s) :
    Keeps F s₀ (seqCreate it s) := by
  unfold seqCreate
  try dsimp only
  with_reducible repeat' first
    | assumption | exact ring_wf_id | exact Memory.wf_id | intro _ | apply seqFinish_keeps
    | ((fail_if_success (apply keeps_eta)); apply keeps_mk) | exact Or.inl (by assumption) | exact Or.inr rfl
    | apply keeps_ite

theorem execSeqctlCreate_keeps (hregs : F.regs) (hslc : F.slc) (hhbm : F.hbm) (hque : F.que) (hxlt : F.xlt)
    (hrecs : F.recs) (hout : F.out) (it : SeqItem) (h : Keeps F s₀ s) :
    KeepsX F s₀ (execSeqctlCreate it s) := by
  unfold execSeqctlCreate
  try dsimp only
  with_reducible repeat' first
    | assumption | intro _ | apply seqctl_keeps | apply seqCreate_keeps

theorem seqDestroy_keeps (hregs : F.regs) (hslc : F.slc) (hhbm : F.hbm) (hque : F.que) (hxlt : F.xlt) (hrecs : F.recs)
    (hout : F.out) (it : SeqItem) (h : Keeps F s₀ s) :
    Keeps F s₀ (seqDestroy it s) := by
  unfold seqDestroy
  try dsimp only
  with_reducible repeat' first
    | assumption | exact ring_wf_id | exact Memory.wf_id | intro _ | apply withSlot_keeps | apply seqFinish_keeps
    | apply dropBlocks_keeps | apply dropSeqCopies_keeps | ((fail_if_success (apply keeps_eta)); apply keeps_mk)
    | exact Or.inl (by assumption) | exact Or.inr rfl | apply keeps_ite

theorem execSeqctlDestroy_keeps (hregs : F.regs) (hslc : F.slc) (hhbm : F.hbm) (hque : F.que) (hxlt : F.xlt)
    (hrecs : F.recs) (hout : F.out) (it : SeqItem) (h : Keeps F s₀ s) :
    KeepsX F s₀ (execSeqctlDestroy it s) := by
  unfold execSeqctlDestroy
  try dsimp only
  with_reducible repeat' first
    | assumption | intro _ | apply seqctl_keeps | apply seqDestroy_keeps

theorem stepOpen_keeps (hregs : F.regs) (hslc : F.slc) (hhbm : F.hbm) (hque : F.que) (hxlt : F.xlt) (hrecs : F.recs)
    (hout : F.out) (it : SeqItem) (h : Keeps F s₀ s) :
    Keeps F s₀ (stepOpen it s) := by
  unfold stepOpen
  try dsimp only
  repeat' first
    | with_reducible first
      | assumption | intro _ | apply withSlot_keeps | apply seqFinish_keeps | apply updSeq_keeps | apply seqFail_keeps
    | split

theorem execStepOpen_keeps (hregs : F.regs) (hslc : F.slc) (hhbm : F.hbm) (hque : F.que) (hxlt : F.xlt)
    (hrecs : F.recs) (hout : F.out) (it : SeqItem) (h : Keeps F s₀ s) :
    KeepsX F s₀ (execStepOpen it s) := by
  unfold execStepOpen
  try dsimp only
  with_reducible repeat' first
    | assumption | intro _ | apply seqctl_keeps | apply stepOpen_keeps

theorem stepClose_keeps (hregs : F.regs) (hslc : F.slc) (hhbm : F.hbm) (hque : F.que) (hxlt : F.xlt) (hrecs : F.recs)
    (hout : F.out) (it : SeqItem) (h : Keeps F s₀ s) :
    Keeps F s₀ (stepClose it s) := by
  unfold stepClose
  try dsimp only
  repeat' first
    | with_reducible first
      | assumption | exact ring_wf_id | exact Memory.wf_id | intro _ | apply withSlot_keeps | apply updSeq_keeps
      | apply seqFail_keeps | ((fail_if_success (apply keeps_eta)); apply keeps_mk) | exact Or.inl (by assumption)
      | exact Or.inr rfl | apply keeps_ite
    | split

theorem execStepClose_keeps (hregs : F.regs) (hslc : F.slc) (hhbm : F.hbm) (hque : F.que) (hxlt : F.xlt)
    (hrecs : F.recs) (hout : F.out) (it : SeqItem) (h : Keeps F s₀ s) :
    KeepsX F s₀ (execStepClose it s) := by
  unfold execStepClose
  try dsimp only
  with_reducible repeat' first
    | assumption | intro _ | apply seqctl_keeps | apply stepClose_keeps

theorem seqTruncate_keeps (hregs : F.regs) (hslc : F.slc) (hhbm : F.hbm) (hque : F.que) (hxlt : F.xlt)
    (hrecs : F.recs) (hout : F.out) (it : SeqItem) (h : Keeps F s₀ s) :
    Keeps F s₀ (seqTruncate it s) := by
  unfold seqTruncate
  try dsimp only
  with_reducible repeat' first
    | assumption | intro _ | apply withSlot_keeps | apply seqFinish_keeps | apply updSeq_keeps
    | apply dropSeqCopies_keeps | apply keeps_ite

theorem execTruncate_keeps (hregs : F.regs) (hslc : F.slc) (hhbm : F.hbm) (hque : F.que) (hxlt : F.xlt)
    (hrecs : F.recs) (hout : F.out) (it : SeqItem) (h : Keeps F s₀ s) :
    KeepsX F s₀ (execTruncate it s) := by
  unfold execTruncate
  try dsimp only
  with_reducible repeat' first
    | assumption | intro _ | apply seqctl_keeps | apply seqTruncate_keeps

theorem seqSet_keeps (hregs : F.regs) (hslc : F.slc) (hhbm : F.hbm) (hque : F.que) (hxlt : F.xlt) (hrecs : F.recs)
    (hout : F.out) (it : SeqItem) (h : Keeps F s₀ s) :
    Keeps F s₀ (seqSet it s) := by
  unfold seqSet
  try dsimp only
  with_reducible repeat' first
    | assumption | intro _ | apply withSlot_keeps | apply seqFinish_keeps | apply updSeq_keeps
    | apply dropSeqCopies_keeps | apply dropBlocks_keeps | apply keeps_ite

theorem execSeqctlSet_keeps (hregs : F.regs) (hslc : F.slc) (hhbm : F.hbm) (hque : F.que) (hxlt : F.xlt)
    (hrecs : F.recs) (hout : F.out) (it : SeqItem) (h : Keeps F s₀ s) :
    KeepsX F s₀ (execSeqctlSet it s) := by
  unfold execSeqctlSet
  try dsimp only
  with_reducible repeat' first
    | assumption | intro _ | apply seqctl_keeps | apply seqSet_keeps

theorem seqBtinval_keeps (hregs : F.regs) (hslc : F.slc) (hhbm : F.hbm) (hque : F.que) (hxlt : F.xlt) (hrecs : F.recs)
    (hout : F.out) (it : SeqItem) (h : Keeps F s₀ s) :
    Keeps F s₀ (seqBtinval it s) := by
  unfold seqBtinval
  try dsimp only
  with_reducible repeat' first
    | assumption | intro _ | apply withSlot_keeps | apply seqFinish_keeps | apply dropBlocks_keeps

theorem execBtinval_keeps (hregs : F.regs) (hslc : F.slc) (hhbm : F.hbm) (hque : F.que) (hxlt : F.xlt)
    (hrecs : F.recs) (hout : F.out) (it : SeqItem) (h : Keeps F s₀ s) :
    KeepsX F s₀ (execBtinval it s) := by
  unfold execBtinval
  try dsimp only
  with_reducible repeat' first
    | assumption | intro _ | apply seqctl_keeps | apply seqBtinval_keeps

theorem seqLink_keeps (hregs : F.regs) (hslc : F.slc) (hhbm : F.hbm) (hque : F.que) (hxlt : F.xlt) (hrecs : F.recs)
    (hout : F.out) (it : SeqItem) (h : Keeps F s₀ s) :
    Keeps F s₀ (seqLink it s) := by
  unfold seqLink
  try dsimp only
  repeat' first
    | with_reducible first
      | assumption | exact ring_wf_id | exact Memory.wf_id | intro _ | apply withSlot_keeps | apply seqFinish_keeps
      | ((fail_if_success (apply keeps_eta)); apply keeps_mk) | exact Or.inl (by assumption) | exact Or.inr rfl
      | apply keeps_ite
    | split

theorem execSeqctlLink_keeps (hregs : F.regs) (hslc : F.slc) (hhbm : F.hbm) (hque : F.que) (hxlt : F.xlt)
    (hrecs : F.recs) (hout : F.out) (it : SeqItem) (h : Keeps F s₀ s) :
    KeepsX F s₀ (execSeqctlLink it s) := by
  unfold execSeqctlLink
  try dsimp only
  with_reducible repeat' first
    | assumption | intro _ | apply seqctl_keeps | apply seqLink_keeps

theorem seqUnlink_keeps (hregs : F.regs) (hslc : F.slc) (hhbm : F.hbm) (hque : F.que) (hxlt : F.xlt) (hrecs : F.recs)
    (hout : F.out) (it : SeqItem) (h : Keeps F s₀ s) :
    Keeps F s₀ (seqUnlink it s) := by
  unfold seqUnlink
  try dsimp only
  with_reducible repeat' first
    | assumption | exact ring_wf_id | exact Memory.wf_id | intro _ | apply withSlot_keeps | apply seqFinish_keeps
    | ((fail_if_success (apply keeps_eta)); apply keeps_mk) | exact Or.inl (by assumption) | exact Or.inr rfl
    | apply keeps_ite

theorem execSeqctlUnlink_keeps (hregs : F.regs) (hslc : F.slc) (hhbm : F.hbm) (hque : F.que) (hxlt : F.xlt)
    (hrecs : F.recs) (hout : F.out) (it : SeqItem) (h : Keeps F s₀ s) :
    KeepsX F s₀ (execSeqctlUnlink it s) := by
  unfold execSeqctlUnlink
  try dsimp only
  with_reducible repeat' first
    | assumption | intro _ | apply seqctl_keeps | apply seqUnlink_keeps

theorem itemFault_keeps (hregs : F.regs) (hcore : F.core) (hslc : F.slc) (hhbm : F.hbm) (hnet : F.net) (hque : F.que)
    (hprt : F.prt) (hxlt : F.xlt) (hhost : F.host) (hrecs : F.recs) (hout : F.out) (q tag c index code pc addr : Nat)
    (h : Keeps F s₀ s) :
    Keeps F s₀ (itemFault q tag c index code pc addr s) := by
  unfold itemFault
  try dsimp only
  with_reducible repeat' first
    | assumption | intro _ | apply contextFault_keeps

theorem seqQuery_keeps (hregs : F.regs) (hcore : F.core) (hslc : F.slc) (hhbm : F.hbm) (hnet : F.net) (hque : F.que)
    (hprt : F.prt) (hxlt : F.xlt) (hhost : F.host) (hrecs : F.recs) (hout : F.out) (it : SeqItem) (h : Keeps F s₀ s) :
    Keeps F s₀ (seqQuery it s) := by
  unfold seqQuery
  try dsimp only
  repeat' first
    | with_reducible first
      | assumption | intro _ | apply withSlot_keeps | apply seqFinish_keeps | apply itemFault_keeps
      | apply translate_keeps | apply accPut_keeps | apply keeps_ite | exact KeepsOP.none | apply KeepsOP.some
      | apply keepsOP_ite | refine KeepsOP.of ?_ (by assumption) | refine KeepsOP.pair ?_ (by assumption)
    | split

theorem execSeqctlQuery_keeps (hregs : F.regs) (hcore : F.core) (hslc : F.slc) (hhbm : F.hbm) (hnet : F.net)
    (hque : F.que) (hprt : F.prt) (hxlt : F.xlt) (hhost : F.host) (hrecs : F.recs) (hout : F.out) (it : SeqItem)
    (h : Keeps F s₀ s) :
    KeepsX F s₀ (execSeqctlQuery it s) := by
  unfold execSeqctlQuery
  try dsimp only
  with_reducible repeat' first
    | assumption | intro _ | apply seqctl_keeps | apply seqQuery_keeps

theorem seqArm_keeps (hregs : F.regs) (hcore : F.core) (hslc : F.slc) (hhbm : F.hbm) (hque : F.que) (hxlt : F.xlt)
    (hrecs : F.recs) (hout : F.out) (it : SeqItem) (h : Keeps F s₀ s) :
    Keeps F s₀ (seqArm it s) := by
  unfold seqArm
  try dsimp only
  with_reducible repeat' first
    | assumption | exact ring_wf_id | exact Memory.wf_id | intro _ | apply seqFinish_keeps
    | ((fail_if_success (apply keeps_eta)); apply keeps_mk) | exact Or.inl (by assumption) | exact Or.inr rfl

theorem execArm_keeps (hregs : F.regs) (hcore : F.core) (hslc : F.slc) (hhbm : F.hbm) (hque : F.que) (hxlt : F.xlt)
    (hrecs : F.recs) (hout : F.out) (it : SeqItem) (h : Keeps F s₀ s) :
    KeepsX F s₀ (execArm it s) := by
  unfold execArm
  try dsimp only
  with_reducible repeat' first
    | assumption | intro _ | apply seqctl_keeps | apply seqArm_keeps

theorem releaseKv_keeps (hque : F.que) (id : Nat) (h : Keeps F s₀ s) :
    Keeps F s₀ (releaseKv id s) := by
  unfold releaseKv
  try dsimp only
  repeat' first
    | with_reducible first
      | assumption | exact ring_wf_id | exact Memory.wf_id | intro _
      | ((fail_if_success (apply keeps_eta)); apply keeps_mk) | exact Or.inl (by assumption) | exact Or.inr rfl
    | split

theorem finishClosing_keeps (hregs : F.regs) (hslc : F.slc) (hhbm : F.hbm) (hque : F.que) (hxlt : F.xlt)
    (hrecs : F.recs) (hout : F.out) (id : Nat) (r : StepRec) (h : Keeps F s₀ s) :
    Keeps F s₀ (finishClosing id r s) := by
  unfold finishClosing
  try dsimp only
  with_reducible repeat' first
    | assumption | exact ring_wf_id | exact Memory.wf_id | intro _ | apply each_keeps | apply seqFinish_keeps
    | ((fail_if_success (apply keeps_eta)); apply keeps_mk) | exact Or.inl (by assumption) | exact Or.inr rfl

theorem stepRetire_keeps (hregs : F.regs) (hslc : F.slc) (hhbm : F.hbm) (hque : F.que) (hxlt : F.xlt) (hrecs : F.recs)
    (hout : F.out) (id : Nat) (h : Keeps F s₀ s) :
    Keeps F s₀ (stepRetire id s) := by
  unfold stepRetire
  try dsimp only
  repeat' first
    | with_reducible first
      | assumption | intro _ | apply updSeq_keeps | apply finishClosing_keeps | apply releaseKv_keeps
      | apply State.count_keeps | apply keeps_ite | apply keepsO_bind | apply keepsO_bindP | apply keepsOP_bind
      | apply keepsOP_bindP | apply keepsO_bindA | apply keepsOP_bindA | refine KeepsOP.of ?_ (by assumption)
      | refine KeepsOP.pair ?_ (by assumption)
    | split

theorem execStepRetire_keeps (hregs : F.regs) (hslc : F.slc) (hhbm : F.hbm) (hque : F.que) (hxlt : F.xlt)
    (hrecs : F.recs) (hout : F.out) (seq : Nat) (h : Keeps F s₀ s) :
    KeepsX F s₀ (execStepRetire seq s) := by
  unfold execStepRetire
  try dsimp only
  with_reducible repeat' first
    | assumption | intro _ | apply onDie_keeps | apply stepRetire_keeps

theorem seqEngineFailure_keeps (hregs : F.regs) (hcore : F.core) (hslc : F.slc) (hhbm : F.hbm) (hque : F.que)
    (hprt : F.prt) (hxlt : F.xlt) (hhost : F.host) (hrecs : F.recs) (hout : F.out) (d slot : Nat) (h : Keeps F s₀ s) :
    Keeps F s₀ (seqEngineFailure d slot s) := by
  unfold seqEngineFailure
  try dsimp only
  with_reducible repeat' first
    | assumption | exact ring_wf_id | exact Memory.wf_id | intro _ | apply emit_keeps | apply each_keeps
    | apply partFault_keeps | ((fail_if_success (apply keeps_eta)); apply keeps_mk) | exact Or.inl (by assumption)
    | exact Or.inr rfl

theorem execSeqEngineFailure_keeps (hregs : F.regs) (hcore : F.core) (hslc : F.slc) (hhbm : F.hbm) (hque : F.que)
    (hprt : F.prt) (hxlt : F.xlt) (hhost : F.host) (hrecs : F.recs) (hout : F.out) (d slot : Nat) (h : Keeps F s₀ s) :
    KeepsX F s₀ (execSeqEngineFailure d slot s) := by
  unfold execSeqEngineFailure
  try dsimp only
  repeat' first
    | with_reducible first
      | assumption | intro _ | apply onDie_keeps | apply seqEngineFailure_keeps | apply keeps_ite
    | split

end Sys2Proof.Machine
end

