-- ==== Sys2Proof/Laws/KeepsArbiter.lean ====
section
/-! SUPPORT. What each effect of Machine/Arbiter.lean may change (see Laws/Keeps.lean). -/

namespace Sys2Proof.Machine

variable {F : Frame} {s₀ s : State}

theorem readHead_keeps (hregs : F.regs) (hslc : F.slc) (hhbm : F.hbm) (hxlt : F.xlt) (hrecs : F.recs) (q : Nat)
    (h : Keeps F s₀ s) :
    KeepsP F s₀ (readHead q s) := by
  unfold readHead
  try dsimp only
  repeat' first
    | with_reducible first
      | assumption | intro _ | apply accBytes_keeps | exact KeepsOP.none | apply KeepsOP.some | apply KeepsP.snd
      | ((fail_if_success (apply KeepsP.eta)); apply KeepsP.mk') | refine KeepsOP.of ?_ (by assumption)
      | refine KeepsOP.pair ?_ (by assumption) | refine KeepsP.of ?_ (by assumption)
    | split

theorem queError_keeps (hregs : F.regs) (hrecs : F.recs) (q err : Nat) (h : Keeps F s₀ s) :
    Keeps F s₀ (queError q err s) := by
  unfold queError
  try dsimp only
  with_reducible repeat' first
    | assumption | intro _ | apply State.wr_keeps | apply emit_keeps

theorem failHeads_keeps (hregs : F.regs) (hslc : F.slc) (hhbm : F.hbm) (hxlt : F.xlt) (hrecs : F.recs) (d : Nat)
    (h : Keeps F s₀ s) :
    Keeps F s₀ (failHeads d s) := by
  unfold failHeads
  try dsimp only
  repeat' first
    | with_reducible first
      | assumption | intro _ | apply each_keeps | apply readHead_keeps | apply queError_keeps | apply KeepsP.snd
      | ((fail_if_success (apply KeepsP.eta)); apply KeepsP.mk') | refine KeepsP.of ?_ (by assumption)
    | split

theorem noteWaits_keeps (hregs : F.regs) (x1 : Head) (h : Keeps F s₀ s) :
    Keeps F s₀ (noteWaits x1 s) := by
  unfold noteWaits
  try dsimp only
  with_reducible repeat' first
    | assumption | intro _ | apply State.count_keeps | apply State.wr_keeps | apply keeps_ite

theorem startExchange_keeps (hque : F.que) (x1 : Head) (h : Keeps F s₀ s) :
    Keeps F s₀ (startExchange x1 s) := by
  unfold startExchange
  try dsimp only
  with_reducible repeat' first
    | assumption | exact ring_wf_id | exact Memory.wf_id | intro _
    | ((fail_if_success (apply keeps_eta)); apply keeps_mk) | exact Or.inl (by assumption) | exact Or.inr rfl
    | apply keeps_ite

theorem chargeItem_keeps (hregs : F.regs) (hque : F.que) (x1 : Head) (e : Nat) (h : Keeps F s₀ s) :
    Keeps F s₀ (chargeItem x1 e s) := by
  unfold chargeItem
  try dsimp only
  with_reducible repeat' first
    | assumption | intro _ | apply charge_keeps | apply State.count_keeps | apply setGovB_keeps | apply keeps_ite

theorem takeItem_keeps (hregs : F.regs) (hque : F.que) (x1 : Head) (h : Keeps F s₀ s) :
    Keeps F s₀ (takeItem x1 s) := by
  unfold takeItem
  try dsimp only
  with_reducible repeat' first
    | assumption | exact ring_wf_id | exact Memory.wf_id | intro _ | apply State.wr_keeps
    | ((fail_if_success (apply keeps_eta)); apply keeps_mk) | exact Or.inl (by assumption) | exact Or.inr rfl

theorem finishHead_keeps (hregs : F.regs) (hslc : F.slc) (hhbm : F.hbm) (hque : F.que) (hxlt : F.xlt) (hrecs : F.recs)
    (hout : F.out) (x1 : Head) (status info : Nat) (h : Keeps F s₀ s) :
    Keeps F s₀ (finishHead x1 status info s) := by
  unfold finishHead
  try dsimp only
  with_reducible repeat' first
    | assumption | intro _ | apply completeItem_keeps

theorem launchFault_keeps (hregs : F.regs) (hcore : F.core) (hslc : F.slc) (hhbm : F.hbm) (hnet : F.net)
    (hque : F.que) (hprt : F.prt) (hxlt : F.xlt) (hhost : F.host) (hrecs : F.recs) (hout : F.out) (x1 : Head)
    (code : Nat) (h : Keeps F s₀ s) :
    Keeps F s₀ (launchFault x1 code s) := by
  unfold launchFault
  try dsimp only
  with_reducible repeat' first
    | assumption | intro _ | apply itemFault_keeps | apply finishHead_keeps

theorem dispatchLaunch_keeps (hregs : F.regs) (hcore : F.core) (hslc : F.slc) (hhbm : F.hbm) (hnet : F.net)
    (hque : F.que) (hprt : F.prt) (hxlt : F.xlt) (hhost : F.host) (hrecs : F.recs) (hout : F.out) (x1 : Head)
    (sq : HeadSeq) (h : Keeps F s₀ s) :
    Keeps F s₀ (dispatchLaunch x1 sq s) := by
  unfold dispatchLaunch
  try dsimp only
  repeat' first
    | with_reducible first
      | assumption | exact ring_wf_id | exact Memory.wf_id | intro _ | apply finishHead_keeps
      | apply launchFault_keeps | apply attachAll_keeps | ((fail_if_success (apply keeps_eta)); apply keeps_mk)
      | exact Or.inl (by assumption) | exact Or.inr rfl | apply keeps_ite
    | split

theorem dispatchMove_keeps (hregs : F.regs) (hslc : F.slc) (hhbm : F.hbm) (hque : F.que) (hxlt : F.xlt)
    (hrecs : F.recs) (hout : F.out) (x1 : Head) (h : Keeps F s₀ s) :
    Keeps F s₀ (dispatchMove x1 s) := by
  unfold dispatchMove
  try dsimp only
  repeat' first
    | with_reducible first
      | assumption | exact ring_wf_id | exact Memory.wf_id | intro _ | apply finishHead_keeps
      | ((fail_if_success (apply keeps_eta)); apply keeps_mk) | exact Or.inl (by assumption) | exact Or.inr rfl
      | apply keeps_ite
    | split

theorem dispatchSeqctl_keeps (hregs : F.regs) (hslc : F.slc) (hhbm : F.hbm) (hque : F.que) (hxlt : F.xlt)
    (hrecs : F.recs) (hout : F.out) (x1 : Head) (h : Keeps F s₀ s) :
    Keeps F s₀ (dispatchSeqctl x1 s) := by
  unfold dispatchSeqctl
  try dsimp only
  repeat' first
    | with_reducible first
      | assumption | exact ring_wf_id | exact Memory.wf_id | intro _ | apply State.free_keeps | apply finishHead_keeps
      | ((fail_if_success (apply keeps_eta)); apply keeps_mk) | exact Or.inl (by assumption) | exact Or.inr rfl
      | apply keeps_ite | apply KeepsP.snd
    | split

theorem dispatch_keeps (hregs : F.regs) (hcore : F.core) (hslc : F.slc) (hhbm : F.hbm) (hnet : F.net) (hque : F.que)
    (hprt : F.prt) (hxlt : F.xlt) (hhost : F.host) (hrecs : F.recs) (hout : F.out) (x1 : Head) (h : Keeps F s₀ s) :
    Keeps F s₀ (dispatch x1 s) := by
  unfold dispatch
  try dsimp only
  repeat' first
    | with_reducible first
      | assumption | intro _ | apply takeItem_keeps | apply chargeItem_keeps | apply readHead_keeps
      | apply detachIds_keeps | apply dispatchLaunch_keeps | apply dispatchMove_keeps | apply dispatchSeqctl_keeps
      | apply keeps_ite | apply KeepsP.snd | ((fail_if_success (apply KeepsP.eta)); apply KeepsP.mk')
      | apply keepsP_ite | refine KeepsP.of ?_ (by assumption)
    | split

theorem putArb_keeps (hque : F.que) (a : Arb) (h : Keeps F s₀ s) :
    Keeps F s₀ (putArb a s) := by
  unfold putArb
  try dsimp only
  with_reducible repeat' first
    | assumption | exact ring_wf_id | exact Memory.wf_id | intro _
    | ((fail_if_success (apply keeps_eta)); apply keeps_mk) | exact Or.inl (by assumption) | exact Or.inr rfl

theorem showHold_keeps (hregs : F.regs) (d : Nat) (h : Keeps F s₀ s) :
    Keeps F s₀ (showHold d s) := by
  unfold showHold
  try dsimp only
  repeat' first
    | with_reducible first
      | assumption | intro _ | apply State.wr_keeps
    | split

theorem pruneArb_keeps (hregs : F.regs) (hslc : F.slc) (hhbm : F.hbm) (hque : F.que) (hxlt : F.xlt) (hrecs : F.recs)
    (d : Nat) (h : Keeps F s₀ s) :
    Keeps F s₀ (pruneArb d s) := by
  unfold pruneArb
  try dsimp only
  repeat' first
    | with_reducible first
      | assumption | intro _ | apply readHead_keeps | apply putArb_keeps | apply keeps_ite
    | split

theorem takeHold_keeps (hregs : F.regs) (hslc : F.slc) (hhbm : F.hbm) (hque : F.que) (hxlt : F.xlt) (hrecs : F.recs)
    (d : Nat) (h : Keeps F s₀ s) :
    Keeps F s₀ (takeHold d s) := by
  unfold takeHold
  try dsimp only
  repeat' first
    | with_reducible first
      | assumption | intro _ | apply readHead_keeps | apply putArb_keeps | apply State.count_keeps | apply emit_keeps
      | apply foldl_keeps | apply keepsP_foldl | apply keepsQ_foldl | apply keeps_ite | apply KeepsP.snd
      | ((fail_if_success (apply KeepsP.eta)); apply KeepsP.mk') | apply keepsP_ite
      | refine KeepsP.of ?_ (by assumption)
    | split

theorem govHold_keeps (hregs : F.regs) (hslc : F.slc) (hhbm : F.hbm) (hque : F.que) (hxlt : F.xlt) (hrecs : F.recs)
    (d : Nat) (h : Keeps F s₀ s) :
    Keeps F s₀ (govHold d s) := by
  unfold govHold
  try dsimp only
  with_reducible repeat' first
    | assumption | intro _ | apply showHold_keeps | apply takeHold_keeps | apply pruneArb_keeps

theorem execGovHold_keeps (hregs : F.regs) (hslc : F.slc) (hhbm : F.hbm) (hque : F.que) (hxlt : F.xlt)
    (hrecs : F.recs) (d : Nat) (h : Keeps F s₀ s) :
    KeepsX F s₀ (execGovHold d s) := by
  unfold execGovHold
  try dsimp only
  repeat' first
    | with_reducible first
      | assumption | intro _ | apply onDie_keeps | apply govHold_keeps | apply keeps_ite
    | split

theorem classLoop_keeps (hregs : F.regs) (d c : Nat) (hs : List Head) (x4 : Nat) (x5 : List Nat) (x6 : Arb)
    (h : Keeps F s₀ s) :
    KeepsQ F s₀ (classLoop d c hs x4 x5 x6 s) := by
  induction x4 generalizing d c hs x5 x6 s with
  | zero =>
    unfold classLoop
    try dsimp only
    repeat' first
      | with_reducible first
        | assumption | intro _ | apply State.count_keeps | apply keeps_ite | apply KeepsQ.snd | apply KeepsQ.toP
        | ((fail_if_success (apply KeepsQ.eta)); apply KeepsQ.mk')
      | split
  | succ n_ ih =>
    unfold classLoop
    try dsimp only
    repeat' first
      | with_reducible first
        | assumption | intro _ | apply State.count_keeps | apply ih | apply keeps_ite | apply KeepsQ.snd
        | apply KeepsQ.toP | ((fail_if_success (apply KeepsQ.eta)); apply KeepsQ.mk') | apply keepsQ_ite
        | refine KeepsQ.of ?_ (by assumption)
      | split

theorem classTurn_keeps (hregs : F.regs) (d c : Nat) (all : List Head) (a : Arb) (h : Keeps F s₀ s) :
    KeepsQ F s₀ (classTurn d c all a s) := by
  unfold classTurn
  try dsimp only
  with_reducible repeat' first
    | assumption | intro _ | apply classLoop_keeps

theorem grantIB_keeps (hregs : F.regs) (hcore : F.core) (hslc : F.slc) (hhbm : F.hbm) (hnet : F.net) (hque : F.que)
    (hprt : F.prt) (hxlt : F.xlt) (hhost : F.host) (hrecs : F.recs) (hout : F.out) (d : Nat) (hs : List Head)
    (h : Keeps F s₀ s) :
    Keeps F s₀ (grantIB d hs s) := by
  unfold grantIB
  try dsimp only
  repeat' first
    | with_reducible first
      | assumption | intro _ | apply classTurn_keeps | apply putArb_keeps | apply dispatch_keeps | apply foldl_keeps
      | apply keepsP_foldl | apply keepsQ_foldl | apply keeps_ite | apply KeepsP.snd
      | ((fail_if_success (apply KeepsP.eta)); apply KeepsP.mk') | apply keepsP_ite | apply KeepsQ.snd
      | apply KeepsQ.toP | ((fail_if_success (apply KeepsQ.eta)); apply KeepsQ.mk') | apply keepsQ_ite
      | refine KeepsQ.of ?_ (by assumption)
    | split

theorem grantHeld_keeps (hregs : F.regs) (hcore : F.core) (hslc : F.slc) (hhbm : F.hbm) (hnet : F.net) (hque : F.que)
    (hprt : F.prt) (hxlt : F.xlt) (hhost : F.host) (hrecs : F.recs) (hout : F.out) (d n : Nat) (hs : List Head)
    (h : Keeps F s₀ s) :
    Keeps F s₀ (grantHeld d n hs s) := by
  unfold grantHeld
  try dsimp only
  repeat' first
    | with_reducible first
      | assumption | intro _ | apply putArb_keeps | apply takeHold_keeps | apply dispatch_keeps | apply keeps_ite
    | split

theorem arbiterGrant_keeps (hregs : F.regs) (hcore : F.core) (hslc : F.slc) (hhbm : F.hbm) (hnet : F.net)
    (hque : F.que) (hprt : F.prt) (hxlt : F.xlt) (hhost : F.host) (hrecs : F.recs) (hout : F.out) (d : Nat)
    (h : Keeps F s₀ s) :
    Keeps F s₀ (arbiterGrant d s) := by
  unfold arbiterGrant
  try dsimp only
  repeat' first
    | with_reducible first
      | assumption | intro _ | apply failHeads_keeps | apply each_keeps | apply startExchange_keeps
      | apply noteWaits_keeps | apply takeHold_keeps | apply pruneArb_keeps | apply showHold_keeps
      | apply dispatch_keeps | apply putArb_keeps | apply grantHeld_keeps | apply grantIB_keeps | apply keeps_ite
    | split

theorem execArbiterGrant_keeps (hregs : F.regs) (hcore : F.core) (hslc : F.slc) (hhbm : F.hbm) (hnet : F.net)
    (hque : F.que) (hprt : F.prt) (hxlt : F.xlt) (hhost : F.host) (hrecs : F.recs) (hout : F.out) (d : Nat)
    (h : Keeps F s₀ s) :
    KeepsX F s₀ (execArbiterGrant d s) := by
  unfold execArbiterGrant
  try dsimp only
  repeat' first
    | with_reducible first
      | assumption | intro _ | apply onDie_keeps | apply arbiterGrant_keeps | apply keeps_ite
    | split

theorem noteRemoteHold_keeps (hregs : F.regs) (x1 : Head) (h : Keeps F s₀ s) :
    Keeps F s₀ (noteRemoteHold x1 s) := by
  unfold noteRemoteHold
  try dsimp only
  with_reducible repeat' first
    | assumption | intro _ | apply State.count_keeps | apply State.wr_keeps | apply keeps_ite

theorem attachExchange_keeps (hregs : F.regs) (hcore : F.core) (hslc : F.slc) (hhbm : F.hbm) (hnet : F.net)
    (hque : F.que) (hprt : F.prt) (hxlt : F.xlt) (hhost : F.host) (hrecs : F.recs) (hout : F.out) (q : Nat)
    (index : Word) (h : Keeps F s₀ s) :
    Keeps F s₀ (attachExchange q index s) := by
  unfold attachExchange
  try dsimp only
  repeat' first
    | with_reducible first
      | assumption | exact ring_wf_id | exact Memory.wf_id | intro _ | apply readHead_keeps
      | apply noteRemoteHold_keeps | apply launchFault_keeps | apply takeItem_keeps | apply chargeItem_keeps
      | apply attachAll_keeps | apply dispatch_keeps | apply showHold_keeps
      | ((fail_if_success (apply keeps_eta)); apply keeps_mk) | exact Or.inl (by assumption) | exact Or.inr rfl
      | apply keeps_ite | apply keeps_getD | apply keepsP_getD | apply KeepsP.snd
      | ((fail_if_success (apply KeepsP.eta)); apply KeepsP.mk') | apply keepsP_ite
      | refine KeepsP.of ?_ (by assumption)
    | split

theorem execAttachExchange_keeps (hregs : F.regs) (hcore : F.core) (hslc : F.slc) (hhbm : F.hbm) (hnet : F.net)
    (hque : F.que) (hprt : F.prt) (hxlt : F.xlt) (hhost : F.host) (hrecs : F.recs) (hout : F.out) (queue : Nat)
    (index : Word) (h : Keeps F s₀ s) :
    KeepsX F s₀ (execAttachExchange queue index s) := by
  unfold execAttachExchange
  try dsimp only
  with_reducible repeat' first
    | assumption | intro _ | apply onDie_keeps | apply attachExchange_keeps

end Sys2Proof.Machine
end

