-- ==== Sys2Proof/Laws/KeepsEff.lean ====
section
/-! SUPPORT. `Keeps` for what a core instruction comes to. -/

namespace Sys2Proof.Machine

variable {F : Frame} {s₀ s : State}

structure KeepsE (F : Frame) (s : State) (x : Eff) : Prop where
  ofDone : ∀ {t u}, x = .done t u → Keeps F s u
  ofTrap : ∀ {a b c u}, x = .trap a b c u → Keeps F s u
  ofHold : ∀ {u}, x = .hold u → Keeps F s u

theorem KeepsE.done {t : Troupe} (h : Keeps F s₀ s) : KeepsE F s₀ (.done t s) := by
  constructor <;> intros <;> rename_i e <;> cases e; exact h
theorem KeepsE.trap {a b c : Nat} (h : Keeps F s₀ s) : KeepsE F s₀ (.trap a b c s) := by
  constructor <;> intros <;> rename_i e <;> cases e; exact h
theorem KeepsE.hold (h : Keeps F s₀ s) : KeepsE F s₀ (.hold s) := by
  constructor <;> intros <;> rename_i e <;> cases e; exact h
theorem KeepsE.wait : KeepsE F s₀ .wait := by
  constructor <;> intros <;> rename_i e <;> cases e

end Sys2Proof.Machine
end

