-- ==== Sys2Proof/Laws/KeepsTroupes.lean ====
section
/-! SUPPORT. What each effect of Machine/Troupes.lean may change (see Laws/Keeps.lean). -/

namespace Sys2Proof.Machine

variable {F : Frame} {s₀ s : State}

theorem putLaunch_keeps (hcore : F.core) (l : Launch) (h : Keeps F s₀ s) :
    Keeps F s₀ (putLaunch l s) := by
  unfold putLaunch
  try dsimp only
  with_reducible repeat' first
    | assumption | exact ring_wf_id | exact Memory.wf_id | intro _
    | ((fail_if_success (apply keeps_eta)); apply keeps_mk) | exact Or.inl (by assumption) | exact Or.inr rfl

theorem putTroupe_keeps (hcore : F.core) (t : Troupe) (h : Keeps F s₀ s) :
    Keeps F s₀ (putTroupe t s) := by
  unfold putTroupe
  try dsimp only
  with_reducible repeat' first
    | assumption | exact ring_wf_id | exact Memory.wf_id | intro _
    | ((fail_if_success (apply keeps_eta)); apply keeps_mk) | exact Or.inl (by assumption) | exact Or.inr rfl

theorem invalIcache_keeps (hcore : F.core) (d c : Nat) (h : Keeps F s₀ s) :
    Keeps F s₀ (invalIcache d c s) := by
  unfold invalIcache
  try dsimp only
  with_reducible repeat' first
    | assumption | exact ring_wf_id | exact Memory.wf_id | intro _
    | ((fail_if_success (apply keeps_eta)); apply keeps_mk) | exact Or.inl (by assumption) | exact Or.inr rfl

theorem makeResident_keeps (hcore : F.core) (l : Launch) (k : Nat) (h : Keeps F s₀ s) :
    Keeps F s₀ (makeResident l k s) := by
  unfold makeResident
  try dsimp only
  with_reducible repeat' first
    | assumption | exact ring_wf_id | exact Memory.wf_id | intro _ | apply invalIcache_keeps | apply invalL1_keeps
    | apply putLaunch_keeps | ((fail_if_success (apply keeps_eta)); apply keeps_mk) | exact Or.inl (by assumption)
    | exact Or.inr rfl | apply keeps_ite

theorem troupePlacement_keeps (hcore : F.core) (d c : Nat) (h : Keeps F s₀ s) :
    Keeps F s₀ (troupePlacement d c s) := by
  unfold troupePlacement
  try dsimp only
  repeat' first
    | with_reducible first
      | assumption | exact ring_wf_id | exact Memory.wf_id | intro _ | apply makeResident_keeps
      | apply putLaunch_keeps | ((fail_if_success (apply keeps_eta)); apply keeps_mk) | exact Or.inl (by assumption)
      | exact Or.inr rfl | apply keeps_ite
    | split

theorem execTroupePlacement_keeps (hcore : F.core) (d cluster : Nat) (h : Keeps F s₀ s) :
    KeepsX F s₀ (execTroupePlacement d cluster s) := by
  unfold execTroupePlacement
  try dsimp only
  with_reducible repeat' first
    | assumption | intro _ | apply onDie_keeps | apply troupePlacement_keeps

theorem troupeFault_keeps (hregs : F.regs) (hcore : F.core) (hslc : F.slc) (hhbm : F.hbm) (hnet : F.net)
    (hque : F.que) (hprt : F.prt) (hxlt : F.xlt) (hhost : F.host) (hrecs : F.recs) (hout : F.out) (t : Troupe)
    (code lane addr pc : Nat) (h : Keeps F s₀ s) :
    Keeps F s₀ (troupeFault t code lane addr pc s) := by
  unfold troupeFault
  try dsimp only
  with_reducible repeat' first
    | assumption | intro _ | apply contextFault_keeps

theorem releaseBarrier_keeps (hcore : F.core) (q : Nat) (i : Word) (d c b : Nat) (h : Keeps F s₀ s) :
    Keeps F s₀ (releaseBarrier q i d c b s) := by
  unfold releaseBarrier
  try dsimp only
  with_reducible repeat' first
    | assumption | exact ring_wf_id | exact Memory.wf_id | intro _
    | ((fail_if_success (apply keeps_eta)); apply keeps_mk) | exact Or.inl (by assumption) | exact Or.inr rfl
    | apply keeps_ite

theorem settle_keeps (hregs : F.regs) (hcore : F.core) (hslc : F.slc) (hhbm : F.hbm) (hnet : F.net) (hque : F.que)
    (hprt : F.prt) (hxlt : F.xlt) (hhost : F.host) (hrecs : F.recs) (hout : F.out) (a : SlotAt) (h : Keeps F s₀ s) :
    Keeps F s₀ (settle a s) := by
  unfold settle
  try dsimp only
  repeat' first
    | with_reducible first
      | assumption | intro _ | apply putTroupe_keeps | apply each_keeps | apply releaseBarrier_keeps
      | apply troupeFault_keeps | exact KeepsOP.none | apply KeepsOP.some | apply keepsO_map | apply keepsOP_map
      | apply keepsOP_mapP | apply keepsO_mapP | apply keepsO_mapA | apply keepsOP_mapA | apply keeps_getD
      | apply keepsP_getD | apply KeepsP.snd | ((fail_if_success (apply KeepsP.eta)); apply KeepsP.mk')
      | refine KeepsOP.of ?_ (by assumption) | refine KeepsOP.pair ?_ (by assumption)
    | split

theorem fetch_keeps (hregs : F.regs) (hcore : F.core) (hslc : F.slc) (hhbm : F.hbm) (hxlt : F.xlt) (hrecs : F.recs)
    (t : Troupe) (pc : Nat) (h : Keeps F s₀ s) :
    KeepsOP F s₀ (fetch t pc s) := by
  unfold fetch
  try dsimp only
  repeat' first
    | with_reducible first
      | assumption | exact ring_wf_id | exact Memory.wf_id | intro _ | apply translate_keeps | apply accRead_keeps
      | ((fail_if_success (apply keeps_eta)); apply keeps_mk) | exact Or.inl (by assumption) | exact Or.inr rfl
      | apply keeps_ite | exact KeepsOP.none | apply KeepsOP.some | apply keepsOP_ite
      | refine KeepsOP.of ?_ (by assumption) | refine KeepsOP.pair ?_ (by assumption)
    | split

theorem tickCore_keeps (hcore : F.core) (a : Issue) (h : Keeps F s₀ s) :
    Keeps F s₀ (tickCore a s) := by
  unfold tickCore
  try dsimp only
  with_reducible repeat' first
    | assumption | exact ring_wf_id | exact Memory.wf_id | intro _
    | ((fail_if_success (apply keeps_eta)); apply keeps_mk) | exact Or.inl (by assumption) | exact Or.inr rfl

theorem issueWord_keeps (hregs : F.regs) (hcore : F.core) (hslc : F.slc) (hhbm : F.hbm) (hnet : F.net) (hque : F.que)
    (hprt : F.prt) (hxlt : F.xlt) (hhost : F.host) (hrecs : F.recs) (hout : F.out) (t : Troupe) (w pc now : Nat)
    (eff : Iss → State → Eff) (h_eff : ∀ y0 u_, Keeps F s₀ u_ → KeepsE F s₀ (eff y0 u_)) (h : Keeps F s₀ s) :
    Keeps F s₀ (issueWord t w pc now eff s) := by
  unfold issueWord
  try dsimp only
  repeat' first
    | with_reducible first
      | assumption | intro _ | apply settle_keeps | apply putTroupe_keeps | apply troupeFault_keeps | apply h_eff
      | apply keeps_ite | exact KeepsE.wait | apply KeepsE.done | apply KeepsE.trap | apply KeepsE.hold
      | refine KeepsE.ofDone ?_ (by assumption) | refine KeepsE.ofTrap ?_ (by assumption)
      | refine KeepsE.ofHold ?_ (by assumption)
    | split

theorem issue_keeps (hregs : F.regs) (hcore : F.core) (hslc : F.slc) (hhbm : F.hbm) (hnet : F.net) (hque : F.que)
    (hprt : F.prt) (hxlt : F.xlt) (hhost : F.host) (hrecs : F.recs) (hout : F.out) (a : Issue) (w : Nat)
    (eff : Iss → State → Eff) (h_eff : ∀ y0 u_, Keeps F s₀ u_ → KeepsE F s₀ (eff y0 u_)) (h : Keeps F s₀ s) :
    Keeps F s₀ (issue a w eff s) := by
  unfold issue
  try dsimp only
  repeat' first
    | with_reducible first
      | assumption | intro _ | apply tickCore_keeps | apply fetch_keeps | apply troupeFault_keeps
      | apply issueWord_keeps | apply h_eff | apply keeps_ite | exact KeepsOP.none | apply KeepsOP.some
      | apply keepsOP_ite | apply keeps_getD | apply keepsP_getD | exact KeepsE.wait | apply KeepsE.done
      | apply KeepsE.trap | apply KeepsE.hold | refine KeepsOP.of ?_ (by assumption)
      | refine KeepsOP.pair ?_ (by assumption) | refine KeepsE.ofDone ?_ (by assumption)
      | refine KeepsE.ofTrap ?_ (by assumption) | refine KeepsE.ofHold ?_ (by assumption)
    | split

theorem onTroupe_keeps (hregs : F.regs) (hcore : F.core) (hslc : F.slc) (hhbm : F.hbm) (hnet : F.net) (hque : F.que)
    (hprt : F.prt) (hxlt : F.xlt) (hhost : F.host) (hrecs : F.recs) (hout : F.out) (a : SlotAt) (f : Troupe → Troupe)
    (h : Keeps F s₀ s) :
    Keeps F s₀ (onTroupe a f s) := by
  unfold onTroupe
  try dsimp only
  repeat' first
    | with_reducible first
      | assumption | intro _ | apply settle_keeps | apply putTroupe_keeps
    | split

theorem execSleepExpiry_keeps (hregs : F.regs) (hcore : F.core) (hslc : F.slc) (hhbm : F.hbm) (hnet : F.net)
    (hque : F.que) (hprt : F.prt) (hxlt : F.xlt) (hhost : F.host) (hrecs : F.recs) (hout : F.out) (t : SlotAt)
    (h : Keeps F s₀ s) :
    KeepsX F s₀ (execSleepExpiry t s) := by
  unfold execSleepExpiry
  try dsimp only
  with_reducible repeat' first
    | assumption | intro _ | apply onDie_keeps | apply onTroupe_keeps

theorem execConvergeTimeout_keeps (hregs : F.regs) (hcore : F.core) (hslc : F.slc) (hhbm : F.hbm) (hnet : F.net)
    (hque : F.que) (hprt : F.prt) (hxlt : F.xlt) (hhost : F.host) (hrecs : F.recs) (hout : F.out) (t : SlotAt)
    (h : Keeps F s₀ s) :
    KeepsX F s₀ (execConvergeTimeout t s) := by
  unfold execConvergeTimeout
  try dsimp only
  with_reducible repeat' first
    | assumption | intro _ | apply onDie_keeps | apply onTroupe_keeps

theorem execYieldTimeout_keeps (hregs : F.regs) (hcore : F.core) (hslc : F.slc) (hhbm : F.hbm) (hnet : F.net)
    (hque : F.que) (hprt : F.prt) (hxlt : F.xlt) (hhost : F.host) (hrecs : F.recs) (hout : F.out) (t : SlotAt)
    (h : Keeps F s₀ s) :
    KeepsX F s₀ (execYieldTimeout t s) := by
  unfold execYieldTimeout
  try dsimp only
  with_reducible repeat' first
    | assumption | intro _ | apply onDie_keeps | apply onTroupe_keeps

theorem leaveCluster_keeps (hcore : F.core) (l : Launch) (k : Nat) (h : Keeps F s₀ s) :
    Keeps F s₀ (leaveCluster l k s) := by
  unfold leaveCluster
  try dsimp only
  with_reducible repeat' first
    | assumption | exact ring_wf_id | exact Memory.wf_id | intro _ | apply putLaunch_keeps | apply invalL1_keeps
    | ((fail_if_success (apply keeps_eta)); apply keeps_mk) | exact Or.inl (by assumption) | exact Or.inr rfl
    | apply keeps_ite

theorem dropTroupe_keeps (hcore : F.core) (a : SlotAt) (h : Keeps F s₀ s) :
    Keeps F s₀ (dropTroupe a s) := by
  unfold dropTroupe
  try dsimp only
  with_reducible repeat' first
    | assumption | exact ring_wf_id | exact Memory.wf_id | intro _
    | ((fail_if_success (apply keeps_eta)); apply keeps_mk) | exact Or.inl (by assumption) | exact Or.inr rfl

theorem endTroupe_keeps (hcore : F.core) (t : Troupe) (h : Keeps F s₀ s) :
    Keeps F s₀ (endTroupe t s) := by
  unfold endTroupe
  try dsimp only
  repeat' first
    | with_reducible first
      | assumption | intro _ | apply dropTroupe_keeps | apply putLaunch_keeps | apply leaveCluster_keeps
      | apply keeps_ite
    | split

theorem troupeEnd_keeps (hcore : F.core) (a : SlotAt) (h : Keeps F s₀ s) :
    Keeps F s₀ (troupeEnd a s) := by
  unfold troupeEnd
  try dsimp only
  repeat' first
    | with_reducible first
      | assumption | intro _ | apply endTroupe_keeps | apply keeps_ite
    | split

theorem execTroupeEnd_keeps (hcore : F.core) (t : SlotAt) (h : Keeps F s₀ s) :
    KeepsX F s₀ (execTroupeEnd t s) := by
  unfold execTroupeEnd
  try dsimp only
  with_reducible repeat' first
    | assumption | intro _ | apply onDie_keeps | apply troupeEnd_keeps

theorem launchDetach_keeps (hcore : F.core) (hque : F.que) (q : Nat) (i : Word) (h : Keeps F s₀ s) :
    Keeps F s₀ (launchDetach q i s) := by
  unfold launchDetach
  try dsimp only
  repeat' first
    | with_reducible first
      | assumption | intro _ | apply putLaunch_keeps | apply detach_keeps | apply keeps_ite
    | split

theorem execLaunchDetach_keeps (hcore : F.core) (hque : F.que) (queue : Nat) (index : Word) (h : Keeps F s₀ s) :
    KeepsX F s₀ (execLaunchDetach queue index s) := by
  unfold execLaunchDetach
  try dsimp only
  with_reducible repeat' first
    | assumption | intro _ | apply onDie_keeps | apply launchDetach_keeps

theorem launchRetire_keeps (hregs : F.regs) (hcore : F.core) (hslc : F.slc) (hhbm : F.hbm) (hque : F.que)
    (hxlt : F.xlt) (hrecs : F.recs) (hout : F.out) (q : Nat) (i : Word) (h : Keeps F s₀ s) :
    Keeps F s₀ (launchRetire q i s) := by
  unfold launchRetire
  try dsimp only
  repeat' first
    | with_reducible first
      | assumption | exact ring_wf_id | exact Memory.wf_id | intro _ | apply detach_keeps | apply completeItem_keeps
      | ((fail_if_success (apply keeps_eta)); apply keeps_mk) | exact Or.inl (by assumption) | exact Or.inr rfl
      | apply keeps_ite
    | split

theorem execLaunchRetire_keeps (hregs : F.regs) (hcore : F.core) (hslc : F.slc) (hhbm : F.hbm) (hque : F.que)
    (hxlt : F.xlt) (hrecs : F.recs) (hout : F.out) (queue : Nat) (index : Word) (h : Keeps F s₀ s) :
    KeepsX F s₀ (execLaunchRetire queue index s) := by
  unfold execLaunchRetire
  try dsimp only
  with_reducible repeat' first
    | assumption | intro _ | apply onDie_keeps | apply launchRetire_keeps

theorem execKill_keeps (hregs : F.regs) (hcore : F.core) (hslc : F.slc) (hhbm : F.hbm) (hnet : F.net) (hque : F.que)
    (hprt : F.prt) (hxlt : F.xlt) (hhost : F.host) (hrecs : F.recs) (hout : F.out) (d part inst ctx : Nat)
    (h : Keeps F s₀ s) :
    KeepsX F s₀ (execKill d part inst ctx s) := by
  unfold execKill
  try dsimp only
  repeat' first
    | with_reducible first
      | assumption | intro _ | apply onDie_keeps | apply killReaches_keeps | apply keeps_ite
    | split

theorem irqCoalesceTimeout_keeps (hregs : F.regs) (hout : F.out) (d e : Nat) (h : Keeps F s₀ s) :
    Keeps F s₀ (irqCoalesceTimeout d e s) := by
  unfold irqCoalesceTimeout
  try dsimp only
  repeat' first
    | with_reducible first
      | assumption | intro _ | apply sendMsi_keeps | apply keeps_ite
    | split

theorem execIrqCoalesceTimeout_keeps (hregs : F.regs) (hout : F.out) (d e : Nat) (h : Keeps F s₀ s) :
    KeepsX F s₀ (execIrqCoalesceTimeout d e s) := by
  unfold execIrqCoalesceTimeout
  try dsimp only
  with_reducible repeat' first
    | assumption | intro _ | apply onDie_keeps | apply irqCoalesceTimeout_keeps

theorem degrade_keeps (hrecs : F.recs) (d unit part kind index remain : Nat) (h : Keeps F s₀ s) :
    Keeps F s₀ (degrade d unit part kind index remain s) := by
  unfold degrade
  try dsimp only
  with_reducible repeat' first
    | assumption | intro _ | apply emit_keeps

theorem clusterFailure_keeps (hregs : F.regs) (hcore : F.core) (hslc : F.slc) (hhbm : F.hbm) (hque : F.que)
    (hprt : F.prt) (hxlt : F.xlt) (hhost : F.host) (hrecs : F.recs) (hout : F.out) (d c : Nat) (h : Keeps F s₀ s) :
    Keeps F s₀ (clusterFailure d c s) := by
  unfold clusterFailure
  try dsimp only
  repeat' first
    | with_reducible first
      | assumption | exact ring_wf_id | exact Memory.wf_id | intro _ | apply degrade_keeps | apply State.wrBit_keeps
      | apply invalL1_keeps | apply partFault_keeps | ((fail_if_success (apply keeps_eta)); apply keeps_mk)
      | exact Or.inl (by assumption) | exact Or.inr rfl | apply keeps_ite | apply keeps_getD | apply keepsP_getD
    | split

theorem execClusterFailure_keeps (hregs : F.regs) (hcore : F.core) (hslc : F.slc) (hhbm : F.hbm) (hque : F.que)
    (hprt : F.prt) (hxlt : F.xlt) (hhost : F.host) (hrecs : F.recs) (hout : F.out) (d cluster : Nat)
    (h : Keeps F s₀ s) :
    KeepsX F s₀ (execClusterFailure d cluster s) := by
  unfold execClusterFailure
  try dsimp only
  with_reducible repeat' first
    | assumption | intro _ | apply onDie_keeps | apply clusterFailure_keeps

theorem execIllegalInstruction_keeps (hregs : F.regs) (hcore : F.core) (hslc : F.slc) (hhbm : F.hbm) (hnet : F.net)
    (hque : F.que) (hprt : F.prt) (hxlt : F.xlt) (hhost : F.host) (hrecs : F.recs) (hout : F.out) (at_ : Issue)
    (w : Word) (h : Keeps F s₀ s) :
    KeepsX F s₀ (execIllegalInstruction at_ w s) := by
  unfold execIllegalInstruction
  try dsimp only
  repeat' first
    | with_reducible first
      | assumption | intro _ | apply onDie_keeps | apply tickCore_keeps | apply fetch_keeps | apply troupeFault_keeps
      | apply keeps_ite | exact KeepsOP.none | apply KeepsOP.some | apply keepsOP_ite | apply keeps_getD
      | apply keepsP_getD | apply KeepsX.next | exact KeepsX.fault | exact KeepsX.refused
      | refine KeepsOP.of ?_ (by assumption) | refine KeepsOP.pair ?_ (by assumption)
    | split

end Sys2Proof.Machine
end

