-- ==== Sys2Proof/Laws/KeepsLinks.lean ====
section
/-! SUPPORT. What each effect of Machine/Links.lean may change (see Laws/Keeps.lean). -/

namespace Sys2Proof.Machine

variable {F : Frame} {s₀ s : State}

theorem putPort_keeps (hnet : F.net) (p : LinkPort) (h : Keeps F s₀ s) :
    Keeps F s₀ (putPort p s) := by
  unfold putPort
  try dsimp only
  with_reducible repeat' first
    | assumption | exact ring_wf_id | exact Memory.wf_id | intro _
    | ((fail_if_success (apply keeps_eta)); apply keeps_mk) | exact Or.inl (by assumption) | exact Or.inr rfl

theorem queueFrame_keeps (hnet : F.net) (a port : Nat) (bytes : List Byte) (h : Keeps F s₀ s) :
    Keeps F s₀ (queueFrame a port bytes s) := by
  unfold queueFrame
  try dsimp only
  with_reducible repeat' first
    | assumption | intro _ | apply putPort_keeps

theorem sendCtl_keeps (hnet : F.net) (a port kind : Nat) (bytes : List Byte) (h : Keeps F s₀ s) :
    Keeps F s₀ (sendCtl a port kind bytes s) := by
  unfold sendCtl
  try dsimp only
  with_reducible repeat' first
    | assumption | exact ring_wf_id | exact Memory.wf_id | intro _ | apply queueFrame_keeps
    | ((fail_if_success (apply keeps_eta)); apply keeps_mk) | exact Or.inl (by assumption) | exact Or.inr rfl

theorem sendTo_keeps (hnet : F.net) (a b kind : Nat) (bytes : List Byte) (h : Keeps F s₀ s) :
    Keeps F s₀ (sendTo a b kind bytes s) := by
  unfold sendTo
  try dsimp only
  repeat' first
    | with_reducible first
      | assumption | exact ring_wf_id | exact Memory.wf_id | intro _ | apply queueFrame_keeps
      | ((fail_if_success (apply keeps_eta)); apply keeps_mk) | exact Or.inl (by assumption) | exact Or.inr rfl
    | split

theorem tellAll_keeps (hnet : F.net) (a kind : Nat) (bytes : List Byte) (h : Keeps F s₀ s) :
    Keeps F s₀ (tellAll a kind bytes s) := by
  unfold tellAll
  try dsimp only
  with_reducible repeat' first
    | assumption | intro _ | apply each_keeps | apply sendTo_keeps

theorem setPort_keeps (hregs : F.regs) (d port width : Nat) (h : Keeps F s₀ s) :
    Keeps F s₀ (setPort d port width s) := by
  unfold setPort
  try dsimp only
  with_reducible repeat' first
    | assumption | intro _ | apply State.wrBit_keeps | apply State.wr_keeps | apply keeps_ite

theorem retrainRecord_keeps (hrecs : F.recs) (d port width result : Nat) (h : Keeps F s₀ s) :
    Keeps F s₀ (retrainRecord d port width result s) := by
  unfold retrainRecord
  try dsimp only
  repeat' first
    | with_reducible first
      | assumption | intro _ | apply State.free_keeps | apply emit_keeps | apply keeps_ite | apply KeepsP.snd
    | split

theorem toashFrame_keeps (hregs : F.regs) (hnet : F.net) (hrecs : F.recs) (d port : Nat) (b : List Byte)
    (h : Keeps F s₀ s) :
    Keeps F s₀ (toashFrame d port b s) := by
  unfold toashFrame
  try dsimp only
  with_reducible repeat' first
    | assumption | intro _ | apply putPort_keeps | apply State.count_keeps | apply sendCtl_keeps
    | apply correctable_keeps | apply keeps_ite

theorem execToashFrame_keeps (hregs : F.regs) (hnet : F.net) (hrecs : F.recs) (d port : Nat) (header : BitVec 32)
    (flits : List Byte) (crc : BitVec 32) (h : Keeps F s₀ s) :
    KeepsX F s₀ (execToashFrame d port header flits crc s) := by
  unfold execToashFrame
  try dsimp only
  repeat' first
    | with_reducible first
      | assumption | intro _ | apply onDie_keeps | apply toashFrame_keeps | apply keeps_ite
    | split

theorem retrain_keeps (hregs : F.regs) (hnet : F.net) (hrecs : F.recs) (d port width : Nat) (h : Keeps F s₀ s) :
    Keeps F s₀ (retrain d port width s) := by
  unfold retrain
  try dsimp only
  with_reducible repeat' first
    | assumption | intro _ | apply putPort_keeps | apply State.count_keeps | apply retrainRecord_keeps
    | apply setPort_keeps | apply degrade_keeps | apply keeps_ite

theorem toashNak_keeps (hregs : F.regs) (hnet : F.net) (hrecs : F.recs) (d port lastGood : Nat) (h : Keeps F s₀ s) :
    Keeps F s₀ (toashNak d port lastGood s) := by
  unfold toashNak
  try dsimp only
  with_reducible repeat' first
    | assumption | intro _ | apply putPort_keeps | apply retrain_keeps | apply keeps_ite

theorem execToashNak_keeps (hregs : F.regs) (hnet : F.net) (hrecs : F.recs) (d port lastGood : Nat) (h : Keeps F s₀ s)
    :
    KeepsX F s₀ (execToashNak d port lastGood s) := by
  unfold execToashNak
  try dsimp only
  repeat' first
    | with_reducible first
      | assumption | intro _ | apply onDie_keeps | apply toashNak_keeps | apply keeps_ite
    | split

theorem rackFault_keeps (hrecs : F.recs) (cause : Nat) (h : Keeps F s₀ s) :
    Keeps F s₀ (rackFault cause s) := by
  unfold rackFault
  try dsimp only
  with_reducible repeat' first
    | assumption | intro _ | apply rackEmit_keeps

theorem planeLoss_keeps (hregs : F.regs) (hrack : F.rack) (hboot : F.boot) (himg : F.img) (hcore : F.core)
    (hslc : F.slc) (hhbm : F.hbm) (hnet : F.net) (hque : F.que) (hprt : F.prt) (hxlt : F.xlt) (hhost : F.host)
    (hrecs : F.recs) (hout : F.out) (plane : Nat) (h : Keeps F s₀ s) :
    Keeps F s₀ (planeLoss plane s) := by
  unfold planeLoss
  try dsimp only
  with_reducible repeat' first
    | assumption | exact ring_wf_id | exact Memory.wf_id | intro _ | apply rackFault_keeps | apply each_keeps
    | apply setPort_keeps | apply partFault_keeps | apply dieReset_keeps
    | ((fail_if_success (apply keeps_eta)); apply keeps_mk) | exact Or.inl (by assumption) | exact Or.inr rfl
    | apply keeps_ite

theorem execSpinePlaneLoss_keeps (hregs : F.regs) (hrack : F.rack) (hboot : F.boot) (himg : F.img) (hcore : F.core)
    (hslc : F.slc) (hhbm : F.hbm) (hnet : F.net) (hque : F.que) (hprt : F.prt) (hxlt : F.xlt) (hhost : F.host)
    (hrecs : F.recs) (hout : F.out) (plane : Nat) (h : Keeps F s₀ s) :
    KeepsX F s₀ (execSpinePlaneLoss plane s) := by
  unfold execSpinePlaneLoss
  try dsimp only
  repeat' first
    | with_reducible first
      | assumption | intro _ | apply planeLoss_keeps | apply keeps_ite | apply KeepsX.next
    | split

theorem loseFrames_keeps (hslc : F.slc) (hnet : F.net) (d port : Nat) (h : Keeps F s₀ s) :
    Keeps F s₀ (loseFrames d port s) := by
  unfold loseFrames
  try dsimp only
  with_reducible repeat' first
    | assumption | exact ring_wf_id | exact Memory.wf_id | intro _
    | ((fail_if_success (apply keeps_eta)); apply keeps_mk) | exact Or.inl (by assumption) | exact Or.inr rfl

theorem toashPortDown_keeps (hregs : F.regs) (hrack : F.rack) (hboot : F.boot) (himg : F.img) (hcore : F.core)
    (hslc : F.slc) (hhbm : F.hbm) (hnet : F.net) (hque : F.que) (hprt : F.prt) (hxlt : F.xlt) (hhost : F.host)
    (hrecs : F.recs) (hout : F.out) (d port : Nat) (h : Keeps F s₀ s) :
    Keeps F s₀ (toashPortDown d port s) := by
  unfold toashPortDown
  try dsimp only
  with_reducible repeat' first
    | assumption | exact ring_wf_id | exact Memory.wf_id | intro _ | apply retrainRecord_keeps | apply setPort_keeps
    | apply loseFrames_keeps | apply each_keeps | apply partFault_keeps | apply dieReset_keeps | apply planeLoss_keeps
    | ((fail_if_success (apply keeps_eta)); apply keeps_mk) | exact Or.inl (by assumption) | exact Or.inr rfl
    | apply keeps_ite

theorem execToashPortDown_keeps (hregs : F.regs) (hrack : F.rack) (hboot : F.boot) (himg : F.img) (hcore : F.core)
    (hslc : F.slc) (hhbm : F.hbm) (hnet : F.net) (hque : F.que) (hprt : F.prt) (hxlt : F.xlt) (hhost : F.host)
    (hrecs : F.recs) (hout : F.out) (d port : Nat) (h : Keeps F s₀ s) :
    KeepsX F s₀ (execToashPortDown d port s) := by
  unfold execToashPortDown
  try dsimp only
  repeat' first
    | with_reducible first
      | assumption | intro _ | apply onDie_keeps | apply toashPortDown_keeps | apply keeps_ite
    | split

theorem toashRetrain_keeps (hregs : F.regs) (hrack : F.rack) (hboot : F.boot) (himg : F.img) (hcore : F.core)
    (hslc : F.slc) (hhbm : F.hbm) (hnet : F.net) (hque : F.que) (hprt : F.prt) (hxlt : F.xlt) (hhost : F.host)
    (hrecs : F.recs) (hout : F.out) (d port width : Nat) (h : Keeps F s₀ s) :
    Keeps F s₀ (toashRetrain d port width s) := by
  unfold toashRetrain
  try dsimp only
  with_reducible repeat' first
    | assumption | intro _ | apply toashPortDown_keeps | apply retrain_keeps | apply keeps_ite

theorem execToashRetrain_keeps (hregs : F.regs) (hrack : F.rack) (hboot : F.boot) (himg : F.img) (hcore : F.core)
    (hslc : F.slc) (hhbm : F.hbm) (hnet : F.net) (hque : F.que) (hprt : F.prt) (hxlt : F.xlt) (hhost : F.host)
    (hrecs : F.recs) (hout : F.out) (d port width : Nat) (h : Keeps F s₀ s) :
    KeepsX F s₀ (execToashRetrain d port width s) := by
  unfold execToashRetrain
  try dsimp only
  repeat' first
    | with_reducible first
      | assumption | intro _ | apply onDie_keeps | apply toashRetrain_keeps | apply keeps_ite
    | split

theorem toashPortTrained_keeps (hregs : F.regs) (hnet : F.net) (d port width : Nat) (h : Keeps F s₀ s) :
    Keeps F s₀ (toashPortTrained d port width s) := by
  unfold toashPortTrained
  try dsimp only
  with_reducible repeat' first
    | assumption | intro _ | apply putPort_keeps | apply setPort_keeps | apply keeps_ite

theorem execToashPortTrained_keeps (hregs : F.regs) (hnet : F.net) (d port width : Nat) (h : Keeps F s₀ s) :
    KeepsX F s₀ (execToashPortTrained d port width s) := by
  unfold execToashPortTrained
  try dsimp only
  repeat' first
    | with_reducible first
      | assumption | intro _ | apply onDie_keeps | apply toashPortTrained_keeps | apply keeps_ite
    | split

theorem degradeFault_keeps (hregs : F.regs) (hcore : F.core) (hslc : F.slc) (hhbm : F.hbm) (hque : F.que)
    (hprt : F.prt) (hxlt : F.xlt) (hhost : F.host) (hrecs : F.recs) (hout : F.out)
    (d side kind index remain cause : Nat) (h : Keeps F s₀ s) :
    Keeps F s₀ (degradeFault d side kind index remain cause s) := by
  unfold degradeFault
  try dsimp only
  repeat' first
    | with_reducible first
      | assumption | intro _ | apply degrade_keeps | apply partFault_keeps | apply keeps_getD | apply keepsP_getD
    | split

theorem routerFailure_keeps (hregs : F.regs) (hcore : F.core) (hslc : F.slc) (hhbm : F.hbm) (hnet : F.net)
    (hque : F.que) (hprt : F.prt) (hxlt : F.xlt) (hhost : F.host) (hrecs : F.recs) (hout : F.out) (d c : Nat)
    (h : Keeps F s₀ s) :
    Keeps F s₀ (routerFailure d c s) := by
  unfold routerFailure
  try dsimp only
  with_reducible repeat' first
    | assumption | exact ring_wf_id | exact Memory.wf_id | intro _ | apply degradeFault_keeps
    | apply State.wrBit_keeps | ((fail_if_success (apply keeps_eta)); apply keeps_mk) | exact Or.inl (by assumption)
    | exact Or.inr rfl

theorem execRouterFailure_keeps (hregs : F.regs) (hcore : F.core) (hslc : F.slc) (hhbm : F.hbm) (hnet : F.net)
    (hque : F.que) (hprt : F.prt) (hxlt : F.xlt) (hhost : F.host) (hrecs : F.recs) (hout : F.out) (d cluster : Nat)
    (h : Keeps F s₀ s) :
    KeepsX F s₀ (execRouterFailure d cluster s) := by
  unfold execRouterFailure
  try dsimp only
  repeat' first
    | with_reducible first
      | assumption | intro _ | apply onDie_keeps | apply routerFailure_keeps | apply keeps_ite
    | split

theorem halfLinkLaneDown_keeps (hregs : F.regs) (hcore : F.core) (hslc : F.slc) (hhbm : F.hbm) (hnet : F.net)
    (hque : F.que) (hprt : F.prt) (hxlt : F.xlt) (hhost : F.host) (hrecs : F.recs) (hout : F.out) (d lane : Nat)
    (h : Keeps F s₀ s) :
    Keeps F s₀ (halfLinkLaneDown d lane s) := by
  unfold halfLinkLaneDown
  try dsimp only
  repeat' first
    | with_reducible first
      | assumption | exact ring_wf_id | exact Memory.wf_id | intro _ | apply degradeFault_keeps
      | apply partFault_keeps | ((fail_if_success (apply keeps_eta)); apply keeps_mk) | exact Or.inl (by assumption)
      | exact Or.inr rfl | apply keeps_ite
    | split

theorem execHalfLinkLaneDown_keeps (hregs : F.regs) (hcore : F.core) (hslc : F.slc) (hhbm : F.hbm) (hnet : F.net)
    (hque : F.que) (hprt : F.prt) (hxlt : F.xlt) (hhost : F.host) (hrecs : F.recs) (hout : F.out) (d lane : Nat)
    (h : Keeps F s₀ s) :
    KeepsX F s₀ (execHalfLinkLaneDown d lane s) := by
  unfold execHalfLinkLaneDown
  try dsimp only
  repeat' first
    | with_reducible first
      | assumption | intro _ | apply onDie_keeps | apply halfLinkLaneDown_keeps | apply keeps_ite
    | split

end Sys2Proof.Machine
end

