-- ==== Sys2Proof/Laws/KeepsBoot.lean ====
section
/-! SUPPORT. What each effect of Machine/Boot.lean may change (see Laws/Keeps.lean). -/

namespace Sys2Proof.Machine

variable {F : Frame} {s₀ s : State}

theorem uartPrint_keeps (hboot : F.boot) (d n : Nat) (h : Keeps F s₀ s) :
    Keeps F s₀ (uartPrint d n s) := by
  unfold uartPrint
  try dsimp only
  with_reducible repeat' first
    | assumption | exact ring_wf_id | exact Memory.wf_id | intro _
    | ((fail_if_success (apply keeps_eta)); apply keeps_mk) | exact Or.inl (by assumption) | exact Or.inr rfl

theorem stageDone_keeps (hregs : F.regs) (hboot : F.boot) (d code : Nat) (h : Keeps F s₀ s) :
    Keeps F s₀ (stageDone d code s) := by
  unfold stageDone
  try dsimp only
  with_reducible repeat' first
    | assumption | intro _ | apply uartPrint_keeps | apply State.wr_keeps

theorem failRecord_keeps (hrecs : F.recs) (d stage err copy : Nat) (h : Keeps F s₀ s) :
    Keeps F s₀ (failRecord d stage err copy s) := by
  unfold failRecord
  try dsimp only
  repeat' first
    | with_reducible first
      | assumption | intro _ | apply State.free_keeps | apply emit_keeps | apply KeepsP.snd
    | split

theorem bootFail_keeps (hregs : F.regs) (hboot : F.boot) (hrecs : F.recs) (d stage err copy : Nat) (h : Keeps F s₀ s)
    :
    Keeps F s₀ (bootFail d stage err copy s) := by
  unfold bootFail
  try dsimp only
  with_reducible repeat' first
    | assumption | intro _ | apply uartPrint_keeps | apply failRecord_keeps | apply State.wr_keeps

theorem pllLock_keeps (hregs : F.regs) (hrack : F.rack) (hboot : F.boot) (d : Nat) (h : Keeps F s₀ s) :
    Keeps F s₀ (pllLock d s) := by
  unfold pllLock
  try dsimp only
  repeat' first
    | with_reducible first
      | assumption | exact ring_wf_id | exact Memory.wf_id | intro _ | apply each_keeps | apply uartPrint_keeps
      | apply stageDone_keeps | apply State.wr_keeps | ((fail_if_success (apply keeps_eta)); apply keeps_mk)
      | exact Or.inl (by assumption) | exact Or.inr rfl | apply keeps_ite
    | split

theorem execPllLock_keeps (hregs : F.regs) (hrack : F.rack) (hboot : F.boot) (d : Nat) (h : Keeps F s₀ s) :
    KeepsX F s₀ (execPllLock d s) := by
  unfold execPllLock
  try dsimp only
  with_reducible repeat' first
    | assumption | intro _ | apply onDie_keeps | apply pllLock_keeps

theorem pllLockTimeout_keeps (hregs : F.regs) (hboot : F.boot) (hrecs : F.recs) (d : Nat) (h : Keeps F s₀ s) :
    Keeps F s₀ (pllLockTimeout d s) := by
  unfold pllLockTimeout
  try dsimp only
  with_reducible repeat' first
    | assumption | exact ring_wf_id | exact Memory.wf_id | intro _ | apply bootFail_keeps
    | ((fail_if_success (apply keeps_eta)); apply keeps_mk) | exact Or.inl (by assumption) | exact Or.inr rfl
    | apply keeps_ite

theorem execPllLockTimeout_keeps (hregs : F.regs) (hboot : F.boot) (hrecs : F.recs) (d : Nat) (h : Keeps F s₀ s) :
    KeepsX F s₀ (execPllLockTimeout d s) := by
  unfold execPllLockTimeout
  try dsimp only
  with_reducible repeat' first
    | assumption | intro _ | apply onDie_keeps | apply pllLockTimeout_keeps

theorem pllLossOfLock_keeps (hregs : F.regs) (hrack : F.rack) (hboot : F.boot) (himg : F.img) (hcore : F.core)
    (hslc : F.slc) (hhbm : F.hbm) (hnet : F.net) (hque : F.que) (hprt : F.prt) (hxlt : F.xlt) (hhost : F.host)
    (hrecs : F.recs) (hout : F.out) (d : Nat) (h : Keeps F s₀ s) :
    Keeps F s₀ (pllLossOfLock d s) := by
  unfold pllLossOfLock
  try dsimp only
  with_reducible repeat' first
    | assumption | intro _ | apply dieReset_keeps | apply keeps_ite

theorem execPllLossOfLock_keeps (hregs : F.regs) (hrack : F.rack) (hboot : F.boot) (himg : F.img) (hcore : F.core)
    (hslc : F.slc) (hhbm : F.hbm) (hnet : F.net) (hque : F.que) (hprt : F.prt) (hxlt : F.xlt) (hhost : F.host)
    (hrecs : F.recs) (hout : F.out) (d : Nat) (h : Keeps F s₀ s) :
    KeepsX F s₀ (execPllLossOfLock d s) := by
  unfold execPllLossOfLock
  try dsimp only
  with_reducible repeat' first
    | assumption | intro _ | apply onDie_keeps | apply pllLossOfLock_keeps

theorem refclkLoss_keeps (hregs : F.regs) (hrack : F.rack) (hboot : F.boot) (himg : F.img) (hcore : F.core)
    (hslc : F.slc) (hhbm : F.hbm) (hnet : F.net) (hque : F.que) (hprt : F.prt) (hxlt : F.xlt) (hhost : F.host)
    (hrecs : F.recs) (hout : F.out) (h : Keeps F s₀ s) :
    Keeps F s₀ (refclkLoss s) := by
  unfold refclkLoss
  try dsimp only
  with_reducible repeat' first
    | assumption | exact ring_wf_id | exact Memory.wf_id | intro _ | apply rackFault_keeps | apply each_keeps
    | apply dieReset_keeps | ((fail_if_success (apply keeps_eta)); apply keeps_mk) | exact Or.inl (by assumption)
    | exact Or.inr rfl | apply keeps_ite

theorem execRefclkLoss_keeps (hregs : F.regs) (hrack : F.rack) (hboot : F.boot) (himg : F.img) (hcore : F.core)
    (hslc : F.slc) (hhbm : F.hbm) (hnet : F.net) (hque : F.que) (hprt : F.prt) (hxlt : F.xlt) (hhost : F.host)
    (hrecs : F.recs) (hout : F.out) (h : Keeps F s₀ s) :
    KeepsX F s₀ (execRefclkLoss s) := by
  unfold execRefclkLoss
  try dsimp only
  with_reducible repeat' first
    | assumption | intro _ | apply refclkLoss_keeps | apply KeepsX.next

theorem stoppedReset_keeps (hregs : F.regs) (hrack : F.rack) (hboot : F.boot) (d : Nat) (h : Keeps F s₀ s) :
    Keeps F s₀ (stoppedReset d s) := by
  unfold stoppedReset
  try dsimp only
  with_reducible repeat' first
    | assumption | exact ring_wf_id | exact Memory.wf_id | intro _ | apply State.wr_keeps
    | ((fail_if_success (apply keeps_eta)); apply keeps_mk) | exact Or.inl (by assumption) | exact Or.inr rfl

theorem dieResetCmd_keeps (hregs : F.regs) (hrack : F.rack) (hboot : F.boot) (himg : F.img) (hcore : F.core)
    (hslc : F.slc) (hhbm : F.hbm) (hnet : F.net) (hque : F.que) (hprt : F.prt) (hxlt : F.xlt) (hhost : F.host)
    (hrecs : F.recs) (hout : F.out) (d : Nat) (h : Keeps F s₀ s) :
    Keeps F s₀ (dieResetCmd d s) := by
  unfold dieResetCmd
  try dsimp only
  with_reducible repeat' first
    | assumption | intro _ | apply dieReset_keeps | apply stoppedReset_keeps | apply keeps_ite

theorem execDieReset_keeps (hregs : F.regs) (hrack : F.rack) (hboot : F.boot) (himg : F.img) (hcore : F.core)
    (hslc : F.slc) (hhbm : F.hbm) (hnet : F.net) (hque : F.que) (hprt : F.prt) (hxlt : F.xlt) (hhost : F.host)
    (hrecs : F.recs) (hout : F.out) (d : Nat) (h : Keeps F s₀ s) :
    KeepsX F s₀ (execDieReset d s) := by
  unfold execDieReset
  try dsimp only
  with_reducible repeat' first
    | assumption | intro _ | apply onDie_keeps | apply dieResetCmd_keeps

theorem modulePowerOff_keeps (hregs : F.regs) (hrack : F.rack) (hboot : F.boot) (himg : F.img) (hcore : F.core)
    (hslc : F.slc) (hhbm : F.hbm) (hnet : F.net) (hque : F.que) (hprt : F.prt) (hxlt : F.xlt) (hhost : F.host)
    (hrecs : F.recs) (hout : F.out) (m : Nat) (h : Keeps F s₀ s) :
    Keeps F s₀ (modulePowerOff m s) := by
  unfold modulePowerOff
  try dsimp only
  with_reducible repeat' first
    | assumption | exact ring_wf_id | exact Memory.wf_id | intro _ | apply each_keeps | apply dieUnpower_keeps
    | ((fail_if_success (apply keeps_eta)); apply keeps_mk) | exact Or.inl (by assumption)

theorem moduleReset_keeps (hregs : F.regs) (hrack : F.rack) (hboot : F.boot) (himg : F.img) (hcore : F.core)
    (hslc : F.slc) (hhbm : F.hbm) (hnet : F.net) (hque : F.que) (hprt : F.prt) (hxlt : F.xlt) (hhost : F.host)
    (hrecs : F.recs) (hout : F.out) (m : Nat) (h : Keeps F s₀ s) :
    Keeps F s₀ (moduleReset m s) := by
  unfold moduleReset
  try dsimp only
  with_reducible repeat' first
    | assumption | intro _ | apply modulePowerOff_keeps | apply each_keeps | apply rmCopyRing_keeps | apply keeps_ite

theorem execModuleReset_keeps (hregs : F.regs) (hrack : F.rack) (hboot : F.boot) (himg : F.img) (hcore : F.core)
    (hslc : F.slc) (hhbm : F.hbm) (hnet : F.net) (hque : F.que) (hprt : F.prt) (hxlt : F.xlt) (hhost : F.host)
    (hrecs : F.recs) (hout : F.out) (m : Nat) (h : Keeps F s₀ s) :
    KeepsX F s₀ (execModuleReset m s) := by
  unfold execModuleReset
  try dsimp only
  with_reducible repeat' first
    | assumption | intro _ | apply onDie_keeps | apply moduleReset_keeps

theorem rackRestart_keeps (hregs : F.regs) (hrack : F.rack) (hboot : F.boot) (himg : F.img) (hcore : F.core)
    (hnet : F.net) (hprt : F.prt) (h : Keeps F s₀ s) :
    Keeps F s₀ (rackRestart s) := by
  unfold rackRestart
  try dsimp only
  with_reducible repeat' first
    | assumption | exact ring_wf_id | exact Memory.wf_id | intro _ | apply State.resetRegs_keeps
    | ((fail_if_success (apply keeps_eta)); apply keeps_mk) | exact Or.inl (by assumption) | exact Or.inr rfl

theorem rackReset_keeps (hregs : F.regs) (hrack : F.rack) (hboot : F.boot) (himg : F.img) (hcore : F.core)
    (hslc : F.slc) (hhbm : F.hbm) (hnet : F.net) (hque : F.que) (hprt : F.prt) (hxlt : F.xlt) (hhost : F.host)
    (hrecs : F.recs) (hout : F.out) (h : Keeps F s₀ s) :
    Keeps F s₀ (rackReset s) := by
  unfold rackReset
  try dsimp only
  with_reducible repeat' first
    | assumption | exact ring_wf_id | exact Memory.wf_id | intro _ | apply each_keeps | apply rmCopyRing_keeps
    | apply dieUnpower_keeps | apply rackRestart_keeps | ((fail_if_success (apply keeps_eta)); apply keeps_mk)
    | exact Or.inl (by assumption)

theorem execRackReset_keeps (hregs : F.regs) (hrack : F.rack) (hboot : F.boot) (himg : F.img) (hcore : F.core)
    (hslc : F.slc) (hhbm : F.hbm) (hnet : F.net) (hque : F.que) (hprt : F.prt) (hxlt : F.xlt) (hhost : F.host)
    (hrecs : F.recs) (hout : F.out) (h : Keeps F s₀ s) :
    KeepsX F s₀ (execRackReset s) := by
  unfold execRackReset
  try dsimp only
  repeat' first
    | with_reducible first
      | assumption | intro _ | apply rackReset_keeps | apply keeps_ite | apply KeepsX.next
    | split

theorem loadFuses_keeps (hregs : F.regs) (d : Nat) (f : FuseData) (h : Keeps F s₀ s) :
    Keeps F s₀ (loadFuses d f s) := by
  unfold loadFuses
  try dsimp only
  with_reducible repeat' first
    | assumption | intro _ | apply State.wr_keeps | apply each_keeps

theorem setCompat_keeps (hregs : F.regs) (d n : Nat) (c : Compat) (h : Keeps F s₀ s) :
    Keeps F s₀ (setCompat d n c s) := by
  unfold setCompat
  try dsimp only
  with_reducible repeat' first
    | assumption | intro _ | apply State.wr_keeps

theorem fuseRead_keeps (hregs : F.regs) (hboot : F.boot) (hrecs : F.recs) (d : Nat) (f : FuseData) (h : Keeps F s₀ s)
    :
    Keeps F s₀ (fuseRead d f s) := by
  unfold fuseRead
  try dsimp only
  with_reducible repeat' first
    | assumption | intro _ | apply setCompat_keeps | apply loadFuses_keeps | apply bootFail_keeps
    | apply stageDone_keeps | apply keeps_ite

theorem execFuseRead_keeps (hregs : F.regs) (hboot : F.boot) (hrecs : F.recs) (d : Nat) (f : FuseData)
    (h : Keeps F s₀ s) :
    KeepsX F s₀ (execFuseRead d f s) := by
  unfold execFuseRead
  try dsimp only
  with_reducible repeat' first
    | assumption | intro _ | apply onDie_keeps | apply fuseRead_keeps

theorem bootFirmwareLoad_keeps (hregs : F.regs) (hboot : F.boot) (hrecs : F.recs) (d : Nat) (h : Keeps F s₀ s) :
    Keeps F s₀ (bootFirmwareLoad d s) := by
  unfold bootFirmwareLoad
  try dsimp only
  repeat' first
    | with_reducible first
      | assumption | intro _ | apply stageDone_keeps | apply setCompat_keeps | apply State.wr_keeps
      | apply bootFail_keeps | apply keeps_ite
    | split

theorem execBootFirmwareLoad_keeps (hregs : F.regs) (hboot : F.boot) (hrecs : F.recs) (d : Nat) (h : Keeps F s₀ s) :
    KeepsX F s₀ (execBootFirmwareLoad d s) := by
  unfold execBootFirmwareLoad
  try dsimp only
  with_reducible repeat' first
    | assumption | intro _ | apply onDie_keeps | apply bootFirmwareLoad_keeps

theorem rejoinRing_keeps (hregs : F.regs) (hrecs : F.recs) (m : RingMark) (h : Keeps F s₀ s) :
    Keeps F s₀ (rejoinRing m s) := by
  unfold rejoinRing
  try dsimp only
  with_reducible repeat' first
    | assumption | intro _ | apply State.wr_keeps | apply setCopied_keeps

theorem ringUp_keeps (hregs : F.regs) (hrecs : F.recs) (d : Nat) (h : Keeps F s₀ s) :
    Keeps F s₀ (ringUp d s) := by
  unfold ringUp
  try dsimp only
  repeat' first
    | with_reducible first
      | assumption | exact ring_wf_id | exact Memory.wf_id | intro _ | apply State.wr_keeps | apply rejoinRing_keeps
      | apply emit_keeps | ((fail_if_success (apply keeps_eta)); apply keeps_mk) | exact Or.inl (by assumption)
      | exact Or.inr rfl | apply keeps_ite
    | split

theorem hbmTraining_keeps (hregs : F.regs) (hboot : F.boot) (hrecs : F.recs) (d : Nat) (failed : BitVec 24)
    (h : Keeps F s₀ s) :
    Keeps F s₀ (hbmTraining d failed s) := by
  unfold hbmTraining
  try dsimp only
  with_reducible repeat' first
    | assumption | exact ring_wf_id | exact Memory.wf_id | intro _ | apply bootFail_keeps | apply State.wr_keeps
    | apply ringUp_keeps | apply failRecord_keeps | apply stageDone_keeps | apply each_keeps | apply degrade_keeps
    | ((fail_if_success (apply keeps_eta)); apply keeps_mk) | exact Or.inl (by assumption) | exact Or.inr rfl
    | apply keeps_ite

theorem execHbmTraining_keeps (hregs : F.regs) (hboot : F.boot) (hrecs : F.recs) (d : Nat) (failed : BitVec 24)
    (h : Keeps F s₀ s) :
    KeepsX F s₀ (execHbmTraining d failed s) := by
  unfold execHbmTraining
  try dsimp only
  with_reducible repeat' first
    | assumption | intro _ | apply onDie_keeps | apply hbmTraining_keeps

theorem restageImage_keeps (himg : F.img) (d : Nat) (keptOk : Bool) (h : Keeps F s₀ s) :
    Keeps F s₀ (restageImage d keptOk s) := by
  unfold restageImage
  try dsimp only
  with_reducible repeat' first
    | assumption | exact ring_wf_id | exact Memory.wf_id | intro _
    | ((fail_if_success (apply keeps_eta)); apply keeps_mk) | exact Or.inl (by assumption) | exact Or.inr rfl
    | apply keeps_ite

theorem runtimeHandover_keeps (hregs : F.regs) (hboot : F.boot) (himg : F.img) (hrecs : F.recs) (d : Nat)
    (keptOk : Bool) (h : Keeps F s₀ s) :
    Keeps F s₀ (runtimeHandover d keptOk s) := by
  unfold runtimeHandover
  try dsimp only
  repeat' first
    | with_reducible first
      | assumption | exact ring_wf_id | exact Memory.wf_id | intro _ | apply bootFail_keeps | apply setCompat_keeps
      | apply State.wr_keeps | apply stageDone_keeps | apply restageImage_keeps
      | ((fail_if_success (apply keeps_eta)); apply keeps_mk) | exact Or.inl (by assumption) | exact Or.inr rfl
      | apply keeps_ite
    | split

theorem execRuntimeFirmwareHandover_keeps (hregs : F.regs) (hboot : F.boot) (himg : F.img) (hrecs : F.recs)
    (x1 : Handover) (h : Keeps F s₀ s) :
    KeepsX F s₀ (execRuntimeFirmwareHandover x1 s) := by
  unfold execRuntimeFirmwareHandover
  try dsimp only
  with_reducible repeat' first
    | assumption | intro _ | apply onDie_keeps | apply runtimeHandover_keeps

theorem wardenBoot_keeps (hregs : F.regs) (hboot : F.boot) (hrecs : F.recs) (d : Nat) (h : Keeps F s₀ s) :
    Keeps F s₀ (wardenBoot d s) := by
  unfold wardenBoot
  try dsimp only
  repeat' first
    | with_reducible first
      | assumption | intro _ | apply stageDone_keeps | apply failRecord_keeps | apply setCompat_keeps
      | apply State.wr_keeps | apply State.wrBit_keeps | apply emit_keeps | apply keeps_ite
    | split

theorem execWardenBoot_keeps (hregs : F.regs) (hboot : F.boot) (hrecs : F.recs) (d : Nat) (h : Keeps F s₀ s) :
    KeepsX F s₀ (execWardenBoot d s) := by
  unfold execWardenBoot
  try dsimp only
  with_reducible repeat' first
    | assumption | intro _ | apply onDie_keeps | apply wardenBoot_keeps

theorem moduleRollCall_keeps (hregs : F.regs) (hboot : F.boot) (d : Nat) (after30ms : Bool) (h : Keeps F s₀ s) :
    Keeps F s₀ (moduleRollCall d after30ms s) := by
  unfold moduleRollCall
  try dsimp only
  with_reducible repeat' first
    | assumption | intro _ | apply stageDone_keeps | apply each_keeps | apply setPort_keeps | apply keeps_ite

theorem execModuleRollCall_keeps (hregs : F.regs) (hboot : F.boot) (d : Nat) (after30ms : Bool) (h : Keeps F s₀ s) :
    KeepsX F s₀ (execModuleRollCall d after30ms s) := by
  unfold execModuleRollCall
  try dsimp only
  with_reducible repeat' first
    | assumption | intro _ | apply onDie_keeps | apply moduleRollCall_keeps

theorem stageTimeout_keeps (hregs : F.regs) (hboot : F.boot) (hrecs : F.recs) (d : Nat) (h : Keeps F s₀ s) :
    Keeps F s₀ (stageTimeout d s) := by
  unfold stageTimeout
  try dsimp only
  with_reducible repeat' first
    | assumption | intro _ | apply bootFail_keeps | apply keeps_ite

theorem execStageTimeout_keeps (hregs : F.regs) (hboot : F.boot) (hrecs : F.recs) (d : Nat) (h : Keeps F s₀ s) :
    KeepsX F s₀ (execStageTimeout d s) := by
  unfold execStageTimeout
  try dsimp only
  with_reducible repeat' first
    | assumption | intro _ | apply onDie_keeps | apply stageTimeout_keeps

end Sys2Proof.Machine
end

