-- ==== Sys2Proof/Laws/KeepsClock.lean ====
section
/-! SUPPORT. What each effect of Machine/Clock.lean may change (see Laws/Keeps.lean). -/

namespace Sys2Proof.Machine

variable {F : Frame} {s₀ s : State}

theorem dieEdge_keeps (hregs : F.regs) (hboot : F.boot) (d : Nat) (h : Keeps F s₀ s) :
    Keeps F s₀ (dieEdge s d) := by
  unfold dieEdge
  try dsimp only
  with_reducible repeat' first
    | assumption | exact ring_wf_id | exact Memory.wf_id | intro _ | apply State.wr_keeps | apply State.count_keeps
    | ((fail_if_success (apply keeps_eta)); apply keeps_mk) | exact Or.inl (by assumption) | exact Or.inr rfl
    | apply keeps_ite

theorem refclkEdge_keeps (hregs : F.regs) (hboot : F.boot) (hrecs : F.recs) (h : Keeps F s₀ s) :
    Keeps F s₀ (refclkEdge s) := by
  unfold refclkEdge
  try dsimp only
  with_reducible repeat' first
    | assumption | exact ring_wf_id | exact Memory.wf_id | intro _ | apply each_keeps | apply dieEdge_keeps
    | ((fail_if_success (apply keeps_eta)); apply keeps_mk) | exact Or.inl (by assumption) | exact Or.inr rfl
    | apply keeps_ite

end Sys2Proof.Machine
end

