-- ==== Sys2Proof/Laws/KeepsTook.lean ====
section
/-! SUPPORT. What a message, a core instruction and a mover access may change: `Keeps` for the results that carry a
state inside. -/

namespace Sys2Proof.Machine

variable {F : Frame} {s₀ s : State}

/-- What a message met in its cell. -/
structure KeepsT (F : Frame) (s : State) (x : Took) : Prop where
  of : ∀ {t}, x = .ok t → Keeps F s t

theorem KeepsT.ok (h : Keeps F s₀ s) : KeepsT F s₀ (.ok s) := ⟨fun e => by cases e; exact h⟩
theorem KeepsT.held : KeepsT F s₀ .held := ⟨fun e => by cases e⟩
theorem KeepsT.fetching : KeepsT F s₀ .fetching := ⟨fun e => by cases e⟩
theorem KeepsT.bad : KeepsT F s₀ .bad := ⟨fun e => by cases e⟩

structure KeepsTS (F : Frame) (s : State) (x : Took × State) : Prop where
  fst : KeepsT F s x.1
  snd : Keeps F s x.2

theorem KeepsTS.mk' {a : Took} (h : KeepsT F s₀ a) (k : Keeps F s₀ s) : KeepsTS F s₀ (a, s) := ⟨h, k⟩
theorem KeepsTS.eta {x : Took × State} (h : KeepsTS F s₀ x) : KeepsTS F s₀ (x.1, x.2) := h
theorem KeepsTS.ofP {x : Took × State} {a : Took} {t : State} (h : KeepsTS F s₀ x) (e : x = (a, t)) : Keeps F s₀ t := by
  subst e; exact h.snd
theorem KeepsTS.of {x : Took × State} {t u : State} (h : KeepsTS F s₀ x) (e : x = (.ok t, u)) : Keeps F s₀ t := by
  subst e; exact h.fst.of rfl

end Sys2Proof.Machine
end

