-- ==== Sys2Proof/Laws/KeepsCoherence.lean ====
section
/-! SUPPORT. What each effect of Machine/Coherence.lean may change (see Laws/Keeps.lean). -/

namespace Sys2Proof.Machine

variable {F : Frame} {s₀ s : State}

theorem accessFault_keeps (hregs : F.regs) (hcore : F.core) (hslc : F.slc) (hhbm : F.hbm) (hnet : F.net)
    (hque : F.que) (hprt : F.prt) (hxlt : F.xlt) (hhost : F.host) (hrecs : F.recs) (hout : F.out)
    (d part inst ctx addr : Nat) (h : Keeps F s₀ s) :
    Keeps F s₀ (accessFault d part inst ctx addr s) := by
  unfold accessFault
  try dsimp only
  with_reducible repeat' first
    | assumption | intro _ | apply contextFault_keeps

theorem deny_keeps (hregs : F.regs) (hcore : F.core) (hslc : F.slc) (hhbm : F.hbm) (hnet : F.net) (hque : F.que)
    (hprt : F.prt) (hxlt : F.xlt) (hhost : F.host) (hrecs : F.recs) (hout : F.out) (d n : Nat) (w : Waiter)
    (h : Keeps F s₀ s) :
    Keeps F s₀ (deny d n w s) := by
  unfold deny
  try dsimp only
  with_reducible repeat' first
    | assumption | intro _ | apply accessFault_keeps | apply answer_keeps

theorem sliceAnswer_keeps (hregs : F.regs) (hcore : F.core) (hslc : F.slc) (hhbm : F.hbm) (hnet : F.net)
    (hque : F.que) (hprt : F.prt) (hxlt : F.xlt) (hhost : F.host) (hrecs : F.recs) (hout : F.out) (d n k : Nat)
    (w : Waiter) (h : Keeps F s₀ s) :
    Keeps F s₀ (sliceAnswer d n k w s) := by
  unfold sliceAnswer
  try dsimp only
  repeat' first
    | with_reducible first
      | assumption | intro _ | apply deny_keeps | apply answer_keeps | apply serve_keeps | apply leaveStarve_keeps
      | apply acceptRequest_keeps | apply keeps_ite | exact KeepsO.none | apply KeepsO.some | apply keepsO_ite
      | refine KeepsO.of ?_ (by assumption)
    | split

theorem sliceRequest_keeps (hregs : F.regs) (hcore : F.core) (hslc : F.slc) (hhbm : F.hbm) (hnet : F.net)
    (hque : F.que) (hprt : F.prt) (hxlt : F.xlt) (hhost : F.host) (hrecs : F.recs) (hout : F.out) (d n k : Nat)
    (w : Waiter) (h : Keeps F s₀ s) :
    Keeps F s₀ (sliceRequest d n k w s) := by
  unfold sliceRequest
  try dsimp only
  with_reducible repeat' first
    | assumption | intro _ | apply answer_keeps | apply sealedAccess_keeps | apply deny_keeps
    | apply sliceAnswer_keeps | apply rangeErr_keeps | apply keeps_ite

theorem protoErr_keeps (hregs : F.regs) (hcore : F.core) (hslc : F.slc) (hhbm : F.hbm) (hque : F.que) (hprt : F.prt)
    (hxlt : F.xlt) (hhost : F.host) (hrecs : F.recs) (hout : F.out) (d n st role : Nat) (t : CohT) (m : CohMsg)
    (h : Keeps F s₀ s) :
    Keeps F s₀ (protoErr d n st role t m s) := by
  unfold protoErr
  try dsimp only
  with_reducible repeat' first
    | assumption | intro _ | apply faultWith_keeps | apply State.count_keeps

theorem sendToReq_keeps (hregs : F.regs) (hslc : F.slc) (hxlt : F.xlt) (l : Line) (m : CohMsg) (h : Keeps F s₀ s) :
    Keeps F s₀ (sendToReq l m s) := by
  unfold sendToReq
  try dsimp only
  with_reducible repeat' first
    | assumption | intro _ | apply sendMsg_keeps

theorem sendToHome_keeps (hregs : F.regs) (hslc : F.slc) (hxlt : F.xlt) (l : Line) (m : CohMsg) (h : Keeps F s₀ s) :
    Keeps F s₀ (sendToHome l m s) := by
  unfold sendToHome
  try dsimp only
  with_reducible repeat' first
    | assumption | intro _ | apply sendMsg_keeps

theorem sendExcl_keeps (hregs : F.regs) (hslc : F.slc) (hxlt : F.xlt) (l : Line) (m : CohMsg) (h : Keeps F s₀ s) :
    Keeps F s₀ (sendExcl l m s) := by
  unfold sendExcl
  try dsimp only
  with_reducible repeat' first
    | assumption | intro _ | apply sendMsg_keeps

theorem sendAck_keeps (hregs : F.regs) (hslc : F.slc) (hxlt : F.xlt) (l : Line) (m : CohMsg) (h : Keeps F s₀ s) :
    Keeps F s₀ (sendAck l m s) := by
  unfold sendAck
  try dsimp only
  with_reducible repeat' first
    | assumption | intro _ | apply sendMsg_keeps

theorem setCache_keeps (hslc : F.slc) (inPut : Bool) (l : Line) (h : Keeps F s₀ s) :
    Keeps F s₀ (setCache inPut l s) := by
  unfold setCache
  try dsimp only
  with_reducible repeat' first
    | assumption | intro _ | apply putPut_keeps | apply putLine_keeps | apply keeps_ite

theorem endCache_keeps (hslc : F.slc) (inPut : Bool) (l : Line) (h : Keeps F s₀ s) :
    Keeps F s₀ (endCache inPut l s) := by
  unfold endCache
  try dsimp only
  with_reducible repeat' first
    | assumption | intro _ | apply dropPut_keeps | apply dropLine_keeps | apply keeps_ite

theorem onFwdGetS_keeps (hregs : F.regs) (hslc : F.slc) (hxlt : F.xlt) (inPut : Bool) (l : Line) (m : CohMsg)
    (h : Keeps F s₀ s) :
    KeepsT F s₀ (onFwdGetS inPut l m s) := by
  unfold onFwdGetS
  try dsimp only
  repeat' first
    | with_reducible first
      | assumption | intro _ | apply setCache_keeps | apply sendToHome_keeps | apply sendToReq_keeps | apply keeps_ite
      | exact KeepsT.held | exact KeepsT.bad | exact KeepsT.fetching | apply KeepsT.ok
      | refine KeepsT.of ?_ (by assumption)
    | split

theorem onFwdGetM_keeps (hregs : F.regs) (hslc : F.slc) (hxlt : F.xlt) (inPut : Bool) (l : Line) (m : CohMsg)
    (h : Keeps F s₀ s) :
    KeepsT F s₀ (onFwdGetM inPut l m s) := by
  unfold onFwdGetM
  try dsimp only
  repeat' first
    | with_reducible first
      | assumption | intro _ | apply endCache_keeps | apply sendExcl_keeps | apply setCache_keeps | exact KeepsT.held
      | exact KeepsT.bad | exact KeepsT.fetching | apply KeepsT.ok | refine KeepsT.of ?_ (by assumption)
    | split

theorem onInv_keeps (hregs : F.regs) (hslc : F.slc) (hxlt : F.xlt) (inPut : Bool) (l : Line) (m : CohMsg)
    (h : Keeps F s₀ s) :
    KeepsT F s₀ (onInv inPut l m s) := by
  unfold onInv
  try dsimp only
  repeat' first
    | with_reducible first
      | assumption | intro _ | apply endCache_keeps | apply sendAck_keeps | apply setCache_keeps | exact KeepsT.held
      | exact KeepsT.bad | exact KeepsT.fetching | apply KeepsT.ok | refine KeepsT.of ?_ (by assumption)
    | split

theorem clearMask_keeps (hslc : F.slc) (d n la : Nat) (h : Keeps F s₀ s) :
    Keeps F s₀ (clearMask d n la s) := by
  unfold clearMask
  try dsimp only
  repeat' first
    | with_reducible first
      | assumption | intro _ | apply putMshr_keeps
    | split

theorem onData_keeps (hregs : F.regs) (hslc : F.slc) (hhbm : F.hbm) (hxlt : F.xlt) (inPut : Bool) (l : Line)
    (m : CohMsg) (h : Keeps F s₀ s) :
    KeepsT F s₀ (onData inPut l m s) := by
  unfold onData
  try dsimp only
  repeat' first
    | with_reducible first
      | assumption | intro _ | apply tryPlace_keeps | apply clearMask_keeps | apply setCache_keeps | exact KeepsT.held
      | exact KeepsT.bad | exact KeepsT.fetching | apply KeepsT.ok | refine KeepsT.of ?_ (by assumption)
    | split

theorem collect_keeps (hregs : F.regs) (hslc : F.slc) (hhbm : F.hbm) (hxlt : F.xlt) (inPut : Bool) (l : Line)
    (h : Keeps F s₀ s) :
    Keeps F s₀ (collect inPut l s) := by
  unfold collect
  try dsimp only
  with_reducible repeat' first
    | assumption | intro _ | apply setCache_keeps | apply tryPlace_keeps | apply clearMask_keeps

theorem onDataExcl_keeps (hregs : F.regs) (hslc : F.slc) (hhbm : F.hbm) (hxlt : F.xlt) (inPut : Bool) (l : Line)
    (m : CohMsg) (h : Keeps F s₀ s) :
    KeepsT F s₀ (onDataExcl inPut l m s) := by
  unfold onDataExcl
  try dsimp only
  repeat' first
    | with_reducible first
      | assumption | intro _ | apply collect_keeps | exact KeepsT.held | exact KeepsT.bad | exact KeepsT.fetching
      | apply KeepsT.ok | refine KeepsT.of ?_ (by assumption)
    | split

theorem onInvAck_keeps (hslc : F.slc) (inPut : Bool) (l : Line) (h : Keeps F s₀ s) :
    KeepsT F s₀ (onInvAck inPut l s) := by
  unfold onInvAck
  try dsimp only
  repeat' first
    | with_reducible first
      | assumption | intro _ | apply setCache_keeps | apply keeps_ite | exact KeepsT.held | exact KeepsT.bad
      | exact KeepsT.fetching | apply KeepsT.ok | refine KeepsT.of ?_ (by assumption)
    | split

theorem onPutDone_keeps (hslc : F.slc) (inPut : Bool) (l : Line) (h : Keeps F s₀ s) :
    KeepsT F s₀ (onPutDone inPut l s) := by
  unfold onPutDone
  try dsimp only
  repeat' first
    | with_reducible first
      | assumption | intro _ | apply endCache_keeps | exact KeepsT.held | exact KeepsT.bad | exact KeepsT.fetching
      | apply KeepsT.ok | refine KeepsT.of ?_ (by assumption)
    | split

theorem onBusy_keeps (hslc : F.slc) (l : Line) (h : Keeps F s₀ s) :
    KeepsT F s₀ (onBusy l s) := by
  unfold onBusy
  try dsimp only
  repeat' first
    | with_reducible first
      | assumption | intro _ | apply backOffFor_keeps | apply endBackOff_keeps | apply keeps_ite | exact KeepsT.held
      | exact KeepsT.bad | exact KeepsT.fetching | apply KeepsT.ok | refine KeepsT.of ?_ (by assumption)
    | split

theorem onDenied_keeps (hregs : F.regs) (hcore : F.core) (hslc : F.slc) (hhbm : F.hbm) (hnet : F.net) (hque : F.que)
    (hprt : F.prt) (hxlt : F.xlt) (hhost : F.host) (hrecs : F.recs) (hout : F.out) (inPut : Bool) (l : Line)
    (h : Keeps F s₀ s) :
    KeepsT F s₀ (onDenied inPut l s) := by
  unfold onDenied
  try dsimp only
  repeat' first
    | with_reducible first
      | assumption | intro _ | apply endCache_keeps | apply each_keeps | apply deny_keeps | apply freeMshr_keeps
      | apply keeps_ite | exact KeepsT.held | exact KeepsT.bad | exact KeepsT.fetching | apply KeepsT.ok
      | refine KeepsT.of ?_ (by assumption)
    | split

theorem cacheCell_keeps (hregs : F.regs) (hcore : F.core) (hslc : F.slc) (hhbm : F.hbm) (hnet : F.net) (hque : F.que)
    (hprt : F.prt) (hxlt : F.xlt) (hhost : F.host) (hrecs : F.recs) (hout : F.out) (t : CohT) (inPut : Bool)
    (l : Line) (m : CohMsg) (h : Keeps F s₀ s) :
    KeepsT F s₀ (cacheCell t inPut l m s) := by
  unfold cacheCell
  try dsimp only
  repeat' first
    | with_reducible first
      | assumption | intro _ | apply onFwdGetS_keeps | apply onFwdGetM_keeps | apply onInv_keeps | apply onData_keeps
      | apply onDataExcl_keeps | apply onInvAck_keeps | apply onPutDone_keeps | apply onBusy_keeps
      | apply onDenied_keeps | apply keeps_ite | exact KeepsT.held | exact KeepsT.bad | exact KeepsT.fetching
      | apply KeepsT.ok | refine KeepsT.of ?_ (by assumption)
    | split

theorem cacheTake_keeps (hregs : F.regs) (hcore : F.core) (hslc : F.slc) (hhbm : F.hbm) (hnet : F.net) (hque : F.que)
    (hprt : F.prt) (hxlt : F.xlt) (hhost : F.host) (hrecs : F.recs) (hout : F.out) (t : CohT) (m : CohMsg)
    (h : Keeps F s₀ s) :
    KeepsT F s₀ (cacheTake t m s) := by
  unfold cacheTake
  try dsimp only
  repeat' first
    | with_reducible first
      | assumption | intro _ | apply cacheCell_keeps | exact KeepsT.held | exact KeepsT.bad | exact KeepsT.fetching
      | apply KeepsT.ok | refine KeepsT.of ?_ (by assumption)
    | split

theorem applyHeld_keeps (hregs : F.regs) (hcore : F.core) (hslc : F.slc) (hhbm : F.hbm) (hnet : F.net) (hque : F.que)
    (hprt : F.prt) (hxlt : F.xlt) (hhost : F.host) (hrecs : F.recs) (hout : F.out) (d n la : Nat)
    (x4 : List (Nat × Nat × NetMsg)) (h : Keeps F s₀ s) :
    Keeps F s₀ (applyHeld d n la x4 s) := by
  induction x4 generalizing d n la s with
  | nil =>
    unfold applyHeld
    try dsimp only
    repeat' first
      | with_reducible first
        | assumption
      | split
  | cons x_ l_ ih =>
    unfold applyHeld
    try dsimp only
    repeat' first
      | with_reducible first
        | assumption | exact ring_wf_id | exact Memory.wf_id | intro _ | apply cacheTake_keeps | apply protoErr_keeps
        | apply ih | ((fail_if_success (apply keeps_eta)); apply keeps_mk) | exact Or.inl (by assumption)
        | exact Or.inr rfl | apply keeps_ite | exact KeepsT.held | exact KeepsT.bad | exact KeepsT.fetching
        | apply KeepsT.ok | refine KeepsT.of ?_ (by assumption)
      | split

theorem dropSent_keeps (hslc : F.slc) (d n la : Nat) (h : Keeps F s₀ s) :
    Keeps F s₀ (dropSent d n la s) := by
  unfold dropSent
  try dsimp only
  with_reducible repeat' first
    | assumption | exact ring_wf_id | exact Memory.wf_id | intro _
    | ((fail_if_success (apply keeps_eta)); apply keeps_mk) | exact Or.inl (by assumption) | exact Or.inr rfl

theorem afterCache_keeps (hregs : F.regs) (hcore : F.core) (hslc : F.slc) (hhbm : F.hbm) (hnet : F.net) (hque : F.que)
    (hprt : F.prt) (hxlt : F.xlt) (hhost : F.host) (hrecs : F.recs) (hout : F.out) (d n la : Nat) (h : Keeps F s₀ s) :
    Keeps F s₀ (afterCache d n la s) := by
  unfold afterCache
  try dsimp only
  repeat' first
    | with_reducible first
      | assumption | exact ring_wf_id | exact Memory.wf_id | intro _ | apply dropSent_keeps | apply endBackOff_keeps
      | apply servePass_keeps | apply retryPlaces_keeps | apply pump_keeps | apply applyHeld_keeps
      | ((fail_if_success (apply keeps_eta)); apply keeps_mk) | exact Or.inl (by assumption) | exact Or.inr rfl
      | apply keeps_ite
    | split

theorem homeSectors_keeps (hregs : F.regs) (hslc : F.slc) (d n la : Nat) (mask : BitVec 4) (cls : Nat)
    (h : Keeps F s₀ s) :
    KeepsP F s₀ (homeSectors d n la mask cls s) := by
  unfold homeSectors
  try dsimp only
  repeat' first
    | with_reducible first
      | assumption | intro _ | apply startFetch_keeps | apply slicePeaks_keeps | apply putMshr_keeps | apply keeps_ite
      | apply KeepsP.snd | ((fail_if_success (apply KeepsP.eta)); apply KeepsP.mk') | apply keepsP_ite
      | refine KeepsP.of ?_ (by assumption)
    | split

theorem entryWay_keeps (hregs : F.regs) (hslc : F.slc) (hxlt : F.xlt) (d n la cls : Nat) (h : Keeps F s₀ s) :
    KeepsP F s₀ (entryWay d n la cls s) := by
  unfold entryWay
  try dsimp only
  repeat' first
    | with_reducible first
      | assumption | intro _ | apply startHomeWrite_keeps | apply State.count_keeps | apply keeps_ite
      | apply KeepsP.snd | ((fail_if_success (apply KeepsP.eta)); apply KeepsP.mk') | apply keepsP_ite
      | refine KeepsP.of ?_ (by assumption)
    | split

theorem homeData_keeps (hregs : F.regs) (hslc : F.slc) (hxlt : F.xlt) (l : Line) (m : CohMsg) (h : Keeps F s₀ s) :
    Keeps F s₀ (homeData l m s) := by
  unfold homeData
  try dsimp only
  with_reducible repeat' first
    | assumption | intro _ | apply sendMsg_keeps

theorem homeExcl_keeps (hregs : F.regs) (hslc : F.slc) (hxlt : F.xlt) (l : Line) (mask : BitVec 4) (acks : Nat)
    (m : CohMsg) (h : Keeps F s₀ s) :
    Keeps F s₀ (homeExcl l mask acks m s) := by
  unfold homeExcl
  try dsimp only
  with_reducible repeat' first
    | assumption | intro _ | apply sendMsg_keeps

theorem sendWb_keeps (hregs : F.regs) (hslc : F.slc) (hxlt : F.xlt) (d n : Nat) (m : CohMsg) (h : Keeps F s₀ s) :
    Keeps F s₀ (sendWb d n m s) := by
  unfold sendWb
  try dsimp only
  with_reducible repeat' first
    | assumption | intro _ | apply sendMsg_keeps

theorem sendNack_keeps (hregs : F.regs) (hslc : F.slc) (hxlt : F.xlt) (d n reason : Nat) (m : CohMsg)
    (h : Keeps F s₀ s) :
    Keeps F s₀ (sendNack d n reason m s) := by
  unfold sendNack
  try dsimp only
  with_reducible repeat' first
    | assumption | intro _ | apply sendMsg_keeps

theorem sendStale_keeps (hregs : F.regs) (hslc : F.slc) (hxlt : F.xlt) (d n : Nat) (m : CohMsg) (h : Keeps F s₀ s) :
    Keeps F s₀ (sendStale d n m s) := by
  unfold sendStale
  try dsimp only
  with_reducible repeat' first
    | assumption | intro _ | apply sendNack_keeps | apply State.count_keeps

theorem dirI_keeps (hregs : F.regs) (hslc : F.slc) (hxlt : F.xlt) (t : CohT) (d n : Nat) (m : CohMsg)
    (h : Keeps F s₀ s) :
    KeepsTS F s₀ (dirI t d n m s) := by
  unfold dirI
  try dsimp only
  repeat' first
    | with_reducible first
      | assumption | intro _ | apply entryWay_keeps | apply homeSectors_keeps | apply homeData_keeps
      | apply newEnt_keeps | apply homeExcl_keeps | apply sendStale_keeps | apply KeepsP.snd
      | ((fail_if_success (apply KeepsP.eta)); apply KeepsP.mk') | exact KeepsT.held | exact KeepsT.bad
      | exact KeepsT.fetching | apply KeepsT.ok | ((fail_if_success (apply KeepsTS.eta)); apply KeepsTS.mk')
      | refine KeepsP.of ?_ (by assumption) | refine KeepsTS.of ?_ (by assumption)
      | refine KeepsTS.ofP ?_ (by assumption)
    | split

theorem leaveSharers_keeps (hregs : F.regs) (hslc : F.slc) (hxlt : F.xlt) (e : DirEnt) (m : CohMsg) (last : Bool)
    (h : Keeps F s₀ s) :
    Keeps F s₀ (leaveSharers e m last s) := by
  unfold leaveSharers
  try dsimp only
  with_reducible repeat' first
    | assumption | intro _ | apply freeDir_keeps | apply putDir_keeps | apply sendWb_keeps | apply keeps_ite

theorem dirS_keeps (hregs : F.regs) (hslc : F.slc) (hxlt : F.xlt) (t : CohT) (e : DirEnt) (m : CohMsg)
    (h : Keeps F s₀ s) :
    KeepsTS F s₀ (dirS t e m s) := by
  unfold dirS
  try dsimp only
  repeat' first
    | with_reducible first
      | assumption | intro _ | apply homeSectors_keeps | apply homeExcl_keeps | apply sendInvs_keeps
      | apply touchDir_keeps | apply putDir_keeps | apply homeData_keeps | apply leaveSharers_keeps
      | apply sendStale_keeps | apply keeps_ite | apply KeepsP.snd
      | ((fail_if_success (apply KeepsP.eta)); apply KeepsP.mk') | apply keepsP_ite | exact KeepsT.held
      | exact KeepsT.bad | exact KeepsT.fetching | apply KeepsT.ok
      | ((fail_if_success (apply KeepsTS.eta)); apply KeepsTS.mk') | refine KeepsP.of ?_ (by assumption)
      | refine KeepsTS.of ?_ (by assumption) | refine KeepsTS.ofP ?_ (by assumption)
    | split

theorem forwardM_keeps (hregs : F.regs) (hslc : F.slc) (hxlt : F.xlt) (e : DirEnt) (m : CohMsg) (h : Keeps F s₀ s) :
    Keeps F s₀ (forwardM e m s) := by
  unfold forwardM
  try dsimp only
  with_reducible repeat' first
    | assumption | intro _ | apply State.count_keeps | apply sendMsg_keeps | apply sendInvs_keeps
    | apply touchDir_keeps | apply putDir_keeps

theorem forwardS_keeps (hregs : F.regs) (hslc : F.slc) (hxlt : F.xlt) (e : DirEnt) (m : CohMsg) (h : Keeps F s₀ s) :
    Keeps F s₀ (forwardS e m s) := by
  unfold forwardS
  try dsimp only
  with_reducible repeat' first
    | assumption | intro _ | apply State.count_keeps | apply sendMsg_keeps

theorem writeDirty_keeps (hslc : F.slc) (hhbm : F.hbm) (e : DirEnt) (m : CohMsg) (h : Keeps F s₀ s) :
    Keeps F s₀ (writeDirty e m s) := by
  unfold writeDirty
  try dsimp only
  with_reducible repeat' first
    | assumption | intro _ | apply homeWrite_keeps

theorem dirO_keeps (hregs : F.regs) (hslc : F.slc) (hhbm : F.hbm) (hxlt : F.xlt) (t : CohT) (e : DirEnt) (m : CohMsg)
    (h : Keeps F s₀ s) :
    KeepsT F s₀ (dirO t e m s) := by
  unfold dirO
  try dsimp only
  repeat' first
    | with_reducible first
      | assumption | intro _ | apply touchDir_keeps | apply putDir_keeps | apply forwardS_keeps | apply forwardM_keeps
      | apply homeExcl_keeps | apply sendInvs_keeps | apply leaveSharers_keeps | apply sendStale_keeps
      | apply writeDirty_keeps | apply freeDir_keeps | apply sendWb_keeps | apply keeps_ite | exact KeepsT.held
      | exact KeepsT.bad | exact KeepsT.fetching | apply KeepsT.ok | refine KeepsT.of ?_ (by assumption)
    | split

theorem dirM_keeps (hregs : F.regs) (hslc : F.slc) (hhbm : F.hbm) (hxlt : F.xlt) (t : CohT) (e : DirEnt) (m : CohMsg)
    (h : Keeps F s₀ s) :
    KeepsT F s₀ (dirM t e m s) := by
  unfold dirM
  try dsimp only
  repeat' first
    | with_reducible first
      | assumption | intro _ | apply forwardS_keeps | apply touchDir_keeps | apply putDir_keeps | apply forwardM_keeps
      | apply sendStale_keeps | apply sendWb_keeps | apply freeDir_keeps | apply writeDirty_keeps | apply keeps_ite
      | exact KeepsT.held | exact KeepsT.bad | exact KeepsT.fetching | apply KeepsT.ok
      | refine KeepsT.of ?_ (by assumption)
    | split

theorem dirOwnerData_keeps (hslc : F.slc) (hhbm : F.hbm) (e : DirEnt) (m : CohMsg) (h : Keeps F s₀ s) :
    KeepsT F s₀ (dirOwnerData e m s) := by
  unfold dirOwnerData
  try dsimp only
  repeat' first
    | with_reducible first
      | assumption | intro _ | apply putDir_keeps | apply writeDirty_keeps | apply finish_keeps | apply keeps_ite
      | exact KeepsT.held | exact KeepsT.bad | exact KeepsT.fetching | apply KeepsT.ok
      | refine KeepsT.of ?_ (by assumption)
    | split

theorem dirInvAck_keeps (hslc : F.slc) (e : DirEnt) (m : CohMsg) (h : Keeps F s₀ s) :
    KeepsT F s₀ (dirInvAck e m s) := by
  unfold dirInvAck
  try dsimp only
  repeat' first
    | with_reducible first
      | assumption | intro _ | apply finish_keeps | apply putDir_keeps | apply keeps_ite | exact KeepsT.held
      | exact KeepsT.bad | exact KeepsT.fetching | apply KeepsT.ok | refine KeepsT.of ?_ (by assumption)
    | split

theorem dirCell_keeps (hregs : F.regs) (hslc : F.slc) (hhbm : F.hbm) (hxlt : F.xlt) (t : CohT) (d n : Nat)
    (m : CohMsg) (h : Keeps F s₀ s) :
    KeepsTS F s₀ (dirCell t d n m s) := by
  unfold dirCell
  try dsimp only
  repeat' first
    | with_reducible first
      | assumption | intro _ | apply dirI_keeps | apply dirOwnerData_keeps | apply dirInvAck_keeps | apply dirS_keeps
      | apply dirO_keeps | apply dirM_keeps | apply keeps_ite | exact KeepsT.held | exact KeepsT.bad
      | exact KeepsT.fetching | apply KeepsT.ok | ((fail_if_success (apply KeepsTS.eta)); apply KeepsTS.mk')
      | refine KeepsT.of ?_ (by assumption) | refine KeepsTS.of ?_ (by assumption)
      | refine KeepsTS.ofP ?_ (by assumption)
    | split

theorem holdRequest_keeps (hregs : F.regs) (hslc : F.slc) (hxlt : F.xlt) (d n : Nat) (x : NetMsg) (h : Keeps F s₀ s) :
    Keeps F s₀ (holdRequest d n x s) := by
  unfold holdRequest
  try dsimp only
  with_reducible repeat' first
    | assumption | exact ring_wf_id | exact Memory.wf_id | intro _ | apply sendNack_keeps | apply State.count_keeps
    | apply State.peak_keeps | ((fail_if_success (apply keeps_eta)); apply keeps_mk) | exact Or.inl (by assumption)
    | exact Or.inr rfl | apply keeps_ite

theorem parkRequest_keeps (hslc : F.slc) (d n : Nat) (x : NetMsg) (h : Keeps F s₀ s) :
    Keeps F s₀ (parkRequest d n x s) := by
  unfold parkRequest
  try dsimp only
  repeat' first
    | with_reducible first
      | assumption | intro _ | apply putMshr_keeps
    | split

theorem repin_keeps (hregs : F.regs) (hslc : F.slc) (d n la : Nat) (h : Keeps F s₀ s) :
    Keeps F s₀ (repin d n la s) := by
  unfold repin
  try dsimp only
  repeat' first
    | with_reducible first
      | assumption | intro _ | apply fetchFrom_keeps | apply keeps_ite
    | split

theorem homeTake_keeps (hregs : F.regs) (hcore : F.core) (hslc : F.slc) (hhbm : F.hbm) (hque : F.que) (hprt : F.prt)
    (hxlt : F.xlt) (hhost : F.host) (hrecs : F.recs) (hout : F.out) (d n : Nat) (x : NetMsg) (h : Keeps F s₀ s) :
    Keeps F s₀ (homeTake d n x s) := by
  unfold homeTake
  try dsimp only
  repeat' first
    | with_reducible first
      | assumption | intro _ | apply parkRequest_keeps | apply dirCell_keeps | apply repin_keeps | apply pump_keeps
      | apply holdRequest_keeps | apply protoErr_keeps | apply keeps_ite | exact KeepsT.held | exact KeepsT.bad
      | exact KeepsT.fetching | apply KeepsT.ok | ((fail_if_success (apply KeepsTS.eta)); apply KeepsTS.mk')
      | refine KeepsTS.of ?_ (by assumption) | refine KeepsTS.ofP ?_ (by assumption)
    | split

theorem replay_keeps (hregs : F.regs) (hcore : F.core) (hslc : F.slc) (hhbm : F.hbm) (hque : F.que) (hprt : F.prt)
    (hxlt : F.xlt) (hhost : F.host) (hrecs : F.recs) (hout : F.out) (d n x3 : Nat) (h : Keeps F s₀ s) :
    Keeps F s₀ (replay d n x3 s) := by
  induction x3 generalizing d n s with
  | zero =>
    unfold replay
    try dsimp only
    repeat' first
      | with_reducible first
        | assumption
      | split
  | succ n_ ih =>
    unfold replay
    try dsimp only
    repeat' first
      | with_reducible first
        | assumption | exact ring_wf_id | exact Memory.wf_id | intro _ | apply each_keeps | apply homeTake_keeps
        | apply ih | ((fail_if_success (apply keeps_eta)); apply keeps_mk) | exact Or.inl (by assumption)
        | exact Or.inr rfl | apply keeps_ite
      | split

theorem takeFetched_keeps (hregs : F.regs) (hcore : F.core) (hslc : F.slc) (hhbm : F.hbm) (hque : F.que)
    (hprt : F.prt) (hxlt : F.xlt) (hhost : F.host) (hrecs : F.recs) (hout : F.out) (m : Mshr) (h : Keeps F s₀ s) :
    Keeps F s₀ (takeFetched m s) := by
  unfold takeFetched
  try dsimp only
  with_reducible repeat' first
    | assumption | intro _ | apply each_keeps | apply homeTake_keeps | apply putMshr_keeps | apply settleMshr_keeps
    | apply keeps_ite

theorem afterSlice_keeps (hregs : F.regs) (hcore : F.core) (hslc : F.slc) (hhbm : F.hbm) (hque : F.que) (hprt : F.prt)
    (hxlt : F.xlt) (hhost : F.host) (hrecs : F.recs) (hout : F.out) (d n : Nat) (h : Keeps F s₀ s) :
    Keeps F s₀ (afterSlice d n s) := by
  unfold afterSlice
  try dsimp only
  with_reducible repeat' first
    | assumption | intro _ | apply retryPlaces_keeps | apply each_keeps | apply takeFetched_keeps | apply replay_keeps

theorem afterHome_keeps (hregs : F.regs) (hcore : F.core) (hslc : F.slc) (hhbm : F.hbm) (hque : F.que) (hprt : F.prt)
    (hxlt : F.xlt) (hhost : F.host) (hrecs : F.recs) (hout : F.out) (d n la : Nat) (h : Keeps F s₀ s) :
    Keeps F s₀ (afterHome d n la s) := by
  unfold afterHome
  try dsimp only
  with_reducible repeat' first
    | assumption | intro _ | apply afterSlice_keeps | apply repin_keeps | apply pump_keeps

theorem consume_keeps (hslc : F.slc) (x : NetMsg) (h : Keeps F s₀ s) :
    Keeps F s₀ (consume x s) := by
  unfold consume
  try dsimp only
  with_reducible repeat' first
    | assumption | exact ring_wf_id | exact Memory.wf_id | intro _
    | ((fail_if_success (apply keeps_eta)); apply keeps_mk) | exact Or.inl (by assumption) | exact Or.inr rfl

theorem atCache_keeps (hregs : F.regs) (hcore : F.core) (hslc : F.slc) (hhbm : F.hbm) (hnet : F.net) (hque : F.que)
    (hprt : F.prt) (hxlt : F.xlt) (hhost : F.host) (hrecs : F.recs) (hout : F.out) (x : NetMsg) (h : Keeps F s₀ s) :
    Keeps F s₀ (atCache x s) := by
  unfold atCache
  try dsimp only
  repeat' first
    | with_reducible first
      | assumption | exact ring_wf_id | exact Memory.wf_id | intro _ | apply cacheTake_keeps | apply afterCache_keeps
      | apply consume_keeps | apply State.peak_keeps | apply protoErr_keeps
      | ((fail_if_success (apply keeps_eta)); apply keeps_mk) | exact Or.inl (by assumption) | exact Or.inr rfl
      | apply keeps_ite | exact KeepsT.held | exact KeepsT.bad | exact KeepsT.fetching | apply KeepsT.ok
      | refine KeepsT.of ?_ (by assumption)
    | split

theorem atHome_keeps (hregs : F.regs) (hcore : F.core) (hslc : F.slc) (hhbm : F.hbm) (hque : F.que) (hprt : F.prt)
    (hxlt : F.xlt) (hhost : F.host) (hrecs : F.recs) (hout : F.out) (x : NetMsg) (h : Keeps F s₀ s) :
    Keeps F s₀ (atHome x s) := by
  unfold atHome
  try dsimp only
  repeat' first
    | with_reducible first
      | assumption | intro _ | apply consume_keeps | apply sendNack_keeps | apply State.count_keeps
      | apply protoErr_keeps | apply afterHome_keeps | apply homeTake_keeps | apply keeps_ite | apply keeps_getD
      | apply keepsP_getD
    | split

theorem arrive_keeps (hregs : F.regs) (hcore : F.core) (hslc : F.slc) (hhbm : F.hbm) (hnet : F.net) (hque : F.que)
    (hprt : F.prt) (hxlt : F.xlt) (hhost : F.host) (hrecs : F.recs) (hout : F.out) (t : CohT) (m : CohMsg)
    (h : Keeps F s₀ s) :
    Keeps F s₀ (arrive t m s) := by
  unfold arrive
  try dsimp only
  with_reducible repeat' first
    | assumption | intro _ | apply protoErr_keeps | apply State.count_keeps | apply consume_keeps | apply atHome_keeps
    | apply atCache_keeps | apply keeps_ite

theorem execGets_keeps (hregs : F.regs) (hcore : F.core) (hslc : F.slc) (hhbm : F.hbm) (hnet : F.net) (hque : F.que)
    (hprt : F.prt) (hxlt : F.xlt) (hhost : F.host) (hrecs : F.recs) (hout : F.out) (m : CohMsg) (h : Keeps F s₀ s) :
    KeepsX F s₀ (execGets m s) := by
  unfold execGets
  try dsimp only
  with_reducible repeat' first
    | assumption | intro _ | apply onDie_keeps | apply arrive_keeps

theorem execGetm_keeps (hregs : F.regs) (hcore : F.core) (hslc : F.slc) (hhbm : F.hbm) (hnet : F.net) (hque : F.que)
    (hprt : F.prt) (hxlt : F.xlt) (hhost : F.host) (hrecs : F.recs) (hout : F.out) (m : CohMsg) (h : Keeps F s₀ s) :
    KeepsX F s₀ (execGetm m s) := by
  unfold execGetm
  try dsimp only
  with_reducible repeat' first
    | assumption | intro _ | apply onDie_keeps | apply arrive_keeps

theorem execUpg_keeps (hregs : F.regs) (hcore : F.core) (hslc : F.slc) (hhbm : F.hbm) (hnet : F.net) (hque : F.que)
    (hprt : F.prt) (hxlt : F.xlt) (hhost : F.host) (hrecs : F.recs) (hout : F.out) (m : CohMsg) (h : Keeps F s₀ s) :
    KeepsX F s₀ (execUpg m s) := by
  unfold execUpg
  try dsimp only
  with_reducible repeat' first
    | assumption | intro _ | apply onDie_keeps | apply arrive_keeps

theorem execPuts_keeps (hregs : F.regs) (hcore : F.core) (hslc : F.slc) (hhbm : F.hbm) (hnet : F.net) (hque : F.que)
    (hprt : F.prt) (hxlt : F.xlt) (hhost : F.host) (hrecs : F.recs) (hout : F.out) (m : CohMsg) (h : Keeps F s₀ s) :
    KeepsX F s₀ (execPuts m s) := by
  unfold execPuts
  try dsimp only
  with_reducible repeat' first
    | assumption | intro _ | apply onDie_keeps | apply arrive_keeps

theorem execPutm_keeps (hregs : F.regs) (hcore : F.core) (hslc : F.slc) (hhbm : F.hbm) (hnet : F.net) (hque : F.que)
    (hprt : F.prt) (hxlt : F.xlt) (hhost : F.host) (hrecs : F.recs) (hout : F.out) (m : CohMsg) (h : Keeps F s₀ s) :
    KeepsX F s₀ (execPutm m s) := by
  unfold execPutm
  try dsimp only
  with_reducible repeat' first
    | assumption | intro _ | apply onDie_keeps | apply arrive_keeps

theorem execPuto_keeps (hregs : F.regs) (hcore : F.core) (hslc : F.slc) (hhbm : F.hbm) (hnet : F.net) (hque : F.que)
    (hprt : F.prt) (hxlt : F.xlt) (hhost : F.host) (hrecs : F.recs) (hout : F.out) (m : CohMsg) (h : Keeps F s₀ s) :
    KeepsX F s₀ (execPuto m s) := by
  unfold execPuto
  try dsimp only
  with_reducible repeat' first
    | assumption | intro _ | apply onDie_keeps | apply arrive_keeps

theorem execFwdgets_keeps (hregs : F.regs) (hcore : F.core) (hslc : F.slc) (hhbm : F.hbm) (hnet : F.net)
    (hque : F.que) (hprt : F.prt) (hxlt : F.xlt) (hhost : F.host) (hrecs : F.recs) (hout : F.out) (m : CohMsg)
    (h : Keeps F s₀ s) :
    KeepsX F s₀ (execFwdgets m s) := by
  unfold execFwdgets
  try dsimp only
  with_reducible repeat' first
    | assumption | intro _ | apply onDie_keeps | apply arrive_keeps

theorem execFwdgetm_keeps (hregs : F.regs) (hcore : F.core) (hslc : F.slc) (hhbm : F.hbm) (hnet : F.net)
    (hque : F.que) (hprt : F.prt) (hxlt : F.xlt) (hhost : F.host) (hrecs : F.recs) (hout : F.out) (m : CohMsg)
    (h : Keeps F s₀ s) :
    KeepsX F s₀ (execFwdgetm m s) := by
  unfold execFwdgetm
  try dsimp only
  with_reducible repeat' first
    | assumption | intro _ | apply onDie_keeps | apply arrive_keeps

theorem execInv_keeps (hregs : F.regs) (hcore : F.core) (hslc : F.slc) (hhbm : F.hbm) (hnet : F.net) (hque : F.que)
    (hprt : F.prt) (hxlt : F.xlt) (hhost : F.host) (hrecs : F.recs) (hout : F.out) (m : CohMsg) (h : Keeps F s₀ s) :
    KeepsX F s₀ (execInv m s) := by
  unfold execInv
  try dsimp only
  with_reducible repeat' first
    | assumption | intro _ | apply onDie_keeps | apply arrive_keeps

theorem execInvack_keeps (hregs : F.regs) (hcore : F.core) (hslc : F.slc) (hhbm : F.hbm) (hnet : F.net) (hque : F.que)
    (hprt : F.prt) (hxlt : F.xlt) (hhost : F.host) (hrecs : F.recs) (hout : F.out) (m : CohMsg) (h : Keeps F s₀ s) :
    KeepsX F s₀ (execInvack m s) := by
  unfold execInvack
  try dsimp only
  with_reducible repeat' first
    | assumption | intro _ | apply onDie_keeps | apply arrive_keeps

theorem execData_keeps (hregs : F.regs) (hcore : F.core) (hslc : F.slc) (hhbm : F.hbm) (hnet : F.net) (hque : F.que)
    (hprt : F.prt) (hxlt : F.xlt) (hhost : F.host) (hrecs : F.recs) (hout : F.out) (m : CohMsg) (h : Keeps F s₀ s) :
    KeepsX F s₀ (execData m s) := by
  unfold execData
  try dsimp only
  with_reducible repeat' first
    | assumption | intro _ | apply onDie_keeps | apply arrive_keeps

theorem execDataexcl_keeps (hregs : F.regs) (hcore : F.core) (hslc : F.slc) (hhbm : F.hbm) (hnet : F.net)
    (hque : F.que) (hprt : F.prt) (hxlt : F.xlt) (hhost : F.host) (hrecs : F.recs) (hout : F.out) (m : CohMsg)
    (h : Keeps F s₀ s) :
    KeepsX F s₀ (execDataexcl m s) := by
  unfold execDataexcl
  try dsimp only
  with_reducible repeat' first
    | assumption | intro _ | apply onDie_keeps | apply arrive_keeps

theorem execDatap_keeps (hregs : F.regs) (hcore : F.core) (hslc : F.slc) (hhbm : F.hbm) (hnet : F.net) (hque : F.que)
    (hprt : F.prt) (hxlt : F.xlt) (hhost : F.host) (hrecs : F.recs) (hout : F.out) (m : CohMsg) (h : Keeps F s₀ s) :
    KeepsX F s₀ (execDatap m s) := by
  unfold execDatap
  try dsimp only
  with_reducible repeat' first
    | assumption | intro _ | apply onDie_keeps | apply arrive_keeps

theorem execDataexclp_keeps (hregs : F.regs) (hcore : F.core) (hslc : F.slc) (hhbm : F.hbm) (hnet : F.net)
    (hque : F.que) (hprt : F.prt) (hxlt : F.xlt) (hhost : F.host) (hrecs : F.recs) (hout : F.out) (m : CohMsg)
    (h : Keeps F s₀ s) :
    KeepsX F s₀ (execDataexclp m s) := by
  unfold execDataexclp
  try dsimp only
  with_reducible repeat' first
    | assumption | intro _ | apply onDie_keeps | apply arrive_keeps

theorem execWback_keeps (hregs : F.regs) (hcore : F.core) (hslc : F.slc) (hhbm : F.hbm) (hnet : F.net) (hque : F.que)
    (hprt : F.prt) (hxlt : F.xlt) (hhost : F.host) (hrecs : F.recs) (hout : F.out) (m : CohMsg) (h : Keeps F s₀ s) :
    KeepsX F s₀ (execWback m s) := by
  unfold execWback
  try dsimp only
  with_reducible repeat' first
    | assumption | intro _ | apply onDie_keeps | apply arrive_keeps

theorem execNack_keeps (hregs : F.regs) (hcore : F.core) (hslc : F.slc) (hhbm : F.hbm) (hnet : F.net) (hque : F.que)
    (hprt : F.prt) (hxlt : F.xlt) (hhost : F.host) (hrecs : F.recs) (hout : F.out) (m : CohMsg) (h : Keeps F s₀ s) :
    KeepsX F s₀ (execNack m s) := by
  unfold execNack
  try dsimp only
  with_reducible repeat' first
    | assumption | intro _ | apply onDie_keeps | apply arrive_keeps

theorem orphanRecord_keeps (hregs : F.regs) (hrecs : F.recs) (d n la role final poisoned : Nat) (h : Keeps F s₀ s) :
    Keeps F s₀ (orphanRecord d n la role final poisoned s) := by
  unfold orphanRecord
  try dsimp only
  with_reducible repeat' first
    | assumption | intro _ | apply emit_keeps | apply State.count_keeps

theorem orphanCache_keeps (hregs : F.regs) (hcore : F.core) (hslc : F.slc) (hhbm : F.hbm) (hnet : F.net)
    (hque : F.que) (hprt : F.prt) (hxlt : F.xlt) (hhost : F.host) (hrecs : F.recs) (hout : F.out) (inPut : Bool)
    (l : Line) (h : Keeps F s₀ s) :
    Keeps F s₀ (orphanCache inPut l s) := by
  unfold orphanCache
  try dsimp only
  repeat' first
    | with_reducible first
      | assumption | intro _ | apply orphanRecord_keeps | apply afterCache_keeps | apply tryPlace_keeps
      | apply clearMask_keeps | apply setCache_keeps | apply endCache_keeps
    | split

theorem poisonLine_keeps (hslc : F.slc) (hhbm : F.hbm) (la : Nat) (h : Keeps F s₀ s) :
    Keeps F s₀ (poisonLine la s) := by
  unfold poisonLine
  try dsimp only
  with_reducible repeat' first
    | assumption | intro _ | apply each_keeps | apply poisonSector_keeps | apply hbmWrite_keeps

theorem orphanEntry_keeps (hregs : F.regs) (hcore : F.core) (hslc : F.slc) (hhbm : F.hbm) (hque : F.que)
    (hprt : F.prt) (hxlt : F.xlt) (hhost : F.host) (hrecs : F.recs) (hout : F.out) (e : DirEnt) (h : Keeps F s₀ s) :
    Keeps F s₀ (orphanEntry e s) := by
  unfold orphanEntry
  try dsimp only
  repeat' first
    | with_reducible first
      | assumption | intro _ | apply poisonLine_keeps | apply putDir_keeps | apply finish_keeps
      | apply afterHome_keeps | apply orphanRecord_keeps | apply keeps_ite
    | split

theorem timeoutFault_keeps (hregs : F.regs) (hcore : F.core) (hslc : F.slc) (hhbm : F.hbm) (hque : F.que)
    (hprt : F.prt) (hxlt : F.xlt) (hhost : F.host) (hrecs : F.recs) (hout : F.out) (d n la st role : Nat)
    (h : Keeps F s₀ s) :
    Keeps F s₀ (timeoutFault d n la st role s) := by
  unfold timeoutFault
  try dsimp only
  with_reducible repeat' first
    | assumption | intro _ | apply faultWith_keeps | apply State.count_keeps

theorem cohTimeout_keeps (hregs : F.regs) (hcore : F.core) (hslc : F.slc) (hhbm : F.hbm) (hnet : F.net) (hque : F.que)
    (hprt : F.prt) (hxlt : F.xlt) (hhost : F.host) (hrecs : F.recs) (hout : F.out) (d n la : Nat) (home : Bool)
    (h : Keeps F s₀ s) :
    Keeps F s₀ (cohTimeout d n la home s) := by
  unfold cohTimeout
  try dsimp only
  repeat' first
    | with_reducible first
      | assumption | intro _ | apply timeoutFault_keeps | apply orphanEntry_keeps | apply orphanCache_keeps
      | apply keeps_ite
    | split

theorem execCohTimeout_keeps (hregs : F.regs) (hcore : F.core) (hslc : F.slc) (hhbm : F.hbm) (hnet : F.net)
    (hque : F.que) (hprt : F.prt) (hxlt : F.xlt) (hhost : F.host) (hrecs : F.recs) (hout : F.out) (d n line : Nat)
    (home : Bool) (h : Keeps F s₀ s) :
    KeepsX F s₀ (execCohTimeout d n line home s) := by
  unfold execCohTimeout
  try dsimp only
  with_reducible repeat' first
    | assumption | intro _ | apply onDie_keeps | apply cohTimeout_keeps

theorem lostLine_keeps (hregs : F.regs) (hrecs : F.recs) (d n la dead role : Nat) (dirty : Bool) (k : Nat)
    (h : Keeps F s₀ s) :
    Keeps F s₀ (lostLine d n la dead role dirty k s) := by
  unfold lostLine
  try dsimp only
  with_reducible repeat' first
    | assumption | intro _ | apply State.count_keeps | apply emit_keeps | apply keeps_ite

theorem dropStale_keeps (hregs : F.regs) (hslc : F.slc) (d dead inc : Nat) (h : Keeps F s₀ s) :
    Keeps F s₀ (dropStale d dead inc s) := by
  unfold dropStale
  try dsimp only
  with_reducible repeat' first
    | assumption | exact ring_wf_id | exact Memory.wf_id | intro _ | apply State.count_keeps
    | ((fail_if_success (apply keeps_eta)); apply keeps_mk) | exact Or.inl (by assumption) | exact Or.inr rfl

theorem finishLost_keeps (hslc : F.slc) (e : DirEnt) (h : Keeps F s₀ s) :
    Keeps F s₀ (finishLost e s) := by
  unfold finishLost
  try dsimp only
  with_reducible repeat' first
    | assumption | intro _ | apply putDir_keeps | apply freeDir_keeps | apply keeps_ite

theorem deadEntry_keeps (hregs : F.regs) (hcore : F.core) (hslc : F.slc) (hhbm : F.hbm) (hque : F.que) (hprt : F.prt)
    (hxlt : F.xlt) (hhost : F.host) (hrecs : F.recs) (hout : F.out) (d dead k : Nat) (e : DirEnt) (h : Keeps F s₀ s) :
    KeepsP F s₀ (deadEntry d dead k e s) := by
  unfold deadEntry
  try dsimp only
  repeat' first
    | with_reducible first
      | assumption | intro _ | apply lostLine_keeps | apply poisonLine_keeps | apply afterHome_keeps
      | apply freeDir_keeps | apply sendInvs_keeps | apply putDir_keeps | apply finishLost_keeps | apply finish_keeps
      | apply keeps_ite | apply KeepsP.snd | ((fail_if_success (apply KeepsP.eta)); apply KeepsP.mk')
      | apply keepsP_ite | refine KeepsP.of ?_ (by assumption)
    | split

theorem deadEntries_keeps (hregs : F.regs) (hcore : F.core) (hslc : F.slc) (hhbm : F.hbm) (hque : F.que)
    (hprt : F.prt) (hxlt : F.xlt) (hhost : F.host) (hrecs : F.recs) (hout : F.out) (d dead : Nat) (x3 : List DirEnt)
    (x4 : Nat) (h : Keeps F s₀ s) :
    KeepsP F s₀ (deadEntries d dead x3 x4 s) := by
  induction x3 generalizing d dead x4 s with
  | nil =>
    unfold deadEntries
    try dsimp only
    repeat' first
      | with_reducible first
        | assumption | intro _ | apply deadEntry_keeps | apply KeepsP.snd
        | ((fail_if_success (apply KeepsP.eta)); apply KeepsP.mk')
      | split
  | cons x_ l_ ih =>
    unfold deadEntries
    try dsimp only
    repeat' first
      | with_reducible first
        | assumption | intro _ | apply deadEntry_keeps | apply ih | apply KeepsP.snd
        | ((fail_if_success (apply KeepsP.eta)); apply KeepsP.mk') | refine KeepsP.of ?_ (by assumption)
      | split

theorem deadGuest_keeps (hregs : F.regs) (hcore : F.core) (hslc : F.slc) (hhbm : F.hbm) (hnet : F.net) (hque : F.que)
    (hprt : F.prt) (hxlt : F.xlt) (hhost : F.host) (hrecs : F.recs) (hout : F.out) (d dead k : Nat) (inPut : Bool)
    (l : Line) (h : Keeps F s₀ s) :
    KeepsP F s₀ (deadGuest d dead k inPut l s) := by
  unfold deadGuest
  try dsimp only
  repeat' first
    | with_reducible first
      | assumption | intro _ | apply lostLine_keeps | apply dropSent_keeps | apply endCache_keeps
      | apply orphanCache_keeps | apply keeps_ite | apply KeepsP.snd
      | ((fail_if_success (apply KeepsP.eta)); apply KeepsP.mk') | apply keepsP_ite
    | split

theorem deadGuests_keeps (hregs : F.regs) (hcore : F.core) (hslc : F.slc) (hhbm : F.hbm) (hnet : F.net) (hque : F.que)
    (hprt : F.prt) (hxlt : F.xlt) (hhost : F.host) (hrecs : F.recs) (hout : F.out) (d dead : Nat)
    (x3 : List (Bool × Line)) (x4 : Nat) (h : Keeps F s₀ s) :
    KeepsP F s₀ (deadGuests d dead x3 x4 s) := by
  induction x3 generalizing d dead x4 s with
  | nil =>
    unfold deadGuests
    try dsimp only
    repeat' first
      | with_reducible first
        | assumption | intro _ | apply deadGuest_keeps | apply KeepsP.snd
        | ((fail_if_success (apply KeepsP.eta)); apply KeepsP.mk')
      | split
  | cons x_ l_ ih =>
    unfold deadGuests
    try dsimp only
    repeat' first
      | with_reducible first
        | assumption | intro _ | apply deadGuest_keeps | apply ih | apply KeepsP.snd
      | split

theorem lostSummary_keeps (hrecs : F.recs) (d n dead part k : Nat) (h : Keeps F s₀ s) :
    Keeps F s₀ (lostSummary d n dead part k s) := by
  unfold lostSummary
  try dsimp only
  with_reducible repeat' first
    | assumption | intro _ | apply emit_keeps | apply keeps_ite

theorem deadSlice_keeps (hregs : F.regs) (hcore : F.core) (hslc : F.slc) (hhbm : F.hbm) (hnet : F.net) (hque : F.que)
    (hprt : F.prt) (hxlt : F.xlt) (hhost : F.host) (hrecs : F.recs) (hout : F.out) (d n dead : Nat) (h : Keeps F s₀ s)
    :
    Keeps F s₀ (deadSlice d n dead s) := by
  unfold deadSlice
  try dsimp only
  repeat' first
    | with_reducible first
      | assumption | intro _ | apply deadEntries_keeps | apply deadGuests_keeps | apply lostSummary_keeps
      | apply keeps_getD | apply keepsP_getD | apply KeepsP.snd
    | split

theorem cohDead_keeps (hregs : F.regs) (hcore : F.core) (hslc : F.slc) (hhbm : F.hbm) (hnet : F.net) (hque : F.que)
    (hprt : F.prt) (hxlt : F.xlt) (hhost : F.host) (hrecs : F.recs) (hout : F.out) (d dead inc : Nat)
    (h : Keeps F s₀ s) :
    Keeps F s₀ (cohDead d dead inc s) := by
  unfold cohDead
  try dsimp only
  repeat' first
    | with_reducible first
      | assumption | intro _ | apply dropStale_keeps | apply each_keeps | apply deadSlice_keeps | apply keeps_ite
    | split

theorem cohReclaim_keeps (hregs : F.regs) (hcore : F.core) (hslc : F.slc) (hhbm : F.hbm) (hnet : F.net) (hque : F.que)
    (hprt : F.prt) (hxlt : F.xlt) (hhost : F.host) (hrecs : F.recs) (hout : F.out) (d p : Nat) (h : Keeps F s₀ s) :
    Keeps F s₀ (cohReclaim d p s) := by
  unfold cohReclaim
  try dsimp only
  with_reducible repeat' first
    | assumption | intro _ | apply each_keeps | apply orphanCache_keeps

theorem queryResult_keeps (hregs : F.regs) (d st notHome owner count cause sharers : Nat) (h : Keeps F s₀ s) :
    Keeps F s₀ (queryResult d st notHome owner count cause sharers s) := by
  unfold queryResult
  try dsimp only
  with_reducible repeat' first
    | assumption | intro _ | apply State.wr_keeps

theorem cohQuery_keeps (hregs : F.regs) (hslc : F.slc) (hrecs : F.recs) (d : Nat) (src : Source) (h : Keeps F s₀ s) :
    Keeps F s₀ (cohQuery d src s) := by
  unfold cohQuery
  try dsimp only
  repeat' first
    | with_reducible first
      | assumption | exact ring_wf_id | exact Memory.wf_id | intro _ | apply queryResult_keeps
      | apply sealedAccess_keeps | ((fail_if_success (apply keeps_eta)); apply keeps_mk)
      | exact Or.inl (by assumption) | exact Or.inr rfl | apply keeps_ite | exact KeepsOP.none | apply KeepsOP.some
      | apply keepsOP_ite | apply keepsO_map | apply keepsOP_map | apply keepsOP_mapP | apply keepsO_mapP
      | apply keepsO_mapA | apply keepsOP_mapA | apply keepsO_bind | apply keepsO_bindP | apply keepsOP_bind
      | apply keepsOP_bindP | apply keepsO_bindA | apply keepsOP_bindA | apply keeps_getD | apply keepsP_getD
      | apply KeepsP.snd | ((fail_if_success (apply KeepsP.eta)); apply KeepsP.mk') | apply keepsP_ite
      | refine KeepsOP.of ?_ (by assumption) | refine KeepsOP.pair ?_ (by assumption)
    | split

theorem execCohQuery_keeps (hregs : F.regs) (hslc : F.slc) (hrecs : F.recs) (d : Nat) (src : Source)
    (h : Keeps F s₀ s) :
    KeepsX F s₀ (execCohQuery d src s) := by
  unfold execCohQuery
  try dsimp only
  with_reducible repeat' first
    | assumption | intro _ | apply onDie_keeps | apply cohQuery_keeps

end Sys2Proof.Machine
end

