-- ==== Sys2Proof/Laws/KeepsVector.lean ====
section
/-! SUPPORT. What each effect of Machine/Vector.lean may change (see Laws/Keeps.lean). -/

namespace Sys2Proof.Machine

variable {F : Frame} {s₀ s : State}

theorem laneEff_keeps (f : Iss → Nat → Lane) (i : Iss) (h : Keeps F s₀ s) :
    KeepsE F s₀ (laneEff f i s) := by
  unfold laneEff
  try dsimp only
  with_reducible repeat' first
    | assumption | intro _ | exact KeepsE.wait | apply KeepsE.done

theorem coreOp_keeps (hregs : F.regs) (hcore : F.core) (hslc : F.slc) (hhbm : F.hbm) (hnet : F.net) (hque : F.que)
    (hprt : F.prt) (hxlt : F.xlt) (hhost : F.host) (hrecs : F.recs) (hout : F.out) (a : Issue) (op : Nat)
    (f : BitVec 56) (eff : Iss → State → Eff) (h_eff : ∀ y0 u_, Keeps F s₀ u_ → KeepsE F s₀ (eff y0 u_))
    (h : Keeps F s₀ s) :
    KeepsX F s₀ (coreOp a op f eff s) := by
  unfold coreOp
  try dsimp only
  with_reducible repeat' first
    | assumption | intro _ | apply onDie_keeps | apply issue_keeps

theorem vcmpEff_keeps (i : Iss) (h : Keeps F s₀ s) :
    KeepsE F s₀ (vcmpEff i s) := by
  unfold vcmpEff
  try dsimp only
  with_reducible repeat' first
    | assumption | intro _ | exact KeepsE.wait | apply KeepsE.done

theorem vcvtEff_keeps (i : Iss) (h : Keeps F s₀ s) :
    KeepsE F s₀ (vcvtEff i s) := by
  unfold vcvtEff
  try dsimp only
  with_reducible repeat' first
    | assumption | intro _ | apply foldl_keeps | apply keepsP_foldl | apply keepsQ_foldl | apply KeepsP.snd
    | ((fail_if_success (apply KeepsP.eta)); apply KeepsP.mk') | exact KeepsE.wait | apply KeepsE.done

theorem execVadd_keeps (hregs : F.regs) (hcore : F.core) (hslc : F.slc) (hhbm : F.hbm) (hnet : F.net) (hque : F.que)
    (hprt : F.prt) (hxlt : F.xlt) (hhost : F.host) (hrecs : F.recs) (hout : F.out) (a : Issue) (f : BitVec 56)
    (h : Keeps F s₀ s) :
    KeepsX F s₀ (execVadd a f s) := by
  unfold execVadd
  try dsimp only
  with_reducible repeat' first
    | assumption | intro _ | apply coreOp_keeps | apply laneEff_keeps

theorem execVsub_keeps (hregs : F.regs) (hcore : F.core) (hslc : F.slc) (hhbm : F.hbm) (hnet : F.net) (hque : F.que)
    (hprt : F.prt) (hxlt : F.xlt) (hhost : F.host) (hrecs : F.recs) (hout : F.out) (a : Issue) (f : BitVec 56)
    (h : Keeps F s₀ s) :
    KeepsX F s₀ (execVsub a f s) := by
  unfold execVsub
  try dsimp only
  with_reducible repeat' first
    | assumption | intro _ | apply coreOp_keeps | apply laneEff_keeps

theorem execVmul_keeps (hregs : F.regs) (hcore : F.core) (hslc : F.slc) (hhbm : F.hbm) (hnet : F.net) (hque : F.que)
    (hprt : F.prt) (hxlt : F.xlt) (hhost : F.host) (hrecs : F.recs) (hout : F.out) (a : Issue) (f : BitVec 56)
    (h : Keeps F s₀ s) :
    KeepsX F s₀ (execVmul a f s) := by
  unfold execVmul
  try dsimp only
  with_reducible repeat' first
    | assumption | intro _ | apply coreOp_keeps | apply laneEff_keeps

theorem execVfma_keeps (hregs : F.regs) (hcore : F.core) (hslc : F.slc) (hhbm : F.hbm) (hnet : F.net) (hque : F.que)
    (hprt : F.prt) (hxlt : F.xlt) (hhost : F.host) (hrecs : F.recs) (hout : F.out) (a : Issue) (f : BitVec 56)
    (h : Keeps F s₀ s) :
    KeepsX F s₀ (execVfma a f s) := by
  unfold execVfma
  try dsimp only
  with_reducible repeat' first
    | assumption | intro _ | apply coreOp_keeps | apply laneEff_keeps

theorem execVmin_keeps (hregs : F.regs) (hcore : F.core) (hslc : F.slc) (hhbm : F.hbm) (hnet : F.net) (hque : F.que)
    (hprt : F.prt) (hxlt : F.xlt) (hhost : F.host) (hrecs : F.recs) (hout : F.out) (a : Issue) (f : BitVec 56)
    (h : Keeps F s₀ s) :
    KeepsX F s₀ (execVmin a f s) := by
  unfold execVmin
  try dsimp only
  with_reducible repeat' first
    | assumption | intro _ | apply coreOp_keeps | apply laneEff_keeps

theorem execVmax_keeps (hregs : F.regs) (hcore : F.core) (hslc : F.slc) (hhbm : F.hbm) (hnet : F.net) (hque : F.que)
    (hprt : F.prt) (hxlt : F.xlt) (hhost : F.host) (hrecs : F.recs) (hout : F.out) (a : Issue) (f : BitVec 56)
    (h : Keeps F s₀ s) :
    KeepsX F s₀ (execVmax a f s) := by
  unfold execVmax
  try dsimp only
  with_reducible repeat' first
    | assumption | intro _ | apply coreOp_keeps | apply laneEff_keeps

theorem execVabs_keeps (hregs : F.regs) (hcore : F.core) (hslc : F.slc) (hhbm : F.hbm) (hnet : F.net) (hque : F.que)
    (hprt : F.prt) (hxlt : F.xlt) (hhost : F.host) (hrecs : F.recs) (hout : F.out) (a : Issue) (f : BitVec 56)
    (h : Keeps F s₀ s) :
    KeepsX F s₀ (execVabs a f s) := by
  unfold execVabs
  try dsimp only
  with_reducible repeat' first
    | assumption | intro _ | apply coreOp_keeps | apply laneEff_keeps

theorem execVneg_keeps (hregs : F.regs) (hcore : F.core) (hslc : F.slc) (hhbm : F.hbm) (hnet : F.net) (hque : F.que)
    (hprt : F.prt) (hxlt : F.xlt) (hhost : F.host) (hrecs : F.recs) (hout : F.out) (a : Issue) (f : BitVec 56)
    (h : Keeps F s₀ s) :
    KeepsX F s₀ (execVneg a f s) := by
  unfold execVneg
  try dsimp only
  with_reducible repeat' first
    | assumption | intro _ | apply coreOp_keeps | apply laneEff_keeps

theorem execVlog_keeps (hregs : F.regs) (hcore : F.core) (hslc : F.slc) (hhbm : F.hbm) (hnet : F.net) (hque : F.que)
    (hprt : F.prt) (hxlt : F.xlt) (hhost : F.host) (hrecs : F.recs) (hout : F.out) (a : Issue) (f : BitVec 56)
    (h : Keeps F s₀ s) :
    KeepsX F s₀ (execVlog a f s) := by
  unfold execVlog
  try dsimp only
  with_reducible repeat' first
    | assumption | intro _ | apply coreOp_keeps | apply laneEff_keeps

theorem execVshl_keeps (hregs : F.regs) (hcore : F.core) (hslc : F.slc) (hhbm : F.hbm) (hnet : F.net) (hque : F.que)
    (hprt : F.prt) (hxlt : F.xlt) (hhost : F.host) (hrecs : F.recs) (hout : F.out) (a : Issue) (f : BitVec 56)
    (h : Keeps F s₀ s) :
    KeepsX F s₀ (execVshl a f s) := by
  unfold execVshl
  try dsimp only
  with_reducible repeat' first
    | assumption | intro _ | apply coreOp_keeps | apply laneEff_keeps

theorem execVshr_keeps (hregs : F.regs) (hcore : F.core) (hslc : F.slc) (hhbm : F.hbm) (hnet : F.net) (hque : F.que)
    (hprt : F.prt) (hxlt : F.xlt) (hhost : F.host) (hrecs : F.recs) (hout : F.out) (a : Issue) (f : BitVec 56)
    (h : Keeps F s₀ s) :
    KeepsX F s₀ (execVshr a f s) := by
  unfold execVshr
  try dsimp only
  with_reducible repeat' first
    | assumption | intro _ | apply coreOp_keeps | apply laneEff_keeps

theorem execVcmp_keeps (hregs : F.regs) (hcore : F.core) (hslc : F.slc) (hhbm : F.hbm) (hnet : F.net) (hque : F.que)
    (hprt : F.prt) (hxlt : F.xlt) (hhost : F.host) (hrecs : F.recs) (hout : F.out) (a : Issue) (f : BitVec 56)
    (h : Keeps F s₀ s) :
    KeepsX F s₀ (execVcmp a f s) := by
  unfold execVcmp
  try dsimp only
  with_reducible repeat' first
    | assumption | intro _ | apply coreOp_keeps | apply vcmpEff_keeps

theorem execVsel_keeps (hregs : F.regs) (hcore : F.core) (hslc : F.slc) (hhbm : F.hbm) (hnet : F.net) (hque : F.que)
    (hprt : F.prt) (hxlt : F.xlt) (hhost : F.host) (hrecs : F.recs) (hout : F.out) (a : Issue) (f : BitVec 56)
    (h : Keeps F s₀ s) :
    KeepsX F s₀ (execVsel a f s) := by
  unfold execVsel
  try dsimp only
  with_reducible repeat' first
    | assumption | intro _ | apply coreOp_keeps | apply laneEff_keeps

theorem execVcvt_keeps (hregs : F.regs) (hcore : F.core) (hslc : F.slc) (hhbm : F.hbm) (hnet : F.net) (hque : F.que)
    (hprt : F.prt) (hxlt : F.xlt) (hhost : F.host) (hrecs : F.recs) (hout : F.out) (a : Issue) (f : BitVec 56)
    (h : Keeps F s₀ s) :
    KeepsX F s₀ (execVcvt a f s) := by
  unfold execVcvt
  try dsimp only
  with_reducible repeat' first
    | assumption | intro _ | apply coreOp_keeps | apply vcvtEff_keeps

theorem execVdot4_keeps (hregs : F.regs) (hcore : F.core) (hslc : F.slc) (hhbm : F.hbm) (hnet : F.net) (hque : F.que)
    (hprt : F.prt) (hxlt : F.xlt) (hhost : F.host) (hrecs : F.recs) (hout : F.out) (a : Issue) (f : BitVec 56)
    (h : Keeps F s₀ s) :
    KeepsX F s₀ (execVdot4 a f s) := by
  unfold execVdot4
  try dsimp only
  with_reducible repeat' first
    | assumption | intro _ | apply coreOp_keeps | apply laneEff_keeps

theorem execVmov_keeps (hregs : F.regs) (hcore : F.core) (hslc : F.slc) (hhbm : F.hbm) (hnet : F.net) (hque : F.que)
    (hprt : F.prt) (hxlt : F.xlt) (hhost : F.host) (hrecs : F.recs) (hout : F.out) (a : Issue) (f : BitVec 56)
    (h : Keeps F s₀ s) :
    KeepsX F s₀ (execVmov a f s) := by
  unfold execVmov
  try dsimp only
  with_reducible repeat' first
    | assumption | intro _ | apply coreOp_keeps | apply laneEff_keeps

theorem execVrcp_keeps (hregs : F.regs) (hcore : F.core) (hslc : F.slc) (hhbm : F.hbm) (hnet : F.net) (hque : F.que)
    (hprt : F.prt) (hxlt : F.xlt) (hhost : F.host) (hrecs : F.recs) (hout : F.out) (a : Issue) (f : BitVec 56)
    (h : Keeps F s₀ s) :
    KeepsX F s₀ (execVrcp a f s) := by
  unfold execVrcp
  try dsimp only
  with_reducible repeat' first
    | assumption | intro _ | apply coreOp_keeps | apply laneEff_keeps

theorem execVrsq_keeps (hregs : F.regs) (hcore : F.core) (hslc : F.slc) (hhbm : F.hbm) (hnet : F.net) (hque : F.que)
    (hprt : F.prt) (hxlt : F.xlt) (hhost : F.host) (hrecs : F.recs) (hout : F.out) (a : Issue) (f : BitVec 56)
    (h : Keeps F s₀ s) :
    KeepsX F s₀ (execVrsq a f s) := by
  unfold execVrsq
  try dsimp only
  with_reducible repeat' first
    | assumption | intro _ | apply coreOp_keeps | apply laneEff_keeps

theorem execVexp2_keeps (hregs : F.regs) (hcore : F.core) (hslc : F.slc) (hhbm : F.hbm) (hnet : F.net) (hque : F.que)
    (hprt : F.prt) (hxlt : F.xlt) (hhost : F.host) (hrecs : F.recs) (hout : F.out) (a : Issue) (f : BitVec 56)
    (h : Keeps F s₀ s) :
    KeepsX F s₀ (execVexp2 a f s) := by
  unfold execVexp2
  try dsimp only
  with_reducible repeat' first
    | assumption | intro _ | apply coreOp_keeps | apply laneEff_keeps

theorem execVlog2_keeps (hregs : F.regs) (hcore : F.core) (hslc : F.slc) (hhbm : F.hbm) (hnet : F.net) (hque : F.que)
    (hprt : F.prt) (hxlt : F.xlt) (hhost : F.host) (hrecs : F.recs) (hout : F.out) (a : Issue) (f : BitVec 56)
    (h : Keeps F s₀ s) :
    KeepsX F s₀ (execVlog2 a f s) := by
  unfold execVlog2
  try dsimp only
  with_reducible repeat' first
    | assumption | intro _ | apply coreOp_keeps | apply laneEff_keeps

theorem execVshfl_keeps (hregs : F.regs) (hcore : F.core) (hslc : F.slc) (hhbm : F.hbm) (hnet : F.net) (hque : F.que)
    (hprt : F.prt) (hxlt : F.xlt) (hhost : F.host) (hrecs : F.recs) (hout : F.out) (a : Issue) (f : BitVec 56)
    (h : Keeps F s₀ s) :
    KeepsX F s₀ (execVshfl a f s) := by
  unfold execVshfl
  try dsimp only
  with_reducible repeat' first
    | assumption | intro _ | apply coreOp_keeps | apply laneEff_keeps

theorem execVred_keeps (hregs : F.regs) (hcore : F.core) (hslc : F.slc) (hhbm : F.hbm) (hnet : F.net) (hque : F.que)
    (hprt : F.prt) (hxlt : F.xlt) (hhost : F.host) (hrecs : F.recs) (hout : F.out) (a : Issue) (f : BitVec 56)
    (h : Keeps F s₀ s) :
    KeepsX F s₀ (execVred a f s) := by
  unfold execVred
  try dsimp only
  with_reducible repeat' first
    | assumption | intro _ | apply coreOp_keeps | apply laneEff_keeps

theorem vcmpsEff_keeps (i : Iss) (h : Keeps F s₀ s) :
    KeepsE F s₀ (vcmpsEff i s) := by
  unfold vcmpsEff
  try dsimp only
  with_reducible repeat' first
    | assumption | intro _ | exact KeepsE.wait | apply KeepsE.done

theorem execVadds_keeps (hregs : F.regs) (hcore : F.core) (hslc : F.slc) (hhbm : F.hbm) (hnet : F.net) (hque : F.que)
    (hprt : F.prt) (hxlt : F.xlt) (hhost : F.host) (hrecs : F.recs) (hout : F.out) (a : Issue) (imm : Bool)
    (f : BitVec 56) (h : Keeps F s₀ s) :
    KeepsX F s₀ (execVadds a imm f s) := by
  unfold execVadds
  try dsimp only
  with_reducible repeat' first
    | assumption | intro _ | apply coreOp_keeps | apply laneEff_keeps

theorem execVsubs_keeps (hregs : F.regs) (hcore : F.core) (hslc : F.slc) (hhbm : F.hbm) (hnet : F.net) (hque : F.que)
    (hprt : F.prt) (hxlt : F.xlt) (hhost : F.host) (hrecs : F.recs) (hout : F.out) (a : Issue) (imm : Bool)
    (f : BitVec 56) (h : Keeps F s₀ s) :
    KeepsX F s₀ (execVsubs a imm f s) := by
  unfold execVsubs
  try dsimp only
  with_reducible repeat' first
    | assumption | intro _ | apply coreOp_keeps | apply laneEff_keeps

theorem execVmuls_keeps (hregs : F.regs) (hcore : F.core) (hslc : F.slc) (hhbm : F.hbm) (hnet : F.net) (hque : F.que)
    (hprt : F.prt) (hxlt : F.xlt) (hhost : F.host) (hrecs : F.recs) (hout : F.out) (a : Issue) (imm : Bool)
    (f : BitVec 56) (h : Keeps F s₀ s) :
    KeepsX F s₀ (execVmuls a imm f s) := by
  unfold execVmuls
  try dsimp only
  with_reducible repeat' first
    | assumption | intro _ | apply coreOp_keeps | apply laneEff_keeps

theorem execVfmas_keeps (hregs : F.regs) (hcore : F.core) (hslc : F.slc) (hhbm : F.hbm) (hnet : F.net) (hque : F.que)
    (hprt : F.prt) (hxlt : F.xlt) (hhost : F.host) (hrecs : F.recs) (hout : F.out) (a : Issue) (imm : Bool)
    (f : BitVec 56) (h : Keeps F s₀ s) :
    KeepsX F s₀ (execVfmas a imm f s) := by
  unfold execVfmas
  try dsimp only
  with_reducible repeat' first
    | assumption | intro _ | apply coreOp_keeps | apply laneEff_keeps

theorem execVmins_keeps (hregs : F.regs) (hcore : F.core) (hslc : F.slc) (hhbm : F.hbm) (hnet : F.net) (hque : F.que)
    (hprt : F.prt) (hxlt : F.xlt) (hhost : F.host) (hrecs : F.recs) (hout : F.out) (a : Issue) (imm : Bool)
    (f : BitVec 56) (h : Keeps F s₀ s) :
    KeepsX F s₀ (execVmins a imm f s) := by
  unfold execVmins
  try dsimp only
  with_reducible repeat' first
    | assumption | intro _ | apply coreOp_keeps | apply laneEff_keeps

theorem execVmaxs_keeps (hregs : F.regs) (hcore : F.core) (hslc : F.slc) (hhbm : F.hbm) (hnet : F.net) (hque : F.que)
    (hprt : F.prt) (hxlt : F.xlt) (hhost : F.host) (hrecs : F.recs) (hout : F.out) (a : Issue) (imm : Bool)
    (f : BitVec 56) (h : Keeps F s₀ s) :
    KeepsX F s₀ (execVmaxs a imm f s) := by
  unfold execVmaxs
  try dsimp only
  with_reducible repeat' first
    | assumption | intro _ | apply coreOp_keeps | apply laneEff_keeps

theorem execVcmps_keeps (hregs : F.regs) (hcore : F.core) (hslc : F.slc) (hhbm : F.hbm) (hnet : F.net) (hque : F.que)
    (hprt : F.prt) (hxlt : F.xlt) (hhost : F.host) (hrecs : F.recs) (hout : F.out) (a : Issue) (imm : Bool)
    (f : BitVec 56) (h : Keeps F s₀ s) :
    KeepsX F s₀ (execVcmps a imm f s) := by
  unfold execVcmps
  try dsimp only
  with_reducible repeat' first
    | assumption | intro _ | apply coreOp_keeps | apply vcmpsEff_keeps

theorem execVmovs_keeps (hregs : F.regs) (hcore : F.core) (hslc : F.slc) (hhbm : F.hbm) (hnet : F.net) (hque : F.que)
    (hprt : F.prt) (hxlt : F.xlt) (hhost : F.host) (hrecs : F.recs) (hout : F.out) (a : Issue) (imm : Bool)
    (f : BitVec 56) (h : Keeps F s₀ s) :
    KeepsX F s₀ (execVmovs a imm f s) := by
  unfold execVmovs
  try dsimp only
  with_reducible repeat' first
    | assumption | intro _ | apply coreOp_keeps | apply laneEff_keeps

end Sys2Proof.Machine
end

