-- ==== Sys2Proof/Laws/KeepsControl.lean ====
section
/-! SUPPORT. What each effect of Machine/Control.lean may change (see Laws/Keeps.lean). -/

namespace Sys2Proof.Machine

variable {F : Frame} {s₀ s : State}

theorem braEff_keeps (i : Iss) (h : Keeps F s₀ s) :
    KeepsE F s₀ (braEff i s) := by
  unfold braEff
  try dsimp only
  with_reducible repeat' first
    | assumption | intro _ | exact KeepsE.wait | apply KeepsE.done

theorem callEff_keeps (i : Iss) (h : Keeps F s₀ s) :
    KeepsE F s₀ (callEff i s) := by
  unfold callEff
  try dsimp only
  with_reducible repeat' first
    | assumption | intro _ | apply foldl_keeps | apply keepsP_foldl | apply keepsQ_foldl | apply KeepsP.snd
    | ((fail_if_success (apply KeepsP.eta)); apply KeepsP.mk') | exact KeepsE.wait | apply KeepsE.done

theorem jmprEff_keeps (i : Iss) (h : Keeps F s₀ s) :
    KeepsE F s₀ (jmprEff i s) := by
  unfold jmprEff
  try dsimp only
  repeat' first
    | with_reducible first
      | assumption | intro _ | exact KeepsE.wait | apply KeepsE.done | apply KeepsE.trap | apply KeepsE.hold
      | refine KeepsE.ofDone ?_ (by assumption) | refine KeepsE.ofTrap ?_ (by assumption)
      | refine KeepsE.ofHold ?_ (by assumption)
    | split

theorem parkEff_keeps (why : Park) (i : Iss) (h : Keeps F s₀ s) :
    KeepsE F s₀ (parkEff why i s) := by
  unfold parkEff
  try dsimp only
  with_reducible repeat' first
    | assumption | intro _ | apply keeps_getD | apply keepsP_getD | exact KeepsE.wait | apply KeepsE.done

theorem convergeEff_keeps (x1 : Iss) (h : Keeps F s₀ s) :
    KeepsE F s₀ (convergeEff x1 s) := by
  unfold convergeEff
  try dsimp only
  with_reducible repeat' first
    | assumption | apply parkEff_keeps

theorem barcEff_keeps (i : Iss) (h : Keeps F s₀ s) :
    KeepsE F s₀ (barcEff i s) := by
  unfold barcEff
  try dsimp only
  with_reducible repeat' first
    | assumption | intro _ | apply parkEff_keeps

theorem yieldEff_keeps (i : Iss) (h : Keeps F s₀ s) :
    KeepsE F s₀ (yieldEff i s) := by
  unfold yieldEff
  try dsimp only
  with_reducible repeat' first
    | assumption | intro _ | exact KeepsE.wait | apply KeepsE.done

theorem exitEff_keeps (i : Iss) (h : Keeps F s₀ s) :
    KeepsE F s₀ (exitEff i s) := by
  unfold exitEff
  try dsimp only
  with_reducible repeat' first
    | assumption | intro _ | exact KeepsE.wait | apply KeepsE.done

theorem nopEff_keeps (i : Iss) (h : Keeps F s₀ s) :
    KeepsE F s₀ (nopEff i s) := by
  unfold nopEff
  try dsimp only
  with_reducible repeat' first
    | assumption | intro _ | exact KeepsE.wait | apply KeepsE.done

theorem trapEff_keeps (i : Iss) (h : Keeps F s₀ s) :
    KeepsE F s₀ (trapEff i s) := by
  unfold trapEff
  try dsimp only
  repeat' first
    | with_reducible first
      | assumption | intro _ | exact KeepsE.wait | apply KeepsE.done | apply KeepsE.trap | apply KeepsE.hold
      | refine KeepsE.ofDone ?_ (by assumption) | refine KeepsE.ofTrap ?_ (by assumption)
      | refine KeepsE.ofHold ?_ (by assumption)
    | split

theorem execBra_keeps (hregs : F.regs) (hcore : F.core) (hslc : F.slc) (hhbm : F.hbm) (hnet : F.net) (hque : F.que)
    (hprt : F.prt) (hxlt : F.xlt) (hhost : F.host) (hrecs : F.recs) (hout : F.out) (a : Issue) (f : BitVec 56)
    (h : Keeps F s₀ s) :
    KeepsX F s₀ (execBra a f s) := by
  unfold execBra
  try dsimp only
  with_reducible repeat' first
    | assumption | intro _ | apply coreOp_keeps | apply braEff_keeps

theorem execCall_keeps (hregs : F.regs) (hcore : F.core) (hslc : F.slc) (hhbm : F.hbm) (hnet : F.net) (hque : F.que)
    (hprt : F.prt) (hxlt : F.xlt) (hhost : F.host) (hrecs : F.recs) (hout : F.out) (a : Issue) (f : BitVec 56)
    (h : Keeps F s₀ s) :
    KeepsX F s₀ (execCall a f s) := by
  unfold execCall
  try dsimp only
  with_reducible repeat' first
    | assumption | intro _ | apply coreOp_keeps | apply callEff_keeps

theorem execJmpr_keeps (hregs : F.regs) (hcore : F.core) (hslc : F.slc) (hhbm : F.hbm) (hnet : F.net) (hque : F.que)
    (hprt : F.prt) (hxlt : F.xlt) (hhost : F.host) (hrecs : F.recs) (hout : F.out) (a : Issue) (f : BitVec 56)
    (h : Keeps F s₀ s) :
    KeepsX F s₀ (execJmpr a f s) := by
  unfold execJmpr
  try dsimp only
  with_reducible repeat' first
    | assumption | intro _ | apply coreOp_keeps | apply jmprEff_keeps

theorem execConverge_keeps (hregs : F.regs) (hcore : F.core) (hslc : F.slc) (hhbm : F.hbm) (hnet : F.net)
    (hque : F.que) (hprt : F.prt) (hxlt : F.xlt) (hhost : F.host) (hrecs : F.recs) (hout : F.out) (a : Issue)
    (f : BitVec 56) (h : Keeps F s₀ s) :
    KeepsX F s₀ (execConverge a f s) := by
  unfold execConverge
  try dsimp only
  with_reducible repeat' first
    | assumption | intro _ | apply coreOp_keeps | apply convergeEff_keeps

theorem execYield_keeps (hregs : F.regs) (hcore : F.core) (hslc : F.slc) (hhbm : F.hbm) (hnet : F.net) (hque : F.que)
    (hprt : F.prt) (hxlt : F.xlt) (hhost : F.host) (hrecs : F.recs) (hout : F.out) (a : Issue) (f : BitVec 56)
    (h : Keeps F s₀ s) :
    KeepsX F s₀ (execYield a f s) := by
  unfold execYield
  try dsimp only
  with_reducible repeat' first
    | assumption | intro _ | apply coreOp_keeps | apply yieldEff_keeps

theorem execBarc_keeps (hregs : F.regs) (hcore : F.core) (hslc : F.slc) (hhbm : F.hbm) (hnet : F.net) (hque : F.que)
    (hprt : F.prt) (hxlt : F.xlt) (hhost : F.host) (hrecs : F.recs) (hout : F.out) (a : Issue) (f : BitVec 56)
    (h : Keeps F s₀ s) :
    KeepsX F s₀ (execBarc a f s) := by
  unfold execBarc
  try dsimp only
  with_reducible repeat' first
    | assumption | intro _ | apply coreOp_keeps | apply barcEff_keeps

theorem execExit_keeps (hregs : F.regs) (hcore : F.core) (hslc : F.slc) (hhbm : F.hbm) (hnet : F.net) (hque : F.que)
    (hprt : F.prt) (hxlt : F.xlt) (hhost : F.host) (hrecs : F.recs) (hout : F.out) (a : Issue) (f : BitVec 56)
    (h : Keeps F s₀ s) :
    KeepsX F s₀ (execExit a f s) := by
  unfold execExit
  try dsimp only
  with_reducible repeat' first
    | assumption | intro _ | apply coreOp_keeps | apply exitEff_keeps

theorem execNop_keeps (hregs : F.regs) (hcore : F.core) (hslc : F.slc) (hhbm : F.hbm) (hnet : F.net) (hque : F.que)
    (hprt : F.prt) (hxlt : F.xlt) (hhost : F.host) (hrecs : F.recs) (hout : F.out) (a : Issue) (f : BitVec 56)
    (h : Keeps F s₀ s) :
    KeepsX F s₀ (execNop a f s) := by
  unfold execNop
  try dsimp only
  with_reducible repeat' first
    | assumption | intro _ | apply coreOp_keeps | apply nopEff_keeps

theorem execTrap_keeps (hregs : F.regs) (hcore : F.core) (hslc : F.slc) (hhbm : F.hbm) (hnet : F.net) (hque : F.que)
    (hprt : F.prt) (hxlt : F.xlt) (hhost : F.host) (hrecs : F.recs) (hout : F.out) (a : Issue) (f : BitVec 56)
    (h : Keeps F s₀ s) :
    KeepsX F s₀ (execTrap a f s) := by
  unfold execTrap
  try dsimp only
  with_reducible repeat' first
    | assumption | intro _ | apply coreOp_keeps | apply trapEff_keeps

end Sys2Proof.Machine
end

