-- ==== Sys2Proof/Laws/KeepsPartitions.lean ====
section
/-! SUPPORT. What each effect of Machine/Partitions.lean may change (see Laws/Keeps.lean). -/

namespace Sys2Proof.Machine

variable {F : Frame} {s₀ s : State}

theorem partCmd_keeps (hregs : F.regs) (d part inst : Nat) (f : State → State)
    (h_f : ∀ u_, Keeps F s₀ u_ → Keeps F s₀ (f u_)) (h : Keeps F s₀ s) :
    Keeps F s₀ (partCmd d part inst f s) := by
  unfold partCmd
  try dsimp only
  with_reducible repeat' first
    | assumption | intro _ | apply State.wr_keeps | apply h_f | apply keeps_ite

theorem goLive_keeps (hregs : F.regs) (hrecs : F.recs) (d p i : Nat) (src : Source) (h : Keeps F s₀ s) :
    Keeps F s₀ (goLive d p i src s) := by
  unfold goLive
  try dsimp only
  with_reducible repeat' first
    | assumption | intro _ | apply partCmd_keeps | apply State.wr_keeps | apply setInstState_keeps
    | apply wardDenied_keeps | apply keeps_ite

theorem execGoLive_keeps (hregs : F.regs) (hrecs : F.recs) (d part inst : Nat) (src : Source) (h : Keeps F s₀ s) :
    KeepsX F s₀ (execGoLive d part inst src s) := by
  unfold execGoLive
  try dsimp only
  with_reducible repeat' first
    | assumption | intro _ | apply onDie_keeps | apply goLive_keeps

theorem partBusy_keeps (hregs : F.regs) (d : Nat) (h : Keeps F s₀ s) :
    Keeps F s₀ (partBusy d s) := by
  unfold partBusy
  try dsimp only
  with_reducible repeat' first
    | assumption | intro _ | apply State.wr_keeps

theorem instResetCmd_keeps (hregs : F.regs) (hcore : F.core) (hslc : F.slc) (hhbm : F.hbm) (hnet : F.net)
    (hque : F.que) (hprt : F.prt) (hxlt : F.xlt) (hhost : F.host) (hrecs : F.recs) (hout : F.out) (d p i : Nat)
    (src : Source) (h : Keeps F s₀ s) :
    Keeps F s₀ (instResetCmd d p i src s) := by
  unfold instResetCmd
  try dsimp only
  with_reducible repeat' first
    | assumption | intro _ | apply partCmd_keeps | apply State.wr_keeps | apply partBusy_keeps | apply instReset_keeps
    | apply keeps_ite

theorem execInstReset_keeps (hregs : F.regs) (hcore : F.core) (hslc : F.slc) (hhbm : F.hbm) (hnet : F.net)
    (hque : F.que) (hprt : F.prt) (hxlt : F.xlt) (hhost : F.host) (hrecs : F.recs) (hout : F.out) (d part inst : Nat)
    (src : Source) (h : Keeps F s₀ s) :
    KeepsX F s₀ (execInstReset d part inst src s) := by
  unfold execInstReset
  try dsimp only
  with_reducible repeat' first
    | assumption | intro _ | apply onDie_keeps | apply instResetCmd_keeps

theorem partReset_keeps (hregs : F.regs) (hcore : F.core) (hslc : F.slc) (hhbm : F.hbm) (hnet : F.net) (hque : F.que)
    (hprt : F.prt) (hxlt : F.xlt) (hhost : F.host) (d p origin : Nat) (waiters : List Nat) (h : Keeps F s₀ s) :
    Keeps F s₀ (partReset d p origin waiters s) := by
  unfold partReset
  try dsimp only
  with_reducible repeat' first
    | assumption | exact ring_wf_id | exact Memory.wf_id | intro _ | apply joinReset_keeps
    | apply dropPartCopies_keeps | apply partResetEffects_keeps | apply foldl_keeps | apply keepsP_foldl
    | apply keepsQ_foldl | ((fail_if_success (apply keeps_eta)); apply keeps_mk) | exact Or.inl (by assumption)
    | exact Or.inr rfl | apply keeps_ite

theorem partResetCmd_keeps (hregs : F.regs) (hcore : F.core) (hslc : F.slc) (hhbm : F.hbm) (hnet : F.net)
    (hque : F.que) (hprt : F.prt) (hxlt : F.xlt) (hhost : F.host) (d p : Nat) (src : Source) (h : Keeps F s₀ s) :
    Keeps F s₀ (partResetCmd d p src s) := by
  unfold partResetCmd
  try dsimp only
  with_reducible repeat' first
    | assumption | intro _ | apply partCmd_keeps | apply State.wr_keeps | apply partBusy_keeps | apply partReset_keeps
    | apply keeps_ite

theorem execPartReset_keeps (hregs : F.regs) (hcore : F.core) (hslc : F.slc) (hhbm : F.hbm) (hnet : F.net)
    (hque : F.que) (hprt : F.prt) (hxlt : F.xlt) (hhost : F.host) (d part : Nat) (src : Source) (h : Keeps F s₀ s) :
    KeepsX F s₀ (execPartReset d part src s) := by
  unfold execPartReset
  try dsimp only
  with_reducible repeat' first
    | assumption | intro _ | apply onDie_keeps | apply partResetCmd_keeps

theorem endReset_keeps (hregs : F.regs) (hque : F.que) (hprt : F.prt) (hxlt : F.xlt) (hrecs : F.recs) (r : ResetRun)
    (h : Keeps F s₀ s) :
    Keeps F s₀ (endReset r s) := by
  unfold endReset
  try dsimp only
  repeat' first
    | with_reducible first
      | assumption | exact ring_wf_id | exact Memory.wf_id | intro _ | apply endInstReset_keeps
      | apply endPartReset_keeps | apply resetRecord_keeps | apply each_keeps | apply drainInvals_keeps
      | apply partBusy_keeps | ((fail_if_success (apply keeps_eta)); apply keeps_mk) | exact Or.inl (by assumption)
      | exact Or.inr rfl | apply keeps_ite | apply keeps_getD | apply keepsP_getD
    | split

theorem resetComplete_keeps (hregs : F.regs) (hque : F.que) (hprt : F.prt) (hxlt : F.xlt) (hrecs : F.recs) (p : Nat)
    (i : Option Nat) (h : Keeps F s₀ s) :
    Keeps F s₀ (resetComplete p i s) := by
  unfold resetComplete
  try dsimp only
  repeat' first
    | with_reducible first
      | assumption | intro _ | apply endReset_keeps
    | split

theorem execResetComplete_keeps (hregs : F.regs) (hque : F.que) (hprt : F.prt) (hxlt : F.xlt) (hrecs : F.recs)
    (part : Nat) (inst : Option Nat) (h : Keeps F s₀ s) :
    KeepsX F s₀ (execResetComplete part inst s) := by
  unfold execResetComplete
  try dsimp only
  with_reducible repeat' first
    | assumption | intro _ | apply resetComplete_keeps | apply KeepsX.next

theorem applyGate_keeps (hprt : F.prt) (g : GateReq) (h : Keeps F s₀ s) :
    Keeps F s₀ (applyGate g s) := by
  unfold applyGate
  try dsimp only
  with_reducible repeat' first
    | assumption | exact ring_wf_id | exact Memory.wf_id | intro _
    | ((fail_if_success (apply keeps_eta)); apply keeps_mk) | exact Or.inl (by assumption) | exact Or.inr rfl

theorem gateStatus_keeps (hregs : F.regs) (d result : Nat) (h : Keeps F s₀ s) :
    Keeps F s₀ (gateStatus d result s) := by
  unfold gateStatus
  try dsimp only
  with_reducible repeat' first
    | assumption | intro _ | apply State.wr_keeps

theorem askGate_keeps (hregs : F.regs) (hprt : F.prt) (g : GateReq) (h : Keeps F s₀ s) :
    Keeps F s₀ (askGate g s) := by
  unfold askGate
  try dsimp only
  with_reducible repeat' first
    | assumption | exact ring_wf_id | exact Memory.wf_id | intro _ | apply gateStatus_keeps | apply applyGate_keeps
    | ((fail_if_success (apply keeps_eta)); apply keeps_mk) | exact Or.inl (by assumption) | exact Or.inr rfl
    | apply keeps_ite

theorem gateRequest_keeps (hregs : F.regs) (hprt : F.prt) (g : GateReq) (h : Keeps F s₀ s) :
    Keeps F s₀ (gateRequest g s) := by
  unfold gateRequest
  try dsimp only
  with_reducible repeat' first
    | assumption | intro _ | apply gateStatus_keeps | apply State.wr_keeps | apply askGate_keeps | apply keeps_ite

theorem stopHalf_keeps (hregs : F.regs) (hprt : F.prt) (d x2 : Nat) (assigned : Bool) (h : Keeps F s₀ s) :
    Keeps F s₀ (stopHalf d x2 assigned s) := by
  unfold stopHalf
  try dsimp only
  with_reducible repeat' first
    | assumption | exact ring_wf_id | exact Memory.wf_id | intro _ | apply gateStatus_keeps | apply askGate_keeps
    | ((fail_if_success (apply keeps_eta)); apply keeps_mk) | exact Or.inl (by assumption) | exact Or.inr rfl
    | apply keeps_ite

theorem execPowerGate_keeps (hregs : F.regs) (hprt : F.prt) (d kind index : Nat) (_src : Source) (h : Keeps F s₀ s) :
    KeepsX F s₀ (execPowerGate d kind index _src s) := by
  unfold execPowerGate
  try dsimp only
  with_reducible repeat' first
    | assumption | intro _ | apply onDie_keeps | apply gateRequest_keeps

theorem execClockStop_keeps (hregs : F.regs) (hprt : F.prt) (d kind index : Nat) (_src : Source) (h : Keeps F s₀ s) :
    KeepsX F s₀ (execClockStop d kind index _src s) := by
  unfold execClockStop
  try dsimp only
  with_reducible repeat' first
    | assumption | intro _ | apply onDie_keeps | apply gateRequest_keeps

theorem execRestore_keeps (hregs : F.regs) (hprt : F.prt) (d kind index : Nat) (_src : Source) (h : Keeps F s₀ s) :
    KeepsX F s₀ (execRestore d kind index _src s) := by
  unfold execRestore
  try dsimp only
  with_reducible repeat' first
    | assumption | intro _ | apply onDie_keeps | apply gateRequest_keeps

theorem stringTimeout_keeps (hregs : F.regs) (hprt : F.prt) (hrecs : F.recs) (d : Nat) (h : Keeps F s₀ s) :
    Keeps F s₀ (stringTimeout d s) := by
  unfold stringTimeout
  try dsimp only
  repeat' first
    | with_reducible first
      | assumption | exact ring_wf_id | exact Memory.wf_id | intro _ | apply gateStatus_keeps | apply emit_keeps
      | apply State.count_keeps | ((fail_if_success (apply keeps_eta)); apply keeps_mk) | exact Or.inl (by assumption)
      | exact Or.inr rfl
    | split

theorem execStringTimeout_keeps (hregs : F.regs) (hprt : F.prt) (hrecs : F.recs) (d : Nat) (h : Keeps F s₀ s) :
    KeepsX F s₀ (execStringTimeout d s) := by
  unfold execStringTimeout
  try dsimp only
  with_reducible repeat' first
    | assumption | intro _ | apply onDie_keeps | apply stringTimeout_keeps

theorem afterCut_keeps (hregs : F.regs) (hprt : F.prt) (d : Nat) (h : Keeps F s₀ s) :
    Keeps F s₀ (afterCut d s) := by
  unfold afterCut
  try dsimp only
  repeat' first
    | with_reducible first
      | assumption | exact ring_wf_id | exact Memory.wf_id | intro _ | apply gateStatus_keeps | apply applyGate_keeps
      | ((fail_if_success (apply keeps_eta)); apply keeps_mk) | exact Or.inl (by assumption) | exact Or.inr rfl
      | apply keeps_ite
    | split

theorem wardenWrite_keeps (hregs : F.regs) (hrecs : F.recs) (d : Nat) (f : Fld) (src : Source) (v : Nat)
    (then_ : State → State) (h_then : ∀ u_, Keeps F s₀ u_ → Keeps F s₀ (then_ u_)) (h : Keeps F s₀ s) :
    Keeps F s₀ (wardenWrite d f src v then_ s) := by
  unfold wardenWrite
  try dsimp only
  with_reducible repeat' first
    | assumption | intro _ | apply State.wr_keeps | apply wardDenied_keeps | apply h_then | apply keeps_ite

theorem wardStrWrite_keeps (hregs : F.regs) (hprt : F.prt) (hrecs : F.recs) (d kind w : Nat) (src : Source) (v : Word)
    (h : Keeps F s₀ s) :
    Keeps F s₀ (wardStrWrite d kind w src v s) := by
  unfold wardStrWrite
  try dsimp only
  repeat' first
    | with_reducible first
      | assumption | intro _ | apply wardenWrite_keeps | apply afterCut_keeps
    | split

theorem execWardStrWrite_keeps (hregs : F.regs) (hprt : F.prt) (hrecs : F.recs) (d kind w : Nat) (src : Source)
    (v : Word) (h : Keeps F s₀ s) :
    KeepsX F s₀ (execWardStrWrite d kind w src v s) := by
  unfold execWardStrWrite
  try dsimp only
  with_reducible repeat' first
    | assumption | intro _ | apply onDie_keeps | apply wardStrWrite_keeps

theorem wardDown_keeps (hregs : F.regs) (hcore : F.core) (hslc : F.slc) (hhbm : F.hbm) (hque : F.que) (hprt : F.prt)
    (hxlt : F.xlt) (hhost : F.host) (hrecs : F.recs) (hout : F.out) (d cause : Nat) (h : Keeps F s₀ s) :
    Keeps F s₀ (wardDown d cause s) := by
  unfold wardDown
  try dsimp only
  with_reducible repeat' first
    | assumption | intro _ | apply emit_keeps | apply State.wr_keeps | apply each_keeps | apply partFault_keeps
    | apply keeps_ite

theorem execWardDown_keeps (hregs : F.regs) (hcore : F.core) (hslc : F.slc) (hhbm : F.hbm) (hque : F.que)
    (hprt : F.prt) (hxlt : F.xlt) (hhost : F.host) (hrecs : F.recs) (hout : F.out) (d cause : Nat) (h : Keeps F s₀ s)
    :
    KeepsX F s₀ (execWardDown d cause s) := by
  unfold execWardDown
  try dsimp only
  with_reducible repeat' first
    | assumption | intro _ | apply onDie_keeps | apply wardDown_keeps

theorem mboxInWrite_keeps (hregs : F.regs) (d : Nat) (v : Word) (h : Keeps F s₀ s) :
    Keeps F s₀ (mboxInWrite d v s) := by
  unfold mboxInWrite
  try dsimp only
  with_reducible repeat' first
    | assumption | intro _ | apply State.wr_keeps

theorem execWardMboxInWrite_keeps (hregs : F.regs) (d : Nat) (_src : Source) (v : Word) (h : Keeps F s₀ s) :
    KeepsX F s₀ (execWardMboxInWrite d _src v s) := by
  unfold execWardMboxInWrite
  try dsimp only
  with_reducible repeat' first
    | assumption | intro _ | apply onDie_keeps | apply mboxInWrite_keeps

theorem answerRead_keeps (hout : F.out) (d addr v : Nat) (src : Source) (h : Keeps F s₀ s) :
    Keeps F s₀ (answerRead d addr v src s) := by
  unfold answerRead
  try dsimp only
  with_reducible repeat' first
    | assumption | exact ring_wf_id | exact Memory.wf_id | intro _
    | ((fail_if_success (apply keeps_eta)); apply keeps_mk) | exact Or.inl (by assumption) | exact Or.inr rfl

theorem mboxInTaken_keeps (hregs : F.regs) (d : Nat) (src : Source) (h : Keeps F s₀ s) :
    Keeps F s₀ (mboxInTaken d src s) := by
  unfold mboxInTaken
  try dsimp only
  with_reducible repeat' first
    | assumption | intro _ | apply State.wr_keeps | apply keeps_ite

theorem mboxInRead_keeps (hregs : F.regs) (hout : F.out) (d : Nat) (src : Source) (h : Keeps F s₀ s) :
    Keeps F s₀ (mboxInRead d src s) := by
  unfold mboxInRead
  try dsimp only
  with_reducible repeat' first
    | assumption | intro _ | apply mboxInTaken_keeps | apply answerRead_keeps

theorem execWardMboxInRead_keeps (hregs : F.regs) (hout : F.out) (d : Nat) (src : Source) (h : Keeps F s₀ s) :
    KeepsX F s₀ (execWardMboxInRead d src s) := by
  unfold execWardMboxInRead
  try dsimp only
  with_reducible repeat' first
    | assumption | intro _ | apply onDie_keeps | apply mboxInRead_keeps

theorem mboxOutWrite_keeps (hregs : F.regs) (hrecs : F.recs) (d : Nat) (src : Source) (v : Word) (h : Keeps F s₀ s) :
    Keeps F s₀ (mboxOutWrite d src v s) := by
  unfold mboxOutWrite
  try dsimp only
  with_reducible repeat' first
    | assumption | intro _ | apply wardenWrite_keeps | apply State.wr_keeps

theorem execWardMboxOutWrite_keeps (hregs : F.regs) (hrecs : F.recs) (d : Nat) (src : Source) (v : Word)
    (h : Keeps F s₀ s) :
    KeepsX F s₀ (execWardMboxOutWrite d src v s) := by
  unfold execWardMboxOutWrite
  try dsimp only
  with_reducible repeat' first
    | assumption | intro _ | apply onDie_keeps | apply mboxOutWrite_keeps

theorem mboxOutTaken_keeps (hregs : F.regs) (d : Nat) (h : Keeps F s₀ s) :
    Keeps F s₀ (mboxOutTaken d s) := by
  unfold mboxOutTaken
  try dsimp only
  with_reducible repeat' first
    | assumption | intro _ | apply State.wr_keeps

theorem execWardMboxOutRead_keeps (hregs : F.regs) (hout : F.out) (d : Nat) (src : Source) (h : Keeps F s₀ s) :
    KeepsX F s₀ (execWardMboxOutRead d src s) := by
  unfold execWardMboxOutRead
  try dsimp only
  with_reducible repeat' first
    | assumption | intro _ | apply onDie_keeps | apply mboxOutTaken_keeps | apply answerRead_keeps

theorem partSram_keeps (hregs : F.regs) (hcore : F.core) (hslc : F.slc) (hhbm : F.hbm) (hque : F.que) (hprt : F.prt)
    (hxlt : F.xlt) (hhost : F.host) (hrecs : F.recs) (hout : F.out) (d kind index : Nat) (h : Keeps F s₀ s) :
    Keeps F s₀ (partSram d kind index s) := by
  unfold partSram
  try dsimp only
  repeat' first
    | with_reducible first
      | assumption | intro _ | apply State.count_keeps | apply faultWith_keeps | apply emit_keeps | apply keeps_ite
    | split

theorem xltParity_keeps (hregs : F.regs) (hxlt : F.xlt) (hrecs : F.recs) (d index : Nat) (h : Keeps F s₀ s) :
    Keeps F s₀ (xltParity d index s) := by
  unfold xltParity
  try dsimp only
  repeat' first
    | with_reducible first
      | assumption | exact ring_wf_id | exact Memory.wf_id | intro _ | apply correctable_keeps
      | apply State.count_keeps | ((fail_if_success (apply keeps_eta)); apply keeps_mk) | exact Or.inl (by assumption)
      | exact Or.inr rfl
    | split

theorem correctableFree_keeps (hrecs : F.recs) (d unit kind index : Nat) (h : Keeps F s₀ s) :
    Keeps F s₀ (correctableFree d unit kind index s) := by
  unfold correctableFree
  try dsimp only
  repeat' first
    | with_reducible first
      | assumption | intro _ | apply State.free_keeps | apply correctableAs_keeps | apply KeepsP.snd
    | split

theorem meshCreditError_keeps (hregs : F.regs) (hrecs : F.recs) (d r : Nat) (h : Keeps F s₀ s) :
    Keeps F s₀ (meshCreditError d r s) := by
  unfold meshCreditError
  try dsimp only
  with_reducible repeat' first
    | assumption | intro _ | apply each_keeps | apply State.wr_keeps | apply correctableFree_keeps | apply keeps_ite

theorem arrayError_keeps (hregs : F.regs) (hrack : F.rack) (hboot : F.boot) (himg : F.img) (hcore : F.core)
    (hslc : F.slc) (hhbm : F.hbm) (hnet : F.net) (hque : F.que) (hprt : F.prt) (hxlt : F.xlt) (hhost : F.host)
    (hrecs : F.recs) (hout : F.out) (d kind index : Nat) (h : Keeps F s₀ s) :
    Keeps F s₀ (arrayError d kind index s) := by
  unfold arrayError
  try dsimp only
  repeat' first
    | with_reducible first
      | assumption | exact ring_wf_id | exact Memory.wf_id | intro _ | apply partSram_keeps | apply monCfgError_keeps
      | apply meshCreditError_keeps | apply xltParity_keeps | apply correctable_keeps | apply correctableFree_keeps
      | ((fail_if_success (apply keeps_eta)); apply keeps_mk) | exact Or.inl (by assumption) | exact Or.inr rfl
      | apply keeps_ite
    | split

theorem execPartSram_keeps (hregs : F.regs) (hrack : F.rack) (hboot : F.boot) (himg : F.img) (hcore : F.core)
    (hslc : F.slc) (hhbm : F.hbm) (hnet : F.net) (hque : F.que) (hprt : F.prt) (hxlt : F.xlt) (hhost : F.host)
    (hrecs : F.recs) (hout : F.out) (d kind index : Nat) (h : Keeps F s₀ s) :
    KeepsX F s₀ (execPartSram d kind index s) := by
  unfold execPartSram
  try dsimp only
  with_reducible repeat' first
    | assumption | intro _ | apply onDie_keeps | apply arrayError_keeps

theorem irqRelease_keeps (hregs : F.regs) (hprt : F.prt) (hout : F.out) (d e : Nat) (unmasked : Bool)
    (h : Keeps F s₀ s) :
    Keeps F s₀ (irqRelease d e unmasked s) := by
  unfold irqRelease
  try dsimp only
  repeat' first
    | with_reducible first
      | assumption | exact ring_wf_id | exact Memory.wf_id | intro _ | apply sendMsi_keeps
      | ((fail_if_success (apply keeps_eta)); apply keeps_mk) | exact Or.inl (by assumption) | exact Or.inr rfl
      | apply keeps_ite
    | split

theorem irqMapAddrWrite_keeps (hregs : F.regs) (hprt : F.prt) (d e : Nat) (src : Source) (v : Word) (h : Keeps F s₀ s)
    :
    Keeps F s₀ (irqMapAddrWrite d e src v s) := by
  unfold irqMapAddrWrite
  try dsimp only
  with_reducible repeat' first
    | assumption | exact ring_wf_id | exact Memory.wf_id | intro _ | apply State.wr_keeps
    | ((fail_if_success (apply keeps_eta)); apply keeps_mk) | exact Or.inl (by assumption) | exact Or.inr rfl
    | apply keeps_ite

theorem execIrqMapAddrWrite_keeps (hregs : F.regs) (hprt : F.prt) (d e : Nat) (src : Source) (v : Word)
    (h : Keeps F s₀ s) :
    KeepsX F s₀ (execIrqMapAddrWrite d e src v s) := by
  unfold execIrqMapAddrWrite
  try dsimp only
  with_reducible repeat' first
    | assumption | intro _ | apply onDie_keeps | apply irqMapAddrWrite_keeps

theorem irqMapDataWrite_keeps (hregs : F.regs) (hprt : F.prt) (hout : F.out) (d e : Nat) (src : Source) (v : Word)
    (h : Keeps F s₀ s) :
    Keeps F s₀ (irqMapDataWrite d e src v s) := by
  unfold irqMapDataWrite
  try dsimp only
  with_reducible repeat' first
    | assumption | intro _ | apply State.wr_keeps | apply irqRelease_keeps | apply keeps_ite

theorem execIrqMapDataWrite_keeps (hregs : F.regs) (hprt : F.prt) (hout : F.out) (d e : Nat) (src : Source) (v : Word)
    (h : Keeps F s₀ s) :
    KeepsX F s₀ (execIrqMapDataWrite d e src v s) := by
  unfold execIrqMapDataWrite
  try dsimp only
  with_reducible repeat' first
    | assumption | intro _ | apply onDie_keeps | apply irqMapDataWrite_keeps

theorem irqMapHoldTimeout_keeps (hregs : F.regs) (hprt : F.prt) (hout : F.out) (d e : Nat) (h : Keeps F s₀ s) :
    Keeps F s₀ (irqMapHoldTimeout d e s) := by
  unfold irqMapHoldTimeout
  try dsimp only
  with_reducible repeat' first
    | assumption | intro _ | apply irqRelease_keeps | apply keeps_ite

theorem execIrqMapHoldTimeout_keeps (hregs : F.regs) (hprt : F.prt) (hout : F.out) (d e : Nat) (h : Keeps F s₀ s) :
    KeepsX F s₀ (execIrqMapHoldTimeout d e s) := by
  unfold execIrqMapHoldTimeout
  try dsimp only
  with_reducible repeat' first
    | assumption | intro _ | apply onDie_keeps | apply irqMapHoldTimeout_keeps

theorem irqUnmask_keeps (hregs : F.regs) (hprt : F.prt) (hout : F.out) (d e : Nat) (src : Source) (h : Keeps F s₀ s) :
    Keeps F s₀ (irqUnmask d e src s) := by
  unfold irqUnmask
  try dsimp only
  with_reducible repeat' first
    | assumption | intro _ | apply irqRelease_keeps | apply State.wr_keeps | apply keeps_ite

theorem execIrqUnmask_keeps (hregs : F.regs) (hprt : F.prt) (hout : F.out) (d e : Nat) (src : Source)
    (h : Keeps F s₀ s) :
    KeepsX F s₀ (execIrqUnmask d e src s) := by
  unfold execIrqUnmask
  try dsimp only
  with_reducible repeat' first
    | assumption | intro _ | apply onDie_keeps | apply irqUnmask_keeps

end Sys2Proof.Machine
end

