-- ==== Sys2Proof/Laws/KeepsMv.lean ====
section
/-! SUPPORT. `Keeps` for what a mover's access and a run of sectors come to. -/

namespace Sys2Proof.Machine

variable {F : Frame} {s₀ s : State}

structure KeepsM {α : Type} (F : Frame) (s : State) (x : MvRes α) : Prop where
  ofOk : ∀ {v u}, x = .ok v u → Keeps F s u
  ofFault : ∀ {a b u}, x = .fault a b u → Keeps F s u

theorem KeepsM.ok {α : Type} {v : α} (h : Keeps F s₀ s) : KeepsM F s₀ (.ok v s) := by
  constructor <;> intros <;> rename_i e <;> cases e; exact h
theorem KeepsM.fault {α : Type} {a b : Nat} (h : Keeps F s₀ s) : KeepsM (α := α) F s₀ (.fault a b s) := by
  constructor <;> intros <;> rename_i e <;> cases e; exact h
theorem KeepsM.stall {α : Type} : KeepsM (α := α) F s₀ .stall := by
  constructor <;> intros <;> rename_i e <;> cases e

structure KeepsMS {α : Type} (F : Frame) (s : State) (x : MvRes α × State) : Prop where
  fst : KeepsM F s x.1
  snd : Keeps F s x.2

theorem KeepsMS.mk' {α : Type} {a : MvRes α} (h : KeepsM F s₀ a) (k : Keeps F s₀ s) : KeepsMS F s₀ (a, s) := ⟨h, k⟩
theorem KeepsMS.eta {α : Type} {x : MvRes α × State} (h : KeepsMS F s₀ x) : KeepsMS F s₀ (x.1, x.2) := h
theorem KeepsMS.ofP {α : Type} {x : MvRes α × State} {a : MvRes α} {t : State} (h : KeepsMS F s₀ x) (e : x = (a, t)) :
    Keeps F s₀ t := by subst e; exact h.snd
theorem KeepsMS.of1 {α : Type} {x : MvRes α × State} {a : MvRes α} {t : State} (h : KeepsMS F s₀ x) (e : x = (a, t)) :
    KeepsM F s₀ a := by subst e; exact h.fst

theorem KeepsMS.ofOk {α : Type} {x : MvRes α × State} {v : α} {t u : State} (h : KeepsMS F s₀ x)
    (e : x = (.ok v t, u)) : Keeps F s₀ t := by subst e; exact h.fst.ofOk rfl
theorem KeepsMS.ofFault {α : Type} {x : MvRes α × State} {a b : Nat} {t u : State} (h : KeepsMS F s₀ x)
    (e : x = (.fault a b t, u)) : Keeps F s₀ t := by subst e; exact h.fst.ofFault rfl

structure KeepsR (F : Frame) (s : State) (x : Run) : Prop where
  s : Keeps F s x.s

theorem KeepsR.mk' {a b c d : Nat} (h : Keeps F s₀ s) : KeepsR F s₀ ⟨a, b, c, d, s⟩ := ⟨h⟩
theorem KeepsR.eta {x : Run} (h : KeepsR F s₀ x) : KeepsR F s₀ ⟨x.done, x.how, x.code, x.addr, x.s⟩ := h

end Sys2Proof.Machine
end

