-- ==== Sys2Proof/Laws/KeepsMovers.lean ====
section
/-! SUPPORT. What each effect of Machine/Movers.lean may change (see Laws/Keeps.lean). -/

namespace Sys2Proof.Machine

variable {F : Frame} {s₀ s : State}

theorem putMover_keeps (hque : F.que) (m : Mover) (h : Keeps F s₀ s) :
    Keeps F s₀ (putMover m s) := by
  unfold putMover
  try dsimp only
  with_reducible repeat' first
    | assumption | exact ring_wf_id | exact Memory.wf_id | intro _
    | ((fail_if_success (apply keeps_eta)); apply keeps_mk) | exact Or.inl (by assumption) | exact Or.inr rfl

theorem mvFault_keeps (hregs : F.regs) (hcore : F.core) (hslc : F.slc) (hhbm : F.hbm) (hnet : F.net) (hque : F.que)
    (hprt : F.prt) (hxlt : F.xlt) (hhost : F.host) (hrecs : F.recs) (hout : F.out) (m : Mover) (code addr : Nat)
    (h : Keeps F s₀ s) :
    Keeps F s₀ (mvFault m code addr s) := by
  unfold mvFault
  try dsimp only
  with_reducible repeat' first
    | assumption | intro _ | apply putMover_keeps | apply State.count_keeps | apply contextFault_keeps

theorem mvFinish_keeps (hregs : F.regs) (hslc : F.slc) (hhbm : F.hbm) (hque : F.que) (hxlt : F.xlt) (hhost : F.host)
    (hrecs : F.recs) (hout : F.out) (m : Mover) (status : Nat) (h : Keeps F s₀ s) :
    Keeps F s₀ (mvFinish m status s) := by
  unfold mvFinish
  try dsimp only
  with_reducible repeat' first
    | assumption | intro _ | apply dropMovers_keeps | apply completeItem_keeps

theorem mvHalt_keeps (hque : F.que) (hrecs : F.recs) (m : Mover) (h : Keeps F s₀ s) :
    Keeps F s₀ (mvHalt m s) := by
  unfold mvHalt
  try dsimp only
  with_reducible repeat' first
    | assumption | intro _ | apply putMover_keeps | apply emit_keeps

theorem mvDone_keeps (hregs : F.regs) (hcore : F.core) (hslc : F.slc) (hhbm : F.hbm) (hnet : F.net) (hque : F.que)
    (hprt : F.prt) (hxlt : F.xlt) (hhost : F.host) (hrecs : F.recs) (hout : F.out) (m : Mover) (pc : Nat)
    (h : Keeps F s₀ s) :
    Keeps F s₀ (mvDone m pc s) := by
  unfold mvDone
  try dsimp only
  with_reducible repeat' first
    | assumption | intro _ | apply mvFinish_keeps | apply mvHalt_keeps | apply mvFault_keeps | apply putMover_keeps
    | apply keeps_ite

theorem mvStall_keeps (hque : F.que) (m : Mover) (h : Keeps F s₀ s) :
    Keeps F s₀ (mvStall m s) := by
  unfold mvStall
  try dsimp only
  with_reducible repeat' first
    | assumption | intro _ | apply putMover_keeps

theorem mvRun_keeps (hregs : F.regs) (hcore : F.core) (hslc : F.slc) (hhbm : F.hbm) (hnet : F.net) (hque : F.que)
    (hprt : F.prt) (hxlt : F.xlt) (hhost : F.host) (hrecs : F.recs) (hout : F.out) (d m op : Nat)
    (f : Mover → Nat → State → State) (h_f : ∀ y0 y1 u_, Keeps F s₀ u_ → Keeps F s₀ (f y0 y1 u_)) (h : Keeps F s₀ s) :
    KeepsX F s₀ (mvRun d m op f s) := by
  unfold mvRun
  try dsimp only
  repeat' first
    | with_reducible first
      | assumption | intro _ | apply onDie_keeps | apply mvFault_keeps | apply mvStall_keeps | apply putMover_keeps
      | apply h_f | apply keeps_ite | exact KeepsOP.none | apply KeepsOP.some | apply keepsOP_ite | apply keepsO_map
      | apply keepsOP_map | apply keepsOP_mapP | apply keepsO_mapP | apply keepsO_mapA | apply keepsOP_mapA
      | apply keeps_getD | apply keepsP_getD | apply KeepsP.snd
      | ((fail_if_success (apply KeepsP.eta)); apply KeepsP.mk') | apply keepsP_ite | apply KeepsX.next
      | exact KeepsX.fault | exact KeepsX.refused | refine KeepsOP.of ?_ (by assumption)
      | refine KeepsOP.pair ?_ (by assumption)
    | split

theorem mvRead_keeps (hregs : F.regs) (hslc : F.slc) (hhbm : F.hbm) (hque : F.que) (hxlt : F.xlt) (hrecs : F.recs)
    (m : Mover) (va : Nat) (h : Keeps F s₀ s) :
    KeepsM F s₀ (mvRead m va s) := by
  unfold mvRead
  try dsimp only
  repeat' first
    | with_reducible first
      | assumption | intro _ | apply translate_keeps | apply accRead_keeps | apply noteSector_keeps | apply keeps_ite
      | exact KeepsOP.none | apply KeepsOP.some | apply keepsOP_ite | exact KeepsM.stall | apply KeepsM.ok
      | apply KeepsM.fault | refine KeepsOP.of ?_ (by assumption) | refine KeepsOP.pair ?_ (by assumption)
      | refine KeepsM.ofOk ?_ (by assumption) | refine KeepsM.ofFault ?_ (by assumption)
    | split

theorem mvWrite_keeps (hregs : F.regs) (hslc : F.slc) (hhbm : F.hbm) (hque : F.que) (hxlt : F.xlt) (hrecs : F.recs)
    (m : Mover) (va : Nat) (v : SectorData) (h : Keeps F s₀ s) :
    KeepsM F s₀ (mvWrite m va v s) := by
  unfold mvWrite
  try dsimp only
  repeat' first
    | with_reducible first
      | assumption | intro _ | apply translate_keeps | apply accWrite_keeps | apply noteSector_keeps
      | apply State.count_keeps | exact KeepsOP.none | apply KeepsOP.some | exact KeepsM.stall | apply KeepsM.ok
      | apply KeepsM.fault | refine KeepsOP.of ?_ (by assumption) | refine KeepsOP.pair ?_ (by assumption)
      | refine KeepsM.ofOk ?_ (by assumption) | refine KeepsM.ofFault ?_ (by assumption)
    | split

theorem readBeat_keeps (get : Nat → State → MvRes SectorData) (x2 x3 : Nat)
    (h_get : ∀ y0 u_, Keeps F s₀ u_ → KeepsM F s₀ (get y0 u_)) (h : Keeps F s₀ s) :
    KeepsM F s₀ (readBeat get x2 x3 s) := by
  induction x2 generalizing x3 s with
  | zero =>
    unfold readBeat
    try dsimp only
    repeat' first
      | with_reducible first
        | assumption | intro _ | apply h_get | exact KeepsM.stall | apply KeepsM.ok
      | split
  | succ n_ ih =>
    unfold readBeat
    try dsimp only
    repeat' first
      | with_reducible first
        | assumption | intro _ | apply h_get | apply ih | exact KeepsM.stall | apply KeepsM.ok | apply KeepsM.fault
        | refine KeepsM.ofOk ?_ (by assumption) | refine KeepsM.ofFault ?_ (by assumption)
      | split

theorem putSectors_keeps (hregs : F.regs) (hslc : F.slc) (hhbm : F.hbm) (hque : F.que) (hxlt : F.xlt) (hrecs : F.recs)
    (m : Mover) (dst : Nat) (x3 : List SectorData) (h : Keeps F s₀ s) :
    KeepsM F s₀ (putSectors m dst x3 s) := by
  induction x3 generalizing m dst s with
  | nil =>
    unfold putSectors
    try dsimp only
    repeat' first
      | with_reducible first
        | assumption | intro _ | apply mvWrite_keeps | exact KeepsM.stall | apply KeepsM.ok
      | split
  | cons x_ l_ ih =>
    unfold putSectors
    try dsimp only
    repeat' first
      | with_reducible first
        | assumption | intro _ | apply mvWrite_keeps | apply ih | exact KeepsM.stall | apply KeepsM.ok
        | apply KeepsM.fault | refine KeepsM.ofOk ?_ (by assumption) | refine KeepsM.ofFault ?_ (by assumption)
      | split

theorem mvRunBeats_keeps (hregs : F.regs) (hslc : F.slc) (hhbm : F.hbm) (hque : F.que) (hxlt : F.xlt) (hrecs : F.recs)
    (m : Mover) (get : Nat → State → MvRes SectorData) (line dst x5 x6 x7 : Nat)
    (h_get : ∀ y0 u_, Keeps F s₀ u_ → KeepsM F s₀ (get y0 u_)) (h : Keeps F s₀ s) :
    KeepsR F s₀ (mvRunBeats m get line dst x5 x6 x7 s) := by
  induction x5 generalizing m line dst x6 x7 s with
  | zero =>
    unfold mvRunBeats
    try dsimp only
    repeat' first
      | with_reducible first
        | assumption | intro _ | apply readBeat_keeps | apply putSectors_keeps | apply h_get | apply keeps_ite
        | exact KeepsM.stall | apply KeepsM.ok | apply KeepsM.fault
        | ((fail_if_success (apply KeepsR.eta)); apply KeepsR.mk')
      | split
  | succ n_ ih =>
    unfold mvRunBeats
    try dsimp only
    repeat' first
      | with_reducible first
        | assumption | intro _ | apply readBeat_keeps | apply putSectors_keeps | apply h_get | apply ih
        | apply keeps_ite | exact KeepsM.stall | apply KeepsM.ok | apply KeepsM.fault
        | ((fail_if_success (apply KeepsR.eta)); apply KeepsR.mk') | apply KeepsR.s
        | refine KeepsM.ofOk ?_ (by assumption) | refine KeepsM.ofFault ?_ (by assumption)
      | split

theorem mvWord_keeps (hregs : F.regs) (hslc : F.slc) (hhbm : F.hbm) (hque : F.que) (hxlt : F.xlt) (hrecs : F.recs)
    (m : Mover) (va : Nat) (h : Keeps F s₀ s) :
    KeepsM F s₀ (mvWord m va s) := by
  unfold mvWord
  try dsimp only
  repeat' first
    | with_reducible first
      | assumption | intro _ | apply mvRead_keeps | exact KeepsM.stall | apply KeepsM.ok | apply KeepsM.fault
      | refine KeepsM.ofOk ?_ (by assumption) | refine KeepsM.ofFault ?_ (by assumption)
    | split

theorem ptLook_keeps (hregs : F.regs) (hxlt : F.xlt) (d i : Nat) (h : Keeps F s₀ s) :
    KeepsP F s₀ (ptLook d i s) := by
  unfold ptLook
  try dsimp only
  repeat' first
    | with_reducible first
      | assumption | exact ring_wf_id | exact Memory.wf_id | intro _ | apply State.count_keeps
      | ((fail_if_success (apply keeps_eta)); apply keeps_mk) | exact Or.inl (by assumption) | exact Or.inr rfl
      | apply keeps_ite | exact KeepsOP.none | apply KeepsOP.some | apply keepsOP_ite | apply keepsO_map
      | apply keepsOP_map | apply keepsOP_mapP | apply keepsO_mapP | apply keepsO_mapA | apply keepsOP_mapA
      | apply keeps_getD | apply keepsP_getD | apply KeepsP.snd
      | ((fail_if_success (apply KeepsP.eta)); apply KeepsP.mk') | apply keepsP_ite
      | refine KeepsOP.of ?_ (by assumption) | refine KeepsOP.pair ?_ (by assumption)
      | refine KeepsP.of ?_ (by assumption)
    | split

theorem dropOut_keeps (hregs : F.regs) (hhost : F.host) (o : Outbound) (h : Keeps F s₀ s) :
    Keeps F s₀ (dropOut o s) := by
  unfold dropOut
  try dsimp only
  with_reducible repeat' first
    | assumption | exact ring_wf_id | exact Memory.wf_id | intro _ | apply settleAts_keeps
    | ((fail_if_success (apply keeps_eta)); apply keeps_mk) | exact Or.inl (by assumption) | exact Or.inr rfl

theorem sendOut_keeps (hhost : F.host) (m : Mover) (port pt addr len kind : Nat) (via : Option Nat) (write : Bool)
    (data : List SectorData) (h : Keeps F s₀ s) :
    Keeps F s₀ (sendOut m port pt addr len kind via write data s) := by
  unfold sendOut
  try dsimp only
  repeat' first
    | with_reducible first
      | assumption | exact ring_wf_id | exact Memory.wf_id | intro _
      | ((fail_if_success (apply keeps_eta)); apply keeps_mk) | exact Or.inl (by assumption) | exact Or.inr rfl
    | split

theorem ptAddr_keeps (hregs : F.regs) (hxlt : F.xlt) (hhost : F.host) (m : Mover) (i : Nat) (e : PtEntry) (off : Nat)
    (write : Bool) (h : Keeps F s₀ s) :
    KeepsP F s₀ (ptAddr m i e off write s) := by
  unfold ptAddr
  try dsimp only
  repeat' first
    | with_reducible first
      | assumption | exact ring_wf_id | exact Memory.wf_id | intro _ | apply State.count_keeps | apply tlbPut_keeps
      | apply sendOut_keeps | ((fail_if_success (apply keeps_eta)); apply keeps_mk) | exact Or.inl (by assumption)
      | exact Or.inr rfl | apply keeps_ite | apply KeepsP.snd
      | ((fail_if_success (apply KeepsP.eta)); apply KeepsP.mk') | apply keepsP_ite
      | refine KeepsP.of ?_ (by assumption)
    | split

theorem partnerRead_keeps (hregs : F.regs) (hxlt : F.xlt) (hhost : F.host) (m : Mover) (addr len : Nat)
    (h : Keeps F s₀ s) :
    KeepsMS F s₀ (partnerRead m addr len s) := by
  unfold partnerRead
  try dsimp only
  repeat' first
    | with_reducible first
      | assumption | intro _ | apply ptLook_keeps | apply ptAddr_keeps | apply sendOut_keeps | apply keeps_ite
      | apply KeepsP.snd | ((fail_if_success (apply KeepsP.eta)); apply KeepsP.mk') | apply keepsP_ite
      | exact KeepsM.stall | apply KeepsM.ok | apply KeepsM.fault
      | ((fail_if_success (apply KeepsMS.eta)); apply KeepsMS.mk') | refine KeepsP.of ?_ (by assumption)
      | refine KeepsMS.ofOk ?_ (by assumption) | refine KeepsMS.ofFault ?_ (by assumption)
      | refine KeepsMS.ofP ?_ (by assumption) | refine KeepsM.ofOk ?_ (by assumption)
      | refine KeepsM.ofFault ?_ (by assumption)
    | split

theorem partnerWrite_keeps (hregs : F.regs) (hxlt : F.xlt) (hhost : F.host) (m : Mover) (addr : Nat)
    (data : List SectorData) (h : Keeps F s₀ s) :
    KeepsMS F s₀ (partnerWrite m addr data s) := by
  unfold partnerWrite
  try dsimp only
  repeat' first
    | with_reducible first
      | assumption | intro _ | apply ptLook_keeps | apply ptAddr_keeps | apply sendOut_keeps | apply KeepsP.snd
      | ((fail_if_success (apply KeepsP.eta)); apply KeepsP.mk') | exact KeepsM.stall | apply KeepsM.ok
      | apply KeepsM.fault | ((fail_if_success (apply KeepsMS.eta)); apply KeepsMS.mk')
      | refine KeepsP.of ?_ (by assumption) | refine KeepsMS.ofOk ?_ (by assumption)
      | refine KeepsMS.ofFault ?_ (by assumption) | refine KeepsMS.ofP ?_ (by assumption)
      | refine KeepsM.ofOk ?_ (by assumption) | refine KeepsM.ofFault ?_ (by assumption)
    | split

theorem mvSpan_keeps (hregs : F.regs) (hslc : F.slc) (hhbm : F.hbm) (hque : F.que) (hxlt : F.xlt) (hrecs : F.recs)
    (m : Mover) (w : Nat) (h : Keeps F s₀ s) :
    KeepsM F s₀ (mvSpan m w s) := by
  unfold mvSpan
  try dsimp only
  repeat' first
    | with_reducible first
      | assumption | intro _ | apply mvWord_keeps | apply keeps_ite | exact KeepsM.stall | apply KeepsM.ok
      | apply KeepsM.fault | refine KeepsM.ofOk ?_ (by assumption) | refine KeepsM.ofFault ?_ (by assumption)
    | split

theorem chunkData_keeps (hregs : F.regs) (hslc : F.slc) (hhbm : F.hbm) (hque : F.que) (hxlt : F.xlt) (hhost : F.host)
    (hrecs : F.recs) (m : Mover) (w : Nat) (x : Span) (n : Nat) (h : Keeps F s₀ s) :
    KeepsMS F s₀ (chunkData m w x n s) := by
  unfold chunkData
  try dsimp only
  repeat' first
    | with_reducible first
      | assumption | intro _ | apply partnerRead_keeps | apply readBeat_keeps | apply mvRead_keeps | apply keeps_ite
      | exact KeepsM.stall | apply KeepsM.ok | apply KeepsM.fault
      | ((fail_if_success (apply KeepsMS.eta)); apply KeepsMS.mk') | refine KeepsMS.ofOk ?_ (by assumption)
      | refine KeepsMS.ofFault ?_ (by assumption) | refine KeepsMS.ofP ?_ (by assumption)
      | refine KeepsM.ofOk ?_ (by assumption) | refine KeepsM.ofFault ?_ (by assumption)
    | split

theorem partnerStep_keeps (hregs : F.regs) (hslc : F.slc) (hhbm : F.hbm) (hque : F.que) (hxlt : F.xlt)
    (hhost : F.host) (hrecs : F.recs) (m : Mover) (w : Nat) (x : Span) (h : Keeps F s₀ s) :
    KeepsR F s₀ (partnerStep m w x s) := by
  unfold partnerStep
  try dsimp only
  repeat' first
    | with_reducible first
      | assumption | intro _ | apply dropOut_keeps | apply State.count_keeps | apply chunkData_keeps
      | apply partnerWrite_keeps | apply putSectors_keeps | apply keeps_ite | exact KeepsM.stall | apply KeepsM.ok
      | apply KeepsM.fault | ((fail_if_success (apply KeepsMS.eta)); apply KeepsMS.mk')
      | ((fail_if_success (apply KeepsR.eta)); apply KeepsR.mk') | apply KeepsR.s
      | refine KeepsMS.ofOk ?_ (by assumption) | refine KeepsMS.ofFault ?_ (by assumption)
      | refine KeepsMS.ofP ?_ (by assumption) | refine KeepsM.ofOk ?_ (by assumption)
      | refine KeepsM.ofFault ?_ (by assumption)
    | split

theorem mvStep_keeps (hregs : F.regs) (hslc : F.slc) (hhbm : F.hbm) (hque : F.que) (hxlt : F.xlt) (hhost : F.host)
    (hrecs : F.recs) (m : Mover) (w : Nat) (x : Span) (h : Keeps F s₀ s) :
    KeepsR F s₀ (mvStep m w x s) := by
  unfold mvStep
  try dsimp only
  repeat' first
    | with_reducible first
      | assumption | intro _ | apply partnerStep_keeps | apply mvRead_keeps | apply mvRunBeats_keeps | apply keeps_ite
      | exact KeepsM.stall | apply KeepsM.ok | apply KeepsM.fault
      | ((fail_if_success (apply KeepsR.eta)); apply KeepsR.mk') | apply KeepsR.s
      | refine KeepsM.ofOk ?_ (by assumption) | refine KeepsM.ofFault ?_ (by assumption)
    | split

theorem mvLoop_keeps (hregs : F.regs) (hcore : F.core) (hslc : F.slc) (hhbm : F.hbm) (hnet : F.net) (hque : F.que)
    (hprt : F.prt) (hxlt : F.xlt) (hhost : F.host) (hrecs : F.recs) (hout : F.out) (w x2 : Nat) (x3 : Mover)
    (h : Keeps F s₀ s) :
    Keeps F s₀ (mvLoop w x2 x3 s) := by
  induction x2 generalizing w x3 s with
  | zero =>
    unfold mvLoop
    try dsimp only
    repeat' first
      | with_reducible first
        | assumption | intro _ | apply mvStall_keeps
      | split
  | succ n_ ih =>
    unfold mvLoop
    try dsimp only
    repeat' first
      | with_reducible first
        | assumption | intro _ | apply mvStall_keeps | apply mvDone_keeps | apply mvSpan_keeps | apply mvFault_keeps
        | apply mvStep_keeps | apply ih | apply keeps_ite | exact KeepsM.stall | apply KeepsM.ok | apply KeepsM.fault
        | ((fail_if_success (apply KeepsR.eta)); apply KeepsR.mk') | apply KeepsR.s
        | refine KeepsM.ofOk ?_ (by assumption) | refine KeepsM.ofFault ?_ (by assumption)
      | split

theorem mvData_keeps (hregs : F.regs) (hcore : F.core) (hslc : F.slc) (hhbm : F.hbm) (hnet : F.net) (hque : F.que)
    (hprt : F.prt) (hxlt : F.xlt) (hhost : F.host) (hrecs : F.recs) (hout : F.out) (m : Mover) (w : Nat)
    (h : Keeps F s₀ s) :
    Keeps F s₀ (mvData m w s) := by
  unfold mvData
  try dsimp only
  with_reducible repeat' first
    | assumption | intro _ | apply mvDone_keeps | apply mvFault_keeps | apply mvLoop_keeps | apply keeps_ite

theorem execMovCopy_keeps (hregs : F.regs) (hcore : F.core) (hslc : F.slc) (hhbm : F.hbm) (hnet : F.net)
    (hque : F.que) (hprt : F.prt) (hxlt : F.xlt) (hhost : F.host) (hrecs : F.recs) (hout : F.out) (d m : Nat)
    (h : Keeps F s₀ s) :
    KeepsX F s₀ (execMovCopy d m s) := by
  unfold execMovCopy
  try dsimp only
  with_reducible repeat' first
    | assumption | intro _ | apply mvRun_keeps | apply mvData_keeps

theorem execGather_keeps (hregs : F.regs) (hcore : F.core) (hslc : F.slc) (hhbm : F.hbm) (hnet : F.net) (hque : F.que)
    (hprt : F.prt) (hxlt : F.xlt) (hhost : F.host) (hrecs : F.recs) (hout : F.out) (d m : Nat) (h : Keeps F s₀ s) :
    KeepsX F s₀ (execGather d m s) := by
  unfold execGather
  try dsimp only
  with_reducible repeat' first
    | assumption | intro _ | apply mvRun_keeps | apply mvData_keeps

theorem execScatter_keeps (hregs : F.regs) (hcore : F.core) (hslc : F.slc) (hhbm : F.hbm) (hnet : F.net)
    (hque : F.que) (hprt : F.prt) (hxlt : F.xlt) (hhost : F.host) (hrecs : F.recs) (hout : F.out) (d m : Nat)
    (h : Keeps F s₀ s) :
    KeepsX F s₀ (execScatter d m s) := by
  unfold execScatter
  try dsimp only
  with_reducible repeat' first
    | assumption | intro _ | apply mvRun_keeps | apply mvData_keeps

theorem execMovFill_keeps (hregs : F.regs) (hcore : F.core) (hslc : F.slc) (hhbm : F.hbm) (hnet : F.net)
    (hque : F.que) (hprt : F.prt) (hxlt : F.xlt) (hhost : F.host) (hrecs : F.recs) (hout : F.out) (d m : Nat)
    (h : Keeps F s₀ s) :
    KeepsX F s₀ (execMovFill d m s) := by
  unfold execMovFill
  try dsimp only
  with_reducible repeat' first
    | assumption | intro _ | apply mvRun_keeps | apply mvData_keeps

theorem shAddr_keeps (hregs : F.regs) (hslc : F.slc) (hhbm : F.hbm) (hque : F.que) (hxlt : F.xlt) (hrecs : F.recs)
    (m : Mover) (dir b : Nat) (h : Keeps F s₀ s) :
    KeepsM F s₀ (shAddr m dir b s) := by
  unfold shAddr
  try dsimp only
  repeat' first
    | with_reducible first
      | assumption | intro _ | apply mvWord_keeps | exact KeepsM.stall | apply KeepsM.ok | apply KeepsM.fault
      | refine KeepsM.ofOk ?_ (by assumption) | refine KeepsM.ofFault ?_ (by assumption)
    | split

theorem shFault_keeps (hregs : F.regs) (hcore : F.core) (hslc : F.slc) (hhbm : F.hbm) (hnet : F.net) (hque : F.que)
    (hprt : F.prt) (hxlt : F.xlt) (hhost : F.host) (hrecs : F.recs) (hout : F.out) (m : Mover) (w code addr : Nat)
    (h : Keeps F s₀ s) :
    Keeps F s₀ (shFault m w code addr s) := by
  unfold shFault
  try dsimp only
  with_reducible repeat' first
    | assumption | intro _ | apply mvFault_keeps | apply updSeq_keeps | apply faultWith_keeps | apply keeps_ite

theorem shLoop_keeps (hregs : F.regs) (hcore : F.core) (hslc : F.slc) (hhbm : F.hbm) (hnet : F.net) (hque : F.que)
    (hprt : F.prt) (hxlt : F.xlt) (hhost : F.host) (hrecs : F.recs) (hout : F.out) (w x2 : Nat) (x3 : Mover)
    (h : Keeps F s₀ s) :
    Keeps F s₀ (shLoop w x2 x3 s) := by
  induction x2 generalizing w x3 s with
  | zero =>
    unfold shLoop
    try dsimp only
    repeat' first
      | with_reducible first
        | assumption | intro _ | apply mvStall_keeps
      | split
  | succ n_ ih =>
    unfold shLoop
    try dsimp only
    repeat' first
      | with_reducible first
        | assumption | intro _ | apply mvStall_keeps | apply mvFault_keeps | apply mvDone_keeps | apply shAddr_keeps
        | apply shFault_keeps | apply mvRunBeats_keeps | apply mvRead_keeps | apply ih | apply keeps_ite
        | exact KeepsM.stall | apply KeepsM.ok | apply KeepsM.fault
        | ((fail_if_success (apply KeepsR.eta)); apply KeepsR.mk') | apply KeepsR.s
        | refine KeepsM.ofOk ?_ (by assumption) | refine KeepsM.ofFault ?_ (by assumption)
      | split

theorem mvShift_keeps (hregs : F.regs) (hcore : F.core) (hslc : F.slc) (hhbm : F.hbm) (hnet : F.net) (hque : F.que)
    (hprt : F.prt) (hxlt : F.xlt) (hhost : F.host) (hrecs : F.recs) (hout : F.out) (m : Mover) (w : Nat)
    (h : Keeps F s₀ s) :
    Keeps F s₀ (mvShift m w s) := by
  unfold mvShift
  try dsimp only
  repeat' first
    | with_reducible first
      | assumption | intro _ | apply mvFault_keeps | apply mvDone_keeps | apply shLoop_keeps | apply keeps_ite
    | split

theorem execShift_keeps (hregs : F.regs) (hcore : F.core) (hslc : F.slc) (hhbm : F.hbm) (hnet : F.net) (hque : F.que)
    (hprt : F.prt) (hxlt : F.xlt) (hhost : F.host) (hrecs : F.recs) (hout : F.out) (d m : Nat) (h : Keeps F s₀ s) :
    KeepsX F s₀ (execShift d m s) := by
  unfold execShift
  try dsimp only
  with_reducible repeat' first
    | assumption | intro _ | apply mvRun_keeps | apply mvShift_keeps

theorem mvWait_keeps (hregs : F.regs) (hcore : F.core) (hslc : F.slc) (hhbm : F.hbm) (hnet : F.net) (hque : F.que)
    (hprt : F.prt) (hxlt : F.xlt) (hhost : F.host) (hrecs : F.recs) (hout : F.out) (m : Mover) (w : Nat)
    (h : Keeps F s₀ s) :
    Keeps F s₀ (mvWait m w s) := by
  unfold mvWait
  try dsimp only
  repeat' first
    | with_reducible first
      | assumption | intro _ | apply mvFault_keeps | apply mvWord_keeps | apply mvStall_keeps | apply mvDone_keeps
      | apply keeps_ite | exact KeepsM.stall | apply KeepsM.ok | apply KeepsM.fault
      | refine KeepsM.ofOk ?_ (by assumption) | refine KeepsM.ofFault ?_ (by assumption)
    | split

theorem execWait_keeps (hregs : F.regs) (hcore : F.core) (hslc : F.slc) (hhbm : F.hbm) (hnet : F.net) (hque : F.que)
    (hprt : F.prt) (hxlt : F.xlt) (hhost : F.host) (hrecs : F.recs) (hout : F.out) (d m : Nat) (h : Keeps F s₀ s) :
    KeepsX F s₀ (execWait d m s) := by
  unfold execWait
  try dsimp only
  repeat' first
    | with_reducible first
      | assumption | intro _ | apply mvRun_keeps | apply mvWait_keeps | apply keeps_ite
    | split

theorem execWaitPoll_keeps (hregs : F.regs) (hcore : F.core) (hslc : F.slc) (hhbm : F.hbm) (hnet : F.net)
    (hque : F.que) (hprt : F.prt) (hxlt : F.xlt) (hhost : F.host) (hrecs : F.recs) (hout : F.out) (d m : Nat)
    (h : Keeps F s₀ s) :
    KeepsX F s₀ (execWaitPoll d m s) := by
  unfold execWaitPoll
  try dsimp only
  repeat' first
    | with_reducible first
      | assumption | intro _ | apply mvRun_keeps | apply mvWait_keeps | apply putMover_keeps | apply keeps_ite
    | split

theorem execWaitTimeout_keeps (hregs : F.regs) (hcore : F.core) (hslc : F.slc) (hhbm : F.hbm) (hnet : F.net)
    (hque : F.que) (hprt : F.prt) (hxlt : F.xlt) (hhost : F.host) (hrecs : F.recs) (hout : F.out) (d m : Nat)
    (h : Keeps F s₀ s) :
    KeepsX F s₀ (execWaitTimeout d m s) := by
  unfold execWaitTimeout
  try dsimp only
  repeat' first
    | with_reducible first
      | assumption | intro _ | apply onDie_keeps | apply mvFault_keeps | apply keeps_ite | apply KeepsX.next
      | exact KeepsX.fault | exact KeepsX.refused
    | split

theorem mvSignal_keeps (hregs : F.regs) (hcore : F.core) (hslc : F.slc) (hhbm : F.hbm) (hnet : F.net) (hque : F.que)
    (hprt : F.prt) (hxlt : F.xlt) (hhost : F.host) (hrecs : F.recs) (hout : F.out) (m : Mover) (w : Nat)
    (h : Keeps F s₀ s) :
    Keeps F s₀ (mvSignal m w s) := by
  unfold mvSignal
  try dsimp only
  repeat' first
    | with_reducible first
      | assumption | intro _ | apply mvFault_keeps | apply translate_keeps | apply mvStall_keeps
      | apply accAtomic_keeps | apply mvDone_keeps | apply noteSector_keeps | apply State.count_keeps
      | apply keeps_ite | exact KeepsOP.none | apply KeepsOP.some | apply keepsOP_ite
      | refine KeepsOP.of ?_ (by assumption) | refine KeepsOP.pair ?_ (by assumption)
    | split

theorem execSignal_keeps (hregs : F.regs) (hcore : F.core) (hslc : F.slc) (hhbm : F.hbm) (hnet : F.net) (hque : F.que)
    (hprt : F.prt) (hxlt : F.xlt) (hhost : F.host) (hrecs : F.recs) (hout : F.out) (d m : Nat) (h : Keeps F s₀ s) :
    KeepsX F s₀ (execSignal d m s) := by
  unfold execSignal
  try dsimp only
  with_reducible repeat' first
    | assumption | intro _ | apply mvRun_keeps | apply mvSignal_keeps

theorem mvJump_keeps (hregs : F.regs) (hcore : F.core) (hslc : F.slc) (hhbm : F.hbm) (hnet : F.net) (hque : F.que)
    (hprt : F.prt) (hxlt : F.xlt) (hhost : F.host) (hrecs : F.recs) (hout : F.out) (m : Mover) (w : Nat)
    (h : Keeps F s₀ s) :
    Keeps F s₀ (mvJump m w s) := by
  unfold mvJump
  try dsimp only
  repeat' first
    | with_reducible first
      | assumption | intro _ | apply mvDone_keeps | apply mvFault_keeps | apply keeps_ite
    | split

theorem execJump_keeps (hregs : F.regs) (hcore : F.core) (hslc : F.slc) (hhbm : F.hbm) (hnet : F.net) (hque : F.que)
    (hprt : F.prt) (hxlt : F.xlt) (hhost : F.host) (hrecs : F.recs) (hout : F.out) (d m : Nat) (h : Keeps F s₀ s) :
    KeepsX F s₀ (execJump d m s) := by
  unfold execJump
  try dsimp only
  with_reducible repeat' first
    | assumption | intro _ | apply mvRun_keeps | apply mvJump_keeps

theorem execMovEnd_keeps (hregs : F.regs) (hcore : F.core) (hslc : F.slc) (hhbm : F.hbm) (hnet : F.net) (hque : F.que)
    (hprt : F.prt) (hxlt : F.xlt) (hhost : F.host) (hrecs : F.recs) (hout : F.out) (d m : Nat) (h : Keeps F s₀ s) :
    KeepsX F s₀ (execMovEnd d m s) := by
  unfold execMovEnd
  try dsimp only
  repeat' first
    | with_reducible first
      | assumption | intro _ | apply mvRun_keeps | apply mvFinish_keeps
    | split

theorem execMoverIllegalInstruction_keeps (hregs : F.regs) (hcore : F.core) (hslc : F.slc) (hhbm : F.hbm)
    (hnet : F.net) (hque : F.que) (hprt : F.prt) (hxlt : F.xlt) (hhost : F.host) (hrecs : F.recs) (hout : F.out)
    (d m : Nat) (h : Keeps F s₀ s) :
    KeepsX F s₀ (execMoverIllegalInstruction d m s) := by
  unfold execMoverIllegalInstruction
  try dsimp only
  repeat' first
    | with_reducible first
      | assumption | intro _ | apply onDie_keeps | apply mvFault_keeps | apply keeps_ite | apply KeepsX.next
      | exact KeepsX.fault | exact KeepsX.refused
    | split

theorem slotChanged_keeps (hregs : F.regs) (hque : F.que) (hrecs : F.recs) (d slot : Nat) (h : Keeps F s₀ s) :
    Keeps F s₀ (slotChanged d slot s) := by
  unfold slotChanged
  try dsimp only
  with_reducible repeat' first
    | assumption | intro _ | apply State.wr_keeps | apply each_keeps | apply mvHalt_keeps | apply putMover_keeps
    | apply keeps_ite

theorem movSealed_keeps (hrecs : F.recs) (d slot op : Nat) (h : Keeps F s₀ s) :
    Keeps F s₀ (movSealed d slot op s) := by
  unfold movSealed
  try dsimp only
  with_reducible repeat' first
    | assumption | intro _ | apply emit_keeps

theorem movProgWrite_keeps (hregs : F.regs) (hque : F.que) (hrecs : F.recs) (d w : Nat) (src : Source) (v : Word)
    (h : Keeps F s₀ s) :
    Keeps F s₀ (movProgWrite d w src v s) := by
  unfold movProgWrite
  try dsimp only
  with_reducible repeat' first
    | assumption | exact ring_wf_id | exact Memory.wf_id | intro _ | apply movSealed_keeps | apply slotChanged_keeps
    | apply State.wr_keeps | ((fail_if_success (apply keeps_eta)); apply keeps_mk) | exact Or.inl (by assumption)
    | exact Or.inr rfl | apply keeps_ite

theorem execMovProgWrite_keeps (hregs : F.regs) (hque : F.que) (hrecs : F.recs) (d w : Nat) (src : Source) (v : Word)
    (h : Keeps F s₀ s) :
    KeepsX F s₀ (execMovProgWrite d w src v s) := by
  unfold execMovProgWrite
  try dsimp only
  repeat' first
    | with_reducible first
      | assumption | intro _ | apply onDie_keeps | apply movProgWrite_keeps | apply keeps_ite
    | split

theorem movSlotWrite_keeps (hregs : F.regs) (hque : F.que) (hrecs : F.recs) (d slot : Nat) (src : Source) (v : Nat)
    (h : Keeps F s₀ s) :
    Keeps F s₀ (movSlotWrite d slot src v s) := by
  unfold movSlotWrite
  try dsimp only
  with_reducible repeat' first
    | assumption | intro _ | apply movSealed_keeps | apply State.wr_keeps | apply slotChanged_keeps | apply keeps_ite

theorem execMovSlotWrite_keeps (hregs : F.regs) (hque : F.que) (hrecs : F.recs) (d slot : Nat) (src : Source)
    (v : Word) (h : Keeps F s₀ s) :
    KeepsX F s₀ (execMovSlotWrite d slot src v s) := by
  unfold execMovSlotWrite
  try dsimp only
  repeat' first
    | with_reducible first
      | assumption | intro _ | apply onDie_keeps | apply movSlotWrite_keeps | apply keeps_ite
    | split

theorem movCommand_keeps (hregs : F.regs) (hslc : F.slc) (hhbm : F.hbm) (hque : F.que) (hxlt : F.xlt) (hhost : F.host)
    (hrecs : F.recs) (hout : F.out) (d m op pc : Nat) (src : Source) (h : Keeps F s₀ s) :
    Keeps F s₀ (movCommand d m op pc src s) := by
  unfold movCommand
  try dsimp only
  repeat' first
    | with_reducible first
      | assumption | intro _ | apply State.wr_keeps | apply State.count_keeps | apply movSealed_keeps
      | apply putMover_keeps | apply mvFinish_keeps | apply keeps_ite
    | split

theorem execRestart_keeps (hregs : F.regs) (hslc : F.slc) (hhbm : F.hbm) (hque : F.que) (hxlt : F.xlt)
    (hhost : F.host) (hrecs : F.recs) (hout : F.out) (d m pc : Nat) (src : Source) (h : Keeps F s₀ s) :
    KeepsX F s₀ (execRestart d m pc src s) := by
  unfold execRestart
  try dsimp only
  repeat' first
    | with_reducible first
      | assumption | intro _ | apply onDie_keeps | apply movCommand_keeps | apply keeps_ite
    | split

theorem execAbort_keeps (hregs : F.regs) (hslc : F.slc) (hhbm : F.hbm) (hque : F.que) (hxlt : F.xlt) (hhost : F.host)
    (hrecs : F.recs) (hout : F.out) (d m : Nat) (src : Source) (h : Keeps F s₀ s) :
    KeepsX F s₀ (execAbort d m src s) := by
  unfold execAbort
  try dsimp only
  repeat' first
    | with_reducible first
      | assumption | intro _ | apply onDie_keeps | apply movCommand_keeps | apply keeps_ite
    | split

theorem execMovHaltTimeout_keeps (hregs : F.regs) (hslc : F.slc) (hhbm : F.hbm) (hque : F.que) (hxlt : F.xlt)
    (hhost : F.host) (hrecs : F.recs) (hout : F.out) (d m : Nat) (h : Keeps F s₀ s) :
    KeepsX F s₀ (execMovHaltTimeout d m s) := by
  unfold execMovHaltTimeout
  try dsimp only
  repeat' first
    | with_reducible first
      | assumption | intro _ | apply onDie_keeps | apply mvFinish_keeps | apply keeps_ite | apply KeepsX.next
      | exact KeepsX.fault | exact KeepsX.refused
    | split

theorem atsDone_keeps (hregs : F.regs) (hcore : F.core) (hslc : F.slc) (hhbm : F.hbm) (hnet : F.net) (hque : F.que)
    (hprt : F.prt) (hxlt : F.xlt) (hhost : F.host) (hrecs : F.recs) (hout : F.out) (o : Outbound) (m : Mover)
    (data : List SectorData) (h : Keeps F s₀ s) :
    Keeps F s₀ (atsDone o m data s) := by
  unfold atsDone
  try dsimp only
  with_reducible repeat' first
    | assumption | intro _ | apply mvFault_keeps | apply tlbPut_keeps | apply keeps_ite

theorem partnerCompletion_keeps (hregs : F.regs) (hcore : F.core) (hslc : F.slc) (hhbm : F.hbm) (hnet : F.net)
    (hque : F.que) (hprt : F.prt) (hxlt : F.xlt) (hhost : F.host) (hrecs : F.recs) (hout : F.out)
    (port tag status : Nat) (data : List SectorData) (h : Keeps F s₀ s) :
    Keeps F s₀ (partnerCompletion port tag status data s) := by
  unfold partnerCompletion
  try dsimp only
  repeat' first
    | with_reducible first
      | assumption | exact ring_wf_id | exact Memory.wf_id | intro _ | apply State.count_keeps | apply dropOut_keeps
      | apply mvFault_keeps | apply atsDone_keeps | apply settleAts_keeps
      | ((fail_if_success (apply keeps_eta)); apply keeps_mk) | exact Or.inl (by assumption) | exact Or.inr rfl
      | apply keeps_ite
    | split

theorem execPartnerCompletion_keeps (hregs : F.regs) (hcore : F.core) (hslc : F.slc) (hhbm : F.hbm) (hnet : F.net)
    (hque : F.que) (hprt : F.prt) (hxlt : F.xlt) (hhost : F.host) (hrecs : F.recs) (hout : F.out)
    (port tag status : Nat) (data : List SectorData) (h : Keeps F s₀ s) :
    KeepsX F s₀ (execPartnerCompletion port tag status data s) := by
  unfold execPartnerCompletion
  try dsimp only
  with_reducible repeat' first
    | assumption | intro _ | apply partnerCompletion_keeps | apply KeepsX.next

theorem completionTimeout_keeps (hregs : F.regs) (hcore : F.core) (hslc : F.slc) (hhbm : F.hbm) (hnet : F.net)
    (hque : F.que) (hprt : F.prt) (hxlt : F.xlt) (hhost : F.host) (hrecs : F.recs) (hout : F.out) (port tag : Nat)
    (h : Keeps F s₀ s) :
    Keeps F s₀ (completionTimeout port tag s) := by
  unfold completionTimeout
  try dsimp only
  repeat' first
    | with_reducible first
      | assumption | intro _ | apply dropOut_keeps | apply State.count_keeps | apply mvFault_keeps | apply keeps_ite
    | split

theorem execCompletionTimeout_keeps (hregs : F.regs) (hcore : F.core) (hslc : F.slc) (hhbm : F.hbm) (hnet : F.net)
    (hque : F.que) (hprt : F.prt) (hxlt : F.xlt) (hhost : F.host) (hrecs : F.recs) (hout : F.out) (port tag : Nat)
    (h : Keeps F s₀ s) :
    KeepsX F s₀ (execCompletionTimeout port tag s) := by
  unfold execCompletionTimeout
  try dsimp only
  with_reducible repeat' first
    | assumption | intro _ | apply completionTimeout_keeps | apply KeepsX.next

end Sys2Proof.Machine
end

