-- ==== Sys2Proof/Laws/KeepsHostPort.lean ====
section
/-! SUPPORT. What each effect of Machine/HostPort.lean may change (see Laws/Keeps.lean). -/

namespace Sys2Proof.Machine

variable {F : Frame} {s₀ s : State}

theorem hostRsp_keeps (hout : F.out) (port status : Nat) (poison : Bool) (bytes : List Byte) (h : Keeps F s₀ s) :
    Keeps F s₀ (hostRsp port status poison bytes s) := by
  unfold hostRsp
  try dsimp only
  with_reducible repeat' first
    | assumption | exact ring_wf_id | exact Memory.wf_id | intro _
    | ((fail_if_success (apply keeps_eta)); apply keeps_mk) | exact Or.inl (by assumption) | exact Or.inr rfl

theorem abiReset_keeps (hregs : F.regs) (hhost : F.host) (port : Nat) (h : Keeps F s₀ s) :
    Keeps F s₀ (abiReset port s) := by
  unfold abiReset
  try dsimp only
  with_reducible repeat' first
    | assumption | exact ring_wf_id | exact Memory.wf_id | intro _ | apply State.wr_keeps
    | ((fail_if_success (apply keeps_eta)); apply keeps_mk) | exact Or.inl (by assumption) | exact Or.inr rfl

theorem cutRecord_keeps (hregs : F.regs) (hrecs : F.recs) (b : Burst) (cause : Nat) (h : Keeps F s₀ s) :
    Keeps F s₀ (cutRecord b cause s) := by
  unfold cutRecord
  try dsimp only
  repeat' first
    | with_reducible first
      | assumption | intro _ | apply emit_keeps | apply State.count_keeps
    | split

theorem cutBursts_keeps (hregs : F.regs) (hhost : F.host) (hrecs : F.recs) (f : Burst → Bool) (cause : Nat)
    (h : Keeps F s₀ s) :
    Keeps F s₀ (cutBursts f cause s) := by
  unfold cutBursts
  try dsimp only
  with_reducible repeat' first
    | assumption | exact ring_wf_id | exact Memory.wf_id | intro _ | apply each_keeps | apply cutRecord_keeps
    | ((fail_if_success (apply keeps_eta)); apply keeps_mk) | exact Or.inl (by assumption) | exact Or.inr rfl

theorem dropWrites_keeps (hregs : F.regs) (hcore : F.core) (hslc : F.slc) (hhbm : F.hbm) (hnet : F.net) (hque : F.que)
    (hprt : F.prt) (hxlt : F.xlt) (hhost : F.host) (hrecs : F.recs) (hout : F.out) (port : Nat) (h : Keeps F s₀ s) :
    Keeps F s₀ (dropWrites port s) := by
  unfold dropWrites
  try dsimp only
  repeat' first
    | with_reducible first
      | assumption | intro _ | apply each_keeps | apply mvFault_keeps | apply dropOut_keeps
    | split

theorem clearFunctions_keeps (hhost : F.host) (port : Nat) (h : Keeps F s₀ s) :
    Keeps F s₀ (clearFunctions port s) := by
  unfold clearFunctions
  try dsimp only
  with_reducible repeat' first
    | assumption | exact ring_wf_id | exact Memory.wf_id | intro _
    | ((fail_if_success (apply keeps_eta)); apply keeps_mk) | exact Or.inl (by assumption) | exact Or.inr rfl

theorem statusDown_keeps (hregs : F.regs) (port : Nat) (h : Keeps F s₀ s) :
    Keeps F s₀ (statusDown port s) := by
  unfold statusDown
  try dsimp only
  with_reducible repeat' first
    | assumption | intro _ | apply State.wr_keeps

theorem portDown_keeps (hregs : F.regs) (hcore : F.core) (hslc : F.slc) (hhbm : F.hbm) (hnet : F.net) (hque : F.que)
    (hprt : F.prt) (hxlt : F.xlt) (hhost : F.host) (hrecs : F.recs) (hout : F.out) (port : Nat) (h : Keeps F s₀ s) :
    Keeps F s₀ (portDown port s) := by
  unfold portDown
  try dsimp only
  with_reducible repeat' first
    | assumption | intro _ | apply statusDown_keeps | apply clearFunctions_keeps | apply abiReset_keeps
    | apply dropWrites_keeps | apply cutBursts_keeps | apply keeps_ite

theorem hotReset_keeps (hregs : F.regs) (hhost : F.host) (hrecs : F.recs) (port : Nat) (h : Keeps F s₀ s) :
    Keeps F s₀ (hotReset port s) := by
  unfold hotReset
  try dsimp only
  with_reducible repeat' first
    | assumption | intro _ | apply clearFunctions_keeps | apply abiReset_keeps | apply cutBursts_keeps
    | apply State.wr_keeps | apply keeps_ite

theorem hostLinkDown_keeps (hregs : F.regs) (hcore : F.core) (hslc : F.slc) (hhbm : F.hbm) (hnet : F.net)
    (hque : F.que) (hprt : F.prt) (hxlt : F.xlt) (hhost : F.host) (hrecs : F.recs) (hout : F.out) (port cause : Nat)
    (h : Keeps F s₀ s) :
    Keeps F s₀ (hostLinkDown port cause s) := by
  unfold hostLinkDown
  try dsimp only
  with_reducible repeat' first
    | assumption | intro _ | apply hotReset_keeps | apply portDown_keeps | apply keeps_ite

theorem execHostLinkDown_keeps (hregs : F.regs) (hcore : F.core) (hslc : F.slc) (hhbm : F.hbm) (hnet : F.net)
    (hque : F.que) (hprt : F.prt) (hxlt : F.xlt) (hhost : F.host) (hrecs : F.recs) (hout : F.out) (port cause : Nat)
    (h : Keeps F s₀ s) :
    KeepsX F s₀ (execHostLinkDown port cause s) := by
  unfold execHostLinkDown
  try dsimp only
  with_reducible repeat' first
    | assumption | intro _ | apply onDie_keeps | apply hostLinkDown_keeps

theorem ptStore_keeps (hxlt : F.xlt) (hhost : F.host) (i : Nat) (e : PtEntry) (h : Keeps F s₀ s) :
    Keeps F s₀ (ptStore i e s) := by
  unfold ptStore
  try dsimp only
  with_reducible repeat' first
    | assumption | exact ring_wf_id | exact Memory.wf_id | intro _ | apply each_keeps
    | ((fail_if_success (apply keeps_eta)); apply keeps_mk) | exact Or.inl (by assumption) | exact Or.inr rfl

theorem ptRetireWhere_keeps (hxlt : F.xlt) (hhost : F.host) (f : PtEntry → Bool) (h : Keeps F s₀ s) :
    KeepsP F s₀ (ptRetireWhere f s) := by
  unfold ptRetireWhere
  try dsimp only
  with_reducible repeat' first
    | assumption | intro _ | apply each_keeps | apply ptStore_keeps | apply KeepsP.snd
    | ((fail_if_success (apply KeepsP.eta)); apply KeepsP.mk')

theorem ptResult_keeps (hregs : F.regs) (d i result : Nat) (h : Keeps F s₀ s) :
    Keeps F s₀ (ptResult d i result s) := by
  unfold ptResult
  try dsimp only
  with_reducible repeat' first
    | assumption | intro _ | apply State.wr_keeps

theorem ptAwait_keeps (hhost : F.host) (d i : Nat) (h : Keeps F s₀ s) :
    Keeps F s₀ (ptAwait d i s) := by
  unfold ptAwait
  try dsimp only
  with_reducible repeat' first
    | assumption | exact ring_wf_id | exact Memory.wf_id | intro _
    | ((fail_if_success (apply keeps_eta)); apply keeps_mk) | exact Or.inl (by assumption) | exact Or.inr rfl

theorem ptChange_keeps (hregs : F.regs) (hxlt : F.xlt) (hhost : F.host) (hrecs : F.recs) (d i : Nat) (e : PtEntry)
    (src : Source) (h : Keeps F s₀ s) :
    Keeps F s₀ (ptChange d i e src s) := by
  unfold ptChange
  try dsimp only
  with_reducible repeat' first
    | assumption | intro _ | apply ptResult_keeps | apply wardDenied_keeps | apply ptAwait_keeps | apply ptStore_keeps
    | apply keeps_ite

theorem ptWrite_keeps (hregs : F.regs) (hxlt : F.xlt) (hhost : F.host) (hrecs : F.recs) (d i : Nat) (src : Source)
    (h : Keeps F s₀ s) :
    Keeps F s₀ (ptWrite d i src s) := by
  unfold ptWrite
  try dsimp only
  with_reducible repeat' first
    | assumption | intro _ | apply ptChange_keeps | apply keeps_ite

theorem execPtWrite_keeps (hregs : F.regs) (hxlt : F.xlt) (hhost : F.host) (hrecs : F.recs) (d index : Nat)
    (src : Source) (h : Keeps F s₀ s) :
    KeepsX F s₀ (execPtWrite d index src s) := by
  unfold execPtWrite
  try dsimp only
  with_reducible repeat' first
    | assumption | intro _ | apply onDie_keeps | apply ptWrite_keeps

theorem ptRead_keeps (hregs : F.regs) (d i : Nat) (h : Keeps F s₀ s) :
    Keeps F s₀ (ptRead d i s) := by
  unfold ptRead
  try dsimp only
  with_reducible repeat' first
    | assumption | intro _ | apply each_keeps | apply State.wr_keeps | apply ptResult_keeps | apply keeps_ite

theorem execPtRead_keeps (hregs : F.regs) (d index : Nat) (_src : Source) (h : Keeps F s₀ s) :
    KeepsX F s₀ (execPtRead d index _src s) := by
  unfold execPtRead
  try dsimp only
  with_reducible repeat' first
    | assumption | intro _ | apply onDie_keeps | apply ptRead_keeps

theorem ptRetire_keeps (hregs : F.regs) (hxlt : F.xlt) (hhost : F.host) (hrecs : F.recs) (d i : Nat) (src : Source)
    (h : Keeps F s₀ s) :
    Keeps F s₀ (ptRetire d i src s) := by
  unfold ptRetire
  try dsimp only
  with_reducible repeat' first
    | assumption | intro _ | apply ptChange_keeps | apply keeps_ite

theorem execPtRetire_keeps (hregs : F.regs) (hxlt : F.xlt) (hhost : F.host) (hrecs : F.recs) (d index : Nat)
    (src : Source) (h : Keeps F s₀ s) :
    KeepsX F s₀ (execPtRetire d index src s) := by
  unfold execPtRetire
  try dsimp only
  with_reducible repeat' first
    | assumption | intro _ | apply onDie_keeps | apply ptRetire_keeps

theorem ptFetch_keeps (hhost : F.host) (d : Nat) (h : Keeps F s₀ s) :
    Keeps F s₀ (ptFetch d s) := by
  unfold ptFetch
  try dsimp only
  repeat' first
    | with_reducible first
      | assumption | exact ring_wf_id | exact Memory.wf_id | intro _
      | ((fail_if_success (apply keeps_eta)); apply keeps_mk) | exact Or.inl (by assumption) | exact Or.inr rfl
    | split

theorem linkUp_keeps (hregs : F.regs) (hxlt : F.xlt) (hhost : F.host) (port speed width : Nat) (flit : Bool)
    (capacity : Nat) (h : Keeps F s₀ s) :
    Keeps F s₀ (linkUp port speed width flit capacity s) := by
  unfold linkUp
  try dsimp only
  with_reducible repeat' first
    | assumption | intro _ | apply State.wr_keeps | apply ptStore_keeps | apply keeps_ite

theorem execLinkUp_keeps (hregs : F.regs) (hxlt : F.xlt) (hhost : F.host) (port speed width : Nat) (flit : Bool)
    (capacity : Nat) (h : Keeps F s₀ s) :
    KeepsX F s₀ (execLinkUp port speed width flit capacity s) := by
  unfold execLinkUp
  try dsimp only
  with_reducible repeat' first
    | assumption | intro _ | apply onDie_keeps | apply linkUp_keeps

theorem fnReset_keeps (hregs : F.regs) (port f : Nat) (h : Keeps F s₀ s) :
    Keeps F s₀ (fnReset port f s) := by
  unfold fnReset
  try dsimp only
  with_reducible repeat' first
    | assumption | intro _ | apply State.wr_keeps

theorem flr_keeps (hregs : F.regs) (hcore : F.core) (hslc : F.slc) (hhbm : F.hbm) (hnet : F.net) (hque : F.que)
    (hprt : F.prt) (hxlt : F.xlt) (hhost : F.host) (hrecs : F.recs) (hout : F.out) (port f : Nat) (h : Keeps F s₀ s) :
    Keeps F s₀ (flr port f s) := by
  unfold flr
  try dsimp only
  repeat' first
    | with_reducible first
      | assumption | exact ring_wf_id | exact Memory.wf_id | intro _ | apply cutBursts_keeps | apply fnReset_keeps
      | apply State.wr_keeps | apply abiReset_keeps | apply instReset_keeps
      | ((fail_if_success (apply keeps_eta)); apply keeps_mk) | exact Or.inl (by assumption) | exact Or.inr rfl
      | apply keeps_ite
    | split

theorem execFlr_keeps (hregs : F.regs) (hcore : F.core) (hslc : F.slc) (hhbm : F.hbm) (hnet : F.net) (hque : F.que)
    (hprt : F.prt) (hxlt : F.xlt) (hhost : F.host) (hrecs : F.recs) (hout : F.out) (port f : Nat) (h : Keeps F s₀ s) :
    KeepsX F s₀ (execFlr port f s) := by
  unfold execFlr
  try dsimp only
  with_reducible repeat' first
    | assumption | intro _ | apply onDie_keeps | apply flr_keeps

theorem inRead_keeps (hregs : F.regs) (hslc : F.slc) (hhbm : F.hbm) (hxlt : F.xlt) (hrecs : F.recs)
    (from_ pa part : Nat) (h : Keeps F s₀ s) :
    KeepsP F s₀ (inRead from_ pa part s) := by
  unfold inRead
  try dsimp only
  repeat' first
    | with_reducible first
      | assumption | intro _ | apply crossPart_keeps | apply accRead_keeps | apply keeps_ite | exact KeepsOP.none
      | apply KeepsOP.some | apply keepsOP_ite | apply KeepsP.snd
      | ((fail_if_success (apply KeepsP.eta)); apply KeepsP.mk') | apply keepsP_ite
      | refine KeepsOP.of ?_ (by assumption) | refine KeepsOP.pair ?_ (by assumption)
      | refine KeepsP.of ?_ (by assumption)
    | split

theorem inWrite_keeps (hregs : F.regs) (hslc : F.slc) (hhbm : F.hbm) (hxlt : F.xlt) (hrecs : F.recs)
    (from_ pa part : Nat) (mask : BitVec 32) (v : SectorData) (ep : Bool) (h : Keeps F s₀ s) :
    KeepsP F s₀ (inWrite from_ pa part mask v ep s) := by
  unfold inWrite
  try dsimp only
  repeat' first
    | with_reducible first
      | assumption | intro _ | apply sealedAccess_keeps | apply crossPart_keeps | apply poisonSector_keeps
      | apply accWrite_keeps | apply waitAccess_keeps | apply keeps_ite | exact KeepsOP.none | apply KeepsOP.some
      | apply keepsOP_ite | apply KeepsP.snd | ((fail_if_success (apply KeepsP.eta)); apply KeepsP.mk')
      | apply keepsP_ite | refine KeepsOP.of ?_ (by assumption) | refine KeepsOP.pair ?_ (by assumption)
      | refine KeepsP.of ?_ (by assumption)
    | split

theorem inBytes_keeps (read : Nat → State → InRes × State) (x2 x3 x4 : Nat)
    (h_read : ∀ y0 u_, Keeps F s₀ u_ → KeepsP F s₀ (read y0 u_)) (h : Keeps F s₀ s) :
    KeepsP F s₀ (inBytes read x2 x3 x4 s) := by
  induction x2 generalizing x3 x4 s with
  | zero =>
    unfold inBytes
    try dsimp only
    repeat' first
      | with_reducible first
        | assumption | intro _ | apply h_read | apply keeps_ite | apply KeepsP.snd
        | ((fail_if_success (apply KeepsP.eta)); apply KeepsP.mk')
      | split
  | succ n_ ih =>
    unfold inBytes
    try dsimp only
    repeat' first
      | with_reducible first
        | assumption | intro _ | apply h_read | apply ih | apply keeps_ite | apply KeepsP.snd
        | ((fail_if_success (apply KeepsP.eta)); apply KeepsP.mk') | apply keepsP_ite
        | refine KeepsP.of ?_ (by assumption)
      | split

theorem inPut_keeps (write : Nat → BitVec 32 → SectorData → State → InRes × State) (x2 x3 : Nat) (x4 : List Byte)
    (h_write : ∀ y0 y1 y2 u_, Keeps F s₀ u_ → KeepsP F s₀ (write y0 y1 y2 u_)) (h : Keeps F s₀ s) :
    KeepsP F s₀ (inPut write x2 x3 x4 s) := by
  induction x2 generalizing x3 x4 s with
  | zero =>
    unfold inPut
    try dsimp only
    repeat' first
      | with_reducible first
        | assumption | intro _ | apply h_write | apply keeps_ite | apply KeepsP.snd
        | ((fail_if_success (apply KeepsP.eta)); apply KeepsP.mk')
      | split
  | succ n_ ih =>
    unfold inPut
    try dsimp only
    repeat' first
      | with_reducible first
        | assumption | intro _ | apply h_write | apply ih | apply keeps_ite | apply KeepsP.snd
        | ((fail_if_success (apply KeepsP.eta)); apply KeepsP.mk') | apply keepsP_ite
      | split

theorem bridgeRsp_keeps (hout : F.out) (bport status : Nat) (poison : Bool) (bytes : List Byte) (h : Keeps F s₀ s) :
    Keeps F s₀ (bridgeRsp bport status poison bytes s) := by
  unfold bridgeRsp
  try dsimp only
  with_reducible repeat' first
    | assumption | exact ring_wf_id | exact Memory.wf_id | intro _
    | ((fail_if_success (apply keeps_eta)); apply keeps_mk) | exact Or.inl (by assumption) | exact Or.inr rfl

theorem bridgeRequest_keeps (hregs : F.regs) (hslc : F.slc) (hhbm : F.hbm) (hxlt : F.xlt) (hrecs : F.recs)
    (hout : F.out) (plane bport rack dest index off len : Nat) (write : Option (List SectorData)) (h : Keeps F s₀ s) :
    Keeps F s₀ (bridgeRequest plane bport rack dest index off len write s) := by
  unfold bridgeRequest
  try dsimp only
  repeat' first
    | with_reducible first
      | assumption | intro _ | apply bridgeRsp_keeps | apply inPut_keeps | apply inWrite_keeps | apply inBytes_keeps
      | apply inRead_keeps | apply keeps_ite | apply KeepsP.snd
      | ((fail_if_success (apply KeepsP.eta)); apply KeepsP.mk') | apply keepsP_ite
      | refine KeepsP.of ?_ (by assumption)
    | split

theorem execBridgeRequest_keeps (hregs : F.regs) (hslc : F.slc) (hhbm : F.hbm) (hxlt : F.xlt) (hrecs : F.recs)
    (hout : F.out) (plane bport : Nat) (racks : BridgeRacks) (index off len : Nat) (write : Option (List SectorData))
    (h : Keeps F s₀ s) :
    KeepsX F s₀ (execBridgeRequest plane bport racks index off len write s) := by
  unfold execBridgeRequest
  try dsimp only
  with_reducible repeat' first
    | assumption | intro _ | apply bridgeRequest_keeps | apply KeepsX.next

theorem atsInvalidation_keeps (hregs : F.regs) (hxlt : F.xlt) (hhost : F.host) (port addr len : Nat)
    (h : Keeps F s₀ s) :
    Keeps F s₀ (atsInvalidation port addr len s) := by
  unfold atsInvalidation
  try dsimp only
  repeat' first
    | with_reducible first
      | assumption | exact ring_wf_id | exact Memory.wf_id | intro _ | apply settleAts_keeps | apply foldl_keeps
      | apply keepsP_foldl | apply keepsQ_foldl | ((fail_if_success (apply keeps_eta)); apply keeps_mk)
      | exact Or.inl (by assumption) | exact Or.inr rfl | apply keeps_ite
    | split

theorem execAtsInvalidation_keeps (hregs : F.regs) (hxlt : F.xlt) (hhost : F.host) (port addr len : Nat)
    (h : Keeps F s₀ s) :
    KeepsX F s₀ (execAtsInvalidation port addr len s) := by
  unfold execAtsInvalidation
  try dsimp only
  with_reducible repeat' first
    | assumption | intro _ | apply onDie_keeps | apply atsInvalidation_keeps

theorem hostPortError_keeps (hregs : F.regs) (hcore : F.core) (hslc : F.slc) (hhbm : F.hbm) (hnet : F.net)
    (hque : F.que) (hprt : F.prt) (hxlt : F.xlt) (hhost : F.host) (hrecs : F.recs) (hout : F.out)
    (port kind status : Nat) (header : BitVec 128) (h : Keeps F s₀ s) :
    Keeps F s₀ (hostPortError port kind status header s) := by
  unfold hostPortError
  try dsimp only
  repeat' first
    | with_reducible first
      | assumption | exact ring_wf_id | exact Memory.wf_id | intro _ | apply State.count_keeps
      | apply State.free_keeps | apply emit_keeps | apply portDown_keeps | apply each_keeps | apply partFault_keeps
      | ((fail_if_success (apply keeps_eta)); apply keeps_mk) | exact Or.inl (by assumption) | exact Or.inr rfl
      | apply keeps_ite | apply KeepsP.snd | ((fail_if_success (apply KeepsP.eta)); apply KeepsP.mk')
      | apply keepsP_ite | refine KeepsP.of ?_ (by assumption)
    | split

theorem execHostPortError_keeps (hregs : F.regs) (hcore : F.core) (hslc : F.slc) (hhbm : F.hbm) (hnet : F.net)
    (hque : F.que) (hprt : F.prt) (hxlt : F.xlt) (hhost : F.host) (hrecs : F.recs) (hout : F.out)
    (port kind status : Nat) (header : BitVec 128) (h : Keeps F s₀ s) :
    KeepsX F s₀ (execHostPortError port kind status header s) := by
  unfold execHostPortError
  try dsimp only
  with_reducible repeat' first
    | assumption | intro _ | apply onDie_keeps | apply hostPortError_keeps

theorem configurationRequest_keeps (hhost : F.host) (hout : F.out) (port f reg : Nat) (write : Option (BitVec 32))
    (h : Keeps F s₀ s) :
    Keeps F s₀ (configurationRequest port f reg write s) := by
  unfold configurationRequest
  try dsimp only
  repeat' first
    | with_reducible first
      | assumption | exact ring_wf_id | exact Memory.wf_id | intro _ | apply hostRsp_keeps | apply State.free_keeps
      | ((fail_if_success (apply keeps_eta)); apply keeps_mk) | exact Or.inl (by assumption) | exact Or.inr rfl
      | apply keeps_ite | apply KeepsP.snd | ((fail_if_success (apply KeepsP.eta)); apply KeepsP.mk')
      | apply keepsP_ite | refine KeepsP.of ?_ (by assumption)
    | split

theorem execConfigurationRequest_keeps (hhost : F.host) (hout : F.out) (port f reg : Nat) (write : Option (BitVec 32))
    (h : Keeps F s₀ s) :
    KeepsX F s₀ (execConfigurationRequest port f reg write s) := by
  unfold execConfigurationRequest
  try dsimp only
  with_reducible repeat' first
    | assumption | intro _ | apply onDie_keeps | apply configurationRequest_keeps

end Sys2Proof.Machine
end

