-- ==== Sys2Proof/Laws/KeepsLoads.lean ====
section
/-! SUPPORT. What each effect of Machine/Loads.lean may change (see Laws/Keeps.lean). -/

namespace Sys2Proof.Machine

variable {F : Frame} {s₀ s : State}

theorem resumePart_keeps (hregs : F.regs) (p : Nat) (h : Keeps F s₀ s) :
    Keeps F s₀ (resumePart p s) := by
  unfold resumePart
  try dsimp only
  with_reducible repeat' first
    | assumption | intro _ | apply each_keeps | apply State.wr_keeps | apply keeps_ite

theorem imgStatus_keeps (hregs : F.regs) (phase busy : Nat) (partial_ : Bool) (target a : Nat) (h : Keeps F s₀ s) :
    Keeps F s₀ (imgStatus phase busy partial_ target a s) := by
  unfold imgStatus
  try dsimp only
  with_reducible repeat' first
    | assumption | intro _ | apply State.wr_keeps

theorem imgResult_keeps (hregs : F.regs) (code detail a : Nat) (h : Keeps F s₀ s) :
    Keeps F s₀ (imgResult code detail a s) := by
  unfold imgResult
  try dsimp only
  with_reducible repeat' first
    | assumption | intro _ | apply State.wr_keeps | apply imgStatus_keeps | apply State.count_keeps | apply keeps_ite

theorem rejectRecord_keeps (hrecs : F.recs) (code phase detail serial : Nat) (sealed_ : Bool) (h : Keeps F s₀ s) :
    Keeps F s₀ (rejectRecord code phase detail serial sealed_ s) := by
  unfold rejectRecord
  try dsimp only
  with_reducible repeat' first
    | assumption | intro _ | apply rackEmit_keeps

theorem rejectLoad_keeps (hregs : F.regs) (himg : F.img) (hrecs : F.recs) (code detail : Nat) (h : Keeps F s₀ s) :
    Keeps F s₀ (rejectLoad code detail s) := by
  unfold rejectLoad
  try dsimp only
  repeat' first
    | with_reducible first
      | assumption | exact ring_wf_id | exact Memory.wf_id | intro _ | apply each_keeps | apply resumePart_keeps
      | apply rejectRecord_keeps | apply imgResult_keeps | ((fail_if_success (apply keeps_eta)); apply keeps_mk)
      | exact Or.inl (by assumption) | exact Or.inr rfl
    | split

theorem loadLosesDie_keeps (hregs : F.regs) (himg : F.img) (hrecs : F.recs) (d : Nat) (h : Keeps F s₀ s) :
    Keeps F s₀ (loadLosesDie d s) := by
  unfold loadLosesDie
  try dsimp only
  repeat' first
    | with_reducible first
      | assumption | exact ring_wf_id | exact Memory.wf_id | intro _ | apply rejectLoad_keeps
      | ((fail_if_success (apply keeps_eta)); apply keeps_mk) | exact Or.inl (by assumption) | exact Or.inr rfl
      | apply keeps_ite
    | split

end Sys2Proof.Machine
end

