-- ==== Sys2Proof/Laws/KeepsRollCall.lean ====
section
/-! SUPPORT. What each effect of Machine/RollCall.lean may change (see Laws/Keeps.lean). -/

namespace Sys2Proof.Machine

variable {F : Frame} {s₀ s : State}

theorem agentEmit_keeps (hrecs : F.recs) (a typ cls : Nat) (sealed_ : Bool) (payload : List PF) (h : Keeps F s₀ s) :
    Keeps F s₀ (agentEmit a typ cls sealed_ payload s) := by
  unfold agentEmit
  try dsimp only
  with_reducible repeat' first
    | assumption | intro _ | apply emit_keeps | apply rackEmit_keeps | apply keeps_ite

theorem sendAll_keeps (hnet : F.net) (a kind : Nat) (bytes : List Byte) (h : Keeps F s₀ s) :
    Keeps F s₀ (sendAll a kind bytes s) := by
  unfold sendAll
  try dsimp only
  with_reducible repeat' first
    | assumption | intro _ | apply each_keeps | apply sendCtl_keeps | apply keeps_ite

theorem beaconCount_keeps (hboot : F.boot) (kind agent : Nat) (h : Keeps F s₀ s) :
    Keeps F s₀ (beaconCount kind agent s) := by
  unfold beaconCount
  try dsimp only
  with_reducible repeat' first
    | assumption | exact ring_wf_id | exact Memory.wf_id | intro _
    | ((fail_if_success (apply keeps_eta)); apply keeps_mk) | exact Or.inl (by assumption) | exact Or.inr rfl

theorem beaconSend_keeps (hboot : F.boot) (hnet : F.net) (kind agent : Nat) (h : Keeps F s₀ s) :
    Keeps F s₀ (beaconSend kind agent s) := by
  unfold beaconSend
  try dsimp only
  repeat' first
    | with_reducible first
      | assumption | exact ring_wf_id | exact Memory.wf_id | intro _ | apply sendAll_keeps | apply beaconCount_keeps
      | apply sendCtl_keeps | apply foldl_keeps | apply keepsP_foldl | apply keepsQ_foldl
      | ((fail_if_success (apply keeps_eta)); apply keeps_mk) | exact Or.inl (by assumption) | exact Or.inr rfl
      | apply keeps_ite | apply keeps_getD | apply keepsP_getD | apply KeepsP.snd
      | ((fail_if_success (apply KeepsP.eta)); apply KeepsP.mk') | apply keepsP_ite
    | split

theorem execBeaconSend_keeps (hboot : F.boot) (hnet : F.net) (kind agent : Nat) (h : Keeps F s₀ s) :
    KeepsX F s₀ (execBeaconSend kind agent s) := by
  unfold execBeaconSend
  try dsimp only
  with_reducible repeat' first
    | assumption | intro _ | apply beaconSend_keeps | apply KeepsX.next

theorem holdRecord_keeps (hrecs : F.recs) (reason : Nat) (l : List Nat) (h : Keeps F s₀ s) :
    Keeps F s₀ (holdRecord reason l s) := by
  unfold holdRecord
  try dsimp only
  with_reducible repeat' first
    | assumption | intro _ | apply rackEmit_keeps

theorem showCensus_keeps (hregs : F.regs) (h : Keeps F s₀ s) :
    Keeps F s₀ (showCensus s) := by
  unfold showCensus
  try dsimp only
  with_reducible repeat' first
    | assumption | intro _ | apply each_keeps | apply State.wr_keeps | apply foldl_keeps | apply keepsP_foldl
    | apply keepsQ_foldl | apply keeps_ite

theorem evaluateCensus_keeps (hregs : F.regs) (hboot : F.boot) (hrecs : F.recs) (h : Keeps F s₀ s) :
    Keeps F s₀ (evaluateCensus s) := by
  unfold evaluateCensus
  try dsimp only
  with_reducible repeat' first
    | assumption | exact ring_wf_id | exact Memory.wf_id | intro _ | apply holdRecord_keeps | apply each_keeps
    | apply State.wr_keeps | apply showCensus_keeps | ((fail_if_success (apply keeps_eta)); apply keeps_mk)
    | exact Or.inl (by assumption) | exact Or.inr rfl | apply keeps_ite

theorem enroll_keeps (hboot : F.boot) (d : Nat) (h : Keeps F s₀ s) :
    Keeps F s₀ (enroll d s) := by
  unfold enroll
  try dsimp only
  with_reducible repeat' first
    | assumption | exact ring_wf_id | exact Memory.wf_id | intro _
    | ((fail_if_success (apply keeps_eta)); apply keeps_mk) | exact Or.inl (by assumption) | exact Or.inr rfl

theorem rejoinRecord_keeps (hrecs : F.recs) (d : Nat) (h : Keeps F s₀ s) :
    Keeps F s₀ (rejoinRecord d s) := by
  unfold rejoinRecord
  try dsimp only
  with_reducible repeat' first
    | assumption | intro _ | apply resetRecord_keeps | apply keeps_ite

theorem holdDie_keeps (hboot : F.boot) (hrecs : F.recs) (d reason : Nat) (h : Keeps F s₀ s) :
    Keeps F s₀ (holdDie d reason s) := by
  unfold holdDie
  try dsimp only
  with_reducible repeat' first
    | assumption | exact ring_wf_id | exact Memory.wf_id | intro _ | apply holdRecord_keeps
    | ((fail_if_success (apply keeps_eta)); apply keeps_mk) | exact Or.inl (by assumption) | exact Or.inr rfl

theorem rmJoin_keeps (hregs : F.regs) (hboot : F.boot) (hhost : F.host) (hrecs : F.recs) (d : Nat) (h : Keeps F s₀ s)
    :
    Keeps F s₀ (rmJoin d s) := by
  unfold rmJoin
  try dsimp only
  with_reducible repeat' first
    | assumption | intro _ | apply enroll_keeps | apply ptFetch_keeps | apply evaluateCensus_keeps
    | apply holdDie_keeps | apply holdRecord_keeps | apply showCensus_keeps | apply State.wr_keeps | apply keeps_ite

theorem stage10_keeps (hregs : F.regs) (hboot : F.boot) (hhost : F.host) (hrecs : F.recs) (d : Nat) (h : Keeps F s₀ s)
    :
    Keeps F s₀ (stage10 d s) := by
  unfold stage10
  try dsimp only
  with_reducible repeat' first
    | assumption | intro _ | apply rejoinRecord_keeps | apply stageDone_keeps | apply rmJoin_keeps | apply keeps_ite

theorem setMaster_keeps (hregs : F.regs) (hboot : F.boot) (d : Nat) (h : Keeps F s₀ s) :
    Keeps F s₀ (setMaster d s) := by
  unfold setMaster
  try dsimp only
  with_reducible repeat' first
    | assumption | exact ring_wf_id | exact Memory.wf_id | intro _ | apply State.wr_keeps
    | ((fail_if_success (apply keeps_eta)); apply keeps_mk) | exact Or.inl (by assumption) | exact Or.inr rfl

theorem unalign_keeps (hregs : F.regs) (hboot : F.boot) (d : Nat) (h : Keeps F s₀ s) :
    Keeps F s₀ (unalign d s) := by
  unfold unalign
  try dsimp only
  with_reducible repeat' first
    | assumption | exact ring_wf_id | exact Memory.wf_id | intro _ | apply State.wr_keeps
    | ((fail_if_success (apply keeps_eta)); apply keeps_mk) | exact Or.inl (by assumption) | exact Or.inr rfl

theorem yieldMaster_keeps (hregs : F.regs) (hboot : F.boot) (m : Nat) (h : Keeps F s₀ s) :
    Keeps F s₀ (yieldMaster m s) := by
  unfold yieldMaster
  try dsimp only
  with_reducible repeat' first
    | assumption | intro _ | apply each_keeps | apply unalign_keeps

theorem masterDies_keeps (hregs : F.regs) (hboot : F.boot) (hhost : F.host) (hrecs : F.recs) (x : Nat)
    (h : Keeps F s₀ s) :
    Keeps F s₀ (masterDies x s) := by
  unfold masterDies
  try dsimp only
  repeat' first
    | with_reducible first
      | assumption | exact ring_wf_id | exact Memory.wf_id | intro _ | apply stage10_keeps | apply setMaster_keeps
      | ((fail_if_success (apply keeps_eta)); apply keeps_mk) | exact Or.inl (by assumption) | exact Or.inr rfl
      | apply keeps_ite
    | split

theorem markDead_keeps (hregs : F.regs) (hboot : F.boot) (himg : F.img) (hhost : F.host) (hrecs : F.recs)
    (x inc : Nat) (h : Keeps F s₀ s) :
    Keeps F s₀ (markDead x inc s) := by
  unfold markDead
  try dsimp only
  with_reducible repeat' first
    | assumption | exact ring_wf_id | exact Memory.wf_id | intro _ | apply each_keeps | apply State.wrBit_keeps
    | apply showCensus_keeps | apply loadLosesDie_keeps | apply masterDies_keeps
    | ((fail_if_success (apply keeps_eta)); apply keeps_mk) | exact Or.inl (by assumption) | exact Or.inr rfl
    | apply keeps_ite

theorem agentDead_keeps (hregs : F.regs) (hboot : F.boot) (hcore : F.core) (hslc : F.slc) (hhbm : F.hbm)
    (hnet : F.net) (hque : F.que) (hprt : F.prt) (hxlt : F.xlt) (hhost : F.host) (hrecs : F.recs) (hout : F.out)
    (a x inc seq : Nat) (h : Keeps F s₀ s) :
    Keeps F s₀ (agentDead a x inc seq s) := by
  unfold agentDead
  try dsimp only
  with_reducible repeat' first
    | assumption | exact ring_wf_id | exact Memory.wf_id | intro _ | apply cohDead_keeps | apply State.wrBit_keeps
    | apply each_keeps | apply partFault_keeps | ((fail_if_success (apply keeps_eta)); apply keeps_mk)
    | exact Or.inl (by assumption) | exact Or.inr rfl | apply keeps_ite

theorem declareDead_keeps (hregs : F.regs) (hboot : F.boot) (himg : F.img) (hcore : F.core) (hslc : F.slc)
    (hhbm : F.hbm) (hnet : F.net) (hque : F.que) (hprt : F.prt) (hxlt : F.xlt) (hhost : F.host) (hrecs : F.recs)
    (hout : F.out) (o x inc last : Nat) (h : Keeps F s₀ s) :
    Keeps F s₀ (declareDead o x inc last s) := by
  unfold declareDead
  try dsimp only
  with_reducible repeat' first
    | assumption | intro _ | apply agentEmit_keeps | apply agentDead_keeps | apply tellAll_keeps
    | apply markDead_keeps

theorem repeatNotice_keeps (hnet : F.net) (o x inc : Nat) (h : Keeps F s₀ s) :
    Keeps F s₀ (repeatNotice o x inc s) := by
  unfold repeatNotice
  try dsimp only
  with_reducible repeat' first
    | assumption | intro _ | apply sendTo_keeps | apply keeps_ite

theorem retirePartner_keeps (hregs : F.regs) (hboot : F.boot) (hcore : F.core) (hslc : F.slc) (hhbm : F.hbm)
    (hnet : F.net) (hque : F.que) (hprt : F.prt) (hxlt : F.xlt) (hhost : F.host) (hrecs : F.recs) (hout : F.out)
    (o kind agent last : Nat) (h : Keeps F s₀ s) :
    Keeps F s₀ (retirePartner o kind agent last s) := by
  unfold retirePartner
  try dsimp only
  repeat' first
    | with_reducible first
      | assumption | exact ring_wf_id | exact Memory.wf_id | intro _ | apply ptRetireWhere_keeps
      | apply agentEmit_keeps | apply each_keeps | apply instReset_keeps
      | ((fail_if_success (apply keeps_eta)); apply keeps_mk) | exact Or.inl (by assumption) | exact Or.inr rfl
      | apply keeps_ite | apply KeepsP.snd
    | split

theorem beaconSlotMissed_keeps (hregs : F.regs) (hboot : F.boot) (himg : F.img) (hcore : F.core) (hslc : F.slc)
    (hhbm : F.hbm) (hnet : F.net) (hque : F.que) (hprt : F.prt) (hxlt : F.xlt) (hhost : F.host) (hrecs : F.recs)
    (hout : F.out) (o kind agent : Nat) (h : Keeps F s₀ s) :
    Keeps F s₀ (beaconSlotMissed o kind agent s) := by
  unfold beaconSlotMissed
  try dsimp only
  repeat' first
    | with_reducible first
      | assumption | exact ring_wf_id | exact Memory.wf_id | intro _ | apply repeatNotice_keeps
      | apply declareDead_keeps | apply retirePartner_keeps | ((fail_if_success (apply keeps_eta)); apply keeps_mk)
      | exact Or.inl (by assumption) | exact Or.inr rfl | apply keeps_ite
    | split

theorem execBeaconSlotMissed_keeps (hregs : F.regs) (hboot : F.boot) (himg : F.img) (hcore : F.core) (hslc : F.slc)
    (hhbm : F.hbm) (hnet : F.net) (hque : F.que) (hprt : F.prt) (hxlt : F.xlt) (hhost : F.host) (hrecs : F.recs)
    (hout : F.out) (observer kind agent : Nat) (h : Keeps F s₀ s) :
    KeepsX F s₀ (execBeaconSlotMissed observer kind agent s) := by
  unfold execBeaconSlotMissed
  try dsimp only
  with_reducible repeat' first
    | assumption | intro _ | apply beaconSlotMissed_keeps | apply KeepsX.next

theorem deadNotice_keeps (hregs : F.regs) (hrack : F.rack) (hboot : F.boot) (himg : F.img) (hcore : F.core)
    (hslc : F.slc) (hhbm : F.hbm) (hnet : F.net) (hque : F.que) (hprt : F.prt) (hxlt : F.xlt) (hhost : F.host)
    (hrecs : F.recs) (hout : F.out) (a d : Nat) (inc : BitVec 16) (h : Keeps F s₀ s) :
    Keeps F s₀ (deadNotice a d inc s) := by
  unfold deadNotice
  try dsimp only
  with_reducible repeat' first
    | assumption | intro _ | apply dieReset_keeps | apply agentDead_keeps | apply markDead_keeps | apply keeps_ite

theorem execDeadNotice_keeps (hregs : F.regs) (hrack : F.rack) (hboot : F.boot) (himg : F.img) (hcore : F.core)
    (hslc : F.slc) (hhbm : F.hbm) (hnet : F.net) (hque : F.que) (hprt : F.prt) (hxlt : F.xlt) (hhost : F.host)
    (hrecs : F.recs) (hout : F.out) (agent d : Nat) (inc : BitVec 16) (h : Keeps F s₀ s) :
    KeepsX F s₀ (execDeadNotice agent d inc s) := by
  unfold execDeadNotice
  try dsimp only
  with_reducible repeat' first
    | assumption | intro _ | apply onDie_keeps | apply deadNotice_keeps

theorem reclaimTimeout_keeps (hregs : F.regs) (hcore : F.core) (hslc : F.slc) (hhbm : F.hbm) (hnet : F.net)
    (hque : F.que) (hprt : F.prt) (hxlt : F.xlt) (hhost : F.host) (hrecs : F.recs) (hout : F.out) (d dead : Nat)
    (h : Keeps F s₀ s) :
    Keeps F s₀ (reclaimTimeout d dead s) := by
  unfold reclaimTimeout
  try dsimp only
  with_reducible repeat' first
    | assumption | intro _ | apply each_keeps | apply cohReclaim_keeps | apply keeps_ite

theorem execReclaimTimeout_keeps (hregs : F.regs) (hcore : F.core) (hslc : F.slc) (hhbm : F.hbm) (hnet : F.net)
    (hque : F.que) (hprt : F.prt) (hxlt : F.xlt) (hhost : F.host) (hrecs : F.recs) (hout : F.out) (d dead : Nat)
    (h : Keeps F s₀ s) :
    KeepsX F s₀ (execReclaimTimeout d dead s) := by
  unfold execReclaimTimeout
  try dsimp only
  with_reducible repeat' first
    | assumption | intro _ | apply onDie_keeps | apply reclaimTimeout_keeps

theorem beaconDrop_keeps (hregs : F.regs) (o : Nat) (h : Keeps F s₀ s) :
    Keeps F s₀ (beaconDrop o s) := by
  unfold beaconDrop
  try dsimp only
  with_reducible repeat' first
    | assumption | intro _ | apply State.count_keeps | apply keeps_ite

theorem undead_keeps (hregs : F.regs) (hboot : F.boot) (x : Nat) (h : Keeps F s₀ s) :
    Keeps F s₀ (undead x s) := by
  unfold undead
  try dsimp only
  with_reducible repeat' first
    | assumption | exact ring_wf_id | exact Memory.wf_id | intro _ | apply each_keeps | apply State.wrBit_keeps
    | ((fail_if_success (apply keeps_eta)); apply keeps_mk) | exact Or.inl (by assumption) | exact Or.inr rfl

theorem hearDie_keeps (hregs : F.regs) (hboot : F.boot) (o port : Nat) (b : BeaconMsg) (h : Keeps F s₀ s) :
    Keeps F s₀ (hearDie o port b s) := by
  unfold hearDie
  try dsimp only
  with_reducible repeat' first
    | assumption | exact ring_wf_id | exact Memory.wf_id | intro _ | apply State.wrBit_keeps | apply yieldMaster_keeps
    | ((fail_if_success (apply keeps_eta)); apply keeps_mk) | exact Or.inl (by assumption) | exact Or.inr rfl
    | apply keeps_ite

theorem forwardBeacon_keeps (hnet : F.net) (o port : Nat) (bytes : List Byte) (h : Keeps F s₀ s) :
    Keeps F s₀ (forwardBeacon o port bytes s) := by
  unfold forwardBeacon
  try dsimp only
  with_reducible repeat' first
    | assumption | intro _ | apply each_keeps | apply sendCtl_keeps | apply keeps_ite

theorem hearOther_keeps (hboot : F.boot) (hrecs : F.recs) (o port : Nat) (b : BeaconMsg) (h : Keeps F s₀ s) :
    Keeps F s₀ (hearOther o port b s) := by
  unfold hearOther
  try dsimp only
  with_reducible repeat' first
    | assumption | exact ring_wf_id | exact Memory.wf_id | intro _ | apply agentEmit_keeps
    | ((fail_if_success (apply keeps_eta)); apply keeps_mk) | exact Or.inl (by assumption) | exact Or.inr rfl
    | apply keeps_ite

theorem comeBack_keeps (hregs : F.regs) (hboot : F.boot) (hhost : F.host) (hrecs : F.recs) (x : Nat)
    (h : Keeps F s₀ s) :
    Keeps F s₀ (comeBack x s) := by
  unfold comeBack
  try dsimp only
  with_reducible repeat' first
    | assumption | intro _ | apply undead_keeps | apply rmJoin_keeps | apply keeps_ite

theorem beacon_keeps (hregs : F.regs) (hboot : F.boot) (hnet : F.net) (hhost : F.host) (hrecs : F.recs) (o port : Nat)
    (bytes : List Byte) (h : Keeps F s₀ s) :
    Keeps F s₀ (beacon o port bytes s) := by
  unfold beacon
  try dsimp only
  repeat' first
    | with_reducible first
      | assumption | intro _ | apply beaconDrop_keeps | apply hearOther_keeps | apply forwardBeacon_keeps
      | apply hearDie_keeps | apply comeBack_keeps | apply keeps_ite
    | split

theorem execBeacon_keeps (hregs : F.regs) (hboot : F.boot) (hnet : F.net) (hhost : F.host) (hrecs : F.recs)
    (observer port : Nat) (bytes : List Byte) (h : Keeps F s₀ s) :
    KeepsX F s₀ (execBeacon observer port bytes s) := by
  unfold execBeacon
  try dsimp only
  with_reducible repeat' first
    | assumption | intro _ | apply beacon_keeps | apply KeepsX.next

theorem rackResetRecord_keeps (hboot : F.boot) (hrecs : F.recs) (h : Keeps F s₀ s) :
    Keeps F s₀ (rackResetRecord s) := by
  unfold rackResetRecord
  try dsimp only
  repeat' first
    | with_reducible first
      | assumption | exact ring_wf_id | exact Memory.wf_id | intro _ | apply rackEmit_keeps
      | ((fail_if_success (apply keeps_eta)); apply keeps_mk) | exact Or.inl (by assumption) | exact Or.inr rfl
    | split

theorem censusClose_keeps (hregs : F.regs) (hboot : F.boot) (hrecs : F.recs) (ms : Nat) (h : Keeps F s₀ s) :
    Keeps F s₀ (censusClose ms s) := by
  unfold censusClose
  try dsimp only
  with_reducible repeat' first
    | assumption | exact ring_wf_id | exact Memory.wf_id | intro _ | apply each_keeps | apply uartPrint_keeps
    | apply enroll_keeps | apply rackResetRecord_keeps | apply evaluateCensus_keeps
    | ((fail_if_success (apply keeps_eta)); apply keeps_mk) | exact Or.inl (by assumption) | exact Or.inr rfl
    | apply keeps_ite

theorem execCensusClose_keeps (hregs : F.regs) (hboot : F.boot) (hrecs : F.recs) (ms : Nat) (h : Keeps F s₀ s) :
    KeepsX F s₀ (execCensusClose ms s) := by
  unfold execCensusClose
  try dsimp only
  with_reducible repeat' first
    | assumption | intro _ | apply censusClose_keeps | apply KeepsX.next

theorem masterElection_keeps (hregs : F.regs) (hboot : F.boot) (hhost : F.host) (hrecs : F.recs) (d : Nat)
    (h : Keeps F s₀ s) :
    Keeps F s₀ (masterElection d s) := by
  unfold masterElection
  try dsimp only
  with_reducible repeat' first
    | assumption | intro _ | apply stage10_keeps | apply setMaster_keeps | apply keeps_ite

theorem execMasterElection_keeps (hregs : F.regs) (hboot : F.boot) (hhost : F.host) (hrecs : F.recs) (d : Nat)
    (h : Keeps F s₀ s) :
    KeepsX F s₀ (execMasterElection d s) := by
  unfold execMasterElection
  try dsimp only
  with_reducible repeat' first
    | assumption | intro _ | apply onDie_keeps | apply masterElection_keeps

theorem stepRecord_keeps (hrecs : F.recs) (d : Nat) (ns : ℤ) (master kind : Nat) (h : Keeps F s₀ s) :
    Keeps F s₀ (stepRecord d ns master kind s) := by
  unfold stepRecord
  try dsimp only
  with_reducible repeat' first
    | assumption | intro _ | apply emit_keeps

theorem alignStep_keeps (hregs : F.regs) (hboot : F.boot) (hrecs : F.recs) (d m : Nat) (h : Keeps F s₀ s) :
    Keeps F s₀ (alignStep d m s) := by
  unfold alignStep
  try dsimp only
  repeat' first
    | with_reducible first
      | assumption | exact ring_wf_id | exact Memory.wf_id | intro _ | apply stepRecord_keeps | apply State.wr_keeps
      | ((fail_if_success (apply keeps_eta)); apply keeps_mk) | exact Or.inl (by assumption) | exact Or.inr rfl
      | apply keeps_ite
    | split

theorem alignCheck_keeps (hregs : F.regs) (hboot : F.boot) (hhost : F.host) (hrecs : F.recs) (d m : Nat) (x : Exch)
    (h : Keeps F s₀ s) :
    Keeps F s₀ (alignCheck d m x s) := by
  unfold alignCheck
  try dsimp only
  with_reducible repeat' first
    | assumption | exact ring_wf_id | exact Memory.wf_id | intro _ | apply State.wr_keeps | apply stage10_keeps
    | ((fail_if_success (apply keeps_eta)); apply keeps_mk) | exact Or.inl (by assumption) | exact Or.inr rfl
    | apply keeps_ite

theorem rtimeExchange_keeps (hregs : F.regs) (hboot : F.boot) (hhost : F.host) (hrecs : F.recs) (d : Nat)
    (t1 t2 t3 t4 : Word) (h : Keeps F s₀ s) :
    Keeps F s₀ (rtimeExchange d t1 t2 t3 t4 s) := by
  unfold rtimeExchange
  try dsimp only
  repeat' first
    | with_reducible first
      | assumption | exact ring_wf_id | exact Memory.wf_id | intro _ | apply alignCheck_keeps | apply alignStep_keeps
      | ((fail_if_success (apply keeps_eta)); apply keeps_mk) | exact Or.inl (by assumption) | exact Or.inr rfl
      | apply keeps_ite
    | split

theorem execRtimeExchange_keeps (hregs : F.regs) (hboot : F.boot) (hhost : F.host) (hrecs : F.recs) (d : Nat)
    (t1 t2 t3 t4 : Word) (h : Keeps F s₀ s) :
    KeepsX F s₀ (execRtimeExchange d t1 t2 t3 t4 s) := by
  unfold execRtimeExchange
  try dsimp only
  with_reducible repeat' first
    | assumption | intro _ | apply onDie_keeps | apply rtimeExchange_keeps

theorem rtimeRemeasure_keeps (hregs : F.regs) (hboot : F.boot) (hrecs : F.recs) (d : Nat) (offset : ℤ)
    (h : Keeps F s₀ s) :
    Keeps F s₀ (rtimeRemeasure d offset s) := by
  unfold rtimeRemeasure
  try dsimp only
  with_reducible repeat' first
    | assumption | exact ring_wf_id | exact Memory.wf_id | intro _ | apply State.wr_keeps | apply stepRecord_keeps
    | ((fail_if_success (apply keeps_eta)); apply keeps_mk) | exact Or.inl (by assumption) | exact Or.inr rfl
    | apply keeps_ite

theorem execRtimeRemeasure_keeps (hregs : F.regs) (hboot : F.boot) (hrecs : F.recs) (d : Nat) (offset : ℤ)
    (h : Keeps F s₀ s) :
    KeepsX F s₀ (execRtimeRemeasure d offset s) := by
  unfold execRtimeRemeasure
  try dsimp only
  with_reducible repeat' first
    | assumption | intro _ | apply onDie_keeps | apply rtimeRemeasure_keeps

theorem attachPort_keeps (hregs : F.regs) (hhost : F.host) (port : Nat) (h : Keeps F s₀ s) :
    Keeps F s₀ (attachPort port s) := by
  unfold attachPort
  try dsimp only
  with_reducible repeat' first
    | assumption | exact ring_wf_id | exact Memory.wf_id | intro _ | apply State.wr_keeps
    | ((fail_if_success (apply keeps_eta)); apply keeps_mk) | exact Or.inl (by assumption) | exact Or.inr rfl

theorem hostAbi_keeps (hregs : F.regs) (hhost : F.host) (port : Nat) (abi : Compat) (h : Keeps F s₀ s) :
    Keeps F s₀ (hostAbi port abi s) := by
  unfold hostAbi
  try dsimp only
  with_reducible repeat' first
    | assumption | exact ring_wf_id | exact Memory.wf_id | intro _ | apply State.wr_keeps | apply attachPort_keeps
    | ((fail_if_success (apply keeps_eta)); apply keeps_mk) | exact Or.inl (by assumption) | exact Or.inr rfl
    | apply keeps_ite

theorem execHostAbi_keeps (hregs : F.regs) (hhost : F.host) (port : Nat) (abi : Compat) (h : Keeps F s₀ s) :
    KeepsX F s₀ (execHostAbi port abi s) := by
  unfold execHostAbi
  try dsimp only
  with_reducible repeat' first
    | assumption | intro _ | apply onDie_keeps | apply hostAbi_keeps

theorem acceptRecord__keeps (hrecs : F.recs) (digest : BitVec 32) (result : Nat) (h : Keeps F s₀ s) :
    Keeps F s₀ (acceptRecord_ digest result s) := by
  unfold acceptRecord_
  try dsimp only
  with_reducible repeat' first
    | assumption | intro _ | apply rackEmit_keeps

theorem takeDigest_keeps (hregs : F.regs) (hboot : F.boot) (hrecs : F.recs) (digest : BitVec 32) (mark : Bool)
    (h : Keeps F s₀ s) :
    Keeps F s₀ (takeDigest digest mark s) := by
  unfold takeDigest
  try dsimp only
  with_reducible repeat' first
    | assumption | exact ring_wf_id | exact Memory.wf_id | intro _ | apply each_keeps | apply State.wr_keeps
    | apply acceptRecord__keeps | ((fail_if_success (apply keeps_eta)); apply keeps_mk) | exact Or.inl (by assumption)
    | exact Or.inr rfl

theorem acceptCombo_keeps (hregs : F.regs) (hboot : F.boot) (hrecs : F.recs) (digest : BitVec 32) (h : Keeps F s₀ s) :
    Keeps F s₀ (acceptCombo digest s) := by
  unfold acceptCombo
  try dsimp only
  with_reducible repeat' first
    | assumption | exact ring_wf_id | exact Memory.wf_id | intro _ | apply takeDigest_keeps
    | apply evaluateCensus_keeps | apply showCensus_keeps | ((fail_if_success (apply keeps_eta)); apply keeps_mk)
    | exact Or.inl (by assumption) | exact Or.inr rfl | apply keeps_ite

theorem untestedAccept_keeps (hregs : F.regs) (hboot : F.boot) (hhost : F.host) (hrecs : F.recs) (digest : BitVec 32)
    (h : Keeps F s₀ s) :
    Keeps F s₀ (untestedAccept digest s) := by
  unfold untestedAccept
  try dsimp only
  with_reducible repeat' first
    | assumption | exact ring_wf_id | exact Memory.wf_id | intro _ | apply acceptRecord__keeps
    | apply acceptCombo_keeps | apply takeDigest_keeps | apply showCensus_keeps | apply each_keeps
    | apply attachPort_keeps | ((fail_if_success (apply keeps_eta)); apply keeps_mk) | exact Or.inl (by assumption)
    | exact Or.inr rfl | apply keeps_ite

theorem execUntestedAccept_keeps (hregs : F.regs) (hboot : F.boot) (hhost : F.host) (hrecs : F.recs)
    (digest : BitVec 32) (h : Keeps F s₀ s) :
    KeepsX F s₀ (execUntestedAccept digest s) := by
  unfold execUntestedAccept
  try dsimp only
  with_reducible repeat' first
    | assumption | intro _ | apply untestedAccept_keeps | apply KeepsX.next

end Sys2Proof.Machine
end

