-- ==== Sys2Proof/Laws/KeepsImageLoad.lean ====
section
/-! SUPPORT. What each effect of Machine/ImageLoad.lean may change (see Laws/Keeps.lean). -/

namespace Sys2Proof.Machine

variable {F : Frame} {s₀ s : State}

theorem imgCmd_keeps (hregs : F.regs) (code a : Nat) (h : Keeps F s₀ s) :
    Keeps F s₀ (imgCmd code a s) := by
  unfold imgCmd
  try dsimp only
  with_reducible repeat' first
    | assumption | intro _ | apply State.wr_keeps

theorem setLoad_keeps (himg : F.img) (l : Load) (h : Keeps F s₀ s) :
    Keeps F s₀ (setLoad l s) := by
  unfold setLoad
  try dsimp only
  with_reducible repeat' first
    | assumption | exact ring_wf_id | exact Memory.wf_id | intro _
    | ((fail_if_success (apply keeps_eta)); apply keeps_mk) | exact Or.inl (by assumption) | exact Or.inr rfl

theorem busyResult_keeps (hregs : F.regs) (detail a : Nat) (h : Keeps F s₀ s) :
    Keeps F s₀ (busyResult detail a s) := by
  unfold busyResult
  try dsimp only
  with_reducible repeat' first
    | assumption | intro _ | apply State.count_keeps | apply State.wr_keeps

theorem imgCheck_keeps (hregs : F.regs) (hboot : F.boot) (himg : F.img) (hrecs : F.recs) (b : List Byte)
    (h : Keeps F s₀ s) :
    Keeps F s₀ (imgCheck b s) := by
  unfold imgCheck
  try dsimp only
  repeat' first
    | with_reducible first
      | assumption | exact ring_wf_id | exact Memory.wf_id | intro _ | apply each_keeps | apply busyResult_keeps
      | apply rejectRecord_keeps | apply imgCmd_keeps | apply imgResult_keeps | apply imgStatus_keeps
      | apply setLoad_keeps | ((fail_if_success (apply keeps_eta)); apply keeps_mk) | exact Or.inl (by assumption)
      | exact Or.inr rfl | apply keeps_ite
    | split

theorem execImgCheck_keeps (hregs : F.regs) (hboot : F.boot) (himg : F.img) (hrecs : F.recs) (bytes : List Byte)
    (h : Keeps F s₀ s) :
    KeepsX F s₀ (execImgCheck bytes s) := by
  unfold execImgCheck
  try dsimp only
  with_reducible repeat' first
    | assumption | intro _ | apply imgCheck_keeps | apply KeepsX.next

theorem imgStage_keeps (hregs : F.regs) (himg : F.img) (hrecs : F.recs) (unwritable : Option Nat) (h : Keeps F s₀ s) :
    Keeps F s₀ (imgStage unwritable s) := by
  unfold imgStage
  try dsimp only
  repeat' first
    | with_reducible first
      | assumption | exact ring_wf_id | exact Memory.wf_id | intro _ | apply each_keeps | apply imgCmd_keeps
      | apply setLoad_keeps | apply rejectLoad_keeps | apply imgStatus_keeps
      | ((fail_if_success (apply keeps_eta)); apply keeps_mk) | exact Or.inl (by assumption) | exact Or.inr rfl
    | split

theorem execImgStage_keeps (hregs : F.regs) (himg : F.img) (hrecs : F.recs) (unwritable : Option Nat)
    (h : Keeps F s₀ s) :
    KeepsX F s₀ (execImgStage unwritable s) := by
  unfold execImgStage
  try dsimp only
  with_reducible repeat' first
    | assumption | intro _ | apply imgStage_keeps | apply KeepsX.next

theorem quiescePart_keeps (hregs : F.regs) (p : Nat) (h : Keeps F s₀ s) :
    Keeps F s₀ (quiescePart p s) := by
  unfold quiescePart
  try dsimp only
  with_reducible repeat' first
    | assumption | intro _ | apply each_keeps | apply State.wr_keeps | apply keeps_ite

theorem imgQuiesce_keeps (hregs : F.regs) (himg : F.img) (h : Keeps F s₀ s) :
    Keeps F s₀ (imgQuiesce s) := by
  unfold imgQuiesce
  try dsimp only
  repeat' first
    | with_reducible first
      | assumption | intro _ | apply each_keeps | apply quiescePart_keeps | apply State.wr_keeps | apply imgCmd_keeps
      | apply setLoad_keeps
    | split

theorem execImgQuiesce_keeps (hregs : F.regs) (himg : F.img) (h : Keeps F s₀ s) :
    KeepsX F s₀ (execImgQuiesce s) := by
  unfold execImgQuiesce
  try dsimp only
  with_reducible repeat' first
    | assumption | intro _ | apply imgQuiesce_keeps | apply KeepsX.next

theorem quiesceIdle_keeps (hregs : F.regs) (himg : F.img) (h : Keeps F s₀ s) :
    Keeps F s₀ (quiesceIdle s) := by
  unfold quiesceIdle
  try dsimp only
  repeat' first
    | with_reducible first
      | assumption | intro _ | apply setLoad_keeps | apply each_keeps | apply imgStatus_keeps | apply keeps_ite
    | split

theorem execQuiesceIdle_keeps (hregs : F.regs) (himg : F.img) (h : Keeps F s₀ s) :
    KeepsX F s₀ (execQuiesceIdle s) := by
  unfold execQuiesceIdle
  try dsimp only
  with_reducible repeat' first
    | assumption | intro _ | apply quiesceIdle_keeps | apply KeepsX.next

theorem quiesceTimeout_keeps (hregs : F.regs) (himg : F.img) (hrecs : F.recs) (h : Keeps F s₀ s) :
    Keeps F s₀ (quiesceTimeout s) := by
  unfold quiesceTimeout
  try dsimp only
  repeat' first
    | with_reducible first
      | assumption | intro _ | apply rejectLoad_keeps | apply keeps_getD | apply keepsP_getD
    | split

theorem execQuiesceTimeout_keeps (hregs : F.regs) (himg : F.img) (hrecs : F.recs) (h : Keeps F s₀ s) :
    KeepsX F s₀ (execQuiesceTimeout s) := by
  unfold execQuiesceTimeout
  try dsimp only
  with_reducible repeat' first
    | assumption | intro _ | apply quiesceTimeout_keeps | apply KeepsX.next

theorem imgAbort_keeps (hregs : F.regs) (himg : F.img) (hrecs : F.recs) (h : Keeps F s₀ s) :
    Keeps F s₀ (imgAbort s) := by
  unfold imgAbort
  try dsimp only
  repeat' first
    | with_reducible first
      | assumption | intro _ | apply rejectLoad_keeps | apply each_keeps | apply imgCmd_keeps
    | split

theorem execImgAbort_keeps (hregs : F.regs) (himg : F.img) (hrecs : F.recs) (h : Keeps F s₀ s) :
    KeepsX F s₀ (execImgAbort s) := by
  unfold execImgAbort
  try dsimp only
  with_reducible repeat' first
    | assumption | intro _ | apply imgAbort_keeps | apply KeepsX.next

theorem withLive_keeps (himg : F.img) (l : List Section) (h : Keeps F s₀ s) :
    Keeps F s₀ (withLive l s) := by
  unfold withLive
  try dsimp only
  with_reducible repeat' first
    | assumption | exact ring_wf_id | exact Memory.wf_id | intro _
    | ((fail_if_success (apply keeps_eta)); apply keeps_mk) | exact Or.inl (by assumption) | exact Or.inr rfl

theorem failClear_keeps (hregs : F.regs) (d : Nat) (h : Keeps F s₀ s) :
    Keeps F s₀ (failClear d s) := by
  unfold failClear
  try dsimp only
  with_reducible repeat' first
    | assumption | intro _ | apply each_keeps | apply State.wr_keeps | apply keeps_ite

theorem swapFailures_keeps (hcore : F.core) (hslc : F.slc) (hnet : F.net) (d side : Nat) (h : Keeps F s₀ s) :
    Keeps F s₀ (swapFailures d side s) := by
  unfold swapFailures
  try dsimp only
  with_reducible repeat' first
    | assumption | exact ring_wf_id | exact Memory.wf_id | intro _
    | ((fail_if_success (apply keeps_eta)); apply keeps_mk) | exact Or.inl (by assumption) | exact Or.inr rfl

theorem commitResets_keeps (hregs : F.regs) (hcore : F.core) (hslc : F.slc) (hhbm : F.hbm) (hnet : F.net)
    (hque : F.que) (hprt : F.prt) (hxlt : F.xlt) (hhost : F.host) (hrecs : F.recs) (p : Nat) (h : Keeps F s₀ s) :
    Keeps F s₀ (commitResets p s) := by
  unfold commitResets
  try dsimp only
  with_reducible repeat' first
    | assumption | intro _ | apply each_keeps | apply endReset_keeps | apply resetComplete_keeps
    | apply partReset_keeps | apply keeps_ite

theorem commitQueues_keeps (hregs : F.regs) (hque : F.que) (ps : List Nat) (n : State) (p : Nat) (h : Keeps F s₀ s) :
    Keeps F s₀ (commitQueues ps n p s) := by
  unfold commitQueues
  try dsimp only
  repeat' first
    | with_reducible first
      | assumption | intro _ | apply each_keeps | apply resetQueue_keeps | apply State.count_keeps | apply keeps_ite
    | split

theorem disownSlots_keeps (hregs : F.regs) (p i : Nat) (h : Keeps F s₀ s) :
    Keeps F s₀ (disownSlots p i s) := by
  unfold disownSlots
  try dsimp only
  with_reducible repeat' first
    | assumption | intro _ | apply each_keeps | apply State.wr_keeps | apply keeps_ite

theorem commitInstances_keeps (hregs : F.regs) (hcore : F.core) (hslc : F.slc) (hque : F.que) (hxlt : F.xlt)
    (hhost : F.host) (hrecs : F.recs) (n : State) (p : Nat) (h : Keeps F s₀ s) :
    Keeps F s₀ (commitInstances n p s) := by
  unfold commitInstances
  try dsimp only
  repeat' first
    | with_reducible first
      | assumption | intro _ | apply each_keeps | apply resetRecord_keeps | apply endInstReset_keeps
      | apply instResetEffects_keeps | apply disownSlots_keeps | apply setInstState_keeps | apply keeps_ite
      | apply keeps_getD | apply keepsP_getD
    | split

theorem commitCopies_keeps (hque : F.que) (hxlt : F.xlt) (n : State) (p : Nat) (h : Keeps F s₀ s) :
    Keeps F s₀ (commitCopies n p s) := by
  unfold commitCopies
  try dsimp only
  with_reducible repeat' first
    | assumption | exact ring_wf_id | exact Memory.wf_id | intro _ | apply dropPartCopies_keeps
    | ((fail_if_success (apply keeps_eta)); apply keeps_mk) | exact Or.inl (by assumption) | exact Or.inr rfl
    | apply keeps_ite

theorem commitBuckets_keeps (hque : F.que) (n : State) (p : Nat) (h : Keeps F s₀ s) :
    Keeps F s₀ (commitBuckets n p s) := by
  unfold commitBuckets
  try dsimp only
  with_reducible repeat' first
    | assumption | exact ring_wf_id | exact Memory.wf_id | intro _ | apply each_keeps
    | ((fail_if_success (apply keeps_eta)); apply keeps_mk) | exact Or.inl (by assumption) | exact Or.inr rfl

theorem commitPart_keeps (hregs : F.regs) (hcore : F.core) (hslc : F.slc) (hhbm : F.hbm) (hnet : F.net) (hque : F.que)
    (hprt : F.prt) (hxlt : F.xlt) (hhost : F.host) (hrecs : F.recs) (hout : F.out) (ps : List Nat) (n : State)
    (l : Load) (p : Nat) (h : Keeps F s₀ s) :
    Keeps F s₀ (commitPart ps n l p s) := by
  unfold commitPart
  try dsimp only
  with_reducible repeat' first
    | assumption | intro _ | apply redBreakWhere_keeps | apply commitResets_keeps | apply cacheActions_keeps
    | apply unpinPart_keeps | apply commitBuckets_keeps | apply commitCopies_keeps | apply commitInstances_keeps
    | apply commitQueues_keeps | apply keeps_ite

theorem commitRack_keeps (hregs : F.regs) (hrack : F.rack) (hboot : F.boot) (himg : F.img) (hcore : F.core)
    (hslc : F.slc) (hhbm : F.hbm) (hnet : F.net) (hque : F.que) (hprt : F.prt) (hxlt : F.xlt) (hhost : F.host)
    (hrecs : F.recs) (hout : F.out) (l : Load) (h : Keeps F s₀ s) :
    Keeps F s₀ (commitRack l s) := by
  unfold commitRack
  try dsimp only
  with_reducible repeat' first
    | assumption | exact ring_wf_id | exact Memory.wf_id | intro _ | apply each_keeps | apply failClear_keeps
    | apply withLive_keeps | apply commitPart_keeps | apply showCensus_keeps
    | ((fail_if_success (apply keeps_eta)); apply keeps_mk) | exact Or.inl (by assumption) | exact Or.inr rfl
    | apply keeps_ite

theorem swapHalf_keeps (hregs : F.regs) (hprt : F.prt) (own : Option Nat) (d side serial : Nat) (full : Bool)
    (h : Keeps F s₀ s) :
    Keeps F s₀ (swapHalf own d side serial full s) := by
  unfold swapHalf
  try dsimp only
  repeat' first
    | with_reducible first
      | assumption | intro _ | apply State.wr_keeps | apply stopHalf_keeps | apply each_keeps | apply keeps_ite
    | split

theorem swapQueue_keeps (hregs : F.regs) (d k : Nat) (e : Option (Nat × List Byte)) (h : Keeps F s₀ s) :
    Keeps F s₀ (swapQueue d k e s) := by
  unfold swapQueue
  try dsimp only
  repeat' first
    | with_reducible first
      | assumption | intro _ | apply State.wr_keeps
    | split

theorem swapQueues_keeps (hregs : F.regs) (ps : List Nat) (full : Bool) (d : Nat) (h : Keeps F s₀ s) :
    Keeps F s₀ (swapQueues ps full d s) := by
  unfold swapQueues
  try dsimp only
  repeat' first
    | with_reducible first
      | assumption | intro _ | apply each_keeps | apply swapQueue_keeps | apply keeps_ite
    | split

theorem swapModes_keeps (hregs : F.regs) (d act : Nat) (h : Keeps F s₀ s) :
    Keeps F s₀ (swapModes d act s) := by
  unfold swapModes
  try dsimp only
  repeat' first
    | with_reducible first
      | assumption | intro _ | apply State.wr_keeps
    | split

theorem swapWarden_keeps (hregs : F.regs) (d : Nat) (h : Keeps F s₀ s) :
    Keeps F s₀ (swapWarden d s) := by
  unfold swapWarden
  try dsimp only
  with_reducible repeat' first
    | assumption | intro _ | apply State.wr_keeps

theorem swapGovernor_keeps (hregs : F.regs) (d : Nat) (b : List Byte) (h : Keeps F s₀ s) :
    Keeps F s₀ (swapGovernor d b s) := by
  unfold swapGovernor
  try dsimp only
  repeat' first
    | with_reducible first
      | assumption | intro _ | apply State.wr_keeps | apply each_keeps | apply setGovB_keeps | apply keeps_ite
    | split

theorem swapClock_keeps (hregs : F.regs) (d : Nat) (b : List Byte) (h : Keeps F s₀ s) :
    Keeps F s₀ (swapClock d b s) := by
  unfold swapClock
  try dsimp only
  repeat' first
    | with_reducible first
      | assumption | intro _ | apply State.wr_keeps
    | split

theorem swapMonitor_keeps (hregs : F.regs) (hque : F.que) (d : Nat) (b : List Byte) (h : Keeps F s₀ s) :
    Keeps F s₀ (swapMonitor d b s) := by
  unfold swapMonitor
  try dsimp only
  with_reducible repeat' first
    | assumption | exact ring_wf_id | exact Memory.wf_id | intro _ | apply each_keeps | apply State.wr_keeps
    | ((fail_if_success (apply keeps_eta)); apply keeps_mk) | exact Or.inl (by assumption) | exact Or.inr rfl

theorem swapMesh_keeps (hregs : F.regs) (d : Nat) (b : List Byte) (h : Keeps F s₀ s) :
    Keeps F s₀ (swapMesh d b s) := by
  unfold swapMesh
  try dsimp only
  with_reducible repeat' first
    | assumption | intro _ | apply each_keeps | apply State.wr_keeps

theorem swapPort_keeps (hregs : F.regs) (hcore : F.core) (hslc : F.slc) (hhbm : F.hbm) (hnet : F.net) (hque : F.que)
    (hprt : F.prt) (hxlt : F.xlt) (hhost : F.host) (hrecs : F.recs) (hout : F.out) (d : Nat) (b : List Byte)
    (h : Keeps F s₀ s) :
    Keeps F s₀ (swapPort d b s) := by
  unfold swapPort
  try dsimp only
  repeat' first
    | with_reducible first
      | assumption | intro _ | apply portDown_keeps | apply State.wr_keeps | apply keeps_ite
    | split

theorem swapRecorder_keeps (hregs : F.regs) (hrecs : F.recs) (d : Nat) (b : List Byte) (h : Keeps F s₀ s) :
    Keeps F s₀ (swapRecorder d b s) := by
  unfold swapRecorder
  try dsimp only
  with_reducible repeat' first
    | assumption | exact ring_wf_id | exact Memory.wf_id | intro _ | apply drainAll_keeps | apply State.wr_keeps
    | apply emit_keeps | ((fail_if_success (apply keeps_eta)); apply keeps_mk) | exact Or.inl (by assumption)
    | exact Or.inr rfl | apply keeps_ite

theorem swapRackWide_keeps (hregs : F.regs) (hcore : F.core) (hslc : F.slc) (hhbm : F.hbm) (hnet : F.net)
    (hque : F.que) (hprt : F.prt) (hxlt : F.xlt) (hhost : F.host) (hrecs : F.recs) (hout : F.out) (d : Nat)
    (l : List Section) (h : Keeps F s₀ s) :
    Keeps F s₀ (swapRackWide d l s) := by
  unfold swapRackWide
  try dsimp only
  with_reducible repeat' first
    | assumption | intro _ | apply swapMonitor_keeps | apply swapClock_keeps | apply swapGovernor_keeps
    | apply govRefresh_keeps | apply swapRecorder_keeps | apply swapPort_keeps | apply swapMesh_keeps

theorem swapDie_keeps (hregs : F.regs) (himg : F.img) (hcore : F.core) (hslc : F.slc) (hhbm : F.hbm) (hnet : F.net)
    (hque : F.que) (hprt : F.prt) (hxlt : F.xlt) (hhost : F.host) (hrecs : F.recs) (hout : F.out) (l : Load) (d : Nat)
    (h : Keeps F s₀ s) :
    Keeps F s₀ (swapDie l d s) := by
  unfold swapDie
  try dsimp only
  repeat' first
    | with_reducible first
      | assumption | exact ring_wf_id | exact Memory.wf_id | intro _ | apply each_keeps | apply swapHalf_keeps
      | apply swapFailures_keeps | apply swapWarden_keeps | apply swapModes_keeps | apply swapQueues_keeps
      | apply swapRackWide_keeps | ((fail_if_success (apply keeps_eta)); apply keeps_mk)
      | exact Or.inl (by assumption) | exact Or.inr rfl | apply keeps_ite
    | split

theorem doSwap_keeps (hregs : F.regs) (hrack : F.rack) (hboot : F.boot) (himg : F.img) (hcore : F.core) (hslc : F.slc)
    (hhbm : F.hbm) (hnet : F.net) (hque : F.que) (hprt : F.prt) (hxlt : F.xlt) (hhost : F.host) (hrecs : F.recs)
    (hout : F.out) (a : Nat) (h : Keeps F s₀ s) :
    Keeps F s₀ (doSwap a s) := by
  unfold doSwap
  try dsimp only
  repeat' first
    | with_reducible first
      | assumption | intro _ | apply commitRack_keeps | apply swapDie_keeps | apply setLoad_keeps
      | apply imgStatus_keeps | apply keeps_ite
    | split

theorem arm_keeps (hregs : F.regs) (hrack : F.rack) (hboot : F.boot) (himg : F.img) (hcore : F.core) (hslc : F.slc)
    (hhbm : F.hbm) (hnet : F.net) (hque : F.que) (hprt : F.prt) (hxlt : F.xlt) (hhost : F.host) (hrecs : F.recs)
    (hout : F.out) (a : Nat) (h : Keeps F s₀ s) :
    Keeps F s₀ (arm a s) := by
  unfold arm
  try dsimp only
  repeat' first
    | with_reducible first
      | assumption | intro _ | apply each_keeps | apply sendTo_keeps | apply State.wr_keeps | apply imgStatus_keeps
      | apply setLoad_keeps | apply doSwap_keeps | apply keeps_ite
    | split

theorem imgCommit_keeps (hregs : F.regs) (hrack : F.rack) (hboot : F.boot) (himg : F.img) (hcore : F.core)
    (hslc : F.slc) (hhbm : F.hbm) (hnet : F.net) (hque : F.que) (hprt : F.prt) (hxlt : F.xlt) (hhost : F.host)
    (hrecs : F.recs) (hout : F.out) (a : Nat) (time : Word) (h : Keeps F s₀ s) :
    Keeps F s₀ (imgCommit a time s) := by
  unfold imgCommit
  try dsimp only
  repeat' first
    | with_reducible first
      | assumption | intro _ | apply arm_keeps | apply imgCmd_keeps | apply setLoad_keeps | apply keeps_ite
    | split

theorem execImgCommit_keeps (hregs : F.regs) (hrack : F.rack) (hboot : F.boot) (himg : F.img) (hcore : F.core)
    (hslc : F.slc) (hhbm : F.hbm) (hnet : F.net) (hque : F.que) (hprt : F.prt) (hxlt : F.xlt) (hhost : F.host)
    (hrecs : F.recs) (hout : F.out) (agent : Nat) (time : Word) (h : Keeps F s₀ s) :
    KeepsX F s₀ (execImgCommit agent time s) := by
  unfold execImgCommit
  try dsimp only
  with_reducible repeat' first
    | assumption | intro _ | apply imgCommit_keeps | apply KeepsX.next

theorem commitRelay_keeps (hregs : F.regs) (hrack : F.rack) (hboot : F.boot) (himg : F.img) (hcore : F.core)
    (hslc : F.slc) (hhbm : F.hbm) (hnet : F.net) (hque : F.que) (hprt : F.prt) (hxlt : F.xlt) (hhost : F.host)
    (hrecs : F.recs) (hout : F.out) (a sender : Nat) (serial time : Word) (h : Keeps F s₀ s) :
    Keeps F s₀ (commitRelay a sender serial time s) := by
  unfold commitRelay
  try dsimp only
  repeat' first
    | with_reducible first
      | assumption | intro _ | apply arm_keeps | apply keeps_ite
    | split

theorem execCommitRelay_keeps (hregs : F.regs) (hrack : F.rack) (hboot : F.boot) (himg : F.img) (hcore : F.core)
    (hslc : F.slc) (hhbm : F.hbm) (hnet : F.net) (hque : F.que) (hprt : F.prt) (hxlt : F.xlt) (hhost : F.host)
    (hrecs : F.recs) (hout : F.out) (agent sender : Nat) (serial time : Word) (h : Keeps F s₀ s) :
    KeepsX F s₀ (execCommitRelay agent sender serial time s) := by
  unfold execCommitRelay
  try dsimp only
  with_reducible repeat' first
    | assumption | intro _ | apply commitRelay_keeps | apply KeepsX.next

theorem commitSwap_keeps (hregs : F.regs) (hrack : F.rack) (hboot : F.boot) (himg : F.img) (hcore : F.core)
    (hslc : F.slc) (hhbm : F.hbm) (hnet : F.net) (hque : F.que) (hprt : F.prt) (hxlt : F.xlt) (hhost : F.host)
    (hrecs : F.recs) (hout : F.out) (a : Nat) (h : Keeps F s₀ s) :
    Keeps F s₀ (commitSwap a s) := by
  unfold commitSwap
  try dsimp only
  repeat' first
    | with_reducible first
      | assumption | intro _ | apply doSwap_keeps | apply keeps_ite
    | split

theorem execCommitSwap_keeps (hregs : F.regs) (hrack : F.rack) (hboot : F.boot) (himg : F.img) (hcore : F.core)
    (hslc : F.slc) (hhbm : F.hbm) (hnet : F.net) (hque : F.que) (hprt : F.prt) (hxlt : F.xlt) (hhost : F.host)
    (hrecs : F.recs) (hout : F.out) (agent : Nat) (h : Keeps F s₀ s) :
    KeepsX F s₀ (execCommitSwap agent s) := by
  unfold execCommitSwap
  try dsimp only
  with_reducible repeat' first
    | assumption | intro _ | apply commitSwap_keeps | apply KeepsX.next

theorem commitRecord_keeps (hrecs : F.recs) (l : Load) (us a : Nat) (h : Keeps F s₀ s) :
    Keeps F s₀ (commitRecord l us a s) := by
  unfold commitRecord
  try dsimp only
  with_reducible repeat' first
    | assumption | intro _ | apply agentEmit_keeps

theorem imgRelease_keeps (hregs : F.regs) (hboot : F.boot) (himg : F.img) (hrecs : F.recs) (h : Keeps F s₀ s) :
    Keeps F s₀ (imgRelease s) := by
  unfold imgRelease
  try dsimp only
  repeat' first
    | with_reducible first
      | assumption | exact ring_wf_id | exact Memory.wf_id | intro _ | apply each_keeps | apply resumePart_keeps
      | apply imgResult_keeps | apply imgCmd_keeps | apply commitRecord_keeps | apply uartPrint_keeps
      | apply State.wr_keeps | ((fail_if_success (apply keeps_eta)); apply keeps_mk) | exact Or.inl (by assumption)
      | exact Or.inr rfl | apply keeps_ite
    | split

theorem execImgRelease_keeps (hregs : F.regs) (hboot : F.boot) (himg : F.img) (hrecs : F.recs) (h : Keeps F s₀ s) :
    KeepsX F s₀ (execImgRelease s) := by
  unfold execImgRelease
  try dsimp only
  with_reducible repeat' first
    | assumption | intro _ | apply imgRelease_keeps | apply KeepsX.next

theorem loadAgentTimeout_keeps (hregs : F.regs) (himg : F.img) (hrecs : F.recs) (a : Nat) (h : Keeps F s₀ s) :
    Keeps F s₀ (loadAgentTimeout a s) := by
  unfold loadAgentTimeout
  try dsimp only
  repeat' first
    | with_reducible first
      | assumption | exact ring_wf_id | exact Memory.wf_id | intro _ | apply each_keeps | apply State.wr_keeps
      | apply agentEmit_keeps | apply imgResult_keeps | ((fail_if_success (apply keeps_eta)); apply keeps_mk)
      | exact Or.inl (by assumption) | exact Or.inr rfl | apply keeps_ite
    | split

theorem execLoadAgentTimeout_keeps (hregs : F.regs) (himg : F.img) (hrecs : F.recs) (agent : Nat) (h : Keeps F s₀ s) :
    KeepsX F s₀ (execLoadAgentTimeout agent s) := by
  unfold execLoadAgentTimeout
  try dsimp only
  with_reducible repeat' first
    | assumption | intro _ | apply loadAgentTimeout_keeps | apply KeepsX.next

end Sys2Proof.Machine
end

