-- ==== Sys2Proof/Laws/KeepsSliceCmds.lean ====
section
/-! SUPPORT. What each effect of Machine/SliceCmds.lean may change (see Laws/Keeps.lean). -/

namespace Sys2Proof.Machine

variable {F : Frame} {s₀ s : State}

theorem onSlice_keeps (n : Nat) (f : State → State) (h_f : ∀ u_, Keeps F s₀ u_ → Keeps F s₀ (f u_)) (h : Keeps F s₀ s)
    :
    Keeps F s₀ (onSlice n f s) := by
  unfold onSlice
  try dsimp only
  with_reducible repeat' first
    | assumption | intro _ | apply h_f | apply keeps_ite

theorem execSliceReadRequest_keeps (hregs : F.regs) (hcore : F.core) (hslc : F.slc) (hhbm : F.hbm) (hnet : F.net)
    (hque : F.que) (hprt : F.prt) (hxlt : F.xlt) (hhost : F.host) (hrecs : F.recs) (hout : F.out) (d n : Nat)
    (r : SliceReq) (h : Keeps F s₀ s) :
    KeepsX F s₀ (execSliceReadRequest d n r s) := by
  unfold execSliceReadRequest
  try dsimp only
  with_reducible repeat' first
    | assumption | intro _ | apply onDie_keeps | apply onSlice_keeps | apply afterSlice_keeps
    | apply sliceRequest_keeps

theorem execSliceWriteRequest_keeps (hregs : F.regs) (hcore : F.core) (hslc : F.slc) (hhbm : F.hbm) (hnet : F.net)
    (hque : F.que) (hprt : F.prt) (hxlt : F.xlt) (hhost : F.host) (hrecs : F.recs) (hout : F.out) (d n : Nat)
    (r : SliceReq) (mask : BitVec 32) (data : SectorData) (h : Keeps F s₀ s) :
    KeepsX F s₀ (execSliceWriteRequest d n r mask data s) := by
  unfold execSliceWriteRequest
  try dsimp only
  with_reducible repeat' first
    | assumption | intro _ | apply onDie_keeps | apply onSlice_keeps | apply afterSlice_keeps
    | apply sliceRequest_keeps

theorem execSliceAtomicRequest_keeps (hregs : F.regs) (hcore : F.core) (hslc : F.slc) (hhbm : F.hbm) (hnet : F.net)
    (hque : F.que) (hprt : F.prt) (hxlt : F.xlt) (hhost : F.host) (hrecs : F.recs) (hout : F.out) (d n : Nat)
    (r : SliceReq) (op : Nat) (wide signed : Bool) (a b : Word) (h : Keeps F s₀ s) :
    KeepsX F s₀ (execSliceAtomicRequest d n r op wide signed a b s) := by
  unfold execSliceAtomicRequest
  try dsimp only
  with_reducible repeat' first
    | assumption | intro _ | apply onDie_keeps | apply onSlice_keeps | apply afterSlice_keeps
    | apply sliceRequest_keeps

theorem waitOver_keeps (hslc : F.slc) (requester : Nat) (what : RetryOf) (h : Keeps F s₀ s) :
    Keeps F s₀ (waitOver requester what s) := by
  unfold waitOver
  try dsimp only
  with_reducible repeat' first
    | assumption | intro _ | apply putRetry_keeps

theorem retryGo_keeps (hregs : F.regs) (hcore : F.core) (hslc : F.slc) (hhbm : F.hbm) (hnet : F.net) (hque : F.que)
    (hprt : F.prt) (hxlt : F.xlt) (hhost : F.host) (hrecs : F.recs) (hout : F.out) (requester : Nat) (b : BackOff)
    (h : Keeps F s₀ s) :
    Keeps F s₀ (retryGo requester b s) := by
  unfold retryGo
  try dsimp only
  repeat' first
    | with_reducible first
      | assumption | intro _ | apply endBackOff_keeps | apply afterSlice_keeps | apply sliceRequest_keeps
      | apply waitOver_keeps | apply sendMsg_keeps | apply keeps_ite
    | split

theorem retryBackoffExpiry_keeps (hregs : F.regs) (hcore : F.core) (hslc : F.slc) (hhbm : F.hbm) (hnet : F.net)
    (hque : F.que) (hprt : F.prt) (hxlt : F.xlt) (hhost : F.host) (hrecs : F.recs) (hout : F.out) (requester : Nat)
    (h : Keeps F s₀ s) :
    Keeps F s₀ (retryBackoffExpiry requester s) := by
  unfold retryBackoffExpiry
  try dsimp only
  repeat' first
    | with_reducible first
      | assumption | intro _ | apply retryGo_keeps
    | split

theorem execRetryBackoffExpiry_keeps (hregs : F.regs) (hcore : F.core) (hslc : F.slc) (hhbm : F.hbm) (hnet : F.net)
    (hque : F.que) (hprt : F.prt) (hxlt : F.xlt) (hhost : F.host) (hrecs : F.recs) (hout : F.out) (requester : Nat)
    (h : Keeps F s₀ s) :
    KeepsX F s₀ (execRetryBackoffExpiry requester s) := by
  unfold execRetryBackoffExpiry
  try dsimp only
  with_reducible repeat' first
    | assumption | intro _ | apply retryBackoffExpiry_keeps | apply KeepsX.next

theorem starveHoldLapse_keeps (hslc : F.slc) (d n : Nat) (h : Keeps F s₀ s) :
    Keeps F s₀ (starveHoldLapse d n s) := by
  unfold starveHoldLapse
  try dsimp only
  repeat' first
    | with_reducible first
      | assumption | exact ring_wf_id | exact Memory.wf_id | intro _ | apply holdForHead_keeps
      | ((fail_if_success (apply keeps_eta)); apply keeps_mk) | exact Or.inl (by assumption) | exact Or.inr rfl
      | apply keeps_ite
    | split

theorem execStarveHoldLapse_keeps (hslc : F.slc) (d n : Nat) (h : Keeps F s₀ s) :
    KeepsX F s₀ (execStarveHoldLapse d n s) := by
  unfold execStarveHoldLapse
  try dsimp only
  with_reducible repeat' first
    | assumption | intro _ | apply onDie_keeps | apply starveHoldLapse_keeps

theorem sliceFillReturn_keeps (hregs : F.regs) (hcore : F.core) (hslc : F.slc) (hhbm : F.hbm) (hque : F.que)
    (hprt : F.prt) (hxlt : F.xlt) (hhost : F.host) (hrecs : F.recs) (hout : F.out) (d n la : Nat) (bad : BitVec 4)
    (h : Keeps F s₀ s) :
    Keeps F s₀ (sliceFillReturn d n la bad s) := by
  unfold sliceFillReturn
  try dsimp only
  repeat' first
    | with_reducible first
      | assumption | intro _ | apply afterSlice_keeps | apply fillReturn_keeps
    | split

theorem execSliceFillReturn_keeps (hregs : F.regs) (hcore : F.core) (hslc : F.slc) (hhbm : F.hbm) (hque : F.que)
    (hprt : F.prt) (hxlt : F.xlt) (hhost : F.host) (hrecs : F.recs) (hout : F.out) (d n line : Nat) (bad : BitVec 4)
    (h : Keeps F s₀ s) :
    KeepsX F s₀ (execSliceFillReturn d n line bad s) := by
  unfold execSliceFillReturn
  try dsimp only
  with_reducible repeat' first
    | assumption | intro _ | apply onDie_keeps | apply sliceFillReturn_keeps

theorem deadWaiters_keeps (hslc : F.slc) (m : Mshr) (h : Keeps F s₀ s) :
    Keeps F s₀ (deadWaiters m s) := by
  unfold deadWaiters
  try dsimp only
  with_reducible repeat' first
    | assumption | intro _ | apply each_keeps | apply answer_keeps | apply putMshr_keeps

theorem failSlice_keeps (hregs : F.regs) (hcore : F.core) (hslc : F.slc) (hhbm : F.hbm) (hque : F.que) (hprt : F.prt)
    (hxlt : F.xlt) (hhost : F.host) (hrecs : F.recs) (hout : F.out) (d n cause : Nat) (h : Keeps F s₀ s) :
    Keeps F s₀ (failSlice d n cause s) := by
  unfold failSlice
  try dsimp only
  with_reducible repeat' first
    | assumption | exact ring_wf_id | exact Memory.wf_id | intro _ | apply degrade_keeps | apply State.wrBit_keeps
    | apply each_keeps | apply fillReturn_keeps | apply deadWaiters_keeps | apply takeFetched_keeps
    | apply faultWith_keeps | apply emit_keeps | ((fail_if_success (apply keeps_eta)); apply keeps_mk)
    | exact Or.inl (by assumption) | exact Or.inr rfl | apply keeps_ite

theorem fillTimeout_keeps (hregs : F.regs) (hcore : F.core) (hslc : F.slc) (hhbm : F.hbm) (hque : F.que)
    (hprt : F.prt) (hxlt : F.xlt) (hhost : F.host) (hrecs : F.recs) (hout : F.out) (d n la : Nat) (h : Keeps F s₀ s) :
    Keeps F s₀ (fillTimeout d n la s) := by
  unfold fillTimeout
  try dsimp only
  repeat' first
    | with_reducible first
      | assumption | intro _ | apply failSlice_keeps | apply keeps_ite
    | split

theorem execFillTimeout_keeps (hregs : F.regs) (hcore : F.core) (hslc : F.slc) (hhbm : F.hbm) (hque : F.que)
    (hprt : F.prt) (hxlt : F.xlt) (hhost : F.host) (hrecs : F.recs) (hout : F.out) (d n line : Nat) (h : Keeps F s₀ s)
    :
    KeepsX F s₀ (execFillTimeout d n line s) := by
  unfold execFillTimeout
  try dsimp only
  with_reducible repeat' first
    | assumption | intro _ | apply onDie_keeps | apply onSlice_keeps | apply fillTimeout_keeps

theorem execChannelFailure_keeps (hregs : F.regs) (hcore : F.core) (hslc : F.slc) (hhbm : F.hbm) (hque : F.que)
    (hprt : F.prt) (hxlt : F.xlt) (hhost : F.host) (hrecs : F.recs) (hout : F.out) (d n : Nat) (h : Keeps F s₀ s) :
    KeepsX F s₀ (execChannelFailure d n s) := by
  unfold execChannelFailure
  try dsimp only
  with_reducible repeat' first
    | assumption | intro _ | apply onDie_keeps | apply onSlice_keeps | apply failSlice_keeps

theorem refetchGuest_keeps (hregs : F.regs) (hslc : F.slc) (hxlt : F.xlt) (l : Line) (sec : Nat) (h : Keeps F s₀ s) :
    Keeps F s₀ (refetchGuest l sec s) := by
  unfold refetchGuest
  try dsimp only
  repeat' first
    | with_reducible first
      | assumption | intro _ | apply putLine_keeps | apply cohRequest_keeps | apply slicePeaks_keeps
      | apply putMshr_keeps | apply keeps_ite | apply keeps_getD | apply keepsP_getD
    | split

theorem dataError_keeps (hregs : F.regs) (hslc : F.slc) (hxlt : F.xlt) (hrecs : F.recs) (d n la sec : Nat)
    (h : Keeps F s₀ s) :
    Keeps F s₀ (dataError d n la sec s) := by
  unfold dataError
  try dsimp only
  repeat' first
    | with_reducible first
      | assumption | intro _ | apply State.count_keeps | apply poisonRecord_keeps | apply putLine_keeps
      | apply correctable_keeps | apply refetchGuest_keeps | apply keeps_ite
    | split

theorem loseEntry_keeps (hregs : F.regs) (hslc : F.slc) (hhbm : F.hbm) (hxlt : F.xlt) (hrecs : F.recs)
    (d n k la : Nat) (h : Keeps F s₀ s) :
    Keeps F s₀ (loseEntry d n k la s) := by
  unfold loseEntry
  try dsimp only
  repeat' first
    | with_reducible first
      | assumption | intro _ | apply lostLine_keeps | apply poisonLine_keeps | apply startHomeWrite_keeps
      | apply keeps_ite
    | split

theorem loseHomed_keeps (hregs : F.regs) (hslc : F.slc) (hhbm : F.hbm) (hxlt : F.xlt) (hrecs : F.recs) (d n : Nat)
    (h : Keeps F s₀ s) :
    Keeps F s₀ (loseHomed d n s) := by
  unfold loseHomed
  try dsimp only
  with_reducible repeat' first
    | assumption | intro _ | apply each_keeps | apply loseEntry_keeps | apply lostSummary_keeps

theorem dirError_keeps (hregs : F.regs) (hcore : F.core) (hslc : F.slc) (hhbm : F.hbm) (hque : F.que) (hprt : F.prt)
    (hxlt : F.xlt) (hhost : F.host) (hrecs : F.recs) (hout : F.out) (d n : Nat) (h : Keeps F s₀ s) :
    Keeps F s₀ (dirError d n s) := by
  unfold dirError
  try dsimp only
  with_reducible repeat' first
    | assumption | intro _ | apply loseHomed_keeps | apply failSlice_keeps | apply keeps_ite

theorem sliceSramError_keeps (hregs : F.regs) (hcore : F.core) (hslc : F.slc) (hhbm : F.hbm) (hque : F.que)
    (hprt : F.prt) (hxlt : F.xlt) (hhost : F.host) (hrecs : F.recs) (hout : F.out) (d n kind la sec : Nat)
    (h : Keeps F s₀ s) :
    Keeps F s₀ (sliceSramError d n kind la sec s) := by
  unfold sliceSramError
  try dsimp only
  repeat' first
    | with_reducible first
      | assumption | intro _ | apply correctable_keeps | apply State.count_keeps | apply dataError_keeps
      | apply failSlice_keeps | apply dirError_keeps
    | split

theorem execSliceSramError_keeps (hregs : F.regs) (hcore : F.core) (hslc : F.slc) (hhbm : F.hbm) (hque : F.que)
    (hprt : F.prt) (hxlt : F.xlt) (hhost : F.host) (hrecs : F.recs) (hout : F.out) (d n kind line sector : Nat)
    (h : Keeps F s₀ s) :
    KeepsX F s₀ (execSliceSramError d n kind line sector s) := by
  unfold execSliceSramError
  try dsimp only
  with_reducible repeat' first
    | assumption | intro _ | apply onDie_keeps | apply onSlice_keeps | apply sliceSramError_keeps

theorem halfLinkCrossing_keeps (hregs : F.regs) (hcore : F.core) (hslc : F.slc) (hhbm : F.hbm) (hnet : F.net)
    (hque : F.que) (hprt : F.prt) (hxlt : F.xlt) (hhost : F.host) (hrecs : F.recs) (hout : F.out) (d : Nat)
    (p : HalfPkt) (h : Keeps F s₀ s) :
    Keeps F s₀ (halfLinkCrossing d p s) := by
  unfold halfLinkCrossing
  try dsimp only
  with_reducible repeat' first
    | assumption | intro _ | apply State.count_keeps | apply halfRefuse_keeps | apply accessFault_keeps
    | apply keeps_ite

theorem execHalfLinkCrossing_keeps (hregs : F.regs) (hcore : F.core) (hslc : F.slc) (hhbm : F.hbm) (hnet : F.net)
    (hque : F.que) (hprt : F.prt) (hxlt : F.xlt) (hhost : F.host) (hrecs : F.recs) (hout : F.out) (d : Nat)
    (p : HalfPkt) (h : Keeps F s₀ s) :
    KeepsX F s₀ (execHalfLinkCrossing d p s) := by
  unfold execHalfLinkCrossing
  try dsimp only
  with_reducible repeat' first
    | assumption | intro _ | apply onDie_keeps | apply halfLinkCrossing_keeps

theorem pinOne_keeps (hregs : F.regs) (hslc : F.slc) (hhbm : F.hbm) (hxlt : F.xlt) (d p : Nat) (x : Nat × Nat)
    (h : Keeps F s₀ s) :
    KeepsO F s₀ (pinOne d p x s) := by
  unfold pinOne
  try dsimp only
  repeat' first
    | with_reducible first
      | assumption | intro _ | apply putLine_keeps | apply allocWay_keeps | apply settleHomeRead_keeps
      | apply fetchFrom_keeps | apply keeps_ite | exact KeepsO.none | apply KeepsO.some | apply keepsO_ite
      | apply keeps_getD | apply keepsP_getD | refine KeepsO.of ?_ (by assumption)
    | split

theorem pinAll_keeps (hregs : F.regs) (hslc : F.slc) (hhbm : F.hbm) (hxlt : F.xlt) (d p : Nat) (x3 : List (Nat × Nat))
    (h : Keeps F s₀ s) :
    KeepsO F s₀ (pinAll d p x3 s) := by
  induction x3 generalizing d p s with
  | nil =>
    unfold pinAll
    try dsimp only
    repeat' first
      | with_reducible first
        | assumption | intro _ | apply pinOne_keeps | exact KeepsO.none | apply KeepsO.some
      | split
  | cons x_ l_ ih =>
    unfold pinAll
    try dsimp only
    repeat' first
      | with_reducible first
        | assumption | intro _ | apply pinOne_keeps | apply ih | exact KeepsO.none | apply KeepsO.some
        | apply keepsO_bind
      | split

theorem unpinOne_keeps (hslc : F.slc) (d : Nat) (x : Nat × Nat) (h : Keeps F s₀ s) :
    Keeps F s₀ (unpinOne d x s) := by
  unfold unpinOne
  try dsimp only
  repeat' first
    | with_reducible first
      | assumption | intro _ | apply touchLine_keeps | apply putLine_keeps | apply keeps_ite
    | split

theorem pinResult_keeps (hregs : F.regs) (d result done : Nat) (h : Keeps F s₀ s) :
    Keeps F s₀ (pinResult d result done s) := by
  unfold pinResult
  try dsimp only
  with_reducible repeat' first
    | assumption | intro _ | apply State.wr_keeps

theorem pinCmd_keeps (hregs : F.regs) (d op lines p : Nat) (h : Keeps F s₀ s) :
    Keeps F s₀ (pinCmd d op lines p s) := by
  unfold pinCmd
  try dsimp only
  with_reducible repeat' first
    | assumption | intro _ | apply State.wr_keeps

theorem ucPin_keeps (hregs : F.regs) (hslc : F.slc) (hhbm : F.hbm) (hxlt : F.xlt) (d : Nat) (src : Source)
    (lines p : Nat) (h : Keeps F s₀ s) :
    Keeps F s₀ (ucPin d src lines p s) := by
  unfold ucPin
  try dsimp only
  repeat' first
    | with_reducible first
      | assumption | intro _ | apply pinCmd_keeps | apply pinResult_keeps | apply pinAll_keeps | exact KeepsO.none
      | apply KeepsO.some | refine KeepsO.of ?_ (by assumption)
    | split

theorem ucUnpin_keeps (hregs : F.regs) (hslc : F.slc) (d : Nat) (src : Source) (lines p : Nat) (h : Keeps F s₀ s) :
    Keeps F s₀ (ucUnpin d src lines p s) := by
  unfold ucUnpin
  try dsimp only
  repeat' first
    | with_reducible first
      | assumption | intro _ | apply pinCmd_keeps | apply pinResult_keeps | apply each_keeps | apply unpinOne_keeps
    | split

theorem execUcPin_keeps (hregs : F.regs) (hslc : F.slc) (hhbm : F.hbm) (hxlt : F.xlt) (d : Nat) (src : Source)
    (lines part : Nat) (h : Keeps F s₀ s) :
    KeepsX F s₀ (execUcPin d src lines part s) := by
  unfold execUcPin
  try dsimp only
  with_reducible repeat' first
    | assumption | intro _ | apply onDie_keeps | apply ucPin_keeps

theorem execUcUnpin_keeps (hregs : F.regs) (hslc : F.slc) (d : Nat) (src : Source) (lines part : Nat)
    (h : Keeps F s₀ s) :
    KeepsX F s₀ (execUcUnpin d src lines part s) := by
  unfold execUcUnpin
  try dsimp only
  with_reducible repeat' first
    | assumption | intro _ | apply onDie_keeps | apply ucUnpin_keeps

end Sys2Proof.Machine
end

