-- ==== Sys2Proof/Laws/KeepsRegisters.lean ====
section
/-! SUPPORT. What each effect of Machine/Registers.lean may change (see Laws/Keeps.lean). -/

namespace Sys2Proof.Machine

variable {F : Frame} {s₀ s : State}

theorem readTakes_keeps (hregs : F.regs) (d : Nat) (src : Source) (addr size : Nat) (h : Keeps F s₀ s) :
    Keeps F s₀ (readTakes d src addr size s) := by
  unfold readTakes
  try dsimp only
  with_reducible repeat' first
    | assumption | intro _ | apply each_keeps | apply State.wr_keeps | apply mboxInTaken_keeps
    | apply mboxOutTaken_keeps | apply keeps_ite

theorem portRead_keeps (hregs : F.regs) (d : Nat) (src : Source) (addr size : Nat) (h : Keeps F s₀ s) :
    KeepsP F s₀ (portRead d src addr size s) := by
  unfold portRead
  try dsimp only
  with_reducible repeat' first
    | assumption | intro _ | apply readTakes_keeps | apply keeps_ite | apply KeepsP.snd
    | ((fail_if_success (apply KeepsP.eta)); apply KeepsP.mk') | apply keepsP_ite

theorem plainWrite_keeps (hregs : F.regs) (d : Nat) (fs : List Fld) (v : Nat) (h : Keeps F s₀ s) :
    Keeps F s₀ (plainWrite d fs v s) := by
  unfold plainWrite
  try dsimp only
  with_reducible repeat' first
    | assumption | intro _ | apply each_keeps | apply State.wr_keeps

theorem commandWrite_keeps (hregs : F.regs) (himg : F.img) (hcore : F.core) (hslc : F.slc) (hhbm : F.hbm)
    (hnet : F.net) (hque : F.que) (hprt : F.prt) (hxlt : F.xlt) (hhost : F.host) (hrecs : F.recs) (hout : F.out)
    (d : Nat) (src : Source) (base v : Nat) (h : Keeps F s₀ s) :
    KeepsOP F s₀ (commandWrite d src base v s) := by
  unfold commandWrite
  try dsimp only
  repeat' first
    | with_reducible first
      | assumption | intro _ | apply imgAbort_keeps | apply queCtrlWrite_keeps | apply movCommand_keeps
      | apply movSlotWrite_keeps | apply movProgWrite_keeps | apply ucPin_keeps | apply ucUnpin_keeps
      | apply cohQuery_keeps | apply goLive_keeps | apply instResetCmd_keeps | apply partResetCmd_keeps
      | apply gateRequest_keeps | apply irqMapAddrWrite_keeps | apply irqMapDataWrite_keeps | apply invCommand_keeps
      | apply ctxBaseWrite_keeps | apply hostAbi_keeps | apply ptWrite_keeps | apply ptRead_keeps
      | apply ptRetire_keeps | apply recTest_keeps | apply wardStrWrite_keeps | apply mboxInWrite_keeps
      | apply mboxOutWrite_keeps | apply keeps_ite | exact KeepsOP.none | apply KeepsOP.some | apply keepsOP_ite
      | refine KeepsOP.of ?_ (by assumption) | refine KeepsOP.pair ?_ (by assumption)
    | split

theorem portWrite_keeps (hregs : F.regs) (himg : F.img) (hcore : F.core) (hslc : F.slc) (hhbm : F.hbm) (hnet : F.net)
    (hque : F.que) (hprt : F.prt) (hxlt : F.xlt) (hhost : F.host) (hrecs : F.recs) (hout : F.out) (d : Nat)
    (src : Source) (addr size v : Nat) (h : Keeps F s₀ s) :
    KeepsP F s₀ (portWrite d src addr size v s) := by
  unfold portWrite
  try dsimp only
  repeat' first
    | with_reducible first
      | assumption | intro _ | apply wardDenied_keeps | apply commandWrite_keeps | apply plainWrite_keeps
      | apply foldl_keeps | apply keepsP_foldl | apply keepsQ_foldl | apply keeps_ite | exact KeepsOP.none
      | apply KeepsOP.some | apply keepsOP_ite | apply KeepsP.snd
      | ((fail_if_success (apply KeepsP.eta)); apply KeepsP.mk') | apply keepsP_ite
      | refine KeepsOP.of ?_ (by assumption) | refine KeepsOP.pair ?_ (by assumption)
      | refine KeepsP.of ?_ (by assumption)
    | split

theorem registerWrite_keeps (hregs : F.regs) (himg : F.img) (hcore : F.core) (hslc : F.slc) (hhbm : F.hbm)
    (hnet : F.net) (hque : F.que) (hprt : F.prt) (hxlt : F.xlt) (hhost : F.host) (hrecs : F.recs) (hout : F.out)
    (d addr size : Nat) (src : Source) (v : Word) (h : Keeps F s₀ s) :
    Keeps F s₀ (registerWrite d addr size src v s) := by
  unfold registerWrite
  try dsimp only
  with_reducible repeat' first
    | assumption | intro _ | apply portWrite_keeps | apply keeps_ite | apply KeepsP.snd

theorem execRegisterWrite_keeps (hregs : F.regs) (himg : F.img) (hcore : F.core) (hslc : F.slc) (hhbm : F.hbm)
    (hnet : F.net) (hque : F.que) (hprt : F.prt) (hxlt : F.xlt) (hhost : F.host) (hrecs : F.recs) (hout : F.out)
    (d addr size : Nat) (src : Source) (v : Word) (h : Keeps F s₀ s) :
    KeepsX F s₀ (execRegisterWrite d addr size src v s) := by
  unfold execRegisterWrite
  try dsimp only
  with_reducible repeat' first
    | assumption | intro _ | apply onDie_keeps | apply registerWrite_keeps

theorem readMany_keeps (hregs : F.regs) (hout : F.out) (d : Nat) (src : Source) (size x4 x5 : Nat) (h : Keeps F s₀ s)
    :
    Keeps F s₀ (readMany d src size x4 x5 s) := by
  induction x4 generalizing d src size x5 s with
  | zero =>
    unfold readMany
    try dsimp only
    repeat' first
      | with_reducible first
        | assumption
      | split
  | succ n_ ih =>
    unfold readMany
    try dsimp only
    repeat' first
      | with_reducible first
        | assumption | intro _ | apply portRead_keeps | apply answerRead_keeps | apply ih | apply KeepsP.snd
        | ((fail_if_success (apply KeepsP.eta)); apply KeepsP.mk') | refine KeepsP.of ?_ (by assumption)
      | split

theorem rcRegisterRead_keeps (hregs : F.regs) (hout : F.out) (d addr size : Nat) (src : Source) (h : Keeps F s₀ s) :
    Keeps F s₀ (rcRegisterRead d addr size src s) := by
  unfold rcRegisterRead
  try dsimp only
  with_reducible repeat' first
    | assumption | intro _ | apply readMany_keeps | apply keeps_ite

theorem execRcRegisterRead_keeps (hregs : F.regs) (hout : F.out) (d addr size : Nat) (src : Source) (h : Keeps F s₀ s)
    :
    KeepsX F s₀ (execRcRegisterRead d addr size src s) := by
  unfold execRcRegisterRead
  try dsimp only
  with_reducible repeat' first
    | assumption | intro _ | apply onDie_keeps | apply rcRegisterRead_keeps

theorem mgpReads_keeps (hregs : F.regs) (d x2 x3 : Nat) (h : Keeps F s₀ s) :
    KeepsP F s₀ (mgpReads d x2 x3 s) := by
  induction x2 generalizing d x3 s with
  | zero =>
    unfold mgpReads
    try dsimp only
    repeat' first
      | with_reducible first
        | assumption | intro _ | apply portRead_keeps | apply keeps_ite | apply KeepsP.snd
        | ((fail_if_success (apply KeepsP.eta)); apply KeepsP.mk')
      | split
  | succ n_ ih =>
    unfold mgpReads
    try dsimp only
    repeat' first
      | with_reducible first
        | assumption | intro _ | apply portRead_keeps | apply ih | apply keeps_ite | apply KeepsP.snd
        | ((fail_if_success (apply KeepsP.eta)); apply KeepsP.mk') | apply keepsP_ite
        | refine KeepsP.of ?_ (by assumption)
      | split

theorem mgpWrites_keeps (hregs : F.regs) (himg : F.img) (hcore : F.core) (hslc : F.slc) (hhbm : F.hbm) (hnet : F.net)
    (hque : F.que) (hprt : F.prt) (hxlt : F.xlt) (hhost : F.host) (hrecs : F.recs) (hout : F.out) (d x2 x3 : Nat)
    (x4 : List Byte) (h : Keeps F s₀ s) :
    KeepsP F s₀ (mgpWrites d x2 x3 x4 s) := by
  induction x2 generalizing d x3 x4 s with
  | zero =>
    unfold mgpWrites
    try dsimp only
    repeat' first
      | with_reducible first
        | assumption | intro _ | apply portWrite_keeps | apply keeps_ite | apply KeepsP.snd
        | ((fail_if_success (apply KeepsP.eta)); apply KeepsP.mk')
      | split
  | succ n_ ih =>
    unfold mgpWrites
    try dsimp only
    repeat' first
      | with_reducible first
        | assumption | intro _ | apply portWrite_keeps | apply ih | apply keeps_ite | apply KeepsP.snd
        | ((fail_if_success (apply KeepsP.eta)); apply KeepsP.mk') | apply keepsP_ite
        | refine KeepsP.of ?_ (by assumption)
      | split

theorem mgpResponse_keeps (hout : F.out) (req : List Byte) (die status done : Nat) (data : List Byte)
    (h : Keeps F s₀ s) :
    Keeps F s₀ (mgpResponse req die status done data s) := by
  unfold mgpResponse
  try dsimp only
  with_reducible repeat' first
    | assumption | exact ring_wf_id | exact Memory.wf_id | intro _
    | ((fail_if_success (apply keeps_eta)); apply keeps_mk) | exact Or.inl (by assumption) | exact Or.inr rfl

theorem mgpRead_keeps (hregs : F.regs) (hout : F.out) (b : List Byte) (h : Keeps F s₀ s) :
    Keeps F s₀ (mgpRead b s) := by
  unfold mgpRead
  try dsimp only
  repeat' first
    | with_reducible first
      | assumption | intro _ | apply mgpResponse_keeps | apply mgpReads_keeps | apply keeps_ite | apply KeepsP.snd
      | ((fail_if_success (apply KeepsP.eta)); apply KeepsP.mk') | apply keepsP_ite
      | refine KeepsP.of ?_ (by assumption)
    | split

theorem execRegRead_keeps (hregs : F.regs) (hout : F.out) (frame : List Byte) (h : Keeps F s₀ s) :
    KeepsX F s₀ (execRegRead frame s) := by
  unfold execRegRead
  try dsimp only
  with_reducible repeat' first
    | assumption | intro _ | apply mgpRead_keeps | apply KeepsX.next

theorem mgpWriteAt_keeps (hregs : F.regs) (himg : F.img) (hcore : F.core) (hslc : F.slc) (hhbm : F.hbm) (hnet : F.net)
    (hque : F.que) (hprt : F.prt) (hxlt : F.xlt) (hhost : F.host) (hrecs : F.recs) (hout : F.out) (b : List Byte)
    (d : Nat) (h : Keeps F s₀ s) :
    Keeps F s₀ (mgpWriteAt b d s) := by
  unfold mgpWriteAt
  try dsimp only
  repeat' first
    | with_reducible first
      | assumption | intro _ | apply mgpWrites_keeps | apply mgpResponse_keeps | apply KeepsP.snd
    | split

theorem mgpWrite_keeps (hregs : F.regs) (himg : F.img) (hcore : F.core) (hslc : F.slc) (hhbm : F.hbm) (hnet : F.net)
    (hque : F.que) (hprt : F.prt) (hxlt : F.xlt) (hhost : F.host) (hrecs : F.recs) (hout : F.out) (b : List Byte)
    (h : Keeps F s₀ s) :
    Keeps F s₀ (mgpWrite b s) := by
  unfold mgpWrite
  try dsimp only
  repeat' first
    | with_reducible first
      | assumption | intro _ | apply mgpResponse_keeps | apply each_keeps | apply mgpWriteAt_keeps | apply keeps_ite
    | split

theorem execRegWrite_keeps (hregs : F.regs) (himg : F.img) (hcore : F.core) (hslc : F.slc) (hhbm : F.hbm)
    (hnet : F.net) (hque : F.que) (hprt : F.prt) (hxlt : F.xlt) (hhost : F.host) (hrecs : F.recs) (hout : F.out)
    (frame : List Byte) (h : Keeps F s₀ s) :
    KeepsX F s₀ (execRegWrite frame s) := by
  unfold execRegWrite
  try dsimp only
  with_reducible repeat' first
    | assumption | intro _ | apply mgpWrite_keeps | apply KeepsX.next

theorem tapOut_keeps (hout : F.out) (d v : Nat) (h : Keeps F s₀ s) :
    Keeps F s₀ (tapOut d v s) := by
  unfold tapOut
  try dsimp only
  with_reducible repeat' first
    | assumption | exact ring_wf_id | exact Memory.wf_id | intro _
    | ((fail_if_success (apply keeps_eta)); apply keeps_mk) | exact Or.inl (by assumption) | exact Or.inr rfl

theorem tapIr_keeps (hrack : F.rack) (d code : Nat) (h : Keeps F s₀ s) :
    Keeps F s₀ (tapIr d code s) := by
  unfold tapIr
  try dsimp only
  with_reducible repeat' first
    | assumption | exact ring_wf_id | exact Memory.wf_id | intro _
    | ((fail_if_success (apply keeps_eta)); apply keeps_mk) | exact Or.inl (by assumption) | exact Or.inr rfl

theorem tapCells_keeps (hrack : F.rack) (d v : Nat) (h : Keeps F s₀ s) :
    Keeps F s₀ (tapCells d v s) := by
  unfold tapCells
  try dsimp only
  with_reducible repeat' first
    | assumption | exact ring_wf_id | exact Memory.wf_id | intro _
    | ((fail_if_success (apply keeps_eta)); apply keeps_mk) | exact Or.inl (by assumption) | exact Or.inr rfl

theorem onTap_keeps (d : Nat) (f : State → State) (h_f : ∀ u_, Keeps F s₀ u_ → Keeps F s₀ (f u_)) (h : Keeps F s₀ s) :
    Keeps F s₀ (onTap d f s) := by
  unfold onTap
  try dsimp only
  with_reducible repeat' first
    | assumption | intro _ | apply h_f | apply keeps_ite

theorem jtagExtest_keeps (hrack : F.rack) (d : Nat) (cells : Word) (h : Keeps F s₀ s) :
    Keeps F s₀ (jtagExtest d cells s) := by
  unfold jtagExtest
  try dsimp only
  with_reducible repeat' first
    | assumption | intro _ | apply tapCells_keeps | apply tapIr_keeps | apply keeps_ite

theorem execJtagExtest_keeps (hrack : F.rack) (d : Nat) (cells : Word) (h : Keeps F s₀ s) :
    KeepsX F s₀ (execJtagExtest d cells s) := by
  unfold execJtagExtest
  try dsimp only
  with_reducible repeat' first
    | assumption | intro _ | apply onDie_keeps | apply onTap_keeps | apply jtagExtest_keeps

theorem execJtagIdcode_keeps (hrack : F.rack) (hout : F.out) (d : Nat) (h : Keeps F s₀ s) :
    KeepsX F s₀ (execJtagIdcode d s) := by
  unfold execJtagIdcode
  try dsimp only
  with_reducible repeat' first
    | assumption | intro _ | apply onDie_keeps | apply onTap_keeps | apply tapOut_keeps | apply tapIr_keeps

theorem jtagSamplePreload_keeps (hrack : F.rack) (hout : F.out) (d : Nat) (cells : Word) (h : Keeps F s₀ s) :
    Keeps F s₀ (jtagSamplePreload d cells s) := by
  unfold jtagSamplePreload
  try dsimp only
  repeat' first
    | with_reducible first
      | assumption | intro _ | apply State.free_keeps | apply tapIr_keeps | apply tapCells_keeps | apply tapOut_keeps
      | apply KeepsP.snd
    | split

theorem execJtagSamplePreload_keeps (hrack : F.rack) (hout : F.out) (d : Nat) (cells : Word) (h : Keeps F s₀ s) :
    KeepsX F s₀ (execJtagSamplePreload d cells s) := by
  unfold execJtagSamplePreload
  try dsimp only
  with_reducible repeat' first
    | assumption | intro _ | apply onDie_keeps | apply onTap_keeps | apply jtagSamplePreload_keeps

theorem jtagDcDebug_keeps (hregs : F.regs) (hrack : F.rack) (himg : F.img) (hcore : F.core) (hslc : F.slc)
    (hhbm : F.hbm) (hnet : F.net) (hque : F.que) (hprt : F.prt) (hxlt : F.xlt) (hhost : F.host) (hrecs : F.recs)
    (hout : F.out) (d : Nat) (dr : BitVec 96) (h : Keeps F s₀ s) :
    Keeps F s₀ (jtagDcDebug d dr s) := by
  unfold jtagDcDebug
  try dsimp only
  repeat' first
    | with_reducible first
      | assumption | intro _ | apply tapIr_keeps | apply portWrite_keeps | apply portRead_keeps | apply tapOut_keeps
      | apply keeps_ite | apply KeepsP.snd | ((fail_if_success (apply KeepsP.eta)); apply KeepsP.mk')
      | apply keepsP_ite | refine KeepsP.of ?_ (by assumption)
    | split

theorem execJtagDcDebug_keeps (hregs : F.regs) (hrack : F.rack) (himg : F.img) (hcore : F.core) (hslc : F.slc)
    (hhbm : F.hbm) (hnet : F.net) (hque : F.que) (hprt : F.prt) (hxlt : F.xlt) (hhost : F.host) (hrecs : F.recs)
    (hout : F.out) (d : Nat) (dr : BitVec 96) (h : Keeps F s₀ s) :
    KeepsX F s₀ (execJtagDcDebug d dr s) := by
  unfold execJtagDcDebug
  try dsimp only
  with_reducible repeat' first
    | assumption | intro _ | apply onDie_keeps | apply onTap_keeps | apply jtagDcDebug_keeps

theorem execJtagBypass_keeps (hrack : F.rack) (d : Nat) (code : BitVec 8) (h : Keeps F s₀ s) :
    KeepsX F s₀ (execJtagBypass d code s) := by
  unfold execJtagBypass
  try dsimp only
  repeat' first
    | with_reducible first
      | assumption | intro _ | apply onDie_keeps | apply onTap_keeps | apply tapIr_keeps | apply keeps_ite
    | split

end Sys2Proof.Machine
end

