-- ==== Sys2Proof/Laws/KeepsHostAccess.lean ====
section
/-! SUPPORT. What each effect of Machine/HostAccess.lean may change (see Laws/Keeps.lean). -/

namespace Sys2Proof.Machine

variable {F : Frame} {s₀ s : State}

theorem aptErr_keeps (hregs : F.regs) (x1 : HostBy) (bad : Bool) (h : Keeps F s₀ s) :
    Keeps F s₀ (aptErr x1 bad s) := by
  unfold aptErr
  try dsimp only
  with_reducible repeat' first
    | assumption | intro _ | apply State.count_keeps | apply keeps_ite

theorem portTranslate_keeps (hregs : F.regs) (hslc : F.slc) (hhbm : F.hbm) (hxlt : F.xlt) (hrecs : F.recs) (b : XBy)
    (va : Nat) (w : Want3) (h : Keeps F s₀ s) :
    KeepsP F s₀ (portTranslate b va w s) := by
  unfold portTranslate
  try dsimp only
  repeat' first
    | with_reducible first
      | assumption | intro _ | apply tlbLook_keeps | apply State.count_keeps | apply walk_keeps | apply tlbPut_keeps
      | apply keeps_ite | exact KeepsOP.none | apply KeepsOP.some | apply keepsOP_ite | apply KeepsP.snd
      | ((fail_if_success (apply KeepsP.eta)); apply KeepsP.mk') | apply keepsP_ite
      | refine KeepsOP.of ?_ (by assumption) | refine KeepsOP.pair ?_ (by assumption)
      | refine KeepsP.of ?_ (by assumption)
    | split

theorem vaRead_keeps (hregs : F.regs) (hslc : F.slc) (hhbm : F.hbm) (hxlt : F.xlt) (hrecs : F.recs) (x1 : HostBy)
    (p i va : Nat) (h : Keeps F s₀ s) :
    KeepsP F s₀ (vaRead x1 p i va s) := by
  unfold vaRead
  try dsimp only
  repeat' first
    | with_reducible first
      | assumption | intro _ | apply portTranslate_keeps | apply inRead_keeps | apply KeepsP.snd
      | ((fail_if_success (apply KeepsP.eta)); apply KeepsP.mk') | refine KeepsP.of ?_ (by assumption)
    | split

theorem vaWrite_keeps (hregs : F.regs) (hslc : F.slc) (hhbm : F.hbm) (hxlt : F.xlt) (hrecs : F.recs) (x1 : HostBy)
    (p i : Nat) (ep : Bool) (va : Nat) (mask : BitVec 32) (v : SectorData) (h : Keeps F s₀ s) :
    KeepsP F s₀ (vaWrite x1 p i ep va mask v s) := by
  unfold vaWrite
  try dsimp only
  repeat' first
    | with_reducible first
      | assumption | intro _ | apply portTranslate_keeps | apply inWrite_keeps | apply KeepsP.snd
      | ((fail_if_success (apply KeepsP.eta)); apply KeepsP.mk') | refine KeepsP.of ?_ (by assumption)
    | split

theorem paRead_keeps (hregs : F.regs) (hslc : F.slc) (hhbm : F.hbm) (hxlt : F.xlt) (hrecs : F.recs) (x1 : HostBy)
    (pa : Nat) (h : Keeps F s₀ s) :
    KeepsP F s₀ (paRead x1 pa s) := by
  unfold paRead
  try dsimp only
  repeat' first
    | with_reducible first
      | assumption | intro _ | apply sealedAccess_keeps | apply inRead_keeps | apply keeps_ite | apply KeepsP.snd
      | ((fail_if_success (apply KeepsP.eta)); apply KeepsP.mk') | apply keepsP_ite
      | refine KeepsP.of ?_ (by assumption)
    | split

theorem paWrite_keeps (hregs : F.regs) (hslc : F.slc) (hhbm : F.hbm) (hxlt : F.xlt) (hrecs : F.recs) (x1 : HostBy)
    (ep : Bool) (pa : Nat) (mask : BitVec 32) (v : SectorData) (h : Keeps F s₀ s) :
    KeepsP F s₀ (paWrite x1 ep pa mask v s) := by
  unfold paWrite
  try dsimp only
  repeat' first
    | with_reducible first
      | assumption | intro _ | apply sealedAccess_keeps | apply inWrite_keeps | apply keeps_ite | apply KeepsP.snd
      | ((fail_if_success (apply KeepsP.eta)); apply KeepsP.mk') | apply keepsP_ite
      | refine KeepsP.of ?_ (by assumption)
    | split

theorem hostData_keeps (hregs : F.regs) (hout : F.out) (x1 : HostBy) (r : List Byte × Bool × Bool) (h : Keeps F s₀ s)
    :
    Keeps F s₀ (hostData x1 r s) := by
  unfold hostData
  try dsimp only
  with_reducible repeat' first
    | assumption | intro _ | apply hostRsp_keeps | apply aptErr_keeps | apply keeps_ite

theorem apertureRead_keeps (hregs : F.regs) (hslc : F.slc) (hhbm : F.hbm) (hxlt : F.xlt) (hrecs : F.recs)
    (hout : F.out) (x1 : HostBy) (off len : Nat) (h : Keeps F s₀ s) :
    Keeps F s₀ (apertureRead x1 off len s) := by
  unfold apertureRead
  try dsimp only
  repeat' first
    | with_reducible first
      | assumption | intro _ | apply hostRsp_keeps | apply inBytes_keeps | apply vaRead_keeps | apply hostData_keeps
      | apply paRead_keeps | apply aptErr_keeps | apply keeps_ite | apply KeepsP.snd
      | ((fail_if_success (apply KeepsP.eta)); apply KeepsP.mk') | apply keepsP_ite
      | refine KeepsP.of ?_ (by assumption)
    | split

theorem apertureWrite_keeps (hregs : F.regs) (hslc : F.slc) (hhbm : F.hbm) (hxlt : F.xlt) (hrecs : F.recs)
    (x1 : HostBy) (off : Nat) (data : List Byte) (ep : Bool) (h : Keeps F s₀ s) :
    Keeps F s₀ (apertureWrite x1 off data ep s) := by
  unfold apertureWrite
  try dsimp only
  repeat' first
    | with_reducible first
      | assumption | intro _ | apply inPut_keeps | apply vaWrite_keeps | apply aptErr_keeps | apply paWrite_keeps
      | apply keeps_ite | apply KeepsP.snd | ((fail_if_success (apply KeepsP.eta)); apply KeepsP.mk')
      | apply keepsP_ite | refine KeepsP.of ?_ (by assumption)
    | split

theorem ringRead_keeps (hregs : F.regs) (hslc : F.slc) (hhbm : F.hbm) (hxlt : F.xlt) (hrecs : F.recs) (hout : F.out)
    (x1 : HostBy) (off len : Nat) (h : Keeps F s₀ s) :
    Keeps F s₀ (ringRead x1 off len s) := by
  unfold ringRead
  try dsimp only
  repeat' first
    | with_reducible first
      | assumption | intro _ | apply hostRsp_keeps | apply inBytes_keeps | apply inRead_keeps | apply hostData_keeps
      | apply keeps_ite | apply KeepsP.snd | ((fail_if_success (apply KeepsP.eta)); apply KeepsP.mk')
      | apply keepsP_ite | refine KeepsP.of ?_ (by assumption)
    | split

theorem ringWrite_keeps (hregs : F.regs) (hslc : F.slc) (hhbm : F.hbm) (hxlt : F.xlt) (hrecs : F.recs) (x1 : HostBy)
    (off : Nat) (data : List Byte) (ep : Bool) (h : Keeps F s₀ s) :
    Keeps F s₀ (ringWrite x1 off data ep s) := by
  unfold ringWrite
  try dsimp only
  repeat' first
    | with_reducible first
      | assumption | intro _ | apply inPut_keeps | apply inWrite_keeps | apply aptErr_keeps | apply keeps_ite
      | apply KeepsP.snd | ((fail_if_success (apply KeepsP.eta)); apply KeepsP.mk') | apply keepsP_ite
      | refine KeepsP.of ?_ (by assumption)
    | split

theorem hostRegRead_keeps (hregs : F.regs) (hout : F.out) (x1 : HostBy) (d : Nat) (src : Source) (addr len : Nat)
    (h : Keeps F s₀ s) :
    Keeps F s₀ (hostRegRead x1 d src addr len s) := by
  unfold hostRegRead
  try dsimp only
  repeat' first
    | with_reducible first
      | assumption | intro _ | apply hostRsp_keeps | apply portRead_keeps | apply keeps_ite | apply KeepsP.snd
      | ((fail_if_success (apply KeepsP.eta)); apply KeepsP.mk') | apply keepsP_ite
      | refine KeepsP.of ?_ (by assumption)
    | split

theorem hostRegWrite_keeps (hregs : F.regs) (himg : F.img) (hcore : F.core) (hslc : F.slc) (hhbm : F.hbm)
    (hnet : F.net) (hque : F.que) (hprt : F.prt) (hxlt : F.xlt) (hhost : F.host) (hrecs : F.recs) (hout : F.out)
    (d : Nat) (src : Source) (addr : Nat) (data : List Byte) (h : Keeps F s₀ s) :
    Keeps F s₀ (hostRegWrite d src addr data s) := by
  unfold hostRegWrite
  try dsimp only
  with_reducible repeat' first
    | assumption | intro _ | apply portWrite_keeps | apply keeps_ite | apply KeepsP.snd

theorem msixWrite_keeps (hhost : F.host) (x1 : HostBy) (off : Nat) (data : List Byte) (h : Keeps F s₀ s) :
    Keeps F s₀ (msixWrite x1 off data s) := by
  unfold msixWrite
  try dsimp only
  with_reducible repeat' first
    | assumption | exact ring_wf_id | exact Memory.wf_id | intro _ | apply each_keeps
    | ((fail_if_success (apply keeps_eta)); apply keeps_mk) | exact Or.inl (by assumption) | exact Or.inr rfl

theorem bar0Read_keeps (hregs : F.regs) (hout : F.out) (x1 : HostBy) (off len : Nat) (h : Keeps F s₀ s) :
    Keeps F s₀ (bar0Read x1 off len s) := by
  unfold bar0Read
  try dsimp only
  repeat' first
    | with_reducible first
      | assumption | intro _ | apply hostRegRead_keeps | apply hostRsp_keeps | apply keeps_ite
    | split

theorem bar0Write_keeps (hregs : F.regs) (himg : F.img) (hcore : F.core) (hslc : F.slc) (hhbm : F.hbm) (hnet : F.net)
    (hque : F.que) (hprt : F.prt) (hxlt : F.xlt) (hhost : F.host) (hrecs : F.recs) (hout : F.out) (x1 : HostBy)
    (off : Nat) (data : List Byte) (h : Keeps F s₀ s) :
    Keeps F s₀ (bar0Write x1 off data s) := by
  unfold bar0Write
  try dsimp only
  repeat' first
    | with_reducible first
      | assumption | intro _ | apply hostRegWrite_keeps | apply doorbell_keeps | apply msixWrite_keeps
      | apply keeps_ite
    | split

theorem barWrite_keeps (hregs : F.regs) (himg : F.img) (hcore : F.core) (hslc : F.slc) (hhbm : F.hbm) (hnet : F.net)
    (hque : F.que) (hprt : F.prt) (hxlt : F.xlt) (hhost : F.host) (hrecs : F.recs) (hout : F.out) (x1 : HostBy)
    (bar off : Nat) (data : List Byte) (ep : Bool) (h : Keeps F s₀ s) :
    Keeps F s₀ (barWrite x1 bar off data ep s) := by
  unfold barWrite
  try dsimp only
  repeat' first
    | with_reducible first
      | assumption | intro _ | apply bar0Write_keeps | apply apertureWrite_keeps | apply ringWrite_keeps
    | split

theorem noteBurst_keeps (hhost : F.host) (x1 : HostBy) (off len : Nat) (more : Bool) (h : Keeps F s₀ s) :
    Keeps F s₀ (noteBurst x1 off len more s) := by
  unfold noteBurst
  try dsimp only
  with_reducible repeat' first
    | assumption | exact ring_wf_id | exact Memory.wf_id | intro _
    | ((fail_if_success (apply keeps_eta)); apply keeps_mk) | exact Or.inl (by assumption) | exact Or.inr rfl

theorem hostWrite_keeps (hregs : F.regs) (himg : F.img) (hcore : F.core) (hslc : F.slc) (hhbm : F.hbm) (hnet : F.net)
    (hque : F.que) (hprt : F.prt) (hxlt : F.xlt) (hhost : F.host) (hrecs : F.recs) (hout : F.out) (port fn : Nat)
    (pasid : Option (BitVec 20)) (bar off : Nat) (data : List Byte) (ep more : Bool) (h : Keeps F s₀ s) :
    Keeps F s₀ (hostWrite port fn pasid bar off data ep more s) := by
  unfold hostWrite
  try dsimp only
  with_reducible repeat' first
    | assumption | intro _ | apply noteBurst_keeps | apply barWrite_keeps | apply keeps_ite

theorem execHostApertureWrite_keeps (hregs : F.regs) (himg : F.img) (hcore : F.core) (hslc : F.slc) (hhbm : F.hbm)
    (hnet : F.net) (hque : F.que) (hprt : F.prt) (hxlt : F.xlt) (hhost : F.host) (hrecs : F.recs) (hout : F.out)
    (port fn : Nat) (pasid : Option (BitVec 20)) (bar off : Nat) (data : List Byte) (ep more : Bool)
    (h : Keeps F s₀ s) :
    KeepsX F s₀ (execHostApertureWrite port fn pasid bar off data ep more s) := by
  unfold execHostApertureWrite
  try dsimp only
  with_reducible repeat' first
    | assumption | intro _ | apply onDie_keeps | apply hostWrite_keeps

theorem barRead_keeps (hregs : F.regs) (hslc : F.slc) (hhbm : F.hbm) (hxlt : F.xlt) (hrecs : F.recs) (hout : F.out)
    (x1 : HostBy) (bar off len : Nat) (h : Keeps F s₀ s) :
    Keeps F s₀ (barRead x1 bar off len s) := by
  unfold barRead
  try dsimp only
  repeat' first
    | with_reducible first
      | assumption | intro _ | apply bar0Read_keeps | apply apertureRead_keeps | apply ringRead_keeps
      | apply hostRsp_keeps
    | split

theorem hostRead_keeps (hregs : F.regs) (hslc : F.slc) (hhbm : F.hbm) (hxlt : F.xlt) (hrecs : F.recs) (hout : F.out)
    (port fn : Nat) (pasid : Option (BitVec 20)) (bar off len : Nat) (h : Keeps F s₀ s) :
    Keeps F s₀ (hostRead port fn pasid bar off len s) := by
  unfold hostRead
  try dsimp only
  with_reducible repeat' first
    | assumption | intro _ | apply hostRsp_keeps | apply barRead_keeps | apply keeps_ite

theorem execHostApertureRead_keeps (hregs : F.regs) (hslc : F.slc) (hhbm : F.hbm) (hxlt : F.xlt) (hrecs : F.recs)
    (hout : F.out) (port fn : Nat) (pasid : Option (BitVec 20)) (bar off len : Nat) (h : Keeps F s₀ s) :
    KeepsX F s₀ (execHostApertureRead port fn pasid bar off len s) := by
  unfold execHostApertureRead
  try dsimp only
  with_reducible repeat' first
    | assumption | intro _ | apply onDie_keeps | apply hostRead_keeps

end Sys2Proof.Machine
end

