-- ==== Sys2Proof/Laws/KeepsMatrix.lean ====
section
/-! SUPPORT. What each effect of Machine/Matrix.lean may change (see Laws/Keeps.lean). -/

namespace Sys2Proof.Machine

variable {F : Frame} {s₀ s : State}

theorem mmaEff_keeps (tyA tyB : Nat → Nat) (q kk : Nat) (i : Iss) (h : Keeps F s₀ s) :
    KeepsE F s₀ (mmaEff tyA tyB q kk i s) := by
  unfold mmaEff
  try dsimp only
  repeat' first
    | with_reducible first
      | assumption | intro _ | apply keeps_ite | exact KeepsE.wait | apply KeepsE.done | apply KeepsE.trap
      | apply KeepsE.hold | refine KeepsE.ofDone ?_ (by assumption) | refine KeepsE.ofTrap ?_ (by assumption)
      | refine KeepsE.ofHold ?_ (by assumption)
    | split

theorem mma8Eff_keeps (x1 : Iss) (h : Keeps F s₀ s) :
    KeepsE F s₀ (mma8Eff x1 s) := by
  unfold mma8Eff
  try dsimp only
  with_reducible repeat' first
    | assumption | intro _ | apply mmaEff_keeps

theorem mma16Eff_keeps (x1 : Iss) (h : Keeps F s₀ s) :
    KeepsE F s₀ (mma16Eff x1 s) := by
  unfold mma16Eff
  try dsimp only
  with_reducible repeat' first
    | assumption | intro _ | apply mmaEff_keeps

theorem execMma8_keeps (hregs : F.regs) (hcore : F.core) (hslc : F.slc) (hhbm : F.hbm) (hnet : F.net) (hque : F.que)
    (hprt : F.prt) (hxlt : F.xlt) (hhost : F.host) (hrecs : F.recs) (hout : F.out) (a : Issue) (f : BitVec 56)
    (h : Keeps F s₀ s) :
    KeepsX F s₀ (execMma8 a f s) := by
  unfold execMma8
  try dsimp only
  with_reducible repeat' first
    | assumption | intro _ | apply coreOp_keeps | apply mma8Eff_keeps

theorem execMma16_keeps (hregs : F.regs) (hcore : F.core) (hslc : F.slc) (hhbm : F.hbm) (hnet : F.net) (hque : F.que)
    (hprt : F.prt) (hxlt : F.xlt) (hhost : F.host) (hrecs : F.recs) (hout : F.out) (a : Issue) (f : BitVec 56)
    (h : Keeps F s₀ s) :
    KeepsX F s₀ (execMma16 a f s) := by
  unfold execMma16
  try dsimp only
  with_reducible repeat' first
    | assumption | intro _ | apply coreOp_keeps | apply mma16Eff_keeps

end Sys2Proof.Machine
end

