-- ==== Sys2Proof/Laws/KeepsReduction.lean ====
section
/-! SUPPORT. What each effect of Machine/Reduction.lean may change (see Laws/Keeps.lean). -/

namespace Sys2Proof.Machine

variable {F : Frame} {s₀ s : State}

theorem redCount_keeps (hregs : F.regs) (w : RedPlace) (f : Fld) (h : Keeps F s₀ s) :
    Keeps F s₀ (redCount w f s) := by
  unfold redCount
  try dsimp only
  repeat' first
    | with_reducible first
      | assumption | intro _ | apply State.count_keeps
    | split

theorem putCombine_keeps (hnet : F.net) (c : Combine) (h : Keeps F s₀ s) :
    Keeps F s₀ (putCombine c s) := by
  unfold putCombine
  try dsimp only
  with_reducible repeat' first
    | assumption | exact ring_wf_id | exact Memory.wf_id | intro _
    | ((fail_if_success (apply keeps_eta)); apply keeps_mk) | exact Or.inl (by assumption) | exact Or.inr rfl

theorem dropCombine_keeps (hnet : F.net) (c : Combine) (h : Keeps F s₀ s) :
    Keeps F s₀ (dropCombine c s) := by
  unfold dropCombine
  try dsimp only
  with_reducible repeat' first
    | assumption | exact ring_wf_id | exact Memory.wf_id | intro _
    | ((fail_if_success (apply keeps_eta)); apply keeps_mk) | exact Or.inl (by assumption) | exact Or.inr rfl

theorem redStep_keeps (hregs : F.regs) (hrecs : F.recs) (p : RedPkt) (sd dd : Option Nat) (x y : RedPlace)
    (h : Keeps F s₀ s) :
    KeepsP F s₀ (redStep p sd dd x y s) := by
  unfold redStep
  try dsimp only
  repeat' first
    | with_reducible first
      | assumption | intro _ | apply State.count_keeps | apply halfRefuse_keeps | apply keeps_ite | apply keeps_getD
      | apply keepsP_getD | apply KeepsP.snd | ((fail_if_success (apply KeepsP.eta)); apply KeepsP.mk')
      | apply keepsP_ite | refine KeepsP.of ?_ (by assumption)
    | split

theorem redWalk_keeps (hregs : F.regs) (hrecs : F.recs) (p : RedPkt) (sd dd : Option Nat) (x4 : RedPlace)
    (x5 : List RedPlace) (h : Keeps F s₀ s) :
    KeepsP F s₀ (redWalk p sd dd x4 x5 s) := by
  induction x5 generalizing p sd dd x4 s with
  | nil =>
    unfold redWalk
    try dsimp only
    repeat' first
      | with_reducible first
        | assumption | intro _ | apply redStep_keeps | apply KeepsP.snd
        | ((fail_if_success (apply KeepsP.eta)); apply KeepsP.mk')
      | split
  | cons x_ l_ ih =>
    unfold redWalk
    try dsimp only
    repeat' first
      | with_reducible first
        | assumption | intro _ | apply redStep_keeps | apply ih | apply KeepsP.snd
        | ((fail_if_success (apply KeepsP.eta)); apply KeepsP.mk') | refine KeepsP.of ?_ (by assumption)
      | split

theorem sendRed_keeps (hregs : F.regs) (hnet : F.net) (hrecs : F.recs) (w : RedPlace) (p : RedPkt)
    (todo : List RedPlace) (h : Keeps F s₀ s) :
    Keeps F s₀ (sendRed w p todo s) := by
  unfold sendRed
  try dsimp only
  with_reducible repeat' first
    | assumption | exact ring_wf_id | exact Memory.wf_id | intro _ | apply redWalk_keeps
    | ((fail_if_success (apply keeps_eta)); apply keeps_mk) | exact Or.inl (by assumption) | exact Or.inr rfl
    | apply keeps_ite | apply KeepsP.snd

theorem takeRed_keeps (hnet : F.net) (f : RedFlight) (h : Keeps F s₀ s) :
    Keeps F s₀ (takeRed f s) := by
  unfold takeRed
  try dsimp only
  with_reducible repeat' first
    | assumption | exact ring_wf_id | exact Memory.wf_id | intro _
    | ((fail_if_success (apply keeps_eta)); apply keeps_mk) | exact Or.inl (by assumption) | exact Or.inr rfl

theorem forwardEntry_keeps (hregs : F.regs) (hnet : F.net) (hrecs : F.recs) (c : Combine) (h : Keeps F s₀ s) :
    Keeps F s₀ (forwardEntry c s) := by
  unfold forwardEntry
  try dsimp only
  with_reducible repeat' first
    | assumption | intro _ | apply sendRed_keeps | apply dropCombine_keeps

theorem passThrough_keeps (hregs : F.regs) (hnet : F.net) (hrecs : F.recs) (w : RedPlace) (p : RedPkt)
    (todo : List RedPlace) (h : Keeps F s₀ s) :
    Keeps F s₀ (passThrough w p todo s) := by
  unfold passThrough
  try dsimp only
  with_reducible repeat' first
    | assumption | intro _ | apply sendRed_keeps | apply redCount_keeps

theorem breakGroup_keeps (hregs : F.regs) (hcore : F.core) (hslc : F.slc) (hhbm : F.hbm) (hnet : F.net) (hque : F.que)
    (hprt : F.prt) (hxlt : F.xlt) (hhost : F.host) (hrecs : F.recs) (hout : F.out) (p : RedPkt) (cause : Nat)
    (h : Keeps F s₀ s) :
    Keeps F s₀ (breakGroup p cause s) := by
  unfold breakGroup
  try dsimp only
  repeat' first
    | with_reducible first
      | assumption | intro _ | apply redBreak_keeps | apply redBroken_keeps | apply poisonSector_keeps
    | split

theorem redPacket_keeps (hregs : F.regs) (hcore : F.core) (hslc : F.slc) (hhbm : F.hbm) (hnet : F.net) (hque : F.que)
    (hprt : F.prt) (hxlt : F.xlt) (hhost : F.host) (hrecs : F.recs) (hout : F.out) (w : RedPlace) (p : RedPkt)
    (bad : Bool) (h : Keeps F s₀ s) :
    Keeps F s₀ (redPacket w p bad s) := by
  unfold redPacket
  try dsimp only
  repeat' first
    | with_reducible first
      | assumption | intro _ | apply takeRed_keeps | apply breakGroup_keeps | apply dropCombine_keeps
      | apply putCombine_keeps | apply redCount_keeps | apply forwardEntry_keeps | apply passThrough_keeps
      | apply keeps_ite
    | split

theorem onPlace_keeps (w : RedPlace) (f : State → State) (h_f : ∀ u_, Keeps F s₀ u_ → Keeps F s₀ (f u_))
    (h : Keeps F s₀ s) :
    KeepsX F s₀ (onPlace s w f) := by
  unfold onPlace
  try dsimp only
  repeat' first
    | with_reducible first
      | assumption | intro _ | apply onDie_keeps | apply h_f | apply KeepsX.next | exact KeepsX.fault
      | exact KeepsX.refused
    | split

theorem execRedPacket_keeps (hregs : F.regs) (hcore : F.core) (hslc : F.slc) (hhbm : F.hbm) (hnet : F.net)
    (hque : F.que) (hprt : F.prt) (hxlt : F.xlt) (hhost : F.host) (hrecs : F.recs) (hout : F.out) (w : RedPlace)
    (x : RedIn) (h : Keeps F s₀ s) :
    KeepsX F s₀ (execRedPacket w x s) := by
  unfold execRedPacket
  try dsimp only
  with_reducible repeat' first
    | assumption | intro _ | apply onPlace_keeps | apply redPacket_keeps

theorem redHoldExpiry_keeps (hregs : F.regs) (hnet : F.net) (hrecs : F.recs) (w : RedPlace) (k : RedKey)
    (h : Keeps F s₀ s) :
    Keeps F s₀ (redHoldExpiry w k s) := by
  unfold redHoldExpiry
  try dsimp only
  repeat' first
    | with_reducible first
      | assumption | intro _ | apply forwardEntry_keeps | apply keeps_ite
    | split

theorem execRedHoldExpiry_keeps (hregs : F.regs) (hnet : F.net) (hrecs : F.recs) (w : RedPlace) (k : RedKey)
    (h : Keeps F s₀ s) :
    KeepsX F s₀ (execRedHoldExpiry w k s) := by
  unfold execRedHoldExpiry
  try dsimp only
  with_reducible repeat' first
    | assumption | intro _ | apply onPlace_keeps | apply redHoldExpiry_keeps

theorem treeNodeForward_keeps (hregs : F.regs) (hnet : F.net) (hrecs : F.recs) (w : RedPlace) (k : RedKey)
    (elapsed : Nat) (h : Keeps F s₀ s) :
    Keeps F s₀ (treeNodeForward w k elapsed s) := by
  unfold treeNodeForward
  try dsimp only
  repeat' first
    | with_reducible first
      | assumption | intro _ | apply forwardEntry_keeps | apply keeps_ite
    | split

theorem execTreeNodeForward_keeps (hregs : F.regs) (hnet : F.net) (hrecs : F.recs) (w : RedPlace) (k : RedKey)
    (elapsed : Nat) (h : Keeps F s₀ s) :
    KeepsX F s₀ (execTreeNodeForward w k elapsed s) := by
  unfold execTreeNodeForward
  try dsimp only
  with_reducible repeat' first
    | assumption | intro _ | apply onPlace_keeps | apply treeNodeForward_keeps

theorem redWrite_keeps (hregs : F.regs) (hslc : F.slc) (hhbm : F.hbm) (hxlt : F.xlt) (d n : Nat) (p : RedPkt)
    (h : Keeps F s₀ s) :
    KeepsO F s₀ (redWrite d n p s) := by
  unfold redWrite
  try dsimp only
  with_reducible repeat' first
    | assumption | intro _ | apply settleHomeWrite_keeps | apply homeWritable_keeps | apply putLine_keeps
    | apply keeps_ite | exact KeepsOP.none | apply KeepsOP.some | apply keepsOP_ite | exact KeepsO.none
    | apply KeepsO.some | apply keepsO_ite | apply keepsO_map | apply keepsOP_map | apply keepsOP_mapP
    | apply keepsO_mapP | apply keepsO_mapA | apply keepsOP_mapA | apply keepsO_bind

theorem redSignal_keeps (hregs : F.regs) (hslc : F.slc) (hhbm : F.hbm) (hxlt : F.xlt) (hrecs : F.recs) (d : Nat)
    (k : RedKey) (h : Keeps F s₀ s) :
    KeepsO F s₀ (redSignal d k s) := by
  unfold redSignal
  try dsimp only
  with_reducible repeat' first
    | assumption | intro _ | apply accAtomic_keeps | apply keeps_ite | exact KeepsOP.none | apply KeepsOP.some
    | apply keepsOP_ite | exact KeepsO.none | apply KeepsO.some | apply keepsO_ite | apply keepsO_map
    | apply keepsOP_map | apply keepsOP_mapP | apply keepsO_mapP

theorem redComplete_keeps (hregs : F.regs) (hslc : F.slc) (hhbm : F.hbm) (hnet : F.net) (hxlt : F.xlt)
    (hrecs : F.recs) (a : Accum) (h : Keeps F s₀ s) :
    KeepsO F s₀ (redComplete a s) := by
  unfold redComplete
  try dsimp only
  with_reducible repeat' first
    | assumption | exact ring_wf_id | exact Memory.wf_id | intro _ | apply redWrite_keeps | apply State.count_keeps
    | apply redSignal_keeps | ((fail_if_success (apply keeps_eta)); apply keeps_mk) | exact Or.inl (by assumption)
    | exact Or.inr rfl | exact KeepsOP.none | apply KeepsOP.some | exact KeepsO.none | apply KeepsO.some
    | apply keepsO_map | apply keepsOP_map | apply keepsOP_mapP | apply keepsO_mapP | apply keepsO_mapA
    | apply keepsOP_mapA | apply keepsO_bind

theorem setStall_keeps (hnet : F.net) (d n : Nat) (on : Bool) (h : Keeps F s₀ s) :
    Keeps F s₀ (setStall d n on s) := by
  unfold setStall
  try dsimp only
  with_reducible repeat' first
    | assumption | exact ring_wf_id | exact Memory.wf_id | intro _
    | ((fail_if_success (apply keeps_eta)); apply keeps_mk) | exact Or.inl (by assumption) | exact Or.inr rfl

theorem accumulate_keeps (hregs : F.regs) (hcore : F.core) (hslc : F.slc) (hhbm : F.hbm) (hnet : F.net) (hque : F.que)
    (hprt : F.prt) (hxlt : F.xlt) (hhost : F.host) (hrecs : F.recs) (hout : F.out) (d n : Nat) (p : RedPkt)
    (bad : Bool) (h : Keeps F s₀ s) :
    KeepsO F s₀ (accumulate d n p bad s) := by
  unfold accumulate
  try dsimp only
  repeat' first
    | with_reducible first
      | assumption | exact ring_wf_id | exact Memory.wf_id | intro _ | apply breakGroup_keeps | apply redBreak_keeps
      | apply redComplete_keeps | apply State.peak_keeps | ((fail_if_success (apply keeps_eta)); apply keeps_mk)
      | exact Or.inl (by assumption) | exact Or.inr rfl | apply keeps_ite | exact KeepsO.none | apply KeepsO.some
      | apply keepsO_ite | refine KeepsO.of ?_ (by assumption)
    | split

theorem redAccumulate_keeps (hregs : F.regs) (hcore : F.core) (hslc : F.slc) (hhbm : F.hbm) (hnet : F.net)
    (hque : F.que) (hprt : F.prt) (hxlt : F.xlt) (hhost : F.host) (hrecs : F.recs) (hout : F.out) (d n : Nat)
    (p : RedPkt) (bad : Bool) (h : Keeps F s₀ s) :
    Keeps F s₀ (redAccumulate d n p bad s) := by
  unfold redAccumulate
  try dsimp only
  repeat' first
    | with_reducible first
      | assumption | intro _ | apply setStall_keeps | apply takeRed_keeps | apply halfRefuse_keeps
      | apply accumulate_keeps | apply keeps_ite | exact KeepsO.none | apply KeepsO.some | apply keepsO_ite
      | apply keeps_getD | apply keepsP_getD | refine KeepsO.of ?_ (by assumption)
    | split

theorem execRedAccumulate_keeps (hregs : F.regs) (hcore : F.core) (hslc : F.slc) (hhbm : F.hbm) (hnet : F.net)
    (hque : F.que) (hprt : F.prt) (hxlt : F.xlt) (hhost : F.host) (hrecs : F.recs) (hout : F.out) (d n : Nat)
    (x : RedIn) (h : Keeps F s₀ s) :
    KeepsX F s₀ (execRedAccumulate d n x s) := by
  unfold execRedAccumulate
  try dsimp only
  with_reducible repeat' first
    | assumption | intro _ | apply onDie_keeps | apply redAccumulate_keeps

theorem redTimeout_keeps (hregs : F.regs) (hcore : F.core) (hslc : F.slc) (hhbm : F.hbm) (hnet : F.net) (hque : F.que)
    (hprt : F.prt) (hxlt : F.xlt) (hhost : F.host) (hrecs : F.recs) (hout : F.out) (d n : Nat) (k : RedKey)
    (h : Keeps F s₀ s) :
    Keeps F s₀ (redTimeout d n k s) := by
  unfold redTimeout
  try dsimp only
  repeat' first
    | with_reducible first
      | assumption | intro _ | apply redBreak_keeps
    | split

theorem execRedTimeout_keeps (hregs : F.regs) (hcore : F.core) (hslc : F.slc) (hhbm : F.hbm) (hnet : F.net)
    (hque : F.que) (hprt : F.prt) (hxlt : F.xlt) (hhost : F.host) (hrecs : F.recs) (hout : F.out) (d n : Nat)
    (k : RedKey) (h : Keeps F s₀ s) :
    KeepsX F s₀ (execRedTimeout d n k s) := by
  unfold execRedTimeout
  try dsimp only
  with_reducible repeat' first
    | assumption | intro _ | apply onDie_keeps | apply redTimeout_keeps

theorem contribute_keeps (hregs : F.regs) (hcore : F.core) (hslc : F.slc) (hhbm : F.hbm) (hnet : F.net) (hque : F.que)
    (hprt : F.prt) (hxlt : F.xlt) (hhost : F.host) (hrecs : F.recs) (hout : F.out) (c : Nat) (p : RedPkt)
    (h : Keeps F s₀ s) :
    Keeps F s₀ (contribute c p s) := by
  unfold contribute
  try dsimp only
  with_reducible repeat' first
    | assumption | intro _ | apply breakGroup_keeps | apply sendRed_keeps | apply keeps_ite

end Sys2Proof.Machine
end

