-- ==== Sys2Proof/Laws/KeepsMemInstr.lean ====
section
/-! SUPPORT. What each effect of Machine/MemInstr.lean may change (see Laws/Keeps.lean). -/

namespace Sys2Proof.Machine

variable {F : Frame} {s₀ s : State}

theorem xlateAll_keeps (hregs : F.regs) (hslc : F.slc) (hhbm : F.hbm) (hxlt : F.xlt) (hrecs : F.recs) (b : XBy)
    (want : Want3) (x3 : Addrs) (h : Keeps F s₀ s) :
    KeepsOP F s₀ (xlateAll b want x3 s) := by
  induction x3 generalizing b want s with
  | nil =>
    unfold xlateAll
    try dsimp only
    repeat' first
      | with_reducible first
        | assumption | intro _ | apply translate_keeps | exact KeepsOP.none | apply KeepsOP.some
      | split
  | cons x_ l_ ih =>
    unfold xlateAll
    try dsimp only
    repeat' first
      | with_reducible first
        | assumption | intro _ | apply translate_keeps | apply ih | exact KeepsOP.none | apply KeepsOP.some
        | refine KeepsOP.of ?_ (by assumption) | refine KeepsOP.pair ?_ (by assumption)
      | split

theorem memEff_keeps (hregs : F.regs) (hslc : F.slc) (hhbm : F.hbm) (hxlt : F.xlt) (hrecs : F.recs) (size : Nat)
    (want : Want3) (addr : Iss → Nat → Nat) (act : Iss → Addrs → State → Eff) (i : Iss)
    (h_act : ∀ y0 y1 u_, Keeps F s₀ u_ → KeepsE F s₀ (act y0 y1 u_)) (h : Keeps F s₀ s) :
    KeepsE F s₀ (memEff size want addr act i s) := by
  unfold memEff
  try dsimp only
  repeat' first
    | with_reducible first
      | assumption | intro _ | apply xlateAll_keeps | apply h_act | exact KeepsOP.none | apply KeepsOP.some
      | exact KeepsE.wait | apply KeepsE.done | apply KeepsE.trap | apply KeepsE.hold
      | refine KeepsOP.of ?_ (by assumption) | refine KeepsOP.pair ?_ (by assumption)
      | refine KeepsE.ofDone ?_ (by assumption) | refine KeepsE.ofTrap ?_ (by assumption)
      | refine KeepsE.ofHold ?_ (by assumption)
    | split

theorem l1Install_keeps (hcore : F.core) (x : L1Sector) (h : Keeps F s₀ s) :
    Keeps F s₀ (l1Install x s) := by
  unfold l1Install
  try dsimp only
  repeat' first
    | with_reducible first
      | assumption | exact ring_wf_id | exact Memory.wf_id | intro _
      | ((fail_if_success (apply keeps_eta)); apply keeps_mk) | exact Or.inl (by assumption) | exact Or.inr rfl
      | apply keeps_ite
    | split

theorem l1Drop_keeps (hcore : F.core) (d c part sec : Nat) (h : Keeps F s₀ s) :
    Keeps F s₀ (l1Drop d c part sec s) := by
  unfold l1Drop
  try dsimp only
  with_reducible repeat' first
    | assumption | exact ring_wf_id | exact Memory.wf_id | intro _
    | ((fail_if_success (apply keeps_eta)); apply keeps_mk) | exact Or.inl (by assumption) | exact Or.inr rfl

theorem l1Store_keeps (hcore : F.core) (d c part sec : Nat) (mask : BitVec 32) (v : SectorData) (h : Keeps F s₀ s) :
    Keeps F s₀ (l1Store d c part sec mask v s) := by
  unfold l1Store
  try dsimp only
  with_reducible repeat' first
    | assumption | exact ring_wf_id | exact Memory.wf_id | intro _
    | ((fail_if_success (apply keeps_eta)); apply keeps_mk) | exact Or.inl (by assumption) | exact Or.inr rfl

theorem loadSector_keeps (hregs : F.regs) (hcore : F.core) (hslc : F.slc) (hhbm : F.hbm) (hque : F.que) (hxlt : F.xlt)
    (hrecs : F.recs) (t : Troupe) (hint : Nat) (fill past : Bool) (pa : Nat) (h : Keeps F s₀ s) :
    KeepsOP F s₀ (loadSector t hint fill past pa s) := by
  unfold loadSector
  try dsimp only
  repeat' first
    | with_reducible first
      | assumption | intro _ | apply accRead_keeps | apply noteSector_keeps | apply l1Install_keeps | apply keeps_ite
      | exact KeepsOP.none | apply KeepsOP.some | apply keepsOP_ite | refine KeepsOP.of ?_ (by assumption)
      | refine KeepsOP.pair ?_ (by assumption)
    | split

theorem loadOnce_keeps (hregs : F.regs) (hcore : F.core) (hslc : F.slc) (hhbm : F.hbm) (hque : F.que) (hxlt : F.xlt)
    (hrecs : F.recs) (i : Iss) (past : Bool) (got : ReadSectors) (pa : Nat) (h : Keeps F s₀ s) :
    KeepsOP F s₀ (loadOnce i past got pa s) := by
  unfold loadOnce
  try dsimp only
  repeat' first
    | with_reducible first
      | assumption | intro _ | apply loadSector_keeps | exact KeepsOP.none | apply KeepsOP.some
      | refine KeepsOP.of ?_ (by assumption) | refine KeepsOP.pair ?_ (by assumption)
    | split

theorem loadLanes_keeps (hregs : F.regs) (hcore : F.core) (hslc : F.slc) (hhbm : F.hbm) (hque : F.que) (hxlt : F.xlt)
    (hrecs : F.recs) (past : Bool) (i : Iss) (got : ReadSectors) (x4 : Addrs) (x5 : Troupe) (h : Keeps F s₀ s) :
    KeepsE F s₀ (loadLanes past i got x4 x5 s) := by
  induction x4 generalizing past i got x5 s with
  | nil =>
    unfold loadLanes
    try dsimp only
    repeat' first
      | with_reducible first
        | assumption | intro _ | apply loadOnce_keeps | apply keeps_ite | exact KeepsOP.none | apply KeepsOP.some
        | apply keepsOP_ite | exact KeepsE.wait | apply KeepsE.done
      | split
  | cons x_ l_ ih =>
    unfold loadLanes
    try dsimp only
    repeat' first
      | with_reducible first
        | assumption | intro _ | apply loadOnce_keeps | apply ih | apply keeps_ite | exact KeepsOP.none
        | apply KeepsOP.some | apply keepsOP_ite | exact KeepsE.wait | apply KeepsE.done | apply KeepsE.trap
        | apply KeepsE.hold | refine KeepsOP.of ?_ (by assumption) | refine KeepsOP.pair ?_ (by assumption)
        | refine KeepsE.ofDone ?_ (by assumption) | refine KeepsE.ofTrap ?_ (by assumption)
        | refine KeepsE.ofHold ?_ (by assumption)
      | split

theorem thenInval_keeps (hcore : F.core) {x : Eff} (h : KeepsE F s₀ x) : KeepsE F s₀ (thenInval x) := by
  cases x with
  | done t u => exact KeepsE.done (invalL1_keeps hcore _ _ (h.ofDone rfl)) | trap a b c u => exact h | wait => exact h
  | hold u => exact h

theorem ldEff_keeps (hregs : F.regs) (hcore : F.core) (hslc : F.slc) (hhbm : F.hbm) (hque : F.que) (hxlt : F.xlt)
    (hrecs : F.recs) (i : Iss) (h : Keeps F s₀ s) :
    KeepsE F s₀ (ldEff i s) := by
  unfold ldEff
  try dsimp only
  with_reducible repeat' first
    | assumption | intro _ | apply memEff_keeps | apply loadLanes_keeps

theorem ldAcqEff_keeps (hregs : F.regs) (hcore : F.core) (hslc : F.slc) (hhbm : F.hbm) (hque : F.que) (hxlt : F.xlt)
    (hrecs : F.recs) (i : Iss) (h : Keeps F s₀ s) :
    KeepsE F s₀ (ldAcqEff i s) := by
  unfold ldAcqEff
  try dsimp only
  repeat' first
    | with_reducible first
      | assumption | intro _ | apply ldEff_keeps | apply memEff_keeps | apply loadLanes_keeps | apply thenInval_keeps
      | apply keeps_ite | exact KeepsE.wait | apply KeepsE.done | apply KeepsE.trap | apply KeepsE.hold
      | refine KeepsE.ofDone ?_ (by assumption) | refine KeepsE.ofTrap ?_ (by assumption)
      | refine KeepsE.ofHold ?_ (by assumption)
    | split

theorem lduEff_keeps (hregs : F.regs) (hcore : F.core) (hslc : F.slc) (hhbm : F.hbm) (hque : F.que) (hxlt : F.xlt)
    (hrecs : F.recs) (i : Iss) (h : Keeps F s₀ s) :
    KeepsE F s₀ (lduEff i s) := by
  unfold lduEff
  try dsimp only
  repeat' first
    | with_reducible first
      | assumption | intro _ | apply translate_keeps | apply loadSector_keeps | apply keeps_ite | exact KeepsOP.none
      | apply KeepsOP.some | apply keepsOP_ite | exact KeepsE.wait | apply KeepsE.done | apply KeepsE.trap
      | apply KeepsE.hold | refine KeepsOP.of ?_ (by assumption) | refine KeepsOP.pair ?_ (by assumption)
      | refine KeepsE.ofDone ?_ (by assumption) | refine KeepsE.ofTrap ?_ (by assumption)
      | refine KeepsE.ofHold ?_ (by assumption)
    | split

theorem prefLane_keeps (hregs : F.regs) (hcore : F.core) (hslc : F.slc) (hhbm : F.hbm) (hque : F.que) (hxlt : F.xlt)
    (hrecs : F.recs) (i : Iss) (n : Nat) (h : Keeps F s₀ s) :
    Keeps F s₀ (prefLane i s n) := by
  unfold prefLane
  try dsimp only
  repeat' first
    | with_reducible first
      | assumption | intro _ | apply translate_keeps | apply loadSector_keeps | apply keeps_ite | exact KeepsOP.none
      | apply KeepsOP.some | apply keepsOP_ite | refine KeepsOP.of ?_ (by assumption)
      | refine KeepsOP.pair ?_ (by assumption)
    | split

theorem prefEff_keeps (hregs : F.regs) (hcore : F.core) (hslc : F.slc) (hhbm : F.hbm) (hque : F.que) (hxlt : F.xlt)
    (hrecs : F.recs) (i : Iss) (h : Keeps F s₀ s) :
    KeepsE F s₀ (prefEff i s) := by
  unfold prefEff
  try dsimp only
  with_reducible repeat' first
    | assumption | intro _ | apply prefLane_keeps | apply foldl_keeps | apply keepsP_foldl | apply keepsQ_foldl
    | apply KeepsP.snd | ((fail_if_success (apply KeepsP.eta)); apply KeepsP.mk') | exact KeepsE.wait
    | apply KeepsE.done

theorem storeSectors_keeps (hregs : F.regs) (hcore : F.core) (hslc : F.slc) (hhbm : F.hbm) (hque : F.que)
    (hxlt : F.xlt) (hrecs : F.recs) (s0 : State) (i : Iss) (x3 : List Gather) (h_s0 : Keeps F s₀ s0)
    (h : Keeps F s₀ s) :
    KeepsE F s₀ (storeSectors s0 i x3 s) := by
  induction x3 generalizing s0 i s with
  | nil =>
    unfold storeSectors
    try dsimp only
    repeat' first
      | with_reducible first
        | assumption | intro _ | apply accWrite_keeps | apply crossPart_keeps | apply l1Store_keeps
        | apply noteSector_keeps | exact KeepsOP.none | apply KeepsOP.some | apply KeepsP.snd
        | ((fail_if_success (apply KeepsP.eta)); apply KeepsP.mk') | exact KeepsE.wait | apply KeepsE.done
      | split
  | cons x_ l_ ih =>
    unfold storeSectors
    try dsimp only
    repeat' first
      | with_reducible first
        | assumption | intro _ | apply accWrite_keeps | apply crossPart_keeps | apply l1Store_keeps
        | apply noteSector_keeps | apply ih | exact KeepsOP.none | apply KeepsOP.some | apply KeepsP.snd
        | ((fail_if_success (apply KeepsP.eta)); apply KeepsP.mk') | exact KeepsE.wait | apply KeepsE.done
        | apply KeepsE.trap | apply KeepsE.hold | refine KeepsOP.of ?_ (by assumption)
        | refine KeepsOP.pair ?_ (by assumption) | refine KeepsP.of ?_ (by assumption)
        | refine KeepsE.ofDone ?_ (by assumption) | refine KeepsE.ofTrap ?_ (by assumption)
        | refine KeepsE.ofHold ?_ (by assumption)
      | split

theorem stEff_keeps (hregs : F.regs) (hcore : F.core) (hslc : F.slc) (hhbm : F.hbm) (hque : F.que) (hxlt : F.xlt)
    (hrecs : F.recs) (i : Iss) (h : Keeps F s₀ s) :
    KeepsE F s₀ (stEff i s) := by
  unfold stEff
  try dsimp only
  with_reducible repeat' first
    | assumption | intro _ | apply memEff_keeps | apply storeSectors_keeps

theorem stRelEff_keeps (hregs : F.regs) (hcore : F.core) (hslc : F.slc) (hhbm : F.hbm) (hque : F.que) (hxlt : F.xlt)
    (hrecs : F.recs) (i : Iss) (h : Keeps F s₀ s) :
    KeepsE F s₀ (stRelEff i s) := by
  unfold stRelEff
  try dsimp only
  with_reducible repeat' first
    | assumption | intro _ | apply stEff_keeps

theorem atomLanes_keeps (hregs : F.regs) (hcore : F.core) (hslc : F.slc) (hhbm : F.hbm) (hque : F.que) (hxlt : F.xlt)
    (hrecs : F.recs) (s0 : State) (op : Iss → Nat) (i : Iss) (x4 : Addrs) (x5 : Troupe) (h_s0 : Keeps F s₀ s0)
    (h : Keeps F s₀ s) :
    KeepsE F s₀ (atomLanes s0 op i x4 x5 s) := by
  induction x4 generalizing s0 op i x5 s with
  | nil =>
    unfold atomLanes
    try dsimp only
    repeat' first
      | with_reducible first
        | assumption | intro _ | apply accAtomic_keeps | apply crossPart_keeps | apply l1Drop_keeps
        | apply noteSector_keeps | apply keeps_ite | exact KeepsOP.none | apply KeepsOP.some | apply keepsOP_ite
        | apply KeepsP.snd | ((fail_if_success (apply KeepsP.eta)); apply KeepsP.mk') | apply keepsP_ite
        | exact KeepsE.wait | apply KeepsE.done
      | split
  | cons x_ l_ ih =>
    unfold atomLanes
    try dsimp only
    repeat' first
      | with_reducible first
        | assumption | intro _ | apply accAtomic_keeps | apply crossPart_keeps | apply l1Drop_keeps
        | apply noteSector_keeps | apply ih | apply keeps_ite | exact KeepsOP.none | apply KeepsOP.some
        | apply keepsOP_ite | apply KeepsP.snd | ((fail_if_success (apply KeepsP.eta)); apply KeepsP.mk')
        | apply keepsP_ite | exact KeepsE.wait | apply KeepsE.done | apply KeepsE.trap | apply KeepsE.hold
        | refine KeepsOP.of ?_ (by assumption) | refine KeepsOP.pair ?_ (by assumption)
        | refine KeepsP.of ?_ (by assumption) | refine KeepsE.ofDone ?_ (by assumption)
        | refine KeepsE.ofTrap ?_ (by assumption) | refine KeepsE.ofHold ?_ (by assumption)
      | split

theorem atomicEff_keeps (hregs : F.regs) (hcore : F.core) (hslc : F.slc) (hhbm : F.hbm) (hque : F.que) (hxlt : F.xlt)
    (hrecs : F.recs) (op : Iss → Nat) (i : Iss) (h : Keeps F s₀ s) :
    KeepsE F s₀ (atomicEff op i s) := by
  unfold atomicEff
  try dsimp only
  with_reducible repeat' first
    | assumption | intro _ | apply memEff_keeps | apply atomLanes_keeps

theorem atomicArEff_keeps (hregs : F.regs) (hcore : F.core) (hslc : F.slc) (hhbm : F.hbm) (hque : F.que)
    (hxlt : F.xlt) (hrecs : F.recs) (op : Iss → Nat) (i : Iss) (h : Keeps F s₀ s) :
    KeepsE F s₀ (atomicArEff op i s) := by
  unfold atomicArEff
  try dsimp only
  repeat' first
    | with_reducible first
      | assumption | intro _ | apply atomicEff_keeps | apply thenInval_keeps | apply keeps_ite | exact KeepsE.wait
      | apply KeepsE.done | apply KeepsE.trap | apply KeepsE.hold | refine KeepsE.ofDone ?_ (by assumption)
      | refine KeepsE.ofTrap ?_ (by assumption) | refine KeepsE.ofHold ?_ (by assumption)
    | split

theorem fenceEff_keeps (hcore : F.core) (i : Iss) (h : Keeps F s₀ s) :
    KeepsE F s₀ (fenceEff i s) := by
  unfold fenceEff
  try dsimp only
  repeat' first
    | with_reducible first
      | assumption | intro _ | apply invalL1_keeps | apply keeps_ite | exact KeepsE.wait | apply KeepsE.done
      | apply KeepsE.trap | apply KeepsE.hold | refine KeepsE.ofDone ?_ (by assumption)
      | refine KeepsE.ofTrap ?_ (by assumption) | refine KeepsE.ofHold ?_ (by assumption)
    | split

theorem putStore_keeps (hcore : F.core) (x : LocalStore) (h : Keeps F s₀ s) :
    Keeps F s₀ (putStore x s) := by
  unfold putStore
  try dsimp only
  with_reducible repeat' first
    | assumption | exact ring_wf_id | exact Memory.wf_id | intro _
    | ((fail_if_success (apply keeps_eta)); apply keeps_mk) | exact Or.inl (by assumption) | exact Or.inr rfl

theorem localEff_keeps (act : Iss → Addrs → LocalStore → State → Eff) (i : Iss)
    (h_act : ∀ y0 y1 y2 u_, Keeps F s₀ u_ → KeepsE F s₀ (act y0 y1 y2 u_)) (h : Keeps F s₀ s) :
    KeepsE F s₀ (localEff act i s) := by
  unfold localEff
  try dsimp only
  repeat' first
    | with_reducible first
      | assumption | intro _ | apply h_act | exact KeepsE.wait | apply KeepsE.done | apply KeepsE.trap
      | apply KeepsE.hold | refine KeepsE.ofDone ?_ (by assumption) | refine KeepsE.ofTrap ?_ (by assumption)
      | refine KeepsE.ofHold ?_ (by assumption)
    | split

theorem ldlEff_keeps (x1 : Iss) (h : Keeps F s₀ s) :
    KeepsE F s₀ (ldlEff x1 s) := by
  unfold ldlEff
  try dsimp only
  with_reducible repeat' first
    | assumption | intro _ | apply localEff_keeps | apply foldl_keeps | apply keepsP_foldl | apply keepsQ_foldl
    | apply KeepsP.snd | ((fail_if_success (apply KeepsP.eta)); apply KeepsP.mk') | exact KeepsE.wait
    | apply KeepsE.done

theorem stlEff_keeps (hcore : F.core) (x1 : Iss) (h : Keeps F s₀ s) :
    KeepsE F s₀ (stlEff x1 s) := by
  unfold stlEff
  try dsimp only
  with_reducible repeat' first
    | assumption | intro _ | apply localEff_keeps | apply putStore_keeps | apply foldl_keeps | apply keepsP_foldl
    | apply keepsQ_foldl | apply KeepsP.snd | ((fail_if_success (apply KeepsP.eta)); apply KeepsP.mk')
    | exact KeepsE.wait | apply KeepsE.done

theorem atomlEff_keeps (hcore : F.core) (x1 : Iss) (h : Keeps F s₀ s) :
    KeepsE F s₀ (atomlEff x1 s) := by
  unfold atomlEff
  try dsimp only
  with_reducible repeat' first
    | assumption | intro _ | apply localEff_keeps | apply putStore_keeps | exact KeepsE.wait | apply KeepsE.done

theorem redstEff_keeps (hregs : F.regs) (hcore : F.core) (hslc : F.slc) (hhbm : F.hbm) (hnet : F.net) (hque : F.que)
    (hprt : F.prt) (hxlt : F.xlt) (hhost : F.host) (hrecs : F.recs) (hout : F.out) (i : Iss) (h : Keeps F s₀ s) :
    KeepsE F s₀ (redstEff i s) := by
  unfold redstEff
  try dsimp only
  with_reducible repeat' first
    | assumption | intro _ | apply memEff_keeps | apply each_keeps | apply contribute_keeps | apply foldl_keeps
    | apply keepsP_foldl | apply keepsQ_foldl | apply KeepsP.snd
    | ((fail_if_success (apply KeepsP.eta)); apply KeepsP.mk') | exact KeepsE.wait | apply KeepsE.done

theorem seqCopy_keeps (hregs : F.regs) (hque : F.que) (t : Troupe) (id : Nat) (h : Keeps F s₀ s) :
    KeepsP F s₀ (seqCopy t id s) := by
  unfold seqCopy
  try dsimp only
  repeat' first
    | with_reducible first
      | assumption | exact ring_wf_id | exact Memory.wf_id | intro _ | apply State.count_keeps
      | ((fail_if_success (apply keeps_eta)); apply keeps_mk) | exact Or.inl (by assumption) | exact Or.inr rfl
      | apply keeps_ite | apply KeepsP.snd | ((fail_if_success (apply KeepsP.eta)); apply KeepsP.mk')
      | apply keepsP_ite | refine KeepsP.of ?_ (by assumption)
    | split

theorem fillSeqCopy_keeps (hque : F.que) (t : Troupe) (id : Nat) (h : Keeps F s₀ s) :
    Keeps F s₀ (fillSeqCopy t id s) := by
  unfold fillSeqCopy
  try dsimp only
  repeat' first
    | with_reducible first
      | assumption | exact ring_wf_id | exact Memory.wf_id | intro _
      | ((fail_if_success (apply keeps_eta)); apply keeps_mk) | exact Or.inl (by assumption) | exact Or.inr rfl
    | split

theorem readVa_keeps (hregs : F.regs) (hslc : F.slc) (hhbm : F.hbm) (hxlt : F.xlt) (hrecs : F.recs) (t : Troupe)
    (va : Nat) (h : Keeps F s₀ s) :
    KeepsOP F s₀ (readVa t va s) := by
  unfold readVa
  try dsimp only
  repeat' first
    | with_reducible first
      | assumption | intro _ | apply translate_keeps | apply readEntry_keeps | exact KeepsOP.none | apply KeepsOP.some
      | refine KeepsOP.of ?_ (by assumption) | refine KeepsOP.pair ?_ (by assumption)
    | split

theorem walkBlocks_keeps (hregs : F.regs) (hslc : F.slc) (hhbm : F.hbm) (hque : F.que) (hxlt : F.xlt) (hrecs : F.recs)
    (t : Troupe) (id : Nat) (dir : Word) (b : Nat) (h : Keeps F s₀ s) :
    KeepsOP F s₀ (walkBlocks t id dir b s) := by
  unfold walkBlocks
  try dsimp only
  repeat' first
    | with_reducible first
      | assumption | exact ring_wf_id | exact Memory.wf_id | intro _ | apply readVa_keeps
      | ((fail_if_success (apply keeps_eta)); apply keeps_mk) | exact Or.inl (by assumption) | exact Or.inr rfl
      | exact KeepsOP.none | apply KeepsOP.some | refine KeepsOP.of ?_ (by assumption)
      | refine KeepsOP.pair ?_ (by assumption)
    | split

theorem blockAddr_keeps (hregs : F.regs) (hslc : F.slc) (hhbm : F.hbm) (hque : F.que) (hxlt : F.xlt) (hrecs : F.recs)
    (t : Troupe) (id : Nat) (dir : Word) (b : Nat) (h : Keeps F s₀ s) :
    KeepsOP F s₀ (blockAddr t id dir b s) := by
  unfold blockAddr
  try dsimp only
  repeat' first
    | with_reducible first
      | assumption | exact ring_wf_id | exact Memory.wf_id | intro _ | apply walkBlocks_keeps
      | apply State.count_keeps | ((fail_if_success (apply keeps_eta)); apply keeps_mk) | exact Or.inl (by assumption)
      | exact Or.inr rfl | apply keeps_ite | exact KeepsOP.none | apply KeepsOP.some | apply keepsOP_ite
      | refine KeepsOP.of ?_ (by assumption) | refine KeepsOP.pair ?_ (by assumption)
    | split

theorem kvEngine_keeps (hregs : F.regs) (hslc : F.slc) (hhbm : F.hbm) (hque : F.que) (hxlt : F.xlt) (hrecs : F.recs)
    (i : Iss) (store : Bool) (l : Launch) (id tok : Nat) (off : Nat → Nat → Nat) (h : Keeps F s₀ s) :
    KeepsOP F s₀ (kvEngine i store l id tok off s) := by
  unfold kvEngine
  try dsimp only
  repeat' first
    | with_reducible first
      | assumption | intro _ | apply fillSeqCopy_keeps | apply blockAddr_keeps | exact KeepsOP.none
      | apply KeepsOP.some | refine KeepsOP.of ?_ (by assumption) | refine KeepsOP.pair ?_ (by assumption)
    | split

theorem kvAddr_keeps (hregs : F.regs) (hslc : F.slc) (hhbm : F.hbm) (hque : F.que) (hxlt : F.xlt) (hrecs : F.recs)
    (i : Iss) (store : Bool) (n : Nat) (h : Keeps F s₀ s) :
    KeepsOP F s₀ (kvAddr i store n s) := by
  unfold kvAddr
  try dsimp only
  repeat' first
    | with_reducible first
      | assumption | intro _ | apply seqCopy_keeps | apply blockAddr_keeps | apply kvEngine_keeps | apply keeps_ite
      | exact KeepsOP.none | apply KeepsOP.some | apply keepsOP_ite | apply KeepsP.snd
      | ((fail_if_success (apply KeepsP.eta)); apply KeepsP.mk') | apply keepsP_ite
      | refine KeepsOP.of ?_ (by assumption) | refine KeepsOP.pair ?_ (by assumption)
      | refine KeepsP.of ?_ (by assumption)
    | split

theorem kvAll_keeps (hregs : F.regs) (hslc : F.slc) (hhbm : F.hbm) (hque : F.que) (hxlt : F.xlt) (hrecs : F.recs)
    (i : Iss) (store : Bool) (x3 : List Nat) (h : Keeps F s₀ s) :
    KeepsOP F s₀ (kvAll i store x3 s) := by
  induction x3 generalizing i store s with
  | nil =>
    unfold kvAll
    try dsimp only
    repeat' first
      | with_reducible first
        | assumption | intro _ | apply kvAddr_keeps | exact KeepsOP.none | apply KeepsOP.some
      | split
  | cons x_ l_ ih =>
    unfold kvAll
    try dsimp only
    repeat' first
      | with_reducible first
        | assumption | intro _ | apply kvAddr_keeps | apply ih | exact KeepsOP.none | apply KeepsOP.some
        | refine KeepsOP.of ?_ (by assumption) | refine KeepsOP.pair ?_ (by assumption)
      | split

theorem kvNack_keeps (hslc : F.slc) (t : Troupe) (h : Keeps F s₀ s) :
    Keeps F s₀ (kvNack t s) := by
  unfold kvNack
  try dsimp only
  with_reducible repeat' first
    | assumption | intro _ | apply backOffFor_keeps | apply endBackOff_keeps

theorem holdKv_keeps (hregs : F.regs) (hslc : F.slc) (hque : F.que) (t : Troupe) (id b : Nat) (h : Keeps F s₀ s) :
    Keeps F s₀ (holdKv t id b s) := by
  unfold holdKv
  try dsimp only
  with_reducible repeat' first
    | assumption | exact ring_wf_id | exact Memory.wf_id | intro _ | apply kvNack_keeps | apply endBackOff_keeps
    | apply State.peak_keeps | apply State.count_keeps | ((fail_if_success (apply keeps_eta)); apply keeps_mk)
    | exact Or.inl (by assumption) | exact Or.inr rfl | apply keeps_ite

theorem unholdKv_keeps (hslc : F.slc) (hque : F.que) (t : Troupe) (h : Keeps F s₀ s) :
    Keeps F s₀ (unholdKv t s) := by
  unfold unholdKv
  try dsimp only
  with_reducible repeat' first
    | assumption | exact ring_wf_id | exact Memory.wf_id | intro _ | apply endBackOff_keeps
    | ((fail_if_success (apply keeps_eta)); apply keeps_mk) | exact Or.inl (by assumption) | exact Or.inr rfl

theorem kvEff_keeps (hregs : F.regs) (hslc : F.slc) (hhbm : F.hbm) (hque : F.que) (hxlt : F.xlt) (hrecs : F.recs)
    (store : Bool) (act : Iss → Addrs → State → Eff) (i : Iss)
    (h_act : ∀ y0 y1 u_, Keeps F s₀ u_ → KeepsE F s₀ (act y0 y1 u_)) (h : Keeps F s₀ s) :
    KeepsE F s₀ (kvEff store act i s) := by
  unfold kvEff
  try dsimp only
  repeat' first
    | with_reducible first
      | assumption | intro _ | apply kvAll_keeps | apply holdKv_keeps | apply unholdKv_keeps | apply xlateAll_keeps
      | apply h_act | apply keeps_ite | exact KeepsOP.none | apply KeepsOP.some | apply keepsOP_ite
      | exact KeepsE.wait | apply KeepsE.done | apply KeepsE.trap | apply KeepsE.hold
      | refine KeepsOP.of ?_ (by assumption) | refine KeepsOP.pair ?_ (by assumption)
      | refine KeepsE.ofDone ?_ (by assumption) | refine KeepsE.ofTrap ?_ (by assumption)
      | refine KeepsE.ofHold ?_ (by assumption)
    | split

theorem ldkvEff_keeps (hregs : F.regs) (hcore : F.core) (hslc : F.slc) (hhbm : F.hbm) (hque : F.que) (hxlt : F.xlt)
    (hrecs : F.recs) (x1 : Iss) (h : Keeps F s₀ s) :
    KeepsE F s₀ (ldkvEff x1 s) := by
  unfold ldkvEff
  try dsimp only
  with_reducible repeat' first
    | assumption | intro _ | apply kvEff_keeps | apply loadLanes_keeps

theorem stkvEff_keeps (hregs : F.regs) (hcore : F.core) (hslc : F.slc) (hhbm : F.hbm) (hque : F.que) (hxlt : F.xlt)
    (hrecs : F.recs) (x1 : Iss) (h : Keeps F s₀ s) :
    KeepsE F s₀ (stkvEff x1 s) := by
  unfold stkvEff
  try dsimp only
  with_reducible repeat' first
    | assumption | intro _ | apply kvEff_keeps | apply storeSectors_keeps

theorem execLd_keeps (hregs : F.regs) (hcore : F.core) (hslc : F.slc) (hhbm : F.hbm) (hnet : F.net) (hque : F.que)
    (hprt : F.prt) (hxlt : F.xlt) (hhost : F.host) (hrecs : F.recs) (hout : F.out) (a : Issue) (f : BitVec 56)
    (h : Keeps F s₀ s) :
    KeepsX F s₀ (execLd a f s) := by
  unfold execLd
  try dsimp only
  with_reducible repeat' first
    | assumption | intro _ | apply coreOp_keeps | apply ldEff_keeps

theorem execSt_keeps (hregs : F.regs) (hcore : F.core) (hslc : F.slc) (hhbm : F.hbm) (hnet : F.net) (hque : F.que)
    (hprt : F.prt) (hxlt : F.xlt) (hhost : F.host) (hrecs : F.recs) (hout : F.out) (a : Issue) (f : BitVec 56)
    (h : Keeps F s₀ s) :
    KeepsX F s₀ (execSt a f s) := by
  unfold execSt
  try dsimp only
  with_reducible repeat' first
    | assumption | intro _ | apply coreOp_keeps | apply stEff_keeps

theorem execLdAcq_keeps (hregs : F.regs) (hcore : F.core) (hslc : F.slc) (hhbm : F.hbm) (hnet : F.net) (hque : F.que)
    (hprt : F.prt) (hxlt : F.xlt) (hhost : F.host) (hrecs : F.recs) (hout : F.out) (a : Issue) (f : BitVec 56)
    (h : Keeps F s₀ s) :
    KeepsX F s₀ (execLdAcq a f s) := by
  unfold execLdAcq
  try dsimp only
  with_reducible repeat' first
    | assumption | intro _ | apply coreOp_keeps | apply ldAcqEff_keeps

theorem execStRel_keeps (hregs : F.regs) (hcore : F.core) (hslc : F.slc) (hhbm : F.hbm) (hnet : F.net) (hque : F.que)
    (hprt : F.prt) (hxlt : F.xlt) (hhost : F.host) (hrecs : F.recs) (hout : F.out) (a : Issue) (f : BitVec 56)
    (h : Keeps F s₀ s) :
    KeepsX F s₀ (execStRel a f s) := by
  unfold execStRel
  try dsimp only
  with_reducible repeat' first
    | assumption | intro _ | apply coreOp_keeps | apply stRelEff_keeps

theorem execLdl_keeps (hregs : F.regs) (hcore : F.core) (hslc : F.slc) (hhbm : F.hbm) (hnet : F.net) (hque : F.que)
    (hprt : F.prt) (hxlt : F.xlt) (hhost : F.host) (hrecs : F.recs) (hout : F.out) (a : Issue) (f : BitVec 56)
    (h : Keeps F s₀ s) :
    KeepsX F s₀ (execLdl a f s) := by
  unfold execLdl
  try dsimp only
  with_reducible repeat' first
    | assumption | intro _ | apply coreOp_keeps | apply ldlEff_keeps

theorem execStl_keeps (hregs : F.regs) (hcore : F.core) (hslc : F.slc) (hhbm : F.hbm) (hnet : F.net) (hque : F.que)
    (hprt : F.prt) (hxlt : F.xlt) (hhost : F.host) (hrecs : F.recs) (hout : F.out) (a : Issue) (f : BitVec 56)
    (h : Keeps F s₀ s) :
    KeepsX F s₀ (execStl a f s) := by
  unfold execStl
  try dsimp only
  with_reducible repeat' first
    | assumption | intro _ | apply coreOp_keeps | apply stlEff_keeps

theorem execLdu_keeps (hregs : F.regs) (hcore : F.core) (hslc : F.slc) (hhbm : F.hbm) (hnet : F.net) (hque : F.que)
    (hprt : F.prt) (hxlt : F.xlt) (hhost : F.host) (hrecs : F.recs) (hout : F.out) (a : Issue) (f : BitVec 56)
    (h : Keeps F s₀ s) :
    KeepsX F s₀ (execLdu a f s) := by
  unfold execLdu
  try dsimp only
  with_reducible repeat' first
    | assumption | intro _ | apply coreOp_keeps | apply lduEff_keeps

theorem execPref_keeps (hregs : F.regs) (hcore : F.core) (hslc : F.slc) (hhbm : F.hbm) (hnet : F.net) (hque : F.que)
    (hprt : F.prt) (hxlt : F.xlt) (hhost : F.host) (hrecs : F.recs) (hout : F.out) (a : Issue) (f : BitVec 56)
    (h : Keeps F s₀ s) :
    KeepsX F s₀ (execPref a f s) := by
  unfold execPref
  try dsimp only
  with_reducible repeat' first
    | assumption | intro _ | apply coreOp_keeps | apply prefEff_keeps

theorem execAtom_keeps (hregs : F.regs) (hcore : F.core) (hslc : F.slc) (hhbm : F.hbm) (hnet : F.net) (hque : F.que)
    (hprt : F.prt) (hxlt : F.xlt) (hhost : F.host) (hrecs : F.recs) (hout : F.out) (a : Issue) (f : BitVec 56)
    (h : Keeps F s₀ s) :
    KeepsX F s₀ (execAtom a f s) := by
  unfold execAtom
  try dsimp only
  with_reducible repeat' first
    | assumption | intro _ | apply coreOp_keeps | apply atomicEff_keeps

theorem execAtomAr_keeps (hregs : F.regs) (hcore : F.core) (hslc : F.slc) (hhbm : F.hbm) (hnet : F.net) (hque : F.que)
    (hprt : F.prt) (hxlt : F.xlt) (hhost : F.host) (hrecs : F.recs) (hout : F.out) (a : Issue) (f : BitVec 56)
    (h : Keeps F s₀ s) :
    KeepsX F s₀ (execAtomAr a f s) := by
  unfold execAtomAr
  try dsimp only
  with_reducible repeat' first
    | assumption | intro _ | apply coreOp_keeps | apply atomicArEff_keeps

theorem execAtomf_keeps (hregs : F.regs) (hcore : F.core) (hslc : F.slc) (hhbm : F.hbm) (hnet : F.net) (hque : F.que)
    (hprt : F.prt) (hxlt : F.xlt) (hhost : F.host) (hrecs : F.recs) (hout : F.out) (a : Issue) (f : BitVec 56)
    (h : Keeps F s₀ s) :
    KeepsX F s₀ (execAtomf a f s) := by
  unfold execAtomf
  try dsimp only
  with_reducible repeat' first
    | assumption | intro _ | apply coreOp_keeps | apply atomicEff_keeps

theorem execAtomfAr_keeps (hregs : F.regs) (hcore : F.core) (hslc : F.slc) (hhbm : F.hbm) (hnet : F.net)
    (hque : F.que) (hprt : F.prt) (hxlt : F.xlt) (hhost : F.host) (hrecs : F.recs) (hout : F.out) (a : Issue)
    (f : BitVec 56) (h : Keeps F s₀ s) :
    KeepsX F s₀ (execAtomfAr a f s) := by
  unfold execAtomfAr
  try dsimp only
  with_reducible repeat' first
    | assumption | intro _ | apply coreOp_keeps | apply atomicArEff_keeps

theorem execAtoml_keeps (hregs : F.regs) (hcore : F.core) (hslc : F.slc) (hhbm : F.hbm) (hnet : F.net) (hque : F.que)
    (hprt : F.prt) (hxlt : F.xlt) (hhost : F.host) (hrecs : F.recs) (hout : F.out) (a : Issue) (f : BitVec 56)
    (h : Keeps F s₀ s) :
    KeepsX F s₀ (execAtoml a f s) := by
  unfold execAtoml
  try dsimp only
  with_reducible repeat' first
    | assumption | intro _ | apply coreOp_keeps | apply atomlEff_keeps

theorem execFence_keeps (hregs : F.regs) (hcore : F.core) (hslc : F.slc) (hhbm : F.hbm) (hnet : F.net) (hque : F.que)
    (hprt : F.prt) (hxlt : F.xlt) (hhost : F.host) (hrecs : F.recs) (hout : F.out) (a : Issue) (f : BitVec 56)
    (h : Keeps F s₀ s) :
    KeepsX F s₀ (execFence a f s) := by
  unfold execFence
  try dsimp only
  with_reducible repeat' first
    | assumption | intro _ | apply coreOp_keeps | apply fenceEff_keeps

theorem execRedst_keeps (hregs : F.regs) (hcore : F.core) (hslc : F.slc) (hhbm : F.hbm) (hnet : F.net) (hque : F.que)
    (hprt : F.prt) (hxlt : F.xlt) (hhost : F.host) (hrecs : F.recs) (hout : F.out) (a : Issue) (f : BitVec 56)
    (h : Keeps F s₀ s) :
    KeepsX F s₀ (execRedst a f s) := by
  unfold execRedst
  try dsimp only
  with_reducible repeat' first
    | assumption | intro _ | apply coreOp_keeps | apply redstEff_keeps

theorem execLdkv_keeps (hregs : F.regs) (hcore : F.core) (hslc : F.slc) (hhbm : F.hbm) (hnet : F.net) (hque : F.que)
    (hprt : F.prt) (hxlt : F.xlt) (hhost : F.host) (hrecs : F.recs) (hout : F.out) (a : Issue) (f : BitVec 56)
    (h : Keeps F s₀ s) :
    KeepsX F s₀ (execLdkv a f s) := by
  unfold execLdkv
  try dsimp only
  with_reducible repeat' first
    | assumption | intro _ | apply coreOp_keeps | apply ldkvEff_keeps

theorem execStkv_keeps (hregs : F.regs) (hcore : F.core) (hslc : F.slc) (hhbm : F.hbm) (hnet : F.net) (hque : F.que)
    (hprt : F.prt) (hxlt : F.xlt) (hhost : F.host) (hrecs : F.recs) (hout : F.out) (a : Issue) (f : BitVec 56)
    (h : Keeps F s₀ s) :
    KeepsX F s₀ (execStkv a f s) := by
  unfold execStkv
  try dsimp only
  with_reducible repeat' first
    | assumption | intro _ | apply coreOp_keeps | apply stkvEff_keeps

end Sys2Proof.Machine
end

