-- ==== Sys2Proof/Laws/KeepsPower.lean ====
section
/-! SUPPORT. What each effect of Machine/Power.lean may change (see Laws/Keeps.lean). -/

namespace Sys2Proof.Machine

variable {F : Frame} {s₀ s : State}

theorem shelfPowerGood_keeps (hrack : F.rack) (shelf : Nat) (h : Keeps F s₀ s) :
    Keeps F s₀ (shelfPowerGood shelf s) := by
  unfold shelfPowerGood
  try dsimp only
  with_reducible repeat' first
    | assumption | exact ring_wf_id | exact Memory.wf_id | intro _
    | ((fail_if_success (apply keeps_eta)); apply keeps_mk) | exact Or.inl (by assumption) | exact Or.inr rfl
    | apply keeps_ite

theorem execShelfPowerGood_keeps (hrack : F.rack) (shelf : Nat) (h : Keeps F s₀ s) :
    KeepsX F s₀ (execShelfPowerGood shelf s) := by
  unfold execShelfPowerGood
  try dsimp only
  with_reducible repeat' first
    | assumption | intro _ | apply shelfPowerGood_keeps | apply KeepsX.next

theorem rmBoot_keeps (hrack : F.rack) (hboot : F.boot) (pairing : List PairEntry) (rack sp0 sp1 : Compat)
    (rackNo censusMs : Nat) (h : Keeps F s₀ s) :
    Keeps F s₀ (rmBoot pairing rack sp0 sp1 rackNo censusMs s) := by
  unfold rmBoot
  try dsimp only
  with_reducible repeat' first
    | assumption | exact ring_wf_id | exact Memory.wf_id | intro _
    | ((fail_if_success (apply keeps_eta)); apply keeps_mk) | exact Or.inl (by assumption) | exact Or.inr rfl
    | apply keeps_ite

theorem execRmBoot_keeps (hrack : F.rack) (hboot : F.boot) (pairing : List PairEntry) (rack sp0 sp1 : Compat)
    (setUp : RackSetUp) (h : Keeps F s₀ s) :
    KeepsX F s₀ (execRmBoot pairing rack sp0 sp1 setUp s) := by
  unfold execRmBoot
  try dsimp only
  with_reducible repeat' first
    | assumption | intro _ | apply rmBoot_keeps | apply KeepsX.next

theorem assertModEn_keeps (hrack : F.rack) (h : Keeps F s₀ s) :
    Keeps F s₀ (assertModEn s) := by
  unfold assertModEn
  try dsimp only
  with_reducible repeat' first
    | assumption | exact ring_wf_id | exact Memory.wf_id | intro _
    | ((fail_if_success (apply keeps_eta)); apply keeps_mk) | exact Or.inl (by assumption) | exact Or.inr rfl

theorem modEnAssert_keeps (hrack : F.rack) (spine0 spine1 after120s : Bool) (h : Keeps F s₀ s) :
    Keeps F s₀ (modEnAssert spine0 spine1 after120s s) := by
  unfold modEnAssert
  try dsimp only
  with_reducible repeat' first
    | assumption | exact ring_wf_id | exact Memory.wf_id | intro _ | apply assertModEn_keeps
    | ((fail_if_success (apply keeps_eta)); apply keeps_mk) | exact Or.inl (by assumption) | exact Or.inr rfl
    | apply keeps_ite

theorem execModEnAssert_keeps (hrack : F.rack) (spine0 spine1 after120s : Bool) (h : Keeps F s₀ s) :
    KeepsX F s₀ (execModEnAssert spine0 spine1 after120s s) := by
  unfold execModEnAssert
  try dsimp only
  with_reducible repeat' first
    | assumption | intro _ | apply modEnAssert_keeps | apply KeepsX.next

theorem diePowerGood_keeps (hregs : F.regs) (hrack : F.rack) (hboot : F.boot) (himg : F.img) (d : Nat)
    (h : Keeps F s₀ s) :
    Keeps F s₀ (diePowerGood d s) := by
  unfold diePowerGood
  try dsimp only
  with_reducible repeat' first
    | assumption | exact ring_wf_id | exact Memory.wf_id | intro _ | apply bootReset_keeps | apply State.wr_keeps
    | ((fail_if_success (apply keeps_eta)); apply keeps_mk) | exact Or.inl (by assumption) | exact Or.inr rfl
    | apply keeps_ite

theorem execDiePowerGood_keeps (hregs : F.regs) (hrack : F.rack) (hboot : F.boot) (himg : F.img) (d : Nat)
    (h : Keeps F s₀ s) :
    KeepsX F s₀ (execDiePowerGood d s) := by
  unfold execDiePowerGood
  try dsimp only
  with_reducible repeat' first
    | assumption | intro _ | apply onDie_keeps | apply diePowerGood_keeps

theorem dropModEn_keeps (hregs : F.regs) (hrack : F.rack) (hboot : F.boot) (himg : F.img) (hcore : F.core)
    (hslc : F.slc) (hhbm : F.hbm) (hnet : F.net) (hque : F.que) (hprt : F.prt) (hxlt : F.xlt) (hhost : F.host)
    (hrecs : F.recs) (hout : F.out) (m : Nat) (h : Keeps F s₀ s) :
    Keeps F s₀ (dropModEn m s) := by
  unfold dropModEn
  try dsimp only
  with_reducible repeat' first
    | assumption | exact ring_wf_id | exact Memory.wf_id | intro _ | apply modulePowerOff_keeps
    | ((fail_if_success (apply keeps_eta)); apply keeps_mk) | exact Or.inl (by assumption) | exact Or.inr rfl
    | apply keeps_ite

theorem execModEnDrop_keeps (hregs : F.regs) (hrack : F.rack) (hboot : F.boot) (himg : F.img) (hcore : F.core)
    (hslc : F.slc) (hhbm : F.hbm) (hnet : F.net) (hque : F.que) (hprt : F.prt) (hxlt : F.xlt) (hhost : F.host)
    (hrecs : F.recs) (hout : F.out) (m : Nat) (h : Keeps F s₀ s) :
    KeepsX F s₀ (execModEnDrop m s) := by
  unfold execModEnDrop
  try dsimp only
  with_reducible repeat' first
    | assumption | intro _ | apply onDie_keeps | apply dropModEn_keeps

theorem busbarLoss_keeps (hregs : F.regs) (hrack : F.rack) (hboot : F.boot) (himg : F.img) (hcore : F.core)
    (hslc : F.slc) (hhbm : F.hbm) (hnet : F.net) (hque : F.que) (hprt : F.prt) (hxlt : F.xlt) (hhost : F.host)
    (hrecs : F.recs) (hout : F.out) (h : Keeps F s₀ s) :
    Keeps F s₀ (busbarLoss s) := by
  unfold busbarLoss
  try dsimp only
  with_reducible repeat' first
    | assumption | exact ring_wf_id | exact Memory.wf_id | intro _ | apply each_keeps | apply dieUnpower_keeps
    | apply rackRestart_keeps | ((fail_if_success (apply keeps_eta)); apply keeps_mk) | exact Or.inl (by assumption)
    | exact Or.inr rfl | apply keeps_ite

theorem execBusbarLoss_keeps (hregs : F.regs) (hrack : F.rack) (hboot : F.boot) (himg : F.img) (hcore : F.core)
    (hslc : F.slc) (hhbm : F.hbm) (hnet : F.net) (hque : F.que) (hprt : F.prt) (hxlt : F.xlt) (hhost : F.host)
    (hrecs : F.recs) (hout : F.out) (h : Keeps F s₀ s) :
    KeepsX F s₀ (execBusbarLoss s) := by
  unfold execBusbarLoss
  try dsimp only
  with_reducible repeat' first
    | assumption | intro _ | apply busbarLoss_keeps | apply KeepsX.next

theorem shelfFailure_keeps (hregs : F.regs) (hrack : F.rack) (hboot : F.boot) (himg : F.img) (hcore : F.core)
    (hslc : F.slc) (hhbm : F.hbm) (hnet : F.net) (hque : F.que) (hprt : F.prt) (hxlt : F.xlt) (hhost : F.host)
    (hrecs : F.recs) (hout : F.out) (shelf : Nat) (whole : Bool) (h : Keeps F s₀ s) :
    Keeps F s₀ (shelfFailure shelf whole s) := by
  unfold shelfFailure
  try dsimp only
  with_reducible repeat' first
    | assumption | exact ring_wf_id | exact Memory.wf_id | intro _ | apply busbarLoss_keeps
    | ((fail_if_success (apply keeps_eta)); apply keeps_mk) | exact Or.inl (by assumption) | exact Or.inr rfl
    | apply keeps_ite

theorem execShelfFailure_keeps (hregs : F.regs) (hrack : F.rack) (hboot : F.boot) (himg : F.img) (hcore : F.core)
    (hslc : F.slc) (hhbm : F.hbm) (hnet : F.net) (hque : F.que) (hprt : F.prt) (hxlt : F.xlt) (hhost : F.host)
    (hrecs : F.recs) (hout : F.out) (shelf : Nat) (whole : Bool) (h : Keeps F s₀ s) :
    KeepsX F s₀ (execShelfFailure shelf whole s) := by
  unfold execShelfFailure
  try dsimp only
  with_reducible repeat' first
    | assumption | intro _ | apply shelfFailure_keeps | apply KeepsX.next

theorem coolingOff_keeps (hregs : F.regs) (hrack : F.rack) (hboot : F.boot) (himg : F.img) (hcore : F.core)
    (hslc : F.slc) (hhbm : F.hbm) (hnet : F.net) (hque : F.que) (hprt : F.prt) (hxlt : F.xlt) (hhost : F.host)
    (hrecs : F.recs) (hout : F.out) (h : Keeps F s₀ s) :
    Keeps F s₀ (coolingOff s) := by
  unfold coolingOff
  try dsimp only
  with_reducible repeat' first
    | assumption | exact ring_wf_id | exact Memory.wf_id | intro _ | apply each_keeps | apply dropModEn_keeps
    | ((fail_if_success (apply keeps_eta)); apply keeps_mk) | exact Or.inl (by assumption)

theorem cduCheck_keeps (hregs : F.regs) (hrack : F.rack) (hboot : F.boot) (himg : F.img) (hcore : F.core)
    (hslc : F.slc) (hhbm : F.hbm) (hnet : F.net) (hque : F.que) (hprt : F.prt) (hxlt : F.xlt) (hhost : F.host)
    (hrecs : F.recs) (hout : F.out) (inlet flow : Nat) (h : Keeps F s₀ s) :
    Keeps F s₀ (cduCheck inlet flow s) := by
  unfold cduCheck
  try dsimp only
  with_reducible repeat' first
    | assumption | exact ring_wf_id | exact Memory.wf_id | intro _ | apply assertModEn_keeps | apply coolingOff_keeps
    | ((fail_if_success (apply keeps_eta)); apply keeps_mk) | exact Or.inl (by assumption) | exact Or.inr rfl
    | apply keeps_ite

theorem execCduCheck_keeps (hregs : F.regs) (hrack : F.rack) (hboot : F.boot) (himg : F.img) (hcore : F.core)
    (hslc : F.slc) (hhbm : F.hbm) (hnet : F.net) (hque : F.que) (hprt : F.prt) (hxlt : F.xlt) (hhost : F.host)
    (hrecs : F.recs) (hout : F.out) (inlet flow : Nat) (h : Keeps F s₀ s) :
    KeepsX F s₀ (execCduCheck inlet flow s) := by
  unfold execCduCheck
  try dsimp only
  with_reducible repeat' first
    | assumption | intro _ | apply cduCheck_keeps | apply KeepsX.next

theorem alert_keeps (hrack : F.rack) (m : Nat) (h : Keeps F s₀ s) :
    Keeps F s₀ (alert m s) := by
  unfold alert
  try dsimp only
  with_reducible repeat' first
    | assumption | exact ring_wf_id | exact Memory.wf_id | intro _
    | ((fail_if_success (apply keeps_eta)); apply keeps_mk) | exact Or.inl (by assumption) | exact Or.inr rfl

theorem moduleLeak_keeps (hregs : F.regs) (hrack : F.rack) (hboot : F.boot) (himg : F.img) (hcore : F.core)
    (hslc : F.slc) (hhbm : F.hbm) (hnet : F.net) (hque : F.que) (hprt : F.prt) (hxlt : F.xlt) (hhost : F.host)
    (hrecs : F.recs) (hout : F.out) (m : Nat) (h : Keeps F s₀ s) :
    Keeps F s₀ (moduleLeak m s) := by
  unfold moduleLeak
  try dsimp only
  with_reducible repeat' first
    | assumption | exact ring_wf_id | exact Memory.wf_id | intro _ | apply dropModEn_keeps | apply alert_keeps
    | ((fail_if_success (apply keeps_eta)); apply keeps_mk) | exact Or.inl (by assumption) | exact Or.inr rfl
    | apply keeps_ite

theorem execLeak_keeps (hregs : F.regs) (hrack : F.rack) (hboot : F.boot) (himg : F.img) (hcore : F.core)
    (hslc : F.slc) (hhbm : F.hbm) (hnet : F.net) (hque : F.que) (hprt : F.prt) (hxlt : F.xlt) (hhost : F.host)
    (hrecs : F.recs) (hout : F.out) (m : Option Nat) (h : Keeps F s₀ s) :
    KeepsX F s₀ (execLeak m s) := by
  unfold execLeak
  try dsimp only
  repeat' first
    | with_reducible first
      | assumption | intro _ | apply onDie_keeps | apply moduleLeak_keeps | apply cduCheck_keeps | apply KeepsX.next
      | exact KeepsX.fault | exact KeepsX.refused
    | split

theorem stageFault_keeps (hregs : F.regs) (hrack : F.rack) (hboot : F.boot) (himg : F.img) (hcore : F.core)
    (hslc : F.slc) (hhbm : F.hbm) (hnet : F.net) (hque : F.que) (hprt : F.prt) (hxlt : F.xlt) (hhost : F.host)
    (hrecs : F.recs) (hout : F.out) (d : Nat) (h : Keeps F s₀ s) :
    Keeps F s₀ (stageFault d s) := by
  unfold stageFault
  try dsimp only
  with_reducible repeat' first
    | assumption | exact ring_wf_id | exact Memory.wf_id | intro _ | apply dieUnpower_keeps | apply alert_keeps
    | ((fail_if_success (apply keeps_eta)); apply keeps_mk) | exact Or.inl (by assumption) | exact Or.inr rfl
    | apply keeps_ite

theorem execStageFault_keeps (hregs : F.regs) (hrack : F.rack) (hboot : F.boot) (himg : F.img) (hcore : F.core)
    (hslc : F.slc) (hhbm : F.hbm) (hnet : F.net) (hque : F.que) (hprt : F.prt) (hxlt : F.xlt) (hhost : F.host)
    (hrecs : F.recs) (hout : F.out) (d : Nat) (h : Keeps F s₀ s) :
    KeepsX F s₀ (execStageFault d s) := by
  unfold execStageFault
  try dsimp only
  with_reducible repeat' first
    | assumption | intro _ | apply onDie_keeps | apply stageFault_keeps

theorem moduleRemove_keeps (hregs : F.regs) (hrack : F.rack) (hboot : F.boot) (himg : F.img) (hcore : F.core)
    (hslc : F.slc) (hhbm : F.hbm) (hnet : F.net) (hque : F.que) (hprt : F.prt) (hxlt : F.xlt) (hhost : F.host)
    (hrecs : F.recs) (hout : F.out) (m : Nat) (h : Keeps F s₀ s) :
    Keeps F s₀ (moduleRemove m s) := by
  unfold moduleRemove
  try dsimp only
  with_reducible repeat' first
    | assumption | exact ring_wf_id | exact Memory.wf_id | intro _ | apply dropModEn_keeps
    | ((fail_if_success (apply keeps_eta)); apply keeps_mk) | exact Or.inl (by assumption) | exact Or.inr rfl
    | apply keeps_ite

theorem execModuleRemove_keeps (hregs : F.regs) (hrack : F.rack) (hboot : F.boot) (himg : F.img) (hcore : F.core)
    (hslc : F.slc) (hhbm : F.hbm) (hnet : F.net) (hque : F.que) (hprt : F.prt) (hxlt : F.xlt) (hhost : F.host)
    (hrecs : F.recs) (hout : F.out) (m : Nat) (h : Keeps F s₀ s) :
    KeepsX F s₀ (execModuleRemove m s) := by
  unfold execModuleRemove
  try dsimp only
  with_reducible repeat' first
    | assumption | intro _ | apply onDie_keeps | apply moduleRemove_keeps

theorem moduleInsert_keeps (hrack : F.rack) (m : Nat) (h : Keeps F s₀ s) :
    Keeps F s₀ (moduleInsert m s) := by
  unfold moduleInsert
  try dsimp only
  with_reducible repeat' first
    | assumption | exact ring_wf_id | exact Memory.wf_id | intro _
    | ((fail_if_success (apply keeps_eta)); apply keeps_mk) | exact Or.inl (by assumption) | exact Or.inr rfl
    | apply keeps_ite

theorem execModuleInsert_keeps (hrack : F.rack) (m : Nat) (h : Keeps F s₀ s) :
    KeepsX F s₀ (execModuleInsert m s) := by
  unfold execModuleInsert
  try dsimp only
  with_reducible repeat' first
    | assumption | intro _ | apply onDie_keeps | apply moduleInsert_keeps

theorem moduleFlashWrite_keeps (hrack : F.rack) (m image copy : Nat) (c : FlashCopy) (h : Keeps F s₀ s) :
    Keeps F s₀ (moduleFlashWrite m image copy c s) := by
  unfold moduleFlashWrite
  try dsimp only
  with_reducible repeat' first
    | assumption | exact ring_wf_id | exact Memory.wf_id | intro _
    | ((fail_if_success (apply keeps_eta)); apply keeps_mk) | exact Or.inl (by assumption) | exact Or.inr rfl
    | apply keeps_ite

theorem execModuleFlashWrite_keeps (hrack : F.rack) (m image copy : Nat) (c : FlashCopy) (h : Keeps F s₀ s) :
    KeepsX F s₀ (execModuleFlashWrite m image copy c s) := by
  unfold execModuleFlashWrite
  try dsimp only
  with_reducible repeat' first
    | assumption | intro _ | apply onDie_keeps | apply moduleFlashWrite_keeps

theorem spineSledReplace_keeps (hregs : F.regs) (hrack : F.rack) (plane : Nat) (h : Keeps F s₀ s) :
    Keeps F s₀ (spineSledReplace plane s) := by
  unfold spineSledReplace
  try dsimp only
  with_reducible repeat' first
    | assumption | exact ring_wf_id | exact Memory.wf_id | intro _ | apply State.resetRegs_keeps
    | ((fail_if_success (apply keeps_eta)); apply keeps_mk) | exact Or.inl (by assumption) | exact Or.inr rfl
    | apply keeps_ite

theorem execSpineSledReplace_keeps (hregs : F.regs) (hrack : F.rack) (plane : Nat) (h : Keeps F s₀ s) :
    KeepsX F s₀ (execSpineSledReplace plane s) := by
  unfold execSpineSledReplace
  try dsimp only
  with_reducible repeat' first
    | assumption | intro _ | apply spineSledReplace_keeps | apply KeepsX.next

end Sys2Proof.Machine
end

