-- ==== Sys2Proof/Laws/KeepsScalar.lean ====
section
/-! SUPPORT. What each effect of Machine/Scalar.lean may change (see Laws/Keeps.lean). -/

namespace Sys2Proof.Machine

variable {F : Frame} {s₀ s : State}

theorem onceEff_keeps (f : Iss → State → Troupe × State) (i : Iss)
    (h_f : ∀ y0 u_, Keeps F s₀ u_ → KeepsP F s₀ (f y0 u_)) (h : Keeps F s₀ s) :
    KeepsE F s₀ (onceEff f i s) := by
  unfold onceEff
  try dsimp only
  repeat' first
    | with_reducible first
      | assumption | intro _ | apply h_f | apply keeps_ite | apply KeepsP.snd
      | ((fail_if_success (apply KeepsP.eta)); apply KeepsP.mk') | apply keepsP_ite | exact KeepsE.wait
      | apply KeepsE.done | apply KeepsE.trap | apply KeepsE.hold | refine KeepsP.of ?_ (by assumption)
      | refine KeepsE.ofDone ?_ (by assumption) | refine KeepsE.ofTrap ?_ (by assumption)
      | refine KeepsE.ofHold ?_ (by assumption)
    | split

theorem scalarEff_keeps (f : Iss → Lane) (x2 : Iss) (h : Keeps F s₀ s) :
    KeepsE F s₀ (scalarEff f x2 s) := by
  unfold scalarEff
  try dsimp only
  with_reducible repeat' first
    | assumption | intro _ | apply onceEff_keeps | apply KeepsP.snd
    | ((fail_if_success (apply KeepsP.eta)); apply KeepsP.mk')

theorem scmpEff_keeps (x1 : Iss) (h : Keeps F s₀ s) :
    KeepsE F s₀ (scmpEff x1 s) := by
  unfold scmpEff
  try dsimp only
  with_reducible repeat' first
    | assumption | intro _ | apply onceEff_keeps | apply KeepsP.snd
    | ((fail_if_success (apply KeepsP.eta)); apply KeepsP.mk')

theorem sadd64Eff_keeps (x1 : Iss) (h : Keeps F s₀ s) :
    KeepsE F s₀ (sadd64Eff x1 s) := by
  unfold sadd64Eff
  try dsimp only
  with_reducible repeat' first
    | assumption | intro _ | apply onceEff_keeps | apply KeepsP.snd
    | ((fail_if_success (apply KeepsP.eta)); apply KeepsP.mk')

theorem execSadd_keeps (hregs : F.regs) (hcore : F.core) (hslc : F.slc) (hhbm : F.hbm) (hnet : F.net) (hque : F.que)
    (hprt : F.prt) (hxlt : F.xlt) (hhost : F.host) (hrecs : F.recs) (hout : F.out) (a : Issue) (imm : Bool)
    (f : BitVec 56) (h : Keeps F s₀ s) :
    KeepsX F s₀ (execSadd a imm f s) := by
  unfold execSadd
  try dsimp only
  with_reducible repeat' first
    | assumption | intro _ | apply coreOp_keeps | apply scalarEff_keeps

theorem execSsub_keeps (hregs : F.regs) (hcore : F.core) (hslc : F.slc) (hhbm : F.hbm) (hnet : F.net) (hque : F.que)
    (hprt : F.prt) (hxlt : F.xlt) (hhost : F.host) (hrecs : F.recs) (hout : F.out) (a : Issue) (imm : Bool)
    (f : BitVec 56) (h : Keeps F s₀ s) :
    KeepsX F s₀ (execSsub a imm f s) := by
  unfold execSsub
  try dsimp only
  with_reducible repeat' first
    | assumption | intro _ | apply coreOp_keeps | apply scalarEff_keeps

theorem execSmul_keeps (hregs : F.regs) (hcore : F.core) (hslc : F.slc) (hhbm : F.hbm) (hnet : F.net) (hque : F.que)
    (hprt : F.prt) (hxlt : F.xlt) (hhost : F.host) (hrecs : F.recs) (hout : F.out) (a : Issue) (imm : Bool)
    (f : BitVec 56) (h : Keeps F s₀ s) :
    KeepsX F s₀ (execSmul a imm f s) := by
  unfold execSmul
  try dsimp only
  with_reducible repeat' first
    | assumption | intro _ | apply coreOp_keeps | apply scalarEff_keeps

theorem execSlog_keeps (hregs : F.regs) (hcore : F.core) (hslc : F.slc) (hhbm : F.hbm) (hnet : F.net) (hque : F.que)
    (hprt : F.prt) (hxlt : F.xlt) (hhost : F.host) (hrecs : F.recs) (hout : F.out) (a : Issue) (imm : Bool)
    (f : BitVec 56) (h : Keeps F s₀ s) :
    KeepsX F s₀ (execSlog a imm f s) := by
  unfold execSlog
  try dsimp only
  with_reducible repeat' first
    | assumption | intro _ | apply coreOp_keeps | apply scalarEff_keeps

theorem execSsh_keeps (hregs : F.regs) (hcore : F.core) (hslc : F.slc) (hhbm : F.hbm) (hnet : F.net) (hque : F.que)
    (hprt : F.prt) (hxlt : F.xlt) (hhost : F.host) (hrecs : F.recs) (hout : F.out) (a : Issue) (imm : Bool)
    (f : BitVec 56) (h : Keeps F s₀ s) :
    KeepsX F s₀ (execSsh a imm f s) := by
  unfold execSsh
  try dsimp only
  with_reducible repeat' first
    | assumption | intro _ | apply coreOp_keeps | apply scalarEff_keeps

theorem execSmov_keeps (hregs : F.regs) (hcore : F.core) (hslc : F.slc) (hhbm : F.hbm) (hnet : F.net) (hque : F.que)
    (hprt : F.prt) (hxlt : F.xlt) (hhost : F.host) (hrecs : F.recs) (hout : F.out) (a : Issue) (imm : Bool)
    (f : BitVec 56) (h : Keeps F s₀ s) :
    KeepsX F s₀ (execSmov a imm f s) := by
  unfold execSmov
  try dsimp only
  with_reducible repeat' first
    | assumption | intro _ | apply coreOp_keeps | apply scalarEff_keeps

theorem execScmp_keeps (hregs : F.regs) (hcore : F.core) (hslc : F.slc) (hhbm : F.hbm) (hnet : F.net) (hque : F.que)
    (hprt : F.prt) (hxlt : F.xlt) (hhost : F.host) (hrecs : F.recs) (hout : F.out) (a : Issue) (imm : Bool)
    (f : BitVec 56) (h : Keeps F s₀ s) :
    KeepsX F s₀ (execScmp a imm f s) := by
  unfold execScmp
  try dsimp only
  with_reducible repeat' first
    | assumption | intro _ | apply coreOp_keeps | apply scmpEff_keeps

theorem execSadd64_keeps (hregs : F.regs) (hcore : F.core) (hslc : F.slc) (hhbm : F.hbm) (hnet : F.net) (hque : F.que)
    (hprt : F.prt) (hxlt : F.xlt) (hhost : F.host) (hrecs : F.recs) (hout : F.out) (a : Issue) (imm : Bool)
    (f : BitVec 56) (h : Keeps F s₀ s) :
    KeepsX F s₀ (execSadd64 a imm f s) := by
  unfold execSadd64
  try dsimp only
  with_reducible repeat' first
    | assumption | intro _ | apply coreOp_keeps | apply sadd64Eff_keeps

theorem sreadEff_keeps (x1 : Iss) (h : Keeps F s₀ s) :
    KeepsE F s₀ (sreadEff x1 s) := by
  unfold sreadEff
  try dsimp only
  with_reducible repeat' first
    | assumption | intro _ | apply onceEff_keeps | apply KeepsP.snd
    | ((fail_if_success (apply KeepsP.eta)); apply KeepsP.mk')

theorem vreadEff_keeps (i : Iss) (h : Keeps F s₀ s) :
    KeepsE F s₀ (vreadEff i s) := by
  unfold vreadEff
  try dsimp only
  repeat' first
    | with_reducible first
      | assumption | intro _ | apply keeps_ite | exact KeepsE.wait | apply KeepsE.done | apply KeepsE.trap
      | apply KeepsE.hold | refine KeepsE.ofDone ?_ (by assumption) | refine KeepsE.ofTrap ?_ (by assumption)
      | refine KeepsE.ofHold ?_ (by assumption)
    | split

theorem l1invEff_keeps (hcore : F.core) (x1 : Iss) (h : Keeps F s₀ s) :
    KeepsE F s₀ (l1invEff x1 s) := by
  unfold l1invEff
  try dsimp only
  with_reducible repeat' first
    | assumption | intro _ | apply onceEff_keeps | apply invalL1_keeps | apply KeepsP.snd
    | ((fail_if_success (apply KeepsP.eta)); apply KeepsP.mk')

theorem sleepEff_keeps (x1 : Iss) (h : Keeps F s₀ s) :
    KeepsE F s₀ (sleepEff x1 s) := by
  unfold sleepEff
  try dsimp only
  with_reducible repeat' first
    | assumption | intro _ | apply onceEff_keeps | apply KeepsP.snd
    | ((fail_if_success (apply KeepsP.eta)); apply KeepsP.mk')

theorem execSread_keeps (hregs : F.regs) (hcore : F.core) (hslc : F.slc) (hhbm : F.hbm) (hnet : F.net) (hque : F.que)
    (hprt : F.prt) (hxlt : F.xlt) (hhost : F.host) (hrecs : F.recs) (hout : F.out) (a : Issue) (f : BitVec 56)
    (h : Keeps F s₀ s) :
    KeepsX F s₀ (execSread a f s) := by
  unfold execSread
  try dsimp only
  with_reducible repeat' first
    | assumption | intro _ | apply coreOp_keeps | apply sreadEff_keeps

theorem execVread_keeps (hregs : F.regs) (hcore : F.core) (hslc : F.slc) (hhbm : F.hbm) (hnet : F.net) (hque : F.que)
    (hprt : F.prt) (hxlt : F.xlt) (hhost : F.host) (hrecs : F.recs) (hout : F.out) (a : Issue) (f : BitVec 56)
    (h : Keeps F s₀ s) :
    KeepsX F s₀ (execVread a f s) := by
  unfold execVread
  try dsimp only
  with_reducible repeat' first
    | assumption | intro _ | apply coreOp_keeps | apply vreadEff_keeps

theorem execV2s_keeps (hregs : F.regs) (hcore : F.core) (hslc : F.slc) (hhbm : F.hbm) (hnet : F.net) (hque : F.que)
    (hprt : F.prt) (hxlt : F.xlt) (hhost : F.host) (hrecs : F.recs) (hout : F.out) (a : Issue) (f : BitVec 56)
    (h : Keeps F s₀ s) :
    KeepsX F s₀ (execV2s a f s) := by
  unfold execV2s
  try dsimp only
  with_reducible repeat' first
    | assumption | intro _ | apply coreOp_keeps | apply scalarEff_keeps

theorem execVbal_keeps (hregs : F.regs) (hcore : F.core) (hslc : F.slc) (hhbm : F.hbm) (hnet : F.net) (hque : F.que)
    (hprt : F.prt) (hxlt : F.xlt) (hhost : F.host) (hrecs : F.recs) (hout : F.out) (a : Issue) (f : BitVec 56)
    (h : Keeps F s₀ s) :
    KeepsX F s₀ (execVbal a f s) := by
  unfold execVbal
  try dsimp only
  with_reducible repeat' first
    | assumption | intro _ | apply coreOp_keeps | apply scalarEff_keeps

theorem execL1inv_keeps (hregs : F.regs) (hcore : F.core) (hslc : F.slc) (hhbm : F.hbm) (hnet : F.net) (hque : F.que)
    (hprt : F.prt) (hxlt : F.xlt) (hhost : F.host) (hrecs : F.recs) (hout : F.out) (a : Issue) (f : BitVec 56)
    (h : Keeps F s₀ s) :
    KeepsX F s₀ (execL1inv a f s) := by
  unfold execL1inv
  try dsimp only
  with_reducible repeat' first
    | assumption | intro _ | apply coreOp_keeps | apply l1invEff_keeps

theorem execSleep_keeps (hregs : F.regs) (hcore : F.core) (hslc : F.slc) (hhbm : F.hbm) (hnet : F.net) (hque : F.que)
    (hprt : F.prt) (hxlt : F.xlt) (hhost : F.host) (hrecs : F.recs) (hout : F.out) (a : Issue) (f : BitVec 56)
    (h : Keeps F s₀ s) :
    KeepsX F s₀ (execSleep a f s) := by
  unfold execSleep
  try dsimp only
  with_reducible repeat' first
    | assumption | intro _ | apply coreOp_keeps | apply sleepEff_keeps

end Sys2Proof.Machine
end

