-- ==== Sys2Proof/Laws/State.lean ====
section
/-! SUPPORT. What the updates of the state leave alone, field by field, and what a register field reads as after a
write. -/

namespace Sys2Proof.Machine

/-! ### The rest of the state -/

@[simp] theorem State.wr_pending (s : State) (d : Nat) (f : Fld) (v : Nat) : (s.wr d f v).pending = s.pending := rfl
@[simp] theorem State.wr_orderCode (s : State) (d : Nat) (f : Fld) (v : Nat) : (s.wr d f v).orderCode = s.orderCode := rfl
@[simp] theorem State.wr_freeCtr (s : State) (d : Nat) (f : Fld) (v : Nat) : (s.wr d f v).freeCtr = s.freeCtr := rfl
@[simp] theorem State.wr_rack (s : State) (d : Nat) (f : Fld) (v : Nat) : (s.wr d f v).rack = s.rack := rfl
@[simp] theorem State.wr_boot (s : State) (d : Nat) (f : Fld) (v : Nat) : (s.wr d f v).boot = s.boot := rfl
@[simp] theorem State.wr_img (s : State) (d : Nat) (f : Fld) (v : Nat) : (s.wr d f v).img = s.img := rfl
@[simp] theorem State.wr_core (s : State) (d : Nat) (f : Fld) (v : Nat) : (s.wr d f v).core = s.core := rfl
@[simp] theorem State.wr_slc (s : State) (d : Nat) (f : Fld) (v : Nat) : (s.wr d f v).slc = s.slc := rfl
@[simp] theorem State.wr_net (s : State) (d : Nat) (f : Fld) (v : Nat) : (s.wr d f v).net = s.net := rfl
@[simp] theorem State.wr_que (s : State) (d : Nat) (f : Fld) (v : Nat) : (s.wr d f v).que = s.que := rfl
@[simp] theorem State.wr_prt (s : State) (d : Nat) (f : Fld) (v : Nat) : (s.wr d f v).prt = s.prt := rfl
@[simp] theorem State.wr_xlt (s : State) (d : Nat) (f : Fld) (v : Nat) : (s.wr d f v).xlt = s.xlt := rfl
@[simp] theorem State.wr_host (s : State) (d : Nat) (f : Fld) (v : Nat) : (s.wr d f v).host = s.host := rfl
@[simp] theorem State.wr_recs (s : State) (d : Nat) (f : Fld) (v : Nat) : (s.wr d f v).recs = s.recs := rfl
@[simp] theorem State.wr_out (s : State) (d : Nat) (f : Fld) (v : Nat) : (s.wr d f v).out = s.out := rfl

@[simp] theorem State.count_pending (s : State) (d : Nat) (f : Fld) (n : Nat) : (s.count d f n).pending = s.pending := rfl
@[simp] theorem State.count_orderCode (s : State) (d : Nat) (f : Fld) (n : Nat) : (s.count d f n).orderCode = s.orderCode := rfl
@[simp] theorem State.count_freeCtr (s : State) (d : Nat) (f : Fld) (n : Nat) : (s.count d f n).freeCtr = s.freeCtr := rfl
@[simp] theorem State.count_rack (s : State) (d : Nat) (f : Fld) (n : Nat) : (s.count d f n).rack = s.rack := rfl
@[simp] theorem State.count_boot (s : State) (d : Nat) (f : Fld) (n : Nat) : (s.count d f n).boot = s.boot := rfl
@[simp] theorem State.count_img (s : State) (d : Nat) (f : Fld) (n : Nat) : (s.count d f n).img = s.img := rfl
@[simp] theorem State.count_core (s : State) (d : Nat) (f : Fld) (n : Nat) : (s.count d f n).core = s.core := rfl
@[simp] theorem State.count_slc (s : State) (d : Nat) (f : Fld) (n : Nat) : (s.count d f n).slc = s.slc := rfl
@[simp] theorem State.count_net (s : State) (d : Nat) (f : Fld) (n : Nat) : (s.count d f n).net = s.net := rfl
@[simp] theorem State.count_que (s : State) (d : Nat) (f : Fld) (n : Nat) : (s.count d f n).que = s.que := rfl
@[simp] theorem State.count_prt (s : State) (d : Nat) (f : Fld) (n : Nat) : (s.count d f n).prt = s.prt := rfl
@[simp] theorem State.count_xlt (s : State) (d : Nat) (f : Fld) (n : Nat) : (s.count d f n).xlt = s.xlt := rfl
@[simp] theorem State.count_host (s : State) (d : Nat) (f : Fld) (n : Nat) : (s.count d f n).host = s.host := rfl
@[simp] theorem State.count_recs (s : State) (d : Nat) (f : Fld) (n : Nat) : (s.count d f n).recs = s.recs := rfl
@[simp] theorem State.count_out (s : State) (d : Nat) (f : Fld) (n : Nat) : (s.count d f n).out = s.out := rfl

@[simp] theorem State.wrBit_pending (s : State) (d : Nat) (f : Fld) (i : Nat) (b : Bool) : (s.wrBit d f i b).pending = s.pending := rfl
@[simp] theorem State.wrBit_orderCode (s : State) (d : Nat) (f : Fld) (i : Nat) (b : Bool) : (s.wrBit d f i b).orderCode = s.orderCode := rfl
@[simp] theorem State.wrBit_freeCtr (s : State) (d : Nat) (f : Fld) (i : Nat) (b : Bool) : (s.wrBit d f i b).freeCtr = s.freeCtr := rfl
@[simp] theorem State.wrBit_rack (s : State) (d : Nat) (f : Fld) (i : Nat) (b : Bool) : (s.wrBit d f i b).rack = s.rack := rfl
@[simp] theorem State.wrBit_boot (s : State) (d : Nat) (f : Fld) (i : Nat) (b : Bool) : (s.wrBit d f i b).boot = s.boot := rfl
@[simp] theorem State.wrBit_img (s : State) (d : Nat) (f : Fld) (i : Nat) (b : Bool) : (s.wrBit d f i b).img = s.img := rfl
@[simp] theorem State.wrBit_core (s : State) (d : Nat) (f : Fld) (i : Nat) (b : Bool) : (s.wrBit d f i b).core = s.core := rfl
@[simp] theorem State.wrBit_slc (s : State) (d : Nat) (f : Fld) (i : Nat) (b : Bool) : (s.wrBit d f i b).slc = s.slc := rfl
@[simp] theorem State.wrBit_net (s : State) (d : Nat) (f : Fld) (i : Nat) (b : Bool) : (s.wrBit d f i b).net = s.net := rfl
@[simp] theorem State.wrBit_que (s : State) (d : Nat) (f : Fld) (i : Nat) (b : Bool) : (s.wrBit d f i b).que = s.que := rfl
@[simp] theorem State.wrBit_prt (s : State) (d : Nat) (f : Fld) (i : Nat) (b : Bool) : (s.wrBit d f i b).prt = s.prt := rfl
@[simp] theorem State.wrBit_xlt (s : State) (d : Nat) (f : Fld) (i : Nat) (b : Bool) : (s.wrBit d f i b).xlt = s.xlt := rfl
@[simp] theorem State.wrBit_host (s : State) (d : Nat) (f : Fld) (i : Nat) (b : Bool) : (s.wrBit d f i b).host = s.host := rfl
@[simp] theorem State.wrBit_recs (s : State) (d : Nat) (f : Fld) (i : Nat) (b : Bool) : (s.wrBit d f i b).recs = s.recs := rfl
@[simp] theorem State.wrBit_out (s : State) (d : Nat) (f : Fld) (i : Nat) (b : Bool) : (s.wrBit d f i b).out = s.out := rfl

@[simp] theorem State.resetRegs_pending (s : State) (d lo hi : Nat) : (s.resetRegs d lo hi).pending = s.pending := rfl
@[simp] theorem State.resetRegs_orderCode (s : State) (d lo hi : Nat) : (s.resetRegs d lo hi).orderCode = s.orderCode := rfl
@[simp] theorem State.resetRegs_freeCtr (s : State) (d lo hi : Nat) : (s.resetRegs d lo hi).freeCtr = s.freeCtr := rfl
@[simp] theorem State.resetRegs_rack (s : State) (d lo hi : Nat) : (s.resetRegs d lo hi).rack = s.rack := rfl
@[simp] theorem State.resetRegs_boot (s : State) (d lo hi : Nat) : (s.resetRegs d lo hi).boot = s.boot := rfl
@[simp] theorem State.resetRegs_img (s : State) (d lo hi : Nat) : (s.resetRegs d lo hi).img = s.img := rfl
@[simp] theorem State.resetRegs_core (s : State) (d lo hi : Nat) : (s.resetRegs d lo hi).core = s.core := rfl
@[simp] theorem State.resetRegs_slc (s : State) (d lo hi : Nat) : (s.resetRegs d lo hi).slc = s.slc := rfl
@[simp] theorem State.resetRegs_net (s : State) (d lo hi : Nat) : (s.resetRegs d lo hi).net = s.net := rfl
@[simp] theorem State.resetRegs_que (s : State) (d lo hi : Nat) : (s.resetRegs d lo hi).que = s.que := rfl
@[simp] theorem State.resetRegs_prt (s : State) (d lo hi : Nat) : (s.resetRegs d lo hi).prt = s.prt := rfl
@[simp] theorem State.resetRegs_xlt (s : State) (d lo hi : Nat) : (s.resetRegs d lo hi).xlt = s.xlt := rfl
@[simp] theorem State.resetRegs_host (s : State) (d lo hi : Nat) : (s.resetRegs d lo hi).host = s.host := rfl
@[simp] theorem State.resetRegs_recs (s : State) (d lo hi : Nat) : (s.resetRegs d lo hi).recs = s.recs := rfl
@[simp] theorem State.resetRegs_out (s : State) (d lo hi : Nat) : (s.resetRegs d lo hi).out = s.out := rfl

@[simp] theorem State.peak_pending (s : State) (d : Nat) (f : Fld) (n : Nat) : (s.peak d f n).pending = s.pending := by unfold State.peak; split <;> rfl
@[simp] theorem State.peak_orderCode (s : State) (d : Nat) (f : Fld) (n : Nat) : (s.peak d f n).orderCode = s.orderCode := by unfold State.peak; split <;> rfl
@[simp] theorem State.peak_freeCtr (s : State) (d : Nat) (f : Fld) (n : Nat) : (s.peak d f n).freeCtr = s.freeCtr := by unfold State.peak; split <;> rfl
@[simp] theorem State.peak_rack (s : State) (d : Nat) (f : Fld) (n : Nat) : (s.peak d f n).rack = s.rack := by unfold State.peak; split <;> rfl
@[simp] theorem State.peak_boot (s : State) (d : Nat) (f : Fld) (n : Nat) : (s.peak d f n).boot = s.boot := by unfold State.peak; split <;> rfl
@[simp] theorem State.peak_img (s : State) (d : Nat) (f : Fld) (n : Nat) : (s.peak d f n).img = s.img := by unfold State.peak; split <;> rfl
@[simp] theorem State.peak_core (s : State) (d : Nat) (f : Fld) (n : Nat) : (s.peak d f n).core = s.core := by unfold State.peak; split <;> rfl
@[simp] theorem State.peak_slc (s : State) (d : Nat) (f : Fld) (n : Nat) : (s.peak d f n).slc = s.slc := by unfold State.peak; split <;> rfl
@[simp] theorem State.peak_net (s : State) (d : Nat) (f : Fld) (n : Nat) : (s.peak d f n).net = s.net := by unfold State.peak; split <;> rfl
@[simp] theorem State.peak_que (s : State) (d : Nat) (f : Fld) (n : Nat) : (s.peak d f n).que = s.que := by unfold State.peak; split <;> rfl
@[simp] theorem State.peak_prt (s : State) (d : Nat) (f : Fld) (n : Nat) : (s.peak d f n).prt = s.prt := by unfold State.peak; split <;> rfl
@[simp] theorem State.peak_xlt (s : State) (d : Nat) (f : Fld) (n : Nat) : (s.peak d f n).xlt = s.xlt := by unfold State.peak; split <;> rfl
@[simp] theorem State.peak_host (s : State) (d : Nat) (f : Fld) (n : Nat) : (s.peak d f n).host = s.host := by unfold State.peak; split <;> rfl
@[simp] theorem State.peak_recs (s : State) (d : Nat) (f : Fld) (n : Nat) : (s.peak d f n).recs = s.recs := by unfold State.peak; split <;> rfl
@[simp] theorem State.peak_out (s : State) (d : Nat) (f : Fld) (n : Nat) : (s.peak d f n).out = s.out := by unfold State.peak; split <;> rfl

/-! ### Register fields -/

/-- A field written is read back, as far as its width holds it. -/
@[simp] theorem State.rd_wr_same (s : State) (d : Nat) (f : Fld) (v : Nat) : (s.wr d f v).rd d f = v % 2 ^ f.width :=
  SMap.get_set_same _ _ _ _

/-- A write to one field leaves every field that stands elsewhere. -/
theorem State.rd_wr_ne (s : State) (d d' : Nat) (f g : Fld) (v : Nat) (h : g.key d' ≠ f.key d) :
    (s.wr d f v).rd d' g = s.rd d' g := SMap.get_set_ne _ _ _ _ _ _ h

/-- Where two fields stand at the same place. -/
theorem Fld.key_eq_iff {f g : Fld} {d d' : Nat} (hf : f.lo < 64) (hg : g.lo < 64) (af : f.addr < 0x1000000)
    (ag : g.addr < 0x1000000) : f.key d = g.key d' ↔ d = d' ∧ f.addr = g.addr ∧ f.lo = g.lo := by
  unfold Fld.key
  constructor
  · intro h; omega
  · rintro ⟨rfl, h1, h2⟩; rw [h1, h2]

/-- A counter saturates (R561). -/
@[simp] theorem State.rd_count_same (s : State) (d : Nat) (f : Fld) (n : Nat) :
    (s.count d f n).rd d f = min (s.rd d f + n) (2 ^ f.width - 1) := by
  unfold State.count
  rw [State.rd_wr_same]
  have : 0 < 2 ^ f.width := Nat.two_pow_pos _
  exact Nat.mod_eq_of_lt (by omega)

theorem State.rd_count_ne (s : State) (d d' : Nat) (f g : Fld) (n : Nat) (h : g.key d' ≠ f.key d) :
    (s.count d f n).rd d' g = s.rd d' g := State.rd_wr_ne _ _ _ _ _ _ h

theorem State.rd_wrBit_ne (s : State) (d d' : Nat) (f g : Fld) (i : Nat) (b : Bool) (h : g.key d' ≠ f.key d) :
    (s.wrBit d f i b).rd d' g = s.rd d' g := State.rd_wr_ne _ _ _ _ _ _ h

theorem State.rd_peak_ne (s : State) (d d' : Nat) (f g : Fld) (n : Nat) (h : g.key d' ≠ f.key d) :
    (s.peak d f n).rd d' g = s.rd d' g := by
  unfold State.peak
  split
  · exact State.rd_wr_ne _ _ _ _ _ _ h
  · rfl

/-- A reset range reads as its reset values; outside it nothing changes. -/
theorem State.rd_resetRegs (s : State) (d lo hi d' : Nat) (g : Fld) :
    (s.resetRegs d lo hi).rd d' g =
      if (d * 0x1000000 + lo) * 64 ≤ g.key d' ∧ g.key d' < (d * 0x1000000 + hi) * 64 then g.reset else s.rd d' g :=
  SMap.get_clearRange _ _ _ _ _

/-- A read depends on the register map alone. -/
theorem State.rd_of_regs {s t : State} (h : t.regs = s.regs) (d : Nat) (f : Fld) : t.rd d f = s.rd d f := by
  unfold State.rd; rw [h]

@[simp] theorem State.rd_upd (s : State) (p : List Instr) (o : OrderCode) (fc : Nat) (ra : Rack) (bo : Boot) (im : Imgs)
    (co : Cores) (sl : Slices) (ne : Links) (qu : Queues) (pr : Parts) (xl : Xlt) (ho : HostSt) (re : Recs) (ou : Outs)
    (d : Nat) (f : Fld) :
    State.rd ⟨p, o, s.regs, fc, ra, bo, im, co, sl, ne, qu, pr, xl, ho, re, ou⟩ d f = s.rd d f := rfl

/-! ### Which fields a step of an effect touches -/

theorem RegsBut.refl (l : List (Nat × Fld)) (s : State) : RegsBut l s s := fun _ _ _ => rfl

theorem RegsBut.of_regs {l : List (Nat × Fld)} {s t u : State} (h : RegsBut l s t) (e : u.regs = t.regs) : RegsBut l s u :=
  fun d f n => (State.rd_of_regs e d f).trans (h d f n)

theorem RegsBut.trans {l : List (Nat × Fld)} {s t u : State} (h : RegsBut l s t) (k : RegsBut l t u) : RegsBut l s u :=
  fun d f n => (k d f n).trans (h d f n)

theorem RegsBut.wr {l : List (Nat × Fld)} {s t : State} (h : RegsBut l s t) (d : Nat) (f : Fld) (v : Nat)
    (m : (d, f) ∈ l) : RegsBut l s (t.wr d f v) :=
  fun d' g n => (State.rd_wr_ne t d d' f g v (n (d, f) m)).trans (h d' g n)

theorem RegsBut.count {l : List (Nat × Fld)} {s t : State} (h : RegsBut l s t) (d : Nat) (f : Fld) (v : Nat)
    (m : (d, f) ∈ l) : RegsBut l s (t.count d f v) := h.wr d f _ m

theorem RegsBut.wrBit {l : List (Nat × Fld)} {s t : State} (h : RegsBut l s t) (d : Nat) (f : Fld) (i : Nat) (b : Bool)
    (m : (d, f) ∈ l) : RegsBut l s (t.wrBit d f i b) := h.wr d f _ m

/-! ### Signed fields -/

/-- A signed number put into a field of `w` bits is read back, if the field can hold it. -/
theorem toSigned_ofSigned (w : Nat) (hw : 0 < w) (i : Int) (lo : -(2 ^ (w - 1) : Int) ≤ i) (hi : i < 2 ^ (w - 1)) :
    toSigned w (ofSigned w i % 2 ^ w) = i := by
  obtain ⟨k, rfl⟩ : ∃ k, w = k + 1 := ⟨w - 1, by omega⟩
  unfold toSigned ofSigned
  have e : (2 : Int) ^ (k + 1) = 2 * 2 ^ k := by rw [Int.pow_succ]; omega
  have e' : (2 : Nat) ^ (k + 1) = 2 * 2 ^ k := by rw [Nat.pow_succ]; omega
  have p : (0 : Int) < 2 ^ k := Int.pow_pos (by decide)
  have c : ((2 ^ k : Nat) : Int) = 2 ^ k := by simp
  simp only [Nat.add_sub_cancel] at lo hi ⊢
  rw [e] at *
  generalize hq : (2 : Int) ^ k = q at *
  generalize hr : (2 : Nat) ^ k = r at *
  rw [e']
  have hm : i % (2 * q) = if i < 0 then i + 2 * q else i := by
    split
    · rw [← Int.add_emod_right]; exact Int.emod_eq_of_lt (by omega) (by omega)
    · exact Int.emod_eq_of_lt (by omega) (by omega)
  have hlt : (i % (2 * q)).toNat < 2 * r := by rw [hm]; split <;> omega
  rw [Nat.mod_eq_of_lt hlt, hm]
  split <;> split <;> omega

/-! ### The effect of a command -/

/-- A command that names a die of the order code has its effect. -/
theorem onDie_of_lt {s : State} {d : Nat} {f : State → State} (h : d < dieCount s.orderCode) : onDie s d f = .next (f s) :=
  if_pos h

/-- A die that the order code does not have. -/
theorem onDie_absent {s : State} {d : Nat} {f : State → State} (h : ¬ d < dieCount s.orderCode) :
    onDie s d f = .fault (.absentUnit d) := if_neg h

end Sys2Proof.Machine
end

