-- ==== Sys2Proof/Tests/Slice0.lean ====
section
/-! SUPPORT. The model's own tests: ill-formed commands that the checks refuse, worked values of the spec, and for every
obligation with hypotheses a witness of concrete states and operands that meet them. -/

namespace Sys2Proof.Tests
open Machine

set_option Elab.async false

/-- `n` bytes with little-endian values at offsets. -/
def pack (n : Nat) (l : List (Nat × Nat)) : List Byte := leBytes n (l.foldl (fun a x => a + x.2 * 256 ^ x.1) 0)

/-- Register fields written one after another. -/
def sets (l : List (Nat × Fld × Nat)) (s : State) : State := l.foldl (fun s x => s.wr x.1 x.2.1 x.2.2) s

/-- Dies 0 and 1 at power good with their clocks running, and the RM up. -/
def up : State :=
  let s := sets [(0, Reg.CLK_STATUS_LOCK, 1), (1, Reg.CLK_STATUS_LOCK, 1)] State.reset
  { s with rack := { s.rack with powered := [0, 1], rmUp := true, refclk := true, modEn := [0], busbar := true } }

/-- Partition 5: halves W of dies 0 and 1, one instance on VF 1 of port 0, queues 3 and 4 of die 0, and its QOS. -/
def image : List Section := [
  ⟨1, 5, pack 0x20 [(0, 5), (0x04, 5), (0x14, 16), (0x15, 4), (0x17, 2), (0x18, 100), (0x1A, 8)]⟩,
  ⟨2, 5, pack 40 [(0, 0), (1, 0), (2, 1), (3, 4), (8, 1), (16, 0), (20, 3)]⟩,
  ⟨3, 5, pack 24 [(0, 0), (4, 3)]⟩,
  ⟨4, 5, pack 24 [(0, 3), (2, 0), (12, 4), (14, 0)]⟩,
  ⟨5, 5, pack 24 [(0, 0), (1, 1), (4, 1000), (8, 1000), (0x0C, 1), (0x0E, 1), (0x10, 1000), (0x14, 100)]⟩]

/-- The rack with partition 5 live, its instance LIVE, one channel active on each die. -/
def live : State :=
  let s := sets [(0, Reg.PART_HALF_ASSIGNED 0, 1), (0, Reg.PART_HALF_PART 0, 5), (1, Reg.PART_HALF_ASSIGNED 0, 1),
    (1, Reg.PART_HALF_PART 0, 5), (0, Reg.PART_STATE 0, 1), (1, Reg.PART_STATE 0, 1), (0, Reg.PART_INST 0, 2),
    (1, Reg.PART_INST 0, 2), (0, Reg.UC_ACTIVE, 1), (1, Reg.UC_ACTIVE, 1), (0, Reg.HOST_STATUS_ATTACH, 2)] up
  { s with img := { s.img with live := image, based := true }, host := { s.host with numVfs := [(0, 1)] } }

/-- Queue `n` of die 0, of partition 5, named, of a kind and class, enabled, with PI and CI. -/
def queue (n kind cls pi ci : Nat) (s : State) : State :=
  sets [(0, Reg.QUE_CFG_NAMED n, 1), (0, Reg.QUE_CFG_KIND n, kind), (0, Reg.QUE_CFG_CLASS n, cls),
    (0, Reg.QUE_CFG_PART n, 5), (0, Reg.QUE_CTRL_ENABLE n, 1), (0, Reg.QUE_CTRL_LOG2 n, 4), (0, Reg.QUE_PI n, pi),
    (0, Reg.QUE_CI n, ci)] s

def bucket : State := sets [(0, Reg.GOV_LIMITS_POWER_W, 1000), (0, Reg.GOV_CTRL_CAP_MS, 10)] up

/-- Bytes in HBM at a physical address. -/
def mem (pa : Nat) (b : List Byte) (s : State) : State := { s with slc := { s.slc with hbm := hbmPut (hbmKey s pa) b s.slc.hbm } }

/-- Class U queue 3 of a kind, its ring at 0x10000 with one item. -/
def headAt (kind : Nat) (b : List Byte) : State :=
  mem 0x10000 b (sets [(0, Reg.QUE_BASE 3, 16), (0, Reg.MOV_SLOT_OWNED 2, 1), (0, Reg.MOV_SLOT_PART 2, 5)] (queue 3 kind 0 1 0 live))

/-- The item there. -/
def head (b : List Byte) : Head := ⟨3, 0, b⟩

/-- Queue 3 has counted 4 sectors read and 1 written. -/
def counting : State :=
  let s := queue 3 0 0 1 0 live
  { s with que := { s.que with sectors := [(6, 4), (7, 1)] } }

def closeItem : List Byte := pack 64 [(0, 2), (3, 4), (4, 2)]
def launchItem : List Byte := pack 64 [(0, 0), (3, 1), (8, 0xFFFF), (0x10, 0x1000), (0x20, 3)]
def moveItem : List Byte := pack 64 [(0, 1), (3, 2), (4, 7)]
def exchangeItem : List Byte := pack 64 [(0, 0), (3, 1), (8, 0x102), (0x0C, 5), (0x10, 0x1000), (0x20, 3)]

def seqItem : SeqItem :=
  { queue := 3, index := 0, seq := 2, step := 0, arg0 := 0, arg1 := 0, addr := 0, ctx := 0, tag := 0, cqe := false,
    irq := false, reservedSet := false }

/-- Sequence 2 of die 0, ACTIVE, of 100 tokens. -/
def seqSlot : SeqSlot :=
  { id := 2, inst := 0, part := 5, blk := 0, len := 100, append := 1, dir := 0x8000, step := 4, chain := none,
    tainted := false, recs := [], retired := 0 }

/-- A step open on it. -/
def openStep : StepRec := { step := 4, base := 100, end_ := 101, firstBlock := 3, lcnt := 0, owc := 0, closed := false }

/-- Item `it` of operation `op` dispatched, with the sequences given. -/
def engine (op : Nat) (it : SeqItem) (l : List SeqSlot) : State :=
  let s := queue 4 3 1 0 0 (queue 3 2 1 1 0 live)
  { s with que := { s.que with items := [(op, it)], seqs := l } }

/-- An attach exchange pending for the launch at the head of queue 3, whose sequence is on die 1. -/
def exchange : State :=
  let s := sets [(0, Reg.GOV_ECLASS 0, 100), (0, Reg.QUE_CFG_CLASS 3, 1), (0, Reg.GOV_LIMITS_POWER_W, 1000), (0, Reg.GOV_CTRL_CAP_MS, 10)] (headAt 0 exchangeItem)
  { s with que := { s.que with exchanges := [⟨3, 0, 5, []⟩], seqs := [{ seqSlot with id := 0x102 }] } }
def noExchange : State := { exchange with que := { exchange.que with exchanges := [] } }

/-- A class B head that the gate refused 7 µs ago. -/
def refused : State :=
  let s := sets [(0, Reg.GOV_ECLASS 0, 100), (0, Reg.GOV_LIMITS_POWER_W, 1000), (0, Reg.GOV_CTRL_CAP_MS, 10),
    (0, Reg.GOV_CTRL_WAIT_US, 5), (0, Reg.DC_RTIME, 7000), (0, Reg.QUE_CFG_CLASS 3, 2)] (headAt 0 launchItem)
  { s with que := { s.que with arbs := [{ (arbOf s 0) with refused := [(3, 2000)] }] } }

/-- Die 0 with the STAGE code given. -/
def stage (code : Nat) : State := sets [(0, Reg.DC_BOOT_STATUS_STAGE, code)] up

/-- Die 0 in reset. -/
def inReset : State := { up with boot := { up.boot with inReset := [0], selfRefresh := [0] } }

/-- Fuses of a CXM-64S die whose maps enable 152 clusters of each half. -/
def fuses : FuseData := ⟨true, 0, 3, 0x1234, BitVec.ofNat 160 (2 ^ 152 - 1), BitVec.ofNat 160 (2 ^ 152 - 1), ⟨1, 0⟩⟩

def copy : FlashCopy := ⟨true, 0x1000, ⟨3, 1⟩, [(⟨3, 0⟩, ⟨3, 1⟩)], ⟨2, 1⟩, ⟨4, 2⟩⟩

/-- Module 0's flash with one copy. -/
def flash (image k : Nat) (s : State) : State := { s with rack := { s.rack with flash := [(image * 2 + k, copy)] } }

def rollRow (o d : Nat) : RollRow := ⟨o, d, 0, 7, 8, false, false, 0, []⟩
def roll (l : List RollRow) (s : State) : State := { s with boot := { s.boot with roll := l } }

def beacon : BeaconMsg := { dieBeacon up 1 with stage := 8, incarn := 2 }

/-- Die 0 at STAGE code 7, master 1 heard over its plane 0 port, with `n` exchanges done. -/
def aligning (n : Nat) : State :=
  let s := roll [{ rollRow 0 1 with master := true, overL := [3] }] (sets [(0, Reg.MESH_TL_STATUS_UP 0, 1)] (stage 7))
  { s with boot := { s.boot with exch := List.replicate n ⟨0, 100, 150, 160, 210⟩ } }

def held (n : Nat) : State := { stage 8 with boot := { up.boot with censusOpen := false, hold := n } }

/-- A message between die `src` and die `dst` about line 0x80, which die 0 homes. -/
def cohMsg (src dst : Nat) : CohMsg :=
  { part := 5, src := src, srcSlice := 0, dst := dst, dstSlice := 0, req := src, homeReq := false, acks := 0, mask := 15,
    dirty := 0, poison := 0, reason := 0, cls := 3, line := 0x80, incarn := 0, data := [11, 12, 13, 14],
    badType := 0 }

def sector (v : Nat) : Sector := ⟨true, true, false, 0, BitVec.ofNat 256 v⟩
def noSec : Sector := ⟨false, false, false, 0, 0⟩

/-- Line `la` at slice 0 of die `d`. -/
def line (d : Nat) (st : CSt) (full : Bool) (cnt : Int) : Line :=
  ⟨d, 0, if full then 3 else 16, 0x80, st, false, false, 0, (if full then [sector 1, sector 2, sector 3, sector 4]
    else List.replicate 4 noSec), cnt⟩

/-- The message under way to die 1 with the lines and the put buffer given. -/
def cache (t : CohT) (m : CohMsg) (ls ps : List Line) : State :=
  { live with slc := { live.slc with lines := ls, puts := ps, net := [⟨t, m⟩] } }

/-- The request under way to die 0, with the directory entry given. -/
def entry (st : DSt) (owner : Nat) (sharers : List Nat) : DirEnt := ⟨0, 0, 0, 0x80, st, owner, sharers, 0, 0, false, 0⟩
def home (t : CohT) (m : CohMsg) (e : DirEnt) (ls : List Line) : State :=
  let s := sets [(2, Reg.PART_HALF_ASSIGNED 0, 1), (2, Reg.PART_HALF_PART 0, 5)] live
  { s with slc := { s.slc with lines := ls, dir := [e], net := [⟨t, m⟩] } }

def waiting : Line := { line 1 .isD false 0 with way := 3, sectors := [noSec, sector 2, noSec, noSec] }
/-- Line 0x80 waits on die 1, whose partition is faulted, and die 2 is dead. -/
def orphan : State :=
  let s := sets [(1, Reg.DC_DEAD, 4)] live
  { s with prt := { s.prt with faulted := [5] }, slc := { s.slc with lines := [waiting] },
           img := { s.img with live := [⟨1, 5, pack 0x20 [(4, 0x15)]⟩] } }

/-- Line 0x80 at its home slice. -/
def homeLine : Line := { line 0 .home true 0 with sectors := [sector 1, sector 2, noSec, sector 4] }
def withLines (l : List Line) (s : State) : State := { s with slc := { s.slc with lines := l } }
/-- A request at PA 0x4020, sector 1 of line 0x80. -/
def request : SliceReq := ⟨44, 5, 1, 0, 0, 0x4020, 0, false, false, none⟩

/-- A fetch of sector 2 of line 0x80. -/
def fetching : Mshr := ⟨0, 0, 0x80, 4, 1, true, [], 0, [], [], none⟩
def filling : State := { live with slc := { live.slc with lines := [homeLine], mshrs := [fetching] } }

/-- Requester 9 backs off. -/
def backing (what : RetryOf) : State := { live with slc := { live.slc with lines := [line 1 .smAD true 0], retry := [⟨9, 1, [⟨what, 1, 8⟩]⟩] } }
def access : RetryOf := .access 0 0 ⟨{ request with ctx := 7 }, .read⟩

/-- A write of four sectors by the partition from router 63 of half W to router 70 of half E, whose memory it is not. -/
def packet : HalfPkt := ⟨63, 70, false, false, 5, false, .req, .line, true, 0, 0, 0x80⟩
def halfLinked : State := sets [(0, Reg.MESH_MODE_HLINK_ON, 1)] live

/-- Die 0 with a port up and the receiver's and sender's counts given. -/
def link (port expect replayOf replays : Nat) (s : State) : State :=
  let s := if port < 3 then sets [(0, Reg.MESH_TS_STATUS_UP port, 1)] s else sets [(0, Reg.MESH_TL_STATUS_UP (port - 3), 1)] s
  { s with net := { s.net with ports := [⟨0, port, expect, 9, replayOf, replays, 0, [], []⟩] } }

def redKey : RedKey := ⟨5, 3, 2, 0x200⟩
/-- A narrow FADD packet of one contribution of `count`. -/
def redPkt (fixed : Bool) (count : Nat) : RedPkt :=
  ⟨false, redKey, 0, 1, 0, fixed, count, 1, 1, (if fixed then 0 else 0x1FF), 0, 0x1FF, List.replicate 8 1⟩
def reducing (p : RedPkt) (l : List Combine) (a : List Accum) : State :=
  { live with
    net := { live.net with redNet := [⟨p, .router 0 7, [.router 0 7]⟩], combine := l, accum := a },
    img := { live.img with live := image ++ [⟨7, 5, pack 24 [(0, 5), (2, 3), (4, 1), (6, 1), (16, 0), (20, 0xFFFF)]⟩] } }
/-- The packet come to its destination slice. -/
def arrived (p : RedPkt) (a : List Accum) : State :=
  { reducing p [] a with net := { (reducing p [] a).net with redNet := [⟨p, .router 0 7, []⟩] } }
def combining (p : RedPkt) : Combine := ⟨.router 0 7, p, [], []⟩
def accumulating (p : RedPkt) : Accum := ⟨0, 0, p, [3]⟩

/-- Virtual space of context 0 of partition 5 is physical, for a gigabyte, through the TLB of die 0. -/
def mapped (s : State) : State :=
  { s with xlt := { s.xlt with tlb := [⟨1, 0, 0, 5, 0, 0, 0, 0x40000000, 0, false, [0, 1], none, true, true, 0, 1000⟩] } }

/-- Mover 3 of die 0 in program slot 2 at PC 10, for an item of queue 3. -/
def mover (regs : List Nat) : Mover :=
  { die := 0, m := 3, state := .running, queue := 3, index := 0, tag := 7, cqe := false, irq := false, part := 5, inst := 0,
    ctx := 0, cls := 0, slot := 2, pc := 10, mregs := regs.map (BitVec.ofNat 64), gen := 0, changed := false,
    latched := none, cursor := 0, checked := false, stopped := false }

/-- A mover word: OP, RD, RS, RN, bits 16:13, IMM32. -/
def mword (op rd rs rn f imm : Nat) : Nat := op + rd * 16 + rs * 128 + rn * 1024 + f * 8192 + imm * 2 ^ 32

/-- The mover with program word `w` at its PC. -/
def moverAt (w : Nat) (x : Mover) (s : State) : State :=
  let s := sets [(0, Reg.MOV_PROG (128 * 2 + 10), w), (0, Reg.MOV_SLOT_OWNED 2, 1), (0, Reg.MOV_SLOT_PART 2, 5)] (queue 3 1 0 1 1 (mapped s))
  { s with que := { s.que with movers := [x], itemsOut := [(3, 1)] } }

def mregs0 : List Nat := [0x20000, 0x30000, 64, 5, 1, 0, 0, 0]
/-- The mover at a SIGNAL that adds mr3 at 0x20000; the machine after its translation and after its atomic. -/
def sg := moverAt (mword 7 0 3 0 0 0) (mover mregs0) live
def mvTr (s : State) (w : Nat) (x : Mover) : State := match translate (runsWord x w).xby (x.mr (mvRD w)) .store (putMover (runsWord x w) s) with | some (_, s) => s | _ => s
def sgAt (s : State) (w pa : Nat) (x : Mover) : Option (AccRes × State) := accAtomic (runsWord x w).acc pa (fun y => BitVec.ofNat 256 (y.toNat - bits y.toNat (pa % 32 * 8 + 63) (pa % 32 * 8) *
      2 ^ (pa % 32 * 8) + (if (mvImm w).testBit 0 then x.mr (mvRS w) else
        (bits y.toNat (pa % 32 * 8 + 63) (pa % 32 * 8) + x.mr (mvRS w)) % 2 ^ 64) * 2 ^ (pa % 32 * 8))) (mvTr s w x)
def s3of (o : Option (AccRes × State)) (s : State) : State := match o with | some (_, s) => s | _ => s
/-- The machine that a result carries. -/
def okS {α} (r : MvRes α) (s : State) : State := match r with | .ok _ s => s | _ => s
/-- The mover at a WAIT of comparison `c` on a word that holds `v`. -/
def wt (c v : Nat) := moverAt (mword 6 0 3 0 0 c) (mover mregs0) (mem 0x20000 (pack 8 [(0, v)]) live)
/-- The mover stalled in its WAIT. -/
def stalledIn (w : Nat) : Mover := { mover mregs0 with state := .stalled, latched := some (BitVec.ofNat 64 w), checked := true }
/-- The mover stalled in its WAIT on a word that holds `v`. -/
def wp (w v : Nat) : State := moverAt w (stalledIn w) (mem 0x20000 (pack 8 [(0, v)]) live)
/-- The mover halted. -/
def halted : State := moverAt 0 { mover mregs0 with state := .halted, changed := true } live
/-- A mover about to copy from 0x30000. -/
def copyS (w : Nat) (r : List Nat) : State := moverAt w (mover r) (mem 0x30000 (pack 32 [(0, 0x1234560)]) live)
/-- A COPY of 64 bytes, and what its run comes to. -/
def copyR : List Nat := [0x20000, 0x30000, 64, 0, 0, 0, 0, 0]
def copyW : State := copyS (mword 1 0 1 2 8 0) copyR
def copyRun : Run :=
  mvStep { runsWord (mover copyR) (mword 1 0 1 2 8 0) with checked := true } (mword 1 0 1 2 8 0) ⟨0x30000, 0x20000, 64⟩
    (putMover (runsWord (mover copyR) (mword 1 0 1 2 8 0)) copyW)

/-- A COPY from partner space, which waits for its completion. -/
def partnerR : List Nat := [0x20000, 9 * 2 ^ 56, 64, 0, 0, 0, 0, 0]
def fromPartner : State :=
  { (copyS (mword 1 0 1 2 10 0) partnerR) with
      host := { live.host with pt := [(9, ⟨1, 0, 0, 5, false, true, false, 1, 0, 0x10000, 0⟩)] } }
def partnerRun : Run :=
  mvStep { runsWord (mover partnerR) (mword 1 0 1 2 10 0) with checked := true } (mword 1 0 1 2 10 0)
    ⟨9 * 2 ^ 56, 0x20000, 64⟩ (putMover (runsWord (mover partnerR) (mword 1 0 1 2 10 0)) fromPartner)
/-- Block table of sequence 2: blocks 0 and 1 at 0x20000 and 0x30000. -/
def shifts (n : Nat) (l : List StepRec) : State :=
  let s := moverAt (mword 2 0 1 2 0 1) (mover [0, 2 + 32 * 2 ^ 16, n * 2 ^ 24, 0, 0, 0, 0, 0])
    (mem 0x8000 (pack 8 [(0, 0x40001)]) (mem 0x40000 (pack 16 [(0, 0x20001), (8, 0x30001)]) (mem 0x20000 (pack 32 [(0, 99)]) live)))
  { s with que := { s.que with seqs := [{ seqSlot with recs := l }] } }
/-- The SHIFT by one block of `n` blocks: its mover and word, and its two block addresses and run. -/
def shx (n : Nat) := mover [0, 2 + 32 * 2 ^ 16, n * 2 ^ 24, 0, 0, 0, 0, 0]
def shw := mword 2 0 1 2 0 1
def shM : Mover := { runsWord (shx 1) shw with checked := true }
def shA : MvRes Nat := shAddr shM 0x8000 0 (putMover (runsWord (shx 1) shw) (shifts 1 []))
def shB : MvRes Nat := shAddr shM 0x8000 1 (okS shA live)
def shRun : Run := mvRunBeats shM (fun k s => mvRead shM (0x20000 + 0 + k) s) (0x20000 + 0) (0x30000 + 0) ((blockSize 0 * 32 - 0) / 32) ((blockSize 0 * 32 - 0) / 32) 0 (okS shB live)

/-- A read of 64 bytes that mover 3 of die 0 has sent on port 0 with tag 9. -/
def sent : Outbound := ⟨0, 9, 0, false, 0x1000, 64, 5, 0, 0, 0, 3, 0, [], false, 0, none, [], false⟩
def outgoing (o : Outbound) (s : State) : State := { s with host := { s.host with outbound := [o] } }
def partnerMover : State := outgoing sent (moverAt 0 (mover mregs0) live)
/-- A query of sequence 2 to 0x20000, after its translation and after its write. -/
def q0 := mapped (engine 10 { seqItem with addr := 0x20000 } [seqSlot])
def q1 : State := match translate (queXby q0 3 0) 0x20000 .store q0 with | some (_, s) => s | _ => q0
def q2 : State := match accPut (queBy q1 3) 6 0x20000 (seqBytes q0 seqSlot) q1 with | some (_, s) => s | _ => q0

/-- A word's fields above OP: PSEL 7 and values at bit positions. -/
def fields (l : List (Nat × Nat)) : BitVec 56 := BitVec.ofNat 56 (7 + l.foldl (fun a x => a + x.2 * 2 ^ (x.1 - 8)) 0)

/-- A launch of one troupe on item 0 of queue 3. -/
def launched : Launch :=
  { queue := 3, index := 0, tag := 7, cqe := false, irq := false, part := 5, inst := 0, ctx := 0, cls := 0, rows := 16,
    lsKib := 16, lsTroupe := 0, seq := none, local_ := true, step := 0, entry := 0x50000, args := 0x60000, ntroupe := 1,
    inline := List.replicate 7 9, oldest := false, placed := [(0, 1)], ended := 0, attached := [], resident := [0],
    killed := false, lost := false }

/-- Its troupe on core 0 of cluster 0 of die 0, at 0x50000: v0 1.0, v1 2.0, v2 small integers, v4 and v5 addresses. -/
def troupe : Troupe :=
  { die := 0, cluster := 0, core := 0, slot := 0, queue := 3, index := 0, idx := 0, part := 5, inst := 0, ctx := 0, cls := 0,
    rows := 16, oldest := false, placedAt := 0, issuedAt := none,
    threads := List.replicate 32 ⟨0x50000, false, none, 0, false, 0⟩,
    sregs := [(0, 0x60000), (2, 0x20000), (6, 2), (7, 5)],
    vregs := ((List.range 32).map (fun n => (n, 0x3F800000))) ++ ((List.range 32).map (fun n => (32 + n, 0x40000000)))
      ++ ((List.range 32).map (fun n => (64 + n, BitVec.ofNat 32 (n + 1)))) ++ ((List.range 32).map (fun n => (128 + n, BitVec.ofNat 32 (0x20000 + 32 * n)))),
    rtimeHi := 0, asleep := false, stopped := false, convergeDue := false }

def core0 : Issue := ⟨0, 0, 0, 1⟩

/-- The rack with the troupes given, of that launch. -/
def running (l : List Troupe) : State :=
  let s := mapped (mem 0x20000 (pack 64 [(0, 0x81828384), (4, 77), (32, 99)]) live)
  { s with core := { s.core with troupes := l, launches := [launched],
                                 stores := [⟨3, 0, 0, 0, [(8, 0xFE), (9, 1)], []⟩] } }

/-- The machine after the fetch. -/
def fetched (s : State) (t : Troupe) : State :=
  match fetch t 0x50000 (tickCore core0 s) with
  | some (_, u) => u
  | none => s

/-- The issue of a word of OP `op`. -/
def issue (s : State) (t : Troupe) (op : Nat) (f : BitVec 56) : Iss :=
  mkIss t (wordOf op f) 0x50000 (SMap.get 0 (fetched s t).core.cclk 0)

/-- A troupe of which thread 0 alone is left. -/
def lane0 : Troupe := { troupe with threads := troupe.threads.zipIdx.map (fun x => { x.1 with exited := x.2 != 0 }) }

/-- Threads 3 to 8 wait at a CONVERGE, thread 3 the longest; in `yielders` threads 0 to 2 have yielded. -/
def parkers : Troupe :=
  { troupe with threads := troupe.threads.zipIdx.map (fun x =>
      if 3 ≤ x.2 && x.2 < 9 then { x.1 with parked := some .converge, parkedAt := x.2 } else x.1) }
def yielders : Troupe :=
  { parkers with asleep := true, threads := parkers.threads.zipIdx.map (fun x =>
      if x.2 < 3 then { x.1 with yielded := true } else x.1) }

/-- Thread 0 has p0 set, the others not. -/
def half : Troupe := { troupe with threads := troupe.threads.zipIdx.map (fun x => { x.1 with preds := if x.2 = 0 then 1 else 0 }) }
def small (t : Troupe) : Troupe := { t with rows := 48, vregs := [(8 * 32, 0x3F800000), (10 * 32, 0x40000000)] }
/-- Cluster 0 of die 0 below its low voltage. -/
def lowVolts : State :=
  let s := sets [(0, Reg.MON_VLOW 0, 1)] (running [small troupe])
  { s with core := { s.core with cclk := [(0, 1)] } }
def guarded (f : BitVec 56) : BitVec 56 := f - 7

/-- Where the next access goes, and the machine after each step of it. -/
def afterXlat (u : State) (i : Iss) (va : Nat) (w : Want3) : State :=
  match translate i.t.xby va w u with
  | some (_, s) => s
  | none => u
def after {α} (r : Option (α × State)) (u : State) : State :=
  match r with
  | some (_, s) => s
  | none => u

/-- The troupe with sequence 2, whose block 0 lies at 0x20000; token 1 is at 0x20005 with a stride of 5. -/
def kv (l : List StepRec) (attached : List Nat) : State :=
  let s := mem 0x8000 (pack 8 [(0, 0x40001)]) (mem 0x40000 (pack 16 [(0, 0x20001), (8, 0x30001)]) (running [lane0]))
  { s with que := { s.que with seqs := [{ seqSlot with recs := l }] },
           core := { s.core with launches := [{ launched with attached := attached }] } }

/-- Step 0, open over tokens 0 to 9. -/
def step0 : StepRec := { openStep with step := 0, base := 0, end_ := 10, firstBlock := 0 }

/-- The LDKV word of these tests, and the STKV word. -/
def kvF : BitVec 56 := fields [(12, 8), (19, 3), (24, 2), (32, 0)]
def kvG : BitVec 56 := fields [(12, 4), (19, 3), (24, 2), (32, 0)]
/-- The sequence engine holds the 1,024 LDKV that it can, and the step of the next is open. -/
def kvFull : State :=
  let s := kv [{ step0 with step := 0xFFFFFFFF }] []
  { s with que := { s.que with heldKv := List.replicate 1024 ⟨2, ⟨0, 0, 0, 1⟩, 0⟩ } }
/-- The troupe backs off from the engine. -/
def kvBusy : State :=
  let s := kv [step0] [2]
  { s with slc := { s.slc with retry := [⟨0, 1, [⟨.kv ⟨0, 0, 0, 0⟩, 1, 8⟩]⟩] } }

/-- A launch of two troupes, none placed. -/
def dispatched : Launch := { launched with ntroupe := 2, placed := [], resident := [] }
def placing : State := { live with core := { live.core with launches := [dispatched] } }
def slot0 : SlotAt := ⟨0, 0, 0, 0⟩
def ended : Launch := { launched with ended := 1, attached := [2] }
def endedS : State :=
  { live with core := { live.core with launches := [ended] },
              que := { live.que with seqs := [{ seqSlot with recs := [{ openStep with step := 0, lcnt := 1 }] }], itemsOut := [(3, 1)] } }

/-- A section frame of partition 5, with its CRC. -/
def frame (typ : Nat) (b : List Byte) (crc : Nat) : List Byte :=
  pack 12 [(0, typ), (4, b.length), (6, 1), (7, 5)] ++ b ++ List.replicate (4080 - b.length) 0 ++ leBytes 4 crc

/-- A partial image of partition 5 on half W of die 0, serial 9. -/
def imageFile : List Byte :=
  pack 0x20 [(0, 0x4C52444A), (8, 1), (12, 6), (16, 0x22770559), (0x14, 1), (0x15, 5), (0x18, 9)] ++ List.replicate 4060 0
    ++ leBytes 4 0x310fe49a
    ++ frame 1 (pack 64 [(0, 5), (1, 2), (4, 1), (0x14, 16), (0x15, 4), (0x17, 2), (0x18, 100), (0x1A, 64), (0x1C, 1)]) 0x251fb44f
    ++ frame 2 (pack 16 [(2, 1), (3, 4)]) 0x61632827
    ++ frame 3 (pack 24 [(4, 3)]) 0x7b1f7652
    ++ frame 4 (pack 12 [(0, 3), (5, 1), (8, 4)] ++ pack 12 [(0, 4), (3, 3), (5, 1), (8, 0xFFFF)]) 0x47b5f316
    ++ frame 5 (pack 24 [(1, 1), (4, 1000), (8, 1000), (0x0C, 1), (0x0E, 1), (0x10, 1000)]) 0x5f85a9d9

/-- The rack with partition 5 live on die 0, which is in the census and keeps a copy, and a format accepted. -/
def loadable : State :=
  let s := sets [(0, Reg.FUSE_MAP_W 0, 3)] live
  let s : State := { s with img := { s.img with live := image ++ [⟨13, 0xFF, pack 8 [(4, 50)]⟩], kept := [(0, [])] },
                            boot := { s.boot with censusOpen := false, census := [⟨0, 0, 1, [], 0, 3, 3, 0, []⟩] } }
  { s with boot := { s.boot with accepted := [BitVec.ofNat 32 (comboDigest (fmtCombo s ⟨0, 0⟩))] } }

/-- What the file says. -/
def fileImage : Image := ⟨true, 5, 9, ⟨0, 0⟩, 1, [
  ⟨1, 5, pack 64 [(0, 5), (1, 2), (4, 1), (0x14, 16), (0x15, 4), (0x17, 2), (0x18, 100), (0x1A, 64), (0x1C, 1)]⟩,
  ⟨2, 5, pack 16 [(2, 1), (3, 4)]⟩, ⟨3, 5, pack 24 [(4, 3)]⟩,
  ⟨4, 5, pack 12 [(0, 3), (5, 1), (8, 4)] ++ pack 12 [(0, 4), (3, 3), (5, 1), (8, 0xFFFF)]⟩,
  ⟨5, 5, pack 24 [(1, 1), (4, 1000), (8, 1000), (0x0C, 1), (0x0E, 1), (0x10, 1000)]⟩]⟩

/-- A load of it under way. -/
def load (ph : LoadPhase) : Load := ⟨fileImage, [0], ph, 500, 0, [], [], false, [], []⟩
def loading (l : Load) : State := { loadable with img := { loadable.img with load := some l } }

/-- Instance 0 of partition 5 in state READY, before GO-LIVE. -/
def ready : State := sets [(0, Reg.PART_INST 0, 1), (1, Reg.PART_INST 0, 1)] live
def busyDie : State := sets [(0, Reg.PART_CMD_STATUS_BUSY, 1)] live
def resetting (r : ResetRun) : State := { live with prt := { live.prt with resets := [r], faulted := [5] } }
def warden (l : List (Nat × Fld × Nat)) : State := sets ((0, Reg.WARD_STATUS, 1) :: l) live
/-- Remap entry 3 of die 0, of instance 0, with PENDING interrupts. -/
def vector (n : Nat) (l : List (Nat × Fld × Nat)) (held : List Nat) : State :=
  let s := sets ((0, Reg.PART_IRQ_MAP_PENDING 3, n) :: (0, Reg.PART_IRQ_MAP_ADDR 3, 0x1000) :: l) live
  { s with prt := { s.prt with irqHeld := held } }
def clusterTlb : Tlb := ⟨0, 0, 7, 5, 0, 0, 0, 0x10000, 0, false, [0, 1], none, true, true, 0, 1000⟩

def bound (l : List (Nat × PtEntry)) (s : State) : State := { s with host := { s.host with pt := l } }
/-- An EXPORT entry of 0x10000 bytes at 0x20000 for rack 7 through bridge port 0, read-only. -/
def exported : PtEntry := ⟨1, 3, 0, 5, false, true, false, 1, 0x20000, 0x10000, 7⟩
def bridged : State :=
  let s := bound [(9, exported)] (mem 0x20000 (pack 8 [(0, 0x55)]) live)
  { s with img := { s.img with live := image ++ [⟨13, 0xFF, pack 8 [(0, 1), (2, 1), (4, 50), (6, 7)]⟩] } }
def partnerTlb : Tlb := ⟨2, 0, 3, 5, 0, 0, 0x10000, 0x10000, 0x10000, false, [], some 9, true, false, 0, 1000⟩
/-- HOST_PT_DATA holds a HOST entry of port 0 for partition 5. -/
def ptWritten (size : Nat) : State := sets [(0, Reg.HOST_PT_DATA 0, 0x1_06050001), (0, Reg.HOST_PT_DATA 1, 0x10000), (0, Reg.HOST_PT_DATA 2, size)] live
/-- Die 0 at STAGE code 8. -/
def served : State := sets [(0, Reg.DC_BOOT_STATUS_STAGE, 8), (0, Reg.IMG_COMMIT_TIME, 0x1122334455667788)] live
/-- A management frame, with its CRC. -/
def sealFrame (b : List Byte) : List Byte := b ++ leBytes 4 (crc32c b)
def readFrame : List Byte := sealFrame (pack 16 [(0, 0x4D47), (2, 1), (3, 1), (4, 9), (7, 1), (8, 0x280018)])
def writeFrame : List Byte := sealFrame (pack 24 [(0, 0x4D47), (2, 1), (3, 2), (4, 9), (7, 1), (8, 0x280018), (16, 77)])
/-- The instance behind VF 1 of port 0; its write of two bytes, and what the write answers. -/
def hb : HostBy := ⟨0, 1, none, some (5, 0)⟩
def w1s := sets [(0, Reg.HOST_FN_VBASE 1, 2)] (mapped (mem 0x20000 (pack 8 [(0, 0x55)]) live))
def w1 := vaWrite hb 5 0 false 0x20004 (byteMask 4 2) (BitVec.ofNat 256 (0x0201 * 256^4)) w1s
def okV (r : InRes × State) : SectorData := match r.1 with | .ok v _ => v | _ => 99
def okP (r : InRes × State) : Bool := match r.1 with | .ok _ v => v | _ => false

theorem rdBit_of_zero {s : State} {d : Nat} {f : Fld} (h : s.rd d f = 0) (i : Nat) : s.rdBit d f i = false := by
  simp [State.rdBit, h]

theorem counting_sectors (k : Nat) (h : k ≠ 2 * (0 * 64 + 3)) (h' : k ≠ 2 * (0 * 64 + 3) + 1) :
    SMap.get 0 counting.que.sectors k = 0 := by
  have e : counting.que.sectors = [(6, 4), (7, 1)] := rfl
  have : 6 ≠ k := by omega
  have : 7 ≠ k := by omega
  simp [SMap.get, *]

/-! ### Ill-formed commands: one for each check of WellFormed.lean -/

def badIssue : Issue := ⟨64, 0, 0, 0⟩
def badSlot : SlotAt := ⟨0, 0, 0, 16⟩
def okReq : SliceReq := ⟨0, 0, 0, 0, 0, 0, 0, false, false, none⟩
def badReq : SliceReq := { okReq with part := 128 }
def okCoh : CohMsg := ⟨0, 0, 0, 0, 0, 0, false, 0, 0, 0, 0, 0, 0, 0, 0, [0, 0, 0, 0], 0⟩
def badCoh : CohMsg := { okCoh with data := [] }
def okRed : RedPkt := ⟨false, ⟨0, 0, 0, 0⟩, 0, 0, 0, false, 0, 0, 0, 0, 0, 0, [0, 0, 0, 0, 0, 0, 0, 0]⟩
def badRed : RedPkt := { okRed with node := 512 }
def okItem : SeqItem := ⟨0, 0, 0, 0, 0, 0, 0, 0, 0, false, false, false⟩
def badItem : SeqItem := { okItem with seq := 16384 }
def okHalf : HalfPkt := ⟨0, 10, false, false, 0, false, .u, .header, false, 0, 0, 0⟩
def badHalf : HalfPkt := { okHalf with dst := 9 }
def okFlits : List Byte := List.replicate 256 0

def okFuse : FuseData := ⟨true, 0, 0, 0, 0, 0, ⟨0, 0⟩⟩
def okCopy : FlashCopy := ⟨true, 0, ⟨0, 0⟩, [], ⟨0, 0⟩, ⟨0, 0⟩⟩

/-- Each check of the shared operands refuses a term of its own. -/
theorem test_wf_operands :
    (∀ x ∈ [Source.pf 32, .page 32 0, .page 0 128], x.wf = false) ∧
    (∀ x ∈ [(⟨64, 0, 0, 0⟩ : Issue), ⟨0, 320, 0, 0⟩, ⟨0, 0, 16, 0⟩], x.wf = false) ∧
    (∀ x ∈ [(⟨64, 0, 0, 0⟩ : SlotAt), ⟨0, 320, 0, 0⟩, ⟨0, 0, 16, 0⟩, ⟨0, 0, 0, 16⟩], x.wf = false) ∧
    (∀ x ∈ [{ okReq with part := 128 }, { okReq with cls := 4 }, { okReq with pa := 2 ^ 52 }, { okReq with hint := 3 }],
      x.wf = false) ∧
    (∀ x ∈ [{ okCoh with part := 128 }, { okCoh with src := 64 }, { okCoh with dst := 64 }, { okCoh with req := 64 },
      { okCoh with srcSlice := 32 }, { okCoh with dstSlice := 32 }, { okCoh with line := 2 ^ 45 }, badCoh],
      x.wf = false) ∧
    (∀ x ∈ [RedPlace.router 64 0, .router 0 320, .spine 2 0, .spine 0 64], x.wf = false) ∧
    (∀ x ∈ [{ okRed with key := ⟨128, 0, 0, 0⟩ }, { okRed with key := ⟨0, 4096, 0, 0⟩ }, { okRed with key := ⟨0, 0, 5, 0⟩ },
      { okRed with key := ⟨0, 0, 0, 2 ^ 47⟩ }, { okRed with inst := 32 }, { okRed with src := 64 }, { okRed with dst := 64 },
      { okRed with count := 65536 }, { okRed with contrib := 65536 }, badRed, { okRed with words := [] }],
      x.wf = false) ∧
    (∀ x ∈ [{ okItem with queue := 4096 }, badItem, { okItem with ctx := 256 }], x.wf = false) ∧
    (∀ x ∈ [{ okHalf with src := 320 }, { okHalf with dst := 330 }, { okHalf with part := 128 }, { okHalf with kind := .redLong }, badHalf],
      x.wf = false) := by
  decide

theorem test_wf_refuses_1 : ∀ c ∈ ([
    .doorbell 32 0 none 0 0 0, .arbiterGrant 64, .govHold 64, .bucketRefill 64, .instanceBucketRefill 64,
    .sectorCountReport 64 0 0 0, .sectorCountReport 0 64 0 0, .monitorSample 64 0 0 false,
    .monitorSample 0 360 0 false, .tripRestart 64, .cclkStepChange 64, .pllLock 64, .pllLockTimeout 64,
    .pllLossOfLock 64, .spinePlaneLoss 2, .dieReset 64, .moduleReset 16, .fuseRead 64 okFuse, .bootFirmwareLoad 64,
    .hbmTraining 64 0, .runtimeFirmwareHandover ⟨64, true⟩, .wardenBoot 64, .moduleRollCall 64 false, .beacon 66 0 [],
    .beacon 0 80 [], .beaconSlotMissed 66 0 0, .deadNotice 66 0 0, .deadNotice 0 64 0, .reclaimTimeout 64 0,
    .reclaimTimeout 0 64, .masterElection 64, .rtimeExchange 64 0 0 0 0, .rtimeRemeasure 64 0, .stageTimeout 64,
    .imgCommit 66 0, .commitRelay 66 0 0 0, .commitRelay 0 66 0 0, .commitSwap 66, .loadAgentTimeout 66,
    .vadd badIssue 0, .vsub badIssue 0, .vmul badIssue 0, .vfma badIssue 0, .vmin badIssue 0, .vmax badIssue 0,
    .vabs badIssue 0, .vneg badIssue 0, .vlog badIssue 0, .vshl badIssue 0, .vshr badIssue 0, .vcmp badIssue 0,
    .vsel badIssue 0, .vcvt badIssue 0, .vdot4 badIssue 0, .vmov badIssue 0, .vrcp badIssue 0, .vrsq badIssue 0,
    .vexp2 badIssue 0, .vlog2 badIssue 0, .vshfl badIssue 0] : List Instr), c.wf = false := by
  decide +kernel

theorem test_wf_refuses_2 : ∀ c ∈ ([
    .vred badIssue 0, .vadds badIssue false 0, .vsubs badIssue false 0, .vmuls badIssue false 0,
    .vfmas badIssue false 0, .vmins badIssue false 0, .vmaxs badIssue false 0, .vcmps badIssue false 0,
    .vmovs badIssue false 0, .sadd badIssue false 0, .ssub badIssue false 0, .smul badIssue false 0,
    .slog badIssue false 0, .ssh badIssue false 0, .smov badIssue false 0, .scmp badIssue false 0,
    .sadd64 badIssue false 0, .sread badIssue 0, .vread badIssue 0, .v2s badIssue 0, .vbal badIssue 0,
    .l1inv badIssue 0, .sleep badIssue 0, .sleepExpiry badSlot, .ld badIssue 0, .st badIssue 0, .ldAcq badIssue 0,
    .stRel badIssue 0, .ldl badIssue 0, .stl badIssue 0, .ldu badIssue 0, .pref badIssue 0, .atom badIssue 0,
    .atomAr badIssue 0, .atomf badIssue 0, .atomfAr badIssue 0, .atoml badIssue 0, .fence badIssue 0,
    .redst badIssue 0, .ldkv badIssue 0, .stkv badIssue 0, .bra badIssue 0, .call badIssue 0, .jmpr badIssue 0,
    .converge badIssue 0, .convergeTimeout badSlot, .yield badIssue 0, .yieldTimeout badSlot, .barc badIssue 0,
    .exit badIssue 0, .nop badIssue 0, .trap badIssue 0, .mma8 badIssue 0, .mma16 badIssue 0, .kill 64 0 0 0,
    .kill 0 128 0 0, .kill 0 0 32 0, .kill 0 0 0 256, .troupePlacement 64 0, .troupePlacement 0 320] : List Instr), c.wf = false := by
  decide +kernel

theorem test_wf_refuses_3 : ∀ c ∈ ([
    .troupeEnd badSlot, .launchDetach 4096 0, .launchRetire 4096 0, .irqCoalesceTimeout 64 0,
    .irqCoalesceTimeout 0 4096, .sliceReadRequest 64 0 okReq, .sliceReadRequest 0 24 okReq,
    .sliceReadRequest 0 0 badReq, .sliceWriteRequest 64 0 okReq 0 0, .sliceWriteRequest 0 24 okReq 0 0,
    .sliceWriteRequest 0 0 badReq 0 0, .sliceAtomicRequest 64 0 okReq 0 false false 0 0,
    .sliceAtomicRequest 0 24 okReq 0 false false 0 0, .sliceAtomicRequest 0 0 badReq 0 false false 0 0,
    .starveHoldLapse 64 0, .starveHoldLapse 0 24, .sliceFillReturn 64 0 0 0, .sliceFillReturn 0 24 0 0,
    .fillTimeout 64 0 0, .fillTimeout 0 24 0, .sliceSramError 64 0 0 0 0, .sliceSramError 0 24 0 0 0,
    .channelFailure 64 0, .channelFailure 0 24, .halfLinkCrossing 64 okHalf, .halfLinkCrossing 0 badHalf,
    .ucPin 64 .dc 0 0, .ucPin 0 (.pf 32) 0 0, .ucPin 0 .dc 0 128, .ucUnpin 64 .dc 0 0, .ucUnpin 0 (.pf 32) 0 0,
    .ucUnpin 0 .dc 0 128, .gets badCoh, .getm badCoh, .upg badCoh, .puts badCoh, .putm badCoh, .puto badCoh,
    .fwdgets badCoh, .fwdgetm badCoh, .inv badCoh, .invack badCoh, .data badCoh, .dataexcl badCoh, .datap badCoh,
    .dataexclp badCoh, .wback badCoh, .nack badCoh, .cohTimeout 64 0 0 false, .cohTimeout 0 24 0 false,
    .cohQuery 64 .dc, .cohQuery 0 (.pf 32), .toashFrame 64 0 0 okFlits 0, .toashFrame 0 5 0 okFlits 0,
    .toashFrame 0 0 0 [] 0, .toashNak 64 0 0,
    .toashNak 0 5 0, .toashRetrain 64 0 0, .toashRetrain 0 5 0, .toashPortDown 64 0, .toashPortDown 0 5] : List Instr), c.wf = false := by
  decide +kernel

theorem test_wf_refuses_4 : ∀ c ∈ ([
    .redPacket (.router 64 0) ⟨okRed, false⟩, .redPacket (.router 0 0) ⟨badRed, false⟩, .redHoldExpiry (.router 64 0) ⟨0, 0, 0, 0⟩,
    .treeNodeForward (.router 64 0) ⟨0, 0, 0, 0⟩ 0, .redAccumulate 64 0 ⟨okRed, false⟩, .redAccumulate 0 24 ⟨okRed, false⟩,
    .redAccumulate 0 0 ⟨badRed, false⟩, .redTimeout 64 0 ⟨0, 0, 0, 0⟩, .redTimeout 0 24 ⟨0, 0, 0, 0⟩, .seqctlCreate badItem,
    .seqctlDestroy badItem, .stepOpen badItem, .stepClose badItem, .truncate badItem, .seqctlSet badItem,
    .btinval badItem, .seqctlLink badItem, .seqctlUnlink badItem, .seqctlQuery badItem, .arm badItem,
    .attachExchange 4096 0, .queEnable 64 0 .dc 0, .queEnable 0 64 .dc 0, .queEnable 0 0 (.pf 32) 0,
    .queReset 64 0 .dc, .queReset 0 64 .dc, .queReset 0 0 (.pf 32), .movEnd 64 0, .movEnd 0 32, .movCopy 64 0,
    .movCopy 0 32, .shift 64 0, .shift 0 32, .gather 64 0, .gather 0 32, .scatter 64 0, .scatter 0 32, .movFill 64 0,
    .movFill 0 32, .wait 64 0, .wait 0 32, .waitPoll 64 0, .waitPoll 0 32, .waitTimeout 64 0, .waitTimeout 0 32,
    .signal 64 0, .signal 0 32, .jump 64 0, .jump 0 32, .movProgWrite 64 0 .dc 0, .movProgWrite 0 8192 .dc 0,
    .movProgWrite 0 0 (.pf 32) 0, .movSlotWrite 64 0 .dc 0, .movSlotWrite 0 64 .dc 0, .movSlotWrite 0 0 (.pf 32) 0,
    .restart 64 0 0 .dc, .restart 0 32 0 .dc, .restart 0 0 128 .dc, .restart 0 0 0 (.pf 32), .abort 64 0 .dc] : List Instr), c.wf = false := by
  decide +kernel

theorem test_wf_refuses_5 : ∀ c ∈ ([
    .abort 0 32 .dc, .abort 0 0 (.pf 32), .movHaltTimeout 64 0, .movHaltTimeout 0 32, .partnerCompletion 32 0 0 [],
    .completionTimeout 32 0, .goLive 64 0 0 .dc, .goLive 0 128 0 .dc, .goLive 0 0 32 .dc, .goLive 0 0 0 (.pf 32),
    .instReset 64 0 0 .dc, .instReset 0 128 0 .dc, .instReset 0 0 32 .dc, .instReset 0 0 0 (.pf 32),
    .partReset 64 0 .dc, .partReset 0 128 .dc, .partReset 0 0 (.pf 32), .resetComplete 128 none, .flr 32 0,
    .powerGate 64 0 0 .dc, .powerGate 0 0 0 (.pf 32), .clockStop 64 0 0 .dc, .clockStop 0 0 0 (.pf 32),
    .restore 64 0 0 .dc, .restore 0 0 0 (.pf 32), .stringTimeout 64, .wardStrWrite 64 0 0 .dc 0,
    .wardStrWrite 0 0 0 (.pf 32) 0, .wardDown 64 0, .wardMboxInWrite 64 .dc 0, .wardMboxInWrite 0 (.pf 32) 0,
    .wardMboxInRead 64 .dc, .wardMboxInRead 0 (.pf 32), .wardMboxOutWrite 64 .dc 0, .wardMboxOutWrite 0 (.pf 32) 0,
    .wardMboxOutRead 64 .dc, .wardMboxOutRead 0 (.pf 32), .partSram 64 0 0, .partSram 0 7 0, .irqMapAddrWrite 64 0 .dc 0,
    .irqMapAddrWrite 0 4096 .dc 0, .irqMapAddrWrite 0 0 (.pf 32) 0, .irqMapDataWrite 64 0 .dc 0,
    .irqMapDataWrite 0 4096 .dc 0, .irqMapDataWrite 0 0 (.pf 32) 0, .irqMapHoldTimeout 64 0,
    .irqMapHoldTimeout 0 4096, .irqUnmask 64 0 .dc, .irqUnmask 0 4096 .dc, .irqUnmask 0 0 (.pf 32),
    .xltInvalRange 64 0 0 0 0 .dc, .xltInvalRange 0 128 0 0 0 .dc, .xltInvalRange 0 0 32 0 0 .dc,
    .xltInvalRange 0 0 0 256 0 .dc, .xltInvalRange 0 0 0 0 0 (.pf 32), .xltInvalContext 64 0 0 0 .dc,
    .xltInvalContext 0 128 0 0 .dc, .xltInvalContext 0 0 32 0 .dc, .xltInvalContext 0 0 0 256 .dc,
    .xltInvalContext 0 0 0 0 (.pf 32), .xltInvalInstance 64 0 0 .dc] : List Instr), c.wf = false := by
  decide +kernel

theorem test_wf_refuses_6 : ∀ c ∈ ([
    .xltInvalInstance 0 128 0 .dc, .xltInvalInstance 0 0 32 .dc, .xltInvalInstance 0 0 0 (.pf 32),
    .xltInvalPartition 64 0 .dc, .xltInvalPartition 0 128 .dc, .xltInvalPartition 0 0 (.pf 32), .xltInvTimeout 64 0,
    .xltInvTimeout 0 64, .xltCtxBaseWrite 64 0 .dc 0, .xltCtxBaseWrite 0 64 .dc 0, .xltCtxBaseWrite 0 0 (.pf 32) 0,
    .pageWalk 64 0 0 0 0 0 false false, .pageWalk 0 320 0 0 0 0 false false, .pageWalk 0 0 128 0 0 0 false false,
    .pageWalk 0 0 0 32 0 0 false false, .pageWalk 0 0 0 0 256 0 false false, .linkUp 32 0 0 false 0,
    .hostLinkDown 32 0, .hostAbi 32 ⟨0, 0⟩, .hostApertureWrite 32 0 none 0 0 [] false false,
    .hostApertureRead 32 0 none 0 0 0, .atsInvalidation 32 0 0, .bridgeRequest 2 0 ⟨0, 0⟩ 0 0 0 none,
    .bridgeRequest 0 8 ⟨0, 0⟩ 0 0 0 none, .rmBoot (List.replicate 1025 ⟨[]⟩) ⟨0, 0⟩ ⟨0, 0⟩ ⟨0, 0⟩ ⟨0, 0⟩, .ptWrite 64 0 .dc, .ptWrite 0 256 .dc, .ptWrite 0 0 (.pf 32), .ptRead 64 0 .dc,
    .ptRead 0 256 .dc, .ptRead 0 0 (.pf 32), .ptRetire 64 0 .dc, .ptRetire 0 256 .dc, .ptRetire 0 0 (.pf 32),
    .hostPortError 32 0 0 0, .recordAccept 64, .recordDrain 64, .recTest 64 .dc 0, .recTest 0 (.pf 32) 0,
    .recFailClearClusters 64 .dc, .recFailClearClusters 0 (.pf 32), .recFailClearChans 64 .dc,
    .recFailClearChans 0 (.pf 32), .recFailClearHalves 64 .dc, .recFailClearHalves 0 (.pf 32),
    .stagingSramError 64 0, .registerWrite 64 0 0 .dc 0, .registerWrite 0 0 0 (.pf 32) 0, .rcRegisterRead 64 0 0 .dc,
    .rcRegisterRead 0 0 0 (.pf 32), .jtagExtest 64 0, .jtagIdcode 64, .jtagSamplePreload 64 0, .jtagDcDebug 64 0,
    .jtagBypass 64 0, .shelfPowerGood 3, .diePowerGood 64, .modEnDrop 16, .leak (some 16), .stageFault 64,
    .moduleInsert 16] : List Instr), c.wf = false := by
  decide +kernel

theorem test_wf_refuses_7 : ∀ c ∈ ([
    .moduleFlashWrite 16 0 0 okCopy, .toashPortTrained 64 0 0, .toashPortTrained 0 5 0, .clusterFailure 64 0,
    .clusterFailure 0 320, .routerFailure 64 0, .routerFailure 0 320, .halfLinkLaneDown 64 0, .halfLinkLaneDown 0 4,
    .seqEngineFailure 64 0, .seqEngineFailure 0 256, .illegalInstruction badIssue 0, .moverIllegalInstruction 64 0,
    .moverIllegalInstruction 0 32, .shelfFailure 3 false, .moduleRemove 16, .spineSledReplace 2,
    .configurationRequest 32 0 0 none] : List Instr), c.wf = false := by
  decide +kernel

theorem test_wf_accepts_1 : ∀ c ∈ ([
    .doorbell 0 0 none 0 0 0, .arbiterGrant 0, .govHold 0, .bucketRefill 0, .instanceBucketRefill 0,
    .sectorCountReport 0 0 0 0, .monitorSample 0 0 0 false, .tripRestart 0, .cclkStepChange 0, .pllLock 0,
    .pllLockTimeout 0, .pllLossOfLock 0, .spinePlaneLoss 0, .dieReset 0, .moduleReset 0, .fuseRead 0 okFuse,
    .bootFirmwareLoad 0, .hbmTraining 0 0, .runtimeFirmwareHandover ⟨0, true⟩, .wardenBoot 0, .moduleRollCall 0 false,
    .beacon 0 0 [], .beaconSlotMissed 0 0 0, .deadNotice 0 0 0, .reclaimTimeout 0 0, .masterElection 0,
    .rtimeExchange 0 0 0 0 0, .rtimeRemeasure 0 0, .stageTimeout 0, .imgCommit 0 0, .commitRelay 0 0 0 0,
    .commitSwap 0, .loadAgentTimeout 0, .vadd ⟨0, 0, 0, 0⟩ 0, .vsub ⟨0, 0, 0, 0⟩ 0, .vmul ⟨0, 0, 0, 0⟩ 0,
    .vfma ⟨0, 0, 0, 0⟩ 0, .vmin ⟨0, 0, 0, 0⟩ 0, .vmax ⟨0, 0, 0, 0⟩ 0, .vabs ⟨0, 0, 0, 0⟩ 0, .vneg ⟨0, 0, 0, 0⟩ 0,
    .vlog ⟨0, 0, 0, 0⟩ 0, .vshl ⟨0, 0, 0, 0⟩ 0, .vshr ⟨0, 0, 0, 0⟩ 0, .vcmp ⟨0, 0, 0, 0⟩ 0, .vsel ⟨0, 0, 0, 0⟩ 0,
    .vcvt ⟨0, 0, 0, 0⟩ 0, .vdot4 ⟨0, 0, 0, 0⟩ 0, .vmov ⟨0, 0, 0, 0⟩ 0, .vrcp ⟨0, 0, 0, 0⟩ 0, .vrsq ⟨0, 0, 0, 0⟩ 0,
    .vexp2 ⟨0, 0, 0, 0⟩ 0, .vlog2 ⟨0, 0, 0, 0⟩ 0, .vshfl ⟨0, 0, 0, 0⟩ 0, .vred ⟨0, 0, 0, 0⟩ 0,
    .vadds ⟨0, 0, 0, 0⟩ false 0, .vsubs ⟨0, 0, 0, 0⟩ false 0, .vmuls ⟨0, 0, 0, 0⟩ false 0,
    .vfmas ⟨0, 0, 0, 0⟩ false 0, .vmins ⟨0, 0, 0, 0⟩ false 0, .vmaxs ⟨0, 0, 0, 0⟩ false 0,
    .vcmps ⟨0, 0, 0, 0⟩ false 0, .vmovs ⟨0, 0, 0, 0⟩ false 0, .sadd ⟨0, 0, 0, 0⟩ false 0, .ssub ⟨0, 0, 0, 0⟩ false 0,
    .smul ⟨0, 0, 0, 0⟩ false 0, .slog ⟨0, 0, 0, 0⟩ false 0, .ssh ⟨0, 0, 0, 0⟩ false 0, .smov ⟨0, 0, 0, 0⟩ false 0,
    .scmp ⟨0, 0, 0, 0⟩ false 0, .sadd64 ⟨0, 0, 0, 0⟩ false 0, .sread ⟨0, 0, 0, 0⟩ 0, .vread ⟨0, 0, 0, 0⟩ 0,
    .v2s ⟨0, 0, 0, 0⟩ 0, .vbal ⟨0, 0, 0, 0⟩ 0, .l1inv ⟨0, 0, 0, 0⟩ 0, .sleep ⟨0, 0, 0, 0⟩ 0,
    .sleepExpiry ⟨0, 0, 0, 0⟩, .ld ⟨0, 0, 0, 0⟩ 0, .st ⟨0, 0, 0, 0⟩ 0, .ldAcq ⟨0, 0, 0, 0⟩ 0, .stRel ⟨0, 0, 0, 0⟩ 0,
    .ldl ⟨0, 0, 0, 0⟩ 0, .stl ⟨0, 0, 0, 0⟩ 0, .ldu ⟨0, 0, 0, 0⟩ 0, .pref ⟨0, 0, 0, 0⟩ 0, .atom ⟨0, 0, 0, 0⟩ 0,
    .atomAr ⟨0, 0, 0, 0⟩ 0, .atomf ⟨0, 0, 0, 0⟩ 0, .atomfAr ⟨0, 0, 0, 0⟩ 0, .atoml ⟨0, 0, 0, 0⟩ 0,
    .fence ⟨0, 0, 0, 0⟩ 0, .redst ⟨0, 0, 0, 0⟩ 0, .ldkv ⟨0, 0, 0, 0⟩ 0, .stkv ⟨0, 0, 0, 0⟩ 0, .bra ⟨0, 0, 0, 0⟩ 0,
    .call ⟨0, 0, 0, 0⟩ 0, .jmpr ⟨0, 0, 0, 0⟩ 0, .converge ⟨0, 0, 0, 0⟩ 0, .convergeTimeout ⟨0, 0, 0, 0⟩,
    .yield ⟨0, 0, 0, 0⟩ 0, .yieldTimeout ⟨0, 0, 0, 0⟩, .barc ⟨0, 0, 0, 0⟩ 0, .exit ⟨0, 0, 0, 0⟩ 0,
    .nop ⟨0, 0, 0, 0⟩ 0, .trap ⟨0, 0, 0, 0⟩ 0, .mma8 ⟨0, 0, 0, 0⟩ 0, .mma16 ⟨0, 0, 0, 0⟩ 0, .kill 0 0 0 0,
    .troupePlacement 0 0, .troupeEnd ⟨0, 0, 0, 0⟩, .launchDetach 0 0, .launchRetire 0 0, .irqCoalesceTimeout 0 0,
    .sliceReadRequest 0 0 okReq, .sliceWriteRequest 0 0 okReq 0 0, .sliceAtomicRequest 0 0 okReq 0 false false 0 0,
    .starveHoldLapse 0 0, .sliceFillReturn 0 0 0 0, .fillTimeout 0 0 0, .sliceSramError 0 0 0 0 0,
    .channelFailure 0 0, .halfLinkCrossing 0 okHalf, .ucPin 0 .dc 0 0, .ucUnpin 0 .dc 0 0, .gets okCoh, .getm okCoh,
    .upg okCoh, .puts okCoh, .putm okCoh, .puto okCoh, .fwdgets okCoh, .fwdgetm okCoh, .inv okCoh, .invack okCoh,
    .data okCoh, .dataexcl okCoh, .datap okCoh, .dataexclp okCoh, .wback okCoh] : List Instr), c.wf = true := by
  decide +kernel

theorem test_wf_accepts_2 : ∀ c ∈ ([
    .nack okCoh, .cohTimeout 0 0 0 false, .cohQuery 0 .dc, .toashFrame 0 0 0 okFlits 0, .toashNak 0 0 0,
    .toashRetrain 0 0 0, .toashPortDown 0 0, .redPacket (.router 0 0) ⟨okRed, false⟩,
    .redHoldExpiry (.router 0 0) ⟨0, 0, 0, 0⟩, .treeNodeForward (.router 0 0) ⟨0, 0, 0, 0⟩ 0,
    .redAccumulate 0 0 ⟨okRed, false⟩, .redTimeout 0 0 ⟨0, 0, 0, 0⟩, .seqctlCreate okItem, .seqctlDestroy okItem,
    .stepOpen okItem, .stepClose okItem, .truncate okItem, .seqctlSet okItem, .btinval okItem, .seqctlLink okItem,
    .seqctlUnlink okItem, .seqctlQuery okItem, .arm okItem, .attachExchange 0 0, .queEnable 0 0 .dc 0,
    .queReset 0 0 .dc, .movEnd 0 0, .movCopy 0 0, .shift 0 0, .gather 0 0, .scatter 0 0, .movFill 0 0, .wait 0 0,
    .waitPoll 0 0, .waitTimeout 0 0, .signal 0 0, .jump 0 0, .movProgWrite 0 0 .dc 0, .movSlotWrite 0 0 .dc 0,
    .restart 0 0 0 .dc, .abort 0 0 .dc, .movHaltTimeout 0 0, .partnerCompletion 0 0 0 [], .completionTimeout 0 0,
    .goLive 0 0 0 .dc, .instReset 0 0 0 .dc, .partReset 0 0 .dc, .resetComplete 0 none, .flr 0 0,
    .powerGate 0 0 0 .dc, .clockStop 0 0 0 .dc, .restore 0 0 0 .dc, .stringTimeout 0, .wardStrWrite 0 0 0 .dc 0,
    .wardDown 0 0, .wardMboxInWrite 0 .dc 0, .wardMboxInRead 0 .dc, .wardMboxOutWrite 0 .dc 0,
    .wardMboxOutRead 0 .dc, .partSram 0 0 0, .irqMapAddrWrite 0 0 .dc 0, .irqMapDataWrite 0 0 .dc 0,
    .irqMapHoldTimeout 0 0, .irqUnmask 0 0 .dc, .xltInvalRange 0 0 0 0 0 .dc, .xltInvalContext 0 0 0 0 .dc,
    .xltInvalInstance 0 0 0 .dc, .xltInvalPartition 0 0 .dc, .xltInvTimeout 0 0, .xltCtxBaseWrite 0 0 .dc 0,
    .pageWalk 0 0 0 0 0 0 false false, .linkUp 0 0 0 false 0, .hostLinkDown 0 0, .hostAbi 0 ⟨0, 0⟩,
    .hostApertureWrite 0 0 none 0 0 [] false false, .hostApertureRead 0 0 none 0 0 0, .atsInvalidation 0 0 0,
    .bridgeRequest 0 0 ⟨0, 0⟩ 0 0 0 none, .rmBoot [] ⟨0, 0⟩ ⟨0, 0⟩ ⟨0, 0⟩ ⟨0, 0⟩, .ptWrite 0 0 .dc, .ptRead 0 0 .dc, .ptRetire 0 0 .dc, .hostPortError 0 0 0 0,
    .recordAccept 0, .recordDrain 0, .recTest 0 .dc 0, .recFailClearClusters 0 .dc, .recFailClearChans 0 .dc,
    .recFailClearHalves 0 .dc, .stagingSramError 0 0, .registerWrite 0 0 0 .dc 0, .rcRegisterRead 0 0 0 .dc,
    .jtagExtest 0 0, .jtagIdcode 0, .jtagSamplePreload 0 0, .jtagDcDebug 0 0, .jtagBypass 0 0, .shelfPowerGood 0,
    .diePowerGood 0, .modEnDrop 0, .leak none, .stageFault 0, .moduleInsert 0, .moduleFlashWrite 0 0 0 okCopy,
    .toashPortTrained 0 0 0, .clusterFailure 0 0, .routerFailure 0 0, .halfLinkLaneDown 0 0, .seqEngineFailure 0 0,
    .illegalInstruction ⟨0, 0, 0, 0⟩ 0, .moverIllegalInstruction 0 0, .shelfFailure 0 false, .moduleRemove 0,
    .spineSledReplace 0, .configurationRequest 0 0 0 none] : List Instr), c.wf = true := by
  decide +kernel

/-! ### Worked values of the spec -/

/-- Chapter 0's worked example: sequence 0x1103 sits in slot 3 of DIE[17], position 1 of module 4; its launch queue, local
queue 5, is queue 1,093. -/
theorem test_numbering :
    seqDie 0x1103 = 17 ∧ moduleOf 17 = 4 ∧ queDie 1093 = 17 ∧ queLocal 1093 = 5 ∧ homeDie (17 * 2 ^ 46) = 17 := by
  decide

/-- Chapter 16's worked example: QUE_PI[5], QUE_CI[5], QUE_STATE[5] and MESH_CREDIT[4]. -/
theorem test_addresses :
    (Reg.QUE_PI 5).addr = 0x300250 ∧ (Reg.QUE_CI 5).addr = 0x300258 ∧ (Reg.QUE_STATE_STATE 5).addr = 0x300260 ∧
    (Reg.MESH_CREDIT_REQ 4).addr = 0x580120 := by
  decide

/-- Chapter 4's worked example: the chunk 0 MMA8 word, its fields, and that it is legal in an allocation of 48. -/
theorem test_mma8_word :
    fOp 0x0023240001010780 = 0x80 ∧ fPsel 0x0023240001010780 = 7 ∧ fD 0x0023240001010780 = 16 ∧
    fA 0x0023240001010780 = 32 ∧ fVB 0x0023240001010780 = 0 ∧ fVC 0x0023240001010780 = 0 ∧
    fScaleM 0x0023240001010780 = true ∧ fSSA 0x0023240001010780 = 4 ∧ fSSB 0x0023240001010780 = 3 ∧
    fZC 0x0023240001010780 = true ∧ legal 48 0x0023240001010780 = true := by
  decide +kernel

/-- Chapter 6's worked example: the home of PA 0x0004_0012_3456_7880 with 24 channels, and after CHAN[9] has failed. -/
theorem test_home_channel :
    homeDie 0x0004001234567880 = 16 ∧ chanHash 0x0004001234567880 (List.range 24) = some 5 ∧
    lineSet (0x0004001234567880 / 128) = 0xFB4 ∧
    chanHash 0x0004001234567880 ((List.range 24).filter (fun n => n != 9)) = some 21 := by
  decide +kernel

/-- Chapter 13's worked example: an interleaved 2 MiB page over DIE[16] to DIE[23]. -/
theorem test_interleaved_page :
    (⟨1, 16, 0, 8, 1, 0, 0x7F4001200000, 0x200000, 0x0004800040000000, true, (List.range 8).map (16 + ·), none, true,
      false, 0, 2000000⟩ : Tlb).translate 0x7F4001234560 = 0x0005400040004560 := by
  decide +kernel

/-- Chapter 11's worked example: a refill at HEAD_WARM 192 adds 750 EU. -/
theorem test_refill : ∃ t, exec (.bucketRefill 0) (sets [(0, Reg.MON_TWARM, 128), (0, Reg.GOV_CTRL_HEAD_WARM, 192),
    (0, Reg.GOV_CTRL_CAP_MS, 2), (0, Reg.GOV_LIMITS_POWER_W, 1000), (0, Reg.GOV_BUCKET, 13352)] up) = .next t ∧
    govB t 0 = 14102 :=
  ⟨_, rfl, by decide +kernel⟩

/-- Chapter 11's worked example: a class U item of 32,768 EU at B = 21,602 with U_FLOOR −2,000 leaves B = −2,000 and
forgives 9,166. -/
theorem test_overdraw :
    let s := sets [(0, Reg.GOV_LIMITS_U_FLOOR, ofSigned 32 (-2000)), (0, Reg.GOV_BUCKET, 21602)] (queue 3 0 0 1 0 live)
    govB (chargeItem (head launchItem) 32768 s) 0 = -2000 ∧
    (chargeItem (head launchItem) 32768 s).rd 0 Reg.GOV_U_FORGIVEN = 9166 := by
  decide +kernel

/-- No row of the opcode table gives bits, so no word spells a command. -/
theorem test_no_words (nbits w : Nat) (s : State) : decodeTableWord nbits w = none ∧ s.withFetchWord nbits w = s :=
  ⟨rfl, rfl⟩

/-! ### Witnesses: for every obligation with hypotheses, states and operands that meet them -/

theorem witness_EveryStepKeepsCanonical :
    ∃ (s : State) (t : State), Canonical s ∧ step s = .next t :=
  ⟨State.reset, refclkEdge State.reset, ⟨by decide +kernel, by decide +kernel, by decide +kernel⟩, rfl⟩

theorem witness_ExecLeavesQueue :
    ∃ (c : Instr) (s : State) (t : State), exec c s = .next t :=
  ⟨.troupePlacement 0 5, live, live, rfl⟩

theorem witness_CommandsFromQueue :
    (∃ (s : State), s.pending = []) ∧
    (∃ (s : State) (d : Nat), s.pending = [] ∧ d < dieCount s.orderCode ∧ s.rack.refclk = true ∧ s.rd d
      Reg.CLK_STATUS_LOCK = 1 ∧ -10 ≤ corrOf s d ∧ corrOf s d ≤ 10 ∧ s.rtime d < 2 ^ 64 - 10) :=
  ⟨⟨up, by decide +kernel⟩,
   ⟨up, 1, by decide +kernel⟩⟩

theorem witness_AbsentDies :
    ∃ (s : State) (d : Nat), dieCount s.orderCode ≤ d :=
  ⟨up, 64, by decide +kernel⟩

theorem witness_QuiesceTimeoutClamps :
    (∃ (s : State) (d : Nat) (src : Source), d < dieCount s.orderCode ∧ src ∈ [Source.dc, .mgp] ∧ dieUp s d = true) ∧
    (∃ (s : State) (d : Nat) (src : Source), d < dieCount s.orderCode ∧ src ∈ [Source.dc, .mgp] ∧ dieUp s d = true) :=
  ⟨⟨up, 1, .mgp, by decide +kernel⟩,
   ⟨up, 0, .dc, by decide +kernel⟩⟩

theorem witness_OpenCensusRefusesAccept :
    ∃ (s : State), s.rack.rmUp = true ∧ s.boot.censusOpen = true :=
  ⟨up, by decide +kernel⟩

theorem witness_PredicateSeven :
    ∃ (t : Troupe) (q : Nat) (n : Nat) (q' : Nat), q < 7 ∧ q' < 8 ∧ n < t.threads.length :=
  ⟨troupe, 0, 31, 6, by decide +kernel⟩

theorem witness_CohortIsLeastPc :
    (∃ (t : Troupe), t.threads.length ≤ 32) ∧
    (∃ (s : State) (u : State) (a : Issue) (op : Nat) (f : BitVec 56) (t : Troupe) (i : Iss), Issues s u a op f t i) :=
  ⟨⟨troupe, by decide +kernel⟩,
   ⟨running [troupe], fetched (running [troupe]) troupe, core0, 0x67, fields [], troupe, issue (running [troupe])
     troupe 0x67 (fields []), by decide +kernel⟩⟩

theorem witness_LongWords :
    (∃ (x : Nat) (m : Nat) (neg : Bool) (e : Int), fp32.decode x = .num neg m e) ∧
    (∃ (x : Nat) (m : Nat) (neg : Bool) (e : Int), fp32.decode x = .num neg m e) ∧
    (∃ (x : Nat), fp32.decode x = .nan) ∧
    (∃ (x : Nat), fp32.decode x = .inf false) ∧
    (∃ (x : Nat), fp32.decode x = .inf true) ∧
    (∃ (x : BitVec 307) (y : BitVec 307), -(2 ^ 303 : Int) ≤ toSigned 304 (x.toNat % 2 ^ 304) + toSigned 304 (y.toNat
      % 2 ^ 304) ∧ toSigned 304 (x.toNat % 2 ^ 304) + toSigned 304 (y.toNat % 2 ^ 304) < 2 ^ 303) ∧
    (∃ (x : BitVec 307) (y : BitVec 307) (k : Nat), -(2 ^ 303 : Int) ≤ toSigned 304 (x.toNat % 2 ^ 304) + toSigned 304
      (y.toNat % 2 ^ 304) ∧ toSigned 304 (x.toNat % 2 ^ 304) + toSigned 304 (y.toNat % 2 ^ 304) < 2 ^ 303 ∧ 304 ≤ k ∧
      k < 307) ∧
    (∃ (x : BitVec 307) (y : BitVec 307) (k : Nat), -(2 ^ 303 : Int) ≤ toSigned 304 (x.toNat % 2 ^ 304) + toSigned 304
      (y.toNat % 2 ^ 304) ∧ toSigned 304 (x.toNat % 2 ^ 304) + toSigned 304 (y.toNat % 2 ^ 304) < 2 ^ 303 ∧ 304 ≤ k ∧
      k < 307) :=
  ⟨⟨0x3F800001, 0x800001, false, -23, by decide +kernel⟩,
   ⟨0x80000001, 1, true, -149, by decide +kernel⟩,
   ⟨0x7F800001, by decide +kernel⟩,
   ⟨0x7F800000, by decide +kernel⟩,
   ⟨0xFF800000, by decide +kernel⟩,
   ⟨5, BitVec.ofNat 307 (2^304 - 9), by decide +kernel⟩,
   ⟨5, BitVec.ofNat 307 (2 ^ 304 - 9), 306, by decide +kernel⟩,
   ⟨5, BitVec.ofNat 307 (2 ^ 304 - 9), 304, by decide +kernel⟩⟩

theorem witness_SealedMoverCommands :
    (∃ (s : State) (d : Nat) (m : Nat) (pc : Nat) (src : Source) (x : Mover), d < dieCount s.orderCode ∧ m < 32 ∧ pc <
      128 ∧ findMover s d m = some x ∧ partSealed s x.part = true ∧ src ≠ .warden) ∧
    (∃ (s : State) (d : Nat) (m : Nat) (pc : Nat) (src : Source) (x : Mover), d < dieCount s.orderCode ∧ m < 32 ∧ pc <
      128 ∧ findMover s d m = some x ∧ partSealed s x.part = true ∧ src ≠ .warden) ∧
    (∃ (s : State) (d : Nat) (m : Nat) (pc : Nat) (x : Mover), d < dieCount s.orderCode ∧ m < 32 ∧ pc < 128 ∧
      findMover s d m = some x ∧ partSealed s x.part = true ∧ x.state = .halted) ∧
    (∃ (s : State) (d : Nat) (m : Nat) (pc : Nat) (x : Mover), d < dieCount s.orderCode ∧ m < 32 ∧ pc < 128 ∧
      findMover s d m = some x ∧ partSealed s x.part = true ∧ x.state = .halted) :=
  ⟨⟨sets [(0, Reg.PART_HALF_SEALED 0, 1)] halted, 0, 3, 20, .dc,
     { mover mregs0 with state := .halted, changed := true }, by decide +kernel⟩,
   ⟨sets [(0, Reg.PART_HALF_SEALED 0, 1)] halted, 0, 3, 20, .dc,
     { mover mregs0 with state := .halted, changed := true }, by decide +kernel⟩,
   ⟨sets [(0, Reg.PART_HALF_SEALED 0, 1)] halted, 0, 3, 127, { mover mregs0 with state := .halted, changed := true },
     by decide +kernel⟩,
   ⟨sets [(0, Reg.PART_HALF_SEALED 0, 1)] halted, 0, 3, 127, { mover mregs0 with state := .halted, changed := true },
     by decide +kernel⟩⟩

theorem witness_HeadroomInForce :
    (∃ (s : State) (d : Nat), (∃ i, s.rdBit d Reg.MON_IOVER i = true ∨ s.rdBit d Reg.MON_FAIL_RAILS i = true)) ∧
    (∃ (s : State) (d : Nat), (∀ i, s.rdBit d Reg.MON_IOVER i = false ∧ s.rdBit d Reg.MON_FAIL_RAILS i = false) ∧ (∃
      i, s.rdBit d Reg.MON_TWARM i = true ∨ s.rdBit d Reg.MON_FAIL_POINTS i = true)) ∧
    (∃ (s : State) (d : Nat), (∀ i, s.rdBit d Reg.MON_IOVER i = false ∧ s.rdBit d Reg.MON_FAIL_RAILS i = false) ∧ (∀
      i, s.rdBit d Reg.MON_TWARM i = false ∧ s.rdBit d Reg.MON_FAIL_POINTS i = false)) ∧
    (∃ (s : State) (d : Nat), d < dieCount s.orderCode ∧ dieUp s d = true ∧ govCap s d < 2 ^ 39) :=
  ⟨⟨sets [(0, Reg.MON_IOVER, 128)] live, 0, 7, by decide +kernel⟩,
   ⟨sets [(0, Reg.MON_TWARM, 32), (0, Reg.GOV_CTRL_HEAD_WARM, 99)] live, 0, fun i => ⟨rdBit_of_zero
     (by decide +kernel) i, rdBit_of_zero (by decide +kernel) i⟩, 5, by decide +kernel⟩,
   ⟨live, 0, fun i => ⟨rdBit_of_zero (by decide +kernel) i, rdBit_of_zero (by decide +kernel) i⟩, fun i =>
     ⟨rdBit_of_zero (by decide +kernel) i, rdBit_of_zero (by decide +kernel) i⟩⟩,
   ⟨sets [(0, Reg.GOV_CTRL_CAP_MS, 10), (0, Reg.GOV_LIMITS_POWER_W, 1000)] live, 0, by decide +kernel⟩⟩

theorem witness_ToashSPorts :
    ∃ (k : Nat), k < 3 :=
  ⟨2, by decide +kernel⟩

theorem witness_MoverJumps :
    (∃ (s : State) (d : Nat) (m : Nat) (w : Nat) (n : Nat) (x : Mover), AtWord s d m 8 x w ∧ bits (mvImm w) 17 16 ≠ 1
      ∧ n < 128 ∧ (x.pc : Int) + toSigned 16 (mvImm w % 2 ^ 16) = n) ∧
    (∃ (s : State) (d : Nat) (m : Nat) (w : Nat) (n : Nat) (x : Mover), AtWord s d m 8 x w ∧ bits (mvImm w) 17 16 ≠ 1
      ∧ n < 128 ∧ (x.pc : Int) + toSigned 16 (mvImm w % 2 ^ 16) = n) ∧
    (∃ (s : State) (d : Nat) (m : Nat) (w : Nat) (n : Nat) (x : Mover), AtWord s d m 8 x w ∧ bits (mvImm w) 17 16 = 1
      ∧ n < 128 ∧ (x.pc : Int) + toSigned 16 (mvImm w % 2 ^ 16) = n) ∧
    (∃ (s : State) (d : Nat) (m : Nat) (w : Nat) (n : Nat) (x : Mover), AtWord s d m 8 x w ∧ bits (mvImm w) 17 16 = 1
      ∧ n < 128 ∧ (x.pc : Int) + toSigned 16 (mvImm w % 2 ^ 16) = n) ∧
    (∃ (s : State) (d : Nat) (m : Nat) (w : Nat) (x : Mover), AtWord s d m 8 x w ∧ bits (mvImm w) 17 16 = 0 ∧ ((x.pc :
      Int) + toSigned 16 (mvImm w % 2 ^ 16) < 0 ∨ 127 < (x.pc : Int) + toSigned 16 (mvImm w % 2 ^ 16)) ∧
      s.prt.faulted.contains x.part = false) ∧
    (∃ (s : State) (d : Nat) (m : Nat) (w : Nat) (x : Mover), AtWord s d m 8 x w ∧ bits (mvImm w) 17 16 = 0 ∧ ((x.pc :
      Int) + toSigned 16 (mvImm w % 2 ^ 16) < 0 ∨ 127 < (x.pc : Int) + toSigned 16 (mvImm w % 2 ^ 16)) ∧
      s.prt.faulted.contains x.part = false) ∧
    (∃ (w : Nat), mvOp w = 8 ∧ bits (mvImm w) 31 18 ≠ 0) :=
  ⟨⟨moverAt (mword 8 3 0 0 0 0xFFFE) (mover mregs0) live, 0, 3, mword 8 3 0 0 0 0xFFFE, 8, mover mregs0,
     by decide +kernel⟩,
   ⟨moverAt (mword 8 5 0 0 0 0x20005) (mover mregs0) live, 0, 3, mword 8 5 0 0 0 0x20005, 15, mover mregs0,
     by decide +kernel⟩,
   ⟨moverAt (mword 8 4 0 0 0 0x1FFFE) (mover mregs0) live, 0, 3, mword 8 4 0 0 0 0x1FFFE, 8, mover mregs0,
     by decide +kernel⟩,
   ⟨moverAt (mword 8 5 0 0 0 0x1FFFE) (mover mregs0) live, 0, 3, mword 8 5 0 0 0 0x1FFFE, 8, mover mregs0,
     by decide +kernel⟩,
   ⟨moverAt (mword 8 5 0 0 0 0xFF00) (mover mregs0) live, 0, 3, mword 8 5 0 0 0 0xFF00, mover mregs0,
     by decide +kernel⟩,
   ⟨moverAt (mword 8 5 0 0 0 118) (mover mregs0) live, 0, 3, mword 8 5 0 0 0 118, mover mregs0, by decide +kernel⟩,
   ⟨mword 8 0 0 0 0 0x40000, by decide +kernel⟩⟩

theorem witness_GovernorAndBuckets :
    (∃ (s : State) (d : Nat), d < dieCount s.orderCode ∧ dieUp s d = true ∧ govCap s d < 2 ^ 39) ∧
    (∃ (s : State) (d : Nat), d < dieCount s.orderCode ∧ dieUp s d = true ∧ govCap s d < 2 ^ 39) ∧
    (∃ (s : State) (d : Nat), d < dieCount s.orderCode ∧ s.boot.tripWait.contains d = true ∧ belowRestart s d = true) ∧
    (∃ (s : State) (d : Nat) (c : Nat), d < dieCount s.orderCode ∧ look d s.que.clkTo = some c ∧ c < 4) ∧
    (∃ (s : State) (d : Nat) (c : Nat), d < dieCount s.orderCode ∧ look d s.que.clkTo = some c ∧ c < 4) ∧
    (∃ (s : State) (d : Nat) (n : Nat) (p : Nat) (i : Nat) (sectors : Nat) (remote : Nat), d < dieCount s.orderCode ∧
      n < 64 ∧ quePart s (d * 64 + n) = p ∧ queInst s (d * 64 + n) = i ∧ instSlot s d p i < 64 ∧ bucketRate s p i 2 ≠
      0 ∧ bucketRate s p i 3 ≠ 0 ∧ (∀ k, k ≠ 2 * (d * 64 + n) → k ≠ 2 * (d * 64 + n) + 1 → SMap.get 0 s.que.sectors k
      = 0) ∧ (sectors, remote) = countedOf s d (instSlot s d p i)) ∧
    (∃ (s : State) (d : Nat) (i : Nat) (code : BitVec 8), d < dieCount s.orderCode ∧ clocked s d = true ∧ 352 ≤ i ∧ i
      < 360 ∧ (monHist s d i).failed = false ∧ s.rd d (Reg.MON_CFG_N i) < 2 ∧ s.rd d (Reg.MON_CFG_HIGH i) < code.toNat
      ∧ s.rd d (Reg.MON_CFG_LOW i) ≤ code.toNat ∧ failedPoints s d < 16) ∧
    (∃ (s : State) (d : Nat) (p : Nat) (i : Nat) (k : Nat), d < dieCount s.orderCode ∧ dieUp s d = true ∧
      s.que.deferredPi = [] ∧ ((bucketInsts s d).map (fun x => instSlot s d x.1 x.2)).Nodup ∧ (p, i) ∈ bucketInsts s d
      ∧ k < 5 ∧ bucketRate s p i k ≠ 0) :=
  ⟨⟨bucket, 0, by decide +kernel⟩,
   ⟨sets [(0, Reg.GOV_BUCKET, 9999900)] bucket, 0, by decide +kernel⟩,
   ⟨{ up with boot := { up.boot with tripWait := [1] } }, 1, by decide +kernel⟩,
   ⟨{ up with que := { up.que with clkTo := [(0, 3)] } }, 0, 3, by decide +kernel⟩,
   ⟨sets [(0, Reg.CLK_STATUS_PENDING, 3)] { up with que := { up.que with clkTo := [(0, 3)] } }, 0, 3,
     by decide +kernel⟩,
   ⟨counting, 0, 3, 5, 0, 4, 1, by decide +kernel, by decide +kernel, by decide +kernel, by decide +kernel,
     by decide +kernel, by decide +kernel, by decide +kernel, counting_sectors, by decide +kernel⟩,
   ⟨sets [(0, Reg.MON_CFG_HIGH 359, 200), (0, Reg.MON_CFG_N 359, 1)] up, 0, 359, 201, by decide +kernel⟩,
   ⟨live, 0, 5, 0, 4, by decide +kernel⟩⟩

theorem witness_Doorbells :
    (∃ (s : State) (port : Nat) (fn : Nat) (window : Nat) (p : Nat) (i : Nat) (q : Nat) (pasid : Option (BitVec 20))
      (v : Word), portDie port < dieCount s.orderCode ∧ dieUp s (portDie port) = true ∧ attachOf s port = 2 ∧
      requesterInst s port fn pasid = some (p, i) ∧ (windowsOf s p i)[window]? = some q ∧ s.boot.inReset.contains
      (queDie q) = false ∧ queNamed s q = true ∧ queEnabled s q = true ∧ instState s (queDie q) (quePart s q) (queInst
      s q) = 2 ∧ (queKind s q ≠ 3 → quePi s q < v.toNat ∧ v.toNat ≤ queCi s q + ringEntries s q) ∧ (queKind s q = 3 →
      queCi s q < v.toNat ∧ v.toNat ≤ quePi s q)) ∧
    (∃ (s : State) (port : Nat) (fn : Nat) (window : Nat) (p : Nat) (i : Nat) (q : Nat) (pasid : Option (BitVec 20))
      (v : Word), portDie port < dieCount s.orderCode ∧ dieUp s (portDie port) = true ∧ attachOf s port = 2 ∧
      requesterInst s port fn pasid = some (p, i) ∧ (windowsOf s p i)[window]? = some q ∧ s.boot.inReset.contains
      (queDie q) = false ∧ queNamed s q = true ∧ queEnabled s q = true ∧ instState s (queDie q) (quePart s q) (queInst
      s q) = 2 ∧ (queKind s q ≠ 3 → quePi s q < v.toNat ∧ v.toNat ≤ queCi s q + ringEntries s q) ∧ (queKind s q = 3 →
      queCi s q < v.toNat ∧ v.toNat ≤ quePi s q)) ∧
    (∃ (s : State) (port : Nat) (fn : Nat) (window : Nat) (p : Nat) (i : Nat) (q : Nat) (pasid : Option (BitVec 20))
      (v : Word), portDie port < dieCount s.orderCode ∧ dieUp s (portDie port) = true ∧ attachOf s port = 2 ∧
      requesterInst s port fn pasid = some (p, i) ∧ (windowsOf s p i)[window]? = some q ∧ s.boot.inReset.contains
      (queDie q) = false ∧ queNamed s q = true ∧ queEnabled s q = true ∧ instState s (queDie q) (quePart s q) (queInst
      s q) = 2 ∧ (queKind s q ≠ 3 → v.toNat < quePi s q ∨ queCi s q + ringEntries s q < v.toNat ∧ quePi s q ≠ v.toNat)
      ∧ (queKind s q = 3 → v.toNat < queCi s q ∨ quePi s q < v.toNat ∧ queCi s q ≠ v.toNat)) ∧
    (∃ (s : State) (port : Nat) (fn : Nat) (window : Nat) (p : Nat) (i : Nat) (q : Nat) (pasid : Option (BitVec 20))
      (v : Word), portDie port < dieCount s.orderCode ∧ dieUp s (portDie port) = true ∧ attachOf s port = 2 ∧
      requesterInst s port fn pasid = some (p, i) ∧ (windowsOf s p i)[window]? = some q ∧ s.boot.inReset.contains
      (queDie q) = false ∧ queNamed s q = true ∧ queEnabled s q = true ∧ instState s (queDie q) (quePart s q) (queInst
      s q) = 2 ∧ (queKind s q ≠ 3 → v.toNat < quePi s q ∨ queCi s q + ringEntries s q < v.toNat ∧ quePi s q ≠ v.toNat)
      ∧ (queKind s q = 3 → v.toNat < queCi s q ∨ quePi s q < v.toNat ∧ queCi s q ≠ v.toNat)) :=
  ⟨⟨queue 3 0 1 2 0 live, 0, 1, 0, 5, 0, 3, none, 16, by decide +kernel⟩,
   ⟨queue 3 3 1 2 0 live, 0, 1, 0, 5, 0, 3, none, 2, by decide +kernel⟩,
   ⟨queue 3 0 1 2 0 live, 0, 1, 0, 5, 0, 3, none, 17, by decide +kernel⟩,
   ⟨queue 3 0 1 2 0 live, 0, 1, 0, 5, 0, 3, none, 1, by decide +kernel⟩⟩

theorem witness_QueueControl :
    (∃ (s : State) (d : Nat) (n : Nat) (src : Source), d < dieCount s.orderCode ∧ n < 64 ∧ queNamed s (d * 64 + n) =
      true ∧ wardenOk s (quePart s (d * 64 + n)) src = true ∧ queEnabled s (d * 64 + n) = false) ∧
    (∃ (s : State) (d : Nat) (n : Nat) (src : Source), d < dieCount s.orderCode ∧ n < 64 ∧ queNamed s (d * 64 + n) =
      true ∧ wardenOk s (quePart s (d * 64 + n)) src = true ∧ queEnabled s (d * 64 + n) = false) ∧
    (∃ (s : State) (d : Nat) (n : Nat) (src : Source), d < dieCount s.orderCode ∧ n < 64 ∧ queNamed s (d * 64 + n) =
      true ∧ wardenOk s (quePart s (d * 64 + n)) src = true ∧ s.rd d (Reg.QUE_CTRL_ENABLE n) = 0 ∧ s.rd d
      (Reg.QUE_CTRL_SERIAL n) < 2 ∧ queLog2 s (d * 64 + n) < 32 ∧ s.rd d (Reg.QUE_CTRL_VECTOR n) < 64) :=
  ⟨⟨sets [(0, Reg.QUE_CTRL_ENABLE 3, 0)] (queue 3 0 1 2 0 live), 0, 3, .dc, by decide +kernel⟩,
   ⟨sets [(0, Reg.QUE_CTRL_ENABLE 3, 0)] (queue 3 0 1 2 0 live), 0, 3, .dc, by decide +kernel⟩,
   ⟨sets [(0, Reg.QUE_CTRL_ENABLE 3, 0)] (queue 3 0 1 2 0 live), 0, 3, .dc, by decide +kernel⟩⟩

theorem witness_GrantsAndExchanges :
    (∃ (s : State) (d : Nat) (h : Head), d < dieCount s.orderCode ∧ dieUp s d = true ∧ nextUrgent d s h ∧ queKind
      (grantedAt d s h) h.q = 2 ∧ leAt h.bytes 0 1 = 2 ∧ leAt h.bytes 3 1 ≠ 0 ∧ leAt h.bytes 3 1 < 12) ∧
    (∃ (s : State) (d : Nat) (h : Head), d < dieCount s.orderCode ∧ dieUp s d = true ∧ nextUrgent d s h ∧ queKind
      (grantedAt d s h) h.q = 0 ∧ h.seq = none ∧ h.killed (grantedAt d s h) = false ∧ launchValid (grantedAt d s h) h
      = true) ∧
    (∃ (s : State) (d : Nat) (h : Head) (m : Nat), d < dieCount s.orderCode ∧ dieUp s d = true ∧ nextUrgent d s h ∧
      queKind (grantedAt d s h) h.q = 1 ∧ h.killed (grantedAt d s h) = false ∧ leAt h.bytes 0 1 = 1 ∧ moveFields h =
      true ∧ h.flags.testBit 4 = false ∧ (grantedAt d s h).rd (queDie h.q) (Reg.MOV_SLOT_OWNED (leAt h.bytes 3 1)) ≠ 0
      ∧ (grantedAt d s h).rd (queDie h.q) (Reg.MOV_SLOT_PART (leAt h.bytes 3 1)) = quePart (grantedAt d s h) h.q ∧
      (grantedAt d s h).rd (queDie h.q) (Reg.MOV_SLOT_INST (leAt h.bytes 3 1)) = queInst (grantedAt d s h) h.q ∧
      freeMover (grantedAt d s h) (queDie h.q) (quePart (grantedAt d s h) h.q) = some m) ∧
    (∃ (s : State) (u : State) (q : Nat) (index : Word) (x : Exchange) (h : Head) (ids : List Nat), queDie q <
      dieCount s.orderCode ∧ s.que.exchanges.find? (fun x => Nat.beq x.queue q && x.index == index) = some x ∧ u = { s
      with que := { s.que with exchanges := s.que.exchanges.erase x } } ∧ (readHead q u).1 = .ok h ∧ queRuns u q =
      true ∧ h.index = index ∧ queKind u q = 0 ∧ h.killed u = false ∧ launchCheck u (quePart u q) (queInst u q)
      (h.seq.getD 0) h.step = .ok ids ∧ passesGate u h = false) :=
  ⟨⟨headAt 2 closeItem, 0, head closeItem, by decide +kernel⟩,
   ⟨headAt 0 launchItem, 0, head launchItem, by decide +kernel⟩,
   ⟨headAt 1 moveItem, 0, head moveItem, 0, by decide +kernel⟩,
   ⟨exchange, noExchange, 3, 0, ⟨3, 0, 5, []⟩, head exchangeItem, [0x102], by decide +kernel⟩⟩

theorem witness_ChargesAndHold :
    (∃ (s : State) (h : Head) (e : Nat), e < 2 ^ 38 ∧ -(2 ^ 38 : Int) < govB s (queDie h.q) ∧ govB s (queDie h.q) < 2
      ^ 39 ∧ queClass s h.q ≠ 0) ∧
    (∃ (s : State) (h : Head) (e : Nat), e < 2 ^ 38 ∧ -(2 ^ 38 : Int) < govB s (queDie h.q) ∧ govB s (queDie h.q) < 2
      ^ 39 ∧ queClass s h.q = 0 ∧ uFloor s (queDie h.q) ≤ govB s (queDie h.q)) ∧
    (∃ (s : State) (h : Head) (e : Nat), e < 2 ^ 38 ∧ -(2 ^ 38 : Int) < govB s (queDie h.q) ∧ govB s (queDie h.q) < 2
      ^ 39 ∧ queClass s h.q = 0 ∧ govB s (queDie h.q) < uFloor s (queDie h.q)) ∧
    (∃ (s : State) (h : Head) (e : Nat), e < 2 ^ 38 ∧ -(2 ^ 38 : Int) < govB s (queDie h.q) ∧ govB s (queDie h.q) < 2
      ^ 39) ∧
    (∃ (s : State) (h : Head) (e : Nat), e < 2 ^ 38 ∧ -(2 ^ 38 : Int) < govB s (queDie h.q) ∧ govB s (queDie h.q) < 2
      ^ 39) ∧
    (∃ (s : State) (d : Nat) (n : Nat) (w : Nat) (h : Head), d < dieCount s.orderCode ∧ dieUp s d = true ∧ (arbOf
      (pruneArb d s) d).held = none ∧ (n, w) ∈ (arbOf (pruneArb d s) d).refused ∧ WaitedOut s d (n, w) ∧ (∀ x ∈ (arbOf
      (pruneArb d s) d).refused, WaitedOut s d x → x = (n, w) ∨ w < x.2) ∧ (readHead (d * 64 + n) (pruneArb d s)).1 =
      .ok h) ∧
    (∃ (s : State) (d : Nat), d < dieCount s.orderCode ∧ dieUp s d = true ∧ (arbOf (pruneArb d s) d).held = none ∧ (∀
      x ∈ (arbOf (pruneArb d s) d).refused, ¬WaitedOut s d x)) ∧
    (∃ (s : State) (d : Nat) (n : Nat), d < dieCount s.orderCode ∧ dieUp s d = true ∧ (arbOf (pruneArb d s) d).held =
      some n) :=
  ⟨⟨queue 3 0 2 1 0 bucket, head launchItem, 100, by decide +kernel⟩,
   ⟨queue 3 0 0 1 0 bucket, head launchItem, 100, by decide +kernel⟩,
   ⟨sets [(0, Reg.GOV_BUCKET, ofSigned 40 (-3000)), (0, Reg.GOV_LIMITS_U_FLOOR, ofSigned 32 (-2000))] (queue 3 0 0 1 0
     bucket), head launchItem, 100, by decide +kernel⟩,
   ⟨queue 3 0 0 1 0 bucket, head launchItem, 100, by decide +kernel⟩,
   ⟨queue 3 0 2 1 0 bucket, head launchItem, 100, by decide +kernel⟩,
   ⟨refused, 0, 3, 2000, head launchItem, by decide +kernel⟩,
   ⟨sets [(0, Reg.DC_RTIME, 6999)] refused, 0, by decide +kernel⟩,
   ⟨{ refused with que := { refused.que with arbs := [{ (arbOf refused 0) with held := some 3 }] } }, 0, 3,
     by decide +kernel⟩⟩

theorem witness_SequenceLifetime :
    (∃ (s : State) (it : SeqItem), EngineTakes s 1 it ∧ dieIn s (quePart s it.queue) (seqDie it.seq) = true ∧ findSeq
      s it.seq = none ∧ it.arg0.toNat ≤ 16777216 ∧ it.addr.toNat % 0x8000 = 0 ∧ it.addr.toNat < 2 ^ 48) ∧
    (∃ (s : State) (it : SeqItem) (x : SeqSlot), EngineTakes s 2 it ∧ OwnSlot s it x ∧ x.recs = [] ∧ heldOn s it.seq =
      false ∧ shifting s it.seq = false) ∧
    (∃ (s : State) (it : SeqItem) (x : SeqSlot), EngineTakes s 5 it ∧ OwnSlot s it x ∧ x.recs = [] ∧ shifting s it.seq
      = false ∧ it.arg0.toNat ≤ x.len) ∧
    (∃ (s : State) (it : SeqItem) (x : SeqSlot), EngineTakes s 6 it ∧ OwnSlot s it x ∧ x.recs = [] ∧ shifting s it.seq
      = false ∧ it.addr.toNat % 0x8000 = 0 ∧ it.addr.toNat < 2 ^ 48) :=
  ⟨⟨engine 1 { seqItem with addr := 0x8000, arg0 := 16777216, arg1 := 0x301 } [],
     { seqItem with addr := 0x8000, arg0 := 16777216, arg1 := 0x301 }, by decide +kernel⟩,
   ⟨engine 2 seqItem [seqSlot], seqItem, seqSlot, by decide +kernel⟩,
   ⟨engine 5 { seqItem with arg0 := 100 } [seqSlot], { seqItem with arg0 := 100 }, seqSlot, by decide +kernel⟩,
   ⟨engine 6 { seqItem with addr := 0x10000, arg1 := 0x500 } [seqSlot],
     { seqItem with addr := 0x10000, arg1 := 0x500 }, seqSlot, by decide +kernel⟩⟩

theorem witness_StepsOpenCloseRetire :
    (∃ (s : State) (it : SeqItem) (x : SeqSlot), EngineTakes s 3 it ∧ OwnSlot s it x ∧ it.step = x.step + 1 ∧
      x.recs.length < stepDepth s x.part ∧ newestEnd x + openTokens it x ≤ 16777216) ∧
    (∃ (s : State) (it : SeqItem) (x : SeqSlot) (r : StepRec), EngineTakes s 4 it ∧ OwnSlot s it x ∧ x.recs.getLast? =
      some r ∧ r.step = it.step ∧ r.closed = false) ∧
    (∃ (s : State) (id : Nat) (x : SeqSlot) (r : StepRec) (l : List StepRec), seqDie id < dieCount s.orderCode ∧
      engineUp s (seqDie id) = true ∧ findSeq s id = some x ∧ x.recs = r :: l ∧ r.closed = true ∧ r.lcnt = 0 ∧ r.owc =
      0 ∧ s.que.closing = []) :=
  ⟨⟨engine 3 { seqItem with step := 5, arg0 := 7 } [{ seqSlot with recs := [openStep] }],
     { seqItem with step := 5, arg0 := 7 }, { seqSlot with recs := [openStep] }, by decide +kernel⟩,
   ⟨engine 4 { seqItem with step := 4 } [{ seqSlot with recs := [openStep] }], { seqItem with step := 4 },
     { seqSlot with recs := [openStep] }, openStep, by decide +kernel⟩,
   ⟨engine 0 seqItem [{ seqSlot with recs := [{ openStep with closed := true }] }], 2, { seqSlot with recs :=
     [{ openStep with closed := true }] }, { openStep with closed := true }, [], by decide +kernel⟩⟩

theorem witness_SequenceChains :
    (∃ (s : State) (it : SeqItem) (x : SeqSlot) (y : SeqSlot), EngineTakes s 8 it ∧ OwnSlot s it x ∧ findSeq s (seqDie
      it.seq * 256 + it.arg0.toNat % 256) = some y ∧ y.id ≠ it.seq ∧ y.part = x.part ∧ y.inst = x.inst ∧ x.chain =
      none ∧ (y.chain = none ∨ y.chain = some y.id)) ∧
    (∃ (s : State) (it : SeqItem) (x : SeqSlot), EngineTakes s 9 it ∧ OwnSlot s it x ∧ x.chain.isSome = true) ∧
    (∃ (s : State) (it : SeqItem) (x : SeqSlot), EngineTakes s 7 it ∧ OwnSlot s it x) ∧
    (∃ (s : State) (it : SeqItem), queDie it.queue < dieCount s.orderCode ∧ s.que.items.contains (11, it) = true ∧
      engineUp s (queDie it.queue) = true ∧ it.reservedSet = false) :=
  ⟨⟨engine 8 { seqItem with arg0 := 3 } [seqSlot, { seqSlot with id := 3 }], { seqItem with arg0 := 3 }, seqSlot,
     { seqSlot with id := 3 }, by decide +kernel⟩,
   ⟨engine 9 seqItem [{ seqSlot with chain := some 3 }], seqItem, { seqSlot with chain := some 3 }, by decide +kernel⟩,
   ⟨{ engine 7 { seqItem with arg0 := 4, arg1 := 2 } [seqSlot] with que := { (engine 7
     { seqItem with arg0 := 4, arg1 := 2 } [seqSlot]).que with btCopies := [⟨0, 0, 2, 3, 0, 0, 0⟩, ⟨0, 0, 2, 4, 0, 0,
     0⟩, ⟨0, 0, 2, 5, 0, 0, 0⟩, ⟨0, 0, 2, 6, 0, 0, 0⟩, ⟨0, 0, 3, 5, 0, 0, 0⟩] } },
     { seqItem with arg0 := 4, arg1 := 2 }, seqSlot, by decide +kernel⟩,
   ⟨{ engine 11 seqItem [] with core := { live.core with killed := [(5, 0, 0), (5, 0, 1)] } }, seqItem,
     by decide +kernel⟩⟩

theorem witness_QueriesEntriesAndEngineFailure :
    (∃ (s : State) (s' : State) (s'' : State) (it : SeqItem) (x : SeqSlot) (pa : Nat), EngineTakes s 10 it ∧ OwnSlot s
      it x ∧ it.addr.toNat % 128 = 0 ∧ translate (queXby s it.queue it.ctx) it.addr.toNat .store s = some (.pa pa, s')
      ∧ accPut (queBy s' it.queue) 6 pa (seqBytes s x) s' = some (true, s'')) ∧
    (∃ (s : State) (it : SeqItem) (x : SeqSlot), EngineTakes s 7 it ∧ OwnSlot s it x ∧ it.cqe = true ∧ it.irq = false
      ∧ quePi s (cqOf s it.queue) < 2 ^ 64 - 1) ∧
    (∃ (s : State) (d : Nat) (slot : Nat), d < dieCount s.orderCode ∧ slot < 256) ∧
    (∃ (s : State) (d : Nat) (slot : Nat), d < dieCount s.orderCode ∧ slot < 256) :=
  ⟨⟨q0, q1, q2, { seqItem with addr := 0x20000 }, seqSlot, 0x20000, by decide +kernel⟩,
   ⟨sets [(0, Reg.QUE_CFG_CQ 3, 4), (0, Reg.QUE_BASE 4, 32)] (engine 7 { seqItem with cqe := true } [seqSlot]),
     { seqItem with cqe := true }, seqSlot, by decide +kernel⟩,
   ⟨engine 7 seqItem [seqSlot], 0, 255, by decide +kernel⟩,
   ⟨engine 7 seqItem [seqSlot], 1, 0, by decide +kernel⟩⟩

theorem witness_DieAndWideResets :
    (∃ (s : State) (d : Nat), d < dieCount s.orderCode ∧ dieUp s d = true) ∧
    (∃ (s : State) (d : Nat), d < dieCount s.orderCode ∧ dieUp s d = true) ∧
    (∃ (s : State) (d : Nat), d < dieCount s.orderCode ∧ dieUp s d = true) ∧
    (∃ (s : State) (d : Nat), d < dieCount s.orderCode ∧ dieUp s d = true) ∧
    (∃ (s : State) (d : Nat) (inc : BitVec 16), d < dieCount s.orderCode ∧ dieUp s d = true ∧ s.rd d
      Reg.DC_INCARNATION = inc.toNat) ∧
    (∃ (s : State), s.rack.refclk = true) ∧
    (∃ (s : State) (m : Nat), 4 * m < dieCount s.orderCode ∧ s.rack.modEn.contains m = true) ∧
    (∃ (s : State), s.rack.rmUp = true) :=
  ⟨⟨sets [(0, Reg.DC_INCARNATION, 65535)] live, 0, by decide +kernel⟩,
   ⟨live, 0, by decide +kernel⟩,
   ⟨sets [(0, Reg.DC_INCARNATION, 65535)] live, 0, by decide +kernel⟩,
   ⟨live, 0, by decide +kernel⟩,
   ⟨sets [(1, Reg.DC_INCARNATION, 65535)] live, 1, 65535, by decide +kernel⟩,
   ⟨live, by decide +kernel⟩,
   ⟨live, 0, by decide +kernel⟩,
   ⟨live, by decide +kernel⟩⟩

theorem witness_PllFuseAndBootStages :
    (∃ (s : State) (d : Nat), d < dieCount s.orderCode ∧ locking s d = true) ∧
    (∃ (s : State) (d : Nat), d < dieCount s.orderCode ∧ locking s d = true ∧ s.rd d Reg.DC_RESET_CAUSE ≠ 4) ∧
    (∃ (s : State) (d : Nat), d < dieCount s.orderCode ∧ locking s d = true ∧ s.rd d Reg.DC_RESET_CAUSE ≠ 4) ∧
    (∃ (s : State) (d : Nat) (f : FuseData), d < dieCount s.orderCode ∧ atStage s d 1 = true ∧ f.crcOk = true ∧
      f.grade = (gradeOf s.orderCode).1 ∧ popCount 160 f.mapW.toNat = (gradeOf s.orderCode).2 ∧ popCount 160
      f.mapE.toNat = (gradeOf s.orderCode).2 ∧ f.stepping < 32) ∧
    (∃ (s : State) (d : Nat) (f : FuseData), d < dieCount s.orderCode ∧ atStage s d 1 = true ∧ f.crcOk = false) ∧
    (∃ (s : State) (d : Nat) (k : Nat) (c : FlashCopy), d < dieCount s.orderCode ∧ atStage s d 2 = true ∧ firstCopy s
      d 0 (fun _ => true) = some (k, c)) ∧
    (∃ (s : State) (d : Nat), d < dieCount s.orderCode ∧ atStage s d 2 = true ∧ firstCopy s d 0 (fun _ => true) =
      none) :=
  ⟨⟨inReset, 0, by decide +kernel⟩,
   ⟨inReset, 0, by decide +kernel⟩,
   ⟨{ inReset with boot := { inReset.boot with pllTry := [(0, 3)] } }, 0, by decide +kernel⟩,
   ⟨stage 1, 0, fuses, by decide +kernel⟩,
   ⟨stage 1, 0, { fuses with crcOk := false }, by decide +kernel⟩,
   ⟨flash 0 1 (stage 2), 0, 1, copy, by decide +kernel⟩,
   ⟨stage 2, 0, by decide +kernel⟩⟩

theorem witness_TrainingToRollCall_1 :
    (∃ (s : State) (d : Nat) (failed : BitVec 24), d < dieCount s.orderCode ∧ atStage s d 3 = true ∧ popCount 24
      failed.toNat ≠ 24 ∧ s.rd d Reg.REC_FAIL_CHAN < 2 ^ 24) ∧
    (∃ (s : State) (d : Nat) (failed : BitVec 24), d < dieCount s.orderCode ∧ atStage s d 3 = true ∧ popCount 24
      failed.toNat ≠ 24 ∧ s.rd d Reg.REC_FAIL_CHAN < 2 ^ 24) ∧
    (∃ (s : State) (d : Nat), d < dieCount s.orderCode ∧ atStage s d 3 = true) ∧
    (∃ (s : State) (d : Nat) (k : Nat) (c : FlashCopy), d < dieCount s.orderCode ∧ atStage s d 4 = true ∧ firstCopy s
      d 1 (fun c => Nat.beq c.compat.major (compatOf s d 1).major) = some (k, c)) ∧
    (∃ (s : State) (d : Nat) (k : Nat) (c : FlashCopy), d < dieCount s.orderCode ∧ atStage s d 4 = true ∧ firstCopy s
      d 1 (fun c => Nat.beq c.compat.major (compatOf s d 1).major) = some (k, c)) ∧
    (∃ (s : State) (d : Nat) (k : Nat) (c : FlashCopy), d < dieCount s.orderCode ∧ atStage s d 5 = true ∧ firstCopy s
      d 2 (fun _ => true) = some (k, c)) ∧
    (∃ (s : State) (d : Nat), d < dieCount s.orderCode ∧ atStage s d 5 = true ∧ firstCopy s d 2 (fun _ => true) =
      none) ∧
    (∃ (s : State) (d : Nat) (late : Bool), d < dieCount s.orderCode ∧ atStage s d 6 = true ∧ ((∀ k, k < 3 → heard s d
      (siblingOf d k) = true) ∨ late = true ∧ s.boot.beaconed.contains d = true)) :=
  ⟨⟨stage 3, 0, 0x800001, by decide +kernel⟩,
   ⟨stage 3, 0, 0, by decide +kernel⟩,
   ⟨stage 3, 0, by decide +kernel⟩,
   ⟨sets [(0, Reg.DC_COMPAT_MAJOR 1, 3)] (flash 1 0 (stage 4)), 0, 0, copy, by decide +kernel⟩,
   ⟨sets [(0, Reg.DC_COMPAT_MAJOR 1, 3), (0, Reg.DC_COMPAT_MINOR 1, 9)] (flash 1 0 (stage 4)), 0, 0, copy,
     by decide +kernel⟩,
   ⟨flash 2 0 (stage 5), 0, 0, copy, by decide +kernel⟩,
   ⟨stage 5, 0, by decide +kernel⟩,
   ⟨roll [rollRow 0 1, rollRow 0 2, rollRow 0 3] (stage 6), 0, false, by decide +kernel⟩⟩

theorem witness_TrainingToRollCall_2 :
    (∃ (s : State) (d : Nat) (late : Bool), d < dieCount s.orderCode ∧ atStage s d 6 = true ∧ ((∀ k, k < 3 → heard s d
      (siblingOf d k) = true) ∨ late = true ∧ s.boot.beaconed.contains d = true)) ∧
    (∃ (s : State) (d : Nat), d < dieCount s.orderCode ∧ atStage s d 7 = true ∧ s.rd d Reg.DC_RTIME_STATUS_ALIGNED = 0
      ∧ overLink s d = true ∧ mastersHeard s d = [] ∧ (∀ r ∈ s.boot.roll, r.observer = d → d ≤ r.die) ∧
      s.boot.censusOpen = true) ∧
    (∃ (s : State) (d : Nat), d < dieCount s.orderCode ∧ dieUp s d = true ∧ s.rd d Reg.DC_BOOT_STATUS_ERROR = 0 ∧ s.rd
      d Reg.DC_BOOT_STATUS_STAGE < 8) ∧
    (∃ (s : State) (d : Nat), d < dieCount s.orderCode ∧ dieUp s d = true ∧ s.rd d Reg.DC_BOOT_STATUS_ERROR = 0 ∧ s.rd
      d Reg.DC_BOOT_STATUS_STAGE < 8) :=
  ⟨⟨{ roll [rollRow 0 2] (stage 6) with boot := { (roll [rollRow 0 2] (stage 6)).boot with beaconed := [0] } }, 0,
     true, by decide +kernel⟩,
   ⟨roll [{ rollRow 0 5 with overL := [4] }] { (sets [(0, Reg.MESH_TL_STATUS_UP 1, 1)] (stage 7)) with boot :=
     { (stage 7).boot with beaconedL := [1] } }, 0, by decide +kernel⟩,
   ⟨stage 7, 0, by decide +kernel⟩,
   ⟨stage 4, 0, by decide +kernel⟩⟩

theorem witness_BeaconsAndNotices :
    (∃ (s : State) (d : Nat), d < dieCount s.orderCode ∧ dieUp s d = true ∧ 6 ≤ s.rd d Reg.DC_BOOT_STATUS_STAGE) ∧
    (∃ (s : State) (o : Nat) (bytes : List Byte) (b : BeaconMsg), o < 64 ∧ dieUp s o = true ∧ parseBeacon bytes = some
      b ∧ b.kind = 0 ∧ b.agent < dieCount s.orderCode ∧ look b.agent s.boot.dead = none ∧ s.rd o
      Reg.DC_RTIME_STATUS_MASTER = 0) ∧
    (∃ (s : State) (o : Nat) (bytes : List Byte), o < 64 ∧ dieUp s o = true ∧ parseBeacon bytes = none) ∧
    (∃ (s : State) (o : Nat) (d : Nat) (r : RollRow), o < 64 ∧ dieUp s o = true ∧ s.boot.roll.find? (fun r => Nat.beq
      r.observer o && Nat.beq r.die d) = some r) ∧
    (∃ (s : State) (o : Nat) (d : Nat) (r : RollRow), o < 64 ∧ dieUp s o = true ∧ s.boot.roll.find? (fun r => Nat.beq
      r.observer o && Nat.beq r.die d) = some r) ∧
    (∃ (s : State) (a : Nat) (d : Nat), d < dieCount s.orderCode ∧ a < 64 ∧ a ≠ d ∧ dieUp s a = true ∧
      s.boot.notices.contains (a, d) = false ∧ (∀ r ∈ s.boot.roll, r.observer = a → r.die ≠ d) ∧ (look d
      s.boot.dead).isSome = true) :=
  ⟨⟨sets [(0, Reg.MESH_TS_STATUS_UP 0, 1), (0, Reg.MESH_TL_STATUS_UP 1, 1)] (stage 6), 0, by decide +kernel⟩,
   ⟨stage 6, 0, beacon.bytes, beacon, by decide +kernel⟩,
   ⟨stage 6, 0, beacon.bytes.dropLast, by decide +kernel⟩,
   ⟨roll [{ rollRow 0 1 with missed := 1 }] (stage 8), 0, 1, { rollRow 0 1 with missed := 1 }, by decide +kernel⟩,
   ⟨roll [{ rollRow 0 1 with missed := 2 }] (stage 8), 0, 1, { rollRow 0 1 with missed := 2 }, by decide +kernel⟩,
   ⟨{ stage 8 with boot := { up.boot with dead := [(1, 7)] } }, 0, 1, by decide +kernel⟩⟩

theorem witness_TimeCensusAndPairing_1 :
    (∃ (s : State) (d : Nat) (m : Nat), AlignsTo s d m ∧ (keptExch s d).length < 15) ∧
    (∃ (s : State) (d : Nat) (m : Nat) (t1 : Word) (t2 : Word) (t3 : Word) (t4 : Word) (x : Exch), AlignsTo s d m ∧
      (keptExch s d).length = 15 ∧ s.boot.stepped.contains d = false ∧ bestExch (keptExch s d ++ [⟨d, t1, t2, t3,
      t4⟩]) = some x) ∧
    (∃ (s : State) (d : Nat) (m : Nat), AlignsTo s d m ∧ (keptExch s d).length = 15 ∧ s.boot.stepped.contains d =
      true) ∧
    (∃ (s : State) (d : Nat) (m : Nat) (t1 : Word) (t2 : Word) (t3 : Word) (t4 : Word), AlignsTo s d m ∧ 16 ≤
      (keptExch s d).length ∧ -40 ≤ Exch.offset2 ⟨d, t1, t2, t3, t4⟩ ∧ Exch.offset2 ⟨d, t1, t2, t3, t4⟩ ≤ 40) ∧
    (∃ (s : State) (d : Nat) (m : Nat) (t1 : Word) (t2 : Word) (t3 : Word) (t4 : Word), AlignsTo s d m ∧ 16 ≤
      (keptExch s d).length ∧ -40 ≤ Exch.offset2 ⟨d, t1, t2, t3, t4⟩ ∧ Exch.offset2 ⟨d, t1, t2, t3, t4⟩ ≤ 40) ∧
    (∃ (s : State) (d : Nat) (m : Nat) (t1 : Word) (t2 : Word) (t3 : Word) (t4 : Word), AlignsTo s d m ∧ 16 ≤
      (keptExch s d).length ∧ -40 ≤ Exch.offset2 ⟨d, t1, t2, t3, t4⟩ ∧ Exch.offset2 ⟨d, t1, t2, t3, t4⟩ ≤ 40) ∧
    (∃ (s : State) (d : Nat) (m : Nat) (t1 : Word) (t2 : Word) (t3 : Word) (t4 : Word), AlignsTo s d m ∧ 16 ≤
      (keptExch s d).length ∧ (Exch.offset2 ⟨d, t1, t2, t3, t4⟩ < -40 ∨ 40 < Exch.offset2 ⟨d, t1, t2, t3, t4⟩)) ∧
    (∃ (s : State) (d : Nat) (m : Nat) (t1 : Word) (t2 : Word) (t3 : Word) (t4 : Word), AlignsTo s d m ∧ 16 ≤
      (keptExch s d).length ∧ (Exch.offset2 ⟨d, t1, t2, t3, t4⟩ < -40 ∨ 40 < Exch.offset2 ⟨d, t1, t2, t3, t4⟩)) :=
  ⟨⟨aligning 14, 0, 1, by decide +kernel⟩,
   ⟨aligning 15, 0, 1, 100, 150, 160, 205, ⟨0, 100, 150, 160, 205⟩, by decide +kernel⟩,
   ⟨{ aligning 15 with boot := { (aligning 15).boot with stepped := [0] } }, 0, 1, by decide +kernel⟩,
   ⟨aligning 16, 0, 1, 100, 150, 160, 210, by decide +kernel⟩,
   ⟨aligning 16, 0, 1, 100, 150, 160, 170, by decide +kernel⟩,
   ⟨aligning 16, 0, 1, 100, 150, 160, 250, by decide +kernel⟩,
   ⟨aligning 16, 0, 1, 100, 150, 160, 169, by decide +kernel⟩,
   ⟨aligning 16, 0, 1, 100, 150, 160, 251, by decide +kernel⟩⟩

theorem witness_TimeCensusAndPairing_2 :
    (∃ (s : State) (d : Nat), d < dieCount s.orderCode ∧ dieUp s d = true ∧ s.rd d Reg.DC_RTIME_STATUS_ALIGNED = 1 ∧
      s.rd d Reg.DC_RTIME_STATUS_MASTER = 0) ∧
    (∃ (s : State) (d : Nat), d < dieCount s.orderCode ∧ dieUp s d = true ∧ s.rd d Reg.DC_RTIME_STATUS_ALIGNED = 1 ∧
      s.rd d Reg.DC_RTIME_STATUS_MASTER = 0) ∧
    (∃ (s : State) (ms : Nat), s.rack.rmUp = true ∧ s.boot.censusOpen = true ∧ stage10Dies s ≠ [] ∧ (s.boot.censusMs ≤
      ms ∨ (stage10Dies s).length = dieCount s.orderCode)) ∧
    (∃ (s : State) (ms : Nat), (s.rack.rmUp = false ∨ s.boot.censusOpen = false ∨ stage10Dies s = [] ∨ ms <
      s.boot.censusMs ∧ (stage10Dies s).length ≠ dieCount s.orderCode)) ∧
    (∃ (s : State) (ms : Nat), (s.rack.rmUp = false ∨ s.boot.censusOpen = false ∨ stage10Dies s = [] ∨ ms <
      s.boot.censusMs ∧ (stage10Dies s).length ≠ dieCount s.orderCode)) ∧
    (∃ (s : State) (digest : BitVec 32), TakesDigests s ∧ BitVec.ofNat 32 (comboDigest (combo s)) = digest) ∧
    (∃ (s : State) (digest : BitVec 32), TakesDigests s ∧ BitVec.ofNat 32 (comboDigest (combo s)) ≠ digest ∧ ((∃ p ∈
      s.host.abiHeld, BitVec.ofNat 32 (comboDigest (abiCombo s p)) = digest) ∨ (∃ c ∈ s.boot.fmtHeld, BitVec.ofNat 32
      (comboDigest (fmtCombo s c)) = digest))) ∧
    (∃ (s : State) (digest : BitVec 32), TakesDigests s ∧ BitVec.ofNat 32 (comboDigest (combo s)) ≠ digest ∧ ((∃ p ∈
      s.host.abiHeld, BitVec.ofNat 32 (comboDigest (abiCombo s p)) = digest) ∨ (∃ c ∈ s.boot.fmtHeld, BitVec.ofNat 32
      (comboDigest (fmtCombo s c)) = digest))) :=
  ⟨⟨sets [(0, Reg.DC_RTIME_STATUS_ALIGNED, 1)] (stage 8), 0, by decide +kernel⟩,
   ⟨sets [(0, Reg.DC_RTIME_STATUS_ALIGNED, 1)] (stage 8), 0, by decide +kernel⟩,
   ⟨stage 8, 2000, by decide +kernel⟩,
   ⟨stage 8, 1999, by decide +kernel⟩,
   ⟨up, 2000, by decide +kernel⟩,
   ⟨held 2, BitVec.ofNat 32 (comboDigest (combo (held 2))), by decide +kernel⟩,
   ⟨{ held 0 with host := { live.host with abiHeld := [0] } }, BitVec.ofNat 32 (comboDigest (abiCombo (held 0) 0)),
     by decide +kernel⟩,
   ⟨{ held 0 with boot := { (held 0).boot with fmtHeld := [⟨9, 1⟩] } }, BitVec.ofNat 32 (comboDigest (fmtCombo (held
     0) ⟨9, 1⟩)), by decide +kernel⟩⟩

theorem witness_TimeCensusAndPairing_3 :
    (∃ (s : State) (digest : BitVec 32), s.rack.rmUp = true ∧ (s.boot.censusOpen = true ∨ s.boot.hold = 1 ∨
      BitVec.ofNat 32 (comboDigest (combo s)) ≠ digest ∧ (∀ p ∈ s.host.abiHeld, BitVec.ofNat 32 (comboDigest (abiCombo
      s p)) ≠ digest) ∧ (∀ c ∈ s.boot.fmtHeld, BitVec.ofNat 32 (comboDigest (fmtCombo s c)) ≠ digest))) ∧
    (∃ (s : State) (digest : BitVec 32), s.rack.rmUp = true ∧ (s.boot.censusOpen = true ∨ s.boot.hold = 1 ∨
      BitVec.ofNat 32 (comboDigest (combo s)) ≠ digest ∧ (∀ p ∈ s.host.abiHeld, BitVec.ofNat 32 (comboDigest (abiCombo
      s p)) ≠ digest) ∧ (∀ c ∈ s.boot.fmtHeld, BitVec.ofNat 32 (comboDigest (fmtCombo s c)) ≠ digest))) ∧
    (∃ (s : State) (digest : BitVec 32), s.rack.rmUp = true ∧ (s.boot.censusOpen = true ∨ s.boot.hold = 1 ∨
      BitVec.ofNat 32 (comboDigest (combo s)) ≠ digest ∧ (∀ p ∈ s.host.abiHeld, BitVec.ofNat 32 (comboDigest (abiCombo
      s p)) ≠ digest) ∧ (∀ c ∈ s.boot.fmtHeld, BitVec.ofNat 32 (comboDigest (fmtCombo s c)) ≠ digest))) ∧
    (∃ (s : State) (port : Nat) (abi : Compat), portDie port < dieCount s.orderCode ∧ portLive s port = true ∧
      attachOf s port = 1 ∧ abi.major < 2 ^ 16 ∧ abi.minor < 2 ^ 16) ∧
    (∃ (s : State) (port : Nat) (abi : Compat), portDie port < dieCount s.orderCode ∧ portLive s port = true ∧
      attachOf s port = 1 ∧ abi.major < 2 ^ 16 ∧ abi.minor < 2 ^ 16) :=
  ⟨⟨up, 5, by decide +kernel⟩,
   ⟨held 1, 5, by decide +kernel⟩,
   ⟨held 2, 5, by decide +kernel⟩,
   ⟨sets [(0, Reg.HOST_STATUS_ATTACH, 1)] (stage 8), 0, ⟨4, 2⟩, by decide +kernel⟩,
   ⟨sets [(0, Reg.HOST_STATUS_ATTACH, 1), (0, Reg.DC_COMPAT_MAJOR 6, 4), (0, Reg.DC_COMPAT_MINOR 6, 1)] { stage 8 with
     boot := { up.boot with pairing := [⟨List.replicate 6 (0, 0, 9)⟩] } }, 0, ⟨4, 2⟩, by decide +kernel⟩⟩

theorem witness_CachesFollowTable_1 :
    (∃ (s : State) (m : CohMsg) (l : Line), MeetsLine s .fwdGetS m l ∧ m.homeReq = false ∧ plainMode s m.part = false
      ∧ l.st = .m) ∧
    (∃ (s : State) (m : CohMsg) (l : Line), MeetsLine s .fwdGetM m l ∧ (l.st = .o ∨ l.st = .m)) ∧
    (∃ (s : State) (m : CohMsg) (l : Line), MeetsLine s .fwdGetM m l ∧ (l.st = .o ∨ l.st = .m)) ∧
    (∃ (s : State) (m : CohMsg) (l : Line), MeetsLine s .inv m l ∧ l.st = .s) ∧
    (∃ (s : State) (m : CohMsg) (l : Line), MeetsLine s .data m l ∧ (l.st = .isD ∨ l.st = .ssD)) ∧
    (∃ (s : State) (m : CohMsg) (l : Line), MeetsLine s .data m l ∧ (l.st = .isD ∨ l.st = .ssD)) ∧
    (∃ (s : State) (m : CohMsg) (l : Line), MeetsLine s .dataP m l ∧ (l.st = .isD ∨ l.st = .ssD)) ∧
    (∃ (s : State) (m : CohMsg) (l : Line), MeetsLine s .dataExcl m l ∧ (l.st = .imAD ∨ l.st = .smAD ∨ l.st = .omA)) :=
  ⟨⟨cache .fwdGetS { cohMsg 0 1 with req := 2 } [line 1 .m true 0] [], { cohMsg 0 1 with req := 2 }, line 1 .m true 0,
     by decide +kernel⟩,
   ⟨cache .fwdGetM { cohMsg 0 1 with req := 2 } [line 1 .m true 0] [], { cohMsg 0 1 with req := 2 }, line 1 .m true 0,
     by decide +kernel⟩,
   ⟨cache .fwdGetM { cohMsg 0 1 with req := 2, acks := 1 } [line 1 .o true 0] [],
     { cohMsg 0 1 with req := 2, acks := 1 }, line 1 .o true 0, by decide +kernel⟩,
   ⟨cache .inv { cohMsg 0 1 with req := 2 } [line 1 .s true 0] [], { cohMsg 0 1 with req := 2 }, line 1 .s true 0,
     by decide +kernel⟩,
   ⟨cache .data (cohMsg 0 1) [line 1 .isD false 0] [], cohMsg 0 1, line 1 .isD false 0, by decide +kernel⟩,
   ⟨cache .data (cohMsg 0 1) [line 1 .ssD true 0] [], cohMsg 0 1, line 1 .ssD true 0, by decide +kernel⟩,
   ⟨cache .dataP { cohMsg 0 1 with poison := 1 } [line 1 .isD false 0] [], { cohMsg 0 1 with poison := 1 }, line 1
     .isD false 0, by decide +kernel⟩,
   ⟨cache .dataExcl (cohMsg 0 1) [line 1 .imAD true 0] [], cohMsg 0 1, line 1 .imAD true 0, by decide +kernel⟩⟩

theorem witness_CachesFollowTable_2 :
    (∃ (s : State) (m : CohMsg) (l : Line), MeetsLine s .dataExcl m l ∧ (l.st = .imAD ∨ l.st = .smAD ∨ l.st = .omA)) ∧
    (∃ (s : State) (m : CohMsg) (l : Line), MeetsLine s .dataExclP m l ∧ (l.st = .imAD ∨ l.st = .smAD ∨ l.st = .omA)) ∧
    (∃ (s : State) (m : CohMsg) (l : Line), MeetsLine s .invAck m l ∧ (l.st = .imA ∨ l.st = .smAD)) ∧
    (∃ (s : State) (m : CohMsg) (l : Line), MeetsLine s .invAck m l ∧ (l.st = .imA ∨ l.st = .smAD)) ∧
    (∃ (s : State) (m : CohMsg) (l : Line), MeetsPut s .wbAck m l ∧ (l.st = .miA ∨ l.st = .oiA ∨ l.st = .siA ∨ l.st =
      .iiA)) ∧
    (∃ (s : State) (m : CohMsg) (l : Line), MeetsPut s .nack m l ∧ m.reason = 0 ∧ (l.st = .miA ∨ l.st = .oiA ∨ l.st =
      .siA ∨ l.st = .iiA)) :=
  ⟨⟨cache .dataExcl { cohMsg 0 1 with acks := 2 } [line 1 .smAD true (-1)] [], { cohMsg 0 1 with acks := 2 }, line 1
     .smAD true (-1), by decide +kernel⟩,
   ⟨cache .dataExclP (cohMsg 0 1) [line 1 .omA true 0] [], cohMsg 0 1, line 1 .omA true 0, by decide +kernel⟩,
   ⟨cache .invAck (cohMsg 2 1) [line 1 .imA true 1] [], cohMsg 2 1, line 1 .imA true 1, by decide +kernel⟩,
   ⟨cache .invAck (cohMsg 2 1) [line 1 .smAD true 0] [], cohMsg 2 1, line 1 .smAD true 0, by decide +kernel⟩,
   ⟨cache .wbAck (cohMsg 0 1) [] [line 1 .miA true 0], cohMsg 0 1, line 1 .miA true 0, by decide +kernel⟩,
   ⟨cache .nack (cohMsg 0 1) [] [line 1 .iiA true 0], cohMsg 0 1, line 1 .iiA true 0, by decide +kernel⟩⟩

theorem witness_DirectoriesFollowTable :
    (∃ (s : State) (m : CohMsg) (n : Nat) (e : DirEnt), MeetsEntry s .getS m n e ∧ e.st = .m ∧ plainMode s m.part =
      false) ∧
    (∃ (s : State) (m : CohMsg) (n : Nat) (e : DirEnt), MeetsEntry s .getM m n e ∧ e.st = .m ∧ m.src ≠ e.owner) ∧
    (∃ (s : State) (m : CohMsg) (n : Nat) (e : DirEnt), MeetsEntry s .upg m n e ∧ e.st = .o ∧ m.src = e.owner) ∧
    (∃ (s : State) (m : CohMsg) (n : Nat) (e : DirEnt), MeetsEntry s .putS m n e ∧ e.st = .s ∧ e.sharers.contains
      m.src = true) ∧
    (∃ (s : State) (m : CohMsg) (n : Nat) (e : DirEnt), MeetsEntry s .putS m n e ∧ e.st = .s ∧ e.sharers.contains
      m.src = true) ∧
    (∃ (s : State) (m : CohMsg) (n : Nat) (e : DirEnt), MeetsEntry s .putM m n e ∧ e.st = .m ∧ m.src = e.owner) ∧
    (∃ (s : State) (m : CohMsg) (n : Nat) (e : DirEnt), MeetsEntry s .putO m n e ∧ e.st = .o ∧ m.src = e.owner ∧
      e.sharers ≠ []) :=
  ⟨⟨home .getS (cohMsg 2 0) (entry .m 1 []) [], cohMsg 2 0, 0, entry .m 1 [], by decide +kernel⟩,
   ⟨home .getM (cohMsg 2 0) (entry .m 1 []) [], cohMsg 2 0, 0, entry .m 1 [], by decide +kernel⟩,
   ⟨home .upg (cohMsg 1 0) (entry .o 1 [2]) [], cohMsg 1 0, 0, entry .o 1 [2], by decide +kernel⟩,
   ⟨home .putS (cohMsg 1 0) (entry .s 0 [1, 2]) [], cohMsg 1 0, 0, entry .s 0 [1, 2], by decide +kernel⟩,
   ⟨home .putS (cohMsg 1 0) (entry .s 0 [1]) [], cohMsg 1 0, 0, entry .s 0 [1], by decide +kernel⟩,
   ⟨home .putM (cohMsg 1 0) (entry .m 1 []) [], cohMsg 1 0, 0, entry .m 1 [], by decide +kernel⟩,
   ⟨home .putO (cohMsg 1 0) (entry .o 1 [2]) [], cohMsg 1 0, 0, entry .o 1 [2], by decide +kernel⟩⟩

theorem witness_OrphansAndQuery :
    (∃ (s : State) (d : Nat) (n : Nat) (la : Nat) (l : Line), d < dieCount s.orderCode ∧ CachesQuiet s ∧ findLine s d
      n la = some l ∧ l.st = .isD ∧ OthersPlaced s d n la ∧ l.way < 16 ∧ (homePart s (la * 128)).isSome = true) ∧
    (∃ (s : State) (d : Nat) (dead : Nat) (p : Nat) (l : Line), d < dieCount s.orderCode ∧ dieUp s d = true ∧ s.rdBit
      d Reg.DC_DEAD dead = true ∧ (imgParts s).filter (fun p => imgDie s p dead) = [p] ∧ CachesQuiet s ∧ s.slc.lines =
      [l] ∧ s.slc.puts = [] ∧ l.die = d ∧ l.st = .isD ∧ linePart s l.la = p) ∧
    (∃ (s : State) (d : Nat) (n : Nat) (p : Nat) (src : Source) (e : DirEnt), d < dieCount s.orderCode ∧ homeDie (s.rd
      d Reg.COH_QUERY_ADDR * 128) = d ∧ homePart s (s.rd d Reg.COH_QUERY_ADDR * 128) = some p ∧ wardenOk s p src =
      true ∧ homeChan s (s.rd d Reg.COH_QUERY_ADDR * 128) = some n ∧ findDir s d n (s.rd d Reg.COH_QUERY_ADDR) = some
      e ∧ e.owner < 64 ∧ e.count < 128 ∧ e.cause < 4) :=
  ⟨⟨orphan, 1, 0, 0x80, waiting, by decide +kernel⟩,
   ⟨orphan, 1, 2, 5, waiting, by decide +kernel⟩,
   ⟨sets [(0, Reg.COH_QUERY_ADDR, 0x80)] (home .getS (cohMsg 2 0) (entry .o 1 [2]) []), 0, 0, 5, .dc, entry .o 1 [2],
     by decide +kernel⟩⟩

theorem witness_SlicesServe_1 :
    (∃ (s : State) (d : Nat) (n : Nat) (r : SliceReq) (l : Line), MeetsHome s d n ⟨r, .read⟩ l ∧ (sectorAt l
      (Waiter.sec ⟨r, .read⟩)).valid = true) ∧
    (∃ (s : State) (d : Nat) (n : Nat) (r : SliceReq) (mask : BitVec 32) (v : SectorData) (l : Line), MeetsHome s d n
      ⟨r, .write mask v⟩ l ∧ (sectorAt l (Waiter.sec ⟨r, .read⟩)).valid = true) ∧
    (∃ (s : State) (d : Nat) (n : Nat) (op : Nat) (r : SliceReq) (wide : Bool) (signed : Bool) (a : Word) (b : Word)
      (l : Line), MeetsHome s d n ⟨r, .atomic op wide signed a b⟩ l ∧ (sectorAt l (Waiter.sec ⟨r, .read⟩)).valid =
      true ∧ (sectorAt l (Waiter.sec ⟨r, .read⟩)).poison = false) ∧
    (∃ (s : State) (d : Nat) (n : Nat) (la : Nat) (m : Mshr) (l : Line), d < dieCount s.orderCode ∧ s.slc.mshrs = [m]
      ∧ m.die = d ∧ m.slice = n ∧ m.la = la ∧ m.waiters = [] ∧ m.remote = [] ∧ s.slc.holdq = [] ∧ findLine s d n la =
      some l ∧ l.st = .home ∧ LinesPlaced s d n ∧ sliceFailed s d n = false) ∧
    (∃ (s : State) (d : Nat) (n : Nat) (la : Nat) (m : Mshr) (l : Line), d < dieCount s.orderCode ∧ s.slc.mshrs = [m]
      ∧ m.die = d ∧ m.slice = n ∧ m.la = la ∧ m.waiters = [] ∧ m.remote = [] ∧ s.slc.holdq = [] ∧ findLine s d n la =
      some l ∧ l.st = .home ∧ LinesPlaced s d n ∧ sliceFailed s d n = false) ∧
    (∃ (s : State) (q : Nat) (d : Nat) (n : Nat) (k : Nat) (w : Nat) (la : Nat) (x : NetMsg), (retryOf s
      q).waiting.find? (fun b => Nat.blt 0 b.wait) = some ⟨.coh d n la, k, w⟩ ∧ s.slc.sent.find? (fun x => Nat.beq
      x.msg.src d && Nat.beq x.msg.srcSlice n && Nat.beq x.msg.line la) = some x) ∧
    (∃ (s : State) (q : Nat) (k : Nat) (w : Nat) (a : SlotAt), (retryOf s q).waiting.find? (fun b => Nat.blt 0 b.wait)
      = some ⟨.kv a, k, w⟩) ∧
    (∃ (s : State) (q : Nat) (d : Nat) (n : Nat) (k : Nat) (w : Nat) (x : Waiter), (retryOf s q).waiting.find? (fun b
      => Nat.blt 0 b.wait) = some ⟨.access d n x, k, w⟩ ∧ ctxKilled s x.req.part x.req.inst x.req.ctx = true) :=
  ⟨⟨withLines [homeLine] live, 0, 0, request, homeLine, by decide +kernel⟩,
   ⟨withLines [homeLine] live, 0, 0, request, 0xFF, 77, homeLine, by decide +kernel⟩,
   ⟨withLines [homeLine] live, 0, 0, 0, request, false, false, 5, 0, homeLine, by decide +kernel⟩,
   ⟨filling, 0, 0, 0x80, fetching, homeLine, by decide +kernel⟩,
   ⟨filling, 0, 0, 0x80, fetching, homeLine, by decide +kernel⟩,
   ⟨{ backing (.coh 1 0 0x80) with slc := { (backing (.coh 1 0 0x80)).slc with sent := [⟨.getM, cohMsg 1 0⟩] } }, 9,
     1, 0, 1, 8, 0x80, ⟨.getM, cohMsg 1 0⟩, by decide +kernel⟩,
   ⟨backing (.kv slot0), 9, 1, 8, slot0, by decide +kernel⟩,
   ⟨{ backing access with core := { live.core with killed := [(5, 0, 7)] } }, 9, 0, 0, 1, 8,
     ⟨{ request with ctx := 7 }, .read⟩, by decide +kernel⟩⟩

theorem witness_SlicesServe_2 :
    ∃ (s : State) (d : Nat) (n : Nat) (e : Starve), d < dieCount s.orderCode ∧ s.slc.starve.find? (fun e => Nat.beq
      e.die d && Nat.beq e.slice n) = some e ∧ e.held = true :=
  ⟨{ live with slc := { live.slc with starve := [⟨0, 0, 9, 0x4020, 0, true, false⟩] } }, 0, 0, ⟨0, 0, 9, 0x4020, 0,
     true, false⟩, by decide +kernel⟩

theorem witness_SliceFailuresAndPins_1 :
    (∃ (s : State) (d : Nat) (n : Nat), d < dieCount s.orderCode ∧ n < 24 ∧ sliceFailed s d n = false ∧ mshrsOf s d n
      = []) ∧
    (∃ (s : State) (d : Nat) (n : Nat), d < dieCount s.orderCode ∧ n < 24 ∧ sliceFailed s d n = false ∧ mshrsOf s d n
      = []) ∧
    (∃ (s : State) (d : Nat) (n : Nat) (la : Nat) (m : Mshr) (l : Line), d < dieCount s.orderCode ∧ n < 24 ∧
      sliceFailed s d n = false ∧ slicePart s d n = none ∧ s.slc.mshrs = [m] ∧ m.die = d ∧ m.slice = n ∧ m.la = la ∧
      m.mask ≠ 0 ∧ m.waiters = [] ∧ m.remote = [] ∧ findLine s d n la = some l ∧ l.st = .home ∧ l.way < 16) ∧
    (∃ (s : State) (d : Nat) (n : Nat) (la : Nat) (sec : Nat) (l : Line), d < dieCount s.orderCode ∧ n < 24 ∧ findLine
      s d n la = some l ∧ sec < l.sectors.length ∧ (sectorAt l sec).valid = true ∧ (sectorAt l sec).dirty = true) ∧
    (∃ (s : State) (d : Nat) (n : Nat), d < dieCount s.orderCode ∧ n < 24) ∧
    (∃ (s : State) (d : Nat), d < dieCount s.orderCode ∧ s.rd d Reg.MESH_MODE_HLINK_ON = 0) ∧
    (∃ (s : State) (d : Nat) (p : HalfPkt), d < dieCount s.orderCode ∧ s.rd d Reg.MESH_MODE_HLINK_ON ≠ 0 ∧ halfPasses
      s d p = true) ∧
    (∃ (s : State) (d : Nat) (p : HalfPkt), d < dieCount s.orderCode ∧ s.rd d Reg.MESH_MODE_HLINK_ON ≠ 0 ∧ halfPasses
      s d p = false ∧ p.write = true) :=
  ⟨⟨live, 0, 23, by decide +kernel⟩,
   ⟨live, 0, 0, by decide +kernel⟩,
   ⟨{ up with slc := filling.slc }, 0, 0, 0x80, fetching, homeLine, by decide +kernel⟩,
   ⟨withLines [homeLine] live, 0, 0, 0x80, 3, homeLine, by decide +kernel⟩,
   ⟨live, 0, 23, by decide +kernel⟩,
   ⟨live, 0, by decide +kernel⟩,
   ⟨halfLinked, 0, { packet with dstAttach := true }, by decide +kernel⟩,
   ⟨halfLinked, 0, packet, by decide +kernel⟩⟩

theorem witness_SliceFailuresAndPins_2 :
    (∃ (s : State) (d : Nat) (lines : Nat) (p : Nat) (src : Source), d < dieCount s.orderCode ∧ pinRefusal (pinCmd d 1
      lines p s) d lines p src = none) ∧
    (∃ (s : State) (d : Nat) (lines : Nat) (p : Nat) (src : Source), d < dieCount s.orderCode ∧ pinRefusal (pinCmd d 2
      lines p s) d lines p src = none) ∧
    (∃ (s : State) (d : Nat) (lines : Nat), d < dieCount s.orderCode ∧ (lines = 0 ∨ 1024 < lines)) ∧
    (∃ (s : State) (d : Nat) (lines : Nat), d < dieCount s.orderCode ∧ (lines = 0 ∨ 1024 < lines)) :=
  ⟨⟨sets [(0, Reg.UC_PIN_ADDR, 0x80)] live, 0, 2, 5, .dc, by decide +kernel⟩,
   ⟨sets [(0, Reg.UC_PIN_ADDR, 0x80)] (withLines [{ homeLine with pin := true }] live), 0, 3, 5, .dc,
     by decide +kernel⟩,
   ⟨live, 0, 1025, by decide +kernel⟩,
   ⟨live, 0, 0, by decide +kernel⟩⟩

theorem witness_ToashFrames :
    (∃ (s : State) (d : Nat) (port : Nat) (header : BitVec 32) (crc : BitVec 32) (flits : List Byte) (b : List Byte),
      b = frameBytes header flits crc ∧ d < dieCount s.orderCode ∧ port < 5 ∧ portUp s d port = true ∧ frameOk b =
      true ∧ frameSeq b = (linkPort s d port).expect) ∧
    (∃ (s : State) (d : Nat) (port : Nat) (header : BitVec 32) (crc : BitVec 32) (flits : List Byte) (b : List Byte),
      b = frameBytes header flits crc ∧ d < dieCount s.orderCode ∧ port < 5 ∧ portUp s d port = true ∧ frameOk b =
      true ∧ frameSeq b = (linkPort s d port).expect) ∧
    (∃ (s : State) (d : Nat) (port : Nat) (header : BitVec 32) (crc : BitVec 32) (flits : List Byte) (b : List Byte),
      b = frameBytes header flits crc ∧ d < dieCount s.orderCode ∧ port < 5 ∧ portUp s d port = true ∧ (frameOk b =
      false ∨ frameSeq b ≠ (linkPort s d port).expect)) ∧
    (∃ (s : State) (d : Nat) (port : Nat) (header : BitVec 32) (crc : BitVec 32) (flits : List Byte) (b : List Byte),
      b = frameBytes header flits crc ∧ d < dieCount s.orderCode ∧ port < 5 ∧ portUp s d port = true ∧ (frameOk b =
      false ∨ frameSeq b ≠ (linkPort s d port).expect)) ∧
    (∃ (s : State) (d : Nat) (port : Nat), d < dieCount s.orderCode ∧ port < 5 ∧ portUp s d port = true) ∧
    (∃ (s : State) (d : Nat) (port : Nat), d < dieCount s.orderCode ∧ port < 5 ∧ portUp s d port = true) ∧
    (∃ (s : State) (d : Nat) (port : Nat) (width : Nat), d < dieCount s.orderCode ∧ port < 5 ∧ portUp s d port = true
      ∧ fullWidth port ≤ width) :=
  ⟨⟨link 4 4095 0 0 live, 0, 4, 32767#32, BitVec.ofNat 32 (crc32c (leBytes 4 32767 ++ List.replicate 256 0)),
     List.replicate 256 0, frameBytes 32767#32 (List.replicate 256 0) (BitVec.ofNat 32 (crc32c (leBytes 4 32767 ++
     List.replicate 256 0))), by decide +kernel⟩,
   ⟨{ live with net := { live.net with ports := [⟨0, 4, 0, 9, 0, 0, 6, [⟨5, 1, []⟩], []⟩] }, regs := (link 4 0 0 0
     live).regs }, 0, 4, 20480#32, BitVec.ofNat 32 (crc32c (leBytes 4 20480 ++ List.replicate 256 0)), List.replicate
     256 0, frameBytes 20480#32 (List.replicate 256 0) (BitVec.ofNat 32 (crc32c (leBytes 4 20480 ++ List.replicate 256
     0))), by decide +kernel⟩,
   ⟨link 0 7 0 0 live, 0, 0, 8#32, BitVec.ofNat 32 (crc32c (leBytes 4 8 ++ List.replicate 256 0)), List.replicate 256
     0, frameBytes 8#32 (List.replicate 256 0) (BitVec.ofNat 32 (crc32c (leBytes 4 8 ++ List.replicate 256 0))),
     by decide +kernel⟩,
   ⟨link 0 7 0 0 live, 0, 0, 7#32, 0, List.replicate 256 0, frameBytes 7#32 (List.replicate 256 0) (0),
     by decide +kernel⟩,
   ⟨link 0 0 8 14 live, 0, 0, by decide +kernel⟩,
   ⟨link 0 0 0 15 live, 0, 0, by decide +kernel⟩,
   ⟨link 3 5 0 0 live, 0, 3, 3, by decide +kernel⟩⟩

theorem witness_PortsRoutersAndPlanes :
    (∃ (s : State) (d : Nat) (port : Nat) (width : Nat), d < dieCount s.orderCode ∧ port < 5 ∧ dieUp s d = true ∧
      trainStage port ≤ s.rd d Reg.DC_BOOT_STATUS_STAGE ∧ leastWidth port ≤ width ∧ (3 ≤ port →
      s.rack.spineReady.contains (port - 3) = true)) ∧
    (∃ (s : State) (d : Nat) (port : Nat) (width : Nat), d < dieCount s.orderCode ∧ port < 5 ∧ dieUp s d = true ∧
      trainStage port ≤ s.rd d Reg.DC_BOOT_STATUS_STAGE ∧ leastWidth port ≤ width ∧ (3 ≤ port →
      s.rack.spineReady.contains (port - 3) = true)) ∧
    (∃ (s : State) (d : Nat) (port : Nat), d < dieCount s.orderCode ∧ port < 3 ∧ portUp s d port = true ∧ portParts s
      d port = []) ∧
    (∃ (s : State) (plane : Nat), plane < 2 ∧ s.rack.planeLost.contains plane = false ∧ s.rack.planeLost.contains (1 -
      plane) = false ∧ (allParts s).filter (spansModules s) = []) ∧
    (∃ (s : State) (d : Nat) (c : Nat), d < dieCount s.orderCode ∧ c < 320) ∧
    (∃ (s : State) (d : Nat) (c : Nat), d < dieCount s.orderCode ∧ c < 320) ∧
    (∃ (s : State) (d : Nat) (lane : Nat), d < dieCount s.orderCode ∧ lane < 4 ∧ s.net.lanesDown.contains (d * 4 +
      lane) = false) ∧
    (∃ (s : State) (d : Nat) (lane : Nat), d < dieCount s.orderCode ∧ lane < 4 ∧ s.net.lanesDown.contains (d * 4 +
      lane) = false) :=
  ⟨⟨sets [(0, Reg.DC_BOOT_STATUS_STAGE, 6)] live, 0, 2, 2, by decide +kernel⟩,
   ⟨{ (sets [(0, Reg.DC_BOOT_STATUS_STAGE, 7)] live) with rack := { live.rack with spineReady := [1] } }, 0, 4, 1,
     by decide +kernel⟩,
   ⟨link 2 5 0 0 live, 0, 2, by decide +kernel⟩,
   ⟨link 4 5 0 0 live, 1, by decide +kernel⟩,
   ⟨live, 0, 319, by decide +kernel⟩,
   ⟨live, 0, 0, by decide +kernel⟩,
   ⟨live, 0, 3, by decide +kernel⟩,
   ⟨up, 0, 0, by decide +kernel⟩⟩

theorem witness_Reductions_1 :
    (∃ (s : State) (d : Nat) (c : Nat) (p : RedPkt) (f : RedFlight) (e : Combine), d < dieCount s.orderCode ∧ p.fixed
      = false ∧ redArrives s (some (.router d c)) p = some f ∧ findCombine s (.router d c) p.key = some e ∧ (combine
      e.pkt p).contrib < (combine e.pkt p).count) ∧
    (∃ (s : State) (d : Nat) (c : Nat) (p : RedPkt) (f : RedFlight), d < dieCount s.orderCode ∧ p.fixed = false ∧
      redArrives s (some (.router d c)) p = some f ∧ findCombine s (.router d c) p.key = none ∧ (entriesAt s (.router
      d c)).length < 32 ∧ p.contrib < p.count) ∧
    (∃ (s : State) (d : Nat) (c : Nat) (p : RedPkt) (f : RedFlight), d < dieCount s.orderCode ∧ p.fixed = false ∧
      redArrives s (some (.router d c)) p = some f ∧ findCombine s (.router d c) p.key = none ∧ 32 ≤ (entriesAt s
      (.router d c)).length ∧ f.todo = [.router d c]) ∧
    (∃ (s : State) (d : Nat) (c : Nat) (e : Nat) (k : RedKey) (x : Combine) (l : List RedPlace), d < dieCount
      s.orderCode ∧ findCombine s (.router d c) k = some x ∧ x.pkt.fixed = false ∧ x.todo = .router d e :: l ∧
      clusterSide c = clusterSide e) ∧
    (∃ (s : State) (d : Nat) (c : Nat) (elapsed : Nat) (k : RedKey) (x : Combine) (r : RTree), d < dieCount
      s.orderCode ∧ findCombine s (.router d c) k = some x ∧ x.pkt.fixed = true ∧ x.pkt.key = k ∧ treeOf s k.part
      k.tag = some r ∧ (x.pkt.count ≤ x.pkt.contrib ∨ 16 * s.rd d Reg.RED_HOLD_TREE ≤ elapsed) ∧ (allDies s).all (fun
      e => Nat.beq (s.rd e Reg.MESH_MODE_HLINK_ON) 0) = true ∧ (∀ n ∈ r.nodes, n.kind = 0 → n.loc < dieCount
      s.orderCode) ∧ x.pkt.dst < dieCount s.orderCode) ∧
    (∃ (s : State) (d : Nat) (n : Nat) (p : RedPkt) (f : RedFlight), d < dieCount s.orderCode ∧ p.fixed = false ∧
      redArrives s none p = some f ∧ homeDie (p.key.sector * 32) = d ∧ homeChan s (p.key.sector * 32) = some n ∧
      homePart s (p.key.sector * 32) = some p.key.part ∧ incLower p.incarn.toNat (s.rd p.src Reg.DC_INCARNATION) =
      false ∧ findAccum s d n p.key = none ∧ openAccums s d n < 512 ∧ p.contrib < p.count) ∧
    (∃ (s : State) (d : Nat) (n : Nat) (p : RedPkt) (f : RedFlight), d < dieCount s.orderCode ∧ p.fixed = false ∧
      redArrives s none p = some f ∧ homeDie (p.key.sector * 32) = d ∧ homeChan s (p.key.sector * 32) = some n ∧
      homePart s (p.key.sector * 32) = some p.key.part ∧ incLower p.incarn.toNat (s.rd p.src Reg.DC_INCARNATION) =
      false ∧ findAccum s d n p.key = none ∧ 512 ≤ openAccums s d n) ∧
    (∃ (s : State) (d : Nat) (n : Nat) (p : RedPkt) (f : RedFlight) (a : Accum), d < dieCount s.orderCode ∧ p.fixed =
      false ∧ redArrives s none p = some f ∧ homeDie (p.key.sector * 32) = d ∧ homeChan s (p.key.sector * 32) = some n
      ∧ homePart s (p.key.sector * 32) = some p.key.part ∧ incLower p.incarn.toNat (s.rd p.src Reg.DC_INCARNATION) =
      false ∧ redStalled s d n = false ∧ findAccum s d n p.key = some a ∧ a.pkt.count = p.count ∧ a.pkt.key = p.key ∧
      a.pkt.contrib + p.contrib < p.count) :=
  ⟨⟨reducing (redPkt false 3) [combining (redPkt false 3)] [], 0, 7, redPkt false 3, ⟨redPkt false 3, .router 0 7,
     [.router 0 7]⟩, combining (redPkt false 3), by decide +kernel⟩,
   ⟨reducing (redPkt false 2) [] [], 0, 7, redPkt false 2, ⟨redPkt false 2, .router 0 7, [.router 0 7]⟩,
     by decide +kernel⟩,
   ⟨reducing (redPkt false 2) ((List.range 32).map (fun n => { combining (redPkt false 2) with pkt := { redPkt false 2
     with key := { redKey with sector := n } } })) [], 0, 7, redPkt false 2, ⟨redPkt false 2, .router 0 7, [.router 0
     7]⟩, by decide +kernel⟩,
   ⟨reducing (redPkt false 2) [{ combining (redPkt false 2) with todo := [.router 0 8] }] [], 0, 7, 8, redKey,
     { combining (redPkt false 2) with todo := [.router 0 8] }, [], by decide +kernel⟩,
   ⟨reducing (redPkt true 1) [combining (redPkt true 1)] [], 0, 7, 0, redKey, combining (redPkt true 1), ⟨3, 1, [⟨0,
     0, 0, 0xFFFF⟩]⟩, by decide +kernel⟩,
   ⟨arrived (redPkt false 2) [], 0, 0, redPkt false 2, ⟨redPkt false 2, .router 0 7, []⟩, by decide +kernel⟩,
   ⟨arrived (redPkt false 2) ((List.range 512).map (fun n => { accumulating (redPkt false 3) with pkt := { redPkt
     false 3 with key := { redKey with sector := n + 0x400 } } })), 0, 0, redPkt false 2, ⟨redPkt false 2, .router 0
     7, []⟩, by decide +kernel⟩,
   ⟨arrived (redPkt false 3) [accumulating (redPkt false 3)], 0, 0, redPkt false 3, ⟨redPkt false 3, .router 0 7, []⟩,
     accumulating (redPkt false 3), by decide +kernel⟩⟩

theorem witness_Reductions_2 :
    (∃ (s : State) (d : Nat) (n : Nat) (k : RedKey) (a : Accum), d < dieCount s.orderCode ∧ findAccum s d n k = some
      a) ∧
    (∃ (s : State) (d : Nat) (n : Nat) (k : RedKey) (a : Accum), d < dieCount s.orderCode ∧ findAccum s d n k = some
      a) :=
  ⟨⟨reducing (redPkt false 3) [] [accumulating (redPkt false 3)], 0, 0, redKey, accumulating (redPkt false 3),
     by decide +kernel⟩,
   ⟨{ reducing (redPkt false 3) [] [accumulating (redPkt false 3)] with prt := { live.prt with faulted := [5] } }, 0,
     0, redKey, accumulating (redPkt false 3), by decide +kernel⟩⟩

theorem witness_MoverControl :
    (∃ (s : State) (s2 : State) (s3 : State) (d : Nat) (m : Nat) (w : Nat) (pa : Nat) (x : Mover) (v : SectorData),
      AtWord s d m 7 x w ∧ x.mr (mvRD w) % 8 = 0 ∧ translate (runsWord x w).xby (x.mr (mvRD w)) .store (putMover
      (runsWord x w) s) = some (.pa pa, s2) ∧ accAtomic (runsWord x w).acc pa (fun y => BitVec.ofNat 256 (y.toNat -
      bits y.toNat (pa % 32 * 8 + 63) (pa % 32 * 8) * 2 ^ (pa % 32 * 8) + (if (mvImm w).testBit 0 then x.mr (mvRS w)
      else (bits y.toNat (pa % 32 * 8 + 63) (pa % 32 * 8) + x.mr (mvRS w)) % 2 ^ 64) * 2 ^ (pa % 32 * 8))) s2 = some
      (.ok v false, s3)) ∧
    (∃ (s : State) (d : Nat) (m : Nat) (w : Nat) (x : Mover), AtWord s d m 0 x w) ∧
    (∃ (s : State) (d : Nat) (m : Nat) (x : Mover), d < dieCount s.orderCode ∧ findMover s d m = some x ∧ x.state ≠
      .halted ∧ x.latched = none ∧ mvLegal (progWord s d x.slot x.pc) = false ∧ s.prt.faulted.contains x.part = false) ∧
    (∃ (s : State) (d : Nat) (m : Nat) (x : Mover), d < dieCount s.orderCode ∧ findMover s d m = some x ∧ x.state ≠
      .halted ∧ x.latched = none ∧ s.que.badProg.contains (x.die * 8192 + 128 * x.slot + x.pc) = true ∧
      s.prt.faulted.contains x.part = false) :=
  ⟨⟨sg, mvTr sg (mword 7 0 3 0 0 0) (mover mregs0), s3of (sgAt sg (mword 7 0 3 0 0 0) 0x20000 (mover mregs0)) sg, 0,
     3, mword 7 0 3 0 0 0, 0x20000, mover mregs0, 0, by decide +kernel⟩,
   ⟨moverAt 0 (mover mregs0) live, 0, 3, 0, mover mregs0, by decide +kernel⟩,
   ⟨moverAt 9 (mover mregs0) live, 0, 3, mover mregs0, by decide +kernel⟩,
   ⟨{ (moverAt 0 (mover mregs0) live) with que :=
     { (moverAt 0 (mover mregs0) live).que with badProg := [128 * (mover mregs0).slot + (mover mregs0).pc] } }, 0, 3,
     mover mregs0, by decide +kernel⟩⟩

theorem witness_MoverWaitsAndHalts_1 :
    (∃ (s : State) (s2 : State) (d : Nat) (m : Nat) (w : Nat) (v : Nat) (x : Mover), AtWord s d m 6 x w ∧ x.mr (mvRD
      w) % 8 = 0 ∧ mvWord { runsWord x w with checked := true } (x.mr (mvRD w)) (putMover (runsWord x w) s) = .ok v s2
      ∧ findMover s2 d m = some (runsWord x w)) ∧
    (∃ (s : State) (s2 : State) (d : Nat) (m : Nat) (w : Nat) (v : Nat) (x : Mover), AtWord s d m 6 x w ∧ x.mr (mvRD
      w) % 8 = 0 ∧ mvWord { runsWord x w with checked := true } (x.mr (mvRD w)) (putMover (runsWord x w) s) = .ok v s2
      ∧ findMover s2 d m = some (runsWord x w)) ∧
    (∃ (s : State) (s2 : State) (d : Nat) (m : Nat) (v : Nat) (w : Word) (x : Mover), d < dieCount s.orderCode ∧
      findMover s d m = some x ∧ x.state = .stalled ∧ x.latched = some w ∧ x.checked = true ∧ x.stopped = false ∧
      x.changed = false ∧ x.pc < 127 ∧ mvLegal w.toNat = true ∧ mvOp w.toNat = 6 ∧ mvHeld s x = false ∧ x.mr (mvRD
      w.toNat) % 8 = 0 ∧ mvWord { x with state := .running } (x.mr (mvRD w.toNat)) (putMover
      { x with state := .running } s) = .ok v s2 ∧ findMover s2 d m = some { x with state := .running }) ∧
    (∃ (s : State) (s2 : State) (d : Nat) (m : Nat) (v : Nat) (w : Word) (x : Mover), d < dieCount s.orderCode ∧
      findMover s d m = some x ∧ x.state = .stalled ∧ x.latched = some w ∧ x.checked = true ∧ x.stopped = false ∧
      x.changed = false ∧ x.pc < 127 ∧ mvLegal w.toNat = true ∧ mvOp w.toNat = 6 ∧ mvHeld s x = false ∧ x.mr (mvRD
      w.toNat) % 8 = 0 ∧ mvWord { x with state := .running } (x.mr (mvRD w.toNat)) (putMover
      { x with state := .running } s) = .ok v s2 ∧ findMover s2 d m = some { x with state := .running }) ∧
    (∃ (s : State) (d : Nat) (m : Nat) (w : Word) (x : Mover), d < dieCount s.orderCode ∧ findMover s d m = some x ∧
      x.latched = some w ∧ mvOp w.toNat = 6 ∧ x.checked = true ∧ bits w.toNat 63 40 ≠ 0 ∧ s.prt.faulted.contains
      x.part = false) ∧
    (∃ (s : State) (d : Nat) (m : Nat) (pc : Nat) (src : Source) (x : Mover), d < dieCount s.orderCode ∧ m < 32 ∧ pc <
      128 ∧ findMover s d m = some x ∧ x.state = .halted ∧ (partSealed s x.part = false ∨ src = .warden)) ∧
    (∃ (s : State) (d : Nat) (m : Nat) (src : Source) (x : Mover), d < dieCount s.orderCode ∧ m < 32 ∧ findMover s d m
      = some x ∧ x.state = .halted ∧ (partSealed s x.part = false ∨ src = .warden)) ∧
    (∃ (s : State) (d : Nat) (m : Nat) (x : Mover), d < dieCount s.orderCode ∧ findMover s d m = some x ∧ x.state =
      .halted) :=
  ⟨⟨wt 0 5, okS (mvWord { runsWord (mover mregs0) (mword 6 0 3 0 0 0) with checked := true } 0x20000 (putMover
     (runsWord (mover mregs0) (mword 6 0 3 0 0 0)) (wt 0 5))) live, 0, 3, mword 6 0 3 0 0 0, 5, mover mregs0,
     by decide +kernel⟩,
   ⟨wt 3 5, okS (mvWord { runsWord (mover mregs0) (mword 6 0 3 0 0 3) with checked := true } 0x20000 (putMover
     (runsWord (mover mregs0) (mword 6 0 3 0 0 3)) (wt 3 5))) live, 0, 3, mword 6 0 3 0 0 3, 5, mover mregs0,
     by decide +kernel⟩,
   ⟨wp (mword 6 0 3 0 0 0) 5, okS (mvWord { stalledIn (mword 6 0 3 0 0 0) with state := .running } 0x20000 (putMover
     { stalledIn (mword 6 0 3 0 0 0) with state := .running } (wp (mword 6 0 3 0 0 0) 5))) live, 0, 3, 5, BitVec.ofNat
     64 (mword 6 0 3 0 0 0), stalledIn (mword 6 0 3 0 0 0), by decide +kernel⟩,
   ⟨wp (mword 6 0 3 0 0 3) 5, okS (mvWord { stalledIn (mword 6 0 3 0 0 3) with state := .running } 0x20000 (putMover
     { stalledIn (mword 6 0 3 0 0 3) with state := .running } (wp (mword 6 0 3 0 0 3) 5))) live, 0, 3, 5, BitVec.ofNat
     64 (mword 6 0 3 0 0 3), stalledIn (mword 6 0 3 0 0 3), by decide +kernel⟩,
   ⟨wp (mword 6 0 3 0 0 0x300) 4, 0, 3, BitVec.ofNat 64 (mword 6 0 3 0 0 0x300), stalledIn (mword 6 0 3 0 0 0x300),
     by decide +kernel⟩,
   ⟨halted, 0, 3, 20, (.pf 0), { mover mregs0 with state := .halted, changed := true }, by decide +kernel⟩,
   ⟨halted, 0, 3, (.pf 0), { mover mregs0 with state := .halted, changed := true }, by decide +kernel⟩,
   ⟨halted, 0, 3, { mover mregs0 with state := .halted, changed := true }, by decide +kernel⟩⟩

theorem witness_MoverWaitsAndHalts_2 :
    ∃ (s : State) (d : Nat) (m : Nat) (pc : Nat), d < dieCount s.orderCode ∧ m < 32 ∧ pc < 128 ∧ findMover s d m =
      none :=
  ⟨halted, 0, 4, 20, by decide +kernel⟩

theorem witness_MoverMovesAndShifts :
    (∃ (s : State) (d : Nat) (m : Nat) (w : Nat) (op : Nat) (x : Mover) (c : Instr), AtWord s d m op x w ∧ (op, c) ∈
      [(1, Instr.movCopy d m), (3, Instr.gather d m), (4, Instr.scatter d m), (5, Instr.movFill d m)] ∧ mvTotal x w =
      0) ∧
    (∃ (s : State) (d : Nat) (m : Nat) (w : Nat) (op : Nat) (x : Mover) (c : Instr) (sp : Span) (s2 : State) (n : Nat)
      (code : Nat) (addr : Nat) (s3 : State), AtWord s d m op x w ∧ (op, c) ∈ [(1, Instr.movCopy d m), (3,
      Instr.gather d m), (4, Instr.scatter d m), (5, Instr.movFill d m)] ∧ mvTotal x w ≠ 0 ∧ mvAligned x w = true ∧
      mvSpan { runsWord x w with checked := true } w (putMover (runsWord x w) s) = .ok sp s2 ∧ mvStep
      { runsWord x w with checked := true } w sp s2 = ⟨n, 0, code, addr, s3⟩ ∧ n = mvTotal x w ∧ findMover s3 d m =
      some (runsWord x w)) ∧
    (∃ (s : State) (d : Nat) (m : Nat) (w : Nat) (op : Nat) (x : Mover) (c : Instr) (sp : Span) (s2 : State) (n : Nat)
      (code : Nat) (addr : Nat) (s3 : State), AtWord s d m op x w ∧ (op, c) ∈ [(1, Instr.movCopy d m), (3,
      Instr.gather d m), (4, Instr.scatter d m), (5, Instr.movFill d m)] ∧ mvTotal x w ≠ 0 ∧ mvAligned x w = true ∧
      mvSpan { runsWord x w with checked := true } w (putMover (runsWord x w) s) = .ok sp s2 ∧ mvStep
      { runsWord x w with checked := true } w sp s2 = ⟨n, 1, code, addr, s3⟩ ∧ findMover s3 d m = some (runsWord x w)) ∧
    (∃ (s : State) (d : Nat) (m : Nat) (w : Nat) (op : Nat) (x : Mover) (c : Instr), AtWord s d m op x w ∧ (op, c) ∈
      [(1, Instr.movCopy d m), (3, Instr.gather d m), (4, Instr.scatter d m), (5, Instr.movFill d m)] ∧ mvTotal x w ≠
      0 ∧ mvAligned x w = false ∧ s.prt.faulted.contains x.part = false) ∧
    (∃ (s : State) (d : Nat) (m : Nat) (w : Nat) (x : Mover) (q : SeqSlot), AtWord s d m 2 x w ∧ shCheck (putMover
      (runsWord x w) s) (runsWord x w) w = none ∧ findSeq s (shSeq x w) = some q ∧ shCount x w = 0) ∧
    (∃ (s : State) (d : Nat) (m : Nat) (w : Nat) (x : Mover) (q : SeqSlot), AtWord s d m 2 x w ∧ shCheck (putMover
      (runsWord x w) s) (runsWord x w) w = none ∧ findSeq s (shSeq x w) = some q ∧ shCount x w ≠ 0 ∧ q.recs.any (fun r
      => Nat.ble r.firstBlock (shBlock x w 0) || Nat.ble r.firstBlock (((shBlock x w 0 : Nat) : Int) + mvSigned
      w).toNat) = true) ∧
    (∃ (s : State) (d : Nat) (m : Nat) (w : Nat) (x : Mover) (q : SeqSlot) (src : Nat) (dst : Nat) (code : Nat) (addr
      : Nat) (s2 : State) (s3 : State) (s4 : State) (q' : SeqSlot), AtWord s d m 2 x w ∧ shCheck (putMover (runsWord x
      w) s) (runsWord x w) w = none ∧ findSeq s (shSeq x w) = some q ∧ shCount x w = 1 ∧ 0 < blockSize q.blk ∧ q.recs
      = [] ∧ shAddr { runsWord x w with checked := true } q.dir.toNat (shBlock x w 0) (putMover (runsWord x w) s) =
      .ok src s2 ∧ shAddr { runsWord x w with checked := true } q.dir.toNat (((shBlock x w 0 : Nat) : Int) + mvSigned
      w).toNat s2 = .ok dst s3 ∧ mvRunBeats { runsWord x w with checked := true } (fun k s => mvRead
      { runsWord x w with checked := true } (src + 0 + k) s) (src + 0) (dst + 0) ((blockSize q.blk * shStride x w - 0)
      / 32) ((blockSize q.blk * shStride x w - 0) / 32) 0 s3 = ⟨blockSize q.blk * shStride x w, 0, code, addr, s4⟩ ∧
      findSeq s4 (shSeq x w) = some q' ∧ q'.blk = q.blk ∧ findMover s4 d m = some (runsWord x w)) :=
  ⟨⟨copyS (mword 1 0 1 2 8 0) [0x20000, 0x30000, 0, 0,0,0,0,0], 0, 3, mword 1 0 1 2 8 0, 1, mover [0x20000, 0x30000,
     0, 0,0,0,0,0], .movCopy 0 3, by decide +kernel⟩,
   ⟨copyW, 0, 3, mword 1 0 1 2 8 0, 1, mover copyR, .movCopy 0 3, ⟨0x30000, 0x20000, 64⟩, putMover (runsWord (mover
     copyR) (mword 1 0 1 2 8 0)) copyW, 64, 0, 0, copyRun.s, by decide +kernel⟩,
   ⟨fromPartner, 0, 3, mword 1 0 1 2 10 0, 1, mover partnerR, .movCopy 0 3, ⟨9 * 2 ^ 56, 0x20000, 64⟩, putMover
     (runsWord (mover partnerR) (mword 1 0 1 2 10 0)) fromPartner, 0, 0, 0, partnerRun.s, by decide +kernel⟩,
   ⟨copyS (mword 1 0 1 2 8 0) [0x20001, 0x30000, 32, 0,0,0,0,0], 0, 3, mword 1 0 1 2 8 0, 1, mover [0x20001, 0x30000,
     32, 0,0,0,0,0], .movCopy 0 3, by decide +kernel⟩,
   ⟨shifts 0 [], 0, 3, shw, shx 0, seqSlot, by decide +kernel⟩,
   ⟨shifts 1 [{ openStep with firstBlock := 0 }], 0, 3, shw, shx 1, { seqSlot with recs :=
     [{ openStep with firstBlock := 0 }] }, by decide +kernel⟩,
   ⟨shifts 1 [], 0, 3, shw, shx 1, seqSlot, 0x20000, 0x30000, 0, 0, okS shA live, okS shB live, shRun.s, seqSlot,
     by decide +kernel⟩⟩

theorem witness_ProgramsAndPartnerAnswers_1 :
    (∃ (s : State) (d : Nat) (w : Nat) (src : Source), d < dieCount s.orderCode ∧ w < 8192 ∧ (slotSealed s d (w / 128)
      = false ∨ src = .warden)) ∧
    (∃ (s : State) (d : Nat) (w : Nat) (src : Source), d < dieCount s.orderCode ∧ w < 8192 ∧ (slotSealed s d (w / 128)
      = false ∨ src = .warden)) ∧
    (∃ (s : State) (d : Nat) (slot : Nat) (src : Source) (v : Word), d < dieCount s.orderCode ∧ slot < 64 ∧ slotSealed
      s d slot = false ∧ (bits v.toNat 28 28 = 0 ∨ partSealed s (bits v.toNat 22 16) = false ∨ src = .warden)) ∧
    (∃ (s : State) (d : Nat) (slot : Nat) (src : Source) (v : Word), d < dieCount s.orderCode ∧ slot < 64 ∧ slotSealed
      s d slot = false ∧ (bits v.toNat 28 28 = 0 ∨ partSealed s (bits v.toNat 22 16) = false ∨ src = .warden)) ∧
    (∃ (s : State) (d : Nat) (w : Nat) (src : Source), d < dieCount s.orderCode ∧ w < 8192 ∧ slotSealed s d (w / 128)
      = true ∧ src ≠ .warden) ∧
    (∃ (s : State) (port : Nat) (tag : Nat) (l : List SectorData) (o : Outbound) (m : Mover), s.host.outbound.find?
      (fun o => Nat.beq o.port port && Nat.beq o.tag tag && !o.done) = some o ∧ outMover s o = some m ∧ o.kind = 0 ∧
      o.write = false ∧ l.length = o.len / 32 ∧ s.host.atsInv = []) ∧
    (∃ (s : State) (port : Nat) (tag : Nat), port < 32 ∧ s.host.outbound.find? (fun o => Nat.beq o.port port &&
      Nat.beq o.tag tag && !o.done) = none) ∧
    (∃ (s : State) (port : Nat) (tag : Nat) (o : Outbound), port < 32 ∧ s.host.outbound.find? (fun o => Nat.beq o.port
      port && Nat.beq o.tag tag && !o.done) = some o ∧ o.write = false ∧ outMover s o = none ∧ s.host.atsInv = []) :=
  ⟨⟨moverAt 0 (mover mregs0) live, 0, 300, .dc, by decide +kernel⟩,
   ⟨sets [(0, Reg.MOV_SLOT_GEN 2, 65535)] (moverAt 0 (mover mregs0) live), 0, 256, .dc, by decide +kernel⟩,
   ⟨moverAt 0 (mover mregs0) live, 0, 2, .dc, 0x10060000, by decide +kernel⟩,
   ⟨moverAt 0 (mover mregs0) live, 0, 2, .dc, 0x10850000, by decide +kernel⟩,
   ⟨sets [(0, Reg.PART_HALF_SEALED 0, 1)] (moverAt 0 (mover mregs0) live), 0, 300, .dc, by decide +kernel⟩,
   ⟨partnerMover, 0, 9, [5, 6], sent, mover mregs0, by decide +kernel⟩,
   ⟨live, 31, 9, by decide +kernel⟩,
   ⟨outgoing sent live, 0, 9, sent, by decide +kernel⟩⟩

theorem witness_ProgramsAndPartnerAnswers_2 :
    ∃ (s : State) (port : Nat) (tag : Nat) (o : Outbound) (m : Mover), s.host.outbound.find? (fun o => Nat.beq o.port
      port && Nat.beq o.tag tag && !o.done) = some o ∧ o.write = false ∧ outMover s o = some m ∧
      s.prt.faulted.contains o.part = false :=
  ⟨partnerMover, 0, 9, sent, mover mregs0, by decide +kernel⟩

theorem witness_VectorArithmetic :
    (∃ (s : State) (u : State) (a : Issue) (imm : Bool) (f : BitVec 56) (t : Troupe) (i : Iss) (c : Instr) (op : Nat)
      (lane : Iss → Nat → Lane), (c, op, lane) ∈ vectorOps a imm f ∧ Issues s u a op f t i) ∧
    (∃ (s : State) (u : State) (a : Issue) (f : BitVec 56) (t : Troupe) (i : Iss), Issues s u a 0x0D f t i) ∧
    (∃ (s : State) (u : State) (a : Issue) (f : BitVec 56) (t : Troupe) (i : Iss), Issues s u a 0x0D f t i) :=
  ⟨⟨(running [troupe]), (fetched (running [troupe]) troupe), core0, false, fields [(12, 3), (19, 0), (40, 0), (26,
     2)], troupe, issue (running [troupe]) troupe 0 (fields [(12, 3), (19, 0), (40, 0), (26, 2)]), .vadd core0 (fields
     [(12, 3), (19, 0), (40, 0), (26, 2)]), 0x00, vaddLane, List.Mem.head _, by decide +kernel⟩,
   ⟨(running [troupe]), (fetched (running [troupe]) troupe), core0, fields [(12, 4), (19, 0), (40, 3), (43, 0)],
     troupe, issue (running [troupe]) troupe 13 (fields [(12, 4), (19, 0), (40, 3), (43, 0)]), by decide +kernel⟩,
   ⟨(running [troupe]), (fetched (running [troupe]) troupe), core0, fields [(12, 3), (19, 0), (40, 0), (43, 1)],
     troupe, issue (running [troupe]) troupe 13 (fields [(12, 3), (19, 0), (40, 0), (43, 1)]), by decide +kernel⟩⟩

theorem witness_Int32Arithmetic :
    ∃ (s : State) (u : State) (a : Issue) (f : BitVec 56) (t : Troupe) (i : Iss) (c : Instr) (op : Nat) (n : Nat) (g :
      Lane → Lane → Lane), (c, op, g) ∈ intOps a f ∧ Issues s u a op f t i ∧ fType i.w = 5 ∧ n ∈ i.act :=
  ⟨(running [troupe]), (fetched (running [troupe]) troupe), core0, fields [(12, 3), (19, 2), (40, 5), (26, 0)],
     troupe, issue (running [troupe]) troupe 0 (fields [(12, 3), (19, 2), (40, 5), (26, 0)]), .vadd core0 (fields
     [(12, 3), (19, 2), (40, 5), (26, 0)]), 0, 9, (fun x y => x + y), List.Mem.head _, by decide +kernel⟩

theorem witness_PredicatesAndScalars_1 :
    (∃ (s : State) (u : State) (a : Issue) (f : BitVec 56) (t : Troupe) (i : Iss), Issues s u a 0x0B f t i) ∧
    (∃ (s : State) (u : State) (a : Issue) (f : BitVec 56) (t : Troupe) (i : Iss), Issues s u a 0x0B f t i) ∧
    (∃ (s : State) (u : State) (a : Issue) (imm : Bool) (f : BitVec 56) (t : Troupe) (i : Iss), Issues s u a (vsOp
      0x26 imm) f t i) ∧
    (∃ (s : State) (u : State) (a : Issue) (imm : Bool) (f : BitVec 56) (t : Troupe) (i : Iss), Issues s u a (vsOp
      0x26 imm) f t i) ∧
    (∃ (s : State) (u : State) (a : Issue) (imm : Bool) (f : BitVec 56) (t : Troupe) (i : Iss), Issues s u a (vsOp
      0x2E imm) f t i ∧ i.act ≠ []) ∧
    (∃ (s : State) (u : State) (a : Issue) (imm : Bool) (f : BitVec 56) (t : Troupe) (i : Iss), Issues s u a (vsOp
      0x2E imm) f t i ∧ i.act ≠ []) ∧
    (∃ (s : State) (u : State) (a : Issue) (imm : Bool) (f : BitVec 56) (t : Troupe) (i : Iss) (c : Instr) (op : Nat)
      (g : Iss → Lane), (c, op, g) ∈ [(Instr.sadd a imm f, vsOp 0x28 imm, saddVal), (Instr.ssub a imm f, vsOp 0x29
      imm, ssubVal), (Instr.smul a imm f, vsOp 0x2A imm, smulVal), (Instr.slog a imm f, vsOp 0x2B imm, slogVal),
      (Instr.ssh a imm f, vsOp 0x2C imm, sshVal), (Instr.smov a imm f, vsOp 0x2D imm, smovVal), (Instr.v2s a f, 0xA2,
      v2sVal), (Instr.vbal a f, 0xA3, vbalVal)] ∧ Issues s u a op f t i) ∧
    (∃ (s : State) (u : State) (a : Issue) (imm : Bool) (f : BitVec 56) (t : Troupe) (i : Iss), Issues s u a (vsOp
      0x2F imm) f t i ∧ i.act ≠ []) :=
  ⟨⟨(running [troupe]), (fetched (running [troupe]) troupe), core0, fields [(19, 0), (26, 1), (43, 2), (46, 3)],
     troupe, issue (running [troupe]) troupe 11 (fields [(19, 0), (26, 1), (43, 2), (46, 3)]), by decide +kernel⟩,
   ⟨(running [troupe]), (fetched (running [troupe]) troupe), core0, fields [(19, 2), (26, 2), (40, 5), (43, 7), (46,
     7)], troupe, issue (running [troupe]) troupe 11 (fields [(19, 2), (26, 2), (40, 5), (43, 7), (46, 7)]),
     by decide +kernel⟩,
   ⟨(running [troupe]), (fetched (running [troupe]) troupe), core0, false, fields [(12, 2), (19, 2), (26, 5), (29, 2),
     (32, 6)], troupe, issue (running [troupe]) troupe (vsOp 0x26 false) (fields [(12, 2), (19, 2), (26, 5), (29, 2),
     (32, 6)]), by decide +kernel⟩,
   ⟨(running [troupe]), (fetched (running [troupe]) troupe), core0, true, fields [(12, 2), (19, 2), (26, 5), (29, 2),
     (32, 2)], troupe, issue (running [troupe]) troupe (vsOp 0x26 true) (fields [(12, 2), (19, 2), (26, 5), (29, 2),
     (32, 2)]), by decide +kernel⟩,
   ⟨(running [troupe]), (fetched (running [troupe]) troupe), core0, false, fields [(12, 2), (19, 7), (26, 5), (29, 2),
     (32, 6)], troupe, issue (running [troupe]) troupe (vsOp 0x2e false) (fields [(12, 2), (19, 7), (26, 5), (29, 2),
     (32, 6)]), by decide +kernel⟩,
   ⟨(running [troupe]), (fetched (running [troupe]) troupe), core0, true, fields [(12, 2), (19, 7), (26, 5), (29, 2),
     (32, 2)], troupe, issue (running [troupe]) troupe (vsOp 0x2e true) (fields [(12, 2), (19, 7), (26, 5), (29, 2),
     (32, 2)]), by decide +kernel⟩,
   ⟨(running [troupe]), (fetched (running [troupe]) troupe), core0, false, fields [(12, 9), (26, 5), (32, 6), (19,
     7)], troupe, issue (running [troupe]) troupe (vsOp 0x28 false) (fields [(12, 9), (26, 5), (32, 6), (19, 7)]),
     .sadd core0 false (fields [(12, 9), (26, 5), (32, 6), (19, 7)]), (vsOp 0x28 false), saddVal, List.Mem.head _,
     by decide +kernel⟩,
   ⟨(running [troupe]), (fetched (running [troupe]) troupe), core0, false, fields [(12, 8), (19, 6), (26, 5), (32,
     6)], troupe, issue (running [troupe]) troupe (vsOp 0x2f false) (fields [(12, 8), (19, 6), (26, 5), (32, 6)]),
     by decide +kernel⟩⟩

theorem witness_PredicatesAndScalars_2 :
    (∃ (s : State) (u : State) (a : Issue) (imm : Bool) (f : BitVec 56) (t : Troupe) (i : Iss), Issues s u a (vsOp
      0x2F imm) f t i ∧ i.act ≠ []) ∧
    (∃ (s : State) (u : State) (a : Issue) (f : BitVec 56) (t : Troupe) (i : Iss), Issues s u a 0xA0 f t i ∧ i.act ≠
      []) ∧
    (∃ (s : State) (u : State) (a : Issue) (f : BitVec 56) (t : Troupe) (i : Iss), Issues s u a 0xA0 f t i ∧ i.act ≠
      []) ∧
    (∃ (s : State) (u : State) (a : Issue) (f : BitVec 56) (t : Troupe) (i : Iss), Issues s u a 0xA0 f t i ∧ i.act ≠
      []) ∧
    (∃ (s : State) (u : State) (a : Issue) (f : BitVec 56) (t : Troupe) (i : Iss), Issues s u a 0xA1 f t i) ∧
    (∃ (s : State) (u : State) (a : Issue) (f : BitVec 56) (t : Troupe) (i : Iss), Issues s u a 0xA1 f t i) ∧
    (∃ (s : State) (u : State) (a : Issue) (f : BitVec 56) (t : Troupe) (i : Iss), Issues s u a 0xA1 f t i) ∧
    (∃ (i : Iss), fSpec i.w = 0x10) :=
  ⟨⟨(running [troupe]), (fetched (running [troupe]) troupe), core0, true, fields [(12, 8), (19, 6), (26, 5), (32, 2)],
     troupe, issue (running [troupe]) troupe (vsOp 0x2f true) (fields [(12, 8), (19, 6), (26, 5), (32, 2)]),
     by decide +kernel⟩,
   ⟨(running [troupe]), (fetched (running [troupe]) troupe), core0, fields [(12, 9), (26, 1)], troupe, issue (running
     [troupe]) troupe 160 (fields [(12, 9), (26, 1)]), by decide +kernel⟩,
   ⟨(running [troupe]), (fetched (running [troupe]) troupe), core0, fields [(12, 9), (26, 5)], troupe, issue (running
     [troupe]) troupe 160 (fields [(12, 9), (26, 5)]), by decide +kernel⟩,
   ⟨(running [troupe]), (fetched (running [troupe]) troupe), core0, fields [(12, 9), (26, 16)], troupe, issue (running
     [troupe]) troupe 160 (fields [(12, 9), (26, 16)]), by decide +kernel⟩,
   ⟨(running [troupe]), (fetched (running [troupe]) troupe), core0, fields [(12, 9), (26, 0)], troupe, issue (running
     [troupe]) troupe 161 (fields [(12, 9), (26, 0)]), by decide +kernel⟩,
   ⟨(running [troupe]), (fetched (running [troupe]) troupe), core0, fields [(12, 9), (26, 1)], troupe, issue (running
     [troupe]) troupe 161 (fields [(12, 9), (26, 1)]), by decide +kernel⟩,
   ⟨(running [troupe]), (fetched (running [troupe]) troupe), core0, fields [(12, 9), (26, 16)], troupe, issue (running
     [troupe]) troupe 161 (fields [(12, 9), (26, 16)]), by decide +kernel⟩,
   ⟨issue (running [troupe]) troupe 160 (fields [(12, 9), (26, 16)]), by decide +kernel⟩⟩

theorem witness_MatrixMultiply :
    (∃ (s : State) (u : State) (a : Issue) (f : BitVec 56) (t : Troupe) (i : Iss) (c : Instr) (op : Nat) (q : Nat) (kk
      : Nat) (tyA : Nat → Nat) (tyB : Nat → Nat), (c, op, q, kk, tyA, tyB) ∈ [(Instr.mma8 a f, 0x80, 4, 16, (fun w =>
      fmt8 (fAfmt w)), (fun w => fmt8 (fBfmt w))), (Instr.mma16 a f, 0x81, 2, 8, (fun w => fmt16 (fAfmt w)), (fun w =>
      fmt16 (fBfmt w)))] ∧ Issues s u a op f t i ∧ outLow u t.die t.cluster = false ∧ anyGuard i = true ∧ mmaShape i =
      true) ∧
    (∃ (s : State) (u : State) (a : Issue) (f : BitVec 56) (t : Troupe) (i : Iss) (c : Instr) (op : Nat) (q : Nat) (kk
      : Nat) (tyA : Nat → Nat) (tyB : Nat → Nat), (c, op, q, kk, tyA, tyB) ∈ [(Instr.mma8 a f, 0x80, 4, 16, (fun w =>
      fmt8 (fAfmt w)), (fun w => fmt8 (fBfmt w))), (Instr.mma16 a f, 0x81, 2, 8, (fun w => fmt16 (fAfmt w)), (fun w =>
      fmt16 (fBfmt w)))] ∧ Issues s u a op f t i ∧ outLow u t.die t.cluster = false ∧ anyGuard i = false) ∧
    (∃ (s : State) (u : State) (a : Issue) (f : BitVec 56) (t : Troupe) (i : Iss) (c : Instr) (op : Nat) (q : Nat) (kk
      : Nat) (tyA : Nat → Nat) (tyB : Nat → Nat), (c, op, q, kk, tyA, tyB) ∈ [(Instr.mma8 a f, 0x80, 4, 16, (fun w =>
      fmt8 (fAfmt w)), (fun w => fmt8 (fBfmt w))), (Instr.mma16 a f, 0x81, 2, 8, (fun w => fmt16 (fAfmt w)), (fun w =>
      fmt16 (fBfmt w)))] ∧ Issues s u a op f t i ∧ outLow u t.die t.cluster = false ∧ anyGuard i = true ∧ mmaShape i =
      false ∧ u.prt.faulted.contains t.part = false) ∧
    (∃ (s : State) (u : State) (a : Issue) (f : BitVec 56) (t : Troupe) (i : Iss) (c : Instr) (op : Nat) (q : Nat) (kk
      : Nat) (tyA : Nat → Nat) (tyB : Nat → Nat), (c, op, q, kk, tyA, tyB) ∈ [(Instr.mma8 a f, 0x80, 4, 16, (fun w =>
      fmt8 (fAfmt w)), (fun w => fmt8 (fBfmt w))), (Instr.mma16 a f, 0x81, 2, 8, (fun w => fmt16 (fAfmt w)), (fun w =>
      fmt16 (fBfmt w)))] ∧ Issues s u a op f t i ∧ outLow u t.die t.cluster = true) :=
  ⟨⟨(running [(small troupe)]), (fetched (running [(small troupe)]) (small troupe)), core0, fields [(12, 16), (19, 8),
     (26, 10), (33, 24), (53, 0)], (small troupe), (issue (running [(small troupe)]) (small troupe) 128 (fields [(12,
     16), (19, 8), (26, 10), (33, 24), (53, 0)])), .mma8 core0 (fields [(12, 16), (19, 8), (26, 10), (33, 24), (53,
     0)]), 128, 4, 16, (fun w => fmt8 (fAfmt w)), (fun w => fmt8 (fBfmt w)), List.Mem.head _, by decide +kernel⟩,
   ⟨(running [(small troupe)]), (fetched (running [(small troupe)]) (small troupe)), core0, guarded (fields [(12, 16),
     (19, 8), (26, 10), (33, 24)]), (small troupe), (issue (running [(small troupe)]) (small troupe) 128 (guarded
     (fields [(12, 16), (19, 8), (26, 10), (33, 24)]))), .mma8 core0 (guarded (fields [(12, 16), (19, 8), (26, 10),
     (33, 24)])), 128, 4, 16, (fun w => fmt8 (fAfmt w)), (fun w => fmt8 (fBfmt w)), List.Mem.head _,
     by decide +kernel⟩,
   ⟨(running [(small troupe)]), (fetched (running [(small troupe)]) (small troupe)), core0, fields [(12, 16), (19, 8),
     (26, 10), (33, 25)], (small troupe), (issue (running [(small troupe)]) (small troupe) 128 (fields [(12, 16), (19,
     8), (26, 10), (33, 25)])), .mma8 core0 (fields [(12, 16), (19, 8), (26, 10), (33, 25)]), 128, 4, 16, (fun w =>
     fmt8 (fAfmt w)), (fun w => fmt8 (fBfmt w)), List.Mem.head _, by decide +kernel⟩,
   ⟨lowVolts, (fetched lowVolts (small troupe)), core0, fields [(12, 16), (19, 8), (26, 10), (33, 24), (53, 0)],
     (small troupe), (issue lowVolts (small troupe) 128 (fields [(12, 16), (19, 8), (26, 10), (33, 24), (53, 0)])),
     .mma8 core0 (fields [(12, 16), (19, 8), (26, 10), (33, 24), (53, 0)]), 128, 4, 16, (fun w => fmt8 (fAfmt w)),
     (fun w => fmt8 (fBfmt w)), List.Mem.head _, by decide +kernel⟩⟩

theorem witness_BranchesAndTraps :
    (∃ (s : State) (u : State) (a : Issue) (f : BitVec 56) (t : Troupe) (i : Iss), Issues s u a 0x60 f t i) ∧
    (∃ (s : State) (u : State) (a : Issue) (f : BitVec 56) (t : Troupe) (i : Iss), Issues s u a 0x61 f t i) ∧
    (∃ (s : State) (u : State) (a : Issue) (f : BitVec 56) (t : Troupe) (i : Iss), Issues s u a 0x61 f t i) ∧
    (∃ (s : State) (u : State) (a : Issue) (f : BitVec 56) (t : Troupe) (i : Iss), Issues s u a 0x62 f t i ∧ (∀ n ∈
      i.act, readGroup t n (fD i.w) 2 % 8 = 0)) ∧
    (∃ (s : State) (u : State) (a : Issue) (f : BitVec 56) (t : Troupe) (i : Iss), Issues s u a 0x62 f t i ∧ (∃ n ∈
      i.act, readGroup t n (fD i.w) 2 % 8 ≠ 0) ∧ u.prt.faulted.contains t.part = false) ∧
    (∃ (s : State) (u : State) (a : Issue) (f : BitVec 56) (t : Troupe) (i : Iss), Issues s u a 0x67 f t i) ∧
    (∃ (s : State) (u : State) (a : Issue) (f : BitVec 56) (t : Troupe) (i : Iss), Issues s u a 0x68 f t i ∧ i.act ≠
      [] ∧ u.prt.faulted.contains t.part = false) ∧
    (∃ (s : State) (u : State) (a : Issue) (w : Word) (t : Troupe) (pc : Nat), a.die < dieCount s.orderCode ∧
      issueHeld (tickCore a s) a = false ∧ selectTroupe (tickCore a s) a = some t ∧ t.cohortPc = some pc ∧ fetch t pc
      (tickCore a s) = some (none, u) ∧ legal t.rows w.toNat = false ∧ u.prt.faulted.contains t.part = false) :=
  ⟨⟨(running [half]), (fetched (running [half]) half), core0, guarded (fields [(32, 4294967294)]), half, (issue
     (running [half]) half 96 (guarded (fields [(32, 4294967294)]))), by decide +kernel⟩,
   ⟨(running [troupe]), (fetched (running [troupe]) troupe), core0, fields [(32, 16), (12, 6)], troupe, (issue
     (running [troupe]) troupe 97 (fields [(32, 16), (12, 6)])), by decide +kernel⟩,
   ⟨(running [lane0]), (fetched (running [lane0]) lane0), core0, fields [(32, 16), (12, 6)], lane0, (issue (running
     [lane0]) lane0 97 (fields [(32, 16), (12, 6)])), by decide +kernel⟩,
   ⟨(running [lane0]), (fetched (running [lane0]) lane0), core0, fields [(12, 4)], lane0, (issue (running [lane0])
     lane0 98 (fields [(12, 4)])), by decide +kernel⟩,
   ⟨(running [troupe]), (fetched (running [troupe]) troupe), core0, fields [(12, 2)], troupe, (issue (running
     [troupe]) troupe 98 (fields [(12, 2)])), by decide +kernel⟩,
   ⟨(running [troupe]), (fetched (running [troupe]) troupe), core0, fields [], troupe, (issue (running [troupe])
     troupe 103 (fields [])), by decide +kernel⟩,
   ⟨(running [troupe]), (fetched (running [troupe]) troupe), core0, fields [(32, 4660)], troupe, (issue (running
     [troupe]) troupe 104 (fields [(32, 4660)])), by decide +kernel⟩,
   ⟨running [troupe], fetched (running [troupe]) troupe, core0, 0xFF, troupe, 0x50000, by decide +kernel⟩⟩

theorem witness_ParkingAndYielding :
    (∃ (s : State) (u : State) (a : Issue) (f : BitVec 56) (t : Troupe) (i : Iss) (c : Instr) (op : Nat) (g : Thread →
      Thread), (c, op, g) ∈ [(Instr.converge a f, 0x63, fun x =>
      { x with parked := some .converge, parkedAt := i.t.issuedAt.getD 0 }), (Instr.yield a f, 0x64, fun x =>
      { x with yielded := true }), (Instr.barc a f, 0x65, fun x =>
      { x with parked := some (.barrier (fBar i.w)), parkedAt := i.t.issuedAt.getD 0 }), (Instr.exit a f, 0x66, fun x
      => { x with exited := true })] ∧ Issues s u a op f t i ∧ (∃ n x, n ∉ i.act ∧ t.thread n = some x ∧ x.live = true
      ∧ x.yielded = false)) ∧
    (∃ (s : State) (u : State) (a : Issue) (f : BitVec 56) (t : Troupe) (i : Iss), Issues s u a 0x63 f t i ∧ i.act =
      List.range 32 ∧ (∀ x ∈ t.threads, x.exited = false)) ∧
    (∃ (s : State) (u : State) (a : Issue) (f : BitVec 56) (t : Troupe) (i : Iss), Issues s u a 0x65 f t i ∧ i.act =
      List.range 32 ∧ launchTroupes u t.queue t.index t.die t.cluster = [t] ∧ (∀ x ∈ t.threads, x.exited = false)) ∧
    (∃ (s : State) (u : State) (a : Issue) (f : BitVec 56) (t : Troupe) (i : Iss), Issues s u a 0xA5 f t i ∧ i.act ≠
      []) ∧
    (∃ (s : State) (a : SlotAt) (t : Troupe), a.die < dieCount s.orderCode ∧ findTroupe s a = some t ∧ t.fresh = true
      ∧ (t.convergeDue = true → t.yields = true)) ∧
    (∃ (s : State) (a : SlotAt) (t : Troupe), a.die < dieCount s.orderCode ∧ findTroupe s a = some t ∧ t.fresh = true
      ∧ (t.convergeDue = true → t.yields = true)) ∧
    (∃ (s : State) (a : SlotAt) (t : Troupe), a.die < dieCount s.orderCode ∧ findTroupe s a = some t ∧ t.fresh = true
      ∧ (t.convergeDue = true → t.yields = true) ∧ t.yields = true) ∧
    (∃ (s : State) (a : SlotAt) (t : Troupe) (x : Thread), a.die < dieCount s.orderCode ∧ findTroupe s a = some t ∧
      t.fresh = true ∧ (t.convergeDue = true → t.yields = true) ∧ t.yields = false ∧ oldestParked t.threads = some x) :=
  ⟨⟨(running [half]), (fetched (running [half]) half), core0, guarded (fields []), half, (issue (running [half]) half
     99 (guarded (fields []))), .converge core0 (guarded (fields [])), 99, (fun x =>
     { x with parked := some .converge, parkedAt := ((issue (running [half]) half 99 (guarded (fields [])))).t.issuedAt.getD 0 }),
     List.Mem.head _, by decide +kernel, 1, _, by decide +kernel, rfl, rfl, rfl⟩,
   ⟨(running [troupe]), (fetched (running [troupe]) troupe), core0, fields [], troupe, (issue (running [troupe])
     troupe 99 (fields [])), by decide +kernel⟩,
   ⟨(running [troupe]), (fetched (running [troupe]) troupe), core0, fields [(19, 15)], troupe, (issue (running
     [troupe]) troupe 101 (fields [(19, 15)])), by decide +kernel⟩,
   ⟨(running [troupe]), (fetched (running [troupe]) troupe), core0, fields [(32, 9)], troupe, (issue (running
     [troupe]) troupe 165 (fields [(32, 9)])), by decide +kernel⟩,
   ⟨running [{ troupe with asleep := true }], slot0, { troupe with asleep := true }, by decide +kernel⟩,
   ⟨running [yielders], ⟨0, 0, 0, 0⟩, yielders, by decide +kernel⟩,
   ⟨running [yielders], slot0, yielders, by decide +kernel⟩,
   ⟨running [parkers], slot0, parkers, ⟨0x50000, false, some .converge, 3, false, 0⟩, by decide +kernel⟩⟩

theorem witness_LoadsStoresAndAtomics :
    (∃ (s : State) (u : State) (u2 : State) (u3 : State) (a : Issue) (f : BitVec 56) (t : Troupe) (i : Iss) (n : Nat)
      (pa : Nat) (v : SectorData) (c : Instr) (op : Nat), (c, op) ∈ [(Instr.ld a f, 0x40), (Instr.ldAcq a f, 0x42)] ∧
      Issues s u a op f t i ∧ OneLane u u2 i n (memAddr i n) pa .load ∧ loadSector i.t (fHint i.w) (fFill i.w) (op ==
      0x42 && fScope i.w != 0) pa u2 = some (.ok v false, u3) ∧ findTroupe u3 t.at_ = some t) ∧
    (∃ (s : State) (u : State) (u2 : State) (u3 : State) (a : Issue) (f : BitVec 56) (t : Troupe) (i : Iss) (pa : Nat)
      (v : SectorData), Issues s u a 0x46 f t i ∧ i.act ≠ [] ∧ ofSigned 64 ((t.pair (fSB i.w) : Int) + immOff i.w) %
      sizeBytes (fSize i.w) = 0 ∧ translate i.t.xby (ofSigned 64 ((t.pair (fSB i.w) : Int) + immOff i.w)) .load u =
      some (.pa pa, u2) ∧ loadSector i.t (fHint i.w) (fFill i.w) false pa u2 = some (.ok v false, u3) ∧ findTroupe u3
      t.at_ = some t) ∧
    (∃ (s : State) (u : State) (u2 : State) (u3 : State) (a : Issue) (f : BitVec 56) (t : Troupe) (i : Iss) (pa : Nat)
      (v : SectorData), Issues s u a 0x46 f t i ∧ i.act ≠ [] ∧ ofSigned 64 ((t.pair (fSB i.w) : Int) + immOff i.w) %
      sizeBytes (fSize i.w) = 0 ∧ translate i.t.xby (ofSigned 64 ((t.pair (fSB i.w) : Int) + immOff i.w)) .load u =
      some (.pa pa, u2) ∧ loadSector i.t (fHint i.w) (fFill i.w) false pa u2 = some (.ok v false, u3) ∧ findTroupe u3
      t.at_ = some t) ∧
    (∃ (s : State) (u : State) (a : Issue) (f : BitVec 56) (t : Troupe) (i : Iss), Issues s u a 0x47 f t i ∧
      findTroupe (i.act.foldl (prefLane i) u) t.at_ = some t) ∧
    (∃ (s : State) (u : State) (u2 : State) (u3 : State) (a : Issue) (f : BitVec 56) (t : Troupe) (i : Iss) (n : Nat)
      (pa : Nat) (v : SectorData) (p : Bool) (c : Instr) (op : Nat), (c, op) ∈ [(Instr.st a f, 0x41), (Instr.stRel a
      f, 0x43)] ∧ Issues s u a op f t i ∧ OneLane u u2 i n (memAddr i n) pa .store ∧ accWrite (t.acc (fHint i.w)
      (fFill i.w)) (pa / 32 * 32) (byteMask (pa % 32) (sizeBytes (fSize i.w))) (BitVec.ofNat 256 (readGroup t n (fD
      i.w) (sizeRegs (fSize i.w)) % 256 ^ sizeBytes (fSize i.w) * 256 ^ (pa % 32))) u2 = some (.ok v p, u3) ∧
      findTroupe u3 t.at_ = some t) ∧
    (∃ (s : State) (u : State) (u2 : State) (u3 : State) (a : Issue) (f : BitVec 56) (t : Troupe) (i : Iss) (n : Nat)
      (pa : Nat) (v : SectorData) (c : Instr) (op : Nat) (g : Iss → Nat) (ar : Bool), (c, op, g, ar) ∈ [(Instr.atom a
      f, 0x48, intOp, false), (Instr.atomAr a f, 0x49, intOp, true), (Instr.atomf a f, 0x4A, fpOp, false),
      (Instr.atomfAr a f, 0x4B, fpOp, true)] ∧ Issues s u a op f t i ∧ OneLane u u2 i n (memAddr i n) pa .store ∧
      accAtomic (t.acc (fHint i.w) (fFill i.w)) pa (atomSector (pa % 32) (g i) (Nat.beq (fSize i.w) 3) (fSext i.w)
      (readGroup t n (fD i.w) (sizeRegs (fSize i.w))) (readGroup t n (fD i.w + sizeRegs (fSize i.w)) (sizeRegs (fSize
      i.w)))) u2 = some (.ok v false, u3) ∧ findTroupe u3 t.at_ = some t) :=
  ⟨⟨(running [lane0]), (fetched (running [lane0]) lane0), (afterXlat (fetched (running [lane0]) lane0) (issue (running
     [lane0]) lane0 64 (fields [(12, 8), (19, 1), (32, 0), (35, 1), (38, 1)])) (memAddr (issue (running [lane0]) lane0
     64 (fields [(12, 8), (19, 1), (32, 0), (35, 1), (38, 1)])) 0) .load), (after (loadSector ((issue (running
     [lane0]) lane0 64 (fields [(12, 8), (19, 1), (32, 0), (35, 1), (38, 1)]))).t (fHint ((issue (running [lane0])
     lane0 64 (fields [(12, 8), (19, 1), (32, 0), (35, 1), (38, 1)]))).w) (fFill ((issue (running [lane0]) lane0 64
     (fields [(12, 8), (19, 1), (32, 0), (35, 1), (38, 1)]))).w) false 0x20000 (afterXlat (fetched (running [lane0])
     lane0) (issue (running [lane0]) lane0 64 (fields [(12, 8), (19, 1), (32, 0), (35, 1), (38, 1)])) (memAddr (issue
     (running [lane0]) lane0 64 (fields [(12, 8), (19, 1), (32, 0), (35, 1), (38, 1)])) 0) .load)) (fetched (running
     [lane0]) lane0)), core0, fields [(12, 8), (19, 1), (32, 0), (35, 1), (38, 1)], lane0, (issue (running [lane0])
     lane0 64 (fields [(12, 8), (19, 1), (32, 0), (35, 1), (38, 1)])), 0, 0x20000, (BitVec.ofNat 256 (0x81828384 + 77
     * 2 ^ 32)), .ld core0 (fields [(12, 8), (19, 1), (32, 0), (35, 1), (38, 1)]), 64, by decide +kernel⟩,
   ⟨(running [troupe]), (fetched (running [troupe]) troupe), (afterXlat (fetched (running [troupe]) troupe) (issue
     (running [troupe]) troupe 70 (fields [(12, 8), (19, 1), (32, 2)])) (ofSigned 64 ((((issue (running [troupe])
     troupe 70 (fields [(12, 8), (19, 1), (32, 2)]))).t.pair (fSB ((issue (running [troupe]) troupe 70 (fields [(12,
     8), (19, 1), (32, 2)]))).w) : Int) + immOff ((issue (running [troupe]) troupe 70 (fields [(12, 8), (19, 1), (32,
     2)]))).w)) .load), (after (loadSector ((issue (running [troupe]) troupe 70 (fields [(12, 8), (19, 1), (32,
     2)]))).t (fHint ((issue (running [troupe]) troupe 70 (fields [(12, 8), (19, 1), (32, 2)]))).w) (fFill ((issue
     (running [troupe]) troupe 70 (fields [(12, 8), (19, 1), (32, 2)]))).w) false 0x20000 (afterXlat (fetched (running
     [troupe]) troupe) (issue (running [troupe]) troupe 70 (fields [(12, 8), (19, 1), (32, 2)])) (ofSigned 64
     ((((issue (running [troupe]) troupe 70 (fields [(12, 8), (19, 1), (32, 2)]))).t.pair (fSB ((issue (running
     [troupe]) troupe 70 (fields [(12, 8), (19, 1), (32, 2)]))).w) : Int) + immOff ((issue (running [troupe]) troupe
     70 (fields [(12, 8), (19, 1), (32, 2)]))).w)) .load)) (fetched (running [troupe]) troupe)), core0, fields [(12,
     8), (19, 1), (32, 2)], troupe, (issue (running [troupe]) troupe 70 (fields [(12, 8), (19, 1), (32, 2)])),
     0x20000, (BitVec.ofNat 256 (0x81828384 + 77 * 2 ^ 32)), by decide +kernel⟩,
   ⟨(running [troupe]), (fetched (running [troupe]) troupe), (afterXlat (fetched (running [troupe]) troupe) (issue
     (running [troupe]) troupe 70 (fields [(12, 8), (19, 1), (32, 3)])) (ofSigned 64 ((((issue (running [troupe])
     troupe 70 (fields [(12, 8), (19, 1), (32, 3)]))).t.pair (fSB ((issue (running [troupe]) troupe 70 (fields [(12,
     8), (19, 1), (32, 3)]))).w) : Int) + immOff ((issue (running [troupe]) troupe 70 (fields [(12, 8), (19, 1), (32,
     3)]))).w)) .load), (after (loadSector ((issue (running [troupe]) troupe 70 (fields [(12, 8), (19, 1), (32,
     3)]))).t (fHint ((issue (running [troupe]) troupe 70 (fields [(12, 8), (19, 1), (32, 3)]))).w) (fFill ((issue
     (running [troupe]) troupe 70 (fields [(12, 8), (19, 1), (32, 3)]))).w) false 0x20000 (afterXlat (fetched (running
     [troupe]) troupe) (issue (running [troupe]) troupe 70 (fields [(12, 8), (19, 1), (32, 3)])) (ofSigned 64
     ((((issue (running [troupe]) troupe 70 (fields [(12, 8), (19, 1), (32, 3)]))).t.pair (fSB ((issue (running
     [troupe]) troupe 70 (fields [(12, 8), (19, 1), (32, 3)]))).w) : Int) + immOff ((issue (running [troupe]) troupe
     70 (fields [(12, 8), (19, 1), (32, 3)]))).w)) .load)) (fetched (running [troupe]) troupe)), core0, fields [(12,
     8), (19, 1), (32, 3)], troupe, (issue (running [troupe]) troupe 70 (fields [(12, 8), (19, 1), (32, 3)])),
     0x20000, (BitVec.ofNat 256 (0x81828384 + 77 * 2 ^ 32)), by decide +kernel⟩,
   ⟨(running [lane0]), (fetched (running [lane0]) lane0), core0, fields [(19, 1), (32, 2), (24, 4), (31, 0)], lane0,
     (issue (running [lane0]) lane0 71 (fields [(19, 1), (32, 2), (24, 4), (31, 0)])), by decide +kernel⟩,
   ⟨(running [lane0]), (fetched (running [lane0]) lane0), (afterXlat (fetched (running [lane0]) lane0) (issue (running
     [lane0]) lane0 65 (fields [(12, 4), (19, 1), (32, 0)])) (memAddr (issue (running [lane0]) lane0 65 (fields [(12,
     4), (19, 1), (32, 0)])) 0) .store), (after (accWrite ((lane0).acc (fHint ((issue (running [lane0]) lane0 65
     (fields [(12, 4), (19, 1), (32, 0)]))).w) (fFill ((issue (running [lane0]) lane0 65 (fields [(12, 4), (19, 1),
     (32, 0)]))).w)) 0x20000 (byteMask 0 (sizeBytes (fSize ((issue (running [lane0]) lane0 65 (fields [(12, 4), (19,
     1), (32, 0)]))).w))) (BitVec.ofNat 256 (readGroup lane0 0 (fD ((issue (running [lane0]) lane0 65 (fields [(12,
     4), (19, 1), (32, 0)]))).w) (sizeRegs (fSize ((issue (running [lane0]) lane0 65 (fields [(12, 4), (19, 1), (32,
     0)]))).w)) % 256 ^ sizeBytes (fSize ((issue (running [lane0]) lane0 65 (fields [(12, 4), (19, 1), (32, 0)]))).w)
     * 1)) (afterXlat (fetched (running [lane0]) lane0) (issue (running [lane0]) lane0 65 (fields [(12, 4), (19, 1),
     (32, 0)])) (memAddr (issue (running [lane0]) lane0 65 (fields [(12, 4), (19, 1), (32, 0)])) 0) .store)) (fetched
     (running [lane0]) lane0)), core0, fields [(12, 4), (19, 1), (32, 0)], lane0, (issue (running [lane0]) lane0 65
     (fields [(12, 4), (19, 1), (32, 0)])), 0, 0x20000, 0, false, .st core0 (fields [(12, 4), (19, 1), (32, 0)]), 65,
     by decide +kernel⟩,
   ⟨(running [lane0]), (fetched (running [lane0]) lane0), (afterXlat (fetched (running [lane0]) lane0) (issue (running
     [lane0]) lane0 72 (fields [(12, 4), (19, 1), (32, 2), (39, 0)])) (memAddr (issue (running [lane0]) lane0 72
     (fields [(12, 4), (19, 1), (32, 2), (39, 0)])) 0) .store), (after (accAtomic (lane0.acc (fHint ((issue (running
     [lane0]) lane0 72 (fields [(12, 4), (19, 1), (32, 2), (39, 0)]))).w) (fFill ((issue (running [lane0]) lane0 72
     (fields [(12, 4), (19, 1), (32, 2), (39, 0)]))).w)) 0x20000 (atomSector 0 (intOp (issue (running [lane0]) lane0
     72 (fields [(12, 4), (19, 1), (32, 2), (39, 0)]))) (Nat.beq (fSize ((issue (running [lane0]) lane0 72 (fields
     [(12, 4), (19, 1), (32, 2), (39, 0)]))).w) 3) (fSext ((issue (running [lane0]) lane0 72 (fields [(12, 4), (19,
     1), (32, 2), (39, 0)]))).w) (readGroup lane0 0 (fD ((issue (running [lane0]) lane0 72 (fields [(12, 4), (19, 1),
     (32, 2), (39, 0)]))).w) (sizeRegs (fSize ((issue (running [lane0]) lane0 72 (fields [(12, 4), (19, 1), (32, 2),
     (39, 0)]))).w))) (readGroup lane0 0 (fD ((issue (running [lane0]) lane0 72 (fields [(12, 4), (19, 1), (32, 2),
     (39, 0)]))).w + sizeRegs (fSize ((issue (running [lane0]) lane0 72 (fields [(12, 4), (19, 1), (32, 2), (39,
     0)]))).w)) (sizeRegs (fSize ((issue (running [lane0]) lane0 72 (fields [(12, 4), (19, 1), (32, 2), (39,
     0)]))).w)))) (afterXlat (fetched (running [lane0]) lane0) (issue (running [lane0]) lane0 72 (fields [(12, 4),
     (19, 1), (32, 2), (39, 0)])) (memAddr (issue (running [lane0]) lane0 72 (fields [(12, 4), (19, 1), (32, 2), (39,
     0)])) 0) .store)) (fetched (running [lane0]) lane0)), core0, fields [(12, 4), (19, 1), (32, 2), (39, 0)], lane0,
     (issue (running [lane0]) lane0 72 (fields [(12, 4), (19, 1), (32, 2), (39, 0)])), 0, 0x20000, (BitVec.ofNat 256
     (0x81828384 + 77 * 2 ^ 32)), .atom core0 (fields [(12, 4), (19, 1), (32, 2), (39, 0)]), 72, intOp, false,
     List.Mem.head _, by decide +kernel⟩⟩

theorem witness_LocalFencesReductionsAndKv_1 :
    (∃ (s : State) (u : State) (a : Issue) (f : BitVec 56) (t : Troupe) (i : Iss) (n : Nat) (x : LocalStore), Issues s
      u a 0x44 f t i ∧ i.act = [n] ∧ localAddr i n % sizeBytes (fSize i.w) = 0 ∧ localAddr i n < storeBytes u t ∧
      findStore u t = some x) ∧
    (∃ (s : State) (u : State) (a : Issue) (f : BitVec 56) (t : Troupe) (i : Iss) (n : Nat) (x : LocalStore), Issues s
      u a 0x44 f t i ∧ i.act = [n] ∧ localAddr i n % sizeBytes (fSize i.w) = 0 ∧ localAddr i n < storeBytes u t ∧
      findStore u t = some x) ∧
    (∃ (s : State) (u : State) (a : Issue) (f : BitVec 56) (t : Troupe) (i : Iss) (n : Nat) (x : LocalStore), Issues s
      u a 0x45 f t i ∧ i.act = [n] ∧ localAddr i n % sizeBytes (fSize i.w) = 0 ∧ localAddr i n < storeBytes u t ∧
      findStore u t = some x) ∧
    (∃ (s : State) (u : State) (a : Issue) (f : BitVec 56) (t : Troupe) (i : Iss) (n : Nat) (x : LocalStore), Issues s
      u a 0x45 f t i ∧ i.act = [n] ∧ localAddr i n % sizeBytes (fSize i.w) = 0 ∧ localAddr i n < storeBytes u t ∧
      findStore u t = some x) ∧
    (∃ (s : State) (u : State) (a : Issue) (f : BitVec 56) (t : Troupe) (i : Iss) (n : Nat) (x : LocalStore), Issues s
      u a 0x4C f t i ∧ i.act = [n] ∧ localAddr i n % sizeBytes (fSize i.w) = 0 ∧ localAddr i n < storeBytes u t ∧
      findStore u t = some x) ∧
    (∃ (s : State) (u : State) (a : Issue) (f : BitVec 56) (t : Troupe) (i : Iss) (n : Nat) (x : LocalStore), Issues s
      u a 0x4C f t i ∧ i.act = [n] ∧ localAddr i n % sizeBytes (fSize i.w) = 0 ∧ localAddr i n < storeBytes u t ∧
      findStore u t = some x) ∧
    (∃ (s : State) (u : State) (a : Issue) (f : BitVec 56) (t : Troupe) (i : Iss), Issues s u a 0x4D f t i ∧ i.act ≠
      []) ∧
    (∃ (s : State) (u : State) (a : Issue) (f : BitVec 56) (t : Troupe) (i : Iss), Issues s u a 0x4D f t i ∧ i.act ≠
      []) :=
  ⟨⟨(running [lane0]), (fetched (running [lane0]) lane0), core0, fields [(12, 8), (44, 8), (32, 2), (35, 0)], lane0,
     (issue (running [lane0]) lane0 68 (fields [(12, 8), (44, 8), (32, 2), (35, 0)])), 0, ⟨3, 0, 0, 0, [(8, 0xFE), (9,
     1)], []⟩, by decide +kernel⟩,
   ⟨(running [lane0]), (fetched (running [lane0]) lane0), core0, fields [(12, 8), (44, 8), (32, 0), (35, 1)], lane0,
     (issue (running [lane0]) lane0 68 (fields [(12, 8), (44, 8), (32, 0), (35, 1)])), 0, ⟨3, 0, 0, 0, [(8, 0xFE), (9,
     1)], []⟩, by decide +kernel⟩,
   ⟨(running [lane0]), (fetched (running [lane0]) lane0), core0, fields [(12, 4), (44, 8), (32, 2)], lane0, (issue
     (running [lane0]) lane0 69 (fields [(12, 4), (44, 8), (32, 2)])), 0, ⟨3, 0, 0, 0, [(8, 0xFE), (9, 1)], []⟩,
     by decide +kernel⟩,
   ⟨(running [lane0]), (fetched (running [lane0]) lane0), core0, fields [(12, 4), (44, 16), (32, 4)], lane0, (issue
     (running [lane0]) lane0 69 (fields [(12, 4), (44, 16), (32, 4)])), 0, ⟨3, 0, 0, 0, [(8, 0xFE), (9, 1)], []⟩,
     by decide +kernel⟩,
   ⟨(running [lane0]), (fetched (running [lane0]) lane0), core0, fields [(12, 4), (44, 8), (32, 2), (39, 0)], lane0,
     (issue (running [lane0]) lane0 76 (fields [(12, 4), (44, 8), (32, 2), (39, 0)])), 0, ⟨3, 0, 0, 0, [(8, 0xFE), (9,
     1)], []⟩, by decide +kernel⟩,
   ⟨(running [lane0]), (fetched (running [lane0]) lane0), core0, fields [(12, 4), (44, 8), (32, 3), (39, 7)], lane0,
     (issue (running [lane0]) lane0 76 (fields [(12, 4), (44, 8), (32, 3), (39, 7)])), 0, ⟨3, 0, 0, 0, [(8, 0xFE), (9,
     1)], []⟩, by decide +kernel⟩,
   ⟨(running [troupe]), (fetched (running [troupe]) troupe), core0, fields [(42, 0)], troupe, (issue (running
     [troupe]) troupe 77 (fields [(42, 0)])), by decide +kernel⟩,
   ⟨(running [troupe]), (fetched (running [troupe]) troupe), core0, fields [(42, 2)], troupe, (issue (running
     [troupe]) troupe 77 (fields [(42, 2)])), by decide +kernel⟩⟩

theorem witness_LocalFencesReductionsAndKv_2 :
    (∃ (s : State) (u : State) (a : Issue) (f : BitVec 56) (t : Troupe) (i : Iss), Issues s u a 0xA4 f t i ∧ i.act ≠
      []) ∧
    (∃ (s : State) (u : State) (u2 : State) (a : Issue) (f : BitVec 56) (t : Troupe) (i : Iss) (n : Nat) (pa : Nat),
      Issues s u a 0x4E f t i ∧ i.act = [n] ∧ redAddr i n % 4 = 0 ∧ translate i.t.xby (redAddr i n) .store u = some
      (.pa pa, u2) ∧ treeOf u2 t.part (fImm20 i.w % 4096) = none ∧ findTroupe u2 t.at_ = some t) ∧
    (∃ (s : State) (u : State) (u1 : State) (u2 : State) (u3 : State) (a : Issue) (f : BitVec 56) (t : Troupe) (i :
      Iss) (n : Nat) (va : Nat) (pa : Nat) (v : SectorData), Issues s u a 0x4F f t i ∧ kvBacksOff u t = false ∧ i.act
      = [n] ∧ kvAddr i false n u = some (.va va, u1) ∧ va % sizeBytes (fSize i.w) = 0 ∧ translate i.t.xby va .load
      (unholdKv i.t u1) = some (.pa pa, u2) ∧ loadSector i.t (fHint i.w) (fFill i.w) false pa u2 = some (.ok v false,
      u3) ∧ findTroupe u3 t.at_ = some t) ∧
    (∃ (s : State) (u : State) (u1 : State) (a : Issue) (f : BitVec 56) (t : Troupe) (i : Iss) (n : Nat) (b : Nat),
      Issues s u a 0x4F f t i ∧ kvBacksOff u t = false ∧ i.act = [n] ∧ kvAddr i false n u = some (.held b, u1) ∧
      u1.core = u.core ∧ (u1.que.heldKv.filter (fun h => Nat.beq (h.seq / 256) (t.pair (fSB i.w) % 2 ^ 14 /
      256))).length < 1024) ∧
    (∃ (s : State) (u : State) (u1 : State) (a : Issue) (f : BitVec 56) (t : Troupe) (i : Iss) (n : Nat) (b : Nat),
      Issues s u a 0x4F f t i ∧ kvBacksOff u t = false ∧ i.act = [n] ∧ kvAddr i false n u = some (.held b, u1) ∧
      u1.core = u.core ∧ 1024 ≤ (u1.que.heldKv.filter (fun h => Nat.beq (h.seq / 256) (t.pair (fSB i.w) % 2 ^ 14 /
      256))).length ∧ (∀ h ∈ u1.que.heldKv, h.slot ≠ t.at_)) ∧
    (∃ (s : State) (u : State) (a : Issue) (f : BitVec 56) (t : Troupe) (i : Iss), kvBacksOff u t = true ∧ Issues s u
      a 0x4F f t i) ∧
    (∃ (s : State) (u : State) (a : Issue) (f : BitVec 56) (t : Troupe) (i : Iss), kvBacksOff u t = true ∧ Issues s u
      a 0x50 f t i) ∧
    (∃ (s : State) (u : State) (u1 : State) (u2 : State) (u3 : State) (a : Issue) (f : BitVec 56) (t : Troupe) (i :
      Iss) (n : Nat) (va : Nat) (pa : Nat) (v : SectorData) (p : Bool), Issues s u a 0x50 f t i ∧ kvBacksOff u t =
      false ∧ i.act = [n] ∧ kvAddr i true n u = some (.va va, u1) ∧ va % sizeBytes (fSize i.w) = 0 ∧ translate i.t.xby
      va .store (unholdKv i.t u1) = some (.pa pa, u2) ∧ accWrite (t.acc (fHint i.w) (fFill i.w)) (pa / 32 * 32)
      (byteMask (pa % 32) (sizeBytes (fSize i.w))) (BitVec.ofNat 256 (readGroup t n (fD i.w) (sizeRegs (fSize i.w)) %
      256 ^ sizeBytes (fSize i.w) * 256 ^ (pa % 32))) u2 = some (.ok v p, u3) ∧ findTroupe u3 t.at_ = some t) :=
  ⟨⟨(running [troupe]), (fetched (running [troupe]) troupe), core0, fields [], troupe, (issue (running [troupe])
     troupe 164 (fields [])), by decide +kernel⟩,
   ⟨(running [lane0]), (fetched (running [lane0]) lane0), (afterXlat (fetched (running [lane0]) lane0) (issue (running
     [lane0]) lane0 78 (fields [(12, 4), (19, 1), (32, 2), (44, 3)])) (redAddr (issue (running [lane0]) lane0 78
     (fields [(12, 4), (19, 1), (32, 2), (44, 3)])) 0) .store), core0, fields [(12, 4), (19, 1), (32, 2), (44, 3)],
     lane0, (issue (running [lane0]) lane0 78 (fields [(12, 4), (19, 1), (32, 2), (44, 3)])), 0, 0x20000,
     by decide +kernel⟩,
   ⟨(kv [] []), (fetched (kv [] []) lane0), (after (kvAddr (issue (kv [] []) lane0 79 kvF) false 0 (fetched (kv [] [])
     lane0)) (fetched (kv [] []) lane0)), (afterXlat (unholdKv ((issue (kv [] []) lane0 79 kvF)).t (after (kvAddr
     (issue (kv [] []) lane0 79 kvF) false 0 (fetched (kv [] []) lane0)) (fetched (kv [] []) lane0))) (issue (kv []
     []) lane0 79 kvF) 0x20005 .load), (after (loadSector ((issue (kv [] []) lane0 79 kvF)).t (fHint ((issue (kv []
     []) lane0 79 kvF)).w) (fFill ((issue (kv [] []) lane0 79 kvF)).w) false 0x20005 (afterXlat (unholdKv ((issue (kv
     [] []) lane0 79 kvF)).t (after (kvAddr (issue (kv [] []) lane0 79 kvF) false 0 (fetched (kv [] []) lane0))
     (fetched (kv [] []) lane0))) (issue (kv [] []) lane0 79 kvF) 0x20005 .load)) (fetched (kv [] []) lane0)), core0,
     kvF, lane0, (issue (kv [] []) lane0 79 kvF), 0, 0x20005, 0x20005, (BitVec.ofNat 256 (0x81828384 + 77 * 2 ^ 32)),
     by decide +kernel⟩,
   ⟨(kv [{ step0 with step := 0xFFFFFFFF }] []), (fetched (kv [{ step0 with step := 0xFFFFFFFF }] []) lane0), (after
     (kvAddr (issue (kv [{ step0 with step := 0xFFFFFFFF }] []) lane0 79 kvF) false 0 (fetched (kv
     [{ step0 with step := 0xFFFFFFFF }] []) lane0)) (fetched (kv [{ step0 with step := 0xFFFFFFFF }] []) lane0)),
     core0, kvF, lane0, (issue (kv [{ step0 with step := 0xFFFFFFFF }] []) lane0 79 kvF), 0, 0, by decide +kernel⟩,
   ⟨kvFull, (fetched kvFull lane0), (after (kvAddr (issue kvFull lane0 79 kvF) false 0 (fetched kvFull lane0))
     (fetched kvFull lane0)), core0, kvF, lane0, (issue kvFull lane0 79 kvF), 0, 0, by decide +kernel⟩,
   ⟨kvBusy, (fetched kvBusy lane0), core0, kvF, lane0, (issue kvBusy lane0 79 kvF), by decide +kernel⟩,
   ⟨kvBusy, (fetched kvBusy lane0), core0, kvG, lane0, (issue kvBusy lane0 80 kvG), by decide +kernel⟩,
   ⟨(kv [step0] [2]), (fetched (kv [step0] [2]) lane0), (after (kvAddr (issue (kv [step0] [2]) lane0 80 kvG) true 0
     (fetched (kv [step0] [2]) lane0)) (fetched (kv [step0] [2]) lane0)), (afterXlat (unholdKv ((issue (kv [step0]
     [2]) lane0 80 kvG)).t (after (kvAddr (issue (kv [step0] [2]) lane0 80 kvG) true 0 (fetched (kv [step0] [2])
     lane0)) (fetched (kv [step0] [2]) lane0))) (issue (kv [step0] [2]) lane0 80 kvG) 0x20005 .store), (after
     (accWrite (lane0.acc (fHint ((issue (kv [step0] [2]) lane0 80 kvG)).w) (fFill ((issue (kv [step0] [2]) lane0 80
     kvG)).w)) 0x20000 (byteMask 5 1) (BitVec.ofNat 256 (readGroup lane0 0 (fD ((issue (kv [step0] [2]) lane0 80
     kvG)).w) (sizeRegs (fSize ((issue (kv [step0] [2]) lane0 80 kvG)).w)) % 256 ^ 1 * 256 ^ 5)) (afterXlat (unholdKv
     ((issue (kv [step0] [2]) lane0 80 kvG)).t (after (kvAddr (issue (kv [step0] [2]) lane0 80 kvG) true 0 (fetched
     (kv [step0] [2]) lane0)) (fetched (kv [step0] [2]) lane0))) (issue (kv [step0] [2]) lane0 80 kvG) 0x20005
     .store)) (fetched (kv [step0] [2]) lane0)), core0, kvG, lane0, (issue (kv [step0] [2]) lane0 80 kvG), 0, 0x20005,
     0x20005, 0, false, by decide +kernel⟩⟩

theorem witness_TroupesStart :
    (∃ (s : State) (d : Nat) (c : Nat) (core : Nat) (i : Nat) (l : Launch), d < dieCount s.orderCode ∧ clusterStopped
      s d c = false ∧ nextLaunch s (d * 320 + c) = some (l, core, i) ∧ findLaunch s l.queue l.index = some l) ∧
    (∃ (s : State) (d : Nat) (c : Nat), d < dieCount s.orderCode ∧ nextLaunch s (d * 320 + c) = none) ∧
    (∃ (s : State) (l : Launch) (k : Nat) (core : Nat) (i : Nat) (t : Troupe), l.inline.length = 7 ∧ t = newTroupe s l
      k core i) ∧
    (∃ (s : State) (l : Launch) (k : Nat) (core : Nat) (i : Nat) (t : Troupe) (j : Nat) (x : Lane), l.inline.length =
      7 ∧ t = newTroupe s l k core i ∧ l.inline[j]? = some x) ∧
    (∃ (s : State) (l : Launch) (k : Nat) (core : Nat) (i : Nat) (t : Troupe) (n : Nat), l.inline.length = 7 ∧ t =
      newTroupe s l k core i ∧ 13 ≤ n) :=
  ⟨⟨placing, 0, 0, 0, 0, dispatched, by decide +kernel⟩,
   ⟨live, 0, 5, by decide +kernel⟩,
   ⟨live, launched, 0, 0, 3, newTroupe live launched 0 0 3, by decide +kernel⟩,
   ⟨live, launched, 0, 0, 3, newTroupe live launched 0 0 3, 6, 9, by decide +kernel⟩,
   ⟨live, launched, 0, 0, 3, newTroupe live launched 0 0 3, 13, by decide +kernel⟩⟩

theorem witness_TroupesEnd :
    (∃ (s : State) (a : SlotAt) (x : Troupe) (l : Launch), a.die < dieCount s.orderCode ∧ findTroupe s a = some x ∧
      x.rest = [] ∧ findLaunch s x.queue x.index = some l) ∧
    (∃ (s : State) (a : SlotAt) (x : Troupe), a.die < dieCount s.orderCode ∧ findTroupe s a = some x ∧ x.rest ≠ []) ∧
    (∃ (s : State) (q : Nat) (id : Nat) (i : Word) (l : Launch) (x : SeqSlot), queDie q < dieCount s.orderCode ∧
      findLaunch s q i = some l ∧ allEnded l = true ∧ l.attached = [id] ∧ findSeq s id = some x) ∧
    (∃ (s : State) (q : Nat) (i : Word) (l : Launch), queDie q < dieCount s.orderCode ∧ findLaunch s q i = some l ∧
      allEnded l = true) ∧
    (∃ (s : State) (d : Nat) (p : Nat), d < dieCount s.orderCode ∧ dieIn s p d = true) ∧
    (∃ (s : State) (d : Nat) (c : Nat), d < dieCount s.orderCode ∧ c < 320) ∧
    (∃ (s : State) (d : Nat) (c : Nat), d < dieCount s.orderCode ∧ c < 320) :=
  ⟨⟨running [{ lane0 with threads := lane0.threads.map (fun x => { x with exited := true }) }], slot0, { lane0 with
     threads := lane0.threads.map (fun x => { x with exited := true }) }, launched, by decide +kernel⟩,
   ⟨running [lane0], slot0, lane0, by decide +kernel⟩,
   ⟨endedS, 3, 2, 0, ended, { seqSlot with recs := [{ openStep with step := 0, lcnt := 1 }] }, by decide +kernel⟩,
   ⟨endedS, 3, 0, ended, by decide +kernel⟩,
   ⟨running [troupe], 0, 5, by decide +kernel⟩,
   ⟨live, 0, 319, by decide +kernel⟩,
   ⟨running [troupe], 0, 0, by decide +kernel⟩⟩

theorem witness_LoadsPrepare :
    (∃ (s : State) (b : List Byte) (i : Image), s.rack.rmUp = true ∧ s.img.load = none ∧ checkImage (each (loadAgents
      s) (fun s a => imgCmd 1 a s) s) b = .ok i) ∧
    (∃ (s : State), s.rack.rmUp = true ∧ s.img.load.isSome = true) ∧
    (∃ (s : State) (l : Load), loadRun s (fun p => p == .checked) = some l) ∧
    (∃ (s : State) (l : Load) (d : Nat), loadRun s (fun p => p == .checked) = some l ∧ l.agents.contains d = true) ∧
    (∃ (s : State) (l : Load), loadRun s (fun p => p == .staged) = some l) ∧
    (∃ (s : State) (l : Load), loadRun s (fun p => p == .quiescing) = some l ∧ (loadTargets s l).all (partIdle s) =
      true) ∧
    (∃ (s : State) (l : Load) (p : Nat), s.rack.rmUp = true ∧ s.img.load = some l ∧ l.phase = .quiescing ∧ p ∈
      loadTargets s l ∧ partIdle s p = false) ∧
    (∃ (s : State) (l : Load), s.rack.rmUp = true ∧ s.img.load = some l ∧ l.phase ≠ .committing ∧ l.phase ≠ .released) :=
  ⟨⟨loadable, imageFile, fileImage, by decide +kernel⟩,
   ⟨loading (load .staged), by decide +kernel⟩,
   ⟨loading (load .checked), load .checked, by decide +kernel⟩,
   ⟨loading (load .checked), load .checked, 0, by decide +kernel⟩,
   ⟨loading (load .staged), load .staged, by decide +kernel⟩,
   ⟨loading (load .quiescing), load .quiescing, by decide +kernel⟩,
   ⟨{ (loading (load .quiescing)) with que := { live.que with movers := [mover mregs0] } }, load .quiescing, 5,
     by decide +kernel⟩,
   ⟨loading (load .quiesced), load .quiesced, by decide +kernel⟩⟩

theorem witness_LoadsCommit :
    (∃ (s : State) (l : Load) (a : Nat) (time : Word), loadRun s (fun p => p == .quiesced) = some l ∧
      l.agents.contains a = true ∧ l.armed.contains a = false ∧ time.toNat < s.recs.rmRtime + 100000) ∧
    (∃ (s : State) (l : Load) (a : Nat) (time : Word), loadRun s (fun p => p == .quiesced) = some l ∧
      l.agents.contains a = true ∧ l.armed.contains a = false ∧ s.recs.rmRtime + 100000 ≤ time.toNat ∧ agentTime s l a
      < time.toNat) ∧
    (∃ (s : State) (l : Load) (a : Nat) (b : Nat) (serial : Word) (time : Word), s.img.load = some l ∧
      l.armed.contains b = true ∧ l.agents.contains a = true ∧ l.armed.contains a = false ∧ serial.toNat =
      l.img.serial ∧ time.toNat = l.commitTime ∧ agentTime s l a < l.commitTime) ∧
    (∃ (s : State) (l : Load) (a : Nat), s.img.load = some l ∧ agentTime s l a < l.commitTime) ∧
    (∃ (s : State) (l : Load) (a : Nat), s.img.load = some l ∧ l.armed.contains a = true ∧ l.swapped.contains a =
      false ∧ l.agents.contains a = true ∧ l.commitTime ≤ agentTime s l a ∧ (a < 64 → dieUp s a = true) ∧ (l.swapped =
      [] → commitReady s l = true)) ∧
    (∃ (s : State) (l : Load) (a : Nat), s.img.load = some l ∧ l.armed.contains a = true ∧ l.swapped.contains a =
      false ∧ l.agents.contains a = true ∧ l.commitTime ≤ agentTime s l a ∧ (a < 64 → dieUp s a = true) ∧ (l.swapped =
      [] → commitReady s l = true)) ∧
    (∃ (s : State) (l : Load), loadRun s (fun p => p == .committing) = some l ∧ l.agents.all (fun a =>
      l.swapped.contains a) = true) ∧
    (∃ (s : State) (l : Load) (a : Nat), s.img.load = some l ∧ l.agents.contains a = true ∧ l.armed = [] ∧
      l.gone.contains a = false) :=
  ⟨⟨loading (load .quiesced), load .quiesced, 0, 99999, by decide +kernel⟩,
   ⟨loading (load .quiesced), load .quiesced, 0, 100000, by decide +kernel⟩,
   ⟨loading { load .committing with agents := [0, 1], armed := [1] },
     { load .committing with agents := [0, 1], armed := [1] }, 0, 1, 9, 500, by decide +kernel⟩,
   ⟨loading { load .committing with armed := [0] }, { load .committing with armed := [0] }, 0, by decide +kernel⟩,
   ⟨sets [(0, Reg.DC_RTIME, 500)] (loading { load .committing with armed := [0] }),
     { load .committing with armed := [0] }, 0, by decide +kernel⟩,
   ⟨sets [(0, Reg.DC_RTIME, 500)] (loading
     { load .committing with armed := [0, 1], agents := [0, 1], swapped := [1] }),
     { load .committing with armed := [0, 1], agents := [0, 1], swapped := [1] }, 0, by decide +kernel⟩,
   ⟨loading { load .committing with armed := [0], swapped := [0] },
     { load .committing with armed := [0], swapped := [0] }, by decide +kernel⟩,
   ⟨loading (load .staged), load .staged, 0, by decide +kernel⟩⟩

theorem witness_PartitionCommands_1 :
    (∃ (s : State) (d : Nat) (p : Nat) (i : Nat) (src : Source), d < dieCount s.orderCode ∧ i < 32 ∧ wardenOk s p src
      = true ∧ s.rd d Reg.PART_CMD_STATUS_BUSY ≠ 1 ∧ goLiveResult s p i src = 0) ∧
    (∃ (s : State) (d : Nat) (p : Nat) (i : Nat) (src : Source), d < dieCount s.orderCode ∧ i < 32 ∧ wardenOk s p src
      = true ∧ s.rd d Reg.PART_CMD_STATUS_BUSY ≠ 1 ∧ goLiveResult s p i src = 0) ∧
    (∃ (s : State) (d : Nat) (p : Nat) (i : Nat) (src : Source) (c : Instr), c ∈ [Instr.goLive d p i .dc,
      Instr.instReset d p i src, Instr.partReset d p src] ∧ d < dieCount s.orderCode ∧ partSealed s p = false ∧ s.rd d
      Reg.PART_CMD_STATUS_BUSY = 1) ∧
    (∃ (s : State) (d : Nat) (p : Nat) (i : Nat) (src : Source) (c : Instr), c ∈ [Instr.goLive d p i .dc,
      Instr.instReset d p i src, Instr.partReset d p src] ∧ d < dieCount s.orderCode ∧ partSealed s p = false ∧ s.rd d
      Reg.PART_CMD_STATUS_BUSY = 1) ∧
    (∃ (s : State) (d : Nat) (p : Nat) (i : Nat) (src : Source), d < dieCount s.orderCode ∧ s.rd d
      Reg.PART_CMD_STATUS_BUSY ≠ 1 ∧ (instEntry s p i).isSome = true ∧ partDies s p ≠ [] ∧ foreignPf s p i src = false
      ∧ coveredReset s p (some i) = false) ∧
    (∃ (s : State) (d : Nat) (p : Nat) (src : Source), d < dieCount s.orderCode ∧ s.rd d Reg.PART_CMD_STATUS_BUSY ≠ 1
      ∧ partDies s p ≠ [] ∧ fromRm src = true ∧ loadConcerns s p = false ∧ coveredReset s p none = false) ∧
    (∃ (s : State) (p : Nat) (i : Option Nat) (r : ResetRun), s.prt.resets.find? (fun r => Nat.beq r.part p && r.inst
      == i) = some r) ∧
    (∃ (s : State) (p : Nat) (i : Option Nat) (r : ResetRun), s.prt.resets.find? (fun r => Nat.beq r.part p && r.inst
      == i) = some r) :=
  ⟨⟨ready, 0, 5, 0, .pf 0, by decide +kernel⟩,
   ⟨ready, 1, 5, 0, .dc, by decide +kernel⟩,
   ⟨busyDie, 0, 5, 0, .dc, .goLive 0 5 0 .dc, by decide +kernel⟩,
   ⟨busyDie, 0, 5, 0, .pf 0, .instReset 0 5 0 (.pf 0), by decide +kernel⟩,
   ⟨{ (running [troupe]) with que := { live.que with movers := [mover mregs0] } }, 0, 5, 0, .pf 0, by decide +kernel⟩,
   ⟨{ (running [troupe]) with que := { live.que with movers := [mover mregs0] } }, 1, 5, .dc, by decide +kernel⟩,
   ⟨resetting ⟨0, 5, none, 0, 0, [0, 1]⟩, 5, none, ⟨0, 5, none, 0, 0, [0, 1]⟩, by decide +kernel⟩,
   ⟨resetting ⟨1, 5, some 0, 0, 0, []⟩, 5, some 0, ⟨1, 5, some 0, 0, 0, []⟩, by decide +kernel⟩⟩

theorem witness_PartitionCommands_2 :
    (∃ (s : State) (port : Nat), portDie port < dieCount s.orderCode ∧ portLive s port = true ∧ attachOf s port ≠ 0) ∧
    (∃ (s : State) (port : Nat) (f : Nat) (p : Nat) (i : Nat), portDie port < dieCount s.orderCode ∧ portLive s port =
      true ∧ attachOf s port ≠ 0 ∧ 0 < f ∧ f ≤ SMap.get 0 s.host.numVfs port ∧ requesterInst s port f none = some (p,
      i) ∧ (instEntry s p i).isSome = true ∧ coveredReset s p (some i) = false) :=
  ⟨⟨live, 0, by decide +kernel⟩,
   ⟨running [troupe], 0, 1, 5, 0, by decide +kernel⟩⟩

theorem witness_GatesStringsAndWarden_1 :
    (∃ (s : State) (d : Nat) (kind : Nat) (index : Nat) (op : Nat) (src : Source) (c : Instr), (op, c) ∈ [(1,
      Instr.powerGate d kind index src), (2, Instr.clockStop d kind index src), (3, Instr.restore d kind index src)] ∧
      d < dieCount s.orderCode ∧ index < blockCount kind ∧ (∀ g ∈ s.prt.deferred, g.die ≠ d) ∧ (op = 3 ∨ strung s d
      kind index = false)) ∧
    (∃ (s : State) (d : Nat) (kind : Nat) (index : Nat) (op : Nat) (src : Source) (c : Instr), (op, c) ∈ [(1,
      Instr.powerGate d kind index src), (2, Instr.clockStop d kind index src), (3, Instr.restore d kind index src)] ∧
      d < dieCount s.orderCode ∧ index < blockCount kind ∧ (∀ g ∈ s.prt.deferred, g.die ≠ d) ∧ (op = 3 ∨ strung s d
      kind index = false)) ∧
    (∃ (s : State) (d : Nat) (kind : Nat) (index : Nat) (op : Nat) (src : Source) (c : Instr), (op, c) ∈ [(1,
      Instr.powerGate d kind index src), (2, Instr.clockStop d kind index src), (3, Instr.restore d kind index src)] ∧
      d < dieCount s.orderCode ∧ index < blockCount kind ∧ (∀ g ∈ s.prt.deferred, g.die ≠ d) ∧ op ≠ 3 ∧ strung s d
      kind index = true) ∧
    (∃ (s : State) (d : Nat) (kind : Nat) (index : Nat) (op : Nat) (src : Source) (c : Instr), (op, c) ∈ [(1,
      Instr.powerGate d kind index src), (2, Instr.clockStop d kind index src), (3, Instr.restore d kind index src)] ∧
      d < dieCount s.orderCode ∧ index < blockCount kind ∧ (∀ g ∈ s.prt.deferred, g.die ≠ d) ∧ op ≠ 3 ∧ strung s d
      kind index = true) ∧
    (∃ (s : State) (d : Nat) (g : GateReq), d < dieCount s.orderCode ∧ s.prt.deferred = [g] ∧ g.die = d) ∧
    (∃ (s : State) (d : Nat) (kind : Nat) (index : Nat) (p : Nat), d < dieCount s.orderCode ∧ kind < 2 ∧ halfPart s d
      (if kind = 0 then index / 2048 else index / 32) = some p ∧ (imgParts s).contains p = true) ∧
    (∃ (s : State) (d : Nat) (kind : Nat) (index : Nat) (p : Nat), d < dieCount s.orderCode ∧ kind < 2 ∧ halfPart s d
      (if kind = 0 then index / 2048 else index / 32) = some p ∧ (imgParts s).contains p = true) ∧
    (∃ (s : State) (d : Nat) (kind : Nat) (index : Nat), d < dieCount s.orderCode ∧ kind < 2 ∧ halfPart s d (if kind =
      0 then index / 2048 else index / 32) = none) :=
  ⟨⟨live, 0, 0, 319, 1, .dc, .powerGate 0 0 319 .dc, by decide +kernel⟩,
   ⟨{ live with prt := { live.prt with gated := [⟨0, 0, 319, 1⟩, ⟨0, 1, 3, 2⟩] } }, 0, 0, 319, 3, .dc, .restore 0 0
     319 .dc, by decide +kernel⟩,
   ⟨sets [(0, Reg.WARD_STR_SLICE, 1)] live, 0, 3, 0, 2, .dc, .clockStop 0 3 0 .dc, by decide +kernel⟩,
   ⟨sets [(0, Reg.WARD_STR_SLICE, 1)] live, 0, 1, 0, 1, .warden, .powerGate 0 1 0 .warden, by decide +kernel⟩,
   ⟨{ live with prt := { live.prt with deferred := [⟨0, 1, 0, 1⟩] } }, 0, ⟨0, 1, 0, 1⟩, by decide +kernel⟩,
   ⟨live, 0, 0, 5, 5, by decide +kernel⟩,
   ⟨live, 0, 1, 5, 5, by decide +kernel⟩,
   ⟨live, 0, 0, 2048, by decide +kernel⟩⟩

theorem witness_GatesStringsAndWarden_2 :
    (∃ (s : State) (d : Nat) (kind : Nat) (index : Nat), d < dieCount s.orderCode ∧ kind < 2 ∧ halfPart s d (if kind =
      0 then index / 2048 else index / 32) = none) ∧
    (∃ (s : State) (d : Nat) (kind : Nat) (w : Nat) (f : Fld), d < dieCount s.orderCode ∧ s.rd d Reg.WARD_STATUS = 1 ∧
      strField kind w = some f ∧ (∀ g ∈ s.prt.deferred, g.die ≠ d)) ∧
    (∃ (s : State) (d : Nat) (kind : Nat) (w : Nat) (src : Source) (v : Word) (f : Fld), d < dieCount s.orderCode ∧
      src ≠ .warden ∧ strField kind w = some f ∧ v.toNat % 2 ^ f.width ≠ s.rd d f) ∧
    (∃ (s : State) (d : Nat), d < dieCount s.orderCode ∧ s.rd d Reg.WARD_STATUS = 1 ∧ sealedParts s d = []) ∧
    (∃ (s : State) (d : Nat) (p : Nat), d < dieCount s.orderCode ∧ s.rd d Reg.WARD_STATUS = 1 ∧ sealedParts s d = [p]
      ∧ (imgParts s).contains p = true) ∧
    (∃ (s : State) (d : Nat), d < dieCount s.orderCode) ∧
    (∃ (s : State) (d : Nat), d < dieCount s.orderCode) ∧
    (∃ (s : State) (d : Nat), d < dieCount s.orderCode) :=
  ⟨⟨live, 0, 1, 32, by decide +kernel⟩,
   ⟨warden [], 0, 0, 4, Reg.WARD_STR_CLUSTER 4, by decide +kernel⟩,
   ⟨warden [], 0, 3, 4, .pf 0, 3, Reg.WARD_STR_HALF, by decide +kernel⟩,
   ⟨warden [], 0, by decide +kernel⟩,
   ⟨warden [(0, Reg.PART_HALF_SEALED 0, 1)], 0, 5, by decide +kernel⟩,
   ⟨warden [], 0, by decide +kernel⟩,
   ⟨warden [(0, Reg.WARD_MBOX_STAT_IN_FULL, 1)], 0, by decide +kernel⟩,
   ⟨warden [(0, Reg.WARD_MBOX_IN, 7), (0, Reg.WARD_MBOX_STAT_IN_FULL, 1)], 0, by decide +kernel⟩⟩

theorem witness_GatesStringsAndWarden_3 :
    (∃ (s : State) (d : Nat), d < dieCount s.orderCode) ∧
    (∃ (s : State) (d : Nat), d < dieCount s.orderCode) ∧
    (∃ (s : State) (d : Nat), d < dieCount s.orderCode) ∧
    (∃ (s : State) (d : Nat), d < dieCount s.orderCode) ∧
    (∃ (s : State) (d : Nat), d < dieCount s.orderCode) ∧
    (∃ (s : State) (d : Nat), d < dieCount s.orderCode) ∧
    (∃ (s : State) (d : Nat), d < dieCount s.orderCode) ∧
    (∃ (s : State) (d : Nat), d < dieCount s.orderCode ∧ s.rd d Reg.WARD_STATUS = 1) :=
  ⟨⟨warden [(0, Reg.WARD_MBOX_IN, 7), (0, Reg.WARD_MBOX_STAT_IN_FULL, 1)], 0, by decide +kernel⟩,
   ⟨warden [(0, Reg.WARD_MBOX_OUT, 7), (0, Reg.WARD_MBOX_STAT_OUT_FULL, 1)], 0, by decide +kernel⟩,
   ⟨warden [], 0, by decide +kernel⟩,
   ⟨warden [(0, Reg.WARD_MBOX_STAT_IN_FULL, 1)], 0, by decide +kernel⟩,
   ⟨warden [(0, Reg.WARD_MBOX_IN, 7), (0, Reg.WARD_MBOX_STAT_IN_FULL, 1)], 0, by decide +kernel⟩,
   ⟨warden [(0, Reg.WARD_MBOX_IN, 7), (0, Reg.WARD_MBOX_STAT_IN_FULL, 1)], 0, by decide +kernel⟩,
   ⟨warden [(0, Reg.WARD_MBOX_OUT, 7), (0, Reg.WARD_MBOX_STAT_OUT_FULL, 1)], 0, by decide +kernel⟩,
   ⟨warden [], 0, by decide +kernel⟩⟩

theorem witness_GatesStringsAndWarden_4 :
    (∃ (s : State) (d : Nat), d < dieCount s.orderCode) ∧
    (∃ (s : State) (d : Nat), d < dieCount s.orderCode) ∧
    (∃ (s : State) (d : Nat), d < dieCount s.orderCode) ∧
    (∃ (s : State) (d : Nat), d < dieCount s.orderCode) ∧
    (∃ (s : State) (d : Nat), d < dieCount s.orderCode) ∧
    (∃ (s : State) (d : Nat) (w : Nat), d < dieCount s.orderCode ∧ w < 8192) ∧
    (∃ (s : State) (d : Nat) (i : Nat), d < dieCount s.orderCode ∧ 320 ≤ i ∧ i < 352 ∧ (monHist s d i).failed = false
      ∧ failedPoints s d < 15) ∧
    (∃ (s : State) (d : Nat) (k : Nat) (e : Tlb), d < dieCount s.orderCode ∧ (s.xlt.tlb.filter (fun e => Nat.beq e.die
      d))[k]? = some e) :=
  ⟨⟨warden [], 0, by decide +kernel⟩,
   ⟨warden [(0, Reg.WARD_MBOX_STAT_IN_FULL, 1)], 0, by decide +kernel⟩,
   ⟨warden [(0, Reg.WARD_MBOX_IN, 7), (0, Reg.WARD_MBOX_STAT_IN_FULL, 1)], 0, by decide +kernel⟩,
   ⟨warden [(0, Reg.WARD_MBOX_IN, 7), (0, Reg.WARD_MBOX_STAT_IN_FULL, 1)], 0, by decide +kernel⟩,
   ⟨warden [(0, Reg.WARD_MBOX_OUT, 7), (0, Reg.WARD_MBOX_STAT_OUT_FULL, 1)], 0, by decide +kernel⟩,
   ⟨live, 0, 8191, by decide +kernel⟩,
   ⟨live, 0, 351, by decide +kernel⟩,
   ⟨{ live with xlt := { live.xlt with tlb := [clusterTlb] } }, 0, 0, clusterTlb, by decide +kernel⟩⟩

theorem witness_InterruptsAndTranslation_1 :
    (∃ (s : State) (d : Nat) (e : Nat) (src : Source), d < dieCount s.orderCode ∧ isMediator s d e src = true) ∧
    (∃ (s : State) (d : Nat) (e : Nat) (src : Source), d < dieCount s.orderCode ∧ isMediator s d e src = true ∧ s.rd d
      (Reg.PART_IRQ_MAP_PENDING e) = 0) ∧
    (∃ (s : State) (d : Nat) (e : Nat) (src : Source) (v : Word) (c : Instr), c ∈ [Instr.irqMapAddrWrite d e src v,
      Instr.irqMapDataWrite d e src v, Instr.irqUnmask d e src] ∧ d < dieCount s.orderCode ∧ isMediator s d e src =
      false) ∧
    (∃ (s : State) (d : Nat) (e : Nat) (src : Source) (v : Word) (c : Instr), c ∈ [Instr.irqMapAddrWrite d e src v,
      Instr.irqMapDataWrite d e src v, Instr.irqUnmask d e src] ∧ d < dieCount s.orderCode ∧ isMediator s d e src =
      false) ∧
    (∃ (s : State) (d : Nat) (e : Nat) (p : Nat) (i : Nat) (x : InstEntry) (src : Source) (c : Instr), d < dieCount
      s.orderCode ∧ irqOwner s d e = some (p, i) ∧ instEntry s p i = some x ∧ 0 < s.rd d (Reg.PART_IRQ_MAP_PENDING e)
      ∧ ((c = .irqMapHoldTimeout d e ∧ s.rd d (Reg.PART_IRQ_MAP_MASK e) = 0 ∧ s.rd d (Reg.PART_IRQ_MAP_COAL_CNT e) ≤
      s.rd d (Reg.PART_IRQ_MAP_PENDING e) ∧ s.prt.irqHeld.contains (d * 4096 + e) = true) ∨ (c = .irqUnmask d e src ∧
      isMediator s d e src = true ∧ s.rd d (Reg.PART_IRQ_MAP_MASK e) = 1) ∨ (c = .irqCoalesceTimeout d e ∧ irqOpen s d
      e = true))) ∧
    (∃ (s : State) (d : Nat) (e : Nat) (p : Nat) (i : Nat) (x : InstEntry) (src : Source) (c : Instr), d < dieCount
      s.orderCode ∧ irqOwner s d e = some (p, i) ∧ instEntry s p i = some x ∧ 0 < s.rd d (Reg.PART_IRQ_MAP_PENDING e)
      ∧ ((c = .irqMapHoldTimeout d e ∧ s.rd d (Reg.PART_IRQ_MAP_MASK e) = 0 ∧ s.rd d (Reg.PART_IRQ_MAP_COAL_CNT e) ≤
      s.rd d (Reg.PART_IRQ_MAP_PENDING e) ∧ s.prt.irqHeld.contains (d * 4096 + e) = true) ∨ (c = .irqUnmask d e src ∧
      isMediator s d e src = true ∧ s.rd d (Reg.PART_IRQ_MAP_MASK e) = 1) ∨ (c = .irqCoalesceTimeout d e ∧ irqOpen s d
      e = true))) ∧
    (∃ (s : State) (d : Nat) (part : Nat) (inst : Nat) (ctx : Nat) (count : Nat) (src : Source) (c : Instr) (x :
      XInval), (c, x) ∈ [(Instr.xltInvalRange d part inst ctx count src, (⟨d, 1, part, inst, ctx, s.rd d
      Reg.XLT_INV_ADDR, count % 0x10000⟩ : XInval)), (Instr.xltInvalContext d part inst ctx src, ⟨d, 2, part, inst,
      ctx, s.rd d Reg.XLT_INV_ADDR, 0⟩), (Instr.xltInvalInstance d part inst src, ⟨d, 3, part, inst, 0, s.rd d
      Reg.XLT_INV_ADDR, 0⟩), (Instr.xltInvalPartition d part src, ⟨d, 4, part, 0, 0, s.rd d Reg.XLT_INV_ADDR, 0⟩)] ∧ d
      < dieCount s.orderCode ∧ wardenOk s part src = true ∧ invalsOf s d = [] ∧ silentDie s part = none ∧ resetCovers
      s x = false ∧ (x.scope = 1 → x.count ≠ 0)) ∧
    (∃ (s : State) (d : Nat) (part : Nat) (inst : Nat) (ctx : Nat) (count : Nat) (src : Source) (c : Instr) (x :
      XInval), (c, x) ∈ [(Instr.xltInvalRange d part inst ctx count src, (⟨d, 1, part, inst, ctx, s.rd d
      Reg.XLT_INV_ADDR, count % 0x10000⟩ : XInval)), (Instr.xltInvalContext d part inst ctx src, ⟨d, 2, part, inst,
      ctx, s.rd d Reg.XLT_INV_ADDR, 0⟩), (Instr.xltInvalInstance d part inst src, ⟨d, 3, part, inst, 0, s.rd d
      Reg.XLT_INV_ADDR, 0⟩), (Instr.xltInvalPartition d part src, ⟨d, 4, part, 0, 0, s.rd d Reg.XLT_INV_ADDR, 0⟩)] ∧ d
      < dieCount s.orderCode ∧ wardenOk s part src = true ∧ invalsOf s d = [] ∧ silentDie s part = none ∧ resetCovers
      s x = false ∧ (x.scope = 1 → x.count ≠ 0)) :=
  ⟨⟨live, 0, 3, .pf 0, by decide +kernel⟩,
   ⟨{ live with prt := { live.prt with irqHeld := [3] } }, 0, 3, .pf 0, by decide +kernel⟩,
   ⟨live, 0, 3, .dc, 5, .irqMapAddrWrite 0 3 .dc 5, by decide +kernel⟩,
   ⟨live, 0, 3, .pf 2, 5, .irqUnmask 0 3 (.pf 2), by decide +kernel⟩,
   ⟨vector 2 [(0, Reg.PART_IRQ_MAP_MASK 3, 0), (0, Reg.PART_IRQ_MAP_COAL_CNT 3, 2)] [3], 0, 3, 5, 0, ⟨0, 0, 1, 4, 0,
     [(0, 3)]⟩, .dc, .irqMapHoldTimeout 0 3, by decide +kernel⟩,
   ⟨vector 1 [(0, Reg.PART_IRQ_MAP_MASK 3, 1)] [], 0, 3, 5, 0, ⟨0, 0, 1, 4, 0, [(0, 3)]⟩, .pf 0, .irqUnmask 0 3 (.pf
     0), by decide +kernel⟩,
   ⟨sets [(0, Reg.XLT_INV_ADDR, 2)] (mapped live), 0, 5, 0, 0, 1, .dc, .xltInvalRange 0 5 0 0 1 .dc, ⟨0, 1, 5, 0, 0,
     2, 1⟩, by decide +kernel⟩,
   ⟨mapped live, 0, 5, 0, 0, 0, .dc, .xltInvalContext 0 5 0 0 .dc, ⟨0, 2, 5, 0, 0, 0, 0⟩, by decide +kernel⟩⟩

theorem witness_InterruptsAndTranslation_2 :
    (∃ (s : State) (d : Nat) (part : Nat) (inst : Nat) (ctx : Nat) (count : Nat) (src : Source) (c : Instr) (x :
      XInval), (c, x) ∈ [(Instr.xltInvalRange d part inst ctx count src, (⟨d, 1, part, inst, ctx, s.rd d
      Reg.XLT_INV_ADDR, count % 0x10000⟩ : XInval)), (Instr.xltInvalContext d part inst ctx src, ⟨d, 2, part, inst,
      ctx, s.rd d Reg.XLT_INV_ADDR, 0⟩), (Instr.xltInvalInstance d part inst src, ⟨d, 3, part, inst, 0, s.rd d
      Reg.XLT_INV_ADDR, 0⟩), (Instr.xltInvalPartition d part src, ⟨d, 4, part, 0, 0, s.rd d Reg.XLT_INV_ADDR, 0⟩)] ∧ d
      < dieCount s.orderCode ∧ wardenOk s part src = true ∧ (x.scope = 1 → x.count ≠ 0) ∧ invalsOf s d = [] ∧
      (silentDie s part ≠ none ∨ resetCovers s x = true)) ∧
    (∃ (s : State) (d : Nat) (part : Nat) (inst : Nat) (ctx : Nat) (count : Nat) (src : Source) (c : Instr) (x :
      XInval), (c, x) ∈ [(Instr.xltInvalRange d part inst ctx count src, (⟨d, 1, part, inst, ctx, s.rd d
      Reg.XLT_INV_ADDR, count % 0x10000⟩ : XInval)), (Instr.xltInvalContext d part inst ctx src, ⟨d, 2, part, inst,
      ctx, s.rd d Reg.XLT_INV_ADDR, 0⟩), (Instr.xltInvalInstance d part inst src, ⟨d, 3, part, inst, 0, s.rd d
      Reg.XLT_INV_ADDR, 0⟩), (Instr.xltInvalPartition d part src, ⟨d, 4, part, 0, 0, s.rd d Reg.XLT_INV_ADDR, 0⟩)] ∧ d
      < dieCount s.orderCode ∧ wardenOk s part src = true ∧ (x.scope = 1 → x.count ≠ 0) ∧ 9 ≤ (invalsOf s d).length) ∧
    (∃ (s : State) (d : Nat) (x : XInval), d < dieCount s.orderCode ∧ invalsOf s d = [x] ∧ (imgParts s).contains
      x.part = true) ∧
    (∃ (s : State) (d : Nat) (j : Nat), d < dieCount s.orderCode ∧ j < 64 ∧ halfPart s d (j / 32) = none) ∧
    (∃ (s : State) (d : Nat) (j : Nat) (p : Nat) (src : Source), d < dieCount s.orderCode ∧ j < 64 ∧ halfPart s d (j /
      32) = some p ∧ wardenOk s p src = true ∧ invalsOf s d = []) ∧
    (∃ (s : State) (d : Nat) (c : Nat) (part : Nat) (inst : Nat) (ctx : Nat) (va : Nat) (e : Tlb), d < dieCount
      s.orderCode ∧ va < 2 ^ 48 ∧ s.xlt.tlb.find? (fun e => e.covers 0 c ⟨d, 0, c, part, inst, ctx, 1, clusterSide c,
      c⟩ va) = some e ∧ stale s d e.stamp e.lease = false ∧ e.level = 0 ∧ e.die = d ∧ e.unit = c ∧ (s.xlt.tlb.filter
      (fun x => Nat.beq x.level 0 && Nat.beq x.die d && Nat.beq x.unit c)).length ≤ 256) ∧
    (∃ (s : State) (d : Nat) (va : Nat), d < dieCount s.orderCode ∧ 2 ^ 48 ≤ va) :=
  ⟨⟨{ mapped live with boot := { live.boot with inReset := [1] } }, 0, 5, 0, 0, 0, .dc, .xltInvalContext 0 5 0 0 .dc,
     ⟨0, 2, 5, 0, 0, 0, 0⟩, by decide +kernel⟩,
   ⟨{ live with xlt := { live.xlt with queue := List.replicate 9 ⟨0, 4, 5, 0, 0, 0, 0⟩ } }, 0, 5, 0, 0, 0, .dc,
     .xltInvalPartition 0 5 .dc, ⟨0, 4, 5, 0, 0, 0, 0⟩, by decide +kernel⟩,
   ⟨{ live with xlt := { live.xlt with queue := [⟨0, 4, 5, 0, 0, 0, 0⟩] } }, 0, ⟨0, 4, 5, 0, 0, 0, 0⟩,
     by decide +kernel⟩,
   ⟨live, 0, 63, by decide +kernel⟩,
   ⟨live, 0, 31, 5, .dc, by decide +kernel⟩,
   ⟨{ live with xlt := { live.xlt with tlb := [clusterTlb] } }, 0, 7, 5, 0, 0, 0xFFFF, clusterTlb, by decide +kernel⟩,
   ⟨live, 0, 0x1000000000000, by decide +kernel⟩⟩

theorem witness_HostLinksAndPartnerTable_1 :
    (∃ (s : State) (port : Nat) (speed : Nat) (width : Nat) (flit : Bool), portDie port < dieCount s.orderCode ∧
      portLive s port = true ∧ s.host.failedPorts.contains port = false ∧ linkIsUp s port = false ∧ speed < 8 ∧ width
      < 32 ∧ (speed = 6 → flit = true) ∧ roleOf s port = 0) ∧
    (∃ (s : State) (port : Nat) (speed : Nat) (width : Nat) (flit : Bool), portDie port < dieCount s.orderCode ∧
      portLive s port = true ∧ s.host.failedPorts.contains port = false ∧ linkIsUp s port = false ∧ speed < 8 ∧ width
      < 32 ∧ (speed = 6 → flit = true) ∧ roleOf s port = 1) ∧
    (∃ (s : State) (port : Nat), portDie port < dieCount s.orderCode ∧ portLive s port = true ∧ attachOf s port ≠ 0) ∧
    (∃ (s : State) (port : Nat), portDie port < dieCount s.orderCode ∧ portLive s port = true ∧ attachOf s port ≠ 0) ∧
    (∃ (s : State) (port : Nat), portDie port < dieCount s.orderCode ∧ portLive s port = true ∧ linkIsUp s port = true
      ∧ s.host.outbound = [] ∧ s.host.atsInv = []) ∧
    (∃ (s : State) (port : Nat) (addr : Nat) (len : Nat) (va : Nat) (o : Outbound), portDie port < dieCount
      s.orderCode ∧ portLive s port = true ∧ linkIsUp s port = true ∧ s.host.outbound = [o] ∧ s.host.atsInv = [] ∧
      o.port = port ∧ o.done = false ∧ o.via = some va ∧ va < addr + len ∧ addr < va + o.len) ∧
    (∃ (s : State) (port : Nat) (addr : Nat) (len : Nat) (va : Nat) (o : Outbound), portDie port < dieCount
      s.orderCode ∧ portLive s port = true ∧ linkIsUp s port = true ∧ s.host.outbound = [o] ∧ s.host.atsInv = [] ∧
      o.port = port ∧ o.done = false ∧ o.via = some va ∧ va < addr + len ∧ addr < va + o.len) ∧
    (∃ (s : State) (port : Nat), portDie port < dieCount s.orderCode ∧ portLive s port = true) :=
  ⟨⟨sets [(0, Reg.HOST_STATUS_ATTACH, 0), (0, Reg.HOST_STATUS_ROLE, 0)] live, 0, 5, 16, true, by decide +kernel⟩,
   ⟨sets [(0, Reg.HOST_STATUS_ATTACH, 0), (0, Reg.HOST_STATUS_ROLE, 1)] live, 0, 5, 16, true, by decide +kernel⟩,
   ⟨live, 0, by decide +kernel⟩,
   ⟨live, 0, by decide +kernel⟩,
   ⟨{ (bound [(9, { exported with kind := 0 })] live) with xlt := { live.xlt with tlb := [partnerTlb, clusterTlb] } },
     0, by decide +kernel⟩,
   ⟨outgoing { sent with via := some 0x1000 } (live), 0, 0x103F, 1, 0x1000, { sent with via := some 0x1000 },
     by decide +kernel⟩,
   ⟨outgoing { sent with via := some 0x1000 } (live), 0, 0, 0x1001, 0x1000, { sent with via := some 0x1000 },
     by decide +kernel⟩,
   ⟨live, 0, by decide +kernel⟩⟩

theorem witness_HostLinksAndPartnerTable_2 :
    (∃ (s : State) (port : Nat), portDie port < dieCount s.orderCode ∧ portLive s port = true) ∧
    (∃ (s : State) (port : Nat), portDie port < dieCount s.orderCode ∧ portLive s port = true ∧ partsOnPort s port =
      [] ∧ s.host.bursts = [] ∧ s.host.outbound = []) ∧
    (∃ (s : State) (port : Nat) (v : BitVec 32), portDie port < dieCount s.orderCode ∧ portLive s port = true ∧
      attachOf s port ≠ 0 ∧ v.toNat < 64) ∧
    (∃ (s : State) (port : Nat) (v : BitVec 32), portDie port < dieCount s.orderCode ∧ portLive s port = true ∧
      attachOf s port ≠ 0 ∧ v.toNat < 64) ∧
    (∃ (s : State) (port : Nat) (f : Nat) (reg : Nat) (v : BitVec 32), portDie port < dieCount s.orderCode ∧ portLive
      s port = true ∧ attachOf s port ≠ 0 ∧ f ≤ SMap.get 0 s.host.numVfs port ∧ (f ≠ 0 ∨ reg ≠ numVfsReg) ∧
      s.host.cfg.find? (fun x => Nat.beq x.1 port && Nat.beq x.2.1 f && Nat.beq x.2.2.1 reg) = some (port, f, reg, v)) ∧
    (∃ (s : State) (d : Nat) (i : Nat) (src : Source), d < dieCount s.orderCode ∧ i < 256 ∧ ptBusy s d = false ∧
      ptMayWrite s (ptNow s i) (ptData s d) src = true ∧ ptInRange s (ptData s d) = true) ∧
    (∃ (s : State) (d : Nat) (i : Nat) (src : Source), d < dieCount s.orderCode ∧ i < 256 ∧ ptBusy s d = false ∧
      ptMayWrite s (ptNow s i) (ptData s d) src = true ∧ ptInRange s (ptData s d) = true) ∧
    (∃ (s : State) (d : Nat) (i : Nat) (src : Source), d < dieCount s.orderCode ∧ i < 256 ∧ ptBusy s d = false ∧
      ptMayWrite s (ptNow s i) (ptData s d) src = true ∧ ptInRange s (ptData s d) = false) :=
  ⟨⟨live, 0, by decide +kernel⟩,
   ⟨sets [(0, Reg.HOST_AER_UE, 5)] up, 0, by decide +kernel⟩,
   ⟨live, 0, 63, by decide +kernel⟩,
   ⟨live, 0, 0, by decide +kernel⟩,
   ⟨{ live with host := { live.host with cfg := [(0, 1, 6, 0xABCD)] } }, 0, 1, 6, 0xABCD, by decide +kernel⟩,
   ⟨ptWritten 0x10000, 0, 255, .pf 0, by decide +kernel⟩,
   ⟨ptWritten 0x10000, 0, 0, .dc, by decide +kernel⟩,
   ⟨ptWritten 0x10001, 0, 0, .pf 0, by decide +kernel⟩⟩

theorem witness_HostLinksAndPartnerTable_3 :
    (∃ (s : State) (d : Nat) (i : Nat) (src : Source), d < dieCount s.orderCode ∧ i < 256 ∧ ptBusy s d = false ∧
      ptMayWrite s (ptNow s i) (ptData s d) src = false) ∧
    (∃ (s : State) (d : Nat) (i : Nat), d < dieCount s.orderCode ∧ i < 256 ∧ ptBusy s d = false) ∧
    (∃ (s : State) (d : Nat) (i : Nat) (src : Source), d < dieCount s.orderCode ∧ i < 256 ∧ ptBusy s d = false ∧
      ptMayWrite s (ptNow s i) { ptNow s i with state := 2 } src = true ∧ ptInRange s { ptNow s i with state := 2 } =
      true) ∧
    (∃ (s : State) (d : Nat) (i : Nat) (src : Source) (c : Instr), c ∈ [Instr.ptWrite d i src, Instr.ptRead d i src,
      Instr.ptRetire d i src] ∧ d < dieCount s.orderCode ∧ ptBusy s d = true) :=
  ⟨⟨ptWritten 0x10000, 0, 0, .pf 2, by decide +kernel⟩,
   ⟨bound [(9, exported)] live, 0, 9, by decide +kernel⟩,
   ⟨bound [(9, { exported with kind := 0 })] live, 0, 9, .pf 0, by decide +kernel⟩,
   ⟨outgoing { sent with before := [0] } (ptWritten 0x10000), 0, 0, .dc, .ptWrite 0 0 .dc, by decide +kernel⟩⟩

theorem witness_InboundAccesses_1 :
    (∃ (s : State) (s2 : State) (port : Nat) (fn : Nat) (off : Nat) (p : Nat) (i : Nat) (pasid : Option (BitVec 20))
      (l : List Byte) (v : SectorData) (po : Bool), portDie port < dieCount s.orderCode ∧ portLive s port = true ∧
      attachOf s port = 2 ∧ requesterInst s port fn pasid = some (p, i) ∧ off + l.length ≤ 2 ^ 36 ∧ l ≠ [] ∧
      (apertureBase s ⟨port, fn, pasid, some (p, i)⟩ + off) % 32 + l.length ≤ 32 ∧ vaWrite ⟨port, fn, pasid, some (p,
      i)⟩ p i false (apertureBase s ⟨port, fn, pasid, some (p, i)⟩ + off) (byteMask ((apertureBase s ⟨port, fn, pasid,
      some (p, i)⟩ + off) % 32) l.length) (BitVec.ofNat 256 (ofLe l * 256 ^ ((apertureBase s ⟨port, fn, pasid, some
      (p, i)⟩ + off) % 32))) s = (.ok v po, s2)) ∧
    (∃ (s : State) (s2 : State) (port : Nat) (fn : Nat) (off : Nat) (len : Nat) (p : Nat) (i : Nat) (pasid : Option
      (BitVec 20)) (v : SectorData), portDie port < dieCount s.orderCode ∧ portLive s port = true ∧ attachOf s port =
      2 ∧ requesterInst s port fn pasid = some (p, i) ∧ off + len ≤ 2 ^ 36 ∧ 0 < len ∧ (apertureBase s ⟨port, fn,
      pasid, some (p, i)⟩ + off) % 32 + len ≤ 32 ∧ vaRead ⟨port, fn, pasid, some (p, i)⟩ p i (apertureBase s ⟨port,
      fn, pasid, some (p, i)⟩ + off) s = (.ok v false, s2)) ∧
    (∃ (s : State) (port : Nat) (off : Nat), portDie port < dieCount s.orderCode ∧ portLive s port = true ∧ attachOf s
      port = 2 ∧ off < 0x400) ∧
    (∃ (s : State) (port : Nat) (off : Nat), portDie port < dieCount s.orderCode ∧ portLive s port = true ∧ attachOf s
      port = 2 ∧ off < 0x400) ∧
    (∃ (s : State) (plane : Nat) (bport : Nat) (rack : Nat) (dest : Nat), (bridgeTo s plane bport rack = false ∨ dest
      ≠ s.rack.rackNo)) ∧
    (∃ (s : State) (plane : Nat) (bport : Nat) (rack : Nat) (dest : Nat), (bridgeTo s plane bport rack = false ∨ dest
      ≠ s.rack.rackNo)) ∧
    (∃ (s : State) (plane : Nat) (bport : Nat) (rack : Nat) (index : Nat) (off : Nat) (len : Nat) (w : Option (List
      SectorData)), bridgeTo s plane bport rack = true ∧ exportLets (ptNow s index) (plane * 8 + bport) rack off
      (match w with | some l => 32 * l.length | none => len) w.isSome = false) ∧
    (∃ (s : State) (plane : Nat) (bport : Nat) (rack : Nat) (index : Nat) (off : Nat) (len : Nat) (w : Option (List
      SectorData)), bridgeTo s plane bport rack = true ∧ exportLets (ptNow s index) (plane * 8 + bport) rack off
      (match w with | some l => 32 * l.length | none => len) w.isSome = false) :=
  ⟨⟨w1s, w1.2, 0, 1, 4, 5, 0, none, [1, 2], okV w1, okP w1, by decide +kernel⟩,
   ⟨w1s, (vaRead hb 5 0 0x20000 w1s).2, 0, 1, 0, 8, 5, 0, none, 0x55, by decide +kernel⟩,
   ⟨live, 0, 0x3FF, by decide +kernel⟩,
   ⟨live, 0, 0, by decide +kernel⟩,
   ⟨bridged, 0, 0, 8, 0, by decide +kernel⟩,
   ⟨bridged, 0, 0, 7, 1, by decide +kernel⟩,
   ⟨bridged, 0, 0, 7, 9, 0, 0, some [5], by decide +kernel⟩,
   ⟨bridged, 0, 0, 7, 9, 0xFFFF, 2, none, by decide +kernel⟩⟩

theorem witness_InboundAccesses_2 :
    ∃ (s : State) (s2 : State) (plane : Nat) (bport : Nat) (rack : Nat) (index : Nat) (off : Nat) (len : Nat) (v :
      SectorData), bridgeTo s plane bport rack = true ∧ exportLets (ptNow s index) (plane * 8 + bport) rack off len
      false = true ∧ 0 < len ∧ ((ptNow s index).base.toNat + off) % 32 + len ≤ 32 ∧ inRead (homeDie ((ptNow s
      index).base.toNat + off)) ((ptNow s index).base.toNat + off) (ptNow s index).part s = (.ok v false, s2) :=
  ⟨bridged, (inRead 0 0x20000 5 bridged).2, 0, 0, 7, 9, 0, 8, 0x55, by decide +kernel⟩

theorem witness_RegisterPort_1 :
    (∃ (s : State) (d : Nat) (src : Source), d < dieCount s.orderCode ∧ src ∈ [Source.dc, .mgp] ∧ dieUp s d = true) ∧
    (∃ (s : State) (d : Nat) (src : Source), d < dieCount s.orderCode ∧ src ∈ [Source.dc, .mgp] ∧ dieUp s d = true) ∧
    (∃ (s : State) (d : Nat) (src : Source), d < dieCount s.orderCode ∧ src ∈ [Source.dc, .mgp] ∧ dieUp s d = true) ∧
    (∃ (s : State) (d : Nat) (src : Source), d < dieCount s.orderCode ∧ src ∈ [Source.dc, .mgp] ∧ dieUp s d = true) ∧
    (∃ (s : State) (d : Nat) (src : Source), d < dieCount s.orderCode ∧ src ∈ [Source.dc, .mgp] ∧ dieUp s d = true) ∧
    (∃ (s : State) (d : Nat) (src : Source), d < dieCount s.orderCode ∧ src ∈ [Source.dc, .mgp] ∧ dieUp s d = true) ∧
    (∃ (s : State) (d : Nat) (src : Source) (f : Fld), d < dieCount s.orderCode ∧ src ∈ [Source.dc, .mgp] ∧ dieUp s d
      = true ∧ f ∈ [Reg.REC_DROPPED, Reg.WARD_DENIED, Reg.XLT_INV_DONE, Reg.IMG_DROPPED_DB] ∧ s.rd d f < 2 ^ 32) ∧
    (∃ (s : State) (d : Nat) (src : Source) (f : Fld), d < dieCount s.orderCode ∧ src ∈ [Source.dc, .mgp] ∧ dieUp s d
      = true ∧ f ∈ [Reg.REC_DROPPED, Reg.WARD_DENIED, Reg.XLT_INV_DONE, Reg.IMG_DROPPED_DB] ∧ s.rd d f < 2 ^ 32) :=
  ⟨⟨live, 0, .dc, by decide +kernel⟩,
   ⟨live, 1, .mgp, by decide +kernel⟩,
   ⟨live, 0, .dc, by decide +kernel⟩,
   ⟨live, 1, .mgp, by decide +kernel⟩,
   ⟨live, 0, .dc, by decide +kernel⟩,
   ⟨live, 1, .mgp, by decide +kernel⟩,
   ⟨sets [(0, Reg.REC_DROPPED, 9)] live, 0, .mgp, Reg.REC_DROPPED, by decide +kernel⟩,
   ⟨sets [(0, Reg.IMG_DROPPED_DB, 9)] live, 0, .dc, Reg.IMG_DROPPED_DB, by decide +kernel⟩⟩

theorem witness_RegisterPort_2 :
    (∃ (s : State) (frame : List Byte) (c : Instr), c ∈ [Instr.regRead frame, Instr.regWrite frame] ∧ mgpTaken s frame
      = false) ∧
    (∃ (s : State) (frame : List Byte) (c : Instr), c ∈ [Instr.regRead frame, Instr.regWrite frame] ∧ mgpTaken s frame
      = false) ∧
    (∃ (s : State) (u : State) (frame : List Byte) (v : Nat), mgpTaken s frame = true ∧ mgpFormat frame 1 = true ∧
      leAt frame 6 1 < 64 ∧ leAt frame 7 1 = 1 ∧ leAt frame 8 4 % 8 = 0 ∧ mgpReach s (leAt frame 6 1) (leAt frame 8 4)
      = 0 ∧ portRead (leAt frame 6 1) .mgp (leAt frame 8 4) 8 s = (some v, u)) ∧
    (∃ (s : State) (u : State) (frame : List Byte), mgpTaken s frame = true ∧ mgpFormat frame 2 = true ∧ leAt frame 6
      1 < 64 ∧ leAt frame 7 1 = 1 ∧ leAt frame 8 4 % 8 = 0 ∧ mgpReach s (leAt frame 6 1) (leAt frame 8 4) = 0 ∧
      portWrite (leAt frame 6 1) .mgp (leAt frame 8 4) 8 (leAt frame 16 8) s = (0, u)) ∧
    (∃ (s : State) (d : Nat), d < dieCount s.orderCode ∧ s.rack.powered.contains d = true) ∧
    (∃ (s : State) (d : Nat), d < dieCount s.orderCode ∧ s.rack.powered.contains d = true) ∧
    (∃ (s : State) (d : Nat), d < dieCount s.orderCode ∧ s.rack.powered.contains d = true) ∧
    (∃ (s : State) (d : Nat) (code : BitVec 8), d < dieCount s.orderCode ∧ s.rack.powered.contains d = true ∧
      code.toNat ∉ [0x00, 0x01, 0x02, 0x10]) :=
  ⟨⟨live, [1, 2], .regRead [1, 2], by decide +kernel⟩,
   ⟨live, readFrame.dropLast, .regWrite readFrame.dropLast, by decide +kernel⟩,
   ⟨served, (portRead 0 .mgp 0x280018 8 served).2, readFrame, 0x1122334455667788, by decide +kernel⟩,
   ⟨served, (portWrite 0 .mgp 0x280018 8 77 served).2, writeFrame, by decide +kernel⟩,
   ⟨sets [(0, Reg.DC_BOOT_STATUS_STAGE, 2)] live, 0, by decide +kernel⟩,
   ⟨sets [(0, Reg.DC_BOOT_STATUS_STAGE, 2)] live, 0, by decide +kernel⟩,
   ⟨sets [(0, Reg.DC_BOOT_STATUS_STAGE, 2)] live, 0, by decide +kernel⟩,
   ⟨sets [(0, Reg.DC_BOOT_STATUS_STAGE, 8)] live, 0, 0xFF, by decide +kernel⟩⟩

theorem witness_RegisterPort_3 :
    ∃ (s : State) (d : Nat) (dr : BitVec 96) (v : Nat) (u : State), d < dieCount s.orderCode ∧ s.rack.powered.contains
      d = true ∧ dr.toNat % 0x1000000 % 8 = 0 ∧ mgpReach s d (dr.toNat % 0x1000000) = 0 ∧ dr.toNat.testBit 24 = false
      ∧ portRead d .mgp (dr.toNat % 0x1000000) 8 (tapIr d 0x10 s) = (some v, u) :=
  ⟨served, 0, 0x280018, 0x1122334455667788, (portRead 0 .mgp 0x280018 8 (tapIr 0 0x10 served)).2, by decide +kernel⟩

theorem witness_RecorderActs_1 :
    (∃ (s : State) (d : Nat) (w : WaitRec), d < dieCount s.orderCode ∧ clocked s d = true ∧ s.recs.waiting.find? (fun
      w => Nat.beq w.die d) = some w ∧ w.dropped = false ∧ stagedBytes s d + recLen w.payload.length ≤ 0x40000 ∧
      (stagedBytes s d ≤ 0x30000 ∨ 2 ≤ w.cls)) ∧
    (∃ (s : State) (d : Nat) (w : WaitRec), d < dieCount s.orderCode ∧ clocked s d = true ∧ s.recs.waiting.find? (fun
      w => Nat.beq w.die d) = some w ∧ w.dropped = true) ∧
    (∃ (s : State) (d : Nat) (r : StagedRec), d < dieCount s.orderCode ∧ clocked s d = true ∧ s.recs.staging.find?
      (fun r => Nat.beq r.die d) = some r ∧ s.rd d Reg.REC_STAGE_RING_UP = 1 ∧ (∀ e ∈ s.recs.dropOwed, e.1 ≠ d) ∧
      ringSize s d < 2 ^ 40 ∧ r.bytes.length ≤ ringSize s d - s.rd d Reg.REC_WR % ringSize s d ∧ s.rd d Reg.REC_WR +
      r.bytes.length < 2 ^ 64) ∧
    (∃ (s : State) (d : Nat), d < dieCount s.orderCode ∧ clocked s d = true) ∧
    (∃ (s : State) (d : Nat) (src : Source) (c : Instr) (f : Fld), (c, f) ∈ [(Instr.recFailClearClusters d src,
      Reg.REC_FAIL_CLEAR_CLUSTERS), (Instr.recFailClearChans d src, Reg.REC_FAIL_CLEAR_CHANS),
      (Instr.recFailClearHalves d src, Reg.REC_FAIL_CLEAR_HALVES)] ∧ d < dieCount s.orderCode) ∧
    (∃ (s : State) (d : Nat) (src : Source) (c : Instr) (f : Fld), (c, f) ∈ [(Instr.recFailClearClusters d src,
      Reg.REC_FAIL_CLEAR_CLUSTERS), (Instr.recFailClearChans d src, Reg.REC_FAIL_CLEAR_CHANS),
      (Instr.recFailClearHalves d src, Reg.REC_FAIL_CLEAR_HALVES)] ∧ d < dieCount s.orderCode) ∧
    (∃ (s : State) (d : Nat) (i : Nat), d < dieCount s.orderCode ∧ clocked s d = true ∧ i < (s.recs.staging.filter
      (fun r => Nat.beq r.die d)).length) ∧
    (∃ (s : State) (d : Nat) (i : Nat) (src : Source) (v : BitVec 32) (c : Instr), c ∈ [Instr.recordAccept d,
      Instr.recordDrain d, Instr.recTest d src v, Instr.stagingSramError d i] ∧ d < dieCount s.orderCode ∧ clocked s d
      = false) :=
  ⟨⟨{ live with recs := { live.recs with waiting := [⟨0, 3, 0x070, 2, false, 55, List.replicate 9 1, false, false⟩] }
     }, 0, ⟨0, 3, 0x070, 2, false, 55, List.replicate 9 1, false, false⟩, by decide +kernel⟩,
   ⟨{ live with recs := { live.recs with waiting := [⟨0, 3, 0x070, 2, false, 55, List.replicate 9 1, false, true⟩] }
     }, 0, ⟨0, 3, 0x070, 2, false, 55, List.replicate 9 1, false, true⟩, by decide +kernel⟩,
   ⟨{ (sets [(0, Reg.REC_STAGE_RING_UP, 1), (0, Reg.REC_RING_SIZE, 1), (0, Reg.REC_WR, 64)] live) with recs :=
     { live.recs with staging := [⟨0, List.replicate 40 7⟩] } }, 0, ⟨0, List.replicate 40 7⟩, by decide +kernel⟩,
   ⟨live, 0, by decide +kernel⟩,
   ⟨live, 0, .dc, .recFailClearClusters 0 .dc, Reg.REC_FAIL_CLEAR_CLUSTERS, by decide +kernel⟩,
   ⟨live, 0, .dc, .recFailClearHalves 0 .dc, Reg.REC_FAIL_CLEAR_HALVES, by decide +kernel⟩,
   ⟨{ live with recs := { live.recs with staging := [⟨0, List.replicate 40 7⟩, ⟨0, List.replicate 32 0⟩] } }, 0, 1,
     by decide +kernel⟩,
   ⟨inReset, 0, 0, .dc, 0x77, .recordAccept 0, by decide +kernel⟩⟩

theorem witness_RecorderActs_2 :
    ∃ (s : State) (d : Nat) (i : Nat) (src : Source) (v : BitVec 32) (c : Instr), c ∈ [Instr.recordAccept d,
      Instr.recordDrain d, Instr.recTest d src v, Instr.stagingSramError d i] ∧ d < dieCount s.orderCode ∧ clocked s d
      = false :=
  ⟨inReset, 0, 0, .dc, 0x77, .recTest 0 .dc 0x77, by decide +kernel⟩

theorem witness_PowerUpAndDown_1 :
    (∃ (s : State) (k : Nat), k < 3 ∧ s.rack.shelfUp.contains k = false) ∧
    (∃ (s : State) (k : Nat), k < 3 ∧ s.rack.shelfUp.contains k = false) ∧
    (∃ (s : State), s.rack.busbar = true ∧ s.rack.rmUp = false) ∧
    (∃ (s : State) (sp0 : Bool) (sp1 : Bool) (after : Bool), s.rack.rmUp = true ∧ s.rack.coolOff = false ∧ (cduOk s
      s.rack.inlet s.rack.flow = true ∧ (sp0 || s.rack.spineReady.contains 0) = true ∧ (sp1 ||
      s.rack.spineReady.contains 1) = true ∨ after = true ∧ (sp0 || sp1 || !s.rack.spineReady.isEmpty) = true)) ∧
    (∃ (s : State) (sp0 : Bool) (sp1 : Bool) (after : Bool), s.rack.rmUp = true ∧ s.rack.coolOff = false ∧ (cduOk s
      s.rack.inlet s.rack.flow = true ∧ (sp0 || s.rack.spineReady.contains 0) = true ∧ (sp1 ||
      s.rack.spineReady.contains 1) = true ∨ after = true ∧ (sp0 || sp1 || !s.rack.spineReady.isEmpty) = true)) ∧
    (∃ (s : State) (d : Nat), d < dieCount s.orderCode ∧ s.rack.modEn.contains (moduleOf d) = true ∧
      s.rack.modAbsent.contains (moduleOf d) = false ∧ s.rack.dieOff.contains d = false ∧ s.rack.powered.contains d =
      false ∧ (∀ k, k < d % 4 → s.rack.powered.contains (4 * moduleOf d + k) = true ∨ s.rack.dieOff.contains (4 *
      moduleOf d + k) = true)) ∧
    (∃ (s : State) (d : Nat), d < dieCount s.orderCode ∧ s.rack.modEn.contains (moduleOf d) = true ∧
      s.rack.modAbsent.contains (moduleOf d) = false ∧ s.rack.dieOff.contains d = false ∧ s.rack.powered.contains d =
      false ∧ (∀ k, k < d % 4 → s.rack.powered.contains (4 * moduleOf d + k) = true ∨ s.rack.dieOff.contains (4 *
      moduleOf d + k) = true)) ∧
    (∃ (s : State) (m : Nat) (image : Nat) (copy : Nat), 4 * m < dieCount s.orderCode ∧ s.rack.rmUp = true ∧ image < 3
      ∧ copy < 2 ∧ s.rack.modAbsent.contains m = false) :=
  ⟨⟨up, 2, by decide +kernel⟩,
   ⟨{ up with rack := { up.rack with shelfUp := [0] } }, 1, by decide +kernel⟩,
   ⟨{ up with rack := { up.rack with rmUp := false } }, by decide +kernel⟩,
   ⟨{ up with rack := { up.rack with modEn := [], inlet := 20, flow := 200 } }, true, true, false, by decide +kernel⟩,
   ⟨{ up with rack := { up.rack with modEn := [] } }, true, false, true, by decide +kernel⟩,
   ⟨{ up with rack := { up.rack with modReset := [0], powered := [0, 1], flashIncarn := [(2, 65535)] } }, 2,
     by decide +kernel⟩,
   ⟨{ up with rack := { up.rack with powered := [0, 1, 2] } }, 3, by decide +kernel⟩,
   ⟨up, 15, 2, 1, by decide +kernel⟩⟩

theorem witness_PowerUpAndDown_2 :
    (∃ (s : State) (m : Nat), 4 * m < dieCount s.orderCode ∧ s.rack.modAbsent.contains m = true) ∧
    (∃ (s : State) (k : Nat), k < 2 ∧ s.rack.rmUp = true ∧ s.rack.planeLost.contains k = true) ∧
    (∃ (s : State) (m : Nat), 4 * m < dieCount s.orderCode ∧ s.rack.modEn.contains m = true) ∧
    (∃ (s : State), s.rack.busbar = true ∧ (∀ d ∈ s.rack.powered, d < dieCount s.orderCode)) ∧
    (∃ (s : State) (k : Nat), s.rack.shelfUp.contains k = true ∧ SMap.get 0 s.rack.rectFailed k < 7 ∧ 2 ≤
      s.rack.shelfUp.length) ∧
    (∃ (s : State) (inlet : Nat) (flow : Nat), s.rack.rmUp = true ∧ s.rack.coolOff = false ∧ s.rack.modEn ≠ [] ∧ (40 <
      inlet ∨ 4 ≤ s.rack.lowFlow ∧ 2 * flow < minFlow s.orderCode)) ∧
    (∃ (s : State) (inlet : Nat) (flow : Nat), s.rack.rmUp = true ∧ s.rack.coolOff = false ∧ s.rack.modEn ≠ [] ∧ (40 <
      inlet ∨ 4 ≤ s.rack.lowFlow ∧ 2 * flow < minFlow s.orderCode)) ∧
    (∃ (s : State) (inlet : Nat) (flow : Nat), s.rack.rmUp = true ∧ s.rack.coolOff = false ∧ inlet ≤ 40 ∧ minFlow
      s.orderCode ≤ 2 * flow) :=
  ⟨⟨{ up with rack := { up.rack with modAbsent := [3] } }, 3, by decide +kernel⟩,
   ⟨{ up with rack := { up.rack with planeLost := [1] } }, 1, by decide +kernel⟩,
   ⟨up, 0, by decide +kernel⟩,
   ⟨up, by decide +kernel⟩,
   ⟨{ up with rack := { up.rack with shelfUp := [0, 2] } }, 2, by decide +kernel⟩,
   ⟨up, 41, 200, by decide +kernel⟩,
   ⟨{ up with rack := { up.rack with lowFlow := 4 } }, 20, 64, by decide +kernel⟩,
   ⟨up, 40, 65, by decide +kernel⟩⟩

theorem witness_PowerUpAndDown_3 :
    (∃ (s : State) (m : Nat), 4 * m < dieCount s.orderCode ∧ s.rack.rmUp = true ∧ s.rack.modAbsent.contains m = false) ∧
    (∃ (s : State) (d : Nat), d < dieCount s.orderCode ∧ s.rack.modEn.contains (moduleOf d) = true ∧
      s.rack.dieOff.contains d = false) ∧
    (∃ (s : State) (m : Nat), 4 * m < dieCount s.orderCode ∧ s.rack.modAbsent.contains m = false) :=
  ⟨⟨up, 0, by decide +kernel⟩,
   ⟨up, 1, by decide +kernel⟩,
   ⟨up, 0, by decide +kernel⟩⟩

end Sys2Proof.Tests
end

section
/-! PROOFS. A register write that lands in a plain field, and the clamp of IMG_QTIMEOUT (R67). -/

namespace Sys2Proof.Machine

/-! ### A write of a plain register -/

/-- A die and a spine switch have the same fields in the IMG block (R569). -/
theorem portFields_img {d addr : Nat} (h : addr / 0x80000 = 5) : portFields d addr = fieldsAt addr :=
  if_pos (by simp [h])

/-- A field of access RW is not locked, and guard ANY refuses no source: where such a field is alone in its register and
the register starts no command, a write of the whole register stores it, clamped (R558, R561). -/
theorem portWrite_of_plainField {d addr v : Nat} {src : Source} {f : Fld} {s : State} (aligned : addr % 8 = 0)
    (fields : portFields d addr = [f]) (acc : f.acc = .rw) (guard : f.guard = .any)
    (covers : coversField addr 8 f = true) (plain : ∀ w, commandWrite d src addr w s = none) :
    portWrite d src addr 8 v s = (0, s.wr d f (clampField f (f.of (v % 2 ^ 64)))) := by
  have base : addr / 8 * 8 = addr := by omega
  have takes : fieldTakes s d src f = true := by simp [fieldTakes, guard]
  have new (w : Nat) : fieldNew s d f w = f.of w := by simp [fieldNew, acc]
  simp [portWrite, base, aligned, fields, acc, covers, takes, new, plain, plainWrite, each, Acc.writable]

/-- The port of a die that runs takes 8 bytes at an aligned address from the DC and from MGP (R560). -/
theorem registerWrite_of_dieUp {d addr : Nat} {src : Source} {v : Word} {s : State} (hsrc : src ∈ [Source.dc, .mgp])
    (up : dieUp s d = true) (aligned : addr % 8 = 0) :
    registerWrite d addr 8 src v s = (portWrite d src addr 8 v.toNat s).2 := by
  simp only [List.mem_cons, List.not_mem_nil, or_false] at hsrc
  obtain rfl | rfl := hsrc <;> exact if_pos (by simp [portOpen, sourceReaches, up, aligned])

/-! ### IMG_QTIMEOUT -/

/-- IMG_QTIMEOUT is alone in its register (Table IMG-15). -/
theorem portFields_imgQtimeout (d : Nat) : portFields d 0x280020 = [Reg.IMG_QTIMEOUT] :=
  (portFields_img rfl).trans (by decide)

theorem commandWrite_imgQtimeout (d v : Nat) (src : Source) (s : State) :
    commandWrite d src 0x280020 v s = none := rfl

theorem clampField_imgQtimeout (v : Nat) : clampField Reg.IMG_QTIMEOUT v = max 1 (min 10000 v) := rfl

/-- The 14 bits of the field are taken before the clamp: the model's reading of R67 (assumption log 91). -/
theorem registerWrite_imgQtimeout {d : Nat} {src : Source} {v : Word} {s : State} (hsrc : src ∈ [Source.dc, .mgp])
    (up : dieUp s d = true) :
    registerWrite d 0x280020 8 src v s = s.wr d Reg.IMG_QTIMEOUT (max 1 (min 10000 (v.toNat % 2 ^ 14))) := by
  have held : Reg.IMG_QTIMEOUT.of (v.toNat % 2 ^ 64) = v.toNat % 2 ^ 14 := by
    simp only [Fld.of, Reg.IMG_QTIMEOUT]; omega
  rw [registerWrite_of_dieUp hsrc up rfl,
    portWrite_of_plainField rfl (portFields_imgQtimeout d) rfl rfl rfl (commandWrite_imgQtimeout d · src s),
    clampField_imgQtimeout, held]

/-- The field is wide enough for every clamped value. -/
theorem rd_wr_imgQtimeout_clamp (s : State) (d v : Nat) :
    (s.wr d Reg.IMG_QTIMEOUT (max 1 (min 10000 v))).rd d Reg.IMG_QTIMEOUT = max 1 (min 10000 v) :=
  (State.rd_wr_same ..).trans (Nat.mod_eq_of_lt (show _ < 2 ^ 14 by omega))

/-- Settles O6: the write stores the clamp of the 14 bits (assumption log 91), it reads back whole, and no other field
is touched. -/
theorem quiesceTimeoutClamps : Obligations.QuiesceTimeoutClamps := by
  intro s d src v hd hsrc up
  refine ⟨_, (onDie_of_lt hd).trans (congrArg _ (registerWrite_imgQtimeout hsrc up)), ?_⟩
  simp only [rd_wr_imgQtimeout_clamp]
  exact ⟨by omega, by omega, by omega, by omega, by omega, (RegsBut.refl _ s).wr d _ _ (List.mem_singleton_self _)⟩

end Sys2Proof.Machine
end

section
/-! PROOFS. An UNTESTED-ACCEPT that the RM refuses (R119): what it writes and what it leaves. -/

namespace Sys2Proof.Machine

theorem exec_untestedAccept (digest : BitVec 32) (s : State) :
    exec (.untestedAccept digest) s = .next (untestedAccept digest s) := rfl

/-- While the census is open (R119), or held for majors that differ (R108), the running RM answers every digest with
STALE-DIGEST. -/
theorem untestedAccept_of_census_open_or_hold {digest : BitVec 32} {s : State} (up : s.rack.rmUp = true)
    (refused : s.boot.censusOpen = true ∨ s.boot.hold = 1) :
    untestedAccept digest s = acceptRecord_ digest 1 s := by
  simp [untestedAccept, up, refused]

/-- The frame of an effect that may change the recorder's part alone. -/
def recsOnly : Frame where
  regs := False
  rack := False
  boot := False
  img := False
  core := False
  slc := False
  hbm := False
  net := False
  que := False
  prt := False
  xlt := False
  host := False
  recs := True
  out := False

theorem keeps_recsOnly_acceptRecord (digest : BitVec 32) (result : Nat) (s : State) :
    Keeps recsOnly s (acceptRecord_ digest result s) :=
  acceptRecord__keeps trivial digest result (.refl _ s)

/-- Settles O7: the open census turns the command into its STALE-DIGEST record, and that record touches the recorder
alone. -/
theorem openCensusRefusesAccept : Obligations.OpenCensusRefusesAccept := by
  intro s digest up censusOpen
  have stale : untestedAccept digest s = acceptRecord_ digest 1 s :=
    untestedAccept_of_census_open_or_hold up (.inl censusOpen)
  have kept := keeps_recsOnly_acceptRecord digest 1 s
  exact ⟨_, (exec_untestedAccept digest s).trans (congrArg _ stale),
    kept.boot id, kept.regs id, kept.rack id, kept.host id, kept.img id, rfl⟩

end Sys2Proof.Machine
end

section
/-! PROOFS. The predicate registers (R123): what a write to p`n` stores in its thread, and what each lane then reads. -/

namespace Sys2Proof.Machine

/-! ### One thread -/

/-- Bit `k` of the mask with which `Thread.setP` writes p`n`: no bit at all for p7. -/
@[simp] theorem getElem_predMask {k : Nat} (hk : k < 7) (n : Nat) :
    (BitVec.ofNat 7 (1 <<< n))[k] = decide (n = k) := by
  rw [← BitVec.getLsbD_eq_getElem, BitVec.getLsbD_ofNat, Nat.one_shiftLeft, Nat.testBit_two_pow, decide_eq_true hk,
    Bool.true_and]

/-- Each stored predicate after a write to any of p0 to p7. -/
theorem Thread.getLsbD_preds_setP (x : Thread) (n : Nat) (b : Bool) {k : Nat} (hk : k < 7) :
    (x.setP n b).preds.getLsbD k = if n = k then b else x.preds.getLsbD k := by
  cases b <;> by_cases same : n = k <;> simp [Thread.setP, same, hk]

/-- The seven stored bits of a thread have no place for p7. -/
theorem Thread.setP_seven (x : Thread) (b : Bool) : x.setP 7 b = x := by
  have preds : (x.setP 7 b).preds = x.preds := BitVec.eq_of_getLsbD_eq fun k hk => by
    rw [x.getLsbD_preds_setP 7 b hk, if_neg hk.ne']
  exact congrArg (fun p => { x with preds := p }) preds

/-! ### The threads of a troupe -/

theorem Troupe.thread_updThread (t : Troupe) (lane : Nat) (f : Thread → Thread) (lane' : Nat) :
    (t.updThread lane f).thread lane' = (t.thread lane').map (fun x => if lane = lane' then f x else x) :=
  List.getElem?_modify f lane t.threads lane'

@[simp] theorem Troupe.updThread_id (t : Troupe) (lane : Nat) : t.updThread lane id = t :=
  congrArg (fun l => { t with threads := l }) (List.modify_id lane t.threads)

theorem Troupe.exists_thread {t : Troupe} {lane : Nat} (h : lane < t.threads.length) : ∃ x, t.thread lane = some x :=
  ⟨_, List.getElem?_eq_getElem h⟩

/-! ### Reads of a predicate -/

@[simp] theorem Troupe.p_seven (t : Troupe) (lane : Nat) : t.p 7 lane = true := rfl

theorem Troupe.p_of_lt {q : Nat} (hq : q < 7) (t : Troupe) (lane : Nat) :
    t.p q lane = ((t.thread lane).map (fun x => x.preds.getLsbD q)).getD false :=
  if_neg hq.ne

@[simp] theorem Troupe.setP_seven (t : Troupe) (lane : Nat) (b : Bool) : t.setP 7 lane b = t := by
  have discards : (fun x : Thread => x.setP 7 b) = id := funext fun x => x.setP_seven b
  rw [Troupe.setP, discards, Troupe.updThread_id]

/-- The written thread reads the value back. -/
theorem Troupe.p_setP_same {t : Troupe} {q lane : Nat} (hq : q < 7) (hlane : lane < t.threads.length) (b : Bool) :
    (t.setP q lane b).p q lane = b := by
  obtain ⟨x, hx⟩ := Troupe.exists_thread hlane
  simp [Troupe.p_of_lt hq, Troupe.setP, Troupe.thread_updThread, hx, x.getLsbD_preds_setP q b hq]

/-- Another predicate, and every predicate of another lane, reads what it read before. -/
theorem Troupe.p_setP_other (t : Troupe) {q lane q' lane' : Nat} (b : Bool) (hq' : q' < 8)
    (other : ¬(q' = q ∧ lane' = lane)) : (t.setP q lane b).p q' lane' = t.p q' lane' := by
  obtain hq' | rfl : q' < 7 ∨ q' = 7 := by omega
  · rw [Troupe.p_of_lt hq', Troupe.p_of_lt hq', Troupe.setP, Troupe.thread_updThread, Option.map_map]
    congr 2
    funext x
    by_cases written : lane = lane'
    · have differs : q ≠ q' := fun h => other ⟨h.symm, written.symm⟩
      simp [written, x.getLsbD_preds_setP q b hq', differs]
    · simp [written]
  · rfl

/-- Settles O8: p7 has no stored bit to read or to write (R123), and the other predicates are bits of their own. -/
theorem predicateSeven : Obligations.PredicateSeven := by
  refine ⟨Troupe.p_seven, Troupe.setP_seven, fun t q n q' n' b hq hq' hn => ?_⟩
  split
  next same =>
    obtain ⟨rfl, rfl⟩ := same
    exact Troupe.p_setP_same hq hn b
  next other => exact t.p_setP_other b hq' other

end Sys2Proof.Machine
end

section
/-! PROOFS. The cohort (R180, R182): which threads are active, and which lanes hold an active thread at the least PC. -/

namespace Sys2Proof.Machine

/-! ### Active threads -/

theorem Thread.live_iff (x : Thread) : x.live = true ↔ x.exited = false ∧ x.parked = none := by
  simp [Thread.live]

theorem Troupe.fresh_iff (t : Troupe) :
    t.fresh = true ↔ ∃ y ∈ t.threads, y.exited = false ∧ y.parked = none ∧ y.yielded = false := by
  simp [Troupe.fresh, Thread.live_iff, and_assoc]

/-- A yielded thread is excluded while some live thread has not yielded (R182). -/
theorem Troupe.active_iff (t : Troupe) (x : Thread) :
    t.active x = true ↔ x.exited = false ∧ x.parked = none ∧ ¬(x.yielded = true ∧ t.fresh = true) := by
  have excluded : (!(x.yielded && t.fresh)) = true ↔ ¬(x.yielded = true ∧ t.fresh = true) := by
    rw [Bool.not_eq_true', ← Bool.not_eq_true, Bool.and_eq_true]
  rw [Troupe.active, Bool.and_eq_true, Thread.live_iff, and_assoc, excluded]

/-! ### The least PC -/

theorem leastPc_eq_min? (l : List Thread) : leastPc l = (l.map (·.pc.toNat)).min? := by
  induction l with
  | nil => rfl
  | cons x l ih =>
    rw [leastPc, ih, List.map_cons, List.min?_cons]
    cases (l.map (·.pc.toNat)).min? with
    | none => rfl
    | some n => exact congrArg some (Nat.min_comm ..)

/-- An active thread gives the cohort its PC when no active thread of the troupe has a lesser one. -/
theorem Troupe.cohortPc_eq_some_iff {t : Troupe} {x : Thread} (member : x ∈ t.threads) (active : t.active x = true) :
    t.cohortPc = some x.pc.toNat ↔ ∀ y ∈ t.threads, t.active y = true → x.pc.toNat ≤ y.pc.toNat := by
  have listed : x.pc.toNat ∈ (t.threads.filter t.active).map (·.pc.toNat) :=
    List.mem_map_of_mem (List.mem_filter.2 ⟨member, active⟩)
  rw [Troupe.cohortPc, leastPc_eq_min?, List.min?_eq_some_iff, and_iff_right listed, List.forall_mem_map]
  simp only [List.mem_filter, and_imp]

/-! ### The lanes of the cohort -/

theorem Troupe.mem_threads_of_thread {t : Troupe} {n : Nat} {x : Thread} (h : t.thread n = some x) : x ∈ t.threads :=
  List.mem_of_getElem? h

theorem Troupe.lt_of_thread {t : Troupe} {n : Nat} {x : Thread} (h : t.thread n = some x) : n < t.threads.length :=
  (List.getElem?_eq_some_iff.1 h).1

theorem Troupe.mem_cohort (t : Troupe) (n : Nat) :
    n ∈ t.cohort ↔ n < 32 ∧ ∃ x, t.thread n = some x ∧ t.active x = true ∧ t.cohortPc = some x.pc.toNat := by
  cases pcs : t.cohortPc with
  | none => simp [Troupe.cohort, pcs]
  | some pc => cases lane : t.thread n <;> simp [Troupe.cohort, pcs, lane, @eq_comm _ pc]

/-- R180, in a troupe of at most 32 threads. -/
theorem Troupe.mem_cohort_iff_least {t : Troupe} (size : t.threads.length ≤ 32) (n : Nat) :
    n ∈ t.cohort ↔ ∃ x, t.thread n = some x ∧ t.active x = true ∧
      ∀ y ∈ t.threads, t.active y = true → x.pc.toNat ≤ y.pc.toNat := by
  rw [t.mem_cohort]
  constructor
  · rintro ⟨-, x, hx, active, least⟩
    exact ⟨x, hx, active, (Troupe.cohortPc_eq_some_iff (Troupe.mem_threads_of_thread hx) active).1 least⟩
  · rintro ⟨x, hx, active, least⟩
    exact ⟨(Troupe.lt_of_thread hx).trans_le size, x, hx, active,
      (Troupe.cohortPc_eq_some_iff (Troupe.mem_threads_of_thread hx) active).2 least⟩

/-- Every lane of the cohort is at the PC of the cohort. -/
theorem Troupe.pc_of_mem_cohort {t : Troupe} {n pc : Nat} (issuesAt : t.cohortPc = some pc) (h : n ∈ t.cohort) :
    ∃ x, t.thread n = some x ∧ x.pc.toNat = pc := by
  obtain ⟨-, x, hx, -, hpc⟩ := (t.mem_cohort n).1 h
  exact ⟨x, hx, Option.some.inj (hpc.symm.trans issuesAt)⟩

@[simp] theorem mkIss_cohort (t : Troupe) (w pc now : Nat) : (mkIss t w pc now).cohort = t.cohort := rfl

/-- Settles O9: the model's minimum over the active threads is the least PC of R180, and an issue takes its lanes from
it and its PC from the fetch there. -/
theorem cohortIsLeastPc : Obligations.CohortIsLeastPc := by
  refine ⟨fun t x => ?_, fun t n size => Troupe.mem_cohort_iff_least size n, fun s u a op f t i issues => ?_⟩
  · rw [t.active_iff, t.fresh_iff]
  · obtain ⟨-, -, -, -, -, -, pcs, -, -, -, made⟩ := issues
    have cohort : i.cohort = t.cohort := (congrArg Iss.cohort made).trans (mkIss_cohort ..)
    exact ⟨cohort, fun n hn => Troupe.pc_of_mem_cohort pcs (cohort ▸ hn)⟩

end Sys2Proof.Machine
end

section
/-! PROOFS. The Toash-S ports (R291): the sibling behind a port, and the way back through its port. -/

namespace Sys2Proof.Machine

/-- The XOR of R291 gives a position of the module. -/
theorem position_xor_lt (d : Nat) {k : Nat} (hk : k < 3) : d % 4 ^^^ (k + 1) < 4 :=
  Nat.xor_lt_two_pow (n := 2) (Nat.mod_lt d (by decide)) (Nat.succ_lt_succ hk)

/-- The die behind a port is of the same module. -/
theorem moduleOf_siblingOf (d : Nat) {k : Nat} (hk : k < 3) : moduleOf (siblingOf d k) = moduleOf d := by
  have position := position_xor_lt d hk
  unfold moduleOf siblingOf
  omega

theorem siblingOf_mod_four (d : Nat) {k : Nat} (hk : k < 3) : siblingOf d k % 4 = d % 4 ^^^ (k + 1) := by
  have position := position_xor_lt d hk
  unfold siblingOf
  omega

/-- No port comes back to its own die: the XOR with k + 1 moves every position. -/
theorem siblingOf_ne (d : Nat) {k : Nat} (hk : k < 3) : siblingOf d k ≠ d := by
  intro same
  have fixed : d % 4 ^^^ (k + 1) = d % 4 := (siblingOf_mod_four d hk).symm.trans (congrArg (· % 4) same)
  have zero : k + 1 = 0 := Nat.xor_right_injective (fixed.trans (Nat.xor_zero _).symm)
  omega

/-- Port `k` of the sibling leads back: its module is the same, and the XOR undoes itself. -/
theorem siblingOf_siblingOf (d : Nat) {k : Nat} (hk : k < 3) : siblingOf (siblingOf d k) k = d :=
  calc siblingOf (siblingOf d k) k
      = siblingOf d k / 4 * 4 + (siblingOf d k % 4 ^^^ (k + 1)) := rfl
    _ = d / 4 * 4 + (d % 4 ^^^ (k + 1) ^^^ (k + 1)) := by
        rw [siblingOf_mod_four d hk, show siblingOf d k / 4 = d / 4 from moduleOf_siblingOf d hk]
    _ = d := by rw [Nat.xor_xor_cancel_right, Nat.div_add_mod']

/-- Settles O13: XOR with k + 1 permutes the four positions of a module, fixes none and undoes itself. -/
theorem toashSPorts : Obligations.ToashSPorts := fun d _ hk =>
  ⟨moduleOf_siblingOf d hk, siblingOf_mod_four d hk, siblingOf_ne d hk, siblingOf_siblingOf d hk⟩

end Sys2Proof.Machine
end

section
/-! PROOFS. Long words (R314): the integer of 304 bits that an FP32 value becomes, the sum of two, and the flags. -/

namespace Sys2Proof.Machine

/-! ### Signed fields -/

theorem ofSigned_modEq (w : Nat) (i : Int) : (ofSigned w i : Int) ≡ i [ZMOD 2 ^ w] := by
  rw [ofSigned, Int.toNat_of_nonneg (Int.emod_nonneg i (by positivity))]
  exact Int.mod_modEq i _

theorem ofSigned_lt (w : Nat) (i : Int) : ofSigned w i < 2 ^ w := by
  have below : i % 2 ^ w < 2 ^ w := Int.emod_lt_of_pos i (by positivity)
  rw [ofSigned, Int.toNat_lt (Int.emod_nonneg i (by positivity))]
  exact_mod_cast below

/-- The bits of a signed number are the only ones of their residue. -/
theorem mod_eq_ofSigned {w n : Nat} {i : Int} (h : (n : Int) ≡ i [ZMOD 2 ^ w]) : n % 2 ^ w = ofSigned w i := by
  rw [← Nat.mod_eq_of_lt (ofSigned_lt w i)]
  exact Int.natCast_modEq_iff.1 (by exact_mod_cast h.trans (ofSigned_modEq w i).symm)

/-- A field read as a signed number keeps its residue. -/
theorem toSigned_modEq (w n : Nat) : toSigned w n ≡ n [ZMOD 2 ^ w] := by
  unfold toSigned
  split
  · exact Int.ModEq.refl _
  · exact Int.modEq_iff_dvd.2 ⟨1, by ring⟩

/-- A sum of two fields is the sum of the signed numbers, where that sum fits. -/
theorem toSigned_add {w : Nat} (hw : 0 < w) (a b : Nat) (lo : -(2 ^ (w - 1) : Int) ≤ toSigned w a + toSigned w b)
    (hi : toSigned w a + toSigned w b < 2 ^ (w - 1)) :
    toSigned w ((a + b) % 2 ^ w) = toSigned w a + toSigned w b := by
  have residue : ((a + b : Nat) : Int) ≡ toSigned w a + toSigned w b [ZMOD 2 ^ w] := by
    exact_mod_cast ((toSigned_modEq w a).add (toSigned_modEq w b)).symm
  rw [mod_eq_ofSigned residue, ← Nat.mod_eq_of_lt (ofSigned_lt w _)]
  exact toSigned_ofSigned w hw _ lo hi

/-- A number that fits is its own bits. -/
theorem ofSigned_natCast {w v : Nat} (hv : v < 2 ^ w) : ofSigned w v = v :=
  (mod_eq_ofSigned (Int.ModEq.refl _)).symm.trans (Nat.mod_eq_of_lt hv)

/-- The two's complement of a number is the bits of its negative. -/
theorem twosComplement_eq_ofSigned_neg {w v : Nat} (hv : v ≤ 2 ^ w) : (2 ^ w - v) % 2 ^ w = ofSigned w (-v) := by
  refine mod_eq_ofSigned (Int.modEq_iff_dvd.2 ⟨-1, ?_⟩)
  push_cast [hv]
  ring

/-! ### FP32 values -/

/-- `Fmt.decode` at the widths of FP32. -/
theorem fp32_decode (x : Nat) : fp32.decode x =
    if x / 2 ^ 23 % 2 ^ 8 == 255 then (if x % 2 ^ 23 = 0 then .inf (x / 2 ^ 31 % 2 == 1) else .nan)
    else if x / 2 ^ 23 % 2 ^ 8 = 0 then .num (x / 2 ^ 31 % 2 == 1) (x % 2 ^ 23) (-149)
    else .num (x / 2 ^ 31 % 2 == 1) (x % 2 ^ 23 + 2 ^ 23) (-149 + (x / 2 ^ 23 % 2 ^ 8 : Nat) - 1) := rfl

/-- What a finite FP32 value can be: 24 bits of significand, and an exponent from that of the least subnormal to that
of the largest finite value. -/
theorem fp32_decode_num {x m : Nat} {neg : Bool} {e : Int} (h : fp32.decode x = .num neg m e) :
    m < 2 ^ 24 ∧ -149 ≤ e ∧ e ≤ 104 := by
  rw [fp32_decode] at h
  split at h
  case isTrue => split at h <;> contradiction
  case isFalse top =>
    rw [beq_iff_eq] at top
    split at h <;> obtain ⟨-, rfl, rfl⟩ := FV.num.inj h <;> omega

/-- The magnitude of every finite FP32 value, in units of 2^-149, fits in 277 bits. -/
theorem fp32_units_lt {x m : Nat} {neg : Bool} {e : Int} (h : fp32.decode x = .num neg m e) {w : Nat}
    (wide : 277 ≤ w) : m * 2 ^ (e + 149).toNat < 2 ^ w := by
  obtain ⟨significand, -, largest⟩ := fp32_decode_num h
  have unit : 2 ^ (e + 149).toNat ≤ 2 ^ (w - 24) := Nat.pow_le_pow_right (by decide) (by omega)
  calc m * 2 ^ (e + 149).toNat
      < 2 ^ 24 * 2 ^ (w - 24) := Nat.mul_lt_mul_of_lt_of_le significand unit (by positivity)
    _ = 2 ^ w := by rw [← Nat.pow_add, Nat.add_sub_cancel' (by omega)]

theorem scaled_fp32 (neg : Bool) (m : Nat) (e : Int) : scaled neg m e (-149) =
    if neg then -((m * 2 ^ (e + 149).toNat : Nat) : Int) else ((m * 2 ^ (e + 149).toNat : Nat) : Int) := rfl

/-! ### Bits of a long word -/

theorem toNat_ofNat_of_lt {w k v : Nat} (hv : v < 2 ^ k) (hk : k ≤ w) : (BitVec.ofNat w v).toNat = v :=
  (BitVec.toNat_ofNat ..).trans (Nat.mod_eq_of_lt (hv.trans_le (Nat.pow_le_pow_right (by decide) hk)))

/-- A flag alone. -/
theorem toNat_ofNat_two_pow {w k : Nat} (hk : k < w) : (BitVec.ofNat w (2 ^ k)).toNat = 2 ^ k :=
  toNat_ofNat_of_lt (Nat.pow_lt_pow_succ (by decide)) hk

theorem toNat_ofNat_mod {w k : Nat} (hk : k ≤ w) (v : Nat) : (BitVec.ofNat w v).toNat % 2 ^ k = v % 2 ^ k := by
  rw [BitVec.toNat_ofNat, Nat.mod_mod_of_dvd _ (Nat.pow_dvd_pow 2 hk)]

/-! ### Conversion -/

/-- The integer of a finite value's long word, its flags 0: the value in units of 2^-149. -/
theorem toLong_of_num {x m : Nat} {neg : Bool} {e : Int} (h : fp32.decode x = .num neg m e) :
    (toLong x).toNat = ofSigned 304 (scaled neg m e (-149)) := by
  have fits : m * 2 ^ (e + 149).toNat < 2 ^ 304 := fp32_units_lt h (by decide)
  have integer : (if neg then (2 ^ 304 - m * 2 ^ (e + 149).toNat) % 2 ^ 304 else m * 2 ^ (e + 149).toNat) =
      ofSigned 304 (scaled neg m e (-149)) := by
    rw [scaled_fp32]
    cases neg
    · exact (ofSigned_natCast fits).symm
    · exact twosComplement_eq_ofSigned_neg fits.le
  rw [toLong, h]
  dsimp only
  rw [integer]
  exact toNat_ofNat_of_lt (ofSigned_lt 304 _) (by decide)

/-- The integer of a long word reads back as the value, which is far inside its range. -/
theorem toSigned_toLong {x m : Nat} {neg : Bool} {e : Int} (h : fp32.decode x = .num neg m e) :
    toSigned 304 ((toLong x).toNat % 2 ^ 304) = scaled neg m e (-149) := by
  have fits : ((m * 2 ^ (e + 149).toNat : Nat) : Int) < 2 ^ 303 := by
    exact_mod_cast fp32_units_lt h (by decide)
  rw [toLong_of_num h]
  refine toSigned_ofSigned 304 (by decide) _ ?_ ?_ <;> rw [scaled_fp32] <;> split <;> omega

theorem toLong_of_nan {x : Nat} (h : fp32.decode x = .nan) : (toLong x).toNat = 2 ^ 304 := by
  rw [toLong, h]
  exact toNat_ofNat_two_pow (by decide)

theorem toLong_of_inf {x : Nat} {neg : Bool} (h : fp32.decode x = .inf neg) :
    (toLong x).toNat = if neg then 2 ^ 306 else 2 ^ 305 := by
  rw [toLong, h]
  cases neg <;> exact toNat_ofNat_two_pow (by decide)

/-! ### Addition -/

theorem redLong_toNat_mod (x y : BitVec 307) :
    (redLong x y).toNat % 2 ^ 304 = (x.toNat % 2 ^ 304 + y.toNat % 2 ^ 304) % 2 ^ 304 := by
  rw [redLong, toNat_ofNat_mod (by decide), Nat.add_mul_mod_self_right, Nat.mod_mod]

theorem getLsbD_redLong (x y : BitVec 307) {k : Nat} (flag : 304 ≤ k) (hk : k < 307) :
    (redLong x y).getLsbD k = (x.getLsbD k || y.getLsbD k) := by
  have below : (x.toNat % 2 ^ 304 + y.toNat % 2 ^ 304) % 2 ^ 304 < 2 ^ 304 := Nat.mod_lt _ (by positivity)
  rw [redLong, BitVec.getLsbD_ofNat, decide_eq_true hk, Bool.true_and, Nat.add_comm, Nat.mul_comm,
    Nat.testBit_two_pow_mul_add _ below, if_neg (Nat.not_lt.2 flag), Nat.testBit_or, Nat.testBit_div_two_pow,
    Nat.testBit_div_two_pow, Nat.sub_add_cancel flag]
  rfl

/-- Settles O10: a number within the range of 304 bits is fixed by its residue, so the conversion of a finite value and
a sum within the range are exact (R314); the flags stand above the integer, where no carry of the sum reaches. -/
theorem longWords : Obligations.LongWords := by
  refine ⟨fun x m neg e h => ⟨?_, toSigned_toLong h, ?_⟩, fun _ => toLong_of_nan,
    fun _ => toLong_of_inf, fun _ => toLong_of_inf, fun x y lo hi => ⟨?_, fun k => getLsbD_redLong x y⟩⟩
  · obtain ⟨-, least, -⟩ := fp32_decode_num h
    exact least
  · rw [toLong_of_num h]
    exact Nat.div_eq_of_lt (ofSigned_lt 304 _)
  · rw [redLong_toNat_mod]
    exact toSigned_add (by decide) _ _ lo hi

end Sys2Proof.Machine
end

section
/-! PROOFS. One mover of the machine: how it is found, put back and freed; and what an effect that starts no work leaves
stopped (R189, R190, R342). -/

namespace Sys2Proof.Machine

/-! ### Finding a mover and putting it back -/

theorem find?_updWhere_const {α : Type} {p : α → Bool} {y : α} (hy : p y = true) (l : List α) :
    (updWhere p (fun _ => y) l).find? p = (l.find? p).map (fun _ => y) := by
  induction l with
  | nil => rfl
  | cons z l ih => cases named : p z <;> simp_all [updWhere]

/-- The mover found is the one that was named. -/
theorem named_of_findMover {s : State} {d m : Nat} {x : Mover} (h : findMover s d m = some x) : x.die = d ∧ x.m = m := by
  simpa using List.find?_some h

theorem findMover_eq_none_iff {s : State} {d m : Nat} :
    findMover s d m = none ↔ ∀ y ∈ s.que.movers, y.die = d → y.m ≠ m := by
  simp [findMover]

/-- A mover put back is found. -/
theorem findMover_putMover {s : State} {x y : Mover} {d m : Nat} (found : findMover s d m = some x) (hd : y.die = d)
    (hm : y.m = m) : findMover (putMover y s) d m = some y := by
  subst hd hm
  exact (find?_updWhere_const (by simp) _).trans (congrArg (Option.map _) found)

/-- A mover put back stands for every mover of its die and number. -/
theorem eq_of_mem_movers_putMover {s : State} {x y : Mover} (h : y ∈ (putMover x s).que.movers) (hd : y.die = x.die)
    (hm : y.m = x.m) : y = x := by
  obtain ⟨z, -, rfl⟩ := List.mem_map.1 h
  by_cases named : z.die = x.die ∧ z.m = x.m <;> simp_all

/-! ### What stays stopped -/

/-- What has stopped in `s` is stopped in `t`: no mover has begun, and no killed context is re-armed. -/
structure StaysStopped (s t : State) : Prop where
  movers : t.que.movers ⊆ s.que.movers
  killed : s.core.killed ⊆ t.core.killed

variable {s₀ s t : State}

namespace StaysStopped

theorem refl (s : State) : StaysStopped s s := ⟨fun _ h => h, fun _ h => h⟩

theorem trans (h : StaysStopped s₀ s) (k : StaysStopped s t) : StaysStopped s₀ t :=
  ⟨fun _ hy => h.movers (k.movers hy), fun _ hy => k.killed (h.killed hy)⟩

/-- A change beside the movers and the killed contexts. -/
theorem beside (h : StaysStopped s₀ s) (movers : t.que.movers = s.que.movers)
    (killed : t.core.killed = s.core.killed) : StaysStopped s₀ t :=
  ⟨movers ▸ h.movers, killed ▸ h.killed⟩

theorem findMover_eq_none (h : StaysStopped s t) {d m : Nat} (free : findMover s d m = none) :
    findMover t d m = none :=
  findMover_eq_none_iff.2 fun y hy => findMover_eq_none_iff.1 free y (h.movers hy)

theorem ctxKilled_eq_true (h : StaysStopped s t) {p i c : Nat} (killed : ctxKilled s p i c = true) :
    ctxKilled t p i c = true :=
  List.contains_iff_mem.2 (h.killed (List.contains_iff_mem.1 killed))

theorem each {α : Type} {f : State → α → State} {l : List α}
    (hf : ∀ s x, StaysStopped s₀ s → StaysStopped s₀ (f s x)) (h : StaysStopped s₀ s) :
    StaysStopped s₀ (each l f s) := by
  induction l generalizing s with
  | nil => exact h
  | cons x l ih => exact ih (hf s x h)

end StaysStopped

/-- The frame of an effect that starts and stops no work: the parts of the movers and of the cores are not in it. -/
def besideWork : Frame where
  regs := True
  rack := True
  boot := True
  img := True
  core := False
  slc := True
  hbm := True
  net := True
  que := False
  prt := True
  xlt := True
  host := True
  recs := True
  out := True

theorem StaysStopped.keeps (h : StaysStopped s₀ s) (k : Keeps besideWork s t) : StaysStopped s₀ t :=
  h.beside (congrArg Queues.movers (k.que id)) (congrArg Cores.killed (k.core id))

/-! ### The end of an item -/

theorem charge_staysStopped (d p i kind n : Nat) (h : StaysStopped s₀ s) : StaysStopped s₀ (charge d p i kind n s) := by
  unfold charge
  split
  · exact h
  · exact h.beside rfl rfl

theorem reportSectors_staysStopped (q : Nat) (h : StaysStopped s₀ s) : StaysStopped s₀ (reportSectors q s) := by
  have spent (kind k : Nat) {u : State} (hu : StaysStopped s₀ u) : StaysStopped s₀ (charge (queDie q) (quePart s q)
      (queInst s q) kind (32 * SMap.get 0 s.que.sectors (2 * q + k)) u) := charge_staysStopped _ _ _ _ _ hu
  exact (spent 3 1 (spent 2 0 h)).beside rfl rfl

theorem writeCqe_staysStopped (cq tag status queue kind index info : Nat) (irq : Bool) (h : StaysStopped s₀ s) :
    StaysStopped s₀ (writeCqe cq tag status queue kind index info irq s) :=
  h.keeps (writeCqe_keeps trivial trivial trivial trivial trivial trivial _ _ _ _ _ _ _ _ (.refl _ s))

theorem completeItem_staysStopped (q tag status kind index info : Nat) (cqe irq : Bool) (h : StaysStopped s₀ s) :
    StaysStopped s₀ (completeItem q tag status kind index info cqe irq s) := by
  have reported : StaysStopped s₀
      (reportSectors q { s with que := { s.que with itemsOut := lower s.que.itemsOut q } }) :=
    reportSectors_staysStopped q (h.beside rfl rfl)
  cases cqe with
  | false => exact reported
  | true => exact writeCqe_staysStopped _ _ _ _ _ _ _ _ (reported.beside rfl rfl)

theorem dropMovers_staysStopped (pm : Mover → Bool) (h : StaysStopped s₀ s) : StaysStopped s₀ (dropMovers pm s) :=
  ⟨fun _ hy => h.movers (List.mem_of_mem_filter hy), h.killed⟩

theorem findMover_dropMovers (x : Mover) (s : State) :
    findMover (dropMovers (fun y => Nat.beq y.die x.die && Nat.beq y.m x.m) s) x.die x.m = none := by
  rw [findMover_eq_none_iff]
  intro y hy hd hm
  obtain ⟨-, kept⟩ := List.mem_filter.1 hy
  simp [hd, hm] at kept

/-- A mover whose item completes is free. -/
theorem findMover_mvFinish (x : Mover) (status : Nat) (s : State) :
    findMover (mvFinish x status s) x.die x.m = none :=
  (completeItem_staysStopped _ _ _ _ _ _ _ _ (.refl _)).findMover_eq_none (findMover_dropMovers x s)

/-! ### The end of a context kill and of a partition -/

theorem emit_staysStopped (d unit typ cls : Nat) (sealed_ : Bool) (payload : List PF) (h : StaysStopped s₀ s) :
    StaysStopped s₀ (emit d unit typ cls sealed_ payload s) := h.beside rfl rfl

theorem detach_staysStopped (l : Launch) (taint : Bool) (h : StaysStopped s₀ s) :
    StaysStopped s₀ (detach l taint s) := by
  unfold detach detachIds
  exact .each (fun _ _ h => h.beside rfl rfl) h

theorem endLaunch_staysStopped (l : Launch) (h : StaysStopped s₀ s) : StaysStopped s₀ (endLaunch l s) :=
  completeItem_staysStopped _ _ _ _ _ _ _ _ (detach_staysStopped l true h)

theorem endLaunches_staysStopped (l : List Launch) (h : StaysStopped s₀ s) :
    StaysStopped s₀ (each l (fun s x => endLaunch x s) s) :=
  .each (fun _ x => endLaunch_staysStopped x) h

theorem closeKill_staysStopped (k : OpenKill) (h : StaysStopped s₀ s) : StaysStopped s₀ (closeKill k s) := by
  unfold closeKill killRecord
  exact emit_staysStopped _ _ _ _ _ _ (endLaunches_staysStopped _ (h.beside rfl rfl))

theorem closeKills_staysStopped (f : OpenKill → Bool) (h : StaysStopped s₀ s) : StaysStopped s₀ (closeKills f s) :=
  .each (fun _ k => closeKill_staysStopped k) h

theorem dropTroupes_staysStopped (on : Nat → Bool) (pt : Troupe → Bool) (pl : Launch → Bool)
    (h : StaysStopped s₀ s) : StaysStopped s₀ (dropTroupes on pt pl s) := by
  have invalidated (l : List Nat) : StaysStopped s₀ (each l (fun s c => invalL1 (c / 320) (c % 320) s) s) :=
    .each (fun _ _ h => h.beside rfl rfl) h
  exact (invalidated _).beside rfl rfl

theorem stopPartition_staysStopped (p : Nat) (h : StaysStopped s₀ s) : StaysStopped s₀ (stopPartition p s) := by
  have stopped := dropMovers_staysStopped (fun m => Nat.beq m.part p) (dropTroupes_staysStopped (fun _ => true)
    (fun t => Nat.beq t.part p) (fun l => Nat.beq l.part p)
    (closeKills_staysStopped (fun k => Nat.beq k.part p) h))
  exact stopped.beside rfl rfl

theorem setFaulted_staysStopped (p : Nat) (h : StaysStopped s₀ s) : StaysStopped s₀ (setFaulted p s) :=
  h.keeps (setFaulted_keeps trivial trivial p (.refl _ s))

theorem faultEntries_staysStopped (p info : Nat) (h : StaysStopped s₀ s) : StaysStopped s₀ (faultEntries p info s) :=
  h.keeps (faultEntries_keeps trivial trivial trivial trivial trivial trivial p info (.refl _ s))

theorem partFault_staysStopped (p cause d ctype cseq : Nat) (h : StaysStopped s₀ s) :
    StaysStopped s₀ (partFault p cause d ctype cseq s) := by
  unfold partFault
  split
  · exact h
  · exact faultEntries_staysStopped _ _
      (emit_staysStopped _ _ _ _ _ _ (stopPartition_staysStopped _ (setFaulted_staysStopped _ h)))

theorem poisonSector_staysStopped (pa : Nat) (h : StaysStopped s₀ s) : StaysStopped s₀ (poisonSector pa s) :=
  h.keeps (poisonSector_keeps trivial trivial pa (.refl _ s))

/-- A broken reduction stops its whole partition (R328). -/
theorem redBreak_staysStopped (a : Accum) (cause : Nat) (h : StaysStopped s₀ s) :
    StaysStopped s₀ (redBreak a cause s) := by
  have poisoned : StaysStopped s₀
      (poisonSector (a.pkt.key.sector * 32) { s with net := { s.net with accum := s.net.accum.erase a } }) :=
    poisonSector_staysStopped _ (h.beside rfl rfl)
  unfold redBreak redBroken faultWith
  exact partFault_staysStopped _ _ _ _ _ (emit_staysStopped _ _ _ _ _ _ (poisoned.beside rfl rfl))

theorem redBreakWhere_staysStopped (f : Accum → Bool) (cause : Nat) (h : StaysStopped s₀ s) :
    StaysStopped s₀ (redBreakWhere f cause s) :=
  .each (fun _ a => redBreak_staysStopped a cause) h

/-! ### KILL reaches a die -/

theorem completeAll_staysStopped (l : List Mover) (h : StaysStopped s₀ s) :
    StaysStopped s₀ (each l (fun s m => completeItem m.queue m.tag.toNat 1 1 (m.index.toNat % 2 ^ 32)
      (rtimeInfo s (queDie m.queue)) m.cqe m.irq s) s) :=
  .each (fun _ _ => completeItem_staysStopped _ _ _ _ _ _ _ _) h

/-- A context kill frees every mover that it names, but for one in a SHIFT (R389). -/
theorem findMover_killMovers {f : Mover → Bool} {d m : Nat}
    (named : ∀ y ∈ s.que.movers, y.die = d → y.m = m → f y = true ∧ inShift y = false) :
    findMover (killMovers f s) d m = none := by
  refine (completeAll_staysStopped _ (.refl _)).findMover_eq_none ?_
  rw [findMover_eq_none_iff]
  intro y hy hd hm
  obtain ⟨z, hz, rfl⟩ := List.mem_map.1 hy
  obtain ⟨listed, kept⟩ := List.mem_filter.1 hz
  have same : z.die = d ∧ z.m = m := by split at hd <;> split at hm <;> exact ⟨hd, hm⟩
  simp [named z listed same.1 same.2] at kept

theorem ctxKilled_killMovers {p i c : Nat} (f : Mover → Bool) (killed : ctxKilled s p i c = true) :
    ctxKilled (killMovers f s) p i c = true := by
  unfold killMovers
  exact (completeAll_staysStopped _ (.refl _)).ctxKilled_eq_true killed

/-- The record of the killed contexts as KILL finds it and as it leaves it (R191). -/
theorem killed_subset_and_mem (s : State) (p i c : Nat) :
    s.core.killed ⊆ (if ctxKilled s p i c then s.core.killed else s.core.killed ++ [(p, i, c)]) ∧
    (p, i, c) ∈ (if ctxKilled s p i c then s.core.killed else s.core.killed ++ [(p, i, c)]) := by
  split
  next killed => exact ⟨List.Subset.refl _, List.contains_iff_mem.1 killed⟩
  next => exact ⟨List.subset_append_left .., by simp⟩

/-- KILL on a die ends with the die's movers of the context, which by then is among the killed. -/
theorem exists_killOnDie (d p i c : Nat) (s : State) : ∃ u, StaysStopped s u ∧ ctxKilled u p i c = true ∧
    killOnDie d p i c s = killMovers (fun m => moverTag m p i c && Nat.beq m.die d) u := by
  unfold killOnDie
  extract_lets dropped mine ended underWay reach _ marked launchless
  have noTroupes : StaysStopped s dropped := dropTroupes_staysStopped _ _ _ (.refl s)
  obtain ⟨kept, added⟩ := killed_subset_and_mem dropped p i c
  have stops : StaysStopped s marked := noTroupes.trans ⟨List.Subset.refl _, kept⟩
  have killed : ctxKilled marked p i c = true := List.contains_iff_mem.2 added
  have ends : StaysStopped marked launchless := by
    unfold launchless
    split
    · exact .refl marked
    · exact endLaunches_staysStopped ended (.refl marked)
  exact ⟨launchless, stops.trans ends, ends.ctxKilled_eq_true killed, rfl⟩

/-- KILL frees a mover of the die that is the context's own and outside a SHIFT. -/
theorem killReaches_stops {d p i c m : Nat}
    (own : ∀ y ∈ s.que.movers, y.die = d → y.m = m → moverTag y p i c = true ∧ inShift y = false) :
    findMover (killReaches d p i c s) d m = none ∧ ctxKilled (killReaches d p i c s) p i c = true := by
  obtain ⟨u, stops, killed, stopped⟩ := exists_killOnDie d p i c s
  have freed : findMover (killOnDie d p i c s) d m = none := by
    rw [stopped]
    exact findMover_killMovers fun y hy hd hm => by simp [own y (stops.movers hy) hd hm, hd]
  have marked : ctxKilled (killOnDie d p i c s) p i c = true := by
    rw [stopped]
    exact ctxKilled_killMovers _ killed
  have after : StaysStopped (killOnDie d p i c s) (killReaches d p i c s) :=
    redBreakWhere_staysStopped _ _ (closeKills_staysStopped _ (.refl _))
  exact ⟨after.findMover_eq_none freed, after.ctxKilled_eq_true marked⟩

/-- The fault of a context, in a partition that is not FAULTED (R189). -/
theorem contextFault_stops {w : KillWhy} {m : Nat} (works : s.prt.faulted.contains w.part = false)
    (own : ∀ y ∈ s.que.movers, y.die = w.die → y.m = m →
      moverTag y w.part w.inst w.ctx = true ∧ inShift y = false) :
    findMover (contextFault w s) w.die m = none ∧ ctxKilled (contextFault w s) w.part w.inst w.ctx = true := by
  rw [contextFault, works]
  exact killReaches_stops own

/-- A mover that faults is freed, and its context is killed (R396). -/
theorem mvFault_stops (x : Mover) (code addr : Nat) (works : s.prt.faulted.contains x.part = false) :
    findMover (mvFault x code addr s) x.die x.m = none ∧
      ctxKilled (mvFault x code addr s) x.part x.inst x.ctx = true := by
  unfold mvFault
  refine contextFault_stops works fun y hy hd hm => ?_
  rw [eq_of_mem_movers_putMover hy hd hm]
  simp [moverTag, inShift]

end Sys2Proof.Machine
end

section
/-! PROOFS. MOV_CMD for the mover of a sealed partition (R386, R387). -/

namespace Sys2Proof.Machine

/-! ### The seal of a partition -/

/-- A write away from PART_HALF leaves every partition's halves and their seals. -/
theorem partSealed_wr (s : State) {d : Nat} {f : Fld} (v p : Nat) (lo : f.lo < 64) (below : f.addr < 0x680000) :
    partSealed (s.wr d f v) p = partSealed s p := by
  have half (e h : Nat) {g : Fld} (hg : g.lo < 64) (place : g.addr = 0x680000 + 0x8 * (h % 2)) :
      (s.wr d f v).rd e g = s.rd e g := by
    refine State.rd_wr_ne _ _ _ _ _ _ fun same => ?_
    rw [Fld.key_eq_iff hg lo (by omega) (by omega)] at same
    omega
  have assigned (e h : Nat) := half e h (g := Reg.PART_HALF_ASSIGNED (h % 2)) (by decide : 7 < 64) rfl
  have part (e h : Nat) := half e h (g := Reg.PART_HALF_PART (h % 2)) (by decide : 0 < 64) rfl
  have sealedBit (e h : Nat) := half e h (g := Reg.PART_HALF_SEALED (h % 2)) (by decide : 8 < 64) rfl
  simp [partSealed, partHalves, halfIn, halfPart, assigned, part, sealedBit]

/-! ### MOV_CMD -/

@[simp] theorem findMover_wr (s : State) (d : Nat) (f : Fld) (v e m : Nat) :
    findMover (s.wr d f v) e m = findMover s e m := rfl

/-- The register MOV_CMD with the command's operands in it. -/
def movCmdWritten (d m pc : Nat) (s : State) : State := (s.wr d Reg.MOV_CMD_MOVER m).wr d Reg.MOV_CMD_PC pc

theorem partSealed_movCmdWritten (d m pc : Nat) (s : State) (p : Nat) :
    partSealed (movCmdWritten d m pc s) p = partSealed s p :=
  (partSealed_wr _ _ _ (by decide) (by decide)).trans (partSealed_wr _ _ _ (by decide) (by decide))

/-- A MOV_CMD that names a mover with an item. -/
theorem movCommand_of_found {d m : Nat} {s : State} {x : Mover} (found : findMover s d m = some x) (op pc : Nat)
    (src : Source) : movCommand d m op pc src s =
      if partSealed s x.part = true ∧ src ≠ .warden then movSealed d x.slot 2 (movCmdWritten d m pc s)
      else if x.state ≠ .halted then (movCmdWritten d m pc s).count d Reg.MOV_CMD_IGN 1
      else if op = 1 then
        putMover { x with state := .running, gen := (movCmdWritten d m pc s).rd d (Reg.MOV_SLOT_GEN x.slot),
                          changed := false, pc := pc } (movCmdWritten d m pc s)
      else mvFinish x 0x0C (movCmdWritten d m pc s) := by
  simp [← partSealed_movCmdWritten d m pc s, movCommand, movCmdWritten, found]

/-- Any sender but the warden is refused, which hands over a record alone. -/
theorem movCommand_of_stranger {d m : Nat} {src : Source} {s : State} {x : Mover} (found : findMover s d m = some x)
    (isSealed : partSealed s x.part = true) (stranger : src ≠ .warden) (op pc : Nat) :
    (movCommand d m op pc src s).que = s.que ∧ (movCommand d m op pc src s).slc = s.slc := by
  rw [movCommand_of_found found, if_pos ⟨isSealed, stranger⟩]
  exact ⟨rfl, rfl⟩

/-- The warden's RESTART of a halted mover (R386). -/
theorem findMover_restart {d m : Nat} {s : State} {x : Mover} (found : findMover s d m = some x)
    (halted : x.state = .halted) (pc : Nat) :
    findMover (movCommand d m 1 pc .warden s) d m =
      some { x with state := .running, gen := (movCmdWritten d m pc s).rd d (Reg.MOV_SLOT_GEN x.slot),
                    changed := false, pc := pc } := by
  obtain ⟨hd, hm⟩ := named_of_findMover found
  rw [movCommand_of_found found, if_neg (by simp), if_neg (by simp [halted]), if_pos rfl]
  exact findMover_putMover (s := movCmdWritten d m pc s) found hd hm

/-- The warden's ABORT of a halted mover (R386). -/
theorem findMover_abort {d m : Nat} {s : State} {x : Mover} (found : findMover s d m = some x)
    (halted : x.state = .halted) (pc : Nat) : findMover (movCommand d m 2 pc .warden s) d m = none := by
  obtain ⟨rfl, rfl⟩ := named_of_findMover found
  rw [movCommand_of_found found, if_neg (by simp), if_neg (by simp [halted]), if_neg (by decide)]
  exact findMover_mvFinish ..

theorem exec_restart {s : State} {d m pc : Nat} (hd : d < dieCount s.orderCode) (hm : m < 32) (hpc : pc < 128)
    (src : Source) : exec (.restart d m pc src) s = .next (movCommand d m 1 pc src s) :=
  (onDie_of_lt hd).trans (congrArg _ (if_pos (by simp [hm, hpc])))

theorem exec_abort {s : State} {d m : Nat} (hd : d < dieCount s.orderCode) (hm : m < 32) (src : Source) :
    exec (.abort d m src) s = .next (movCommand d m 2 (s.rd d Reg.MOV_CMD_PC) src s) :=
  (onDie_of_lt hd).trans (congrArg _ (if_pos hm))

/-- Settles O11: the seal is tested before the halt (R387), so a stranger's command stops at the record; the warden's
goes on to the two routes of R386. -/
theorem sealedMoverCommands : Obligations.SealedMoverCommands := by
  intro s d m pc src x hd hm hpc found isSealed
  refine ⟨fun stranger => ⟨?_, ?_⟩, fun halted => ⟨?_, ?_⟩⟩
  · exact ⟨_, exec_restart hd hm hpc src, movCommand_of_stranger found isSealed stranger 1 pc⟩
  · exact ⟨_, exec_abort hd hm src, movCommand_of_stranger found isSealed stranger 2 _⟩
  · exact ⟨_, exec_restart hd hm hpc .warden, _, findMover_restart found halted pc, rfl, rfl⟩
  · exact ⟨_, exec_abort hd hm .warden, findMover_abort found halted _⟩

end Sys2Proof.Machine
end

section
/-! PROOFS. JUMP of a mover (R382): the word that a mover runs, where it goes on, and its reserved bits. -/

namespace Sys2Proof.Machine

/-! ### The word that a mover runs -/

/-- A running mover at a legal word of the command's OP runs it (R376). -/
theorem mvRun_atWord {s : State} {d m op w : Nat} {x : Mover} (h : AtWord s d m op x w)
    (f : Mover → Nat → State → State) :
    mvRun d m op f s = .next (f (runsWord x w) w (putMover (runsWord x w) s)) := by
  obtain ⟨hd, found, running, latched, -, -, -, -, -, -, word, -, legal, opcode, free, readable⟩ := h
  have free' : mvHeld s { x with latched := some (BitVec.ofNat 64 w), state := .running } = false := free
  refine (onDie_of_lt hd).trans (congrArg _ ?_)
  simp [found, running, readable, latched, word, legal, opcode, free', runsWord]

/-- The mover at the boundary before `pc`. -/
def goesTo (x : Mover) (pc : Nat) : Mover :=
  { x with latched := none, cursor := 0, checked := false, pc := pc, state := .running }

/-- A mover that no kill and no program change stops goes on within its slot. -/
theorem mvDone_of_goes {x : Mover} {pc : Nat} (lives : x.stopped = false) (same : x.changed = false) (inSlot : pc < 128)
    (s : State) : mvDone x pc s = putMover (goesTo x pc) s := by
  have within : ¬127 < pc := by omega
  simp [mvDone, lives, same, goesTo, within]

theorem wentTo_putMover {s : State} {d m : Nat} {x y : Mover} (found : findMover s d m = some x) (hd : y.die = d)
    (hm : y.m = m) (pc : Nat) : WentTo (putMover (goesTo y pc) s) d m pc y.mregs :=
  ⟨_, findMover_putMover found hd hm, rfl, rfl, rfl, rfl, rfl⟩

/-! ### JUMP -/

theorem mvRD_lt (w : Nat) : mvRD w < 8 := Nat.mod_lt _ (by decide)

/-- The registers after the condition of `w`: condition 1 counts mrRD down. -/
def jumpRegs (x : Mover) (w : Nat) : List Word :=
  if bits (mvImm w) 17 16 = 1 then x.mregs.set (mvRD w) (BitVec.ofNat 64 (x.mr (mvRD w) + (2 ^ 64 - 1))) else x.mregs

/-- The mover after the condition of `w`. -/
def countsDown (x : Mover) (w : Nat) : Mover := { x with mregs := jumpRegs x w }

/-- Whether the condition of `w` holds of mrRD as it then reads. -/
def takesJump (x : Mover) (w : Nat) : Bool :=
  match bits (mvImm w) 17 16 with
  | 0 => true
  | 1 => (countsDown x w).mr (mvRD w) != 0
  | 2 => (countsDown x w).mr (mvRD w) == 0
  | _ => (countsDown x w).mr (mvRD w) != 0

/-- PC + IMM32[15:0], sign-extended. -/
def jumpTarget (x : Mover) (w : Nat) : Int := x.pc + toSigned 16 (mvImm w % 2 ^ 16)

theorem runsWord_pc (x : Mover) (w : Nat) : (runsWord x w).pc = x.pc := rfl
theorem takesJump_runsWord (x : Mover) (w : Nat) : takesJump (runsWord x w) w = takesJump x w := rfl
theorem jumpTarget_runsWord (x : Mover) (w : Nat) : jumpTarget (runsWord x w) w = jumpTarget x w := rfl

theorem mvJump_eq (x : Mover) (w : Nat) (s : State) : mvJump x w s =
    if !takesJump x w then mvDone (countsDown x w) (x.pc + 1) s
    else if jumpTarget x w < 0 || 127 < jumpTarget x w then mvFault (countsDown x w) 0x01 0 s
    else mvDone (countsDown x w) (jumpTarget x w).toNat s := by
  have counted : (if bits (mvImm w) 17 16 = 1 then x.setMr (mvRD w) (x.mr (mvRD w) + (2 ^ 64 - 1)) else x) =
      countsDown x w := by
    unfold countsDown jumpRegs
    split <;> rfl
  unfold mvJump
  dsimp only
  rw [counted]
  rfl

theorem mvJump_of_target {x : Mover} {w n : Nat} (target : jumpTarget x w = n) (inSlot : n < 128) (s : State) :
    mvJump x w s = mvDone (countsDown x w) (if takesJump x w then n else x.pc + 1) s := by
  have notBelow : ¬(n : Int) < 0 := by omega
  have notAbove : ¬127 < n := by omega
  rw [mvJump_eq, target]
  cases takesJump x w with
  | false => rfl
  | true => simp [notBelow, notAbove]

theorem mvJump_of_no_target {x : Mover} {w : Nat} (taken : takesJump x w = true)
    (outside : jumpTarget x w < 0 ∨ 127 < jumpTarget x w) (s : State) :
    mvJump x w s = mvFault (countsDown x w) 0x01 0 s := by
  rw [mvJump_eq, taken]
  simp [outside]

theorem exec_jump_atWord {s : State} {d m w : Nat} {x : Mover} (h : AtWord s d m 8 x w) :
    exec (.jump d m) s = .next (mvJump (runsWord x w) w (putMover (runsWord x w) s)) :=
  mvRun_atWord h mvJump

/-- A JUMP with its target in the slot takes the mover on, there or to the next word, and touches nothing else. -/
theorem completes_jump {s : State} {d m w n : Nat} {x : Mover} (h : AtWord s d m 8 x w) (target : jumpTarget x w = n)
    (inSlot : n < 128) : Completes (.jump d m) s (fun t => t.regs = s.regs ∧ t.slc = s.slc ∧ t.core = s.core ∧
      WentTo t d m (if takesJump x w then n else x.pc + 1) (jumpRegs x w)) := by
  have run := exec_jump_atWord h
  obtain ⟨-, found, -, -, -, -, lives, same, -, hpc, -⟩ := h
  obtain ⟨hd, hm⟩ := named_of_findMover found
  have runs : findMover (putMover (runsWord x w) s) d m = some (runsWord x w) := findMover_putMover found hd hm
  have next : (if takesJump x w then n else x.pc + 1) < 128 := by split <;> omega
  rw [mvJump_of_target ((jumpTarget_runsWord x w).trans target) inSlot, takesJump_runsWord, runsWord_pc,
    mvDone_of_goes (x := countsDown (runsWord x w) w) lives same next] at run
  exact ⟨_, run, rfl, rfl, rfl, wentTo_putMover (y := countsDown (runsWord x w) w) runs hd hm _⟩

/-- A JUMP that is taken with its target outside the slot faults ILLEGAL. -/
theorem completes_jump_of_no_target {s : State} {d m w : Nat} {x : Mover} (h : AtWord s d m 8 x w)
    (taken : takesJump x w = true) (outside : jumpTarget x w < 0 ∨ 127 < jumpTarget x w)
    (works : s.prt.faulted.contains x.part = false) :
    Completes (.jump d m) s (fun t => findMover t d m = none ∧ ctxKilled t x.part x.inst x.ctx = true) := by
  have run := exec_jump_atWord h
  obtain ⟨-, found, -⟩ := h
  obtain ⟨rfl, rfl⟩ := named_of_findMover found
  rw [mvJump_of_no_target ((takesJump_runsWord x w).trans taken) outside] at run
  exact ⟨_, run, mvFault_stops (countsDown (runsWord x w) w) _ _ works⟩

/-- The reserved bits of a JUMP stand above its condition. -/
theorem mvLegal_of_reserved {w : Nat} (jump : mvOp w = 8) (reserved : bits (mvImm w) 31 18 ≠ 0) :
    mvLegal w = false := by
  have high : bits (mvImm w) 31 18 = bits w 63 50 := by
    simp only [bits, mvImm]
    omega
  rw [← Bool.not_eq_true]
  intro legal
  obtain ⟨-, -, zero⟩ : _ ∧ _ ∧ bits w 63 50 = 0 := by simpa [mvLegal, jump] using legal
  exact reserved (high.trans zero)

/-- Settles O14: the JUMP tests mrRD after condition 1 has counted it down, and goes to the target only where that lies
in the slot (R382); a reserved bit fails the test of the whole word (R372). -/
theorem moverJumps : Obligations.MoverJumps := by
  refine ⟨fun s d m w n x h c inSlot target => ?_, fun s d m w n x h c inSlot target => ?_,
    fun s d m w x h c outside works => ?_, fun w => mvLegal_of_reserved⟩
  · obtain ⟨t, run, regs, slc, core, went⟩ := completes_jump h target inSlot
    have same : jumpRegs x w = x.mregs := if_neg c
    have kept : countsDown x w = x := congrArg (fun r => { x with mregs := r }) same
    refine ⟨t, run, regs, slc, core, fun c0 => ?_, fun c2 => ?_, fun c3 => ?_⟩
    · simpa [takesJump, c0, same] using went
    · simpa [takesJump, c2, same, kept] using went
    · simpa [takesJump, c3, same, kept] using went
  · obtain ⟨t, run, regs, slc, -, went⟩ := completes_jump h target inSlot
    obtain ⟨-, -, -, -, -, -, -, -, length, -⟩ := h
    have inFile : mvRD w < x.mregs.length := length ▸ mvRD_lt w
    refine ⟨t, run, regs, slc, ?_⟩
    simpa [takesJump, c, jumpRegs, countsDown, Mover.mr, inFile] using went
  · exact completes_jump_of_no_target h (by simp [takesJump, c]) outside works

end Sys2Proof.Machine
end

section
/-! PROOFS. HEADROOM (R402): its three cases from the event bits of rails and points, and the refill that uses it. -/

namespace Sys2Proof.Machine

/-! ### A rail OVER, a point WARM -/

/-- Two fields merged are not 0 exactly when a bit of either is set. -/
theorem or_ne_zero_iff_testBit (a b : Nat) :
    a ||| b ≠ 0 ↔ ∃ i, a.testBit i = true ∨ b.testBit i = true := by
  constructor
  · intro nonzero
    obtain ⟨i, hi⟩ := Nat.exists_testBit_of_ne_zero nonzero
    exact ⟨i, by simpa using hi⟩
  · rintro ⟨i, hi⟩ zero
    have set : (a ||| b).testBit i = true := by simpa using hi
    simp [zero] at set

theorem overRails_ne_zero_iff (s : State) (d : Nat) :
    overRails s d ≠ 0 ↔ ∃ i, s.rdBit d Reg.MON_IOVER i = true ∨ s.rdBit d Reg.MON_FAIL_RAILS i = true :=
  or_ne_zero_iff_testBit _ _

theorem warmPoints_ne_zero_iff (s : State) (d : Nat) :
    warmPoints s d ≠ 0 ↔ ∃ i, s.rdBit d Reg.MON_TWARM i = true ∨ s.rdBit d Reg.MON_FAIL_POINTS i = true :=
  or_ne_zero_iff_testBit _ _

theorem overRails_eq_zero_iff (s : State) (d : Nat) :
    overRails s d = 0 ↔ ∀ i, s.rdBit d Reg.MON_IOVER i = false ∧ s.rdBit d Reg.MON_FAIL_RAILS i = false := by
  simpa using (overRails_ne_zero_iff s d).not

theorem warmPoints_eq_zero_iff (s : State) (d : Nat) :
    warmPoints s d = 0 ↔ ∀ i, s.rdBit d Reg.MON_TWARM i = false ∧ s.rdBit d Reg.MON_FAIL_POINTS i = false := by
  simpa using (warmPoints_ne_zero_iff s d).not

/-! ### The three cases of HEADROOM -/

theorem headroom_of_over {s : State} {d : Nat} (exceeds : overRails s d ≠ 0) : headroom s d = 0 := if_pos exceeds

theorem headroom_of_warm {s : State} {d : Nat} (within : overRails s d = 0) (warm : warmPoints s d ≠ 0) :
    headroom s d = s.rd d Reg.GOV_CTRL_HEAD_WARM :=
  (if_neg (not_not.2 within)).trans (if_pos warm)

theorem headroom_of_cool {s : State} {d : Nat} (within : overRails s d = 0) (cool : warmPoints s d = 0) :
    headroom s d = 256 :=
  (if_neg (not_not.2 within)).trans (if_neg (not_not.2 cool))

/-! ### The bucket -/

/-- No field of `w` bits reads below the least signed number of `w` bits. -/
theorem le_toSigned {w : Nat} (hw : 0 < w) (n : Nat) : -(2 ^ (w - 1) : Int) ≤ toSigned w n := by
  obtain ⟨k, rfl⟩ : ∃ k, w = k + 1 := ⟨w - 1, by omega⟩
  have positive : (0 : Int) < 2 ^ k := by positivity
  have cast : ((2 ^ k : Nat) : Int) = 2 ^ k := by simp
  rw [toSigned, Nat.add_sub_cancel, pow_succ]
  split <;> omega

/-- GOV_BUCKET reads back what is put into it, within the range of its 40 bits. -/
theorem govB_setGovB {d : Nat} {b : Int} (lo : -2 ^ 39 ≤ b) (hi : b < 2 ^ 39) (s : State) :
    govB (setGovB d b s) d = b :=
  (congrArg (toSigned 40) (State.rd_wr_same ..)).trans (toSigned_ofSigned 40 (by decide) b lo hi)

/-- The refill's sum, held at CAP (R401): a CAP within the signed range of GOV_BUCKET keeps it there. -/
theorem govB_bucketRefill {s : State} {d : Nat} (cap : govCap s d < 2 ^ 39) :
    govB (bucketRefill d s) d =
      min (govB s d + ((s.rd d Reg.GOV_LIMITS_POWER_W * headroom s d / 256 : Nat) : Int)) (govCap s d) := by
  have least : (-2 ^ 39 : Int) ≤ govB s d := le_toSigned (w := 40) (by decide) _
  exact govB_setGovB (by omega) (by omega) s

theorem exec_bucketRefill_of_dieUp {s : State} {d : Nat} (hd : d < dieCount s.orderCode) (up : dieUp s d = true) :
    exec (.bucketRefill d) s = .next (bucketRefill d s) :=
  (onDie_of_lt hd).trans (congrArg _ (if_pos up))

/-- Settles O12: an event register is 0 exactly when none of its bits is set, so the model's test of the merged
registers is that of R402, a failed monitor counting as one that asserts (R428); the refill (R401) stays within the
bucket's 40 bits. -/
theorem headroomInForce : Obligations.HeadroomInForce := by
  refine ⟨fun s d exceeds => ?_, fun s d within => ⟨fun warm => ?_, fun cool => ?_⟩, fun s d hd up cap => ?_⟩
  · exact headroom_of_over ((overRails_ne_zero_iff s d).2 exceeds)
  · exact headroom_of_warm ((overRails_eq_zero_iff s d).2 within) ((warmPoints_ne_zero_iff s d).2 warm)
  · exact headroom_of_cool ((overRails_eq_zero_iff s d).2 within) ((warmPoints_eq_zero_iff s d).2 cool)
  · exact ⟨_, exec_bucketRefill_of_dieUp hd up, govB_bucketRefill cap⟩

end Sys2Proof.Machine
end

section
/-! PROOFS. What every step keeps: each command's own frame lemma (Laws/Keeps*), put together over the dispatch. -/

namespace Sys2Proof.Machine

/-- The frame that allows every part of the state to change. -/
def anyFrame : Frame where
  regs := True
  rack := True
  boot := True
  img := True
  core := True
  slc := True
  hbm := True
  net := True
  que := True
  prt := True
  xlt := True
  host := True
  recs := True
  out := True

/-- The meaning of a command leaves the queue and the order code, and keeps the canonical form. -/
theorem exec_keeps (c : Instr) (s : State) : KeepsX anyFrame s (exec c s) := by
  cases c
  case' doorbell => apply execDoorbell_keeps
  case' arbiterGrant => apply execArbiterGrant_keeps
  case' govHold => apply execGovHold_keeps
  case' bucketRefill => apply execBucketRefill_keeps
  case' instanceBucketRefill => apply execInstanceBucketRefill_keeps
  case' sectorCountReport => apply execSectorCountReport_keeps
  case' monitorSample => apply execMonitorSample_keeps
  case' tripRestart => apply execTripRestart_keeps
  case' cclkStepChange => apply execCclkStepChange_keeps
  case' pllLock => apply execPllLock_keeps
  case' pllLockTimeout => apply execPllLockTimeout_keeps
  case' pllLossOfLock => apply execPllLossOfLock_keeps
  case' refclkLoss => apply execRefclkLoss_keeps
  case' spinePlaneLoss => apply execSpinePlaneLoss_keeps
  case' dieReset => apply execDieReset_keeps
  case' moduleReset => apply execModuleReset_keeps
  case' rackReset => apply execRackReset_keeps
  case' fuseRead => apply execFuseRead_keeps
  case' bootFirmwareLoad => apply execBootFirmwareLoad_keeps
  case' hbmTraining => apply execHbmTraining_keeps
  case' runtimeFirmwareHandover => apply execRuntimeFirmwareHandover_keeps
  case' wardenBoot => apply execWardenBoot_keeps
  case' moduleRollCall => apply execModuleRollCall_keeps
  case' beaconSend => apply execBeaconSend_keeps
  case' beacon => apply execBeacon_keeps
  case' beaconSlotMissed => apply execBeaconSlotMissed_keeps
  case' deadNotice => apply execDeadNotice_keeps
  case' reclaimTimeout => apply execReclaimTimeout_keeps
  case' masterElection => apply execMasterElection_keeps
  case' rtimeExchange => apply execRtimeExchange_keeps
  case' rtimeRemeasure => apply execRtimeRemeasure_keeps
  case' censusClose => apply execCensusClose_keeps
  case' untestedAccept => apply execUntestedAccept_keeps
  case' stageTimeout => apply execStageTimeout_keeps
  case' imgCheck => apply execImgCheck_keeps
  case' imgStage => apply execImgStage_keeps
  case' imgQuiesce => apply execImgQuiesce_keeps
  case' quiesceIdle => apply execQuiesceIdle_keeps
  case' quiesceTimeout => apply execQuiesceTimeout_keeps
  case' imgCommit => apply execImgCommit_keeps
  case' commitRelay => apply execCommitRelay_keeps
  case' commitSwap => apply execCommitSwap_keeps
  case' imgRelease => apply execImgRelease_keeps
  case' imgAbort => apply execImgAbort_keeps
  case' loadAgentTimeout => apply execLoadAgentTimeout_keeps
  case' vadd => apply execVadd_keeps
  case' vsub => apply execVsub_keeps
  case' vmul => apply execVmul_keeps
  case' vfma => apply execVfma_keeps
  case' vmin => apply execVmin_keeps
  case' vmax => apply execVmax_keeps
  case' vabs => apply execVabs_keeps
  case' vneg => apply execVneg_keeps
  case' vlog => apply execVlog_keeps
  case' vshl => apply execVshl_keeps
  case' vshr => apply execVshr_keeps
  case' vcmp => apply execVcmp_keeps
  case' vsel => apply execVsel_keeps
  case' vcvt => apply execVcvt_keeps
  case' vdot4 => apply execVdot4_keeps
  case' vmov => apply execVmov_keeps
  case' vrcp => apply execVrcp_keeps
  case' vrsq => apply execVrsq_keeps
  case' vexp2 => apply execVexp2_keeps
  case' vlog2 => apply execVlog2_keeps
  case' vshfl => apply execVshfl_keeps
  case' vred => apply execVred_keeps
  case' vadds => apply execVadds_keeps
  case' vsubs => apply execVsubs_keeps
  case' vmuls => apply execVmuls_keeps
  case' vfmas => apply execVfmas_keeps
  case' vmins => apply execVmins_keeps
  case' vmaxs => apply execVmaxs_keeps
  case' vcmps => apply execVcmps_keeps
  case' vmovs => apply execVmovs_keeps
  case' sadd => apply execSadd_keeps
  case' ssub => apply execSsub_keeps
  case' smul => apply execSmul_keeps
  case' slog => apply execSlog_keeps
  case' ssh => apply execSsh_keeps
  case' smov => apply execSmov_keeps
  case' scmp => apply execScmp_keeps
  case' sadd64 => apply execSadd64_keeps
  case' sread => apply execSread_keeps
  case' vread => apply execVread_keeps
  case' v2s => apply execV2s_keeps
  case' vbal => apply execVbal_keeps
  case' l1inv => apply execL1inv_keeps
  case' sleep => apply execSleep_keeps
  case' sleepExpiry => apply execSleepExpiry_keeps
  case' ld => apply execLd_keeps
  case' st => apply execSt_keeps
  case' ldAcq => apply execLdAcq_keeps
  case' stRel => apply execStRel_keeps
  case' ldl => apply execLdl_keeps
  case' stl => apply execStl_keeps
  case' ldu => apply execLdu_keeps
  case' pref => apply execPref_keeps
  case' atom => apply execAtom_keeps
  case' atomAr => apply execAtomAr_keeps
  case' atomf => apply execAtomf_keeps
  case' atomfAr => apply execAtomfAr_keeps
  case' atoml => apply execAtoml_keeps
  case' fence => apply execFence_keeps
  case' redst => apply execRedst_keeps
  case' ldkv => apply execLdkv_keeps
  case' stkv => apply execStkv_keeps
  case' bra => apply execBra_keeps
  case' call => apply execCall_keeps
  case' jmpr => apply execJmpr_keeps
  case' converge => apply execConverge_keeps
  case' convergeTimeout => apply execConvergeTimeout_keeps
  case' yield => apply execYield_keeps
  case' yieldTimeout => apply execYieldTimeout_keeps
  case' barc => apply execBarc_keeps
  case' exit => apply execExit_keeps
  case' nop => apply execNop_keeps
  case' trap => apply execTrap_keeps
  case' mma8 => apply execMma8_keeps
  case' mma16 => apply execMma16_keeps
  case' kill => apply execKill_keeps
  case' troupePlacement => apply execTroupePlacement_keeps
  case' troupeEnd => apply execTroupeEnd_keeps
  case' launchDetach => apply execLaunchDetach_keeps
  case' launchRetire => apply execLaunchRetire_keeps
  case' irqCoalesceTimeout => apply execIrqCoalesceTimeout_keeps
  case' sliceReadRequest => apply execSliceReadRequest_keeps
  case' sliceWriteRequest => apply execSliceWriteRequest_keeps
  case' sliceAtomicRequest => apply execSliceAtomicRequest_keeps
  case' retryBackoffExpiry => apply execRetryBackoffExpiry_keeps
  case' starveHoldLapse => apply execStarveHoldLapse_keeps
  case' sliceFillReturn => apply execSliceFillReturn_keeps
  case' fillTimeout => apply execFillTimeout_keeps
  case' sliceSramError => apply execSliceSramError_keeps
  case' channelFailure => apply execChannelFailure_keeps
  case' halfLinkCrossing => apply execHalfLinkCrossing_keeps
  case' ucPin => apply execUcPin_keeps
  case' ucUnpin => apply execUcUnpin_keeps
  case' gets => apply execGets_keeps
  case' getm => apply execGetm_keeps
  case' upg => apply execUpg_keeps
  case' puts => apply execPuts_keeps
  case' putm => apply execPutm_keeps
  case' puto => apply execPuto_keeps
  case' fwdgets => apply execFwdgets_keeps
  case' fwdgetm => apply execFwdgetm_keeps
  case' inv => apply execInv_keeps
  case' invack => apply execInvack_keeps
  case' data => apply execData_keeps
  case' dataexcl => apply execDataexcl_keeps
  case' datap => apply execDatap_keeps
  case' dataexclp => apply execDataexclp_keeps
  case' wback => apply execWback_keeps
  case' nack => apply execNack_keeps
  case' cohTimeout => apply execCohTimeout_keeps
  case' cohQuery => apply execCohQuery_keeps
  case' toashFrame => apply execToashFrame_keeps
  case' toashNak => apply execToashNak_keeps
  case' toashRetrain => apply execToashRetrain_keeps
  case' toashPortDown => apply execToashPortDown_keeps
  case' redPacket => apply execRedPacket_keeps
  case' redHoldExpiry => apply execRedHoldExpiry_keeps
  case' treeNodeForward => apply execTreeNodeForward_keeps
  case' redAccumulate => apply execRedAccumulate_keeps
  case' redTimeout => apply execRedTimeout_keeps
  case' seqctlCreate => apply execSeqctlCreate_keeps
  case' seqctlDestroy => apply execSeqctlDestroy_keeps
  case' stepOpen => apply execStepOpen_keeps
  case' stepClose => apply execStepClose_keeps
  case' truncate => apply execTruncate_keeps
  case' seqctlSet => apply execSeqctlSet_keeps
  case' btinval => apply execBtinval_keeps
  case' seqctlLink => apply execSeqctlLink_keeps
  case' seqctlUnlink => apply execSeqctlUnlink_keeps
  case' seqctlQuery => apply execSeqctlQuery_keeps
  case' arm => apply execArm_keeps
  case' attachExchange => apply execAttachExchange_keeps
  case' stepRetire => apply execStepRetire_keeps
  case' queEnable => apply execQueEnable_keeps
  case' queReset => apply execQueReset_keeps
  case' movEnd => apply execMovEnd_keeps
  case' movCopy => apply execMovCopy_keeps
  case' shift => apply execShift_keeps
  case' gather => apply execGather_keeps
  case' scatter => apply execScatter_keeps
  case' movFill => apply execMovFill_keeps
  case' wait => apply execWait_keeps
  case' waitPoll => apply execWaitPoll_keeps
  case' waitTimeout => apply execWaitTimeout_keeps
  case' signal => apply execSignal_keeps
  case' jump => apply execJump_keeps
  case' movProgWrite => apply execMovProgWrite_keeps
  case' movSlotWrite => apply execMovSlotWrite_keeps
  case' restart => apply execRestart_keeps
  case' abort => apply execAbort_keeps
  case' movHaltTimeout => apply execMovHaltTimeout_keeps
  case' partnerCompletion => apply execPartnerCompletion_keeps
  case' completionTimeout => apply execCompletionTimeout_keeps
  case' goLive => apply execGoLive_keeps
  case' instReset => apply execInstReset_keeps
  case' partReset => apply execPartReset_keeps
  case' resetComplete => apply execResetComplete_keeps
  case' flr => apply execFlr_keeps
  case' powerGate => apply execPowerGate_keeps
  case' clockStop => apply execClockStop_keeps
  case' restore => apply execRestore_keeps
  case' stringTimeout => apply execStringTimeout_keeps
  case' wardStrWrite => apply execWardStrWrite_keeps
  case' wardDown => apply execWardDown_keeps
  case' wardMboxInWrite => apply execWardMboxInWrite_keeps
  case' wardMboxInRead => apply execWardMboxInRead_keeps
  case' wardMboxOutWrite => apply execWardMboxOutWrite_keeps
  case' wardMboxOutRead => apply execWardMboxOutRead_keeps
  case' partSram => apply execPartSram_keeps
  case' irqMapAddrWrite => apply execIrqMapAddrWrite_keeps
  case' irqMapDataWrite => apply execIrqMapDataWrite_keeps
  case' irqMapHoldTimeout => apply execIrqMapHoldTimeout_keeps
  case' irqUnmask => apply execIrqUnmask_keeps
  case' xltInvalRange => apply execXltInvalRange_keeps
  case' xltInvalContext => apply execXltInvalContext_keeps
  case' xltInvalInstance => apply execXltInvalInstance_keeps
  case' xltInvalPartition => apply execXltInvalPartition_keeps
  case' xltInvTimeout => apply execXltInvTimeout_keeps
  case' xltCtxBaseWrite => apply execXltCtxBaseWrite_keeps
  case' pageWalk => apply execPageWalk_keeps
  case' linkUp => apply execLinkUp_keeps
  case' hostLinkDown => apply execHostLinkDown_keeps
  case' hostAbi => apply execHostAbi_keeps
  case' hostApertureWrite => apply execHostApertureWrite_keeps
  case' hostApertureRead => apply execHostApertureRead_keeps
  case' atsInvalidation => apply execAtsInvalidation_keeps
  case' bridgeRequest => apply execBridgeRequest_keeps
  case' ptWrite => apply execPtWrite_keeps
  case' ptRead => apply execPtRead_keeps
  case' ptRetire => apply execPtRetire_keeps
  case' hostPortError => apply execHostPortError_keeps
  case' recordAccept => apply execRecordAccept_keeps
  case' recordDrain => apply execRecordDrain_keeps
  case' recTest => apply execRecTest_keeps
  case' recFailClearClusters => apply execRecFailClearClusters_keeps
  case' recFailClearChans => apply execRecFailClearChans_keeps
  case' recFailClearHalves => apply execRecFailClearHalves_keeps
  case' stagingSramError => apply execStagingSramError_keeps
  case' regRead => apply execRegRead_keeps
  case' regWrite => apply execRegWrite_keeps
  case' registerWrite => apply execRegisterWrite_keeps
  case' rcRegisterRead => apply execRcRegisterRead_keeps
  case' jtagExtest => apply execJtagExtest_keeps
  case' jtagIdcode => apply execJtagIdcode_keeps
  case' jtagSamplePreload => apply execJtagSamplePreload_keeps
  case' jtagDcDebug => apply execJtagDcDebug_keeps
  case' jtagBypass => apply execJtagBypass_keeps
  case' shelfPowerGood => apply execShelfPowerGood_keeps
  case' modEnAssert => apply execModEnAssert_keeps
  case' diePowerGood => apply execDiePowerGood_keeps
  case' modEnDrop => apply execModEnDrop_keeps
  case' busbarLoss => apply execBusbarLoss_keeps
  case' cduCheck => apply execCduCheck_keeps
  case' leak => apply execLeak_keeps
  case' stageFault => apply execStageFault_keeps
  case' moduleInsert => apply execModuleInsert_keeps
  case' moduleFlashWrite => apply execModuleFlashWrite_keeps
  case' toashPortTrained => apply execToashPortTrained_keeps
  case' clusterFailure => apply execClusterFailure_keeps
  case' routerFailure => apply execRouterFailure_keeps
  case' halfLinkLaneDown => apply execHalfLinkLaneDown_keeps
  case' seqEngineFailure => apply execSeqEngineFailure_keeps
  case' illegalInstruction => apply execIllegalInstruction_keeps
  case' moverIllegalInstruction => apply execMoverIllegalInstruction_keeps
  case' shelfFailure => apply execShelfFailure_keeps
  case' rmBoot => apply execRmBoot_keeps
  case' moduleRemove => apply execModuleRemove_keeps
  case' spineSledReplace => apply execSpineSledReplace_keeps
  case' configurationRequest => apply execConfigurationRequest_keeps
  all_goals first
    | trivial
    | exact .refl _ s

/-- A step goes by the queue's front command, or by one edge of REFCLK. -/
theorem step_of_cons (c : Instr) (s : State) : step { s with pending := c :: s.pending } = exec c s := rfl

theorem step_of_nil {s : State} (empty : s.pending = []) : step s = .next (refclkEdge s) := by
  rw [step, empty]

/-- A queue in which a command waits is the state with its rest, and the command in front of it. -/
theorem step_of_pending {c : Instr} {rest : List Instr} {s : State} (front : s.pending = c :: rest) :
    step s = exec c { s with pending := rest } := by
  rw [step, front]

/-- Settles O2: every command's frame lemma says so. -/
theorem execLeavesQueue : Obligations.ExecLeavesQueue := fun c s _ next =>
  have kept := (exec_keeps c s).of next
  ⟨kept.pending, kept.orderCode⟩

/-- Settles O1: the edge and every command keep the canonical form, and taking a command off the queue does not touch
the sparse maps. -/
theorem everyStepKeepsCanonical : Obligations.EveryStepKeepsCanonical := by
  intro s t canonical goes
  cases queue : s.pending with
  | nil =>
    obtain rfl : refclkEdge s = t := by simpa [step_of_nil queue] using goes
    exact (refclkEdge_keeps (F := anyFrame) trivial trivial trivial (.refl _ s)).canonical canonical
  | cons c rest =>
    rw [step_of_pending queue] at goes
    exact ((exec_keeps c _).of goes).canonical canonical

end Sys2Proof.Machine
end

section
/-! PROOFS. The queue and the edge of REFCLK (R31), the state right after reset, and the dies the rack lacks (R35). -/

namespace Sys2Proof.Machine

/-! ### A command on a die -/

/-- A command that names a die of the order code completes, with what its effect makes of the state. The first argument
is the definition that the dispatch calls. -/
theorem completes_of_onDie {c : Instr} {s : State} {d : Nat} {f : State → State} {P : State → Prop}
    (x : Host.Outcome State Fault Refusal) (arm : exec c s = x) (effect : x = onDie s d f)
    (hd : d < dieCount s.orderCode) (h : P (f s)) : Completes c s P :=
  ⟨f s, arm.trans (effect.trans (onDie_of_lt hd)), h⟩

/-- A command that names no die completes. -/
theorem completes_of_next {c : Instr} {s t : State} {P : State → Prop} (x : Host.Outcome State Fault Refusal)
    (arm : exec c s = x) (effect : x = .next t) (h : P t) : Completes c s P := ⟨t, arm.trans effect, h⟩

/-! ### Fields that stand apart -/

/-- A decidable test that two fields never stand at the same place, whatever their dies. -/
def Fld.apart (f g : Fld) : Bool :=
  Nat.blt f.lo 64 && Nat.blt g.lo 64 && Nat.blt f.addr 0x1000000 && Nat.blt g.addr 0x1000000 &&
    !(Nat.beq f.addr g.addr && Nat.beq f.lo g.lo)

theorem Fld.key_ne_of_apart {f g : Fld} (h : f.apart g = true) (d e : Nat) : f.key d ≠ g.key e := by
  simp only [Fld.apart, Bool.and_eq_true, Nat.blt_eq, Bool.not_eq_true', ← Bool.not_eq_true, Nat.beq_eq] at h
  obtain ⟨⟨⟨⟨hf, hg⟩, af⟩, ag⟩, differ⟩ := h
  rw [Ne, Fld.key_eq_iff hf hg af ag]
  rintro ⟨-, addr, lo⟩
  exact differ ⟨addr, lo⟩

/-- A field stands in its register, and its register in the space of its die (R555). -/
def Fld.placed (f : Fld) : Bool := Nat.blt f.lo 64 && Nat.blt f.addr 0x1000000

/-- A field of another die stands elsewhere. -/
theorem Fld.key_ne_of_die {d e : Nat} {f g : Fld} (hf : f.placed = true) (hg : g.placed = true) (ne : d ≠ e) :
    f.key d ≠ g.key e := by
  simp only [Fld.placed, Bool.and_eq_true, Nat.blt_eq] at hf hg
  exact fun same => ne ((Fld.key_eq_iff hf.1 hg.1 hf.2 hg.2).1 same).1

theorem State.rd_wr_apart {f g : Fld} (h : g.apart f = true) (s : State) (d d' : Nat) (v : Nat) :
    (s.wr d f v).rd d' g = s.rd d' g := State.rd_wr_ne _ _ _ _ _ _ (Fld.key_ne_of_apart h _ _)

theorem State.rd_count_apart {f g : Fld} (h : g.apart f = true) (s : State) (d d' n : Nat) :
    (s.count d f n).rd d' g = s.rd d' g := State.rd_count_ne _ _ _ _ _ _ (Fld.key_ne_of_apart h _ _)

theorem State.rd_wrBit_apart {f g : Fld} (h : g.apart f = true) (s : State) (d d' i : Nat) (b : Bool) :
    (s.wrBit d f i b).rd d' g = s.rd d' g := State.rd_wrBit_ne _ _ _ _ _ _ _ (Fld.key_ne_of_apart h _ _)

/-- Where every field that an effect may write stands apart from `f`, `f` reads as before. -/
theorem RegsBut.rd_of_apart {l : List (Nat × Fld)} {s t : State} {f : Fld} (h : RegsBut l s t)
    (apart : l.all (fun x => f.apart x.2) = true) (d : Nat) : t.rd d f = s.rd d f :=
  h d f fun x hx => Fld.key_ne_of_apart (List.all_eq_true.1 apart x hx) _ _

/-- Where an effect writes fields of other dies alone, a field of die `d` reads as before. -/
theorem RegsBut.rd_of_die {l : List (Nat × Fld)} {s t : State} {d : Nat} {f : Fld} (h : RegsBut l s t)
    (others : ∀ x ∈ l, x.1 ≠ d) (hf : f.placed = true) (hl : l.all (fun x => x.2.placed) = true) :
    t.rd d f = s.rd d f :=
  h d f fun x hx => Fld.key_ne_of_die hf (List.all_eq_true.1 hl x hx) (others x hx).symm

theorem RegsBut.ite {l : List (Nat × Fld)} {s t u : State} {c : Prop} [Decidable c] (h : c → RegsBut l s t)
    (k : ¬c → RegsBut l s u) : RegsBut l s (if c then t else u) := by
  split
  next yes => exact h yes
  next no => exact k no

/-- More fields allowed to change. -/
theorem RegsBut.mono {l m : List (Nat × Fld)} {s t : State} (h : RegsBut l s t) (sub : l ⊆ m) : RegsBut m s t :=
  fun d f n => h d f fun x hx => n x (sub hx)

/-! ### A change made once for each member of a list -/

/-- A fold keeps what each of its members keeps. -/
theorem each_induction {α : Type} {P : State → Prop} {f : State → α → State} {l : List α}
    (keeps : ∀ s, ∀ e ∈ l, P s → P (f s e)) {s : State} (h : P s) : P (each l f s) := by
  induction l generalizing s with
  | nil => exact h
  | cons x l ih => exact ih (fun s e he => keeps s e (.tail _ he)) (keeps s x (.head _) h)

/-- A fold over distinct members: what the members before `d` keep, `d` turns into what those after it keep. -/
theorem each_once {α : Type} {P Q : State → Prop} {f : State → α → State} {d : α} {l : List α} (distinct : l.Nodup)
    (member : d ∈ l) (before : ∀ s, ∀ e ∈ l, e ≠ d → P s → P (f s e)) (there : ∀ s, P s → Q (f s d))
    (after : ∀ s, ∀ e ∈ l, e ≠ d → Q s → Q (f s e)) {s : State} (h : P s) : Q (each l f s) := by
  induction l generalizing s with
  | nil => simp at member
  | cons x l ih =>
    obtain ⟨fresh, distinct⟩ := List.nodup_cons.1 distinct
    by_cases same : x = d
    · subst same
      exact each_induction (fun s e he => after s e (.tail _ he) fun same => fresh (same ▸ he)) (there _ h)
    · exact ih distinct ((List.mem_cons.1 member).resolve_left (Ne.symm same))
        (fun s e he => before s e (.tail _ he)) (fun s e he => after s e (.tail _ he)) (before _ _ (.head _) same h)

theorem mem_allDies {s : State} {d : Nat} : d ∈ allDies s ↔ d < dieCount s.orderCode := List.mem_range

theorem nodup_allDies (s : State) : (allDies s).Nodup := List.nodup_range

/-! ### One edge -/

/-- An edge of a die writes its RTIME and its count of slow time. -/
theorem regsBut_dieEdge (s : State) (e : Nat) :
    RegsBut [(e, Reg.DC_RTIME), (e, Reg.CLK_SLOW_TIME)] s (dieEdge s e) := by
  unfold dieEdge
  split
  · dsimp only
    split
    · exact (((RegsBut.refl _ s).of_regs rfl).wr e _ _ (by simp)).count e _ _ (by simp)
    · exact ((RegsBut.refl _ s).of_regs rfl).wr e _ _ (by simp)
  · exact .refl _ s

theorem corrOf_dieEdge_ne {d e : Nat} (ne : e ≠ d) (s : State) : corrOf (dieEdge s e) d = corrOf s d := by
  have corr (c : Int) : SMap.get 0 (SMap.set 0 s.boot.corr e c) d = SMap.get 0 s.boot.corr d :=
    SMap.get_set_ne _ _ _ _ _ _ ne.symm
  unfold dieEdge
  split
  · dsimp only
    split <;> exact corr _
  · rfl

/-- What one edge does to a die looks at the lock of its PLL, the correction it owes and its RTIME. -/
def edgeView (s : State) (d : Nat) : Nat × Int × Nat := (s.rd d Reg.CLK_STATUS_LOCK, corrOf s d, s.rtime d)

/-- The edge of one die leaves the others. -/
theorem edgeView_dieEdge_ne {d e : Nat} (ne : e ≠ d) (s : State) : edgeView (dieEdge s e) d = edgeView s d := by
  have same {f : Fld} (hf : f.placed = true) : (dieEdge s e).rd d f = s.rd d f :=
    (regsBut_dieEdge s e).rd_of_die (by simp [ne]) hf rfl
  simp only [edgeView, State.rtime, corrOf_dieEdge_ne ne]
  rw [same rfl, same rfl]

/-- Where no correction is due RTIME counts up by 10. -/
theorem rtime_dieEdge {d : Nat} {s : State} (lock : s.rd d Reg.CLK_STATUS_LOCK = 1) (lo : -10 ≤ corrOf s d)
    (hi : corrOf s d ≤ 10) (room : s.rtime d < 2 ^ 64 - 10) : (dieEdge s d).rtime d = s.rtime d + 10 := by
  have ten : edgeStep s d = 10 := by rw [edgeStep, if_neg (by omega), if_neg (by omega)]
  have fits : (s.rtime d + 10) % 2 ^ Reg.DC_RTIME.width = s.rtime d + 10 :=
    Nat.mod_eq_of_lt (show _ < 2 ^ 64 by omega)
  rw [dieEdge, if_pos lock]
  simp only [ten]
  split
  · exact (State.rd_count_apart rfl ..).trans ((State.rd_wr_same ..).trans fits)
  · exact (State.rd_wr_same ..).trans fits

/-- The edge reaches every die once. -/
theorem rtime_refclkEdge {d : Nat} {s : State} (hd : d < dieCount s.orderCode) (on : s.rack.refclk = true)
    (lock : s.rd d Reg.CLK_STATUS_LOCK = 1) (lo : -10 ≤ corrOf s d) (hi : corrOf s d ≤ 10)
    (room : s.rtime d < 2 ^ 64 - 10) : (refclkEdge s).rtime d = s.rtime d + 10 := by
  have reached : (each (allDies s) dieEdge s).rtime d = s.rtime d + 10 := by
    refine each_once (P := fun t => edgeView t d = edgeView s d) (Q := fun t => t.rtime d = s.rtime d + 10)
      (nodup_allDies s) (mem_allDies.2 hd) (fun t _ _ ne h => (edgeView_dieEdge_ne ne t).trans h) (fun t h => ?_)
      (fun t _ _ ne h => ?_) rfl
    · obtain ⟨sameLock, sameCorr, sameTime⟩ : _ ∧ _ ∧ _ := by simpa only [edgeView, Prod.mk.injEq] using h
      rw [rtime_dieEdge (sameLock.trans lock) (by omega) (by omega) (by omega), sameTime]
    · exact (congrArg (·.2.2) (edgeView_dieEdge_ne ne t)).trans h
  rw [refclkEdge, if_pos on]
  dsimp only
  split <;> exact reached

/-- Settles O3: of a step on an empty queue the correction due to the die (R101) decides how far RTIME goes. -/
theorem commandsFromQueue : Obligations.CommandsFromQueue :=
  ⟨step_of_cons, fun _ => step_of_nil, fun s _ empty hd on lock lo hi room =>
    ⟨_, step_of_nil empty, rtime_refclkEdge hd on lock lo hi room,
      (refclkEdge_keeps (F := anyFrame) trivial trivial trivial (.refl _ s)).pending.trans empty⟩⟩

/-! ### The state after reset -/

/-- Settles O4: the register map is empty, so every field reads its Reset value; the fields that Fuse, Strap or
Firmware set (log 4), unwritten memory (log 2) and the model's own fields (log 10) start empty or 0. -/
theorem resetState : Obligations.ResetState := by
  have reads (d : Nat) (f : Fld) : State.reset.rd d f = f.reset := SMap.get_nil f.reset (f.key d)
  refine ⟨⟨rfl, rfl, rfl⟩, rfl, reads, fun _ => rfl, rfl, rfl, rfl, rfl, rfl, rfl, rfl, rfl, rfl, fun d k => ?_, rfl⟩
  rw [portUp, reads, reads]
  split <;> rfl

/-! ### Dies that the rack lacks -/

/-- Settles O5: each of these commands names its die before anything else. -/
theorem absentDies : Obligations.AbsentDies := by
  intro s d a b src v absent
  have stops (f : State → State) : onDie s d f = .fault (.absentUnit d) := onDie_absent (Nat.not_lt.2 absent)
  simp only [List.forall_mem_cons]
  refine
    ⟨show execBucketRefill d s = _ from ?_, show execTripRestart d s = _ from ?_,
      show execCclkStepChange d s = _ from ?_, show execQueEnable d a src v s = _ from ?_,
      show execQueReset d a src s = _ from ?_, show execArbiterGrant d s = _ from ?_,
      show execGovHold d s = _ from ?_, show execSeqEngineFailure d a s = _ from ?_,
      show execMovProgWrite d a src v s = _ from ?_, show execMovSlotWrite d a src v s = _ from ?_,
      show execRestart d a b src s = _ from ?_, show execJump d a s = _ from ?_, show execMovEnd d a s = _ from ?_,
      show execTroupePlacement d a s = _ from ?_, show execClusterFailure d a s = _ from ?_,
      show execKill d a b 0 s = _ from ?_, show execGoLive d a b src s = _ from ?_,
      show execPartReset d a src s = _ from ?_, show execPowerGate d a b src s = _ from ?_,
      show execWardDown d a s = _ from ?_, show execIrqMapAddrWrite d a src v s = _ from ?_,
      show execXltInvalPartition d a src s = _ from ?_, show execPtWrite d a src s = _ from ?_,
      show execPllLock d s = _ from ?_, show execDieReset d s = _ from ?_, show execHbmTraining d 0 s = _ from ?_,
      show execChannelFailure d a s = _ from ?_, show execUcPin d src a b s = _ from ?_,
      show execCohQuery d src s = _ from ?_, show execToashPortDown d a s = _ from ?_,
      show execRouterFailure d a s = _ from ?_, show execRecordAccept d s = _ from ?_,
      show execRecTest d src 0 s = _ from ?_, show execRegisterWrite d a 8 src v s = _ from ?_,
      show execRcRegisterRead d a 8 src s = _ from ?_, show execJtagIdcode d s = _ from ?_,
      show execDiePowerGood d s = _ from ?_, List.forall_mem_nil _⟩
  all_goals simp only [stops,
    execBucketRefill, execTripRestart, execCclkStepChange, execQueEnable, execQueReset, execArbiterGrant,
      execGovHold, execSeqEngineFailure, execMovProgWrite, execMovSlotWrite, execRestart, execJump, execMovEnd,
      execTroupePlacement, execClusterFailure, execKill, execGoLive, execPartReset, execPowerGate, execWardDown,
      execIrqMapAddrWrite, execXltInvalPartition, execPtWrite, execPllLock, execDieReset, execHbmTraining,
      execChannelFailure, execUcPin, execCohQuery, execToashPortDown, execRouterFailure, execRecordAccept,
      execRecTest, execRegisterWrite, execRcRegisterRead, execJtagIdcode, execDiePowerGood, mvRun]
end Sys2Proof.Machine
end

section
/-! PROOFS. The governor and the instance buckets (R400–R402, R411, R413, R439, R440). -/

namespace Sys2Proof.Machine

/-- The frame that lets nothing change; the frames of single effects are this one with the parts they name. -/
def noFrame : Frame where
  regs := False
  rack := False
  boot := False
  img := False
  core := False
  slc := False
  hbm := False
  net := False
  que := False
  prt := False
  xlt := False
  host := False
  recs := False
  out := False

theorem Nat.beq_comm_false {a b : Nat} (h : a ≠ b) : Nat.beq a b = false :=
  Bool.eq_false_iff.2 fun e => h (Nat.eq_of_beq_eq_true e)

/-! ### Association lists -/

@[simp] theorem look_bind_same {α : Type} (k : Nat) (v : α) (l : List (Nat × α)) : look k (bind_ k v l) = some v := by
  induction l with
  | nil => simp [bind_, look]
  | cons e l ih =>
    obtain ⟨j, w⟩ := e
    by_cases h : j = k <;> simp [bind_, look, h, ih]

theorem look_bind_ne {α : Type} {k j : Nat} (h : j ≠ k) (v : α) (l : List (Nat × α)) :
    look j (bind_ k v l) = look j l := by
  induction l with
  | nil => simp [bind_, look, h.symm]
  | cons e l ih =>
    obtain ⟨i, w⟩ := e
    by_cases same : i = k
    · simp [bind_, look, same, h.symm]
    · simp [bind_, look, same, ih]

@[simp] theorem look_unbind_same {α : Type} (k : Nat) (l : List (Nat × α)) : look k (unbind k l) = none := by
  induction l with
  | nil => rfl
  | cons e l ih =>
    obtain ⟨j, w⟩ := e
    by_cases h : j = k
    · simpa [unbind, h] using ih
    · have keep : unbind k ((j, w) :: l) = (j, w) :: unbind k l := by simp [unbind, Nat.beq_comm_false h]
      rw [keep, look, if_neg h, ih]

theorem contains_delNat (l : List Nat) (n : Nat) : (delNat l n).contains n = false := by
  simp [delNat]

@[simp] theorem contains_addNat_same (l : List Nat) (n : Nat) : (addNat l n).contains n = true := by
  unfold addNat
  split
  · assumption
  · simp

/-! ### The trip's restart and the clock step -/

theorem tripRestart_of_below {s : State} {d : Nat} (waits : s.boot.tripWait.contains d = true)
    (below : belowRestart s d = true) :
    tripRestart d s = (({ s with boot := { s.boot with tripWait := delNat s.boot.tripWait d } }.wr d
      Reg.CLK_STATUS_STOPPED 0).wr d Reg.CLK_CAUSE 0).wr d Reg.GOV_STATE_TRIP 0 :=
  if_pos (by rw [waits, below]; rfl)

theorem completes_tripRestart {s : State} {d : Nat} (hd : d < dieCount s.orderCode)
    (waits : s.boot.tripWait.contains d = true) (below : belowRestart s d = true) :
    Completes (.tripRestart d) s (fun t =>
      t.rd d Reg.CLK_STATUS_STOPPED = 0 ∧ t.rd d Reg.GOV_STATE_TRIP = 0 ∧ t.boot.tripWait.contains d = false ∧
      RegsBut [(d, Reg.CLK_STATUS_STOPPED), (d, Reg.CLK_CAUSE), (d, Reg.GOV_STATE_TRIP)] s t) := by
  refine completes_of_onDie (execTripRestart d s) rfl rfl hd ?_
  rw [tripRestart_of_below waits below]
  refine ⟨?_, State.rd_wr_same .., contains_delNat _ d, ?_⟩
  · rw [State.rd_wr_apart rfl, State.rd_wr_apart rfl]
    exact State.rd_wr_same ..
  · exact (((RegsBut.refl _ s).of_regs rfl).wr d _ _ (by simp)).wr d _ _ (by simp) |>.wr d _ _ (by simp)

/-- The clock step in progress takes effect: its code, its count, and the state that the next request meets. -/
def steppedTo (d c : Nat) (s : State) : State :=
  ({ s with que := { s.que with clkTo := unbind d s.que.clkTo } }.wr d Reg.CLK_STATUS_DIV c).count d Reg.CLK_STEPS 1

theorem regsBut_steppedTo (d c : Nat) (s : State) :
    RegsBut [(d, Reg.CLK_STATUS_DIV), (d, Reg.CLK_STEPS), (d, Reg.CLK_STATUS_BUSY)] s (steppedTo d c s) :=
  (((RegsBut.refl _ s).of_regs rfl).wr d _ _ (by simp)).count d _ _ (by simp)

theorem rd_steppedTo {d c : Nat} (hc : c < 4) (s : State) :
    (steppedTo d c s).rd d Reg.CLK_STATUS_DIV = c ∧
      (steppedTo d c s).rd d Reg.CLK_STEPS = min (s.rd d Reg.CLK_STEPS + 1) (2 ^ 32 - 1) ∧
      (steppedTo d c s).rd d Reg.CLK_STATUS_PENDING = s.rd d Reg.CLK_STATUS_PENDING := by
  refine ⟨?_, ?_, ?_⟩
  · rw [steppedTo, State.rd_count_apart rfl, State.rd_wr_same]
    exact Nat.mod_eq_of_lt hc
  · rw [steppedTo, State.rd_count_same, State.rd_wr_apart rfl]
    rfl
  · rw [steppedTo, State.rd_count_apart rfl, State.rd_wr_apart rfl]
    rfl

theorem cclkStepChange_of_look {s : State} {d c : Nat} (due : look d s.que.clkTo = some c) :
    cclkStepChange d s =
      if (steppedTo d c s).rd d Reg.CLK_STATUS_PENDING = c then (steppedTo d c s).wr d Reg.CLK_STATUS_BUSY 0
      else { steppedTo d c s with que := { (steppedTo d c s).que with
        clkTo := bind_ d ((steppedTo d c s).rd d Reg.CLK_STATUS_PENDING) (steppedTo d c s).que.clkTo } } := by
  rw [cclkStepChange, due]
  rfl

theorem completes_cclkStepChange {s : State} {d c : Nat} (hd : d < dieCount s.orderCode)
    (due : look d s.que.clkTo = some c) (hc : c < 4) :
    Completes (.cclkStepChange d) s (fun t =>
      t.rd d Reg.CLK_STATUS_DIV = c ∧ t.rd d Reg.CLK_STEPS = min (s.rd d Reg.CLK_STEPS + 1) (2 ^ 32 - 1) ∧
      (s.rd d Reg.CLK_STATUS_PENDING = c → t.rd d Reg.CLK_STATUS_BUSY = 0 ∧ look d t.que.clkTo = none) ∧
      (s.rd d Reg.CLK_STATUS_PENDING ≠ c → look d t.que.clkTo = some (s.rd d Reg.CLK_STATUS_PENDING)) ∧
      RegsBut [(d, Reg.CLK_STATUS_DIV), (d, Reg.CLK_STEPS), (d, Reg.CLK_STATUS_BUSY)] s t) := by
  obtain ⟨div, steps, pending⟩ := rd_steppedTo (d := d) hc s
  refine completes_of_onDie (execCclkStepChange d s) rfl rfl hd ?_
  rw [cclkStepChange_of_look due, pending]
  split
  next same =>
    refine ⟨(State.rd_wr_apart rfl ..).trans div, (State.rd_wr_apart rfl ..).trans steps, fun _ => ⟨?_, ?_⟩,
      fun differs => absurd same differs, (regsBut_steppedTo d c s).wr d _ _ (by simp)⟩
    · exact State.rd_wr_same ..
    · exact look_unbind_same d s.que.clkTo
  next differs =>
    exact ⟨div, steps, fun same => absurd same differs, fun _ => look_bind_same .., (regsBut_steppedTo d c s).of_regs rfl⟩

/-! ### The level of a bucket -/

/-- A bucket depends on its key alone. -/
theorem get_buckets_setBucket (d p i kind : Nat) (v : Int) (s : State) (k : Nat) :
    SMap.get 0 (setBucket d p i kind v s).que.buckets k =
      if k = bucketKey d (instSlot s d p i) kind then v else SMap.get 0 s.que.buckets k :=
  SMap.get_set ..

theorem bucketKey_inj {d j k j' k' : Nat} (hk : k < 8) (hk' : k' < 8) :
    bucketKey d j k = bucketKey d j' k' ↔ j = j' ∧ k = k' := by
  unfold bucketKey
  omega

/-- What the size and the rate of a bucket are read from. -/
def BucketsAs (s t : State) : Prop := t.regs = s.regs ∧ t.img = s.img ∧ t.orderCode = s.orderCode

theorem BucketsAs.refl (s : State) : BucketsAs s s := ⟨rfl, rfl, rfl⟩

theorem BucketsAs.trans {s t u : State} (h : BucketsAs s t) (k : BucketsAs t u) : BucketsAs s u :=
  ⟨k.1.trans h.1, k.2.1.trans h.2.1, k.2.2.trans h.2.2⟩

theorem halfPart_of_regs {s t : State} (h : t.regs = s.regs) (d side : Nat) : halfPart t d side = halfPart s d side := by
  simp only [halfPart, State.rd_of_regs h]

theorem halfIn_of_regs {s t : State} (h : t.regs = s.regs) (d side p : Nat) : halfIn t d side p = halfIn s d side p := by
  rw [halfIn, halfIn, halfPart_of_regs h]

theorem instSlot_of_regs {s t : State} (h : t.regs = s.regs) (d p i : Nat) : instSlot t d p i = instSlot s d p i := by
  rw [instSlot, instSlot, partSide, partSide, halfIn_of_regs h]

theorem BucketsAs.instSlot {s t : State} (h : BucketsAs s t) (d p i : Nat) : instSlot t d p i = instSlot s d p i :=
  instSlot_of_regs h.1 d p i

theorem BucketsAs.qosField {s t : State} (h : BucketsAs s t) (p i off size : Nat) :
    qosField t p i off size = qosField s p i off size := by
  simp only [Machine.qosField, qosEntry, liveBody, h.2.1]

theorem BucketsAs.bucketRate {s t : State} (h : BucketsAs s t) (p i kind : Nat) :
    bucketRate t p i kind = bucketRate s p i kind := by
  simp only [Machine.bucketRate, h.qosField]

theorem BucketsAs.bucketCap {s t : State} (h : BucketsAs s t) (p i kind : Nat) :
    bucketCap t p i kind = bucketCap s p i kind := by
  unfold Machine.bucketCap Machine.qosField qosEntry liveBody
  rw [h.2.1]

theorem BucketsAs.refillOf {s t : State} (h : BucketsAs s t) (p i kind : Nat) :
    refillOf t p i kind = refillOf s p i kind := by
  unfold Machine.refillOf
  rw [h.bucketRate]

theorem BucketsAs.bucketLevel {s t : State} (h : BucketsAs s t) (d p i kind : Nat) :
    bucketLevel t d p i kind = SMap.get 0 t.que.buckets (bucketKey d (Machine.instSlot s d p i) kind) := by
  rw [Machine.bucketLevel, h.instSlot]

/-! ### The sectors reported -/

/-- A charge of `n` units lowers the level of its own bucket, where the instance has one. -/
theorem get_buckets_charge (d p i kind n : Nat) (s : State) (k : Nat) :
    SMap.get 0 (charge d p i kind n s).que.buckets k =
      if k = bucketKey d (instSlot s d p i) kind ∧ bucketRate s p i kind ≠ 0 then
        SMap.get 0 s.que.buckets k - n * bucketOne else SMap.get 0 s.que.buckets k := by
  unfold charge
  by_cases none : bucketRate s p i kind = 0
  · simp [none]
  · rw [if_neg none, get_buckets_setBucket]
    by_cases there : k = bucketKey d (instSlot s d p i) kind <;> simp [there, none, bucketLevel]

theorem bucketsAs_charge (d p i kind n : Nat) (s : State) : BucketsAs s (charge d p i kind n s) := by
  unfold charge
  split <;> exact ⟨rfl, rfl, rfl⟩

theorem sectors_charge (d p i kind n : Nat) (s : State) : (charge d p i kind n s).que.sectors = s.que.sectors := by
  unfold charge
  split <;> rfl

/-- A report without a sector leaves every level and every count. -/
theorem get_reportSectors_of_zero {q : Nat} {s : State} (all : SMap.get 0 s.que.sectors (2 * q) = 0)
    (remote : SMap.get 0 s.que.sectors (2 * q + 1) = 0) (k : Nat) :
    SMap.get 0 (reportSectors q s).que.buckets k = SMap.get 0 s.que.buckets k ∧
      SMap.get 0 (reportSectors q s).que.sectors k = SMap.get 0 s.que.sectors k := by
  constructor
  · simp [reportSectors, get_buckets_charge, all, remote]
  · simp only [reportSectors, sectors_charge, SMap.get_set]
    split
    · simp_all
    · split <;> simp_all

theorem bucketsAs_reportSectors (q : Nat) (s : State) : BucketsAs s (reportSectors q s) :=
  have kept := reportSectors_keeps (F := { noFrame with que := True }) trivial q (.refl _ s)
  ⟨kept.regs id, kept.img id, kept.orderCode⟩

/-- What a report charges the two buckets of its instance, and the counts it leaves. -/
theorem get_reportSectors {d j q : Nat} {s : State} (hd : queDie q = d)
    (hj : instSlot s d (quePart s q) (queInst s q) = j)
    (memory : bucketRate s (quePart s q) (queInst s q) 2 ≠ 0) (toash : bucketRate s (quePart s q) (queInst s q) 3 ≠ 0) :
    SMap.get 0 (reportSectors q s).que.buckets (bucketKey d j 2) = SMap.get 0 s.que.buckets (bucketKey d j 2)
        - (32 * SMap.get 0 s.que.sectors (2 * q) : Nat) * bucketOne ∧
      SMap.get 0 (reportSectors q s).que.buckets (bucketKey d j 3) = SMap.get 0 s.que.buckets (bucketKey d j 3)
        - (32 * SMap.get 0 s.que.sectors (2 * q + 1) : Nat) * bucketOne ∧
      ∀ k, SMap.get 0 (reportSectors q s).que.sectors k =
        if k = 2 * q ∨ k = 2 * q + 1 then 0 else SMap.get 0 s.que.sectors k := by
  subst hd
  have kinds : bucketKey (queDie q) j 2 ≠ bucketKey (queDie q) j 3 := by
    rw [Ne, bucketKey_inj (by decide) (by decide)]
    simp
  have same (n : Nat) := bucketsAs_charge (queDie q) (quePart s q) (queInst s q) 2 n s
  refine ⟨?_, ?_, fun k => ?_⟩
  · simp [reportSectors, get_buckets_charge, (same _).instSlot, hj, kinds, memory]
  · simp [reportSectors, get_buckets_charge, (same _).instSlot, (same _).bucketRate, hj, kinds.symm, toash]
  · simp only [reportSectors, sectors_charge, SMap.get_set]
    by_cases h : k = 2 * q <;> by_cases h' : k = 2 * q + 1 <;> simp [h, h']

theorem nodup_slotQueues (s : State) (d j : Nat) : (slotQueues s d j).Nodup :=
  (List.nodup_range.map fun a b h => by simpa using h).filter _

theorem mem_slotQueues {s : State} {d j n : Nat} (hn : n < 64)
    (slot : instSlot s d (quePart s (d * 64 + n)) (queInst s (d * 64 + n)) = j) : d * 64 + n ∈ slotQueues s d j :=
  List.mem_filter.2 ⟨List.mem_map_of_mem (List.mem_range.2 hn), by simp [slot]⟩

/-- The levels and the counts stand in `t` as in `s`. -/
def LevelsAs (s t : State) : Prop :=
  BucketsAs s t ∧ ∀ k, SMap.get 0 t.que.buckets k = SMap.get 0 s.que.buckets k ∧
    SMap.get 0 t.que.sectors k = SMap.get 0 s.que.sectors k

/-- `t` comes from `s` by the report of all that queue `q` of the instance `i` counted, which was all that any did. -/
def Reported (s : State) (d q p i : Nat) (t : State) : Prop :=
  BucketsAs s t ∧
    bucketLevel t d p i 2 = bucketLevel s d p i 2 - (32 * SMap.get 0 s.que.sectors (2 * q) : Nat) * bucketOne ∧
    bucketLevel t d p i 3 = bucketLevel s d p i 3 - (32 * SMap.get 0 s.que.sectors (2 * q + 1) : Nat) * bucketOne ∧
    ∀ k, SMap.get 0 t.que.sectors k = 0

theorem completes_sectorCountReport {s : State} {d n p i sectors remote : Nat} (hd : d < dieCount s.orderCode)
    (hn : n < 64) (hp : quePart s (d * 64 + n) = p) (hi : queInst s (d * 64 + n) = i) (slot : instSlot s d p i < 64)
    (memory : bucketRate s p i 2 ≠ 0) (toash : bucketRate s p i 3 ≠ 0)
    (alone : ∀ k, k ≠ 2 * (d * 64 + n) → k ≠ 2 * (d * 64 + n) + 1 → SMap.get 0 s.que.sectors k = 0)
    (counted : (sectors, remote) = countedOf s d (instSlot s d p i)) :
    Completes (.sectorCountReport d (instSlot s d p i) sectors remote) s (fun t =>
      bucketLevel t d p i 2 =
        bucketLevel s d p i 2 - (32 * SMap.get 0 s.que.sectors (2 * (d * 64 + n)) : Nat) * bucketOne ∧
      bucketLevel t d p i 3 =
        bucketLevel s d p i 3 - (32 * SMap.get 0 s.que.sectors (2 * (d * 64 + n) + 1) : Nat) * bucketOne ∧
      (∀ k, SMap.get 0 t.que.sectors k = 0) ∧ t.regs = s.regs) := by
  subst hp hi
  have die : queDie (d * 64 + n) = d := by unfold queDie; omega
  refine completes_of_onDie (execSectorCountReport d _ sectors remote s) rfl rfl hd ?_
  rw [if_pos slot, sectorCountReport, if_pos counted]
  have reported : Reported s d (d * 64 + n) (quePart s (d * 64 + n)) (queInst s (d * 64 + n))
      (each (slotQueues s d (instSlot s d (quePart s (d * 64 + n)) (queInst s (d * 64 + n))))
        (fun s q => reportSectors q s) s) := by
    refine each_once (P := LevelsAs s) (Q := Reported s d _ _ _) (nodup_slotQueues s d _) (mem_slotQueues hn rfl)
      (fun t e _ ne ⟨same, kept⟩ => ?_) (fun t ⟨same, kept⟩ => ?_) (fun t e _ _ ⟨same, h2, h3, gone⟩ => ?_)
      ⟨.refl s, fun _ => ⟨rfl, rfl⟩⟩
    · have zero := get_reportSectors_of_zero (q := e) (s := t)
        (by rw [(kept _).2]; exact alone _ (by omega) (by omega))
        (by rw [(kept _).2]; exact alone _ (by omega) (by omega))
      exact ⟨same.trans (bucketsAs_reportSectors e t),
        fun k => ⟨(zero k).1.trans (kept k).1, (zero k).2.trans (kept k).2⟩⟩
    · have named : quePart t (d * 64 + n) = quePart s (d * 64 + n) ∧ queInst t (d * 64 + n) = queInst s (d * 64 + n) :=
        ⟨State.rd_of_regs same.1 .., State.rd_of_regs same.1 ..⟩
      obtain ⟨all, remote, counts⟩ := get_reportSectors (s := t) die rfl (by rwa [named.1, named.2, same.bucketRate])
        (by rwa [named.1, named.2, same.bucketRate])
      have after := same.trans (bucketsAs_reportSectors (d * 64 + n) t)
      rw [named.1, named.2, same.instSlot, (kept _).1, (kept _).2] at all remote
      refine ⟨after, (after.bucketLevel ..).trans all, (after.bucketLevel ..).trans remote, fun k => ?_⟩
      rw [counts]
      split
      · rfl
      next other => rw [(kept k).2, alone k (fun h => other (.inl h)) (fun h => other (.inr h))]
    · have zero := get_reportSectors_of_zero (q := e) (s := t) (gone _) (gone _)
      have after := same.trans (bucketsAs_reportSectors e t)
      refine ⟨after, ?_, ?_, fun k => (zero k).2.trans (gone k)⟩
      · exact (after.bucketLevel ..).trans ((zero _).1.trans ((same.bucketLevel ..).symm.trans h2))
      · exact (after.bucketLevel ..).trans ((zero _).1.trans ((same.bucketLevel ..).symm.trans h3))
  obtain ⟨same, memoryLevel, toashLevel, gone⟩ := reported
  exact ⟨memoryLevel, toashLevel, gone, same.1⟩

/-! ### A rail's sample -/

theorem find?_putWhere_same {α : Type} {p : α → Bool} {x : α} (l : List α) (h : p x = true) :
    (putWhere p x l).find? p = some x := by
  induction l with
  | nil => simp [putWhere, h]
  | cons y l ih =>
    unfold putWhere
    by_cases hy : p y = true
    · simp [hy, h]
    · simp [hy, ih]

@[simp] theorem monHist_putMon (m : MonHist) (s : State) : monHist (putMon m s) m.die m.i = m := by
  rw [monHist, putMon, find?_putWhere_same _ (by simp)]
  rfl

/-- The history found for a monitor is that monitor's. -/
theorem monHist_named (s : State) (d i : Nat) : (monHist s d i).die = d ∧ (monHist s d i).i = i := by
  unfold monHist
  cases found : s.que.monitors.find? (fun m => Nat.beq m.die d && Nat.beq m.i i) with
  | none => exact ⟨rfl, rfl⟩
  | some m => simpa using List.find?_some found

theorem rdBit_wrBit_true (s : State) (d : Nat) (f : Fld) {i : Nat} (hi : i < f.width) :
    (s.wrBit d f i true).rdBit d f i = true := by
  rw [State.rdBit, State.wrBit, if_pos rfl, State.rd_wr_same, Nat.testBit_mod_two_pow, Nat.testBit_or,
    Nat.testBit_two_pow_self]
  simp [hi]

/-- Counting and recording an assertion writes MON_EVENTS alone. -/
theorem regs_monEvent (m : MonHist) (ev code : Nat) (s : State) :
    (monEvent m ev code s).regs = (s.count m.die Reg.MON_EVENTS 1).regs := by
  unfold monEvent
  dsimp only
  repeat' split
  all_goals rfl

theorem regsBut_monEvent (m : MonHist) (ev code : Nat) (s : State) :
    RegsBut [(m.die, Reg.MON_EVENTS)] s (monEvent m ev code s) :=
  ((RegsBut.refl _ s).count m.die Reg.MON_EVENTS 1 (by simp)).of_regs (regs_monEvent ..)

theorem rd_monEvent (m : MonHist) (ev code : Nat) (s : State) :
    (monEvent m ev code s).rd m.die Reg.MON_EVENTS = min (s.rd m.die Reg.MON_EVENTS + 1) (2 ^ 32 - 1) :=
  (State.rd_of_regs (regs_monEvent ..) ..).trans (State.rd_count_same ..)

/-- An event that is asserted and not cleared sets its bit; it is counted unless the bit was set. -/
theorem rd_moveEvent_asserted {m : MonHist} {f : Fld} {bit : Nat} (ev : Nat) (s : State)
    (apart : f.apart Reg.MON_EVENTS = true) (apart' : Reg.MON_EVENTS.apart f = true) (hbit : bit < f.width) :
    (moveEvent m f bit ev true false s).rdBit m.die f bit = true ∧
      (s.rdBit m.die f bit = false → (moveEvent m f bit ev true false s).rd m.die Reg.MON_EVENTS =
        min (s.rd m.die Reg.MON_EVENTS + 1) (2 ^ 32 - 1)) ∧
      RegsBut [(m.die, f), (m.die, Reg.MON_EVENTS)] s (moveEvent m f bit ev true false s) := by
  have set := rdBit_wrBit_true s m.die f hbit
  have wrote := (RegsBut.refl [(m.die, f), (m.die, Reg.MON_EVENTS)] s).wrBit m.die f bit true (by simp)
  have same (code : Nat) :=
    (regsBut_monEvent m ev code (s.wrBit m.die f bit true)).rd_of_apart (f := f) (by simp [apart]) m.die
  cases now : s.rdBit m.die f bit with
  | false =>
    simp only [moveEvent, now, nextEvent, Bool.not_false, Bool.and_self, if_true]
    refine ⟨?_, fun _ => ?_, wrote.trans ((regsBut_monEvent m ev _ _).mono (by simp))⟩
    · rw [State.rdBit, same]
      exact set
    · rw [rd_monEvent, State.rd_wrBit_apart apart']
  | true =>
    simp only [moveEvent, now, nextEvent, Bool.not_true, Bool.not_false, Bool.and_self, Bool.and_false, if_true]
    exact ⟨set, nofun, wrote⟩

/-- What the governor's look at the events writes. -/
def govFields (d : Nat) : List (Nat × Fld) := [(d, Reg.GOV_STATE_OVER), (d, Reg.GOV_STATE_HEADROOM),
  (d, Reg.GOV_STATE_STEPS), (d, Reg.CLK_STATUS_PENDING), (d, Reg.CLK_CAUSE), (d, Reg.CLK_STATUS_BUSY)]

theorem regsBut_requestStep (d : Nat) (s : State) :
    RegsBut [(d, Reg.CLK_STATUS_PENDING), (d, Reg.CLK_CAUSE), (d, Reg.CLK_STATUS_BUSY)] s (requestStep d s) := by
  unfold requestStep
  dsimp only
  split
  · exact .wr (.wr (.refl _ _) _ _ _ (by simp)) _ _ _ (by simp)
  · exact .wr (.of_regs (.wr (.wr (.refl _ _) _ _ _ (by simp)) d Reg.CLK_CAUSE _ (by simp)) rfl) _ _ _ (by simp)

theorem regsBut_govRefresh (d : Nat) (s : State) : RegsBut (govFields d) s (govRefresh d s) := by
  have shown {t u v : State} (ht : t = s.wr d Reg.GOV_STATE_OVER (if overRails s d = 0 then 0 else 1))
      (hu : u = t.wr d Reg.GOV_STATE_HEADROOM (headroom t d))
      (hv : v = u.wr d Reg.GOV_STATE_STEPS ((stepsOn s d).foldl (fun a j => a + 2 ^ j) 0)) :
      RegsBut (govFields d) s v := by
    subst ht hu hv
    exact .wr (.wr (.wr (.refl _ _) _ _ _ (by simp [govFields])) _ _ _ (by simp [govFields])) _ _ _ (by simp [govFields])
  refine .ite (fun _ => shown rfl rfl rfl) fun _ => (shown rfl rfl rfl).trans ?_
  exact (regsBut_requestStep d _).mono (by simp [govFields])

/-- A rail OVER shows in GOV_STATE, with HEADROOM 0 (R402). -/
theorem rd_govRefresh_of_over {s : State} {d : Nat} (exceeds : overRails s d ≠ 0) :
    (govRefresh d s).rd d Reg.GOV_STATE_OVER = 1 ∧ (govRefresh d s).rd d Reg.GOV_STATE_HEADROOM = 0 := by
  have step (f : Fld) (apart : [(d, Reg.CLK_STATUS_PENDING), (d, Reg.CLK_CAUSE), (d, Reg.CLK_STATUS_BUSY)].all
      (fun x => f.apart x.2) = true) (t : State) : (requestStep d t).rd d f = t.rd d f :=
    (regsBut_requestStep d t).rd_of_apart apart d
  have still : headroom (s.wr d Reg.GOV_STATE_OVER 1) d = 0 := by
    refine headroom_of_over ?_
    rwa [overRails, State.rd_wr_apart rfl, State.rd_wr_apart rfl]
  unfold govRefresh
  dsimp only
  rw [if_neg exceeds, still]
  split
  · refine ⟨?_, ?_⟩
    · rw [State.rd_wr_apart rfl, State.rd_wr_apart rfl]
      exact State.rd_wr_same ..
    · rw [State.rd_wr_apart rfl]
      exact State.rd_wr_same ..
  · refine ⟨?_, ?_⟩
    · rw [step _ rfl, State.rd_wr_apart rfl, State.rd_wr_apart rfl]
      exact State.rd_wr_same ..
    · rw [step _ rfl, State.rd_wr_apart rfl]
      exact State.rd_wr_same ..

/-- The state in which a sampled monitor's events are looked at. -/
def latched (d i : Nat) (code : BitVec 8) (s : State) : State :=
  putMon { monHist s d i with codes := (code :: (monHist s d i).codes).take 7, bad := 0 } s

theorem monHist_latched (d i : Nat) (code : BitVec 8) (s : State) :
    monHist (latched d i code s) d i =
      { monHist s d i with codes := (code :: (monHist s d i).codes).take 7, bad := 0 } := by
  obtain ⟨hd, hi⟩ := monHist_named s d i
  have same := monHist_putMon { monHist s d i with codes := (code :: (monHist s d i).codes).take 7, bad := 0 } s
  rwa [hd, hi] at same

/-- A filter of one sample passes what the last code passes. -/
theorem kOfN_latched {s : State} {d i : Nat} (one : s.rd d (Reg.MON_CFG_N i) < 2) (code : BitVec 8) (f : Nat → Bool) :
    kOfN (latched d i code s) (monHist (latched d i code s) d i) f = f code.toNat := by
  obtain ⟨hd, hi⟩ := monHist_named s d i
  have n : filterN (latched d i code s) d i = 1 := if_pos one
  have k : filterK (latched d i code s) d i = 1 := by rw [filterK, n]; omega
  rw [monHist_latched]
  cases pass : f code.toNat <;> simp [kOfN, hd, hi, n, k, pass, Nat.ble]

/-- The rail's event after its sample: OVER, and counted unless it was OVER. -/
def railOver (d i : Nat) (code : BitVec 8) (s : State) : State :=
  moveEvent (monHist (latched d i code s) d i) Reg.MON_IOVER (i - 352) 7 true false (latched d i code s)

theorem rd_railOver {d i : Nat} (hi : i < 360) (code : BitVec 8) (s : State) :
    (railOver d i code s).rdBit d Reg.MON_IOVER (i - 352) = true ∧
      (s.rdBit d Reg.MON_IOVER (i - 352) = false →
        (railOver d i code s).rd d Reg.MON_EVENTS = min (s.rd d Reg.MON_EVENTS + 1) (2 ^ 32 - 1)) ∧
      RegsBut [(d, Reg.MON_IOVER), (d, Reg.MON_EVENTS)] s (railOver d i code s) := by
  have moved := rd_moveEvent_asserted (m := monHist (latched d i code s) d i) (f := Reg.MON_IOVER) (bit := i - 352) 7
    (latched d i code s) rfl rfl (show i - 352 < 8 by omega)
  rwa [(monHist_named (latched d i code s) d i).1] at moved

theorem monitorSample_of_rail {s : State} {d i : Nat} {code : BitVec 8} (lo : 352 ≤ i) (hi : i < 360)
    (works : (monHist s d i).failed = false) (one : s.rd d (Reg.MON_CFG_N i) < 2)
    (high : s.rd d (Reg.MON_CFG_HIGH i) < code.toNat) (low : s.rd d (Reg.MON_CFG_LOW i) ≤ code.toNat)
    (points : failedPoints s d < 16) :
    monitorSample d i code true s = govRefresh d (railOver d i code s) := by
  have failed : (monHist (latched d i code s) d i).failed = false := by rw [monHist_latched]; exact works
  have asserts : kOfN (latched d i code s) (monHist (latched d i code s) d i)
      (fun c => Nat.blt (s.rd d (Reg.MON_CFG_HIGH i)) c) = true := (kOfN_latched one code _).trans (by simpa using high)
  have clears : kOfN (latched d i code s) (monHist (latched d i code s) d i)
      (fun c => Nat.blt c (s.rd d (Reg.MON_CFG_LOW i))) = false :=
    (kOfN_latched one code _).trans (by rw [← Bool.not_eq_true, Nat.blt_eq]; omega)
  have rest (t : State) (h : failedPoints t d = failedPoints s d) :
      (if t.boot.inReset.contains d = true then t
        else if 16 ≤ failedPoints t d then tripDie d 0xFF code.toNat t else t) = t := by
    rw [if_neg (show ¬16 ≤ failedPoints t d by omega), ite_self]
  have noVolt : ¬i < 320 := by omega
  have noTemp : ¬i < 352 := by omega
  have untouched (t : State) (h : RegsBut [(d, Reg.MON_IOVER), (d, Reg.MON_EVENTS)] s t) :
      failedPoints (govRefresh d t) d = failedPoints s d := by
    rw [failedPoints, (regsBut_govRefresh d t).rd_of_apart rfl, h.rd_of_apart rfl, failedPoints]
  have latch : putMon { monHist s d i with codes := (code :: (monHist s d i).codes).take 7, bad := 0 } s =
      latched d i code s := rfl
  have two : Nat.ble 3 0 = false := rfl
  have below : Nat.blt i 352 = false := by rw [← Bool.not_eq_true, Nat.blt_eq]; omega
  have fields (f : Fld) : (latched d i code s).rd d f = s.rd d f := rfl
  unfold monitorSample
  simp only [if_true, two, Bool.false_and, Bool.false_eq_true, if_false, latch, noVolt, noTemp, failed, below,
    Bool.and_false, fields, asserts, clears]
  exact rest _ (untouched _ (rd_railOver hi code s).2.2)

theorem completes_monitorSample_of_rail {s : State} {d i : Nat} {code : BitVec 8} (hd : d < dieCount s.orderCode)
    (runs : clocked s d = true) (lo : 352 ≤ i) (hi : i < 360) (works : (monHist s d i).failed = false)
    (one : s.rd d (Reg.MON_CFG_N i) < 2) (high : s.rd d (Reg.MON_CFG_HIGH i) < code.toNat)
    (low : s.rd d (Reg.MON_CFG_LOW i) ≤ code.toNat) (points : failedPoints s d < 16) :
    Completes (.monitorSample d i code true) s (fun t =>
      t.rdBit d Reg.MON_IOVER (i - 352) = true ∧ t.rd d Reg.GOV_STATE_OVER = 1 ∧ t.rd d Reg.GOV_STATE_HEADROOM = 0 ∧
      (s.rdBit d Reg.MON_IOVER (i - 352) = false →
        t.rd d Reg.MON_EVENTS = min (s.rd d Reg.MON_EVENTS + 1) (2 ^ 32 - 1)) ∧
      t.slc = s.slc ∧ t.core = s.core ∧ t.boot = s.boot) := by
  refine completes_of_onDie (execMonitorSample d i code true s) rfl rfl hd ?_
  rw [if_pos (by simp [hi, runs]), monitorSample_of_rail lo hi works one high low points]
  obtain ⟨set, counted, -⟩ := rd_railOver hi code s
  obtain ⟨shown, headroom⟩ := rd_govRefresh_of_over (s := railOver d i code s) (d := d)
    ((overRails_ne_zero_iff _ _).2 ⟨_, .inl set⟩)
  have kept : Keeps { noFrame with regs := True, que := True, recs := True } s (govRefresh d (railOver d i code s)) :=
    govRefresh_keeps trivial trivial d (moveEvent_keeps trivial trivial trivial _ _ _ _ _ _
      (putMon_keeps trivial _ (.refl _ s)))
  refine ⟨?_, shown, headroom, fun clear => ?_, kept.slc id, kept.core id, kept.boot id⟩
  · rw [State.rdBit, (regsBut_govRefresh d _).rd_of_apart rfl]
    exact set
  · rw [(regsBut_govRefresh d _).rd_of_apart rfl]
    exact counted clear

/-! ### The refill -/

/-- One bucket's refill sets its own level alone. -/
theorem get_buckets_refillBucket (d p i kind : Nat) (s : State) (k : Nat) :
    SMap.get 0 (refillBucket d p i kind s).que.buckets k =
      if k = bucketKey d (instSlot s d p i) kind ∧ bucketRate s p i kind ≠ 0 then
        min (SMap.get 0 s.que.buckets k + refillOf s p i kind) (bucketCap s p i kind) else SMap.get 0 s.que.buckets k := by
  unfold refillBucket
  by_cases none : bucketRate s p i kind = 0
  · simp [none]
  · rw [if_neg none, get_buckets_setBucket]
    by_cases there : k = bucketKey d (instSlot s d p i) kind <;> simp [there, none, bucketLevel]

theorem bucketsAs_refillBucket (d p i kind : Nat) (s : State) : BucketsAs s (refillBucket d p i kind s) :=
  have kept := refillBucket_keeps (F := { noFrame with que := True }) trivial d p i kind (.refl _ s)
  ⟨kept.regs id, kept.img id, kept.orderCode⟩

/-- Buckets as in `s`, and one level at `v`. -/
def LevelAt (s : State) (k : Nat) (v : Int) (t : State) : Prop := BucketsAs s t ∧ SMap.get 0 t.que.buckets k = v

/-- Another bucket's refill. -/
theorem LevelAt.refill_other {s t : State} {d p i kind j k : Nat} {v : Int} (h : LevelAt s (bucketKey d j k) v t)
    (hk : k < 8) (hkind : kind < 8) (ne : instSlot s d p i ≠ j ∨ kind ≠ k) :
    LevelAt s (bucketKey d j k) v (refillBucket d p i kind t) := by
  refine ⟨h.1.trans (bucketsAs_refillBucket ..), ?_⟩
  rw [get_buckets_refillBucket, if_neg, h.2]
  rw [h.1.instSlot, bucketKey_inj hk hkind]
  omega

/-- The bucket's own refill, up to its capacity. -/
theorem LevelAt.refill_same {s t : State} {d p i k : Nat} {v : Int}
    (h : LevelAt s (bucketKey d (instSlot s d p i) k) v t) (rate : bucketRate s p i k ≠ 0) :
    LevelAt s (bucketKey d (instSlot s d p i) k) (min (v + refillOf s p i k) (bucketCap s p i k))
      (refillBucket d p i k t) := by
  refine ⟨h.1.trans (bucketsAs_refillBucket ..), ?_⟩
  rw [get_buckets_refillBucket, if_pos ⟨by rw [h.1.instSlot], by rwa [h.1.bucketRate]⟩, h.2, h.1.refillOf, h.1.bucketCap]

/-- The refill of every instance of the die reaches each bucket once, where no two share a slot. -/
theorem levelAt_refillAll {s : State} {d p i k : Nat} (slots : ((bucketInsts s d).map fun x => instSlot s d x.1 x.2).Nodup)
    (member : (p, i) ∈ bucketInsts s d) (hk : k < 5) (rate : bucketRate s p i k ≠ 0) :
    LevelAt s (bucketKey d (instSlot s d p i) k) (min (bucketLevel s d p i k + refillOf s p i k) (bucketCap s p i k))
      (each (bucketInsts s d) (fun s x => each [0, 1, 2, 3, 4] (fun s k => refillBucket d x.1 x.2 k s) s) s) := by
  have kinds {e : Nat} (he : e ∈ [0, 1, 2, 3, 4]) : e < 8 := by
    simp only [List.mem_cons, List.not_mem_nil, or_false] at he
    omega
  have otherInst (v : Int) (t : State) (x : Nat × Nat) (hx : x ∈ bucketInsts s d) (ne : x ≠ (p, i))
      (h : LevelAt s (bucketKey d (instSlot s d p i) k) v t) :
      LevelAt s (bucketKey d (instSlot s d p i) k) v (each [0, 1, 2, 3, 4] (fun s k => refillBucket d x.1 x.2 k s) t) :=
    each_induction (fun t e he h => h.refill_other (by omega) (kinds he)
      (.inl fun same => ne (List.inj_on_of_nodup_map slots hx member same))) h
  refine each_once (P := LevelAt s _ (bucketLevel s d p i k)) (Q := LevelAt s _ _) slots.of_map member
    (otherInst _) (fun t h => ?_) (otherInst _) ⟨.refl s, rfl⟩
  refine each_once (P := LevelAt s _ (bucketLevel s d p i k)) (Q := LevelAt s _ _) (by decide : [0, 1, 2, 3, 4].Nodup)
    (d := k) (by simp; omega) (fun t e he ne h => ?_) (fun t h => h.refill_same rate) (fun t e he ne h => ?_) h
  · exact h.refill_other (by omega) (kinds he) (.inr ne)
  · exact h.refill_other (by omega) (kinds he) (.inr ne)

/-- Where no doorbell is held back none is released. -/
theorem instanceBucketRefill_of_none_deferred {d : Nat} {s : State} (none : s.que.deferredPi = []) :
    instanceBucketRefill d s =
      each (bucketInsts s d) (fun s x => each [0, 1, 2, 3, 4] (fun s k => refillBucket d x.1 x.2 k s) s) s := by
  have same : (each (bucketInsts s d) (fun s x => each [0, 1, 2, 3, 4] (fun s k => refillBucket d x.1 x.2 k s) s)
      s).que.deferredPi = [] := by
    refine each_induction (P := fun t => t.que.deferredPi = []) (fun t x _ h => ?_) none
    refine each_induction (P := fun t => t.que.deferredPi = []) (fun t k _ h => ?_) h
    unfold refillBucket
    split <;> exact h
  exact each_induction (P := fun t => t = each (bucketInsts s d) _ s)
    (fun t n _ h => by rw [h, same]; rfl) rfl

/-- Settles O15: FILTER_N below 2 acts as 1 (log 37); the refill's rounding is `refillOf`'s, and the sectors counted are
those noted for the instance's queues (log 121). -/
theorem governorAndBuckets : Obligations.GovernorAndBuckets := by
  refine ⟨⟨fun s d hd up cap => ?_, fun s d hd waits below => completes_tripRestart hd waits below,
    fun s d c hd due hc => completes_cclkStepChange hd due hc,
    fun s d n p i sectors remote hd hn hp hi slot memory toash alone counted =>
      completes_sectorCountReport hd hn hp hi slot memory toash alone counted⟩,
    fun s d i code hd runs lo hi works one high low points =>
      completes_monitorSample_of_rail hd runs lo hi works one high low points,
    fun s d p i k hd up held slots member hk rate => ?_⟩
  · exact ⟨_, exec_bucketRefill_of_dieUp hd up, govB_bucketRefill cap, .wr (.refl _ s) _ _ _ (by simp)⟩
  · refine completes_of_onDie (execInstanceBucketRefill d s) rfl rfl hd ?_
    rw [if_pos up, instanceBucketRefill_of_none_deferred held]
    obtain ⟨same, level⟩ := levelAt_refillAll slots member hk rate
    exact ⟨(same.bucketLevel ..).trans level, same.1⟩

end Sys2Proof.Machine
end

section
/-! PROOFS. Doorbells (R333, R439): the index that a queue takes, and the one that it discards. -/

namespace Sys2Proof.Machine

/-! ### Handing over a record -/

/-- A record handed over is the last that waits. -/
theorem handsOver_emit {s t : State} (d unit typ cls : Nat) (sealed_ : Bool) (payload : List PF)
    (waiting : t.recs.waiting = s.recs.waiting) : HandsOver d unit typ cls s (emit d unit typ cls sealed_ payload t) :=
  ⟨_, congrArg (· ++ [_]) waiting, rfl, rfl, rfl, rfl⟩

theorem rd_emit (d unit typ cls : Nat) (sealed_ : Bool) (payload : List PF) (s : State) (e : Nat) (f : Fld) :
    (emit d unit typ cls sealed_ payload s).rd e f = s.rd e f := rfl

/-! ### The way to the queue -/

theorem queLocal_lt (q : Nat) : queLocal q < 64 := Nat.mod_lt _ (by decide)

/-- A doorbell of 8 bytes in a window of an attached requester reaches its queue (R438, R502). -/
theorem doorbell_of_window {s : State} {port fn window p i q : Nat} {pasid : Option (BitVec 20)} {v : Word}
    (attached : attachOf s port = 2) (owner : requesterInst s port fn pasid = some (p, i))
    (named : (windowsOf s p i)[window]? = some q) (runs : s.boot.inReset.contains (queDie q) = false) :
    doorbell port fn pasid window 8 v s = queueDoorbell q fn v s := by
  simp only [doorbell, attached, owner, named, runs, ne_eq, not_true_eq_false, if_false, Bool.false_eq_true]

/-- The index that a doorbell moves, and the last that it may take (R333). -/
def indexOf (s : State) (q : Nat) : Nat := if queKind s q = 3 then queCi s q else quePi s q
def topOf (s : State) (q : Nat) : Nat := if queKind s q = 3 then quePi s q else queCi s q + ringEntries s q

/-- What a doorbell does at an enabled queue of a running instance. -/
theorem queueDoorbell_of_running {s : State} {q : Nat} (named : queNamed s q = true) (enabled : queEnabled s q = true)
    (running : instState s (queDie q) (quePart s q) (queInst s q) = 2) (fn : Nat) (v : Word) :
    queueDoorbell q fn v s = if v.toNat = indexOf s q then s
      else if (decide (v.toNat < indexOf s q) || decide (topOf s q < v.toNat)) = true then
        doorbellBad (queDie q) q 0 fn (partSealed s (quePart s q)) v s
      else acceptIndex q v s := by
  simp only [queueDoorbell, named, enabled, running, ne_eq, not_true_eq_false, if_false, Bool.not_true, Bool.or_self,
    Bool.false_eq_true, indexOf, topOf]
  rfl

/-! ### The index accepted -/

/-- What says which bucket a doorbell needs does not stand where PI stands. -/
theorem rd_wr_quePi {d n : Nat} {f : Fld} (v : Nat) (s : State)
    (ne : f.key d ≠ (Reg.QUE_PI n).key d) : (s.wr d (Reg.QUE_PI n) v).rd d f = s.rd d f := State.rd_wr_ne _ _ _ _ _ _ ne

theorem doorbellPasses_wr_quePi (s : State) (q v : Nat) :
    doorbellPasses (s.wr (queDie q) (Reg.QUE_PI (queLocal q)) v) q = doorbellPasses s q := by
  have small := queLocal_lt q
  have cfg (f : Nat → Fld) (h : (f (queLocal q)).key (queDie q) ≠ (Reg.QUE_PI (queLocal q)).key (queDie q)) :=
    rd_wr_quePi v s h
  have part : quePart (s.wr (queDie q) (Reg.QUE_PI (queLocal q)) v) q = quePart s q :=
    cfg Reg.QUE_CFG_PART (by simp only [Fld.key, Reg.QUE_CFG_PART, Reg.QUE_PI]; omega)
  have inst : queInst (s.wr (queDie q) (Reg.QUE_PI (queLocal q)) v) q = queInst s q :=
    cfg Reg.QUE_CFG_INST (by simp only [Fld.key, Reg.QUE_CFG_INST, Reg.QUE_PI]; omega)
  have cls : queClass (s.wr (queDie q) (Reg.QUE_PI (queLocal q)) v) q = queClass s q :=
    cfg Reg.QUE_CFG_CLASS (by simp only [Fld.key, Reg.QUE_CFG_CLASS, Reg.QUE_PI]; omega)
  have slot (p i : Nat) :
      instSlot (s.wr (queDie q) (Reg.QUE_PI (queLocal q)) v) (queDie q) p i = instSlot s (queDie q) p i := by
    rw [instSlot, instSlot, partSide, partSide, halfIn, halfIn, halfPart, halfPart,
      rd_wr_quePi v s (by simp only [Fld.key, Reg.PART_HALF_ASSIGNED, Reg.QUE_PI]; omega),
      rd_wr_quePi v s (by simp only [Fld.key, Reg.PART_HALF_PART, Reg.QUE_PI]; omega)]
  have level (p i k : Nat) :
      bucketLevel (s.wr (queDie q) (Reg.QUE_PI (queLocal q)) v) (queDie q) p i k = bucketLevel s (queDie q) p i k := by
    rw [bucketLevel, slot]
    rfl
  simp only [doorbellPasses, bucketHas1, part, inst, cls, level]
  rfl

theorem deferredPi_charge (d p i kind n : Nat) (s : State) : (charge d p i kind n s).que.deferredPi = s.que.deferredPi := by
  unfold charge
  split <;> rfl

theorem deferredPi_chargeDoorbell (q : Nat) (s : State) : (chargeDoorbell q s).que.deferredPi = s.que.deferredPi := by
  unfold chargeDoorbell
  dsimp only
  split
  · rw [deferredPi_charge, deferredPi_charge]
  · rw [deferredPi_charge]

theorem regs_chargeDoorbell (q : Nat) (s : State) : (chargeDoorbell q s).regs = s.regs := by
  unfold chargeDoorbell
  dsimp only
  split
  · exact (bucketsAs_charge ..).1.trans (bucketsAs_charge ..).1
  · exact (bucketsAs_charge ..).1

/-- A doorbell latched behind the buckets. -/
def deferDoorbell (q : Nat) (old : Word) (s : State) : State :=
  { s with que := { s.que with deferredPi := s.que.deferredPi ++ [(q, old)] } }.count (queDie q) Reg.PART_DB_DEFER 1

theorem acceptIndex_of_completion {s : State} {q : Nat} (kind : queKind s q = 3) (v : Word) :
    acceptIndex q v s = s.wr (queDie q) (Reg.QUE_CI (queLocal q)) v.toNat := if_pos kind

theorem acceptIndex_of_kind {s : State} {q : Nat} (kind : queKind s q ≠ 3) (v : Word) :
    acceptIndex q v s =
      if (!s.que.deferredPi.any (fun x => Nat.beq x.1 q) && doorbellPasses s q) = true then
        chargeDoorbell q (s.wr (queDie q) (Reg.QUE_PI (queLocal q)) v.toNat)
      else deferDoorbell q (BitVec.ofNat 64 (quePi s q)) (s.wr (queDie q) (Reg.QUE_PI (queLocal q)) v.toNat) := by
  rw [acceptIndex, if_neg kind]
  dsimp only
  rw [doorbellPasses_wr_quePi]
  rfl

/-- The fields that a doorbell may move. -/
def doorbellFields (q : Nat) : List (Nat × Fld) :=
  [(queDie q, Reg.QUE_PI (queLocal q)), (queDie q, Reg.QUE_CI (queLocal q)), (queDie q, Reg.PART_DB_DEFER)]

/-- PI of a queue after its doorbell, whether it passes or is held back. -/
theorem rd_acceptIndex {s : State} {q : Nat} (kind : queKind s q ≠ 3) (v : Word) :
    quePi (acceptIndex q v s) q = v.toNat ∧ queCi (acceptIndex q v s) q = queCi s q ∧
      RegsBut (doorbellFields q) s (acceptIndex q v s) := by
  have small := queLocal_lt q
  have pi : quePi (s.wr (queDie q) (Reg.QUE_PI (queLocal q)) v.toNat) q = v.toNat :=
    (State.rd_wr_same ..).trans v.toNat_mod_cancel
  have ci : queCi (s.wr (queDie q) (Reg.QUE_PI (queLocal q)) v.toNat) q = queCi s q :=
    rd_wr_quePi _ s (by simp only [Fld.key, Reg.QUE_CI, Reg.QUE_PI]; omega)
  have wrote : RegsBut (doorbellFields q) s (s.wr (queDie q) (Reg.QUE_PI (queLocal q)) v.toNat) :=
    .wr (.refl _ s) _ _ _ (.head _)
  rw [acceptIndex_of_kind kind]
  split
  · have same := regs_chargeDoorbell q (s.wr (queDie q) (Reg.QUE_PI (queLocal q)) v.toNat)
    exact ⟨(State.rd_of_regs same ..).trans pi, (State.rd_of_regs same ..).trans ci, wrote.of_regs same⟩
  · refine ⟨(State.rd_count_ne _ _ _ _ _ _ ?_).trans pi, (State.rd_count_ne _ _ _ _ _ _ ?_).trans ci,
      .count (wrote.of_regs rfl) _ _ _ (by simp [doorbellFields])⟩
    · simp only [Fld.key, Reg.QUE_PI, Reg.PART_DB_DEFER]; omega
    · simp only [Fld.key, Reg.QUE_CI, Reg.PART_DB_DEFER]; omega

theorem any_beq_eq_false_iff {α : Type} {l : List α} {f : α → Nat} {q : Nat} :
    l.any (fun x => Nat.beq (f x) q) = false ↔ l.find? (fun x => Nat.beq (f x) q) = none := by
  rw [List.find?_eq_none, ← Bool.not_eq_true, List.any_eq_true]
  simp

/-- A doorbell that its buckets let through, with none held back before it, is seen by the arbiter. -/
theorem visPi_acceptIndex_of_passes {s : State} {q : Nat} (kind : queKind s q ≠ 3) (v : Word)
    (passes : doorbellPasses s q = true) (none : s.que.deferredPi.find? (fun x => Nat.beq x.1 q) = none) :
    visPi (acceptIndex q v s) q = v.toNat := by
  have seen := (rd_acceptIndex kind v).1
  rw [visPi]
  have still : (acceptIndex q v s).que.deferredPi = s.que.deferredPi := by
    rw [acceptIndex_of_kind kind, if_pos (by simp [passes, any_beq_eq_false_iff.2 none]), deferredPi_chargeDoorbell]
    rfl
  rw [still, none]
  exact seen

/-- A doorbell held back is counted, and the arbiter sees PI as before it. -/
theorem acceptIndex_of_not_passes {s : State} {q : Nat} (kind : queKind s q ≠ 3) (v : Word)
    (held : doorbellPasses s q = false) (fits : quePi s q < 2 ^ 64) :
    (acceptIndex q v s).rd (queDie q) Reg.PART_DB_DEFER = min (s.rd (queDie q) Reg.PART_DB_DEFER + 1) (2 ^ 32 - 1) ∧
      visPi (acceptIndex q v s) q = visPi s q := by
  have small := queLocal_lt q
  rw [acceptIndex_of_kind kind, if_neg (by simp [held])]
  constructor
  · refine (State.rd_count_same ..).trans (congrArg (fun n => min (n + 1) _) ?_)
    exact rd_wr_quePi _ s (by simp only [Fld.key, Reg.PART_DB_DEFER, Reg.QUE_PI]; omega)
  · have latched : (deferDoorbell q (BitVec.ofNat 64 (quePi s q))
        (s.wr (queDie q) (Reg.QUE_PI (queLocal q)) v.toNat)).que.deferredPi =
        s.que.deferredPi ++ [(q, BitVec.ofNat 64 (quePi s q))] := rfl
    rw [visPi, visPi, latched, List.find?_append]
    cases s.que.deferredPi.find? (fun x => Nat.beq x.1 q) with
    | some x => rfl
    | none => simpa using fits

/-- Settles O16: one within the ring moves the index of its kind (R333); the test of the index comes after those of the
queue and its instance. -/
theorem doorbells : Obligations.Doorbells := by
  refine ⟨fun s port fn window p i q pasid v hd up attached owner named runs hn he running other completion => ?_,
    fun s port fn window p i q pasid v hd up attached owner named runs hn he running other completion => ?_⟩
  all_goals
    refine completes_of_onDie (execDoorbell port fn pasid window 8 v s) rfl rfl hd ?_
    rw [if_pos up, doorbell_of_window attached owner named runs, queueDoorbell_of_running hn he running]
  · by_cases kind : queKind s q = 3
    · obtain ⟨lo, hi⟩ := completion kind
      have index : indexOf s q = queCi s q := if_pos kind
      have top : topOf s q = quePi s q := if_pos kind
      have small := queLocal_lt q
      rw [if_neg (by omega), if_neg (by simp; omega), acceptIndex_of_completion kind]
      refine ⟨fun _ => ⟨State.rd_wr_ne _ _ _ _ _ _ ?_, (State.rd_wr_same ..).trans v.toNat_mod_cancel⟩, fun other => absurd kind other,
        fun other => absurd kind other, fun other => absurd kind other, .wr (.refl _ s) _ _ _ (by simp)⟩
      simp only [Fld.key, Reg.QUE_PI, Reg.QUE_CI]; omega
    · obtain ⟨lo, hi⟩ := other kind
      have index : indexOf s q = quePi s q := if_neg kind
      have top : topOf s q = queCi s q + ringEntries s q := if_neg kind
      have bound := v.isLt
      rw [if_neg (by omega), if_neg (by simp; omega)]
      obtain ⟨pi, ci, but⟩ := rd_acceptIndex kind v
      exact ⟨fun same => absurd same kind, fun _ => ⟨pi, ci⟩,
        fun _ passes none => visPi_acceptIndex_of_passes kind v passes none,
        fun _ held => acceptIndex_of_not_passes kind v held (by omega), but⟩
  · have outside : v.toNat ≠ indexOf s q ∧ (v.toNat < indexOf s q ∨ topOf s q < v.toNat) := by
      by_cases kind : queKind s q = 3
      · rw [indexOf, topOf, if_pos kind, if_pos kind]
        have := completion kind
        omega
      · rw [indexOf, topOf, if_neg kind, if_neg kind]
        have := other kind
        omega
    rw [if_neg outside.1, if_pos (by simpa using outside.2)]
    exact ⟨State.rd_count_same .., handsOver_emit _ _ _ _ _ _ rfl, rfl, .of_regs (.count (.refl _ s) _ _ _ (by simp)) rfl⟩

end Sys2Proof.Machine
end

section
/-! PROOFS. QUE_CTRL (R330, R350, R363): ENABLE with its ring's check, and RESET. -/

namespace Sys2Proof.Machine

/-! ### Fields of another block -/

/-- The block of 512 KiB that a field stands in (R555). -/
def Fld.block (f : Fld) : Nat := f.addr / 0x80000

theorem Fld.key_ne_of_block {d e : Nat} {f g : Fld} (hf : f.placed = true) (hg : g.placed = true)
    (ne : f.block ≠ g.block) : f.key d ≠ g.key e := by
  simp only [Fld.placed, Bool.and_eq_true, Nat.blt_eq] at hf hg
  intro same
  obtain ⟨-, addr, -⟩ := (Fld.key_eq_iff hf.1 hg.1 hf.2 hg.2).1 same
  exact ne (congrArg (· / 0x80000) addr)

/-- Every field that an effect may write is placed, in a block of `l`. -/
def InBlocks (l : List Nat) (touch : List (Nat × Fld)) : Prop := ∀ x ∈ touch, x.2.placed = true ∧ x.2.block ∈ l

theorem RegsBut.rd_of_block {l : List Nat} {touch : List (Nat × Fld)} {s t : State} {f : Fld} (h : RegsBut touch s t)
    (blocks : InBlocks l touch) (hf : f.placed = true) (other : f.block ∉ l) (d : Nat) : t.rd d f = s.rd d f :=
  h d f fun x hx =>
    have ⟨placed, block⟩ := blocks x hx
    Fld.key_ne_of_block hf placed fun same => other (same ▸ block)

/-! ### Fields of one index -/

/-- The field `k` bytes further on. -/
def Fld.shift (f : Fld) (k : Nat) : Fld := { f with addr := f.addr + k }

/-- Two fields of one index stand apart where those of index 0 do. -/
theorem Fld.key_shift_ne {f g : Fld} (apart : f.apart g = true) (d k : Nat) : (f.shift k).key d ≠ (g.shift k).key d := by
  have ne := Fld.key_ne_of_apart apart d d
  simp only [Fld.key, Fld.shift] at ne ⊢
  omega

theorem Fld.key_indexed_ne {f g : Nat → Fld} (k : Nat) (apart : (f 0).apart (g 0) = true) (d n : Nat)
    (hf : ∀ n, f n = (f 0).shift (k * n) := by exact fun _ => rfl)
    (hg : ∀ n, g n = (g 0).shift (k * n) := by exact fun _ => rfl) : (f n).key d ≠ (g n).key d := by
  rw [hf, hg]
  exact Fld.key_shift_ne apart d _

theorem State.rd_wr_indexed {f g : Nat → Fld} (k : Nat) (apart : (f 0).apart (g 0) = true) (s : State) (d n v : Nat)
    (hf : ∀ n, f n = (f 0).shift (k * n) := by exact fun _ => rfl)
    (hg : ∀ n, g n = (g 0).shift (k * n) := by exact fun _ => rfl) :
    (s.wr d (g n) v).rd d (f n) = s.rd d (f n) := State.rd_wr_ne _ _ _ _ _ _ (Fld.key_indexed_ne k apart d n hf hg)

/-! ### Where an address is homed -/

/-- What says where an address is homed reads in `t` as in `s`. -/
structure SamePlacement (s t : State) : Prop where
  active : ∀ d, t.rd d Reg.UC_ACTIVE = s.rd d Reg.UC_ACTIVE
  joined : ∀ d, t.rd d Reg.UC_MODE_JOINED = s.rd d Reg.UC_MODE_JOINED
  slicing : ∀ d, t.rd d Reg.UC_MODE_SLICING_W = s.rd d Reg.UC_MODE_SLICING_W
  half : ∀ d side, side < 2 → halfPart t d side = halfPart s d side

theorem RegsBut.samePlacement {l : List Nat} {touch : List (Nat × Fld)} {s t : State} (h : RegsBut touch s t)
    (blocks : InBlocks l touch) (uc : 9 ∉ l) (part : 13 ∉ l) : SamePlacement s t where
  active := h.rd_of_block blocks rfl uc
  joined := h.rd_of_block blocks rfl uc
  slicing := h.rd_of_block blocks rfl uc
  half d side hs := by
    have same (f : Fld) (hf : f.placed = true) (hb : f.block = 13) : t.rd d f = s.rd d f :=
      h.rd_of_block blocks hf (hb ▸ part) d
    obtain rfl | rfl : side = 0 ∨ side = 1 := by omega
    all_goals rw [halfPart, halfPart, same (Reg.PART_HALF_ASSIGNED _) rfl rfl, same (Reg.PART_HALF_PART _) rfl rfl]

theorem homeSide_lt (s : State) (pa : Nat) : homeSide s pa < 2 := by
  unfold Machine.homeSide
  split
  · unfold chanSide
    split <;> decide
  · unfold splitSide
    split
    · decide
    all_goals split <;> decide

section
variable {s t : State} (h : SamePlacement s t)
include h

theorem SamePlacement.placing (d : Nat) : placing t d = placing s d := by
  rw [Machine.placing, Machine.placing, h.joined, h.slicing]

theorem SamePlacement.activeHalf (d side : Nat) : activeHalf t d side = activeHalf s d side := by
  rw [Machine.activeHalf, Machine.activeHalf, activeChans, activeChans, h.active]

theorem SamePlacement.homeChan (pa : Nat) : homeChan t pa = homeChan s pa := by
  simp only [Machine.homeChan, placeList, h.placing, h.activeHalf, activeChans, h.active]

theorem SamePlacement.homeSide (pa : Nat) : homeSide t pa = homeSide s pa := by
  simp only [Machine.homeSide, h.homeChan, h.placing]

theorem SamePlacement.homePart (pa : Nat) : homePart t pa = homePart s pa := by
  rw [Machine.homePart, Machine.homePart, h.homeSide, h.half _ _ (homeSide_lt s pa)]

theorem SamePlacement.backed (pa : Nat) : backed t pa = backed s pa := by
  simp only [Machine.backed, h.placing, h.activeHalf]

end

/-! ### A queue's own fields -/

/-- A field of queue `n` stands in the queue block. -/
theorem inBlocks_queue {d n : Nat} (hn : n < 64) {l : List (Nat → Fld)}
    (base : ∀ f ∈ l, (f n).lo < 64 ∧ 0x300100 + 0x40 * n ≤ (f n).addr ∧ (f n).addr < 0x300140 + 0x40 * n) :
    InBlocks [6] (l.map fun f => (d, f n)) := by
  intro x hx
  obtain ⟨f, hf, rfl⟩ := List.mem_map.1 hx
  obtain ⟨lo, first, last⟩ := base f hf
  simp only [Fld.placed, Bool.and_eq_true, Nat.blt_eq, Fld.block, List.mem_singleton]
  omega

/-- Bits of a value are its bits after bit `k` below them is set. -/
theorem bits_setBit_of_lt {k lo : Nat} (hk : k < lo) (v hi : Nat) : bits (setBit v k) hi lo = bits v hi lo := by
  unfold bits setBit
  refine congrArg (· % _) (Nat.eq_of_testBit_eq fun i => ?_)
  simp only [Nat.testBit_div_two_pow, Nat.testBit_or]
  rw [Nat.testBit_two_pow_of_ne (by omega), Bool.or_false]

/-! ### QUE_CTRL written -/

/-- SERIAL, LOG2 and VECTOR as the write gives them. -/
def shapeWritten (d n v : Nat) (s : State) : State :=
  ((s.wr d (Reg.QUE_CTRL_SERIAL n) (bits v 1 1)).wr d (Reg.QUE_CTRL_LOG2 n) (bits v 6 2)).wr d
    (Reg.QUE_CTRL_VECTOR n) (bits v 12 7)

theorem regsBut_shapeWritten (d n v : Nat) (s : State) :
    RegsBut ([Reg.QUE_CTRL_SERIAL, Reg.QUE_CTRL_LOG2, Reg.QUE_CTRL_VECTOR].map fun f => (d, f n)) s
      (shapeWritten d n v s) :=
  .wr (.wr (.wr (.refl _ s) _ _ _ (by simp)) _ _ _ (by simp)) _ _ _ (by simp)

/-- The bits of the write fill their fields. -/
theorem rd_shapeWritten (d n v : Nat) (s : State) :
    (shapeWritten d n v s).rd d (Reg.QUE_CTRL_SERIAL n) = bits v 1 1 ∧
      (shapeWritten d n v s).rd d (Reg.QUE_CTRL_LOG2 n) = bits v 6 2 ∧
      (shapeWritten d n v s).rd d (Reg.QUE_CTRL_VECTOR n) = bits v 12 7 := by
  refine ⟨?_, ?_, (State.rd_wr_same ..).trans (Nat.mod_mod ..)⟩
  · rw [shapeWritten, State.rd_wr_indexed 0x40 rfl, State.rd_wr_indexed 0x40 rfl]
    exact (State.rd_wr_same ..).trans (Nat.mod_mod ..)
  · rw [shapeWritten, State.rd_wr_indexed 0x40 rfl]
    exact (State.rd_wr_same ..).trans (Nat.mod_mod ..)

/-- A field of the queue that stands beside SERIAL, LOG2 and VECTOR. -/
theorem rd_shapeWritten_beside {f : Nat → Fld} (d n v : Nat) (s : State)
    (apart : [Reg.QUE_CTRL_SERIAL 0, Reg.QUE_CTRL_LOG2 0, Reg.QUE_CTRL_VECTOR 0].all (fun g => (f 0).apart g) = true)
    (hf : ∀ n, f n = (f 0).shift (0x40 * n) := by exact fun _ => rfl) :
    (shapeWritten d n v s).rd d (f n) = s.rd d (f n) := by
  simp only [List.all_cons, List.all_nil, Bool.and_true, Bool.and_eq_true] at apart
  obtain ⟨serial, log2, vector⟩ := apart
  rw [shapeWritten, State.rd_wr_indexed (g := Reg.QUE_CTRL_VECTOR) 0x40 vector (hf := hf),
    State.rd_wr_indexed (g := Reg.QUE_CTRL_LOG2) 0x40 log2 (hf := hf),
    State.rd_wr_indexed (g := Reg.QUE_CTRL_SERIAL) 0x40 serial (hf := hf)]

theorem queDie_at {d n : Nat} (hn : n < 64) : queDie (d * 64 + n) = d := by unfold queDie; omega
theorem queLocal_at {d n : Nat} (hn : n < 64) : queLocal (d * 64 + n) = n := by unfold queLocal; omega

/-- A write with ENABLE set at a disabled queue that takes it. -/
theorem queCtrlWrite_of_enable {s : State} {d n v : Nat} {src : Source}
    (allowed : wardenOk s (quePart s (d * 64 + n)) src = true) (off : queEnabled s (d * 64 + n) = false)
    (on : v.testBit 0 = true) : queCtrlWrite d n src v s = setEnable (d * 64 + n) true (shapeWritten d n v s) := by
  simp only [queCtrlWrite, allowed, off, on, Bool.not_true, Bool.and_false, Bool.false_and, Bool.false_eq_true, if_false,
    if_true]
  rfl

/-- A write with RESET and without ENABLE at a disabled queue that takes it. -/
theorem queCtrlWrite_of_reset {s : State} {d n v : Nat} {src : Source}
    (allowed : wardenOk s (quePart s (d * 64 + n)) src = true) (off : queEnabled s (d * 64 + n) = false)
    (disable : v.testBit 0 = false) (reset : v.testBit 13 = true) :
    queCtrlWrite d n src v s = clearQueue (d * 64 + n) (setEnable (d * 64 + n) false (shapeWritten d n v s)) := by
  simp only [queCtrlWrite, allowed, off, disable, reset, Bool.not_true, Bool.not_false, Bool.and_false, Bool.and_true,
    Bool.false_and, Bool.false_eq_true, if_false, if_true]
  rfl

/-- The ring is judged by what the write leaves alone. -/
theorem ringOk_shapeWritten {d n : Nat} (hn : n < 64) (v log2 : Nat) (s : State) :
    ringOk (shapeWritten d n v s) (d * 64 + n) log2 = ringOk s (d * 64 + n) log2 := by
  have placed : SamePlacement s (shapeWritten d n v s) :=
    (regsBut_shapeWritten d n v s).samePlacement (inBlocks_queue hn (by
      simp only [List.forall_mem_cons, Reg.QUE_CTRL_SERIAL, Reg.QUE_CTRL_LOG2, Reg.QUE_CTRL_VECTOR]
      refine ⟨by omega, by omega, by omega, nofun⟩)) (by decide) (by decide)
  have base : queBase (shapeWritten d n v s) (d * 64 + n) = queBase s (d * 64 + n) := by
    rw [queBase, queBase, queDie_at hn, queLocal_at hn, rd_shapeWritten_beside d n v s rfl]
  have part : quePart (shapeWritten d n v s) (d * 64 + n) = quePart s (d * 64 + n) := by
    rw [quePart, quePart, queDie_at hn, queLocal_at hn, rd_shapeWritten_beside d n v s rfl]
  rw [ringOk, ringOk, base, part, placed.homePart, placed.backed]

/-! ### ENABLE and RESET -/

/-- An enable of a named, disabled queue: ENABLE with a good ring, ERROR 2 with a bad one (R350). -/
theorem setEnable_of_off {s : State} {q : Nat} (named : queNamed s q = true) (off : queEnabled s q = false) :
    setEnable q true s = if ringOk s q (queLog2 s q) = true then s.wr (queDie q) (Reg.QUE_CTRL_ENABLE (queLocal q)) 1
      else s.wr (queDie q) (Reg.QUE_STATE_ERROR (queLocal q)) 2 := by
  simp only [setEnable, named, off, Bool.not_true, Bool.or_self, Bool.false_eq_true, if_false]

theorem regs_setEnable_of_disable (q : Nat) (s : State) :
    (setEnable q false s).regs = (s.wr (queDie q) (Reg.QUE_CTRL_ENABLE (queLocal q)) 0).regs := rfl

section
variable {s : State} {d n : Nat} (hn : n < 64)
include hn

theorem queNamed_at : queNamed s (d * 64 + n) = decide (s.rd d (Reg.QUE_CFG_NAMED n) = 1) := by
  rw [queNamed, queDie_at hn, queLocal_at hn]
theorem queEnabled_at : queEnabled s (d * 64 + n) = decide (s.rd d (Reg.QUE_CTRL_ENABLE n) = 1) := by
  rw [queEnabled, queDie_at hn, queLocal_at hn]
theorem queLog2_at : queLog2 s (d * 64 + n) = s.rd d (Reg.QUE_CTRL_LOG2 n) := by
  rw [queLog2, queDie_at hn, queLocal_at hn]
theorem quePi_at : quePi s (d * 64 + n) = s.rd d (Reg.QUE_PI n) := by rw [quePi, queDie_at hn, queLocal_at hn]
theorem queCi_at : queCi s (d * 64 + n) = s.rd d (Reg.QUE_CI n) := by rw [queCi, queDie_at hn, queLocal_at hn]

end

theorem completes_queEnable {s : State} {d n : Nat} {src : Source} {v : Word} (hd : d < dieCount s.orderCode) (hn : n < 64)
    (named : queNamed s (d * 64 + n) = true) (allowed : wardenOk s (quePart s (d * 64 + n)) src = true)
    (off : queEnabled s (d * 64 + n) = false) :
    Completes (.queEnable d n src v) s (fun t =>
      t.rd d (Reg.QUE_CTRL_LOG2 n) = bits v.toNat 6 2 ∧ t.rd d (Reg.QUE_CTRL_SERIAL n) = bits v.toNat 1 1 ∧
      t.rd d (Reg.QUE_CTRL_VECTOR n) = bits v.toNat 12 7 ∧
      (ringOk s (d * 64 + n) (bits v.toNat 6 2) = true → queEnabled t (d * 64 + n) = true) ∧
      (ringOk s (d * 64 + n) (bits v.toNat 6 2) = false →
        queEnabled t (d * 64 + n) = false ∧ t.rd d (Reg.QUE_STATE_ERROR n) = 2) ∧
      quePi t (d * 64 + n) = quePi s (d * 64 + n) ∧ queCi t (d * 64 + n) = queCi s (d * 64 + n)) := by
  refine completes_of_onDie (execQueEnable d n src v s) rfl rfl hd ?_
  obtain ⟨serial, log2, vector⟩ := rd_shapeWritten d n (setBit v.toNat 0) s
  rw [bits_setBit_of_lt (by decide)] at serial log2 vector
  have set : (setBit v.toNat 0).testBit 0 = true := by simp [setBit]
  have named' : queNamed (shapeWritten d n (setBit v.toNat 0) s) (d * 64 + n) = true := by
    rwa [queNamed_at hn, rd_shapeWritten_beside _ _ _ _ rfl, ← queNamed_at hn]
  have off' : queEnabled (shapeWritten d n (setBit v.toNat 0) s) (d * 64 + n) = false := by
    rwa [queEnabled_at hn, rd_shapeWritten_beside _ _ _ _ rfl, ← queEnabled_at hn]
  rw [if_pos hn, queCtrlWrite_of_enable allowed off set, setEnable_of_off named' off', queLog2_at hn, log2,
    ringOk_shapeWritten hn, queDie_at hn, queLocal_at hn]
  simp only [queEnabled_at hn, quePi_at hn, queCi_at hn] at off' ⊢
  split
  next good =>
    refine ⟨?_, ?_, ?_, fun _ => decide_eq_true (State.rd_wr_same ..), fun bad => absurd good (bad ▸ nofun), ?_, ?_⟩
    · rwa [State.rd_wr_indexed 0x40 rfl]
    · rwa [State.rd_wr_indexed 0x40 rfl]
    · rwa [State.rd_wr_indexed 0x40 rfl]
    · rw [State.rd_wr_indexed 0x40 rfl, rd_shapeWritten_beside _ _ _ _ rfl]
    · rw [State.rd_wr_indexed 0x40 rfl, rd_shapeWritten_beside _ _ _ _ rfl]
  next bad =>
    refine ⟨?_, ?_, ?_, fun good => absurd good bad, fun _ => ⟨?_, State.rd_wr_same ..⟩, ?_, ?_⟩
    · rwa [State.rd_wr_indexed 0x40 rfl]
    · rwa [State.rd_wr_indexed 0x40 rfl]
    · rwa [State.rd_wr_indexed 0x40 rfl]
    · rwa [State.rd_wr_indexed 0x40 rfl]
    · rw [State.rd_wr_indexed 0x40 rfl, rd_shapeWritten_beside _ _ _ _ rfl]
    · rw [State.rd_wr_indexed 0x40 rfl, rd_shapeWritten_beside _ _ _ _ rfl]

/-- Where ENABLE reads 0, QUE_CTRL reads as its three other fields. -/
theorem bits_queCtrlValue {s : State} {d n : Nat} (off : s.rd d (Reg.QUE_CTRL_ENABLE n) = 0)
    (serial : s.rd d (Reg.QUE_CTRL_SERIAL n) < 2) (log2 : s.rd d (Reg.QUE_CTRL_LOG2 n) < 32)
    (vector : s.rd d (Reg.QUE_CTRL_VECTOR n) < 64) :
    setBit (queCtrlValue s d n) 13 = queCtrlValue s d n + 2 ^ 13 ∧ queCtrlValue s d n % 2 = 0 ∧
      bits (queCtrlValue s d n + 2 ^ 13) 6 2 = s.rd d (Reg.QUE_CTRL_LOG2 n) := by
  have value : queCtrlValue s d n = s.rd d (Reg.QUE_CTRL_SERIAL n) * 2 + s.rd d (Reg.QUE_CTRL_LOG2 n) * 4
      + s.rd d (Reg.QUE_CTRL_VECTOR n) * 128 := by rw [queCtrlValue, off, Nat.zero_add]
  refine ⟨?_, by omega, ?_⟩
  · have disjoint := Nat.two_pow_add_eq_or_of_lt (i := 13) (show queCtrlValue s d n < 2 ^ 13 by omega) 1
    rw [setBit, Nat.or_comm, ← Nat.mul_one (2 ^ 13), ← disjoint, Nat.add_comm]
  · unfold bits
    omega

/-- The indices and the state of queue `q` as RESET leaves them. -/
def indicesCleared (q : Nat) (s : State) : State :=
  let d := queDie q
  let n := queLocal q
  ((((s.wr d (Reg.QUE_STATE_DEPTH_WAIT n) 0).wr d (Reg.QUE_STATE_CQ_WAIT n) 0).wr d (Reg.QUE_PI n) 0).wr d
    (Reg.QUE_CI n) 0).wr d (Reg.QUE_STATE_ERROR n) 0

/-- RESET clears the indices of the queue, and what it takes out of the sequences and the arbiter is no register. -/
theorem clearQueue_eq (q : Nat) (s : State) : ∃ u : State, u.regs = s.regs ∧
    u.que.deferredPi.any (fun x => Nat.beq x.1 q) = false ∧ clearQueue q s = indicesCleared q u := by
  refine ⟨_, ?_, ?_, rfl⟩
  · exact (each_keeps (F := { noFrame with que := True }) (fun _ _ h => detachIds_keeps trivial _ _ _ h) (.refl _ s)).regs id
  · simp

theorem rd_indicesCleared (q : Nat) (s : State) :
    quePi (indicesCleared q s) q = 0 ∧ queCi (indicesCleared q s) q = 0 ∧
      (indicesCleared q s).rd (queDie q) (Reg.QUE_STATE_ERROR (queLocal q)) = 0 := by
  refine ⟨?_, ?_, State.rd_wr_same ..⟩
  · rw [quePi, indicesCleared, State.rd_wr_indexed 0x40 rfl, State.rd_wr_indexed 0x40 rfl]
    exact State.rd_wr_same ..
  · rw [queCi, indicesCleared, State.rd_wr_indexed 0x40 rfl]
    exact State.rd_wr_same ..

/-- A field of the queue beside those. -/
theorem rd_indicesCleared_beside {f : Nat → Fld} (q : Nat) (s : State)
    (apart : [Reg.QUE_STATE_DEPTH_WAIT 0, Reg.QUE_STATE_CQ_WAIT 0, Reg.QUE_PI 0, Reg.QUE_CI 0, Reg.QUE_STATE_ERROR 0].all
      (fun g => (f 0).apart g) = true) (hf : ∀ n, f n = (f 0).shift (0x40 * n) := by exact fun _ => rfl) :
    (indicesCleared q s).rd (queDie q) (f (queLocal q)) = s.rd (queDie q) (f (queLocal q)) := by
  simp only [List.all_cons, List.all_nil, Bool.and_true, Bool.and_eq_true] at apart
  obtain ⟨depth, cq, pi, ci, error⟩ := apart
  rw [indicesCleared, State.rd_wr_indexed (g := Reg.QUE_STATE_ERROR) 0x40 error (hf := hf),
    State.rd_wr_indexed (g := Reg.QUE_CI) 0x40 ci (hf := hf), State.rd_wr_indexed (g := Reg.QUE_PI) 0x40 pi (hf := hf),
    State.rd_wr_indexed (g := Reg.QUE_STATE_CQ_WAIT) 0x40 cq (hf := hf),
    State.rd_wr_indexed (g := Reg.QUE_STATE_DEPTH_WAIT) 0x40 depth (hf := hf)]

/-- RESET of a disabled queue (R363). -/
theorem completes_queReset {s : State} {d n : Nat} {src : Source} (hd : d < dieCount s.orderCode) (hn : n < 64)
    (allowed : wardenOk s (quePart s (d * 64 + n)) src = true) (off : s.rd d (Reg.QUE_CTRL_ENABLE n) = 0)
    (serial : s.rd d (Reg.QUE_CTRL_SERIAL n) < 2) (log2 : queLog2 s (d * 64 + n) < 32)
    (vector : s.rd d (Reg.QUE_CTRL_VECTOR n) < 64) :
    Completes (.queReset d n src) s (fun t =>
      quePi t (d * 64 + n) = 0 ∧ queCi t (d * 64 + n) = 0 ∧ t.rd d (Reg.QUE_STATE_ERROR n) = 0 ∧
      queEnabled t (d * 64 + n) = false ∧ queLog2 t (d * 64 + n) = queLog2 s (d * 64 + n) ∧
      t.que.deferredPi.any (fun x => Nat.beq x.1 (d * 64 + n)) = false ∧ t.slc = s.slc) := by
  refine completes_of_onDie (execQueReset d n src s) rfl rfl hd ?_
  rw [queLog2_at hn] at log2
  obtain ⟨value, even, size⟩ := bits_queCtrlValue off serial log2 vector
  have disable : (queCtrlValue s d n + 2 ^ 13).testBit 0 = false := by
    rw [Nat.testBit_zero]
    exact decide_eq_false (by omega)
  have reset : (queCtrlValue s d n + 2 ^ 13).testBit 13 = true := by
    rw [← value, setBit, Nat.testBit_or, Nat.testBit_two_pow_self, Bool.or_true]
  have off' : queEnabled s (d * 64 + n) = false := by
    rw [queEnabled_at hn, off]
    rfl
  have kept := queCtrlWrite_keeps (F := { noFrame with regs := True, que := True, recs := True }) trivial trivial trivial
    d n src (queCtrlValue s d n + 2 ^ 13) (.refl _ s)
  rw [if_pos hn, value]
  have slc := kept.slc id
  rw [queCtrlWrite_of_reset allowed off' disable reset] at slc ⊢
  obtain ⟨u, regs, none, cleared⟩ := clearQueue_eq (d * 64 + n)
    (setEnable (d * 64 + n) false (shapeWritten d n (queCtrlValue s d n + 2 ^ 13) s))
  rw [cleared] at slc ⊢
  obtain ⟨pi, ci, error⟩ := rd_indicesCleared (d * 64 + n) u
  have disabled (f : Fld) : u.rd (queDie (d * 64 + n)) f =
      ((shapeWritten d n (queCtrlValue s d n + 2 ^ 13) s).wr d (Reg.QUE_CTRL_ENABLE n) 0).rd (queDie (d * 64 + n)) f := by
    rw [State.rd_of_regs regs, State.rd_of_regs (regs_setEnable_of_disable _ _), queDie_at hn, queLocal_at hn]
  refine ⟨pi, ci, ?_, ?_, ?_, none, slc⟩
  · rwa [queDie_at hn, queLocal_at hn] at error
  · rw [queEnabled, rd_indicesCleared_beside _ _ rfl, disabled, queDie_at hn, queLocal_at hn, State.rd_wr_same]
    rfl
  · rw [queLog2, rd_indicesCleared_beside _ _ rfl, disabled, queDie_at hn, queLocal_at hn, State.rd_wr_indexed 0x40 rfl,
      (rd_shapeWritten d n _ s).2.1, size, queLog2_at hn]

/-- Settles O17: LOG2, SERIAL and VECTOR are written before the ring is judged, and RESET acts on the ENABLE that the
write leaves (log 36). -/
theorem queueControl : Obligations.QueueControl :=
  ⟨fun _ _ _ _ _ hd hn named allowed off => completes_queEnable hd hn named allowed off,
    fun _ _ _ _ hd hn _ allowed off serial log2 vector => completes_queReset hd hn allowed off serial log2 vector⟩

end Sys2Proof.Machine
end

section
/-! PROOFS. The energy gate (R407, R409, R410): the charge of a dispatched item, and the item that holds the grant. -/

namespace Sys2Proof.Machine

/-! ### The charge (R407, R410) -/

/-- What class U leaves of B (R410): it is not taken below the floor, nor below where it was. -/
def flooredB (s : State) (d e : Nat) : Int := max (govB s d - e) (min (uFloor s d) (govB s d))

/-- The charge of the instance's energy bucket is beside the die's. -/
theorem chargeItem_of_urgent {s : State} {h : Head} (urgent : queClass s h.q = 0) (e : Nat) :
    (chargeItem h e s).regs = ((setGovB (queDie h.q) (flooredB s (queDie h.q) e) s).count (queDie h.q)
      Reg.GOV_U_FORGIVEN (flooredB s (queDie h.q) e - (govB s (queDie h.q) - e)).toNat).regs := by
  have same := (bucketsAs_charge (queDie h.q) (quePart s h.q) (queInst s h.q) 4 e s).1
  have read (d : Nat) (f : Fld) := State.rd_of_regs same d f
  simp only [chargeItem, flooredB, queClass, govB, uFloor, read] at urgent ⊢
  rw [if_pos urgent]
  simp only [State.count, setGovB, State.wr, State.rd, same]

theorem chargeItem_of_other {s : State} {h : Head} (other : queClass s h.q ≠ 0) (e : Nat) :
    (chargeItem h e s).regs = (setGovB (queDie h.q) (govB s (queDie h.q) - e) s).regs := by
  have same := (bucketsAs_charge (queDie h.q) (quePart s h.q) (queInst s h.q) 4 e s).1
  have read (d : Nat) (f : Fld) := State.rd_of_regs same d f
  simp only [chargeItem, queClass, govB, read] at other ⊢
  rw [if_neg other]
  simp only [setGovB, State.wr, same]

/-- The charge of an item of class U, for what is left of B in its 40 bits. -/
theorem charged_of_urgent {s : State} {h : Head} {e : Nat} (urgent : queClass s h.q = 0)
    (lo : -(2 ^ 39 : Int) ≤ flooredB s (queDie h.q) e) (hi : flooredB s (queDie h.q) e < 2 ^ 39) :
    govB (chargeItem h e s) (queDie h.q) = flooredB s (queDie h.q) e ∧
      (chargeItem h e s).rd (queDie h.q) Reg.GOV_U_FORGIVEN = min (s.rd (queDie h.q) Reg.GOV_U_FORGIVEN +
        (flooredB s (queDie h.q) e - (govB s (queDie h.q) - e)).toNat) (2 ^ 48 - 1) := by
  have read := State.rd_of_regs (chargeItem_of_urgent urgent e) (queDie h.q)
  constructor
  · rw [govB, read, State.rd_count_apart rfl]
    exact govB_setGovB lo hi s
  · rw [read, State.rd_count_same, setGovB, State.rd_wr_apart rfl]
    rfl

theorem regsBut_chargeItem (s : State) (h : Head) (e : Nat) :
    RegsBut [(queDie h.q, Reg.GOV_BUCKET), (queDie h.q, Reg.GOV_U_FORGIVEN)] s (chargeItem h e s) := by
  by_cases urgent : queClass s h.q = 0
  · exact .of_regs (.count (.wr (.refl _ s) _ _ _ (by simp)) _ _ _ (by simp)) (chargeItem_of_urgent urgent e)
  · exact .of_regs (.wr (.refl _ s) _ _ _ (by simp)) (chargeItem_of_other urgent e)

/-! ### The refused and the held -/

/-- The arbiter's state of a die is the die's. -/
theorem arbOf_die (s : State) (d : Nat) : (arbOf s d).die = d := by
  unfold arbOf
  cases found : s.que.arbs.find? (fun a => Nat.beq a.die d) with
  | none => rfl
  | some a => exact Nat.eq_of_beq_eq_true (List.find?_some (p := fun a : Arb => Nat.beq a.die d) found)

@[simp] theorem arbOf_putArb (a : Arb) (s : State) : arbOf (putArb a s) a.die = a :=
  congrArg (·.getD ⟨a.die, none, 0, [], [], [], [], [], none⟩)
    (find?_putWhere_same (p := fun x : Arb => Nat.beq x.die a.die) s.que.arbs (Nat.beq_refl a.die))

theorem arbOf_of_que {s t : State} (h : t.que = s.que) (d : Nat) : arbOf t d = arbOf s d := by
  rw [arbOf, arbOf, h]

/-- Refusals forgotten, and nothing else. -/
theorem pruneArb_eq (d : Nat) (s : State) : ∃ q, pruneArb d s = { s with que := q } := by
  unfold pruneArb
  dsimp only
  split
  · exact ⟨_, rfl⟩
  · exact ⟨s.que, rfl⟩

/-- The older of two refused items. -/
def olderOf (b : Option (Nat × Nat)) (x : Nat × Nat) : Option (Nat × Nat) :=
  match b with
  | some y => if x.2 < y.2 then some x else some y
  | none => some x

/-- The one that is older than every other stays, and is taken where it is met. -/
theorem foldl_olderOf {x : Nat × Nat} {l : List (Nat × Nat)} (oldest : ∀ y ∈ l, y = x ∨ x.2 < y.2) :
    ∀ b, (b = some x ∨ x ∈ l ∧ ∀ y, b = some y → x.2 < y.2) → l.foldl olderOf b = some x := by
  induction l with
  | nil => exact fun b h => h.resolve_right (by simp)
  | cons y l ih =>
    refine fun b h => ih (fun z hz => oldest z (.tail _ hz)) _ ?_
    have older : y = x ∨ x.2 < y.2 := oldest y (.head _)
    obtain rfl | ⟨member, later⟩ := h
    · refine .inl ?_
      obtain rfl | older := older
      · simp [olderOf]
      · rw [olderOf, if_neg (by omega)]
    · by_cases met : y = x
      · subst met
        cases b with
        | none => exact .inl rfl
        | some z => exact .inl (if_pos (later z rfl))
      · refine .inr ⟨(List.mem_cons.1 member).resolve_left (Ne.symm met), fun z hz => ?_⟩
        cases b with
        | none => exact Option.some.inj hz ▸ older.resolve_left met
        | some w =>
          simp only [olderOf] at hz
          split at hz
          · exact Option.some.inj hz ▸ older.resolve_left met
          · exact Option.some.inj hz ▸ later w rfl

/-! ### GOV_HOLD (R409) -/

/-- The refused items of a die that have waited WAIT_US. -/
def waitedOut (d : Nat) (s : State) : List (Nat × Nat) :=
  (arbOf s d).refused.filter (fun x => Nat.ble (x.2 + s.rd d Reg.GOV_CTRL_WAIT_US * 1000) (s.rtime d))

theorem mem_waitedOut {d : Nat} {s : State} {x : Nat × Nat} :
    x ∈ waitedOut d s ↔ x ∈ (arbOf s d).refused ∧ WaitedOut s d x := by
  simp [waitedOut, WaitedOut]

theorem takeHold_of_held {d n : Nat} {s : State} (held : (arbOf s d).held = some n) : takeHold d s = s := by
  simp only [takeHold, held]

theorem takeHold_of_none_due {d : Nat} {s : State} (none : waitedOut d s = []) : takeHold d s = s := by
  unfold waitedOut at none
  simp only [takeHold, none, List.foldl_nil]
  split
  next h => cases h
  · rfl

/-- The state in which queue `n` of die `d` has taken the hold. -/
def heldBy (d n : Nat) (s : State) : State :=
  (putArb { arbOf s d with held := some n } s).count d Reg.GOV_HOLDS 1

theorem takeHold_of_due {d n w : Nat} {s : State} {h : Head} (free : (arbOf s d).held = none)
    (member : (n, w) ∈ waitedOut d s) (oldest : ∀ x ∈ waitedOut d s, x = (n, w) ∨ w < x.2)
    (read : (readHead (d * 64 + n) s).1 = .ok h) :
    ∃ sealed_ payload, takeHold d s = emit d 4 0x080 0 sealed_ payload (heldBy d n s) := by
  have found : (waitedOut d s).foldl olderOf none = some (n, w) :=
    foldl_olderOf oldest none (.inr ⟨member, fun _ h => nomatch h⟩)
  refine ⟨partSealed (heldBy d n s) (quePart (heldBy d n s) h.q), [pf 2 h.q, pf 1 (h.eclass (heldBy d n s)),
    pf 1 (queClass (heldBy d n s) h.q), pa_ 4 (h.energy (heldBy d n s)),
    pa_ 8 (ofSigned 64 (govB (heldBy d n s) d)), pa_ 4 ((s.rtime d - w) / 1000), pf 4 0], ?_⟩
  have chosen : takeHold d s = match (arbOf s d).held, (waitedOut d s).foldl olderOf none with
    | none, some (n, t) =>
      match (readHead (d * 64 + n) s).1 with
      | .ok h =>
        emit d 4 0x080 0 (partSealed (heldBy d n s) (quePart (heldBy d n s) h.q))
          [pf 2 h.q, pf 1 (h.eclass (heldBy d n s)), pf 1 (queClass (heldBy d n s) h.q),
            pa_ 4 (h.energy (heldBy d n s)), pa_ 8 (ofSigned 64 (govB (heldBy d n s) d)),
            pa_ 4 ((s.rtime d - t) / 1000), pf 4 0] (heldBy d n s)
      | _ => s
    | _, _ => s := rfl
  rw [chosen, free, found]
  simp only [read]

/-- GOV_STATE shows the hold (R409). -/
theorem rd_showHold (d : Nat) (s : State) :
    (showHold d s).rd d Reg.GOV_STATE_HOLDING = (if (arbOf s d).held.isSome then 1 else 0) ∧
      (∀ n, (arbOf s d).held = some n → (showHold d s).rd d Reg.GOV_STATE_HOLD_QUEUE = (d * 64 + n) % 2 ^ 12) ∧
      RegsBut [(d, Reg.GOV_STATE_HOLDING), (d, Reg.GOV_STATE_HOLD_QUEUE)] s (showHold d s) := by
  unfold showHold
  split
  next n held =>
    refine ⟨?_, fun m hm => ?_, .wr (.wr (.refl _ s) _ _ _ (by simp)) _ _ _ (by simp)⟩
    · rw [State.rd_wr_apart rfl, State.rd_wr_same, held]
      rfl
    · rw [State.rd_wr_same, Option.some.inj (held.symm.trans hm)]
      rfl
  next held =>
    refine ⟨?_, fun m hm => absurd (held.symm.trans hm) nofun, .wr (.wr (.refl _ s) _ _ _ (by simp)) _ _ _ (by simp)⟩
    rw [State.rd_wr_apart rfl, State.rd_wr_same, held]
    rfl

/-- Showing the hold changes registers alone. -/
theorem showHold_eq (d : Nat) (s : State) : ∃ r, showHold d s = { s with regs := r } := by
  unfold showHold
  split <;> exact ⟨_, rfl⟩

theorem arbOf_showHold (d : Nat) (s : State) (e : Nat) : arbOf (showHold d s) e = arbOf s e := by
  obtain ⟨r, eq⟩ := showHold_eq d s
  exact arbOf_of_que (by rw [eq]) e

/-- Where no item takes the hold, only what GOV_STATE shows may change. -/
theorem completes_govHold_of_same {s : State} {d : Nat} {P : State → Prop} (hd : d < dieCount s.orderCode)
    (runs : dieUp s d = true) (same : takeHold d (pruneArb d s) = pruneArb d s)
    (h : ∀ t, (∀ e, arbOf t e = arbOf (pruneArb d s) e) →
      t.rd d Reg.GOV_STATE_HOLDING = (if (arbOf (pruneArb d s) d).held.isSome then 1 else 0) →
      (∀ n, (arbOf (pruneArb d s) d).held = some n → t.rd d Reg.GOV_STATE_HOLD_QUEUE = (d * 64 + n) % 2 ^ 12) →
      t.recs = s.recs → RegsBut [(d, Reg.GOV_STATE_HOLDING), (d, Reg.GOV_STATE_HOLD_QUEUE)] s t →
      t.core = s.core → t.slc = s.slc → P t) : Completes (.govHold d) s P := by
  refine completes_of_onDie (execGovHold d s) rfl rfl hd ?_
  rw [if_pos runs, govHold, same]
  obtain ⟨holding, queue, regs⟩ := rd_showHold d (pruneArb d s)
  obtain ⟨q, pruned⟩ := pruneArb_eq d s
  obtain ⟨r, shown⟩ := showHold_eq d (pruneArb d s)
  exact h _ (arbOf_showHold d _) holding queue (by rw [shown, pruned])
    (.trans (.of_regs (.refl _ s) (by rw [pruned])) regs) (by rw [shown, pruned]) (by rw [shown, pruned])

/-- The oldest item that has waited takes the hold, with its record (R409). -/
theorem completes_govHold_of_due {s : State} {d n w : Nat} {h : Head} (hd : d < dieCount s.orderCode)
    (runs : dieUp s d = true) (free : (arbOf (pruneArb d s) d).held = none)
    (member : (n, w) ∈ waitedOut d (pruneArb d s)) (oldest : ∀ x ∈ waitedOut d (pruneArb d s), x = (n, w) ∨ w < x.2)
    (read : (readHead (d * 64 + n) (pruneArb d s)).1 = .ok h) :
    Completes (.govHold d) s (fun t =>
      (arbOf t d).held = some n ∧ (arbOf t d).refused = (arbOf (pruneArb d s) d).refused ∧
      t.rd d Reg.GOV_STATE_HOLDING = 1 ∧ t.rd d Reg.GOV_STATE_HOLD_QUEUE = (d * 64 + n) % 2 ^ 12 ∧
      t.rd d Reg.GOV_HOLDS = min (s.rd d Reg.GOV_HOLDS + 1) (2 ^ 32 - 1) ∧ HandsOver d 4 0x080 0 s t ∧
      RegsBut [(d, Reg.GOV_STATE_HOLDING), (d, Reg.GOV_STATE_HOLD_QUEUE), (d, Reg.GOV_HOLDS)] s t ∧
      t.core = s.core ∧ t.slc = s.slc) := by
  refine completes_of_onDie (execGovHold d s) rfl rfl hd ?_
  obtain ⟨sealed_, payload, taken⟩ := takeHold_of_due free member oldest read
  obtain ⟨q, pruned⟩ := pruneArb_eq d s
  have arb : arbOf (takeHold d (pruneArb d s)) d = { arbOf (pruneArb d s) d with held := some n } := by
    have put := arbOf_putArb { arbOf (pruneArb d s) d with held := some n } (pruneArb d s)
    rw [arbOf_die] at put
    exact (congrArg (arbOf · d) taken).trans put
  have counted : RegsBut [(d, Reg.GOV_HOLDS)] s (takeHold d (pruneArb d s)) := by
    rw [taken]
    exact .of_regs (.count (.of_regs (.refl _ s) (by rw [pruned]; rfl)) d Reg.GOV_HOLDS 1 (.head _)) rfl
  rw [if_pos runs, govHold]
  obtain ⟨holding, queue, regs⟩ := rd_showHold d (takeHold d (pruneArb d s))
  obtain ⟨r, shown⟩ := showHold_eq d (takeHold d (pruneArb d s))
  refine ⟨by rw [arbOf_showHold, arb], by rw [arbOf_showHold, arb], by rw [holding, arb]; rfl, queue n (by rw [arb]),
    ?_, ?_, .trans (counted.mono (by simp)) (regs.mono (by simp)), ?_, ?_⟩
  · rw [regs.rd_of_apart rfl, taken, rd_emit, heldBy, State.rd_count_same, pruned]
    rfl
  · rw [shown, taken]
    exact handsOver_emit d 4 0x080 0 sealed_ payload (by rw [pruned]; rfl)
  · rw [shown, taken, pruned]
    rfl
  · rw [shown, taken, pruned]
    rfl

/-- The refused items and the time are those of the state before the forgetting. -/
theorem mem_waitedOut_pruneArb {d : Nat} {s : State} {x : Nat × Nat} :
    x ∈ waitedOut d (pruneArb d s) ↔ x ∈ (arbOf (pruneArb d s) d).refused ∧ WaitedOut s d x := by
  obtain ⟨q, pruned⟩ := pruneArb_eq d s
  rw [mem_waitedOut]
  conv_lhs => rhs; rw [pruned]
  rfl

/-- Settles O19: the oldest refused item is the one that the fold over those due keeps (R409). -/
theorem chargesAndHold : Obligations.ChargesAndHold := by
  refine ⟨fun s h e he lo hi => ?_, fun s d n w h hd runs free member waited oldest read =>
    completes_govHold_of_due hd runs free (mem_waitedOut_pruneArb.2 ⟨member, waited⟩)
      (fun x hx => have ⟨refused, out⟩ := mem_waitedOut_pruneArb.1 hx; oldest x refused out) read,
    fun s d hd runs free none => ?_, fun s d n hd runs held => ?_⟩
  · refine ⟨fun other => ?_, fun urgent below => ?_, fun urgent above => ?_, regsBut_chargeItem s h e⟩
    · rw [govB, State.rd_of_regs (chargeItem_of_other other e)]
      exact govB_setGovB (by omega) (by omega) s
    · have floored : flooredB s (queDie h.q) e = max (govB s (queDie h.q) - e) (uFloor s (queDie h.q)) := by
        rw [flooredB, Int.min_eq_left below]
      obtain ⟨bucket, forgiven⟩ := charged_of_urgent (e := e) urgent (by omega) (by omega)
      refine ⟨bucket.trans floored, forgiven.trans ?_⟩
      rw [floored]
      congr 2
      omega
    · have floored : flooredB s (queDie h.q) e = govB s (queDie h.q) := by
        rw [flooredB, Int.min_eq_right (by omega), Int.max_eq_right (by omega)]
      obtain ⟨bucket, forgiven⟩ := charged_of_urgent (e := e) urgent (by omega) (by omega)
      refine ⟨bucket.trans floored, forgiven.trans ?_⟩
      rw [floored]
      congr 2
      omega
  · refine completes_govHold_of_same hd runs (takeHold_of_none_due (List.eq_nil_iff_forall_not_mem.2 fun x hx =>
      have ⟨refused, out⟩ := mem_waitedOut_pruneArb.1 hx; none x refused out)) ?_
    intro t arb holding _ recs regs core slc
    exact ⟨by rw [arb, free], by rw [holding, free]; rfl, recs, regs, core, slc⟩
  · refine completes_govHold_of_same hd runs (takeHold_of_held held) ?_
    intro t arb holding queue recs regs core slc
    exact ⟨by rw [arb, held], by rw [holding, held]; rfl, queue n held, recs, regs, core, slc⟩

end Sys2Proof.Machine
end

section
/-! PROOFS. The sequence engine's operations (Table SEQ-3, R343–R346, R349, R353): lifetime, steps and chains. -/

namespace Sys2Proof.Machine

/-! ### Items that complete (R342) -/

/-- The frame of a completion entry: the store, the registers and what goes out. -/
def entryFrame : Frame :=
  { noFrame with regs := True, slc := True, hbm := True, xlt := True, recs := True, out := True }

/-- A test of two numbers that fails. -/
theorem Nat.ne_of_not_beq {a b : Nat} (h : (!Nat.beq a b) = true) : a ≠ b := fun same => by
  rw [same, Nat.beq_refl] at h
  cases h

theorem writeCqe_entry (cq tag status queue kind index info : Nat) (irq : Bool) (s : State) :
    Keeps entryFrame s (writeCqe cq tag status queue kind index info irq s) :=
  writeCqe_keeps trivial trivial trivial trivial trivial trivial cq tag status queue kind index info irq (.refl _ s)

@[simp] theorem que_writeCqe (cq tag status queue kind index info : Nat) (irq : Bool) (s : State) :
    (writeCqe cq tag status queue kind index info irq s).que = s.que :=
  (writeCqe_entry cq tag status queue kind index info irq s).que id

theorem completeItem_keeps_core (q tag status kind index info : Nat) (cqe irq : Bool) (s : State) :
    Keeps { entryFrame with que := True } s (completeItem q tag status kind index info cqe irq s) :=
  completeItem_keeps trivial trivial trivial trivial trivial trivial trivial q tag status kind index info cqe irq
    (.refl _ s)

/-- The queue's counts of its items, of reserved entries, and of sectors and buckets may change. -/
def Counted (s t : State) : Prop :=
  ∃ resv out buckets sectors, t.que =
    { s.que with resv := resv, itemsOut := out, buckets := buckets, sectors := sectors }

theorem Counted.refl (s : State) : Counted s s := ⟨_, _, _, _, rfl⟩

theorem Counted.trans {s t u : State} (h : Counted s t) (k : Counted t u) : Counted s u := by
  obtain ⟨a, b, c, d, first⟩ := h
  obtain ⟨a', b', c', d', then_⟩ := k
  exact ⟨a', b', c', d', by rw [then_, first]⟩

/-- A charge changes levels of buckets, and a report the counts of sectors too. -/
theorem charge_eq (d p i kind n : Nat) (s : State) :
    ∃ buckets, charge d p i kind n s = { s with que := { s.que with buckets := buckets } } := by
  unfold charge
  split
  · exact ⟨s.que.buckets, rfl⟩
  · exact ⟨_, rfl⟩

theorem reportSectors_eq (q : Nat) (s : State) : ∃ buckets sectors,
    reportSectors q s = { s with que := { s.que with buckets := buckets, sectors := sectors } } := by
  obtain ⟨first, eq⟩ := charge_eq (queDie q) (quePart s q) (queInst s q) 2 (32 * SMap.get 0 s.que.sectors (2 * q + 0)) s
  obtain ⟨second, eq'⟩ := charge_eq (queDie q) (quePart s q) (queInst s q) 3
    (32 * SMap.get 0 s.que.sectors (2 * q + 1)) { s with que := { s.que with buckets := first } }
  refine ⟨second, SMap.set 0 (SMap.set 0 s.que.sectors (2 * q) 0) (2 * q + 1) 0, ?_⟩
  simp only [reportSectors, eq, eq']

theorem counted_reportSectors (q : Nat) (s : State) : Counted s (reportSectors q s) := by
  obtain ⟨buckets, sectors, eq⟩ := reportSectors_eq q s
  exact ⟨_, _, buckets, sectors, by rw [eq]⟩

theorem counted_completeItem (q tag status kind index info : Nat) (cqe irq : Bool) (s : State) :
    Counted s (completeItem q tag status kind index info cqe irq s) := by
  have reported : Counted s (reportSectors q { s with que := { s.que with itemsOut := lower s.que.itemsOut q } }) :=
    .trans ⟨_, _, _, _, rfl⟩ (counted_reportSectors q _)
  cases cqe with
  | false => exact reported
  | true =>
    obtain ⟨resv, out, buckets, sectors, eq⟩ := reported
    refine ⟨lower resv (cqOf (reportSectors q { s with que := { s.que with itemsOut := lower s.que.itemsOut q } }) q),
      out, buckets, sectors, ?_⟩
    simp only [completeItem, if_true, que_writeCqe]
    rw [eq]

/-- Without CQE an item's completion writes no entry: the caches and the registers stay. -/
theorem completeItem_without_cqe (q tag status kind index info : Nat) (irq : Bool) (s : State) :
    (completeItem q tag status kind index info false irq s).slc = s.slc ∧
      (completeItem q tag status kind index info false irq s).regs = s.regs :=
  have kept := reportSectors_keeps (F := { noFrame with que := True }) trivial q
    (.refl _ { s with que := { s.que with itemsOut := lower s.que.itemsOut q } })
  ⟨kept.slc id, kept.regs id⟩

section
variable (op : Nat) (it : SeqItem) (status info : Nat) (s : State)

theorem seqFinish_core : (seqFinish op it status info s).core = s.core :=
  (completeItem_keeps_core it.queue _ status 2 _ info it.cqe it.irq _).core id

theorem counted_seqFinish :
    Counted { s with que := { s.que with items := s.que.items.erase (op, it) } } (seqFinish op it status info s) :=
  counted_completeItem it.queue _ status 2 _ info it.cqe it.irq _

@[simp] theorem seqFinish_seqs : (seqFinish op it status info s).que.seqs = s.que.seqs := by
  obtain ⟨_, _, _, _, eq⟩ := counted_seqFinish op it status info s
  rw [eq]

@[simp] theorem seqFinish_items : (seqFinish op it status info s).que.items = s.que.items.erase (op, it) := by
  obtain ⟨_, _, _, _, eq⟩ := counted_seqFinish op it status info s
  rw [eq]

@[simp] theorem seqFinish_seqCopies : (seqFinish op it status info s).que.seqCopies = s.que.seqCopies := by
  obtain ⟨_, _, _, _, eq⟩ := counted_seqFinish op it status info s
  rw [eq]

@[simp] theorem seqFinish_btCopies : (seqFinish op it status info s).que.btCopies = s.que.btCopies := by
  obtain ⟨_, _, _, _, eq⟩ := counted_seqFinish op it status info s
  rw [eq]

@[simp] theorem findSeq_seqFinish (id : Nat) : findSeq (seqFinish op it status info s) id = findSeq s id := by
  rw [findSeq, seqFinish_seqs, findSeq]

end

/-! ### The engine takes an item (R343) -/

/-- The engine of die `d` performs `f` for an item that it takes. -/
theorem completes_of_engine {c : Instr} {op d : Nat} {it : SeqItem} {f : State → State} {s : State}
    {P : State → Prop} (x : Host.Outcome State Fault Refusal) (arm : exec c s = x) (effect : x = seqctl op d it f s)
    (hd : queDie it.queue < dieCount s.orderCode) (waits : s.que.items.contains (op, it) = true)
    (up : engineUp s d = true) (plain : it.reservedSet = false) (h : P (f s)) : Completes c s P := by
  refine completes_of_onDie x arm effect hd ?_
  rw [waits, up, plain]
  exact h

theorem completes_of_seqctl {c : Instr} {op : Nat} {it : SeqItem} {f : State → State} {s : State} {P : State → Prop}
    (takes : EngineTakes s op it) (x : Host.Outcome State Fault Refusal) (arm : exec c s = x)
    (effect : x = seqctl op (seqDie it.seq) it f s) (h : P (f s)) : Completes c s P :=
  have ⟨hd, waits, up, plain⟩ := takes
  completes_of_engine x arm effect hd waits up plain h

theorem withSlot_of_own {op : Nat} {it : SeqItem} {f : SeqSlot → State → State} {s : State} {x : SeqSlot}
    (own : OwnSlot s it x) : withSlot op it f s = f x s := by
  obtain ⟨found, inside, part, inst⟩ := own
  simp only [withSlot, found, inside, part, inst, ne_eq, not_true_eq_false, decide_false, Bool.or_self, Bool.not_true,
    Bool.false_eq_true, if_false]

/-! ### Slots found and changed -/

theorem findSeq_id {s : State} {id : Nat} {x : SeqSlot} (found : findSeq s id = some x) : x.id = id :=
  Nat.eq_of_beq_eq_true (List.find?_some (p := fun x : SeqSlot => Nat.beq x.id id) found)

/-- A list's search after a change that keeps every slot's ID. -/
theorem find?_map_id {f : SeqSlot → SeqSlot} (same : ∀ x, (f x).id = x.id) (id : Nat) (l : List SeqSlot) :
    (l.map f).find? (fun x => Nat.beq x.id id) = (l.find? (fun x => Nat.beq x.id id)).map f := by
  rw [List.find?_map]
  simp only [Function.comp_def, same]

theorem findSeq_updSeq {f : SeqSlot → SeqSlot} {id : Nat} (same : ∀ x, x.id = id → (f x).id = id) (s : State)
    (id' : Nat) :
    findSeq (updSeq id f s) id' = if id' = id then (findSeq s id').map f else findSeq s id' := by
  have kept (x : SeqSlot) : (if Nat.beq x.id id then f x else x).id = x.id := by
    split
    next hit => rw [same x (Nat.eq_of_beq_eq_true hit), Nat.eq_of_beq_eq_true hit]
    · rfl
  have moved : findSeq (updSeq id f s) id' = (findSeq s id').map fun x => if Nat.beq x.id id then f x else x :=
    find?_map_id kept id' s.que.seqs
  rw [moved]
  cases found : findSeq s id' with
  | none => simp
  | some x =>
    have named := findSeq_id found
    by_cases here : id' = id <;> simp [named, here]

/-- A slot that the search finds, changed. -/
theorem findSeq_updSeq_same {f : SeqSlot → SeqSlot} {id : Nat} {x : SeqSlot} {s : State}
    (same : ∀ x, x.id = id → (f x).id = id) (found : findSeq s id = some x) :
    findSeq (updSeq id f s) id = some (f x) := by
  rw [findSeq_updSeq same, if_pos rfl, found]
  rfl

theorem findSeq_updSeq_ne {f : SeqSlot → SeqSlot} {id id' : Nat} {s : State} (same : ∀ x, x.id = id → (f x).id = id)
    (ne : id' ≠ id) : findSeq (updSeq id f s) id' = findSeq s id' := by
  rw [findSeq_updSeq same, if_neg ne]

theorem findSeq_dropBlocks (id b n : Nat) (s : State) (id' : Nat) :
    findSeq (dropBlocks id b n s) id' = findSeq s id' := rfl

theorem findSeq_dropSeqCopies (id : Nat) (s : State) (id' : Nat) :
    findSeq (dropSeqCopies id s) id' = findSeq s id' := rfl

/-- An address of a block table that SEQCTL takes (R353). -/
theorem dir_allowed {a : Nat} (aligned : a % 0x8000 = 0) (small : a < 2 ^ 48) :
    (decide (a % 0x8000 ≠ 0) || decide (2 ^ 48 ≤ a)) = false := by
  simp only [aligned, ne_eq, not_true_eq_false, decide_false, Bool.false_or, decide_eq_false_iff_not]
  omega

/-! ### CREATE, DESTROY, TRUNCATE, SET (Table SEQ-3, R353) -/

theorem completes_seqctlCreate {s : State} {it : SeqItem} (takes : EngineTakes s 1 it)
    (inside : dieIn s (quePart s it.queue) (seqDie it.seq) = true) (free : findSeq s it.seq = none)
    (short : it.arg0.toNat ≤ 16777216) (aligned : it.addr.toNat % 0x8000 = 0) (small : it.addr.toNat < 2 ^ 48) :
    Completes (.seqctlCreate it) s (fun t =>
      (∃ x, t.que.seqs = s.que.seqs ++ [x] ∧ x.id = it.seq ∧ x.inst = queInst s it.queue ∧
        x.part = quePart s it.queue ∧ x.len = it.arg0.toNat ∧ x.append = it.arg1.toNat / 256 + 1 ∧
        x.blk = it.arg1.toNat % 4 ∧ x.dir = it.addr ∧ x.step = it.step ∧ x.recs = [] ∧ x.chain = none ∧
        x.tainted = false) ∧
      t.que.items = s.que.items.erase (1, it) ∧ t.core = s.core) := by
  refine completes_of_seqctl takes (execSeqctlCreate it s) rfl rfl ?_
  have within : decide (maxTokens < it.arg0.toNat) = false := decide_eq_false (by unfold maxTokens; omega)
  simp only [seqCreate, inside, free, Option.isSome_none, Bool.not_true, Bool.false_eq_true, if_false, within,
    Bool.or_assoc, dir_allowed aligned small, Bool.or_self]
  exact ⟨⟨_, seqFinish_seqs .., rfl, rfl, rfl, rfl, rfl, rfl, rfl, rfl, rfl, rfl, rfl⟩, seqFinish_items ..,
    seqFinish_core ..⟩

/-- Leaving a chain keeps every slot's ID in its place. -/
theorem unlinkSeq_eq_map (x : SeqSlot) (l : List SeqSlot) :
    ∃ f : SeqSlot → SeqSlot, (∀ y, (f y).id = y.id) ∧
      (∀ y, y.id = x.id → x.chain.isSome → f y = { y with chain := none }) ∧
      unlinkSeq x l = l.map f := by
  unfold unlinkSeq
  cases chain : x.chain with
  | none => exact ⟨id, fun _ => rfl, fun _ _ h => absurd h (by simp), (List.map_id l).symm⟩
  | some h =>
    refine ⟨_, fun y => ?_, fun y same _ => if_pos same, rfl⟩
    split
    · rfl
    · split <;> rfl

theorem completes_seqctlDestroy {s : State} {it : SeqItem} {x : SeqSlot} (takes : EngineTakes s 2 it)
    (own : OwnSlot s it x) (closed : x.recs = []) (unheld : heldOn s it.seq = false)
    (still : shifting s it.seq = false) :
    Completes (.seqctlDestroy it) s (fun t =>
      findSeq t it.seq = none ∧ (∀ c ∈ t.que.seqCopies, c.seq ≠ it.seq) ∧ (∀ c ∈ t.que.btCopies, c.seq ≠ it.seq) ∧
      (∀ id, id ≠ it.seq → (findSeq t id).isSome = (findSeq s id).isSome) ∧ t.core = s.core) := by
  refine completes_of_seqctl takes (execSeqctlDestroy it s) rfl rfl ?_
  obtain ⟨f, same, -, mapped⟩ := unlinkSeq_eq_map x s.que.seqs
  rw [seqDestroy, withSlot_of_own own]
  simp only [findSeq_id own.1, closed, unheld, still, List.isEmpty_nil, Bool.not_true, Bool.or_self, Bool.false_eq_true,
    if_false]
  have search (u : List SeqSlot) (id : Nat) (ne : id ≠ it.seq) :
      (u.filter fun y => !Nat.beq y.id it.seq).find? (fun y => Nat.beq y.id id) = u.find? fun y => Nat.beq y.id id := by
    rw [List.find?_filter]
    congr 1
    funext y
    cases hit : Nat.beq y.id id
    · simp
    · simp [Nat.beq_comm_false (Nat.eq_of_beq_eq_true hit ▸ ne)]
  refine ⟨?_, fun c hc => ?_, fun c hc => ?_, fun id ne => ?_, seqFinish_core ..⟩
  · rw [findSeq_seqFinish, findSeq_dropBlocks, findSeq_dropSeqCopies]
    exact List.find?_eq_none.2 fun y hy => by simpa using Nat.ne_of_not_beq (List.mem_filter.1 hy).2
  · rw [seqFinish_seqCopies] at hc
    exact Nat.ne_of_not_beq (List.mem_filter.1 hc).2
  · rw [seqFinish_btCopies] at hc
    exact Nat.ne_of_not_beq (by simpa using (List.mem_filter.1 hc).2)
  · rw [findSeq_seqFinish, findSeq_dropBlocks, findSeq_dropSeqCopies, findSeq, mapped]
    rw [search _ id ne, find?_map_id same, Option.isSome_map, findSeq]

theorem completes_truncate {s : State} {it : SeqItem} {x : SeqSlot} (takes : EngineTakes s 5 it)
    (own : OwnSlot s it x) (closed : x.recs = []) (still : shifting s it.seq = false) (short : it.arg0.toNat ≤ x.len) :
    Completes (.truncate it) s (fun t =>
      findSeq t it.seq = some { x with len := it.arg0.toNat, tainted := false } ∧
      (∀ id, id ≠ it.seq → findSeq t id = findSeq s id) ∧ t.core = s.core) := by
  refine completes_of_seqctl takes (execTruncate it s) rfl rfl ?_
  have cut : seqTruncate it s = seqFinish 5 it 0 it.arg0.toNat (dropSeqCopies it.seq
      (updSeq it.seq (fun y => { y with len := it.arg0.toNat, tainted := false }) s)) := by
    rw [seqTruncate, withSlot_of_own own]
    simp only [findSeq_id own.1, closed, still, List.isEmpty_nil, Bool.not_true, Bool.or_self, Bool.false_eq_true,
      if_false, if_neg (Nat.not_lt.2 short)]
  rw [cut]
  exact ⟨(findSeq_seqFinish ..).trans (findSeq_updSeq_same
      (f := fun y => { y with len := it.arg0.toNat, tainted := false }) (fun _ h => h) own.1),
    fun id ne => (findSeq_seqFinish ..).trans (findSeq_updSeq_ne (fun _ h => h) ne), seqFinish_core ..⟩

/-- What SEQCTL_SET makes of its sequence, and of the cached block table where ADDR is not 0. -/
def setBy (it : SeqItem) (y : SeqSlot) : SeqSlot :=
  { y with append := it.arg1.toNat / 256 + 1, dir := if it.addr = 0 then y.dir else it.addr }
def dropTable (it : SeqItem) (s : State) : State := if it.addr = 0 then s else dropBlocks it.seq 0 0 s

theorem completes_seqctlSet {s : State} {it : SeqItem} {x : SeqSlot} (takes : EngineTakes s 6 it)
    (own : OwnSlot s it x) (closed : x.recs = []) (still : shifting s it.seq = false)
    (aligned : it.addr.toNat % 0x8000 = 0) (small : it.addr.toNat < 2 ^ 48) :
    Completes (.seqctlSet it) s (fun t =>
      findSeq t it.seq = some { x with
        append := it.arg1.toNat / 256 + 1, dir := if it.addr = 0 then x.dir else it.addr } ∧
      (∀ id, id ≠ it.seq → findSeq t id = findSeq s id) ∧ t.core = s.core) := by
  refine completes_of_seqctl takes (execSeqctlSet it s) rfl rfl ?_
  have set : seqSet it s = seqFinish 6 it 0 0 (dropTable it (dropSeqCopies it.seq (updSeq it.seq (setBy it) s))) := by
    rw [seqSet, withSlot_of_own own]
    simp only [findSeq_id own.1, closed, still, List.isEmpty_nil, Bool.not_true, Bool.or_self, Bool.false_eq_true,
      if_false, dir_allowed aligned small]
    rfl
  have dropped (u : State) : (dropTable it u).que.seqs = u.que.seqs ∧ (dropTable it u).core = u.core := by
    unfold dropTable
    split <;> exact ⟨rfl, rfl⟩
  have search (id : Nat) : findSeq (seqSet it s) id = findSeq (updSeq it.seq (setBy it) s) id := by
    rw [set, findSeq_seqFinish, findSeq, (dropped _).1]
    rfl
  refine ⟨(search _).trans (findSeq_updSeq_same (fun _ h => h) own.1), fun id ne =>
    (search _).trans (findSeq_updSeq_ne (fun _ h => h) ne), ?_⟩
  rw [set]
  exact (seqFinish_core ..).trans (dropped _).2

/-- Settles O20, one operation of Table SEQ-3 after the other. -/
theorem sequenceLifetime : Obligations.SequenceLifetime :=
  ⟨fun _ _ takes inside free short aligned small => completes_seqctlCreate takes inside free short aligned small,
    fun _ _ _ takes own closed unheld still => completes_seqctlDestroy takes own closed unheld still,
    fun _ _ _ takes own closed still short => completes_truncate takes own closed still short,
    fun _ _ _ takes own closed still aligned small => completes_seqctlSet takes own closed still aligned small⟩

/-! ### Steps (R345, R346) -/

/-- The step after the newest opens where a record is free and END stays within the bound (R345). -/
theorem stepCase_opens {depth tokens : Nat} {x : SeqSlot} {n : BitVec 32} (next : n = x.step + 1)
    (room : x.recs.length < depth) (fits : newestEnd x + tokens ≤ 16777216) : stepCase depth x n tokens = .opens := by
  have later : (n == x.step) = false := by
    rw [next, beq_eq_false_iff_ne]
    simp
  rw [stepCase, later, Bool.and_false, Bool.false_and, if_neg Bool.false_ne_true, if_pos (by simp [next]), if_pos room,
    if_pos (by unfold maxTokens; exact fits)]

theorem completes_stepOpen {s : State} {it : SeqItem} {x : SeqSlot} (takes : EngineTakes s 3 it)
    (own : OwnSlot s it x) (next : it.step = x.step + 1) (room : x.recs.length < stepDepth s x.part)
    (fits : newestEnd x + openTokens it x ≤ 16777216) :
    Completes (.stepOpen it) s (fun t =>
      (∃ y r, findSeq t it.seq = some y ∧ y.step = it.step ∧ y.recs = closeNewest x.recs ++ [r] ∧ r.step = it.step ∧
        r.base = newestEnd x ∧ r.end_ = newestEnd x + openTokens it x ∧ r.lcnt = 0 ∧ r.closed = false ∧ y.len = x.len) ∧
      t.que.items = s.que.items.erase (3, it) ∧ t.core = s.core) := by
  refine completes_of_seqctl takes (execStepOpen it s) rfl rfl ?_
  rw [stepOpen, withSlot_of_own own]
  simp only [stepCase_opens next room fits, findSeq_seqFinish, findSeq_id own.1]
  exact ⟨⟨_, _, findSeq_updSeq_same (f := fun _ => openStep it.step (openTokens it x) 0 x)
    (fun _ _ => show x.id = _ from findSeq_id own.1) own.1, rfl, rfl, rfl, rfl, rfl, rfl, rfl, rfl⟩,
    seqFinish_items .., seqFinish_core ..⟩

/-- The newest step of the item's sequence closed, with the item waiting for its retirement. -/
def closedBy (it : SeqItem) (s : State) : State :=
  let s := updSeq it.seq (fun y => { y with recs := closeNewest y.recs }) s
  { s with que := { s.que with items := s.que.items.erase (4, it), closing := s.que.closing ++ [it] } }

theorem completes_stepClose {s : State} {it : SeqItem} {x : SeqSlot} {r : StepRec} (takes : EngineTakes s 4 it)
    (own : OwnSlot s it x) (newest : x.recs.getLast? = some r) (named : r.step = it.step) (opened : r.closed = false) :
    Completes (.stepClose it) s (fun t =>
      findSeq t it.seq = some { x with recs := x.recs.dropLast ++ [{ r with closed := true }] } ∧
      t.que.items = s.que.items.erase (4, it) ∧ t.que.closing = s.que.closing ++ [it] ∧
      t.que.itemsOut = s.que.itemsOut ∧ t.regs = s.regs) := by
  refine completes_of_seqctl takes (execStepClose it s) rfl rfl ?_
  have closes : closeNewest x.recs = x.recs.dropLast ++ [{ r with closed := true }] := by rw [closeNewest, newest]
  have closed : stepClose it s = closedBy it s := by
    rw [stepClose, withSlot_of_own own]
    simp only [newestRec, newest, named, opened, decide_true, Bool.not_false, Bool.and_self, if_true, findSeq_id own.1]
    rfl
  rw [closed, ← closes]
  exact ⟨findSeq_updSeq_same (f := fun y => { y with recs := closeNewest y.recs }) (fun _ h => h) own.1, rfl, rfl, rfl,
    rfl⟩

theorem completes_stepRetire {s : State} {id : Nat} {x : SeqSlot} {r : StepRec} {l : List StepRec}
    (hd : seqDie id < dieCount s.orderCode) (up : engineUp s (seqDie id) = true) (found : findSeq s id = some x)
    (oldest : x.recs = r :: l) (closed : r.closed = true) (detached : r.lcnt = 0) (written : r.owc = 0)
    (noneWaits : s.que.closing = []) :
    Completes (.stepRetire id) s (fun t =>
      findSeq t id = some { x with len := r.end_, recs := l, retired := s.rtime (seqDie id) } ∧
      t.rd (seqDie id) Reg.SEQ_STEPS_RETIRED = min (s.rd (seqDie id) Reg.SEQ_STEPS_RETIRED + 1) (2 ^ 48 - 1) ∧
      RegsBut [(seqDie id, Reg.SEQ_STEPS_RETIRED)] s t) := by
  refine completes_of_onDie (execStepRetire id s) rfl rfl hd ?_
  have retires : (findSeq s id).bind canRetire = some r := by
    simp [found, canRetire, oldest, closed, detached, written]
  have last : l = x.recs.drop 1 := by rw [oldest]; rfl
  rw [stepRetire, up, if_neg (by simp), retires]
  dsimp only
  rw [finishClosing]
  simp only [releaseKv, State.count_que, updSeq, noneWaits, List.filter_nil]
  refine ⟨?_, State.rd_count_same .., .of_regs (.count (.refl _ s) _ _ _ (.head _)) rfl⟩
  rw [last]
  exact findSeq_updSeq_same (f := fun x => { x with
    len := r.end_, recs := x.recs.drop 1, retired := s.rtime (seqDie id) }) (fun _ h => h) found

/-- Settles O21. -/
theorem stepsOpenCloseRetire : Obligations.StepsOpenCloseRetire :=
  ⟨fun _ _ _ takes own next room fits => completes_stepOpen takes own next room fits,
    fun _ _ _ _ takes own newest named opened => completes_stepClose takes own newest named opened,
    fun _ _ _ _ _ hd up found oldest closed detached written noneWaits =>
      completes_stepRetire hd up found oldest closed detached written noneWaits⟩

/-! ### Chains and caches (R344, R349, R191) -/

/-- In a list that holds the head, the linked slot stands after it, once. -/
theorem find?_linkAfter_same {h : Nat} {x y : SeqSlot} (ne : h ≠ x.id) {l : List SeqSlot}
    (found : l.find? (fun z => Nat.beq z.id h) = some y) :
    (linkAfter h x l).find? (fun z => Nat.beq z.id x.id) = some { x with chain := some h } ∧
      (linkAfter h x l).find? (fun z => Nat.beq z.id h) = some { y with chain := some h } := by
  induction l with
  | nil => cases found
  | cons z l ih =>
    rw [linkAfter]
    by_cases own : z.id = x.id
    · rw [if_pos own]
      refine ih ?_
      rwa [List.find?_cons_of_neg (by simp [own, ne.symm])] at found
    rw [if_neg own]
    by_cases head : z.id = h
    · rw [if_pos head]
      rw [List.find?_cons_of_pos (by simp [head])] at found
      cases found
      exact ⟨by rw [List.find?_cons_of_neg (by simp [own]), List.find?_cons_of_pos (by simp)],
        List.find?_cons_of_pos (by simp [head])⟩
    · rw [if_neg head]
      rw [List.find?_cons_of_neg (by simp [head])] at found
      rw [List.find?_cons_of_neg (by simp [own]), List.find?_cons_of_neg (by simp [head])]
      exact ih found

theorem find?_linkAfter_ne {h id : Nat} {x : SeqSlot} (own : id ≠ x.id) (head : id ≠ h) (l : List SeqSlot) :
    (linkAfter h x l).find? (fun z => Nat.beq z.id id) = l.find? (fun z => Nat.beq z.id id) := by
  induction l with
  | nil => rfl
  | cons z l ih =>
    rw [linkAfter]
    split
    next same => rw [ih, List.find?_cons_of_neg (by simp [same, own.symm])]
    split
    next same =>
      rw [List.find?_cons_of_neg (by simp [same, head.symm]), List.find?_cons_of_neg (by simp [own.symm]), ih,
        List.find?_cons_of_neg (by simp [same, head.symm])]
    · rw [List.find?_cons, List.find?_cons, ih]

theorem completes_seqctlLink {s : State} {it : SeqItem} {x y : SeqSlot} (takes : EngineTakes s 8 it)
    (own : OwnSlot s it x) (head : findSeq s (seqDie it.seq * 256 + it.arg0.toNat % 256) = some y)
    (other : y.id ≠ it.seq) (part : y.part = x.part) (inst : y.inst = x.inst) (loose : x.chain = none)
    (heads : y.chain = none ∨ y.chain = some y.id) :
    Completes (.seqctlLink it) s (fun t =>
      findSeq t it.seq = some { x with chain := some y.id } ∧ findSeq t y.id = some { y with chain := some y.id } ∧
      (∀ id, id ≠ it.seq → id ≠ y.id → findSeq t id = findSeq s id) ∧ t.core = s.core) := by
  refine completes_of_seqctl takes (execSeqctlLink it s) rfl rfl ?_
  have xid := findSeq_id own.1
  have yid := findSeq_id head
  have may : (Nat.beq y.part x.part && Nat.beq y.inst x.inst && x.chain.isNone && !(Nat.beq y.id it.seq) &&
      (y.chain.isNone || y.chain == some y.id)) = true := by
    rw [part, inst, loose, Nat.beq_refl, Nat.beq_refl, Nat.beq_comm_false other]
    obtain none | self := heads
    · simp [none]
    · simp [self]
  have linked : seqLink it s = seqFinish 8 it 0 0
      { s with que := { s.que with seqs := linkAfter y.id x s.que.seqs } } := by
    rw [seqLink, withSlot_of_own own]
    have head' : findSeq s y.id = some y := yid ▸ head
    simp only [xid, ← yid]
    rw [head']
    simp only [may, if_true]
  rw [linked]
  simp only [findSeq_seqFinish]
  obtain ⟨second, first⟩ := find?_linkAfter_same (x := x) (xid ▸ other) (yid ▸ head)
  exact ⟨xid ▸ second, first, fun id own head => find?_linkAfter_ne (xid ▸ own) head s.que.seqs, seqFinish_core ..⟩

theorem completes_seqctlUnlink {s : State} {it : SeqItem} {x : SeqSlot} (takes : EngineTakes s 9 it)
    (own : OwnSlot s it x) (chained : x.chain.isSome = true) :
    Completes (.seqctlUnlink it) s (fun t =>
      findSeq t it.seq = some { x with chain := none } ∧ t.que.items = s.que.items.erase (9, it) ∧
      t.core = s.core) := by
  refine completes_of_seqctl takes (execSeqctlUnlink it s) rfl rfl ?_
  obtain ⟨f, same, loose, mapped⟩ := unlinkSeq_eq_map x s.que.seqs
  rw [seqUnlink, withSlot_of_own own, if_neg (by simp [Option.isSome_iff_ne_none.1 chained]), findSeq_seqFinish]
  refine ⟨?_, seqFinish_items .., seqFinish_core ..⟩
  rw [findSeq, mapped, find?_map_id same, ← findSeq, own.1, Option.map_some, loose x rfl chained]

theorem completes_btinval {s : State} {it : SeqItem} {x : SeqSlot} (takes : EngineTakes s 7 it)
    (own : OwnSlot s it x) :
    Completes (.btinval it) s (fun t =>
      (∀ c ∈ t.que.btCopies, c.seq = it.seq → it.arg1.toNat ≠ 0 ∧
        (c.block < it.arg0.toNat ∨ it.arg0.toNat + it.arg1.toNat ≤ c.block)) ∧
      (∀ c ∈ s.que.btCopies, c.seq ≠ it.seq → c ∈ t.que.btCopies) ∧ t.que.seqs = s.que.seqs) := by
  refine completes_of_seqctl takes (execBtinval it s) rfl rfl ?_
  rw [seqBtinval, withSlot_of_own own]
  simp only [seqFinish_btCopies, findSeq_id own.1]
  refine ⟨fun c hc mine => ?_, fun c hc other => ?_, seqFinish_seqs ..⟩
  · have kept := (List.mem_filter.1 hc).2
    rw [mine, Nat.beq_refl, Bool.true_and, Bool.not_eq_true', ← Bool.not_eq_true] at kept
    simp only [Bool.or_eq_true, Nat.beq_eq, Bool.and_eq_true, Nat.ble_eq, Nat.blt_eq] at kept
    omega
  · exact List.mem_filter.2 ⟨hc, by rw [Nat.beq_comm_false other]; rfl⟩

theorem completes_arm {s : State} {it : SeqItem} (hd : queDie it.queue < dieCount s.orderCode)
    (waits : s.que.items.contains (11, it) = true) (up : engineUp s (queDie it.queue) = true)
    (plain : it.reservedSet = false) :
    Completes (.arm it) s (fun t =>
      (∀ k, k ∈ t.core.killed ↔ k ∈ s.core.killed ∧ k ≠ (quePart s it.queue, queInst s it.queue, it.ctx)) ∧
      t.que.seqs = s.que.seqs) := by
  refine completes_of_engine (execArm it s) rfl rfl hd waits up plain ⟨fun k => ?_, seqFinish_seqs ..⟩
  rw [seqArm, seqFinish_core]
  simp only [List.mem_filter, bne_iff_ne]

/-- Settles O22. -/
theorem sequenceChains : Obligations.SequenceChains :=
  ⟨fun _ _ _ _ takes own head other part inst loose heads =>
      completes_seqctlLink takes own head other part inst loose heads,
    fun _ _ _ takes own chained => completes_seqctlUnlink takes own chained,
    fun _ _ _ takes own => completes_btinval takes own,
    fun _ _ hd waits up plain => completes_arm hd waits up plain⟩

end Sys2Proof.Machine
end

section
/-! PROOFS. A partition's fault (R531), and the sequence engine's queries, entries and failure (R342, R343, R364). -/

namespace Sys2Proof.Machine

/-! ### Sets of numbers -/

theorem contains_addNat (l : List Nat) (n m : Nat) : (addNat l n).contains m = (l.contains m || m == n) := by
  unfold addNat
  split
  next inside =>
    by_cases same : m = n
    · subst same
      simp only [inside, beq_self_eq_true, Bool.or_self]
    · rw [beq_eq_false_iff_ne.2 same, Bool.or_false]
  · simp [Bool.beq_eq_decide_eq]

/-! ### The partition fault (R531) -/

/-- What a partition fault may change. -/
def faultFrame : Frame :=
  { entryFrame with core := True, que := True, prt := True, host := True }

theorem partFault_keeps_rest (p cause d ctype cseq : Nat) (s : State) :
    Keeps faultFrame s (partFault p cause d ctype cseq s) :=
  partFault_keeps trivial trivial trivial trivial trivial trivial trivial trivial trivial trivial p cause d ctype cseq
    (.refl _ s)

theorem imgParts_of_img {s t : State} (h : t.img = s.img) : imgParts t = imgParts s := by rw [imgParts, imgParts, h]

/-- The partition has a half, or the live image names it. -/
def Known (s : State) (p : Nat) : Prop := (partHalves s p).isEmpty = false ∨ (imgParts s).contains p = true

theorem each_prt {α : Type} {f : State → α → State} (same : ∀ s x, (f s x).prt = s.prt) (l : List α) (s : State) :
    (each l f s).prt = s.prt :=
  each_induction (P := fun t => t.prt = s.prt) (fun t x _ h => (same t x).trans h) rfl

/-- The partition is FAULTED, if it was not. -/
theorem faulted_partFault {s : State} {p : Nat} (known : Known s p) (cause d ctype cseq : Nat) :
    (partFault p cause d ctype cseq s).prt.faulted = addNat s.prt.faulted p := by
  have not : ((partHalves s p).isEmpty && !(imgParts s).contains p) = false := by
    obtain half | named := known
    · rw [half]
      rfl
    · rw [named, Bool.not_true, Bool.and_false]
  unfold partFault
  rw [not, Bool.or_false]
  split
  next already => rw [addNat, if_pos already]
  · have set (u : State) : (stopPartition p u).prt = u.prt :=
      (stopPartition_keeps (F := { faultFrame with prt := False }) trivial trivial trivial trivial trivial trivial
        trivial trivial trivial p (.refl _ u)).prt id
    have entries (info : Nat) (u : State) : (faultEntries p info u).prt = u.prt :=
      (faultEntries_keeps (F := entryFrame) trivial trivial trivial trivial trivial trivial p info (.refl _ u)).prt id
    rw [entries]
    show (stopPartition p (setFaulted p s)).prt.faulted = _
    rw [set]
    exact congrArg (fun x : Parts => addNat x.faulted p) (each_prt (fun _ _ => by split <;> rfl) _ _)

/-- A partition fault releases no partition. -/
theorem faulted_partFault_mono {s : State} {q : Nat} (h : s.prt.faulted.contains q = true)
    (p cause d ctype cseq : Nat) :
    (partFault p cause d ctype cseq s).prt.faulted.contains q = true := by
  by_cases known : Known s p
  · rw [faulted_partFault known, contains_addNat, h, Bool.true_or]
  · have same : partFault p cause d ctype cseq s = s := by
      simp only [Known, not_or, Bool.not_eq_false, Bool.not_eq_true] at known
      rw [partFault, known.1, known.2]
      simp
    rw [same]
    exact h

/-- Every partition of a list that is known to the image faults. -/
theorem faulted_each_partFault {s : State} {ps : List Nat} {p : Nat} (member : p ∈ ps)
    (named : (imgParts s).contains p = true) (cause d ctype cseq : Nat) :
    (each ps (fun s p => partFault p cause d ctype cseq s) s).prt.faulted.contains p = true := by
  induction ps generalizing s with
  | nil => cases member
  | cons q ps ih =>
    have kept : (imgParts (partFault q cause d ctype cseq s)).contains p = true :=
      (imgParts_of_img ((partFault_keeps_rest q cause d ctype cseq s).img id)).symm ▸ named
    by_cases later : p ∈ ps
    · exact ih later kept
    · obtain rfl : p = q := (List.mem_cons.1 member).resolve_right later
      have now : (partFault p cause d ctype cseq s).prt.faulted.contains p = true := by
        rw [faulted_partFault (.inr named)]
        exact contains_addNat_same ..
      exact each_induction (l := ps) (f := fun s p => partFault p cause d ctype cseq s)
        (P := fun t => t.prt.faulted.contains p = true)
        (fun t q _ h => faulted_partFault_mono h q cause d ctype cseq) now

/-! ### Engines that have failed stay failed -/

/-- The dies whose sequence engine has failed are those of `s`. -/
def EnginesAs (s t : State) : Prop := t.que.seqFailed = s.que.seqFailed

theorem Counted.engines {s t : State} (h : Counted s t) : EnginesAs s t := by
  obtain ⟨_, _, _, _, eq⟩ := h
  rw [EnginesAs, eq]

theorem enginesAs_each {α : Type} {f : State → α → State} (same : ∀ s x, EnginesAs s (f s x)) (l : List α) (s : State) :
    EnginesAs s (each l f s) :=
  each_induction (P := EnginesAs s) (fun t x _ h => Eq.trans (same t x) h) rfl

theorem enginesAs_detachIds (ids : List Nat) (n : BitVec 32) (taint : Bool) (s : State) :
    EnginesAs s (detachIds ids n taint s) :=
  enginesAs_each (f := fun s id => updSeq id (fun x => { detachStep n x with tainted := x.tainted || taint }) s)
    (fun _ _ => rfl) ids s

theorem enginesAs_closeKills (f : OpenKill → Bool) (s : State) : EnginesAs s (closeKills f s) := by
  refine enginesAs_each (fun s k => ?_) _ s
  refine Eq.trans (b := (each k.ending (fun s l => endLaunch l s) { s with core := { s.core with
    kills := s.core.kills.filter (fun x => !isKill k.part k.inst k.ctx x) } }).que.seqFailed) rfl ?_
  exact enginesAs_each (fun s l => (counted_completeItem ..).engines.trans (enginesAs_detachIds ..)) _ _

theorem enginesAs_stopPartition (p : Nat) (s : State) : EnginesAs s (stopPartition p s) := by
  have dropped (on : Nat → Bool) (pt : Troupe → Bool) (pl : Launch → Bool) (u : State) :
      EnginesAs u (dropTroupes on pt pl u) :=
    enginesAs_each (f := fun s c => invalL1 (c / 320) (c % 320) s) (fun _ _ => rfl) _ u
  exact (dropped (fun _ => true) (fun t => Nat.beq t.part p) (fun l => Nat.beq l.part p)
    (closeKills (fun k => Nat.beq k.part p) s)).trans (enginesAs_closeKills (fun k => Nat.beq k.part p) s)

theorem enginesAs_partFault (p cause d ctype cseq : Nat) (s : State) :
    EnginesAs s (partFault p cause d ctype cseq s) := by
  unfold partFault
  split
  · exact rfl
  · have entries (info : Nat) (u : State) : (faultEntries p info u).que = u.que :=
      (faultEntries_keeps (F := entryFrame) trivial trivial trivial trivial trivial trivial p info (.refl _ u)).que id
    have set : (setFaulted p s).que = s.que :=
      (setFaulted_keeps (F := { noFrame with regs := True, prt := True }) trivial trivial p (.refl _ s)).que id
    rw [EnginesAs, entries]
    exact (enginesAs_stopPartition p (setFaulted p s)).trans (by rw [set])

/-! ### The engine's failure (R364) -/

/-- The partitions with a sequence on die `d`. -/
def partsWithSeq (d : Nat) (s : State) : List Nat :=
  (List.range 128).filter (fun p => s.que.seqs.any (fun x => Nat.beq (seqDie x.id) d && Nat.beq x.part p))

theorem partsWithSeq_nil {d : Nat} {s : State} (none : ∀ x ∈ s.que.seqs, seqDie x.id ≠ d) : partsWithSeq d s = [] :=
  List.filter_eq_nil_iff.2 fun p _ => by
    rw [List.any_eq_true]
    rintro ⟨x, hx, here⟩
    exact none x hx (Nat.eq_of_beq_eq_true (Bool.and_eq_true _ _ ▸ here).1)

theorem mem_partsWithSeq {d : Nat} {s : State} {x : SeqSlot} (hx : x ∈ s.que.seqs) (here : seqDie x.id = d)
    (small : x.part < 128) : x.part ∈ partsWithSeq d s :=
  List.mem_filter.2 ⟨List.mem_range.2 small, List.any_eq_true.2 ⟨x, hx, by simp [here]⟩⟩

/-- The engine marked as failed, with its record. -/
def engineFailed (d slot : Nat) (s : State) : State :=
  emit d 3 0x072 3 false [pf 1 slot, pf 7 0] { s with que := { s.que with seqFailed := addNat s.que.seqFailed d } }

theorem completes_seqEngineFailure {s : State} {d slot : Nat} (hd : d < dieCount s.orderCode) (small : slot < 256) :
    Completes (.seqEngineFailure d slot) s (fun t =>
      t.que.seqFailed.contains d = true ∧
      ((∀ x ∈ s.que.seqs, seqDie x.id ≠ d) → HandsOver d 3 0x072 3 s t ∧ t.regs = s.regs ∧ t.prt = s.prt) ∧
      (∀ x ∈ s.que.seqs, seqDie x.id = d → x.part < 128 → (imgParts s).contains x.part = true →
        t.prt.faulted.contains x.part = true)) := by
  refine completes_of_onDie (execSeqEngineFailure d slot s) rfl rfl hd ?_
  have failure : seqEngineFailure d slot s =
      each (partsWithSeq d s) (fun u p => partFault p 0x0B d 0x072 (nextSeq s d) u) (engineFailed d slot s) := rfl
  rw [if_pos small, failure]
  refine ⟨?_, fun none => ?_, fun x hx here bound named => ?_⟩
  · rw [enginesAs_each (fun u p => enginesAs_partFault p 0x0B d 0x072 (nextSeq s d) u)]
    exact contains_addNat_same ..
  · rw [partsWithSeq_nil none]
    exact ⟨handsOver_emit d 3 0x072 3 false _ rfl, rfl, rfl⟩
  · exact faulted_each_partFault (s := engineFailed d slot s) (mem_partsWithSeq hx here bound) named 0x0B d 0x072
      (nextSeq s d)

/-! ### A query, and an item's entry (R342, R343) -/

/-- The frame of a read or a write through the caches. -/
def storeFrame : Frame := { noFrame with regs := True, slc := True, hbm := True, xlt := True, recs := True }

theorem completes_seqctlQuery {s s' s'' : State} {it : SeqItem} {x : SeqSlot} {pa : Nat} (takes : EngineTakes s 10 it)
    (own : OwnSlot s it x) (aligned : it.addr.toNat % 128 = 0)
    (mapped : translate (queXby s it.queue it.ctx) it.addr.toNat .store s = some (.pa pa, s'))
    (stored : accPut (queBy s' it.queue) 6 pa (seqBytes s x) s' = some (true, s'')) :
    Completes (.seqctlQuery it) s (fun t => t.que.seqs = s.que.seqs ∧ t.que.items = s.que.items.erase (10, it) ∧
      t.core = s.core ∧ (it.cqe = false → t.slc = s''.slc ∧ t.regs = s''.regs)) := by
  refine completes_of_seqctl takes (execSeqctlQuery it s) rfl rfl ?_
  have finished : seqQuery it s = seqFinish 10 it 0 128 s'' := by
    rw [seqQuery, withSlot_of_own own]
    simp only [aligned, ne_eq, not_true_eq_false, if_false, mapped, stored]
  have first := (translate_keeps (F := storeFrame) trivial trivial trivial trivial trivial _ _ _ (.refl _ s)).of mapped
  have second := (accPut_keeps (F := storeFrame) trivial trivial trivial trivial trivial _ _ _ _ (.refl _ s')).of stored
  have que : s''.que = s.que := (second.que id).trans (first.que id)
  rw [finished]
  refine ⟨(seqFinish_seqs ..).trans (by rw [que]), (seqFinish_items ..).trans (by rw [que]),
    (seqFinish_core ..).trans ((second.core id).trans (first.core id)), fun silent => ?_⟩
  rw [seqFinish, silent]
  exact completeItem_without_cqe ..

/-- An entry without IRQ advances PI of its completion queue, and releases the place reserved for it (R342). -/
theorem completeItem_with_cqe {s : State} {q : Nat} (room : quePi s (cqOf s q) < 2 ^ 64 - 1)
    (tag status kind index info : Nat) :
    quePi (completeItem q tag status kind index info true false s) (cqOf s q) = quePi s (cqOf s q) + 1 ∧
      SMap.get 0 (completeItem q tag status kind index info true false s).que.resv (cqOf s q) =
        SMap.get 0 s.que.resv (cqOf s q) - 1 ∧
      SMap.get 0 (completeItem q tag status kind index info true false s).que.itemsOut q =
        SMap.get 0 s.que.itemsOut q - 1 := by
  obtain ⟨buckets, sectors, eq⟩ :=
    reportSectors_eq q { s with que := { s.que with itemsOut := lower s.que.itemsOut q } }
  simp only [completeItem, if_true, eq, que_writeCqe]
  refine ⟨?_, SMap.get_set_same .., SMap.get_set_same ..⟩
  exact (State.rd_wr_same ..).trans (Nat.mod_eq_of_lt (show quePi s (cqOf s q) + 1 < 2 ^ 64 by omega))

/-- Settles O23. -/
theorem queriesEntriesAndEngineFailure : Obligations.QueriesEntriesAndEngineFailure := by
  refine ⟨⟨fun _ _ _ _ _ _ takes own aligned mapped stored => completes_seqctlQuery takes own aligned mapped stored,
    fun s it x takes own cqe irq room => ?_⟩, fun _ _ _ hd small => completes_seqEngineFailure hd small⟩
  refine completes_of_seqctl takes (execBtinval it s) rfl rfl ?_
  rw [seqBtinval, withSlot_of_own own, seqFinish, cqe, irq]
  exact completeItem_with_cqe (s := { dropBlocks x.id it.arg0.toNat it.arg1.toNat s with
    que := { (dropBlocks x.id it.arg0.toNat it.arg1.toNat s).que with
      items := (dropBlocks x.id it.arg0.toNat it.arg1.toNat s).que.items.erase (7, it) } }) room it.tag.toNat 0 2
    (it.index.toNat % 2 ^ 32) 0

end Sys2Proof.Machine
end

section
/-! PROOFS. The arbiter's grant of a class U head and the attach exchange (R340, R344, R374, R405). -/

namespace Sys2Proof.Machine

/-! ### What the arbiter's view and the dispatch change -/

/-- The cores, the dispatched SEQCTL items and the movers stay, whatever else the queue block notes. -/
def Kept (s t : State) : Prop :=
  t.core = s.core ∧ t.que.items = s.que.items ∧ t.que.movers = s.que.movers

theorem Kept.refl (s : State) : Kept s s := ⟨rfl, rfl, rfl⟩

theorem Kept.trans {s t u : State} (h : Kept s t) (k : Kept t u) : Kept s u :=
  ⟨k.1.trans h.1, k.2.1.trans h.2.1, k.2.2.trans h.2.2⟩

theorem Kept.of_keeps {s t : State} (h : Keeps storeFrame s t) : Kept s t :=
  ⟨h.core id, congrArg (·.items) (h.que id), congrArg (·.movers) (h.que id)⟩

theorem kept_each {α : Type} {f : State → α → State} (same : ∀ s x, Kept s (f s x)) (l : List α) (s : State) :
    Kept s (each l f s) := each_induction (P := Kept s) (fun t x _ h => h.trans (same t x)) (.refl s)

theorem kept_readHead (q : Nat) (s : State) : Kept s (readHead q s).2 :=
  .of_keeps (readHead_keeps trivial trivial trivial trivial trivial q (.refl _ s)).snd

theorem kept_failHeads (d : Nat) (s : State) : Kept s (failHeads d s) :=
  .of_keeps (failHeads_keeps trivial trivial trivial trivial trivial d (.refl _ s))

theorem kept_noteWaits (h : Head) (s : State) : Kept s (noteWaits h s) :=
  .of_keeps (noteWaits_keeps trivial h (.refl _ s))

theorem kept_startExchange (h : Head) (s : State) : Kept s (startExchange h s) := by
  unfold startExchange
  dsimp only
  split
  · exact ⟨rfl, rfl, rfl⟩
  · exact .refl s

theorem kept_pruneArb (d : Nat) (s : State) : Kept s (pruneArb d s) := by
  unfold pruneArb
  dsimp only
  split
  · exact ⟨rfl, rfl, rfl⟩
  · exact .refl s

theorem kept_takeHold (d : Nat) (s : State) : Kept s (takeHold d s) := by
  unfold takeHold
  dsimp only
  split
  · split
    · exact ⟨rfl, rfl, rfl⟩
    · exact .refl s
  · exact .refl s

theorem kept_arbView (d : Nat) (s : State) : Kept s (arbView d s) :=
  (kept_failHeads d s).trans ((kept_each (fun s h => (kept_noteWaits h s).trans (kept_startExchange h _)) _ _).trans
    ((kept_pruneArb d _).trans (kept_takeHold d _)))

theorem kept_chargeItem (h : Head) (e : Nat) (s : State) : Kept s (chargeItem h e s) := by
  obtain ⟨buckets, eq⟩ := charge_eq (queDie h.q) (quePart s h.q) (queInst s h.q) 4 e s
  unfold chargeItem
  dsimp only
  rw [eq]
  split <;> exact ⟨rfl, rfl, rfl⟩

theorem kept_takeItem (h : Head) (s : State) : Kept s (takeItem h s) := ⟨rfl, rfl, rfl⟩

theorem kept_putArb (a : Arb) (s : State) : Kept s (putArb a s) := ⟨rfl, rfl, rfl⟩

theorem kept_grantedAt (d : Nat) (s : State) (h : Head) : Kept s (grantedAt d s h) := by
  unfold grantedAt
  dsimp only
  exact (kept_arbView d s).trans ((kept_putArb _ _).trans ((kept_readHead h.q _).trans ((kept_chargeItem h _ _).trans
    (kept_takeItem h _))))

/-- CI has advanced past the item. -/
theorem queCi_takeItem (h : Head) (s : State) : queCi (takeItem h s) h.q = (h.index.toNat + 1) % 2 ^ 64 :=
  State.rd_wr_same ..

theorem queCi_showHold (d : Nat) (s : State) (q : Nat) : queCi (showHold d s) q = queCi s q := by
  have small := queLocal_lt q
  refine (rd_showHold d s).2.2 (queDie q) (Reg.QUE_CI (queLocal q)) fun x hx => ?_
  simp only [List.mem_cons, List.not_mem_nil, or_false] at hx
  obtain rfl | rfl := hx
  all_goals
    simp only [Fld.key, Reg.QUE_CI, Reg.GOV_STATE_HOLDING, Reg.GOV_STATE_HOLD_QUEUE]
    omega

/-- The state with its sequences replaced: what is asked of a head does not look at them. -/
def withSeqs (seqs : List SeqSlot) (s : State) : State := { s with que := { s.que with seqs := seqs } }

/-- Attachments undone change steps of sequences alone. -/
theorem detachIds_eq (ids : List Nat) (n : BitVec 32) (taint : Bool) (s : State) :
    ∃ seqs, detachIds ids n taint s = withSeqs seqs s := by
  unfold detachIds
  refine each_induction (P := fun t => ∃ seqs, t = withSeqs seqs s)
    (fun t id _ h => ?_) ⟨_, rfl⟩
  obtain ⟨_, rfl⟩ := h
  exact ⟨_, rfl⟩

theorem attachAll_eq (p : Nat) (ids : List Nat) (n : BitVec 32) (s : State) :
    ∃ seqs, attachAll p ids n s = withSeqs seqs s := by
  unfold attachAll
  refine each_induction (P := fun t => ∃ seqs, t = withSeqs seqs s)
    (fun t id _ h => ?_) ⟨_, rfl⟩
  obtain ⟨_, rfl⟩ := h
  exact ⟨_, rfl⟩

/-! ### The grant of a class U head (R405) -/

/-- What a granted item starts as, by its queue's kind. -/
def startItem (h : Head) (sq : HeadSeq) (s : State) : State :=
  match queKind s h.q with
  | 0 => dispatchLaunch h sq s
  | 1 => dispatchMove h s
  | _ => dispatchSeqctl h s

/-- The granted head starts in the state of its grant, but for attachments that a kill undoes. -/
theorem arbiterGrant_of_urgent {s : State} {d : Nat} {h : Head} (next : nextUrgent d s h) :
    ∃ seqs, arbiterGrant d s = showHold d (startItem h
      (headSeq (putArb { arbOf (arbView d s) d with lastU := some (queLocal h.q) } (arbView d s)) h)
      (withSeqs seqs (grantedAt d s h))) := by
  have granted : arbiterGrant d s = showHold d (dispatch h
      (putArb { arbOf (arbView d s) d with lastU := some (queLocal h.q) } (arbView d s))) := by
    have unfolded : arbiterGrant d s = match nextU (arbOf (arbView d s) d) (((headsOf (arbView d s) d).filter
        (eligible (arbView d s))).filter (fun h => Nat.beq (queClass (arbView d s) h.q) 0)) with
      | some h => showHold d (dispatch h (putArb { arbOf (arbView d s) d with lastU := some (queLocal h.q) }
          (arbView d s)))
      | none =>
        let ib := ((headsOf (arbView d s) d).filter (eligible (arbView d s))).filter
          (fun h => !(Nat.beq (queClass (arbView d s) h.q) 0))
        match (arbOf (arbView d s) d).held with
        | some n => showHold d (grantHeld d n ib (arbView d s))
        | none => showHold d (if ib.isEmpty then arbView d s else grantIB d ib (arbView d s)) := rfl
    rw [unfolded, next]
  generalize eq : putArb { arbOf (arbView d s) d with lastU := some (queLocal h.q) } (arbView d s) = w at granted ⊢
  have started (undone : List Nat) : ∃ seqs, detachIds undone h.step (h.killed (grantedAt d s h)) (grantedAt d s h) =
      withSeqs seqs (grantedAt d s h) := detachIds_eq ..
  obtain ⟨seqs, detached⟩ := started
    (if headSeq w h == .go [] then (w.que.exchanged.filter (sameHead h)).flatMap (·.attached) else [])
  refine ⟨seqs, granted.trans (congrArg (showHold d) ?_)⟩
  rw [← detached, grantedAt, eq]
  rfl

/-- A granted class U item starts from a state that keeps the items, the movers and the cores, with CI past it. -/
theorem completes_arbiterGrant {s : State} {d : Nat} {h : Head} {P : State → Prop} (hd : d < dieCount s.orderCode)
    (runs : dieUp s d = true) (next : nextUrgent d s h)
    (start : ∀ sq seqs, (h.seq = none → sq = .go []) → ∃ t,
      startItem h sq (withSeqs seqs (grantedAt d s h)) = t ∧
        t.regs = (grantedAt d s h).regs ∧ (∀ u, u.core = t.core → u.que = t.que → P u)) :
    Completes (.arbiterGrant d) s (fun t => P t ∧ queCi t h.q = (h.index.toNat + 1) % 2 ^ 64) := by
  refine completes_of_onDie (execArbiterGrant d s) rfl rfl hd ?_
  obtain ⟨seqs, granted⟩ := arbiterGrant_of_urgent next
  obtain ⟨t, started, regs, holds⟩ := start (headSeq (putArb { arbOf (arbView d s) d with
    lastU := some (queLocal h.q) } (arbView d s)) h) seqs (fun none => by rw [headSeq, none])
  rw [if_pos runs, granted, started]
  obtain ⟨r, shown⟩ := showHold_eq d t
  refine ⟨holds _ (by rw [shown]) (by rw [shown]), ?_⟩
  rw [queCi_showHold, queCi, State.rd_of_regs regs]
  exact queCi_takeItem ..

theorem startItem_of_seqctl {s : State} {h : Head} (kind : queKind s h.q = 2) (typ : leAt h.bytes 0 1 = 2)
    (op : leAt h.bytes 3 1 ≠ 0) (known : leAt h.bytes 3 1 < 12) (sq : HeadSeq) :
    startItem h sq s = { s with que := { s.que with items := s.que.items ++ [(leAt h.bytes 3 1, seqItemOf h)] } } := by
  have bound : ¬12 ≤ leAt h.bytes 3 1 := by omega
  simp only [startItem, kind, dispatchSeqctl, State.free, typ, op, bound, ne_eq, not_true_eq_false, if_false,
    decide_false, Bool.or_self, Bool.false_eq_true]

theorem startItem_of_launch {s : State} {h : Head} (kind : queKind s h.q = 0) (lives : h.killed s = false)
    (valid : launchValid s h = true) :
    startItem h (.go []) s =
      { s with core := { s.core with launches := s.core.launches ++ [mkLaunch s h []] } } := by
  simp only [startItem, kind, dispatchLaunch, lives, valid, Bool.not_true, Bool.false_eq_true, if_false]
  rfl

/-- The mover that a MOVE item starts. -/
def startedMover (h : Head) (m : Nat) (s : State) : Mover :=
  { die := queDie h.q, m := m, state := .running, queue := h.q, index := h.index, tag := BitVec.ofNat 16 h.tag,
    cqe := h.cqe, irq := h.irq, part := quePart s h.q, inst := queInst s h.q, ctx := h.ctx s, cls := queClass s h.q,
    slot := leAt h.bytes 3 1, pc := leAt h.bytes 4 1,
    mregs := [0, 1, 2, 3, 4, 5].map (fun j => BitVec.ofNat 64 (leAt h.bytes (8 + 8 * j) 8)) ++ [0, 0],
    gen := s.rd (queDie h.q) (Reg.MOV_SLOT_GEN (leAt h.bytes 3 1)), changed := false, latched := none, cursor := 0,
    checked := false, stopped := false }

theorem startItem_of_move {s : State} {h : Head} {m : Nat} (kind : queKind s h.q = 1) (lives : h.killed s = false)
    (typ : leAt h.bytes 0 1 = 1) (fields : moveFields h = true) (anyGen : h.flags.testBit 4 = false)
    (owned : s.rd (queDie h.q) (Reg.MOV_SLOT_OWNED (leAt h.bytes 3 1)) ≠ 0)
    (part : s.rd (queDie h.q) (Reg.MOV_SLOT_PART (leAt h.bytes 3 1)) = quePart s h.q)
    (inst : s.rd (queDie h.q) (Reg.MOV_SLOT_INST (leAt h.bytes 3 1)) = queInst s h.q)
    (free : freeMover s (queDie h.q) (quePart s h.q) = some m) (sq : HeadSeq) :
    startItem h sq s = { s with que := { s.que with movers := s.que.movers ++ [startedMover h m s] } } := by
  simp only [startItem, kind, dispatchMove, lives, typ, fields, anyGen, owned, part, inst, free, ne_eq,
    not_true_eq_false, if_false, decide_false, Bool.or_self, Bool.false_eq_true, Bool.not_true, Bool.false_and]
  rfl

theorem launchValid_withSeqs (seqs : List SeqSlot) (s : State) (h : Head) :
    launchValid (withSeqs seqs s) h = launchValid s h := rfl

theorem killed_withSeqs (seqs : List SeqSlot) (s : State) (h : Head) : h.killed (withSeqs seqs s) = h.killed s := rfl

theorem freeMover_withSeqs (seqs : List SeqSlot) (s : State) (d p : Nat) :
    freeMover (withSeqs seqs s) d p = freeMover s d p := rfl

theorem completes_arbiterGrant_of_seqctl {s : State} {d : Nat} {h : Head} (hd : d < dieCount s.orderCode)
    (runs : dieUp s d = true) (next : nextUrgent d s h) (kind : queKind (grantedAt d s h) h.q = 2)
    (typ : leAt h.bytes 0 1 = 2) (op : leAt h.bytes 3 1 ≠ 0) (known : leAt h.bytes 3 1 < 12) :
    Completes (.arbiterGrant d) s (fun t =>
      t.que.items = s.que.items ++ [(leAt h.bytes 3 1, seqItemOf h)] ∧ t.core = s.core ∧
      queCi t h.q = (h.index.toNat + 1) % 2 ^ 64) := by
  obtain ⟨core, items, -⟩ := kept_grantedAt d s h
  have granted := completes_arbiterGrant
    (P := fun t => t.que.items = s.que.items ++ [(leAt h.bytes 3 1, seqItemOf h)] ∧ t.core = s.core) hd runs next
  generalize grantedAt d s h = g at kind core items granted
  obtain ⟨t, done, ⟨same, rest⟩, ci⟩ := granted fun sq seqs _ =>
    ⟨_, startItem_of_seqctl (s := withSeqs seqs g) kind typ op known sq, rfl, fun u sameCore sameQue =>
      ⟨by rw [sameQue, ← items]; rfl, sameCore.trans core⟩⟩
  exact ⟨t, done, same, rest, ci⟩

theorem completes_arbiterGrant_of_launch {s : State} {d : Nat} {h : Head} (hd : d < dieCount s.orderCode)
    (runs : dieUp s d = true) (next : nextUrgent d s h) (kind : queKind (grantedAt d s h) h.q = 0) (free : h.seq = none)
    (lives : h.killed (grantedAt d s h) = false) (valid : launchValid (grantedAt d s h) h = true) :
    Completes (.arbiterGrant d) s (fun t =>
      (∃ l, t.core.launches = s.core.launches ++ [l] ∧ l.queue = h.q ∧ l.index = h.index ∧ l.attached = [] ∧
        l.ntroupe = h.ntroupe ∧ l.rows = h.rows ∧ l.ended = 0) ∧
      queCi t h.q = (h.index.toNat + 1) % 2 ^ 64) := by
  obtain ⟨core, -, -⟩ := kept_grantedAt d s h
  refine completes_arbiterGrant hd runs next ?_
  generalize grantedAt d s h = g at kind lives valid core ⊢
  intro sq seqs plain
  rw [plain free]
  exact ⟨_, startItem_of_launch (s := withSeqs seqs g) kind lives ((launchValid_withSeqs seqs g h).trans valid), rfl,
    fun u sameCore _ => ⟨mkLaunch (withSeqs seqs g) h [], by rw [sameCore, ← core]; rfl, rfl, rfl, rfl, rfl, rfl, rfl⟩⟩

theorem completes_arbiterGrant_of_move {s : State} {d m : Nat} {h : Head} (hd : d < dieCount s.orderCode)
    (runs : dieUp s d = true) (next : nextUrgent d s h) (kind : queKind (grantedAt d s h) h.q = 1)
    (lives : h.killed (grantedAt d s h) = false) (typ : leAt h.bytes 0 1 = 1) (fields : moveFields h = true)
    (anyGen : h.flags.testBit 4 = false)
    (owned : (grantedAt d s h).rd (queDie h.q) (Reg.MOV_SLOT_OWNED (leAt h.bytes 3 1)) ≠ 0)
    (part : (grantedAt d s h).rd (queDie h.q) (Reg.MOV_SLOT_PART (leAt h.bytes 3 1)) = quePart (grantedAt d s h) h.q)
    (inst : (grantedAt d s h).rd (queDie h.q) (Reg.MOV_SLOT_INST (leAt h.bytes 3 1)) = queInst (grantedAt d s h) h.q)
    (free : freeMover (grantedAt d s h) (queDie h.q) (quePart (grantedAt d s h) h.q) = some m) :
    Completes (.arbiterGrant d) s (fun t =>
      (∃ x, t.que.movers = s.que.movers ++ [x] ∧ x.die = queDie h.q ∧ x.m = m ∧ x.state = .running ∧
        x.pc = leAt h.bytes 4 1 ∧ x.slot = leAt h.bytes 3 1 ∧ x.queue = h.q ∧ x.mregs.length = 8) ∧
      queCi t h.q = (h.index.toNat + 1) % 2 ^ 64) := by
  obtain ⟨-, -, movers⟩ := kept_grantedAt d s h
  refine completes_arbiterGrant hd runs next ?_
  generalize grantedAt d s h = g at kind lives owned part inst free movers ⊢
  intro sq seqs _
  exact ⟨_, startItem_of_move (s := withSeqs seqs g) kind lives typ fields anyGen owned part inst
      ((freeMover_withSeqs seqs g _ _).trans free) sq, rfl,
    fun u _ sameQue => ⟨startedMover h m (withSeqs seqs g), by rw [sameQue, ← movers]; rfl, rfl, rfl, rfl, rfl, rfl,
      rfl, rfl⟩⟩

/-! ### The attach exchange (R344) -/

/-- An exchange completed, and waiting for the next grant. -/
def exchanged (y : Exchange) (s : State) : State :=
  { s with que := { s.que with exchanged := s.que.exchanged ++ [y] } }

/-- The energy gate looks at no sequence and no exchange. -/
theorem passesGate_exchanged (seqs : List SeqSlot) (y : Exchange) (s : State) (h : Head) :
    passesGate (exchanged y (withSeqs seqs s)) h = passesGate s h := rfl

theorem completes_attachExchange {s u : State} {q : Nat} {index : Word} {x : Exchange} {h : Head} {ids : List Nat}
    (hd : queDie q < dieCount s.orderCode)
    (found : s.que.exchanges.find? (fun x => Nat.beq x.queue q && x.index == index) = some x)
    (taken : u = { s with que := { s.que with exchanges := s.que.exchanges.erase x } })
    (read : (readHead q u).1 = .ok h) (runs : queRuns u q = true) (here : h.index = index) (kind : queKind u q = 0)
    (lives : h.killed u = false)
    (allowed : launchCheck u (quePart u q) (queInst u q) (h.seq.getD 0) h.step = .ok ids)
    (gated : passesGate u h = false) :
    Completes (.attachExchange q index) s (fun t =>
      t.que.exchanges = s.que.exchanges.erase x ∧ t.que.exchanged = s.que.exchanged ++ [⟨q, index, h.step, ids⟩] ∧
      t.que.seqs = (attachAll (quePart u q) ids h.step u).que.seqs ∧ t.regs = s.regs ∧ t.core = s.core) := by
  refine completes_of_onDie (execAttachExchange q index s) rfl rfl hd ?_
  obtain ⟨seqs, attached⟩ := attachAll_eq (quePart u q) ids h.step u
  have shut : passesGate (exchanged ⟨q, index, h.step, ids⟩ (withSeqs seqs u)) h = false :=
    (passesGate_exchanged seqs _ u h).trans gated
  have waits : attachExchange q index s = exchanged ⟨q, index, h.step, ids⟩ (withSeqs seqs u) := by
    simp only [attachExchange, found, ← taken, read, runs, here, kind, lives, allowed, attached, Bool.not_true,
      ne_eq, not_true_eq_false, decide_false, Bool.or_self, Bool.false_eq_true, if_false]
    rw [if_neg]
    · rfl
    · rw [Bool.and_eq_true]
      exact fun both => Bool.false_ne_true (shut.symm.trans both.1)
  rw [waits, attached, taken]
  exact ⟨rfl, rfl, rfl, rfl, rfl⟩

/-- Settles O18: an exchange completes by its own command, and its launch waits for the next grant of the die's arbiter
where the gate does not let it by (log 64). -/
theorem grantsAndExchanges : Obligations.GrantsAndExchanges :=
  ⟨fun _ _ _ hd runs next =>
      ⟨fun kind typ op known => completes_arbiterGrant_of_seqctl hd runs next kind typ op known,
        fun kind free lives valid => completes_arbiterGrant_of_launch hd runs next kind free lives valid,
        fun _ kind lives typ fields anyGen owned part inst free =>
          completes_arbiterGrant_of_move hd runs next kind lives typ fields anyGen owned part inst free⟩,
    fun _ _ _ _ _ _ _ hd found taken read runs here kind lives allowed gated =>
      completes_attachExchange hd found taken read runs here kind lives allowed gated⟩

end Sys2Proof.Machine
end

section
/-! PROOFS. Stages 3 to 5 of a die's start-up (R41, R45, R85, R87): the PLL, the fuses and the boot firmware. -/

namespace Sys2Proof.Machine

/-! ### Stages that end and stages that stop -/

/-- A stage that ends writes STAGE. -/
theorem rd_stageDone (d code : Nat) (s : State) :
    (stageDone d code s).rd d Reg.DC_BOOT_STATUS_STAGE = code % 2 ^ Reg.DC_BOOT_STATUS_STAGE.width :=
  State.rd_wr_same s d Reg.DC_BOOT_STATUS_STAGE code

theorem rd_stageDone_apart {f : Fld} (apart : f.apart Reg.DC_BOOT_STATUS_STAGE = true) (d code : Nat) (s : State)
    (e : Nat) : (stageDone d code s).rd e f = s.rd e f := State.rd_wr_apart apart ..

theorem regsBut_stageDone (d code : Nat) (s : State) : RegsBut [(d, Reg.DC_BOOT_STATUS_STAGE)] s (stageDone d code s) :=
  .of_regs (.wr (.refl _ s) d _ code (.head _)) rfl

/-- A stop writes ERROR and hands over BOOT-FAIL. -/
theorem rd_bootFail (d stage err copy : Nat) (s : State) :
    (bootFail d stage err copy s).rd d Reg.DC_BOOT_STATUS_ERROR = err % 2 ^ Reg.DC_BOOT_STATUS_ERROR.width :=
  State.rd_wr_same s d Reg.DC_BOOT_STATUS_ERROR err

theorem regsBut_bootFail (d stage err copy : Nat) (s : State) :
    RegsBut [(d, Reg.DC_BOOT_STATUS_ERROR)] s (bootFail d stage err copy s) :=
  .of_regs (.wr (.refl _ s) d _ err (.head _)) rfl

theorem handsOver_bootFail {s t : State} (d stage err copy : Nat) (waiting : t.recs.waiting = s.recs.waiting) :
    HandsOver d 0 0x011 0 s (bootFail d stage err copy t) :=
  handsOver_emit d 0 0x011 0 false _ waiting

/-- What a die at a stage has: it runs, STAGE holds the stage's code, and no stop has set ERROR. -/
theorem atStage_iff {s : State} {d code : Nat} : atStage s d code = true ↔
    dieUp s d = true ∧ s.rd d Reg.DC_BOOT_STATUS_STAGE = code ∧ s.rd d Reg.DC_BOOT_STATUS_ERROR = 0 := by
  simp only [atStage, Bool.and_eq_true, beq_iff_eq, and_assoc]

/-! ### Stage 3 (R41, R45) -/

/-- The clocks of the die start, and what the DC prints first. -/
def clocksStarted (d : Nat) (s : State) : State :=
  each (match s.rd d Reg.DC_RESET_CAUSE with | 0 => [1, 2] | 2 => [2] | _ => []) (fun s n => uartPrint d n s) { s with
    rack := { s.rack with refclk := true },
    boot := { s.boot with inReset := delNat s.boot.inReset d, pllTry := SMap.set 0 s.boot.pllTry d 0 } }

/-- Printing leaves all but the console. -/
theorem clocksStarted_keeps (d : Nat) (s : State) : (clocksStarted d s).regs = s.regs ∧
    (clocksStarted d s).rack.refclk = true ∧ (clocksStarted d s).boot.inReset = delNat s.boot.inReset d :=
  each_induction (f := fun s n => uartPrint d n s)
    (P := fun t => t.regs = s.regs ∧ t.rack.refclk = true ∧ t.boot.inReset = delNat s.boot.inReset d)
    (fun _ _ _ h => h) ⟨rfl, rfl, rfl⟩

theorem completes_pllLock {s : State} {d : Nat} (hd : d < dieCount s.orderCode) (locks : locking s d = true) :
    Completes (.pllLock d) s (fun t =>
      t.boot.inReset.contains d = false ∧ t.rd d Reg.CLK_STATUS_LOCK = 1 ∧ t.rd d Reg.DC_RTIME = 0 ∧
      t.rd d Reg.DC_BOOT_STATUS_STAGE = 1 ∧ t.rack.refclk = true ∧ t.boot.uart.getLast? = some (d, 3) ∧
      RegsBut [(d, Reg.CLK_STATUS_LOCK), (d, Reg.DC_RTIME), (d, Reg.DC_BOOT_STATUS_STAGE)] s t) := by
  have locked : pllLock d s =
      stageDone d 1 (((clocksStarted d s).wr d Reg.CLK_STATUS_LOCK 1).wr d Reg.DC_RTIME 0) := if_pos locks
  obtain ⟨regs, refclk, inReset⟩ := clocksStarted_keeps d s
  refine completes_of_onDie (execPllLock d s) rfl rfl hd ?_
  rw [locked]
  refine ⟨?_, ?_, ?_, rd_stageDone .., refclk, List.getLast?_concat, ?_⟩
  · exact inReset ▸ contains_delNat s.boot.inReset d
  · rw [rd_stageDone_apart rfl, State.rd_wr_apart rfl, State.rd_wr_same]
    rfl
  · rw [rd_stageDone_apart rfl, State.rd_wr_same]
    rfl
  · exact .trans (.wr (.wr (.of_regs (.refl _ s) regs) _ _ _ (by simp)) _ _ _ (by simp))
      ((regsBut_stageDone _ _ _).mono (by simp))

theorem completes_pllLockTimeout {s : State} {d : Nat} (hd : d < dieCount s.orderCode) (locks : locking s d = true)
    (cause : s.rd d Reg.DC_RESET_CAUSE ≠ 4) :
    Completes (.pllLockTimeout d) s (fun t =>
      (SMap.get 0 s.boot.pllTry d < 3 → SMap.get 0 t.boot.pllTry d = SMap.get 0 s.boot.pllTry d + 1 ∧
        t.regs = s.regs ∧ t.boot.pllDead = s.boot.pllDead) ∧
      (SMap.get 0 s.boot.pllTry d = 3 → t.boot.pllDead.contains d = true ∧ t.rd d Reg.DC_BOOT_STATUS_ERROR = 1 ∧
        HandsOver d 0 0x011 0 s t ∧ RegsBut [(d, Reg.DC_BOOT_STATUS_ERROR)] s t)) := by
  refine completes_of_onDie (execPllLockTimeout d s) rfl rfl hd ?_
  rw [pllLockTimeout, locks, Bool.true_and, if_pos (bne_iff_ne.2 cause)]
  dsimp only
  refine ⟨fun again => ?_, fun last => ?_⟩
  · rw [if_pos (by omega)]
    exact ⟨SMap.get_set_same 0 s.boot.pllTry d (SMap.get 0 s.boot.pllTry d + 1), rfl, rfl⟩
  · rw [if_neg (by omega)]
    exact ⟨contains_addNat_same .., rd_bootFail .., handsOver_bootFail d 3 1 0 rfl,
      .trans (.of_regs (.refl _ s) rfl) (regsBut_bootFail _ _ _ _ _)⟩

/-! ### Stage 4 (R85) -/

/-- What reading the fuses leaves in the registers. -/
theorem rd_loadFuses (d : Nat) (f : FuseData) (s : State) :
    (loadFuses d f s).rd d Reg.FUSE_STATUS_READ_DONE = 1 ∧
      (loadFuses d f s).rd d Reg.FUSE_STATUS_CRC_OK = (if f.crcOk then 1 else 0) ∧
      (loadFuses d f s).rd d Reg.FUSE_SERIAL = f.serial.toNat ∧
      (loadFuses d f s).rd d Reg.DC_ID_STEPPING = f.stepping % 2 ^ Reg.DC_ID_STEPPING.width ∧
      (∀ i, i < 3 → (loadFuses d f s).rd d (Reg.FUSE_MAP_W i) = f.mapW.toNat / 2 ^ (64 * i) % 2 ^ 64 ∧
        (loadFuses d f s).rd d (Reg.FUSE_MAP_E i) = f.mapE.toNat / 2 ^ (64 * i) % 2 ^ 64) := by
  simp only [loadFuses, each, List.foldl]
  refine ⟨?_, ?_, ?_, ?_, fun i hi => ?_⟩
  · simp (disch := decide) only [State.rd_wr_apart, State.rd_wr_same]
    rfl
  · simp (disch := decide) only [State.rd_wr_apart, State.rd_wr_same]
    cases f.crcOk <;> rfl
  · simp (disch := decide) only [State.rd_wr_apart, State.rd_wr_same]
    exact f.serial.toNat_mod_cancel
  · simp (disch := decide) only [State.rd_wr_apart, State.rd_wr_same]
  · obtain rfl | rfl | rfl : i = 0 ∨ i = 1 ∨ i = 2 := by omega
    all_goals
      simp (disch := decide) only [State.rd_wr_apart, State.rd_wr_same]
      exact ⟨rfl, rfl⟩

/-- The registers of the fuses and the ROM's tuple. -/
def fuseFields (d : Nat) : List (Nat × Fld) :=
  [(d, Reg.FUSE_STATUS_READ_DONE), (d, Reg.FUSE_STATUS_CRC_OK), (d, Reg.FUSE_GRADE_GRADE), (d, Reg.FUSE_GRADE_STEPPING),
    (d, Reg.FUSE_SERIAL), (d, Reg.DC_ID_STEPPING), (d, Reg.FUSE_MAP_W 0), (d, Reg.FUSE_MAP_E 0), (d, Reg.FUSE_MAP_W 1),
    (d, Reg.FUSE_MAP_E 1), (d, Reg.FUSE_MAP_W 2), (d, Reg.FUSE_MAP_E 2)]

theorem regsBut_loadFuses (d : Nat) (f : FuseData) (s : State) : RegsBut (fuseFields d) s (loadFuses d f s) := by
  simp only [loadFuses, each, List.foldl]
  iterate 12 refine .wr ?_ _ _ _ (by simp [fuseFields])
  exact .refl _ s

/-- A component's tuple written. -/
theorem rd_setCompat {n : Nat} (apart : (Reg.DC_COMPAT_MAJOR n).apart (Reg.DC_COMPAT_MINOR n) = true) (d : Nat)
    (c : Compat) (s : State) :
    (setCompat d n c s).rd d (Reg.DC_COMPAT_MAJOR n) = c.major % 2 ^ 16 ∧
      (setCompat d n c s).rd d (Reg.DC_COMPAT_MINOR n) = c.minor % 2 ^ 16 :=
  ⟨(State.rd_wr_apart apart ..).trans (State.rd_wr_same ..), State.rd_wr_same ..⟩

theorem regsBut_setCompat (d n : Nat) (c : Compat) (s : State) :
    RegsBut [(d, Reg.DC_COMPAT_MAJOR n), (d, Reg.DC_COMPAT_MINOR n)] s (setCompat d n c s) :=
  .wr (.wr (.refl _ s) _ _ _ (by simp)) _ _ _ (by simp)

/-- The fuses read, with the ROM's tuple. -/
def fusesRead (d : Nat) (f : FuseData) (s : State) : State := setCompat d 0 f.rom (loadFuses d f s)

theorem rd_fusesRead {g : Fld} (major : g.apart (Reg.DC_COMPAT_MAJOR 0) = true)
    (minor : g.apart (Reg.DC_COMPAT_MINOR 0) = true) (d : Nat) (f : FuseData) (s : State) :
    (fusesRead d f s).rd d g = (loadFuses d f s).rd d g :=
  (State.rd_wr_apart minor ..).trans (State.rd_wr_apart major ..)

theorem completes_fuseRead {s : State} {d : Nat} {f : FuseData} (hd : d < dieCount s.orderCode)
    (ready : atStage s d 1 = true) (good : f.crcOk = true) (grade : f.grade = (gradeOf s.orderCode).1)
    (west : popCount 160 f.mapW.toNat = (gradeOf s.orderCode).2)
    (east : popCount 160 f.mapE.toNat = (gradeOf s.orderCode).2) (step : f.stepping < 32) :
    Completes (.fuseRead d f) s (fun t =>
      t.rd d Reg.DC_BOOT_STATUS_STAGE = 2 ∧ t.rd d Reg.FUSE_STATUS_READ_DONE = 1 ∧ t.rd d Reg.FUSE_STATUS_CRC_OK = 1 ∧
      t.rd d Reg.FUSE_SERIAL = f.serial.toNat ∧ t.rd d Reg.DC_ID_STEPPING = f.stepping ∧
      (∀ i, i < 3 → t.rd d (Reg.FUSE_MAP_W i) = f.mapW.toNat / 2 ^ (64 * i) % 2 ^ 64 ∧
        t.rd d (Reg.FUSE_MAP_E i) = f.mapE.toNat / 2 ^ (64 * i) % 2 ^ 64) ∧
      t.rd d Reg.DC_BOOT_STATUS_ERROR = 0) := by
  obtain ⟨-, -, noError⟩ := atStage_iff.1 ready
  have read : fuseRead d f s = stageDone d 2 (fusesRead d f s) := by
    have order : (fusesRead d f s).orderCode = s.orderCode :=
      (setCompat_keeps (F := { noFrame with regs := True }) trivial d 0 f.rom
        (loadFuses_keeps trivial d f (.refl _ s))).orderCode
    have checks : fuseRead d f s = if !f.crcOk then bootFail d 4 2 0 (fusesRead d f s)
        else if f.grade ≠ (gradeOf (fusesRead d f s).orderCode).1 ||
            popCount 160 f.mapW.toNat ≠ (gradeOf (fusesRead d f s).orderCode).2 ||
            popCount 160 f.mapE.toNat ≠ (gradeOf (fusesRead d f s).orderCode).2 then bootFail d 4 3 0 (fusesRead d f s)
        else stageDone d 2 (fusesRead d f s) := if_pos ready
    simp only [checks, good, order, grade, west, east, ne_eq, not_true_eq_false, decide_false, Bool.or_self,
      Bool.not_true, Bool.false_eq_true, if_false]
  obtain ⟨done, crc, serial, stepping, maps⟩ := rd_loadFuses d f s
  refine completes_of_onDie (execFuseRead d f s) rfl rfl hd ?_
  rw [read]
  refine ⟨rd_stageDone .., ?_, ?_, ?_, ?_, fun i hi => ?_, ?_⟩
  · rw [rd_stageDone_apart rfl, rd_fusesRead rfl rfl, done]
  · rw [rd_stageDone_apart rfl, rd_fusesRead rfl rfl, crc, good]
    rfl
  · rw [rd_stageDone_apart rfl, rd_fusesRead rfl rfl, serial]
  · rw [rd_stageDone_apart rfl, rd_fusesRead rfl rfl, stepping]
    exact Nat.mod_eq_of_lt (Nat.lt_of_lt_of_le step (by decide))
  · obtain ⟨mapW, mapE⟩ := maps i hi
    rw [← mapW, ← mapE]
    obtain rfl | rfl | rfl : i = 0 ∨ i = 1 ∨ i = 2 := by omega
    all_goals
      exact ⟨(rd_stageDone_apart rfl ..).trans (rd_fusesRead rfl rfl ..),
        (rd_stageDone_apart rfl ..).trans (rd_fusesRead rfl rfl ..)⟩
  · rw [rd_stageDone_apart rfl, rd_fusesRead rfl rfl, (regsBut_loadFuses d f s).rd_of_apart rfl, noError]

theorem completes_fuseRead_of_bad {s : State} {d : Nat} {f : FuseData} (hd : d < dieCount s.orderCode)
    (ready : atStage s d 1 = true) (bad : f.crcOk = false) :
    Completes (.fuseRead d f) s (fun t =>
      t.rd d Reg.DC_BOOT_STATUS_STAGE = 1 ∧ t.rd d Reg.DC_BOOT_STATUS_ERROR = 2 ∧ HandsOver d 0 0x011 0 s t) := by
  obtain ⟨-, stage, -⟩ := atStage_iff.1 ready
  have read : fuseRead d f s = bootFail d 4 2 0 (fusesRead d f s) := by
    rw [fuseRead, if_pos ready]
    dsimp only
    rw [bad]
    exact if_pos rfl
  refine completes_of_onDie (execFuseRead d f s) rfl rfl hd ?_
  rw [read]
  refine ⟨?_, rd_bootFail .., handsOver_bootFail d 4 2 0 rfl⟩
  rw [(regsBut_bootFail d 4 2 0 (fusesRead d f s)).rd_of_apart rfl, rd_fusesRead rfl rfl,
    (regsBut_loadFuses d f s).rd_of_apart rfl, stage]

/-! ### Stage 5 (R87) -/

/-- A copy is A or B. -/
theorem firstCopy_lt {s : State} {d image k : Nat} {ok : FlashCopy → Bool} {c : FlashCopy}
    (copy : firstCopy s d image ok = some (k, c)) : k < 2 := by
  unfold firstCopy at copy
  split at copy
  · cases copy
    decide
  · cases copy
    decide
  · cases copy

theorem completes_bootFirmwareLoad {s : State} {d k : Nat} {c : FlashCopy} (hd : d < dieCount s.orderCode)
    (ready : atStage s d 2 = true) (copy : firstCopy s d 0 (fun _ => true) = some (k, c)) :
    Completes (.bootFirmwareLoad d) s (fun t =>
      t.rd d Reg.DC_BOOT_STATUS_STAGE = 3 ∧ t.rd d Reg.DC_BOOT_STATUS_BOOT_COPY = k ∧
      t.rd d (Reg.DC_COMPAT_MAJOR 1) = c.compat.major % 2 ^ 16 ∧
      t.rd d (Reg.DC_COMPAT_MINOR 1) = c.compat.minor % 2 ^ 16 ∧
      RegsBut [(d, Reg.DC_BOOT_STATUS_STAGE), (d, Reg.DC_BOOT_STATUS_BOOT_COPY), (d, Reg.DC_COMPAT_MAJOR 1),
        (d, Reg.DC_COMPAT_MINOR 1)] s t) := by
  have loaded : bootFirmwareLoad d s =
      stageDone d 3 (setCompat d 1 c.compat (s.wr d Reg.DC_BOOT_STATUS_BOOT_COPY k)) := by
    rw [bootFirmwareLoad, if_pos ready, copy]
  obtain ⟨major, minor⟩ := rd_setCompat (n := 1) rfl d c.compat (s.wr d Reg.DC_BOOT_STATUS_BOOT_COPY k)
  refine completes_of_onDie (execBootFirmwareLoad d s) rfl rfl hd ?_
  rw [loaded]
  refine ⟨rd_stageDone .., ?_, by rw [rd_stageDone_apart rfl, major], by rw [rd_stageDone_apart rfl, minor], ?_⟩
  · have bit : k % 2 ^ Reg.DC_BOOT_STATUS_BOOT_COPY.width = k := Nat.mod_eq_of_lt (firstCopy_lt copy)
    rw [rd_stageDone_apart rfl, (regsBut_setCompat _ _ _ _).rd_of_apart rfl, State.rd_wr_same, bit]
  · exact .trans (.trans (.wr (.refl _ s) _ _ _ (by simp)) ((regsBut_setCompat _ _ _ _).mono (by simp)))
      ((regsBut_stageDone _ _ _).mono (by simp))

theorem completes_bootFirmwareLoad_of_none {s : State} {d : Nat} (hd : d < dieCount s.orderCode)
    (ready : atStage s d 2 = true) (none : firstCopy s d 0 (fun _ => true) = none) :
    Completes (.bootFirmwareLoad d) s (fun t =>
      t.rd d Reg.DC_BOOT_STATUS_STAGE = 2 ∧ t.rd d Reg.DC_BOOT_STATUS_ERROR = 4 ∧ HandsOver d 0 0x011 0 s t) := by
  obtain ⟨-, stage, -⟩ := atStage_iff.1 ready
  have stopped : bootFirmwareLoad d s = bootFail d 5 4 1 s := by rw [bootFirmwareLoad, if_pos ready, none]
  refine completes_of_onDie (execBootFirmwareLoad d s) rfl rfl hd ?_
  rw [stopped]
  exact ⟨((regsBut_bootFail _ _ _ _ _).rd_of_apart rfl d).trans stage, rd_bootFail .., handsOver_bootFail d 5 4 1 rfl⟩

/-- Settles O25: a lock shows that REFCLK runs (log 47). -/
theorem pllFuseAndBootStages : Obligations.PllFuseAndBootStages :=
  ⟨⟨fun _ _ hd locks => completes_pllLock hd locks,
      fun _ _ hd locks cause => completes_pllLockTimeout hd locks cause⟩,
    fun _ _ _ hd ready good grade west east step => completes_fuseRead hd ready good grade west east step,
    fun _ _ _ hd ready bad => completes_fuseRead_of_bad hd ready bad,
    fun _ _ _ _ hd ready copy => completes_bootFirmwareLoad hd ready copy,
    fun _ _ hd ready none => completes_bootFirmwareLoad_of_none hd ready none⟩

end Sys2Proof.Machine
end

section
/-! PROOFS. Stages 6 to 10 of a die's start-up (R88, R90, R91, R94, R99, R111): HBM training to roll call. -/

namespace Sys2Proof.Machine

/-! ### Stage 6 (R88) -/

/-- The records that wait are those of `s` and more. -/
def RecordsMore (s t : State) : Prop := ∃ l, t.recs.waiting = s.recs.waiting ++ l

theorem RecordsMore.emit {s t : State} (h : RecordsMore s t) (d unit typ cls : Nat) (sealed_ : Bool)
    (payload : List PF) : RecordsMore s (emit d unit typ cls sealed_ payload t) := by
  obtain ⟨l, eq⟩ := h
  exact ⟨_, (congrArg (· ++ [_]) eq).trans (List.append_assoc ..)⟩

/-- The registers that the scan of the ring sets. -/
def ringFields (d : Nat) : List (Nat × Fld) :=
  [(d, Reg.REC_RING_BASE), (d, Reg.REC_WR), (d, Reg.REC_OLDEST), (d, Reg.REC_SEQ), (d, Reg.REC_RING_SIZE)]

theorem regsBut_rejoinRing (m : RingMark) (s : State) : RegsBut (ringFields m.die) s (rejoinRing m s) := by
  refine .of_regs ?_ (show _ = ((((s.wr m.die Reg.REC_WR _).wr m.die Reg.REC_OLDEST _).wr m.die Reg.REC_SEQ _).wr m.die
    Reg.REC_RING_SIZE _).regs from rfl)
  iterate 4 refine .wr ?_ _ _ _ (by simp [ringFields])
  exact .refl _ s

/-- The ring as the scan leaves it, before it is marked as up. -/
def ringFound (d : Nat) (s : State) : State :=
  match s.recs.marks.find? (fun m => Nat.beq m.die d) with
  | some m => rejoinRing m (s.wr d Reg.REC_RING_BASE (Config.ringBase d))
  | none => s.wr d Reg.REC_RING_BASE (Config.ringBase d)

theorem ringFound_spec (d : Nat) (s : State) :
    RegsBut (ringFields d) s (ringFound d s) ∧ (ringFound d s).recs.waiting = s.recs.waiting := by
  have based : RegsBut (ringFields d) s (s.wr d Reg.REC_RING_BASE (Config.ringBase d)) :=
    .wr (.refl _ s) _ _ _ (by simp [ringFields])
  unfold ringFound
  split
  next m found =>
    have mine : m.die = d := Nat.eq_of_beq_eq_true (List.find?_some (p := fun m : RingMark => Nat.beq m.die d) found)
    exact ⟨.trans based (mine ▸ regsBut_rejoinRing m _), rfl⟩
  · exact ⟨based, rfl⟩

/-- The ring comes up, with DIE-START as its first record. -/
theorem ringUp_spec (d : Nat) (s : State) :
    (ringUp d s).rd d Reg.REC_STAGE_RING_UP = 1 ∧
      RegsBut ((d, Reg.REC_STAGE_RING_UP) :: ringFields d) s (ringUp d s) ∧
      ∃ w, (ringUp d s).recs.waiting = s.recs.waiting ++ [w] ∧ w.die = d ∧ w.typ = 0x010 := by
  obtain ⟨regs, waiting⟩ := ringFound_spec d s
  have up : ∃ lost : Nat, ∃ marks stageLost payload, ringUp d s = emit d 0 0x010 0 false payload
      ({ ringFound d s with recs := { (ringFound d s).recs with marks := marks, stageLost := stageLost } }.wr d
        Reg.REC_STAGE_RING_UP 1) := ⟨0, _, _, _, rfl⟩
  obtain ⟨-, marks, stageLost, payload, up⟩ := up
  rw [up]
  refine ⟨State.rd_wr_same _ d Reg.REC_STAGE_RING_UP 1, ?_, _, congrArg (· ++ [_]) waiting, rfl, rfl⟩
  exact .of_regs (.wr (.of_regs (regs.mono (List.subset_cons_self ..)) rfl) d Reg.REC_STAGE_RING_UP 1 (.head _)) rfl

/-- The failed channels are marked, and the ring comes up. -/
def trained (d : Nat) (failed : BitVec 24) (s : State) : State :=
  ringUp d (({ s with boot := { s.boot with selfRefresh := delNat s.boot.selfRefresh d } }.wr d
    Reg.DC_CHAN_FAIL failed.toNat).wr d Reg.REC_FAIL_CHAN (s.rd d Reg.REC_FAIL_CHAN ||| failed.toNat))

/-- BOOT-FAIL where a channel failed, and a DEGRADE record for each new one. -/
def trainingRecords (d : Nat) (failed : BitVec 24) (new : List Nat) (s : State) : State :=
  each new (fun s n => degrade d 0 0 1 n 0 s) (if failed.toNat = 0 then s else failRecord d 6 0 0 s)

theorem trainingRecords_spec (d : Nat) (failed : BitVec 24) (new : List Nat) (s : State) :
    (trainingRecords d failed new s).regs = s.regs ∧ (trainingRecords d failed new s).boot = s.boot ∧
      RecordsMore s (trainingRecords d failed new s) := by
  refine each_induction (f := fun s n => degrade d 0 0 1 n 0 s)
    (P := fun t => t.regs = s.regs ∧ t.boot = s.boot ∧ RecordsMore s t)
    (fun t n _ h => ⟨h.1, h.2.1, h.2.2.emit ..⟩) ?_
  split
  · exact ⟨rfl, rfl, [], (List.append_nil _).symm⟩
  · exact ⟨rfl, rfl, RecordsMore.emit (t := (s.free).2) ⟨[], (List.append_nil _).symm⟩ ..⟩

theorem completes_hbmTraining {s : State} {d : Nat} {failed : BitVec 24} (hd : d < dieCount s.orderCode)
    (ready : atStage s d 3 = true) (some_ : popCount 24 failed.toNat ≠ 24) (old : s.rd d Reg.REC_FAIL_CHAN < 2 ^ 24) :
    Completes (.hbmTraining d failed) s (fun t =>
      t.rd d Reg.DC_BOOT_STATUS_STAGE = 4 ∧ t.rd d Reg.DC_CHAN_FAIL = failed.toNat ∧
      t.rd d Reg.REC_FAIL_CHAN = s.rd d Reg.REC_FAIL_CHAN ||| failed.toNat ∧ t.rd d Reg.REC_STAGE_RING_UP = 1 ∧
      t.boot.selfRefresh.contains d = false ∧ t.slc.hbm = s.slc.hbm ∧
      (∃ w l, t.recs.waiting = s.recs.waiting ++ w :: l ∧ w.die = d ∧ w.typ = 0x010)) := by
  have trains : ∃ new, hbmTraining d failed s = stageDone d 4 (trainingRecords d failed new (trained d failed s)) := by
    refine ⟨(bitsOf 24 failed.toNat).filter (fun n => !(s.rd d Reg.REC_FAIL_CHAN).testBit n), ?_⟩
    rw [hbmTraining, if_pos ready]
    dsimp only
    rw [if_neg some_]
    rfl
  obtain ⟨new, trains⟩ := trains
  obtain ⟨up, ringRegs, w, waiting, die, typ⟩ := ringUp_spec d
    (({ s with boot := { s.boot with selfRefresh := delNat s.boot.selfRefresh d } }.wr d
      Reg.DC_CHAN_FAIL failed.toNat).wr d Reg.REC_FAIL_CHAN (s.rd d Reg.REC_FAIL_CHAN ||| failed.toNat))
  obtain ⟨regs, boot, more, records⟩ := trainingRecords_spec d failed new (trained d failed s)
  have kept := hbmTraining_keeps (F := { noFrame with regs := True, boot := True, recs := True }) trivial trivial
    trivial d failed (.refl _ s)
  have trainedBoot : (trained d failed s).boot.selfRefresh = delNat s.boot.selfRefresh d :=
    congrArg (·.selfRefresh) ((ringUp_keeps (F := { noFrame with regs := True, recs := True }) trivial trivial d
      (.refl _ _)).boot id)
  refine completes_of_onDie (execHbmTraining d failed s) rfl rfl hd ?_
  refine ⟨?_, ?_, ?_, ?_, ?_, kept.hbm id, ?_⟩
  · rw [trains, rd_stageDone]
    rfl
  · rw [trains, rd_stageDone_apart rfl, State.rd_of_regs regs, trained, ringRegs.rd_of_apart rfl,
      State.rd_wr_apart rfl, State.rd_wr_same]
    exact failed.toNat_mod_cancel
  · rw [trains, rd_stageDone_apart rfl, State.rd_of_regs regs, trained, ringRegs.rd_of_apart rfl, State.rd_wr_same]
    exact Nat.mod_eq_of_lt (Nat.or_lt_two_pow old failed.isLt)
  · rw [trains, rd_stageDone_apart rfl, State.rd_of_regs regs]
    exact up
  · rw [trains]
    show (trainingRecords d failed new (trained d failed s)).boot.selfRefresh.contains d = false
    rw [boot, trainedBoot]
    exact contains_delNat ..
  · rw [trains]
    refine ⟨w, more, records.trans ?_, die, typ⟩
    rw [trained, waiting, List.append_assoc]
    rfl

theorem completes_hbmTraining_of_none {s : State} {d : Nat} (hd : d < dieCount s.orderCode)
    (ready : atStage s d 3 = true) :
    Completes (.hbmTraining d 0xFFFFFF#24) s (fun t =>
      t.rd d Reg.DC_BOOT_STATUS_STAGE = 3 ∧ t.rd d Reg.DC_BOOT_STATUS_ERROR = 5 ∧
      t.rd d Reg.DC_CHAN_FAIL = 0xFFFFFF) := by
  obtain ⟨-, stage, -⟩ := atStage_iff.1 ready
  have stops : hbmTraining d 0xFFFFFF#24 s = bootFail d 6 5 0 ({ s with boot := { s.boot with
      selfRefresh := delNat s.boot.selfRefresh d } }.wr d Reg.DC_CHAN_FAIL 0xFFFFFF) := by
    rw [hbmTraining, if_pos ready]
    dsimp only
    exact if_pos rfl
  refine completes_of_onDie (execHbmTraining d 0xFFFFFF#24 s) rfl rfl hd ?_
  rw [stops]
  refine ⟨?_, rd_bootFail .., ?_⟩
  · rw [(regsBut_bootFail _ _ _ _ _).rd_of_apart rfl, State.rd_wr_apart rfl]
    exact stage
  · rw [(regsBut_bootFail _ _ _ _ _).rd_of_apart rfl, State.rd_wr_same]
    rfl

/-! ### Stage 7 (R90) -/

/-- The registers that the runtime firmware sets as it takes over. -/
def tuplesSet (d k : Nat) (c : FlashCopy) (s : State) : State :=
  let s := setCompat d 6 c.abi (setCompat d 5 c.format (setCompat d 2 c.compat (s.wr d Reg.DC_BOOT_STATUS_RUN_COPY k)))
  let s := (s.wr d Reg.IMG_FORMAT_FMT_MAJOR c.format.major).wr d Reg.IMG_FORMAT_FMT_MINOR c.format.minor
  s.wr d Reg.DC_CAPS (s.rd d Reg.DC_CAPS ||| ownCaps d)

theorem rd_tuplesSet {k : Nat} (hk : k < 2) (d : Nat) (c : FlashCopy) (s : State) :
    (tuplesSet d k c s).rd d Reg.DC_BOOT_STATUS_RUN_COPY = k ∧
      (tuplesSet d k c s).rd d (Reg.DC_COMPAT_MAJOR 2) = c.compat.major % 2 ^ 16 ∧
      (tuplesSet d k c s).rd d (Reg.DC_COMPAT_MAJOR 5) = c.format.major % 2 ^ 16 ∧
      (tuplesSet d k c s).rd d (Reg.DC_COMPAT_MAJOR 6) = c.abi.major % 2 ^ 16 := by
  simp only [tuplesSet, setCompat]
  simp (disch := decide) only [State.rd_wr_apart, State.rd_wr_same]
  exact ⟨Nat.mod_eq_of_lt hk, rfl, rfl, rfl⟩

/-- A die whose firmware pair is in no pairing table is held (R90). -/
def pairChecked (d : Nat) (pair : Bool) (s : State) : State :=
  if pair then s
  else { s.wr d Reg.DC_HOLD_HOLD_REASON 3 with boot := { s.boot with dieHold := bind_ d 3 s.boot.dieHold } }

theorem pairChecked_spec (d : Nat) (pair : Bool) (s : State) :
    RegsBut [(d, Reg.DC_HOLD_HOLD_REASON)] s (pairChecked d pair s) ∧ (pairChecked d pair s).img = s.img ∧
      (pair = false → look d (pairChecked d pair s).boot.dieHold = some 3 ∧
        (pairChecked d pair s).rd d Reg.DC_HOLD_HOLD_REASON = 3) ∧
      (pair = true → (pairChecked d pair s).boot.dieHold = s.boot.dieHold) := by
  cases pair
  · exact ⟨.of_regs (.wr (.refl _ s) d Reg.DC_HOLD_HOLD_REASON 3 (.head _)) rfl, rfl,
      fun _ => ⟨look_bind_same .., State.rd_wr_same s d Reg.DC_HOLD_HOLD_REASON 3⟩, nofun⟩
  · exact ⟨.refl _ s, rfl, nofun, fun _ => rfl⟩

/-- The kept image is kept on where its CRCs match. -/
theorem restageImage_spec (d : Nat) (keptOk : Bool) (s : State) :
    (restageImage d keptOk s).regs = s.regs ∧ (restageImage d keptOk s).boot = s.boot ∧
      (keptOk = false → look d (restageImage d keptOk s).img.kept = none) ∧
      (keptOk = true → (restageImage d keptOk s).img.kept = s.img.kept) := by
  unfold restageImage
  split
  next absent => exact ⟨rfl, rfl, fun _ => Option.isNone_iff_eq_none.1 absent, fun _ => rfl⟩
  · cases keptOk
    · exact ⟨rfl, rfl, fun _ => look_unbind_same .., nofun⟩
    · exact ⟨rfl, rfl, nofun, fun _ => rfl⟩

theorem completes_runtimeFirmwareHandover {s : State} {d k : Nat} {c : FlashCopy} {keptOk : Bool}
    (hd : d < dieCount s.orderCode) (ready : atStage s d 4 = true)
    (copy : firstCopy s d 1 (fun c => Nat.beq c.compat.major (compatOf s d 1).major) = some (k, c)) :
    Completes (.runtimeFirmwareHandover ⟨d, keptOk⟩) s (fun t =>
      (keptOk = false → look d t.img.kept = none) ∧ (keptOk = true → t.img.kept = s.img.kept) ∧
      t.rd d Reg.DC_BOOT_STATUS_STAGE = 5 ∧ t.rd d Reg.DC_BOOT_STATUS_RUN_COPY = k ∧
      t.rd d (Reg.DC_COMPAT_MAJOR 2) = c.compat.major % 2 ^ 16 ∧
      t.rd d (Reg.DC_COMPAT_MAJOR 5) = c.format.major % 2 ^ 16 ∧
      t.rd d (Reg.DC_COMPAT_MAJOR 6) = c.abi.major % 2 ^ 16 ∧
      (c.pairing.contains (compatOf s d 1, c.compat) = false → look d t.boot.dieHold = some 3 ∧
        t.rd d Reg.DC_HOLD_HOLD_REASON = 3) ∧
      (c.pairing.contains (compatOf s d 1, c.compat) = true → t.boot.dieHold = s.boot.dieHold)) := by
  generalize paired : c.pairing.contains (compatOf s d 1, c.compat) = pair
  have taken : runtimeHandover d keptOk s =
      stageDone d 5 (restageImage d keptOk (pairChecked d pair (tuplesSet d k c s))) := by
    rw [runtimeHandover, if_pos ready]
    dsimp only
    rw [copy, ← paired]
    rfl
  obtain ⟨run, two, five, six⟩ := rd_tuplesSet (firstCopy_lt copy) d c s
  obtain ⟨regs, img, held, free⟩ := pairChecked_spec d pair (tuplesSet d k c s)
  obtain ⟨sameRegs, sameBoot, dropped, kept⟩ := restageImage_spec d keptOk (pairChecked d pair (tuplesSet d k c s))
  have settled {f : Fld} (stage : f.apart Reg.DC_BOOT_STATUS_STAGE = true) :
      (runtimeHandover d keptOk s).rd d f = (pairChecked d pair (tuplesSet d k c s)).rd d f := by
    rw [taken, rd_stageDone_apart stage, State.rd_of_regs sameRegs]
  have boot : (runtimeHandover d keptOk s).boot.dieHold = (pairChecked d pair (tuplesSet d k c s)).boot.dieHold := by
    rw [taken]
    exact congrArg (·.dieHold) sameBoot
  refine completes_of_onDie (execRuntimeFirmwareHandover ⟨d, keptOk⟩ s) rfl rfl hd ⟨?_, fun ok => ?_, ?_, ?_, ?_, ?_,
    ?_, fun none => ⟨?_, ?_⟩, fun found => ?_⟩
  · rw [taken]
    exact dropped
  · rw [taken]
    exact (kept ok).trans (congrArg (·.kept) img)
  · rw [taken, rd_stageDone]
    rfl
  · rw [settled rfl, regs.rd_of_apart rfl, run]
  · rw [settled rfl, regs.rd_of_apart rfl, two]
  · rw [settled rfl, regs.rd_of_apart rfl, five]
  · rw [settled rfl, regs.rd_of_apart rfl, six]
  · rw [boot]
    exact (held none).1
  · rw [settled rfl, (held none).2]
  · rw [boot]
    exact free found

/-! ### Stage 8 (R91) -/

/-- The warden runs. -/
def wardenUp (d k : Nat) (c : FlashCopy) (s : State) : State :=
  (setCompat d 3 c.compat ((s.wr d Reg.DC_BOOT_STATUS_WARD_COPY k).wr d Reg.WARD_STATUS 1)).wrBit d Reg.DC_CAPS 2 true

theorem completes_wardenBoot {s : State} {d k : Nat} {c : FlashCopy} (hd : d < dieCount s.orderCode)
    (ready : atStage s d 5 = true) (copy : firstCopy s d 2 (fun _ => true) = some (k, c)) :
    Completes (.wardenBoot d) s (fun t =>
      t.rd d Reg.DC_BOOT_STATUS_STAGE = 6 ∧ t.rd d Reg.DC_BOOT_STATUS_WARD_COPY = k ∧ t.rd d Reg.WARD_STATUS = 1 ∧
      t.rdBit d Reg.DC_CAPS 2 = true) := by
  have boots : ∃ u, wardenBoot d s = stageDone d 6 u ∧ u.regs = (wardenUp d k c s).regs := by
    rw [wardenBoot, if_pos ready, copy]
    dsimp only
    refine ⟨_, rfl, ?_⟩
    split <;> rfl
  obtain ⟨u, boots, regs⟩ := boots
  refine completes_of_onDie (execWardenBoot d s) rfl rfl hd ?_
  rw [boots]
  refine ⟨rd_stageDone .., ?_, ?_, ?_⟩
  · rw [rd_stageDone_apart rfl, State.rd_of_regs regs, wardenUp, State.rd_wrBit_apart rfl,
      (regsBut_setCompat _ _ _ _).rd_of_apart rfl, State.rd_wr_apart rfl, State.rd_wr_same]
    exact Nat.mod_eq_of_lt (firstCopy_lt copy)
  · rw [rd_stageDone_apart rfl, State.rd_of_regs regs, wardenUp, State.rd_wrBit_apart rfl,
      (regsBut_setCompat _ _ _ _).rd_of_apart rfl, State.rd_wr_same]
    rfl
  · rw [State.rdBit, rd_stageDone_apart rfl, State.rd_of_regs regs]
    exact rdBit_wrBit_true _ d Reg.DC_CAPS (by decide)

theorem completes_wardenBoot_of_none {s : State} {d : Nat} (hd : d < dieCount s.orderCode)
    (ready : atStage s d 5 = true) (none : firstCopy s d 2 (fun _ => true) = none) :
    Completes (.wardenBoot d) s (fun t =>
      t.rd d Reg.DC_BOOT_STATUS_STAGE = 6 ∧ RegsBut [(d, Reg.DC_BOOT_STATUS_STAGE)] s t ∧
      HandsOver d 0 0x011 0 s t) := by
  have boots : wardenBoot d s = stageDone d 6 (failRecord d 8 0 1 s) := by rw [wardenBoot, if_pos ready, none]
  refine completes_of_onDie (execWardenBoot d s) rfl rfl hd ?_
  rw [boots]
  exact ⟨rd_stageDone .., .trans (.of_regs (.refl _ s) rfl) (regsBut_stageDone _ _ _),
    handsOver_emit (t := (s.free).2) d 0 0x011 0 false _ rfl⟩

/-! ### Stages 9 and 10 (R94, R99, R111) -/

theorem portUp_setPort_zero {k : Nat} (hk : k < 3) (d : Nat) (s : State) : portUp (setPort d k 0 s) d k = false := by
  rw [portUp, if_pos hk, setPort, if_pos hk]
  obtain rfl | rfl | rfl : k = 0 ∨ k = 1 ∨ k = 2 := by omega
  all_goals
    simp (disch := decide) only [State.rd_wr_apart, State.rd_wr_same]
    rfl

/-- A Toash-S port that comes up or goes down writes its own fields. -/
theorem regsBut_setPort {j : Nat} (hj : j < 3) (d width : Nat) (s : State) :
    RegsBut [(d, Reg.DC_CAPS), (d, Reg.MESH_TS_STATUS_UP j), (d, Reg.MESH_TS_STATUS_MODULES j),
      (d, Reg.MESH_TS_STATUS_PEER j)] s (setPort d j width s) := by
  rw [setPort, if_pos hj]
  exact .wr (.wr (.wr (.wrBit (.refl _ s) _ _ _ _ (by simp)) _ _ _ (by simp)) _ _ _ (by simp)) _ _ _ (by simp)

/-- A sibling's port that is reported down brings up no other. -/
theorem portUp_setPort_ne {k j : Nat} (hk : k < 3) (hj : j < 3) (ne : j ≠ k) (d : Nat) (s : State) :
    portUp (setPort d j 0 s) d k = portUp s d k := by
  rw [portUp, if_pos hk, portUp, if_pos hk, regsBut_setPort hj d 0 s d (Reg.MESH_TS_STATUS_UP k) fun x hx => ?_]
  simp only [List.mem_cons, List.not_mem_nil, or_false] at hx
  obtain rfl | rfl | rfl | rfl := hx
  all_goals
    simp only [Fld.key, Reg.DC_CAPS, Reg.MESH_TS_STATUS_UP, Reg.MESH_TS_STATUS_MODULES, Reg.MESH_TS_STATUS_PEER]
    omega

theorem completes_moduleRollCall {s : State} {d : Nat} {late : Bool} (hd : d < dieCount s.orderCode)
    (ready : atStage s d 6 = true)
    (complete : (∀ k, k < 3 → heard s d (siblingOf d k) = true) ∨ late = true ∧ s.boot.beaconed.contains d = true) :
    Completes (.moduleRollCall d late) s (fun t =>
      t.rd d Reg.DC_BOOT_STATUS_STAGE = 7 ∧
      ∀ k, k < 3 → heard s d (siblingOf d k) = false → portUp t d k = false) := by
  have ends : ([0, 1, 2].filter (fun k => !heard s d (siblingOf d k))).isEmpty = true ∨
      (late && s.boot.beaconed.contains d) = true := by
    obtain all | ⟨late, sent⟩ := complete
    · refine .inl (List.isEmpty_iff.2 (List.filter_eq_nil_iff.2 fun k hk => ?_))
      rw [all k (by simp at hk; omega)]
      simp
    · exact .inr (by rw [late, sent]; rfl)
  have called : moduleRollCall d late s = stageDone d 7
      (each ([0, 1, 2].filter (fun k => !heard s d (siblingOf d k))) (fun s k => setPort d k 0 s) s) := by
    refine if_pos ?_
    rw [ready, Bool.true_and, Bool.or_eq_true]
    exact ends
  refine completes_of_onDie (execModuleRollCall d late s) rfl rfl hd ?_
  rw [called]
  refine ⟨rd_stageDone .., fun k hk unheard => ?_⟩
  have down : portUp (each ([0, 1, 2].filter (fun k => !heard s d (siblingOf d k))) (fun s k => setPort d k 0 s) s)
      d k = false := by
    refine each_once (P := fun _ => True) (Q := fun t => portUp t d k = false) (d := k)
      (List.Nodup.filter _ (by decide)) (List.mem_filter.2 ⟨by simp; omega, by simp [unheard]⟩) (fun _ _ _ _ h => h)
      (fun t _ => portUp_setPort_zero hk d t) (fun t j hj ne h => ?_) trivial
    have small : j < 3 := by
      have := (List.mem_filter.1 hj).1
      simp at this
      omega
    rw [portUp_setPort_ne hk small ne]
    exact h
  rw [portUp, if_pos hk] at down ⊢
  rw [← down]
  obtain rfl | rfl | rfl : k = 0 ∨ k = 1 ∨ k = 2 := by omega
  all_goals rw [rd_stageDone_apart rfl]

theorem completes_masterElection {s : State} {d : Nat} (hd : d < dieCount s.orderCode) (ready : atStage s d 7 = true)
    (unaligned : s.rd d Reg.DC_RTIME_STATUS_ALIGNED = 0) (linked : overLink s d = true) (alone : mastersHeard s d = [])
    (lowest : ∀ r ∈ s.boot.roll, r.observer = d → d ≤ r.die) (opened : s.boot.censusOpen = true) :
    Completes (.masterElection d) s (fun t =>
      t.rd d Reg.DC_RTIME_STATUS_MASTER = 1 ∧ t.rd d Reg.DC_RTIME_STATUS_ALIGNED = 1 ∧
      t.rd d Reg.DC_BOOT_STATUS_STAGE = 8 ∧
      RegsBut [(d, Reg.DC_RTIME_STATUS_MASTER), (d, Reg.DC_RTIME_STATUS_ALIGNED), (d, Reg.DC_BOOT_STATUS_STAGE)] s
        t) := by
  obtain ⟨up, stage, noError⟩ := atStage_iff.1 ready
  have lower : s.boot.roll.any (fun r => Nat.beq r.observer d && Nat.blt r.die d) = false := by
    rw [List.any_eq_false]
    intro r hr
    simp only [Bool.and_eq_true, Nat.beq_eq, Nat.blt_eq, not_and, Nat.not_lt]
    exact lowest r hr
  have master : RegsBut [(d, Reg.DC_RTIME_STATUS_MASTER), (d, Reg.DC_RTIME_STATUS_ALIGNED)] s (setMaster d s) :=
    .of_regs (.wr (.wr (.refl _ s) d Reg.DC_RTIME_STATUS_MASTER 1 (by simp)) d Reg.DC_RTIME_STATUS_ALIGNED 1
      (by simp)) rfl
  have still : atStage (setMaster d s) d 7 = true :=
    atStage_iff.2 ⟨up, (master.rd_of_apart rfl d).trans stage, (master.rd_of_apart rfl d).trans noError⟩
  have elected : masterElection d s = rejoinRecord d (stageDone d 8 (setMaster d s)) := by
    have chosen : masterElection d s = stage10 d (setMaster d s) := by
      refine if_pos ?_
      rw [up, stage, noError, unaligned, linked, alone, lower]
      rfl
    have unclosed : (rejoinRecord d (stageDone d 8 (setMaster d s))).boot.censusOpen = true :=
      (congrArg (·.censusOpen) ((rejoinRecord_keeps (F := { noFrame with recs := True }) trivial d
        (.refl _ (stageDone d 8 (setMaster d s)))).boot id)).trans opened
    rw [chosen, stage10, if_pos still]
    dsimp only
    rw [if_pos unclosed]
  have regs : (masterElection d s).regs = (stageDone d 8 (setMaster d s)).regs := by
    rw [elected]
    exact (rejoinRecord_keeps (F := { noFrame with recs := True }) trivial d (.refl _ _)).regs id
  refine completes_of_onDie (execMasterElection d s) rfl rfl hd ⟨?_, ?_, ?_, ?_⟩
  · rw [State.rd_of_regs regs, rd_stageDone_apart rfl]
    exact (State.rd_wr_apart (f := Reg.DC_RTIME_STATUS_ALIGNED) rfl _ d d 1).trans
      (State.rd_wr_same s d Reg.DC_RTIME_STATUS_MASTER 1)
  · rw [State.rd_of_regs regs, rd_stageDone_apart rfl]
    exact State.rd_wr_same _ d Reg.DC_RTIME_STATUS_ALIGNED 1
  · rw [State.rd_of_regs regs, rd_stageDone]
    rfl
  · exact .of_regs (.trans (master.mono (by simp)) ((regsBut_stageDone d 8 _).mono (by simp))) regs

theorem completes_stageTimeout {s : State} {d : Nat} (hd : d < dieCount s.orderCode) (up : dieUp s d = true)
    (noError : s.rd d Reg.DC_BOOT_STATUS_ERROR = 0) (early : s.rd d Reg.DC_BOOT_STATUS_STAGE < 8) :
    Completes (.stageTimeout d) s (fun t =>
      t.rd d Reg.DC_BOOT_STATUS_ERROR =
        (if s.rd d Reg.DC_BOOT_STATUS_STAGE = 7 ∧ portUp s d 3 = false ∧ portUp s d 4 = false then 7 else 8) ∧
      HandsOver d 0 0x011 0 s t ∧ RegsBut [(d, Reg.DC_BOOT_STATUS_ERROR)] s t) := by
  have stops : stageTimeout d s = bootFail d 10
      (if s.rd d Reg.DC_BOOT_STATUS_STAGE = 7 && !portUp s d 3 && !portUp s d 4 then 7 else 8) 0 s := by
    refine if_pos ?_
    rw [up, noError, (Nat.blt_eq ▸ early : Nat.blt _ 8 = true)]
    rfl
  refine completes_of_onDie (execStageTimeout d s) rfl rfl hd ?_
  rw [stops]
  refine ⟨?_, handsOver_bootFail d 10 _ 0 rfl, regsBut_bootFail _ _ _ _ _⟩
  rw [rd_bootFail]
  simp only [Bool.and_eq_true, decide_eq_true_eq, Bool.not_eq_true', and_assoc]
  split <;> rfl

/-- Settles O26: a kept copy whose CRCs do not match is dropped as the runtime firmware takes over (log 98). -/
theorem trainingToRollCall : Obligations.TrainingToRollCall :=
  ⟨⟨fun _ _ _ hd ready trains old => completes_hbmTraining hd ready trains old,
      fun _ _ hd ready => completes_hbmTraining_of_none hd ready,
      fun _ _ _ _ _ hd ready copy => completes_runtimeFirmwareHandover hd ready copy,
      fun _ _ _ _ hd ready copy => completes_wardenBoot hd ready copy,
      fun _ _ hd ready none => completes_wardenBoot_of_none hd ready none⟩,
    fun _ _ _ hd ready complete => completes_moduleRollCall hd ready complete,
    fun _ _ hd ready unaligned linked alone lowest opened =>
      completes_masterElection hd ready unaligned linked alone lowest opened,
    fun _ _ hd up noError early => completes_stageTimeout hd up noError early⟩

end Sys2Proof.Machine
end

section
/-! PROOFS. Beacons and DEAD notices (R92, R93, R95). -/

namespace Sys2Proof.Machine

theorem dieCount_le (o : OrderCode) : dieCount o ≤ 64 := by
  cases o <;> decide

/-- A die observes where it is up. -/
theorem agentUp_of_die {s : State} {a : Nat} (small : a < 64) (up : dieUp s a = true) : agentUp s a = true := by
  rw [agentUp, if_pos small, up]

/-! ### Beacons sent (R92) -/

/-- A frame queued leaves the control messages. -/
theorem ctl_queueFrame (d port : Nat) (bytes : List Byte) (s : State) :
    (queueFrame d port bytes s).net.ctl = s.net.ctl := rfl

theorem ctl_each_sendCtl (a kind : Nat) (bytes : List Byte) (l : List Nat) (s : State) :
    (each l (fun s k => sendCtl a k kind bytes s) s).net.ctl =
      s.net.ctl ++ l.map (fun k => ⟨a, k, none, kind, bytes⟩) := by
  induction l generalizing s with
  | nil => exact (List.append_nil _).symm
  | cons k l ih =>
    refine (ih (sendCtl a k kind bytes s)).trans ?_
    rw [sendCtl, ctl_queueFrame, List.append_assoc]
    rfl

theorem completes_beaconSend {s : State} {d : Nat} (hd : d < dieCount s.orderCode) (up : dieUp s d = true)
    (stage : 6 ≤ s.rd d Reg.DC_BOOT_STATUS_STAGE) :
    Completes (.beaconSend 0 d) s (fun t =>
      t.net.ctl = s.net.ctl ++
        ([0, 1, 2, 3, 4].filter (portUp s d)).map (fun k => ⟨d, k, none, 0, (dieBeacon s d).bytes⟩) ∧
      SMap.get 0 t.boot.beaconSeq (beaconKey 0 d) = (SMap.get 0 s.boot.beaconSeq (beaconKey 0 d) + 1) % 65536 ∧
      t.regs = s.regs) := by
  have small : d < 64 := Nat.lt_of_lt_of_le hd (dieCount_le _)
  have sent : (sendAll d 0 (dieBeacon s d).bytes (beaconCount 0 d s)).net.ctl = s.net.ctl ++
      ([0, 1, 2, 3, 4].filter (portUp s d)).map (fun k => ⟨d, k, none, 0, (dieBeacon s d).bytes⟩) := by
    rw [sendAll, if_pos small, ctl_each_sendCtl]
    rfl
  have kept := sendAll_keeps (F := { noFrame with net := True }) trivial d 0 (dieBeacon s d).bytes
    (.refl _ (beaconCount 0 d s))
  have seq : SMap.get 0 (sendAll d 0 (dieBeacon s d).bytes (beaconCount 0 d s)).boot.beaconSeq (beaconKey 0 d) =
      (SMap.get 0 s.boot.beaconSeq (beaconKey 0 d) + 1) % 65536 := by
    rw [kept.boot id]
    exact SMap.get_set_same ..
  refine completes_of_next (execBeaconSend 0 d s) rfl rfl ?_
  have sends : (decide (d < dieCount s.orderCode) && dieUp s d &&
      Nat.ble 6 (s.rd d Reg.DC_BOOT_STATUS_STAGE)) = true := by
    rw [decide_eq_true hd, up, Nat.ble_eq_true_of_le stage]
    rfl
  simp only [beaconSend, sends, if_true]
  split
  · exact ⟨sent, seq, kept.regs id⟩
  · exact ⟨sent, seq, kept.regs id⟩

/-! ### Beacons received (R93) -/

theorem mem_putWhere {α : Type} (p : α → Bool) (x : α) (l : List α) : x ∈ putWhere p x l := by
  induction l with
  | nil => exact .head _
  | cons y l ih =>
    rw [putWhere]
    split
    · exact .head _
    · exact .tail _ ih

/-- A beacon at a die that is no master: its row, and the sender's bit of DC_ROLL. -/
theorem hearDie_of_follower {s : State} {o port : Nat} {b : BeaconMsg} (small : o < 64)
    (follower : s.rd o Reg.DC_RTIME_STATUS_MASTER = 0) :
    ∃ row : RollRow, hearDie o port b s = { s with boot := { s.boot with
        roll := putWhere (fun r => Nat.beq r.observer o && Nat.beq r.die b.agent) row s.boot.roll } }.wrBit o
          Reg.DC_ROLL b.agent true ∧
      row.observer = o ∧ row.die = b.agent ∧ row.missed = 0 ∧ row.incarn = b.incarn ∧ row.stage = b.stage := by
  refine ⟨⟨o, b.agent, 0, b.incarn, b.stage, b.flags.testBit 1, b.flags.testBit 0, b.rtime,
    if 3 ≤ port then addNat (((s.boot.roll.find? (fun r => Nat.beq r.observer o && Nat.beq r.die b.agent)).map
      (·.overL)).getD []) port
    else ((s.boot.roll.find? (fun r => Nat.beq r.observer o && Nat.beq r.die b.agent)).map (·.overL)).getD []⟩, ?_, rfl,
    rfl, rfl, rfl, rfl⟩
  rw [hearDie, if_pos small]
  dsimp only
  rw [State.rd_wrBit_apart rfl]
  refine if_neg ?_
  show ¬((b.flags.testBit 1 && Nat.blt b.agent o && (s.rd o Reg.DC_RTIME_STATUS_MASTER == 1)) = true)
  rw [follower]
  simp

theorem completes_beacon {s : State} {o port : Nat} {bytes : List Byte} {b : BeaconMsg} (small : o < 64)
    (up : dieUp s o = true) (parsed : parseBeacon bytes = some b) (kind : b.kind = 0)
    (agent : b.agent < dieCount s.orderCode) (lives : look b.agent s.boot.dead = none)
    (follower : s.rd o Reg.DC_RTIME_STATUS_MASTER = 0) :
    Completes (.beacon o port bytes) s (fun t =>
      t.rdBit o Reg.DC_ROLL b.agent = true ∧ RegsBut [(o, Reg.DC_ROLL)] s t ∧
      ∃ r ∈ t.boot.roll, r.observer = o ∧ r.die = b.agent ∧ r.missed = 0 ∧ r.incarn = b.incarn ∧
        r.stage = b.stage) := by
  have heard : beacon o port bytes s = hearDie o port b s := by
    have outside : ¬(decide (64 ≤ o) = true) := by simpa using small
    have fits : beaconFits s o b = true := by
      rw [beaconFits, kind]
      exact Nat.blt_eq ▸ agent
    simp only [beacon, agentUp_of_die small up, parsed, kind, fits, lives, Bool.not_true, Bool.false_eq_true, if_false,
      outside, Bool.false_and, ne_eq, not_true_eq_false, forwardBeacon, decide_eq_true small, Bool.true_or, if_true]
  obtain ⟨row, entered, observer, die, missed, incarn, stage⟩ :=
    hearDie_of_follower (port := port) (b := b) small follower
  refine completes_of_next (execBeacon o port bytes s) rfl rfl ?_
  rw [heard, entered]
  refine ⟨rdBit_wrBit_true _ o Reg.DC_ROLL (Nat.lt_of_lt_of_le agent (dieCount_le _)),
    .wrBit (.of_regs (.refl _ s) rfl) _ _ _ _ (.head _), row, ?_, observer, die, missed, incarn, stage⟩
  exact mem_putWhere ..

theorem completes_beacon_of_bad {s : State} {o port : Nat} {bytes : List Byte} (small : o < 64)
    (up : dieUp s o = true) (bad : parseBeacon bytes = none) :
    Completes (.beacon o port bytes) s (fun t =>
      t.rd o Reg.DC_BEACON_DROP = min (s.rd o Reg.DC_BEACON_DROP + 1) (2 ^ 32 - 1) ∧
      RegsBut [(o, Reg.DC_BEACON_DROP)] s t ∧ t.boot = s.boot) := by
  have dropped : beacon o port bytes s = s.count o Reg.DC_BEACON_DROP 1 := by
    simp only [beacon, agentUp_of_die small up, bad, Bool.not_true, Bool.false_eq_true, if_false, beaconDrop, small,
      if_true]
  refine completes_of_next (execBeacon o port bytes s) rfl rfl ?_
  rw [dropped]
  exact ⟨State.rd_count_same .., .count (.refl _ s) _ _ _ (.head _), rfl⟩

/-! ### The dead stay dead -/

/-- The dead dies and the agents told of them are those of `s`. -/
def DeathsAs (s t : State) : Prop := t.boot.dead = s.boot.dead ∧ t.boot.notices = s.boot.notices

theorem DeathsAs.trans {s t u : State} (h : DeathsAs s t) (k : DeathsAs t u) : DeathsAs s u :=
  ⟨k.1.trans h.1, k.2.trans h.2⟩

theorem DeathsAs.of_boot {s t : State} (h : t.boot = s.boot) : DeathsAs s t := ⟨by rw [h], by rw [h]⟩

theorem deathsAs_each {α : Type} {f : State → α → State} (same : ∀ s x, DeathsAs s (f s x)) (l : List α) (s : State) :
    DeathsAs s (each l f s) := each_induction (P := DeathsAs s) (fun t x _ h => h.trans (same t x)) ⟨rfl, rfl⟩

/-! ### Joining the rack -/

/-- Only fields that stand where one of `touch` stands, on whatever die, may change. -/
def FieldsBut (touch : List Fld) (s t : State) : Prop :=
  ∀ d f, touch.all f.apart = true → t.rd d f = s.rd d f

theorem FieldsBut.trans {touch : List Fld} {s t u : State} (h : FieldsBut touch s t) (k : FieldsBut touch t u) :
    FieldsBut touch s u := fun d f apart => (k d f apart).trans (h d f apart)

theorem FieldsBut.of_regs {touch : List Fld} {s t : State} (h : t.regs = s.regs) : FieldsBut touch s t :=
  fun d f _ => State.rd_of_regs h d f

theorem FieldsBut.wr {touch : List Fld} {s t : State} (h : FieldsBut touch s t) (d : Nat) {g : Fld} (v : Nat)
    (hg : g ∈ touch) : FieldsBut touch s (t.wr d g v) :=
  fun e f apart => (State.rd_wr_apart (List.all_eq_true.1 apart g hg) t d e v).trans (h e f apart)

theorem FieldsBut.ite {touch : List Fld} {s t u : State} {c : Prop} [Decidable c] (h : c → FieldsBut touch s t)
    (k : ¬c → FieldsBut touch s u) : FieldsBut touch s (if c then t else u) := by
  split
  next yes => exact h yes
  next no => exact k no

theorem FieldsBut.each {α : Type} {touch : List Fld} {f : State → α → State} (same : ∀ s x, FieldsBut touch s (f s x))
    (l : List α) (s : State) : FieldsBut touch s (each l f s) :=
  each_induction (P := FieldsBut touch s) (fun t x _ h => h.trans (same t x)) (.of_regs rfl)

/-- What every die shows of the census, and the stages that it completes. -/
def censusFields : List Fld :=
  [Reg.DC_COMBO, Reg.DC_CAPS_ACTIVE, Reg.DC_HOLD_HOLD_REASON, Reg.DC_HOLD_UNQUALIFIED, Reg.DC_CAPS,
    Reg.DC_COMPAT_ACTIVE 0, Reg.DC_COMPAT_ACTIVE 1, Reg.DC_COMPAT_ACTIVE 2, Reg.DC_COMPAT_ACTIVE 3,
    Reg.DC_COMPAT_ACTIVE 4, Reg.DC_COMPAT_ACTIVE 5, Reg.DC_COMPAT_ACTIVE 6, Reg.DC_BOOT_STATUS_STAGE]

theorem fieldsBut_showCensus (s : State) : FieldsBut censusFields s (showCensus s) := by
  have minors (d : Nat) (least : Nat → Nat) (u : State) :
      FieldsBut censusFields u (each (List.range 7) (fun s n => s.wr d (Reg.DC_COMPAT_ACTIVE n) (least n)) u) := by
    refine each_induction (P := FieldsBut censusFields u) (fun t n hn h => h.wr d _ ?_) (.of_regs rfl)
    have small := List.mem_range.1 hn
    obtain rfl | rfl | rfl | rfl | rfl | rfl | rfl : n = 0 ∨ n = 1 ∨ n = 2 ∨ n = 3 ∨ n = 4 ∨ n = 5 ∨ n = 6 := by omega
    all_goals simp [censusFields]
  unfold showCensus
  refine FieldsBut.each (fun u d => ?_) _ s
  refine FieldsBut.trans ?_ (minors d _ _)
  have first (caps hold unqualified : Nat) : FieldsBut censusFields u ((((u.wr d Reg.DC_COMBO
      (comboDigest (combo s))).wr d Reg.DC_CAPS_ACTIVE caps).wr d Reg.DC_HOLD_HOLD_REASON hold).wr
      d Reg.DC_HOLD_UNQUALIFIED unqualified) :=
    ((((FieldsBut.of_regs rfl).wr d _ (by simp [censusFields])).wr d _ (by simp [censusFields])).wr d _
      (by simp [censusFields])).wr d _ (by simp [censusFields])
  exact FieldsBut.ite (fun _ => (first _ _ _).wr d _ (by simp [censusFields])) (fun _ => first _ _ _)

/-- The deaths, the exchanges and who follows whom are those of `s`, and only what shows the census may change. -/
structure JoinAs (s t : State) : Prop where
  dead : t.boot.dead = s.boot.dead
  notices : t.boot.notices = s.boot.notices
  follows : t.boot.follows = s.boot.follows
  exch : t.boot.exch = s.boot.exch
  fields : FieldsBut censusFields s t

theorem JoinAs.trans {s t u : State} (h : JoinAs s t) (k : JoinAs t u) : JoinAs s u :=
  ⟨k.dead.trans h.dead, k.notices.trans h.notices, k.follows.trans h.follows, k.exch.trans h.exch,
    h.fields.trans k.fields⟩

theorem JoinAs.of_boot {s t : State} (h : t.boot = s.boot) (fields : FieldsBut censusFields s t) : JoinAs s t :=
  ⟨by rw [h], by rw [h], by rw [h], by rw [h], fields⟩

theorem JoinAs.refl (s : State) : JoinAs s s := ⟨rfl, rfl, rfl, rfl, .of_regs rfl⟩

theorem JoinAs.deaths {s t : State} (h : JoinAs s t) : DeathsAs s t := ⟨h.dead, h.notices⟩

theorem joinAs_each {α : Type} {f : State → α → State} (same : ∀ s x, JoinAs s (f s x)) (l : List α) (s : State) :
    JoinAs s (each l f s) := each_induction (P := JoinAs s) (fun t x _ h => h.trans (same t x)) (.refl s)

theorem joinAs_showCensus (s : State) : JoinAs s (showCensus s) :=
  .of_boot ((showCensus_keeps (F := { noFrame with regs := True }) trivial (.refl _ s)).boot id)
    (fieldsBut_showCensus s)

theorem joinAs_holdRecord (reason : Nat) (l : List Nat) (s : State) : JoinAs s (holdRecord reason l s) :=
  have kept := holdRecord_keeps (F := { noFrame with recs := True }) trivial reason l (.refl _ s)
  .of_boot (kept.boot id) (.of_regs (kept.regs id))

/-- A stage written on a die. -/
theorem joinAs_stage (d code : Nat) (s : State) : JoinAs s (s.wr d Reg.DC_BOOT_STATUS_STAGE code) :=
  .of_boot rfl ((FieldsBut.of_regs rfl).wr d code (by simp [censusFields]))

/-- HOLD and ready as an evaluation finds them. -/
def heldFor (reason : Nat) (s : State) : State :=
  { s with boot := { s.boot with
    hold := reason, ready := Nat.beq reason 0, dieHold := s.boot.dieHold.filter (fun x => !(Nat.beq x.2 1)) } }

/-- What an evaluation of the census finds (R105). -/
def holdReason (s : State) : Nat :=
  if majorsDiffer (allTuples s) then 1
  else if !s.boot.accepted.contains (BitVec.ofNat 32 (comboDigest (comboOf s s.boot.census))) &&
      (s.boot.dieHold.any (fun x => s.boot.census.any (fun r => Nat.beq r.die x.1)) ||
        !tested s (comboOf s s.boot.census)) then 2
  else 0

/-- The record of a HOLD, where there is one. -/
def holdNoted (s : State) : State :=
  if holdReason s = 0 then s else holdRecord (holdReason s) (comboOf s s.boot.census) s

/-- The dies of the census show the evaluation in STAGE. -/
def stagesShown (reason : Nat) (s : State) : State :=
  each s.boot.census (fun s r =>
    if dieUp s r.die && Nat.ble 8 (s.rd r.die Reg.DC_BOOT_STATUS_STAGE) &&
        Nat.blt (s.rd r.die Reg.DC_BOOT_STATUS_STAGE) 12 then
      s.wr r.die Reg.DC_BOOT_STATUS_STAGE (if reason = 0 then 11 else 10)
    else s) s

theorem evaluateCensus_eq (s : State) :
    evaluateCensus s = showCensus (stagesShown (holdReason s) (heldFor (holdReason s) (holdNoted s))) := rfl

theorem joinAs_holdNoted (s : State) : JoinAs s (holdNoted s) := by
  unfold holdNoted
  split
  · exact .refl s
  · exact joinAs_holdRecord ..

theorem joinAs_stagesShown (reason : Nat) (s : State) : JoinAs s (stagesShown reason s) := by
  unfold stagesShown
  refine joinAs_each (fun u r => ?_) _ s
  split
  · exact joinAs_stage ..
  · exact .refl u

theorem joinAs_evaluateCensus (s : State) : JoinAs s (evaluateCensus s) := by
  rw [evaluateCensus_eq]
  exact (joinAs_holdNoted s).trans (JoinAs.trans (t := heldFor (holdReason s) (holdNoted s))
    ⟨rfl, rfl, rfl, rfl, .of_regs rfl⟩ ((joinAs_stagesShown ..).trans (joinAs_showCensus _)))

theorem joinAs_rmJoin (d : Nat) (s : State) : JoinAs s (rmJoin d s) := by
  have held (reason : Nat) (u : State) : JoinAs u (holdDie d reason u) :=
    JoinAs.trans (t := { u with boot := { u.boot with dieHold := bind_ d reason u.boot.dieHold } })
      ⟨rfl, rfl, rfl, rfl, .of_regs rfl⟩ (joinAs_holdRecord reason _ _)
  have enrolled : JoinAs s (enroll d (ptFetch d s)) :=
    have kept := ptFetch_keeps (F := { noFrame with host := True }) trivial d (.refl _ s)
    JoinAs.trans (.of_boot (kept.boot id) (.of_regs (kept.regs id))) ⟨rfl, rfl, rfl, rfl, .of_regs rfl⟩
  have staged (u : State) : JoinAs u (if u.boot.ready then u.wr d Reg.DC_BOOT_STATUS_STAGE 11 else u) := by
    split
    · exact joinAs_stage ..
    · exact .refl u
  unfold rmJoin
  dsimp only
  generalize enroll d (ptFetch d s) = u at enrolled ⊢
  refine enrolled.trans ?_
  split
  · exact joinAs_evaluateCensus u
  · refine JoinAs.trans ?_ ((staged _).trans (joinAs_showCensus _))
    split
    · exact held 1 u
    · split
      · exact joinAs_holdRecord 3 _ u
      · split
        · exact .refl u
        · exact held 2 u

theorem joinAs_rejoinRecord (d : Nat) (s : State) : JoinAs s (rejoinRecord d s) :=
  have kept := rejoinRecord_keeps (F := { noFrame with recs := True }) trivial d (.refl _ s)
  .of_boot (kept.boot id) (.of_regs (kept.regs id))

theorem joinAs_stage10 (d : Nat) (s : State) : JoinAs s (stage10 d s) := by
  have rejoined : JoinAs s (rejoinRecord d (stageDone d 8 s)) :=
    JoinAs.trans (t := stageDone d 8 s) (JoinAs.trans (joinAs_stage d 8 s) ⟨rfl, rfl, rfl, rfl, .of_regs rfl⟩)
      (joinAs_rejoinRecord d _)
  unfold stage10
  split
  · dsimp only
    split
    · exact rejoined
    · exact rejoined.trans (joinAs_rmJoin d _)
  · exact .refl s

/-! ### A death -/

theorem deathsAs_masterDies (x : Nat) (s : State) : DeathsAs s (masterDies x s) := by
  unfold masterDies
  dsimp only
  split
  · exact ⟨rfl, rfl⟩
  · split
    · exact ⟨rfl, rfl⟩
    next m _ =>
      refine DeathsAs.trans (t := setMaster m { s with boot := { s.boot with exch := [] } }) ⟨rfl, rfl⟩ ?_
      exact (joinAs_stage10 m _).deaths.trans ⟨rfl, rfl⟩

/-- A die marked as dead stands among the dead with its INCARNATION; nobody has been told of it yet. -/
theorem markDead_spec (x inc : Nat) (s : State) :
    (markDead x inc s).boot.dead = bind_ x inc s.boot.dead ∧ (markDead x inc s).boot.notices = s.boot.notices := by
  have shown (u : State) : DeathsAs u (if u.boot.censusOpen then u else showCensus u) := by
    split
    · exact ⟨rfl, rfl⟩
    · exact (joinAs_showCensus u).deaths
  have left (u : State) : DeathsAs u (loadLosesDie x u) :=
    .of_boot ((loadLosesDie_keeps (F := { noFrame with regs := True, img := True, recs := True })
      trivial trivial trivial x (.refl _ u)).boot id)
  have mastered (b : Bool) (u : State) : DeathsAs u (if b then masterDies x u else u) := by
    split
    · exact deathsAs_masterDies x u
    · exact ⟨rfl, rfl⟩
  have cleared (u : State) : DeathsAs u (each (allDies u) (fun s d => s.wrBit d Reg.DC_ROLL x false) u) :=
    deathsAs_each (f := fun s d => s.wrBit d Reg.DC_ROLL x false) (fun _ _ => ⟨rfl, rfl⟩) _ u
  exact (cleared _).trans ((shown _).trans ((mastered _ _).trans (left _)))

/-- An agent that acts on a notice remembers it; its reclamation and the faults leave the deaths. -/
theorem agentDead_spec {a : Nat} (x inc seq : Nat) (s : State) :
    (agentDead a x inc seq s).boot.dead = s.boot.dead ∧
      (agentDead a x inc seq s).boot.notices = s.boot.notices ++ [(a, x)] := by
  have reclaimed (u : State) : DeathsAs u (cohDead a x inc u) :=
    .of_boot ((cohDead_keeps (F := { faultFrame with net := True }) trivial trivial trivial trivial trivial trivial
      trivial trivial trivial trivial trivial a x inc (.refl _ u)).boot id)
  have faulted (ps : List Nat) (u : State) : DeathsAs u (each ps (fun s p => partFault p 0x01 a 0x013 seq s) u) :=
    deathsAs_each (f := fun s p => partFault p 0x01 a 0x013 seq s)
      (fun s p => .of_boot ((partFault_keeps_rest p 0x01 a 0x013 seq s).boot id)) ps u
  unfold agentDead
  dsimp only
  split
  · exact (reclaimed _).trans (faulted _ _)
  · exact ⟨rfl, rfl⟩

/-! ### Slots missed and notices (R95) -/

/-- A die declared dead stands among the dead, and its observer has taken notice. -/
theorem declareDead_spec (o x inc last : Nat) (s : State) :
    (declareDead o x inc last s).boot.dead = bind_ x inc s.boot.dead ∧
      (declareDead o x inc last s).boot.notices = s.boot.notices ++ [(o, x)] := by
  have told (u : State) : DeathsAs u (tellAll o 1 (deadBytes x inc) u) :=
    .of_boot ((tellAll_keeps (F := { noFrame with net := True }) trivial o 1 _ (.refl _ u)).boot id)
  have noted (payload : List PF) : DeathsAs s (agentEmit o 0x013 3 false payload s) :=
    .of_boot ((agentEmit_keeps (F := { noFrame with recs := True }) trivial o 0x013 3 false payload
      (.refl _ s)).boot id)
  unfold declareDead
  dsimp only
  generalize (if o < 64 then nextSeq s o else s.recs.rackSeq) = seq
  have noted := noted [pf 1 x, pf 1 o, pf 2 inc, pf 4 0, pa_ 8 last]
  generalize agentEmit o 0x013 3 false [pf 1 x, pf 1 o, pf 2 inc, pf 4 0, pa_ 8 last] s = u at noted ⊢
  obtain ⟨dead, notices⟩ := agentDead_spec (a := o) x inc seq (tellAll o 1 (deadBytes x inc) (markDead x inc u))
  obtain ⟨toldDead, toldNotices⟩ := told (markDead x inc u)
  obtain ⟨marked, unmarked⟩ := markDead_spec x inc u
  rw [dead, notices, toldDead, toldNotices, marked, unmarked, noted.1, noted.2]
  exact ⟨rfl, rfl⟩

theorem completes_beaconSlotMissed {s : State} {o d : Nat} {r : RollRow} (small : o < 64) (up : dieUp s o = true)
    (row : s.boot.roll.find? (fun r => Nat.beq r.observer o && Nat.beq r.die d) = some r) :
    Completes (.beaconSlotMissed o 0 d) s (fun t =>
      (r.missed < 2 → t.regs = s.regs ∧
        t.boot.roll.find? (fun r => Nat.beq r.observer o && Nat.beq r.die d) = some { r with missed := r.missed + 1 }) ∧
      (r.missed = 2 → look d t.boot.dead = some r.incarn ∧ t.boot.notices.contains (o, d) = true)) := by
  have missed : beaconSlotMissed o 0 d s = if r.missed < 2 then { s with boot := { s.boot with
      roll := putWhere (fun r => Nat.beq r.observer o && Nat.beq r.die d) { r with missed := r.missed + 1 }
        s.boot.roll } }
      else declareDead o d r.incarn r.lastRtime s := by
    simp only [beaconSlotMissed, agentUp_of_die small up, Bool.not_true, Bool.false_eq_true, if_false, if_true, row]
  refine completes_of_next (execBeaconSlotMissed o 0 d s) rfl rfl ?_
  rw [missed]
  refine ⟨fun early => ?_, fun third => ?_⟩
  · rw [if_pos early]
    exact ⟨rfl, find?_putWhere_same _ (List.find?_some row :)⟩
  · rw [if_neg (by omega)]
    obtain ⟨dead, notices⟩ := declareDead_spec o d r.incarn r.lastRtime s
    rw [dead, notices]
    exact ⟨look_bind_same .., by simp⟩

theorem completes_deadNotice {s : State} {a d : Nat} {inc : BitVec 16} (hd : d < dieCount s.orderCode) (small : a < 64)
    (other : a ≠ d) (up : dieUp s a = true) (fresh : s.boot.notices.contains (a, d) = false)
    (known : (look d s.boot.dead).isSome = true) :
    Completes (.deadNotice a d inc) s (fun t =>
      t.boot.notices = s.boot.notices ++ [(a, d)] ∧ t.boot.dead = s.boot.dead) := by
  have acts : deadNotice a d inc s = agentDead a d inc.toNat 0 s := by
    have alive : (look d s.boot.dead).isNone = false := by
      rw [Option.isNone_eq_false_iff, known]
    simp only [deadNotice, other, agentUp_of_die small up, fresh, alive, if_false, Bool.not_true, Bool.or_self,
      Bool.false_eq_true]
  refine completes_of_onDie (execDeadNotice a d inc s) rfl rfl hd ?_
  rw [acts]
  obtain ⟨dead, notices⟩ := agentDead_spec (a := a) d inc.toNat 0 s
  exact ⟨notices, dead⟩

/-- Settles O27: a die that runs and has begun roll call sends its beacon on each trained port. -/
theorem beaconsAndNotices : Obligations.BeaconsAndNotices :=
  ⟨⟨fun _ _ hd up stage => completes_beaconSend hd up stage,
      fun _ _ _ _ _ small up parsed kind agent lives follower =>
        completes_beacon small up parsed kind agent lives follower,
      fun _ _ _ _ small up bad => completes_beacon_of_bad small up bad,
      fun _ _ _ _ small up row => completes_beaconSlotMissed small up row⟩,
    fun _ _ _ _ hd small other up fresh _ known => completes_deadNotice hd small other up fresh known⟩

end Sys2Proof.Machine
end

section
/-! PROOFS. Time alignment (R100, R101), and the census and the pairing hold (R103, R105, R108–R110, R118, R119). -/

namespace Sys2Proof.Machine

/-! ### Timed exchanges (R100, R101) -/

/-- An exchange of a die that aligns to the master it hears. -/
theorem rtimeExchange_of_aligns {s : State} {d m : Nat} (aligns : AlignsTo s d m) (t1 t2 t3 t4 : Word) :
    rtimeExchange d t1 t2 t3 t4 s =
      if 16 ≤ (keptExch s d).length then alignCheck d m ⟨d, t1, t2, t3, t4⟩ s
      else if (keptExch s d).length = 15 then
        alignStep d m { s with boot := { s.boot with exch := s.boot.exch ++ [⟨d, t1, t2, t3, t4⟩] } }
      else { s with boot := { s.boot with exch := s.boot.exch ++ [⟨d, t1, t2, t3, t4⟩] } } := by
  obtain ⟨-, heard, up, stage, noError, unaligned, linked⟩ := aligns
  have takes : (dieUp s d && Nat.ble 7 (s.rd d Reg.DC_BOOT_STATUS_STAGE) && s.rd d Reg.DC_BOOT_STATUS_ERROR == 0 &&
      s.rd d Reg.DC_RTIME_STATUS_ALIGNED == 0 && (portUp s d 3 || portUp s d 4)) = true := by
    rw [up, Nat.ble_eq_true_of_le stage, noError, unaligned, linked]
    rfl
  simp only [rtimeExchange, heard, takes, if_true]

theorem bestExch_le {l : List Exch} {x : Exch} (best : bestExch l = some x) : ∀ y ∈ l, x.trip ≤ y.trip := by
  induction l generalizing x with
  | nil => cases best
  | cons z l ih =>
    rw [bestExch] at best
    cases rest : bestExch l with
    | none =>
      rw [rest] at best
      cases best
      have empty : l = [] := by
        cases l with
        | nil => rfl
        | cons w l =>
          rw [bestExch] at rest
          split at rest
          · split at rest <;> cases rest
          · cases rest
      simp [empty]
    | some y =>
      rw [rest] at best
      dsimp only at best
      intro w hw
      split at best
      next less =>
        cases best
        obtain rfl | later := List.mem_cons.1 hw
        · exact Int.le_of_lt less
        · exact ih rest w later
      next least =>
        cases best
        obtain rfl | later := List.mem_cons.1 hw
        · exact Int.le_refl _
        · exact Int.le_trans (Int.not_lt.1 least) (ih rest w later)

/-- The exchanges kept with one more of the die. -/
theorem keptExch_append (s : State) (d : Nat) (t1 t2 t3 t4 : Word) :
    (s.boot.exch ++ [(⟨d, t1, t2, t3, t4⟩ : Exch)]).filter (fun y => Nat.beq y.die d) =
      keptExch s d ++ [⟨d, t1, t2, t3, t4⟩] := by
  rw [List.filter_append, List.filter_cons_of_pos (by simp), List.filter_nil]

/-- The step of RTIME (R101): the offset, rounded to 10 ns, of the exchange with the least round trip. -/
def steppedBy (d m : Nat) (x : Exch) (s : State) : State :=
  { (stepRecord d (round10 x.offset2) m 0
      (s.wr d Reg.DC_RTIME ((s.rtime d : Int) + round10 x.offset2).toNat)).wr d Reg.DC_RTIME_STATUS_OFFSET
        (ofSigned 16 (x.offset2 / 2)) with
    boot := { s.boot with stepped := addNat s.boot.stepped d } }

section
variable {s : State} {d m : Nat} (t1 t2 t3 t4 : Word)

theorem completes_rtimeExchange_of_few (aligns : AlignsTo s d m) (few : (keptExch s d).length < 15) :
    Completes (.rtimeExchange d t1 t2 t3 t4) s (fun t =>
      t.boot = { s.boot with exch := s.boot.exch ++ [⟨d, t1, t2, t3, t4⟩] } ∧ t.regs = s.regs ∧ t.recs = s.recs) := by
  refine completes_of_onDie (execRtimeExchange d t1 t2 t3 t4 s) rfl rfl aligns.1 ?_
  rw [rtimeExchange_of_aligns aligns, if_neg (by omega), if_neg (by omega)]
  exact ⟨rfl, rfl, rfl⟩

theorem completes_rtimeExchange_of_step {x : Exch} (aligns : AlignsTo s d m) (last : (keptExch s d).length = 15)
    (first : s.boot.stepped.contains d = false)
    (best : bestExch (keptExch s d ++ [⟨d, t1, t2, t3, t4⟩]) = some x) :
    Completes (.rtimeExchange d t1 t2 t3 t4) s (fun t =>
      t.rtime d = ((s.rtime d : Int) + round10 x.offset2).toNat % 2 ^ 64 ∧ t.boot.stepped.contains d = true ∧
      (∀ y ∈ keptExch s d, x.trip ≤ y.trip) ∧ t.boot.exch = s.boot.exch ++ [⟨d, t1, t2, t3, t4⟩] ∧
      t.rd d Reg.DC_RTIME_STATUS_ALIGNED = 0 ∧ HandsOver d 0 0x012 0 s t ∧
      RegsBut [(d, Reg.DC_RTIME), (d, Reg.DC_RTIME_STATUS_OFFSET)] s t) := by
  refine completes_of_onDie (execRtimeExchange d t1 t2 t3 t4 s) rfl rfl aligns.1 ?_
  have steps : alignStep d m { s with boot := { s.boot with exch := s.boot.exch ++ [⟨d, t1, t2, t3, t4⟩] } } =
      steppedBy d m x { s with boot := { s.boot with exch := s.boot.exch ++ [⟨d, t1, t2, t3, t4⟩] } } := by
    simp only [alignStep, keptExch_append, best, first, Bool.false_eq_true, if_false]
    rfl
  have regs (u : State) : RegsBut [(d, Reg.DC_RTIME), (d, Reg.DC_RTIME_STATUS_OFFSET)] u (steppedBy d m x u) :=
    .of_regs (.wr (.of_regs (.wr (.refl _ u) d Reg.DC_RTIME _ (by simp)) rfl) d Reg.DC_RTIME_STATUS_OFFSET _ (by simp))
      rfl
  rw [rtimeExchange_of_aligns aligns, if_neg (by omega), if_pos last, steps]
  refine ⟨?_, contains_addNat_same .., fun y hy => bestExch_le best y (List.mem_append_left _ hy), rfl, ?_,
    handsOver_emit d 0 0x012 0 false _ rfl, .trans (.of_regs (.refl _ s) rfl) (regs _)⟩
  · exact (State.rd_wr_apart (f := Reg.DC_RTIME_STATUS_OFFSET) rfl _ d d _).trans (State.rd_wr_same s d Reg.DC_RTIME _)
  · rw [(regs _).rd_of_apart rfl]
    exact aligns.2.2.2.2.2.1

theorem completes_rtimeExchange_of_stepped (aligns : AlignsTo s d m) (last : (keptExch s d).length = 15)
    (stepped : s.boot.stepped.contains d = true) :
    Completes (.rtimeExchange d t1 t2 t3 t4) s (fun t =>
      t.boot = { s.boot with exch := s.boot.exch ++ [⟨d, t1, t2, t3, t4⟩] } ∧ t.regs = s.regs ∧ t.recs = s.recs) := by
  refine completes_of_onDie (execRtimeExchange d t1 t2 t3 t4 s) rfl rfl aligns.1 ?_
  rw [rtimeExchange_of_aligns aligns, if_neg (by omega), if_pos last]
  unfold alignStep
  split
  · exact ⟨rfl, rfl, rfl⟩
  · rw [if_pos (show s.boot.stepped.contains d = true from stepped)]
    exact ⟨rfl, rfl, rfl⟩

/-- The exchange measured, and those kept before it forgotten. -/
def measured (d : Nat) (o2 : Int) (s : State) : State :=
  { s.wr d Reg.DC_RTIME_STATUS_OFFSET (ofSigned 16 (o2 / 2)) with
    boot := { s.boot with exch := s.boot.exch.filter (fun y => !(Nat.beq y.die d)) } }

theorem keptExch_measured (o2 : Int) : keptExch (measured d o2 s) d = [] := by
  refine List.filter_eq_nil_iff.2 fun y hy => ?_
  rw [Nat.beq_comm_false (Nat.ne_of_not_beq (List.mem_filter.1 hy).2)]
  exact Bool.false_ne_true

theorem regsBut_measured (o2 : Int) : RegsBut [(d, Reg.DC_RTIME_STATUS_OFFSET)] s (measured d o2 s) :=
  .of_regs (.wr (.refl _ s) d Reg.DC_RTIME_STATUS_OFFSET (ofSigned 16 (o2 / 2)) (.head _)) rfl

/-- The die follows the master it aligned to. -/
def follows (d m : Nat) (s : State) : State :=
  { s.wr d Reg.DC_RTIME_STATUS_ALIGNED 1 with boot := { s.boot with follows := bind_ d m s.boot.follows } }

theorem stage10_of_open {s : State} {d : Nat} (ready : atStage s d 7 = true) (opened : s.boot.censusOpen = true) :
    (stage10 d s).rd d Reg.DC_BOOT_STATUS_STAGE = 8 ∧ RegsBut [(d, Reg.DC_BOOT_STATUS_STAGE)] s (stage10 d s) := by
  have kept := rejoinRecord_keeps (F := { noFrame with recs := True }) trivial d (.refl _ (stageDone d 8 s))
  have staged : stage10 d s = rejoinRecord d (stageDone d 8 s) := by
    rw [stage10, if_pos ready]
    exact if_pos ((congrArg (·.censusOpen) (kept.boot id)).trans opened)
  rw [staged, State.rd_of_regs (kept.regs id), rd_stageDone]
  exact ⟨rfl, .of_regs (regsBut_stageDone d 8 s) (kept.regs id)⟩

theorem completes_rtimeExchange_of_near (aligns : AlignsTo s d m) (many : 16 ≤ (keptExch s d).length)
    (lo : -40 ≤ Exch.offset2 ⟨d, t1, t2, t3, t4⟩) (hi : Exch.offset2 ⟨d, t1, t2, t3, t4⟩ ≤ 40) :
    Completes (.rtimeExchange d t1 t2 t3 t4) s (fun t =>
      t.rd d Reg.DC_RTIME_STATUS_ALIGNED = 1 ∧ look d t.boot.follows = some m ∧ keptExch t d = [] ∧
      (s.boot.censusOpen = true → s.rd d Reg.DC_BOOT_STATUS_STAGE = 7 → t.rd d Reg.DC_BOOT_STATUS_STAGE = 8 ∧
        RegsBut [(d, Reg.DC_RTIME_STATUS_OFFSET), (d, Reg.DC_RTIME_STATUS_ALIGNED), (d, Reg.DC_BOOT_STATUS_STAGE)] s
          t)) := by
  refine completes_of_onDie (execRtimeExchange d t1 t2 t3 t4 s) rfl rfl aligns.1 ?_
  have joins : alignCheck d m ⟨d, t1, t2, t3, t4⟩ s =
      stage10 d (follows d m (measured d (Exch.offset2 ⟨d, t1, t2, t3, t4⟩) s)) :=
    if_pos (by rw [decide_eq_true lo, decide_eq_true hi]; rfl)
  rw [rtimeExchange_of_aligns aligns, if_pos many, joins]
  generalize Exch.offset2 ⟨d, t1, t2, t3, t4⟩ = o2
  have joined := joinAs_stage10 d (follows d m (measured d o2 s))
  have aligned : RegsBut [(d, Reg.DC_RTIME_STATUS_OFFSET), (d, Reg.DC_RTIME_STATUS_ALIGNED)] s
      (follows d m (measured d o2 s)) :=
    .trans ((regsBut_measured o2).mono (by simp))
      (.of_regs (.wr (.refl _ _) d Reg.DC_RTIME_STATUS_ALIGNED 1 (by simp)) rfl)
  refine ⟨?_, ?_, ?_, fun opened stage => ?_⟩
  · rw [joined.fields d Reg.DC_RTIME_STATUS_ALIGNED rfl]
    exact State.rd_wr_same (measured d o2 s) d Reg.DC_RTIME_STATUS_ALIGNED 1
  · rw [joined.follows]
    exact look_bind_same ..
  · have same : (follows d m (measured d o2 s)).boot.exch = (measured d o2 s).boot.exch := rfl
    rw [keptExch, joined.exch, same]
    exact keptExch_measured (s := s) (d := d) o2
  · obtain ⟨-, -, up, -, noError, -, -⟩ := aligns
    have ready : atStage (follows d m (measured d o2 s)) d 7 = true :=
      atStage_iff.2 ⟨up, (aligned.rd_of_apart rfl d).trans stage, (aligned.rd_of_apart rfl d).trans noError⟩
    obtain ⟨done, regs⟩ := stage10_of_open ready opened
    exact ⟨done, .trans (aligned.mono (by simp)) (regs.mono (by simp))⟩

theorem completes_rtimeExchange_of_far (aligns : AlignsTo s d m) (many : 16 ≤ (keptExch s d).length)
    (far : Exch.offset2 ⟨d, t1, t2, t3, t4⟩ < -40 ∨ 40 < Exch.offset2 ⟨d, t1, t2, t3, t4⟩) :
    Completes (.rtimeExchange d t1 t2 t3 t4) s (fun t =>
      t.rd d Reg.DC_RTIME_STATUS_ALIGNED = 0 ∧ t.boot.follows = s.boot.follows ∧ keptExch t d = [] ∧
      (∀ y ∈ s.boot.exch, y.die ≠ d → y ∈ t.boot.exch) ∧ RegsBut [(d, Reg.DC_RTIME_STATUS_OFFSET)] s t) := by
  refine completes_of_onDie (execRtimeExchange d t1 t2 t3 t4 s) rfl rfl aligns.1 ?_
  have again : alignCheck d m ⟨d, t1, t2, t3, t4⟩ s = measured d (Exch.offset2 ⟨d, t1, t2, t3, t4⟩) s := by
    refine if_neg ?_
    rw [Bool.and_eq_true, decide_eq_true_eq, decide_eq_true_eq]
    omega
  rw [rtimeExchange_of_aligns aligns, if_pos many, again]
  exact ⟨((regsBut_measured _).rd_of_apart rfl d).trans aligns.2.2.2.2.2.1, rfl, keptExch_measured _,
    fun y hy other => List.mem_filter.2 ⟨hy, by rw [Nat.beq_comm_false other]; rfl⟩, regsBut_measured _⟩

end

theorem completes_rtimeRemeasure {s : State} {d : Nat} {o : Int} (hd : d < dieCount s.orderCode)
    (up : dieUp s d = true) (aligned : s.rd d Reg.DC_RTIME_STATUS_ALIGNED = 1)
    (follower : s.rd d Reg.DC_RTIME_STATUS_MASTER = 0) :
    Completes (.rtimeRemeasure d o) s (fun t =>
      t.rd d Reg.DC_RTIME_STATUS_OFFSET = ofSigned 16 o ∧
      (-20 ≤ o → o ≤ 20 → t.boot = s.boot ∧ t.recs = s.recs) ∧
      ((20 < o ∨ o < -20) → SMap.get 0 t.boot.corr d = o ∧ HandsOver d 0 0x012 0 s t) ∧
      RegsBut [(d, Reg.DC_RTIME_STATUS_OFFSET)] s t) := by
  have offset : (s.wr d Reg.DC_RTIME_STATUS_OFFSET (ofSigned 16 o)).rd d Reg.DC_RTIME_STATUS_OFFSET =
      ofSigned 16 o := by
    rw [State.rd_wr_same]
    refine Nat.mod_eq_of_lt ?_
    show ofSigned 16 o < 2 ^ 16
    unfold ofSigned
    omega
  have regs : RegsBut [(d, Reg.DC_RTIME_STATUS_OFFSET)] s (s.wr d Reg.DC_RTIME_STATUS_OFFSET (ofSigned 16 o)) :=
    .wr (.refl _ s) _ _ _ (.head _)
  refine completes_of_onDie (execRtimeRemeasure d o s) rfl rfl hd ?_
  rw [rtimeRemeasure, if_pos (by rw [up, aligned, follower]; rfl)]
  dsimp only
  by_cases far : 20 < o ∨ o < -20
  · rw [if_pos (by simpa using far)]
    exact ⟨offset, fun lo hi => by omega, fun _ => ⟨SMap.get_set_same .., handsOver_emit d 0 0x012 0 false _ rfl⟩,
      .of_regs regs rfl⟩
  · rw [if_neg (by simpa using far)]
    exact ⟨offset, fun _ _ => ⟨rfl, rfl⟩, fun beyond => absurd beyond far, regs⟩

/-! ### The census closes (R103, R105) -/

/-- What an evaluation reads is the combination's: the tuples, the pairing table and the digests accepted. -/
structure CensusAs (s t : State) : Prop where
  rack : t.rack = s.rack
  census : t.boot.census = s.boot.census
  pairing : t.boot.pairing = s.boot.pairing
  accepted : t.boot.accepted = s.boot.accepted
  hold : t.boot.hold = s.boot.hold
  dieHold : t.boot.dieHold = s.boot.dieHold
  ready : t.boot.ready = s.boot.ready
  censusOpen : t.boot.censusOpen = s.boot.censusOpen
  unqualified : t.boot.unqualified = s.boot.unqualified

theorem CensusAs.trans {s t u : State} (h : CensusAs s t) (k : CensusAs t u) : CensusAs s u :=
  ⟨k.rack.trans h.rack, k.census.trans h.census, k.pairing.trans h.pairing, k.accepted.trans h.accepted,
    k.hold.trans h.hold, k.dieHold.trans h.dieHold, k.ready.trans h.ready, k.censusOpen.trans h.censusOpen,
    k.unqualified.trans h.unqualified⟩

theorem CensusAs.of_boot {s t : State} (rack : t.rack = s.rack) (boot : t.boot = s.boot) : CensusAs s t :=
  ⟨rack, by rw [boot], by rw [boot], by rw [boot], by rw [boot], by rw [boot], by rw [boot], by rw [boot], by rw [boot]⟩

section
variable {s t : State} (rack : t.rack = s.rack) (census : t.boot.census = s.boot.census)
  (pairing : t.boot.pairing = s.boot.pairing) (accepted : t.boot.accepted = s.boot.accepted)
include rack census

theorem comboOf_census : comboOf t t.boot.census = comboOf s s.boot.census := by
  rw [comboOf, comboOf, spineTuples, spineTuples, rack, census]

theorem allTuples_census : allTuples t = allTuples s := by
  rw [allTuples, allTuples, comboOf_census rack census, rack]

include pairing accepted

theorem passes_combo : passes t (combo t) = passes s (combo s) := by
  rw [passes, passes, tested, tested, combo, combo, comboOf_census rack census, pairing, accepted]

end

/-- The frame of showing the census. -/
def showFrame : Frame := { noFrame with regs := True, recs := True }

theorem censusAs_holdNoted (s : State) : CensusAs s (holdNoted s) := by
  have kept : Keeps showFrame s (holdNoted s) := by
    unfold holdNoted
    split
    · exact .refl _ s
    · exact holdRecord_keeps trivial _ _ (.refl _ s)
  exact .of_boot (kept.rack id) (kept.boot id)

theorem censusAs_showCensus (s : State) : CensusAs s (showCensus s) :=
  have kept := showCensus_keeps (F := showFrame) trivial (.refl _ s)
  .of_boot (kept.rack id) (kept.boot id)

theorem censusAs_stagesShown (reason : Nat) (s : State) : CensusAs s (stagesShown reason s) := by
  have kept : (stagesShown reason s).rack = s.rack ∧ (stagesShown reason s).boot = s.boot := by
    unfold stagesShown
    refine each_induction (P := fun t => t.rack = s.rack ∧ t.boot = s.boot) (fun t r _ h => ?_) ⟨rfl, rfl⟩
    split <;> exact h
  exact .of_boot kept.1 kept.2

/-- What an evaluation of the census leaves (R105). -/
theorem evaluateCensus_spec (s : State) : CensusAs (heldFor (holdReason s) (holdNoted s)) (evaluateCensus s) := by
  rw [evaluateCensus_eq]
  exact (censusAs_stagesShown ..).trans (censusAs_showCensus _)

theorem evaluated (s : State) :
    (evaluateCensus s).rack = s.rack ∧ (evaluateCensus s).boot.census = s.boot.census ∧
      (evaluateCensus s).boot.pairing = s.boot.pairing ∧ (evaluateCensus s).boot.accepted = s.boot.accepted ∧
      (evaluateCensus s).boot.hold = holdReason s ∧ (evaluateCensus s).boot.ready = Nat.beq (holdReason s) 0 ∧
      (evaluateCensus s).boot.dieHold = s.boot.dieHold.filter (fun x => !(Nat.beq x.2 1)) ∧
      (evaluateCensus s).boot.censusOpen = s.boot.censusOpen ∧
      (evaluateCensus s).boot.unqualified = s.boot.unqualified := by
  have noted := censusAs_holdNoted s
  have shown := evaluateCensus_spec s
  exact ⟨shown.rack.trans noted.rack, shown.census.trans noted.census, shown.pairing.trans noted.pairing,
    shown.accepted.trans noted.accepted, shown.hold, shown.ready,
    shown.dieHold.trans (congrArg (List.filter fun x : Nat × Nat => !(Nat.beq x.2 1)) noted.dieHold),
    shown.censusOpen.trans noted.censusOpen, shown.unqualified.trans noted.unqualified⟩

theorem holdReason_of_differ {s : State} (differ : majorsDiffer (allTuples s) = true) : holdReason s = 1 :=
  if_pos differ

theorem holdReason_of_fails {s : State} (same : majorsDiffer (allTuples s) = false)
    (fails : passes s (combo s) = false) : holdReason s = 2 := by
  obtain ⟨untested, unaccepted⟩ := Bool.or_eq_false_iff.1 fails
  simp only [combo] at untested unaccepted
  rw [holdReason, same, untested, unaccepted]
  simp

theorem holdReason_of_passes {s : State} (same : majorsDiffer (allTuples s) = false)
    (passed : passes s (combo s) = true) (none : s.boot.dieHold = []) : holdReason s = 0 := by
  rw [passes, Bool.or_eq_true] at passed
  simp only [combo] at passed
  rw [holdReason, same, none]
  obtain tested | accepted := passed
  · rw [tested]
    simp
  · rw [accepted]
    simp

theorem holdReason_of_accepted {s : State} (same : majorsDiffer (allTuples s) = false)
    (accepted : s.boot.accepted.contains (BitVec.ofNat 32 (comboDigest (comboOf s s.boot.census))) = true) :
    holdReason s = 0 := by
  rw [holdReason, same, accepted]
  simp

/-- The dies of the list enrolled, with their numbers on the consoles. -/
def enrolledAll (ds : List Nat) (s : State) : State := each ds (fun s d => uartPrint d 11 (enroll d s)) s

theorem censusRow_enroll (e : Nat) (s : State) (d : Nat) : censusRow (uartPrint e 11 (enroll e s)) d = censusRow s d :=
  rfl

theorem mem_putWhere_of_mem {α : Type} {p : α → Bool} {x y : α} {l : List α} (h : y ∈ putWhere p x l) :
    y = x ∨ y ∈ l := by
  induction l with
  | nil => exact .inl (List.mem_singleton.1 h)
  | cons z l ih =>
    rw [putWhere] at h
    split at h
    · exact (List.mem_cons.1 h).imp id (.tail _)
    · obtain rfl | later := List.mem_cons.1 h
      · exact .inr (.head _)
      · exact (ih later).imp id (.tail _)

/-- A row that the test does not meet stays. -/
theorem mem_putWhere_other {α : Type} {p : α → Bool} {x y : α} {l : List α} (h : y ∈ l) (other : p y = false) :
    y ∈ putWhere p x l := by
  induction l with
  | nil => cases h
  | cons z l ih =>
    rw [putWhere]
    obtain rfl | later := List.mem_cons.1 h
    · rw [other]
      exact .head _
    · split
      · exact .tail _ later
      · exact .tail _ (ih later)

/-- Enrolling changes the census and the consoles alone. -/
theorem enrolledAll_eq (ds : List Nat) (s : State) : ∃ census uart,
    enrolledAll ds s = { s with boot := { s.boot with census := census, uart := uart } } := by
  unfold enrolledAll
  refine each_induction (f := fun s d => uartPrint d 11 (enroll d s))
    (P := fun t => ∃ census uart, t = { s with boot := { s.boot with census := census, uart := uart } })
    (fun t d _ h => ?_) ⟨_, _, rfl⟩
  obtain ⟨_, _, rfl⟩ := h
  exact ⟨_, _, rfl⟩

theorem enrolledAll_rows {ds : List Nat} (distinct : ds.Nodup) (s : State) :
    (∀ d ∈ ds, censusRow s d ∈ (enrolledAll ds s).boot.census) ∧
      ∀ r ∈ (enrolledAll ds s).boot.census, r ∈ s.boot.census ∨ r.die ∈ ds := by
  refine ⟨fun d hd => ?_, ?_⟩
  · refine (each_once (f := fun s d => uartPrint d 11 (enroll d s)) (P := fun t => censusRow t d = censusRow s d)
      (Q := fun t => censusRow t d = censusRow s d ∧ censusRow s d ∈ t.boot.census) distinct hd
      (fun t e _ _ h => (censusRow_enroll e t d).trans h) (fun t h => ⟨(censusRow_enroll d t d).trans h, ?_⟩)
      (fun t e _ ne h => ⟨(censusRow_enroll e t d).trans h.1, ?_⟩) rfl).2
    · exact h ▸ mem_putWhere _ (censusRow t d) t.boot.census
    · exact mem_putWhere_other h.2 (Nat.beq_comm_false ne.symm)
  · refine each_induction (f := fun s d => uartPrint d 11 (enroll d s))
      (P := fun t => ∀ r ∈ t.boot.census, r ∈ s.boot.census ∨ r.die ∈ ds) (fun t d hd h r hr => ?_)
      (fun r hr => .inl hr)
    obtain rfl | before := mem_putWhere_of_mem hr
    · exact .inr hd
    · exact h r before

/-- The end of a rack reset is a record of the RM. -/
theorem censusAs_rackResetRecord (s : State) : CensusAs s (rackResetRecord s) := by
  unfold rackResetRecord
  split
  · exact .of_boot rfl rfl
  · have kept (payload : List PF) (u : State) : Keeps showFrame u (rackEmit 0xFFF 0x034 0 false payload u) :=
      rackEmit_keeps trivial _ _ _ _ payload (.refl _ u)
    refine CensusAs.trans (t := { s with boot := { s.boot with rackResetAt := none } })
      ⟨rfl, rfl, rfl, rfl, rfl, rfl, rfl, rfl, rfl⟩ ?_
    exact .of_boot ((kept _ _).rack id) ((kept _ _).boot id)

theorem completes_censusClose {s : State} {ms : Nat} (rm : s.rack.rmUp = true) (opened : s.boot.censusOpen = true)
    (some_ : stage10Dies s ≠ [])
    (due : s.boot.censusMs ≤ ms ∨ (stage10Dies s).length = dieCount s.orderCode) :
    Completes (.censusClose ms) s (fun t =>
      t.boot.censusOpen = false ∧ (∀ d ∈ stage10Dies s, censusRow s d ∈ t.boot.census) ∧
      (∀ r ∈ t.boot.census, r ∈ s.boot.census ∨ r.die ∈ stage10Dies s) ∧ (t.boot.ready = true ↔ t.boot.hold = 0) ∧
      (majorsDiffer (allTuples t) = true → t.boot.hold = 1) ∧
      (majorsDiffer (allTuples t) = false → passes t (combo t) = false → t.boot.hold = 2) ∧
      (majorsDiffer (allTuples t) = false → passes t (combo t) = true → s.boot.dieHold = [] → t.boot.hold = 0)) := by
  have closes : censusClose ms s = rackResetRecord (evaluateCensus (enrolledAll (stage10Dies s)
      { s with boot := { s.boot with censusOpen := false } })) := by
    refine if_pos ?_
    have any : (stage10Dies s).isEmpty = false := List.isEmpty_eq_false_iff.2 some_
    simp only [rm, opened, any, Bool.not_false, Bool.true_and, Bool.or_eq_true, beq_iff_eq, Nat.ble_eq]
    exact due
  obtain ⟨rows, only⟩ := enrolledAll_rows (ds := stage10Dies s) (List.Nodup.filter _ (nodup_allDies s))
    { s with boot := { s.boot with censusOpen := false } }
  obtain ⟨census, uart, eq⟩ := enrolledAll_eq (stage10Dies s) { s with boot := { s.boot with censusOpen := false } }
  have dieHold : (enrolledAll (stage10Dies s) { s with boot := { s.boot with censusOpen := false } }).boot.dieHold =
      s.boot.dieHold := by rw [eq]
  have closed : (enrolledAll (stage10Dies s) { s with boot := { s.boot with censusOpen := false } }).boot.censusOpen =
      false := by rw [eq]
  refine completes_of_next (execCensusClose ms s) rfl rfl ?_
  rw [closes]
  generalize enrolledAll (stage10Dies s) { s with boot := { s.boot with censusOpen := false } } = u at *
  obtain ⟨rack, sameCensus, pairing, accepted, hold, ready, -, censusOpen, -⟩ := evaluated u
  have last := censusAs_rackResetRecord (evaluateCensus u)
  have tuples := allTuples_census (last.rack.trans rack) (last.census.trans sameCensus)
  have passed := passes_combo (last.rack.trans rack) (last.census.trans sameCensus) (last.pairing.trans pairing)
    (last.accepted.trans accepted)
  rw [tuples, passed, last.censusOpen, last.census, last.ready, last.hold, censusOpen, sameCensus, ready, hold]
  refine ⟨closed, rows, only, Nat.beq_eq ▸ Iff.rfl, holdReason_of_differ, holdReason_of_fails, fun same ok none =>
    holdReason_of_passes same ok (dieHold.trans none)⟩

theorem completes_censusClose_of_not_due {s : State} {ms : Nat}
    (undue : s.rack.rmUp = false ∨ s.boot.censusOpen = false ∨ stage10Dies s = [] ∨
      ms < s.boot.censusMs ∧ (stage10Dies s).length ≠ dieCount s.orderCode) :
    Completes (.censusClose ms) s (fun t => t = s) := by
  refine completes_of_next (execCensusClose ms s) rfl rfl (if_neg ?_)
  simp only [Bool.and_eq_true, Bool.not_eq_true', Bool.or_eq_true, Nat.ble_eq, beq_iff_eq]
  rintro ⟨⟨⟨rm, opened⟩, any⟩, due⟩
  obtain down | closed | none | ⟨early, few⟩ := undue
  · exact Bool.false_ne_true (down.symm.trans rm)
  · exact Bool.false_ne_true (closed.symm.trans opened)
  · rw [none] at any
    cases any
  · exact due.elim (fun late => by omega) few

/-! ### UNTESTED-ACCEPT (R108, R110, R118, R119) -/

/-- The digest written on every die that runs. -/
def digestShown (digest : BitVec 32) (s : State) : State :=
  each ((allDies s).filter (dieUp s)) (fun s d => s.wr d Reg.DC_ACCEPT digest.toNat) s

theorem digestShown_spec (digest : BitVec 32) (s : State) :
    (digestShown digest s).boot = s.boot ∧ (digestShown digest s).rack = s.rack ∧
      (digestShown digest s).host = s.host ∧ FieldsBut [Reg.DC_ACCEPT] s (digestShown digest s) :=
  each_induction (f := fun s d => s.wr d Reg.DC_ACCEPT digest.toNat)
    (P := fun t => t.boot = s.boot ∧ t.rack = s.rack ∧ t.host = s.host ∧ FieldsBut [Reg.DC_ACCEPT] s t)
    (fun _ d _ ⟨boot, rack, host, fields⟩ => ⟨boot, rack, host, fields.wr d _ (.head _)⟩) ⟨rfl, rfl, rfl, .of_regs rfl⟩

theorem rd_digestShown {s : State} {d : Nat} (hd : d < dieCount s.orderCode) (up : dieUp s d = true)
    (digest : BitVec 32) : (digestShown digest s).rd d Reg.DC_ACCEPT = digest.toNat := by
  have written (u : State) : (u.wr d Reg.DC_ACCEPT digest.toNat).rd d Reg.DC_ACCEPT = digest.toNat :=
    (State.rd_wr_same u d Reg.DC_ACCEPT _).trans digest.toNat_mod_cancel
  refine each_once (f := fun s d => s.wr d Reg.DC_ACCEPT digest.toNat) (P := fun _ => True)
    (Q := fun t => t.rd d Reg.DC_ACCEPT = digest.toNat) (List.Nodup.filter _ (nodup_allDies s))
    (List.mem_filter.2 ⟨mem_allDies.2 hd, up⟩) (fun _ _ _ _ h => h) (fun u _ => written u)
    (fun u e _ ne h => ?_) trivial
  exact (State.rd_wr_ne _ _ _ _ _ _ (Fld.key_ne_of_die rfl rfl ne.symm)).trans h

/-- A digest taken: it is among those accepted, every die shows it, and nothing of the census changes. -/
theorem takeDigest_spec (digest : BitVec 32) (mark : Bool) (s : State) :
    (takeDigest digest mark s).boot = { s.boot with
        accepted := digest :: s.boot.accepted.filter (fun x => x != digest),
        unqualified := s.boot.unqualified || mark } ∧
      (takeDigest digest mark s).rack = s.rack ∧ (takeDigest digest mark s).host = s.host ∧
      FieldsBut [Reg.DC_ACCEPT] s (takeDigest digest mark s) ∧
      ∀ d, d < dieCount s.orderCode → dieUp s d = true →
        (takeDigest digest mark s).rd d Reg.DC_ACCEPT = digest.toNat := by
  have kept (result : Nat) (u : State) : Keeps showFrame u (acceptRecord_ digest result u) :=
    rackEmit_keeps trivial _ _ _ _ _ (.refl _ u)
  obtain ⟨boot, rack, host, fields⟩ := digestShown_spec digest s
  have taken : takeDigest digest mark s = acceptRecord_ digest 0 { digestShown digest s with
      boot := { (digestShown digest s).boot with
        accepted := digest :: (digestShown digest s).boot.accepted.filter (fun x => x != digest),
        unqualified := (digestShown digest s).boot.unqualified || mark } } := rfl
  have regs : (takeDigest digest mark s).regs = (digestShown digest s).regs := by
    rw [taken]
    exact ((rackEmit_keeps (F := { noFrame with recs := True }) trivial _ _ _ _ _ (.refl _ _)).regs id)
  refine ⟨?_, ?_, ?_, fun d f apart => (State.rd_of_regs regs d f).trans (fields d f apart),
    fun d hd up => (State.rd_of_regs regs d _).trans (rd_digestShown hd up digest)⟩
  · rw [taken, (kept 0 _).boot id, boot]
  · rw [taken, (kept 0 _).rack id, rack]
  · rw [taken, (kept 0 _).host id, host]

/-- The current combination's digest, as UNTESTED-ACCEPT carries it. -/
theorem untestedAccept_of_combo {s : State} {digest : BitVec 32} (takes : TakesDigests s)
    (mine : BitVec.ofNat 32 (comboDigest (combo s)) = digest) : untestedAccept digest s = acceptCombo digest s := by
  obtain ⟨rm, closed, nohold⟩ := takes
  have hold : (s.boot.hold == 1) = false := beq_eq_false_iff_ne.2 nohold
  simp only [untestedAccept, rm, closed, hold, mine, Bool.not_true, Bool.or_self, Bool.false_eq_true, if_false,
    beq_self_eq_true, if_true]

/-- The dies held for their combination released, and the digest taken. -/
def comboTaken (digest : BitVec 32) (s : State) : State :=
  takeDigest digest true { s with boot := { s.boot with dieHold := s.boot.dieHold.filter (fun x => Nat.beq x.2 1) } }

theorem completes_untestedAccept_of_combo {s : State} {digest : BitVec 32} (takes : TakesDigests s)
    (mine : BitVec.ofNat 32 (comboDigest (combo s)) = digest) :
    Completes (.untestedAccept digest) s (fun t =>
      digest ∈ t.boot.accepted ∧ t.boot.unqualified = true ∧ (∀ x ∈ t.boot.dieHold, x.2 = 1) ∧
      (∀ d, d < dieCount s.orderCode → dieUp s d = true → t.rd d Reg.DC_ACCEPT = digest.toNat) ∧
      (s.boot.hold = 2 → majorsDiffer (allTuples s) = false → t.boot.hold = 0 ∧ t.boot.ready = true) ∧
      (s.boot.hold = 2 → majorsDiffer (allTuples s) = true → t.boot.hold = 1) ∧
      (s.boot.hold ≠ 2 → t.boot.hold = s.boot.hold)) := by
  obtain ⟨boot, rack, -, -, shown⟩ := takeDigest_spec digest true
    { s with boot := { s.boot with dieHold := s.boot.dieHold.filter (fun x => Nat.beq x.2 1) } }
  refine completes_of_next (execUntestedAccept digest s) rfl rfl ?_
  rw [untestedAccept_of_combo takes mine]
  have chosen : acceptCombo digest s =
      if s.boot.hold = 2 then evaluateCensus (comboTaken digest s) else showCensus (comboTaken digest s) := by
    rw [acceptCombo]
    dsimp only
    rw [boot]
    rfl
  have census : (comboTaken digest s).boot.census = s.boot.census := congrArg (·.census) boot
  have accepted : (comboTaken digest s).boot.accepted = digest :: s.boot.accepted.filter (fun x => x != digest) :=
    congrArg (·.accepted) boot
  have unqualified : (comboTaken digest s).boot.unqualified = true :=
    (congrArg (·.unqualified) boot).trans (Bool.or_true _)
  have dieHold : (comboTaken digest s).boot.dieHold = s.boot.dieHold.filter (fun x => Nat.beq x.2 1) :=
    congrArg (·.dieHold) boot
  have held : (comboTaken digest s).boot.hold = s.boot.hold := congrArg (·.hold) boot
  have tuples := allTuples_census (show (comboTaken digest s).rack = s.rack from rack) census
  have same := comboOf_census (show (comboTaken digest s).rack = s.rack from rack) census
  change ∀ d, d < dieCount s.orderCode → dieUp s d = true → (comboTaken digest s).rd d Reg.DC_ACCEPT = digest.toNat
    at shown
  generalize comboTaken digest s = u at *
  rw [chosen]
  by_cases hold : s.boot.hold = 2
  · obtain ⟨-, -, -, kept, evaluated, ready, released, -, qualified⟩ := evaluated u
    have fields := (joinAs_evaluateCensus u).fields
    rw [if_pos hold, kept, qualified, released, evaluated, ready]
    refine ⟨accepted ▸ .head _, unqualified, fun x hx => ?_, fun d hd up => ?_, fun _ agree => ?_, fun _ differ => ?_,
      fun other => absurd hold other⟩
    · have mem := (List.mem_filter.1 hx).1
      rw [dieHold] at mem
      exact Nat.eq_of_beq_eq_true (List.mem_filter.1 mem).2
    · rw [fields d Reg.DC_ACCEPT rfl]
      exact shown d hd up
    · have zero := holdReason_of_accepted (tuples.symm ▸ agree) (by
        rw [same, ← combo, mine, accepted]
        exact List.elem_cons_self)
      rw [zero]
      exact ⟨rfl, rfl⟩
    · exact holdReason_of_differ (tuples.symm ▸ differ)
  · have kept := censusAs_showCensus u
    have fields := (joinAs_showCensus u).fields
    rw [if_neg hold, kept.accepted, kept.unqualified, kept.dieHold, kept.hold]
    refine ⟨accepted ▸ .head _, unqualified, fun x hx => ?_, fun d hd up => ?_, fun two => absurd two hold,
      fun two => absurd two hold, fun _ => held⟩
    · rw [dieHold] at hx
      exact Nat.eq_of_beq_eq_true (List.mem_filter.1 hx).2
    · rw [fields d Reg.DC_ACCEPT rfl]
      exact shown d hd up

/-- The HELD ports and the held formats whose combination has the digest. -/
def heldPorts (digest : BitVec 32) (s : State) : List Nat :=
  s.host.abiHeld.filter (fun p => BitVec.ofNat 32 (comboDigest (abiCombo s p)) == digest)
def heldFormats (digest : BitVec 32) (s : State) : List Compat :=
  s.boot.fmtHeld.filter (fun c => BitVec.ofNat 32 (comboDigest (fmtCombo s c)) == digest)

/-- The digest taken for formats and ports, and the formats released. -/
def othersTaken (digest : BitVec 32) (s : State) : State :=
  takeDigest digest (!(heldFormats digest s).isEmpty || (heldPorts digest s).any (portUsed s)) { s with
    boot := { s.boot with fmtHeld := s.boot.fmtHeld.filter (fun c => !(heldFormats digest s).contains c) } }

theorem untestedAccept_of_others {s : State} {digest : BitVec 32} (takes : TakesDigests s)
    (other : BitVec.ofNat 32 (comboDigest (combo s)) ≠ digest) :
    untestedAccept digest s =
      if (heldPorts digest s).isEmpty && (heldFormats digest s).isEmpty then acceptRecord_ digest 1 s
      else showCensus (each (heldPorts digest s) (fun s p => attachPort p s) (othersTaken digest s)) := by
  obtain ⟨rm, closed, nohold⟩ := takes
  have hold : (s.boot.hold == 1) = false := beq_eq_false_iff_ne.2 nohold
  have not : (BitVec.ofNat 32 (comboDigest (combo s)) == digest) = false := beq_eq_false_iff_ne.2 other
  rw [untestedAccept, if_neg (by rw [rm]; exact Bool.false_ne_true),
    if_neg (by rw [closed, hold]; exact Bool.false_ne_true),
    if_neg (by beta_reduce; rw [not]; exact Bool.false_ne_true)]
  rfl

/-- The port is attached, and shows it. -/
def Attached (p : Nat) (t : State) : Prop :=
  attachOf t p = 2 ∧ t.rd (portDie p) Reg.HOST_ABI_STATUS_RESULT = 1 ∧ p ∉ t.host.abiHeld

/-- What attaching a port writes. -/
def attachFields : List Fld := [Reg.HOST_STATUS_ATTACH, Reg.HOST_ABI_STATUS_RESULT, Reg.HOST_ABI_STATUS_ACTIVE]

/-- The fields of an attached port, with the minor that it works at. -/
def attachShown (p minor : Nat) (s : State) : State :=
  ((s.wr (portDie p) Reg.HOST_STATUS_ATTACH 2).wr (portDie p) Reg.HOST_ABI_STATUS_RESULT 1).wr (portDie p)
    Reg.HOST_ABI_STATUS_ACTIVE minor

theorem attachPort_eq (p : Nat) (s : State) :
    attachPort p s = { attachShown p (min (s.rd (portDie p) Reg.HOST_ABI_MINOR) (compatOf s (portDie p) 6).minor) s with
      host := { s.host with abiHeld := delNat s.host.abiHeld p } } := by
  have driver : ((s.wr (portDie p) Reg.HOST_STATUS_ATTACH 2).wr (portDie p) Reg.HOST_ABI_STATUS_RESULT 1).rd (portDie p)
      Reg.HOST_ABI_MINOR = s.rd (portDie p) Reg.HOST_ABI_MINOR := by
    rw [State.rd_wr_apart rfl, State.rd_wr_apart rfl]
  have device : (compatOf ((s.wr (portDie p) Reg.HOST_STATUS_ATTACH 2).wr (portDie p) Reg.HOST_ABI_STATUS_RESULT 1)
      (portDie p) 6).minor = (compatOf s (portDie p) 6).minor := by
    simp only [compatOf]
    rw [State.rd_wr_apart rfl, State.rd_wr_apart rfl]
  rw [attachPort, driver, device]
  rfl

theorem fieldsBut_attachShown (p minor : Nat) (s : State) : FieldsBut attachFields s (attachShown p minor s) :=
  (((FieldsBut.of_regs rfl).wr _ _ (by simp [attachFields])).wr _ _ (by simp [attachFields])).wr _ _
    (by simp [attachFields])

theorem attachPort_boot (p : Nat) (s : State) :
    (attachPort p s).boot = s.boot ∧ (attachPort p s).rack = s.rack ∧ FieldsBut attachFields s (attachPort p s) := by
  rw [attachPort_eq]
  exact ⟨rfl, rfl, (fieldsBut_attachShown p _ s).trans (.of_regs rfl)⟩

theorem attached_attachPort (p : Nat) (s : State) : Attached p (attachPort p s) := by
  refine ⟨?_, ?_, fun member => ?_⟩
  · rw [attachOf, attachPort]
    exact (State.rd_wr_apart rfl ..).trans ((State.rd_wr_apart rfl ..).trans (State.rd_wr_same ..))
  · rw [attachPort]
    exact (State.rd_wr_apart rfl ..).trans (State.rd_wr_same ..)
  · have absent := contains_delNat s.host.abiHeld p
    rw [List.contains_eq_any_beq, List.any_eq_false] at absent
    exact absent p member (beq_self_eq_true p)

/-- Another port that is attached leaves it attached. -/
theorem Attached.attachPort {p : Nat} {s : State} (h : Attached p s) (q : Nat) : Attached p (attachPort q s) := by
  obtain ⟨attach, result, free⟩ := h
  have gone : p ∉ (Machine.attachPort q s).host.abiHeld := fun member => free (List.mem_filter.1 member).1
  by_cases same : portDie q = portDie p
  · obtain ⟨attach', result', -⟩ := attached_attachPort q s
    rw [attachOf, same] at attach'
    rw [same] at result'
    exact ⟨attach', result', gone⟩
  · have kept {f : Fld} (hf : f.placed = true) (v : Nat) : (((s.wr (portDie q) Reg.HOST_STATUS_ATTACH 2).wr (portDie q)
        Reg.HOST_ABI_STATUS_RESULT 1).wr (portDie q) Reg.HOST_ABI_STATUS_ACTIVE v).rd (portDie p) f =
        s.rd (portDie p) f :=
      (State.rd_wr_ne _ _ _ _ _ _ (Fld.key_ne_of_die hf rfl (Ne.symm same))).trans
        ((State.rd_wr_ne _ _ _ _ _ _ (Fld.key_ne_of_die hf rfl (Ne.symm same))).trans
          (State.rd_wr_ne _ _ _ _ _ _ (Fld.key_ne_of_die hf rfl (Ne.symm same))))
    exact ⟨(kept rfl _).trans attach, (kept rfl _).trans result, gone⟩

theorem attached_each {ports : List Nat} {p : Nat} (member : p ∈ ports) (s : State) :
    Attached p (each ports (fun s p => attachPort p s) s) := by
  induction ports generalizing s with
  | nil => cases member
  | cons q ports ih =>
    by_cases later : p ∈ ports
    · exact ih later _
    · obtain rfl : p = q := (List.mem_cons.1 member).resolve_right later
      exact each_induction (l := ports) (f := fun s p => attachPort p s) (P := Attached p)
        (s := Machine.attachPort p s) (fun t q _ h => h.attachPort q) (attached_attachPort p s)

theorem boot_each_attachPort (ports : List Nat) (s : State) :
    (each ports (fun s p => attachPort p s) s).boot = s.boot :=
  each_induction (f := fun s p => attachPort p s) (P := fun t => t.boot = s.boot) (fun _ _ _ h => h) rfl

theorem completes_untestedAccept_of_others {s : State} {digest : BitVec 32} (takes : TakesDigests s)
    (other : BitVec.ofNat 32 (comboDigest (combo s)) ≠ digest)
    (some_ : (∃ p ∈ s.host.abiHeld, BitVec.ofNat 32 (comboDigest (abiCombo s p)) = digest) ∨
      (∃ c ∈ s.boot.fmtHeld, BitVec.ofNat 32 (comboDigest (fmtCombo s c)) = digest)) :
    Completes (.untestedAccept digest) s (fun t =>
      digest ∈ t.boot.accepted ∧ t.boot.hold = s.boot.hold ∧
      (∀ p ∈ s.host.abiHeld, BitVec.ofNat 32 (comboDigest (abiCombo s p)) = digest →
        attachOf t p = 2 ∧ t.rd (portDie p) Reg.HOST_ABI_STATUS_RESULT = 1 ∧ p ∉ t.host.abiHeld) ∧
      (∀ c, c ∈ t.boot.fmtHeld ↔ c ∈ s.boot.fmtHeld ∧ BitVec.ofNat 32 (comboDigest (fmtCombo s c)) ≠ digest)) := by
  have any : ¬((heldPorts digest s).isEmpty && (heldFormats digest s).isEmpty) = true := by
    rw [Bool.and_eq_true, List.isEmpty_iff, List.isEmpty_iff, heldPorts, heldFormats, List.filter_eq_nil_iff,
      List.filter_eq_nil_iff]
    rintro ⟨ports, formats⟩
    obtain ⟨p, hp, mine⟩ | ⟨c, hc, mine⟩ := some_
    · exact ports p hp (beq_iff_eq.2 mine)
    · exact formats c hc (beq_iff_eq.2 mine)
  obtain ⟨boot, -, -, -, -⟩ := takeDigest_spec digest
    (!(heldFormats digest s).isEmpty || (heldPorts digest s).any (portUsed s)) { s with
      boot := { s.boot with fmtHeld := s.boot.fmtHeld.filter (fun c => !(heldFormats digest s).contains c) } }
  have shown := showCensus_keeps (F := showFrame) trivial
    (.refl _ (each (heldPorts digest s) (fun s p => attachPort p s) (othersTaken digest s)))
  have taken := (shown.boot id).trans ((boot_each_attachPort (heldPorts digest s) (othersTaken digest s)).trans boot)
  have fields := fieldsBut_showCensus (each (heldPorts digest s) (fun s p => attachPort p s) (othersTaken digest s))
  refine completes_of_next (execUntestedAccept digest s) rfl rfl ?_
  rw [untestedAccept_of_others takes other, if_neg any]
  refine ⟨?_, congrArg (·.hold) taken, fun p hp mine => ?_, fun c => ?_⟩
  · rw [taken]
    exact .head _
  · obtain ⟨attach, result, free⟩ :=
      attached_each (List.mem_filter.2 ⟨hp, beq_iff_eq.2 mine⟩ : p ∈ heldPorts digest s) (othersTaken digest s)
    exact ⟨(fields _ Reg.HOST_STATUS_ATTACH rfl).trans attach, (fields _ Reg.HOST_ABI_STATUS_RESULT rfl).trans result,
      (shown.host id).symm ▸ free⟩
  · rw [taken]
    simp only [heldFormats, List.mem_filter, List.contains_eq_mem, Bool.not_eq_true', decide_eq_false_iff_not,
      beq_iff_eq]
    exact ⟨fun ⟨member, not⟩ => ⟨member, fun mine => not ⟨member, mine⟩⟩,
      fun ⟨member, not⟩ => ⟨member, fun both => not both.2⟩⟩

theorem completes_untestedAccept_of_stale {s : State} {digest : BitVec 32} (rm : s.rack.rmUp = true)
    (stale : s.boot.censusOpen = true ∨ s.boot.hold = 1 ∨ BitVec.ofNat 32 (comboDigest (combo s)) ≠ digest ∧
      (∀ p ∈ s.host.abiHeld, BitVec.ofNat 32 (comboDigest (abiCombo s p)) ≠ digest) ∧
      (∀ c ∈ s.boot.fmtHeld, BitVec.ofNat 32 (comboDigest (fmtCombo s c)) ≠ digest)) :
    Completes (.untestedAccept digest) s (fun t => t.boot = s.boot ∧ t.regs = s.regs ∧ t.host = s.host ∧
      t.recs.rackSeq = (s.recs.rackSeq + 1) % 65536) := by
  have refused : untestedAccept digest s = acceptRecord_ digest 1 s := by
    by_cases early : (s.boot.censusOpen || s.boot.hold == 1) = true
    · simp only [untestedAccept, rm, early, Bool.not_true, Bool.false_eq_true, if_false, if_true]
    · rw [Bool.not_eq_true, Bool.or_eq_false_iff, beq_eq_false_iff_ne] at early
      obtain opened | held | ⟨other, ports, formats⟩ := stale
      · exact absurd (early.1.symm.trans opened) Bool.false_ne_true
      · exact absurd held early.2
      · rw [untestedAccept_of_others ⟨rm, early⟩ other, if_pos]
        rw [Bool.and_eq_true, List.isEmpty_iff, List.isEmpty_iff, heldPorts, heldFormats, List.filter_eq_nil_iff,
          List.filter_eq_nil_iff]
        exact ⟨fun p hp mine => ports p hp (beq_iff_eq.1 mine), fun c hc mine => formats c hc (beq_iff_eq.1 mine)⟩
  have kept : Keeps { noFrame with recs := True } s (acceptRecord_ digest 1 s) :=
    rackEmit_keeps trivial _ _ _ _ _ (.refl _ s)
  refine completes_of_next (execUntestedAccept digest s) rfl rfl ?_
  rw [refused]
  exact ⟨kept.boot id, kept.regs id, kept.host id, rfl⟩

/-! ### The host ABI (R109, R110, R509) -/

/-- The tuple that the driver wrote. -/
def tupleWritten (port : Nat) (abi : Compat) (s : State) : State :=
  (s.wr (portDie port) Reg.HOST_ABI_MAJOR abi.major).wr (portDie port) Reg.HOST_ABI_MINOR abi.minor

/-- The port held until its combination is accepted. -/
def heldShown (port : Nat) (s : State) : State :=
  (s.wr (portDie port) Reg.HOST_STATUS_ATTACH 3).wr (portDie port) Reg.HOST_ABI_STATUS_RESULT 3
def portHeld (port : Nat) (s : State) : State :=
  { heldShown port s with host := { s.host with abiHeld := addNat s.host.abiHeld port } }

theorem rd_tupleWritten {port : Nat} {abi : Compat} (major : abi.major < 2 ^ 16) (minor : abi.minor < 2 ^ 16)
    (s : State) :
    (tupleWritten port abi s).rd (portDie port) Reg.HOST_ABI_MAJOR = abi.major ∧
      (tupleWritten port abi s).rd (portDie port) Reg.HOST_ABI_MINOR = abi.minor ∧
      RegsBut [(portDie port, Reg.HOST_ABI_MAJOR), (portDie port, Reg.HOST_ABI_MINOR)] s (tupleWritten port abi s) := by
  refine ⟨?_, ?_, .wr (.wr (.refl _ s) _ _ _ (by simp)) _ _ _ (by simp)⟩
  · rw [tupleWritten, State.rd_wr_apart rfl, State.rd_wr_same]
    exact Nat.mod_eq_of_lt major
  · rw [tupleWritten, State.rd_wr_same]
    exact Nat.mod_eq_of_lt minor

/-- What the tuple leaves: whether the port is LINKED, the device's own tuples, and the current combination. -/
theorem reads_tupleWritten (port : Nat) (abi : Compat) (s : State) :
    attachOf (tupleWritten port abi s) port = attachOf s port ∧
      compatOf (tupleWritten port abi s) (portDie port) 6 = compatOf s (portDie port) 6 ∧
      combo (tupleWritten port abi s) = combo s := by
  refine ⟨?_, ?_, comboOf_census rfl rfl⟩
  · rw [attachOf, attachOf, tupleWritten, State.rd_wr_apart rfl, State.rd_wr_apart rfl]
  · simp only [compatOf, tupleWritten]
    rw [State.rd_wr_apart rfl, State.rd_wr_apart rfl, State.rd_wr_apart rfl, State.rd_wr_apart rfl]

theorem hostAbi_of_linked {s : State} {port : Nat} {abi : Compat} (live : portLive s port = true)
    (linked : attachOf s port = 1) (major : abi.major < 2 ^ 16) (minor : abi.minor < 2 ^ 16) :
    hostAbi port abi s =
      if abi.major ≠ (compatOf s (portDie port) 6).major then
        (tupleWritten port abi s).wr (portDie port) Reg.HOST_ABI_STATUS_RESULT 2
      else if abiTested s || s.boot.accepted.contains (BitVec.ofNat 32 (comboDigest (combo s ++ [tupKey 6 abi]))) then
        attachPort port (tupleWritten port abi s)
      else portHeld port (tupleWritten port abi s) := by
  obtain ⟨attach, device, same⟩ := reads_tupleWritten port abi s
  obtain ⟨hmajor, hminor, -⟩ := rd_tupleWritten major minor s
  have mine : abiCombo (tupleWritten port abi s) port = combo s ++ [tupKey 6 abi] := by
    rw [abiCombo, hmajor, hminor, same]
  have cut : hostAbi port abi s =
      if attachOf (tupleWritten port abi s) port ≠ 1 then tupleWritten port abi s
      else if abi.major % 0x10000 ≠ (compatOf (tupleWritten port abi s) (portDie port) 6).major then
        (tupleWritten port abi s).wr (portDie port) Reg.HOST_ABI_STATUS_RESULT 2
      else if abiTested (tupleWritten port abi s) || (tupleWritten port abi s).boot.accepted.contains
          (BitVec.ofNat 32 (comboDigest (abiCombo (tupleWritten port abi s) port))) then
        attachPort port (tupleWritten port abi s)
      else portHeld port (tupleWritten port abi s) := by
    rw [hostAbi, live]
    rfl
  rw [cut, attach, device, mine, show abi.major % 0x10000 = abi.major from Nat.mod_eq_of_lt major,
    if_neg (not_not_intro linked)]
  rfl

theorem reads_portHeld (port : Nat) (s : State) :
    attachOf (portHeld port s) port = 3 ∧ (portHeld port s).rd (portDie port) Reg.HOST_ABI_STATUS_RESULT = 3 := by
  have regs : (portHeld port s).regs = (heldShown port s).regs := rfl
  refine ⟨?_, ?_⟩
  · rw [attachOf, State.rd_of_regs regs, heldShown, State.rd_wr_apart rfl]
    exact State.rd_wr_same ..
  · rw [State.rd_of_regs regs]
    exact State.rd_wr_same ..

/-- The fields that the driver's tuple may change. -/
def abiTouch (port : Nat) : List (Nat × Fld) :=
  [(portDie port, Reg.HOST_ABI_MAJOR), (portDie port, Reg.HOST_ABI_MINOR), (portDie port, Reg.HOST_STATUS_ATTACH),
    (portDie port, Reg.HOST_ABI_STATUS_RESULT), (portDie port, Reg.HOST_ABI_STATUS_ACTIVE)]

theorem regsBut_attachShown (port minor : Nat) (s : State) : RegsBut (abiTouch port) s (attachShown port minor s) :=
  .wr (.wr (.wr (.refl _ s) (portDie port) Reg.HOST_STATUS_ATTACH 2 (by simp [abiTouch])) (portDie port)
    Reg.HOST_ABI_STATUS_RESULT 1 (by simp [abiTouch])) (portDie port) Reg.HOST_ABI_STATUS_ACTIVE minor
    (by simp [abiTouch])

theorem regsBut_portHeld (port : Nat) (s : State) : RegsBut (abiTouch port) s (portHeld port s) :=
  .of_regs (.wr (.wr (.refl _ s) (portDie port) Reg.HOST_STATUS_ATTACH 3 (by simp [abiTouch])) (portDie port)
    Reg.HOST_ABI_STATUS_RESULT 3 (by simp [abiTouch])) rfl

theorem fieldsBut_portHeld (port : Nat) (s : State) : FieldsBut attachFields s (portHeld port s) :=
  .trans (t := heldShown port s) (((FieldsBut.of_regs rfl).wr (portDie port) 3 (by simp [attachFields])).wr
    (portDie port) 3 (by simp [attachFields])) (.of_regs rfl)

theorem regsBut_tupleWritten (port : Nat) (abi : Compat) (s : State) :
    RegsBut (abiTouch port) s (tupleWritten port abi s) :=
  .wr (.wr (.refl _ s) _ _ _ (by simp [abiTouch])) _ _ _ (by simp [abiTouch])

theorem rd_attachShown (port minor : Nat) (s : State) :
    attachOf (attachShown port minor s) port = 2 ∧
      (attachShown port minor s).rd (portDie port) Reg.HOST_ABI_STATUS_RESULT = 1 ∧
      (attachShown port minor s).rd (portDie port) Reg.HOST_ABI_STATUS_ACTIVE = minor % 2 ^ 16 := by
  refine ⟨?_, ?_, State.rd_wr_same ..⟩
  · rw [attachOf, attachShown, State.rd_wr_apart rfl, State.rd_wr_apart rfl]
    exact State.rd_wr_same ..
  · rw [attachShown, State.rd_wr_apart rfl]
    exact State.rd_wr_same ..

/-- The driver's tuple reads on where only the port's own answer changes. -/
theorem tuple_of_fields {port : Nat} {abi : Compat} {u t : State} (fields : FieldsBut attachFields u t)
    (hmajor : u.rd (portDie port) Reg.HOST_ABI_MAJOR = abi.major)
    (hminor : u.rd (portDie port) Reg.HOST_ABI_MINOR = abi.minor) :
    t.rd (portDie port) Reg.HOST_ABI_MAJOR = abi.major ∧ t.rd (portDie port) Reg.HOST_ABI_MINOR = abi.minor :=
  ⟨(fields _ Reg.HOST_ABI_MAJOR rfl).trans hmajor, (fields _ Reg.HOST_ABI_MINOR rfl).trans hminor⟩

theorem completes_hostAbi {s : State} {port : Nat} {abi : Compat} (hd : portDie port < dieCount s.orderCode)
    (live : portLive s port = true) (linked : attachOf s port = 1) (major : abi.major < 2 ^ 16)
    (minor : abi.minor < 2 ^ 16) :
    Completes (.hostAbi port abi) s (fun t =>
      t.rd (portDie port) Reg.HOST_ABI_MAJOR = abi.major ∧ t.rd (portDie port) Reg.HOST_ABI_MINOR = abi.minor ∧
      (abi.major ≠ (compatOf s (portDie port) 6).major →
        attachOf t port = 1 ∧ t.rd (portDie port) Reg.HOST_ABI_STATUS_RESULT = 2 ∧ t.host = s.host) ∧
      (abi.major = (compatOf s (portDie port) 6).major →
        (abiTested s = true ∨ BitVec.ofNat 32 (comboDigest (combo s ++ [tupKey 6 abi])) ∈ s.boot.accepted) →
        attachOf t port = 2 ∧ t.rd (portDie port) Reg.HOST_ABI_STATUS_RESULT = 1 ∧
        t.rd (portDie port) Reg.HOST_ABI_STATUS_ACTIVE = min abi.minor (compatOf s (portDie port) 6).minor % 2 ^ 16 ∧
        port ∉ t.host.abiHeld) ∧
      (abi.major = (compatOf s (portDie port) 6).major → abiTested s = false →
        BitVec.ofNat 32 (comboDigest (combo s ++ [tupKey 6 abi])) ∉ s.boot.accepted →
        attachOf t port = 3 ∧ t.rd (portDie port) Reg.HOST_ABI_STATUS_RESULT = 3 ∧ port ∈ t.host.abiHeld) ∧
      RegsBut [(portDie port, Reg.HOST_ABI_MAJOR), (portDie port, Reg.HOST_ABI_MINOR),
        (portDie port, Reg.HOST_STATUS_ATTACH), (portDie port, Reg.HOST_ABI_STATUS_RESULT),
        (portDie port, Reg.HOST_ABI_STATUS_ACTIVE)] s t ∧ t.boot = s.boot ∧ t.recs = s.recs) := by
  obtain ⟨attach, device, -⟩ := reads_tupleWritten port abi s
  obtain ⟨hmajor, hminor, -⟩ := rd_tupleWritten major minor s
  have touched := regsBut_tupleWritten port abi s
  have known : ∀ x, x ∈ s.boot.accepted ↔ s.boot.accepted.contains x = true := fun x => List.contains_iff_mem.symm
  refine completes_of_onDie (execHostAbi port abi s) rfl rfl hd ?_
  rw [hostAbi_of_linked live linked major minor]
  simp only [known]
  have host : (tupleWritten port abi s).host = s.host := rfl
  have rest : (tupleWritten port abi s).boot = s.boot ∧ (tupleWritten port abi s).recs = s.recs := ⟨rfl, rfl⟩
  generalize s.boot.accepted.contains (BitVec.ofNat 32 (comboDigest (combo s ++ [tupKey 6 abi]))) = accepted
  generalize tupleWritten port abi s = u at *
  by_cases differ : abi.major = (compatOf s (portDie port) 6).major
  · rw [if_neg (not_not_intro differ)]
    by_cases pass : (abiTested s || accepted) = true
    · obtain ⟨attached, result, active⟩ :=
        rd_attachShown port (min abi.minor (compatOf s (portDie port) 6).minor) u
      obtain ⟨major', minor'⟩ := tuple_of_fields
        (fieldsBut_attachShown port (min abi.minor (compatOf s (portDie port) 6).minor) u) hmajor hminor
      have gone : port ∉ delNat u.host.abiHeld port := fun member =>
        absurd (contains_delNat u.host.abiHeld port) (Bool.not_eq_false _ ▸ List.contains_iff_mem.2 member)
      rw [if_pos pass, attachPort_eq, device, hminor]
      exact ⟨major', minor', fun other => absurd differ other, fun _ _ => ⟨attached, result, active, gone⟩,
        fun _ untested unknown => absurd pass (by rw [untested, Bool.false_or]; exact unknown),
        (touched.trans (regsBut_attachShown port (min abi.minor (compatOf s (portDie port) 6).minor) u)).of_regs rfl,
        rest⟩
    · obtain ⟨attached, result⟩ := reads_portHeld port u
      obtain ⟨major', minor'⟩ := tuple_of_fields (fieldsBut_portHeld port u) hmajor hminor
      rw [if_neg pass]
      exact ⟨major', minor', fun other => absurd differ other,
        fun _ known => absurd (Bool.or_eq_true _ _ ▸ known) pass,
        fun _ _ _ => ⟨attached, result, List.contains_iff_mem.1 (contains_addNat_same _ _)⟩,
        touched.trans (regsBut_portHeld port u), rest⟩
  · have fields : FieldsBut attachFields u (u.wr (portDie port) Reg.HOST_ABI_STATUS_RESULT 2) :=
      (FieldsBut.of_regs rfl).wr _ _ (by simp [attachFields])
    obtain ⟨major', minor'⟩ := tuple_of_fields fields hmajor hminor
    rw [if_pos differ]
    exact ⟨major', minor', fun _ => ⟨(State.rd_wr_apart rfl ..).trans (attach.trans linked), State.rd_wr_same .., host⟩,
      fun same => absurd same differ, fun same => absurd same differ, 
      touched.wr (portDie port) Reg.HOST_ABI_STATUS_RESULT 2 (by simp [abiTouch]), rest⟩

/-- Settles O28: an unmet form changes nothing (log 58), the one step that a die takes is a multiple of 10 ns (log 51)
and is taken once the master has been heard (logs 101 and 104), and a digest is taken for a held format and for a port as
R108 takes the combination's own (log 105). -/
theorem timeCensusAndPairing : Obligations.TimeCensusAndPairing :=
  ⟨⟨fun _ _ _ => completes_rtimeExchange_of_few,
      fun _ _ _ t1 t2 t3 t4 _ => completes_rtimeExchange_of_step t1 t2 t3 t4,
      fun _ _ _ => completes_rtimeExchange_of_stepped,
      fun _ _ _ => completes_rtimeExchange_of_near,
      fun _ _ _ => completes_rtimeExchange_of_far,
      fun _ _ _ => completes_rtimeRemeasure⟩,
    fun _ _ => completes_censusClose, fun _ _ => completes_censusClose_of_not_due,
    fun _ _ => completes_untestedAccept_of_combo, fun _ _ => completes_untestedAccept_of_others,
    fun _ _ => completes_untestedAccept_of_stale, fun _ _ _ => completes_hostAbi⟩

end Sys2Proof.Machine
end

section
/-! PROOFS. Toash links (chapter 8): a port's link state, its status registers, frames, NAKs and retrains (R297, R307,
R325). -/

namespace Sys2Proof.Machine

/-! ### A port's link state -/

theorem linkPort_named (s : State) (d port : Nat) : (linkPort s d port).die = d ∧ (linkPort s d port).port = port := by
  unfold linkPort
  cases found : s.net.ports.find? (fun p => Nat.beq p.die d && Nat.beq p.port port) with
  | none => exact ⟨rfl, rfl⟩
  | some p =>
    have named := List.find?_some (p := fun p : LinkPort => Nat.beq p.die d && Nat.beq p.port port) found
    rw [Bool.and_eq_true] at named
    exact ⟨Nat.eq_of_beq_eq_true named.1, Nat.eq_of_beq_eq_true named.2⟩

theorem linkPort_of_ports {s t : State} (h : t.net.ports = s.net.ports) (d port : Nat) :
    linkPort t d port = linkPort s d port := by
  rw [linkPort, linkPort, h]

theorem linkPort_putPort {p : LinkPort} {d port : Nat} (s : State) (hd : p.die = d) (hp : p.port = port) :
    linkPort (putPort p s) d port = p := by
  subst hd hp
  rw [linkPort, putPort, find?_putWhere_same _ (by simp)]
  rfl

/-- What sending and acknowledging leave of a port: all but its buffers and the next SEQ. -/
structure SameLink (p q : LinkPort) : Prop where
  die : q.die = p.die
  port : q.port = p.port
  expect : q.expect = p.expect
  accepted : q.accepted = p.accepted
  replays : q.replays = p.replays

theorem sameLink_ackPort (n : Nat) (p : LinkPort) : SameLink p (ackPort n p) := by
  unfold ackPort
  split <;> exact ⟨rfl, rfl, rfl, rfl, rfl⟩

theorem ackPort_of_absent {n : Nat} {p : LinkPort} (absent : ∀ f ∈ p.retry, f.seq ≠ n) : ackPort n p = p :=
  if_neg fun any => by
    obtain ⟨f, member, same⟩ := List.any_eq_true.1 any
    exact absent f member (Nat.eq_of_beq_eq_true same)

/-- The oldest frame is acknowledged while nothing waits to be sent. -/
theorem retry_ackPort_of_oldest {n : Nat} {p : LinkPort} {f : LinkFrame} {l : List LinkFrame} (idle : p.queue = [])
    (oldest : p.retry = f :: l) (seq : f.seq = n) : (ackPort n p).retry = l := by
  have known : Nat.beq f.seq n = true := seq ▸ Nat.beq_refl _
  rw [ackPort, if_pos (by rw [oldest, List.any_cons, known]; rfl)]
  simp only [pumpPort, idle, oldest, framesAfter, known, if_true, List.take_nil, numberFrames, List.append_nil]

/-! ### A port's status registers -/

theorem regs_setPort_of_regs {s t : State} (h : t.regs = s.regs) (d port width : Nat) :
    (setPort d port width t).regs = (setPort d port width s).regs := by
  have caps : t.wrBit d Reg.DC_CAPS (8 + port) ((if width = 0 then 0 else 1) == 1) =
      { t with regs := (s.wrBit d Reg.DC_CAPS (8 + port) ((if width = 0 then 0 else 1) == 1)).regs } := by
    rw [State.wrBit, State.wrBit, State.rd_of_regs h, State.wr, State.wr, h]
  unfold setPort
  dsimp only
  rw [caps]
  split <;> rfl

/-- UP of a port's status. -/
def upOf (width : Nat) : Nat := if width = 0 then 0 else 1

theorem upOf_bit (width : Nat) : (upOf width % 2 ^ 1 == 1) = (upOf width == 1) := by
  unfold upOf
  split <;> rfl

theorem portUp_setPort {port : Nat} (hp : port < 5) (d width : Nat) (s : State) :
    portUp (setPort d port width s) d port = (upOf width == 1) := by
  rw [← upOf_bit]
  obtain rfl | rfl | rfl | rfl | rfl : port = 0 ∨ port = 1 ∨ port = 2 ∨ port = 3 ∨ port = 4 := by omega
  all_goals
    simp only [portUp, setPort, Nat.reduceLT, if_true, if_false, Nat.reduceSub]
    simp (disch := decide) only [State.rd_wr_apart, State.rd_wr_same]
    rfl

theorem portWidth_setPort {port : Nat} (hp : port < 5) (d width : Nat) (s : State) :
    portWidth (setPort d port width s) d port = width % (if port < 3 then 8 else 4) := by
  obtain rfl | rfl | rfl | rfl | rfl : port = 0 ∨ port = 1 ∨ port = 2 ∨ port = 3 ∨ port = 4 := by omega
  all_goals
    simp only [portWidth, setPort, Nat.reduceLT, if_true, if_false, Nat.reduceSub]
    simp (disch := decide) only [State.rd_wr_apart, State.rd_wr_same]
    rfl

theorem rdBit_caps_setPort {port width : Nat} (hp : port < 5) (some_ : width ≠ 0) (d : Nat) (s : State) :
    (setPort d port width s).rdBit d Reg.DC_CAPS (8 + port) = true := by
  have bit := rdBit_wrBit_true s d Reg.DC_CAPS (i := 8 + port) (by simp only [Reg.DC_CAPS]; omega)
  rw [State.rdBit] at bit ⊢
  obtain rfl | rfl | rfl | rfl | rfl : port = 0 ∨ port = 1 ∨ port = 2 ∨ port = 3 ∨ port = 4 := by omega
  all_goals
    simp only [setPort, if_neg some_, Nat.reduceLT, if_true, if_false, Nat.reduceSub, beq_self_eq_true]
    simp (disch := decide) only [State.rd_wr_apart]
    exact bit

theorem rd_retrain_setPort {port : Nat} (hp : port < 5) (d width e : Nat) (s : State) :
    (setPort d port width s).rd e (Reg.MESH_LINK_RETRAIN port) = s.rd e (Reg.MESH_LINK_RETRAIN port) := by
  obtain rfl | rfl | rfl | rfl | rfl : port = 0 ∨ port = 1 ∨ port = 2 ∨ port = 3 ∨ port = 4 := by omega
  all_goals
    simp only [setPort, Nat.reduceLT, if_true, if_false, Nat.reduceSub]
    simp (disch := decide) only [State.rd_wr_apart, State.rd_wrBit_apart]

/-! ### Frames (R297) -/

theorem toashFrame_of_order {s : State} {d port : Nat} {b : List Byte} (up : portUp s d port = true)
    (ok : frameOk b = true) (order : frameSeq b = (linkPort s d port).expect) :
    toashFrame d port b s = putPort (ackPort (frameAck b) { linkPort s d port with
      expect := ((linkPort s d port).expect + 1) % 4096, accepted := (linkPort s d port).accepted + 1 }) s := by
  simp only [toashFrame, up, ok, order, Nat.beq_refl, Bool.and_self, Bool.not_true, Bool.false_eq_true, if_false,
    if_true]

theorem toashFrame_of_bad {s : State} {d port : Nat} {b : List Byte} (up : portUp s d port = true)
    (bad : frameOk b = false ∨ frameSeq b ≠ (linkPort s d port).expect) :
    toashFrame d port b s = sendCtl d port 2 (leBytes 2 (((linkPort s d port).expect + 4095) % 4096))
      (correctable d 7 3 port (s.count d (Reg.MESH_LINK_CRC port) 1)) := by
  have unfit : (frameOk b && Nat.beq (frameSeq b) (linkPort s d port).expect) = false := by
    rw [Bool.and_eq_false_iff]
    exact bad.imp_right fun ne => Bool.eq_false_iff.2 fun same => ne (Nat.eq_of_beq_eq_true same)
  simp only [toashFrame, up, unfit, Bool.not_true, Bool.false_eq_true, if_false]

/-- A control frame sent on a port leaves what it has received. -/
theorem sameLink_sendCtl (d port kind : Nat) (bytes : List Byte) (s : State) :
    SameLink (linkPort s d port) (linkPort (sendCtl d port kind bytes s) d port) := by
  obtain ⟨die, number⟩ := linkPort_named s d port
  have put : linkPort (sendCtl d port kind bytes s) d port =
      pumpPort { linkPort s d port with queue := (linkPort s d port).queue ++ [⟨0, 1, bytes⟩] } :=
    linkPort_putPort _ die number
  rw [put]
  exact ⟨rfl, rfl, rfl, rfl, rfl⟩

section
variable {s : State} {d port : Nat} {header crc : BitVec 32} {flits b : List Byte}
  (hb : b = frameBytes header flits crc)
  (hd : d < dieCount s.orderCode) (hp : port < 5) (up : portUp s d port = true)
include hb hd hp up

theorem completes_toashFrame_of_order (ok : frameOk b = true) (order : frameSeq b = (linkPort s d port).expect) :
    Completes (.toashFrame d port header flits crc) s (fun t =>
      (linkPort t d port).expect = (frameSeq b + 1) % 4096 ∧
      (linkPort t d port).accepted = (linkPort s d port).accepted + 1 ∧
      ((linkPort s d port).queue = [] → (∀ x ∈ (linkPort s d port).retry, x.seq ≠ frameAck b) →
        (linkPort t d port).retry = (linkPort s d port).retry) ∧
      (∀ x l, (linkPort s d port).queue = [] → (linkPort s d port).retry = x :: l → x.seq = frameAck b →
        (linkPort t d port).retry = l) ∧ t.regs = s.regs ∧ t.net.ctl = s.net.ctl) := by
  obtain ⟨die, number⟩ := linkPort_named s d port
  refine completes_of_onDie (execToashFrame d port header flits crc s) rfl rfl hd ?_
  rw [if_pos hp, ← hb, toashFrame_of_order up ok order, order]
  have acked := sameLink_ackPort (frameAck b) { linkPort s d port with
    expect := ((linkPort s d port).expect + 1) % 4096, accepted := (linkPort s d port).accepted + 1 }
  have put := linkPort_putPort s (acked.die.trans die) (acked.port.trans number)
  refine ⟨(congrArg (·.expect) put).trans acked.expect, (congrArg (·.accepted) put).trans acked.accepted,
    fun _ absent => (congrArg (·.retry) put).trans ?_, fun x l idle oldest seq => (congrArg (·.retry) put).trans ?_,
    rfl, rfl⟩
  · exact congrArg (·.retry) (ackPort_of_absent (p := { linkPort s d port with
      expect := ((linkPort s d port).expect + 1) % 4096, accepted := (linkPort s d port).accepted + 1 }) absent)
  · exact retry_ackPort_of_oldest idle oldest seq

theorem completes_toashFrame_of_bad (bad : frameOk b = false ∨ frameSeq b ≠ (linkPort s d port).expect) :
    Completes (.toashFrame d port header flits crc) s (fun t =>
      (linkPort t d port).expect = (linkPort s d port).expect ∧
      (linkPort t d port).accepted = (linkPort s d port).accepted ∧
      t.net.ctl = s.net.ctl ++ [⟨d, port, none, 2, leBytes 2 (((linkPort s d port).expect + 4095) % 4096)⟩] ∧
      t.rd d (Reg.MESH_LINK_CRC port) = min (s.rd d (Reg.MESH_LINK_CRC port) + 1) (2 ^ 32 - 1) ∧
      RegsBut [(d, Reg.MESH_LINK_CRC port)] s t) := by
  have kept := correctable_keeps (F := { noFrame with recs := True }) trivial d 7 3 port
    (.refl _ (s.count d (Reg.MESH_LINK_CRC port) 1))
  refine completes_of_onDie (execToashFrame d port header flits crc s) rfl rfl hd ?_
  rw [if_pos hp, ← hb, toashFrame_of_bad up bad]
  generalize correctable d 7 3 port (s.count d (Reg.MESH_LINK_CRC port) 1) = u at kept
  have net : u.net = s.net := kept.net id
  have same := sameLink_sendCtl d port 2 (leBytes 2 (((linkPort s d port).expect + 4095) % 4096)) u
  rw [linkPort_of_ports (congrArg (·.ports) net)] at same
  exact ⟨same.expect, same.accepted, congrArg (·.ctl ++ _) net,
    (State.rd_of_regs (kept.regs id) ..).trans (State.rd_count_same ..),
    .of_regs (.count (.refl _ s) _ _ _ (.head _)) (kept.regs id)⟩

end

/-! ### Retrains (R325) -/

/-- The width of a retrain is written, and it is counted. -/
def retrained (d port width : Nat) (s : State) : State :=
  setPort d port width (putPort { linkPort s d port with replays := 0 } (s.count d (Reg.MESH_LINK_RETRAIN port) 1))

theorem retrain_eq (d port width : Nat) (s : State) :
    retrain d port width s =
      if width < fullWidth port then
        degrade d 7 ((halfPart (retrainRecord d port width 1 (retrained d port width s)) d (portSide port)).getD 0)
          (if port < 3 then 3 else 4) (if port < 3 then port else port - 3) (widthCount port width)
          (retrainRecord d port width 1 (retrained d port width s))
      else retrainRecord d port width 0 (retrained d port width s) := by
  by_cases narrow : width < fullWidth port
  · simp only [retrain, narrow, decide_true, if_true]
    rfl
  · simp only [retrain, narrow, decide_false, if_false]
    rfl

/-- The records of a retrain change the recorder alone. -/
theorem retrain_keeps_retrained (d port width : Nat) (s : State) :
    (retrain d port width s).regs = (retrained d port width s).regs ∧
      (retrain d port width s).net = (retrained d port width s).net := by
  rw [retrain_eq]
  split <;> exact ⟨rfl, rfl⟩

theorem linkPort_retrain (d port width : Nat) (s : State) :
    linkPort (retrain d port width s) d port = { linkPort s d port with replays := 0 } := by
  obtain ⟨die, number⟩ := linkPort_named s d port
  have kept : Keeps { noFrame with regs := True } (putPort { linkPort s d port with replays := 0 }
      (s.count d (Reg.MESH_LINK_RETRAIN port) 1)) (retrained d port width s) := setPort_keeps trivial _ _ _ (.refl _ _)
  rw [linkPort_of_ports (congrArg (·.ports) ((retrain_keeps_retrained d port width s).2.trans (kept.net id)))]
  exact linkPort_putPort _ die number

theorem rd_retrain_retrain {port : Nat} (hp : port < 5) (d width : Nat) (s : State) :
    (retrain d port width s).rd d (Reg.MESH_LINK_RETRAIN port) =
      min (s.rd d (Reg.MESH_LINK_RETRAIN port) + 1) (2 ^ 16 - 1) := by
  rw [State.rd_of_regs (retrain_keeps_retrained d port width s).1, retrained, rd_retrain_setPort hp]
  exact State.rd_count_same ..

theorem portUp_of_regs {s t : State} (h : t.regs = s.regs) (d port : Nat) : portUp t d port = portUp s d port := by
  rw [portUp, portUp, State.rd_of_regs h, State.rd_of_regs h]

theorem portWidth_of_regs {s t : State} (h : t.regs = s.regs) (d port : Nat) :
    portWidth t d port = portWidth s d port := by
  rw [portWidth, portWidth, State.rd_of_regs h, State.rd_of_regs h]

theorem leastWidth_le_fullWidth (port : Nat) : leastWidth port ≤ fullWidth port := by
  unfold leastWidth fullWidth
  split <;> decide

theorem completes_toashRetrain {s : State} {d port width : Nat} (hd : d < dieCount s.orderCode) (hp : port < 5)
    (up : portUp s d port = true) (full : fullWidth port ≤ width) :
    Completes (.toashRetrain d port width) s (fun t =>
      portUp t d port = true ∧ portWidth t d port = fullWidth port ∧
      t.rd d (Reg.MESH_LINK_RETRAIN port) = min (s.rd d (Reg.MESH_LINK_RETRAIN port) + 1) (2 ^ 16 - 1) ∧
      (linkPort t d port).expect = (linkPort s d port).expect ∧ HandsOver d 7 0x060 1 s t) := by
  have least : ¬width < leastWidth port := Nat.not_lt_of_le ((leastWidth_le_fullWidth port).trans full)
  have wide : toashRetrain d port width s = retrain d port (fullWidth port) s := by
    rw [toashRetrain, up, if_neg (by decide), if_neg least, Nat.min_eq_right full]
  have regs := (retrain_keeps_retrained d port (fullWidth port) s).1
  refine completes_of_onDie (execToashRetrain d port width s) rfl rfl hd ?_
  rw [if_pos hp, wide]
  refine ⟨?_, ?_, rd_retrain_retrain hp .., congrArg (·.expect) (linkPort_retrain ..), ?_⟩
  · rw [portUp_of_regs regs, retrained, portUp_setPort hp, fullWidth]
    split <;> rfl
  · rw [portWidth_of_regs regs, retrained, portWidth_setPort hp, fullWidth]
    split <;> rfl
  · have kept : Keeps { noFrame with regs := True } (putPort { linkPort s d port with replays := 0 }
        (s.count d (Reg.MESH_LINK_RETRAIN port) 1)) (retrained d port (fullWidth port) s) :=
      setPort_keeps trivial _ _ _ (.refl _ _)
    rw [retrain_eq, if_neg (Nat.lt_irrefl _)]
    exact handsOver_emit _ _ _ _ _ _ (congrArg (·.waiting) (kept.recs id))

/-! ### NAKs (R307) -/

theorem toashNak_of_up {s : State} {d port : Nat} (up : portUp s d port = true) (good n : Nat)
    (count : n = if Nat.beq (linkPort s d port).replayOf ((good + 1) % 4096) then
      (linkPort s d port).replays + 1 else 1) :
    toashNak d port good s =
      if 16 ≤ n then retrain d port (portWidth s d port) (putPort (ackPort good { linkPort s d port with
          replayOf := (good + 1) % 4096, replays := n }) s)
      else putPort (ackPort good { linkPort s d port with replayOf := (good + 1) % 4096, replays := n }) s := by
  subst count
  simp only [toashNak, up, Bool.not_true, Bool.false_eq_true, if_false]
  rfl

theorem completes_toashNak {s : State} {d port good : Nat} (hd : d < dieCount s.orderCode) (hp : port < 5)
    (up : portUp s d port = true) :
    Completes (.toashNak d port good) s (fun t =>
      ((linkPort s d port).replayOf = (good + 1) % 4096 → (linkPort s d port).replays < 15 →
        (linkPort t d port).replays = (linkPort s d port).replays + 1 ∧ t.regs = s.regs) ∧
      ((linkPort s d port).replayOf = (good + 1) % 4096 → (linkPort s d port).replays = 15 →
        (linkPort t d port).replays = 0 ∧
        t.rd d (Reg.MESH_LINK_RETRAIN port) = min (s.rd d (Reg.MESH_LINK_RETRAIN port) + 1) (2 ^ 16 - 1)) ∧
      (∀ x l, (linkPort s d port).queue = [] → (linkPort s d port).retry = x :: l → x.seq = good →
        (linkPort t d port).retry = l)) := by
  obtain ⟨die, number⟩ := linkPort_named s d port
  obtain ⟨n, count⟩ : ∃ n, n = if Nat.beq (linkPort s d port).replayOf ((good + 1) % 4096) then
      (linkPort s d port).replays + 1 else 1 := ⟨_, rfl⟩
  have acked := sameLink_ackPort good { linkPort s d port with replayOf := (good + 1) % 4096, replays := n }
  have put := linkPort_putPort s (acked.die.trans die) (acked.port.trans number)
  have again : (linkPort s d port).replayOf = (good + 1) % 4096 → n = (linkPort s d port).replays + 1 := fun same => by
    rw [count, same, Nat.beq_refl, if_pos rfl]
  refine completes_of_onDie (execToashNak d port good s) rfl rfl hd ?_
  rw [if_pos hp, toashNak_of_up up good n count]
  have retry : ∀ x l, (linkPort s d port).queue = [] → (linkPort s d port).retry = x :: l → x.seq = good →
      (ackPort good { linkPort s d port with replayOf := (good + 1) % 4096, replays := n }).retry = l :=
    fun x l idle oldest seq => retry_ackPort_of_oldest idle oldest seq
  by_cases limit : 16 ≤ n
  · rw [if_pos limit, linkPort_retrain]
    exact ⟨fun same few => absurd (again same) (by omega), fun _ _ => ⟨rfl, rd_retrain_retrain hp ..⟩,
      fun x l idle oldest seq => (congrArg (·.retry) put).trans (retry x l idle oldest seq)⟩
  · rw [if_neg limit]
    exact ⟨fun same _ => ⟨(congrArg (·.replays) put).trans (acked.replays.trans (again same)), rfl⟩,
      fun same last => absurd (again same) (by omega),
      fun x l idle oldest seq => (congrArg (·.retry) put).trans (retry x l idle oldest seq)⟩

/-- Settles O34: an ACK or the SEQ of a NAK that names no frame of the retry buffer frees none, and of what a link end
sends the control frames alone are built (log 116). -/
theorem toashFrames : Obligations.ToashFrames :=
  ⟨fun _ _ _ _ _ _ _ => completes_toashFrame_of_order, fun _ _ _ _ _ _ _ => completes_toashFrame_of_bad,
    fun _ _ _ _ => completes_toashNak, fun _ _ _ _ => completes_toashRetrain⟩

end Sys2Proof.Machine
end

section
/-! PROOFS. Toash ports, spine planes, routers and half-link lanes come and go (R43, R307, R329, R535, R537, Table
MESH-7). -/

namespace Sys2Proof.Machine

/-! ### Ports that train (R329) -/

theorem upOf_of_ne {width : Nat} (h : width ≠ 0) : upOf width = 1 := if_neg h

theorem completes_toashPortTrained {s : State} {d port width : Nat} (hd : d < dieCount s.orderCode) (hp : port < 5)
    (up : dieUp s d = true) (stage : trainStage port ≤ s.rd d Reg.DC_BOOT_STATUS_STAGE)
    (wide : leastWidth port ≤ width) (spine : 3 ≤ port → s.rack.spineReady.contains (port - 3) = true) :
    Completes (.toashPortTrained d port width) s (fun t =>
      portUp t d port = true ∧ portWidth t d port = min width (fullWidth port) ∧ (linkPort t d port).expect = 0 ∧
      (linkPort t d port).replays = 0 ∧ t.rdBit d Reg.DC_CAPS (8 + port) = true) := by
  have ready : (Nat.blt port 3 || s.rack.spineReady.contains (port - 3)) = true := by
    by_cases side : port < 3
    · have near : Nat.blt port 3 = true := Nat.blt_eq ▸ side
      rw [near, Bool.true_or]
    · rw [spine (by omega), Bool.or_true]
  have trained : toashPortTrained d port width s =
      putPort ⟨d, port, 0, 0, 0, 0, 0, [], []⟩ (setPort d port (min width (fullWidth port)) s) := by
    rw [toashPortTrained, up, Nat.ble_eq_true_of_le stage, Nat.ble_eq_true_of_le wide, ready]
    rfl
  have least : 1 ≤ leastWidth port := by
    unfold leastWidth
    split <;> decide
  have some_ : min width (fullWidth port) ≠ 0 := by
    have := leastWidth_le_fullWidth port
    omega
  have fits : min width (fullWidth port) % (if port < 3 then 8 else 4) = min width (fullWidth port) :=
    Nat.mod_eq_of_lt (Nat.lt_of_le_of_lt (Nat.min_le_right ..) (by unfold fullWidth; split <;> decide))
  have put : linkPort (toashPortTrained d port width s) d port = ⟨d, port, 0, 0, 0, 0, 0, [], []⟩ := by
    rw [trained]
    exact linkPort_putPort _ rfl rfl
  have regs : (toashPortTrained d port width s).regs = (setPort d port (min width (fullWidth port)) s).regs := by
    rw [trained]
    rfl
  refine completes_of_onDie (execToashPortTrained d port width s) rfl rfl hd ?_
  rw [if_pos hp]
  refine ⟨?_, ?_, congrArg (·.expect) put, congrArg (·.replays) put, ?_⟩
  · rw [portUp_of_regs regs, portUp_setPort hp, upOf_of_ne some_]
    rfl
  · rw [portWidth_of_regs regs, portWidth_setPort hp, fits]
  · rw [State.rdBit, State.rd_of_regs regs]
    exact rdBit_caps_setPort hp some_ d s

/-! ### Ports that go down (Table MESH-7) -/

section
variable {α : Type} {lose : α → Bool} {x : α}

theorem mem_of_mem_keepFree {k i : Nat} {l : List α} (h : x ∈ keepFree k lose i l) : x ∈ l := by
  induction l generalizing i with
  | nil => cases h
  | cons y l ih =>
    rw [keepFree] at h
    split at h
    · exact .tail _ (ih h)
    · rcases List.mem_cons.1 h with rfl | later
      · exact .head _
      · exact .tail _ (ih later)

theorem mem_keepFree_of_safe (safe : lose x = false) {k i : Nat} {l : List α} (h : x ∈ l) :
    x ∈ keepFree k lose i l := by
  induction l generalizing i with
  | nil => cases h
  | cons y l ih =>
    rw [keepFree]
    rcases List.mem_cons.1 h with rfl | later
    · rw [safe]
      exact .head _
    · split
      · exact ih later
      · exact .tail _ (ih later)

end

/-- A port down: its frames lost, its status and its link state cleared, and the record handed over. -/
def portCleared (d port : Nat) (s : State) : State :=
  let u := retrainRecord d port 0 2 (setPort d port 0 (loseFrames d port s))
  { u with net := { u.net with ports := u.net.ports.filter (fun p => !(Nat.beq p.die d && Nat.beq p.port port)) } }

theorem toashPortDown_of_alone {s : State} {d port : Nat} (side : port < 3) (up : portUp s d port = true)
    (alone : portParts s d port = []) : toashPortDown d port s = portCleared d port s := by
  simp only [toashPortDown, up, alone, side, Bool.not_true, Bool.false_eq_true, if_false, if_true]
  rfl

theorem linkPort_portCleared (d port : Nat) (s : State) :
    linkPort (portCleared d port s) d port = ⟨d, port, 0, 0, 0, 0, 0, [], []⟩ := by
  have gone : (portCleared d port s).net.ports.find? (fun p => Nat.beq p.die d && Nat.beq p.port port) = none := by
    rw [portCleared, List.find?_eq_none]
    intro p member
    have kept := (List.mem_filter.1 member).2
    rw [Bool.not_eq_true'] at kept
    rw [kept]
    exact Bool.false_ne_true
  rw [linkPort, gone]
  rfl

theorem completes_toashPortDown {s : State} {d port : Nat} (hd : d < dieCount s.orderCode) (side : port < 3)
    (up : portUp s d port = true) (alone : portParts s d port = []) :
    Completes (.toashPortDown d port) s (fun t =>
      portUp t d port = false ∧ linkPort t d port = ⟨d, port, 0, 0, 0, 0, 0, [], []⟩ ∧ HandsOver d 7 0x060 1 s t ∧
      { t.slc with net := s.slc.net } = s.slc ∧ (∀ x ∈ t.slc.net, x ∈ s.slc.net) ∧
      (∀ x ∈ s.slc.net, cohVia s d port x = false → x ∈ t.slc.net) ∧
      (∀ x ∈ s.net.redNet, redVia s d port x = false → x ∈ t.net.redNet)) := by
  refine completes_of_onDie (execToashPortDown d port s) rfl rfl hd ?_
  rw [if_pos (by omega), toashPortDown_of_alone side up alone]
  have kept : Keeps { noFrame with regs := True } (loseFrames d port s) (setPort d port 0 (loseFrames d port s)) :=
    setPort_keeps trivial _ _ _ (.refl _ _)
  have regs : (portCleared d port s).regs = (setPort d port 0 (loseFrames d port s)).regs := rfl
  have slc : (portCleared d port s).slc = (loseFrames d port s).slc := kept.slc id
  have red : (portCleared d port s).net.redNet = (loseFrames d port s).net.redNet := congrArg (·.redNet) (kept.net id)
  refine ⟨?_, linkPort_portCleared d port s, handsOver_emit _ _ _ _ _ _ (congrArg (·.waiting) (kept.recs id)),
    ?_, ?_, ?_, ?_⟩
  · rw [portUp_of_regs regs, portUp_setPort (by omega)]
    rfl
  · rw [slc]
    rfl
  · rw [slc]
    exact fun x => mem_of_mem_keepFree
  · rw [slc]
    exact fun x member safe => mem_keepFree_of_safe safe member
  · rw [red]
    exact fun x member safe => mem_keepFree_of_safe safe member

/-! ### Planes (R535) -/

/-- What the status of a Toash-L port is shown in. -/
def planeFields : List Fld :=
  [Reg.DC_CAPS, Reg.MESH_TL_STATUS_UP 0, Reg.MESH_TL_STATUS_UP 1, Reg.MESH_TL_STATUS_WIDTH 0,
    Reg.MESH_TL_STATUS_WIDTH 1, Reg.MESH_TL_STATUS_SPINE_PORT 0, Reg.MESH_TL_STATUS_SPINE_PORT 1]

theorem fieldsBut_setPort {plane : Nat} (hp : plane < 2) (d width : Nat) (s : State) :
    FieldsBut planeFields s (setPort d (3 + plane) width s) := by
  have caps : FieldsBut planeFields s (s.wrBit d Reg.DC_CAPS (8 + (3 + plane)) (upOf width == 1)) :=
    (FieldsBut.of_regs rfl).wr d _ (.head _)
  rw [setPort, if_neg (by omega), Nat.add_sub_cancel_left]
  obtain rfl | rfl : plane = 0 ∨ plane = 1 := by omega
  all_goals exact ((caps.wr d _ (by simp [planeFields])).wr d _ (by simp [planeFields])).wr d _ (by simp [planeFields])

theorem rd_setPort_of_ne {plane d e : Nat} (hp : plane < 2) (ne : d ≠ e) (width : Nat) {f : Fld} (hf : f.placed = true)
    (s : State) : (setPort e (3 + plane) width s).rd d f = s.rd d f := by
  have apart {g : Fld} (hg : g.placed = true) : f.key d ≠ g.key e := Fld.key_ne_of_die hf hg ne
  rw [setPort, if_neg (by omega), Nat.add_sub_cancel_left]
  obtain rfl | rfl : plane = 0 ∨ plane = 1 := by omega
  all_goals
    rw [State.rd_wr_ne _ _ _ _ _ _ (apart rfl), State.rd_wr_ne _ _ _ _ _ _ (apart rfl),
      State.rd_wr_ne _ _ _ _ _ _ (apart rfl), State.rd_wrBit_ne _ _ _ _ _ _ _ (apart rfl)]

/-- The ports of a plane taken down on every die. -/
def planeDown (plane : Nat) (s : State) : State :=
  each (allDies s) (fun s d => if portUp s d (3 + plane) then setPort d (3 + plane) 0 s else s) s

theorem fieldsBut_planeDown {plane : Nat} (hp : plane < 2) (s : State) : FieldsBut planeFields s (planeDown plane s) :=
  .each (fun t d => .ite (fun _ => fieldsBut_setPort hp d 0 t) (fun _ => .of_regs rfl)) _ _

theorem planeDown_keeps (plane : Nat) (s : State) : Keeps { noFrame with regs := True } s (planeDown plane s) :=
  each_induction (f := fun s d => if portUp s d (3 + plane) then setPort d (3 + plane) 0 s else s)
    (P := Keeps { noFrame with regs := True } s)
    (fun t d _ h => by
      dsimp only
      split
      · exact setPort_keeps trivial _ _ _ h
      · exact h)
    (.refl _ s)

theorem portUp_planeDown {plane d : Nat} {s : State} (hp : plane < 2) (hd : d < dieCount s.orderCode) :
    portUp (planeDown plane s) d (3 + plane) = false := by
  refine each_once (P := fun _ => True) (Q := fun t => portUp t d (3 + plane) = false)
    (f := fun s d => if portUp s d (3 + plane) then setPort d (3 + plane) 0 s else s) (nodup_allDies s)
    (mem_allDies.2 hd) (fun _ _ _ _ h => h) (fun t _ => ?_) (fun t e _ ne h => ?_) trivial
  · split
    · exact portUp_setPort (by omega) d 0 t
    next down => exact Bool.not_eq_true _ ▸ down
  · split
    · rw [← h, portUp, portUp, if_neg (by omega), if_neg (by omega), Nat.add_sub_cancel_left]
      obtain rfl | rfl : plane = 0 ∨ plane = 1 := by omega
      all_goals rw [rd_setPort_of_ne (by decide) ne.symm 0 rfl]
    · exact h

section
variable {s t : State} (code : t.orderCode = s.orderCode)
  (halves : ∀ d side, side < 2 → halfPart t d side = halfPart s d side)
include halves

theorem dieIn_of_halves (p d : Nat) : dieIn t p d = dieIn s p d := by
  rw [dieIn, dieIn, halfIn, halfIn, halfIn, halfIn, halves d 0 (by decide), halves d 1 (by decide)]

include code

theorem spanning_of_halves : (allParts t).filter (spansModules t) = (allParts s).filter (spansModules s) := by
  have dies : allDies t = allDies s := by rw [allDies, allDies, code]
  have mine (p : Nat) : dieIn t p = dieIn s p := funext (dieIn_of_halves halves p)
  have spans : spansModules t = spansModules s := funext fun p => by
    rw [spansModules, spansModules, partDies, partDies, dies, mine]
  rw [spans, allParts, allParts, dies]
  simp only [mine]

end

/-- The loss of a plane recorded by the RM, and the plane out of use. -/
def planeMarked (plane : Nat) (s : State) : State :=
  let u := rackFault (plane + 1) s
  { u with rack := { u.rack with
    planeLost := addNat u.rack.planeLost plane, spineReady := delNat u.rack.spineReady plane } }

theorem rackFault_keeps_rest (cause : Nat) (s : State) : Keeps { noFrame with recs := True } s (rackFault cause s) :=
  rackEmit_keeps trivial _ _ _ _ _ (.refl _ s)

theorem rackSeq_rackFault (cause : Nat) (s : State) :
    (rackFault cause s).recs.rackSeq = (s.recs.rackSeq + 1) % 65536 := rfl

theorem planeMarked_spec (plane : Nat) (s : State) : (planeMarked plane s).regs = s.regs ∧
    (planeMarked plane s).orderCode = s.orderCode ∧ (planeMarked plane s).boot = s.boot ∧
    (planeMarked plane s).recs.rackSeq = (s.recs.rackSeq + 1) % 65536 ∧ (planeMarked plane s).rack = { s.rack with
      planeLost := addNat s.rack.planeLost plane, spineReady := delNat s.rack.spineReady plane } := by
  have kept := rackFault_keeps_rest (plane + 1) s
  have seq := rackSeq_rackFault (plane + 1) s
  unfold planeMarked
  generalize rackFault (plane + 1) s = u at *
  have rack := kept.rack id
  exact ⟨kept.regs id, kept.orderCode, kept.boot id, seq, rack ▸ rfl⟩

theorem planeLoss_eq {s : State} {plane : Nat} (here : s.rack.planeLost.contains plane = false)
    (other : s.rack.planeLost.contains (1 - plane) = false) :
    planeLoss plane s = each ((allParts (planeDown plane (planeMarked plane s))).filter
        (spansModules (planeDown plane (planeMarked plane s))))
      (fun u p => partFault p 0x10 ((partDies u p).headD 0) 0x032 s.recs.rackSeq u)
      (planeDown plane (planeMarked plane s)) := by
  unfold planeLoss
  rw [here, other, if_neg Bool.false_ne_true]
  dsimp only
  rw [if_neg Bool.false_ne_true, if_neg Bool.false_ne_true]
  rfl

theorem planeLoss_of_first {s : State} {plane : Nat} (hp : plane < 2)
    (here : s.rack.planeLost.contains plane = false) (other : s.rack.planeLost.contains (1 - plane) = false)
    (alone : (allParts s).filter (spansModules s) = []) :
    planeLoss plane s = planeDown plane (planeMarked plane s) := by
  have fields := fieldsBut_planeDown hp (planeMarked plane s)
  have kept := planeDown_keeps plane (planeMarked plane s)
  obtain ⟨marked, code, -, -, -⟩ := planeMarked_spec plane s
  rw [planeLoss_eq here other, spanning_of_halves (s := s)
    (kept.orderCode.trans code) fun d side hs => ?_, alone]
  · rfl
  · obtain rfl | rfl : side = 0 ∨ side = 1 := by omega
    all_goals
      rw [halfPart, halfPart, fields d _ rfl, fields d _ rfl, State.rd_of_regs marked, State.rd_of_regs marked]

theorem completes_spinePlaneLoss {s : State} {plane : Nat} (hp : plane < 2)
    (here : s.rack.planeLost.contains plane = false) (other : s.rack.planeLost.contains (1 - plane) = false)
    (alone : (allParts s).filter (spansModules s) = []) :
    Completes (.spinePlaneLoss plane) s (fun t =>
      t.rack.planeLost.contains plane = true ∧ t.rack.spineReady.contains plane = false ∧
      (∀ d, d < dieCount s.orderCode → portUp t d (3 + plane) = false) ∧
      t.recs.rackSeq = (s.recs.rackSeq + 1) % 65536 ∧ t.boot = s.boot) := by
  have kept := planeDown_keeps plane (planeMarked plane s)
  refine completes_of_next (execSpinePlaneLoss plane s) rfl rfl ?_
  obtain ⟨-, code, boot, seq, rack⟩ := planeMarked_spec plane s
  rw [if_pos hp, planeLoss_of_first hp here other alone]
  have down (d : Nat) (hd : d < dieCount s.orderCode) :
      portUp (planeDown plane (planeMarked plane s)) d (3 + plane) = false := portUp_planeDown hp (by rwa [code])
  generalize planeDown plane (planeMarked plane s) = t at *
  generalize planeMarked plane s = u at *
  rw [kept.rack id, kept.recs id, kept.boot id, rack]
  exact ⟨contains_addNat_same _ _, contains_delNat _ _, down, seq, boot⟩

/-! ### Routers and half-link lanes (Table MESH-7) -/

theorem degradeFault_of_none {s : State} {d side : Nat} (none_ : halfPart s d side = none)
    (kind index remain cause : Nat) :
    degradeFault d side kind index remain cause s = degrade d 7 0 kind index remain s := by
  have same : halfPart (degrade d 7 0 kind index remain s) d side = none := none_
  rw [degradeFault, none_]
  dsimp only [Option.getD_none]
  rw [same]

theorem degradeFault_of_some {s : State} {d side p : Nat} (half : halfPart s d side = some p)
    (kind index remain cause : Nat) :
    degradeFault d side kind index remain cause s =
      partFault p cause d 0x033 (nextSeq s d) (degrade d 7 p kind index remain s) := by
  have same : halfPart (degrade d 7 p kind index remain s) d side = some p := half
  rw [degradeFault, half]
  dsimp only [Option.getD_some]
  rw [same]

theorem degradeFault_keeps_rest (d side kind index remain cause : Nat) (s : State) :
    Keeps faultFrame s (degradeFault d side kind index remain cause s) := by
  cases half : halfPart s d side with
  | none =>
    rw [degradeFault_of_none half]
    exact emit_keeps trivial _ _ _ _ _ _ (.refl _ s)
  | some p =>
    rw [degradeFault_of_some half]
    exact partFault_keeps trivial trivial trivial trivial trivial trivial trivial trivial trivial trivial _ _ _ _ _
      (emit_keeps trivial _ _ _ _ _ _ (.refl _ s))

theorem faulted_degradeFault {s : State} {d side p : Nat} (half : halfPart s d side = some p)
    (named : (imgParts s).contains p = true) (kind index remain cause : Nat) :
    (degradeFault d side kind index remain cause s).prt.faulted.contains p = true := by
  have named' : (imgParts (degrade d 7 p kind index remain s)).contains p = true := named
  rw [degradeFault_of_some half, faulted_partFault (.inr named')]
  exact contains_addNat_same _ _

/-- A router failed, and its half marked in the failure map. -/
def routerMarked (d c : Nat) (s : State) : State :=
  State.wrBit { s with net := { s.net with routersFailed := addNat s.net.routersFailed (d * 320 + c) } } d
    Reg.REC_FAIL_HALF (clusterSide c) true

theorem clusterSide_lt (c : Nat) : clusterSide c < 2 := by
  unfold clusterSide
  split <;> decide

theorem halfPart_routerMarked (d c e side : Nat) (hs : side < 2) (s : State) :
    halfPart (routerMarked d c s) e side = halfPart s e side := by
  obtain rfl | rfl : side = 0 ∨ side = 1 := by omega
  all_goals
    rw [halfPart, halfPart, routerMarked, State.rd_wrBit_apart rfl, State.rd_wrBit_apart rfl]
    rfl

theorem completes_routerFailure {s : State} {d c : Nat} (hd : d < dieCount s.orderCode) (hc : c < 320) :
    Completes (.routerFailure d c) s (fun t =>
      t.net.routersFailed.contains (d * 320 + c) = true ∧
      (halfPart s d (clusterSide c) = none → t.rdBit d Reg.REC_FAIL_HALF (clusterSide c) = true ∧
        HandsOver d 7 0x033 1 s t ∧ RegsBut [(d, Reg.REC_FAIL_HALF)] s t) ∧
      (∀ p, halfPart s d (clusterSide c) = some p → (imgParts s).contains p = true →
        t.prt.faulted.contains p = true)) := by
  have kept := degradeFault_keeps_rest d (clusterSide c) 2 (clusterSide c) 0 0x0A (routerMarked d c s)
  have half := halfPart_routerMarked d c d (clusterSide c) (clusterSide_lt c) s
  refine completes_of_onDie (execRouterFailure d c s) rfl rfl hd ?_
  rw [if_pos hc]
  refine ⟨(congrArg (·.routersFailed.contains (d * 320 + c)) (kept.net id)).trans
    (contains_addNat_same _ _), fun free => ?_,
    fun p assigned named => faulted_degradeFault (half.trans assigned) named 2 (clusterSide c) 0 0x0A⟩
  have degraded : routerFailure d c s = degrade d 7 0 2 (clusterSide c) 0 (routerMarked d c s) :=
    degradeFault_of_none (half.trans free) 2 (clusterSide c) 0 0x0A
  rw [degraded]
  exact ⟨rdBit_wrBit_true _ d Reg.REC_FAIL_HALF (clusterSide_lt c), handsOver_emit _ _ _ _ _ _ rfl,
    .of_regs (.wrBit (.refl _ s) d Reg.REC_FAIL_HALF (clusterSide c) true (.head _)) rfl⟩

/-- A lane out of use. -/
def laneMarked (d lane : Nat) (s : State) : State :=
  { s with net := { s.net with lanesDown := addNat s.net.lanesDown (d * 4 + lane) } }

/-- The lanes of the die's half link that are left. -/
def lanesLeft (d : Nat) (s : State) : Nat :=
  ([0, 1, 2, 3].filter (fun l => !s.net.lanesDown.contains (d * 4 + l))).length

theorem halfLinkLaneDown_of_up {s : State} {d lane : Nat} (up : s.net.lanesDown.contains (d * 4 + lane) = false) :
    halfLinkLaneDown d lane s =
      let u := degradeFault d 0 5 lane (lanesLeft d (laneMarked d lane s)) 0x09 (laneMarked d lane s)
      match halfPart u d 1 with
      | some p => partFault p 0x09 d 0x033 (nextSeq (laneMarked d lane s) d) u
      | none => u := by
  rw [halfLinkLaneDown, up, if_neg Bool.false_ne_true]
  rfl

theorem completes_halfLinkLaneDown {s : State} {d lane : Nat} (hd : d < dieCount s.orderCode) (hl : lane < 4)
    (up : s.net.lanesDown.contains (d * 4 + lane) = false) :
    Completes (.halfLinkLaneDown d lane) s (fun t =>
      t.net.lanesDown.contains (d * 4 + lane) = true ∧
      (∀ p, halfPart s d 0 = some p → (imgParts s).contains p = true → t.prt.faulted.contains p = true) ∧
      (halfPart s d 0 = none → halfPart s d 1 = none → HandsOver d 7 0x033 1 s t ∧ t.regs = s.regs)) := by
  have kept := degradeFault_keeps_rest d 0 5 lane (lanesLeft d (laneMarked d lane s)) 0x09 (laneMarked d lane s)
  refine completes_of_onDie (execHalfLinkLaneDown d lane s) rfl rfl hd ?_
  rw [if_pos hl, halfLinkLaneDown_of_up up]
  have lanes := (congrArg (·.lanesDown.contains (d * 4 + lane)) (kept.net id)).trans (contains_addNat_same _ _)
  have faults (p : Nat) (half : halfPart s d 0 = some p) (named : (imgParts s).contains p = true) :=
    faulted_degradeFault (s := laneMarked d lane s) half named 5 lane (lanesLeft d (laneMarked d lane s)) 0x09
  have alone (free : halfPart s d 0 = none) := degradeFault_of_none (s := laneMarked d lane s) free 5 lane
    (lanesLeft d (laneMarked d lane s)) 0x09
  generalize degradeFault d 0 5 lane (lanesLeft d (laneMarked d lane s)) 0x09 (laneMarked d lane s) = u at *
  dsimp only
  cases other : halfPart u d 1 with
  | none =>
    refine ⟨lanes, faults, fun free _ => ?_⟩
    rw [alone free]
    exact ⟨handsOver_emit _ _ _ _ _ _ rfl, rfl⟩
  | some q =>
    have rest := partFault_keeps_rest q 0x09 d 0x033 (nextSeq (laneMarked d lane s) d) u
    refine ⟨(congrArg (·.lanesDown.contains (d * 4 + lane)) (rest.net id)).trans lanes,
      fun p half named => faulted_partFault_mono (faults p half named) _ _ _ _ _, fun free free' => ?_⟩
    rw [alone free] at other
    exact absurd (other.symm.trans free') nofun

/-- Settles O35. -/
theorem portsRoutersAndPlanes : Obligations.PortsRoutersAndPlanes :=
  ⟨⟨fun _ _ _ _ => completes_toashPortTrained, fun _ _ _ => completes_toashPortDown,
    fun _ _ => completes_spinePlaneLoss⟩,
    fun _ _ _ => completes_routerFailure, fun _ _ _ => completes_halfLinkLaneDown⟩

end Sys2Proof.Machine
end

section
/-! PROOFS. Control of a mover: SIGNAL, END and illegal words (R372, R380, R381, R396, R577), WAIT (R379), and RESTART,
ABORT and the halt time-out (R386). -/

namespace Sys2Proof.Machine

/-! ### The end of a mover's item -/

theorem itemsOut_completeItem (q tag status kind index info : Nat) (cqe irq : Bool) (s : State) :
    (completeItem q tag status kind index info cqe irq s).que.itemsOut = lower s.que.itemsOut q := by
  obtain ⟨buckets, sectors, reported⟩ := reportSectors_eq q { s with
    que := { s.que with itemsOut := lower s.que.itemsOut q } }
  rw [completeItem, reported]
  cases cqe with
  | false => rfl
  | true => exact congrArg (·.itemsOut) (que_writeCqe ..)

/-- The mover is free, and its item has left its queue. -/
def Ended (s : State) (x : Mover) (t : State) : Prop :=
  findMover t x.die x.m = none ∧ t.que.itemsOut = lower s.que.itemsOut x.queue

theorem ended_mvFinish (x : Mover) (status : Nat) (s : State) : Ended s x (mvFinish x status s) :=
  ⟨findMover_mvFinish x status s, itemsOut_completeItem ..⟩

/-- An item without CQE ends without a store. -/
theorem mvFinish_without_cqe {x : Mover} (silent : x.cqe = false) (status : Nat) (s : State) :
    (mvFinish x status s).regs = s.regs ∧ (mvFinish x status s).slc = s.slc ∧ (mvFinish x status s).recs = s.recs := by
  have kept := reportSectors_keeps (F := { noFrame with que := True, host := True }) trivial x.queue
    (.refl _ { dropMovers (fun y => Nat.beq y.die x.die && Nat.beq y.m x.m) s with que := {
      (dropMovers (fun y => Nat.beq y.die x.die && Nat.beq y.m x.m) s).que with
        itemsOut := lower s.que.itemsOut x.queue } })
  rw [mvFinish, silent]
  exact ⟨kept.regs id, kept.slc id, kept.recs id⟩

theorem completes_movEnd {s : State} {d m w : Nat} {x : Mover} (h : AtWord s d m 0 x w) :
    Completes (.movEnd d m) s (fun t => findMover t d m = none ∧ t.que.itemsOut = lower s.que.itemsOut x.queue ∧
      (x.cqe = false → t.regs = s.regs ∧ t.slc = s.slc ∧ t.recs = s.recs)) := by
  have run := mvRun_atWord h (fun x _ s => mvFinish x (if x.stopped then 1 else 0) s)
  obtain ⟨-, found, -⟩ := h
  obtain ⟨rfl, rfl⟩ := named_of_findMover found
  obtain ⟨free, out⟩ := ended_mvFinish (runsWord x w) (if x.stopped then 1 else 0) (putMover (runsWord x w) s)
  exact ⟨_, run, free, out, fun silent => mvFinish_without_cqe (x := runsWord x w) silent _ _⟩

/-! ### SIGNAL -/

theorem completes_signal {s s2 s3 : State} {d m w pa : Nat} {x : Mover} {v : SectorData} (h : AtWord s d m 7 x w)
    (aligned : x.mr (mvRD w) % 8 = 0)
    (there : translate (runsWord x w).xby (x.mr (mvRD w)) .store (putMover (runsWord x w) s) = some (.pa pa, s2))
    (performed : accAtomic (runsWord x w).acc pa (fun y => BitVec.ofNat 256 (y.toNat -
      bits y.toNat (pa % 32 * 8 + 63) (pa % 32 * 8) * 2 ^ (pa % 32 * 8) + (if (mvImm w).testBit 0 then
        x.mr (mvRS w) else (bits y.toNat (pa % 32 * 8 + 63) (pa % 32 * 8) + x.mr (mvRS w)) % 2 ^ 64) *
        2 ^ (pa % 32 * 8))) s2 = some (.ok v false, s3)) :
    Completes (.signal d m) s (fun t => t.slc = s3.slc ∧
      t.rd d Reg.MOV_BYTES = min (s3.rd d Reg.MOV_BYTES + 8) (2 ^ 48 - 1) ∧ RegsBut [(d, Reg.MOV_BYTES)] s3 t ∧
      (findMover s3 d m = some (runsWord x w) → WentTo t d m (x.pc + 1) x.mregs)) := by
  have run := mvRun_atWord h mvSignal
  obtain ⟨-, found, -, -, -, -, lives, same, -, hpc, -⟩ := h
  obtain ⟨rfl, rfl⟩ := named_of_findMover found
  have signalled : mvSignal (runsWord x w) w (putMover (runsWord x w) s) =
      putMover (goesTo (runsWord x w) (x.pc + 1))
        (noteSector x.queue x.die pa (s3.count x.die Reg.MOV_BYTES 8)) := by
    rw [← mvDone_of_goes (x := runsWord x w) lives same (by omega), mvSignal]
    simp only [show (runsWord x w).mr = x.mr from rfl, aligned, there, ne_eq, not_true_eq_false, if_false]
    rw [performed]
    rfl
  rw [signalled] at run
  exact ⟨_, run, rfl, State.rd_count_same .., .of_regs (.count (.refl _ s3) _ _ _ (.head _)) rfl,
    fun kept => wentTo_putMover (y := runsWord x w)
      (s := noteSector x.queue x.die pa (s3.count x.die Reg.MOV_BYTES 8)) kept rfl rfl _⟩

/-! ### Illegal words -/

theorem completes_moverIllegalInstruction {s : State} {d m : Nat} {x : Mover} (hd : d < dieCount s.orderCode)
    (found : findMover s d m = some x) (runs : x.state ≠ .halted) (boundary : x.latched = none)
    (bad : badWord s x = true ∨ mvLegal (progWord s d x.slot x.pc) = false)
    (works : s.prt.faulted.contains x.part = false) :
    Completes (.moverIllegalInstruction d m) s (fun t =>
      findMover t d m = none ∧ ctxKilled t x.part x.inst x.ctx = true) := by
  have busy : (x.state == .halted || x.latched.isSome) = false := by
    rw [boundary, Bool.or_eq_false_iff]
    exact ⟨beq_eq_false_iff_ne.2 runs, rfl⟩
  refine completes_of_onDie (execMoverIllegalInstruction d m s) rfl rfl hd ?_
  rw [found]
  dsimp only
  rw [busy, if_neg Bool.false_ne_true]
  obtain ⟨rfl, rfl⟩ := named_of_findMover found
  by_cases unreadable : badWord s x = true
  · rw [if_pos unreadable]
    exact mvFault_stops x _ _ works
  · rw [if_neg unreadable, bad.resolve_left unreadable, if_neg Bool.false_ne_true]
    exact mvFault_stops x _ _ works

/-- Settles O37. -/
theorem moverControl : Obligations.MoverControl :=
  ⟨fun _ _ _ _ _ _ _ _ _ => completes_signal, fun _ _ _ _ _ => completes_movEnd,
    fun _ _ _ _ hd found runs boundary illegal =>
      completes_moverIllegalInstruction hd found runs boundary (.inr illegal),
    fun s _ _ x hd found runs boundary bad => completes_moverIllegalInstruction hd found runs boundary
      (.inl (show (x.latched.isNone && s.que.badProg.contains _) = true by rw [boundary, bad]; rfl))⟩

/-! ### WAIT (R379) -/

/-- A poll whose word is read: the comparison decides. -/
theorem mvWait_of_word {x z : Mover} {w v : Nat} {s t : State} (lives : x.stopped = false) (same : x.changed = false)
    (hpc : x.pc < 127) (aligned : x.mr (mvRD w) % 8 = 0) (read : mvWord x (x.mr (mvRD w)) s = .ok v t)
    (kept : findMover t x.die x.m = some z) :
    (mvWait x w s).slc = t.slc ∧ (mvWait x w s).regs = t.regs ∧
      (waitHolds w v (x.mr (mvRS w)) = true → WentTo (mvWait x w s) x.die x.m (x.pc + 1) x.mregs) ∧
      (waitHolds w v (x.mr (mvRS w)) = false →
        findMover (mvWait x w s) x.die x.m = some { x with state := .stalled }) := by
  have decided : mvWait x w s = if waitHolds w v (x.mr (mvRS w)) then putMover (goesTo x (x.pc + 1)) t
      else putMover { x with state := .stalled } t := by
    rw [← mvDone_of_goes lives same (by omega)]
    simp only [mvWait, aligned, read, ne_eq, not_true_eq_false, if_false]
    rfl
  rw [decided]
  refine ⟨by split <;> rfl, by split <;> rfl, fun holds => ?_, fun fails => ?_⟩
  · rw [if_pos holds]
    exact wentTo_putMover kept rfl rfl _
  · rw [if_neg (Bool.eq_false_iff.1 fails)]
    exact findMover_putMover kept rfl rfl

theorem completes_wait {s s2 : State} {d m w v : Nat} {x : Mover} (h : AtWord s d m 6 x w)
    (aligned : x.mr (mvRD w) % 8 = 0)
    (read : mvWord { runsWord x w with checked := true } (x.mr (mvRD w)) (putMover (runsWord x w) s) = .ok v s2)
    (kept : findMover s2 d m = some (runsWord x w)) :
    Completes (.wait d m) s (fun t => t.slc = s2.slc ∧ t.regs = s2.regs ∧
      (waitHolds w v (x.mr (mvRS w)) = true → WentTo t d m (x.pc + 1) x.mregs) ∧
      (waitHolds w v (x.mr (mvRS w)) = false → ∃ y, findMover t d m = some y ∧ y.state = .stalled ∧ y.pc = x.pc ∧
        y.latched = some (BitVec.ofNat 64 w))) := by
  have run := mvRun_atWord h (fun x w s => if x.checked then s else mvWait { x with checked := true } w s)
  obtain ⟨-, found, -, -, -, fresh, lives, same, -, hpc, -⟩ := h
  obtain ⟨rfl, rfl⟩ := named_of_findMover found
  have first : (runsWord x w).checked = false := fresh
  rw [first, if_neg Bool.false_ne_true] at run
  obtain ⟨slc, regs, went, stalled⟩ := mvWait_of_word (x := { runsWord x w with checked := true }) lives same hpc
    aligned read kept
  exact ⟨_, run, slc, regs, went, fun fails => ⟨_, stalled fails, rfl, rfl, rfl⟩⟩

/-- A stalled mover goes on with the instruction that it has latched (R376). -/
theorem mvRun_latched {s : State} {d m op : Nat} {w : Word} {x : Mover} (hd : d < dieCount s.orderCode)
    (found : findMover s d m = some x) (stalled : x.state = .stalled) (latched : x.latched = some w)
    (legal : mvLegal w.toNat = true) (opcode : mvOp w.toNat = op) (free : mvHeld s x = false)
    (f : Mover → Nat → State → State) : mvRun d m op f s =
      .next (f { x with state := .running } w.toNat (putMover { x with state := .running } s)) := by
  have readable : badWord s x = false := by
    rw [badWord, latched]
    rfl
  have free' : mvHeld s { x with latched := some w, state := .running } = false := free
  refine (onDie_of_lt hd).trans (congrArg _ ?_)
  simp only [found, stalled, readable, latched, legal, opcode, Option.map_some, Option.getD_some, Nat.beq_refl,
    Bool.and_self, BitVec.ofNat_toNat, BitVec.setWidth_eq, free', Bool.false_eq_true, if_false, if_true]
  rw [← latched]
  rfl

theorem completes_waitPoll {s s2 : State} {d m v : Nat} {w : Word} {x : Mover} (hd : d < dieCount s.orderCode)
    (found : findMover s d m = some x) (stalled : x.state = .stalled) (latched : x.latched = some w)
    (begun : x.checked = true) (lives : x.stopped = false) (same : x.changed = false) (hpc : x.pc < 127)
    (legal : mvLegal w.toNat = true) (opcode : mvOp w.toNat = 6) (free : mvHeld s x = false)
    (aligned : x.mr (mvRD w.toNat) % 8 = 0)
    (read : mvWord { x with state := .running } (x.mr (mvRD w.toNat)) (putMover { x with state := .running } s) =
      .ok v s2)
    (kept : findMover s2 d m = some { x with state := .running }) :
    Completes (.waitPoll d m) s (fun t => t.slc = s2.slc ∧ t.regs = s2.regs ∧
      (waitHolds w.toNat v (x.mr (mvRS w.toNat)) = true → WentTo t d m (x.pc + 1) x.mregs) ∧
      (waitHolds w.toNat v (x.mr (mvRS w.toNat)) = false → findMover t d m = some { x with state := .stalled })) := by
  have run := mvRun_latched hd found stalled latched legal opcode free
    (fun x w s => if x.checked then mvWait x w s else putMover { x with latched := none } s)
  obtain ⟨rfl, rfl⟩ := named_of_findMover found
  exact ⟨_, run.trans (congrArg _ (if_pos begun)),
    mvWait_of_word (x := { x with state := .running }) lives same hpc aligned read kept⟩

theorem completes_waitTimeout {s : State} {d m : Nat} {w : Word} {x : Mover} (hd : d < dieCount s.orderCode)
    (found : findMover s d m = some x) (latched : x.latched = some w) (opcode : mvOp w.toNat = 6)
    (begun : x.checked = true) (limit : bits w.toNat 63 40 ≠ 0) (works : s.prt.faulted.contains x.part = false) :
    Completes (.waitTimeout d m) s (fun t => findMover t d m = none ∧ ctxKilled t x.part x.inst x.ctx = true) := by
  have due : (decide (mvOp w.toNat = 6) && x.checked && bits w.toNat 63 40 != 0) = true := by
    rw [decide_eq_true opcode, begun]
    exact bne_iff_ne.2 limit
  refine completes_of_onDie (execWaitTimeout d m s) rfl rfl hd ?_
  rw [found]
  dsimp only
  rw [latched]
  dsimp only
  rw [if_pos due]
  obtain ⟨rfl, rfl⟩ := named_of_findMover found
  exact mvFault_stops x _ _ works

/-! ### RESTART, ABORT and the halt time-out (R386) -/

theorem mayCommand {s : State} {p : Nat} {src : Source} (allowed : partSealed s p = false ∨ src = .warden) :
    ¬(partSealed s p = true ∧ src ≠ .warden) := fun ⟨isSealed, stranger⟩ =>
  allowed.elim (fun open_ => Bool.false_ne_true (open_.symm.trans isSealed)) stranger

theorem regsBut_movCmdWritten (d m pc : Nat) (s : State) :
    RegsBut [(d, Reg.MOV_CMD_MOVER), (d, Reg.MOV_CMD_PC)] s (movCmdWritten d m pc s) :=
  .wr (.wr (.refl _ s) _ _ _ (by simp)) _ _ _ (by simp)

theorem rd_gen_movCmdWritten (d m pc slot : Nat) (s : State) :
    (movCmdWritten d m pc s).rd d (Reg.MOV_SLOT_GEN slot) = s.rd d (Reg.MOV_SLOT_GEN slot) := by
  refine regsBut_movCmdWritten d m pc s d (Reg.MOV_SLOT_GEN slot) fun x hx => ?_
  simp only [List.mem_cons, List.not_mem_nil, or_false] at hx
  obtain rfl | rfl := hx <;> simp only [Fld.key, Reg.MOV_SLOT_GEN, Reg.MOV_CMD_MOVER, Reg.MOV_CMD_PC] <;> omega

theorem completes_restart {s : State} {d m pc : Nat} {src : Source} {x : Mover} (hd : d < dieCount s.orderCode)
    (hm : m < 32) (hpc : pc < 128) (found : findMover s d m = some x) (halted : x.state = .halted)
    (allowed : partSealed s x.part = false ∨ src = .warden) :
    Completes (.restart d m pc src) s (fun t =>
      findMover t d m = some { x with state := .running, pc := pc, changed := false,
                                      gen := s.rd d (Reg.MOV_SLOT_GEN x.slot) } ∧
      RegsBut [(d, Reg.MOV_CMD_MOVER), (d, Reg.MOV_CMD_PC)] s t ∧ t.slc = s.slc) := by
  have run := exec_restart hd hm hpc src
  obtain ⟨die, number⟩ := named_of_findMover found
  rw [movCommand_of_found found, if_neg (mayCommand allowed), if_neg (not_not_intro halted), if_pos rfl,
    rd_gen_movCmdWritten] at run
  exact ⟨_, run, findMover_putMover (s := movCmdWritten d m pc s) found die number,
    .of_regs (regsBut_movCmdWritten d m pc s) rfl, rfl⟩

theorem completes_abort {s : State} {d m : Nat} {src : Source} {x : Mover} (hd : d < dieCount s.orderCode)
    (hm : m < 32) (found : findMover s d m = some x) (halted : x.state = .halted)
    (allowed : partSealed s x.part = false ∨ src = .warden) :
    Completes (.abort d m src) s (fun t =>
      findMover t d m = none ∧ t.que.itemsOut = lower s.que.itemsOut x.queue) := by
  have run := exec_abort hd hm src
  obtain ⟨rfl, rfl⟩ := named_of_findMover found
  rw [movCommand_of_found found, if_neg (mayCommand allowed), if_neg (not_not_intro halted), if_neg (by decide)] at run
  exact ⟨_, run, ended_mvFinish x 0x0C _⟩

theorem completes_movHaltTimeout {s : State} {d m : Nat} {x : Mover} (hd : d < dieCount s.orderCode)
    (found : findMover s d m = some x) (halted : x.state = .halted) :
    Completes (.movHaltTimeout d m) s (fun t =>
      findMover t d m = none ∧ t.que.itemsOut = lower s.que.itemsOut x.queue) := by
  refine completes_of_onDie (execMovHaltTimeout d m s) rfl rfl hd ?_
  rw [found]
  dsimp only
  rw [halted, if_pos (beq_self_eq_true _)]
  obtain ⟨rfl, rfl⟩ := named_of_findMover found
  exact ended_mvFinish x 0x0C s

theorem completes_restart_of_free {s : State} {d m pc : Nat} {src : Source} (hd : d < dieCount s.orderCode)
    (hm : m < 32) (hpc : pc < 128) (free : findMover s d m = none) :
    Completes (.restart d m pc src) s (fun t =>
      t.que = s.que ∧ t.rd d Reg.MOV_CMD_IGN = min (s.rd d Reg.MOV_CMD_IGN + 1) (2 ^ 16 - 1)) := by
  have ignored : movCommand d m 1 pc src s = (movCmdWritten d m pc s).count d Reg.MOV_CMD_IGN 1 := by
    have free' : findMover ((s.wr d Reg.MOV_CMD_MOVER m).wr d Reg.MOV_CMD_PC pc) d m = none := free
    rw [movCommand, free']
    rfl
  have run := exec_restart hd hm hpc src
  rw [ignored] at run
  refine ⟨_, run, rfl, (State.rd_count_same ..).trans ?_⟩
  rw [movCmdWritten, State.rd_wr_apart rfl, State.rd_wr_apart rfl]
  rfl

/-- Settles O38. -/
theorem moverWaitsAndHalts : Obligations.MoverWaitsAndHalts :=
  ⟨⟨fun _ _ _ _ _ _ _ => completes_wait, fun _ _ _ _ _ _ _ => completes_waitPoll,
      fun _ _ _ _ _ => completes_waitTimeout⟩,
    fun _ _ _ _ _ _ => completes_restart, fun _ _ _ _ _ => completes_abort, fun _ _ _ _ => completes_movHaltTimeout,
    fun _ _ _ _ _ => completes_restart_of_free⟩

end Sys2Proof.Machine
end

section
/-! PROOFS. The data instructions of a mover (R373, R376) and SHIFT (R377, R378). -/

namespace Sys2Proof.Machine

/-! ### What stays of a mover while it works -/

/-- The address registers alone move with INC. -/
theorem mvInc_eq (x : Mover) (w : Nat) : mvInc x w = { x with mregs := (mvInc x w).mregs } := by
  unfold mvInc
  split
  · rfl
  · dsimp only
    split <;> rfl

/-- Whether the mover of a run goes on with other latches moves the same registers. -/
theorem mregs_mvInc_of_mregs {x y : Mover} (same : y.mregs = x.mregs) (w : Nat) :
    (mvInc y w).mregs = (mvInc x w).mregs := by
  have mr (i : Nat) : y.mr i = x.mr i := by rw [Mover.mr, Mover.mr, same]
  unfold mvInc
  split
  · exact same
  · dsimp only [Mover.setMr, Mover.mr]
    split <;> simp only [same]

theorem mvInc_of_mregs {x y : Mover} (same : y.mregs = x.mregs) (w : Nat) :
    mvInc y w = { y with mregs := (mvInc x w).mregs } :=
  (mvInc_eq y w).trans (congrArg (fun r => { y with mregs := r }) (mregs_mvInc_of_mregs same w))

/-- A data instruction that is done takes the mover to the next word, and touches nothing else. -/
theorem wentTo_mvDone_mvInc {x y z : Mover} {w : Nat} {s : State} (same : y.mregs = x.mregs) (lives : y.stopped = false)
    (unchanged : y.changed = false) (hpc : y.pc < 127) (found : findMover s y.die y.m = some z) :
    WentTo (mvDone (mvInc y w) (y.pc + 1) s) y.die y.m (y.pc + 1) (mvInc x w).mregs ∧
      (mvDone (mvInc y w) (y.pc + 1) s).regs = s.regs ∧ (mvDone (mvInc y w) (y.pc + 1) s).slc = s.slc ∧
      (mvDone (mvInc y w) (y.pc + 1) s).core = s.core := by
  rw [mvInc_of_mregs same, mvDone_of_goes (x := { y with mregs := (mvInc x w).mregs }) lives unchanged (by omega)]
  exact ⟨wentTo_putMover (y := { y with mregs := (mvInc x w).mregs }) found rfl rfl _, rfl, rfl, rfl⟩

/-- A whole number of sectors is moved (R373). -/
theorem mvTotal_mod_of_aligned {x : Mover} {w : Nat} (data : mvOp w = 1 ∨ mvOp w = 3 ∨ mvOp w = 4 ∨ mvOp w = 5)
    (aligned : mvAligned x w = true) : mvTotal x w % 32 = 0 := by
  have scaled {n k : Nat} (h : k % 32 = 0) : n * k % 32 = 0 :=
    Nat.mod_eq_zero_of_dvd ((Nat.dvd_of_mod_eq_zero h).mul_left n)
  unfold mvAligned at aligned
  unfold mvTotal at aligned ⊢
  obtain op | op | op | op := data
  all_goals simp only [op, Bool.and_eq_true, Nat.beq_eq] at aligned ⊢
  · exact aligned.2
  · exact scaled aligned.1.1.2
  · exact scaled aligned.1.1.2
  · exact aligned.2

/-! ### The four data instructions -/

/-- The commands of the four data instructions, with their OP. -/
def dataOps (d m : Nat) : List (Nat × Instr) :=
  [(1, .movCopy d m), (3, .gather d m), (4, .scatter d m), (5, .movFill d m)]

theorem exec_dataOp {d m op : Nat} {c : Instr} (h : (op, c) ∈ dataOps d m) (s : State) :
    exec c s = mvRun d m op mvData s ∧ (op = 1 ∨ op = 3 ∨ op = 4 ∨ op = 5) := by
  simp only [dataOps, List.mem_cons, Prod.mk.injEq, List.not_mem_nil, or_false] at h
  obtain ⟨rfl, rfl⟩ | ⟨rfl, rfl⟩ | ⟨rfl, rfl⟩ | ⟨rfl, rfl⟩ := h
  all_goals exact ⟨rfl, by decide⟩

/-- The mover while a data instruction, checked, is under way. -/
def begun (x : Mover) (w : Nat) : Mover := { runsWord x w with checked := true }

section
variable {s : State} {d m w op : Nat} {x : Mover} {c : Instr} (h : AtWord s d m op x w) (hc : (op, c) ∈ dataOps d m)
include h hc

theorem completes_dataOp_of_empty (empty : mvTotal x w = 0) : Completes c s (fun t =>
    WentTo t d m (x.pc + 1) (mvInc x w).mregs ∧ t.regs = s.regs ∧ t.slc = s.slc ∧ t.core = s.core) := by
  have run := (exec_dataOp hc s).1.trans (mvRun_atWord h mvData)
  obtain ⟨-, found, -, -, -, -, lives, same, -, hpc, -⟩ := h
  obtain ⟨rfl, rfl⟩ := named_of_findMover found
  rw [mvData, if_pos (show mvTotal (runsWord x w) w = 0 from empty)] at run
  exact ⟨_, run, wentTo_mvDone_mvInc (x := x) (y := runsWord x w) rfl lives same hpc (findMover_putMover found rfl rfl)⟩

theorem completes_dataOp_of_misaligned (some_ : mvTotal x w ≠ 0) (misaligned : mvAligned x w = false)
    (works : s.prt.faulted.contains x.part = false) :
    Completes c s (fun t => findMover t d m = none ∧ ctxKilled t x.part x.inst x.ctx = true) := by
  have run := (exec_dataOp hc s).1.trans (mvRun_atWord h mvData)
  obtain ⟨-, found, -⟩ := h
  obtain ⟨rfl, rfl⟩ := named_of_findMover found
  rw [mvData, if_neg (show mvTotal (runsWord x w) w ≠ 0 from some_),
    show mvAligned (runsWord x w) w = false from misaligned, Bool.not_false, if_pos rfl] at run
  exact ⟨_, run, mvFault_stops (runsWord x w) _ _ works⟩

variable (some_ : mvTotal x w ≠ 0) (aligned : mvAligned x w = true) {sp : Span} {s2 s3 : State} {n code addr : Nat}
  (span : mvSpan (begun x w) w (putMover (runsWord x w) s) = .ok sp s2)
include some_ aligned span

/-- The first run of a data instruction, and what follows it. -/
theorem exec_dataOp_of_run {how : Nat} (step : mvStep (begun x w) w sp s2 = ⟨n, how, code, addr, s3⟩) :
    exec c s = .next (if how = 0 then mvLoop w (mvTotal x w / 32) { begun x w with cursor := n } s3
      else if how = 1 then mvStall { begun x w with cursor := n } s3
      else mvFault { begun x w with cursor := n } code addr s3) := by
  have run := (exec_dataOp hc s).1.trans (mvRun_atWord h mvData)
  obtain ⟨-, -, -, -, start, -⟩ := h
  have first : ¬mvTotal (begun x w) w ≤ (begun x w).cursor := fun le => some_ (Nat.le_zero.1 (start ▸ le))
  have moved : ({ begun x w with cursor := (begun x w).cursor + n } : Mover) = { begun x w with cursor := n } :=
    congrArg (fun k => { begun x w with cursor := k })
      ((congrArg (· + n) (show (begun x w).cursor = 0 from start)).trans (Nat.zero_add n))
  rw [run, mvData, if_neg (show mvTotal (runsWord x w) w ≠ 0 from some_),
    show mvAligned (runsWord x w) w = true from aligned, Bool.not_true, if_neg Bool.false_ne_true]
  change Host.Outcome.next (mvLoop w (mvTotal x w / 32 + 1) (begun x w) _) = _
  rw [mvLoop, if_neg first, span]
  dsimp only
  rw [step]
  dsimp only
  rw [moved]

theorem completes_dataOp_of_whole (step : mvStep (begun x w) w sp s2 = ⟨n, 0, code, addr, s3⟩) (whole : n = mvTotal x w)
    (kept : findMover s3 d m = some (runsWord x w)) :
    Completes c s (fun t => WentTo t d m (x.pc + 1) (mvInc x w).mregs ∧ t.slc = s3.slc ∧ t.regs = s3.regs) := by
  have run := exec_dataOp_of_run h hc some_ aligned span step
  obtain ⟨-, found, -, -, -, -, lives, same, -, hpc, -, -, -, opcode, -⟩ := h
  obtain ⟨rfl, rfl⟩ := named_of_findMover found
  have sectors := mvTotal_mod_of_aligned (opcode.symm ▸ (exec_dataOp hc s).2) aligned
  obtain ⟨fuel, more⟩ : ∃ fuel, mvTotal x w / 32 = fuel + 1 := ⟨mvTotal x w / 32 - 1, by omega⟩
  rw [if_pos rfl, more, mvLoop,
    if_pos (show mvTotal { begun x w with cursor := n } w ≤ n from Nat.le_of_eq whole.symm)] at run
  obtain ⟨went, regs, slc, -⟩ :=
    wentTo_mvDone_mvInc (x := x) (y := { begun x w with cursor := n }) rfl lives same hpc kept
  exact ⟨_, run, went, slc, regs⟩

theorem completes_dataOp_of_stall (step : mvStep (begun x w) w sp s2 = ⟨n, 1, code, addr, s3⟩)
    (kept : findMover s3 d m = some (runsWord x w)) :
    Completes c s (fun t => t.slc = s3.slc ∧
      ∃ y, findMover t d m = some y ∧ y.cursor = n ∧ y.state = .stalled ∧ y.pc = x.pc) := by
  have run := exec_dataOp_of_run h hc some_ aligned span step
  obtain ⟨-, found, -⟩ := h
  obtain ⟨rfl, rfl⟩ := named_of_findMover found
  exact ⟨_, run, rfl, _, findMover_putMover (y := { begun x w with cursor := n, state := .stalled }) kept rfl rfl,
    rfl, rfl, rfl⟩

end

/-! ### SHIFT -/

section
variable {s : State} {w fuel : Nat} {y : Mover} {q : SeqSlot} (found : findSeq s (shSeq y w) = some q)
include found

theorem shLoop_of_done (done : shCount y w ≤ y.cursor / (blockSize q.blk * shStride y w)) :
    shLoop w (fuel + 1) y s = mvDone y (y.pc + 1) s := by
  rw [shLoop, found]
  exact if_pos done

variable (start : y.cursor = 0) (some_ : shCount y w ≠ 0)
include start some_

/-- A step fence that holds a block of the first move stalls the SHIFT (R378). -/
theorem shLoop_of_fence (fence : q.recs.any (fun r => Nat.ble r.firstBlock (shBlock y w 0) ||
      Nat.ble r.firstBlock (((shBlock y w 0 : Nat) : Int) + mvSigned w).toNat) = true) :
    shLoop w (fuel + 1) y s = mvStall y s := by
  have first : ¬shCount y w ≤ 0 := fun le => some_ (Nat.le_zero.1 le)
  rw [shLoop, found]
  dsimp only
  rw [start, Nat.zero_div, if_neg first, if_pos fence]

/-- The first block moved whole. -/
theorem shLoop_of_moved {src dst n code addr : Nat} {s2 s3 s4 : State} (free : q.recs = [])
    (from_ : shAddr y q.dir.toNat (shBlock y w 0) s = .ok src s2)
    (to_ : shAddr y q.dir.toNat (((shBlock y w 0 : Nat) : Int) + mvSigned w).toNat s2 = .ok dst s3)
    (moved : mvRunBeats y (fun k s => mvRead y (src + 0 + k) s) (src + 0) (dst + 0)
      ((blockSize q.blk * shStride y w - 0) / 32) ((blockSize q.blk * shStride y w - 0) / 32) 0 s3 =
        ⟨n, 0, code, addr, s4⟩) : shLoop w (fuel + 1) y s = shLoop w fuel { y with cursor := n } s4 := by
  have first : ¬shCount y w ≤ 0 := fun le => some_ (Nat.le_zero.1 le)
  rw [shLoop, found]
  dsimp only
  rw [start, Nat.zero_div, if_neg first, free, List.any_nil, if_neg Bool.false_ne_true, from_]
  dsimp only
  rw [to_]
  dsimp only
  rw [Nat.zero_mod, moved]
  dsimp only
  rw [if_pos rfl, Nat.zero_add]

end

/-- The check has tested the stride before the first beat. -/
theorem shStride_ne_zero {s : State} {w : Nat} {x : Mover} {q : SeqSlot}
    (passes : shCheck (putMover (runsWord x w) s) (runsWord x w) w = none) (found : findSeq s (shSeq x w) = some q) :
    shStride x w ≠ 0 := by
  intro zero
  have found' : findSeq (putMover (runsWord x w) s) (shSeq (runsWord x w) w) = some q := found
  have zero' : shStride (runsWord x w) w = 0 := zero
  rw [shCheck, found'] at passes
  dsimp only at passes
  split at passes
  · cases passes
  · split at passes
    · cases passes
    · rw [zero', if_pos (by rfl)] at passes
      cases passes

section
variable {s : State} {d m w : Nat} {x : Mover} {q : SeqSlot} (h : AtWord s d m 2 x w)
  (passes : shCheck (putMover (runsWord x w) s) (runsWord x w) w = none) (found : findSeq s (shSeq x w) = some q)
include h passes

theorem exec_shift_atWord : exec (.shift d m) s = .next (if shCount x w = 0 then
      mvDone (runsWord x w) (x.pc + 1) (putMover (runsWord x w) s)
    else shLoop w (shCount x w + 1) (begun x w) (putMover (runsWord x w) s)) := by
  have run : exec (.shift d m) s = _ := mvRun_atWord h mvShift
  obtain ⟨-, -, -, -, -, fresh, -⟩ := h
  rw [run, mvShift, show (runsWord x w).checked = false from fresh, if_neg Bool.false_ne_true, passes]
  rfl

theorem completes_shift_of_none (none_ : shCount x w = 0) : Completes (.shift d m) s (fun t =>
    WentTo t d m (x.pc + 1) x.mregs ∧ t.regs = s.regs ∧ t.slc = s.slc) := by
  have run := exec_shift_atWord h passes
  obtain ⟨-, found, -, -, -, -, lives, same, -, hpc, -⟩ := h
  obtain ⟨rfl, rfl⟩ := named_of_findMover found
  rw [if_pos none_, mvDone_of_goes (x := runsWord x w) lives same (by omega)] at run
  exact ⟨_, run, wentTo_putMover (y := runsWord x w)
    (findMover_putMover (y := runsWord x w) found rfl rfl) rfl rfl _, rfl, rfl⟩

include found

theorem completes_shift_of_fence (some_ : shCount x w ≠ 0)
    (fence : q.recs.any (fun r => Nat.ble r.firstBlock (shBlock x w 0) ||
      Nat.ble r.firstBlock (((shBlock x w 0 : Nat) : Int) + mvSigned w).toNat) = true) :
    Completes (.shift d m) s (fun t => t.regs = s.regs ∧ t.slc = s.slc ∧
      ∃ y, findMover t d m = some y ∧ y.state = .stalled ∧ y.cursor = 0 ∧ y.pc = x.pc) := by
  have run := exec_shift_atWord h passes
  obtain ⟨-, mine, -, -, start, -⟩ := h
  obtain ⟨rfl, rfl⟩ := named_of_findMover mine
  have stalls : shLoop w (shCount x w + 1) (begun x w) (putMover (runsWord x w) s) =
      putMover { begun x w with state := .stalled } (putMover (runsWord x w) s) :=
    shLoop_of_fence (y := begun x w) (s := putMover (runsWord x w) s) found start some_ fence
  rw [if_neg some_, stalls] at run
  exact ⟨_, run, rfl, rfl, _, findMover_putMover (y := { begun x w with state := .stalled })
    (findMover_putMover (y := runsWord x w) mine rfl rfl) rfl rfl, rfl, start, rfl⟩

theorem completes_shift_of_one (one : shCount x w = 1) (blocks : 0 < blockSize q.blk) (free : q.recs = [])
    {src dst code addr : Nat} {s2 s3 s4 : State} {q' : SeqSlot}
    (from_ : shAddr (begun x w) q.dir.toNat (shBlock x w 0) (putMover (runsWord x w) s) = .ok src s2)
    (to_ : shAddr (begun x w) q.dir.toNat (((shBlock x w 0 : Nat) : Int) + mvSigned w).toNat s2 = .ok dst s3)
    (moved : mvRunBeats (begun x w) (fun k s => mvRead (begun x w) (src + 0 + k) s) (src + 0) (dst + 0)
      ((blockSize q.blk * shStride x w - 0) / 32) ((blockSize q.blk * shStride x w - 0) / 32) 0 s3 =
        ⟨blockSize q.blk * shStride x w, 0, code, addr, s4⟩)
    (found' : findSeq s4 (shSeq x w) = some q') (same : q'.blk = q.blk)
    (kept : findMover s4 d m = some (runsWord x w)) :
    Completes (.shift d m) s (fun t => WentTo t d m (x.pc + 1) x.mregs ∧ t.slc = s4.slc ∧ t.regs = s4.regs) := by
  have run := exec_shift_atWord h passes
  have stride := shStride_ne_zero passes found
  obtain ⟨-, mine, -, -, start, -, lives, unchanged, -, hpc, -⟩ := h
  obtain ⟨rfl, rfl⟩ := named_of_findMover mine
  have some_ : shCount x w ≠ 0 := by omega
  have first := shLoop_of_moved (s := putMover (runsWord x w) s) (y := begun x w) (fuel := 1) found start some_
    free from_ to_ moved
  have size : 0 < blockSize q.blk * shStride x w := Nat.mul_pos blocks (Nat.pos_of_ne_zero stride)
  have last := shLoop_of_done (y := { begun x w with cursor := blockSize q.blk * shStride x w }) (fuel := 0) found' (by
    rw [same]
    exact one.trans_le (Nat.div_self size).ge)
  rw [if_neg some_, one, first, last,
    mvDone_of_goes (x := { begun x w with cursor := blockSize q.blk * shStride x w }) lives unchanged
      (by exact Nat.add_lt_add_right hpc 1)] at run
  exact ⟨_, run, wentTo_putMover (y := { begun x w with cursor := blockSize q.blk * shStride x w }) kept rfl rfl _,
    rfl, rfl⟩

end

/-- Settles O39: a SHIFT of no block is a NOP (log 39). -/
theorem moverMovesAndShifts : Obligations.MoverMovesAndShifts :=
  ⟨fun _ _ _ _ _ _ _ h hc => ⟨completes_dataOp_of_empty h hc,
      fun some_ aligned _ _ _ _ _ _ => completes_dataOp_of_whole h hc some_ aligned,
      fun some_ aligned _ _ _ _ _ _ => completes_dataOp_of_stall h hc some_ aligned,
      completes_dataOp_of_misaligned h hc⟩,
    fun _ _ _ _ _ _ h passes found => ⟨completes_shift_of_none h passes, completes_shift_of_fence h passes found,
      fun one blocks free _ _ _ _ _ _ _ _ => completes_shift_of_one h passes found one blocks free⟩⟩

end Sys2Proof.Machine
end

section
/-! PROOFS. Writes of mover programs and slots (R370, R385, R387), and what a partner answers (R513, R517). -/

namespace Sys2Proof.Machine

/-! ### Movers of a changed slot -/

/-- The mover of a slot that has changed: at a boundary it halts at once (R385). -/
def marked (x : Mover) : Mover :=
  { x with changed := true, state := if x.latched.isNone && x.state != .halted then .halted else x.state }

/-- One step of `slotChanged`. -/
def slotMark (s : State) (x : Mover) : State :=
  if x.latched.isNone && x.state != .halted then mvHalt { x with changed := true } s
  else putMover { x with changed := true } s

theorem slotChanged_eq (d slot : Nat) (s : State) : slotChanged d slot s =
    each (s.que.movers.filter (fun m => Nat.beq m.die d && Nat.beq m.slot slot)) slotMark
      (s.wr d (Reg.MOV_SLOT_GEN slot) (s.rd d (Reg.MOV_SLOT_GEN slot) + 1)) := rfl

theorem slotMark_keeps (s : State) (x : Mover) :
    (slotMark s x).regs = s.regs ∧ (slotMark s x).slc = s.slc := by
  unfold slotMark
  split <;> exact ⟨rfl, rfl⟩

theorem movers_slotMark (s : State) (x : Mover) : (slotMark s x).que.movers = (putMover (marked x) s).que.movers := by
  unfold slotMark marked
  split <;> rfl

theorem mem_movers_putMover {s : State} {x y : Mover} (h : y ∈ (putMover x s).que.movers) :
    y = x ∨ y ∈ s.que.movers ∧ ¬(y.die = x.die ∧ y.m = x.m) := by
  by_cases own : y.die = x.die ∧ y.m = x.m
  · exact .inl (eq_of_mem_movers_putMover h own.1 own.2)
  · obtain ⟨z, member, rfl⟩ := List.mem_map.1 h
    split at own
    · exact absurd ⟨rfl, rfl⟩ own
    next other =>
      rw [if_neg other]
      exact .inr ⟨member, own⟩

/-- After the changes every mover of the slot is CHANGED. -/
theorem changed_each_slotMark {d slot : Nat} {l : List Mover} {s : State}
    (h : ∀ y ∈ s.que.movers, y.die = d → y.slot = slot → y.changed = true ∨ y ∈ l) :
    ∀ y ∈ (each l slotMark s).que.movers, y.die = d → y.slot = slot → y.changed = true := by
  induction l generalizing s with
  | nil => exact fun y member hd hs => (h y member hd hs).resolve_right nofun
  | cons x l ih =>
    refine ih fun y member hd hs => ?_
    rw [movers_slotMark] at member
    obtain rfl | ⟨old, other⟩ := mem_movers_putMover member
    · exact .inl rfl
    · refine (h y old hd hs).imp_right fun listed => (List.mem_cons.1 listed).resolve_left ?_
      rintro rfl
      exact other ⟨rfl, rfl⟩

theorem slotChanged_spec (d slot : Nat) (s : State) :
    (slotChanged d slot s).regs =
        (s.wr d (Reg.MOV_SLOT_GEN slot) (s.rd d (Reg.MOV_SLOT_GEN slot) + 1)).regs ∧
      (slotChanged d slot s).slc = s.slc ∧
      ∀ y ∈ (slotChanged d slot s).que.movers, y.die = d → y.slot = slot → y.changed = true := by
  rw [slotChanged_eq]
  refine ⟨?_, ?_, changed_each_slotMark fun y member hd hs => .inr (List.mem_filter.2 ⟨member, by simp [hd, hs]⟩)⟩
  · exact each_induction (P := fun t => t.regs = _) (fun t x _ h => (slotMark_keeps t x).1.trans h) rfl
  · exact each_induction (P := fun t => t.slc = _) (fun t x _ h => (slotMark_keeps t x).2.trans h) rfl

/-! ### Program words and slots (R370, R387) -/

theorem allowedWrite {sealed_ : Bool} {src : Source} (allowed : sealed_ = false ∨ src = .warden) :
    (sealed_ && src != .warden) = false := by
  obtain rfl | rfl := allowed
  · rfl
  · exact Bool.and_false _

theorem completes_movProgWrite {s : State} {d w : Nat} {src : Source} {v : Word} (hd : d < dieCount s.orderCode)
    (hw : w < 8192) (allowed : slotSealed s d (w / 128) = false ∨ src = .warden) :
    Completes (.movProgWrite d w src v) s (fun t =>
      t.rd d (Reg.MOV_PROG w) = v.toNat ∧
      t.rd d (Reg.MOV_SLOT_GEN (w / 128)) = (s.rd d (Reg.MOV_SLOT_GEN (w / 128)) + 1) % 2 ^ 16 ∧
      RegsBut [(d, Reg.MOV_PROG w), (d, Reg.MOV_SLOT_GEN (w / 128))] s t ∧ t.slc = s.slc ∧
      (∀ y ∈ t.que.movers, y.die = d → y.slot = w / 128 → y.changed = true)) := by
  have apart : (Reg.MOV_SLOT_GEN (w / 128)).key d ≠ (Reg.MOV_PROG w).key d := by
    simp only [Fld.key, Reg.MOV_SLOT_GEN, Reg.MOV_PROG]
    omega
  obtain ⟨regs, slc, changed⟩ := slotChanged_spec d (w / 128)
    (State.wr { s with que := { s.que with badProg := delNat s.que.badProg (d * 8192 + w) } } d (Reg.MOV_PROG w)
      v.toNat)
  refine completes_of_onDie (execMovProgWrite d w src v s) rfl rfl hd ?_
  rw [if_pos hw, movProgWrite, allowedWrite allowed, if_neg Bool.false_ne_true]
  refine ⟨?_, ?_, ?_, slc, changed⟩
  · rw [State.rd_of_regs regs, State.rd_wr_ne _ _ _ _ _ _ apart.symm]
    exact (State.rd_wr_same ..).trans v.toNat_mod_cancel
  · rw [State.rd_of_regs regs, State.rd_wr_same, State.rd_wr_ne _ _ _ _ _ _ apart]
    rfl
  · exact .of_regs (.wr (.wr (.refl _ s) d (Reg.MOV_PROG w) v.toNat (by simp)) d (Reg.MOV_SLOT_GEN (w / 128)) _
      (by simp)) regs

theorem completes_movProgWrite_of_stranger {s : State} {d w : Nat} {src : Source} {v : Word}
    (hd : d < dieCount s.orderCode) (hw : w < 8192) (isSealed : slotSealed s d (w / 128) = true)
    (stranger : src ≠ .warden) :
    Completes (.movProgWrite d w src v) s (fun t =>
      t.regs = s.regs ∧ t.que = s.que ∧ HandsOver d 0x0A 0x075 0 s t) := by
  refine completes_of_onDie (execMovProgWrite d w src v s) rfl rfl hd ?_
  rw [if_pos hw, movProgWrite, isSealed, bne_iff_ne.2 stranger, Bool.and_self, if_pos rfl]
  exact ⟨rfl, rfl, handsOver_emit _ _ _ _ _ _ rfl⟩

/-- A slot's owner written. -/
def slotWritten (d slot v : Nat) (s : State) : State :=
  ((s.wr d (Reg.MOV_SLOT_PART slot) (bits v 22 16)).wr d (Reg.MOV_SLOT_INST slot) (bits v 27 23)).wr d
    (Reg.MOV_SLOT_OWNED slot) (bits v 28 28)

theorem rd_slotWritten (d slot v : Nat) (s : State) :
    (slotWritten d slot v s).rd d (Reg.MOV_SLOT_PART slot) = bits v 22 16 ∧
      (slotWritten d slot v s).rd d (Reg.MOV_SLOT_INST slot) = bits v 27 23 ∧
      (slotWritten d slot v s).rd d (Reg.MOV_SLOT_OWNED slot) = bits v 28 28 ∧
      (slotWritten d slot v s).rd d (Reg.MOV_SLOT_GEN slot) = s.rd d (Reg.MOV_SLOT_GEN slot) := by
  refine ⟨?_, ?_, ?_, ?_⟩
  · rw [slotWritten, State.rd_wr_indexed (g := Reg.MOV_SLOT_OWNED) (f := Reg.MOV_SLOT_PART) 8 rfl,
      State.rd_wr_indexed (g := Reg.MOV_SLOT_INST) (f := Reg.MOV_SLOT_PART) 8 rfl, State.rd_wr_same]
    exact Nat.mod_mod _ _
  · rw [slotWritten, State.rd_wr_indexed (g := Reg.MOV_SLOT_OWNED) (f := Reg.MOV_SLOT_INST) 8 rfl, State.rd_wr_same]
    exact Nat.mod_mod _ _
  · rw [slotWritten, State.rd_wr_same]
    exact Nat.mod_mod _ _
  · rw [slotWritten, State.rd_wr_indexed (g := Reg.MOV_SLOT_OWNED) (f := Reg.MOV_SLOT_GEN) 8 rfl,
      State.rd_wr_indexed (g := Reg.MOV_SLOT_INST) (f := Reg.MOV_SLOT_GEN) 8 rfl,
      State.rd_wr_indexed (g := Reg.MOV_SLOT_PART) (f := Reg.MOV_SLOT_GEN) 8 rfl]

/-- The fields of a slot. -/
def slotTouch (d slot : Nat) : List (Nat × Fld) :=
  [(d, Reg.MOV_SLOT_PART slot), (d, Reg.MOV_SLOT_INST slot), (d, Reg.MOV_SLOT_OWNED slot), (d, Reg.MOV_SLOT_GEN slot)]

theorem regsBut_slotWritten (d slot v : Nat) (s : State) : RegsBut (slotTouch d slot) s (slotWritten d slot v s) :=
  .wr (.wr (.wr (.refl _ s) _ _ _ (by simp [slotTouch])) _ _ _ (by simp [slotTouch])) _ _ _ (by simp [slotTouch])

theorem completes_movSlotWrite {s : State} {d slot : Nat} {src : Source} {v : Word} (hd : d < dieCount s.orderCode)
    (hs : slot < 64) (open_ : slotSealed s d slot = false)
    (allowed : bits v.toNat 28 28 = 0 ∨ partSealed s (bits v.toNat 22 16) = false ∨ src = .warden) :
    Completes (.movSlotWrite d slot src v) s (fun t =>
      t.rd d (Reg.MOV_SLOT_PART slot) = bits v.toNat 22 16 ∧ t.rd d (Reg.MOV_SLOT_INST slot) = bits v.toNat 27 23 ∧
      t.rd d (Reg.MOV_SLOT_OWNED slot) = bits v.toNat 28 28 ∧
      (bits v.toNat 22 16 ≠ s.rd d (Reg.MOV_SLOT_PART slot) →
        t.rd d (Reg.MOV_SLOT_GEN slot) = (s.rd d (Reg.MOV_SLOT_GEN slot) + 1) % 2 ^ 16 ∧
        ∀ y ∈ t.que.movers, y.die = d → y.slot = slot → y.changed = true) ∧
      RegsBut [(d, Reg.MOV_SLOT_PART slot), (d, Reg.MOV_SLOT_INST slot), (d, Reg.MOV_SLOT_OWNED slot),
        (d, Reg.MOV_SLOT_GEN slot)] s t) := by
  obtain ⟨part, inst, owned, gen⟩ := rd_slotWritten d slot v.toNat s
  obtain ⟨regs, -, changed⟩ := slotChanged_spec d slot (slotWritten d slot v.toNat s)
  have touched := regsBut_slotWritten d slot v.toNat s
  have taken : ((slotSealed s d slot || bits v.toNat 28 28 == 1 && partSealed s (bits v.toNat 22 16)) &&
      src != .warden) = false := by
    rw [open_, Bool.false_or]
    obtain free | unsealed | rfl := allowed
    · rw [free]
      rfl
    · rw [unsealed, Bool.and_false, Bool.false_and]
    · exact Bool.and_false _
  have cut : movSlotWrite d slot src v.toNat s =
      if Nat.beq (bits v.toNat 22 16) (s.rd d (Reg.MOV_SLOT_PART slot)) &&
          Nat.beq (bits v.toNat 27 23) (s.rd d (Reg.MOV_SLOT_INST slot)) &&
          Nat.beq (bits v.toNat 28 28) (s.rd d (Reg.MOV_SLOT_OWNED slot)) then slotWritten d slot v.toNat s
      else slotChanged d slot (slotWritten d slot v.toNat s) := by
    rw [movSlotWrite]
    dsimp only
    rw [taken, if_neg Bool.false_ne_true]
    rfl
  refine completes_of_onDie (execMovSlotWrite d slot src v s) rfl rfl hd ?_
  rw [if_pos hs, cut]
  split
  next same =>
    simp only [Bool.and_eq_true] at same
    exact ⟨part, inst, owned, fun moved => absurd (Nat.eq_of_beq_eq_true same.1.1) moved, touched⟩
  · refine ⟨?_, ?_, ?_, fun _ => ⟨?_, changed⟩,
      .of_regs (touched.wr d (Reg.MOV_SLOT_GEN slot) _ (by simp [slotTouch])) regs⟩
    · rw [State.rd_of_regs regs, State.rd_wr_indexed (g := Reg.MOV_SLOT_GEN) (f := Reg.MOV_SLOT_PART) 8 rfl, part]
    · rw [State.rd_of_regs regs, State.rd_wr_indexed (g := Reg.MOV_SLOT_GEN) (f := Reg.MOV_SLOT_INST) 8 rfl, inst]
    · rw [State.rd_of_regs regs, State.rd_wr_indexed (g := Reg.MOV_SLOT_GEN) (f := Reg.MOV_SLOT_OWNED) 8 rfl, owned]
    · rw [State.rd_of_regs regs, State.rd_wr_same, gen]
      rfl

/-! ### Partner answers (R513, R517) -/

/-- Nothing waits for the accesses that have gone. -/
theorem settleAts_of_none {s : State} (none_ : s.host.atsInv = []) : settleAts s = s := by
  rw [settleAts, none_]
  simp only [List.filter_nil, each, List.foldl_nil]
  rw [← none_]

/-- The request of port and tag that waits for its answer. -/
def waitsFor (port tag : Nat) (o : Outbound) : Bool := Nat.beq o.port port && Nat.beq o.tag tag && !o.done

theorem outMover_dropOut (o p : Outbound) (s : State) : outMover (dropOut p s) o = outMover s o := by
  have kept : Keeps { noFrame with regs := True, host := True } { s with host := { s.host with
      outbound := s.host.outbound.erase p } } (dropOut p s) := settleAts_keeps trivial trivial (.refl _ _)
  simp only [outMover, findMover, kept.que id]

theorem dropOut_of_none {s : State} (none_ : s.host.atsInv = []) (o : Outbound) :
    dropOut o s = { s with host := { s.host with outbound := s.host.outbound.erase o } } :=
  settleAts_of_none (s := { s with host := { s.host with outbound := s.host.outbound.erase o } }) none_

theorem completes_partnerCompletion {s : State} {port tag : Nat} {l : List SectorData} {o : Outbound} {m : Mover}
    (found : s.host.outbound.find? (waitsFor port tag) = some o) (mine : outMover s o = some m) (kind : o.kind = 0)
    (read : o.write = false) (length : l.length = o.len / 32) (none_ : s.host.atsInv = []) :
    Completes (.partnerCompletion port tag 0 l) s (fun t =>
      { o with done := true, data := l, status := 0 } ∈ t.host.outbound ∧ t.regs = s.regs ∧ t.que = s.que ∧
      t.slc = s.slc) := by
  have data : (l ++ List.replicate (o.len / 32) 0).take (o.len / 32) = l := by
    rw [← length, List.take_left']
    rfl
  have taken : partnerCompletion port tag 0 l s = { s with host := { s.host with
      outbound := updWhere (fun x => x == o) (fun _ => { o with done := true, data := l, status := 0 })
        s.host.outbound } } := by
    have found' : s.host.outbound.find? (fun o => Nat.beq o.port port && Nat.beq o.tag tag && !o.done) = some o := found
    rw [partnerCompletion, found']
    dsimp only
    rw [mine]
    dsimp only
    rw [if_neg (by decide), if_neg (by decide), kind, if_neg (by decide), read, if_neg Bool.false_ne_true, data]
    exact settleAts_of_none none_
  refine completes_of_next (execPartnerCompletion port tag 0 l s) rfl rfl ?_
  rw [taken]
  exact ⟨List.mem_map.2 ⟨o, List.mem_of_find?_eq_some found, if_pos (beq_self_eq_true o)⟩, rfl, rfl, rfl⟩

theorem completes_partnerCompletion_of_none {s : State} {port tag status : Nat} {l : List SectorData} (hp : port < 32)
    (none_ : s.host.outbound.find? (waitsFor port tag) = none) :
    Completes (.partnerCompletion port tag status l) s (fun t =>
      t.rd (portDie port) Reg.HOST_AER_UE = min (s.rd (portDie port) Reg.HOST_AER_UE + 1) (2 ^ 32 - 1) ∧
      RegsBut [(portDie port, Reg.HOST_AER_UE)] s t ∧ t.host = s.host ∧ t.slc = s.slc) := by
  have counted : partnerCompletion port tag status l s = s.count (portDie port) Reg.HOST_AER_UE 1 := by
    have none' : s.host.outbound.find? (fun o => Nat.beq o.port port && Nat.beq o.tag tag && !o.done) = none := none_
    rw [partnerCompletion, none']
    exact if_pos hp
  refine completes_of_next (execPartnerCompletion port tag status l s) rfl rfl ?_
  rw [counted]
  exact ⟨State.rd_count_same .., .count (.refl _ s) _ _ _ (.head _), rfl, rfl⟩

/-- The time-out of an access that is no write to a host. -/
theorem completionTimeout_of_read {s : State} {port tag : Nat} {o : Outbound}
    (found : s.host.outbound.find? (waitsFor port tag) = some o) (read : o.write = false) :
    completionTimeout port tag s =
      match outMover s o with
      | some m => mvFault m 0x0C o.addr
        (dropOut o (if port < 32 then s.count (portDie port) Reg.HOST_CTO_COUNT 1 else s))
      | none => dropOut o (if port < 32 then s.count (portDie port) Reg.HOST_CTO_COUNT 1 else s) := by
  have found' : s.host.outbound.find? (fun o => Nat.beq o.port port && Nat.beq o.tag tag && !o.done) = some o := found
  have same : outMover (if port < 32 then s.count (portDie port) Reg.HOST_CTO_COUNT 1 else s) o = outMover s o := by
    split <;> rfl
  rw [completionTimeout, found']
  dsimp only
  rw [read, Bool.false_and, Bool.false_and, if_neg Bool.false_ne_true, outMover_dropOut, same] <;> rfl

theorem completes_completionTimeout {s : State} {port tag : Nat} {o : Outbound} (hp : port < 32)
    (found : s.host.outbound.find? (waitsFor port tag) = some o) (read : o.write = false) (free : outMover s o = none)
    (none_ : s.host.atsInv = []) :
    Completes (.completionTimeout port tag) s (fun t =>
      t.host.outbound = s.host.outbound.erase o ∧
      t.rd (portDie port) Reg.HOST_CTO_COUNT = min (s.rd (portDie port) Reg.HOST_CTO_COUNT + 1) (2 ^ 32 - 1) ∧
      RegsBut [(portDie port, Reg.HOST_CTO_COUNT)] s t ∧ t.que = s.que) := by
  refine completes_of_next (execCompletionTimeout port tag s) rfl rfl ?_
  rw [completionTimeout_of_read found read, free, if_pos hp,
    dropOut_of_none (s := s.count (portDie port) Reg.HOST_CTO_COUNT 1) none_]
  exact ⟨rfl, State.rd_count_same .., .of_regs (.count (.refl _ s) _ _ _ (.head _)) rfl, rfl⟩

theorem named_of_outMover {s : State} {o : Outbound} {m : Mover} (h : outMover s o = some m) :
    m.die = o.die ∧ m.m = o.unit ∧ m.part = o.part ∧ m.inst = o.inst ∧ m.ctx = o.ctx := by
  unfold outMover at h
  split at h
  · cases h
  · obtain ⟨y, found, own⟩ := Option.bind_eq_some_iff.1 h
    split at own
    next same =>
      obtain rfl := Option.some.inj own
      obtain ⟨die, number⟩ := named_of_findMover found
      simp only [Bool.and_eq_true, Nat.beq_eq] at same
      exact ⟨die, number, same.1.1, same.1.2, same.2⟩
    · cases own

theorem completes_completionTimeout_of_mover {s : State} {port tag : Nat} {o : Outbound} {m : Mover}
    (found : s.host.outbound.find? (waitsFor port tag) = some o) (read : o.write = false) (mine : outMover s o = some m)
    (works : s.prt.faulted.contains o.part = false) :
    Completes (.completionTimeout port tag) s (fun t =>
      ctxKilled t o.part o.inst o.ctx = true ∧ findMover t o.die o.unit = none) := by
  obtain ⟨die, number, part, inst, ctx⟩ := named_of_outMover mine
  refine completes_of_next (execCompletionTimeout port tag s) rfl rfl ?_
  rw [completionTimeout_of_read found read, mine, ← die, ← number, ← part, ← inst, ← ctx]
  have counted : (if port < 32 then s.count (portDie port) Reg.HOST_CTO_COUNT 1 else s).prt = s.prt := by split <;> rfl
  generalize (if port < 32 then s.count (portDie port) Reg.HOST_CTO_COUNT 1 else s) = u at *
  have kept : Keeps { noFrame with regs := True, host := True } { u with host := { u.host with
      outbound := u.host.outbound.erase o } } (dropOut o u) := settleAts_keeps trivial trivial (.refl _ _)
  exact (mvFault_stops m 0x0C o.addr (by rw [kept.prt id, part, counted]; exact works)).symm

/-- Settles O40: an answer without its request is counted in HOST_AER_UE (R526, log 68). -/
theorem programsAndPartnerAnswers : Obligations.ProgramsAndPartnerAnswers :=
  ⟨⟨fun _ _ _ _ _ => completes_movProgWrite, fun _ _ _ _ _ => completes_movSlotWrite,
      fun _ _ _ _ _ => completes_movProgWrite_of_stranger⟩,
    fun _ _ _ _ _ _ => completes_partnerCompletion, fun _ _ _ _ _ => completes_partnerCompletion_of_none,
    fun _ _ _ _ => completes_completionTimeout, fun _ _ _ _ _ => completes_completionTimeout_of_mover⟩

end Sys2Proof.Machine
end

section
/-! PROOFS. The frame of a core instruction (R134, R182–R184): the issue of a troupe, what its threads keep, and an effect
after which the troupe goes on. -/

namespace Sys2Proof.Machine

/-! ### The PCs of a cohort -/

theorem stepPcs_eq (pc : Nat) (l : List Nat) (t : Troupe) :
    stepPcs pc l t = { t with threads := (stepPcs pc l t).threads } := by
  induction l generalizing t with
  | nil => rfl
  | cons n l ih => exact ih _

theorem thread_stepPcs (pc : Nat) (l : List Nat) (t : Troupe) (n : Nat) :
    (stepPcs pc l t).thread n = (t.thread n).map (fun x => if n ∈ l then { x with pc := BitVec.ofNat 64 (pc + 8) } else x) := by
  induction l generalizing t with
  | nil => simp [stepPcs]
  | cons k l ih =>
    refine (ih (t.updThread k (fun x => { x with pc := BitVec.ofNat 64 (pc + 8) }))).trans ?_
    rw [Troupe.thread_updThread, Option.map_map]
    congr 1
    funext x
    by_cases later : n ∈ l
    · by_cases here : k = n <;> simp [later, here]
    · by_cases here : k = n
      · simp [here]
      · simp [later, here, Ne.symm here]

theorem length_updThread (t : Troupe) (n : Nat) (f : Thread → Thread) :
    (t.updThread n f).threads.length = t.threads.length := List.length_modify ..

theorem length_stepPcs (pc : Nat) (l : List Nat) (t : Troupe) :
    (stepPcs pc l t).threads.length = t.threads.length := by
  induction l generalizing t with
  | nil => rfl
  | cons n l ih => exact (ih _).trans (length_updThread t n _)

/-- The troupe as its issue leaves it before the effect: the cohort's PCs and the stamp of the issue alone have moved. -/
structure Stepped (t : Troupe) (i : Iss) : Prop where
  rest : i.t = { t with threads := i.t.threads, issuedAt := i.t.issuedAt }
  moved : Moved t i i.t
  length : i.t.threads.length = t.threads.length

theorem stepped_mkIss (t : Troupe) (w pc now : Nat) : Stepped t (mkIss t w pc now) where
  rest := congrArg (fun y : Troupe => { y with issuedAt := some now }) (stepPcs_eq pc t.cohort t)
  moved n x hx := by
    refine (thread_stepPcs pc t.cohort t n).trans ?_
    rw [hx, Option.map_some]
    split
    next inside => exact congrArg some (by rw [mkIss_cohort, if_pos inside]; rfl)
    next outside => exact congrArg some (by rw [mkIss_cohort, if_neg outside])
  length := length_stepPcs pc t.cohort t

namespace Stepped
variable {t : Troupe} {i : Iss} (h : Stepped t i)
include h

theorem vregs : i.t.vregs = t.vregs := congrArg (·.vregs) h.rest
theorem sregs : i.t.sregs = t.sregs := congrArg (·.sregs) h.rest
theorem place : i.t.at_ = t.at_ := congrArg (·.at_) h.rest
theorem die : i.t.die = t.die := congrArg (·.die) h.rest
theorem v (n lane : Nat) : i.t.v n lane = t.v n lane := congrArg (SMap.get 0 · (n * 32 + lane)) h.vregs
theorem s (n : Nat) : i.t.s n = t.s n := congrArg (SMap.get 0 · n) h.sregs

end Stepped

/-! ### What decides whether a troupe goes on (R182–R184) -/

/-- What an instruction may leave of a thread's state as it was: exited, parked, yielded. -/
def Thread.marks (x : Thread) : Bool × Option Park × Bool := (x.exited, x.parked, x.yielded)

/-- The troupe goes on: a live thread has not yielded, and what R200 keeps parked is kept by a yielded bit. -/
structure GoesOn (t : Troupe) : Prop where
  fresh : t.fresh = true
  due : t.convergeDue = true → t.yields = true

theorem GoesOn.of_marks {t y : Troupe} (h : GoesOn t) (marks : y.threads.map Thread.marks = t.threads.map Thread.marks)
    (due : y.convergeDue = t.convergeDue) : GoesOn y := by
  have fresh (z : Troupe) : z.fresh =
      (z.threads.map Thread.marks).any (fun m => !m.1 && m.2.1.isNone && !m.2.2) := by
    rw [Troupe.fresh, List.any_map]
    rfl
  have yields (z : Troupe) : z.yields = (z.threads.map Thread.marks).any (fun m => !m.1 && m.2.2) := by
    rw [Troupe.yields, Troupe.rest, List.any_filter, List.any_map]
    rfl
  exact ⟨by rw [fresh, marks, ← fresh, h.fresh], fun due' => by rw [yields, marks, ← yields, h.due (due ▸ due')]⟩

/-- Threads that have their place in both and the same marks. -/
theorem marks_of_threads {t y : Troupe} (length : y.threads.length = t.threads.length)
    (same : ∀ n x, t.thread n = some x → ∃ z, y.thread n = some z ∧ z.marks = x.marks) :
    y.threads.map Thread.marks = t.threads.map Thread.marks := by
  refine List.ext_getElem? fun n => ?_
  rw [List.getElem?_map, List.getElem?_map]
  cases there : t.threads[n]? with
  | none =>
    rw [List.getElem?_eq_none_iff] at there
    rw [List.getElem?_eq_none (length ▸ there)]
  | some x =>
    obtain ⟨z, hz, marks⟩ := same n x there
    rw [show y.threads[n]? = some z from hz]
    exact congrArg some marks

theorem Stepped.marks {t : Troupe} {i : Iss} (h : Stepped t i) :
    i.t.threads.map Thread.marks = t.threads.map Thread.marks :=
  marks_of_threads h.length fun n x hx => ⟨_, h.moved n x hx, rfl⟩

theorem Stepped.goesOn {t : Troupe} {i : Iss} (h : Stepped t i) (on : GoesOn t) : GoesOn i.t :=
  on.of_marks h.marks (congrArg (·.convergeDue) h.rest)

theorem mem_rest_of_fresh {t : Troupe} (h : t.fresh = true) :
    ∃ x ∈ t.rest, x.parked = none ∧ x.yielded = false := by
  obtain ⟨x, member, exited, parked, yielded⟩ := t.fresh_iff.1 h
  exact ⟨x, List.mem_filter.2 ⟨member, by rw [exited]; rfl⟩, parked, yielded⟩

theorem barriersOf_of_mem {l : List Thread} {x : Thread} (member : x ∈ l) (free : x.parked = none) :
    barriersOf l = none := by
  induction l with
  | nil => cases member
  | cons y l ih =>
    rw [barriersOf]
    rcases List.mem_cons.1 member with rfl | later
    · rw [free]
    · rw [ih later]
      split
      next none_ => cases none_
      · rfl

theorem settled_of_goesOn {t : Troupe} (h : GoesOn t) : settleConverge (settleDue (settleYield t)) = t := by
  have yield_ : settleYield t = t := by rw [settleYield, if_pos h.fresh]
  have due : settleDue t = t := by
    rw [settleDue, if_neg]
    rw [Bool.and_eq_true, Bool.not_eq_true']
    exact fun ⟨due, none_⟩ => Bool.false_ne_true (none_.symm.trans (h.due due))
  rw [yield_, due]
  obtain ⟨x, member, parked, -⟩ := mem_rest_of_fresh h.fresh
  unfold settleConverge
  cases rest : t.rest with
  | nil => rfl
  | cons y l =>
    dsimp only
    rw [if_neg]
    rw [Bool.and_eq_true, List.all_eq_true]
    rintro ⟨first, others⟩
    rw [rest] at member
    rcases List.mem_cons.1 member with rfl | later
    · rw [parked] at first
      cases first
    · have other := others x later
      rw [parked] at other
      cases other

/-! ### The troupe put back -/

theorem troupeIn_at (t : Troupe) : troupeIn t.at_ t = true := by simp [troupeIn, Troupe.at_]

theorem findTroupe_putTroupe {s : State} {t z : Troupe} (found : findTroupe s t.at_ = some z) :
    findTroupe (putTroupe t s) t.at_ = some t :=
  (find?_updWhere_const (troupeIn_at t) _).trans (congrArg (Option.map _) found)

theorem putTroupe_putTroupe {t y : Troupe} (place : y.at_ = t.at_) (s : State) :
    putTroupe t (putTroupe y s) = putTroupe t s := by
  have again : updWhere (troupeIn t.at_) (fun _ => t) (updWhere (troupeIn t.at_) (fun _ => y) s.core.troupes) =
      updWhere (troupeIn t.at_) (fun _ => t) s.core.troupes := by
    rw [updWhere, updWhere, updWhere, List.map_map]
    refine List.map_congr_left fun z _ => ?_
    have mine : troupeIn t.at_ y = true := place ▸ troupeIn_at y
    by_cases here : troupeIn t.at_ z = true
    · simp [here, mine]
    · simp [here]
  rw [putTroupe, putTroupe, place]
  exact congrArg (fun l => { s with core := { s.core with troupes := l } }) again

/-- A troupe that goes on is put back and sets nothing off. -/
theorem settle_of_goesOn {s : State} {y z : Troupe} (found : findTroupe s y.at_ = some z) (on : GoesOn y) :
    settle y.at_ (putTroupe y s) = putTroupe y s := by
  obtain ⟨x, member, free, -⟩ := mem_rest_of_fresh on.fresh
  rw [settle, findTroupe_putTroupe found]
  dsimp only
  rw [settled_of_goesOn on, barriersOf_of_mem member free]
  exact putTroupe_putTroupe rfl s

/-! ### The issue -/

section
variable {s u : State} {a : Issue} {op : Nat} {f : BitVec 56} {t : Troupe} {i : Iss} (h : Issues s u a op f t i)
include h

theorem Issues.stepped : Stepped t i := by
  obtain ⟨-, -, -, -, -, -, -, -, -, -, made⟩ := h
  rw [made]
  exact stepped_mkIss ..

theorem Issues.goesOn : GoesOn t := by
  obtain ⟨-, -, due, -, -, fresh, -⟩ := h
  exact ⟨fresh, due⟩

theorem Issues.found : findTroupe u t.at_ = some t := by
  obtain ⟨-, -, -, -, -, -, -, -, found, -⟩ := h
  exact found

theorem Issues.length : t.threads.length = 32 := by
  obtain ⟨-, -, -, -, length, -⟩ := h
  exact length

theorem Issues.word : i.w = wordOf op f := by
  obtain ⟨-, -, -, -, -, -, -, -, -, -, made⟩ := h
  rw [made]
  rfl

theorem Issues.act_subset : ∀ n ∈ i.act, n ∈ i.cohort ∧ n < 32 := by
  obtain ⟨-, -, -, -, -, -, -, -, -, -, made⟩ := h
  intro n hn
  rw [made] at hn ⊢
  have inside : n ∈ t.cohort := (List.mem_filter.1 hn).1
  exact ⟨inside, ((t.mem_cohort n).1 inside).1⟩

/-- Each executing lane once. -/
theorem Issues.act_nodup : i.act.Nodup := by
  obtain ⟨-, -, -, -, -, -, -, -, -, -, made⟩ := h
  rw [made]
  refine List.Nodup.filter _ ?_
  unfold Troupe.cohort
  split
  · exact List.nodup_range.filter _
  · exact List.nodup_nil

/-- The opcode's effect decides what the issue does. -/
theorem coreOp_of_issues (eff : Iss → State → Eff) : coreOp a op f eff s = .next (match eff i u with
    | .done t' s => settle t.at_ (putTroupe t' s)
    | .trap code lane addr s => troupeFault t code lane addr i.pc s
    | .wait => u
    | .hold s => s) := by
  obtain ⟨hd, runs, -, chosen, -, -, pcs, fetched, -, ok, made⟩ := h
  refine (onDie_of_lt hd).trans (congrArg _ ?_)
  have clock : coreClock u a = SMap.get 0 u.core.cclk ((a.die * 320 + a.cluster) * 16 + a.core) := rfl
  rw [issue]
  dsimp only
  rw [runs, if_neg Bool.false_ne_true, chosen]
  dsimp only
  rw [pcs, Option.getD_some, fetched]
  dsimp only
  rw [issueWord, if_pos ok, clock, ← made] <;> rfl

/-- An effect after which the troupe goes on. -/
theorem completes_of_done {c : Instr} {eff : Iss → State → Eff} {y z : Troupe} {v : State} {P : State → Prop}
    (exec_ : exec c s = coreOp a op f eff s) (done : eff i u = .done y v) (place : y.at_ = t.at_)
    (found : findTroupe v t.at_ = some z) (on : GoesOn y) (holds : P (putTroupe y v)) : Completes c s P := by
  refine ⟨_, exec_.trans (coreOp_of_issues h eff), ?_⟩
  rw [done]
  dsimp only
  rw [← place] at found ⊢
  rwa [settle_of_goesOn found on]

end

end Sys2Proof.Machine
end

section
/-! PROOFS. The registers of a troupe (R122, R124): what a write of lanes, of a group and of a scalar leaves in each
register. -/

namespace Sys2Proof.Machine

/-! ### Vector registers (R122) -/

/-- The key of a vector register of a lane names both. -/
theorem vkey_inj {q r m n : Nat} (hm : m < 32) (hn : n < 32) : q * 32 + m = r * 32 + n ↔ q = r ∧ m = n := by omega

theorem v_setV {m n : Nat} (hm : m < 32) (hn : n < 32) (t : Troupe) (q r : Nat) (x : Lane) :
    (t.setV r n x).v q m = if q = r ∧ m = n then x else t.v q m := by
  split
  next same =>
    obtain ⟨rfl, rfl⟩ := same
    exact SMap.get_set_same ..
  next other => exact SMap.get_set_ne _ _ _ _ _ _ (fun same => other ((vkey_inj hm hn).1 same))

/-- `y` is `t` but for its vector registers. -/
def OnlyVecs (t y : Troupe) : Prop := y = { t with vregs := y.vregs }

namespace OnlyVecs

theorem refl (t : Troupe) : OnlyVecs t t := rfl

theorem setV {t y : Troupe} (h : OnlyVecs t y) (r n : Nat) (x : Lane) : OnlyVecs t (y.setV r n x) :=
  congrArg (fun y : Troupe => y.setV r n x) h

theorem sregs {t y : Troupe} (h : OnlyVecs t y) : y.sregs = t.sregs := congrArg (·.sregs) h

theorem threads {t y : Troupe} (h : OnlyVecs t y) : y.threads = t.threads := congrArg (·.threads) h

theorem place {t y : Troupe} (h : OnlyVecs t y) : y.at_ = t.at_ := congrArg (·.at_) h

theorem due {t y : Troupe} (h : OnlyVecs t y) : y.convergeDue = t.convergeDue := congrArg (·.convergeDue) h

end OnlyVecs

theorem onlyVecs_writeLanes (r : Nat) (f : Nat → Lane) (l : List Nat) {t y : Troupe} (h : OnlyVecs t y) :
    OnlyVecs t (writeLanes r f l y) := by
  induction l generalizing y with
  | nil => exact h
  | cons n l ih => exact ih (h.setV r n (f n))

theorem v_writeLanes {l : List Nat} (lanes : ∀ n ∈ l, n < 32) {m : Nat} (hm : m < 32) (r q : Nat) (f : Nat → Lane)
    (t : Troupe) : (writeLanes r f l t).v q m = if q = r ∧ m ∈ l then f m else t.v q m := by
  induction l generalizing t with
  | nil => simp [writeLanes]
  | cons n l ih =>
    obtain ⟨hn, lanes⟩ := List.forall_mem_cons.1 lanes
    rw [writeLanes, ih lanes, v_setV hm hn]
    by_cases later : m ∈ l
    · by_cases reg : q = r <;> simp [later, reg]
    · by_cases here : m = n
      · subst here
        simp [later]
      · simp [later, here]

/-! ### Groups (R125) -/

/-- Register `q` of a group of `k` from `r`. -/
def InGroup (r k q : Nat) : Prop := r ≤ q ∧ q < r + k

theorem onlyVecs_writeGroup (n r k x : Nat) {t y : Troupe} (h : OnlyVecs t y) : OnlyVecs t (writeGroup n r k x y) := by
  induction k generalizing r x y with
  | zero => exact h
  | succ k ih => exact ih (r + 1) (x / 2 ^ 32) (h.setV r n (BitVec.ofNat 32 x))

theorem v_writeGroup_outside {m n : Nat} (hm : m < 32) (hn : n < 32) {r k q : Nat} (other : ¬(InGroup r k q ∧ m = n))
    (x : Nat) (t : Troupe) : (writeGroup n r k x t).v q m = t.v q m := by
  induction k generalizing r x t with
  | zero => rfl
  | succ k ih =>
    rw [writeGroup, ih (fun inside => other ⟨⟨by have := inside.1.1; omega, by have := inside.1.2; omega⟩, inside.2⟩),
      v_setV hm hn, if_neg]
    rintro ⟨rfl, same⟩
    exact other ⟨⟨le_rfl, by omega⟩, same⟩

theorem readGroup_congr {t y : Troupe} {n r k : Nat} (same : ∀ q, InGroup r k q → y.v q n = t.v q n) :
    readGroup y n r k = readGroup t n r k := by
  induction k generalizing r with
  | zero => rfl
  | succ k ih =>
    rw [readGroup, readGroup, same r ⟨le_rfl, by omega⟩,
      ih fun q inside => same q ⟨by have := inside.1; omega, by have := inside.2; omega⟩]

theorem readGroup_writeGroup {n : Nat} (hn : n < 32) (r k x : Nat) (t : Troupe) :
    readGroup (writeGroup n r k x t) n r k = x % 2 ^ (32 * k) := by
  induction k generalizing r x t with
  | zero => simp [readGroup, Nat.mod_one]
  | succ k ih =>
    have low : (writeGroup n (r + 1) k (x / 2 ^ 32) (t.setV r n (BitVec.ofNat 32 x))).v r n = BitVec.ofNat 32 x := by
      rw [v_writeGroup_outside hn hn (fun inside => by have := inside.1.1; omega), v_setV hn hn, if_pos ⟨rfl, rfl⟩]
    rw [readGroup, writeGroup, low, ih, BitVec.toNat_ofNat, Nat.mul_succ, Nat.add_comm (32 * k), pow_add, Nat.mod_mul]

/-- A group written in each lane of a list. -/
def writeGroups (r k : Nat) (x : Nat → Nat) (l : List Nat) (t : Troupe) : Troupe :=
  l.foldl (fun t n => writeGroup n r k (x n) t) t

theorem onlyVecs_writeGroups (r k : Nat) (x : Nat → Nat) (l : List Nat) {t y : Troupe} (h : OnlyVecs t y) :
    OnlyVecs t (writeGroups r k x l y) := by
  induction l generalizing y with
  | nil => exact h
  | cons n l ih => exact ih (onlyVecs_writeGroup n r k (x n) h)

theorem v_writeGroups_outside {l : List Nat} (lanes : ∀ n ∈ l, n < 32) {m : Nat} (hm : m < 32) {r k q : Nat}
    (other : ¬(InGroup r k q ∧ m ∈ l)) (x : Nat → Nat) (t : Troupe) :
    (writeGroups r k x l t).v q m = t.v q m := by
  induction l generalizing t with
  | nil => rfl
  | cons n l ih =>
    obtain ⟨hn, lanes⟩ := List.forall_mem_cons.1 lanes
    refine (ih lanes (fun inside => other ⟨inside.1, List.mem_cons_of_mem _ inside.2⟩) _).trans
      (v_writeGroup_outside hm hn (fun inside => other ⟨inside.1, ?_⟩) (x n) t)
    rw [inside.2]
    exact List.mem_cons_self

theorem readGroup_writeGroups {l : List Nat} (lanes : ∀ n ∈ l, n < 32) {m : Nat} (member : m ∈ l) (r k : Nat)
    (x : Nat → Nat) (t : Troupe) : readGroup (writeGroups r k x l t) m r k = x m % 2 ^ (32 * k) := by
  induction l generalizing t with
  | nil => cases member
  | cons n l ih =>
    obtain ⟨hn, later⟩ := List.forall_mem_cons.1 lanes
    by_cases again : m ∈ l
    · exact ih later again _
    · obtain rfl : m = n := (List.mem_cons.1 member).resolve_right again
      refine (readGroup_congr fun q _ => ?_).trans (readGroup_writeGroup hn r k (x m) t)
      exact v_writeGroups_outside later hn (fun inside => again inside.2) x _

/-! ### Scalar registers (R124) -/

/-- `y` is `t` but for its scalar registers. -/
def OnlyScalars (t y : Troupe) : Prop := y = { t with sregs := y.sregs }

theorem s_setS (t : Troupe) (q n : Nat) (x : Lane) : (t.setS n x).s q = if q = n then x else t.s q := by
  split
  next same =>
    subst same
    exact SMap.get_set_same ..
  next other => exact SMap.get_set_ne _ _ _ _ _ _ other

theorem s_setPair (t : Troupe) (q n x : Nat) : (t.setPair n x).s q =
    if q = 2 * n + 1 then BitVec.ofNat 32 (x / 2 ^ 32) else if q = 2 * n then BitVec.ofNat 32 x else t.s q := by
  rw [Troupe.setPair, s_setS, s_setS]

theorem pair_setPair (t : Troupe) (n x : Nat) : (t.setPair n x).pair n = x % 2 ^ 64 := by
  rw [Troupe.pair, s_setPair, s_setPair, if_neg (by omega), if_pos rfl, if_pos rfl, BitVec.toNat_ofNat, BitVec.toNat_ofNat]
  omega

/-! ### The registers of an issue -/

section
variable {s u : State} {a : Issue} {op : Nat} {f : BitVec 56} {t : Troupe} {i : Iss} (h : Issues s u a op f t i)
include h

theorem Issues.legal : legal t.rows (wordOf op f) = true := by
  obtain ⟨-, -, -, -, -, -, -, -, -, ok, -⟩ := h
  exact ok

theorem Issues.lanes : ∀ n ∈ i.act, n < 32 := fun n hn => (Issues.act_subset h n hn).2

/-- An effect that leaves the troupe's threads as the issue left them, and its place. -/
theorem completes_of_threads {c : Instr} {eff : Iss → State → Eff} {y z : Troupe} {v : State} {P : State → Prop}
    (exec_ : exec c s = coreOp a op f eff s) (done : eff i u = .done y v) (found : findTroupe v t.at_ = some z)
    (threads : y.threads = i.t.threads) (place : y.at_ = i.t.at_) (due : y.convergeDue = i.t.convergeDue)
    (holds : Moved t i y → P (putTroupe y v)) : Completes c s P :=
  have stepped := Issues.stepped h
  completes_of_done h exec_ done (place.trans stepped.place) found
    ((stepped.goesOn (Issues.goesOn h)).of_marks (congrArg (List.map Thread.marks) threads) due)
    (holds fun n x hx => (congrArg (·[n]?) threads).trans (stepped.moved n x hx))

/-- An effect on the vector registers alone. -/
theorem completes_of_vecs {c : Instr} {eff : Iss → State → Eff} {y z : Troupe} {v : State} {P : State → Prop}
    (exec_ : exec c s = coreOp a op f eff s) (done : eff i u = .done y v) (found : findTroupe v t.at_ = some z)
    (only : OnlyVecs i.t y) (holds : Moved t i y → y.sregs = t.sregs → P (putTroupe y v)) : Completes c s P :=
  completes_of_threads h exec_ done found only.threads only.place only.due
    fun moved => holds moved (only.sregs.trans (Issues.stepped h).sregs)

theorem vecBut_writeLanes {l : List Nat} (lanes : ∀ n ∈ l, n < 32) (r : Nat) (g : Nat → Lane) :
    VecBut t l r 1 (writeLanes r g l i.t) := fun q n hn outside => by
  rw [v_writeLanes lanes hn, if_neg, (Issues.stepped h).v]
  rintro ⟨rfl, inside⟩
  rcases outside with below | above | out
  · exact lt_irrefl _ below
  · exact Nat.not_succ_le_self _ above
  · exact out inside

theorem vecBut_writeGroups {l : List Nat} (lanes : ∀ n ∈ l, n < 32) (r k : Nat) (x : Nat → Nat) :
    VecBut t l r k (writeGroups r k x l i.t) := fun q n hn outside => by
  rw [v_writeGroups_outside lanes hn, (Issues.stepped h).v]
  rintro ⟨⟨above, below⟩, inside⟩
  rcases outside with low | high | out
  · exact absurd above (by omega)
  · exact absurd below (by omega)
  · exact out inside

end

end Sys2Proof.Machine
end

section
/-! PROOFS. Vector arithmetic: the opcodes that write VD, VCVT, and INT32 in two's complement (R126, R130, R136,
R137). -/

namespace Sys2Proof.Machine

/-! ### The opcodes that write one register -/

theorem exec_of_mem_vectorOps {a : Issue} {imm : Bool} {f : BitVec 56} {c : Instr} {op : Nat} {lane : Iss → Nat → Lane}
    (mem : (c, op, lane) ∈ vectorOps a imm f) (s : State) : exec c s = coreOp a op f (laneEff lane) s := by
  have each_ : ∀ x ∈ vectorOps a imm f, exec x.1 s = coreOp a x.2.1 f (laneEff x.2.2) s := by
    simp only [vectorOps, List.forall_mem_cons]
    repeat' constructor
    intro x none_
    cases none_
  exact each_ _ mem

section
variable {s u : State} {a : Issue} {op : Nat} {f : BitVec 56} {t : Troupe} {i : Iss} (h : Issues s u a op f t i)
include h

/-- A value of each lane written to VD. -/
theorem completes_of_lanes {c : Instr} {eff : Iss → State → Eff} (g : Nat → Lane) {P : State → Prop}
    (exec_ : exec c s = coreOp a op f eff s) (done : eff i u = .done (writeLanes (fD i.w) g i.act i.t) u)
    (holds : ∀ y : Troupe, y.at_ = t.at_ → Moved t i y → y.sregs = t.sregs → (∀ n ∈ i.act, y.v (fD i.w) n = g n) →
      VecBut t i.act (fD i.w) 1 y → P (putTroupe y u)) : Completes c s P := by
  have lanes := Issues.lanes h
  have only := onlyVecs_writeLanes (fD i.w) g i.act (.refl i.t)
  refine completes_of_vecs h exec_ done (Issues.found h) only fun moved sregs =>
    holds _ (only.place.trans (Issues.stepped h).place) moved sregs (fun n hn => ?_) (vecBut_writeLanes h lanes _ _)
  rw [v_writeLanes lanes (lanes n hn), if_pos ⟨rfl, hn⟩]

end

/-! ### VCVT -/

theorem packElems_lt (w : Nat) (l : List Nat) : packElems w l < 2 ^ (w * l.length) := by
  induction l with
  | nil => exact Nat.one_pos
  | cons x l ih =>
    have low := Nat.mod_lt x (Nat.two_pow_pos w)
    rw [packElems, List.length_cons, Nat.mul_succ, Nat.add_comm (w * l.length), pow_add]
    calc x % 2 ^ w + 2 ^ w * packElems w l
        < 2 ^ w * (packElems w l + 1) := by rw [Nat.mul_succ]; omega
      _ ≤ 2 ^ w * 2 ^ (w * l.length) := Nat.mul_le_mul_left _ ih

theorem length_elemsOf (w : Nat) (l : List Nat) : (elemsOf w l).length = l.length * (32 / w) := by
  simp [elemsOf, List.length_flatten, Function.comp_def]

/-- The converted elements fill the destination group. -/
theorem cvt_fits (w : Nat) :
    typeWidth (fMod w) * ((cvtRegs w).2 * (32 / typeWidth (fType w))) = 32 * (cvtRegs w).1 := by
  have width (x : Nat) : typeWidth x = 8 ∨ typeWidth x = 16 ∨ typeWidth x = 32 := by
    unfold typeWidth
    split
    · simp
    · split <;> simp
  rw [cvtRegs]
  rcases width (fType w) with a | a | a <;> rcases width (fMod w) with b | b | b <;> rw [a, b] <;> rfl

/-- What VCVT leaves in the destination group of a lane. -/
def cvtGroup (i : Iss) (n : Nat) : Nat :=
  packElems (typeWidth (fMod i.w))
    ((elemsOf (typeWidth (fType i.w)) ((List.range (cvtRegs i.w).2).map (fun j => (i.t.v (fA i.w + j) n).toNat))).map
      (cvtE (fType i.w) (fMod i.w) (fRnd i.w) (fSat i.w)
        (if fScale i.w then scaleOf (i.t.s (fSS i.w)) n else 127)
        (if fScale i.w then scaleOf (i.t.s (fSS i.w)) n else 127)))

theorem vcvtEff_eq (i : Iss) (s : State) :
    vcvtEff i s = .done (writeGroups (fD i.w) (cvtRegs i.w).1 (cvtGroup i) i.act i.t) s := rfl

theorem cvtGroup_lt (i : Iss) (n : Nat) : cvtGroup i n < 2 ^ (32 * (cvtRegs i.w).1) := by
  refine (packElems_lt _ _).trans_eq ?_
  rw [List.length_map, length_elemsOf, List.length_map, List.length_range, cvt_fits]

/-- Settles O41: the effects are writes of the executing lanes' VD, read back one by one. That VCVT packs FP8 against a
16-bit type two elements to a register and saturates as it does is the model's reading (logs 110, 111). -/
theorem vectorArithmetic : Obligations.VectorArithmetic := by
  refine ⟨fun s u a imm f t i c op lane mem h => completes_of_lanes h (lane i) (exec_of_mem_vectorOps mem s) rfl
      fun y _ moved sregs written others => ⟨y, rfl, moved, sregs, written, others⟩,
    fun s u a f t i h => ?_⟩
  have lanes := Issues.lanes h
  have stepped := Issues.stepped h
  refine completes_of_vecs h (c := .vcvt a f) rfl (vcvtEff_eq i u) (Issues.found h) (onlyVecs_writeGroups _ _ _ _ (.refl _))
    fun moved sregs => ⟨_, rfl, moved, sregs, fun n hn => ?_, vecBut_writeGroups h lanes _ _ _⟩
  rw [readGroup_writeGroups lanes hn, Nat.mod_eq_of_lt (cvtGroup_lt i n), cvtGroup]
  simp only [stepped.v, stepped.s]

/-! ### INT32 -/

theorem elem_lane (x : Lane) : elem 32 0 x.toNat = x.toNat := by
  rw [elem, Nat.mul_zero, pow_zero, Nat.div_one, Nat.mod_eq_of_lt x.isLt]

/-- A type of 32 bits has one element. -/
theorem mapElems2_int32 (g : Nat → Nat → Nat) (x y : Lane) : mapElems2 5 g x y = BitVec.ofNat 32 (g x.toNat y.toNat) := by
  have one (e : Nat → Nat) : (List.range (32 / typeWidth 5)).map e = [e 0] := rfl
  rw [mapElems2, one, show typeWidth 5 = 32 from rfl, elem_lane, elem_lane, packElems, packElems, Nat.mul_zero, Nat.add_zero]
  exact BitVec.eq_of_toNat_eq (by simp)

theorem lane_of_toNat (x : Lane) : BitVec.ofNat 32 x.toNat = x := BitVec.eq_of_toNat_eq (by simp)

theorem toSigned_lane (x : Lane) : toSigned 32 x.toNat = x.toInt := by
  have below := x.isLt
  rw [toSigned, BitVec.toInt_eq_toNat_cond]
  split <;> split <;> omega

theorem vaddLane_int32 {i : Iss} (n : Nat) (int : fType i.w = 5) : vaddLane i n = i.va n + i.vb n := by
  rw [vaddLane, int, mapElems2_int32]
  refine BitVec.eq_of_toNat_eq ?_
  simp [addE, isInt, typeWidth]

theorem vsubLane_int32 {i : Iss} (n : Nat) (int : fType i.w = 5) : vsubLane i n = i.va n - i.vb n := by
  rw [vsubLane, int, mapElems2_int32]
  refine BitVec.eq_of_toNat_eq ?_
  simp [subE, isInt, typeWidth]
  omega

theorem vmulLane_int32 {i : Iss} (n : Nat) (int : fType i.w = 5) : vmulLane i n = i.va n * i.vb n := by
  rw [vmulLane, int, mapElems2_int32]
  refine BitVec.eq_of_toNat_eq ?_
  simp [mulE, isInt, typeWidth]

theorem vnegLane_int32 {i : Iss} (n : Nat) (int : fType i.w = 5) : vnegLane i n = -i.va n := by
  rw [vnegLane, int, mapElems, mapElems2_int32]
  refine BitVec.eq_of_toNat_eq ?_
  simp [negE, isInt, typeWidth]

theorem vabsLane_int32 {i : Iss} (n : Nat) (int : fType i.w = 5) :
    vabsLane i n = if (i.va n).slt 0 then -i.va n else i.va n := by
  have below := (i.va n).isLt
  have sign : (i.va n).slt 0 = decide (2 ^ 31 ≤ (i.va n).toNat) := by
    rw [BitVec.slt_eq_decide, ← toSigned_lane, toSigned, show BitVec.toInt (0 : Lane) = 0 from rfl, decide_eq_decide]
    split <;> omega
  rw [vabsLane, int, mapElems, mapElems2_int32, sign]
  refine BitVec.eq_of_toNat_eq ?_
  by_cases negative : 2 ^ 31 ≤ (i.va n).toNat
  · rw [if_pos (decide_eq_true negative), BitVec.toNat_neg, BitVec.toNat_ofNat, absE, if_pos (show isInt 5 = true from rfl)]
    dsimp only
    rw [show typeWidth 5 = 32 from rfl, if_pos negative, Nat.mod_mod]
  · rw [if_neg (by simpa using negative), BitVec.toNat_ofNat, absE, if_pos (show isInt 5 = true from rfl)]
    dsimp only
    rw [show typeWidth 5 = 32 from rfl, if_neg negative, Nat.mod_eq_of_lt below]

/-- The order of INT32 minimum and maximum. -/
theorem minMaxE_int32 (isMax unsig : Bool) (x y : Lane) :
    BitVec.ofNat 32 (minMaxE 5 isMax unsig x.toNat y.toNat) =
      if xor (if unsig then x.ult y else x.slt y) isMax then x else y := by
  have less : (if unsig then decide (x.toNat < y.toNat) else decide (toSigned 32 x.toNat < toSigned 32 y.toNat)) =
      if unsig then x.ult y else x.slt y := by
    rw [toSigned_lane, toSigned_lane, BitVec.slt_eq_decide, BitVec.ult_eq_decide]
  rw [minMaxE, if_pos (by rfl), show typeWidth 5 = 32 from rfl]
  dsimp only
  rw [less]
  rw [apply_ite (BitVec.ofNat 32), lane_of_toNat, lane_of_toNat]

theorem vminLane_int32 {i : Iss} (n : Nat) (int : fType i.w = 5) : vminLane i n =
    if (if (fMod i.w).testBit 0 then (i.va n).ult (i.vb n) else (i.va n).slt (i.vb n)) then i.va n else i.vb n := by
  rw [vminLane, int, mapElems2_int32, minMaxE_int32, Bool.xor_false]

theorem vmaxLane_int32 {i : Iss} (n : Nat) (int : fType i.w = 5) : vmaxLane i n =
    if (if (fMod i.w).testBit 0 then (i.va n).ult (i.vb n) else (i.va n).slt (i.vb n)) then i.vb n else i.va n := by
  rw [vmaxLane, int, mapElems2_int32, minMaxE_int32, Bool.xor_true]
  cases (if (fMod i.w).testBit 0 then (i.va n).ult (i.vb n) else (i.va n).slt (i.vb n)) <;> rfl

theorem vshrLane_eq (i : Iss) (n : Nat) : vshrLane i n =
    if (fMod i.w).testBit 0 then (i.va n).sshiftRight ((i.vb n).toNat % 32) else i.va n >>> ((i.vb n).toNat % 32) := by
  rw [vshrLane]
  split <;> rfl

/-- Each INT32 opcode writes VD, with its value of the two operands. -/
theorem exists_lane_of_mem_intOps {a : Issue} {f : BitVec 56} {c : Instr} {op : Nat} {g : Lane → Lane → Lane}
    (mem : (c, op, g) ∈ intOps a f) : ∃ lane, (∀ s, exec c s = coreOp a op f (laneEff lane) s) ∧
      ∀ (i : Iss) (n : Nat), i.w = wordOf op f → fType i.w = 5 → lane i n = g (i.va n) (i.vb n) := by
  simp only [intOps, List.mem_cons, List.not_mem_nil, or_false, Prod.mk.injEq] at mem
  rcases mem with ⟨rfl, rfl, rfl⟩ | ⟨rfl, rfl, rfl⟩ | ⟨rfl, rfl, rfl⟩ | ⟨rfl, rfl, rfl⟩ | ⟨rfl, rfl, rfl⟩ |
    ⟨rfl, rfl, rfl⟩ | ⟨rfl, rfl, rfl⟩ | ⟨rfl, rfl, rfl⟩ | ⟨rfl, rfl, rfl⟩
  · exact ⟨vaddLane, fun _ => rfl, fun _ n _ int => vaddLane_int32 n int⟩
  · exact ⟨vsubLane, fun _ => rfl, fun _ n _ int => vsubLane_int32 n int⟩
  · exact ⟨vmulLane, fun _ => rfl, fun _ n _ int => vmulLane_int32 n int⟩
  · exact ⟨vabsLane, fun _ => rfl, fun _ n _ int => vabsLane_int32 n int⟩
  · exact ⟨vnegLane, fun _ => rfl, fun _ n _ int => vnegLane_int32 n int⟩
  · exact ⟨vminLane, fun _ => rfl, fun _ n word int => word ▸ vminLane_int32 n int⟩
  · exact ⟨vmaxLane, fun _ => rfl, fun _ n word int => word ▸ vmaxLane_int32 n int⟩
  · exact ⟨vshlLane, fun _ => rfl, fun _ _ _ _ => rfl⟩
  · exact ⟨vshrLane, fun _ => rfl, fun i n word _ => word ▸ vshrLane_eq i n⟩

/-- Settles O42: a type of 32 bits has one element, and each opcode's value of it is its residue modulo 2^32. -/
theorem int32Arithmetic : Obligations.Int32Arithmetic := by
  intro s u a f t i c op n g mem h int hn
  obtain ⟨lane, exec_, value⟩ := exists_lane_of_mem_intOps mem
  refine completes_of_lanes h (lane i) (exec_ s) rfl fun y place _ _ written _ => ⟨y, ?_, ?_⟩
  · exact place ▸ findTroupe_putTroupe ((congrArg (findTroupe u) place).trans (Issues.found h))
  · rw [written n hn, value i n (Issues.word h) int, Iss.va, Iss.vb, (Issues.stepped h).v, (Issues.stepped h).v]

end Sys2Proof.Machine
end

section
/-! PROOFS. Predicates and scalars (R123, R124, R135, R140): threads changed lane by lane, comparisons, scalar results
and special values. -/

namespace Sys2Proof.Machine

/-! ### Threads changed lane by lane -/

/-- `y` is `t` but for its threads. -/
def OnlyThreads (t y : Troupe) : Prop := y = { t with threads := y.threads }

theorem onlyThreads_onLanes (l : List Nat) (g : Nat → Thread → Thread) (t : Troupe) : OnlyThreads t (onLanes l g t) := by
  induction l generalizing t with
  | nil => rfl
  | cons n l ih => exact ih (t.updThread n (g n))

namespace OnlyThreads

theorem vregs {t y : Troupe} (h : OnlyThreads t y) : y.vregs = t.vregs := congrArg (·.vregs) h
theorem sregs {t y : Troupe} (h : OnlyThreads t y) : y.sregs = t.sregs := congrArg (·.sregs) h
theorem place {t y : Troupe} (h : OnlyThreads t y) : y.at_ = t.at_ := congrArg (·.at_) h
theorem due {t y : Troupe} (h : OnlyThreads t y) : y.convergeDue = t.convergeDue := congrArg (·.convergeDue) h

end OnlyThreads

theorem length_onLanes (l : List Nat) (g : Nat → Thread → Thread) (t : Troupe) :
    (onLanes l g t).threads.length = t.threads.length := by
  induction l generalizing t with
  | nil => rfl
  | cons n l ih => exact (ih _).trans (length_updThread t n (g n))

/-- Each lane of the list once. -/
theorem thread_onLanes {l : List Nat} (once : l.Nodup) (g : Nat → Thread → Thread) (t : Troupe) (n : Nat) :
    (onLanes l g t).thread n = (t.thread n).map (fun x => if n ∈ l then g n x else x) := by
  induction l generalizing t with
  | nil => simp [onLanes]
  | cons k l ih =>
    obtain ⟨out, once⟩ := List.nodup_cons.1 once
    refine (ih once (t.updThread k (g k))).trans ?_
    rw [Troupe.thread_updThread, Option.map_map]
    congr 1
    funext x
    by_cases here : k = n
    · subst here
      simp [out]
    · simp [here, Ne.symm here]

/-- What a change leaves of every thread, it leaves of the threads. -/
theorem map_threads_onLanes {α : Type} (l : List Nat) (g : Nat → Thread → Thread) (t : Troupe) (part : Thread → α)
    (same : ∀ n x, part (g n x) = part x) : (onLanes l g t).threads.map part = t.threads.map part := by
  induction l generalizing t with
  | nil => rfl
  | cons k l ih =>
    refine (ih (t.updThread k (g k))).trans (List.ext_getElem? fun n => ?_)
    rw [List.getElem?_map, List.getElem?_map]
    refine (congrArg (Option.map part) (t.thread_updThread k (g k) n)).trans ?_
    rw [Option.map_map]
    refine congrArg (Option.map · t.threads[n]?) (funext fun x => ?_)
    exact (apply_ite part _ _ _).trans (by rw [same, ite_self])

/-! ### Predicates (R123) -/

theorem writePreds_eq (r : Nat) (g : Nat → Bool) (l : List Nat) (t : Troupe) :
    writePreds r g l t = onLanes l (fun n x => x.setP r (g n)) t := by
  induction l generalizing t with
  | nil => rfl
  | cons n l ih => exact ih _

/-- A thread stores seven predicates. -/
theorem p_of_ge {q : Nat} (hq : 8 ≤ q) (t : Troupe) (n : Nat) : t.p q n = false := by
  rw [Troupe.p, if_neg (by omega)]
  cases t.thread n with
  | none => rfl
  | some x => exact BitVec.getLsbD_of_ge _ _ (by omega)

theorem p_writePreds_other (r : Nat) (g : Nat → Bool) (l : List Nat) (t : Troupe) {q n : Nat}
    (other : ¬(q = r ∧ n ∈ l)) : (writePreds r g l t).p q n = t.p q n := by
  by_cases hq : q < 8
  · induction l generalizing t with
    | nil => rfl
    | cons m l ih =>
      refine (ih (t.setP r m (g m)) fun inside => other ⟨inside.1, List.mem_cons_of_mem _ inside.2⟩).trans
        (t.p_setP_other (g m) hq fun inside => other ⟨inside.1, ?_⟩)
      rw [inside.2]
      exact List.mem_cons_self
  · rw [p_of_ge (not_lt.1 hq), p_of_ge (not_lt.1 hq)]

theorem p_writePreds_same {r : Nat} (hr : r < 7) (g : Nat → Bool) {l : List Nat} {t : Troupe}
    (lanes : ∀ n ∈ l, n < t.threads.length) {n : Nat} (hn : n ∈ l) : (writePreds r g l t).p r n = g n := by
  induction l generalizing t with
  | nil => cases hn
  | cons m l ih =>
    obtain ⟨hm, later⟩ := List.forall_mem_cons.1 lanes
    have length : (t.setP r m (g m)).threads.length = t.threads.length := length_updThread ..
    by_cases again : n ∈ l
    · exact ih (t := t.setP r m (g m)) (length ▸ later) again
    · obtain rfl : n = m := (List.mem_cons.1 hn).resolve_right again
      exact (p_writePreds_other r g l (t.setP r n (g n)) (fun inside => again inside.2)).trans
        (Troupe.p_setP_same hr hm (g n))

/-! ### The fields of a legal word -/

/-- A field of a word that uses only some bits has no other. -/
theorem bits_le_of_onlyUses {w used : Nat} (h : onlyUses w used = true) (hi lo : Nat) :
    bits w hi lo ≤ bits (used + commonMask) hi lo := by
  have inside : w &&& (used + commonMask) = w := Nat.eq_of_beq_eq_true h
  have part : bits (w &&& (used + commonMask)) hi lo = bits w hi lo &&& bits (used + commonMask) hi lo := by
    rw [bits, bits, bits, Nat.and_div_two_pow, Nat.and_mod_two_pow]
  rw [inside] at part
  rw [part]
  exact Nat.and_le_right

theorem fOp_wordOf (op : Nat) (f : BitVec 56) : fOp (wordOf op f) = op % 256 := by
  rw [fOp, bits, wordOf]
  omega

theorem onlyUses_of_legal_vs {alloc w op : Nat} {r : OpRow} (ok : legal alloc w = true) (code : fOp w = op)
    (vs : op / 32 = 1) (row : findRow (op % 16 + 0x20) (vsRows ++ vsRowsS) = some r) :
    onlyUses w (r.used + if op.testBit 4 then fieldMask 63 32 else fieldMask 37 32) = true := by
  unfold legal at ok
  rw [code] at ok
  dsimp only at ok
  rw [vs] at ok
  rw [row] at ok
  simp only [Bool.and_eq_true] at ok
  exact ok.2.1.1.1

/-- D of a comparison of format VS names one of eight predicates. -/
theorem fD_lt_of_legal_cmp {alloc op : Nat} {f : BitVec 56} (imm : Bool) (cmp : op = 0x26 ∨ op = 0x2E)
    (ok : legal alloc (wordOf (vsOp op imm) f) = true) : fD (wordOf (vsOp op imm) f) < 8 := by
  have code := fOp_wordOf (vsOp op imm) f
  refine Nat.lt_succ_of_le ?_
  rcases cmp with rfl | rfl <;> cases imm
  · exact (bits_le_of_onlyUses (onlyUses_of_legal_vs ok code rfl rfl) 18 12).trans (by decide)
  · exact (bits_le_of_onlyUses (onlyUses_of_legal_vs ok code rfl rfl) 18 12).trans (by decide)
  · exact (bits_le_of_onlyUses (onlyUses_of_legal_vs ok code rfl rfl) 18 12).trans (by decide)
  · exact (bits_le_of_onlyUses (onlyUses_of_legal_vs ok code rfl rfl) 18 12).trans (by decide)

/-! ### What happens once (R135) -/

theorem onceEff_of_act {g : Iss → State → Troupe × State} {i : Iss} (some_ : i.act ≠ []) (u : State) :
    onceEff g i u = .done (g i u).1 (g i u).2 := by
  rw [onceEff, if_neg (by simpa using some_)]

theorem onceEff_of_none {g : Iss → State → Troupe × State} {i : Iss} (none_ : i.act = []) (u : State) :
    onceEff g i u = .done i.t u := by
  rw [onceEff, none_]
  rfl

/-! ### The comparisons -/

theorem Stepped.thread_none {t : Troupe} {i : Iss} (h : Stepped t i) {n : Nat} (none_ : t.thread n = none) :
    i.t.thread n = none :=
  List.getElem?_eq_none (h.length ▸ List.getElem?_eq_none_iff.1 none_)

theorem Stepped.p {t : Troupe} {i : Iss} (h : Stepped t i) (q n : Nat) : i.t.p q n = t.p q n := by
  rw [Troupe.p, Troupe.p]
  cases there : t.thread n with
  | none => rw [h.thread_none there]
  | some x => rw [h.moved n x there]; rfl

section
variable {s u : State} {a : Issue} {op : Nat} {f : BitVec 56} {t : Troupe} {i : Iss} (h : Issues s u a op f t i)
include h

/-- Values of some lanes written to a predicate. -/
theorem completes_of_preds {c : Instr} {eff : Iss → State → Eff} {r : Nat} {g : Nat → Bool} {l : List Nat}
    {P : State → Prop} (exec_ : exec c s = coreOp a op f eff s) (done : eff i u = .done (writePreds r g l i.t) u)
    (lanes : ∀ n ∈ l, n < 32) (holds : ∀ y : Troupe, y.sregs = t.sregs → y.vregs = t.vregs →
      y.threads.map (·.pc) = i.t.threads.map (·.pc) → (r < 7 → ∀ n ∈ l, y.p r n = g n) →
      (∀ q n, (q ≠ r ∨ n ∉ l) → y.p q n = t.p q n) → P (putTroupe y u)) : Completes c s P := by
  have stepped := Issues.stepped h
  have only := onlyThreads_onLanes l (fun n x => x.setP r (g n)) i.t
  have marks := map_threads_onLanes l (fun n x => x.setP r (g n)) i.t Thread.marks fun _ _ => rfl
  have pcs := map_threads_onLanes l (fun n x => x.setP r (g n)) i.t (·.pc) fun _ _ => rfl
  rw [← writePreds_eq] at only marks pcs
  refine completes_of_done h exec_ done (only.place.trans stepped.place) (Issues.found h)
    ((stepped.goesOn (Issues.goesOn h)).of_marks marks only.due)
    (holds _ (only.sregs.trans stepped.sregs) (only.vregs.trans stepped.vregs) pcs (fun hr n hn => ?_) fun q n other => ?_)
  · exact p_writePreds_same hr g (fun n hn => stepped.length ▸ Issues.length h ▸ lanes n hn) hn
  · rw [p_writePreds_other r g l i.t (fun inside => other.elim (· inside.1) (· inside.2)), stepped.p]

/-! ### Scalar results (R135) -/

theorem completes_of_scalars {c : Instr} {eff : Iss → State → Eff} {y z : Troupe} {v : State} {P : State → Prop}
    (exec_ : exec c s = coreOp a op f eff s) (done : eff i u = .done y v) (found : findTroupe v t.at_ = some z)
    (only : OnlyScalars i.t y) (holds : Moved t i y → y.vregs = t.vregs → P (putTroupe y v)) : Completes c s P :=
  completes_of_threads h exec_ done found (congrArg (·.threads) only) (congrArg (·.at_) only) (congrArg (·.convergeDue) only)
    fun moved => holds moved ((congrArg (·.vregs) only).trans (Issues.stepped h).vregs)

end

/-! ### The opcodes -/

section
variable {s u : State} {a : Issue} {f : BitVec 56} {t : Troupe} {i : Iss}

theorem Issues.opB {op : Nat} (h : Issues s u a op f t i) : opB i.t i.w = opB t i.w := by
  rw [Machine.opB, Machine.opB, (Issues.stepped h).s]

theorem completes_vcmp (h : Issues s u a 0x0B f t i) :
    Completes (.vcmp a f) s (fun o => ∃ y, o = putTroupe y u ∧ y.sregs = t.sregs ∧ y.vregs = t.vregs ∧
      y.threads.map (·.pc) = i.t.threads.map (·.pc) ∧
      (∀ n ∈ i.act, fPD i.w ≠ 7 → y.p (fPD i.w) n = condL (fType i.w) (fMod i.w) (t.v (fA i.w) n) (t.v (fVB i.w) n)) ∧
      (∀ q n, (q ≠ fPD i.w ∨ n ∉ i.act) → y.p q n = t.p q n) ∧ (∀ n, y.p 7 n = true)) := by
  refine completes_of_preds h rfl rfl (Issues.lanes h) fun y sregs vregs pcs written others =>
    ⟨y, rfl, sregs, vregs, pcs, fun n hn low => ?_, others, fun _ => rfl⟩
  have eight : fPD i.w < 8 := Nat.mod_lt _ (by decide)
  rw [written (by omega) n hn, Iss.va, Iss.vb, (Issues.stepped h).v, (Issues.stepped h).v]

theorem completes_vcmps {imm : Bool} (h : Issues s u a (vsOp 0x26 imm) f t i) :
    Completes (.vcmps a imm f) s (fun o => ∃ y, o = putTroupe y u ∧ y.sregs = t.sregs ∧ y.vregs = t.vregs ∧
      y.threads.map (·.pc) = i.t.threads.map (·.pc) ∧
      (∀ n ∈ i.act, fD i.w ≠ 7 → y.p (fD i.w) n = condL (fTypeS i.w) (fModS i.w) (t.v (fA i.w) n) (opB t i.w)) ∧
      (∀ q n, (q ≠ fD i.w ∨ n ∉ i.act) → y.p q n = t.p q n)) := by
  refine completes_of_preds h rfl rfl (Issues.lanes h) fun y sregs vregs pcs written others =>
    ⟨y, rfl, sregs, vregs, pcs, fun n hn low => ?_, others⟩
  have eight : fD i.w < 8 := (Issues.word h) ▸ fD_lt_of_legal_cmp imm (.inl rfl) (Issues.legal h)
  rw [written (by omega) n hn, Iss.va, (Issues.stepped h).v, Issues.opB h]

theorem completes_scmp {imm : Bool} (h : Issues s u a (vsOp 0x2E imm) f t i) (some_ : i.act ≠ []) :
    Completes (.scmp a imm f) s (fun o => ∃ y, o = putTroupe y u ∧ y.sregs = t.sregs ∧ y.vregs = t.vregs ∧
      y.threads.map (·.pc) = i.t.threads.map (·.pc) ∧
      (∀ n, n < 32 → fD i.w ≠ 7 →
        y.p (fD i.w) n = condE (fTypeS i.w) (fModS i.w) (t.s (fA i.w)).toNat (opB t i.w).toNat) ∧
      (∀ q n, q ≠ fD i.w → y.p q n = t.p q n)) := by
  refine completes_of_preds h rfl (onceEff_of_act some_ u) (fun _ => List.mem_range.1)
    fun y sregs vregs pcs written others =>
    ⟨y, rfl, sregs, vregs, pcs, fun n hn low => ?_, fun q n other => others q n (.inl other)⟩
  have eight : fD i.w < 8 := (Issues.word h) ▸ fD_lt_of_legal_cmp imm (.inr rfl) (Issues.legal h)
  rw [written (by omega) n (List.mem_range.2 hn), Iss.sa, (Issues.stepped h).s, Issues.opB h]

theorem completes_scalarEff {op : Nat} {c : Instr} {g : Iss → Lane} (h : Issues s u a op f t i)
    (exec_ : exec c s = coreOp a op f (scalarEff g) s) :
    Completes c s (fun o => ∃ y, o = putTroupe y u ∧ Moved t i y ∧ y.vregs = t.vregs ∧
      (i.act ≠ [] → y.s (fD i.w) = g i) ∧ (∀ q, (q ≠ fD i.w ∨ i.act = []) → y.s q = t.s q)) := by
  have stepped := Issues.stepped h
  by_cases none_ : i.act = []
  · exact completes_of_scalars h exec_ (onceEff_of_none none_ u) (Issues.found h) rfl fun moved vregs =>
      ⟨_, rfl, moved, vregs, fun some_ => absurd none_ some_, fun q _ => stepped.s q⟩
  · refine completes_of_scalars h exec_ (onceEff_of_act none_ u) (Issues.found h) rfl fun moved vregs =>
      ⟨_, rfl, moved, vregs, fun _ => ?_, fun q other => ?_⟩
    · exact (s_setS ..).trans (if_pos rfl)
    · exact (s_setS ..).trans ((if_neg (other.resolve_right none_)).trans (stepped.s q))

theorem exec_of_mem_scalarOps {imm : Bool} {c : Instr} {op : Nat} {g : Iss → Lane}
    (mem : (c, op, g) ∈ [(Instr.sadd a imm f, vsOp 0x28 imm, saddVal), (Instr.ssub a imm f, vsOp 0x29 imm, ssubVal),
      (Instr.smul a imm f, vsOp 0x2A imm, smulVal), (Instr.slog a imm f, vsOp 0x2B imm, slogVal),
      (Instr.ssh a imm f, vsOp 0x2C imm, sshVal), (Instr.smov a imm f, vsOp 0x2D imm, smovVal),
      (Instr.v2s a f, 0xA2, v2sVal), (Instr.vbal a f, 0xA3, vbalVal)]) (s : State) :
    exec c s = coreOp a op f (scalarEff g) s := by
  simp only [List.mem_cons, List.not_mem_nil, or_false, Prod.mk.injEq] at mem
  rcases mem with ⟨rfl, rfl, rfl⟩ | ⟨rfl, rfl, rfl⟩ | ⟨rfl, rfl, rfl⟩ | ⟨rfl, rfl, rfl⟩ | ⟨rfl, rfl, rfl⟩ |
    ⟨rfl, rfl, rfl⟩ | ⟨rfl, rfl, rfl⟩ | ⟨rfl, rfl, rfl⟩ <;> rfl

/-- A pair and a signed register add modulo 2^64. -/
theorem ofSigned_pair_add (p : Nat) (x : Lane) :
    ofSigned 64 ((p : Int) + x.toInt) = (p + (x.signExtend 64).toNat) % 2 ^ 64 := by
  refine (mod_eq_ofSigned ?_).symm
  have wide : ((x.signExtend 64).toNat : Int) ≡ x.toInt [ZMOD 2 ^ 64] := by
    rw [← BitVec.toInt_signExtend_of_le (v := 64) (by decide), BitVec.toInt_eq_toNat_bmod]
    exact (Int.bmod_emod ..).symm
  push_cast
  exact wide.add_left _

theorem completes_sadd64 {imm : Bool} (h : Issues s u a (vsOp 0x2F imm) f t i) (some_ : i.act ≠ []) :
    Completes (.sadd64 a imm f) s (fun o => ∃ y, o = putTroupe y u ∧ Moved t i y ∧ y.vregs = t.vregs ∧
      y.pair (fD i.w / 2) = (t.pair (fA i.w / 2) + ((opB t i.w).signExtend 64).toNat) % 2 ^ 64 ∧
      (∀ q, q / 2 ≠ fD i.w / 2 → y.s q = t.s q)) := by
  have stepped := Issues.stepped h
  refine completes_of_scalars h rfl (onceEff_of_act some_ u) (Issues.found h) rfl fun moved vregs =>
    ⟨_, rfl, moved, vregs, ?_, fun q other => ?_⟩
  · refine (pair_setPair ..).trans ?_
    rw [ofSigned_pair_add, Nat.mod_mod, Issues.opB h, Troupe.pair, Troupe.pair, stepped.s, stepped.s]
  · refine (s_setPair ..).trans ?_
    rw [if_neg (by omega), if_neg (by omega), stepped.s]

theorem latchRtime_eq (i : Iss) (s : State) (t : Troupe) : latchRtime i s t =
    { t with rtimeHi := if fSpec i.w = 0x0E then BitVec.ofNat 32 (s.rtime t.die / 2 ^ 32) else t.rtimeHi } := by
  rw [latchRtime]
  split <;> rfl

theorem completes_sread (h : Issues s u a 0xA0 f t i) (some_ : i.act ≠ []) :
    Completes (.sread a f) s (fun o => ∃ y, o = putTroupe y u ∧ Moved t i y ∧ y.vregs = t.vregs ∧
      y.s (fD i.w) = BitVec.ofNat 32 (specVal i u) ∧ (∀ q, q ≠ fD i.w → y.s q = t.s q) ∧
      (fSpec i.w = 0x0E → y.rtimeHi = BitVec.ofNat 32 (u.rtime t.die / 2 ^ 32)) ∧
      (fSpec i.w ≠ 0x0E → y.rtimeHi = t.rtimeHi)) := by
  have stepped := Issues.stepped h
  refine completes_of_threads h rfl ((onceEff_of_act some_ u).trans (congrArg (Eff.done · u) (latchRtime_eq ..)))
    (Issues.found h) rfl rfl rfl fun moved => ⟨_, rfl, moved, stepped.vregs, ?_, fun q other => ?_, fun low => ?_, fun low => ?_⟩
  · exact (s_setS ..).trans (if_pos rfl)
  · exact (s_setS ..).trans ((if_neg other).trans (stepped.s q))
  · exact (if_pos low).trans (congrArg (fun d => BitVec.ofNat 32 (u.rtime d / 2 ^ 32)) stepped.die)
  · exact (if_neg low).trans (congrArg (·.rtimeHi) stepped.rest)

/-- One register of each executing lane, and the latch. -/
theorem exists_vreadEff_eq (i : Iss) (s : State) : ∃ hi, vreadEff i s = .done
    { writeLanes (fD i.w) (fun n => BitVec.ofNat 32 (if fSpec i.w = 0 then n else specVal i s)) i.act i.t with
      rtimeHi := hi } s := by
  by_cases lane : fSpec i.w = 0
  · simp only [vreadEff, if_pos lane]
    exact ⟨_, rfl⟩
  · simp only [vreadEff, if_neg lane]
    split
    · exact ⟨_, rfl⟩
    · exact ⟨_, congrArg (Eff.done · s) (latchRtime_eq ..)⟩

theorem completes_vread (h : Issues s u a 0xA1 f t i) :
    Completes (.vread a f) s (fun o => ∃ y, o = putTroupe y u ∧ Moved t i y ∧ y.sregs = t.sregs ∧
      (∀ n ∈ i.act, y.v (fD i.w) n = BitVec.ofNat 32 (if fSpec i.w = 0 then n else specVal i u)) ∧
      VecBut t i.act (fD i.w) 1 y) := by
  have lanes := Issues.lanes h
  obtain ⟨hi, done⟩ := exists_vreadEff_eq i u
  have only := onlyVecs_writeLanes (fD i.w)
    (fun n => BitVec.ofNat 32 (if fSpec i.w = 0 then n else specVal i u)) i.act (.refl i.t)
  refine completes_of_threads h rfl done (Issues.found h) only.threads only.place only.due
    fun moved => ⟨_, rfl, moved, only.sregs.trans (Issues.stepped h).sregs, fun n hn => ?_, vecBut_writeLanes h lanes _ _⟩
  exact (v_writeLanes lanes (lanes n hn) ..).trans (if_pos ⟨rfl, hn⟩)

theorem specVal_cycle (s : State) {i : Iss} (cycle : fSpec i.w = 0x10) : specVal i s =
    SMap.get 0 s.core.cclk ((i.t.die * 320 + i.t.cluster) * 16 + i.t.core) - i.t.placedAt := by
  rw [specVal, cycle] <;> rfl

end

/-- Settles O43: an issue writes what it names and leaves the other lanes, registers and predicates. That a packed
comparison is one bit (log 21), that CYCLE counts the core's CCLK (log 24) and that RTIME_LO latches the high word
(log 11) are the model's choices. -/
theorem predicatesAndScalars : Obligations.PredicatesAndScalars :=
  ⟨fun _ _ _ _ _ _ => completes_vcmp, fun _ _ _ _ _ _ _ => completes_vcmps, fun _ _ _ _ _ _ _ => completes_scmp,
    fun s _ _ _ _ _ _ _ _ _ mem h => completes_scalarEff h (exec_of_mem_scalarOps mem s),
    fun _ _ _ _ _ _ _ => completes_sadd64, fun _ _ _ _ _ _ => completes_sread, fun _ _ _ _ _ _ => completes_vread,
    fun s _ => specVal_cycle s⟩

end Sys2Proof.Machine
end

section
/-! PROOFS. The fault of a troupe (R161, R189–R191): its context is killed, and the troupe is gone. -/

namespace Sys2Proof.Machine

/-! ### No work begins -/

/-- The queue and the context of a launch. -/
def Launch.owner (l : Launch) : Nat × Nat × Nat × Nat := (queDie l.queue, l.part, l.inst, l.ctx)

/-- Every troupe of `t` is one of `s`, every launch an owner's of `s`, and the failed clusters are as they were. -/
structure WorkFrom (s t : State) : Prop where
  troupes : t.core.troupes ⊆ s.core.troupes
  launches : ∀ l ∈ t.core.launches, ∃ l₀ ∈ s.core.launches, l₀.owner = l.owner
  failed : t.core.failed = s.core.failed

namespace WorkFrom
variable {s₀ s t : State}

theorem refl (s : State) : WorkFrom s s := ⟨List.Subset.refl _, fun l hl => ⟨l, hl, rfl⟩, rfl⟩

theorem trans (h : WorkFrom s₀ s) (k : WorkFrom s t) : WorkFrom s₀ t := by
  refine ⟨List.Subset.trans k.troupes h.troupes, fun l hl => ?_, k.failed.trans h.failed⟩
  obtain ⟨l₁, h₁, same₁⟩ := k.launches l hl
  obtain ⟨l₀, h₀, same₀⟩ := h.launches l₁ h₁
  exact ⟨l₀, h₀, same₀.trans same₁⟩

/-- Launches that leave, and nothing else of the work. -/
theorem fewer (h : WorkFrom s₀ s) (troupes : t.core.troupes = s.core.troupes) (launches : t.core.launches ⊆ s.core.launches)
    (failed : t.core.failed = s.core.failed) : WorkFrom s₀ t :=
  h.trans ⟨troupes ▸ List.Subset.refl _, fun l hl => ⟨l, launches hl, rfl⟩, failed⟩

theorem same (h : WorkFrom s₀ s) (troupes : t.core.troupes = s.core.troupes) (launches : t.core.launches = s.core.launches)
    (failed : t.core.failed = s.core.failed) : WorkFrom s₀ t :=
  h.fewer troupes (launches ▸ List.Subset.refl _) failed

theorem each {α : Type} {f : State → α → State} {l : List α} (hf : ∀ s x, WorkFrom s₀ s → WorkFrom s₀ (f s x))
    (h : WorkFrom s₀ s) : WorkFrom s₀ (each l f s) := by
  induction l generalizing s with
  | nil => exact h
  | cons x l ih => exact ih (hf s x h)

end WorkFrom

/-- The frame of an effect that leaves the clusters. -/
def besideCore : Frame := { besideWork with que := True }

theorem WorkFrom.keeps {s₀ s t : State} (h : WorkFrom s₀ s) (k : Keeps besideCore s t) : WorkFrom s₀ t :=
  have core := k.core id
  h.same (congrArg Cores.troupes core) (congrArg Cores.launches core) (congrArg Cores.failed core)

variable {s₀ s : State}

theorem emit_workFrom (d unit typ cls : Nat) (sealed_ : Bool) (payload : List PF) (h : WorkFrom s₀ s) :
    WorkFrom s₀ (emit d unit typ cls sealed_ payload s) := h.same rfl rfl rfl

theorem endLaunch_workFrom (l : Launch) (h : WorkFrom s₀ s) : WorkFrom s₀ (endLaunch l s) :=
  h.keeps (endLaunch_keeps trivial trivial trivial trivial trivial trivial trivial l (.refl _ s))

theorem killMovers_workFrom (f : Mover → Bool) (h : WorkFrom s₀ s) : WorkFrom s₀ (killMovers f s) :=
  h.keeps (killMovers_keeps trivial trivial trivial trivial trivial trivial trivial f (.refl _ s))

theorem closeKills_workFrom (f : OpenKill → Bool) (h : WorkFrom s₀ s) : WorkFrom s₀ (closeKills f s) := by
  refine .each (fun s k h => ?_) h
  unfold closeKill killRecord
  exact emit_workFrom _ _ _ _ _ _ (WorkFrom.each (fun _ l => endLaunch_workFrom l) (h.same rfl rfl rfl))

/-! ### What KILL drops -/

theorem invalL1s_workFrom (l : List Nat) (h : WorkFrom s₀ s) :
    WorkFrom s₀ (each l (fun s c => invalL1 (c / 320) (c % 320) s) s) :=
  .each (fun _ _ h => h.same rfl rfl rfl) h

theorem owner_leaveDies (pl : Launch → Bool) (on : Nat → Bool) (l : Launch) : (leaveDies pl on l).owner = l.owner := by
  unfold leaveDies
  split <;> rfl

theorem dropTroupes_workFrom (on : Nat → Bool) (pt : Troupe → Bool) (pl : Launch → Bool) (h : WorkFrom s₀ s) :
    WorkFrom s₀ (dropTroupes on pt pl s) := by
  unfold dropTroupes
  extract_lets pt' gone ls clusters invalidated
  have before : WorkFrom s₀ invalidated := invalL1s_workFrom clusters h
  refine before.trans ⟨List.filter_subset_self _, fun l hl => ?_, rfl⟩
  obtain ⟨l₀, h₀, rfl⟩ := List.mem_map.1 hl
  exact ⟨l₀, h₀, (owner_leaveDies pl on l₀).symm⟩

/-- No troupe that it names is left. -/
theorem not_of_mem_dropTroupes {on : Nat → Bool} {pt : Troupe → Bool} {pl : Launch → Bool} {t : Troupe}
    (h : t ∈ (dropTroupes on pt pl s).core.troupes) : (on t.die && pt t) = false := by
  have kept := (List.mem_filter.1 h).2
  rwa [Bool.not_eq_true'] at kept

theorem partFault_workFrom (p cause d ctype cseq : Nat) (h : WorkFrom s₀ s) :
    WorkFrom s₀ (partFault p cause d ctype cseq s) := by
  have faulted : WorkFrom s₀ (setFaulted p s) := h.keeps (setFaulted_keeps trivial trivial p (.refl _ s))
  have stopped : WorkFrom s₀ (stopPartition p (setFaulted p s)) := by
    have dropped := dropTroupes_workFrom (fun _ => true) (fun t => Nat.beq t.part p) (fun l => Nat.beq l.part p)
      (closeKills_workFrom (fun k => Nat.beq k.part p) faulted)
    exact dropped.fewer rfl (List.filter_subset_self _) rfl
  unfold partFault
  split
  · exact h
  · exact (emit_workFrom _ _ _ _ _ _ stopped).keeps
      (faultEntries_keeps trivial trivial trivial trivial trivial trivial p _ (.refl _ _))

theorem redBreakWhere_workFrom (f : Accum → Bool) (cause : Nat) (h : WorkFrom s₀ s) :
    WorkFrom s₀ (redBreakWhere f cause s) := by
  refine .each (fun s a h => ?_) h
  have poisoned : WorkFrom s₀
      (poisonSector (a.pkt.key.sector * 32) { s with net := { s.net with accum := s.net.accum.erase a } }) :=
    (h.same (t := { s with net := { s.net with accum := s.net.accum.erase a } }) rfl rfl rfl).keeps
      (poisonSector_keeps trivial trivial _ (.refl _ _))
  unfold redBreak redBroken faultWith
  exact partFault_workFrom _ _ _ _ _ (emit_workFrom _ _ _ _ _ _ (poisoned.same rfl rfl rfl))

/-- KILL on a die leaves no troupe of the context there. -/
theorem killOnDie_workFrom (d p i c : Nat) (s : State) : WorkFrom
    (dropTroupes (Nat.beq d) (fun t => troupeTag t p i c) (fun l => launchTag l p i c) s) (killOnDie d p i c s) := by
  unfold killOnDie
  refine killMovers_workFrom _ ?_
  dsimp only
  split
  · exact (WorkFrom.refl _).fewer rfl (List.filter_subset_self _) rfl
  · exact .each (fun _ l => endLaunch_workFrom l) ((WorkFrom.refl _).fewer rfl (List.filter_subset_self _) rfl)

theorem killReaches_workFrom (d p i c : Nat) (s : State) : WorkFrom
    (dropTroupes (Nat.beq d) (fun t => troupeTag t p i c) (fun l => launchTag l p i c) s) (killReaches d p i c s) :=
  redBreakWhere_workFrom _ _ (closeKills_workFrom _ (killOnDie_workFrom d p i c s))

theorem ctxKilled_killReaches (d p i c : Nat) (s : State) : ctxKilled (killReaches d p i c s) p i c = true := by
  obtain ⟨u, -, killed, stopped⟩ := exists_killOnDie d p i c s
  have after : StaysStopped (killOnDie d p i c s) (killReaches d p i c s) :=
    redBreakWhere_staysStopped _ _ (closeKills_staysStopped _ (.refl _))
  exact after.ctxKilled_eq_true (stopped ▸ ctxKilled_killMovers _ killed)

/-- A troupe that faults is gone, and its context is killed (R161, R189). -/
theorem troupeFault_stops (t : Troupe) (code lane addr pc : Nat) (works : s.prt.faulted.contains t.part = false) :
    ctxKilled (troupeFault t code lane addr pc s) t.part t.inst t.ctx = true ∧
      t ∉ (troupeFault t code lane addr pc s).core.troupes := by
  unfold troupeFault contextFault
  dsimp only
  rw [works, if_neg Bool.false_ne_true]
  refine ⟨ctxKilled_killReaches .., fun still => ?_⟩
  have kept := not_of_mem_dropTroupes ((killReaches_workFrom _ _ _ _ _).troupes still)
  simp [troupeTag] at kept

/-! ### An issue that faults -/

theorem completes_of_trap {s u v : State} {a : Issue} {op : Nat} {f : BitVec 56} {t : Troupe} {i : Iss}
    (h : Issues s u a op f t i) {c : Instr} {eff : Iss → State → Eff} {code lane addr : Nat}
    (exec_ : exec c s = coreOp a op f eff s) (trap : eff i u = .trap code lane addr v)
    (works : v.prt.faulted.contains t.part = false) :
    Completes c s (fun o => ctxKilled o t.part t.inst t.ctx = true ∧ t ∉ o.core.troupes) := by
  refine ⟨_, exec_.trans (coreOp_of_issues h eff), ?_⟩
  rw [trap]
  exact troupeFault_stops t code lane addr i.pc works

end Sys2Proof.Machine
end

section
/-! PROOFS. Branches, NOP, TRAP and illegal words (R133, R136, R161). -/

namespace Sys2Proof.Machine

/-! ### The executing threads changed -/

section
variable {s u : State} {a : Issue} {op : Nat} {f : BitVec 56} {t : Troupe} {i : Iss} (h : Issues s u a op f t i)
include h

/-- A thread as the issue's PCs leave it, and as a change of the executing threads does. -/
theorem thread_of_lanes {z : Troupe} (only : OnlyVecs i.t z) (g : Nat → Thread → Thread) {n : Nat} {x : Thread}
    (hx : t.thread n = some x) : (onLanes i.act g z).thread n =
      some (if n ∈ i.act then g n { x with pc := BitVec.ofNat 64 (i.pc + 8) }
        else { x with pc := if n ∈ i.cohort then BitVec.ofNat 64 (i.pc + 8) else x.pc }) := by
  have there : z.thread n = some { x with pc := if n ∈ i.cohort then BitVec.ofNat 64 (i.pc + 8) else x.pc } :=
    (congrArg (·[n]?) only.threads).trans ((Issues.stepped h).moved n x hx)
  rw [thread_onLanes (Issues.act_nodup h), there, Option.map_some]
  split
  next inside => rw [if_pos (Issues.act_subset h n inside).1]
  next => rfl

/-- A change of the executing threads that leaves their marks. -/
theorem completes_of_flow {c : Instr} {eff : Iss → State → Eff} {z : Troupe} {g : Nat → Thread → Thread}
    {P : State → Prop} (exec_ : exec c s = coreOp a op f eff s) (done : eff i u = .done (onLanes i.act g z) u)
    (only : OnlyVecs i.t z) (marks : ∀ n x, (g n x).marks = x.marks)
    (holds : ∀ y : Troupe, y.vregs = z.vregs → y.sregs = t.sregs → (∀ n x, t.thread n = some x → y.thread n =
      some (if n ∈ i.act then g n { x with pc := BitVec.ofNat 64 (i.pc + 8) }
        else { x with pc := if n ∈ i.cohort then BitVec.ofNat 64 (i.pc + 8) else x.pc })) → P (putTroupe y u)) :
    Completes c s P := by
  have stepped := Issues.stepped h
  have threads := onlyThreads_onLanes i.act g z
  refine completes_of_done h exec_ done (threads.place.trans (only.place.trans stepped.place)) (Issues.found h) ?_
    (holds _ threads.vregs (threads.sregs.trans (only.sregs.trans stepped.sregs)) fun n x => thread_of_lanes h only g)
  refine (stepped.goesOn (Issues.goesOn h)).of_marks ?_ (threads.due.trans only.due)
  exact (map_threads_onLanes i.act g z Thread.marks marks).trans (congrArg (List.map Thread.marks) only.threads)

theorem Issues.thread_of_act {n : Nat} (hn : n ∈ i.act) : ∃ x, t.thread n = some x :=
  Troupe.exists_thread ((Issues.length h).symm ▸ Issues.lanes h n hn)

/-- The pair that a lane's register group names, before and after the issue. -/
theorem Issues.readGroup (n r k : Nat) : readGroup i.t n r k = readGroup t n r k :=
  readGroup_congr fun q _ => (Issues.stepped h).v q n

end

variable {s u : State} {a : Issue} {f : BitVec 56} {t : Troupe} {i : Iss}

theorem completes_bra (h : Issues s u a 0x60 f t i) :
    Completes (.bra a f) s (fun o => ∃ y, o = putTroupe y u ∧ y.vregs = t.vregs ∧ y.sregs = t.sregs ∧
      ∀ n x, t.thread n = some x →
        (n ∈ i.act → y.thread n =
          some { x with pc := BitVec.ofNat 64 i.pc + 8 * (BitVec.ofNat 32 (fImm32 i.w)).signExtend 64 }) ∧
        (n ∉ i.act → n ∈ i.cohort → y.thread n = some { x with pc := BitVec.ofNat 64 (i.pc + 8) }) ∧
        (n ∉ i.cohort → y.thread n = some x)) := by
  refine completes_of_flow h rfl rfl (.refl _) (fun _ _ => rfl) fun y vregs sregs threads =>
    ⟨y, rfl, vregs.trans (Issues.stepped h).vregs, sregs, fun n x hx => ⟨fun hn => ?_, fun out inside => ?_, fun out => ?_⟩⟩
  · rw [threads n x hx, if_pos hn]
    rfl
  · rw [threads n x hx, if_neg out, if_pos inside]
  · rw [threads n x hx, if_neg fun inside => out (Issues.act_subset h n inside).1, if_neg out]

theorem completes_call (h : Issues s u a 0x61 f t i) :
    Completes (.call a f) s (fun o => ∃ y, o = putTroupe y u ∧ y.sregs = t.sregs ∧
      (∀ n ∈ i.act, readGroup y n (fD i.w) 2 = (i.pc + 8) % 2 ^ 64 ∧ ∃ x, y.thread n = some x ∧ x.pc = branchTarget i) ∧
      VecBut t i.act (fD i.w) 2 y) := by
  have lanes := Issues.lanes h
  refine completes_of_flow (z := writeGroups (fD i.w) 2 (fun _ => (i.pc + 8) % 2 ^ 64) i.act i.t) h rfl rfl
    (onlyVecs_writeGroups _ _ _ _ (.refl _)) (fun _ _ => rfl) fun y vregs sregs threads =>
    ⟨y, rfl, sregs, fun n hn => ⟨?_, ?_⟩, fun q n hn outside => ?_⟩
  · have same : readGroup y n (fD i.w) 2 = readGroup (writeGroups (fD i.w) 2 (fun _ => (i.pc + 8) % 2 ^ 64) i.act i.t) n
        (fD i.w) 2 := readGroup_congr fun q _ => congrArg (SMap.get 0 · (q * 32 + n)) vregs
    rw [same, readGroup_writeGroups lanes hn, Nat.mod_mod]
  · obtain ⟨x, hx⟩ := Issues.thread_of_act h hn
    exact ⟨_, threads n x hx, by rw [if_pos hn]⟩
  · exact (congrArg (SMap.get 0 · (q * 32 + n)) vregs).trans (vecBut_writeGroups h lanes _ _ _ q n hn outside)

theorem completes_jmpr (h : Issues s u a 0x62 f t i) (aligned : ∀ n ∈ i.act, readGroup t n (fD i.w) 2 % 8 = 0) :
    Completes (.jmpr a f) s (fun o => ∃ y, o = putTroupe y u ∧ y.vregs = t.vregs ∧ y.sregs = t.sregs ∧
      ∀ n ∈ i.act, ∃ x, y.thread n = some x ∧ x.pc = BitVec.ofNat 64 (readGroup t n (fD i.w) 2)) := by
  have none_ : i.act.find? (fun n => !(Nat.beq (readGroup i.t n (fD i.w) 2 % 8) 0)) = none := by
    rw [List.find?_eq_none]
    intro n hn
    rw [Issues.readGroup h, aligned n hn]
    simp
  refine completes_of_flow (g := fun n x => { x with pc := BitVec.ofNat 64 (readGroup i.t n (fD i.w) 2) })
    h rfl (by rw [jmprEff, none_]) (.refl _) (fun _ _ => rfl)
    fun y vregs sregs threads => ⟨y, rfl, vregs.trans (Issues.stepped h).vregs, sregs, fun n hn => ?_⟩
  obtain ⟨x, hx⟩ := Issues.thread_of_act h hn
  exact ⟨_, threads n x hx, by rw [if_pos hn, Issues.readGroup h]⟩

theorem completes_jmpr_misaligned (h : Issues s u a 0x62 f t i)
    (off : ∃ n ∈ i.act, readGroup t n (fD i.w) 2 % 8 ≠ 0) (works : u.prt.faulted.contains t.part = false) :
    Completes (.jmpr a f) s (fun o => ctxKilled o t.part t.inst t.ctx = true ∧ t ∉ o.core.troupes) := by
  obtain ⟨n, hn, off⟩ := off
  have some_ : (i.act.find? (fun n => !(Nat.beq (readGroup i.t n (fD i.w) 2 % 8) 0))).isSome = true := by
    rw [List.find?_isSome]
    exact ⟨n, hn, by
      rw [Issues.readGroup h, Bool.not_eq_true', ← Bool.not_eq_true, Nat.beq_eq]
      exact off⟩
  obtain ⟨m, found⟩ := Option.isSome_iff_exists.1 some_
  exact completes_of_trap h rfl (by rw [jmprEff, found]) works

theorem completes_nop (h : Issues s u a 0x67 f t i) :
    Completes (.nop a f) s (fun o => ∃ y, o = putTroupe y u ∧ Moved t i y ∧ y.vregs = t.vregs ∧ y.sregs = t.sregs) :=
  have stepped := Issues.stepped h
  completes_of_threads h rfl rfl (Issues.found h) rfl rfl rfl
    fun moved => ⟨_, rfl, moved, stepped.vregs, stepped.sregs⟩

theorem completes_trap (h : Issues s u a 0x68 f t i) (some_ : i.act ≠ []) (works : u.prt.faulted.contains t.part = false) :
    Completes (.trap a f) s (fun o => ctxKilled o t.part t.inst t.ctx = true ∧ t ∉ o.core.troupes) := by
  obtain ⟨n, l, act⟩ := List.exists_cons_of_ne_nil some_
  exact completes_of_trap h rfl (by rw [trapEff, act]) works

theorem completes_illegalInstruction {w : Word} {pc : Nat} (hd : a.die < dieCount s.orderCode)
    (runs : issueHeld (tickCore a s) a = false) (chosen : selectTroupe (tickCore a s) a = some t)
    (pcs : t.cohortPc = some pc) (fetched : fetch t pc (tickCore a s) = some (none, u))
    (illegal : legal t.rows w.toNat = false) (works : u.prt.faulted.contains t.part = false) :
    Completes (.illegalInstruction a w) s (fun o => ctxKilled o t.part t.inst t.ctx = true ∧ t ∉ o.core.troupes) := by
  have result : exec (.illegalInstruction a w) s = .next (troupeFault t 0x01 (t.cohort.headD 0) 0 pc u) := by
    rw [show exec (.illegalInstruction a w) s = execIllegalInstruction a w s from rfl, execIllegalInstruction,
      onDie_of_lt hd]
    dsimp only
    rw [runs, if_neg Bool.false_ne_true, chosen]
    dsimp only
    rw [pcs, Option.getD_some, fetched]
    dsimp only
    rw [illegal, if_neg Bool.false_ne_true]
  exact ⟨_, result, troupeFault_stops t 0x01 _ 0 pc works⟩

/-- Settles O45: a branch changes the executing threads' PCs and no mark that decides whether the troupe goes on; a
fault is the kill of its context. -/
theorem branchesAndTraps : Obligations.BranchesAndTraps :=
  ⟨fun _ _ _ _ _ _ => completes_bra, fun _ _ _ _ _ _ => completes_call, fun _ _ _ _ _ _ => completes_jmpr,
    fun _ _ _ _ _ _ => completes_jmpr_misaligned, fun _ _ _ _ _ _ => completes_nop,
    fun _ _ _ _ _ _ => completes_trap, fun _ _ _ _ _ _ => completes_illegalInstruction⟩

end Sys2Proof.Machine
end

section
/-! PROOFS. Parking, yielding, sleeping and ending (R182, R183, R184, R201). -/

namespace Sys2Proof.Machine

/-! ### Another thread goes on -/

/-- Marks of the lanes of `l`, none of which has yielded, may change where a fresh thread is outside `l`. -/
theorem GoesOn.of_others {t y : Troupe} {l : List Nat} (h : GoesOn t)
    (same : ∀ n x, n ∉ l → t.thread n = some x → ∃ z, y.thread n = some z ∧ z.marks = x.marks)
    (other : ∃ n x, n ∉ l ∧ t.thread n = some x ∧ x.live = true ∧ x.yielded = false)
    (quiet : ∀ n ∈ l, ∀ x, t.thread n = some x → x.yielded = false) (due : y.convergeDue = t.convergeDue) : GoesOn y := by
  obtain ⟨n, x, out, hx, live, yielded⟩ := other
  obtain ⟨z, hz, marks⟩ := same n x out hx
  obtain ⟨exited, parked, yields⟩ : z.exited = x.exited ∧ z.parked = x.parked ∧ z.yielded = x.yielded := by
    simpa [Thread.marks] using marks
  refine ⟨List.any_eq_true.2 ⟨z, Troupe.mem_threads_of_thread hz, ?_⟩, fun due' => ?_⟩
  · rw [Thread.live] at live ⊢
    rw [exited, parked, yields, live, yielded]
    rfl
  · obtain ⟨w, member, yielded⟩ := List.any_eq_true.1 (h.due (due ▸ due'))
    obtain ⟨member, exited⟩ := List.mem_filter.1 member
    obtain ⟨m, hw⟩ := List.getElem?_of_mem member
    obtain ⟨z, hz, marks⟩ := same m w (fun inside => Bool.false_ne_true ((quiet m inside w hw).symm.trans yielded)) hw
    obtain ⟨exited', -, yielded'⟩ : z.exited = w.exited ∧ z.parked = w.parked ∧ z.yielded = w.yielded := by
      simpa [Thread.marks] using marks
    exact List.any_eq_true.2 ⟨z, List.mem_filter.2 ⟨Troupe.mem_threads_of_thread hz, exited' ▸ exited⟩, yielded' ▸ yielded⟩

section
variable {s u : State} {a : Issue} {op : Nat} {f : BitVec 56} {t : Troupe} {i : Iss} (h : Issues s u a op f t i)
include h

theorem Issues.cohort : i.cohort = t.cohort := by
  obtain ⟨-, -, -, -, -, -, -, -, -, -, made⟩ := h
  rw [made, mkIss_cohort]

/-- An executing thread is at the issue's PC, live, and has not yielded. -/
theorem Issues.of_act {n : Nat} (hn : n ∈ i.act) {x : Thread} (hx : t.thread n = some x) :
    x.live = true ∧ x.yielded = false := by
  obtain ⟨-, y, hy, active, -⟩ := (t.mem_cohort n).1 (Issues.cohort h ▸ (Issues.act_subset h n hn).1)
  obtain rfl : x = y := Option.some.inj (hx.symm.trans hy)
  rw [Troupe.active, (Issues.goesOn h).fresh, Bool.and_true, Bool.and_eq_true, Bool.not_eq_true'] at active
  exact active

/-- What a change of the executing threads leaves where another fresh thread goes on. -/
theorem completes_of_others {c : Instr} {eff : Iss → State → Eff} {g : Thread → Thread}
    (exec_ : exec c s = coreOp a op f eff s) (done : eff i u = .done (onLanes i.act (fun _ => g) i.t) u)
    (other : ∃ n x, n ∉ i.act ∧ t.thread n = some x ∧ x.live = true ∧ x.yielded = false) :
    Completes c s (fun o => ∃ y, o = putTroupe y u ∧ y.vregs = t.vregs ∧ y.sregs = t.sregs ∧
      ∀ n x, t.thread n = some x → y.thread n =
        some (if n ∈ i.act then g { x with pc := BitVec.ofNat 64 (i.pc + 8) }
          else { x with pc := if n ∈ i.cohort then BitVec.ofNat 64 (i.pc + 8) else x.pc })) := by
  have stepped := Issues.stepped h
  have threads := onlyThreads_onLanes i.act (fun _ => g) i.t
  have changed {n : Nat} {x : Thread} := thread_of_lanes h (.refl _) (fun _ => g) (n := n) (x := x)
  refine completes_of_done h exec_ done (threads.place.trans stepped.place) (Issues.found h) ?_
    ⟨_, rfl, threads.vregs.trans stepped.vregs, threads.sregs.trans stepped.sregs, fun _ _ => changed⟩
  refine (Issues.goesOn h).of_others (fun n x out hx => ⟨_, changed hx, ?_⟩) other
    (fun n hn x hx => (Issues.of_act h hn hx).2) (threads.due.trans (congrArg (·.convergeDue) stepped.rest))
  rw [if_neg out]
  rfl

end

/-! ### A troupe that has settled -/

theorem fresh_of_mem {t : Troupe} {x : Thread} (member : x ∈ t.threads) (live : x.live = true)
    (yielded : x.yielded = false) : t.fresh = true :=
  List.any_eq_true.2 ⟨x, member, by rw [live, yielded]; rfl⟩

/-- A wake leaves every thread that is not parked. -/
theorem fresh_wakeConverge {t : Troupe} (h : t.fresh = true) : (wakeConverge t).fresh = true := by
  obtain ⟨x, member, exited, parked, yielded⟩ := t.fresh_iff.1 h
  unfold wakeConverge
  split
  next y _ =>
    refine (Troupe.fresh_iff _).2 ⟨x, List.mem_map.2 ⟨x, member, ?_⟩, exited, parked, yielded⟩
    rw [parked]
    rfl
  next => exact h

theorem convergeDue_wakeConverge (t : Troupe) : (wakeConverge t).convergeDue = false := by
  unfold wakeConverge
  split <;> rfl

theorem goesOn_wakeConverge {t : Troupe} (h : t.fresh = true) : GoesOn (wakeConverge t) :=
  ⟨fresh_wakeConverge h, fun due => by rw [convergeDue_wakeConverge] at due; cases due⟩

theorem goesOn_settleDue {t : Troupe} (h : t.fresh = true) : GoesOn (settleDue t) := by
  unfold settleDue
  split
  next => exact goesOn_wakeConverge h
  next still =>
    refine ⟨h, fun due => ?_⟩
    by_contra none_
    exact still (by rw [due, Bool.eq_false_of_not_eq_true none_]; rfl)

theorem place_wakeConverge (t : Troupe) : (wakeConverge t).at_ = t.at_ := by
  unfold wakeConverge
  split <;> rfl

theorem place_settleDue (t : Troupe) : (settleDue t).at_ = t.at_ := by
  unfold settleDue
  split
  · exact place_wakeConverge t
  · rfl

theorem vregs_settleDue (t : Troupe) : (settleDue t).vregs = t.vregs := by
  unfold settleDue wakeConverge
  split
  · split <;> rfl
  · rfl

/-- A wake changes what parks a thread, and nothing else of it. -/
theorem map_threads_settleDue {α : Type} (t : Troupe) (part : Thread → α)
    (same : ∀ x : Thread, part { x with parked := none } = part x) :
    (settleDue t).threads.map part = t.threads.map part := by
  unfold settleDue wakeConverge
  split
  · split
    · rw [List.map_map]
      exact List.map_congr_left fun x _ => (apply_ite part _ _ _).trans (by rw [same, ite_self])
    · rfl
  · rfl

/-- A fresh troupe settles to what R200 makes of it. -/
theorem settle_of_fresh {s : State} {y z : Troupe} (found : findTroupe s y.at_ = some z) (fresh : y.fresh = true) :
    settle y.at_ (putTroupe y s) = putTroupe (settleDue y) s := by
  have place := place_settleDue y
  have on := goesOn_settleDue fresh
  have settled : settleConverge (settleDue (settleYield y)) = settleDue y := by
    rw [settleYield, if_pos fresh]
    have again := settled_of_goesOn on
    rwa [settleYield, if_pos on.fresh, settleDue, if_neg] at again
    rw [Bool.and_eq_true, Bool.not_eq_true']
    exact fun ⟨due, none_⟩ => Bool.false_ne_true (none_.symm.trans (on.due due))
  obtain ⟨x, member, free, -⟩ := mem_rest_of_fresh on.fresh
  rw [settle, findTroupe_putTroupe found]
  dsimp only
  rw [settled, barriersOf_of_mem member free]
  exact putTroupe_putTroupe place.symm s

/-! ### CONVERGE with every thread -/

section
variable {s u : State} {a : Issue} {op : Nat} {f : BitVec 56} {t : Troupe} {i : Iss} (h : Issues s u a op f t i)
include h

theorem not_due_of_all (all : i.act = List.range 32) : t.yields = false ∧ t.convergeDue = false := by
  have quiet : t.yields = false := by
    rw [Troupe.yields, List.any_eq_false]
    intro x member
    obtain ⟨n, hx⟩ := List.getElem?_of_mem (List.mem_filter.1 member).1
    have lane : n ∈ i.act := all ▸ List.mem_range.2 (Issues.length h ▸ Troupe.lt_of_thread hx)
    exact Bool.not_eq_true _ ▸ (Issues.of_act h lane hx).2
  exact ⟨quiet, Bool.eq_false_of_not_eq_true fun due => Bool.false_ne_true (quiet.symm.trans ((Issues.goesOn h).due due))⟩

/-- Every thread, where all 32 execute. -/
theorem threads_of_all (all : i.act = List.range 32) (g : Thread → Thread) {z : Thread}
    (member : z ∈ (onLanes i.act (fun _ => g) i.t).threads) :
    ∃ x ∈ t.threads, z = g { x with pc := BitVec.ofNat 64 (i.pc + 8) } := by
  obtain ⟨n, hz⟩ := List.getElem?_of_mem member
  have below : n < t.threads.length := by
    have lt := Troupe.lt_of_thread hz
    rwa [length_onLanes, (Issues.stepped h).length] at lt
  obtain ⟨x, hx⟩ := Troupe.exists_thread below
  refine ⟨x, Troupe.mem_threads_of_thread hx, Option.some.inj (hz.symm.trans ?_)⟩
  refine (thread_of_lanes h (.refl _) (fun _ => g) hx).trans ?_
  rw [if_pos (all ▸ List.mem_range.2 (Issues.length h ▸ below))]

end

/-! ### A troupe whose threads have all parked -/

/-- Every thread is parked as `why` says at `pc`, has not exited and has not yielded. -/
structure AllParked (why : Park) (pc : Word) (t : Troupe) : Prop where
  some_ : t.threads ≠ []
  parked : ∀ x ∈ t.threads, x.parked = some why
  pc : ∀ x ∈ t.threads, x.pc = pc
  exited : ∀ x ∈ t.threads, x.exited = false
  yielded : ∀ x ∈ t.threads, x.yielded = false
  due : t.convergeDue = false

namespace AllParked
variable {why : Park} {pc : Word} {t : Troupe} (h : AllParked why pc t)
include h

theorem rest : t.rest = t.threads :=
  List.filter_eq_self.2 fun x hx => by rw [h.exited x hx]; rfl

theorem settleYield : settleYield t = t := by
  have same : t.threads.map (fun x => { x with yielded := false }) = t.threads :=
    (List.map_congr_left fun x hx =>
      congrArg (fun b => { x with yielded := b }) (h.yielded x hx).symm).trans (List.map_id _)
  rw [Machine.settleYield, same, ite_self]

theorem settleDue : settleDue t = t := by
  rw [Machine.settleDue, h.due]
  rfl

end AllParked

/-- Threads all parked under CONVERGE at one PC resume (R183). -/
theorem AllParked.settleConverge {pc : Word} {t : Troupe} (h : AllParked .converge pc t) :
    settleConverge t = { t with threads := t.threads.map (fun x => { x with parked := none }) } := by
  obtain ⟨x, l, threads⟩ := List.exists_cons_of_ne_nil h.some_
  have parked := h.parked
  have pcs := h.pc
  rw [threads] at parked pcs
  rw [Machine.settleConverge, h.rest, threads]
  dsimp only
  rw [if_pos]
  rw [Bool.and_eq_true, beq_iff_eq, List.all_eq_true]
  refine ⟨parked x List.mem_cons_self, fun y hy => ?_⟩
  have later := List.mem_cons_of_mem x hy
  rw [parked y later, pcs y later, pcs x List.mem_cons_self]
  exact Bool.and_eq_true_iff.2 ⟨beq_self_eq_true _, beq_self_eq_true _⟩

/-- Threads parked on a barrier wait for it alone. -/
theorem AllParked.settleConverge_of_barrier {b : Nat} {pc : Word} {t : Troupe} (h : AllParked (.barrier b) pc t) :
    Machine.settleConverge t = t := by
  obtain ⟨x, l, threads⟩ := List.exists_cons_of_ne_nil h.some_
  have first := h.parked x (threads ▸ List.mem_cons_self)
  rw [Machine.settleConverge, h.rest, threads]
  dsimp only
  rw [first, if_neg (by simp)]

theorem barriersOf_of_all {b : Nat} {l : List Thread} (parked : ∀ x ∈ l, x.parked = some (.barrier b)) :
    barriersOf l = some (if l = [] then [] else [b]) := by
  induction l with
  | nil => rfl
  | cons x l ih =>
    obtain ⟨first, others⟩ := List.forall_mem_cons.1 parked
    rw [barriersOf, first, ih others]
    cases l <;> simp [addNat]

/-- What CONVERGE leaves once every thread has parked. -/
theorem findTroupe_settle_of_converged {s : State} {pc : Word} {y z : Troupe} (h : AllParked .converge pc y)
    (found : findTroupe s y.at_ = some z) : findTroupe (settle y.at_ (putTroupe y s)) y.at_ =
      some { y with threads := y.threads.map (fun x => { x with parked := none }) } := by
  obtain ⟨x, l, threads⟩ := List.exists_cons_of_ne_nil h.some_
  have member : { x with parked := none } ∈
      ({ y with threads := y.threads.map (fun x => { x with parked := none }) } : Troupe).rest :=
    List.mem_filter.2 ⟨List.mem_map.2 ⟨x, threads ▸ List.mem_cons_self, rfl⟩, by
      rw [h.exited x (threads ▸ List.mem_cons_self)]; rfl⟩
  rw [settle, findTroupe_putTroupe found]
  dsimp only
  rw [h.settleYield, h.settleDue, h.settleConverge, barriersOf_of_mem member rfl]
  exact findTroupe_putTroupe (t := { y with threads := y.threads.map (fun x => { x with parked := none }) })
    (findTroupe_putTroupe found)

/-- A change that leaves what is sought. -/
theorem find?_updWhere_of_same {α : Type} {p q : α → Bool} {g : α → α} (same : ∀ x, p (g x) = p x) (l : List α) :
    (updWhere q g l).find? p = (l.find? p).map (fun x => if q x then g x else x) := by
  rw [updWhere, List.find?_map]
  congr 2
  funext x
  rw [Function.comp_apply, apply_ite p, same, ite_self]

/-- Where the troupe found is the launch's one, so is what takes its place. -/
theorem eq_of_mem_launchTroupes_putTroupe {s : State} {y z : Troupe} (found : findTroupe s y.at_ = some z)
    (alone : launchTroupes s y.queue y.index y.die y.cluster = [z]) {x : Troupe}
    (member : x ∈ launchTroupes (putTroupe y s) y.queue y.index y.die y.cluster) : x = y := by
  obtain ⟨listed, mine⟩ := List.mem_filter.1 member
  obtain ⟨w, old, rfl⟩ := List.mem_map.1 listed
  by_cases here : troupeIn y.at_ w = true
  · rw [if_pos here]
  · rw [if_neg here] at mine
    have same : w ∈ [z] := alone ▸ List.mem_filter.2 ⟨old, mine⟩
    rw [List.mem_singleton.1 same] at here
    exact absurd (List.find?_some (p := troupeIn y.at_) found) here

/-- What a barrier leaves once its launch's one troupe on the cluster has arrived. -/
theorem findTroupe_settle_of_arrived {s : State} {b : Nat} {pc : Word} {y z : Troupe} (h : AllParked (.barrier b) pc y)
    (found : findTroupe s y.at_ = some z) (alone : launchTroupes s y.queue y.index y.die y.cluster = [z]) :
    findTroupe (settle y.at_ (putTroupe y s)) y.at_ = some (unparkBarrier b y) := by
  have barriers : barriersOf y.rest = some [b] := by
    rw [h.rest, barriersOf_of_all h.parked, if_neg h.some_]
  rw [settle, findTroupe_putTroupe found]
  dsimp only
  rw [h.settleYield, h.settleDue, h.settleConverge_of_barrier, barriers, putTroupe_putTroupe rfl]
  dsimp only
  rw [releaseBarrier, if_pos]
  · refine (find?_updWhere_of_same (g := unparkBarrier b) (fun _ => rfl) (putTroupe y s).core.troupes).trans ?_
    rw [show (putTroupe y s).core.troupes.find? (troupeIn y.at_) = some y from findTroupe_putTroupe found]
    simp
  · rw [List.all_eq_true]
    intro x member
    rw [eq_of_mem_launchTroupes_putTroupe found alone member, arrivedAt, barriers]
    exact Nat.beq_refl b

/-! ### The opcodes and the expiries -/

theorem OnlyThreads.launchTroupes {t y : Troupe} (h : OnlyThreads t y) (u : State) :
    launchTroupes u y.queue y.index y.die y.cluster = launchTroupes u t.queue t.index t.die t.cluster :=
  (congrArg (fun z : Troupe => Machine.launchTroupes u z.queue z.index z.die z.cluster) h).trans rfl

theorem Stepped.launchTroupes {t : Troupe} {i : Iss} (h : Stepped t i) (u : State) :
    launchTroupes u i.t.queue i.t.index i.t.die i.t.cluster = launchTroupes u t.queue t.index t.die t.cluster :=
  (congrArg (fun z : Troupe => Machine.launchTroupes u z.queue z.index z.die z.cluster) h.rest).trans rfl

section
variable {s u : State} {a : Issue} {op : Nat} {f : BitVec 56} {t : Troupe} {i : Iss} (h : Issues s u a op f t i)
include h

/-- All 32 threads park at the next word. -/
theorem allParked_of_all (all : i.act = List.range 32) (none_ : ∀ x ∈ t.threads, x.exited = false) (why : Park) :
    AllParked why (BitVec.ofNat 64 (i.pc + 8)) (onLanes i.act
      (fun _ x => { x with parked := some why, parkedAt := i.t.issuedAt.getD 0 }) i.t) := by
  have stepped := Issues.stepped h
  have threads := onlyThreads_onLanes i.act
    (fun _ x => { x with parked := some why, parkedAt := i.t.issuedAt.getD 0 }) i.t
  have from_ {z : Thread} := threads_of_all h all
    (fun x => { x with parked := some why, parkedAt := i.t.issuedAt.getD 0 }) (z := z)
  refine ⟨?_, fun z hz => ?_, fun z hz => ?_, fun z hz => ?_, fun z hz => ?_, ?_⟩
  · refine List.ne_nil_of_length_pos ?_
    rw [length_onLanes, stepped.length, Issues.length h]
    decide
  · obtain ⟨x, -, rfl⟩ := from_ hz
    rfl
  · obtain ⟨x, -, rfl⟩ := from_ hz
    rfl
  · obtain ⟨x, hx, rfl⟩ := from_ hz
    exact none_ x hx
  · obtain ⟨x, hx, rfl⟩ := from_ hz
    obtain ⟨n, there⟩ := List.getElem?_of_mem hx
    exact (Issues.of_act h (all ▸ List.mem_range.2 (Issues.length h ▸ Troupe.lt_of_thread there)) there).2
  · exact threads.due.trans ((congrArg (·.convergeDue) stepped.rest).trans (not_due_of_all h all).2)

theorem place_onLanes (g : Nat → Thread → Thread) : (onLanes i.act g i.t).at_ = t.at_ :=
  (onlyThreads_onLanes i.act g i.t).place.trans (Issues.stepped h).place

end

variable {s u : State} {a : Issue} {f : BitVec 56} {t : Troupe} {i : Iss}

theorem completes_converge_of_all (h : Issues s u a 0x63 f t i) (all : i.act = List.range 32)
    (none_ : ∀ x ∈ t.threads, x.exited = false) : Completes (.converge a f) s (fun o =>
      ∃ y, findTroupe o t.at_ = some y ∧ ∀ x ∈ y.threads, x.parked = none ∧ x.pc = BitVec.ofNat 64 (i.pc + 8)) := by
  have parked := allParked_of_all h all none_ .converge
  have place := place_onLanes h (fun _ x => { x with parked := some .converge, parkedAt := i.t.issuedAt.getD 0 })
  have left := findTroupe_settle_of_converged parked (place ▸ Issues.found h)
  rw [place] at left
  refine ⟨_, coreOp_of_issues h convergeEff, _, left, fun x hx => ?_⟩
  obtain ⟨z, hz, rfl⟩ := List.mem_map.1 hx
  exact ⟨rfl, parked.pc z hz⟩

theorem completes_barc_of_all (h : Issues s u a 0x65 f t i) (all : i.act = List.range 32)
    (alone : launchTroupes u t.queue t.index t.die t.cluster = [t]) (none_ : ∀ x ∈ t.threads, x.exited = false) :
    Completes (.barc a f) s (fun o => ∃ y, findTroupe o t.at_ = some y ∧ ∀ x ∈ y.threads, x.parked = none) := by
  have parked := allParked_of_all h all none_ (.barrier (fBar i.w))
  have place := place_onLanes h (fun _ x => { x with parked := some (.barrier (fBar i.w)), parkedAt := i.t.issuedAt.getD 0 })
  have only := (onlyThreads_onLanes i.act
    (fun _ x => { x with parked := some (.barrier (fBar i.w)), parkedAt := i.t.issuedAt.getD 0 }) i.t)
  have same := (only.launchTroupes u).trans ((Issues.stepped h).launchTroupes u)
  have left := findTroupe_settle_of_arrived parked (place ▸ Issues.found h) (same.trans alone)
  rw [place] at left
  refine ⟨_, coreOp_of_issues h barcEff, _, left, fun x hx => ?_⟩
  obtain ⟨z, hz, rfl⟩ := List.mem_map.1 hx
  rw [parked.parked z hz, if_pos (beq_self_eq_true _)]

theorem completes_sleep (h : Issues s u a 0xA5 f t i) (some_ : i.act ≠ []) : Completes (.sleep a f) s (fun o =>
    ∃ y, o = putTroupe y u ∧ y.asleep = true ∧ Moved t i y ∧ y.vregs = t.vregs) :=
  completes_of_threads h rfl (onceEff_of_act some_ u) (Issues.found h) rfl rfl rfl
    fun moved => ⟨_, rfl, rfl, moved, (Issues.stepped h).vregs⟩

theorem completes_parking {op : Nat} {c : Instr} {g : Thread → Thread}
    (mem : (c, op, g) ∈ [(Instr.converge a f, 0x63, fun x => { x with parked := some .converge, parkedAt := i.t.issuedAt.getD 0 }),
      (Instr.yield a f, 0x64, fun x => { x with yielded := true }),
      (Instr.barc a f, 0x65, fun x => { x with parked := some (.barrier (fBar i.w)), parkedAt := i.t.issuedAt.getD 0 }),
      (Instr.exit a f, 0x66, fun x => { x with exited := true })]) (h : Issues s u a op f t i)
    (other : ∃ n x, n ∉ i.act ∧ t.thread n = some x ∧ x.live = true ∧ x.yielded = false) :
    Completes c s (fun o => ∃ y, o = putTroupe y u ∧ y.vregs = t.vregs ∧ y.sregs = t.sregs ∧
      ∀ n x, t.thread n = some x → y.thread n =
        some (if n ∈ i.act then g { x with pc := BitVec.ofNat 64 (i.pc + 8) }
          else { x with pc := if n ∈ i.cohort then BitVec.ofNat 64 (i.pc + 8) else x.pc })) := by
  simp only [List.mem_cons, List.not_mem_nil, or_false, Prod.mk.injEq] at mem
  rcases mem with ⟨rfl, rfl, rfl⟩ | ⟨rfl, rfl, rfl⟩ | ⟨rfl, rfl, rfl⟩ | ⟨rfl, rfl, rfl⟩
  · exact completes_of_others h (eff := convergeEff) rfl rfl other
  · exact completes_of_others h (eff := yieldEff) rfl rfl other
  · exact completes_of_others h (eff := barcEff) rfl rfl other
  · exact completes_of_others h (eff := exitEff) rfl rfl other

section
variable {p : SlotAt}

theorem at_of_findTroupe (found : findTroupe s p = some t) : t.at_ = p := by
  have here := List.find?_some (p := troupeIn p) found
  simp only [troupeIn, Bool.and_eq_true, Nat.beq_eq] at here
  obtain ⟨⟨⟨die, cluster⟩, core⟩, slot⟩ := here
  rw [Troupe.at_, die, cluster, core, slot]

/-- An expiry that leaves its troupe fresh. -/
theorem onTroupe_of_fresh (found : findTroupe s p = some t) {g : Troupe → Troupe} (place : (g t).at_ = t.at_)
    (fresh : (g t).fresh = true) : onTroupe p g s = putTroupe (settleDue (g t)) s := by
  obtain rfl := at_of_findTroupe found
  rw [onTroupe, found]
  dsimp only
  rw [← place]
  exact settle_of_fresh (place ▸ found) fresh

/-- An expiry after which its troupe goes on. -/
theorem onTroupe_of_goesOn (found : findTroupe s p = some t) {g : Troupe → Troupe} (place : (g t).at_ = t.at_)
    (on : GoesOn (g t)) : onTroupe p g s = putTroupe (g t) s := by
  rw [onTroupe_of_fresh found place on.fresh, settleDue, if_neg]
  rw [Bool.and_eq_true, Bool.not_eq_true']
  exact fun ⟨due, none_⟩ => Bool.false_ne_true (none_.symm.trans (on.due due))

variable (hd : p.die < dieCount s.orderCode) (found : findTroupe s p = some t) (on : GoesOn t)
include hd found on

theorem completes_sleepExpiry :
    Completes (.sleepExpiry p) s (fun o => o = putTroupe { t with asleep := false } s) :=
  completes_of_onDie (execSleepExpiry p s) rfl rfl hd (onTroupe_of_goesOn found rfl ⟨on.fresh, on.due⟩)

theorem completes_convergeTimeout_of_yields (yields : t.yields = true) :
    Completes (.convergeTimeout p) s (fun o => o = putTroupe { t with convergeDue := true } s) := by
  have expires : convergeExpire t = { t with convergeDue := true } := if_pos yields
  refine completes_of_onDie (execConvergeTimeout p s) rfl rfl hd ?_
  rw [onTroupe_of_goesOn found (by rw [expires]; rfl) (by rw [expires]; exact ⟨on.fresh, fun _ => yields⟩), expires]

theorem completes_convergeTimeout {x : Thread} (quiet : t.yields = false) (oldest : oldestParked t.threads = some x) :
    Completes (.convergeTimeout p) s (fun o => ∃ y, o = putTroupe y s ∧ ∀ n z, t.thread n = some z → y.thread n =
      some (if z.parked = some .converge ∧ z.pc = x.pc then { z with parked := none } else z)) := by
  have expires : convergeExpire t = wakeConverge t := if_neg (by rw [quiet]; exact Bool.false_ne_true)
  refine completes_of_onDie (execConvergeTimeout p s) rfl rfl hd ⟨wakeConverge t, ?_, fun n z hz => ?_⟩
  · rw [onTroupe_of_goesOn found (by rw [expires, place_wakeConverge]) (by
      rw [expires]
      exact goesOn_wakeConverge on.fresh), expires]
  · rw [wakeConverge, oldest]
    refine (List.getElem?_map ..).trans ?_
    rw [show t.threads[n]? = some z from hz, Option.map_some]
    simp

theorem completes_yieldTimeout : Completes (.yieldTimeout p) s (fun o => ∃ y, o = putTroupe y s ∧
    (∀ x ∈ y.threads, x.yielded = false) ∧ y.vregs = t.vregs ∧ y.threads.map (·.pc) = t.threads.map (·.pc)) := by
  have fresh : (clearYields t).fresh = true := by
    obtain ⟨x, member, exited, parked, -⟩ := t.fresh_iff.1 on.fresh
    exact (Troupe.fresh_iff _).2 ⟨_, List.mem_map_of_mem member, exited, parked, rfl⟩
  refine completes_of_onDie (execYieldTimeout p s) rfl rfl hd
    ⟨_, onTroupe_of_fresh found (g := clearYields) rfl fresh, fun x member => ?_, ?_, ?_⟩
  · have bits := map_threads_settleDue (clearYields t) (·.yielded) fun _ => rfl
    have inside : x.yielded ∈ (clearYields t).threads.map (·.yielded) := bits ▸ List.mem_map_of_mem member
    obtain ⟨z, cleared, same⟩ := List.mem_map.1 inside
    obtain ⟨w, -, rfl⟩ := List.mem_map.1 cleared
    exact same.symm
  · exact vregs_settleDue _
  · exact (map_threads_settleDue (clearYields t) (·.pc) fun _ => rfl).trans List.map_map

end

/-- Settles O46: a thread outside the executing ones keeps the troupe going; where all 32 park, what they wait for is
released, and an expiry leaves a fresh troupe. When CONVERGE and YIELD release is the model's reading (log 19), and who
counts at a barrier its choice (log 112). -/
theorem parkingAndYielding : Obligations.ParkingAndYielding :=
  ⟨fun _ _ _ _ _ _ _ _ _ => completes_parking, fun _ _ _ _ _ _ => completes_converge_of_all,
    fun _ _ _ _ _ _ => completes_barc_of_all, fun _ _ _ _ _ _ => completes_sleep,
    fun _ _ _ hd found fresh due => ⟨completes_sleepExpiry hd found ⟨fresh, due⟩,
      completes_yieldTimeout hd found ⟨fresh, due⟩, completes_convergeTimeout_of_yields hd found ⟨fresh, due⟩,
      fun _ => completes_convergeTimeout hd found ⟨fresh, due⟩⟩⟩

end Sys2Proof.Machine
end

section
/-! PROOFS. The matrix opcodes (R141, R143, R412): the cells of D, and the forms that write none. -/

namespace Sys2Proof.Machine

/-! ### Cells written one by one -/

/-- Registers `reg e` of lanes `lane e` written with `x e`, in the order of a list. -/
def writeCells (reg lane : Nat → Nat) (x : Nat → Lane) (l : List Nat) (t : Troupe) : Troupe :=
  l.foldl (fun t e => t.setV (reg e) (lane e) (x e)) t

variable {reg lane : Nat → Nat} {x : Nat → Lane} {l : List Nat}

theorem onlyVecs_writeCells {t y : Troupe} (h : OnlyVecs t y) : OnlyVecs t (writeCells reg lane x l y) := by
  induction l generalizing y with
  | nil => exact h
  | cons e l ih => exact ih (h.setV (reg e) (lane e) (x e))

theorem v_writeCells_other (lanes : ∀ e ∈ l, lane e < 32) {q n : Nat} (hn : n < 32)
    (other : ∀ e ∈ l, ¬(q = reg e ∧ n = lane e)) (t : Troupe) : (writeCells reg lane x l t).v q n = t.v q n := by
  induction l generalizing t with
  | nil => rfl
  | cons e l ih =>
    obtain ⟨first, lanes⟩ := List.forall_mem_cons.1 lanes
    obtain ⟨apart, other⟩ := List.forall_mem_cons.1 other
    exact (ih lanes other _).trans ((v_setV hn first t q (reg e) (x e)).trans (if_neg apart))

/-- Whatever names a cell writes the same value. -/
theorem v_writeCells_same (lanes : ∀ e ∈ l, lane e < 32) {q n : Nat} (hn : n < 32) {v : Lane}
    (named : ∀ e ∈ l, q = reg e ∧ n = lane e → x e = v) (some_ : ∃ e ∈ l, q = reg e ∧ n = lane e) (t : Troupe) :
    (writeCells reg lane x l t).v q n = v := by
  induction l generalizing t with
  | nil =>
    obtain ⟨e, none_, -⟩ := some_
    cases none_
  | cons e l ih =>
    obtain ⟨first, lanes⟩ := List.forall_mem_cons.1 lanes
    obtain ⟨now, named⟩ := List.forall_mem_cons.1 named
    by_cases later : ∃ e ∈ l, q = reg e ∧ n = lane e
    · exact ih lanes named later _
    · have here : q = reg e ∧ n = lane e := by
        obtain ⟨e', member, same⟩ := some_
        rcases List.mem_cons.1 member with rfl | member
        · exact same
        · exact absurd ⟨e', member, same⟩ later
      refine (v_writeCells_other lanes hn (fun e' member same => later ⟨e', member, same⟩) _).trans ?_
      rw [v_setV hn first, if_pos here, now here]

/-! ### D -/

theorem mmaWrite_eq (i : Iss) (tyA tyB q kk : Nat) : mmaWrite i tyA tyB q kk =
    writeCells (fun e => fD i.w + e / 16 / 2) (fun e => e / 16 % 2 * 16 + e % 16)
      (fun e => BitVec.ofNat 32 (mmaCell i.t i.w tyA tyB q kk (e / 16) (e % 16))) (List.range 256) i.t := rfl

theorem accLane_lt (e : Nat) : e / 16 % 2 * 16 + e % 16 < 32 := by omega

theorem Stepped.mmaCell {t : Troupe} {i : Iss} (h : Stepped t i) (w tyA tyB q kk m n : Nat) :
    mmaCell i.t w tyA tyB q kk m n = mmaCell t w tyA tyB q kk m n :=
  (congrArg (Machine.mmaCell · w tyA tyB q kk m n) h.rest).trans rfl

/-- Each element of D (Table ISA-8). -/
theorem v_mmaWrite (i : Iss) (tyA tyB q kk : Nat) {m n : Nat} (hm : m < 16) (hn : n < 16) :
    (mmaWrite i tyA tyB q kk).v (fD i.w + m / 2) (m % 2 * 16 + n) =
      BitVec.ofNat 32 (mmaCell i.t i.w tyA tyB q kk m n) := by
  rw [mmaWrite_eq]
  refine v_writeCells_same (fun e _ => accLane_lt e) (by omega) (fun e _ same => ?_)
    ⟨m * 16 + n, List.mem_range.2 (by omega), by omega, by omega⟩ i.t
  obtain ⟨row, col⟩ : e / 16 = m ∧ e % 16 = n := by omega
  rw [row, col]

theorem v_mmaWrite_other (i : Iss) (tyA tyB q kk : Nat) {r n : Nat} (hn : n < 32) (out : r < fD i.w ∨ fD i.w + 8 ≤ r) :
    (mmaWrite i tyA tyB q kk).v r n = i.t.v r n := by
  rw [mmaWrite_eq]
  refine v_writeCells_other (fun e _ => accLane_lt e) hn (fun e member same => ?_) i.t
  have below := List.mem_range.1 member
  omega

/-! ### The four forms -/

section
variable {s u : State} {a : Issue} {op : Nat} {f : BitVec 56} {t : Troupe} {i : Iss} (h : Issues s u a op f t i)
variable {c : Instr} {q kk : Nat} {tyA tyB : Nat → Nat} (exec_ : exec c s = coreOp a op f (mmaEff tyA tyB q kk) s)
include h

theorem Issues.mmaEff_of_normal (normal : outLow u t.die t.cluster = false) : mmaEff tyA tyB q kk i u =
    if !anyGuard i then .done i.t u else if mmaShape i then .done (mmaWrite i (tyA i.w) (tyB i.w) q kk) u
    else .trap 0x06 (i.cohort.headD 0) 0 u := by
  have stepped := Issues.stepped h
  have cluster : i.t.cluster = t.cluster := congrArg (·.cluster) stepped.rest
  rw [mmaEff, stepped.die, cluster, normal, if_neg Bool.false_ne_true]

include exec_

theorem completes_mma_written (normal : outLow u t.die t.cluster = false) (guard : anyGuard i = true)
    (shape : mmaShape i = true) : Completes c s (fun o => ∃ y, o = putTroupe y u ∧ Moved t i y ∧ y.sregs = t.sregs ∧
      (∀ m n, m < 16 → n < 16 →
        (y.v (fD i.w + m / 2) (m % 2 * 16 + n)).toNat = mmaCell t i.w (tyA i.w) (tyB i.w) q kk m n % 2 ^ 32) ∧
      VecBut t (List.range 32) (fD i.w) 8 y) := by
  have stepped := Issues.stepped h
  refine completes_of_vecs h exec_ ((Issues.mmaEff_of_normal h normal).trans (by rw [guard, shape]; rfl))
    (Issues.found h) (onlyVecs_writeCells (.refl _)) fun moved sregs =>
    ⟨_, rfl, moved, sregs, fun m n hm hn => ?_, fun r n hn outside => ?_⟩
  · refine (congrArg BitVec.toNat (v_mmaWrite i (tyA i.w) (tyB i.w) q kk hm hn)).trans ?_
    rw [BitVec.toNat_ofNat, stepped.mmaCell]
  · have out : r < fD i.w ∨ fD i.w + 8 ≤ r := by
      rcases outside with low | high | out
      · exact .inl low
      · exact .inr high
      · exact absurd (List.mem_range.2 hn) out
    exact (v_mmaWrite_other i _ _ q kk hn out).trans (stepped.v r n)

theorem completes_mma_unguarded (normal : outLow u t.die t.cluster = false) (guard : anyGuard i = false) :
    Completes c s (fun o => ∃ y, o = putTroupe y u ∧ Moved t i y ∧ y.vregs = t.vregs ∧ y.sregs = t.sregs) :=
  have stepped := Issues.stepped h
  completes_of_threads h exec_ ((Issues.mmaEff_of_normal h normal).trans (by rw [guard]; rfl)) (Issues.found h)
    rfl rfl rfl fun moved => ⟨_, rfl, moved, stepped.vregs, stepped.sregs⟩

theorem completes_mma_misshaped (normal : outLow u t.die t.cluster = false) (guard : anyGuard i = true)
    (shape : mmaShape i = false) (works : u.prt.faulted.contains t.part = false) : Completes c s (fun o =>
      ctxKilled o t.part t.inst t.ctx = true ∧ t ∉ o.core.troupes) :=
  completes_of_trap h exec_ ((Issues.mmaEff_of_normal h normal).trans (by rw [guard, shape]; rfl)) works

theorem completes_mma_low (low : outLow u t.die t.cluster = true) : Completes c s (fun o => o = u) := by
  have stepped := Issues.stepped h
  have cluster : i.t.cluster = t.cluster := congrArg (·.cluster) stepped.rest
  refine ⟨_, exec_.trans (coreOp_of_issues h _), ?_⟩
  rw [mmaEff, stepped.die, cluster, low, if_pos rfl]

end

/-- Settles O44: the four cases of the effect exclude each other, and each cell of D has one place. -/
theorem matrixMultiply : Obligations.MatrixMultiply := by
  intro s u a f t i c op q kk tyA tyB mem h
  have exec_ : exec c s = coreOp a op f (mmaEff tyA tyB q kk) s := by
    simp only [List.mem_cons, List.not_mem_nil, or_false, Prod.mk.injEq] at mem
    rcases mem with ⟨rfl, rfl, rfl, rfl, rfl, rfl⟩ | ⟨rfl, rfl, rfl, rfl, rfl, rfl⟩ <;> rfl
  exact ⟨completes_mma_written h exec_, completes_mma_unguarded h exec_, completes_mma_misshaped h exec_,
    completes_mma_low h exec_⟩

end Sys2Proof.Machine
end

section
/-! PROOFS. Loads, stores, prefetch and atomics of one lane (R138, R144, R145, R148, R149). -/

namespace Sys2Proof.Machine

/-! ### SIZE -/

/-- The row of a legal MEM word allows its SIZE. -/
theorem exists_row_of_legal_mem {alloc op : Nat} {f : BitVec 56} (mem : op % 256 / 32 = 2)
    (ok : legal alloc (wordOf op f) = true) :
    ∃ r, findRow (op % 256) (memRows ++ memRows2) = some r ∧ r.types.testBit (fSize (wordOf op f)) = true := by
  unfold legal at ok
  rw [fOp_wordOf] at ok
  dsimp only at ok
  rw [mem] at ok
  cases row : findRow (op % 256) (memRows ++ memRows2) with
  | none => simp [row] at ok
  | some r =>
    rw [row] at ok
    simp only [Bool.and_eq_true] at ok
    obtain ⟨-, ⟨⟨-, size⟩, -⟩, -⟩ := ok
    exact ⟨r, rfl, size⟩

theorem fSize_lt (w : Nat) : fSize w < 8 := Nat.mod_lt _ (by decide)

theorem fSize_le_of_legal {alloc op : Nat} {f : BitVec 56} (mem : op % 256 / 32 = 2)
    (ok : legal alloc (wordOf op f) = true) : fSize (wordOf op f) ≤ 4 := by
  have sizes : ∀ r ∈ memRows ++ memRows2, ∀ k < 8, r.types.testBit k = true → k ≤ 4 := by decide
  obtain ⟨r, row, size⟩ := exists_row_of_legal_mem mem ok
  exact sizes r (List.mem_of_find?_eq_some row) _ (fSize_lt _) size

/-- What SIZE names fits in its registers. -/
theorem size_fits {z : Nat} (hz : z ≤ 4) : 8 * sizeBytes z ≤ 32 * sizeRegs z := by
  obtain rfl | rfl | rfl | rfl | rfl : z = 0 ∨ z = 1 ∨ z = 2 ∨ z = 3 ∨ z = 4 := by omega
  all_goals decide

theorem sectorWord_lt (o : Nat) {z : Nat} (hz : z ≤ 4) (v : SectorData) :
    sectorWord o (sizeBytes z) v < 2 ^ (32 * sizeRegs z) :=
  (Nat.mod_lt _ (Nat.two_pow_pos _)).trans_le (Nat.pow_le_pow_right (by decide) (size_fits hz))

/-- Sign extension keeps to the registers of SIZE. -/
theorem loadValue_lt {w x : Nat} (h : x < 2 ^ (32 * sizeRegs (fSize w))) : loadValue w x < 2 ^ (32 * sizeRegs (fSize w)) := by
  unfold loadValue
  split
  next size _ => rw [size]; exact ofSigned_lt ..
  next size _ => rw [size]; exact ofSigned_lt ..
  next => exact h

/-! ### The frame of one lane's access -/

theorem xlateAll_of_one {b : XBy} {want : Want3} {n va pa : Nat} {u u2 : State}
    (there : translate b va want u = some (.pa pa, u2)) : xlateAll b want [(n, va)] u = some (.all [(n, pa)], u2) := by
  rw [xlateAll, there]
  rfl

theorem misaligned_of_one {size n va : Nat} (aligned : va % size = 0) : misaligned size [(n, va)] = none := by
  simp [misaligned, aligned]

theorem memEff_of_one {size : Nat} {want : Want3} {addr : Iss → Nat → Nat} {act : Iss → Addrs → State → Eff} {i : Iss}
    {u u2 : State} {n pa : Nat} (one : i.act = [n]) (aligned : addr i n % size = 0)
    (there : translate i.t.xby (addr i n) want u = some (.pa pa, u2)) :
    memEff size want addr act i u = act i [(n, pa)] u2 := by
  rw [memEff, one, List.map_singleton, misaligned_of_one aligned]
  dsimp only
  rw [xlateAll_of_one there]

theorem loadLanes_of_one {past : Bool} {i : Iss} {n pa : Nat} {t : Troupe} {u2 u3 : State} {v : SectorData}
    (loaded : loadSector i.t (fHint i.w) (fFill i.w) past pa u2 = some (.ok v false, u3)) :
    loadLanes past i [] [(n, pa)] t u2 = .done (writeGroup n (fD i.w) (sizeRegs (fSize i.w))
      (loadValue i.w (sectorWord (pa % 32) (sizeBytes (fSize i.w)) v)) t) u3 := by
  rw [loadLanes, show loadOnce i past [] pa u2 = some (.ok v false, u3) from loaded]
  rfl

section
variable {s u : State} {a : Issue} {op : Nat} {f : BitVec 56} {t : Troupe} {i : Iss} (h : Issues s u a op f t i)
include h

theorem Issues.size_le (mem : op % 256 / 32 = 2) : fSize i.w ≤ 4 :=
  (Issues.word h) ▸ fSize_le_of_legal mem (Issues.legal h)

/-- A group written in the one executing lane. -/
theorem completes_of_group {c : Instr} {eff : Iss → State → Eff} {n r k x : Nat} {v : State} {z : Troupe}
    {P : State → Prop} (one : i.act = [n]) (exec_ : exec c s = coreOp a op f eff s)
    (done : eff i u = .done (writeGroup n r k x i.t) v) (found : findTroupe v t.at_ = some z) (fits : x < 2 ^ (32 * k))
    (holds : ∀ y : Troupe, y.at_ = t.at_ → Moved t i y → y.sregs = t.sregs → readGroup y n r k = x →
      VecBut t [n] r k y → P (putTroupe y v)) : Completes c s P := by
  have lanes : ∀ m ∈ [n], m < 32 := one ▸ Issues.lanes h
  have done' : eff i u = .done (writeGroups r k (fun _ => x) [n] i.t) v := done
  have only := onlyVecs_writeGroups r k (fun _ => x) [n] (.refl i.t)
  refine completes_of_vecs h exec_ done' found only fun moved sregs =>
    holds _ (only.place.trans (Issues.stepped h).place) moved sregs ?_ (vecBut_writeGroups h lanes _ _ _)
  rw [readGroup_writeGroups lanes (List.mem_singleton_self n), Nat.mod_eq_of_lt fits]

/-- No register written. -/
theorem completes_of_untouched {c : Instr} {eff : Iss → State → Eff} {v : State} {z : Troupe} {P : State → Prop}
    (exec_ : exec c s = coreOp a op f eff s) (done : eff i u = .done i.t v) (found : findTroupe v t.at_ = some z)
    (holds : Moved t i i.t → i.t.vregs = t.vregs → i.t.sregs = t.sregs → P (putTroupe i.t v)) : Completes c s P :=
  have stepped := Issues.stepped h
  completes_of_threads h exec_ done found rfl rfl rfl fun moved => holds moved stepped.vregs stepped.sregs

end

theorem thenInval_of_only {t y : Troupe} {i : Iss} (h : Stepped t i) (only : OnlyVecs i.t y) (s : State) :
    thenInval (.done y s) = .done y (invalL1 t.die t.cluster s) := by
  have die : y.die = t.die := (congrArg (·.die) only).trans h.die
  have cluster : y.cluster = t.cluster := (congrArg (·.cluster) only).trans (congrArg (·.cluster) h.rest)
  rw [thenInval, die, cluster]

/-! ### Loads -/

variable {s u u2 u3 : State} {a : Issue} {f : BitVec 56} {t : Troupe} {i : Iss} {n pa : Nat} {v : SectorData}

/-- LD and LD.ACQ, the second past the L1 at DIE and PART scope. -/
theorem completes_load {c : Instr} {op : Nat} (mem : (c, op) ∈ [(Instr.ld a f, 0x40), (Instr.ldAcq a f, 0x42)])
    (h : Issues s u a op f t i) (lane : OneLane u u2 i n (memAddr i n) pa .load)
    (loaded : loadSector i.t (fHint i.w) (fFill i.w) (op == 0x42 && fScope i.w != 0) pa u2 = some (.ok v false, u3))
    (found : findTroupe u3 t.at_ = some t) : Completes c s (fun o => ∃ y, Moved t i y ∧ y.sregs = t.sregs ∧
      o = putTroupe y (if op == 0x42 && fScope i.w != 0 then invalL1 t.die t.cluster u3 else u3) ∧
      readGroup y n (fD i.w) (sizeRegs (fSize i.w)) =
        loadValue i.w (sectorWord (pa % 32) (sizeBytes (fSize i.w)) v) ∧
      VecBut t [n] (fD i.w) (sizeRegs (fSize i.w)) y) := by
  obtain ⟨one, aligned, there⟩ := lane
  have plain (past : Bool) (loaded : loadSector i.t (fHint i.w) (fFill i.w) past pa u2 = some (.ok v false, u3)) :=
    (memEff_of_one (act := fun i l s => loadLanes past i [] l i.t s) one aligned there).trans (loadLanes_of_one loaded)
  simp only [List.mem_cons, List.not_mem_nil, or_false, Prod.mk.injEq] at mem
  rcases mem with ⟨rfl, rfl⟩ | ⟨rfl, rfl⟩
  · have fits := loadValue_lt (sectorWord_lt (pa % 32) (Issues.size_le h rfl) v)
    exact completes_of_group h one rfl (plain false loaded) found fits
      fun y _ moved sregs value others => ⟨y, moved, sregs, rfl, value, others⟩
  · have fits := loadValue_lt (sectorWord_lt (pa % 32) (Issues.size_le h rfl) v)
    by_cases core : fScope i.w = 0
    · simp only [core, bne_self_eq_false, Bool.and_false] at loaded ⊢
      exact completes_of_group h one (eff := ldAcqEff) rfl (by rw [ldAcqEff, if_pos core]; exact plain false loaded) found fits
        fun y _ moved sregs value others => ⟨y, moved, sregs, rfl, value, others⟩
    · have wide : (fScope i.w != 0) = true := bne_iff_ne.2 core
      simp only [wide, beq_self_eq_true, Bool.and_true] at loaded ⊢
      refine completes_of_group (v := invalL1 t.die t.cluster u3) h one (eff := ldAcqEff) rfl ?_ found fits
        fun y _ moved sregs value others => ⟨y, moved, sregs, rfl, value, others⟩
      rw [ldAcqEff, if_neg core]
      dsimp only
      rw [plain true loaded, one]
      exact thenInval_of_only (Issues.stepped h) (onlyVecs_writeGroup _ _ _ _ (.refl _)) u3

theorem Stepped.pair {t : Troupe} {i : Iss} (h : Stepped t i) (n : Nat) : i.t.pair n = t.pair n := by
  rw [Troupe.pair, Troupe.pair, h.s, h.s]

/-- LDU loads once for the troupe. -/
theorem completes_ldu (h : Issues s u a 0x46 f t i) (some_ : i.act ≠ [])
    (aligned : ofSigned 64 ((t.pair (fSB i.w) : Int) + immOff i.w) % sizeBytes (fSize i.w) = 0)
    (there : translate i.t.xby (ofSigned 64 ((t.pair (fSB i.w) : Int) + immOff i.w)) .load u = some (.pa pa, u2))
    (loaded : loadSector i.t (fHint i.w) (fFill i.w) false pa u2 = some (.ok v false, u3))
    (found : findTroupe u3 t.at_ = some t) :
    Completes (.ldu a f) s (fun o => ∃ y, o = putTroupe y u3 ∧ Moved t i y ∧ y.vregs = t.vregs ∧
      (fSize i.w = 2 → (y.s (fD i.w)).toNat = sectorWord (pa % 32) 4 v ∧ ∀ q, q ≠ fD i.w → y.s q = t.s q) ∧
      (fSize i.w = 3 → y.pair (fD i.w / 2) = sectorWord (pa % 32) 8 v)) := by
  have stepped := Issues.stepped h
  obtain ⟨n, l, act⟩ := List.exists_cons_of_ne_nil some_
  have done : lduEff i u = .done (if fSize i.w = 2
      then i.t.setS (fD i.w) (BitVec.ofNat 32 (sectorWord (pa % 32) (sizeBytes (fSize i.w)) v))
      else i.t.setPair (fD i.w / 2) (sectorWord (pa % 32) (sizeBytes (fSize i.w)) v)) u3 := by
    rw [lduEff, act]
    dsimp only
    rw [stepped.pair, if_neg (not_not_intro aligned), there]
    dsimp only
    rw [loaded]
    rfl
  by_cases word : fSize i.w = 2
  · rw [if_pos word] at done
    refine completes_of_scalars h rfl done found rfl fun moved vregs =>
      ⟨_, rfl, moved, vregs, fun _ => ⟨?_, fun q other => ?_⟩, fun pair => by omega⟩
    · refine (congrArg BitVec.toNat ((s_setS ..).trans (if_pos rfl))).trans ?_
      rw [BitVec.toNat_ofNat, word]
      exact Nat.mod_eq_of_lt (sectorWord_lt (z := 2) (pa % 32) (by decide) v)
    · exact (s_setS ..).trans ((if_neg other).trans (stepped.s q))
  · rw [if_neg word] at done
    refine completes_of_scalars h rfl done found rfl fun moved vregs =>
      ⟨_, rfl, moved, vregs, fun two => absurd two word, fun pair => ?_⟩
    refine (pair_setPair ..).trans ?_
    rw [pair]
    exact Nat.mod_eq_of_lt (sectorWord_lt (z := 3) (pa % 32) (by decide) v)

theorem completes_pref (h : Issues s u a 0x47 f t i) (found : findTroupe (i.act.foldl (prefLane i) u) t.at_ = some t) :
    Completes (.pref a f) s (fun o => ∃ y, o = putTroupe y (i.act.foldl (prefLane i) u) ∧ Moved t i y ∧
      y.vregs = t.vregs ∧ y.sregs = t.sregs) :=
  completes_of_untouched h rfl rfl found fun moved vregs sregs => ⟨_, rfl, moved, vregs, sregs⟩

/-! ### Stores -/

theorem Stepped.acc {t : Troupe} {i : Iss} (h : Stepped t i) (hint : Nat) (fill : Bool) : i.t.acc hint fill = t.acc hint fill :=
  (congrArg (Troupe.acc · hint fill) h.rest).trans rfl

/-- The bytes that a store of one lane writes. -/
def storeData (t : Troupe) (w n pa : Nat) : SectorData := BitVec.ofNat 256
  (readGroup t n (fD w) (sizeRegs (fSize w)) % 256 ^ sizeBytes (fSize w) * 256 ^ (pa % 32))

/-- What a store of one lane leaves beside its slice. -/
def storeTail (t : Troupe) (w n pa : Nat) (s : State) : State :=
  l1Store t.die t.cluster t.part (pa / 32) (byteMask (pa % 32) (sizeBytes (fSize w))) (storeData t w n pa)
    (noteSector t.queue t.die (pa / 32 * 32) s)

theorem storeSectors_of_one (h : Stepped t i) (s0 : State) {p : Bool}
    (written : accWrite (t.acc (fHint i.w) (fFill i.w)) (pa / 32 * 32) (byteMask (pa % 32) (sizeBytes (fSize i.w)))
      (storeData t i.w n pa) u2 = some (.ok v p, u3)) :
    storeSectors s0 i (gatherAll i [(n, pa)]) u2 = .done i.t (storeTail t i.w n pa u3) := by
  have group : readGroup i.t n (fD i.w) (sizeRegs (fSize i.w)) = readGroup t n (fD i.w) (sizeRegs (fSize i.w)) :=
    readGroup_congr fun q _ => h.v q n
  have gathered : gatherAll i [(n, pa)] =
      [⟨pa / 32 * 32, n, byteMask (pa % 32) (sizeBytes (fSize i.w)), storeData t i.w n pa⟩] := by
    rw [storeData, ← group]
    rfl
  have tail : l1Store i.t.die i.t.cluster i.t.part (pa / 32 * 32 / 32) (byteMask (pa % 32) (sizeBytes (fSize i.w)))
      (storeData t i.w n pa) (noteSector i.t.queue i.t.die (pa / 32 * 32) u3) = storeTail t i.w n pa u3 := by
    rw [Nat.mul_div_cancel _ (by decide), storeTail]
    exact (congrArg (fun x : Troupe => l1Store x.die x.cluster x.part (pa / 32) _ _ (noteSector x.queue x.die _ u3))
      h.rest).trans rfl
  rw [gathered, storeSectors, h.acc, written]
  exact congrArg (Eff.done i.t) tail

/-- ST and ST.REL. -/
theorem completes_store {c : Instr} {op : Nat} {p : Bool} (mem : (c, op) ∈ [(Instr.st a f, 0x41), (Instr.stRel a f, 0x43)])
    (h : Issues s u a op f t i) (lane : OneLane u u2 i n (memAddr i n) pa .store)
    (written : accWrite (t.acc (fHint i.w) (fFill i.w)) (pa / 32 * 32) (byteMask (pa % 32) (sizeBytes (fSize i.w)))
      (storeData t i.w n pa) u2 = some (.ok v p, u3)) (found : findTroupe u3 t.at_ = some t) :
    Completes c s (fun o => ∃ y, Moved t i y ∧ y.vregs = t.vregs ∧ y.sregs = t.sregs ∧
      o = putTroupe y (storeTail t i.w n pa u3)) := by
  obtain ⟨one, aligned, there⟩ := lane
  have done : stEff i u = .done i.t (storeTail t i.w n pa u3) :=
    (memEff_of_one one aligned there).trans (storeSectors_of_one (Issues.stepped h) u2 written)
  have exec_ : exec c s = coreOp a op f stEff s := by
    simp only [List.mem_cons, List.not_mem_nil, or_false, Prod.mk.injEq] at mem
    rcases mem with ⟨rfl, rfl⟩ | ⟨rfl, rfl⟩ <;> rfl
  exact completes_of_untouched h exec_ done found fun moved vregs sregs => ⟨_, moved, vregs, sregs, rfl⟩

/-! ### Atomics -/

/-- What an atomic of one lane leaves beside its slice. -/
def atomTail (t : Troupe) (pa : Nat) (s : State) : State :=
  l1Drop t.die t.cluster t.part (pa / 32) (noteSector t.queue t.die pa s)

/-- What the home slice does for an atomic of one lane. -/
def atomWork (g : Iss → Nat) (t : Troupe) (i : Iss) (n pa : Nat) := atomSector (pa % 32) (g i) (Nat.beq (fSize i.w) 3)
  (fSext i.w) (readGroup t n (fD i.w) (sizeRegs (fSize i.w)))
  (readGroup t n (fD i.w + sizeRegs (fSize i.w)) (sizeRegs (fSize i.w)))

theorem atomicEff_of_one {g : Iss → Nat} (h : Stepped t i) (lane : OneLane u u2 i n (memAddr i n) pa .store)
    (performed : accAtomic (t.acc (fHint i.w) (fFill i.w)) pa (atomWork g t i n pa) u2 = some (.ok v false, u3)) :
    atomicEff g i u = .done (writeGroup n (fD i.w) (sizeRegs (fSize i.w))
      (sectorWord (pa % 32) (sizeBytes (fSize i.w)) v) i.t) (atomTail t pa u3) := by
  obtain ⟨one, aligned, there⟩ := lane
  refine (memEff_of_one one aligned there).trans ?_
  have group (r : Nat) : readGroup i.t n r (sizeRegs (fSize i.w)) = readGroup t n r (sizeRegs (fSize i.w)) :=
    readGroup_congr fun q _ => h.v q n
  rw [atomLanes]
  dsimp only
  unfold atomWork at performed
  rw [group, group, h.acc, performed]
  exact congrArg (Eff.done _) ((congrArg (fun x : Troupe => l1Drop x.die x.cluster x.part (pa / 32)
    (noteSector x.queue x.die pa u3)) h.rest).trans rfl)

theorem completes_atomic {c : Instr} {op : Nat} {g : Iss → Nat} {ar : Bool}
    (mem : (c, op, g, ar) ∈ [(Instr.atom a f, 0x48, intOp, false), (Instr.atomAr a f, 0x49, intOp, true),
      (Instr.atomf a f, 0x4A, fpOp, false), (Instr.atomfAr a f, 0x4B, fpOp, true)]) (h : Issues s u a op f t i)
    (lane : OneLane u u2 i n (memAddr i n) pa .store)
    (performed : accAtomic (t.acc (fHint i.w) (fFill i.w)) pa (atomWork g t i n pa) u2 = some (.ok v false, u3))
    (found : findTroupe u3 t.at_ = some t) :
    Completes c s (fun o => ∃ y, Moved t i y ∧ y.sregs = t.sregs ∧
      readGroup y n (fD i.w) (sizeRegs (fSize i.w)) = sectorWord (pa % 32) (sizeBytes (fSize i.w)) v ∧
      VecBut t [n] (fD i.w) (sizeRegs (fSize i.w)) y ∧
      (ar = false ∨ fScope i.w = 0 → o = putTroupe y (atomTail t pa u3)) ∧
      (ar = true → fScope i.w ≠ 0 → o = putTroupe y (invalL1 t.die t.cluster (atomTail t pa u3)))) := by
  have stepped := Issues.stepped h
  have done := atomicEff_of_one stepped lane performed
  obtain ⟨one, -, -⟩ := lane
  obtain ⟨size, exec_⟩ : op % 256 / 32 = 2 ∧
      exec c s = coreOp a op f (if ar then atomicArEff g else atomicEff g) s := by
    simp only [List.mem_cons, List.not_mem_nil, or_false, Prod.mk.injEq] at mem
    rcases mem with ⟨rfl, rfl, rfl, rfl⟩ | ⟨rfl, rfl, rfl, rfl⟩ | ⟨rfl, rfl, rfl, rfl⟩ | ⟨rfl, rfl, rfl, rfl⟩ <;>
      exact ⟨rfl, rfl⟩
  have fits := sectorWord_lt (pa % 32) (Issues.size_le h size) v
  by_cases wide : ar = true ∧ fScope i.w ≠ 0
  · obtain ⟨rfl, wide⟩ := wide
    refine completes_of_group (v := invalL1 t.die t.cluster (atomTail t pa u3)) h one exec_ ?_ found fits
      fun y _ moved sregs value others => ⟨y, moved, sregs, value, others,
        fun narrow => absurd narrow (by simpa using wide), fun _ _ => rfl⟩
    rw [if_pos rfl, atomicArEff, one, done, if_neg (by simpa using wide)]
    exact thenInval_of_only stepped (onlyVecs_writeGroup _ _ _ _ (.refl _)) _
  · refine completes_of_group (v := atomTail t pa u3) h one exec_ ?_ found fits
      fun y _ moved sregs value others => ⟨y, moved, sregs, value, others, fun _ => rfl,
        fun acq scope => absurd ⟨acq, scope⟩ wide⟩
    cases ar with
    | false => exact done
    | true =>
      have core : fScope i.w = 0 := by simpa using wide
      rw [if_pos rfl, atomicArEff, core, if_pos (by rfl), done]

/-- Settles O47: with one executing lane the frame of an access hands its work one address, and what the work answers
is the group, or the bytes, of that lane. -/
theorem loadsStoresAndAtomics : Obligations.LoadsStoresAndAtomics :=
  ⟨⟨fun _ _ _ _ _ _ _ _ _ _ _ _ _ => completes_load, fun _ _ _ _ _ _ _ _ _ _ => completes_ldu,
    fun _ _ _ _ _ _ => completes_pref, fun _ _ _ _ _ _ _ _ _ _ _ _ _ _ => completes_store⟩,
    fun _ _ _ _ _ _ _ _ _ _ _ _ _ _ _ => completes_atomic⟩

end Sys2Proof.Machine
end

section
/-! PROOFS. The local store, fences, REDST, LDKV and STKV (R147, R150, R151, R152, R155, R311, R347). -/

namespace Sys2Proof.Machine

/-! ### Bytes of the window -/

theorem localGet_lt (m : SMap Byte) (b k : Nat) : localGet m b k < 2 ^ (8 * k) := by
  induction k generalizing b with
  | zero => exact Nat.one_pos
  | succ k ih =>
    have low := (SMap.get 0 m b).isLt
    have high := ih (b + 1)
    rw [localGet, show 8 * (k + 1) = 8 + 8 * k by ring, pow_add]
    omega

theorem get_localPut_outside {b k c : Nat} (out : c < b ∨ b + k ≤ c) (x : Nat) (m : SMap Byte) :
    SMap.get 0 (localPut b k x m) c = SMap.get 0 m c := by
  induction k generalizing b x m with
  | zero => rfl
  | succ k ih =>
    have other : c ≠ b := by omega
    rw [localPut, ih (by omega), SMap.get_set_ne _ _ _ _ _ _ other]

theorem get_localPut_first (b k x : Nat) (m : SMap Byte) :
    SMap.get 0 (localPut b (k + 1) x m) b = BitVec.ofNat 8 x :=
  (get_localPut_outside (.inl (Nat.lt_succ_self b)) (x / 256) _).trans (SMap.get_set_same ..)

theorem get_localPut_inside {b k j : Nat} (hj : j < k) (x : Nat) (m : SMap Byte) :
    SMap.get 0 (localPut b k x m) (b + j) = BitVec.ofNat 8 (x / 256 ^ j) := by
  induction k generalizing b j x m with
  | zero => omega
  | succ k ih =>
    cases j with
    | zero =>
      rw [pow_zero, Nat.div_one]
      exact get_localPut_first b k x m
    | succ j =>
      have later := ih (b := b + 1) (j := j) (by omega) (x / 256) (SMap.set 0 m b (BitVec.ofNat 8 x))
      rw [Nat.div_div_eq_div_mul, ← pow_succ', Nat.add_right_comm] at later
      exact later

theorem localGet_congr {m m' : SMap Byte} {b k : Nat} (same : ∀ c, b ≤ c → SMap.get 0 m' c = SMap.get 0 m c) :
    localGet m' b k = localGet m b k := by
  induction k generalizing b with
  | zero => rfl
  | succ k ih => rw [localGet, localGet, same b le_rfl, ih fun c hc => same c (by omega)]

theorem localGet_localPut (b k x : Nat) (m : SMap Byte) : localGet (localPut b k x m) b k = x % 2 ^ (8 * k) := by
  induction k generalizing b x m with
  | zero => rw [Nat.mul_zero, pow_zero, Nat.mod_one]; rfl
  | succ k ih =>
    rw [localGet, get_localPut_first, localPut, ih, BitVec.toNat_ofNat, show 8 * (k + 1) = 8 + 8 * k by ring, pow_add, Nat.mod_mul]
    rfl

/-! ### The frame of a local access -/

theorem Stepped.findStore {t : Troupe} {i : Iss} (h : Stepped t i) (s : State) : findStore s i.t = findStore s t :=
  (congrArg (Machine.findStore s) h.rest).trans rfl

theorem Stepped.storeBytes {t : Troupe} {i : Iss} (h : Stepped t i) (s : State) : storeBytes s i.t = storeBytes s t :=
  (congrArg (Machine.storeBytes s) h.rest).trans rfl

/-- Lane `n` alone accesses the window at an aligned address inside it. -/
structure InWindow (u : State) (t : Troupe) (i : Iss) (n : Nat) (x : LocalStore) : Prop where
  one : i.act = [n]
  aligned : localAddr i n % sizeBytes (fSize i.w) = 0
  inside : localAddr i n < storeBytes u t
  found : findStore u t = some x

theorem InWindow.localEff {u : State} {t : Troupe} {i : Iss} {n : Nat} {x : LocalStore} (w : InWindow u t i n x)
    (h : Stepped t i) (act : Iss → Addrs → LocalStore → State → Eff) :
    localEff act i u = act i [(n, localAddr i n)] x u := by
  have outside : [(n, localAddr i n)].find? (fun y => Nat.ble (Machine.storeBytes u i.t) y.2) = none := by
    rw [List.find?_eq_none]
    intro y hy
    rw [List.mem_singleton.1 hy, h.storeBytes]
    exact fun le => absurd (Nat.le_of_ble_eq_true le) (not_le.2 w.inside)
  rw [Machine.localEff, w.one, List.map_singleton, misaligned_of_one w.aligned]
  dsimp only
  rw [outside, h.findStore, w.found]

theorem findStore_putStore {s : State} {t : Troupe} {x y : LocalStore} (found : findStore s t = some x)
    (same : y.queue = x.queue ∧ y.index = x.index ∧ y.die = x.die ∧ y.cluster = x.cluster) :
    findStore (putStore y s) t = some y := by
  have named : Nat.beq x.queue t.queue && x.index == t.index && Nat.beq x.die t.die && Nat.beq x.cluster t.cluster :=
    List.find?_some (p := fun x : LocalStore => Nat.beq x.queue t.queue && x.index == t.index && Nat.beq x.die t.die &&
      Nat.beq x.cluster t.cluster) found
  simp only [Bool.and_eq_true, Nat.beq_eq, beq_iff_eq] at named
  obtain ⟨⟨⟨queue, index⟩, die⟩, cluster⟩ := named
  obtain ⟨queue', index', die', cluster'⟩ := same
  have tests : (fun z : LocalStore => Nat.beq y.queue z.queue && y.index == z.index && Nat.beq y.die z.die &&
      Nat.beq y.cluster z.cluster) = (fun z => Nat.beq z.queue t.queue && z.index == t.index && Nat.beq z.die t.die &&
      Nat.beq z.cluster t.cluster) := by
    funext z
    rw [queue', index', die', cluster', queue, index, die, cluster, Bool.eq_iff_iff]
    simp only [Bool.and_eq_true, Nat.beq_eq, beq_iff_eq]
    exact ⟨fun ⟨⟨⟨a, b⟩, c⟩, d⟩ => ⟨⟨⟨a.symm, b.symm⟩, c.symm⟩, d.symm⟩,
      fun ⟨⟨⟨a, b⟩, c⟩, d⟩ => ⟨⟨⟨a.symm, b.symm⟩, c.symm⟩, d.symm⟩⟩
  refine (congrArg (fun same => (updWhere same (fun _ => y) s.core.stores).find? (fun z => Nat.beq z.queue t.queue &&
    z.index == t.index && Nat.beq z.die t.die && Nat.beq z.cluster t.cluster)) tests).trans ?_
  refine (find?_updWhere_const ?_ _).trans (congrArg _ found)
  simp only [queue', index', die', cluster', queue, index, die, cluster, Nat.beq_refl, beq_self_eq_true, Bool.and_self]

/-! ### The local opcodes -/

variable {s u : State} {a : Issue} {f : BitVec 56} {t : Troupe} {i : Iss} {n : Nat} {x : LocalStore}

theorem completes_ldl (h : Issues s u a 0x44 f t i) (w : InWindow u t i n x) :
    Completes (.ldl a f) s (fun o => ∃ y, o = putTroupe y u ∧ Moved t i y ∧ y.sregs = t.sregs ∧
      readGroup y n (fD i.w) (sizeRegs (fSize i.w)) =
        loadValue i.w (localGet x.bytes (localAddr i n) (sizeBytes (fSize i.w))) ∧
      VecBut t [n] (fD i.w) (sizeRegs (fSize i.w)) y) := by
  have size := Nat.pow_le_pow_right (n := 2) (by decide) (size_fits (Issues.size_le h rfl))
  exact completes_of_group h w.one rfl (w.localEff (Issues.stepped h) _) (Issues.found h)
    (loadValue_lt ((localGet_lt ..).trans_le size)) fun y _ moved sregs value others => ⟨y, rfl, moved, sregs, value, others⟩

theorem completes_stl (h : Issues s u a 0x45 f t i) (w : InWindow u t i n x) :
    Completes (.stl a f) s (fun o => ∃ x', findStore o t = some x' ∧ o.slc = u.slc ∧ o.regs = u.regs ∧
      (∀ k, k < sizeBytes (fSize i.w) → SMap.get 0 x'.bytes (localAddr i n + k) =
        BitVec.ofNat 8 (readGroup t n (fD i.w) (sizeRegs (fSize i.w)) / 256 ^ k)) ∧
      (∀ b, b < localAddr i n ∨ localAddr i n + sizeBytes (fSize i.w) ≤ b →
        SMap.get 0 x'.bytes b = SMap.get 0 x.bytes b)) := by
  refine completes_of_untouched h rfl (w.localEff (Issues.stepped h) _)
    (show findTroupe u t.at_ = some t from Issues.found h) fun _ _ _ =>
    ⟨_, findStore_putStore (s := u) (y := { x with bytes := _ }) w.found ⟨rfl, rfl, rfl, rfl⟩, rfl, rfl, fun k hk => ?_,
      fun b out => get_localPut_outside out _ _⟩
  dsimp only [List.foldl_cons, List.foldl_nil]
  rw [get_localPut_inside hk, Issues.readGroup h]

/-- SIZE of ATOML is 4 or 8 bytes. -/
theorem size_of_legal_atoml {alloc : Nat} {f : BitVec 56} (ok : legal alloc (wordOf 0x4C f) = true) :
    fSize (wordOf 0x4C f) = 2 ∨ fSize (wordOf 0x4C f) = 3 := by
  have sizes : ∀ k < 8, Nat.testBit 0x0C k = true → k = 2 ∨ k = 3 := by decide
  obtain ⟨r, row, size⟩ := exists_row_of_legal_mem (by rfl) ok
  obtain rfl : ⟨0x4C, mVD + mLoc + mSX + mMOm, 0x0C, 0xFF⟩ = r := Option.some.inj row
  exact sizes _ (fSize_lt _) size

theorem readGroup_lt (t : Troupe) (n r k : Nat) : readGroup t n r k < 2 ^ (32 * k) := by
  induction k generalizing r with
  | zero => exact Nat.one_pos
  | succ k ih =>
    have low := (t.v r n).isLt
    have high := ih (r + 1)
    rw [readGroup, Nat.mul_succ, Nat.add_comm (32 * k), pow_add]
    omega

theorem atomInt_lt {w old x y : Nat} (op : Nat) (signed : Bool) (hold : old < 2 ^ w) (hx : x < 2 ^ w) (hy : y < 2 ^ w) :
    atomInt w op signed old x y < 2 ^ w := by
  unfold atomInt
  extract_lets less
  clear_value less
  split
  · exact Nat.mod_lt _ (Nat.two_pow_pos w)
  · split <;> assumption
  · split <;> assumption
  · exact Nat.and_lt_two_pow _ hx
  · exact Nat.or_lt_two_pow hold hx
  · exact Nat.xor_lt_two_pow hold hx
  · exact hx
  · split <;> assumption

theorem completes_atoml (h : Issues s u a 0x4C f t i) (w : InWindow u t i n x) :
    Completes (.atoml a f) s (fun o => ∃ y x', findTroupe o t.at_ = some y ∧ findStore o t = some x' ∧ o.slc = u.slc ∧
      readGroup y n (fD i.w) (sizeRegs (fSize i.w)) = localGet x.bytes (localAddr i n) (sizeBytes (fSize i.w)) ∧
      localGet x'.bytes (localAddr i n) (sizeBytes (fSize i.w)) =
        atomInt (8 * sizeBytes (fSize i.w)) (fModM i.w) (fSext i.w)
          (localGet x.bytes (localAddr i n) (sizeBytes (fSize i.w)))
          (readGroup t n (fD i.w) (sizeRegs (fSize i.w)))
          (readGroup t n (fD i.w + sizeRegs (fSize i.w)) (sizeRegs (fSize i.w)))) := by
  have width : 32 * sizeRegs (fSize i.w) = 8 * sizeBytes (fSize i.w) := by
    rcases (Issues.word h) ▸ size_of_legal_atoml (Issues.legal h) with size | size <;> rw [size] <;> rfl
  have old := localGet_lt x.bytes (localAddr i n) (sizeBytes (fSize i.w))
  have done := w.localEff (Issues.stepped h) (fun i l x s =>
    .done (atomlLanes i l x.bytes i.t).1 (putStore { x with bytes := (atomlLanes i l x.bytes i.t).2 } s))
  have fits : localGet x.bytes (localAddr i n) (sizeBytes (fSize i.w)) < 2 ^ (32 * sizeRegs (fSize i.w)) := width ▸ old
  refine completes_of_group h w.one (eff := atomlEff) rfl done
    (show findTroupe u t.at_ = some t from Issues.found h) fits fun y place _ _ value _ =>
    ⟨y, _, ?_, findStore_putStore (s := u) (y := { x with bytes := _ }) w.found ⟨rfl, rfl, rfl, rfl⟩, rfl, value, ?_⟩
  · exact place ▸ findTroupe_putTroupe (place.symm ▸ Issues.found h)
  · refine (localGet_localPut ..).trans ?_
    rw [Issues.readGroup h, Issues.readGroup h]
    exact Nat.mod_eq_of_lt (atomInt_lt _ _ old (width ▸ readGroup_lt ..) (width ▸ readGroup_lt ..))

/-! ### Fences -/

theorem completes_fence (h : Issues s u a 0x4D f t i) (some_ : i.act ≠ []) :
    Completes (.fence a f) s (fun o => ∃ y, Moved t i y ∧ y.vregs = t.vregs ∧ y.sregs = t.sregs ∧
      (fScope i.w = 0 → o = putTroupe y u) ∧ (fScope i.w ≠ 0 → o = putTroupe y (invalL1 t.die t.cluster u))) := by
  have stepped := Issues.stepped h
  by_cases core : fScope i.w = 0
  · refine completes_of_untouched h (eff := fenceEff) rfl ?_ (Issues.found h)
      fun moved vregs sregs => ⟨_, moved, vregs, sregs, fun _ => rfl, fun wide => absurd core wide⟩
    rw [fenceEff, core]
    rfl
  · refine completes_of_untouched (v := invalL1 t.die t.cluster u) h (eff := fenceEff) rfl ?_ (show findTroupe u t.at_ = some t from Issues.found h)
      fun moved vregs sregs => ⟨_, moved, vregs, sregs, fun narrow => absurd narrow core, fun _ => rfl⟩
    rw [fenceEff, if_neg (by simp [core, some_]), stepped.die, show i.t.cluster = t.cluster from congrArg (·.cluster) stepped.rest]

theorem completes_l1inv (h : Issues s u a 0xA4 f t i) (some_ : i.act ≠ []) :
    Completes (.l1inv a f) s (fun o => ∃ y, Moved t i y ∧ y.vregs = t.vregs ∧ y.sregs = t.sregs ∧
      o = putTroupe y (invalL1 t.die t.cluster u) ∧ ∀ z ∈ o.core.l1, ¬(z.die = t.die ∧ z.cluster = t.cluster)) := by
  have stepped := Issues.stepped h
  refine completes_of_untouched (v := invalL1 t.die t.cluster u) h (eff := l1invEff) rfl ?_
    (show findTroupe u t.at_ = some t from Issues.found h)
    fun moved vregs sregs => ⟨_, moved, vregs, sregs, rfl, fun z member => ?_⟩
  · rw [l1invEff, onceEff_of_act some_, stepped.die, show i.t.cluster = t.cluster from congrArg (·.cluster) stepped.rest]
  · have kept := (List.mem_filter.1 member).2
    rw [Bool.not_eq_true', ← Bool.not_eq_true, Bool.and_eq_true, Nat.beq_eq, Nat.beq_eq] at kept
    exact kept

/-! ### REDST -/

/-- A free-mode contribution meets its own router first: no lane is crossed on the way. -/
theorem contribute_of_free {c : Nat} {p : RedPkt} {s : State} (free : treeOf s p.key.part p.key.tag = none)
    (mode : p.fixed = false) : contribute c p s = { s with net := { s.net with redNet := s.net.redNet ++
      [⟨p, .router p.src c, .router p.src c :: routeTo s p.key.part (.router p.src c) (slicePlace s p)⟩] } } := by
  have stays : laneStep s (.router p.src c) (.router p.src c) = none := by
    rw [laneStep, if_neg]
    simp
  have walk : redWalk p (some p.src) (some p.dst) (.router p.src c) [.router p.src c] s = (true, s) := by
    rw [redWalk, redStep, stays]
    rfl
  rw [contribute, free]
  dsimp only [Option.map_none, Option.getD_none]
  rw [if_neg Bool.false_ne_true, mode, if_neg Bool.false_ne_true, sendRed]
  dsimp only
  rw [mode, if_neg Bool.false_ne_true, List.take_succ_cons, List.take_zero, walk]
  rfl

theorem Stepped.treeOf {t : Troupe} {i : Iss} (h : Stepped t i) (s : State) (tag : Nat) :
    treeOf s i.t.part tag = treeOf s t.part tag := by
  rw [show i.t.part = t.part from congrArg (·.part) h.rest]

theorem completes_redst {u2 : State} {pa : Nat} (h : Issues s u a 0x4E f t i) (one : i.act = [n])
    (aligned : redAddr i n % 4 = 0) (there : translate i.t.xby (redAddr i n) .store u = some (.pa pa, u2))
    (free : treeOf u2 t.part (fImm20 i.w % 4096) = none) (found : findTroupe u2 t.at_ = some t) :
    Completes (.redst a f) s (fun o => ∃ y, o = putTroupe y (contribute t.cluster (redPkt1 u2 i pa (redValue i n)) u2) ∧
      Moved t i y ∧ y.vregs = t.vregs ∧ y.sregs = t.sregs ∧
      o.net.redNet = u2.net.redNet ++ [⟨redPkt1 u2 i pa (redValue i n), .router t.die t.cluster,
        .router t.die t.cluster :: routeTo u2 t.part (.router t.die t.cluster)
          (slicePlace u2 (redPkt1 u2 i pa (redValue i n)))⟩]) := by
  have stepped := Issues.stepped h
  have free' := (stepped.treeOf u2 (fImm20 i.w % 4096)).trans free
  have part : i.t.part = t.part := congrArg (·.part) stepped.rest
  have cluster : i.t.cluster = t.cluster := congrArg (·.cluster) stepped.rest
  have mode : (redPkt1 u2 i pa (redValue i n)).fixed = false := congrArg Option.isSome free'
  have sent := contribute_of_free (c := t.cluster) (p := redPkt1 u2 i pa (redValue i n)) free' mode
  refine completes_of_untouched (v := contribute t.cluster (redPkt1 u2 i pa (redValue i n)) u2) h (eff := redstEff) rfl ?_
    (by rw [sent]; exact found) fun moved vregs sregs => ⟨_, rfl, moved, vregs, sregs, ?_⟩
  · rw [redstEff, memEff_of_one one aligned there, cluster]
    rfl
  · refine (congrArg (fun v : State => v.net.redNet) sent).trans ?_
    rw [show (redPkt1 u2 i pa (redValue i n)).src = t.die from stepped.die,
      show (redPkt1 u2 i pa (redValue i n)).key.part = t.part from part]

/-! ### LDKV and STKV -/

theorem Stepped.kvBacksOff {t : Troupe} {i : Iss} (h : Stepped t i) (s : State) : kvBacksOff s i.t = kvBacksOff s t :=
  (congrArg (Machine.kvBacksOff s) h.rest).trans rfl

/-- The frame of a KV access of one lane. -/
theorem kvEff_of_one {store : Bool} {act : Iss → Addrs → State → Eff} {u1 u2 : State} {va pa : Nat} (h : Stepped t i)
    (goes : kvBacksOff u t = false) (one : i.act = [n]) (named : kvAddr i store n u = some (.va va, u1))
    (aligned : va % sizeBytes (fSize i.w) = 0)
    (there : translate i.t.xby va (if store then .store else .load) (unholdKv i.t u1) = some (.pa pa, u2)) :
    kvEff store act i u = act i [(n, pa)] u2 := by
  have all : kvAll i store [n] u = some (.all [(n, va)], u1) := by
    rw [kvAll, named]
    rfl
  rw [kvEff, h.kvBacksOff, goes, if_neg Bool.false_ne_true, one, all]
  dsimp only
  rw [misaligned_of_one aligned]
  dsimp only
  rw [xlateAll_of_one there]

theorem completes_ldkv {u1 u2 u3 : State} {va pa : Nat} {v : SectorData} (h : Issues s u a 0x4F f t i)
    (goes : kvBacksOff u t = false) (one : i.act = [n]) (named : kvAddr i false n u = some (.va va, u1))
    (aligned : va % sizeBytes (fSize i.w) = 0)
    (there : translate i.t.xby va .load (unholdKv i.t u1) = some (.pa pa, u2))
    (loaded : loadSector i.t (fHint i.w) (fFill i.w) false pa u2 = some (.ok v false, u3))
    (found : findTroupe u3 t.at_ = some t) :
    Completes (.ldkv a f) s (fun o => ∃ y, o = putTroupe y u3 ∧ Moved t i y ∧ y.sregs = t.sregs ∧
      readGroup y n (fD i.w) (sizeRegs (fSize i.w)) =
        loadValue i.w (sectorWord (pa % 32) (sizeBytes (fSize i.w)) v) ∧
      VecBut t [n] (fD i.w) (sizeRegs (fSize i.w)) y) :=
  completes_of_group h one (eff := ldkvEff) rfl
    ((kvEff_of_one (Issues.stepped h) goes one named aligned there).trans (loadLanes_of_one loaded)) found
    (loadValue_lt (sectorWord_lt (pa % 32) (Issues.size_le h rfl) v))
    fun y _ moved sregs value others => ⟨y, rfl, moved, sregs, value, others⟩

theorem completes_stkv {u1 u2 u3 : State} {va pa : Nat} {v : SectorData} {p : Bool} (h : Issues s u a 0x50 f t i)
    (goes : kvBacksOff u t = false) (one : i.act = [n]) (named : kvAddr i true n u = some (.va va, u1))
    (aligned : va % sizeBytes (fSize i.w) = 0)
    (there : translate i.t.xby va .store (unholdKv i.t u1) = some (.pa pa, u2))
    (written : accWrite (t.acc (fHint i.w) (fFill i.w)) (pa / 32 * 32) (byteMask (pa % 32) (sizeBytes (fSize i.w)))
      (storeData t i.w n pa) u2 = some (.ok v p, u3)) (found : findTroupe u3 t.at_ = some t) :
    Completes (.stkv a f) s (fun o => ∃ y, Moved t i y ∧ y.vregs = t.vregs ∧ y.sregs = t.sregs ∧
      o = putTroupe y (storeTail t i.w n pa u3)) :=
  completes_of_untouched h (eff := stkvEff) rfl ((kvEff_of_one (Issues.stepped h) goes one named aligned there).trans
    (storeSectors_of_one (Issues.stepped h) u2 written)) found fun moved vregs sregs => ⟨_, moved, vregs, sregs, rfl⟩

theorem completes_kv_of_backsOff (goes : kvBacksOff u t = true) :
    (Issues s u a 0x4F f t i → Completes (.ldkv a f) s (fun o => o = u)) ∧
    (Issues s u a 0x50 f t i → Completes (.stkv a f) s (fun o => o = u)) := by
  have waits {op : Nat} (h : Issues s u a op f t i) (store : Bool) (act : Iss → Addrs → State → Eff) :
      kvEff store act i u = .wait := by
    rw [kvEff, (Issues.stepped h).kvBacksOff, goes, if_pos rfl]
  refine ⟨fun h => ⟨_, coreOp_of_issues h ldkvEff, ?_⟩, fun h => ⟨_, coreOp_of_issues h stkvEff, ?_⟩⟩
  · rw [ldkvEff, waits h]
  · rw [stkvEff, waits h]

/-! ### An LDKV that a step fence holds -/

/-- A back-off changes what the requesters wait for, and nothing else of a slice. -/
structure RetryOnly (s o : State) : Prop where
  core : o.core = s.core
  que : o.que = s.que
  slc : { o.slc with retry := s.slc.retry } = s.slc

theorem endBackOff_retryOnly (r : Nat) (what : RetryOf) (s : State) : RetryOnly s (endBackOff r what s) := by
  unfold endBackOff
  split
  · exact ⟨rfl, rfl, rfl⟩
  · exact ⟨rfl, rfl, rfl⟩

theorem kvNack_retryOnly (t : Troupe) (s : State) : RetryOnly s (kvNack t s) := by
  have ended := endBackOff_retryOnly (kvRequester t) (.kv t.at_) s
  exact ⟨ended.core, ended.que, ended.slc⟩

theorem backOff_pos (k : Nat) : 0 < backOff k := Nat.lt_min.2 ⟨by positivity, by decide⟩

theorem requester_retryOf (s : State) (q : Nat) : (retryOf s q).requester = q := by
  unfold retryOf
  cases listed : s.slc.retry.find? (fun r => Nat.beq r.requester q) with
  | none => rfl
  | some r => exact Nat.eq_of_beq_eq_true (List.find?_some (p := fun r : Retry => Nat.beq r.requester q) listed)

theorem retryOf_putRetry {r : Retry} {q : Nat} (named : r.requester = q) (s : State) : retryOf (putRetry r s) q = r := by
  subst named
  refine congrArg (Option.getD · _) (find?_putWhere_same (p := fun x : Retry => Nat.beq x.requester r.requester) _ ?_)
  exact Nat.beq_refl _

/-- After a NACK-RETRY the troupe's LDKV backs off. -/
theorem kvBacksOff_kvNack (t : Troupe) (s : State) : kvBacksOff (kvNack t s) t = true := by
  have wait (k : Nat) (j : Nat) : Nat.blt 0 (backOff k + j) = true :=
    Nat.blt_eq ▸ Nat.lt_of_lt_of_le (backOff_pos k) (Nat.le_add_right ..)
  rw [kvBacksOff, kvNack, backOffFor]
  rw [retryOf_putRetry]
  · rw [List.any_append, List.any_cons, wait, beq_self_eq_true]
    exact Bool.or_true _
  · exact requester_retryOf ..

/-- The troupe of an LDKV that cannot proceed stays where it is. -/
theorem completes_ldkv_held {u1 : State} {b : Nat} (h : Issues s u a 0x4F f t i) (goes : kvBacksOff u t = false)
    (one : i.act = [n]) (held : kvAddr i false n u = some (.held b, u1)) {P : State → Prop}
    (holds : P (holdKv t (t.pair (fSB i.w) % 2 ^ 14) b u1)) : Completes (.ldkv a f) s P := by
  have stepped := Issues.stepped h
  have all : kvAll i false [n] u = some (.held b, u1) := by
    rw [kvAll, held]
    rfl
  have same : holdKv i.t (t.pair (fSB i.w) % 2 ^ 14) b u1 = holdKv t (t.pair (fSB i.w) % 2 ^ 14) b u1 :=
    (congrArg (holdKv · (t.pair (fSB i.w) % 2 ^ 14) b u1) stepped.rest).trans rfl
  refine ⟨_, coreOp_of_issues h ldkvEff, ?_⟩
  rw [ldkvEff, kvEff, stepped.kvBacksOff, goes, if_neg Bool.false_ne_true, one, all]
  dsimp only
  rwa [stepped.pair, same]

theorem findTroupe_of_core {s o : State} (same : o.core = s.core) (p : SlotAt) : findTroupe o p = findTroupe s p :=
  congrArg (fun c : Cores => c.troupes.find? (troupeIn p)) same

/-- The engine notes the held read. -/
theorem holdKv_of_room {id b : Nat} (room : (s.que.heldKv.filter (fun h => Nat.beq (h.seq / 256) (id / 256))).length < 1024) :
    (holdKv t id b s).core = s.core ∧ { (holdKv t id b s).slc with retry := s.slc.retry } = s.slc ∧
      ∃ h ∈ (holdKv t id b s).que.heldKv, h.seq = id ∧ h.slot = t.at_ ∧ h.block = b := by
  by_cases noted : s.que.heldKv.any (fun h => Nat.beq h.seq id && h.slot == t.at_ && Nat.beq h.block b) = true
  · have same : holdKv t id b s = s := by rw [holdKv, if_pos noted]
    obtain ⟨h, member, named⟩ := List.any_eq_true.1 noted
    simp only [Bool.and_eq_true, Nat.beq_eq, beq_iff_eq] at named
    obtain ⟨⟨seq, slot⟩, block⟩ := named
    rw [same]
    exact ⟨rfl, rfl, h, member, seq, slot, block⟩
  · have ended := endBackOff_retryOnly (kvRequester t) (.kv t.at_) s
    have counted (v : State) (n : Nat) := State.peak_keeps (F := { noFrame with regs := True }) trivial (id / 256)
      Reg.SEQ_HELD_PEAK n (State.count_keeps trivial (id / 256) Reg.SEQ_FENCE_HOLDS 1 (.refl _ v))
    rw [holdKv, if_neg noted, if_neg (not_le.2 room)]
    dsimp only
    rw [(counted _ _).core not_false, (counted _ _).slc not_false, (counted _ _).que not_false]
    exact ⟨ended.core, ended.slc, ⟨id, t.at_, b⟩, List.mem_append_right _ (List.mem_singleton_self _), rfl, rfl, rfl⟩

/-- A full engine turns the read away. -/
theorem holdKv_of_full {id b : Nat}
    (full : 1024 ≤ (s.que.heldKv.filter (fun h => Nat.beq (h.seq / 256) (id / 256))).length)
    (fresh : ∀ h ∈ s.que.heldKv, h.slot ≠ t.at_) : holdKv t id b s = kvNack t s := by
  rw [holdKv, if_neg, if_pos full]
  rw [List.any_eq_true]
  rintro ⟨h, member, named⟩
  simp only [Bool.and_eq_true, beq_iff_eq] at named
  exact fresh h member named.1.2

theorem completes_ldkv_fenced {u1 : State} {b : Nat} (h : Issues s u a 0x4F f t i) (goes : kvBacksOff u t = false)
    (one : i.act = [n]) (held : kvAddr i false n u = some (.held b, u1)) (core : u1.core = u.core) :
    ((u1.que.heldKv.filter (fun h => Nat.beq (h.seq / 256) (t.pair (fSB i.w) % 2 ^ 14 / 256))).length < 1024 →
      Completes (.ldkv a f) s (fun o => findTroupe o t.at_ = some t ∧ { o.slc with retry := u1.slc.retry } = u1.slc ∧
        ∃ h ∈ o.que.heldKv, h.seq = t.pair (fSB i.w) % 2 ^ 14 ∧ h.slot = t.at_ ∧ h.block = b)) ∧
    (1024 ≤ (u1.que.heldKv.filter (fun h => Nat.beq (h.seq / 256) (t.pair (fSB i.w) % 2 ^ 14 / 256))).length →
      (∀ h ∈ u1.que.heldKv, h.slot ≠ t.at_) →
      Completes (.ldkv a f) s (fun o => findTroupe o t.at_ = some t ∧ o.que = u1.que ∧
        { o.slc with retry := u1.slc.retry } = u1.slc ∧ kvBacksOff o t = true)) := by
  have stays {o : State} (same : o.core = u1.core) : findTroupe o t.at_ = some t :=
    (findTroupe_of_core (same.trans core) _).trans (Issues.found h)
  refine ⟨fun room => completes_ldkv_held h goes one held ?_, fun full fresh => completes_ldkv_held h goes one held ?_⟩
  · obtain ⟨same, slc, noted⟩ := holdKv_of_room (t := t) (b := b) room
    exact ⟨stays same, slc, noted⟩
  · have only := kvNack_retryOnly t u1
    rw [holdKv_of_full full fresh]
    exact ⟨stays only.core, only.que, only.slc, kvBacksOff_kvNack t u1⟩

/-- Settles O48: a window access reads and writes bytes of the launch's store one by one; a fence wider than CORE
empties the cluster's L1; a contribution flies to its own router first (log 119), and a held LDKV leaves its troupe as
it was. -/
theorem localFencesReductionsAndKv : Obligations.LocalFencesReductionsAndKv :=
  ⟨⟨fun _ _ _ _ _ _ _ _ h one aligned inside found => completes_ldl h ⟨one, aligned, inside, found⟩,
    fun _ _ _ _ _ _ _ _ h one aligned inside found => completes_stl h ⟨one, aligned, inside, found⟩,
    fun _ _ _ _ _ _ _ _ h one aligned inside found => completes_atoml h ⟨one, aligned, inside, found⟩,
    fun _ _ _ _ _ _ => completes_fence, fun _ _ _ _ _ _ => completes_l1inv⟩,
    fun _ _ _ _ _ _ _ _ _ => completes_redst, fun _ _ _ _ _ _ _ _ _ _ _ _ _ => completes_ldkv,
    fun _ _ _ _ _ _ _ _ _ => completes_ldkv_fenced, fun _ _ _ _ _ _ => completes_kv_of_backsOff,
    fun _ _ _ _ _ _ _ _ _ _ _ _ _ _ => completes_stkv⟩

end Sys2Proof.Machine
end

section
/-! PROOFS. Placement (R163, R171, R174, Table TRP-2): a launch becomes resident, its next troupe takes a slot, and what
the troupe starts with. -/

namespace Sys2Proof.Machine

/-! ### Launches by name -/

theorem named_of_findLaunch {s : State} {q : Nat} {i : Word} {l : Launch} (h : findLaunch s q i = some l) :
    l.queue = q ∧ l.index = i := by
  simpa using List.find?_some (p := fun l : Launch => Nat.beq l.queue q && l.index == i) h

theorem findLaunch_putLaunch {s : State} {q : Nat} {i : Word} {l l' : Launch} (found : findLaunch s q i = some l)
    (queue : l'.queue = q) (index : l'.index = i) : findLaunch (putLaunch l' s) q i = some l' := by
  subst queue index
  have tests : sameLaunch l' = fun l : Launch => Nat.beq l.queue l'.queue && l.index == l'.index := by
    funext z
    rw [sameLaunch, Bool.eq_iff_iff]
    simp only [Bool.and_eq_true, Nat.beq_eq, beq_iff_eq]
    exact ⟨fun ⟨a, b⟩ => ⟨a.symm, b.symm⟩, fun ⟨a, b⟩ => ⟨a.symm, b.symm⟩⟩
  refine (congrArg (fun same => (updWhere same (fun _ => l') s.core.launches).find?
    (fun l : Launch => Nat.beq l.queue l'.queue && l.index == l'.index)) tests).trans ?_
  refine (find?_updWhere_const ?_ _).trans (congrArg _ found)
  simp only [Nat.beq_refl, beq_self_eq_true, Bool.and_self]

/-! ### Residence -/

/-- `t` is `s` but for its launches, local stores and caches. -/
def OnlyResidence (s t : State) : Prop := t = { s with core := { s.core with
  launches := t.core.launches, stores := t.core.stores, l1 := t.core.l1, icache := t.core.icache } }

theorem makeResident_onlyResidence (l : Launch) (k : Nat) (s : State) : OnlyResidence s (makeResident l k s) := by
  unfold makeResident
  split
  · rfl
  · dsimp only
    split
    · rfl
    · rfl

/-- The placement set of a launch rests on no launch, store or cache. -/
theorem OnlyResidence.launchSet {s t : State} (h : OnlyResidence s t) (l : Launch) : launchSet t l = launchSet s l := by
  rw [h]
  rfl

theorem exists_resident {s : State} {k : Nat} {l : Launch} (found : findLaunch s l.queue l.index = some l) :
    ∃ l', findLaunch (makeResident l k s) l.queue l.index = some l' ∧ k ∈ l'.resident ∧ l'.queue = l.queue ∧
      l'.index = l.index := by
  by_cases there : l.resident.contains k = true
  · exact ⟨l, by rw [makeResident, if_pos there]; exact found, List.contains_iff_mem.1 there, rfl, rfl⟩
  · refine ⟨{ l with resident := l.resident ++ [k] }, ?_, List.mem_append_right _ (List.mem_singleton_self k), rfl, rfl⟩
    have put := findLaunch_putLaunch (l' := { l with resident := l.resident ++ [k] })
      (s := invalIcache (k / 320) (k % 320) (invalL1 (k / 320) (k % 320) s)) found rfl rfl
    rw [makeResident, if_neg there]
    dsimp only
    split
    · exact put
    · exact put

/-! ### Placement -/

theorem exists_findIdx_of_nextIndex {s : State} {l : Launch} {k i : Nat} (next : nextIndex s l k = some i) :
    ∃ pos, (launchSet s l).findIdx? (fun x => Nat.beq x k) = some pos := by
  rw [nextIndex] at next
  cases place : (launchSet s l).findIdx? (fun x => Nat.beq x k) with
  | none => rw [place] at next; cases next
  | some pos => exact ⟨pos, rfl⟩

theorem nextIndex_of_nextLaunch {s : State} {k core i : Nat} {l : Launch} (next : nextLaunch s k = some (l, core, i)) :
    nextIndex s l k = some i := by
  have of_try {x : Launch} {r : Launch × Nat × Nat} (tried : ((placeCore s x k).bind fun c => (nextIndex s x k).map fun i => (x, c, i)) =
      some r) (same : r = (l, core, i)) : nextIndex s l k = some i := by
    obtain ⟨c, -, mapped⟩ := Option.bind_eq_some_iff.1 tried
    obtain ⟨j, index, rfl⟩ := Option.map_eq_some_iff.1 mapped
    simp only [Prod.mk.injEq] at same
    obtain ⟨rfl, -, rfl⟩ := same
    exact index
  unfold nextLaunch at next
  extract_lets wants try_ at next
  split at next
  next r first =>
    obtain ⟨x, -, tried⟩ := Option.bind_eq_some_iff.1 first
    exact of_try tried (Option.some.inj next)
  next =>
    split at next
    next x _ => exact of_try next rfl
    next => cases next

theorem completes_troupePlacement {s : State} {d c core i : Nat} {l : Launch} (hd : d < dieCount s.orderCode)
    (runs : clusterStopped s d c = false) (next : nextLaunch s (d * 320 + c) = some (l, core, i))
    (found : findLaunch s l.queue l.index = some l) : Completes (.troupePlacement d c) s (fun t =>
      t.core.troupes = s.core.troupes ++ [newTroupe s l (d * 320 + c) core i] ∧
      (∃ l', findLaunch t l.queue l.index = some l' ∧ (d * 320 + c) ∈ l'.resident) ∧
      t.regs = s.regs ∧ t.slc = s.slc ∧ t.que = s.que ∧ t.recs = s.recs) := by
  obtain ⟨pos, place⟩ := exists_findIdx_of_nextIndex (nextIndex_of_nextLaunch next)
  obtain ⟨l', found', inside, queue, index⟩ := exists_resident (k := d * 320 + c) found
  have only := makeResident_onlyResidence l (d * 320 + c) s
  have place' := (congrArg (List.findIdx? (fun x => Nat.beq x (d * 320 + c))) (only.launchSet l)).trans place
  have put := findLaunch_putLaunch (l' := { l' with placed := raise_ l'.placed pos }) found' queue index
  refine completes_of_onDie (execTroupePlacement d c s) rfl rfl hd ?_
  rw [troupePlacement]
  dsimp only
  rw [runs, if_neg Bool.false_ne_true, next]
  dsimp only
  rw [found', place']
  have troupes : (makeResident l (d * 320 + c) s).core.troupes = s.core.troupes := congrArg (·.core.troupes) only
  have same := And.intro (congrArg State.regs only) (And.intro (congrArg State.slc only)
    (And.intro (congrArg State.que only) (congrArg State.recs only)))
  exact ⟨congrArg (· ++ _) troupes, ⟨_, put, inside⟩, same⟩

theorem completes_troupePlacement_of_none {s : State} {d c : Nat} (hd : d < dieCount s.orderCode)
    (none_ : nextLaunch s (d * 320 + c) = none) : Completes (.troupePlacement d c) s (fun t => t = s) := by
  refine completes_of_onDie (execTroupePlacement d c s) rfl rfl hd ?_
  rw [troupePlacement]
  dsimp only
  split
  · rfl
  · rw [none_]

/-! ### The registers of a new troupe (Table TRP-2) -/

theorem get_set (m : SMap Lane) (q r : Nat) (v : Lane) :
    SMap.get 0 (SMap.set 0 m q v) r = if r = q then v else SMap.get 0 m r := by
  split
  next same => rw [same, SMap.get_set_same]
  next other => exact SMap.get_set_ne _ _ _ _ _ _ other

/-- Each scalar register of a new troupe. -/
theorem get_startScalars (l : Launch) (i n : Nat) : SMap.get 0 (startScalars l i) n =
    if n < 6 then BitVec.ofNat 32 (([l.args.toNat, l.args.toNat / 2 ^ 32, i, l.ntroupe, l.seq.getD 0xFFFFFFFF,
      l.step.toNat][n]?).getD 0)
    else if n < 13 then BitVec.ofNat 32 ((l.inline[n - 6]?).getD 0).toNat else 0 := by
  have seven : List.range 7 = [0, 1, 2, 3, 4, 5, 6] := rfl
  simp only [startScalars, seven, List.foldl_cons, List.foldl_nil, get_set]
  by_cases low : n < 13
  · interval_cases n <;> rfl
  · have none_ : SMap.get (0 : Lane) ([] : SMap Lane) n = 0 := rfl
    simp (disch := omega) only [if_neg, none_]

theorem newTroupe_starts (s : State) (l : Launch) (k core i : Nat) (seven : l.inline.length = 7) (t : Troupe)
    (new : t = newTroupe s l k core i) :
    t.threads = List.replicate 32 ⟨l.entry, false, none, 0, false, 0⟩ ∧ t.vregs = [] ∧
    t.pair 0 = l.args.toNat ∧ t.s 2 = BitVec.ofNat 32 i ∧ t.s 3 = BitVec.ofNat 32 l.ntroupe ∧
    t.s 4 = BitVec.ofNat 32 (l.seq.getD 0xFFFFFFFF) ∧ (t.s 5).toNat = l.step.toNat % 2 ^ 32 ∧
    (∀ j x, l.inline[j]? = some x → (t.s (6 + j)).toNat = x.toNat % 2 ^ 32) ∧ (∀ n, 13 ≤ n → t.s n = 0) := by
  subst new
  have reads (n : Nat) : (newTroupe s l k core i).s n = _ := get_startScalars l i n
  refine ⟨rfl, rfl, ?_, reads 2, reads 3, reads 4, ?_, fun j x hx => ?_, fun n hn => ?_⟩
  · have low : (newTroupe s l k core i).s 0 = BitVec.ofNat 32 l.args.toNat := reads 0
    have high : (newTroupe s l k core i).s 1 = BitVec.ofNat 32 (l.args.toNat / 2 ^ 32) := reads 1
    have below := l.args.isLt
    rw [Troupe.pair, Nat.mul_zero, Nat.zero_add, low, high, BitVec.toNat_ofNat, BitVec.toNat_ofNat]
    omega
  · rw [show (newTroupe s l k core i).s 5 = BitVec.ofNat 32 l.step.toNat from reads 5, BitVec.toNat_ofNat]
  · have below : j < 7 := seven ▸ (List.getElem?_eq_some_iff.1 hx).1
    rw [reads, if_neg (by omega), if_pos (by omega), Nat.add_sub_cancel_left, hx, BitVec.toNat_ofNat]
    rfl
  · rw [reads, if_neg (by omega), if_neg (by omega)]

/-- Settles O49: the core of the next placement is the model's reading (log 18), with none to place nothing changes
(log 58), and the scalar registers are set one by one. -/
theorem troupesStart : Obligations.TroupesStart :=
  ⟨fun _ _ _ _ _ _ => completes_troupePlacement, fun _ _ _ => completes_troupePlacement_of_none, newTroupe_starts⟩

end Sys2Proof.Machine
end

section
/-! PROOFS. Ends (R187, R188, R190, R203, R346): troupes and launches that leave the machine, KILL, and a failed cluster. -/

namespace Sys2Proof.Machine

/-! ### The end of a troupe -/

theorem findTroupe_dropTroupe (p : SlotAt) (s : State) : findTroupe (dropTroupe p s) p = none := by
  refine List.find?_eq_none.2 fun x hx => ?_
  have kept := (List.mem_filter.1 hx).2
  rw [Bool.not_eq_true'] at kept
  exact Bool.not_eq_true _ ▸ kept

/-- What a launch keeps when it leaves a cluster. -/
theorem leaveCluster_spec {l : Launch} (k : Nat) {s : State} {q : Nat} {i : Word}
    (found : findLaunch s q i = some l) :
    (leaveCluster l k s).core.troupes = s.core.troupes ∧
    findLaunch (leaveCluster l k s) q i = some { l with resident := delNat l.resident k } ∧
    (leaveCluster l k s).regs = s.regs ∧ (leaveCluster l k s).slc = s.slc ∧ (leaveCluster l k s).que = s.que := by
  obtain ⟨queue, index⟩ := named_of_findLaunch found
  have put := findLaunch_putLaunch (l' := { l with resident := delNat l.resident k }) found queue index
  unfold leaveCluster
  dsimp only
  split
  · exact ⟨rfl, put, rfl, rfl, rfl⟩
  · exact ⟨rfl, put, rfl, rfl, rfl⟩

theorem completes_troupeEnd {s : State} {a : SlotAt} {x : Troupe} {l : Launch} (hd : a.die < dieCount s.orderCode)
    (found : findTroupe s a = some x) (exited : x.rest = []) (launch : findLaunch s x.queue x.index = some l) :
    Completes (.troupeEnd a) s (fun t =>
      findTroupe t a = none ∧ (∃ l', findLaunch t x.queue x.index = some l' ∧ l'.ended = l.ended + 1) ∧
      t.regs = s.regs ∧ t.slc = s.slc ∧ t.que = s.que) := by
  obtain rfl := at_of_findTroupe found
  obtain ⟨queue, index⟩ := named_of_findLaunch launch
  have gone := findTroupe_dropTroupe x.at_ s
  have put := findLaunch_putLaunch (s := dropTroupe x.at_ s) (l' := { l with ended := l.ended + 1 }) launch queue index
  refine completes_of_onDie (execTroupeEnd x.at_ s) rfl rfl hd ?_
  rw [troupeEnd, found]
  dsimp only
  rw [exited, List.isEmpty_nil, if_pos rfl, endTroupe]
  dsimp only
  rw [show findLaunch (dropTroupe x.at_ s) x.queue x.index = some l from launch]
  dsimp only
  split
  · obtain ⟨troupes, left, regs, slc, que⟩ := leaveCluster_spec (x.die * 320 + x.cluster) put
    refine ⟨?_, ⟨_, left, rfl⟩, regs, slc, que⟩
    exact (congrArg (List.find? (troupeIn x.at_)) troupes).trans gone
  · exact ⟨gone, ⟨_, put, rfl⟩, rfl, rfl, rfl⟩

theorem completes_troupeEnd_of_running {s : State} {a : SlotAt} {x : Troupe} (hd : a.die < dieCount s.orderCode)
    (found : findTroupe s a = some x) (runs : x.rest ≠ []) : Completes (.troupeEnd a) s (fun t => t = s) := by
  refine completes_of_onDie (execTroupeEnd a s) rfl rfl hd ?_
  rw [troupeEnd, found]
  dsimp only
  rw [if_neg (by simpa using runs)]

/-! ### The end of a launch -/

theorem tainted_detachStep (n : BitVec 32) (x : SeqSlot) :
    ({ detachStep n x with tainted := x.tainted || false } : SeqSlot) = detachStep n x := by
  rw [Bool.or_false]
  rfl

theorem completes_launchDetach {s : State} {q id : Nat} {i : Word} {l : Launch} {x : SeqSlot}
    (hd : queDie q < dieCount s.orderCode) (found : findLaunch s q i = some l) (ended : allEnded l = true)
    (one : l.attached = [id]) (seq : findSeq s id = some x) : Completes (.launchDetach q i) s (fun t =>
      findSeq t id = some (detachStep l.step x) ∧ findLaunch t q i = some { l with attached := [] } ∧
      t.regs = s.regs ∧ t.slc = s.slc) := by
  obtain ⟨queue, index⟩ := named_of_findLaunch found
  have detached : detach l false s = updSeq id (fun x => { detachStep l.step x with tainted := x.tainted || false }) s := by
    rw [detach, one]
    rfl
  refine completes_of_onDie (execLaunchDetach q i s) rfl rfl hd ?_
  rw [launchDetach, found]
  dsimp only
  rw [if_pos ended, detached]
  refine ⟨?_, findLaunch_putLaunch (l' := { l with attached := [] }) found queue index, rfl, rfl⟩
  refine (findSeq_updSeq_same (f := fun x => { detachStep l.step x with tainted := x.tainted || false })
    (fun _ same => same) seq).trans ?_
  rw [tainted_detachStep]

theorem findLaunch_of_filter {s : State} {q : Nat} {i : Word} {l : Launch} (queue : l.queue = q) (index : l.index = i)
    (core : Cores) (left : core.launches = s.core.launches.filter (fun x => !sameLaunch l x)) {t : State}
    (same : t.core = core) : findLaunch t q i = none := by
  subst queue index
  rw [findLaunch, same, left]
  refine List.find?_eq_none.2 fun x hx named => ?_
  have kept := (List.mem_filter.1 hx).2
  simp only [Bool.and_eq_true, Nat.beq_eq, beq_iff_eq] at named
  obtain ⟨queue, index⟩ := named
  rw [sameLaunch, queue, index, Nat.beq_refl, beq_self_eq_true] at kept
  cases kept

theorem detach_keeps_queue (l : Launch) (taint : Bool) (s : State) :
    (detach l taint s).que.itemsOut = s.que.itemsOut ∧ Keeps { noFrame with que := True } s (detach l taint s) := by
  refine ⟨?_, detach_keeps trivial l taint (.refl _ s)⟩
  unfold detach detachIds
  refine each_induction (P := fun v : State => v.que.itemsOut = s.que.itemsOut) (fun v id _ same => ?_) rfl
  exact same

/-- An item without CQE ends without a store or a record. -/
theorem completeItem_silent {s u : State} (q tag status kind index info : Nat) (irq : Bool) (regs : u.regs = s.regs)
    (slc : u.slc = s.slc) (recs : u.recs = s.recs) :
    (completeItem q tag status kind index info false irq u).regs = s.regs ∧
      (completeItem q tag status kind index info false irq u).slc = s.slc ∧
      (completeItem q tag status kind index info false irq u).recs = s.recs := by
  have kept := reportSectors_keeps (F := { noFrame with que := True }) trivial q
    (.refl _ { u with que := { u.que with itemsOut := lower u.que.itemsOut q } })
  exact ⟨(kept.regs id).trans regs, (kept.slc id).trans slc, (kept.recs id).trans recs⟩

theorem completes_launchRetire {s : State} {q : Nat} {i : Word} {l : Launch} (hd : queDie q < dieCount s.orderCode)
    (found : findLaunch s q i = some l) (ended : allEnded l = true) : Completes (.launchRetire q i) s (fun t =>
      findLaunch t q i = none ∧ t.que.itemsOut = lower s.que.itemsOut q ∧
      (l.cqe = false → t.regs = s.regs ∧ t.slc = s.slc ∧ t.recs = s.recs)) := by
  obtain ⟨queue, index⟩ := named_of_findLaunch found
  obtain ⟨items, kept⟩ := detach_keeps_queue l false s
  refine completes_of_onDie (execLaunchRetire q i s) rfl rfl hd ?_
  rw [launchRetire, found]
  dsimp only
  rw [if_pos ended]
  generalize detach l false s = u at items kept
  have core : u.core = s.core := kept.core id
  refine ⟨findLaunch_of_filter (s := u) queue index _ rfl ((completeItem_keeps_core ..).core id), ?_, fun silent => ?_⟩
  · rw [itemsOut_completeItem]
    exact congrArg (lower · q) items
  · rw [silent]
    exact completeItem_silent _ _ _ _ _ _ _ (kept.regs id) (kept.slc id) (kept.recs id)

/-! ### KILL -/

/-- KILL leaves no launch of the context of the die's queues. -/
theorem killReaches_launches (d p i c : Nat) (s : State) :
    ∀ l ∈ (killReaches d p i c s).core.launches, l.owner ≠ (d, p, i, c) := by
  have none_ : ∀ l ∈ (killOnDie d p i c s).core.launches, l.owner ≠ (d, p, i, c) := by
    unfold killOnDie
    extract_lets dropped mine ended underWay reach _ marked launchless
    have left : ∀ l ∈ marked.core.launches, l.owner ≠ (d, p, i, c) := fun l hl same => by
      have kept := (List.mem_filter.1 hl).2
      simp only [Launch.owner, Prod.mk.injEq] at same
      obtain ⟨die, part, inst, ctx⟩ := same
      simp [mine, launchTag, die, part, inst, ctx] at kept
    have ends : WorkFrom marked launchless := by
      unfold launchless
      split
      · exact .refl marked
      · exact .each (fun _ l => endLaunch_workFrom l) (.refl marked)
    intro l hl
    obtain ⟨l₀, h₀, same⟩ := (killMovers_workFrom _ ends).launches l hl
    exact same ▸ left l₀ h₀
  have after : WorkFrom (killOnDie d p i c s) (killReaches d p i c s) :=
    redBreakWhere_workFrom _ _ (closeKills_workFrom _ (.refl _))
  intro l hl
  obtain ⟨l₀, h₀, same⟩ := after.launches l hl
  exact same ▸ none_ l₀ h₀

theorem completes_kill {s : State} {d p i c : Nat} (hd : d < dieCount s.orderCode) (covered : dieIn s p d = true) :
    Completes (.kill d p i c) s (fun t => ctxKilled t p i c = true ∧
      (∀ x ∈ t.core.troupes, ¬(x.die = d ∧ x.part = p ∧ x.inst = i ∧ x.ctx = c)) ∧
      (∀ l ∈ t.core.launches, ¬(queDie l.queue = d ∧ l.part = p ∧ l.inst = i ∧ l.ctx = c))) := by
  refine completes_of_onDie (execKill d p i c s) rfl rfl hd ?_
  rw [covered, if_pos rfl]
  refine ⟨ctxKilled_killReaches .., fun x hx => ?_, fun l hl => ?_⟩
  · have kept := not_of_mem_dropTroupes ((killReaches_workFrom _ _ _ _ _).troupes hx)
    rintro ⟨rfl, rfl, rfl, rfl⟩
    simp [troupeTag] at kept
  · rintro ⟨rfl, rfl, rfl, rfl⟩
    exact killReaches_launches _ _ _ _ _ l hl rfl

/-! ### A failed cluster -/

/-- The machine as the failed cluster leaves it, before any partition faults. -/
def clusterLost (d c : Nat) (s : State) : State :=
  let ts := s.core.troupes.filter (fun t => Nat.beq t.die d && Nat.beq t.cluster c)
  let s := degrade d 0x0B ((halfPart s d (clusterSide c)).getD 0) 0 c 0
    (s.wrBit d (Reg.REC_FAIL_CLUSTER (c / 64)) (c % 64) true)
  invalL1 d c { s with core := { s.core with
    failed := addNat s.core.failed (d * 320 + c),
    troupes := s.core.troupes.filter (fun t => !(Nat.beq t.die d && Nat.beq t.cluster c)),
    launches := s.core.launches.map (fun l =>
      if ts.any (fun t => Nat.beq t.queue l.queue && t.index == l.index) then { l with lost := true } else l) } }

theorem clusterFailure_eq (d c : Nat) (s : State) : clusterFailure d c s =
    match s.core.troupes.filter (fun t => Nat.beq t.die d && Nat.beq t.cluster c) with
    | [] => clusterLost d c s
    | t :: _ => partFault t.part 0x07 d 0x033 (nextSeq s d) (clusterLost d c s) := rfl

theorem workFrom_clusterFailure (d c : Nat) (s : State) : WorkFrom (clusterLost d c s) (clusterFailure d c s) := by
  rw [clusterFailure_eq]
  split
  · exact .refl _
  · exact partFault_workFrom _ _ _ _ _ (.refl _)

theorem completes_clusterFailure {s : State} {d c : Nat} (hd : d < dieCount s.orderCode) (hc : c < 320) :
    Completes (.clusterFailure d c) s (fun t =>
    t.core.failed.contains (d * 320 + c) = true ∧ (∀ x ∈ t.core.troupes, ¬(x.die = d ∧ x.cluster = c)) ∧
    ((∀ x ∈ s.core.troupes, ¬(x.die = d ∧ x.cluster = c)) →
      t.rdBit d (Reg.REC_FAIL_CLUSTER (c / 64)) (c % 64) = true ∧ HandsOver d 0x0B 0x033 1 s t ∧
      RegsBut [(d, Reg.REC_FAIL_CLUSTER (c / 64))] s t) ∧
    (∀ x, (s.core.troupes.filter (fun x => Nat.beq x.die d && Nat.beq x.cluster c)).head? = some x →
      (imgParts s).contains x.part = true → t.prt.faulted.contains x.part = true)) := by
  have work := workFrom_clusterFailure d c s
  refine completes_of_onDie (execClusterFailure d c s) rfl rfl hd ⟨?_, fun x hx => ?_, fun none_ => ?_, fun x first known => ?_⟩
  · rw [work.failed]
    exact contains_addNat_same ..
  · have kept := (List.mem_filter.1 (work.troupes hx)).2
    rintro ⟨rfl, rfl⟩
    simp at kept
  · have empty : s.core.troupes.filter (fun t => Nat.beq t.die d && Nat.beq t.cluster c) = [] :=
      List.filter_eq_nil_iff.2 fun x hx => by simpa using none_ x hx
    rw [clusterFailure_eq, empty]
    exact ⟨rdBit_wrBit_true _ _ _ (Nat.mod_lt c (by decide)), handsOver_emit _ _ _ _ _ _ rfl,
      (RegsBut.refl _ s).wrBit _ _ _ _ (List.mem_singleton_self _)⟩
  · obtain ⟨l, cons⟩ := List.head?_eq_some_iff.1 first
    have named : (imgParts (clusterLost d c s)).contains x.part = true := known
    rw [clusterFailure_eq, cons, show _ from faulted_partFault (.inr named) ..]
    exact contains_addNat_same ..

/-- Settles O50: each end leaves what its own list says; a KILL that ends the tag's launches at once is the model's
reading (log 59), and a troupe that runs on is left as it is (log 58). -/
theorem troupesEnd : Obligations.TroupesEnd :=
  ⟨fun _ _ _ _ => completes_troupeEnd, fun _ _ _ => completes_troupeEnd_of_running,
    fun _ _ _ _ _ _ => completes_launchDetach, fun _ _ _ _ => completes_launchRetire, fun _ _ _ _ _ => completes_kill,
    fun _ _ _ => completes_clusterFailure⟩

end Sys2Proof.Machine
end

section
/-! PROOFS. An image load before COMMIT (R55, R58, R61, R68, R75): check, stage, quiesce, and how it ends early. -/

namespace Sys2Proof.Machine

/-! ### A fold that reaches what one member makes true -/

/-- What every member keeps until a member `a` turns it into what every member keeps from then on. -/
theorem each_reaches {α : Type} {P Q : State → Prop} {f : State → α → State} {a : α} {l : List α} (member : a ∈ l)
    (before : ∀ s, ∀ e ∈ l, P s → P (f s e)) (there : ∀ s, P s → Q (f s a)) (after : ∀ s, ∀ e ∈ l, Q s → Q (f s e))
    {s : State} (h : P s) : Q (each l f s) := by
  induction l generalizing s with
  | nil => simp at member
  | cons x l ih =>
    obtain rfl | member := List.mem_cons.1 member
    · exact each_induction (P := Q) (fun t e he => after t e (.tail _ he)) (there s h)
    · exact ih member (fun t e he => before t e (.tail _ he)) (fun t e he => after t e (.tail _ he))
        (before s x (.head _) h)

/-- A value that a field has, written to a field of its shape, wherever that stands, leaves it. -/
theorem State.rd_wr_of_rd {s : State} {d e v : Nat} {f g : Fld} (reset : f.reset = g.reset)
    (h : s.rd d f = v % 2 ^ g.width) : (s.wr e g v).rd d f = v % 2 ^ g.width := by
  by_cases same : f.key d = g.key e
  · rw [State.rd, same, reset]
    exact SMap.get_set_same ..
  · exact (State.rd_wr_ne _ _ _ _ _ _ same).trans h

/-! ### Which halves a partition has -/

/-- The dies, and the partition of every half, in `t` as in `s`. -/
structure HalvesAs (s t : State) : Prop where
  code : t.orderCode = s.orderCode
  half : ∀ d side, side < 2 → halfPart t d side = halfPart s d side

/-- The fields that say which partition a half has. -/
def halfFields : List Fld :=
  [Reg.PART_HALF_PART 0, Reg.PART_HALF_PART 1, Reg.PART_HALF_ASSIGNED 0, Reg.PART_HALF_ASSIGNED 1]

theorem FieldsBut.halvesAs {touch : List Fld} {s t : State} (h : FieldsBut touch s t) (code : t.orderCode = s.orderCode)
    (apart : halfFields.all (fun f => touch.all f.apart) = true) : HalvesAs s t where
  code := code
  half d side hs := by
    have read (f : Fld) (hf : f ∈ halfFields) : t.rd d f = s.rd d f := h d f (List.all_eq_true.1 apart f hf)
    obtain rfl | rfl : side = 0 ∨ side = 1 := by omega
    all_goals rw [halfPart, halfPart, read _ (by simp [halfFields]), read _ (by simp [halfFields])]

theorem HalvesAs.refl (s : State) : HalvesAs s s := ⟨rfl, fun _ _ _ => rfl⟩

theorem HalvesAs.trans {s t u : State} (h : HalvesAs s t) (k : HalvesAs t u) : HalvesAs s u :=
  ⟨k.code.trans h.code, fun d side hs => (k.half d side hs).trans (h.half d side hs)⟩

section
variable {s t : State} (h : HalvesAs s t)
include h

theorem HalvesAs.halfIn {side : Nat} (hs : side < 2) (d p : Nat) : halfIn t d side p = halfIn s d side p := by
  rw [Machine.halfIn, Machine.halfIn, h.half d side hs]

theorem HalvesAs.partHalves (p : Nat) : partHalves t p = partHalves s p := by
  rw [Machine.partHalves, Machine.partHalves, h.code]
  exact List.filter_congr fun k _ => h.halfIn (Nat.mod_lt _ (by decide)) _ _

theorem HalvesAs.dieIn (p d : Nat) : dieIn t p d = dieIn s p d := by
  rw [Machine.dieIn, Machine.dieIn, h.halfIn (by decide), h.halfIn (by decide)]

theorem HalvesAs.allParts : allParts t = allParts s := by
  rw [Machine.allParts, Machine.allParts, allDies, allDies, h.code]
  exact List.filter_congr fun p _ => congrArg (List.any _) (funext (h.dieIn p))

end

/-! ### The states of a partition's halves -/

/-- PART_STATE of both halves of a die. -/
def stateFields : List Fld := [Reg.PART_STATE 0, Reg.PART_STATE 1]

theorem partState_mem_stateFields (h : Nat) : Reg.PART_STATE (h % 2) ∈ stateFields := by
  obtain e | e : h % 2 = 0 ∨ h % 2 = 1 := by omega
  all_goals simp [e, stateFields]

theorem fieldsBut_quiescePart (p : Nat) (s : State) : FieldsBut stateFields s (quiescePart p s) :=
  .each (fun _ h => .ite (fun _ => .wr (.of_regs rfl) _ _ (partState_mem_stateFields h)) fun _ => .of_regs rfl) _ s

theorem quiescePart_halvesAs (p : Nat) (s : State) : HalvesAs s (quiescePart p s) :=
  (fieldsBut_quiescePart p s).halvesAs
    (quiescePart_keeps (F := { noFrame with regs := True }) trivial p (.refl _ s)).orderCode rfl

/-- A half that is LIVE or already QUIESCED. -/
def Quiescible (s : State) (h : Nat) : Prop :=
  s.rd (h / 2) (Reg.PART_STATE (h % 2)) = 1 ∨ s.rd (h / 2) (Reg.PART_STATE (h % 2)) = 2

/-- A QUIESCED half stays so: only QUIESCED is written. -/
theorem wr_partState_of_quiesced {s : State} {h : Nat} (k : Nat) (quiesced : s.rd (h / 2) (Reg.PART_STATE (h % 2)) = 2) :
    (s.wr (k / 2) (Reg.PART_STATE (k % 2)) 2).rd (h / 2) (Reg.PART_STATE (h % 2)) = 2 := State.rd_wr_of_rd rfl quiesced

theorem wr_partState_quiescible {s : State} {h : Nat} (k : Nat) (state : Quiescible s h) :
    Quiescible (s.wr (k / 2) (Reg.PART_STATE (k % 2)) 2) h := by
  by_cases same : (Reg.PART_STATE (h % 2)).key (h / 2) = (Reg.PART_STATE (k % 2)).key (k / 2)
  · refine Or.inr ?_
    exact (congrArg (SMap.get 0 _) same).trans (SMap.get_set_same (α := Nat) 0 s.regs _ 2)
  · rw [Quiescible, State.rd_wr_ne _ _ _ _ _ _ same]
    exact state

theorem quiescePart_of_quiesced {s : State} {h : Nat} (p : Nat) (quiesced : s.rd (h / 2) (Reg.PART_STATE (h % 2)) = 2) :
    (quiescePart p s).rd (h / 2) (Reg.PART_STATE (h % 2)) = 2 := by
  refine each_induction (P := fun t => t.rd (h / 2) (Reg.PART_STATE (h % 2)) = 2) (fun t k _ same => ?_) quiesced
  split
  · exact wr_partState_of_quiesced k same
  · exact same

theorem quiescePart_quiescible {s : State} {h : Nat} (p : Nat) (state : Quiescible s h) :
    Quiescible (quiescePart p s) h := by
  refine each_induction (P := fun t => Quiescible t h) (fun t k _ same => ?_) state
  split
  · exact wr_partState_quiescible k same
  · exact same

theorem quiescePart_of_own {s : State} {p h : Nat} (own : h ∈ partHalves s p) (state : Quiescible s h) :
    (quiescePart p s).rd (h / 2) (Reg.PART_STATE (h % 2)) = 2 := by
  refine each_reaches (P := fun t => Quiescible t h) (Q := fun t => t.rd (h / 2) (Reg.PART_STATE (h % 2)) = 2) own
    (fun t k _ state => ?_) (fun t state => ?_) (fun t k _ same => ?_) state
  · split
    · exact wr_partState_quiescible k state
    · exact state
  · split
    · exact State.rd_wr_same ..
    · exact state.resolve_left ‹_›
  · split
    · exact wr_partState_of_quiesced k same
    · exact same

/-- Every LIVE half of the partitions quiesced is QUIESCED. -/
theorem each_quiescePart {s : State} {ps : List Nat} {p h : Nat} (member : p ∈ ps) (own : h ∈ partHalves s p)
    (live : s.rd (h / 2) (Reg.PART_STATE (h % 2)) = 1) :
    (each ps (fun s p => quiescePart p s) s).rd (h / 2) (Reg.PART_STATE (h % 2)) = 2 :=
  each_reaches (P := fun t => HalvesAs s t ∧ Quiescible t h) (Q := fun t => t.rd (h / 2) (Reg.PART_STATE (h % 2)) = 2)
    member (fun t q _ ⟨same, state⟩ => ⟨same.trans (quiescePart_halvesAs q t), quiescePart_quiescible q state⟩)
    (fun _ ⟨same, state⟩ => quiescePart_of_own ((same.partHalves p).symm ▸ own) state)
    (fun _ q _ => quiescePart_of_quiesced q) ⟨.refl s, .inl live⟩

/-! ### What an agent shows of a load -/

/-- IMG_STATUS, but for its RESULT. -/
def phaseFields : List Fld :=
  [Reg.IMG_STATUS_PHASE, Reg.IMG_STATUS_BUSY, Reg.IMG_STATUS_PARTIAL, Reg.IMG_STATUS_TARGET]

theorem fieldsBut_imgStatus (phase busy : Nat) (partial_ : Bool) (target a : Nat) (s : State) :
    FieldsBut phaseFields s (imgStatus phase busy partial_ target a s) :=
  .wr (.wr (.wr (.wr (.of_regs rfl) a phase (by simp [phaseFields])) a busy (by simp [phaseFields])) a _
    (by simp [phaseFields])) a _ (by simp [phaseFields])

/-- A busy answer shows its result and detail at its agent. -/
theorem busyResult_shows (detail a : Nat) (s : State) :
    (busyResult detail a s).rd a Reg.IMG_STATUS_RESULT = Rc.busy ∧
    (busyResult detail a s).rd a Reg.IMG_DETAIL = detail % 2 ^ 36 := by
  constructor
  · exact (State.rd_count_apart rfl ..).trans ((State.rd_wr_apart rfl ..).trans (State.rd_wr_same ..))
  · exact (State.rd_count_apart rfl ..).trans (State.rd_wr_same ..)

/-- Another agent's busy answer, alike, leaves what the agent shows. -/
theorem busyResult_keeps_shown {detail a : Nat} (b : Nat) {s : State}
    (shown : s.rd a Reg.IMG_STATUS_RESULT = Rc.busy ∧ s.rd a Reg.IMG_DETAIL = detail % 2 ^ 36) :
    (busyResult detail b s).rd a Reg.IMG_STATUS_RESULT = Rc.busy ∧
    (busyResult detail b s).rd a Reg.IMG_DETAIL = detail % 2 ^ 36 := by
  constructor
  · refine (State.rd_count_apart rfl ..).trans ((State.rd_wr_apart rfl ..).trans ?_)
    exact State.rd_wr_of_rd rfl shown.1
  · refine (State.rd_count_apart rfl ..).trans (State.rd_wr_of_rd (g := Reg.IMG_DETAIL) rfl ?_)
    exact (State.rd_wr_apart rfl ..).trans shown.2

theorem each_busyResult {s : State} {l : List Nat} {a : Nat} (detail : Nat) (member : a ∈ l) :
    (each l (fun s a => busyResult detail a s) s).rd a Reg.IMG_STATUS_RESULT = Rc.busy ∧
    (each l (fun s a => busyResult detail a s) s).rd a Reg.IMG_DETAIL = detail % 2 ^ 36 :=
  each_reaches (P := fun _ => True)
    (Q := fun t => t.rd a Reg.IMG_STATUS_RESULT = Rc.busy ∧ t.rd a Reg.IMG_DETAIL = detail % 2 ^ 36) member
    (fun _ _ _ _ => trivial) (fun t _ => busyResult_shows detail a t) (fun _ b _ => busyResult_keeps_shown b) trivial

/-- What a busy answer writes. -/
def busyFields (a : Nat) : List (Nat × Fld) := [(a, Reg.IMG_STATUS_RESULT), (a, Reg.IMG_DETAIL), (a, Reg.IMG_REJECTS)]

theorem regsBut_busyResults (l : List Nat) (detail : Nat) (s : State) :
    RegsBut (l.flatMap busyFields) s (each l (fun s a => busyResult detail a s) s) := by
  refine each_induction (P := RegsBut (l.flatMap busyFields) s) (fun t a member same => ?_) (.refl _ s)
  have own {f : Fld} (hf : (a, f) ∈ busyFields a) : (a, f) ∈ l.flatMap busyFields := List.mem_flatMap.2 ⟨a, member, hf⟩
  exact .count (.wr (.wr same a Reg.IMG_STATUS_RESULT Rc.busy (own (by simp [busyFields]))) a Reg.IMG_DETAIL detail
    (own (by simp [busyFields]))) a Reg.IMG_REJECTS 1 (own (by simp [busyFields]))

/-! ### A load that ends early -/

theorem rackSeq_rejectRecord (code phase detail serial : Nat) (sealed_ : Bool) (s : State) :
    (rejectRecord code phase detail serial sealed_ s).recs.rackSeq = (s.recs.rackSeq + 1) % 65536 := rfl

theorem Keeps.trans {F : Frame} {s t u : State} (h : Keeps F s t) (k : Keeps F t u) : Keeps F s u where
  pending := k.pending.trans h.pending
  orderCode := k.orderCode.trans h.orderCode
  regs n := (k.regs n).trans (h.regs n)
  rack n := (k.rack n).trans (h.rack n)
  boot n := (k.boot n).trans (h.boot n)
  img n := (k.img n).trans (h.img n)
  core n := (k.core n).trans (h.core n)
  slc n := (k.slc n).trans (h.slc n)
  hbm n := (k.hbm n).trans (h.hbm n)
  net n := (k.net n).trans (h.net n)
  que n := (k.que n).trans (h.que n)
  prt n := (k.prt n).trans (h.prt n)
  xlt n := (k.xlt n).trans (h.xlt n)
  host n := (k.host n).trans (h.host n)
  recs n := (k.recs n).trans (h.recs n)
  out n := (k.out n).trans (h.out n)
  canonical c := k.canonical (h.canonical c)

/-- What the phases of a load write beside the load: registers. -/
def loadFrame : Frame := { noFrame with regs := True }

/-- What a load that ends writes. -/
def endFrame : Frame := { noFrame with regs := True, img := True, recs := True }

/-- Agents that a fold takes through register writes leave the rest of the state. -/
theorem each_loadFrame {α : Type} {f : State → α → State} (keeps : ∀ s x, Keeps loadFrame s (f s x)) (l : List α)
    (s : State) : Keeps loadFrame s (each l f s) :=
  each_induction (P := Keeps loadFrame s) (fun t x _ h => h.trans (keeps t x)) (.refl _ s)

/-- A rejected load is gone with what it staged, recorded once; the image in force stays. -/
theorem rejectLoad_spec {s : State} {l : Load} (running : s.img.load = some l) (code detail : Nat) :
    (rejectLoad code detail s).img = { s.img with load := none, shadow := [] } ∧
    (rejectLoad code detail s).recs.rackSeq = (s.recs.rackSeq + 1) % 65536 := by
  simp only [rejectLoad, running]
  have resumed := each_loadFrame (f := fun s p => resumePart p s)
    (fun s p => resumePart_keeps (F := loadFrame) trivial p (.refl _ s)) (loadTargets s l) s
  generalize each (loadTargets s l) (fun s p => resumePart p s) s = u at *
  have shown := each_loadFrame (f := fun s a => imgResult code detail a s)
    (fun s a => imgResult_keeps (F := loadFrame) trivial code detail a (.refl _ s))
    (l.agents.filter (fun a => !l.gone.contains a)) (rejectRecord code l.phase.code detail l.img.serial (loadSealed u l) u)
  constructor
  · exact congrArg (fun i => { i with load := none, shadow := [] }) ((shown.img id).trans (resumed.img id))
  · exact congrArg (·.rackSeq) (shown.recs id) |>.trans (congrArg (fun r => (r.rackSeq + 1) % 65536) (resumed.recs id))

/-- Where a load ends early after register writes alone. -/
theorem completes_rejected {c : Instr} {s t : State} {l : Load} {code detail : Nat}
    (arm : exec c s = .next (rejectLoad code detail t))
    (before : Keeps loadFrame (setLoad l s) t) :
    Completes c s (fun t => t.img.load = none ∧ t.img.shadow = [] ∧ t.img.live = s.img.live ∧
      t.recs.rackSeq = (s.recs.rackSeq + 1) % 65536 ∧ t.slc = s.slc ∧ t.core = s.core ∧ t.que = s.que) := by
  refine completes_of_next _ arm rfl ?_
  have kept := before.img id
  obtain ⟨img, record⟩ := rejectLoad_spec (congrArg (·.load) kept) code detail
  have ended := rejectLoad_keeps (F := endFrame) trivial trivial trivial code detail (.refl _ t)
  exact ⟨congrArg (·.load) img, congrArg (·.shadow) img, (congrArg (·.live) img).trans (congrArg (·.live) kept),
    record.trans (congrArg (fun r => (r.rackSeq + 1) % 65536) (before.recs id)),
    (ended.slc id).trans (before.slc id), (ended.core id).trans (before.core id), (ended.que id).trans (before.que id)⟩

/-! ### The phases -/

/-- The load in progress set again. -/
theorem setLoad_of_running {s : State} {l : Load} (running : s.img.load = some l) : Keeps loadFrame (setLoad l s) s := by
  have same : setLoad l s = s := by
    rw [setLoad, ← running]
  rw [same]
  exact .refl _ s

theorem loadIn_of_loadRun {s : State} {f : LoadPhase → Bool} {l : Load} (run : loadRun s f = some l) :
    s.img.load = some l := by
  simp only [loadRun, loadIn, Option.filter_eq_some_iff] at run
  obtain ⟨run, -⟩ := run
  split at run
  · exact (Option.filter_eq_some_iff.1 run).1
  · cases run

theorem loadIn_of {s : State} {f : LoadPhase → Bool} {l : Load} (up : s.rack.rmUp = true) (running : s.img.load = some l)
    (phase : f l.phase = true) : loadIn s f = some l := by
  rw [loadIn, if_pos up, Option.filter_eq_some_iff]
  exact ⟨running, phase⟩

theorem keeps_imgCmds (code : Nat) (l : List Nat) (s : State) :
    Keeps loadFrame s (each l (fun s a => imgCmd code a s) s) :=
  each_loadFrame (f := fun s a => imgCmd code a s) (fun s a => imgCmd_keeps (F := loadFrame) trivial code a (.refl _ s)) l s

theorem keeps_imgStatuses (phase busy : Nat) (partial_ : Bool) (target : Nat) (l : List Nat) (s : State) :
    Keeps loadFrame s (each l (fun s a => imgStatus phase busy partial_ target a s) s) :=
  each_loadFrame (f := fun s a => imgStatus phase busy partial_ target a s)
    (fun s a => imgStatus_keeps (F := loadFrame) trivial phase busy partial_ target a (.refl _ s)) l s

theorem completes_imgCheck {s : State} {b : List Byte} {i : Image} (up : s.rack.rmUp = true) (none_ : s.img.load = none)
    (good : checkImage (each (loadAgents s) (fun s a => imgCmd 1 a s) s) b = .ok i) :
    Completes (.imgCheck b) s (fun t =>
      t.img.load = some ⟨i, loadAgents s, .checked, 0, 0, [], [], false, [], []⟩ ∧ t.img.live = s.img.live ∧
      t.slc = s.slc ∧ t.core = s.core ∧ t.que = s.que ∧ t.recs = s.recs) := by
  refine completes_of_next (execImgCheck b s) rfl rfl ?_
  simp only [imgCheck, up, none_, good, Bool.not_true, Bool.false_eq_true, if_false, Option.isSome_none]
  have kept := (keeps_imgCmds 1 (loadAgents s) s).trans (keeps_imgStatuses 1 0 i.partial_ i.target (loadAgents s) _)
  exact ⟨rfl, congrArg (·.live) (kept.img id), kept.slc id, kept.core id, kept.que id, kept.recs id⟩

theorem completes_imgCheck_busy {s : State} (b : List Byte) (up : s.rack.rmUp = true)
    (running : s.img.load.isSome = true) : Completes (.imgCheck b) s (fun t =>
      t.img = s.img ∧ t.recs.rackSeq = (s.recs.rackSeq + 1) % 65536 ∧
      (∀ a ∈ loadAgents s, t.rd a Reg.IMG_STATUS_RESULT = Rc.busy ∧
        t.rd a Reg.IMG_DETAIL = detailWord 0xFFFF rmAgent none ∧
        t.rd a Reg.IMG_STATUS_PHASE = s.rd a Reg.IMG_STATUS_PHASE) ∧
      RegsBut ((loadAgents s).flatMap busyFields) s t) := by
  refine completes_of_next (execImgCheck b s) rfl rfl ?_
  simp only [imgCheck, up, running, Bool.not_true, Bool.false_eq_true, if_false, if_true]
  have kept := rejectRecord_keeps (F := recsOnly) trivial Rc.busy 1 (detailWord 0xFFFF rmAgent none) (leAt b 0x18 8)
    (Nat.beq (leAt b 0x14 1) 1 && partSealed s (leAt b 0x15 1)) (.refl _ s)
  have record := rackSeq_rejectRecord Rc.busy 1 (detailWord 0xFFFF rmAgent none) (leAt b 0x18 8)
    (Nat.beq (leAt b 0x14 1) 1 && partSealed s (leAt b 0x15 1)) s
  generalize rejectRecord _ _ _ _ _ s = u at *
  have shown := each_loadFrame (f := fun s a => busyResult (detailWord 0xFFFF rmAgent none) a s)
    (fun s a => busyResult_keeps (F := loadFrame) trivial _ a (.refl _ s)) (loadAgents s) u
  have written := ((RegsBut.refl _ s).of_regs (kept.regs id)).trans
    (regsBut_busyResults (loadAgents s) (detailWord 0xFFFF rmAgent none) u)
  refine ⟨(shown.img id).trans (kept.img id), (congrArg (·.rackSeq) (shown.recs id)).trans record, fun a member => ?_,
    written⟩
  obtain ⟨result, detail⟩ := each_busyResult (s := u) (detailWord 0xFFFF rmAgent none) member
  refine ⟨result, detail, written a _ fun x hx => ?_⟩
  obtain ⟨b, -, hx⟩ := List.mem_flatMap.1 hx
  simp only [busyFields, List.mem_cons, List.not_mem_nil, or_false] at hx
  obtain rfl | rfl | rfl := hx
  all_goals exact Fld.key_ne_of_apart rfl _ _

theorem completes_imgStage {s : State} {l : Load} (run : loadRun s (fun p => p == .checked) = some l) :
    Completes (.imgStage none) s (fun t => t.img.load = some { l with phase := .staged } ∧ t.img.shadow = l.agents ∧
      t.img.live = s.img.live ∧ t.slc = s.slc ∧ t.core = s.core ∧ t.que = s.que ∧ t.recs = s.recs) := by
  refine completes_of_next (execImgStage none s) rfl rfl ?_
  simp only [imgStage, run, Option.filter_none]
  have kept := (keeps_imgCmds 2 l.agents (setLoad { l with phase := .staged } s)).trans
    (keeps_imgStatuses 2 0 l.img.partial_ l.img.target l.agents _)
  have img := kept.img id
  exact ⟨congrArg (·.load) img, trivial, congrArg (·.live) img, kept.slc id, kept.core id, kept.que id, kept.recs id⟩

theorem completes_imgStage_unwritable {s : State} {l : Load} {d : Nat}
    (run : loadRun s (fun p => p == .checked) = some l) (agent : l.agents.contains d = true) :
    Completes (.imgStage (some d)) s (fun t => t.img.load = none ∧ t.img.shadow = [] ∧
      t.recs.rackSeq = (s.recs.rackSeq + 1) % 65536 ∧ t.slc = s.slc ∧ t.core = s.core ∧ t.que = s.que) := by
  have arm : imgStage (some d) s = rejectLoad Rc.stageFail (detailWord 0xFFFF d none)
      (each l.agents (fun s a => imgCmd 2 a s) (setLoad { l with phase := .staged } s)) := by
    simp only [imgStage, run, Option.filter_some, agent, if_true]
  obtain ⟨u, ⟨⟩, gone, shadow, -, rest⟩ := completes_rejected (c := .imgStage (some d))
    (congrArg Host.Outcome.next arm) (keeps_imgCmds 2 l.agents (setLoad { l with phase := .staged } s))
  exact ⟨_, rfl, gone, shadow, rest⟩

theorem imgFields_apart_partState (h : Nat) :
    [Reg.IMG_CMD, Reg.IMG_STATUS_BUSY].all (Reg.PART_STATE (h % 2)).apart = true := by
  obtain e | e : h % 2 = 0 ∨ h % 2 = 1 := by omega
  all_goals
    rw [e]
    rfl

theorem completes_imgQuiesce {s : State} {l : Load} (run : loadRun s (fun p => p == .staged) = some l) :
    Completes .imgQuiesce s (fun t =>
      t.img.load = some { l with phase := .quiescing, quiesceAt := s.recs.rmRtime } ∧
      (∀ p ∈ loadTargets s l, ∀ h ∈ partHalves s p, s.rd (h / 2) (Reg.PART_STATE (h % 2)) = 1 →
        t.rd (h / 2) (Reg.PART_STATE (h % 2)) = 2) ∧ t.slc = s.slc ∧ t.core = s.core ∧ t.que = s.que) := by
  refine completes_of_next (execImgQuiesce s) rfl rfl ?_
  simp only [imgQuiesce, run]
  have quiesced {p h : Nat} (member : p ∈ loadTargets s l) := each_quiescePart (s := s) (h := h) member
  have kept := each_loadFrame (f := fun s p => quiescePart p s)
    (fun s p => quiescePart_keeps (F := loadFrame) trivial p (.refl _ s)) (loadTargets s l) s
  generalize each (loadTargets s l) (fun s p => quiescePart p s) s = u at *
  have shown := each_loadFrame (f := fun s a => (imgCmd 3 a s).wr a Reg.IMG_STATUS_BUSY 1)
    (fun s a => State.wr_keeps trivial _ _ _ (imgCmd_keeps (F := loadFrame) trivial 3 a (.refl _ s))) l.agents u
  have written : FieldsBut [Reg.IMG_CMD, Reg.IMG_STATUS_BUSY] u
      (each l.agents (fun s a => (imgCmd 3 a s).wr a Reg.IMG_STATUS_BUSY 1) u) :=
    .each (fun _ a => .wr (.wr (.of_regs rfl) a 3 (by simp)) a 1 (by simp)) _ u
  have all := kept.trans shown
  refine ⟨?_, fun p member h own live => ?_, all.slc id, all.core id, all.que id⟩
  · exact congrArg (fun r => some { l with phase := .quiescing, quiesceAt := r.rmRtime }) (all.recs id)
  · exact (written _ _ (imgFields_apart_partState h)).trans (quiesced member own live)

theorem completes_quiesceIdle {s : State} {l : Load} (run : loadRun s (fun p => p == .quiescing) = some l)
    (idle : (loadTargets s l).all (partIdle s) = true) : Completes .quiesceIdle s (fun t =>
      t.img.load = some { l with phase := .quiesced } ∧ t.slc = s.slc ∧ t.core = s.core ∧ t.que = s.que) := by
  refine completes_of_next (execQuiesceIdle s) rfl rfl ?_
  simp only [quiesceIdle, run, idle, if_true]
  have kept := keeps_imgStatuses 3 0 l.img.partial_ l.img.target l.agents s
  exact ⟨rfl, kept.slc id, kept.core id, kept.que id⟩

theorem completes_quiesceTimeout {s : State} {l : Load} {p : Nat} (up : s.rack.rmUp = true)
    (running : s.img.load = some l) (phase : l.phase = .quiescing) (target : p ∈ loadTargets s l)
    (busy : partIdle s p = false) : Completes .quiesceTimeout s (fun t =>
      t.img.load = none ∧ t.img.shadow = [] ∧ t.img.live = s.img.live ∧
      t.recs.rackSeq = (s.recs.rackSeq + 1) % 65536 ∧ t.slc = s.slc ∧ t.core = s.core ∧ t.que = s.que) := by
  have found : ((loadTargets s l).find? (fun p => !partIdle s p)).isSome = true :=
    List.find?_isSome.2 ⟨p, target, by rw [busy]; rfl⟩
  obtain ⟨q, found⟩ := Option.isSome_iff_exists.1 found
  have arm : quiesceTimeout s = rejectLoad Rc.quiesceTimeout
      (detailWord 0xFFFF (((partDies s q).head?).getD rmAgent) none) s := by
    rw [quiesceTimeout, loadIn_of up running (by rw [phase]; rfl)]
    simp only [found]
  exact completes_rejected (congrArg Host.Outcome.next arm) (setLoad_of_running running)

theorem completes_imgAbort {s : State} {l : Load} (up : s.rack.rmUp = true) (running : s.img.load = some l)
    (uncommitted : l.phase ≠ .committing) (unreleased : l.phase ≠ .released) : Completes .imgAbort s (fun t =>
      t.img.load = none ∧ t.img.shadow = [] ∧ t.img.live = s.img.live ∧
      t.recs.rackSeq = (s.recs.rackSeq + 1) % 65536 ∧ t.slc = s.slc ∧ t.core = s.core ∧ t.que = s.que) := by
  have phase : (l.phase != .committing && l.phase != .released) = true := by
    rw [Bool.and_eq_true, bne_iff_ne, bne_iff_ne]
    exact ⟨uncommitted, unreleased⟩
  have arm : imgAbort s = rejectLoad Rc.aborted (detailWord 0xFFFF rmAgent none)
      (each l.agents (fun s a => imgCmd 6 a s) s) := by
    rw [imgAbort, loadIn_of up running phase]
  exact completes_rejected (congrArg Host.Outcome.next arm)
    ((setLoad_of_running running).trans (keeps_imgCmds 6 l.agents s))

/-- Settles O51: every phase writes registers and the load alone, and an early end goes through `rejectLoad`. -/
theorem loadsPrepare : Obligations.LoadsPrepare :=
  ⟨fun _ _ _ => completes_imgCheck, fun _ => completes_imgCheck_busy, fun _ _ => completes_imgStage,
    fun _ _ _ => completes_imgStage_unwritable, fun _ _ => completes_imgQuiesce, fun _ _ => completes_quiesceIdle,
    fun _ _ _ => completes_quiesceTimeout, fun _ _ => completes_imgAbort⟩

end Sys2Proof.Machine
end

section
/-! PROOFS. COMMIT and the release of an image load (R59, R61, R62). -/

namespace Sys2Proof.Machine

/-! ### The load of a run -/

theorem phase_of_loadRun {s : State} {f : LoadPhase → Bool} {l : Load} (run : loadRun s f = some l) : f l.phase = true := by
  simp only [loadRun, loadIn, Option.filter_eq_some_iff] at run
  obtain ⟨run, -⟩ := run
  split at run
  · exact (Option.filter_eq_some_iff.1 run).2
  · cases run

/-- A load that goes on in one phase goes on in every set of phases that has it. -/
theorem loadRun_mono {s : State} {f g : LoadPhase → Bool} {l : Load} (run : loadRun s f = some l)
    (more : g l.phase = true) : loadRun s g = some l := by
  simp only [loadRun, loadIn, Option.filter_eq_some_iff] at run ⊢
  obtain ⟨run, reports⟩ := run
  split at run
  · next up =>
    rw [if_pos up, Option.filter_eq_some_iff]
    exact ⟨⟨(Option.filter_eq_some_iff.1 run).1, more⟩, reports⟩
  · cases run

/-! ### An agent is armed -/

/-- What arming an agent writes before its time has come: registers, the load, and relays. -/
def armFrame : Frame := { noFrame with regs := True, img := True, net := True }

/-- The relays of an agent that first holds COMMIT. -/
def relayed (l : Load) (a : Nat) (s : State) : State :=
  each (l.agents.filter (fun b => !(Nat.beq b a))) (fun s b => sendTo a b 3 (relayBytes l) s) s

/-- What an armed agent shows. -/
def shownArmed (l : Load) (a : Nat) (s : State) : State :=
  (imgStatus 5 0 l.img.partial_ l.img.target a s).wr a Reg.IMG_COMMIT_TIME l.commitTime

theorem keeps_relayed (l : Load) (a : Nat) (s : State) : Keeps { noFrame with net := True } s (relayed l a s) :=
  each_keeps (fun _ b h => sendTo_keeps trivial a b 3 _ h) (.refl _ s)

theorem agentTime_congr {s t : State} (same : ∀ d, t.rtime d = s.rtime d) (l : Load) (a : Nat) :
    agentTime t l a = agentTime s l a := by
  unfold agentTime
  split
  · exact same a
  · split
    · exact same _
    · rfl

theorem FieldsBut.mono {touch more : List Fld} {s t : State} (h : FieldsBut touch s t) (sub : touch ⊆ more) :
    FieldsBut more s t :=
  fun d f apart => h d f (List.all_eq_true.2 fun g hg => List.all_eq_true.1 apart g (sub hg))

theorem fieldsBut_shownArmed (l : Load) (a : Nat) (s : State) :
    FieldsBut (Reg.IMG_COMMIT_TIME :: phaseFields) s (shownArmed l a s) :=
  .wr ((fieldsBut_imgStatus 5 0 l.img.partial_ l.img.target a s).mono (List.subset_cons_self ..)) a
    l.commitTime (.head _)

theorem arm_eq {s : State} {l : Load} {a : Nat} (running : s.img.load = some l)
    (early : agentTime s l a < l.commitTime) :
    arm a s = setLoad { l with armed := addNat l.armed a } (shownArmed l a (relayed l a s)) := by
  have time : agentTime (shownArmed l a (relayed l a s)) l a < l.commitTime := by
    rw [agentTime_congr (s := s) fun d => ?_]
    · exact early
    · exact (fieldsBut_shownArmed l a _ d _ rfl).trans (State.rd_of_regs ((keeps_relayed l a s).regs id) ..)
  have late : Nat.ble l.commitTime (agentTime (shownArmed l a (relayed l a s)) l a) = false := by
    rw [← Bool.not_eq_true, Nat.ble_eq]
    omega
  have step : arm a s =
      let lateNow := Nat.ble l.commitTime (agentTime (shownArmed l a (relayed l a s)) l a)
      let t := setLoad { l with armed := addNat l.armed a, late := l.late || lateNow } (shownArmed l a (relayed l a s))
      if lateNow then doSwap a t else t := by
    rw [arm, running]
    rfl
  rw [step]
  dsimp only
  rw [late, if_neg Bool.false_ne_true, Bool.or_false]

/-- An agent armed before its time shows COMMIT; nothing but registers, relays and the load changes. -/
theorem arm_spec {s : State} {l : Load} {a : Nat} (running : s.img.load = some l)
    (early : agentTime s l a < l.commitTime) (time : l.commitTime < 2 ^ 64) :
    (arm a s).img = { s.img with load := some { l with armed := addNat l.armed a } } ∧
    (arm a s).rd a Reg.IMG_COMMIT_TIME = l.commitTime ∧ (arm a s).rd a Reg.IMG_STATUS_PHASE = 5 ∧
    (arm a s).slc = s.slc ∧ (arm a s).core = s.core ∧ (arm a s).que = s.que := by
  rw [arm_eq running early]
  have sent := keeps_relayed l a s
  have img : (setLoad { l with armed := addNat l.armed a } (shownArmed l a (relayed l a s))).img =
      { s.img with load := some { l with armed := addNat l.armed a } } :=
    congrArg (fun i : Imgs => { i with load := some { l with armed := addNat l.armed a } }) (sent.img id)
  generalize relayed l a s = u at *
  refine ⟨img, ?_, ?_, sent.slc id, sent.core id, sent.que id⟩
  · exact (State.rd_wr_same (imgStatus 5 0 l.img.partial_ l.img.target a u) a Reg.IMG_COMMIT_TIME l.commitTime).trans
      (Nat.mod_eq_of_lt time)
  · change (shownArmed l a u).rd a Reg.IMG_STATUS_PHASE = 5
    rw [shownArmed, imgStatus]
    simp (disch := decide) only [State.rd_wr_apart, State.rd_wr_same]
    rfl

/-! ### COMMIT and its relay -/

/-- The state in which the RM's COMMIT arms an agent. -/
def committingFrom (l : Load) (a time : Nat) (s : State) : State :=
  imgCmd 4 a (setLoad { l with phase := .committing, commitTime := time } s)

theorem quiesced_of_loadRun {s : State} {l : Load} (run : loadRun s (fun p => p == .quiesced) = some l) :
    (l.phase == .quiesced) = true ∧ loadRun s (fun p => p == .quiesced || p == .committing) = some l := by
  have phase := phase_of_loadRun run
  exact ⟨phase, loadRun_mono run (by rw [Bool.or_eq_true]; exact .inl phase)⟩

theorem completes_imgCommit_early {s : State} {l : Load} {a : Nat} {time : Word}
    (run : loadRun s (fun p => p == .quiesced) = some l) (agent : l.agents.contains a = true)
    (unarmed : l.armed.contains a = false) (early : time.toNat < s.recs.rmRtime + 100000) :
    Completes (.imgCommit a time) s (fun t => t = s) := by
  obtain ⟨phase, run⟩ := quiesced_of_loadRun run
  refine completes_of_next (execImgCommit a time s) rfl rfl ?_
  have lead : Nat.blt time.toNat (s.recs.rmRtime + commitLead) = true := Nat.blt_eq.symm ▸ early
  simp only [imgCommit, run, agent, unarmed, phase, lead, Bool.not_true, Bool.or_self, Bool.and_self, if_true,
    Bool.false_eq_true, if_false]

theorem completes_imgCommit {s : State} {l : Load} {a : Nat} {time : Word}
    (run : loadRun s (fun p => p == .quiesced) = some l) (agent : l.agents.contains a = true)
    (unarmed : l.armed.contains a = false) (lead : s.recs.rmRtime + 100000 ≤ time.toNat)
    (early : agentTime s l a < time.toNat) : Completes (.imgCommit a time) s (fun t =>
      t.img.load = some { l with phase := .committing, commitTime := time.toNat, armed := addNat l.armed a } ∧
      t.rd a Reg.IMG_COMMIT_TIME = time.toNat ∧ t.rd a Reg.IMG_STATUS_PHASE = 5 ∧ t.img.live = s.img.live ∧
      t.slc = s.slc ∧ t.core = s.core ∧ t.que = s.que) := by
  obtain ⟨phase, run⟩ := quiesced_of_loadRun run
  have late : Nat.blt time.toNat (s.recs.rmRtime + commitLead) = false := by
    rw [← Bool.not_eq_true, Nat.blt_eq]
    exact Nat.not_lt.2 lead
  have effect : imgCommit a time s = arm a (committingFrom l a time.toNat s) := by
    simp only [imgCommit, run, agent, unarmed, phase, late, Bool.not_true, Bool.or_self, Bool.and_false, if_true,
      Bool.false_eq_true, if_false, committingFrom]
  refine completes_of_next (execImgCommit a time s) rfl (congrArg Host.Outcome.next effect) ?_
  have time_ : agentTime (committingFrom l a time.toNat s) { l with phase := .committing, commitTime := time.toNat } a
      < time.toNat := by
    have same : agentTime (committingFrom l a time.toNat s) l a = agentTime s l a :=
      agentTime_congr (fun d => State.rd_wr_apart (f := Reg.IMG_CMD) (g := Reg.DC_RTIME) rfl _ _ d _) l a
    exact same.trans_lt early
  obtain ⟨img, commit, shown, slc, core, que⟩ := arm_spec (s := committingFrom l a time.toNat s)
    (l := { l with phase := .committing, commitTime := time.toNat }) (a := a) rfl time_ time.isLt
  exact ⟨congrArg (·.load) img, commit, shown, congrArg (·.live) img, slc, core, que⟩

theorem completes_commitRelay {s : State} {l : Load} {a b : Nat} {serial time : Word} (running : s.img.load = some l)
    (sender : l.armed.contains b = true) (agent : l.agents.contains a = true) (unarmed : l.armed.contains a = false)
    (image : serial.toNat = l.img.serial) (moment : time.toNat = l.commitTime) (early : agentTime s l a < l.commitTime) :
    Completes (.commitRelay a b serial time) s (fun t =>
      t.img.load = some { l with armed := addNat l.armed a } ∧ t.rd a Reg.IMG_COMMIT_TIME = time.toNat ∧
      t.img.live = s.img.live ∧ t.slc = s.slc ∧ t.core = s.core ∧ t.que = s.que) := by
  have effect : commitRelay a b serial time s = arm a s := by
    simp only [commitRelay, running, sender, agent, unarmed, image, moment, Bool.not_false, Bool.and_self, decide_true,
      if_true]
  refine completes_of_next (execCommitRelay a b serial time s) rfl (congrArg Host.Outcome.next effect) ?_
  obtain ⟨img, commit, -, slc, core, que⟩ := arm_spec running early (moment ▸ time.isLt)
  exact ⟨congrArg (·.load) img, commit.trans moment.symm, congrArg (·.live) img, slc, core, que⟩

/-! ### The swap -/

theorem completes_commitSwap_early {s : State} {l : Load} {a : Nat} (running : s.img.load = some l)
    (early : agentTime s l a < l.commitTime) : Completes (.commitSwap a) s (fun t => t = s) := by
  refine completes_of_next (execCommitSwap a s) rfl rfl ?_
  have late : Nat.ble l.commitTime (agentTime s l a) = false := by
    rw [← Bool.not_eq_true, Nat.ble_eq]
    omega
  simp only [commitSwap, running, late, Bool.false_eq_true, if_false]

/-- A commit may change everything but the images. -/
def commitFrame : Frame where
  regs := True
  rack := True
  boot := True
  img := False
  core := True
  slc := True
  hbm := True
  net := True
  que := True
  prt := True
  xlt := True
  host := True
  recs := True
  out := True

/-- The first swap puts the image in force. -/
theorem live_commitRack (l : Load) (s : State) : (commitRack l s).img.live = mergeLive s l.img := by
  unfold commitRack
  extract_lets new clear ps u v
  split
  · rfl
  · split
    · exact congrArg (·.live) ((showCensus_keeps (F := commitFrame) trivial (.refl _ _)).img id)
    · rfl

/-- A die's swap leaves the image in force. -/
theorem live_swapDie (l : Load) (d : Nat) (s : State) : (swapDie l d s).img.live = s.img.live := by
  unfold swapDie
  extract_lets full own hit act owns u v kept w
  have halves : Keeps commitFrame s u :=
    each_keeps (fun _ x h => swapHalf_keeps trivial trivial _ _ _ _ _ (swapFailures_keeps trivial trivial trivial d x.1 h))
      (.refl _ s)
  have die : Keeps commitFrame s v :=
    swapWarden_keeps trivial d (swapModes_keeps trivial d act (swapQueues_keeps trivial _ full d halves))
  have wide (l : List Section) : Keeps commitFrame s (swapRackWide d l v) :=
    swapRackWide_keeps trivial trivial trivial trivial trivial trivial trivial trivial trivial trivial trivial d l die
  have all : Keeps commitFrame s w := by
    unfold w
    clear_value kept
    split
    · exact wide _
    · split
      · obtain _ | k := kept
        · exact die
        · exact wide k
      · exact die
  exact congrArg (·.live) (all.img id)

/-- What an agent shows once it has swapped. -/
theorem phase_imgStatus (phase busy : Nat) (partial_ : Bool) (target a : Nat) (s : State) :
    (imgStatus phase busy partial_ target a s).rd a Reg.IMG_STATUS_PHASE = phase % 8 := by
  rw [imgStatus]
  simp (disch := decide) only [State.rd_wr_apart, State.rd_wr_same]
  rfl

/-- The state in which the swap of agent `a` leaves it: the first one has put the image in force. -/
def swappedBy (l : Load) (a : Nat) (s : State) : State :=
  let s := if l.swapped.isEmpty then commitRack l s else s
  if a < 64 then swapDie l a s else s

theorem live_swappedBy (l : Load) (a : Nat) (s : State) :
    (swappedBy l a s).img.live = if l.swapped = [] then mergeLive s l.img else s.img.live := by
  have first : (if l.swapped.isEmpty then commitRack l s else s).img.live =
      if l.swapped = [] then mergeLive s l.img else s.img.live := by
    simp only [List.isEmpty_iff]
    split
    · exact live_commitRack l s
    · rfl
  unfold swappedBy
  dsimp only
  split
  · exact (live_swapDie l a _).trans first
  · exact first

theorem completes_commitSwap {s : State} {l : Load} {a : Nat} (running : s.img.load = some l)
    (armed : l.armed.contains a = true) (fresh : l.swapped.contains a = false) (agent : l.agents.contains a = true)
    (time : l.commitTime ≤ agentTime s l a) (up : a < 64 → dieUp s a = true)
    (ready : l.swapped = [] → commitReady s l = true) : Completes (.commitSwap a) s (fun t =>
      (∃ l', t.img.load = some l' ∧ l'.swapped = addNat l.swapped a) ∧ t.rd a Reg.IMG_STATUS_PHASE = 4 ∧
      (l.swapped = [] → t.img.live = mergeLive s l.img) ∧ (l.swapped ≠ [] → t.img.live = s.img.live)) := by
  have die : (Nat.blt a 64 && !dieUp s a) = false := by
    rw [← Bool.not_eq_true, Bool.and_eq_true, Nat.blt_eq]
    exact fun ⟨lt, down⟩ => by simp [up lt] at down
  have quiet : (l.swapped.isEmpty && !commitReady s l) = false := by
    rw [← Bool.not_eq_true, Bool.and_eq_true, List.isEmpty_iff]
    exact fun ⟨none_, busy⟩ => by simp [ready none_] at busy
  have effect : commitSwap a s = setLoad { l with swapped := addNat l.swapped a }
      (imgStatus 4 0 l.img.partial_ l.img.target a (swappedBy l a s)) := by
    simp only [commitSwap, running, Nat.ble_eq.symm ▸ time, if_true, doSwap, armed, fresh, agent, die, quiet,
      Bool.not_true, Bool.or_self, Bool.false_eq_true, if_false]
    rfl
  refine completes_of_next (execCommitSwap a s) rfl (congrArg Host.Outcome.next effect) ?_
  have live := (congrArg (·.live) ((imgStatus_keeps (F := loadFrame) trivial 4 0 l.img.partial_ l.img.target a
    (.refl _ (swappedBy l a s))).img id)).trans (live_swappedBy l a s)
  have phase := phase_imgStatus 4 0 l.img.partial_ l.img.target a (swappedBy l a s)
  generalize imgStatus 4 0 l.img.partial_ l.img.target a (swappedBy l a s) = u at *
  exact ⟨⟨_, rfl, rfl⟩, phase, fun first => live.trans (if_pos first),
    fun later => live.trans (if_neg later)⟩

/-! ### Release -/

/-- A released agent shows that it is idle. -/
def ShownIdle (a : Nat) (s : State) : Prop :=
  s.rd a Reg.IMG_STATUS_PHASE = 0 ∧ s.rd a Reg.IMG_STATUS_RESULT = 0

/-- The result of an agent's load: idle, with the code. -/
theorem imgResult_shows (code detail a : Nat) (s : State) :
    (imgResult code detail a s).rd a Reg.IMG_STATUS_PHASE = 0 ∧
    (imgResult code detail a s).rd a Reg.IMG_STATUS_RESULT = code % 256 := by
  have phase := phase_imgStatus 0 0 false 0 a s
  unfold imgResult
  generalize imgStatus 0 0 false 0 a s = u at *
  dsimp only
  split
  all_goals
    simp (disch := decide) only [State.rd_count_apart, State.rd_wr_apart, State.rd_wr_same]
    exact ⟨phase, rfl⟩

/-- An agent that is released leaves another one idle. -/
theorem imgResult_idle {a : Nat} (b : Nat) {s : State} (idle : ShownIdle a s) : ShownIdle a (imgResult 0 0 b s) := by
  obtain ⟨phase, result⟩ := idle
  simp only [imgResult, imgStatus, if_true, ShownIdle]
  constructor
  · simp (disch := decide) only [State.rd_wr_apart]
    exact State.rd_wr_of_rd rfl phase
  · refine (State.rd_wr_apart rfl ..).trans (State.rd_wr_of_rd (g := Reg.IMG_STATUS_RESULT) rfl ?_)
    simp (disch := decide) only [State.rd_wr_apart]
    exact result

theorem ShownIdle.of_fields {touch : List Fld} {s t : State} {a : Nat} (idle : ShownIdle a s) (h : FieldsBut touch s t)
    (apart : (touch.all Reg.IMG_STATUS_PHASE.apart && touch.all Reg.IMG_STATUS_RESULT.apart) = true) : ShownIdle a t := by
  obtain ⟨phase, result⟩ := Bool.and_eq_true_iff.1 apart
  exact ⟨(h a _ phase).trans idle.1, (h a _ result).trans idle.2⟩

/-- STAGE 12 of a die that shows none. -/
def showStage (a : Nat) (s : State) : State :=
  if Nat.blt a 64 && s.rd a Reg.DC_BOOT_STATUS_STAGE != 12 then
    let s := uartPrint a 12 s
    if (halfPart s a 0).isSome || (halfPart s a 1).isSome then uartPrint a 13 (s.wr a Reg.DC_BOOT_STATUS_STAGE 12) else s
  else s

/-- An agent whose load is over. -/
def releaseAgent (l : Load) (us : Nat) (s : State) (a : Nat) : State :=
  showStage a (imgResult 0 0 a (imgCmd 5 a (commitRecord l us a s)))

/-- What a release writes. -/
def releaseFrame : Frame := { noFrame with regs := True, boot := True, recs := True }

theorem fieldsBut_showStage (a : Nat) (s : State) : FieldsBut [Reg.DC_BOOT_STATUS_STAGE] s (showStage a s) := by
  unfold showStage
  refine .ite (fun _ => .ite (fun _ => ?_) fun _ => .of_regs rfl) fun _ => .of_regs rfl
  exact .trans (t := (uartPrint a 12 s).wr a Reg.DC_BOOT_STATUS_STAGE 12) (.wr (.of_regs rfl) a 12 (by simp))
    (.of_regs rfl)

theorem keeps_showStage (a : Nat) (s : State) : Keeps releaseFrame s (showStage a s) := by
  unfold showStage
  have printed := uartPrint_keeps (F := releaseFrame) trivial a 12 (.refl _ s)
  dsimp only
  split
  · split
    · exact uartPrint_keeps trivial a 13 (State.wr_keeps trivial _ _ _ printed)
    · exact printed
  · exact .refl _ s

theorem keeps_releaseAgent (l : Load) (us a : Nat) (s : State) : Keeps releaseFrame s (releaseAgent l us s a) :=
  .trans (imgResult_keeps trivial 0 0 a (imgCmd_keeps trivial 5 a (agentEmit_keeps trivial a _ _ _ _ (.refl _ s))))
    (keeps_showStage a _)

theorem releaseAgent_shows (l : Load) (us a : Nat) (s : State) : ShownIdle a (releaseAgent l us s a) :=
  ShownIdle.of_fields (imgResult_shows 0 0 a _) (fieldsBut_showStage a _) rfl

theorem releaseAgent_idle {a : Nat} (l : Load) (us b : Nat) {s : State} (idle : ShownIdle a s) :
    ShownIdle a (releaseAgent l us s b) := by
  have recorded : (commitRecord l us b s).regs = s.regs :=
    (agentEmit_keeps (F := recsOnly) trivial b _ _ _ _ (.refl _ s)).regs id
  have told : ShownIdle a (imgCmd 5 b (commitRecord l us b s)) :=
    idle.of_fields (.wr (touch := [Reg.IMG_CMD]) (.of_regs recorded) b 5 (by simp)) rfl
  exact ShownIdle.of_fields (imgResult_idle b told) (fieldsBut_showStage b _) rfl

/-- The state once every agent of the load is released. -/
def allReleased (l : Load) (s : State) : State :=
  each l.agents (releaseAgent l ((s.recs.rmRtime - l.quiesceAt) / 1000))
    (each (loadTargets s l) (fun s p => resumePart p s) s)

theorem imgRelease_eq {s : State} {l : Load} (run : loadRun s (fun p => p == .committing) = some l)
    (done : l.agents.all (fun a => l.swapped.contains a) = true) :
    imgRelease s = { allReleased l s with img := { (allReleased l s).img with load := none, shadow := [] } } := by
  simp only [imgRelease, run, done, Bool.not_true, Bool.false_eq_true, if_false]
  rfl

theorem completes_imgRelease {s : State} {l : Load} (run : loadRun s (fun p => p == .committing) = some l)
    (done : l.agents.all (fun a => l.swapped.contains a) = true) : Completes .imgRelease s (fun t =>
      t.img.load = none ∧ t.img.shadow = [] ∧ t.img.live = s.img.live ∧ t.slc = s.slc ∧ t.core = s.core ∧
      (∀ a ∈ l.agents, t.rd a Reg.IMG_STATUS_PHASE = 0 ∧ t.rd a Reg.IMG_STATUS_RESULT = 0)) := by
  refine completes_of_next (execImgRelease s) rfl (congrArg Host.Outcome.next (imgRelease_eq run done)) ?_
  have resumed : Keeps releaseFrame s (each (loadTargets s l) (fun s p => resumePart p s) s) :=
    each_keeps (fun _ p h => resumePart_keeps trivial p h) (.refl _ s)
  have kept : Keeps releaseFrame s (allReleased l s) :=
    each_keeps (fun t a h => h.trans (keeps_releaseAgent l _ a t)) resumed
  have idle : ∀ a ∈ l.agents, ShownIdle a (allReleased l s) := fun a member =>
    each_reaches (P := fun _ => True) (Q := ShownIdle a) member (fun _ _ _ _ => trivial)
      (fun t _ => releaseAgent_shows l _ a t) (fun _ b _ => releaseAgent_idle l _ b) trivial
  exact ⟨rfl, rfl, congrArg (·.live) (kept.img id), kept.slc id, kept.core id, idle⟩

/-! ### An agent that hears nothing -/

/-- The halves of a die go on without the load that left it. -/
def resumeDie (l : Load) (a : Nat) (s : State) : State :=
  let ps := loadTargets s l
  if a < 64 then
    each [0, 1] (fun s h =>
      match halfPart s a h with
      | some p =>
        if ps.contains p && s.rd a (Reg.PART_STATE h) == 2 then
          s.wr a (Reg.PART_STATE h) (if s.prt.faulted.contains p then 3 else 1)
        else s
      | none => s) s
  else s

theorem keeps_resumeDie {F : Frame} (hregs : F.regs) (l : Load) (a : Nat) (s : State) : Keeps F s (resumeDie l a s) := by
  unfold resumeDie
  extract_lets ps
  split
  · refine each_keeps (fun t h kept => ?_) (.refl _ s)
    split
    · split
      · exact State.wr_keeps hregs _ _ _ kept
      · exact kept
    · exact kept
  · exact .refl _ s

/-- The state in which an agent has ended the load on its own. -/
def lapsedBy (l : Load) (a : Nat) (s : State) : State :=
  agentEmit a 0x021 0 (loadSealed (resumeDie l a s) l)
    [pf 1 Rc.aborted, pf 1 l.phase.code, pf 6 0, pa_ 8 (detailWord 0xFFFF a none), pa_ 8 l.img.serial]
    (imgResult Rc.aborted (detailWord 0xFFFF a none) a (resumeDie l a s))

theorem keeps_lapsedBy (l : Load) (a : Nat) (s : State) :
    Keeps { noFrame with regs := True, recs := True } s (lapsedBy l a s) :=
  agentEmit_keeps trivial a _ _ _ _ (imgResult_keeps trivial _ _ a (keeps_resumeDie trivial l a s))

theorem lapsedBy_shows (l : Load) (a : Nat) (s : State) :
    (lapsedBy l a s).rd a Reg.IMG_STATUS_PHASE = 0 ∧ (lapsedBy l a s).rd a Reg.IMG_STATUS_RESULT = 0x1D := by
  have recorded : (lapsedBy l a s).regs = (imgResult Rc.aborted (detailWord 0xFFFF a none) a (resumeDie l a s)).regs :=
    (agentEmit_keeps (F := recsOnly) trivial a _ _ _ _ (.refl _ _)).regs id
  obtain ⟨phase, result⟩ := imgResult_shows Rc.aborted (detailWord 0xFFFF a none) a (resumeDie l a s)
  exact ⟨(State.rd_of_regs recorded ..).trans phase, (State.rd_of_regs recorded ..).trans result⟩

theorem loadAgentTimeout_eq {s : State} {l : Load} {a : Nat} (running : s.img.load = some l)
    (agent : l.agents.contains a = true) (unarmed : l.armed = []) (there : l.gone.contains a = false) :
    loadAgentTimeout a s = { lapsedBy l a s with img := { (lapsedBy l a s).img with
      shadow := delNat (lapsedBy l a s).img.shadow a,
      load := if (delNat l.agents a).all l.gone.contains then none
        else some { l with agents := delNat l.agents a, lapsed := l.lapsed ++ [a] } } } := by
  have goes : (!l.agents.contains a || !l.armed.isEmpty || l.gone.contains a) = false := by
    rw [agent, unarmed, there]
    rfl
  rw [loadAgentTimeout, running]
  dsimp only
  rw [goes, if_neg Bool.false_ne_true] <;> rfl

theorem completes_loadAgentTimeout {s : State} {l : Load} {a : Nat} (running : s.img.load = some l)
    (agent : l.agents.contains a = true) (unarmed : l.armed = []) (there : l.gone.contains a = false) :
    Completes (.loadAgentTimeout a) s (fun t =>
      (∀ l', t.img.load = some l' → l'.agents.contains a = false) ∧ t.rd a Reg.IMG_STATUS_RESULT = 0x1D ∧
      t.rd a Reg.IMG_STATUS_PHASE = 0 ∧ t.img.live = s.img.live ∧ t.slc = s.slc ∧ t.core = s.core ∧ t.que = s.que) := by
  refine completes_of_next (execLoadAgentTimeout a s) rfl
    (congrArg Host.Outcome.next (loadAgentTimeout_eq running agent unarmed there)) ?_
  have kept := keeps_lapsedBy l a s
  obtain ⟨phase, result⟩ := lapsedBy_shows l a s
  refine ⟨fun m left => ?_, result, phase, congrArg (·.live) (kept.img id), kept.slc id, kept.core id, kept.que id⟩
  dsimp only at left
  split at left
  · cases left
  · cases left
    exact contains_delNat _ a

/-- Settles O52: the first COMMIT fixes the time, 100 µs ahead (log 129); the first swap carries what the commit does for
the rack (log 53), once its targets are quiet (logs 58 and 118). -/
theorem loadsCommit : Obligations.LoadsCommit :=
  ⟨fun _ _ _ _ => completes_imgCommit_early, fun _ _ _ _ => completes_imgCommit,
    fun _ _ _ _ _ _ => completes_commitRelay, fun _ _ _ => completes_commitSwap_early,
    fun _ _ _ => completes_commitSwap, fun _ _ => completes_imgRelease, fun _ _ _ => completes_loadAgentTimeout⟩

end Sys2Proof.Machine
end

section
/-! PROOFS. PART_CMD, the resets it starts and their end, and FLR (R436, R447, R453, R455, R458, R509). -/

namespace Sys2Proof.Machine

/-! ### What a reset ends -/

/-- No work of the troupes, launches and movers that satisfy the tests is left. -/
structure NoWork (pt : Troupe → Bool) (pl : Launch → Bool) (pm : Mover → Bool) (s : State) : Prop where
  troupes : ∀ x ∈ s.core.troupes, pt x = false
  launches : ∀ l ∈ s.core.launches, pl l = false
  movers : ∀ m ∈ s.que.movers, pm m = false

theorem of_mem_filter_not {α : Type} {f : α → Bool} {l : List α} {x : α} (h : x ∈ l.filter (fun x => !f x)) :
    f x = false := by
  obtain ⟨-, kept⟩ := List.mem_filter.1 h
  rwa [Bool.not_eq_true'] at kept

theorem noWork_dropWork (pt : Troupe → Bool) (pl : Launch → Bool) (pm : Mover → Bool) (s : State) :
    NoWork pt pl pm (dropWork pt pl pm s) where
  troupes _ hx := not_of_mem_dropTroupes (on := fun _ => true) (pl := pl) (s := s) hx
  launches _ hl := of_mem_filter_not hl
  movers _ hm := of_mem_filter_not hm

/-- Work that none began since: a test of launches that looks at their owner. -/
theorem NoWork.of_from {pt : Troupe → Bool} {owned : Nat × Nat × Nat × Nat → Bool} {pm : Mover → Bool} {s t : State}
    (h : NoWork pt (fun l => owned l.owner) pm s) (work : WorkFrom s t) (stopped : StaysStopped s t) :
    NoWork pt (fun l => owned l.owner) pm t where
  troupes x hx := h.troupes x (work.troupes hx)
  launches l hl := by
    obtain ⟨l₀, h₀, same⟩ := work.launches l hl
    exact same ▸ h.launches l₀ h₀
  movers m hm := h.movers m (stopped.movers hm)

/-- Whether work of an owner is an instance's, and a partition's. -/
def ownedByInst (p i : Nat) (o : Nat × Nat × Nat × Nat) : Bool := Nat.beq o.2.1 p && Nat.beq o.2.2.1 i
def ownedByPart (p : Nat) (o : Nat × Nat × Nat × Nat) : Bool := Nat.beq o.2.1 p

/-- No work of instance `i` of partition `p` is left, and none of partition `p`. -/
abbrev NoInstWork (p i : Nat) : State → Prop :=
  NoWork (fun t => Nat.beq t.part p && Nat.beq t.inst i) (fun l => ownedByInst p i l.owner)
    (fun m => Nat.beq m.part p && Nat.beq m.inst i)
abbrev NoPartWork (p : Nat) : State → Prop :=
  NoWork (fun t => Nat.beq t.part p) (fun l => ownedByPart p l.owner) (fun m => Nat.beq m.part p)

theorem resetQueue_stops (q : Nat) {s₀ s : State} (h : WorkFrom s₀ s ∧ StaysStopped s₀ s) :
    WorkFrom s₀ (resetQueue q s) ∧ StaysStopped s₀ (resetQueue q s) := by
  refine ⟨h.1.keeps (resetQueue_keeps trivial trivial q (.refl _ s)), ?_⟩
  have cleared : StaysStopped s₀ (clearQueRegs q s) := h.2.keeps (clearQueRegs_keeps trivial q (.refl _ s))
  refine StaysStopped.beside (.each (fun t x kept => ?_) cleared) rfl rfl
  exact .each (fun _ _ kept => kept.beside rfl rfl) kept

theorem noInstWork_instResetEffects (p i : Nat) (s : State) : NoInstWork p i (instResetEffects p i s) := by
  unfold instResetEffects
  extract_lets s₁ s₂ s₃
  have queues : WorkFrom s₂ s₃ ∧ StaysStopped s₂ s₃ :=
    each_induction (P := fun t => WorkFrom s₂ t ∧ StaysStopped s₂ t) (fun t q _ => resetQueue_stops q) ⟨.refl _, .refl _⟩
  clear_value s₃
  have freed : StaysStopped s₃ (freeSeqs (fun x => Nat.beq x.part p && Nat.beq x.inst i) s₃) :=
    (StaysStopped.refl s₃).beside rfl rfl
  have all : NoInstWork p i s₂ := noWork_dropWork (fun t => Nat.beq t.part p && Nat.beq t.inst i)
    (fun l => Nat.beq l.part p && Nat.beq l.inst i) (fun m => Nat.beq m.part p && Nat.beq m.inst i) _
  clear_value s₂
  refine (all.of_from queues.1 queues.2).of_from ?_ (freed.beside rfl rfl)
  exact (WorkFrom.refl s₃).keeps (dropInstCopies_keeps trivial trivial p i (freeSeqs_keeps trivial _ (.refl _ s₃)))

/-- An instance reset that starts: no work of the instance is left, and it runs. -/
theorem startInstReset_spec (d p i origin : Nat) (waiters : List Nat) (s : State) :
    NoInstWork p i (startInstReset d p i origin waiters s) ∧
    ∃ r ∈ (startInstReset d p i origin waiters s).prt.resets, r.part = p ∧ r.inst = some i ∧ r.waiters = waiters := by
  unfold startInstReset
  have started := noInstWork_instResetEffects p i s
  generalize instResetEffects p i s = t at *
  have broken : NoInstWork p i (redBreakWhere (fun a => Nat.beq a.pkt.key.part p && a.insts.contains i) 4 t) :=
    started.of_from (redBreakWhere_workFrom _ _ (.refl _)) (redBreakWhere_staysStopped _ _ (.refl _))
  generalize redBreakWhere (fun a => Nat.beq a.pkt.key.part p && a.insts.contains i) 4 t = u at *
  exact ⟨⟨broken.troupes, broken.launches, broken.movers⟩, _, List.mem_append_right _ (.head _), rfl, rfl, rfl⟩

theorem instReset_eq {s : State} {d p i origin : Nat} {waiters : List Nat} (known : (instEntry s p i).isSome = true)
    (fresh : coveredReset s p (some i) = false) :
    instReset d p i origin waiters s = startInstReset d p i origin waiters s := by
  rw [instReset, if_neg, if_neg]
  · simp [fresh]
  · simpa [Option.isSome_iff_ne_none] using known

/-- What a partition reset's own part leaves of its work. -/
theorem noPartWork_partResetEffects (p : Nat) (s : State) : NoPartWork p (partResetEffects p s) := by
  unfold partResetEffects
  extract_lets s₁ net s₂ s₃ s₄ s₅
  clear_value s₃
  have dropped : NoPartWork p s₄ := noWork_dropWork (fun t => Nat.beq t.part p) (fun l => Nat.beq l.part p)
    (fun m => Nat.beq m.part p) (dropKills (fun k => Nat.beq k.part p) s₃)
  clear_value s₄
  have zeroed : WorkFrom s₄ s₅ ∧ StaysStopped s₄ s₅ := by
    unfold s₅
    split
    · exact each_induction (P := fun t => WorkFrom s₄ t ∧ StaysStopped s₄ t)
        (f := fun s h => zeroClusters h s) (fun _ _ _ h => ⟨h.1.same rfl rfl rfl, h.2.beside rfl rfl⟩) ⟨.refl _, .refl _⟩
    · exact ⟨.refl _, .refl _⟩
  clear_value s₅
  exact (dropped.of_from zeroed.1 zeroed.2).of_from
    ((WorkFrom.refl s₅).keeps (cacheActions_keeps trivial trivial p (.refl _ s₅)))
    ((StaysStopped.refl s₅).keeps (cacheActions_keeps trivial trivial p (.refl _ s₅)))

theorem mem_foldl_addNat {l ws : List Nat} {d : Nat} (h : d ∈ ws) : d ∈ l.foldl addNat ws := by
  induction l generalizing ws with
  | nil => exact h
  | cons x l ih =>
    refine ih (List.contains_iff_mem.1 ?_)
    rw [contains_addNat, List.contains_iff_mem.2 h, Bool.true_or]

/-- A partition reset that starts: no work of the partition is left, and it runs. -/
theorem partReset_spec {s : State} {d p origin : Nat} {waiters : List Nat} (fresh : coveredReset s p none = false) :
    NoPartWork p (partReset d p origin waiters s) ∧
    ∃ r ∈ (partReset d p origin waiters s).prt.resets, r.part = p ∧ r.inst = none ∧ ∀ x ∈ waiters, x ∈ r.waiters := by
  unfold partReset
  rw [if_neg (by simp [fresh])]
  have started := noPartWork_partResetEffects p s
  generalize partResetEffects p s = t at *
  have dropped : NoPartWork p (dropPartCopies p t) := started.of_from
    ((WorkFrom.refl _).keeps (dropPartCopies_keeps trivial trivial p (.refl _ _))) ((StaysStopped.refl _).beside rfl rfl)
  generalize dropPartCopies p t = u at *
  exact ⟨⟨dropped.troupes, dropped.launches, dropped.movers⟩, _, List.mem_append_right _ (.head _), rfl, rfl,
    fun _ => mem_foldl_addNat⟩

/-! ### PART_CMD -/

/-- The fields of PART_CMD written, and RESULT. -/
def cmdWritten (d part inst result : Nat) (s : State) : State :=
  (((s.wr d Reg.PART_CMD_OP 0).wr d Reg.PART_CMD_PART part).wr d Reg.PART_CMD_INST inst).wr d Reg.PART_CMD_STATUS_RESULT
    result

/-- What a command of PART_CMD writes beside what it does. -/
def cmdFields : List Fld := [Reg.PART_CMD_OP, Reg.PART_CMD_PART, Reg.PART_CMD_INST, Reg.PART_CMD_STATUS_RESULT]

theorem fieldsBut_cmdWritten (d part inst result : Nat) (s : State) : FieldsBut cmdFields s (cmdWritten d part inst result s) :=
  .wr (.wr (.wr (.wr (.of_regs rfl) d 0 (by simp [cmdFields])) d part (by simp [cmdFields])) d inst (by simp [cmdFields]))
    d result (by simp [cmdFields])

theorem fieldsBut_cmd (d part inst : Nat) (s : State) :
    FieldsBut cmdFields s (((s.wr d Reg.PART_CMD_OP 0).wr d Reg.PART_CMD_PART part).wr d Reg.PART_CMD_INST inst) :=
  .wr (.wr (.wr (.of_regs rfl) d 0 (by simp [cmdFields])) d part (by simp [cmdFields])) d inst (by simp [cmdFields])

theorem HalvesAs.partDies {s t : State} (h : HalvesAs s t) (p : Nat) : partDies t p = partDies s p := by
  rw [Machine.partDies, Machine.partDies, allDies, allDies, h.code]
  exact List.filter_congr fun d _ => h.dieIn p d

/-- A command that finds BUSY changes RESULT alone. -/
theorem completes_partCmd_busy {s : State} {c : Instr} {d : Nat} {part inst : Nat} {f : State → State}
    (arm : exec c s = onDie s d (partCmd d part inst f)) (hd : d < dieCount s.orderCode)
    (busy : s.rd d Reg.PART_CMD_STATUS_BUSY = 1) : Completes c s (fun t =>
      t.rd d Reg.PART_CMD_STATUS_RESULT = 1 ∧ RegsBut [(d, Reg.PART_CMD_STATUS_RESULT)] s t ∧ t.prt = s.prt ∧
      t.core = s.core ∧ t.que = s.que) := by
  refine completes_of_onDie _ arm rfl hd ?_
  rw [partCmd, if_pos busy]
  exact ⟨State.rd_wr_same .., .wr (.refl _ s) d Reg.PART_CMD_STATUS_RESULT 1 (by simp), rfl, rfl, rfl⟩

/-- What GO_LIVE does where it is allowed. -/
def goLiveDone (d p i : Nat) (src : Source) (s : State) : State :=
  let r := goLiveResult s p i src
  let s := s.wr d Reg.PART_CMD_STATUS_RESULT r
  if r = 0 then setInstState p i 2 s else s

theorem goLive_allowed {s : State} {d p i : Nat} {src : Source} (ok : wardenOk s p src = true) :
    goLive d p i src s = partCmd d p i (goLiveDone d p i src) s := by
  rw [goLive, if_pos ok] <;> rfl

theorem wardenOk_of_unsealed {s : State} {p : Nat} (plain : partSealed s p = false) (src : Source) :
    wardenOk s p src = true := by
  rw [wardenOk, plain]
  rfl

theorem completes_busy {s : State} {d p i : Nat} {src : Source} {c : Instr}
    (hc : c ∈ [Instr.goLive d p i .dc, Instr.instReset d p i src, Instr.partReset d p src])
    (hd : d < dieCount s.orderCode) (plain : partSealed s p = false) (busy : s.rd d Reg.PART_CMD_STATUS_BUSY = 1) :
    Completes c s (fun t =>
      t.rd d Reg.PART_CMD_STATUS_RESULT = 1 ∧ RegsBut [(d, Reg.PART_CMD_STATUS_RESULT)] s t ∧ t.prt = s.prt ∧
      t.core = s.core ∧ t.que = s.que) := by
  simp only [List.mem_cons, List.not_mem_nil, or_false] at hc
  obtain rfl | rfl | rfl := hc
  · refine completes_partCmd_busy (part := p) (inst := i) (f := goLiveDone d p i .dc) ?_ hd busy
    show execGoLive d p i .dc s = _
    rw [execGoLive, onDie_of_lt hd, onDie_of_lt hd, goLive_allowed (wardenOk_of_unsealed plain .dc)]
  · exact completes_partCmd_busy rfl hd busy
  · exact completes_partCmd_busy rfl hd busy

/-! ### GO_LIVE -/

/-- PART_INST of any half. -/
def instFields : List Fld := (List.range 64).map Reg.PART_INST

theorem instField_mem {h i : Nat} (hi : i < 32) : Reg.PART_INST (32 * (h % 2) + i) ∈ instFields :=
  List.mem_map.2 ⟨_, List.mem_range.2 (by omega), rfl⟩

theorem fieldsBut_setInstState {i : Nat} (hi : i < 32) (p st : Nat) (s : State) :
    FieldsBut instFields s (setInstState p i st s) :=
  .each (fun _ h => .wr (.of_regs rfl) _ st (instField_mem (h := h) hi)) _ s

theorem setInstState_shows {s : State} {p h : Nat} (own : h ∈ partHalves s p) (i st : Nat) :
    (setInstState p i st s).rd (h / 2) (Reg.PART_INST (32 * (h % 2) + i)) = st % 4 :=
  each_reaches (P := fun _ => True) (Q := fun t => t.rd (h / 2) (Reg.PART_INST (32 * (h % 2) + i)) = st % 4) own
    (fun _ _ _ _ => trivial) (fun _ _ => State.rd_wr_same ..)
    (fun _ k _ same => State.rd_wr_of_rd (g := Reg.PART_INST (32 * (k % 2) + i)) rfl same) trivial

/-- What GO_LIVE looks at. -/
theorem goLiveResult_congr {s t : State} (halves : HalvesAs s t) (img : t.img = s.img)
    (inst : ∀ d side i, side < 2 → i < 32 → t.rd d (Reg.PART_INST (32 * side + i)) = s.rd d (Reg.PART_INST (32 * side + i)))
    (attach : ∀ d, t.rd d Reg.HOST_STATUS_ATTACH = s.rd d Reg.HOST_STATUS_ATTACH) {i : Nat} (hi : i < 32) (p : Nat)
    (src : Source) : goLiveResult t p i src = goLiveResult s p i src := by
  have entry : instEntry t p i = instEntry s p i := by
    rw [instEntry, instEntry, instances, instances, liveBody, liveBody, img]
  have foreign : foreignPf t p i src = foreignPf s p i src := by
    cases src <;> simp only [foreignPf, entry]
  have state (d : Nat) : instState t d p i = instState s d p i := by
    rw [instState, instState, instSlot, instSlot, partSide, partSide, halves.halfIn (by decide)]
    exact inst d _ i (by split <;> decide) hi
  have attached (port : Nat) : attachOf t port = attachOf s port := attach _
  simp only [goLiveResult, entry, halves.partDies, foreign, state, attached]

theorem completes_goLive {s : State} {d p i : Nat} {src : Source} (hd : d < dieCount s.orderCode) (hi : i < 32)
    (ok : wardenOk s p src = true) (idle : s.rd d Reg.PART_CMD_STATUS_BUSY ≠ 1) (acts : goLiveResult s p i src = 0) :
    Completes (.goLive d p i src) s (fun t =>
      t.rd d Reg.PART_CMD_STATUS_RESULT = 0 ∧
      (∀ h ∈ partHalves s p, t.rd (h / 2) (Reg.PART_INST (32 * (h % 2) + i)) = 2) ∧ t.slc = s.slc ∧ t.core = s.core ∧
      t.que = s.que ∧ t.recs = s.recs) := by
  have halves := (fieldsBut_cmd d p i s).halvesAs rfl rfl
  have result := goLiveResult_congr halves rfl (fun e side j hs hj => (fieldsBut_cmd d p i s) e _ (by
      have apart : ∀ n < 64, cmdFields.all (Reg.PART_INST n).apart = true := by decide
      exact apart _ (by omega)))
    (fun e => (fieldsBut_cmd d p i s) e _ rfl) hi p src
  have effect : goLive d p i src s = setInstState p i 2 (cmdWritten d p i 0 s) := by
    rw [goLive_allowed ok, partCmd, if_neg idle, goLiveDone, result, acts]
    rfl
  refine completes_of_onDie (execGoLive d p i src s) rfl rfl hd ?_
  rw [effect]
  have kept := setInstState_keeps (F := loadFrame) trivial p i 2 (.refl _ (cmdWritten d p i 0 s))
  have own := ((fieldsBut_cmdWritten d p i 0 s).halvesAs rfl rfl).partHalves p
  refine ⟨?_, fun h hh => setInstState_shows (own.symm ▸ hh) i 2, kept.slc id, kept.core id, kept.que id, kept.recs id⟩
  exact ((fieldsBut_setInstState hi p 2 _) d _ (by decide)).trans (State.rd_wr_same ..)

/-! ### Resets asked for -/

/-- BUSY of a die that waits for a reset. -/
theorem partBusy_shows {s : State} {d : Nat} {r : ResetRun} (runs : r ∈ s.prt.resets) (waits : d ∈ r.waiters) :
    (partBusy d s).rd d Reg.PART_CMD_STATUS_BUSY = 1 := by
  have busy : s.prt.resets.any (fun r => r.waiters.contains d) = true :=
    List.any_eq_true.2 ⟨r, runs, List.contains_iff_mem.2 waits⟩
  rw [partBusy, busy]
  exact State.rd_wr_same ..

theorem completes_instReset {s : State} {d p i : Nat} {src : Source} (hd : d < dieCount s.orderCode)
    (idle : s.rd d Reg.PART_CMD_STATUS_BUSY ≠ 1) (known : (instEntry s p i).isSome = true) (there : partDies s p ≠ [])
    (own : foreignPf s p i src = false) (fresh : coveredReset s p (some i) = false) :
    Completes (.instReset d p i src) s (fun t =>
      (∃ r ∈ t.prt.resets, r.part = p ∧ r.inst = some i ∧ r.waiters = [d]) ∧
      t.rd d Reg.PART_CMD_STATUS_BUSY = 1 ∧ (∀ x ∈ t.core.troupes, ¬(x.part = p ∧ x.inst = i)) ∧
      (∀ m ∈ t.que.movers, ¬(m.part = p ∧ m.inst = i))) := by
  have halves := ((fieldsBut_cmd d p i s).halvesAs rfl rfl).partDies p
  have effect : instResetCmd d p i src s = partBusy d (startInstReset d p i 0 [d] (cmdWritten d p i 0 s)) := by
    rw [instResetCmd, partCmd, if_neg idle]
    generalize hu : ((s.wr d Reg.PART_CMD_OP 0).wr d Reg.PART_CMD_PART p).wr d Reg.PART_CMD_INST i = u at *
    have named : instEntry u p i = instEntry s p i := hu ▸ rfl
    have foreign : foreignPf u p i src = foreignPf s p i src := by
      cases src <;> simp only [foreignPf, named]
    have good : ((instEntry u p i).isNone || (partDies u p).isEmpty) = false := by
      rw [named, halves, Bool.or_eq_false_iff]
      exact ⟨by simpa [Option.isSome_iff_ne_none] using known, by simpa using there⟩
    rw [good, foreign, own, if_neg Bool.false_ne_true, if_neg Bool.false_ne_true, instReset_eq]
    · rw [cmdWritten, hu]
    · exact (congrArg Option.isSome named).trans known
    · exact (show coveredReset (u.wr d Reg.PART_CMD_STATUS_RESULT 0) p (some i) = coveredReset s p (some i) by
        subst hu; rfl).trans fresh
  refine completes_of_onDie (execInstReset d p i src s) rfl rfl hd ?_
  rw [effect]
  obtain ⟨gone, r, runs, part, inst, waiters⟩ := startInstReset_spec d p i 0 [d] (cmdWritten d p i 0 s)
  generalize startInstReset d p i 0 [d] (cmdWritten d p i 0 s) = u at *
  refine ⟨⟨r, runs, part, inst, waiters⟩, partBusy_shows runs (waiters ▸ .head _), fun x hx same => ?_, fun m hm same => ?_⟩
  · have none_ := gone.troupes x hx
    simp [same.1, same.2] at none_
  · have none_ := gone.movers m hm
    simp [same.1, same.2] at none_

theorem completes_partReset {s : State} {d p : Nat} {src : Source} (hd : d < dieCount s.orderCode)
    (idle : s.rd d Reg.PART_CMD_STATUS_BUSY ≠ 1) (there : partDies s p ≠ []) (rm : fromRm src = true)
    (free : loadConcerns s p = false) (fresh : coveredReset s p none = false) :
    Completes (.partReset d p src) s (fun t =>
      (∃ r ∈ t.prt.resets, r.part = p ∧ r.inst = none ∧ d ∈ r.waiters) ∧ t.rd d Reg.PART_CMD_STATUS_BUSY = 1 ∧
      (∀ x ∈ t.core.troupes, x.part ≠ p) ∧ (∀ l ∈ t.core.launches, l.part ≠ p) ∧ (∀ m ∈ t.que.movers, m.part ≠ p)) := by
  have halves := ((fieldsBut_cmd d p 0 s).halvesAs rfl rfl).partDies p
  have effect : partResetCmd d p src s = partBusy d (partReset d p 0 [d] (cmdWritten d p 0 0 s)) := by
    rw [partResetCmd, partCmd, if_neg idle]
    generalize hu : ((s.wr d Reg.PART_CMD_OP 0).wr d Reg.PART_CMD_PART p).wr d Reg.PART_CMD_INST 0 = u at *
    have concerns : loadConcerns u p = false := (show loadConcerns u p = loadConcerns s p by subst hu; rfl).trans free
    have some_ : (partDies u p).isEmpty = false := by simpa [halves] using there
    rw [some_, concerns, rm, if_neg Bool.false_ne_true, if_neg (by decide), if_neg Bool.false_ne_true, cmdWritten, hu]
  refine completes_of_onDie (execPartReset d p src s) rfl rfl hd ?_
  rw [effect]
  obtain ⟨gone, r, runs, part, inst, waiters⟩ := partReset_spec (s := cmdWritten d p 0 0 s) (d := d) (origin := 0)
    (waiters := [d]) (show coveredReset (cmdWritten d p 0 0 s) p none = false from fresh)
  generalize partReset d p 0 [d] (cmdWritten d p 0 0 s) = u at *
  have waits := waiters d (.head _)
  exact ⟨⟨r, runs, part, inst, waits⟩, partBusy_shows runs waits, fun x hx => Nat.ne_of_beq_eq_false (gone.troupes x hx),
    fun l hl => Nat.ne_of_beq_eq_false (gone.launches l hl), fun m hm => Nat.ne_of_beq_eq_false (gone.movers m hm)⟩

/-! ### The end of a reset -/

/-- What the end of a reset writes before its record. -/
def endEffects (r : ResetRun) (s : State) : State :=
  match r.inst with
  | some i => endInstReset r.part i s
  | none => endPartReset r.part s

def endEffectsFrame : Frame := { noFrame with regs := True, que := True, prt := True }

theorem endEffects_spec (r : ResetRun) (s : State) : Keeps endEffectsFrame s (endEffects r s) ∧
    (endEffects r s).prt.resets = s.prt.resets ∧
    (r.inst = none → (endEffects r s).prt.faulted.contains r.part = false) := by
  unfold endEffects
  cases r.inst with
  | some i =>
    have kept := endInstReset_keeps (F := { noFrame with regs := True, que := True }) trivial trivial r.part i (.refl _ s)
    exact ⟨endInstReset_keeps trivial trivial r.part i (.refl _ s), congrArg (·.resets) (kept.prt id), nofun⟩
  | none =>
    have kept : Keeps { noFrame with regs := True, que := True } s
        (each (instIds s r.part) (fun s i => endInstReset r.part i s) (setPartState r.part 1 s)) :=
      each_keeps (fun _ i h => endInstReset_keeps trivial trivial r.part i h) (setPartState_keeps trivial r.part 1 (.refl _ s))
    exact ⟨endPartReset_keeps trivial trivial trivial r.part (.refl _ s),
      (congrArg Parts.resets (kept.prt id) :), fun _ => contains_delNat _ _⟩

/-- The reset is over, and recorded. -/
def resetOver (r : ResetRun) (s : State) : State :=
  let s := resetRecord r.die (if r.inst.isSome then 1 else 2) r.part (r.inst.getD 0xFF) r.origin
    (sinceUs s r.die r.startedAt) s
  { s with prt := { s.prt with resets := s.prt.resets.erase r } }

/-- What waited for the reset goes on. -/
def resetReleases (r : ResetRun) (s : State) : State :=
  each (allDies s) (fun s d => drainInvals d 9 s) (each r.waiters (fun s d => partBusy d s) s)

theorem endReset_eq (r : ResetRun) (s : State) : endReset r s = resetReleases r (resetOver r (endEffects r s)) := rfl

theorem keeps_resetReleases (r : ResetRun) (s : State) :
    Keeps { noFrame with regs := True, xlt := True } s (resetReleases r s) :=
  each_keeps (fun _ d h => drainInvals_keeps trivial trivial d 9 h)
    (each_keeps (fun _ d h => partBusy_keeps trivial d h) (.refl _ s))

theorem completes_resetComplete {s : State} {p : Nat} {i : Option Nat} {r : ResetRun}
    (found : s.prt.resets.find? (fun r => Nat.beq r.part p && r.inst == i) = some r) :
    Completes (.resetComplete p i) s (fun t =>
      t.prt.resets = s.prt.resets.erase r ∧ (i = none → t.prt.faulted.contains p = false) ∧
      HandsOver r.die 0 0x034 0 s t ∧ t.core = s.core ∧ t.slc = s.slc) := by
  refine completes_of_next (execResetComplete p i s) rfl rfl ?_
  have named := List.find?_some (p := fun r : ResetRun => Nat.beq r.part p && r.inst == i) found
  rw [Bool.and_eq_true, Nat.beq_eq, beq_iff_eq] at named
  obtain ⟨rfl, rfl⟩ := named
  rw [resetComplete, found]
  dsimp only
  rw [endReset_eq]
  obtain ⟨kept, resets, faulted⟩ := endEffects_spec r s
  generalize endEffects r s = u at *
  have told : HandsOver r.die 0 0x034 0 s (resetOver r u) :=
    handsOver_emit _ _ _ _ _ _ (congrArg (·.waiting) (kept.recs id))
  have resets_ : (resetOver r u).prt = { u.prt with resets := u.prt.resets.erase r } := rfl
  have core : (resetOver r u).core = u.core := rfl
  have slc : (resetOver r u).slc = u.slc := rfl
  generalize resetOver r u = v at *
  have finished := keeps_resetReleases r v
  refine ⟨?_, fun none_ => ?_, ?_, ((finished.core id).trans core).trans (kept.core id),
    ((finished.slc id).trans slc).trans (kept.slc id)⟩
  · rw [finished.prt id, resets_, ← resets]
  · rw [finished.prt id, resets_]
    exact faulted none_
  · obtain ⟨x, waiting, shape⟩ := told
    exact ⟨x, (congrArg (·.waiting) (finished.recs id)).trans waiting, shape⟩

/-! ### FLR -/

/-- What FLR does to its function before anything else. -/
def fnLeft (port f : Nat) (s : State) : State :=
  let s := cutBursts (fun b => Nat.beq b.port port && Nat.beq b.fn f) 0 (fnReset port f s)
  { s with host := { s.host with msixTab := s.host.msixTab.filter (fun x => !(Nat.beq x.1 port && Nat.beq x.2.1 f)) } }

def fnFrame : Frame := { noFrame with regs := True, host := True, recs := True }

theorem keeps_cutFn (port f : Nat) (s : State) :
    Keeps fnFrame s (cutBursts (fun b => Nat.beq b.port port && Nat.beq b.fn f) 0 (fnReset port f s)) :=
  cutBursts_keeps trivial trivial trivial _ 0 (fnReset_keeps trivial port f (.refl _ s))

theorem fnLeft_spec (port f : Nat) (s : State) : (fnLeft port f s).core = s.core ∧ (fnLeft port f s).que = s.que ∧
    (fnLeft port f s).slc = s.slc ∧ (fnLeft port f s).img = s.img ∧ (fnLeft port f s).prt = s.prt ∧
    (fnLeft port f s).host.numVfs = s.host.numVfs := by
  have kept := keeps_cutFn port f s
  have reset := (fnReset_keeps (F := loadFrame) trivial port f (.refl _ s)).host id
  have cut (t : State) (l : List Burst) : Keeps { noFrame with regs := True, recs := True } t
      (each l (fun s b => cutRecord b 0 s) t) :=
    each_keeps (fun _ b h => cutRecord_keeps trivial trivial b 0 h) (.refl _ t)
  exact ⟨kept.core id, kept.que id, kept.slc id, kept.img id, kept.prt id,
    (congrArg HostSt.numVfs ((cut _ _).host id)).trans (congrArg HostSt.numVfs reset :)⟩

theorem flr_eq {s : State} {port f : Nat} (live : portLive s port = true) (attached : attachOf s port ≠ 0)
    (named : f ≤ SMap.get 0 s.host.numVfs port) : flr port f s =
      if f = 0 then (abiReset port (fnLeft port f s)).wr (portDie port) Reg.HOST_STATUS_ATTACH 1
      else match requesterInst (fnLeft port f s) port f none with
        | some (p, i) => instReset (portDie port) p i 1 [] (fnLeft port f s)
        | none => fnLeft port f s := by
  rw [flr, if_neg]
  · rfl
  · simp [live, attached, named]

/-- A count of cut bursts, of whatever function, is no field from bit 16 on. -/
theorem rd_count_cut {s : State} {d e n : Nat} {f : Fld} (lo : f.lo = 16) :
    (s.count e (Reg.HOST_FN_CUT n) 1).rd d f = s.rd d f := by
  refine State.rd_count_ne _ _ _ _ _ _ fun same => ?_
  simp only [Fld.key, lo, Reg.HOST_FN_CUT] at same
  omega

theorem rd_fnLeft (port f : Nat) (s : State) : (fnLeft port f s).rd (portDie port) (Reg.HOST_FN_VBASE f) = 0 := by
  have reset : (fnReset port f s).rd (portDie port) (Reg.HOST_FN_VBASE f) = 0 := by
    rw [fnReset, State.rd_wr_indexed (f := Reg.HOST_FN_VBASE) (g := Reg.HOST_FN_CUT) 0x20 rfl,
      State.rd_wr_indexed (f := Reg.HOST_FN_VBASE) (g := Reg.HOST_FN_PBASE) 0x20 rfl,
      State.rd_wr_indexed (f := Reg.HOST_FN_VBASE) (g := Reg.HOST_FN_CTX_CTX) 0x20 rfl]
    exact State.rd_wr_same ..
  exact each_induction (P := fun t => t.rd (portDie port) (Reg.HOST_FN_VBASE f) = 0) (f := fun s b => cutRecord b 0 s)
    (fun t b _ same => (rd_count_cut rfl).trans same) reset

/-- The registers of HOST_ABI and HOST_ABI_STATUS at their reset values. -/
def abiCleared (port : Nat) (s : State) : State :=
  (((s.wr (portDie port) Reg.HOST_ABI_MINOR 0).wr (portDie port) Reg.HOST_ABI_MAJOR 0).wr (portDie port)
    Reg.HOST_ABI_STATUS_RESULT 0).wr (portDie port) Reg.HOST_ABI_STATUS_ACTIVE 0

theorem rd_abiReset (port : Nat) (s : State) : (abiReset port s).rd (portDie port) Reg.HOST_ABI_STATUS_ACTIVE = 0 := by
  have cleared : (abiCleared port s).rd (portDie port) Reg.HOST_ABI_STATUS_ACTIVE = 0 := State.rd_wr_same ..
  exact cleared

theorem fieldsBut_abiReset (port : Nat) (s : State) :
    FieldsBut [Reg.HOST_ABI_MINOR, Reg.HOST_ABI_MAJOR, Reg.HOST_ABI_STATUS_RESULT, Reg.HOST_ABI_STATUS_ACTIVE,
      Reg.HOST_STATUS_ATTACH] s (abiReset port s) := by
  have cleared : FieldsBut [Reg.HOST_ABI_MINOR, Reg.HOST_ABI_MAJOR, Reg.HOST_ABI_STATUS_RESULT,
      Reg.HOST_ABI_STATUS_ACTIVE, Reg.HOST_STATUS_ATTACH] s (abiCleared port s) :=
    .wr (.wr (.wr (.wr (.of_regs rfl) _ 0 (by simp)) _ 0 (by simp)) _ 0 (by simp)) _ 0 (by simp)
  exact cleared.trans (.of_regs rfl)

theorem completes_flr_pf {s : State} {port : Nat} (hd : portDie port < dieCount s.orderCode)
    (live : portLive s port = true) (attached : attachOf s port ≠ 0) : Completes (.flr port 0) s (fun t =>
      attachOf t port = 1 ∧ t.rd (portDie port) Reg.HOST_ABI_STATUS_ACTIVE = 0 ∧
      t.rd (portDie port) (Reg.HOST_FN_VBASE 0) = 0 ∧ t.core = s.core ∧ t.que = s.que ∧ t.slc = s.slc) := by
  refine completes_of_onDie (execFlr port 0 s) rfl rfl hd ?_
  rw [flr_eq live attached (Nat.zero_le _), if_pos rfl]
  obtain ⟨core, que, slc, -, -, -⟩ := fnLeft_spec port 0 s
  have base := rd_fnLeft port 0 s
  generalize fnLeft port 0 s = u at *
  refine ⟨State.rd_wr_same .., ?_, ?_, core, que, slc⟩
  · exact (State.rd_wr_apart rfl ..).trans (rd_abiReset port u)
  · exact ((fieldsBut_abiReset port u).wr _ 1 (by simp) _ _ rfl).trans base

theorem completes_flr_vf {s : State} {port f p i : Nat} (hd : portDie port < dieCount s.orderCode)
    (live : portLive s port = true) (attached : attachOf s port ≠ 0) (vf : 0 < f)
    (named : f ≤ SMap.get 0 s.host.numVfs port) (who : requesterInst s port f none = some (p, i))
    (known : (instEntry s p i).isSome = true) (fresh : coveredReset s p (some i) = false) :
    Completes (.flr port f) s (fun t =>
      (∃ r ∈ t.prt.resets, r.part = p ∧ r.inst = some i ∧ r.waiters = []) ∧
      (∀ x ∈ t.core.troupes, ¬(x.part = p ∧ x.inst = i))) := by
  refine completes_of_onDie (execFlr port f s) rfl rfl hd ?_
  rw [flr_eq live attached named, if_neg (by omega)]
  obtain ⟨-, -, -, img, prt, vfs⟩ := fnLeft_spec port f s
  generalize fnLeft port f s = u at *
  have same : requesterInst u port f none = requesterInst s port f none := by
    simp only [requesterInst, vfs, imgParts, instances, liveBody, sliceMode, modes, partField, img]
  have entry : instEntry u p i = instEntry s p i := by
    rw [instEntry, instEntry, instances, instances, liveBody, liveBody, img]
  have free : coveredReset u p (some i) = coveredReset s p (some i) := by
    rw [coveredReset, coveredReset, prt]
  rw [same, who]
  dsimp only
  rw [instReset_eq (entry.symm ▸ known) (free.trans fresh)]
  obtain ⟨gone, runs⟩ := startInstReset_spec (portDie port) p i 1 [] u
  refine ⟨runs, fun x hx own => ?_⟩
  have none_ := gone.troupes x hx
  simp [own.1, own.2] at none_

/-- Settles O53: GO-LIVE acts on every half at once (log 123), from the sources of log 41; each reset drops the work of
its own and stands in the list of resets until it is over. -/
theorem partitionCommands : Obligations.PartitionCommands :=
  ⟨fun _ _ _ _ _ => completes_goLive, fun _ _ _ _ _ _ => completes_busy, fun _ _ _ _ _ => completes_instReset,
    fun _ _ _ _ => completes_partReset, fun _ _ _ _ => completes_resetComplete, fun _ _ => completes_flr_pf,
    fun _ _ _ _ _ => completes_flr_vf⟩

end Sys2Proof.Machine
end

section
/-! PROOFS. PART_SRAM (R465) for an entry that no die has. -/

namespace Sys2Proof.Machine

/-- The remapping entry that PART_SRAM names here: its owner is read from PART_HALF[8], of which a die has two. In the
register map the place of PART_HALF[8].PART is that of PART_IRQ_DROP. -/
def strayEntry : Nat := 8 * 2048

/-- Partition 5 is in the live image, PART_IRQ_DROP of die 0 is 5, and PART_HALF[8].ASSIGNED reads 1. -/
def strayState : State :=
  { (State.reset.wr 0 (Reg.PART_HALF_ASSIGNED 8) 1).wr 0 Reg.PART_IRQ_DROP 5 with
    img := { State.reset.img with live := [⟨1, 5, []⟩] } }

/-- The count of the discarded raise has moved the owner on: it reads 6. -/
theorem halfPart_strayState :
    halfPart strayState 0 8 = some 5 ∧ halfPart (strayState.count 0 Reg.PART_IRQ_DROP 1) 0 8 = some 6 := by decide

/-- No half is partition 6's. -/
theorem partHalves_strayState : partHalves (strayState.count 0 Reg.PART_IRQ_DROP 1) 6 = [] := by decide

/-- Partition 6 is neither in the live image nor has it a half, so that its fault faults none. -/
theorem partFault_strayState (cause d ctype cseq : Nat) (unit typ cls : Nat) (sealed_ : Bool) (payload : List PF) :
    (partFault 6 cause d ctype cseq (emit 0 unit typ cls sealed_ payload (strayState.count 0 Reg.PART_IRQ_DROP 1))).prt =
      strayState.prt := by
  have halves : partHalves (emit 0 unit typ cls sealed_ payload (strayState.count 0 Reg.PART_IRQ_DROP 1)) 6 = [] :=
    partHalves_strayState
  rw [partFault, if_pos]
  · rfl
  · rw [halves]
    rfl

theorem arrayError_strayState : (arrayError 0 0 strayEntry strayState).prt.faulted = [] := by
  have owner : halfPart (strayState.count 0 Reg.PART_IRQ_DROP 1) 0 (strayEntry / 2048) = some 6 := halfPart_strayState.2
  simp only [arrayError, partSram, if_true, owner]
  exact congrArg Parts.faulted (partFault_strayState ..)

/-- Refutes O54: PART_SRAM of entry 16384 counts its raise in PART_IRQ_DROP before it reads the owner from PART_HALF[8],
which stands at the place of PART_IRQ_DROP; partition 5 of the statement does not fault. -/
theorem not_gatesStringsAndWarden : ¬ Obligations.GatesStringsAndWarden := by
  rintro ⟨⟨-, -, sram, -⟩, -⟩
  obtain ⟨t, step, faulted⟩ := sram strayState 0 0 strayEntry 5 (by decide) (by decide) halfPart_strayState.1 (by decide)
  have effect : exec (.partSram 0 0 strayEntry) strayState = .next (arrayError 0 0 strayEntry strayState) :=
    show execPartSram 0 0 strayEntry strayState = _ from onDie_of_lt (by decide)
  obtain rfl : arrayError 0 0 strayEntry strayState = t := by
    simpa using effect.symm.trans step
  rw [arrayError_strayState] at faulted
  cases faulted

end Sys2Proof.Machine
end

section
/-! PROOFS. Host ports (R498, R509, R514, R515, R526, R527): links, resets of a port, ATS, port errors, configuration. -/

namespace Sys2Proof.Machine

/-! ### The partner table as the dies hold it -/

/-- PT[i] of the die and index of a key. -/
theorem ptEntry_store {s : State} {d i e j : Nat} (hi : i < 256) (hj : j < 256) (x : PtEntry) :
    ptEntry { s with host := { s.host with pt := bind_ (d * 256 + i) x s.host.pt } } e j =
      if e = d ∧ j = i then x else ptEntry s e j := by
  rw [ptEntry, ptEntry]
  split
  · next same =>
    rw [same.1, same.2, look_bind_same]
    rfl
  · next other =>
    rw [look_bind_ne]
    intro same
    exact other (by omega)

/-- PT[i] on every die that is up. -/
def storedOn (l : List Nat) (i : Nat) (e : PtEntry) (s : State) : State :=
  each l (fun s d => { s with host := { s.host with pt := bind_ (d * 256 + i) e s.host.pt } }) s

theorem ptEntry_storedOn (l : List Nat) {i j : Nat} (hi : i < 256) (hj : j < 256) (e : PtEntry) (s : State) (d : Nat) :
    ptEntry (storedOn l i e s) d j = if d ∈ l ∧ j = i then e else ptEntry s d j := by
  induction l generalizing s with
  | nil => simp [storedOn, each]
  | cons x l ih =>
    refine (ih _).trans ?_
    rw [ptEntry_store hi hj]
    by_cases inside : d ∈ l ∧ j = i
    · rw [if_pos inside, if_pos ⟨.tail _ inside.1, inside.2⟩]
    · rw [if_neg inside]
      by_cases here : d = x ∧ j = i
      · rw [if_pos here, if_pos ⟨here.1 ▸ .head _, here.2⟩]
      · have outside : ¬(d ∈ x :: l ∧ j = i) := fun ⟨member, index⟩ =>
          (List.mem_cons.1 member).elim (fun same => here ⟨same, index⟩) fun later => inside ⟨later, index⟩
        rw [if_neg here, if_neg outside]

/-- The parts beside the table and the copies of it. -/
theorem storedOn_rest (l : List Nat) (i : Nat) (e : PtEntry) (s : State) :
    (storedOn l i e s).regs = s.regs ∧ (storedOn l i e s).xlt = s.xlt ∧
    (storedOn l i e s).host.outbound = s.host.outbound ∧ (storedOn l i e s).host.bursts = s.host.bursts :=
  each_induction (P := fun t => t.regs = s.regs ∧ t.xlt = s.xlt ∧ t.host.outbound = s.host.outbound ∧
    t.host.bursts = s.host.bursts)
    (f := fun s d => { s with host := { s.host with pt := bind_ (d * 256 + i) e s.host.pt } })
    (fun _ _ _ same => same) ⟨rfl, rfl, rfl, rfl⟩

theorem ptEntry_ptStore {i j : Nat} (hi : i < 256) (hj : j < 256) (e : PtEntry) (s : State) (d : Nat) :
    ptEntry (ptStore i e s) d j = if d ∈ ptDies s ∧ j = i then e else ptEntry s d j :=
  ptEntry_storedOn (ptDies s) hi hj e s d

theorem regs_ptStore (i : Nat) (e : PtEntry) (s : State) : (ptStore i e s).regs = s.regs := (storedOn_rest ..).1

/-- No copy of the entry stays. -/
theorem pts_ptStore {i : Nat} {e : PtEntry} {s : State} {c : PtCopy} (h : c ∈ (ptStore i e s).xlt.pts) : c.index ≠ i :=
  Nat.ne_of_not_beq (List.mem_filter.1 h).2

/-! ### A link comes up -/

/-- What HOST_STATUS shows of the link. -/
def linkShown (port speed width : Nat) (flit : Bool) (s : State) : State :=
  ((s.wr (portDie port) Reg.HOST_STATUS_SPEED speed).wr (portDie port) Reg.HOST_STATUS_WIDTH width).wr (portDie port)
    Reg.HOST_STATUS_FLIT (if flit then 1 else 0)

theorem linkUp_eq {s : State} {port speed width cap : Nat} {flit : Bool} (live : portLive s port = true)
    (whole : s.host.failedPorts.contains port = false) (down : linkIsUp s port = false) (role : roleOf s port < 2)
    (mode : speed = 6 → flit = true) : linkUp port speed width flit cap s =
      if roleOf s port = 0 then (linkShown port speed width flit s).wr (portDie port) Reg.HOST_STATUS_ATTACH 1
      else ptStore (32 + port) (cxlEntry port cap)
        ((((linkShown port speed width flit s).wr (portDie port) Reg.HOST_CXL_PRESENT 1).wr (portDie port) Reg.HOST_CXL_HDM
          1).wr (portDie port) Reg.HOST_CXL_CAP ((cxlEntry port cap).size.toNat / 0x10000)) := by
  have same : roleOf (linkShown port speed width flit s) port = roleOf s port := by
    rw [roleOf, linkShown]
    simp (disch := decide) only [State.rd_wr_apart]
    rfl
  have fits : (speed = 6 && !flit) = false := by
    rw [← Bool.not_eq_true, Bool.and_eq_true, decide_eq_true_eq]
    exact fun ⟨fast, plain⟩ => by simp [mode fast] at plain
  have goes : (!portLive s port || s.host.failedPorts.contains port || linkIsUp s port || decide (2 ≤ roleOf s port)
      || (decide (speed = 6) && !flit)) = false := by
    rw [live, whole, down, fits, decide_eq_false (by omega)]
    rfl
  rw [linkUp, if_neg (by rw [goes]; decide), ← same]
  rfl

theorem completes_linkUp {s : State} {port speed width cap : Nat} {flit : Bool}
    (hd : portDie port < dieCount s.orderCode) (live : portLive s port = true)
    (whole : s.host.failedPorts.contains port = false) (down : linkIsUp s port = false) (hs : speed < 8) (hw : width < 32)
    (mode : speed = 6 → flit = true) (role : roleOf s port = 0) : Completes (.linkUp port speed width flit cap) s (fun t =>
      attachOf t port = 1 ∧ t.rd (portDie port) Reg.HOST_STATUS_SPEED = speed ∧
      t.rd (portDie port) Reg.HOST_STATUS_WIDTH = width ∧ t.host = s.host ∧ t.xlt = s.xlt) := by
  refine completes_of_onDie (execLinkUp port speed width flit cap s) rfl rfl hd ?_
  rw [linkUp_eq live whole down (by omega) mode, if_pos role, linkShown]
  refine ⟨State.rd_wr_same .., ?_, ?_, rfl, rfl⟩
  · simp (disch := decide) only [State.rd_wr_apart, State.rd_wr_same]
    exact Nat.mod_eq_of_lt hs
  · simp (disch := decide) only [State.rd_wr_apart, State.rd_wr_same]
    exact Nat.mod_eq_of_lt hw

theorem completes_linkUp_cxl {s : State} {port speed width cap : Nat} {flit : Bool}
    (hd : portDie port < dieCount s.orderCode) (live : portLive s port = true)
    (whole : s.host.failedPorts.contains port = false) (down : linkIsUp s port = false)
    (mode : speed = 6 → flit = true) (role : roleOf s port = 1) : Completes (.linkUp port speed width flit cap) s (fun t =>
      t.rd (portDie port) Reg.HOST_CXL_PRESENT = 1 ∧ (∀ d ∈ ptDies s, ptEntry t d (32 + port) = cxlEntry port cap)) := by
  refine completes_of_onDie (execLinkUp port speed width flit cap s) rfl rfl hd ?_
  rw [linkUp_eq live whole down (by omega) mode, if_neg (by omega)]
  generalize hu : (((linkShown port speed width flit s).wr (portDie port) Reg.HOST_CXL_PRESENT 1).wr (portDie port)
    Reg.HOST_CXL_HDM 1).wr (portDie port) Reg.HOST_CXL_CAP ((cxlEntry port cap).size.toNat / 0x10000) = u
  have dies : ptDies u = ptDies s := hu ▸ rfl
  have port_lt : port < 32 := by
    have := dieCount_le s.orderCode
    unfold portDie at hd
    omega
  refine ⟨?_, fun d member => ?_⟩
  · rw [State.rd_of_regs (regs_ptStore ..), ← hu]
    simp (disch := decide) only [State.rd_wr_apart, State.rd_wr_same]
    rfl
  · rw [ptEntry_ptStore (by omega) (by omega), if_pos ⟨dies ▸ member, rfl⟩]

/-! ### A link goes down -/

/-- The inbound writes in progress are as they were. -/
def BurstsAs (s t : State) : Prop := t.host.bursts = s.host.bursts

/-- A frame with every part but the host ports. -/
def besideHost : Frame := { besideWork with core := True, que := True, host := False }

theorem BurstsAs.keeps {s₀ s t : State} (h : BurstsAs s₀ s) (k : Keeps besideHost s t) : BurstsAs s₀ t :=
  (congrArg HostSt.bursts (k.host id)).trans h

theorem BurstsAs.each {α : Type} {f : State → α → State} {s : State} (same : ∀ s x, BurstsAs s (f s x)) (l : List α) :
    BurstsAs s (each l f s) :=
  each_induction (P := BurstsAs s) (fun t x _ h => (same t x).trans h) rfl

theorem burstsAs_stopPartition (p : Nat) (s : State) : BurstsAs s (stopPartition p s) := by
  unfold stopPartition
  dsimp only
  have dropped : Keeps besideHost s (dropTroupes (fun _ => true) (fun t => Nat.beq t.part p) (fun l => Nat.beq l.part p)
      (closeKills (fun k => Nat.beq k.part p) s)) :=
    dropTroupes_keeps trivial trivial trivial _ _ _ (closeKills_keeps trivial trivial trivial trivial trivial trivial
      trivial trivial _ (.refl _ s))
  generalize dropTroupes (fun _ => true) (fun t => Nat.beq t.part p) (fun l => Nat.beq l.part p)
    (closeKills (fun k => Nat.beq k.part p) s) = u at *
  have same : u.host.bursts = s.host.bursts := congrArg HostSt.bursts (dropped.host id)
  exact same

theorem burstsAs_partFault (p cause d ctype cseq : Nat) (s : State) : BurstsAs s (partFault p cause d ctype cseq s) := by
  have stopped : BurstsAs s (stopPartition p (setFaulted p s)) :=
    (burstsAs_stopPartition ..).trans (congrArg HostSt.bursts
      ((setFaulted_keeps (F := besideHost) trivial trivial p (.refl _ s)).host id))
  unfold partFault
  generalize stopPartition p (setFaulted p s) = u at *
  split
  · rfl
  · dsimp only
    generalize hv : emit d 0 0x031 3 _ _ u = v
    have told : BurstsAs s v := hv ▸ stopped
    exact told.keeps (faultEntries_keeps trivial trivial trivial trivial trivial trivial p _ (.refl _ v))

theorem burstsAs_redBreakWhere (f : Accum → Bool) (cause : Nat) (s : State) : BurstsAs s (redBreakWhere f cause s) := by
  refine .each (fun t a => ?_) _
  have poisoned : BurstsAs t (poisonSector (a.pkt.key.sector * 32)
      { t with net := { t.net with accum := t.net.accum.erase a } }) :=
    BurstsAs.keeps (s := { t with net := { t.net with accum := t.net.accum.erase a } }) rfl
      (poisonSector_keeps trivial trivial _ (.refl _ _))
  unfold redBreak redBroken faultWith
  exact (burstsAs_partFault ..).trans poisoned

theorem burstsAs_contextFault (w : KillWhy) (s : State) : BurstsAs s (contextFault w s) := by
  unfold contextFault
  split
  · rfl
  · dsimp only
    generalize hu : { s with core := _ } = u
    have same : BurstsAs s u := hu ▸ rfl
    have closed : BurstsAs s (closeKills (fun k => isKill w.part w.inst w.ctx k && killDone k)
        (killOnDie w.die w.part w.inst w.ctx u)) :=
      same.keeps (closeKills_keeps trivial trivial trivial trivial trivial trivial trivial trivial _
        (killOnDie_keeps trivial trivial trivial trivial trivial trivial trivial trivial _ _ _ _ (.refl _ u)))
    exact (burstsAs_redBreakWhere ..).trans closed

theorem burstsAs_mvFault (m : Mover) (code addr : Nat) (s : State) : BurstsAs s (mvFault m code addr s) := by
  unfold mvFault
  dsimp only
  refine (burstsAs_contextFault _ _).trans ?_
  rfl

theorem burstsAs_settleAts (s : State) : BurstsAs s (settleAts s) := by
  unfold settleAts
  extract_lets waits host t
  exact (BurstsAs.each (f := fun s x => s.count (portDie x.2) Reg.HOST_ATS_INV 1) (fun _ _ => rfl) _ :
    BurstsAs t (Machine.each (s.host.atsInv.filter fun x => !waits x) _ t))

/-- What is lost with the link of a port. -/
theorem burstsAs_dropWrites (port : Nat) (s : State) : BurstsAs s (dropWrites port s) := by
  refine .each (fun t o => ?_) _
  have dropped : BurstsAs t (dropOut o t) := burstsAs_settleAts _
  split
  · exact (burstsAs_mvFault ..).trans dropped
  · exact dropped

theorem bursts_cutBursts (f : Burst → Bool) (cause : Nat) (s : State) :
    (cutBursts f cause s).host.bursts = s.host.bursts.filter (fun b => !f b) := by
  have cut (t : State) (l : List Burst) : BurstsAs t (each l (fun s b => cutRecord b cause s) t) :=
    .each (fun u b => congrArg HostSt.bursts
      ((cutRecord_keeps (F := { noFrame with regs := True, recs := True }) trivial trivial b cause (.refl _ u)).host id)) l
  exact cut ..

/-- The port with its functions and its HOST_ABI at reset. -/
def portEmptied (port : Nat) (s : State) : State := clearFunctions port (abiReset port s)

theorem portEmptied_spec (port : Nat) (s : State) :
    (portEmptied port s).rd (portDie port) Reg.HOST_ABI_STATUS_ACTIVE = 0 ∧
    SMap.get 0 (portEmptied port s).host.numVfs port = 0 ∧ (portEmptied port s).host.bursts = s.host.bursts :=
  ⟨rd_abiReset port s, SMap.get_set_same (α := Nat) 0 s.host.numVfs port 0, rfl⟩

theorem portDown_eq {s : State} {port : Nat} (up : linkIsUp s port = true) : portDown port s =
    statusDown port (portEmptied port (dropWrites port (cutBursts (fun b => Nat.beq b.port port) 2 s))) := by
  rw [portDown, if_pos up] <;> rfl

theorem hotReset_eq {s : State} {port : Nat} (attached : attachOf s port ≠ 0) : hotReset port s =
    (portEmptied port (cutBursts (fun b => Nat.beq b.port port) 1 s)).wr (portDie port) Reg.HOST_STATUS_ATTACH 1 := by
  rw [hotReset, if_pos attached] <;> rfl

theorem completes_hostLinkDown {s : State} {port : Nat} (cause : Nat) (hd : portDie port < dieCount s.orderCode)
    (live : portLive s port = true) (attached : attachOf s port ≠ 0) : Completes (.hostLinkDown port cause) s (fun t =>
      attachOf t port = (if cause = 1 then 1 else 0) ∧ t.rd (portDie port) Reg.HOST_ABI_STATUS_ACTIVE = 0 ∧
      SMap.get 0 t.host.numVfs port = 0 ∧ (∀ b ∈ t.host.bursts, b.port ≠ port)) := by
  refine completes_of_onDie (execHostLinkDown port cause s) rfl rfl hd ?_
  have gone {l t : State} (same : BurstsAs l t) {c : Nat}
      (cut : l = cutBursts (fun b => Nat.beq b.port port) c s) : ∀ b ∈ t.host.bursts, b.port ≠ port := by
    rw [same, cut, bursts_cutBursts]
    exact fun b member => Nat.ne_of_not_beq (List.mem_filter.1 member).2
  unfold hostLinkDown
  rw [if_pos live]
  by_cases hot : cause = 1
  · rw [if_pos hot, if_pos hot, hotReset_eq attached]
    obtain ⟨active, vfs, bursts⟩ := portEmptied_spec port (cutBursts (fun b => Nat.beq b.port port) 1 s)
    have none_ := gone bursts rfl
    refine ⟨State.rd_wr_same .., (State.rd_wr_apart rfl ..).trans active, vfs, none_⟩
  · have up : linkIsUp s port = true := by
      rw [linkIsUp, Bool.or_eq_true, bne_iff_ne]
      exact .inl attached
    rw [if_neg hot, if_neg hot, portDown_eq up]
    generalize hu : dropWrites port (cutBursts (fun b => Nat.beq b.port port) 2 s) = u
    have dropped : BurstsAs (cutBursts (fun b => Nat.beq b.port port) 2 s) u := hu ▸ burstsAs_dropWrites port _
    obtain ⟨active, vfs, bursts⟩ := portEmptied_spec port u
    have none_ := gone (bursts.trans dropped) rfl
    generalize portEmptied port u = v at *
    refine ⟨?_, ?_, vfs, none_⟩
    · rw [attachOf, statusDown]
      simp (disch := decide) only [State.rd_wr_apart, State.rd_wr_same]
      rfl
    · rw [statusDown]
      simp (disch := decide) only [State.rd_wr_apart]
      exact active

/-! ### ATS invalidations -/

/-- An invalidation that no access holds up is over at once, and counted. -/
theorem settleAts_of_idle {s : State} {id port : Nat} (out : s.host.outbound = []) (ats : s.host.atsInv = [(id, port)]) :
    settleAts s = { s with host := { s.host with atsInv := [] } }.count (portDie port) Reg.HOST_ATS_INV 1 := by
  simp only [settleAts, out, ats, List.any_nil, List.filter_cons, Bool.not_false, if_true, List.filter_nil,
    Bool.false_eq_true, if_false]
  rfl

/-- An invalidation that the access in flight holds up waits. -/
theorem settleAts_of_held {s : State} {id port : Nat} {o : Outbound} (out : s.host.outbound = [o])
    (ats : s.host.atsInv = [(id, port)]) (open_ : o.done = false) (held : o.before.contains id = true) :
    settleAts s = s := by
  have waits : s.host.outbound.any (fun o => !o.done && o.before.contains id) = true := by
    rw [out, List.any_cons, open_, held]
    rfl
  have stay : s.host.atsInv.filter (fun x => s.host.outbound.any (fun o => !o.done && o.before.contains x.1)) =
      s.host.atsInv := by rw [ats, List.filter_cons, waits] <;> rfl
  have none_ : s.host.atsInv.filter (fun x => !s.host.outbound.any (fun o => !o.done && o.before.contains x.1)) = [] := by
    rw [ats, List.filter_cons, waits] <;> rfl
  rw [settleAts, stay, none_] <;> rfl

/-- A translation of the port's host addresses that overlaps the invalidation's. -/
def atsHit (s : State) (port addr len : Nat) (t : Tlb) : Bool :=
  Nat.beq t.level 2 && Nat.blt t.va (addr + len) && Nat.blt addr (t.va + t.size)
    && (match t.partner with
        | some i => Nat.beq (ptEntry s t.die i).kind 0 && Nat.beq (ptEntry s t.die i).port port
        | none => false)

/-- An access through one of the translations, not yet over. -/
def atsUses (port addr len : Nat) (o : Outbound) : Bool :=
  Nat.beq o.port port && !o.done && (match o.via with
    | some a => Nat.blt a (addr + len) && Nat.blt addr (a + o.len)
    | none => false)

/-- The invalidation has dropped its translations, and waits under a new number. -/
def atsAsked (port addr len : Nat) (s : State) : State :=
  let id := (s.host.atsInv.map (·.1)).foldl max 64 + 1
  { s with
    xlt := { s.xlt with tlb := s.xlt.tlb.filter (fun t => !atsHit s port addr len t) },
    host := { s.host with
      outbound := updWhere (atsUses port addr len) (fun o => { o with before := o.before ++ [id] }) s.host.outbound,
      atsInv := s.host.atsInv ++ [(id, port)] } }

theorem atsInvalidation_eq {s : State} {port : Nat} (addr len : Nat) (live : portLive s port = true)
    (up : linkIsUp s port = true) : atsInvalidation port addr len s = settleAts (atsAsked port addr len s) := by
  unfold atsInvalidation
  rw [if_pos (by rw [live, up]; rfl)] <;> rfl

theorem completes_atsInvalidation {s : State} {port : Nat} (addr len : Nat) (hd : portDie port < dieCount s.orderCode)
    (live : portLive s port = true) (up : linkIsUp s port = true) (out : s.host.outbound = []) (ats : s.host.atsInv = []) :
    Completes (.atsInvalidation port addr len) s (fun t =>
      t.rd (portDie port) Reg.HOST_ATS_INV = min (s.rd (portDie port) Reg.HOST_ATS_INV + 1) (2 ^ 32 - 1) ∧
      RegsBut [(portDie port, Reg.HOST_ATS_INV)] s t ∧
      (∀ e ∈ t.xlt.tlb, ∀ i, e.level = 2 → e.partner = some i → (ptEntry s e.die i).kind = 0 →
        (ptEntry s e.die i).port = port → ¬(e.va < addr + len ∧ addr < e.va + e.size)) ∧
      (∀ e ∈ s.xlt.tlb, e.partner = none → e ∈ t.xlt.tlb) ∧ t.host = s.host) := by
  refine completes_of_onDie (execAtsInvalidation port addr len s) rfl rfl hd ?_
  have asked : settleAts (atsAsked port addr len s) = _ := settleAts_of_idle (id := 65) (port := port)
    (by rw [atsAsked, out]; rfl) (by rw [atsAsked, ats]; rfl)
  rw [atsInvalidation_eq addr len live up, asked]
  refine ⟨State.rd_count_same .., .count (.refl _ s) _ Reg.HOST_ATS_INV 1 (by simp), ?_, ?_, ?_⟩
  · intro e member i level partner kind own ⟨below, above⟩
    have kept := of_mem_filter_not member
    have hit : atsHit s port addr len e = true := by
      simp only [atsHit, level, partner, kind, own, Nat.beq_refl, Nat.blt_eq, Bool.and_eq_true]
      exact ⟨⟨⟨trivial, below⟩, above⟩, trivial, trivial⟩
    rw [hit] at kept
    cases kept
  · intro e member plain
    refine List.mem_filter.2 ⟨member, ?_⟩
    simp [atsHit, plain]
  · have same : updWhere (atsUses port addr len) (fun o => { o with before := o.before ++
        [(s.host.atsInv.map (·.1)).foldl max 64 + 1] }) s.host.outbound = s.host.outbound := by rw [out] <;> rfl
    refine (congrArg (fun l => { s.host with outbound := l, atsInv := [] }) same).trans ?_
    rw [← ats]

theorem completes_atsInvalidation_in_flight {s : State} {port addr len va : Nat} {o : Outbound}
    (hd : portDie port < dieCount s.orderCode) (live : portLive s port = true) (up : linkIsUp s port = true)
    (out : s.host.outbound = [o]) (ats : s.host.atsInv = []) (own : o.port = port) (open_ : o.done = false)
    (via : o.via = some va) (below : va < addr + len) (above : addr < va + o.len) :
    Completes (.atsInvalidation port addr len) s (fun t =>
      t.regs = s.regs ∧ ∃ id, t.host.outbound = [{ o with before := o.before ++ [id] }] ∧ t.host.atsInv = [(id, port)]) := by
  refine completes_of_onDie (execAtsInvalidation port addr len s) rfl rfl hd ?_
  have used : atsUses port addr len o = true := by
    simp [atsUses, own, open_, via, below, above]
  have waits : (atsAsked port addr len s).host.atsInv = [(65, port)] := by
    rw [atsAsked, ats]
    rfl
  have flight : (atsAsked port addr len s).host.outbound = [{ o with before := o.before ++ [65] }] := by
    simp only [atsAsked, out, ats, updWhere, List.map_cons, List.map_nil, used, if_true]
    rfl
  rw [atsInvalidation_eq addr len live up, settleAts_of_held flight waits open_ (by simp)]
  exact ⟨rfl, 65, flight, waits⟩

/-! ### Port errors -/

theorem completes_hostPortError_ce {s : State} {port : Nat} (status : Nat) (h : BitVec 128)
    (hd : portDie port < dieCount s.orderCode) (live : portLive s port = true) :
    Completes (.hostPortError port 0 status h) s (fun t =>
      t.rd (portDie port) Reg.HOST_AER_CE = min (s.rd (portDie port) Reg.HOST_AER_CE + 1) (2 ^ 32 - 1) ∧
      RegsBut [(portDie port, Reg.HOST_AER_CE)] s t ∧ t.host = s.host ∧ t.recs = s.recs) := by
  have effect : hostPortError port 0 status h s = s.count (portDie port) Reg.HOST_AER_CE 1 := by
    unfold hostPortError
    rw [live] <;> rfl
  refine completes_of_onDie (execHostPortError port 0 status h s) rfl rfl hd ?_
  rw [effect]
  exact ⟨State.rd_count_same .., .count (.refl _ s) _ Reg.HOST_AER_CE 1 (by simp), rfl, rfl⟩

theorem completes_hostPortError_ue {s : State} {port : Nat} (status : Nat) (h : BitVec 128)
    (hd : portDie port < dieCount s.orderCode) (live : portLive s port = true) :
    Completes (.hostPortError port 1 status h) s (fun t =>
      t.rd (portDie port) Reg.HOST_AER_UE = min (s.rd (portDie port) Reg.HOST_AER_UE + 1) (2 ^ 32 - 1) ∧
      HandsOver (portDie port) 9 0x0B1 1 s t ∧ t.host = s.host) := by
  refine completes_of_onDie (execHostPortError port 1 status h s) rfl rfl hd ?_
  unfold hostPortError
  simp only [live, Bool.not_true, Bool.false_eq_true, if_false]
  exact ⟨State.rd_count_same .., handsOver_emit _ _ _ _ _ _ rfl, rfl⟩

/-- A link that goes down with nothing in progress records nothing. -/
theorem portDown_quiet {s : State} {port : Nat} (bursts : s.host.bursts = []) (out : s.host.outbound = []) :
    (portDown port s).prt = s.prt ∧ (portDown port s).recs = s.recs := by
  by_cases up : linkIsUp s port = true
  · have uncut : cutBursts (fun b => Nat.beq b.port port) 2 s = { s with host := { s.host with bursts := [] } } := by
      simp only [cutBursts, bursts, List.filter_nil]
      rfl
    have kept : dropWrites port { s with host := { s.host with bursts := [] } } =
        { s with host := { s.host with bursts := [] } } := by
      simp only [dropWrites, out, List.filter_nil]
      rfl
    rw [portDown_eq up, uncut, kept]
    have shown (t : State) : Keeps { noFrame with regs := True, host := True } t (statusDown port (portEmptied port t)) :=
      statusDown_keeps trivial port (clearFunctions_keeps trivial port (abiReset_keeps trivial trivial port (.refl _ t)))
    exact ⟨(shown _).prt id, (shown _).recs id⟩
  · rw [portDown, if_neg up]
    exact ⟨rfl, rfl⟩

theorem completes_hostPortError_internal {s : State} {port : Nat} (status : Nat) (h : BitVec 128)
    (hd : portDie port < dieCount s.orderCode) (live : portLive s port = true) (parts : partsOnPort s port = [])
    (bursts : s.host.bursts = []) (out : s.host.outbound = []) :
    Completes (.hostPortError port 3 status h) s (fun t =>
      t.host.failedPorts.contains port = true ∧ HandsOver (portDie port) 9 0x0B2 3 s t ∧ t.prt = s.prt) := by
  refine completes_of_onDie (execHostPortError port 3 status h s) rfl rfl hd ?_
  obtain ⟨prt, recs⟩ := portDown_quiet (port := port) bursts out
  unfold hostPortError
  simp only [live, parts, Bool.not_true, Bool.false_eq_true, if_false]
  generalize portDown port s = u at *
  exact ⟨contains_addNat_same _ port, handsOver_emit _ _ _ _ _ _ (congrArg (·.waiting) recs), prt⟩

/-! ### Configuration -/

theorem completes_configurationRequest_vfs {s : State} {port : Nat} {v : BitVec 32}
    (hd : portDie port < dieCount s.orderCode) (live : portLive s port = true) (attached : attachOf s port ≠ 0)
    (hv : v.toNat < 64) : Completes (.configurationRequest port 0 numVfsReg (some v)) s (fun t =>
      SMap.get 0 t.host.numVfs port = v.toNat ∧ t.regs = s.regs ∧ t.out = s.out) := by
  have effect : configurationRequest port 0 numVfsReg (some v) s =
      { s with host := { s.host with numVfs := SMap.set 0 s.host.numVfs port v.toNat } } := by
    simp [configurationRequest, live, attached, hv]
  refine completes_of_onDie (execConfigurationRequest port 0 numVfsReg (some v) s) rfl rfl hd ?_
  rw [effect]
  exact ⟨SMap.get_set_same (α := Nat) 0 s.host.numVfs port v.toNat, rfl, rfl⟩

theorem completes_configurationRequest_read {s : State} {port f reg : Nat} {v : BitVec 32}
    (hd : portDie port < dieCount s.orderCode) (live : portLive s port = true) (attached : attachOf s port ≠ 0)
    (fn : f ≤ SMap.get 0 s.host.numVfs port) (plain : f ≠ 0 ∨ reg ≠ numVfsReg)
    (found : s.host.cfg.find? (fun x => Nat.beq x.1 port && Nat.beq x.2.1 f && Nat.beq x.2.2.1 reg) =
      some (port, f, reg, v)) :
    Completes (.configurationRequest port f reg none) s (fun t =>
      t.out.host = s.out.host ++ [⟨port, 0, false, leBytes 4 v.toNat⟩] ∧ t.host = s.host ∧ t.regs = s.regs) := by
  have other : (decide (f = 0) && decide (reg = numVfsReg)) = false := by
    rw [← Bool.not_eq_true, Bool.and_eq_true, decide_eq_true_eq, decide_eq_true_eq]
    exact fun both => plain.elim (· both.1) (· both.2)
  have effect : configurationRequest port f reg none s = hostRsp port 0 false (leBytes 4 v.toNat) s := by
    simp only [configurationRequest, live, decide_eq_false attached, Nat.not_lt.2 fn, other, found, Bool.not_true,
      Bool.or_self, Bool.false_eq_true, if_false]
  refine completes_of_onDie (execConfigurationRequest port f reg none s) rfl rfl hd ?_
  rw [effect]
  exact ⟨rfl, rfl, rfl⟩

end Sys2Proof.Machine
end

section
/-! PROOFS. The partner table (R508, R518, R522, R566, Table HOST-8): PT_WRITE, PT_READ and PT_RETIRE. -/

namespace Sys2Proof.Machine

/-! ### The answer of a command -/

theorem regsBut_ptResult (d i result : Nat) (s : State) :
    RegsBut [(d, Reg.HOST_PT_CMD_INDEX), (d, Reg.HOST_PT_CMD_OP), (d, Reg.HOST_PT_STATUS_RESULT)] s
      (ptResult d i result s) :=
  .wr (.wr (.wr (.refl _ s) d Reg.HOST_PT_CMD_INDEX i (by simp)) d Reg.HOST_PT_CMD_OP 0 (by simp)) d
    Reg.HOST_PT_STATUS_RESULT result (by simp)

theorem rd_ptResult (d i result : Nat) (s : State) :
    (ptResult d i result s).rd d Reg.HOST_PT_STATUS_RESULT = result % 4 := State.rd_wr_same ..

/-! ### A change that is taken -/

/-- PT[i] stored, and what is in flight to the old entry noted. -/
def ptTaken (d i : Nat) (e : PtEntry) (s : State) : State := ptResult d i 0 (ptAwait d i (ptStore i e s))

theorem ptChange_of_allowed {s : State} {d i : Nat} {e : PtEntry} {src : Source}
    (may : ptMayWrite s (ptNow s i) e src = true) (inside : ptInRange s e = true) :
    ptChange d i e src s = ptTaken d i e s := by
  rw [ptChange, may, inside] <;> rfl

theorem ptChange_of_outside {s : State} {d i : Nat} {e : PtEntry} {src : Source}
    (may : ptMayWrite s (ptNow s i) e src = true) (outside : ptInRange s e = false) :
    ptChange d i e src s = ptResult d i 2 s := by
  rw [ptChange, may, outside] <;> rfl

theorem ptEntry_ptTaken {i j : Nat} (hi : i < 256) (hj : j < 256) (d : Nat) (e : PtEntry) (s : State) (x : Nat) :
    ptEntry (ptTaken d i e s) x j = if x ∈ ptDies s ∧ j = i then e else ptEntry s x j := ptEntry_ptStore hi hj e s x

/-- An access to the old entry in flight, and not yet over, holds the command of the die that changed it. -/
theorem held_ptTaken {d i : Nat} {e : PtEntry} {s : State} {o : Outbound} (h : o ∈ (ptTaken d i e s).host.outbound)
    (entry : o.pt = i) (read : o.kind = 0) (open_ : o.done = false) : o.before.contains d = true := by
  obtain ⟨x, -, rfl⟩ := List.mem_map.1 h
  by_cases old : (Nat.beq x.pt i && Nat.beq x.kind 0 && !x.done) = true
  · rw [if_pos old]
    exact contains_addNat_same _ d
  · rw [if_neg old] at entry read open_
    exact absurd (by simp [entry, read, open_]) old

theorem completes_ptWrite {s : State} {d i : Nat} {src : Source} (hd : d < dieCount s.orderCode) (hi : i < 256)
    (idle : ptBusy s d = false) (may : ptMayWrite s (ptNow s i) (ptData s d) src = true)
    (inside : ptInRange s (ptData s d) = true) : Completes (.ptWrite d i src) s (fun t =>
      (∀ x ∈ ptDies s, ptEntry t x i = ptData s d) ∧ (∀ c ∈ t.xlt.pts, c.index ≠ i) ∧
      (∀ x j, j < 256 → j ≠ i → ptEntry t x j = ptEntry s x j) ∧ t.rd d Reg.HOST_PT_STATUS_RESULT = 0 ∧
      RegsBut [(d, Reg.HOST_PT_CMD_INDEX), (d, Reg.HOST_PT_CMD_OP), (d, Reg.HOST_PT_STATUS_RESULT)] s t) := by
  have effect : ptWrite d i src s = ptTaken d i (ptData s d) s := by
    rw [ptWrite, idle, if_neg Bool.false_ne_true, Nat.mod_eq_of_lt hi, ptChange_of_allowed may inside]
  refine completes_of_onDie (execPtWrite d i src s) rfl rfl hd ?_
  rw [effect]
  refine ⟨fun x member => ?_, fun c => pts_ptStore, fun x j hj ne => ?_, rd_ptResult .., ?_⟩
  · rw [ptEntry_ptTaken hi hi, if_pos ⟨member, rfl⟩]
  · rw [ptEntry_ptTaken hi hj, if_neg fun same => ne same.2]
  · exact ((RegsBut.refl _ s).of_regs (regs_ptStore ..)).trans (regsBut_ptResult d i 0 _)

theorem completes_ptRetire {s : State} {d i : Nat} {src : Source} (hd : d < dieCount s.orderCode) (hi : i < 256)
    (idle : ptBusy s d = false) (may : ptMayWrite s (ptNow s i) { ptNow s i with state := 2 } src = true)
    (inside : ptInRange s { ptNow s i with state := 2 } = true) : Completes (.ptRetire d i src) s (fun t =>
      (∀ x ∈ ptDies s, ptEntry t x i = { ptNow s i with state := 2 }) ∧ t.rd d Reg.HOST_PT_STATUS_RESULT = 0 ∧
      (∀ o ∈ t.host.outbound, o.pt = i → o.kind = 0 → o.done = false → o.before.contains d = true)) := by
  have effect : ptRetire d i src s = ptTaken d i { ptNow s i with state := 2 } s := by
    rw [ptRetire, idle, if_neg Bool.false_ne_true, Nat.mod_eq_of_lt hi, ptChange_of_allowed may inside]
  refine completes_of_onDie (execPtRetire d i src s) rfl rfl hd ?_
  rw [effect]
  refine ⟨fun x member => ?_, rd_ptResult .., fun o => held_ptTaken⟩
  rw [ptEntry_ptTaken hi hi, if_pos ⟨member, rfl⟩]

/-! ### A change that is not taken -/

theorem completes_ptWrite_outside {s : State} {d i : Nat} {src : Source} (hd : d < dieCount s.orderCode) (hi : i < 256)
    (idle : ptBusy s d = false) (may : ptMayWrite s (ptNow s i) (ptData s d) src = true)
    (outside : ptInRange s (ptData s d) = false) : Completes (.ptWrite d i src) s (fun t =>
      t.rd d Reg.HOST_PT_STATUS_RESULT = 2 ∧ t.host = s.host ∧ t.xlt = s.xlt) := by
  have effect : ptWrite d i src s = ptResult d i 2 s := by
    rw [ptWrite, idle, if_neg Bool.false_ne_true, Nat.mod_eq_of_lt hi, ptChange_of_outside may outside]
  refine completes_of_onDie (execPtWrite d i src s) rfl rfl hd ?_
  rw [effect]
  exact ⟨rd_ptResult .., rfl, rfl⟩

theorem completes_ptWrite_denied {s : State} {d i : Nat} {src : Source} (hd : d < dieCount s.orderCode) (hi : i < 256)
    (idle : ptBusy s d = false) (may : ptMayWrite s (ptNow s i) (ptData s d) src = false) :
    Completes (.ptWrite d i src) s (fun t => t.rd d Reg.HOST_PT_STATUS_RESULT = 1 ∧ t.host = s.host ∧ t.xlt = s.xlt) := by
  refine completes_of_onDie (execPtWrite d i src s) rfl rfl hd ?_
  unfold ptWrite
  rw [idle, if_neg Bool.false_ne_true, Nat.mod_eq_of_lt hi, ptChange, may]
  simp only [Bool.not_false, if_true]
  split
  · exact ⟨(State.rd_count_apart rfl ..).trans (rd_ptResult ..), rfl, rfl⟩
  · exact ⟨rd_ptResult .., rfl, rfl⟩

/-! ### A read -/

/-- HOST_PT_DATA shows an entry. -/
def ptShown (d : Nat) (e : PtEntry) (s : State) : State :=
  each ([0, 1, 2, 3].zip (ptWords e)) (fun s x => s.wr d (Reg.HOST_PT_DATA x.1) x.2) s

theorem ptShown_spec (d : Nat) (e : PtEntry) (s : State) :
    (ptShown d e s).rd d (Reg.HOST_PT_DATA 1) = e.base.toNat ∧ (ptShown d e s).rd d (Reg.HOST_PT_DATA 2) = e.size.toNat ∧
    (ptShown d e s).rd d (Reg.HOST_PT_DATA 3) = e.word18.toNat := by
  simp only [ptShown, ptWords, List.zip_cons_cons, List.zip_nil_left, each, List.foldl_cons, List.foldl_nil]
  refine ⟨?_, ?_, ?_⟩
  all_goals simp (disch := decide) only [State.rd_wr_apart, State.rd_wr_same]
  · exact Nat.mod_eq_of_lt e.base.isLt
  · exact Nat.mod_eq_of_lt e.size.isLt
  · exact Nat.mod_eq_of_lt (Nat.lt_of_lt_of_le e.word18.isLt (by decide))

theorem keeps_ptShown (d : Nat) (e : PtEntry) (s : State) : Keeps loadFrame s (ptShown d e s) :=
  each_keeps (fun _ x h => State.wr_keeps trivial d (Reg.HOST_PT_DATA x.1) x.2 h) (.refl _ s)

theorem ptRead_eq {s : State} {d i : Nat} (hi : i < 256) (idle : ptBusy s d = false) :
    ptRead d i s = ptResult d i 0 (ptShown d (ptEntry s d i) s) := by
  unfold ptRead ptShown
  dsimp only
  rw [Nat.mod_eq_of_lt hi, if_neg (by rw [idle]; decide)]

theorem completes_ptRead {s : State} {d i : Nat} (src : Source) (hd : d < dieCount s.orderCode) (hi : i < 256)
    (idle : ptBusy s d = false) : Completes (.ptRead d i src) s (fun t =>
      t.rd d (Reg.HOST_PT_DATA 1) = (ptEntry s d i).base.toNat ∧ t.rd d (Reg.HOST_PT_DATA 2) = (ptEntry s d i).size.toNat ∧
      t.rd d (Reg.HOST_PT_DATA 3) = (ptEntry s d i).word18.toNat ∧ t.rd d Reg.HOST_PT_STATUS_RESULT = 0 ∧
      t.host = s.host ∧ t.xlt = s.xlt) := by
  have effect := ptRead_eq hi idle
  refine completes_of_onDie (execPtRead d i src s) rfl rfl hd ?_
  rw [effect]
  have kept := ptResult_keeps trivial d i 0 (keeps_ptShown d (ptEntry s d i) s)
  obtain ⟨base, size, word⟩ := ptShown_spec d (ptEntry s d i) s
  generalize ptShown d (ptEntry s d i) s = u at *
  have written := regsBut_ptResult d i 0 u
  have apart (k : Nat) (hk : k < 4) : (ptResult d i 0 u).rd d (Reg.HOST_PT_DATA k) = u.rd d (Reg.HOST_PT_DATA k) :=
    written.rd_of_apart (by interval_cases k <;> rfl) d
  exact ⟨(apart 1 (by decide)).trans base, (apart 2 (by decide)).trans size, (apart 3 (by decide)).trans word,
    rd_ptResult .., kept.host id, kept.xlt id⟩

/-! ### A command while one waits -/

theorem completes_pt_busy {s : State} {d i : Nat} {src : Source} {c : Instr}
    (hc : c ∈ [Instr.ptWrite d i src, Instr.ptRead d i src, Instr.ptRetire d i src]) (hd : d < dieCount s.orderCode)
    (busy : ptBusy s d = true) : Completes c s (fun t => t = s) := by
  simp only [List.mem_cons, List.not_mem_nil, or_false] at hc
  obtain rfl | rfl | rfl := hc
  · exact completes_of_onDie (execPtWrite d i src s) rfl rfl hd (if_pos busy)
  · exact completes_of_onDie (execPtRead d i src s) rfl rfl hd (if_pos busy)
  · exact completes_of_onDie (execPtRetire d i src s) rfl rfl hd (if_pos busy)

/-- Settles O56: links, ATS and configuration by what each leaves of the host part (NumVFs is register 0x10, log 44);
a change of the partner table by `ptMayWrite` and `ptInRange` (log 75), stored at once and held by what is in flight
(log 126). -/
theorem hostLinksAndPartnerTable : Obligations.HostLinksAndPartnerTable :=
  ⟨⟨fun _ _ _ _ _ _ hd live whole down hs hw mode => ⟨completes_linkUp hd live whole down hs hw mode,
        completes_linkUp_cxl hd live whole down mode⟩,
      fun _ _ => completes_hostLinkDown, fun _ _ => completes_atsInvalidation,
      fun _ _ _ _ _ _ => completes_atsInvalidation_in_flight,
      fun _ _ status h hd live => ⟨completes_hostPortError_ce status h hd live, completes_hostPortError_ue status h hd live,
        completes_hostPortError_internal status h hd live⟩,
      fun _ _ _ => completes_configurationRequest_vfs, fun _ _ _ _ _ => completes_configurationRequest_read⟩,
    fun _ _ _ _ => completes_ptWrite, fun _ _ _ _ => completes_ptWrite_outside, fun _ _ _ _ => completes_ptWrite_denied,
    fun _ _ _ => completes_ptRead, fun _ _ _ _ => completes_ptRetire, fun _ _ _ _ _ => completes_pt_busy⟩

end Sys2Proof.Machine
end

section
/-! PROOFS. Accesses from outside (R308, R502, R504, R512, R516): the aperture, the MSI-X table and the bridge. -/

namespace Sys2Proof.Machine

/-! ### Accesses within one sector -/

/-- Bytes within one sector are read by one read. -/
theorem inBytes_of_sector {read : Nat → State → InRes × State} {fuel pa n : Nat} {s t : State} {v : SectorData} {poison : Bool}
    (some_ : 0 < n) (fits : pa % 32 + n ≤ 32) (one : read pa s = (.ok v poison, t)) :
    inBytes read (fuel + 2) pa n s = ((((leBytes 32 v.toNat).drop (pa % 32)).take n, poison, false), t) := by
  have all : min n (32 - pa % 32) = n := by omega
  have rest : inBytes read (fuel + 1) (pa + n) (n - n) t = (([], false, false), t) := by
    rw [Nat.sub_self, inBytes, if_pos rfl]
  rw [inBytes, if_neg (by omega)]
  simp only [all, one, rest, List.append_nil, Bool.or_false]

/-- Bytes within one sector are written by one write. -/
theorem inPut_of_sector {write : Nat → BitVec 32 → SectorData → State → InRes × State} {fuel pa : Nat} {l : List Byte}
    {s t : State} {v : SectorData} {poison : Bool} (some_ : l ≠ []) (fits : pa % 32 + l.length ≤ 32)
    (one : write pa (byteMask (pa % 32) l.length) (BitVec.ofNat 256 (ofLe l * 256 ^ (pa % 32))) s = (.ok v poison, t)) :
    inPut write (fuel + 2) pa l s = (false, t) := by
  have all : min l.length (32 - pa % 32) = l.length := by omega
  have rest : inPut write (fuel + 1) (pa + l.length) (l.drop l.length) t = (false, t) := by
    rw [List.drop_length, inPut] <;> rfl
  rw [inPut, if_neg (by simpa using some_)]
  simp only [all, List.take_length, one, rest, Bool.false_or]
  rfl

/-! ### The aperture -/

/-- A requester that addresses an instance exists. -/
theorem hostByOk_of_requester {s : State} {port fn p i : Nat} {pasid : Option (BitVec 20)}
    (who : requesterInst s port fn pasid = some (p, i)) : hostByOk s ⟨port, fn, pasid, some (p, i)⟩ = true := by
  have named : fn ≤ SMap.get 0 s.host.numVfs port := by
    unfold requesterInst at who
    split at who
    · cases who
    · omega
  rw [hostByOk, Nat.ble_eq_true_of_le named]
  exact Bool.or_true _

/-- A write at a port that is ATTACHED, from a requester that exists. -/
theorem hostWrite_of_attached {s : State} {port fn bar off : Nat} {pasid : Option (BitVec 20)} {l : List Byte}
    (live : portLive s port = true) (attached : attachOf s port = 2) (some_ : l ≠ [])
    (exists_ : hostByOk s ⟨port, fn, pasid, requesterInst s port fn pasid⟩ = true) (ep more : Bool) :
    hostWrite port fn pasid bar off l ep more s =
      noteBurst ⟨port, fn, pasid, requesterInst s port fn pasid⟩ off l.length more
        (barWrite ⟨port, fn, pasid, requesterInst s port fn pasid⟩ bar off l ep s) := by
  have data : l.isEmpty = false := by simpa using some_
  simp [hostWrite, live, attached, data, exists_]

/-- A read at a port that is ATTACHED, from a requester that exists. -/
theorem hostRead_of_attached {s : State} {port fn bar off len : Nat} {pasid : Option (BitVec 20)}
    (live : portLive s port = true) (attached : attachOf s port = 2) (some_ : 0 < len)
    (exists_ : hostByOk s ⟨port, fn, pasid, requesterInst s port fn pasid⟩ = true) :
    hostRead port fn pasid bar off len s = barRead ⟨port, fn, pasid, requesterInst s port fn pasid⟩ bar off len s := by
  simp [hostRead, live, attached, Nat.ne_of_gt some_, exists_]

theorem completes_hostApertureWrite {s s2 : State} {port fn off p i : Nat} {pasid : Option (BitVec 20)} {l : List Byte}
    {v : SectorData} {po : Bool} (hd : portDie port < dieCount s.orderCode) (live : portLive s port = true)
    (attached : attachOf s port = 2) (who : requesterInst s port fn pasid = some (p, i)) (inside : off + l.length ≤ 2 ^ 36)
    (some_ : l ≠ []) (fits : (apertureBase s ⟨port, fn, pasid, some (p, i)⟩ + off) % 32 + l.length ≤ 32)
    (one : vaWrite ⟨port, fn, pasid, some (p, i)⟩ p i false (apertureBase s ⟨port, fn, pasid, some (p, i)⟩ + off)
      (byteMask ((apertureBase s ⟨port, fn, pasid, some (p, i)⟩ + off) % 32) l.length)
      (BitVec.ofNat 256 (ofLe l * 256 ^ ((apertureBase s ⟨port, fn, pasid, some (p, i)⟩ + off) % 32))) s = (.ok v po, s2)) :
    Completes (.hostApertureWrite port fn pasid 2 off l false false) s (fun t =>
      t.slc = s2.slc ∧ t.regs = s2.regs ∧ t.out = s2.out) := by
  have put := inPut_of_sector (fuel := l.length / 32) some_ fits one
  have wrote : apertureWrite ⟨port, fn, pasid, some (p, i)⟩ off l false s = s2 := by
    rw [apertureWrite, if_neg (by omega)]
    dsimp only
    rw [put]
    rfl
  have effect : hostWrite port fn pasid 2 off l false false s =
      noteBurst ⟨port, fn, pasid, some (p, i)⟩ off l.length false s2 := by
    rw [hostWrite_of_attached live attached some_ (who.symm ▸ hostByOk_of_requester who), who, barWrite, wrote]
  refine completes_of_onDie (execHostApertureWrite port fn pasid 2 off l false false s) rfl rfl hd ?_
  rw [effect]
  exact ⟨rfl, rfl, rfl⟩

theorem completes_hostApertureRead {s s2 : State} {port fn off len p i : Nat} {pasid : Option (BitVec 20)} {v : SectorData}
    (hd : portDie port < dieCount s.orderCode) (live : portLive s port = true) (attached : attachOf s port = 2)
    (who : requesterInst s port fn pasid = some (p, i)) (inside : off + len ≤ 2 ^ 36) (some_ : 0 < len)
    (fits : (apertureBase s ⟨port, fn, pasid, some (p, i)⟩ + off) % 32 + len ≤ 32)
    (one : vaRead ⟨port, fn, pasid, some (p, i)⟩ p i (apertureBase s ⟨port, fn, pasid, some (p, i)⟩ + off) s =
      (.ok v false, s2)) : Completes (.hostApertureRead port fn pasid 2 off len) s (fun t =>
      t.out.host = s2.out.host ++ [⟨port, 0, false,
        ((leBytes 32 v.toNat).drop ((apertureBase s ⟨port, fn, pasid, some (p, i)⟩ + off) % 32)).take len⟩] ∧
      t.slc = s2.slc ∧ t.regs = s2.regs) := by
  have bytes := inBytes_of_sector (fuel := len / 32) some_ fits one
  refine completes_of_onDie (execHostApertureRead port fn pasid 2 off len s) rfl rfl hd ?_
  rw [hostRead_of_attached live attached some_ (who.symm ▸ hostByOk_of_requester who), who, barRead, apertureRead,
    if_neg (by omega)]
  dsimp only
  rw [bytes]
  exact ⟨rfl, rfl, rfl⟩

/-! ### The MSI-X table -/

theorem completes_hostApertureWrite_msix {s : State} {port off : Nat} (b : Byte) (hd : portDie port < dieCount s.orderCode)
    (live : portLive s port = true) (attached : attachOf s port = 2) (inside : off < 0x400) :
    Completes (.hostApertureWrite port 0 none 0 (0x20000 + off) [b] false false) s (fun t =>
      msixRead t ⟨port, 0, none, requesterInst t port 0 none⟩ off 1 = [b] ∧ t.regs = s.regs ∧ t.slc = s.slc) := by
  have table : bar0Write ⟨port, 0, none, requesterInst s port 0 none⟩ (0x20000 + off) [b] s =
      msixWrite ⟨port, 0, none, requesterInst s port 0 none⟩ off [b] s := by
    have page : ¬ 0x20000 + off + [b].length ≤ 0x20 := by omega
    have doorbells : (decide (0x10000 ≤ 0x20000 + off) && decide (0x20000 + off < 0x10800)) = false := by
      rw [decide_eq_false (by omega : ¬ 0x20000 + off < 0x10800), Bool.and_false]
    have here : (decide (0x20000 ≤ 0x20000 + off) && decide (0x20000 + off + [b].length ≤ 0x20400)) = true := by
      rw [Bool.and_eq_true, decide_eq_true_eq, decide_eq_true_eq, List.length_singleton]
      omega
    rw [bar0Write]
    dsimp only
    rw [if_neg page, doorbells, here, if_neg Bool.false_ne_true, if_pos rfl, Nat.add_sub_cancel_left]
  refine completes_of_onDie (execHostApertureWrite port 0 none 0 (0x20000 + off) [b] false false s) rfl rfl hd ?_
  rw [hostWrite_of_attached live attached (by simp) rfl, barWrite, table]
  have found := find?_putWhere_same (p := fun x : Nat × Nat × Nat × Byte =>
    Nat.beq x.1 port && Nat.beq x.2.1 0 && Nat.beq x.2.2.1 (off + 0)) (x := (port, 0, off + 0, b)) s.host.msixTab
    (by simp only [Nat.beq_refl, Bool.and_self])
  refine ⟨?_, rfl, rfl⟩
  have entry (u : Option (Nat × Nat × Nat × Byte)) (hu : u = some (port, 0, off + 0, b)) :
      [(u.map (·.2.2.2)).getD 0] = [b] := by rw [hu] <;> rfl
  exact entry _ found

/-! ### The bridge -/

theorem completes_bridgeRequest_discarded {s : State} {plane bport rack dest : Nat} (index off len : Nat)
    (w : Option (List SectorData)) (stray : bridgeTo s plane bport rack = false ∨ dest ≠ s.rack.rackNo) :
    Completes (.bridgeRequest plane bport ⟨rack, dest⟩ index off len w) s (fun t => t = s) := by
  refine completes_of_next (execBridgeRequest plane bport ⟨rack, dest⟩ index off len w s) rfl rfl ?_
  refine if_pos ?_
  rw [Bool.or_eq_true, Bool.not_eq_true', decide_eq_true_eq]
  exact stray

/-- The bytes of a request. -/
def bridgeLen (len : Nat) (w : Option (List SectorData)) : Nat := match w with | some l => 32 * l.length | none => len

theorem completes_bridgeRequest_denied {s : State} {plane bport rack index off len : Nat} {w : Option (List SectorData)}
    (peer : bridgeTo s plane bport rack = true)
    (denied : exportLets (ptNow s index) (plane * 8 + bport) rack off (bridgeLen len w) w.isSome = false) :
    Completes (.bridgeRequest plane bport ⟨rack, s.rack.rackNo⟩ index off len w) s (fun t =>
      t.out.bridge = s.out.bridge ++ [⟨plane * 8 + bport, 1, false, []⟩] ∧ t.slc = s.slc ∧ t.regs = s.regs) := by
  have effect : bridgeRequest plane bport rack s.rack.rackNo index off len w s =
      bridgeRsp (plane * 8 + bport) 1 false [] s := by
    cases w <;> simp only [bridgeRequest, peer, Bool.not_true, ne_eq, not_true_eq_false, decide_false, Bool.or_self,
      Bool.false_eq_true, if_false]
    all_goals exact if_pos (congrArg not denied)
  refine completes_of_next (execBridgeRequest plane bport ⟨rack, s.rack.rackNo⟩ index off len w s) rfl
    (congrArg Host.Outcome.next effect) ?_
  exact ⟨rfl, rfl, rfl⟩

theorem completes_bridgeRequest_read {s s2 : State} {plane bport rack index off len : Nat} {v : SectorData}
    (peer : bridgeTo s plane bport rack = true)
    (lets : exportLets (ptNow s index) (plane * 8 + bport) rack off len false = true) (some_ : 0 < len)
    (fits : ((ptNow s index).base.toNat + off) % 32 + len ≤ 32)
    (one : inRead (homeDie ((ptNow s index).base.toNat + off)) ((ptNow s index).base.toNat + off) (ptNow s index).part s =
      (.ok v false, s2)) :
    Completes (.bridgeRequest plane bport ⟨rack, s.rack.rackNo⟩ index off len none) s (fun t =>
      t.out.bridge = s2.out.bridge ++ [⟨plane * 8 + bport, 0, false,
        ((leBytes 32 v.toNat).drop (((ptNow s index).base.toNat + off) % 32)).take len⟩] ∧ t.slc = s2.slc) := by
  have bytes := inBytes_of_sector (read := fun pa u => inRead (homeDie pa) pa (ptNow s index).part u) (fuel := len / 32)
    some_ fits one
  have effect : bridgeRequest plane bport rack s.rack.rackNo index off len none s = bridgeRsp (plane * 8 + bport) 0 false
      (((leBytes 32 v.toNat).drop (((ptNow s index).base.toNat + off) % 32)).take len) s2 := by
    unfold bridgeRequest
    dsimp only
    rw [if_neg (by simp [peer]), if_neg (by simp [lets])]
    rw [bytes]
    exact if_neg Bool.false_ne_true
  refine completes_of_next (execBridgeRequest plane bport ⟨rack, s.rack.rackNo⟩ index off len none s) rfl
    (congrArg Host.Outcome.next effect) ?_
  exact ⟨rfl, rfl⟩

/-- Settles O57: an access within one sector is one read or one write of its memory (`inBytes_of_sector`,
`inPut_of_sector`); the bridge answers as the entry lets it. -/
theorem inboundAccesses : Obligations.InboundAccesses :=
  ⟨fun _ _ _ _ _ _ _ _ _ _ _ => completes_hostApertureWrite, fun _ _ _ _ _ _ _ _ _ _ => completes_hostApertureRead,
    fun _ _ _ b => completes_hostApertureWrite_msix b,
    fun _ _ _ _ _ index off len w => completes_bridgeRequest_discarded index off len w,
    fun _ _ _ _ _ _ _ _ => completes_bridgeRequest_denied, fun _ _ _ _ _ _ _ _ _ => completes_bridgeRequest_read⟩

end Sys2Proof.Machine
end


section
/-! PROOFS. Plain and read-only registers at the port (R561, R562), an RC counter that a read returns and clears (R560),
the MGP frames of one register (R567), and the TAP's instructions (R589). -/

namespace Sys2Proof.Machine

/-! ### The register port -/

theorem completes_registerWrite {d addr : Nat} {src : Source} {v : Word} {s : State} {effect : State → Prop}
    (hd : d < dieCount s.orderCode) (hsrc : src ∈ [Source.dc, .mgp]) (up : dieUp s d = true) (aligned : addr % 8 = 0)
    (h : effect (portWrite d src addr 8 v.toNat s).2) : Completes (.registerWrite d addr 8 src v) s effect :=
  completes_of_onDie (execRegisterWrite d addr 8 src v s) rfl rfl hd ((registerWrite_of_dieUp hsrc up aligned).symm ▸ h)

/-- A register none of whose fields is writable keeps its value; an unmapped address has no field (R561, R562). -/
theorem portWrite_of_unwritable {d addr v : Nat} {src : Source} {s : State} (aligned : addr % 8 = 0)
    (fields : ∀ f ∈ portFields d addr, f.acc.writable = false) : (portWrite d src addr 8 v s).2 = s := by
  have base : addr / 8 * 8 = addr := by omega
  have none_ : (portFields d addr).filter (fun f => f.acc.writable && coversField addr 8 f) = [] :=
    List.filter_eq_nil_iff.mpr fun f hf => by simp [fields f hf]
  unfold portWrite
  simp only [base, none_]
  cases (portFields d addr).isEmpty <;> simp

theorem portFields_of_die {s : State} {d addr : Nat} (hd : d < dieCount s.orderCode) : portFields d addr = fieldsAt addr :=
  if_pos (by simp [Nat.lt_of_lt_of_le hd (dieCount_le _)])

theorem completes_registerWrite_commitTime {d : Nat} {src : Source} {v : Word} {s : State} (hd : d < dieCount s.orderCode)
    (hsrc : src ∈ [Source.dc, .mgp]) (up : dieUp s d = true) :
    Completes (.registerWrite d 0x280018 8 src v) s (fun t =>
      t.rd d Reg.IMG_COMMIT_TIME = v.toNat ∧ RegsBut [(d, Reg.IMG_COMMIT_TIME)] s t ∧ t.img = s.img) := by
  have held : Reg.IMG_COMMIT_TIME.of (v.toNat % 2 ^ 64) = v.toNat := by
    simp only [Fld.of, Reg.IMG_COMMIT_TIME]; omega
  have commitTime : portFields d 0x280018 = [Reg.IMG_COMMIT_TIME] := (portFields_img rfl).trans (by decide)
  have clamp : clampField Reg.IMG_COMMIT_TIME v.toNat = v.toNat := rfl
  have stored : portWrite d src 0x280018 8 v.toNat s = (0, s.wr d Reg.IMG_COMMIT_TIME v.toNat) := by
    rw [portWrite_of_plainField rfl commitTime rfl rfl rfl (fun _ => rfl), held, clamp]
  refine completes_registerWrite hd hsrc up rfl ?_
  rw [stored]
  exact ⟨(State.rd_wr_same ..).trans (Nat.mod_eq_of_lt v.isLt),
    (RegsBut.refl _ s).wr d Reg.IMG_COMMIT_TIME v.toNat (by simp), rfl⟩

/-- The 14 bits of the field are taken before the clamp (assumption log 91). -/
theorem completes_registerWrite_imgQtimeout {d : Nat} {src : Source} {v : Word} {s : State} (hd : d < dieCount s.orderCode)
    (hsrc : src ∈ [Source.dc, .mgp]) (up : dieUp s d = true) :
    Completes (.registerWrite d 0x280020 8 src v) s (fun t =>
      t.rd d Reg.IMG_QTIMEOUT = max 1 (min 10000 (v.toNat % 2 ^ 14)) ∧ RegsBut [(d, Reg.IMG_QTIMEOUT)] s t ∧
        t.img = s.img) := by
  refine completes_of_onDie (execRegisterWrite d 0x280020 8 src v s) rfl rfl hd ?_
  rw [registerWrite_imgQtimeout hsrc up]
  exact ⟨rd_wr_imgQtimeout_clamp .., (RegsBut.refl _ s).wr d Reg.IMG_QTIMEOUT _ (by simp), rfl⟩

theorem completes_registerWrite_unwritable {d addr : Nat} {src : Source} {v : Word} {s : State}
    (hd : d < dieCount s.orderCode) (hsrc : src ∈ [Source.dc, .mgp]) (up : dieUp s d = true)
    (named : addr ∈ [0x58, 0x280008, 0x7FFF8]) : Completes (.registerWrite d addr 8 src v) s (fun t => t = s) := by
  have all : ∀ a ∈ [0x58, 0x280008, 0x7FFF8], a % 8 = 0 ∧ ∀ f ∈ fieldsAt a, f.acc.writable = false := by decide
  obtain ⟨aligned, fields⟩ := all addr named
  exact completes_registerWrite hd hsrc up aligned
    (portWrite_of_unwritable aligned (by rw [portFields_of_die hd]; exact fields))

/-! ### An RC counter -/

/-- The counters that the statement names: each is the one field of its register, with no view and no seal of its own. -/
theorem shape_of_counter {f : Fld}
    (named : f ∈ [Reg.REC_DROPPED, Reg.WARD_DENIED, Reg.XLT_INV_DONE, Reg.IMG_DROPPED_DB]) :
    fieldsAt f.addr = [f] ∧ f.acc = .rc ∧ f.lo = 0 ∧ f.width = 32 ∧ f.addr % 8 = 0 ∧
      f.addr ≠ Reg.WARD_MBOX_IN.addr ∧ f.addr ≠ Reg.WARD_MBOX_OUT.addr := by
  revert f
  decide

theorem fieldRead_counter {f : Fld} (s : State) (d : Nat) (src : Source)
    (named : f ∈ [Reg.REC_DROPPED, Reg.WARD_DENIED, Reg.XLT_INV_DONE, Reg.IMG_DROPPED_DB]) :
    fieldRead s d src f = s.rd d f := by
  simp only [List.mem_cons, List.not_mem_nil, or_false] at named
  rcases named with rfl | rfl | rfl | rfl <;> rfl

/-- A read of such a counter returns it and clears it (R560). -/
theorem portRead_counter {s : State} {d : Nat} {src : Source} {f : Fld} (hd : d < dieCount s.orderCode)
    (named : f ∈ [Reg.REC_DROPPED, Reg.WARD_DENIED, Reg.XLT_INV_DONE, Reg.IMG_DROPPED_DB]) (fits : s.rd d f < 2 ^ 32) :
    portRead d src f.addr 8 s = (some (s.rd d f), s.wr d f 0) := by
  obtain ⟨fields, rc, lo, width, aligned, notIn, notOut⟩ := shape_of_counter named
  have base : f.addr / 8 * 8 = f.addr := by omega
  have all := (portFields_of_die (addr := f.addr) hd).trans fields
  have value : regValue s d src f.addr = s.rd d f := by
    simp [regValue, all, fieldRead_counter s d src named, lo]
  have takes : readTakes d src f.addr 8 s = s.wr d f 0 := by
    simp [readTakes, base, all, rc, coversField, lo, width, aligned, notIn, notOut, each]
  simp only [portRead, base, all, value, takes, aligned]
  have below : s.rd d f < 2 ^ 64 := Nat.lt_trans fits (by decide)
  simpa using below

theorem completes_rcRegisterRead_counter {s : State} {d : Nat} {src : Source} {f : Fld} (hd : d < dieCount s.orderCode)
    (hsrc : src ∈ [Source.dc, .mgp]) (up : dieUp s d = true)
    (named : f ∈ [Reg.REC_DROPPED, Reg.WARD_DENIED, Reg.XLT_INV_DONE, Reg.IMG_DROPPED_DB]) (fits : s.rd d f < 2 ^ 32) :
    Completes (.rcRegisterRead d f.addr 8 src) s (fun t =>
      t.rd d f = 0 ∧ t.out.reg = s.out.reg ++ [(src, d, f.addr, s.rd d f)] ∧ RegsBut [(d, f)] s t) := by
  have aligned := (shape_of_counter named).2.2.2.2.1
  have passes : (portOpen s d src && sourceReaches d f.addr 8 src) = true := by
    simp only [List.mem_cons, List.not_mem_nil, or_false] at hsrc
    obtain rfl | rfl := hsrc <;> simp [portOpen, sourceReaches, up, aligned]
  have effect : rcRegisterRead d f.addr 8 src s = answerRead d f.addr (s.rd d f) src (s.wr d f 0) := by
    rw [rcRegisterRead, if_pos passes]
    show readMany d src 8 1 f.addr s = _
    simp only [readMany, portRead_counter hd named fits]
  refine completes_of_onDie (execRcRegisterRead d f.addr 8 src s) rfl rfl hd ?_
  rw [effect]
  exact ⟨(State.rd_wr_same ..).trans (Nat.zero_mod _), rfl,
    ((RegsBut.refl _ s).wr d f 0 (by simp)).of_regs rfl⟩

/-! ### MGP frames of one register -/

theorem length_leBytes (n v : Nat) : (leBytes n v).length = n := by
  induction n generalizing v with
  | zero => rfl
  | succ n ih => simp [leBytes, ih]

theorem ofLe_leBytes (n v : Nat) : ofLe (leBytes n v) = v % 256 ^ n := by
  induction n generalizing v with
  | zero => simp [leBytes, ofLe, Nat.mod_one]
  | succ n ih =>
    rw [leBytes, ofLe, ih, BitVec.toNat_ofNat, Nat.pow_succ' (m := 256), Nat.mod_mul]

/-- The bytes of a number that come first read back as it. -/
theorem leAt_leBytes (n v : Nat) (rest : List Byte) : leAt (leBytes n v ++ rest) 0 n = v % 256 ^ n := by
  rw [leAt, List.drop_zero, List.take_left' (length_leBytes n v), ofLe_leBytes]

/-- A read beyond the bytes of a first number does not see them. -/
theorem leAt_skip {k o : Nat} (beyond : k ≤ o) (v : Nat) (rest : List Byte) (n : Nat) :
    leAt (leBytes k v ++ rest) o n = leAt rest (o - k) n := by
  rw [leAt, List.drop_append, List.drop_eq_nil_of_le ((length_leBytes k v).le.trans beyond), length_leBytes, List.nil_append,
    leAt]

/-- A response to a request of operation `op` carries `op + 128`, its status, DONE and its data (Table REG-3). -/
theorem mgpResponse_shows {req : List Byte} {op die status done : Nat} (n v : Nat) (s : State) (asks : leAt req 3 1 = op)
    (small : op < 128) (hstatus : status < 256) (hdone : done < 256) :
    ∃ r, (mgpResponse req die status done (leBytes n v) s).out.mgp = s.out.mgp ++ [r] ∧ r.length = 20 + n ∧
      leAt r 3 1 = op + 128 ∧ leAt r 12 1 = status ∧ leAt r 13 1 = done ∧ leAt r 16 n = v % 256 ^ n := by
  refine ⟨_, rfl, by simp [length_leBytes]; omega, ?_⟩
  simp (disch := decide) only [List.append_assoc, leAt_skip, leAt_leBytes, asks, Nat.reduceSub, and_true]
  omega

/-- The request of one register, in form, at an address that the agent answers. -/
structure AsksOne (s : State) (frame : List Byte) (op : Nat) : Prop where
  taken : mgpTaken s frame = true
  format : mgpFormat frame op = true
  agent : leAt frame 6 1 < 64
  one : leAt frame 7 1 = 1
  aligned : leAt frame 8 4 % 8 = 0
  reached : mgpReach s (leAt frame 6 1) (leAt frame 8 4) = 0

theorem leAt_op_of_format {frame : List Byte} {op : Nat} (format : mgpFormat frame op = true) : leAt frame 3 1 = op := by
  simp only [mgpFormat, Bool.and_eq_true, beq_iff_eq] at format
  exact format.1.1.1.2

theorem mgpRead_one {s u : State} {frame : List Byte} {v : Nat} (asks : AsksOne s frame 1)
    (read : portRead (leAt frame 6 1) .mgp (leAt frame 8 4) 8 s = (some v, u)) :
    mgpRead frame s = mgpResponse frame (leAt frame 6 1) 0 1 (leBytes 8 v) u := by
  obtain ⟨taken, format, agent, one, aligned, reached⟩ := asks
  have unicast : leAt frame 6 1 ≠ 0xFF := by omega
  have reads : mgpReads (leAt frame 6 1) 1 (leAt frame 8 4) s = ((0, 1, leBytes 8 v), u) := by
    simp [mgpReads, reached, read]
  simp [mgpRead, taken, format, unicast, aligned, mgpAgent, show leAt frame 6 1 < 66 by omega, one, reads]

theorem completes_regRead {s u : State} {frame : List Byte} {v : Nat} (asks : AsksOne s frame 1)
    (read : portRead (leAt frame 6 1) .mgp (leAt frame 8 4) 8 s = (some v, u)) :
    Completes (.regRead frame) s (fun t =>
      t.regs = u.regs ∧ ∃ r, t.out.mgp = u.out.mgp ++ [r] ∧ r.length = 28 ∧ leAt r 3 1 = 0x81 ∧ leAt r 12 1 = 0 ∧
        leAt r 13 1 = 1 ∧ leAt r 16 8 = v % 2 ^ 64) := by
  refine completes_of_next (execRegRead frame s) rfl (congrArg Host.Outcome.next (mgpRead_one asks read)) ?_
  exact ⟨rfl, mgpResponse_shows 8 v u (leAt_op_of_format asks.format) (by decide) (by decide) (by decide)⟩

theorem mgpWrite_one {s u : State} {frame : List Byte} (asks : AsksOne s frame 2)
    (write : portWrite (leAt frame 6 1) .mgp (leAt frame 8 4) 8 (leAt frame 16 8) s = (0, u)) :
    mgpWrite frame s = mgpResponse frame (leAt frame 6 1) 0 1 (leBytes 0 0) u := by
  obtain ⟨taken, format, agent, one, aligned, reached⟩ := asks
  have unicast : leAt frame 6 1 ≠ 0xFF := by omega
  have data : leAt (frame.drop 16) 0 8 = leAt frame 16 8 := by simp [leAt]
  have writes : mgpWrites (leAt frame 6 1) 1 (leAt frame 8 4) (frame.drop 16) s = ((0, 1), u) := by
    simp [mgpWrites, reached, data, write]
  simp [mgpWrite, taken, format, unicast, aligned, mgpAgent, show leAt frame 6 1 < 66 by omega, mgpWriteAt, one, writes,
    leBytes]

theorem completes_regWrite {s u : State} {frame : List Byte} (asks : AsksOne s frame 2)
    (write : portWrite (leAt frame 6 1) .mgp (leAt frame 8 4) 8 (leAt frame 16 8) s = (0, u)) :
    Completes (.regWrite frame) s (fun t =>
      t.regs = u.regs ∧ ∃ r, t.out.mgp = u.out.mgp ++ [r] ∧ r.length = 20 ∧ leAt r 3 1 = 0x82 ∧ leAt r 12 1 = 0 ∧
        leAt r 13 1 = 1) := by
  refine completes_of_next (execRegWrite frame s) rfl (congrArg Host.Outcome.next (mgpWrite_one asks write)) ?_
  obtain ⟨r, sent, length, op, status, done, -⟩ :=
    mgpResponse_shows (die := leAt frame 6 1) 0 0 u (leAt_op_of_format asks.format) (by decide) (by decide : 0 < 256)
      (by decide : 1 < 256)
  exact ⟨rfl, r, sent, length, op, status, done⟩

/-- A frame that the RM does not take has no effect and no answer (R578). -/
theorem completes_mgp_of_not_taken {s : State} {frame : List Byte} {c : Instr}
    (named : c ∈ [Instr.regRead frame, Instr.regWrite frame]) (bad : mgpTaken s frame = false) :
    Completes c s (fun t => t = s) := by
  simp only [List.mem_cons, List.not_mem_nil, or_false] at named
  obtain rfl | rfl := named
  · exact completes_of_next (execRegRead frame s) rfl (congrArg Host.Outcome.next (if_pos (by simp [bad]))) rfl
  · exact completes_of_next (execRegWrite frame s) rfl (congrArg Host.Outcome.next (if_pos (by simp [bad]))) rfl

/-! ### The TAP (R589) -/

theorem ir_tapIr (d code : Nat) (s : State) : SMap.get 0xFF (tapIr d code s).rack.jtagIr d = code :=
  SMap.get_set_same ..

theorem cells_tapCells (d v : Nat) (s : State) : SMap.get 0 (tapCells d v s).rack.jtagCells d = v :=
  SMap.get_set_same ..

/-- A TAP instruction of a die that has power. -/
theorem completes_of_onTap {c : Instr} {s : State} {d : Nat} {f : State → State} {effect : State → Prop}
    (meaning : exec c s = onDie s d (onTap d f)) (hd : d < dieCount s.orderCode)
    (powered : s.rack.powered.contains d = true) (h : effect (f s)) : Completes c s effect := by
  have acts : onTap d f s = f s := if_pos powered
  exact completes_of_onDie (onDie s d (onTap d f)) meaning rfl hd (acts.symm ▸ h)

theorem completes_jtagExtest {s : State} {d : Nat} (cells : Word) (hd : d < dieCount s.orderCode)
    (powered : s.rack.powered.contains d = true) :
    Completes (.jtagExtest d cells) s (fun t => t.regs = s.regs ∧
      (extestActs s d = true → SMap.get 0 t.rack.jtagCells d = cells.toNat ∧ SMap.get 0xFF t.rack.jtagIr d = 0) ∧
      (extestActs s d = false → t.rack.jtagCells = s.rack.jtagCells ∧ SMap.get 0xFF t.rack.jtagIr d = 0xFF)) := by
  refine completes_of_onTap rfl hd powered ?_
  cases acts : extestActs s d
  · rw [jtagExtest, if_neg (by simp [acts])]
    exact ⟨rfl, fun h => (Bool.false_ne_true h).elim, fun _ => ⟨rfl, ir_tapIr d 0xFF s⟩⟩
  · rw [jtagExtest, if_pos acts]
    exact ⟨rfl, fun _ => ⟨cells_tapCells .., ir_tapIr d 0 s⟩, fun h => (Bool.false_ne_true h.symm).elim⟩

theorem completes_jtagIdcode {s : State} {d : Nat} (hd : d < dieCount s.orderCode)
    (powered : s.rack.powered.contains d = true) :
    Completes (.jtagIdcode d) s (fun t => t.regs = s.regs ∧ SMap.get 0xFF t.rack.jtagIr d = 1 ∧
      t.out.jtag = s.out.jtag ++ [(d, idcode (s.rd d Reg.DC_ID_STEPPING))]) :=
  completes_of_onTap rfl hd powered ⟨rfl, ir_tapIr d 1 s, rfl⟩

/-- What the pins show is open: the bits shifted out are free (assumption log 55). -/
theorem completes_jtagSamplePreload {s : State} {d : Nat} (cells : Word) (hd : d < dieCount s.orderCode)
    (powered : s.rack.powered.contains d = true) :
    Completes (.jtagSamplePreload d cells) s (fun t => t.regs = s.regs ∧ SMap.get 0xFF t.rack.jtagIr d = 2 ∧
      SMap.get 0 t.rack.jtagCells d = cells.toNat ∧
      t.out.jtag = s.out.jtag ++ [(d, (Config.freeWord s.free.1).toNat)]) :=
  completes_of_onTap rfl hd powered ⟨rfl, ir_tapIr d 2 s, SMap.get_set_same .., rfl⟩

theorem completes_jtagBypass {s : State} {d : Nat} {code : BitVec 8} (hd : d < dieCount s.orderCode)
    (powered : s.rack.powered.contains d = true) (other : code.toNat ∉ [0x00, 0x01, 0x02, 0x10]) :
    Completes (.jtagBypass d code) s (fun t => t.regs = s.regs ∧ SMap.get 0xFF t.rack.jtagIr d = 0xFF ∧ t.out = s.out) := by
  refine completes_of_onTap rfl hd powered ?_
  rw [if_neg (by simpa using other)]
  exact ⟨rfl, ir_tapIr d 0xFF s, rfl⟩

theorem completes_jtagDcDebug_read {s u : State} {d v : Nat} {dr : BitVec 96} (hd : d < dieCount s.orderCode)
    (powered : s.rack.powered.contains d = true) (aligned : dr.toNat % 0x1000000 % 8 = 0)
    (reached : mgpReach s d (dr.toNat % 0x1000000) = 0) (reads : dr.toNat.testBit 24 = false)
    (read : portRead d .mgp (dr.toNat % 0x1000000) 8 (tapIr d 0x10 s) = (some v, u)) :
    Completes (.jtagDcDebug d dr) s (fun t => t.out.jtag = u.out.jtag ++ [(d, v)] ∧ t.regs = u.regs) := by
  have same : mgpReach (tapIr d 0x10 s) d (dr.toNat % 0x1000000) = 0 := reached
  have effect : jtagDcDebug d dr s = tapOut d v u := by
    simp [jtagDcDebug, aligned, same, reads, read]
  refine completes_of_onTap rfl hd powered ?_
  rw [effect]
  exact ⟨rfl, rfl⟩

/-- Settles O58: a plain register takes the write (`portWrite_of_plainField`), the 14 bits of IMG_QTIMEOUT before its clamp
(assumption log 91); a counter is returned and cleared; a frame of one register is one access of the port, which answers
what these statements take as given of it (logs 69 and 72); each TAP instruction touches its die's TAP alone, and the
sampled pins are free (log 55). -/
theorem registerPort : Obligations.RegisterPort :=
  ⟨fun _ _ _ _ hd hsrc up => ⟨completes_registerWrite_commitTime hd hsrc up, completes_registerWrite_imgQtimeout hd hsrc up,
      fun _ => completes_registerWrite_unwritable hd hsrc up⟩,
    fun _ _ _ _ => completes_rcRegisterRead_counter,
    fun _ _ _ => completes_mgp_of_not_taken,
    fun _ _ _ _ taken format agent one aligned reached => completes_regRead ⟨taken, format, agent, one, aligned, reached⟩,
    fun _ _ _ taken format agent one aligned reached => completes_regWrite ⟨taken, format, agent, one, aligned, reached⟩,
    fun _ _ cells _ _ hd powered => ⟨completes_jtagExtest cells hd powered, completes_jtagIdcode hd powered,
      completes_jtagSamplePreload cells hd powered, completes_jtagBypass hd powered,
      fun _ _ => completes_jtagDcDebug_read hd powered⟩⟩

end Sys2Proof.Machine
end


section
/-! PROOFS. The recorder's engine (chapter 15): a record taken from its unit into staging, dropped, drained into the ring
without a PAD, lost to an SRAM error; REC_TEST and REC_FAIL_CLEAR. -/

namespace Sys2Proof.Machine

/-! ### An engine whose clocks run -/

theorem completes_of_clocked {c : Instr} {s : State} {d : Nat} {f : State → State} {effect : State → Prop}
    (meaning : exec c s = onDie s d (guarded (clocked · d) f)) (hd : d < dieCount s.orderCode)
    (runs : clocked s d = true) (h : effect (f s)) : Completes c s effect := by
  have acts : guarded (clocked · d) f s = f s := if_pos runs
  exact completes_of_onDie (onDie s d (guarded (clocked · d) f)) meaning rfl hd (acts.symm ▸ h)

theorem completes_of_not_clocked {c : Instr} {s : State} {d : Nat} {f : State → State}
    (meaning : exec c s = onDie s d (guarded (clocked · d) f)) (hd : d < dieCount s.orderCode)
    (stopped : clocked s d = false) : Completes c s (fun t => t = s) :=
  completes_of_onDie (onDie s d (guarded (clocked · d) f)) meaning rfl hd (if_neg (by simp [stopped]))

theorem completes_engine_of_not_clocked {s : State} {d i : Nat} {src : Source} {v : BitVec 32} {c : Instr}
    (named : c ∈ [Instr.recordAccept d, Instr.recordDrain d, Instr.recTest d src v, Instr.stagingSramError d i])
    (hd : d < dieCount s.orderCode) (stopped : clocked s d = false) : Completes c s (fun t => t = s) := by
  simp only [List.mem_cons, List.not_mem_nil, or_false] at named
  rcases named with rfl | rfl | rfl | rfl
  · exact completes_of_not_clocked (f := acceptRecord d) rfl hd stopped
  · exact completes_of_not_clocked (f := drainRecord d) rfl hd stopped
  · exact completes_of_not_clocked (f := recTest d v) rfl hd stopped
  · exact completes_of_not_clocked (f := stagingSramError d i) rfl hd stopped

/-! ### A record accepted -/

theorem length_dropFirst {d : Nat} {l : List WaitRec} {w : WaitRec} (first : l.find? (fun w => Nat.beq w.die d) = some w) :
    (dropFirst d l).length + 1 = l.length := by
  induction l with
  | nil => nomatch first
  | cons x l ih =>
    by_cases here : x.die = d
    · simp [dropFirst, here]
    · rw [List.find?_cons_of_neg (by simpa using here)] at first
      simpa [dropFirst, here] using ih first

/-- The record taken from its unit has consumed its SEQ (R532). -/
def recordTaken (d : Nat) (s : State) : State :=
  ({ s with recs := { s.recs with waiting := dropFirst d s.recs.waiting } }).wr d Reg.REC_SEQ (s.rd d Reg.REC_SEQ + 1)

theorem rd_recordTaken (d : Nat) (s : State) :
    (recordTaken d s).rd d Reg.REC_SEQ = (s.rd d Reg.REC_SEQ + 1) % 2 ^ 16 := State.rd_wr_same ..

theorem regsBut_recordTaken (d : Nat) (s : State) : RegsBut [(d, Reg.REC_SEQ)] s (recordTaken d s) :=
  ((RegsBut.refl _ s).of_regs (u := { s with recs := { s.recs with waiting := dropFirst d s.recs.waiting } }) rfl).wr
    d Reg.REC_SEQ (s.rd d Reg.REC_SEQ + 1) (by simp)

/-- The bounds of Table FLT-7 let the record into staging. -/
theorem acceptRecord_of_room {d : Nat} {s : State} {w : WaitRec}
    (first : s.recs.waiting.find? (fun w => Nat.beq w.die d) = some w) (held : w.dropped = false)
    (fits : stagedBytes s d + recLen w.payload.length ≤ 0x40000) (room : stagedBytes s d ≤ 0x30000 ∨ 2 ≤ w.cls) :
    acceptRecord d s = { recordTaken d s with recs := { (recordTaken d s).recs with
      staging := s.recs.staging ++ [⟨d, recBytes (recLen w.payload.length) w.typ (d * 64 + w.unit) (recFlags s w)
        (s.rd d Reg.REC_SEQ) w.rtime w.payload⟩],
      dropFlag := delNat s.recs.dropFlag d } } := by
  have kept : ¬(w.dropped || decide (0x40000 < stagedBytes s d + recLen w.payload.length) ||
      (decide (0x30000 < stagedBytes s d) && decide (w.cls ≤ 1))) = true := by
    simp only [held, Bool.false_or, Bool.or_eq_true, Bool.and_eq_true, decide_eq_true_eq]
    omega
  simp only [acceptRecord, first]
  exact if_neg kept

theorem completes_recordAccept {d : Nat} {s : State} {w : WaitRec} (hd : d < dieCount s.orderCode)
    (runs : clocked s d = true) (first : s.recs.waiting.find? (fun w => Nat.beq w.die d) = some w)
    (held : w.dropped = false) (fits : stagedBytes s d + recLen w.payload.length ≤ 0x40000)
    (room : stagedBytes s d ≤ 0x30000 ∨ 2 ≤ w.cls) :
    Completes (.recordAccept d) s (fun t =>
      t.recs.staging = s.recs.staging ++ [⟨d, recBytes (recLen w.payload.length) w.typ (d * 64 + w.unit) (recFlags s w)
        (s.rd d Reg.REC_SEQ) w.rtime w.payload⟩] ∧
      t.rd d Reg.REC_SEQ = (s.rd d Reg.REC_SEQ + 1) % 2 ^ 16 ∧ RegsBut [(d, Reg.REC_SEQ)] s t ∧
      t.recs.waiting.length + 1 = s.recs.waiting.length) := by
  refine completes_of_clocked (f := acceptRecord d) rfl hd runs ?_
  rw [acceptRecord_of_room first held fits room]
  exact ⟨rfl, rd_recordTaken d s, (regsBut_recordTaken d s).of_regs rfl, length_dropFirst first⟩

theorem acceptRecord_of_dropped {d : Nat} {s : State} {w : WaitRec}
    (first : s.recs.waiting.find? (fun w => Nat.beq w.die d) = some w) (dropped : w.dropped = true) :
    acceptRecord d s = recDrop d (s.rd d Reg.REC_SEQ) (recordTaken d s) := by
  simp only [acceptRecord, first]
  exact if_pos (by simp [dropped])

theorem completes_recordAccept_dropped {d : Nat} {s : State} {w : WaitRec} (hd : d < dieCount s.orderCode)
    (runs : clocked s d = true) (first : s.recs.waiting.find? (fun w => Nat.beq w.die d) = some w)
    (dropped : w.dropped = true) :
    Completes (.recordAccept d) s (fun t => t.recs.staging = s.recs.staging ∧
      t.rd d Reg.REC_SEQ = (s.rd d Reg.REC_SEQ + 1) % 2 ^ 16 ∧
      t.rd d Reg.REC_DROPPED = min (s.rd d Reg.REC_DROPPED + 1) (2 ^ 32 - 1) ∧ t.recs.dropFlag.contains d = true) := by
  have before : (recordTaken d s).rd d Reg.REC_DROPPED = s.rd d Reg.REC_DROPPED := State.rd_wr_apart rfl _ _ _ _
  refine completes_of_clocked (f := acceptRecord d) rfl hd runs ?_
  rw [acceptRecord_of_dropped first dropped]
  refine ⟨rfl, ?_, ?_, contains_addNat_same _ d⟩
  · exact (State.rd_count_apart rfl _ _ _ _).trans (rd_recordTaken d s)
  · exact (State.rd_count_same (recordTaken d s) d Reg.REC_DROPPED 1).trans (by rw [before]; rfl)

/-! ### A record drained -/

theorem ringPut_get_ne {d size off : Nat} {l : List Byte} {m : SMap Byte} {key : Nat}
    (other : ∀ k < l.length, ringKey d ((off + k) % size) ≠ key) :
    SMap.get 0 (ringPut d size off l m) key = SMap.get 0 m key := by
  induction l generalizing off m with
  | nil => rfl
  | cons b l ih =>
    rw [ringPut, ih fun k hk => ?_, SMap.get_set_ne]
    · exact (other 0 (by simp)).symm
    · rw [Nat.add_assoc, Nat.add_comm 1 k]
      exact other (k + 1) (by simpa using hk)

/-- Places less than one round apart are not the same place of the ring. -/
theorem ring_place_ne {size off k : Nat} (short : k + 1 < size) : (off + (k + 1)) % size ≠ off % size := by
  intro same
  have none_ : k + 1 ≡ 0 [MOD size] := Nat.ModEq.add_left_cancel' off same
  have zero : (k + 1) % size = 0 % size := none_
  rw [Nat.mod_eq_of_lt short, Nat.zero_mod] at zero
  omega

/-- Bytes that go into the ring in less than one round are each found where they were put. -/
theorem ringPut_get {d size off k : Nat} {l : List Byte} {m : SMap Byte} {b : Byte} (room : l.length ≤ size)
    (byte : l[k]? = some b) : SMap.get 0 (ringPut d size off l m) (ringKey d ((off + k) % size)) = b := by
  induction l generalizing off k m with
  | nil => simp at byte
  | cons x l ih =>
    rw [List.length_cons] at room
    cases k with
    | zero =>
      obtain rfl : x = b := by simpa using byte
      have beyond : ∀ k < l.length, ringKey d ((off + 1 + k) % size) ≠ ringKey d (off % size) := fun k hk => by
        have ne := ring_place_ne (off := off) (show k + 1 < size by omega)
        rw [show off + (k + 1) = off + 1 + k by omega] at ne
        unfold ringKey
        omega
      exact (ringPut_get_ne beyond).trans (SMap.get_set_same ..)
    | succ k =>
      rw [ringPut, show off + (k + 1) = off + 1 + k by omega]
      exact ih (by omega) (by simpa using byte)

/-- The state after a staged record of die `d` went into its ring, with REC_OLDEST at `old` (R542). -/
def recordDrained (d old : Nat) (bytes : List Byte) (s : State) : State :=
  ((({ s with recs := { s.recs with
      ring := ringPut d (ringSize s d) (s.rd d Reg.REC_WR) bytes s.recs.ring,
      staging := dropStaged d s.recs.staging } }).wr d Reg.REC_WR (s.rd d Reg.REC_WR + bytes.length)).wr
    d Reg.REC_OLDEST old).count d Reg.REC_WRITTEN 1

/-- A record that ends before the ring's end needs no PAD; with none dropped there is no REC-DROPPED to write. -/
theorem drainRecord_of_room {d : Nat} {s : State} {r : StagedRec}
    (first : s.recs.staging.find? (fun r => Nat.beq r.die d) = some r) (up : s.rd d Reg.REC_STAGE_RING_UP = 1)
    (owed : ∀ e ∈ s.recs.dropOwed, e.1 ≠ d) (room : r.bytes.length ≤ ringSize s d - s.rd d Reg.REC_WR % ringSize s d) :
    ∃ old, drainRecord d s = recordDrained d old r.bytes s := by
  have noPad (source flags seq rtime : Nat) :
      ringPad (ringSize s d) (s.rd d Reg.REC_WR) r.bytes.length source flags seq rtime = [] := if_pos room
  have none_ : s.recs.dropOwed.find? (fun e => Nat.beq e.1 d) = none :=
    List.find?_eq_none.mpr fun e he => by simpa using owed e he
  refine ⟨pastOverwritten s.recs.ring d (ringSize s d) (s.rd d Reg.REC_WR + r.bytes.length) (r.bytes.length / 32 + 2)
    (s.rd d Reg.REC_OLDEST), ?_⟩
  unfold drainRecord
  simp only [first, up, if_true, noPad, List.nil_append]
  split
  next found => exact nomatch none_.symm.trans found
  next => rfl

theorem recordDrained_shows {d : Nat} {s : State} {bytes : List Byte} (old : Nat)
    (whole : s.rd d Reg.REC_WR + bytes.length < 2 ^ 64) :
    (recordDrained d old bytes s).rd d Reg.REC_WR = s.rd d Reg.REC_WR + bytes.length ∧
      (recordDrained d old bytes s).rd d Reg.REC_WRITTEN = min (s.rd d Reg.REC_WRITTEN + 1) (2 ^ 48 - 1) := by
  have wr : (s.rd d Reg.REC_WR + bytes.length) % 2 ^ Reg.REC_WR.width = s.rd d Reg.REC_WR + bytes.length :=
    Nat.mod_eq_of_lt whole
  constructor
  · simp (disch := decide) only [recordDrained, State.rd_count_apart, State.rd_wr_apart, State.rd_wr_same, wr]
  · simp (disch := decide) only [recordDrained, State.rd_count_same, State.rd_wr_apart]
    rfl

theorem regsBut_recordDrained (d old : Nat) (bytes : List Byte) (s : State) :
    RegsBut [(d, Reg.REC_WR), (d, Reg.REC_OLDEST), (d, Reg.REC_WRITTEN)] s (recordDrained d old bytes s) :=
  ((((RegsBut.refl _ s).of_regs (u := { s with recs := { s.recs with
      ring := ringPut d (ringSize s d) (s.rd d Reg.REC_WR) bytes s.recs.ring,
      staging := dropStaged d s.recs.staging } }) rfl).wr d Reg.REC_WR (s.rd d Reg.REC_WR + bytes.length) (by simp)).wr
    d Reg.REC_OLDEST old (by simp)).count d Reg.REC_WRITTEN 1 (by simp)

theorem completes_recordDrain {d : Nat} {s : State} {r : StagedRec} (hd : d < dieCount s.orderCode)
    (runs : clocked s d = true) (first : s.recs.staging.find? (fun r => Nat.beq r.die d) = some r)
    (up : s.rd d Reg.REC_STAGE_RING_UP = 1) (owed : ∀ e ∈ s.recs.dropOwed, e.1 ≠ d)
    (room : r.bytes.length ≤ ringSize s d - s.rd d Reg.REC_WR % ringSize s d)
    (whole : s.rd d Reg.REC_WR + r.bytes.length < 2 ^ 64) :
    Completes (.recordDrain d) s (fun t =>
      t.rd d Reg.REC_WR = s.rd d Reg.REC_WR + r.bytes.length ∧
      t.rd d Reg.REC_WRITTEN = min (s.rd d Reg.REC_WRITTEN + 1) (2 ^ 48 - 1) ∧
      t.recs.staging = dropStaged d s.recs.staging ∧
      (∀ k b, r.bytes[k]? = some b →
        SMap.get 0 t.recs.ring (ringKey d ((s.rd d Reg.REC_WR + k) % ringSize s d)) = b) ∧
      RegsBut [(d, Reg.REC_WR), (d, Reg.REC_OLDEST), (d, Reg.REC_WRITTEN)] s t) := by
  obtain ⟨old, effect⟩ := drainRecord_of_room first up owed room
  obtain ⟨wr, written⟩ := recordDrained_shows old whole
  refine completes_of_clocked (f := drainRecord d) rfl hd runs ?_
  rw [effect]
  exact ⟨wr, written, rfl, fun k b => ringPut_get (room.trans (Nat.sub_le ..)), regsBut_recordDrained d old r.bytes s⟩

/-! ### A record lost, REC_TEST and REC_FAIL_CLEAR -/

theorem length_dropNthStaged {d i : Nat} {l : List StagedRec} (inside : i < (l.filter (fun r => Nat.beq r.die d)).length) :
    (dropNthStaged d i l).length + 1 = l.length := by
  induction l generalizing i with
  | nil => simp at inside
  | cons r l ih =>
    by_cases here : r.die = d
    · cases i with
      | zero => simp [dropNthStaged, here]
      | succ i => simpa [dropNthStaged, here] using ih (i := i) (by simpa [here] using inside)
    · simpa [dropNthStaged, here] using ih (by simpa [here] using inside)

theorem completes_stagingSramError {s : State} {d i : Nat} (hd : d < dieCount s.orderCode) (runs : clocked s d = true)
    (inside : i < (s.recs.staging.filter (fun r => Nat.beq r.die d)).length) :
    Completes (.stagingSramError d i) s (fun t => t.recs.staging.length + 1 = s.recs.staging.length ∧
      t.rd d Reg.REC_DROPPED = min (s.rd d Reg.REC_DROPPED + 1) (2 ^ 32 - 1) ∧ RegsBut [(d, Reg.REC_DROPPED)] s t) := by
  refine completes_of_clocked (f := stagingSramError d i) rfl hd runs ?_
  rw [stagingSramError, if_pos inside]
  exact ⟨length_dropNthStaged inside, State.rd_count_same _ d Reg.REC_DROPPED 1,
    ((RegsBut.refl _ s).of_regs (u := { s with recs := { s.recs with staging := dropNthStaged d i s.recs.staging } }) rfl).count
      d Reg.REC_DROPPED 1 (by simp)⟩

theorem completes_recTest {s : State} {d : Nat} (src : Source) (v : BitVec 32) (hd : d < dieCount s.orderCode)
    (runs : clocked s d = true) :
    Completes (.recTest d src v) s (fun t => t.rd d Reg.REC_TEST = v.toNat ∧ HandsOver d 0 0x001 0 s t ∧
      RegsBut [(d, Reg.REC_TEST)] s t) :=
  completes_of_clocked (f := recTest d v) rfl hd runs
    ⟨(State.rd_wr_same s d Reg.REC_TEST v.toNat).trans (Nat.mod_eq_of_lt v.isLt), handsOver_emit d 0 0x001 0 _ _ rfl,
      ((RegsBut.refl _ s).wr d Reg.REC_TEST v.toNat (by simp)).of_regs rfl⟩

theorem completes_recFailClear {s : State} {d : Nat} {src : Source} {c : Instr} {f : Fld}
    (named : (c, f) ∈ [(Instr.recFailClearClusters d src, Reg.REC_FAIL_CLEAR_CLUSTERS),
      (Instr.recFailClearChans d src, Reg.REC_FAIL_CLEAR_CHANS), (Instr.recFailClearHalves d src, Reg.REC_FAIL_CLEAR_HALVES)])
    (hd : d < dieCount s.orderCode) :
    Completes c s (fun t => t.rd d f = 1 ∧ RegsBut [(d, f)] s t ∧ t.core = s.core ∧ t.slc = s.slc) := by
  have set (g : Fld) (bit : g.width = 1) : (s.wr d g 1).rd d g = 1 ∧ RegsBut [(d, g)] s (s.wr d g 1) ∧
      (s.wr d g 1).core = s.core ∧ (s.wr d g 1).slc = s.slc :=
    ⟨(State.rd_wr_same ..).trans (by simp [bit]), (RegsBut.refl _ s).wr d g 1 (by simp), rfl, rfl⟩
  simp only [List.mem_cons, List.not_mem_nil, or_false, Prod.mk.injEq] at named
  rcases named with ⟨rfl, rfl⟩ | ⟨rfl, rfl⟩ | ⟨rfl, rfl⟩
  · exact completes_of_onDie (execRecFailClearClusters d src s) rfl rfl hd (set Reg.REC_FAIL_CLEAR_CLUSTERS rfl)
  · exact completes_of_onDie (execRecFailClearChans d src s) rfl rfl hd (set Reg.REC_FAIL_CLEAR_CHANS rfl)
  · exact completes_of_onDie (execRecFailClearHalves d src s) rfl rfl hd (set Reg.REC_FAIL_CLEAR_HALVES rfl)

/-- Settles O59: the engine acts on the first record handed over (`acceptRecord_of_room`, `acceptRecord_of_dropped`) and on
the first one staged (`drainRecord_of_room`), whose bytes go into the ring in less than one round (`ringPut_get`). -/
theorem recorderActs : Obligations.RecorderActs :=
  ⟨fun _ _ _ => completes_recordAccept, fun _ _ _ => completes_recordAccept_dropped,
    fun _ _ _ hd runs first up owed _ => completes_recordDrain hd runs first up owed,
    fun _ _ src v => completes_recTest src v, fun _ _ _ _ _ => completes_recFailClear,
    fun _ _ _ => completes_stagingSramError, fun _ _ _ _ _ _ => completes_engine_of_not_clocked⟩

end Sys2Proof.Machine
end


section
/-! PROOFS. Power (R584–R598): what a loss of power does to the rack's own state, and the commands of chapter 17 that start,
stop or replace a part. -/

namespace Sys2Proof.Machine

/-! ### A die without power -/

/-- The frame of what empties a die: the rack's own state, the start-up's and the images are not in it. -/
def emptyFrame : Frame :=
  { noFrame with
    regs := True, core := True, slc := True, hbm := True, net := True, que := True, prt := True, xlt := True,
    host := True, recs := True, out := True }

theorem keeps_scrubDie (d : Nat) (s : State) : Keeps emptyFrame s (scrubDie d s) :=
  scrubDie_keeps trivial trivial trivial trivial trivial trivial trivial trivial trivial d (.refl _ s)

theorem keeps_emptyDie (d : Nat) (s : State) : Keeps emptyFrame s (emptyDie d s) :=
  emptyDie_keeps trivial trivial trivial trivial d (.refl _ s)

theorem keeps_loseStaging (d : Nat) (s : State) : Keeps emptyFrame s (loseStaging d s) :=
  loseStaging_keeps trivial d (.refl _ s)

theorem keeps_portReset (d : Nat) (s : State) : Keeps emptyFrame s (portReset d s) :=
  portReset_keeps trivial trivial d (.refl _ s)

/-- The die emptied and forgotten by start-up, its host port down. -/
def dieCleared (d : Nat) (s : State) : State := portReset d (bootReset d (emptyDie d (scrubDie d s)))

theorem keeps_emptyScrub (d : Nat) (s : State) : Keeps emptyFrame s (emptyDie d (scrubDie d s)) :=
  (keeps_scrubDie d s).trans (keeps_emptyDie d _)

theorem rack_dieCleared (d : Nat) (s : State) : (dieCleared d s).rack = s.rack :=
  ((keeps_portReset d _).rack id).trans (((keeps_emptyScrub d s).rack id :))

/-- Of the rack's own state a die that loses power takes its power alone. -/
theorem rack_dieUnpower (d : Nat) (s : State) :
    (dieUnpower d s).rack = { s.rack with powered := delNat s.rack.powered d } := by
  have cleared : (dieCleared d (loseStaging d s)).rack = s.rack :=
    (rack_dieCleared d _).trans ((keeps_loseStaging d s).rack id)
  show { (dieCleared d (loseStaging d s)).rack with powered := delNat (dieCleared d (loseStaging d s)).rack.powered d } = _
  rw [cleared]

theorem natBeq_decide (x y : Nat) : Nat.beq x y = decide (x = y) := by
  rw [Bool.eq_iff_iff, decide_eq_true_iff, Nat.beq_eq]

theorem rack_each_dieUnpower (l : List Nat) (s : State) :
    (each l (fun s d => dieUnpower d s) s).rack =
      { s.rack with powered := s.rack.powered.filter (fun x => !l.contains x) } := by
  induction l generalizing s with
  | nil => simp [each]
  | cons d l ih =>
    refine (ih (dieUnpower d s)).trans ?_
    rw [rack_dieUnpower]
    simp only [delNat, List.filter_filter, List.contains_cons]
    congr 2
    funext x
    rw [Bool.eq_iff_iff]
    simp [natBeq_decide, and_comm]

theorem contains_filter (l : List Nat) (p : Nat → Bool) (x : Nat) : (l.filter p).contains x = (l.contains x && p x) := by
  rw [Bool.eq_iff_iff]
  simp

theorem contains_moduleDies (m d : Nat) : (moduleDies m).contains d = Nat.beq (moduleOf d) m := by
  rw [Bool.eq_iff_iff]
  simp [moduleDies, moduleOf]
  omega

/-- What a module's loss of power changes of the rack's own state (R586, R596). -/
theorem rack_modulePowerOff (m : Nat) (s : State) :
    (modulePowerOff m s).rack = { s.rack with
      powered := s.rack.powered.filter (fun d => !(Nat.beq (moduleOf d) m)),
      dieOff := s.rack.dieOff.filter (fun d => !(Nat.beq (moduleOf d) m)),
      modAlert := if s.rack.valvesShut.contains m then s.rack.modAlert else delNat s.rack.modAlert m,
      modReset := addNat s.rack.modReset m } := by
  have rack := rack_each_dieUnpower ((moduleDies m).filter (fun d => s.rack.powered.contains d)) s
  have mine : s.rack.powered.filter (fun x => !((moduleDies m).filter (fun d => s.rack.powered.contains d)).contains x) =
      s.rack.powered.filter (fun d => !(Nat.beq (moduleOf d) m)) := by
    refine List.filter_congr fun d on => ?_
    rw [contains_filter, contains_moduleDies, List.contains_iff_mem.mpr on, Bool.and_true]
  rw [mine] at rack
  unfold modulePowerOff
  dsimp only
  rw [rack]

theorem rack_dropModEn {m : Nat} {s : State} (on : s.rack.modEn.contains m = true) :
    (dropModEn m s).rack = { (modulePowerOff m s).rack with modEn := delNat s.rack.modEn m } := by
  have rack := rack_modulePowerOff m s
  rw [dropModEn, if_pos on]
  show { (modulePowerOff m s).rack with modEn := delNat (modulePowerOff m s).rack.modEn m } = _
  rw [rack]

/-- A module whose MOD_EN falls has it no more, whether or not it had it. -/
theorem modEn_dropModEn (m : Nat) (s : State) : (dropModEn m s).rack.modEn = delNat s.rack.modEn m := by
  cases on : s.rack.modEn.contains m
  · rw [dropModEn, if_neg (ne_true_of_eq_false on)]
    refine (List.filter_eq_self.mpr fun x hx => ?_).symm
    have other : x ≠ m := fun same => by simp [same ▸ hx] at on
    simpa [natBeq_decide] using other
  · rw [rack_dropModEn on]

/-! ### Power up -/

theorem length_addNat_of_not_mem {l : List Nat} {n : Nat} (new : l.contains n = false) :
    (addNat l n).length = l.length + 1 := by
  rw [addNat, if_neg (ne_true_of_eq_false new), List.length_append, List.length_singleton]

theorem completes_shelfPowerGood {s : State} {k : Nat} (hk : k < 3) (new : s.rack.shelfUp.contains k = false) :
    Completes (.shelfPowerGood k) s (fun t =>
      t.rack.shelfUp.contains k = true ∧ (1 ≤ s.rack.shelfUp.length → t.rack.busbar = true) ∧
      SMap.get 0 t.rack.rectFailed k = 0 ∧ t.regs = s.regs ∧ t.boot = s.boot) := by
  have good : (decide (k < 3) && !s.rack.shelfUp.contains k) = true := by rw [new, decide_eq_true hk]; rfl
  refine completes_of_next (execShelfPowerGood k s) rfl (congrArg Host.Outcome.next (if_pos good)) ?_
  have whole := SMap.get_set_same (α := Nat) 0 s.rack.rectFailed k 0
  refine ⟨contains_addNat_same .., fun one => ?_, whole, rfl, rfl⟩
  have two : Nat.ble 2 (addNat s.rack.shelfUp k).length = true :=
    Nat.ble_eq_true_of_le (by rw [length_addNat_of_not_mem new]; omega)
  exact (congrArg (s.rack.busbar || ·) two).trans (Bool.or_true _)

theorem completes_rmBoot {s : State} (l : List PairEntry) (a b c : Compat) (n ms : Nat) (bus : s.rack.busbar = true)
    (off : s.rack.rmUp = false) :
    Completes (.rmBoot l a b c ⟨n, ms⟩) s (fun t => t.rack.rmUp = true ∧ t.rack.refclk = true ∧
      t.boot.pairing = l.take 1024 ∧ t.boot.censusMs = max 100 (min ms 60000) ∧ t.rack.rackNo = n % 0x10000 ∧
      t.regs = s.regs) :=
  completes_of_next (execRmBoot l a b c ⟨n, ms⟩ s) rfl (congrArg Host.Outcome.next (if_pos (by rw [bus, off]; rfl)))
    ⟨rfl, rfl, rfl, rfl, rfl, rfl⟩

/-- The spine sleds that have reported, with the reports of a MOD_EN_ASSERT. -/
def reported (s : State) (sp0 sp1 : Bool) : List Nat :=
  let ready := if sp0 then addNat s.rack.spineReady 0 else s.rack.spineReady
  if sp1 then addNat ready 1 else ready

theorem contains_reported (s : State) (sp0 sp1 : Bool) :
    (reported s sp0 sp1).contains 0 = (sp0 || s.rack.spineReady.contains 0) ∧
      (reported s sp0 sp1).contains 1 = (sp1 || s.rack.spineReady.contains 1) := by
  cases sp0 <;> cases sp1 <;> simp only [reported, Bool.false_eq_true, if_false, if_true, contains_addNat] <;> simp

theorem isEmpty_addNat (l : List Nat) (n : Nat) : (addNat l n).isEmpty = false := by
  unfold addNat
  split
  next inside => cases l with
    | nil => simp at inside
    | cons x l => rfl
  next => cases l <;> rfl

theorem isEmpty_reported (s : State) (sp0 sp1 : Bool) :
    (!(reported s sp0 sp1).isEmpty) = (sp0 || sp1 || !s.rack.spineReady.isEmpty) := by
  cases sp0 <;> cases sp1 <;> simp [reported, isEmpty_addNat]

theorem completes_modEnAssert {s : State} {sp0 sp1 after : Bool} (up : s.rack.rmUp = true) (cool : s.rack.coolOff = false)
    (may : cduOk s s.rack.inlet s.rack.flow = true ∧ (sp0 || s.rack.spineReady.contains 0) = true ∧
        (sp1 || s.rack.spineReady.contains 1) = true ∨
      after = true ∧ (sp0 || sp1 || !s.rack.spineReady.isEmpty) = true) :
    Completes (.modEnAssert sp0 sp1 after) s (fun t =>
      (∀ m, m < moduleCount s.orderCode → s.rack.modAbsent.contains m = false → m ∈ t.rack.modEn) ∧
      (∀ m ∈ t.rack.modEn, s.rack.modAbsent.contains m = false) ∧ t.regs = s.regs ∧ t.rack.powered = s.rack.powered) := by
  obtain ⟨zero, one⟩ := contains_reported s sp0 sp1
  have asserts : (!s.rack.coolOff && (cduOk s s.rack.inlet s.rack.flow &&
      ((reported s sp0 sp1).contains 0 && (reported s sp0 sp1).contains 1) ||
        after && !(reported s sp0 sp1).isEmpty)) = true := by
    rw [cool, zero, one, isEmpty_reported]
    obtain ⟨flows, h0, h1⟩ | ⟨waited, some_⟩ := may
    · rw [flows, h0, h1]; rfl
    · rw [waited, some_]; exact Bool.or_true _
  have effect : modEnAssert sp0 sp1 after s =
      assertModEn { s with rack := { s.rack with spineReady := reported s sp0 sp1 } } :=
    (if_pos up).trans (if_pos asserts)
  refine completes_of_next (execModEnAssert sp0 sp1 after s) rfl (congrArg Host.Outcome.next effect) ?_
  refine ⟨fun m inside present => ?_, fun m on => ?_, rfl, rfl⟩
  · exact List.mem_filter.mpr ⟨List.mem_range.mpr inside, by rw [present]; rfl⟩
  · exact (Bool.not_eq_true' _).mp (List.mem_filter.mp on).2

/-- Power good of a die whose lower dies have theirs: its rails come up in the same step (assumption log 128), with the cause
and the INCARNATION of a module reset or of power-up (log 77). -/
theorem completes_diePowerGood {s : State} {d : Nat} (hd : d < dieCount s.orderCode)
    (on : s.rack.modEn.contains (moduleOf d) = true) (present : s.rack.modAbsent.contains (moduleOf d) = false)
    (notOff : s.rack.dieOff.contains d = false) (unpowered : s.rack.powered.contains d = false)
    (first : ∀ k, k < d % 4 → s.rack.powered.contains (4 * moduleOf d + k) = true ∨
      s.rack.dieOff.contains (4 * moduleOf d + k) = true) :
    Completes (.diePowerGood d) s (fun t =>
      t.rack.powered.contains d = true ∧ t.boot.inReset.contains d = true ∧
      t.rd d Reg.DC_INCARNATION = (if s.rack.modReset.contains (moduleOf d) then (SMap.get 0 s.rack.flashIncarn d + 1) % 0x10000
        else 0) ∧
      t.rd d Reg.DC_RESET_CAUSE = (if s.rack.modReset.contains (moduleOf d) then 2 else 0)) := by
  have before : (List.range (d % 4)).all (fun k => s.rack.powered.contains (4 * moduleOf d + k) ||
      s.rack.dieOff.contains (4 * moduleOf d + k)) = true :=
    List.all_eq_true.mpr fun k hk => by simpa using first k (List.mem_range.mp hk)
  refine completes_of_onDie (execDiePowerGood d s) rfl rfl hd ?_
  unfold diePowerGood
  dsimp only
  rw [if_pos (by rw [before, on, present, notOff, unpowered]; rfl)]
  refine ⟨contains_addNat_same .., contains_addNat_same .., ?_, ?_⟩
  · refine (State.rd_wr_apart rfl _ _ _ _).trans ((State.rd_wr_same ..).trans ?_)
    split
    · exact Nat.mod_mod _ _
    · rfl
  · refine (State.rd_wr_same ..).trans ?_
    split <;> rfl

theorem completes_moduleFlashWrite {s : State} {m image copy : Nat} (c : FlashCopy) (hd : 4 * m < dieCount s.orderCode)
    (up : s.rack.rmUp = true) (himage : image < 3) (hcopy : copy < 2) (present : s.rack.modAbsent.contains m = false) :
    Completes (.moduleFlashWrite m image copy c) s (fun t =>
      (c.length ≤ (flashPlace image copy).2 → look (m * 8 + image * 2 + copy) t.rack.flash = some c) ∧
      ((flashPlace image copy).2 < c.length → t.rack.flash = s.rack.flash) ∧ t.regs = s.regs ∧ t.boot = s.boot) := by
  refine completes_of_onDie (execModuleFlashWrite m image copy c s) rfl rfl hd ?_
  by_cases fits : c.length ≤ (flashPlace image copy).2
  · rw [moduleFlashWrite, if_pos (by
      rw [up, present, decide_eq_true himage, decide_eq_true hcopy, Nat.ble_eq_true_of_le fits]; rfl)]
    exact ⟨fun _ => look_bind_same .., fun over_ => absurd fits (Nat.not_le.mpr over_), rfl, rfl⟩
  · rw [moduleFlashWrite, if_neg (by simp [fits])]
    exact ⟨fun under => absurd under fits, fun _ => rfl, rfl, rfl⟩

theorem completes_moduleInsert {s : State} {m : Nat} (hd : 4 * m < dieCount s.orderCode)
    (absent : s.rack.modAbsent.contains m = true) :
    Completes (.moduleInsert m) s (fun t => t.rack.modAbsent.contains m = false ∧ t.rack.valvesShut.contains m = false ∧
      t.rack.modEn = s.rack.modEn ∧ t.regs = s.regs) := by
  refine completes_of_onDie (execModuleInsert m s) rfl rfl hd ?_
  rw [moduleInsert, if_pos absent]
  exact ⟨contains_delNat .., contains_delNat .., rfl, rfl⟩

theorem completes_spineSledReplace {s : State} {k : Nat} (hk : k < 2) (up : s.rack.rmUp = true)
    (lost : s.rack.planeLost.contains k = true) :
    Completes (.spineSledReplace k) s (fun t => t.rack.spineReady.contains k = true ∧
      t.rack.planeLost = s.rack.planeLost ∧ t.boot = s.boot) :=
  completes_of_next (execSpineSledReplace k s) rfl
    (congrArg Host.Outcome.next (if_pos (by rw [up, lost, decide_eq_true hk]; rfl))) ⟨contains_addNat_same .., rfl, rfl⟩

/-! ### Power down -/

/-- A module whose MOD_EN falls: it, its reset and its dies' power, and those of no other module (assumption log 78). -/
theorem completes_modEnDrop {s : State} {m : Nat} (hd : 4 * m < dieCount s.orderCode)
    (on : s.rack.modEn.contains m = true) :
    Completes (.modEnDrop m) s (fun t => t.rack.modEn.contains m = false ∧ t.rack.modReset.contains m = true ∧
      (∀ d, moduleOf d = m → t.rack.powered.contains d = false) ∧
      (∀ d, moduleOf d ≠ m → t.rack.powered.contains d = s.rack.powered.contains d)) := by
  refine completes_of_onDie (execModEnDrop m s) rfl rfl hd ?_
  rw [rack_dropModEn on, rack_modulePowerOff]
  refine ⟨contains_delNat .., contains_addNat_same .., fun d mine => ?_, fun d other => ?_⟩
  · exact (contains_filter ..).trans (by rw [natBeq_decide, decide_eq_true mine]; exact Bool.and_false _)
  · exact (contains_filter ..).trans (by rw [natBeq_decide, decide_eq_false other]; exact Bool.and_true _)

theorem rack_busbarLoss {s : State} (on : s.rack.busbar = true) (known : ∀ d ∈ s.rack.powered, d < dieCount s.orderCode) :
    (busbarLoss s).rack.busbar = false ∧ (busbarLoss s).rack.shelfUp = [] ∧ (busbarLoss s).rack.rmUp = false ∧
      (busbarLoss s).rack.modEn = [] ∧ (busbarLoss s).rack.powered = [] ∧ (busbarLoss s).img.load = none := by
  have rack := rack_each_dieUnpower ((allDies s).filter (fun d => s.rack.powered.contains d)) s
  have powered : (busbarLoss s).rack.powered =
      s.rack.powered.filter (fun x => !((allDies s).filter (fun d => s.rack.powered.contains d)).contains x) := by
    rw [busbarLoss, if_pos on]
    exact congrArg Rack.powered rack
  have none_ : (busbarLoss s).rack.powered = [] := by
    rw [powered]
    refine List.filter_eq_nil_iff.mpr fun d hd => ?_
    have inside : ((allDies s).filter (fun d => s.rack.powered.contains d)).contains d = true := by
      rw [contains_filter, List.contains_iff_mem.mpr (mem_allDies.mpr (known d hd)), List.contains_iff_mem.mpr hd]
      rfl
    rw [inside]
    exact Bool.false_ne_true
  refine ⟨?_, ?_, ?_, ?_, none_, ?_⟩ <;> rw [busbarLoss, if_pos on] <;> rfl

theorem completes_busbarLoss {s : State} (on : s.rack.busbar = true)
    (known : ∀ d ∈ s.rack.powered, d < dieCount s.orderCode) :
    Completes (.busbarLoss) s (fun t => t.rack.busbar = false ∧ t.rack.shelfUp = [] ∧ t.rack.rmUp = false ∧
      t.rack.modEn = [] ∧ t.rack.powered = [] ∧ t.img.load = none) :=
  completes_of_next (execBusbarLoss s) rfl rfl (rack_busbarLoss on known)

theorem completes_shelfFailure_rectifier {s : State} {k : Nat} (on : s.rack.shelfUp.contains k = true)
    (few : SMap.get 0 s.rack.rectFailed k < 7) (two : 2 ≤ s.rack.shelfUp.length) :
    Completes (.shelfFailure k false) s (fun t => t.rack.shelfUp = s.rack.shelfUp ∧
      SMap.get 0 t.rack.rectFailed k = SMap.get 0 s.rack.rectFailed k + 1 ∧ t.rack.powered = s.rack.powered) := by
  have counted := SMap.get_set_same (α := Nat) 0 s.rack.rectFailed k (SMap.get 0 s.rack.rectFailed k + 1)
  have more : min 8 (SMap.get 0 s.rack.rectFailed k + 1) = SMap.get 0 s.rack.rectFailed k + 1 := by omega
  have effect : shelfFailure k false s = { s with rack := { s.rack with
      rectFailed := SMap.set 0 s.rack.rectFailed k (SMap.get 0 s.rack.rectFailed k + 1) } } := by
    unfold shelfFailure
    dsimp only
    rw [if_pos on, if_neg Bool.false_ne_true, more, if_neg (by omega : ¬SMap.get 0 s.rack.rectFailed k + 1 = 8),
      if_neg (by omega)]
  exact completes_of_next (execShelfFailure k false s) rfl (congrArg Host.Outcome.next effect) ⟨rfl, counted, rfl⟩

/-! ### Cooling and leaks -/

theorem modEn_each_dropModEn (l : List Nat) (s : State) :
    (each l (fun s m => dropModEn m s) s).rack.modEn = s.rack.modEn.filter (fun x => !l.contains x) := by
  induction l generalizing s with
  | nil => simp [each]
  | cons m l ih =>
    refine (ih (dropModEn m s)).trans ?_
    rw [modEn_dropModEn]
    simp only [delNat, List.filter_filter, List.contains_cons]
    congr 1
    funext x
    rw [Bool.eq_iff_iff]
    simp [natBeq_decide, and_comm]

theorem modEn_coolingOff (s : State) : (coolingOff s).rack.modEn = [] := by
  refine (modEn_each_dropModEn s.rack.modEn s).trans (List.filter_eq_nil_iff.mpr fun m on => ?_)
  rw [List.contains_iff_mem.mpr on]
  exact Bool.false_ne_true

/-- The RM's check takes the two readings and counts the low ones in a row (assumption log 79). -/
def checked (inlet flow low : Nat) (s : State) : State :=
  { s with rack := { s.rack with inlet := inlet, flow := flow, lowFlow := low, okFlow := 0 } }

theorem cduCheck_of_running {s : State} {inlet flow : Nat} (up : s.rack.rmUp = true) (cool : s.rack.coolOff = false) :
    cduCheck inlet flow s =
      let low := if Nat.blt (2 * flow) (minFlow s.orderCode) then s.rack.lowFlow + 1 else 0
      if (!s.rack.modEn.isEmpty && (Nat.blt 40 inlet || Nat.ble 5 low)) = true
        then coolingOff (checked inlet flow low s) else checked inlet flow low s := by
  unfold cduCheck
  dsimp only
  rw [if_pos up, if_neg (ne_true_of_eq_false cool)]
  simp only [cool, Bool.false_and, checked]
  rfl

theorem completes_cduCheck_bad {s : State} {inlet flow : Nat} (up : s.rack.rmUp = true) (cool : s.rack.coolOff = false)
    (some_ : s.rack.modEn ≠ []) (bad : 40 < inlet ∨ 4 ≤ s.rack.lowFlow ∧ 2 * flow < minFlow s.orderCode) :
    Completes (.cduCheck inlet flow) s (fun t => t.rack.coolOff = true ∧ t.rack.modEn = []) := by
  have off : (!s.rack.modEn.isEmpty && (Nat.blt 40 inlet || Nat.ble 5
      (if Nat.blt (2 * flow) (minFlow s.orderCode) then s.rack.lowFlow + 1 else 0))) = true := by
    rw [Bool.and_eq_true, Bool.or_eq_true, Bool.not_eq_true', List.isEmpty_eq_false_iff, Nat.blt_eq, Nat.ble_eq]
    refine ⟨some_, bad.imp_right fun ⟨often, low⟩ => ?_⟩
    rw [if_pos (Nat.blt_eq.mpr low)]
    omega
  refine completes_of_next (execCduCheck inlet flow s) rfl
    (congrArg Host.Outcome.next ((cduCheck_of_running up cool).trans (if_pos off))) ⟨rfl, modEn_coolingOff _⟩

theorem completes_cduCheck_good {s : State} {inlet flow : Nat} (up : s.rack.rmUp = true) (cool : s.rack.coolOff = false)
    (cold : inlet ≤ 40) (flows : minFlow s.orderCode ≤ 2 * flow) :
    Completes (.cduCheck inlet flow) s (fun t =>
      t.rack.inlet = inlet ∧ t.rack.flow = flow ∧ t.rack.lowFlow = 0 ∧ t.rack.modEn = s.rack.modEn ∧
      t.rack.powered = s.rack.powered ∧ t.regs = s.regs) := by
  have low : (if Nat.blt (2 * flow) (minFlow s.orderCode) then s.rack.lowFlow + 1 else 0) = 0 :=
    if_neg (by rw [Nat.blt_eq]; omega)
  have fine : ¬(!s.rack.modEn.isEmpty && (Nat.blt 40 inlet || Nat.ble 5 0)) = true := by
    have warm : ¬Nat.blt 40 inlet = true := by rw [Nat.blt_eq]; omega
    simp [warm]
  have effect : cduCheck inlet flow s = checked inlet flow 0 s := by
    rw [cduCheck_of_running up cool]
    dsimp only
    rw [low, if_neg fine]
  exact completes_of_next (execCduCheck inlet flow s) rfl (congrArg Host.Outcome.next effect) ⟨rfl, rfl, rfl, rfl, rfl, rfl⟩

theorem completes_leak {s : State} {m : Nat} (hd : 4 * m < dieCount s.orderCode) (up : s.rack.rmUp = true)
    (present : s.rack.modAbsent.contains m = false) :
    Completes (.leak (some m)) s (fun t => t.rack.valvesShut.contains m = true ∧ t.rack.modAlert.contains m = true ∧
      t.rack.modEn.contains m = false) := by
  refine completes_of_onDie (execLeak (some m) s) rfl rfl hd ?_
  rw [moduleLeak, if_pos (by rw [up, present]; rfl)]
  refine ⟨contains_addNat_same .., contains_addNat_same .., ?_⟩
  exact (congrArg (List.contains · m) (modEn_dropModEn m (alert m s))).trans (contains_delNat ..)

/-! ### One die, and a module taken out -/

theorem powered_unpowerIfOn (d : Nat) (s : State) :
    (if s.rack.powered.contains d then dieUnpower d s else s).rack.powered = delNat s.rack.powered d := by
  cases on : s.rack.powered.contains d
  · refine (List.filter_eq_self.mpr fun x hx => ?_).symm
    have other : x ≠ d := fun same => by
      rw [← same, List.contains_iff_mem.mpr (same ▸ hx)] at on
      cases on
    simpa [natBeq_decide] using other
  · exact congrArg Rack.powered (rack_dieUnpower d s)

theorem completes_stageFault {s : State} {d : Nat} (hd : d < dieCount s.orderCode)
    (on : s.rack.modEn.contains (moduleOf d) = true) (notOff : s.rack.dieOff.contains d = false) :
    Completes (.stageFault d) s (fun t =>
      t.rack.dieOff.contains d = true ∧ t.rack.powered.contains d = false ∧ t.rack.modAlert.contains (moduleOf d) = true ∧
      (∀ x, x ≠ d → t.rack.powered.contains x = s.rack.powered.contains x)) := by
  have powered := powered_unpowerIfOn d s
  refine completes_of_onDie (execStageFault d s) rfl rfl hd ?_
  rw [stageFault, if_pos (by rw [on, notOff]; rfl)]
  refine ⟨contains_addNat_same .., ?_, contains_addNat_same .., fun x other => ?_⟩
  · exact (congrArg (List.contains · d) powered).trans (contains_delNat ..)
  · refine (congrArg (List.contains · x) powered).trans ((contains_filter ..).trans ?_)
    rw [natBeq_decide, decide_eq_false other]
    exact Bool.and_true _

theorem completes_moduleRemove {s : State} {m : Nat} (hd : 4 * m < dieCount s.orderCode)
    (present : s.rack.modAbsent.contains m = false) :
    Completes (.moduleRemove m) s (fun t => t.rack.modAbsent.contains m = true ∧ t.rack.modEn.contains m = false ∧
      t.rack.modAlert.contains m = false) := by
  refine completes_of_onDie (execModuleRemove m s) rfl rfl hd ?_
  rw [moduleRemove, if_neg (ne_true_of_eq_false present)]
  refine ⟨contains_addNat_same .., ?_, contains_delNat ..⟩
  exact (congrArg (List.contains · m) (modEn_dropModEn m s)).trans (contains_delNat ..)

/-- Settles O60: of the rack's own state a loss of power takes what `rack_dieUnpower`, `rack_modulePowerOff` and
`rack_busbarLoss` say; MOD_EN's conditions, the cause at power good, what power loss takes, the CDU checks and RM_BOOT's
operands are assumption logs 76 to 79, 128 and 129. -/
theorem powerUpAndDown : Obligations.PowerUpAndDown :=
  ⟨⟨fun _ _ => completes_shelfPowerGood, fun _ => completes_rmBoot, fun _ _ _ _ => completes_modEnAssert,
      fun _ _ => completes_diePowerGood, fun _ _ _ _ c hd up himage hcopy => completes_moduleFlashWrite c hd up himage hcopy,
      fun _ _ => completes_moduleInsert, fun _ _ => completes_spineSledReplace⟩,
    fun _ _ => completes_modEnDrop, fun _ => completes_busbarLoss, fun _ _ => completes_shelfFailure_rectifier,
    fun _ _ _ => completes_cduCheck_bad, fun _ _ _ => completes_cduCheck_good, fun _ _ => completes_leak,
    fun _ _ => completes_stageFault, fun _ _ => completes_moduleRemove⟩

end Sys2Proof.Machine
end


section
/-! PROOFS. Die, module and rack resets and the loss of REFCLK (R41, R42, R121, R457, R598): what is lost and what stays. -/

namespace Sys2Proof.Machine

/-! ### HBM while no kill is under way -/

/-- No kill is under way, and HBM holds `m`. -/
structure Holds (m : List Host.Cell) (s : State) : Prop where
  kills : s.core.kills = []
  hbm : s.slc.hbm = m

/-- The frame of an effect on neither the cores nor the caches. -/
def outerFrame : Frame :=
  { noFrame with
    regs := True, rack := True, boot := True, img := True, net := True, que := True, prt := True, xlt := True,
    host := True, recs := True, out := True }

variable {m : List Host.Cell} {s t : State}

theorem Holds.keeps (h : Holds m s) (kept : Keeps outerFrame s t) : Holds m t :=
  ⟨(congrArg Cores.kills (kept.core id)).trans h.kills, (congrArg Slices.hbm (kept.slc id)).trans h.hbm⟩

theorem holds_each_invalL1 (l : List Nat) (h : Holds m s) :
    Holds m (each l (fun s c => invalL1 (c / 320) (c % 320) s) s) :=
  each_induction (P := Holds m) (f := fun s c => invalL1 (c / 320) (c % 320) s) (fun _ _ _ h => ⟨h.kills, h.hbm⟩) h

theorem holds_dropTroupes (on : Nat → Bool) (pt : Troupe → Bool) (pl : Launch → Bool) (h : Holds m s) :
    Holds m (dropTroupes on pt pl s) := by
  unfold dropTroupes
  extract_lets pt' gone ls clusters invalidated
  have before : Holds m invalidated := holds_each_invalL1 clusters h
  exact ⟨(congrArg (List.map _) before.kills).trans rfl, before.hbm⟩

theorem holds_dropMovers (pm : Mover → Bool) (h : Holds m s) : Holds m (dropMovers pm s) := ⟨h.kills, h.hbm⟩

theorem closeKills_of_none {f : OpenKill → Bool} (none_ : s.core.kills = []) : closeKills f s = s := by
  rw [closeKills, none_]
  rfl

theorem holds_dieLeavesKills (d : Nat) (h : Holds m s) : Holds m (dieLeavesKills d s) := by
  unfold dieLeavesKills
  extract_lets dropped out
  have none_ : dropped.core.kills = [] := (congrArg (List.filter _) h.kills).trans rfl
  rw [closeKills_of_none ((congrArg (List.map out) none_).trans rfl)]
  exact ⟨(congrArg (List.map out) none_).trans rfl, h.hbm⟩

theorem holds_scrubDie (d : Nat) (h : Holds m s) : Holds m (scrubDie d s) := by
  unfold scrubDie
  extract_lets slices emptied left gone
  have before : Holds m emptied := ⟨h.kills, h.hbm⟩
  have after : Holds m left := holds_dieLeavesKills d (holds_dropMovers _ (holds_dropTroupes _ _ _ before))
  exact ⟨after.kills, after.hbm⟩

theorem holds_dieCleared (d : Nat) (h : Holds m s) : Holds m (dieCleared d s) :=
  ((holds_scrubDie d h).keeps (emptyDie_keeps trivial trivial trivial trivial d (.refl _ _))).keeps
    (portReset_keeps trivial trivial d (bootReset_keeps trivial trivial d (.refl _ _)))

/-! ### The reset of one die -/

/-- The die before its own registers are reset: its ring is marked, its staging drained or lost. -/
def dieStopped (d cause : Nat) (s : State) : State := dieCleared d (markRing d (stagingAtReset d (cause == 4) s))

theorem keeps_staging (d cause : Nat) (s : State) :
    Keeps outerFrame s (markRing d (stagingAtReset d (cause == 4) s)) :=
  markRing_keeps trivial d (stagingAtReset_keeps trivial trivial d _ (.refl _ s))

/-- The die reset, register by register. -/
def dieAtReset (d cause : Nat) (s : State) : State :=
  (((resetDieRegs d (dieStopped d cause s)).wr d Reg.DC_INCARNATION ((s.rd d Reg.DC_INCARNATION + 1) % 65536)).wr
    d Reg.DC_RESET_CAUSE cause).wr d Reg.WARD_LOSS (wardSealed s d)

/-- HBM in self-refresh, and the INCARNATION in the module flash. -/
def selfRefreshing (d inc : Nat) (s : State) : State :=
  { s with
    boot := { s.boot with selfRefresh := addNat s.boot.selfRefresh d },
    rack := { s.rack with flashIncarn := SMap.set 0 s.rack.flashIncarn d inc } }

theorem rd_selfRefreshing (d inc : Nat) (s : State) (e : Nat) (f : Fld) :
    (selfRefreshing d inc s).rd e f = s.rd e f := rfl

theorem dieReset_eq (d cause : Nat) (s : State) :
    dieReset d cause s = selfRefreshing d ((s.rd d Reg.DC_INCARNATION + 1) % 65536) (dieAtReset d cause s) := by
  unfold dieReset
  extract_lets inc loss staged cleared wrote
  have own : wrote = dieAtReset d cause s := rfl
  show selfRefreshing d inc wrote = _
  rw [own]

theorem Holds.refreshing (d inc : Nat) (h : Holds m s) : Holds m (selfRefreshing d inc s) := ⟨h.kills, h.hbm⟩

theorem keeps_dieAtReset (d cause : Nat) (s : State) : Keeps outerFrame (dieStopped d cause s) (dieAtReset d cause s) :=
  State.wr_keeps trivial _ _ _ (State.wr_keeps trivial _ _ _ (State.wr_keeps trivial _ _ _
    (resetDieRegs_keeps trivial d (.refl _ _))))

theorem holds_dieReset (d cause : Nat) (h : Holds m s) : Holds m (dieReset d cause s) := by
  have reset := (holds_dieCleared d (h.keeps (keeps_staging d cause s))).keeps (keeps_dieAtReset d cause s)
  rw [dieReset_eq]
  exact reset.refreshing d _

theorem boot_dieCleared (d : Nat) (s : State) :
    (dieCleared d s).boot.inReset = addNat s.boot.inReset d ∧ (dieCleared d s).boot.selfRefresh = s.boot.selfRefresh := by
  have before : (emptyDie d (scrubDie d s)).boot = s.boot := (keeps_emptyScrub d s).boot id
  have after : (dieCleared d s).boot = (bootReset d (emptyDie d (scrubDie d s))).boot := (keeps_portReset d _).boot id
  rw [after]
  exact ⟨(congrArg (fun b : Boot => addNat b.inReset d) before :), (congrArg Boot.selfRefresh before :)⟩

/-- The frame of an effect on registers and the recorder. -/
def recordFrame : Frame := { noFrame with regs := True, recs := True }

theorem keeps_staging_record (d cause : Nat) (s : State) :
    Keeps recordFrame s (markRing d (stagingAtReset d (cause == 4) s)) :=
  markRing_keeps trivial d (stagingAtReset_keeps trivial trivial d _ (.refl _ s))

theorem keeps_dieAtReset_record (d cause : Nat) (s : State) :
    Keeps recordFrame (dieStopped d cause s) (dieAtReset d cause s) :=
  State.wr_keeps trivial _ _ _ (State.wr_keeps trivial _ _ _ (State.wr_keeps trivial _ _ _
    (resetDieRegs_keeps trivial d (.refl _ _))))

theorem inReset_dieReset (d cause : Nat) (s : State) :
    (dieReset d cause s).boot.inReset = addNat s.boot.inReset d := by
  have staged := (keeps_staging_record d cause s).boot id
  have cleared := (boot_dieCleared d (markRing d (stagingAtReset d (cause == 4) s))).1
  have wrote := (keeps_dieAtReset_record d cause s).boot id
  rw [dieReset_eq]
  exact (congrArg Boot.inReset wrote).trans (cleared.trans (congrArg (fun b : Boot => addNat b.inReset d) staged))

theorem refclk_dieReset (d cause : Nat) (s : State) : (dieReset d cause s).rack.refclk = s.rack.refclk := by
  have staged := (keeps_staging_record d cause s).rack id
  have cleared := rack_dieCleared d (markRing d (stagingAtReset d (cause == 4) s))
  have wrote := (keeps_dieAtReset_record d cause s).rack id
  rw [dieReset_eq]
  exact (congrArg Rack.refclk (wrote.trans (cleared.trans staged)) :)

/-- A register that a die reset neither keeps nor sets is at its reset value. -/
theorem rd_resetDieRegs {d : Nat} {f : Fld} (s : State) (block : f.addr < 0x1000000) (bit : f.lo < 64)
    (other : ∀ g ∈ keptRegs, f.key d ≠ g.key d) : (resetDieRegs d s).rd d f = f.reset := by
  have cleared : (s.resetRegs d 0 0x1000000).rd d f = f.reset := by
    rw [State.rd_resetRegs, if_pos]
    unfold Fld.key
    omega
  refine each_induction (P := fun u => u.rd d f = f.reset) (fun u x hx at_ => ?_) cleared
  obtain ⟨g, hg, rfl⟩ := List.mem_map.mp hx
  exact (State.rd_wr_ne _ _ _ _ _ _ (other g hg)).trans at_

theorem dieWasReset {d cause : Nat} (small : cause < 16) (s : State) : DieWasReset d cause s (dieReset d cause s) := by
  have hbm (quiet : s.core.kills = []) : (dieReset d cause s).slc.hbm = s.slc.hbm := (holds_dieReset d cause ⟨quiet, rfl⟩).hbm
  have inReset := inReset_dieReset d cause s
  rw [dieReset_eq] at hbm inReset ⊢
  refine ⟨?_, contains_addNat_same .., hbm, ?_, ?_, fun f block bit other => ?_⟩
  · rw [inReset]
    exact contains_addNat_same ..
  · rw [rd_selfRefreshing]
    unfold dieAtReset
    generalize resetDieRegs d _ = u
    rw [State.rd_wr_apart rfl, State.rd_wr_apart rfl, State.rd_wr_same]
    exact Nat.mod_mod _ _
  · rw [rd_selfRefreshing]
    unfold dieAtReset
    generalize resetDieRegs d _ = u
    rw [State.rd_wr_apart rfl, State.rd_wr_same]
    exact Nat.mod_eq_of_lt small
  · have kept : ∀ g ∈ keptRegs, f.key d ≠ g.key d := fun g hg => other g (List.mem_append_left _ hg)
    rw [rd_selfRefreshing]
    unfold dieAtReset
    rw [State.rd_wr_ne _ _ _ _ _ _ (kept Reg.WARD_LOSS (by decide)),
      State.rd_wr_ne _ _ _ _ _ _ (other Reg.DC_RESET_CAUSE (by decide)),
      State.rd_wr_ne _ _ _ _ _ _ (other Reg.DC_INCARNATION (by decide))]
    exact rd_resetDieRegs _ block bit kept

theorem completes_pllLossOfLock {d : Nat} (hd : d < dieCount s.orderCode) (up : dieUp s d = true) :
    Completes (.pllLossOfLock d) s (DieWasReset d 4 s) := by
  refine completes_of_onDie (execPllLossOfLock d s) rfl rfl hd ?_
  rw [pllLossOfLock, if_pos up]
  exact dieWasReset (by decide) s

theorem completes_dieReset {d : Nat} (hd : d < dieCount s.orderCode) (up : dieUp s d = true) :
    Completes (.dieReset d) s (DieWasReset d 1 s) := by
  refine completes_of_onDie (execDieReset d s) rfl rfl hd ?_
  rw [dieResetCmd, if_pos up]
  exact dieWasReset (by decide) s

theorem completes_deadNotice_own {d : Nat} (inc : BitVec 16) (hd : d < dieCount s.orderCode) (up : dieUp s d = true)
    (own : s.rd d Reg.DC_INCARNATION = inc.toNat) : Completes (.deadNotice d d inc) s (DieWasReset d 3 s) := by
  refine completes_of_onDie (execDeadNotice d d inc s) rfl rfl hd ?_
  have takes : (dieUp s d && s.rd d Reg.DC_INCARNATION == inc.toNat) = true := by rw [up, own, beq_self_eq_true]; rfl
  have effect : deadNotice d d inc s = dieReset d 3 s := (if_pos rfl).trans (if_pos takes)
  rw [effect]
  exact dieWasReset (by decide) s

/-! ### REFCLK lost (R42) -/

theorem completes_refclkLoss (runs : s.rack.refclk = true) :
    Completes .refclkLoss s (fun t =>
      t.rack.refclk = false ∧ (∀ d, d < dieCount s.orderCode → dieUp s d = true → t.boot.inReset.contains d = true) ∧
      (s.core.kills = [] → t.slc.hbm = s.slc.hbm)) := by
  have faulted : Keeps recordFrame { s with rack := { s.rack with refclk := false } }
      (rackFault 0 { s with rack := { s.rack with refclk := false } }) := rackFault_keeps trivial 0 (.refl _ _)
  generalize own : rackFault 0 { s with rack := { s.rack with refclk := false } } = u at faulted
  have rack : u.rack = { s.rack with refclk := false } := faulted.rack id
  have boot : u.boot = s.boot := faulted.boot id
  have order : u.orderCode = s.orderCode := faulted.orderCode
  have effect : refclkLoss s = each ((allDies u).filter (dieUp u)) (fun s d => dieReset d 4 s) u := by
    subst own
    exact if_pos runs
  refine completes_of_next (execRefclkLoss s) rfl (congrArg Host.Outcome.next effect) ⟨?_, fun d hd up => ?_, fun quiet => ?_⟩
  · exact each_induction (P := fun t => t.rack.refclk = false) (fun t d _ off => (refclk_dieReset d 4 t).trans off)
      (congrArg Rack.refclk rack)
  · have up' : dieUp u d = true := by rw [dieUp, rack, boot]; exact up
    have member : d ∈ (allDies u).filter (dieUp u) :=
      List.mem_filter.mpr ⟨mem_allDies.mpr (order ▸ hd), up'⟩
    refine each_reaches (P := fun _ => True) (Q := fun t => t.boot.inReset.contains d = true) member (fun _ _ _ _ => trivial)
      (fun t _ => ?_) (fun t e _ at_ => ?_) trivial
    · rw [inReset_dieReset]
      exact contains_addNat_same ..
    · rw [inReset_dieReset, contains_addNat, at_]
      rfl
  · have before : Holds s.slc.hbm u :=
      ⟨(congrArg Cores.kills (faulted.core id)).trans quiet, congrArg Slices.hbm (faulted.slc id)⟩
    exact (each_induction (P := Holds s.slc.hbm) (fun _ d _ h => holds_dieReset d 4 h) before).hbm

/-! ### Power lost by module or rack reset -/

/-- HBM of a die that loses power is lost, every other die's stays. -/
theorem holds_dieUnpower (d : Nat) (h : Holds m s) :
    Holds (m.filter (fun c => !(Nat.beq (keyDie c.1) d))) (dieUnpower d s) := by
  have cleared := holds_dieCleared d (h.keeps (loseStaging_keeps trivial d (.refl _ s)))
  exact ⟨cleared.kills, congrArg (List.filter _) cleared.hbm⟩

/-- No kill is under way, and HBM holds nothing of die `d`. -/
def HbmLost (d : Nat) (s : State) : Prop := ∃ m, Holds m s ∧ ∀ c ∈ m, keyDie c.1 ≠ d

theorem hbmLost_each_dieUnpower {d : Nat} {l : List Nat} (member : d ∈ l) (quiet : s.core.kills = []) :
    HbmLost d (each l (fun s d => dieUnpower d s) s) := by
  refine each_reaches (P := fun t => ∃ m, Holds m t) member (fun t e _ ⟨m, h⟩ => ⟨_, holds_dieUnpower e h⟩)
    (fun t ⟨m, h⟩ => ⟨_, holds_dieUnpower d h, fun c hc same => ?_⟩)
    (fun t e _ ⟨m, h, gone⟩ => ⟨_, holds_dieUnpower e h, fun c hc => gone c (List.mem_filter.mp hc).1⟩) ⟨_, quiet, rfl⟩
  have other := (List.mem_filter.mp hc).2
  rw [natBeq_decide, decide_eq_true same] at other
  cases other

theorem rings_copied (l : List Nat) (s : State) : Keeps recordFrame s (each l (fun s d => rmCopyRing d s) s) :=
  each_induction (P := Keeps recordFrame s) (fun _ d _ h => rmCopyRing_keeps trivial d h) (.refl _ s)

theorem completes_moduleReset {n : Nat} (hd : 4 * n < dieCount s.orderCode) (on : s.rack.modEn.contains n = true) :
    Completes (.moduleReset n) s (fun t =>
      t.rack.modReset.contains n = true ∧
      (∀ d, moduleOf d = n → t.rack.powered.contains d = false ∧
        (s.core.kills = [] → s.rack.powered.contains d = true → ∀ c ∈ t.slc.hbm, keyDie c.1 ≠ d)) ∧
      (∀ d, moduleOf d ≠ n → t.rack.powered.contains d = s.rack.powered.contains d)) := by
  have copied := rings_copied ((moduleDies n).filter (dieUp s)) s
  generalize own : each ((moduleDies n).filter (dieUp s)) (fun s d => rmCopyRing d s) s = u at copied
  have rack : u.rack = s.rack := copied.rack id
  have effect : moduleReset n s = modulePowerOff n u := by
    subst own
    exact if_pos on
  refine completes_of_onDie (execModuleReset n s) rfl rfl hd ?_
  rw [effect, rack_modulePowerOff, rack]
  refine ⟨contains_addNat_same .., fun d mine => ⟨?_, fun quiet powered => ?_⟩, fun d other => ?_⟩
  · exact (contains_filter ..).trans (by rw [natBeq_decide, decide_eq_true mine]; exact Bool.and_false _)
  · have member : d ∈ (moduleDies n).filter (fun d => u.rack.powered.contains d) := by
      refine List.mem_filter.mpr ⟨?_, by rw [rack]; exact powered⟩
      rw [← List.contains_iff_mem, contains_moduleDies, natBeq_decide]
      exact decide_eq_true mine
    obtain ⟨m, held, gone⟩ := hbmLost_each_dieUnpower member ((congrArg Cores.kills (copied.core id)).trans quiet)
    intro c hc
    exact gone c (held.hbm ▸ hc)
  · exact (contains_filter ..).trans (by rw [natBeq_decide, decide_eq_false other]; exact Bool.and_true _)

theorem completes_rackReset (up : s.rack.rmUp = true) :
    Completes .rackReset s (fun t =>
      t.rack.rmUp = false ∧ t.boot.censusOpen = true ∧ t.boot.roll = [] ∧ t.boot.census = [] ∧
      t.img = State.reset.img ∧ t.rack.flashIncarn = [] ∧
      ∀ d, d < dieCount s.orderCode → t.rack.powered.contains d = false) := by
  have copied := rings_copied ((allDies s).filter (dieUp s)) s
  refine completes_of_next (execRackReset s) rfl (congrArg Host.Outcome.next (if_pos up)) ?_
  refine ⟨rfl, rfl, rfl, rfl, rfl, rfl, fun d hd => ?_⟩
  unfold rackReset
  extract_lets u w r
  have order : u.orderCode = s.orderCode := copied.orderCode
  have lost : w.rack.powered = _ := congrArg Rack.powered
    (rack_each_dieUnpower ((allDies u).filter (fun d => u.rack.powered.contains d)) u)
  show w.rack.powered.contains d = false
  rw [lost, contains_filter, contains_filter, List.contains_iff_mem.mpr (mem_allDies.mpr (order ▸ hd)), Bool.true_and]
  exact Bool.and_not_self _

/-- Settles O24: a die reset keeps HBM and the kept registers (`dieWasReset`), a loss of power takes HBM and power
(`holds_dieUnpower`, `rack_modulePowerOff`). What a die reset keeps, what power loss takes and what a rack reset clears are
assumption logs 62, 77, 78 and 83. -/
theorem dieAndWideResets : Obligations.DieAndWideResets :=
  ⟨fun _ _ hd up => ⟨completes_pllLossOfLock hd up, completes_dieReset hd up, fun inc => completes_deadNotice_own inc hd up⟩,
    fun _ => completes_refclkLoss, fun _ _ => completes_moduleReset, fun _ => completes_rackReset⟩

end Sys2Proof.Machine
end


section
/-! PROOFS. Requests and puts at a directory that nothing waits at (Table COH-6): the entry they leave, the messages they
send, and that nothing that was held moves on. -/

namespace Sys2Proof.Machine

/-! ### Home channels -/

theorem lt_of_mem_activeChans {s : State} {d n : Nat} (h : n ∈ activeChans s d) : n < 24 :=
  List.mem_range.mp (List.mem_filter.mp h).1

theorem lt_of_mem_placeList {s : State} {pa n : Nat} (h : n ∈ placeList s pa) : n < 24 := by
  unfold placeList at h
  dsimp only at h
  split at h
  · exact lt_of_mem_activeChans h
  · exact lt_of_mem_activeChans (List.mem_filter.mp h).1

theorem lt_of_homeChan {s : State} {pa n : Nat} (h : homeChan s pa = some n) : n < 24 := by
  unfold homeChan at h
  split at h <;> exact lt_of_mem_placeList (List.mem_of_getElem? h)

/-! ### A slice that nothing waits at -/

/-- Nothing waits in the caches, and every line of slice `n` of die `d` has its way. -/
structure Settled (d n : Nat) (s : State) : Prop where
  mshrs : s.slc.mshrs = []
  holdq : s.slc.holdq = []
  placed : LinesPlaced s d n

variable {d n : Nat} {s t : State}

theorem findMshr_of_none (none_ : s.slc.mshrs = []) (d n la : Nat) : findMshr s d n la = none := by
  rw [findMshr, none_]
  rfl

theorem pump_of_none (none_ : s.slc.mshrs = []) (d n la : Nat) : pump d n la s = s := by
  have free := findMshr_of_none none_ d n la
  have serves : servePass d n la s = s := by simp only [servePass, free]
  have demands : demandPass d n la s = s := by simp only [demandPass, free]
  simp only [pump, serves, demands, settleMshr, free]

theorem retryPlaces_of_placed (placed : LinesPlaced s d n) : retryPlaces d n s = s := by
  have none_ : s.slc.lines.filter (fun l => Nat.beq l.die d && Nat.beq l.slice n && Nat.ble 16 l.way) = [] :=
    List.filter_eq_nil_iff.mpr fun l hl waits => by
      simp only [Bool.and_eq_true, Nat.beq_eq, Nat.ble_eq] at waits
      exact absurd (placed l hl waits.1.1 waits.1.2) (Nat.not_lt.mpr waits.2)
  rw [retryPlaces, none_]
  rfl

/-- The hold queue that an empty one is after a replay of it. -/
theorem afterSlice_of_settled (h : Settled d n s) :
    afterSlice d n s = { s with slc := { s.slc with holdq := [] } } := by
  have held : heldAt s d n = [] := by rw [heldAt, h.holdq]; rfl
  have idle : mshrsOf s d n = [] := by unfold mshrsOf; rw [h.mshrs]; rfl
  unfold afterSlice
  rw [retryPlaces_of_placed h.placed]
  dsimp only
  rw [idle]
  show replay d n ((heldAt s d n).length + 1) s = _
  rw [held]
  simp only [replay, held, h.holdq]
  rfl

/-! ### What the home does for a pinned line -/

/-- The directory, the messages in flight and HBM stay; a slice that nothing waits at stays so. -/
structure LineWork (d n : Nat) (s t : State) : Prop where
  dir : t.slc.dir = s.slc.dir
  net : t.slc.net = s.slc.net
  settled : Settled d n s → Settled d n t

theorem LineWork.refl (d n : Nat) (s : State) : LineWork d n s s := ⟨rfl, rfl, id⟩

theorem LineWork.trans {s t u : State} (h : LineWork d n s t) (k : LineWork d n t u) : LineWork d n s u :=
  ⟨k.dir.trans h.dir, k.net.trans h.net, fun at_ => k.settled (h.settled at_)⟩

/-- A line put in its place with the way that a line had. -/
theorem lineWork_putLine {l x : Line} (found : x ∈ s.slc.lines) (same : l.die = x.die ∧ l.slice = x.slice ∧ l.way = x.way) :
    LineWork d n s (putLine l s) := by
  obtain ⟨die, slice, way⟩ := same
  refine ⟨rfl, rfl, fun at_ => ⟨at_.mshrs, at_.holdq, fun y hy hd hn => ?_⟩⟩
  obtain rfl | old := mem_putWhere_of_mem hy
  · exact way ▸ at_.placed x found (die ▸ hd) (slice ▸ hn)
  · exact at_.placed y old hd hn

theorem lineWork_of_slc (same : t.slc = s.slc) : LineWork d n s t :=
  ⟨congrArg Slices.dir same, congrArg Slices.net same, fun at_ =>
    ⟨(congrArg Slices.mshrs same).trans at_.mshrs, (congrArg Slices.holdq same).trans at_.holdq,
      fun l hl => at_.placed l (congrArg Slices.lines same ▸ hl)⟩⟩

theorem lineWork_fetchFrom (a b la : Nat) (mask : BitVec 4) (k : Nat) (s : State) :
    LineWork d n s (fetchFrom a b la mask k s) ∧ (fetchFrom a b la mask k s).slc.hbm = s.slc.hbm := by
  induction k generalizing s with
  | zero => exact ⟨.refl d n s, rfl⟩
  | succ k ih =>
    rw [fetchFrom]
    split
    next l found =>
      have member : l ∈ s.slc.lines := List.mem_of_find?_eq_some found
      dsimp only
      split
      · generalize (if sliceFailed s a b = true then _ else _ : SectorData × Bool) = got
        have put : LineWork d n s (putLine (setSector l (3 - k) (filled got.1 got.2 (sectorAt l (3 - k)))) s) :=
          lineWork_putLine member ⟨rfl, rfl, rfl⟩
        have hbm : (putLine (setSector l (3 - k) (filled got.1 got.2 (sectorAt l (3 - k)))) s).slc.hbm = s.slc.hbm := rfl
        generalize putLine (setSector l (3 - k) (filled got.1 got.2 (sectorAt l (3 - k)))) s = u at put hbm ⊢
        split
        · exact ⟨put.trans (ih u).1, (ih u).2.trans hbm⟩
        · have counted : LineWork d n u (u.count a (Reg.UC_MISS b) 1) := lineWork_of_slc rfl
          obtain ⟨work, same⟩ := ih (u.count a (Reg.UC_MISS b) 1)
          exact ⟨(put.trans counted).trans work, same.trans hbm⟩
      · exact ih s
    next => exact ⟨.refl d n s, rfl⟩

theorem lineWork_repin (a b la : Nat) (s : State) :
    LineWork d n s (repin a b la s) ∧ (repin a b la s).slc.hbm = s.slc.hbm := by
  unfold repin
  split
  · split
    · exact lineWork_fetchFrom a b la 15 4 s
    · exact ⟨.refl d n s, rfl⟩
  · exact ⟨.refl d n s, rfl⟩

theorem repin_of_unreadable {a b la : Nat} (owned : homeReadable s a b la = false) : repin a b la s = s := by
  unfold repin
  split
  · exact if_neg (by simp [owned])
  · rfl

theorem lineWork_homeWrite (a b la : Nat) (dirty poison : BitVec 4) (i : Nat) (l : List SectorData) (s : State) :
    LineWork d n s (homeWrite a b la dirty poison i l s) := by
  induction l generalizing i s with
  | nil => exact .refl d n s
  | cons v l ih =>
    refine LineWork.trans ?_ (ih _ _)
    split
    · split
      next x found => exact lineWork_putLine (List.mem_of_find?_eq_some found) ⟨rfl, rfl, rfl⟩
      next => exact ⟨rfl, rfl, fun at_ => ⟨at_.mshrs, at_.holdq, at_.placed⟩⟩
    · exact .refl d n s

/-! ### A request that its entry answers at once -/

/-- What a message that the directory took leaves of the state `u` of its cell: the directory, the messages in flight and
HBM are those of `u`; so are the registers where the home may not read the line. -/
structure TakenAs (m : CohMsg) (n : Nat) (u t : State) : Prop where
  dir : t.slc.dir = u.slc.dir
  net : t.slc.net = u.slc.net
  hbm : t.slc.hbm = u.slc.hbm
  regs : homeReadable u m.dst n m.line = false → t.regs = u.regs

theorem findDir_of_dir (same : t.slc.dir = s.slc.dir) (d n la : Nat) : findDir t d n la = findDir s d n la := by
  rw [findDir, same, findDir]

theorem afterHome_taken {m : CohMsg} {u : State} (settled : Settled m.dst n u) :
    TakenAs m n u (afterHome m.dst n m.line (repin m.dst n m.line (pump m.dst n m.line u))) := by
  rw [pump_of_none settled.mshrs]
  obtain ⟨once, hbm₁⟩ := lineWork_repin (d := m.dst) (n := n) m.dst n m.line u
  have settled₁ := once.settled settled
  obtain ⟨twice, hbm₂⟩ := lineWork_repin (d := m.dst) (n := n) m.dst n m.line (repin m.dst n m.line u)
  rw [afterHome, pump_of_none settled₁.mshrs, afterSlice_of_settled (twice.settled settled₁)]
  refine ⟨twice.dir.trans once.dir, twice.net.trans once.net, hbm₂.trans hbm₁, fun owned => ?_⟩
  show (repin m.dst n m.line (repin m.dst n m.line u)).regs = u.regs
  rw [repin_of_unreadable owned, repin_of_unreadable owned]

/-- A request in flight from another die of its partition, that the entry's cell answers at once. -/
theorem completes_of_cell {c : Instr} {t : CohT} {m : CohMsg} {e : DirEnt} {u v : State} {effect : State → Prop}
    (meaning : exec c s = onDie s m.dst (arrive t m)) (req : t.isReq = true) (meets : MeetsEntry s t m n e)
    (cell : dirCell t m.dst n m (consume ⟨t, m⟩ s) = (.ok u, v)) (settled : Settled m.dst n u)
    (h : ∀ w, TakenAs m n u w → effect w) : Completes c s effect := by
  obtain ⟨⟨hd, typ, order, alive, mshrs, -, -⟩, home, -, chan, part, member, back, far, -⟩ := meets
  have serves : homeServes (consume ⟨t, m⟩ s) m = true := by
    show (homePart s (m.line * 128) == some m.part && dieIn s m.part m.src) = true
    rw [part, member, beq_self_eq_true]
    rfl
  have alone : fetchAhead (consume ⟨t, m⟩ s) m.dst n ⟨t, m⟩ = false := by
    rw [fetchAhead, findMshr_of_none (s := consume ⟨t, m⟩ s) mshrs]
    exact Bool.and_false _
  have takes : homeTake m.dst n ⟨t, m⟩ (consume ⟨t, m⟩ s) = repin m.dst n m.line (pump m.dst n m.line u) := by
    rw [homeTake, if_neg (ne_true_of_eq_false alone), cell]
  have reaches : atHome ⟨t, m⟩ s = afterHome m.dst n m.line (repin m.dst n m.line (pump m.dst n m.line u)) := by
    have chan' : homeChan (consume ⟨t, m⟩ s) (m.line * 128) = some n := chan
    have back' : backed (consume ⟨t, m⟩ s) (m.line * 128) = true := back
    have other : Nat.beq m.src m.dst = false := by rw [natBeq_decide, decide_eq_false far]
    unfold atHome
    dsimp only
    rw [if_neg (by rw [serves, req]; decide), chan']
    dsimp only
    rw [if_neg (by rw [serves, back', other]; decide), takes]
  have effect' : arrive t m s = afterHome m.dst n m.line (repin m.dst n m.line (pump m.dst n m.line u)) := by
    unfold arrive
    dsimp only
    rw [if_neg (not_not.mpr typ), order, if_neg (by decide), alive, if_neg (by decide), if_pos home, reaches]
  exact completes_of_onDie (onDie s m.dst (arrive t m)) meaning rfl hd (effect'.symm ▸ h _ (afterHome_taken settled))

/-! ### Messages sent -/

/-- Messages `l` are in flight beside those of `s`; nothing else of the caches has changed. -/
def Sent (s t : State) (l : List NetMsg) : Prop := t.slc = { s.slc with net := s.slc.net ++ l }

theorem slc_routeFill (part src dst : Nat) (s : State) : (routeFill part src dst s).slc = s.slc :=
  (routeFill_keeps (F := { noFrame with regs := True, xlt := True }) trivial trivial part src dst (.refl _ s)).slc id

theorem sent_sendMsg (t : CohT) (m : CohMsg) (s : State) :
    Sent s (sendMsg t m s) [⟨t, { m with incarn := BitVec.ofNat 16 (s.rd m.src Reg.DC_INCARNATION) }⟩] := by
  unfold Sent sendMsg
  dsimp only
  rw [slc_routeFill]

theorem Sent.trans {u : State} {k l : List NetMsg} (h : Sent s t k) (j : Sent t u l) : Sent s u (k ++ l) := by
  unfold Sent at *
  rw [j, h, List.append_assoc]

theorem Sent.of_slc {u : State} {l : List NetMsg} (h : Sent s t l) (same : u.slc = t.slc) : Sent s u l := same.trans h

theorem sent_sendInvs (hd hn la req part cls : Nat) (l : List Nat) (s : State) :
    ∃ sent, Sent s (sendInvs hd hn la req part cls l s) sent ∧
      ∀ c ∈ l, ∃ r ∈ sent, r.typ = .inv ∧ r.msg.dst = c ∧ r.msg.req = req := by
  induction l generalizing s with
  | nil => exact ⟨[], by simp [Sent, sendInvs, each], fun _ h => nomatch h⟩
  | cons c l ih =>
    have first := sent_sendMsg .inv (homeMsg s hd hn la c req part cls) s
    obtain ⟨sent, rest, each_⟩ := ih (sendMsg .inv (homeMsg s hd hn la c req part cls) s)
    refine ⟨_, first.trans rest, fun x hx => ?_⟩
    obtain rfl | hx := List.mem_cons.mp hx
    · exact ⟨_, List.mem_append_left _ (List.mem_singleton_self _), rfl, rfl, rfl⟩
    · obtain ⟨r, hr, is⟩ := each_ x hx
      exact ⟨r, List.mem_append_right _ hr, is⟩

/-! ### Entries put, touched and freed -/

/-- Whether an entry is the one of line `la` at slice `n` of die `d`. -/
def isEntry (d n la : Nat) (e : DirEnt) : Bool := Nat.beq e.die d && Nat.beq e.slice n && Nat.beq e.la la

theorem sameEnt_eq {e : DirEnt} {la : Nat} (own : isEntry d n la e = true) (x : DirEnt) :
    sameEnt e x = isEntry d n la x := by
  simp only [isEntry, Bool.and_eq_true, Nat.beq_eq] at own
  obtain ⟨⟨rfl, rfl⟩, rfl⟩ := own
  rw [Bool.eq_iff_iff]
  simp only [sameEnt, isEntry, Bool.and_eq_true, Nat.beq_eq]
  exact ⟨fun ⟨⟨a, b⟩, c⟩ => ⟨⟨a.symm, b.symm⟩, c.symm⟩, fun ⟨⟨a, b⟩, c⟩ => ⟨⟨a.symm, b.symm⟩, c.symm⟩⟩

theorem findDir_putDir {e : DirEnt} {la : Nat} (own : isEntry d n la e = true) (s : State) :
    findDir (putDir e s) d n la = some e := by
  have test : sameEnt e = isEntry d n la := funext (sameEnt_eq own)
  show List.find? (isEntry d n la) (putWhere (sameEnt e) e s.slc.dir) = some e
  rw [test]
  exact find?_putWhere_same s.slc.dir own

theorem findDir_touchDir {e x : DirEnt} {la : Nat} (own : isEntry d n la e = true) (found : findDir s d n la = some x) :
    findDir (touchDir e s) d n la = some { x with rank := 0 } := by
  have at_ : isEntry d n la x = true := List.find?_some (p := isEntry d n la) found
  show List.find? (isEntry d n la) (s.slc.dir.map _) = _
  rw [List.find?_map]
  have same : (isEntry d n la ∘ fun x => if sameEnt e x then { x with rank := 0 }
      else if sameDirSet e x && Nat.blt x.rank e.rank then { x with rank := x.rank + 1 } else x) = isEntry d n la := by
    funext y
    dsimp only [Function.comp]
    split
    · rfl
    · split <;> rfl
  rw [same]
  show Option.map _ (findDir s d n la) = _
  rw [found, Option.map_some, if_pos ((sameEnt_eq own x).trans at_)]

theorem findDir_freeDir {e : DirEnt} {la : Nat} (own : isEntry d n la e = true) (s : State) :
    findDir (freeDir e s) d n la = none := by
  show List.find? (isEntry d n la) (List.map _ (s.slc.dir.filter _)) = none
  refine List.find?_eq_none.mpr fun x hx is => ?_
  obtain ⟨y, hy, rfl⟩ := List.mem_map.mp hx
  have other := (List.mem_filter.mp hy).2
  rw [sameEnt_eq own, Bool.not_eq_true'] at other
  have key : isEntry d n la (if sameDirSet e y && Nat.blt e.rank y.rank then { y with rank := y.rank - 1 } else y) =
      isEntry d n la y := by split <;> rfl
  rw [key, other] at is
  cases is

theorem regsBut_routeFill (part src dst : Nat) (s : State) :
    RegsBut [(src, Reg.XLT_LEASE_DROP)] s (routeFill part src dst s) := by
  unfold routeFill
  split
  · exact .refl _ s
  · extract_lets mine old rest fresh
    dsimp only
    refine RegsBut.ite (fun _ => ?_) (fun _ => ?_)
    · refine RegsBut.count ?_ src Reg.XLT_LEASE_DROP 1 (List.mem_singleton_self _)
      exact (RegsBut.refl _ s).of_regs rfl
    · exact (RegsBut.refl _ s).of_regs rfl

/-- A counter of a directory is not the lease counter of a die. -/
theorem rd_sendMsg_fwd {n : Nat} (small : n < 24) (t : CohT) (m : CohMsg) (s : State) (d : Nat) :
    (sendMsg t m s).rd d (Reg.COH_FWD n) = s.rd d (Reg.COH_FWD n) := by
  refine (regsBut_routeFill m.part m.src m.dst s) d (Reg.COH_FWD n) fun x hx => ?_
  obtain rfl := List.mem_singleton.mp hx
  simp only [Fld.key, Reg.COH_FWD, Reg.XLT_LEASE_DROP]
  omega

/-! ### The cells of Table COH-6 -/

/-- The entry that a request meets, and the slice it meets it at. -/
structure AtEntry (m : CohMsg) (n : Nat) (e : DirEnt) (s : State) : Prop where
  own : isEntry m.dst n m.line e = true
  found : findDir s m.dst n m.line = some e
  settled : Settled m.dst n s

theorem atEntry_of_meets {c : CohT} {m : CohMsg} {e : DirEnt} (meets : MeetsEntry s c m n e) :
    AtEntry m n e (consume ⟨c, m⟩ s) := by
  obtain ⟨⟨-, -, -, -, mshrs, holdq, -⟩, -, placed, -, -, -, -, -, found⟩ := meets
  exact ⟨List.find?_some (p := isEntry m.dst n m.line) found, found, mshrs, holdq, placed⟩

theorem AtEntry.fields {m : CohMsg} {e : DirEnt} (h : AtEntry m n e s) : e.die = m.dst ∧ e.slice = n ∧ e.la = m.line := by
  have own := h.own
  simpa [isEntry, Nat.beq_eq, and_assoc] using own

/-- Sending, and a change of the directory, leave a slice as quiet as it was. -/
theorem Settled.of_sent {l : List NetMsg} (h : Settled d n s) (sent : Sent s t l) : Settled d n t := by
  unfold Sent at sent
  exact ⟨(congrArg Slices.mshrs sent).trans h.mshrs, (congrArg Slices.holdq sent).trans h.holdq,
    fun l hl => h.placed l (by rw [sent] at hl; exact hl)⟩

/-- The entry in its place, and what was sent before. -/
theorem putDir_shows {m : CohMsg} {e : DirEnt} {l : List NetMsg} (own : isEntry m.dst n m.line e = true)
    (settled : Settled m.dst n s) (sent : Sent s t l) :
    findDir (putDir e t) m.dst n m.line = some e ∧ (putDir e t).slc.net = s.slc.net ++ l ∧
      (putDir e t).slc.hbm = s.slc.hbm ∧ Settled m.dst n (putDir e t) := by
  have quiet := settled.of_sent sent
  have slc : t.slc = { s.slc with net := s.slc.net ++ l } := sent
  refine ⟨findDir_putDir own t, ?_, ?_, quiet.mshrs, quiet.holdq, quiet.placed⟩
  · show t.slc.net = _
    rw [slc]
  · show t.slc.hbm = _
    rw [slc]

/-- A GetS or a GetM that its entry takes and forwards: the entry, most recently used, and what was sent. -/
theorem touched_shows {m : CohMsg} {e e' : DirEnt} {l : List NetMsg} (own : isEntry m.dst n m.line e = true)
    (own' : isEntry m.dst n m.line e' = true) (settled : Settled m.dst n s) (sent : Sent s t l) :
    findDir (touchDir e (putDir e' t)) m.dst n m.line = some { e' with rank := 0 } ∧
      (touchDir e (putDir e' t)).slc.net = s.slc.net ++ l ∧ (touchDir e (putDir e' t)).slc.hbm = s.slc.hbm ∧
      Settled m.dst n (touchDir e (putDir e' t)) := by
  obtain ⟨found, net, hbm, quiet⟩ := putDir_shows own' settled sent
  exact ⟨findDir_touchDir own found, net, hbm, quiet.mshrs, quiet.holdq, quiet.placed⟩

theorem homeReadable_of_owned {e : DirEnt} {la : Nat} (found : findDir s d n la = some e) (owned : e.st ≠ .s) :
    homeReadable s d n la = false := by
  rw [homeReadable, found]
  exact beq_eq_false_iff_ne.mpr owned

/-- The FwdGetS of a GetS to the owner. -/
def fwdS (e : DirEnt) (m : CohMsg) (s : State) : CohMsg :=
  { homeMsg s e.die e.slice m.line e.owner m.src m.part m.cls with mask := m.mask }

theorem forwardS_eq (e : DirEnt) (m : CohMsg) (s : State) :
    forwardS e m s = (sendMsg .fwdGetS (fwdS e m s) s).count e.die (Reg.COH_FWD e.slice) 1 := rfl

theorem rd_forwardS {m : CohMsg} {e : DirEnt} (die : e.die = m.dst) (slice : e.slice = n) (small : n < 24) (s : State) :
    (forwardS e m s).rd m.dst (Reg.COH_FWD n) = min (s.rd m.dst (Reg.COH_FWD n) + 1) (2 ^ 48 - 1) := by
  rw [forwardS_eq, die, slice, State.rd_count_same, rd_sendMsg_fwd small]
  rfl

theorem completes_gets_owned {m : CohMsg} {e : DirEnt} (meets : MeetsEntry s .getS m n e) (owned : e.st = .m)
    (rich : plainMode s m.part = false) :
    Completes (.gets m) s (fun t =>
      (∃ e', findDir t m.dst n m.line = some e' ∧ e'.st = .o ∧ e'.owner = e.owner ∧ e'.sharers = [m.src]) ∧
      (∃ r ∈ t.slc.net, r.typ = .fwdGetS ∧ r.msg.dst = e.owner ∧ r.msg.req = m.src ∧ r.msg.mask = m.mask) ∧
      t.rd m.dst (Reg.COH_FWD n) = min (s.rd m.dst (Reg.COH_FWD n) + 1) (2 ^ 48 - 1) ∧ t.slc.hbm = s.slc.hbm) := by
  have at_ := atEntry_of_meets meets
  have small : n < 24 := lt_of_homeChan meets.2.2.2.1
  have before : (consume ⟨.getS, m⟩ s).rd m.dst (Reg.COH_FWD n) = s.rd m.dst (Reg.COH_FWD n) := rfl
  have hbm : (consume ⟨.getS, m⟩ s).slc.hbm = s.slc.hbm := rfl
  have rich' : plainMode (consume ⟨.getS, m⟩ s) m.part = false := rich
  obtain ⟨die, slice, -⟩ := at_.fields
  have sent : Sent (consume ⟨.getS, m⟩ s) (forwardS e m (consume ⟨.getS, m⟩ s)) _ :=
    (sent_sendMsg .fwdGetS (fwdS e m (consume ⟨.getS, m⟩ s)) _).of_slc rfl
  obtain ⟨found, net, same, settled⟩ := touched_shows (e' := { e with st := .o, sharers := [m.src] }) at_.own at_.own
    at_.settled sent
  have count := rd_forwardS die slice small (consume ⟨.getS, m⟩ s)
  have cell : dirCell .getS m.dst n m (consume ⟨.getS, m⟩ s) =
      (.ok (touchDir e (putDir { e with st := .o, sharers := [m.src] } (forwardS e m (consume ⟨.getS, m⟩ s)))),
        consume ⟨.getS, m⟩ s) := by
    simp only [dirCell, at_.found, owned, dirM, rich', CohT.isReq, Bool.not_true, Bool.false_eq_true, if_false]
  refine completes_of_cell rfl rfl meets cell settled fun t taken => ?_
  refine ⟨⟨_, (findDir_of_dir taken.dir _ _ _).trans found, rfl, rfl, rfl⟩, ?_, ?_,
    (taken.hbm.trans same).trans hbm⟩
  · rw [taken.net, net]
    exact ⟨_, List.mem_append_right _ (List.mem_singleton_self _), rfl, rfl, rfl, rfl⟩
  · exact (State.rd_of_regs (taken.regs (homeReadable_of_owned found DSt.noConfusion)) _ _).trans (count.trans (by rw [before]))

/-- The FwdGetM of a GetM to the owner, which carries how many InvAcks the requester waits for. -/
def fwdM (e : DirEnt) (m : CohMsg) (s : State) : CohMsg :=
  { homeMsg s e.die e.slice m.line e.owner m.src m.part m.cls with acks := (delNat e.sharers m.src).length }

theorem completes_getm_owned {m : CohMsg} {e : DirEnt} (meets : MeetsEntry s .getM m n e) (owned : e.st = .m)
    (other : m.src ≠ e.owner) :
    Completes (.getm m) s (fun t =>
      (∃ e', findDir t m.dst n m.line = some e' ∧ e'.st = .m ∧ e'.owner = m.src ∧ e'.sharers = []) ∧
      (∃ r ∈ t.slc.net, r.typ = .fwdGetM ∧ r.msg.dst = e.owner ∧ r.msg.req = m.src ∧
        r.msg.acks = (delNat e.sharers m.src).length) ∧ t.slc.hbm = s.slc.hbm) := by
  have at_ := atEntry_of_meets meets
  have hbm : (consume ⟨.getM, m⟩ s).slc.hbm = s.slc.hbm := rfl
  have cell : dirCell .getM m.dst n m (consume ⟨.getM, m⟩ s) =
      (.ok (forwardM e m (consume ⟨.getM, m⟩ s)), consume ⟨.getM, m⟩ s) := by
    simp only [dirCell, at_.found, owned, dirM, other, CohT.isReq, Bool.not_true, Bool.false_eq_true, if_false]
  have sent : Sent (consume ⟨.getM, m⟩ s) ((sendMsg .fwdGetM (fwdM e m (consume ⟨.getM, m⟩ s)) (consume ⟨.getM, m⟩ s)).count
      e.die (Reg.COH_FWD e.slice) 1) _ := (sent_sendMsg .fwdGetM (fwdM e m (consume ⟨.getM, m⟩ s)) _).of_slc rfl
  obtain ⟨invs, later, -⟩ := sent_sendInvs e.die e.slice m.line m.src m.part m.cls (delNat e.sharers m.src)
    ((sendMsg .fwdGetM (fwdM e m (consume ⟨.getM, m⟩ s)) (consume ⟨.getM, m⟩ s)).count e.die (Reg.COH_FWD e.slice) 1)
  obtain ⟨found, net, same, settled⟩ := touched_shows (e' := { e with st := .m, owner := m.src, sharers := [] }) at_.own
    at_.own at_.settled (sent.trans later)
  refine completes_of_cell rfl rfl meets cell settled fun t taken => ?_
  refine ⟨⟨_, (findDir_of_dir taken.dir _ _ _).trans found, rfl, rfl, rfl⟩, ?_, (taken.hbm.trans same).trans hbm⟩
  rw [taken.net, show (forwardM e m (consume ⟨.getM, m⟩ s)).slc.net = _ from net]
  exact ⟨_, List.mem_append_right _ (List.mem_append_left _ (List.mem_singleton_self _)), rfl, rfl, rfl, rfl⟩

/-- The DataExcl that lets the owner of an entry in O write: no sector, and how many InvAcks it waits for. -/
theorem sent_homeExcl_empty (l : Line) (acks : Nat) (m : CohMsg) (s : State) :
    ∃ r : NetMsg, Sent s (homeExcl l 0 acks m s) [r] ∧ r.typ = .dataExcl ∧ r.msg.dst = m.src ∧ r.msg.mask = 0 ∧
      r.msg.acks = acks := by
  have clean : poisonMask (cleaned l) &&& 0 = 0 := BitVec.and_zero
  refine ⟨_, sent_sendMsg _ _ s, ?_, rfl, rfl, rfl⟩
  exact if_pos clean

theorem completes_upg_owner {m : CohMsg} {e : DirEnt} (meets : MeetsEntry s .upg m n e) (owned : e.st = .o)
    (owner : m.src = e.owner) :
    Completes (.upg m) s (fun t =>
      (∃ e', findDir t m.dst n m.line = some e' ∧ e'.st = .m ∧ e'.owner = m.src ∧ e'.sharers = []) ∧
      (∃ r ∈ t.slc.net, r.typ = .dataExcl ∧ r.msg.dst = m.src ∧ r.msg.mask = 0 ∧ r.msg.acks = e.sharers.length) ∧
      (∀ c ∈ e.sharers, ∃ r ∈ t.slc.net, r.typ = .inv ∧ r.msg.dst = c ∧ r.msg.req = m.src) ∧
      t.slc.hbm = s.slc.hbm) := by
  have at_ := atEntry_of_meets meets
  have hbm : (consume ⟨.upg, m⟩ s).slc.hbm = s.slc.hbm := rfl
  obtain ⟨r, sent, is⟩ := sent_homeExcl_empty (wayless e.die e.slice m.line .home) e.sharers.length m (consume ⟨.upg, m⟩ s)
  obtain ⟨invs, later, each_⟩ := sent_sendInvs e.die e.slice m.line m.src m.part m.cls e.sharers
    (homeExcl (wayless e.die e.slice m.line .home) 0 e.sharers.length m (consume ⟨.upg, m⟩ s))
  obtain ⟨found, net, same, settled⟩ := touched_shows (e' := { e with st := .m, sharers := [] }) at_.own at_.own
    at_.settled (sent.trans later)
  have cell : dirCell .upg m.dst n m (consume ⟨.upg, m⟩ s) =
      (.ok (touchDir e (putDir { e with st := .m, sharers := [] } (sendInvs e.die e.slice m.line m.src m.part m.cls e.sharers
        (homeExcl (wayless e.die e.slice m.line .home) 0 e.sharers.length m (consume ⟨.upg, m⟩ s))))),
        consume ⟨.upg, m⟩ s) := by
    simp only [dirCell, at_.found, owned, dirO, owner, CohT.isReq, Bool.not_true, Bool.false_eq_true, if_false, if_true]
  refine completes_of_cell rfl rfl meets cell settled fun t taken => ?_
  refine ⟨⟨_, (findDir_of_dir taken.dir _ _ _).trans found, rfl, owner.symm, rfl⟩, ?_, fun c hc => ?_,
    (taken.hbm.trans same).trans hbm⟩ <;> rw [taken.net, net]
  · exact ⟨r, List.mem_append_right _ (List.mem_append_left _ (List.mem_singleton_self _)), is⟩
  · obtain ⟨q, hq, is⟩ := each_ c hc
    exact ⟨q, List.mem_append_right _ (List.mem_append_right _ hq), is⟩

/-! ### Puts -/

/-- The WBAck to a put. -/
theorem sent_sendWb (d n : Nat) (m : CohMsg) (s : State) :
    ∃ r : NetMsg, Sent s (sendWb d n m s) [r] ∧ r.typ = .wbAck ∧ r.msg.dst = m.src ∧ r.msg.line = m.line :=
  ⟨_, sent_sendMsg _ _ s, rfl, rfl, rfl⟩

/-- A put of which the WBAck `r` is answered last: the entry is as it stood before. -/
theorem completes_of_put {c : Instr} {t : CohT} {m : CohMsg} {e : DirEnt} {u v : State} {effect : State → Prop}
    (meaning : exec c s = onDie s m.dst (arrive t m)) (req : t.isReq = true) (meets : MeetsEntry s t m n e)
    (cell : dirCell t m.dst n m (consume ⟨t, m⟩ s) = (.ok (sendWb e.die e.slice m u), v)) (settled : Settled m.dst n u)
    (h : ∀ w, findDir w m.dst n m.line = findDir u m.dst n m.line → w.slc.hbm = u.slc.hbm →
      (∃ r ∈ w.slc.net, r.typ = .wbAck ∧ r.msg.dst = m.src ∧ r.msg.line = m.line) → effect w) :
    Completes c s effect := by
  obtain ⟨r, sent, is⟩ := sent_sendWb e.die e.slice m u
  have slc : (sendWb e.die e.slice m u).slc = { u.slc with net := u.slc.net ++ [r] } := sent
  refine completes_of_cell meaning req meets cell (settled.of_sent sent) fun t taken => h t ?_ ?_ ?_
  · exact findDir_of_dir (taken.dir.trans (by rw [slc])) _ _ _
  · exact taken.hbm.trans (by rw [slc])
  · rw [taken.net, slc]
    exact ⟨r, List.mem_append_right _ (List.mem_singleton_self _), is⟩

theorem completes_puts_sharer {m : CohMsg} {e : DirEnt} (meets : MeetsEntry s .putS m n e) (shared : e.st = .s)
    (sharer : e.sharers.contains m.src = true) :
    Completes (.puts m) s (fun t =>
      (delNat e.sharers m.src ≠ [] →
        findDir t m.dst n m.line = some { e with sharers := delNat e.sharers m.src }) ∧
      (delNat e.sharers m.src = [] → findDir t m.dst n m.line = none) ∧
      (∃ r ∈ t.slc.net, r.typ = .wbAck ∧ r.msg.dst = m.src ∧ r.msg.line = m.line) ∧ t.slc.hbm = s.slc.hbm) := by
  have at_ := atEntry_of_meets meets
  have cell : dirCell .putS m.dst n m (consume ⟨.putS, m⟩ s) =
      (.ok (leaveSharers e m true (consume ⟨.putS, m⟩ s)), consume ⟨.putS, m⟩ s) := by
    simp only [dirCell, at_.found, shared, dirS, CohT.isReq, Bool.not_true, Bool.false_eq_true, if_false]
    exact if_pos sharer
  by_cases last : delNat e.sharers m.src = []
  · have left : leaveSharers e m true (consume ⟨.putS, m⟩ s) = sendWb e.die e.slice m (freeDir e (consume ⟨.putS, m⟩ s)) := by
      simp only [leaveSharers, last, List.isEmpty_nil, Bool.and_self, if_true]
    rw [left] at cell
    refine completes_of_put rfl rfl meets cell ⟨at_.settled.mshrs, at_.settled.holdq, at_.settled.placed⟩
      fun t found hbm wb => ⟨fun some_ => absurd last some_, fun _ => found.trans (findDir_freeDir at_.own _), wb, hbm⟩
  · have left : leaveSharers e m true (consume ⟨.putS, m⟩ s) =
        sendWb e.die e.slice m (putDir { e with sharers := delNat e.sharers m.src } (consume ⟨.putS, m⟩ s)) := by
      simp only [leaveSharers, List.isEmpty_eq_false_iff.mpr last, Bool.and_false, Bool.false_eq_true, if_false]
    rw [left] at cell
    refine completes_of_put rfl rfl meets cell ⟨at_.settled.mshrs, at_.settled.holdq, at_.settled.placed⟩
      fun t found hbm wb => ⟨fun _ => ?_, fun none_ => absurd none_ last, wb, hbm⟩
    exact found.trans (findDir_putDir (e := { e with sharers := delNat e.sharers m.src }) at_.own _)

theorem settled_writeDirty {m : CohMsg} {e : DirEnt} (h : Settled d n s) : Settled d n (writeDirty e m s) :=
  (lineWork_homeWrite e.die e.slice m.line m.dirty m.poison 0 m.data s).settled h

theorem completes_putm_owner {m : CohMsg} {e : DirEnt} (meets : MeetsEntry s .putM m n e) (owned : e.st = .m)
    (owner : m.src = e.owner) :
    Completes (.putm m) s (fun t =>
      findDir t m.dst n m.line = none ∧
      (∃ r ∈ t.slc.net, r.typ = .wbAck ∧ r.msg.dst = m.src ∧ r.msg.line = m.line)) := by
  have at_ := atEntry_of_meets meets
  have cell : dirCell .putM m.dst n m (consume ⟨.putM, m⟩ s) =
      (.ok (sendWb e.die e.slice m (freeDir e (writeDirty e m (consume ⟨.putM, m⟩ s)))), consume ⟨.putM, m⟩ s) := by
    simp only [dirCell, at_.found, owned, dirM, owner, CohT.isReq, Bool.not_true, Bool.false_eq_true, if_false, if_true]
  have quiet := settled_writeDirty (m := m) (e := e) at_.settled
  exact completes_of_put rfl rfl meets cell ⟨quiet.mshrs, quiet.holdq, quiet.placed⟩
    fun t found _ wb => ⟨found.trans (findDir_freeDir at_.own _), wb⟩

theorem completes_puto_owner {m : CohMsg} {e : DirEnt} (meets : MeetsEntry s .putO m n e) (owned : e.st = .o)
    (owner : m.src = e.owner) (some_ : e.sharers ≠ []) :
    Completes (.puto m) s (fun t =>
      findDir t m.dst n m.line = some { e with st := .s } ∧
      (∃ r ∈ t.slc.net, r.typ = .wbAck ∧ r.msg.dst = m.src ∧ r.msg.line = m.line)) := by
  have at_ := atEntry_of_meets meets
  have cell : dirCell .putO m.dst n m (consume ⟨.putO, m⟩ s) =
      (.ok (sendWb e.die e.slice m (putDir { e with st := .s } (writeDirty e m (consume ⟨.putO, m⟩ s)))),
        consume ⟨.putO, m⟩ s) := by
    simp only [dirCell, at_.found, owned, dirO, owner, CohT.isReq, Bool.not_true, Bool.false_eq_true, if_false, if_true,
      List.isEmpty_eq_false_iff.mpr some_]
  have quiet := settled_writeDirty (m := m) (e := e) at_.settled
  exact completes_of_put rfl rfl meets cell ⟨quiet.mshrs, quiet.holdq, quiet.placed⟩
    fun t found _ wb => ⟨found.trans (findDir_putDir (e := { e with st := .s }) at_.own _), wb⟩

/-- Settles O30: each cell is one equation of the directory, and with nothing waiting at the slice the message is taken at
once (`completes_of_cell`): only a pinned line of the home may still fetch (`lineWork_repin`). -/
theorem directoriesFollowTable : Obligations.DirectoriesFollowTable :=
  ⟨⟨fun _ _ _ _ => completes_gets_owned, fun _ _ _ _ => completes_getm_owned, fun _ _ _ _ => completes_upg_owner⟩,
    fun _ _ _ _ => completes_puts_sharer, fun _ _ _ _ => completes_putm_owner, fun _ _ _ _ => completes_puto_owner⟩

end Sys2Proof.Machine
end


section
/-! PROOFS. The home slice serves a hit, takes a fill, and ends a back-off or a hold (R218–R220, R223, R232, R233): only the
ranks and the hints of other lines move with it. -/

namespace Sys2Proof.Machine

/-! ### Lines -/

/-- Whether a line is that of `la` at slice `n` of die `d`. -/
def isLine (d n la : Nat) (l : Line) : Bool := Nat.beq l.die d && Nat.beq l.slice n && Nat.beq l.la la

theorem isLine_iff {d n la : Nat} {l : Line} : isLine d n la l = true ↔ l.die = d ∧ l.slice = n ∧ l.la = la := by
  simp only [isLine, Bool.and_eq_true, Nat.beq_eq, and_assoc]

theorem sameLine_iff {a b : Line} : sameLine a b = true ↔ a.die = b.die ∧ a.slice = b.slice ∧ a.la = b.la := by
  simp only [sameLine, Bool.and_eq_true, Nat.beq_eq, and_assoc]

theorem find?_putWhere_other {α : Type} {p q : α → Bool} {x : α} (l : List α) (new : q x = false)
    (old : ∀ y, p y = true → q y = false) : (putWhere p x l).find? q = l.find? q := by
  induction l with
  | nil => simp [putWhere, new]
  | cons y l ih =>
    unfold putWhere
    split
    next here => rw [List.find?_cons_of_neg (ne_true_of_eq_false new), List.find?_cons_of_neg (ne_true_of_eq_false (old y here))]
    next => rw [List.find?_cons, List.find?_cons, ih]

theorem findLine_putLine {d n la : Nat} {l : Line} (own : isLine d n la l = true) (s : State) :
    findLine (putLine l s) d n la = some l := by
  obtain ⟨rfl, rfl, rfl⟩ := isLine_iff.mp own
  have test : sameLine l = isLine l.die l.slice l.la := funext fun x => by
    rw [Bool.eq_iff_iff, sameLine_iff, isLine_iff]
    exact ⟨fun ⟨a, b, c⟩ => ⟨a.symm, b.symm, c.symm⟩, fun ⟨a, b, c⟩ => ⟨a.symm, b.symm, c.symm⟩⟩
  show List.find? (isLine l.die l.slice l.la) (putWhere (sameLine l) l s.slc.lines) = some l
  rw [test]
  exact find?_putWhere_same s.slc.lines own

theorem findLine_putLine_apart {d n la : Nat} {l : Line} (apart : isLine d n la l = false) (s : State) :
    findLine (putLine l s) d n la = findLine s d n la := by
  refine find?_putWhere_other (q := isLine d n la) s.slc.lines apart fun y same => ?_
  obtain ⟨die, slice, line⟩ := sameLine_iff.mp same
  rw [isLine, ← die, ← slice, ← line]
  exact apart

theorem findLine_putLine_other {d n la : Nat} {l : Line} (other : l.la ≠ la) (s : State) :
    findLine (putLine l s) d n la = findLine s d n la :=
  findLine_putLine_apart (Bool.eq_false_iff.mpr fun is => other (isLine_iff.mp is).2.2) s

theorem isLine_of_found {s : State} {d n la : Nat} {l : Line} (found : findLine s d n la = some l) : isLine d n la l = true :=
  List.find?_some (p := isLine d n la) found

theorem mem_lruOf {l : List Line} {v : Line} (h : lruOf l = some v) : v ∈ l := by
  induction l generalizing v with
  | nil => nomatch h
  | cons x l ih =>
    rw [lruOf] at h
    split at h
    next b found =>
      split at h <;> cases h
      · exact .head _
      · exact .tail _ (ih found)
    next => cases h; exact .head _

/-! ### Ranks and hints -/

/-- The state with other lines in the caches. -/
def withLines (lines : List Line) (s : State) : State := { s with slc := { s.slc with lines := lines } }

/-- `t` differs from `s` in its lines alone; line `la` of the slice holds the sectors of `l` in the state of `l`, and every
line of the slice has its way where it had one. -/
structure Ranked (d n la : Nat) (l : Line) (s t : State) : Prop where
  same : t = withLines t.slc.lines s
  placed : LinesPlaced s d n → LinesPlaced t d n
  shows : ∃ l', findLine t d n la = some l' ∧ l'.sectors = l.sectors ∧ l'.st = l.st ∧ l'.way < 16

variable {d n la : Nat} {l : Line} {s₀ s : State}

theorem Ranked.refl (found : findLine s d n la = some l) (way : l.way < 16) : Ranked d n la l s s :=
  ⟨rfl, id, l, found, rfl, rfl, way⟩

theorem way_of_placed (placed : LinesPlaced s d n) (found : findLine s d n la = some l) : l.way < 16 :=
  have ⟨die, slice, _⟩ := isLine_iff.mp (isLine_of_found found)
  placed l (List.mem_of_find?_eq_some found) die slice

/-- A line as `touchLine v` leaves it: its rank alone may move. -/
def touched (v x : Line) : Line :=
  if sameLine v x then { x with rank := 0 }
  else if sameSet v x && Nat.blt x.rank v.rank then { x with rank := x.rank + 1 } else x

theorem touched_eq (v x : Line) : ∃ r, touched v x = { x with rank := r } := by
  unfold touched
  split
  · exact ⟨0, rfl⟩
  · split
    · exact ⟨x.rank + 1, rfl⟩
    · exact ⟨x.rank, rfl⟩

theorem findLine_touchLine (v : Line) (s : State) (d n la : Nat) :
    findLine (touchLine v s) d n la = (findLine s d n la).map (touched v) := by
  show List.find? (isLine d n la) (s.slc.lines.map (touched v)) = _
  have test : isLine d n la ∘ touched v = isLine d n la := funext fun x => by
    obtain ⟨r, same⟩ := touched_eq v x
    show isLine d n la (touched v x) = _
    rw [same]
    rfl
  rw [List.find?_map, test]
  rfl

theorem placed_touchLine (placed : LinesPlaced s d n) (v : Line) : LinesPlaced (touchLine v s) d n := fun x hx => by
  obtain ⟨y, hy, rfl⟩ := List.mem_map.mp hx
  obtain ⟨r, same⟩ := touched_eq v y
  have old := placed y hy
  change (touched v y).die = d → (touched v y).slice = n → (touched v y).way < 16
  rw [same]
  exact old

theorem Ranked.touch (h : Ranked d n la l s₀ s) (v : Line) : Ranked d n la l s₀ (touchLine v s) := by
  obtain ⟨same, placed, l', found, sectors, st, way⟩ := h
  obtain ⟨r, is⟩ := touched_eq v l'
  refine ⟨?_, fun before => placed_touchLine (placed before) v, touched v l', ?_, ?_, ?_, ?_⟩
  · rw [same]
    rfl
  · rw [findLine_touchLine, found]
    rfl
  · rw [is]; exact sectors
  · rw [is]; exact st
  · rw [is]; exact way

theorem placed_putLine {x y : Line} (placed : LinesPlaced s d n) (member : y ∈ s.slc.lines)
    (same : x.die = y.die ∧ x.slice = y.slice ∧ x.way = y.way) : LinesPlaced (putLine x s) d n := by
  obtain ⟨die, slice, way⟩ := same
  intro z hz
  obtain rfl | old := mem_putWhere_of_mem hz
  · rw [die, slice, way]
    exact placed y member
  · exact placed z old

/-- Another line of the slice put back with its way. -/
theorem Ranked.putOther (h : Ranked d n la l s₀ s) {x y : Line} (member : y ∈ s.slc.lines) (other : x.la ≠ la)
    (same : x.die = y.die ∧ x.slice = y.slice ∧ x.way = y.way) : Ranked d n la l s₀ (putLine x s) := by
  obtain ⟨lines, placed, l', found, is⟩ := h
  refine ⟨?_, fun before => placed_putLine (placed before) member same, l', (findLine_putLine_other other s).trans found, is⟩
  rw [lines]
  rfl

/-- The line itself put back with its way, sectors and state. -/
theorem Ranked.putOwn (h : Ranked d n la l s₀ s) {x y : Line} (found : findLine s d n la = some y)
    (same : x.die = y.die ∧ x.slice = y.slice ∧ x.way = y.way) (la_ : x.la = y.la) (sectors : x.sectors = y.sectors)
    (st : x.st = y.st) : Ranked d n la l s₀ (putLine x s) := by
  obtain ⟨lines, placed, l', found', sectors', st', way'⟩ := h
  obtain rfl : l' = y := Option.some.inj (found'.symm.trans found)
  obtain ⟨die, slice, way⟩ := same
  have own : isLine d n la x = true := by
    have is := isLine_of_found found
    rw [isLine_iff] at is ⊢
    rw [die, slice, la_]
    exact is
  refine ⟨?_, fun before => placed_putLine (placed before) (List.mem_of_find?_eq_some found) ⟨die, slice, way⟩, x,
    findLine_putLine own s, sectors.trans sectors', st.trans st', way ▸ way'⟩
  rw [lines]
  rfl

/-- A hint places the line among those of its set (R221, R239). -/
theorem Ranked.hint (h : Ranked d n la l s₀ s) (hint : Nat) (onFill : Bool) :
    Ranked d n la l s₀ (applyHint d n la hint onFill s) := by
  obtain ⟨x, found, -, -, way⟩ := h.shows
  unfold applyHint
  rw [found]
  dsimp -zeta only
  rw [if_neg (Nat.not_le.mpr way)]
  split
  · exact h
  split
  · extract_lets keeps made
    have made_ : Ranked d n la l s₀ made := by
      unfold made
      split
      · exact h
      · split
        next v lru =>
          have kept := List.mem_filter.mp (mem_lruOf lru)
          have other : v.la ≠ la := by
            have := (Bool.and_eq_true _ _ ▸ kept.2).2
            simpa [natBeq_decide] using this
          exact (h.putOther (x := { v with keep := false }) (List.mem_filter.mp kept.1).1 other ⟨rfl, rfl, rfl⟩).touch v
        next => exact h
    split
    next y found => exact (made_.putOwn (x := { y with keep := true }) found ⟨rfl, rfl, rfl⟩ rfl rfl rfl).touch y
    next => exact made_
  · split
    · exact h
    · exact h.touch x

/-! ### Hits at the home slice -/

/-- A request that meets its home line, in a slice that nothing waits at, is served at once. -/
theorem sliceRequest_of_home {w : Waiter} {u : State} (meets : MeetsHome s d n w l)
    (served : serveHome d n w true s = some u) : sliceRequest d n 0 w s = leaveStarve d n w.req u := by
  obtain ⟨-, -, right, home, part, sealed_, back, works, mshrs, -⟩ := meets
  have alone : earlierWaiters s d n w.la = [] := by rw [earlierWaiters, findMshr_of_none mshrs]
  have turn : ordered ([] : List Waiter) w = true := by simp [ordered]
  have open_ : ¬(partSealed s w.req.part && (w.req.normal.isSome || w.req.part != w.req.part)) = true := by
    rw [bne_self_eq_false, Bool.or_false, Bool.and_eq_true]
    exact fun ⟨shut, some_⟩ => by rw [sealed_ shut] at some_; cases some_
  have answers : sliceAnswer d n 0 w s = leaveStarve d n w.req u := by
    unfold sliceAnswer
    dsimp only
    rw [if_neg (by rw [home]; exact Bool.false_ne_true), if_neg (ne_true_of_eq_false works), alone, turn, serve, if_pos home,
      if_pos rfl, served]
  unfold sliceRequest
  dsimp only
  rw [part, Option.map_some, Option.getD_some, if_neg (by rw [right]; exact Bool.false_ne_true), if_neg open_,
    if_neg (by rw [bne_self_eq_false]; exact Bool.false_ne_true), if_neg (by rw [back]; exact Bool.false_ne_true), answers]

/-- A hit: the answer, and what the line's hint moves. `s₁` is the state in which the sector was read or written. -/
theorem completes_of_hit {c : Instr} {w : Waiter} {l₁ : Line} {s₁ u : State} {kind : Nat} {poison : Bool} {v : SectorData}
    {effect : State → Prop}
    (meaning : exec c s = onDie s d (onSlice n (fun s => afterSlice d n (sliceRequest d n 0 w s))))
    (meets : MeetsHome s d n w l) (placed₁ : LinesPlaced s₁ d n) (ranked : Ranked d n w.la l₁ s₁ u)
    (mshrs : s₁.slc.mshrs = []) (holdq : s₁.slc.holdq = [])
    (served : serveHome d n w true s = some (answer d n w kind poison v u))
    (h : ∀ t, t.slc.rsp = s₁.slc.rsp ++ [⟨d, n, w.req.requester, w.req.pa, kind, poison, v⟩] → t.regs = s₁.regs →
      t.slc.hbm = s₁.slc.hbm → t.core = s₁.core → (∃ l', findLine t d n w.la = some l' ∧ l'.sectors = l₁.sectors) →
      effect t) : Completes c s effect := by
  obtain ⟨same, placed, l', found, sectors, -⟩ := ranked
  have settled : Settled d n (leaveStarve d n w.req (answer d n w kind poison v u)) := by
    refine ⟨?_, ?_, placed placed₁⟩
    · show u.slc.mshrs = []
      rw [same]
      exact mshrs
    · show u.slc.holdq = []
      rw [same]
      exact holdq
  have effect' : onSlice n (fun s => afterSlice d n (sliceRequest d n 0 w s)) s =
      afterSlice d n (leaveStarve d n w.req (answer d n w kind poison v u)) :=
    (if_pos meets.2.1).trans (congrArg (afterSlice d n) (sliceRequest_of_home meets served))
  rw [afterSlice_of_settled settled] at effect'
  refine completes_of_onDie (onDie s d (onSlice n (fun s => afterSlice d n (sliceRequest d n 0 w s)))) meaning rfl
    meets.1 (effect'.symm ▸ h _ ?_ ?_ ?_ ?_ ⟨l', found, sectors⟩)
  · show u.slc.rsp ++ _ = _
    rw [same]
    rfl
  · show u.regs = _
    rw [same]
    rfl
  · show u.slc.hbm = _
    rw [same]
    rfl
  · show u.core = _
    rw [same]
    rfl

theorem MeetsHome.way {w : Waiter} (meets : MeetsHome s d n w l) : l.way < 16 := by
  obtain ⟨-, -, -, -, -, -, -, -, -, -, -, found, -, -, placed⟩ := meets
  exact way_of_placed placed found

theorem completes_sliceReadRequest_hit {r : SliceReq} (meets : MeetsHome s d n ⟨r, .read⟩ l)
    (valid : (sectorAt l (Waiter.sec ⟨r, .read⟩)).valid = true) :
    Completes (.sliceReadRequest d n r) s (fun t =>
      t.slc.rsp = s.slc.rsp ++ [⟨d, n, r.requester, r.pa, 0, (sectorAt l (Waiter.sec ⟨r, .read⟩)).poison,
        (sectorAt l (Waiter.sec ⟨r, .read⟩)).data⟩] ∧
      t.rd d (Reg.UC_HIT n) = min (s.rd d (Reg.UC_HIT n) + 1) (2 ^ 48 - 1) ∧ RegsBut [(d, Reg.UC_HIT n)] s t ∧
      t.slc.hbm = s.slc.hbm ∧ t.core = s.core) := by
  have ⟨_, _, _, _, _, _, _, _, mshrs, holdq, noEntry, found, _, _, placed⟩ := meets
  have ranked : Ranked d n (Waiter.la ⟨r, .read⟩) l (s.count d (Reg.UC_HIT n) 1)
      (applyHint d n (Waiter.la ⟨r, .read⟩) r.hint false (s.count d (Reg.UC_HIT n) 1)) :=
    (Ranked.refl (s := s.count d (Reg.UC_HIT n) 1) found (way_of_placed placed found)).hint r.hint false
  have served : serveHome d n ⟨r, .read⟩ true s = some (answer d n ⟨r, .read⟩ 0 (sectorAt l (Waiter.sec ⟨r, .read⟩)).poison
      (sectorAt l (Waiter.sec ⟨r, .read⟩)).data
      (applyHint d n (Waiter.la ⟨r, .read⟩) r.hint false (s.count d (Reg.UC_HIT n) 1))) := by
    simp only [serveHome, homeReadable, noEntry, found, valid, if_true]
    rfl
  refine completes_of_hit (s₁ := s.count d (Reg.UC_HIT n) 1) rfl meets placed ranked mshrs holdq served
    fun t rsp regs hbm core _ => ⟨rsp, ?_, ?_, hbm, core⟩
  · exact (State.rd_of_regs regs d (Reg.UC_HIT n)).trans (State.rd_count_same ..)
  · exact ((RegsBut.refl _ s).count d (Reg.UC_HIT n) 1 (by simp)).of_regs regs

/-- The home line with sector `i` written, in its place. -/
theorem ranked_written {w : Waiter} (meets : MeetsHome s d n w l) (i : Nat) (x : Sector) (hint : Nat) :
    Ranked d n w.la (setSector l i x) (putLine (setSector l i x) s)
      (applyHint d n w.la hint false (putLine (setSector l i x) s)) := by
  obtain ⟨-, -, -, -, -, -, -, -, -, -, -, found, -, -, placed⟩ := meets
  have was : isLine d n w.la l = true := isLine_of_found found
  have own : isLine d n w.la (setSector l i x) = true := was
  exact (Ranked.refl (findLine_putLine own s) (show l.way < 16 from way_of_placed placed found)).hint hint false

theorem MeetsHome.placed_written {w : Waiter} (meets : MeetsHome s d n w l) (i : Nat) (x : Sector) :
    LinesPlaced (putLine (setSector l i x) s) d n := by
  obtain ⟨-, -, -, -, -, -, -, -, -, -, -, found, -, -, placed⟩ := meets
  exact placed_putLine placed (List.mem_of_find?_eq_some found) ⟨rfl, rfl, rfl⟩

theorem completes_sliceWriteRequest_hit {r : SliceReq} {mask : BitVec 32} {v : SectorData}
    (meets : MeetsHome s d n ⟨r, .write mask v⟩ l) (valid : (sectorAt l (Waiter.sec ⟨r, .read⟩)).valid = true) :
    Completes (.sliceWriteRequest d n r mask v) s (fun t =>
      (∃ l', findLine t d n (Waiter.la ⟨r, .read⟩) = some l' ∧
        l'.sectors = l.sectors.set (Waiter.sec ⟨r, .read⟩) (wroteSector mask v (sectorAt l (Waiter.sec ⟨r, .read⟩)))) ∧
      t.slc.rsp = s.slc.rsp ++ [⟨d, n, r.requester, r.pa, 1, false, 0⟩] ∧ t.regs = s.regs ∧
      t.slc.hbm = s.slc.hbm ∧ t.core = s.core) := by
  have ⟨_, _, _, _, _, _, _, _, mshrs, holdq, noEntry, found, _, _, _⟩ := meets
  have valid' : (sectorAt l (Waiter.sec ⟨r, .write mask v⟩)).valid = true := valid
  have served : serveHome d n ⟨r, .write mask v⟩ true s = some (answer d n ⟨r, .write mask v⟩ 1 false 0
      (applyHint d n (Waiter.la ⟨r, .write mask v⟩) r.hint false (putLine (setSector l (Waiter.sec ⟨r, .write mask v⟩)
        (wroteSector mask v (sectorAt l (Waiter.sec ⟨r, .write mask v⟩)))) s))) := by
    simp only [serveHome, homeWriteable, noEntry, Option.isNone_none, found, valid', Bool.true_or, if_true]
    rfl
  exact completes_of_hit rfl meets (meets.placed_written _ _) (ranked_written meets _ _ r.hint) mshrs holdq served
    fun t rsp regs hbm core line => ⟨line, rsp, regs, hbm, core⟩

theorem completes_sliceAtomicRequest_hit {op : Nat} {r : SliceReq} {wide signed : Bool} {a b : Word}
    (meets : MeetsHome s d n ⟨r, .atomic op wide signed a b⟩ l)
    (valid : (sectorAt l (Waiter.sec ⟨r, .read⟩)).valid = true)
    (clean : (sectorAt l (Waiter.sec ⟨r, .read⟩)).poison = false) :
    Completes (.sliceAtomicRequest d n r op wide signed a b) s (fun t =>
      (∃ l', findLine t d n (Waiter.la ⟨r, .read⟩) = some l' ∧
        (sectorAt l' (Waiter.sec ⟨r, .read⟩)).dirty = true ∧ (sectorAt l' (Waiter.sec ⟨r, .read⟩)).data =
          atomSector (r.pa % 32) op wide signed a.toNat b.toNat (sectorAt l (Waiter.sec ⟨r, .read⟩)).data) ∧
      t.slc.rsp = s.slc.rsp ++ [⟨d, n, r.requester, r.pa, 0, false, (sectorAt l (Waiter.sec ⟨r, .read⟩)).data⟩] ∧
      t.slc.hbm = s.slc.hbm ∧ t.core = s.core) := by
  have ⟨_, _, _, _, _, _, _, _, mshrs, holdq, noEntry, found, _, inside, _⟩ := meets
  have valid' : (sectorAt l (Waiter.sec ⟨r, .atomic op wide signed a b⟩)).valid = true := valid
  have clean' : (sectorAt l (Waiter.sec ⟨r, .atomic op wide signed a b⟩)).poison = false := clean
  have served : serveHome d n ⟨r, .atomic op wide signed a b⟩ true s = some (answer d n ⟨r, .atomic op wide signed a b⟩ 0
      false (sectorAt l (Waiter.sec ⟨r, .read⟩)).data
      (applyHint d n (Waiter.la ⟨r, .atomic op wide signed a b⟩) r.hint false (putLine (setSector l (Waiter.sec ⟨r, .read⟩)
        ⟨true, true, false, 0, atomSector (r.pa % 32) op wide signed a.toNat b.toNat
          (sectorAt l (Waiter.sec ⟨r, .read⟩)).data⟩) s))) := by
    simp only [serveHome, homeWriteable, noEntry, Option.isNone_none, found, valid', if_true, serveOn, clean',
      Bool.false_eq_true, if_false]
    rfl
  refine completes_of_hit rfl meets (meets.placed_written _ _) (ranked_written meets _ _ r.hint) mshrs holdq served
    fun t rsp regs hbm core ⟨l', line, sectors⟩ => ⟨⟨l', line, ?_⟩, rsp, hbm, core⟩
  have at_ : sectorAt l' (Waiter.sec ⟨r, .read⟩) = ⟨true, true, false, 0, atomSector (r.pa % 32) op wide signed a.toNat b.toNat
      (sectorAt l (Waiter.sec ⟨r, .read⟩)).data⟩ := by
    rw [sectorAt, sectors]
    exact congrArg (Option.getD · noSector) (List.getElem?_set_self inside)
  rw [at_]
  exact ⟨rfl, rfl⟩

/-! ### An MSHR with nothing left to do -/

theorem length_putWhere_of_mem {α : Type} {p : α → Bool} {x y : α} {l : List α} (member : y ∈ l) (is : p y = true) :
    (putWhere p x l).length = l.length := by
  induction l with
  | nil => cases member
  | cons z l ih =>
    rw [putWhere]
    split
    · rfl
    next not_ =>
      obtain rfl | later := List.mem_cons.mp member
      · exact absurd is not_
      · exact congrArg (· + 1) (ih later)

/-- The starve list of a slice alone may change, by no entry more or less. -/
theorem holdForHead_eq (d n : Nat) (waiter : Bool) (s : State) :
    ∃ list, holdForHead d n waiter s = { s with slc := { s.slc with starve := list } } ∧
      list.length = s.slc.starve.length := by
  unfold holdForHead
  split
  next e found =>
    split
    · exact ⟨_, rfl, rfl⟩
    · refine ⟨_, rfl, length_putWhere_of_mem (List.mem_of_find?_eq_some found) (beq_self_eq_true e)⟩
  next => exact ⟨_, rfl, rfl⟩

theorem sameMshr_self (m : Mshr) : sameMshr m m = true := by simp [sameMshr]

theorem freeMshr_alone {m : Mshr} (alone : s.slc.mshrs = [m]) :
    ∃ list, freeMshr m s = { s with slc := { s.slc with mshrs := [], starve := list } } := by
  obtain ⟨list, same, -⟩ := holdForHead_eq m.die m.slice false
    { s with slc := { s.slc with mshrs := s.slc.mshrs.filter (fun x => !sameMshr m x) } }
  refine ⟨list, same.trans ?_⟩
  rw [alone, List.filter_cons_of_neg (by rw [sameMshr_self]; decide), List.filter_nil]

/-- MSHR `m`, alone, has what it waited for. -/
structure Done (m : Mshr) (s : State) : Prop where
  alone : s.slc.mshrs = [m]
  waiters : m.waiters = []
  remote : m.remote = []
  mask : m.mask = 0

theorem findMshr_alone {m : Mshr} (alone : s.slc.mshrs = [m]) : findMshr s m.die m.slice m.la = some m := by
  rw [findMshr, alone, List.find?_cons_of_pos (by simp)]

theorem putMshr_alone {m m' : Mshr} (alone : s.slc.mshrs = [m]) (same : sameMshr m' m = true) :
    putMshr m' s = { s with slc := { s.slc with mshrs := [m'] } } := by
  rw [putMshr, alone, putWhere, if_pos same]

theorem servePass_of_done {m : Mshr} (done : Done m s) : servePass m.die m.slice m.la s = s := by
  obtain ⟨alone, waiters, -, -⟩ := done
  have found := findMshr_alone alone
  have itself : ({ m with owned := m.owned && ([] : List Waiter).head? == ([] : List Waiter).head?, waiters := [] } : Mshr) =
      m := by
    cases m
    cases waiters
    simp
  have put : putMshr m s = s := (putMshr_alone alone (sameMshr_self m)).trans (by rw [← alone])
  simp only [servePass, found, waiters, serveList]
  rw [itself, put, if_neg (Nat.lt_irrefl _)]

theorem pump_of_done {m : Mshr} {x : Line} (done : Done m s) (found : findLine s m.die m.slice m.la = some x)
    (home : x.st = .home) (way : x.way < 16) : pump m.die m.slice m.la s = freeMshr m s := by
  have demands : demandPass m.die m.slice m.la s = s := by
    simp only [demandPass, findMshr_alone done.alone, done.waiters]
    rfl
  have stays : leaveUnplaced m.die m.slice m.la s = s := by
    have placed : ¬x.way = 16 := Nat.ne_of_lt way
    simp [leaveUnplaced, found, placed]
  have stable : stableLine x = true := by rw [stableLine, home]
  unfold pump
  rw [servePass_of_done done, demands, servePass_of_done done, settleMshr, findMshr_alone done.alone]
  dsimp only
  rw [if_pos (by rw [done.waiters, done.remote, done.mask]; rfl), stays, found]
  dsimp only
  rw [if_pos (by rw [stable, Nat.blt_eq.mpr way]; rfl)]

/-! ### A fill returns -/

/-- The state in which the fill of line `l` has put its sectors and its record, before the hints take effect. -/
def filledIn (m : Mshr) (bad : BitVec 4) (dead : Bool) (l : Line) (s : State) : State :=
  let placed := putLine { l with sectors := fillSectors m.mask bad dead l s 0 l.sectors } s
  let told := if m.mask &&& bad != 0 && !dead then poisonRecord m.die m.slice m.la 1 (m.mask &&& bad).toNat placed else placed
  { told with slc := { told.slc with mshrs := [{ m with mask := 0, back := none, hints := [] }] } }

theorem filledIn_shows (m : Mshr) (bad : BitVec 4) (dead : Bool) (l : Line) (s : State) :
    (filledIn m bad dead l s).regs = s.regs ∧ (filledIn m bad dead l s).slc.hbm = s.slc.hbm ∧
      (filledIn m bad dead l s).slc.holdq = s.slc.holdq ∧
      (filledIn m bad dead l s).slc.lines =
        (putLine { l with sectors := fillSectors m.mask bad dead l s 0 l.sectors } s).slc.lines := by
  unfold filledIn
  dsimp only
  split <;> exact ⟨rfl, rfl, rfl, rfl⟩

theorem placed_filledIn {m : Mshr} {bad : BitVec 4} {dead : Bool} (placed : LinesPlaced s d n)
    (found : findLine s d n la = some l) : LinesPlaced (filledIn m bad dead l s) d n := by
  have held := placed_putLine (x := { l with sectors := fillSectors m.mask bad dead l s 0 l.sectors }) placed
    (List.mem_of_find?_eq_some found) ⟨rfl, rfl, rfl⟩
  exact fun x hx => held x ((filledIn_shows m bad dead l s).2.2.2 ▸ hx)

theorem handsOver_filledIn {m : Mshr} {bad : BitVec 4} (l : Line) (s : State) (some_ : m.mask &&& bad ≠ 0) :
    HandsOver m.die (0x10 + m.slice) 0x040 0 s (filledIn m bad false l s) := by
  unfold filledIn
  extract_lets placed told
  have told_ : told = poisonRecord m.die m.slice m.la 1 (m.mask &&& bad).toNat placed :=
    if_pos ((Bool.and_true _).trans (bne_iff_ne.mpr some_))
  rw [told_]
  exact handsOver_emit m.die (0x10 + m.slice) 0x040 0 _ _ rfl

theorem putMshr_told (m : Mshr) (bad : BitVec 4) (dead : Bool) (l : Line) (s : State) (alone : s.slc.mshrs = [m]) :
    settleHints m.die m.slice m.la (putMshr { m with mask := 0, back := none }
      (if m.mask &&& bad != 0 && !dead then poisonRecord m.die m.slice m.la 1 (m.mask &&& bad).toNat
        (putLine { l with sectors := fillSectors m.mask bad dead l s 0 l.sectors } s)
      else putLine { l with sectors := fillSectors m.mask bad dead l s 0 l.sectors } s)) =
      each m.hints (fun s h => applyHint m.die m.slice m.la h false s) (filledIn m bad dead l s) := by
  unfold filledIn
  dsimp only
  generalize own : (if m.mask &&& bad != 0 && !dead then poisonRecord m.die m.slice m.la 1 (m.mask &&& bad).toNat
      (putLine { l with sectors := fillSectors m.mask bad dead l s 0 l.sectors } s)
    else putLine { l with sectors := fillSectors m.mask bad dead l s 0 l.sectors } s) = told
  have alone' : told.slc.mshrs = [m] := by
    rw [← own]
    split <;> exact alone
  have once := putMshr_alone (m' := { m with mask := 0, back := none }) alone' (sameMshr_self m)
  rw [once]
  have found := findMshr_alone (m := { m with mask := 0, back := none })
    (s := { told with slc := { told.slc with mshrs := [{ m with mask := 0, back := none }] } }) rfl
  have twice := putMshr_alone (m := { m with mask := 0, back := none }) (m' := { m with mask := 0, back := none, hints := [] })
    (s := { told with slc := { told.slc with mshrs := [{ m with mask := 0, back := none }] } }) rfl (sameMshr_self m)
  unfold settleHints
  rw [found]
  dsimp only
  rw [twice]

theorem fillReturn_home {m : Mshr} {bad : BitVec 4} {dead : Bool} (alone : s.slc.mshrs = [m]) (waiters : m.waiters = [])
    (remote : m.remote = []) (found : findLine s m.die m.slice m.la = some l) (home : l.st = .home)
    (way : l.way < 16) :
    ∃ u list, Ranked m.die m.slice m.la { l with sectors := fillSectors m.mask bad dead l s 0 l.sectors }
        (filledIn m bad dead l s) u ∧
      fillReturn m bad dead s = { u with slc := { u.slc with mshrs := [], starve := list } } := by
  have lines := (filledIn_shows m bad dead l s).2.2.2
  have put : Ranked m.die m.slice m.la { l with sectors := fillSectors m.mask bad dead l s 0 l.sectors }
      (filledIn m bad dead l s) (filledIn m bad dead l s) := by
    have was : isLine m.die m.slice m.la l = true := isLine_of_found found
    have there := findLine_putLine (l := { l with sectors := fillSectors m.mask bad dead l s 0 l.sectors })
      (d := m.die) (n := m.slice) (la := m.la) was s
    refine .refl ?_ way
    rw [findLine, lines]
    exact there
  have hinted := (each_induction (P := Ranked m.die m.slice m.la _ (filledIn m bad dead l s))
    (f := fun s h => applyHint m.die m.slice m.la h false s) (l := m.hints) (fun _ h _ at_ => at_.hint h false) put).hint
    m.hint true
  generalize own : applyHint m.die m.slice m.la m.hint true
    (each m.hints (fun s h => applyHint m.die m.slice m.la h false s) (filledIn m bad dead l s)) = u at hinted
  obtain ⟨x, there, -, st, way'⟩ := hinted.shows
  have done : Done { m with mask := 0, back := none, hints := [] } u := by
    refine ⟨?_, waiters, remote, rfl⟩
    rw [hinted.same]
    rfl
  obtain ⟨list, freed⟩ := freeMshr_alone done.alone
  refine ⟨u, list, hinted, ?_⟩
  have pumped : pump m.die m.slice m.la u = _ := (pump_of_done done there (st.trans home) way').trans freed
  have returns : fillReturn m bad dead s = installFill m bad dead s := by
    unfold fillReturn
    rw [found]
    dsimp only
    rw [if_neg (fun is => by rw [home] at is; exact Bool.false_ne_true is), placeLine, if_pos way]
    exact if_pos home
  rw [returns, ← pumped, ← own, ← putMshr_told m bad dead l s alone, installFill, found]

theorem completes_sliceFillReturn_home {m : Mshr} {bad : BitVec 4} (hd : d < dieCount s.orderCode)
    (alone : s.slc.mshrs = [m]) (die : m.die = d) (slice : m.slice = n) (la_ : m.la = la) (waiters : m.waiters = [])
    (remote : m.remote = []) (holdq : s.slc.holdq = []) (found : findLine s d n la = some l) (home : l.st = .home)
    (placed : LinesPlaced s d n) (works : sliceFailed s d n = false) :
    Completes (.sliceFillReturn d n la bad) s (fun t =>
      (∃ l', findLine t d n la = some l' ∧ l'.sectors = fillSectors m.mask bad false l s 0 l.sectors) ∧
      t.slc.mshrs = [] ∧ t.slc.hbm = s.slc.hbm ∧ t.regs = s.regs ∧
      (m.mask &&& bad ≠ 0 → HandsOver d (0x10 + n) 0x040 0 s t)) := by
  subst die slice la_
  obtain ⟨u, list, ⟨same, placed', x, there, sectors, -⟩, effect⟩ :=
    fillReturn_home (bad := bad) (dead := false) alone waiters remote found home (way_of_placed placed found)
  obtain ⟨regs, hbm, held, -⟩ := filledIn_shows m bad false l s
  have settled : Settled m.die m.slice { u with slc := { u.slc with mshrs := [], starve := list } } := by
    refine ⟨rfl, ?_, placed' (placed_filledIn placed found)⟩
    show u.slc.holdq = []
    rw [same]
    exact held.trans holdq
  have effect' : sliceFillReturn m.die m.slice m.la bad s =
      afterSlice m.die m.slice { u with slc := { u.slc with mshrs := [], starve := list } } := by
    rw [sliceFillReturn, findMshr_alone alone, works]
    exact congrArg (afterSlice m.die m.slice) effect
  rw [afterSlice_of_settled settled] at effect'
  refine completes_of_onDie (execSliceFillReturn m.die m.slice m.la bad s) rfl rfl hd (effect'.symm ▸ ?_)
  refine ⟨⟨x, there, sectors⟩, rfl, ?_, ?_, fun some_ => ?_⟩
  · show u.slc.hbm = _
    rw [same]
    exact hbm
  · show u.regs = _
    rw [same]
    exact regs
  · obtain ⟨w, waiting, is⟩ := handsOver_filledIn l s some_
    refine ⟨w, ?_, is⟩
    show u.recs.waiting = _
    rw [same]
    exact waiting

/-! ### Back-offs and holds -/

/-- The requester's oldest back-off ends (assumption log 31). -/
theorem completes_retryBackoffExpiry {q : Nat} {b : BackOff} {effect : State → Prop}
    (oldest : (retryOf s q).waiting.find? (fun b => Nat.blt 0 b.wait) = some b) (h : effect (retryGo q b s)) :
    Completes (.retryBackoffExpiry q) s effect := by
  have acts : retryBackoffExpiry q s = retryGo q b s := by rw [retryBackoffExpiry, oldest]
  exact completes_of_next (execRetryBackoffExpiry q s) rfl (congrArg Host.Outcome.next acts) h

theorem completes_retryBackoffExpiry_coh {q k w : Nat} {x : NetMsg}
    (oldest : (retryOf s q).waiting.find? (fun b => Nat.blt 0 b.wait) = some ⟨.coh d n la, k, w⟩)
    (kept : s.slc.sent.find? (fun x => Nat.beq x.msg.src d && Nat.beq x.msg.srcSlice n && Nat.beq x.msg.line la) = some x) :
    Completes (.retryBackoffExpiry q) s (fun t =>
      t.slc.net = s.slc.net ++
        [⟨x.typ, { x.msg with incarn := BitVec.ofNat 16 (s.rd x.msg.src Reg.DC_INCARNATION) }⟩] ∧
      t.slc.lines = s.slc.lines ∧ t.slc.sent = s.slc.sent) := by
  refine completes_retryBackoffExpiry oldest ?_
  have sent : (sendMsg x.typ x.msg (waitOver q (.coh d n la) s)).slc = _ :=
    sent_sendMsg x.typ x.msg (waitOver q (.coh d n la) s)
  have kept' : (waitOver q (.coh d n la) s).slc.sent.find?
      (fun x => Nat.beq x.msg.src d && Nat.beq x.msg.srcSlice n && Nat.beq x.msg.line la) = some x := kept
  have goes : retryGo q ⟨.coh d n la, k, w⟩ s = sendMsg x.typ x.msg (waitOver q (.coh d n la) s) := by
    simp only [retryGo, kept']
  rw [goes, sent]
  exact ⟨rfl, rfl, rfl⟩

theorem completes_retryBackoffExpiry_kv {q k w : Nat} {a : SlotAt}
    (oldest : (retryOf s q).waiting.find? (fun b => Nat.blt 0 b.wait) = some ⟨.kv a, k, w⟩) :
    Completes (.retryBackoffExpiry q) s (fun t => { t.slc with retry := s.slc.retry } = s.slc ∧
      (retryOf t q).waiting.any (fun b => b.what == .kv a && Nat.blt 0 b.wait) = false) := by
  refine completes_retryBackoffExpiry oldest ⟨rfl, ?_⟩
  let ended := updWhere (fun x : BackOff => x.what == .kv a) (fun x => { x with wait := 0 }) (retryOf s q).waiting
  have listed := retryOf_putRetry (r := { retryOf s q with waiting := ended }) (requester_retryOf s q) s
  show (retryOf (waitOver q (.kv a) s) q).waiting.any _ = false
  rw [waitOver, listed]
  refine List.any_eq_false.mpr fun b hb => ?_
  obtain ⟨b₀, -, rfl⟩ := List.mem_map.mp hb
  split
  next => simp
  next other => simp [other]

/-- A request of a killed context is dropped (R243). -/
theorem completes_retryBackoffExpiry_killed {q k w : Nat} {x : Waiter}
    (oldest : (retryOf s q).waiting.find? (fun b => Nat.blt 0 b.wait) = some ⟨.access d n x, k, w⟩)
    (killed : ctxKilled s x.req.part x.req.inst x.req.ctx = true) :
    Completes (.retryBackoffExpiry q) s (fun t => t.slc.net = s.slc.net ∧ t.slc.rsp = s.slc.rsp ∧ t.regs = s.regs ∧
      (retryOf t q).waiting.any (fun b => b.what == .access d n x) = false) := by
  refine completes_retryBackoffExpiry oldest ?_
  obtain ⟨r, found⟩ : ∃ r, s.slc.retry.find? (fun r => Nat.beq r.requester q) = some r := by
    cases found : s.slc.retry.find? (fun r => Nat.beq r.requester q) with
    | none => rw [retryOf, found] at oldest; cases oldest
    | some r => exact ⟨r, rfl⟩
  have own : r.requester = q := Nat.eq_of_beq_eq_true (List.find?_some (p := fun r : Retry => Nat.beq r.requester q) found)
  have ends : endBackOff q (.access d n x) s =
      putRetry { r with waiting := r.waiting.filter (fun b => b.what != .access d n x) } s := by
    rw [endBackOff, found]
  have goes : retryGo q ⟨.access d n x, k, w⟩ s = endBackOff q (.access d n x) s := by
    rw [ends]
    simp only [retryGo, ends]
    exact if_pos killed
  have listed := retryOf_putRetry (r := { r with waiting := r.waiting.filter (fun b => b.what != .access d n x) }) own s
  rw [goes, ends]
  refine ⟨rfl, rfl, rfl, ?_⟩
  rw [listed]
  refine List.any_eq_false.mpr fun b hb is => ?_
  have not_ := (List.mem_filter.mp hb).2
  rw [bne, is] at not_
  cases not_

theorem completes_starveHoldLapse {e : Starve} (hd : d < dieCount s.orderCode)
    (first : s.slc.starve.find? (fun e => Nat.beq e.die d && Nat.beq e.slice n) = some e) (held : e.held = true) :
    Completes (.starveHoldLapse d n) s (fun t => t.slc.starve.length + 1 = s.slc.starve.length ∧ t.regs = s.regs ∧
      t.slc.lines = s.slc.lines) := by
  have member : e ∈ s.slc.starve := List.mem_of_find?_eq_some first
  have less : (s.slc.starve.erase e).length + 1 = s.slc.starve.length := by
    have := List.length_erase_of_mem member
    have some_ := List.length_pos_of_mem member
    omega
  obtain ⟨list, same, length⟩ := holdForHead_eq d n e.waiter { s with slc := { s.slc with starve := s.slc.starve.erase e } }
  have lapses : starveHoldLapse d n s =
      holdForHead d n e.waiter { s with slc := { s.slc with starve := s.slc.starve.erase e } } := by
    rw [starveHoldLapse, first]
    exact if_pos held
  refine completes_of_onDie (execStarveHoldLapse d n s) rfl rfl hd ?_
  rw [lapses, same]
  exact ⟨(congrArg (· + 1) length).trans less, rfl, rfl⟩

/-- Settles O32: a hit is answered from the line that was found (`completes_of_hit`), a fill puts its sectors and frees its
MSHR (`fillReturn_home`); what else moves are the ranks of the set's lines (`Ranked`). RETRY_BACKOFF_EXPIRY ends the
requester's oldest back-off: assumption log 31. -/
theorem slicesServe : Obligations.SlicesServe :=
  ⟨⟨fun _ _ _ _ _ => completes_sliceReadRequest_hit, fun _ _ _ _ _ _ _ => completes_sliceWriteRequest_hit,
      fun _ _ _ _ _ _ _ _ _ _ => completes_sliceAtomicRequest_hit⟩,
    fun _ _ _ _ _ _ _ => completes_sliceFillReturn_home, fun _ _ _ _ _ _ _ _ => completes_retryBackoffExpiry_coh,
    fun _ _ _ _ _ => completes_retryBackoffExpiry_kv, fun _ _ _ _ _ _ _ => completes_retryBackoffExpiry_killed,
    fun _ _ _ _ => completes_starveHoldLapse⟩

end Sys2Proof.Machine
end


section
/-! PROOFS. A slice or its channel fails, an error in a slice's SRAM, a packet at the half link, and the pins (R217, R226,
R244, R245, Table UC-5). -/

namespace Sys2Proof.Machine

variable {d n la : Nat} {l : Line} {s : State}

/-! ### A failed slice -/

/-- The lines of a slice that are copies of another die's. -/
def guestHere (d n : Nat) (l : Line) : Bool := Nat.beq l.die d && Nat.beq l.slice n && l.st != .home

/-- The slice marked in the failure map, its guest lines poisoned, and its DEGRADE record handed over. -/
def sliceMarked (d n : Nat) (s : State) : State :=
  degrade d (0x10 + n) ((slicePart s d n).getD 0) 1 n 0
    (State.wrBit { s with slc := { s.slc with
      failed := addNat s.slc.failed (d * 24 + n),
      lines := updWhere (guestHere d n) deadCopy s.slc.lines,
      puts := updWhere (guestHere d n) deadCopy s.slc.puts } } d Reg.REC_FAIL_CHAN n true)

/-- The outstanding fills of the slice answered with poison. -/
def fillsEnded (d n : Nat) (s : State) : State :=
  let s := each (mshrsOf s d n) (fun s m => fillReturn { m with waiters := [] } 15 true (deadWaiters m s)) s
  each (mshrsOf s d n) (fun s m => takeFetched m s) s

/-- The record of the failure, and the fault of partition `p` where one holds the slice. -/
def sliceTold (d n cause p : Nat) (s : State) : State :=
  if (slicePart s d n).isSome then faultWith p 0x06 d (0x10 + n) 0x043 3 [pf 1 n, pf 1 cause, pf 1 p, pf 5 0] s
  else emit d (0x10 + n) 0x043 3 false [pf 1 n, pf 1 cause, pf 1 p, pf 5 0] s

theorem failSlice_of_works (works : sliceFailed s d n = false) (cause : Nat) :
    failSlice d n cause s = sliceTold d n cause ((slicePart s d n).getD 0) (fillsEnded d n (sliceMarked d n s)) := by
  unfold failSlice
  rw [if_neg (by rw [works]; exact Bool.false_ne_true)]
  rfl

theorem chanSide_lt (n : Nat) : chanSide n < 2 := by
  unfold chanSide
  split <;> decide

theorem slicePart_sliceMarked (d n : Nat) (s : State) : slicePart (sliceMarked d n s) d n = slicePart s d n := by
  have two : chanSide n = 0 ∨ chanSide n = 1 := by
    have := chanSide_lt n
    omega
  unfold slicePart
  obtain side | side := two
  all_goals
    rw [side, halfPart, halfPart, sliceMarked, degrade, rd_emit, rd_emit, State.rd_wrBit_apart rfl, State.rd_wrBit_apart rfl]
    rfl

theorem regsBut_sliceMarked (d n : Nat) (s : State) : RegsBut [(d, Reg.REC_FAIL_CHAN)] s (sliceMarked d n s) :=
  .of_regs (.wrBit (.refl _ s) d Reg.REC_FAIL_CHAN n true (.head _)) rfl

theorem rdBit_sliceMarked (hn : n < 24) : (sliceMarked d n s).rdBit d Reg.REC_FAIL_CHAN n = true :=
  rdBit_wrBit_true _ d Reg.REC_FAIL_CHAN hn

theorem sliceFailed_sliceMarked (d n : Nat) (s : State) : sliceFailed (sliceMarked d n s) d n = true :=
  contains_addNat_same _ _

theorem sliceTold_of_none (none_ : slicePart s d n = none) (cause p : Nat) :
    sliceTold d n cause p s = emit d (0x10 + n) 0x043 3 false [pf 1 n, pf 1 cause, pf 1 p, pf 5 0] s := by
  rw [sliceTold, none_]
  rfl

theorem faulted_sliceTold {p : Nat} (held : slicePart s d n = some p) (named : (imgParts s).contains p = true)
    (cause : Nat) : (sliceTold d n cause p s).prt.faulted.contains p = true := by
  have known : Known (emit d (0x10 + n) 0x043 3 (partSealed s p) [pf 1 n, pf 1 cause, pf 1 p, pf 5 0] s) p := .inr named
  rw [sliceTold, held, Option.isSome_some, if_pos rfl, faultWith, faulted_partFault known]
  exact contains_addNat_same _ _

theorem completes_channelFailure (hd : d < dieCount s.orderCode) (hn : n < 24) (works : sliceFailed s d n = false)
    (idle : mshrsOf s d n = []) : Completes (.channelFailure d n) s (fun t =>
      (slicePart s d n = none → sliceFailed t d n = true ∧ t.rdBit d Reg.REC_FAIL_CHAN n = true ∧
        RegsBut [(d, Reg.REC_FAIL_CHAN)] s t ∧
        (∃ w x, t.recs.waiting = s.recs.waiting ++ [w, x] ∧ w.typ = 0x033 ∧ x.typ = 0x043 ∧ x.cls = 3)) ∧
      (∀ p, slicePart s d n = some p → (imgParts s).contains p = true → t.prt.faulted.contains p = true)) := by
  have idle' : mshrsOf (sliceMarked d n s) d n = [] := idle
  have ended : fillsEnded d n (sliceMarked d n s) = sliceMarked d n s := by
    simp only [fillsEnded, each, idle', List.foldl_nil]
  have part := slicePart_sliceMarked d n s
  refine completes_of_onDie (execChannelFailure d n s) rfl rfl hd ?_
  rw [onSlice, if_pos hn, failSlice_of_works works, ended]
  refine ⟨fun free => ?_, fun p held named => ?_⟩
  · rw [sliceTold_of_none (part.trans free)]
    refine ⟨sliceFailed_sliceMarked d n s, rdBit_sliceMarked hn, (regsBut_sliceMarked d n s).of_regs rfl, _, _,
      List.append_assoc _ _ _, rfl, rfl, rfl⟩
  · rw [held]
    exact faulted_sliceTold (part.trans held) named 1

/-! ### A fill that does not return -/

/-- What a failed channel returns does not come from HBM. -/
theorem fillSectors_dead (mask bad : BitVec 4) (l : Line) (s t : State) (i : Nat) (xs : List Sector) :
    fillSectors mask bad true l s i xs = fillSectors mask bad true l t i xs := by
  induction xs generalizing i with
  | nil => rfl
  | cons x xs ih => simp only [fillSectors, if_true, Bool.or_true, ih]

theorem findLine_sliceMarked (found : findLine s d n la = some l) (home : l.st = .home) :
    findLine (sliceMarked d n s) d n la = some l := by
  refine (find?_updWhere_of_same (p := isLine d n la) (g := deadCopy) (fun _ => rfl) s.slc.lines).trans ?_
  have there : s.slc.lines.find? (isLine d n la) = some l := found
  have stays : guestHere d n l = false := by rw [guestHere, home]; exact Bool.and_false _
  rw [there, Option.map_some, stays]
  rfl

theorem deadWaiters_of_none {m : Mshr} (alone : s.slc.mshrs = [m]) (waiters : m.waiters = []) : deadWaiters m s = s := by
  have itself : ({ m with waiters := [] } : Mshr) = m := by
    cases m
    cases waiters
    rfl
  simp only [deadWaiters, waiters, each, itself]
  exact (putMshr_alone alone (sameMshr_self m)).trans (by rw [← alone])

theorem completes_fillTimeout {m : Mshr} (hd : d < dieCount s.orderCode) (hn : n < 24)
    (works : sliceFailed s d n = false) (free : slicePart s d n = none) (alone : s.slc.mshrs = [m]) (die : m.die = d)
    (slice : m.slice = n) (la_ : m.la = la) (mask : m.mask ≠ 0) (waiters : m.waiters = []) (remote : m.remote = [])
    (found : findLine s d n la = some l) (home : l.st = .home) (way : l.way < 16) :
    Completes (.fillTimeout d n la) s (fun t =>
      sliceFailed t d n = true ∧ t.slc.mshrs = [] ∧ t.rdBit d Reg.REC_FAIL_CHAN n = true ∧
      ∃ l', findLine t d n la = some l' ∧ l'.sectors = fillSectors m.mask 15 true l s 0 l.sectors) := by
  subst die slice la_
  have alone' : (sliceMarked m.die m.slice s).slc.mshrs = [m] := alone
  obtain ⟨u, list, ⟨same, -, l', there, sectors, -⟩, effect⟩ :=
    fillReturn_home (bad := 15) (dead := true) alone' waiters remote (findLine_sliceMarked found home) home way
  obtain ⟨regs, -, -, -⟩ := filledIn_shows m 15 true l (sliceMarked m.die m.slice s)
  have itself : ({ m with waiters := [] } : Mshr) = m := by
    cases m
    cases waiters
    rfl
  have mine : mshrsOf (sliceMarked m.die m.slice s) m.die m.slice = [m] := by
    rw [mshrsOf, alone']
    simp
  have ended : fillsEnded m.die m.slice (sliceMarked m.die m.slice s) =
      { u with slc := { u.slc with mshrs := [], starve := list } } := by
    unfold fillsEnded
    rw [mine]
    dsimp only [each, List.foldl]
    rw [deadWaiters_of_none alone' waiters, itself, effect]
    rfl
  have regs' : u.regs = (sliceMarked m.die m.slice s).regs := by rw [same]; exact regs
  have failed : u.slc.failed = (sliceMarked m.die m.slice s).slc.failed := by
    rw [same]
    unfold filledIn
    simp
    rfl
  have part : slicePart { u with slc := { u.slc with mshrs := [], starve := list } } m.die m.slice = none :=
    (halfPart_of_regs regs' m.die (chanSide m.slice)).trans ((slicePart_sliceMarked m.die m.slice s).trans free)
  have acts : fillTimeout m.die m.slice m.la s = failSlice m.die m.slice 2 s := by
    rw [fillTimeout, findMshr_alone alone]
    exact if_neg mask
  refine completes_of_onDie (execFillTimeout m.die m.slice m.la s) rfl rfl hd ?_
  rw [onSlice, if_pos hn, acts, failSlice_of_works works, ended, sliceTold_of_none part]
  refine ⟨?_, rfl, ?_, l', there, sectors.trans (fillSectors_dead ..)⟩
  · exact (congrArg (List.contains · (m.die * 24 + m.slice)) failed).trans (sliceFailed_sliceMarked m.die m.slice s)
  · have was := rdBit_sliceMarked (d := m.die) (s := s) hn
    rw [State.rdBit, State.rd_of_regs regs'.symm] at was
    exact was

/-! ### SRAM errors -/

theorem completes_sliceSramError_dirty {sec : Nat} (hd : d < dieCount s.orderCode) (hn : n < 24)
    (found : findLine s d n la = some l) (inside : sec < l.sectors.length) (valid : (sectorAt l sec).valid = true)
    (dirty : (sectorAt l sec).dirty = true) : Completes (.sliceSramError d n 1 la sec) s (fun t =>
      (∃ l', findLine t d n la = some l' ∧ (sectorAt l' sec).poison = true ∧
        (sectorAt l' sec).data = (sectorAt l sec).data) ∧
      t.rd d (Reg.UC_ECC_UE n) = min (s.rd d (Reg.UC_ECC_UE n) + 1) (2 ^ 32 - 1) ∧
      RegsBut [(d, Reg.UC_ECC_UE n)] s t ∧ HandsOver d (0x10 + n) 0x040 0 s t) := by
  let x : Sector := { sectorAt l sec with poison := true }
  have found' : findLine (s.count d (Reg.UC_ECC_UE n) 1) d n la = some l := found
  have acts : sliceSramError d n 1 la sec s =
      poisonRecord d n la 0 (2 ^ sec) (putLine (setSector l sec x) (s.count d (Reg.UC_ECC_UE n) 1)) := by
    show dataError d n la sec s = _
    unfold dataError
    dsimp only
    rw [found']
    dsimp only
    exact (if_neg (by rw [valid]; decide)).trans (if_pos dirty)
  have own : isLine d n la (setSector l sec x) = true := isLine_of_found (l := l) found
  have at_ : sectorAt (setSector l sec x) sec = x := congrArg (Option.getD · noSector) (List.getElem?_set_self inside)
  refine completes_of_onDie (execSliceSramError d n 1 la sec s) rfl rfl hd ?_
  rw [onSlice, if_pos hn, acts]
  refine ⟨⟨setSector l sec x, findLine_putLine own _, ?_, ?_⟩,
    State.rd_count_same .., .of_regs (.count (.refl _ s) d (Reg.UC_ECC_UE n) 1 (.head _)) rfl,
    handsOver_emit _ _ _ _ _ _ rfl⟩
  · rw [at_]
  · rw [at_]

theorem completes_sliceSramError_corrected {sec : Nat} (hd : d < dieCount s.orderCode) (hn : n < 24) :
    Completes (.sliceSramError d n 0 la sec) s (fun t =>
      t.rd d (Reg.UC_ECC_CE n) = min (s.rd d (Reg.UC_ECC_CE n) + 1) (2 ^ 32 - 1) ∧
      RegsBut [(d, Reg.UC_ECC_CE n)] s t ∧ t.slc = s.slc) := by
  have kept := correctable_keeps (F := { noFrame with recs := True }) trivial d (0x10 + n) 0 n
    (.refl _ (s.count d (Reg.UC_ECC_CE n) 1))
  refine completes_of_onDie (execSliceSramError d n 0 la sec s) rfl rfl hd ?_
  rw [onSlice, if_pos hn]
  exact ⟨(State.rd_of_regs (kept.regs id) ..).trans (State.rd_count_same ..),
    .of_regs (.count (.refl _ s) d (Reg.UC_ECC_CE n) 1 (.head _)) (kept.regs id), kept.slc id⟩

/-! ### The half link -/

theorem completes_halfLinkCrossing_off {p : HalfPkt} (hd : d < dieCount s.orderCode)
    (off : s.rd d Reg.MESH_MODE_HLINK_ON = 0) : Completes (.halfLinkCrossing d p) s (fun t => t = s) :=
  completes_of_onDie (execHalfLinkCrossing d p s) rfl rfl hd (if_pos off)

theorem completes_halfLinkCrossing_passes {p : HalfPkt} (hd : d < dieCount s.orderCode)
    (on : s.rd d Reg.MESH_MODE_HLINK_ON ≠ 0) (passes : halfPasses s d p = true) :
    Completes (.halfLinkCrossing d p) s (fun t =>
      t.rd d (Reg.MESH_HLINK_FLITS (laneOf s d (p.src / 20))) =
        min (s.rd d (Reg.MESH_HLINK_FLITS (laneOf s d (p.src / 20))) + pktFlits p.kind) (2 ^ 48 - 1) ∧
      RegsBut [(d, Reg.MESH_HLINK_FLITS (laneOf s d (p.src / 20)))] s t ∧ t.recs = s.recs) := by
  have acts : halfLinkCrossing d p s = s.count d (Reg.MESH_HLINK_FLITS (laneOf s d (p.src / 20))) (pktFlits p.kind) :=
    (if_neg on).trans (if_pos passes)
  refine completes_of_onDie (execHalfLinkCrossing d p s) rfl rfl hd ?_
  rw [acts]
  exact ⟨State.rd_count_same .., .count (.refl _ s) d _ _ (.head _), rfl⟩

theorem completes_halfLinkCrossing_refused {p : HalfPkt} (hd : d < dieCount s.orderCode)
    (on : s.rd d Reg.MESH_MODE_HLINK_ON ≠ 0) (refused : halfPasses s d p = false) (write : p.write = true) :
    Completes (.halfLinkCrossing d p) s (fun t =>
      t.rd d Reg.UC_HLINK_DROP = min (s.rd d Reg.UC_HLINK_DROP + 1) (2 ^ 32 - 1) ∧
      RegsBut [(d, Reg.UC_HLINK_DROP)] s t ∧ HandsOver d 7 0x041 0 s t ∧ t.slc = s.slc) := by
  have acts : halfLinkCrossing d p s = halfRefuse d (laneOf s d (p.src / 20)) p.vc.code
      ((halfPart s d (clusterSide p.src)).getD 0) ((halfPart s d (clusterSide p.dst)).getD 0) p.line s :=
    (if_neg on).trans ((if_neg (ne_true_of_eq_false refused)).trans (if_pos write))
  refine completes_of_onDie (execHalfLinkCrossing d p s) rfl rfl hd ?_
  rw [acts]
  exact ⟨State.rd_count_same .., .of_regs (.count (.refl _ s) d _ _ (.head _)) rfl, handsOver_emit _ _ _ _ _ _ rfl, rfl⟩

/-! ### Pins -/

theorem rd_pinResult_result (d result done : Nat) (s : State) :
    (pinResult d result done s).rd d Reg.UC_PIN_STATUS_RESULT = result % 8 :=
  (State.rd_wr_apart rfl _ _ _ _).trans (State.rd_wr_same ..)

theorem rd_pinResult_done (d result done : Nat) (s : State) :
    (pinResult d result done s).rd d Reg.UC_PIN_STATUS_DONE = done % 2048 :=
  State.rd_wr_same ..

theorem length_pinLines (s : State) (d p lines : Nat) : (pinLines s d p lines).length ≤ lines :=
  (List.length_filterMap_le _ _).trans_eq List.length_range

/-- A command that nothing refuses names at most 1024 lines (Table UC-7). -/
theorem lines_le_of_pinRefusal {lines p : Nat} {src : Source} (goes : pinRefusal s d lines p src = none) :
    lines ≤ 1024 := by
  rw [pinRefusal] at goes
  by_cases far : 1024 < lines
  · rw [if_pos (by simp [far])] at goes
    cases goes
  · omega

/-- URGENT-PIN pins every line of its range or none; the order of its refusals and DONE are assumption log 32. -/
theorem completes_ucPin {lines p : Nat} {src : Source} (hd : d < dieCount s.orderCode)
    (goes : pinRefusal (pinCmd d 1 lines p s) d lines p src = none) : Completes (.ucPin d src lines p) s (fun t =>
      (pinAll d p (pinLines (pinCmd d 1 lines p s) d p lines) (pinCmd d 1 lines p s) = none →
        t.rd d Reg.UC_PIN_STATUS_RESULT = 1 ∧ t.rd d Reg.UC_PIN_STATUS_DONE = 0 ∧ t.slc = s.slc) ∧
      (∀ u, pinAll d p (pinLines (pinCmd d 1 lines p s) d p lines) (pinCmd d 1 lines p s) = some u →
        t.rd d Reg.UC_PIN_STATUS_RESULT = 0 ∧
        t.rd d Reg.UC_PIN_STATUS_DONE = (pinLines (pinCmd d 1 lines p s) d p lines).length ∧ t.slc = u.slc)) := by
  have few := (length_pinLines (pinCmd d 1 lines p s) d p lines).trans (lines_le_of_pinRefusal goes)
  refine completes_of_onDie (execUcPin d src lines p s) rfl rfl hd ⟨fun none_ => ?_, fun u all => ?_⟩
  · have acts : ucPin d src lines p s = pinResult d 1 0 (pinCmd d 1 lines p s) := by simp only [ucPin, goes, none_]
    rw [acts, rd_pinResult_result, rd_pinResult_done]
    exact ⟨rfl, rfl, rfl⟩
  · have acts : ucPin d src lines p s = pinResult d 0 (pinLines (pinCmd d 1 lines p s) d p lines).length u := by
      simp only [ucPin, goes, all]
    rw [acts, rd_pinResult_result, rd_pinResult_done]
    exact ⟨rfl, Nat.mod_eq_of_lt (by omega), rfl⟩

theorem completes_ucPin_bad {lines p : Nat} {src : Source} (hd : d < dieCount s.orderCode)
    (bad : lines = 0 ∨ 1024 < lines) :
    Completes (.ucPin d src lines p) s (fun t => t.rd d Reg.UC_PIN_STATUS_RESULT = 4 ∧ t.slc = s.slc) := by
  have refused : pinRefusal (pinCmd d 1 lines p s) d lines p src = some 4 := if_pos (by simpa using bad)
  have acts : ucPin d src lines p s = pinResult d 4 0 (pinCmd d 1 lines p s) := by simp only [ucPin, refused]
  refine completes_of_onDie (execUcPin d src lines p s) rfl rfl hd ?_
  rw [acts, rd_pinResult_result]
  exact ⟨rfl, rfl⟩

/-- What is pinned after a line's unpinning was pinned before, and is another line. -/
theorem isPinned_unpinOne {x y : Nat × Nat} (still : isPinned (unpinOne d x s) d y = true) :
    isPinned s d y = true ∧ y ≠ x := by
  unfold unpinOne at still
  split at still
  next l found =>
    split at still
    next pinned =>
      rw [isPinned, findLine_touchLine] at still
      by_cases other : isLine d y.1 y.2 l = true
      · have own : isLine d y.1 y.2 { l with pin := false, keep := false } = true := other
        rw [findLine_putLine own] at still
        obtain ⟨r, is⟩ := touched_eq l { l with pin := false, keep := false }
        rw [Option.map_some, is] at still
        cases still
      · have apart : isLine d y.1 y.2 { l with pin := false, keep := false } = false := Bool.eq_false_iff.mpr other
        rw [findLine_putLine_apart apart] at still
        refine ⟨?_, fun same => other (same ▸ isLine_of_found found)⟩
        rw [isPinned]
        cases there : findLine s d y.1 y.2 with
        | none => rw [there] at still; cases still
        | some z =>
          obtain ⟨r, is⟩ := touched_eq l z
          rw [there, Option.map_some, is] at still
          exact still
    next free =>
      refine ⟨still, fun same => free ?_⟩
      rw [isPinned, same, found] at still
      exact still
  next none_ =>
    refine ⟨still, fun same => ?_⟩
    rw [isPinned, same, none_] at still
    cases still

theorem isPinned_each_unpinOne {ls : List (Nat × Nat)} {y : Nat × Nat}
    (still : isPinned (each ls (fun s x => unpinOne d x s) s) d y = true) : isPinned s d y = true ∧ y ∉ ls := by
  induction ls generalizing s with
  | nil => exact ⟨still, List.not_mem_nil⟩
  | cons x ls ih =>
    obtain ⟨before, later⟩ := ih (s := unpinOne d x s) still
    obtain ⟨first, other⟩ := isPinned_unpinOne before
    exact ⟨first, fun member => (List.mem_cons.mp member).elim other later⟩

theorem hbm_unpinOne (d : Nat) (x : Nat × Nat) (s : State) : (unpinOne d x s).slc.hbm = s.slc.hbm := by
  unfold unpinOne
  split
  · split <;> rfl
  · rfl

theorem completes_ucUnpin {lines p : Nat} {src : Source} (hd : d < dieCount s.orderCode)
    (goes : pinRefusal (pinCmd d 2 lines p s) d lines p src = none) : Completes (.ucUnpin d src lines p) s (fun t =>
      t.rd d Reg.UC_PIN_STATUS_RESULT = 0 ∧
      (∀ x ∈ pinLines (pinCmd d 2 lines p s) d p lines, isPinned t d x = false) ∧ t.slc.hbm = s.slc.hbm) := by
  let pinned := (pinLines (pinCmd d 2 lines p s) d p lines).filter (isPinned (pinCmd d 2 lines p s) d)
  have acts : ucUnpin d src lines p s = pinResult d 0 pinned.length
      (each pinned (fun s x => unpinOne d x s) (pinCmd d 2 lines p s)) := by simp only [ucUnpin, goes, pinned]
  have hbm : (each pinned (fun s x => unpinOne d x s) (pinCmd d 2 lines p s)).slc.hbm = s.slc.hbm :=
    each_induction (P := fun t => t.slc.hbm = s.slc.hbm) (fun t x _ h => (hbm_unpinOne d x t).trans h) rfl
  refine completes_of_onDie (execUcUnpin d src lines p s) rfl rfl hd ?_
  rw [acts, rd_pinResult_result]
  refine ⟨rfl, fun x listed => Bool.eq_false_iff.mpr fun still => ?_, hbm⟩
  obtain ⟨before, gone⟩ := isPinned_each_unpinOne (s := pinCmd d 2 lines p s) still
  exact gone (List.mem_filter.mpr ⟨listed, before⟩)

/-- Settles O33: a failed slice is marked, its fills end (`fillReturn_home`) and its partition faults (`failSlice_of_works`);
an unpinned line is pinned no more (`isPinned_unpinOne`). The order of UC_PIN's refusals and DONE, the half link that is
off, and its flit count are assumption logs 32, 58 and 85. -/
theorem sliceFailuresAndPins : Obligations.SliceFailuresAndPins :=
  ⟨⟨fun _ _ _ => completes_channelFailure, fun _ _ _ _ _ _ => completes_fillTimeout,
      fun _ _ _ _ _ _ => completes_sliceSramError_dirty, fun _ _ _ _ _ => completes_sliceSramError_corrected⟩,
    fun _ _ _ => completes_halfLinkCrossing_off, fun _ _ _ => completes_halfLinkCrossing_passes,
    fun _ _ _ => completes_halfLinkCrossing_refused, fun _ _ _ _ _ => completes_ucPin,
    fun _ _ _ _ _ => completes_ucUnpin, fun _ _ _ _ _ => completes_ucPin_bad⟩

end Sys2Proof.Machine
end


section
/-! PROOFS. RED packets combine at their places, move on, and accumulate at their slices (R312, R313, R316, R317, R321,
R322). -/

namespace Sys2Proof.Machine

variable {d c n : Nat} {p : RedPkt} {f : RedFlight} {k : RedKey} {s : State}

/-! ### Two packets combined -/

theorem combine_key (a b : RedPkt) : (combine a b).key = a.key := by
  simp only [combine, longForm]
  split <;> [split; skip] <;> rfl

theorem combine_count (a b : RedPkt) : (combine a b).count = a.count := by
  simp only [combine, longForm]
  split <;> [split; skip] <;> rfl

theorem longForm_contrib (a : RedPkt) : (longForm a).contrib = a.contrib := by
  unfold longForm
  split <;> rfl

theorem combine_contrib (a b : RedPkt) : (combine a b).contrib = a.contrib + b.contrib := by
  have kept (x : Bool) (a : RedPkt) : (if x then longForm a else a).contrib = a.contrib := by
    split
    · exact longForm_contrib a
    · rfl
  exact congrArg₂ (· + ·) (kept ..) (kept ..)

/-! ### Entries -/

/-- Whether an entry holds key `k` at place `w`. -/
def holdsKey (w : RedPlace) (k : RedKey) (c : Combine) : Bool := c.place == w && c.pkt.key == k

theorem holdsKey_iff {w : RedPlace} {x : Combine} : holdsKey w k x = true ↔ x.place = w ∧ x.pkt.key = k := by
  simp only [holdsKey, Bool.and_eq_true, beq_iff_eq]

theorem holdsKey_of_found {w : RedPlace} {x : Combine} (found : findCombine s w k = some x) : x.place = w ∧ x.pkt.key = k :=
  holdsKey_iff.mp (List.find?_some (p := holdsKey w k) found)

theorem findCombine_putCombine {w : RedPlace} {x : Combine} (own : x.place = w ∧ x.pkt.key = k) (s : State) :
    findCombine (putCombine x s) w k = some x := by
  obtain ⟨rfl, rfl⟩ := own
  exact find?_putWhere_same (p := holdsKey x.place x.pkt.key) s.net.combine (holdsKey_iff.mpr ⟨rfl, rfl⟩)

theorem findCombine_dropCombine {w : RedPlace} {x : Combine} (own : x.place = w ∧ x.pkt.key = k) (s : State) :
    findCombine (dropCombine x s) w k = none := by
  obtain ⟨rfl, rfl⟩ := own
  refine List.find?_eq_none.mpr fun y kept => ?_
  intro is
  have other := (List.mem_filter.mp kept).2
  have same : (y.place == x.place && y.pkt.key == x.pkt.key) = true := is
  rw [same] at other
  cases other

/-- What an arriving packet makes of the entry of its key. -/
def joined (e : Combine) (p : RedPkt) : Combine :=
  { e with pkt := combine e.pkt p, kids := if p.prev = 0x1FF then e.kids else addNat e.kids p.prev }

/-- The entry that an arriving packet opens. -/
def opened (w : RedPlace) (f : RedFlight) (p : RedPkt) : Combine :=
  ⟨w, p, if p.prev = 0x1FF then [] else [p.prev], f.todo.drop 1⟩

/-- A free-mode packet that meets an entry of its key combines with it, and the entry keeps its way (assumption log
119). -/
theorem completes_redPacket_meets {e : Combine} (hd : d < dieCount s.orderCode) (free : p.fixed = false)
    (arrives : redArrives s (some (.router d c)) p = some f) (found : findCombine s (.router d c) p.key = some e)
    (more : (combine e.pkt p).contrib < (combine e.pkt p).count) :
    Completes (.redPacket (.router d c) ⟨p, false⟩) s (fun t =>
      (∃ e', findCombine t (.router d c) p.key = some e' ∧ e'.pkt = combine e.pkt p ∧
        e'.pkt.contrib = e.pkt.contrib + p.contrib ∧ e'.todo = e.todo) ∧
      t.net.redNet = s.net.redNet.erase f ∧
      t.rd d Reg.RED_COMBINES = min (s.rd d Reg.RED_COMBINES + 1) (2 ^ 48 - 1) ∧
      RegsBut [(d, Reg.RED_COMBINES)] s t ∧ t.slc = s.slc) := by
  have there : findCombine (takeRed f s) (.router d c) p.key = some e := found
  have acts : redPacket (.router d c) p false s = putCombine (joined e p) ((takeRed f s).count d Reg.RED_COMBINES 1) := by
    unfold redPacket
    rw [arrives]
    dsimp only
    rw [there]
    simp only [free, Bool.false_and, Bool.false_eq_true, if_false, Bool.not_false, Bool.true_and, decide_eq_true_eq]
    exact if_neg (Nat.not_le.mpr more)
  have own : (joined e p).place = .router d c ∧ (joined e p).pkt.key = p.key := by
    obtain ⟨place, key⟩ := holdsKey_of_found found
    exact ⟨place, (combine_key ..).trans key⟩
  refine completes_of_onDie (execRedPacket (.router d c) ⟨p, false⟩ s) rfl rfl hd ?_
  rw [acts]
  exact ⟨⟨_, findCombine_putCombine own _, rfl, combine_contrib .., rfl⟩, rfl, State.rd_count_same ..,
    .of_regs (.count (.refl _ s) d Reg.RED_COMBINES 1 (.head _)) rfl, rfl⟩

theorem completes_redPacket_opens (hd : d < dieCount s.orderCode) (free : p.fixed = false)
    (arrives : redArrives s (some (.router d c)) p = some f) (none_ : findCombine s (.router d c) p.key = none)
    (room : (entriesAt s (.router d c)).length < 32) (more : p.contrib < p.count) :
    Completes (.redPacket (.router d c) ⟨p, false⟩) s (fun t =>
      (∃ e', findCombine t (.router d c) p.key = some e' ∧ e'.pkt = p ∧ e'.todo = f.todo.drop 1) ∧
      t.net.redNet = s.net.redNet.erase f ∧ t.regs = s.regs ∧ t.slc = s.slc) := by
  have there : findCombine (takeRed f s) (.router d c) p.key = none := none_
  have acts : redPacket (.router d c) p false s = putCombine (opened (.router d c) f p) (takeRed f s) := by
    unfold redPacket
    rw [arrives]
    dsimp only
    rw [there]
    simp only [free, Bool.false_and, Bool.false_eq_true, if_false, Bool.not_false, Bool.true_and, decide_eq_true_eq]
    exact (if_pos room).trans (if_neg (Nat.not_le.mpr more))
  refine completes_of_onDie (execRedPacket (.router d c) ⟨p, false⟩ s) rfl rfl hd ?_
  rw [acts]
  exact ⟨⟨_, findCombine_putCombine ⟨rfl, rfl⟩ _, rfl, rfl⟩, rfl, rfl, rfl⟩

/-! ### Ways that meet no half link -/

/-- A packet that goes on by one place without a lane is in flight again. -/
theorem sendRed_free {w : RedPlace} {todo : List RedPlace} (free : p.fixed = false)
    (walks : redWalk p (some p.src) (some p.dst) w (todo.take 1) s = (true, s)) :
    sendRed w p todo s = { s with net := { s.net with redNet := s.net.redNet ++ [⟨p, w, todo⟩] } } := by
  simp only [sendRed, free, Bool.false_eq_true, if_false, walks, if_true]

/-- A packet of a tree that meets no lane is on its way to its node, or to its destination. -/
theorem sendRed_fixed {w : RedPlace} {todo : List RedPlace} (fixed : p.fixed = true)
    (walks : redWalk p (placeDie w) (placeDie ((nodePlace s p).headD (slicePlace s p))) w
      (routeTo s p.key.part w ((nodePlace s p).headD (slicePlace s p))) s = (true, s)) :
    sendRed w p todo s = { s with net := { s.net with redNet := s.net.redNet ++ [⟨p, w, nodePlace s p⟩] } } := by
  simp only [sendRed, fixed, if_true, walks]

theorem pastNode_free (free : p.fixed = false) (s : State) : pastNode s p = p := by
  rw [pastNode, free]

/-- A packet in a place that can hold no more passes through (assumption log 119). -/
theorem completes_redPacket_passes (hd : d < dieCount s.orderCode) (free : p.fixed = false)
    (arrives : redArrives s (some (.router d c)) p = some f) (none_ : findCombine s (.router d c) p.key = none)
    (full : 32 ≤ (entriesAt s (.router d c)).length) (last : f.todo = [.router d c]) :
    Completes (.redPacket (.router d c) ⟨p, false⟩) s (fun t =>
      t.net.combine = s.net.combine ∧ t.net.redNet = s.net.redNet.erase f ++ [⟨p, .router d c, []⟩] ∧
      t.rd d Reg.RED_PASS = min (s.rd d Reg.RED_PASS + 1) (2 ^ 48 - 1) ∧ RegsBut [(d, Reg.RED_PASS)] s t) := by
  have there : findCombine (takeRed f s) (.router d c) p.key = none := none_
  have acts : redPacket (.router d c) p false s =
      sendRed (.router d c) p [] ((takeRed f s).count d Reg.RED_PASS 1) := by
    unfold redPacket
    rw [arrives]
    dsimp only
    rw [there]
    refine (if_neg (Nat.not_lt.mpr full)).trans ?_
    rw [passThrough, pastNode_free free, last]
    rfl
  refine completes_of_onDie (execRedPacket (.router d c) ⟨p, false⟩ s) rfl rfl hd ?_
  rw [acts, sendRed_free free rfl]
  exact ⟨rfl, rfl, State.rd_count_same .., .of_regs (.count (.refl _ s) d Reg.RED_PASS 1 (.head _)) rfl⟩

theorem forwardEntry_free {x : Combine} {e : Nat} {l : List RedPlace} (place : x.place = .router d c)
    (free : x.pkt.fixed = false) (todo : x.todo = .router d e :: l) (side : clusterSide c = clusterSide e) :
    forwardEntry x s = { dropCombine x s with net := { (dropCombine x s).net with
      redNet := s.net.redNet ++ [⟨x.pkt, .router d c, x.todo⟩] } } := by
  have step : laneStep (dropCombine x s) (.router d c) (.router d e) = none := by
    simp [laneStep, side]
  rw [forwardEntry, pastNode_free free, place, sendRed_free free]
  · rfl
  · rw [todo]
    simp only [List.take_succ_cons, List.take_zero, redWalk, redStep, step]

theorem completes_redHoldExpiry {e : Nat} {x : Combine} {l : List RedPlace} (hd : d < dieCount s.orderCode)
    (found : findCombine s (.router d c) k = some x) (free : x.pkt.fixed = false) (todo : x.todo = .router d e :: l)
    (side : clusterSide c = clusterSide e) :
    Completes (.redHoldExpiry (.router d c) k) s (fun t =>
      findCombine t (.router d c) k = none ∧ t.net.redNet = s.net.redNet ++ [⟨x.pkt, .router d c, x.todo⟩] ∧
      t.regs = s.regs ∧ t.slc = s.slc) := by
  have own := holdsKey_of_found found
  have acts : redHoldExpiry (.router d c) k s = forwardEntry x s := by
    simp only [redHoldExpiry, found, free, Bool.false_eq_true, if_false]
  refine completes_of_onDie (execRedHoldExpiry (.router d c) k s) rfl rfl hd ?_
  rw [acts, forwardEntry_free own.1 free todo side]
  exact ⟨findCombine_dropCombine own s, rfl, rfl, rfl⟩

/-- A place whose die's half link, if it is a router, is not on. -/
def NoLane (s : State) : RedPlace → Prop
  | .router d _ => s.rd d Reg.MESH_MODE_HLINK_ON ≠ 1
  | .spine _ _ => True

theorem redWalk_of_noLane {sd dd : Option Nat} {x : RedPlace} {l : List RedPlace} (first : NoLane s x)
    (rest : ∀ y ∈ l, NoLane s y) : redWalk p sd dd x l s = (true, s) := by
  induction l generalizing x with
  | nil => rfl
  | cons y l ih =>
    have step : laneStep s x y = none := by
      unfold laneStep
      split
      next d a e b =>
        have off : s.rd d Reg.MESH_MODE_HLINK_ON ≠ 1 := first
        simp [off]
      next => rfl
    simp only [redWalk, redStep, step]
    exact ih (rest y (.head _)) fun z hz => rest z (.tail _ hz)

theorem noLane_onDieRoute (off : s.rd d Reg.MESH_MODE_HLINK_ON ≠ 1) (a b : Nat) :
    ∀ y ∈ onDieRoute s d a b, NoLane s y := by
  intro y listed
  obtain ⟨r, -, rfl⟩ := List.mem_map.mp listed
  exact off

/-- A route passes no router of a die other than those of its two ends. -/
theorem noLane_routeTo {part a : Nat} (off : s.rd d Reg.MESH_MODE_HLINK_ON ≠ 1) {w : RedPlace} (goal : NoLane s w) :
    ∀ y ∈ routeTo s part (.router d a) w, NoLane s y := by
  intro y listed
  cases w with
  | router e b =>
    have goal' : s.rd e Reg.MESH_MODE_HLINK_ON ≠ 1 := goal
    rw [routeTo] at listed
    dsimp only at listed
    split at listed
    · exact noLane_onDieRoute off _ _ y listed
    · split at listed
      · obtain first | rest := List.mem_append.mp listed
        · exact noLane_onDieRoute off _ _ y first
        · obtain rfl | later := List.mem_cons.mp rest
          · exact goal
          · exact noLane_onDieRoute goal' _ _ y later
      · obtain first | rest := List.mem_append.mp listed
        · exact noLane_onDieRoute off _ _ y first
        · obtain rfl | later := List.mem_cons.mp rest
          · exact trivial
          · obtain rfl | last := List.mem_cons.mp later
            · exact goal
            · exact noLane_onDieRoute goal' _ _ y last
  | spine q r =>
    rw [routeTo] at listed
    obtain first | last := List.mem_append.mp listed
    · exact noLane_onDieRoute off _ _ y first
    · obtain rfl := List.mem_singleton.mp last
      exact trivial

/-! ### Trees -/

/-- A tree node's packet reaches its parent's node, or its destination, where no half link stands in between. -/
theorem completes_treeNodeForward {elapsed : Nat} {x : Combine} {r : RTree} (hd : d < dieCount s.orderCode)
    (found : findCombine s (.router d c) k = some x) (fixed : x.pkt.fixed = true) (key : x.pkt.key = k)
    (tree : treeOf s k.part k.tag = some r)
    (due : x.pkt.count ≤ x.pkt.contrib ∨ 16 * s.rd d Reg.RED_HOLD_TREE ≤ elapsed)
    (off : (allDies s).all (fun e => Nat.beq (s.rd e Reg.MESH_MODE_HLINK_ON) 0) = true)
    (nodes : ∀ n ∈ r.nodes, n.kind = 0 → n.loc < dieCount s.orderCode) (dst : x.pkt.dst < dieCount s.orderCode) :
    Completes (.treeNodeForward (.router d c) k elapsed) s (fun t =>
      findCombine t (.router d c) k = none ∧
      t.net.redNet = s.net.redNet ++ [⟨{ x.pkt with prev := x.pkt.node, node := nextNode r x.pkt.node }, .router d c,
        ((r.nodes[nextNode r x.pkt.node]?).map RNode.place).toList⟩] ∧ t.regs = s.regs ∧ t.slc = s.slc) := by
  have own := holdsKey_of_found found
  have acts : treeNodeForward (.router d c) k elapsed s = forwardEntry x s := by
    simp only [treeNodeForward, found, fixed, tree]
    refine if_pos ?_
    simp only [Bool.or_eq_true, decide_eq_true_eq, Nat.ble_eq]
    exact due.elim (.inl ∘ .inl) .inr
  have open_ (e : Nat) (he : e < dieCount s.orderCode) : (dropCombine x s).rd e Reg.MESH_MODE_HLINK_ON ≠ 1 := by
    have zero := Nat.eq_of_beq_eq_true (List.all_eq_true.mp off e (mem_allDies.mpr he))
    have same : (dropCombine x s).rd e Reg.MESH_MODE_HLINK_ON = 0 := zero
    omega
  let q : RedPkt := { x.pkt with prev := x.pkt.node, node := nextNode r x.pkt.node }
  have own_tree : treeOf s x.pkt.key.part x.pkt.key.tag = some r := by rw [key, tree]
  have past : pastNode s x.pkt = q := by
    rw [pastNode, fixed, own_tree]
    exact congrArg (fun b => { q with fixed := b }) fixed.symm
  have goal : nodePlace (dropCombine x s) q = ((r.nodes[nextNode r x.pkt.node]?).map RNode.place).toList := by
    have tree' : treeOf (dropCombine x s) q.key.part q.key.tag = some r := own_tree
    rw [nodePlace, tree']
    rfl
  have target : NoLane (dropCombine x s) ((nodePlace (dropCombine x s) q).headD (slicePlace (dropCombine x s) q)) := by
    rw [goal]
    cases node : r.nodes[nextNode r x.pkt.node]? with
    | none => exact open_ _ dst
    | some y =>
      show NoLane _ y.place
      unfold RNode.place
      split
      next router => exact open_ _ (nodes y (List.mem_of_getElem? node) router)
      next => exact trivial
  have walks := redWalk_of_noLane (p := q) (sd := some d)
    (dd := placeDie ((nodePlace (dropCombine x s) q).headD (slicePlace (dropCombine x s) q)))
    (show NoLane (dropCombine x s) (.router d c) from open_ d hd)
    (noLane_routeTo (part := q.key.part) (a := c) (open_ d hd) target)
  have fixed' : q.fixed = true := fixed
  have forwards : forwardEntry x s = { dropCombine x s with net := { (dropCombine x s).net with
      redNet := s.net.redNet ++ [⟨q, .router d c, nodePlace (dropCombine x s) q⟩] } } := by
    rw [forwardEntry, past, own.1, sendRed_fixed (s := dropCombine x s) (w := .router d c) fixed' walks]
    rfl
  refine completes_of_onDie (execTreeNodeForward (.router d c) k elapsed s) rfl rfl hd ?_
  rw [acts, forwards, goal]
  exact ⟨findCombine_dropCombine own s, rfl, rfl, rfl⟩

/-! ### Accumulation -/

/-- What a slice that a free-mode packet reaches has to do with it. -/
structure Reaches (d n : Nat) (p : RedPkt) (f : RedFlight) (s : State) : Prop where
  free : p.fixed = false
  arrives : redArrives s none p = some f
  die : homeDie (p.key.sector * 32) = d
  chan : homeChan s (p.key.sector * 32) = some n
  part : homePart s (p.key.sector * 32) = some p.key.part
  fresh : incLower p.incarn.toNat (s.rd p.src Reg.DC_INCARNATION) = false

/-- The slice takes packets, and this one leaves the network. -/
def accepts (d n : Nat) (f : RedFlight) (s : State) : State := setStall d n false (takeRed f s)

theorem redAccumulate_of_reaches (h : Reaches d n p f s) (goes : redStalled s d n = false) :
    redAccumulate d n p false s = match accumulate d n p false (accepts d n f s) with
      | some t => t
      | none => if (findAccum s d n p.key).isNone && Nat.ble 512 (openAccums s d n) then setStall d n true s else s := by
  obtain ⟨free, arrives, die, chan, part, -⟩ := h
  have here : ¬(homeDie (p.key.sector * 32) ≠ d ∨ homeChan s (p.key.sector * 32) ≠ some n ∨ redStalled s d n = true) := by
    rw [die, chan, goes]
    simp
  have own : ¬homePart (setStall d n false (takeRed f s)) (p.key.sector * 32) ≠ some p.key.part := fun not_ => not_ part
  unfold redAccumulate
  dsimp only
  rw [arrives]
  dsimp only
  rw [if_neg (by simpa [and_assoc] using here), if_neg own, free]
  rfl

theorem regsBut_peak {l : List (Nat × Fld)} {u : State} (h : RegsBut l s u) (d : Nat) (f : Fld) (v : Nat)
    (touched : (d, f) ∈ l) : RegsBut l s (u.peak d f v) := by
  unfold State.peak
  split
  · exact h.wr d f _ touched
  · exact h

/-- A group that the packet opens. -/
def groupOf (d n : Nat) (p : RedPkt) : Accum := ⟨d, n, p, [p.inst]⟩

theorem completes_redAccumulate_opens (hd : d < dieCount s.orderCode) (h : Reaches d n p f s)
    (none_ : findAccum s d n p.key = none) (room : openAccums s d n < 512) (more : p.contrib < p.count) :
    Completes (.redAccumulate d n ⟨p, false⟩) s (fun t =>
      t.net.accum = s.net.accum ++ [⟨d, n, p, [p.inst]⟩] ∧ t.net.redNet = s.net.redNet.erase f ∧
      t.net.redStall.contains (d * 24 + n) = false ∧ RegsBut [(d, Reg.RED_OPEN_PEAK n)] s t ∧ t.slc = s.slc) := by
  have goes : redStalled s d n = false := by simp [redStalled, room]
  have there : findAccum (accepts d n f s) d n p.key = none := none_
  have fresh : incLower p.incarn.toNat ((accepts d n f s).rd p.src Reg.DC_INCARNATION) = false := h.fresh
  let u : State := { accepts d n f s with net := { (accepts d n f s).net with
    accum := s.net.accum ++ [groupOf d n p] } }
  have taken : accumulate d n p false (accepts d n f s) =
      some (u.peak d (Reg.RED_OPEN_PEAK n) (openAccums u d n)) := by
    unfold accumulate
    rw [if_neg (by rw [fresh]; exact Bool.false_ne_true), there]
    dsimp only
    rw [if_neg (Nat.not_le.mpr (show openAccums (accepts d n f s) d n < 512 from room)),
      if_neg (Nat.lt_asymm more), if_neg (Nat.ne_of_lt more)]
    rfl
  have acts := redAccumulate_of_reaches h goes
  rw [taken] at acts
  refine completes_of_onDie (execRedAccumulate d n ⟨p, false⟩ s) rfl rfl hd ?_
  rw [acts]
  dsimp only
  have same : RegsBut [(d, Reg.RED_OPEN_PEAK n)] s u := .of_regs (.refl _ s) rfl
  rw [State.peak_net, State.peak_slc]
  exact ⟨rfl, rfl, contains_delNat _ _, regsBut_peak same d _ _ (.head _), rfl⟩

/-- The input of a slice whose groups are all open stalls (R320). -/
theorem completes_redAccumulate_stalls (hd : d < dieCount s.orderCode) (h : Reaches d n p f s)
    (none_ : findAccum s d n p.key = none) (full : 512 ≤ openAccums s d n) :
    Completes (.redAccumulate d n ⟨p, false⟩) s (fun t =>
      t.net.redStall.contains (d * 24 + n) = true ∧ t.net.redNet = s.net.redNet ∧ t.net.accum = s.net.accum ∧
      t.regs = s.regs ∧ t.slc = s.slc) := by
  refine completes_of_onDie (execRedAccumulate d n ⟨p, false⟩ s) rfl rfl hd ?_
  cases stalled : redStalled s d n with
  | true =>
    have stays : redAccumulate d n p false s = s := by
      unfold redAccumulate
      dsimp only
      rw [h.arrives]
      exact if_pos (by simp [stalled])
    rw [stays]
    exact ⟨(Bool.and_eq_true_iff.mp stalled).1, rfl, rfl, rfl, rfl⟩
  | false =>
    have there : findAccum (accepts d n f s) d n p.key = none := none_
    have fresh : incLower p.incarn.toNat ((accepts d n f s).rd p.src Reg.DC_INCARNATION) = false := h.fresh
    have waits : accumulate d n p false (accepts d n f s) = none := by
      unfold accumulate
      rw [if_neg (by rw [fresh]; exact Bool.false_ne_true), there]
      exact if_pos (show 512 ≤ openAccums (accepts d n f s) d n from full)
    have acts := redAccumulate_of_reaches h stalled
    rw [waits, none_] at acts
    rw [acts]
    dsimp only
    rw [if_pos (by rw [Nat.ble_eq.mpr full]; rfl)]
    exact ⟨contains_addNat_same _ _, rfl, rfl, rfl, rfl⟩

/-- The first element found put in another's place. -/
theorem find?_updWhere_found {α : Type} [BEq α] [LawfulBEq α] {q : α → Bool} {a b : α} {l : List α}
    (found : l.find? q = some a) (new : q b = true) : (updWhere (fun x => x == a) (fun _ => b) l).find? q = some b := by
  have old : q a = true := List.find?_some found
  have test : (q ∘ fun x => if (x == a) = true then b else x) = q := funext fun x => by
    show q (if (x == a) = true then b else x) = q x
    split
    next same => rw [new, beq_iff_eq.mp same, old]
    next => rfl
  rw [updWhere, List.find?_map, test, found, Option.map_some, if_pos (beq_self_eq_true a)]

/-- A group that the packet adds to. -/
def grownBy (a : Accum) (p : RedPkt) : Accum := { a with pkt := combine a.pkt p, insts := addNat a.insts p.inst }

/-- Whether a group is that of key `k` at a slice. -/
def isGroup (d n : Nat) (k : RedKey) (a : Accum) : Bool := Nat.beq a.die d && Nat.beq a.slice n &&
  Nat.beq a.pkt.key.part k.part && Nat.beq a.pkt.key.tag k.tag && Nat.beq a.pkt.key.sector k.sector

theorem completes_redAccumulate_adds {a : Accum} (hd : d < dieCount s.orderCode) (h : Reaches d n p f s)
    (goes : redStalled s d n = false) (found : findAccum s d n p.key = some a) (count : a.pkt.count = p.count)
    (key : a.pkt.key = p.key) (more : a.pkt.contrib + p.contrib < p.count) :
    Completes (.redAccumulate d n ⟨p, false⟩) s (fun t =>
      (∃ b, findAccum t d n p.key = some b ∧ b.pkt = combine a.pkt p ∧ p.inst ∈ b.insts) ∧ t.regs = s.regs ∧
      t.slc = s.slc) := by
  have there : findAccum (accepts d n f s) d n p.key = some a := found
  have fresh : incLower p.incarn.toNat ((accepts d n f s).rd p.src Reg.DC_INCARNATION) = false := h.fresh
  have open_ : (grownBy a p).pkt.contrib ≠ (grownBy a p).pkt.count := by
    show (combine a.pkt p).contrib ≠ (combine a.pkt p).count
    rw [combine_contrib, combine_count]
    omega
  let u : State := { accepts d n f s with net := { (accepts d n f s).net with
    accum := updWhere (fun x => x == a) (fun _ => grownBy a p) s.net.accum } }
  have taken : accumulate d n p false (accepts d n f s) = some u := by
    unfold accumulate
    rw [if_neg (by rw [fresh]; exact Bool.false_ne_true), there]
    dsimp only
    rw [if_neg Bool.false_ne_true, if_neg (by simp [count, key]), if_neg (by omega)]
    exact if_neg open_
  have acts := redAccumulate_of_reaches h goes
  rw [taken] at acts
  have same : isGroup d n p.key (grownBy a p) = isGroup d n p.key a := by
    show (_ && Nat.beq (combine a.pkt p).key.part p.key.part && Nat.beq (combine a.pkt p).key.tag p.key.tag &&
      Nat.beq (combine a.pkt p).key.sector p.key.sector) = _
    rw [combine_key]
    rfl
  have shows : findAccum u d n p.key = some (grownBy a p) :=
    find?_updWhere_found (q := isGroup d n p.key) found (same.trans (List.find?_some (p := isGroup d n p.key) found))
  refine completes_of_onDie (execRedAccumulate d n ⟨p, false⟩ s) rfl rfl hd ?_
  rw [acts]
  exact ⟨⟨_, shows, rfl, List.mem_of_elem_eq_true (contains_addNat_same a.insts p.inst)⟩, rfl, rfl⟩

/-! ### Time-outs -/

/-- A broken group's counter and record; what the partition makes of it follows. -/
theorem completes_redTimeout {a : Accum} (hd : d < dieCount s.orderCode) (found : findAccum s d n k = some a) :
    Completes (.redTimeout d n k) s (fun t =>
      t.net.accum = s.net.accum.erase a ∧
      ((imgParts s).contains a.pkt.key.part = true → t.prt.faulted.contains a.pkt.key.part = true) ∧
      (s.prt.faulted.contains a.pkt.key.part = true → HandsOver d 8 0x061 3 s t ∧
        t.rd d Reg.RED_BROKEN = min (s.rd d Reg.RED_BROKEN + 1) (2 ^ 32 - 1) ∧ RegsBut [(d, Reg.RED_BROKEN)] s t)) := by
  have own : isGroup d n k a = true := List.find?_some (p := isGroup d n k) found
  obtain rfl : a.die = d := by
    simp only [isGroup, Bool.and_eq_true, Nat.beq_eq] at own
    exact own.1.1.1.1
  have acts : redTimeout a.die n k s = redBreak a 2 s := by rw [redTimeout, found]
  let v : State := { s with net := { s.net with accum := s.net.accum.erase a } }
  let u : State := poisonSector (a.pkt.key.sector * 32) v
  have kept : Keeps { noFrame with slc := True, hbm := True } v u := poisonSector_keeps trivial trivial _ (.refl _ v)
  let told : State := emit a.die 8 0x061 3 (partSealed (u.count a.die Reg.RED_BROKEN 1) a.pkt.key.part)
    [pf 1 a.pkt.key.part, pf 1 a.pkt.key.op, pf 2 a.pkt.key.tag, pf 1 2, pf 1 0, pa_ 2 a.pkt.contrib, pa_ 2 a.pkt.count,
      pf 6 0, pa_ 8 (a.pkt.key.sector * 32)] (u.count a.die Reg.RED_BROKEN 1)
  let seq := nextSeq (u.count a.die Reg.RED_BROKEN 1) a.die
  have breaks : redBreak a 2 s = partFault a.pkt.key.part 0x04 a.die 0x061 seq told := rfl
  have after := partFault_keeps_rest a.pkt.key.part 0x04 a.die 0x061 seq told
  refine completes_of_onDie (execRedTimeout a.die n k s) rfl rfl hd ?_
  rw [acts, breaks]
  refine ⟨?_, fun named => ?_, fun faulted => ?_⟩
  · rw [after.net id]
    exact congrArg (·.accum) (kept.net id)
  · have named' : (imgParts told).contains a.pkt.key.part = true := by
      have same : told.img = s.img := kept.img id
      rw [imgParts_of_img same]
      exact named
    rw [faulted_partFault (.inr named')]
    exact contains_addNat_same _ _
  · have already : told.prt.faulted.contains a.pkt.key.part = true := by
      have same : told.prt = s.prt := kept.prt id
      rw [same]
      exact faulted
    have stays : partFault a.pkt.key.part 0x04 a.die 0x061 seq told = told := by
      rw [partFault, already]
      exact if_pos (Bool.true_or _)
    have counted : told.rd a.die Reg.RED_BROKEN = min (u.rd a.die Reg.RED_BROKEN + 1) (2 ^ 32 - 1) :=
      State.rd_count_same ..
    rw [stays]
    refine ⟨handsOver_emit _ _ _ _ _ _ (congrArg (·.waiting) (kept.recs id)), ?_, ?_⟩
    · rw [counted, State.rd_of_regs (kept.regs id)]
      rfl
    · have same : RegsBut [(a.die, Reg.RED_BROKEN)] s u := .of_regs (.refl _ s) (kept.regs id)
      exact .of_regs (same.count a.die Reg.RED_BROKEN 1 (.head _)) rfl

/-- Settles O36: packets of a key meet in its entry (`findCombine_putCombine`), one that meets no lane is in flight again
(`sendRed_free`, `noLane_routeTo`), and a slice accumulates what reaches it (`redAccumulate_of_reaches`). That an entry keeps
its way and that a packet in free mode stops at every router are assumption log 119. -/
theorem reductions : Obligations.Reductions :=
  ⟨⟨fun _ _ _ _ _ _ => completes_redPacket_meets, fun _ _ _ _ _ => completes_redPacket_opens,
      fun _ _ _ _ _ => completes_redPacket_passes, fun _ _ _ _ _ _ _ => completes_redHoldExpiry,
      fun _ _ _ _ _ _ _ => completes_treeNodeForward⟩,
    fun _ _ _ _ _ hd free arrives die chan part fresh =>
      completes_redAccumulate_opens hd ⟨free, arrives, die, chan, part, fresh⟩,
    fun _ _ _ _ _ hd free arrives die chan part fresh =>
      completes_redAccumulate_stalls hd ⟨free, arrives, die, chan, part, fresh⟩,
    fun _ _ _ _ _ _ hd free arrives die chan part fresh =>
      completes_redAccumulate_adds hd ⟨free, arrives, die, chan, part, fresh⟩,
    fun _ _ _ _ _ => completes_redTimeout⟩

end Sys2Proof.Machine
end


section
/-! PROOFS. What an access to memory, a completion entry and a partition fault change of the translation state: the copies of
routes alone (R476, Table XLT-5). The lemmas follow the calls of the model, from the message that fills a route copy up. -/

namespace Sys2Proof.Machine

/-! ### The relation -/

/-- Of the translation state, `t` differs from `s` in the copies of routes alone. -/
def RoutesOnly (s t : State) : Prop := ∃ routes, t.xlt = { s.xlt with routes := routes }

/-- Every part of the state may change but the translation state. -/
def besideXlt : Frame := ⟨True, True, True, True, True, True, True, True, True, True, False, True, True, True⟩

theorem RoutesOnly.refl (s : State) : RoutesOnly s s := ⟨s.xlt.routes, rfl⟩

theorem RoutesOnly.trans {s t u : State} (h : RoutesOnly s t) (k : RoutesOnly t u) : RoutesOnly s u := by
  obtain ⟨r, first⟩ := h
  obtain ⟨r', second⟩ := k
  exact ⟨r', by rw [second, first]⟩

theorem RoutesOnly.queue {s t : State} (h : RoutesOnly s t) : t.xlt.queue = s.xlt.queue := by
  obtain ⟨r, same⟩ := h
  rw [same]

variable {s₀ s t : State}

theorem RoutesOnly.of (h : RoutesOnly s₀ s) (same : t.xlt = s.xlt) : RoutesOnly s₀ t := by
  obtain ⟨r, is⟩ := h
  exact ⟨r, same.trans is⟩

theorem RoutesOnly.kept (h : RoutesOnly s₀ s) (k : Keeps besideXlt s t) : RoutesOnly s₀ t := h.of (k.xlt id)

theorem RoutesOnly.each {α : Type} {f : State → α → State} {l : List α} (h : RoutesOnly s₀ s)
    (step : ∀ s x, RoutesOnly s₀ s → RoutesOnly s₀ (f s x)) : RoutesOnly s₀ (each l f s) :=
  each_induction (P := RoutesOnly s₀) (fun s x _ => step s x) h

theorem RoutesOnly.ite {c : Prop} [Decidable c] {u : State} (yes : c → RoutesOnly s₀ t) (no : ¬c → RoutesOnly s₀ u) :
    RoutesOnly s₀ (if c then t else u) := by
  split
  next is => exact yes is
  next is => exact no is

/-! ### Messages -/

theorem xlt_countIf (c : Bool) (d : Nat) (f : Fld) (s : State) : (if c then s.count d f 1 else s).xlt = s.xlt := by
  cases c <;> rfl

theorem routesOnly_routeFill (part src dst : Nat) (h : RoutesOnly s₀ s) : RoutesOnly s₀ (routeFill part src dst s) := by
  refine h.trans ?_
  unfold routeFill
  dsimp -zeta only
  split
  · exact .refl s
  · extract_lets
    exact ⟨_, xlt_countIf _ _ _ _⟩

theorem routesOnly_sendMsg (c : CohT) (m : CohMsg) (h : RoutesOnly s₀ s) : RoutesOnly s₀ (sendMsg c m s) :=
  (routesOnly_routeFill m.part m.src m.dst h).of rfl

theorem routesOnly_sendReq (c : CohT) (m : CohMsg) (h : RoutesOnly s₀ s) : RoutesOnly s₀ (sendReq c m s) :=
  routesOnly_sendMsg c m (h.of rfl)

theorem routesOnly_sendInvs (hd hn la req part cls : Nat) (l : List Nat) (h : RoutesOnly s₀ s) :
    RoutesOnly s₀ (sendInvs hd hn la req part cls l s) :=
  h.each fun _ _ h => routesOnly_sendMsg _ _ h

/-! ### Ways of a set -/

theorem routesOnly_evictGuest {cls : Nat} {l : Line} (h : RoutesOnly s₀ s) (ht : evictGuest cls l s = some t) :
    RoutesOnly s₀ t := by
  unfold evictGuest at ht
  dsimp only at ht
  split at ht
  · split at ht <;> cases ht <;> exact routesOnly_sendReq _ _ (h.of rfl)
  · cases ht

theorem routesOnly_evict {cls : Nat} {l : Line} (h : RoutesOnly s₀ s) (ht : evict cls l s = some t) : RoutesOnly s₀ t := by
  unfold evict at ht
  split at ht
  · cases ht
    exact h.kept (dropLine_keeps trivial l (writeBack_keeps trivial trivial l (.refl _ s)))
  · exact routesOnly_evictGuest h ht

/-- The way that is chosen, free or its victim's. -/
theorem routesOnly_victim {cls : Nat} {c : Nat ⊕ Line} {r : Nat × State} (h : RoutesOnly s₀ s)
    (hr : (match c with
      | .inl w => some (w, s)
      | .inr v => (evict cls v s).map (fun s' => (v.way, s'))) = some r) : RoutesOnly s₀ r.2 := by
  cases c with
  | inl w => cases hr; exact h
  | inr v =>
    obtain ⟨u, hu, rfl⟩ := Option.map_eq_some_iff.mp hr
    exact routesOnly_evict h hu

theorem routesOnly_allocWay {cls d n la : Nat} {guest stream : Bool} {st : CSt} (h : RoutesOnly s₀ s)
    (ht : allocWay cls d n la guest stream st s = some t) : RoutesOnly s₀ t := by
  unfold allocWay at ht
  dsimp only at ht
  split at ht
  · cases ht
  · split at ht
    · cases ht
    next w u way =>
      have moved : RoutesOnly s₀ u := routesOnly_victim (r := (w, u)) h way
      cases ht
      split <;> exact moved.of rfl

theorem routesOnly_placeLine {l : Line} {stream : Bool} (h : RoutesOnly s₀ s) (ht : placeLine l stream s = some t) :
    RoutesOnly s₀ t := by
  unfold placeLine at ht
  split at ht
  · cases ht; exact h
  · split at ht
    · cases ht
    · obtain ⟨r, way, rfl⟩ := Option.map_eq_some_iff.mp ht
      have moved : RoutesOnly s₀ r.2 := routesOnly_victim h way
      dsimp only
      split <;> exact moved.of rfl

/-! ### Accesses carried through -/

theorem routesOnly_homeFill {cls d n la : Nat} {mask : BitVec 4} {hint : Nat} (h : RoutesOnly s₀ s)
    (ht : homeFill cls d n la mask hint s = some t) : RoutesOnly s₀ t := by
  unfold homeFill at ht
  split at ht
  · cases ht
    exact h.kept (fetchFrom_keeps trivial trivial d n la mask 4 (.refl _ s))
  · obtain ⟨u, hu, rfl⟩ := Option.map_eq_some_iff.mp ht
    exact (routesOnly_allocWay h hu).kept
      (applyHint_keeps trivial d n la hint true (fetchFrom_keeps trivial trivial d n la mask 4 (.refl _ u)))

theorem routesOnly_memoryCopy {cls d n la : Nat} {mask : BitVec 4} {r : Line × State} (h : RoutesOnly s₀ s)
    (hr : memoryCopy cls d n la mask s = some r) : RoutesOnly s₀ r.2 := by
  unfold memoryCopy at hr
  split at hr
  · cases hr; exact h
  · obtain ⟨u, hu, found⟩ := Option.bind_eq_some_iff.mp hr
    obtain ⟨l, -, rfl⟩ := Option.map_eq_some_iff.mp found
    exact routesOnly_homeFill h hu

theorem keeps_takenInvs {l : List Nat} {la : Nat} (h : takeInvs l la s = some t) : Keeps besideXlt s t :=
  (takeInvs_keeps trivial l la (.refl _ s)).of h

theorem keeps_putTouched (e : DirEnt) (e' : DirEnt) (s : State) : Keeps besideXlt s (touchDir e (putDir e' s)) :=
  touchDir_keeps trivial e (putDir_keeps trivial e' (.refl _ s))

theorem routesOnly_settleGetM {cls hd hn la r : Nat} {x : Line × State} (h : RoutesOnly s₀ s)
    (hx : settleGetM cls hd hn la r s = some x) : RoutesOnly s₀ x.2 := by
  unfold settleGetM at hx
  split at hx
  · obtain ⟨y, copied, rest⟩ := Option.bind_eq_some_iff.mp hx
    obtain ⟨u, hu, rfl⟩ := Option.map_eq_some_iff.mp rest
    exact (routesOnly_memoryCopy h copied).kept ((settleNewEnt_keeps trivial trivial trivial hd hn la _ r [] (.refl _ y.2)).of hu)
  · split at hx
    · obtain ⟨y, copied, rest⟩ := Option.bind_eq_some_iff.mp hx
      obtain ⟨u, hu, rfl⟩ := Option.map_eq_some_iff.mp rest
      exact ((routesOnly_memoryCopy h copied).kept (keeps_takenInvs hu)).kept (keeps_putTouched ..)
    iterate 2
      · split at hx
        · split at hx
          · obtain ⟨u, hu, rfl⟩ := Option.map_eq_some_iff.mp hx
            exact (h.kept (keeps_takenInvs hu)).kept (keeps_putTouched ..)
          · cases hx
        · obtain ⟨y, fwd, rest⟩ := Option.bind_eq_some_iff.mp hx
          obtain ⟨u, hu, rfl⟩ := Option.map_eq_some_iff.mp rest
          have moved : RoutesOnly s₀ y.2 := h.kept ((takeFwdM_keeps trivial _ la (.refl _ s)).of (a := y.1) fwd)
          exact ((moved.of (t := y.2.count hd (Reg.COH_FWD hn) 1) rfl).kept (keeps_takenInvs hu)).kept
            (keeps_putTouched ..)
    · cases hx

theorem routesOnly_homeWritable {cls d n la sec hint : Nat} {full fill : Bool} (h : RoutesOnly s₀ s)
    (ht : homeWritable cls d n la sec full fill hint s = some t) : RoutesOnly s₀ t := by
  unfold homeWritable at ht
  dsimp only at ht
  split at ht
  · split at ht <;> cases ht
    · exact h.kept (applyHint_keeps trivial d n la hint false (.refl _ s))
    · exact h.kept (applyHint_keeps trivial d n la hint false (fetchFrom_keeps trivial trivial d n la _ 4 (.refl _ s)))
  · exact routesOnly_homeFill h ht

theorem routesOnly_writeHome {b : AccBy} {pa n : Nat} {mask : BitVec 32} {v : SectorData} {r : AccRes × State}
    (h : RoutesOnly s₀ s) (hr : writeHome b pa n mask v s = some r) : RoutesOnly s₀ r.2 := by
  unfold writeHome at hr
  dsimp only at hr
  split at hr
  · cases hr
  · obtain ⟨u, settled, rest⟩ := Option.bind_eq_some_iff.mp hr
    obtain ⟨w, written, found⟩ := Option.bind_eq_some_iff.mp rest
    obtain ⟨l, -, rfl⟩ := Option.map_eq_some_iff.mp found
    have moved : RoutesOnly s₀ u :=
      h.kept ((settleHomeWrite_keeps trivial trivial trivial b.die n (pa / 128) (.refl _ s)).of settled)
    exact (routesOnly_homeWritable moved written).of rfl

theorem routesOnly_writeGuest {b : AccBy} {pa : Nat} {mask : BitVec 32} {v : SectorData} {r : AccRes × State}
    (h : RoutesOnly s₀ s) (hr : writeGuest b pa mask v s = some r) : RoutesOnly s₀ r.2 := by
  unfold writeGuest at hr
  dsimp only at hr
  split at hr
  next hn n _ _ =>
    split at hr
    · cases hr
    split at hr
    next l found =>
      obtain ⟨x, ready, rfl⟩ := Option.map_eq_some_iff.mp hr
      have moved : RoutesOnly s₀ x.2 := by
        split at ready
        · cases ready; exact h
        · split at ready
          · obtain ⟨y, got, rfl⟩ := Option.map_eq_some_iff.mp ready
            have moved : RoutesOnly s₀ y.2 := routesOnly_settleGetM h got
            exact moved
          · cases ready
      exact moved.kept (applyHint_keeps trivial b.die n (pa / 128) b.hint false (putLine_keeps trivial _ (.refl _ x.2)))
    next none_ =>
      obtain ⟨x, got, rest⟩ := Option.bind_eq_some_iff.mp hr
      have moved : RoutesOnly s₀ x.2 := routesOnly_settleGetM h got
      split at rest
      · split at rest
        · cases rest
          exact moved.kept (freeDir_keeps trivial _ (homeWrite_keeps trivial trivial _ _ _ _ _ 0 _ (.refl _ x.2)))
        · cases rest
      · obtain ⟨u, hu, found⟩ := Option.bind_eq_some_iff.mp rest
        obtain ⟨l, -, rfl⟩ := Option.map_eq_some_iff.mp found
        exact (routesOnly_allocWay moved hu).of rfl
  next => cases hr

theorem routesOnly_accWrite {b : AccBy} {pa : Nat} {mask : BitVec 32} {v : SectorData} {r : AccRes × State}
    (h : RoutesOnly s₀ s) (hr : accWrite b pa mask v s = some r) : RoutesOnly s₀ r.2 := by
  unfold accWrite at hr
  split at hr
  · cases hr
  split at hr
  · cases hr
    exact h.kept (crossPart_keeps trivial trivial b pa 1 (.refl _ s)).snd
  split at hr
  · cases hr
    exact h.kept (rangeErr_keeps trivial trivial pa 1 b.part (.refl _ s))
  split at hr
  · cases hr
    exact h.kept (rangeErr_keeps trivial trivial pa 1 b.part (.refl _ s))
  split at hr
  · cases hr
    exact h
  split at hr
  · exact routesOnly_writeHome h hr
  · exact routesOnly_writeGuest h hr

theorem routesOnly_accPut {b : AccBy} {fuel pa : Nat} {l : List Byte} {r : Bool × State} (h : RoutesOnly s₀ s)
    (hr : accPut b fuel pa l s = some r) : RoutesOnly s₀ r.2 := by
  induction fuel generalizing pa l s with
  | zero => cases hr; exact h
  | succ fuel ih =>
    unfold accPut at hr
    dsimp only at hr
    split at hr
    · cases hr; exact h
    · split at hr
      · cases hr
      next wrote => cases hr; exact routesOnly_accWrite h wrote
      next wrote => exact ih (routesOnly_accWrite h wrote) hr

/-! ### Requests that wait at a slice -/

theorem routesOnly_serveOn {d n : Nat} {w : Waiter} {l : Line} {fresh : Bool} (h : RoutesOnly s₀ s) :
    RoutesOnly s₀ (serveOn d n w l fresh s) :=
  h.kept (serveOn_keeps trivial trivial d n w l fresh (.refl _ s))

theorem routesOnly_serveHome {d n : Nat} {w : Waiter} {fresh : Bool} (h : RoutesOnly s₀ s)
    (ht : serveHome d n w fresh s = some t) : RoutesOnly s₀ t := by
  have found (x : Option Line) (hx : (match x with
      | some l => if (sectorAt l w.sec).valid then some (serveOn d n w l fresh s) else none
      | none => none) = some t) : RoutesOnly s₀ t := by
    split at hx
    · split at hx <;> cases hx
      exact routesOnly_serveOn h
    · cases hx
  unfold serveHome at ht
  dsimp only at ht
  split at ht
  · split at ht
    · exact found _ ht
    · cases ht
  iterate 2
    · split at ht
      · split at ht
        · split at ht
          · cases ht
            exact routesOnly_serveOn h
          · split at ht <;> cases ht
            exact h.kept (answer_keeps trivial d n w 1 false 0 (noteHint_keeps trivial d n w.la w.req.hint
              (putLine_keeps trivial _ (.refl _ s))))
        · split at ht
          · obtain ⟨u, hu, rest⟩ := Option.bind_eq_some_iff.mp ht
            obtain ⟨l, -, rfl⟩ := Option.map_eq_some_iff.mp rest
            exact routesOnly_serveOn (routesOnly_placeLine h hu)
          · cases ht
      · cases ht
  · split at ht
    · exact found _ ht
    · cases ht

theorem routesOnly_serve {d n : Nat} {w : Waiter} {fresh : Bool} (h : RoutesOnly s₀ s)
    (ht : serve d n w fresh s = some t) : RoutesOnly s₀ t := by
  unfold serve at ht
  split at ht
  · exact routesOnly_serveHome h ht
  · exact h.kept ((serveGuest_keeps trivial trivial d n w fresh (.refl _ s)).of ht)

theorem routesOnly_startHomeRead (e : DirEnt) (part cls : Nat) (h : RoutesOnly s₀ s) :
    RoutesOnly s₀ (startHomeRead e part cls s) :=
  RoutesOnly.of (routesOnly_sendMsg .fwdGetS { homeMsg s e.die e.slice e.la e.owner e.die part cls with mask := 15 } h) rfl

theorem routesOnly_startHomeWrite (e : DirEnt) (cause part cls : Nat) (h : RoutesOnly s₀ s) :
    RoutesOnly s₀ (startHomeWrite e cause part cls s) := by
  have asked : RoutesOnly s₀ ((sendMsg .fwdGetM (homeMsg s e.die e.slice e.la e.owner e.die part cls) s).count e.die
      (Reg.COH_FWD e.slice) 1) :=
    (routesOnly_sendMsg .fwdGetM (homeMsg s e.die e.slice e.la e.owner e.die part cls) h).of rfl
  unfold startHomeWrite
  dsimp only
  split
  · exact (routesOnly_sendInvs e.die e.slice e.la e.die part cls e.sharers h).of rfl
  iterate 2
    · exact (routesOnly_sendInvs e.die e.slice e.la e.die part cls e.sharers asked).of rfl
  · exact h

theorem routesOnly_startFetch (d n la : Nat) (mask : BitVec 4) (h : RoutesOnly s₀ s) :
    RoutesOnly s₀ (startFetch d n la mask s) :=
  h.kept (startFetch_keeps trivial trivial d n la mask (.refl _ s))

theorem routesOnly_demandHome (d n : Nat) (w : Waiter) (h : RoutesOnly s₀ s) : RoutesOnly s₀ (demandHome d n w s) := by
  unfold demandHome
  dsimp only
  refine .ite (fun _ => h) fun _ => ?_
  split
  · split
    · exact routesOnly_startFetch _ _ _ _ h
    · exact routesOnly_startHomeRead _ _ _ h
  · exact routesOnly_startHomeWrite _ _ _ _ h
  · exact routesOnly_startFetch _ _ _ _ h
  iterate 2
    · split
      · exact h
      · exact routesOnly_startFetch _ _ _ _ h
  · exact routesOnly_startFetch _ _ _ _ h

theorem routesOnly_cohRequest (l : Line) (part cls : Nat) (h : RoutesOnly s₀ s) :
    RoutesOnly s₀ (cohRequest l part cls s) := by
  unfold cohRequest
  dsimp only
  split
  case h_9 => exact h
  all_goals exact routesOnly_sendReq _ _ h

theorem routesOnly_demandGuest (d n : Nat) (w : Waiter) (h : RoutesOnly s₀ s) : RoutesOnly s₀ (demandGuest d n w s) := by
  have asks (l : Line) (mask : BitVec 4) : RoutesOnly s₀ (cohRequest l w.req.part w.req.cls
      (match findMshr (putLine l s) d n w.la with
        | some m => putMshr { m with mask := mask } (putLine l s)
        | none => putLine l s)) := by
    refine routesOnly_cohRequest _ _ _ ?_
    split <;> exact h.of rfl
  unfold demandGuest
  dsimp only
  split
  · exact h
  split
  · exact asks _ _
  · exact asks _ _
  · split
    · exact asks _ _
    · exact h
  · split
    · exact asks _ _
    · split
      · exact asks _ _
      · exact h
  · exact h

theorem routesOnly_demandPass (d n la : Nat) (h : RoutesOnly s₀ s) : RoutesOnly s₀ (demandPass d n la s) := by
  unfold demandPass
  split
  · exact h
  · refine h.each fun u w hu => ?_
    unfold demand
    split
    · exact routesOnly_demandHome d n w hu
    · exact routesOnly_demandGuest d n w hu

theorem routesOnly_serveList {d n : Nat} (left l : List Waiter) (h : RoutesOnly s₀ s) :
    RoutesOnly s₀ (serveList d n left l s).2 := by
  induction l generalizing left s with
  | nil => exact h
  | cons w l ih =>
    unfold serveList
    split
    next u served =>
      split at served
      · exact ih _ (routesOnly_serve h served)
      · cases served
    next => exact ih _ h

theorem routesOnly_servePass (d n la : Nat) (h : RoutesOnly s₀ s) : RoutesOnly s₀ (servePass d n la s) := by
  unfold servePass
  split
  · exact h
  next m found =>
    have served := routesOnly_serveList (d := d) (n := n) [] m.waiters h
    dsimp only
    split
    · exact served
    · split
      · exact served.kept (holdForHead_keeps trivial d n true (putMshr_keeps trivial _ (.refl _ _)))
      · exact served.of rfl

theorem routesOnly_settleMshr (d n la : Nat) (h : RoutesOnly s₀ s) : RoutesOnly s₀ (settleMshr d n la s) := by
  have left : RoutesOnly s₀ (leaveUnplaced d n la s) := by
    unfold leaveUnplaced
    split
    · split
      · cases gone : evictGuest _ _ s with
        | none => exact h
        | some u => exact routesOnly_evictGuest h gone
      · exact h
    · exact h
  have freed (m : Mshr) : RoutesOnly s₀ (freeMshr m (leaveUnplaced d n la s)) :=
    left.kept (freeMshr_keeps trivial m (.refl _ _))
  unfold settleMshr
  split
  · exact h
  · split
    · dsimp only
      split
      · exact freed _
      · split
        · exact freed _
        · exact left
    · exact h

theorem routesOnly_pump (d n la : Nat) (h : RoutesOnly s₀ s) : RoutesOnly s₀ (pump d n la s) :=
  routesOnly_settleMshr d n la (routesOnly_servePass d n la (routesOnly_demandPass d n la (routesOnly_servePass d n la h)))

theorem routesOnly_acceptRequest (d n k : Nat) (w : Waiter) (h : RoutesOnly s₀ s) :
    RoutesOnly s₀ (acceptRequest d n k w s) := by
  have back : RoutesOnly s₀ (nackRetry d n k w s) := h.kept (nackRetry_keeps trivial trivial d n k w (.refl _ s))
  have taken (m : Mshr) : RoutesOnly s₀ (pump d n w.la (slicePeaks d n (leaveStarve d n w.req (putMshr m s)))) :=
    routesOnly_pump d n w.la (h.kept (slicePeaks_keeps trivial d n (leaveStarve_keeps trivial d n w.req
      (putMshr_keeps trivial m (.refl _ s)))))
  unfold acceptRequest
  split
  · split
    · exact taken _
    · exact back
  · split
    · exact taken _
    · exact back

theorem routesOnly_waitAccess (b : AccBy) (pa : Nat) (want : Want) (h : RoutesOnly s₀ s) :
    RoutesOnly s₀ (waitAccess b pa want s) := by
  unfold waitAccess
  split
  · exact h
  · dsimp only
    split
    next u served =>
      split at served
      · exact routesOnly_serve h served
      · cases served
    next => exact routesOnly_acceptRequest _ _ _ _ h

theorem routesOnly_waitBytes (b : AccBy) (fuel pa : Nat) (l : List Byte) (h : RoutesOnly s₀ s) :
    RoutesOnly s₀ (waitBytes b fuel pa l s) := by
  induction fuel generalizing pa l s with
  | zero => exact h
  | succ fuel ih =>
    unfold waitBytes
    split
    · exact h
    · exact ih _ _ (routesOnly_waitAccess _ _ _ h)

/-! ### Completion entries -/

theorem routesOnly_blockWrite (b : AccBy) (pa : Nat) (l : List Byte) (h : RoutesOnly s₀ s) :
    RoutesOnly s₀ (blockWrite b pa l s) := by
  unfold blockWrite
  split
  next wrote => exact routesOnly_accPut h wrote
  next =>
    split
    · exact routesOnly_waitBytes _ _ _ _ h
    · exact h

theorem routesOnly_writeCqe (cq tag status queue kind index info : Nat) (irq : Bool) (h : RoutesOnly s₀ s) :
    RoutesOnly s₀ (writeCqe cq tag status queue kind index info irq s) := by
  unfold writeCqe
  dsimp only
  generalize cqeBytes s cq tag status queue kind index info irq = bytes
  have wrote := routesOnly_blockWrite (queBy s cq) (queBase s cq + quePi s cq % ringEntries s cq * 16) bytes h
  have moved := wrote.of (t := State.wr _ (queDie cq) (Reg.QUE_PI (queLocal cq)) (quePi s cq + 1)) rfl
  split
  · exact moved.kept (raiseVector_keeps trivial trivial cq (.refl _ _))
  · exact moved

theorem routesOnly_completeItem (q tag status kind index info : Nat) (cqe irq : Bool) (h : RoutesOnly s₀ s) :
    RoutesOnly s₀ (completeItem q tag status kind index info cqe irq s) := by
  have told : RoutesOnly s₀ (reportSectors q { s with que := { s.que with itemsOut := lower s.que.itemsOut q } }) :=
    RoutesOnly.kept (s := { s with que := { s.que with itemsOut := lower s.que.itemsOut q } }) (h.of rfl)
      (reportSectors_keeps trivial q (.refl _ _))
  unfold completeItem
  dsimp only
  generalize reportSectors q _ = u at told ⊢
  split
  · exact routesOnly_writeCqe _ _ _ _ _ _ _ _ (told.of rfl)
  · exact told

theorem routesOnly_endLaunch (l : Launch) (h : RoutesOnly s₀ s) : RoutesOnly s₀ (endLaunch l s) :=
  routesOnly_completeItem _ _ _ _ _ _ _ _ (h.kept (detach_keeps trivial l true (.refl _ s)))

/-! ### Partition faults -/

theorem routesOnly_closeKills (f : OpenKill → Bool) (h : RoutesOnly s₀ s) : RoutesOnly s₀ (closeKills f s) := by
  refine h.each fun u k hu => ?_
  let closed : State := { u with core := { u.core with kills := u.core.kills.filter (fun x => !isKill k.part k.inst k.ctx x) } }
  have same : RoutesOnly s₀ closed := hu.of rfl
  have ended : RoutesOnly s₀ (each k.ending (fun s l => endLaunch l s) closed) :=
    same.each fun _ l h => routesOnly_endLaunch l h
  exact ended.kept (killRecord_keeps trivial k.why k.absorbed (.refl _ _))

theorem routesOnly_stopPartition (p : Nat) (h : RoutesOnly s₀ s) : RoutesOnly s₀ (stopPartition p s) := by
  have closed := routesOnly_closeKills (fun k => Nat.beq k.part p) h
  have stopped := closed.kept (dropMovers_keeps trivial trivial (fun m => Nat.beq m.part p) (dropTroupes_keeps trivial
    trivial trivial (fun _ => true) (fun t => Nat.beq t.part p) (fun l => Nat.beq l.part p) (.refl _ _)))
  exact stopped.of rfl

theorem routesOnly_faultEntries (p info : Nat) (h : RoutesOnly s₀ s) : RoutesOnly s₀ (faultEntries p info s) := by
  refine h.each fun u cq hu => ?_
  split
  · exact routesOnly_writeCqe _ _ _ _ _ _ _ _ hu
  · exact hu

theorem routesOnly_partFault (p cause d ctype cseq : Nat) (h : RoutesOnly s₀ s) :
    RoutesOnly s₀ (partFault p cause d ctype cseq s) := by
  unfold partFault
  split
  · exact h
  · have stopped := routesOnly_stopPartition p (h.kept (setFaulted_keeps trivial trivial p (.refl _ s)))
    exact routesOnly_faultEntries _ _ (stopped.of rfl)

end Sys2Proof.Machine
end


section
/-! PROOFS. Interrupt remapping entries: what the mediator's writes leave in an entry, and what an entry that opens sends
(R443, R444, R574). -/

namespace Sys2Proof.Machine

/-! ### Fields of other bit positions -/

/-- Two fields that begin at different bits of their registers. -/
def Fld.offset (f g : Fld) : Bool := Nat.blt f.lo 64 && Nat.blt g.lo 64 && !Nat.beq f.lo g.lo

theorem Fld.key_ne_of_offset {f g : Fld} (h : f.offset g = true) (d e : Nat) : f.key d ≠ g.key e := by
  simp only [Fld.offset, Bool.and_eq_true, Nat.blt_eq, Bool.not_eq_true', ← Bool.not_eq_true, Nat.beq_eq] at h
  unfold Fld.key
  omega

theorem State.rd_wr_offset {f g : Fld} (h : g.offset f = true) (s : State) (d d' v : Nat) :
    (s.wr d f v).rd d' g = s.rd d' g := State.rd_wr_ne _ _ _ _ _ _ (Fld.key_ne_of_offset h _ _)

/-! ### An entry that sends -/

variable {s : State} {d e : Nat}

theorem sendMsi_shows {p i : Nat} {x : InstEntry} (inst : instEntry s p i = some x) (d e : Nat) :
    (sendMsi d p i e s).rd d (Reg.PART_IRQ_MAP_PENDING e) = 0 ∧
      (sendMsi d p i e s).out.msi = s.out.msi ++
        [⟨x.hostPort, x.vf, s.rd d (Reg.PART_IRQ_MAP_ADDR e) * 4, s.rd d (Reg.PART_IRQ_MAP_DATA e)⟩] ∧
      RegsBut [(d, Reg.PART_IRQ_MAP_PENDING e)] s (sendMsi d p i e s) := by
  have inst' : instEntry (s.wr d (Reg.PART_IRQ_MAP_PENDING e) 0) p i = some x := inst
  have cleared : (s.wr d (Reg.PART_IRQ_MAP_PENDING e) 0).rd d (Reg.PART_IRQ_MAP_PENDING e) = 0 := State.rd_wr_same ..
  unfold sendMsi
  dsimp only
  rw [inst']
  dsimp only
  rw [State.rd_wr_offset rfl, State.rd_wr_offset rfl]
  exact ⟨cleared, rfl, .of_regs (.wr (.refl _ s) d _ 0 (.head _)) rfl⟩

/-- The hold of an entry over. -/
def unheld (d e : Nat) (s : State) : State := { s with prt := { s.prt with irqHeld := delNat s.prt.irqHeld (d * 4096 + e) } }

theorem irqRelease_idle (none_ : s.rd d (Reg.PART_IRQ_MAP_PENDING e) = 0) (unmasked : Bool) :
    irqRelease d e unmasked s = unheld d e s := by
  have none' : (unheld d e s).rd d (Reg.PART_IRQ_MAP_PENDING e) = 0 := none_
  show (if 0 < (unheld d e s).rd d (Reg.PART_IRQ_MAP_PENDING e) && _ && _ then _ else unheld d e s) = _
  rw [none']
  rfl

theorem irqRelease_sends {p i : Nat} {unmasked : Bool} (owner : irqOwner s d e = some (p, i))
    (some_ : 0 < s.rd d (Reg.PART_IRQ_MAP_PENDING e)) (mask : s.rd d (Reg.PART_IRQ_MAP_MASK e) = 0)
    (due : unmasked = true ∨ s.rd d (Reg.PART_IRQ_MAP_COAL_CNT e) ≤ s.rd d (Reg.PART_IRQ_MAP_PENDING e)) :
    irqRelease d e unmasked s = sendMsi d p i e (unheld d e s) := by
  have owner' : irqOwner (unheld d e s) d e = some (p, i) := owner
  have opens : irqOpen (unheld d e s) d e = true := by
    have mask' : (unheld d e s).rd d (Reg.PART_IRQ_MAP_MASK e) = 0 := mask
    have held : (unheld d e s).prt.irqHeld.contains (d * 4096 + e) = false := contains_delNat _ _
    rw [irqOpen, mask', held]
    rfl
  have goes : (decide (0 < (unheld d e s).rd d (Reg.PART_IRQ_MAP_PENDING e)) && irqOpen (unheld d e s) d e &&
      (unmasked || decide ((unheld d e s).rd d (Reg.PART_IRQ_MAP_COAL_CNT e) ≤
          (unheld d e s).rd d (Reg.PART_IRQ_MAP_PENDING e)) ||
        decide ((unheld d e s).rd d (Reg.PART_IRQ_MAP_COAL_US e) = 0))) = true := by
    rw [opens, decide_eq_true (show 0 < (unheld d e s).rd d (Reg.PART_IRQ_MAP_PENDING e) from some_)]
    obtain yes | few := due
    · rw [yes]
      rfl
    · rw [decide_eq_true (show (unheld d e s).rd d (Reg.PART_IRQ_MAP_COAL_CNT e) ≤
        (unheld d e s).rd d (Reg.PART_IRQ_MAP_PENDING e) from few), Bool.or_true]
      rfl
  refine (if_pos goes).trans ?_
  show (match irqOwner (unheld d e s) d e with
    | some (p, i) => sendMsi d p i e (unheld d e s)
    | none => unheld d e s) = _
  rw [owner']

/-! ### The mediator's writes -/

theorem completes_irqMapAddrWrite {src : Source} {v : Word} (hd : d < dieCount s.orderCode)
    (may : isMediator s d e src = true) : Completes (.irqMapAddrWrite d e src v) s (fun t =>
      t.rd d (Reg.PART_IRQ_MAP_ADDR e) = v.toNat / 4 ∧ t.prt.irqHeld.contains (d * 4096 + e) = true ∧
      RegsBut [(d, Reg.PART_IRQ_MAP_ADDR e)] s t ∧ t.out = s.out) := by
  have small := v.isLt
  refine completes_of_onDie (execIrqMapAddrWrite d e src v s) rfl rfl hd ?_
  rw [irqMapAddrWrite, if_pos may]
  refine ⟨(State.rd_wr_same ..).trans (Nat.mod_eq_of_lt ?_), contains_addNat_same _ _,
    .of_regs (.wr (.refl _ s) d _ _ (.head _)) rfl, rfl⟩
  show v.toNat / 4 < 2 ^ 62
  omega

/-- The fields of an entry as a write of its DATA word leaves them. -/
def irqDataWritten (d e n : Nat) (s : State) : State :=
  (((s.wr d (Reg.PART_IRQ_MAP_DATA e) (bits n 31 0)).wr d (Reg.PART_IRQ_MAP_MASK e) (bits n 32 32)).wr d
    (Reg.PART_IRQ_MAP_COAL_US e) (bits n 42 33)).wr d (Reg.PART_IRQ_MAP_COAL_CNT e) (max 1 (bits n 50 43))

theorem completes_irqMapDataWrite {src : Source} {v : Word} (hd : d < dieCount s.orderCode)
    (may : isMediator s d e src = true) (none_ : s.rd d (Reg.PART_IRQ_MAP_PENDING e) = 0) :
    Completes (.irqMapDataWrite d e src v) s (fun t =>
      t.rd d (Reg.PART_IRQ_MAP_DATA e) = bits v.toNat 31 0 ∧ t.rd d (Reg.PART_IRQ_MAP_MASK e) = bits v.toNat 32 32 ∧
      t.rd d (Reg.PART_IRQ_MAP_COAL_US e) = bits v.toNat 42 33 ∧
      t.rd d (Reg.PART_IRQ_MAP_COAL_CNT e) = max 1 (bits v.toNat 50 43) ∧
      t.prt.irqHeld.contains (d * 4096 + e) = false ∧ t.out = s.out) := by
  have pending : (irqDataWritten d e v.toNat s).rd d (Reg.PART_IRQ_MAP_PENDING e) = 0 := by
    rw [irqDataWritten, State.rd_wr_offset rfl, State.rd_wr_offset rfl, State.rd_wr_offset rfl, State.rd_wr_offset rfl,
      none_]
  have acts : irqMapDataWrite d e src v s = unheld d e (irqDataWritten d e v.toNat s) :=
    (if_pos may).trans (irqRelease_idle pending _)
  have data : (irqDataWritten d e v.toNat s).rd d (Reg.PART_IRQ_MAP_DATA e) = bits v.toNat 31 0 := by
    rw [irqDataWritten, State.rd_wr_offset rfl, State.rd_wr_offset rfl, State.rd_wr_offset rfl]
    exact (State.rd_wr_same ..).trans (Nat.mod_mod ..)
  have mask : (irqDataWritten d e v.toNat s).rd d (Reg.PART_IRQ_MAP_MASK e) = bits v.toNat 32 32 := by
    rw [irqDataWritten, State.rd_wr_offset rfl, State.rd_wr_offset rfl]
    exact (State.rd_wr_same ..).trans (Nat.mod_mod ..)
  have time : (irqDataWritten d e v.toNat s).rd d (Reg.PART_IRQ_MAP_COAL_US e) = bits v.toNat 42 33 := by
    rw [irqDataWritten, State.rd_wr_offset rfl]
    exact (State.rd_wr_same ..).trans (Nat.mod_mod ..)
  have few : bits v.toNat 50 43 < 256 := Nat.mod_lt _ (by decide)
  have count : (irqDataWritten d e v.toNat s).rd d (Reg.PART_IRQ_MAP_COAL_CNT e) = max 1 (bits v.toNat 50 43) :=
    (State.rd_wr_same ..).trans (Nat.mod_eq_of_lt (show max 1 (bits v.toNat 50 43) < 256 by omega))
  refine completes_of_onDie (execIrqMapDataWrite d e src v s) rfl rfl hd ?_
  rw [acts]
  exact ⟨data, mask, time, count, contains_delNat _ _, rfl⟩

theorem completes_irqMap_denied {src : Source} {v : Word} {c : Instr}
    (hc : c ∈ [Instr.irqMapAddrWrite d e src v, Instr.irqMapDataWrite d e src v, Instr.irqUnmask d e src])
    (hd : d < dieCount s.orderCode) (denied : isMediator s d e src = false) : Completes c s (fun t => t = s) := by
  simp only [List.mem_cons, List.not_mem_nil, or_false] at hc
  obtain rfl | rfl | rfl := hc
  · exact completes_of_onDie (execIrqMapAddrWrite d e src v s) rfl rfl hd (if_neg (ne_true_of_eq_false denied))
  · exact completes_of_onDie (execIrqMapDataWrite d e src v s) rfl rfl hd (if_neg (ne_true_of_eq_false denied))
  · exact completes_of_onDie (execIrqUnmask d e src s) rfl rfl hd (if_neg (ne_true_of_eq_false denied))

/-! ### Entries that open -/

/-- What the MSI of an entry leaves. -/
def Sends (d e : Nat) (x : InstEntry) (s t : State) : Prop :=
  t.rd d (Reg.PART_IRQ_MAP_PENDING e) = 0 ∧ t.out.msi = s.out.msi ++
    [⟨x.hostPort, x.vf, s.rd d (Reg.PART_IRQ_MAP_ADDR e) * 4, s.rd d (Reg.PART_IRQ_MAP_DATA e)⟩] ∧
  RegsBut [(d, Reg.PART_IRQ_MAP_PENDING e), (d, Reg.PART_IRQ_MAP_MASK e)] s t

theorem sends_sendMsi {p i : Nat} {x : InstEntry} {u : State} (inst : instEntry s p i = some x) (img : u.img = s.img)
    (out : u.out = s.out) (regs : RegsBut [(d, Reg.PART_IRQ_MAP_MASK e)] s u) : Sends d e x s (sendMsi d p i e u) := by
  have inst' : instEntry u p i = some x := by
    rw [instEntry, instances, liveBody, img]
    exact inst
  obtain ⟨pending, msi, wrote⟩ := sendMsi_shows inst' d e
  have kept (f : Fld) (offset : f.offset (Reg.PART_IRQ_MAP_MASK e) = true) : u.rd d f = s.rd d f :=
    regs d f fun y hy => by
      obtain rfl := List.mem_singleton.mp hy
      exact Fld.key_ne_of_offset offset d d
  refine ⟨pending, ?_, ?_⟩
  · rw [msi, out, kept _ rfl, kept _ rfl]
  · exact (regs.mono (by simp)).trans (wrote.mono (by simp))

theorem completes_irq_sends {p i : Nat} {x : InstEntry} {src : Source} {c : Instr} (hd : d < dieCount s.orderCode)
    (owner : irqOwner s d e = some (p, i)) (inst : instEntry s p i = some x)
    (some_ : 0 < s.rd d (Reg.PART_IRQ_MAP_PENDING e))
    (opens : (c = .irqMapHoldTimeout d e ∧ s.rd d (Reg.PART_IRQ_MAP_MASK e) = 0 ∧
        s.rd d (Reg.PART_IRQ_MAP_COAL_CNT e) ≤ s.rd d (Reg.PART_IRQ_MAP_PENDING e) ∧
        s.prt.irqHeld.contains (d * 4096 + e) = true) ∨
      (c = .irqUnmask d e src ∧ isMediator s d e src = true ∧ s.rd d (Reg.PART_IRQ_MAP_MASK e) = 1) ∨
      (c = .irqCoalesceTimeout d e ∧ irqOpen s d e = true)) :
    Completes c s (fun t =>
      t.rd d (Reg.PART_IRQ_MAP_PENDING e) = 0 ∧ t.out.msi = s.out.msi ++
        [⟨x.hostPort, x.vf, s.rd d (Reg.PART_IRQ_MAP_ADDR e) * 4, s.rd d (Reg.PART_IRQ_MAP_DATA e)⟩] ∧
      RegsBut [(d, Reg.PART_IRQ_MAP_PENDING e), (d, Reg.PART_IRQ_MAP_MASK e)] s t) := by
  obtain ⟨rfl, mask, due, held⟩ | ⟨rfl, may, mask⟩ | ⟨rfl, opens⟩ := opens
  · refine completes_of_onDie (execIrqMapHoldTimeout d e s) rfl rfl hd ?_
    rw [irqMapHoldTimeout, if_pos held, irqRelease_sends owner some_ mask (.inr due)]
    exact sends_sendMsi (u := unheld d e s) inst rfl rfl (.of_regs (.refl _ s) rfl)
  · let u : State := s.wr d (Reg.PART_IRQ_MAP_MASK e) 0
    have regs : RegsBut [(d, Reg.PART_IRQ_MAP_MASK e)] s u := .wr (.refl _ s) d _ 0 (.head _)
    have owner' : irqOwner u d e = some (p, i) := by
      have half : halfPart u d (e / 2048) = halfPart s d (e / 2048) := by
        rw [halfPart, halfPart, State.rd_wr_offset rfl, State.rd_wr_offset rfl]
      rw [irqOwner, half]
      exact owner
    have some' : 0 < u.rd d (Reg.PART_IRQ_MAP_PENDING e) := by rwa [State.rd_wr_offset rfl]
    have acts : irqUnmask d e src s = sendMsi d p i e (unheld d e u) := by
      rw [irqUnmask, if_pos may, mask]
      exact irqRelease_sends owner' some' (State.rd_wr_same ..) (.inl rfl)
    refine completes_of_onDie (execIrqUnmask d e src s) rfl rfl hd ?_
    rw [acts]
    exact sends_sendMsi (u := unheld d e u) inst rfl rfl (.of_regs regs rfl)
  · have acts : irqCoalesceTimeout d e s = sendMsi d p i e s := by
      rw [irqCoalesceTimeout, opens, decide_eq_true some_, owner]
      rfl
    refine completes_of_onDie (execIrqCoalesceTimeout d e s) rfl rfl hd ?_
    rw [acts]
    exact sends_sendMsi (u := s) inst rfl rfl (.refl _ s)

end Sys2Proof.Machine
end


section
/-! PROOFS. The invalidations of a die take their turn: one that every die answers completes, one that is held up waits, and its
time-out faults the partition (R480, R483, R486, R489, R495). -/

namespace Sys2Proof.Machine

variable {s t u : State} {d : Nat} {x : XInval}

/-! ### The parts of an invalidation -/

/-- What a command of XLT_INV_CMD writes of the registers. -/
def invFields : List Fld :=
  [Reg.XLT_INV_CMD_PART, Reg.XLT_INV_CMD_INST, Reg.XLT_INV_CMD_CTX, Reg.XLT_INV_CMD_COUNT, Reg.XLT_INV_CMD_SCOPE,
    Reg.XLT_INV_STATUS_BUSY, Reg.XLT_INV_STATUS_RESULT, Reg.XLT_INV_STATUS_QUEUED, Reg.XLT_INV_DONE]

theorem FieldsBut.count {touch : List Fld} (h : FieldsBut touch s t) (d : Nat) {g : Fld} (v : Nat) (hg : g ∈ touch) :
    FieldsBut touch s (t.count d g v) := h.wr d _ hg

theorem silentDie_congr (halves : HalvesAs s t) (boot : t.boot = s.boot) (p : Nat) : silentDie t p = silentDie s p := by
  rw [silentDie, silentDie, halves.partDies, boot]

/-- The invalidation in the queue of its die. -/
def queued (x : XInval) (s : State) : State := { s with xlt := { s.xlt with queue := s.xlt.queue ++ [x] } }

/-- The invalidation accepted, and shown in XLT_INV_STATUS. -/
def accepted (x : XInval) (s : State) : State := invStatus x.die (queued x s)

/-- The copies in the scope of a command dropped; a write of XLT_CTX_BASE has dropped its own (R483). -/
def copiesDropped (x : XInval) (s : State) : State := if x.scope = 5 then s else dropCopies x s

theorem copiesDropped_keeps (x : XInval) (s : State) : Keeps { noFrame with xlt := True } s (copiesDropped x s) :=
  keeps_ite (fun _ => .refl _ s) fun _ => dropCopies_keeps trivial x (.refl _ s)

theorem invalsOf_copiesDropped (x : XInval) (s : State) (d : Nat) : invalsOf (copiesDropped x s) d = invalsOf s d := by
  unfold copiesDropped
  split <;> rfl

theorem fieldsBut_invStatus (d : Nat) (s : State) : FieldsBut invFields s (invStatus d s) :=
  ((FieldsBut.of_regs rfl).wr d _ (by simp [invFields])).wr d _ (by simp [invFields])

theorem rd_invStatus_busy (d : Nat) (s : State) :
    (invStatus d s).rd d Reg.XLT_INV_STATUS_BUSY = if (invalsOf s d).length = 0 then 0 else 1 := by
  unfold invStatus
  dsimp only
  rw [State.rd_wr_apart rfl, State.rd_wr_same]
  split <;> rfl

theorem rd_invStatus_apart {f : Fld} (busy : f.apart Reg.XLT_INV_STATUS_BUSY = true)
    (queued : f.apart Reg.XLT_INV_STATUS_QUEUED = true) (d e : Nat) (s : State) : (invStatus d s).rd e f = s.rd e f :=
  (State.rd_wr_apart queued ..).trans (State.rd_wr_apart busy ..)

theorem invalsOf_accepted (empty : invalsOf s x.die = []) : invalsOf (accepted x s) x.die = [x] := by
  show (s.xlt.queue ++ [x]).filter _ = [x]
  rw [List.filter_append]
  show invalsOf s x.die ++ _ = [x]
  rw [empty]
  simp

/-! ### A turn of the queue -/

theorem invalsOf_invalEnd (one : invalsOf u x.die = [x]) (r : Nat) : invalsOf (invalEnd x r u) x.die = [] := by
  have queue : (invalEnd x r u).xlt.queue = u.xlt.queue.erase x := by
    unfold invalEnd
    dsimp only
    split <;> rfl
  rw [invalsOf, queue, ← List.erase_filter]
  show (invalsOf u x.die).erase x = []
  rw [one]
  simp

/-- What the end of the one invalidation of a die shows. -/
structure InvalOver (x : XInval) (r : Nat) (u t : State) : Prop where
  same : t = { u with regs := t.regs, xlt := { u.xlt with queue := u.xlt.queue.erase x } }
  none : invalsOf t x.die = []
  result : t.rd x.die Reg.XLT_INV_STATUS_RESULT = r % 8
  idle : t.rd x.die Reg.XLT_INV_STATUS_BUSY = 0
  done : x.scope ≠ 5 → t.rd x.die Reg.XLT_INV_DONE = min (u.rd x.die Reg.XLT_INV_DONE + 1) (2 ^ 32 - 1)
  fields : FieldsBut invFields u t

/-- The command counted; a write of XLT_CTX_BASE is none. -/
def invalCounted (x : XInval) (s : State) : State := if x.scope = 5 then s else s.count x.die Reg.XLT_INV_DONE 1

/-- The invalidation out of the queue. -/
def unqueued (x : XInval) (s : State) : State := { s with xlt := { s.xlt with queue := s.xlt.queue.erase x } }

theorem ended_invalEnd (one : invalsOf u x.die = [x]) (r : Nat) : InvalOver x r u (invalEnd x r u) := by
  have ends : invalEnd x r u =
      invStatus x.die ((invalCounted x (unqueued x u)).wr x.die Reg.XLT_INV_STATUS_RESULT r) := rfl
  have none_ := invalsOf_invalEnd one r
  have counted : FieldsBut invFields u (invalCounted x (unqueued x u)) :=
    .ite (fun _ => .of_regs rfl) fun _ => (FieldsBut.of_regs rfl).count x.die 1 (by simp [invFields])
  refine ⟨?_, none_, ?_, ?_, fun command => ?_, ?_⟩
  · unfold invalEnd
    dsimp only
    split <;> rfl
  · rw [ends, rd_invStatus_apart rfl rfl]
    exact State.rd_wr_same ..
  · have none' : invalsOf ((invalCounted x (unqueued x u)).wr x.die Reg.XLT_INV_STATUS_RESULT r) x.die = [] := none_
    rw [ends, rd_invStatus_busy, none']
    rfl
  · rw [ends, rd_invStatus_apart rfl rfl, State.rd_wr_apart rfl, invalCounted, if_neg command]
    exact State.rd_count_same ..
  · rw [ends]
    have written := counted.wr x.die (g := Reg.XLT_INV_STATUS_RESULT) r (by simp [invFields])
    exact written.trans (fieldsBut_invStatus x.die _)

theorem drainInvals_of_none (none_ : invalsOf u d = []) (fuel : Nat) : drainInvals d fuel u = u := by
  cases fuel with
  | zero => rfl
  | succ fuel => rw [drainInvals, none_]

theorem silentDie_copiesDropped (x : XInval) (s : State) (p : Nat) : silentDie (copiesDropped x s) p = silentDie s p := by
  unfold copiesDropped
  split <;> rfl

theorem drainInvals_of_answered (one : invalsOf u x.die = [x]) (free : x.scope ≠ 5 → resetCovers u x = false)
    (answered : silentDie u x.part = none) (fuel : Nat) :
    drainInvals x.die (fuel + 1) u = invalEnd x 0 (copiesDropped x u) := by
  have goes : ¬(decide (x.scope ≠ 5) && resetCovers u x) = true := by
    rw [Bool.and_eq_true, decide_eq_true_eq]
    exact fun ⟨command, covers⟩ => by rw [free command] at covers; cases covers
  have one' : invalsOf (copiesDropped x u) x.die = [x] := (invalsOf_copiesDropped x u x.die).trans one
  have answered' : silentDie (copiesDropped x u) x.part = none := (silentDie_copiesDropped ..).trans answered
  rw [drainInvals, one]
  refine (if_neg goes).trans ?_
  show (if (silentDie (copiesDropped x u) x.part).isSome then copiesDropped x u
    else drainInvals x.die fuel (invalEnd x 0 (copiesDropped x u))) = _
  rw [answered']
  exact drainInvals_of_none (invalsOf_invalEnd one' 0) fuel

/-- An invalidation that a silent die or a reset holds up waits. -/
theorem drainInvals_of_held (one : invalsOf u x.die = [x])
    (held : silentDie u x.part ≠ none ∨ (x.scope ≠ 5 ∧ resetCovers u x = true)) (fuel : Nat) :
    drainInvals x.die (fuel + 1) u = u ∨ drainInvals x.die (fuel + 1) u = copiesDropped x u := by
  rw [drainInvals, one]
  dsimp only
  by_cases covers : (decide (x.scope ≠ 5) && resetCovers u x) = true
  · exact .inl (if_pos covers)
  · refine .inr ((if_neg covers).trans ?_)
    have silent : (silentDie (copiesDropped x u) x.part).isSome = true := by
      rw [silentDie_copiesDropped, Option.isSome_iff_ne_none]
      exact held.resolve_right fun ⟨command, covered⟩ => covers (by rw [covered, decide_eq_true command]; rfl)
    exact if_pos silent

theorem invalidate_of_room (empty : invalsOf s x.die = []) (pages : x.scope = 1 → x.count ≠ 0) :
    invalidate x s = drainInvals x.die 9 (accepted x s) := by
  unfold invalidate
  dsimp only
  rw [empty, if_neg (by decide)]
  refine if_neg fun bad => ?_
  rw [Bool.and_eq_true, decide_eq_true_eq, decide_eq_true_eq] at bad
  exact pages bad.1 bad.2

/-! ### Commands -/

/-- The fields of XLT_INV_CMD as a command leaves them. -/
def commanded (d part inst ctx count : Nat) (s : State) : State :=
  ((((s.wr d Reg.XLT_INV_CMD_PART part).wr d Reg.XLT_INV_CMD_INST inst).wr d Reg.XLT_INV_CMD_CTX ctx).wr d
    Reg.XLT_INV_CMD_COUNT count).wr d Reg.XLT_INV_CMD_SCOPE 0

theorem fieldsBut_commanded (d part inst ctx count : Nat) (s : State) :
    FieldsBut invFields s (commanded d part inst ctx count s) :=
  .wr (.wr (.wr (.wr (.wr (.of_regs rfl) d _ (by simp [invFields])) d _ (by simp [invFields])) d _ (by simp [invFields]))
    d _ (by simp [invFields])) d _ (by simp [invFields])

theorem rd_commanded_done (d part inst ctx count : Nat) (s : State) :
    (commanded d part inst ctx count s).rd d Reg.XLT_INV_DONE = s.rd d Reg.XLT_INV_DONE := by
  simp (disch := decide) only [commanded, State.rd_wr_apart]

theorem invCommand_of_ok {scope part inst ctx count : Nat} {src : Source} (ok : wardenOk s part src = true) :
    invCommand d scope part inst ctx count src s =
      invalidate ⟨d, scope, part, inst, ctx, s.rd d Reg.XLT_INV_ADDR, count % 0x10000⟩
        (commanded d part inst ctx count s) := by
  have addr := fieldsBut_commanded d part inst ctx count s d Reg.XLT_INV_ADDR rfl
  rw [← addr, invCommand, if_pos ok] <;> rfl

/-- The commands of XLT_INV_CMD, and the invalidation that each asks for. -/
def invalCommands (s : State) (d part inst ctx count : Nat) (src : Source) : List (Instr × XInval) :=
  [(.xltInvalRange d part inst ctx count src, ⟨d, 1, part, inst, ctx, s.rd d Reg.XLT_INV_ADDR, count % 0x10000⟩),
    (.xltInvalContext d part inst ctx src, ⟨d, 2, part, inst, ctx, s.rd d Reg.XLT_INV_ADDR, 0⟩),
    (.xltInvalInstance d part inst src, ⟨d, 3, part, inst, 0, s.rd d Reg.XLT_INV_ADDR, 0⟩),
    (.xltInvalPartition d part src, ⟨d, 4, part, 0, 0, s.rd d Reg.XLT_INV_ADDR, 0⟩)]

/-- What an invalidation does once the fields of its command are written does the command. -/
theorem completes_of_invalidate {part inst ctx count : Nat} {src : Source} {c : Instr} {P : State → Prop}
    (hc : (c, x) ∈ invalCommands s d part inst ctx count src) (hd : d < dieCount s.orderCode)
    (ok : wardenOk s part src = true) (h : x.die = d → x.part = part → x.scope ≠ 5 → ∀ u, FieldsBut invFields s u →
      u.rd d Reg.XLT_INV_DONE = s.rd d Reg.XLT_INV_DONE → u = { s with regs := u.regs } → P (invalidate x u)) :
    Completes c s P := by
  have acts {scope inst ctx count : Nat} (command : scope ≠ 5)
      (is : x = ⟨d, scope, part, inst, ctx, s.rd d Reg.XLT_INV_ADDR, count % 0x10000⟩) :
      P (invCommand d scope part inst ctx count src s) := by
    subst is
    rw [invCommand_of_ok ok]
    exact h rfl rfl command _ (fieldsBut_commanded d part inst ctx count s) (rd_commanded_done ..) rfl
  simp only [invalCommands, List.mem_cons, List.not_mem_nil, or_false, Prod.mk.injEq] at hc
  obtain ⟨rfl, is⟩ | ⟨rfl, is⟩ | ⟨rfl, is⟩ | ⟨rfl, is⟩ := hc
  · exact completes_of_onDie (execXltInvalRange d part inst ctx count src s) rfl rfl hd (acts (by decide) is)
  · exact completes_of_onDie (execXltInvalContext d part inst ctx src s) rfl rfl hd
      (acts (count := 0) (by decide) is)
  · exact completes_of_onDie (execXltInvalInstance d part inst src s) rfl rfl hd (acts (count := 0) (by decide) is)
  · exact completes_of_onDie (execXltInvalPartition d part src s) rfl rfl hd (acts (count := 0) (by decide) is)

theorem fieldsBut_accepted (x : XInval) (s : State) : FieldsBut invFields s (accepted x s) :=
  (FieldsBut.of_regs (t := queued x s) rfl).trans (fieldsBut_invStatus x.die _)

theorem completes_inval_answered {part inst ctx count : Nat} {src : Source} {c : Instr}
    (hc : (c, x) ∈ invalCommands s d part inst ctx count src) (hd : d < dieCount s.orderCode)
    (ok : wardenOk s part src = true) (empty : invalsOf s d = []) (answered : silentDie s part = none)
    (free : resetCovers s x = false) (pages : x.scope = 1 → x.count ≠ 0) : Completes c s (fun t =>
      t.rd d Reg.XLT_INV_STATUS_RESULT = 0 ∧ t.rd d Reg.XLT_INV_STATUS_BUSY = 0 ∧
      t.rd d Reg.XLT_INV_DONE = min (s.rd d Reg.XLT_INV_DONE + 1) (2 ^ 32 - 1) ∧
      (∀ e ∈ t.xlt.tlb, ¬(inScope x e.part e.inst e.ctx = true ∧ inRange x e.va e.size = true)) ∧
      (∀ e ∈ s.xlt.tlb, inScope x e.part e.inst e.ctx = false → e ∈ t.xlt.tlb) ∧ t.slc = s.slc ∧ t.core = s.core) := by
  refine completes_of_invalidate hc hd ok fun die part_ command u fields counted same => ?_
  subst die part_
  have empty' : invalsOf u x.die = [] := by rw [same]; exact empty
  have halves : HalvesAs s (accepted x u) :=
    (fields.trans (fieldsBut_accepted x u)).halvesAs (by rw [same]; rfl) rfl
  have answered' : silentDie (accepted x u) x.part = none :=
    (silentDie_congr halves (by rw [same]; rfl) x.part).trans answered
  have free' : resetCovers (accepted x u) x = false := by
    have prt : (accepted x u).prt = s.prt := by rw [same]; rfl
    rw [resetCovers, prt]
    exact free
  rw [invalidate_of_room empty' pages, drainInvals_of_answered (invalsOf_accepted empty') (fun _ => free') answered']
  have one : invalsOf (copiesDropped x (accepted x u)) x.die = [x] :=
    (invalsOf_copiesDropped ..).trans (invalsOf_accepted empty')
  obtain ⟨ends, -, result, idle, done, -⟩ := ended_invalEnd one 0
  generalize invalEnd x 0 (copiesDropped x (accepted x u)) = t at *
  have kept := copiesDropped_keeps x (accepted x u)
  have tlb : t.xlt.tlb = s.xlt.tlb.filter (fun e => !(inScope x e.part e.inst e.ctx && inRange x e.va e.size)) := by
    rw [ends, copiesDropped, if_neg command, same]
    rfl
  refine ⟨result, idle, ?_, fun e he => ?_, fun e he out => ?_, ?_, ?_⟩
  · rw [done command, State.rd_of_regs (kept.regs id), accepted, rd_invStatus_apart rfl rfl]
    exact congrArg (fun n => min (n + 1) (2 ^ 32 - 1)) counted
  · rw [tlb] at he
    have kept := (List.mem_filter.mp he).2
    rw [Bool.not_eq_true', Bool.and_eq_false_iff] at kept
    rintro ⟨scope, range⟩
    rw [scope, range] at kept
    simp at kept
  · rw [tlb]
    exact List.mem_filter.mpr ⟨he, by rw [out]; rfl⟩
  · rw [ends]
    exact (kept.slc id).trans (by rw [same]; rfl)
  · rw [ends]
    exact (kept.core id).trans (by rw [same]; rfl)

theorem completes_inval_held {part inst ctx count : Nat} {src : Source} {c : Instr}
    (hc : (c, x) ∈ invalCommands s d part inst ctx count src) (hd : d < dieCount s.orderCode)
    (ok : wardenOk s part src = true) (pages : x.scope = 1 → x.count ≠ 0) (empty : invalsOf s d = [])
    (held : silentDie s part ≠ none ∨ resetCovers s x = true) : Completes c s (fun t =>
      t.xlt.queue = s.xlt.queue ++ [x] ∧ t.rd d Reg.XLT_INV_STATUS_BUSY = 1 ∧
      t.rd d Reg.XLT_INV_DONE = s.rd d Reg.XLT_INV_DONE ∧ t.slc = s.slc ∧ t.core = s.core) := by
  refine completes_of_invalidate hc hd ok fun die part_ command u fields counted same => ?_
  subst die part_
  have empty' : invalsOf u x.die = [] := by rw [same]; exact empty
  have halves : HalvesAs s (accepted x u) :=
    (fields.trans (fieldsBut_accepted x u)).halvesAs (by rw [same]; rfl) rfl
  have held' : silentDie (accepted x u) x.part ≠ none ∨ (x.scope ≠ 5 ∧ resetCovers (accepted x u) x = true) := by
    have prt : (accepted x u).prt = s.prt := by rw [same]; rfl
    rw [silentDie_congr halves (by rw [same]; rfl) x.part, resetCovers, prt]
    exact held.imp id fun covers => ⟨command, covers⟩
  have shows {t : State} (queue : t.xlt.queue = (accepted x u).xlt.queue) (kept : Keeps { noFrame with xlt := True } (accepted x u) t) :
      t.xlt.queue = s.xlt.queue ++ [x] ∧ t.rd x.die Reg.XLT_INV_STATUS_BUSY = 1 ∧
      t.rd x.die Reg.XLT_INV_DONE = s.rd x.die Reg.XLT_INV_DONE ∧ t.slc = s.slc ∧ t.core = s.core := by
    have one : invalsOf (queued x u) x.die = [x] := invalsOf_accepted empty'
    refine ⟨queue.trans (by rw [same]; rfl), ?_, ?_, (kept.slc id).trans (by rw [same]; rfl),
      (kept.core id).trans (by rw [same]; rfl)⟩
    · rw [State.rd_of_regs (kept.regs id), accepted, rd_invStatus_busy, one]
      rfl
    · rw [State.rd_of_regs (kept.regs id), accepted, rd_invStatus_apart rfl rfl]
      exact counted
  rw [invalidate_of_room empty' pages]
  obtain stays | drops := drainInvals_of_held (invalsOf_accepted empty') held' 8
  · rw [stays]
    exact shows rfl (.refl _ _)
  · rw [drops]
    refine shows ?_ (copiesDropped_keeps x _)
    rw [copiesDropped, if_neg command]
    rfl

/-- A further command finds nine accepted (assumption log 125). -/
theorem completes_inval_full {part inst ctx count : Nat} {src : Source} {c : Instr}
    (hc : (c, x) ∈ invalCommands s d part inst ctx count src) (hd : d < dieCount s.orderCode)
    (ok : wardenOk s part src = true) (full : 9 ≤ (invalsOf s d).length) : Completes c s (fun t =>
      t.xlt = s.xlt ∧ t.rd d Reg.XLT_INV_STATUS_RESULT = 1 ∧ t.rd d Reg.XLT_INV_DONE = s.rd d Reg.XLT_INV_DONE) := by
  refine completes_of_invalidate hc hd ok fun die part_ command u fields counted same => ?_
  subst die
  have full' : 9 ≤ (invalsOf u x.die).length := by rw [same]; exact full
  have refused : invalidate x u = u.wr x.die Reg.XLT_INV_STATUS_RESULT 1 := if_pos full'
  rw [refused]
  refine ⟨?_, State.rd_wr_same .., (State.rd_wr_apart rfl ..).trans counted⟩
  rw [same]
  rfl

/-! ### Time-outs -/

/-- The one invalidation of a die times out (R495). -/
theorem completes_xltInvTimeout {silent : Nat} (hd : d < dieCount s.orderCode) (one : invalsOf s d = [x])
    (named : (imgParts s).contains x.part = true) : Completes (.xltInvTimeout d silent) s (fun t =>
      t.prt.faulted.contains x.part = true ∧ t.rd d Reg.XLT_INV_STATUS_RESULT = 2 ∧
      t.xlt.queue = s.xlt.queue.erase x) := by
  obtain rfl : x.die = d := by
    have member : x ∈ invalsOf s d := one ▸ List.mem_singleton_self x
    simpa [natBeq_decide] using (List.mem_filter.mp member).2
  let payload : List PF := [pf 1 x.part, pf 1 (if x.scope = 5 then 3 else x.scope), pf 1 silent, pf 5 0]
  let told : State := emit x.die 6 0x0A0 3 (partSealed s x.part) payload s
  let u : State := partFault x.part 0x0E x.die 0x0A0 (nextSeq s x.die) told
  have queue : u.xlt.queue = s.xlt.queue :=
    (routesOnly_partFault x.part 0x0E x.die 0x0A0 (nextSeq s x.die) (.refl told)).queue
  have one' : invalsOf u x.die = [x] := by
    rw [invalsOf, queue]
    exact one
  have known : Known told x.part := .inr named
  have faulted : u.prt.faulted.contains x.part = true := by
    rw [faulted_partFault known]
    exact contains_addNat_same _ _
  obtain ⟨ends, none_, result, -, -, -⟩ := ended_invalEnd one' 2
  have acts : invTimeout x.die silent s = invalEnd x 2 u := by
    rw [invTimeout, one]
    exact drainInvals_of_none none_ 9
  refine completes_of_onDie (execXltInvTimeout x.die silent s) rfl rfl hd ?_
  rw [acts]
  generalize invalEnd x 2 u = t at *
  refine ⟨?_, result, ?_⟩
  · rw [ends]
    exact faulted
  · rw [ends]
    exact congrArg (·.erase x) queue

/-! ### Writes of XLT_CTX_BASE (R483) -/

/-- XLT_CTX_BASE of any instance of either half. -/
def ctxBaseFields : List Fld := (List.range 64).map Reg.XLT_CTX_BASE_VALID ++ (List.range 64).map Reg.XLT_CTX_BASE_BASE

theorem ctxBaseValid_mem {k : Nat} (hk : k < 64) : Reg.XLT_CTX_BASE_VALID k ∈ ctxBaseFields :=
  List.mem_append_left _ (List.mem_map.2 ⟨k, List.mem_range.2 hk, rfl⟩)

theorem ctxBaseBase_mem {k : Nat} (hk : k < 64) : Reg.XLT_CTX_BASE_BASE k ∈ ctxBaseFields :=
  List.mem_append_right _ (List.mem_map.2 ⟨k, List.mem_range.2 hk, rfl⟩)

/-- The context base of instance slot `k` of die `d`. -/
def baseWritten (d k : Nat) (v : Word) (s : State) : State :=
  (s.wr d (Reg.XLT_CTX_BASE_VALID k) (v.toNat % 2)).wr d (Reg.XLT_CTX_BASE_BASE k) (bits v.toNat 51 12)

theorem baseWritten_shows (d k : Nat) (v : Word) (s : State) :
    (baseWritten d k v s).rd d (Reg.XLT_CTX_BASE_VALID k) = v.toNat % 2 ∧
      (baseWritten d k v s).rd d (Reg.XLT_CTX_BASE_BASE k) = bits v.toNat 51 12 :=
  ⟨(State.rd_wr_offset rfl ..).trans ((State.rd_wr_same ..).trans (Nat.mod_mod ..)),
    (State.rd_wr_same ..).trans (Nat.mod_mod ..)⟩

/-- A value that a field holds, written to it or to another of its shape, leaves it. -/
theorem rd_wr_sameValue {d e v : Nat} (f g : Fld) (reset : f.reset = g.reset) (was : s.rd d f = v)
    (fits : v % 2 ^ g.width = v) : (s.wr e g v).rd d f = v :=
  (State.rd_wr_of_rd reset (was.trans fits.symm)).trans fits

/-- The same base written to another slot leaves it. -/
theorem baseWritten_keeps {d e k j : Nat} {v : Word} (h : s.rd d (Reg.XLT_CTX_BASE_VALID k) = v.toNat % 2 ∧
      s.rd d (Reg.XLT_CTX_BASE_BASE k) = bits v.toNat 51 12) :
    (baseWritten e j v s).rd d (Reg.XLT_CTX_BASE_VALID k) = v.toNat % 2 ∧
      (baseWritten e j v s).rd d (Reg.XLT_CTX_BASE_BASE k) = bits v.toNat 51 12 := by
  obtain ⟨valid, base⟩ := h
  constructor
  · rw [baseWritten, State.rd_wr_offset rfl]
    exact rd_wr_sameValue (Reg.XLT_CTX_BASE_VALID k) (Reg.XLT_CTX_BASE_VALID j) rfl valid (Nat.mod_mod ..)
  · refine rd_wr_sameValue (Reg.XLT_CTX_BASE_BASE k) (Reg.XLT_CTX_BASE_BASE j) rfl ?_ (Nat.mod_mod ..)
    rw [State.rd_wr_offset rfl, base]

/-- The context base written on every half of the partition. -/
def basesWritten (p j : Nat) (v : Word) (s : State) : State :=
  each (partHalves s p) (fun s h => baseWritten (h / 2) (32 * (h % 2) + j % 32) v s) s

theorem fieldsBut_basesWritten (p j : Nat) (v : Word) (s : State) :
    FieldsBut ctxBaseFields s (basesWritten p j v s) :=
  .each (fun _ h => ((FieldsBut.of_regs rfl).wr _ _ (ctxBaseValid_mem (by omega))).wr _ _ (ctxBaseBase_mem (by omega))) _ s

theorem basesWritten_shows {p h : Nat} (own : h ∈ partHalves s p) (j : Nat) (v : Word) :
    (basesWritten p j v s).rd (h / 2) (Reg.XLT_CTX_BASE_VALID (32 * (h % 2) + j % 32)) = v.toNat % 2 ∧
      (basesWritten p j v s).rd (h / 2) (Reg.XLT_CTX_BASE_BASE (32 * (h % 2) + j % 32)) = bits v.toNat 51 12 :=
  each_reaches (P := fun _ => True) (Q := fun t =>
    t.rd (h / 2) (Reg.XLT_CTX_BASE_VALID (32 * (h % 2) + j % 32)) = v.toNat % 2 ∧
      t.rd (h / 2) (Reg.XLT_CTX_BASE_BASE (32 * (h % 2) + j % 32)) = bits v.toNat 51 12) own
    (fun _ _ _ _ => trivial) (fun _ _ => baseWritten_shows ..) (fun _ _ _ same => baseWritten_keeps same) trivial

theorem basesWritten_keeps (p j : Nat) (v : Word) (s : State) :
    Keeps { noFrame with regs := True } s (basesWritten p j v s) :=
  each_keeps (fun _ _ h => State.wr_keeps trivial _ _ _ (State.wr_keeps trivial _ _ _ h)) (.refl _ s)

/-- The write of XLT_CTX_BASE as the queue of its die takes it. -/
def ctxBaseRun (d p j : Nat) : XInval := ⟨d, 5, p, j % 32, 0, 0, 0⟩

/-- The copies of the instance's contexts dropped. -/
def ctxsDropped (p j : Nat) (s : State) : State :=
  { s with xlt := { s.xlt with
    ctxs := s.xlt.ctxs.filter (fun e => !(Nat.beq e.part p && Nat.beq e.inst (j % 32))) } }

/-- The state in which the write takes its turn. -/
def ctxBaseTaken (d p j : Nat) (v : Word) (s : State) : State :=
  accepted (ctxBaseRun d p j) (ctxsDropped p j (basesWritten p j v s))

theorem ctxBaseWrite_of_half {j p : Nat} {src : Source} {v : Word} (half : halfPart s d (j / 32) = some p)
    (ok : wardenOk s p src = true) (empty : invalsOf s d = []) :
    ctxBaseWrite d j src v s = drainInvals d 9 (ctxBaseTaken d p j v s) := by
  unfold ctxBaseWrite
  rw [half]
  dsimp only
  rw [ok, empty]
  rfl

theorem completes_xltCtxBaseWrite_free {j : Nat} {src : Source} {v : Word} (hd : d < dieCount s.orderCode) (hj : j < 64)
    (half : halfPart s d (j / 32) = none) : Completes (.xltCtxBaseWrite d j src v) s (fun t =>
      t.rd d (Reg.XLT_CTX_BASE_VALID j) = v.toNat % 2 ∧ t.rd d (Reg.XLT_CTX_BASE_BASE j) = bits v.toNat 51 12 ∧
      RegsBut [(d, Reg.XLT_CTX_BASE_VALID j), (d, Reg.XLT_CTX_BASE_BASE j)] s t ∧ t.xlt = s.xlt) := by
  have acts : ctxBaseWrite d j src v s = baseWritten d j v s := by
    unfold ctxBaseWrite
    rw [half]
    rfl
  refine completes_of_onDie (execXltCtxBaseWrite d j src v s) rfl rfl hd ?_
  rw [if_pos hj, acts]
  obtain ⟨valid, base⟩ := baseWritten_shows d j v s
  exact ⟨valid, base, .wr (.wr (.refl _ s) d (Reg.XLT_CTX_BASE_VALID j) _ (by simp)) d (Reg.XLT_CTX_BASE_BASE j) _ (by simp),
    rfl⟩

theorem completes_xltCtxBaseWrite {j p : Nat} {src : Source} {v : Word} (hd : d < dieCount s.orderCode) (hj : j < 64)
    (half : halfPart s d (j / 32) = some p) (ok : wardenOk s p src = true) (empty : invalsOf s d = []) :
    Completes (.xltCtxBaseWrite d j src v) s (fun t =>
      (silentDie s p = none → invalsOf t d = [] ∧ t.rd d Reg.XLT_INV_STATUS_RESULT = 0 ∧
        t.rd d Reg.XLT_INV_STATUS_BUSY = 0) ∧
      (silentDie s p ≠ none → invalsOf t d = [⟨d, 5, p, j % 32, 0, 0, 0⟩] ∧ t.rd d Reg.XLT_INV_STATUS_BUSY = 1) ∧
      (∀ h ∈ partHalves s p, t.rd (h / 2) (Reg.XLT_CTX_BASE_VALID (32 * (h % 2) + j % 32)) = v.toNat % 2 ∧
        t.rd (h / 2) (Reg.XLT_CTX_BASE_BASE (32 * (h % 2) + j % 32)) = bits v.toNat 51 12) ∧
      (∀ e ∈ t.xlt.ctxs, ¬(e.part = p ∧ e.inst = j % 32)) ∧ t.xlt.tlb = s.xlt.tlb) := by
  have kept := basesWritten_keeps p j v s
  have wrote := fieldsBut_basesWritten p j v s
  have shows (h : Nat) (own : h ∈ partHalves s p) := basesWritten_shows own j v
  have acts := ctxBaseWrite_of_half (v := v) half ok empty
  unfold ctxBaseTaken at acts
  generalize basesWritten p j v s = u at *
  let x := ctxBaseRun d p j
  let w : State := accepted x (ctxsDropped p j u)
  have one : invalsOf w x.die = [x] := by
    refine invalsOf_accepted ?_
    show u.xlt.queue.filter _ = []
    rw [kept.xlt id]
    exact empty
  have taken : FieldsBut invFields u w := (FieldsBut.of_regs (t := ctxsDropped p j u) rfl).trans (fieldsBut_accepted x _)
  have halves : HalvesAs s w :=
    HalvesAs.trans (wrote.halvesAs kept.orderCode (by decide)) (taken.halvesAs rfl rfl)
  have silent : silentDie w x.part = silentDie s p := silentDie_congr halves (kept.boot id) p
  have apart : (∀ k < 64, invFields.all (Reg.XLT_CTX_BASE_VALID k).apart = true) ∧
      ∀ k < 64, invFields.all (Reg.XLT_CTX_BASE_BASE k).apart = true := by decide
  have bases {t : State} (fields : FieldsBut invFields u t) (h : Nat) (own : h ∈ partHalves s p) :
      t.rd (h / 2) (Reg.XLT_CTX_BASE_VALID (32 * (h % 2) + j % 32)) = v.toNat % 2 ∧
        t.rd (h / 2) (Reg.XLT_CTX_BASE_BASE (32 * (h % 2) + j % 32)) = bits v.toNat 51 12 := by
    obtain ⟨valid, base⟩ := shows h own
    exact ⟨(fields _ _ (apart.1 _ (by omega))).trans valid, (fields _ _ (apart.2 _ (by omega))).trans base⟩
  have ctxs (e : CtxCopy) (he : e ∈ (ctxsDropped p j u).xlt.ctxs) : ¬(e.part = p ∧ e.inst = j % 32) := by
    rintro ⟨part, inst⟩
    have stays := (List.mem_filter.mp he).2
    simp [part, inst] at stays
  have tlb : u.xlt.tlb = s.xlt.tlb := by rw [kept.xlt id]
  refine completes_of_onDie (execXltCtxBaseWrite d j src v s) rfl rfl hd ?_
  rw [if_pos hj, acts]
  show _ ∧ _
  cases die : silentDie s p with
  | none =>
    have turn : drainInvals d 9 w = invalEnd x 0 w :=
      drainInvals_of_answered one (fun not_ => absurd rfl not_) (silent.trans die) 8
    obtain ⟨ends, none_, result, idle, -, fields⟩ := ended_invalEnd one 0
    rw [turn]
    generalize invalEnd x 0 w = t at *
    refine ⟨fun _ => ⟨none_, result, idle⟩, fun not_ => absurd rfl not_, bases (taken.trans fields), ?_, ?_⟩
    · rw [ends]
      exact ctxs
    · rw [ends]
      exact tlb
  | some e =>
    have turn : drainInvals d 9 w = w :=
      (drainInvals_of_held one (.inl (by rw [silent, die]; exact Option.some_ne_none e)) 8).elim id id
    have busy : w.rd d Reg.XLT_INV_STATUS_BUSY = 1 := by
      have one' : invalsOf (queued x (ctxsDropped p j u)) x.die = [x] := one
      show (invStatus x.die (queued x (ctxsDropped p j u))).rd x.die _ = 1
      rw [rd_invStatus_busy, one']
      rfl
    rw [turn]
    exact ⟨nofun, fun _ => ⟨one, busy⟩, bases taken, ctxs, tlb⟩

/-! ### Walks -/

theorem completes_pageWalk_far {c part inst ctx va : Nat} {wr ex : Bool} (hd : d < dieCount s.orderCode)
    (far : 2 ^ 48 ≤ va) : Completes (.pageWalk d c part inst ctx va wr ex) s (fun t => t = s) := by
  refine completes_of_onDie (execPageWalk d c part inst ctx va wr ex s) rfl rfl hd ?_
  simp only [pageWalk, translate, if_pos far]

/-- A hit in a TLB that is not beyond its size stands there as the newest entry. -/
theorem tlbLook_of_hit {level unit va : Nat} {b : XBy} {e : Tlb}
    (found : s.xlt.tlb.find? (fun e => e.covers level unit b va) = some e) (live : stale s b.die e.stamp e.lease = false)
    (first : e.level = 0)
    (room : (s.xlt.tlb.filter (fun x => Nat.beq x.level 0 && Nat.beq x.die e.die && Nat.beq x.unit e.unit)).length ≤ 256) :
    tlbLook level unit b va s = (some e, { s with xlt := { s.xlt with tlb := s.xlt.tlb.erase e ++ [e] } }) := by
  have member := List.mem_of_find?_eq_some found
  have fewer : ((s.xlt.tlb.erase e).filter (fun x => Nat.beq x.level 0 && Nat.beq x.die e.die && Nat.beq x.unit e.unit)).length
      < 256 := by
    have own : e ∈ s.xlt.tlb.filter (fun x => Nat.beq x.level 0 && Nat.beq x.die e.die && Nat.beq x.unit e.unit) :=
      List.mem_filter.mpr ⟨member, by simp [first]⟩
    rw [← List.erase_filter, List.length_erase_of_mem own]
    have some_ := List.length_pos_of_mem own
    omega
  have put : tlbPut e { s with xlt := { s.xlt with tlb := s.xlt.tlb.erase e } } =
      { s with xlt := { s.xlt with tlb := s.xlt.tlb.erase e ++ [e] } } := by
    unfold tlbPut cachePut
    simp only [first]
    rw [if_neg (by simpa [tlbSize, show Nat.beq 0 1 = false from rfl] using fewer)]
  rw [tlbLook, found]
  dsimp only
  rw [if_neg (ne_true_of_eq_false live), put]

theorem completes_pageWalk_hit {c part inst ctx va : Nat} {wr ex : Bool} {e : Tlb} (hd : d < dieCount s.orderCode)
    (near : va < 2 ^ 48)
    (found : s.xlt.tlb.find? (fun e => e.covers 0 c ⟨d, 0, c, part, inst, ctx, 1, clusterSide c, c⟩ va) = some e)
    (live : stale s d e.stamp e.lease = false) (level : e.level = 0) (die : e.die = d) (unit : e.unit = c)
    (room : (s.xlt.tlb.filter (fun x => Nat.beq x.level 0 && Nat.beq x.die d && Nat.beq x.unit c)).length ≤ 256) :
    Completes (.pageWalk d c part inst ctx va wr ex) s (fun t =>
      t.xlt.tlb = s.xlt.tlb.erase e ++ [e] ∧ t.regs = s.regs ∧ t.slc = s.slc) := by
  subst die unit
  have look := tlbLook_of_hit found live level room
  have acts : pageWalk e.die e.unit part inst ctx va wr ex s =
      { s with xlt := { s.xlt with tlb := s.xlt.tlb.erase e ++ [e] } } := by
    simp only [pageWalk, translate, if_neg (Nat.not_le.mpr near), look]
  refine completes_of_onDie (execPageWalk e.die e.unit part inst ctx va wr ex s) rfl rfl hd ?_
  rw [acts]
  exact ⟨rfl, rfl, rfl⟩

/-- Settles O55: an entry that opens sends its MSI (`irqRelease_sends`), the one invalidation of a die ends or waits
(`drainInvals_of_answered`, `drainInvals_of_held`), and the fault of a time-out leaves the queue (`routesOnly_partFault`).
An address of 2^48 or more is never walked for and the ninth waiting command is refused: assumption logs 58 and 125. -/
theorem interruptsAndTranslation : Obligations.InterruptsAndTranslation :=
  ⟨⟨fun _ _ _ _ _ => completes_irqMapAddrWrite, fun _ _ _ _ _ => completes_irqMapDataWrite,
      fun _ _ _ _ _ _ => completes_irqMap_denied, fun _ _ _ _ _ _ _ _ => completes_irq_sends⟩,
    fun _ _ _ _ _ _ _ _ _ hc hd ok empty answered free pages =>
      completes_inval_answered hc hd ok empty answered free pages,
    fun _ _ _ _ _ _ _ _ _ hc hd ok pages =>
      ⟨fun ⟨empty, held⟩ => completes_inval_held hc hd ok pages empty held, completes_inval_full hc hd ok⟩,
    fun _ _ _ _ => completes_xltInvTimeout, fun _ _ _ _ _ => completes_xltCtxBaseWrite_free,
    fun _ _ _ _ _ _ => completes_xltCtxBaseWrite, fun _ _ _ _ _ _ _ _ _ _ => completes_pageWalk_hit,
    fun _ _ _ _ _ _ _ _ _ => completes_pageWalk_far⟩

end Sys2Proof.Machine
end
